-- ==== Sys2Proof/Word.lean ====
section
/-! DEFINITION. The word types of the LKW36-A model and the index types of its numbered parts. -/

namespace Sys2Proof

/-- One byte of memory, of a message or of an image (R9). -/
abbrev Byte := BitVec 8

/-- A byte string in memory order, lowest address first (R9: little-endian). -/
abbrev Bytes := List Byte

/-- A BAR0 register word (R10). -/
abbrev Word := BitVec 32

/-- An event or error code 0xCCNN (R12). 0x0000 is "no event". -/
abbrev Code := BitVec 16

/-- A context slot, 0 to 7 (R291). -/
abbrev Slot := Fin 8

/-- A queue of a context, 0 to 15 (R271). -/
abbrev QId := Fin 16

/-- A plane port, and the plane it joins, 0 to 15 (R7, R17). -/
abbrev PortId := Fin 16

/-- A compute die, 6 × die row + die column (Table 5-1). -/
abbrev DieId := Fin 36

/-- A tile or the router beneath it, 72 × global row + global column (R7, R36). -/
abbrev TileId := Fin 5184

/-- A deck supply zone, 0 to 8 (R18). -/
abbrev ZoneId := Fin 9

/-- A CXL port, 0 or 1 (R262). -/
abbrev CxlId := Fin 2

/-- A memory stack, 0 to 11 (Table 2-3). -/
abbrev StackId := Fin 12

end Sys2Proof
end

