-- ==== Sys2Proof/Wire.lean ====
section
/-! DEFINITION. The operand types of the commands: what crosses the engine's boundary of Table 1-6
(messages, samples, requests), as plain data. Syntax.lean names them in the constructors of Instr. -/

namespace Sys2Proof

/-- The two alert pins of R336. -/
inductive AlertPin where
  | vr
  | psu
  deriving DecidableEq, Repr

/-- The tile state a heartbeat carries (R40). -/
inductive HbState where
  | awake
  | asleep
  | halted
  deriving DecidableEq, Repr

/-- One direction of one mesh or edge link: the router that drives it and the direction code of
Table 2-6 (0 north, 1 east, 2 south, 3 west, 4 edge south or north, 5 edge west or east). -/
structure LinkDir where
  router : TileId
  dir : Fin 6
  deriving DecidableEq, Repr

/-- A part that the targeted self-test covers (R380, Table 15-2). -/
inductive Part where
  | tileRow (t : TileId) (bank : Fin 32) (row : Fin 768)
  | deckRow (t : TileId) (bank : Fin 32) (row : Fin 2048)
  | tile (t : TileId)
  | cellColumn (t : TileId) (col : Fin 8)
  | link (l : LinkDir)
  | stackLine (k : StackId) (line : Nat)
  | hotSpot (d : DieId) (spot : Fin 4)
  | tileSensor (t : TileId)
  deriving DecidableEq, Repr

/-- What a finished self-test found (Table 15-2). `failed` names the failing parts of a tile check;
`tracks` the failed (group, physical track) pairs of a link test; `sensors` the faulty sensor indices
of Table 2-6 of a sensor test. A plain failure is `failed` with the part itself. -/
inductive TestFinding where
  | pass
  | noResponse
  | failed (parts : List Part)
  | tracks (l : List (Nat × Nat))
  | sensors (l : List Nat)
  deriving DecidableEq, Repr

/-- The tray controller's fields at offsets 0x00 to 0x0A (Table 14-3), as one I3C read returns them. -/
structure TrayRegs where
  version : BitVec 16
  seq : Byte
  status : Byte
  flow : BitVec 16
  tIn : BitVec 16
  tOut : BitVec 16
  valve : Byte
  deriving DecidableEq, Repr

/-- The measured input power the power controller reads in one interval, in W at the 54 V input:
each class over the last 1 ms (R342), the whole input (R344), and what the arrays free for ballast
can add (R346). -/
structure PowerSample where
  ports : Nat
  memory : Nat
  compute : Nat
  total : Nat
  ballastMax : Nat
  deriving DecidableEq, Repr

/-- One 1 ms reading of the junction sensors (R359), in hundredths of a degree Celsius. A sensor that
is not listed repeats its last reading. `spots` holds (4 × die + spot, diode, ring oscillator). -/
structure SensorSet where
  spots : List (Fin 144 × Int × Int)
  tiles : List (TileId × Int)
  others : List Int
  deriving DecidableEq, Repr

/-- The tenant and coarse figures formed each millisecond (R319), per cent of the slot that holds
the engine. -/
structure Activity where
  arrayPct : Byte
  vectorPct : Byte
  stackPct : Byte
  portPct : Byte
  deriving DecidableEq, Repr

/-- A management request of R321 but for its opcode, which the row names. -/
structure MgmtReq where
  magic : Word
  version : Word
  cred : Byte
  counter : BitVec 64
  serial : BitVec 64
  epoch : Word
  body : Bytes
  sig : Bytes
  deriving DecidableEq, Repr

/-- The common fields of the 64-byte header of the collective messages (R213, Table 9-3). `arg` is
bytes [15:8]: the block index g or the chunk index; `sub` is byte [1]: try or answer. -/
structure CollHdr where
  sub : Byte
  descId : BitVec 16
  seq : BitVec 32
  arg : BitVec 64
  sender : BitVec 16
  groupSize : BitVec 16
  chartTag : BitVec 32
  maskTag : BitVec 32
  deriving DecidableEq, Repr

/-- The ABORT symbol (Table 9-5). -/
structure AbortSym where
  error : Code
  initiator : BitVec 11
  descId : BitVec 16
  seq : BitVec 32
  chartTag : BitVec 32
  deriving DecidableEq, Repr

/-- A contribution (Table 8-2) with its payload bytes. -/
structure Contribution where
  kind : Byte
  flags : Byte
  escape : Byte
  eAg : Byte
  maxExp : Byte
  magnitude : Byte
  nElements : BitVec 16
  k : BitVec 16
  member : BitVec 16
  owner : BitVec 16
  groupSize : BitVec 16
  step : BitVec 32
  layer : BitVec 16
  descId : BitVec 16
  g : BitVec 64
  checksum : BitVec 32
  expected : BitVec 16
  payload : Bytes
  deriving DecidableEq, Repr

/-- A result (Table 8-4) with its 32-bit sums; also a ring partial, which has the same layout with
kind 0x40 (Table 9-3). Mask bit m is member m (R196). -/
structure ResultMsg where
  kind : Byte
  eAg : Byte
  maxExp : Byte
  nElements : BitVec 16
  nCounted : BitVec 16
  plane : BitVec 16
  owner : BitVec 16
  groupSize : BitVec 16
  step : BitVec 32
  layer : BitVec 16
  descId : BitVec 16
  g : BitVec 64
  checksum : BitVec 32
  contrib : BitVec 2048
  poison : BitVec 2048
  overflow : BitVec 2048
  sums : List (BitVec 32)
  deriving DecidableEq, Repr

/-- A result with the endpoint of its sender (Tables 8-4, 10-6). -/
structure SentResult where
  msg : ResultMsg
  src : BitVec 32
  deriving DecidableEq, Repr

/-- The 64-byte reduction messages RESULT_REQ, RESULT_ACK and NO_BLOCK (Table 8-3). -/
structure BlockRef where
  step : BitVec 32
  g : BitVec 64
  member : BitVec 16
  deriving DecidableEq, Repr

/-- A scale notice (Table 8-3). `exps` are bytes [47:32], one signed exponent each. -/
structure ScaleNotice where
  step : BitVec 32
  firstG : BitVec 64
  count : BitVec 16
  exps : List Byte
  deriving DecidableEq, Repr

/-- A shard record (R154): the 256-byte header, the ciphertext and the 16-byte tag. -/
structure ShardRecord where
  header : Bytes
  cipher : Bytes
  tag : Bytes
  deriving DecidableEq, Repr

/-- A shard service message (R160): its 64-byte header and the records behind it. -/
structure ShardMsg where
  header : Bytes
  records : List ShardRecord
  deriving DecidableEq, Repr

/-- The message bits of one codeword (R238): the codeword word in bits [19:0], then the 5,120-bit flit area. -/
abbrev Codeword := BitVec 5140

/-- A Ryxaiq flit as it arrives (R238, R243): the one or two codewords that carry a part of it, none for one that failed to decode,
and its first byte in their flit stream. -/
structure Flit where
  words : List (Option Codeword)
  offset : Nat
  deriving DecidableEq, Repr

/-- Link status values of Table 10-3. -/
inductive LinkStatus where
  | training
  | up
  | curtain
  | test
  | withdrawn
  | down
  deriving DecidableEq, Repr

/-- The kind of a CXL.io or CXL.mem access (R262, R268). -/
inductive AccessKind where
  | ioRequest
  | memRead
  | memWrite
  deriving DecidableEq, Repr

/-- What a background scrub met at the lines it read (R32, R385). -/
inductive ScrubFinding where
  | clean
  | tileCorrected (t : TileId) (bank : Fin 32) (row : Fin 768)
  | tileUncorrectable (t : TileId) (bank : Fin 32) (row : Fin 768)
  | deckCorrected (t : TileId) (bank : Fin 32) (row : Fin 2048)
  | deckUncorrectable (t : TileId) (bank : Fin 32) (row : Fin 2048)
  | stackCorrected (k : StackId) (line : Nat)
  | stackUncorrectable (k : StackId) (line : Nat) (content : Fin 6) (index : Nat)
  | round (ofStacks : Bool)     -- R385, R32: every stack line, or every SRAM word, has been read once more
  deriving DecidableEq, Repr

/-- An SRAM or stack error a cue's or a completion's accesses meet, or none (R32, R385). -/
abbrev EccFinding := ScrubFinding

/-- A tile's heartbeats as one receiver sees them: its neighbour in a direction (0 to 3), or its own router (4) (R40). -/
structure HbPath where
  tile : TileId
  receiver : Fin 5
  deriving DecidableEq, Repr

/-- A fault of the arithmetic that an element meets in a cue: the residue mismatch of R77 or the
bound violation of R73, at an output row and column. -/
inductive ArithFault where
  | none
  | residue (row col : Nat)
  | bound (row col : Nat)
  deriving DecidableEq, Repr

/-- The end of a tile's deferred entry, with the fault that the entry started next meets, if any (R139). -/
structure EntryEnd where
  tile : TileId
  fault : ArithFault
  deriving DecidableEq, Repr

end Sys2Proof
end

