-- ==== Sys2Proof/Syntax.lean ====
section
/-! DEFINITION. The commands of the block: one constructor per row of spec/opcode_table.json, in the
table's order, with the values that cross the engine's boundary (or that the engine's own sensors
read) as operands. A row the engine starts by itself carries no more than the part it names. -/

namespace Sys2Proof

/-- The 218 commands. Each docstring line names the row. -/
inductive Instr where
  /-- HOUSE_RST_N_ASSERT: the pin has been low for `ticks` house-clock ticks (R413). -/
  | houseRstNAssert (ticks : Nat)
  /-- HOUSE_RST_N_RISE (R415). -/
  | houseRstNRise
  /-- KEYS_UP (R415). -/
  | keysUp
  /-- COOLANT_GATE_START: the tray's registers as read at 100 ms, none if the read fails (R416). -/
  | coolantGateStart (tray : Option TrayRegs)
  /-- COOLANT_GATE_PASS (R416). -/
  | coolantGatePass
  /-- COOLANT_GATE_TIMEOUT (R416). -/
  | coolantGateTimeout
  /-- DECK_ZONE_UP: the zone under way reaches power-good within 5 ms, or does not (R418). -/
  | deckZoneUp (good : Bool)
  /-- DECK_CHECK: the lasting faults it finds (R415). -/
  | deckCheck (faults : List Part) (tracks : List (LinkDir × Nat × Nat))
  /-- STACK_BRING_UP: whether a stack fails its PHY, check or repair (R418). -/
  | stackBringUp (fail : Bool)
  /-- STACK_INITIALISATION_DONE (R415). -/
  | stackInitialisationDone
  /-- CREDENTIAL_WINDOW_EXPIRE (R323). -/
  | credentialWindowExpire
  /-- PWR_GOOD_LOSS (R420). -/
  | pwrGoodLoss
  /-- PWR_GOOD_RESTORE (R420). -/
  | pwrGoodRestore
  /-- INPUT_POWER_LOSS (R303). -/
  | inputPowerLoss
  /-- TRAY_RELEASE (R393). -/
  | trayRelease
  /-- TRAY_RELEASE_WITHDRAWN (R394). -/
  | trayReleaseWithdrawn
  /-- ALERT_PIN_ASSERT: a low level of `widthPs` picoseconds so far (R336). -/
  | alertPinAssert (pin : AlertPin) (widthPs : Nat)
  /-- ALERT_PIN_CLEAR: a deglitched high level (R339). -/
  | alertPinClear (pin : AlertPin)
  /-- CLAMP_RELEASE: 10 ms after the last source cleared, with the measured input power (R339). -/
  | clampRelease (measuredW : Nat)
  /-- DECK_ZONE_LOSS (R392). -/
  | deckZoneLoss (zone : ZoneId)
  /-- DIE_SUPPLY_TRIP (R390). -/
  | dieSupplyTrip (die : DieId)
  /-- DIE_ISOLATION (R53). -/
  | dieIsolation (die : DieId)
  /-- DIE_REGULATOR_LATCH_OFF (R390). -/
  | dieRegulatorLatchOff (die : DieId)
  /-- DIE_RAIL_RAMP_START (R335). -/
  | dieRailRampStart (die : DieId)
  /-- DIE_RAILS_UP (R335). -/
  | dieRailsUp (die : DieId)
  /-- DIE_CLOCK_LOCK_TIMEOUT: 100 µs after the rails came up; `locked` if the clocks did lock (R335). -/
  | dieClockLockTimeout (die : DieId) (locked : Bool)
  /-- POWER_CONTROL_INTERVAL (R348). -/
  | powerControlInterval (m : PowerSample)
  /-- DEFERRED_SLEEP_STOP (R346). -/
  | deferredSleepStop (tile : TileId)
  /-- THERMAL_RAMP_CHECK: the mean tile temperature now, in hundredths of a degree (R347). -/
  | thermalRampCheck (meanCenti : Int)
  /-- OSCILLATOR_RETUNE (R331). -/
  | oscillatorRetune
  /-- DROOP_DETECT: a tile's supply lies `dropPermille` below the set voltage (R334). -/
  | droopDetect (tile : TileId) (dropPermille : Nat)
  /-- DROOP_RECOVER: 16 consecutive cycles within 4 % (R334). -/
  | droopRecover (tile : TileId)
  /-- LEASE_EXPIRE (R340). -/
  | leaseExpire
  /-- MARGIN_SAMPLE: the worst slack of a die's monitors, in tenths of a per cent of the period (R351). -/
  | marginSample (die : DieId) (slackPermille : Nat)
  /-- ENERGY_ACCUMULATE: the measured input power averaged over the last 100 ms (R349, R319). -/
  | energyAccumulate (measuredW : Nat)
  /-- TELEMETRY_UPDATE (R319). -/
  | telemetryUpdate (a : Activity)
  /-- SENSOR_SAMPLE (R360). -/
  | sensorSample (r : SensorSet)
  /-- THROTTLE_STEP: a 10 ms or 100 ms step of the throttle (R365). -/
  | throttleStep
  /-- THROTTLE_CLAMP_TIMEOUT (R365). -/
  | throttleClampTimeout
  /-- THERMAL_TRIP (R366). -/
  | thermalTrip
  /-- SENSOR_PAIR_RETEST (R361). -/
  | sensorPairRetest (die : DieId) (spot : Fin 4)
  /-- THERMAL_MODEL_ADVANCE: the measured power of each die, in W (R368). -/
  | thermalModelAdvance (dieW : List Nat)
  /-- HEAT_FORECAST (R369). -/
  | heatForecast
  /-- TRAY_READ: what the I3C read returns, none if it fails (R358). -/
  | trayRead (tray : Option TrayRegs)
  /-- TRAY_READING_STALE: 2 ms without a good reading (R358). -/
  | trayReadingStale
  /-- FLOW_CLAMP_CLEAR (R372). -/
  | flowClampClear
  /-- SUDDEN_STOP_RECOVER (R373). -/
  | suddenStopRecover
  /-- COOLANT_HALT (R373). -/
  | coolantHalt
  /-- HALTED (R373). -/
  | halted
  /-- FLOW_POWER_OFF (R366). -/
  | flowPowerOff
  /-- HALT_EXIT (R374). -/
  | haltExit
  /-- HEAT_BALANCE_CHECK: the measured input power against the heat removed (R376). -/
  | heatBalanceCheck (measuredW : Nat)
  /-- STAGE: a write of go with op stage (R121). -/
  | stage (slot : Slot)
  /-- UNSTAGE: a write of go with op unstage (R126). -/
  | unstage (slot : Slot)
  /-- LOAD_GO_RESERVED_OP: a write of go with a reserved op (R119). -/
  | loadGoReservedOp (op : BitVec 4) (slot : Slot)
  /-- CHART_CHECK_DONE (R121). -/
  | chartCheckDone
  /-- UNSTAGE_DONE (R126). -/
  | unstageDone
  /-- LOAD_STATUS_READ (R120). -/
  | loadStatusRead
  /-- CHART_INSTALL_COMPLETE (R125). -/
  | chartInstallComplete
  /-- REGION_RESTAGE (R127). -/
  | regionRestage
  /-- REPLAY_OPEN_LAYER (R386). -/
  | replayOpenLayer
  /-- SELF_TEST_START (R380). -/
  | selfTestStart (part : Part)
  /-- SELF_TEST_RESULT (R382). -/
  | selfTestResult (part : Part) (finding : TestFinding)
  /-- BACKGROUND_SCRUB (R405). -/
  | backgroundScrub (finding : ScrubFinding)
  /-- DECK_WEIGHT_RECHECK: the deck area of one tile pinned for 60 s (R167). -/
  | deckWeightRecheck (area : BitVec 16)
  /-- MODEL_STORE_RECHECK (R168). -/
  | modelStoreRecheck (slot : Slot) (shard : Nat)
  /-- NV_UPKEEP: whether the inactive bank matches its digest when read (R405). -/
  | nvUpkeep (matches' : Bool)
  /-- HEARTBEAT_SEND (R40). -/
  | heartbeatSend (tile : TileId)
  /-- HEARTBEAT_RECEIVE: the path names the sender and the receiver that gets its heartbeat (R40). -/
  | heartbeatReceive (path : HbPath) (state : HbState)
  /-- TILE_SILENT: a tile as one of its receivers finds it (R40). -/
  | tileSilent (path : HbPath)
  /-- MESH_CRC_ERROR: what the receiver takes from the direction's 578 physical tracks (R37, R38). -/
  | meshCrcError (link : LinkDir) (wires : BitVec 578)
  /-- MESH_REPLAY_REQ (R38). -/
  | meshReplayReq (link : LinkDir) (seq : BitVec 6)
  /-- CUE_ISSUE: the tile's next cue, with the ECC error and the arithmetic fault it meets, if any (R133). -/
  | cueIssue (tile : TileId) (ecc : EccFinding) (fault : ArithFault)
  /-- DEFERRED_ENTRY_COMPLETE (R139), with the fault of the arithmetic that the entry started next meets, if any. -/
  | deferredEntryComplete (e : EntryEnd)
  /-- CUE_COMPLETE: the running cue with this index in the tile's list (R133). -/
  | cueComplete (tile : TileId) (index : Nat) (ecc : EccFinding)
  /-- ROUTE_SIGNAL_ARRIVE (R135). -/
  | routeSignalArrive (tile : TileId) (ctr : Fin 64) (layer : BitVec 16)
  /-- PROMPTER_WAIT_LONG (R149). -/
  | prompterWaitLong (tile : TileId)
  /-- PASS_COMPLETE (R136). -/
  | passComplete
  /-- QUEUE_ENTRY_WRITE: a CXL.mem write of up to one 64-byte line through the active port (R273). -/
  | queueEntryWrite (offset : BitVec 41) (line : Bytes)
  /-- ENTRY_REFUSAL (R278). -/
  | entryRefusal (slot : Slot) (q : QId)
  /-- NOP (R281). -/
  | nop (slot : Slot) (q : QId)
  /-- RUN_PASS (R136). -/
  | runPass (slot : Slot) (q : QId)
  /-- BIND_MANIFEST (R157). -/
  | bindManifest (slot : Slot) (q : QId)
  /-- LOAD_MODEL (R172). -/
  | loadModel (slot : Slot) (q : QId)
  /-- SWAP_MODEL (R173). -/
  | swapModel (slot : Slot) (q : QId)
  /-- RELEASE_MODEL (R158). -/
  | releaseModel (slot : Slot) (q : QId)
  /-- REDUCE_SHARDS (R214). -/
  | reduceShards (slot : Slot) (q : QId)
  /-- COUNTS (R226). -/
  | counts (slot : Slot) (q : QId)
  /-- SCALAR_SUM (R227). -/
  | scalarSum (slot : Slot) (q : QId)
  /-- BROADCAST (R228). -/
  | broadcast (slot : Slot) (q : QId)
  /-- BARRIER (R229). -/
  | barrier (slot : Slot) (q : QId)
  /-- LOG_SNAPSHOT (R286). -/
  | logSnapshot (slot : Slot) (q : QId)
  /-- COMPLETION_RECORD_WRITE (R283). -/
  | completionRecordWrite (slot : Slot)
  /-- COMPLETION_WRITE_DONE (R285). -/
  | completionWriteDone (slot : Slot)
  /-- QUEUE_CANCEL (R276). -/
  | queueCancel (slot : Slot) (q : QId)
  /-- QUEUE_CANCEL_COMPLETE (R276). -/
  | queueCancelComplete (slot : Slot) (q : QId)
  /-- CQ_ENABLE (R284). -/
  | cqEnable (slot : Slot)
  /-- CQ_HEAD_WRITE (R284). -/
  | cqHeadWrite (slot : Slot) (head : BitVec 12)
  /-- TAKE_OVER: a write of take_over through the port's DVSEC (R264). -/
  | takeOver (port : CxlId)
  /-- FAILOVER (R264). -/
  | failover
  /-- ACTIVE_LINK_DOWN (R264). -/
  | activeLinkDown
  /-- AUTO_FAILOVER_TIMEOUT (R264). -/
  | autoFailoverTimeout
  /-- STANDBY_LINK_UP: the standby link, trained at x8 or x4, or its IDE stream comes up (R264). -/
  | standbyLinkUp (x4 : Bool) (ide : Bool)
  /-- FAILOVER_RECORDS_WRITTEN (R264). -/
  | failoverRecordsWritten
  /-- CXL_PORT_RESET (R421). -/
  | cxlPortReset (port : CxlId)
  /-- STANDBY_ACCESS (R262). -/
  | standbyAccess (kind : AccessKind)
  /-- HDM_ACCESS_OUTSIDE (R268). -/
  | hdmAccessOutside (offset : BitVec 41) (kind : AccessKind)
  /-- DOE_DISCOVERY (R261). -/
  | doeDiscovery (port : CxlId) (index : Byte)
  /-- CDAT_TABLE_ACCESS (R261). -/
  | cdatTableAccess (port : CxlId)
  /-- IDE_KM (R260). -/
  | ideKm (port : CxlId) (exchange : Bytes)
  /-- OPEN_CONTEXT (R291). -/
  | openContext (slot : Slot) (req : Bytes)
  /-- CLOSE_CONTEXT (R297). -/
  | closeContext (slot : Slot) (req : Bytes)
  /-- SWITCH_CONTEXT (R296). -/
  | switchContext (slot : Slot) (req : Bytes)
  /-- GRACE_EXPIRE (R296). -/
  | graceExpire
  /-- CURTAIN_START (R298). -/
  | curtainStart (badRows : List Part)
  /-- CURTAIN_END (R298). -/
  | curtainEnd
  /-- ZERO_FILL_DONE (R301). -/
  | zeroFillDone (slot : Slot)
  /-- GET_REPORT (R305). -/
  | getReport (slot : Slot) (req : Bytes)
  /-- INSTALL_KEY (R309). -/
  | installKey (slot : Slot) (req : Bytes)
  /-- REMOVE_KEY (R308). -/
  | removeKey (slot : Slot) (req : Bytes)
  /-- GROUP_ENROLL (R311). -/
  | groupEnroll (slot : Slot) (req : Bytes)
  /-- GET_PLANE_RECORDS (R318). -/
  | getPlaneRecords (slot : Slot) (req : Bytes)
  /-- GET_CERTS (R307). -/
  | getCerts (slot : Slot) (req : Bytes)
  /-- GET_TELEMETRY (R322). -/
  | getTelemetry (req : MgmtReq)
  /-- GET_EVENTS (R322). -/
  | getEvents (req : MgmtReq)
  /-- SET_POWER_CAP (R340). -/
  | setPowerCap (req : MgmtReq)
  /-- SET_SLEW (R341). -/
  | setSlew (req : MgmtReq)
  /-- SET_ORPHAN_CAP (R341). -/
  | setOrphanCap (req : MgmtReq)
  /-- STORE_NV (R402). -/
  | storeNv (req : MgmtReq)
  /-- STORE_REQUEST (R402). -/
  | storeRequest
  /-- START_SCRUB (R322). -/
  | startScrub (req : MgmtReq)
  /-- RESET_ENGINE (R421). -/
  | resetEngine (req : MgmtReq)
  /-- MGMT_CLOSE_CONTEXT (R322). -/
  | mgmtCloseContext (req : MgmtReq)
  /-- MGMT_SWITCH_CONTEXT (R322). -/
  | mgmtSwitchContext (req : MgmtReq)
  /-- SET_CABLING (R322). -/
  | setCabling (req : MgmtReq)
  /-- SET_SWITCH_ROOT (R322). -/
  | setSwitchRoot (req : MgmtReq)
  /-- FIRMWARE_BEGIN (R322). -/
  | firmwareBegin (req : MgmtReq)
  /-- FIRMWARE_CHUNK (R322). -/
  | firmwareChunk (req : MgmtReq)
  /-- FIRMWARE_COMMIT (R326). -/
  | firmwareCommit (req : MgmtReq)
  /-- ENROLL_CREDENTIAL (R323). -/
  | enrollCredential (req : MgmtReq)
  /-- REVOKE_CREDENTIAL (R322). -/
  | revokeCredential (req : MgmtReq)
  /-- ERASE_GROUP_KEYS (R313). -/
  | eraseGroupKeys (req : MgmtReq)
  /-- DEBUG_CHALLENGE (R327). -/
  | debugChallenge (req : MgmtReq)
  /-- DEBUG_UNLOCK (R328). -/
  | debugUnlock (req : MgmtReq)
  /-- NV_WRITE_START (R401). -/
  | nvWriteStart
  /-- NV_STORE_COMPLETE: how many read-backs mismatched, 0, 1 or 2 and more (R398). -/
  | nvStoreComplete (mismatches : Nat)
  /-- WEAR_TOKEN_GAIN (R400). -/
  | wearTokenGain
  /-- EV_INDEX_WRITE (R404). -/
  | evIndexWrite (index : BitVec 12)
  /-- PATTERN_GO (R254). -/
  | patternGo
  /-- PATTERN_STOP (R258). -/
  | patternStop
  /-- FIELD_TILE_CHECK (R430). -/
  | fieldTileCheck
  /-- FIELD_CELL_COLUMN_BIST (R430). -/
  | fieldCellColumnBist
  /-- FIELD_DECK_CHECK (R430). -/
  | fieldDeckCheck
  /-- FIELD_STACK_MARCH (R430). -/
  | fieldStackMarch
  /-- FIELD_TEST_COMPLETE: what the test found, and its local duration (R430). -/
  | fieldTestComplete (faults : List Part) (tracks : List (LinkDir × Nat × Nat)) (elapsedMs : Word)
  /-- REGISTER_WRITE (R11). -/
  | registerWrite (addr : BitVec 24) (value : Word)
  /-- PORT_TRAIN: a write of train (R248). -/
  | portTrain (port : PortId)
  /-- PORT_DISABLE (R244). -/
  | portDisable (port : PortId)
  /-- PMD_TRAINED: the PMD control function ends with codeword lock, or without (R248). -/
  | pmdTrained (port : PortId) (locked : Bool)
  /-- FRAMING_LOCK (R248). -/
  | framingLock (port : PortId)
  /-- TRAINING_RESEND (R248). -/
  | trainingResend (port : PortId)
  /-- ID_BLOCK (R252). -/
  | idBlock (port : PortId) (block : Bytes)
  /-- TEST_REQ (R255). -/
  | testReq (port : PortId) (body : Bytes)
  /-- BER_TEST_END: this side's counts of lanes 0 to 7 and the locked lanes (R255). -/
  | berTestEnd (port : PortId) (errors : List Word) (locked : Byte)
  /-- TEST_RESULT: the far end's counts and locked lanes (R255). -/
  | testResult (port : PortId) (errors : List Word) (locked : Byte)
  /-- KEY_HELLO (R314). -/
  | keyHello (port : PortId)
  /-- KEY_REPLY: the message as reassembled from its fragments (R315). -/
  | keyReply (port : PortId) (msg : Bytes)
  /-- KEY_FINISH (R316). -/
  | keyFinish (port : PortId) (msg : Bytes)
  /-- CREDIT_INIT: the far end's credits per VC (R245). -/
  | creditInit (port : PortId) (vc0 vc1 vc2 vc3 : BitVec 16)
  /-- READY (R248). -/
  | ready (port : PortId)
  /-- TRAINING_FLIT_DISCARD: a training flit of this kind (R248). -/
  | trainingFlitDiscard (port : PortId) (kind : Byte)
  /-- DATA_FLIT_RECEIVE (R243). -/
  | dataFlitReceive (port : PortId) (flit : Flit)
  /-- NAK_RECEIVE (R243). -/
  | nakReceive (port : PortId) (ack : BitVec 12)
  /-- ACK_TIMEOUT (R243). -/
  | ackTimeout (port : PortId)
  /-- CODEWORD_LOCK_LOSS (R244). -/
  | codewordLockLoss (port : PortId)
  /-- FAR_END_DOWN (R244). -/
  | farEndDown (port : PortId)
  /-- ABORT_SYMBOL (R232). -/
  | abortSymbol (port : PortId) (word : Codeword)
  /-- HOP_KEY_LIMIT (R242). -/
  | hopKeyLimit (port : PortId)
  /-- HOP_REKEY: the far end's encapsulation (R317). -/
  | hopRekey (port : PortId) (farCt : Bytes)
  /-- PRE_FEC_MONITOR: each lane's estimate in units of 10⁻⁹ (R256). -/
  | preFecMonitor (port : PortId) (lanes : List Nat)
  /-- SHARD_DATA (R163). -/
  | shardData (port : PortId) (msg : ShardMsg)
  /-- SHARD_NACK (R162). -/
  | shardNack (port : PortId) (msg : ShardMsg)
  /-- SHARD_REQ_TIMEOUT (R162). -/
  | shardReqTimeout (shard : Nat)
  /-- SHARD_ACK (R166). -/
  | shardAck (port : PortId) (msg : ShardMsg)
  /-- PATCH_ACK_TIMEOUT (R166). -/
  | patchAckTimeout (shard : Nat) (streamOffset : Nat)
  /-- PILOT_STREAM_END (R171). -/
  | pilotStreamEnd
  /-- SWAP_LAYER_REPLACE (R175). -/
  | swapLayerReplace
  /-- SCALE_NOTICE (R183). -/
  | scaleNotice (port : PortId) (n : ScaleNotice)
  /-- BOUNCE (R197). -/
  | bounce (port : PortId) (c : Contribution)
  /-- RESULT (R199) with the sender's endpoint (Table 10-6). -/
  | result (port : PortId) (r : SentResult)
  /-- NO_BLOCK (R199). -/
  | noBlock (port : PortId) (b : BlockRef)
  /-- RESULT_TIMEOUT (R199). -/
  | resultTimeout (g : Nat)
  /-- OPEN_REPLY (R216). -/
  | openReply (port : PortId) (h : CollHdr)
  /-- OPEN_RETRY (R216). -/
  | openRetry (port : PortId)
  /-- REDUCE_SHARDS_COMPLETE (R218). -/
  | reduceShardsComplete
  /-- RING_PARTIAL (R220). -/
  | ringPartial (port : PortId) (r : ResultMsg) (sender : BitVec 16) (chartTag : BitVec 32)
  /-- HOP_ACK (R222). -/
  | hopAck (port : PortId) (h : CollHdr)
  /-- HOP_CANCEL (R222). -/
  | hopCancel (port : PortId) (h : CollHdr)
  /-- CANCEL_ACK (R222). -/
  | cancelAck (port : PortId) (h : CollHdr)
  /-- HOP_TIMEOUT (R222). -/
  | hopTimeout (g : Nat)
  /-- PARTIAL_HOLD_TIMEOUT (R223). -/
  | partialHoldTimeout (g : Nat)
  /-- RING_CONTRIBUTION_TIMEOUT (R223). -/
  | ringContributionTimeout (g : Nat)
  /-- RESULT_REQ (R224). -/
  | resultReq (port : PortId) (b : BlockRef)
  /-- RESULT_ACK (R224). -/
  | resultAck (port : PortId) (b : BlockRef)
  /-- COUNTS_VEC (R226). -/
  | countsVec (port : PortId) (h : CollHdr) (v : List (BitVec 64))
  /-- SCALAR_VEC (R227). -/
  | scalarVec (port : PortId) (h : CollHdr) (v : List Word)
  /-- BCAST_CHUNK (R228). -/
  | bcastChunk (port : PortId) (h : CollHdr) (data : Bytes)
  /-- BCAST_END (R228). -/
  | bcastEnd (port : PortId) (h : CollHdr) (length : Word) (digest : Bytes)
  /-- BCAST_REQ_ROUND (R228). -/
  | bcastReqRound (descId : BitVec 16)
  /-- BCAST_REQ (R228). -/
  | bcastReq (port : PortId) (h : CollHdr)
  /-- BCAST_DONE (R228). -/
  | bcastDone (port : PortId) (h : CollHdr)
  /-- ARRIVE (R229). -/
  | arrive (port : PortId) (h : CollHdr)
  /-- COLLECTIVE_TIMEOUT (R230). -/
  | collectiveTimeout (descId : BitVec 16)
  /-- ABORT_WAIT_EXPIRE (R232). -/
  | abortWaitExpire (descId : BitVec 16)
  /-- ACTIVE_LINK_RETURN (R265). -/
  | activeLinkReturn (port : CxlId) (x4 : Bool) (ide : Bool)
  /-- STANDBY_LINK_DOWN (R264). -/
  | standbyLinkDown
  /-- FRAMING_LOCK_LOST (R259). -/
  | framingLockLost (port : PortId)
  /-- SHARD_RETRY_GAP (R162). -/
  | shardRetryGap (shard : Nat)
  deriving DecidableEq, Repr

end Sys2Proof
end

