-- ==== Sys2Proof/Decode.lean ====
section
/-! DEFINITION. The command a word spells by the opcode table's bits. The table gives no row any bits: the
block takes its commands as events and messages, not as instruction words, so no word spells one. -/

namespace Sys2Proof

/-- No row of spec/opcode_table.json carries bits; every word is refused. -/
def decodeTableWord (_nbits _w : Nat) : Option Instr :=
  none

end Sys2Proof
end

