-- ==== Sys2Proof/Config.lean ====
section
/-! DEFINITION. What an implementation fixes and what the manual leaves open, as constants without a
body: no proof can see a value of one, so a statement holds whatever it is. The published cryptographic
functions that the manual names but does not describe stand here too (log entry 2). -/

namespace Sys2Proof.Config

open Sys2Proof

/-- SHAKE256 of a byte string, with the output length in bytes (R101, R118, R154 and others). -/
opaque shake256 : Bytes → Nat → Bytes

/-- ML-DSA-65 key generation: the public key of a 32-byte seed (R302). -/
opaque mldsaPublic : Bytes → Bytes

/-- ML-DSA-65 signature under the key of a seed (R305). -/
opaque mldsaSign : Bytes → Bytes → Bytes

/-- ML-DSA-65 verification: public key, message, signature. -/
opaque mldsaVerify : Bytes → Bytes → Bytes → Bool

/-- ML-KEM-768 encapsulation and decapsulation key of fresh randomness (R302). -/
opaque kemKeys : Bytes → Bytes × Bytes

/-- ML-KEM-768 encapsulation: key, randomness; ciphertext and shared secret (R316). -/
opaque kemEncaps : Bytes → Bytes → Bytes × Bytes

/-- ML-KEM-768 decapsulation: key, ciphertext (R309). -/
opaque kemDecaps : Bytes → Bytes → Option Bytes

/-- AES-256-GCM seal: key, 12-byte nonce, additional data, plaintext; ciphertext and tag (R154, R242). -/
opaque gcmSeal : Bytes → Bytes → Bytes → Bytes → Bytes × Bytes

/-- AES-256-GCM open: key, nonce, additional data, ciphertext, tag. -/
opaque gcmOpen : Bytes → Bytes → Bytes → Bytes → Bytes → Option Bytes

/-- Lerrekarp's public keys: 0 firmware key, 1 debug key (R326, R327); and the production signature
over the DeviceID record (R307). -/
opaque vendorKey : Nat → Bytes

/-- A firmware image read: the part its signature covers, the signature, the digests of Binnacle firmware,
tile microcode and port firmware, their SVNs, and the image's SVN (R326; Table 15-9 gives no layout). -/
opaque fwParts : Bytes → Bytes × Bytes × List Bytes × List Nat × Nat

/-- The DeviceID endorsement record's signature, written at production (R307). -/
opaque deviceIdSig : Bytes

/-- SHAKE256 digest of the identity fuse region (Table 12-5). -/
opaque fuseDigest : Bytes

/-- The Binnacle ROM's digest and SVN (Table 12-5). -/
opaque romDigest : Bytes

/-- Bytes the DRBG of R302 draws: counter of the draw, length. -/
opaque drbg : Nat → Nat → Bytes

/-- AES-256-XTS of a stack line: 64-byte key, line number, plaintext (R19, Table 12-8). -/
opaque xtsSeal : Bytes → Nat → Bytes → Bytes

/-- IDE keys an IDE_KM exchange establishes, none where it fails (R260; CXL's own rules). -/
opaque ideKm : Bytes → Option Bytes

/-- The DOE Discovery answer at an index (PCIe's own layout): the object types of R261. -/
opaque doeObject : Nat → Bytes

/-- The CDAT table of the window (R261): figures measured at production test. -/
opaque cdat : Bytes

/-- The built-in function tables of R88: pair 0 to 9, derivative or value, byte offset in the table. -/
opaque builtinByte : Nat → Bool → Nat → Byte

/-- The max_exp byte of values whose largest magnitude lies below 2^−128, an order that the signed byte of R144 and Table 8-2 does not
reach (log entry 100). -/
opaque lowExp : Int → Byte

/-- cw_index of a codeword that starts: the count of a codeword clock that no command shows (R238), by the outputs so far. -/
opaque cwIndex : Nat → BitVec 8

/-- The flit stream behind a symbol in its codeword (R239), by the outputs so far. -/
opaque cwStream : Nat → BitVec 4992

/-- Data tracks of a tile's heartbeat flit, by tile and state (R40 states no layout). -/
opaque heartbeatData : Nat → HbState → BitVec 512

/-- Whether a pulse between 2 ns and 5 ns clamps (R336 says neither), by draw counter. -/
opaque shortPulse : Nat → Bool

/-- A byte the manual leaves open, by draw counter. -/
opaque freeByte : Nat → Byte

/-- A lane of a vector register after a cue on the vector unit (R79 names no register a kernel uses): draw counter, register and
lane. -/
opaque freeLane : Nat → Nat → Word

/-- Element bits the manual leaves open: a conversion without a stated result (Table 3-3), by operands. -/
opaque freeElem : Nat → Nat → Nat → Nat

/-- A word the manual leaves open, by draw counter. -/
opaque freeWord : Nat → BitVec 64

/-- Rail voltage of a die at a point in mV, from the per-die table of the production region (R332, Table 15-9). -/
opaque dieTableMv : Nat → Nat → Nat

/-- A die's idle power in W from its table, before the bound of 35 W (R335). -/
opaque dieIdleW : Nat → Nat

/-- Free-running trim of a tile's oscillator after a retune (R331): draw, tile. -/
opaque oscTrim : Nat → Nat → Int

/-- θ_d of a die at F_full, from the production tables (R368). -/
opaque theta : Nat → Rat

/-- (F_full ÷ F) to the power 0.8 (R368), which has no exact value in general. -/
opaque flowFactor : Rat → Rat

/-- A hot spot's gradient in K/W from the production tables (R362). -/
opaque spotGradient : Nat → Rat

/-- The four tile sensors nearest to a hot spot (R362). -/
opaque spotTiles : Nat → List Nat

/-- A phase's slowest point lies below the rate of its transfers (R36, Table 5-11): Chart digest, phase index.
The image holds no figure of the transfers. -/
opaque transfersTooSlow : Bytes → Nat → Bool

/-- Bytes of the context state of R293 for a Chart of that many layers. -/
opaque contextStateBytes : Nat → Nat

/-- The ML-DSA-65 public key with a fingerprint, where the image does not hold it (R118). -/
opaque keyOfFp : Bytes → Bytes

/-- The FP32 bits of a Chart's norm ε (R89), by Chart digest: the image formats name no place for it. -/
opaque normEpsilon : Bytes → BitVec 32

/-- Input power in W of point p with no Chart's figures (R348 with no phase open). -/
opaque restPower : Nat → Nat

end Sys2Proof.Config
end

