-- ==== Sys2Proof/Machine/Bits.lean ====
section
/-! DEFINITION. Byte order, bit fields and the sparse lists that the other files share (R9). -/

namespace Sys2Proof.Machine

open Sys2Proof

/-- The little-endian number of a byte string (R9). -/
def leNat : Bytes → Nat
  | [] => 0
  | b :: bs => b.toNat + 256 * leNat bs

/-- The `n` little-endian bytes of a number (R9). -/
def toLe (n v : Nat) : Bytes :=
  match n with
  | 0 => []
  | k + 1 => BitVec.ofNat 8 v :: toLe k (v / 256)

/-- Bytes [off + len − 1 : off] of a string, zero beyond its end. -/
def slice (b : Bytes) (off len : Nat) : Bytes :=
  let s := (b.drop off).take len
  s ++ List.replicate (len - s.length) 0

/-- The little-endian field of `len` bytes at `off`. -/
def leAt (b : Bytes) (off len : Nat) : Nat :=
  leNat ((b.drop off).take len)

/-- Byte `i`, zero beyond the end. -/
def byteAt (b : Bytes) (i : Nat) : Byte :=
  b.getD i 0

/-- Field [hi:lo] of a number. -/
def bits (v hi lo : Nat) : Nat :=
  v / 2 ^ lo % 2 ^ (hi + 1 - lo)

/-- Bit `i` of a number. -/
def bitOf (v i : Nat) : Bool :=
  v.testBit i

/-- A Bool as a bit. -/
def b2n (b : Bool) : Nat :=
  if b then 1 else 0

/-- Every byte of the field is zero. -/
def zeros (b : Bytes) (off len : Nat) : Bool :=
  ((b.drop off).take len).all (· == 0)

/-- ASCII bytes of a key-derivation label (Table 12-8). -/
def ascii (l : List Nat) : Bytes :=
  l.map (BitVec.ofNat 8)

/-- The value at a key of a sparse list, or its default. -/
def look {α : Type} (d : α) : List (Nat × α) → Nat → α
  | [], _ => d
  | (k, v) :: r, i => if k = i then v else if i < k then d else look d r i

/-- The sorted sparse list with the pair for key `i` replaced by `v`, or removed where `drop` holds. -/
def putKey {α : Type} (drop : Bool) (v : α) : List (Nat × α) → Nat → List (Nat × α)
  | [], i => if drop then [] else [(i, v)]
  | (k, w) :: r, i =>
    if i < k then (if drop then (k, w) :: r else (i, v) :: (k, w) :: r)
    else if k = i then (if drop then r else (i, v) :: r)
    else (k, w) :: putKey drop v r i

/-- Store `v` at key `i`, keeping no pair at the default `d`. -/
def store {α : Type} [DecidableEq α] (d : α) (l : List (Nat × α)) (i : Nat) (v : α) :
    List (Nat × α) :=
  putKey (decide (v = d)) v l i

/-- Keys strictly rise and no value is the default: the canonical form of a sparse list. -/
def canon {α : Type} [DecidableEq α] (d : α) : List (Nat × α) → Bool
  | [] => true
  | [(_, v)] => decide (v ≠ d)
  | (k, v) :: (k', v') :: r => decide (v ≠ d) && decide (k < k') && canon d ((k', v') :: r)

/-- The value at a key of an association list in any order, or none. -/
def find? {α : Type} (l : List (Nat × α)) (i : Nat) : Option α :=
  (l.find? fun p => p.1 == i).map Prod.snd

/-- An association list with the pair for `i` replaced or appended. -/
def setPair {α : Type} (l : List (Nat × α)) (i : Nat) (v : α) : List (Nat × α) :=
  if l.any (fun p => p.1 == i) then l.map fun p => if p.1 == i then (i, v) else p
  else l ++ [(i, v)]

/-- An association list without the pairs for `i`. -/
def dropPair {α : Type} (l : List (Nat × α)) (i : Nat) : List (Nat × α) :=
  l.filter fun p => !(p.1 == i)

/-- Saturating increment of a 32-bit counter. -/
def satInc (w : BitVec 32) : BitVec 32 :=
  if w = 0xFFFFFFFF then w else w + 1

/-- Add an element to a list without repeats. -/
def insertNew {α : Type} [DecidableEq α] (l : List α) (x : α) : List α :=
  if x ∈ l then l else l ++ [x]

/-- A signed byte. -/
def sByte (b : Byte) : Int :=
  b.toInt

/-- A signed byte of an integer, wrapping. -/
def ofSByte (i : Int) : Byte :=
  BitVec.ofInt 8 i

end Sys2Proof.Machine
end

