-- ==== Sys2Proof/Machine/ChartTypes.lean ====
section
/-! DEFINITION. A Chart as the loader keeps it once its image has been read: one structure per record
of the image formats of 05_chart.md and of the cue, collective and layer records of chapters 6 and 9. -/

namespace Sys2Proof.Machine

open Sys2Proof

/-- A REGION record (Table 5-4). -/
structure Region where
  id : Nat
  col0 : Nat
  row0 : Nat
  col1 : Nat
  row1 : Nat
  isProtected : Bool
  dieMask : BitVec 64
  zoneMask : BitVec 16
  userPairs : BitVec 32
  deriving DecidableEq, Repr

/-- A route hop (Table 5-5). -/
structure Hop where
  gcol : Nat
  grow : Nat
  inPort : Nat
  outMask : BitVec 6
  outEdge : Bool
  inEdge : Bool
  deriving DecidableEq, Repr

/-- A ROUTE record (R106). -/
structure Route where
  id : Nat
  vc : Nat
  hops : List Hop
  deriving DecidableEq, Repr

/-- A function table (R84): header fields and 256 segments of FP32 coefficient bits c0, c1, c2, c3. -/
structure FnTable where
  pairId : Nat
  mode : Nat
  flags : Byte
  lo : Word
  hi : Word
  belowA : Word
  belowB : Word
  aboveA : Word
  aboveB : Word
  segs : List (Word × Word × Word × Word)
  deriving DecidableEq, Repr

/-- A tensor record (Table 5-16). `dims` has four sizes; `order` lists the dimension numbers from the
outermost to the innermost. -/
structure Tensor where
  id : Nat
  format : Nat
  dims : List Nat
  kAxis : Nat
  order : List Nat
  slotPool : Bool
  summaryId : Nat
  scaleId : Nat
  areaId : Nat
  deriving DecidableEq, Repr

/-- A reduction record with its continuations joined (Table 5-18). -/
structure RedDesc where
  id : Nat
  op : Nat
  leaf : Nat
  regions : List Nat
  deriving DecidableEq, Repr

/-- An area record (Table 5-19). -/
structure Area where
  id : Nat
  memory : Nat
  purpose : Nat
  slotCount : Nat
  slotBytes : Nat
  initOffset : Nat
  initLength : Nat
  deriving DecidableEq, Repr

/-- A placement entry (Table 5-7). -/
structure Placement where
  tensorId : Nat
  block : Nat
  kind : Nat
  gcol : Nat
  grow : Nat
  stack : Nat
  address : Nat
  lines : Nat
  deriving DecidableEq, Repr

/-- A cue record (Table 6-1). -/
structure Cue where
  kind : Nat
  site : Nat
  mode : Nat
  sat : Bool
  layerStart : Bool
  layer : Nat
  phaseId : Nat
  aTensor : Nat
  bTensor : Nat
  outTensor : Nat
  auxTensor : Nat
  descId : Nat
  imm : BitVec 36
  wait0Ctr : Nat
  wait0Target : Nat
  wait1Ctr : Nat
  wait1Target : Nat
  sigCtr : Nat
  sigMode : Nat
  sigRoute : Nat
  outRoute : Nat
  outRemote : Bool
  bDeck : Bool
  loadWindow : Bool
  drainWindow : Bool
  deriving DecidableEq, Repr

/-- An understudy variant (R111, Table 5-20). -/
structure Variant where
  id : Nat
  regionId : Nat
  dieLoss : Bool
  coveredDie : Nat
  col0 : Nat
  row0 : Nat
  col1 : Nat
  row1 : Nat
  routes : List Route
  placements : List Placement
  cues : List (Nat × List Cue)
  widthMap : Option Bytes
  deriving DecidableEq, Repr

/-- A power-plan phase (Table 5-22). -/
structure Phase where
  id : Nat
  point : Nat
  slowest : Nat
  compute : Nat
  memory : Nat
  ports : Nat
  duration : Nat
  dieMask : BitVec 64
  deriving DecidableEq, Repr

/-- The power classes of R114. -/
inductive PClass where
  | ports
  | memory
  | compute
  deriving DecidableEq, Repr

/-- The POWER section (Tables 5-21, 5-22). -/
structure PowerPlan where
  order : List PClass
  trimMode : Nat
  floorPorts : Nat
  floorMemory : Nat
  floorCompute : Nat
  phases : List Phase
  deriving DecidableEq, Repr

/-- A COLLECTIVE record (Table 9-1). -/
structure CollDesc where
  id : Nat
  command : Nat
  flags : Byte
  timeout : Nat
  quorum : Nat
  retryLimit : Nat
  retryGap : Nat
  hopTimeout : Nat
  timers : Nat
  signalCtr : Nat
  signalRoute : Nat
  deriving DecidableEq, Repr

/-- A LAYER record (Table 5-23). -/
structure LayerRec where
  layer : Nat
  maskKind : Nat
  flags : Byte
  maskId : Nat
  k : Nat
  ruleId : Nat
  deriving DecidableEq, Repr

/-- A gradient-format rule record (Table 6-7). -/
structure RuleRec where
  ruleId : Nat
  startLevel : Nat
  minLevel : Nat
  maxLevel : Nat
  hold : Nat
  upUf : Nat
  downUf : Nat
  headroom : Nat
  deriving DecidableEq, Repr

/-- A CLAIM record (R117). -/
structure Claim where
  kind : Nat
  index : Nat
  feature : Nat
  arg : Nat
  deriving DecidableEq, Repr

/-- The whole Chart: the section types in directory order, then the header and the sections in the order
of Table 5-3. -/
structure Chart where
  dir : List Nat
  protectAll : Bool
  isTraining : Bool
  dieMask : BitVec 64
  seed : BitVec 64
  groupSize : Nat
  digest : Bytes
  regions : List Region
  widthMap : Bytes
  routes : List Route
  tables : List (FnTable × FnTable)
  tensors : List Tensor
  reductions : List RedDesc
  areas : List Area
  placements : List Placement
  variants : List Variant
  cues : List (Nat × List Cue)
  power : PowerPlan
  collectives : List CollDesc
  layers : List LayerRec
  rules : List RuleRec
  claims : List Claim
  ownerFp : Bytes
  signers : List Bytes
  ownerSigned : Bool
  ownerSig : Bytes
  data : Bytes
  imageBytes : Nat
  deriving DecidableEq, Repr

end Sys2Proof.Machine
end

