-- ==== Sys2Proof/Machine/StateParts.lean ====
section
/-! DEFINITION. The parts of the machine's state, one structure per unit of the engine. Every field's
comment gives its width or range, the rule that names it and its value at reset (docs of the whole list:
INVENTORY.md, '## State'). Fixed-size groups are Vectors; sparse groups are lists of (key, value) pairs
sorted by key, without a pair for a key at its default. -/

namespace Sys2Proof.Machine

open Sys2Proof

/-! ### Identity, start-up, events -/

/-- The fused identity (R3, R326, R327, Table 12-8). -/
structure Ident where
  serial : BitVec 64          -- R3; fused
  stepLetter : BitVec 4       -- R3; fused, A = 0
  stepNumber : BitVec 4       -- R3; fused, 1
  debugCount : BitVec 6       -- R327, R328; fused, raised for life
  minSvn : Nat                -- R326; fused
  uds : Bytes                 -- Table 12-8; 32 bytes, fused
  bootEpoch : BitVec 32       -- R306; lifetime counter outside the NV banks
  testLock : Bool             -- R428, R429; test lock fuse, blown at production
  deriving DecidableEq, Repr

/-- Start-up (R415 to R421, Table 16-3). -/
structure Startup where
  phase : BitVec 4            -- Table 16-3; 0
  initPct : BitVec 8          -- Table 16-3; 0
  resetCause : BitVec 4       -- Table 16-3; what caused the last reset
  tripAtReset : Bool          -- Table 16-3; THERM_TRIP_N was low at the reset
  stopCode : BitVec 16        -- Table 16-3; 0
  openMs : BitVec 32          -- Table 16-3; 0
  resetLow : Bool             -- R413; HOUSE_RST_N in effect and not yet risen
  houseUp : Bool              -- R411; the house domain has power
  zonesUp : BitVec 9          -- R418; deck zones at power-good
  meshLocked : Bool           -- R415; oscillator mesh locked
  deckChecked : Bool          -- R415; deck check done
  stacksUp : Bool             -- R415; port dies and stacks up
  gateReported : Bool         -- R416; 0x0E03 given
  trayBad : Bool              -- R416; tray layout major not supported
  credWindow : Bool           -- R323; the 600 s window is open
  pwrGoodLow : Bool           -- R420; PWR_GOOD low sequence in force
  releaseLow : Bool           -- R393; TRAY_RELEASE_N sequence in force
  paused : Bool               -- R419; start-up stopped by a release
  riseTick : Nat              -- R403; house tick at which HOUSE_RST_N rose
  initTick : Nat              -- R415; house tick at which stack initialisation started
  deriving DecidableEq, Repr

/-- An event record (Table 15-11); flag bit 0 is `isCount`. -/
structure EventRec where
  code : BitVec 16
  slot : BitVec 8
  isCount : Bool
  seq : BitVec 32
  tick : BitVec 32
  location : BitVec 32
  cue : BitVec 32
  value : BitVec 64
  deriving DecidableEq, Repr

/-- The event log and its registers (R403, R404). -/
structure EventLog where
  records : List EventRec     -- R403; last 4,096, oldest first; empty
  nextSeq : BitVec 32         -- R403; 0
  dropped : BitVec 32         -- Table 15-12; 0
  evIndex : BitVec 12         -- Table 15-12; 0
  latched : Option EventRec   -- R404; none
  newEvent : Bool             -- Table 15-12; 0
  vector : BitVec 6           -- Table 15-12; 0
  deriving DecidableEq, Repr

/-! ### CXL and host attach -/

/-- One MSI-X table entry in the PCIe layout (R266): address, data, mask bit. -/
structure MsixEntry where
  addrLo : BitVec 32
  addrHi : BitVec 32
  data : BitVec 32
  ctrl : BitVec 32
  deriving DecidableEq, Repr

/-- One CXL port (R260 to R265, Table 11-2). -/
structure CxlPort where
  linkUp : Bool               -- Table 11-2 role; link in L0
  linkX4 : Bool               -- Table 11-2; 0
  ideUp : Bool                -- Table 11-2; 0
  ideAtLoss : Bool            -- R264; IDE stream when the link last left L0
  takeOver : Bool             -- Table 11-2; 0
  ideKeys : Bytes             -- Table 12-8; none
  deriving DecidableEq, Repr

/-- Host attach (Table 11-5). -/
structure HostAttach where
  activePort : CxlId          -- R262; 0
  ports : Vector CxlPort 2    -- R262
  autoFailover : Bool         -- Table 11-5; 1
  failover : Bool             -- Table 11-5; 0
  autoArmed : Bool            -- R264; the 10 ms run
  autoRetry : Bool            -- R264; a refused automatic failover waits
  swapPending : Bool          -- R264; roles swapped, held records not yet written
  events : BitVec 5           -- Table 11-5; 0
  vector : BitVec 6           -- Table 11-5; 0
  lastCode : BitVec 16        -- Table 11-5; 0
  msix : Vector MsixEntry 64  -- R266
  msixPending : BitVec 64     -- R266; 0
  standbyCount : Nat          -- R262; accesses counted under 0x0311
  outsideCount : Nat          -- R268; accesses counted under 0x0312
  deriving DecidableEq, Repr

/-- A completion record (Table 11-9) with its delivery: `written` once its write has been made. -/
structure CplRecord where
  tag : BitVec 32
  code : BitVec 16
  queue : BitVec 4
  opcode : BitVec 8
  initiator : BitVec 16
  fence : BitVec 16
  entry : BitVec 16
  fenceValue : BitVec 64
  detail : BitVec 32
  irq : Bool
  written : Bool
  deriving DecidableEq, Repr

/-- The latched completion ring (R284). -/
structure CqLatch where
  base : BitVec 64
  sizeLog2 : Nat
  inHdm : Bool
  deriving DecidableEq, Repr

/-- A context's completion ring (Table 11-6, R282 to R285). -/
structure CplRing where
  baseLo : BitVec 32          -- Table 11-6; 0
  baseHi : BitVec 32          -- Table 11-6; 0
  sizeLog2 : BitVec 4         -- Table 11-6; 6
  location : Bool             -- Table 11-6; 0
  vector : BitVec 6           -- Table 11-6; 0
  enable : Bool               -- Table 11-6; 0
  latch : Option CqLatch      -- R284; the ring in force, none while refused or disabled
  lastSize : Nat              -- R284; records of the last accepted latch, 64 before the first
  phase : Bool                -- Table 11-6; 1
  tail : BitVec 12            -- Table 11-6; 0
  head : BitVec 12            -- Table 11-6; 0
  headInForce : Nat           -- R284; cq_head as the engine takes it
  held : List CplRecord       -- R284; kept and not consumed, oldest first; empty
  writing : Bool              -- R283; a record write is in progress
  irqDue : Bool               -- R285; the record being written asks for the interrupt
  deriving DecidableEq, Repr

/-- A queue (Table 11-6, R271 to R276). `valid` lists (slot index, order of observation). -/
structure Queue where
  baseLo : BitVec 32          -- Table 11-6; 0
  baseHi : BitVec 32          -- Table 11-6; 0
  sizeLog2 : BitVec 4         -- Table 11-6; 4
  enable : Bool               -- Table 11-6; 0
  cancel : Bool               -- Table 11-6; 0
  latched : Bool              -- R271; base and size latched and accepted
  lBase : Nat                 -- R271; latched range offset
  lSize : Nat                 -- R271; latched number of entries
  phase : Bool                -- Table 11-6; 1
  head : Nat                  -- Table 11-6; 0
  valid : List (Nat × Nat)    -- R273; valid marks; none
  deriving DecidableEq, Repr

/-- A running command (R280): where it came from and what its record needs. -/
structure Cmd where
  q : QId
  entry : Nat
  opcode : Nat
  irq : Bool
  signal : Bool
  signalFence : Nat
  signalValue : BitVec 64
  tag : BitVec 32
  key : Nat          -- descriptor or key index the command uses; 0 otherwise
  deriving DecidableEq, Repr

/-! ### Weights -/

/-- A manifest's shard table entry (Table 7-4). -/
structure ShardEntry where
  layer : Nat
  streamOffset : Nat
  length : Nat
  digest : Bytes
  deriving DecidableEq, Repr

/-- An accepted manifest (R156, R157). -/
structure Manifest where
  modelId : BitVec 128
  baseStep : BitVec 32
  layerCount : Nat
  tensors : List (Nat × Nat)
  signerFp : Bytes
  shards : List ShardEntry
  bytes : Nat
  deriving DecidableEq, Repr

/-- The state of one shard request (R161, R162). -/
structure ShardReq where
  shard : Nat
  version : BitVec 32
  tries : Nat
  gap : Bool                  -- waiting the 100 µs of R162
  deriving DecidableEq, Repr

/-- A record accepted for a shard: byte range in the shard, writer, patch ordinal (R155, R165). -/
structure Piece where
  off : Nat
  len : Nat
  writer : Nat
  ordinal : Nat
  deriving DecidableEq, Repr

/-- What the engine holds of one shard (R152, R163 to R165): its frame, the records accepted for it. -/
structure ShardHold where
  shard : Nat
  version : BitVec 32
  frame : Nat
  pieces : List Piece
  valid : Bool
  digest : Bytes              -- R163, R167; its plaintext's digest when it became valid
  deriving DecidableEq, Repr

/-- A patch whose SHARD_ACK has not arrived (R166). -/
structure PatchHold where
  shard : Nat
  streamOffset : Nat
  version : BitVec 32
  record : ShardRecord
  tries : Nat
  deriving DecidableEq, Repr

/-- One model's fetching: its manifest, key and service (R158), what is held and what is asked for. -/
structure Fetch where
  manifest : Manifest
  keyIndex : Nat
  weightKey : Bytes
  endpoint : BitVec 32
  group : BitVec 32
  pilot : Bool
  holdMs : Nat
  retries : Nat
  holds : List ShardHold      -- R152, R163; none
  reqs : List ShardReq        -- R162; none
  missing : List Nat          -- R171; none
  streamEnded : Bool          -- R171; 0
  caughtUp : Nat              -- R171; shards fetched by catch-up; 0
  deriving DecidableEq, Repr

/-- A swap (R173 to R176): the new model, the layers still to be replaced in ascending order, and whether its
command has ended before the last of them. -/
structure Swap where
  fetch : Fetch
  todo : List Nat
  failed : Bool
  deriving DecidableEq, Repr

/-- The bound or resident model of a context (R150 to R177). -/
structure Model where
  resident : Bool             -- Table 7-1 residency
  fetch : Fetch
  loading : Bool              -- R172; LOAD_MODEL in progress
  swap : Option Swap
  digests : List (Nat × Bytes) -- R163, R167; digest of each shard of the table when it was last marked valid, kept for the decks
  checked : List (Nat × Nat)  -- Table 11-12; (shard, tick of its last check); none
  patches : List PatchHold    -- R166; none
  deriving DecidableEq, Repr

/-! ### Contexts, keys and the mailbox -/

/-- A weight key of a context (R308, R309). -/
structure WeightKey where
  key : Bytes
  modelId : BitVec 128
  chartPolicy : Bytes         -- empty for none
  deriving DecidableEq, Repr

/-- A ledger entry (Table 6-6). -/
structure LedgerEntry where
  layer : Nat
  n : Nat
  belowE5m2 : Nat
  belowMx : Nat
  overflow : Nat
  nonfinite : Nat
  maxExp : Int
  level : Nat
  nextLevel : Nat
  quiet : Nat
  deriving DecidableEq, Repr

/-- What one tile has added to a layer's ledger entry in this step: its partial statistics (R138, R144). -/
structure LedgerPart where
  layer : Nat
  n : Nat
  belowE5m2 : Nat
  belowMx : Nat
  overflow : Nat
  nonfinite : Nat
  maxExp : Int
  deriving DecidableEq, Repr

/-- What a cue has shown under one of the codes 0x0409 to 0x040F (R78, Table 11-12): its tile and index, the count and the first
output element. -/
structure ArithNote where
  tile : Nat
  cue : Nat
  code : Nat
  count : Nat
  first : Nat
  deriving DecidableEq, Repr

/-- ctx_state of Table 11-6. -/
inductive CtxState where
  | closed
  | open'
  | holding
  | curtain
  deriving DecidableEq, Repr

/-- A context slot (R291 to R293, Table 11-6). -/
structure Ctx where
  state : CtxState            -- Table 11-6; closed
  ownerFp : Bytes             -- R291; none
  stackGib : Nat              -- R291; 0
  hdmGib : Nat                -- Table 11-6; 0
  fmtMajor : BitVec 8         -- Table 11-6; 1
  lastCode : BitVec 16        -- Table 11-6; 0
  events : BitVec 4           -- Table 11-6; 0
  cq : CplRing
  fenceIndex : BitVec 12      -- Table 11-6; 0
  fences : List (Nat × BitVec 64)  -- R281; 4,096 fences of 64 bits, all 0
  queues : Vector Queue 16
  running : List Cmd          -- R280; none
  memKey : Bytes              -- Table 12-8; 64 bytes from the DRBG
  ek : Bytes                  -- Table 12-8; ML-KEM-768 encapsulation key
  dk : Bytes                  -- Table 12-8; its decapsulation key
  keys : Vector (Option WeightKey) 16 -- R308; none
  reports : List Bytes        -- R309; digests of the last eight reports
  lastSeq : List (Nat × Nat)  -- R210, R293; last completed seq per descriptor
  ledger : List LedgerEntry   -- R144; none
  blockMax : List (Nat × Int) -- R144; maximum exponent of each dW wire block of the step, by global index; none
  pool : List (Nat × Nat × Nat) -- R184; (slot-pool tensor, slot, block index it holds); none
  bounced : List (Nat × List Word) -- R197; FP32 values folded back per block, for its next encode (full error memory); none
  gradAt : List (Nat × Nat)   -- R144; (gradient-format tensor, level of the cue that last wrote it); none
  arith : List ArithNote      -- R78, Table 11-12; arithmetic counts of the last pass; none
  model : Option Model        -- R150; none
  barrier : Bool              -- R174, R175; admission barrier closed
  barrierOrder : Nat          -- R174; observed order of the SWAP_MODEL entry
  arrayPct : BitVec 8         -- Table 12-1; 0
  vectorPct : BitVec 8        -- Table 12-1; 0
  stackPct : BitVec 8         -- Table 12-1; 0
  portPct : BitVec 8          -- Table 12-1; 0
  heldMs : BitVec 32          -- Table 12-1; 0
  deriving DecidableEq, Repr

/-- A device-bound group key (R311). -/
structure GroupKey where
  groupId : BitVec 128
  ownerFp : Bytes
  key : Bytes
  deriving DecidableEq, Repr

/-- Operator roles (R323). -/
inductive Role where
  | observer
  | operator
  | admin
  deriving DecidableEq, Repr

/-- An operator credential (R323). -/
structure Cred where
  key : Bytes
  role : Role
  deriving DecidableEq, Repr

/-- Who asked for a hand-over (R294, R322, R328): a debug unlock closes the holding slot first. -/
inductive Asker where
  | mailbox
  | management
  | debug
  deriving DecidableEq, Repr

/-- A hand-over in progress: SWITCH_CONTEXT or CLOSE_CONTEXT on the holding slot (R296, R297). -/
structure HandOver where
  outgoing : Option Slot
  incoming : Option Slot
  closing : Bool
  zeroFill : Bool
  started : Bool              -- the curtain is running
  asker : Asker
  deriving DecidableEq, Repr

/-- A firmware image with its digests and SVNs (R326, Table 12-5). -/
structure Firmware where
  digests : List Bytes        -- ROM excluded: Binnacle firmware, tile microcode, port firmware
  svns : List Nat
  image : Bytes
  deriving DecidableEq, Repr

/-- An image being delivered (R322). -/
structure FwUpload where
  length : Nat
  digest : Bytes
  image : List (Nat × Bytes)
  deriving DecidableEq, Repr

/-- Security, mailbox and management (Table 12-1, R321 to R328). -/
structure Security where
  opcode : BitVec 8           -- Table 12-1; 0
  slot : BitVec 3             -- Table 12-1; 0
  go : Bool                   -- Table 12-1; 0
  reqLen : BitVec 15          -- Table 12-1; 0
  error : BitVec 16           -- Table 12-1; 0
  respLen : BitVec 15         -- Table 12-1; 0
  request : Bytes             -- Table 12-1; 16 KiB request buffer, zeros
  response : Bytes            -- Table 12-1; 16 KiB response buffer, zeros
  waiting : Option (Nat × Slot × Bytes) -- Table 12-4; opcode, slot and bytes of the request that waits for a curtain; none
  debugUnlocked : Bool        -- Table 12-1; 0
  debugScope : BitVec 3       -- R327; 0
  challenge : Option Bytes    -- R327; none
  groups : List GroupKey      -- R311; from NV
  creds : Vector (Option Cred) 8 -- R323; from NV
  roots : Vector (Option Bytes) 4 -- R322; from NV
  reportCount : BitVec 32     -- R306; 0
  mgmtCounter : Vector (Option (BitVec 64)) 8 -- R321; last counter accepted per credential; none
  cdi : Bytes                 -- Table 12-8; derived at start
  aliasSeed : Bytes           -- Table 12-8; derived at start
  sealKey : Bytes             -- Table 12-8; derived at start
  scrubKey : Bytes            -- Table 12-8; DRBG at each curtain
  handOver : Option HandOver  -- R296; none
  mgmtWaiting : List (Nat × MgmtReq) -- Table 12-4; opcode and request of management requests that wait for a hand-over; none
  filling : List (Slot × Nat) -- R301; zero-fills running, GiB each
  upload : Option FwUpload    -- R322; none
  firmware : Firmware         -- R1; the firmware that runs
  deriving DecidableEq, Repr

/-! ### Loader, installed Chart, passes -/

/-- Slot states of Table 5-10 but for REFUSED and CHECKING, which are displays over the kept state (R120). -/
inductive SlotState where
  | empty
  | staged
  | installing
  | running
  | unstaging
  deriving DecidableEq, Repr

/-- One slot of the loader. -/
structure LoadSlot where
  state : SlotState           -- Table 5-10; EMPTY
  refused : Bool              -- R120; REFUSED is shown
  chart : Option Chart        -- R119; the checked copy
  folded : List TileId        -- R50; tiles reported folded since this staging, none
  deriving DecidableEq, Repr

/-- The fields the loader latches when go is written (R119). -/
structure LoadOp where
  isStage : Bool
  slot : Slot
  addr : Nat
  len : Nat
  member : Nat
  image : Bytes               -- the copy of the image (R119)
  onActive : Bool             -- R120; the stage op replaces the running Chart
  deriving DecidableEq, Repr

/-- The Chart loader (Table 5-9). -/
structure Loader where
  addrLo : BitVec 32          -- Table 5-9; 0
  addrHi : BitVec 9           -- Table 5-9; 0
  length : BitVec 32          -- Table 5-9; 0
  op : BitVec 4               -- Table 5-9; 0
  slot : BitVec 3             -- Table 5-9; 0
  member : BitVec 11          -- Table 5-9; 0
  running : Option LoadOp     -- Table 5-9 go; none
  error : BitVec 16           -- Table 5-9; 0
  sect : BitVec 16        -- Table 5-9; 0
  record : BitVec 32          -- Table 5-9; 0
  slots : Vector LoadSlot 8   -- Table 5-10
  lastMember : Nat            -- R119; member index latched at the last go
  cycle : List (Nat × Nat × Nat) -- R122; channels of the last refused cycle, for the Log
  regionsLost : Nat           -- Table 5-9, R129; regions that the Chart last installed has lost, 0
  deriving DecidableEq, Repr

/-- A recorded region fault waiting for the loader (R127). -/
structure FaultRec where
  region : Nat
  code : BitVec 16
  die : Option DieId
  deriving DecidableEq, Repr

/-- A pass in progress (R136, R386 to R388). -/
structure Pass where
  slot : Slot
  cmd : Cmd
  entry : Nat
  step : BitVec 32
  openLayer : Option Nat      -- R137; the layer last opened
  replays : Nat               -- R388; replays of the open layer
  replayDue : Bool            -- R386; a fault during the pass asks for a replay
  hasGrad : Bool              -- R142; a gradient layer has opened
  run : Nat                   -- R137; runs of the open layer's index before this one: 0 for its forward, 1 for its backward
  closed : Bool               -- R137; the layer last opened has closed
  sent : List (Nat × Nat × Nat) -- R138; blocks that the stacks have accepted since the layer opened or restarted: from, to, block
  skip : List (Nat × Nat × Nat) -- R138; those accepted before the restart, which SEND_BLOCKS skips
  deriving DecidableEq, Repr

/-- The installed Chart of the active slot (R125, R128). -/
structure Installed where
  slot : Slot
  running : Bool              -- slot_state RUNNING
  variants : List (Nat × Nat) -- (region_id, variant_id) in use
  lost : List Nat             -- R127; regions lost
  faults : List FaultRec      -- R127; recorded faults, oldest first
  folded : List TileId        -- R50; tiles folded
  phase : Option Nat          -- R133; open power-plan phase
  slowSaid : Bool             -- R343; 0x0A05 given for the open phase
  pass : Option Pass
  deriving DecidableEq, Repr

/-! ### Tiles, dies, mesh -/

/-- Counts that a cue's conversions and writes add up (R60, R72, R80, R96), and the output row and column of the first element of
each code (R78). -/
structure Tally where
  overflow : Nat := 0
  nonfinite : Nat := 0
  flagged : Nat := 0
  emptyRows : Nat := 0
  first : List (Nat × Nat × Nat) := []
  deriving DecidableEq, Repr

/-- A cue in flight (R133): its index in the list, the record, the step of the pass. -/
structure InFlight where
  index : Nat
  cue : Cue
  ran : Bool                  -- its data effect has been made
  counts : Tally := {}        -- R78; counts of an attention's last block, reported when its rows are finished; none
  frames : List (Nat × Nat) := [] -- R152; (shard, frame) of the shard table as a RECV_LAYER with source 0b01 read it at issue; none
  deriving DecidableEq, Repr

/-- A packet that a tile's local port has opened and not closed (R39, R54): the cue that sends it, its route and VC. -/
structure Packet where
  index : Nat
  route : Nat
  vc : Fin 4
  deriving DecidableEq, Repr

/-- A layer mark (R138, R387). -/
structure LayerMark where
  layer : Nat
  cueIndex : Nat
  counters : List (BitVec 16)
  ledger : List LedgerPart    -- the tile's partial statistics for the layer
  areas : List (Nat × Nat × List Nat) -- (deck weight area, layer and tensors of the slice whose blocks it holds)
  deriving DecidableEq, Repr

/-- Why a tile's clock is stopped or a stop is due (R148, R346). -/
inductive SleepState where
  | awake
  | deferredClocks
  | deferredRails
  | asleep
  deriving DecidableEq, Repr

/-- A window of the accumulator file (R68, R76). -/
structure Window where
  w : Int                     -- 96-bit two's complement
  anchor : Int                -- T, −252 to 286
  nan : Bool
  posInf : Bool
  negInf : Bool
  residue : Nat               -- 0 to 126
  deriving DecidableEq, Repr

/-- The vector registers of a tile (R79): the lanes that are known, by 256 × register + lane, and the cue since which every other
lane holds what that cue left in it (log entry 88); none from power-on, when a lane holds zero. -/
structure VecFile where
  lanes : List (Nat × BitVec 32)
  left : Option Nat
  deriving DecidableEq, Repr

/-- One tile (R26 to R40, R133 to R140). -/
structure Tile where
  sleep : SleepState          -- R148; asleep
  hbSeen : Vector HbState 5   -- R40; state last seen by each receiver: neighbours N E S W, own router; asleep
  silent : Vector Bool 5      -- R40; that receiver has reported it silent; 0
  halted : Bool               -- R127; prompter halted
  pc : Nat                    -- R133; next cue
  inPass : Bool               -- R136; between entry and end barrier
  counters : List (Nat × BitVec 16) -- R134; 64 counters of 16 bits, 0
  deferred : List (Nat × Cue) -- R139; up to 256, each with the index of its DEFER_DW
  draining : Option Nat       -- R140; entries a DRAIN_DW with fill 0 still has to run
  entryRun : Option (Nat × Cue) -- R139; the deferred entry running
  array : Option InFlight     -- R131; unit occupied
  vector : Option InFlight    -- R131
  movers : List InFlight      -- R133; up to four
  plain : List InFlight       -- cues that occupy no unit (R131)
  packets : List Packet       -- R54; open packets of the local port, none
  mark : Option LayerMark     -- R138; none
  parts : List LedgerPart     -- R138, R144; the tile's partial statistics, by layer; none
  stretch : Nat               -- R334; 0 none, 1 = 1.25 times, 2 = 2 times
  acc : List (Nat × Window)   -- R26, R68; accumulator file: the windows of units 0 to 4,095, cleared
  vregs : VecFile             -- R79; 32 vector registers of 256 lanes, cleared
  tables : List (FnTable × FnTable) -- R83, R107; table store and header file, at most 16 user pairs; none
  waitSaid : Bool             -- R149; 0x0412 given for this cue
  attn : List (Nat × List (BitVec 32)) -- R95; output rows of each query block, by its state tensor, carried from KV block to KV block; none
  deckHolds : List (Nat × Nat × List Nat) -- R22, R23, R387; (deck weight area, layer and tensors of the slice that it holds beneath this tile); none
  deriving DecidableEq, Repr

/-- Rail states of a compute die. -/
inductive Rails where
  | off
  | queued
  | ramping
  | up
  deriving DecidableEq, Repr

/-- One compute die (R53, R335, R350, R351, R368, R390). -/
structure Die where
  rails : Rails               -- R335; off
  locked : Bool               -- R335; die clocks locked
  isolated : Bool             -- R53
  alerting : Bool             -- R390; its regulator group holds VR_ALERT_N low
  latchedOff : Bool           -- R390
  lockFailed : Bool           -- Table 5-11, check 10
  trimMv : Int                -- R351; −25 to 25
  trimTick : Nat              -- R351; tick of the last change
  x1 : Rat                    -- R368; model state, K
  x2 : Rat                    -- R368; model state, K
  powerW : Nat                -- R362; measured power of the last 10 ms
  deriving DecidableEq, Repr

/-- A flit that the sender of a link direction keeps: its seq and its 544 logical tracks (R37, R38). -/
structure MeshFlit where
  seq : BitVec 6
  tracks : BitVec 544
  deriving DecidableEq, Repr

/-- One link direction that is not at rest (R37, R38, R41, R43). -/
structure LinkState where
  link : LinkDir
  down : Bool                 -- R43; 0
  flit : BitVec 6             -- R38; flit under replay; 0
  fails : Nat                 -- R38; failures of it in a row, the first among them; 0
  waiting : Bool              -- R38; receiver waits for the replay; 0
  shift : List (Nat × Nat)    -- R41; (group, failed track); none
  nextSeq : BitVec 6          -- R37; 0
  sent : List MeshFlit        -- R38; the sender's last 32 flits, oldest first; none
  deriving DecidableEq, Repr

/-- A route signal in flight (R135). -/
structure RouteSignal where
  tile : TileId
  ctr : Nat
  layer : Nat
  deriving DecidableEq, Repr

/-- The defect map (R44 to R48). -/
structure DefectMap where
  entries : List (BitVec 64)  -- R45; production, stored, volatile, in index order
  index : BitVec 14           -- Table 2-7; 0
  gone : List (Nat × Nat × Nat × Nat) -- R47; rows that a curtain took out without a spare: kind, tile, bank, row; none
  deriving DecidableEq, Repr

/-- A background activity with a period (Table 15-13). -/
inductive BgTask where
  | stackPatrol
  | sramScrub
  | deckArea (area : Nat)
  | modelShard (slot : Slot) (shard : Nat)
  | retune
  | ageing (die : DieId)
  | nvUpkeep
  | telemetry
  deriving DecidableEq, Repr

/-- Self-test bookkeeping (R380 to R384). -/
structure SelfTest where
  waiting : List (Part × BitVec 16 × Nat) -- R380, R384; up to 256, in detection order, with the tick of the detection
  running : List (Part × BitVec 16) -- R384; up to 16
  transients : List (Part × List Nat) -- R382; up to 1,024 parts, ticks of their transients
  dropped : Nat               -- R384; detections not tested
  work : List (BgTask × Nat × Bool) -- R405, R406; background tasks: workTicks at the last round, reported late; none
  workTicks : Nat             -- R407; house ticks in which background work ran; 0
  deriving DecidableEq, Repr

/-! ### Power, cooling, NV -/

/-- Power and clock control (R336 to R353, Table 13-5). -/
structure Power where
  pins : BitVec 2             -- R336; bit 0 VR_ALERT_N low, bit 1 PSU_ALERT_N low
  src : BitVec 4              -- Table 13-5 clamp_src; 0
  seen : BitVec 4             -- R339; sources of the clamp in force
  clamped : Bool              -- Table 13-5 clamp; 0
  capHold : Bool              -- Table 13-5; 0
  capTerm : Nat               -- R340; orphan cap
  orphan : Bool               -- Table 13-5; 1
  leased : Bool               -- Table 13-5; 0
  setValid : Bool             -- Table 13-5; 0
  capSet : BitVec 16          -- Table 13-5; 0
  leaseLive : Bool            -- R340; the 30 s run
  expired : Bool              -- R340; the lease has expired
  orphanW : BitVec 16         -- Table 13-5; NV
  slewWs : BitVec 16          -- Table 13-5; NV
  powerW : BitVec 16          -- Table 13-5; 0
  energy : BitVec 64          -- Table 13-5; 0
  clampCount : BitVec 32      -- Table 13-5; 0
  events : BitVec 5           -- Table 13-5; 0
  vector : BitVec 6           -- Table 13-5; 0
  level : Nat                 -- R344; L in units of 10⁻⁴ W
  point : Nat                 -- R332; operating point in force
  dither : Nat                -- R333; sixteenths of the interval at the point before it
  drawn : Nat                 -- R346; W the work draws at the point in force
  ballast : Nat               -- R346; W of ballast
  pForecast : Nat             -- R369; 0
  pThrottle : Nat             -- R365; 0
  throttleRose : Bool         -- R348; p_throttle rose this interval
  capOffset : Nat             -- R343; points p_cap has moved slower
  grant : Nat × Nat × Nat     -- R342; ports, memory, compute grants
  holdUp : Bool               -- R347
  holdDown : Bool             -- R347
  tbar : List Int             -- R347; means of the last 100 ms, newest first
  droops : Nat                -- R353; stretches since the last 0x0A09
  interval : Nat              -- R343; control intervals since the last whole millisecond, 0 to 9
  oscTrim : Nat               -- R331; draw that fixes the oscillators' free-running trims
  ballastSeed : Nat           -- R346; draw from which the tiles' ballast registers were last seeded
  lifeEnergy : BitVec 64      -- R349, R397; lifetime energy
  lifeClamps : BitVec 32      -- R397; lifetime clamps
  lifeReplays : BitVec 32     -- R397; lifetime replays
  deriving DecidableEq, Repr

/-- A hot spot's sensors (R359 to R362), hundredths of a degree. -/
structure HotSpot where
  diode : Int
  ring : Int
  flagged : Bool
  diodeRetired : Bool
  ringRetired : Bool
  deriving DecidableEq, Repr

/-- A tile's ring oscillator (R359, R363). -/
structure TileSensor where
  reading : Int
  outliers : Nat
  retired : Bool
  deriving DecidableEq, Repr

/-- Cooling and temperature (R354 to R378, Table 14-8). -/
structure Thermal where
  tray : TrayRegs             -- R357; last values read
  lastSeq : Option Byte       -- R358; seq of the last sample taken
  stale : Bool                -- R358
  inletStale : Bool           -- R358
  flow : Nat                  -- R358; 0.01 L/min, as the engine takes it
  flows : List Nat            -- R372; readings of the last 100 ms, newest first
  flowReq : Nat               -- R356; F_cmd, 0.01 L/min
  fcSeq : BitVec 8            -- Table 14-3; 0
  coolingCap : Nat            -- Table 14-8; 23,000
  derate : Bool               -- Table 14-8; 0
  flowClamp : Bool            -- R372; cooling clamp by flow or supply
  suddenStop : Bool           -- Table 14-8; 0
  halting : Bool              -- R373; halt begun
  halted : Bool               -- Table 14-8; 0
  throttle : Bool             -- Table 14-8; 0
  throttleClamp : Bool        -- R365; cooling clamp by T_j
  thermTrip : Bool            -- Table 14-8; 0
  below20 : Bool              -- R355; 0x0B0F given
  teleMs : Nat                -- R377; milliseconds since the coarse figures last changed, 0 to 999
  forecastSaid : Bool         -- R369; 0x0B0B given for the phase
  spots : Vector HotSpot 144  -- R359
  tiles : List (Nat × TileSensor) -- R359, R363
  others : List Int           -- R359
  tj : Int                    -- R360; hundredths of a degree
  tjC : BitVec 8              -- Table 14-8; 0
  flowReg : BitVec 16         -- Table 14-8; 0
  flowReqReg : BitVec 16      -- Table 14-8; 0
  tInReg : BitVec 16          -- Table 14-8; 0
  tOutReg : BitVec 16         -- Table 14-8; 0
  retired : BitVec 16         -- Table 14-8; 0
  events : BitVec 7           -- Table 14-8; 0
  vector : BitVec 6           -- Table 14-8; 0
  deriving DecidableEq, Repr

/-- The plane-port fields that live in NV (R257, R397). -/
structure PortNv where
  berInterval : BitVec 16
  verifyMode : BitVec 2
  strict : Bool
  enable : Bool
  planSerial : BitVec 64
  planPort : BitVec 16
  planValid : Bool
  berPassed : Bool
  deriving DecidableEq, Repr

/-- The NV settings (R397). -/
structure NvSettings where
  ports : Vector PortNv 16
  fabricGroup : BitVec 12
  orphanW : BitVec 16
  slewWs : BitVec 16
  defects : List (BitVec 64)
  repairs : List (Nat × Nat)
  trims : List Int
  groups : List GroupKey
  creds : Vector (Option Cred) 8
  roots : Vector (Option Bytes) 4
  lifeEnergy : BitVec 64
  lifeClamps : BitVec 32
  lifeReplays : BitVec 32
  deriving DecidableEq, Repr

/-- One NV bank (R397 to R399). -/
structure NvBank where
  committed : Bool            -- a commit record has been written
  recordGood : Bool           -- the newest commit record's digest matches the bank
  seq : BitVec 64
  firmware : Firmware
  fwGood : Bool
  settings : NvSettings
  wear : Nat                  -- highest number of writes to any line
  place : Fin 64              -- R398, R400; commit slot and counter position of the newest store
  record : Bytes              -- R398; the newest commit record, 128 bytes
  deriving DecidableEq, Repr

/-- The write in progress (R398, R401). -/
structure NvJob where
  isFirmware : Bool
  settings : NvSettings
  firmware : Firmware
  takes : List Nat            -- indices of the volatile entries it stores
  leftOver : Nat              -- volatile entries without room
  answers : Nat               -- R402; management answers due when it ends
  bit : Bool                  -- R402; the store bit asked for it
  deriving DecidableEq, Repr

/-- The NV store (R397 to R402, Table 15-10). -/
structure Nv where
  banks : Vector NvBank 2     -- R397
  active : Fin 2              -- Table 15-10; from NV
  production : List (BitVec 64) -- R45; production defect map, locked
  tokens : Nat                -- Table 15-10; 6
  storeWaiting : Bool         -- Table 15-10; 0
  storeAnswers : Nat          -- R401; management STORE_NV answers due
  update : Option Firmware    -- Table 15-10 update_waiting; none
  job : Option NvJob          -- Table 15-10 busy; none
  storeBit : Bool             -- Table 15-10 store; 0
  lastCode : BitVec 16        -- Table 15-10; 0
  events : BitVec 4           -- Table 15-10; 0
  vector : BitVec 6           -- Table 15-10; 0
  repairs : List (Nat × Nat)  -- R383; stack repair list
  stores : BitVec 32          -- R398; lifetime store count
  deriving DecidableEq, Repr

end Sys2Proof.Machine
end

