-- ==== Sys2Proof/Machine/StateNet.lean ====
section
/-! DEFINITION. The parts of the state that face the planes: ports, tests, collectives, the step's
reduction; and what leaves the engine. Comments as in StateParts.lean. -/

namespace Sys2Proof.Machine

open Sys2Proof

/-- Port states of Table 10-10. -/
inductive PortState where
  | down
  | pmd
  | lock
  | negotiate
  | test
  | keying
  | up
  deriving DecidableEq, Repr

/-- An unacknowledged data flit of the replay store (R243): its seq, VC, sealed bytes and resends. -/
structure TxFlit where
  seq : BitVec 12
  vc : Fin 4
  header : BitVec 64
  sealed : Bytes
  resends : Nat
  deriving DecidableEq, Repr

/-- A flit's body that waits to be sent (R246). -/
structure TxBody where
  body : Bytes
  sop : Bool
  eop : Bool
  deriving DecidableEq, Repr

/-- One direction's hop keys (R242, R316). -/
structure HopKey where
  key : Bytes
  salt : BitVec 32
  counter : Nat               -- flits sealed for the first time, or accepted
  phase : Bool
  deriving DecidableEq, Repr

/-- The keying exchange under way (R314 to R316). -/
structure Keying where
  ne : Bytes
  hello : Bytes
  reply : Bytes
  confirm : Bytes
  ephDk : Bytes
  ssE : Bytes
  confirmed : Bool
  deriving DecidableEq, Repr

/-- One plane port (Chapter 10, R314 to R318). -/
structure Port where
  nv : PortNv                 -- Table 10-10; NV
  autoRetrain : Bool          -- Table 10-10; 1
  train : Bool                -- Table 10-10; 0
  state : PortState           -- Table 10-10; DOWN
  status : LinkStatus         -- R240; DOWN
  resume : LinkStatus         -- R240; status to return to after a curtain
  farStatus : BitVec 4        -- Table 10-10; 0
  retrains : BitVec 8         -- Table 10-10; 0
  lastCode : BitVec 16        -- Table 10-10; 0
  version : BitVec 32         -- Table 10-10; 0
  events : BitVec 6           -- Table 10-10; 0
  farSerial : BitVec 64       -- Table 10-10; 0
  farKind : BitVec 8          -- Table 10-10; 0
  farPlane : BitVec 8         -- Table 10-10; 0
  farPort : BitVec 16         -- Table 10-10; 0
  replays : BitVec 32         -- Table 10-10; 0
  fecCorrected : BitVec 32    -- Table 10-10; 0
  fecUncorrected : BitVec 32  -- Table 10-10; 0
  berErrors : List (BitVec 32) -- Table 10-10; eight words, 0
  berFar : List (BitVec 32)   -- Table 10-10; eight words, 0
  framingLoss : Bool          -- R244, R259; the 1 µs count runs
  framed : Bool               -- R248; framing lock held
  awaiting : List Nat         -- R248; training kinds sent whose far counterpart is missing
  berDue : Bool               -- R255; the test runs in this training
  berNear : Option (List (BitVec 32) × BitVec 8) -- R255; this side's counts once taken
  berFarSeen : Bool           -- R255; the far counts arrived
  berFarLocked : BitVec 8     -- R255; lanes the far end locked
  lastBer : Option Nat        -- R255; tick of the last pass
  keying : Option Keying      -- R314; none
  keyed : Bool                -- R318; 0
  switchSerial : BitVec 64    -- R318; 0
  rootFp : Bytes              -- R318; none
  reducerFw : Bytes           -- R318; none
  transcript : Bytes          -- R317; digest of the last exchange
  tx : HopKey                 -- R242
  rx : HopKey                 -- R242
  rxOld : Option HopKey       -- R242; kept for 1,024 flits of the new phase
  rxNew : Nat                 -- R242; flits accepted under the new phase
  lastKeyed : Nat             -- R317; tick of the last exchange
  credInit : Bool             -- R245; far credits checked
  credits : Vector Nat 4      -- R245; credits held per VC
  nextSeq : BitVec 12         -- R243; 0
  unacked : List TxFlit       -- R243; at most 1,024
  nakActed : Option (BitVec 12) -- R243; ack of the nak last acted on
  rxExpect : BitVec 12        -- R243; 0
  naking : Bool               -- R243; waiting for the expected flit
  partial' : Vector Bytes 4   -- R246; message bytes assembled per VC
  degraded : List Nat         -- R256; seconds in a row above 10⁻⁵, per lane, 0
  farEk : Bytes               -- R316; the switch's encapsulation key of the exchange in force
  ephDk : Bytes               -- R316; the engine's ephemeral decapsulation key of it
  rekey : Option Bytes        -- R317; the engine's shared secret of a key change under way; none
  txQueue : Vector (List TxBody) 4 -- R245; flits not yet sent, per VC; empty
  stream : Bytes              -- R238; flit stream that no codeword carries yet; empty
  rr : Fin 3                  -- R245; VC whose turn it is among 0 to 2
  owed : Vector Nat 4         -- R245; credits not yet returned to the far end, per VC; 0
  deriving DecidableEq, Repr

/-- The pattern test registers (Table 10-11). -/
structure Pattern where
  target : BitVec 8           -- Table 10-11; 0
  laneMask : BitVec 8         -- Table 10-11; 0
  prbs : BitVec 4             -- Table 10-11; 0
  mode : BitVec 2             -- Table 10-11; 0
  direction : BitVec 3        -- Table 10-11; 0
  grow : BitVec 7             -- Table 10-11; 0
  gcol : BitVec 7             -- Table 10-11; 0
  refusal : BitVec 16         -- Table 10-11; 0
  locked : BitVec 8           -- Table 10-11; 0
  bits : BitVec 64            -- Table 10-11; 0
  firstFail : BitVec 12       -- Table 10-11; 0xFFF
  laneIndex : BitVec 12       -- Table 10-11; 0
  laneErrors : List (Nat × BitVec 32) -- Table 10-11; per lane or track, 0
  running : Bool              -- Table 10-11 go; 0
  held : Option (BitVec 8 × BitVec 8 × BitVec 3 × BitVec 7 × BitVec 7) -- R254; lanes held: target, mask, direction, row, column
  heldMode : BitVec 2         -- Table 10-11; mode of the test that runs; 0
  deriving DecidableEq, Repr

/-- The field test registers (Table 16-11). -/
structure Field where
  kind : BitVec 4             -- Table 16-11; 0
  dieMaskLo : BitVec 32       -- Table 16-11; 0
  dieMaskHi : BitVec 4        -- Table 16-11; 0
  result : BitVec 16          -- Table 16-11; 0
  lasting : BitVec 16         -- Table 16-11; 0
  elapsedMs : BitVec 32       -- Table 16-11; 0
  running : Option (BitVec 4) -- Table 16-11 go; none
  testLo : BitVec 32          -- R430; die_mask_lo of the test that runs; 0
  testHi : BitVec 4           -- R430; die_mask_hi of the test that runs; 0
  deriving DecidableEq, Repr

/-! ### Collectives (Chapter 9) -/

/-- A COUNTS, SCALAR_SUM, BROADCAST or BARRIER instance that runs (R210). -/
structure CollInst where
  descId : Nat
  seq : Nat
  kind : Nat                  -- 2 COUNTS, 3 SCALAR_SUM, 4 BROADCAST, 5 BARRIER
  cmd : Cmd
  mask : BitVec 2048
  maskTag : BitVec 32
  v : Nat
  mean : Bool
  dst : Nat
  src : Nat
  root : Nat
  length : Nat
  counts : List (Nat × List (BitVec 64)) -- vectors held, by sender
  scalars : List (Nat × List (BitVec 32))
  arrived : List Nat          -- ARRIVE or BCAST_DONE senders
  chunks : List Nat           -- chunks written
  digest : Option Bytes       -- BCAST_END seen
  rounds : Nat
  reqs : List (Nat × Nat × Nat) -- R225; BCAST_REQs received at the root: sender, chunk, port
  aborts : List (Nat × BitVec 16) -- accepted aborts (initiator, error); H runs while not empty
  deriving DecidableEq, Repr

/-- A message held for an instance not yet started (R211). -/
inductive HeldMsg where
  | counts (h : CollHdr) (v : List (BitVec 64))
  | scalars (h : CollHdr) (v : List Word)
  | chunk (h : CollHdr) (data : Bytes)
  | bcastEnd (h : CollHdr) (length : Word) (digest : Bytes)
  | done (h : CollHdr)
  | arrive (h : CollHdr)
  | ringPartial (port : PortId) (r : ResultMsg) (sender : BitVec 16) (chartTag : BitVec 32)
  | req (port : PortId) (h : CollHdr) -- BCAST_REQ
  | cancel (h : CollHdr)       -- R222; HOP_CANCEL, answered when it came
  | abort (sym : AbortSym)
  deriving DecidableEq, Repr

/-- A plane's answer in the step (R214 to R216). -/
inductive PlaneAnswer where
  | waiting
  | accepted
  | ring
  | unreachable
  deriving DecidableEq, Repr

/-- A ring hop under way (R222): the position the partial was sent to, and whether HOP_CANCEL is out. -/
structure RingHop where
  g : Nat
  position : Nat
  cancelSent : Bool
  msg : ResultMsg
  deriving DecidableEq, Repr

/-- What an owned block still waits for (R198, R199). -/
structure OwnedBlock where
  g : Nat
  layer : Nat
  reserved : Bool             -- R198; result buffer reserved
  tries : Nat                 -- R199; RESULT_REQs sent
  badSum : Bool               -- R199; the last result's checksum differed
  settled : Bool
  buffer : Option (Nat × Nat) -- R198; result buffer: tensor and number
  result : Option ResultMsg   -- header of the accepted result; its sums lie in the buffer
  deriving DecidableEq, Repr

/-- A patch of a run whose scale notice has not gone out (R183): run, shard, stream offset, ordinal, plaintext. -/
structure PatchDue where
  run : Nat
  shard : Nat
  offset : Nat
  ordinal : Nat
  plain : Bytes
  deriving DecidableEq, Repr

/-- One step's REDUCE_SHARDS on this member (R214 to R224). -/
structure Reduction where
  cmd : Cmd
  descId : Nat
  step : BitVec 32
  planeMask : BitVec 16
  force : Bool                -- mask_op 1
  f : BitVec 32
  bc1 : BitVec 32
  bc2 : BitVec 32
  logAddr : Nat
  logLen : Nat
  logUsed : Nat               -- R206; records written
  answers : List (Nat × PlaneAnswer × Nat) -- (plane, answer, try)
  sent : List Nat             -- R186, R218; blocks that the port dies have accepted
  withheld : List Nat         -- R197; blocks withheld or folded without a send
  owned : List OwnedBlock     -- R180
  noticed : List Nat          -- R183; runs whose notice has gone out
  patchDue : List PatchDue    -- R183; patches that wait for their notice
  patched : List Nat          -- R166; layers whose patches have been formed
  signalled : Nat             -- R217; LAYER records, from the highest layer, whose signal has gone out
  ringHops : List RingHop     -- R222
  ringWait : List (Nat × Contribution) -- R223; encoded contributions that wait for their partial
  ringHeld : List (Nat × ResultMsg) -- R223; partials held for the encode
  ringTaken : List Nat        -- R222; partials accepted
  ringLate : List Nat         -- R222, R223; blocks whose contribution is folded, not merged
  ringCancelled : List Nat    -- R222; HOP_CANCEL came first
  oneBitSaid : Bool           -- R188
  aborts : List (Nat × BitVec 16) -- R232
  deriving DecidableEq, Repr

/-- The collective unit (R208 to R233). -/
structure Collective where
  insts : List CollInst       -- running; none
  held : List HeldMsg         -- R211; none
  reds : List Reduction       -- running; none
  ended : Option (Slot × Nat × BitVec 16) -- R214, R219; slot and step whose reduction was refused or aborted with blocks unsent, and its code; none
  kept : List (Nat × Nat × ResultMsg) -- R224; (step, g, result) of rings that ended here, until RESULT_ACK; none
  discards : Nat              -- R236; counted under 0x0714
  lastEncode : List (Nat × Nat) -- R197; (g, step) of each block's last encode
  counts : List (Nat × Nat × Nat) -- R207, R236; (code, layer, blocks) counted in this step under 0x0603, 0x0604, 0x0715
  deriving DecidableEq, Repr

/-! ### What leaves the engine -/

/-- Messages on a plane (Tables 7-6, 8-3, 9-3, 10-13, 12-9). -/
inductive PlaneMsg where
  | shardReq (modelId : BitVec 128) (shard : Nat) (version : BitVec 32) (holdMs : Nat)
  | shardPut (r : ShardRecord)
  | pilot (r : ShardRecord)
  | contribution (c : Contribution)
  | resultReq (b : BlockRef)
  | resultAck (b : BlockRef)
  | scaleNotice (n : ScaleNotice)
  | open' (h : CollHdr) (d quorum retryLimit retryGap : Nat) (ringOk : Bool)
  | close (h : CollHdr)
  | ringPartial (r : ResultMsg)
  | ringResult (r : ResultMsg)
  | hopAck (h : CollHdr)
  | hopCancel (h : CollHdr)
  | cancelAck (h : CollHdr)
  | countsVec (h : CollHdr) (v : List (BitVec 64))
  | scalarVec (h : CollHdr) (v : List Word)
  | bcastChunk (h : CollHdr) (data : Bytes)
  | bcastEnd (h : CollHdr) (length : Nat) (digest : Bytes)
  | bcastReq (h : CollHdr)
  | bcastDone (h : CollHdr)
  | arrive (h : CollHdr)
  | rekey (content : Bytes)
  deriving DecidableEq, Repr

/-- Everything that leaves the engine, in order. -/
inductive Output where
  | plane (port : PortId) (dst : BitVec 32) (m : PlaneMsg)
  | training (port : PortId) (kind : Nat) (content : Bytes)
  | trainingFlit (port : PortId) (flit : Bytes)
  | resend (port : PortId) (first : BitVec 12)
  | codeword (port : PortId) (w : Codeword)
  | msix (vector : BitVec 6)
  | record (slot : Slot) (index : Nat) (toHdm : Bool) (r : CplRecord) (phase : Bool)
  | mgmt (opcode : Nat) (code : BitVec 16) (body : Bytes)
  | doe (port : CxlId) (body : Bytes)
  | cxl (status : Nat)        -- 0 Unsupported Request, 1 poison, 2 discarded
  | tray (flowReq : Nat) (fcSeq : BitVec 8) (heatNow : Nat) (heatFc : List Nat) (heatPeak : Nat)
  | thermTrip (low : Bool)
  | heartbeat (tile : TileId) (receiver : Fin 5) (st : HbState)
  | meshFlit (l : LinkDir) (wires : BitVec 578)
  | replayReq (l : LinkDir) (seq : BitVec 6)
  | flitResend (l : LinkDir) (seq : BitVec 6)
  deriving DecidableEq, Repr

end Sys2Proof.Machine
end

