-- ==== Sys2Proof/Machine/Codeword.lean ====
section
/-! DEFINITION. The framing above the FEC (R238 to R240): the codeword word of Table 10-2, the flit area, the place of a symbol, and
the flits that codewords carry. -/

namespace Sys2Proof.Machine

open Sys2Proof

/-- Values of link_status (Table 10-3). -/
def linkCode : LinkStatus → Nat
  | .training => 0
  | .up => 1
  | .curtain => 2
  | .test => 3
  | .withdrawn => 4
  | .down => 5

/-! ### The codeword word (Table 10-2) -/

def cwType (w : Codeword) : Nat := bits w.toNat 19 16
def cwStatus (w : Codeword) : Nat := bits w.toNat 15 12
def cwSymbol (w : Codeword) : Nat := bits w.toNat 11 8
def cwIndexOf (w : Codeword) : Nat := bits w.toNat 7 0

/-- The 640 bytes of the flit area; byte 0 holds its lowest bits (DESIGN CHOICE, log entry 101). -/
def flitAreaOf (w : Codeword) : Bytes := toLe 640 (w.toNat / 2 ^ 20)

/-- The part of the area that carries the flit stream: all of it, none, or what follows a symbol. -/
def flitStream (w : Codeword) : Bytes :=
  if cwType w = 0 then flitAreaOf w else if cwType w = 2 then (flitAreaOf w).drop 16 else []

/-- The message bits of a codeword. -/
def codeword (type status symbol index : Nat) (area : Bytes) : Codeword :=
  BitVec.ofNat 5140 (leNat area * 2 ^ 20 + type % 16 * 2 ^ 16 + status % 16 * 2 ^ 12 + symbol % 16 * 2 ^ 8 + index % 256)

/-! ### Symbols (R239, Table 9-5) -/

/-- The 128 bits of an ABORT symbol. -/
def symbolBytes (a : AbortSym) : Bytes :=
  toLe 16 (a.error.toNat + a.initiator.toNat * 2 ^ 16 + a.descId.toNat * 2 ^ 32 + a.seq.toNat * 2 ^ 48 + a.chartTag.toNat * 2 ^ 80)

/-- An ABORT symbol's fields. -/
def parseSymbol (b : Bytes) : AbortSym :=
  let v := leNat b
  { error := BitVec.ofNat 16 v, initiator := BitVec.ofNat 11 (v / 2 ^ 16), descId := BitVec.ofNat 16 (v / 2 ^ 32),
    seq := BitVec.ofNat 32 (v / 2 ^ 48), chartTag := BitVec.ofNat 32 (v / 2 ^ 80) }

/-- The ABORT symbol that a received codeword carries. -/
def abortOf (w : Codeword) : Option AbortSym :=
  if cwType w = 2 ∧ cwSymbol w = 1 then some (parseSymbol ((flitAreaOf w).take 16)) else none

/-- The codeword that carries a symbol. Its index is the codeword clock's, and the flits behind the symbol are those the symbol
displaces: both are free values (log entry 101). -/
def symbolWord (status : LinkStatus) (n : Nat) (a : AbortSym) : Codeword :=
  codeword 2 (linkCode status) 1 (Config.cwIndex n).toNat (symbolBytes a ++ toLe 624 (Config.cwStream n).toNat)

/-! ### Flits in codewords (R238, R241) -/

/-- Every codeword that carries a part of the flit decoded (R243). -/
def flitDecoded (f : Flit) : Bool := f.words.all fun w => w.isSome

/-- The flit's 256 bytes. -/
def flitRaw (f : Flit) : Bytes := (((f.words.filterMap id).flatMap flitStream).drop f.offset).take 256

/-- Header, sealed body and tag of a flit (R241). -/
def flitHead (f : Flit) : BitVec 64 := BitVec.ofNat 64 (leAt (flitRaw f) 0 8)
def flitBody (f : Flit) : Bytes := slice (flitRaw f) 8 232
def flitTag (f : Flit) : Bytes := slice (flitRaw f) 240 16

/-- The last link_status that a flit's codewords carry. -/
def flitStatus (f : Flit) : Option Nat := ((f.words.filterMap id).getLast?).map cwStatus

/-- Codewords cut from a flit stream, each whole, and what is left. -/
def cutCodewords (status : LinkStatus) (n : Nat) : Nat → Bytes → List Codeword × Bytes
  | 0, b => ([], b)
  | k + 1, b =>
    if b.length < 640 then ([], b)
    else
      let r := cutCodewords status (n + 1) k (b.drop 640)
      (codeword 0 (linkCode status) 0 (Config.cwIndex n).toNat (b.take 640) :: r.1, r.2)

end Sys2Proof.Machine
end

