-- ==== Sys2Proof/Machine/State.lean ====
section
/-! DEFINITION. The machine's state, the reasons a step can stop, and the state right after reset:
HOUSE_RST_N has taken effect and is still low (R413), the house domain is up, everything else is off. -/

namespace Sys2Proof.Machine

open Sys2Proof

/-- Reasons to stop with a fault: the manual stops the engine at no command, so there is none, and no
meaning raises one. Safe. -/
inductive Fault where
  deriving DecidableEq, Repr

/-- Reasons to refuse. -/
inductive Refusal where
  /-- A row whose meaning has not been written yet, by its mnemonic. Raised by Dispatch alone; safe. -/
  | notModelled (mnemonic : String)
  deriving DecidableEq, Repr

/-- The state of the engine. -/
structure State where
  /-- Commands that wait, first in, first out (the model's own queue). -/
  pending : List Instr
  /-- Draw counter of the free values and of the DRBG (the model's own field). -/
  free : Nat
  /-- What has left the engine, oldest first (the model's own field). -/
  out : List Output
  /-- House-clock ticks since the house domain came up (R330). -/
  ticks : Nat
  ident : Ident
  start : Startup
  log : EventLog
  host : HostAttach
  ctx : Vector Ctx 8
  sec : Security
  loader : Loader
  installed : Option Installed
  tiles : List (Nat × Tile)
  dies : Vector Die 36
  links : List LinkState
  signals : List RouteSignal
  defects : DefectMap
  selfTest : SelfTest
  mem : List Host.Cell
  power : Power
  thermal : Thermal
  nv : Nv
  ports : Vector Port 16
  fabricGroup : BitVec 12
  pattern : Pattern
  field : Field
  coll : Collective
  /-- Entries seen to become valid (R274). -/
  observed : Nat
  /-- Logs written (R287). -/
  snapshots : Nat
  /-- Shard service messages discarded (R160). -/
  badShards : Nat
  deriving DecidableEq, Repr

/-! ### Reset values, part by part -/

def CplRing.reset : CplRing :=
  { baseLo := 0, baseHi := 0, sizeLog2 := 6, location := false, vector := 0, enable := false,
    latch := none, lastSize := 64, phase := true, tail := 0, head := 0, headInForce := 0,
    held := [], writing := false, irqDue := false }

def Queue.reset : Queue :=
  { baseLo := 0, baseHi := 0, sizeLog2 := 4, enable := false, cancel := false, latched := false,
    lBase := 0, lSize := 16, phase := true, head := 0, valid := [] }

/-- A closed slot (R291) with its registers at Table 11-6's reset values. -/
def Ctx.reset : Ctx :=
  { state := .closed, ownerFp := [], stackGib := 0, hdmGib := 0, fmtMajor := 1, lastCode := 0,
    events := 0, cq := CplRing.reset, fenceIndex := 0, fences := [],
    queues := Vector.replicate 16 Queue.reset, running := [], memKey := [], ek := [], dk := [],
    keys := Vector.replicate 16 none, reports := [], lastSeq := [], ledger := [], blockMax := [], pool := [], bounced := [], gradAt := [], arith := [], model := none,
    barrier := false, barrierOrder := 0, arrayPct := 0, vectorPct := 0, stackPct := 0, portPct := 0,
    heldMs := 0 }

def CxlPort.reset : CxlPort :=
  { linkUp := false, linkX4 := false, ideUp := false, ideAtLoss := false, takeOver := false,
    ideKeys := [] }

def HostAttach.reset : HostAttach :=
  { activePort := 0, ports := Vector.replicate 2 CxlPort.reset, autoFailover := true,
    failover := false, autoArmed := false, autoRetry := false, swapPending := false, events := 0,
    vector := 0, lastCode := 0,
    msix := Vector.replicate 64 { addrLo := 0, addrHi := 0, data := 0, ctrl := 1 },
    msixPending := 0, standbyCount := 0, outsideCount := 0 }

def EventLog.reset : EventLog :=
  { records := [], nextSeq := 0, dropped := 0, evIndex := 0, latched := none, newEvent := false,
    vector := 0 }

/-- The tile's state before any Chart: asleep, counters zero, stores cleared. -/
def Tile.reset : Tile :=
  { sleep := .asleep, hbSeen := Vector.replicate 5 .asleep, silent := Vector.replicate 5 false, halted := false, pc := 0, inPass := false,
    counters := [], deferred := [], draining := none, entryRun := none, array := none, vector := none,
    movers := [], plain := [], packets := [], mark := none, parts := [], stretch := 0, acc := [], vregs := { lanes := [], left := none }, tables := [],
    waitSaid := false, deckHolds := [], attn := [] }

/-- A link direction at rest. -/
def LinkState.rest (l : LinkDir) : LinkState :=
  { link := l, down := false, flit := 0, fails := 0, waiting := false, shift := [], nextSeq := 0, sent := [] }

def Die.reset : Die :=
  { rails := .off, locked := false, isolated := false, alerting := false, latchedOff := false,
    lockFailed := false, trimMv := 0, trimTick := 0, x1 := 0, x2 := 0, powerW := 0 }

def PortNv.reset : PortNv :=
  { berInterval := 0, verifyMode := 0, strict := false, enable := false, planSerial := 0,
    planPort := 0, planValid := false, berPassed := false }

def HopKey.reset : HopKey :=
  { key := [], salt := 0, counter := 0, phase := false }

def Port.reset (nv : PortNv) : Port :=
  { nv := nv, autoRetrain := true, train := false, state := .down, status := .down, resume := .down,
    farStatus := 0, retrains := 0, lastCode := 0, version := 0, events := 0, farSerial := 0,
    farKind := 0, farPlane := 0, farPort := 0, replays := 0, fecCorrected := 0, fecUncorrected := 0,
    berErrors := List.replicate 8 0, berFar := List.replicate 8 0, framingLoss := false,
    framed := false, awaiting := [], berDue := false, berNear := none, berFarSeen := false, berFarLocked := 0,
    lastBer := none, keying := none, keyed := false, switchSerial := 0, rootFp := [],
    reducerFw := [], transcript := [], tx := HopKey.reset, rx := HopKey.reset, rxOld := none,
    rxNew := 0, lastKeyed := 0, credInit := false, credits := Vector.replicate 4 0, nextSeq := 0,
    unacked := [], nakActed := none, rxExpect := 0, naking := false,
    partial' := Vector.replicate 4 [], degraded := List.replicate 8 0, farEk := [], ephDk := [],
    rekey := none, txQueue := Vector.replicate 4 [], stream := [], rr := 0, owed := Vector.replicate 4 0 }

def Firmware.reset : Firmware :=
  { digests := [], svns := [0, 0, 0], image := [] }

/-- Default NV settings: the defaults of Table 13-3, an empty cabling plan, no credential. -/
def NvSettings.reset : NvSettings :=
  { ports := Vector.replicate 16 PortNv.reset, fabricGroup := 0, orphanW := 13800, slewWs := 20000,
    defects := [], repairs := [], trims := [], groups := [], creds := Vector.replicate 8 none,
    roots := Vector.replicate 4 none, lifeEnergy := 0, lifeClamps := 0, lifeReplays := 0 }

def NvBank.reset (seq : BitVec 64) : NvBank :=
  { committed := true, recordGood := true, seq := seq, firmware := Firmware.reset, fwGood := true,
    settings := NvSettings.reset, wear := 0, place := 0, record := [] }

def Nv.reset : Nv :=
  { banks := #v[NvBank.reset 1, NvBank.reset 0], active := 0, production := [], tokens := 6,
    storeWaiting := false, storeAnswers := 0, update := none, job := none, storeBit := false,
    lastCode := 0, events := 0, vector := 0, repairs := [], stores := 0 }

def Power.reset (orphanW slewWs : BitVec 16) : Power :=
  { pins := 0, src := 0, seen := 0, clamped := false, capHold := false, capTerm := orphanW.toNat,
    orphan := true, leased := false, setValid := false, capSet := 0, leaseLive := false,
    expired := false, orphanW := orphanW, slewWs := slewWs, powerW := 0, energy := 0,
    clampCount := 0, events := 0, vector := 0, level := 0, point := 18, dither := 0, drawn := 0,
    ballast := 0, pForecast := 0, pThrottle := 0, throttleRose := false, capOffset := 0,
    grant := (0, 0, 0), holdUp := false, holdDown := false, tbar := [], droops := 0, interval := 0, oscTrim := 0, ballastSeed := 0,
    lifeEnergy := 0, lifeClamps := 0, lifeReplays := 0 }

def HotSpot.reset : HotSpot :=
  { diode := 0, ring := 0, flagged := false, diodeRetired := false, ringRetired := false }

def Thermal.reset : Thermal :=
  { tray := { version := 0, seq := 0, status := 0, flow := 0, tIn := 0, tOut := 0, valve := 0 },
    lastSeq := none, stale := false, inletStale := true, flow := 0, flows := [], flowReq := 0,
    fcSeq := 0, coolingCap := 23000, derate := false, flowClamp := false, suddenStop := false,
    halting := false, halted := false, throttle := false, throttleClamp := false,
    thermTrip := false, below20 := false, teleMs := 0, forecastSaid := false,
    spots := Vector.replicate 144 HotSpot.reset, tiles := [], others := [], tj := 0, tjC := 0,
    flowReg := 0, flowReqReg := 0, tInReg := 0, tOutReg := 0, retired := 0, events := 0,
    vector := 0 }

def LoadSlot.reset : LoadSlot :=
  { state := .empty, refused := false, chart := none, folded := [] }

def Loader.reset : Loader :=
  { addrLo := 0, addrHi := 0, length := 0, op := 0, slot := 0, member := 0, running := none,
    error := 0, sect := 0, record := 0, slots := Vector.replicate 8 LoadSlot.reset,
    lastMember := 0, cycle := [], regionsLost := 0 }

def Security.reset (groups : List GroupKey) (creds : Vector (Option Cred) 8)
    (roots : Vector (Option Bytes) 4) (fw : Firmware) : Security :=
  { opcode := 0, slot := 0, go := false, reqLen := 0, error := 0, respLen := 0, request := [],
    response := [], waiting := none, debugUnlocked := false, debugScope := 0, challenge := none, groups := groups,
    creds := creds, roots := roots, reportCount := 0, mgmtCounter := Vector.replicate 8 none, cdi := [],
    aliasSeed := [], sealKey := [], scrubKey := [], handOver := none, mgmtWaiting := [], filling := [], upload := none,
    firmware := fw }

def Pattern.reset : Pattern :=
  { target := 0, laneMask := 0, prbs := 0, mode := 0, direction := 0, grow := 0, gcol := 0,
    refusal := 0, locked := 0, bits := 0, firstFail := 0xFFF, laneIndex := 0, laneErrors := [],
    running := false, held := none, heldMode := 0 }

def Field.reset : Field :=
  { kind := 0, dieMaskLo := 0, dieMaskHi := 0, result := 0, lasting := 0, elapsedMs := 0,
    running := none, testLo := 0, testHi := 0 }

def Collective.reset : Collective :=
  { insts := [], held := [], reds := [], ended := none, kept := [], discards := 0, lastEncode := [], counts := [] }

def Startup.reset : Startup :=
  { phase := 0, initPct := 0, resetCause := 0, tripAtReset := false, stopCode := 0, openMs := 0,
    resetLow := true, houseUp := true, zonesUp := 0, meshLocked := false, deckChecked := false,
    stacksUp := false, gateReported := false, trayBad := false, credWindow := false,
    pwrGoodLow := false, releaseLow := false, paused := false, riseTick := 0, initTick := 0 }

/-- Stepping A1, serial 1, no fuse raised (log entry 5). -/
def Ident.reset : Ident :=
  { serial := 1, stepLetter := 0, stepNumber := 1, debugCount := 0, minSvn := 0, uds := [],
    bootEpoch := 0, testLock := true }

/-- The machine right after reset (R413): a module of stepping A1 with default NV contents whose
HOUSE_RST_N is still low after power-on. -/
def State.reset : State :=
  { pending := [], free := 0, out := [], ticks := 0, ident := Ident.reset, start := Startup.reset,
    log := EventLog.reset, host := HostAttach.reset, ctx := Vector.replicate 8 Ctx.reset,
    sec := Security.reset [] (Vector.replicate 8 none) (Vector.replicate 4 none) Firmware.reset,
    loader := Loader.reset, installed := none, tiles := [], dies := Vector.replicate 36 Die.reset,
    links := [], signals := [], defects := { entries := [], index := 0, gone := [] },
    selfTest := { waiting := [], running := [], transients := [], dropped := 0, work := [], workTicks := 0 }, mem := [],
    power := Power.reset 13800 20000, thermal := Thermal.reset, nv := Nv.reset,
    ports := Vector.replicate 16 (Port.reset PortNv.reset), fabricGroup := 0,
    pattern := Pattern.reset, field := Field.reset, coll := Collective.reset, observed := 0,
    snapshots := 0, badShards := 0 }

end Sys2Proof.Machine
end

