-- ==== Sys2Proof/Machine/Ops.lean ====
section
/-! DEFINITION. The named operations over the state that every family shares: reads and updates of its
numbered parts, memory, free values, MSI-X, the event log. -/

namespace Sys2Proof.Machine

open Sys2Proof

/-! ### Outcomes and parts -/

/-- The effect of a row where its enabling condition holds; otherwise the state as it was (log entry 1). -/
def when' (g : Bool) (f : State → State) (s : State) : State :=
  if g then f s else s

/-- One slot's context. -/
def State.ctxOf (s : State) (i : Slot) : Ctx :=
  s.ctx[i]

/-- Replace one slot's context. -/
def modCtx (i : Slot) (f : Ctx → Ctx) (s : State) : State :=
  { s with ctx := s.ctx.set i (f s.ctx[i]) }

/-- One port. -/
def State.portOf (s : State) (p : PortId) : Port :=
  s.ports[p]

/-- Replace one port. -/
def modPort (p : PortId) (f : Port → Port) (s : State) : State :=
  { s with ports := s.ports.set p (f s.ports[p]) }

/-- One die. -/
def State.dieOf (s : State) (d : DieId) : Die :=
  s.dies[d]

/-- Replace one die. -/
def modDie (d : DieId) (f : Die → Die) (s : State) : State :=
  { s with dies := s.dies.set d (f s.dies[d]) }

/-- One queue of a slot. -/
def State.queueOf (s : State) (i : Slot) (q : QId) : Queue :=
  s.ctx[i].queues[q]

/-- Replace one queue of a slot. -/
def modQueue (i : Slot) (q : QId) (f : Queue → Queue) (s : State) : State :=
  modCtx i (fun c => { c with queues := c.queues.set q (f c.queues[q]) }) s

/-- One tile; an unlisted tile is as at reset. -/
def State.tileOf (s : State) (t : TileId) : Tile :=
  look Tile.reset s.tiles t

/-- Replace one tile. -/
def modTile (t : TileId) (f : Tile → Tile) (s : State) : State :=
  { s with tiles := store Tile.reset s.tiles t (f (s.tileOf t)) }

/-- Replace every tile in a list. -/
def modTiles (l : List TileId) (f : Tile → Tile) (s : State) : State :=
  l.foldl (fun s t => modTile t f s) s

/-- Replace every listed tile; unlisted tiles are at reset and stay so (used where `f` keeps reset). -/
def mapTiles (f : Nat → Tile → Tile) (s : State) : State :=
  { s with tiles := (s.tiles.map fun p => (p.1, f p.1 p.2)).filter fun p => !(decide (p.2 = Tile.reset)) }

/-- Replace every context. -/
def mapCtx (f : Slot → Ctx → Ctx) (s : State) : State :=
  { s with ctx := Vector.ofFn fun i => f i s.ctx[i] }

/-- Replace every port. -/
def mapPorts (f : PortId → Port → Port) (s : State) : State :=
  { s with ports := Vector.ofFn fun i => f i s.ports[i] }

/-- Replace every die. -/
def mapDies (f : DieId → Die → Die) (s : State) : State :=
  { s with dies := Vector.ofFn fun i => f i s.dies[i] }

/-- The slots in order. -/
def allSlots : List Slot := List.finRange 8

/-- The ports in order. -/
def allPorts : List PortId := List.finRange 16

/-- The dies in order. -/
def allDies : List DieId := List.finRange 36

/-- The queues in order. -/
def allQueues : List QId := List.finRange 16

/-! ### Places on the wafer (R7, R17, R18, Table 5-1) -/

/-- Global column of a tile (R7). -/
def gcolOf (t : Nat) : Nat := t % 72

/-- Global row of a tile (R7). -/
def growOf (t : Nat) : Nat := t / 72

/-- The tile at global column and row, in range only. -/
def tileAt (c r : Nat) : TileId :=
  Fin.ofNat 5184 (72 * (r % 72) + c % 72)

/-- The die a tile lies on: 6 × die row + die column. -/
def dieOfTile (t : Nat) : DieId :=
  Fin.ofNat 36 (6 * (growOf t / 12) + gcolOf t / 12)

/-- The deck zone of a die (R18). -/
def zoneOfDie (d : Nat) : ZoneId :=
  Fin.ofNat 9 (3 * (d / 6 / 2) + d % 6 / 2)

/-- Location field of an event at a tile (Table 15-11). -/
def locTile (t : Nat) : BitVec 32 :=
  BitVec.ofNat 32 (gcolOf t / 12 + 256 * (growOf t / 12) + 65536 * (gcolOf t % 12) +
    16777216 * (growOf t % 12))

/-- Location field of an event at a die; its tile bytes are 0xFF. -/
def locDie (d : Nat) : BitVec 32 :=
  BitVec.ofNat 32 (d % 6 + 256 * (d / 6) + 0xFFFF0000)

/-- Location field of an event at a port or plane, CXL port, zone or stack. -/
def locPort (p : Nat) : BitVec 32 :=
  BitVec.ofNat 32 (p % 256 + 0xFFFFFF00)

/-- No location. -/
def locNone : BitVec 32 := 0xFFFFFFFF

/-! ### Free values -/

/-- Take the next draw number. -/
def drawNext (s : State) : State :=
  { s with free := s.free + 1 }

/-- Bytes of the DRBG of R302 at the present draw. -/
def State.random (s : State) (n : Nat) : Bytes :=
  Config.drbg s.free n

/-- What leaves the engine. -/
def emit (o : Output) (s : State) : State :=
  { s with out := s.out ++ [o] }

/-! ### MSI-X (R266, R285) -/

/-- The vector's entry is masked (PCIe: bit 0 of its control word). -/
def masked (s : State) (v : BitVec 6) : Bool :=
  (s.host.msix[v.toFin]).ctrl.getLsbD 0

/-- The active port's link is in L0. -/
def activeUp (s : State) : Bool :=
  (s.host.ports[s.host.activePort]).linkUp

/-- The other CXL port. -/
def otherPort (p : CxlId) : CxlId := if p = 0 then 1 else 0

/-- A curtain is in progress (Table 11-5). -/
def inCurtain (s : State) : Bool :=
  match s.sec.handOver with
  | some h => h.started
  | none => false

/-- Send a vector's message; a masked vector, or one with the active link down (Table 11-3) or in a curtain
(Table 12-4), sets its pending bit. -/
def sendMsix (v : BitVec 6) (s : State) : State :=
  if masked s v || !activeUp s || inCurtain s then
    { s with host := { s.host with msixPending := s.host.msixPending ||| (1 <<< v.toNat) } }
  else emit (.msix v) s

/-- Send the messages of every pending vector that is not masked, lowest first, where the active link is
up (Table 11-3, PCIe rules). -/
def sendPending (s : State) : State :=
  (List.range 64).foldl (fun s i =>
    let v := BitVec.ofNat 6 i
    if s.host.msixPending.getLsbD i && !masked s v && activeUp s && !inCurtain s then
      emit (.msix v)
        { s with host := { s.host with msixPending := s.host.msixPending &&& ~~~((1 : BitVec 64) <<< i) } }
    else s) s

/-- Raise status bit `i` of an events field and send its vector where the bit rises (R11, R285): the new
field and the state after the message. -/
def raises {w : Nat} (f : BitVec w) (i : Nat) : Bool :=
  !(f.getLsbD i)

/-! ### The event log (R403, Table 15-11) -/

/-- An event as its source reports it. -/
structure Ev where
  code : Code
  slot : Byte := 0xFF
  isCount : Bool := false
  loc : BitVec 32 := 0xFFFFFFFF
  cue : Nat := 0
  value : Nat := 0
  deriving DecidableEq, Repr

/-- Whole milliseconds since HOUSE_RST_N rose (R403), from the 25 MHz house clock (R330). -/
def tickMs (s : State) : BitVec 32 :=
  BitVec.ofNat 32 ((s.ticks - s.start.riseTick) / 25000)

/-- The event's record. -/
def recordOf (e : Ev) (s : State) : EventRec :=
  { code := e.code, slot := e.slot, isCount := e.isCount, seq := s.log.nextSeq, tick := tickMs s,
    location := e.loc, cue := BitVec.ofNat 32 e.cue, value := BitVec.ofNat 64 e.value }

/-- The log after one more record (R403): the last 4,096 are kept. -/
def pushRec (l : EventLog) (r : EventRec) : EventLog :=
  { l with
    records := (if l.records.length < 4096 then l.records else l.records.drop 1) ++ [r],
    nextSeq := l.nextSeq + 1,
    dropped := if l.records.length < 4096 then l.dropped else satInc l.dropped,
    newEvent := true }

/-- Report an event: its record, new_event, and its message where new_event rises. -/
def report (e : Ev) (s : State) : State :=
  let s' := { s with log := pushRec s.log (recordOf e s) }
  if s.log.newEvent then s' else sendMsix s.log.vector s'

/-- Report several events in order. -/
def reportAll (l : List Ev) (s : State) : State :=
  l.foldl (fun s e => report e s) s

/-- An engine-wide event of the host-attach chapter: last_code, its status bit of Table 11-5, and
event_vector where the bit rises. -/
def reportHost (bit : Option Nat) (e : Ev) (s : State) : State :=
  let s := report e { s with host := { s.host with lastCode := e.code } }
  match bit with
  | none => s
  | some i =>
    let s' := { s with host := { s.host with events := s.host.events ||| (1 <<< i) } }
    if raises s.host.events i then sendMsix s.host.vector s' else s'

/-- A context event of the queues chapter (Table 11-6): the record names the slot; value is the queue
times 2^16 plus the slot index (log entry 6). -/
def reportCtx (i : Slot) (bit : Option Nat) (e : Ev) (s : State) : State :=
  let s := report { e with slot := BitVec.ofNat 8 i } s
  modCtx i (fun c => { c with
    lastCode := e.code,
    events := match bit with
      | none => c.events
      | some b => c.events ||| (1 <<< b) }) s

/-- A port event of chapter 10: last_code and its status bit of Table 10-10. -/
def reportPort (p : PortId) (bit : Option Nat) (e : Ev) (s : State) : State :=
  let s := report { e with loc := locPort p } s
  modPort p (fun c => { c with
    lastCode := e.code,
    events := match bit with
      | none => c.events
      | some b => c.events ||| (1 <<< b) }) s

/-- An event of the power chapter with its status bit of Table 13-5. -/
def reportPower (bit : Option Nat) (e : Ev) (s : State) : State :=
  let s := report e s
  match bit with
  | none => s
  | some i =>
    let s' := { s with power := { s.power with events := s.power.events ||| (1 <<< i) } }
    if raises s.power.events i then sendMsix s.power.vector s' else s'

/-- An event of the cooling chapter with its status bit of Table 14-8. -/
def reportThermal (bit : Option Nat) (e : Ev) (s : State) : State :=
  let s := report e s
  match bit with
  | none => s
  | some i =>
    let s' := { s with thermal := { s.thermal with events := s.thermal.events ||| (1 <<< i) } }
    if raises s.thermal.events i then sendMsix s.thermal.vector s' else s'

/-- An event of the NV store: last_code and its status bit of Table 15-10. -/
def reportNv (bit : Option Nat) (e : Ev) (s : State) : State :=
  let s := report e { s with nv := { s.nv with lastCode := e.code } }
  match bit with
  | none => s
  | some i =>
    let s' := { s with nv := { s.nv with events := s.nv.events ||| (1 <<< i) } }
    if raises s.nv.events i then sendMsix s.nv.vector s' else s'

/-! ### Memory: one sparse list over every memory of the engine (log entry 3)

Tile SRAM of tile t at byte a: t · 2^21 + a. Deck SRAM: 2^34 + t · 2^22 + a. Stack memory of slot i:
2^40 + i · 2^41 + offset. HDM range of slot i: 2^45 + i · 2^38 + offset. Byte of a frame of slot i's model store (R152):
2^46 + i · 2^43 + frame · 2^26 + offset. -/

def tileKey (t a : Nat) : Nat := t * 2 ^ 21 + a % 2 ^ 21
def deckKey (t a : Nat) : Nat := 2 ^ 34 + t * 2 ^ 22 + a % 2 ^ 22
def stackKey (i a : Nat) : Nat := 2 ^ 40 + i * 2 ^ 41 + a % 2 ^ 41
def hdmKey (i a : Nat) : Nat := 2 ^ 45 + i * 2 ^ 38 + a % 2 ^ 38

def frameKey (i frame a : Nat) : Nat := 2 ^ 46 + i * 2 ^ 43 + frame % 2 ^ 17 * 2 ^ 26 + a % 2 ^ 26

/-- What a byte nothing has written reads as (log entry 4). -/
def unwritten : Byte := 0

/-- The memory's canonical form: addresses strictly rise, no entry reads as an unlisted one. -/
abbrev Memory.wf (m : List Host.Cell) : Prop := canon unwritten m = true

/-- Read one byte. -/
def readByte (m : List Host.Cell) (k : Nat) : Byte :=
  look unwritten m k

/-- Write one byte, keeping the canonical form. -/
def writeByte (m : List Host.Cell) (k : Nat) (b : Byte) : List Host.Cell :=
  store unwritten m k b

/-- Read `n` bytes from key `k` upwards. -/
def readBytes (m : List Host.Cell) (k n : Nat) : Bytes :=
  (List.range n).map fun j => readByte m (k + j)

/-- Write a byte string from key `k` upwards. -/
def writeBytes (m : List Host.Cell) (k : Nat) : Bytes → List Host.Cell
  | [] => m
  | b :: bs => writeBytes (writeByte m k b) (k + 1) bs

/-- Zero the keys from `k` up to, not including, `k + n`. -/
def zeroRange (m : List Host.Cell) (k n : Nat) : List Host.Cell :=
  m.filter fun c => !(decide (k ≤ c.1) && decide (c.1 < k + n))

/-- Write bytes into the engine's memory. -/
def storeBytes (k : Nat) (b : Bytes) (s : State) : State :=
  { s with mem := writeBytes s.mem k b }

/-- Zero a part of the engine's memory. -/
def zeroMem (k n : Nat) (s : State) : State :=
  { s with mem := zeroRange s.mem k n }

/-- Read bytes of a slot's HDM range. -/
def State.hdmBytes (s : State) (i : Slot) (off n : Nat) : Bytes :=
  readBytes s.mem (hdmKey i off) n

/-- The HDM range of slot `i` in bytes (R267). -/
def State.hdmSize (s : State) (i : Slot) : Nat :=
  (s.ctxOf i).hdmGib * 2 ^ 30

/-- Bytes [off, off + n) lie in slot `i`'s HDM range. -/
def inHdm (s : State) (i : Slot) (off n : Nat) : Bool :=
  decide (off + n ≤ s.hdmSize i)

/-! ### The active slot -/

/-- The slot that holds the engine, if one does (R20). -/
def holder (s : State) : Option Slot :=
  allSlots.find? fun i => decide ((s.ctxOf i).state = .holding)

/-- House open (R415, Table 16-3: phase 6). -/
def houseOpen (s : State) : Bool :=
  s.start.phase == 6

/-! ### Background work (R405 to R407) -/

/-- The background activities run: from house open, but in a curtain (R405, R407). -/
def backgroundOn (s : State) : Bool := houseOpen s && !(inCurtain s)

/-- A background task has done its round. -/
def doneWork (k : BgTask) (s : State) : State :=
  { s with selfTest := { s.selfTest with
      work := s.selfTest.work.map fun x => if x.1 = k then (k, s.selfTest.workTicks, false) else x } }

end Sys2Proof.Machine
end

