-- ==== Sys2Proof/Machine/Mesh.lean ====
section
/-! DEFINITION. The mesh links (R36 to R44): the control word and its CRC, the tracks with their spare, the sender's
kept flits, what a link's defect entries say of it, and the heartbeats that a tile sends. -/

namespace Sys2Proof.Machine

open Sys2Proof

/-! ### The control word (R37, Table 2-4) -/

/-- One step of the CRC of generator 0x1021. -/
def crcStep (r : BitVec 16) (b : Bool) : BitVec 16 :=
  let shifted := r <<< 1
  if r.getLsbD 15 == b then shifted else shifted ^^^ 0x1021

/-- CRC of R37 over the data tracks and control bits [15:0], initial value 0xFFFF. The bits enter from data track 511 down
to 0 and then from control bit 15 down to 0 (DESIGN CHOICE: R37 states no order, log entry 81). -/
def crc16 (data : BitVec 512) (low : BitVec 16) : BitVec 16 :=
  let r := (List.range 512).foldl (fun r i => crcStep r (data.getLsbD (511 - i))) 0xFFFF
  (List.range 16).foldl (fun r i => crcStep r (low.getLsbD (15 - i))) r

/-- Control bits [15:0] of one cycle (Table 2-4). -/
structure Control where
  valid : Bool
  head : Bool
  tail : Bool
  vc : Fin 4
  creditReturn : BitVec 4
  replayReq : Bool
  seq : BitVec 6
  deriving DecidableEq, Repr

/-- The bits of the control fields. -/
def Control.bits (c : Control) : BitVec 16 :=
  BitVec.ofNat 16 (b2n c.valid * 2 ^ 15 + b2n c.head * 2 ^ 14 + b2n c.tail * 2 ^ 13 + c.vc.val * 2 ^ 11 +
    c.creditReturn.toNat * 2 ^ 7 + b2n c.replayReq * 2 ^ 6 + c.seq.toNat)

/-- The control fields of the bits. -/
def controlOf (w : BitVec 16) : Control :=
  { valid := w.getLsbD 15, head := w.getLsbD 14, tail := w.getLsbD 13, vc := Fin.ofNat 4 (bits w.toNat 12 11),
    creditReturn := w.extractLsb' 7 4, replayReq := w.getLsbD 6, seq := w.extractLsb' 0 6 }

/-- The 544 logical tracks of a cycle: data tracks 0 to 511, above them control tracks 0 to 31. -/
def tracksOf (data : BitVec 512) (c : Control) : BitVec 544 :=
  (crc16 data c.bits ++ c.bits) ++ data

/-- Data tracks of a cycle. -/
def dataOf (x : BitVec 544) : BitVec 512 := x.extractLsb' 0 512

/-- Control bits [15:0] of a cycle. -/
def lowOf (x : BitVec 544) : BitVec 16 := x.extractLsb' 512 16

/-- The cycle's crc16 field agrees with its tracks. -/
def crcGood (x : BitVec 544) : Bool := x.extractLsb' 528 16 == crc16 (dataOf x) (lowOf x)

/-! ### Spare tracks (R37, R41) -/

/-- The physical track that carries logical track `i` of a group whose failed track is `f` (R41). -/
def physTrack (f : Option Nat) (i : Nat) : Nat :=
  match f with
  | some f => if i < f then i else i + 1
  | none => i

/-- The 578 physical tracks of a direction with its shift settings: 34 groups of 17. -/
def wiresOf (shift : List (Nat × Nat)) (x : BitVec 544) : BitVec 578 :=
  (List.range 544).foldl (fun w n =>
    if x.getLsbD n then w ||| ((1 : BitVec 578) <<< (17 * (n / 16) + physTrack (find? shift (n / 16)) (n % 16))) else w) 0

/-- The logical tracks that the receiver takes from the physical ones; both ends hold the same settings (R41). -/
def logicalOf (shift : List (Nat × Nat)) (w : BitVec 578) : BitVec 544 :=
  (List.range 544).foldl (fun x n =>
    if w.getLsbD (17 * (n / 16) + physTrack (find? shift (n / 16)) (n % 16)) then x ||| ((1 : BitVec 544) <<< n) else x) 0

/-! ### Defect-map entries (R44, R49) -/

/-- Kind of an entry. -/
def entryKind (e : BitVec 64) : Nat := bits e.toNat 63 60

/-- Origin of an entry. -/
def entryOrigin (e : BitVec 64) : Nat := bits e.toNat 59 58

/-- Tile or router of an entry. -/
def entryTile (e : BitVec 64) : Nat :=
  72 * (12 * bits e.toNat 52 50 + bits e.toNat 45 42) + 12 * bits e.toNat 55 53 + bits e.toNat 49 46

/-- Detail of an entry. -/
def entryDetail (e : BitVec 64) : Nat := bits e.toNat 31 0

/-- The tile has a tile_retired entry (R49). -/
def isRetired (s : State) (t : Nat) : Bool :=
  s.defects.entries.any fun e => entryKind e == 2 && entryTile e == t

/-- The distinct cell-columns that a tile's entries name (R49). -/
def badColumns (s : State) (t : Nat) : List Nat :=
  (s.defects.entries.filter fun e => entryKind e == 1 && entryTile e == t).foldl
    (fun acc e => insertNew acc (entryDetail e % 8)) []

/-- The tile is narrow: exactly one cell-column is named (R49). -/
def isNarrow (s : State) (t : Nat) : Bool :=
  decide ((badColumns s t).length = 1)

/-- Failed tracks of one group of a link direction that the map names. -/
def badTracks (s : State) (l : LinkDir) (g : Nat) : List Nat :=
  (s.defects.entries.filter fun e => entryKind e == 5 && entryTile e == l.router.val &&
    entryDetail e % 8 == l.dir.val && entryDetail e / 8 % 64 == g).foldl
      (fun acc e => insertNew acc (entryDetail e / 512 % 32)) []

/-- Some group of the direction has two failed tracks (R43). -/
def groupLost (s : State) (l : LinkDir) : Bool :=
  (s.defects.entries.filter fun e => entryKind e == 5 && entryTile e == l.router.val && entryDetail e % 8 == l.dir.val).any
    fun e => decide (2 ≤ (badTracks s l (entryDetail e / 8 % 64)).length)

/-! ### Links (R36, R43) -/

/-- The direction that drives the other way along a neighbour link; edge links have one router. -/
def reverseDir (l : LinkDir) : Option LinkDir :=
  let c := gcolOf l.router
  let r := growOf l.router
  match l.dir.val with
  | 0 => if r < 71 then some { router := tileAt c (r + 1), dir := 2 } else none
  | 1 => if c < 71 then some { router := tileAt (c + 1) r, dir := 3 } else none
  | 2 => if 0 < r then some { router := tileAt c (r - 1), dir := 0 } else none
  | 3 => if 0 < c then some { router := tileAt (c - 1) r, dir := 1 } else none
  | _ => none

/-- A link direction of its own is lost: a link_down entry, a group with two failed tracks, or a link declared down in
service (R38, R43). -/
def directionLost (s : State) (l : LinkDir) : Bool :=
  (s.defects.entries.any fun e => entryKind e == 6 && entryTile e == l.router.val && entryDetail e % 8 == l.dir.val) ||
    groupLost s l || (s.links.any fun k => decide (k.link = l) && k.down)

/-- A link is down if either of its directions is lost (R43). -/
def linkIsDown (s : State) (l : LinkDir) : Bool :=
  directionLost s l || (match reverseDir l with
    | some x => directionLost s x
    | none => false)

/-- The state of a link direction; an unlisted one is at rest. -/
def linkState (s : State) (l : LinkDir) : LinkState :=
  (s.links.find? fun k => decide (k.link = l)).getD (LinkState.rest l)

/-- Replace the state of a link direction. -/
def modLink (l : LinkDir) (f : LinkState → LinkState) (s : State) : State :=
  if s.links.any (fun k => decide (k.link = l)) then
    { s with links := s.links.map fun k => if k.link = l then f k else k }
  else
    { s with links := s.links ++ [f (LinkState.rest l)] }

/-- The sender keeps a flit among its last 32 (R38). -/
def LinkState.keep (x : MeshFlit) (k : LinkState) : LinkState :=
  { k with nextSeq := k.nextSeq + 1,
           sent := (if k.sent.length < 32 then k.sent else k.sent.drop 1) ++ [x] }

/-- Send one flit on a link direction: it takes the direction's next seq and is kept (R37, R38). A down link carries
nothing (R43). -/
def sendMesh (l : LinkDir) (vc : Fin 4) (head tail : Bool) (data : BitVec 512) (s : State) : State :=
  if linkIsDown s l then s
  else
    let k := linkState s l
    let c : Control := { valid := true, head := head, tail := tail, vc := vc, creditReturn := 0, replayReq := false, seq := k.nextSeq }
    let x := tracksOf data c
    emit (.meshFlit l (wiresOf k.shift x)) (modLink l (LinkState.keep ⟨k.nextSeq, x⟩) s)

/-- A cycle without a flit that asks for a replay, on the direction `l`; its data tracks are zeros (DESIGN CHOICE: R37 states
no content of them, log entry 81). -/
def replayCycle (s : State) (l : LinkDir) (seq : BitVec 6) : BitVec 578 :=
  wiresOf (linkState s l).shift (tracksOf 0
    { valid := false, head := false, tail := false, vc := 0, creditReturn := 0, replayReq := true, seq := seq })

/-! ### Heartbeats (R40) -/

/-- The state that a tile's heartbeat carries. -/
def heartbeatOf (y : Tile) : HbState :=
  if y.halted then .halted else if y.sleep = .asleep then .asleep else .awake

/-- The receivers of a tile's heartbeats: its neighbours to the north, east, south and west as 0 to 3, its own router as 4.
A tile at the grid's boundary has no neighbour beyond it. -/
def hbReceivers (t : TileId) : List (Fin 5) :=
  (List.finRange 5).filter fun r => r == 4 || (reverseDir { router := t, dir := Fin.ofNat 6 r.val }).isSome

/-- A one-flit packet on VC 3 to a neighbour, or the same state to the tile's own router. -/
def sendBeat (t : TileId) (st : HbState) (s : State) (r : Fin 5) : State :=
  let s := emit (.heartbeat t r st) s
  if r = 4 then s else sendMesh { router := t, dir := Fin.ofNat 6 r.val } 3 true true (Config.heartbeatData t st) s

/-- A tile's heartbeat goes to all its receivers. -/
def sendHeartbeat (t : TileId) (st : HbState) (s : State) : State :=
  (hbReceivers t).foldl (sendBeat t st) s

/-- A tile that wakes sends an awake heartbeat (R40). -/
def wakeTile (t : TileId) (f : Tile → Tile) (s : State) : State :=
  sendHeartbeat t .awake (modTile t (fun y => { f y with sleep := .awake }) s)

end Sys2Proof.Machine
end

