-- ==== Sys2Proof/Machine/Courses.lean ====
section
/-! DEFINITION. The courses that several families share: the clamp, completion of commands, aborts of
collectives, region faults, defect entries, self-test detections, the loss of rails and of contexts. -/

namespace Sys2Proof.Machine

open Sys2Proof

/-! ### The clamp (R336 to R339) -/

/-- Source bits of clamp_src (Table 13-5). -/
def srcVr : BitVec 4 := 1
def srcPsu : BitVec 4 := 2
def srcCooling : BitVec 4 := 4
def srcBinnacle : BitVec 4 := 8

/-- A source asserts the clamp (R336, R337): point 18, ballast off; on entry CLAMP_COUNT and 0x0A01 with
the mask of sources (R339). -/
def assertClamp (src : BitVec 4) (s : State) : State :=
  let p := { s.power with
    src := s.power.src ||| src, seen := s.power.seen ||| src, clamped := true, point := 18, dither := 0,
    ballast := 0,
    clampCount := if s.power.clamped then s.power.clampCount else satInc s.power.clampCount,
    lifeClamps := if s.power.clamped then s.power.lifeClamps else satInc s.power.lifeClamps }
  let s' := { s with power := p }
  if s.power.clamped then s'
  else reportPower (some 0) { code := 0x0A01, value := p.src.toNat } s'

/-- A source clears; the 10 ms of R339 run from the last. -/
def dropSource (src : BitVec 4) (s : State) : State :=
  { s with power := { s.power with src := s.power.src &&& ~~~src } }

/-! ### The Chart in force -/

/-- The checked Chart of a slot. -/
def chartOf (s : State) (i : Slot) : Option Chart :=
  (s.loader.slots[i]).chart

/-- The Chart that is installed, running or not yet. -/
def installedChart (s : State) : Option Chart :=
  match s.installed with
  | some x => chartOf s x.slot
  | none => none

/-- The RUNNING Chart of a slot. -/
def runningChart (s : State) (i : Slot) : Option Chart :=
  match s.installed with
  | some x => if x.running && x.slot == i then chartOf s i else none
  | none => none

/-- chart_tag: bytes [3:0] of the Chart digest (R211). -/
def chartTagOf (c : Chart) : BitVec 32 :=
  BitVec.ofNat 32 (leAt c.digest 0 4)

/-- This engine's member index (R119). -/
def ownMember (s : State) : Nat :=
  s.loader.lastMember

/-- Replace the installed Chart's bookkeeping. -/
def modInstalled (f : Installed → Installed) (s : State) : State :=
  { s with installed := s.installed.map f }

/-- Replace one loader slot. -/
def modSlot (i : Slot) (f : LoadSlot → LoadSlot) (s : State) : State :=
  { s with loader := { s.loader with slots := s.loader.slots.set i (f s.loader.slots[i]) } }

/-- Set a slot's state. -/
def setSlotState (i : Slot) (x : SlotState) (s : State) : State :=
  modSlot i (fun l => { l with state := x }) s

/-- The pass in progress. -/
def passOf (s : State) : Option Pass :=
  match s.installed with
  | some x => x.pass
  | none => none

/-- The direction code a hop's output port drives: N E S W as 0 to 3, an edge port as 4 or 5. -/
def hopDrives (h : Hop) (l : LinkDir) : Bool :=
  (72 * h.grow + h.gcol == l.router.val) &&
    (if l.dir.val < 4 then h.outMask.getLsbD l.dir.val
     else h.outMask.getLsbD 5 && (b2n h.outEdge + 4 == l.dir.val))

/-- A hop takes in from the link direction `l` (its in_port faces that link's driver). -/
def hopTakes (h : Hop) (l : LinkDir) : Bool :=
  (72 * h.grow + h.gcol == l.router.val) &&
    (if l.dir.val < 4 then h.inPort == l.dir.val else h.inPort == 5 && (b2n h.inEdge + 4 == l.dir.val))

/-- A route crosses a link: some hop drives it, or takes in from it, in either direction. -/
def routeCrosses (r : Route) (l : LinkDir) : Bool :=
  r.hops.any fun h => hopDrives h l || hopTakes h l

/-- Tiles at a route's local ends. -/
def routeEnds (r : Route) : List Nat :=
  (r.hops.filter fun h => h.inPort == 4 || h.outMask.getLsbD 4).map fun h => 72 * h.grow + h.gcol

/-- The routes in force: the Chart's, replaced by the variants in use (R111). -/
def routesInForce (c : Chart) (x : Installed) : List Route :=
  let vs := x.variants.filterMap fun p => c.variants.find? fun v => v.id == p.2
  c.routes.map fun r =>
    match (vs.flatMap fun v => v.routes).find? fun w => w.id == r.id with
    | some w => w
    | none => r

/-! ### Open packets (R54) -/

/-- The link directions that the router beneath a tile sends a local packet of a route on. -/
def localOutputs (c : Chart) (x : Installed) (route t : Nat) : List LinkDir :=
  match (routesInForce c x).find? fun r => r.id == route with
  | none => []
  | some r => (r.hops.filter fun h => h.inPort == 4 && 72 * h.grow + h.gcol == t).flatMap fun h =>
      ((List.finRange 6).map fun d => ({ router := Fin.ofNat 5184 t, dir := d } : LinkDir)).filter (hopDrives h)

/-- The router closes one packet: a tail flit of all ones on its VC, on every output it had reached. Its receivers discard the
packet: nothing of it is stored (log entry 84). -/
def closePacket (t : TileId) (s : State) (p : Packet) : State :=
  match s.installed, installedChart s with
  | some x, some c => (localOutputs c x p.route t).foldl (fun s l => sendMesh l p.vc false true (BitVec.allOnes 512) s) s
  | _, _ => s

/-- Close the open packets of the tiles that `p` names; each local port's credits all return with them (R54). -/
def closePackets (p : Nat → Bool) (s : State) : State :=
  s.tiles.foldl (fun s y =>
    if p y.1 && !(y.2.packets.isEmpty) then
      let t : TileId := Fin.ofNat 5184 y.1
      modTile t (fun y => { y with packets := [] }) (y.2.packets.foldl (closePacket t) s)
    else s) s

/-! ### Completion of commands (R281, R282, Table 11-9) -/

/-- A completion slot is free in the ring: records held and slots reserved leave room (R280, R284). -/
def slotFree (c : Ctx) : Bool :=
  decide (c.cq.held.length + c.running.length < c.cq.lastSize)

/-- The value of an event that names a queue and a slot index (log entry 6). -/
def queueValue (q : QId) (idx : Nat) : Nat :=
  q * 65536 + idx

/-- The fence after a signal: the greater of the two (R281). -/
def raiseFence (old new : BitVec 64) : BitVec 64 :=
  if old.toNat < new.toNat then new else old

/-- The record of a command's end. -/
def cplRecord (cmd : Cmd) (code : Code) (initiator detail : Nat) (fv : BitVec 64) : CplRecord :=
  let sig := code == 0 && cmd.signal
  { tag := cmd.tag, code := code, queue := BitVec.ofNat 4 cmd.q, opcode := BitVec.ofNat 8 cmd.opcode,
    initiator := BitVec.ofNat 16 initiator,
    fence := if sig then BitVec.ofNat 16 cmd.signalFence else 0xFFFF,
    entry := BitVec.ofNat 16 cmd.entry, fenceValue := if sig then fv else 0,
    detail := BitVec.ofNat 32 detail, irq := cmd.irq, written := false }

/-- End a command with a code: its fence rises where it succeeded with the signal flag, and its record
joins the ring's held records (R281, R282, R284). -/
def completeCmd (i : Slot) (cmd : Cmd) (code : Code) (initiator detail : Nat) (s : State) : State :=
  let old := look 0 (s.ctxOf i).fences cmd.signalFence
  let sig := code == 0 && cmd.signal
  let fv := raiseFence old cmd.signalValue
  let s' := modCtx i (fun c => { c with
    running := c.running.erase cmd,
    fences := if sig then store 0 c.fences cmd.signalFence fv else c.fences,
    cq := { c.cq with held := c.cq.held ++ [cplRecord cmd code initiator detail fv] } }) s
  if sig && decide (cmd.signalValue.toNat < old.toNat) then
    reportCtx i (some 1) { code := 0x0306, isCount := true, value := queueValue cmd.q cmd.entry } s'
  else s'

/-- The opcode is COUNTS, SCALAR_SUM, BROADCAST or BARRIER (Table 11-8). -/
def isGroupOp (op : Nat) : Bool :=
  decide (0x31 ≤ op) && decide (op ≤ 0x34)

/-- Owned blocks settled, the record detail of REDUCE_SHARDS (Table 11-8). -/
def settledCount (r : Reduction) : Nat := (r.owned.filter fun b => b.settled).length

/-- A tile's prompter and units as a pass leaves them when it ends: nothing in flight, counters and
deferred queue clear. -/
def idleTile (t : Tile) : Tile :=
  { t with pc := 0, inPass := false, counters := [], deferred := [], draining := none,
           entryRun := none, array := none, vector := none, movers := [], plain := [], packets := [],
           waitSaid := false }

/-- Halt every prompter: open packets are closed as under R54. -/
def haltPrompters (s : State) : State :=
  mapTiles (fun _ t => { idleTile t with halted := true }) { closePackets (fun _ => true) s with signals := [] }

/-- A load or swap that ends early: a model not yet whole is gone (R172), a swap keeps what it has replaced and leaves
the barrier as it is (R176). -/
def endFetching (m : Model) : Option Model :=
  if m.loading then none
  else some { m with swap := m.swap.map fun w => { w with failed := true, fetch := { w.fetch with reqs := [] } } }

/-- A streamed model asks for nothing once its pass has ended (R162). -/
def dropStream (m : Model) : Model :=
  if m.resident then m else { m with fetch := { m.fetch with reqs := [] } }

/-- Record detail of a command that ends: for a load or swap the shards fetched by catch-up (Table 11-8). -/
def cmdDetail (c : Ctx) (op : Nat) : Nat :=
  match c.model with
  | none => 0
  | some m =>
    if op = 0x21 then m.fetch.caughtUp
    else if op = 0x22 then (match m.swap with
      | some w => w.fetch.caughtUp
      | none => 0)
    else 0

/-- A key index is cleared: what was fetched under it has no key any more (R308). -/
def Fetch.dropKey (k : Nat) (f : Fetch) : Fetch := if f.keyIndex = k then { f with weightKey := [] } else f

/-- End the pass in progress with a code. -/
def endPass (code : Code) (s : State) : State :=
  match passOf s with
  | none => s
  | some p =>
    haltPrompters (modInstalled (fun x => { x with pass := none, phase := none })
      (modCtx p.slot (fun c => { c with model := c.model.map dropStream }) (completeCmd p.slot p.cmd code 0xFFFF 0 s)))

/-- Count a block of a layer under a code that is reported once per layer (R197, R207, R236). -/
def countBlock (code layer : Nat) (s : State) : State :=
  let l := s.coll.counts
  { s with coll := { s.coll with
      counts := if l.any fun x => x.1 == code && x.2.1 == layer then
          l.map fun x => if x.1 == code && x.2.1 == layer then (code, layer, x.2.2 + 1) else x
        else l ++ [(code, layer, 1)] } }

/-- Report the counts of the codes that `p` names, one event per code and layer. -/
def flushCounts (i : Slot) (p : Nat → Bool) (s : State) : State :=
  (s.coll.counts.filter fun x => p x.1).foldl (fun s x =>
    report { code := BitVec.ofNat 16 x.1, slot := BitVec.ofNat 8 i, isCount := true, cue := x.2.1, value := x.2.2 } s)
    { s with coll := { s.coll with counts := s.coll.counts.filter fun x => !(p x.1) } }

/-- The last completed seq of a descriptor (R210). -/
def setSeq (i : Slot) (desc seq : Nat) (s : State) : State :=
  modCtx i (fun c => { c with lastSeq := setPair c.lastSeq desc seq }) s

/-- One REDUCE_SHARDS ends: its counts, its record, its seq. Bounces may still come: their count waits for the next start (R207, log
entry 100). -/
def endRed (i : Slot) (code : Code) (initiator : Nat) (s : State) (r : Reduction) : State :=
  let s := { s with coll := { s.coll with reds := s.coll.reds.filter fun x => !(x.descId == r.descId) } }
  setSeq i r.descId r.step.toNat (completeCmd i r.cmd code initiator (settledCount r) (flushCounts i (fun c => !(c == 0x0604)) s))

/-- End REDUCE_SHARDS on this member alone (R233): no ABORT goes out, and neither patches nor kept results from now on. -/
def endReduction (i : Slot) (code : Code) (s : State) : State :=
  let s := flushCounts i (fun _ => true) (s.coll.reds.foldl (endRed i code 0xFFFF) s)
  modCtx i (fun c => { c with model := c.model.map fun m => { m with patches := [] } }) { s with coll := { s.coll with kept := [] } }

/-- End the running commands of a slot other than REDUCE_SHARDS and the group collectives; `said` reports
the code as an event for each. -/
def endOthers (i : Slot) (code : Code) (said : Bool) (s : State) : State :=
  ((s.ctxOf i).running.filter fun c => !(isGroupOp c.opcode) && !(c.opcode == 0x30)).foldl
    (fun s c =>
      let e : Ev := { code := code, slot := BitVec.ofNat 8 i, value := queueValue c.q c.entry }
      let s := if said then report e s else s
      if c.opcode == 0x10 then endPass code s else completeCmd i c code 0xFFFF (cmdDetail (s.ctxOf i) c.opcode) s) s

/-- Loads and swaps that a context runs end with their commands (R171, R176). -/
def dropLoads (i : Slot) (s : State) : State :=
  modCtx i (fun c => { c with model := match c.model with
    | some m => endFetching m
    | none => none }) s

/-- The ports that may send: UP and not in CURTAIN (R231, R240). -/
def portsInService (s : State) : List PortId :=
  allPorts.filter fun p => decide ((s.portOf p).state = .up) && !(decide ((s.portOf p).status = .curtain))

/-- Send one output on every port in service. -/
def onPorts (f : PortId → Output) (s : State) : State :=
  (portsInService s).foldl (fun s p => emit (f p) s) s

/-- An ABORT symbol goes out on every port in service, in the next codeword of each (R231, R239). -/
def sendSymbol (a : AbortSym) (s : State) : State :=
  onPorts (fun p => .codeword p (symbolWord (s.portOf p).status (s.out.length + p.val) a)) s

/-- The ABORT symbol of this member (Table 9-5). -/
def ownAbort (s : State) (descId seq : Nat) (tag : BitVec 32) (code : Code) : AbortSym :=
  { error := code, initiator := BitVec.ofNat 11 (ownMember s), descId := BitVec.ofNat 16 descId,
    seq := BitVec.ofNat 32 seq, chartTag := tag }

/-- The chart_tag of the installed Chart, zero with none. -/
def tagNow (s : State) : BitVec 32 :=
  match installedChart s with
  | some c => chartTagOf c
  | none => 0

/-- Note an abort on a running instance (R232): the H of the descriptor runs from the first. -/
def noteAbort (initiator : Nat) (code : Code) (x : CollInst) : CollInst :=
  { x with aborts := insertNew x.aborts (initiator, code) }

/-- An event of chapter 9 for an instance (R236): cue holds desc_id, value holds seq. -/
def abortEvent (code : Code) (desc seq : Nat) (s : State) : State :=
  report { code := code, slot := BitVec.ofNat 8 (((holder s).map fun i => i.val).getD 255), cue := desc, value := seq } s

/-- This member aborts a running instance: its event, the symbol goes out and its own abort is noted (R231). -/
def abortInst (descId : Nat) (code : Code) (s : State) : State :=
  match s.coll.insts.find? fun x => x.descId == descId with
  | none => s
  | some x =>
    let s := abortEvent code x.descId x.seq (sendSymbol (ownAbort s x.descId x.seq (tagNow s) code) s)
    { s with coll := { s.coll with
      insts := s.coll.insts.map fun y => if y.descId == descId then noteAbort (ownMember s) code y else y } }

/-- Descriptor, seq and tag of a held message. -/
def heldKey : HeldMsg → Nat × Nat × BitVec 32
  | .counts h _ | .scalars h _ | .chunk h _ | .bcastEnd h _ _ | .done h | .arrive h | .req _ h | .cancel h =>
    (h.descId.toNat, h.seq.toNat, h.chartTag)
  | .ringPartial _ r _ t => (r.descId.toNat, r.step.toNat, t)
  | .abort a => (a.descId.toNat, a.seq.toNat, a.chartTag)

/-- The held instances, each once. -/
def heldKeys (l : List HeldMsg) : List (Nat × Nat × BitVec 32) :=
  l.foldl (fun acc m => insertNew acc (heldKey m)) []

/-- A descriptor of the installed Chart is REDUCE_SHARDS. -/
def isReduceDesc (s : State) (desc : Nat) : Bool :=
  match installedChart s with
  | some c => c.collectives.any fun d => d.id == desc && d.command == 1
  | none => false

/-- Abort a held instance: it completes with the code as soon as it starts. A held REDUCE_SHARDS is not aborted across the group: no
symbol goes out for it (R233). -/
def abortHeld (code : Code) (s : State) (k : Nat × Nat × BitVec 32) : State :=
  let a := ownAbort s k.1 k.2.1 k.2.2 code
  let s := if isReduceDesc s k.1 then s else abortEvent code k.1 k.2.1 (sendSymbol a s)
  { s with coll := { s.coll with held := s.coll.held ++ [.abort a] } }

/-- Abort every running and held group collective with a code, and every held REDUCE_SHARDS on this member alone (R233). -/
def abortColls (code : Code) (s : State) : State :=
  let s := s.coll.insts.foldl (fun s x => abortInst x.descId code s) s
  (heldKeys s.coll.held).foldl (abortHeld code) s

/-! ### Rails and what they hold -/

/-- Tile SRAM of the dies that `p` names is lost (R33). -/
def loseTileSram (p : DieId → Bool) (s : State) : State :=
  { s with mem := s.mem.filter fun c => !(decide (c.1 < 2 ^ 34) && p (dieOfTile (c.1 / 2 ^ 21))) }

/-- Take the rails of the dies that `p` names down. -/
def railsDown (p : DieId → Bool) (s : State) : State :=
  loseTileSram p (mapDies (fun d x => if p d then { x with rails := .off, locked := false } else x) s)

/-- Deck SRAM of the zones that `p` names is lost (R33). -/
def loseDeckSram (p : ZoneId → Bool) (s : State) : State :=
  { s with mem := s.mem.filter fun c =>
      !(decide (2 ^ 34 ≤ c.1) && decide (c.1 < 2 ^ 40) && p (zoneOfDie (dieOfTile ((c.1 - 2 ^ 34) / 2 ^ 22)))) }

/-- A port as it is when it goes DOWN (R244): partly received messages and unacknowledged flits are
dropped, the hop keys with them (Table 12-8). -/
def downPort (p : Port) : Port :=
  { p with train := false, state := .down, status := .down, resume := .down, framed := false,
           framingLoss := false, awaiting := [], berDue := false, berNear := none, berFarSeen := false,
           keying := none, keyed := false, switchSerial := 0, rootFp := [], reducerFw := [],
           tx := HopKey.reset, rx := HopKey.reset, rxOld := none, rxNew := 0, credInit := false,
           credits := Vector.replicate 4 0, nextSeq := 0, unacked := [], nakActed := none,
           rxExpect := 0, naking := false, partial' := Vector.replicate 4 [],
           degraded := List.replicate 8 0, farEk := [], ephDk := [], rekey := none,
           txQueue := Vector.replicate 4 [], stream := [], rr := 0, owed := Vector.replicate 4 0 }

/-- A port starts the training of Table 10-7: the PMD control function first. -/
def beginTrain (p : Port) : Port :=
  { downPort p with train := true, state := .pmd, status := .training, resume := .training }

/-- Every tile after its prompter is gone with the Chart: asleep and idle. -/
def offTile (t : Tile) : Tile :=
  { Tile.reset with hbSeen := t.hbSeen, silent := t.silent, stretch := t.stretch, deckHolds := t.deckHolds }

/-- Stop the installed Chart (R126): prompters stop, routes and signals go, dies in its mask that no Chart keeps power
down. -/
def stopKeeping (keep : DieId → Bool) (s : State) : State :=
  match installedChart s with
  | none => { s with installed := none, signals := [] }
  | some c =>
    mapTiles (fun _ t => offTile t)
      (railsDown (fun d => c.dieMask.getLsbD d && !(keep d)) { closePackets (fun _ => true) s with installed := none, signals := [] })

/-- Stop the installed Chart; no die is kept. -/
def stopChart (s : State) : State := stopKeeping (fun _ => false) s

/-- Turn off every rail beyond the house domain (R413, R418, R419): dies, deck zones, ports, stacks. -/
def houseOnly (s : State) : State :=
  let s := mapPorts (fun _ p => downPort p) (stopChart s)
  let s := mapDies (fun _ x => { x with rails := .off, locked := false }) s
  { s with
    mem := [], tiles := [], installed := none,
    start := { s.start with zonesUp := 0, meshLocked := false, deckChecked := false, stacksUp := false } }

/-! ### The defect map (R44 to R49) -/

/-- A volatile in-service entry (Table 2-5). -/
def volatileEntry (kind t detail : Nat) : BitVec 64 :=
  BitVec.ofNat 64 (kind * 2 ^ 60 + 2 * 2 ^ 58 + (gcolOf t / 12) * 2 ^ 53 + (growOf t / 12) * 2 ^ 50 +
    (gcolOf t % 12) * 2 ^ 46 + (growOf t % 12) * 2 ^ 42 + detail % 2 ^ 32)

/-! ### Regions and their faults (R127, R386) -/

/-- A tile lies in a rectangle of global coordinates. -/
def inRect (col0 row0 col1 row1 t : Nat) : Bool :=
  decide (col0 ≤ gcolOf t) && decide (gcolOf t ≤ col1) && decide (row0 ≤ growOf t) && decide (growOf t ≤ row1)

/-- The variant a region uses, if it has been restaged. -/
def variantInUse (c : Chart) (x : Installed) (region : Nat) : Option Variant :=
  match find? x.variants region with
  | some v => c.variants.find? fun w => w.id == v
  | none => none

/-- A region's tiles: those of its variant's rectangle where it runs on one. -/
def regionHas (c : Chart) (x : Installed) (r : Region) (t : Nat) : Bool :=
  match variantInUse c x r.id with
  | some v => inRect v.col0 v.row0 v.col1 v.row1 t
  | none => inRect r.col0 r.row0 r.col1 r.row1 t

/-- The regions of the installed Chart that use a tile. -/
def regionsOfTile (s : State) (t : Nat) : List Nat :=
  match s.installed, installedChart s with
  | some x, some c => (c.regions.filter fun r => regionHas c x r t).map fun r => r.id
  | _, _ => []

/-- The regions with a tile on a die. -/
def regionsOfDie (s : State) (d : DieId) : List Nat :=
  match s.installed, installedChart s with
  | some x, some c =>
    (c.regions.filter fun r => (List.range 5184).any fun t => dieOfTile t == d && regionHas c x r t).map
      fun r => r.id
  | _, _ => []

/-- The regions whose routes cross a link (R38): those with a tile at an end of such a route. -/
def regionsOfLink (s : State) (l : LinkDir) : List Nat :=
  match s.installed, installedChart s with
  | some x, some c =>
    let ends := ((routesInForce c x).filter fun r => routeCrosses r l).flatMap routeEnds
    (c.regions.filter fun r => ends.any fun t => regionHas c x r t).map fun r => r.id
  | _, _ => []

/-- Stop one tile of a faulted region (Table 5-14): prompter halted, cue counters cleared. -/
def stopTile (t : Tile) : Tile :=
  { t with halted := true, counters := [], deferred := [], draining := none, entryRun := none,
           array := none, vector := none, movers := [], plain := [], packets := [] }

/-- Record region faults (R127): each region once, in order; the region stops and a pass in progress
has its open layer replayed (R386). -/
def faultRegions (ids : List Nat) (code : Code) (die : Option DieId) (s : State) : State :=
  match s.installed, installedChart s with
  | some x, some c =>
    let new := ids.filter fun r => !(x.lost.contains r) && !(x.faults.any fun f => f.region == r)
    if new.isEmpty then s
    else
      let hit (t : Nat) : Bool := c.regions.any fun r => new.contains r.id && regionHas c x r t
      let s := mapTiles (fun t y => if hit t then stopTile y else y) (closePackets hit s)
      modInstalled (fun y => { y with
        faults := y.faults ++ new.map fun r => { region := r, code := code, die := die },
        pass := y.pass.map fun p => { p with replayDue := true } }) s
  | _, _ => s

/-- The regions that use a tile fault. -/
def faultTile (t : Nat) (code : Code) (s : State) : State :=
  faultRegions (regionsOfTile s t) code none s

/-! ### Leaving the step (R391) -/

/-- The member leaves the step: pass and reduction end with 0x0102, the other collectives abort with
0x0702, the Chart stops and its slot returns to STAGED. -/
def leaveStep (s : State) : State :=
  match s.installed with
  | none => s
  | some x =>
    let s := report { code := 0x0102, slot := BitVec.ofNat 8 x.slot } s
    let s := endReduction x.slot 0x0102 (endPass 0x0102 s)
    setSlotState x.slot .staged (stopChart (abortColls 0x0702 s))

/-- Regions are lost: they are counted, and the member leaves the step. The Chart stops with that (R391), and the count stands in
regions_lost until the next installation (DEDUCED from Table 5-15, log entry 87). -/
def loseRegions (ids : List Nat) (s : State) : State :=
  if ids.isEmpty then s
  else
    let s := leaveStep (modInstalled (fun x => { x with lost := ids.foldl insertNew x.lost }) s)
    { s with loader := { s.loader with regionsLost := s.loader.regionsLost + ids.length } }

/-! ### Defect entries and self-tests -/

/-- Volatile entries in the map. -/
def volatileCount (s : State) : Nat :=
  (s.defects.entries.filter fun e => entryOrigin e == 2).length

/-- The regions that use the part of an entry: a link's those whose routes cross it, any other those that use the tile. -/
def regionsOfPart (s : State) (kind t detail : Nat) : List Nat :=
  if kind = 5 ∨ kind = 6 then regionsOfLink s { router := Fin.ofNat 5184 t, dir := Fin.ofNat 6 (detail % 8) } else regionsOfTile s t

/-- Add a volatile entry (R383); where the list is full, 0x0407 and the regions that use the failing part are
lost (R46). -/
def addEntry (kind t detail : Nat) (s : State) : State :=
  if volatileCount s < 1024 ∧ s.defects.entries.length < 16384 then
    { s with defects := { s.defects with entries := s.defects.entries ++ [volatileEntry kind t detail] } }
  else
    loseRegions (regionsOfPart s kind t detail) (report { code := 0x0407, loc := locTile t } s)

/-- A detection asks for a self-test of a part (R380, R384): it joins one that waits or runs, waits its
turn among at most 256, or is counted and not tested. -/
def detect (p : Part) (code : Code) (s : State) : State :=
  if (s.selfTest.running.any fun x => decide (x.1 = p)) || (s.selfTest.waiting.any fun x => decide (x.1 = p))
  then s
  else if s.selfTest.waiting.length < 256 then
    { s with selfTest := { s.selfTest with waiting := s.selfTest.waiting ++ [(p, code, s.ticks)] } }
  else
    report { code := 0x0C06, isCount := true, value := s.selfTest.dropped + 1 }
      { s with selfTest := { s.selfTest with dropped := s.selfTest.dropped + 1 } }

/-- A link goes down (R38, R43): both directions stop, it is recorded, and the regions whose routes cross
it fault. -/
def linkDown (l : LinkDir) (s : State) : State :=
  let s := modLink l (fun k => { k with down := true, waiting := false, fails := 0 }) s
  let s := report { code := 0x0842, loc := locTile l.router } s
  let s := addEntry 6 l.router l.dir s
  faultRegions (regionsOfLink s l) 0x0842 none s

/-- A failed track (R42, R43): repaired on the group's spare with 0x0841, or the link goes down. -/
def failTrack (l : LinkDir) (g f : Nat) (s : State) : State :=
  let bad := badTracks s l g
  if bad.contains f then s
  else
    let s := addEntry 5 l.router (l.dir + g * 8 + f * 512) s
    if bad.isEmpty then
      report { code := 0x0841, loc := locTile l.router }
        (modLink l (fun k => { k with shift := setPair k.shift g f }) s)
    else linkDown l s

/-- Bank and row detail of a row's entry (Table 2-6). -/
def rowDetail (bank row : Nat) : Nat := bank + row * 32

/-- Retire a sensor of a die or a tile (R361, R363). -/
def retireHotSensor (d : DieId) (k : Nat) (s : State) : State :=
  let sp : Fin 144 := Fin.ofNat 144 (4 * d + k % 4)
  let s := { s with thermal := { s.thermal with
    retired := s.thermal.retired + 1,
    spots := s.thermal.spots.set sp (
      let h := s.thermal.spots[sp]
      if k < 4 then { h with diodeRetired := true, flagged := false }
      else { h with ringRetired := true, flagged := false }) } }
  let s := addEntry 7 (12 * (d.val % 6) + 72 * (12 * (d.val / 6))) k s
  reportThermal none { code := 0x0B0D, loc := locDie d, value := k } s

/-- Retire a tile's ring oscillator (R363). -/
def retireTileSensor (t : TileId) (s : State) : State :=
  let old := look { reading := 0, outliers := 0, retired := false } s.thermal.tiles t
  let s := { s with thermal := { s.thermal with
    retired := s.thermal.retired + 1,
    tiles := setPair s.thermal.tiles t { old with retired := true, outliers := 0 } } }
  reportThermal none { code := 0x0B0D, loc := locTile t, value := 8 } (addEntry 7 t 8 s)

/-- A lasting fault of a part takes effect (R383). -/
def lastingFault (p : Part) (code : Code) (s : State) : State :=
  match p with
  | .tileRow t b r => addEntry 3 t (rowDetail b r) s
  | .deckRow t b r => addEntry 4 t (rowDetail b r) s
  | .tile t => addEntry 2 t code.toNat s
  | .cellColumn t c =>
    let s := addEntry 1 t c s
    if (badColumns s t).length = 2 ∧ !(isRetired s t) then addEntry 2 t code.toNat s else s
  | .link _ => s
  | .stackLine k line =>
    { s with nv := { s.nv with repairs := insertNew s.nv.repairs (k.val, line / 32) } }
  | .hotSpot d k => retireHotSensor d k s
  | .tileSensor t => retireTileSensor t s

/-! ### Contexts and their keys (R297, R303) -/

/-- A slot's registers and queues stay as they were; everything the context held is gone. -/
def closedCtx (c : Ctx) : Ctx :=
  { c with state := .closed, ownerFp := [], stackGib := 0, hdmGib := 0, running := [], memKey := [],
           ek := [], dk := [], keys := Vector.replicate 16 none, reports := [], lastSeq := [],
           ledger := [], blockMax := [], pool := [], bounced := [], gradAt := [], arith := [], model := none, barrier := false }

/-- Stack memory of a slot becomes ciphertext with no key (R303): its bytes are gone. -/
def loseStack (i : Slot) (s : State) : State :=
  zeroMem (frameKey i 0 0) (2 ^ 43) (zeroMem (stackKey i 0) (2 ^ 41) (zeroMem (hdmKey i 0) (2 ^ 38) s))

/-- A stage op into a slot that closes is abandoned (R120): go falls, 0x0234, REFUSED is shown. -/
def abandonOp (i : Slot) (s : State) : State :=
  match s.loader.running with
  | some op =>
    if op.isStage && op.slot == i then
      modSlot i (fun l => { l with refused := true })
        { s with loader := { s.loader with
            running := none, error := 0x0234, sect := 0xFFFF, record := 0xFFFFFFFF } }
    else s
  | none => s

/-- Close a context: keys destroyed, Chart copy discarded, 0x0910 (R297). -/
def destroyCtx (i : Slot) (s : State) : State :=
  let s := modSlot i (fun l => { l with state := .empty, chart := none }) (abandonOp i s)
  report { code := 0x0910, slot := BitVec.ofNat 8 i } (modCtx i closedCtx (loseStack i s))

/-- The slot is not closed. -/
def isOpen (s : State) (i : Slot) : Bool :=
  !(decide ((s.ctxOf i).state = .closed))

/-- A hand-over that a loss of every context cuts off answers with the loss's code 0x0101
(DEDUCED, log entry 20). -/
def cutHandOver (x : Security) : Security :=
  match x.handOver with
  | none => x
  | some h =>
    if h.asker = .mailbox then { x with handOver := none, go := false, error := 0x0101, respLen := 0 }
    else { x with handOver := none }

/-- Close every context without a curtain (R303, R392): collectives and hand-over go with them. -/
def destroyAll (s : State) : State :=
  let s := (allSlots.filter fun i => isOpen s i).foldl (fun s i => destroyCtx i s)
    { s with installed := none }
  { s with coll := Collective.reset, sec := cutHandOver s.sec }

end Sys2Proof.Machine
end

