-- ==== Sys2Proof/Machine/Install.lean ====
section
/-! DEFINITION. Checks 10 and 11 of the loader, the choice of understudy variants, and the installation of
a staged Chart (R51, R121, R125, Tables 5-11 and 5-13), which several courses start. -/

namespace Sys2Proof.Machine

open Sys2Proof

/-- The cap in force: min(cap term, cooling cap, 23,000 W) (R340). -/
def capInForce (s : State) : Nat :=
  min (min s.power.capTerm s.thermal.coolingCap) 23000

/-- Total of a power-plan phase (R114). -/
def phaseTotal (p : Phase) : Nat := p.compute + p.memory + p.ports

/-- Sum of the floors (R114). -/
def floorSum (p : PowerPlan) : Nat := p.floorPorts + p.floorMemory + p.floorCompute

/-- The edge link that a hop's edge port drives or takes, as a link direction. -/
def edgeLinks (h : Hop) : List LinkDir :=
  let t := Fin.ofNat 5184 (72 * h.grow + h.gcol)
  (if h.outMask.getLsbD 5 then [{ router := t, dir := Fin.ofNat 6 (4 + b2n h.outEdge) }] else []) ++
    (if h.inPort == 5 then [{ router := t, dir := Fin.ofNat 6 (4 + b2n h.inEdge) }] else [])

/-- What an edge port connects to (Table 2-3): 0x00 to 0x0F none of the ports alone; a stack is 0x20 + k,
a port die is 0x40 + n, the Binnacle 0x50. -/
def edgeUnit (l : LinkDir) : Option Nat :=
  let c := gcolOf l.router
  let r := growOf l.router
  let side : Option (Nat × Nat) :=
    if l.dir.val == 4 then (if r == 0 then some (0, c) else if r == 71 then some (2, c) else none)
    else if l.dir.val == 5 then (if c == 71 then some (1, r) else if c == 0 then some (3, r) else none)
    else none
  match side with
  | none => none
  | some (k, n) =>
    if n ≤ 11 then some (0x20 + 3 * k)
    else if 20 ≤ n ∧ n ≤ 23 then some (0x40 + 2 * k)
    else if n == 26 then (if k == 0 then some 0x50 else none)
    else if 30 ≤ n ∧ n ≤ 41 then some (0x21 + 3 * k)
    else if 48 ≤ n ∧ n ≤ 51 then some (0x41 + 2 * k)
    else if 60 ≤ n then some (0x22 + 3 * k)
    else none

/-- A route uses the lane that an administrative test holds (R123). -/
def routeUsesHeld (s : State) (r : Route) : Bool :=
  match s.pattern.held with
  | none => false
  | some (target, _, dir, row, col) =>
    let t := target.toNat
    if t == 0x30 then
      routeCrosses r { router := tileAt col.toNat row.toNat, dir := Fin.ofNat 6 dir.toNat }
    else if t < 0x10 then
      r.hops.any fun h => (edgeLinks h).any fun l => edgeUnit l == some (0x40 + t / 2)
    else if 0x20 ≤ t then
      r.hops.any fun h => (edgeLinks h).any fun l => edgeUnit l == some t
    else false

/-- Index of the first element that satisfies a test. -/
def firstIndex {α : Type} (p : α → Bool) (l : List α) : Option Nat :=
  l.findIdx? p

/-- A refusal with its place of Table 5-26: directory index of the section, and the record. -/
structure Refused where
  code : Code
  sect : Nat
  record : Nat
  deriving DecidableEq, Repr

/-- No record applies. -/
def noRecord : Nat := 0xFFFFFFFF

/-- No section applies. -/
def noSect : Nat := 0xFFFF

/-- Directory index of a section type, 0xFFFF where the Chart has none. -/
def secOf (c : Chart) (type : Nat) : Nat := (c.dir.findIdx? fun t => t == type).getD noSect

/-! ### The sheet in force: main Chart and the variants of a list (R111) -/

/-- The cues of a tile in the main Chart. -/
def mainCues (c : Chart) (t : Nat) : List Cue :=
  match find? c.cues t with
  | some l => l
  | none => []

/-- The variants that a list of (region, variant) pairs names. -/
def variantsIn (c : Chart) (vs : List (Nat × Nat)) : List Variant :=
  vs.filterMap fun p => c.variants.find? fun v => v.id == p.2 && v.regionId == p.1

/-- The variants in use. -/
def variantsOf (c : Chart) (x : Installed) : List Variant := variantsIn c x.variants

/-- A tile of a region that runs on a variant: it runs none of the main Chart's cues. -/
def movedTile (c : Chart) (vs : List (Nat × Nat)) (t : Nat) : Bool :=
  c.regions.any fun r => (vs.any fun p => p.1 == r.id) && inRect r.col0 r.row0 r.col1 r.row1 t

/-- The cue list of a tile with the variants of a list. -/
def cuesIn (c : Chart) (vs : List (Nat × Nat)) (t : Nat) : List Cue :=
  match (variantsIn c vs).findSome? fun v => find? v.cues t with
  | some l => l
  | none => if movedTile c vs t then [] else mainCues c t

/-- The cue list of a tile in force. -/
def cuesOf (c : Chart) (x : Installed) (t : Nat) : List Cue := cuesIn c x.variants t

/-- The placement entry of a tensor's block with the variants of a list. -/
def placementIn (c : Chart) (vs : List (Nat × Nat)) (tensor block : Nat) : Option Placement :=
  let here (p : Placement) : Bool := p.tensorId == tensor && p.block == block
  match (variantsIn c vs).findSome? fun v => v.placements.find? here with
  | some p => some p
  | none => c.placements.find? here

/-- The placement entry of a tensor's block in force. -/
def placementOf (c : Chart) (x : Installed) (tensor block : Nat) : Option Placement := placementIn c x.variants tensor block

/-- Two entries name one block of one tensor. -/
def samePlace (p q : Placement) : Bool := p.tensorId == q.tensorId && p.block == q.block

/-- A placement entry put into a list in ascending order of (tensor_id, block_index). -/
def insertEntry (p : Placement) : List Placement → List Placement
  | [] => [p]
  | q :: l => if p.tensorId < q.tensorId ∨ (p.tensorId = q.tensorId ∧ p.block < q.block) then p :: q :: l else q :: insertEntry p l

/-- Main entries with those of variants in their place, in ascending order (R111). -/
def replacePlaces (main new : List Placement) : List Placement :=
  (new.filter fun p => !(main.any (samePlace p))).foldl (fun l p => insertEntry p l)
    (main.map fun q => (new.find? (samePlace q)).getD q)

/-- The placement entries in force, in ascending order. -/
def placementsIn (c : Chart) (vs : List (Nat × Nat)) : List Placement :=
  replacePlaces c.placements ((variantsIn c vs).flatMap fun v => v.placements)

/-- A tile carries work with the variants of a list: it holds cues or tile SRAM placements (R51). -/
def carriesWorkIn (c : Chart) (vs : List (Nat × Nat)) (t : Nat) : Bool :=
  !(cuesIn c vs t).isEmpty || (placementsIn c vs).any fun p => p.kind == 1 && 72 * p.grow + p.gcol == t

/-- A tile carries work in the main Chart. -/
def carriesWork (c : Chart) (t : Nat) : Bool := carriesWorkIn c [] t

/-- Bit of a tile in a width map: the Chart assumes 56 columns for it (R104). -/
def mapBit (m : Bytes) (t : Nat) : Bool := bitOf (byteAt m (t / 8)).toNat (t % 8)

/-- The width that the Chart assumes for a tile is 56 columns: its variant's map has precedence over the main one (R111). -/
def assumedNarrow (c : Chart) (vs : List (Nat × Nat)) (t : Nat) : Bool :=
  match (variantsIn c vs).find? fun v => inRect v.col0 v.row0 v.col1 v.row1 t with
  | some v => mapBit (v.widthMap.getD c.widthMap) t
  | none => mapBit c.widthMap t

/-- The held lane belongs to a plane port or a CXL port that the Chart uses (Table 5-26). It uses a plane port that a claim
names, and all of them where it has a collective descriptor, whose messages go by every usable plane (R225); it uses both CXL
ports where a route reaches the Binnacle's edge link, over which the host is reached (DEDUCED, log entry 82). -/
def portsHeld (s : State) (c : Chart) : Bool :=
  match s.pattern.held with
  | none => false
  | some (target, _) =>
    let t := target.toNat
    if t < 0x10 then !(c.collectives.isEmpty) || c.claims.any fun k => k.kind == 1 && k.index == t
    else if t == 0x10 || t == 0x11 then
      c.routes.any fun r => r.hops.any fun h => (edgeLinks h).any fun l => edgeUnit l == some 0x50
    else false

/-- Check 10: the cap in force, held lanes and the dies (Table 5-11). -/
def check10 (s : State) (c : Chart) : Option Refused :=
  if capInForce s < floorSum c.power then some ⟨0x0223, secOf c 8, noRecord⟩
  else match firstIndex (fun p => decide (capInForce s < phaseTotal p)) c.power.phases with
  | some i => some ⟨0x0223, secOf c 8, i⟩
  | none =>
  match firstIndex (routeUsesHeld s) c.routes with
  | some i => some ⟨0x0224, secOf c 2, i⟩
  | none =>
  if portsHeld s c then some ⟨0x0224, noSect, noRecord⟩ else
  match allDies.find? fun (d : DieId) => c.dieMask.getLsbD d &&
      ((s.dieOf d).isolated || (s.dieOf d).latchedOff || (s.dieOf d).lockFailed) with
  | some d => some ⟨0x022A, noSect, d⟩
  | none => none

/-- A route crosses a link that is down on this engine. -/
def crossesDown (s : State) (r : Route) : Bool :=
  r.hops.any fun h =>
    let t := Fin.ofNat 5184 (72 * h.grow + h.gcol)
    ((List.finRange 6).any fun d =>
      (hopDrives h { router := t, dir := d } || hopTakes h { router := t, dir := d }) &&
        linkIsDown s { router := t, dir := d })

/-- The tiles of a rectangle. -/
def rectTiles (col0 row0 col1 row1 : Nat) : List Nat :=
  (List.range (row1 + 1 - row0)).flatMap fun dr =>
    (List.range (col1 + 1 - col0)).map fun dc => 72 * (row0 + dr) + col0 + dc

/-- A region is concerned by R51: a retired tile of it carries work, or a route with an end in it crosses
a down link. -/
def regionConcerned (s : State) (c : Chart) (r : Region) : Bool :=
  ((rectTiles r.col0 r.row0 r.col1 r.row1).any fun t => isRetired s t && carriesWork c t) ||
    c.routes.any fun w => crossesDown s w && (routeEnds w).any fun t => inRect r.col0 r.row0 r.col1 r.row1 t

/-- A down link or a retired tile that no variant can mend: a route that crosses a down link and ends in no region, or a
working tile in no region that is retired (R51). -/
def unservable (s : State) (c : Chart) : Bool :=
  (c.routes.any fun w => crossesDown s w && !((routeEnds w).any fun t => c.regions.any fun r => inRect r.col0 r.row0 r.col1 r.row1 t)) ||
    (List.range 5184).any fun t => isRetired s t && carriesWork c t && !(c.regions.any fun r => inRect r.col0 r.row0 r.col1 r.row1 t)

/-- Dies whose wings a variant uses: those of its tiles that lie in no region (R105). -/
def wingsDies (c : Chart) (v : Variant) : List DieId :=
  ((rectTiles v.col0 v.row0 v.col1 v.row1).filter fun t => !(c.regions.any fun r => inRect r.col0 r.row0 r.col1 r.row1 t)).foldl
    (fun acc t => insertNew acc (dieOfTile t)) []

/-- A variant can serve: its tiles are not retired, its routes and the region's remaining ones cross no
down link, and no other variant uses the wings of its dies (R51, R127). -/
def variantUsable (s : State) (c : Chart) (used : List DieId) (r : Region) (v : Variant) : Bool :=
  let kept := c.routes.filter fun w =>
    ((routeEnds w).any fun t => inRect r.col0 r.row0 r.col1 r.row1 t) && !(v.routes.any fun x => x.id == w.id)
  !((rectTiles v.col0 v.row0 v.col1 v.row1).any fun t => isRetired s t) &&
    !(v.routes.any (crossesDown s)) && !(kept.any (crossesDown s)) &&
    !((wingsDies c v).any fun d => used.contains d)

/-- Check 11: the variant of each region concerned, in record order; none where one has no variant. -/
def chooseVariants (s : State) (c : Chart) : List Region → List DieId → Nat → Except Nat (List (Nat × Nat))
  | [], _, _ => .ok []
  | r :: rs, used, i =>
    if regionConcerned s c r then
      match c.variants.find? fun v => v.regionId == r.id && !v.dieLoss && variantUsable s c used r v with
      | none => .error i
      | some v =>
        match chooseVariants s c rs (wingsDies c v ++ used) (i + 1) with
        | .ok l => .ok ((r.id, v.id) :: l)
        | .error e => .error e
    else chooseVariants s c rs used (i + 1)

/-- Check 11 (R51): the variants to stage; the refusal names the region without one, or the whole where no region is concerned. -/
def check11 (s : State) (c : Chart) : Except Refused (List (Nat × Nat)) :=
  if unservable s c then .error ⟨0x022B, noSect, noRecord⟩
  else match chooseVariants s c c.regions [] 0 with
    | .error i => .error ⟨0x022B, secOf c 1, i⟩
    | .ok vs => .ok vs

/-- Spare rows of a bank (R30, R31). -/
def sparesOf (kind : Nat) : Nat := if kind == 3 then 8 else 16

/-- Covered bit of a row entry (Table 2-6). -/
def coveredBit (kind : Nat) : Nat := if kind == 3 then 15 else 16

/-- Spare rows of a bank already in use. -/
def sparesUsed (l : List (BitVec 64)) (kind t bank : Nat) : Nat :=
  (l.filter fun e => entryKind e == kind && entryTile e == t && entryDetail e % 32 == bank &&
    bitOf (entryDetail e) (coveredBit kind)).length

/-- A row is in its bank's address map: no entry of it is covered, and no curtain has taken it out (R47). -/
def rowMapped (s : State) (kind t bank row : Nat) : Bool :=
  !(s.defects.entries.any fun e => entryKind e == kind && entryTile e == t && bitOf (entryDetail e) (coveredBit kind) &&
      entryDetail e % 2 ^ coveredBit kind == bank + 32 * row) &&
    !(s.defects.gone.contains (kind, t, bank, row))

/-- Replace every uncovered in-service row by a spare of its bank (R47): it leaves the address map; a bank with none retires
its tile with the code that found the fault. -/
def coverRows (s : State) : State :=
  (List.range s.defects.entries.length).foldl (fun s i =>
    match s.defects.entries[i]? with
    | none => s
    | some e =>
      let k := entryKind e
      if (k == 3 || k == 4) && !(bitOf (entryDetail e) (coveredBit k)) && !(entryOrigin e == 0) then
        if sparesUsed s.defects.entries k (entryTile e) (entryDetail e % 32) < sparesOf k then
          { s with defects := { s.defects with
              entries := s.defects.entries.set i (e ||| ((1 : BitVec 64) <<< coveredBit k)) } }
        else if isRetired s (entryTile e) then s
        else addEntry 2 (entryTile e) (if k == 3 then 0x0402 else 0x0404) s
      else s) s

/-- The tiles to fold: narrow here, at work, assumed 64 columns wide in the Chart (R50). -/
def foldedTiles (s : State) (c : Chart) (vs : List (Nat × Nat)) : List TileId :=
  (List.finRange 5184).filter fun t => isNarrow s t && !(isRetired s t) && carriesWorkIn c vs t && !(assumedNarrow c vs t)

/-- Report the folded tiles of a staging that have not been reported yet (R50: once per tile per staging). -/
def sayFolded (i : Slot) (l : List TileId) (s : State) : State :=
  let new := l.filter fun t => !((s.loader.slots[i]).folded.contains t)
  new.foldl (fun s t => report { code := 0x0406, slot := BitVec.ofNat 8 i, loc := locTile t } s)
    (modSlot i (fun x => { x with folded := x.folded ++ new }) s)

/-- Start the rails of the Chart's dies that are off (Table 5-13, R335). -/
def queueDies (c : Chart) (s : State) : State :=
  mapDies (fun d x => if c.dieMask.getLsbD d && decide (x.rails = .off) then { x with rails := .queued }
    else x) s

/-- The Chart becomes the installed one, INSTALLING (Table 5-13): 0x0240 for each region on a variant. -/
def startInstall (i : Slot) (c : Chart) (vs : List (Nat × Nat)) (s : State) : State :=
  let folded := foldedTiles s c vs
  let s := { s with loader := { s.loader with regionsLost := 0 }, installed := some {
    slot := i, running := false, variants := vs, lost := [], faults := [], folded := folded,
    phase := none, slowSaid := false, pass := none } }
  let s := setSlotState i .installing (queueDies c s)
  let s := vs.foldl (fun s p => report { code := 0x0240, slot := BitVec.ofNat 8 i, value := p.1 } s) s
  sayFolded i folded s

/-- Begin the installation of a slot's STAGED Chart (R125): checks 10 and 11 are run again; where one
fails the slot stays STAGED and the code is reported. -/
def beginInstall (i : Slot) (s : State) : State :=
  match chartOf s i with
  | none => s
  | some c =>
    if (s.loader.slots[i]).state ≠ .staged then s
    else match check10 s c with
    | some r => report { code := r.code, slot := BitVec.ofNat 8 i } s
    | none =>
      match check11 s c with
      | .error r => report { code := r.code, slot := BitVec.ofNat 8 i } s
      | .ok vs => startInstall i c vs s

/-- Install the Chart of the slot that holds the engine again, if one does. -/
def reinstall (s : State) : State :=
  match holder s with
  | none => s
  | some i => beginInstall i s

/-! ### Placement and initial data -/

/-- The memory key of a placement entry; stack addresses are offsets in the slot's reservation (R110). -/
def placeKey (i : Slot) (p : Placement) : Nat :=
  if p.kind == 1 then tileKey (72 * p.grow + p.gcol) p.address
  else if p.kind == 2 then deckKey (72 * p.grow + p.gcol) p.address
  else stackKey i p.address

/-- Tensor record by number. -/
def tensorOf (c : Chart) (t : Nat) : Option Tensor :=
  c.tensors.find? fun x => x.id == t

/-- Area record by number. -/
def areaOf (c : Chart) (a : Nat) : Option Area :=
  c.areas.find? fun x => x.id == a

/-- Copy an area's initial data into its placement entries, in ascending order (R109). -/
def fillArea (i : Slot) (c : Chart) (vs : List (Nat × Nat)) (a : Area) (s : State) : State :=
  let data := slice c.data a.initOffset a.initLength
  let entries := (placementsIn c vs).filter fun p => match tensorOf c p.tensorId with
    | some t => t.areaId == a.id
    | none => false
  (entries.foldl (fun (x : State × Bytes) p =>
    let n := 64 * p.lines
    (storeBytes (placeKey i p) (x.2.take n) x.1, x.2.drop n)) (s, data)).1

/-- The user pairs of a region, whose tables the loader writes into the table store of each of its tiles (R107). -/
def tablesOf (c : Chart) (r : Region) : List (FnTable × FnTable) :=
  c.tables.filter fun p => decide (0x20 ≤ p.1.pairId) && r.userPairs.getLsbD (p.1.pairId - 0x20)

/-- The table store of a tile: that of the region that it serves. -/
def storeOf (c : Chart) (x : Installed) (t : Nat) : List (FnTable × FnTable) :=
  match c.regions.find? fun r => regionHas c x r t with
  | some r => tablesOf c r
  | none => []

/-- Every tile of a region wakes at its first cue; wings and other tiles stay asleep (Table 5-13). -/
def startTiles (c : Chart) (x : Installed) (s : State) : State :=
  ((List.finRange 5184).filter fun (t : TileId) => c.regions.any fun r => regionHas c x r t).foldl
    (fun s t => wakeTile t (fun y => { idleTile y with halted := false, mark := none, tables := storeOf c x t }) s) s

end Sys2Proof.Machine
end

