-- ==== Sys2Proof/Machine/ChartImage.lean ====
section
/-! DEFINITION. The Chart image: the header, the directory and the records of its sections as bytes (R101 to
R118), and checks 1 to 3 of the loader (Table 5-11). A fault is a pair (directory index, record); a check
reports its lowest. -/

namespace Sys2Proof.Machine

open Sys2Proof

/-! ### Directory (R101, R103, Tables 5-2, 5-3) -/

/-- A directory entry. -/
structure DirEnt where
  type : Nat
  count : Nat
  off : Nat
  len : Nat
  clean : Bool
  deriving DecidableEq, Repr

/-- Read a directory entry. -/
def parseDirEnt (b : Bytes) : DirEnt :=
  { type := leAt b 0 2, count := leAt b 4 4, off := leAt b 8 8, len := leAt b 16 8,
    clean := zeros b 2 2 && zeros b 24 8 }

/-- The directory of an image. -/
def directory (b : Bytes) : List DirEnt :=
  (List.range (leAt b 12 4)).map fun i => parseDirEnt (slice b (256 + 32 * i) 32)

/-- A fault's place. -/
abbrev Fault3 := Nat × Nat

/-- Order of places: section first, then the section header before its records (R432). -/
def placeBefore (a b : Fault3) : Bool :=
  let k (r : Nat) : Nat := if r = noRecord then 0 else r + 1
  decide (a.1 < b.1) || (a.1 == b.1 && decide (k a.2 < k b.2))

/-- The lowest place of a list. -/
def lowest : List Fault3 → Option Fault3
  | [] => none
  | f :: l => match lowest l with
    | none => some f
    | some g => if placeBefore g f then some g else some f

/-- A refusal at the lowest place of a row of Table 5-26. -/
def refuseIn (code : Code) (l : List Fault3) : Option Refused :=
  (lowest l).map fun f => ⟨code, f.1, f.2⟩

/-- A refusal at the place of a check's faults that Table 5-26 gives: a fault of a section as a whole stands in a row before
the faults of records (R432). -/
def refuseAt (code : Code) (l : List Fault3) : Option Refused :=
  match refuseIn code (l.filter fun f => f.2 == noRecord) with
  | some r => some r
  | none => refuseIn code l

/-- Records at fault in a list, as places of a section. -/
def badAt {α : Type} (sect : Nat) (bad : α → Bool) (l : List α) : List Fault3 :=
  (List.range l.length).filterMap fun i => match l[i]? with
    | some x => if bad x then some (sect, i) else none
    | none => none

/-! ### Check 1 -/

/-- The image is of a newer minor version than 1.0, which the engine reads (R5, Table 0-2). -/
def newerMinor (img : Bytes) : Bool := decide (0 < leAt img 4 2)

/-- Chart majors that the engine supports. -/
def chartMajor : Nat := 1

/-- Check 1 (Table 5-11). -/
def check1 (s : State) (b : Bytes) (loadLen : Nat) : Option Refused :=
  let total := leAt b 16 8
  if !(leAt b 0 4 == 0x54524843) || !(leAt b 8 4 == 256) || leAt b 12 4 < 1 || 64 < leAt b 12 4 ||
      !(total % 64 == 0) || 2 ^ 30 < total || !(total == loadLen) || !(leAt b 24 2 == 0x0036) ||
      (stepByte' s).toNat < (byteAt b 26).toNat then
    some ⟨0x0201, noSect, noRecord⟩
  else if !(leAt b 6 2 == chartMajor) then some ⟨0x0202, noSect, noRecord⟩
  else none
where
  stepByte' (s : State) : Byte := s.ident.stepLetter ++ s.ident.stepNumber

/-! ### Records of the sections -/

/-- Cut `k` records of `n` bytes. -/
def chunks (n k : Nat) (b : Bytes) : List Bytes := (List.range k).map fun i => slice b (n * i) n

/-- Round up to a multiple of 64. -/
def pad64 (n : Nat) : Nat := (n + 63) / 64 * 64

/-- Cut `k` route records (R106) from record `i` on; an error names the record at fault. -/
def cutRoutes : Nat → Nat → Bytes → Except Nat (List Bytes)
  | 0, _, b => if b.isEmpty then .ok [] else .error noRecord
  | k + 1, i, b =>
    let body := 8 + 4 * (byteAt b 3).toNat
    let n := (body + 7) / 8 * 8
    if b.length < n || !(zeros b body (n - body)) then .error i
    else match cutRoutes k (i + 1) (b.drop n) with
      | .ok l => .ok (b.take body :: l)
      | .error e => .error e

/-- A tile's cue list as a directory gives it: offset and count. -/
structure CueList where
  tile : Nat
  off : Nat
  count : Nat
  clean : Bool
  deriving DecidableEq, Repr

/-- The CUE directory (R113). -/
def cueDirectory (b : Bytes) : List CueList :=
  (List.range 5184).map fun t =>
    { tile := t, off := leAt b (8 * t) 4, count := leAt b (8 * t + 4) 2, clean := zeros b (8 * t + 6) 2 }

/-- Two byte ranges share a byte. -/
def overlaps (a n b m : Nat) : Bool := decide (a < b + m) && decide (b < a + n) && decide (0 < n) && decide (0 < m)

/-- No two lists overlap. -/
def disjointLists : List CueList → Bool
  | [] => true
  | x :: l => l.all (fun y => !(overlaps x.off (32 * x.count) y.off (32 * y.count))) && disjointLists l

/-- Cue lists fill a part exactly behind `head` bytes of it. -/
def cueListsFit (head len : Nat) (l : List CueList) : Bool :=
  (l.all fun x => x.count == 0 || (decide (head ≤ x.off) && decide (x.off + 32 * x.count ≤ len))) &&
    disjointLists l && head + 32 * (l.map fun x => x.count).sum == len

/-- The cue records of the lists, in directory order. -/
def cueRecords (b : Bytes) (l : List CueList) : List (Nat × List Bytes) :=
  (l.filter fun x => decide (0 < x.count)).map fun x => (x.tile, chunks 32 x.count (b.drop x.off))

/-- A variant cut into its sub-sections (R111). -/
structure VariantRaw where
  head : Bytes
  routes : Bytes
  places : Bytes
  cues : Bytes
  map : Bytes
  deriving DecidableEq, Repr

/-- The tiles of a variant's CUE sub-section; `clean` if its column and row are in range. -/
def variantDirectory (b : Bytes) : List CueList :=
  (List.range (leAt b 0 4)).map fun i =>
    let e := slice b (8 + 8 * i) 8
    { tile := 72 * (byteAt e 1).toNat + (byteAt e 0).toNat, off := leAt e 4 4, count := leAt e 2 2,
      clean := decide ((byteAt e 0).toNat ≤ 71) && decide ((byteAt e 1).toNat ≤ 71) }

/-- A variant's sub-sections are as its header counts them. -/
def variantFits (v : VariantRaw) : Bool :=
  (match cutRoutes (leAt v.head 24 4) 0 v.routes with
    | .ok _ => true
    | .error _ => false) &&
    (v.cues.isEmpty || (zeros v.cues 4 4 && decide (8 + 8 * leAt v.cues 0 4 ≤ v.cues.length) &&
      cueListsFit (8 + 8 * leAt v.cues 0 4) v.cues.length (variantDirectory v.cues)))

/-- Cut `k` variants from record `i` on. -/
def cutVariants : Nat → Nat → Bytes → Except Nat (List VariantRaw)
  | 0, _, b => if b.isEmpty then .ok [] else .error noRecord
  | k + 1, i, b =>
    let r := leAt b 12 4
    let p := 16 * leAt b 16 4
    let c := leAt b 20 4
    let m := if (byteAt b 10).getLsbD 0 then 648 else 0
    let oP := 64 + pad64 r
    let oC := oP + pad64 p
    let oM := oC + pad64 c
    let n := oM + pad64 m
    let v : VariantRaw := { head := slice b 0 32, routes := slice b 64 r, places := slice b oP p, cues := slice b oC c, map := slice b oM m }
    if b.length < n || !(zeros b 32 32) || !(zeros b (64 + r) (pad64 r - r)) || !(zeros b (oP + p) (pad64 p - p)) ||
        !(zeros b (oC + c) (pad64 c - c)) || !(zeros b (oM + m) (pad64 m - m)) || !(variantFits v) then .error i
    else match cutVariants k (i + 1) (b.drop n) with
      | .ok l => .ok (v :: l)
      | .error e => .error e

/-- Length of the SECURITY section before padding (Table 5-25). -/
def securityLen (b : Bytes) : Nat :=
  128 + 1952 * (byteAt b 64).toNat + (if (byteAt b 65).getLsbD 0 then 3309 else 0)

/-- The record at fault where a section's records do not fill it (R101, R103). -/
def sectionFault (e : DirEnt) (b : Bytes) : Option Nat :=
  let exact (n : Nat) : Option Nat := if b.length = n then none else some noRecord
  match e.type with
  | 1 => exact (32 * e.count + 648)
  | 2 => match cutRoutes e.count 0 b with
    | .ok _ => none
    | .error r => some r
  | 3 => exact (8256 * e.count)
  | 4 => exact (64 * e.count)
  | 5 => exact (16 * e.count)
  | 6 => match cutVariants e.count 0 b with
    | .ok _ => none
    | .error r => some r
  | 7 =>
    if decide (41472 ≤ b.length) && cueListsFit 41472 b.length (cueDirectory b) &&
        ((cueDirectory b).map fun x => x.count).sum == e.count then none else some noRecord
  | 8 => if leAt b 14 2 = e.count then exact (32 + 32 * e.count) else some noRecord
  | 9 => exact (32 * e.count)
  | 10 => exact (16 * e.count)
  | 11 => exact (8 * e.count)
  | 12 =>
    if e.count = 1 ∧ b.length = pad64 (securityLen b) ∧ zeros b (securityLen b) (b.length - securityLen b) = true then none
    else some noRecord
  | 13 => if e.count = 0 then none else some noRecord
  | _ => none

/-- A section's bytes. -/
def sectionBytes (img : Bytes) (e : DirEnt) : Bytes := slice img e.off e.len

/-- Faults of the directory itself: bounds, alignment, order (R101). -/
def dirFaults (img : Bytes) (d : List DirEnt) : List Fault3 :=
  let total := leAt img 16 8
  let first := 256 + 32 * d.length
  (List.range d.length).filterMap fun i =>
    match d[i]? with
    | none => none
    | some e =>
      let floor := if i = 0 then first else match d[i - 1]? with
        | some p => p.off + p.len
        | none => first
      if (!e.clean && !(newerMinor img)) || !(e.off % 64 == 0) || e.off < floor || total < e.off + e.len then some (i, noRecord) else none

/-- Bytes between sections are zero: a gap belongs to the section behind it, the last to the last section. -/
def gapFaults (img : Bytes) (d : List DirEnt) : List Fault3 :=
  let total := leAt img 16 8
  let ends (i : Nat) : Nat := match d[i]? with
    | some p => p.off + p.len
    | none => 0
  let gap (i : Nat) (e : DirEnt) : Bool :=
    let a := if i = 0 then 256 + 32 * d.length else ends (i - 1)
    zeros img a (e.off - a)
  ((List.range d.length).filterMap fun i => match d[i]? with
    | some e => if gap i e then none else some (i, noRecord)
    | none => none) ++
    (if zeros img (ends (d.length - 1)) (total - ends (d.length - 1)) then [] else [(d.length - 1, noRecord)])

/-- Faults within the sections. -/
def contentFaults (img : Bytes) (d : List DirEnt) : List Fault3 :=
  (List.range d.length).filterMap fun i => match d[i]? with
    | some e => (sectionFault e (sectionBytes img e)).map fun r => (i, r)
    | none => none

/-- The required types (R103). -/
def requiredTypes : List Nat := [1, 2, 4, 5, 7, 8, 12]

/-- Index of an entry whose type stands before it. -/
def secondOf (d : List DirEnt) : Option Nat :=
  (List.range d.length).find? fun i => match d[i]? with
    | some e => (d.take i).any fun x => x.type == e.type
    | none => false

/-- The entry of a section type. -/
def entOf (d : List DirEnt) (type : Nat) : Option DirEnt := d.find? fun e => e.type == type

/-- Bytes of a section type, empty where the image has none. -/
def secBytes (img : Bytes) (type : Nat) : Bytes :=
  match entOf (directory img) type with
  | some e => sectionBytes img e
  | none => []

/-- Record count of a section type. -/
def secCount (img : Bytes) (type : Nat) : Nat :=
  match entOf (directory img) type with
  | some e => e.count
  | none => 0

/-- Zero `n` bytes at `off`. -/
def blank (b : Bytes) (off n : Nat) : Bytes := b.take off ++ List.replicate (min n (b.length - off)) 0 ++ b.drop (off + n)

/-- The image with the bytes that its digest takes as zero (R118). -/
def digestInput (img : Bytes) : Bytes :=
  let b := blank img 128 64
  match entOf (directory img) 12 with
  | none => b
  | some e =>
    let x := sectionBytes img e
    let at' := 128 + 1952 * (byteAt x 64).toNat
    if (byteAt x 65).getLsbD 0 && decide (at' + 3309 ≤ e.len) then blank b (e.off + at') 3309 else b

/-- Check 2 (Table 5-11). -/
def check2 (img : Bytes) : Option Refused :=
  let d := directory img
  let structure' := match refuseIn 0x0203 (dirFaults img d) with
    | some r => some r
    | none => refuseIn 0x0203 (gapFaults img d ++ contentFaults img d)
  match structure' with
  | some r => some r
  | none =>
  match requiredTypes.find? fun t => !(d.any fun e => e.type == t) with
  | some t => some ⟨0x0205, noSect, t⟩
  | none =>
  match secondOf d with
  | some i => some ⟨0x0205, i, noRecord⟩
  | none =>
  if Config.shake256 (digestInput img) 64 == slice img 128 64 then none else some ⟨0x0204, noSect, noRecord⟩

/-! ### Cue records (Table 6-1) and what each kind uses (R130 to R132) -/

/-- Read a cue record. -/
def parseCue (b : Bytes) : Cue :=
  let v := leNat b
  { kind := bits v 255 248, site := bits v 247 244, mode := bits v 243 242, sat := bitOf v 241, layerStart := bitOf v 240,
    layer := bits v 239 224, phaseId := bits v 223 208, aTensor := bits v 207 192, bTensor := bits v 191 176,
    outTensor := bits v 175 160, auxTensor := bits v 159 144, descId := bits v 143 128,
    imm := BitVec.ofNat 36 (bits v 127 92), wait0Ctr := bits v 91 86, wait0Target := bits v 85 70,
    wait1Ctr := bits v 69 64, wait1Target := bits v 63 48, sigCtr := bits v 47 42, sigMode := bits v 41 40,
    sigRoute := bits v 39 28, outRoute := bits v 27 16, outRemote := bitOf v 15, bDeck := bitOf v 14,
    loadWindow := bitOf v 13, drainWindow := bitOf v 12 }

/-- Field [hi:lo] of imm, numbered as Table 6-2 numbers it (bits 127 to 92 of the record). -/
def Cue.field (c : Cue) (hi lo : Nat) : Nat := bits c.imm.toNat (hi - 92) (lo - 92)

/-- A MATMUL-family kind. -/
def isMatmul (k : Nat) : Bool := k == 1 || k == 2 || k == 3 || k == 9

/-- Kernel of a VECTOR_KERNEL cue. -/
def Cue.kernel (c : Cue) : Nat := c.field 127 120

/-- Bits of a mask [hi:lo], numbered as imm is. -/
def immMask (hi lo : Nat) : Nat := (2 ^ (hi + 1 - lo) - 1) * 2 ^ (lo - 92)

/-- What a cue uses: a, b, out, the length of the auxiliary run, the length of the descriptor run, and the
assigned bits of imm (Tables 6-2 to 6-4, 8-1, 8-6, R434). -/
structure Uses where
  a : Bool
  b : Bool
  out : Bool
  aux : Nat
  desc : Nat
  imm : Nat
  deriving DecidableEq, Repr

/-- What a vector kernel uses; none for a reserved kernel. -/
def kernelUses (k : Nat) : Option Uses :=
  let op := immMask 127 120
  match k with
  | 0x01 | 0x02 => some ⟨true, false, true, 3, 1, op + 1⟩
  | 0x03 => some ⟨true, false, true, 1, 1, op + 1⟩
  | 0x04 => some ⟨true, true, true, 1, 1, op⟩
  | 0x05 => some ⟨true, false, true, 0, 0, immMask 127 112⟩
  | 0x06 => some ⟨true, true, true, 0, 0, immMask 127 112⟩
  | 0x07 => some ⟨true, true, true, 0, 0, op⟩
  | 0x08 => some ⟨true, false, true, 0, 0, op⟩
  | 0x09 => some ⟨true, false, true, 0, 1, op⟩
  | 0x0A | 0x0B | 0x0C => some ⟨true, true, true, 3, 0, op⟩
  | _ => none

/-- What a cue uses; none for a reserved kind or kernel. -/
def usesOf (c : Cue) : Option Uses :=
  match c.kind with
  | 0x01 | 0x02 | 0x03 | 0x09 => some ⟨true, true, true, 0, 0, immMask 127 92⟩
  | 0x04 => kernelUses c.kernel
  | 0x05 => some ⟨true, true, true, 7, 2, immMask 127 126⟩
  | 0x06 => some ⟨true, true, true, 6, 1, immMask 127 99⟩
  | 0x07 =>
    if c.field 127 127 = 1 then some ⟨true, false, true, 0, 0, immMask 127 92⟩
    else some ⟨true, true, false, 1, 1, immMask 127 92⟩
  | 0x08 =>
    if c.field 127 126 = 2 then some ⟨true, false, true, 0, 0, immMask 127 126⟩
    else some ⟨false, false, false, 0, 0, immMask 127 110⟩
  | 0x0A => some ⟨false, false, false, 0, 0, immMask 127 118⟩
  | 0x0B =>
    some ⟨false, false, false, 0, 0, immMask 127 127 + (if c.field 127 127 = 1 then immMask 116 111 else immMask 126 117)⟩
  | 0x0C => some ⟨false, false, false, 0, 0, immMask 127 127 + (if c.field 127 127 = 1 then immMask 116 111 else 0)⟩
  | 0x0D => some ⟨false, false, false, 0, 0, immMask 127 126⟩
  | _ => none

/-- Kinds that use site, mode and sat (Table 6-11). -/
def usesMode (k : Nat) : Bool := isMatmul k || k == 4 || k == 5 || k == 6

/-- Kinds that use b_deck (Table 6-11). -/
def usesDeck (k : Nat) : Bool := isMatmul k || k == 5

/-- A two-bit field of imm, or the pair_id, that holds a reserved value. -/
def immReserved (c : Cue) : Bool :=
  ((c.kind == 6 || c.kind == 8 || c.kind == 13) && c.field 127 126 == 3) || (c.kind == 6 && c.field 100 99 == 3) ||
    (c.kind == 4 && (c.kernel == 5 || c.kernel == 6) &&
      !(decide (c.field 119 112 ≤ 9) || (decide (0x20 ≤ c.field 119 112) && decide (c.field 119 112 ≤ 0x3F))))

/-- A reserved field or bit that is not clear: an image of a newer minor version may use it for what this engine does not know and
ignores (R5; DEDUCED for check 3, log entry 86). -/
def rsv (nw clear : Bool) : Bool := !nw && !clear

/-- What check 3 refuses in a cue of any kind, a reserved kind among them: reserved bits, a reserved mode, layer 0xFFFF, and
the wait, signal and route fields that others leave unused (Table 6-1). -/
def cueFieldsBad (nw : Bool) (b : Bytes) : Bool :=
  let c := parseCue b
  c.mode == 3 || rsv nw (leNat b % 4096 == 0) || c.layer == 0xFFFF ||
    (c.wait0Target == 0 && !(c.wait0Ctr == 0)) || (c.wait1Target == 0 && !(c.wait1Ctr == 0)) ||
    (c.sigMode == 0 && !(c.sigCtr == 0)) || (!(bitOf c.sigMode 1) && !(c.sigRoute == 0)) ||
    (!c.outRemote && !(c.outRoute == 0))

/-- A cue that check 3 refuses (R121, R130): a reserved kind itself is check 7's (R131). -/
def cueBad (nw : Bool) (b : Bytes) : Bool :=
  let c := parseCue b
  match usesOf c with
  | none => c.kind == 4 || cueFieldsBad nw b
  | some u =>
    rsv nw (c.imm.toNat &&& u.imm == c.imm.toNat) || immReserved c || cueFieldsBad nw b ||
      (!u.a && !(c.aTensor == 0xFFFF)) || (!u.b && !(c.bTensor == 0xFFFF)) || (!u.out && !(c.outTensor == 0xFFFF)) ||
      (u.aux == 0 && !(c.auxTensor == 0xFFFF)) || (u.desc == 0 && !(c.descId == 0xFFFF)) ||
      (!(usesMode c.kind) && (!(c.site == 0) || !(c.mode == 0) || c.sat)) || (!(usesDeck c.kind) && c.bDeck) ||
      (!(isMatmul c.kind) && (c.loadWindow || c.drainWindow || c.outRemote))

/-! ### Check 3, record by record (R121) -/

/-- Header fields that check 1 does not test. -/
def headerBad (nw : Bool) (b : Bytes) : Bool :=
  rsv nw (((byteAt b 27) &&& 0xFC) == 0) || rsv nw (zeros b 28 4) || rsv nw (decide (leAt b 32 8 < 2 ^ 36)) || leAt b 48 4 < 1 || 2048 < leAt b 48 4 ||
    rsv nw (zeros b 72 56) || rsv nw (zeros b 192 64)

/-- REGION record (Table 5-4). -/
def regionBad (nw : Bool) (b : Bytes) : Bool :=
  1023 < leAt b 0 2 || 71 < leAt b 2 1 || 71 < leAt b 3 1 || 71 < leAt b 4 1 || 71 < leAt b 5 1 || rsv nw ((byteAt b 6 &&& 0xFE) == 0) ||
    rsv nw (zeros b 7 1) || rsv nw (decide (leAt b 8 8 < 2 ^ 36)) || rsv nw (decide (leAt b 16 2 < 512)) || rsv nw (zeros b 18 2) || rsv nw (zeros b 24 8)

/-- A route hop: reserved bits, ranges, edge side bits that do not apply. -/
def hopBad (nw : Bool) (v : Nat) : Bool :=
  rsv nw (bits v 31 25 == 0) || 71 < bits v 6 0 || 71 < bits v 13 7 || 5 < bits v 16 14 || (bitOf v 24 && !(bits v 16 14 == 5)) ||
    (bitOf v 23 && !(bitOf v 22))

/-- ROUTE record (R106). -/
def routeBad (nw : Bool) (b : Bytes) : Bool :=
  4095 < leAt b 0 2 || 2 < leAt b 2 1 || leAt b 3 1 < 1 || 160 < leAt b 3 1 || rsv nw (zeros b 4 4) ||
    (List.range (leAt b 3 1)).any fun i => hopBad nw (leAt b (8 + 4 * i) 4)

/-- A table header (Table 4-2). -/
def tableHeadBad (nw : Bool) (h : Bytes) : Bool :=
  leAt h 0 2 < 0x20 || 0x3F < leAt h 0 2 || 4 < leAt h 2 1 || rsv nw ((byteAt h 3 &&& 0xF8) == 0) || rsv nw (zeros h 28 4) ||
    (!(byteAt h 2 == 0) && !(zeros h 4 24))

/-- TABLE record: two tables. -/
def tableBad (nw : Bool) (b : Bytes) : Bool := tableHeadBad nw (slice b 0 32) || tableHeadBad nw (slice b 4128 32)

/-- Format codes of Table 5-17. -/
def knownFormat (f : Nat) : Bool :=
  (decide (1 ≤ f) && decide (f ≤ 0x0D)) || (decide (0x10 ≤ f) && decide (f ≤ 0x15)) || f == 0x20 || f == 0x30

/-- Formats that carry a summary (Table 5-16). -/
def hasSummary (f : Nat) : Bool := (decide (1 ≤ f) && decide (f ≤ 9)) || f == 0x20

/-- Formats that carry MX scales. -/
def hasScale (f : Nat) : Bool := (decide (0x10 ≤ f) && decide (f ≤ 0x15)) || f == 0x20

/-- The four two-bit dimension numbers of an order field, outermost first. -/
def orderOf (v : Nat) : List Nat := [bits v 7 6, bits v 5 4, bits v 3 2, bits v 1 0]

/-- TENSOR record by kind (Tables 5-16, 5-18, 5-19). An area with no slot or slots of no byte is refused here too (DESIGN
CHOICE: Table 5-19 gives no lower bound, log entry 83). -/
def tensorBad (nw : Bool) (b : Bytes) : Bool :=
  match leAt b 0 1 with
  | 1 =>
    let f := leAt b 1 1
    !(knownFormat f) || 0xFEFF < leAt b 2 2 || leAt b 4 4 < 1 || leAt b 8 4 < 1 || leAt b 12 4 < 1 || leAt b 16 4 < 1 ||
      3 < leAt b 20 1 || !((List.range 4).all fun d => (orderOf (leAt b 21 1)).contains d) || rsv nw ((byteAt b 22 &&& 0xFE) == 0) ||
      rsv nw (zeros b 23 1) || (!(hasSummary f) && !(leAt b 24 2 == 0xFFFF)) || (!(hasScale f) && !(leAt b 26 2 == 0xFFFF)) ||
      rsv nw (zeros b 30 34)
  | 2 =>
    3 < leAt b 1 1 || 0xFEFF < leAt b 2 2 || leAt b 4 4 < 256 || 2 ^ 20 < leAt b 4 4 || !(leAt b 4 4 % 256 == 0) || leAt b 8 2 < 1 ||
      1024 < leAt b 8 2 || rsv nw (zeros b 10 2) ||
      (List.range 26).any fun i => decide (leAt b 8 2 ≤ i) && !(leAt b (12 + 2 * i) 2 == 0xFFFF)
  | 3 =>
    leAt b 1 1 < 1 || 3 < leAt b 1 1 || 9 < leAt b 4 1 || rsv nw (zeros b 5 1) || leAt b 6 2 < 1 || leAt b 8 8 < 1 || !(leAt b 8 8 % 64 == 0) ||
      !(leAt b 16 8 % 64 == 0) || (leAt b 24 8 == 0 && !(leAt b 16 8 == 0)) || rsv nw (zeros b 32 32)
  | 4 => rsv nw (zeros b 1 1) || 0xFEFF < leAt b 2 2
  | _ => !nw

/-- PLACEMENT entry (Table 5-7); an address that is no multiple of 64 is check 6's. The coordinates that the entry's kind leaves
unused are to be 0 (DESIGN CHOICE: Table 5-7 states no value for them, log entry 83). -/
def placementBad (nw : Bool) (b : Bytes) : Bool :=
  let v := leNat b
  let k := bits v 79 77
  k < 1 || 3 < k || rsv nw (bits v 58 56 == 0) ||
    (if k == 3 then 11 < bits v 62 59 || !(bits v 76 63 == 0)
     else 71 < bits v 76 70 || 71 < bits v 69 63 || !(bits v 62 59 == 0))

/-- POWER header (Table 5-21). -/
def powerHeadBad (nw : Bool) (b : Bytes) : Bool :=
  let p := leAt b 0 1
  let cls := [bits p 1 0, bits p 3 2, bits p 5 4]
  rsv nw (bits p 7 6 == 0) || !((List.range 3).all fun c => cls.contains c) || rsv nw (zeros b 1 6) || 1 < leAt b 7 1 || leAt b 14 2 < 1 ||
    rsv nw (zeros b 16 16)

/-- Phase record (Table 5-22). -/
def phaseBad (nw : Bool) (b : Bytes) : Bool :=
  18 < leAt b 2 1 || 18 < leAt b 3 1 || rsv nw (zeros b 10 2) || rsv nw (decide (leAt b 16 8 < 2 ^ 36)) || rsv nw (zeros b 24 8)

/-- COLLECTIVE record (Table 9-1); the identifiers from 0xFF00 on are the engine's (R108), and a REDUCE_SHARDS quorum is
1 to 100 per cent. -/
def collBad (nw : Bool) (b : Bytes) : Bool :=
  0xFEFF < leAt b 0 2 || (leAt b 2 1 == 1 && leAt b 8 1 == 0) || leAt b 2 1 < 1 || 5 < leAt b 2 1 || rsv nw ((byteAt b 3 &&& 0xF8) == 0) || leAt b 4 4 < 1 || 100 < leAt b 8 1 || 15 < leAt b 9 1 ||
    leAt b 10 2 < 1 || leAt b 16 1 < 1 || 8 < leAt b 16 1 || (63 < leAt b 17 1 && !(leAt b 17 1 == 0xFF)) || rsv nw (zeros b 20 12)

/-- LAYER or rule record (Tables 5-23, 6-7). -/
def layerBad (nw : Bool) (b : Bytes) : Bool :=
  if leAt b 0 2 == 0xFFFF then
    15 < leAt b 2 1 || 2 < leAt b 3 1 || 2 < leAt b 4 1 || 2 < leAt b 5 1 || leAt b 6 2 < 1 || 15 < leAt b 12 1 || rsv nw (zeros b 13 3)
  else
    2 < leAt b 2 1 || rsv nw ((byteAt b 3 &&& 0xFC) == 0) || (leAt b 2 1 == 0 && !(leAt b 4 2 == 0xFFFF)) || 4095 < leAt b 6 2 ||
      15 < leAt b 8 1 || rsv nw (zeros b 9 7)

/-- CLAIM record (R117): the features of Table 5-24 but the collective descriptor have argument 0; a feature outside the table
is check 7's. -/
def claimBad (nw : Bool) (b : Bytes) : Bool :=
  ((leAt b 4 2 == 1 || leAt b 4 2 == 2 || leAt b 4 2 == 4) && !(leAt b 6 2 == 0)) ||
  leAt b 0 1 < 1 || 3 < leAt b 0 1 || rsv nw (zeros b 1 1) || (leAt b 0 1 == 1 && 15 < leAt b 2 2) || (leAt b 0 1 == 2 && 63 < leAt b 2 2)

/-- SECURITY section's fields (Table 5-25). -/
def securityBad (nw : Bool) (b : Bytes) : Bool := 4 < leAt b 64 1 || rsv nw ((byteAt b 65 &&& 0xFE) == 0) || rsv nw (zeros b 66 62)

/-- Variant header and its sub-sections' records (R111, Table 5-20). -/
def variantBad (nw : Bool) (v : VariantRaw) : Bool :=
  let h := v.head
  1 < leAt h 4 1 || (leAt h 4 1 == 0 && !(leAt h 5 1 == 0xFF)) || (leAt h 4 1 == 1 && 35 < leAt h 5 1) || 71 < leAt h 6 1 ||
    71 < leAt h 7 1 || 71 < leAt h 8 1 || 71 < leAt h 9 1 || rsv nw ((byteAt h 10 &&& 0xFE) == 0) || rsv nw (zeros h 11 1) || rsv nw (zeros h 28 4) ||
    (match cutRoutes (leAt h 24 4) 0 v.routes with
      | .ok l => l.any (routeBad nw)
      | .error _ => true) ||
    (chunks 16 (leAt h 16 4) v.places).any (placementBad nw) ||
    (variantDirectory v.cues).any (fun x => !x.clean || decide (4096 < x.count)) ||
    (cueRecords v.cues (variantDirectory v.cues)).any fun p => p.2.any (cueBad nw)

/-- The variants of a section, none cut where they do not fit (check 2 has refused it). -/
def variantsRaw (img : Bytes) : List VariantRaw :=
  match cutVariants (secCount img 6) 0 (secBytes img 6) with
  | .ok l => l
  | .error _ => []

/-- The route records of a byte string. -/
def routesRaw (k : Nat) (b : Bytes) : List Bytes :=
  match cutRoutes k 0 b with
  | .ok l => l
  | .error _ => []

/-- Faults of check 3 in one section. -/
def fieldFaults (img : Bytes) (i : Nat) (e : DirEnt) : List Fault3 :=
  let nw := newerMinor img
  let b := sectionBytes img e
  let cut (n : Nat) (bad : Bytes → Bool) : List Fault3 := badAt i bad (chunks n e.count b)
  let whole (x : Bool) : List Fault3 := if x then [(i, noRecord)] else []
  match e.type with
  | 1 => cut 32 (regionBad nw)
  | 2 => badAt i (routeBad nw) (routesRaw e.count b)
  | 3 => cut 8256 (tableBad nw)
  | 4 => cut 64 (tensorBad nw)
  | 5 => cut 16 (placementBad nw)
  | 6 => badAt i (variantBad nw) (variantsRaw img)
  | 7 =>
    whole ((cueDirectory b).any fun x => rsv nw x.clean || decide (4096 < x.count)) ++
      badAt i (cueBad nw) ((cueRecords b (cueDirectory b)).flatMap fun p => p.2)
  | 8 => whole (powerHeadBad nw b) ++ badAt i (phaseBad nw) (chunks 32 e.count (b.drop 32))
  | 9 => cut 32 (collBad nw)
  | 10 => cut 16 (layerBad nw)
  | 11 => cut 8 (claimBad nw)
  | 12 => if securityBad nw b then [(i, 0)] else []
  | _ => []

/-- Check 3 (Table 5-11). -/
def check3 (img : Bytes) : Option Refused :=
  if headerBad (newerMinor img) img then some ⟨0x0207, noSect, noRecord⟩
  else
    let d := directory img
    refuseAt 0x0207 ((List.range d.length).flatMap fun i => match d[i]? with
      | some e => fieldFaults img i e
      | none => [])

/-! ### The Chart of an image that check 3 passes -/

/-- Read a REGION record. -/
def parseRegion (b : Bytes) : Region :=
  { id := leAt b 0 2, col0 := leAt b 2 1, row0 := leAt b 3 1, col1 := leAt b 4 1, row1 := leAt b 5 1,
    isProtected := (byteAt b 6).getLsbD 0, dieMask := BitVec.ofNat 64 (leAt b 8 8 % 2 ^ 36), zoneMask := BitVec.ofNat 16 (leAt b 16 2 % 512),
    userPairs := BitVec.ofNat 32 (leAt b 20 4) }

/-- Read a hop (Table 5-5). -/
def parseHop (v : Nat) : Hop :=
  { gcol := bits v 6 0, grow := bits v 13 7, inPort := bits v 16 14, outMask := BitVec.ofNat 6 (bits v 22 17),
    outEdge := bitOf v 23, inEdge := bitOf v 24 }

/-- Read a ROUTE record. -/
def parseRoute (b : Bytes) : Route :=
  { id := leAt b 0 2, vc := leAt b 2 1, hops := (List.range (leAt b 3 1)).map fun i => parseHop (leAt b (8 + 4 * i) 4) }

/-- Read a table (R84). -/
def parseTable (b : Bytes) : FnTable :=
  let w (o : Nat) : Word := BitVec.ofNat 32 (leAt b o 4)
  { pairId := leAt b 0 2, mode := leAt b 2 1, flags := byteAt b 3, lo := w 4, hi := w 8, belowA := w 12, belowB := w 16,
    aboveA := w 20, aboveB := w 24,
    segs := (List.range 256).map fun k => (w (32 + 16 * k), w (36 + 16 * k), w (40 + 16 * k), w (44 + 16 * k)) }

/-- Read a tensor record. -/
def parseTensor (b : Bytes) : Tensor :=
  { id := leAt b 2 2, format := leAt b 1 1, dims := [leAt b 4 4, leAt b 8 4, leAt b 12 4, leAt b 16 4], kAxis := leAt b 20 1,
    order := orderOf (leAt b 21 1), slotPool := (byteAt b 22).getLsbD 0, summaryId := leAt b 24 2, scaleId := leAt b 26 2,
    areaId := leAt b 28 2 }

/-- Region numbers of a reduction record or a continuation. -/
def regionIds (b : Bytes) (off n : Nat) : List Nat := (List.range n).map fun i => leAt b (off + 2 * i) 2

/-- The reduction records with their continuations (Table 5-18). -/
def joinReductions : List Bytes → List RedDesc
  | [] => []
  | b :: l =>
    let rest := joinReductions l
    if leAt b 0 1 == 2 then
      let more := (l.takeWhile fun x => leAt x 0 1 == 4).flatMap fun x => regionIds x 4 30
      { id := leAt b 2 2, op := leAt b 1 1, leaf := leAt b 4 4,
        regions := (regionIds b 12 26 ++ more).take (leAt b 8 2) } :: rest
    else rest

/-- Read an area record. -/
def parseArea (b : Bytes) : Area :=
  { id := leAt b 2 2, memory := leAt b 1 1, purpose := leAt b 4 1, slotCount := leAt b 6 2, slotBytes := leAt b 8 8,
    initOffset := leAt b 16 8, initLength := leAt b 24 8 }

/-- Read a placement entry (Table 5-7). -/
def parsePlacement (b : Bytes) : Placement :=
  let v := leNat b
  { tensorId := bits v 127 112, block := bits v 111 80, kind := bits v 79 77, gcol := bits v 76 70, grow := bits v 69 63,
    stack := bits v 62 59, address := bits v 55 16, lines := bits v 15 0 + 1 }

/-- Read a variant. -/
def parseVariant (v : VariantRaw) : Variant :=
  let h := v.head
  { id := leAt h 0 2, regionId := leAt h 2 2, dieLoss := leAt h 4 1 == 1, coveredDie := leAt h 5 1, col0 := leAt h 6 1,
    row0 := leAt h 7 1, col1 := leAt h 8 1, row1 := leAt h 9 1, routes := (routesRaw (leAt h 24 4) v.routes).map parseRoute,
    placements := (chunks 16 (leAt h 16 4) v.places).map parsePlacement,
    cues := (cueRecords v.cues (variantDirectory v.cues)).map fun p => (p.1, p.2.map parseCue),
    widthMap := if (byteAt h 10).getLsbD 0 then some v.map else none }

/-- A class code of the POWER header. -/
def classOf (k : Nat) : PClass := if k = 0 then .ports else if k = 1 then .memory else .compute

/-- Read a phase record. -/
def parsePhase (b : Bytes) : Phase :=
  { id := leAt b 0 2, point := leAt b 2 1, slowest := leAt b 3 1, compute := leAt b 4 2, memory := leAt b 6 2,
    ports := leAt b 8 2, duration := leAt b 12 4, dieMask := BitVec.ofNat 64 (leAt b 16 8 % 2 ^ 36) }

/-- Read the POWER section. -/
def parsePower (b : Bytes) : PowerPlan :=
  let p := leAt b 0 1
  { order := [classOf (bits p 1 0), classOf (bits p 3 2), classOf (bits p 5 4)], trimMode := leAt b 7 1,
    floorPorts := leAt b 8 2, floorMemory := leAt b 10 2, floorCompute := leAt b 12 2,
    phases := (chunks 32 (leAt b 14 2) (b.drop 32)).map parsePhase }

/-- Read a COLLECTIVE record. -/
def parseDesc (b : Bytes) : CollDesc :=
  { id := leAt b 0 2, command := leAt b 2 1, flags := byteAt b 3, timeout := leAt b 4 4, quorum := leAt b 8 1,
    retryLimit := leAt b 9 1, retryGap := leAt b 10 2, hopTimeout := leAt b 12 4, timers := leAt b 16 1,
    signalCtr := leAt b 17 1, signalRoute := leAt b 18 2 }

/-- Read a LAYER record. -/
def parseLayer (b : Bytes) : LayerRec :=
  { layer := leAt b 0 2, maskKind := leAt b 2 1, flags := byteAt b 3, maskId := leAt b 4 2, k := leAt b 6 2, ruleId := leAt b 8 1 }

/-- Read a rule record. -/
def parseRule (b : Bytes) : RuleRec :=
  { ruleId := leAt b 2 1, startLevel := leAt b 3 1, minLevel := leAt b 4 1, maxLevel := leAt b 5 1, hold := leAt b 6 2,
    upUf := leAt b 8 2, downUf := leAt b 10 2, headroom := leAt b 12 1 }

/-- Read a CLAIM record. -/
def parseClaim (b : Bytes) : Claim :=
  { kind := leAt b 0 1, index := leAt b 2 2, feature := leAt b 4 2, arg := leAt b 6 2 }

/-- The TENSOR records of a kind. -/
def tensorsOfKind (img : Bytes) (k : Nat) : List Bytes :=
  (chunks 64 (secCount img 4) (secBytes img 4)).filter fun b => leAt b 0 1 == k

/-- The LAYER records that are rules, or are not. -/
def layersRaw (img : Bytes) (rule : Bool) : List Bytes :=
  (chunks 16 (secCount img 10) (secBytes img 10)).filter fun b => (leAt b 0 2 == 0xFFFF) == rule

/-- The Chart of an image. -/
def parseChart (img : Bytes) : Chart :=
  let rg := secBytes img 1
  let sc := secBytes img 12
  let cu := secBytes img 7
  let n := (byteAt sc 64).toNat
  { dir := (directory img).map fun e => e.type, protectAll := (byteAt img 27).getLsbD 0, isTraining := (byteAt img 27).getLsbD 1,
    dieMask := BitVec.ofNat 64 (leAt img 32 8 % 2 ^ 36), seed := BitVec.ofNat 64 (leAt img 40 8), groupSize := leAt img 48 4,
    digest := slice img 128 64, regions := (chunks 32 (secCount img 1) rg).map parseRegion,
    widthMap := slice rg (32 * secCount img 1) 648, routes := (routesRaw (secCount img 2) (secBytes img 2)).map parseRoute,
    tables := (chunks 8256 (secCount img 3) (secBytes img 3)).map fun b => (parseTable (slice b 0 4128), parseTable (slice b 4128 4128)),
    tensors := (tensorsOfKind img 1).map parseTensor,
    reductions := joinReductions (chunks 64 (secCount img 4) (secBytes img 4)), areas := (tensorsOfKind img 3).map parseArea,
    placements := (chunks 16 (secCount img 5) (secBytes img 5)).map parsePlacement, variants := (variantsRaw img).map parseVariant,
    cues := (cueRecords cu (cueDirectory cu)).map fun p => (p.1, p.2.map parseCue), power := parsePower (secBytes img 8),
    collectives := (chunks 32 (secCount img 9) (secBytes img 9)).map parseDesc, layers := (layersRaw img false).map parseLayer,
    rules := (layersRaw img true).map parseRule, claims := (chunks 8 (secCount img 11) (secBytes img 11)).map parseClaim,
    ownerFp := slice sc 0 64, signers := chunks 1952 n (sc.drop 128), ownerSigned := (byteAt sc 65).getLsbD 0,
    ownerSig := if (byteAt sc 65).getLsbD 0 then slice sc (128 + 1952 * n) 3309 else [], data := secBytes img 13,
    imageBytes := img.length }

end Sys2Proof.Machine
end

