-- ==== Sys2Proof/Machine/Numbers.lean ====
section
/-! DEFINITION. Number formats, rounding, FP32 arithmetic, stochastic rounding, MX blocks, windows, reductions
and function tables (R56 to R88, R433), as exact functions on values m · 2^e. -/

namespace Sys2Proof.Machine

open Sys2Proof

/-! ### Values -/

/-- A value: NaN, an infinity, or m · 2^e. The engine keeps no signed zero (R57). -/
inductive Num where
  | nan
  | inf (neg : Bool)
  | fin (m e : Int)
  deriving DecidableEq, Repr

/-- Zero and one. -/
def Num.zero : Num := .fin 0 0
def Num.one : Num := .fin 1 0

/-- A finite value is zero. -/
def Num.isZero : Num → Bool
  | .fin m _ => m == 0
  | _ => false

/-- A value is neither NaN nor infinite. -/
def Num.finite : Num → Bool
  | .fin _ _ => true
  | _ => false

/-- Negative values, −Infinity included. -/
def Num.isNeg : Num → Bool
  | .nan => false
  | .inf s => s
  | .fin m _ => decide (m < 0)

/-- Two dyadic numbers on the smaller exponent of the two. -/
def align (m e n f : Int) : Int × Int × Int :=
  let g := min e f
  (m * 2 ^ (e - g).toNat, n * 2 ^ (f - g).toNat, g)

/-- ⌊log2⌋ of a positive a ÷ b. -/
def floorLog2 (a b : Nat) : Int :=
  let k : Int := (Nat.log2 a : Int) - Nat.log2 b
  if b * 2 ^ k.toNat ≤ a * 2 ^ (-k).toNat then k else k - 1

/-- ⌊log2⌋ of a finite non-zero magnitude. -/
def magLog (m e : Int) : Int := Nat.log2 m.natAbs + e

/-! ### Element formats (R56, Table 3-1) -/

/-- Rounding modes (R59); SR carries its random word (R62). -/
inductive Mode where
  | rne
  | rtz
  | sr (r : Nat)
  deriving DecidableEq, Repr

/-- A floating-point format: exponent bits, fraction bits, bias, largest exponent, largest significand, and
what its top exponent holds. -/
structure FFmt where
  expBits : Nat
  frac : Nat
  bias : Int
  emax : Int
  top : Nat
  hasInf : Bool
  hasNan : Bool
  isE4m3 : Bool
  deriving DecidableEq, Repr

def e4m3 : FFmt := ⟨4, 3, 7, 8, 14, false, true, true⟩
def e5m2 : FFmt := ⟨5, 2, 15, 15, 7, true, true, false⟩
def e2m3 : FFmt := ⟨2, 3, 1, 2, 15, false, false, false⟩
def e3m2 : FFmt := ⟨3, 2, 3, 4, 7, false, false, false⟩
def e2m1 : FFmt := ⟨2, 1, 1, 2, 3, false, false, false⟩
def bf16 : FFmt := ⟨8, 7, 127, 127, 255, true, true, false⟩
def fp16 : FFmt := ⟨5, 10, 15, 15, 2047, true, true, false⟩
def fp32 : FFmt := ⟨8, 23, 127, 127, 2 ^ 24 - 1, true, true, false⟩
def fp64 : FFmt := ⟨11, 52, 1023, 1023, 2 ^ 53 - 1, true, true, false⟩

/-- Decode an element's bits. -/
def decodeF (f : FFmt) (v : Nat) : Num :=
  let fr := v % 2 ^ f.frac
  let ex := v / 2 ^ f.frac % 2 ^ f.expBits
  let neg := v.testBit (f.frac + f.expBits)
  let sg (m : Nat) : Int := if neg then -(m : Int) else m
  if ex = 2 ^ f.expBits - 1 ∧ f.hasInf then (if fr = 0 then .inf neg else .nan)
  else if f.isE4m3 ∧ ex = 15 ∧ fr = 7 then .nan
  else if ex = 0 then .fin (sg fr) (1 - f.bias - f.frac)
  else .fin (sg (fr + 2 ^ f.frac)) ((ex : Int) - f.bias - f.frac)

/-- The canonical NaN of a format (R57). -/
def nanBits (f : FFmt) : Nat :=
  if f.isE4m3 then 0x7F
  else if f.expBits = 5 ∧ f.frac = 2 then 0x7E
  else (2 ^ f.expBits - 1) * 2 ^ f.frac + 2 ^ (f.frac - 1)

/-- Bits of an infinity. -/
def infBits (f : FFmt) (neg : Bool) : Nat :=
  b2n neg * 2 ^ (f.frac + f.expBits) + (2 ^ f.expBits - 1) * 2 ^ f.frac

/-- Bits of ± n · 2^q, already on the format's grid; a zero is +0. -/
def gridBits (f : FFmt) (neg : Bool) (n : Nat) (q : Int) : Nat :=
  if n = 0 then 0
  else if n < 2 ^ f.frac then b2n neg * 2 ^ (f.frac + f.expBits) + n
  else b2n neg * 2 ^ (f.frac + f.expBits) + (q + f.frac + f.bias).toNat * 2 ^ f.frac + (n - 2 ^ f.frac)

/-- Round a ÷ b · 2^k to an integer. -/
def roundInt (mode : Mode) (a b : Nat) (k : Int) : Nat :=
  let num := a * 2 ^ k.toNat
  let den := b * 2 ^ (-k).toNat
  let n := num / den
  let rem := num % den
  match mode with
  | .rne => if den < 2 * rem ∨ (den = 2 * rem ∧ n % 2 = 1) then n + 1 else n
  | .rtz => n
  | .sr r => if 2 ^ 32 ≤ rem * 2 ^ 32 / den + r % 2 ^ 32 then n + 1 else n

/-- Round a positive a ÷ b · 2^e to a format's grid without an upper end: significand and exponent. -/
def toGrid (f : FFmt) (mode : Mode) (a b : Nat) (e : Int) : Nat × Int :=
  if a = 0 then (0, 1 - f.bias - f.frac)
  else
    let q := max (floorLog2 a b + e - f.frac) (1 - f.bias - f.frac)
    let n := roundInt mode a b (e - q)
    if n = 2 ^ (f.frac + 1) then (2 ^ f.frac, q + 1) else (n, q)

/-- A grid value exceeds the largest finite value. -/
def beyond (f : FFmt) (n : Nat) (q : Int) : Bool :=
  decide (f.emax - f.frac < q) || (q == f.emax - f.frac && decide (f.top < n))

/-- The rounding mode truncates. -/
def Mode.isRtz : Mode → Bool
  | .rtz => true
  | _ => false

/-- The result of a conversion: its bits, and whether a finite overflow happened (R60). -/
structure Conv where
  bits : Nat
  overflow : Bool
  deriving DecidableEq, Repr

/-- Bits of the largest finite value. -/
def topBits (f : FFmt) (neg : Bool) : Nat := gridBits f neg f.top (f.emax - f.frac)

/-- What a finite overflow gives (Table 3-3). -/
def overflowBits (f : FFmt) (sat : Bool) (mode : Mode) (neg : Bool) : Nat :=
  if !f.hasNan then topBits f neg
  else if f.isE4m3 then (if sat then topBits f neg else nanBits f)
  else if f.frac = 2 then (if sat then topBits f neg else infBits f neg)
  else if mode.isRtz then topBits f neg
  else infBits f neg

/-- Round ± a ÷ b · 2^e to a format (R59, R60). -/
def convRat (f : FFmt) (sat : Bool) (mode : Mode) (neg : Bool) (a b : Nat) (e : Int) : Conv :=
  let g := toGrid f mode a b e
  if beyond f g.1 g.2 then ⟨overflowBits f sat mode neg, true⟩ else ⟨gridBits f neg g.1 g.2, false⟩

/-- Convert a value to a floating-point format (Table 3-3). A NaN or an infinity has no stated result in a
format that holds neither (log entry 40): a free value. -/
def convF (f : FFmt) (sat : Bool) (mode : Mode) : Num → Conv
  | .nan => ⟨if f.hasNan then nanBits f else Config.freeElem f.expBits f.frac 0, false⟩
  | .inf s =>
    ⟨if f.hasInf then infBits f s else if f.hasNan then nanBits f else Config.freeElem f.expBits f.frac (1 + b2n s), false⟩
  | .fin m e => convRat f sat mode (decide (m < 0)) m.natAbs 1 e

/-! ### FP32 arithmetic (R64) -/

/-- Round to FP32 with RNE. -/
def r32 (x : Num) : Num := decodeF fp32 (convF fp32 false .rne x).bits

/-- FP32 value of bits, and bits of a value. -/
def ofW (w : Word) : Num := decodeF fp32 w.toNat
def toW (x : Num) : Word := BitVec.ofNat 32 (convF fp32 false .rne x).bits

/-- The opposite value. -/
def nneg : Num → Num
  | .nan => .nan
  | .inf s => .inf (!s)
  | .fin m e => .fin (-m) e

/-- The magnitude. -/
def nabs : Num → Num
  | .nan => .nan
  | .inf _ => .inf false
  | .fin m e => .fin m.natAbs e

/-- Exact sum. -/
def addX : Num → Num → Num
  | .nan, _ => .nan
  | _, .nan => .nan
  | .inf s, .inf t => if s = t then .inf s else .nan
  | .inf s, .fin _ _ => .inf s
  | .fin _ _, .inf t => .inf t
  | .fin m e, .fin n f => let x := align m e n f; .fin (x.1 + x.2.1) x.2.2

/-- Exact product. -/
def mulX : Num → Num → Num
  | .nan, _ => .nan
  | _, .nan => .nan
  | .inf s, y => if y.isZero then .nan else .inf (s != y.isNeg)
  | .fin m _, .inf t => if m = 0 then .nan else .inf (t != decide (m < 0))
  | .fin m e, .fin n f => .fin (m * n) (e + f)

/-- FP32 addition, subtraction, multiplication and fused multiply-add. -/
def fadd (a b : Num) : Num := r32 (addX a b)
def fsub (a b : Num) : Num := r32 (addX a (nneg b))
def fmul (a b : Num) : Num := r32 (mulX a b)
def ffma (a b c : Num) : Num := r32 (addX (mulX a b) c)

/-- a < b for values that are not NaN. -/
def nlt : Num → Num → Bool
  | .nan, _ => false
  | _, .nan => false
  | .inf s, .inf t => s && !t
  | .inf s, .fin _ _ => s
  | .fin _ _, .inf t => !t
  | .fin m e, .fin n f => let x := align m e n f; decide (x.1 < x.2.1)

/-- max and min: NaN wins (R80). -/
def nmax (a b : Num) : Num := if a = .nan ∨ b = .nan then .nan else if nlt a b then b else a
def nmin (a b : Num) : Num := if a = .nan ∨ b = .nan then .nan else if nlt b a then b else a

/-- RNE(num ÷ den · 2^e) in FP32. -/
def quot32 (num : Int) (den : Nat) (e : Int) : Num :=
  decodeF fp32 (convRat fp32 false .rne (decide (num < 0)) num.natAbs den e).bits

/-! ### Reductions (R81) -/

/-- Operations of a reduction descriptor (Table 5-18). -/
inductive RedOp where
  | sum
  | sumProducts
  | max
  | min
  deriving DecidableEq, Repr

/-- Operation of its code. -/
def redOpOf (k : Nat) : RedOp := if k = 0 then .sum else if k = 1 then .sumProducts else if k = 2 then .max else .min

def redIdentity : RedOp → Num
  | .sum | .sumProducts => .zero
  | .max => .inf true
  | .min => .inf false

def redStep (op : RedOp) (acc : Num) (x : Num × Num) : Num :=
  match op with
  | .sum => fadd acc x.1
  | .sumProducts => ffma x.1 x.2 acc
  | .max => nmax acc x.1
  | .min => nmin acc x.1

def redCombine (op : RedOp) (a b : Num) : Num :=
  match op with
  | .sum | .sumProducts => fadd a b
  | .max => nmax a b
  | .min => nmin a b

/-- The elements of a list whose index is `l` modulo 256, in increasing index. -/
def laneOf {α : Type} (l : Nat) (xs : List α) : List α :=
  (List.range xs.length).filterMap fun k => if k % 256 = l then xs[k]? else none

/-- The fixed lane tree over 2^n lanes. -/
def laneTree (op : RedOp) : Nat → List Num → Num
  | 0, l => l.headD (redIdentity op)
  | n + 1, l => laneTree op n (List.zipWith (redCombine op) (l.take (2 ^ n)) ((l.drop (2 ^ n)).take (2 ^ n)))

/-- One leaf. -/
def leafValue (op : RedOp) (xs : List (Num × Num)) : Num :=
  laneTree op 8 ((List.range 256).map fun l => (laneOf l xs).foldl (redStep op) (redIdentity op))

/-- One level of the leaf tree. -/
def pairUp (op : RedOp) : List Num → List Num
  | a :: b :: l => redCombine op a b :: pairUp op l
  | l => l

/-- The leaf tree. -/
def leafTree (op : RedOp) : Nat → List Num → Num
  | 0, l => l.headD (redIdentity op)
  | n + 1, l => if l.length ≤ 1 then l.headD (redIdentity op) else leafTree op n (pairUp op l)

/-- Cut a list into parts of `n`. -/
def cutParts {α : Type} (n : Nat) (xs : List α) : List (List α) :=
  (List.range ((xs.length + n - 1) / n)).map fun p => (xs.drop (p * n)).take n

/-- vreduce of pairs (the second of a pair is read by sum of products only). -/
def vreduce2 (op : RedOp) (leaf : Nat) (xs : List (Num × Num)) : Num :=
  if xs.isEmpty then redIdentity op
  else
    let parts := (cutParts leaf xs).map (leafValue op)
    leafTree op parts.length parts

/-- vreduce of single values. -/
def vreduce (op : RedOp) (leaf : Nat) (xs : List Num) : Num := vreduce2 op leaf (xs.map fun x => (x, x))

/-! ### The generator (R63): Philox-4x32-10 -/

/-- One round: counter words c0 to c3 and key words. -/
def philoxRound (c : Nat × Nat × Nat × Nat) (k0 k1 : Nat) : Nat × Nat × Nat × Nat :=
  let p0 := 0xD2511F53 * c.1
  let p1 := 0xCD9E8D57 * c.2.2.1
  ((p1 / 2 ^ 32) ^^^ c.2.1 ^^^ k0, p1 % 2 ^ 32, (p0 / 2 ^ 32) ^^^ c.2.2.2 ^^^ k1, p0 % 2 ^ 32)

/-- Ten rounds, the key advancing between them. -/
def philox : Nat → Nat × Nat × Nat × Nat → Nat → Nat → Nat × Nat × Nat × Nat
  | 0, c, _, _ => c
  | n + 1, c, k0, k1 =>
    philox n (philoxRound c k0 k1) ((k0 + 0x9E3779B9) % 2 ^ 32) ((k1 + 0xBB67AE85) % 2 ^ 32)

/-- The random word of an element (Table 3-4). -/
def srWord (seed : BitVec 64) (step layer site e : Nat) : Nat :=
  let w := philox 10 (bits e 33 2, layer % 65536 * 65536 + site % 16 * 4096 + bits e 45 34, step % 2 ^ 32, 0)
    (seed.toNat % 2 ^ 32) (seed.toNat / 2 ^ 32)
  match e % 4 with
  | 0 => w.1
  | 1 => w.2.1
  | 2 => w.2.2.1
  | _ => w.2.2.2

/-! ### Tensor formats (Table 5-17) -/

/-- Bits of one element of a format. -/
def elemBits (f : Nat) : Nat :=
  match f with
  | 0x01 | 0x02 | 0x09 | 0x0A | 0x10 | 0x11 | 0x12 | 0x30 => 8
  | 0x03 | 0x04 | 0x13 | 0x14 => 6
  | 0x05 | 0x15 => 4
  | 0x06 | 0x07 => 16
  | 0x08 | 0x0B => 32
  | 0x0C => 1
  | 0x0D => 128
  | _ => 16

/-- Bytes of an area of `n` elements of a format (R58, Table 3-2). -/
def elemsBytes (f n : Nat) : Nat := (elemBits f * n + 7) / 8

/-- The floating-point format of an element code, none for the integer and untyped formats. -/
def floatOf (f : Nat) : Option FFmt :=
  match f with
  | 0x01 | 0x10 => some e4m3
  | 0x02 | 0x11 => some e5m2
  | 0x03 | 0x13 => some e2m3
  | 0x04 | 0x14 => some e3m2
  | 0x05 | 0x15 => some e2m1
  | 0x06 => some bf16
  | 0x07 => some fp16
  | 0x08 => some fp32
  | _ => none

/-- An INT8 element of MXINT8. -/
def isInt8 (f : Nat) : Bool := f == 0x09 || f == 0x12

/-- An MX format. -/
def isMx (f : Nat) : Bool := decide (0x10 ≤ f) && decide (f ≤ 0x15)

/-- e_bound of an element format (Table 3-1). -/
def eBound (f : Nat) : Int :=
  if isInt8 f then 1 else match floatOf f with
    | some x => x.emax
    | none => 0

/-- A signed integer of `n` bits. -/
def signedOf (n v : Nat) : Int := if v.testBit (n - 1) then (v : Int) - 2 ^ n else v

/-- Value of an element's bits, without a block scale. -/
def elemValue (f v : Nat) : Num :=
  if isInt8 f then .fin (signedOf 8 v) (-6)
  else match floatOf f with
    | some x => decodeF x v
    | none =>
      if f = 0x0A then .fin (signedOf 8 v) 0
      else if f = 0x0B then .fin (signedOf 32 v) 0
      else .fin v 0

/-- Convert a value to an unscaled element format. Formats outside Table 3-1 have no stated conversion: a
free value (log entry 40). -/
def toElem (f : Nat) (sat : Bool) (mode : Mode) (x : Num) : Conv :=
  if f = 0x09 then
    match x with
    | .fin m e =>
      let n := roundInt mode m.natAbs 1 (e + 6)
      let c := min n 127
      ⟨if m < 0 then (256 - c) % 256 else c, decide (127 < n)⟩
    | .nan => ⟨Config.freeElem 0 6 0, false⟩
    | .inf s => ⟨Config.freeElem 0 6 (1 + b2n s), false⟩
  else match floatOf f with
    | some g => convF g sat mode x
    | none => ⟨Config.freeElem f (toW x).toNat 3 % 2 ^ elemBits f, false⟩

/-! ### MX blocks (R58, R61) and block bounds (R66, R67) -/

/-- A block's scale applied. -/
def scaled (scale : Nat) (x : Num) : Num :=
  if scale = 255 then .nan else match x with
    | .fin m e => .fin m (e + scale - 127)
    | y => y

/-- Largest finite magnitude's ⌊log2⌋ over a list, none if every finite value is zero. -/
def topLog (l : List Num) : Option Int :=
  l.foldl (fun acc x => match x with
    | .fin m e => if m = 0 then acc else match acc with
      | none => some (magLog m e)
      | some k => some (max k (magLog m e))
    | _ => acc) none

/-- A max_exp byte (R144, R185): the order as a signed byte, −128 for none; an order below −128 has none (log entry 100). -/
def maxExpByte (top : Int) : Byte := if top < -128 then Config.lowExp top else ofSByte top

/-- emax of R61. -/
def mxEmax (f : Nat) : Int := if isInt8 f then 0 else eBound f

/-- One element of an MX block at exponent `s`. -/
def mxElem (f : Nat) (s : Int) (mode : Mode) : Num → Nat
  | .fin m e =>
    if isInt8 f then
      let n := min (roundInt mode m.natAbs 1 (e - s + 6)) 127
      if m < 0 then (256 - n) % 256 else n
    else match floatOf f with
      | some g =>
        let r := toGrid g mode m.natAbs 1 (e - s)
        if beyond g r.1 r.2 then topBits g (decide (m < 0)) else gridBits g (decide (m < 0)) r.1 r.2
      | none => 0
  | _ => 0

/-- Quantise one block: scale byte and element bits. `modes` gives each element its rounding mode. -/
def quantiseMx (f : Nat) (modes : Nat → Mode) (xs : List Num) : Nat × List Nat :=
  if xs.any fun x => !x.finite then (255, xs.map fun _ => 0)
  else match topLog xs with
    | none => (0, xs.map fun _ => 0)
    | some k =>
      let s := max (-127) (min (k - mxEmax f) 127)
      ((s + 127).toNat, (List.range xs.length).map fun i => mxElem f s (modes i) (xs.getD i .zero))

/-- Summary byte of a block (R66). -/
def summaryOf (xs : List Num) : Nat :=
  if xs.any fun x => !x.finite then 255
  else match topLog xs with
    | none => 0
    | some k => (min 254 (max 0 (k + 127))).toNat

/-- Bound exponent of a block (R67): none where the block sets no bound. -/
def blockBound (f byte : Nat) : Option Int :=
  if isMx f then (if byte = 255 then none else some ((byte : Int) - 127 + eBound f))
  else if byte = 255 then some (eBound f)
  else some ((byte : Int) - 127)

/-- The largest bound over a row or column, −127 with none. -/
def rowBound (f : Nat) (l : List Nat) : Int :=
  (l.foldl (fun acc b => match blockBound f b, acc with
    | none, a => a
    | some x, none => some x
    | some x, some y => some (max x y)) (none : Option Int)).getD (-127)

/-! ### Accumulation windows (R68 to R77) -/

/-- A window as kept and as a record holds it (Table 3-7). -/
structure Win where
  w : Int
  anchor : Int
  nan : Bool
  posInf : Bool
  negInf : Bool
  residue : Nat
  deriving DecidableEq, Repr

/-- An empty window at an anchor. -/
def Win.empty (t : Int) : Win := ⟨0, t, false, false, false, 0⟩

/-- RNE of a signed m · 2^k. -/
def roundSigned (m k : Int) : Int :=
  let n := roundInt .rne m.natAbs 1 k
  if m < 0 then -(n : Int) else n

/-- Enter one product (R69, R76). A product that reaches 2^T sets the nan flag and is a bound violation (R73). -/
def Win.enter (x : Win) (a b : Num) : Win × Bool :=
  match mulX a b with
  | .nan => ({ x with nan := true }, false)
  | .inf s => (if s then { x with negInf := true } else { x with posInf := true }, false)
  | .fin q t =>
    let hit := decide (q ≠ 0) && decide (x.anchor ≤ magLog q t)
    let p := roundSigned q (t - (x.anchor - 72))
    ({ x with w := x.w + p, residue := (x.residue + (p % 127).toNat) % 127, nan := x.nan || hit }, hit)

/-- Load a record into a window (R74): its anchor is the window's, or the nan flag is set. -/
def Win.load (x r : Win) : Win × Bool :=
  let y := { x with
    w := x.w + r.w, residue := (x.residue + r.residue) % 127, nan := x.nan || r.nan, posInf := x.posInf || r.posInf,
    negInf := x.negInf || r.negInf }
  if r.anchor = x.anchor then (y, false) else ({ y with nan := true }, true)

/-- W as the 96-bit register holds it (R68): only a faulty record can take it beyond. -/
def Win.wrapped (x : Win) : Win := { x with w := signedOf 96 (x.w % 2 ^ 96).toNat }

/-- The residue of W (R76). -/
def Win.residueOk (x : Win) : Bool := x.residue == (x.w % 127).toNat

/-- A non-finite flag is set. -/
def Win.flagged (x : Win) : Bool := x.nan || x.posInf || x.negInf

/-- The value that an element drains as (R71, Table 3-6). -/
def Win.value (x : Win) : Num :=
  if x.nan || (x.posInf && x.negInf) then .nan
  else if x.posInf then .inf false
  else if x.negInf then .inf true
  else .fin x.w (x.anchor - 72)

/-- A record's 16 bytes as a number (Table 3-7). -/
def Win.record (x : Win) : Nat :=
  (x.w % 2 ^ 96).toNat + (x.anchor % 1024).toNat * 2 ^ 96 + b2n x.nan * 2 ^ 106 + b2n x.posInf * 2 ^ 107 +
    b2n x.negInf * 2 ^ 108 + x.residue * 2 ^ 112

/-- Read a record. -/
def Win.ofRecord (v : Nat) : Win :=
  { w := signedOf 96 (bits v 95 0), anchor := signedOf 10 (bits v 105 96), nan := bitOf v 106, posInf := bitOf v 107,
    negInf := bitOf v 108, residue := bits v 118 112 % 127 }

/-! ### Function tables (R84 to R87, R433) -/

/-- log2 e and ln 2 as the nearest multiples of 2^−48 (R86). -/
def log2eHeld : Int := 406082553034800
def ln2Held : Int := 195103586505167

/-- The segment polynomial at u. -/
def segEval (t : FnTable) (k : Nat) (u : Num) : Num :=
  let c := t.segs.getD k (0, 0, 0, 0)
  ffma (ffma (ffma (ofW c.2.2.2) u (ofW c.2.2.1)) u (ofW c.2.1)) u (ofW c.1)

/-- Floor of a finite value. -/
def nfloor : Num → Int
  | .fin m e => if 0 ≤ e then m * 2 ^ e.toNat else m.fdiv (2 ^ (-e).toNat)
  | _ => 0

/-- 256 ÷ (hi − lo), exact for the widths that R84 allows. -/
def invH (t : FnTable) : Num :=
  match addX (ofW t.hi) (nneg (ofW t.lo)) with
  | .fin m e => if 0 < m then .fin 1 (8 - magLog m e) else .zero
  | _ => .zero

/-- A tail: a · x + b, with its limit at an infinity (R85). -/
def tailAt (a b x : Num) : Num :=
  if x.finite then ffma a x b else if a.isZero then b else fmul a x

/-- Uniform tables (mode 0). -/
def evalUniform (t : FnTable) (x : Num) : Num :=
  let flip := (t.flags.getLsbD 1 || t.flags.getLsbD 2) && x.isNeg
  let y := if flip then nneg x else x
  let sg (v : Num) : Num := if flip && t.flags.getLsbD 1 then nneg v else v
  if nlt y (ofW t.lo) then sg (tailAt (ofW t.belowA) (ofW t.belowB) y)
  else if !(nlt y (ofW t.hi)) then sg (tailAt (ofW t.aboveA) (ofW t.aboveB) y)
  else
    let v := fmul (fsub y (ofW t.lo)) (invH t)
    let k := min (nfloor v) 255
    sg (segEval t k.toNat (addX v (.fin (-k) 0)))

/-- Inputs that a reduction mode settles itself (Table 4-11). -/
def settled (mode : Nat) (x : Num) : Option Num :=
  match mode with
  | 1 =>
    if x = .inf false ∨ !(nlt x (.fin 1024 0)) then some (.inf false)
    else if x = .inf true ∨ !(nlt (.fin (-1024) 0) x) then some .zero
    else none
  | 2 => if x.isNeg then some .nan else if x.isZero then some (.inf true) else if x.finite then none else some (.inf false)
  | 3 => if x.isZero then some (.inf false) else if x.finite then none else some .zero
  | _ => if x.isNeg then some .nan else if x.isZero then some (.inf false) else if x.finite then none else some .zero

/-- The reductions of R86 on a finite input (Table 4-3). -/
def reduceFin (t : FnTable) (m e : Int) : Num :=
  if t.mode = 1 then
    let y := roundSigned (m * log2eHeld) e
    let n := y.fdiv (2 ^ 48)
    let f := y - n * 2 ^ 48
    let k := (256 * f).fdiv (2 ^ 48)
    match segEval t k.toNat (r32 (.fin (256 * f - k * 2 ^ 48) (-48))) with
    | .fin v w => r32 (.fin v (w + n))
    | v => v
  else
    let g := magLog m e
    let a := m.natAbs
    let lg : Int := Nat.log2 a
    if t.mode = 4 then
      let ev := if g % 2 = 0 then g else g - 1
      let half := (g % 2 ≠ 0 : Bool)
      -- x = mm · 2^ev, 1 ≤ mm < 4; mm = a · 2^(−lg) or twice that
      let base : Num := if half then .fin (2 * a) (-lg) else .fin a (-lg)
      let y := if half then mulX (.fin 64 0) (addX base (.fin (-2) 0)) else mulX (.fin 128 0) (addX base (.fin (-1) 0))
      let k := nfloor y
      let u := addX y (.fin (-k) 0)
      match segEval t ((if half then 128 else 0) + k.toNat) u with
      | .fin v w => r32 (.fin v (w - ev / 2))
      | v => v
    else
      let y := mulX (.fin 256 0) (addX (.fin a (-lg)) (.fin (-1) 0))
      let k := nfloor y
      let v := segEval t k.toNat (addX y (.fin (-k) 0))
      if t.mode = 2 then r32 (addX v (.fin (g * ln2Held) (-48)))
      else match v with
        | .fin n w => r32 (.fin (if m < 0 then -n else n) (w - g))
        | z => if m < 0 then nneg z else z

/-- Evaluate a table (R85). -/
def evalTable (t : FnTable) (x : Num) : Num :=
  if x = .nan then .nan
  else if t.mode = 0 then evalUniform t x
  else match settled t.mode x, x with
    | some v, _ => v
    | none, .fin m e => reduceFin t m e
    | none, y => y

/-- Special inputs of the built-in pairs (Table 4-4): none where the table decides. The derivatives of log, reciprocal and rsqrt
are 1/x, −1/x² and −x^(−3/2)/2: zero at the infinities at which they are defined. -/
def builtinSpecial (pair : Nat) (deriv : Bool) (x : Num) : Option Num :=
  let lo : Num := if pair = 4 ∧ !deriv then .fin (-1) 0 else if (pair = 7 ∨ pair = 9) ∧ !deriv then .nan else .zero
  let hi : Num :=
    if deriv then (if pair ≤ 2 ∨ pair = 5 then .one else if pair = 6 then .inf false else .zero)
    else if pair = 3 ∨ pair = 4 then .one
    else if pair = 8 ∨ pair = 9 then .zero
    else .inf false
  match x with
  | .nan => some .nan
  | .inf true => some (if deriv ∧ pair = 9 then .nan else lo)
  | .inf false => some hi
  | .fin m _ =>
    if pair = 7 then
      (if m = 0 then some (.inf (!deriv)) else if m < 0 ∧ !deriv then some .nan else none)
    else if pair = 8 then (if m = 0 then some (.inf deriv) else none)
    else if pair = 9 then (if m = 0 then some (.inf deriv) else if m < 0 then some .nan else none)
    else none

end Sys2Proof.Machine
end

