-- ==== Sys2Proof/Machine/Tensors.lean ====
section
/-! DEFINITION. Tensors in memory: logical order (R108), units of 32 along the K axis (R153), blocks and their
placements (R110), element reads and writes, MX scales and the summary bytes of R66. Where an element lies inside a
placement entry is log entry 48's. -/

namespace Sys2Proof.Machine

open Sys2Proof

/-! ### Logical order -/

/-- Elements of a tensor. -/
def elemsOf (t : Tensor) : Nat := t.dims.foldl (· * ·) 1

/-- Size of a tensor along its K axis. -/
def kExtent (t : Tensor) : Nat := t.dims.getD t.kAxis 1

/-- Rows of a matrix operand: the indices over every other dimension. -/
def rowsOf (t : Tensor) : Nat := elemsOf t / kExtent t

/-- The tensor with another size along its K axis: units and rows are counted in it. -/
def withK (t : Tensor) (n : Nat) : Tensor := { t with dims := t.dims.set t.kAxis n }

/-- Units of 32 along the K axis, per row. -/
def kUnits (t : Tensor) : Nat := (kExtent t + 31) / 32

/-- Coordinates of a logical index, from the innermost dimension of `order` outwards. -/
def peel (dims : List Nat) : List Nat → Nat → List Nat → List Nat
  | [], _, c => c
  | d :: l, e, c => peel dims l (e / dims.getD d 1) (c.set d (e % dims.getD d 1))

/-- Coordinates of a logical index, by dimension number. -/
def coordsOf (t : Tensor) (e : Nat) : List Nat := peel t.dims t.order.reverse e [0, 0, 0, 0]

/-- Logical index of coordinates. -/
def indexOf (t : Tensor) (c : List Nat) : Nat := t.order.foldl (fun acc d => acc * t.dims.getD d 1 + c.getD d 0) 0

/-- Logical index of row `r`, position `k` on the K axis. -/
def atRow (t : Tensor) (r k : Nat) : Nat := indexOf t ((coordsOf (withK t 1) r).set t.kAxis k)

/-- Unit of an element. -/
def unitOf (t : Tensor) (e : Nat) : Nat :=
  let c := coordsOf t e
  indexOf (withK t (kUnits t)) (c.set t.kAxis (c.getD t.kAxis 0 / 32))

/-- Elements of a unit, in K order. -/
def unitElems (t : Tensor) (u : Nat) : List Nat :=
  let c := coordsOf (withK t (kUnits t)) u
  let k0 := 32 * c.getD t.kAxis 0
  (List.range (min 32 (kExtent t - k0))).map fun j => indexOf t (c.set t.kAxis (k0 + j))

/-- Units of a tensor. -/
def unitsOf (t : Tensor) : Nat := rowsOf t * kUnits t

/-- Size of the innermost dimension that has more than one index. -/
def innerSize (t : Tensor) : Nat := ((t.order.reverse.map fun d => t.dims.getD d 1).find? fun n => decide (1 < n)).getD 1

/-! ### Blocks and placements -/

/-- 64 × 64 blocks of a tensor's two-dimensional logical view. -/
def gridBlocks (t : Tensor) : Nat := ((elemsOf t / innerSize t + 63) / 64) * ((innerSize t + 63) / 64)

/-- Placement entries of a tensor in force, by block index. -/
def placesOf (c : Chart) (x : Installed) (id : Nat) : List Placement :=
  (c.placements.filter fun p => p.tensorId == id).map fun p => (placementOf c x id p.block).getD p

/-- Result buffers of 17,216 bytes that an entry holds (R198; their layout is log entry 100's). -/
def buffersIn (p : Placement) : Nat := 64 * p.lines / 17216

/-- Memory key of a result buffer, by its number over a tensor's entries. -/
def bufferKey (i : Slot) : List Placement → Nat → Option Nat
  | [], _ => none
  | p :: l, k => if k < buffersIn p then some (placeKey i p + 17216 * k) else bufferKey i l (k - buffersIn p)

/-- A tensor's entries are its 64 × 64 blocks. -/
def isGrid (c : Chart) (t : Tensor) : Bool := decide ((c.placements.filter fun p => p.tensorId == t.id).length = gridBlocks t)

/-- Block of an element and its position in that block, for a tensor laid in 64 × 64 blocks. -/
def gridPlace (t : Tensor) (e : Nat) : Nat × Nat :=
  let w := innerSize t
  let r := e / w
  let k := e % w
  let bw := min 64 (w - k / 64 * 64)
  (r / 64 * ((w + 63) / 64) + k / 64, r % 64 * bw + k % 64)

/-- Entry that holds position `n` of consecutive elements of `bits` each, with the position in it. -/
def runPlace (bits : Nat) : List Placement → Nat → Option (Placement × Nat)
  | [], _ => none
  | p :: l, n => let cap := 512 * p.lines / bits; if n < cap then some (p, n) else runPlace bits l (n - cap)

/-- Entry and position of an element stored with `bits` each. -/
def elemPlace (c : Chart) (x : Installed) (t : Tensor) (bits e : Nat) : Option (Placement × Nat) :=
  if isGrid c t then
    let g := gridPlace t e
    (placementOf c x t.id g.1).map fun p => (p, g.2)
  else runPlace bits (placesOf c x t.id) e

/-! ### Bits in memory -/

/-- Read `n` bits from bit `b` of the bytes at a key. -/
def readBits (m : List Host.Cell) (key b n : Nat) : Nat :=
  leNat (readBytes m (key + b / 8) ((b % 8 + n + 7) / 8)) / 2 ^ (b % 8) % 2 ^ n

/-- Write `n` bits at bit `b` of the bytes at a key. -/
def writeBits (m : List Host.Cell) (key b n v : Nat) : List Host.Cell :=
  let k := key + b / 8
  let len := (b % 8 + n + 7) / 8
  let old := leNat (readBytes m k len)
  let low := old % 2 ^ (b % 8)
  let high := old / 2 ^ (b % 8 + n)
  writeBytes m k (toLe len (low + (v % 2 ^ n) * 2 ^ (b % 8) + high * 2 ^ (b % 8 + n)))

/-- Where a Chart runs: slot, Chart, what is in force, and the gradient level of each gradient-format tensor (log entry 52). -/
structure Site where
  slot : Slot
  chart : Chart
  inst : Installed
  level : Nat → Nat

/-- Gradient format of a level (06, The format ledger). -/
def gradFormat (level : Nat) : Nat := if level = 0 then 0x02 else if level = 1 then 0x10 else 0x06

/-- Format in force of a tensor. -/
def Site.format (y : Site) (t : Tensor) : Nat := if t.format = 0x20 then gradFormat (y.level t.id) else t.format

/-- Bits of an element, zero where no entry holds it (log entry 48). -/
def readElem (y : Site) (m : List Host.Cell) (t : Tensor) (e : Nat) : Nat :=
  let n := elemBits (y.format t)
  match elemPlace y.chart y.inst t n e with
  | some (p, k) => readBits m (placeKey y.slot p) (k * n) n
  | none => 0

/-- Write an element's bits where its entry satisfies `here`. -/
def writeElem (y : Site) (here : Placement → Bool) (t : Tensor) (e v : Nat) (m : List Host.Cell) : List Host.Cell :=
  let n := elemBits (y.format t)
  match elemPlace y.chart y.inst t n e with
  | some (p, k) => if here p then writeBits m (placeKey y.slot p) (k * n) n v else m
  | none => m

/-- Any entry. -/
def anywhere (_ : Placement) : Bool := true

/-- An entry in a tile's own SRAM or the deck beneath it. -/
def atTile (t : Nat) (p : Placement) : Bool := decide (p.kind ≤ 2) && 72 * p.grow + p.gcol == t

/-- Read byte `u` of a side tensor (scales or summaries). -/
def readSide (y : Site) (m : List Host.Cell) (id u : Nat) : Nat :=
  match tensorOf y.chart id with
  | some t => readElem y m t u
  | none => 0

/-- Write byte `u` of a side tensor. -/
def writeSide (y : Site) (id u v : Nat) (m : List Host.Cell) : List Host.Cell :=
  match tensorOf y.chart id with
  | some t => writeElem y anywhere t u v m
  | none => m

/-- Bound byte of an element's block: its MX scale, or the summary byte beside the tensor (R66). -/
def boundByte (y : Site) (m : List Host.Cell) (t : Tensor) (e : Nat) : Nat :=
  readSide y m (if isMx (y.format t) then t.scaleId else t.summaryId) (unitOf t e)

/-- Value of an element. -/
def elemNum (y : Site) (m : List Host.Cell) (t : Tensor) (e : Nat) : Num :=
  let f := y.format t
  let v := elemValue f (readElem y m t e)
  if isMx f then scaled (readSide y m t.scaleId (unitOf t e)) v else v

/-- Values of a list of elements. -/
def elemNums (y : Site) (m : List Host.Cell) (t : Tensor) (l : List Nat) : List Num := l.map fun e => elemNum y m t e

/-! ### Writes that keep scales and summaries (R61, R66) -/

/-- Summary byte of a unit, recomputed where the tensor carries one in SRAM (R66). -/
def refreshSummary (y : Site) (t : Tensor) (u : Nat) (m : List Host.Cell) : List Host.Cell :=
  if hasSummary' t.format && !(isMx (y.format t)) then
    writeSide y t.summaryId u (summaryOf ((unitElems t u).map fun e => elemValue (y.format t) (readElem y m t e))) m
  else m
where
  hasSummary' (f : Nat) : Bool := (decide (1 ≤ f) && decide (f ≤ 9)) || f == 0x20

/-- Row and column of an element in its tensor's two-dimensional logical view. -/
def at2 (t : Tensor) (e : Nat) : Nat × Nat := (e / innerSize t, e % innerSize t)

/-- Elements noted first, each code once. -/
def joinFirst (a b : List (Nat × Nat × Nat)) : List (Nat × Nat × Nat) := a ++ b.filter fun x => !(a.any fun y => y.1 == x.1)

/-- Note an element under a code if its count is not zero. -/
def noteFirst (code n : Nat) (p : Nat × Nat) (l : List (Nat × Nat × Nat)) : List (Nat × Nat × Nat) := if n = 0 then l else joinFirst l [(code, p)]

/-- Units that a list of elements touches, each once. -/
def unitsTouched (t : Tensor) (l : List Nat) : List Nat := l.foldl (fun acc e => insertNew acc (unitOf t e)) []

/-- Rounding of a cue: mode code, and the random word of an element (R59, R63). -/
structure Rounding where
  mode : Nat
  sat : Bool
  word : Nat → Nat

/-- The mode for element `e`. -/
def Rounding.at (r : Rounding) (e : Nat) : Mode := if r.mode = 1 then .rtz else if r.mode = 2 then .sr (r.word e) else .rne

/-- A value is written non-finite without a finite overflow. -/
def nonfiniteOut (x : Num) (ovf : Bool) : Nat := b2n (!x.finite && !ovf)

/-- Write values to elements of a tensor, converting to its format under R60 or R61. MX blocks are quantised from the
values given for their elements; elements of a block that are not given keep their values. -/
def writeNums (y : Site) (here : Placement → Bool) (r : Rounding) (t : Tensor) (l : List (Nat × Num)) (m : List Host.Cell) :
    List Host.Cell × Tally :=
  let f := y.format t
  let units := unitsTouched t (l.map Prod.fst)
  if isMx f then
    units.foldl (fun (acc : List Host.Cell × Tally) u =>
      let es := unitElems t u
      let xs := es.map fun e => (find? l e).getD (elemNum y acc.1 t e)
      let q := quantiseMx f (fun i => r.at (es.getD i 0)) xs
      let m' := (List.range es.length).foldl (fun m i => writeElem y here t (es.getD i 0) (q.2.getD i 0) m) acc.1
      (writeSide y t.scaleId u q.1 m',
        { acc.2 with
          nonfinite := acc.2.nonfinite + (if q.1 = 255 then es.length else 0),
          first := noteFirst 0x040F (if q.1 = 255 then 1 else 0) (at2 t (es.headD 0)) acc.2.first })) (m, {})
  else
    let out := l.foldl (fun (acc : List Host.Cell × Tally) p =>
      let v := toElem f r.sat (r.at p.1) p.2
      (writeElem y here t p.1 v.bits acc.1,
        { acc.2 with
          overflow := acc.2.overflow + b2n v.overflow,
          nonfinite := acc.2.nonfinite + nonfiniteOut (elemValue f v.bits) v.overflow,
          first := noteFirst 0x040D (b2n v.overflow) (at2 t p.1) (noteFirst 0x040F (nonfiniteOut (elemValue f v.bits) v.overflow) (at2 t p.1) acc.2.first) })) (m, {})
    (units.foldl (fun m u => refreshSummary y t u m) out.1, out.2)

/-- Write FP32 values without a count (running state of a kernel). -/
def writeState (y : Site) (t : Tensor) (l : List (Nat × Num)) (m : List Host.Cell) : List Host.Cell :=
  (writeNums y anywhere { mode := 0, sat := false, word := fun _ => 0 } t l m).1

/-- Recompute the summary bytes of the units with an element in one of a tensor's entries (R66). -/
def refreshBlocks (y : Site) (t : Tensor) (here : Placement → Bool) (m : List Host.Cell) : List Host.Cell :=
  let held (e : Nat) : Bool := match elemPlace y.chart y.inst t (elemBits (y.format t)) e with
    | some p => decide (p.1.kind ≤ 2) && here p.1
    | none => false
  ((List.range (unitsOf t)).filter fun u => (unitElems t u).any held).foldl (fun m u => refreshSummary y t u m) m

/-- Copy an entry's bytes from one block to another (R434). -/
def copyPlace (i : Slot) (src dst : Placement) (m : List Host.Cell) : List Host.Cell :=
  writeBytes m (placeKey i dst) (readBytes m (placeKey i src) (64 * min src.lines dst.lines))

end Sys2Proof.Machine
end

