-- ==== Sys2Proof/Machine/Checks.lean ====
section
/-! DEFINITION. Checks 4 to 9 of the loader (Table 5-11): regions, routes, tables, tensors, placements, the cue
check of R124, claims, collectives, the power plan, variants, and what the context allows. -/

namespace Sys2Proof.Machine

open Sys2Proof

/-! ### Check 4: regions and wings (R104, R105) -/

/-- A rectangle is inverted. -/
def inverted (c0 r0 c1 r1 : Nat) : Bool := decide (c1 < c0) || decide (r1 < r0)

/-- Two rectangles share a tile. -/
def rectsMeet (a b : Region) : Bool :=
  decide (a.col0 ≤ b.col1) && decide (b.col0 ≤ a.col1) && decide (a.row0 ≤ b.row1) && decide (b.row0 ≤ a.row1)

/-- Dies that a rectangle touches (Table 5-1). -/
def rectDies (c0 r0 c1 r1 : Nat) : List DieId :=
  allDies.filter fun (d : DieId) =>
    decide (c0 / 12 ≤ d.val % 6) && decide (d.val % 6 ≤ c1 / 12) && decide (r0 / 12 ≤ d.val / 6) && decide (d.val / 6 ≤ r1 / 12)

/-- Number whose bits are the members of a list. -/
def maskOf (l : List Nat) : Nat := l.foldl (fun m i => m ||| 2 ^ i) 0

/-- A region record is at fault (R104); of two records that share an identifier or a tile both are. -/
def regionFault (c : Chart) (r : Region) : Bool :=
  let ds := rectDies r.col0 r.row0 r.col1 r.row1
  inverted r.col0 r.row0 r.col1 r.row1 || decide (1 < (c.regions.filter fun x => x.id == r.id || rectsMeet x r).length) ||
    !(maskOf (ds.map fun d => d.val) == r.dieMask.toNat) || !(maskOf (ds.map fun d => (zoneOfDie d).val) == r.zoneMask.toNat) ||
    ds.any fun (d : DieId) => !(c.dieMask.getLsbD d)

/-- A tile lies in some region. -/
def inRegions (c : Chart) (t : Nat) : Bool := c.regions.any fun r => inRect r.col0 r.row0 r.col1 r.row1 t

/-- Some region is protected (R105, R112). -/
def anyProtected (c : Chart) : Bool := c.protectAll || c.regions.any fun r => r.isProtected

/-- Wings tiles of a die. -/
def wingsOf (c : Chart) (d : DieId) : List Nat := (List.range 5184).filter fun t => dieOfTile t == d && !(inRegions c t)

/-- Index of the first cue record of each tile, in the order of the CUE directory. -/
def cueStarts : Nat → List (Nat × List Cue) → List (Nat × Nat)
  | _, [] => []
  | n, (t, l) :: r => (t, n) :: cueStarts (n + l.length) r

/-- Dies with fewer than eight wings tiles (R105), a row of their own in Table 5-26. -/
def narrowDies (c : Chart) : List Fault3 :=
  (allDies.filter fun (d : DieId) => c.dieMask.getLsbD d && decide ((wingsOf c d).length < 8)).map fun d => (secOf c 1, d.val)

/-- Records of the main Chart that name a wings tile (R105). A route that comes from the edge has no end at its first router. -/
def wingsFaults (c : Chart) : List Fault3 :=
  ((cueStarts 0 c.cues).filter fun p => !(inRegions c p.1)).map (fun p => (secOf c 7, p.2)) ++
    badAt (secOf c 5) (fun p => decide (p.kind ≤ 2) && !(inRegions c (72 * p.grow + p.gcol))) c.placements ++
    badAt (secOf c 2) (fun r => (routeEnds r).any fun t => !(inRegions c t)) c.routes

/-- The first refusal of a list of rows. -/
def firstOf (l : List (Option Refused)) : Option Refused := l.findSome? id

/-- Check 4. -/
def check4 (c : Chart) : Option Refused :=
  firstOf [refuseAt 0x0210 (badAt (secOf c 1) (regionFault c) c.regions),
    if anyProtected c then refuseIn 0x0211 (narrowDies c) else none,
    if anyProtected c then refuseIn 0x0211 (wingsFaults c) else none]

/-! ### Check 5: routes (R106, R122) -/

/-- The neighbour router behind an output port north, east, south or west. -/
def neighbour (c r d : Nat) : Option (Nat × Nat) :=
  match d with
  | 0 => if r < 71 then some (c, r + 1) else none
  | 1 => if c < 71 then some (c + 1, r) else none
  | 2 => if 0 < r then some (c, r - 1) else none
  | 3 => if 0 < c then some (c - 1, r) else none
  | _ => none

/-- The port that faces the other way. -/
def facing (d : Nat) : Nat := (d + 2) % 4

/-- Neighbour outputs of a hop. -/
def outDirs (h : Hop) : List Nat := (List.range 4).filter fun d => h.outMask.getLsbD d

/-- An edge side bit names a connected edge port of the router (Table 2-3). -/
def edgeConnected (gcol grow : Nat) (side : Bool) : Bool :=
  (edgeUnit { router := tileAt gcol grow, dir := Fin.ofNat 6 (4 + b2n side) }).isSome

/-- A hop is reached through an out port of an earlier hop, and names that link's port. -/
def reached (before : List Hop) (h : Hop) : Bool :=
  before.any fun b => (outDirs b).any fun d => neighbour b.gcol b.grow d == some (h.gcol, h.grow) && h.inPort == facing d

/-- Hops from the position behind `before` on keep R106. A hop without an output is refused with the others (DESIGN CHOICE: the
rule names no code for it, log entry 83). -/
def hopsOk (before : List Hop) : List Hop → Bool
  | [] => true
  | h :: l =>
    (if before.isEmpty then decide (4 ≤ h.inPort) else reached before h) &&
      !(before.any fun b => b.gcol == h.gcol && b.grow == h.grow) && !(h.outMask == 0) &&
      ((outDirs h).all fun d => (neighbour h.gcol h.grow d).isSome) &&
      (!(h.inPort == 5) || edgeConnected h.gcol h.grow h.inEdge) &&
      (!(h.outMask.getLsbD 5) || edgeConnected h.gcol h.grow h.outEdge) && hopsOk (before ++ [h]) l

/-- Routes of a list at fault under R106. -/
def routeFault (l : List Route) (r : Route) : Bool := !(hopsOk [] r.hops) || decide (1 < (l.filter fun x => x.id == r.id).length)

/-- A channel of R122: router, output port, VC. -/
abbrev Chan := Nat × Nat × Nat

/-- Dependencies that one route carries (R122). -/
def routeDeps (r : Route) : List (Chan × Chan) :=
  (r.hops.drop 1).flatMap fun h =>
    match neighbour h.gcol h.grow h.inPort with
    | none => []
    | some up => (outDirs h).map fun d => ((72 * up.2 + up.1, facing h.inPort, r.vc), (72 * h.grow + h.gcol, d, r.vc))

/-- Channels that a set of channels leads to in one step more. -/
def growReach (deps : List (Chan × Chan)) (l : List Chan) : List Chan :=
  deps.foldl (fun acc d => if acc.contains d.1 then insertNew acc d.2 else acc) l

/-- Channels that a channel leads to. -/
def reachFrom (deps : List (Chan × Chan)) : Nat → List Chan → List Chan
  | 0, l => l
  | n + 1, l => reachFrom deps n (growReach deps l)

/-- Dependencies on a cycle. -/
def cyclic (deps : List (Chan × Chan)) : List (Chan × Chan) :=
  deps.filter fun d => (reachFrom deps deps.length [d.2]).contains d.1

/-- Routes that carry a dependency on a cycle of a route set. -/
def cycleRoutes (l : List Route) : List Route :=
  let bad := cyclic (l.flatMap routeDeps)
  l.filter fun r => (routeDeps r).any fun d => bad.contains d

/-- The route set of a variant (R111, R122). -/
def variantRoutes (c : Chart) (v : Variant) : List Route :=
  (c.routes.filter fun r => !(v.routes.any fun x => x.id == r.id)) ++ v.routes

/-- The Chart as it stands with one variant in use: its region moved, and the records that the variant replaces (R111). -/
def variantChart (c : Chart) (v : Variant) : Chart :=
  let vs := [(v.regionId, v.id)]
  { c with
    regions := c.regions.map fun r => if r.id == v.regionId then { r with col0 := v.col0, row0 := v.row0, col1 := v.col1, row1 := v.row1 } else r,
    widthMap := v.widthMap.getD c.widthMap, routes := variantRoutes c v, placements := placementsIn c vs,
    cues := (List.range 5184).filterMap fun t => let l := cuesIn c vs t; if l.isEmpty then none else some (t, l) }

/-- Faults that only show with a variant in use, at the variant's record; the main Chart's own are reported at their records. -/
def variantOnly (c : Chart) (mainClean : Bool) (bad : Chart → Bool) : List Fault3 :=
  if mainClean then badAt (secOf c 6) (fun v => bad (variantChart c v)) c.variants else []

/-- Check 5: the main Chart's graph before those of the variants (R122). -/
def check5 (c : Chart) : Option Refused :=
  let bad := cycleRoutes c.routes
  firstOf [
    refuseAt 0x0212 (badAt (secOf c 2) (routeFault c.routes) c.routes ++ badAt (secOf c 6) (fun v => v.routes.any (routeFault v.routes)) c.variants),
    refuseAt 0x0213 (badAt (secOf c 2) (fun r => bad.contains r) c.routes),
    refuseAt 0x0213 (badAt (secOf c 6) (fun v => !(cycleRoutes (variantRoutes c v)).isEmpty) c.variants)]

/-- Channels of the refused cycle, for the Log (R122): of the main Chart's graph, or else of the first variant's that has one. -/
def cycleChannels (c : Chart) : List Chan :=
  let chans (l : List Route) : List Chan := (cyclic (l.flatMap routeDeps)).foldl (fun acc d => insertNew acc d.1) []
  ((c.routes :: c.variants.map (variantRoutes c)).map chans).find? (fun l => !l.isEmpty) |>.getD []

/-! ### Check 6: tables, tensors, placements (R84, R107 to R110) -/

/-- hi − lo is 2^n with n from −8 to 16. -/
def widthOk (t : FnTable) : Bool :=
  match addX (ofW t.hi) (nneg (ofW t.lo)) with
  | .fin m e => decide (0 < m) && m.natAbs == 2 ^ Nat.log2 m.natAbs && decide (-8 ≤ magLog m e) && decide (magLog m e ≤ 16)
  | _ => false

/-- One table of a pair at its place (R84). -/
def tableFault (role : Bool) (t : FnTable) : Bool :=
  (t.mode == 0 && !(widthOk t)) || (t.flags.getLsbD 1 && t.flags.getLsbD 2) || !(t.flags.getLsbD 0 == role)

/-- A pair at fault (R84, R107). -/
def pairFault (c : Chart) (p : FnTable × FnTable) : Bool :=
  tableFault false p.1 || tableFault true p.2 || !(p.1.pairId == p.2.pairId) ||
    decide (1 < (c.tables.filter fun q => q.1.pairId == p.1.pairId).length)

/-- User pairs of a region. -/
def pairsOf (r : Region) : List Nat := (List.range 32).filter fun n => r.userPairs.getLsbD n

/-- A region's user pairs at fault (R107). -/
def userPairsFault (c : Chart) (r : Region) : Bool :=
  decide (16 < (pairsOf r).length) || (pairsOf r).any fun n => !(c.tables.any fun p => p.1.pairId == 0x20 + n)

/-- Blocks of 32 of a tensor along its K axis. -/
def sideBytes (t : Tensor) : Nat := elemsOf t / kExtent t * ((kExtent t + 31) / 32)

/-- A summary or scale tensor serves `t` (R109). -/
def sideOk (c : Chart) (t : Tensor) (id : Nat) : Bool :=
  match tensorOf c id with
  | some x => x.format == 0x30 && elemsOf x == sideBytes t
  | none => false

/-- A tensor record at fault with others (R109). -/
def tensorFault (c : Chart) (t : Tensor) : Bool :=
  decide (1 < (c.tensors.filter fun x => x.id == t.id).length) || (t.slotPool && !(t.format == 0x06)) ||
    (hasSummary t.format && !(sideOk c t t.summaryId)) || (hasScale t.format && !(sideOk c t t.scaleId)) || (areaOf c t.areaId).isNone

/-- An area record at fault with others (R109). -/
def areaFault (c : Chart) (a : Area) : Bool :=
  decide (1 < (c.areas.filter fun x => x.id == a.id).length) || decide (a.slotCount * a.slotBytes < a.initLength) ||
    decide (c.data.length < a.initOffset + a.initLength)

/-- Continuations that a reduction record needs. -/
def continuations (b : Bytes) : Nat := (leAt b 8 2 - 26 + 29) / 30

/-- A list without repeats. -/
def distinct : List Nat → Bool
  | [] => true
  | x :: l => !(l.contains x) && distinct l

/-- A reduction record at fault with its continuations `l` (R109). -/
def reductionFault (c : Chart) (b : Bytes) (l : List Bytes) : Bool :=
  let n := leAt b 8 2
  let more := l.take (continuations b)
  let ids := regionIds b 12 26 ++ more.flatMap fun x => regionIds x 4 30
  !(decide (more.length = continuations b) && more.all fun x => leAt x 0 1 == 4) ||
    decide (1 < (c.reductions.filter fun x => x.id == leAt b 2 2).length) || !(distinct (ids.take n)) ||
    (ids.take n).any (fun i => !(c.regions.any fun r => r.id == i)) || (ids.drop n).any fun i => !(i == 0xFFFF)

/-- Faults of the TENSOR records from record `i` on; `need` continuations of `desc` are still due. -/
def tensorFaults (c : Chart) : Nat → Nat → Nat → List Bytes → List Fault3
  | _, _, _, [] => []
  | i, need, desc, b :: l =>
    let bad := match leAt b 0 1 with
      | 1 => tensorFault c (parseTensor b)
      | 2 => reductionFault c b l
      | 3 => areaFault c (parseArea b)
      | 4 => need == 0 || !(leAt b 2 2 == desc)
      | _ => false
    let next := if leAt b 0 1 == 2 then (continuations b, leAt b 2 2) else if leAt b 0 1 == 4 then (need - 1, desc) else (0, 0)
    (if bad then [(secOf c 4, i)] else []) ++ tensorFaults c (i + 1) next.1 next.2 l

/-- Bytes of the memory that a placement kind names (R30, R31); the stacks have no bound at check 6. -/
def memLimit (kind : Nat) : Option Nat := if kind == 1 then some 0x180000 else if kind == 2 then some 0x400000 else none

/-- Area of a placement's tensor. -/
def placeArea (c : Chart) (p : Placement) : Option Area :=
  match tensorOf c p.tensorId with
  | some t => areaOf c t.areaId
  | none => none

/-- Two placements lie in one memory and share a byte. Stack addresses are offsets in one reservation, whatever the stack. -/
def placesMeet (p q : Placement) : Bool :=
  p.kind == q.kind && (p.kind == 3 || (p.gcol == q.gcol && p.grow == q.grow)) &&
    overlaps p.address (64 * p.lines) q.address (64 * q.lines)

/-- A placement on its own and with the area it names (R110). A kind other than the area's memory is refused with them (DESIGN
CHOICE: the rule names no code for it, log entry 83). -/
def placeFault (c : Chart) (p : Placement) : Bool :=
  (match placeArea c p with
    | some a => !(a.memory == p.kind)
    | none => false) || !(p.address % 64 == 0) ||
    (match memLimit p.kind with
      | some n => decide (n < p.address + 64 * p.lines)
      | none => false)

/-- Entries in ascending order of (tensor_id, block_index), without duplicates. -/
def placeRises (p q : Placement) : Bool := decide (p.tensorId < q.tensorId) || (p.tensorId == q.tensorId && decide (p.block < q.block))

/-- Indices of the placements at fault (R110). -/
def placeFaults (c : Chart) (l : List Placement) : List Nat :=
  (List.range l.length).filter fun i => match l[i]? with
    | none => false
    | some p =>
      placeFault c p || decide (4194304 ≤ i) ||
        (decide (0 < i) && match l[i - 1]? with
          | some q => !(placeRises q p)
          | none => false) ||
        (List.range l.length).any fun j => decide (j ≠ i) && match l[j]? with
          | some q => placesMeet p q && !((placeArea c p).map (fun a => a.id) == (placeArea c q).map fun a => a.id)
          | none => false

/-- A placement of a tensor that no record defines (R108). -/
def placesNone (c : Chart) (p : Placement) : Bool := (tensorOf c p.tensorId).isNone

/-- Check 6. -/
def check6 (img : Bytes) (c : Chart) : Option Refused :=
  let places := placeFaults c c.placements
  firstOf [
    refuseAt 0x0214 (badAt (secOf c 3) (pairFault c) c.tables ++ badAt (secOf c 1) (userPairsFault c) c.regions),
    refuseAt 0x0215 (tensorFaults c 0 0 0 (chunks 64 (secCount img 4) (secBytes img 4)) ++ badAt (secOf c 5) (placesNone c) c.placements ++
      badAt (secOf c 6) (fun v => v.placements.any (placesNone c)) c.variants),
    refuseAt 0x0216 (places.map (fun i => (secOf c 5, i)) ++ badAt (secOf c 6) (fun v => !(placeFaults c v.placements).isEmpty) c.variants ++
      variantOnly c places.isEmpty fun x => !(placeFaults x x.placements).isEmpty)]

/-! ### Check 7: each cue on its own (R130 to R132, R434) -/

/-- Memory of a tensor's area. -/
def tensorMemory (c : Chart) (id : Nat) : Nat :=
  match tensorOf c id with
  | some t => match areaOf c t.areaId with
    | some a => a.memory
    | none => 0
  | none => 0

/-- A copy between SRAM and the stacks (R434). -/
def copyOk (c : Chart) (sram stack : Nat) : Bool :=
  match tensorOf c sram, tensorOf c stack with
  | some a, some b =>
    a.format == b.format && a.dims == b.dims && tensorMemory c stack == 3 && (tensorMemory c sram == 1 || tensorMemory c sram == 2)
  | _, _ => false

/-- A run of identifiers is defined. -/
def runDefined (known : Nat → Bool) (first n : Nat) : Bool := n == 0 || (!(first == 0xFFFF) && (List.range n).all fun i => known (first + i))

/-- ATTN_BLOCK shapes (R93): query and key block rows, head width. K is read turned (R95), so its K axis runs over the keys. -/
def attnShape (c : Chart) (q : Cue) : Option (Nat × Nat × Nat) :=
  match tensorOf c q.aTensor, tensorOf c q.bTensor with
  | some a, some b => some (rowsOf a, kExtent b, kExtent a)
  | _, _ => none

/-- The shapes keep R93. -/
def attnOk (c : Chart) (q : Cue) : Bool :=
  match attnShape c q with
  | some (bq, bk, dh) => bq % 64 == 0 && bk % 64 == 0 && dh % 32 == 0 && decide (0 < dh) && decide (dh ≤ 512)
  | none => false

/-- A tile's region. -/
def regionOfTile (c : Chart) (t : Nat) : Option Region := c.regions.find? fun r => inRect r.col0 r.row0 r.col1 r.row1 t

/-- A user pair that the tile's store does not hold (R83). -/
def pairAbsent (g : Option Region) (q : Cue) : Bool :=
  q.kind == 4 && (q.kernel == 5 || q.kernel == 6) && decide (0x20 ≤ q.field 119 112) &&
    match g with
    | some r => !(r.userPairs.getLsbD (q.field 119 112 - 0x20))
    | none => true

/-- The Chart with nothing installed beside it. -/
def plainInst : Installed :=
  { slot := 0, running := false, variants := [], lost := [], faults := [], folded := [], phase := none, slowSaid := false, pass := none }

/-- Entry of an element; a gradient tensor's in BF16, for which its areas are sized (06, The format ledger). -/
def elemEntry (c : Chart) (w : Tensor) (e : Nat) : Option Placement :=
  (elemPlace c plainInst w (elemBits (if w.format = 0x20 then 0x06 else w.format)) e).map Prod.fst

/-- An element lies in a memory of a tile: 1 its SRAM, 2 the deck SRAM directly beneath it. -/
def elemIn (c : Chart) (kind t : Nat) (w : Tensor) (e : Nat) : Bool :=
  match elemEntry c w e with
  | some p => p.kind == kind && 72 * p.grow + p.gcol == t
  | none => false

/-- A is read through the turning unit; B is (R29, R95). -/
def aTurned (q : Cue) : Bool := q.kind == 2 || q.kind == 9
def bTurned (q : Cue) : Bool := q.kind == 3 || q.kind == 5 || q.kind == 6

/-- Element of an operand at row `r` of the product and position `k` of the contraction. -/
def operandAt (w : Tensor) (turned : Bool) (r k : Nat) : Nat := if turned then atRow w k r else atRow w r k

/-- Rows of an operand, and its depth. -/
def operandRows (w : Tensor) (turned : Bool) : Nat := if turned then kExtent w else rowsOf w
def operandDepth (w : Tensor) (turned : Bool) : Nat := if turned then rowsOf w else kExtent w

/-- Positions of the contraction that a cue takes. -/
def depthTaken (q : Cue) (depth : Nat) : List Nat :=
  if isMatmul q.kind then
    let k0 := 32 * q.field 127 110
    (List.range (min (32 * (q.field 109 92 + 1)) (depth - k0))).map (k0 + ·)
  else List.range depth

/-- Rows and columns of the product that a tile forms: those of its output elements, whole rows for FUSED_NORM_BWD, all of them
for ATTN_BLOCK. -/
def productPairs (c : Chart) (t : Nat) (q : Cue) (out : Tensor) (na nb : Nat) : List (Nat × Nat) :=
  let here (e : Nat) : Bool := match elemEntry c out e with
    | some p => decide (p.kind ≤ 2) && (72 * p.grow + p.gcol == t || q.outRemote)
    | none => false
  let full (rows : List Nat) : List (Nat × Nat) := rows.flatMap fun i => (List.range nb).map fun j => (i, j)
  if q.kind = 6 then full (List.range na)
  else if q.kind = 5 then full ((List.range na).filter fun i => (List.range nb).any fun j => here (atRow out i j))
  else ((List.range (elemsOf out)).filter here).map fun e => (e / nb, e % nb)

/-- All operand blocks lie in local SRAM: A in the tile's, B in the deck beneath it where b_deck says so, else in the tile's, and
V in the tile's (R28, R131). A cue that needs others is not valid (DEDUCED: no code is named for it, log entry 85). -/
def operandsLocal (c : Chart) (t : Nat) (q : Cue) : Bool :=
  match tensorOf c q.aTensor, tensorOf c q.bTensor, tensorOf c q.outTensor with
  | some a, some b, some out =>
    let ks := depthTaken q (operandDepth a (aTurned q))
    (productPairs c t q out (operandRows a (aTurned q)) (operandRows b (bTurned q))).all fun p => ks.all fun k =>
      elemIn c 1 t a (operandAt a (aTurned q) p.1 k) && elemIn c (if q.bDeck then 2 else 1) t b (operandAt b (bTurned q) p.2 k) &&
        (!(q.kind == 6) || match tensorOf c q.auxTensor with
          | some w => (List.range (elemsOf w)).all (elemIn c 1 t w)
          | none => false)
  | _, _, _ => false

/-- The wire-mode SEND_BLOCKS cues of a layer. -/
def wireCues (c : Chart) (l : Nat) : List Cue :=
  c.cues.flatMap fun p => p.2.filter fun q => q.kind == 7 && q.field 127 127 == 0 && q.layer == l

/-- Wire blocks of a layer as its cues cut them: R218 has every block of a step sent or withheld by them. -/
def cueBlockCount (c : Chart) (l : Nat) : Nat := (wireCues c l).foldl (fun n q => max n (q.field 126 107 + q.field 106 92 + 1)) 0

/-- The most blocks of a layer that one member owns (R180). -/
def mostOwned (c : Chart) (l : Nat) : Nat :=
  let first := (((c.layers.map fun r => r.layer).filter fun k => decide (k < l)).map (cueBlockCount c)).sum
  (List.range c.groupSize).foldl (fun n m =>
    max n ((List.range (cueBlockCount c l)).filter fun k => (first + k) / 16 % c.groupSize == m).length) 0

/-- An optimizer cue's result buffers lie in stack areas of purpose 8, and are enough for its layer (R198). -/
def buffersOk (c : Chart) (q : Cue) : Bool :=
  let ps := c.placements.filter fun p => p.tensorId == q.aTensor
  (ps.all fun p => p.kind == 3 && match placeArea c p with
    | some a => a.purpose == 8
    | none => false) && decide (mostOwned c q.layer ≤ (ps.map buffersIn).sum)

/-- A cue record is valid on a tile whose region is `g` (0x0218 on its own). -/
def cueOk (c : Chart) (t : Nat) (g : Option Region) (q : Cue) : Bool :=
  match usesOf q with
  | none => false
  | some u =>
    let known (i : Nat) : Bool := (tensorOf c i).isSome
    let wire := q.kind == 7 && q.field 127 127 == 0
    !(isMatmul q.kind && !(q.drainWindow == (match tensorOf c q.outTensor with
        | some t => t.format == 0x0D
        | none => false))) &&
    !(q.kind == 4 && decide (10 ≤ q.kernel) && !(q.mode == 0 && buffersOk c q)) && !(q.kind == 5 && !q.bDeck) &&
      !(q.kind == 8 && q.field 127 126 == 2 && !(copyOk c q.outTensor q.aTensor)) &&
      !(q.kind == 7 && !wire && !(copyOk c q.aTensor q.outTensor)) &&
      (q.phaseId == 0xFFFF || c.power.phases.any fun p => p.id == q.phaseId) && !(pairAbsent g q) &&
      (!u.a || known q.aTensor) && (!u.b || known q.bTensor || (wire && q.bTensor == 0xFFFF)) && (!u.out || known q.outTensor) &&
      runDefined known q.auxTensor u.aux &&
      (if wire then c.collectives.any fun d => d.id == q.descId && d.command == 1
       else runDefined (fun i => c.reductions.any fun r => r.id == i) q.descId u.desc) &&
      (!(bitOf q.sigMode 1) || c.routes.any fun r => r.id == q.sigRoute) && (!q.outRemote || c.routes.any fun r => r.id == q.outRoute) &&
      !((q.kind == 11 || q.kind == 12) && q.field 127 127 == 1 && !(c.dieMask.getLsbD (q.field 116 111))) &&
      !(q.kind == 11 && q.field 127 127 == 0 && !(c.regions.any fun r => r.id == q.field 126 117)) && !(q.kind == 6 && !(attnOk c q)) &&
      !((isMatmul q.kind || q.kind == 5 || q.kind == 6) && !(operandsLocal c t q))

/-! ### Check 7: the walk of a tile's list (R124, R136, R139) -/

/-- A cue with its record index. -/
abbrev ICue := Nat × Cue

/-- The tiles' lists with record indices. -/
def indexed : Nat → List (Nat × List Cue) → List (Nat × List ICue)
  | _, [] => []
  | n, (t, l) :: r => (t, (List.range l.length).filterMap fun i => (l[i]?).map fun q => (n + i, q)) :: indexed (n + l.length) r

/-- A BARRIER's type: 1 entry, 2 end, 0 otherwise. -/
def barrierType (q : Cue) : Nat := if q.kind == 13 then q.field 127 126 else 0

/-- Faults of one list: nesting of barriers, depth of the deferred queue (a fill drain may run nothing). -/
def walkList (inside : Bool) (depth : Nat) : List ICue → List Nat
  | [] => []
  | (i, q) :: l =>
    let b := barrierType q
    let bad := (b == 1 && inside) || (b == 2 && !inside) || (inside && q.layerStart && decide (0 < depth)) ||
      (inside && q.kind == 9 && decide (256 ≤ depth)) || (b == 2 && decide (0 < depth)) || (l.isEmpty && (inside || b == 1) && !(b == 2))
    let inside' := if b == 1 then true else if b == 2 then false else inside
    let depth' :=
      if b == 1 || b == 2 then 0
      else if q.kind == 9 then depth + 1
      else if q.kind == 10 && q.field 127 127 == 0 then (if q.field 126 118 = 0 then 0 else depth - q.field 126 118)
      else depth
    (if bad then [i] else []) ++ walkList inside' depth' l

/-- Entry barriers of a list. -/
def entryCount (l : List ICue) : Nat := (l.filter fun p => barrierType p.2 == 1).length

/-- First cues of the tiles whose entry barriers disagree with the first tile's (R136). -/
def entryFaults (l : List (Nat × List ICue)) : List Nat :=
  match l with
  | [] => []
  | x :: r => (r.filter fun y => !(entryCount y.2 == entryCount x.2)).filterMap fun y => (y.2.head?).map fun p => p.1

/-- The cues of entry `e` of a list: from its entry barrier to its end barrier. -/
def passSegment (e : Nat) : List ICue → List ICue
  | [] => []
  | p :: l =>
    if barrierType p.2 == 1 then
      (if e = 0 then p :: (l.takeWhile fun x => !(barrierType x.2 == 2)) ++ (l.dropWhile fun x => !(barrierType x.2 == 2)).take 1
       else passSegment (e - 1) l)
    else passSegment e l

/-- Tiles at which a route has a local output. -/
def localOuts (routes : List Route) (id : Nat) : List Nat :=
  match routes.find? fun r => r.id == id with
  | some r => (r.hops.filter fun h => h.outMask.getLsbD 4).map fun h => 72 * h.grow + h.gcol
  | none => []

/-- Tiles whose counter a cue's completion raises (R134, R135). -/
def sigTiles (routes : List Route) (t : Nat) (q : Cue) : List Nat :=
  let far := if bitOf q.sigMode 1 then localOuts routes q.sigRoute else []
  if bitOf q.sigMode 0 then t :: far.filter fun x => !(x == t) else far

/-! ### Check 7: whether the waits can be met (R124), and R137

An abstract run of one entry: a cue advances once its waits are met; counters only rise, so the order of
the run does not matter. `heldCue` never completes: it raises nothing and keeps its unit. A cue that completes at its issue or
lets nothing of its list issue before it completes (BARRIER, SLEEP, a drain of an empty queue) does not issue while it is held;
a held drain runs none of the entries that it would run. -/

/-- One tile of the abstract run. -/
structure AbsTile where
  tile : Nat
  rest : List ICue
  queue : List ICue
  counters : List (Nat × Nat)
  arrayBusy : Bool
  vectorBusy : Bool
  deriving DecidableEq, Repr

/-- The cue occupies the array; the vector unit. -/
def onArray (k : Nat) : Bool := k == 1 || k == 2 || k == 3 || k == 5 || k == 6 || k == 10
def onVector (k : Nat) : Bool := k == 4 || k == 5 || k == 6

/-- Raise a counter of every listed tile. -/
def absRaise (tiles : List Nat) (ctr : Nat) (l : List AbsTile) : List AbsTile :=
  l.map fun a => if tiles.contains a.tile then { a with counters := setPair a.counters ctr ((find? a.counters ctr).getD 0 + 1) } else a

/-- A cue's two waits are met. -/
def absMet (a : AbsTile) (q : Cue) : Bool :=
  decide (q.wait0Target ≤ (find? a.counters q.wait0Ctr).getD 0) && decide (q.wait1Target ≤ (find? a.counters q.wait1Ctr).getD 0)

/-- Signals of a completion, none for the held cue. -/
def absDone (routes : List Route) (heldCue : Option Nat) (t : Nat) (p : ICue) (l : List AbsTile) : List AbsTile :=
  if p.2.sigMode == 0 || heldCue == some p.1 then l else absRaise (sigTiles routes t p.2) p.2.sigCtr l

/-- Entries that a drain runs now: all it is to run; in fill mode one at a time while the next cue waits. -/
def drainTake (a : AbsTile) (q : Cue) (next : Option ICue) : Nat :=
  if q.field 127 127 = 1 then
    match next with
    | some n => if absMet a n.2 then 0 else min 1 a.queue.length
    | none => 0
  else if q.field 126 118 = 0 then a.queue.length else min (q.field 126 118) a.queue.length

/-- Replace a tile of the run. -/
def absPut (a : AbsTile) (l : List AbsTile) : List AbsTile := l.map fun x => if x.tile == a.tile then a else x

/-- Advance one tile by one cue, or by one fill entry. -/
def absAdvance (routes : List Route) (heldCue : Option Nat) (a : AbsTile) (l : List AbsTile) : Option (List AbsTile) :=
  match a.rest with
  | [] => none
  | p :: r =>
    let q := p.2
    let here := heldCue == some p.1
    if !(absMet a q) || (a.arrayBusy && onArray q.kind) || (a.vectorBusy && onVector q.kind) ||
        (here && (q.kind == 13 || q.kind == 12 || (q.kind == 10 && a.queue.isEmpty))) then none
    else if here && q.kind == 10 then some (absPut { a with rest := r, arrayBusy := true } l)
    else if q.kind == 9 then some (absPut { a with rest := r, queue := a.queue ++ [p] } l)
    else if q.kind == 10 then
      let n := drainTake a q r.head?
      let run := a.queue.take n
      let fillOn := q.field 127 127 == 1 && decide (0 < n)
      let stop := run.any fun e => heldCue == some e.1
      let a' := { a with queue := a.queue.drop n, rest := if fillOn then a.rest else r, arrayBusy := a.arrayBusy || stop }
      let done := run.takeWhile fun e => !(heldCue == some e.1)
      let l' := done.foldl (fun l e => absDone routes none a.tile e l) (absPut a' l)
      some (if fillOn || stop then l' else absDone routes heldCue a.tile p l')
    else
      let a' := { a with rest := r, arrayBusy := a.arrayBusy || (here && onArray q.kind), vectorBusy := a.vectorBusy || (here && onVector q.kind) }
      some (absDone routes heldCue a.tile p (absPut a' l))

/-- One step of the run: the first tile that can advance does. -/
def absStep (routes : List Route) (heldCue : Option Nat) (l : List AbsTile) : Option (List AbsTile) :=
  l.findSome? fun a => absAdvance routes heldCue a l

/-- Run until nothing advances. -/
def absRun (routes : List Route) (heldCue : Option Nat) : Nat → List AbsTile → List AbsTile
  | 0, l => l
  | n + 1, l => match absStep routes heldCue l with
    | some m => absRun routes heldCue n m
    | none => l

/-- Counter totals that REDUCE_SHARDS adds: one signal per LAYER record (R217). -/
def collSignals (c : Chart) (t : Nat) : List (Nat × Nat) :=
  c.collectives.foldl (fun acc d =>
    if d.command == 1 && decide (d.signalCtr < 64) && (localOuts c.routes d.signalRoute).contains t then
      setPair acc d.signalCtr ((find? acc d.signalCtr).getD 0 + c.layers.length)
    else acc) []

/-- The run of an entry before its first cue. -/
def absStart (c : Chart) (e : Nat) (l : List (Nat × List ICue)) : List AbsTile :=
  l.map fun p => { tile := p.1, rest := passSegment e p.2, queue := [], counters := collSignals c p.1, arrayBusy := false, vectorBusy := false }

/-- Steps that a run can take at most. -/
def absFuel (l : List AbsTile) : Nat := 2 * (l.map fun a => a.rest.length).sum + 1

/-- The whole run of an entry with one cue held. -/
def absEnd (c : Chart) (heldCue : Option Nat) (l : List AbsTile) : List AbsTile := absRun c.routes heldCue (absFuel l) l

/-- Deferred entries of a list that a drain before position `idx` can run (R134): a fill drain may run all that are queued. -/
def drainedBefore (idx : Nat) (queue : List Nat) : List ICue → List Nat
  | [] => []
  | p :: l =>
    if idx ≤ p.1 then []
    else if p.2.kind == 9 then drainedBefore idx (queue ++ [p.1]) l
    else if p.2.kind == 10 then
      let n := if p.2.field 127 127 = 1 ∨ p.2.field 126 118 = 0 then queue.length else p.2.field 126 118
      queue.take n ++ drainedBefore idx (queue.drop n) l
    else drainedBefore idx queue l

/-- All that the cues of other tiles, earlier ones of the list, and the deferred entries that an earlier drain runs can raise a
counter by (R124, R134). -/
def reachable (c : Chart) (l : List AbsTile) (t ctr idx : Nat) : Nat :=
  (find? (collSignals c t) ctr).getD 0 +
    (l.flatMap fun a =>
      let own := a.tile == t
      let run := if own then drainedBefore idx [] a.rest else []
      a.rest.filter fun p => (!own || (if p.2.kind == 9 then run.contains p.1 else decide (p.1 < idx))) && p.2.sigCtr == ctr &&
        !(p.2.sigMode == 0) && (sigTiles c.routes a.tile p.2).contains t).length

/-- Waits of an entry whose target exceeds the total that the signalling cues can reach. -/
def waitFaults (c : Chart) (l : List AbsTile) : List Nat :=
  l.flatMap fun a => (a.rest.filter fun p =>
    decide (reachable c l a.tile p.2.wait0Ctr p.1 < p.2.wait0Target) || decide (reachable c l a.tile p.2.wait1Ctr p.1 < p.2.wait1Target)).map
      fun p => p.1

/-- Tiles that a stuck tile waits for: those whose remaining cues could raise a counter it waits on. -/
def blockers (c : Chart) (l : List AbsTile) (a : AbsTile) : List Nat :=
  match a.rest with
  | [] => []
  | p :: _ =>
    let needs (k : Nat) : Bool := (k == p.2.wait0Ctr && decide ((find? a.counters k).getD 0 < p.2.wait0Target)) ||
      (k == p.2.wait1Ctr && decide ((find? a.counters k).getD 0 < p.2.wait1Target))
    (l.filter fun b => (b.queue ++ b.rest).any fun x => !(x.2.sigMode == 0) && needs x.2.sigCtr &&
      (sigTiles c.routes b.tile x.2).contains a.tile).map fun b => b.tile

/-- Tiles reached over blockers. -/
def blockedBy (c : Chart) (l : List AbsTile) : Nat → List Nat → List Nat
  | 0, x => x
  | n + 1, x => blockedBy c l n ((l.filter fun a => x.contains a.tile).foldl (fun acc a => (blockers c l a).foldl insertNew acc) x)

/-- Cues at which tiles stand for ever because their waits depend on each other in a cycle. -/
def stuckFaults (c : Chart) (l : List AbsTile) : List Nat :=
  (l.filter fun a => !(a.rest.isEmpty) && (blockedBy c l l.length (blockers c l a)).contains a.tile).filterMap fun a => (a.rest.head?).map fun p => p.1

/-- Times a counter is raised in an entry, against 65,535 (R134): the first cue that raises it is at fault. -/
def totalFaults (c : Chart) (l : List AbsTile) : List Nat :=
  l.flatMap fun a => (List.range 64).filterMap fun k =>
    let sigs := l.flatMap fun b => b.rest.filter fun p => p.2.sigCtr == k && !(p.2.sigMode == 0) && (sigTiles c.routes b.tile p.2).contains a.tile
    if 65535 < sigs.length + (find? (collSignals c a.tile) k).getD 0 then (sigs.map fun p => p.1).min? else none

/-- A layer of a pass: its index, and 0 for its forward, 1 for its backward (R137). -/
abbrev LayerKey := Nat × Nat

/-- The cues of a segment with the layer that is open at each; none before the first. -/
def layerParts (seen : List LayerKey) (now : Option LayerKey) : List ICue → List (Option LayerKey × ICue)
  | [] => []
  | p :: l =>
    if p.2.layerStart then
      let k : LayerKey := (p.2.layer, (seen.filter fun x => x.1 == p.2.layer).length)
      (some k, p) :: layerParts (seen ++ [k]) (some k) l
    else (now, p) :: layerParts seen now l

/-- The layers of a list, in its order. -/
def layerSeq (l : List (Option LayerKey × ICue)) : List LayerKey := (l.filterMap Prod.fst).foldl insertNew []

/-- Layer `x` comes before layer `y` in the pass: as a tile that runs both has them; where none does, forward layers ascend,
backward ones descend behind them (DEDUCED from Table 6-5, log entry 78). -/
def layerBefore (seqs : List (List LayerKey)) (x y : LayerKey) : Bool :=
  match seqs.find? fun l => l.contains x && l.contains y with
  | some l => decide (l.idxOf x < l.idxOf y)
  | none => decide (x.2 < y.2) || (x.2 == y.2 && (if x.2 = 0 then decide (x.1 < y.1) else decide (y.1 < x.1)))

/-- A RECV_LAYER with source 0b00 lies outside its layer; every other cue counts (R137). -/
def counted (q : Cue) : Bool := !(q.kind == 8 && q.field 127 126 == 0)

/-- layer_start cues that issue although a cue of an earlier layer, in any tile, never completes (R137). A deferred entry counts
with the cue that pushed it. -/
def gateFaults (c : Chart) (l : List AbsTile) : List Nat :=
  let parts := l.map fun a => layerParts [] none a.rest
  let seqs := parts.map layerSeq
  let starts := parts.flatten.filter fun x => x.2.2.layerStart
  (parts.flatten.filter fun x => counted x.2.2).flatMap fun x => match x.1 with
    | none => []
    | some k =>
      let left := ((absEnd c (some x.2.1) l).flatMap fun a => a.rest).map fun p => p.1
      (starts.filter fun y => (match y.1 with
        | some j => layerBefore seqs k j
        | none => false) && !(left.contains y.2.1)).map fun y => y.2.1

/-- Faults of one entry: waits, cycles, totals, gates. -/
def entryWaitFaults (c : Chart) (l : List (Nat × List ICue)) (e : Nat) : List Nat :=
  let a := absStart c e l
  waitFaults c a ++ totalFaults c a ++
    (if (waitFaults c a).isEmpty then stuckFaults c (absEnd c none a) ++ gateFaults c a else [])

/-- Entries of a sheet, by its first tile's list (R136). -/
def sheetEntries (c : Chart) : Nat := match indexed 0 c.cues with
  | [] => 0
  | x :: _ => entryCount x.2

/-- Cue records at fault under 0x0218, but for the entry barriers that disagree. -/
def cueFaults (c : Chart) : List Nat :=
  let l := indexed 0 c.cues
  let own := l.flatMap fun p => (p.2.filter fun x => !(cueOk c p.1 (regionOfTile c p.1) x.2)).map fun x => x.1
  let walk := l.flatMap fun p => walkList false 0 p.2
  own ++ walk ++ (List.range (sheetEntries c)).flatMap (entryWaitFaults c l)

/-- A sheet at fault under 0x0218. -/
def sheetBad (c : Chart) : Bool := !(entryFaults (indexed 0 c.cues)).isEmpty || !(cueFaults c).isEmpty

/-- A variant's cues at fault on their own. -/
def variantCuesBad (c : Chart) (v : Variant) : Bool :=
  let x := variantChart c v
  v.cues.any fun p => p.2.any fun q => !(cueOk x p.1 (x.regions.find? fun r => r.id == v.regionId) q)

/-! ### Check 7: formats, extents, SRAM plan, pins -/

/-- The matrix operands of a cue (R65, R91, R95). -/
def matOperands (c : Chart) (q : Cue) : List Tensor :=
  if isMatmul q.kind || q.kind == 5 || q.kind == 6 then [q.aTensor, q.bTensor].filterMap (tensorOf c) else []

/-- Whole K extent of a MATMUL-family product: the K dimension of A, or its other sizes where A is turned (MATMUL_TA,
DEFER_DW). -/
def productK (c : Chart) (q : Cue) : Nat :=
  match tensorOf c q.aTensor with
  | some t => if q.kind == 2 || q.kind == 9 then rowsOf t else kExtent t
  | none => 0

/-- Bytes of a tile's SRAM that placements cover. -/
def coveredBytes (l : List Placement) : Nat :=
  (l.foldl (fun (x : Nat × Nat) p => (x.1 + ((p.address + 64 * p.lines) - max x.2 p.address), max x.2 (p.address + 64 * p.lines)))
    (0, 0)).1

/-- Placements in ascending order of address. -/
def insertPlace (p : Placement) : List Placement → List Placement
  | [] => [p]
  | q :: l => if p.address ≤ q.address then p :: q :: l else q :: insertPlace p l

/-- A tile's SRAM placements but those of some tensors, sorted. -/
def tilePlaces (c : Chart) (t : Nat) (but : List Nat) : List Placement :=
  (c.placements.filter fun p => p.kind == 1 && 72 * p.grow + p.gcol == t && !(but.contains p.tensorId)).foldr insertPlace []

/-- Bytes of an ATTN_BLOCK's buffers, state and double-buffered KV blocks (R93, Table 4-8). -/
def attnBytes (c : Chart) (q : Cue) : Nat :=
  match attnShape c q, tensorOf c q.aTensor, tensorOf c q.bTensor, tensorOf c q.auxTensor with
  | some (bq, bk, dh), some a, some b, some v =>
    elemsBytes a.format (bq * dh) + 2 * elemsBytes b.format (bk * dh) + 2 * elemsBytes v.format (bk * dh) + 4 * bq * bk +
      (if q.field 100 99 = 0 then 2 else 1) * bq * bk + 4 * bq * dh + 12 * bq + 4 * bk
  | _, _, _, _ => 0

/-- Tile SRAM in bytes (R30). -/
def tileSramBytes : Nat := 0x180000

/-- Tensors of an ATTN_BLOCK that Table 4-8 counts as its buffers: Q, K, V, positions and state. -/
def attnTensors (q : Cue) : List Nat := [q.aTensor, q.bTensor] ++ (List.range 4).map fun k => q.auxTensor + k

/-- Cue records at fault under 0x021B: a tile's cue list and its placements, and beside those that are not its own the buffers of
each ATTN_BLOCK, exceed its SRAM. The table store is no part of it (R83). -/
def sramFaults (c : Chart) : List Nat :=
  (indexed 0 c.cues).flatMap fun p =>
    let own := 32 * p.2.length
    (if tileSramBytes < own + coveredBytes (tilePlaces c p.1 []) then ((p.2.take 1).map fun x => x.1) else []) ++
      (p.2.filter fun x => x.2.kind == 6 &&
        decide (tileSramBytes < own + coveredBytes (tilePlaces c p.1 (attnTensors x.2)) + attnBytes c x.2)).map fun x => x.1

/-- The norm ε is a positive normal FP32 value (R89). -/
def epsilonOk (c : Chart) : Bool :=
  let w := (Config.normEpsilon c.digest).toNat
  decide (0x00800000 ≤ w) && decide (w < 0x7F800000)

/-- Cues that use the norm ε. -/
def usesEpsilon (q : Cue) : Bool := q.kind == 5 || (q.kind == 4 && (q.kernel == 1 || q.kernel == 2))

/-! ### Check 7: pins (R22, R23, R117) -/

/-- Deck entries of a tensor beneath a tile, in a deck weight area. -/
def deckPlaces (c : Chart) (t id : Nat) : List Placement :=
  c.placements.filter fun p => p.tensorId == id && p.kind == 2 && 72 * p.grow + p.gcol == t &&
    match placeArea c p with
    | some a => a.purpose == 1
    | none => false

/-- Put a number into an ascending list without repeats. -/
def insertAsc (x : Nat) : List Nat → List Nat
  | [] => [x]
  | y :: l => if x < y then x :: y :: l else if x = y then y :: l else y :: insertAsc x l

/-- The slices of a layer in a tile (R23): its deck tensors in ascending tensor_id, a new slice wherever one overlaps the slice
so far (DESIGN CHOICE: no record names a slice, log entry 46). -/
def slicesOf (places : Nat → List Placement) (ids : List Nat) : List (List Nat) :=
  (ids.foldl (fun (acc : List (List Nat)) id =>
    match acc with
    | s :: rest => if s.any fun k => (places k).any fun p => (places id).any (placesMeet p) then [id] :: s :: rest else (s ++ [id]) :: rest
    | [] => [[id]]) []).reverse

/-- The cue pins a layer: RECV_LAYER with source 0b01. -/
def pinsLayer (q : Cue) : Option Nat := if q.kind == 8 && q.field 127 126 == 1 then some (q.field 125 110) else none

/-- Deck tensors that the cues of a layer read in a tile. -/
def layerDeck (places : Nat → List Placement) (l : List ICue) (layer : Nat) : List Nat :=
  (l.filter fun x => x.2.layer == layer && x.2.bDeck && !(places x.2.bTensor).isEmpty).foldl (fun acc x => insertAsc x.2.bTensor acc) []

/-- The slices of a layer as a segment's cues read them. -/
def layerSlices (places : Nat → List Placement) (l : List ICue) (layer : Nat) : List (List Nat) := slicesOf places (layerDeck places l layer)

/-- Number of the slice that a RECV_LAYER of a segment pins: the next in order at each one of the layer. -/
def sliceNumber (places : Nat → List Placement) (l : List ICue) (idx layer : Nat) : Nat :=
  (l.filter fun y => decide (y.1 < idx) && pinsLayer y.2 == some layer).length % max 1 (layerSlices places l layer).length

/-- Tensors of the slice that a RECV_LAYER of a segment pins. -/
def pinSlice (c : Chart) (t : Nat) (l : List ICue) (x : ICue) : List Nat :=
  match pinsLayer x.2 with
  | none => []
  | some m => (layerSlices (deckPlaces c t) l m).getD (sliceNumber (deckPlaces c t) l x.1 m) []

/-- Where the cues of a segment read deck operands: a deferred entry at the drain that runs it at the latest (R139, R140). -/
def deckReads (queue : List ICue) : List ICue → List ICue
  | [] => []
  | p :: l =>
    if p.2.kind == 9 then deckReads (queue ++ [p]) l
    else if p.2.kind == 10 && p.2.field 127 127 == 0 then
      let n := if p.2.field 126 118 = 0 then queue.length else p.2.field 126 118
      ((queue.take n).filter fun e => e.2.bDeck).map (fun e => (p.1, e.2)) ++ deckReads (queue.drop n) l
    else (if p.2.bDeck then [p] else []) ++ deckReads queue l

/-- Tensors that a cue writes (Tables 6-3, 6-4). -/
def outsOf (q : Cue) : List Nat :=
  let aux (k : Nat) : Nat := q.auxTensor + k
  (match usesOf q with
    | some u => if u.out then [q.outTensor] else []
    | none => []) ++
    (if q.kind = 5 then [aux 4, aux 5, aux 6]
     else if q.kind = 6 then [aux 3, aux 4]
     else if q.kind = 4 then (if q.kernel ≤ 2 then [aux 2] else if q.kernel = 3 then [aux 0] else []) else [])

/-- Deck entries beneath a tile that a cue writes: those of the slice that it pins, or of its outputs. -/
def deckWrites (c : Chart) (t : Nat) (l : List ICue) (x : ICue) : List Placement :=
  (pinSlice c t l x ++ outsOf x.2).flatMap fun id => c.placements.filter fun p => p.tensorId == id && p.kind == 2 && 72 * p.grow + p.gcol == t

/-- Cues of one pass of a tile that write over a pinned entry before its release (R22, R23): a later cue, or a deferred entry that
a later drain runs, still reads it, and no RECV_LAYER between pins it again. -/
def pinFaults (c : Chart) (t : Nat) (l : List ICue) : List Nat :=
  let reads := deckReads [] l
  let pins (id lo hi : Nat) : Bool := l.any fun z => decide (lo ≤ z.1) && decide (z.1 < hi) && (pinSlice c t l z).contains id
  (l.filter fun x => (deckWrites c t l x).any fun w => reads.any fun y =>
    decide (x.1 < y.1) && !(y.2.bTensor == w.tensorId) && (deckPlaces c t y.2.bTensor).any (fun p => placesMeet p w) &&
      pins y.2.bTensor 0 x.1 && !(pins y.2.bTensor (x.1 + 1) y.1)).map fun x => x.1

/-- Stack entries of a tensor in a staging slot. -/
def stagingPlaces (c : Chart) (id : Nat) : List Placement :=
  c.placements.filter fun p => p.tensorId == id && p.kind == 3 && match placeArea c p with
    | some a => a.purpose == 2
    | none => false

/-- The cue fills a layer's staging slot: RECV_LAYER with source 0b00. -/
def stagesLayer (q : Cue) : Option Nat := if q.kind == 8 && q.field 127 126 == 0 then some (q.field 125 110) else none

/-- Staging entries of a layer: those of the tensors that its cues copy from the stacks. -/
def stagedPlaces (c : Chart) (all : List ICue) (layer : Nat) : List Placement :=
  (all.filter fun x => x.2.kind == 8 && x.2.field 127 126 == 2 && x.2.layer == layer).flatMap fun x => stagingPlaces c x.2.aTensor

/-- The layer and the staging entries that a cue reads (Table 6-3, RECV_LAYER). -/
def stagedReads (c : Chart) (all : List ICue) (q : Cue) : Option (Nat × List Placement) :=
  match pinsLayer q with
  | some l => some (l, stagedPlaces c all l)
  | none => if q.kind == 8 && q.field 127 126 == 2 then some (q.layer, stagingPlaces c q.aTensor) else none

/-- Cues that fill a staging slot which a reader of another layer still needs (R151): the reader may stand open when they issue, and
the slot is not filled again in between. -/
def slotFaults (c : Chart) (l : List AbsTile) : List Nat :=
  let all := l.flatMap fun a => a.rest
  let after (p q : ICue) : Bool := ((absEnd c (some p.1) l).flatMap fun a => a.rest).any fun x => x.1 == q.1
  (all.filter fun x => match stagesLayer x.2 with
    | none => false
    | some m => all.any fun y => match stagedReads c all y.2 with
      | none => false
      | some (k, places) =>
        !(k == m) && places.any (fun p => (stagedPlaces c all m).any (placesMeet p)) && !(after y x) &&
          !(all.any fun z => stagesLayer z.2 == some k && after x z && after z y)).map fun x => x.1

/-- Cue records at fault under 0x021C; a staging slot's are among them (DESIGN CHOICE: R151 names no code, log entry 99). -/
def sheetPins (c : Chart) : List Nat :=
  let l := indexed 0 c.cues
  (l.flatMap fun p => (List.range (entryCount p.2)).flatMap fun e => pinFaults c p.1 (passSegment e p.2)) ++
    (List.range (sheetEntries c)).flatMap fun e => slotFaults c (absStart c e l)

/-! ### Check 7: claims, collectives, layers (R117, R123, R209, R116, R184) -/

/-- The kind that a claim's feature may claim (Table 5-24). -/
def featureKind (f : Nat) : Nat := if f == 1 || f == 2 then 1 else if f == 3 then 2 else if f == 4 then 3 else 0

/-- A claim record at fault. -/
def claimFault (c : Chart) (k : Claim) : Bool :=
  decide (1 < (c.claims.filter fun x => x.kind == k.kind && x.index == k.index).length) || !(featureKind k.feature == k.kind) ||
    (k.kind == 3 && match areaOf c k.index with
      | some a => !(a.purpose == 1)
      | none => true)

/-- All sixteen side buffers are claimed for a feature. -/
def sixteen (c : Chart) (f : Nat) : Bool := (List.range 16).all fun p => c.claims.any fun k => k.kind == 1 && k.index == p && k.feature == f

/-- A descriptor enables the ring. -/
def CollDesc.ring (d : CollDesc) : Bool := d.flags.getLsbD 0

/-- Faults under 0x021E. -/
def claimFaults (img : Bytes) (c : Chart) : List Fault3 :=
  badAt (secOf c 11) (claimFault c) c.claims ++
    badAt (secOf c 10) (fun l => decide (0 < l.k) && (!(sixteen c 2) || c.collectives.any CollDesc.ring)) c.layers ++
    badAt (secOf c 9) (fun d => d.ring && !(sixteen c 1)) c.collectives ++
    badAt (secOf c 4) (fun b => leAt b 0 1 == 3 && (parseArea b).purpose == 1 &&
      !(c.claims.any fun k => k.kind == 3 && k.index == (parseArea b).id && k.feature == 4)) (chunks 64 (secCount img 4) (secBytes img 4))

/-- Timers that the claims give a descriptor. -/
def timersOf (c : Chart) (id : Nat) : Nat := (c.claims.filter fun k => k.kind == 2 && k.feature == 3 && k.arg == id).length

/-- A COLLECTIVE record at fault (R208, R209). -/
def collFault (c : Chart) (d : CollDesc) : Bool :=
  let red := d.command == 1
  decide (1 < (c.collectives.filter fun x => x.id == d.id).length) || !(d.timers == timersOf c d.id) ||
    (red && (decide (d.timers < 2) || d.quorum == 0)) ||
    (!red && (d.flags.getLsbD 1 || d.flags.getLsbD 2 || !(d.quorum == 0) || !(d.signalCtr == 0xFF))) ||
    (red && !(d.signalCtr == 0xFF) && !(c.routes.any fun r => r.id == d.signalRoute))

/-- A tensor has the full shape for a layer (R184): BF16, an element for each drained gradient element at least. The exact tensors
of the stream stand in the manifest, which the loader does not have (DEDUCED, log entry 100). -/
def fullShape (c : Chart) (layer : Nat) (t : Tensor) : Bool :=
  !t.slotPool && t.format == 0x06 &&
    decide (((((wireCues c layer).map fun q => q.aTensor).foldl insertNew []).map fun a => match tensorOf c a with
      | some x => elemsOf x
      | none => 0).sum ≤ elemsOf t)

/-- The layer's wire SEND_BLOCKS name one full error memory (R184). -/
def fullMemory (c : Chart) (layer : Nat) : Bool :=
  match wireCues c layer with
  | [] => false
  | w :: l => (l.all fun q => q.bTensor == w.bTensor) && match tensorOf c w.bTensor with
    | some t => fullShape c layer t
    | none => false

/-- Every error memory that the layer's cues name has one of the two shapes of R184. -/
def memoryShapes (c : Chart) (layer : Nat) : Bool :=
  (wireCues c layer).all fun q => q.bTensor == 0xFFFF || match tensorOf c q.bTensor with
    | some t => t.slotPool || fullShape c layer t
    | none => true

/-- A LAYER record at fault: its mask, its rule, its error memory. -/
def layerFault (c : Chart) (l : LayerRec) : Bool :=
  !(c.rules.any fun r => r.ruleId == l.ruleId) ||
    (!(l.maskKind == 0) && match tensorOf c l.maskId with
      | some t => !(t.format == 0x0C)
      | none => true) || !(memoryShapes c l.layer) ||
      ((decide (0 < l.k) || l.flags.getLsbD 1) && !(fullMemory c l.layer))

/-- A rule record at fault (R145). -/
def ruleFault (c : Chart) (r : RuleRec) : Bool :=
  decide (1 < (c.rules.filter fun x => x.ruleId == r.ruleId).length) || decide (r.startLevel < r.minLevel) || decide (r.maxLevel < r.startLevel)

/-- LAYER records at fault: order of R116, and each record. -/
def layerFaults (c : Chart) : List Bytes → Nat → Option Nat → Bool → List Fault3
  | [], _, _, _ => []
  | b :: l, i, last, ruled =>
    let isRule := leAt b 0 2 == 0xFFFF
    let order := !isRule && (ruled || match last with
      | some k => decide (leAt b 0 2 ≤ k)
      | none => false)
    let bad := order || (if isRule then ruleFault c (parseRule b) else layerFault c (parseLayer b))
    (if bad then [(secOf c 10, i)] else []) ++
      layerFaults c l (i + 1) (if isRule then last else some (leAt b 0 2)) (ruled || isRule)

/-- A row of check 7 over the cue sheet: the main Chart's records, or else the variants with which it fails. -/
def cueRow (code : Code) (c : Chart) (bad : Chart → List Nat) : Option Refused :=
  let l := bad c
  refuseAt code (l.map (fun i => (secOf c 7, i)) ++ variantOnly c l.isEmpty fun x => !(bad x).isEmpty)

/-- Cue records of a sheet that satisfy a test. -/
def cuesWith (bad : Chart → Cue → Bool) (c : Chart) : List Nat :=
  (((indexed 0 c.cues).flatMap fun p => p.2).filter fun x => bad c x.2).map fun x => x.1

/-- Check 7. -/
def check7 (img : Bytes) (c : Chart) : Option Refused :=
  let cs := secOf c 7
  let main := (cueFaults c).map fun i => (cs, i)
  firstOf [
    refuseIn 0x0218 ((entryFaults (indexed 0 c.cues)).map fun i => (cs, i)),
    refuseAt 0x0218 (main ++ badAt (secOf c 6) (variantCuesBad c) c.variants ++ variantOnly c main.isEmpty sheetBad),
    cueRow 0x0219 c (cuesWith fun c q => (matOperands c q).any fun t => t.format == 0x08),
    cueRow 0x021A c (cuesWith fun c q => isMatmul q.kind && decide (8388608 < productK c q)),
    cueRow 0x021B c sramFaults,
    cueRow 0x021C c sheetPins,
    if epsilonOk c then none else cueRow 0x021D c (cuesWith fun _ q => usesEpsilon q),
    refuseAt 0x021E (claimFaults img c),
    refuseAt 0x021F (badAt (secOf c 9) (collFault c) c.collectives ++
      badAt (secOf c 11) (fun k => k.kind == 2 && k.feature == 3 && !(c.collectives.any fun d => d.id == k.arg)) c.claims ++
      layerFaults c (chunks 16 (secCount img 10) (secBytes img 10)) 0 none false)]

/-! ### Check 8: power plan and variants (R111, R112, R114) -/

/-- Phase records out of order, repeated, or planned above their slowest point; or with a slowest point below the rate of
the phase's transfers, which the image does not state as figures (log entry 41). -/
def phaseFault (c : Chart) (i : Nat) (p : Phase) : Bool :=
  decide (p.slowest < p.point) || Config.transfersTooSlow c.digest i ||
    (decide (0 < i) && match c.power.phases[i - 1]? with
      | some q => decide (p.id ≤ q.id)
      | none => false)

/-- Phases at fault. -/
def phaseFaults (c : Chart) : List Fault3 :=
  (List.range c.power.phases.length).filterMap fun i => match c.power.phases[i]? with
    | some p => if phaseFault c i p then some (secOf c 8, i) else none
    | none => none

/-- Tensors, descriptors and counters that cues name. -/
def cueNames (l : List Cue) : List (Nat × Nat) :=
  l.foldl (fun acc q =>
    ([(0, q.aTensor), (0, q.bTensor), (0, q.outTensor), (0, q.auxTensor), (1, q.descId)] ++
      (if q.wait0Target = 0 then [] else [(2, q.wait0Ctr)]) ++ (if q.wait1Target = 0 then [] else [(2, q.wait1Ctr)]) ++
      (if q.sigMode = 0 then [] else [(2, q.sigCtr)])).foldl insertNew acc) []

/-- Two lists hold the same members. -/
def sameMembers (a b : List (Nat × Nat)) : Bool := a.all (fun x => b.contains x) && b.all fun x => a.contains x

/-- The cues of a region's tiles. -/
def regionCues (c : Chart) (r : Region) : List Cue :=
  (c.cues.filter fun p => inRect r.col0 r.row0 r.col1 r.row1 p.1).flatMap fun p => p.2

/-- A tile that a variant may use (R111): wings of its own die for a tile loss; for a die loss, wings and region tiles
of the dies that are left. -/
def variantTileOk (c : Chart) (v : Variant) (t : Nat) : Bool :=
  if v.dieLoss then !((dieOfTile t).val == v.coveredDie) && c.dieMask.getLsbD (dieOfTile t).val
  else !(inRegions c t) && dieOfTile t == dieOfTile (72 * v.row0 + v.col0) && c.dieMask.getLsbD (dieOfTile t).val

/-- A variant at fault (R82, R111). -/
def variantFault (c : Chart) (v : Variant) : Bool :=
  match c.regions.find? fun r => r.id == v.regionId with
  | none => true
  | some r =>
    decide (1 < (c.variants.filter fun x => x.id == v.id).length) || inverted v.col0 v.row0 v.col1 v.row1 ||
      (rectTiles v.col0 v.row0 v.col1 v.row1).any (fun t => !(variantTileOk c v t)) ||
      v.cues.any (fun p => !(inRect v.col0 v.row0 v.col1 v.row1 p.1)) ||
      v.placements.any (fun p => decide (p.kind ≤ 2) && !(variantTileOk c v (72 * p.grow + p.gcol))) ||
      v.placements.any (fun p => !(c.placements.any fun q => q.tensorId == p.tensorId)) ||
      v.routes.any (fun x => !(c.routes.any fun y => y.id == x.id)) ||
      !(sameMembers (cueNames (v.cues.flatMap fun p => p.2)) (cueNames (regionCues c r)))

/-- A protected region has no tile-loss variant (R112). -/
def unprotected (c : Chart) (r : Region) : Bool :=
  (c.protectAll || r.isProtected) && !(c.variants.any fun v => v.regionId == r.id && !v.dieLoss)

/-- Check 8. -/
def check8 (c : Chart) : Option Refused :=
  firstOf [
    if 23000 < floorSum c.power then some ⟨0x0220, secOf c 8, noRecord⟩ else none,
    refuseAt 0x0220 (badAt (secOf c 8) (fun p => decide (23000 < phaseTotal p)) c.power.phases),
    refuseAt 0x0221 (phaseFaults c),
    if c.power.trimMode = 1 ∧ 64 < c.groupSize then some ⟨0x0222, secOf c 8, noRecord⟩ else none,
    refuseAt 0x0228 (badAt (secOf c 1) (unprotected c) c.regions),
    refuseAt 0x0229 (badAt (secOf c 6) (variantFault c) c.variants)]

/-! ### Check 9: the context (R118, R119, R293) -/

/-- A frame of the model store (R152). -/
def frameBytes : Nat := 64 * 2 ^ 20

/-- Round up to whole frames. -/
def wholeFrames (n : Nat) : Nat := (n + frameBytes - 1) / frameBytes * frameBytes

/-- Shards of the largest layer of a manifest, which R172 stages. -/
def largestLayer (m : Manifest) : Nat :=
  (List.range m.layerCount).foldl (fun acc l => max acc ((m.shards.filter fun x => x.layer == l).length)) 0

/-- Bytes of a context's model: the frames of a resident model with the staging frames of R172, and the manifest copy. -/
def modelBytes (x : Ctx) : Nat :=
  match x.model with
  | none => 0
  | some m =>
    (if m.resident then frameBytes * (m.fetch.manifest.shards.length + largestLayer m.fetch.manifest) else 0) + wholeFrames m.fetch.manifest.bytes

/-- Bytes of a Chart's stack areas. -/
def stackAreaBytes (c : Chart) : Nat :=
  ((c.areas.filter fun a => a.memory == 3).map fun a => a.slotCount * a.slotBytes).sum

/-- A slot's stack reservation in bytes (R291). -/
def reservation (x : Ctx) : Nat := x.stackGib * 2 ^ 30

/-- The owner's public key: the image holds its fingerprint; a signer key with that fingerprint is it, and otherwise
the key is known outside the image (log entry 43). -/
def ownerKey (c : Chart) : Bytes :=
  match c.signers.find? fun k => Config.shake256 k 64 == c.ownerFp with
  | some k => k
  | none => Config.keyOfFp c.ownerFp

/-- Check 9; a stack entry of a variant beyond the reservation is named at the variant (R110, R432). -/
def check9 (s : State) (op : LoadOp) (c : Chart) : Option Refused :=
  let x := s.ctxOf op.slot
  let prior := match chartOf s op.slot with
    | some p => p.imageBytes
    | none => 0
  let beyond (p : Placement) : Bool := p.kind == 3 && decide (reservation x < p.address + 64 * p.lines)
  firstOf [
    if c.groupSize ≤ op.member then some ⟨0x0206, noSect, noRecord⟩ else none,
    if !(c.ownerFp == x.ownerFp) || (c.ownerSigned && !(Config.mldsaVerify (ownerKey c) c.digest c.ownerSig)) then some ⟨0x0230, secOf c 12, noRecord⟩ else none,
    (firstIndex beyond c.placements).map fun i => ⟨0x0231, secOf c 5, i⟩,
    (firstIndex (fun v => v.placements.any beyond) c.variants).map fun i => ⟨0x0231, secOf c 6, i⟩,
    if reservation x < c.imageBytes + stackAreaBytes c + prior + Config.contextStateBytes c.layers.length + modelBytes x then some ⟨0x0231, noSect, noRecord⟩ else none]

end Sys2Proof.Machine
end

