-- ==== Sys2Proof/Machine/Operands.lean ====
section
/-! DEFINITION. The operand forms of the commands that arrive as bytes: queue entries and their bodies
(Tables 11-7, 11-8, 9-2), participation masks, shard records and messages (Tables 7-2, 7-9), manifests
(R156), and the mailbox and management requests (Tables 12-2, 12-13). -/

namespace Sys2Proof.Machine

open Sys2Proof

/-! ### Queue entries -/

/-- A queue entry (Table 11-7). -/
structure Entry where
  opcode : Nat
  flags : Byte
  fence : Nat
  tag : BitVec 32
  value : BitVec 64
  body : Bytes
  deriving DecidableEq, Repr

/-- The entry that a 64-byte line spells. -/
def parseEntry (l : Bytes) : Entry :=
  { opcode := (byteAt l 0).toNat, flags := byteAt l 1, fence := leAt l 2 2,
    tag := BitVec.ofNat 32 (leAt l 4 4), value := BitVec.ofNat 64 (leAt l 8 8), body := slice l 16 48 }

/-- Phase bit of an entry. -/
def Entry.phase (e : Entry) : Bool := e.flags.getLsbD 0

/-- irq flag. -/
def Entry.irq (e : Entry) : Bool := e.flags.getLsbD 1

/-- signal flag. -/
def Entry.signal (e : Entry) : Bool := e.flags.getLsbD 2

/-- The opcodes of Table 11-8. -/
def opcodes : List Nat :=
  [0x01, 0x02, 0x10, 0x20, 0x21, 0x22, 0x23, 0x30, 0x31, 0x32, 0x33, 0x34, 0x40]

/-- The reserved spans (offset, length) of a body, by opcode (Tables 11-8 and 9-2). -/
def reservedSpans (op : Nat) : List (Nat × Nat) :=
  if op == 0x01 then [(40, 8)]
  else if op == 0x02 ∨ op == 0x23 then [(0, 48)]
  else if op == 0x10 then [(1, 3), (8, 40)]
  else if op == 0x20 ∨ op == 0x21 ∨ op == 0x22 then [(17, 3), (28, 20)]
  else if op == 0x30 then [(2, 2), (19, 1), (44, 4)]
  else if op == 0x31 then [(2, 2), (17, 7), (40, 8)]
  else if op == 0x32 then [(2, 2), (18, 6), (40, 8)]
  else if op == 0x33 then [(2, 2), (18, 2), (40, 8)]
  else if op == 0x34 then [(2, 2), (16, 32)]
  else if op == 0x40 then [(12, 36)]
  else []

/-- The role byte of a weight body holds a value it defines: 0 or 1, and 0 for BIND_MANIFEST
(DEDUCED: any other value sets a bit that Table 11-8 gives no meaning). -/
def roleValid (e : Entry) : Bool :=
  if e.opcode == 0x20 then byteAt e.body 13 == 0
  else if e.opcode == 0x21 || e.opcode == 0x22 then decide ((byteAt e.body 13).toNat ≤ 1)
  else true

/-- The entry breaks its format (R278): unknown opcode or a reserved bit set. -/
def badFormat (e : Entry) : Bool :=
  !(opcodes.contains e.opcode) || !((e.flags &&& 0xF8) == 0) || decide (4096 ≤ e.fence) ||
    !((reservedSpans e.opcode).all fun p => zeros e.body p.1 p.2) ||
    (e.opcode == 0x32 && !((byteAt e.body 17 &&& 0xFE) == 0)) || !(roleValid e)

/-- The four waits of a FENCE_WAIT body: index and value (R279). -/
def waitsOf (b : Bytes) : List (Nat × BitVec 64) :=
  (List.range 4).map fun k => (leAt b (2 * k) 2, BitVec.ofNat 64 (leAt b (8 + 8 * k) 8))

/-- The waits in use. -/
def usedWaits (b : Bytes) : List (Nat × BitVec 64) :=
  (waitsOf b).filter fun w => !(w.1 == 0xFFFF)

/-- A FENCE_WAIT names an index above 4,095 (R279). -/
def badIndex (b : Bytes) : Bool :=
  (usedWaits b).any fun w => decide (4096 ≤ w.1)

/-! ### Command bodies -/

/-- The weight body (Table 11-8). -/
structure WeightBody where
  addr : Nat
  len : Nat
  keyIndex : Nat
  pilot : Bool
  holdMs : Nat
  retries : Nat
  endpoint : BitVec 32
  group : BitVec 32
  deriving DecidableEq, Repr

/-- Read a weight body; hold_ms and retries of 0 select the defaults 100 and 3 (Table 7-5). -/
def parseWeight (b : Bytes) : WeightBody :=
  let h := leAt b 14 2
  let r := leAt b 16 1
  { addr := leAt b 0 8, len := leAt b 8 4, keyIndex := leAt b 12 1, pilot := byteAt b 13 == 1,
    holdMs := if h = 0 then 100 else h, retries := if r = 0 then 3 else r,
    endpoint := BitVec.ofNat 32 (leAt b 20 4), group := BitVec.ofNat 32 (leAt b 24 4) }

/-- The fields that every collective body has. -/
structure CollBody where
  descId : Nat
  seq : Nat
  maskAddr : Nat
  rest : Bytes
  deriving DecidableEq, Repr

/-- Read a collective body (Table 9-2). `rest` is the whole body. -/
def parseColl (b : Bytes) : CollBody :=
  { descId := leAt b 0 2, seq := leAt b 4 4, maskAddr := leAt b 8 8, rest := b }

/-- The REDUCE_SHARDS fields (Table 9-2). -/
structure ReduceBody where
  planeMask : BitVec 16
  maskOp : Nat
  f : BitVec 32
  bc1 : BitVec 32
  bc2 : BitVec 32
  logAddr : Nat
  logLen : Nat
  deriving DecidableEq, Repr

/-- Read them. -/
def parseReduce (b : Bytes) : ReduceBody :=
  { planeMask := BitVec.ofNat 16 (leAt b 16 2), maskOp := leAt b 18 1, f := BitVec.ofNat 32 (leAt b 20 4),
    bc1 := BitVec.ofNat 32 (leAt b 24 4), bc2 := BitVec.ofNat 32 (leAt b 28 4), logAddr := leAt b 32 8,
    logLen := leAt b 40 4 }

/-- src_addr of COUNTS, SCALAR_SUM and BROADCAST. -/
def srcAddr (b : Bytes) : Nat := leAt b 24 8

/-- dst_addr of the same. -/
def dstAddr (b : Bytes) : Nat := leAt b 32 8

/-- Member m's bit of a 256-byte mask: bit m mod 8 of byte ⌊m ÷ 8⌋ (R212). -/
def maskBits (b : Bytes) : BitVec 2048 :=
  BitVec.ofNat 2048 (leNat (slice b 0 256))

/-- The 256 bytes of a participation mask. -/
def maskBytes (m : BitVec 2048) : Bytes := toLe 256 m.toNat

/-- Members 0 to N − 1. -/
def fullMask (n : Nat) : BitVec 2048 := BitVec.ofNat 2048 (2 ^ n - 1)

/-- The members of a mask, in ascending order. -/
def maskMembers (m : BitVec 2048) : List Nat :=
  (List.range 2048).filter fun i => m.getLsbD i

/-! ### Shard records and messages -/

/-- A shard record's header (Table 7-2). -/
structure ShardHdr where
  magic : Nat
  modelId : BitVec 128
  shard : Nat
  layer : Nat
  patch : Bool
  writer : Nat
  version : BitVec 32
  length : Nat
  streamOffset : Nat
  nonce : Nat
  digest : Bytes
  clean : Bool
  deriving DecidableEq, Repr

/-- Read a shard record's header; `clean` says that its reserved bits are zero. -/
def parseShardHdr (h : Bytes) : ShardHdr :=
  { magic := leAt h 0 4, modelId := BitVec.ofNat 128 (leAt h 4 16), shard := leAt h 20 4,
    layer := leAt h 24 2, patch := (byteAt h 26).getLsbD 0, writer := leAt h 28 2,
    version := BitVec.ofNat 32 (leAt h 32 4), length := leAt h 36 4, streamOffset := leAt h 40 8,
    nonce := leAt h 48 12, digest := slice h 128 64,
    clean := (byteAt h 26 &&& 0xFE) == 0 && zeros h 27 1 && zeros h 30 2 && zeros h 60 68 &&
      zeros h 192 64 && h.length == 256 }

/-- Write a shard record's header. -/
def shardHdrBytes (h : ShardHdr) : Bytes :=
  toLe 4 0x44524853 ++ toLe 16 h.modelId.toNat ++ toLe 4 h.shard ++ toLe 2 h.layer ++ toLe 1 (b2n h.patch) ++
    [0] ++ toLe 2 h.writer ++ [0, 0] ++ toLe 4 h.version.toNat ++ toLe 4 h.length ++ toLe 8 h.streamOffset ++
    toLe 12 h.nonce ++ List.replicate 68 0 ++ slice h.digest 0 64 ++ List.replicate 64 0

/-- A shard service message's header (Table 7-9). -/
structure SvcHdr where
  kind : Nat
  reason : Nat
  modelId : BitVec 128
  shard : Nat
  version : BitVec 32
  holdMs : Nat
  writer : Nat
  streamOffset : Nat
  count : Nat
  clean : Bool
  deriving DecidableEq, Repr

/-- Read it. -/
def parseSvc (h : Bytes) : SvcHdr :=
  { kind := leAt h 0 1, reason := leAt h 1 1, modelId := BitVec.ofNat 128 (leAt h 4 16),
    shard := leAt h 20 4, version := BitVec.ofNat 32 (leAt h 24 4), holdMs := leAt h 28 2,
    writer := leAt h 30 2, streamOffset := leAt h 32 8, count := leAt h 40 2,
    clean := zeros h 2 2 && zeros h 42 22 && h.length == 64 }

/-- The layout of Table 7-9 is kept: a field the kind does not use is zero (R160). -/
def svcValid (h : SvcHdr) (records : Nat) : Bool :=
  h.clean && decide (h.shard < 65536) &&
  (if h.kind == 0x61 then
    h.reason == 0 && h.holdMs == 0 && h.writer == 0 && h.streamOffset == 0 && decide (1 ≤ h.count) &&
      h.count == records
  else if h.kind == 0x62 then
    decide (1 ≤ h.reason) && decide (h.reason ≤ 3) && h.holdMs == 0 && h.writer == 0 &&
      h.streamOffset == 0 && h.count == 0 && records == 0
  else if h.kind == 0x64 then
    h.reason == 0 && h.holdMs == 0 && h.count == 0 && records == 0
  else false)

/-! ### The manifest (R156, Tables 7-3 and 7-4) -/

/-- A manifest as it lies in the HDM range. -/
structure ManifestHdr where
  magic : Nat
  modelId : BitVec 128
  baseStep : BitVec 32
  shards : Nat
  layers : Nat
  tensors : Nat
  signerFp : Bytes
  total : Nat
  clean : Bool
  deriving DecidableEq, Repr

/-- Read a manifest's header. -/
def parseManifestHdr (b : Bytes) : ManifestHdr :=
  { magic := leAt b 0 4, modelId := BitVec.ofNat 128 (leAt b 4 16), baseStep := BitVec.ofNat 32 (leAt b 20 4),
    shards := leAt b 24 4, layers := leAt b 28 2, tensors := leAt b 30 2, signerFp := slice b 32 64,
    total := leAt b 96 8, clean := zeros b 104 24 }

/-- Length of the tensor list with its padding. -/
def tensorListLen (n : Nat) : Nat := (4 * n + 31) / 32 * 32

/-! ### Management requests (R321) -/

/-- Bytes of a management request before its signature. -/
def mgmtBytes (magic version : Nat) (cred : Byte) (opcode counter serial epoch : Nat) (body : Bytes) : Bytes :=
  toLe 4 magic ++ toLe 4 version ++ [cred, 0] ++ toLe 2 opcode ++ toLe 8 counter ++ toLe 8 serial ++
    toLe 4 epoch ++ toLe 4 body.length ++ body

end Sys2Proof.Machine
end

