-- ==== Sys2Proof/Machine/Queues.lean ====
section
/-! DEFINITION. Queues, fences and completion rings (R267 to R285): host writes, the entry at the head and
what lets it start, refusals, NOP, cancels, record writes; the two CXL ports and failover (R260 to R265). -/

namespace Sys2Proof.Machine

open Sys2Proof

/-! ### Latching (R271, R284) -/

/-- A queue's register base. -/
def Queue.base (x : Queue) : Nat := x.baseLo.toNat + x.baseHi.toNat * 2 ^ 32

/-- A ring of `n` entries at `base` may be latched in slot `i` (R271). -/
def ringFits (s : State) (i : Slot) (base size : Nat) : Bool :=
  decide (base % (64 * size) = 0) && inHdm s i base (64 * size)

/-- Latch a queue's base and size: head 0, phase 1, no marks; a refused latch reports 0x0308 (R271). -/
def latchQueue (i : Slot) (q : QId) (s : State) : State :=
  let x := s.queueOf i q
  let lg := x.sizeLog2.toNat
  let ok := decide (4 ≤ lg) && decide (lg ≤ 12) && ringFits s i x.base (2 ^ lg)
  let s := modQueue i q (fun x => { x with
    latched := ok, lBase := x.base, lSize := 2 ^ lg, phase := true, head := 0, valid := [] }) s
  if ok then s else reportCtx i (some 3) { code := 0x0308, value := queueValue q 0 } s

/-- The queue takes writes: its slot is not closed, it is latched and not cancelling (R273, R276). -/
def queueWatched (s : State) (i : Slot) (q : QId) : Bool :=
  let x := s.queueOf i q
  isOpen s i && x.latched && !x.cancel

/-- Phase that slot `idx` of a queue expects (R273). -/
def slotPhase (x : Queue) (idx : Nat) : Bool :=
  if x.head ≤ idx then x.phase else !x.phase

/-! ### Host writes (R268, R270, R273 to R275) -/

/-- A full-line write at range offset `off` meets one queue: a second write of a valid slot is counted
(R275), a write with the expected phase marks its slot valid in the observed order (R273, R274). -/
def observeLine (i : Slot) (off : Nat) (e : Entry) (s : State) (q : QId) : State :=
  let x := s.queueOf i q
  let idx := (off - x.lBase) / 64
  if !(queueWatched s i q) || decide (off < x.lBase) || decide (x.lSize ≤ idx) then s
  else if x.valid.any fun v => v.1 == idx then
    reportCtx i (some 0) { code := 0x0303, isCount := true, value := queueValue q idx } s
  else if e.phase == slotPhase x idx then
    modQueue i q (fun x => { x with valid := x.valid ++ [(idx, s.observed + 1)] })
      { s with observed := s.observed + 1 }
  else s

/-- The slot whose span holds a window offset, and the offset in its range (R267). -/
def spanOf (offset : BitVec 41) : Slot × Nat :=
  (Fin.ofNat 8 (offset.toNat / 2 ^ 38), offset.toNat % 2 ^ 38)

/-- The range at a window offset is open and not being erased (R268, Table 12-4). -/
def hdmMapped (s : State) (offset : BitVec 41) (n : Nat) : Bool :=
  let p := spanOf offset
  isOpen s p.1 && !(decide ((s.ctxOf p.1).state = .curtain)) && inHdm s p.1 p.2 n

/-- An access outside every open range is counted (R268). -/
def countOutside (s : State) : State :=
  reportHost (some 4) { code := 0x0312, isCount := true, loc := locPort s.host.activePort,
                        value := s.host.outsideCount + 1 }
    { s with host := { s.host with outsideCount := s.host.outsideCount + 1 } }

/-- A host write reaches the write path: the bytes are stored, and a full line is shown to the slot's
queues; a write that nothing maps is discarded (R268, R270). -/
def hostWrite (offset : BitVec 41) (line : Bytes) (s : State) : State :=
  let p := spanOf offset
  if hdmMapped s offset line.length then
    let s := storeBytes (hdmKey p.1 p.2) line s
    if line.length = 64 ∧ p.2 % 64 = 0 then allQueues.foldl (observeLine p.1 p.2 (parseEntry line)) s else s
  else emit (.cxl 2) (countOutside s)

def execQueueEntryWrite (offset : BitVec 41) (line : Bytes) (s : State) : Host.Outcome State Fault Refusal :=
  .next (when' (activeUp s) (hostWrite offset line) s)

/-! ### The entry at the head (R275, R279, R280) -/

/-- The entry in slot `idx` of a queue as its line holds it. -/
def entryAt (s : State) (i : Slot) (q : QId) (idx : Nat) : Entry :=
  parseEntry (s.hdmBytes i ((s.queueOf i q).lBase + 64 * idx) 64)

/-- Observed order of a valid mark. -/
def markOf (x : Queue) (idx : Nat) : Option Nat := find? x.valid idx

/-- The slot after `idx`. -/
def nextSlot (x : Queue) (idx : Nat) : Nat := (idx + 1) % x.lSize

/-- The command at the head: its own entry, the slot and order of that entry, and the FENCE_WAIT bound to
it, if one is. -/
structure Ready where
  lead : Option Entry
  entry : Entry
  idx : Nat
  order : Nat
  deriving DecidableEq, Repr

/-- The queue may start entries: latched, enabled, no cancel. -/
def queueOn (s : State) (i : Slot) (q : QId) : Bool :=
  queueWatched s i q && (s.queueOf i q).enable

/-- A marked slot whose line still carries its phase. -/
def stillValid (s : State) (i : Slot) (q : QId) (idx : Nat) : Bool :=
  (markOf (s.queueOf i q) idx).isSome && (entryAt s i q idx).phase == slotPhase (s.queueOf i q) idx

/-- A slot whose line no longer carries its phase loses its mark (R275). -/
def dropStale (i : Slot) (q : QId) (idx : Nat) (s : State) : State :=
  if stillValid s i q idx then s
  else modQueue i q (fun x => { x with valid := dropPair x.valid idx }) s

/-- Read the head: the head's line, and the next slot's where the head is a FENCE_WAIT. -/
def readHead (i : Slot) (q : QId) (s : State) : State :=
  let x := s.queueOf i q
  let s := dropStale i q x.head s
  if (markOf (s.queueOf i q) x.head).isSome && (entryAt s i q x.head).opcode == 0x01 then
    dropStale i q (nextSlot x x.head) s
  else s

/-- The command at the head, once every entry of it is valid. -/
def headOf (s : State) (i : Slot) (q : QId) : Option Ready :=
  let x := s.queueOf i q
  match markOf x x.head with
  | none => none
  | some o =>
    let e := entryAt s i q x.head
    if e.opcode == 0x01 then
      let n := nextSlot x x.head
      match markOf x n with
      | none => none
      | some o' => some { lead := some e, entry := entryAt s i q n, idx := n, order := o' }
    else some { lead := none, entry := e, idx := x.head, order := o }

/-- The head moves past a command's entries; at the end of the ring the phase turns (R273). -/
def passHead (x : Queue) : Queue :=
  { x with valid := dropPair x.valid x.head, head := nextSlot x x.head,
           phase := if x.head + 1 = x.lSize then !x.phase else x.phase }

/-- Consume a command's entries. -/
def consume (i : Slot) (q : QId) (r : Ready) (s : State) : State :=
  modQueue i q (fun x => if r.lead.isSome then passHead (passHead x) else passHead x) s

/-- Supported major of the queue entry format (Table 0-2). -/
def queueMajor : BitVec 8 := 1

/-- A body address or length that R278 holds to the HDM range. -/
def badAddress (s : State) (i : Slot) (e : Entry) : Bool :=
  if e.opcode == 0x20 || e.opcode == 0x21 || e.opcode == 0x22 then
    !(inHdm s i (leAt e.body 0 8) (leAt e.body 8 4))
  else if e.opcode == 0x40 then !(inHdm s i (leAt e.body 0 8) (leAt e.body 8 4))
  else false

/-- The refusal that depends on a command's entries alone (R278, R279). -/
def refusalOf (s : State) (i : Slot) (r : Ready) : Option Code :=
  if (match r.lead with
      | some f => badFormat f
      | none => false) || badFormat r.entry then some 0x0301
  else if (match r.lead with
      | some f => f.irq || f.signal || badIndex f.body || r.entry.opcode == 0x01
      | none => false) then some 0x0302
  else if badAddress s i r.entry then some 0x0304
  else none

/-- The running form of a command. -/
def cmdOf (q : QId) (idx : Nat) (e : Entry) : Cmd :=
  { q := q, entry := idx, opcode := e.opcode, irq := e.irq, signal := e.signal, signalFence := e.fence,
    signalValue := e.value, tag := e.tag, key := 0 }

/-- Put a record among those the ring holds (R282, R284). -/
def holdRecord (i : Slot) (r : CplRecord) (s : State) : State :=
  modCtx i (fun c => { c with cq := { c.cq with held := c.cq.held ++ [r] } }) s

/-- First 8 bytes of a model_id, the value of chapter 7's events (R177). -/
def idValue (id : BitVec 128) : Nat := id.toNat % 2 ^ 64

/-- First 8 bytes of the model_id that a weight command concerns: its manifest's, or for RELEASE_MODEL the model's that stands. -/
def commandModel (s : State) (i : Slot) (e : Entry) : Nat :=
  if e.opcode = 0x23 then (match (s.ctxOf i).model with
    | some m => idValue m.fetch.manifest.modelId
    | none => 0)
  else leNat (s.hdmBytes i (leAt e.body 0 8 + 4) 8)

/-- A refusal's event: its value is queue and entry, for a code of chapter 7 the model_id (R177); a code of chapter 9 carries desc_id
and seq (R236). -/
def refusalEvent (s : State) (i : Slot) (q : QId) (idx : Nat) (e : Entry) (code : Code) : Ev :=
  if code.toNat / 256 = 7 then { code := code, cue := leAt e.body 0 2, value := leAt e.body 4 4 }
  else { code := code, value := if code.toNat / 256 = 5 then commandModel s i e else queueValue q idx }

/-- Refuse a command with its event and its record: no fence is signalled (R278). -/
def refuseCmd (i : Slot) (q : QId) (idx : Nat) (e : Entry) (code : Code) (detail : Nat) (s : State) : State :=
  let ev := refusalEvent s i q idx e code
  let s := if code.toNat / 256 = 3 then reportCtx i (some 2) ev s
    else modCtx i (fun c => { c with events := c.events ||| 4 }) (report { ev with slot := BitVec.ofNat 8 i } s)
  holdRecord i (cplRecord (cmdOf q idx e) code 0xFFFF detail 0) s

/-- What ENTRY_REFUSAL does: an unsupported major refuses the head entry alone, once per entry (R272);
the other refusals refuse the whole command (R278, R279). -/
def refuseHead (i : Slot) (q : QId) (s : State) : State :=
  let x := s.queueOf i q
  let c := s.ctxOf i
  if !(slotFree c) then s
  else if (markOf x x.head).isSome && !(c.fmtMajor == queueMajor) then
    refuseCmd i q x.head (entryAt s i q x.head) 0x0307 0 (modQueue i q passHead s)
  else match headOf s i q with
    | none => s
    | some r =>
      match refusalOf s i r with
      | none => s
      | some code => refuseCmd i q r.idx r.entry code 0 (consume i q r s)

def execEntryRefusal (i : Slot) (q : QId) (s : State) : Host.Outcome State Fault Refusal :=
  .next (when' (queueOn s i q) (fun s => refuseHead i q (readHead i q s)) s)

/-! ### Starting a command (R280) -/

/-- The context holds the engine, is not being relieved of it, and no course of the engine stops starts:
a stage op on its slot (R120), a hand-over (R296), a halt (R373), a tray release (R393), PWR_GOOD (R420). -/
def mayStart (s : State) (i : Slot) : Bool :=
  decide ((s.ctxOf i).state = .holding) &&
  !(match s.loader.running with
    | some op => op.isStage && op.slot == i
    | none => false) &&
  !(match s.sec.handOver with
    | some h => h.outgoing == some i
    | none => false) &&
  !s.thermal.halting && !s.thermal.halted && !s.start.releaseLow && !s.start.pwrGoodLow

/-- Every wait of a bound FENCE_WAIT is met (R279, R280). -/
def waitsMet (s : State) (i : Slot) (r : Ready) : Bool :=
  match r.lead with
  | none => true
  | some f => (usedWaits f.body).all fun w => decide (w.2.toNat ≤ (look 0 (s.ctxOf i).fences w.1).toNat)

/-- The command at the head may start, its own limits apart. -/
def startable (s : State) (i : Slot) (q : QId) (op : Nat) : Option Ready :=
  match headOf s i q with
  | none => none
  | some r =>
    if r.entry.opcode = op ∧ (s.ctxOf i).fmtMajor = queueMajor ∧ refusalOf s i r = none ∧ mayStart s i ∧
        waitsMet s i r ∧ slotFree (s.ctxOf i) then some r
    else none

/-! ### Limits of a kind (R136, R174, R210) -/

/-- A SWAP_MODEL entry of the slot became valid before `order` and has not started (R174). -/
def swapAhead (s : State) (i : Slot) (order : Nat) : Bool :=
  allQueues.any fun q => queueWatched s i q &&
    ((s.queueOf i q).valid.any fun v => decide (v.2 < order) && (entryAt s i q v.1).opcode == 0x22)

/-- A resident model has a shard that a re-check found bad and that is not valid again (R169). -/
def recheckBarrier (c : Ctx) : Bool :=
  match c.model with
  | some m => m.resident && !m.loading && m.fetch.holds.any fun h => !h.valid
  | none => false

/-- A pass command is held at the admission barrier (R169, R174, R176). -/
def barred (s : State) (i : Slot) (order : Nat) : Bool :=
  ((s.ctxOf i).barrier && decide ((s.ctxOf i).barrierOrder < order)) || swapAhead s i order || recheckBarrier (s.ctxOf i)

/-- A pass command at the head of another queue that could start too was observed earlier: passes are admitted in the observed
order (R174). -/
def passAhead (s : State) (i : Slot) (order : Nat) : Bool :=
  allQueues.any fun q => queueOn s i q && match startable s i q 0x10 with
    | some x => decide (x.order < order) && !(barred s i x.order)
    | none => false

/-- One pass at a time, and none that the barrier holds (R136, R174). -/
def passLimit (s : State) (i : Slot) (r : Ready) : Bool :=
  (passOf s).isNone && !(barred s i r.order) && !(passAhead s i r.order)

/-- The command names a collective descriptor. -/
def namesDesc (op : Nat) : Bool := isGroupOp op || op == 0x30

/-- A command of a descriptor that was observed earlier has not started (R210). -/
def collAhead (s : State) (i : Slot) (desc order : Nat) : Bool :=
  allQueues.any fun q => queueWatched s i q && (s.queueOf i q).valid.any fun v =>
    decide (v.2 < order) && namesDesc (entryAt s i q v.1).opcode && (parseColl (entryAt s i q v.1).body).descId == desc

/-- One instance of a descriptor at a time, in the observed order (R210). -/
def collLimit (s : State) (i : Slot) (r : Ready) : Bool :=
  let desc := (parseColl r.entry.body).descId
  !((s.ctxOf i).running.any fun c => namesDesc c.opcode && c.key == desc) && !(collAhead s i desc r.order)

/-- The command's own limits (R280). -/
def ownLimit (s : State) (i : Slot) (r : Ready) : Bool :=
  if r.entry.opcode == 0x10 then passLimit s i r
  else if namesDesc r.entry.opcode then collLimit s i r
  else true

/-- q_state of Table 11-6: 0 off, 1 idle, 2 fence wait, 3 kind limit, 4 ring full, 5 cancelling, 6 context
not holding the engine. -/
def queueState (s : State) (i : Slot) (q : QId) : Nat :=
  if (s.queueOf i q).cancel then 5
  else if !(queueOn s i q) then 0
  else match headOf s i q with
    | none => 1
    | some r =>
      if (refusalOf s i r).isSome || !((s.ctxOf i).fmtMajor == queueMajor) then
        (if slotFree (s.ctxOf i) then 1 else 4)
      else if !(mayStart s i) then 6
      else if !(waitsMet s i r) then 2
      else if !(ownLimit s i r) then 3
      else if !(slotFree (s.ctxOf i)) then 4
      else 1

/-! ### Running -/

/-- The command runs: its completion slot is reserved (R280). -/
def addRunning (i : Slot) (cmd : Cmd) (s : State) : State :=
  modCtx i (fun c => { c with running := c.running ++ [cmd] }) s

/-- Start the command of opcode `op` at the head of a queue where R280 and the command's own limits allow
it: `f` is its course after its entries are consumed. -/
def startRow (op : Nat) (f : Slot → QId → Ready → State → State) (i : Slot) (q : QId) (s : State) : State :=
  if queueOn s i q then
    let s := readHead i q s
    match startable s i q op with
    | none => s
    | some r => if ownLimit s i r then f i q r (consume i q r s) else s
  else s

/-- Refuse a command at its start. -/
def refuseStart (i : Slot) (q : QId) (r : Ready) (code : Code) (detail : Nat) (s : State) : State :=
  refuseCmd i q r.idx r.entry code detail s

/-- A command that completes at once. -/
def atOnce (i : Slot) (q : QId) (r : Ready) (detail : Nat) (s : State) : State :=
  let cmd := cmdOf q r.idx r.entry
  completeCmd i cmd 0 0xFFFF detail (addRunning i cmd s)

def execNop (i : Slot) (q : QId) (s : State) : Host.Outcome State Fault Refusal :=
  .next (startRow 0x02 (fun i q r s => atOnce i q r 0 s) i q s)

/-! ### Cancel (R276) -/

/-- The valid marks of a queue in slot order from the head. -/
def marksInOrder (x : Queue) : List Nat :=
  ((List.range x.lSize).map fun k => (x.head + k) % x.lSize).filter fun j => (markOf x j).isSome

/-- Cancel every valid entry: a record with 0x0305 each, one for a FENCE_WAIT and the entry bound to it
(R276, R279). -/
def cancelEntries (i : Slot) (q : QId) (s : State) : State :=
  let x := s.queueOf i q
  let l := marksInOrder x
  let s' := l.foldl (fun s j =>
    let e := entryAt s i q j
    if e.opcode == 0x01 && l.contains (nextSlot x j) then s
    else holdRecord i (cplRecord (cmdOf q j e) 0x0305 0xFFFF 0 0)
      (reportCtx i none { code := 0x0305, value := queueValue q j } s)) s
  modQueue i q (fun x => { x with valid := [] }) s'

/-- A write of 1 to cancel; a queue that is cancelling already goes on. -/
def cancelQueue (i : Slot) (q : QId) (s : State) : State :=
  if (s.queueOf i q).cancel then s
  else modQueue i q (fun x => { x with cancel := true }) (cancelEntries i q s)

def execQueueCancel (i : Slot) (q : QId) (s : State) : Host.Outcome State Fault Refusal :=
  .next (when' (activeUp s) (cancelQueue i q) s)

/-- The cancel ends once no entry of the queue runs: head, phase and marks reset, base and size latched. -/
def endCancel (i : Slot) (q : QId) (s : State) : State :=
  latchQueue i q (modQueue i q (fun x => { x with cancel := false }) s)

def execQueueCancelComplete (i : Slot) (q : QId) (s : State) : Host.Outcome State Fault Refusal :=
  .next (when' ((s.queueOf i q).cancel && !((s.ctxOf i).running.any fun c => c.q == q)) (endCancel i q) s)

/-! ### Completion rings (R282 to R285) -/

/-- The 32 bytes of a record (Table 11-9). -/
def recordBytes (r : CplRecord) (phase : Bool) : Bytes :=
  toLe 4 r.tag.toNat ++ toLe 2 r.code.toNat ++ toLe 1 r.queue.toNat ++ toLe 1 r.opcode.toNat ++
    toLe 2 r.initiator.toNat ++ toLe 2 r.fence.toNat ++ toLe 2 r.entry.toNat ++ [0, 0] ++
    toLe 8 r.fenceValue.toNat ++ toLe 4 r.detail.toNat ++ [0, 0, 0] ++ [if phase then 0x80 else 0]

/-- Latch and enable a slot's ring (R284): every record that is not consumed is written again. -/
def enableRing (i : Slot) (s : State) : State :=
  let r := (s.ctxOf i).cq
  let lg := r.sizeLog2.toNat
  let base := r.baseLo.toNat + r.baseHi.toNat * 2 ^ 32
  let ok := decide (6 ≤ lg) && decide (lg ≤ 12) &&
    (!r.location || (isOpen s i && inHdm s i base (32 * 2 ^ lg)))
  let s := modCtx i (fun c => { c with cq := { c.cq with
    enable := true, tail := 0, phase := true, headInForce := 0, writing := false, irqDue := false,
    held := c.cq.held.map fun x => { x with written := false },
    latch := if ok then some { base := BitVec.ofNat 64 base, sizeLog2 := lg, inHdm := r.location } else none,
    lastSize := if ok then 2 ^ lg else c.cq.lastSize } }) s
  if ok then s else reportCtx i (some 3) { code := 0x0308, value := queueValue 0 0 } s

/-- Disable a slot's ring: nothing more is written. -/
def disableRing (i : Slot) (s : State) : State :=
  modCtx i (fun c => { c with cq := { c.cq with
    enable := false, latch := none, writing := false, irqDue := false } }) s

def execCqEnable (i : Slot) (s : State) : Host.Outcome State Fault Refusal :=
  .next (when' (activeUp s && !(s.ctxOf i).cq.enable) (enableRing i) s)

/-- Records written and not consumed. -/
def writtenCount (r : CplRing) : Nat := (r.held.filter fun x => x.written).length

/-- A write of cq_head: with the ring enabled and latched it consumes the records it passes (R283, R284). -/
def headWrite (i : Slot) (h : BitVec 12) (s : State) : State :=
  modCtx i (fun c =>
    let r := { c.cq with head := h }
    match r.latch with
    | none => { c with cq := r }
    | some l =>
      let n := 2 ^ l.sizeLog2
      let k := min ((h.toNat % n + n - r.headInForce) % n) (writtenCount r)
      { c with cq := { r with held := r.held.drop k, headInForce := (r.headInForce + k) % n } }) s

def execCqHeadWrite (i : Slot) (h : BitVec 12) (s : State) : Host.Outcome State Fault Refusal :=
  .next (when' (activeUp s) (headWrite i h) s)

/-- The next record whose write may start: the ring latched, room in it, no write in progress, no curtain;
a ring in host memory needs the active link (R283, R284, Table 12-4). -/
def nextWrite (s : State) (i : Slot) : Option (CqLatch × CplRecord) :=
  let r := (s.ctxOf i).cq
  match r.latch, r.held.find? fun x => !x.written with
  | some l, some x =>
    if !r.writing && decide (writtenCount r < 2 ^ l.sizeLog2) && !inCurtain s &&
        (if l.inHdm then isOpen s i && !(decide ((s.ctxOf i).state = .curtain)) &&
            inHdm s i l.base.toNat (32 * 2 ^ l.sizeLog2) else activeUp s)
    then some (l, x) else none
  | _, _ => none

/-- Start a record's write: one 32-byte write into the line that holds it. -/
def writeRecord (i : Slot) (l : CqLatch) (x : CplRecord) (s : State) : State :=
  let r := (s.ctxOf i).cq
  let s := modCtx i (fun c => { c with cq := { c.cq with writing := true, irqDue := x.irq } }) s
  let s := if l.inHdm then
      storeBytes (hdmKey i (l.base.toNat + 32 * r.tail.toNat)) (recordBytes x r.phase) s
    else s
  emit (.record i r.tail.toNat l.inHdm x r.phase) s

def execCompletionRecordWrite (i : Slot) (s : State) : Host.Outcome State Fault Refusal :=
  .next (match nextWrite s i with
    | none => s
    | some p => writeRecord i p.1 p.2 s)

/-- The first record not yet written becomes written. -/
def markWritten : List CplRecord → List CplRecord
  | [] => []
  | x :: l => if x.written then x :: markWritten l else { x with written := true } :: l

/-- A record's write has completed: the tail moves on, and the interrupt its command asked for is sent
(R283, R285). -/
def recordWritten (i : Slot) (s : State) : State :=
  let r := (s.ctxOf i).cq
  let n := match r.latch with
    | some l => 2 ^ l.sizeLog2
    | none => 4096
  let last := decide (r.tail.toNat + 1 = n)
  let s := modCtx i (fun c => { c with cq := { c.cq with
    writing := false, irqDue := false, held := markWritten c.cq.held,
    tail := if last then 0 else c.cq.tail + 1, phase := if last then !c.cq.phase else c.cq.phase } }) s
  if r.irqDue then sendMsix r.vector s else s

def execCompletionWriteDone (i : Slot) (s : State) : Host.Outcome State Fault Refusal :=
  .next (when' (s.ctxOf i).cq.writing (recordWritten i) s)

/-! ### The two CXL ports (R260 to R265, R421) -/

/-- Replace one CXL port. -/
def modCxl (p : CxlId) (f : CxlPort → CxlPort) (s : State) : State :=
  { s with host := { s.host with ports := s.host.ports.set p (f s.host.ports[p]) } }

/-- The standby port. -/
def standby (s : State) : CxlId := otherPort s.host.activePort

/-- The IDE stream that the rule of R264 counts for the active port. -/
def activeIde (s : State) : Bool :=
  let p := s.host.ports[s.host.activePort]
  if p.linkUp then p.ideUp else p.ideAtLoss

/-- A failover is allowed (R264). -/
def failoverAllowed (s : State) : Bool :=
  let p := s.host.ports[standby s]
  p.linkUp && (!(activeIde s) || p.ideUp)

/-- Decide a failover (R264): the roles swap, or it is refused with 0x0315; the start bits clear. -/
def decideFailover (auto : Bool) (s : State) : State :=
  let sb := standby s
  let ok := failoverAllowed s
  let s' := modCxl sb (fun p => { p with takeOver := false }) { s with host := { s.host with failover := false } }
  if ok then
    { s' with host := { s'.host with activePort := sb, swapPending := true, autoArmed := false, autoRetry := false } }
  else
    reportHost (some 2) { code := 0x0315, loc := locPort sb }
      { s' with host := { s'.host with autoRetry := s'.host.autoRetry || auto } }

/-- take_over acts on the standby port only (Table 11-2). -/
def execTakeOver (p : CxlId) (s : State) : Host.Outcome State Fault Refusal :=
  .next (when' (decide (p = standby s)) (decideFailover false) s)

def execFailover (s : State) : Host.Outcome State Fault Refusal :=
  .next (when' (activeUp s) (decideFailover false) s)

/-- A port's link leaves L0: its IDE stream and take_over bit go with it (R264, R421). -/
def dropLink (p : CxlPort) : CxlPort :=
  { p with linkUp := false, linkX4 := false, ideAtLoss := p.ideUp, ideUp := false, takeOver := false, ideKeys := [] }

/-- Record writes over CXL.cache that are in flight are abandoned (Table 11-3). -/
def abandonWrites (s : State) : State :=
  mapCtx (fun _ c => { c with cq := if (match c.cq.latch with
      | some l => l.inHdm
      | none => false) then c.cq
    else { c.cq with writing := false, irqDue := false } }) s

/-- The active port's link leaves L0 (Table 11-3): 0x0313, and the 10 ms of R264 run. -/
def loseActive (s : State) : State :=
  let p := s.host.activePort
  let s := abandonWrites (modCxl p dropLink s)
  reportHost (some 1) { code := 0x0313, loc := locPort p }
    { s with host := { s.host with autoArmed := true, autoRetry := false } }

def execActiveLinkDown (s : State) : Host.Outcome State Fault Refusal :=
  .next (when' (activeUp s) loseActive s)

def execAutoFailoverTimeout (s : State) : Host.Outcome State Fault Refusal :=
  .next (when' (s.host.autoArmed && !activeUp s) (fun s =>
    let s := { s with host := { s.host with autoArmed := false } }
    if s.host.autoFailover then decideFailover true s else s) s)

/-- A link comes up; a link trained at x4 is reported (Table 11-1). -/
def raiseLink (p : CxlId) (x4 ide : Bool) (s : State) : State :=
  let new := !(s.host.ports[p]).linkUp
  let s := modCxl p (fun c => { c with linkUp := true, linkX4 := x4, ideUp := ide }) s
  if x4 && new then reportHost none { code := 0x0314, loc := locPort p } s else s

/-- A refused automatic failover is tried again while the active link is down (R264). -/
def retryFailover (s : State) : State :=
  if s.host.autoRetry && !activeUp s then decideFailover true s else s

def execStandbyLinkUp (x4 ide : Bool) (s : State) : Host.Outcome State Fault Refusal :=
  .next (when' s.start.houseUp (fun s => retryFailover (raiseLink (standby s) x4 ide s)) s)

def execStandbyLinkDown (s : State) : Host.Outcome State Fault Refusal :=
  .next (modCxl (standby s) dropLink s)

/-- The link of a port returns (R265): the active port's link ends the automatic failover and the held
interrupts go; another port's link is the standby's. -/
def returnLink (p : CxlId) (x4 ide : Bool) (s : State) : State :=
  let s := raiseLink p x4 ide s
  if p = s.host.activePort then
    sendPending { s with host := { s.host with autoArmed := false, autoRetry := false } }
  else retryFailover s

def execActiveLinkReturn (p : CxlId) (x4 ide : Bool) (s : State) : Host.Outcome State Fault Refusal :=
  .next (when' s.start.houseUp (returnLink p x4 ide) s)

/-- The held records have been written through the new port: pending interrupts go, 0x0310 (R264). -/
def execFailoverRecordsWritten (s : State) : Host.Outcome State Fault Refusal :=
  .next (when' (s.host.swapPending && allSlots.all fun i => (nextWrite s i).isNone && !(s.ctxOf i).cq.writing)
    (fun s => reportHost (some 0) { code := 0x0310, loc := locPort s.host.activePort }
      (sendPending { s with host := { s.host with swapPending := false } })) s)

/-- A hot reset or link disable resets the port's link, IDE stream and take_over bit (R421). -/
def execCxlPortReset (p : CxlId) (s : State) : Host.Outcome State Fault Refusal :=
  .next (if p = s.host.activePort ∧ activeUp s then loseActive s else modCxl p dropLink s)

/-- An access through the standby port completes and is counted (R262). -/
def execStandbyAccess (kind : AccessKind) (s : State) : Host.Outcome State Fault Refusal :=
  let st := match kind with
    | .ioRequest => 0
    | .memRead => 1
    | .memWrite => 2
  .next (when' (s.host.ports[standby s]).linkUp (fun s =>
    reportHost (some 3) { code := 0x0311, isCount := true, loc := locPort (standby s),
                          value := s.host.standbyCount + 1 }
      (emit (.cxl st) { s with host := { s.host with standbyCount := s.host.standbyCount + 1 } })) s)

/-- A CXL.mem access that no open range maps (R268): poison for a read, discarded for a write. -/
def execHdmAccessOutside (offset : BitVec 41) (kind : AccessKind) (s : State) : Host.Outcome State Fault Refusal :=
  .next (when' (activeUp s && !(hdmMapped s offset 1) && !(decide (kind = .ioRequest)))
    (fun s => emit (.cxl (if kind = .memRead then 1 else 2)) (countOutside s)) s)

/-! ### DOE (R260, R261) -/

/-- The port's configuration space answers: its link is up and the house domain has started it (R415). -/
def configUp (s : State) (p : CxlId) : Bool :=
  (s.host.ports[p]).linkUp && s.start.houseUp && !s.start.resetLow

def execDoeDiscovery (p : CxlId) (index : Byte) (s : State) : Host.Outcome State Fault Refusal :=
  .next (when' (configUp s p) (emit (.doe p (Config.doeObject index.toNat))) s)

def execCdatTableAccess (p : CxlId) (s : State) : Host.Outcome State Fault Refusal :=
  .next (when' (configUp s p) (emit (.doe p Config.cdat)) s)

/-- An IDE_KM exchange establishes the port's stream, under CXL's own rules (R260, Table 12-8); a standby
stream that comes up retries a refused automatic failover (R264). -/
def execIdeKm (p : CxlId) (exchange : Bytes) (s : State) : Host.Outcome State Fault Refusal :=
  .next (when' (configUp s p) (fun s =>
    match Config.ideKm exchange with
    | none => s
    | some k =>
      let s := modCxl p (fun c => { c with ideUp := true, ideKeys := k }) s
      if p = s.host.activePort then s else retryFailover s) s)

end Sys2Proof.Machine
end

