-- ==== Sys2Proof/Machine/Power.lean ====
section
/-! DEFINITION. Clamp pins, supply faults, rails, the power controller, droop, trims, energy: the commands of
chapter 13 and of R53, R390 and R392. -/

namespace Sys2Proof.Machine

open Sys2Proof

/-! ### Alert pins and the clamp -/

/-- Bit of a pin in `pins` and in clamp_src. -/
def pinBit : AlertPin → BitVec 4
  | .vr => srcVr
  | .psu => srcPsu

/-- The same bit over the two pins. -/
def pinMask : AlertPin → BitVec 2
  | .vr => 1
  | .psu => 2

/-- Some die's regulator group holds VR_ALERT_N low (R390). -/
def anyAlerting (s : State) : Bool :=
  allDies.any fun (d : DieId) => (s.dieOf d).alerting

/-- A low pulse: under 2 ns ignored, 5 ns or more clamps, between them open (R336). -/
def execAlertPinAssert (pin : AlertPin) (widthPs : Nat) (s : State) : Host.Outcome State Fault Refusal :=
  let low (s : State) : State :=
    assertClamp (pinBit pin) { s with power := { s.power with pins := s.power.pins ||| pinMask pin } }
  .next (if widthPs < 2000 then s
    else if 5000 ≤ widthPs then low s
    else if Config.shortPulse s.free then low (drawNext s) else drawNext s)

/-- A deglitched high level: the pin's source clears unless a regulator group still pulls VR_ALERT_N low
(R339, R390). -/
def execAlertPinClear (pin : AlertPin) (s : State) : Host.Outcome State Fault Refusal :=
  let s' := { s with power := { s.power with pins := s.power.pins &&& ~~~(pinMask pin) } }
  .next (match pin with
    | .vr => if anyAlerting s then s' else dropSource srcVr s'
    | .psu => dropSource srcPsu s')

/-- Release 10 ms after the last source cleared (R339): ungated at point 18, L from the measured power. -/
def releaseClamp (measuredW : Nat) (s : State) : State :=
  let seen := s.power.seen
  reportPower (some 1) { code := 0x0A02, value := seen.toNat }
    { s with power := { s.power with
        clamped := false, seen := 0, point := 18, dither := 0, level := measuredW * 10000,
        drawn := measuredW } }

def execClampRelease (measuredW : Nat) (s : State) : Host.Outcome State Fault Refusal :=
  .next (when' (s.power.clamped && s.power.src == 0) (releaseClamp measuredW) s)

/-! ### Zones and dies -/

/-- All nine zones have power. -/
def allZones (s : State) : Bool := s.start.zonesUp == 0x1FF

/-- The loss of a deck supply zone (R392). -/
def loseZone (z : ZoneId) (s : State) : State :=
  let s := report { code := 0x0101, loc := locPort z }
    { s with start := { s.start with zonesUp := s.start.zonesUp &&& ~~~((1 : BitVec 9) <<< z.val) } }
  let s := abortColls 0x0702 (assertClamp srcBinnacle s)
  let s := allSlots.foldl (fun s i =>
    (s.ctxOf i).running.foldl (fun s c => completeCmd i c 0x0101 0xFFFF 0 s) s) s
  let s := loseDeckSram (fun _ => true) (loseTileSram (fun _ => true) s)
  mapPorts (fun _ p => downPort p) (mapTiles (fun _ t => offTile t) (destroyAll s))

def execDeckZoneLoss (z : ZoneId) (s : State) : Host.Outcome State Fault Refusal :=
  .next (when' (s.start.zonesUp.getLsbD z.val) (loseZone z) s)

/-- A regulator group trips: VR_ALERT_N low and 0x0C0B (Table 15-6). -/
def execDieSupplyTrip (d : DieId) (s : State) : Host.Outcome State Fault Refusal :=
  .next (when' (!(s.dieOf d).alerting && !(s.dieOf d).latchedOff && !(decide ((s.dieOf d).rails = .off)))
    (fun s => assertClamp srcVr (report { code := 0x0C0B, loc := locDie d }
      (modDie d (fun x => { x with alerting := true }) s))) s)

/-- The die is isolated (R53, R54): its rails and tile SRAM are gone, 0x0408 once, its regions fault. -/
def execDieIsolation (d : DieId) (s : State) : Host.Outcome State Fault Refusal :=
  .next (when' (!(s.dieOf d).isolated)
    (fun s =>
      let ids := regionsOfDie s d
      let s := loseTileSram (fun x => x == d)
        (modDie d (fun x => { x with isolated := true, rails := .off, locked := false }) (closePackets (fun t => dieOfTile t == d) s))
      faultRegions ids 0x0408 (some d) (report { code := 0x0408, loc := locDie d } s)) s)

/-- 1 ms after the trip the group latches off and releases VR_ALERT_N (Table 15-6). -/
def execDieRegulatorLatchOff (d : DieId) (s : State) : Host.Outcome State Fault Refusal :=
  .next (when' (s.dieOf d).alerting
    (fun s =>
      let s := railsDown (fun x => x == d) (modDie d (fun x => { x with alerting := false, latchedOff := true }) s)
      if anyAlerting s || !(s.power.pins &&& pinMask .vr == 0) then s else dropSource srcVr s) s)

/-- A die's idle power from its table, at most 35 W (R335). -/
def idleW (d : DieId) : Nat := min (Config.dieIdleW d) 35

/-- The governed level has room for a die's idle power (R335). -/
def roomFor (s : State) (w : Nat) : Bool :=
  decide ((s.power.drawn + w) * 10000 ≤ s.power.level)

def execDieRailRampStart (d : DieId) (s : State) : Host.Outcome State Fault Refusal :=
  .next (when' (decide ((s.dieOf d).rails = .queued) && !s.power.clamped && roomFor s (idleW d))
    (fun s => { modDie d (fun x => { x with rails := .ramping }) s with
      power := { s.power with drawn := s.power.drawn + idleW d } }) s)

def execDieRailsUp (d : DieId) (s : State) : Host.Outcome State Fault Refusal :=
  .next (when' (decide ((s.dieOf d).rails = .ramping))
    (modDie d fun x => { x with rails := .up, locked := false }) s)

/-- The end of the lock window: locked, or 0x0A0A and the die's regions fault (R335). -/
def execDieClockLockTimeout (d : DieId) (locked : Bool) (s : State) : Host.Outcome State Fault Refusal :=
  .next (when' (decide ((s.dieOf d).rails = .up) && !(s.dieOf d).locked)
    (fun s =>
      if locked then modDie d (fun x => { x with locked := true }) s
      else
        let ids := regionsOfDie s d
        faultRegions ids 0x0A0A none (reportPower none { code := 0x0A0A, loc := locDie d }
          (modDie d (fun x => { x with lockFailed := true }) s))) s)

/-! ### Sharing the cap (R342) -/

/-- M of a point: the injectors multiply the house clock by it (R331, Table 13-1). -/
def meshM (p : Nat) : Nat := 96 - 4 * p

/-- A point's frequency in MHz. -/
def meshMHz (p : Nat) : Nat := 25 * meshM p

/-- A point's nominal rail voltage in mV (Table 13-1). -/
def nominalMv (p : Nat) : Nat := 900 - 20 * p

/-- k = f × V² in thousandths (Table 13-1). -/
def kTable : List Nat :=
  [1944, 1781, 1627, 1482, 1345, 1216, 1095, 982, 876, 778, 686, 601, 523, 451, 384, 324, 269, 220, 175]

def kOf (p : Nat) : Nat := kTable.getD p 175

/-- Figures of the three classes. -/
structure Shares where
  ports : Nat
  memory : Nat
  compute : Nat
  deriving DecidableEq, Repr

def Shares.get (x : Shares) : PClass → Nat
  | .ports => x.ports
  | .memory => x.memory
  | .compute => x.compute

def Shares.put (x : Shares) (c : PClass) (v : Nat) : Shares :=
  match c with
  | .ports => { x with ports := v }
  | .memory => { x with memory := v }
  | .compute => { x with compute := v }

/-- Floors give way last first. -/
def cutFloors : List PClass → Shares → Nat → Shares
  | [], f, _ => f
  | c :: cs, f, excess =>
    let cut := min (f.get c) excess
    cutFloors cs (f.put c (f.get c - cut)) (excess - cut)

/-- Demands are filled first first. -/
def fillDemands (demand : Shares) : List PClass → Shares → Nat → Shares
  | [], g, _ => g
  | c :: cs, g, left =>
    let extra := min (demand.get c - g.get c) left
    fillDemands demand cs (g.put c (g.get c + extra)) (left - extra)

/-- share() of R342. -/
def shareCap (cap : Nat) (order : List PClass) (floor demand : Shares) : Shares :=
  let sum (x : Shares) := x.ports + x.memory + x.compute
  let f := cutFloors order.reverse floor (sum floor - cap)
  fillDemands demand order f (cap - sum f)

/-- C(p), rounded up to a whole watt (R343). -/
def computeAt (cPlan planned p : Nat) : Nat :=
  (cPlan * kOf p + kOf planned - 1) / kOf planned

/-- The open phase of the running Chart (R133). -/
def openPhase (s : State) : Option Phase :=
  match s.installed, installedChart s with
  | some x, some c =>
    match x.phase with
    | some n => if x.running then c.power.phases.find? fun p => p.id == n else none
    | none => none
  | _, _ => none

/-- The running Chart's power plan. -/
def planNow (s : State) : Option PowerPlan :=
  match s.installed, installedChart s with
  | some x, some c => if x.running then some c.power else none
  | _, _ => none

/-- A die's rail voltage at a point, in mV: that of its table of the production region, with its trim under trim_mode 1 (R332, R350). -/
def railMv (s : State) (d : DieId) (p : Nat) : Int :=
  (Config.dieTableMv d p : Int) + if (planNow s).map (fun x => x.trimMode) = some 1 then (s.dieOf d).trimMv else 0

/-- The fastest point from `planned` whose compute figure fits the grant (R343). -/
def fitPoint (cPlan planned grant : Nat) : Option Nat :=
  (List.range 19).find? fun p => decide (planned ≤ p) && decide (computeAt cPlan planned p ≤ grant)

/-- The fastest dither from the planned point on whose power is at most L: the slower point and the
sixteenths run at the point before it (R333, R348). -/
def bestDither (base cPlan planned levelW : Nat) : Nat × Nat :=
  let fits (p n : Nat) : Bool :=
    decide (16 * base + n * computeAt cPlan planned (p - 1) + (16 - n) * computeAt cPlan planned p ≤
      16 * levelW)
  let mixes := (List.range 19).flatMap fun p =>
    if p < planned then []
    else if p == planned then [(p, 0)]
    else ((List.range 16).reverse.map fun n => (p, n))
  match mixes.find? fun m => fits m.1 m.2 with
  | some m => m
  | none => (18, 0)

/-- Enter or leave the cap hold (R343). -/
def setCapHold (h : Bool) (s : State) : State :=
  if h == s.power.capHold then s
  else
    let s' := { s with power := { s.power with capHold := h } }
    if h then reportPower (some 2) { code := 0x0A03 } s' else reportPower none { code := 0x0A04 } s'

/-- Idle power of the dies whose ramp waits for room (R335). -/
def queuedW (s : State) : Nat :=
  (allDies.filter fun (d : DieId) => decide ((s.dieOf d).rails = .queued)).foldl (fun a d => a + idleW d) 0

/-- Move L towards the target by at most one step, unless the thermal bound holds it (R344, R347). -/
def moveLevel (level target step : Nat) (holdUp holdDown : Bool) : Nat :=
  if level < target then (if holdUp then level else min target (level + step))
  else if target < level then (if holdDown then level else max target (level - step))
  else level

/-- One control interval outside the clamp (R348). -/
def controlInterval (m : PowerSample) (s : State) : State :=
  let plan := planNow s
  let ph := openPhase s
  let order := match plan with
    | some p => p.order
    | none => [.ports, .memory, .compute]
  let floor : Shares := match plan with
    | some p => ⟨p.floorPorts, p.floorMemory, p.floorCompute⟩
    | none => ⟨0, 0, 0⟩
  let demand : Shares := match ph with
    | some p => ⟨max p.ports m.ports, max p.memory m.memory, max p.compute m.compute⟩
    | none => ⟨m.ports, m.memory, m.compute⟩
  let planned := match ph with
    | some p => p.point
    | none => 0
  let cPlan := match ph with
    | some p => p.compute
    | none => m.compute
  let g := shareCap (capInForce s) order floor demand
  let above := decide (g.compute * 102 < m.compute * 100)
  let offset := if s.power.interval == 0 then (if above then s.power.capOffset + 1 else s.power.capOffset)
    else s.power.capOffset
  let fit := fitPoint cPlan planned g.compute
  let s := setCapHold (fit.isNone) s
  let pCap := match fit with
    | some p => min 18 (p + offset)
    | none => 18
  let p := max (max planned pCap) (max s.power.pForecast s.power.pThrottle)
  let used := min g.ports demand.ports + min g.memory demand.memory
  let target := (used + (if fit.isNone then min g.compute (computeAt cPlan planned 18)
    else computeAt cPlan planned p) + queuedW s) * 10000
  let l0 := if s.power.throttleRose then min s.power.level target else s.power.level
  let l1 := if inCurtain s then l0
    else moveLevel l0 target s.power.slewWs.toNat s.power.holdUp s.power.holdDown
  let mix := if fit.isNone then (18, 0) else bestDither used cPlan planned (l1 / 10000)
  let short := decide (m.total + m.ballastMax + 300 < l1 / 10000)
  let l2 := if short then (m.total + m.ballastMax) * 10000 else l1
  let s := { s with power := { s.power with
      level := l2, point := mix.1, dither := mix.2, drawn := m.total,
      ballast := min (l2 / 10000 - m.total) m.ballastMax, capOffset := offset,
      grant := (g.ports, g.memory, g.compute), throttleRose := false,
      interval := (s.power.interval + 1) % 10 } }
  let s := if short then reportPower (some 4) { code := 0x0A08 } s else s
  match ph with
  | some q =>
    if q.slowest < mix.1 && !((s.installed.map fun x => x.slowSaid).getD true) then
      reportPower none { code := 0x0A05, value := q.id } (modInstalled (fun x => { x with slowSaid := true }) s)
    else s
  | none => s

def execPowerControlInterval (m : PowerSample) (s : State) : Host.Outcome State Fault Refusal :=
  .next (when' (!s.power.clamped) (controlInterval m) s)

/-- One step of a tile's 64-bit ballast register, x⁶⁴ + x⁶³ + x⁶¹ + x⁶⁰ + 1 (R346). -/
def ballastNext (v : BitVec 64) : BitVec 64 :=
  v <<< 1 ||| BitVec.ofNat 64 (b2n (v.getLsbD 63 ^^ v.getLsbD 62 ^^ v.getLsbD 60 ^^ v.getLsbD 59))

/-- The ballast registers take fresh seeds. -/
def seedBallast (s : State) : State := drawNext { s with power := { s.power with ballastSeed := s.free } }

/-- The register of a tile after `n` steps of ballast from its last seed: the 8 bytes at its place in the DRBG's draw of the last
curtain. How many steps have run is timing, and no command sees them (R346, log entry 109). -/
def ballastWord (s : State) (t : TileId) (n : Nat) : BitVec 64 :=
  n.repeat ballastNext (BitVec.ofNat 64 (leAt (Config.drbg s.power.ballastSeed (8 * 5184)) (8 * t) 8))

/-- Every tile of a die is asleep. -/
def dieAsleep (s : State) (d : DieId) : Bool :=
  s.tiles.all fun p => !(dieOfTile p.1 == d) || decide (p.2.sleep = .asleep)

/-- A deferred SLEEP takes effect (R346, R148): the clock stops with an asleep heartbeat, and with scope 1
the rails drop once the whole die is asleep. -/
def stopClock (t : TileId) (s : State) : State :=
  let rails := decide ((s.tileOf t).sleep = .deferredRails)
  let s := sendHeartbeat t .asleep (modTile t (fun x => { x with sleep := .asleep }) s)
  if rails && dieAsleep s (dieOfTile t) then railsDown (fun d => d == dieOfTile t) s else s

def execDeferredSleepStop (t : TileId) (s : State) : Host.Outcome State Fault Refusal :=
  .next (when' (decide ((s.tileOf t).sleep = .deferredClocks) || decide ((s.tileOf t).sleep = .deferredRails))
    (stopClock t) s)

/-- The thermal bound (R347): more than 3 K/s over the last 100 ms is 0.30 K between ten readings. -/
def execThermalRampCheck (meanCenti : Int) (s : State) : Host.Outcome State Fault Refusal :=
  let old := s.power.tbar.getD 9 meanCenti
  .next { s with power := { s.power with
    tbar := (meanCenti :: s.power.tbar).take 10,
    holdUp := decide (old + 30 < meanCenti), holdDown := decide (meanCenti + 30 < old) } }

/-- The retune moves every trim to a value the manual does not give (R331), and once per second the
engine-wide count of stretches is reported while it is not zero (Table 13-6). -/
def execOscillatorRetune (s : State) : Host.Outcome State Fault Refusal :=
  let s' := doneWork .retune (drawNext { s with power := { s.power with oscTrim := s.free, droops := 0 } })
  .next (if s.power.droops = 0 then s'
    else reportPower none { code := 0x0A09, isCount := true, value := s.power.droops } s')

/-- A stretch of 1.25 times above 4 %, of 2 times above 8 % (R334). -/
def execDroopDetect (t : TileId) (dropPermille : Nat) (s : State) : Host.Outcome State Fault Refusal :=
  .next (when' (decide (40 < dropPermille))
    (fun s => { modTile t (fun x => { x with stretch := if 80 < dropPermille then 2 else 1 }) s with
      power := { s.power with droops := s.power.droops + 1 } }) s)

def execDroopRecover (t : TileId) (s : State) : Host.Outcome State Fault Refusal :=
  .next (modTile t (fun x => { x with stretch := 0 }) s)

/-- 30 s without a renewal (R340). -/
def execLeaseExpire (s : State) : Host.Outcome State Fault Refusal :=
  .next (when' s.power.leaseLive
    (fun s => reportPower (some 3) { code := 0x0A06 }
      { s with power := { s.power with
          leaseLive := false, expired := true, orphan := true,
          capTerm := min s.power.capTerm s.power.orphanW.toNat } }) s)

/-- House ticks in an hour. -/
def hourTicks : Nat := 25000000 * 3600

/-- One sample of a die's margin monitors under trim_mode 1 (R351). -/
def execMarginSample (d : DieId) (slackPermille : Nat) (s : State) : Host.Outcome State Fault Refusal :=
  let x := s.dieOf d
  let mode1 := match planNow s with
    | some p => p.trimMode == 1
    | none => false
  let may := decide (x.trimTick = 0) || decide (x.trimTick + hourTicks ≤ s.ticks)
  let step : Int := if slackPermille < 50 then 5 else if 80 < slackPermille then -5 else 0
  .next (doneWork (.ageing d) (when' (mode1 && may && !(decide (step = 0)))
    (fun s =>
      let v := x.trimMv + step
      if v < -25 ∨ 25 < v then reportPower none { code := 0x0A0C, loc := locDie d } s
      else reportPower none { code := 0x0A0B, loc := locDie d }
        (modDie d (fun y => { y with trimMv := v, trimTick := s.ticks }) s)) s))

/-- ENERGY and the lifetime total rise by the coarse power figure, 50 W being 5 J in 100 ms (R349); during
a curtain the figure holds its last value (R320). -/
def execEnergyAccumulate (measuredW : Nat) (s : State) : Host.Outcome State Fault Refusal :=
  let coarse := if inCurtain s then s.power.powerW.toNat else measuredW / 50 * 50
  .next { s with power := { s.power with
    powerW := BitVec.ofNat 16 coarse, energy := s.power.energy + BitVec.ofNat 64 (coarse / 50),
    lifeEnergy := s.power.lifeEnergy + BitVec.ofNat 64 (coarse / 50) } }

/-- Steps of 0.5 from hundredths. -/
def halfUnits (v : Int) : BitVec 16 := BitVec.ofInt 16 (v.fdiv 50)

/-- The coarse thermal figures of Table 14-8, once per second (R377). -/
def coarseThermal (s : State) : State :=
  { s with thermal := { s.thermal with
    tjC := BitVec.ofInt 8 (s.thermal.tj.fdiv 200 * 2),
    flowReg := halfUnits s.thermal.flow, flowReqReg := halfUnits s.thermal.flowReq,
    tInReg := halfUnits s.thermal.tray.tIn.toInt, tOutReg := halfUnits s.thermal.tray.tOut.toInt } }

/-- One millisecond of telemetry (R319): the tenant counters of the slot that holds the engine, and the
coarse figures; frozen during a curtain (R320). -/
def execTelemetryUpdate (a : Activity) (s : State) : Host.Outcome State Fault Refusal :=
  .next (when' (!inCurtain s) (fun s =>
    let s := match holder s with
      | some i => modCtx i (fun c => { c with
          arrayPct := a.arrayPct, vectorPct := a.vectorPct, stackPct := a.stackPct, portPct := a.portPct,
          heldMs := c.heldMs + 1 }) s
      | none => s
    let n := s.thermal.teleMs
    let s := if n = 0 then coarseThermal s else s
    doneWork .telemetry { s with thermal := { s.thermal with teleMs := (n + 1) % 1000 } }) s)

end Sys2Proof.Machine
end

