-- ==== Sys2Proof/Machine/Cooling.lean ====
section
/-! DEFINITION. Coolant flow, junction sensors, throttle, dead reckoning and the tray interface: the commands
of chapter 14. Flow in 0.01 L/min, F_full in 0.001 L/min, temperatures in hundredths of a degree. -/

namespace Sys2Proof.Machine

open Sys2Proof

/-! ### Flow figures -/

/-- F_full in 0.001 L/min at a supply temperature (Table 14-2, linear between its points, R355). -/
def fFull (t : Int) : Nat :=
  if t ≤ 2000 then 24000
  else if t ≤ 3000 then (24000 + 6 * (t - 2000)).toNat
  else if t ≤ 3500 then (30000 + 7 * (t - 3000)).toNat
  else if t ≤ 4000 then (33500 + 9 * (t - 3500)).toNat
  else (38000 + 40 * (t - 4000)).toNat

/-- T_s: the inlet reading, 40 °C while it is stale or invalid (R358). -/
def supplyTemp (s : State) : Int :=
  if s.thermal.inletStale then 4000 else s.thermal.tray.tIn.toInt

/-- F_full at the present supply temperature. -/
def fFullNow (s : State) : Nat := fFull (supplyTemp s)

/-- The flow is at least `pct` per cent of F_full. -/
def flowAtLeast (s : State) (pct : Nat) : Bool :=
  decide (fFullNow s * pct ≤ s.thermal.flow * 1000)

/-- F_cmd in 0.01 L/min, rounded down, for a forecast peak in W (R356). -/
def flowRequest (f hPeak : Nat) : Nat :=
  min 41800 (min (f * 11 / 10) (max (f * 6 / 10) (f * 105 * hPeak / 2300000))) / 10

/-- The cooling cap of R371, in whole watts. -/
def coolingCapOf (f flow : Nat) : Nat :=
  min 23000 (23000 * flow * 1000 / (95 * f))

/-! ### The cooling clamp source -/

/-- A condition still holds the cooling source (R365, R372, R373). -/
def coolingHeld (s : State) : Bool :=
  s.thermal.flowClamp || s.thermal.suddenStop || s.thermal.halting || s.thermal.throttleClamp

/-- Let the cooling source go where nothing holds it. -/
def dropCooling (s : State) : State :=
  if coolingHeld s then s else dropSource srcCooling s

/-- The derate (R371): 0x0B01 when it comes into force, 0x0B03 when it ends. -/
def actDerate (s : State) : State :=
  let low := !(flowAtLeast s 95)
  let cap := if low then coolingCapOf (fFullNow s) s.thermal.flow else 23000
  let s' := { s with thermal := { s.thermal with derate := low, coolingCap := cap } }
  if low && !s.thermal.derate then reportThermal (some 0) { code := 0x0B01 } s'
  else if !low && s.thermal.derate then reportThermal none { code := 0x0B03 } s'
  else s'

/-- Slow fall, clamped (Table 14-5). -/
def actFlowClamp (s : State) : State :=
  if (!(flowAtLeast s 50) || decide (4500 < supplyTemp s)) && !s.thermal.flowClamp then
    assertClamp srcCooling (reportThermal (some 1) { code := 0x0B02 }
      { s with thermal := { s.thermal with flowClamp := true } })
  else s

/-- The flow has fallen by more than 0.04 × F_full within the readings of the last 100 ms. -/
def fellFast (s : State) : Bool :=
  decide (fFullNow s * 4 + s.thermal.flow * 1000 < (s.thermal.flows.foldl max 0) * 1000)

/-- Sudden stop (Table 14-5, R373). -/
def actSuddenStop (s : State) : State :=
  if (!(flowAtLeast s 25) || (decide (s.thermal.flow < s.thermal.flowReq) && fellFast s)) &&
      !s.thermal.suddenStop then
    assertClamp srcCooling (reportThermal (some 2) { code := 0x0B04 }
      { s with thermal := { s.thermal with suddenStop := true } })
  else s

/-- The flow states act once the coolant gate has passed (R372, R416). -/
def flowAct (s : State) : State :=
  if s.start.phase.toNat < 3 || s.start.phase == 7 then s
  else actSuddenStop (actFlowClamp (actDerate s))

/-- Take a flow figure as the engine's. -/
def takeFlow (f : Nat) (s : State) : State :=
  { s with thermal := { s.thermal with flow := f, flows := (f :: s.thermal.flows).take 500 } }

/-- Supply below 20 °C is reported once (R355). -/
def reportCold (s : State) : State :=
  if !s.thermal.inletStale && decide (s.thermal.tray.tIn.toInt < 2000) && !s.thermal.below20 then
    reportThermal none { code := 0x0B0F } { s with thermal := { s.thermal with below20 := true } }
  else s

/-- The tray's register layout is one the engine reads (R357, R416). -/
def trayKnown (t : TrayRegs) : Bool := t.version.toNat / 256 == 1

/-- What one good read of the tray changes (R358). -/
def takeTray (t : TrayRegs) (s : State) : State :=
  let fresh := t.status.getLsbD 0 && !(s.thermal.lastSeq == some t.seq) && trayKnown t
  let s := { s with thermal := { s.thermal with
    tray := t, inletStale := !(t.status.getLsbD 1) || !(trayKnown t), lastSeq := some t.seq } }
  let s := reportCold s
  if fresh then takeFlow t.flow.toNat { s with thermal := { s.thermal with stale := false } } else s

def execTrayRead (tray : Option TrayRegs) (s : State) : Host.Outcome State Fault Refusal :=
  .next (match tray with
    | none => s
    | some t => flowAct (takeTray t s))

/-- 2 ms without a good flow reading (R358). -/
def execTrayReadingStale (s : State) : Host.Outcome State Fault Refusal :=
  .next (when' (!s.thermal.stale) (fun s =>
    flowAct (takeFlow 0 (reportThermal (some 6) { code := 0x0B0E }
      { s with thermal := { s.thermal with stale := true, inletStale := true } }))) s)

def execFlowClampClear (s : State) : Host.Outcome State Fault Refusal :=
  .next (when' (s.thermal.flowClamp && flowAtLeast s 55 && decide (supplyTemp s ≤ 4500))
    (fun s => dropCooling (reportThermal none { code := 0x0B03 }
      { s with thermal := { s.thermal with flowClamp := false } })) s)

def execSuddenStopRecover (s : State) : Host.Outcome State Fault Refusal :=
  .next (when' (s.thermal.suddenStop && !s.thermal.halting && flowAtLeast s 50)
    (fun s => dropCooling { s with thermal := { s.thermal with suddenStop := false } }) s)

/-- The active context's commands end (R373, R393, R420): REDUCE_SHARDS with 0x0702 on this member alone,
group collectives by an abort with 0x0702, the others with the code. -/
def endActive (code : Code) (said : Bool) (s : State) : State :=
  match holder s with
  | none => haltPrompters s
  | some i =>
    let s := endOthers i code said (endReduction i 0x0702 (abortColls 0x0702 s))
    haltPrompters (dropLoads i s)

def execCoolantHalt (s : State) : Host.Outcome State Fault Refusal :=
  .next (when' (s.thermal.suddenStop && !s.thermal.halting)
    (fun s => endActive 0x0B05 true { s with thermal := { s.thermal with halting := true } }) s)

/-- Take the installed Chart down and leave its checked copy STAGED. -/
def parkChart (s : State) : State :=
  match s.installed with
  | none => s
  | some x => setSlotState x.slot .staged (stopChart s)

def execHalted (s : State) : Host.Outcome State Fault Refusal :=
  .next (when' (s.thermal.halting && !s.thermal.halted)
    (fun s => reportThermal (some 3) { code := 0x0B06 }
      (parkChart { s with thermal := { s.thermal with halted := true } })) s)

/-- Power-off (R366): every regulator but the house domain off, contexts closed, THERM_TRIP_N low. -/
def powerOff (cause : Nat) (s : State) : State :=
  let s := emit (.thermTrip true) { s with thermal := { s.thermal with thermTrip := true } }
  let s := houseOnly (destroyAll s)
  reportThermal none { code := 0x0B07, value := cause }
    { s with power := { s.power with level := 0, drawn := 0, ballast := 0 } }

def execFlowPowerOff (s : State) : Host.Outcome State Fault Refusal :=
  .next (when' (!(flowAtLeast s 25) && !s.thermal.thermTrip) (powerOff 2) s)

def execThermalTrip (s : State) : Host.Outcome State Fault Refusal :=
  .next (when' (!s.thermal.thermTrip) (powerOff 1) s)

def execHaltExit (s : State) : Host.Outcome State Fault Refusal :=
  .next (when' (s.thermal.halted && flowAtLeast s 95)
    (fun s =>
      let s := dropCooling { s with thermal := { s.thermal with
        halted := false, halting := false, suddenStop := false, flowClamp := false } }
      reportThermal none { code := 0x0B08 } (reinstall s)) s)

/-- Q = 69.2 × F × (t_out − t_in) against the input power, more than 20 % off (R376). -/
def heatUnbalanced (s : State) (measuredW : Nat) : Bool :=
  let dt := s.thermal.tray.tOut.toInt - s.thermal.tray.tIn.toInt
  let q := 692 * (s.thermal.flow : Int) * dt            -- in 10⁻⁵ W
  let m := (measuredW : Int) * 100000
  decide (m * 2 < (q - m).natAbs * 10)

def execHeatBalanceCheck (measuredW : Nat) (s : State) : Host.Outcome State Fault Refusal :=
  .next (when' (!s.thermal.stale && s.thermal.tray.status.getLsbD 0 && s.thermal.tray.status.getLsbD 1 &&
      s.thermal.tray.status.getLsbD 2 && heatUnbalanced s measuredW)
    (reportThermal none { code := 0x0B10 }) s)

/-! ### Junction sensors -/

/-- A tile's ring oscillator; one that has never been read lists nothing. -/
def healthyTile (s : State) (t : Nat) : Option Int :=
  match find? s.thermal.tiles t with
  | some x => if x.retired then none else some x.reading
  | none => none

/-- Mean of readings, none of an empty list. -/
def meanOf (l : List Int) : Option Int :=
  if l.isEmpty then none else some ((l.foldl (· + ·) 0).fdiv l.length)

/-- The tiles beside a tile. -/
def besides (t : Nat) : List Nat :=
  (if gcolOf t < 71 then [t + 1] else []) ++ (if 0 < gcolOf t then [t - 1] else []) ++
    (if growOf t < 71 then [t + 72] else []) ++ (if 0 < growOf t then [t - 72] else [])

/-- Mean of a tile's healthy neighbours (R363). -/
def neighbourMean (s : State) (t : Nat) : Option Int :=
  meanOf ((besides t).filterMap (healthyTile s))

/-- A tile's reading, or its replacement: the neighbours' mean plus 2 K (R363). -/
def tileReading (s : State) (t : Nat) (x : TileSensor) : Int :=
  if x.retired then (match neighbourMean s t with
    | some m => m + 200
    | none => x.reading)
  else x.reading

/-- The higher of a spot's healthy readings, none where both are retired (R361). -/
def spotHealthy (h : HotSpot) : Option Int :=
  if h.diodeRetired then (if h.ringRetired then none else some h.ring)
  else if h.ringRetired then some h.diode
  else some (max h.diode h.ring)

/-- The estimate E of a hot spot (R362), rounded down. -/
def estimateOf (s : State) (sp : Fin 144) : Int :=
  let near := (Config.spotTiles sp).filterMap (healthyTile s)
  let d : DieId := Fin.ofNat 36 (sp.val / 4)
  let others := ((List.finRange 144).filter fun x => x.val / 4 == sp.val / 4 && !(x == sp)).filterMap
    fun x => spotHealthy s.thermal.spots[x]
  let base := if near.length < 2 then meanOf others else meanOf near
  let rise : Rat := Config.spotGradient sp * ((s.dieOf d).powerW : Rat) * 100
  (base.getD 0) + rise.floor

/-- The reading R361 and R362 select for a hot spot. -/
def spotReading (s : State) (sp : Fin 144) : Int :=
  match spotHealthy s.thermal.spots[sp] with
  | some v => v
  | none => estimateOf s sp + 200

/-- T_j: the highest reading of all (R360). -/
def junction (s : State) : Int :=
  let spots := (List.finRange 144).map (spotReading s)
  let tiles := s.thermal.tiles.map fun p => tileReading s p.1 p.2
  (spots ++ tiles ++ s.thermal.others).foldl max (-27300)

/-- Note the pair of a spot (R361): more than 4 K apart is flagged and tested. -/
def checkPair (sp : Fin 144) (s : State) : State :=
  let h := s.thermal.spots[sp]
  if !h.diodeRetired && !h.ringRetired && !h.flagged && decide (400 < (h.diode - h.ring).natAbs) then
    let d : DieId := Fin.ofNat 36 (sp.val / 4)
    let s := { s with thermal := { s.thermal with spots := s.thermal.spots.set sp { h with flagged := true } } }
    detect (.hotSpot d (Fin.ofNat 4 sp.val)) 0x0B0C
      (reportThermal (some 5) { code := 0x0B0C, loc := locDie d, value := sp.val % 4 } s)
  else s

/-- Store one spot's readings; a retired sensor is not read. -/
def takeSpot (s : State) (r : Fin 144 × Int × Int) : State :=
  let h := s.thermal.spots[r.1]
  { s with thermal := { s.thermal with spots := s.thermal.spots.set r.1 { h with
      diode := if h.diodeRetired then h.diode else r.2.1,
      ring := if h.ringRetired then h.ring else r.2.2 } } }

/-- Store one tile's reading. -/
def takeTile (s : State) (r : TileId × Int) : State :=
  let old := (find? s.thermal.tiles r.1).getD { reading := 0, outliers := 0, retired := false }
  { s with thermal := { s.thermal with
      tiles := setPair s.thermal.tiles r.1 (if old.retired then old else { old with reading := r.2 }) } }

/-- Count a tile's reading against its neighbours (R363); the tenth outlier in a row is tested. -/
def checkTile (s : State) (p : Nat × TileSensor) : State :=
  let out := match neighbourMean s p.1 with
    | some m => decide (800 < (p.2.reading - m).natAbs)
    | none => false
  if p.2.retired then s
  else
    let n := if out then p.2.outliers + 1 else 0
    let s := { s with thermal := { s.thermal with
      tiles := setPair s.thermal.tiles p.1 { p.2 with outliers := n } } }
    if n = 10 then detect (.tileSensor (Fin.ofNat 5184 p.1)) 0x0B0D s else s

/-- The throttle starts at 100 °C (R365): two points slower than the point in force. -/
def startThrottle (s : State) : State :=
  if decide (10000 ≤ s.thermal.tj) && !s.thermal.throttle then
    reportThermal (some 4) { code := 0x0B09 }
      { s with thermal := { s.thermal with throttle := true },
               power := { s.power with pThrottle := min 18 (s.power.point + 2), throttleRose := true } }
  else s

/-- The cooling clamp of the throttle clears at 95 °C. -/
def endThrottleClamp (s : State) : State :=
  if s.thermal.throttleClamp && decide (s.thermal.tj ≤ 9500) then
    dropCooling { s with thermal := { s.thermal with throttleClamp := false } }
  else s

/-- One reading of every junction sensor (R359 to R365). -/
def execSensorSample (r : SensorSet) (s : State) : Host.Outcome State Fault Refusal :=
  let s := r.tiles.foldl takeTile (r.spots.foldl takeSpot s)
  let s := if r.others.isEmpty then s else { s with thermal := { s.thermal with others := r.others } }
  let s := (r.spots.map fun x => x.1).foldl (fun s sp => checkPair sp s) s
  let s := s.thermal.tiles.foldl checkTile s
  let s := { s with thermal := { s.thermal with tj := junction s } }
  .next (endThrottleClamp (startThrottle s))

def execThrottleStep (s : State) : Host.Outcome State Fault Refusal :=
  .next (when' s.thermal.throttle (fun s =>
    if 10000 ≤ s.thermal.tj then
      { s with power := { s.power with
          pThrottle := min 18 (s.power.pThrottle + 1), throttleRose := decide (s.power.pThrottle < 18) } }
    else if s.thermal.tj ≤ 9700 then
      let p := s.power.pThrottle - 1
      let s := { s with power := { s.power with pThrottle := p } }
      if p = 0 then reportThermal none { code := 0x0B0A } { s with thermal := { s.thermal with throttle := false } }
      else s
    else s) s)

def execThrottleClampTimeout (s : State) : Host.Outcome State Fault Refusal :=
  .next (when' (decide (10000 ≤ s.thermal.tj) && s.power.point == 18 && !s.thermal.throttleClamp)
    (fun s => assertClamp srcCooling { s with thermal := { s.thermal with throttleClamp := true } }) s)

/-- A flagged pair is tested again every 10 s, or its flag clears within 3 K (R361). -/
def execSensorPairRetest (d : DieId) (k : Fin 4) (s : State) : Host.Outcome State Fault Refusal :=
  let sp : Fin 144 := Fin.ofNat 144 (4 * d.val + k.val)
  let h := s.thermal.spots[sp]
  .next (when' h.flagged (fun s =>
    if (h.diode - h.ring).natAbs ≤ 300 then
      { s with thermal := { s.thermal with spots := s.thermal.spots.set sp { h with flagged := false } } }
    else detect (.hotSpot d k) 0x0B0C s) s)

/-! ### Dead reckoning -/

/-- θ_d at the present flow (R368). -/
def thetaNow (s : State) (d : Nat) : Rat :=
  Config.theta d * Config.flowFactor ((fFullNow s : Rat) / ((s.thermal.flow : Rat) * 10))

/-- One 10 ms advance of the two poles (R368). -/
def poles (th p y1 y2 : Rat) : Rat × Rat :=
  (y1 + (2 / 5 * th * p - y1) / 5, y2 + (3 / 5 * th * p - y2) / 150)

def execThermalModelAdvance (dieW : List Nat) (s : State) : Host.Outcome State Fault Refusal :=
  .next (mapDies (fun d x =>
    let p := dieW.getD d.val x.powerW
    let y := poles (thetaNow s d.val) p x.x1 x.x2
    { x with x1 := y.1, x2 := y.2, powerW := p }) s)

/-- Highest hot-spot reading of a die, in K. -/
def dieMeas (s : State) (d : DieId) : Rat :=
  let l := ((List.finRange 144).filter fun x => x.val / 4 == d.val).map (spotReading s)
  ((l.foldl max (-27300) : Int) : Rat) / 100

/-- T_s in degrees. -/
def tsRat (s : State) : Rat := (supplyTemp s : Rat) / 100

/-- The correction every 100 ms (R368). -/
def correctModels (s : State) : State :=
  mapDies (fun d x => { x with x2 := x.x2 + (dieMeas s d - (tsRat s + x.x1 + x.x2)) }) s

/-- Length of a phase at point p in µs: scaled by f(planned) ÷ f(p) (R368). -/
def phaseLen (q : Phase) (p : Nat) : Nat :=
  q.duration * (24 - q.point) / (24 - max p q.point)

/-- The phase the walk is in after `us` microseconds from the start of the first of the list; the walk
wraps at most `n` times. -/
def walkPhase (all : List Phase) (p : Nat) : Nat → List Phase → Nat → Option Phase
  | 0, _, _ => none
  | n + 1, [], us => walkPhase all p n all us
  | n + 1, q :: qs, us => if us < phaseLen q p then some q else walkPhase all p n qs (us - phaseLen q p)

/-- The phases of the running Chart in walk order: from the open phase on, wrapping (R368). -/
def walkOrder (s : State) : Option (List Phase) :=
  match planNow s, openPhase s with
  | some pl, some q => some (pl.phases.filter (fun x => decide (q.id ≤ x.id)) ++
      pl.phases.filter fun x => decide (x.id < q.id))
  | _, _ => none

/-- The phase of the walk at a 10 ms step (R368). -/
def phaseAt (s : State) (p step : Nat) : Option Phase :=
  match walkOrder s with
  | some l => walkPhase l p 100000 l (step * 10000)
  | none => none

/-- Power of a die at a step of the walk (R368); with no phase the measured power holds. -/
def plannedPower (s : State) (d : DieId) (p step : Nat) : Rat :=
  match phaseAt s p step with
  | some q =>
    if q.dieMask.getLsbD d.val then
      let n := (allDies.filter fun (e : DieId) => q.dieMask.getLsbD e.val).length
      (q.compute : Rat) * kOf (max p q.point) / kOf q.point / n
    else 0
  | none => (s.dieOf d).powerW

/-- forecast_die (R368): the peak over 200 steps. -/
def forecastDie (s : State) (d : DieId) (p : Nat) : Rat :=
  let th := thetaNow s d.val
  let x := s.dieOf d
  ((List.range 200).foldl (fun (a : Rat × Rat × Rat) step =>
    let y := poles th (plannedPower s d p (step + 1)) a.1 a.2.1
    (y.1, y.2, max a.2.2 (tsRat s + y.1 + y.2))) (x.x1, x.x2, tsRat s + x.x1 + x.x2)).2.2

/-- Peak over all dies at a point. -/
def peakAt (s : State) (p : Nat) : Rat :=
  (allDies.map fun (d : DieId) => forecastDie s d p).foldl max (-273)

/-- The planned point of the open phase, 0 with none. -/
def plannedPoint (s : State) : Nat :=
  match openPhase s with
  | some q => q.point
  | none => 0

/-- The next p_forecast (R369): a slower one at once, a faster one by one point and only below 88 °C. -/
def nextForecast (s : State) : Nat :=
  let cur := s.power.pForecast
  let new := ((List.range 19).find? fun p => decide (plannedPoint s ≤ p) && decide (peakAt s p ≤ 90)).getD 18
  if cur ≤ new then new
  else if peakAt s (cur - 1) ≤ 88 then cur - 1 else cur

/-- Whole-engine heat at a step of the walk, at p_forecast (R370). -/
def heatAt (s : State) (step : Nat) : Nat :=
  match phaseAt s s.power.pForecast step with
  | some q => (q.compute * kOf (max s.power.pForecast q.point) / kOf q.point) + q.ports + q.memory
  | none => s.power.drawn

/-- Write the request and the forecast to the tray (R356, R370). -/
def writeTray (s : State) : State :=
  let fc := (List.range 10).map fun k => heatAt s (20 * (k + 1))
  let peak := (List.range 201).foldl (fun m k => max m (heatAt s k)) 0
  let req := flowRequest (fFullNow s) peak
  let s := { s with thermal := { s.thermal with flowReq := req, fcSeq := s.thermal.fcSeq + 1 } }
  emit (.tray req s.thermal.fcSeq (s.power.powerW.toNat / 50) (fc.map (· / 50)) (peak / 50)) s

/-- The correction of the models and the new p_forecast (R368, R369). -/
def forecastNow (s : State) : State :=
  let s := correctModels s
  let p := nextForecast s
  let limits := decide (plannedPoint s < p)
  let said := s.thermal.forecastSaid
  let s := { s with power := { s.power with pForecast := p },
                    thermal := { s.thermal with forecastSaid := said || limits } }
  if limits && !said then reportThermal none { code := 0x0B0B, value := p } s else s

/-- Every 100 ms: correction, p_forecast, and the write to the tray, which a curtain leaves out (R370). -/
def execHeatForecast (s : State) : Host.Outcome State Fault Refusal :=
  .next (when' (!inCurtain s) writeTray (forecastNow s))

end Sys2Proof.Machine
end

