-- ==== Sys2Proof/Machine/NvStore.lean ====
section
/-! DEFINITION. The NV store (R397 to R402): requests, the write engine, wear tokens, upkeep, and what a
start loads from the active bank. -/

namespace Sys2Proof.Machine

open Sys2Proof

/-- The other bank. -/
def otherBank (b : Fin 2) : Fin 2 := if b = 0 then 1 else 0

/-- The active bank. -/
def activeBank (s : State) : NvBank := s.nv.banks[s.nv.active]

/-- Replace a bank. -/
def modBank (b : Fin 2) (f : NvBank → NvBank) (s : State) : State :=
  { s with nv := { s.nv with banks := s.nv.banks.set b (f s.nv.banks[b]) } }

/-- No store or update may start (R401). -/
def nvBlocked (s : State) : Bool := s.start.releaseLow || s.start.pwrGoodLow

/-- Answer the management requests that waited for a store. -/
def answerStores (n : Nat) (code : Code) (s : State) : State :=
  (List.range n).foldl (fun s _ => emit (.mgmt 0x0020 code []) s) s

/-- A store is requested (R400, R401, R402): refused while NV writes are blocked or without a token; it
joins a store that waits. -/
def requestStore (mgmt : Bool) (s : State) : State :=
  let answer (code : Code) (s : State) : State := if mgmt then emit (.mgmt 0x0020 code []) s else s
  if nvBlocked s then answer 0x0D07 (reportNv (some 1) { code := 0x0D07 } s)
  else if !s.nv.storeWaiting && s.nv.tokens == 0 then
    answer 0x0D02 (reportNv (some 1) { code := 0x0D02 } s)
  else
    { s with nv := { s.nv with
        tokens := if s.nv.storeWaiting then s.nv.tokens else s.nv.tokens - 1,
        storeWaiting := true,
        storeAnswers := s.nv.storeAnswers + b2n mgmt,
        storeBit := s.nv.storeBit || !mgmt } }

def execStoreRequest (s : State) : Host.Outcome State Fault Refusal :=
  .next (requestStore false s)

/-- Indices of the entries with an origin. -/
def indicesOf (l : List (BitVec 64)) (origin : Nat) : List Nat :=
  (List.range l.length).filter fun i => entryOrigin (l.getD i 0) == origin

/-- Volatile entries that the settings have room for, in index order (R45). -/
def storable (s : State) : List Nat :=
  (indicesOf s.defects.entries 2).take (4096 - (indicesOf s.defects.entries 1).length)

/-- Origin 0b01 in place of 0b10 (R45). -/
def storedEntry (e : BitVec 64) : BitVec 64 :=
  (e &&& ~~~((3 : BitVec 64) <<< 58)) ||| ((1 : BitVec 64) <<< 58)

/-- Change the origin of the entries at some indices. -/
def markStored (idx : List Nat) (l : List (BitVec 64)) : List (BitVec 64) :=
  idx.foldl (fun l i => l.set i (storedEntry (l.getD i 0))) l

/-- The volatile settings at one instant (R398), with the entries the store takes. -/
def snapshotSettings (s : State) : NvSettings :=
  let l := markStored (storable s) s.defects.entries
  { ports := s.ports.map (fun p => p.nv), fabricGroup := s.fabricGroup, orphanW := s.power.orphanW,
    slewWs := s.power.slewWs, defects := l.filter fun e => entryOrigin e == 1, repairs := s.nv.repairs,
    trims := s.dies.toList.map fun d => d.trimMv, groups := s.sec.groups, creds := s.sec.creds,
    roots := s.sec.roots, lifeEnergy := s.power.lifeEnergy, lifeClamps := s.power.lifeClamps,
    lifeReplays := s.power.lifeReplays }

/-- The write engine starts the next write: a waiting store before a waiting update (R401); an update takes
its token now (R400). -/
def startWrite (s : State) : State :=
  let job (fw : Bool) (f : Firmware) : NvJob :=
    { isFirmware := fw, settings := snapshotSettings s, firmware := f, takes := storable s,
      leftOver := (indicesOf s.defects.entries 2).length - (storable s).length,
      answers := if fw then 0 else s.nv.storeAnswers, bit := !fw && s.nv.storeBit }
  if s.nv.storeWaiting then
    { s with nv := { s.nv with
        job := some (job false (activeBank s).firmware), storeWaiting := false, storeAnswers := 0,
        storeBit := false } }
  else match s.nv.update with
    | some f =>
      if 0 < s.nv.tokens then
        { s with nv := { s.nv with job := some (job true f), update := none, tokens := s.nv.tokens - 1 } }
      else s
    | none => s

def execNvWriteStart (s : State) : Host.Outcome State Fault Refusal :=
  .next (when' (s.nv.job.isNone && !nvBlocked s) startWrite s)

/-- Writes count toward wear (R400); which line they hit is the layout's, so how far the highest count
rises is open, at most one per write. -/
def wearUp (b : Fin 2) (writes : Nat) (s : State) : State :=
  drawNext (modBank b (fun x => { x with wear := x.wear + (Config.freeByte s.free).toNat % (writes + 1) }) s)

/-- A commit record (R398): magic, seq, the lifetime store count, the bank and the digest of both areas, in 128 bytes. -/
def commitRecord (seq : BitVec 64) (stores : Nat) (bank : Fin 2) (digest : Bytes) : Bytes :=
  toLe 4 0x54494D43 ++ toLe 8 seq.toNat ++ toLe 4 stores ++ toLe 1 bank ++ List.replicate 47 0 ++ slice digest 0 64

/-- The digest of a bank's two areas as a store leaves them: the layout inside the settings is not described, so its value is free (log
entry 111). -/
def areaDigest (s : State) : Bytes := s.random 64

/-- A write ends (R398): committed, or failed on a second mismatch. -/
def endWrite (j : NvJob) (mismatches : Nat) (s : State) : State :=
  let b := otherBank s.nv.active
  let s := { s with nv := { s.nv with job := none } }
  if mismatches < 2 then
    let s := if mismatches = 1 then reportNv none { code := 0x0D03, isCount := true, value := 1 } s else s
    let s := wearUp b (1 + mismatches) s
    let seq := (activeBank s).seq + 1
    let s := modBank b (fun x => { x with
      committed := true, recordGood := true, seq := seq, firmware := j.firmware, fwGood := true,
      settings := j.settings, place := x.place + 1,
      record := commitRecord seq (s.nv.stores.toNat + 1) b (areaDigest s) }) s
    let s := drawNext s
    let s := { s with
      nv := { s.nv with active := b, stores := s.nv.stores + 1 },
      defects := { s.defects with entries := markStored j.takes s.defects.entries } }
    let s := reportNv (some 0) { code := if j.isFirmware then 0x0D08 else 0x0D01, value := j.leftOver } s
    answerStores j.answers 0 s
  else
    let s := reportNv none { code := 0x0D03, isCount := true, value := 1 } (wearUp b 2 s)
    let s := modBank b (fun x => { x with recordGood := false }) s
    answerStores j.answers 0x0D04 (reportNv (some 2) { code := 0x0D04 } s)

def execNvStoreComplete (mismatches : Nat) (s : State) : Host.Outcome State Fault Refusal :=
  .next (match s.nv.job with
    | none => s
    | some j => endWrite j mismatches s)

def execWearTokenGain (s : State) : Host.Outcome State Fault Refusal :=
  .next { s with nv := { s.nv with tokens := min 6 (s.nv.tokens + 1) } }

/-- The daily read of the inactive bank (Table 15-13): a bank that fails its digest is rewritten for one
wear token. -/
def execNvUpkeep (good : Bool) (s : State) : Host.Outcome State Fault Refusal :=
  let b := otherBank s.nv.active
  .next (doneWork .nvUpkeep (when' (!good && (s.nv.banks[b]).committed && decide (0 < s.nv.tokens) && s.nv.job.isNone &&
      !nvBlocked s)
    (fun s => reportNv none { code := 0x0D09 }
      (wearUp b 1 (modBank b (fun x => { x with recordGood := true })
        { s with nv := { s.nv with tokens := s.nv.tokens - 1 } }))) s))

/-! ### What a reset and a start read from NV -/

/-- Registers that reset from NV take the active bank's settings. -/
def loadSettings (s : State) : State :=
  let b := activeBank s
  let n := b.settings
  { s with
    ports := Vector.ofFn fun i => Port.reset n.ports[i],
    fabricGroup := n.fabricGroup,
    power := { s.power with
      orphanW := n.orphanW, slewWs := n.slewWs, capTerm := n.orphanW.toNat, lifeEnergy := n.lifeEnergy,
      lifeClamps := n.lifeClamps, lifeReplays := n.lifeReplays },
    defects := { entries := s.nv.production ++ n.defects, index := 0, gone := [] },
    nv := { s.nv with repairs := n.repairs },
    dies := Vector.ofFn fun i => { s.dies[i] with trimMv := n.trims.getD i.val 0 },
    sec := { s.sec with groups := n.groups, creds := n.creds, roots := n.roots, firmware := b.firmware } }

/-- A bank with a valid record. -/
def bankValid (x : NvBank) : Bool := x.committed && x.recordGood

/-- A bank whose newest record is invalid is discarded with 0x0D05 (R399). -/
def discardBank (b : Fin 2) (s : State) : State :=
  if (s.nv.banks[b]).committed && !(s.nv.banks[b]).recordGood then
    reportNv none { code := 0x0D05, value := b.val } (modBank b (fun x => { x with committed := false }) s)
  else s

/-- The bank with the valid record of higher seq. -/
def newestBank (s : State) : Option (Fin 2) :=
  let a := s.nv.banks[(0 : Fin 2)]
  let b := s.nv.banks[(1 : Fin 2)]
  if bankValid a then (if bankValid b && decide (a.seq.toNat < b.seq.toNat) then some 1 else some 0)
  else if bankValid b then some 1
  else none

/-- The ROM's choice of a bank (R399): none stops the start. -/
def chooseBank (s : State) : Option (Fin 2) × State :=
  let s := discardBank 1 (discardBank 0 s)
  match newestBank s with
  | none => (none, s)
  | some b =>
    if (s.nv.banks[b]).fwGood then (some b, s)
    else
      let o := otherBank b
      if bankValid s.nv.banks[o] && (s.nv.banks[o]).fwGood then
        (some o, reportNv (some 3) { code := 0x0D06, value := b.val } s)
      else (none, s)

end Sys2Proof.Machine
end

