-- ==== Sys2Proof/Machine/Startup.lean ====
section
/-! DEFINITION. Reset, start-up, power-good, input power and the tray release: the commands of chapter 16 and
of R393, R394. -/

namespace Sys2Proof.Machine

open Sys2Proof

/-! ### Reset (R413, R414, R421) -/

/-- Some rail beyond the house domain is up. -/
def railsUp (s : State) : Bool :=
  !(s.start.zonesUp == 0) || s.start.stacksUp || allDies.any fun (d : DieId) => !(decide ((s.dieOf d).rails = .off))

/-- A store that is writing stops (R414): the inactive bank no longer matches its record. -/
def stopWrite (n : Nv) : Nv :=
  match n.job with
  | none => n
  | some _ =>
    let b := otherBank n.active
    { n with job := none, banks := n.banks.set b { n.banks[b] with recordGood := false } }

/-- NV after a reset: banks, production map and lifetime counts survive. -/
def resetNv (n : Nv) : Nv :=
  let n := stopWrite n
  { Nv.reset with banks := n.banks, active := n.active, production := n.production, stores := n.stores }

/-- What survives a reset, and every register at its Reset value (R413). Pins that are low act again
(R419). -/
def resetState (cause : BitVec 4) (house : Bool) (s : State) : State :=
  let pins := s.power.pins
  let r := loadSettings
    { State.reset with
      pending := s.pending, free := s.free, out := s.out, ticks := s.ticks, ident := s.ident,
      nv := resetNv s.nv,
      start := { Startup.reset with
        resetCause := cause, tripAtReset := s.thermal.thermTrip, houseUp := house, resetLow := true } }
  let r := { r with power := { r.power with pins := pins } }
  let r := if s.thermal.thermTrip then emit (.thermTrip false) r else r
  if pins == 0 then r
  else assertClamp ((if pins.getLsbD 0 then srcVr else 0) ||| (if pins.getLsbD 1 then srcPsu else 0)) r

/-- A reset that takes effect with rails up asserts the Binnacle source and drops them (R414). -/
def dropForReset (s : State) : State :=
  if railsUp s then houseOnly (assertClamp srcBinnacle s) else s

/-- HOUSE_RST_N low for 2,500 ticks takes effect; a shorter low level is ignored (R413). With the house
domain down the input has just been applied: power-on (log entry 8). -/
def execHouseRstNAssert (ticks : Nat) (s : State) : Host.Outcome State Fault Refusal :=
  .next (when' (decide (2500 ≤ ticks))
    (fun s => resetState (if s.start.houseUp then 1 else 0) true (dropForReset s)) s)

/-- The start stops: Binnacle clamp, every rail beyond the house domain off, phase 7 (R418). -/
def stopStart (code : Code) (s : State) : State :=
  let s := houseOnly (assertClamp srcBinnacle (report { code := code } s))
  { s with start := { s.start with phase := 7, stopCode := code } }

/-- ROM: the bank is chosen (R399), the boot epoch advances (R306), settings are loaded. -/
def runRom (s : State) : State :=
  let s := { s with
    ident := { s.ident with bootEpoch := s.ident.bootEpoch + 1 },
    start := { s.start with resetLow := false, phase := 0, credWindow := true, riseTick := s.ticks } }
  match chooseBank s with
  | (some b, s) => loadSettings { s with nv := { s.nv with active := b } }
  | (none, s) =>
    let s := reportNv none { code := 0x0D0A } s
    { s with start := { s.start with phase := 7, stopCode := 0x0D0A } }

def execHouseRstNRise (s : State) : Host.Outcome State Fault Refusal :=
  .next (when' (s.start.resetLow && s.start.houseUp) runRom s)

/-! ### Keys (R302, Table 12-8) -/

/-- A byte of a count as the debug state. -/
def debugByte (s : State) : Byte :=
  BitVec.ofNat 8 (b2n s.sec.debugUnlocked + 2 * s.ident.debugCount.toNat)

/-- The four firmware digests of Table 12-5. -/
def fwDigests (s : State) : Bytes :=
  Config.romDigest ++ (List.range 3).flatMap fun i => slice (s.sec.firmware.digests.getD i []) 0 64

/-- "LKW36 id", "LKW36 alias", "LKW36 seal". -/
def labelId : Bytes := ascii [76, 75, 87, 51, 54, 32, 105, 100]
def labelAlias : Bytes := ascii [76, 75, 87, 51, 54, 32, 97, 108, 105, 97, 115]
def labelSeal : Bytes := ascii [76, 75, 87, 51, 54, 32, 115, 101, 97, 108]

/-- Seed of the DeviceID key. -/
def deviceIdSeed (s : State) : Bytes := Config.shake256 (s.ident.uds ++ labelId) 32

/-- CDI, attestation seed and sealing key of the firmware and the debug state. -/
def deriveKeys (s : State) : State :=
  let cdi := Config.shake256 (s.ident.uds ++ fwDigests s ++ [debugByte s]) 64
  { s with sec := { s.sec with
    cdi := cdi, aliasSeed := Config.shake256 (cdi ++ labelAlias) 32,
    sealKey := Config.shake256 (s.ident.uds ++ labelSeal ++ toLe 2 (s.sec.firmware.svns.getD 0 0) ++
      [debugByte s]) 32 } }

/-- The ROM has started and has not stopped. -/
def inPhase (s : State) (p : BitVec 4) : Bool := s.start.phase == p && !s.start.resetLow && s.start.houseUp

def execKeysUp (s : State) : Host.Outcome State Fault Refusal :=
  .next (when' (inPhase s 0) (fun s =>
    deriveKeys { s with start := { s.start with phase := 1 } }) s)

/-! ### The coolant gate (R416) -/

/-- The first flow request: the forecast peak is the measured draw. -/
def firstRequest (s : State) : State :=
  writeTray s

def execCoolantGateStart (tray : Option TrayRegs) (s : State) : Host.Outcome State Fault Refusal :=
  .next (when' (inPhase s 1) (fun s =>
    let s := { s with start := { s.start with phase := 2 } }
    let s := match tray with
      | none => s
      | some t =>
        if trayKnown t then takeTray t s
        else report { code := 0x0E04 } { s with start := { s.start with trayBad := true } }
    firstRequest s) s)

/-- A power-raising step of start-up may run: no release, no clamp (R415, R419). -/
def mayRaise (s : State) : Bool := !s.start.paused && !s.start.releaseLow && !s.power.clamped

def execCoolantGatePass (s : State) : Host.Outcome State Fault Refusal :=
  .next (when' (inPhase s 2 && !s.start.trayBad && !s.thermal.stale && flowAtLeast s 55 && mayRaise s)
    (fun s => { s with start := { s.start with phase := 3 } }) s)

def execCoolantGateTimeout (s : State) : Host.Outcome State Fault Refusal :=
  .next (when' (inPhase s 2 && !s.start.gateReported) (fun s =>
    report { code := 0x0E03 } { s with start := { s.start with gateReported := true } }) s)

/-! ### Deck, stacks, open house -/

/-- Zones that have reached power-good, counted in order. -/
def zoneCount (s : State) : Nat :=
  ((List.range 9).filter fun i => s.start.zonesUp.getLsbD i).length

/-- The next zone reaches power-good, or the start stops (R418); with the ninth the mesh locks. -/
def execDeckZoneUp (good : Bool) (s : State) : Host.Outcome State Fault Refusal :=
  .next (when' (inPhase s 3 && !allZones s && mayRaise s) (fun s =>
    if good then
      let z := s.start.zonesUp ||| ((1 : BitVec 9) <<< zoneCount s)
      { s with start := { s.start with zonesUp := z, meshLocked := z == 0x1FF } }
    else stopStart 0x0E02 s) s)

/-- Record lasting faults and failed tracks that a deck or field test found (R383, R42). -/
def recordFaults (code : Code) (faults : List Part) (tracks : List (LinkDir × Nat × Nat)) (s : State) : State :=
  tracks.foldl (fun s t => failTrack t.1 t.2.1 t.2.2 s)
    (faults.foldl (fun s p => lastingFault p code s) s)

def execDeckCheck (faults : List Part) (tracks : List (LinkDir × Nat × Nat)) (s : State) :
    Host.Outcome State Fault Refusal :=
  .next (when' (inPhase s 3 && s.start.meshLocked && !s.start.deckChecked) (fun s =>
    let n := faults.length + tracks.length
    let s := recordFaults 0x0E06 faults tracks { s with start := { s.start with deckChecked := true } }
    if n = 0 then s else report { code := 0x0E06, isCount := true, value := n } s) s)

/-- Port dies and stack controllers (Table 16-1): repaired rows are reported, enabled ports train, stack
initialisation starts under a fresh scrub key. -/
def bringUpStacks (s : State) : State :=
  let s := s.nv.repairs.foldl (fun s r => report { code := 0x0C0A, loc := locPort r.1, value := r.2 } s) s
  let s := mapPorts (fun _ p => if p.nv.enable then beginTrain p else p) s
  drawNext { s with
    sec := { s.sec with scrubKey := s.random 64 },
    start := { s.start with phase := 5, stacksUp := true, initTick := s.ticks } }

def execStackBringUp (fail : Bool) (s : State) : Host.Outcome State Fault Refusal :=
  .next (when' (inPhase s 3 && s.start.deckChecked && mayRaise s) (fun s =>
    if fail then stopStart 0x0E07 { s with start := { s.start with phase := 4 } }
    else bringUpStacks { s with start := { s.start with phase := 4 } }) s)

def execStackInitialisationDone (s : State) : Host.Outcome State Fault Refusal :=
  .next (when' (inPhase s 5) (fun s =>
    let ms := tickMs s
    report { code := 0x0E01, value := ms.toNat }
      { s with start := { s.start with phase := 6, initPct := 100, openMs := ms },
               sec := { s.sec with scrubKey := [] } }) s)

def execCredentialWindowExpire (s : State) : Host.Outcome State Fault Refusal :=
  .next { s with start := { s.start with credWindow := false } }

/-! ### Power-good and input power (R420, R303) -/

/-- House open, a field test, or power-good low after it. -/
def afterOpen (s : State) : Bool :=
  s.start.phase == 6 || s.start.phase == 8 || s.start.phase == 9

/-- Something still asks for the Binnacle source: a release, power-good low, a stop, a dark zone. -/
def binnacleHeld (s : State) : Bool :=
  s.start.releaseLow || s.start.pwrGoodLow || s.start.phase == 7 || (afterOpen s && !allZones s)

/-- Let the Binnacle source go where nothing holds it. -/
def dropBinnacle (s : State) : State :=
  if binnacleHeld s then s else dropSource srcBinnacle s

def execPwrGoodLoss (s : State) : Host.Outcome State Fault Refusal :=
  .next (when' (afterOpen s && !s.start.pwrGoodLow) (fun s =>
    let s := report { code := 0x0E08 } { s with start := { s.start with pwrGoodLow := true, phase := 8 } }
    parkChart (endActive 0x0E08 false (assertClamp srcBinnacle s))) s)

def execPwrGoodRestore (s : State) : Host.Outcome State Fault Refusal :=
  .next (when' s.start.pwrGoodLow (fun s =>
    let s := dropBinnacle { s with start := { s.start with pwrGoodLow := false, phase := 6 } }
    report { code := 0x0E09 } (reinstall s)) s)

/-- Power is gone: everything volatile with it; the house domain too (R303). -/
def execInputPowerLoss (s : State) : Host.Outcome State Fault Refusal :=
  .next (when' s.start.houseUp (fun s =>
    resetState 0 false { s with power := { s.power with pins := 0 } }) s)

/-! ### Tray release (R393, R394, R419) -/

/-- The draw can reach 900 W at the slew limit within 150 ms (Table 15-7). -/
def canSlewDown (s : State) : Bool :=
  decide (s.power.level / 10000 ≤ 900 + s.power.slewWs.toNat * 150 / 1000)

/-- Ports in service show WITHDRAWN; a port in CURTAIN does so after it (R240). -/
def withdrawPort (p : Port) : Port :=
  if p.state = .up then
    (if p.status = .curtain then { p with resume := .withdrawn }
     else { p with status := .withdrawn, resume := .withdrawn })
  else p

/-- The ports return to UP (R394). -/
def returnPort (p : Port) : Port :=
  { p with status := if p.status = .withdrawn then .up else p.status,
           resume := if p.resume = .withdrawn then .up else p.resume }

/-- A release after house open (Table 15-7). -/
def releaseOpen (s : State) : State :=
  let s := report { code := 0x0103 } { s with start := { s.start with releaseLow := true } }
  let s := mapPorts (fun _ p => withdrawPort p) (endActive 0x0103 false s)
  let s := if canSlewDown s then s else assertClamp srcBinnacle s
  parkChart s

/-- A release before house open stops start-up and turns the rails off (R419). -/
def releaseEarly (s : State) : State :=
  let s := houseOnly s
  { s with start := { s.start with releaseLow := true, paused := true,
                                   phase := if s.start.phase.toNat < 3 then s.start.phase else 3 } }

def execTrayRelease (s : State) : Host.Outcome State Fault Refusal :=
  .next (when' (!s.start.releaseLow && !s.start.resetLow && s.start.houseUp) (fun s =>
    if afterOpen s then releaseOpen s
    else if s.start.phase == 7 then { s with start := { s.start with releaseLow := true } }
    else releaseEarly s) s)

def execTrayReleaseWithdrawn (s : State) : Host.Outcome State Fault Refusal :=
  .next (when' s.start.releaseLow (fun s =>
    let s' := { s with start := { s.start with releaseLow := false, paused := false } }
    if s.start.paused || !(afterOpen s) then dropBinnacle s'
    else report { code := 0x0104 } (reinstall (dropBinnacle (mapPorts (fun _ p => returnPort p) s')))) s)

end Sys2Proof.Machine
end

