-- ==== Sys2Proof/Machine/Contexts.lean ====
section
/-! DEFINITION. Contexts, the mailbox, the curtain, keys and attestation (chapter 12 but for the plane hops
and management). -/

namespace Sys2Proof.Machine

open Sys2Proof

/-! ### Reservations (R292) -/

/-- GiB that open contexts and running zero-fills hold. -/
def usedGib (s : State) : Nat :=
  (allSlots.foldl (fun n i => n + if isOpen s i then (s.ctxOf i).stackGib + (s.ctxOf i).hdmGib else 0) 0) +
    s.sec.filling.foldl (fun n p => n + p.2) 0

/-- free_gib. -/
def freeGib (s : State) : Nat := 1536 - usedGib s

/-! ### The mailbox (R294, R295, R417) -/

/-- What a request answers: a refusal, a response, or nothing before a hand-over ends. -/
inductive Answer where
  | refuse (code : Code)
  | reply (body : Bytes)
  | later
  deriving DecidableEq, Repr

/-- BAR0 answers: the start has left phase 0, with the keys up (R415) or stopped in ROM (R399). -/
def bar0Up (s : State) : Bool := s.start.houseUp && !s.start.resetLow && !(s.start.phase == 0)

/-- The request is ready: registers written, go set. -/
def takeRequest (op : Nat) (i : Slot) (req : Bytes) (s : State) : State :=
  { s with sec := { s.sec with
      opcode := BitVec.ofNat 8 op, slot := BitVec.ofNat 3 i, go := true,
      reqLen := BitVec.ofNat 15 req.length, request := req } }

/-- The response is ready: error, length and bytes, go falls. -/
def respond (code : Code) (body : Bytes) (s : State) : State :=
  { s with sec := { s.sec with
      go := false, error := code, respLen := BitVec.ofNat 15 body.length, response := body } }

/-- A request is refused: its code is an event of the slot, and the answer. -/
def refuseRequest (i : Slot) (code : Code) (s : State) : State :=
  respond code [] (report { code := code, slot := BitVec.ofNat 8 i } s)

/-- No request keeps the mailbox (R294). -/
def mailboxFree (s : State) : Bool :=
  bar0Up s && !s.sec.go

/-- The request waits: a curtain is in progress (Table 12-4), or it asks for a hand-over while one runs (R294). -/
def mailboxWaits (op : Nat) (s : State) : Bool :=
  inCurtain s || (s.sec.handOver.isSome && (op == 2 || op == 3))

/-- The request is one that R417 lets run before house open. -/
def earlyRequest (op : Nat) (req : Bytes) : Bool :=
  op == 0x08 || op == 0x09 || (op == 0x04 && byteAt req 32 == 0xFF)

/-- Requests are refused with 0x0E05: before house open, or during a field test (R417, R430). -/
def mailboxClosed (op : Nat) (req : Bytes) (s : State) : Bool :=
  (!(houseOpen s) && !(earlyRequest op req)) || s.field.running.isSome

/-- Serve the request that `go` stands for: `f` gives the answer and the state with the request's effect. -/
def serveRequest (op : Nat) (f : Slot → Bytes → State → Answer × State) (i : Slot) (req : Bytes) (s : State) : State :=
  if mailboxClosed op req s then refuseRequest i 0x0E05 s
  else match f i req s with
    | (.refuse c, s) => refuseRequest i c s
    | (.reply b, s) => respond 0 b s
    | (.later, s) => s

/-- Run one mailbox request, or leave it waiting. -/
def mailbox (op : Nat) (f : Slot → Bytes → State → Answer × State) (i : Slot) (req : Bytes) (s : State) :
    State :=
  if !(mailboxFree s) then s
  else
    let s := takeRequest op i req s
    if mailboxWaits op s then { s with sec := { s.sec with waiting := some (op, i, req) } } else serveRequest op f i req s

/-! ### OPEN_CONTEXT (R271, R291, R302) -/

/-- The ring of an opened context is empty (R271). -/
def emptyRing (r : CplRing) : CplRing :=
  { r with tail := 0, phase := true, headInForce := 0, held := [], writing := false, irqDue := false }

/-- Bind a slot and draw its keys; every queue is reset and latched (R271). -/
def openSlot (i : Slot) (fp : Bytes) (stack hdm : Nat) (s : State) : State :=
  let memKey := s.random 64
  let s := drawNext s
  let kem := Config.kemKeys (s.random 64)
  let s := drawNext s
  let s := modCtx i (fun c => { c with
    state := .open', ownerFp := fp, stackGib := stack, hdmGib := hdm, memKey := memKey, ek := kem.1, dk := kem.2,
    fences := [], running := [], cq := emptyRing c.cq, keys := Vector.replicate 16 none, reports := [],
    lastSeq := [], ledger := [], blockMax := [], pool := [], bounced := [], gradAt := [], arith := [], model := none, barrier := false, heldMs := 0,
    queues := c.queues.map fun q => { q with cancel := false } }) s
  allQueues.foldl (fun s q => latchQueue i q s) s

/-- What a stack device holds of a context's line: AES-256-XTS under the context memory key (R19, Table 12-8). The memory of State holds
what the stack controller delivers, the plaintext; no command reaches the devices past it (DEDUCED, log entry 105). -/
def stackCipher (s : State) (i : Slot) (line : Nat) : Bytes :=
  Config.xtsSeal (s.ctxOf i).memKey line (readBytes s.mem (stackKey i (64 * line)) 64)

/-- OPEN_CONTEXT (Table 12-2). -/
def openRequest (i : Slot) (req : Bytes) (s : State) : Answer × State :=
  let stack := leAt req 64 2
  let hdm := leAt req 66 2
  if !(req.length == 128) || !(zeros req 68 60) || hdm < 1 || 256 < hdm then (.refuse 0x0901, s)
  else if isOpen s i then (.refuse 0x0902, s)
  else if s.sec.debugUnlocked then (.refuse 0x0918, s)
  else if 1536 < usedGib s + stack + hdm then (.refuse 0x0903, s)
  else
    let s := openSlot i (slice req 0 64) stack hdm s
    (.reply (s.ctxOf i).ek, s)

def execOpenContext (i : Slot) (req : Bytes) (s : State) : Host.Outcome State Fault Refusal :=
  .next (mailbox 0x01 openRequest i req s)

/-! ### Handing over and closing (R296, R297, R301) -/

/-- The slot holds the engine. -/
def isHolding (s : State) (i : Slot) : Bool := decide ((s.ctxOf i).state = .holding)

/-- The state that commands and keys need: open or holding. -/
def openOrHolding (s : State) (i : Slot) : Bool :=
  isHolding s i || decide ((s.ctxOf i).state = .open')

/-- The space of a closing slot: free at once, or zero-filled first under a scrub key (R297, R301). -/
def startFill (i : Slot) (gib : Nat) (zeroFill fresh : Bool) (s : State) : State :=
  if zeroFill then
    let s := { s with sec := { s.sec with filling := s.sec.filling ++ [(i, gib)] } }
    if fresh then drawNext { s with sec := { s.sec with scrubKey := s.random 64 } } else s
  else s

/-- Close a slot that does not hold the engine, at once. -/
def closeNow (i : Slot) (zeroFill fresh : Bool) (s : State) : State :=
  let gib := (s.ctxOf i).stackGib + (s.ctxOf i).hdmGib
  startFill i gib zeroFill fresh (destroyCtx i s)

/-- The outgoing context's collectives end as under R233: REDUCE_SHARDS here alone, the others with an
abort. -/
def withdrawColls (i : Slot) (s : State) : State :=
  abortColls 0x0702 (endReduction i 0x0702 s)

/-- The grace is over: commands that still run end with 0x090F (R296). -/
def endGrace (i : Slot) (s : State) : State :=
  dropLoads i (endOthers i 0x090F true s)

/-- Begin a hand-over (R296, R297). -/
def beginHandOver (h : HandOver) (s : State) : State :=
  let s := { s with sec := { s.sec with handOver := some h } }
  match h.outgoing with
  | none => s
  | some i => withdrawColls i s

/-- Close a slot on request: at once, or through a closing curtain. -/
def closeSlot (asker : Asker) (i : Slot) (zeroFill : Bool) (s : State) : Answer × State :=
  if isHolding s i then
    (.later, endGrace i (beginHandOver ⟨some i, none, true, zeroFill, false, asker⟩ s))
  else (.reply [], closeNow i zeroFill true s)

/-- Hand the engine to a slot. -/
def switchSlot (asker : Asker) (i : Slot) (grace : Nat) (s : State) : Answer × State :=
  if isHolding s i then (.reply [], s)
  else if !(decide ((s.ctxOf i).state = .open')) then (.refuse 0x0902, s)
  else
    let out := holder s
    let s := beginHandOver ⟨out, some i, false, false, false, asker⟩ s
    (.later, match out with
      | some o => if grace = 0 then endGrace o s else s
      | none => s)

/-- CLOSE_CONTEXT (Table 12-2). -/
def closeRequest (asker : Asker) (i : Slot) (req : Bytes) (s : State) : Answer × State :=
  if !(req.length == 8) || !((byteAt req 0 &&& 0xFE) == 0) || !(zeros req 1 7) then (.refuse 0x0901, s)
  else if !(openOrHolding s i) then (.refuse 0x0902, s)
  else closeSlot asker i ((byteAt req 0).getLsbD 0) s

def execCloseContext (i : Slot) (req : Bytes) (s : State) : Host.Outcome State Fault Refusal :=
  .next (mailbox 0x02 (closeRequest .mailbox) i req s)

/-- SWITCH_CONTEXT (Table 12-2). -/
def switchRequest (asker : Asker) (i : Slot) (req : Bytes) (s : State) : Answer × State :=
  if !(req.length == 8) || !(zeros req 4 4) || 10000 < leAt req 0 4 then (.refuse 0x0901, s)
  else switchSlot asker i (leAt req 0 4) s

def execSwitchContext (i : Slot) (req : Bytes) (s : State) : Host.Outcome State Fault Refusal :=
  .next (mailbox 0x03 (switchRequest .mailbox) i req s)

/-- The outgoing slot of a hand-over whose curtain has not started. -/
def leaving (s : State) : Option Slot :=
  match s.sec.handOver with
  | some h => if h.started then none else h.outgoing
  | none => none

def execGraceExpire (s : State) : Host.Outcome State Fault Refusal :=
  .next (match leaving s with
    | some i => endGrace i s
    | none => s)

/-! ### The curtain (R298 to R300) -/

/-- A row that the curtain cannot zero (R299): its entry, 0x090E, and a spare row in its place; a bank
without one retires the tile, and the row leaves the address map all the same (R47). -/
def curtainRow (s : State) (kind : Nat) (t : TileId) (bank row : Nat) : State :=
  let n := s.defects.entries.length
  let s := report { code := 0x090E, loc := locTile t, value := rowDetail bank row }
    (addEntry kind t (rowDetail bank row) s)
  if sparesUsed s.defects.entries kind t bank < sparesOf kind then
    { s with defects := { s.defects with
        entries := s.defects.entries.modify n (fun e => e ||| ((1 : BitVec 64) <<< coveredBit kind)) } }
  else
    let s := { s with defects := { s.defects with gone := insertNew s.defects.gone (kind, t.val, bank, row) } }
    if isRetired s t then s else addEntry 2 t 0x090E s

/-- A bad row of a powered store. -/
def curtainBad (s : State) : Part → State
  | .tileRow t b r => if (s.dieOf (dieOfTile t)).rails = .up then curtainRow s 3 t b r else s
  | .deckRow t b r => curtainRow s 4 t b r
  | _ => s

/-- Every store of R299 becomes zero: tile and deck SRAM, accumulators, vector registers, tables, routes,
counters, deferred queues, marks, side and receive buffers. -/
def zeroStores (s : State) : State :=
  let s := { s with mem := (s.mem.filter fun c => !(decide (c.1 < 2 ^ 40))), installed := none, signals := [] }
  mapPorts (fun _ p => { p with partial' := Vector.replicate 4 [] }) (mapTiles (fun _ t => offTile t) s)

/-- A port enters CURTAIN (R240): one that is UP shows it and keeps the status it returns to. -/
def curtainPort (p : Port) : Port :=
  if p.state = .up then { p with resume := p.status, status := .curtain } else p

/-- A port leaves CURTAIN. -/
def uncurtainPort (p : Port) : Port :=
  if p.status = .curtain then { p with status := p.resume } else p

/-- The outgoing slot's Chart leaves the engine; the checked copy stays STAGED (R125, R293). -/
def leaveChart (i : Slot) (s : State) : State :=
  modSlot i (fun l => if l.state = .running ∨ l.state = .installing then { l with state := .staged } else l) s

/-- The slot byte of an event about a hand-over. -/
def slotByte : Option Slot → Byte
  | some i => BitVec.ofNat 8 i
  | none => 0xFF

/-- A curtain draws its scrub key and the seeds of the ballast registers (R300, R346). -/
def drawCurtain (s : State) : State :=
  seedBallast (drawNext { s with sec := { s.sec with scrubKey := s.random 64 } })

/-- The curtain starts (Table 12-3, 0): a fresh scrub key, and fresh seeds of the ballast registers (R346). -/
def startCurtain (h : HandOver) (bad : List Part) (s : State) : State :=
  let s := { s with sec := { s.sec with handOver := some { h with started := true } } }
  let s := match h.outgoing with
    | some i => modCtx i (fun c => { c with state := .curtain }) (leaveChart i s)
    | none => s
  let s := drawCurtain s
  let s := report { code := 0x090C, slot := slotByte h.outgoing } (mapPorts (fun _ p => curtainPort p) s)
  bad.foldl curtainBad (zeroStores s)

/-- No command of the outgoing context runs (R296). -/
def handOverReady (s : State) (h : HandOver) : Bool :=
  !h.started && (match h.outgoing with
    | some i => (s.ctxOf i).running.isEmpty
    | none => true)

def execCurtainStart (bad : List Part) (s : State) : Host.Outcome State Fault Refusal :=
  .next (match s.sec.handOver with
    | none => s
    | some h => if handOverReady s h then startCurtain h bad s else s)

/-! ### Debug (R327, R328) -/

/-- The unlock takes effect once every context is closed (R328): the fuse count rises, the keys change,
group keys can no longer be unsealed. -/
def finishDebug (s : State) : State :=
  let s := { s with
    ident := { s.ident with debugCount := s.ident.debugCount + 1 },
    sec := { s.sec with debugUnlocked := true } }
  emit (.mgmt 0x0081 0 []) (report { code := 0x0917 } (deriveKeys s))

/-- The answer at the end of a hand-over, to whoever asked for it. -/
def answerHandOver (h : HandOver) (s : State) : State :=
  match h.asker with
  | .mailbox => respond 0 [] s
  | .management => emit (.mgmt (if h.closing then 0x0030 else 0x0031) 0 []) s
  | .debug => finishDebug s

/-- The outgoing slot at the end of its curtain: closed, or open with all it keeps (R293, R297). -/
def settleOutgoing (h : HandOver) (s : State) : State :=
  match h.outgoing with
  | none => s
  | some i =>
    if h.closing then closeNow i h.zeroFill false s
    else modCtx i (fun c => { c with state := .open' }) s

/-- Dies that no incoming Chart uses power down (R126; DEDUCED, log entry 21). -/
def dropUnused (h : HandOver) (s : State) : State :=
  let keep (d : DieId) : Bool := match h.incoming with
    | none => false
    | some i => match chartOf s i with
      | some c => c.dieMask.getLsbD d
      | none => false
  railsDown (fun d => !(keep d)) s

/-- The incoming slot holds the engine, and its staged Chart is installed (R125, R298). -/
def settleIncoming (h : HandOver) (s : State) : State :=
  match h.incoming with
  | none => s
  | some i =>
    if (s.ctxOf i).state = .open' then
      beginInstall i (modCtx i (fun c => { c with state := .holding }) s)
    else s

/-- The curtain ends (Table 12-3, 2 ms). -/
def endCurtain (h : HandOver) (s : State) : State :=
  let s := { s with sec := { s.sec with
    handOver := none, scrubKey := if h.closing && h.zeroFill then s.sec.scrubKey else [] } }
  let s := settleOutgoing h (mapPorts (fun _ p => uncurtainPort p) s)
  let s := report { code := 0x090D, slot := slotByte h.outgoing } (sendPending s)
  answerHandOver h (settleIncoming h (dropUnused h s))

/-- A zero-fill ends (R301). -/
def execZeroFillDone (i : Slot) (s : State) : Host.Outcome State Fault Refusal :=
  .next (match s.sec.filling.find? fun p => p.1 == i with
    | none => s
    | some p =>
      if inCurtain s then s
      else
        let l := s.sec.filling.erase p
        report { code := 0x0911, slot := BitVec.ofNat 8 i }
          { s with sec := { s.sec with filling := l, scrubKey := if l.isEmpty then [] else s.sec.scrubKey } })

/-! ### The attestation report (R305 to R307, R318) -/

/-- ctx_state of Table 11-6. -/
def ctxStateCode : CtxState → Nat
  | .closed => 0
  | .open' => 1
  | .holding => 2
  | .curtain => 3

/-- A plane record (R318). -/
def planeRecord (p : PortId) (x : Port) : Bytes :=
  [BitVec.ofNat 8 p, if x.keyed then 1 else 0] ++ List.replicate 6 0 ++
    (if x.keyed then toLe 8 x.switchSerial.toNat ++ slice x.rootFp 0 64 ++ slice x.reducerFw 0 64
     else List.replicate 136 0)

/-- The 16 plane records. -/
def planeRecords (s : State) : Bytes :=
  allPorts.flatMap fun p => planeRecord p (s.portOf p)

/-- The region records and the variant each region uses (R128), as the digest takes them. -/
def regionMapBytes (c : Chart) (x : Installed) : Bytes :=
  c.regions.flatMap fun r =>
    toLe 2 r.id ++ toLe 1 r.col0 ++ toLe 1 r.row0 ++ toLe 1 r.col1 ++ toLe 1 r.row1 ++ toLe 1 (b2n r.isProtected) ++
      toLe 8 r.dieMask.toNat ++ toLe 2 r.zoneMask.toNat ++ toLe 4 r.userPairs.toNat ++
      toLe 2 ((find? x.variants r.id).getD 0xFFFF)

/-- The slot's running Chart's region map digest, zero if none runs. -/
def regionMapDigest (s : State) (i : Slot) : Bytes :=
  match s.installed, runningChart s i with
  | some x, some c => Config.shake256 (regionMapBytes c x) 64
  | _, _ => List.replicate 64 0

/-- variants_in_use and regions_lost of the running Chart (Table 5-9). -/
def variantCounts (s : State) : Nat × Nat :=
  ((match s.installed with
    | some x => x.variants.length
    | none => 0), s.loader.regionsLost)

/-- The stepping byte: letter in bits [7:4], number in bits [3:0], as min_step in Table 5-1. -/
def stepByte (s : State) : Byte := s.ident.stepLetter ++ s.ident.stepNumber

/-- Bytes [703:457] of a report: the partition layout, zero with no context. -/
def partitionBytes (s : State) : Option Slot → Bytes
  | none => 0xFF :: List.replicate 246 0
  | some i =>
    let c := s.ctxOf i
    let n := variantCounts s
    [BitVec.ofNat 8 i, BitVec.ofNat 8 (ctxStateCode c.state), 0] ++ toLe 2 n.1 ++ toLe 2 n.2 ++
      toLe 2 c.hdmGib ++ toLe 2 c.stackGib ++ List.replicate 44 0 ++ slice c.ownerFp 0 64 ++
      (match chartOf s i with
        | some x => slice x.digest 0 64
        | none => List.replicate 64 0) ++ slice (regionMapDigest s i) 0 64

/-- SVNs in digest order: ROM, firmware, microcode, port firmware. -/
def svnBytes (s : State) : Bytes :=
  (0 :: (List.range 3).map fun k => s.sec.firmware.svns.getD k 0).flatMap fun v => toLe 2 v

/-- A report's bytes [2015:0] (Table 12-5). -/
def reportBody (s : State) (who : Option Slot) (nonce ek : Bytes) : Bytes :=
  toLe 4 0x52545441 ++ toLe 4 0x00010000 ++ toLe 4 5325 ++ toLe 2 0x0036 ++ [stepByte s, 1] ++
    toLe 8 s.ident.serial.toNat ++ toLe 4 s.sec.reportCount.toNat ++ toLe 4 s.ident.bootEpoch.toNat ++
    slice nonce 0 32 ++ slice (Config.shake256 (Config.mldsaPublic (deviceIdSeed s)) 64) 0 64 ++
    slice (Config.shake256 (Config.mldsaPublic s.sec.aliasSeed) 64) 0 64 ++ slice (fwDigests s) 0 256 ++
    svnBytes s ++ [debugByte s] ++ partitionBytes s who ++
    slice (Config.shake256 (planeRecords s) 64) 0 64 ++ slice Config.fuseDigest 0 64 ++ slice ek 0 1184

/-- Sign a report with the attestation key; the number of reports since the start rises (R306). -/
def makeReport (who : Option Slot) (nonce ek : Bytes) (s : State) : Bytes × State :=
  let b := reportBody s who nonce ek
  (b ++ slice (Config.mldsaSign s.sec.aliasSeed b) 0 3309,
   { s with sec := { s.sec with reportCount := s.sec.reportCount + 1 } })

/-- GET_REPORT (Table 12-2): the digests of a slot's last eight reports are kept (R309). -/
def reportRequest (i : Slot) (req : Bytes) (s : State) : Answer × State :=
  let sel := byteAt req 32
  if !(req.length == 64) || !(zeros req 33 31) || !(sel == 0 || sel == 0xFF) then (.refuse 0x0901, s)
  else if sel == 0xFF then
    let r := makeReport none (slice req 0 32) [] s
    (.reply r.1, r.2)
  else if !(openOrHolding s i) then (.refuse 0x0902, s)
  else
    let r := makeReport (some i) (slice req 0 32) (s.ctxOf i).ek s
    (.reply r.1, modCtx i (fun c => { c with
      reports := (c.reports ++ [Config.shake256 r.1 64]).drop (c.reports.length - 7) }) r.2)

def execGetReport (i : Slot) (req : Bytes) (s : State) : Host.Outcome State Fault Refusal :=
  .next (mailbox 0x04 reportRequest i req s)

/-- An endorsement record's first 1,968 bytes (R307). -/
def endorseBody (s : State) (pub : Bytes) (kind : Byte) : Bytes :=
  slice pub 0 1952 ++ toLe 8 s.ident.serial.toNat ++ [kind] ++ List.replicate 7 0

/-- The two endorsement records (R307): DeviceID, and the attestation key signed by DeviceID. -/
def certBytes (s : State) : Bytes :=
  let a := endorseBody s (Config.mldsaPublic s.sec.aliasSeed) 2
  endorseBody s (Config.mldsaPublic (deviceIdSeed s)) 1 ++ slice Config.deviceIdSig 0 3309 ++ a ++
    slice (Config.mldsaSign (deviceIdSeed s) a) 0 3309

/-- GET_CERTS (Table 12-2). -/
def certsRequest (_ : Slot) (req : Bytes) (s : State) : Answer × State :=
  if !(req.isEmpty) then (.refuse 0x0901, s) else (.reply (certBytes s), s)

def execGetCerts (i : Slot) (req : Bytes) (s : State) : Host.Outcome State Fault Refusal :=
  .next (mailbox 0x09 certsRequest i req s)

/-- GET_PLANE_RECORDS (Table 12-2). -/
def planeRequest (_ : Slot) (req : Bytes) (s : State) : Answer × State :=
  if !(req.isEmpty) then (.refuse 0x0901, s) else (.reply (planeRecords s), s)

def execGetPlaneRecords (i : Slot) (req : Bytes) (s : State) : Host.Outcome State Fault Refusal :=
  .next (mailbox 0x08 planeRequest i req s)

/-! ### Weight keys and group keys (R308 to R313) -/

/-- "LKW36 weight key". -/
def labelWeight : Bytes := ascii [76, 75, 87, 51, 54, 32, 119, 101, 105, 103, 104, 116, 32, 107, 101, 121]

/-- Open a KEM-wrapped blob of Table 12-6 (R309): the report is one of the slot's last eight, and the
decapsulation and the tag succeed. -/
def openBlob (s : State) (i : Slot) (b : Bytes) : Option Bytes :=
  let c := s.ctxOf i
  let digest := slice b 20 64
  if !(c.reports.contains digest) then none
  else match Config.kemDecaps c.dk (slice b 148 1088) with
    | none => none
    | some ss =>
      Config.gcmOpen (Config.shake256 (labelWeight ++ ss ++ digest) 32) (slice b 1236 12) (slice b 0 148)
        (slice b 1248 32) (slice b 1280 16)

/-- chart_policy is zero or the slot's staged Chart digest (R309). -/
def policyMet (s : State) (i : Slot) (policy : Bytes) : Bool :=
  policy.all (· == 0) || (match chartOf s i with
    | some c => c.digest == policy
    | none => false)

/-- Put a weight key at an index. -/
def putKeyAt (i : Slot) (k : Nat) (w : Option WeightKey) (s : State) : State :=
  modCtx i (fun c => { c with keys := c.keys.set (Fin.ofNat 16 k) w }) s

/-- model_id of a blob. -/
def blobModel (b : Bytes) : BitVec 128 := BitVec.ofNat 128 (leAt b 4 16)

/-- INSTALL_KEY with a KEM-wrapped blob (Table 12-6, R309). -/
def installKem (i : Slot) (b : Bytes) (s : State) : Answer × State :=
  if 15 < (byteAt b 1).toNat then (.refuse 0x0906, s)
  else match openBlob s i b with
    | none => (.refuse 0x0904, s)
    | some k =>
      let policy := slice b 84 64
      if !(policyMet s i policy) then (.refuse 0x0905, s)
      else (.reply [], putKeyAt i (byteAt b 1).toNat (some {
        key := k, modelId := blobModel b, chartPolicy := if policy.all (· == 0) then [] else policy }) s)

/-- INSTALL_KEY with a group-wrapped blob (Table 12-7, R312). -/
def installGroup (i : Slot) (b : Bytes) (s : State) : Answer × State :=
  if 15 < (byteAt b 1).toNat then (.refuse 0x0906, s)
  else match s.sec.groups.find? fun g => g.groupId == BitVec.ofNat 128 (leAt b 20 16) &&
      g.ownerFp == (s.ctxOf i).ownerFp with
    | none => (.refuse 0x0908, s)
    | some g =>
      match Config.gcmOpen g.key (slice b 36 12) (slice b 0 36) (slice b 48 32) (slice b 80 16) with
      | none => (.refuse 0x0904, s)
      | some k => (.reply [], putKeyAt i (byteAt b 1).toNat (some {
          key := k, modelId := blobModel b, chartPolicy := [] }) s)

/-- INSTALL_KEY (Table 12-2). -/
def installRequest (i : Slot) (b : Bytes) (s : State) : Answer × State :=
  let kem := b.length == 1296 && byteAt b 0 == 1
  let grp := b.length == 96 && byteAt b 0 == 2
  if !(kem || grp) || !(zeros b 2 2) then (.refuse 0x0901, s)
  else if !(openOrHolding s i) then (.refuse 0x0902, s)
  else if kem then installKem i b s else installGroup i b s

def execInstallKey (i : Slot) (req : Bytes) (s : State) : Host.Outcome State Fault Refusal :=
  .next (mailbox 0x05 installRequest i req s)

/-- A running command uses a weight key: a load or swap that names it, a pass or reduction of the streamed
model bound with it (R308, R310). -/
def usesKey (c : Ctx) (k : Nat) (cmd : Cmd) : Bool :=
  if cmd.opcode == 0x21 || cmd.opcode == 0x22 then cmd.key == k
  else if cmd.opcode == 0x10 || cmd.opcode == 0x30 then
    (match c.model with
      | some m => !m.resident && m.fetch.keyIndex == k
      | none => false)
  else false

/-- End one running command of a slot with a code. -/
def endOne (i : Slot) (cmd : Cmd) (code : Code) (s : State) : State :=
  if cmd.opcode == 0x10 then endPass code s
  else if cmd.opcode == 0x30 then endReduction i code s
  else if cmd.opcode == 0x21 || cmd.opcode == 0x22 then
    let d := cmdDetail (s.ctxOf i) cmd.opcode
    completeCmd i cmd code 0xFFFF d (dropLoads i s)
  else completeCmd i cmd code 0xFFFF 0 s

/-- Clear a key index; the commands that use it end with 0x0905 (R308). -/
def removeKeyAt (i : Slot) (k : Nat) (s : State) : State :=
  let users := (s.ctxOf i).running.filter fun c => usesKey (s.ctxOf i) k c
  let s := putKeyAt i k none s
  let s := users.foldl (fun s c =>
    endOne i c 0x0905 (report { code := 0x0905, slot := BitVec.ofNat 8 i, value := queueValue c.q c.entry } s)) s
  modCtx i (fun c => { c with model := c.model.map fun m =>
    { m with fetch := m.fetch.dropKey k, swap := m.swap.map fun w => { w with fetch := w.fetch.dropKey k } } }) s

/-- REMOVE_KEY (Table 12-2). -/
def removeRequest (i : Slot) (req : Bytes) (s : State) : Answer × State :=
  if !(req.length == 8) || !(zeros req 1 7) then (.refuse 0x0901, s)
  else if !(openOrHolding s i) then (.refuse 0x0902, s)
  else if 15 < (byteAt req 0).toNat then (.refuse 0x0906, s)
  else (.reply [], removeKeyAt i (byteAt req 0).toNat s)

def execRemoveKey (i : Slot) (req : Bytes) (s : State) : Host.Outcome State Fault Refusal :=
  .next (mailbox 0x06 removeRequest i req s)

/-- Index of a group. -/
def groupIndex (l : List GroupKey) (id : BitVec 128) : Option Nat :=
  l.findIdx? fun g => g.groupId == id

/-- GROUP_ENROLL (R311). -/
def enrollRequest (i : Slot) (b : Bytes) (s : State) : Answer × State :=
  if !(b.length == 1296) || !(byteAt b 0 == 3) || !(zeros b 1 3) then (.refuse 0x0901, s)
  else if !(openOrHolding s i) then (.refuse 0x0902, s)
  else match openBlob s i b with
    | none => (.refuse 0x0904, s)
    | some k =>
      if !(policyMet s i (slice b 84 64)) then (.refuse 0x0905, s)
      else
        let g : GroupKey := { groupId := blobModel b, ownerFp := (s.ctxOf i).ownerFp, key := k }
        match groupIndex s.sec.groups g.groupId with
        | some n => (.reply [BitVec.ofNat 8 n], { s with sec := { s.sec with groups := s.sec.groups.set n g } })
        | none =>
          if 16 ≤ s.sec.groups.length then (.refuse 0x0907, s)
          else (.reply [BitVec.ofNat 8 s.sec.groups.length],
            { s with sec := { s.sec with groups := s.sec.groups ++ [g] } })

def execGroupEnroll (i : Slot) (req : Bytes) (s : State) : Host.Outcome State Fault Refusal :=
  .next (mailbox 0x07 enrollRequest i req s)

end Sys2Proof.Machine
end

