-- ==== Sys2Proof/Machine/Transport.lean ====
section
/-! DEFINITION. What the Ryxaiq transport does with a message the engine sends (R241 to R246): its bytes, its
flits, credits, sealing, the replay store; and what takes a port down and trains it again (R244). -/

namespace Sys2Proof.Machine

open Sys2Proof

/-! ### Message bytes (Tables 7-9, 8-2 to 8-4, 9-3) -/

/-- Header of a collective message (Table 9-3). -/
def collBytes (kind : Nat) (h : CollHdr) : Bytes :=
  toLe 1 kind ++ [h.sub] ++ toLe 2 h.descId.toNat ++ toLe 4 h.seq.toNat ++ toLe 8 h.arg.toNat ++
    toLe 2 h.sender.toNat ++ toLe 2 h.groupSize.toNat ++ toLe 4 h.chartTag.toNat ++ toLe 4 h.maskTag.toNat

/-- A 64-byte collective message. -/
def coll64 (kind : Nat) (h : CollHdr) : Bytes := collBytes kind h ++ List.replicate 36 0

/-- A contribution (Table 8-2) with its payload. -/
def contribBytes (c : Contribution) : Bytes :=
  [c.kind, c.flags, c.escape, c.eAg, c.maxExp, c.magnitude] ++ toLe 2 c.nElements.toNat ++ toLe 2 c.k.toNat ++
    toLe 2 c.member.toNat ++ toLe 2 c.owner.toNat ++ toLe 2 c.groupSize.toNat ++ toLe 4 c.step.toNat ++
    toLe 2 c.layer.toNat ++ toLe 2 c.descId.toNat ++ toLe 8 c.g.toNat ++ toLe 4 c.checksum.toNat ++
    toLe 2 c.expected.toNat ++ List.replicate 26 0 ++ c.payload

/-- A result or ring partial (Table 8-4). -/
def resultBytes (r : ResultMsg) : Bytes :=
  [r.kind, 0, 0, r.eAg, r.maxExp, 0] ++ toLe 2 r.nElements.toNat ++ toLe 2 r.nCounted.toNat ++
    toLe 2 r.plane.toNat ++ toLe 2 r.owner.toNat ++ toLe 2 r.groupSize.toNat ++ toLe 4 r.step.toNat ++
    toLe 2 r.layer.toNat ++ toLe 2 r.descId.toNat ++ toLe 8 r.g.toNat ++ toLe 4 r.checksum.toNat ++
    List.replicate 28 0 ++ toLe 256 r.contrib.toNat ++ toLe 256 r.poison.toNat ++ toLe 256 r.overflow.toNat ++
    r.sums.flatMap fun w => toLe 4 w.toNat

/-- RESULT_REQ, RESULT_ACK, NO_BLOCK (Table 8-3). -/
def refBytes (kind : Nat) (b : BlockRef) : Bytes :=
  toLe 4 kind ++ toLe 4 b.step.toNat ++ toLe 8 b.g.toNat ++ toLe 2 b.member.toNat ++ List.replicate 46 0

/-- A scale notice (Table 8-3). -/
def noticeBytes (n : ScaleNotice) : Bytes :=
  toLe 4 0x20 ++ toLe 4 n.step.toNat ++ toLe 8 n.firstG.toNat ++ toLe 2 n.count.toNat ++ List.replicate 14 0 ++
    slice n.exps 0 16 ++ List.replicate 16 0

/-- Header of a shard service message (Table 7-9). -/
def svcBytes (kind : Nat) (modelId : BitVec 128) (shard : Nat) (version : BitVec 32) (holdMs count : Nat) : Bytes :=
  toLe 4 kind ++ toLe 16 modelId.toNat ++ toLe 4 shard ++ toLe 4 version.toNat ++ toLe 2 holdMs ++ toLe 10 0 ++
    toLe 2 count ++ List.replicate 22 0

/-- A shard record's bytes (R154). -/
def recordOfShard (r : ShardRecord) : Bytes := r.header ++ r.cipher ++ r.tag

/-- The shard message that carries one record. -/
def svcRecord (kind : Nat) (r : ShardRecord) : Bytes :=
  let h := parseShardHdr r.header
  svcBytes kind h.modelId h.shard h.version 0 (if kind = 0x61 then 1 else 0) ++ recordOfShard r

/-- A message's bytes after the message header of Table 10-6. -/
def msgBytes : PlaneMsg → Bytes
  | .shardReq id sh v h => svcBytes 0x60 id sh v h 0
  | .shardPut r => svcRecord 0x63 r
  | .pilot r => svcRecord 0x61 r
  | .contribution c => contribBytes c
  | .resultReq b => refBytes 0x30 b
  | .resultAck b => refBytes 0x31 b
  | .scaleNotice n => noticeBytes n
  | .open' h d q rl rg ok => collBytes 0x34 h ++ toLe 4 d ++ toLe 1 q ++ toLe 1 rl ++ toLe 2 rg ++
      toLe 1 (b2n ok) ++ List.replicate 27 0
  | .close h => coll64 0x36 h
  | .ringPartial r => resultBytes r
  | .ringResult r => resultBytes r
  | .hopAck h => coll64 0x41 h
  | .hopCancel h => coll64 0x42 h
  | .cancelAck h => coll64 0x43 h
  | .countsVec h v => coll64 0x50 h ++ v.flatMap fun x => toLe 8 x.toNat
  | .scalarVec h v => coll64 0x51 h ++ v.flatMap fun x => toLe 4 x.toNat
  | .bcastChunk h d => coll64 0x52 h ++ d
  | .bcastEnd h n d => collBytes 0x53 h ++ toLe 4 n ++ List.replicate 32 0 ++ slice d 0 64
  | .bcastReq h => coll64 0x54 h
  | .bcastDone h => coll64 0x55 h
  | .arrive h => coll64 0x56 h
  | .rekey b => b

/-- The VC of a message (Table 10-5). -/
def vcOf : PlaneMsg → Fin 4
  | .ringResult _ | .hopAck _ | .cancelAck _ | .bcastDone _ => 1
  | .pilot _ | .scaleNotice _ | .ringPartial _ | .bcastChunk _ _ | .bcastEnd _ _ _ => 2
  | .rekey _ => 3
  | .shardReq _ _ _ _ | .shardPut _ | .contribution _ | .resultReq _ | .resultAck _ | .open' _ _ _ _ _ _
  | .close _ | .hopCancel _ | .countsVec _ _ | .scalarVec _ _ | .bcastReq _ | .arrive _ => 0

/-- Endpoint of a member of the fabric group (R246). -/
def memberEp (s : State) (m : Nat) : BitVec 32 :=
  BitVec.ofNat 32 (0x10000000 + s.fabricGroup.toNat * 65536 + m % 2048)

/-- Multicast endpoint of every member (R246). -/
def groupEp (s : State) : BitVec 32 :=
  BitVec.ofNat 32 (0x30000000 + s.fabricGroup.toNat * 65536)

/-- Endpoint of a plane's reducer (R246). -/
def reducerEp : BitVec 32 := 0x40000000

/-- The flits of a message of `b` bytes, its header first: 232 bytes each, the last padded with zero (R246). -/
def cutFlits (fuel : Nat) (first : Bool) (b : Bytes) : List TxBody :=
  match fuel with
  | 0 => []
  | k + 1 =>
    if b.length ≤ 232 then [{ body := slice b 0 232, sop := first, eop := true }]
    else { body := b.take 232, sop := first, eop := false } :: cutFlits k false (b.drop 232)

/-- A message with its header as flits. -/
def messageFlits (dst src : BitVec 32) (b : Bytes) : List TxBody :=
  let m := toLe 4 dst.toNat ++ toLe 4 src.toNat ++ toLe 4 b.length ++ toLe 4 0 ++ b
  cutFlits (m.length / 232 + 1) true m

/-! ### Sending (R242, R243, R245) -/

/-- The VC whose credits the next flit returns, the lowest with some, and how many, at most 255 (R245, log entry 106). -/
def creditsDue (p : Port) : Option (Fin 4 × Nat) :=
  ((List.finRange 4).find? fun v => decide (0 < p.owed[v])).map fun v => (v, min 255 p.owed[v])

/-- The credit_vc and credit_count bits of a header. -/
def creditBits (p : Port) : Nat :=
  match creditsDue p with
  | some c => c.1 * 2 ^ 29 + c.2 * 2 ^ 21
  | none => 0

/-- The credits that the flit now sent has returned. -/
def payCredits (p : Port) : Port :=
  match creditsDue p with
  | some c => { p with owed := p.owed.set c.1 (p.owed[c.1] - c.2) }
  | none => p

/-- The flit header of a data flit (Table 10-4), with the acknowledgement and the credits that wait. -/
def flitHeader (p : Port) (vc : Fin 4) (b : TxBody) : BitVec 64 :=
  BitVec.ofNat 64 (p.nextSeq.toNat * 2 ^ 52 + (p.rxExpect - 1).toNat * 2 ^ 40 + b2n p.naking * 2 ^ 39 +
    b2n p.tx.phase * 2 ^ 38 + vc * 2 ^ 33 + b2n b.sop * 2 ^ 32 + b2n b.eop * 2 ^ 31 + creditBits p + p.tx.counter % 2 ^ 21)

/-- The nonce of a flit: salt in bits [95:64], counter in bits [63:0] (R242). -/
def flitNonce (k : HopKey) (counter : Nat) : Bytes := toLe 8 counter ++ toLe 4 k.salt.toNat

/-- Send the first waiting flit of a VC: sealed, numbered, kept until it is acknowledged, for one credit. Among VCs 0 to 2 the turn
stays with the VC that sends until its message ends, and is then the next one's: a VC that sends because the one whose turn it is
has no credit takes the turn (DESIGN CHOICE: R245 does not say, log entry 102). -/
def sendFlit (p : Port) (vc : Fin 4) (b : TxBody) (rest : List TxBody) : Port :=
  let h := flitHeader p vc b
  let c := Config.gcmSeal p.tx.key (flitNonce p.tx p.tx.counter) (toLe 8 h.toNat) b.body
  { payCredits p with
    txQueue := p.txQueue.set vc rest, credits := p.credits.set vc (p.credits[vc] - 1),
    nextSeq := p.nextSeq + 1, tx := { p.tx with counter := p.tx.counter + 1 },
    unacked := p.unacked ++ [{ seq := p.nextSeq, vc := vc, header := h, sealed := c.1 ++ c.2, resends := 0 }],
    stream := p.stream ++ toLe 8 h.toNat ++ c.1 ++ c.2,
    rr := if b.eop ∧ vc.val < 3 then Fin.ofNat 3 (vc.val + 1) else if vc.val < 3 then Fin.ofNat 3 vc.val else p.rr }

/-- The order in which VCs are tried: VC 3, then the others from the one whose turn it is (R245). -/
def vcOrder (p : Port) : List (Fin 4) :=
  3 :: (List.range 3).map fun k => Fin.ofNat 4 ((p.rr.val + k) % 3)

/-- The next flit that may go: its VC has a credit. A VC without one is passed over, also while a message of it is under way (DESIGN
CHOICE: R21 and R245 do not say, log entry 102). -/
def nextFlit (p : Port) : Option (Fin 4 × TxBody × List TxBody) :=
  (vcOrder p).findSome? fun v =>
    match p.txQueue[v] with
    | [] => none
    | b :: r => if 0 < p.credits[v] then some (v, b, r) else none

/-- Send every flit that credits and the replay store of 1,024 let go; a port in CURTAIN sends none (R240). -/
def pumpPort : Nat → Port → Port
  | 0, p => p
  | n + 1, p =>
    if p.state = .up ∧ p.status ≠ .curtain ∧ p.unacked.length < 1024 then
      match nextFlit p with
      | none => p
      | some x => pumpPort n (sendFlit p x.1 x.2.1 x.2.2)
    else p

/-- Flits that wait. -/
def waitingFlits (p : Port) : Nat :=
  (List.finRange 4).foldl (fun n v => n + (p.txQueue[v]).length) 0

/-- Send what may go. -/
def pump (p : Port) : Port := pumpPort (waitingFlits p) p

/-- A null flit: a header of its own, a body of zero, sealed under the next counter (R241, R242). -/
def sendNull (p : Port) : Port :=
  let h := (p.rxExpect - 1).toNat * 2 ^ 40 + b2n p.naking * 2 ^ 39 + b2n p.tx.phase * 2 ^ 38 + 2 ^ 35 + creditBits p +
    p.tx.counter % 2 ^ 21
  let c := Config.gcmSeal p.tx.key (flitNonce p.tx p.tx.counter) (toLe 8 h) (List.replicate 232 0)
  { payCredits p with tx := { p.tx with counter := p.tx.counter + 1 }, stream := p.stream ++ toLe 8 h ++ c.1 ++ c.2 }

/-- Null flits complete the codeword under way (R240), where the stream does not end with one. -/
def fillWord : Nat → Port → Port
  | 0, p => p
  | k + 1, p => if p.stream.length % 640 = 0 then p else if 640 - p.stream.length % 640 ≤ 256 then sendNull p else fillWord k (sendNull p)

/-- What `f` does to a port; where it puts flits into the stream, the codewords that carry them go out, completed with null flits
(R238, R240; log entry 101). -/
def framePort (p : PortId) (f : Port → Port) (s : State) : State :=
  let n := (s.portOf p).stream.length
  let x := f (s.portOf p)
  let y := if x.stream.length = n then x else fillWord 3 x
  let c := if x.stream.length = n then ([], x.stream) else cutCodewords x.status s.out.length (y.stream.length / 640) y.stream
  let s := modPort p (fun _ => { y with stream := c.2 }) s
  c.1.foldl (fun s w => emit (.codeword p w) s) s

/-- Every port sends what may go: after a curtain the flits that waited in it (R240). -/
def pumpPorts (s : State) : State := allPorts.foldl (fun s p => framePort p pump s) s

/-- Send a message on a port that is UP: it joins its VC's queue, and what may go goes (R245, R246). -/
def sendMsg (p : PortId) (dst : BitVec 32) (m : PlaneMsg) (s : State) : State :=
  if (s.portOf p).state = .up then
    let fl := messageFlits dst (memberEp s (ownMember s)) (msgBytes m)
    framePort p (fun x => pump { x with txQueue := x.txQueue.set (vcOf m) (x.txQueue[vcOf m] ++ fl) }) (emit (.plane p dst m) s)
  else s

/-- Send on every port in service (R225). -/
def sendAll (dst : BitVec 32) (m : PlaneMsg) (s : State) : State :=
  (portsInService s).foldl (fun s p => sendMsg p dst m s) s

/-- The last link_status received (Table 10-10). -/
def takeStatus (p : PortId) (v : Option Nat) (s : State) : State :=
  match v with
  | some v => modPort p (fun x => { x with farStatus := BitVec.ofNat 4 v }) s
  | none => s

/-! ### Resends and DOWN (R243, R244) -/

/-- A port goes DOWN with 0x080A; with auto_retrain set it retrains at once, up to three times in a row. -/
def portDown (p : PortId) (s : State) : State :=
  let x := s.portOf p
  let again := x.autoRetrain && decide (x.retrains.toNat < 3) && x.nv.enable && s.start.stacksUp
  reportPort p (some 2) { code := 0x080A } (modPort p (fun x =>
    if again then { beginTrain x with retrains := x.retrains + 1 } else downPort x) s)

/-- Unacknowledged flits from `first` on. -/
def fromSeq (l : List TxFlit) (first : BitVec 12) : List TxFlit :=
  l.dropWhile fun f => f.seq != first

/-- Saturating sum of a 32-bit counter. -/
def satAdd (w : BitVec 32) (n : Nat) : BitVec 32 := BitVec.ofNat 32 (min (w.toNat + n) (2 ^ 32 - 1))

/-- Resend in order from a flit (R243): each is counted under 0x0808. A flit resent eight times already
takes the port DOWN (R244). -/
def resendFrom (p : PortId) (first : BitVec 12) (s : State) : State :=
  let x := s.portOf p
  let l := fromSeq x.unacked first
  if l.isEmpty then s
  else if l.any fun f => decide (8 ≤ f.resends) then portDown p s
  else
    let head := x.unacked.take (x.unacked.length - l.length)
    let s := framePort p (fun x => { x with
      unacked := head ++ l.map fun f => { f with resends := f.resends + 1 }, replays := satAdd x.replays l.length,
      stream := x.stream ++ l.flatMap fun f => toLe 8 f.header.toNat ++ f.sealed }) s
    let s := { s with power := { s.power with lifeReplays := satAdd s.power.lifeReplays l.length } }
    emit (.resend p first)
      (reportPort p none { code := 0x0808, isCount := true, value := (s.portOf p).replays.toNat } s)

end Sys2Proof.Machine
end

