-- ==== Sys2Proof/Machine/Weights.lean ====
section
/-! DEFINITION. Weights (chapter 7): layer streams and manifests (R153, R156, R157), requests and their retries (R161,
R162), arrival checks (R163 to R165), write-back (R166), loads (R170 to R172) and swaps (R173 to R176). -/

namespace Sys2Proof.Machine

open Sys2Proof

/-! ### The layer stream (R153) -/

/-- Bytes of one unit of 32 elements. -/
def unitBytes (f : Nat) : Nat := b2n (isMx f) + 4 * elemBits f

/-- The weight tensors of a layer, in the order of the manifest. -/
def layerTensors (c : Chart) (m : Manifest) (l : Nat) : List Tensor :=
  (m.tensors.filter fun p => p.1 == l).filterMap fun p => tensorOf c p.2

/-- Bytes of a tensor in its layer stream. -/
def tensorStream (t : Tensor) : Nat := unitsOf t * unitBytes t.format

/-- Length of a layer stream. -/
def streamLen (c : Chart) (m : Manifest) (l : Nat) : Nat := ((layerTensors c m l).map tensorStream).sum

/-- The units of a layer in stream order: stream offset, tensor, unit. -/
def streamUnits : Nat → List Tensor → List (Nat × Tensor × Nat)
  | _, [] => []
  | off, t :: l => ((List.range (unitsOf t)).map fun u => (off + u * unitBytes t.format, t, u)) ++ streamUnits (off + tensorStream t) l

/-- A stream offset lies on a unit boundary. -/
def onUnit : Nat → List Tensor → Bool
  | off, [] => off == 0
  | off, t :: l => if off < tensorStream t then off % unitBytes t.format == 0 else onUnit (off - tensorStream t) l

/-- Shard indices of a layer. -/
def layerShards (m : Manifest) (l : Nat) : List Nat :=
  (List.range m.shards.length).filter fun k => match m.shards[k]? with
    | some e => e.layer == l
    | none => false

/-- The entry of a shard. -/
def entryOf (m : Manifest) (k : Nat) : ShardEntry := m.shards.getD k { layer := 0, streamOffset := 0, length := 0, digest := [] }

/-! ### Manifests (R156, R157) -/

/-- Read a manifest's tables. -/
def parseManifest (b : Bytes) : Manifest :=
  let h := parseManifestHdr b
  let t0 := 128 + tensorListLen h.tensors
  { modelId := h.modelId, baseStep := h.baseStep, layerCount := h.layers, signerFp := h.signerFp, bytes := b.length,
    tensors := (List.range h.tensors).map fun k => (leAt b (128 + 4 * k) 2, leAt b (130 + 4 * k) 2),
    shards := (List.range h.shards).map fun k =>
      let o := t0 + 96 * k
      { layer := leAt b (o + 4) 2, streamOffset := leAt b (o + 8) 8, length := leAt b (o + 16) 4, digest := slice b (o + 32) 64 } }

/-- Layers of the tensor list do not fall. -/
def rising : List Nat → Bool
  | a :: b :: l => decide (a ≤ b) && rising (b :: l)
  | _ => true

/-- Magic, counts, lengths and reserved bytes agree (R157, first condition). -/
def manifestSound (b : Bytes) : Bool :=
  let h := parseManifestHdr b
  let m := parseManifest b
  let t0 := 128 + tensorListLen h.tensors
  h.magic == 0x54464E4D && h.clean && decide (1 ≤ h.shards) && decide (h.shards ≤ 65536) && decide (1 ≤ h.layers) &&
    b.length == t0 + 96 * h.shards + 3309 && zeros b (128 + 4 * h.tensors) (tensorListLen h.tensors - 4 * h.tensors) &&
    rising (m.tensors.map Prod.fst) && m.tensors.all (fun p => decide (p.1 < h.layers)) &&
    (m.shards.map fun e => e.length).sum == h.total &&
    (List.range h.shards).all fun k =>
      let o := t0 + 96 * k
      let e := entryOf m k
      leAt b o 4 == k && zeros b (o + 6) 2 && zeros b (o + 20) 12 && decide (e.layer < h.layers) && decide (1 ≤ e.length) &&
        decide (e.length ≤ frameBytes)

/-- The signer is one of the Chart's keys and its signature holds (R157). -/
def manifestSigned (c : Chart) (b : Bytes) : Bool :=
  c.signers.any fun k => Config.shake256 k 64 == (parseManifestHdr b).signerFp &&
    Config.mldsaVerify k (b.take (b.length - 3309)) (b.drop (b.length - 3309))

/-- Shards of one layer: together, from 0, without gap or overlap, to the end of the stream, on unit boundaries. -/
def shardRun (c : Chart) (m : Manifest) (l : Nat) : Bool :=
  let ts := layerTensors c m l
  let ks := layerShards m l
  let es := ks.map (entryOf m)
  (ks.isEmpty || ks == (List.range ks.length).map fun j => ks.headD 0 + j) &&
    es.foldl (fun (acc : Nat × Bool) e => (e.streamOffset + e.length,
      acc.2 && e.streamOffset == acc.1 && onUnit e.streamOffset ts && onUnit (e.streamOffset + e.length) ts)) (0, true) ==
      (streamLen c m l, true)

/-- Tensors defined, none twice, shards laid over the layer streams (R157, last three conditions). -/
def manifestFits (c : Chart) (m : Manifest) : Bool :=
  m.tensors.all (fun p => (tensorOf c p.2).isSome) && distinct (m.tensors.map Prod.snd) &&
    (List.range m.layerCount).all (shardRun c m)

/-- What a weight command brings: its manifest and key, checked (R157, R158, R308, R310), or its refusal. -/
def acceptManifest (s : State) (i : Slot) (w : WeightBody) : Except Code Fetch :=
  let b := s.hdmBytes i w.addr w.len
  match (if w.keyIndex < 16 then (s.ctxOf i).keys[Fin.ofNat 16 w.keyIndex] else none) with
  | none => .error 0x050C
  | some k =>
    if !(policyMet s i k.chartPolicy) || !(k.modelId == (parseManifestHdr b).modelId) then .error 0x050C
    else if !(manifestSound b) then .error 0x0502
    else match runningChart s i with
      | none => .error 0x0501
      | some c =>
        if !(manifestSigned c b) then .error 0x0501
        else if !(manifestFits c (parseManifest b)) then .error 0x0502
        else .ok {
          manifest := parseManifest b, keyIndex := w.keyIndex, weightKey := k.key, endpoint := w.endpoint, group := w.group,
          pilot := w.pilot, holdMs := w.holdMs, retries := w.retries, holds := [], reqs := [], missing := [],
          streamEnded := false, caughtUp := 0 }

/-! ### The fetches of a context -/

/-- The fetch of the bound or resident model, or of the swap. -/
def fetchOf (c : Ctx) (sw : Bool) : Option Fetch :=
  match c.model with
  | none => none
  | some m => if sw then m.swap.map fun w => w.fetch else some m.fetch

/-- Replace a context's model. -/
def modModel (i : Slot) (f : Model → Model) (s : State) : State :=
  modCtx i (fun c => { c with model := c.model.map f }) s

/-- Replace one fetch. -/
def modFetch (i : Slot) (sw : Bool) (f : Fetch → Fetch) (s : State) : State :=
  modModel i (fun m =>
    if sw then { m with swap := m.swap.map fun w => { w with fetch := f w.fetch } } else { m with fetch := f m.fetch }) s

/-- The layers that a swap still has to replace. -/
def todoOf (m : Model) : List Nat :=
  match m.swap with
  | some w => w.todo
  | none => []

/-- Holds of a shard live with the swap only while its layer waits to be replaced. -/
def holdsSwap (m : Model) (f : Fetch) (sw : Bool) (sh : Nat) : Bool := sw && (todoOf m).contains (entryOf f.manifest sh).layer

/-- The hold of a shard. -/
def holdOf (l : List ShardHold) (sh : Nat) : Option ShardHold := l.find? fun h => h.shard == sh

/-- A shard is valid at a version. -/
def validAt (l : List ShardHold) (v : BitVec 32) (sh : Nat) : Bool := l.any fun h => h.shard == sh && h.version == v && h.valid

/-- Replace or add a hold, in the table it belongs to. -/
def putHold (i : Slot) (sw : Bool) (h : ShardHold) (s : State) : State :=
  modModel i (fun m =>
    let put (f : Fetch) : Fetch := { f with holds := (f.holds.filter fun x => !(x.shard == h.shard)) ++ [h] }
    match m.swap with
    | some w => if holdsSwap m w.fetch sw h.shard then { m with swap := some { w with fetch := put w.fetch } }
      else { m with fetch := put m.fetch }
    | none => { m with fetch := put m.fetch }) s

/-- The shard stands in the table of a resident model that is neither loading it nor swapping it in: it is fetched again there, and
until it is valid the admission barrier stands closed (R169). -/
def isRefetch (m : Model) (f : Fetch) (sw : Bool) (sh : Nat) : Bool := m.resident && !m.loading && !(holdsSwap m f sw sh)

/-- Drop a shard's hold that is not valid (R164); one that is fetched again keeps its frame. -/
def dropHold (i : Slot) (sw : Bool) (sh : Nat) (s : State) : State :=
  match (s.ctxOf i).model, fetchOf (s.ctxOf i) sw with
  | some m, some f =>
    if isRefetch m f sw sh then s
    else modFetch i sw (fun f => { f with holds := f.holds.filter fun h => !(h.shard == sh) || h.valid }) s
  | _, _ => s

/-- Frames of the model store (R152, R172). -/
def frameCap (m : Model) : Nat := m.fetch.manifest.shards.length + largestLayer m.fetch.manifest

/-- Frames in use. -/
def framesUsed (m : Model) : List Nat :=
  (m.fetch.holds ++ (match m.swap with
    | some w => w.fetch.holds
    | none => [])).map fun h => h.frame

/-- The free frames, lowest first. -/
def freeFrames (m : Model) : List Nat := (List.range (frameCap m)).filter fun k => !((framesUsed m).contains k)

/-- Shards that a swap still needs before those of layer `l`: the layers ahead of it take their frames first (R175). -/
def swapNeeds (m : Model) (l : Nat) : Nat :=
  match m.swap with
  | none => 0
  | some w => (((w.todo.takeWhile fun k => !(k == l)).flatMap (layerShards w.fetch.manifest)).filter fun k => (holdOf w.fetch.holds k).isNone).length

/-- The frame for a shard: the lowest free one, which a swap's shard takes only if enough are left for the layers ahead of its own. -/
def frameFor (m : Model) (f : Fetch) (sw : Bool) (sh : Nat) : Option Nat :=
  let free := freeFrames m
  if holdsSwap m f sw sh && decide (free.length ≤ swapNeeds m (entryOf f.manifest sh).layer) then none else free.head?

/-- An event about a shard. -/
def shardEvent (i : Slot) (code : Code) (id : BitVec 128) (sh : Nat) (s : State) : State :=
  report { code := code, slot := BitVec.ofNat 8 i, cue := sh, value := idValue id } s

/-! ### Requests (R161, R162) -/

/-- The plane of shard `k`: k mod 16 or the next usable plane in ascending order. -/
def planeFor (s : State) (k : Nat) : Option PortId :=
  ((List.range 16).map fun j => (Fin.ofNat 16 (k + j) : PortId)).find? fun p => (portsInService s).contains p

/-- Send a message on the plane of shard `k`. -/
def sendOnPlane (k : Nat) (dst : BitVec 32) (m : PlaneMsg) (s : State) : State :=
  match planeFor s k with
  | some p => sendMsg p dst m s
  | none => s

/-- Send a shard's request. -/
def sendReq (f : Fetch) (sh : Nat) (v : BitVec 32) (s : State) : State :=
  sendOnPlane sh f.endpoint (.shardReq f.manifest.modelId sh v f.holdMs) s

/-- Request a shard unless a request for it is out. -/
def request (i : Slot) (sw : Bool) (v : BitVec 32) (s : State) (sh : Nat) : State :=
  match fetchOf (s.ctxOf i) sw with
  | none => s
  | some f =>
    if f.reqs.any fun r => r.shard == sh then s
    else sendReq f sh v (modFetch i sw (fun f => { f with reqs := f.reqs ++ [{ shard := sh, version := v, tries := 0, gap := false }] }) s)

/-- A request is no longer out. -/
def dropReq (i : Slot) (sw : Bool) (sh : Nat) (s : State) : State :=
  modFetch i sw (fun f => { f with reqs := f.reqs.filter fun r => !(r.shard == sh) }) s

/-- Update a request. -/
def modReq (i : Slot) (sw : Bool) (sh : Nat) (g : ShardReq → ShardReq) (s : State) : State :=
  modFetch i sw (fun f => { f with reqs := f.reqs.map fun r => if r.shard == sh then g r else r }) s

/-- The running command of an opcode. -/
def runningOp (c : Ctx) (op : Nat) : Option Cmd := c.running.find? fun x => x.opcode == op

/-- The load or swap ends: 0x050A once where shards came by catch-up, then its record. The count stands in the event's cue field beside
the model_id (DESIGN CHOICE, log entry 59). -/
def endFetch (i : Slot) (op : Nat) (code : Code) (s : State) : State :=
  let n := cmdDetail (s.ctxOf i) op
  let id := match fetchOf (s.ctxOf i) (op == 0x22) with
    | some f => idValue f.manifest.modelId
    | none => 0
  let s := if 0 < n then report { code := 0x050A, slot := BitVec.ofNat 8 i, cue := n, value := id } s else s
  match runningOp (s.ctxOf i) op with
  | some cmd => completeCmd i cmd code 0xFFFF n s
  | none => s

/-- A RECV_LAYER in flight, or the replay that is due, waits for a layer's shards. -/
def passNeeds (s : State) (i : Slot) (m : Model) (l : Nat) : Bool :=
  match passOf s with
  | none => false
  | some p => p.slot == i && (p.replayDue || s.tiles.any fun y => y.2.movers.any fun f => f.cue.kind == 8 &&
      (if f.cue.field 127 126 = 2 then m.fetch.manifest.tensors.contains (l, f.cue.aTensor) else f.cue.field 125 110 == l))

/-- A shard's retries are used up: the load or swap, the pass of a streamed model, or the pass that waits for a resident model's shard
ends with 0x0506 (R162, R176). -/
def unavailable (i : Slot) (sw : Bool) (sh : Nat) (s : State) : State :=
  match (s.ctxOf i).model, fetchOf (s.ctxOf i) sw with
  | some m, some f =>
    let s := dropReq i sw sh (shardEvent i 0x0506 f.manifest.modelId sh s)
    if isRefetch m f sw sh then (if passNeeds s i m (entryOf f.manifest sh).layer then endPass 0x0506 s else s)
    else if sw || m.loading then dropLoads i (endFetch i (if sw then 0x22 else 0x21) 0x0506 s)
    else endPass 0x0506 s
  | _, _ => s

/-- Ask again: after the 100 µs gap, or at once after an unanswered wait (R162). -/
def askAgain (i : Slot) (sw gap : Bool) (sh : Nat) (s : State) : State :=
  match fetchOf (s.ctxOf i) sw with
  | none => s
  | some f => match f.reqs.find? fun r => r.shard == sh with
    | none => s
    | some r =>
      if f.retries ≤ r.tries then unavailable i sw sh s
      else if gap then modReq i sw sh (fun r => { r with gap := true }) s
      else sendReq f sh r.version (modReq i sw sh (fun r => { r with gap := false, tries := r.tries + 1 }) s)

/-- The requests that are out for a shard and satisfy a test: slot, and whether the swap's. -/
def reqSites (s : State) (p : Fetch → ShardReq → Bool) (sh : Nat) : List (Slot × Bool) :=
  allSlots.flatMap fun i => [false, true].filterMap fun sw =>
    match fetchOf (s.ctxOf i) sw with
    | some f => if f.reqs.any fun r => r.shard == sh && p f r then some (i, sw) else none
    | none => none

def execShardReqTimeout (sh : Nat) (s : State) : Host.Outcome State Fault Refusal :=
  .next (match reqSites s (fun _ r => !r.gap) sh with
    | x :: _ => askAgain x.1 x.2 false sh s
    | [] => s)

/-- 100 µs after a nack or a discarded record the request goes again. -/
def execShardRetryGap (sh : Nat) (s : State) : Host.Outcome State Fault Refusal :=
  .next (match reqSites s (fun _ r => r.gap) sh with
    | x :: _ => askAgain x.1 x.2 false sh s
    | [] => s)

/-- A service message that breaks its layout is discarded and counted under 0x0505 (R160): the event has the model_id as the header
has it, and the count in its cue field (DESIGN CHOICE, log entry 59). -/
def discardSvc (h : SvcHdr) (s : State) : State :=
  report { code := 0x0505, cue := s.badShards + 1, value := idValue h.modelId } { s with badShards := s.badShards + 1 }

/-- The port takes messages: UP (R240: in CURTAIN they wait in the far end). -/
def portTakes (s : State) (p : PortId) : Bool := (portsInService s).contains p

def execShardNack (p : PortId) (msg : ShardMsg) (s : State) : Host.Outcome State Fault Refusal :=
  .next (if !(portTakes s p) then s
    else
      let h := parseSvc msg.header
      if !(h.kind == 0x62) || !(svcValid h msg.records.length) then discardSvc h s
      else match reqSites s (fun f r => !r.gap && f.manifest.modelId == h.modelId && r.version == h.version) h.shard with
        | x :: _ => askAgain x.1 x.2 true h.shard s
        | [] => s)

/-! ### Arrival checks (R163 to R165) -/

/-- The nonce of an engine's record but for its ordinal (R155). -/
def engineNonce (sh v writer : Nat) : Nat := 0x80 * 2 ^ 88 + sh * 2 ^ 72 + v * 2 ^ 40 + writer * 2 ^ 29

/-- A full record at base_step as the manifest lists it (R155, R165). -/
def fullRecord (e : ShardEntry) (h : ShardHdr) : Bool :=
  !h.patch && h.writer == 0xFFFF && !(bitOf h.nonce 95) && h.length == e.length && h.streamOffset == e.streamOffset &&
    h.digest == e.digest

/-- A patch of a later version, in a part of the shard that no accepted patch covers. -/
def patchRecord (e : ShardEntry) (pieces : List Piece) (h : ShardHdr) : Bool :=
  h.patch && decide (h.writer < 2048) && h.nonce / 2 ^ 29 == engineNonce h.shard h.version.toNat h.writer / 2 ^ 29 &&
    decide (1 ≤ h.length) && decide (e.streamOffset ≤ h.streamOffset) &&
    decide (h.streamOffset + h.length ≤ e.streamOffset + e.length) &&
    !(pieces.any fun p => decide (p.off < h.streamOffset - e.streamOffset + h.length) && decide (h.streamOffset - e.streamOffset < p.off + p.len))

/-- Steps 2 to 4 of R163 on one record: its place and plaintext, or the failure of R164. -/
def checkRecord (f : Fetch) (sh : Nat) (v : BitVec 32) (pieces : List Piece) (r : ShardRecord) : Except Code (Piece × Bytes) :=
  let h := parseShardHdr r.header
  let e := entryOf f.manifest sh
  if !(h.magic == 0x44524853) || !h.clean || !(h.modelId == f.manifest.modelId) || !(h.shard == sh) || !(h.layer == e.layer) ||
      !(h.version == v) || !(r.cipher.length == h.length) || !(r.tag.length == 16) ||
      !(if v = f.manifest.baseStep then fullRecord e h else patchRecord e pieces h) then .error 0x0505
  else match Config.gcmOpen f.weightKey (toLe 12 h.nonce) r.header r.cipher r.tag with
    | none => .error 0x0504
    | some pt =>
      if !(Config.shake256 pt 64 == h.digest) then .error 0x0503
      else .ok (⟨h.streamOffset - e.streamOffset, h.length, h.writer, h.nonce % 2 ^ 29⟩, pt)

/-- Every record of an answer. -/
def checkRecords (f : Fetch) (sh : Nat) (v : BitVec 32) : List Piece → List ShardRecord → Except Code (List (Piece × Bytes))
  | _, [] => .ok []
  | ps, r :: l =>
    match checkRecord f sh v ps r with
    | .error c => .error c
    | .ok x => match checkRecords f sh v (ps ++ [x.1]) l with
      | .error c => .error c
      | .ok xs => .ok (x :: xs)

/-- The patches of one writer are numbered in stream order from 0 (R155). -/
def ordinalsOk (v base : BitVec 32) (ps : List Piece) : Bool :=
  v == base || ps.all fun p => p.ordinal == (ps.filter fun q => q.writer == p.writer && decide (q.off < p.off)).length

/-- The answer makes up the whole shard (R165). -/
def wholeShard (f : Fetch) (sh : Nat) (v : BitVec 32) (ps : List Piece) : Bool :=
  (ps.map fun p => p.len).sum == (entryOf f.manifest sh).length && ordinalsOk v f.manifest.baseStep ps

/-- The pieces' plaintexts in their frame. -/
def writePieces (i : Slot) (frame : Nat) (l : List (Piece × Bytes)) (s : State) : State :=
  l.foldl (fun s x => storeBytes (frameKey i frame x.1.off) x.2 s) s

/-- Put the bytes of one unit into a tensor: scale byte, then elements (R58, R153). -/
def putUnit (y : Site) (here : Placement → Bool) (t : Tensor) (u : Nat) (b : Bytes) (m : List Host.Cell) : List Host.Cell :=
  let f := t.format
  let es := unitElems t u
  let v := leNat (if isMx f then b.drop 1 else b)
  let n := elemBits f
  let held (e : Nat) : Bool := match elemPlace y.chart y.inst t n e with
    | some (p, _) => here p
    | none => false
  let m := (List.range es.length).foldl (fun m k => writeElem y here t (es.getD k 0) (v / 2 ^ (n * k) % 2 ^ n) m) m
  if !(es.any held) then m
  else if isMx f then writeSide y t.scaleId u (byteAt b 0).toNat m
  else refreshSummary y t u m

/-- The bytes of one unit as a tensor holds it. -/
def getUnit (y : Site) (m : List Host.Cell) (t : Tensor) (u : Nat) : Bytes :=
  let f := t.format
  let n := elemBits f
  let es := unitElems t u
  let v := (List.range es.length).foldl (fun acc k => acc + readElem y m t (es.getD k 0) * 2 ^ (n * k)) 0
  (if isMx f then [BitVec.ofNat 8 (readSide y m t.scaleId u)] else []) ++ toLe (4 * n) v

/-- An entry in a stack area. -/
def inStack (p : Placement) : Bool := p.kind == 3

/-- Where the installed Chart of a slot runs; a gradient-format tensor has the level of its last writer. -/
def siteOf (s : State) (i : Slot) : Option Site :=
  match s.installed, runningChart s i with
  | some x, some c => some { slot := i, chart := c, inst := x, level := fun t => (find? (s.ctxOf i).gradAt t).getD 0 }
  | _, _ => none

/-- Units of a layer whose bytes lie in a shard, with their offset in it. -/
def shardUnits (c : Chart) (m : Manifest) (sh : Nat) : List (Nat × Tensor × Nat) :=
  let e := entryOf m sh
  ((streamUnits 0 (layerTensors c m e.layer)).filter fun x => decide (e.streamOffset ≤ x.1) && decide (x.1 < e.streamOffset + e.length)).map
    fun x => (x.1 - e.streamOffset, x.2)

/-- Copy a valid shard's units into the tensors' entries that `here` names. -/
def unpackShard (i : Slot) (m : Manifest) (here : Placement → Bool) (h : ShardHold) (s : State) : State :=
  match siteOf s i with
  | none => s
  | some y =>
    { s with mem := (shardUnits y.chart m h.shard).foldl (fun mem x =>
        putUnit y here x.2.1 x.2.2 (readBytes mem (frameKey i h.frame x.1) (unitBytes x.2.1.format)) mem) s.mem }

/-- The digest of a shard's plaintext in its frame. -/
def frameDigest (s : State) (i : Slot) (m : Manifest) (h : ShardHold) : Bytes :=
  Config.shake256 (readBytes s.mem (frameKey i h.frame 0) (entryOf m h.shard).length) 64

/-- The bytes of one unit of a shard where a streamed model keeps them: in its tensor's staging entries, or else in the shard's frame. -/
def storedUnit (s : State) (y : Site) (h : ShardHold) (x : Nat × Tensor × Nat) : Bytes :=
  let staged (e : Nat) : Bool := match elemPlace y.chart y.inst x.2.1 (elemBits x.2.1.format) e with
    | some (p, _) => inStack p
    | none => false
  if (unitElems x.2.1 x.2.2).any staged then getUnit y s.mem x.2.1 x.2.2
  else readBytes s.mem (frameKey y.slot h.frame x.1) (unitBytes x.2.1.format)

/-- The digest of a shard as the stacks hold it now: in its frame, or for a streamed model in its staging slot (R168). -/
def storedDigest (s : State) (i : Slot) (m : Model) (f : Fetch) (h : ShardHold) : Bytes :=
  match m.resident, siteOf s i with
  | false, some y => Config.shake256 ((shardUnits y.chart f.manifest h.shard).flatMap (storedUnit s y h)) 64
  | _, _ => frameDigest s i f.manifest h

/-- Every shard of a manifest is valid. -/
def allValid (f : Fetch) : Bool :=
  (List.range f.manifest.shards.length).all fun k => validAt f.holds f.manifest.baseStep k

/-- LOAD_MODEL completes once every shard is valid (R171). -/
def finishLoad (i : Slot) (s : State) : State :=
  match (s.ctxOf i).model with
  | some m =>
    if m.loading && allValid m.fetch then modModel i (fun m => { m with loading := false }) (endFetch i 0x21 0 s) else s
  | none => s

/-- The digest of a plaintext laid into a frame in pieces. -/
def piecesDigest (i : Slot) (m : Manifest) (sh frame : Nat) (s : State) : Bytes :=
  Config.shake256 (readBytes s.mem (frameKey i frame 0) (entryOf m sh).length) 64

/-- A shard becomes valid: its plaintext lies in its frame, its digest is recorded, staging entries are filled (R151, R163). A swap's
shard waits for its layer's replacement beside the table (R175). -/
def markValid (i : Slot) (sw : Bool) (f : Fetch) (sh : Nat) (v : BitVec 32) (frame : Nat) (l : List (Piece × Bytes)) (s : State) : State :=
  let s := writePieces i frame l s
  let d := piecesDigest i f.manifest sh frame s
  let h : ShardHold := { shard := sh, version := v, frame := frame, pieces := l.map Prod.fst, valid := true, digest := d }
  let beside := match (s.ctxOf i).model with
    | some m => holdsSwap m f sw sh
    | none => false
  let s := putHold i sw h s
  let s := modModel i (fun m => { m with digests := if beside then m.digests else setPair m.digests sh d, checked := setPair m.checked sh s.ticks }) s
  let s := modFetch i sw (fun f => { f with
    missing := f.missing.erase sh, reqs := f.reqs.filter (fun r => !(r.shard == sh)),
    caughtUp := f.caughtUp + b2n (f.streamEnded && f.reqs.any fun r => r.shard == sh) }) s
  if beside then s else unpackShard i f.manifest inStack h s

/-- A record fails (R164): the shard's records at that version go, and it is asked for again, or is missing until the
pilot's stream ends (R171). -/
def failShard (i : Slot) (sw : Bool) (sh : Nat) (code : Code) (s : State) : State :=
  match fetchOf (s.ctxOf i) sw with
  | none => s
  | some f =>
    let s := dropHold i sw sh (shardEvent i code f.manifest.modelId sh s)
    if f.reqs.any fun r => r.shard == sh then askAgain i sw true sh s
    else modFetch i sw (fun f => { f with missing := insertNew f.missing sh }) s

/-- The pilot forwards what it accepts to its group on the same plane (R170). -/
def forwardPilot (i : Slot) (sw : Bool) (p : PortId) (f : Fetch) (rs : List ShardRecord) (s : State) : State :=
  match (s.ctxOf i).model with
  | some m =>
    if f.pilot && !f.streamEnded && (m.loading || sw) then rs.foldl (fun s r => sendMsg p f.group (.pilot r) s) s else s
  | none => s

/-- Take an answer for a shard. -/
def takeAnswer (i : Slot) (sw : Bool) (p : PortId) (sh : Nat) (v : BitVec 32) (rs : List ShardRecord) (s : State) : State :=
  match (s.ctxOf i).model, fetchOf (s.ctxOf i) sw with
  | some m, some f =>
    match checkRecords f sh v [] rs with
    | .error c => failShard i sw sh c s
    | .ok l =>
      if !(wholeShard f sh v (l.map Prod.fst)) then failShard i sw sh 0x0505 s
      else
        let s := forwardPilot i sw p f rs s
        match (match holdOf (if holdsSwap m f sw sh then f.holds else m.fetch.holds) sh with
          | some h => some h.frame
          | none => frameFor m f sw sh) with
        | none => dropReq i sw sh (modFetch i sw (fun f => { f with missing := insertNew f.missing sh }) s)
        | some k => finishLoad i (markValid i sw f sh v k l s)
  | _, _ => s

/-- The fetches that listen to a pilot's stream. -/
def streamSites (s : State) (h : SvcHdr) : List (Slot × Bool) :=
  allSlots.flatMap fun i => [false, true].filterMap fun sw =>
    match (s.ctxOf i).model, fetchOf (s.ctxOf i) sw with
    | some m, some f =>
      if !f.pilot && !f.streamEnded && f.manifest.modelId == h.modelId && f.manifest.baseStep == h.version &&
          decide (h.shard < f.manifest.shards.length) &&
          (if sw then (match m.swap with
            | some w => !w.failed && w.todo.contains (entryOf f.manifest h.shard).layer
            | none => false) else m.loading) then some (i, sw) else none
    | _, _ => none

/-- A shard valid already at the version: the answer is discarded without an event (R164). -/
def alreadyValid (s : State) (h : SvcHdr) : Bool :=
  allSlots.any fun i => [false, true].any fun sw =>
    match fetchOf (s.ctxOf i) sw with
    | some f => f.manifest.modelId == h.modelId && validAt f.holds h.version h.shard
    | none => false

/-- A fetch holds the shard valid at the answer's version. -/
def holdsValid (s : State) (h : SvcHdr) (x : Slot × Bool) : Bool :=
  match fetchOf (s.ctxOf x.1) x.2 with
  | some f => validAt f.holds h.version h.shard
  | none => false

/-- SHARD_DATA with a sound header: it answers a request, or it comes to every fetch that listens and does not hold the shard. -/
def takeData (p : PortId) (h : SvcHdr) (rs : List ShardRecord) (s : State) : State :=
  match reqSites s (fun f r => f.manifest.modelId == h.modelId && r.version == h.version) h.shard,
      (streamSites s h).filter fun x => !(holdsValid s h x) with
  | x :: _, _ => takeAnswer x.1 x.2 p h.shard h.version rs s
  | [], x :: l => (x :: l).foldl (fun s x => takeAnswer x.1 x.2 p h.shard h.version rs s) s
  | [], [] =>
    if alreadyValid s h then s
    else report { code := 0x0505, cue := h.shard, value := idValue h.modelId } s

def execShardData (p : PortId) (msg : ShardMsg) (s : State) : Host.Outcome State Fault Refusal :=
  .next (if !(portTakes s p) then s
    else
      let h := parseSvc msg.header
      if !(h.kind == 0x61) || !(svcValid h msg.records.length) then discardSvc h s else takeData p h msg.records s)

/-! ### Streaming a layer (R150, R151) -/

/-- Stack entries of a layer's tensors. -/
def stackPlaces (c : Chart) (x : Installed) (m : Manifest) (l : Nat) : List Placement :=
  ((layerTensors c m l).flatMap fun t => placesOf c x t.id).filter inStack

/-- Two layers share a staging slot. -/
def sharesSlot (c : Chart) (x : Installed) (m : Manifest) (a b : Nat) : Bool :=
  (stackPlaces c x m a).any fun p => (stackPlaces c x m b).any fun q =>
    decide (p.address < q.address + 64 * q.lines) && decide (q.address < p.address + 64 * p.lines)

/-- A layer's shards are all valid at a version. -/
def layerValid (f : Fetch) (v : BitVec 32) (l : Nat) : Bool := (layerShards f.manifest l).all fun k => validAt f.holds v k

/-- Version that a pass of this model reads: the step for a streamed model (R151), base_step for a resident one. -/
def readVersion (m : Model) (sh : Nat) (step : BitVec 32) : BitVec 32 :=
  if m.resident then (match holdOf m.fetch.holds sh with
    | some h => h.version
    | none => m.fetch.manifest.baseStep) else step

/-- The shards of a layer that a copy may read are all valid (R163). -/
def layerReady (m : Model) (step : BitVec 32) (l : Nat) : Bool :=
  (layerShards m.fetch.manifest l).all fun k => validAt m.fetch.holds (readVersion m k step) k

/-- Start the streaming of a layer: other layers' shards in its staging slot go, and its own that are not valid at the
step's version are requested. -/
def streamLayer (i : Slot) (c : Chart) (x : Installed) (l : Nat) (step : BitVec 32) (s : State) : State :=
  match (s.ctxOf i).model with
  | none => s
  | some m =>
    if m.resident then s
    else
      let f := m.fetch
      let stale (h : ShardHold) : Bool :=
        let k := (entryOf f.manifest h.shard).layer
        if k = l then !(h.version == step) else sharesSlot c x f.manifest k l
      let s := modFetch i false (fun f => { f with holds := f.holds.filter fun h => !(stale h) }) s
      ((layerShards f.manifest l).filter fun k => !(validAt f.holds step k)).foldl (request i false step) s

/-- The fetch that a shard of the table belongs to: the swap's once its layer has been replaced. -/
def ownerFetch (m : Model) (sh : Nat) : Bool :=
  match m.swap with
  | some w => !(w.todo.contains (entryOf w.fetch.manifest sh).layer)
  | none => false

/-- Fetch every shard of a layer that is not valid, for a replay (R387). -/
def refetchLayer (i : Slot) (l : Nat) (step : BitVec 32) (s : State) : State :=
  match (s.ctxOf i).model with
  | none => s
  | some m => ((layerShards m.fetch.manifest l).filter fun k => !(validAt m.fetch.holds (readVersion m k step) k)).foldl
      (fun s k => request i (ownerFetch m k) (readVersion m k step) s k) s

/-! ### Commands (R158, R172 to R174) -/

/-- A pass, load or swap of the context runs. -/
def modelBusy (s : State) (i : Slot) : Bool :=
  (match passOf s with
    | some p => p.slot == i
    | none => false) || (s.ctxOf i).running.any fun c => c.opcode == 0x21 || c.opcode == 0x22

/-- A new model takes the place of the old one. -/
def setModel (i : Slot) (m : Option Model) (s : State) : State :=
  modCtx i (fun c => { c with model := m, barrier := false }) s

/-- BIND_MANIFEST (R150, R157). -/
def bindStart (i : Slot) (q : QId) (r : Ready) (s : State) : State :=
  match acceptManifest s i (parseWeight r.entry.body) with
  | .error c => refuseStart i q r c 0 s
  | .ok f =>
    if modelBusy s i then refuseStart i q r 0x050D 0 s
    else atOnce i q r 0
      (setModel i (some { resident := false, fetch := f, loading := false, swap := none, digests := [], checked := [], patches := [] }) s)

def execBindManifest (i : Slot) (q : QId) (s : State) : Host.Outcome State Fault Refusal :=
  .next (startRow 0x20 bindStart i q s)

/-- The fit check (R172). -/
def modelFits (s : State) (i : Slot) (m : Manifest) : Bool :=
  match chartOf s i with
  | none => false
  | some c => decide ((m.shards.length + largestLayer m) * frameBytes + c.imageBytes + stackAreaBytes c + wholeFrames m.bytes ≤
      reservation (s.ctxOf i))

/-- The running form of a weight command. -/
def weightCmd (q : QId) (r : Ready) : Cmd := { cmdOf q r.idx r.entry with key := (parseWeight r.entry.body).keyIndex }

/-- LOAD_MODEL (R170, R172): the pilot requests every shard in manifest order. -/
def loadStart (i : Slot) (q : QId) (r : Ready) (s : State) : State :=
  match acceptManifest s i (parseWeight r.entry.body) with
  | .error c => refuseStart i q r c 0 s
  | .ok f =>
    if modelBusy s i then refuseStart i q r 0x050D 0 s
    else if !(modelFits s i f.manifest) then refuseStart i q r 0x0507 0 s
    else
      let s := setModel i (some { resident := true, fetch := f, loading := true, swap := none, digests := [], checked := [], patches := [] })
        (addRunning i (weightCmd q r) s)
      if f.pilot then (List.range f.manifest.shards.length).foldl (request i false f.manifest.baseStep) s else s

def execLoadModel (i : Slot) (q : QId) (s : State) : Host.Outcome State Fault Refusal :=
  .next (startRow 0x21 loadStart i q s)

/-- The shape that a swap keeps (R173): all of a manifest but model_id, base_step, digests and the signature. -/
def sameShape (a b : Manifest) : Bool :=
  a.layerCount == b.layerCount && a.signerFp == b.signerFp && a.tensors == b.tensors && a.shards.length == b.shards.length &&
    (List.range a.shards.length).all fun k =>
      let x := entryOf a k
      let y := entryOf b k
      x.layer == y.layer && x.streamOffset == y.streamOffset && x.length == y.length

/-- The pilot of a swap, or a member in catch-up, asks for the next layer's shards (log entry 51). -/
def paceSwap (i : Slot) (s : State) : State :=
  match (s.ctxOf i).model with
  | none => s
  | some m => match m.swap with
    | none => s
    | some w =>
      match w.todo with
      | [] => s
      | l :: _ =>
        if w.failed || !(w.fetch.pilot || w.fetch.streamEnded) then s
        else ((layerShards w.fetch.manifest l).filter fun k => !(validAt w.fetch.holds w.fetch.manifest.baseStep k)).foldl
          (request i true w.fetch.manifest.baseStep) s

/-- Every layer of a manifest. -/
def allLayers (m : Manifest) : List Nat := List.range m.layerCount

/-- The swap that a SWAP_MODEL starts or takes up again (R173, R176), and the fetch of the model it replaces. -/
def swapOf (m : Model) (f : Fetch) : Fetch × Swap :=
  match m.swap with
  | none => (m.fetch, { fetch := f, todo := allLayers f.manifest, failed := false })
  | some w =>
    if w.fetch.manifest = f.manifest then (m.fetch, { fetch := { f with holds := w.fetch.holds }, todo := w.todo, failed := false })
    else if m.fetch.manifest = f.manifest then
      ({ w.fetch with holds := m.fetch.holds },
        { fetch := f, todo := (allLayers f.manifest).filter fun l => !(w.todo.contains l), failed := false })
    else (m.fetch, { fetch := f, todo := allLayers f.manifest, failed := false })

/-- The last layer has been replaced: the new model is the resident one, 0x050B, the barrier opens (R175). -/
def finishSwap (i : Slot) (m : Model) (w : Swap) (s : State) : State :=
  let s := endFetch i 0x22 0 (report { code := 0x050B, slot := BitVec.ofNat 8 i, value := idValue w.fetch.manifest.modelId } s)
  modCtx i (fun c => { c with
    barrier := false,
    model := some { m with fetch := { w.fetch with holds := m.fetch.holds, reqs := [], missing := [] }, swap := none } }) s

/-- SWAP_MODEL (R173, R174): the barrier closes. -/
def swapStart (i : Slot) (q : QId) (r : Ready) (s : State) : State :=
  match acceptManifest s i (parseWeight r.entry.body) with
  | .error c => refuseStart i q r c 0 s
  | .ok f =>
    match (s.ctxOf i).model with
    | none => refuseStart i q r 0x0508 0 s
    | some m =>
      if (s.ctxOf i).running.any fun c => c.opcode == 0x21 || c.opcode == 0x22 then refuseStart i q r 0x050D 0 s
      else if !m.resident || !(sameShape m.fetch.manifest f.manifest) then refuseStart i q r 0x0508 0 s
      else
        let x := swapOf m f
        let m' := { m with fetch := x.1, swap := some x.2 }
        let s := modCtx i (fun c => { c with
          model := some m', barrierOrder := if c.barrier then c.barrierOrder else r.order, barrier := true }) (addRunning i (weightCmd q r) s)
        if x.2.todo.isEmpty then finishSwap i m' x.2 s else paceSwap i s

def execSwapModel (i : Slot) (q : QId) (s : State) : Host.Outcome State Fault Refusal :=
  .next (startRow 0x22 swapStart i q s)

/-- RELEASE_MODEL (R158). -/
def releaseStart (i : Slot) (q : QId) (r : Ready) (s : State) : State :=
  if modelBusy s i then refuseStart i q r 0x050D 0 s else atOnce i q r 0 (setModel i none s)

def execReleaseModel (i : Slot) (q : QId) (s : State) : Host.Outcome State Fault Refusal :=
  .next (startRow 0x23 releaseStart i q s)

/-! ### The end of the pilot's stream (R171) -/

/-- A load in catch-up requests every shard it does not hold. -/
def catchUpLoad (i : Slot) (f : Fetch) (s : State) : State :=
  ((List.range f.manifest.shards.length).filter fun k => !(validAt f.holds f.manifest.baseStep k)).foldl
    (request i false f.manifest.baseStep) (modFetch i false (fun f => { f with streamEnded := true, missing := [] }) s)

/-- One context's load and swap in catch-up. -/
def endStream (s : State) (i : Slot) : State :=
  match (s.ctxOf i).model with
  | none => s
  | some m =>
    if m.loading then (if m.fetch.streamEnded then s else catchUpLoad i m.fetch s)
    else match m.swap with
      | some w => if w.failed || w.fetch.streamEnded then s else paceSwap i (modFetch i true (fun f => { f with streamEnded := true, missing := [] }) s)
      | none => s

def execPilotStreamEnd (s : State) : Host.Outcome State Fault Refusal :=
  .next (allSlots.foldl endStream s)

/-! ### Replacing a layer (R175) -/

/-- The cues that a tile of the pass has not completed. -/
def openCues (c : Chart) (x : Installed) (t : Nat) (y : Tile) : List Cue :=
  let rest := if y.inPass then ((cuesOf c x t).drop y.pc).takeWhile fun q => !(barrierType q == 2) else []
  let run := (y.array.toList ++ y.vector.toList ++ y.movers ++ y.plain).map fun f => f.cue
  rest ++ run ++ y.deferred.map Prod.snd ++ (y.entryRun.map Prod.snd).toList

/-- The pass in progress has closed a layer (R137): no tile has a cue of it left. -/
def closedLayer (s : State) (l : Nat) : Bool :=
  match s.installed, installedChart s with
  | some x, some c => x.pass.isNone || s.tiles.all fun p => (openCues c x p.1 p.2).all fun q => !(q.layer == l)
  | _, _ => true

/-- A pass command admitted before the barrier still waits. -/
def admittedWaits (s : State) (i : Slot) : Bool :=
  allQueues.any fun q => queueWatched s i q && (s.queueOf i q).valid.any fun v =>
    decide (v.2 < (s.ctxOf i).barrierOrder) && (entryAt s i q v.1).opcode == 0x10

/-- No deck holds the old weights of a replaced layer for its readers any more. -/
def unpinLayer (l : Nat) (s : State) : State :=
  mapTiles (fun _ y => { y with deckHolds := y.deckHolds.filter fun h => !(h.2.1 == l) }) s

/-- Replace layer `l`: its entries of the shard table change in one step, the old frames are free, and the stack entries of its tensors
take the new weights. -/
def replaceLayer (i : Slot) (l : Nat) (m : Model) (w : Swap) (s : State) : State :=
  let ofL (h : ShardHold) : Bool := (entryOf w.fetch.manifest h.shard).layer == l
  let new := w.fetch.holds.filter ofL
  let m' := { m with
    fetch := { m.fetch with holds := (m.fetch.holds.filter fun h => !(ofL h)) ++ new },
    digests := new.foldl (fun d h => setPair d h.shard h.digest) m.digests }
  let w' := { w with todo := w.todo.drop 1, fetch := { w.fetch with holds := w.fetch.holds.filter fun h => !(ofL h) } }
  let s := new.foldl (fun s h => unpackShard i w.fetch.manifest inStack h s) (unpinLayer l (modModel i (fun _ => { m' with swap := some w' }) s))
  if w'.todo.isEmpty then finishSwap i m' w' s else paceSwap i s

/-- Replace the next layer where R175 allows it. -/
def tryReplace (s : State) (i : Slot) : State :=
  match (s.ctxOf i).model with
  | none => s
  | some m => match m.swap with
    | none => s
    | some w => match w.todo with
      | [] => s
      | l :: _ =>
        if !w.failed && layerValid w.fetch w.fetch.manifest.baseStep l && !(admittedWaits s i) &&
            (!(isHolding s i) || closedLayer s l) then replaceLayer i l m w s
        else s

def execSwapLayerReplace (s : State) : Host.Outcome State Fault Refusal :=
  .next (allSlots.foldl tryReplace s)

/-! ### Write-back (R166) -/

/-- A patch's record under R154 and R155. -/
def patchFor (f : Fetch) (member sh off : Nat) (v : BitVec 32) (ordinal : Nat) (pt : Bytes) : ShardRecord :=
  let h := shardHdrBytes {
    magic := 0x44524853, modelId := f.manifest.modelId, shard := sh, layer := (entryOf f.manifest sh).layer, patch := true,
    writer := member, version := v, length := pt.length, streamOffset := off,
    nonce := engineNonce sh v.toNat member + ordinal % 2 ^ 29, digest := Config.shake256 pt 64, clean := true }
  let x := Config.gcmSeal f.weightKey (toLe 12 (engineNonce sh v.toNat member + ordinal % 2 ^ 29)) h pt
  { header := h, cipher := x.1, tag := x.2 }

/-- Send a patch and keep it until its SHARD_ACK. -/
def sendPatch (i : Slot) (sh off : Nat) (v : BitVec 32) (ordinal : Nat) (pt : Bytes) (s : State) : State :=
  match (s.ctxOf i).model with
  | none => s
  | some m =>
    let r := patchFor m.fetch (ownMember s) sh off v ordinal pt
    sendOnPlane sh m.fetch.endpoint (.shardPut r)
      (modModel i (fun m => { m with patches := m.patches ++ [{ shard := sh, streamOffset := off, version := v, record := r, tries := 0 }] }) s)

/-- A SHARD_ACK releases the patch it names. -/
def ackPatch (h : SvcHdr) (s : State) (i : Slot) : State :=
  modModel i (fun m =>
    if m.fetch.manifest.modelId == h.modelId && h.writer == ownMember s then
      { m with patches := m.patches.filter fun p => !(p.shard == h.shard && p.streamOffset == h.streamOffset && p.version == h.version) }
    else m) s

def execShardAck (p : PortId) (msg : ShardMsg) (s : State) : Host.Outcome State Fault Refusal :=
  .next (if !(portTakes s p) then s
    else
      let h := parseSvc msg.header
      if !(h.kind == 0x64) || !(svcValid h msg.records.length) then discardSvc h s else allSlots.foldl (ackPatch h) s)

/-- End the step with a code: its pass and its reduction on this member. -/
def endStep (i : Slot) (code : Code) (s : State) : State :=
  endReduction i code (endPass code s)

/-- 1 ms without an ack: the patch goes again, or the step ends with 0x050D. -/
def resendPatch (i : Slot) (m : Model) (p : PatchHold) (s : State) : State :=
  if m.fetch.retries ≤ p.tries then endStep i 0x050D (shardEvent i 0x050D m.fetch.manifest.modelId p.shard s)
  else sendOnPlane p.shard m.fetch.endpoint (.shardPut p.record)
    (modModel i (fun m => { m with patches := m.patches.map fun x => if x = p then { x with tries := x.tries + 1 } else x }) s)

/-- The reduction whose results a patch carries is aborted: its owner sends no further patches (R219, R232). -/
def patchStopped (s : State) (p : PatchHold) : Bool := s.coll.reds.any fun r => r.step + 1 == p.version && !(r.aborts.isEmpty)

def execPatchAckTimeout (sh off : Nat) (s : State) : Host.Outcome State Fault Refusal :=
  .next (match allSlots.findSome? fun i => match (s.ctxOf i).model with
      | some m => (m.patches.find? fun p => p.shard == sh && p.streamOffset == off).map fun p => (i, m, p)
      | none => none with
    | some x => if patchStopped s x.2.2 then s else resendPatch x.1 x.2.1 x.2.2 s
    | none => s)

end Sys2Proof.Machine
end

