-- ==== Sys2Proof/Machine/Faults.lean ====
section
/-! DEFINITION. Faults, self-tests and background work (chapter 15, R32, R38, R40, R167 to R169): targeted self-tests,
memory errors, re-checks, heartbeats, mesh replay. -/

namespace Sys2Proof.Machine

open Sys2Proof

/-! ### Targeted self-tests (R380 to R384) -/

/-- Location of a part. -/
def partLoc : Part → BitVec 32
  | .tileRow t _ _ | .deckRow t _ _ | .tile t | .cellColumn t _ | .tileSensor t => locTile t
  | .link l => locTile l.router
  | .stackLine k _ => locPort k
  | .hotSpot d _ => locDie d

/-- 100 ms on the house clock (R330, R380). -/
def lateTicks : Nat := 2500000

/-- The test of the first waiting part starts; a start later than 100 ms after its detection is reported (R384). -/
def startTest (p : Part) (code : BitVec 16) (since : Nat) (s : State) : State :=
  let s' := { s with selfTest := { s.selfTest with waiting := s.selfTest.waiting.drop 1, running := s.selfTest.running ++ [(p, code)] } }
  if since + lateTicks < s.ticks then report { code := 0x0C06, loc := partLoc p } s' else s'

def execSelfTestStart (p : Part) (s : State) : Host.Outcome State Fault Refusal :=
  .next (match s.selfTest.waiting with
    | (q, code, since) :: _ =>
      if decide (q = p) && decide (s.selfTest.running.length < 16) && !(inCurtain s) then startTest p code since s else s
    | [] => s)

/-- 24 h on the house clock. -/
def dayTicks : Nat := 2160000000000

/-- A part is a sensor: R361 and R363 rule its test. -/
def isSensor : Part → Bool
  | .hotSpot _ _ | .tileSensor _ => true
  | _ => false

/-- The transient table after one more transient of a part: the part moves to the end, the part counted least recently
leaves a table of 1,024 (R382). -/
def countTransient (p : Part) (now : Nat) (l : List (Part × List Nat)) : List (Part × List Nat) :=
  let old := match l.find? fun x => decide (x.1 = p) with
    | some x => x.2.filter fun t => decide (now < t + dayTicks)
    | none => []
  let rest := l.filter fun x => !(decide (x.1 = p))
  (if 1024 ≤ rest.length then rest.drop 1 else rest) ++ [(p, old ++ [now])]

/-- Transients of a part within 24 h. -/
def transientsOf (p : Part) (s : State) : Nat :=
  match s.selfTest.transients.find? fun x => decide (x.1 = p) with
  | some x => x.2.length
  | none => 0

/-- A test passes (R382): 0x0C03, and 0x0C05 at the third transient within 24 h. -/
def testPassed (p : Part) (code : BitVec 16) (s : State) : State :=
  let s := report { code := 0x0C03, loc := partLoc p } s
  if isSensor p then s
  else
    let s := { s with selfTest := { s.selfTest with transients := countTransient p s.ticks s.selfTest.transients } }
    if transientsOf p s < 3 then s
    else
      lastingFault p code (report { code := 0x0C05, loc := partLoc p }
        { s with selfTest := { s.selfTest with transients := s.selfTest.transients.filter fun x => !(decide (x.1 = p)) } })

/-- A faulty sensor of a part: a hot spot's by its index, a tile's ring oscillator (R361, R363). -/
def retireSensor (p : Part) (s : State) (k : Nat) : State :=
  match p with
  | .hotSpot d _ => retireHotSensor d k s
  | .tileSensor t => retireTileSensor t s
  | _ => s

/-- What a test found takes effect (R382, R383). -/
def testEnds (p : Part) (code : BitVec 16) (x : TestFinding) (s : State) : State :=
  let failed (s : State) : State := report { code := 0x0C04, loc := partLoc p } s
  match x with
  | .pass => testPassed p code s
  | .noResponse => lastingFault p code (failed s)
  | .failed l => (if l.isEmpty then [p] else l).foldl (fun s q => lastingFault q code s) (failed s)
  | .tracks l =>
    match p with
    | .link k => if l.isEmpty then testPassed p code s else l.foldl (fun s g => failTrack k g.1 g.2 s) (failed s)
    | _ => testPassed p code s
  | .sensors l => if l.isEmpty then testPassed p code s else l.foldl (retireSensor p) (failed s)

def execSelfTestResult (p : Part) (x : TestFinding) (s : State) : Host.Outcome State Fault Refusal :=
  .next (match s.selfTest.running.find? fun y => decide (y.1 = p) with
    | some y =>
      if inCurtain s then s
      else testEnds p y.2 x { s with selfTest := { s.selfTest with running := s.selfTest.running.filter fun z => !(decide (z.1 = p)) } }
    | none => s)

/-! ### Shards that fail where they lie (R169, R385) -/

/-- A tile's cues of the pass that it has passed. -/
def passedCues (c : Chart) (x : Installed) (entry t : Nat) (y : Tile) : List Cue :=
  ((passSegment entry ((cuesOf c x t).zipIdx.map fun p => (p.2, p.1))).filter fun p => decide (p.1 < y.pc)).map Prod.snd

/-- The pass in progress has read a layer's weights. -/
def hasRead (s : State) (i : Slot) (l : Nat) : Bool :=
  match s.installed, runningChart s i, passOf s with
  | some x, some c, some p => s.tiles.any fun y => (passedCues c x p.entry y.1 y.2).any fun q => pinsLayer q == some l
  | _, _, _ => false

/-- A stack copy fails (R169), in the table or among the shards of a swap: it is not valid and is fetched again; for a resident model
the barrier stands closed until it is valid, and a pass that has read the shard ends with 0x0509. -/
def failStored (i : Slot) (beside : Bool) (sh : Nat) (s : State) : State :=
  match (s.ctxOf i).model, fetchOf (s.ctxOf i) beside with
  | some m, some f =>
    match holdOf f.holds sh with
    | none => s
    | some h =>
      let s := modFetch i beside (fun f => { f with
        holds := f.holds.map fun x => if x.shard == sh then { x with valid := false } else x }) s
      let s := request i (beside || ownerFetch m sh) h.version s sh
      if m.resident && !beside && hasRead s i (entryOf f.manifest sh).layer then endPass 0x0509 s else s
  | _, _ => s

/-! ### Memory errors (R32, R385, Table 15-3) -/

/-- Step ends on this member with 0x0C02 and the member leaves the step. -/
def loseMasters (s : State) : State :=
  match holder s with
  | some i => if (passOf s).isNone && s.coll.reds.isEmpty then s else leaveStep (endReduction i 0x0C02 (endPass 0x0C02 s))
  | none => s

/-- A cue reads a poisoned tensor line (Table 15-3): its region faults; in a replay the pass ends with 0x0413. -/
def poisonedTensor (t : Nat) (s : State) : State :=
  match passOf s with
  | some p => if 0 < p.replays then endPass 0x0413 s else faultTile t 0x0C02 s
  | none => faultTile t 0x0C02 s

/-- An uncorrectable stack line acts by its content: 0 shard `index`, 1 tensor read by a cue of tile `index`, 2 error memory
(line `index` of the reservation), 3 masters or moments, 4 Chart or manifest copy, 5 HDM range. `reading` says that a cue
reads the line. -/
def poisonedStack (content : Fin 6) (index : Nat) (reading : Bool) (s : State) : State :=
  match holder s with
  | none => s
  | some i =>
    match content.val with
    | 0 => failStored i false index s
    | 1 => poisonedTensor index s
    | 2 => zeroMem (stackKey i (64 * index)) 64 s
    | 3 => loseMasters s
    | 4 => if reading then endPass 0x0C02 s else s
    | _ => s

/-- A tile's SRAM has power. -/
def tilePowered (s : State) (t : TileId) : Bool := decide ((s.dieOf (dieOfTile t)).rails = .up)

/-- The deck beneath a tile has power. -/
def deckPowered (s : State) (t : TileId) : Bool := s.start.zonesUp.getLsbD (zoneOfDie (dieOfTile t))

/-- A read can reach a row of a tile's SRAM: the SRAM has power and the row is in its bank's address map (R33, R47). -/
def tileRowRead (s : State) (t : TileId) (b : Fin 32) (r : Fin 768) : Bool := tilePowered s t && rowMapped s 3 t b r

/-- A read can reach a row of a tile's deck SRAM. -/
def deckRowRead (s : State) (t : TileId) (b : Fin 32) (r : Fin 2048) : Bool := deckPowered s t && rowMapped s 4 t b r

/-- The read that met the error returns poison, not data; a line of error memory has become zeros (R32, R385, Table 15-3). -/
def isPoison (s : State) : ScrubFinding → Bool
  | .tileUncorrectable t b r => tileRowRead s t b r
  | .deckUncorrectable t b r => deckRowRead s t b r
  | .stackUncorrectable _ _ c _ => !(c == 2)
  | _ => false

/-- An error that a read of SRAM or a stack meets (R32, R385). -/
def meetError (x : ScrubFinding) (reading : Bool) (s : State) : State :=
  match x with
  | .clean | .round _ => s
  | .tileCorrected t b r =>
    if tileRowRead s t b r then detect (.tileRow t b r) 0x0401 (report { code := 0x0401, loc := locTile t, value := rowDetail b r } s) else s
  | .tileUncorrectable t b r =>
    if tileRowRead s t b r then
      faultTile t 0x0402 (detect (.tileRow t b r) 0x0402 (report { code := 0x0402, loc := locTile t, value := rowDetail b r } s))
    else s
  | .deckCorrected t b r =>
    if deckRowRead s t b r then detect (.deckRow t b r) 0x0403 (report { code := 0x0403, loc := locTile t, value := rowDetail b r } s) else s
  | .deckUncorrectable t b r =>
    if deckRowRead s t b r then
      faultTile t 0x0404 (detect (.deckRow t b r) 0x0404 (report { code := 0x0404, loc := locTile t, value := rowDetail b r } s))
    else s
  | .stackCorrected k line => detect (.stackLine k line) 0x0C01 (report { code := 0x0C01, loc := locPort k, value := line } s)
  | .stackUncorrectable k line content index =>
    poisonedStack content index reading (detect (.stackLine k line) 0x0C02 (report { code := 0x0C02, loc := locPort k, value := line } s))

/-- What a scrub read: an error that it meets, or the end of a round (R32, R385, R406). -/
def scrubRead (x : ScrubFinding) (s : State) : State :=
  match x with
  | .round ofStacks => doneWork (if ofStacks then .stackPatrol else .sramScrub) s
  | x => meetError x false s

def execBackgroundScrub (x : ScrubFinding) (s : State) : Host.Outcome State Fault Refusal :=
  .next (when' (backgroundOn s) (scrubRead x) s)

/-! ### Re-checks (R167 to R169) -/

/-- Layers that the tiles hold pinned in a deck weight area. -/
def pinnedLayers (s : State) (area : Nat) : List Nat :=
  s.tiles.foldl (fun acc p => (p.2.deckHolds.filter fun h => h.1 == area).foldl (fun acc h => insertNew acc h.2.1) acc) []

/-- Tiles that hold a layer pinned in an area. -/
def pinTiles (s : State) (area : Nat) : List Nat :=
  (s.tiles.filter fun p => p.2.deckHolds.any fun h => h.1 == area).map Prod.fst

/-- A tensor stands pinned in every tile beneath which it has deck entries. -/
def tensorPinned (s : State) (c : Chart) (x : Installed) (id : Nat) : Bool :=
  let l := (placesOf c x id).filter fun p => p.kind == 2
  !l.isEmpty && l.all fun p => (s.tileOf (Fin.ofNat 5184 (72 * p.grow + p.gcol))).deckHolds.any fun h => h.2.2.contains id

/-- A shard that has units in an area and stands pinned whole, in this area or with others; of a shard that does not, the decks give no
digest (DEDUCED, log entry 99). -/
def shardInArea (s : State) (c : Chart) (x : Installed) (m : Manifest) (area sh : Nat) : Bool :=
  let ts := (shardUnits c m sh).foldl (fun acc u => insertNew acc (u.2.1.id, u.2.1.areaId)) []
  ts.any (fun t => t.2 == area) && ts.all fun t => tensorPinned s c x t.1

/-- A shard's plaintext as its tensors hold it now. -/
def rebuiltShard (y : Site) (mem : List Host.Cell) (m : Manifest) (sh : Nat) : Bytes :=
  (shardUnits y.chart m sh).flatMap fun x => getUnit y mem x.2.1 x.2.2

/-- The digest recorded when a shard was marked valid. -/
def recordedDigest (m : Model) (sh : Nat) : Bytes := (find? m.digests sh).getD []

/-- SRAM rows of a deck area's entries. -/
def areaRows (c : Chart) (x : Installed) (area : Nat) : List Part :=
  ((c.tensors.filter fun t => t.areaId == area).flatMap fun t => placesOf c x t.id).flatMap fun p =>
    if p.kind == 2 then (List.range p.lines).map fun k =>
      let n := p.address / 64 + k
      .deckRow (Fin.ofNat 5184 (72 * p.grow + p.gcol)) (Fin.ofNat 32 n) (Fin.ofNat 2048 (n / 32))
    else []

/-- The stack copy of a layer is re-checked before the area is copied again (R169). -/
def recheckStack (i : Slot) (m : Model) (l : Nat) (s : State) : State :=
  (layerShards m.fetch.manifest l).foldl (fun s k =>
    match holdOf m.fetch.holds k with
    | some h => if h.valid && !(storedDigest s i m m.fetch h == h.digest) then failStored i false k s else s
    | none => s) s

/-- What an area holds is bad: it is copied again before a cue reads it (R169). -/
def unpinArea (area : Nat) (s : State) : State :=
  mapTiles (fun _ y => { y with deckHolds := y.deckHolds.filter fun h => !(h.1 == area) }) s

/-- One shard of a pinned area does not match: 0x0509, row marches, the stack copy, the regions that read the area. -/
def areaMismatch (i : Slot) (y : Site) (m : Model) (area sh : Nat) (s : State) : State :=
  let s := shardEvent i 0x0509 m.fetch.manifest.modelId sh s
  let s := (areaRows y.chart y.inst area).foldl (fun s p => detect p 0x0509 s) s
  let readers := pinTiles s area
  let s := unpinArea area (recheckStack i m (entryOf m.fetch.manifest sh).layer s)
  faultRegions (readers.foldl (fun acc t => (regionsOfTile s t).foldl insertNew acc) []) 0x0509 none s

/-- Re-check a pinned deck area. -/
def recheckArea (i : Slot) (y : Site) (m : Model) (area : Nat) (s : State) : State :=
  let shards := ((pinnedLayers s area).flatMap (layerShards m.fetch.manifest)).filter (shardInArea s y.chart y.inst m.fetch.manifest area)
  match shards.find? fun k => !(Config.shake256 (rebuiltShard y s.mem m.fetch.manifest k) 64 == recordedDigest m k) with
  | some k => areaMismatch i y m area k s
  | none => s

def execDeckWeightRecheck (area : BitVec 16) (s : State) : Host.Outcome State Fault Refusal :=
  .next (match holder s with
    | none => s
    | some i => match siteOf s i, (s.ctxOf i).model with
      | some y, some m => if backgroundOn s then doneWork (.deckArea area.toNat) (recheckArea i y m area.toNat s) else s
      | _, _ => s)

/-- The model that a shard of the table, or of a swap beside it, belongs to. -/
def ownerId (m : Model) (beside : Bool) (sh : Nat) : BitVec 128 :=
  match m.swap with
  | some w => if beside || ownerFetch m sh then w.fetch.manifest.modelId else m.fetch.manifest.modelId
  | none => m.fetch.manifest.modelId

/-- Re-check a shard in the table, or a swap's beside it (R168, R176). One that has stayed bad is asked for again (DEDUCED, log entry
59). -/
def recheckHold (i : Slot) (sh : Nat) (s : State) (beside : Bool) : State :=
  match (s.ctxOf i).model, fetchOf (s.ctxOf i) beside with
  | some m, some f => match holdOf f.holds sh with
    | none => s
    | some h =>
      if !h.valid then request i (beside || ownerFetch m sh) h.version s sh
      else if storedDigest s i m f h == h.digest then s
      else failStored i beside sh (shardEvent i 0x0509 (ownerId m beside sh) sh s)
  | _, _ => s

/-- Re-check a stored shard (R168). -/
def recheckShard (i : Slot) (sh : Nat) (s : State) : State :=
  [false, true].foldl (recheckHold i sh) (modModel i (fun m => { m with checked := setPair m.checked sh s.ticks }) s)

def execModelStoreRecheck (i : Slot) (sh : Nat) (s : State) : Host.Outcome State Fault Refusal :=
  .next (when' (backgroundOn s) (fun s => doneWork (.modelShard i sh) (recheckShard i sh s)) s)

/-! ### Heartbeats (R40) -/

def execHeartbeatSend (t : TileId) (s : State) : Host.Outcome State Fault Refusal :=
  .next (when' (tilePowered s t) (sendHeartbeat t (heartbeatOf (s.tileOf t))) s)

/-- The neighbour of a tile in a direction. -/
def hbNeighbour (t : TileId) (r : Fin 5) : Option TileId :=
  (reverseDir { router := t, dir := Fin.ofNat 6 r.val }).map LinkDir.router

/-- A receiver of a tile's heartbeats sees them: the neighbour's tile has power and its clock, the own router has its
supply; a neighbour's flit comes over a link that is not down and waits for no replay (R27, R40, R43). -/
def hearing (s : State) (t : TileId) (r : Fin 5) : Bool :=
  if r = 4 then deckPowered s t
  else
    let l : LinkDir := { router := t, dir := Fin.ofNat 6 r.val }
    match hbNeighbour t r with
    | some u => tilePowered s u && decide ((s.tileOf u).sleep ≠ .asleep) && !(linkIsDown s l) && !(linkState s l).waiting
    | none => false

/-- A receiver notes a heartbeat; a flit that arrives well ends the failures in a row on its link (R38, R40). -/
def noteBeat (t : TileId) (r : Fin 5) (st : HbState) (s : State) : State :=
  let s := modTile t (fun y => { y with hbSeen := y.hbSeen.set r st, silent := y.silent.set r false }) s
  let l : LinkDir := { router := t, dir := Fin.ofNat 6 r.val }
  if r ≠ 4 ∧ 0 < (linkState s l).fails then modLink l (fun k => { k with fails := 0 }) s else s

def execHeartbeatReceive (h : HbPath) (st : HbState) (s : State) : Host.Outcome State Fault Refusal :=
  .next (when' (hearing s h.tile h.receiver) (noteBeat h.tile h.receiver st) s)

/-- A receiver reports a tile silent: its region faults, a tile check is asked for (R40, Table 15-1). A tile that another
receiver has reported before faults nothing again. -/
def silence (t : TileId) (r : Fin 5) (s : State) : State :=
  let first := (s.tileOf t).silent.toList.all fun x => !x
  let s := report { code := 0x0405, loc := locTile t } (modTile t (fun y => { y with silent := y.silent.set r true }) s)
  if first then faultTile t 0x0405 (detect (.tile t) 0x0405 s) else s

/-- A receiver keeps its count while it has power and its clock; a down link brings it no heartbeat. -/
def listening (s : State) (t : TileId) (r : Fin 5) : Bool :=
  if r = 4 then deckPowered s t
  else match hbNeighbour t r with
    | some u => tilePowered s u && decide ((s.tileOf u).sleep ≠ .asleep)
    | none => false

def execTileSilent (h : HbPath) (s : State) : Host.Outcome State Fault Refusal :=
  let y := s.tileOf h.tile
  .next (when' (listening s h.tile h.receiver && decide (y.hbSeen[h.receiver] = .awake) && !y.silent[h.receiver])
    (silence h.tile h.receiver) s)

/-! ### Mesh replay (R38) -/

/-- A flit fails its CRC: it and what follows are discarded, a replay is requested with its seq on the direction that drives
the other way. A flit that fails again after its replay adds one failed replay. -/
def crcError (l : LinkDir) (seq : BitVec 6) (s : State) : State :=
  let k := linkState s l
  let again := k.flit == seq && decide (0 < k.fails)
  let s := emit (.replayReq l seq)
    (modLink l (fun k => { k with flit := seq, waiting := true, fails := if again then k.fails + 1 else 1 }) s)
  match reverseDir l with
  | some x => emit (.meshFlit x (replayCycle s x seq)) s
  | none => s

/-- The flit's seq is taken from its control tracks as they arrived (DEDUCED, log entry 81). -/
def execMeshCrcError (l : LinkDir) (wires : BitVec 578) (s : State) : Host.Outcome State Fault Refusal :=
  let x := logicalOf (linkState s l).shift wires
  .next (when' (!(crcGood x) && !(linkIsDown s l) && !(linkState s l).waiting && deckPowered s l.router)
    (crcError l (controlOf (lowOf x)).seq) s)

/-- The kept flits from the named one onwards. -/
def keptFrom (seq : BitVec 6) (k : LinkState) : List MeshFlit := k.sent.dropWhile fun x => !(x.seq == seq)

/-- The sender acts on a replay request: it resends from the named flit onwards, or after the fourth failed replay the link
goes down. `fails` counts the first failure too. -/
def replayFlit (l : LinkDir) (seq : BitVec 6) (s : State) : State :=
  if 5 ≤ (linkState s l).fails then detect (.link l) 0x0842 (linkDown l s)
  else
    let s := modLink l (fun k => { k with waiting := false }) s
    let s := emit (.flitResend l seq) (detect (.link l) 0x0840 (report { code := 0x0840, loc := locTile l.router, value := seq.toNat } s))
    let k := linkState s l
    (keptFrom seq k).foldl (fun s x => emit (.meshFlit l (wiresOf k.shift x.tracks)) s) s

def execMeshReplayReq (l : LinkDir) (seq : BitVec 6) (s : State) : Host.Outcome State Fault Refusal :=
  .next (when' (!(linkIsDown s l) && (linkState s l).waiting && (linkState s l).flit == seq) (replayFlit l seq) s)

end Sys2Proof.Machine
end

