-- ==== Sys2Proof/Machine/Kernels.lean ====
section
/-! DEFINITION. What the computing cues do to the tensors: the MATMUL family (R65 to R77), the vector kernels 0x01 to 0x09
(R79 to R92), FUSED_NORM_BWD (R91), ATTN_BLOCK (R93 to R97) and attention backward (R99). Each answers the memory after the cue, the counts it adds
up, the ledger's statistics and the output elements at which a fault of the arithmetic was found. -/

namespace Sys2Proof.Machine

open Sys2Proof

/-! ### The statistics of the format ledger (R144) -/

/-- What a cue adds to a ledger entry. -/
structure Stats where
  n : Nat := 0
  belowE5m2 : Nat := 0
  belowMx : Nat := 0
  maxExp : Int := -128
  deriving DecidableEq, Repr

/-- Two sets of statistics together. -/
def Stats.add (a b : Stats) : Stats :=
  { n := a.n + b.n, belowE5m2 := a.belowE5m2 + b.belowE5m2, belowMx := a.belowMx + b.belowMx, maxExp := max a.maxExp b.maxExp }

/-- One FP32 value in a block whose largest magnitude has binary order `top`. -/
def statOf (top : Int) : Num → Stats
  | .fin m e =>
    if m = 0 then {}
    else
      let g := magLog m e
      { n := 1, belowE5m2 := b2n (decide (g < -14)), belowMx := b2n (decide (g < top - 14)), maxExp := g }
  | _ => {}

/-- The values that a cue writes to a tensor, block by block. -/
def statsOf (t : Tensor) (l : List (Nat × Num)) : Stats :=
  (unitsTouched t (l.map Prod.fst)).foldl (fun acc u =>
    let xs := (l.filter fun p => unitOf t p.1 == u).map Prod.snd
    match topLog xs with
    | none => acc
    | some k => xs.foldl (fun acc x => acc.add (statOf k x)) acc) {}

/-! ### The work of a cue -/

/-- Two tallies together. -/
def Tally.add (a b : Tally) : Tally :=
  { overflow := a.overflow + b.overflow, nonfinite := a.nonfinite + b.nonfinite, flagged := a.flagged + b.flagged,
    emptyRows := a.emptyRows + b.emptyRows, first := joinFirst a.first b.first }

/-- Memory, counts, statistics; output elements with a residue mismatch (R77), a bound violation (R73), an anchor mismatch
(R74), by product row and column; the first row and column of the tile's part of the product; the windows that drained; and the
output rows that an ATTN_BLOCK carries on. -/
structure Work where
  mem : List Host.Cell
  tally : Tally := {}
  stats : Stats := {}
  origin : Nat × Nat := (0, 0)
  wins : List (Nat × Nat × Win) := []
  residues : List (Nat × Nat) := []
  bounds : List (Nat × Nat) := []
  anchors : List (Nat × Nat) := []
  rows : List Word := []

/-- What a cue's work depends on besides memory: where it runs, the table stores of its tiles (R83), the step, what R141 freezes,
what R22 pins against it, the arithmetic fault it meets. -/
structure Env where
  site : Site
  tiles : List Nat
  tables : List (FnTable × FnTable)
  step : BitVec 32
  cue : Cue
  frozen : Nat → Bool
  pinned : Placement → Bool
  fault : ArithFault

/-- An entry in the SRAM of one of the tiles. -/
def atTiles (l : List Nat) (p : Placement) : Bool := l.any fun t => atTile t p

/-- Rounding of the cue's conversions (R59, R63). -/
def Env.rounding (v : Env) : Rounding :=
  { mode := v.cue.mode, sat := v.cue.sat, word := srWord v.site.chart.seed v.step.toNat v.cue.layer v.cue.site }

/-- RNE. -/
def rneRounding : Rounding := { mode := 0, sat := false, word := fun _ => 0 }

/-- Output blocks of the cue: in the SRAM of the tiles that run the cue, or with out_remote in any tile's; never over a pinned
block (R22). -/
def Env.here (v : Env) (p : Placement) : Bool := (atTiles v.tiles p || (v.cue.outRemote && decide (p.kind ≤ 2))) && !(v.pinned p)

/-- Blocks in this tile's SRAM or in the stacks (R90); never over a pinned block. -/
def Env.near (v : Env) (p : Placement) : Bool := (atTiles v.tiles p || p.kind == 3) && !(v.pinned p)

/-- An element of a tensor has its entry where `here` holds. -/
def elemHere (y : Site) (here : Placement → Bool) (t : Tensor) (e : Nat) : Bool :=
  match elemPlace y.chart y.inst t (elemBits (y.format t)) e with
  | some p => here p.1
  | none => false

/-- The elements of a tensor whose entries lie where `here` holds. -/
def elemsHere (y : Site) (here : Placement → Bool) (t : Tensor) : List Nat := (List.range (elemsOf t)).filter (elemHere y here t)

/-- The least row and the least column of a list of elements, of `n` to a row. -/
def originOf (n : Nat) (es : List Nat) : Nat × Nat :=
  ((es.map fun e => e / n).foldl min (es.headD 0 / n), (es.map fun e => e % n).foldl min (es.headD 0 % n))

/-- Coordinates within the tile (R78): counted from the first output row and column that the tile computes (DEDUCED, log entry 89). -/
def within (o p : Nat × Nat) : Nat × Nat := (p.1 - o.1, p.2 - o.2)

/-- A tally's first elements within the tile's part of a tensor. -/
def localTally (y : Site) (here : Placement → Bool) (t : Tensor) (x : Tally) : Tally :=
  if x.first.isEmpty then x
  else { x with first := x.first.map fun p => (p.1, within (originOf (innerSize t) (elemsHere y here t)) p.2) }

/-- Write values to a tensor where `here` holds, with their counts and, for a gradient-format tensor, their statistics. -/
def Work.write (y : Site) (here : Placement → Bool) (r : Rounding) (t : Tensor) (l : List (Nat × Num)) (w : Work) : Work :=
  let l := l.filter fun p => elemHere y here t p.1
  let x := writeNums y here r t l w.mem
  { w with
    mem := x.1, tally := w.tally.add (localTally y here t x.2), stats := if t.format = 0x20 then w.stats.add (statsOf t l) else w.stats }

/-- An auxiliary tensor of the cue: number `k` of the run (Table 6-3). -/
def Env.aux (v : Env) (k : Nat) : Option Tensor := tensorOf v.site.chart (v.cue.auxTensor + k)

/-- A reduction descriptor of the cue. -/
def Env.desc (v : Env) (k : Nat) : RedDesc :=
  (v.site.chart.reductions.find? fun r => r.id == v.cue.descId + k).getD { id := 0, op := 0, leaf := 256, regions := [] }

/-! ### Matrix products -/

/-- One operand of a product: format, rows, depth of the contraction, value and bound bytes of a row. -/
structure Side where
  fmt : Nat
  rows : Nat
  depth : Nat
  val : Nat → Nat → Num
  bytes : Nat → List Nat

/-- A tensor as an operand. Turned (R29), its K axis gives the rows, and each element keeps the bound of its own block. -/
def tensorSide (y : Site) (m : List Host.Cell) (t : Tensor) (turned : Bool) : Side :=
  let at' (r k : Nat) : Nat := if turned then atRow t k r else atRow t r k
  let depth := if turned then rowsOf t else kExtent t
  { fmt := y.format t, rows := if turned then kExtent t else rowsOf t, depth := depth,
    val := fun r k => elemNum y m t (at' r k),
    bytes := fun r =>
      if turned then (List.range depth).map fun k => boundByte y m t (at' r k)
      else (List.range (kUnits t)).map fun u => boundByte y m t (at' r (32 * u)) }

/-- Rows of values already at hand, of a format without scales. -/
def listSide (fmt : Nat) (rows : List (List Num)) : Side :=
  { fmt := fmt, rows := rows.length, depth := (rows.headD []).length, val := fun r k => (rows.getD r []).getD k .zero,
    bytes := fun r => (cutParts 32 (rows.getD r [])).map summaryOf }

/-- The anchor of an output element (R67). -/
def anchorOf (a b : Side) (i j : Nat) : Int := rowBound a.fmt (a.bytes i) + rowBound b.fmt (b.bytes j) + 2

/-- Enter the products of positions `k0` to `k0 + n − 1`; whether one reached 2^T (R69, R73). -/
def enterAll (a b : Side) (i j k0 n : Nat) (x : Win) : Win × Bool :=
  (List.range (min n (a.depth - k0))).foldl (fun acc k =>
    let y := acc.1.enter (a.val i (k0 + k)) (b.val j (k0 + k))
    (y.1, acc.2 || y.2)) (x, false)

/-- One output element as it drains. -/
structure Elem where
  e : Nat
  win : Win
  residueBad : Bool
  boundBad : Bool
  anchorBad : Bool

/-- An element at output row `i`, column `j`: its record loaded, its products entered, its residue checked. -/
def elemOf (a b : Side) (k0 n : Nat) (load : Option Nat) (fault : ArithFault) (e i j : Nat) : Elem :=
  let t := anchorOf a b i j
  let s := match load with
    | some r => (Win.empty t).load (Win.ofRecord r)
    | none => (Win.empty t, false)
  let x := enterAll a b i j k0 n s.1
  let x := (x.1.wrapped, x.2)
  let res := !(x.1.residueOk) || decide (fault = .residue i j)
  let bnd := x.2 || decide (fault = .bound i j)
  { e := e, win := { x.1 with nan := x.1.nan || res || bnd }, residueBad := res, boundBad := bnd, anchorBad := s.2 }

/-- Window record that a cue loads for an element (R74): from the WINDOW tensor of the output's dimensions whose entry for
it lies in this tile (log entry 49). -/
def windowRecord (v : Env) (m : List Host.Cell) (out : Tensor) (e : Nat) : Nat :=
  let ok (t : Tensor) : Bool := t.format == 0x0D && t.dims == out.dims && elemHere v.site (atTiles v.tiles) t e && !(t.id == out.id)
  match v.site.chart.tensors.find? ok with
  | some t => readElem v.site m t e
  | none => Config.freeElem 0x0D (v.tiles.headD 0) e % 2 ^ 128

/-- A product's operands: A turned for MATMUL_TA and DEFER_DW, B for MATMUL_TB. Operands of any format but FP32 are taken by their
values: the spec refuses no other, and gives those outside Table 3-5 no rate (DESIGN CHOICE, log entry 90). -/
def sidesOf (v : Env) (m : List Host.Cell) : Option (Side × Side) :=
  match tensorOf v.site.chart v.cue.aTensor, tensorOf v.site.chart v.cue.bTensor with
  | some a, some b =>
    some (tensorSide v.site m a (aTurned v.cue), tensorSide v.site m b (bTurned v.cue))
  | _, _ => none

/-- Every element of an element's 64 × 64 block is frozen (R141). -/
def blockFrozen (v : Env) (out : Tensor) (e : Nat) : Bool :=
  let b := (gridPlace out e).1
  (List.range (elemsOf out)).all fun x => !((gridPlace out x).1 == b) || v.frozen x

/-- The value that an element drains as; a frozen one drains as +0. -/
def drained (v : Env) (x : Elem) : Num := if v.frozen x.e then .zero else x.win.value

/-- FP32 drain of a value, and whether it overflowed. -/
def drain32 (r : Rounding) (e : Nat) (x : Num) : Num × Nat :=
  let c := convF fp32 r.sat (r.at e) x
  (decodeF fp32 c.bits, b2n c.overflow)

/-- Note what the elements' windows showed (R72 to R74, R77), in a product of `n` columns. -/
def Work.note (xs : List Elem) (n : Nat) (w : Work) : Work :=
  let o := originOf n (xs.map Elem.e)
  let place (x : Elem) : Nat × Nat := (x.e / n, x.e % n)
  { w with
    origin := o, wins := xs.map fun x => (x.e / n, x.e % n, x.win),
    tally := w.tally.add { flagged := (xs.filter fun x => x.win.flagged).length,
                           first := ((xs.find? fun x => x.win.flagged).map fun x => (0x040C, within o (place x))).toList },
    residues := w.residues ++ (xs.filter Elem.residueBad).map place,
    bounds := w.bounds ++ (xs.filter Elem.boundBad).map place,
    anchors := w.anchors ++ (xs.filter Elem.anchorBad).map place }

/-- The finite overflows of FP32 drains of a product of `n` columns (R60, R71). -/
def drainTally (r : Rounding) (n : Nat) (xs : List (Nat × Num)) : Tally :=
  let bad := xs.filter fun p => decide (0 < (drain32 r p.1 p.2).2)
  { overflow := bad.length,
    first := (bad.head?.map fun p => (0x040D, within (originOf n (xs.map Prod.fst)) (p.1 / n, p.1 % n))).toList }

/-- Drain elements into the output: as window records, or as values; MX blocks are formed from FP32 drains (R71), and an element
whose drain overflowed is counted as such alone (R60, R72). -/
def drainOut (v : Env) (out : Tensor) (n : Nat) (xs : List Elem) (w : Work) : Work :=
  let y := v.site
  if v.cue.drainWindow then
    { w with mem := xs.foldl (fun m x => writeElem y v.here out x.e (if v.frozen x.e then 0 else x.win.record) m) w.mem }
  else if isMx (y.format out) then
    let l := xs.map fun x => (x.e, drained v x)
    let d := drainTally v.rounding n l
    let w := w.write y v.here v.rounding out (l.map fun p => (p.1, (drain32 v.rounding p.1 p.2).1))
    { w with tally := ({ w.tally with nonfinite := w.tally.nonfinite - d.overflow } : Tally).add d }
  else
    let l := xs.map fun x => (x.e, drained v x)
    let z := writeNums y v.here v.rounding out l w.mem
    { w with
      mem := z.1, tally := w.tally.add { localTally y v.here out z.2 with
        nonfinite := 0, first := (localTally y v.here out z.2).first.filter fun x => !(x.1 == 0x040F) },
      stats := if out.format = 0x20 then w.stats.add (statsOf out (l.map fun p => (p.1, r32 p.2))) else w.stats }

/-- MATMUL, MATMUL_TA, MATMUL_TB and a DEFER_DW entry. -/
def productWork (v : Env) (m : List Host.Cell) : Work :=
  match sidesOf v m, tensorOf v.site.chart v.cue.outTensor with
  | some (a, b), some out =>
    let k0 := 32 * v.cue.field 127 110
    let kn := 32 * (v.cue.field 109 92 + 1)
    let es := (elemsHere v.site v.here out).filter fun e => !(v.frozen e && blockFrozen v out e)
    let xs := es.map fun e =>
      elemOf a b k0 kn (if v.cue.loadWindow then some (windowRecord v m out e) else none) v.fault e (e / b.rows) (e % b.rows)
    (drainOut v out b.rows xs { mem := m }).note xs b.rows
  | _, _ => { mem := m }

/-- A whole product drained to FP32: rows of values, with the elements that drained. These drains are not among the conversions that
Table 6-11 puts under the cue's mode, and take R59's default, RNE (DEDUCED, log entry 91). -/
def product32 (a b : Side) (fault : ArithFault) : List (List Num) × List Elem :=
  let xs := (List.range a.rows).map fun i => (List.range b.rows).map fun j => elemOf a b 0 a.depth none fault (i * b.rows + j) i j
  (xs.map fun r => r.map fun x => (drain32 rneRounding x.e x.win.value).1, xs.flatten)

/-- Note the drains of a product to FP32. -/
def Work.noteDrains (xs : List Elem) (n : Nat) (w : Work) : Work :=
  let w := w.note xs n
  { w with tally := w.tally.add (drainTally rneRounding n (xs.map fun x => (x.e, x.win.value))) }

/-! ### Functions and rows -/

/-- FP32 bits of the numbers that Tables 4-5 and 4-12 name. -/
def f32 (n : Int) : Bytes := toLe 4 (toW (.fin n 0)).toNat

/-- What R88 states of a uniform built-in table's header: domain, symmetry bits, tails (a and b below, a and b above; none where
Table 4-5 states none). -/
def uniformHeader (pair : Nat) (deriv : Bool) : Int × Int × Byte × Option (Int × Int) × Int × Int :=
  let lo : Int := if pair ≤ 1 then -8 else if pair = 4 then 0 else -32
  let hi : Int := if pair ≤ 1 then 8 else if pair = 4 then 16 else 32
  let flags : Byte := if pair = 4 then (if deriv then 5 else 2) else if deriv then 1 else 0
  let below : Option (Int × Int) := if pair = 4 ∧ !deriv then none else some (0, 0)
  if deriv then (lo, hi, flags, below, 0, if pair = 3 ∨ pair = 4 then 0 else 1)
  else (lo, hi, flags, below, if pair = 3 ∨ pair = 4 then 0 else 1, if pair = 3 ∨ pair = 4 then 1 else 0)

/-- The parts of a built-in table that R88 states, by byte offset: its number (DEDUCED, log entry 92), mode, domain, symmetry and
tails. The headers of the derivatives of 0x08 and 0x09 are stated nowhere. -/
def builtinParts (pair : Nat) (deriv : Bool) : List (Nat × Bytes) :=
  if pair ≤ 5 then
    let h := uniformHeader pair deriv
    [(0, toLe 2 pair ++ [0, h.2.2.1] ++ f32 h.1 ++ f32 h.2.1), (20, f32 h.2.2.2.2.1 ++ f32 h.2.2.2.2.2)] ++
      (match h.2.2.2.1 with
        | some b => [(12, f32 b.1 ++ f32 b.2)]
        | none => [])
  else if pair ≤ 7 ∨ !deriv then
    let mode : Byte := if pair = 7 ∧ deriv then 3 else BitVec.ofNat 8 (pair - 5)
    [(0, toLe 2 pair ++ [mode, if deriv then 1 else 0] ++ List.replicate 24 0)]
  else [(0, toLe 2 pair)]

/-- A byte of the built-in table file (R88): as stated, else a coefficient that no table of the spec prints. -/
def builtinByte (pair : Nat) (deriv : Bool) (o : Nat) : Byte :=
  match (builtinParts pair deriv).find? fun p => decide (p.1 ≤ o) && decide (o < p.1 + p.2.length) with
  | some p => byteAt p.2 (o - p.1)
  | none => Config.builtinByte pair deriv o

/-- A built-in table (R88). -/
def builtinTable (pair : Nat) (deriv : Bool) : FnTable := parseTable ((List.range 4128).map (builtinByte pair deriv))

/-- Evaluate a built-in pair (R85, R87). -/
def evalBuiltin (pair : Nat) (deriv : Bool) (x : Num) : Num := (builtinSpecial pair deriv x).getD (evalTable (builtinTable pair deriv) x)

/-- Evaluate a function pair: a built-in one, or one that the tile's store holds (R83). -/
def evalPair (store : List (FnTable × FnTable)) (pair : Nat) (deriv : Bool) (x : Num) : Num :=
  if pair ≤ 9 then evalBuiltin pair deriv x
  else match store.find? fun t => t.1.pairId == pair with
    | some t => evalTable (if deriv then t.2 else t.1) x
    | none => .nan

def expN : Num → Num := evalBuiltin 6 false
def logN : Num → Num := evalBuiltin 7 false
def recipN : Num → Num := evalBuiltin 8 false
def rsqrtN : Num → Num := evalBuiltin 9 false

/-- Elements of row `r` of a tensor, along its K axis. -/
def rowElems (t : Tensor) (r : Nat) : List Nat := (List.range (kExtent t)).map (atRow t r)

/-- A row's values in FP32. -/
def rowNums (y : Site) (m : List Host.Cell) (t : Tensor) (r : Nat) : List Num := (elemNums y m t (rowElems t r)).map r32

/-- The values of a vector in FP32. -/
def vecNums (y : Site) (m : List Host.Cell) (t : Option Tensor) (n : Nat) : List Num :=
  match t with
  | some t => (List.range n).map fun k => r32 (elemNum y m t k)
  | none => List.replicate n .zero

/-- One value of a tensor in FP32. -/
def vecNum (y : Site) (m : List Host.Cell) (t : Option Tensor) (k : Nat) : Num :=
  match t with
  | some t => r32 (elemNum y m t k)
  | none => .zero

/-- inv_d (R89): RNE(1 ÷ d). -/
def invD (d : Nat) : Num := quot32 1 d 0

/-- ε (R89): no field of the image holds it. -/
def epsilonOf (c : Chart) : Num := ofW (Config.normEpsilon c.digest)

/-- mu and r of a row (R89); mu is zero for RMSNorm. -/
def normStats (c : Chart) (leaf : Nat) (rms : Bool) (x : List Num) : Num × Num :=
  let inv := invD x.length
  if rms then
    (.zero, rsqrtN (fadd (fmul (vreduce .sumProducts leaf x) inv) (epsilonOf c)))
  else
    let mu := fmul (vreduce .sum leaf x) inv
    let dev := x.map fun z => fsub z mu
    (mu, rsqrtN (fadd (fmul (vreduce .sumProducts leaf dev) inv) (epsilonOf c)))

/-- xhat and y of a row. -/
def normRow (rms : Bool) (s : Num × Num) (g b x : List Num) : List (Num × Num) :=
  (List.range x.length).map fun k =>
    let xh := fmul (if rms then x.getD k .zero else fsub (x.getD k .zero) s.1) s.2
    (xh, if rms then fmul xh (g.getD k .zero) else ffma xh (g.getD k .zero) (b.getD k .zero))

/-- The saved statistics of a row as elements (Table 4-6). -/
def statElems (rms : Bool) (r : Nat) (s : Num × Num) : List (Nat × Num) :=
  if rms then [(r, s.2)] else [(2 * r, s.1), (2 * r + 1, s.2)]

/-- Rows of a tensor with an element where `here` holds. -/
def rowsHere (y : Site) (here : Placement → Bool) (t : Tensor) : List Nat :=
  (List.range (rowsOf t)).filter fun r => (rowElems t r).any (elemHere y here t)

/-- Write to a tensor of the run, if it is defined. -/
def Work.writeTo (y : Site) (here : Placement → Bool) (r : Rounding) (t : Option Tensor) (l : List (Nat × Num)) (w : Work) : Work :=
  match t with
  | some t => w.write y here r t l
  | none => w

/-- LayerNorm and RMSNorm forward (R89, R90). -/
def normWork (v : Env) (rms : Bool) (m : List Host.Cell) : Work :=
  match tensorOf v.site.chart v.cue.aTensor, tensorOf v.site.chart v.cue.outTensor with
  | some x, some out =>
    let y := v.site
    let d := kExtent x
    let g := vecNums y m (v.aux 0) d
    let b := vecNums y m (v.aux 1) d
    (rowsHere y v.here x).foldl (fun w r =>
      let xs := rowNums y m x r
      let s := normStats y.chart (v.desc 0).leaf rms xs
      let z := normRow rms s g b xs
      let w := w.write y v.here v.rounding out ((List.range d).map fun k => (atRow x r k, (z.getD k (.zero, .zero)).2))
      if v.cue.field 92 92 = 1 then w.writeTo y v.near v.rounding (v.aux 2) (statElems rms r s) else w) { mem := m }
  | _, _ => { mem := m }

/-- A value is −Infinity. -/
def isNegInf (x : Num) : Bool := decide (x = .inf true)

/-- Softmax of a row: p and lse (R92). -/
def softmaxRow (leaf : Nat) (x : List Num) : List Num × Num :=
  if x.all isNegInf then (x.map fun _ => .zero, .inf true)
  else
    let m := vreduce .max leaf x
    let e := x.map fun z => expN (fsub z m)
    let s := vreduce .sum leaf e
    (e.map fun z => fmul z (recipN s), fadd m (logN s))

/-- Softmax backward of a row. -/
def softmaxBack (leaf : Nat) (x dp : List Num) (lse : Num) : List Num :=
  if isNegInf lse then x.map fun _ => .zero
  else
    let p := x.map fun z => expN (fsub z lse)
    let k := vreduce2 .sumProducts leaf (List.zip dp p)
    List.zipWith (fun p d => fmul p (fsub d k)) p dp

/-- Softmax forward (kernel 0x03) and backward (0x04). -/
def softmaxWork (v : Env) (m : List Host.Cell) : Work :=
  match tensorOf v.site.chart v.cue.aTensor, tensorOf v.site.chart v.cue.outTensor with
  | some x, some out =>
    let y := v.site
    let leaf := (v.desc 0).leaf
    (rowsHere y v.here x).foldl (fun w r =>
      let xs := rowNums y m x r
      let put (l : List Num) (w : Work) : Work := w.write y v.here v.rounding out ((List.range l.length).map fun k => (atRow x r k, l.getD k .zero))
      if v.cue.kernel = 3 then
        let p := softmaxRow leaf xs
        let w := put p.1 w
        if v.cue.field 92 92 = 1 then w.writeTo y v.near v.rounding (v.aux 0) [(r, p.2)] else w
      else
        match tensorOf y.chart v.cue.bTensor with
        | some b => put (softmaxBack leaf xs ((rowElems x r).map fun e => r32 (elemNum y m b e)) (vecNum y m (v.aux 0) r)) w
        | none => w) { mem := m }
  | _, _ => { mem := m }

/-- Element-wise kernels 0x05 to 0x08 (Table 6-4). A conversion takes its input exactly; arithmetic reads its operands in FP32, an MX
value beyond FP32's range as an infinity without a count (DEDUCED, log entry 93). -/
def mapWork (v : Env) (m : List Host.Cell) : Work :=
  match tensorOf v.site.chart v.cue.aTensor, tensorOf v.site.chart v.cue.outTensor with
  | some a, some out =>
    let y := v.site
    let b := tensorOf y.chart v.cue.bTensor
    let f (e : Nat) : Num :=
      let exact := elemNum y m a e
      let x := r32 exact
      match v.cue.kernel with
      | 5 => evalPair v.tables (v.cue.field 119 112) false x
      | 6 => fmul (vecNum y m b e) (evalPair v.tables (v.cue.field 119 112) true x)
      | 7 => fadd x (vecNum y m b e)
      | _ => exact
    ({ mem := m } : Work).write y v.here v.rounding out ((elemsHere y v.here out).map fun e => (e, f e))
  | _, _ => { mem := m }

/-- Kernel 0x09: one reduction per row of `a`, or one of the whole tensor where the output has one element. The kernel has one operand:
under a descriptor of sums of products each element is multiplied by itself (DESIGN CHOICE, log entry 94). -/
def reduceWork (v : Env) (m : List Host.Cell) : Work :=
  match tensorOf v.site.chart v.cue.aTensor, tensorOf v.site.chart v.cue.outTensor with
  | some a, some out =>
    let y := v.site
    let d := v.desc 0
    let val (e : Nat) : Num := vreduce (redOpOf d.op) d.leaf
      (if elemsOf out = rowsOf a then rowNums y m a e else (List.range (elemsOf a)).map fun k => r32 (elemNum y m a k))
    ({ mem := m } : Work).write y v.here v.rounding out ((elemsHere y v.here out).map fun e => (e, val e))
  | _, _ => { mem := m }

/-- The vector kernels but for the optimizers. -/
def vectorWork (v : Env) (m : List Host.Cell) : Work :=
  match v.cue.kernel with
  | 1 => normWork v false m
  | 2 => normWork v true m
  | 3 | 4 => softmaxWork v m
  | 9 => reduceWork v m
  | _ => mapWork v m

/-! ### FUSED_NORM_BWD (R91) -/

/-- One row of the backward norm: dx, y and xhat. -/
structure NormBack where
  dx : List Num
  y : List Num
  xhat : List Num
  dy : List Num

/-- The row's formulas. -/
def normBack (leaf : Nat) (rms : Bool) (s : Num × Num) (g b x dy : List Num) : NormBack :=
  let z := normRow rms s g b x
  let xh := z.map Prod.fst
  let inv := invD x.length
  let gr := List.zipWith fmul dy g
  let mg : Num := if rms then .zero else fmul (vreduce .sum leaf gr) inv
  let mgx := fmul (vreduce2 .sumProducts leaf (List.zip gr xh)) inv
  { dx := List.zipWith (fun u h => fmul (ffma (nneg h) mgx u) s.2) (gr.map fun q => fsub q mg) xh, y := z.map Prod.snd, xhat := xh, dy := dy }

/-- Saved or recomputed statistics of a row. -/
def statsFor (v : Env) (m : List Host.Cell) (rms : Bool) (r : Nat) (x : List Num) : Num × Num :=
  if v.cue.field 126 126 = 1 then
    (if rms then (.zero, vecNum v.site m (v.aux 3) r) else (vecNum v.site m (v.aux 3) (2 * r), vecNum v.site m (v.aux 3) (2 * r + 1)))
  else normStats v.site.chart (v.desc 0).leaf rms x

/-- A column's sum under the column descriptor: of products where the descriptor says so. -/
def columnSum (d : RedDesc) (l : List (Num × Num)) : Num :=
  if d.op = 1 then vreduce2 .sumProducts d.leaf l else vreduce .sum d.leaf (l.map fun p => fmul p.1 p.2)

/-- FUSED_NORM_BWD: the product dz · Wᵀ, dx and y of this tile's rows; the column sums over all rows are added into dγ and dβ (one
FP32 addition to what they hold: DEDUCED, log entry 95). A tile notes the elements of the product that it drains: those of its dx. -/
def fusedWork (v : Env) (m : List Host.Cell) : Work :=
  match sidesOf v m, tensorOf v.site.chart v.cue.outTensor, v.aux 0 with
  | some (a, b), some dx, some x =>
    let y := v.site
    let rms := v.cue.field 127 127 = 1
    let d := kExtent x
    let p := product32 a b v.fault
    let g := vecNums y m (v.aux 1) d
    let bt := vecNums y m (v.aux 2) d
    let rows := (List.range (rowsOf x)).map fun r =>
      let xs := rowNums y m x r
      normBack (v.desc 0).leaf rms (statsFor v m rms r xs) g bt xs (p.1.getD r [])
    let put (t : Option Tensor) (f : NormBack → List Num) (w : Work) : Work :=
      w.writeTo y v.here v.rounding t ((List.range rows.length).flatMap fun r =>
        match rows[r]? with
        | some z => (List.range d).map fun k => (atRow x r k, (f z).getD k .zero)
        | none => [])
    let cols (f : NormBack → Nat → Num × Num) (plain : Bool) : List (Nat × Num) :=
      (List.range d).map fun k =>
        let l := rows.map fun z => f z k
        (k, if plain then vreduce .sum (v.desc 1).leaf (l.map Prod.fst) else columnSum (v.desc 1) l)
    let w := put (some dx) (fun z => z.dx) { mem := m }
    let w := put (v.aux 4) (fun z => z.y) w
    let into (t : Option Tensor) (l : List (Nat × Num)) : List (Nat × Num) := l.map fun p => (p.1, fadd (vecNum y m t p.1) p.2)
    let w := w.writeTo y v.near v.rounding (v.aux 5) (into (v.aux 5) (cols (fun z k => (z.dy.getD k .zero, z.xhat.getD k .zero)) false))
    let w := if rms then w else w.writeTo y v.near v.rounding (v.aux 6) (into (v.aux 6) (cols (fun z k => (z.dy.getD k .zero, .zero)) true))
    w.noteDrains (p.2.filter fun e => elemHere y v.here dx (atRow x (e.e / b.rows) (e.e % b.rows))) b.rows
  | _, _, _ => { mem := m }

/-! ### ATTN_BLOCK (R93 to R97) -/

/-- A pair may be scored (R94). -/
def allowed (q : Cue) (qp kp : Nat) : Bool :=
  let k := q.field 127 126
  k == 0 || (decide (kp ≤ qp) && (k == 1 || decide (qp - kp < q.field 125 103 + 1)))

/-- A position word's bits [22:0] (R93). -/
def posOf (y : Site) (m : List Host.Cell) (t : Option Tensor) (i : Nat) : Nat :=
  match t with
  | some t => readElem y m t i % 2 ^ 23
  | none => 0

/-- Format of P. -/
def pFormat (q : Cue) : Nat := if q.field 100 99 = 0 then 0x06 else if q.field 100 99 = 1 then 0x01 else 0x02

/-- The state of a query row (R95). -/
structure AttnRow where
  m : Num
  l : Num
  o : List Num

/-- The state of a row before the block. -/
def attnBefore (v : Env) (mem : List Host.Cell) (dh : Nat) (rows : List Word) (i : Nat) : AttnRow :=
  if v.cue.field 102 102 = 1 then { m := .inf true, l := .zero, o := List.replicate dh .zero }
  else { m := vecNum v.site mem (v.aux 3) (2 * i), l := vecNum v.site mem (v.aux 3) (2 * i + 1),
         o := (List.range dh).map fun k => ofW (rows.getD (i * dh + k) 0) }

/-- m_new, c and the converted row of P. The row reductions take the leaf size of the split descriptor, the only one that the cue
names (DEDUCED, log entry 96). -/
def attnScores (v : Env) (old : AttnRow) (s : List Num) : Num × Num × List Num × Nat :=
  let mx := nmax old.m (vreduce .max (v.desc 0).leaf s)
  if isNegInf mx then (mx, .one, s.map (fun _ => .zero), 0)
  else
    let f := pFormat v.cue
    let e := s.map fun z => toElem f v.cue.sat .rne (expN (fsub z mx))
    (mx, expN (fsub old.m mx), e.map (fun z => elemValue f z.bits), (e.filter fun z => z.overflow).length)

/-- The output rows as words. -/
def rowWords (l : List AttnRow) : List Word := l.flatMap fun r => r.o.map toW

/-- The fault of the arithmetic that a product meets, of an ATTN_BLOCK's two: the columns of P · V count on from those of Q · Kᵀ. -/
def faultFrom (n : Nat) : ArithFault → ArithFault
  | .none => .none
  | .residue i j => if n ≤ j then .residue i (j - n) else .none
  | .bound i j => if n ≤ j then .bound i (j - n) else .none

/-- The finite overflows of P's conversion, the first by its row. -/
def pTally (sc : List (Num × Num × List Num × Nat)) : Tally :=
  { overflow := (sc.map fun z => z.2.2.2).sum, first := ((sc.findIdx? fun z => decide (0 < z.2.2.2)).map fun i => (0x040D, i, 0)).toList }

/-- One ATTN_BLOCK up to its state: scores, the online update, the product with V. -/
def attnBlock (v : Env) (rows : List Word) (mem : List Host.Cell) : Work × List AttnRow :=
  match sidesOf v mem, v.aux 0 with
  | some (a, b), some vt =>
    let y := v.site
    let sp := product32 a b v.fault
    let sigma := vecNum y mem (v.aux 5) 0
    let score (i j : Nat) (x : Num) : Num :=
      if allowed v.cue (posOf y mem (v.aux 1) i) (posOf y mem (v.aux 2) j) then fmul x sigma else .inf true
    let old := (List.range a.rows).map (attnBefore v mem (kExtent (match tensorOf y.chart v.cue.aTensor with
      | some t => t
      | none => vt)) rows)
    let sc := (List.range a.rows).map fun i =>
      let s := (List.range b.rows).map fun j => score i j ((sp.1.getD i []).getD j .zero)
      attnScores v (old.getD i ⟨.zero, .zero, []⟩) s
    let vs := tensorSide y mem vt false
    let ob := product32 (listSide (pFormat v.cue) (sc.map fun z => z.2.2.1)) vs (faultFrom b.rows v.fault)
    let new := (List.range a.rows).map fun i =>
      let o := old.getD i ⟨.zero, .zero, []⟩
      let z := sc.getD i (.zero, .zero, [], 0)
      { m := z.1, l := ffma z.2.1 o.l (vreduce .sum (v.desc 0).leaf z.2.2.1),
        o := List.zipWith fadd (o.o.map fun x => fmul x z.2.1) (ob.1.getD i []) : AttnRow }
    let w := ({ mem := mem } : Work).writeTo y v.near rneRounding (v.aux 3)
      ((List.range new.length).flatMap fun i => match new[i]? with
        | some r => [(2 * i, r.m), (2 * i + 1, r.l)]
        | none => [])
    let w := w.noteDrains sp.2 b.rows
    let w := { w with tally := w.tally.add (pTally sc) }
    ({ w.noteDrains ob.2 vs.rows with rows := rowWords new }, new)
  | _, _ => ({ mem := mem }, [])

/-- Merge two states of a row (R97). -/
def attnMerge (a b : AttnRow) : AttnRow :=
  let m := nmax a.m b.m
  let ca := if isNegInf m then .one else expN (fsub a.m m)
  let cb := if isNegInf m then .one else expN (fsub b.m m)
  { m := m, l := ffma ca a.l (fmul cb b.l), o := List.zipWith (fun x z => ffma ca x (fmul cb z)) a.o b.o }

/-- One level of the leaf tree over states. -/
def mergePairs : List AttnRow → List AttnRow
  | a :: b :: l => attnMerge a b :: mergePairs l
  | l => l

/-- The leaf tree over the states of a row, one leaf for each KV range. -/
def mergeTree : Nat → List AttnRow → AttnRow
  | 0, l => l.headD ⟨.inf true, .zero, []⟩
  | n + 1, l => if l.length ≤ 1 then l.headD ⟨.inf true, .zero, []⟩ else mergeTree n (mergePairs l)

/-- Finish the rows after the last KV block (R96). -/
def attnFinish (v : Env) (rows : List AttnRow) (w : Work) : Work :=
  match tensorOf v.site.chart v.cue.outTensor with
  | none => w
  | some out =>
    (List.range rows.length).foldl (fun w i =>
      match rows[i]? with
      | none => w
      | some r =>
        let none' := r.l.isZero
        let o := if none' then r.o.map fun _ => .zero else r.o.map fun x => fmul x (recipN r.l)
        let lse := if none' then .inf true else fadd r.m (logN r.l)
        let w := w.write v.site v.near v.rounding out ((List.range o.length).map fun k => (atRow out i k, o.getD k .zero))
        let w := w.writeTo v.site v.near v.rounding (v.aux 4) [(i, lse)]
        { w with tally := w.tally.add { emptyRows := b2n none', first := noteFirst 0x040E (b2n none') (i, 0) [] } }) w

/-! ### Attention backward (R99)

No cue kind of Table 6-2 and no kernel of Table 6-4 runs these steps as one, and no table says which cues carry them (log entry 97):
they stand here as the functions that R99 states, over one query block and one key and value block. -/

/-- Rows of values as an operand read turned: each element keeps the bound of its own block of the rows as they lie (R29). -/
def turnedSide (fmt : Nat) (rows : List (List Num)) (bytes : List (List Nat)) : Side :=
  { fmt := fmt, rows := (rows.headD []).length, depth := rows.length, val := fun r k => (rows.getD k []).getD r .zero,
    bytes := fun r => bytes.map fun b => b.getD (r / 32) 0 }

/-- Values converted to a format along their rows, with the scale or summary byte of each 32. -/
def convertRows (f : Nat) (rows : List (List Num)) : List (List Num) × List (List Nat) :=
  let one (xs : List Num) : List Num × Nat :=
    if isMx f then
      let q := quantiseMx f (fun _ => .rne) xs
      (q.2.map fun b => scaled q.1 (elemValue f b), q.1)
    else
      let l := xs.map fun x => elemValue f (toElem f false .rne x).bits
      (l, summaryOf l)
  let all := rows.map fun r => (cutParts 32 r).map one
  (all.map fun r => r.flatMap Prod.fst, all.map fun r => r.map Prod.snd)

/-- Converted rows as an operand. -/
def rowSide (f : Nat) (x : List (List Num) × List (List Nat)) : Side := { listSide f x.1 with bytes := fun r => x.2.getD r [] }

/-- One block of attention backward: Q, K, V and dO, the rows of O, the saved lse, σ, the pairs allowed, the formats of P and of the
gradient, the leaf of the row reductions. -/
structure BackBlock where
  q : Tensor
  k : Tensor
  v : Tensor
  dO : Tensor
  o : List (List Num)
  lse : List Num
  sigma : Num
  ok : Nat → Nat → Bool
  pFmt : Nat
  gradFmt : Nat
  leaf : Nat

/-- FP32 totals of dQ, dK and dV by row. -/
structure BackTotals where
  dQ : List (List Num)
  dK : List (List Num)
  dV : List (List Num)

/-- P = convert(exp(S × σ − lse_i)), +0 where masked. -/
def backProb (x : BackBlock) (s : List (List Num)) : List (List Num) × List (List Nat) :=
  convertRows x.pFmt ((List.range s.length).map fun i => (List.range (s.getD i []).length).map fun j =>
    if x.ok i j then expN (fsub (fmul ((s.getD i []).getD j .zero) x.sigma) (x.lse.getD i .zero)) else .zero)

/-- D_i of a query row: the sum of products of dO and O. -/
def backD (x : BackBlock) (dO : List Num) (i : Nat) : Num := vreduce2 .sumProducts x.leaf (List.zip dO (x.o.getD i []))

/-- dS = P × (dP − D_i), in the gradient format. -/
def backScores (x : BackBlock) (p dP dO : List (List Num)) : List (List Num) × List (List Nat) :=
  convertRows x.gradFmt ((List.range p.length).map fun i => List.zipWith (fun a b => fmul a (fsub b (backD x (dO.getD i []) i))) (p.getD i []) (dP.getD i []))

/-- A drained product added into totals in FP32, scaled by σ where R99 says so. -/
def addTotal (sigma : Option Num) (t b : List (List Num)) : List (List Num) :=
  List.zipWith (List.zipWith fun a z => fadd a (match sigma with
    | some g => fmul z g
    | none => z)) t b

/-- One block: dV += Pᵀ · dO, dP = dO · Vᵀ, dS, dQ += dS · K × σ, dK += dSᵀ · Q × σ. -/
def attnBack (y : Site) (m : List Host.Cell) (x : BackBlock) (t : BackTotals) : BackTotals :=
  let side (w : Tensor) (turned : Bool) : Side := tensorSide y m w turned
  let s := (product32 (side x.q false) (side x.k false) .none).1
  let p := backProb x s
  let dO := (List.range (rowsOf x.dO)).map (rowNums y m x.dO)
  let dP := (product32 (side x.dO false) (side x.v false) .none).1
  let dS := backScores x p.1 dP dO
  { dV := addTotal none t.dV (product32 (turnedSide x.pFmt p.1 p.2) (side x.dO true) .none).1,
    dQ := addTotal (some x.sigma) t.dQ (product32 (rowSide x.gradFmt dS) (side x.k true) .none).1,
    dK := addTotal (some x.sigma) t.dK (product32 (turnedSide x.gradFmt dS.1 dS.2) (side x.q true) .none).1 }

/-- dQ of a query block over its key and value blocks in their order; dK and dV over query blocks in the descriptor's order. -/
def attnBackAll (y : Site) (m : List Host.Cell) (blocks : List BackBlock) (t : BackTotals) : BackTotals := blocks.foldl (fun t x => attnBack y m x t) t

end Sys2Proof.Machine
end

