-- ==== Sys2Proof/Machine/Encode.lean ====
section
/-! DEFINITION. Gradient egress (chapter 8): the gradient stream and its wire blocks (R178 to R180), frozen weights (R141),
the scale table (R182), error memory (R184, R186), encoding (R185 to R191), bounces (R197), the owner's mean and optimizer
(R200 to R202) and the write-back patches (R166). -/

namespace Sys2Proof.Machine

open Sys2Proof

/-! ### Wire blocks (R178) -/

/-- Elements of a tensor in stream order. -/
def streamElems (t : Tensor) : List Nat := (List.range (unitsOf t)).flatMap (unitElems t)

/-- Wire blocks of a tensor. -/
def blocksOf (t : Tensor) : Nat := (elemsOf t + 4095) / 4096

/-- Wire blocks of a layer's gradient stream. -/
def layerBlocks (c : Chart) (m : Manifest) (l : Nat) : Nat := ((layerTensors c m l).map blocksOf).sum

/-- Global index of a layer's first block. -/
def firstBlock (c : Chart) (m : Manifest) (l : Nat) : Nat := ((List.range l).map (layerBlocks c m)).sum

/-- Wire blocks of the whole model. -/
def allBlocks (c : Chart) (m : Manifest) : Nat := firstBlock c m m.layerCount

/-- A wire block: its index, layer, tensor, number in the tensor, the tensor's first element in the layer's gradient stream and
its first byte in the layer stream. -/
structure WireBlock where
  g : Nat
  layer : Nat
  tensor : Tensor
  index : Nat
  base : Nat
  offset : Nat

/-- Find block `n` among a layer's tensors. -/
def blockIn (g layer : Nat) : List Tensor → Nat → Nat → Nat → Option WireBlock
  | [], _, _, _ => none
  | t :: l, n, base, off =>
    if n < blocksOf t then some { g := g, layer := layer, tensor := t, index := n, base := base, offset := off }
    else blockIn g layer l (n - blocksOf t) (base + elemsOf t) (off + tensorStream t)

/-- Layer of a block. -/
def layerOfBlock (c : Chart) (m : Manifest) (g : Nat) : Nat :=
  ((List.range m.layerCount).find? fun l => decide (g < firstBlock c m (l + 1))).getD m.layerCount

/-- The block with a global index. -/
def wireBlock (c : Chart) (m : Manifest) (g : Nat) : Option WireBlock :=
  let l := layerOfBlock c m g
  blockIn g l (layerTensors c m l) (g - firstBlock c m l) 0 0

/-- Elements of a block. -/
def WireBlock.size (b : WireBlock) : Nat := min 4096 (elemsOf b.tensor - 4096 * b.index)

/-- Logical indices of a block's elements in its tensor. -/
def WireBlock.elems (b : WireBlock) : List Nat := ((streamElems b.tensor).drop (4096 * b.index)).take 4096

/-- Position of the block in its layer's gradient stream. -/
def WireBlock.start (b : WireBlock) : Nat := b.base + 4096 * b.index

/-- Units of a block's tensor whose first element lies in the block. -/
def WireBlock.units (b : WireBlock) : List Nat :=
  (List.range (unitsOf b.tensor)).filter fun u => b.elems.contains ((unitElems b.tensor u).headD (elemsOf b.tensor))

/-- Planes of a mask in ascending order (R179). -/
def planesOf (mask : BitVec 16) : List Nat := (List.range 16).filter fun p => mask.getLsbD p

/-- Plane of block `g`. -/
def planeOf (mask : BitVec 16) (g : Nat) : Nat := (planesOf mask).getD (g % (planesOf mask).length) 0

/-- Owner of block `g` (R180). -/
def ownerOf (n g : Nat) : Nat := g / 16 % n

/-! ### Frozen weights (R141) -/

/-- LAYER record of a layer. -/
def layerRec (c : Chart) (l : Nat) : LayerRec :=
  (c.layers.find? fun r => r.layer == l).getD { layer := l, maskKind := 0, flags := 0, maskId := 0xFFFF, k := 0, ruleId := 0 }

/-- Bits that a weight tensor takes in its layer's mask. -/
def maskWidth (kind : Nat) (t : Tensor) : Nat := if kind = 1 then t.dims.getD 0 1 else gridBlocks t

/-- First bit of a tensor in the mask. -/
def maskBase (kind id : Nat) : List Tensor → Nat
  | [] => 0
  | t :: l => if t.id = id then 0 else maskWidth kind t + maskBase kind id l

/-- Element `e` of weight tensor `t` is frozen. -/
def frozenElem (y : Site) (m : List Host.Cell) (mf : Manifest) (l : Nat) (t : Tensor) (e : Nat) : Bool :=
  let r := layerRec y.chart l
  match tensorOf y.chart r.maskId with
  | none => false
  | some k =>
    !(r.maskKind == 0) && readElem y m k (maskBase r.maskKind t.id (layerTensors y.chart mf l) +
      (if r.maskKind = 1 then (coordsOf t e).getD 0 0 else (gridPlace t e).1)) != 0

/-- Every element of a block is frozen: no member sends it. -/
def blockUnsent (y : Site) (m : List Host.Cell) (mf : Manifest) (b : WireBlock) : Bool :=
  !((layerRec y.chart b.layer).maskKind == 0) && b.elems.all (frozenElem y m mf b.layer b.tensor)

/-- What a dW product freezes: the weight tensor is that of the wire blocks cut from its output (log entry 50). -/
def frozenOf (y : Site) (m : List Host.Cell) (mf : Manifest) (q : Cue) (e : Nat) : Bool :=
  (q.kind == 2 || q.kind == 9) &&
    match (wireCues y.chart q.layer).find? fun w => w.aTensor == q.outTensor with
    | none => false
    | some w => match wireBlock y.chart mf (firstBlock y.chart mf q.layer + w.field 126 107) with
      | some b => frozenElem y m mf q.layer b.tensor e
      | none => false

/-! ### The model of a context, and the sites of its tensors -/

/-- Where a context's Chart runs, and the manifest of its model. -/
def gradSite (s : State) (i : Slot) : Option (Site × Manifest) :=
  match siteOf s i, (s.ctxOf i).model with
  | some y, some m => some (y, m.fetch.manifest)
  | _, _ => none

/-- Plaintext bytes of a weight unit as its shard's frame holds them at a version. -/
def heldUnit (s : State) (i : Slot) (m : Model) (v : BitVec 32) (layer off n : Nat) : Option Bytes :=
  match (layerShards m.fetch.manifest layer).find? fun k =>
      let e := entryOf m.fetch.manifest k
      decide (e.streamOffset ≤ off) && decide (off < e.streamOffset + e.length) && validAt m.fetch.holds v k with
  | none => none
  | some k => match holdOf m.fetch.holds k with
    | some h => some (readBytes s.mem (frameKey i h.frame (off - (entryOf m.fetch.manifest k).streamOffset)) n)
    | none => none

/-- Bytes of a weight unit: from its shard, or as the tensor holds it. -/
def weightUnit (s : State) (i : Slot) (y : Site) (m : Model) (v : BitVec 32) (b : WireBlock) (u : Nat) : Bytes :=
  let n := unitBytes b.tensor.format
  (heldUnit s i m v b.layer (b.offset + u * n) n).getD (getUnit y s.mem b.tensor u)

/-- Value of element `k` of a unit's bytes (R58). -/
def unitValue (f : Nat) (b : Bytes) (k : Nat) : Num :=
  let mx := isMx f
  let v := leNat (if mx then b.drop 1 else b) / 2 ^ (elemBits f * k) % 2 ^ elemBits f
  if mx then scaled (byteAt b 0).toNat (elemValue f v) else elemValue f v

/-! ### The scale table (R182, R183) -/

/-- The scale table of a layer: the auxiliary tensor of its wire cues. -/
def scaleTable (c : Chart) (l : Nat) : Option Tensor :=
  match wireCues c l with
  | q :: _ => tensorOf c q.auxTensor
  | [] => none

/-- e_ag of a block, if its entry is usable at a step. -/
def usableScale (y : Site) (m : List Host.Cell) (mf : Manifest) (t : Tensor) (step : BitVec 32) (g : Nat) : Option Int :=
  let tag := readElem y m t (2 * g + 1)
  if step = mf.baseStep ∨ tag = (step - 1).toNat % 256 then some (signedOf 8 (readElem y m t (2 * g))) else none

/-- The exponent that the table holds, whatever its tag. -/
def scaleNow (y : Site) (m : List Host.Cell) (t : Tensor) (g : Nat) : Int := signedOf 8 (readElem y m t (2 * g))

/-- Write an entry with a step's tag. -/
def putScale (y : Site) (t : Tensor) (step : BitVec 32) (g : Nat) (e : Int) (m : List Host.Cell) : List Host.Cell :=
  writeElem y anywhere t (2 * g + 1) (step.toNat % 256) (writeElem y anywhere t (2 * g) (e % 256).toNat m)

/-! ### Error memory (R184, R186, R197) -/

/-- Error memory of a layer, as a wire cue names it. -/
inductive ErrMem where
  | absent
  | full (t : Tensor)
  | slots (t : Tensor)

/-- The error memory a tensor number names. -/
def errMemOf (c : Chart) (id : Nat) : ErrMem :=
  match tensorOf c id with
  | none => .absent
  | some t => if t.slotPool then .slots { t with dims := [4096 * t.dims.getD 0 0, 1, 1, 1], kAxis := 0 } else .full t

/-- Error memory of a layer. -/
def layerErr (c : Chart) (l : Nat) : ErrMem :=
  match wireCues c l with
  | q :: _ => errMemOf c q.bTensor
  | [] => .absent

/-- Slot of a pool that holds a block. -/
def slotHolding (s : State) (i : Slot) (t : Tensor) (g : Nat) : Option Nat :=
  ((s.ctxOf i).pool.find? fun x => x.1 == t.id && x.2.2 == g).map fun x => x.2.1

/-- The lowest free slot of a pool. -/
def freeSlot (s : State) (i : Slot) (t : Tensor) : Option Nat :=
  (List.range (elemsOf t / 4096)).find? fun k => !((s.ctxOf i).pool.any fun x => x.1 == t.id && x.2.1 == k)

/-- Elements of error memory from a position on. -/
def errElems (pos n : Nat) : List Nat := (List.range n).map fun j => pos + j

/-- Values folded back for a block since its last encode (R197). -/
def bouncedOf (s : State) (i : Slot) (g : Nat) : Option (List Num) := (find? (s.ctxOf i).bounced g).map fun l => l.map ofW

/-- The fold of a block is taken: its next encode has read it. -/
def dropBounced (i : Slot) (g : Nat) (s : State) : State := modCtx i (fun c => { c with bounced := dropPair c.bounced g }) s

/-- FP32 sums of two lists, the second where it stands. -/
def addList (xs : List Num) : Option (List Num) → List Num
  | some l => List.zipWith fadd xs l
  | none => xs

/-- What error memory holds for a block, widened to FP32; full memory with what bounces have folded into it since (R197: added in
FP32, log entry 100). -/
def errRead (s : State) (i : Slot) (y : Site) (b : WireBlock) : ErrMem → Option (List Num)
  | .absent => none
  | .full t => some (addList (elemNums y s.mem t (errElems b.start b.size)) (bouncedOf s i b.g))
  | .slots t => (slotHolding s i t b.g).map fun k => elemNums y s.mem t (errElems (4096 * k) b.size)

/-- Store values as BF16. -/
def errStore (y : Site) (t : Tensor) (pos : Nat) (xs : List Num) (s : State) : State :=
  { s with mem := writeState y t ((List.range xs.length).map fun j => (pos + j, xs.getD j .zero)) s.mem }

/-- Free a block's slot. -/
def freePool (i : Slot) (t : Tensor) (g : Nat) (s : State) : State :=
  modCtx i (fun c => { c with pool := c.pool.filter fun x => !(x.1 == t.id && x.2.2 == g) }) s

/-- Clear a block's error memory (R185). -/
def errClear (i : Slot) (y : Site) (b : WireBlock) (e : ErrMem) (s : State) : State :=
  match e with
  | .absent => s
  | .full t => dropBounced i b.g (errStore y t b.start (List.replicate b.size .zero) s)
  | .slots t => freePool i t b.g s

/-- A fold has no place: 0x060A, but for a fold that R206 makes without an event. -/
def dropFold (quiet : Bool) (i : Slot) (b : WireBlock) (s : State) : State :=
  if quiet then s else report { code := 0x060A, slot := BitVec.ofNat 8 i, cue := b.layer, value := b.g } s

/-- Put a block's values into its slot, or into a free one tagged with it (R185, R197). -/
def foldSlot (quiet : Bool) (i : Slot) (y : Site) (b : WireBlock) (t : Tensor) (xs : List Num) (s : State) : State :=
  match slotHolding s i t b.g with
  | some k => errStore y t (4096 * k) xs s
  | none => match freeSlot s i t with
    | some k => errStore y t (4096 * k) xs (modCtx i (fun c => { c with pool := c.pool ++ [(t.id, k, b.g)] }) s)
    | none => dropFold quiet i b s

/-- Put a block's values into error memory (R185). -/
def foldBlock (quiet : Bool) (i : Slot) (y : Site) (b : WireBlock) (e : ErrMem) (xs : List Num) (s : State) : State :=
  match e with
  | .absent => dropFold quiet i b s
  | .full t => dropBounced i b.g (errStore y t b.start xs s)
  | .slots t => foldSlot quiet i y b t xs s

/-- Error memory has a place for a block's values. -/
def foldPlaced (s : State) (i : Slot) (b : WireBlock) : ErrMem → Bool
  | .absent => false
  | .full _ => true
  | .slots t => (slotHolding s i t b.g).isSome || (freeSlot s i t).isSome

/-- Fold what came back into error memory (R197): full memory keeps it in FP32 for the next encode, a slot takes the rounded sum. -/
def addFold (i : Slot) (y : Site) (b : WireBlock) (e : ErrMem) (xs : List Num) (s : State) : State :=
  match e with
  | .absent => dropFold false i b s
  | .full _ => modCtx i (fun c => { c with bounced := setPair c.bounced b.g ((addList xs (bouncedOf s i b.g)).map toW) }) s
  | .slots t => foldSlot false i y b t (addList xs (errRead s i y b e)) s

/-! ### Encoding (R185 to R191) -/

/-- Kinds of a block (R187, R188). -/
inductive BlockKind where
  | dense
  | topk (k : Nat)
  | onebit
  deriving DecidableEq, Repr

/-- Kind of a layer's blocks in a step. -/
def kindOf (c : Chart) (mask : BitVec 16) (l : Nat) : BlockKind :=
  let r := layerRec c l
  let whole := match layerErr c l with
    | .full _ => true
    | _ => false
  if r.flags.getLsbD 1 || (decide ((planesOf mask).length < 12) && whole) then .onebit
  else if 0 < r.k then .topk r.k else .dense

/-- Checksum of mantissas or sums (R191). -/
def checksum (l : List Int) : Nat :=
  ((((List.range l.length).map fun (j : Nat) => ((j : Int) + 1) * l.getD j 0).sum) % (2 ^ 31 - 1)).toNat

/-- |x| < |y|. -/
def magLess (x y : Num) : Bool := nlt (nabs x) (nabs y)

/-- The indices of the k largest magnitudes, ties to the lower index, in ascending order. -/
def topIndices (k : Nat) (xs : List Num) : List Nat :=
  (List.range xs.length).filter fun j =>
    decide (((List.range xs.length).filter fun i =>
      magLess (xs.getD j .zero) (xs.getD i .zero) || (decide (i < j) && !(magLess (xs.getD i .zero) (xs.getD j .zero)))).length < k)

/-- RNE(v ÷ 2^u) of a finite value. -/
def mantissa (u : Int) : Num → Int
  | .fin m e => roundSigned m (e - u)
  | _ => 0

/-- The least escape for a list of values; none holds one that is not finite. -/
def escapeFor (u : Int) (vs : List Num) : Option Nat :=
  (List.range 8).find? fun e => vs.all fun v => v.finite && decide ((mantissa (u + e) v).natAbs ≤ 127)

/-- What a kind sends of a block: the values that set the escape, and the mantissa of each element at an escape. -/
def kindValues (kind : BlockKind) (xs : List Num) : List Num :=
  match kind with
  | .dense => xs
  | .topk k => (topIndices k xs).map fun j => xs.getD j .zero
  | .onebit => [fmul (vreduce .sum 4096 (xs.map nabs)) (invD xs.length)]

def kindMantissas (kind : BlockKind) (u : Int) (xs : List Num) : List Int :=
  match kind with
  | .dense => xs.map (mantissa u)
  | .topk k =>
    let idx := topIndices k xs
    (List.range xs.length).map fun j => if idx.contains j then mantissa u (xs.getD j .zero) else 0
  | .onebit =>
    let a := mantissa u ((kindValues .onebit xs).headD .zero)
    xs.map fun x => if x.isNeg then -a else a

/-- A signed mantissa as a byte. -/
def mByte (m : Int) : Byte := ofSByte m

/-- A one-bit payload (R189). -/
def bitPayload (xs : List Bool) : Bytes :=
  (List.range ((xs.length + 7) / 8)).map fun k =>
    BitVec.ofNat 8 ((List.range 8).foldl (fun acc b => acc + b2n (xs.getD (8 * k + b) false) * 2 ^ b) 0)

/-- Payload of a block (R189, R190). -/
def payloadOf (kind : BlockKind) (xs : List Num) (ms : List Int) : Bytes :=
  match kind with
  | .dense => ms.map mByte
  | .topk k => (topIndices k xs).flatMap fun j => toLe 3 (j + ((ms.getD j 0) % 256).toNat * 4096)
  | .onebit => bitPayload (xs.map fun x => x.isNeg)

/-- What one encode decides: the contribution, none where the block is folded instead; what error memory keeps. -/
structure Encoded where
  msg : Option Contribution
  keep : Option (List Num)     -- none: cleared
  isFold : Bool

/-- Header fields that every contribution of a step shares. -/
def contribution (red : Reduction) (c : Chart) (own : Nat) (b : WireBlock) (eAg : Int) (expected : Option Nat) : Contribution :=
  { kind := 0, flags := if expected.isSome then 1 else 0, escape := 0, eAg := ofSByte eAg, maxExp := 0x80, magnitude := 0,
    nElements := BitVec.ofNat 16 b.size, k := 0, member := BitVec.ofNat 16 own, owner := BitVec.ofNat 16 (ownerOf c.groupSize b.g),
    groupSize := BitVec.ofNat 16 c.groupSize, step := red.step, layer := BitVec.ofNat 16 b.layer, descId := BitVec.ofNat 16 red.descId,
    g := BitVec.ofNat 64 b.g, checksum := 0, expected := BitVec.ofNat 16 (expected.getD 0), payload := [] }

/-- Encode values at an escape. -/
def encodeAt (h : Contribution) (kind : BlockKind) (u : Int) (e : Nat) (xs : List Num) : Contribution × List Num :=
  let ms := kindMantissas kind (u + e) xs
  ({ h with
      kind := (match kind with
        | .dense => 1
        | .topk _ => 2
        | .onebit => 3),
      escape := BitVec.ofNat 8 e,
      magnitude := (match kind with
        | .onebit => mByte (mantissa (u + e) ((kindValues .onebit xs).headD .zero))
        | _ => 0),
      k := (match kind with
        | .topk k => BitVec.ofNat 16 (min k xs.length)
        | _ => 0),
      checksum := BitVec.ofNat 32 (checksum ms), payload := payloadOf kind xs ms },
    (List.range xs.length).map fun j => fsub (xs.getD j .zero) (.fin (ms.getD j 0) (u + e)))

/-- Maximum exponent of a block's values, −128 for none (R144, R185). -/
def maxOrder (xs : List Num) : Int := if xs.any fun x => !x.finite then -128 else (topLog xs).getD (-128)

/-- Encode a block's values (R185); `eAg` is none where its scale entry is not usable, `err` says that error memory exists. -/
def encodeBlock (h : Contribution) (kind : BlockKind) (eAg : Option Int) (xs : List Num) : Encoded :=
  if xs.any fun x => !x.finite then { msg := some { h with kind := 4 }, keep := none, isFold := false }
  else
    let h := { h with maxExp := maxExpByte (maxOrder xs) }
    match eAg with
    | none => { msg := none, keep := some xs, isFold := true }
    | some a =>
      let u := a - 6
      match escapeFor u (kindValues kind xs) with
      | none => { msg := some { h with kind := 5 }, keep := some xs, isFold := true }
      | some e =>
        let x := encodeAt h kind u e xs
        { msg := some x.1, keep := some x.2, isFold := false }

/-- The effect of an encode on error memory (R186): a fold keeps every value; after a send, full memory keeps the residue and a
slot is freed. -/
def settleErr (i : Slot) (y : Site) (b : WireBlock) (e : ErrMem) (x : Encoded) (s : State) : State :=
  match x.keep with
  | none => errClear i y b e s
  | some l =>
    if x.isFold then foldBlock false i y b e l s
    else match e with
      | .absent => s
      | .full t => dropBounced i b.g (errStore y t b.start l s)
      | .slots t => freePool i t b.g s

/-- Drained values of a block (log entry 50): the elements of `a` at the block's place after the cue's first tensor block. -/
def drainedBlock (y : Site) (m : List Host.Cell) (a : Tensor) (b : WireBlock) : List Num :=
  (((streamElems a).drop (4096 * b.index)).take b.size).map fun e => r32 (elemNum y m a e)

/-- The block's values with what error memory returns. -/
def gradientBlock (s : State) (i : Slot) (y : Site) (a : Tensor) (b : WireBlock) (e : ErrMem) : List Num :=
  addList (drainedBlock y s.mem a b) (errRead s i y b e)

/-! ### Bounces (R197) -/

/-- Mantissas of a contribution's dense equivalent. -/
def decodeMantissas (c : Contribution) : List Int :=
  let n := c.nElements.toNat
  let p := c.payload
  if c.kind = 1 then (List.range n).map fun j => sByte (byteAt p j)
  else if c.kind = 2 then
    (List.range n).map fun j =>
      match (List.range c.k.toNat).find? fun r => leAt p (3 * r) 3 % 4096 == j with
      | some r => signedOf 8 (leAt p (3 * r) 3 / 4096 % 256)
      | none => 0
  else
    let a : Int := c.magnitude.toNat
    (List.range n).map fun j => if (byteAt p (j / 8)).getLsbD (j % 8) then -a else a

/-- Values of a contribution. -/
def decodeContribution (c : Contribution) : List Num :=
  (decodeMantissas c).map fun m => .fin m (sByte c.eAg - 6 + (c.escape.toNat % 8 : Nat))

/-! ### The owner's update (R200 to R202) -/

/-- An owner's blocks of a layer in ascending order. -/
def ownedIn (red : Reduction) (l : Nat) : List OwnedBlock := red.owned.filter fun o => o.layer == l

/-- Blocks of a layer with their places in the packed tensors: block, first packed element. -/
def packed (c : Chart) (m : Manifest) : Nat → List OwnedBlock → List (OwnedBlock × WireBlock × Nat)
  | _, [] => []
  | pos, o :: l =>
    match wireBlock c m o.g with
    | some b => (o, b, pos) :: packed c m (pos + b.size) l
    | none => packed c m pos l

/-- Mean gradient of an element (R200). -/
def meanGrad (r : ResultMsg) (j : Nat) : Num :=
  let v := (r.sums.getD j 0).toInt
  match r.nCounted.toNat with
  | 0 => .zero
  | n => quot32 v n (sByte r.eAg - 6)

/-- An element's masters and moments. -/
structure OptElem where
  w : Num
  m : Num
  v : Num

/-- The result buffers of a layer (R198, Table 8-6): a_tensor of its optimizer cue. -/
def bufferTensor (c : Chart) (l : Nat) : Option Tensor :=
  match (c.cues.flatMap fun p => p.2).find? fun q => q.kind == 4 && decide (10 ≤ q.kernel) && q.layer == l with
  | some q => tensorOf c q.aTensor
  | none => none

/-- Memory key of an owned block's buffer. -/
def ownedKey (y : Site) (o : OwnedBlock) : Option Nat :=
  match o.buffer with
  | some (t, k) => bufferKey y.slot (placesOf y.chart y.inst t) k
  | none => none

/-- The sums that an owned block's buffer holds, after the 832-byte header of Table 8-4. -/
def bufferSums (y : Site) (m : List Host.Cell) (o : OwnedBlock) (n : Nat) : List Word :=
  match ownedKey y o with
  | some key => (List.range n).map fun j => BitVec.ofNat 32 (leNat (readBytes m (key + 832 + 4 * j) 4))
  | none => []

/-- Hyper-parameters of Table 8-6, in its order. -/
def hyper (y : Site) (m : List Host.Cell) (t : Option Tensor) (k : Nat) : Num := vecNum y m t k

/-- sign(x), with sign(0) = 0. -/
def signN (x : Num) : Num := if x = .nan then .nan else if x.isZero then .zero else if x.isNeg then .fin (-1) 0 else .one

/-- One element's update (R201). -/
def optStep (kernel : Nat) (hp : Nat → Num) (f bc1 bc2 : Num) (x : OptElem) (g : Num) : OptElem :=
  let lrt := nneg (fmul (hp 0) f)
  if kernel = 10 then
    let m := ffma (hp 1) x.m (fmul (hp 3) g)
    let v := ffma (hp 2) x.v (fmul (hp 4) (fmul g g))
    let d := fmul (fmul m (recipN bc1)) (rsqrtN (fadd (fmul v (recipN bc2)) (hp 5)))
    { w := ffma lrt (ffma (hp 6) x.w d) x.w, m := m, v := v }
  else if kernel = 11 then
    let m := ffma (hp 7) x.m g
    { x with w := ffma lrt (ffma (hp 6) x.w m) x.w, m := m }
  else
    let d := signN (ffma (hp 1) x.m (fmul (hp 3) g))
    { x with w := ffma lrt (ffma (hp 6) x.w d) x.w, m := ffma (hp 2) x.m (fmul (hp 4) g) }

/-- A block is updated: it has a result, and skip update does not exclude it. -/
def updates (d : CollDesc) (o : OwnedBlock) : Option ResultMsg :=
  match o.result with
  | none => none
  | some r => if d.flags.getLsbD 2 && !(r.poison == 0 && r.overflow == 0) then none else some r

/-- The descriptor that stands where no collective descriptor has the number. -/
def noDesc (id : Nat) : CollDesc :=
  { id := id, command := 0, flags := 0, timeout := 1, quorum := 1, retryLimit := 0, retryGap := 1, hopTimeout := 1, timers := 1,
    signalCtr := 0xFF, signalRoute := 0 }

/-- The collective descriptor with a number. -/
def collDesc (c : Chart) (id : Nat) : CollDesc := (c.collectives.find? fun d => d.id == id).getD (noDesc id)

/-- Copy one weight unit's bytes into the staging tensor at packed elements `pos` on. -/
def stageBytes (y : Site) (here : Placement → Bool) (out : Tensor) (pos : Nat) (b : Bytes) (n : Nat) (m : List Host.Cell) : List Host.Cell :=
  let f := y.format out
  let v := leNat (if isMx f then b.drop 1 else b)
  let m := (List.range n).foldl (fun m k => writeElem y here out (pos + k) (v / 2 ^ (elemBits f * k) % 2 ^ elemBits f) m) m
  if isMx f && elemHere y here out pos then writeSide y out.scaleId (unitOf out pos) (byteAt b 0).toNat m else m

/-- One owned block under an optimizer cue: first masters and moments at the first step of a run (R202), the update, the
staged weights; a block without an update stages its unchanged weights. -/
def optBlock (s : State) (i : Slot) (v : Env) (md : Model) (red : Reduction) (o : OwnedBlock) (b : WireBlock) (pos : Nat) (w : Work) : Work :=
  let y := v.site
  match tensorOf y.chart v.cue.bTensor, tensorOf y.chart v.cue.outTensor with
  | some wt, some out =>
    let first := red.step = md.fetch.manifest.baseStep
    let unit (e : Nat) : Bytes := weightUnit s i y md red.step b (unitOf b.tensor e)
    let old (j e : Nat) : OptElem :=
      if first then { w := r32 (unitValue b.tensor.format (unit e) ((coordsOf b.tensor e).getD b.tensor.kAxis 0 % 32)), m := .zero, v := .zero }
      else { w := vecNum y w.mem (some wt) (pos + j), m := vecNum y w.mem (v.aux 0) (pos + j), v := vecNum y w.mem (v.aux 1) (pos + j) }
    let hp := hyper y w.mem (v.aux 2)
    let r := (updates (collDesc y.chart red.descId) o).map fun r => { r with sums := bufferSums y w.mem o b.size }
    let new := (List.range b.size).map fun j =>
      let e := b.elems.getD j 0
      let x := old j e
      match r with
      | some r =>
        if frozenElem y w.mem md.fetch.manifest b.layer b.tensor e then x
        else optStep v.cue.kernel hp (ofW red.f) (ofW red.bc1) (ofW red.bc2) x (meanGrad r j)
      | none => x
    let put (t : Option Tensor) (f : OptElem → Num) (w : Work) : Work :=
      w.writeTo y v.here v.rounding t ((List.range new.length).map fun j => (pos + j, f (new.getD j ⟨.zero, .zero, .zero⟩)))
    let w := put (some wt) (fun x => x.w) w
    let w := put (v.aux 0) (fun x => x.m) w
    let w := if v.cue.kernel = 10 then put (v.aux 1) (fun x => x.v) w else w
    if r.isSome then put (some out) (fun x => x.w) w
    else
      { w with mem := b.units.foldl (fun m u =>
          let es := unitElems b.tensor u
          stageBytes y v.here out (pos + ((b.elems.findIdx? fun e => e == es.headD 0).getD 0)) (weightUnit s i y md red.step b u) es.length m) w.mem }
  | _, _ => w

/-- The reduction of a step. -/
def redOfStep (s : State) (step : BitVec 32) : Option Reduction := s.coll.reds.find? fun r => r.step == step

/-- An optimizer cue: every owned block of its layer (R201). -/
def optimizerWork (s : State) (i : Slot) (v : Env) : Work :=
  match (s.ctxOf i).model, redOfStep s v.step with
  | some md, some red =>
    (packed v.site.chart md.fetch.manifest 0 (ownedIn red v.cue.layer)).foldl (fun w x => optBlock s i v md red x.1 x.2.1 x.2.2 w)
      { mem := s.mem }
  | _, _ => { mem := s.mem }

/-! ### Write-back (R166) -/

/-- Bytes of a weight unit as staged at packed element `pos`. -/
def stagedUnit (y : Site) (m : List Host.Cell) (out : Tensor) (pos n : Nat) : Bytes :=
  let f := y.format out
  (if isMx f then [BitVec.ofNat 8 (readSide y m out.scaleId (unitOf out pos))] else []) ++
    toLe (4 * elemBits f) ((List.range n).foldl (fun acc k => acc + readElem y m out (pos + k) * 2 ^ (elemBits f * k)) 0)

/-- The staged units of a layer's owned blocks: stream offset, bytes, run of the block. -/
def stagedUnits (y : Site) (m : List Host.Cell) (out : Tensor) (l : List (OwnedBlock × WireBlock × Nat)) : List (Nat × Bytes × Nat) :=
  l.flatMap fun x => x.2.1.units.map fun u =>
    let es := unitElems x.2.1.tensor u
    let pos := x.2.2 + ((x.2.1.elems.findIdx? fun e => e == es.headD 0).getD 0)
    (x.2.1.offset + u * unitBytes x.2.1.tensor.format, stagedUnit y m out pos es.length, x.1.g / 16)

/-- One patch for each run of owned blocks within one shard, in stream order. -/
def patchesOf (m : Manifest) (layer : Nat) (us : List (Nat × Bytes × Nat)) : List (Nat × Nat × Bytes) :=
  (layerShards m layer).flatMap fun k =>
    let e := entryOf m k
    let here := us.filter fun x => decide (e.streamOffset ≤ x.1) && decide (x.1 < e.streamOffset + e.length)
    (here.foldl (fun acc x => insertNew acc x.2.2) []).map fun r =>
      let l := here.filter fun x => x.2.2 == r
      (k, (l.map fun x => x.1).headD 0, l.flatMap fun x => x.2.1)

/-- The patches of a layer, version s + 1, numbered within each shard from 0. -/
def layerPatches (y : Site) (mem : List Host.Cell) (m : Manifest) (red : Reduction) (q : Cue) : List PatchDue :=
  match tensorOf y.chart q.outTensor with
  | none => []
  | some out =>
    let us := stagedUnits y mem out (packed y.chart m 0 (ownedIn red q.layer))
    let l := patchesOf m q.layer us
    l.zipIdx.map fun x =>
      { run := ((us.find? fun u => u.1 == x.1.2.1).getD (0, [], 0)).2.2, shard := x.1.1, offset := x.1.2.1,
        ordinal := ((l.take x.2).filter fun z => z.1 == x.1.1).length, plain := x.1.2.2 }

end Sys2Proof.Machine
end

