-- ==== Sys2Proof/Machine/Reduce.lean ====
section
/-! DEFINITION. REDUCE_SHARDS (chapters 8 and 9): opening the planes' contexts (R214 to R216), sending wire blocks (R179, R185,
R206), the owner's results (R198, R199), scale notices (R183), bounces (R197), signals (R217), ring mode (R220 to R224) and
the end of the command (R218). -/

namespace Sys2Proof.Machine

open Sys2Proof

/-! ### The reductions that run -/

/-- The slot whose collectives run: the one that holds the engine. -/
def collSlot (s : State) : Slot := (holder s).getD 0

/-- The reduction of a descriptor. -/
def redOf (s : State) (desc : Nat) : Option Reduction := s.coll.reds.find? fun r => r.descId == desc

/-- Replace the reduction of a descriptor. -/
def modRed (desc : Nat) (f : Reduction → Reduction) (s : State) : State :=
  { s with coll := { s.coll with reds := s.coll.reds.map fun r => if r.descId == desc then f r else r } }

/-- An event of chapter 9 (R236): cue holds desc_id, value holds seq. -/
def collEvent (code : Code) (desc seq : Nat) (loc : BitVec 32) (s : State) : State :=
  report { code := code, slot := BitVec.ofNat 8 (collSlot s), loc := loc, cue := desc, value := seq } s

/-- A collective message is discarded: counted under 0x0714 (R211). -/
def discardColl (desc : Nat) (s : State) : State :=
  report { code := 0x0714, slot := BitVec.ofNat 8 (collSlot s), isCount := true, cue := desc, value := s.coll.discards + 1 }
    { s with coll := { s.coll with discards := s.coll.discards + 1 } }

/-- The group size of the installed Chart. -/
def groupSizeOf (s : State) : Nat :=
  match installedChart s with
  | some c => c.groupSize
  | none => 1

/-- This member aborts a reduction (R231, R232): the symbol goes out once, and its own abort is noted. -/
def abortRed (desc : Nat) (code : Code) (s : State) : State :=
  match redOf s desc with
  | none => s
  | some r =>
    if !(r.aborts.isEmpty) then s
    else modRed desc (fun r => { r with aborts := [(ownMember s, code)] })
      (sendSymbol (ownAbort s desc r.step.toNat (tagNow s) code) s)

/-- A header of this member's messages. -/
def ownHdr (s : State) (desc : Nat) (seq : BitVec 32) (arg : Nat) (maskTag : BitVec 32) (sub : Nat) : CollHdr :=
  { sub := BitVec.ofNat 8 sub, descId := BitVec.ofNat 16 desc, seq := seq, arg := BitVec.ofNat 64 arg, sender := BitVec.ofNat 16 (ownMember s),
    groupSize := BitVec.ofNat 16 (groupSizeOf s), chartTag := tagNow s, maskTag := maskTag }

/-- The descriptor of a reduction. -/
def descOf (s : State) (desc : Nat) : CollDesc :=
  match installedChart s with
  | some c => collDesc c desc
  | none => noDesc desc

/-- A plane's answer in a reduction. -/
def answerOf (r : Reduction) (p : Nat) : PlaneAnswer :=
  match r.answers.find? fun a => a.1 == p with
  | some a => a.2.1
  | none => .unreachable

/-- Set a plane's answer and try. -/
def setAnswer (desc p : Nat) (a : PlaneAnswer) (try' : Nat) (s : State) : State :=
  modRed desc (fun r => { r with answers := r.answers.map fun x => if x.1 == p then (p, a, try') else x }) s

/-- A plane's port. -/
def portOfPlane (p : Nat) : PortId := Fin.ofNat 16 p

/-- Send OPEN on a plane (R214). -/
def sendOpen (desc p try' : Nat) (s : State) : State :=
  match redOf s desc with
  | none => s
  | some r =>
    let d := descOf s desc
    sendMsg (portOfPlane p) reducerEp
      (.open' (ownHdr s desc r.step 0 0 try') d.timeout d.quorum d.retryLimit d.retryGap (d.flags.getLsbD 0)) s

/-! ### Signals (R217) -/

/-- Send a route signal: one for each tile with a local output of the route. -/
def routeSignal (route ctr layer : Nat) (s : State) : State :=
  match s.installed, installedChart s with
  | some x, some c =>
    { s with signals := s.signals ++ (localOuts (routesInForce c x) route).map fun t =>
        { tile := Fin.ofNat 5184 t, ctr := ctr, layer := layer } }
  | _, _ => s

/-- The pass in progress is the one of a step. -/
def passIs (s : State) (step : BitVec 32) : Bool :=
  match passOf s with
  | some p => p.step == step
  | none => false

/-- The next layer's signal goes out once every owned block of that layer and above is settled. -/
def signalOnce (desc : Nat) (s : State) : State :=
  match redOf s desc, installedChart s with
  | some r, some c =>
    let d := collDesc c desc
    match c.layers.reverse[r.signalled]? with
    | none => s
    | some l =>
      if passIs s r.step && r.aborts.isEmpty && (r.owned.all fun o => decide (o.layer < l.layer) || o.settled) then
        let s := modRed desc (fun r => { r with signalled := r.signalled + 1 }) s
        if d.signalCtr < 64 then routeSignal d.signalRoute d.signalCtr 0xFFFF s else s
      else s
  | _, _ => s

/-- Send every signal that is due, in descending layer order. -/
def sendSignals (desc : Nat) (s : State) : State :=
  match installedChart s with
  | some c => c.layers.foldl (fun s _ => signalOnce desc s) s
  | none => s

/-! ### Scale notices and patches (R183, R166) -/

/-- Send the patches whose run's notice has gone out; an aborted reduction sends none (R219). -/
def flushPatches (i : Slot) (desc : Nat) (s : State) : State :=
  match redOf s desc with
  | none => s
  | some r =>
    if !(r.aborts.isEmpty) then s else
    let out := r.patchDue.filter fun p => r.noticed.contains p.run
    out.foldl (fun s p => sendPatch i p.shard p.offset (r.step + 1) p.ordinal p.plain s)
      (modRed desc (fun r => { r with patchDue := r.patchDue.filter fun p => !(r.noticed.contains p.run) }) s)

/-- Next exponent of an owned block (R183). -/
def nextExponent (now : Int) (r : Option ResultMsg) : Int :=
  match r with
  | none => now
  | some r => if sByte r.maxExp = -128 then now else max (-120) (min (sByte r.maxExp + 2) 120)

/-- Write a notice's entries into the scale table. -/
def putNotice (y : Site) (m : Manifest) (n : ScaleNotice) (mem : List Host.Cell) : List Host.Cell :=
  (List.range n.count.toNat).foldl (fun mem k =>
    let g := n.firstG.toNat + k
    match scaleTable y.chart (layerOfBlock y.chart m g) with
    | some t => if g < allBlocks y.chart m then putScale y t n.step g (sByte (n.exps.getD k 0)) mem else mem
    | none => mem) mem

/-- The notice of a run of this owner. -/
def noticeOf (y : Site) (mem : List Host.Cell) (red : Reduction) (run : Nat) : ScaleNotice :=
  let l := red.owned.filter fun o => o.g / 16 == run
  { step := red.step, firstG := BitVec.ofNat 64 (16 * run), count := BitVec.ofNat 16 l.length,
    exps := l.map fun o => ofSByte (nextExponent (match scaleTable y.chart o.layer with
      | some t => scaleNow y mem t o.g
      | none => 0) o.result) }

/-- A run is done: its notice goes out once, on plane P[run mod U], then its patches may. -/
def noticeRun (i : Slot) (desc run : Nat) (s : State) : State :=
  match redOf s desc, gradSite s i with
  | some r, some (y, m) =>
    if r.noticed.contains run || !((r.owned.filter fun o => o.g / 16 == run).all fun o => o.settled) then s
    else
      let n := noticeOf y s.mem r run
      let s := modRed desc (fun r => { r with noticed := r.noticed ++ [run] }) { s with mem := putNotice y m n s.mem }
      flushPatches i desc (sendMsg (portOfPlane (planeOf r.planeMask run)) (groupEp s) (.scaleNotice n) s)
  | _, _ => s

/-- The runs of this owner that are done as the command starts, all their blocks frozen: their notices go out at once (R183, log
entry 100). -/
def noticeAll (i : Slot) (desc : Nat) (s : State) : State :=
  match redOf s desc with
  | some r => ((r.owned.map fun o => o.g / 16).foldl insertNew []).foldl (fun s run => noticeRun i desc run s) s
  | none => s

/-- A notice from another owner (R183). -/
def takeNotice (n : ScaleNotice) (s : State) : State :=
  match holder s with
  | none => s
  | some i => match gradSite s i with
    | some (y, m) => { s with mem := putNotice y m n s.mem }
    | none => s

def execScaleNotice (p : PortId) (n : ScaleNotice) (s : State) : Host.Outcome State Fault Refusal :=
  .next (when' (portTakes s p && decide (n.count.toNat ≤ 16)) (takeNotice n) s)

/-! ### Mask records (R206) -/

/-- A 272-byte mask record. -/
def maskRecord (g : Nat) (step : BitVec 32) (layer : Nat) (mask : BitVec 2048) : Bytes :=
  toLe 8 g ++ toLe 4 step.toNat ++ toLe 2 layer ++ [0, 0] ++ maskBytes mask

/-- The recorded mask of a block in a replay log. -/
def replayMask (s : State) (i : Slot) (r : Reduction) (g : Nat) : Option (BitVec 2048) :=
  ((List.range (r.logLen / 272)).find? fun k =>
    let b := s.hdmBytes i (r.logAddr + 272 * k) 12
    leAt b 0 8 == g && leAt b 8 4 == r.step.toNat).map fun k => maskBits (s.hdmBytes i (r.logAddr + 272 * k + 16) 256)

/-- Replay-mask mode of a reduction. -/
def masksOn (s : State) (r : Reduction) : Bool := (descOf s r.descId).flags.getLsbD 1

/-- Members that a replayed block expects. -/
def expectedMask (s : State) (i : Slot) (r : Reduction) (g : Nat) : BitVec 2048 := (replayMask s i r g).getD (fullMask (groupSizeOf s))

/-- Members of a mask. -/
def countMask (m : BitVec 2048) : Nat := (maskMembers m).length

/-- Append a record where the mask does not hold every member. -/
def recordMask (i : Slot) (r : Reduction) (o : OwnedBlock) (mask : BitVec 2048) (s : State) : State :=
  if masksOn s r && !r.force && !(mask == fullMask (groupSizeOf s)) then
    modRed r.descId (fun x => { x with logUsed := x.logUsed + 1 })
      (storeBytes (hdmKey i (r.logAddr + 272 * r.logUsed)) (maskRecord o.g r.step o.layer mask) s)
  else s

/-! ### The owner (R198, R199) -/

/-- The plane of a block. -/
def redPlane (r : Reduction) (g : Nat) : Nat := planeOf r.planeMask g

/-- A block's plane is in ring mode. -/
def inRing (r : Reduction) (g : Nat) : Bool := decide (answerOf r (redPlane r g) = .ring)

/-- Where the owner's requests for a block go: the reducer, or in ring mode the group (R224). -/
def resultDst (s : State) (r : Reduction) (g : Nat) : BitVec 32 := if inRing r g then groupEp s else reducerEp

/-- A kept ring result is released. -/
def dropKept (step : BitVec 32) (g : Nat) (s : State) : State :=
  { s with coll := { s.coll with kept := s.coll.kept.filter fun k => !(k.1 == step.toNat && k.2.1 == g) } }

/-- A reference to a block. -/
def blockRef (s : State) (r : Reduction) (g : Nat) : BlockRef :=
  { step := r.step, g := BitVec.ofNat 64 g, member := BitVec.ofNat 16 (ownMember s) }

/-- An owned block of a reduction. -/
def ownedOf (r : Reduction) (g : Nat) : Option OwnedBlock := r.owned.find? fun o => o.g == g

/-- Replace an owned block. -/
def modOwned (desc g : Nat) (f : OwnedBlock → OwnedBlock) (s : State) : State :=
  modRed desc (fun r => { r with owned := r.owned.map fun o => if o.g == g then f o else o }) s

/-- An owned block is settled: its mask record, its run's notice, the layer signals. -/
def settleBlock (i : Slot) (desc g : Nat) (x : Option ResultMsg) (s : State) : State :=
  match redOf s desc with
  | none => s
  | some r => match ownedOf r g with
    | none => s
    | some o =>
      let s := modOwned desc g (fun o => { o with settled := true, result := x }) s
      let s := recordMask i r o (match x with
        | some x => x.contrib
        | none => 0) s
      sendSignals desc (noticeRun i desc (g / 16) s)

/-- An event of chapter 8 about a block and a member. -/
def blockEvent (code : Code) (g member : Nat) (s : State) : State :=
  report { code := code, slot := BitVec.ofNat 8 (collSlot s), cue := member, value := g } s

/-- RESULT_ACK: to the reducer, or in ring mode to the member that sent the result (R220); this member's own kept result is
released. -/
def ackResult (r : Reduction) (g : Nat) (src : BitVec 32) (s : State) : State :=
  if inRing r g && src == memberEp s (ownMember s) then dropKept r.step g s
  else sendMsg (portOfPlane (redPlane r g)) (if inRing r g then src else reducerEp) (.resultAck (blockRef s r g)) s

/-- A result's bytes go into the block's reserved buffer (R198). -/
def storeResult (i : Slot) (o : OwnedBlock) (x : ResultMsg) (s : State) : State :=
  match gradSite s i with
  | some (y, _) => match ownedKey y o with
    | some key => { s with mem := writeBytes s.mem key (resultBytes x) }
    | none => s
  | none => s

/-- A sound result is accepted (R199, case 5): ack, 0x0601 and 0x0602, and under mask_op 1 the comparison of R206. -/
def acceptResult (i : Slot) (r : Reduction) (o : OwnedBlock) (x : ResultMsg) (src : BitVec 32) (s : State) : State :=
  let g := x.g.toNat
  let s := ackResult r g src s
  let s := (maskMembers x.poison).foldl (fun s m => blockEvent 0x0601 g m s) s
  let s := (maskMembers x.overflow).foldl (fun s m => blockEvent 0x0602 g m s) s
  if masksOn s r && r.force && !(x.contrib == expectedMask s i r g) then abortRed r.descId 0x060C (blockEvent 0x060C g (ownMember s) s)
  else settleBlock i r.descId g (some { x with sums := [] }) (storeResult i o x s)

/-- Ask for a result again, or give up (R199, cases 3 and 4). -/
def askResult (i : Slot) (r : Reduction) (o : OwnedBlock) (s : State) : State :=
  if o.tries < (descOf s r.descId).retryLimit then
    modOwned r.descId o.g (fun o => { o with tries := o.tries + 1 })
      (sendMsg (portOfPlane (redPlane r o.g)) (resultDst s r o.g) (.resultReq (blockRef s r o.g)) s)
  else if o.badSum then abortRed r.descId 0x0605 (blockEvent 0x0605 o.g (ownMember s) s)
  else settleBlock i r.descId o.g none (blockEvent 0x0607 o.g (ownMember s) s)

/-- A result for an owned block whose buffer is reserved (R198, R199); a second, different result of a ring is 0x0704
(R224), a repeated one is acknowledged again. -/
def takeResult (i : Slot) (r : Reduction) (x : ResultMsg) (src : BitVec 32) (s : State) : State :=
  let g := x.g.toNat
  match ownedOf r g with
  | none => s
  | some o =>
    if !o.reserved && o.result.isNone then s
    else if o.settled then
      (if inRing r g && o.result.isSome && !(o.result == some { x with sums := [] }) then
         abortRed r.descId 0x0704 (collEvent 0x0704 r.descId r.step.toNat locNone s)
       else ackResult r g src s)
    else if x.kind = 0x11 then abortRed r.descId 0x0606 (blockEvent 0x0606 g (ownMember s) s)
    else if x.kind = 0x12 then abortRed r.descId 0x060C (blockEvent 0x060C g (ownMember s) s)
    else if checksum (x.sums.map fun w => w.toInt) ≠ x.checksum.toNat then
      askResult i r { o with badSum := true } (modOwned r.descId g (fun o => { o with badSum := true }) (blockEvent 0x060B g (ownMember s) s))
    else acceptResult i r o x src s

/-- The reduction that a message of a step and descriptor belongs to, while no abort runs. -/
def liveRed (s : State) (desc : Nat) (step : BitVec 32) : Option Reduction :=
  s.coll.reds.find? fun r => r.descId == desc && r.step == step && r.aborts.isEmpty

def execResult (p : PortId) (x : SentResult) (s : State) : Host.Outcome State Fault Refusal :=
  .next (match liveRed s x.msg.descId.toNat x.msg.step with
    | some r => if portTakes s p then takeResult (collSlot s) r x.msg x.src s else s
    | none => s)

/-- The running reduction of a step, while no abort runs. -/
def liveStep (s : State) (step : BitVec 32) : Option Reduction := s.coll.reds.find? fun r => r.step == step && r.aborts.isEmpty

def execNoBlock (p : PortId) (b : BlockRef) (s : State) : Host.Outcome State Fault Refusal :=
  .next (match liveStep s b.step with
    | some r => match ownedOf r b.g.toNat with
      | some o => if portTakes s p && o.reserved && !o.settled then askResult (collSlot s) r o s else s
      | none => s
    | none => s)

/-- No result within the owner's wait, or within the retry gap of a request (R199, R224). -/
def execResultTimeout (g : Nat) (s : State) : Host.Outcome State Fault Refusal :=
  .next (match s.coll.reds.find? fun r => r.aborts.isEmpty && r.owned.any fun o => o.g == g && o.reserved && !o.settled with
    | some r => match ownedOf r g with
      | some o => askResult (collSlot s) r o s
      | none => s
    | none => s)

/-! ### Ring mode (R220 to R224) -/

/-- Position of a member in a block's ring. -/
def ringPos (n g m : Nat) : Nat := (m + n - g % n) % n

/-- Member at a position. -/
def ringMember (n g pos : Nat) : Nat := (g + pos) % n

/-- No member appears in any mask. -/
def freshPartial (x : ResultMsg) : Bool := x.contrib == 0 && x.poison == 0 && x.overflow == 0

/-- The higher of two max_exp bytes. -/
def maxByte (a b : Byte) : Byte := if sByte a < sByte b then b else a

/-- Merge a contribution into a partial (R192, rules 1 to 4). -/
def mergeInto (x : ResultMsg) (c : Contribution) : ResultMsg :=
  let m := c.member.toNat
  let bit : BitVec 2048 := 1 <<< m
  if x.contrib.getLsbD m || x.poison.getLsbD m || x.overflow.getLsbD m then x
  else
    let x := if freshPartial x then
      { x with eAg := c.eAg, nElements := c.nElements, owner := c.owner, layer := c.layer, groupSize := c.groupSize } else x
    if c.kind = 4 || !(c.eAg == x.eAg) || !(c.owner == x.owner) || !(c.nElements == x.nElements) || !(c.layer == x.layer) ||
        !(c.groupSize == x.groupSize) then { x with poison := x.poison ||| bit }
    else if c.kind = 5 then { x with overflow := x.overflow ||| bit, maxExp := maxByte x.maxExp c.maxExp }
    else
      let ms := decodeMantissas c
      let e := c.escape.toNat % 8
      { x with
        contrib := x.contrib ||| bit, nCounted := x.nCounted + 1, maxExp := maxByte x.maxExp c.maxExp,
        checksum := BitVec.ofNat 32 ((x.checksum.toNat + c.checksum.toNat * 2 ^ e) % (2 ^ 31 - 1)),
        sums := (List.range c.nElements.toNat).map fun j => x.sums.getD j 0 + BitVec.ofInt 32 (ms.getD j 0 * 2 ^ e) }

/-- The partial that position 0 starts with. -/
def newPartial (s : State) (r : Reduction) (b : WireBlock) : ResultMsg :=
  { kind := 0x40, eAg := 0, maxExp := 0x80, nElements := BitVec.ofNat 16 b.size, nCounted := 0,
    plane := BitVec.ofNat 16 (redPlane r b.g), owner := BitVec.ofNat 16 (ownerOf (groupSizeOf s) b.g),
    groupSize := BitVec.ofNat 16 (groupSizeOf s), step := r.step, layer := BitVec.ofNat 16 b.layer, descId := BitVec.ofNat 16 r.descId,
    g := BitVec.ofNat 64 b.g, checksum := 0, contrib := 0, poison := 0, overflow := 0, sums := List.replicate b.size 0 }

/-- Members that a result needs (R193). -/
def quorumOf (d : CollDesc) (n : Nat) : Nat := max 1 ((d.quorum * n + 99) / 100)

/-- Kind of the result that the ring's last member sends (R220, R223). -/
def ringKind (s : State) (i : Slot) (r : Reduction) (x : ResultMsg) : Byte :=
  let n := countMask x.contrib
  if masksOn s r && r.force && n ≠ countMask (expectedMask s i r x.g.toNat) then 0x12
  else if n < quorumOf (descOf s r.descId) (groupSizeOf s) then 0x11 else 0x10

/-- A kept ring result whose owner is this member is taken once its block's buffer is reserved (R198, R224). -/
def takeKept (i : Slot) (desc g : Nat) (s : State) : State :=
  match redOf s desc with
  | none => s
  | some r => match s.coll.kept.find? fun k => k.1 == r.step.toNat && k.2.1 == g && k.2.2.owner.toNat == ownMember s with
    | some k => takeResult i r k.2.2 (memberEp s (ownMember s)) s
    | none => s

/-- The ring ends here: the result is kept until its ack (R224) and goes to the owner, who may be this member. -/
def finishRing (i : Slot) (desc : Nat) (x : ResultMsg) (s : State) : State :=
  match redOf s desc with
  | none => s
  | some r =>
    let k := ringKind s i r x
    let y := { x with kind := k, sums := if k = 0x10 then x.sums else [] }
    let s := dropKept r.step x.g.toNat s
    let s := { s with coll := { s.coll with kept := s.coll.kept ++ [(r.step.toNat, x.g.toNat, y)] } }
    if x.owner.toNat = ownMember s then takeKept i desc x.g.toNat s
    else sendMsg (portOfPlane (redPlane r x.g.toNat)) (memberEp s x.owner.toNat) (.ringResult y) s

/-- Send a partial to a position (R222), or end the ring past the last one. -/
def sendHop (i : Slot) (desc : Nat) (pos : Nat) (x : ResultMsg) (s : State) : State :=
  match redOf s desc with
  | none => s
  | some r =>
    let n := groupSizeOf s
    let g := x.g.toNat
    if n ≤ pos then finishRing i desc x s
    else
      sendMsg (portOfPlane (redPlane r g)) (memberEp s (ringMember n g pos)) (.ringPartial x)
        (modRed desc (fun r => { r with ringHops := r.ringHops ++ [{ g := g, position := pos, cancelSent := false, msg := x }] }) s)

/-- Pass a partial on from this member. -/
def forwardOn (i : Slot) (desc : Nat) (x : ResultMsg) (s : State) : State :=
  sendHop i desc (ringPos (groupSizeOf s) x.g.toNat (ownMember s) + 1) x s

/-- Fold a contribution of a block and count it; one without a place is dropped under 0x060A and not counted (R197, R207). -/
def countedFold (code : Nat) (i : Slot) (y : Site) (b : WireBlock) (c : Contribution) (s : State) : State :=
  let e := layerErr y.chart b.layer
  let t := addFold i y b e (decodeContribution c) s
  if foldPlaced s i b e then countBlock code b.layer t else t

/-- Fold an encoded ring contribution (R223): counted under 0x0715. -/
def foldRing (i : Slot) (c : Contribution) (s : State) : State :=
  match gradSite s i with
  | none => s
  | some (y, m) => match wireBlock y.chart m c.g.toNat with
    | none => s
    | some b => if 4 ≤ c.kind.toNat then s else countedFold 0x0715 i y b c s

/-- The member's part of a block is ready, a contribution or a withheld block: position 0 starts the partial, a held partial
goes on, another contribution waits for its partial. -/
def ringContribute (i : Slot) (desc : Nat) (b : WireBlock) (c : Option Contribution) (s : State) : State :=
  match redOf s desc with
  | none => s
  | some r =>
    let merge (x : ResultMsg) : ResultMsg := match c with
      | some c => mergeInto x c
      | none => x
    if r.ringLate.contains b.g || r.ringCancelled.contains b.g then
      (match c with
        | some c => foldRing i c s
        | none => s)
    else if ringPos (groupSizeOf s) b.g (ownMember s) = 0 then forwardOn i desc (merge (newPartial s r b)) s
    else match find? r.ringHeld b.g with
      | some x => forwardOn i desc (merge x) (modRed desc (fun r => { r with ringHeld := dropPair r.ringHeld b.g }) s)
      | none => match c with
        | some c => modRed desc (fun r => { r with ringWait := r.ringWait ++ [(b.g, c)] }) s
        | none => s

/-- A partial arrives for a running reduction. -/
def takePartial (i : Slot) (p : PortId) (r : Reduction) (x : ResultMsg) (sender : BitVec 16) (s : State) : State :=
  let g := x.g.toNat
  let ack (s : State) : State := sendMsg p (memberEp s sender.toNat) (.hopAck (ownHdr s r.descId r.step g 0 0)) s
  if r.ringCancelled.contains g then s
  else if r.ringTaken.contains g then ack s
  else
    let s := ack (modRed r.descId (fun r => { r with ringTaken := r.ringTaken ++ [g] }) s)
    match find? r.ringWait g with
    | some c => forwardOn i r.descId (mergeInto x c) (modRed r.descId (fun r => { r with ringWait := dropPair r.ringWait g }) s)
    | none =>
      if r.withheld.contains g || r.ringLate.contains g || r.sent.contains g then forwardOn i r.descId x s
      else modRed r.descId (fun r => { r with ringHeld := r.ringHeld ++ [(g, x)] }) s

/-- The lowest seq that a member holds messages for (R211): above the last completed and the running instance. -/
def seqFloor (s : State) (desc : Nat) : Option Nat :=
  let running := (s.coll.insts.filter fun x => x.descId == desc).map (fun x => x.seq) ++
    (s.coll.reds.filter fun r => r.descId == desc).map fun r => r.step.toNat
  (running ++ (find? (s.ctxOf (collSlot s)).lastSeq desc).toList).max?

/-- The seq is above the floor. -/
def aboveFloor (s : State) (desc seq : Nat) : Bool :=
  match seqFloor s desc with
  | some n => decide (n < seq)
  | none => true

/-- A message's instance is expected (R211): the Chart has its descriptor for the command, and its seq is the lowest above the floor. -/
def expects (s : State) (command : Nat) (m : HeldMsg) : Bool :=
  let k := heldKey m
  (match installedChart s with
    | some c => c.collectives.any fun d => d.id == k.1 && d.command == command
    | none => false) &&
  k.2.2 == tagNow s && aboveFloor s k.1 k.2.1 && !((s.coll.held.map heldKey).any fun x => x.1 == k.1 && decide (x.2.1 < k.2.1))

/-- Hold a message for the next instance of its descriptor; one that is not expected is discarded (R211). -/
def holdMsg (command : Nat) (m : HeldMsg) (s : State) : State :=
  let k := heldKey m
  if !(expects s command m) then discardColl k.1 s
  else
    let (old, keep) := s.coll.held.partition fun x => (heldKey x).1 == k.1 && decide (k.2.1 < (heldKey x).2.1)
    old.foldl (fun s _ => discardColl k.1 s) { s with coll := { s.coll with held := keep ++ [m] } }

/-- A held HOP_CANCEL of an instance names a block. -/
def heldCancels (l : List HeldMsg) (desc seq g : Nat) : Bool :=
  l.any fun m => match m with
    | .cancel h => h.descId.toNat == desc && h.seq.toNat == seq && h.arg.toNat == g
    | _ => false

def execRingPartial (p : PortId) (x : ResultMsg) (sender : BitVec 16) (tag : BitVec 32) (s : State) : Host.Outcome State Fault Refusal :=
  .next (if !(portTakes s p) then s
    else if !(tag == tagNow s) then discardColl x.descId.toNat s
    else match s.coll.reds.find? fun r => r.descId == x.descId.toNat && r.step == x.step with
      | some r => if r.aborts.isEmpty then takePartial (collSlot s) p r x sender s else s
      | none => if heldCancels s.coll.held x.descId.toNat x.step.toNat x.g.toNat then s else holdMsg 1 (.ringPartial p x sender tag) s)

/-- The reduction that a 64-byte ring message belongs to; others are discarded. -/
def ringMsg (p : PortId) (h : CollHdr) (f : Reduction → State → State) (s : State) : State :=
  if !(portTakes s p) then s
  else if !(h.chartTag == tagNow s) then discardColl h.descId.toNat s
  else match s.coll.reds.find? fun r => r.descId == h.descId.toNat && r.step == h.seq with
    | some r => if r.aborts.isEmpty then f r s else s
    | none => discardColl h.descId.toNat s

/-- The hop of a block. -/
def hopOf (r : Reduction) (g : Nat) : Option RingHop := r.ringHops.find? fun x => x.g == g

/-- A hop is over. -/
def dropHop (desc g : Nat) (s : State) : State :=
  modRed desc (fun r => { r with ringHops := r.ringHops.filter fun x => !(x.g == g) }) s

/-- The message comes from the member that the hop was sent to. -/
def fromTarget (s : State) (x : RingHop) (h : CollHdr) : Bool := h.sender.toNat == ringMember (groupSizeOf s) x.g x.position

def execHopAck (p : PortId) (h : CollHdr) (s : State) : Host.Outcome State Fault Refusal :=
  .next (ringMsg p h (fun r s => match hopOf r h.arg.toNat with
    | some x => if fromTarget s x h then dropHop r.descId x.g s else s
    | none => s) s)

/-- The target is skipped: 0x0712, and the next position (R222). -/
def skipHop (i : Slot) (r : Reduction) (x : RingHop) (s : State) : State :=
  let s := report { code := 0x0712, slot := BitVec.ofNat 8 i, cue := r.descId, value := ringMember (groupSizeOf s) x.g x.position } (dropHop r.descId x.g s)
  sendHop i r.descId (x.position + 1) x.msg s

def execCancelAck (p : PortId) (h : CollHdr) (s : State) : Host.Outcome State Fault Refusal :=
  .next (ringMsg p h (fun r s => match hopOf r h.arg.toNat with
    | some x => if fromTarget s x h && x.cancelSent then skipHop (collSlot s) r x s else s
    | none => s) s)

/-- HOP_CANCEL: HOP_ACK again where the partial was accepted; otherwise CANCEL_ACK, and the contribution is folded (R222). -/
def takeCancel (i : Slot) (p : PortId) (h : CollHdr) (r : Reduction) (s : State) : State :=
  let g := h.arg.toNat
  let reply := ownHdr s r.descId r.step g 0 0
  if r.ringTaken.contains g then sendMsg p (memberEp s h.sender.toNat) (.hopAck reply) s
  else
    let s := modRed r.descId (fun r => { r with ringCancelled := insertNew r.ringCancelled g, ringWait := dropPair r.ringWait g }) s
    let s := match find? r.ringWait g with
      | some c => foldRing i c s
      | none => s
    sendMsg p (memberEp s h.sender.toNat) (.cancelAck reply) s

/-- HOP_CANCEL for an instance that this member holds: no partial of it is accepted yet, so it is answered with CANCEL_ACK, a held
partial of the block is discarded and the cancel is held for the start (R211, R222). -/
def holdCancel (p : PortId) (h : CollHdr) (s : State) : State :=
  if !(expects s 1 (.cancel h)) then discardColl h.descId.toNat s
  else
    let keep (m : HeldMsg) : Bool := match m with
      | .ringPartial _ x _ _ => !(x.descId == h.descId && x.step == h.seq && x.g == h.arg)
      | _ => true
    sendMsg p (memberEp s h.sender.toNat) (.cancelAck (ownHdr s h.descId.toNat h.seq h.arg.toNat 0 0))
      (holdMsg 1 (.cancel h) { s with coll := { s.coll with held := s.coll.held.filter keep } })

def execHopCancel (p : PortId) (h : CollHdr) (s : State) : Host.Outcome State Fault Refusal :=
  .next (match s.coll.reds.find? fun r => r.descId == h.descId.toNat && r.step == h.seq with
    | some _ => ringMsg p h (fun r s => takeCancel (collSlot s) p h r s) s
    | none => when' (portTakes s p) (holdCancel p h) s)

/-- H without a HOP_ACK: HOP_CANCEL; a second H: the target is skipped. -/
def hopExpires (i : Slot) (r : Reduction) (x : RingHop) (s : State) : State :=
  if x.cancelSent then skipHop i r x s
  else
    sendMsg (portOfPlane (redPlane r x.g)) (memberEp s (ringMember (groupSizeOf s) x.g x.position))
      (.hopCancel (ownHdr s r.descId r.step x.g 0 0))
      (modRed r.descId (fun r => { r with ringHops := r.ringHops.map fun y => if y.g == x.g then { y with cancelSent := true } else y }) s)

def execHopTimeout (g : Nat) (s : State) : Host.Outcome State Fault Refusal :=
  .next (match s.coll.reds.find? fun r => r.aborts.isEmpty && (hopOf r g).isSome with
    | some r => match hopOf r g with
      | some x => hopExpires (collSlot s) r x s
      | none => s
    | none => s)

/-- D passed, or B_ring under mask_op 1, and g is not encoded: the partial goes on without this member (R223). -/
def execPartialHoldTimeout (g : Nat) (s : State) : Host.Outcome State Fault Refusal :=
  .next (match s.coll.reds.find? fun r => r.aborts.isEmpty && (find? r.ringHeld g).isSome with
    | some r => match find? r.ringHeld g with
      | some x => forwardOn (collSlot s) r.descId x
          (modRed r.descId (fun r => { r with ringHeld := dropPair r.ringHeld g, ringLate := insertNew r.ringLate g }) s)
      | none => s
    | none => s)

/-- B_ring passed without the partial: the waiting contribution is folded (R223). -/
def execRingContributionTimeout (g : Nat) (s : State) : Host.Outcome State Fault Refusal :=
  .next (match s.coll.reds.find? fun r => r.aborts.isEmpty && (find? r.ringWait g).isSome with
    | some r => match find? r.ringWait g with
      | some c => foldRing (collSlot s) c
          (modRed r.descId (fun r => { r with ringWait := dropPair r.ringWait g, ringLate := insertNew r.ringLate g }) s)
      | none => s
    | none => s)

/-- The result this member keeps for a block of a step; while an abort of the step runs it sends none (R232). -/
def keptOf (s : State) (step : BitVec 32) (g : Nat) : Option ResultMsg :=
  if s.coll.reds.any fun r => r.step == step && !(r.aborts.isEmpty) then none
  else (s.coll.kept.find? fun k => k.1 == step.toNat && k.2.1 == g).map fun k => k.2.2

/-- A kept ring result is sent again, or released (R224). -/
def execResultReq (p : PortId) (b : BlockRef) (s : State) : Host.Outcome State Fault Refusal :=
  .next (match keptOf s b.step b.g.toNat with
    | some x => if portTakes s p then sendMsg p (memberEp s x.owner.toNat) (.ringResult x) s else s
    | none => s)

def execResultAck (p : PortId) (b : BlockRef) (s : State) : Host.Outcome State Fault Refusal :=
  .next (when' (portTakes s p) (dropKept b.step b.g.toNat) s)

/-! ### Sending wire blocks (R179, R185 to R188, R197, R206) -/

/-- The block may leave: its plane has its final answer, and a ring's side buffer has room (R214, R221). -/
def mayLeave (r : Reduction) (g : Nat) : Bool :=
  match answerOf r (redPlane r g) with
  | .waiting => false
  | .ring => decide ((r.ringWait.filter fun x => redPlane r x.1 == redPlane r g).length < 64)
  | _ => true

/-- A replayed step's record leaves this member out of a block (R206). -/
def leftOut (s : State) (i : Slot) (r : Reduction) (g : Nat) : Bool :=
  masksOn s r && r.force && !((expectedMask s i r g).getLsbD (ownMember s))

/-- The block is withheld: its plane cannot be reached, or a replayed step's record leaves this member out. -/
def withholds (s : State) (i : Slot) (r : Reduction) (g : Nat) : Bool :=
  decide (answerOf r (redPlane r g) = .unreachable) || !(decide ((s.portOf (portOfPlane (redPlane r g))).state = .up)) || leftOut s i r g

/-- Note that a block has left or is withheld. -/
def markSent (desc g : Nat) (gone : Bool) (s : State) : State :=
  modRed desc (fun r => if gone then { r with sent := r.sent ++ [g] } else { r with withheld := r.withheld ++ [g] }) s

/-- Fold a block's values as they are; a block with a non-finite value is cleared (R185). -/
def foldWhole (quiet : Bool) (i : Slot) (y : Site) (b : WireBlock) (e : ErrMem) (xs : List Num) (s : State) : State :=
  if xs.any fun x => !x.finite then errClear i y b e s else foldBlock quiet i y b e xs s

/-- A ring's withheld block still lets a partial go on. -/
def passRing (i : Slot) (r : Reduction) (b : WireBlock) (s : State) : State := if inRing r b.g then ringContribute i r.descId b none s else s

/-- Send an encoded contribution on its plane. -/
def launch (i : Slot) (r : Reduction) (b : WireBlock) (c : Contribution) (s : State) : State :=
  let s := markSent r.descId b.g true s
  if inRing r b.g then ringContribute i r.descId b (some c) s else sendMsg (portOfPlane (redPlane r b.g)) reducerEp (.contribution c) s

/-- Encode one block and send or fold it. -/
def encodeOne (i : Slot) (y : Site) (m : Manifest) (r : Reduction) (q : Cue) (b : WireBlock) (xs : List Num) (e : ErrMem) (s : State) : State :=
  let table := tensorOf y.chart q.auxTensor
  let eAg := match table with
    | some t => usableScale y s.mem m t r.step b.g
    | none => none
  let now := match table with
    | some t => scaleNow y s.mem t b.g
    | none => 0
  let expected := if masksOn s r && r.force then some (countMask (expectedMask s i r b.g)) else none
  let x := encodeBlock (contribution r y.chart (ownMember s) b now expected) (kindOf y.chart r.planeMask b.layer) eAg xs
  let s := settleErr i y b e x s
  match x.msg with
  | none => passRing i r b (markSent r.descId b.g false (blockEvent 0x0608 b.g (ownMember s) s))
  | some c => launch i r b c (if 0 < c.escape.toNat then countBlock 0x0603 b.layer s else s)

/-- The automatic one-bit fall-back is reported once per step, at its first SEND_BLOCKS, with the cue's first block (R188, R207). -/
def sayOneBit (r : Reduction) (g : Nat) (s : State) : State :=
  if decide ((planesOf r.planeMask).length < 12) && !r.oneBitSaid then
    report { code := 0x060E, slot := BitVec.ofNat 8 (collSlot s), value := g } (modRed r.descId (fun r => { r with oneBitSaid := true }) s)
  else s

/-- The block has left, or no member sends it. -/
def blockGone (s : State) (y : Site) (m : Manifest) (r : Reduction) (g : Nat) : Bool :=
  r.sent.contains g || r.withheld.contains g || match wireBlock y.chart m g with
    | some b => blockUnsent y s.mem m b
    | none => true

/-- The buffer that an owned block reserves (R198): the lowest of its layer's result buffers that no block holds; the outer none says
that all of them are held, and the block waits (log entry 100). A layer without an optimizer cue has no buffers. -/
def bufferFor (s : State) (y : Site) (r : Reduction) (b : WireBlock) : Option (Option (Nat × Nat)) :=
  match ownedOf r b.g, bufferTensor y.chart b.layer with
  | some _, some t =>
    let held := s.coll.reds.flatMap fun r => r.owned.filterMap fun o => o.buffer
    ((List.range ((placesOf y.chart y.inst t.id).map buffersIn).sum).find? fun k => !(held.contains (t.id, k))).map fun k => some (t.id, k)
  | _, _ => some none

/-- One block of a wire cue: the owner reserves its buffer, then the block leaves or is withheld (R185, R197, R198); the ledger notes
its maximum exponent (R144). -/
def sendBlock (i : Slot) (y : Site) (m : Manifest) (q : Cue) (desc : Nat) (s : State) (g : Nat) : State :=
  match redOf s desc, wireBlock y.chart m g, tensorOf y.chart q.aTensor with
  | some r, some b, some a =>
    match bufferFor s y r b with
    | none => s
    | some buf =>
      if blockGone s y m r g || !(mayLeave r g) then s
      else
        let s := modOwned desc g (fun o => { o with reserved := true, buffer := buf }) s
        let s := { s with coll := { s.coll with lastEncode := setPair s.coll.lastEncode g r.step.toNat } }
        let e := errMemOf y.chart q.bTensor
        let xs := gradientBlock s i y a b e
        let s := modCtx i (fun c => { c with blockMax := setPair c.blockMax g (maxOrder xs) }) s
        takeKept i desc g (if withholds s i r g then passRing i r b (markSent desc g false (foldWhole (leftOut s i r g) i y b e xs s))
          else encodeOne i y m r q b xs e s)
  | _, _, _ => s

/-- Global indices of a wire cue's blocks. -/
def cueBlocks (c : Chart) (m : Manifest) (q : Cue) : List Nat :=
  (List.range (q.field 106 92 + 1)).map fun k => firstBlock c m q.layer + q.field 126 107 + k

/-- A wire cue sends what may leave. -/
def sendWire (i : Slot) (q : Cue) (s : State) : State :=
  match redOf s q.descId, gradSite s i with
  | some r, some (y, m) =>
    if r.aborts.isEmpty then (cueBlocks y.chart m q).foldl (sendBlock i y m q q.descId) (sayOneBit r ((cueBlocks y.chart m q).headD 0) s) else s
  | _, _ => s

/-- Every block of a wire cue is gone. -/
def wireDone (s : State) (i : Slot) (q : Cue) : Bool :=
  match redOf s q.descId, gradSite s i with
  | some r, some (y, m) => (cueBlocks y.chart m q).all (blockGone s y m r)
  | _, _ => false

/-- The reduction of the step has started for a wire cue (R214). -/
def wireReady (s : State) (q : Cue) : Bool :=
  match redOf s q.descId with
  | some r => passIs s r.step
  | none => false

/-! ### Bounces (R197) -/

/-- A bounce of this member's own contribution. -/
def takeBounce (i : Slot) (c : Contribution) (s : State) : State :=
  match gradSite s i with
  | none => s
  | some (y, m) => match wireBlock y.chart m c.g.toNat with
    | none => s
    | some b =>
      if 4 ≤ c.kind.toNat then s
      else if decide (c.step.toNat < (find? s.coll.lastEncode b.g).getD 0) then blockEvent 0x0609 b.g (ownMember s) s
      else countedFold 0x0604 i y b c s

def execBounce (p : PortId) (c : Contribution) (s : State) : Host.Outcome State Fault Refusal :=
  .next (when' (portTakes s p && c.flags.getLsbD 7 && decide (c.member.toNat = ownMember s) && (holder s).isSome)
    (takeBounce (collSlot s) c) s)

/-! ### Opening (R214 to R216) -/

/-- The plane cannot be reached in this step: 0x0717. -/
def loseMsgPlane (r : Reduction) (p : Nat) (s : State) : State :=
  collEvent 0x0717 r.descId r.step.toNat (locPort p) (setAnswer r.descId p .unreachable 0 s)

/-- A plane's answer to OPEN. -/
def takeReply (p : PortId) (h : CollHdr) (try' : Nat) (r : Reduction) (s : State) : State :=
  if h.sub = 1 then setAnswer r.descId p .accepted try' s
  else if h.sub = 2 then
    report { code := 0x0710, slot := BitVec.ofNat 8 (collSlot s), isCount := true, loc := locPort p, cue := r.descId, value := try' + 1 } s
  else if h.sub = 3 then collEvent 0x0711 r.descId r.step.toNat (locPort p) (setAnswer r.descId p .ring try' s)
  else if h.sub = 4 then abortRed r.descId 0x0703 (collEvent 0x0703 r.descId r.step.toNat (locPort p) s)
  else discardColl r.descId s

def execOpenReply (p : PortId) (h : CollHdr) (s : State) : Host.Outcome State Fault Refusal :=
  .next (ringMsg p h (fun r s => match r.answers.find? fun a => a.1 == p.val && decide (a.2.1 = .waiting) with
    | some a => takeReply p h a.2.2 r s
    | none => s) s)

/-- retry_gap after a WAIT, or H without a reply: the next try, or after the last the plane is unreachable (R216). -/
def retryOpen (p : PortId) (r : Reduction) (s : State) : State :=
  match r.answers.find? fun a => a.1 == p.val && decide (a.2.1 = .waiting) with
  | none => s
  | some a =>
    if a.2.2 < (descOf s r.descId).retryLimit then sendOpen r.descId p (a.2.2 + 1) (setAnswer r.descId p .waiting (a.2.2 + 1) s)
    else loseMsgPlane r p s

def execOpenRetry (p : PortId) (s : State) : Host.Outcome State Fault Refusal :=
  .next (match s.coll.reds.find? fun r => r.aborts.isEmpty && r.answers.any fun a => a.1 == p.val && decide (a.2.1 = .waiting) with
    | some r => retryOpen p r s
    | none => s)

/-! ### The command (R210, R213, R214, R218) -/

/-- The blocks that this member owns; a block that no member sends is settled from the start. -/
def ownedBlocks (s : State) (i : Slot) : List OwnedBlock :=
  match gradSite s i with
  | none => []
  | some (y, m) =>
    ((List.range (allBlocks y.chart m)).filter fun g => ownerOf y.chart.groupSize g == ownMember s).map fun g =>
      let b := wireBlock y.chart m g
      { g := g, layer := layerOfBlock y.chart m g, reserved := false, tries := 0, badSum := false,
        settled := (match b with
          | some b => blockUnsent y s.mem m b
          | none => true),
        buffer := none, result := none }

/-- Why a REDUCE_SHARDS is refused with 0x0709. -/
def reduceBad (s : State) (i : Slot) (b : CollBody) (w : ReduceBody) : Bool :=
  match runningChart s i with
  | none => true
  | some c =>
    match c.collectives.find? fun d => d.id == b.descId with
    | none => true
    | some d =>
      !(d.command == 1) || !(aboveFloor s b.descId b.seq) || !(b.maskAddr == 0) || decide (1 < w.maskOp) ||
        !(inHdm s i w.logAddr w.logLen) || (w.maskOp == 0 && decide (w.logLen < 272 * (ownedBlocks s i).length))

/-- A step's pass ends with the code of its reduction (R214, R219); where it has not started and `unsent` blocks wait for it, the
code is kept for it. -/
def endStepPass (i : Slot) (step : BitVec 32) (code : Code) (unsent : Bool) (s : State) : State :=
  if passIs s step then endPass code s
  else if unsent then { s with coll := { s.coll with ended := some (i, step.toNat, code) } }
  else s

/-- Some block of the step has not left and is not withheld. -/
def anyUnsent (s : State) (i : Slot) (r : Reduction) : Bool :=
  match gradSite s i with
  | some (y, m) => !((List.range (allBlocks y.chart m)).all (blockGone s y m r))
  | none => false

/-- The abort that is lowest by (initiator, error) (R232). -/
def lowestAbort : List (Nat × Code) → Nat × Code
  | [] => (0xFFFF, 0)
  | a :: l => l.foldl (fun x y => if y.1 < x.1 ∨ (y.1 = x.1 ∧ y.2.toNat < x.2.toNat) then y else x) a

/-- An aborted reduction ends with the chosen abort; its step's pass ends with the same code (R219, R232). -/
def abortedRed (i : Slot) (r : Reduction) (a : Nat × Code) (s : State) : State :=
  endStepPass i r.step a.2 (anyUnsent s i r) (endRed i a.2 a.1 (modModel i (fun m => { m with patches := [] })
    { s with coll := { s.coll with kept := s.coll.kept.filter fun k => !(k.1 == r.step.toNat) } }) r)

/-- The held messages of an instance that starts: those of its seq under the installed Chart's tag (R211). -/
def heldFor (s : State) (desc seq : Nat) : List HeldMsg := s.coll.held.filter fun m => heldKey m == (desc, seq, tagNow s)

/-- Held messages of the instance that another Chart sent are discarded (R211). -/
def discardStale (desc seq : Nat) (s : State) : State :=
  (s.coll.held.filter fun m => (heldKey m).1 == desc && (heldKey m).2.1 == seq && !((heldKey m).2.2 == tagNow s)).foldl
    (fun s _ => discardColl desc s) s

/-- Aborts among held messages. -/
def heldAborts (l : List HeldMsg) : List (Nat × Code) :=
  l.filterMap fun m => match m with
    | .abort a => some (a.initiator.toNat, a.error)
    | _ => none

/-- Held messages that stay when an instance of their descriptor starts: those of a later seq. -/
def heldLater (desc seq : Nat) (l : List HeldMsg) : List HeldMsg :=
  l.filter fun m => !((heldKey m).1 == desc) || decide (seq < (heldKey m).2.1)

/-- REDUCE_SHARDS runs; an instance that was aborted while it was held completes at once with the abort (R232). -/
def reduceRun (i : Slot) (q : QId) (r : Ready) (b : CollBody) (w : ReduceBody) (s : State) : State :=
  let cmd := { cmdOf q r.idx r.entry with key := b.descId }
  let held := s.coll.held
  let mine := heldFor s b.descId b.seq
  let red : Reduction := {
    cmd := cmd, descId := b.descId, step := BitVec.ofNat 32 b.seq, planeMask := w.planeMask, force := w.maskOp == 1, f := w.f, bc1 := w.bc1,
    bc2 := w.bc2, logAddr := w.logAddr, logLen := w.logLen, logUsed := 0, answers := (planesOf w.planeMask).map fun p => (p, .waiting, 0),
    sent := [], withheld := [], owned := ownedBlocks s i, noticed := [], patchDue := [], patched := [], signalled := 0, ringHops := [],
    ringWait := [], ringHeld := [], ringTaken := [], ringLate := [],
    ringCancelled := mine.filterMap fun m => match m with
      | .cancel h => some h.arg.toNat
      | _ => none,
    oneBitSaid := false, aborts := heldAborts mine }
  let s := flushCounts i (fun _ => true) (discardStale b.descId b.seq s)
  let s := addRunning i cmd { s with coll := { s.coll with
    reds := s.coll.reds ++ [red], held := heldLater b.descId b.seq held,
    ended := match s.coll.ended with
      | some e => if e.1 = i ∧ e.2.1 = b.seq then none else some e
      | none => none } }
  if !(red.aborts.isEmpty) then abortedRed i red (lowestAbort red.aborts) s
  else
    let s := (planesOf w.planeMask).foldl (fun s p => sendOpen b.descId p 0 s) s
    let s := mine.foldl (fun s m => match m with
      | .ringPartial p x sender _ => match redOf s b.descId with
        | some r => takePartial i p r x sender s
        | none => s
      | _ => s) s
    sendSignals b.descId (noticeAll i b.descId s)

def reduceStart (i : Slot) (q : QId) (r : Ready) (s : State) : State :=
  let b := parseColl r.entry.body
  let w := parseReduce r.entry.body
  if reduceBad s i b w then refuseStart i q r 0x0709 0 s
  else if w.planeMask = 0 then endStepPass i (BitVec.ofNat 32 b.seq) 0x0708 true (refuseStart i q r 0x0708 0 s)
  else reduceRun i q r b w s

def execReduceShards (i : Slot) (q : QId) (s : State) : Host.Outcome State Fault Refusal :=
  .next (startRow 0x30 reduceStart i q s)

/-- A layer has an optimizer cue. -/
def hasOptimizer (c : Chart) (l : Nat) : Bool :=
  c.cues.any fun p => p.2.any fun q => q.kind == 4 && decide (10 ≤ q.kernel) && q.layer == l

/-- What R218 asks, but for CLOSE. -/
def reduceDone (s : State) (i : Slot) (r : Reduction) : Bool :=
  r.aborts.isEmpty && r.ringHops.isEmpty && r.ringWait.isEmpty && r.ringHeld.isEmpty && r.patchDue.isEmpty &&
    (r.owned.all fun o => o.settled && r.noticed.contains (o.g / 16)) &&
    match gradSite s i, (s.ctxOf i).model with
    | some (y, m), some md =>
      md.patches.isEmpty && (List.range (allBlocks y.chart m)).all (blockGone s y m r) &&
        r.owned.all fun o => r.patched.contains o.layer || !(hasOptimizer y.chart o.layer)
    | _, _ => true

/-- CLOSE goes out on every plane, and the command completes. -/
def finishReduce (i : Slot) (r : Reduction) (s : State) : State :=
  let s := (planesOf r.planeMask).foldl (fun s p => sendMsg (portOfPlane p) reducerEp (.close (ownHdr s r.descId r.step 0 0 0)) s) s
  endRed i 0 0xFFFF s r

def execReduceShardsComplete (s : State) : Host.Outcome State Fault Refusal :=
  .next (match s.coll.reds.find? (reduceDone s (collSlot s)) with
    | some r => finishReduce (collSlot s) r s
    | none => s)

end Sys2Proof.Machine
end

