-- ==== Sys2Proof/Machine/Vector.lean ====
section
/-! DEFINITION. The vector unit's registers and the operations of Table 4-1 on them (R64, R79, R80). The kernels of Table 6-4 are
built of these operations; no command and no cue names one alone, and no rule names the registers that a kernel uses (log
entry 88). Reductions, conversions, function evaluation and the generator stand in Numbers.lean. -/

namespace Sys2Proof.Machine

open Sys2Proof

/-- A lane of a register. -/
def VecFile.lane (f : VecFile) (r : Fin 32) (l : Fin 256) : Word :=
  match find? f.lanes (256 * r.val + l.val) with
  | some w => w
  | none => match f.left with
    | none => 0
    | some n => Config.freeLane n (256 * r.val + l.val)

/-- Write every lane of a register. -/
def VecFile.put (f : VecFile) (r : Fin 32) (g : Fin 256 → Word) : VecFile :=
  { f with lanes := ((List.finRange 256).map fun l => (256 * r.val + l.val, g l)) ++ f.lanes.filter fun p => !(p.1 / 256 == r.val) }

/-- What a cue on the vector unit leaves in the registers: values that no rule states. -/
def VecFile.used (draw : Nat) : VecFile := { lanes := [], left := some draw }

/-- Comparisons: unordered where either operand is NaN (R80). -/
inductive VecCmp where
  | equal
  | less
  | lessEqual
  | unordered
  deriving DecidableEq, Repr

/-- A comparison holds. -/
def vecCompare (c : VecCmp) (a b : Num) : Bool :=
  let un := decide (a = .nan) || decide (b = .nan)
  match c with
  | .unordered => un
  | .equal => !un && !(nlt a b) && !(nlt b a)
  | .less => nlt a b
  | .lessEqual => !un && !(nlt b a)

/-- One half of a paired BF16 operation: a × b + c exactly, then one rounding to BF16 (R64). -/
def bf16Fma (sat : Bool) (mode : Mode) (a b c : Nat) : Nat :=
  (convF bf16 sat mode (addX (mulX (decodeF bf16 a) (decodeF bf16 b)) (decodeF bf16 c))).bits

/-- Lane-wise operations of Table 4-1. -/
inductive LaneOp where
  | add
  | sub
  | mul
  | fma
  | min
  | max
  | abs
  | neg
  | pairedFma (mode : Mode)
  | compare (c : VecCmp)
  | select
  | iadd
  | isub
  | iand
  | ior
  | ixor
  | ishl
  | ishr
  | iless
  | imin
  | imax
  deriving DecidableEq, Repr

/-- A lane that says yes or no. -/
def laneFlag (b : Bool) : Word := if b then 0xFFFFFFFF else 0

/-- A lane-wise operation on three lanes: FP32 with one RNE rounding, integers modulo 2^32. -/
def laneOp (op : LaneOp) (a b c : Word) : Word :=
  let x := ofW a
  let y := ofW b
  match op with
  | .add => toW (fadd x y)
  | .sub => toW (fsub x y)
  | .mul => toW (fmul x y)
  | .fma => toW (ffma x y (ofW c))
  | .min => toW (nmin x y)
  | .max => toW (nmax x y)
  | .abs => toW (nabs x)
  | .neg => toW (nneg x)
  | .pairedFma m =>
    let half (k : Nat) : Nat := bf16Fma false m (bits a.toNat (k + 15) k) (bits b.toNat (k + 15) k) (bits c.toNat (k + 15) k)
    BitVec.ofNat 32 (half 0 + 65536 * half 16)
  | .compare k => laneFlag (vecCompare k x y)
  | .select => if c = 0 then b else a
  | .iadd => a + b
  | .isub => a - b
  | .iand => a &&& b
  | .ior => a ||| b
  | .ixor => a ^^^ b
  | .ishl => a <<< (b.toNat % 32)
  | .ishr => a >>> (b.toNat % 32)
  | .iless => laneFlag (a.slt b)
  | .imin => if a.slt b then a else b
  | .imax => if a.slt b then b else a

/-- Operations of the vector unit on its registers: lane-wise, and the lane movements within one register. -/
inductive VecOp where
  | lanes (op : LaneOp) (dst a b c : Fin 32)
  | broadcast (dst a : Fin 32) (lane : Fin 256)
  | rotate (dst a : Fin 32) (by' : Fin 256)
  | gather (dst a index : Fin 32)
  deriving DecidableEq, Repr

/-- Run one operation: every operand lane is read before a result lane is written. -/
def VecFile.run (f : VecFile) : VecOp → VecFile
  | .lanes op d a b c => f.put d fun l => laneOp op (f.lane a l) (f.lane b l) (f.lane c l)
  | .broadcast d a k => f.put d fun _ => f.lane a k
  | .rotate d a n => f.put d fun l => f.lane a (l + n)
  | .gather d a x => f.put d fun l => f.lane a (Fin.ofNat 256 (f.lane x l).toNat)

end Sys2Proof.Machine
end

