-- ==== Sys2Proof/Machine/Cues.lean ====
section
/-! DEFINITION. Running a pass (chapter 6): the start and the end of a pass (R136), issue and completion of cues (R133 to
R135), deferred weight gradients (R139, R140), the format ledger (R144 to R146), WAKE and SLEEP (R148), layer marks and
the replay of the open layer (R138, R386 to R388). -/

namespace Sys2Proof.Machine

open Sys2Proof

/-! ### The lists of a pass -/

/-- A tile's cues from the entry barrier of the pass to its end barrier, with their indices. -/
def segmentOf (c : Chart) (x : Installed) (entry t : Nat) : List ICue :=
  passSegment entry ((cuesOf c x t).zipIdx.map fun p => (p.2, p.1))

/-- The cue at an index of a tile's list. -/
def cueAt (c : Chart) (x : Installed) (t n : Nat) : Option Cue := (cuesOf c x t)[n]?

/-- What a cue runs in: the Chart, what is in force, the pass. -/
structure Run where
  chart : Chart
  inst : Installed
  pass : Pass

/-- The pass in progress with its Chart. -/
def runOf (s : State) : Option Run :=
  match s.installed, installedChart s with
  | some x, some c => x.pass.map fun p => { chart := c, inst := x, pass := p }
  | _, _ => none

/-- A tile's units run nothing. -/
def allInFlight (y : Tile) : List InFlight := y.array.toList ++ y.vector.toList ++ y.movers ++ y.plain

/-- An event of chapter 6: tile and cue index (R149). -/
def cueEvent (i : Slot) (code : Code) (t : TileId) (idx value : Nat) (s : State) : State :=
  report { code := code, slot := BitVec.ofNat 8 i, loc := locTile t, cue := idx, value := value } s

/-- Keep a cue's count and its first element for the Log (R78): counts of one cue and code add up. -/
def noteArith (i : Slot) (code : Code) (t : TileId) (idx n first : Nat) (s : State) : State :=
  let here (a : ArithNote) : Bool := a.tile == t.val && a.cue == idx && a.code == code.toNat
  if n = 0 then s
  else modCtx i (fun c => { c with
    arith := if c.arith.any here then c.arith.map fun a => if here a then { a with count := a.count + n } else a
      else c.arith ++ [{ tile := t, cue := idx, code := code.toNat, count := n, first := first }] }) s

/-- A count of a cue, reported once with the number of elements. -/
def cueCount (i : Slot) (code : Code) (t : TileId) (idx n first : Nat) (s : State) : State :=
  if n = 0 then s
  else noteArith i code t idx n first
    (report { code := code, slot := BitVec.ofNat 8 i, isCount := true, loc := locTile t, cue := idx, value := n } s)

/-! ### Counters and signals (R134, R135) -/

/-- Raise a counter by one. -/
def raiseCtr (t : TileId) (ctr : Nat) (s : State) : State :=
  modTile t (fun y => { y with counters := store 0 y.counters ctr (look 0 y.counters ctr + 1) }) s

/-- A counter's value. -/
def ctrOf (y : Tile) (ctr : Nat) : Nat := (look 0 y.counters ctr).toNat

/-- Both waits of a cue are met. -/
def cueMet (y : Tile) (q : Cue) : Bool :=
  decide (q.wait0Target ≤ ctrOf y q.wait0Ctr) && decide (q.wait1Target ≤ ctrOf y q.wait1Ctr)

/-- The signals of a completion: the own counter, and one route signal for each tile with a local output of the route; under
0b11 the issuing tile's counter rises once. -/
def signal (r : Run) (t : TileId) (q : Cue) (s : State) : State :=
  let s := if bitOf q.sigMode 0 then raiseCtr t q.sigCtr s else s
  if bitOf q.sigMode 1 then
    let far := (localOuts (routesInForce r.chart r.inst) q.sigRoute).filter fun u => !(bitOf q.sigMode 0 && u == t.val)
    { s with signals := s.signals ++ far.map fun u => { tile := Fin.ofNat 5184 u, ctr := q.sigCtr, layer := q.layer } }
  else s

/-- Remove the first signal that matches. -/
def takeSignal (t : TileId) (ctr layer : Nat) : List RouteSignal → Option (List RouteSignal)
  | [] => none
  | x :: l => if x.tile = t ∧ x.ctr = ctr ∧ x.layer = layer then some l else (takeSignal t ctr layer l).map fun m => x :: m

def execRouteSignalArrive (t : TileId) (ctr : Fin 64) (layer : BitVec 16) (s : State) : Host.Outcome State Fault Refusal :=
  .next (match takeSignal t ctr layer.toNat s.signals with
    | some l => raiseCtr t ctr { s with signals := l }
    | none => s)

/-! ### The format ledger (R144 to R146) -/

/-- The ledger entry of a layer. -/
def ledgerOf (c : Ctx) (l : Nat) : Option LedgerEntry := c.ledger.find? fun e => e.layer == l

/-- Level in force of a layer. -/
def levelOf (s : State) (i : Slot) (l : Nat) : Nat :=
  match ledgerOf (s.ctxOf i) l with
  | some e => e.level
  | none => 0

/-- Replace a layer's entry. -/
def modLedger (i : Slot) (l : Nat) (f : LedgerEntry → LedgerEntry) (s : State) : State :=
  modCtx i (fun c => { c with ledger := c.ledger.map fun e => if e.layer == l then f e else e }) s

/-- The rule of a layer. -/
def ruleOf (c : Chart) (l : Nat) : RuleRec :=
  (c.rules.find? fun r => r.ruleId == (layerRec c l).ruleId).getD
    { ruleId := 0, startLevel := 0, minLevel := 0, maxLevel := 0, hold := 1, upUf := 0, downUf := 0, headroom := 0 }

/-- A layer's ledger entry in the layout of Table 6-6. -/
def ledgerBytes (e : LedgerEntry) : Bytes :=
  toLe 8 e.n ++ toLe 8 e.belowE5m2 ++ toLe 8 e.belowMx ++ toLe 8 e.overflow ++ toLe 8 e.nonfinite ++
    [maxExpByte e.maxExp, BitVec.ofNat 8 e.level, BitVec.ofNat 8 e.nextLevel, 0] ++ toLe 4 e.quiet ++ List.replicate 16 0

/-- Partial statistics of a layer before anything is added. -/
def noPart (l : Nat) : LedgerPart := { layer := l, n := 0, belowE5m2 := 0, belowMx := 0, overflow := 0, nonfinite := 0, maxExp := -128 }

/-- Two sets of partial statistics of a layer together: sums, and a maximum. -/
def LedgerPart.add (a b : LedgerPart) : LedgerPart :=
  { a with n := a.n + b.n, belowE5m2 := a.belowE5m2 + b.belowE5m2, belowMx := a.belowMx + b.belowMx, overflow := a.overflow + b.overflow,
           nonfinite := a.nonfinite + b.nonfinite, maxExp := max a.maxExp b.maxExp }

/-- A tile's partial statistics of a layer. -/
def partFor (y : Tile) (l : Nat) : LedgerPart := (y.parts.find? fun p => p.layer == l).getD (noPart l)

/-- Put a tile's partial statistics of a layer. -/
def putPart (p : LedgerPart) (y : Tile) : Tile := { y with parts := (y.parts.filter fun q => !(q.layer == p.layer)) ++ [p] }

/-- A layer's entry holds what its tiles' partial statistics add up to. -/
def sumLedger (i : Slot) (l : Nat) (s : State) : State :=
  let a := s.tiles.foldl (fun acc p => acc.add (partFor p.2 l)) (noPart l)
  modLedger i l (fun e => { e with
    n := a.n, belowE5m2 := a.belowE5m2, belowMx := a.belowMx, overflow := a.overflow, nonfinite := a.nonfinite, maxExp := a.maxExp }) s

/-- Counts and maximum of an entry at the start of a step. -/
def clearEntry (e : LedgerEntry) : LedgerEntry :=
  { e with n := 0, belowE5m2 := 0, belowMx := 0, overflow := 0, nonfinite := 0, maxExp := -128 }

/-- The ledger at the start of a step: entries cleared, each level the one that the last step chose; a layer's first entry
has its rule's start level. -/
def stepLedger (c : Chart) (old : List LedgerEntry) : List LedgerEntry :=
  c.layers.map fun l =>
    match old.find? fun e => e.layer == l.layer with
    | some e => clearEntry { e with level := e.nextLevel }
    | none =>
      let n := (ruleOf c l.layer).startLevel
      { layer := l.layer, n := 0, belowE5m2 := 0, belowMx := 0, overflow := 0, nonfinite := 0, maxExp := -128, level := n,
        nextLevel := n, quiet := 0 }

/-- Underflow above a threshold at a level. -/
def underflows (level : Nat) (e : LedgerEntry) (t : Nat) : Bool :=
  decide (t * e.n < (if level = 0 then e.belowE5m2 else if level = 1 then e.belowMx else 0) * 65536)

/-- next_level of R146: level and quiet count. -/
def nextLevel (r : RuleRec) (e : LedgerEntry) : Nat × Nat :=
  let top := decide ((15 : Int) - r.headroom ≤ e.maxExp)
  let up := decide (0 < e.overflow) || decide (0 < e.nonfinite) || underflows e.level e r.upUf || (e.level == 0 && top)
  if up then (min (e.level + 1) r.maxLevel, 0)
  else if r.minLevel + 1 ≤ e.level then
    let below := e.level - 1
    let ok := !(underflows below e r.downUf) && !(below == 0 && top)
    let quiet := if ok then e.quiet + 1 else 0
    if r.hold ≤ quiet then (below, 0) else (e.level, quiet)
  else (e.level, e.quiet)

/-- A step completes without error: the rule is applied to each layer's entry, with 0x0410 and 0x0411. -/
def chooseLevels (i : Slot) (c : Chart) (s : State) : State :=
  (s.ctxOf i).ledger.foldl (fun s e =>
    let x := nextLevel (ruleOf c e.layer) e
    let s := modLedger i e.layer (fun e => { e with nextLevel := x.1, quiet := x.2 }) s
    let say (code : Code) (s : State) : State := report { code := code, slot := BitVec.ofNat 8 i, cue := e.layer, value := x.1 } s
    if e.level < x.1 then say 0x0410 s else if x.1 < e.level then say 0x0411 s else s) s

/-- What a backward cue of a tile adds to its layer's entry (R144). -/
def addLedger (i : Slot) (t : TileId) (l : Nat) (w : Work) (s : State) : State :=
  let p : LedgerPart := { layer := l, n := w.stats.n, belowE5m2 := w.stats.belowE5m2, belowMx := w.stats.belowMx, overflow := w.tally.overflow,
                          nonfinite := w.tally.flagged + w.tally.nonfinite, maxExp := w.stats.maxExp }
  sumLedger i l (modTile t (fun y => putPart ((partFor y l).add p) y) s)

/-! ### The work of a cue -/

/-- Gradient-format tensors that a cue writes. -/
def gradOuts (c : Chart) (q : Cue) : List Nat :=
  let aux (k : Nat) := q.auxTensor + k
  let l := q.outTensor :: (if q.kind == 5 then [aux 4, aux 5, aux 6] else if q.kind == 6 then [aux 3, aux 4] else [])
  l.filter fun t => match tensorOf c t with
    | some t => t.format == 0x20
    | none => false

/-- Level at which a cue's outputs are written: its layer's; a copy keeps its source's (log entry 52). -/
def writeLevel (s : State) (i : Slot) (q : Cue) : Nat :=
  if q.kind = 7 ∨ q.kind = 8 then (find? (s.ctxOf i).gradAt q.aTensor).getD (levelOf s i q.layer) else levelOf s i q.layer

/-- The site of a cue: its outputs take its level, the other gradient tensors that of their last writer. -/
def cueSite (s : State) (i : Slot) (r : Run) (q : Cue) : Site :=
  let own := gradOuts r.chart q
  let l := writeLevel s i q
  { slot := i, chart := r.chart, inst := r.inst,
    level := fun t => if own.contains t then l else (find? (s.ctxOf i).gradAt t).getD (levelOf s i q.layer) }

/-- Note the level at which a cue has written its gradient-format outputs. -/
def noteLevels (i : Slot) (c : Chart) (q : Cue) (s : State) : State :=
  let l := writeLevel s i q
  modCtx i (fun x => { x with gradAt := (gradOuts c q).foldl (fun acc t => setPair acc t l) x.gradAt }) s

/-! ### Slices and pins (R22, R23) -/

/-- A deck entry beneath a tile. -/
def deckOf (t : Nat) (p : Placement) : Bool := p.kind == 2 && atTile t p

/-- Deck entries in force of a tensor beneath a tile, in a deck weight area. -/
def weightPlaces (c : Chart) (x : Installed) (t id : Nat) : List Placement :=
  match tensorOf c id with
  | some w => (match areaOf c w.areaId with
    | some a => if a.purpose = 1 then (placesOf c x id).filter (deckOf t) else []
    | none => [])
  | none => []

/-- Tensors of slice `k` of a layer in a tile; a layer whose weights no cue of the pass reads there is one slice, of all its tensors. -/
def sliceIds (r : Run) (m : Manifest) (t l k : Nat) : List Nat :=
  let sl := layerSlices (weightPlaces r.chart r.inst t) (segmentOf r.chart r.inst r.pass.entry t) l
  if sl.isEmpty then ((layerTensors r.chart m l).map fun w => w.id).filter fun id => !((weightPlaces r.chart r.inst t id).isEmpty)
  else sl.getD k []

/-- Tensors of the slice that the RECV_LAYER at an index of a tile's list pins. -/
def sliceAt (r : Run) (m : Manifest) (t idx l : Nat) : List Nat :=
  sliceIds r m t l (sliceNumber (weightPlaces r.chart r.inst t) (segmentOf r.chart r.inst r.pass.entry t) idx l)

/-- An entry lies over pinned weights that an open cue still reads, and is none of them: nothing overwrites those (R22). -/
def pinnedOver (s : State) (r : Run) (p : Placement) : Bool :=
  let t := 72 * p.grow + p.gcol
  let y := s.tileOf (Fin.ofNat 5184 t)
  p.kind == 2 && y.deckHolds.any fun h =>
    !(h.2.2.contains p.tensorId) && h.2.2.any fun k => ((weightPlaces r.chart r.inst t k).any fun w => placesMeet w p) &&
      (openCues r.chart r.inst t y).any fun q => q.bDeck && q.bTensor == k && q.layer == h.2.1

/-- The environment of a cue on some tiles. -/
def cueEnv (s : State) (i : Slot) (r : Run) (tiles : List Nat) (q : Cue) (fault : ArithFault) : Env :=
  let y := cueSite s i r q
  { site := y, tiles := tiles, tables := tiles.flatMap fun t => (s.tileOf (Fin.ofNat 5184 t)).tables, pinned := pinnedOver s r, step := r.pass.step, cue := q, fault := fault,
    frozen := match (s.ctxOf i).model with
      | some m => frozenOf y s.mem m.fetch.manifest q
      | none => fun _ => false }

/-- The work of a computing cue. -/
def workOf (s : State) (i : Slot) (v : Env) : Work :=
  if v.cue.kind = 4 then (if 10 ≤ v.cue.kernel then optimizerWork s i v else vectorWork v s.mem)
  else if v.cue.kind = 5 then fusedWork v s.mem
  else productWork v s.mem

/-- Columns of a tile's strips (R49, R50): 56 where the tile is narrow, or the Chart or the variant in force takes it for narrow. -/
def stripWidth (s : State) (c : Chart) (x : Installed) (t : Nat) : Nat :=
  if isNarrow s t || assumedNarrow c x.variants t then 56 else 64

/-- The physical cell-column of a column of the tile's output (R77): where a cell-column is out of use it is passed over. -/
def physColumn (s : State) (c : Chart) (x : Installed) (t j : Nat) : Nat :=
  let k := j % stripWidth s c x t / 8
  match badColumns s t with
  | [b] => if b ≤ k then k + 1 else k
  | _ => k

/-- SRAM rows that hold the bound bytes of an operand's row (R73). -/
def boundRows (y : Site) (t : Tensor) (turned : Bool) (r : Nat) : List Part :=
  let es := if turned then (List.range (rowsOf t)).map fun k => atRow t k r else (List.range (kUnits t)).map fun u => atRow t r (32 * u)
  match tensorOf y.chart (if isMx (y.format t) then t.scaleId else t.summaryId) with
  | none => []
  | some k => (es.filterMap fun e => elemPlace y.chart y.inst k (elemBits (y.format k)) (unitOf t e)).foldl (fun acc p =>
      let n := (p.1.address + p.2) / 64
      let t := Fin.ofNat 5184 (72 * p.1.grow + p.1.gcol)
      if p.1.kind = 1 then insertNew acc (.tileRow t (Fin.ofNat 32 n) (Fin.ofNat 768 (n / 32)))
      else if p.1.kind = 2 then insertNew acc (.deckRow t (Fin.ofNat 32 n) (Fin.ofNat 2048 (n / 32)))
      else acc) []

/-- Rows to march after a bound violation at an output element. -/
def suspectRows (y : Site) (q : Cue) (p : Nat × Nat) : List Part :=
  (match tensorOf y.chart q.aTensor with
    | some a => boundRows y a (aTurned q) p.1
    | none => []) ++
  (match tensorOf y.chart q.bTensor with
    | some b => boundRows y b (bTurned q) p.2
    | none => [])

/-- Value of an event that names output coordinates: the row in its upper, the column in its lower four bytes (DESIGN CHOICE, log
entry 89: Table 15-11 says only that the field is the code's detail). -/
def coordValue (p : Nat × Nat) : Nat := p.1 * 2 ^ 32 + p.2

/-- Faults of the arithmetic that a cue met (R73, R74, R77): events, self-tests, and its region faults. -/
def arithFaults (i : Slot) (r : Run) (t : TileId) (q : Cue) (idx : Nat) (w : Work) (s : State) : State :=
  let y := cueSite s i r q
  let at' (p : Nat × Nat) : Nat := coordValue (within w.origin p)
  let s := w.residues.foldl (fun s p =>
    let k := physColumn s r.chart r.inst t (within w.origin p).2
    detect (.cellColumn t (Fin.ofNat 8 k)) 0x0409 (cueEvent i 0x0409 t idx k s)) s
  let s := w.bounds.foldl (fun s p =>
    (suspectRows y q p).foldl (fun s x => detect x 0x040A s) (cueEvent i 0x040A t idx (at' p) s)) s
  let s := w.anchors.foldl (fun s p => cueEvent i 0x040B t idx (at' p) s) s
  let keep (code : Code) (l : List (Nat × Nat)) (s : State) : State := noteArith i code t idx l.length (at' (l.headD w.origin)) s
  let s := keep 0x040B w.anchors (keep 0x040A w.bounds (keep 0x0409 w.residues s))
  if !(w.residues.isEmpty) then faultTile t 0x0409 s
  else if !(w.bounds.isEmpty) then faultTile t 0x040A s
  else if !(w.anchors.isEmpty) then faultTile t 0x040B s
  else s

/-- A window as the accumulator file holds it. -/
def Win.kept (x : Win) : Window :=
  { w := x.w, anchor := x.anchor, nan := x.nan, posInf := x.posInf, negInf := x.negInf, residue := x.residue }

/-- The accumulator file after a product: the windows of its last output block, at 64 × row + column of the block (R26, R68; the next
block's pre-pass clears them, R69). -/
def accAfter (width : Nat) (w : Work) : List (Nat × Window) :=
  let l := w.wins.map fun x => (within w.origin (x.1, x.2.1), x.2.2.kept)
  match l.getLast? with
  | none => []
  | some z => (l.filter fun x => x.1.1 / 64 == z.1.1 / 64 && x.1.2 / width == z.1.2 / width).map fun x =>
      (64 * (x.1.1 % 64) + x.1.2 % width, x.2)

/-- Keep the windows of a product. -/
def keepAcc (r : Run) (t : TileId) (w : Work) (s : State) : State :=
  if w.wins.isEmpty then s else modTile t (fun y => { y with acc := accAfter (stripWidth s r.chart r.inst t) w }) s

/-- What a cue's work reports and adds up: counts (R60, R72, R80, R96), the ledger, faults. -/
def reportWork (i : Slot) (r : Run) (t : TileId) (q : Cue) (idx : Nat) (w : Work) (s : State) : State :=
  let at' (code : Nat) : Nat := coordValue ((find? w.tally.first code).getD (0, 0))
  let s := cueCount i 0x040C t idx w.tally.flagged (at' 0x040C) (keepAcc r t w s)
  let s := cueCount i 0x040D t idx w.tally.overflow (at' 0x040D) s
  let s := cueCount i 0x040E t idx w.tally.emptyRows (at' 0x040E) s
  let s := cueCount i 0x040F t idx w.tally.nonfinite (at' 0x040F) s
  let s := if r.chart.isTraining && r.pass.hasGrad then addLedger i t q.layer w s else s
  arithFaults i r t q idx w s

/-! ### Cues that tiles run together (R81, R89, R91, R97) -/

/-- A cue joins those of other tiles: rows or columns that tiles share. -/
def isJoined (q : Cue) : Bool :=
  q.kind == 5 || (q.kind == 6 && q.field 101 101 == 1) || (q.kind == 4 && (decide (q.kernel ≤ 4) || q.kernel == 9))

/-- Two cues are parts of one operation. -/
def sameWork (p q : Cue) : Bool :=
  p.kind == q.kind && p.layer == q.layer && p.outTensor == q.outTensor && p.descId == q.descId &&
    (if p.kind = 6 then p.field 101 101 == q.field 101 101
     else p.aTensor == q.aTensor && p.imm == q.imm && (p.kind == 5 || p.auxTensor == q.auxTensor))

/-- A tile's first cue of an operation whose effect has not been made: in flight or still ahead. -/
inductive PartState where
  | none
  | ahead
  | flying (f : InFlight)

/-- How a tile stands to an operation. -/
def partOf (r : Run) (q : Cue) (t : Nat) (y : Tile) : PartState :=
  match (allInFlight y).find? fun f => !f.ran && sameWork f.cue q with
  | some f => .flying f
  | none => if y.inPass && ((segmentOf r.chart r.inst r.pass.entry t).any fun p => decide (y.pc ≤ p.1) && sameWork p.2 q) then .ahead else .none

/-- Rows of a kernel's input that have an element in a tile; for a reduction of the whole tensor there is one row. -/
def rowsIn (y : Site) (q : Cue) (t : Nat) : List Nat :=
  match tensorOf y.chart q.aTensor, tensorOf y.chart q.outTensor with
  | some a, some out =>
    let l := rowsHere y (atTile t) a
    if q.kernel = 9 ∧ elemsOf out ≠ rowsOf a then (if l.isEmpty then [] else [0]) else l
  | _, _ => []

/-- Two tiles share rows of an operation; FUSED_NORM_BWD sums columns over every row, and ATTN_BLOCKs of one output share its
rows. -/
def shareRows (y : Site) (q : Cue) (t u : Nat) : Bool :=
  !(q.kind == 4) || (let l := rowsIn y q u; (rowsIn y q t).any fun k => l.contains k)

/-- Tiles joined to those of a list over shared rows. -/
def joinTiles (y : Site) (q : Cue) (cands : List Nat) : Nat → List Nat → List Nat
  | 0, l => l
  | n + 1, l => joinTiles y q cands n (cands.foldl (fun acc u => if acc.any fun t => shareRows y q t u then insertNew acc u else acc) l)

/-- The tiles of an operation with their cues, none while one has not issued its own. -/
def partners (s : State) (i : Slot) (r : Run) (q : Cue) (own : TileId) : Option (List (TileId × InFlight)) :=
  let parts := s.tiles.filterMap fun p => match partOf r q p.1 p.2 with
    | .flying f => some (p.1, some f)
    | .ahead => some (p.1, none)
    | .none => none
  let joined := joinTiles (cueSite s i r q) q (parts.map Prod.fst) parts.length [own.val]
  let l := parts.filter fun p => joined.contains p.1
  if l.all fun p => p.2.isSome then some (l.filterMap fun p => p.2.map fun f => ((Fin.ofNat 5184 p.1 : TileId), f)) else none

/-- Change a cue in flight. -/
def modFlight (t : TileId) (idx : Nat) (g : InFlight → InFlight) (s : State) : State :=
  let f (x : InFlight) : InFlight := if x.index = idx then g x else x
  modTile t (fun y => { y with array := y.array.map f, vector := y.vector.map f, movers := y.movers.map f, plain := y.plain.map f }) s

/-- Mark a cue's effect as made. -/
def setRan (t : TileId) (idx : Nat) (s : State) : State := modFlight t idx (fun x => { x with ran := true }) s

/-- Number of the tensor that holds the state (m, l) of an ATTN_BLOCK's query block, by which its output rows are kept. -/
def queryKey (q : Cue) : Nat := q.auxTensor + 3

/-- The output rows that a tile carries for a query block. -/
def carriedO (q : Cue) (y : Tile) : List Word := (find? y.attn (queryKey q)).getD []

/-- The rows of an ATTN_BLOCK as its tile carries them. -/
def carriedRows (v : Env) (mem : List Host.Cell) (y : Tile) : List AttnRow :=
  match tensorOf v.site.chart v.cue.aTensor with
  | some a =>
    let dh := kExtent a
    (List.range (rowsOf a)).map fun i =>
      { m := vecNum v.site mem (v.aux 3) (2 * i), l := vecNum v.site mem (v.aux 3) (2 * i + 1),
        o := (List.range dh).map fun k => ofW ((carriedO v.cue y).getD (i * dh + k) 0) }
  | none => []

/-- Place of a tile's leaf in the leaf tree: its region's in the descriptor's list, and in one region the leaf of the earlier keys
first (R81, R97, Table 5-18; the second is DEDUCED, log entry 65). -/
def leafPlace (r : Run) (v : Env) (t pos : Nat) : Nat :=
  let l := (v.desc 0).regions
  let k := (l.findIdx? fun id => r.chart.regions.any fun g => g.id == id && regionHas r.chart r.inst g t).getD l.length
  k * 2 ^ 23 + pos

/-- The finish of an attention whose tiles have all issued their last block (R96, R97): leaves in the descriptor's order. The counts of
each tile's last block and of its finished rows are reported together (R78, R100). -/
def finishAttn (i : Slot) (r : Run) (l : List (TileId × InFlight)) (s : State) : State :=
  let leaves := l.map fun p =>
    let v := cueEnv s i r [p.1.val] p.2.cue .none
    (leafPlace r v p.1.val (posOf v.site s.mem (v.aux 2) 0), carriedRows v s.mem (s.tileOf p.1))
  let sorted := leaves.foldr (fun x acc => (acc.filter fun y => decide (y.1 < x.1)) ++ x :: acc.filter fun y => !(decide (y.1 < x.1))) []
  let n := (sorted.map fun x => x.2.length).foldl max 0
  let rows := (List.range n).map fun k => mergeTree sorted.length (sorted.filterMap fun x => x.2[k]?)
  l.foldl (fun s p =>
    let v := cueEnv s i r [p.1.val] p.2.cue .none
    let w := attnFinish v rows { mem := s.mem }
    let s := modTile p.1 (fun y => { y with attn := y.attn.filter fun x => !(x.1 == queryKey p.2.cue) }) { s with mem := w.mem }
    reportWork i r p.1 p.2.cue p.2.index { w with tally := p.2.counts.add w.tally } (setRan p.1 p.2.index (noteLevels i r.chart p.2.cue s))) s

/-- The effect of an operation on all its tiles: each tile's counts are its own, memory changes at once. -/
def runTogether (i : Slot) (r : Run) (fault : ArithFault) (own : TileId) (l : List (TileId × InFlight)) (s : State) : State :=
  match l with
  | [] => s
  | p :: _ =>
    if p.2.cue.kind = 6 then finishAttn i r l s
    else
      let at' (t : TileId) : ArithFault := if t = own then fault else .none
      let works := l.map fun p => (p, workOf s i (cueEnv s i r [p.1.val] p.2.cue (at' p.1)))
      let all := workOf s i (cueEnv s i r (l.map fun p => p.1.val) p.2.cue fault)
      let s := noteLevels i r.chart p.2.cue { s with mem := all.mem }
      works.foldl (fun s x => reportWork i r x.1.1 x.1.2.cue x.1.2.index x.2 (setRan x.1.1 x.1.2.index s)) s

/-! ### Deferred weight gradients (R139, R140) -/

/-- The cue after a DRAIN_DW in its list, if its waits are not met. -/
def nextWaits (r : Run) (t : TileId) (idx : Nat) (y : Tile) : Bool :=
  match cueAt r.chart r.inst t (idx + 1) with
  | some q => !(cueMet y q)
  | none => false

/-- The running DRAIN_DW starts another entry. -/
def drainGoes (r : Run) (t : TileId) (y : Tile) : Bool :=
  y.entryRun.isNone && !(y.deferred.isEmpty) &&
    match y.array with
    | some f => f.cue.kind == 10 && (match y.draining with
        | some n => decide (0 < n)
        | none => nextWaits r t f.index y)
    | none => false

/-- Every output block of an entry that its tile computes is frozen (R141). -/
def entryFrozen (v : Env) : Bool :=
  match tensorOf v.site.chart v.cue.outTensor with
  | some out => (elemsHere v.site v.here out).all v.frozen
  | none => false

/-- The first queued entry starts: its product is made, with the fault of the arithmetic that it meets, and reported under the index of
its DEFER_DW (DEDUCED, log entry 89); an entry all frozen completes at once. -/
def startEntry (i : Slot) (r : Run) (t : TileId) (fault : ArithFault) : Nat → State → State
  | 0, s => s
  | n + 1, s =>
    let y := s.tileOf t
    if !(drainGoes r t y) then s
    else match y.deferred with
      | [] => s
      | (idx, q) :: rest =>
        let s := modTile t (fun y => { y with deferred := rest, draining := y.draining.map fun k => k - 1 }) s
        let v := cueEnv s i r [t.val] q fault
        if entryFrozen v then startEntry i r t fault n (signal r t q s)
        else
          let w := workOf s i v
          reportWork i r t q idx w (noteLevels i r.chart q { modTile t (fun y => { y with entryRun := some (idx, q) }) s with mem := w.mem })

/-! ### Layers close (R137) -/

/-- Change the pass in progress. -/
def modPass (f : Pass → Pass) (s : State) : State := modInstalled (fun x => { x with pass := x.pass.map f }) s

/-- A cue of a tile's list has not completed. -/
def standsOpen (y : Tile) (idx : Nat) : Bool :=
  (y.inPass && decide (y.pc ≤ idx)) || ((allInFlight y).any fun f => f.index == idx) || (y.deferred.any fun d => d.1 == idx) ||
    ((y.entryRun.map Prod.fst) == some idx)

/-- Every cue of the open layer in every tile has completed. -/
def layerOver (s : State) (r : Run) (l : Nat) : Bool :=
  s.tiles.all fun p => (layerParts [] none (segmentOf r.chart r.inst r.pass.entry p.1)).all fun x =>
    !(x.1 == some (l, r.pass.run) && counted x.2.2 && standsOpen p.2 x.2.1)

/-- Note that the open layer has closed. -/
def noteClosed (s : State) : State :=
  match runOf s with
  | none => s
  | some r => match r.pass.openLayer with
    | some l => if !r.pass.closed && layerOver s r l then modPass (fun p => { p with closed := true }) s else s
    | none => s

/-- A queued entry has drained: its counter rises, and the next one starts where the drain goes on. -/
def entryDone (r : Run) (t : TileId) (q : Cue) (fault : ArithFault) (s : State) : State :=
  startEntry r.pass.slot r t fault 256 (signal r t q (modTile t (fun y => { y with entryRun := none }) s))

def execDeferredEntryComplete (e : EntryEnd) (s : State) : Host.Outcome State Fault Refusal :=
  .next (match runOf s, (s.tileOf e.tile).entryRun with
    | some r, some q => noteClosed (entryDone r e.tile q.2 e.fault s)
    | _, _ => s)

/-- A running DRAIN_DW may complete. -/
def drainOver (r : Run) (t : TileId) (idx : Nat) (y : Tile) : Bool :=
  y.entryRun.isNone && (y.deferred.isEmpty || match y.draining with
    | some n => n == 0
    | none => !(nextWaits r t idx y))

/-! ### Copies (R434) -/

/-- Entries of a copy's target, with the source's entry of the same block. -/
def copyPairs (r : Run) (src dst : Nat) : List (Placement × Placement) :=
  (placesOf r.chart r.inst dst).filterMap fun d => (placementOf r.chart r.inst src d.block).map fun p => (p, d)

/-- The shards of a weight tensor are valid: no copy reads one that is not (R163). -/
def shardsReady (s : State) (i : Slot) (r : Run) (id : Nat) : Bool :=
  match (s.ctxOf i).model with
  | none => true
  | some m => (m.fetch.manifest.tensors.filter fun p => p.2 == id).all fun p =>
      ((layerShards m.fetch.manifest p.1).filter fun k => (shardUnits r.chart m.fetch.manifest k).any fun u => u.2.1.id == id).all
        fun k => validAt m.fetch.holds (readVersion m k r.pass.step) k

/-- RECV_LAYER with source 0b10, once the shards that it reads are valid: blocks in this tile's SRAM, never over pinned ones (R22), and
the summary bytes of what they hold (R66). -/
def recvCopy (i : Slot) (r : Run) (t : TileId) (q : Cue) (s : State) : State :=
  let ok (d : Placement) : Bool := atTile t d && !(pinnedOver s r d)
  if !(shardsReady s i r q.aTensor) then s
  else
    let m := ((copyPairs r q.aTensor q.outTensor).filter fun x => ok x.2).foldl (fun m x => copyPlace i x.1 x.2 m) s.mem
    { s with mem := match tensorOf r.chart q.outTensor with
        | some w => refreshBlocks (cueSite s i r q) w ok m
        | none => m }

/-- One block to the stacks, if they have not accepted it before the restart (R138). -/
def sendOne (i : Slot) (q : Cue) (x : Placement × Placement) (s : State) : State :=
  let k := (q.aTensor, q.outTensor, x.2.block)
  if (match s.installed with
    | some y => (match y.pass with
      | some p => p.skip.contains k
      | none => false)
    | none => false)
  then modPass (fun p => { p with skip := p.skip.erase k }) s
  else modPass (fun p => { p with sent := p.sent ++ [k] }) { s with mem := copyPlace i x.1 x.2 s.mem }

/-- SEND_BLOCKS to the stacks. -/
def sendCopy (i : Slot) (r : Run) (t : TileId) (q : Cue) (s : State) : State :=
  let first := q.field 126 107
  ((copyPairs r q.aTensor q.outTensor).filter fun x => decide (first ≤ x.2.block) && decide (x.2.block ≤ first + q.field 106 92) && atTile t x.1).foldl
    (fun s x => sendOne i q x s) s

/-! ### RECV_LAYER from the stacks to a deck weight area (R22, R23, R150, R152) -/

/-- Deck weight areas that a slice's tensors use. -/
def sliceAreas (r : Run) (ids : List Nat) : List Nat :=
  (ids.filterMap fun id => (tensorOf r.chart id).map fun w => w.areaId).foldl insertNew []

/-- The shard table of a layer: shards with their frames. -/
def tableOf (m : Model) (l : Nat) : List (Nat × Nat) :=
  (layerShards m.fetch.manifest l).filterMap fun k => (holdOf m.fetch.holds k).map fun h => (k, h.frame)

/-- Lay a slice's units down in the deck beneath a tile, from frames as a table names them or as they stand now, and pin it. A slice is
that of log entry 46: no record names the slices of a layer (DESIGN CHOICE). -/
def laySlice (i : Slot) (r : Run) (m : Model) (t : TileId) (l : Nat) (ids : List Nat) (table : List (Nat × Nat)) (s : State) : State :=
  let here (p : Placement) : Bool := deckOf t p && ids.contains p.tensorId
  let s := (layerShards m.fetch.manifest l).foldl (fun s sh => match holdOf m.fetch.holds sh with
    | some h => unpackShard i m.fetch.manifest here { h with frame := (find? table sh).getD h.frame } s
    | none => s) s
  modTile t (fun y => { y with deckHolds := (sliceAreas r ids).foldl (fun acc a => setPair acc a (l, ids)) y.deckHolds }) s

/-- RECV_LAYER with source 0b01 pins the slice that its place in the list names (R23, log entry 46). -/
def pinCopy (i : Slot) (r : Run) (m : Model) (t : TileId) (f : InFlight) (s : State) : State :=
  let l := f.cue.field 125 110
  laySlice i r m t l (sliceAt r m.fetch.manifest t f.index l) f.frames s

/-- The deck beneath a tile holds the slice already. -/
def deckHas (r : Run) (m : Model) (t : TileId) (f : InFlight) (s : State) : Bool :=
  let l := f.cue.field 125 110
  let ids := sliceAt r m.fetch.manifest t f.index l
  (sliceAreas r ids).all fun a => find? (s.tileOf t).deckHolds a == some (l, ids)

/-! ### Issue (R133) -/

/-- The units that a cue occupies are free; no SLEEP or end barrier of the tile stands ahead of it. -/
def unitsFree (y : Tile) (q : Cue) : Bool :=
  (!(onArray q.kind) || y.array.isNone) && (!(onVector q.kind) || y.vector.isNone) &&
    (!(q.kind == 7 || q.kind == 8) || decide (y.movers.length < 4)) &&
    !(y.plain.any fun f => f.cue.kind == 12 || barrierType f.cue == 2)

/-- A wire-mode SEND_BLOCKS. -/
def isWire (q : Cue) : Bool := q.kind == 7 && q.field 127 127 == 0

/-- The reduction of the step was refused or aborted before this SEND_BLOCKS (R214, R219). -/
def stepEnded (s : State) (r : Run) : Option Code :=
  match s.coll.ended with
  | some (i, n, code) => if i = r.pass.slot ∧ n = r.pass.step.toNat then some code else none
  | none => none

/-- A cue may issue: its waits, its units, and for a wire SEND_BLOCKS the start of its reduction (R214). -/
def issues (s : State) (r : Run) (y : Tile) (q : Cue) : Bool :=
  cueMet y q && unitsFree y q && (!(isWire q) || wireReady s q || (stepEnded s r).isSome) &&
    (!(q.kind == 9) || decide (y.deferred.length < 256))

/-- The tile's prompter runs. -/
def prompts (y : Tile) : Bool := y.inPass && !y.halted && decide (y.sleep = .awake)

/-- Put a cue in flight on its units and move the prompter on. -/
def takeUnits (f : InFlight) (y : Tile) : Tile :=
  let y := { y with pc := f.index + 1, waitSaid := false }
  let y := if onArray f.cue.kind then { y with array := some f } else y
  let y := if onVector f.cue.kind then { y with vector := some f } else y
  if f.cue.kind = 7 ∨ f.cue.kind = 8 then { y with movers := y.movers ++ [f] }
  else if onArray f.cue.kind || onVector f.cue.kind then y else { y with plain := y.plain ++ [f] }

/-- A cue's phase opens (R133). -/
def openPhaseOf (q : Cue) (s : State) : State :=
  if q.phaseId = 0xFFFF then s
  else match s.installed with
    | some x =>
      if x.phase = some q.phaseId then s
      else { modInstalled (fun x => { x with phase := some q.phaseId, slowSaid := false }) s with
             thermal := { s.thermal with forecastSaid := false } }
    | none => s

/-- Earlier cues of the tile's pass that opened the same layer: with one, the layer's backward opens (R137). -/
def earlierRuns (r : Run) (t idx : Nat) (l : Nat) : Nat :=
  ((segmentOf r.chart r.inst r.pass.entry t).filter fun p => decide (p.1 < idx) && p.2.layerStart && p.2.layer == l).length

/-- The mark of a tile at a layer_start cue (R138, R387). -/
def markFor (idx l : Nat) (y : Tile) : LayerMark :=
  { layer := l, cueIndex := idx, counters := (List.range 64).map fun k => look 0 y.counters k, ledger := [partFor y l], areas := y.deckHolds }

/-- A layer_start cue passes: the mark is taken, and the layer opens with the first tile that passes. -/
def passGate (r : Run) (t : TileId) (idx : Nat) (q : Cue) (s : State) : State :=
  if !q.layerStart then s
  else
    let n := earlierRuns r t idx q.layer
    let s := modTile t (fun y => { y with mark := some (markFor idx q.layer y) }) s
    if r.pass.openLayer = some q.layer ∧ r.pass.run = n then s
    else modPass (fun p => { p with openLayer := some q.layer, run := n, closed := false, replays := 0, hasGrad := p.hasGrad || decide (0 < n),
                                    sent := [], skip := [] }) s

/-- A copy of a resident model's layer asks again for the shards that a re-check found bad and that are not valid (R162, R169). -/
def askShards (i : Slot) (r : Run) (l : Nat) (s : State) : State :=
  match (s.ctxOf i).model with
  | some m => if m.resident && !m.loading then refetchLayer i l r.pass.step s else s
  | none => s

/-- Step of a RECV_LAYER or SEND_BLOCKS at issue. -/
def moverEffect (i : Slot) (r : Run) (t : TileId) (q : Cue) (idx : Nat) (s : State) : State :=
  if q.kind = 7 then
    (if isWire q then sendWire i q s else noteLevels i r.chart q (sendCopy i r t q s))
  else if q.field 127 126 = 0 then streamLayer i r.chart r.inst (q.field 125 110) r.pass.step s
  else if q.field 127 126 = 2 then
    (if shardsReady s i r q.aTensor then setRan t idx (noteLevels i r.chart q (recvCopy i r t q s)) else askShards i r q.layer s)
  else askShards i r (q.field 125 110) s

/-- A DRAIN_DW issues: with fill 0 the entries it runs are counted. -/
def drainIssue (i : Slot) (r : Run) (t : TileId) (q : Cue) (fault : ArithFault) (s : State) : State :=
  let n := q.field 126 118
  startEntry i r t fault 256 (modTile t (fun y => { y with
    draining := if q.field 127 127 = 1 then none else some (if n = 0 then y.deferred.length else min n y.deferred.length) }) s)

/-- WAKE with scope 1 raises the rails of a die that has none (R148, R335). -/
def wakeIssue (q : Cue) (s : State) : State :=
  if q.field 127 127 = 1 then
    modDie (Fin.ofNat 36 (q.field 116 111)) (fun d => if d.rails = .off then { d with rails := .queued } else d) s
  else s

/-- The effect of an ATTN_BLOCK up to its state. The counts of a last block wait for the finish of its rows. -/
def attnIssue (i : Slot) (r : Run) (t : TileId) (q : Cue) (idx : Nat) (fault : ArithFault) (s : State) : State :=
  let v := cueEnv s i r [t.val] q fault
  let w := (attnBlock v (carriedO q (s.tileOf t)) s.mem).1
  let s := modTile t (fun y => { y with attn := setPair y.attn (queryKey q) w.rows }) { s with mem := w.mem }
  if isJoined q then reportWork i r t q idx { w with tally := {} } (modFlight t idx (fun f => { f with counts := w.tally }) s)
  else reportWork i r t q idx w s

/-- The effect of a computing cue, at once or with the tiles that share its rows. -/
def computeIssue (i : Slot) (r : Run) (t : TileId) (q : Cue) (idx : Nat) (fault : ArithFault) (s : State) : State :=
  let s := if q.kind = 6 then attnIssue i r t q idx fault s else s
  if isJoined q then
    match partners s i r q t with
    | some l => runTogether i r fault t l s
    | none => s
  else if q.kind = 6 then setRan t idx s
  else
    let w := workOf s i (cueEnv s i r [t.val] q fault)
    reportWork i r t q idx w (setRan t idx (noteLevels i r.chart q { s with mem := w.mem }))

/-- What a cue does at its issue. -/
def issueEffect (i : Slot) (r : Run) (t : TileId) (q : Cue) (idx : Nat) (fault : ArithFault) (s : State) : State :=
  if isMatmul q.kind && !(q.kind == 9) || q.kind == 4 || q.kind == 5 || q.kind == 6 then computeIssue i r t q idx fault s
  else if q.kind = 7 ∨ q.kind = 8 then moverEffect i r t q idx s
  else if q.kind = 10 then drainIssue i r t q fault s
  else if q.kind = 11 then wakeIssue q s
  else s

/-- A cue with an output to another tile opens a packet on its route (R39, R54). -/
def openPacket (r : Run) (idx : Nat) (q : Cue) (y : Tile) : Tile :=
  if q.outRemote then
    let vc := match (routesInForce r.chart r.inst).find? fun x => x.id == q.outRoute with
      | some x => x.vc
      | none => 0
    { y with packets := y.packets ++ [{ index := idx, route := q.outRoute, vc := Fin.ofNat 4 vc }] }
  else y

/-- A cue in flight as it issues: a RECV_LAYER with source 0b01 reads the shard table (R152). -/
def flightOf (s : State) (i : Slot) (idx : Nat) (q : Cue) : InFlight :=
  { index := idx, cue := q, ran := false,
    frames := match pinsLayer q, (s.ctxOf i).model with
      | some l, some m => tableOf m l
      | _, _ => [] }

/-- A cue on the vector unit leaves its registers with values that no rule states (R79, log entry 88). -/
def useVregs (t : TileId) (q : Cue) (s : State) : State :=
  if onVector q.kind then drawNext (modTile t (fun y => { y with vregs := VecFile.used s.free }) s) else s

/-- A cue issues. What it reads as poison it never takes as data (R32): it makes no effect then. -/
def issueCue (r : Run) (t : TileId) (q : Cue) (ecc : EccFinding) (fault : ArithFault) (s : State) : State :=
  let i := r.pass.slot
  let idx := (s.tileOf t).pc
  match (if isWire q && !(wireReady s q) then stepEnded s r else none) with
  | some code => endPass code { s with coll := { s.coll with ended := none } }
  | none =>
    let s := openPhaseOf q (passGate r t idx q s)
    let r := (runOf s).getD r
    if q.kind = 9 then
      meetError ecc true (modTile t (fun y => { y with pc := idx + 1, waitSaid := false, deferred := y.deferred ++ [(idx, q)] }) s)
    else
      let s := useVregs t q (modTile t (openPacket r idx q) (modTile t (takeUnits (flightOf s i idx q)) s))
      if isPoison s ecc then meetError ecc true s else issueEffect i r t q idx fault (meetError ecc true s)

/-- The cue that a tile's prompter stands at. -/
def nextCue (r : Run) (t : TileId) (y : Tile) : Option Cue := if prompts y then cueAt r.chart r.inst t y.pc else none

def execCueIssue (t : TileId) (ecc : EccFinding) (fault : ArithFault) (s : State) : Host.Outcome State Fault Refusal :=
  .next (match runOf s with
    | some r => match nextCue r t (s.tileOf t) with
      | some q => if issues s r (s.tileOf t) q then issueCue r t q ecc fault s else s
      | none => s
    | none => s)

/-- 0x0412 once per cue (R149). -/
def execPrompterWaitLong (t : TileId) (s : State) : Host.Outcome State Fault Refusal :=
  .next (match runOf s with
    | some r => match nextCue r t (s.tileOf t) with
      | some q =>
        if issues s r (s.tileOf t) q || (s.tileOf t).waitSaid then s
        else cueEvent r.pass.slot 0x0412 t (s.tileOf t).pc 0 (modTile t (fun y => { y with waitSaid := true }) s)
      | none => s
    | none => s)

/-! ### Completion (R133) -/

/-- A RECV_LAYER may complete. -/
def recvDone (s : State) (r : Run) (t : TileId) (f : InFlight) : Bool :=
  let q := f.cue
  let l := q.field 125 110
  if q.field 127 126 = 2 then shardsReady s r.pass.slot r q.aTensor
  else match (s.ctxOf r.pass.slot).model with
    | none => false
    | some m => layerReady m r.pass.step l || (q.field 127 126 == 1 && decide (0 < r.pass.replays) && deckHas r m t f s)

/-- Every tile of the die but the one given is asleep. -/
def restAsleep (s : State) (d : DieId) (t : TileId) : Bool :=
  s.tiles.all fun p => !(dieOfTile p.1 == d) || p.1 == t.val || decide (p.2.sleep = .asleep)

/-- A WAKE or SLEEP may complete. -/
def wakeDone (q : Cue) (s : State) : Bool :=
  if q.field 127 127 = 1 then
    let d := s.dieOf (Fin.ofNat 36 (q.field 116 111))
    decide (d.rails = .up) && d.locked
  else true

def sleepDone (t : TileId) (q : Cue) (s : State) : Bool :=
  (allInFlight (s.tileOf t)).length == 1 && (q.field 127 127 == 0 || restAsleep s (Fin.ofNat 36 (q.field 116 111)) t)

/-- A cue in flight may complete. -/
def cueDone (s : State) (r : Run) (t : TileId) (f : InFlight) : Bool :=
  let q := f.cue
  if q.kind = 7 then (if isWire q then wireDone s r.pass.slot q else true)
  else if q.kind = 8 then recvDone s r t f
  else if q.kind = 10 then drainOver r t f.index (s.tileOf t)
  else if q.kind = 11 then wakeDone q s
  else if q.kind = 12 then sleepDone t q s
  else if q.kind = 13 then true
  else f.ran

/-- Take a cue off its units. -/
def freeUnits (idx : Nat) (y : Tile) : Tile :=
  let keep (f : InFlight) : Bool := !(f.index == idx)
  { y with array := y.array.filter keep, vector := y.vector.filter keep, movers := y.movers.filter keep, plain := y.plain.filter keep,
           packets := y.packets.filter fun p => !(p.index == idx) }

/-- Tiles of a region in force. -/
def regionTiles (r : Run) (id : Nat) (t : Nat) : Bool :=
  r.chart.regions.any fun g => g.id == id && regionHas r.chart r.inst g t

/-- WAKE has locked the clocks: the asleep tiles of the region, or of the die, go on (R148). -/
def wakeTiles (r : Run) (q : Cue) (s : State) : State :=
  let named (t : Nat) : Bool := if q.field 127 127 = 1 then dieOfTile t == Fin.ofNat 36 (q.field 116 111) else regionTiles r (q.field 126 117) t
  ((List.finRange 5184).filter fun (t : TileId) => named t && decide ((s.tileOf t).sleep = .asleep) && decide ((s.dieOf (dieOfTile t)).rails = .up)).foldl
    (fun s (t : TileId) => wakeTile t id s) s

/-- SLEEP: the tile's clock is to stop; scope 1 from a tile of another die drops the die's rails (log entry 53). -/
def sleepTile (t : TileId) (q : Cue) (s : State) : State :=
  let d : DieId := Fin.ofNat 36 (q.field 116 111)
  if q.field 127 127 = 0 then modTile t (fun y => { y with sleep := .deferredClocks }) s
  else if dieOfTile t = d then modTile t (fun y => { y with sleep := .deferredRails }) s
  else railsDown (fun x => x == d) s

/-- The owner has finished with a layer's results: their buffers are free (R198). -/
def releaseBuffers (l : Nat) (o : OwnedBlock) : OwnedBlock := if o.layer = l then { o with reserved := false, buffer := none } else o

/-- The last optimizer cue of a layer has completed: the layer's patches are formed (R166, R183), unless the reduction is aborted
(R219), and its buffers are released. -/
def formPatches (i : Slot) (r : Run) (q : Cue) (s : State) : State :=
  let opt (x : Cue) : Bool := x.kind == 4 && decide (10 ≤ x.kernel) && x.layer == q.layer
  let open' := s.tiles.any fun p => (openCues r.chart r.inst p.1 p.2).any opt
  match redOfStep s r.pass.step, gradSite s i with
  | some red, some (_, m) =>
    if open' || red.patched.contains q.layer || !(red.aborts.isEmpty) then s
    else
      let due := layerPatches (cueSite s i r q) s.mem m red q
      flushPatches i red.descId (modRed red.descId (fun x => { x with
        patchDue := x.patchDue ++ due, patched := x.patched ++ [q.layer], owned := x.owned.map (releaseBuffers q.layer) }) s)
  | _, _ => s

/-- What a cue does at its completion, its signals apart. -/
def doneEffect (i : Slot) (r : Run) (t : TileId) (f : InFlight) (s : State) : State :=
  let q := f.cue
  if q.kind = 8 ∧ q.field 127 126 = 1 then
    (match (s.ctxOf i).model with
      | some m => if layerReady m r.pass.step (q.field 125 110) then pinCopy i r m t f s else s
      | none => s)
  else if q.kind = 8 ∧ q.field 127 126 = 2 then (if f.ran then s else noteLevels i r.chart q (recvCopy i r t q s))
  else if q.kind = 11 then wakeTiles r q s
  else if q.kind = 12 then sleepTile t q s
  else if barrierType q = 2 then modTile t (fun y => { y with inPass := false }) s
  else if q.kind = 4 ∧ 10 ≤ q.kernel then formPatches i r q s
  else s

/-- A cue completes: its units are free, its counter rises. -/
def completeCue (r : Run) (t : TileId) (f : InFlight) (ecc : EccFinding) (s : State) : State :=
  let s := modTile t (freeUnits f.index) s
  meetError ecc true (signal r t f.cue (doneEffect r.pass.slot r t f s))

def execCueComplete (t : TileId) (index : Nat) (ecc : EccFinding) (s : State) : Host.Outcome State Fault Refusal :=
  .next (match runOf s with
    | some r => match (allInFlight (s.tileOf t)).find? fun f => f.index == index with
      | some f =>
        let s := if isWire f.cue then sendWire r.pass.slot f.cue s else s
        if cueDone s r t f then noteClosed (completeCue r t f ecc s) else s
      | none => s
    | none => s)

/-! ### The pass (R136) -/

/-- Entry barriers that each tile's list holds. -/
def entriesOf (c : Chart) : Nat :=
  match c.cues with
  | [] => 0
  | p :: _ => entryCount (p.2.zipIdx.map fun q => (q.2, q.1))

/-- An entry has backward layers: a layer opens twice in a tile, or it uses a kind that a forward-only pass does not (R147). -/
def hasBackward (c : Chart) (entry : Nat) : Bool :=
  c.cues.any fun p =>
    let l := passSegment entry (p.2.zipIdx.map fun q => (q.2, q.1))
    let starts := (l.filter fun q => q.2.layerStart).map fun q => q.2.layer
    (l.any fun q => q.2.kind == 9 || q.2.kind == 10 || isWire q.2) || starts.any fun k => decide (1 < starts.count k)

/-- A pass is a training step: its Chart trains and the entry has backward layers. -/
def isStep (c : Chart) (entry : Nat) : Bool := c.isTraining && hasBackward c entry

/-- A tile at the start of a pass. -/
def enterTile (c : Chart) (x : Installed) (entry t : Nat) (y : Tile) : Tile :=
  let y := { idleTile y with mark := none, parts := [], deckHolds := [], attn := [] }
  match segmentOf c x entry t with
  | p :: _ => { y with pc := p.1, inPass := true, halted := x.faults.any fun f => c.regions.any fun g => g.id == f.region && regionHas c x g t }
  | [] => y

/-- The tiles that a pass concerns: those with cues, and every listed one. -/
def enterTiles (c : Chart) (x : Installed) (entry : Nat) (s : State) : State :=
  ((List.finRange 5184).filter fun (t : TileId) => !((segmentOf c x entry t).isEmpty) || (s.tiles.any fun p => p.1 == t.val)).foldl
    (fun s t => modTile t (enterTile c x entry t) s) s

/-- A pass starts: counters at zero, queues empty; a training step clears the ledger; a region that still waits to be restaged
is waited for as in a replay. -/
def beginPass (i : Slot) (cmd : Cmd) (entry : Nat) (step : BitVec 32) (x : Installed) (c : Chart) (s : State) : State :=
  let s := enterTiles c x entry { s with signals := [] }
  let s := modCtx i (fun y => { y with
    ledger := if isStep c entry then stepLedger c y.ledger else y.ledger,
    blockMax := if isStep c entry then [] else y.blockMax, gradAt := [], arith := [], running := y.running ++ [cmd] }) s
  let s := modInstalled (fun y => { y with
    phase := none, slowSaid := false,
    pass := some { slot := i, cmd := cmd, entry := entry, step := step, openLayer := none, replays := 0, replayDue := !(x.faults.isEmpty),
                   hasGrad := false, run := 0, closed := false, sent := [], skip := [] } }) s
  s.coll.reds.foldl (fun s r => if r.step = step then sendSignals r.descId s else s) s

/-- RUN_PASS. -/
def passStart (i : Slot) (q : QId) (r : Ready) (s : State) : State :=
  let entry := leAt r.entry.body 0 1
  let step := BitVec.ofNat 32 (leAt r.entry.body 4 4)
  match s.installed, runningChart s i with
  | some x, some c =>
    if entry < entriesOf c ∧ entry < 16 then beginPass i (cmdOf q r.idx r.entry) entry step x c s else refuseStart i q r 0x0309 0 s
  | _, _ => refuseStart i q r 0x0309 0 s

def execRunPass (i : Slot) (q : QId) (s : State) : Host.Outcome State Fault Refusal :=
  .next (startRow 0x10 passStart i q s)

/-- Every tile has completed its end barrier. -/
def passOver (s : State) (r : Run) : Bool :=
  !r.pass.replayDue && s.tiles.all fun p => !p.2.inPass && (allInFlight p.2).isEmpty

/-- The pass completes. -/
def finishPass (r : Run) (s : State) : State :=
  let i := r.pass.slot
  let s := if isStep r.chart r.pass.entry then chooseLevels i r.chart s else s
  let s := mapTiles (fun _ y => idleTile y) (modInstalled (fun x => { x with pass := none, phase := none }) { s with signals := [] })
  completeCmd i r.pass.cmd 0 0xFFFF 0 (modCtx i (fun c => { c with model := c.model.map dropStream }) s)

def execPassComplete (s : State) : Host.Outcome State Fault Refusal :=
  .next (match runOf s with
    | some r => if passOver s r then finishPass r s else s
    | none => s)

/-! ### Replay of the open layer (R138, R142, R386 to R388) -/

/-- Cues of a layer in the whole pass. -/
def layerCues (r : Run) (l : Nat) : List Cue :=
  r.chart.cues.flatMap fun p => ((segmentOf r.chart r.inst r.pass.entry p.1).filter fun q => q.2.layer == l).map Prod.snd

/-- The layer has an input checkpoint (R142): a checkpoint tensor that its cues read from the stacks and that the layer before writes
there; layer 0's is written by its own first cues (DEDUCED, log entry 98). What the layer behind writes is its gradient checkpoint. -/
def hasCheckpoint (r : Run) (l : Nat) : Bool :=
  (layerCues r l).any fun q => q.kind == 8 && q.field 127 126 == 2 &&
    (match tensorOf r.chart q.aTensor with
      | some t => (match areaOf r.chart t.areaId with
        | some a => a.purpose == 3
        | none => false)
      | none => false) &&
    (layerCues r (l - 1)).any fun w => w.kind == 7 && w.field 127 127 == 1 && w.outTensor == q.aTensor

/-- The tile and cue that a failed replay is reported with: the first tile that has passed the layer's gate, and its gate (DESIGN CHOICE,
log entry 98: R149 wants a tile and a cue index, and no rule says whose). -/
def gateTile (s : State) (l : Nat) : TileId × Nat :=
  match s.tiles.find? fun p => p.2.mark.any fun m => m.layer == l with
  | some p => (Fin.ofNat 5184 p.1, (p.2.mark.map fun m => m.cueIndex).getD 0)
  | none => (0, 0)

/-- The pass cannot go on: its event, and its end. -/
def failPass (r : Run) (code : Code) (l : Nat) (s : State) : State :=
  let g := gateTile s l
  endPass code (cueEvent r.pass.slot code g.1 g.2 r.pass.replays s)

/-- Deck areas beneath a tile that the open layer reads and that hold other blocks than at the mark. -/
def staleAreas (r : Run) (l t : Nat) (y : Tile) : List (Nat × Nat × List Nat) :=
  match y.mark with
  | none => []
  | some m => m.areas.filter fun a => !(find? y.deckHolds a.1 == some a.2) &&
      (segmentOf r.chart r.inst r.pass.entry t).any fun p => p.2.layer == l && p.2.bDeck && match tensorOf r.chart p.2.bTensor with
        | some w => w.areaId == a.1
        | none => false

/-- Copy the slice that an area held back. -/
def restoreArea (i : Slot) (r : Run) (m : Model) (t : TileId) (a : Nat × Nat × List Nat) (s : State) : State := laySlice i r m t a.2.1 a.2.2 [] s

/-- The cue at which a tile restarts: the mark's, or in an understudy's list the same layer's start. -/
def restartAt (r : Run) (t : Nat) (m : LayerMark) : Nat :=
  let l := segmentOf r.chart r.inst r.pass.entry t
  let starts := (l.filter fun p => p.2.layerStart && p.2.layer == m.layer).map Prod.fst
  if starts.contains m.cueIndex then m.cueIndex
  else (if r.pass.hasGrad then starts.getLast? else starts.head?).getD m.cueIndex

/-- A tile restarts from its mark, or from its entry barrier if it has none; its partial statistics of the open layer are the mark's, and
a tile that no longer serves the pass has none. -/
def restartTile (r : Run) (l : Option Nat) (t : Nat) (up : Bool) (y : Tile) : Tile :=
  let z := { idleTile y with attn := [], halted := false, sleep := if up then .awake else y.sleep,
                             parts := y.parts.filter fun p => !(some p.layer == l) }
  match segmentOf r.chart r.inst r.pass.entry t with
  | [] => z
  | p :: _ => match y.mark with
    | some m => { z with inPass := true, pc := restartAt r t m, parts := z.parts ++ m.ledger.filter fun p => some p.layer == l,
                         counters := m.counters.zipIdx.foldl (fun acc x => store 0 acc x.2 x.1) [] }
    | none => { z with inPass := true, pc := p.1 }

/-- Every tile restarts: 0x0C07. Only the signals of the open layer are discarded, none where no layer has opened. -/
def restart (r : Run) (l : Option Nat) (s : State) : State :=
  let i := r.pass.slot
  let s := { s with signals := s.signals.filter fun x => !(some x.layer == l) }
  let s := mapTiles (fun t y => restartTile r l t (decide ((s.dieOf (dieOfTile t)).rails = .up)) y) s
  let s := match l with
    | some k => sumLedger i k s
    | none => s
  report { code := 0x0C07, slot := BitVec.ofNat 8 i, cue := l.getD 0xFFFF, value := r.pass.replays + 1 }
    (modPass (fun p => { p with replayDue := false, replays := p.replays + 1, closed := false, skip := p.skip ++ p.sent, sent := [] }) s)

/-- Restore the deck areas and restart; where a layer's blocks lie in no stack any more they are fetched first, and the replay
waits (R387). -/
def replayLayer (r : Run) (l : Nat) (s : State) : State :=
  let i := r.pass.slot
  let stale := s.tiles.flatMap fun p => (staleAreas r l p.1 p.2).map fun a => ((Fin.ofNat 5184 p.1 : TileId), a)
  match (s.ctxOf i).model with
  | none => restart r (some l) s
  | some m =>
    let gone := (stale.map fun x => x.2.2.1).filter fun k => !(layerReady m r.pass.step k)
    if gone.isEmpty then restart r (some l) (stale.foldl (fun s x => restoreArea i r m x.1 x.2 s) s)
    else (gone.foldl insertNew []).foldl (fun s k => refetchLayer i k r.pass.step s) s

/-- Replay once every faulted region runs again. -/
def replay (r : Run) (s : State) : State :=
  match r.pass.openLayer with
  | none => restart r none s
  | some l =>
    if !(hasCheckpoint r l) then failPass r 0x0413 l s
    else if 4 ≤ r.pass.replays then failPass r 0x0C08 l s
    else replayLayer r l s

def execReplayOpenLayer (s : State) : Host.Outcome State Fault Refusal :=
  .next (match runOf s with
    | some r => if r.pass.replayDue && r.inst.faults.isEmpty then replay r s else s
    | none => s)

end Sys2Proof.Machine
end

