-- ==== Sys2Proof/Machine/Collectives.lean ====
section
/-! DEFINITION. COUNTS, SCALAR_SUM, BROADCAST and BARRIER (R225 to R229), their messages, timeouts and aborts (R230 to
R232). -/

namespace Sys2Proof.Machine

open Sys2Proof

/-! ### Instances -/

/-- The running instance of a descriptor. -/
def instOf (s : State) (desc : Nat) : Option CollInst := s.coll.insts.find? fun x => x.descId == desc

/-- Replace the running instance of a descriptor. -/
def modInst (desc : Nat) (f : CollInst → CollInst) (s : State) : State :=
  { s with coll := { s.coll with insts := s.coll.insts.map fun x => if x.descId == desc then f x else x } }

/-- Participants in ascending order. -/
def CollInst.members (x : CollInst) : List Nat := maskMembers x.mask

/-- An instance ends: its record, its seq (R210). -/
def endInst (x : CollInst) (code : Code) (initiator : Nat) (s : State) : State :=
  let s := { s with coll := { s.coll with insts := s.coll.insts.filter fun y => !(y.descId == x.descId) } }
  setSeq (collSlot s) x.descId x.seq (completeCmd (collSlot s) x.cmd code initiator 0 s)

/-- A header of this member for an instance. -/
def instHdr (s : State) (x : CollInst) (arg : Nat) : CollHdr := ownHdr s x.descId (BitVec.ofNat 32 x.seq) arg x.maskTag 0

/-- mask_tag of a mask (R212). -/
def maskTagOf (m : BitVec 2048) : BitVec 32 := BitVec.ofNat 32 (leAt (Config.shake256 (maskBytes m) 64) 0 4)

/-! ### COUNTS (R226) -/

/-- Sum of the counts at position `k` over some members. -/
def countSum (x : CollInst) (k : Nat) (p : Nat → Bool) : Nat :=
  ((x.counts.filter fun c => p c.1).map fun c => (c.2.getD k 0).toNat).sum

/-- Totals, then exclusive prefixes, of this member. -/
def countBytes (own : Nat) (x : CollInst) : Bytes :=
  ((List.range x.v).flatMap fun k => toLe 8 (countSum x k fun _ => true)) ++
    (List.range x.v).flatMap fun k => toLe 8 (countSum x k fun m => decide (m < own))

/-- Every vector is held: the results, or the overflow. -/
def finishCounts (x : CollInst) (s : State) : State :=
  if (List.range x.v).any fun k => decide (2 ^ 64 ≤ countSum x k fun _ => true) then abortInst x.descId 0x0706 s
  else endInst x 0 0xFFFF (storeBytes (hdmKey (collSlot s) x.dst) (countBytes (ownMember s) x) s)

/-! ### SCALAR_SUM (R227) -/

/-- Exact sum of finite FP32 values in units of 2^−149. -/
def exactSum (l : List Num) : Int :=
  (l.map fun n => match n with
    | .fin m e => m * 2 ^ (e + 149).toNat
    | _ => 0).sum

/-- The sum of values in a format, divided by `n` (Table 3-6 for flags). -/
def scalarBits (f : FFmt) (n : Nat) (l : List Num) : Nat :=
  let pos := l.any fun x => decide (x = .inf false)
  let neg := l.any isNegInf
  if (l.any fun x => decide (x = .nan)) || (pos && neg) then nanBits f
  else if pos then infBits f false
  else if neg then infBits f true
  else
    let t := exactSum l
    if t = 0 then 0 else (convRat f false .rne (decide (t < 0)) t.natAbs n (-149)).bits

/-- FP32 results, FP64 results, the count. -/
def scalarBytes (x : CollInst) : Bytes :=
  let n := x.members.length
  let vals (k : Nat) : List Num := x.scalars.map fun c => ofW (c.2.getD k 0)
  let d := if x.mean then n else 1
  ((List.range x.v).flatMap fun k => toLe 4 (scalarBits fp32 d (vals k))) ++
    ((List.range x.v).flatMap fun k => toLe 8 (scalarBits fp64 d (vals k))) ++ toLe 4 n

/-! ### BROADCAST (R228) -/

/-- Chunks of a payload. -/
def chunkCount (x : CollInst) : Nat := (x.length + 65535) / 65536

/-- Bytes of chunk `c`. -/
def chunkSize (x : CollInst) (c : Nat) : Nat := min 65536 (x.length - 65536 * c)

/-- The port of chunk `c` among this member's usable planes. -/
def chunkPort (s : State) (c : Nat) : PortId :=
  let l := portsInService s
  l.getD (c % l.length) 0

/-- The root multicasts a chunk. -/
def sendChunk (x : CollInst) (c : Nat) (s : State) : State :=
  sendMsg (chunkPort s c) (groupEp s) (.bcastChunk (instHdr s x c) (s.hdmBytes (collSlot s) (x.src + 65536 * c) (chunkSize x c))) s

/-- The root sends its payload and BCAST_END. -/
def sendPayload (x : CollInst) (s : State) : State :=
  let d := Config.shake256 (s.hdmBytes (collSlot s) x.src x.length) 64
  sendAll (groupEp s) (.bcastEnd (instHdr s x 0) x.length d) ((List.range (chunkCount x)).foldl (fun s c => sendChunk x c s) s)

/-- Chunks that a participant does not hold. -/
def missingChunks (x : CollInst) : List Nat := (List.range (chunkCount x)).filter fun c => !(x.chunks.contains c)

/-- One round of requests, by multicast on every usable plane (R225). -/
def requestRound (x : CollInst) (s : State) : State :=
  (missingChunks x).foldl (fun s c => sendAll (groupEp s) (.bcastReq (instHdr s x c)) s)
    (modInst x.descId (fun x => { x with rounds := x.rounds + 1 }) s)

/-- Rounds are left. -/
def roundsLeft (s : State) (x : CollInst) : Bool := decide (x.rounds < (descOf s x.descId).retryLimit)

/-- All chunks are here after BCAST_END: the digest decides. -/
def checkDigest (x : CollInst) (s : State) : State :=
  match x.digest with
  | none => s
  | some d =>
    if !((missingChunks x).isEmpty) then s
    else if Config.shake256 (s.hdmBytes (collSlot s) x.dst x.length) 64 == d then
      endInst x 0 0xFFFF (sendAll (groupEp s) (.bcastDone (instHdr s x 0)) s)
    else abortInst x.descId 0x0707 s

/-! ### Progress -/

/-- Every participant is in a list. -/
def allIn (x : CollInst) (l : List Nat) : Bool := x.members.all fun m => l.contains m

/-- An instance completes once it holds what it waits for. -/
def advanceInst (desc : Nat) (s : State) : State :=
  match instOf s desc with
  | none => s
  | some x =>
    if !(x.aborts.isEmpty) then s
    else if x.kind = 2 then (if allIn x (x.counts.map Prod.fst) then finishCounts x s else s)
    else if x.kind = 3 then
      (if allIn x (x.scalars.map Prod.fst) then endInst x 0 0xFFFF (storeBytes (hdmKey (collSlot s) x.dst) (scalarBytes x) s) else s)
    else if x.kind = 4 then
      (if x.root = ownMember s then (if allIn x (x.root :: x.arrived) then endInst x 0 0xFFFF s else s) else checkDigest x s)
    else if allIn x x.arrived then endInst x 0 0xFFFF s
    else s

/-- Requests of a sender for a chunk that came on a port. -/
def reqCount (x : CollInst) (sender c p : Nat) : Nat := x.reqs.count (sender, c, p)

/-- A request on a port is not a duplicate of one that came on another port: its port has carried as many as any other (R225; log
entry 76). -/
def newRequest (x : CollInst) (sender c p : Nat) : Bool := (List.range 16).all fun k => decide (reqCount x sender c k ≤ reqCount x sender c p)

/-- A message's effect on a running instance of its kind. -/
def applyMsg (x : CollInst) (m : HeldMsg) (s : State) : State :=
  match m with
  | .counts h v =>
    if v.length ≠ x.v then abortInst x.descId 0x0705 s
    else if (x.counts.map Prod.fst).contains h.sender.toNat then s
    else modInst x.descId (fun x => { x with counts := x.counts ++ [(h.sender.toNat, v)] }) s
  | .scalars h v =>
    if v.length ≠ x.v then abortInst x.descId 0x0705 s
    else if (x.scalars.map Prod.fst).contains h.sender.toNat then s
    else modInst x.descId (fun x => { x with scalars := x.scalars ++ [(h.sender.toNat, v)] }) s
  | .chunk h data =>
    let c := h.arg.toNat
    if x.root = ownMember s ∨ x.chunks.contains c then s
    else if h.sender.toNat ≠ x.root ∨ chunkCount x ≤ c ∨ data.length ≠ chunkSize x c then discardColl x.descId s
    else modInst x.descId (fun x => { x with chunks := x.chunks ++ [c] }) (storeBytes (hdmKey (collSlot s) (x.dst + 65536 * c)) data s)
  | .bcastEnd h n d =>
    if x.root = ownMember s ∨ x.digest.isSome then s
    else if h.sender.toNat ≠ x.root then discardColl x.descId s
    else if n.toNat ≠ x.length then abortInst x.descId 0x0705 s
    else
      let s := modInst x.descId (fun x => { x with digest := some d }) s
      if (missingChunks x).isEmpty || !(roundsLeft s x) then s else requestRound x s
  | .req p h =>
    if x.root ≠ ownMember s then s
    else if chunkCount x ≤ h.arg.toNat then discardColl x.descId s
    else
      let t := modInst x.descId (fun x => { x with reqs := x.reqs ++ [(h.sender.toNat, h.arg.toNat, p.val)] }) s
      if newRequest x h.sender.toNat h.arg.toNat p.val then sendChunk x h.arg.toNat t else t
  | .done h | .arrive h => modInst x.descId (fun x => { x with arrived := insertNew x.arrived h.sender.toNat }) s
  | _ => s

/-- The command whose instances a message belongs to. -/
def commandOf : HeldMsg → Nat
  | .counts _ _ => 2
  | .scalars _ _ => 3
  | .chunk _ _ | .bcastEnd _ _ _ | .done _ | .req _ _ => 4
  | .arrive _ => 5
  | _ => 1

/-- A message for a running instance: another kind or a sender outside the mask is not expected; another mask or group size
aborts (R211, R212). -/
def takeMsg (x : CollInst) (h : CollHdr) (m : HeldMsg) (s : State) : State :=
  if !(x.aborts.isEmpty) then s
  else if x.kind ≠ commandOf m then discardColl x.descId s
  else if h.maskTag ≠ x.maskTag ∨ h.groupSize.toNat ≠ groupSizeOf s then abortInst x.descId 0x0705 s
  else if !(x.members.contains h.sender.toNat) then discardColl x.descId s
  else advanceInst x.descId (applyMsg x m s)

/-- A collective message arrives. -/
def collMsg (p : PortId) (h : CollHdr) (m : HeldMsg) (s : State) : State :=
  if !(portTakes s p) then s
  else if !(h.chartTag == tagNow s) then discardColl h.descId.toNat s
  else match instOf s h.descId.toNat with
    | some x => if x.seq = h.seq.toNat then takeMsg x h m s else holdMsg (commandOf m) m s
    | none => holdMsg (commandOf m) m s

def execCountsVec (p : PortId) (h : CollHdr) (v : List (BitVec 64)) (s : State) : Host.Outcome State Fault Refusal :=
  .next (collMsg p h (.counts h v) s)

def execScalarVec (p : PortId) (h : CollHdr) (v : List Word) (s : State) : Host.Outcome State Fault Refusal :=
  .next (collMsg p h (.scalars h v) s)

def execBcastChunk (p : PortId) (h : CollHdr) (data : Bytes) (s : State) : Host.Outcome State Fault Refusal :=
  .next (collMsg p h (.chunk h data) s)

def execBcastEnd (p : PortId) (h : CollHdr) (length : Word) (digest : Bytes) (s : State) : Host.Outcome State Fault Refusal :=
  .next (collMsg p h (.bcastEnd h length digest) s)

def execBcastDone (p : PortId) (h : CollHdr) (s : State) : Host.Outcome State Fault Refusal :=
  .next (collMsg p h (.done h) s)

def execArrive (p : PortId) (h : CollHdr) (s : State) : Host.Outcome State Fault Refusal :=
  .next (collMsg p h (.arrive h) s)

/-- BCAST_REQ: the root sends the chunk again; it reaches the other members too and changes nothing there. -/
def execBcastReq (p : PortId) (h : CollHdr) (s : State) : Host.Outcome State Fault Refusal :=
  .next (collMsg p h (.req p h) s)

/-- retry_gap after a round: another one while chunks are missing and rounds are left. -/
def execBcastReqRound (desc : BitVec 16) (s : State) : Host.Outcome State Fault Refusal :=
  .next (match instOf s desc.toNat with
    | some x =>
      if x.kind ≠ 4 ∨ x.root = ownMember s ∨ !(x.aborts.isEmpty) ∨ x.digest.isNone then s
      else if (missingChunks x).isEmpty then checkDigest x s
      else if roundsLeft s x then requestRound x s
      else s
    | none => s)

/-! ### The commands -/

/-- The participation mask of a command (R212). -/
def maskOfCmd (s : State) (i : Slot) (b : CollBody) : BitVec 2048 :=
  if b.maskAddr = 0 then fullMask (groupSizeOf s) else maskBits (s.hdmBytes i b.maskAddr 256)

/-- Bytes that a command reads and writes, by kind. -/
def collSpans (kind : Nat) (b : Bytes) : Nat × Nat :=
  let v := leAt b 16 1
  if kind = 2 then (8 * v, 16 * v) else if kind = 3 then (4 * v, 12 * v + 4) else if kind = 4 then (leAt b 20 4, leAt b 20 4) else (0, 0)

/-- Values of a command's own fields that R213 allows. -/
def collFields (s : State) (kind : Nat) (mask : BitVec 2048) (b : Bytes) : Bool :=
  let v := leAt b 16 1
  if kind = 2 then decide (1 ≤ v) && decide (v ≤ 64)
  else if kind = 3 then decide (1 ≤ v) && decide (v ≤ 16)
  else if kind = 4 then decide (1 ≤ leAt b 20 4) && decide (leAt b 16 2 < 2048) && mask.getLsbD (leAt b 16 2) && decide (leAt b 16 2 < groupSizeOf s)
  else true

/-- Why a command is refused with 0x0709. -/
def collRefused (s : State) (i : Slot) (kind : Nat) (b : CollBody) : Bool :=
  match runningChart s i with
  | none => true
  | some c =>
    let mask := maskOfCmd s i b
    let n := collSpans kind b.rest
    !(c.collectives.any fun d => d.id == b.descId && d.command == kind) || !(aboveFloor s b.descId b.seq) ||
      (!(b.maskAddr == 0) && !(inHdm s i b.maskAddr 256)) || !(mask.getLsbD (ownMember s)) || !(collFields s kind mask b.rest) ||
      (!(kind == 5) && (!(inHdm s i (srcAddr b.rest) n.1) || !(inHdm s i (dstAddr b.rest) n.2)))

/-- Words of a byte range. -/
def readVec (s : State) (i : Slot) (a n w : Nat) : List Nat := (List.range n).map fun k => leNat (s.hdmBytes i (a + w * k) w)

/-- The instance of a command before it has exchanged anything. -/
def newInst (s : State) (i : Slot) (q : QId) (r : Ready) (kind : Nat) (b : CollBody) : CollInst :=
  let mask := maskOfCmd s i b
  let v := leAt b.rest 16 1
  { descId := b.descId, seq := b.seq, kind := kind, cmd := { cmdOf q r.idx r.entry with key := b.descId }, mask := mask, maskTag := maskTagOf mask,
    v := v, mean := (byteAt b.rest 17).getLsbD 0, dst := dstAddr b.rest, src := srcAddr b.rest, root := leAt b.rest 16 2, length := leAt b.rest 20 4,
    counts := if kind = 2 then [(ownMember s, (readVec s i (srcAddr b.rest) v 8).map (BitVec.ofNat 64))] else [],
    scalars := if kind = 3 then [(ownMember s, (readVec s i (srcAddr b.rest) v 4).map (BitVec.ofNat 32))] else [],
    arrived := if kind = 5 then [ownMember s] else [], chunks := [], digest := none, rounds := 0, reqs := [], aborts := [] }

/-- What a command sends at its start. -/
def sendFirst (x : CollInst) (s : State) : State :=
  if x.kind = 2 then sendAll (groupEp s) (.countsVec (instHdr s x 0) ((x.counts.headD (0, [])).2)) s
  else if x.kind = 3 then sendAll (groupEp s) (.scalarVec (instHdr s x 0) ((x.scalars.headD (0, [])).2)) s
  else if x.kind = 4 then (if x.root = ownMember s then sendPayload x s else s)
  else sendAll (groupEp s) (.arrive (instHdr s x 0)) s

/-- Header of a held message. -/
def heldHdr : HeldMsg → Option CollHdr
  | .counts h _ | .scalars h _ | .chunk h _ | .bcastEnd h _ _ | .done h | .arrive h | .req _ h => some h
  | _ => none

/-- The held messages of an instance that starts. -/
def replayHeld (desc : Nat) (l : List HeldMsg) (s : State) : State :=
  l.foldl (fun s m => match heldHdr m, instOf s desc with
    | some h, some x => takeMsg x h m s
    | _, _ => s) s

/-- A group collective starts: an instance aborted while it was held completes at once (R232). -/
def collRun (i : Slot) (q : QId) (r : Ready) (kind : Nat) (b : CollBody) (s : State) : State :=
  let held := s.coll.held
  let mine := heldFor s b.descId b.seq
  let aborts := heldAborts mine
  let x := newInst s i q r kind b
  let s := discardStale b.descId b.seq s
  let s := addRunning i x.cmd { s with coll := { s.coll with insts := s.coll.insts ++ [x], held := heldLater b.descId b.seq held } }
  if !(aborts.isEmpty) then endInst x (lowestAbort aborts).2 (lowestAbort aborts).1 s
  else advanceInst b.descId (replayHeld b.descId mine (sendFirst x s))

/-- The start of COUNTS, SCALAR_SUM, BROADCAST and BARRIER. -/
def collStart (kind : Nat) (i : Slot) (q : QId) (r : Ready) (s : State) : State :=
  let b := parseColl r.entry.body
  if collRefused s i kind b then refuseStart i q r 0x0709 0 s
  else if (portsInService s).isEmpty then refuseStart i q r 0x0708 0 s
  else collRun i q r kind b s

def execCounts (i : Slot) (q : QId) (s : State) : Host.Outcome State Fault Refusal :=
  .next (startRow 0x31 (collStart 2) i q s)

def execScalarSum (i : Slot) (q : QId) (s : State) : Host.Outcome State Fault Refusal :=
  .next (startRow 0x32 (collStart 3) i q s)

def execBroadcast (i : Slot) (q : QId) (s : State) : Host.Outcome State Fault Refusal :=
  .next (startRow 0x33 (collStart 4) i q s)

def execBarrier (i : Slot) (q : QId) (s : State) : Host.Outcome State Fault Refusal :=
  .next (startRow 0x34 (collStart 5) i q s)

/-! ### Timeouts and aborts (R230 to R232) -/

/-- D expires (R230). -/
def execCollectiveTimeout (desc : BitVec 16) (s : State) : Host.Outcome State Fault Refusal :=
  .next (match instOf s desc.toNat with
    | some x => if x.aborts.isEmpty then abortInst x.descId 0x0701 s else s
    | none => s)

/-- The instance has completed on this member. -/
def alreadyDone (s : State) (desc seq : Nat) : Bool :=
  match find? (s.ctxOf (collSlot s)).lastSeq desc with
  | some n => decide (seq ≤ n)
  | none => false

/-- The command of a descriptor. -/
def commandFor (s : State) (desc : Nat) : Nat := (descOf s desc).command

/-- An ABORT symbol arrives: it counts for a running or held instance, changes nothing for a completed one (R232). -/
def takeAbort (a : AbortSym) (s : State) : State :=
  let d := a.descId.toNat
  let n := a.seq.toNat
  if !(a.chartTag == tagNow s) then discardColl d s
  else if s.coll.insts.any fun x => x.descId == d && x.seq == n then
    modInst d (noteAbort a.initiator.toNat a.error) s
  else if s.coll.reds.any fun r => r.descId == d && r.step.toNat == n then
    modRed d (fun r => { r with aborts := insertNew r.aborts (a.initiator.toNat, a.error) }) s
  else if alreadyDone s d n then collEvent 0x0713 d n locNone s
  else holdMsg (commandFor s d) (.abort a) s

/-- A codeword with a symbol (R239): its link_status is noted, an ABORT symbol is taken. -/
def execAbortSymbol (p : PortId) (w : Codeword) (s : State) : Host.Outcome State Fault Refusal :=
  .next (if !(portTakes s p) then s
    else
      let s := takeStatus p (some (cwStatus w)) s
      match abortOf w with
      | some a => if (holder s).isSome then takeAbort a s else s
      | none => s)

/-- H after the first abort: the command completes with the lowest one (R232). -/
def execAbortWaitExpire (desc : BitVec 16) (s : State) : Host.Outcome State Fault Refusal :=
  .next (match instOf s desc.toNat with
    | some x => if x.aborts.isEmpty then s else endInst x (lowestAbort x.aborts).2 (lowestAbort x.aborts).1 s
    | none => match redOf s desc.toNat with
      | some r => if r.aborts.isEmpty then s else abortedRed (collSlot s) r (lowestAbort r.aborts) s
      | none => s)

end Sys2Proof.Machine
end

