-- ==== Sys2Proof/Machine/Loader.lean ====
section
/-! DEFINITION. The loader's commands: stage and unstage (R119, R120, R126), the end of the checks (R121), the end of an
installation (R125, Table 5-13), and partial restaging (R127, Table 5-14). -/

namespace Sys2Proof.Machine

open Sys2Proof

/-! ### Starting an op (R119, R120) -/

/-- LOAD_STATUS and LOAD_RECORD. -/
def setLoadStatus (code : Code) (sect record : Nat) (s : State) : State :=
  { s with loader := { s.loader with error := code, sect := BitVec.ofNat 16 sect, record := BitVec.ofNat 32 record } }

/-- A refused op: LOAD_STATUS, the REFUSED display, the event; go reads 0. -/
def refuseOp (i : Slot) (code : Code) (sect record : Nat) (s : State) : State :=
  let s := setLoadStatus code sect record { s with loader := { s.loader with running := none } }
  report { code := code, slot := BitVec.ofNat 8 i } (modSlot i (fun l => { l with refused := true }) s)

/-- The op and slot fields of LOAD_CTRL as the write of go leaves them. -/
def setLoadCtrl (op : BitVec 4) (i : Slot) (s : State) : State :=
  { s with loader := { s.loader with op := op, slot := BitVec.ofNat 3 i } }

/-- The op that the registers name, latched. -/
def latchOp (stage : Bool) (i : Slot) (s : State) : LoadOp :=
  let l := s.loader
  { isStage := stage, slot := i, addr := l.addrLo.toNat / 64 * 64 + l.addrHi.toNat * 2 ^ 32, len := l.length.toNat,
    member := l.member.toNat, image := [], onActive := holder s == some i }

/-- The op's image lies in the slot's HDM range (R120, R267). -/
def imageMapped (s : State) (op : LoadOp) : Bool :=
  decide (op.slot.val * 2 ^ 38 ≤ op.addr) && inHdm s op.slot (op.addr - op.slot.val * 2 ^ 38) op.len

/-- Why an op cannot start (R120). -/
def opRefusal (s : State) (op : LoadOp) : Option Code :=
  if !(isOpen s op.slot) then some 0x0234
  else if op.isStage && !(imageMapped s op) then some 0x0233
  else if op.onActive && !((s.ctxOf op.slot).running.isEmpty) then some 0x0232
  else none

/-- A stage op copies the image; an unstage op stops the Chart if it is installed (R119, R126). -/
def beginOp (op : LoadOp) (s : State) : State :=
  if op.isStage then
    let img := s.hdmBytes op.slot (op.addr - op.slot.val * 2 ^ 38) op.len
    { s with loader := { s.loader with running := some { op with image := img } } }
  else
    let s := match s.installed with
      | some x => if x.slot = op.slot then stopChart s else s
      | none => s
    setSlotState op.slot .unstaging { s with loader := { s.loader with running := some op } }

/-- A write of go with op stage or unstage. -/
def startOp (stage : Bool) (i : Slot) (s : State) : State :=
  let busy := s.loader.running.isSome
  let s := setLoadCtrl (if stage then 1 else 2) i s
  if busy then s
  else
    let op := latchOp stage i s
    let s := setLoadStatus 0 noSect noRecord { s with loader := { s.loader with lastMember := op.member } }
    if !stage && decide ((s.loader.slots[i]).state = .empty) then s
    else match opRefusal s op with
      | some code => refuseOp i code noSect noRecord s
      | none => beginOp op s

/-- BAR0 answers a write through the active port. -/
def barWritable (s : State) : Bool := bar0Up s && activeUp s

def execStage (i : Slot) (s : State) : Host.Outcome State Fault Refusal :=
  .next (when' (barWritable s) (startOp true i) s)

def execUnstage (i : Slot) (s : State) : Host.Outcome State Fault Refusal :=
  .next (when' (barWritable s) (startOp false i) s)

/-- A write of go with a reserved op starts nothing (R119). -/
def reservedOp (op : BitVec 4) (i : Slot) (s : State) : State :=
  let s' := setLoadCtrl op i s
  if s.loader.running.isSome then s' else setLoadStatus 0x0207 noSect noRecord s'

def execLoadGoReservedOp (op : BitVec 4) (i : Slot) (s : State) : Host.Outcome State Fault Refusal :=
  .next (when' (barWritable s && !(op == 1) && !(op == 2)) (reservedOp op i) s)

/-- A read of LOAD_STATUS ends every REFUSED display (R120). -/
def execLoadStatusRead (s : State) : Host.Outcome State Fault Refusal :=
  .next (when' (barWritable s) (fun s => { s with loader := { s.loader with
    slots := s.loader.slots.map fun l => { l with refused := false } } }) s)

/-! ### The end of the checks (R121) -/

/-- Checks 1 to 8: the Chart of the image, or the first refusal. -/
def checkImage (s : State) (op : LoadOp) : Except Refused Chart :=
  match check1 s op.image op.len with
  | some r => .error r
  | none =>
  match check2 op.image with
  | some r => .error r
  | none =>
  match check3 op.image with
  | some r => .error r
  | none =>
    let c := parseChart op.image
    match check4 c with
    | some r => .error r
    | none =>
    match check5 c with
    | some r => .error r
    | none =>
    match check6 op.image c with
    | some r => .error r
    | none =>
    match check7 op.image c with
    | some r => .error r
    | none =>
    match check8 c with
    | some r => .error r
    | none => .ok c

/-- Checks 9 to 11: the variants to stage, or the first refusal. -/
def checkHere (s : State) (op : LoadOp) (c : Chart) : Except Refused (List (Nat × Nat)) :=
  match check9 s op c with
  | some r => .error r
  | none =>
  match check10 s c with
  | some r => .error r
  | none => check11 s c

/-- Spare-track shift settings from the effective defect map (R42): a group with one failed track is shifted. -/
def setShifts (s : State) : State :=
  (s.defects.entries.filter fun e => entryKind e == 5).foldl (fun s e =>
    let l : LinkDir := { router := Fin.ofNat 5184 (entryTile e), dir := Fin.ofNat 6 (entryDetail e % 8) }
    let g := entryDetail e / 8 % 64
    if (badTracks s l g).length = 1 then modLink l (fun k => { k with shift := setPair k.shift g (entryDetail e / 512 % 32) }) s else s) s

/-- What a staging does to the engine's rows and links before it looks at them (R42, R47). -/
def stageRepairs (s : State) : State := setShifts (coverRows s)

/-- The Log keeps the channels of the cycle that refused the last image (R122). -/
def noteCycle (op : LoadOp) (r : Refused) (s : State) : State :=
  if r.code = 0x0213 then { s with loader := { s.loader with cycle := cycleChannels (parseChart op.image) } } else s

/-- The image is refused: the slot keeps its Chart and state underneath (R120). -/
def imageRefused (op : LoadOp) (r : Refused) (s : State) : State :=
  refuseOp op.slot r.code r.sect r.record (noteCycle op r s)

/-- The image passes: its copy replaces the slot's; on the active slot it replaces the running Chart, tile and deck SRAM kept
(R120), and its ledger and slot pools start empty; elsewhere it is STAGED, with 0x0240 for each region that check 11 puts on a variant
and 0x0406 for each tile that it folds. -/
def imageAccepted (op : LoadOp) (c : Chart) (vs : List (Nat × Nat)) (s : State) : State :=
  let s := { s with loader := { s.loader with running := none } }
  let put (s : State) : State :=
    modCtx op.slot (fun x => { x with ledger := [], blockMax := [], pool := [], bounced := [], gradAt := [], arith := [] }) (modSlot op.slot (fun l => { l with chart := some c, folded := [] }) s)
  if holder s = some op.slot then startInstall op.slot c vs (put (stopKeeping (fun d => c.dieMask.getLsbD d) s))
  else
    let s := vs.foldl (fun s p => report { code := 0x0240, slot := BitVec.ofNat 8 op.slot, value := p.1 } s)
      (setSlotState op.slot .staged (put s))
    sayFolded op.slot (foldedTiles s c vs) s

/-- CHART_CHECK_DONE for the stage op that runs. -/
def finishCheck (op : LoadOp) (s : State) : State :=
  match checkImage s op with
  | .error r => imageRefused op r s
  | .ok c =>
    let s := stageRepairs s
    match checkHere s op c with
    | .error r => imageRefused op r s
    | .ok vs => imageAccepted op c vs s

def execChartCheckDone (s : State) : Host.Outcome State Fault Refusal :=
  .next (match s.loader.running with
    | some op => if op.isStage && !(inCurtain s) then finishCheck op s else s
    | none => s)

/-- The erase ends: EMPTY, go reads 0 (R126). -/
def execUnstageDone (s : State) : Host.Outcome State Fault Refusal :=
  .next (match s.loader.running with
    | some op =>
      if op.isStage then s
      else modSlot op.slot (fun l => { l with state := .empty, chart := none }) { s with loader := { s.loader with running := none } }
    | none => s)

/-! ### Installation ends (Table 5-13) -/

/-- Every die of the Chart is up and locked. -/
def diesReady (s : State) (c : Chart) : Bool :=
  allDies.all fun (d : DieId) => !(c.dieMask.getLsbD d) || (decide ((s.dieOf d).rails = .up) && (s.dieOf d).locked)

/-- The summary bytes of what the copy of initial data has written into SRAM (R66). -/
def fillSummaries (x : Installed) (c : Chart) (s : State) : State :=
  let y : Site := { slot := x.slot, chart := c, inst := x, level := fun _ => 0 }
  let filled (t : Tensor) : Bool := c.areas.any fun a => a.id == t.areaId && decide (0 < a.initLength)
  { s with mem := (c.tensors.filter filled).foldl (fun m t => refreshBlocks y t anywhere m) s.mem }

/-- RUNNING: initial data copied, prompters at their first cue (R125). -/
def finishInstall (x : Installed) (c : Chart) (s : State) : State :=
  let s := fillSummaries x c ((c.areas.filter fun a => decide (0 < a.initLength)).foldl (fun s a => fillArea x.slot c x.variants a s) s)
  setSlotState x.slot .running (modInstalled (fun y => { y with running := true }) (startTiles c x s))

def execChartInstallComplete (s : State) : Host.Outcome State Fault Refusal :=
  .next (match s.installed, installedChart s with
    | some x, some c => if !x.running && diesReady s c && !(inCurtain s) then finishInstall x c s else s
    | _, _ => s)

/-! ### Partial restaging (R127, Table 5-14) -/

/-- Dies whose wings serve a variant in use: they serve one at a time (R127). -/
def wingsUsed (c : Chart) (x : Installed) : List DieId := (variantsOf c x).flatMap (wingsDies c)

/-- The dies of a variant's rectangle have power. -/
def variantPowered (s : State) (v : Variant) : Bool :=
  (rectTiles v.col0 v.row0 v.col1 v.row1).all fun t => decide ((s.dieOf (dieOfTile t)).rails = .up)

/-- The variant that a faulted region is restaged onto: for a die isolation the die-loss variant of the die, if its wings are
free; otherwise the first tile-loss variant that can serve (R127). -/
def restageChoice (s : State) (c : Chart) (x : Installed) (r : Region) (f : FaultRec) : Option Variant :=
  let own := c.variants.filter fun v => v.regionId == r.id
  let serves (v : Variant) : Bool := variantUsable s c (wingsUsed c x) r v && variantPowered s v
  let die := match f.die with
    | none => none
    | some d => own.find? fun (v : Variant) => v.dieLoss && v.coveredDie == d.val && serves v
  match die with
  | some v => some v
  | none => own.find? fun (v : Variant) => !v.dieLoss && serves v

/-- The tiles that serve a region. -/
def servingTiles (c : Chart) (x : Installed) (r : Region) : List Nat :=
  match variantInUse c x r.id with
  | some v => rectTiles v.col0 v.row0 v.col1 v.row1
  | none => rectTiles r.col0 r.row0 r.col1 r.row1

/-- An understudy tile wakes with the mark of the tile it replaces (R138): tiles correspond in the order of the two
rectangles (DEDUCED, log entry 45). -/
def wakeUnderstudy (old : Tile) (y : Tile) : Tile :=
  { idleTile y with halted := true, inPass := old.inPass, mark := old.mark, deckHolds := y.deckHolds }

/-- Restage a region onto a variant: 0x0241. -/
def restageOnto (c : Chart) (x : Installed) (r : Region) (v : Variant) (s : State) : State :=
  let old := servingTiles c x r
  let new := rectTiles v.col0 v.row0 v.col1 v.row1
  let inPass := x.pass.isSome
  let s := (List.range new.length).foldl (fun s k =>
    let t := Fin.ofNat 5184 (new.getD k 0)
    let from' := s.tileOf (Fin.ofNat 5184 (old.getD k (new.getD k 0)))
    wakeTile t (fun y => { wakeUnderstudy from' y with halted := inPass, tables := tablesOf c r }) s) s
  let vs := setPair x.variants r.id v.id
  let s := sayFolded x.slot (foldedTiles s c vs) s
  report { code := 0x0241, slot := BitVec.ofNat 8 x.slot, value := r.id }
    (modInstalled (fun y => { y with faults := y.faults.drop 1, variants := vs, folded := foldedTiles s c vs }) s)

/-- Restage the first faulted region, or lose it: 0x0242, and the member leaves the step (R391). -/
def restage (x : Installed) (c : Chart) (f : FaultRec) (s : State) : State :=
  match c.regions.find? fun r => r.id == f.region with
  | none => modInstalled (fun y => { y with faults := y.faults.drop 1 }) s
  | some r =>
    match restageChoice s c x r f with
    | some v => restageOnto c x r v s
    | none =>
      loseRegions [r.id] (report { code := 0x0242, slot := BitVec.ofNat 8 x.slot, value := r.id }
        (modInstalled (fun y => { y with faults := y.faults.drop 1 }) s))

def execRegionRestage (s : State) : Host.Outcome State Fault Refusal :=
  .next (match s.installed, installedChart s with
    | some x, some c => match x.faults with
      | f :: _ => if x.running then restage x c f s else s
      | [] => s
    | _, _ => s)

end Sys2Proof.Machine
end

