-- ==== Sys2Proof/Machine/Flags.lean ====
section
/-! DEFINITION. What every register of BAR0 reads (R10, R11): its status fields formed from the state. -/

namespace Sys2Proof.Machine

open Sys2Proof

/-! ### Field algebra (Table 0-6) -/

/-- A word of fields, each given by its lowest bit, its width and its value. -/
def pack (l : List (Nat × Nat × Nat)) : Word :=
  BitVec.ofNat 32 (l.foldl (fun n f => n + f.2.2 % 2 ^ f.2.1 * 2 ^ f.1) 0)

/-- A Bool as a one-bit field. -/
def flag (i : Nat) (b : Bool) : Nat × Nat × Nat := (i, 1, b2n b)

/-- Field [hi:lo] of a written word. -/
def fieldOf (w : Word) (hi lo : Nat) : Nat := bits w.toNat hi lo

/-- What a W1C field keeps of its status bits. -/
def w1c {n : Nat} (old : BitVec n) (w : Word) : BitVec n := old &&& ~~~(w.setWidth n)

/-- Low word of a 64-bit value. -/
def loWord (v : BitVec 64) : Word := v.setWidth 32

/-- High word of a 64-bit value. -/
def hiWord (v : BitVec 64) : Word := BitVec.ofNat 32 (v.toNat / 2 ^ 32)

/-- Word `k` of a byte string. -/
def wordAt (b : Bytes) (k : Nat) : Word := BitVec.ofNat 32 (leAt b (4 * k) 4)

/-! ### Codes of states -/

/-- Port states (Table 10-10). -/
def portStateCode : PortState → Nat
  | .down => 0
  | .pmd => 1
  | .lock => 2
  | .negotiate => 3
  | .test => 4
  | .keying => 5
  | .up => 6

/-- Loader slot states (Table 5-10): REFUSED and CHECKING are displays over the state that the slot keeps; a stage op copies
and checks as long as it runs. -/
def slotStateCode (s : State) (i : Slot) : Nat :=
  let x := s.loader.slots[i]
  if x.refused then 6
  else if (s.loader.running.map fun op => op.isStage && op.slot == i) = some true then 1
  else match x.state with
  | .empty => 0
  | .staged => 2
  | .installing => 3
  | .running => 4
  | .unstaging => 5

/-- start-up phase as it reads: 8 while PWR_GOOD is low, 9 during a field test (Table 16-3). -/
def phaseCode (s : State) : Nat :=
  if s.field.running.isSome then 9 else if s.start.pwrGoodLow then 8 else s.start.phase.toNat

/-- role of a CXL port (Table 11-2). -/
def roleCode (s : State) (p : CxlId) : Nat :=
  if !(s.host.ports[p]).linkUp then 0 else if p = s.host.activePort then 1 else 2

/-- The DVSEC register of a port (Table 11-2). -/
def dvsecWord (s : State) (p : CxlId) : Word :=
  let x := s.host.ports[p]
  pack [(0, 2, roleCode s p), flag 2 x.linkX4, flag 3 x.ideUp, flag 8 x.takeOver]

/-- The PCIe Device Serial Number extended capability of either port's configuration space (R3): the serial, after PCI Express's own
header word with capability 0x0003, version 1 (PRESUMED, log entry 104). -/
def serialCapability (s : State) (_p : CxlId) : List Word := [0x00010003, loWord s.ident.serial, hiWord s.ident.serial]

/-! ### Blocks -/

/-- Identity and version (Tables 0-1, 0-2). -/
def readIdent (s : State) (o : Nat) : Word :=
  if o = 0x00 then pack [(16, 16, 0x0036), (12, 4, 1), (8, 4, s.ident.stepLetter.toNat), (4, 4, s.ident.stepNumber.toNat)]
  else if o = 0x08 then loWord s.ident.serial
  else if o = 0x0C then hiWord s.ident.serial
  else if 0x10 ≤ o ∧ o ≤ 0x20 then 0x00010000
  else 0

/-- Engine status and control, and the MSI-X structures (Table 11-5, R266). -/
def readEngine (s : State) (o : Nat) : Word :=
  if o = 0x1000 then
    pack [(0, 16, s.host.lastCode.toNat), flag 24 (s.host.ports[s.host.activePort]).linkX4,
      flag 25 (s.host.ports[otherPort s.host.activePort]).linkUp, (26, 1, s.host.activePort),
      flag 27 (holder s).isSome, (28, 3, match holder s with
        | some i => i.val
        | none => 0), flag 31 (inCurtain s)]
  else if o = 0x1004 then pack [flag 1 s.host.failover, flag 2 s.host.autoFailover]
  else if o = 0x1008 then s.host.events.setWidth 32
  else if o = 0x100C then s.host.vector.setWidth 32
  else if 0x2000 ≤ o ∧ o < 0x2400 then
    let e := s.host.msix[Fin.ofNat 64 ((o - 0x2000) / 16)]
    let k := o / 4 % 4
    if k = 0 then e.addrLo else if k = 1 then e.addrHi else if k = 2 then e.data else e.ctrl
  else if o = 0x2400 then loWord s.host.msixPending
  else if o = 0x2404 then hiWord s.host.msixPending
  else 0

/-- A queue's registers (Table 11-6). -/
def readQueue (s : State) (i : Slot) (q : QId) (o : Nat) : Word :=
  let x := s.queueOf i q
  if o = 0x0 then x.baseLo
  else if o = 0x4 then x.baseHi
  else if o = 0x8 then pack [flag 0 x.enable, flag 2 x.cancel, (12, 4, x.sizeLog2.toNat)]
  else if o = 0xC then pack [(0, 12, x.head), (16, 12, x.valid.length), (28, 3, queueState s i q), flag 31 x.phase]
  else 0

/-- A context's registers (Table 11-6). -/
def readCtx (s : State) (i : Slot) (o : Nat) : Word :=
  let c := s.ctxOf i
  let f := look 0 c.fences c.fenceIndex.toNat
  if o = 0x00 then pack [(0, 16, c.lastCode.toNat), (16, 8, c.fmtMajor.toNat), (29, 3, ctxStateCode c.state)]
  else if o = 0x04 then pack [(0, 9, c.hdmGib)]
  else if o = 0x08 then c.events.setWidth 32
  else if o = 0x10 then c.cq.baseLo
  else if o = 0x14 then c.cq.baseHi
  else if o = 0x18 then
    pack [flag 0 c.cq.enable, (4, 6, c.cq.vector.toNat), flag 11 c.cq.location, (12, 4, c.cq.sizeLog2.toNat)]
  else if o = 0x1C then pack [(0, 12, c.cq.tail.toNat), flag 31 c.cq.phase]
  else if o = 0x20 then c.cq.head.setWidth 32
  else if o = 0x24 then pack [(0, 13, c.cq.held.length)]
  else if o = 0x30 then c.fenceIndex.setWidth 32
  else if o = 0x34 then loWord f
  else if o = 0x38 then hiWord f
  else if 0x100 ≤ o ∧ o < 0x300 then readQueue s i (Fin.ofNat 16 ((o - 0x100) / 0x20)) (o % 0x20)
  else 0

/-- The loader's registers (Table 5-9). -/
def readLoader (s : State) (o : Nat) : Word :=
  let l := s.loader
  if o = 0x00 then l.addrLo
  else if o = 0x04 then l.addrHi.setWidth 32
  else if o = 0x08 then l.length
  else if o = 0x0C then pack [flag 0 l.running.isSome, (4, 3, l.slot.toNat), (8, 4, l.op.toNat)]
  else if o = 0x10 then l.member.setWidth 32
  else if o = 0x14 then pack [(0, 16, l.sect.toNat), (16, 16, l.error.toNat)]
  else if o = 0x18 then l.record
  else if o = 0x1C then
    BitVec.ofNat 32 (allSlots.foldl (fun n i => n + slotStateCode s i * 8 ^ i.val) 0)
  else if o = 0x20 then pack [(0, 16, (variantCounts s).2), (16, 16, (variantCounts s).1)]
  else if 0x40 ≤ o ∧ o < 0x80 then
    match chartOf s l.slot.toFin with
    | some c => wordAt c.digest ((o - 0x40) / 4)
    | none => 0
  else 0

/-- Power and clock (Table 13-5). -/
def readPower (s : State) (o : Nat) : Word :=
  let p := s.power
  if o = 0x00 then
    pack [flag 14 (match s.installed, installedChart s with
        | some x, some c => x.running && c.power.trimMode == 1
        | _, _ => false), flag 15 p.orphan, flag 16 p.capHold, (17, 4, p.src.toNat), flag 21 p.clamped]
  else if o = 0x04 then p.powerW.setWidth 32
  else if o = 0x08 then pack [(0, 16, capInForce s)]
  else if o = 0x0C then pack [(0, 16, p.capSet.toNat), flag 16 p.setValid, flag 17 p.leased]
  else if o = 0x10 then p.orphanW.setWidth 32
  else if o = 0x14 then p.slewWs.setWidth 32
  else if o = 0x18 then loWord p.energy
  else if o = 0x1C then hiWord p.energy
  else if o = 0x20 then p.clampCount
  else if o = 0x24 then p.events.setWidth 32
  else if o = 0x28 then p.vector.setWidth 32
  else 0

/-- Pairs flagged now (R361). -/
def pairsFlagged (s : State) : Nat :=
  (s.thermal.spots.toList.filter fun h => h.flagged).length

/-- p_forecast is slower than the planned point (Table 14-8). -/
def forecastLimits (s : State) : Bool :=
  match s.installed, installedChart s with
  | some x, some c =>
    (match x.phase.bind fun i => c.power.phases.find? fun p => p.id == i with
      | some p => decide (p.point < s.power.pForecast)
      | none => decide (0 < s.power.pForecast))
  | _, _ => decide (0 < s.power.pForecast)

/-- Thermal (Table 14-8). -/
def readThermal (s : State) (o : Nat) : Word :=
  let t := s.thermal
  if o = 0x00 then
    pack [(0, 8, t.tjC.toNat), flag 24 (decide (0 < pairsFlagged s)), flag 25 t.derate, flag 26 (forecastLimits s),
      flag 27 t.throttle, flag 28 (s.power.src.getLsbD 2), flag 29 t.suddenStop, flag 30 t.halted, flag 31 t.thermTrip]
  else if o = 0x04 then pack [(0, 16, t.flowReqReg.toNat), (16, 16, t.flowReg.toNat)]
  else if o = 0x08 then pack [(0, 16, t.tOutReg.toNat), (16, 16, t.tInReg.toNat)]
  else if o = 0x0C then pack [(0, 16, t.coolingCap)]
  else if o = 0x10 then pack [(0, 16, pairsFlagged s), (16, 16, t.retired.toNat)]
  else if o = 0x14 then t.events.setWidth 32
  else if o = 0x18 then t.vector.setWidth 32
  else 0

/-- A plane port's registers (Table 10-10). -/
def readPort (s : State) (p : PortId) (o : Nat) : Word :=
  let x := s.portOf p
  if o = 0x00 then
    pack [flag 0 x.nv.enable, flag 1 x.train, flag 4 x.autoRetrain, flag 5 x.nv.strict,
      (6, 2, x.nv.verifyMode.toNat), (16, 16, x.nv.berInterval.toNat)]
  else if o = 0x04 then
    pack [(0, 16, x.lastCode.toNat), (16, 8, x.retrains.toNat), (24, 4, x.farStatus.toNat), (28, 4, portStateCode x.state)]
  else if o = 0x08 then x.version
  else if o = 0x0C then x.events.setWidth 32
  else if o = 0x10 then loWord x.farSerial
  else if o = 0x14 then hiWord x.farSerial
  else if o = 0x18 then pack [(0, 16, x.farPort.toNat), (16, 8, x.farPlane.toNat), (24, 8, x.farKind.toNat)]
  else if o = 0x20 then loWord x.nv.planSerial
  else if o = 0x24 then hiWord x.nv.planSerial
  else if o = 0x28 then pack [(0, 16, x.nv.planPort.toNat), flag 16 x.nv.planValid, flag 17 x.nv.berPassed]
  else if o = 0x30 then x.replays
  else if o = 0x34 then x.fecCorrected
  else if o = 0x38 then x.fecUncorrected
  else if 0x40 ≤ o ∧ o < 0x60 then x.berErrors.getD ((o - 0x40) / 4) 0
  else if 0x60 ≤ o ∧ o < 0x80 then x.berFar.getD ((o - 0x60) / 4) 0
  else 0

/-- The record latched by ev_index. -/
def latchedRec (s : State) : EventRec :=
  s.log.latched.getD ⟨0, 0, false, 0, 0, 0, 0, 0⟩

/-- Tiles that entries of a kind name, each once. -/
def tilesOfKind (s : State) (k : Nat) : List Nat :=
  (s.defects.entries.filter fun e => entryKind e == k).foldl (fun l e => insertNew l (entryTile e)) []

/-- The event log and the defect map (Tables 15-12, 2-7). -/
def readLog (s : State) (o : Nat) : Word :=
  let r := latchedRec s
  let e := s.defects.entries.getD s.defects.index.toNat 0
  if o = 0x00 then pack [(0, 13, s.log.records.length)]
  else if o = 0x04 then s.log.evIndex.setWidth 32
  else if o = 0x08 then pack [(0, 8, b2n r.isCount), (8, 8, r.slot.toNat), (16, 16, r.code.toNat)]
  else if o = 0x0C then r.seq
  else if o = 0x10 then r.tick
  else if o = 0x14 then s.log.dropped
  else if o = 0x18 then pack [flag 0 s.log.newEvent]
  else if o = 0x1C then s.log.vector.setWidth 32
  else if o = 0x800 then pack [(0, 15, s.defects.entries.length)]
  else if o = 0x804 then s.defects.index.setWidth 32
  else if o = 0x808 then loWord e
  else if o = 0x80C then hiWord e
  else if o = 0x810 then
    pack [(0, 16, (tilesOfKind s 2).length),
      (16, 16, ((tilesOfKind s 1).filter fun t => isNarrow s t && !(isRetired s t)).length)]
  else 0

/-- The NV store (Table 15-10). -/
def readNv (s : State) (o : Nat) : Word :=
  let n := s.nv
  if o = 0x00 then
    pack [flag 0 (n.storeBit || (match n.job with
        | some j => j.bit
        | none => false)), (3, 1, n.active), flag 4 n.job.isSome, (5, 3, n.tokens), flag 8 n.storeWaiting,
      flag 9 n.update.isSome]
  else if o = 0x04 then n.lastCode.setWidth 32
  else if o = 0x08 then loWord (activeBank s).seq
  else if o = 0x0C then hiWord (activeBank s).seq
  else if o = 0x10 then pack [(0, 16, (n.banks[(1 : Fin 2)]).wear / 32), (16, 16, (n.banks[(0 : Fin 2)]).wear / 32)]
  else if o = 0x14 then n.events.setWidth 32
  else if o = 0x18 then n.vector.setWidth 32
  else 0

/-- Security and the mailbox (Table 12-1). -/
def readSec (s : State) (o : Nat) : Word :=
  let x := s.sec
  if o = 0x00 then pack [flag 0 x.go, (21, 3, x.slot.toNat), (24, 8, x.opcode.toNat)]
  else if o = 0x04 then pack [(0, 15, x.reqLen.toNat)]
  else if o = 0x08 then pack [(0, 15, x.respLen.toNat), (16, 16, x.error.toNat)]
  else if o = 0x0C then
    pack [(0, 8, allSlots.foldl (fun n i => n + b2n (x.filling.any fun f => f.1 == i) * 2 ^ i.val) 0),
      (8, 8, allSlots.foldl (fun n i => n + b2n (isOpen s i) * 2 ^ i.val) 0),
      (20, 5, x.groups.length), (25, 6, s.ident.debugCount.toNat), flag 31 x.debugUnlocked]
  else if o = 0x10 then pack [(0, 11, freeGib s)]
  else if 0x100 ≤ o ∧ o < 0x180 then
    let c := s.ctxOf (Fin.ofNat 8 ((o - 0x100) / 16))
    if o % 16 = 0 then
      pack [(0, 8, c.portPct.toNat), (8, 8, c.stackPct.toNat), (16, 8, c.vectorPct.toNat), (24, 8, c.arrayPct.toNat)]
    else if o % 16 = 4 then c.heldMs
    else 0
  else if 0x1000 ≤ o ∧ o < 0x5000 then wordAt x.request ((o - 0x1000) / 4)
  else if 0x5000 ≤ o ∧ o < 0x9000 then wordAt x.response ((o - 0x5000) / 4)
  else 0

/-- Lane errors as the pattern registers group them (Table 10-11). -/
def errorsWord (s : State) (k : Nat) : Word :=
  let t := s.pattern.target.toNat
  let l := if t == 0x30 then (if k = 0 then s.pattern.laneErrors else [])
    else if 0x20 ≤ t then s.pattern.laneErrors.filter fun p => p.1 / 264 == k
    else s.pattern.laneErrors.filter fun p => p.1 == k
  BitVec.ofNat 32 (min (l.foldl (fun n p => n + p.2.toNat) 0) (2 ^ 32 - 1))

/-- init_pct: while the stacks are initialised, the share of the 83.8 s that 128 GiB per stack take (Table 16-1; DEDUCED, log entry
110). -/
def initPctNow (s : State) : Nat :=
  if s.start.phase == 5 then min 99 ((s.ticks - s.start.initTick) * 100 / 2095000000) else s.start.initPct.toNat

/-- Test block: pattern generators, start-up, field test (Tables 10-11, 16-3, 16-11). -/
def readTest (s : State) (o : Nat) : Word :=
  let p := s.pattern
  if o = 0x00 then
    pack [flag 0 p.running, (10, 2, p.mode.toNat), (12, 4, p.prbs.toNat), (16, 8, p.laneMask.toNat), (24, 8, p.target.toNat)]
  else if o = 0x04 then pack [(0, 7, p.gcol.toNat), (7, 7, p.grow.toNat), (14, 3, p.direction.toNat)]
  else if o = 0x08 then pack [(8, 8, p.locked.toNat), (16, 16, p.refusal.toNat)]
  else if o = 0x0C then loWord p.bits
  else if o = 0x10 then hiWord p.bits
  else if o = 0x14 then p.firstFail.setWidth 32
  else if o = 0x18 then p.laneIndex.setWidth 32
  else if o = 0x1C then (find? p.laneErrors p.laneIndex.toNat).getD 0
  else if 0x20 ≤ o ∧ o < 0x40 then errorsWord s ((o - 0x20) / 4)
  else if o = 0x100 then
    pack [flag 15 s.start.tripAtReset, (16, 4, s.start.resetCause.toNat), (20, 8, initPctNow s), (28, 4, phaseCode s)]
  else if o = 0x104 then s.start.stopCode.setWidth 32
  else if o = 0x108 then s.start.openMs
  else if o = 0x200 then pack [flag 0 s.field.running.isSome, (28, 4, s.field.kind.toNat)]
  else if o = 0x204 then s.field.dieMaskLo
  else if o = 0x208 then s.field.dieMaskHi.setWidth 32
  else if o = 0x20C then pack [(0, 16, s.field.lasting.toNat), (16, 16, s.field.result.toNat)]
  else if o = 0x210 then s.field.elapsedMs
  else 0

/-- The word at a BAR0 offset (R266): zero in no block and in no register of a block. -/
def readReg (s : State) (a : Nat) : Word :=
  if a < 0x1000 then readIdent s a
  else if a < 0x10000 then readEngine s a
  else if a < 0x18000 then readCtx s (Fin.ofNat 8 ((a - 0x10000) / 0x1000)) (a % 0x1000)
  else if a < 0x20000 then 0
  else if a < 0x30000 then readLoader s (a - 0x20000)
  else if a < 0x30100 then readPower s (a - 0x30000)
  else if a < 0x40000 then readThermal s (a - 0x30100)
  else if a < 0x44000 then readPort s (Fin.ofNat 16 ((a - 0x40000) / 0x400)) (a % 0x400)
  else if a < 0x50000 then (if a = 0x44000 then s.fabricGroup.setWidth 32 else 0)
  else if a < 0x60000 then readLog s (a - 0x50000)
  else if a < 0x70000 then readNv s (a - 0x60000)
  else if a < 0x80000 then readSec s (a - 0x70000)
  else if a < 0x90000 then readTest s (a - 0x80000)
  else 0

end Sys2Proof.Machine
end

