-- ==== Sys2Proof/Machine/LogSnapshot.lean ====
section
/-! DEFINITION. LOG_SNAPSHOT (R286 to R288): the Log's header, directory and sections. R287 fixes the header and the directory;
the layout inside a section is log entry 54's: registers as words in ascending order of address, lists with their number of
records in the directory entry. -/

namespace Sys2Proof.Machine

open Sys2Proof

/-- Words of BAR0 from an address on. -/
def regWords (s : State) (a n : Nat) : Bytes := (List.range n).flatMap fun k => toLe 4 (readReg s (a + 4 * k)).toNat

/-- An event record's 32 bytes (Table 15-11); a record of another slot carries zero in bytes [31:16] (R403). -/
def recBytes (i : Slot) (r : EventRec) : Bytes :=
  toLe 2 r.code.toNat ++ toLe 1 r.slot.toNat ++ toLe 1 (b2n r.isCount) ++ toLe 4 r.seq.toNat ++ toLe 4 r.tick.toNat ++ [0, 0, 0, 0] ++
    (if r.slot = 0xFF ∨ r.slot.toNat = i.val then toLe 4 r.location.toNat ++ toLe 4 r.cue.toNat ++ toLe 8 r.value.toNat
     else List.replicate 16 0)

/-- One bit per queue slot: its valid mark. -/
def markBits (x : Queue) : Bytes :=
  (List.range ((x.lSize + 7) / 8)).map fun k =>
    BitVec.ofNat 8 (((x.valid.filter fun v => v.1 / 8 == k).map fun v => 2 ^ (v.1 % 8)).sum)

/-- A section: type, number of records, content. -/
structure LogPart where
  type : Nat
  count : Nat
  bytes : Bytes

/-- Context section (0x05). -/
def ctxSection (s : State) (i : Slot) : Bytes :=
  regWords s (0x10000 + 0x1000 * i.val) 192 ++ (allQueues.flatMap fun q => markBits (s.queueOf i q)) ++
    (List.range 4096).flatMap fun k => toLe 8 (look 0 (s.ctxOf i).fences k).toNat

/-- Loader section (0x06): the registers as they read for each slot, variants in use, the last refused cycle. -/
def loaderSection (s : State) : Bytes :=
  (allSlots.flatMap fun j => regWords { s with loader := { s.loader with slot := BitVec.ofNat 3 j } } 0x20000 32) ++
    (match s.installed with
      | some x => x.variants.flatMap fun v => toLe 4 v.1 ++ toLe 4 v.2
      | none => []) ++
    s.loader.cycle.flatMap fun c => toLe 2 c.1 ++ toLe 1 c.2.1 ++ toLe 1 c.2.2

/-- State of a plane in a reduction. -/
def answerCode : PlaneAnswer → Nat
  | .waiting => 1
  | .accepted => 2
  | .ring => 3
  | .unreachable => 4

/-- Collectives section (0x08): one record per descriptor; what runs or is held belongs to the slot that holds the engine. -/
def collSection (s : State) (i : Slot) : List Bytes :=
  match chartOf s i with
  | none => []
  | some c => c.collectives.map fun d =>
    let on := holder s == some i
    let r := if on then redOf s d.id else none
    let now : Option Nat := if on then (match r, instOf s d.id with
      | some r, _ => some r.step.toNat
      | none, some x => some x.seq
      | none, none => none) else none
    let held : Option Nat := if on then ((s.coll.held.map heldKey).find? fun k => k.1 == d.id).map fun k => k.2.1 else none
    let opt (x : Option Nat) : Bytes := toLe 1 (b2n x.isSome) ++ toLe 4 (x.getD 0)
    toLe 2 d.id ++ opt (find? (s.ctxOf i).lastSeq d.id) ++ opt now ++ opt held ++
      (List.range 16).map fun p => BitVec.ofNat 8 (match r with
        | some r => (match r.answers.find? fun a => a.1 == p with
          | some a => answerCode a.2.1
          | none => 0)
        | none => 0)

/-- Weights section (0x09). -/
def weightSection (s : State) (i : Slot) : List Bytes × Bytes :=
  match (s.ctxOf i).model with
  | none => ([], [])
  | some m =>
    let n := m.fetch.manifest.shards.length
    let ok (k : Nat) : Bool := match holdOf m.fetch.holds k with
      | some h => h.valid
      | none => false
    ((List.range n).map fun k => toLe 8 (s.ticks - (find? m.checked k).getD s.ticks),
      toLe 16 m.fetch.manifest.modelId.toNat ++ [BitVec.ofNat 8 (b2n m.resident)] ++
        (List.range ((n + 7) / 8)).map fun k =>
          BitVec.ofNat 8 (((List.range 8).map fun b => b2n (ok (8 * k + b)) * 2 ^ b).sum))

/-- The sections in directory order (Table 11-12). -/
def logParts (s : State) (i : Slot) : List LogPart :=
  let one (t : Nat) (b : Bytes) : LogPart := ⟨t, 1, b⟩
  let many (t : Nat) (l : List Bytes) : LogPart := ⟨t, l.length, l.flatten⟩
  let w := weightSection s i
  [one 0x01 (regWords s 0 9),
   one 0x02 (regWords s 0x1000 4 ++ toLe 4 (dvsecWord s 0).toNat ++ toLe 4 (dvsecWord s 1).toNat),
   many 0x03 (s.defects.entries.map fun e => toLe 8 e.toNat),
   many 0x04 (s.log.records.map (recBytes i)),
   one 0x05 (ctxSection s i),
   one 0x06 (loaderSection s),
   one 0x07 ((allPorts.flatMap fun p => regWords s (0x40000 + 0x400 * p.val) 32) ++ regWords s 0x44000 1),
   many 0x08 (collSection s i),
   ⟨0x09, w.1.length, w.2 ++ w.1.flatten⟩,
   many 0x0A ((s.ctxOf i).ledger.map fun e => toLe 2 e.layer ++ toLe 1 e.level ++ toLe 1 e.nextLevel ++ toLe 4 e.quiet),
   many 0x0B ((s.ctxOf i).arith.map fun a => locBytes a ++ toLe 4 a.cue ++ toLe 2 a.code ++ toLe 8 a.count ++ toLe 8 a.first),
   many 0x0C ((List.range 10).map fun p => [false, true].flatMap fun d => (List.range 4128).map (builtinByte p d)),
   one 0x0D (toLe 1 s.nv.active.val ++ toLe 4 s.nv.stores.toNat ++ toLe 8 s.power.lifeEnergy.toNat ++ toLe 4 s.power.lifeClamps.toNat ++
     toLe 4 s.power.lifeReplays.toNat)]
where
  locBytes (a : ArithNote) : Bytes := toLe 4 (locTile a.tile).toNat

/-- Zeros up to the next multiple of 64. -/
def logPad (n : Nat) : Bytes := List.replicate ((64 - n % 64) % 64) 0

/-- Lay the sections out from an offset on: directory entries and content. -/
def layParts : Nat → List LogPart → Bytes × Bytes
  | _, [] => ([], [])
  | off, p :: l =>
    let body := p.bytes ++ logPad p.bytes.length
    let r := layParts (off + body.length) l
    (toLe 2 p.type ++ [0, 0] ++ toLe 4 p.count ++ toLe 4 off ++ toLe 4 p.bytes.length ++ r.1, body ++ r.2)

/-- The Log with a digest field. -/
def logWith (s : State) (i : Slot) (digest : Bytes) : Bytes :=
  let parts := logParts s i
  let dir := 128 + 16 * parts.length
  let x := layParts (dir + (logPad dir).length) parts
  let tail := x.1 ++ logPad dir ++ x.2
  let h := toLe 4 0x53474F4C ++ toLe 4 0x00010000 ++ toLe 4 128 ++ toLe 4 parts.length ++ toLe 8 (128 + tail.length) ++
    toLe 8 s.ident.serial.toNat ++ toLe 1 i.val ++ List.replicate 7 0 ++ toLe 8 (s.snapshots + 1) ++ toLe 8 s.ticks ++ toLe 8 s.ticks ++ digest
  h ++ tail

/-- The whole Log (R287). -/
def logImage (s : State) (i : Slot) : Bytes :=
  logWith s i (slice (Config.shake256 (logWith s i (List.replicate 64 0)) 64) 0 64)

/-- LOG_SNAPSHOT: it writes the Log, or is refused with the size needed. -/
def snapshotStart (i : Slot) (q : QId) (r : Ready) (s : State) : State :=
  let log := logImage s i
  if leAt r.entry.body 8 4 < log.length then refuseStart i q r 0x030A log.length s
  else atOnce i q r log.length { storeBytes (hdmKey i (leAt r.entry.body 0 8)) log s with snapshots := s.snapshots + 1 }

def execLogSnapshot (i : Slot) (q : QId) (s : State) : Host.Outcome State Fault Refusal :=
  .next (startRow 0x40 snapshotStart i q s)

end Sys2Proof.Machine
end

