-- ==== Sys2Proof/Machine/Ports.lean ====
section
/-! DEFINITION. The plane ports: training, identity and bit-error tests, keying, the data path, and the
pattern tests (chapter 10, R314 to R318). -/

namespace Sys2Proof.Machine

open Sys2Proof

/-! ### Training (R248, Table 10-7) -/

/-- Start training: the port is in service, its die has power and it is not training already. -/
def trainPort (p : PortId) (s : State) : State :=
  let x := s.portOf p
  if x.nv.enable && s.start.stacksUp && !x.train then
    modPort p (fun x => { beginTrain x with retrains := 0 }) s
  else s

def execPortTrain (p : PortId) (s : State) : Host.Outcome State Fault Refusal :=
  .next (trainPort p s)

/-- Set or clear enable: setting it trains the port (R248), clearing it takes the port DOWN (R244). -/
def setEnable (p : PortId) (v : Bool) (s : State) : State :=
  let was := (s.portOf p).nv.enable
  let s := modPort p (fun x => { x with nv := { x.nv with enable := v } }) s
  if v && !was then trainPort p s
  else if !v && was && !(decide ((s.portOf p).state = .down)) then portDown p s
  else s

def execPortDisable (p : PortId) (s : State) : Host.Outcome State Fault Refusal :=
  .next (setEnable p false s)

/-- Training ends in a refusal: the port stays DOWN until software writes train. -/
def refusePort (p : PortId) (code : Code) (bit : Option Nat) (s : State) : State :=
  reportPort p bit { code := code } (modPort p downPort s)

def execPmdTrained (p : PortId) (locked : Bool) (s : State) : Host.Outcome State Fault Refusal :=
  .next (when' (decide ((s.portOf p).state = .pmd)) (fun s =>
    if locked then modPort p (fun x => { x with state := .lock }) s else refusePort p 0x0801 none s) s)

/-- The engine's ID_BLOCK (Table 10-8): one supported major, 1, with minor 0. -/
def idBytes (s : State) (p : PortId) : Bytes :=
  toLe 4 0x49585952 ++ [1, BitVec.ofNat 8 p] ++ toLe 2 p ++ toLe 8 s.ident.serial.toNat ++ toLe 2 0x0036 ++
    [stepByte s] ++ List.replicate 13 0 ++ toLe 4 0x00010000 ++ List.replicate 28 0

/-- The content of a training message that this side sends (Table 10-13). -/
def trainContent (s : State) (p : PortId) (kind : Nat) : Bytes :=
  let x := s.portOf p
  if kind = 1 then idBytes s p
  else if kind = 2 then [5, 0xFF, 0, 0] ++ toLe 4 1000
  else if kind = 3 then
    (match x.berNear with
      | some n => (n.1.flatMap fun w => toLe 4 w.toNat) ++ [n.2]
      | none => [])
  else if kind = 4 then toLe 2 512 ++ toLe 2 512 ++ toLe 2 512 ++ toLe 2 64
  else []

/-- The fragments of a keying message, from one index on: at most 216 bytes each behind a 16-byte header of kind, index, count
and total length (R314). -/
def keyFragments (kind count total : Nat) : Nat → Nat → Bytes → List Bytes
  | 0, _, _ => []
  | n + 1, i, b => (toLe 2 kind ++ toLe 2 i ++ toLe 2 count ++ toLe 2 0 ++ toLe 4 total ++ toLe 4 0 ++ slice b 0 (min b.length 216)) ::
      keyFragments kind count total n (i + 1) (b.drop 216)

/-- The bodies of the training flits that carry a message (R251): its kind in byte [0]; for kinds 1 to 5 the content from byte 8
on, for keying messages one fragment each. -/
def trainBodies (kind : Nat) (b : Bytes) : List Bytes :=
  if kind ≤ 5 then [toLe 8 kind ++ b]
  else
    let n := (b.length + 215) / 216
    keyFragments kind n b.length n 0 b

/-- A training flit: the header says its type alone, unused body bytes and the tag are zero (R241, R242, R251). -/
def trainFlit (body : Bytes) : Bytes := toLe 8 (2 ^ 36) ++ slice body 0 232 ++ List.replicate 16 0

/-- What leaves with a training message: the message, and the flits that carry it. -/
def trainOut (p : PortId) (kind : Nat) (b : Bytes) : List Output :=
  .training p kind b :: (trainBodies kind b).map fun x => .trainingFlit p (trainFlit x)

/-- A training message leaves. -/
def sayTraining (p : PortId) (kind : Nat) (b : Bytes) (s : State) : State :=
  (trainOut p kind b).foldl (fun s o => emit o s) s

/-- Send a training message, and again every 10 µs until the far end's has arrived (R248). -/
def sendTraining (p : PortId) (kind : Nat) (s : State) : State :=
  sayTraining p kind (trainContent s p kind) (modPort p (fun x => { x with awaiting := x.awaiting ++ [kind] }) s)

/-- The far end's message of a kind has arrived. -/
def farArrived (p : PortId) (kind : Nat) (s : State) : State :=
  modPort p (fun x => { x with awaiting := x.awaiting.filter fun k => !(k == kind) }) s

/-- Framing lock: after codeword lock it starts the ID_BLOCK exchange; a lock that returns ends the 1 µs
count of R244 (R259). -/
def execFramingLock (p : PortId) (s : State) : Host.Outcome State Fault Refusal :=
  .next (
    if (s.portOf p).state = .lock then
      sendTraining p 1 (modPort p (fun x => { x with state := .negotiate, framed := true, framingLoss := false }) s)
    else if (s.portOf p).framingLoss then
      modPort p (fun x => { x with framed := true, framingLoss := false }) s
    else s)

/-- Loss of framing lock is counted under 0x0802, and the 1 µs of R244 start (R259). -/
def execFramingLockLost (p : PortId) (s : State) : Host.Outcome State Fault Refusal :=
  .next (when' (s.portOf p).framed (fun s =>
    reportPort p none { code := 0x0802, isCount := true, value := 1 }
      (modPort p (fun x => { x with framed := false, framingLoss := true }) s)) s)

def execTrainingResend (p : PortId) (s : State) : Host.Outcome State Fault Refusal :=
  .next ((s.portOf p).awaiting.foldl (fun s k => sayTraining p k (trainContent s p k) s) s)

/-! ### Identity (R249, R250, R252) -/

/-- Highest minor that an ID_BLOCK lists for major 1, the engine's only one (R249). -/
def farMinor (b : Bytes) : Option Nat :=
  let l := (List.range 4).map fun k => leAt b (32 + 4 * k) 4
  (l.filter fun v => v / 65536 == 1).foldl (fun m v => some (max (m.getD 0) (v % 65536))) none

/-- verify_mode as it acts: 0b11 acts as 0b10 (R255). -/
def comparesIdentity (x : Port) : Bool := !(x.nv.verifyMode == 1)
def testsBer (x : Port) : Bool := !(x.nv.verifyMode == 0)

/-- BER testing is due (R255): at installation, or after more than ber_interval hours since the last pass. -/
def berWanted (s : State) (x : Port) : Bool :=
  testsBer x && (!x.nv.berPassed ||
    (!(x.nv.berInterval == 0) && match x.lastBer with
      | some t => decide (x.nv.berInterval.toNat * 25000000 * 3600 < s.ticks - t)
      | none => false))

/-- After identity: the BER test where it is due, else keying (Table 10-7). -/
def afterIdentity (p : PortId) (s : State) : State :=
  if berWanted s (s.portOf p) then
    sendTraining p 2 (modPort p (fun x => { x with state := .test, berDue := true, berNear := none,
                                                   berFarSeen := false }) s)
  else modPort p (fun x => { x with state := .keying }) s

/-- Compare the far identity with the cabling plan (Table 10-9). -/
def compareIdentity (p : PortId) (s : State) : State :=
  let x := s.portOf p
  if !(x.farKind == 2) || !(x.farPlane.toNat == p.val) then refusePort p 0x0804 (some 0) s
  else if !(comparesIdentity x) then afterIdentity p s
  else if !x.nv.planValid then afterIdentity p (reportPort p none { code := 0x0805 } s)
  else if x.farSerial == x.nv.planSerial && x.farPort == x.nv.planPort then afterIdentity p s
  else if x.nv.strict then refusePort p 0x0804 (some 0) s
  else afterIdentity p (reportPort p (some 0) { code := 0x0804 } s)

/-- A received ID_BLOCK: the far identity is kept, the version chosen, the identity compared. -/
def takeId (p : PortId) (b : Bytes) (s : State) : State :=
  let s := farArrived p 1 (modPort p (fun x => { x with
    farKind := byteAt b 4, farPlane := byteAt b 5, farPort := BitVec.ofNat 16 (leAt b 6 2),
    farSerial := BitVec.ofNat 64 (leAt b 8 8) }) s)
  match farMinor b with
  | none => refusePort p 0x0803 (some 1) s
  | some _ => compareIdentity p (modPort p (fun x => { x with version := 0x00010000 }) s)

def execIdBlock (p : PortId) (b : Bytes) (s : State) : Host.Outcome State Fault Refusal :=
  .next (when' (decide ((s.portOf p).state = .negotiate) && decide (leAt b 0 4 = 0x49585952) && decide (b.length = 64))
    (takeId p b) s)

/-! ### The bit-error test (R255) -/

def execTestReq (p : PortId) (body : Bytes) (s : State) : Host.Outcome State Fault Refusal :=
  .next (when' (decide ((s.portOf p).state = .test) && decide ((s.portOf p).status = .training) &&
      decide (leAt body 0 8 = 5 + 0xFF * 256 + 1000 * 2 ^ 32))
    (fun s => farArrived p 2 (modPort p (fun x => { x with status := .test, resume := .test }) s)) s)

/-- Every lane of both directions locked and counted at most 212,500 errors. -/
def berPass (near far : List (BitVec 32)) (nearLocked farLocked : Byte) : Bool :=
  (near ++ far).all (fun w => decide (w.toNat ≤ 212500)) && nearLocked == 0xFF && farLocked == 0xFF

/-- Both sides' counts are in: a pass sets ber_passed, a failure refuses a strict port (R255). -/
def concludeBer (p : PortId) (far : Byte) (s : State) : State :=
  let x := s.portOf p
  match x.berNear with
  | none => s
  | some n =>
    let s := modPort p (fun x => { x with berDue := false }) s
    if berPass n.1 x.berFar n.2 far then
      modPort p (fun x => { x with state := .keying }) (reportPort p none { code := 0x0807 }
        (modPort p (fun x => { x with nv := { x.nv with berPassed := true }, lastBer := some s.ticks }) s))
    else if x.nv.strict then refusePort p 0x0806 (some 3) s
    else modPort p (fun x => { x with state := .keying }) (reportPort p (some 3) { code := 0x0806 } s)

/-- This side's test ends: its counts go out, and with the far end's the test is decided. -/
def execBerTestEnd (p : PortId) (errors : List Word) (locked : Byte) (s : State) :
    Host.Outcome State Fault Refusal :=
  .next (when' (decide ((s.portOf p).state = .test) && decide ((s.portOf p).status = .test)) (fun s =>
    let s := modPort p (fun x => { x with
      berErrors := errors, berNear := some (errors, locked), status := .training, resume := .training }) s
    let s := sendTraining p 3 s
    if (s.portOf p).berFarSeen then concludeBer p (s.portOf p).berFarLocked s else s) s)

def execTestResult (p : PortId) (errors : List Word) (locked : Byte) (s : State) :
    Host.Outcome State Fault Refusal :=
  .next (when' (decide ((s.portOf p).state = .test)) (fun s =>
    let s := modPort p (fun x => { x with berFar := errors, berFarSeen := true, berFarLocked := locked }) s
    if (s.portOf p).berNear.isSome then concludeBer p locked (farArrived p 3 s) else s) s)

/-! ### Keying (R314 to R316, Table 12-9) -/

/-- "LKW36 hop" and "LKW36 fin". -/
def labelHop : Bytes := ascii [76, 75, 87, 51, 54, 32, 104, 111, 112]
def labelFin : Bytes := ascii [76, 75, 87, 51, 54, 32, 102, 105, 110]

def execKeyHello (p : PortId) (s : State) : Host.Outcome State Fault Refusal :=
  .next (when' (decide ((s.portOf p).state = .keying) && (s.portOf p).keying.isNone && !(s.portOf p).keyed) (fun s =>
    let ne := s.random 32
    sayTraining p 0x11 ne (drawNext (modPort p (fun x => { x with keying := some {
      ne := ne, hello := ne, reply := [], confirm := [], ephDk := [], ssE := [], confirmed := false } }) s))) s)

/-- The parts of a KEY_REPLY: nonce, report, endorsement record. -/
def replyReport (m : Bytes) : Bytes := slice m 32 5325
def replyCert (m : Bytes) : Bytes := slice m 5357 5277

/-- The switch root under which the endorsement verifies, if one does (R315). -/
def rootOf (s : State) (cert : Bytes) : Option Bytes :=
  (s.sec.roots.toList.filterMap id).find? fun k => Config.mldsaVerify k (slice cert 0 1968) (slice cert 1968 3309)

/-- A KEY_REPLY of all its fragments has this many bytes. -/
def replyBytes : Nat := 10634

/-- R315's checks of a KEY_REPLY but for the root. -/
def replyValid (x : Port) (k : Keying) (m : Bytes) : Bool :=
  let r := replyReport m
  let c := replyCert m
  leAt c 1952 8 == x.farSerial.toNat && leAt r 0 4 == 0x52545441 &&
    leAt r 4 4 / 65536 == 1 && leAt r 8 4 == 5325 &&
    Config.mldsaVerify (slice c 0 1952) (slice r 0 2016) (slice r 2016 3309) && byteAt r 15 == 2 &&
    slice r 32 32 == k.ne && !(zeros r 384 64)

/-- Answer an accepted KEY_REPLY with KEY_CONFIRM: the report with no context, both endorsement records,
and an encapsulation to the switch's key. -/
def confirmKey (p : PortId) (k : Keying) (root m : Bytes) (s : State) : State :=
  let eph := Config.kemKeys (s.random 64)
  let s := drawNext s
  let far := slice (replyReport m) 832 1184
  let enc := Config.kemEncaps far (s.random 32)
  let s := drawNext s
  let r := makeReport none (slice m 0 32) eph.1 s
  let msg := r.1 ++ certBytes s ++ enc.1
  sayTraining p 0x13 msg (modPort p (fun x => { x with
    farEk := far, rootFp := Config.shake256 root 64, reducerFw := slice (replyReport m) 384 64,
    switchSerial := x.farSerial,
    keying := some { k with reply := m, confirm := msg, ephDk := eph.2, ssE := enc.2, confirmed := true } }) r.2)

/-- A failed exchange: 0x090A, and the port goes DOWN and retrains under R244. -/
def failExchange (p : PortId) (s : State) : State :=
  portDown p (reportPort p none { code := 0x090A } s)

/-- A received KEY_REPLY; one of another length has lost a fragment, which fails the exchange (R314; DEDUCED, log entry 107). -/
def execKeyReply (p : PortId) (m : Bytes) (s : State) : Host.Outcome State Fault Refusal :=
  .next (match (s.portOf p).keying with
    | none => s
    | some k =>
      if k.confirmed || !(decide ((s.portOf p).state = .keying)) then s
      else if !(m.length == replyBytes) then failExchange p s
      else if !(replyValid (s.portOf p) k m) then refusePort p 0x0909 none s
      else match rootOf s (replyCert m) with
        | none => refusePort p 0x0909 none s
        | some root => confirmKey p k root m s)

/-- The 72 bytes of R316 as the two directions' keys and salts. -/
def hopKeys (b : Bytes) (phase : Bool) : HopKey × HopKey :=
  ({ key := slice b 0 32, salt := BitVec.ofNat 32 (leAt b 64 4), counter := 0, phase := phase },
   { key := slice b 32 32, salt := BitVec.ofNat 32 (leAt b 68 4), counter := 0, phase := phase })

/-- KEY_FINISH: the finish value must match (R316). -/
def finishKey (p : PortId) (k : Keying) (m : Bytes) (s : State) : State :=
  match Config.kemDecaps k.ephDk (slice m 0 1088) with
  | none => failExchange p s
  | some ss =>
    let t := Config.shake256 (k.hello ++ k.reply ++ k.confirm) 64
    let b := Config.shake256 (labelHop ++ k.ssE ++ ss ++ t) 72
    if m.length == 1120 && slice m 1088 32 == Config.shake256 (labelFin ++ b ++ t) 32 then
      let h := hopKeys b false
      sendTraining p 4 (modPort p (fun x => { x with
        keyed := true, transcript := t, tx := h.1, rx := h.2, rxOld := none, rxNew := 0, lastKeyed := s.ticks,
        ephDk := k.ephDk, keying := none }) s)
    else failExchange p s

def execKeyFinish (p : PortId) (m : Bytes) (s : State) : Host.Outcome State Fault Refusal :=
  .next (match (s.portOf p).keying with
    | none => s
    | some k => if k.confirmed && decide ((s.portOf p).state = .keying) then finishKey p k m s else s)

/-! ### Credits and READY (R245, R248) -/

def execCreditInit (p : PortId) (v0 v1 v2 v3 : BitVec 16) (s : State) : Host.Outcome State Fault Refusal :=
  .next (when' (decide ((s.portOf p).state = .keying) && (s.portOf p).keyed && !(s.portOf p).credInit) (fun s =>
    if v0.toNat < 64 ∨ v1.toNat < 64 ∨ v2.toNat < 64 ∨ v3.toNat < 8 then refusePort p 0x080B (some 5) s
    else sendTraining p 5 (farArrived p 4 (modPort p (fun x => { x with
      credInit := true, credits := #v[v0.toNat, v1.toNat, v2.toNat, v3.toNat] }) s))) s)

/-- The status a port takes as it comes UP: a tray release withdraws it, a curtain covers it. -/
def upStatus (s : State) : LinkStatus × LinkStatus :=
  let b : LinkStatus := if s.start.releaseLow then .withdrawn else .up
  (if inCurtain s then .curtain else b, b)

def execReady (p : PortId) (s : State) : Host.Outcome State Fault Refusal :=
  .next (when' (decide ((s.portOf p).state = .keying) && (s.portOf p).credInit) (fun s =>
    let u := upStatus s
    reportPort p none { code := 0x080C } (modPort p (fun x => { x with
      state := .up, status := u.1, resume := u.2, train := false, retrains := 0, awaiting := [], nextSeq := 0,
      rxExpect := 0, unacked := [], nakActed := none, naking := false }) s)) s)

/-- The training kinds of Table 10-13. -/
def knownKind (k : Byte) : Bool :=
  (1 ≤ k.toNat && k.toNat ≤ 5) || (0x11 ≤ k.toNat && k.toNat ≤ 0x14)

def execTrainingFlitDiscard (p : PortId) (kind : Byte) (s : State) : Host.Outcome State Fault Refusal :=
  .next (if (s.portOf p).state = .up then reportPort p none { code := 0x080E, value := kind.toNat } s
    else if knownKind kind then s
    else reportPort p none { code := 0x080E, isCount := true, value := 1 } s)

/-! ### The data path (R240 to R243) -/

/-- Key of a flit: that of its phase. -/
def rxKey (x : Port) (phase : Bool) : Option HopKey :=
  if x.rx.phase = phase then some x.rx
  else match x.rxOld with
    | some k => if k.phase = phase then some k else none
    | none => none

/-- The counter nearest the receiver's own count whose low bits are `lo` (R242). -/
def nearCounter (own lo : Nat) : Nat :=
  let m := 2 ^ 21
  let base := own / m * m + lo
  let cands := [base, base + m] ++ (if m ≤ base then [base - m] else [])
  cands.foldl (fun b c =>
    let dist (v : Nat) : Nat := if own ≤ v then v - own else own - v
    if dist c < dist b then c else b) base

/-- An acknowledgement releases every flit up to it. -/
def takeAck (x : Port) (ack : BitVec 12) : Port :=
  if x.unacked.any fun f => f.seq == ack then
    { x with unacked := (fromSeq x.unacked ack).drop 1, nakActed := none }
  else x

/-- A nak acts once per resend with a given ack (R243). -/
def actNak (p : PortId) (ack : BitVec 12) (s : State) : State :=
  let s := modPort p (fun x => takeAck x ack) s
  if (s.portOf p).nakActed = some ack then s
  else resendFrom p (ack + 1) (modPort p (fun x => { x with nakActed := some ack }) s)

/-- The acknowledgement and credits that an accepted flit's header carries; a port in CURTAIN resends nothing (R240). -/
def takeHeader (p : PortId) (h : Nat) (s : State) : State :=
  let ack := BitVec.ofNat 12 (bits h 51 40)
  let v := Fin.ofNat 4 (bits h 30 29)
  let s := modPort p (fun x => { x with credits := x.credits.set v (x.credits[v] + bits h 28 21) }) s
  let s := if bitOf h 39 && !(decide ((s.portOf p).status = .curtain)) then actNak p ack s else modPort p (fun x => takeAck x ack) s
  framePort p pump s

/-- A data flit in order: its body joins its VC's message, and its buffer's credit is due to the far end (R245); the old key goes after 1,024 flits of the new
phase (R242). -/
def acceptData (h : Nat) (counter : Nat) (body : Bytes) (x : Port) : Port :=
  let v := Fin.ofNat 4 (bits h 34 33)
  let phase := bitOf h 38
  let part := if bitOf h 32 then body else x.partial'[v] ++ body
  let n := if x.rxOld.isSome && x.rx.phase == phase then x.rxNew + 1 else x.rxNew
  { x with
    rxExpect := x.rxExpect + 1, naking := false, owed := x.owed.set v (x.owed[v] + 1),
    partial' := x.partial'.set v (if bitOf h 31 then [] else part),
    rx := if x.rx.phase = phase then { x.rx with counter := counter + 1 } else x.rx,
    rxNew := n, rxOld := if 1024 ≤ n then none else x.rxOld }

/-- A flit that cannot be taken: it and what follows are discarded until the expected flit arrives. -/
def discardFlit (x : Port) : Port := { x with naking := true }

/-- A received flit on a port that is UP (R243). In CURTAIN every data flit is discarded (R240). -/
def takeFlit (p : PortId) (f : Flit) (s : State) : State :=
  let s := takeStatus p (flitStatus f) s
  let x := s.portOf p
  let h := (flitHead f).toNat
  let ftype := bits h 37 35
  if !(flitDecoded f) then
    modPort p (fun x => { discardFlit x with fecUncorrected := satInc x.fecUncorrected }) s
  else if 2 ≤ ftype || decide ((flitRaw f).length < 256) then s
  else if x.status = .curtain ∧ ftype = 0 then s
  else
    let phase := bitOf h 38
    let plain := match rxKey x phase with
      | none => none
      | some k => (Config.gcmOpen k.key (flitNonce k (nearCounter k.counter (bits h 20 0))) (toLe 8 h) (flitBody f) (flitTag f))
    match plain with
    | none => reportPort p none { code := 0x0809, isCount := true, value := 1 } (modPort p discardFlit s)
    | some body =>
      if ftype = 1 then takeHeader p h s
      else if BitVec.ofNat 12 (bits h 63 52) = x.rxExpect then
        let c := match rxKey x phase with
          | some k => nearCounter k.counter (bits h 20 0)
          | none => 0
        takeHeader p h (modPort p (acceptData h c body) s)
      else modPort p discardFlit s

def execDataFlitReceive (p : PortId) (f : Flit) (s : State) : Host.Outcome State Fault Refusal :=
  .next (when' (decide ((s.portOf p).state = .up)) (takeFlit p f) s)

def execNakReceive (p : PortId) (ack : BitVec 12) (s : State) : Host.Outcome State Fault Refusal :=
  .next (when' (decide ((s.portOf p).state = .up) && !(decide ((s.portOf p).status = .curtain)))
    (fun s => framePort p pump (actNak p ack s)) s)

/-- 2 µs without ack progress (R243); in CURTAIN the timer stands still (R240). -/
def execAckTimeout (p : PortId) (s : State) : Host.Outcome State Fault Refusal :=
  .next (when' (decide ((s.portOf p).state = .up) && !(decide ((s.portOf p).status = .curtain)))
    (fun s => match (s.portOf p).unacked with
      | [] => s
      | f :: _ => resendFrom p f.seq (modPort p (fun x => { x with nakActed := none }) s)) s)

def execCodewordLockLoss (p : PortId) (s : State) : Host.Outcome State Fault Refusal :=
  .next (when' (!(decide ((s.portOf p).state = .down)) && !(decide ((s.portOf p).state = .pmd))) (portDown p) s)

def execFarEndDown (p : PortId) (s : State) : Host.Outcome State Fault Refusal :=
  .next (when' (decide ((s.portOf p).state = .up))
    (fun s => portDown p (modPort p (fun x => { x with farStatus := 5 }) s)) s)

/-! ### Key changes (R242, R317) -/

/-- Start a key change: a fresh encapsulation to the switch goes out on VC 3. -/
def startRekey (p : PortId) (s : State) : State :=
  if (s.portOf p).rekey.isSome then s
  else
    let enc := Config.kemEncaps (s.portOf p).farEk (s.random 32)
    sendMsg p reducerEp (.rekey enc.1) (drawNext (modPort p (fun x => { x with rekey := some enc.2 }) s))

/-- A port that may change keys. -/
def rekeyable (s : State) (p : PortId) : Bool :=
  decide ((s.portOf p).state = .up) && (s.portOf p).keyed && !(decide ((s.portOf p).status = .curtain))

/-- After 2^40 flits in a direction the sender asks for new keys (R242). -/
def execHopKeyLimit (p : PortId) (s : State) : Host.Outcome State Fault Refusal :=
  .next (when' (rekeyable s p && decide (2 ^ 40 ≤ (s.portOf p).tx.counter)) (startRekey p) s)

/-- The far end's encapsulation completes the change: new keys from the old transcript digest, key_phase
toggled, 0x090B (R317). -/
def finishRekey (p : PortId) (ct : Bytes) (s : State) : State :=
  let x := s.portOf p
  match x.rekey, Config.kemDecaps x.ephDk ct with
  | some own, some ss =>
    let h := hopKeys (Config.shake256 (labelHop ++ own ++ ss ++ x.transcript) 72) (!x.tx.phase)
    reportPort p none { code := 0x090B } (modPort p (fun x => { x with
      tx := h.1, rxOld := some x.rx, rx := h.2, rxNew := 0, rekey := none, lastKeyed := s.ticks }) s)
  | _, _ => failExchange p s

def execHopRekey (p : PortId) (ct : Bytes) (s : State) : Host.Outcome State Fault Refusal :=
  .next (when' (rekeyable s p) (fun s => finishRekey p ct (startRekey p s)) s)

/-! ### Pre-FEC monitor (R256) -/

/-- One more second above 10⁻⁵, or none. -/
def degradedStep (old est : Nat) : Nat := if 10000 < est then old + 1 else 0

/-- The count of corrected codewords one second later: how many the FEC has corrected is open, a free value (R257, log entry 108). -/
def fecLater (s : State) (p : PortId) : Word := satAdd (s.portOf p).fecCorrected (Config.freeWord s.free).toNat

def execPreFecMonitor (p : PortId) (lanes : List Nat) (s : State) : Host.Outcome State Fault Refusal :=
  .next (when' (decide ((s.portOf p).state = .up)) (fun s =>
    let d := (List.range 8).map fun k => degradedStep ((s.portOf p).degraded.getD k 0) (lanes.getD k 0)
    let n := fecLater s p
    let s := drawNext (modPort p (fun x => { x with degraded := d, fecCorrected := n }) s)
    if d.contains 10 then reportPort p (some 4) { code := 0x080D } s else s) s)

/-! ### Pattern tests (R253, R254, R258) -/

/-- No Chart is RUNNING or STAGED in the active slot (R254). -/
def activeBare (s : State) : Bool :=
  match holder s with
  | none => true
  | some i => let st := (s.loader.slots[i]).state
    !(decide (st = .running)) && !(decide (st = .staged))

/-- The lane a pattern test names is free of traffic (R254). -/
def patternAllowed (s : State) (t : Nat) : Bool :=
  if t < 0x10 then decide ((s.portOf (Fin.ofNat 16 t)).state = .down)
  else if t == 0x10 || t == 0x11 then t - 0x10 == (standby s).val
  else if 0x20 ≤ t && t ≤ 0x2B then activeBare s
  else if t == 0x30 then
    linkIsDown s { router := tileAt s.pattern.gcol.toNat s.pattern.grow.toNat,
                   dir := Fin.ofNat 6 s.pattern.direction.toNat } || activeBare s
  else false

/-- Start a pattern test, or refuse it in `refusal`: 0x0821 before house open and while a test runs. -/
def startPattern (s : State) : State :=
  let x := s.pattern
  let loc := locPort x.target.toNat
  if !(houseOpen s) || x.running then
    report { code := 0x0821, loc := loc } { s with pattern := { x with refusal := 0x0821 } }
  else if !(patternAllowed s x.target.toNat) then
    report { code := 0x0820, loc := loc } { s with pattern := { x with refusal := 0x0820 } }
  else
    { s with pattern := { x with
        refusal := 0, running := true, locked := 0, bits := 0, firstFail := 0xFFF, laneErrors := [],
        held := some (x.target, x.laneMask, x.direction, x.grow, x.gcol), heldMode := x.mode } }

def execPatternGo (s : State) : Host.Outcome State Fault Refusal :=
  .next (when' (bar0Up s && activeUp s) startPattern s)

/-- Lanes of a pattern target: a port's of the mask, a stack's groups of 264, a mesh link's 578 tracks. -/
def patternLanes (target : Nat) (mask : Byte) : List Nat :=
  if target == 0x30 then List.range 578
  else if 0x20 ≤ target then (List.range 2112).filter fun n => mask.getLsbD (n / 264)
  else (List.range 8).filter fun n => mask.getLsbD n

/-- Group of a lane in the locked field. -/
def laneGroup (target n : Nat) : Nat :=
  if target == 0x30 then 0 else if 0x20 ≤ target then n / 264 else n

/-- A pattern test ends (R258): what its checkers counted is open (free values): per lane whether it
locked, and its count where it did. -/
def endPattern (s : State) : State :=
  let x := s.pattern
  let s := match x.held with
    | none => s
    | some (t, mask, _) =>
      if x.heldMode == 1 then s
      else
        let lanes := patternLanes t.toNat mask
        let lock (n : Nat) : Bool := (Config.freeByte (s.free + n)).getLsbD 0
        let count (n : Nat) : BitVec 32 := if lock n then (Config.freeWord (s.free + n)).truncate 32 else 0
        let groups := (List.range 8).filter fun g =>
          (lanes.any fun n => laneGroup t.toNat n == g) && lanes.all fun n => !(laneGroup t.toNat n == g) || lock n
        drawNext { s with pattern := { x with
          locked := groups.foldl (fun b g => b ||| ((1 : BitVec 8) <<< g)) 0,
          bits := Config.freeWord s.free,
          laneErrors := (lanes.map fun n => (n, count n)).filter fun p => !(p.2 == 0),
          firstFail := match lanes.find? fun n => !(count n == 0) with
            | some n => BitVec.ofNat 12 n
            | none => 0xFFF } }
  let target := match x.held with
    | some h => h.1
    | none => x.target
  report { code := 0x0822, loc := locPort target.toNat }
    { s with pattern := { s.pattern with running := false, held := none } }

def execPatternStop (s : State) : Host.Outcome State Fault Refusal :=
  .next (when' (s.pattern.running && bar0Up s && activeUp s) endPattern s)

end Sys2Proof.Machine
end

