-- ==== Sys2Proof/Machine/Mgmt.lean ====
section
/-! DEFINITION. The management requests (R321 to R328, Table 12-13). A request's signature, freshness, layout
and right are checked in that order before its own effect (log entry 30). -/

namespace Sys2Proof.Machine

open Sys2Proof

/-! ### The checks of R321 to R324 -/

/-- Management answers: the register plane is up and the start has not stopped in ROM (R399, R418). -/
def mgmtUp (s : State) : Bool := bar0Up s && !(s.start.stopCode == 0x0D0A)

/-- The rights of a role hold those of a lower one. -/
def rank : Role → Nat
  | .observer => 0
  | .operator => 1
  | .admin => 2

/-- The bytes that a request's signature covers. -/
def signedBytes (op : Nat) (r : MgmtReq) : Bytes :=
  mgmtBytes r.magic.toNat r.version.toNat r.cred op r.counter.toNat r.serial.toNat r.epoch.toNat r.body

/-- The credential a request names. -/
def credOf (s : State) (r : MgmtReq) : Option Cred :=
  if r.cred.toNat < 8 then s.sec.creds[Fin.ofNat 8 r.cred.toNat] else none

/-- No credential is held. -/
def noCreds (s : State) : Bool := s.sec.creds.toList.all (·.isNone)

/-- The self-signed enrolment of R323: no credential held, in the 600 s, index 0, role admin. -/
def selfEnrol (s : State) (op : Nat) (r : MgmtReq) : Bool :=
  op == 0x0060 && noCreds s && s.start.credWindow && r.cred == 0 && byteAt r.body 0 == 0 && byteAt r.body 1 == 2

/-- The key and the role that a request acts with. -/
def actsAs (s : State) (op : Nat) (r : MgmtReq) : Option Cred :=
  if selfEnrol s op r then some { key := slice r.body 4 1952, role := .admin } else credOf s r

/-- The counter is above the last one accepted. -/
def counterFresh (s : State) (r : MgmtReq) : Bool :=
  match s.sec.mgmtCounter[Fin.ofNat 8 r.cred.toNat] with
  | none => true
  | some c => decide (c.toNat < r.counter.toNat)

/-- Serial, boot epoch and counter are this engine's and new. -/
def requestFresh (s : State) (r : MgmtReq) : Bool :=
  r.serial == s.ident.serial && r.epoch == s.ident.bootEpoch && counterFresh s r

/-- The counter of a request is accepted. -/
def acceptCounter (r : MgmtReq) (s : State) : State :=
  { s with sec := { s.sec with
      mgmtCounter := s.sec.mgmtCounter.set (Fin.ofNat 8 r.cred.toNat) (some r.counter) } }

/-- Answer a management request. -/
def answer (op : Nat) (code : Code) (body : Bytes) (s : State) : State := emit (.mgmt op code body) s

/-- An answer on the wire (R321, R322): the request's header fields, the result code with two reserved bytes and the body, signed with the
attestation key. -/
def answerBytes (s : State) (r : MgmtReq) (op : Nat) (code : Code) (body : Bytes) : Bytes :=
  let b := mgmtBytes r.magic.toNat r.version.toNat r.cred op r.counter.toNat r.serial.toNat r.epoch.toNat (toLe 2 code.toNat ++ [0, 0] ++ body)
  b ++ slice (Config.mldsaSign s.sec.aliasSeed b) 0 3309

/-- Refuse a management request: its code is an event (R329). -/
def refuseMgmt (op : Nat) (code : Code) (s : State) : State :=
  answer op code [] (report { code := code } s)

/-- A request of a newer minor version than 1.0: what this engine does not know in it is ignored (R5, log entry 86). -/
def newerApi (r : MgmtReq) : Bool := !(r.version.toNat % 65536 == 0)

/-- A body has the bytes that its layout names; a newer minor may add more. -/
def sized (newer : Bool) (n : Nat) (b : Bytes) : Bool := b.length == n || (newer && decide (n < b.length))

/-- Reserved bytes are clear, or of a newer minor. -/
def clear (newer : Bool) (b : Bytes) (off len : Nat) : Bool := newer || zeros b off len

/-- Reserved bits of a byte are clear, or of a newer minor. -/
def clearBits (newer : Bool) (b mask : Byte) : Bool := newer || (b &&& mask) == 0

/-- A request waits (Table 12-4, log entry 28). -/
def holdMgmt (op : Nat) (r : MgmtReq) (s : State) : State :=
  { s with sec := { s.sec with mgmtWaiting := s.sec.mgmtWaiting ++ [(op, r)] } }

/-- One management request: `layout` says whether its body keeps Table 12-13, `f` is its effect. During a
curtain it waits (Table 12-4). -/
def mgmt (op : Nat) (role : Role) (layout : Bool → Bytes → Bool) (f : MgmtReq → State → State) (r : MgmtReq)
    (s : State) : State :=
  if !(mgmtUp s) then s
  else if inCurtain s then holdMgmt op r s
  else if !(r.magic == 0x544D474D) || !(r.version.toNat / 65536 == 1) then refuseMgmt op 0x0919 s
  else match actsAs s op r with
    | none => refuseMgmt op 0x0912 s
    | some c =>
      if !(Config.mldsaVerify c.key (signedBytes op r) r.sig) then refuseMgmt op 0x0912 s
      else if !(requestFresh s r) then refuseMgmt op 0x0913 s
      else
        let s := acceptCounter r s
        if !(layout (newerApi r) r.body) then refuseMgmt op 0x0919 s
        else if rank c.role < rank role then refuseMgmt op 0x0914 s
        else f r s

/-- The body is empty. -/
def noBody (newer : Bool) (b : Bytes) : Bool := newer || b.isEmpty

/-! ### Telemetry and events -/

/-- The management figures of Table 12-10: the words of the power and thermal registers. -/
def telemetryBytes (s : State) : Bytes :=
  ((List.range 9).flatMap fun k => toLe 4 (readReg s (0x30000 + 4 * k)).toNat) ++
    (List.range 5).flatMap fun k => toLe 4 (readReg s (0x30100 + 4 * k)).toNat

def execGetTelemetry (r : MgmtReq) (s : State) : Host.Outcome State Fault Refusal :=
  .next (mgmt 0x0001 .observer noBody (fun _ s => answer 0x0001 0 (telemetryBytes s) s) r s)

/-- Bytes [11:0] of an event record (Table 15-11). -/
def eventBytes (e : EventRec) : Bytes :=
  toLe 2 e.code.toNat ++ [e.slot, if e.isCount then 1 else 0] ++ toLe 4 e.seq.toNat ++ toLe 4 e.tick.toNat

/-- GET_EVENTS's body: first seq, count 1 to 256. -/
def eventsLayout (newer : Bool) (b : Bytes) : Bool :=
  sized newer 6 b && decide (1 ≤ leAt b 4 2) && decide (leAt b 4 2 ≤ 256)

def execGetEvents (r : MgmtReq) (s : State) : Host.Outcome State Fault Refusal :=
  .next (mgmt 0x0002 .observer eventsLayout (fun r s =>
    answer 0x0002 0 (((s.log.records.filter fun e => decide (leAt r.body 0 4 ≤ e.seq.toNat)).take
      (leAt r.body 4 2)).flatMap eventBytes) s) r s)

/-! ### Power limits (R340, R341, Table 13-3) -/

/-- SET_POWER_CAP takes effect (R340): the cap term, leased or not; it ends the expired state with 0x0A07. -/
def setCap (cap : Nat) (lease : Bool) (s : State) : State :=
  let was := s.power.expired
  let s := { s with power := { s.power with
    capTerm := cap, capSet := BitVec.ofNat 16 cap, setValid := true, leased := lease, leaseLive := lease,
    orphan := false, expired := false } }
  if was then reportPower none { code := 0x0A07 } s else s

def execSetPowerCap (r : MgmtReq) (s : State) : Host.Outcome State Fault Refusal :=
  .next (mgmt 0x0010 .operator
    (fun n b => sized n 4 b && clearBits n (byteAt b 2) 0xFE && clear n b 3 1)
    (fun r s =>
      let cap := leAt r.body 0 2
      if cap < 6000 || 23000 < cap then refuseMgmt 0x0010 0x0A0E s
      else answer 0x0010 0 [] (setCap cap ((byteAt r.body 2).getLsbD 0) s)) r s)

def execSetSlew (r : MgmtReq) (s : State) : Host.Outcome State Fault Refusal :=
  .next (mgmt 0x0011 .operator (fun n b => sized n 4 b) (fun r s =>
    let v := leAt r.body 0 4
    if v < 1000 || 50000 < v then refuseMgmt 0x0011 0x0A0E s
    else answer 0x0011 0 [] { s with power := { s.power with slewWs := BitVec.ofNat 16 v } }) r s)

/-- A new orphan cap: the cap term follows it while it comes from it (R340). -/
def setOrphan (v : Nat) (s : State) : State :=
  { s with power := { s.power with
      orphanW := BitVec.ofNat 16 v,
      capTerm := if s.power.expired then min s.power.capSet.toNat v
        else if s.power.orphan then v else s.power.capTerm } }

def execSetOrphanCap (r : MgmtReq) (s : State) : Host.Outcome State Fault Refusal :=
  .next (mgmt 0x0012 .operator (fun n b => sized n 4 b && clear n b 2 2) (fun r s =>
    let v := leAt r.body 0 2
    if v < 6000 || 23000 < v then refuseMgmt 0x0012 0x0A0E s
    else answer 0x0012 0 [] (setOrphan v s)) r s)

/-! ### NV, scrub, reset -/

def execStoreNv (r : MgmtReq) (s : State) : Host.Outcome State Fault Refusal :=
  .next (mgmt 0x0020 .operator noBody (fun _ s => requestStore true s) r s)

/-- A patrol or SRAM scrub pass starts now: its reads are BACKGROUND_SCRUB's. -/
def execStartScrub (r : MgmtReq) (s : State) : Host.Outcome State Fault Refusal :=
  .next (mgmt 0x0021 .operator
    (fun n b => sized n 4 b && decide ((byteAt b 0).toNat ≤ 1) && clear n b 1 3)
    (fun _ s => answer 0x0021 0 [] s) r s)

/-- A management reset acts as HOUSE_RST_N, then start-up runs from 0 (R421). -/
def resetByMgmt (s : State) : State :=
  runRom (resetState 2 true (dropForReset s))

def execResetEngine (r : MgmtReq) (s : State) : Host.Outcome State Fault Refusal :=
  .next (mgmt 0x0022 .operator noBody (fun _ s => resetByMgmt (answer 0x0022 0 [] s)) r s)

/-! ### Contexts -/

/-- Run a context request for management: it waits for a hand-over and for the mailbox (R294). -/
def mgmtContext (op : Nat) (f : Slot → State → Answer × State) (r : MgmtReq) (s : State) : State :=
  let i := (byteAt r.body 0).toNat
  match f (Fin.ofNat 8 i) s with
  | (.refuse c, s) => refuseMgmt op c s
  | (.reply b, s) => answer op 0 b s
  | (.later, s) => s

/-- No hand-over is under way. -/
def handsFree (s : State) : Bool := s.sec.handOver.isNone

/-- A request that may start a hand-over waits for the one that runs (R294, log entry 28). -/
def whenHandsFree (op : Nat) (f : MgmtReq → State → State) (r : MgmtReq) (s : State) : State :=
  if handsFree s then f r s else if mgmtUp s then holdMgmt op r s else s

def execMgmtCloseContext (r : MgmtReq) (s : State) : Host.Outcome State Fault Refusal :=
  .next (whenHandsFree 0x0030 (mgmt 0x0030 .operator
    (fun n b => sized n 4 b && decide ((byteAt b 0).toNat < 8) && clearBits n (byteAt b 1) 0xFE && clear n b 2 2)
    (fun r s => mgmtContext 0x0030
      (fun i s => closeRequest .management i ((byteAt r.body 1 &&& 1) :: List.replicate 7 0) s) r s)) r s)

def execMgmtSwitchContext (r : MgmtReq) (s : State) : Host.Outcome State Fault Refusal :=
  .next (whenHandsFree 0x0031 (mgmt 0x0031 .operator
    (fun n b => sized n 8 b && decide ((byteAt b 0).toNat < 8) && clear n b 1 3)
    (fun r s => mgmtContext 0x0031
      (fun i s => switchRequest .management i (slice r.body 4 4 ++ List.replicate 4 0) s) r s)) r s)

/-! ### Cabling and switch roots -/

/-- A port's cabling entry as SET_CABLING gives it; the plan's change clears ber_passed (R255). -/
def setPlan (p : PortId) (b : Bytes) (s : State) : State :=
  let f := byteAt b 14
  let s := modPort p (fun x => { x with nv := { x.nv with
    planSerial := BitVec.ofNat 64 (leAt b 4 8), planPort := BitVec.ofNat 16 (leAt b 12 2),
    planValid := f.getLsbD 0, strict := f.getLsbD 1, verifyMode := BitVec.ofNat 2 (bits f.toNat 3 2),
    berInterval := BitVec.ofNat 16 (leAt b 16 2), berPassed := false } }) s
  setEnable p (f.getLsbD 4) s

/-- SET_CABLING's body (Table 12-13). -/
def cablingLayout (newer : Bool) (b : Bytes) : Bool :=
  sized newer 20 b && (decide ((byteAt b 0).toNat < 16) || byteAt b 0 == 0xFF) && clear newer b 1 3 &&
    clearBits newer (byteAt b 14) 0xE0 && clear newer b 15 1 && decide (leAt b 18 2 < 4096)

def execSetCabling (r : MgmtReq) (s : State) : Host.Outcome State Fault Refusal :=
  .next (mgmt 0x0040 .admin cablingLayout (fun r s =>
    let s := if byteAt r.body 0 == 0xFF then
        { s with fabricGroup := BitVec.ofNat 12 (leAt r.body 18 2) }
      else setPlan (Fin.ofNat 16 (byteAt r.body 0).toNat) r.body s
    answer 0x0040 0 [] s) r s)

def execSetSwitchRoot (r : MgmtReq) (s : State) : Host.Outcome State Fault Refusal :=
  .next (mgmt 0x0041 .admin
    (fun n b => sized n 1956 b && decide ((byteAt b 0).toNat < 4) && clear n b 1 3)
    (fun r s =>
      let key := slice r.body 4 1952
      answer 0x0041 0 [] { s with sec := { s.sec with
        roots := s.sec.roots.set (Fin.ofNat 4 (byteAt r.body 0).toNat)
          (if key.all (· == 0) then none else some key) } }) r s)

/-! ### Firmware (R326) -/

def execFirmwareBegin (r : MgmtReq) (s : State) : Host.Outcome State Fault Refusal :=
  .next (mgmt 0x0050 .admin
    (fun n b => sized n 68 b && decide (leAt b 0 4 ≤ 2621440))
    (fun r s => answer 0x0050 0 [] { s with sec := { s.sec with
      upload := some { length := leAt r.body 0 4, digest := slice r.body 4 64, image := [] } } }) r s)

/-- A chunk with no image announced, or beyond its length, is a refused image (log entry 31). -/
def execFirmwareChunk (r : MgmtReq) (s : State) : Host.Outcome State Fault Refusal :=
  .next (mgmt 0x0051 .admin
    (fun _ b => decide (4 ≤ b.length) && decide (b.length ≤ 65540))
    (fun r s => match s.sec.upload with
      | none => refuseMgmt 0x0051 0x0915 s
      | some u =>
        if u.length < leAt r.body 0 4 + (r.body.length - 4) then refuseMgmt 0x0051 0x0915 s
        else answer 0x0051 0 [] { s with sec := { s.sec with
          upload := some { u with image := u.image ++ [(leAt r.body 0 4, r.body.drop 4)] } } }) r s)

/-- One byte of an image: the last chunk that delivered it. -/
def imageByte (l : List (Nat × Bytes)) (a : Nat) : Option Byte :=
  match l.reverse.find? fun c => decide (c.1 ≤ a) && decide (a < c.1 + c.2.length) with
  | some c => c.2[a - c.1]?
  | none => none

/-- The whole image, none where a byte has not been delivered. -/
def imageOf (u : FwUpload) : Option Bytes :=
  (List.range u.length).mapM (imageByte u.image)

/-- The image as firmware, if R326 accepts it. -/
def acceptImage (s : State) (u : FwUpload) : Option Firmware :=
  match imageOf u with
  | none => none
  | some img =>
    let p := Config.fwParts img
    if Config.shake256 img 64 == u.digest && Config.mldsaVerify (Config.vendorKey 0) p.1 p.2.1 &&
        decide (s.ident.minSvn ≤ p.2.2.2.2) then
      some { digests := p.2.2.1, svns := p.2.2.2.1, image := img }
    else none

/-- The image is checked (R326), then queued (R401). -/
def commitImage (s : State) : State :=
  match s.sec.upload.bind fun u => acceptImage s u with
  | none => refuseMgmt 0x0052 0x0915 { s with sec := { s.sec with upload := none } }
  | some f =>
    let s := { s with sec := { s.sec with upload := none } }
    if nvBlocked s then answer 0x0052 0x0D07 [] (reportNv (some 1) { code := 0x0D07 } s)
    else answer 0x0052 0 [] { s with nv := { s.nv with update := some f } }

def execFirmwareCommit (r : MgmtReq) (s : State) : Host.Outcome State Fault Refusal :=
  .next (mgmt 0x0052 .admin noBody (fun _ s => commitImage s) r s)

/-! ### Credentials and group keys -/

/-- Role of its code. -/
def roleOf (v : Byte) : Role := if v == 0 then .observer else if v == 1 then .operator else .admin

/-- An enrolled key is the one already held, or replaces none. -/
def keepsCounter : Option Cred → Option Cred → Bool
  | some x, some y => x.key == y.key
  | none, _ => true
  | some _, none => false

/-- Replace a credential; a new key has had no counter accepted. -/
def setCred (k : Nat) (c : Option Cred) (s : State) : State :=
  let i : Fin 8 := Fin.ofNat 8 k
  { s with sec := { s.sec with
      creds := s.sec.creds.set i c,
      mgmtCounter := if keepsCounter s.sec.creds[i] c then s.sec.mgmtCounter
        else s.sec.mgmtCounter.set i none } }

def execEnrollCredential (r : MgmtReq) (s : State) : Host.Outcome State Fault Refusal :=
  .next (mgmt 0x0060 .admin
    (fun n b => sized n 1956 b && decide ((byteAt b 0).toNat < 8) && decide ((byteAt b 1).toNat < 3) && clear n b 2 2)
    (fun r s => answer 0x0060 0 [] (setCred (byteAt r.body 0).toNat
      (some { key := slice r.body 4 1952, role := roleOf (byteAt r.body 1) }) s)) r s)

def execRevokeCredential (r : MgmtReq) (s : State) : Host.Outcome State Fault Refusal :=
  .next (mgmt 0x0061 .admin
    (fun n b => sized n 4 b && decide ((byteAt b 0).toNat < 8) && clear n b 1 3)
    (fun r s => answer 0x0061 0 [] (setCred (byteAt r.body 0).toNat none s)) r s)

/-- Erase one or every group key (R313). -/
def eraseGroups (id : Nat) (s : State) : State :=
  { s with sec := { s.sec with
      groups := if id = 2 ^ 128 - 1 then [] else s.sec.groups.filter fun g => !(g.groupId.toNat == id) } }

def execEraseGroupKeys (r : MgmtReq) (s : State) : Host.Outcome State Fault Refusal :=
  .next (mgmt 0x0070 .admin (fun n b => sized n 16 b)
    (fun r s => answer 0x0070 0 [] (eraseGroups (leAt r.body 0 16) s)) r s)

/-! ### Debug (R327, R328) -/

def execDebugChallenge (r : MgmtReq) (s : State) : Host.Outcome State Fault Refusal :=
  .next (mgmt 0x0080 .admin noBody (fun _ s =>
    let c := s.random 32
    answer 0x0080 0 c (drawNext { s with sec := { s.sec with challenge := some c } })) r s)

/-- The token is this engine's, for its challenge, and Lerrekarp's (R327). -/
def tokenGood (s : State) (b : Bytes) : Bool :=
  leAt b 0 4 == 0x54474244 && leAt b 4 8 == s.ident.serial.toNat &&
    (match s.sec.challenge with
      | some c => slice b 12 32 == c
      | none => false) &&
    Config.mldsaVerify (Config.vendorKey 1) (slice b 0 52) (slice b 52 3309) &&
    decide (s.ident.debugCount.toNat < 63)

/-- The scan port answers (R429): before the test lock is fused, or while debug is unlocked with scope bit 0. -/
def scanAnswers (s : State) : Bool := !s.ident.testLock || (s.sec.debugUnlocked && s.sec.debugScope.getLsbD 0)

/-- TDO is high-impedance, and the other scan inputs are ignored, while the scan port does not answer (R429). What it shifts while it
answers is not described (log entry 104). -/
def tdoHighZ (s : State) : Bool := !(scanAnswers s)

/-- An accepted token closes every open context, the one that holds the engine through a closing curtain;
then the unlock takes effect (R328). -/
def unlockDebug (scope : Nat) (s : State) : State :=
  let s := { s with sec := { s.sec with debugScope := BitVec.ofNat 3 scope } }
  let s := (allSlots.filter fun i => isOpen s i && !(isHolding s i)).foldl (fun s i => closeNow i false true s) s
  match holder s with
  | none => finishDebug s
  | some i => (closeSlot .debug i false s).2

def execDebugUnlock (r : MgmtReq) (s : State) : Host.Outcome State Fault Refusal :=
  .next (whenHandsFree 0x0081 (mgmt 0x0081 .admin
    (fun n b => sized n 3361 b && clear n b 48 4)
    (fun r s =>
      if tokenGood s r.body then unlockDebug (leAt r.body 44 4) s else refuseMgmt 0x0081 0x0916 s)) r s)

/-! ### Requests that waited (Table 12-4) -/

/-- The answer of the request that an opcode names; no other opcode is held. -/
def mgmtOutcome (op : Nat) (r : MgmtReq) (s : State) : Host.Outcome State Fault Refusal :=
  if op = 0x0001 then execGetTelemetry r s
  else if op = 0x0002 then execGetEvents r s
  else if op = 0x0010 then execSetPowerCap r s
  else if op = 0x0011 then execSetSlew r s
  else if op = 0x0012 then execSetOrphanCap r s
  else if op = 0x0020 then execStoreNv r s
  else if op = 0x0021 then execStartScrub r s
  else if op = 0x0022 then execResetEngine r s
  else if op = 0x0030 then execMgmtCloseContext r s
  else if op = 0x0031 then execMgmtSwitchContext r s
  else if op = 0x0040 then execSetCabling r s
  else if op = 0x0041 then execSetSwitchRoot r s
  else if op = 0x0050 then execFirmwareBegin r s
  else if op = 0x0051 then execFirmwareChunk r s
  else if op = 0x0052 then execFirmwareCommit r s
  else if op = 0x0060 then execEnrollCredential r s
  else if op = 0x0061 then execRevokeCredential r s
  else if op = 0x0070 then execEraseGroupKeys r s
  else if op = 0x0080 then execDebugChallenge r s
  else if op = 0x0081 then execDebugUnlock r s
  else .next s

/-- A management request that waited runs. -/
def mgmtOf (s : State) (x : Nat × MgmtReq) : State :=
  match mgmtOutcome x.1 x.2 s with
  | .next t => t
  | _ => s

/-- The management requests that waited run in their order, once no hand-over runs; behind one that starts another they wait again
(log entry 28). -/
def serveMgmt (s : State) : State :=
  if s.sec.mgmtWaiting.isEmpty || !(handsFree s) then s
  else s.sec.mgmtWaiting.foldl mgmtOf { s with sec := { s.sec with mgmtWaiting := [] } }

end Sys2Proof.Machine
end

