-- ==== Sys2Proof/Machine/Regs.lean ====
section
/-! DEFINITION. Writes of BAR0 registers (R10, R11, R266), the index of the event log (R404), and field tests (R430); the end of
the curtain, with the mailbox request that waited for it. -/

namespace Sys2Proof.Machine

open Sys2Proof

/-! ### The mailbox by its registers (R294, Table 12-1) -/

/-- The request that an opcode names; any other opcode is malformed (R295). -/
def requestOf (op : Nat) : Slot → Bytes → State → Answer × State :=
  if op = 0x01 then openRequest
  else if op = 0x02 then closeRequest .mailbox
  else if op = 0x03 then switchRequest .mailbox
  else if op = 0x04 then reportRequest
  else if op = 0x05 then installRequest
  else if op = 0x06 then removeRequest
  else if op = 0x07 then enrollRequest
  else if op = 0x08 then planeRequest
  else if op = 0x09 then certsRequest
  else fun _ _ s => (.refuse 0x0901, s)

/-- The first `req_len` bytes of the request buffer. -/
def requestBytes (s : State) : Bytes :=
  (List.range s.sec.reqLen.toNat).map fun k => byteAt s.sec.request k

/-- A write of go: the request that the registers hold runs, or waits; while go reads 1 it has no effect (R294, Table 12-4).
The buffer keeps its bytes. -/
def goMailbox (s : State) : State :=
  let buf := s.sec.request
  let op := s.sec.opcode.toNat
  let t := mailbox op (requestOf op) s.sec.slot.toFin (requestBytes s) s
  { t with sec := { t.sec with request := buf } }

/-- The request that waited runs: no hand-over is left (Table 12-4). -/
def serveWaiting (s : State) : State :=
  match s.sec.waiting with
  | none => s
  | some (op, i, req) =>
    if s.sec.handOver.isNone && bar0Up s then
      serveRequest op (requestOf op) i req { s with sec := { s.sec with waiting := none } }
    else s

/-- The curtain ends; flits that waited go out, and a request that waited for it runs. -/
def execCurtainEnd (s : State) : Host.Outcome State Fault Refusal :=
  .next (match s.sec.handOver with
    | none => s
    | some h => if h.started then serveWaiting (pumpPorts (endCurtain h s)) else s)

/-! ### Field tests (R430, Table 16-11) -/

/-- A field test is accepted: house open, no slot open, no zero-fill, no curtain. -/
def fieldAllowed (s : State) : Bool :=
  houseOpen s && allSlots.all (fun i => !(isOpen s i)) && s.sec.filling.isEmpty && !inCurtain s

/-- The die is in the mask. -/
def inFieldMask (s : State) (d : DieId) : Bool :=
  if d.val < 32 then s.field.dieMaskLo.getLsbD d.val else s.field.dieMaskHi.getLsbD (d.val - 32)

/-- The test powers the masked dies (R335). -/
def powersDies (kind : BitVec 4) : Bool := kind == 1 || kind == 2

/-- A write of go with a kind: the test starts, or 0x0E0B; while one runs a write of go has no effect. -/
def startField (kind : BitVec 4) (s : State) : State :=
  let s := { s with field := { s.field with kind := kind } }
  if s.field.running.isSome then s
  else if fieldAllowed s && decide (1 ≤ kind.toNat) && decide (kind.toNat ≤ 4) then
    let s' := { s with field := { s.field with running := some kind, testLo := s.field.dieMaskLo, testHi := s.field.dieMaskHi } }
    if powersDies kind then
      mapDies (fun d x => if inFieldMask s d && decide (x.rails = .off) && !x.latchedOff then { x with rails := .queued } else x) s'
    else s'
  else report { code := 0x0E0B } { s with field := { s.field with result := 0x0E0B } }

def execFieldTileCheck (s : State) : Host.Outcome State Fault Refusal :=
  .next (when' (barWritable s) (startField 1) s)

def execFieldCellColumnBist (s : State) : Host.Outcome State Fault Refusal :=
  .next (when' (barWritable s) (startField 2) s)

def execFieldDeckCheck (s : State) : Host.Outcome State Fault Refusal :=
  .next (when' (barWritable s) (startField 3) s)

def execFieldStackMarch (s : State) : Host.Outcome State Fault Refusal :=
  .next (when' (barWritable s) (startField 4) s)

/-- The dies under test: those of the mask as go latched it. -/
def underTest (s : State) (d : DieId) : Bool :=
  if d.val < 32 then s.field.testLo.getLsbD d.val else s.field.testHi.getLsbD (d.val - 32)

/-- No die under test is still on its way up. -/
def fieldDiesReady (s : State) (kind : BitVec 4) : Bool :=
  !(powersDies kind) || allDies.all fun (d : DieId) =>
    let x := s.dieOf d
    !(underTest s d) || decide (x.rails = .off) || (decide (x.rails = .up) && (x.locked || x.lockFailed))

/-- What the kind leaves behind: the dies are off again; March C− leaves the deck SRAM zero; the stack march writes every line
as stack initialisation does. -/
def afterField (kind : BitVec 4) (s : State) : State :=
  if powersDies kind then railsDown (underTest s) s
  else if kind = 3 then loseDeckSram (fun _ => true) s
  else { s with mem := s.mem.filter fun c => decide (c.1 < 2 ^ 40) }

/-- The test ends: its lasting faults become entries (R383), 0x0E0A with their count; a deck check that found some reports
0x0E06 as at start. -/
def endField (kind : BitVec 4) (faults : List Part) (tracks : List (LinkDir × Nat × Nat)) (elapsedMs : Word) (s : State) :
    State :=
  let n := faults.length + tracks.length
  let s := recordFaults (if kind = 3 then 0x0E06 else 0x0E0A) faults tracks s
  let s := if kind = 3 ∧ 0 < n then report { code := 0x0E06, isCount := true, value := n } s else s
  let s := afterField kind s
  report { code := 0x0E0A, isCount := true, value := n }
    { s with field := { s.field with
        running := none, result := 0x0E0A, lasting := BitVec.ofNat 16 (min n 65535), elapsedMs := elapsedMs } }

def execFieldTestComplete (faults : List Part) (tracks : List (LinkDir × Nat × Nat)) (elapsedMs : Word) (s : State) :
    Host.Outcome State Fault Refusal :=
  .next (match s.field.running with
    | none => s
    | some kind => if fieldDiesReady s kind then endField kind faults tracks elapsedMs s else s)

/-! ### The event log (R404) -/

/-- A write of ev_index latches the indexed record; none is there at or beyond ev_count. -/
def latchEvent (i : BitVec 12) (s : State) : State :=
  { s with log := { s.log with evIndex := i, latched := s.log.records[i.toNat]? } }

def execEvIndexWrite (i : BitVec 12) (s : State) : Host.Outcome State Fault Refusal :=
  .next (when' (barWritable s) (latchEvent i) s)

/-! ### Writes by block (R11, R266) -/

/-- Field [hi:lo] of a written word, as a bit vector. -/
def fieldBv (n : Nat) (w : Word) (lo : Nat) : BitVec n := BitVec.ofNat n (w.toNat / 2 ^ lo)

/-- Engine control (Table 11-5). -/
def writeEngine (o : Nat) (w : Word) (s : State) : State :=
  let h := s.host
  if o = 0x1004 then
    let s := { s with host := { h with autoFailover := w.getLsbD 2 } }
    if w.getLsbD 1 then decideFailover false s else s
  else if o = 0x1008 then { s with host := { h with events := w1c h.events w } }
  else if o = 0x100C then { s with host := { h with vector := fieldBv 6 w 0 } }
  else if 0x2000 ≤ o ∧ o < 0x2400 then
    let k := Fin.ofNat 64 ((o - 0x2000) / 16)
    let e := h.msix[k]
    let e := match o / 4 % 4 with
      | 0 => { e with addrLo := w &&& ~~~3 }
      | 1 => { e with addrHi := w }
      | 2 => { e with data := w }
      | _ => { e with ctrl := w &&& 1 }
    sendPending { s with host := { h with msix := h.msix.set k e } }
  else s

/-- A queue's registers (Table 11-6); base and size take effect at the next latch (R271). -/
def writeQueue (i : Slot) (q : QId) (o : Nat) (w : Word) (s : State) : State :=
  if o = 0x0 then modQueue i q (fun x => { x with baseLo := w &&& ~~~0x3F }) s
  else if o = 0x4 then modQueue i q (fun x => { x with baseHi := w }) s
  else if o = 0x8 then
    let s := modQueue i q (fun x => { x with sizeLog2 := fieldBv 4 w 12, enable := w.getLsbD 0 }) s
    if w.getLsbD 2 then cancelQueue i q s else s
  else s

/-- A context's control of its ring (R284). -/
def writeRing (i : Slot) (w : Word) (s : State) : State :=
  let was := (s.ctxOf i).cq.enable
  let s := modCtx i (fun c => { c with cq := { c.cq with
    sizeLog2 := fieldBv 4 w 12, location := w.getLsbD 11, vector := fieldBv 6 w 4 } }) s
  if w.getLsbD 0 && !was then enableRing i s
  else if !(w.getLsbD 0) && was then disableRing i s
  else s

/-- A context's registers (Table 11-6). -/
def writeCtx (i : Slot) (o : Nat) (w : Word) (s : State) : State :=
  if o = 0x00 then modCtx i (fun c => { c with fmtMajor := fieldBv 8 w 16 }) s
  else if o = 0x08 then modCtx i (fun c => { c with events := w1c c.events w }) s
  else if o = 0x10 then modCtx i (fun c => { c with cq := { c.cq with baseLo := w &&& ~~~0x1F } }) s
  else if o = 0x14 then modCtx i (fun c => { c with cq := { c.cq with baseHi := w } }) s
  else if o = 0x18 then writeRing i w s
  else if o = 0x20 then headWrite i (fieldBv 12 w 0) s
  else if o = 0x30 then modCtx i (fun c => { c with fenceIndex := fieldBv 12 w 0 }) s
  else if 0x100 ≤ o ∧ o < 0x300 then writeQueue i (Fin.ofNat 16 ((o - 0x100) / 0x20)) (o % 0x20) w s
  else s

/-- The loader's registers (Table 5-9); a write of go starts its op. -/
def writeLoader (o : Nat) (w : Word) (s : State) : State :=
  let l := s.loader
  if o = 0x00 then { s with loader := { l with addrLo := w &&& ~~~0x3F } }
  else if o = 0x04 then { s with loader := { l with addrHi := fieldBv 9 w 0 } }
  else if o = 0x08 then { s with loader := { l with length := w } }
  else if o = 0x0C then
    let op := fieldBv 4 w 8
    let i : Slot := (fieldBv 3 w 4).toFin
    if !(w.getLsbD 0) then setLoadCtrl op i s
    else if op = 1 then startOp true i s
    else if op = 2 then startOp false i s
    else reservedOp op i s
  else if o = 0x10 then { s with loader := { l with member := fieldBv 11 w 0 } }
  else s

/-- Power and thermal status bits and vectors (Tables 13-5, 14-8). -/
def writePower (o : Nat) (w : Word) (s : State) : State :=
  if o = 0x24 then { s with power := { s.power with events := w1c s.power.events w } }
  else if o = 0x28 then { s with power := { s.power with vector := fieldBv 6 w 0 } }
  else if o = 0x114 then { s with thermal := { s.thermal with events := w1c s.thermal.events w } }
  else if o = 0x118 then { s with thermal := { s.thermal with vector := fieldBv 6 w 0 } }
  else s

/-- Control of a port (Table 10-10). -/
def writePortCtrl (p : PortId) (w : Word) (s : State) : State :=
  let s := modPort p (fun x => { x with
    autoRetrain := w.getLsbD 4,
    nv := { x.nv with berInterval := fieldBv 16 w 16, verifyMode := fieldBv 2 w 6, strict := w.getLsbD 5 } }) s
  let s := setEnable p (w.getLsbD 0) s
  if w.getLsbD 1 then trainPort p s else s

/-- A port's registers: any write of plan_serial or plan_port clears ber_passed (Table 10-10). -/
def writePort (p : PortId) (o : Nat) (w : Word) (s : State) : State :=
  if o = 0x00 then writePortCtrl p w s
  else if o = 0x0C then modPort p (fun x => { x with events := w1c x.events w }) s
  else if o = 0x20 then modPort p (fun x => { x with nv := { x.nv with
    planSerial := hiWord x.nv.planSerial ++ w, berPassed := false } }) s
  else if o = 0x24 then modPort p (fun x => { x with nv := { x.nv with
    planSerial := w ++ loWord x.nv.planSerial, berPassed := false } }) s
  else if o = 0x28 then modPort p (fun x => { x with nv := { x.nv with
    planPort := fieldBv 16 w 0, planValid := w.getLsbD 16, berPassed := false } }) s
  else s

/-- The event log and the defect index (Tables 15-12, 2-7). -/
def writeLog (o : Nat) (w : Word) (s : State) : State :=
  if o = 0x04 then latchEvent (fieldBv 12 w 0) s
  else if o = 0x18 then { s with log := { s.log with newEvent := s.log.newEvent && !(w.getLsbD 0) } }
  else if o = 0x1C then { s with log := { s.log with vector := fieldBv 6 w 0 } }
  else if o = 0x804 then { s with defects := { s.defects with index := fieldBv 14 w 0 } }
  else s

/-- The NV store (Table 15-10): a write of 1 to store requests STORE_NV (R402). -/
def writeNv (o : Nat) (w : Word) (s : State) : State :=
  if o = 0x00 then (if w.getLsbD 0 then requestStore false s else s)
  else if o = 0x14 then { s with nv := { s.nv with events := w1c s.nv.events w } }
  else if o = 0x18 then { s with nv := { s.nv with vector := fieldBv 6 w 0 } }
  else s

/-- Replace the word at a byte offset of a buffer that reads zero beyond its bytes. -/
def putWord (b : Bytes) (k : Nat) (w : Word) : Bytes :=
  slice b 0 k ++ toLe 4 w.toNat ++ b.drop (k + 4)

/-- The mailbox (Table 12-1). -/
def writeSec (o : Nat) (w : Word) (s : State) : State :=
  let x := s.sec
  if o = 0x00 then
    let s := { s with sec := { x with opcode := fieldBv 8 w 24, slot := fieldBv 3 w 21 } }
    if w.getLsbD 0 then goMailbox s else s
  else if o = 0x04 then { s with sec := { x with reqLen := fieldBv 15 w 0 } }
  else if 0x1000 ≤ o ∧ o < 0x5000 then { s with sec := { x with request := putWord x.request (o - 0x1000) w } }
  else s

/-- Test control (Tables 10-11, 16-11): stop acts on the test that runs, then go starts one. -/
def writeTest (o : Nat) (w : Word) (s : State) : State :=
  let p := s.pattern
  let f := s.field
  if o = 0x00 then
    let s := { s with pattern := { p with
      target := fieldBv 8 w 24, laneMask := fieldBv 8 w 16, prbs := fieldBv 4 w 12, mode := fieldBv 2 w 10 } }
    let s := if w.getLsbD 1 && s.pattern.running then endPattern s else s
    if w.getLsbD 0 then startPattern s else s
  else if o = 0x04 then
    { s with pattern := { p with direction := fieldBv 3 w 14, grow := fieldBv 7 w 7, gcol := fieldBv 7 w 0 } }
  else if o = 0x18 then { s with pattern := { p with laneIndex := fieldBv 12 w 0 } }
  else if o = 0x200 then
    if w.getLsbD 0 then startField (fieldBv 4 w 28) s else { s with field := { f with kind := fieldBv 4 w 28 } }
  else if o = 0x204 then { s with field := { f with dieMaskLo := w } }
  else if o = 0x208 then { s with field := { f with dieMaskHi := fieldBv 4 w 0 } }
  else s

/-- A write of the word at a BAR0 offset: RO fields, reserved fields and offsets in no register keep their value (R11, R266). -/
def writeReg (a : Nat) (w : Word) (s : State) : State :=
  if ¬ a % 4 = 0 ∨ a < 0x1000 then s
  else if a < 0x10000 then writeEngine a w s
  else if a < 0x18000 then writeCtx (Fin.ofNat 8 ((a - 0x10000) / 0x1000)) (a % 0x1000) w s
  else if a < 0x20000 then s
  else if a < 0x30000 then writeLoader (a - 0x20000) w s
  else if a < 0x40000 then writePower (a - 0x30000) w s
  else if a < 0x44000 then writePort (Fin.ofNat 16 ((a - 0x40000) / 0x400)) (a % 0x400) w s
  else if a < 0x50000 then (if a = 0x44000 then { s with fabricGroup := fieldBv 12 w 0 } else s)
  else if a < 0x60000 then writeLog (a - 0x50000) w s
  else if a < 0x70000 then writeNv (a - 0x60000) w s
  else if a < 0x80000 then writeSec (a - 0x70000) w s
  else if a < 0x90000 then writeTest (a - 0x80000) w s
  else s

def execRegisterWrite (addr : BitVec 24) (value : Word) (s : State) : Host.Outcome State Fault Refusal :=
  .next (when' (barWritable s) (writeReg addr.toNat value) s)

end Sys2Proof.Machine
end

