-- ==== Sys2Proof/Machine/Dispatch.lean ====
section
/-! DEFINITION. The dispatch: one arm per command of Syntax.lean, each one direct call of its meaning. -/

namespace Sys2Proof.Machine

open Sys2Proof

def exec (i : Instr) (s : State) : Host.Outcome State Fault Refusal :=
  match i with
  | .houseRstNAssert a => Sys2Proof.Machine.execHouseRstNAssert a s
  | .houseRstNRise => Sys2Proof.Machine.execHouseRstNRise s
  | .keysUp => Sys2Proof.Machine.execKeysUp s
  | .coolantGateStart a => Sys2Proof.Machine.execCoolantGateStart a s
  | .coolantGatePass => Sys2Proof.Machine.execCoolantGatePass s
  | .coolantGateTimeout => Sys2Proof.Machine.execCoolantGateTimeout s
  | .deckZoneUp a => Sys2Proof.Machine.execDeckZoneUp a s
  | .deckCheck a b => Sys2Proof.Machine.execDeckCheck a b s
  | .stackBringUp a => Sys2Proof.Machine.execStackBringUp a s
  | .stackInitialisationDone => Sys2Proof.Machine.execStackInitialisationDone s
  | .credentialWindowExpire => Sys2Proof.Machine.execCredentialWindowExpire s
  | .pwrGoodLoss => Sys2Proof.Machine.execPwrGoodLoss s
  | .pwrGoodRestore => Sys2Proof.Machine.execPwrGoodRestore s
  | .inputPowerLoss => Sys2Proof.Machine.execInputPowerLoss s
  | .trayRelease => Sys2Proof.Machine.execTrayRelease s
  | .trayReleaseWithdrawn => Sys2Proof.Machine.execTrayReleaseWithdrawn s
  | .alertPinAssert a b => Sys2Proof.Machine.execAlertPinAssert a b s
  | .alertPinClear a => Sys2Proof.Machine.execAlertPinClear a s
  | .clampRelease a => Sys2Proof.Machine.execClampRelease a s
  | .deckZoneLoss a => Sys2Proof.Machine.execDeckZoneLoss a s
  | .dieSupplyTrip a => Sys2Proof.Machine.execDieSupplyTrip a s
  | .dieIsolation a => Sys2Proof.Machine.execDieIsolation a s
  | .dieRegulatorLatchOff a => Sys2Proof.Machine.execDieRegulatorLatchOff a s
  | .dieRailRampStart a => Sys2Proof.Machine.execDieRailRampStart a s
  | .dieRailsUp a => Sys2Proof.Machine.execDieRailsUp a s
  | .dieClockLockTimeout a b => Sys2Proof.Machine.execDieClockLockTimeout a b s
  | .powerControlInterval a => Sys2Proof.Machine.execPowerControlInterval a s
  | .deferredSleepStop a => Sys2Proof.Machine.execDeferredSleepStop a s
  | .thermalRampCheck a => Sys2Proof.Machine.execThermalRampCheck a s
  | .oscillatorRetune => Sys2Proof.Machine.execOscillatorRetune s
  | .droopDetect a b => Sys2Proof.Machine.execDroopDetect a b s
  | .droopRecover a => Sys2Proof.Machine.execDroopRecover a s
  | .leaseExpire => Sys2Proof.Machine.execLeaseExpire s
  | .marginSample a b => Sys2Proof.Machine.execMarginSample a b s
  | .energyAccumulate a => Sys2Proof.Machine.execEnergyAccumulate a s
  | .telemetryUpdate a => Sys2Proof.Machine.execTelemetryUpdate a s
  | .sensorSample a => Sys2Proof.Machine.execSensorSample a s
  | .throttleStep => Sys2Proof.Machine.execThrottleStep s
  | .throttleClampTimeout => Sys2Proof.Machine.execThrottleClampTimeout s
  | .thermalTrip => Sys2Proof.Machine.execThermalTrip s
  | .sensorPairRetest a b => Sys2Proof.Machine.execSensorPairRetest a b s
  | .thermalModelAdvance a => Sys2Proof.Machine.execThermalModelAdvance a s
  | .heatForecast => Sys2Proof.Machine.execHeatForecast s
  | .trayRead a => Sys2Proof.Machine.execTrayRead a s
  | .trayReadingStale => Sys2Proof.Machine.execTrayReadingStale s
  | .flowClampClear => Sys2Proof.Machine.execFlowClampClear s
  | .suddenStopRecover => Sys2Proof.Machine.execSuddenStopRecover s
  | .coolantHalt => Sys2Proof.Machine.execCoolantHalt s
  | .halted => Sys2Proof.Machine.execHalted s
  | .flowPowerOff => Sys2Proof.Machine.execFlowPowerOff s
  | .haltExit => Sys2Proof.Machine.execHaltExit s
  | .heatBalanceCheck a => Sys2Proof.Machine.execHeatBalanceCheck a s
  | .stage a => Sys2Proof.Machine.execStage a s
  | .unstage a => Sys2Proof.Machine.execUnstage a s
  | .loadGoReservedOp a b => Sys2Proof.Machine.execLoadGoReservedOp a b s
  | .chartCheckDone => Sys2Proof.Machine.execChartCheckDone s
  | .unstageDone => Sys2Proof.Machine.execUnstageDone s
  | .loadStatusRead => Sys2Proof.Machine.execLoadStatusRead s
  | .chartInstallComplete => Sys2Proof.Machine.execChartInstallComplete s
  | .regionRestage => Sys2Proof.Machine.execRegionRestage s
  | .replayOpenLayer => Sys2Proof.Machine.execReplayOpenLayer s
  | .selfTestStart a => Sys2Proof.Machine.execSelfTestStart a s
  | .selfTestResult a b => Sys2Proof.Machine.execSelfTestResult a b s
  | .backgroundScrub a => Sys2Proof.Machine.execBackgroundScrub a s
  | .deckWeightRecheck a => Sys2Proof.Machine.execDeckWeightRecheck a s
  | .modelStoreRecheck a b => Sys2Proof.Machine.execModelStoreRecheck a b s
  | .nvUpkeep a => Sys2Proof.Machine.execNvUpkeep a s
  | .heartbeatSend a => Sys2Proof.Machine.execHeartbeatSend a s
  | .heartbeatReceive a b => Sys2Proof.Machine.execHeartbeatReceive a b s
  | .tileSilent a => Sys2Proof.Machine.execTileSilent a s
  | .meshCrcError a b => Sys2Proof.Machine.execMeshCrcError a b s
  | .meshReplayReq a b => Sys2Proof.Machine.execMeshReplayReq a b s
  | .cueIssue a b c => Sys2Proof.Machine.execCueIssue a b c s
  | .deferredEntryComplete a => Sys2Proof.Machine.execDeferredEntryComplete a s
  | .cueComplete a b c => Sys2Proof.Machine.execCueComplete a b c s
  | .routeSignalArrive a b c => Sys2Proof.Machine.execRouteSignalArrive a b c s
  | .prompterWaitLong a => Sys2Proof.Machine.execPrompterWaitLong a s
  | .passComplete => Sys2Proof.Machine.execPassComplete s
  | .queueEntryWrite a b => Sys2Proof.Machine.execQueueEntryWrite a b s
  | .entryRefusal a b => Sys2Proof.Machine.execEntryRefusal a b s
  | .nop a b => Sys2Proof.Machine.execNop a b s
  | .runPass a b => Sys2Proof.Machine.execRunPass a b s
  | .bindManifest a b => Sys2Proof.Machine.execBindManifest a b s
  | .loadModel a b => Sys2Proof.Machine.execLoadModel a b s
  | .swapModel a b => Sys2Proof.Machine.execSwapModel a b s
  | .releaseModel a b => Sys2Proof.Machine.execReleaseModel a b s
  | .reduceShards a b => Sys2Proof.Machine.execReduceShards a b s
  | .counts a b => Sys2Proof.Machine.execCounts a b s
  | .scalarSum a b => Sys2Proof.Machine.execScalarSum a b s
  | .broadcast a b => Sys2Proof.Machine.execBroadcast a b s
  | .barrier a b => Sys2Proof.Machine.execBarrier a b s
  | .logSnapshot a b => Sys2Proof.Machine.execLogSnapshot a b s
  | .completionRecordWrite a => Sys2Proof.Machine.execCompletionRecordWrite a s
  | .completionWriteDone a => Sys2Proof.Machine.execCompletionWriteDone a s
  | .queueCancel a b => Sys2Proof.Machine.execQueueCancel a b s
  | .queueCancelComplete a b => Sys2Proof.Machine.execQueueCancelComplete a b s
  | .cqEnable a => Sys2Proof.Machine.execCqEnable a s
  | .cqHeadWrite a b => Sys2Proof.Machine.execCqHeadWrite a b s
  | .takeOver a => Sys2Proof.Machine.execTakeOver a s
  | .failover => Sys2Proof.Machine.execFailover s
  | .activeLinkDown => Sys2Proof.Machine.execActiveLinkDown s
  | .autoFailoverTimeout => Sys2Proof.Machine.execAutoFailoverTimeout s
  | .standbyLinkUp a b => Sys2Proof.Machine.execStandbyLinkUp a b s
  | .failoverRecordsWritten => Sys2Proof.Machine.execFailoverRecordsWritten s
  | .cxlPortReset a => Sys2Proof.Machine.execCxlPortReset a s
  | .standbyAccess a => Sys2Proof.Machine.execStandbyAccess a s
  | .hdmAccessOutside a b => Sys2Proof.Machine.execHdmAccessOutside a b s
  | .doeDiscovery a b => Sys2Proof.Machine.execDoeDiscovery a b s
  | .cdatTableAccess a => Sys2Proof.Machine.execCdatTableAccess a s
  | .ideKm a b => Sys2Proof.Machine.execIdeKm a b s
  | .openContext a b => Sys2Proof.Machine.execOpenContext a b s
  | .closeContext a b => Sys2Proof.Machine.execCloseContext a b s
  | .switchContext a b => Sys2Proof.Machine.execSwitchContext a b s
  | .graceExpire => Sys2Proof.Machine.execGraceExpire s
  | .curtainStart a => Sys2Proof.Machine.execCurtainStart a s
  | .curtainEnd => Sys2Proof.Machine.execCurtainEnd s
  | .zeroFillDone a => Sys2Proof.Machine.execZeroFillDone a s
  | .getReport a b => Sys2Proof.Machine.execGetReport a b s
  | .installKey a b => Sys2Proof.Machine.execInstallKey a b s
  | .removeKey a b => Sys2Proof.Machine.execRemoveKey a b s
  | .groupEnroll a b => Sys2Proof.Machine.execGroupEnroll a b s
  | .getPlaneRecords a b => Sys2Proof.Machine.execGetPlaneRecords a b s
  | .getCerts a b => Sys2Proof.Machine.execGetCerts a b s
  | .getTelemetry a => Sys2Proof.Machine.execGetTelemetry a s
  | .getEvents a => Sys2Proof.Machine.execGetEvents a s
  | .setPowerCap a => Sys2Proof.Machine.execSetPowerCap a s
  | .setSlew a => Sys2Proof.Machine.execSetSlew a s
  | .setOrphanCap a => Sys2Proof.Machine.execSetOrphanCap a s
  | .storeNv a => Sys2Proof.Machine.execStoreNv a s
  | .storeRequest => Sys2Proof.Machine.execStoreRequest s
  | .startScrub a => Sys2Proof.Machine.execStartScrub a s
  | .resetEngine a => Sys2Proof.Machine.execResetEngine a s
  | .mgmtCloseContext a => Sys2Proof.Machine.execMgmtCloseContext a s
  | .mgmtSwitchContext a => Sys2Proof.Machine.execMgmtSwitchContext a s
  | .setCabling a => Sys2Proof.Machine.execSetCabling a s
  | .setSwitchRoot a => Sys2Proof.Machine.execSetSwitchRoot a s
  | .firmwareBegin a => Sys2Proof.Machine.execFirmwareBegin a s
  | .firmwareChunk a => Sys2Proof.Machine.execFirmwareChunk a s
  | .firmwareCommit a => Sys2Proof.Machine.execFirmwareCommit a s
  | .enrollCredential a => Sys2Proof.Machine.execEnrollCredential a s
  | .revokeCredential a => Sys2Proof.Machine.execRevokeCredential a s
  | .eraseGroupKeys a => Sys2Proof.Machine.execEraseGroupKeys a s
  | .debugChallenge a => Sys2Proof.Machine.execDebugChallenge a s
  | .debugUnlock a => Sys2Proof.Machine.execDebugUnlock a s
  | .nvWriteStart => Sys2Proof.Machine.execNvWriteStart s
  | .nvStoreComplete a => Sys2Proof.Machine.execNvStoreComplete a s
  | .wearTokenGain => Sys2Proof.Machine.execWearTokenGain s
  | .evIndexWrite a => Sys2Proof.Machine.execEvIndexWrite a s
  | .patternGo => Sys2Proof.Machine.execPatternGo s
  | .patternStop => Sys2Proof.Machine.execPatternStop s
  | .fieldTileCheck => Sys2Proof.Machine.execFieldTileCheck s
  | .fieldCellColumnBist => Sys2Proof.Machine.execFieldCellColumnBist s
  | .fieldDeckCheck => Sys2Proof.Machine.execFieldDeckCheck s
  | .fieldStackMarch => Sys2Proof.Machine.execFieldStackMarch s
  | .fieldTestComplete a b c => Sys2Proof.Machine.execFieldTestComplete a b c s
  | .registerWrite a b => Sys2Proof.Machine.execRegisterWrite a b s
  | .portTrain a => Sys2Proof.Machine.execPortTrain a s
  | .portDisable a => Sys2Proof.Machine.execPortDisable a s
  | .pmdTrained a b => Sys2Proof.Machine.execPmdTrained a b s
  | .framingLock a => Sys2Proof.Machine.execFramingLock a s
  | .trainingResend a => Sys2Proof.Machine.execTrainingResend a s
  | .idBlock a b => Sys2Proof.Machine.execIdBlock a b s
  | .testReq a b => Sys2Proof.Machine.execTestReq a b s
  | .berTestEnd a b c => Sys2Proof.Machine.execBerTestEnd a b c s
  | .testResult a b c => Sys2Proof.Machine.execTestResult a b c s
  | .keyHello a => Sys2Proof.Machine.execKeyHello a s
  | .keyReply a b => Sys2Proof.Machine.execKeyReply a b s
  | .keyFinish a b => Sys2Proof.Machine.execKeyFinish a b s
  | .creditInit a b c d e => Sys2Proof.Machine.execCreditInit a b c d e s
  | .ready a => Sys2Proof.Machine.execReady a s
  | .trainingFlitDiscard a b => Sys2Proof.Machine.execTrainingFlitDiscard a b s
  | .dataFlitReceive a b => Sys2Proof.Machine.execDataFlitReceive a b s
  | .nakReceive a b => Sys2Proof.Machine.execNakReceive a b s
  | .ackTimeout a => Sys2Proof.Machine.execAckTimeout a s
  | .codewordLockLoss a => Sys2Proof.Machine.execCodewordLockLoss a s
  | .farEndDown a => Sys2Proof.Machine.execFarEndDown a s
  | .abortSymbol a b => Sys2Proof.Machine.execAbortSymbol a b s
  | .hopKeyLimit a => Sys2Proof.Machine.execHopKeyLimit a s
  | .hopRekey a b => Sys2Proof.Machine.execHopRekey a b s
  | .preFecMonitor a b => Sys2Proof.Machine.execPreFecMonitor a b s
  | .shardData a b => Sys2Proof.Machine.execShardData a b s
  | .shardNack a b => Sys2Proof.Machine.execShardNack a b s
  | .shardReqTimeout a => Sys2Proof.Machine.execShardReqTimeout a s
  | .shardAck a b => Sys2Proof.Machine.execShardAck a b s
  | .patchAckTimeout a b => Sys2Proof.Machine.execPatchAckTimeout a b s
  | .pilotStreamEnd => Sys2Proof.Machine.execPilotStreamEnd s
  | .swapLayerReplace => Sys2Proof.Machine.execSwapLayerReplace s
  | .scaleNotice a b => Sys2Proof.Machine.execScaleNotice a b s
  | .bounce a b => Sys2Proof.Machine.execBounce a b s
  | .result a b => Sys2Proof.Machine.execResult a b s
  | .noBlock a b => Sys2Proof.Machine.execNoBlock a b s
  | .resultTimeout a => Sys2Proof.Machine.execResultTimeout a s
  | .openReply a b => Sys2Proof.Machine.execOpenReply a b s
  | .openRetry a => Sys2Proof.Machine.execOpenRetry a s
  | .reduceShardsComplete => Sys2Proof.Machine.execReduceShardsComplete s
  | .ringPartial a b c d => Sys2Proof.Machine.execRingPartial a b c d s
  | .hopAck a b => Sys2Proof.Machine.execHopAck a b s
  | .hopCancel a b => Sys2Proof.Machine.execHopCancel a b s
  | .cancelAck a b => Sys2Proof.Machine.execCancelAck a b s
  | .hopTimeout a => Sys2Proof.Machine.execHopTimeout a s
  | .partialHoldTimeout a => Sys2Proof.Machine.execPartialHoldTimeout a s
  | .ringContributionTimeout a => Sys2Proof.Machine.execRingContributionTimeout a s
  | .resultReq a b => Sys2Proof.Machine.execResultReq a b s
  | .resultAck a b => Sys2Proof.Machine.execResultAck a b s
  | .countsVec a b c => Sys2Proof.Machine.execCountsVec a b c s
  | .scalarVec a b c => Sys2Proof.Machine.execScalarVec a b c s
  | .bcastChunk a b c => Sys2Proof.Machine.execBcastChunk a b c s
  | .bcastEnd a b c d => Sys2Proof.Machine.execBcastEnd a b c d s
  | .bcastReqRound a => Sys2Proof.Machine.execBcastReqRound a s
  | .bcastReq a b => Sys2Proof.Machine.execBcastReq a b s
  | .bcastDone a b => Sys2Proof.Machine.execBcastDone a b s
  | .arrive a b => Sys2Proof.Machine.execArrive a b s
  | .collectiveTimeout a => Sys2Proof.Machine.execCollectiveTimeout a s
  | .abortWaitExpire a => Sys2Proof.Machine.execAbortWaitExpire a s
  | .activeLinkReturn a b c => Sys2Proof.Machine.execActiveLinkReturn a b c s
  | .standbyLinkDown => Sys2Proof.Machine.execStandbyLinkDown s
  | .framingLockLost a => Sys2Proof.Machine.execFramingLockLost a s
  | .shardRetryGap a => Sys2Proof.Machine.execShardRetryGap a s

end Sys2Proof.Machine
end

