-- ==== Sys2Proof/Machine/Tick.lean ====
section
/-! DEFINITION. The house clock (R330). -/

namespace Sys2Proof.Machine

open Sys2Proof

/-- House ticks of a task's period (Table 15-13). -/
def periodOf : BgTask → Nat
  | .stackPatrol => 25000000 * 86400
  | .sramScrub => 25000000 * 600
  | .deckArea _ => 25000000 * 60
  | .modelShard _ _ => 25000000 * 900
  | .retune => 25000000
  | .ageing _ => 25000000 * 10
  | .nvUpkeep => 25000000 * 86400
  | .telemetry => 2500000

/-- Deck weight areas that some tile holds pinned. -/
def pinnedAreas (s : State) : List Nat :=
  s.tiles.foldl (fun acc p => p.2.deckHolds.foldl (fun acc h => insertNew acc h.1) acc) []

/-- Valid shards of a slot's model store. -/
def storedShards (s : State) (i : Slot) : List Nat :=
  match (s.ctxOf i).model with
  | some m => (m.fetch.holds.filter fun h => h.valid).map fun h => h.shard
  | none => []

/-- The periodic tasks that the engine has now. -/
def liveTasks (s : State) : List BgTask :=
  [.stackPatrol, .sramScrub, .retune, .nvUpkeep, .telemetry] ++ (pinnedAreas s).map .deckArea ++
    (allSlots.flatMap fun i => (storedShards s i).map (.modelShard i)) ++
    (match planNow s with
      | some p => if p.trimMode == 1 then (allDies.filter fun d => decide ((s.dieOf d).rails = .up)).map .ageing else []
      | none => [])

/-- Number of a task in Table 15-13, and its area, shard or die: cue and value of 0x0C09 (DESIGN CHOICE, log entry 103). -/
def taskDetail : BgTask → Nat × Nat
  | .stackPatrol => (0, 0)
  | .sramScrub => (1, 0)
  | .deckArea a => (2, a)
  | .modelShard _ k => (3, k)
  | .retune => (6, 0)
  | .ageing d => (7, d.val)
  | .nvUpkeep => (8, 0)
  | .telemetry => (9, 0)

/-- A task that misses its period by more than 10 % is reported with 0x0C09, once until its next round (R406). -/
def checkTask (s : State) (k : BgTask) : State :=
  let now := s.selfTest.workTicks
  match s.selfTest.work.find? fun x => x.1 == k with
  | none => { s with selfTest := { s.selfTest with work := s.selfTest.work ++ [(k, now, false)] } }
  | some x =>
    if !x.2.2 && decide (11 * periodOf k < 10 * (now - x.2.1)) then
      report { code := 0x0C09, cue := (taskDetail k).1, value := (taskDetail k).2 }
        { s with selfTest := { s.selfTest with work := s.selfTest.work.map fun y => if y.1 = k then (k, y.2.1, true) else y } }
    else s

/-- A tick of a curtain does not count towards the 100 ms of a test that waits (R380). -/
def pauseTests (s : State) : State :=
  { s with selfTest := { s.selfTest with waiting := s.selfTest.waiting.map fun x => (x.1, x.2.1, x.2.2 + 1) } }

/-- A tick of background work: tasks that have gone are forgotten, new ones start, late ones are reported. -/
def workTick (s : State) : State :=
  if backgroundOn s then
    let l := liveTasks s
    l.foldl checkTask { s with selfTest := { s.selfTest with
      workTicks := s.selfTest.workTicks + 1, work := s.selfTest.work.filter fun x => l.contains x.1 } }
  else if inCurtain s then pauseTests s
  else s

/-- One tick of the 25 MHz house clock while the house domain has power (R330, R411). A mailbox request that waited for a
hand-over which a loss of every context cut off runs now (log entry 20), and so do management requests that waited (log entry 28). -/
def houseTick (s : State) : State :=
  if s.start.houseUp then serveMgmt (serveWaiting (workTick { s with ticks := s.ticks + 1 })) else s

end Sys2Proof.Machine
end

