-- ==== Sys2Proof/Safety.lean ====
section
/-! DEFINITION. What a safe run is, in the terms the claims use. -/

namespace Sys2Proof.Machine

open Sys2Proof

/-- The parts of the state beside the queue, for the frames: one constructor per field of State. -/
inductive Block where
  | free | out | ticks | ident | start | log | host | ctx
  | sec | loader | installed | tiles | dies | links | signals | defects
  | selfTest | mem | power | thermal | nv | ports | fabricGroup | pattern
  | field | coll | observed | snapshots | badShards
  deriving DecidableEq, Repr

/-- A part is the same in two states. -/
def unchanged (s t : State) : Block → Prop
  | .free => t.free = s.free
  | .out => t.out = s.out
  | .ticks => t.ticks = s.ticks
  | .ident => t.ident = s.ident
  | .start => t.start = s.start
  | .log => t.log = s.log
  | .host => t.host = s.host
  | .ctx => t.ctx = s.ctx
  | .sec => t.sec = s.sec
  | .loader => t.loader = s.loader
  | .installed => t.installed = s.installed
  | .tiles => t.tiles = s.tiles
  | .dies => t.dies = s.dies
  | .links => t.links = s.links
  | .signals => t.signals = s.signals
  | .defects => t.defects = s.defects
  | .selfTest => t.selfTest = s.selfTest
  | .mem => t.mem = s.mem
  | .power => t.power = s.power
  | .thermal => t.thermal = s.thermal
  | .nv => t.nv = s.nv
  | .ports => t.ports = s.ports
  | .fabricGroup => t.fabricGroup = s.fabricGroup
  | .pattern => t.pattern = s.pattern
  | .field => t.field = s.field
  | .coll => t.coll = s.coll
  | .observed => t.observed = s.observed
  | .snapshots => t.snapshots = s.snapshots
  | .badShards => t.badShards = s.badShards

/-- The queue and every part outside a list are as they were: what a frame says. -/
def changesOnly (l : List Block) (s t : State) : Prop :=
  t.pending = s.pending ∧ ∀ b, b ∉ l → unchanged s t b

/-- At most one slot holds the engine (R20), a hand-over's outgoing slot is the holder, and no slot holds the engine
during a curtain (R296 to R298). -/
structure holdersSound (s : State) : Prop where
  one : ∀ i j : Slot, (s.ctxOf i).state = .holding → (s.ctxOf j).state = .holding → i = j
  outgoing : ∀ h, s.sec.handOver = some h → ∀ i : Slot, (s.ctxOf i).state = .holding → h.outgoing = some i
  curtain : ∀ h, s.sec.handOver = some h → h.started = true → ∀ i : Slot, (s.ctxOf i).state ≠ .holding

/-- A command of opcode `op` stands whole at the head of a queue and may start (R280, and the command's own limits): what the
row that starts it reads there. -/
def headStarts (op : Nat) (i : Slot) (q : QId) (s : State) (r : Ready) : Prop :=
  queueOn s i q = true ∧ startable (readHead i q s) i q op = some r ∧ ownLimit (readHead i q s) i r = true

/-- The state after a command's entries have been read and consumed. -/
def started (i : Slot) (q : QId) (r : Ready) (s : State) : State :=
  consume i q r (readHead i q s)

/-- A mailbox request of opcode `op` is served at once: the mailbox is free, no curtain or hand-over makes it wait, and the
start or a field test does not close it (R294, R417, R430). -/
def servedNow (op : Nat) (req : Bytes) (s : State) : Prop :=
  mailboxFree s = true ∧ mailboxWaits op s = false ∧ mailboxClosed op req s = false

/-- The mailbox holds an answer: go has fallen, with this error and these bytes (R294). -/
def answered (code : Code) (body : Bytes) (t : State) : Prop :=
  t.sec.go = false ∧ t.sec.error = code ∧ t.sec.response = body ∧ t.sec.respLen = BitVec.ofNat 15 body.length

/-- A management request passes the checks of R321 to R324 that come before its own body: the plane is up and no curtain runs,
magic and version are known, the credential's signature verifies, serial, epoch and counter are this engine's and new, and
the role has the right. -/
def accepted (op : Nat) (role : Role) (r : MgmtReq) (s : State) : Prop :=
  mgmtUp s = true ∧ inCurtain s = false ∧ r.magic = 0x544D474D ∧ r.version.toNat / 65536 = 1 ∧
  ∃ c, actsAs s op r = some c ∧ Config.mldsaVerify c.key (signedBytes op r) r.sig = true ∧
    requestFresh s r = true ∧ rank role ≤ rank c.role

/-- The management requests of Table 12-13: each opcode with the row that carries it. -/
def mgmtRows (r : MgmtReq) : List (Nat × Instr) :=
  [(0x0001, .getTelemetry r), (0x0002, .getEvents r), (0x0010, .setPowerCap r), (0x0011, .setSlew r),
   (0x0012, .setOrphanCap r), (0x0020, .storeNv r), (0x0021, .startScrub r), (0x0022, .resetEngine r),
   (0x0030, .mgmtCloseContext r), (0x0031, .mgmtSwitchContext r), (0x0040, .setCabling r),
   (0x0041, .setSwitchRoot r), (0x0050, .firmwareBegin r), (0x0051, .firmwareChunk r),
   (0x0052, .firmwareCommit r), (0x0060, .enrollCredential r), (0x0061, .revokeCredential r),
   (0x0070, .eraseGroupKeys r), (0x0080, .debugChallenge r), (0x0081, .debugUnlock r)]

/-- A collective message of kind `k` finds the running instance it belongs to, and its header is as R211 and R212 ask. -/
def forInstance (k : Nat) (p : PortId) (h : CollHdr) (x : CollInst) (s : State) : Prop :=
  portTakes s p = true ∧ h.chartTag = tagNow s ∧ instOf s h.descId.toNat = some x ∧ x.seq = h.seq.toNat ∧ x.aborts = [] ∧
  x.kind = k ∧ h.maskTag = x.maskTag ∧ h.groupSize.toNat = groupSizeOf s ∧ h.sender.toNat ∈ x.members

/-- A reduction message of a block finds the running reduction it belongs to (R211), and no abort of it runs. -/
def forReduction (p : PortId) (desc : Nat) (step tag : BitVec 32) (r : Reduction) (s : State) : Prop :=
  portTakes s p = true ∧ tag = tagNow s ∧ r.aborts = [] ∧ (s.coll.reds.find? fun x => x.descId == desc && x.step == step) = some r ∧
  redOf s desc = some r

end Sys2Proof.Machine
end

