-- ==== Sys2Proof/Certificates/Slice0/Obligations.lean ====
section
/-! DEFINITION. The statements for the provers, chapter by chapter: what each command does where its condition holds, what it
leaves alone, and what every step keeps. A row whose condition does not hold changes nothing (log entry 1). -/

open Sys2Proof Sys2Proof.Machine

/-! ### Start-up -/

/-- Reset and loss of the input (R413, R414, R303, R306; log 8 for a house domain that was down): an effective
HOUSE_RST_N, its rise and the loss of the 12.0 V input complete, and a pulse below 2,500 ticks changes nothing. -/
def Obligations.ResetRuns : Prop :=
  (∀ (s : State) (n : Nat), 2500 ≤ n → ∃ t, exec (.houseRstNAssert n) s = .next t ∧
    t.start.resetLow = true ∧ t.start.houseUp = true ∧ t.start.phase = 0 ∧
    t.start.resetCause = (if s.start.houseUp then 1 else 0) ∧ t.start.tripAtReset = s.thermal.thermTrip ∧
    t.ctx = State.reset.ctx ∧ t.installed = none ∧ t.mem = [] ∧ t.ident = s.ident ∧
    (s.nv.job = none → t.nv.banks = s.nv.banks)) ∧
  (∀ (s : State) (n : Nat), n < 2500 → exec (.houseRstNAssert n) s = .next s) ∧
  (∀ s : State, s.start.resetLow = true → s.start.houseUp = true → ∃ t, exec .houseRstNRise s = .next t ∧
    t.start.resetLow = false ∧ t.start.credWindow = true ∧ t.start.riseTick = s.ticks ∧
    t.ident = { s.ident with bootEpoch := s.ident.bootEpoch + 1 }) ∧
  (∀ s : State, s.start.houseUp = true → ∃ t, exec .inputPowerLoss s = .next t ∧
    t.start.houseUp = false ∧ t.ctx = State.reset.ctx ∧ t.installed = none ∧ t.mem = [] ∧ t.ident = s.ident)

/-- The sequence of Table 16-1 up to open house: each enabling condition is the one the table gives the step. -/
def Obligations.StartUpRuns : Prop :=
  (∀ s : State, inPhase s 0 = true → ∃ t, exec .keysUp s = .next t ∧
    t.start = { s.start with phase := 1 } ∧
    t.sec.cdi = Config.shake256 (s.ident.uds ++ fwDigests s ++ [debugByte s]) 64 ∧
    t.sec.aliasSeed = Config.shake256 (t.sec.cdi ++ labelAlias) 32) ∧
  (∀ (s : State) (r : Option TrayRegs), inPhase s 1 = true → (∀ x, r = some x → trayKnown x = true) →
    ∃ t, exec (.coolantGateStart r) s = .next t ∧ t.start = { s.start with phase := 2 }) ∧
  (∀ (s : State) (x : TrayRegs), inPhase s 1 = true → trayKnown x = false →
    ∃ t, exec (.coolantGateStart (some x)) s = .next t ∧ t.start = { s.start with phase := 2, trayBad := true } ∧
      t.log = pushRec s.log (recordOf { code := 0x0E04 } s)) ∧
  (∀ s : State, inPhase s 2 = true → s.start.trayBad = false → s.thermal.stale = false → flowAtLeast s 55 = true →
    mayRaise s = true → ∃ t, exec .coolantGatePass s = .next t ∧ t.start = { s.start with phase := 3 }) ∧
  (∀ s : State, inPhase s 2 = true → s.start.gateReported = false → ∃ t, exec .coolantGateTimeout s = .next t ∧
    t.start = { s.start with gateReported := true } ∧ t.log = pushRec s.log (recordOf { code := 0x0E03 } s)) ∧
  (∀ s : State, inPhase s 3 = true → allZones s = false → mayRaise s = true →
    ∃ t, exec (.deckZoneUp true) s = .next t ∧
      t.start.zonesUp = s.start.zonesUp ||| ((1 : BitVec 9) <<< zoneCount s) ∧
      (t.start.meshLocked = true ↔ t.start.zonesUp = 0x1FF)) ∧
  (∀ (s : State) (parts : List Part) (tracks : List (LinkDir × Nat × Nat)), inPhase s 3 = true →
    s.start.meshLocked = true → s.start.deckChecked = false → ∃ t, exec (.deckCheck parts tracks) s = .next t ∧ t.start = { s.start with deckChecked := true }) ∧
  (∀ s : State, inPhase s 3 = true → s.start.deckChecked = true → mayRaise s = true →
    ∃ t, exec (.stackBringUp false) s = .next t ∧ t.start.phase = 5 ∧ t.start.stacksUp = true) ∧
  (∀ s : State, inPhase s 5 = true → ∃ t, exec .stackInitialisationDone s = .next t ∧
    t.start = { s.start with phase := 6, initPct := 100, openMs := tickMs s } ∧ t.sec.scrubKey = [] ∧
    t.log = pushRec s.log (recordOf { code := 0x0E01, value := (tickMs s).toNat } s)) ∧
  (∀ s : State, ∃ t, exec .credentialWindowExpire s = .next t ∧ t = { s with start := { s.start with credWindow := false } })

/-- Where a start-up step fails the start stops (R418): phase 7, the code kept as stop_code and reported. -/
def Obligations.StartUpStops : Prop :=
  (∀ s : State, inPhase s 3 = true → allZones s = false → mayRaise s = true →
    ∃ t, exec (.deckZoneUp false) s = .next t ∧ t.start.phase = 7 ∧ t.start.stopCode = 0x0E02 ∧
      t.start.zonesUp = 0 ∧ t.power.clamped = true) ∧
  (∀ s : State, inPhase s 3 = true → s.start.deckChecked = true → mayRaise s = true →
    ∃ t, exec (.stackBringUp true) s = .next t ∧ t.start.phase = 7 ∧ t.start.stopCode = 0x0E07 ∧
      t.start.zonesUp = 0 ∧ t.power.clamped = true)

/-- Power-good, TRAY_RELEASE_N and what ends them after open house (R420, R393, R394). -/
def Obligations.OpenHouseEventsRun : Prop :=
  (∀ s : State, afterOpen s = true → s.start.pwrGoodLow = false → ∃ t, exec .pwrGoodLoss s = .next t ∧
    t.start = { s.start with pwrGoodLow := true, phase := 8 } ∧ t.power.clamped = true) ∧
  (∀ s : State, s.start.pwrGoodLow = true → ∃ t, exec .pwrGoodRestore s = .next t ∧
    t.start = { s.start with pwrGoodLow := false, phase := 6 } ∧
    ∃ r ∈ t.log.records, r.code = 0x0E09) ∧
  (∀ s : State, s.start.releaseLow = false → s.start.resetLow = false → s.start.houseUp = true → afterOpen s = true →
    ∃ t, exec .trayRelease s = .next t ∧ t.start = { s.start with releaseLow := true } ∧
      ∀ p : PortId, (s.portOf p).state = .up → (s.portOf p).status ≠ .curtain → (t.portOf p).status = .withdrawn) ∧
  (∀ s : State, s.start.releaseLow = true → s.start.paused = false → afterOpen s = true →
    ∃ t, exec .trayReleaseWithdrawn s = .next t ∧ t.start = { s.start with releaseLow := false } ∧
      (∃ r ∈ t.log.records, r.code = 0x0104) ∧
      ∀ p : PortId, (s.portOf p).status = .withdrawn → (t.portOf p).status = .up)

/-! ### Supplies, clocks and power -/

/-- The alert pins and the clamp (R336, R339): a low level of 5 ns or more clamps, one under 2 ns changes nothing, one
between them clamps or not (a free value); a clear releases the source, and the clamp ends with a report. -/
def Obligations.ClampRuns : Prop :=
  (∀ (s : State) (pin : AlertPin) (w : Nat), w < 2000 → exec (.alertPinAssert pin w) s = .next s) ∧
  (∀ (s : State) (pin : AlertPin) (w : Nat), 5000 ≤ w → ∃ t, exec (.alertPinAssert pin w) s = .next t ∧
    t.power.clamped = true ∧ t.power.src = s.power.src ||| pinBit pin ∧ t.power.pins = s.power.pins ||| pinMask pin ∧
    t.power.point = 18 ∧ t.power.ballast = 0 ∧
    (s.power.clamped = false → t.power.clampCount = satInc s.power.clampCount ∧
      t.log = pushRec s.log (recordOf { code := 0x0A01, value := t.power.src.toNat } s))) ∧
  (∀ (s : State) (pin : AlertPin) (w : Nat), 2000 ≤ w → w < 5000 → ∃ t, exec (.alertPinAssert pin w) s = .next t ∧
    t.free = s.free + 1 ∧ t.power.clamped = (Config.shortPulse s.free || s.power.clamped)) ∧
  (∀ s : State, ∃ t, exec (.alertPinClear .psu) s = .next t ∧ t.power.src = s.power.src &&& ~~~srcPsu ∧
    t.power.pins = s.power.pins &&& ~~~(pinMask .psu)) ∧
  (∀ s : State, ∃ t, exec (.alertPinClear .vr) s = .next t ∧
    t.power.pins = s.power.pins &&& ~~~(pinMask .vr) ∧
    t.power.src = (if anyAlerting s then s.power.src else s.power.src &&& ~~~srcVr)) ∧
  (∀ (s : State) (m : Nat), s.power.clamped = true → s.power.src = 0 → ∃ t, exec (.clampRelease m) s = .next t ∧
    t.power.clamped = false ∧ t.power.seen = 0 ∧ t.power.point = 18 ∧ t.power.level = m * 10000 ∧
    t.log = pushRec s.log (recordOf { code := 0x0A02, value := s.power.seen.toNat } s))

/-- Deck zones and die supplies (R392, R335, R53, Table 15-6): each row's own effect, and no other die is touched. -/
def Obligations.SupplyRuns : Prop :=
  (∀ (s : State) (z : ZoneId), s.start.zonesUp.getLsbD z.val = true → ∃ t, exec (.deckZoneLoss z) s = .next t ∧
    t.start = { s.start with zonesUp := s.start.zonesUp &&& ~~~((1 : BitVec 9) <<< z.val) } ∧
    t.power.clamped = true ∧ ∀ i : Slot, (t.ctxOf i).state = .closed) ∧
  (∀ (s : State) (d : DieId), (s.dieOf d).alerting = false → (s.dieOf d).latchedOff = false →
    (s.dieOf d).rails ≠ .off → ∃ t, exec (.dieSupplyTrip d) s = .next t ∧
      t.dieOf d = { s.dieOf d with alerting := true } ∧ (∀ e, e ≠ d → t.dieOf e = s.dieOf e) ∧
      t.power.clamped = true ∧ t.power.src = s.power.src ||| srcVr) ∧
  (∀ (s : State) (d : DieId), (s.dieOf d).isolated = false → ∃ t, exec (.dieIsolation d) s = .next t ∧
    t.dieOf d = { s.dieOf d with isolated := true, rails := .off, locked := false } ∧
    (∀ e, e ≠ d → t.dieOf e = s.dieOf e) ∧
    t.log = pushRec s.log (recordOf { code := 0x0408, loc := locDie d } s)) ∧
  (∀ (s : State) (d : DieId), (s.dieOf d).alerting = true → ∃ t, exec (.dieRegulatorLatchOff d) s = .next t ∧
    t.dieOf d = { s.dieOf d with alerting := false, latchedOff := true, rails := .off, locked := false } ∧
    (∀ e, e ≠ d → t.dieOf e = s.dieOf e)) ∧
  (∀ (s : State) (d : DieId), (s.dieOf d).rails = .queued → s.power.clamped = false → roomFor s (idleW d) = true →
    ∃ t, exec (.dieRailRampStart d) s = .next t ∧ t.dieOf d = { s.dieOf d with rails := .ramping } ∧
      (∀ e, e ≠ d → t.dieOf e = s.dieOf e) ∧ t.power.drawn = s.power.drawn + idleW d) ∧
  (∀ (s : State) (d : DieId), (s.dieOf d).rails = .ramping → ∃ t, exec (.dieRailsUp d) s = .next t ∧
    t.dieOf d = { s.dieOf d with rails := .up, locked := false } ∧ (∀ e, e ≠ d → t.dieOf e = s.dieOf e)) ∧
  (∀ (s : State) (d : DieId), (s.dieOf d).rails = .up → (s.dieOf d).locked = false →
    ∃ t, exec (.dieClockLockTimeout d true) s = .next t ∧ t.dieOf d = { s.dieOf d with locked := true } ∧
      (∀ e, e ≠ d → t.dieOf e = s.dieOf e) ∧ t.log = s.log) ∧
  (∀ (s : State) (d : DieId), (s.dieOf d).rails = .up → (s.dieOf d).locked = false →
    ∃ t, exec (.dieClockLockTimeout d false) s = .next t ∧ (t.dieOf d).locked = false ∧
      (∀ e, e ≠ d → t.dieOf e = s.dieOf e) ∧ t.log = pushRec s.log (recordOf { code := 0x0A0A, loc := locDie d } s))

/-- Sleep, droop, the thermal bound and the oscillators (R346, R148, R334, R347, R331). The tile list is in its
canonical form, which every step keeps (Obligations.StepKeepsBounds). -/
def Obligations.ClocksRun : Prop :=
  (∀ (s : State) (i : TileId), canon Tile.reset s.tiles = true → (s.tileOf i).sleep = .deferredClocks →
    ∃ t, exec (.deferredSleepStop i) s = .next t ∧ (t.tileOf i).sleep = .asleep ∧
      (∃ new, t.out = s.out ++ new ∧ ∀ r h, Output.heartbeat i r h ∈ new ↔ r ∈ hbReceivers i ∧ h = .asleep) ∧
      ∀ j, j ≠ i → t.tileOf j = s.tileOf j) ∧
  (∀ (s : State) (i : TileId), canon Tile.reset s.tiles = true → (s.tileOf i).sleep = .deferredRails →
    ∃ t, exec (.deferredSleepStop i) s = .next t ∧ (t.tileOf i).sleep = .asleep ∧
      (∃ new, t.out = s.out ++ new ∧ ∀ r h, Output.heartbeat i r h ∈ new ↔ r ∈ hbReceivers i ∧ h = .asleep)) ∧
  (∀ (s : State) (i : TileId) (n : Nat), canon Tile.reset s.tiles = true → 40 < n →
    ∃ t, exec (.droopDetect i n) s = .next t ∧
      t.tileOf i = { s.tileOf i with stretch := if 80 < n then 2 else 1 } ∧ t.power.droops = s.power.droops + 1 ∧
      ∀ j, j ≠ i → t.tileOf j = s.tileOf j) ∧
  (∀ (s : State) (i : TileId) (n : Nat), n ≤ 40 → exec (.droopDetect i n) s = .next s) ∧
  (∀ (s : State) (i : TileId), canon Tile.reset s.tiles = true → ∃ t, exec (.droopRecover i) s = .next t ∧
    t.tileOf i = { s.tileOf i with stretch := 0 } ∧ ∀ j, j ≠ i → t.tileOf j = s.tileOf j) ∧
  (∀ (s : State) (m : Int), ∃ t, exec (.thermalRampCheck m) s = .next t ∧ t.power.tbar = (m :: s.power.tbar).take 10 ∧
    (t.power.holdUp = true ↔ s.power.tbar.getD 9 m + 30 < m) ∧
    (t.power.holdDown = true ↔ m + 30 < s.power.tbar.getD 9 m)) ∧
  (∀ s : State, ∃ t, exec .oscillatorRetune s = .next t ∧ t.power.oscTrim = s.free ∧ t.free = s.free + 1 ∧
    t.power.droops = 0 ∧ t.log = (if s.power.droops = 0 then s.log else
      pushRec s.log (recordOf { code := 0x0A09, isCount := true, value := s.power.droops } s)))

/-- The cap lease, the margin monitors, the energy counter and the telemetry (R340, R351, R349, R319, R320). -/
def Obligations.MetersRun : Prop :=
  (∀ s : State, s.power.leaseLive = true → ∃ t, exec .leaseExpire s = .next t ∧ t.power.leaseLive = false ∧
    t.power.orphan = true ∧ t.power.capTerm = min s.power.capTerm s.power.orphanW.toNat ∧
    t.log = pushRec s.log (recordOf { code := 0x0A06 } s)) ∧
  (∀ (s : State) (d : DieId) (n : Nat) (p : PowerPlan), planNow s = some p → p.trimMode = 1 →
    (s.dieOf d).trimTick = 0 ∨ (s.dieOf d).trimTick + hourTicks ≤ s.ticks → n < 50 ∨ 80 < n →
    ∃ t, exec (.marginSample d n) s = .next t ∧
      let v := (s.dieOf d).trimMv + (if n < 50 then 5 else -5)
      if v < -25 ∨ 25 < v then t.dies = s.dies ∧ t.log = pushRec s.log (recordOf { code := 0x0A0C, loc := locDie d } s)
      else t.dieOf d = { s.dieOf d with trimMv := v, trimTick := s.ticks } ∧
        (∀ e, e ≠ d → t.dieOf e = s.dieOf e) ∧
        t.log = pushRec s.log (recordOf { code := 0x0A0B, loc := locDie d } s)) ∧
  (∀ (s : State) (w : Nat), inCurtain s = false → ∃ t, exec (.energyAccumulate w) s = .next t ∧
    t.power.powerW = BitVec.ofNat 16 (w / 50 * 50) ∧ t.power.energy = s.power.energy + BitVec.ofNat 64 (w / 50)) ∧
  (∀ (s : State) (w : Nat), inCurtain s = true → ∃ t, exec (.energyAccumulate w) s = .next t ∧
    t.power.powerW = s.power.powerW ∧ t.power.energy = s.power.energy + BitVec.ofNat 64 (s.power.powerW.toNat / 50)) ∧
  (∀ (s : State) (a : Activity) (i : Slot), inCurtain s = false → holder s = some i →
    ∃ t, exec (.telemetryUpdate a) s = .next t ∧ (t.ctxOf i).arrayPct = a.arrayPct ∧
      (t.ctxOf i).portPct = a.portPct ∧ (t.ctxOf i).heldMs = (s.ctxOf i).heldMs + 1 ∧
      ∀ j, j ≠ i → t.ctxOf j = s.ctxOf j) ∧
  (∀ (s : State) (a : Activity), inCurtain s = true → exec (.telemetryUpdate a) s = .next s)

/-- A control interval outside the clamp (R342, R344, R347, R348): L rises by no more than the slew limit's step, not at
all under the thermal bound or in a curtain, and the three grants together stay within the cap in force. -/
def Obligations.ControlIntervalRuns : Prop :=
  ∀ (s : State) (m : PowerSample), s.power.clamped = false → ∃ t, exec (.powerControlInterval m) s = .next t ∧
    t.power.drawn = m.total ∧ t.power.interval = (s.power.interval + 1) % 10 ∧ t.power.clamped = false ∧
    t.power.level ≤ s.power.level + s.power.slewWs.toNat ∧
    (s.power.holdUp = true ∨ inCurtain s = true → t.power.level ≤ s.power.level) ∧
    ((∀ p, planNow s = some p → p.order.Perm [.ports, .memory, .compute]) →
      t.power.grant.1 + t.power.grant.2.1 + t.power.grant.2.2 ≤ capInForce s)

/-! ### Cooling -/

/-- What a read of the tray, or its absence for 2 ms, does (R357, R358, R371 to R373): the reading is taken, and from
phase 3 on the derate, the cooling cap, the flow clamp and the sudden stop follow the flow. -/
def Obligations.TrayReadsAct : Prop :=
  (∀ s : State, exec (.trayRead none) s = .next s) ∧
  (∀ (s : State) (x : TrayRegs), x.status.getLsbD 0 = true → s.thermal.lastSeq ≠ some x.seq → trayKnown x = true →
    ∃ t, exec (.trayRead (some x)) s = .next t ∧ t.thermal.tray = x ∧ t.thermal.lastSeq = some x.seq ∧
      t.thermal.flow = x.flow.toNat ∧ t.thermal.stale = false) ∧
  (∀ (s : State) (x : TrayRegs), 3 ≤ s.start.phase.toNat → s.start.phase ≠ 7 →
    ∃ t, exec (.trayRead (some x)) s = .next t ∧ t.thermal.derate = !(flowAtLeast t 95) ∧
      t.thermal.coolingCap = (if flowAtLeast t 95 then 23000 else coolingCapOf (fFullNow t) t.thermal.flow) ∧
      (flowAtLeast t 50 = false → t.thermal.flowClamp = true) ∧
      (flowAtLeast t 25 = false → t.thermal.suddenStop = true) ∧
      (s.thermal.suddenStop = false → t.thermal.suddenStop = true → t.power.clamped = true)) ∧
  (∀ s : State, s.thermal.stale = false → ∃ t, exec .trayReadingStale s = .next t ∧ t.thermal.stale = true ∧
    t.thermal.inletStale = true ∧ t.thermal.flow = 0 ∧ supplyTemp t = 4000)

/-- The flow states end, the coolant halt runs its course and the engine powers off (R371 to R374, R366, R376): clearing
and recovering let the cooling source go where nothing else holds it, the halt stops every prompter, HALTED takes the
Chart's dies down, leaving the halt installs the active slot's Chart again, and the power-off turns everything beyond the
house domain off with every context closed. -/
def Obligations.CoolingStatesRun : Prop :=
  (∀ s : State, s.thermal.flowClamp = true → flowAtLeast s 55 = true → supplyTemp s ≤ 4500 →
    ∃ t, exec .flowClampClear s = .next t ∧ t.thermal.flowClamp = false ∧
      t.log = pushRec s.log (recordOf { code := 0x0B03 } s) ∧
      t.power = { s.power with src := if s.thermal.suddenStop || s.thermal.halting || s.thermal.throttleClamp
        then s.power.src else s.power.src &&& ~~~srcCooling }) ∧
  (∀ s : State, s.thermal.suddenStop = true → s.thermal.halting = false → flowAtLeast s 50 = true →
    ∃ t, exec .suddenStopRecover s = .next t ∧ t.thermal = { s.thermal with suddenStop := false } ∧
      t.power = { s.power with src := if s.thermal.flowClamp || s.thermal.throttleClamp
        then s.power.src else s.power.src &&& ~~~srcCooling }) ∧
  (∀ s : State, s.thermal.suddenStop = true → s.thermal.halting = false →
    ∃ t, exec .coolantHalt s = .next t ∧ t.thermal = { s.thermal with halting := true } ∧ t.signals = [] ∧
      (∀ p ∈ t.tiles, p.2.halted = true) ∧
      (∀ u : TileId, (t.tileOf u).inPass = false ∧ (t.tileOf u).array = none ∧ (t.tileOf u).vector = none ∧
        (t.tileOf u).movers = []) ∧
      (∀ (i : Slot) (c : Cmd), holder s = some i → s.coll = Collective.reset → (s.ctxOf i).running = [c] →
        isGroupOp c.opcode = false → c.opcode ≠ 0x30 → c.opcode ≠ 0x10 →
        (t.ctxOf i).running = [] ∧ (t.ctxOf i).fences = (s.ctxOf i).fences ∧ ∃ r ∈ t.log.records, r.code = 0x0B05)) ∧
  (∀ s : State, s.thermal.halting = true → s.thermal.halted = false → ∃ t, exec .halted s = .next t ∧
    t.thermal.halted = true ∧ t.installed = none ∧ t.log = pushRec s.log (recordOf { code := 0x0B06 } s) ∧
    (∀ (x : Installed) (c : Chart), s.installed = some x → chartOf s x.slot = some c →
      t.loader.slots[x.slot].state = .staged ∧ (∀ d : DieId, c.dieMask.getLsbD d = true → (t.dieOf d).rails = .off) ∧
      ∀ y ∈ t.mem, y.1 < 2 ^ 34 → c.dieMask.getLsbD (dieOfTile (y.1 / 2 ^ 21)) = false)) ∧
  (∀ s : State, s.thermal.halted = true → flowAtLeast s 95 = true → ∃ t, exec .haltExit s = .next t ∧
    t.thermal.halted = false ∧ t.thermal.halting = false ∧ t.thermal.suddenStop = false ∧
    t.power.src = (if s.thermal.throttleClamp then s.power.src else s.power.src &&& ~~~srcCooling) ∧
    (∃ r ∈ t.log.records, r.code = 0x0B08) ∧
    (holder s = none → t.installed = s.installed) ∧
    ∀ i : Slot, holder s = some i → t.installed = (beginInstall i { s with power := t.power, thermal := { s.thermal with
      halted := false, halting := false, suddenStop := false, flowClamp := false } }).installed) ∧
  (∀ s : State, flowAtLeast s 25 = false → s.thermal.thermTrip = false → ∃ t, exec .flowPowerOff s = .next t ∧
    t.thermal.thermTrip = true ∧ t.start.zonesUp = 0 ∧ t.mem = [] ∧ t.power.level = 0 ∧ t.installed = none ∧
    (∀ d : DieId, (t.dieOf d).rails = .off) ∧ (∀ p : PortId, (t.portOf p).state = .down) ∧
    (∀ i : Slot, (t.ctxOf i).state = .closed) ∧ ∃ r ∈ t.log.records, r.code = 0x0B07 ∧ r.value = 2) ∧
  (∀ s : State, s.thermal.thermTrip = false → ∃ t, exec .thermalTrip s = .next t ∧
    t.thermal.thermTrip = true ∧ t.start.zonesUp = 0 ∧ t.mem = [] ∧ t.power.level = 0 ∧ t.installed = none ∧
    (∀ d : DieId, (t.dieOf d).rails = .off) ∧ (∀ p : PortId, (t.portOf p).state = .down) ∧
    (∀ i : Slot, (t.ctxOf i).state = .closed) ∧ ∃ r ∈ t.log.records, r.code = 0x0B07 ∧ r.value = 1) ∧
  (∀ (s : State) (w : Nat), s.thermal.stale = false → s.thermal.tray.status.getLsbD 0 = true →
    s.thermal.tray.status.getLsbD 1 = true → s.thermal.tray.status.getLsbD 2 = true → heatUnbalanced s w = true →
    ∃ t, exec (.heatBalanceCheck w) s = .next t ∧ t.log = pushRec s.log (recordOf { code := 0x0B10 } s) ∧
      t.power = s.power ∧ t.ctx = s.ctx ∧ t.installed = s.installed)

/-- Junction sensors, the throttle, the thermal model and the forecast (R360, R361, R365, R368, R369). -/
def Obligations.ThermalLoopsRun : Prop :=
  (∀ (s : State) (r : SensorSet), ∃ t, exec (.sensorSample r) s = .next t ∧ t.thermal.tj = junction t ∧
    (10000 ≤ t.thermal.tj → t.thermal.throttle = true ∧
      (s.thermal.throttle = false → t.power.pThrottle = min 18 (s.power.point + 2))) ∧
    (t.thermal.tj ≤ 9500 → t.thermal.throttleClamp = false)) ∧
  (∀ s : State, s.thermal.throttle = true → 10000 ≤ s.thermal.tj → ∃ t, exec .throttleStep s = .next t ∧
    t.power.pThrottle = min 18 (s.power.pThrottle + 1) ∧ t.thermal = s.thermal) ∧
  (∀ s : State, s.thermal.throttle = true → s.thermal.tj ≤ 9700 → ∃ t, exec .throttleStep s = .next t ∧
    t.power.pThrottle = s.power.pThrottle - 1 ∧ t.thermal.throttle = decide (1 < s.power.pThrottle)) ∧
  (∀ s : State, 9700 < s.thermal.tj → s.thermal.tj < 10000 → exec .throttleStep s = .next s) ∧
  (∀ s : State, 10000 ≤ s.thermal.tj → s.power.point = 18 → s.thermal.throttleClamp = false →
    ∃ t, exec .throttleClampTimeout s = .next t ∧ t.thermal.throttleClamp = true ∧ t.power.clamped = true ∧
      t.power.src = s.power.src ||| srcCooling) ∧
  (∀ (s : State) (d : DieId) (k : Fin 4), let i : Fin 144 := Fin.ofNat 144 (4 * d.val + k.val)
    let h := s.thermal.spots[i]
    h.flagged = true → (h.diode - h.ring).natAbs ≤ 300 → ∃ t, exec (.sensorPairRetest d k) s = .next t ∧
      t.thermal.spots = s.thermal.spots.set i { h with flagged := false } ∧ t.selfTest = s.selfTest) ∧
  (∀ (s : State) (d : DieId) (k : Fin 4), let h := s.thermal.spots[Fin.ofNat 144 (4 * d.val + k.val)]
    h.flagged = true → 300 < (h.diode - h.ring).natAbs → s.selfTest.waiting = [] → s.selfTest.running = [] →
    ∃ t, exec (.sensorPairRetest d k) s = .next t ∧ t.selfTest.waiting = [(.hotSpot d k, 0x0B0C, s.ticks)]) ∧
  (∀ (s : State) (w : List Nat), ∃ t, exec (.thermalModelAdvance w) s = .next t ∧
    ∀ d : DieId, let p := w.getD d.val (s.dieOf d).powerW
      let th := thetaNow s d.val
      (t.dieOf d).powerW = p ∧ (t.dieOf d).x1 = (s.dieOf d).x1 + (2 / 5 * th * p - (s.dieOf d).x1) / 5 ∧
      (t.dieOf d).x2 = (s.dieOf d).x2 + (3 / 5 * th * p - (s.dieOf d).x2) / 150 ∧
      (t.dieOf d).rails = (s.dieOf d).rails) ∧
  (∀ s : State, inCurtain s = false → ∃ t, exec .heatForecast s = .next t ∧ t.dies = (correctModels s).dies ∧
    t.power.pForecast = nextForecast (correctModels s) ∧ t.thermal.fcSeq = s.thermal.fcSeq + 1) ∧
  (∀ s : State, inCurtain s = true → ∃ t, exec .heatForecast s = .next t ∧ t.dies = (correctModels s).dies ∧
    t.power.pForecast = nextForecast (correctModels s) ∧ t.thermal.fcSeq = s.thermal.fcSeq)

/-! ### The Chart loader -/

/-- The loader's ops start and are refused as R119, R120, R126 and R207 of Table 5-12 say. -/
def Obligations.LoaderOpsStart : Prop :=
  (∀ (s : State) (i : Slot), barWritable s = true → s.loader.running = none → isOpen s i = true → holder s ≠ some i →
    imageMapped s (latchOp true i s) = true → ∃ t, exec (.stage i) s = .next t ∧
      t.loader.running = some { latchOp true i s with
        image := s.hdmBytes i ((latchOp true i s).addr - i.val * 2 ^ 38) (latchOp true i s).len } ∧
      slotStateCode t i = (if s.loader.slots[i].refused then 6 else 1) ∧ t.loader.error = 0 ∧
      t.loader.lastMember = s.loader.member.toNat ∧ t.log = s.log) ∧
  (∀ (s : State) (i : Slot), barWritable s = true → s.loader.running = none → isOpen s i = false →
    ∃ t, exec (.stage i) s = .next t ∧ t.loader.running = none ∧ t.loader.error = 0x0234 ∧
      (t.loader.slots[i]).refused = true ∧ (t.loader.slots[i]).state = (s.loader.slots[i]).state ∧
      t.log = pushRec s.log (recordOf { code := 0x0234, slot := BitVec.ofNat 8 i } s)) ∧
  (∀ (s : State) (i : Slot), barWritable s = true → s.loader.running.isSome = true →
    ∃ t, exec (.stage i) s = .next t ∧ t.loader = { s.loader with op := 1, slot := BitVec.ofNat 3 i }) ∧
  (∀ (s : State) (i : Slot), barWritable s = true → s.loader.running = none → isOpen s i = true → holder s ≠ some i →
    (s.loader.slots[i]).state ≠ .empty → ∃ t, exec (.unstage i) s = .next t ∧
      t.loader.running = some (latchOp false i s) ∧ (t.loader.slots[i]).state = .unstaging ∧
      ∀ x, t.installed = some x → s.installed = some x ∧ x.slot ≠ i) ∧
  (∀ (s : State) (op : BitVec 4) (i : Slot), barWritable s = true → op ≠ 1 → op ≠ 2 → s.loader.running = none →
    ∃ t, exec (.loadGoReservedOp op i) s = .next t ∧ t.loader.running = none ∧ t.loader.error = 0x0207 ∧
      t.loader.op = op) ∧
  (∀ s : State, barWritable s = true → ∃ t, exec .loadStatusRead s = .next t ∧
    t.loader.error = s.loader.error ∧ ∀ i : Slot, t.loader.slots[i] = { s.loader.slots[i] with refused := false })

/-- The loader's ops end (R120, R121, R125, R126, R127). -/
def Obligations.LoaderOpsEnd : Prop :=
  (∀ (s : State) (op : LoadOp) (r : Refused), s.loader.running = some op → op.isStage = true → inCurtain s = false →
    checkImage s op = .error r → ∃ t, exec .chartCheckDone s = .next t ∧ t.loader.running = none ∧
      t.loader.error = r.code ∧ t.loader.sect = BitVec.ofNat 16 r.sect ∧ t.loader.record = BitVec.ofNat 32 r.record ∧
      (t.loader.slots[op.slot]).refused = true ∧ (t.loader.slots[op.slot]).state = (s.loader.slots[op.slot]).state ∧
      (t.loader.slots[op.slot]).chart = (s.loader.slots[op.slot]).chart) ∧
  (∀ (s : State) (op : LoadOp) (c : Chart) (r : Refused), s.loader.running = some op → op.isStage = true →
    inCurtain s = false → checkImage s op = .ok c → checkHere (stageRepairs s) op c = .error r →
    ∃ t, exec .chartCheckDone s = .next t ∧ t.loader.running = none ∧
      t.loader.error = r.code ∧ t.loader.sect = BitVec.ofNat 16 r.sect ∧ t.loader.record = BitVec.ofNat 32 r.record ∧
      (t.loader.slots[op.slot]).refused = true ∧ (t.loader.slots[op.slot]).state = ((stageRepairs s).loader.slots[op.slot]).state ∧
      (t.loader.slots[op.slot]).chart = ((stageRepairs s).loader.slots[op.slot]).chart) ∧
  (∀ (s : State) (op : LoadOp) (c : Chart) (vs : List (Nat × Nat)), s.loader.running = some op → op.isStage = true →
    inCurtain s = false → checkImage s op = .ok c → checkHere (stageRepairs s) op c = .ok vs → holder (stageRepairs s) ≠ some op.slot →
    ∃ t, exec .chartCheckDone s = .next t ∧ t.loader.running = none ∧
      (t.loader.slots[op.slot]).chart = some c ∧ (t.loader.slots[op.slot]).state = .staged) ∧
  (∀ (s : State) (op : LoadOp), s.loader.running = some op → op.isStage = false →
    ∃ t, exec .unstageDone s = .next t ∧ t.loader.running = none ∧
      (t.loader.slots[op.slot]).state = .empty ∧ (t.loader.slots[op.slot]).chart = none) ∧
  (∀ (s : State) (x : Installed) (c : Chart), s.installed = some x → installedChart s = some c → x.running = false →
    diesReady s c = true → inCurtain s = false → ∃ t, exec .chartInstallComplete s = .next t ∧
      t.installed = some { x with running := true } ∧ (t.loader.slots[x.slot]).state = .running) ∧
  (∀ (s : State) (x : Installed) (c : Chart) (f : FaultRec) (l : List FaultRec) (r : Region) (v : Variant),
    s.installed = some x → installedChart s = some c → x.running = true → x.faults = f :: l →
    (c.regions.find? fun r => r.id == f.region) = some r → restageChoice s c x r f = some v →
    ∃ t, exec .regionRestage s = .next t ∧
      t.installed = some { x with
        faults := l, variants := setPair x.variants r.id v.id, folded := foldedTiles s c (setPair x.variants r.id v.id) } ∧
      ∃ e ∈ t.log.records, e.code = 0x0241 ∧ e.slot = BitVec.ofNat 8 x.slot ∧ e.value = BitVec.ofNat 64 r.id)

/-! ### Self-tests, scrubs, the mesh -/

/-- Self-tests (R380, R382, R384): the first waiting part starts, late starts are reported; a passed test is a transient of
its part, counted within 24 h, and a sensor's is not counted. -/
def Obligations.SelfTestsRun : Prop :=
  (∀ (s : State) (p : Part) (code : BitVec 16) (since : Nat) (l : List (Part × BitVec 16 × Nat)),
    s.selfTest.waiting = (p, code, since) :: l → s.selfTest.running.length < 16 → inCurtain s = false →
    ∃ t, exec (.selfTestStart p) s = .next t ∧
      t.selfTest = { s.selfTest with waiting := l, running := s.selfTest.running ++ [(p, code)] } ∧
      t.log = (if since + lateTicks < s.ticks then pushRec s.log (recordOf { code := 0x0C06, loc := partLoc p } s)
        else s.log)) ∧
  (∀ (s : State) (p : Part), (∀ x ∈ s.selfTest.waiting.head?, x.1 ≠ p) →
    exec (.selfTestStart p) s = .next s) ∧
  (∀ (s : State) (p : Part) (y : Part × BitVec 16), (s.selfTest.running.find? fun x => decide (x.1 = p)) = some y →
    inCurtain s = false → isSensor p = true → ∃ t, exec (.selfTestResult p .pass) s = .next t ∧
      t.selfTest = { s.selfTest with running := s.selfTest.running.filter fun z => !(decide (z.1 = p)) } ∧
      t.log = pushRec s.log (recordOf { code := 0x0C03, loc := partLoc p } s)) ∧
  (∀ (s : State) (p : Part) (y : Part × BitVec 16), (s.selfTest.running.find? fun x => decide (x.1 = p)) = some y →
    inCurtain s = false → isSensor p = false → (∀ x ∈ s.selfTest.transients, x.1 ≠ p) →
    ∃ t, exec (.selfTestResult p .pass) s = .next t ∧
      t.selfTest.running = (s.selfTest.running.filter fun z => !(decide (z.1 = p))) ∧
      t.selfTest.transients = countTransient p s.ticks s.selfTest.transients ∧
      t.log = pushRec s.log (recordOf { code := 0x0C03, loc := partLoc p } s))

/-- Scrubs and re-checks (R32, R167 to R169, R385, R405, R407): a corrected error is reported and its row tested; a
re-check whose digests match leaves everything as it was but the time of the check. -/
def Obligations.ScrubsRun : Prop :=
  (∀ s : State, backgroundOn s = true → exec (.backgroundScrub .clean) s = .next s) ∧
  (∀ (s : State) (i : TileId) (b : Fin 32) (r : Fin 768), backgroundOn s = true → tileRowRead s i b r = true →
    s.selfTest.waiting = [] → s.selfTest.running = [] →
    ∃ t, exec (.backgroundScrub (.tileCorrected i b r)) s = .next t ∧
      t.log = pushRec s.log (recordOf { code := 0x0401, loc := locTile i, value := rowDetail b r } s) ∧
      t.selfTest.waiting = [(.tileRow i b r, 0x0401, s.ticks)] ∧ t.mem = s.mem ∧ t.tiles = s.tiles) ∧
  (∀ (s : State) (i : TileId) (b : Fin 32) (r : Fin 2048), backgroundOn s = true → deckRowRead s i b r = true →
    s.selfTest.waiting = [] → s.selfTest.running = [] →
    ∃ t, exec (.backgroundScrub (.deckCorrected i b r)) s = .next t ∧
      t.log = pushRec s.log (recordOf { code := 0x0403, loc := locTile i, value := rowDetail b r } s) ∧
      t.selfTest.waiting = [(.deckRow i b r, 0x0403, s.ticks)] ∧ t.mem = s.mem) ∧
  (∀ (s : State) (k : StackId) (n : Nat), backgroundOn s = true → s.selfTest.waiting = [] → s.selfTest.running = [] →
    ∃ t, exec (.backgroundScrub (.stackCorrected k n)) s = .next t ∧
      t.log = pushRec s.log (recordOf { code := 0x0C01, loc := locPort k, value := n } s) ∧
      t.selfTest.waiting = [(.stackLine k n, 0x0C01, s.ticks)] ∧ t.mem = s.mem) ∧
  (∀ (s : State) (i : Slot) (y : Site) (m : Model) (a : BitVec 16), holder s = some i → siteOf s i = some y →
    (s.ctxOf i).model = some m → backgroundOn s = true →
    (∀ k ∈ ((pinnedLayers s a.toNat).flatMap (layerShards m.fetch.manifest)).filter
        (shardInArea s y.chart y.inst m.fetch.manifest a.toNat),
      Config.shake256 (rebuiltShard y s.mem m.fetch.manifest k) 64 = recordedDigest m k) →
    exec (.deckWeightRecheck a) s = .next (doneWork (.deckArea a.toNat) s)) ∧
  (∀ (s : State) (i : Slot) (y : Site) (m : Model) (a : BitVec 16) (k : Nat), holder s = some i →
    siteOf s i = some y → (s.ctxOf i).model = some m → backgroundOn s = true →
    (((pinnedLayers s a.toNat).flatMap (layerShards m.fetch.manifest)).filter
        (shardInArea s y.chart y.inst m.fetch.manifest a.toNat)).find? (fun k =>
      !(Config.shake256 (rebuiltShard y s.mem m.fetch.manifest k) 64 == recordedDigest m k)) = some k →
    exec (.deckWeightRecheck a) s = .next (doneWork (.deckArea a.toNat) (areaMismatch i y m a.toNat k s))) ∧
  (∀ (s : State) (i : Slot) (m : Model) (k : Nat), backgroundOn s = true → (s.ctxOf i).model = some m →
    (∀ beside f h, fetchOf (s.ctxOf i) beside = some f → holdOf f.holds k = some h →
      h.valid = true ∧ storedDigest s i m f h = h.digest) →
    ∃ t, exec (.modelStoreRecheck i k) s = .next t ∧
      (t.ctxOf i).model = some { m with checked := setPair m.checked k s.ticks } ∧
      (∀ j, j ≠ i → t.ctxOf j = s.ctxOf j) ∧ t.log = s.log)

/-- Heartbeats and mesh replay (R40, R38, Tables 15-1 and 2-4). -/
def Obligations.MeshWatchRuns : Prop :=
  (∀ (s : State) (i : TileId), tilePowered s i = true → ∃ t, exec (.heartbeatSend i) s = .next t ∧
    changesOnly [.links, .out] s t ∧ ∃ new, t.out = s.out ++ new ∧
      ∀ r h, Output.heartbeat i r h ∈ new ↔ r ∈ hbReceivers i ∧ h = heartbeatOf (s.tileOf i)) ∧
  (∀ (s : State) (i : TileId) (r : Fin 5) (h : HbState), canon Tile.reset s.tiles = true → hearing s i r = true →
    ∃ t, exec (.heartbeatReceive ⟨i, r⟩ h) s = .next t ∧
      t.tileOf i = { s.tileOf i with hbSeen := (s.tileOf i).hbSeen.set r h, silent := (s.tileOf i).silent.set r false } ∧
      ∀ j, j ≠ i → t.tileOf j = s.tileOf j) ∧
  (∀ (s : State) (i : TileId) (r : Fin 5), listening s i r = true → (s.tileOf i).hbSeen[r] = .awake →
    (s.tileOf i).silent = Vector.replicate 5 false → s.selfTest.waiting = [] → s.selfTest.running = [] →
    ∃ t, exec (.tileSilent ⟨i, r⟩) s = .next t ∧
      t.log = pushRec s.log (recordOf { code := 0x0405, loc := locTile i } s) ∧
      t.selfTest.waiting = [(.tile i, 0x0405, s.ticks)]) ∧
  (∀ (s : State) (i : TileId) (r k : Fin 5), listening s i r = true → (s.tileOf i).hbSeen[r] = .awake →
    (s.tileOf i).silent[r] = false → (s.tileOf i).silent[k] = true → ∃ t, exec (.tileSilent ⟨i, r⟩) s = .next t ∧
      t.log = pushRec s.log (recordOf { code := 0x0405, loc := locTile i } s) ∧ t.selfTest = s.selfTest ∧
      t.installed = s.installed) ∧
  (∀ (s : State) (l : LinkDir) (w : BitVec 578), let x := logicalOf (linkState s l).shift w
    let q := (controlOf (lowOf x)).seq
    crcGood x = false → linkIsDown s l = false → (linkState s l).waiting = false →
    deckPowered s l.router = true → ∃ t, exec (.meshCrcError l w) s = .next t ∧
      t.out = s.out ++ .replayReq l q :: ((reverseDir l).map fun y => Output.meshFlit y (replayCycle t y q)).toList ∧
      (linkState t l).waiting = true ∧ (linkState t l).flit = q ∧
      ((linkState t l).fails = 1 ∨ (linkState s l).flit = q ∧ (linkState t l).fails = (linkState s l).fails + 1)) ∧
  (∀ (s : State) (l : LinkDir) (w : BitVec 578), crcGood (logicalOf (linkState s l).shift w) = true →
    exec (.meshCrcError l w) s = .next s) ∧
  (∀ (s : State) (l : LinkDir) (q : BitVec 6), linkIsDown s l = false → (linkState s l).waiting = true →
    (linkState s l).flit = q → (linkState s l).fails < 5 → s.selfTest.waiting = [] → s.selfTest.running = [] →
    ∃ t, exec (.meshReplayReq l q) s = .next t ∧ (linkState t l).waiting = false ∧
      (linkState t l).fails = (linkState s l).fails ∧
      (∀ x ∈ keptFrom q (linkState s l), Output.meshFlit l (wiresOf (linkState s l).shift x.tracks) ∈ t.out) ∧
      t.log = pushRec s.log (recordOf { code := 0x0840, loc := locTile l.router, value := q.toNat } s)) ∧
  (∀ (s : State) (l : LinkDir) (q : BitVec 6), linkIsDown s l = false → (linkState s l).waiting = true →
    (linkState s l).flit = q → 5 ≤ (linkState s l).fails → ∃ t, exec (.meshReplayReq l q) s = .next t ∧
      linkIsDown t l = true)

/-! ### Cues and passes -/

/-- Prompters (R130 to R136, R148, R149): a cue that may issue takes its units and moves its prompter on, a MATMUL computes at
its issue, a deferred product is queued, a completed cue frees its units and signals. -/
def Obligations.CuesRun : Prop :=
  (∀ (s : State) (i : TileId) (r : Run) (q : Cue) (f : ArithFault), runOf s = some r →
    nextCue r i (s.tileOf i) = some q → issues s r (s.tileOf i) q = true → q.layerStart = false → q.phaseId = 0xFFFF →
    q.kind = 1 ∨ q.kind = 2 ∨ q.kind = 3 → ∃ t, exec (.cueIssue i .clean f) s = .next t ∧
      let u := modTile i (openPacket r (s.tileOf i).pc q) (modTile i (takeUnits (flightOf s r.pass.slot (s.tileOf i).pc q)) s)
      t.mem = (workOf u r.pass.slot (cueEnv u r.pass.slot r [i.val] q f)).mem) ∧
  (∀ (s : State) (i : TileId) (r : Run) (q : Cue) (f : ArithFault), canon Tile.reset s.tiles = true →
    runOf s = some r → nextCue r i (s.tileOf i) = some q → issues s r (s.tileOf i) q = true → q.layerStart = false →
    q.phaseId = 0xFFFF → q.kind = 9 → ∃ t, exec (.cueIssue i .clean f) s = .next t ∧ t.mem = s.mem ∧
      t.tileOf i = { s.tileOf i with
        pc := (s.tileOf i).pc + 1, waitSaid := false, deferred := (s.tileOf i).deferred ++ [((s.tileOf i).pc, q)] }) ∧
  (∀ (s : State) (i : TileId) (r : Run) (q : Cue) (f : ArithFault), canon Tile.reset s.tiles = true →
    runOf s = some r → nextCue r i (s.tileOf i) = some q → issues s r (s.tileOf i) q = true → q.layerStart = false →
    q.phaseId = 0xFFFF → q.kind = 12 ∨ q.kind = 13 → ∃ t, exec (.cueIssue i .clean f) s = .next t ∧ t.mem = s.mem ∧
      t.tileOf i = openPacket r (s.tileOf i).pc q (takeUnits (flightOf s r.pass.slot (s.tileOf i).pc q) (s.tileOf i)) ∧
      ∀ j, j ≠ i → t.tileOf j = s.tileOf j) ∧
  (∀ (s : State) (i : TileId) (r : Run) (q : Cue), runOf s = some r → nextCue r i (s.tileOf i) = some q →
    issues s r (s.tileOf i) q = false → ∀ (e : EccFinding) (f : ArithFault), exec (.cueIssue i e f) s = .next s) ∧
  (∀ (s : State) (i : TileId) (r : Run) (q : Cue), canon Tile.reset s.tiles = true → runOf s = some r →
    nextCue r i (s.tileOf i) = some q → issues s r (s.tileOf i) q = false → (s.tileOf i).waitSaid = false →
    ∃ t, exec (.prompterWaitLong i) s = .next t ∧ t.tileOf i = { s.tileOf i with waitSaid := true } ∧
      t.log = pushRec s.log (recordOf
        { code := 0x0412, slot := BitVec.ofNat 8 r.pass.slot, loc := locTile i, cue := (s.tileOf i).pc, value := 0 } s)) ∧
  (∀ (s : State) (i : TileId) (r : Run) (f : InFlight), runOf s = some r →
    ((allInFlight (s.tileOf i)).find? fun x => x.index == f.index) = some f → isMatmul f.cue.kind = true →
    f.ran = true → ∃ t, exec (.cueComplete i f.index .clean) s = .next t ∧
      t = noteClosed (signal r i f.cue (modTile i (freeUnits f.index) s))) ∧
  (∀ (s : State) (i : TileId) (r : Run) (k : Nat) (q : Cue) (f : ArithFault), runOf s = some r →
    (s.tileOf i).entryRun = some (k, q) → canon Tile.reset s.tiles = true → (s.tileOf i).deferred = [] → q.sigMode = 0 →
    ∃ t, exec (.deferredEntryComplete ⟨i, f⟩) s = .next t ∧ t.tileOf i = { s.tileOf i with entryRun := none } ∧
      ∀ j, j ≠ i → t.tileOf j = s.tileOf j)

/-- Counters, passes and the replay of the open layer (R134 to R136, R138, R386 to R388). -/
def Obligations.PassesRun : Prop :=
  (∀ (s : State) (i : TileId) (k : Fin 64) (l : BitVec 16) (m : List RouteSignal), canon Tile.reset s.tiles = true →
    takeSignal i k l.toNat s.signals = some m → ∃ t, exec (.routeSignalArrive i k l) s = .next t ∧ t.signals = m ∧
      t.tileOf i = { s.tileOf i with
        counters := store 0 (s.tileOf i).counters k (look 0 (s.tileOf i).counters k + 1) } ∧
      ∀ j, j ≠ i → t.tileOf j = s.tileOf j) ∧
  (∀ (s : State) (i : TileId) (k : Fin 64) (l : BitVec 16), takeSignal i k l.toNat s.signals = none →
    exec (.routeSignalArrive i k l) s = .next s) ∧
  (∀ (s : State) (i : Slot) (q : QId) (r : Ready) (x : Installed) (c : Chart), headStarts 0x10 i q s r →
    s.installed = some x → runningChart s i = some c → leAt r.entry.body 0 1 < entriesOf c →
    leAt r.entry.body 0 1 < 16 → ∃ t, exec (.runPass i q) s = .next t ∧ ∃ y p, t.installed = some y ∧
      y.pass = some p ∧ p.slot = i ∧ p.cmd = cmdOf q r.idx r.entry ∧ p.entry = leAt r.entry.body 0 1 ∧
      p.step = BitVec.ofNat 32 (leAt r.entry.body 4 4) ∧ p.openLayer = none ∧ p.replays = 0) ∧
  (∀ (s : State) (r : Run), runOf s = some r → passOver s r = true → ∃ t, exec .passComplete s = .next t ∧
    t.installed = some { r.inst with pass := none, phase := none } ∧ t.signals = [] ∧
    ∃ fv, (t.ctxOf r.pass.slot).cq.held =
      (s.ctxOf r.pass.slot).cq.held ++ [cplRecord r.pass.cmd 0 0xFFFF 0 fv]) ∧
  (∀ (s : State) (r : Run), runOf s = some r → r.pass.replayDue = true → r.inst.faults = [] →
    r.pass.openLayer = none → ∃ t, exec .replayOpenLayer s = .next t ∧
      (∃ y, t.installed = some y ∧ y.pass = some { r.pass with
        replayDue := false, replays := r.pass.replays + 1, closed := false, skip := r.pass.skip ++ r.pass.sent, sent := [] }) ∧
      t.signals = s.signals ∧
      t.log = pushRec s.log (recordOf
        { code := 0x0C07, slot := BitVec.ofNat 8 r.pass.slot, cue := 0xFFFF, value := r.pass.replays + 1 } s))

/-! ### Queues and host ports -/

/-- Queues and completion rings (R268, R270 to R284): what each command does. -/
def Obligations.QueueCommandsRun : Prop :=
  (∀ (s : State) (o : BitVec 41) (b : Bytes), Memory.wf s.mem → activeUp s = true → hdmMapped s o b.length = true →
    (spanOf o).2 + b.length ≤ 2 ^ 38 →
    ∃ t, exec (.queueEntryWrite o b) s = .next t ∧
      (∀ k, (h : k < b.length) → readByte t.mem (hdmKey (spanOf o).1 (spanOf o).2 + k) = b[k]) ∧
      (∀ a, a < hdmKey (spanOf o).1 (spanOf o).2 ∨ hdmKey (spanOf o).1 (spanOf o).2 + b.length ≤ a →
        readByte t.mem a = readByte s.mem a)) ∧
  (∀ (s : State) (o : BitVec 41) (b : Bytes), activeUp s = true → hdmMapped s o b.length = false →
    ∃ t, exec (.queueEntryWrite o b) s = .next t ∧ t.mem = s.mem ∧
      t.host.outsideCount = s.host.outsideCount + 1) ∧
  (∀ (s : State) (i : Slot) (q : QId) (r : Ready) (code : Code) (u : State), queueOn s i q = true →
    u = readHead i q s → slotFree (u.ctxOf i) = true → (u.ctxOf i).fmtMajor = queueMajor → headOf u i q = some r →
    refusalOf u i r = some code → ∃ t, exec (.entryRefusal i q) s = .next t ∧
      (t.ctxOf i).cq.held = (s.ctxOf i).cq.held ++ [cplRecord (cmdOf q r.idx r.entry) code 0xFFFF 0 0] ∧
      (t.ctxOf i).running = (s.ctxOf i).running ∧
      t.log = pushRec s.log (recordOf
        { code := code, slot := BitVec.ofNat 8 i, value := queueValue q r.idx } s)) ∧
  (∀ (s : State) (i : Slot) (q : QId) (r : Ready), headStarts 0x02 i q s r →
    ∃ t, exec (.nop i q) s = .next t ∧ (t.ctxOf i).running.Perm (s.ctxOf i).running ∧
      ∃ fv, (t.ctxOf i).cq.held = (s.ctxOf i).cq.held ++ [cplRecord (cmdOf q r.idx r.entry) 0 0xFFFF 0 fv]) ∧
  (∀ (s : State) (i : Slot) (q : QId), activeUp s = true → (s.queueOf i q).cancel = false →
    ∃ t, exec (.queueCancel i q) s = .next t ∧ (t.queueOf i q).cancel = true ∧ (t.queueOf i q).valid = [] ∧
      t.mem = s.mem ∧ ∀ j, j ≠ i → t.ctxOf j = s.ctxOf j) ∧
  (∀ (s : State) (i : Slot) (q : QId), (s.queueOf i q).cancel = true →
    (∀ c ∈ (s.ctxOf i).running, c.q ≠ q) → ∃ t, exec (.queueCancelComplete i q) s = .next t ∧
      (t.queueOf i q).cancel = false ∧ (t.queueOf i q).head = 0 ∧ (t.queueOf i q).phase = true ∧
      (t.queueOf i q).valid = [] ∧ (t.queueOf i q).lBase = (s.queueOf i q).base ∧
      (t.queueOf i q).lSize = 2 ^ (s.queueOf i q).sizeLog2.toNat) ∧
  (∀ (s : State) (i : Slot), activeUp s = true → (s.ctxOf i).cq.enable = false →
    ∃ t, exec (.cqEnable i) s = .next t ∧ (t.ctxOf i).cq.enable = true ∧ (t.ctxOf i).cq.tail = 0 ∧
      (t.ctxOf i).cq.phase = true ∧
      (t.ctxOf i).cq.held = (s.ctxOf i).cq.held.map (fun x => { x with written := false })) ∧
  (∀ (s : State) (i : Slot) (h : BitVec 12), activeUp s = true →
    ∃ t, exec (.cqHeadWrite i h) s = .next t ∧ (t.ctxOf i).cq.head = h ∧
      (∀ l, (s.ctxOf i).cq.latch = some l → h.toNat % 2 ^ l.sizeLog2 = (s.ctxOf i).cq.headInForce →
        (s.ctxOf i).cq.headInForce < 2 ^ l.sizeLog2 → (t.ctxOf i).cq.held = (s.ctxOf i).cq.held) ∧
      ∀ j, j ≠ i → t.ctxOf j = s.ctxOf j) ∧
  (∀ (s : State) (i : Slot) (l : CqLatch) (x : CplRecord), nextWrite s i = some (l, x) →
    ∃ t, exec (.completionRecordWrite i) s = .next t ∧ (t.ctxOf i).cq.writing = true ∧
      t.out = s.out ++ [.record i (s.ctxOf i).cq.tail.toNat l.inHdm x (s.ctxOf i).cq.phase] ∧
      t.mem = if l.inHdm then writeBytes s.mem (hdmKey i (l.base.toNat + 32 * (s.ctxOf i).cq.tail.toNat))
        (recordBytes x (s.ctxOf i).cq.phase) else s.mem) ∧
  (∀ (s : State) (i : Slot), (s.ctxOf i).cq.writing = true → ∃ t, exec (.completionWriteDone i) s = .next t ∧
      (t.ctxOf i).cq.writing = false ∧ (t.ctxOf i).cq.held = markWritten (s.ctxOf i).cq.held ∧
      ∀ l, (s.ctxOf i).cq.latch = some l → (t.ctxOf i).cq.tail =
        if (s.ctxOf i).cq.tail.toNat + 1 = 2 ^ l.sizeLog2 then 0 else (s.ctxOf i).cq.tail + 1)

/-- The two CXL ports (R260 to R265, R421): what fails over, and what a refused failover leaves. -/
def Obligations.HostPortsRun : Prop :=
  (∀ (s : State) (c : Instr), c = .takeOver (standby s) ∨ (c = .failover ∧ activeUp s = true) →
    failoverAllowed s = true → ∃ t, exec c s = .next t ∧ t.host.activePort = otherPort s.host.activePort ∧
      t.host.swapPending = true ∧ t.host.autoArmed = false ∧ t.log = s.log ∧ t.ctx = s.ctx ∧
      (t.host.ports[standby s]).takeOver = false) ∧
  (∀ (s : State) (c : Instr), c = .takeOver (standby s) ∨ (c = .failover ∧ activeUp s = true) →
    failoverAllowed s = false → ∃ t, exec c s = .next t ∧ t.host.activePort = s.host.activePort ∧
      t.log = pushRec s.log (recordOf { code := 0x0315, loc := locPort (standby s) } s)) ∧
  (∀ (s : State) (c : Instr), c = .activeLinkDown ∨ c = .cxlPortReset s.host.activePort → activeUp s = true →
    ∃ t, exec c s = .next t ∧ activeUp t = false ∧ t.host.autoArmed = true ∧
      t.log = pushRec s.log (recordOf { code := 0x0313, loc := locPort s.host.activePort } s)) ∧
  (∀ (s : State), s.host.autoArmed = true → activeUp s = false → s.host.autoFailover = true →
    failoverAllowed s = true → ∃ t, exec .autoFailoverTimeout s = .next t ∧
      t.host.activePort = otherPort s.host.activePort ∧ t.host.swapPending = true ∧ t.log = s.log) ∧
  (∀ (s : State), s.host.autoArmed = true → activeUp s = false → s.host.autoFailover = false →
    exec .autoFailoverTimeout s = .next { s with host := { s.host with autoArmed := false } }) ∧
  (∀ (s : State) (ide : Bool), s.start.houseUp = true → s.host.autoRetry = false →
    ∃ t, exec (.standbyLinkUp false ide) s = .next t ∧ (t.host.ports[standby s]).linkUp = true ∧
      (t.host.ports[standby s]).ideUp = ide ∧ t.host.activePort = s.host.activePort ∧ t.log = s.log) ∧
  (∀ (s : State) (ide : Bool), s.start.houseUp = true → s.host.autoRetry = false →
    (s.host.ports[standby s]).linkUp = false →
    ∃ t, exec (.standbyLinkUp true ide) s = .next t ∧ (t.host.ports[standby s]).linkUp = true ∧
      (t.host.ports[standby s]).linkX4 = true ∧
      t.log = pushRec s.log (recordOf { code := 0x0314, loc := locPort (standby s) } s)) ∧
  (∀ (s : State) (c : Instr), c = .standbyLinkDown ∨ c = .cxlPortReset (standby s) → ∃ t, exec c s = .next t ∧
      t = modCxl (standby s) dropLink s) ∧
  (∀ (s : State) (ide : Bool), s.start.houseUp = true →
    ∃ t, exec (.activeLinkReturn s.host.activePort false ide) s = .next t ∧ activeUp t = true ∧
      t.host.autoArmed = false ∧ t.host.autoRetry = false ∧ t.log = s.log ∧ t.ctx = s.ctx) ∧
  (∀ (s : State), s.host.swapPending = true →
    (∀ i : Slot, nextWrite s i = none ∧ (s.ctxOf i).cq.writing = false) →
    ∃ t, exec .failoverRecordsWritten s = .next t ∧ t.host.swapPending = false ∧
      t.log = pushRec s.log (recordOf { code := 0x0310, loc := locPort s.host.activePort } s))

/-- Accesses from the hosts (R260 to R262, R268): what the standby port, an unmapped address and the DOE mailboxes answer. -/
def Obligations.HostAccessesRun : Prop :=
  (∀ (s : State) (k : AccessKind), (s.host.ports[standby s]).linkUp = true →
    ∃ t, exec (.standbyAccess k) s = .next t ∧ t.host.standbyCount = s.host.standbyCount + 1 ∧ t.mem = s.mem ∧
      t.ctx = s.ctx ∧ t.log = pushRec s.log (recordOf
        { code := 0x0311, isCount := true, loc := locPort (standby s), value := s.host.standbyCount + 1 } s)) ∧
  (∀ (s : State) (o : BitVec 41) (k : AccessKind), activeUp s = true → hdmMapped s o 1 = false → k ≠ .ioRequest →
    ∃ t, exec (.hdmAccessOutside o k) s = .next t ∧ t.host.outsideCount = s.host.outsideCount + 1 ∧
      t.mem = s.mem ∧ t.ctx = s.ctx ∧ .cxl (if k = .memRead then 1 else 2) ∈ t.out ∧
      t.log = pushRec s.log (recordOf
        { code := 0x0312, isCount := true, loc := locPort s.host.activePort, value := s.host.outsideCount + 1 } s)) ∧
  (∀ (s : State) (p : CxlId) (n : Byte), configUp s p = true →
    exec (.doeDiscovery p n) s = .next { s with out := s.out ++ [.doe p (Config.doeObject n.toNat)] }) ∧
  (∀ (s : State) (p : CxlId), configUp s p = true →
    exec (.cdatTableAccess p) s = .next { s with out := s.out ++ [.doe p Config.cdat] }) ∧
  (∀ (s : State) (x k : Bytes), configUp s s.host.activePort = true → Config.ideKm x = some k →
    exec (.ideKm s.host.activePort x) s =
      .next (modCxl s.host.activePort (fun c => { c with ideUp := true, ideKeys := k }) s))

/-! ### The mailbox and the curtain -/

/-- Mailbox requests (R291 to R295, R305 to R312): each that keeps its layout and conditions has its effect and its answer. -/
def Obligations.MailboxRuns : Prop :=
  (∀ (s : State) (i : Slot) (r : Bytes), servedNow 0x01 r s → r.length = 128 → zeros r 68 60 = true →
    1 ≤ leAt r 66 2 → leAt r 66 2 ≤ 256 → isOpen s i = false → s.sec.debugUnlocked = false →
    usedGib s + leAt r 64 2 + leAt r 66 2 ≤ 1536 → ∃ t, exec (.openContext i r) s = .next t ∧
      (t.ctxOf i).state = .open' ∧ (t.ctxOf i).ownerFp = slice r 0 64 ∧ (t.ctxOf i).stackGib = leAt r 64 2 ∧
      (t.ctxOf i).hdmGib = leAt r 66 2 ∧ (t.ctxOf i).fences = [] ∧ (t.ctxOf i).running = [] ∧
      (t.ctxOf i).cq.held = [] ∧ (∀ k : Fin 16, (t.ctxOf i).keys[k] = none) ∧ (t.ctxOf i).model = none ∧
      answered 0 (t.ctxOf i).ek t ∧ (∀ j, j ≠ i → t.ctxOf j = s.ctxOf j) ∧ t.mem = s.mem) ∧
  (∀ (s : State) (i : Slot) (r : Bytes), servedNow 0x02 r s → r.length = 8 → byteAt r 0 &&& 0xFE = 0 →
    zeros r 1 7 = true → (s.ctxOf i).state = .open' → ∃ t, exec (.closeContext i r) s = .next t ∧
      (t.ctxOf i).state = .closed ∧ answered 0 [] t ∧
      t.sec.filling = s.sec.filling ++
        if (byteAt r 0).getLsbD 0 then [(i, (s.ctxOf i).stackGib + (s.ctxOf i).hdmGib)] else []) ∧
  (∀ (s : State) (i : Slot) (r : Bytes), servedNow 0x03 r s → r.length = 8 → zeros r 4 4 = true →
    leAt r 0 4 ≤ 10000 → (s.ctxOf i).state = .open' → holder s = none → ∃ t, exec (.switchContext i r) s = .next t ∧
      t.sec.handOver = some ⟨none, some i, false, false, false, .mailbox⟩ ∧ t.sec.go = true ∧ t.ctx = s.ctx) ∧
  (∀ (s : State) (i : Slot) (r : Bytes), servedNow 0x04 r s → r.length = 64 → zeros r 33 31 = true →
    byteAt r 32 = 0xFF → ∃ t, exec (.getReport i r) s = .next t ∧
      answered 0 (makeReport none (slice r 0 32) [] s).1 t ∧ t.sec.reportCount = s.sec.reportCount + 1 ∧
      t.ctx = s.ctx) ∧
  (∀ (s : State) (i : Slot) (r : Bytes), servedNow 0x04 r s → r.length = 64 → zeros r 33 31 = true →
    byteAt r 32 = 0 → openOrHolding s i = true → ∃ t, exec (.getReport i r) s = .next t ∧
      let b := (makeReport (some i) (slice r 0 32) (s.ctxOf i).ek s).1
      answered 0 b t ∧ t.sec.reportCount = s.sec.reportCount + 1 ∧
      (t.ctxOf i).reports = ((s.ctxOf i).reports ++ [Config.shake256 b 64]).drop ((s.ctxOf i).reports.length - 7)) ∧
  (∀ (s : State) (i : Slot), servedNow 0x09 [] s → ∃ t, exec (.getCerts i []) s = .next t ∧
      answered 0 (certBytes s) t ∧ t.ctx = s.ctx) ∧
  (∀ (s : State) (i : Slot), servedNow 0x08 [] s → ∃ t, exec (.getPlaneRecords i []) s = .next t ∧
      answered 0 (planeRecords s) t ∧ t.ctx = s.ctx) ∧
  (∀ (s : State) (i : Slot) (b k : Bytes), servedNow 0x05 b s → b.length = 1296 → byteAt b 0 = 1 →
    zeros b 2 2 = true → openOrHolding s i = true → (byteAt b 1).toNat < 16 → openBlob s i b = some k →
    policyMet s i (slice b 84 64) = true → ∃ t, exec (.installKey i b) s = .next t ∧ answered 0 [] t ∧
      (t.ctxOf i).keys[(byteAt b 1).toNat]? =
        some (some ⟨k, blobModel b, if (slice b 84 64).all (· == 0) then [] else slice b 84 64⟩)) ∧
  (∀ (s : State) (i : Slot) (b k : Bytes) (g : GroupKey), servedNow 0x05 b s → b.length = 96 → byteAt b 0 = 2 →
    zeros b 2 2 = true → openOrHolding s i = true → (byteAt b 1).toNat < 16 →
    (s.sec.groups.find? fun g => g.groupId == BitVec.ofNat 128 (leAt b 20 16) &&
      g.ownerFp == (s.ctxOf i).ownerFp) = some g →
    Config.gcmOpen g.key (slice b 36 12) (slice b 0 36) (slice b 48 32) (slice b 80 16) = some k →
    ∃ t, exec (.installKey i b) s = .next t ∧ answered 0 [] t ∧
      (t.ctxOf i).keys[(byteAt b 1).toNat]? = some (some ⟨k, blobModel b, []⟩)) ∧
  (∀ (s : State) (i : Slot) (r : Bytes), servedNow 0x06 r s → r.length = 8 → zeros r 1 7 = true →
    openOrHolding s i = true → (byteAt r 0).toNat < 16 →
    (∀ c ∈ (s.ctxOf i).running, usesKey (s.ctxOf i) (byteAt r 0).toNat c = false) →
    ∃ t, exec (.removeKey i r) s = .next t ∧ answered 0 [] t ∧ (t.ctxOf i).keys[(byteAt r 0).toNat]? = some none ∧
      (t.ctxOf i).running = (s.ctxOf i).running) ∧
  (∀ (s : State) (i : Slot) (b k : Bytes), servedNow 0x07 b s → b.length = 1296 → byteAt b 0 = 3 →
    zeros b 1 3 = true → openOrHolding s i = true → openBlob s i b = some k →
    policyMet s i (slice b 84 64) = true → groupIndex s.sec.groups (blobModel b) = none →
    s.sec.groups.length < 16 → ∃ t, exec (.groupEnroll i b) s = .next t ∧
      answered 0 [BitVec.ofNat 8 s.sec.groups.length] t ∧
      t.sec.groups = s.sec.groups ++ [{ groupId := blobModel b, ownerFp := (s.ctxOf i).ownerFp, key := k }])

/-- Hand-overs and the curtain (R296 to R301, Table 12-3). -/
def Obligations.HandOversRun : Prop :=
  (∀ (s : State) (i : Slot), leaving s = some i → (∀ c ∈ (s.ctxOf i).running, c.opcode ≠ 0x10) →
    ∃ t, exec .graceExpire s = .next t ∧ t.sec.handOver = s.sec.handOver ∧
      ∀ c ∈ (t.ctxOf i).running, isGroupOp c.opcode = true ∨ c.opcode = 0x30) ∧
  (∀ (s : State) (h : HandOver) (bad : List Part), s.sec.handOver = some h → handOverReady s h = true →
    ∃ t, exec (.curtainStart bad) s = .next t ∧ t.sec.handOver = some { h with started := true }) ∧
  (∀ (s : State) (h : HandOver), s.sec.handOver = some h → handOverReady s h = true → Memory.wf s.mem →
    ∃ t, exec (.curtainStart []) s = .next t ∧ inCurtain t = true ∧ t.installed = none ∧ t.signals = [] ∧
      (∀ i, h.outgoing = some i → (t.ctxOf i).state = .curtain) ∧ (∀ a, a < 2 ^ 40 → readByte t.mem a = 0) ∧
      (∀ a, 2 ^ 40 ≤ a → readByte t.mem a = readByte s.mem a) ∧
      t.log = pushRec s.log (recordOf { code := 0x090C, slot := slotByte h.outgoing } s)) ∧
  (∀ (s : State) (o j : Slot) (z : Bool), s.sec.handOver = some ⟨some o, some j, false, z, true, .mailbox⟩ →
    s.sec.waiting = none → o ≠ j → (s.ctxOf j).state = .open' → chartOf s j = none →
    ∃ t, exec .curtainEnd s = .next t ∧ t.sec.handOver = none ∧ t.sec.go = false ∧ t.sec.error = 0 ∧
      (t.ctxOf o).state = .open' ∧ (t.ctxOf j).state = .holding ∧
      (∀ k, k ≠ o → k ≠ j → (t.ctxOf k).state = (s.ctxOf k).state) ∧
      t.log = pushRec s.log (recordOf { code := 0x090D, slot := BitVec.ofNat 8 o } s)) ∧
  (∀ (s : State) (i : Slot) (n : Nat), (s.sec.filling.find? fun p => p.1 == i) = some (i, n) → inCurtain s = false →
    ∃ t, exec (.zeroFillDone i) s = .next t ∧ t.sec.filling = s.sec.filling.erase (i, n) ∧
      t.log = pushRec s.log (recordOf { code := 0x0911, slot := BitVec.ofNat 8 i } s))

/-! ### Management and the NV store -/

/-- Management requests of observers and operators (R321 to R325, Tables 12-10 and 12-13): an accepted request with a good body
has its effect and is answered; during a curtain every management request is held, unanswered (Table 12-4; log entry 28). -/
def Obligations.OperatorRequestsRun : Prop :=
  (∀ (s : State) (r : MgmtReq), ∀ x ∈ mgmtRows r, mgmtUp s = true → inCurtain s = true → exec x.2 s = .next { s with
    sec := { s.sec with mgmtWaiting := s.sec.mgmtWaiting ++ [(x.1, r)] } }) ∧
  (∀ (s : State) (r : MgmtReq), accepted 0x0001 .observer r s → noBody (newerApi r) r.body = true →
    ∃ t, exec (.getTelemetry r) s = .next t ∧ t = answer 0x0001 0 (telemetryBytes (acceptCounter r s)) (acceptCounter r s)) ∧
  (∀ (s : State) (r : MgmtReq), accepted 0x0002 .observer r s → eventsLayout (newerApi r) r.body = true →
    ∃ t, exec (.getEvents r) s = .next t ∧ t.sec = (acceptCounter r s).sec ∧ t.log = s.log ∧
      t.out = s.out ++ [.mgmt 0x0002 0 (((s.log.records.filter fun e => decide (leAt r.body 0 4 ≤ e.seq.toNat)).take
        (leAt r.body 4 2)).flatMap eventBytes)]) ∧
  (∀ (s : State) (r : MgmtReq), accepted 0x0010 .operator r s → sized (newerApi r) 4 r.body = true → clearBits (newerApi r) (byteAt r.body 2) 0xFE = true →
    clear (newerApi r) r.body 3 1 = true → 6000 ≤ leAt r.body 0 2 → leAt r.body 0 2 ≤ 23000 → s.power.expired = false →
    ∃ t, exec (.setPowerCap r) s = .next t ∧ t.out = s.out ++ [.mgmt 0x0010 0 []] ∧
      t.power = { s.power with
        capTerm := leAt r.body 0 2, capSet := BitVec.ofNat 16 (leAt r.body 0 2), setValid := true,
        leased := (byteAt r.body 2).getLsbD 0, leaseLive := (byteAt r.body 2).getLsbD 0,
        orphan := false, expired := false }) ∧
  (∀ (s : State) (r : MgmtReq), accepted 0x0011 .operator r s → sized (newerApi r) 4 r.body = true → 1000 ≤ leAt r.body 0 4 →
    leAt r.body 0 4 ≤ 50000 → ∃ t, exec (.setSlew r) s = .next t ∧ t.out = s.out ++ [.mgmt 0x0011 0 []] ∧
      t.power = { s.power with slewWs := BitVec.ofNat 16 (leAt r.body 0 4) }) ∧
  (∀ (s : State) (r : MgmtReq), accepted 0x0012 .operator r s → sized (newerApi r) 4 r.body = true → clear (newerApi r) r.body 2 2 = true →
    6000 ≤ leAt r.body 0 2 → leAt r.body 0 2 ≤ 23000 → s.power.expired = false → s.power.orphan = false →
    ∃ t, exec (.setOrphanCap r) s = .next t ∧ t.out = s.out ++ [.mgmt 0x0012 0 []] ∧
      t.power = { s.power with orphanW := BitVec.ofNat 16 (leAt r.body 0 2) }) ∧
  (∀ (s : State) (r : MgmtReq), accepted 0x0020 .operator r s → noBody (newerApi r) r.body = true → nvBlocked s = false →
    0 < s.nv.tokens → s.nv.storeWaiting = false → ∃ t, exec (.storeNv r) s = .next t ∧
      t.nv = { s.nv with tokens := s.nv.tokens - 1, storeWaiting := true, storeAnswers := s.nv.storeAnswers + 1 } ∧
      t.out = s.out) ∧
  (∀ (s : State) (r : MgmtReq), accepted 0x0021 .operator r s → sized (newerApi r) 4 r.body = true → (byteAt r.body 0).toNat ≤ 1 →
    clear (newerApi r) r.body 1 3 = true → ∃ t, exec (.startScrub r) s = .next t ∧ t.out = s.out ++ [.mgmt 0x0021 0 []] ∧
      t.mem = s.mem ∧ t.log = s.log) ∧
  (∀ (s : State) (r : MgmtReq), accepted 0x0022 .operator r s → noBody (newerApi r) r.body = true →
    ∃ t, exec (.resetEngine r) s = .next t ∧ t.start.resetCause = 2 ∧ t.ctx = State.reset.ctx ∧ t.installed = none ∧
      t.mem = [] ∧ t.ident = { s.ident with bootEpoch := s.ident.bootEpoch + 1 }) ∧
  (∀ (s : State) (r : MgmtReq) (i : Slot), handsFree s = true → accepted 0x0030 .operator r s → sized (newerApi r) 4 r.body = true →
    (byteAt r.body 0).toNat = i → clearBits (newerApi r) (byteAt r.body 1) 0xFE = true → clear (newerApi r) r.body 2 2 = true →
    (s.ctxOf i).state = .open' → ∃ t, exec (.mgmtCloseContext r) s = .next t ∧ (t.ctxOf i).state = .closed) ∧
  (∀ (s : State) (r : MgmtReq) (i : Slot), handsFree s = true → accepted 0x0031 .operator r s → sized (newerApi r) 8 r.body = true →
    (byteAt r.body 0).toNat = i → clear (newerApi r) r.body 1 3 = true → leAt (slice r.body 4 4) 0 4 ≤ 10000 →
    (s.ctxOf i).state = .open' → holder s = none → ∃ t, exec (.mgmtSwitchContext r) s = .next t ∧
      t.sec.handOver = some ⟨none, some i, false, false, false, .management⟩)

/-- Management requests of administrators (R255, R313, R322, R323, R326 to R328): cabling, switch roots, firmware, credentials,
group keys, debug. -/
def Obligations.AdminRequestsRun : Prop :=
  (∀ (s : State) (r : MgmtReq), accepted 0x0040 .admin r s → cablingLayout (newerApi r) r.body = true → byteAt r.body 0 = 0xFF →
    ∃ t, exec (.setCabling r) s = .next t ∧ t.fabricGroup = BitVec.ofNat 12 (leAt r.body 18 2) ∧ t.ports = s.ports) ∧
  (∀ (s : State) (r : MgmtReq) (p : PortId), accepted 0x0040 .admin r s → cablingLayout (newerApi r) r.body = true →
    (byteAt r.body 0).toNat = p → (byteAt r.body 14).getLsbD 4 = (s.portOf p).nv.enable →
    ∃ t, exec (.setCabling r) s = .next t ∧ t.fabricGroup = s.fabricGroup ∧ (∀ q, q ≠ p → t.portOf q = s.portOf q) ∧
      (t.portOf p).nv = { (s.portOf p).nv with
        planSerial := BitVec.ofNat 64 (leAt r.body 4 8), planPort := BitVec.ofNat 16 (leAt r.body 12 2),
        planValid := (byteAt r.body 14).getLsbD 0, strict := (byteAt r.body 14).getLsbD 1,
        verifyMode := BitVec.ofNat 2 (bits (byteAt r.body 14).toNat 3 2),
        berInterval := BitVec.ofNat 16 (leAt r.body 16 2), berPassed := false }) ∧
  (∀ (s : State) (r : MgmtReq) (k : Fin 4), accepted 0x0041 .admin r s → sized (newerApi r) 1956 r.body = true →
    (byteAt r.body 0).toNat = k → clear (newerApi r) r.body 1 3 = true → ∃ t, exec (.setSwitchRoot r) s = .next t ∧
      t.sec.roots[k] = (if (slice r.body 4 1952).all (· == 0) then none else some (slice r.body 4 1952)) ∧
      ∀ j : Fin 4, j ≠ k → t.sec.roots[j] = s.sec.roots[j]) ∧
  (∀ (s : State) (r : MgmtReq), accepted 0x0050 .admin r s → sized (newerApi r) 68 r.body = true → leAt r.body 0 4 ≤ 2621440 →
    ∃ t, exec (.firmwareBegin r) s = .next t ∧
      t.sec.upload = some { length := leAt r.body 0 4, digest := slice r.body 4 64, image := [] }) ∧
  (∀ (s : State) (r : MgmtReq) (u : FwUpload), accepted 0x0051 .admin r s → 4 ≤ r.body.length →
    r.body.length ≤ 65540 → s.sec.upload = some u → leAt r.body 0 4 + (r.body.length - 4) ≤ u.length →
    ∃ t, exec (.firmwareChunk r) s = .next t ∧
      t.sec.upload = some { u with image := u.image ++ [(leAt r.body 0 4, r.body.drop 4)] }) ∧
  (∀ (s : State) (r : MgmtReq) (u : FwUpload) (f : Firmware), accepted 0x0052 .admin r s → noBody (newerApi r) r.body = true →
    s.sec.upload = some u → acceptImage s u = some f → nvBlocked s = false →
    ∃ t, exec (.firmwareCommit r) s = .next t ∧ t.nv = { s.nv with update := some f } ∧ t.sec.upload = none) ∧
  (∀ (s : State) (r : MgmtReq) (k : Fin 8), accepted 0x0060 .admin r s → sized (newerApi r) 1956 r.body = true →
    (byteAt r.body 0).toNat = k → (byteAt r.body 1).toNat < 3 → clear (newerApi r) r.body 2 2 = true →
    ∃ t, exec (.enrollCredential r) s = .next t ∧
      t.sec.creds[k] = some { key := slice r.body 4 1952, role := roleOf (byteAt r.body 1) } ∧
      ∀ j : Fin 8, j ≠ k → t.sec.creds[j] = s.sec.creds[j]) ∧
  (∀ (s : State) (r : MgmtReq) (k : Fin 8), accepted 0x0061 .admin r s → sized (newerApi r) 4 r.body = true →
    (byteAt r.body 0).toNat = k → clear (newerApi r) r.body 1 3 = true → ∃ t, exec (.revokeCredential r) s = .next t ∧
      t.sec.creds[k] = none ∧ ∀ j : Fin 8, j ≠ k → t.sec.creds[j] = s.sec.creds[j]) ∧
  (∀ (s : State) (r : MgmtReq), accepted 0x0070 .admin r s → sized (newerApi r) 16 r.body = true →
    ∃ t, exec (.eraseGroupKeys r) s = .next t ∧ t.sec.groups =
      if leAt r.body 0 16 = 2 ^ 128 - 1 then []
      else s.sec.groups.filter fun g => !(g.groupId.toNat == leAt r.body 0 16)) ∧
  (∀ (s : State) (r : MgmtReq), accepted 0x0080 .admin r s → noBody (newerApi r) r.body = true →
    ∃ t, exec (.debugChallenge r) s = .next t ∧ t.sec.challenge = some (s.random 32) ∧
      t.out = s.out ++ [.mgmt 0x0080 0 (s.random 32)]) ∧
  (∀ (s : State) (r : MgmtReq), handsFree s = true → accepted 0x0081 .admin r s → sized (newerApi r) 3361 r.body = true →
    clear (newerApi r) r.body 48 4 = true → tokenGood s r.body = true → (∀ i : Slot, isOpen s i = false) →
    ∃ t, exec (.debugUnlock r) s = .next t ∧ t.sec.debugUnlocked = true ∧
      t.sec.debugScope = BitVec.ofNat 3 (leAt r.body 44 4) ∧
      t.ident = { s.ident with debugCount := s.ident.debugCount + 1 } ∧
      t.log = pushRec s.log (recordOf { code := 0x0917 } s))

/-- The NV store (R397 to R402): requests, writes, wear tokens and upkeep. -/
def Obligations.NvStoreRuns : Prop :=
  (∀ s : State, nvBlocked s = false → s.nv.storeWaiting = false → 0 < s.nv.tokens →
    exec .storeRequest s = .next { s with
      nv := { s.nv with tokens := s.nv.tokens - 1, storeWaiting := true, storeBit := true } }) ∧
  (∀ s : State, nvBlocked s = false → s.nv.storeWaiting = false → s.nv.tokens = 0 →
    ∃ t, exec .storeRequest s = .next t ∧ t.nv.storeWaiting = false ∧ t.nv.tokens = 0 ∧
      t.log = pushRec s.log (recordOf { code := 0x0D02 } s)) ∧
  (∀ s : State, s.nv.job = none → nvBlocked s = false → s.nv.storeWaiting = true →
    ∃ t, exec .nvWriteStart s = .next t ∧ t.nv.storeWaiting = false ∧ t.nv.tokens = s.nv.tokens ∧
      ∃ j, t.nv.job = some j ∧ j.isFirmware = false ∧ j.settings = snapshotSettings s ∧
        j.firmware = (activeBank s).firmware) ∧
  (∀ (s : State) (f : Firmware), s.nv.job = none → nvBlocked s = false → s.nv.storeWaiting = false →
    s.nv.update = some f → 0 < s.nv.tokens → ∃ t, exec .nvWriteStart s = .next t ∧ t.nv.update = none ∧
      t.nv.tokens = s.nv.tokens - 1 ∧ ∃ j, t.nv.job = some j ∧ j.isFirmware = true ∧ j.firmware = f) ∧
  (∀ (s : State) (j : NvJob) (m : Nat), s.nv.job = some j → m < 2 → ∃ t, exec (.nvStoreComplete m) s = .next t ∧
      t.nv.job = none ∧ t.nv.active = otherBank s.nv.active ∧ t.nv.stores = s.nv.stores + 1 ∧
      (t.nv.banks[otherBank s.nv.active]).committed = true ∧
      (t.nv.banks[otherBank s.nv.active]).settings = j.settings ∧
      (t.nv.banks[otherBank s.nv.active]).firmware = j.firmware ∧
      (t.nv.banks[otherBank s.nv.active]).seq = (activeBank s).seq + 1 ∧
      (∃ dg, (t.nv.banks[otherBank s.nv.active]).record =
        commitRecord ((activeBank s).seq + 1) (s.nv.stores.toNat + 1) (otherBank s.nv.active) dg) ∧
      (t.nv.banks[otherBank s.nv.active]).place = (s.nv.banks[otherBank s.nv.active]).place + 1 ∧
      t.nv.banks[s.nv.active] = s.nv.banks[s.nv.active] ∧
      t.defects.entries = markStored j.takes s.defects.entries) ∧
  (∀ (s : State) (j : NvJob) (m : Nat), s.nv.job = some j → 2 ≤ m → ∃ t, exec (.nvStoreComplete m) s = .next t ∧
      t.nv.job = none ∧ t.nv.active = s.nv.active ∧ t.nv.stores = s.nv.stores ∧
      (t.nv.banks[otherBank s.nv.active]).recordGood = false ∧
      t.nv.banks[s.nv.active] = s.nv.banks[s.nv.active] ∧ t.defects = s.defects) ∧
  (∀ s : State, exec .wearTokenGain s = .next { s with nv := { s.nv with tokens := min 6 (s.nv.tokens + 1) } }) ∧
  (∀ s : State, (s.nv.banks[otherBank s.nv.active]).committed = true → 0 < s.nv.tokens → s.nv.job = none →
    nvBlocked s = false → ∃ t, exec (.nvUpkeep false) s = .next t ∧ t.nv.tokens = s.nv.tokens - 1 ∧
      t.nv.active = s.nv.active ∧ (t.nv.banks[otherBank s.nv.active]).recordGood = true ∧
      t.nv.banks[s.nv.active] = s.nv.banks[s.nv.active] ∧
      t.log = pushRec s.log (recordOf { code := 0x0D09 } s)) ∧
  (∀ s : State, exec (.nvUpkeep true) s = .next (doneWork .nvUpkeep s))

/-! ### Plane ports -/

/-- Port training (R244, R248 to R255, R259, Table 10-7): each step of the training and what refuses it. -/
def Obligations.PortTrainingRuns : Prop :=
  (∀ (s : State) (p : PortId), (s.portOf p).nv.enable = true → s.start.stacksUp = true → (s.portOf p).train = false →
    exec (.portTrain p) s = .next (modPort p (fun x => { beginTrain x with retrains := 0 }) s)) ∧
  (∀ (s : State) (p : PortId), (s.portOf p).nv.enable = true → (s.portOf p).state ≠ .down →
    ∃ t, exec (.portDisable p) s = .next t ∧ (t.portOf p).state = .down ∧
      (t.portOf p).nv = { (s.portOf p).nv with enable := false } ∧ (∀ q, q ≠ p → t.portOf q = s.portOf q) ∧
      t.log = pushRec s.log (recordOf { code := 0x080A, loc := locPort p } s)) ∧
  (∀ (s : State) (p : PortId), (s.portOf p).state = .pmd → ∃ t, exec (.pmdTrained p true) s = .next t ∧
      t.portOf p = { s.portOf p with state := .lock } ∧ ∀ q, q ≠ p → t.portOf q = s.portOf q) ∧
  (∀ (s : State) (p : PortId), (s.portOf p).state = .pmd → ∃ t, exec (.pmdTrained p false) s = .next t ∧
      (t.portOf p).state = .down ∧ t.log = pushRec s.log (recordOf { code := 0x0801, loc := locPort p } s)) ∧
  (∀ (s : State) (p : PortId), (s.portOf p).state = .lock → ∃ t, exec (.framingLock p) s = .next t ∧
      t.portOf p = { s.portOf p with
        state := .negotiate, framed := true, framingLoss := false, awaiting := (s.portOf p).awaiting ++ [1] } ∧
      t.out = s.out ++ trainOut p 1 (idBytes s p) ∧ ∀ q, q ≠ p → t.portOf q = s.portOf q) ∧
  (∀ (s : State) (p : PortId), (s.portOf p).framed = true → ∃ t, exec (.framingLockLost p) s = .next t ∧
      (t.portOf p).framed = false ∧ (t.portOf p).framingLoss = true ∧ (t.portOf p).state = (s.portOf p).state ∧
      t.log = pushRec s.log (recordOf { code := 0x0802, isCount := true, loc := locPort p, value := 1 } s)) ∧
  (∀ (p : PortId) (k : Nat) (b : Bytes), ∀ o ∈ trainOut p k b, o = .training p k b ∨
    ∃ f, o = .trainingFlit p f ∧ f.length = 256 ∧ leAt f 0 8 = 2 ^ 36 ∧ slice f 240 16 = List.replicate 16 0) ∧
  (∀ (s : State) (p : PortId), ∃ t, exec (.trainingResend p) s = .next t ∧ t.ports = s.ports ∧
      t.out = s.out ++ (s.portOf p).awaiting.flatMap fun k => trainOut p k (trainContent s p k)) ∧
  (∀ (s : State) (p : PortId) (b : Bytes), (s.portOf p).state = .negotiate → leAt b 0 4 = 0x49585952 → b.length = 64 →
    farMinor b = none → ∃ t, exec (.idBlock p b) s = .next t ∧ (t.portOf p).state = .down ∧
      t.log = pushRec s.log (recordOf { code := 0x0803, loc := locPort p } s)) ∧
  (∀ (s : State) (p : PortId) (b : Bytes) (m : Nat), (s.portOf p).state = .negotiate → leAt b 0 4 = 0x49585952 →
    b.length = 64 → farMinor b = some m → byteAt b 4 = 2 → (byteAt b 5).toNat = p →
    (s.portOf p).nv.planValid = true → BitVec.ofNat 64 (leAt b 8 8) = (s.portOf p).nv.planSerial →
    BitVec.ofNat 16 (leAt b 6 2) = (s.portOf p).nv.planPort → (s.portOf p).nv.verifyMode = 0 →
    ∃ t, exec (.idBlock p b) s = .next t ∧ (t.portOf p).state = .keying ∧ (t.portOf p).version = 0x00010000 ∧
      (t.portOf p).farSerial = BitVec.ofNat 64 (leAt b 8 8) ∧ t.log = s.log) ∧
  (∀ (s : State) (p : PortId) (b : Bytes), (s.portOf p).state = .test → (s.portOf p).status = .training →
    leAt b 0 8 = 5 + 0xFF * 256 + 1000 * 2 ^ 32 → ∃ t, exec (.testReq p b) s = .next t ∧
      (t.portOf p).status = .test ∧ ∀ q, q ≠ p → t.portOf q = s.portOf q) ∧
  (∀ (s : State) (p : PortId) (e : List Word) (l : Byte), (s.portOf p).state = .test → (s.portOf p).status = .test →
    (s.portOf p).berFarSeen = false → ∃ t, exec (.berTestEnd p e l) s = .next t ∧ (t.portOf p).berErrors = e ∧
      (t.portOf p).berNear = some (e, l) ∧ (t.portOf p).status = .training ∧
      t.out = s.out ++ trainOut p 3 ((e.flatMap fun w => toLe 4 w.toNat) ++ [l])) ∧
  (∀ (s : State) (p : PortId) (e n : List Word) (l k : Byte), (s.portOf p).state = .test →
    (s.portOf p).berNear = some (n, k) → berPass n e k l = true → ∃ t, exec (.testResult p e l) s = .next t ∧
      (t.portOf p).state = .keying ∧ (t.portOf p).nv.berPassed = true ∧ (t.portOf p).lastBer = some s.ticks ∧
      t.log = pushRec s.log (recordOf { code := 0x0807, loc := locPort p } s)) ∧
  (∀ (s : State) (p : PortId) (k : Byte), (s.portOf p).state = .up →
    ∃ t, exec (.trainingFlitDiscard p k) s = .next t ∧ (t.portOf p).state = .up ∧
      t.log = pushRec s.log (recordOf { code := 0x080E, loc := locPort p, value := k.toNat } s)) ∧
  (∀ (s : State) (p : PortId), (s.portOf p).state ≠ .down → (s.portOf p).state ≠ .pmd → (s.portOf p).autoRetrain = false →
    ∃ t, exec (.codewordLockLoss p) s = .next t ∧ (t.portOf p).state = .down ∧
      (∀ q, q ≠ p → t.portOf q = s.portOf q) ∧
      t.log = pushRec s.log (recordOf { code := 0x080A, loc := locPort p } s)) ∧
  (∀ (s : State) (p : PortId), (s.portOf p).state = .up → (s.portOf p).autoRetrain = true →
    (s.portOf p).retrains.toNat < 3 → (s.portOf p).nv.enable = true → s.start.stacksUp = true →
    ∃ t, exec (.farEndDown p) s = .next t ∧ (t.portOf p).state = .pmd ∧ (t.portOf p).farStatus = 5 ∧
      (t.portOf p).retrains = (s.portOf p).retrains + 1 ∧
      t.log = pushRec s.log (recordOf { code := 0x080A, loc := locPort p } s))

/-- Keys of a hop (R242, R245, R248, R314 to R317, Table 12-9). -/
def Obligations.PortKeyingRuns : Prop :=
  (∀ (s : State) (p : PortId), (s.portOf p).state = .keying → (s.portOf p).keying = none →
    (s.portOf p).keyed = false → ∃ t, exec (.keyHello p) s = .next t ∧
      t.out = s.out ++ trainOut p 0x11 (s.random 32) ∧
      ∃ k, (t.portOf p).keying = some k ∧ k.ne = s.random 32 ∧ k.confirmed = false) ∧
  (∀ (s : State) (p : PortId) (k : Keying) (m root : Bytes), (s.portOf p).keying = some k → k.confirmed = false →
    (s.portOf p).state = .keying → m.length = replyBytes → replyValid (s.portOf p) k m = true → rootOf s (replyCert m) = some root →
    ∃ t, exec (.keyReply p m) s = .next t ∧ t.sec.reportCount = s.sec.reportCount + 1 ∧
      (t.portOf p).rootFp = Config.shake256 root 64 ∧ (t.portOf p).switchSerial = (s.portOf p).farSerial ∧
      ∃ k', (t.portOf p).keying = some k' ∧ k'.confirmed = true ∧ k'.reply = m ∧
        t.out = s.out ++ trainOut p 0x13 k'.confirm) ∧
  (∀ (s : State) (p : PortId) (k : Keying) (m : Bytes), (s.portOf p).keying = some k → k.confirmed = false →
    (s.portOf p).state = .keying → m.length = replyBytes → replyValid (s.portOf p) k m = false → ∃ t, exec (.keyReply p m) s = .next t ∧
      (t.portOf p).state = .down ∧ t.log = pushRec s.log (recordOf { code := 0x0909, loc := locPort p } s)) ∧
  (∀ (s : State) (p : PortId) (k : Keying) (m : Bytes), (s.portOf p).keying = some k → k.confirmed = false →
    (s.portOf p).state = .keying → m.length ≠ replyBytes → (s.portOf p).autoRetrain = false →
    ∃ t u, exec (.keyReply p m) s = .next t ∧ (t.portOf p).state = .down ∧
      u = pushRec s.log (recordOf { code := 0x090A, loc := locPort p } s) ∧
      t.log = pushRec u (recordOf { code := 0x080A, loc := locPort p } { s with log := u })) ∧
  (∀ (s : State) (p : PortId) (k : Keying) (m ss t₀ b : Bytes), (s.portOf p).keying = some k → k.confirmed = true →
    (s.portOf p).state = .keying → Config.kemDecaps k.ephDk (slice m 0 1088) = some ss →
    t₀ = Config.shake256 (k.hello ++ k.reply ++ k.confirm) 64 →
    b = Config.shake256 (labelHop ++ k.ssE ++ ss ++ t₀) 72 → m.length = 1120 →
    slice m 1088 32 = Config.shake256 (labelFin ++ b ++ t₀) 32 → ∃ t, exec (.keyFinish p m) s = .next t ∧
      (t.portOf p).keyed = true ∧ (t.portOf p).tx = (hopKeys b false).1 ∧ (t.portOf p).rx = (hopKeys b false).2 ∧
      (t.portOf p).transcript = t₀ ∧ (t.portOf p).keying = none) ∧
  (∀ (s : State) (p : PortId) (a b c d : BitVec 16), (s.portOf p).state = .keying → (s.portOf p).keyed = true →
    (s.portOf p).credInit = false → 64 ≤ a.toNat → 64 ≤ b.toNat → 64 ≤ c.toNat → 8 ≤ d.toNat →
    ∃ t, exec (.creditInit p a b c d) s = .next t ∧ (t.portOf p).credInit = true ∧
      (t.portOf p).credits = #v[a.toNat, b.toNat, c.toNat, d.toNat] ∧ t.out = s.out ++ trainOut p 5 []) ∧
  (∀ (s : State) (p : PortId) (a b c d : BitVec 16), (s.portOf p).state = .keying → (s.portOf p).keyed = true →
    (s.portOf p).credInit = false → a.toNat < 64 ∨ b.toNat < 64 ∨ c.toNat < 64 ∨ d.toNat < 8 →
    ∃ t, exec (.creditInit p a b c d) s = .next t ∧ (t.portOf p).state = .down ∧
      t.log = pushRec s.log (recordOf { code := 0x080B, loc := locPort p } s)) ∧
  (∀ (s : State) (p : PortId), (s.portOf p).state = .keying → (s.portOf p).credInit = true →
    ∃ t, exec (.ready p) s = .next t ∧ (t.portOf p).state = .up ∧
      (t.portOf p).status = (if inCurtain s then .curtain else if s.start.releaseLow then .withdrawn else .up) ∧
      (t.portOf p).unacked = [] ∧ t.log = pushRec s.log (recordOf { code := 0x080C, loc := locPort p } s)) ∧
  (∀ (s : State) (p : PortId), rekeyable s p = true → 2 ^ 40 ≤ (s.portOf p).tx.counter → (s.portOf p).rekey = none →
    ∃ t, exec (.hopKeyLimit p) s = .next t ∧
      (t.portOf p).rekey = some (Config.kemEncaps (s.portOf p).farEk (s.random 32)).2) ∧
  (∀ (s : State) (p : PortId) (ct own ss b : Bytes), rekeyable s p = true → (s.portOf p).rekey = some own →
    Config.kemDecaps (s.portOf p).ephDk ct = some ss →
    b = Config.shake256 (labelHop ++ own ++ ss ++ (s.portOf p).transcript) 72 →
    ∃ t, exec (.hopRekey p ct) s = .next t ∧ (t.portOf p).rekey = none ∧
      (t.portOf p).tx = (hopKeys b (!(s.portOf p).tx.phase)).1 ∧
      (t.portOf p).rx = (hopKeys b (!(s.portOf p).tx.phase)).2 ∧ (t.portOf p).rxOld = some (s.portOf p).rx ∧
      t.log = pushRec s.log (recordOf { code := 0x090B, loc := locPort p } s))

/-- The data path, the pre-FEC monitor and pattern tests (R240, R242 to R244, R253 to R258): a flit that is not decoded, has a
wrong tag or is out of order is discarded with a nak, one in order joins its message; a nak and an acknowledgement timeout resend
in order and count under 0x0808, or take the port DOWN after eight resends; a lane ten seconds above 10⁻⁵ is reported with 0x080D;
a pattern test starts, is refused with 0x0820 or 0x0821, and ends with 0x0822, what it counted being free values (log entry 32). -/
def Obligations.PortDataRuns : Prop :=
  (∀ (s : State) (p : PortId) (f : Flit), (s.portOf p).state = .up → flitDecoded f = false →
    ∃ t, exec (.dataFlitReceive p f) s = .next t ∧ (t.portOf p).naking = true ∧
      (t.portOf p).fecUncorrected = satInc (s.portOf p).fecUncorrected ∧
      (t.portOf p).rxExpect = (s.portOf p).rxExpect) ∧
  (∀ (s : State) (p : PortId) (f : Flit), (s.portOf p).state = .up → flitDecoded f = true → 256 ≤ (flitRaw f).length →
    (s.portOf p).status = .curtain → bits (flitHead f).toNat 37 35 = 0 →
    exec (.dataFlitReceive p f) s = .next (takeStatus p (flitStatus f) s)) ∧
  (∀ (s : State) (p : PortId) (f : Flit) (h : Nat) (k : HopKey), (s.portOf p).state = .up →
    flitDecoded f = true → 256 ≤ (flitRaw f).length → (s.portOf p).status ≠ .curtain → h = (flitHead f).toNat →
    bits h 37 35 < 2 → rxKey (s.portOf p) (bitOf h 38) = some k →
    Config.gcmOpen k.key (flitNonce k (nearCounter k.counter (bits h 20 0))) (toLe 8 h) (flitBody f) (flitTag f) = none →
    ∃ t, exec (.dataFlitReceive p f) s = .next t ∧ (t.portOf p).naking = true ∧
      (t.portOf p).rxExpect = (s.portOf p).rxExpect ∧ (t.portOf p).partial' = (s.portOf p).partial' ∧
      t.log = pushRec s.log (recordOf { code := 0x0809, isCount := true, loc := locPort p, value := 1 } s)) ∧
  (∀ (s : State) (p : PortId) (f : Flit) (h : Nat) (k : HopKey) (b : Bytes), (s.portOf p).state = .up →
    flitDecoded f = true → 256 ≤ (flitRaw f).length → (s.portOf p).status ≠ .curtain → h = (flitHead f).toNat →
    bits h 37 35 = 0 → rxKey (s.portOf p) (bitOf h 38) = some k →
    Config.gcmOpen k.key (flitNonce k (nearCounter k.counter (bits h 20 0))) (toLe 8 h) (flitBody f) (flitTag f) = some b →
    BitVec.ofNat 12 (bits h 63 52) ≠ (s.portOf p).rxExpect → ∃ t, exec (.dataFlitReceive p f) s = .next t ∧
      (t.portOf p).naking = true ∧ (t.portOf p).rxExpect = (s.portOf p).rxExpect ∧
      (t.portOf p).partial' = (s.portOf p).partial' ∧ t.log = s.log) ∧
  (∀ (s : State) (p : PortId) (f : Flit) (h : Nat) (k : HopKey) (b : Bytes), (s.portOf p).state = .up →
    flitDecoded f = true → 256 ≤ (flitRaw f).length → (s.portOf p).status ≠ .curtain → h = (flitHead f).toNat →
    bits h 37 35 = 0 → bitOf h 39 = false →
    rxKey (s.portOf p) (bitOf h 38) = some k →
    Config.gcmOpen k.key (flitNonce k (nearCounter k.counter (bits h 20 0))) (toLe 8 h) (flitBody f) (flitTag f) = some b →
    BitVec.ofNat 12 (bits h 63 52) = (s.portOf p).rxExpect → ∃ t, exec (.dataFlitReceive p f) s = .next t ∧
      (t.portOf p).rxExpect = (s.portOf p).rxExpect + 1 ∧ (t.portOf p).naking = false ∧
      (t.portOf p).partial' = (acceptData h (nearCounter k.counter (bits h 20 0)) b (s.portOf p)).partial' ∧
      t.log = s.log) ∧
  (∀ (s : State) (p : PortId) (a : BitVec 12), (s.portOf p).state = .up → (s.portOf p).status ≠ .curtain →
    (takeAck (s.portOf p) a).nakActed ≠ some a → fromSeq (takeAck (s.portOf p) a).unacked (a + 1) ≠ [] →
    (∀ f ∈ fromSeq (takeAck (s.portOf p) a).unacked (a + 1), f.resends < 8) →
    ∃ t, exec (.nakReceive p a) s = .next t ∧ (t.portOf p).nakActed = some a ∧
      (t.portOf p).replays =
        satAdd (s.portOf p).replays (fromSeq (takeAck (s.portOf p) a).unacked (a + 1)).length) ∧
  (∀ (s : State) (p : PortId) (a : BitVec 12), (s.portOf p).state = .up → (s.portOf p).status ≠ .curtain →
    (takeAck (s.portOf p) a).nakActed = some a →
    ∃ t, exec (.nakReceive p a) s = .next t ∧ (t.portOf p).replays = (s.portOf p).replays ∧ t.log = s.log) ∧
  (∀ (s : State) (p : PortId) (f : TxFlit) (l : List TxFlit), (s.portOf p).state = .up →
    (s.portOf p).status ≠ .curtain → (s.portOf p).unacked = f :: l → (∀ x ∈ f :: l, x.resends < 8) →
    ∃ t, exec (.ackTimeout p) s = .next t ∧
      (t.portOf p).unacked = (f :: l).map (fun x => { x with resends := x.resends + 1 }) ∧
      (t.portOf p).replays = satAdd (s.portOf p).replays (l.length + 1) ∧
      t.log = pushRec s.log (recordOf
        { code := 0x0808, isCount := true, loc := locPort p, value := (t.portOf p).replays.toNat } s)) ∧
  (∀ (s : State) (p : PortId) (f : TxFlit) (l : List TxFlit), (s.portOf p).state = .up →
    (s.portOf p).status ≠ .curtain → (s.portOf p).unacked = f :: l → (∃ x ∈ f :: l, 8 ≤ x.resends) →
    (s.portOf p).autoRetrain = false → ∃ t, exec (.ackTimeout p) s = .next t ∧ (t.portOf p).state = .down ∧
      t.log = pushRec s.log (recordOf { code := 0x080A, loc := locPort p } s)) ∧
  (∀ (s : State) (p : PortId) (l : List Nat), (s.portOf p).state = .up →
    ∃ t, exec (.preFecMonitor p l) s = .next t ∧ (t.portOf p).degraded =
      ((List.range 8).map fun k => if 10000 < l.getD k 0 then (s.portOf p).degraded.getD k 0 + 1 else 0) ∧
      (t.portOf p).fecCorrected = satAdd (s.portOf p).fecCorrected (Config.freeWord s.free).toNat ∧
      (10 ∈ (t.portOf p).degraded → t.log = pushRec s.log (recordOf { code := 0x080D, loc := locPort p } s)) ∧
      (10 ∉ (t.portOf p).degraded → t.log = s.log)) ∧
  (∀ s : State, bar0Up s = true → activeUp s = true → houseOpen s = true → s.pattern.running = false →
    patternAllowed s s.pattern.target.toNat = true → ∃ t, exec .patternGo s = .next t ∧ t.pattern.running = true ∧
      t.pattern.refusal = 0 ∧ t.pattern.locked = 0 ∧ t.pattern.bits = 0 ∧ t.pattern.firstFail = 0xFFF ∧
      t.log = s.log) ∧
  (∀ s : State, bar0Up s = true → activeUp s = true → houseOpen s = true → s.pattern.running = false →
    patternAllowed s s.pattern.target.toNat = false → ∃ t, exec .patternGo s = .next t ∧ t.pattern.running = false ∧
      t.pattern.refusal = 0x0820 ∧
      t.log = pushRec s.log (recordOf { code := 0x0820, loc := locPort s.pattern.target.toNat } s)) ∧
  (∀ s : State, bar0Up s = true → activeUp s = true → houseOpen s = false ∨ s.pattern.running = true →
    ∃ t, exec .patternGo s = .next t ∧ t.pattern = { s.pattern with refusal := 0x0821 } ∧
      t.log = pushRec s.log (recordOf { code := 0x0821, loc := locPort s.pattern.target.toNat } s)) ∧
  (∀ (s : State), bar0Up s = true → activeUp s = true → s.pattern.running = true →
    ∃ t, exec .patternStop s = .next t ∧ t.pattern.running = false ∧ t.pattern.held = none ∧
      t.log = pushRec s.log (recordOf { code := 0x0822, loc := locPort (match s.pattern.held with
        | some x => x.1.toNat
        | none => s.pattern.target.toNat) } s) ∧
      (s.pattern.held.isSome = true → s.pattern.heldMode ≠ 1 → t.pattern.bits = Config.freeWord s.free))

/-! ### Weights -/

/-- Weight commands (R150, R157, R158, R170 to R174): each that is accepted binds, loads, swaps or releases the model. -/
def Obligations.WeightCommandsRun : Prop :=
  (∀ (s : State) (i : Slot) (q : QId) (r : Ready) (f : Fetch), headStarts 0x20 i q s r →
    acceptManifest (started i q r s) i (parseWeight r.entry.body) = .ok f → modelBusy (started i q r s) i = false →
    ∃ t, exec (.bindManifest i q) s = .next t ∧ (t.ctxOf i).model = some
      { resident := false, fetch := f, loading := false, swap := none, digests := [], checked := [], patches := [] } ∧
      (t.ctxOf i).barrier = false ∧ ∃ fv, (t.ctxOf i).cq.held =
        (s.ctxOf i).cq.held ++ [cplRecord (cmdOf q r.idx r.entry) 0 0xFFFF 0 fv]) ∧
  (∀ (s : State) (i : Slot) (q : QId) (r : Ready) (code : Code), headStarts 0x20 i q s r →
    acceptManifest (started i q r s) i (parseWeight r.entry.body) = .error code →
    ∃ t, exec (.bindManifest i q) s = .next t ∧ (t.ctxOf i).model = (s.ctxOf i).model ∧
      (t.ctxOf i).cq.held = (s.ctxOf i).cq.held ++ [cplRecord (cmdOf q r.idx r.entry) code 0xFFFF 0 0]) ∧
  (∀ (s : State) (i : Slot) (q : QId) (r : Ready) (f : Fetch), headStarts 0x21 i q s r →
    acceptManifest (started i q r s) i (parseWeight r.entry.body) = .ok f → modelBusy (started i q r s) i = false →
    modelFits (started i q r s) i f.manifest = true → f.pilot = false →
    ∃ t, exec (.loadModel i q) s = .next t ∧ (t.ctxOf i).model = some
      { resident := true, fetch := f, loading := true, swap := none, digests := [], checked := [], patches := [] } ∧
      (t.ctxOf i).running = (s.ctxOf i).running ++ [weightCmd q r]) ∧
  (∀ (s : State) (i : Slot) (q : QId) (r : Ready) (f : Fetch) (m : Model), headStarts 0x22 i q s r →
    acceptManifest (started i q r s) i (parseWeight r.entry.body) = .ok f → (s.ctxOf i).model = some m →
    (∀ c ∈ (s.ctxOf i).running, c.opcode ≠ 0x21 ∧ c.opcode ≠ 0x22) → m.resident = true →
    sameShape m.fetch.manifest f.manifest = true → (swapOf m f).2.todo ≠ [] → (swapOf m f).2.fetch.pilot = false →
    (swapOf m f).2.fetch.streamEnded = false → ∃ t, exec (.swapModel i q) s = .next t ∧ (t.ctxOf i).barrier = true ∧
      (t.ctxOf i).model = some { m with fetch := (swapOf m f).1, swap := some (swapOf m f).2 } ∧
      (t.ctxOf i).running = (s.ctxOf i).running ++ [weightCmd q r]) ∧
  (∀ (s : State) (i : Slot) (q : QId) (r : Ready), headStarts 0x23 i q s r → modelBusy (started i q r s) i = false →
    ∃ t, exec (.releaseModel i q) s = .next t ∧ (t.ctxOf i).model = none ∧ (t.ctxOf i).barrier = false ∧
      ∃ fv, (t.ctxOf i).cq.held =
        (s.ctxOf i).cq.held ++ [cplRecord (cmdOf q r.idx r.entry) 0 0xFFFF 0 fv])

/-- Shard requests, their retries, arrival and write-back (R160 to R166, R171, R175). -/
def Obligations.ShardsRun : Prop :=
  (∀ (s : State) (i : Slot) (sw : Bool) (k : Nat) (l : List (Slot × Bool)) (f : Fetch) (r : ShardReq),
    reqSites s (fun _ r => !r.gap) k = (i, sw) :: l → fetchOf (s.ctxOf i) sw = some f →
    (f.reqs.find? fun r => r.shard == k) = some r → r.tries < f.retries →
    ∃ t, exec (.shardReqTimeout k) s = .next t ∧ fetchOf (t.ctxOf i) sw = some { f with
      reqs := f.reqs.map fun r => if r.shard == k then { r with gap := false, tries := r.tries + 1 } else r } ∧
      t.log = s.log ∧ t.mem = s.mem) ∧
  (∀ (s : State) (i : Slot) (sw : Bool) (k : Nat) (l : List (Slot × Bool)) (f : Fetch) (r : ShardReq),
    reqSites s (fun _ r => r.gap) k = (i, sw) :: l → fetchOf (s.ctxOf i) sw = some f →
    (f.reqs.find? fun r => r.shard == k) = some r → r.tries < f.retries →
    ∃ t, exec (.shardRetryGap k) s = .next t ∧ fetchOf (t.ctxOf i) sw = some { f with
      reqs := f.reqs.map fun r => if r.shard == k then { r with gap := false, tries := r.tries + 1 } else r } ∧
      t.log = s.log ∧ t.mem = s.mem) ∧
  (∀ (s : State) (p : PortId) (g : ShardMsg) (h : SvcHdr) (i : Slot) (sw : Bool) (l : List (Slot × Bool)) (f : Fetch)
    (r : ShardReq), portTakes s p = true → h = parseSvc g.header → h.kind = 0x62 →
    svcValid h g.records.length = true →
    reqSites s (fun f r => !r.gap && f.manifest.modelId == h.modelId && r.version == h.version) h.shard = (i, sw) :: l →
    fetchOf (s.ctxOf i) sw = some f → (f.reqs.find? fun r => r.shard == h.shard) = some r → r.tries < f.retries →
    ∃ t, exec (.shardNack p g) s = .next t ∧ fetchOf (t.ctxOf i) sw = some { f with
      reqs := f.reqs.map fun r => if r.shard == h.shard then { r with gap := true } else r } ∧ t.log = s.log ∧
      t.out = s.out) ∧
  (∀ (s : State) (p : PortId) (g : ShardMsg), portTakes s p = true →
    svcValid (parseSvc g.header) g.records.length = false → ∃ t, exec (.shardData p g) s = .next t ∧
      t.badShards = s.badShards + 1 ∧ t.ctx = s.ctx ∧ t.mem = s.mem ∧
      t.log = pushRec s.log (recordOf
        { code := 0x0505, cue := s.badShards + 1, value := idValue (parseSvc g.header).modelId } s)) ∧
  (∀ (s : State) (p : PortId) (g : ShardMsg) (h : SvcHdr) (i : Slot) (l : List (Slot × Bool)) (m : Model)
    (x : List (Piece × Bytes)) (k : Nat), portTakes s p = true → h = parseSvc g.header → h.kind = 0x61 →
    svcValid h g.records.length = true →
    reqSites s (fun f r => f.manifest.modelId == h.modelId && r.version == h.version) h.shard = (i, false) :: l →
    (s.ctxOf i).model = some m → m.swap = none → m.loading = false → m.fetch.pilot = false →
    checkRecords m.fetch h.shard h.version [] g.records = .ok x →
    wholeShard m.fetch h.shard h.version (x.map Prod.fst) = true → holdOf m.fetch.holds h.shard = none →
    frameFor m m.fetch false h.shard = some k → siteOf s i = none → ∃ t, exec (.shardData p g) s = .next t ∧
      t.mem = (writePieces i k x s).mem ∧ t.log = s.log ∧ ∃ m', (t.ctxOf i).model = some m' ∧
      m'.fetch.holds = (m.fetch.holds.filter fun y => !(y.shard == h.shard)) ++
        [{ shard := h.shard, version := h.version, frame := k, pieces := x.map Prod.fst, valid := true,
           digest := piecesDigest i m.fetch.manifest h.shard k (writePieces i k x s) }] ∧
      m'.fetch.reqs = m.fetch.reqs.filter fun r => !(r.shard == h.shard)) ∧
  (∀ (s : State) (p : PortId) (g : ShardMsg) (h : SvcHdr) (i : Slot) (m : Model), portTakes s p = true →
    h = parseSvc g.header → h.kind = 0x64 → svcValid h g.records.length = true →
    (∀ j, j ≠ i → (s.ctxOf j).model = none) → (s.ctxOf i).model = some m → m.fetch.manifest.modelId = h.modelId →
    h.writer = ownMember s → ∃ t, exec (.shardAck p g) s = .next t ∧ (t.ctxOf i).model = some { m with
      patches := m.patches.filter fun p =>
        !(p.shard == h.shard && p.streamOffset == h.streamOffset && p.version == h.version) }) ∧
  (∀ (s : State) (i : Slot) (m : Model) (sh off : Nat) (y : PatchHold), (∀ j, j ≠ i → (s.ctxOf j).model = none) →
    (s.ctxOf i).model = some m → (m.patches.find? fun p => p.shard == sh && p.streamOffset == off) = some y →
    y.tries < m.fetch.retries → patchStopped s y = false →
    ∃ t, exec (.patchAckTimeout sh off) s = .next t ∧ t.log = s.log ∧
      (t.ctxOf i).model = some { m with
        patches := m.patches.map fun x => if x = y then { x with tries := x.tries + 1 } else x }) ∧
  (∀ (s : State) (i : Slot) (m : Model), (∀ j, j ≠ i → (s.ctxOf j).model = none) → (s.ctxOf i).model = some m →
    m.loading = true → m.fetch.streamEnded = false → allValid m.fetch = true →
    ∃ t, exec .pilotStreamEnd s = .next t ∧
      (t.ctxOf i).model = some { m with fetch := { m.fetch with streamEnded := true, missing := [] } }) ∧
  (∀ (s : State) (i : Slot) (m : Model) (w : Swap) (k : Nat) (r : List Nat) (ofK : ShardHold → Bool),
    (∀ j, j ≠ i → (s.ctxOf j).model = none) → (s.ctxOf i).model = some m → m.swap = some w → w.todo = k :: r →
    r ≠ [] → w.failed = false → w.fetch.pilot = false → w.fetch.streamEnded = false →
    layerValid w.fetch w.fetch.manifest.baseStep k = true → admittedWaits s i = false → closedLayer s k = true →
    ofK = (fun h => (entryOf w.fetch.manifest h.shard).layer == k) →
    ∃ t, exec .swapLayerReplace s = .next t ∧ (t.ctxOf i).model = some { m with
      fetch := { m.fetch with holds := (m.fetch.holds.filter fun h => !(ofK h)) ++ w.fetch.holds.filter ofK },
      digests := (w.fetch.holds.filter ofK).foldl (fun d h => setPair d h.shard h.digest) m.digests,
      swap := some { w with todo := r, fetch := { w.fetch with holds := w.fetch.holds.filter fun h => !(ofK h) } } })

/-! ### Tests, registers, the Log -/

/-- Field tests (R430, Table 16-11): where one may start, a write of go starts its kind and latches the die mask; elsewhere it is
refused with 0x0E0B; its end gives the result, the count of lasting faults, and leaves the units as the table says. -/
def Obligations.FieldTestsRun : Prop :=
  (∀ (s : State) (c : Instr) (k : BitVec 4),
    (c = .fieldTileCheck ∧ k = 1) ∨ (c = .fieldCellColumnBist ∧ k = 2) ∨ (c = .fieldDeckCheck ∧ k = 3) ∨ (c = .fieldStackMarch ∧ k = 4) →
    barWritable s = true → s.field.running = none →
    (fieldAllowed s = true → ∃ t, exec c s = .next t ∧ t.field = { s.field with
        kind := k, running := some k, testLo := s.field.dieMaskLo, testHi := s.field.dieMaskHi } ∧
      (∀ d, t.dieOf d = if k.toNat ≤ 2 ∧ inFieldMask s d = true ∧ (s.dieOf d).rails = .off ∧ (s.dieOf d).latchedOff = false then
        { s.dieOf d with rails := .queued } else s.dieOf d) ∧ changesOnly [.field, .dies] s t) ∧
    (fieldAllowed s = false → ∃ t, exec c s = .next t ∧ t.field = { s.field with kind := k, result := 0x0E0B } ∧
      t.log = pushRec s.log (recordOf { code := 0x0E0B } s) ∧ t.dies = s.dies ∧ t.mem = s.mem)) ∧
  (∀ (s : State) (k : BitVec 4) (faults : List Part) (tracks : List (LinkDir × Nat × Nat)) (ms : Word),
    s.field.running = some k → fieldDiesReady s k = true →
    ∃ t, exec (.fieldTestComplete faults tracks ms) s = .next t ∧ t.field.running = none ∧ t.field.result = 0x0E0A ∧
      t.field.lasting = BitVec.ofNat 16 (min (faults.length + tracks.length) 65535) ∧ t.field.elapsedMs = ms ∧
      (∀ d, (k = 1 ∨ k = 2) → underTest s d = true → (t.dieOf d).rails = .off ∧ (t.dieOf d).locked = false)) ∧
  (∀ (s : State) (k : BitVec 4) (ms : Word), s.field.running = some k → k = 3 ∨ k = 4 →
    ∃ t, exec (.fieldTestComplete [] [] ms) s = .next t ∧ t.defects = s.defects ∧
      t.log = pushRec s.log (recordOf { code := 0x0E0A, isCount := true } s) ∧
      (∀ a b, (a, b) ∈ t.mem ↔ (a, b) ∈ s.mem ∧ (if k = 3 then a < 2 ^ 34 ∨ 2 ^ 40 ≤ a else a < 2 ^ 40)))

/-- Writes of the BAR0 registers (R11, R266, R404): a write of ev_index latches the record it names; of the words, a write takes
the read-write fields, clears what it writes 1 to clear, and leaves read-only words and words of no register as they are. -/
def Obligations.RegistersRun : Prop :=
  (∀ (s : State) (i : BitVec 12), barWritable s = true →
    exec (.evIndexWrite i) s = .next { s with log := { s.log with evIndex := i, latched := s.log.records[i.toNat]? } }) ∧
  (∀ (s : State) (a : BitVec 24) (w : Word), barWritable s = true →
    a.toNat % 4 ≠ 0 ∨ a.toNat < 0x1000 ∨ 0x18000 ≤ a.toNat ∧ a.toNat < 0x20000 ∨ 0x90000 ≤ a.toNat →
    exec (.registerWrite a w) s = .next s) ∧
  (∀ (s : State) (w : Word), barWritable s = true →
    exec (.registerWrite 0x1008 w) s = .next { s with host := { s.host with events := s.host.events &&& ~~~(w.setWidth 5) } } ∧
    exec (.registerWrite 0x100C w) s = .next { s with host := { s.host with vector := BitVec.ofNat 6 w.toNat } } ∧
    exec (.registerWrite 0x20008 w) s = .next { s with loader := { s.loader with length := w } } ∧
    exec (.registerWrite 0x20010 w) s = .next { s with loader := { s.loader with member := BitVec.ofNat 11 w.toNat } } ∧
    exec (.registerWrite 0x30028 w) s = .next { s with power := { s.power with vector := BitVec.ofNat 6 w.toNat } } ∧
    exec (.registerWrite 0x30118 w) s = .next { s with thermal := { s.thermal with vector := BitVec.ofNat 6 w.toNat } } ∧
    exec (.registerWrite 0x44000 w) s = .next { s with fabricGroup := BitVec.ofNat 12 w.toNat } ∧
    exec (.registerWrite 0x50018 w) s = .next { s with log := { s.log with newEvent := s.log.newEvent && !(w.getLsbD 0) } } ∧
    exec (.registerWrite 0x60018 w) s = .next { s with nv := { s.nv with vector := BitVec.ofNat 6 w.toNat } } ∧
    exec (.registerWrite 0x70004 w) s = .next { s with sec := { s.sec with reqLen := BitVec.ofNat 15 w.toNat } } ∧
    exec (.registerWrite 0x80204 w) s = .next { s with field := { s.field with dieMaskLo := w } } ∧
    exec (.registerWrite 0x10030 w) s = .next (modCtx 0 (fun c => { c with fenceIndex := BitVec.ofNat 12 w.toNat }) s) ∧
    exec (.registerWrite 0x40024 w) s = .next (modPort 0 (fun x => { x with nv := { x.nv with
      planSerial := w ++ x.nv.planSerial.setWidth 32, berPassed := false } }) s)) ∧
  (∀ (s : State) (i : Slot) (w : Word), barWritable s = true → ∃ t, exec (.registerWrite (BitVec.ofNat 24 (0x10010 + 0x1000 * i.val)) w) s =
      .next t ∧ (t.ctxOf i).cq.baseLo = w &&& ~~~0x1F ∧ ∀ j, j ≠ i → t.ctxOf j = s.ctxOf j) ∧
  (∀ (s : State) (a : BitVec 24) (w : Word), barWritable s = false → exec (.registerWrite a w) s = .next s)

/-- LOG_SNAPSHOT (R286 to R288): it writes the whole Log at the address given and counts it, or says the size it needs. -/
def Obligations.SnapshotRuns : Prop :=
  ∀ (s : State) (i : Slot) (q : QId) (r : Ready), headStarts 0x40 i q s r →
    let u := started i q r s
    let log := logImage u i
    (log.length ≤ leAt r.entry.body 8 4 → ∃ t, exec (.logSnapshot i q) s = .next t ∧ t.snapshots = s.snapshots + 1 ∧
      t.mem = writeBytes s.mem (hdmKey i (leAt r.entry.body 0 8)) log ∧ ∃ fv, (t.ctxOf i).cq.held =
        (s.ctxOf i).cq.held ++ [cplRecord (cmdOf q r.idx r.entry) 0 0xFFFF log.length fv]) ∧
    (leAt r.entry.body 8 4 < log.length → ∃ t, exec (.logSnapshot i q) s = .next t ∧ t.snapshots = s.snapshots ∧ t.mem = s.mem ∧
      (t.ctxOf i).cq.held = (s.ctxOf i).cq.held ++ [cplRecord (cmdOf q r.idx r.entry) 0x030A 0xFFFF log.length 0])

/-! ### Collectives -/

/-- COUNTS, SCALAR_SUM, BROADCAST and BARRIER (R210, R213, R225 to R229): a command that is allowed becomes the running instance
of its descriptor with this member's own part in it; a bad one is refused with 0x0709, one without a usable plane with 0x0708. -/
def Obligations.CollectivesStart : Prop :=
  ∀ (c : Slot → QId → Instr) (op k : Nat),
    (c = .counts ∧ op = 0x31 ∧ k = 2) ∨ (c = .scalarSum ∧ op = 0x32 ∧ k = 3) ∨ (c = .broadcast ∧ op = 0x33 ∧ k = 4) ∨
      (c = .barrier ∧ op = 0x34 ∧ k = 5) →
    ∀ (s : State) (i : Slot) (q : QId) (r : Ready), headStarts op i q s r →
    let u := started i q r s
    let b := parseColl r.entry.body
    let x := newInst u i q r k b
    (collRefused u i k b = true → ∃ t, exec (c i q) s = .next t ∧ t.coll = s.coll ∧
      (t.ctxOf i).cq.held = (s.ctxOf i).cq.held ++ [cplRecord (cmdOf q r.idx r.entry) 0x0709 0xFFFF 0 0]) ∧
    (collRefused u i k b = false → portsInService u = [] → ∃ t, exec (c i q) s = .next t ∧ t.coll = s.coll ∧
      (t.ctxOf i).cq.held = (s.ctxOf i).cq.held ++ [cplRecord (cmdOf q r.idx r.entry) 0x0708 0xFFFF 0 0]) ∧
    (collRefused u i k b = false → portsInService u ≠ [] → (∀ m ∈ s.coll.held, (heldKey m).1 ≠ b.descId) →
      instOf s b.descId = none → (∃ m ∈ x.members, m ≠ ownMember u ∧ (k = 4 → m ≠ x.root)) → ∃ t, exec (c i q) s = .next t ∧
      instOf t b.descId = some x ∧ (t.ctxOf i).running = (s.ctxOf i).running ++ [x.cmd] ∧ t.mem = s.mem ∧ t.log = s.log)

/-- Messages of a running instance (R226 to R229): each is taken into the instance; the last one that it waits for completes it
with its result in memory and a record. -/
def Obligations.CollectiveMessagesRun : Prop :=
  (∀ (s : State) (p : PortId) (h : CollHdr) (x : CollInst) (v : List (BitVec 64)), forInstance 2 p h x s → v.length = x.v →
    h.sender.toNat ∉ x.counts.map Prod.fst →
    let y := { x with counts := x.counts ++ [(h.sender.toNat, v)] }
    ((∃ m ∈ x.members, m ∉ y.counts.map Prod.fst) → ∃ t, exec (.countsVec p h v) s = .next t ∧ instOf t x.descId = some y ∧
      changesOnly [.coll] s t) ∧
    ((∀ m ∈ x.members, m ∈ y.counts.map Prod.fst) → (∀ k < x.v, countSum y k (fun _ => true) < 2 ^ 64) →
      ∃ t, exec (.countsVec p h v) s = .next t ∧ instOf t x.descId = none ∧
        t.mem = writeBytes s.mem (hdmKey (collSlot s) x.dst) (countBytes (ownMember s) y) ∧ ∃ fv, (t.ctxOf (collSlot s)).cq.held =
          (s.ctxOf (collSlot s)).cq.held ++ [cplRecord x.cmd 0 0xFFFF 0 fv])) ∧
  (∀ (s : State) (p : PortId) (h : CollHdr) (x : CollInst) (v : List Word), forInstance 3 p h x s → v.length = x.v →
    h.sender.toNat ∉ x.scalars.map Prod.fst →
    let y := { x with scalars := x.scalars ++ [(h.sender.toNat, v)] }
    ((∃ m ∈ x.members, m ∉ y.scalars.map Prod.fst) → ∃ t, exec (.scalarVec p h v) s = .next t ∧ instOf t x.descId = some y ∧
      changesOnly [.coll] s t) ∧
    ((∀ m ∈ x.members, m ∈ y.scalars.map Prod.fst) → ∃ t, exec (.scalarVec p h v) s = .next t ∧ instOf t x.descId = none ∧
      t.mem = writeBytes s.mem (hdmKey (collSlot s) x.dst) (scalarBytes y) ∧ ∃ fv, (t.ctxOf (collSlot s)).cq.held =
        (s.ctxOf (collSlot s)).cq.held ++ [cplRecord x.cmd 0 0xFFFF 0 fv])) ∧
  (∀ (s : State) (p : PortId) (h : CollHdr) (x : CollInst) (data : Bytes), forInstance 4 p h x s → x.root ≠ ownMember s →
    h.sender.toNat = x.root → h.arg.toNat < chunkCount x → h.arg.toNat ∉ x.chunks → data.length = chunkSize x h.arg.toNat →
    x.digest = none → ∃ t, exec (.bcastChunk p h data) s = .next t ∧
      instOf t x.descId = some { x with chunks := x.chunks ++ [h.arg.toNat] } ∧
      t.mem = writeBytes s.mem (hdmKey (collSlot s) (x.dst + 65536 * h.arg.toNat)) data ∧ changesOnly [.coll, .mem] s t) ∧
  (∀ (s : State) (p : PortId) (h : CollHdr) (x : CollInst) (n : Word) (d : Bytes), forInstance 4 p h x s → x.root ≠ ownMember s →
    h.sender.toNat = x.root → n.toNat = x.length → x.digest = none →
    (missingChunks x ≠ [] → roundsLeft s x = true → ∃ t, exec (.bcastEnd p h n d) s = .next t ∧
      instOf t x.descId = some { x with digest := some d, rounds := x.rounds + 1 } ∧ changesOnly [.coll, .out, .ports] s t) ∧
    (missingChunks x = [] → Config.shake256 (s.hdmBytes (collSlot s) x.dst x.length) 64 = d →
      ∃ t, exec (.bcastEnd p h n d) s = .next t ∧ instOf t x.descId = none ∧ t.mem = s.mem ∧ ∃ fv,
        (t.ctxOf (collSlot s)).cq.held = (s.ctxOf (collSlot s)).cq.held ++ [cplRecord x.cmd 0 0xFFFF 0 fv])) ∧
  (∀ (s : State) (p : PortId) (h : CollHdr) (x : CollInst) (c : Instr),
    (c = .bcastDone p h ∧ forInstance 4 p h x s ∧ x.root = ownMember s ∧ x.root ∈ x.arrived) ∨ (c = .arrive p h ∧ forInstance 5 p h x s) →
    let y := { x with arrived := insertNew x.arrived h.sender.toNat }
    ((∃ m ∈ x.members, m ∉ y.arrived) → ∃ t, exec c s = .next t ∧ instOf t x.descId = some y ∧ changesOnly [.coll] s t) ∧
    ((∀ m ∈ x.members, m ∈ y.arrived) → ∃ t, exec c s = .next t ∧ instOf t x.descId = none ∧ t.mem = s.mem ∧ ∃ fv,
      (t.ctxOf (collSlot s)).cq.held = (s.ctxOf (collSlot s)).cq.held ++ [cplRecord x.cmd 0 0xFFFF 0 fv])) ∧
  (∀ (s : State) (p : PortId) (h : CollHdr) (x : CollInst), forInstance 4 p h x s → x.root = ownMember s →
    h.arg.toNat < chunkCount x → (∃ m ∈ x.members, m ≠ x.root ∧ m ∉ x.arrived) →
    let y := { x with reqs := x.reqs ++ [(h.sender.toNat, h.arg.toNat, p.val)] }
    (newRequest x h.sender.toNat h.arg.toNat p.val = true → ∃ t, exec (.bcastReq p h) s = .next t ∧
      instOf t x.descId = some y ∧ changesOnly [.coll, .out, .ports] s t ∧
      (∃ ws : List Codeword, t.out = s.out ++ .plane (chunkPort s h.arg.toNat) (groupEp s) (.bcastChunk (instHdr s x h.arg.toNat)
        (s.hdmBytes (collSlot s) (x.src + 65536 * h.arg.toNat) (chunkSize x h.arg.toNat))) ::
          ws.map (.codeword (chunkPort s h.arg.toNat)))) ∧
    (newRequest x h.sender.toNat h.arg.toNat p.val = false → ∃ t, exec (.bcastReq p h) s = .next t ∧
      instOf t x.descId = some y ∧ changesOnly [.coll] s t)) ∧
  (∀ (s : State) (desc : BitVec 16) (x : CollInst), instOf s desc.toNat = some x → x.kind = 4 → x.root ≠ ownMember s → x.aborts = [] →
    x.digest ≠ none → missingChunks x ≠ [] → roundsLeft s x = true → ∃ t, exec (.bcastReqRound desc) s = .next t ∧
      instOf t desc.toNat = some { x with rounds := x.rounds + 1 } ∧ changesOnly [.coll, .out, .ports] s t) ∧
  (∀ (s : State) (p : PortId) (h : CollHdr) (x : CollInst) (v : List (BitVec 64)), portTakes s p = true → h.chartTag = tagNow s →
    instOf s h.descId.toNat = some x → x.seq = h.seq.toNat → x.aborts = [] → x.kind ≠ 2 → ∃ t, exec (.countsVec p h v) s = .next t ∧
      t.coll = { s.coll with discards := s.coll.discards + 1 } ∧ t.mem = s.mem ∧ t.ctx = s.ctx)

/-- The ends of a collective (R230 to R232): D expires and the member aborts with 0x0701; an ABORT symbol counts for a running
instance; H after the first abort the command completes with the lowest of those noted. -/
def Obligations.CollectiveAbortsRun : Prop :=
  (∀ (s : State) (desc : BitVec 16) (x : CollInst), instOf s desc.toNat = some x → x.aborts = [] →
    ∃ t, exec (.collectiveTimeout desc) s = .next t ∧ instOf t desc.toNat = some { x with aborts := [(ownMember s, 0x0701)] } ∧
      t.ctx = s.ctx ∧ t.mem = s.mem ∧ t.log = pushRec s.log (recordOf
        { code := 0x0701, slot := BitVec.ofNat 8 (((holder s).map fun i => i.val).getD 255), cue := x.descId, value := x.seq } s)) ∧
  (∀ (s : State) (p : PortId) (w : Codeword) (a : AbortSym) (x : CollInst), portTakes s p = true → holder s ≠ none →
    abortOf w = some a → a.chartTag = tagNow s → instOf s a.descId.toNat = some x → x.seq = a.seq.toNat →
    ∃ t, exec (.abortSymbol p w) s = .next t ∧
      instOf t a.descId.toNat = some { x with aborts := insertNew x.aborts (a.initiator.toNat, a.error) } ∧
      (t.portOf p).farStatus = BitVec.ofNat 4 (cwStatus w) ∧ changesOnly [.coll, .ports] s t) ∧
  (∀ (s : State) (p : PortId) (w : Codeword), portTakes s p = true → abortOf w = none →
    ∃ t, exec (.abortSymbol p w) s = .next t ∧ changesOnly [.ports] s t ∧
      t.portOf p = { s.portOf p with farStatus := BitVec.ofNat 4 (cwStatus w) }) ∧
  (∀ (s : State) (desc : BitVec 16) (x : CollInst), instOf s desc.toNat = some x → x.aborts ≠ [] →
    ∃ t, exec (.abortWaitExpire desc) s = .next t ∧ instOf t desc.toNat = none ∧ t.mem = s.mem ∧
      find? (t.ctxOf (collSlot s)).lastSeq x.descId = some x.seq ∧ ∃ fv, (t.ctxOf (collSlot s)).cq.held =
        (s.ctxOf (collSlot s)).cq.held ++ [cplRecord x.cmd (lowestAbort x.aborts).2 (lowestAbort x.aborts).1 0 fv])

/-! ### Gradient reduction -/

/-- REDUCE_SHARDS (R210, R213 to R216, R218): a bad command is refused with 0x0709; one that may run opens its planes' contexts,
takes their answers and retries, and completes once R218's conditions hold. -/
def Obligations.ReductionsStart : Prop :=
  (∀ (s : State) (i : Slot) (q : QId) (r : Ready), headStarts 0x30 i q s r →
    let u := started i q r s
    let b := parseColl r.entry.body
    let w := parseReduce r.entry.body
    (reduceBad u i b w = true → ∃ t, exec (.reduceShards i q) s = .next t ∧ t.coll = s.coll ∧
      (t.ctxOf i).cq.held = (s.ctxOf i).cq.held ++ [cplRecord (cmdOf q r.idx r.entry) 0x0709 0xFFFF 0 0]) ∧
    (reduceBad u i b w = false → w.planeMask = 0 → passIs s (BitVec.ofNat 32 b.seq) = false →
      ∃ t, exec (.reduceShards i q) s = .next t ∧ t.coll.reds = s.coll.reds ∧
        (t.ctxOf i).cq.held = (s.ctxOf i).cq.held ++ [cplRecord (cmdOf q r.idx r.entry) 0x0708 0xFFFF 0 0]) ∧
    (reduceBad u i b w = false → w.planeMask ≠ 0 → (∀ m ∈ s.coll.held, (heldKey m).1 ≠ b.descId) → redOf s b.descId = none →
      ∃ t x, exec (.reduceShards i q) s = .next t ∧ redOf t b.descId = some x ∧ x.step = BitVec.ofNat 32 b.seq ∧
        x.planeMask = w.planeMask ∧ x.answers = (planesOf w.planeMask).map (fun p => (p, .waiting, 0)) ∧ x.owned = ownedBlocks u i ∧
        x.sent = [] ∧ x.aborts = [] ∧ (t.ctxOf i).running = (s.ctxOf i).running ++ [x.cmd] ∧
        ((∀ o ∈ ownedBlocks u i, o.settled = false) → t.mem = s.mem) ∧ (s.coll.counts = [] → t.log = s.log))) ∧
  (∀ (s : State) (p : PortId) (h : CollHdr) (r : Reduction) (a : Nat × PlaneAnswer × Nat),
    forReduction p h.descId.toNat h.seq h.chartTag r s → (r.answers.find? fun a => a.1 == p.val && decide (a.2.1 = .waiting)) = some a →
    (h.sub = 1 → ∃ t, exec (.openReply p h) s = .next t ∧ changesOnly [.coll] s t ∧ redOf t r.descId = some { r with
      answers := r.answers.map fun x => if x.1 == p.val then (p.val, .accepted, a.2.2) else x }) ∧
    (h.sub = 3 → ∃ t, exec (.openReply p h) s = .next t ∧ redOf t r.descId = some { r with
        answers := r.answers.map fun x => if x.1 == p.val then (p.val, .ring, a.2.2) else x } ∧
      t.log = pushRec s.log (recordOf { code := 0x0711, slot := BitVec.ofNat 8 (collSlot s), loc := locPort p, cue := r.descId, value := r.step.toNat } s) ∧ t.mem = s.mem ∧ t.ctx = s.ctx)) ∧
  (∀ (s : State) (p : PortId) (r : Reduction) (a : Nat × PlaneAnswer × Nat),
    (s.coll.reds.find? fun r => r.aborts.isEmpty && r.answers.any fun a => a.1 == p.val && decide (a.2.1 = .waiting)) = some r →
    redOf s r.descId = some r → (r.answers.find? fun a => a.1 == p.val && decide (a.2.1 = .waiting)) = some a →
    (a.2.2 < (descOf s r.descId).retryLimit → ∃ t, exec (.openRetry p) s = .next t ∧ t.log = s.log ∧ redOf t r.descId = some { r with
      answers := r.answers.map fun x => if x.1 == p.val then (p.val, .waiting, a.2.2 + 1) else x }) ∧
    ((descOf s r.descId).retryLimit ≤ a.2.2 → ∃ t, exec (.openRetry p) s = .next t ∧ redOf t r.descId = some { r with
        answers := r.answers.map fun x => if x.1 == p.val then (p.val, .unreachable, 0) else x } ∧
      t.log = pushRec s.log (recordOf { code := 0x0717, slot := BitVec.ofNat 8 (collSlot s), loc := locPort p, cue := r.descId, value := r.step.toNat } s))) ∧
  (∀ (s : State) (r : Reduction), s.coll.reds.find? (reduceDone s (collSlot s)) = some r →
    ∃ t, exec .reduceShardsComplete s = .next t ∧ redOf t r.descId = none ∧ t.mem = s.mem ∧
      find? (t.ctxOf (collSlot s)).lastSeq r.descId = some r.step.toNat ∧ ∃ fv, (t.ctxOf (collSlot s)).cq.held =
        (s.ctxOf (collSlot s)).cq.held ++ [cplRecord r.cmd 0 0xFFFF (settledCount r) fv])

/-- What comes back to the members (R183, R197 to R199): a result settles its block, aborts the step or is asked for again; a
bounce is folded into error memory, a stale one is only reported; a notice gives the blocks their next scales. -/
def Obligations.ReductionResultsRun : Prop :=
  (∀ (s : State) (p : PortId) (x : ResultMsg) (src : BitVec 32) (r : Reduction) (o : OwnedBlock), portTakes s p = true →
    liveRed s x.descId.toNat x.step = some r → redOf s r.descId = some r → ownedOf r x.g.toNat = some o → o.reserved = true →
    o.settled = false →
    (x.kind = 0x11 → ∃ t, exec (.result p ⟨x, src⟩) s = .next t ∧ redOf t r.descId = some { r with aborts := [(ownMember s, 0x0606)] } ∧
      t.log = pushRec s.log (recordOf { code := 0x0606, slot := BitVec.ofNat 8 (collSlot s), cue := ownMember s, value := x.g.toNat } s) ∧
      t.mem = s.mem ∧ t.ctx = s.ctx) ∧
    (x.kind = 0x10 → checksum (x.sums.map fun w => w.toInt) ≠ x.checksum.toNat → o.tries < (descOf s r.descId).retryLimit →
      ∃ t r', exec (.result p ⟨x, src⟩) s = .next t ∧ redOf t r.descId = some r' ∧
        ownedOf r' x.g.toNat = some { o with badSum := true, tries := o.tries + 1 } ∧ t.mem = s.mem ∧
        t.log = pushRec s.log (recordOf { code := 0x060B, slot := BitVec.ofNat 8 (collSlot s), cue := ownMember s, value := x.g.toNat } s)) ∧
    (x.kind = 0x10 → checksum (x.sums.map fun w => w.toInt) = x.checksum.toNat → masksOn s r = false →
      ∃ t r', exec (.result p ⟨x, src⟩) s = .next t ∧ redOf t r.descId = some r' ∧
        ownedOf r' x.g.toNat = some { o with settled := true, result := some { x with sums := [] } })) ∧
  (∀ (s : State) (p : PortId) (b : BlockRef) (r : Reduction) (o : OwnedBlock), portTakes s p = true → liveStep s b.step = some r →
    redOf s r.descId = some r → ownedOf r b.g.toNat = some o → o.reserved = true → o.settled = false →
    o.tries < (descOf s r.descId).retryLimit → ∃ t r', exec (.noBlock p b) s = .next t ∧ redOf t r.descId = some r' ∧
      ownedOf r' b.g.toNat = some { o with tries := o.tries + 1 } ∧ t.log = s.log ∧ t.mem = s.mem) ∧
  (∀ (s : State) (g : Nat) (r : Reduction) (o : OwnedBlock),
    (s.coll.reds.find? fun r => r.aborts.isEmpty && r.owned.any fun o => o.g == g && o.reserved && !o.settled) = some r →
    redOf s r.descId = some r → ownedOf r g = some o →
    (o.tries < (descOf s r.descId).retryLimit → ∃ t r', exec (.resultTimeout g) s = .next t ∧ redOf t r.descId = some r' ∧
      ownedOf r' g = some { o with tries := o.tries + 1 } ∧ t.log = s.log ∧ t.mem = s.mem) ∧
    ((descOf s r.descId).retryLimit ≤ o.tries → o.badSum = true → ∃ t, exec (.resultTimeout g) s = .next t ∧
      redOf t r.descId = some { r with aborts := [(ownMember s, 0x0605)] } ∧ t.mem = s.mem)) ∧
  (∀ (s : State) (p : PortId) (n : ScaleNotice) (i : Slot) (y : Site) (m : Manifest), portTakes s p = true → n.count.toNat ≤ 16 →
    holder s = some i → gradSite s i = some (y, m) →
    ∃ t, exec (.scaleNotice p n) s = .next t ∧ t.mem = putNotice y m n s.mem ∧ changesOnly [.mem] s t) ∧
  (∀ (s : State) (p : PortId) (c : Contribution) (i : Slot) (y : Site) (m : Manifest) (b : WireBlock), portTakes s p = true →
    c.flags.getLsbD 7 = true → c.member.toNat = ownMember s → holder s = some i → gradSite s i = some (y, m) →
    wireBlock y.chart m c.g.toNat = some b → c.kind.toNat < 4 →
    (c.step.toNat < (find? s.coll.lastEncode b.g).getD 0 → ∃ t, exec (.bounce p c) s = .next t ∧ t.mem = s.mem ∧ t.ctx = s.ctx ∧
      t.log = pushRec s.log (recordOf { code := 0x0609, slot := BitVec.ofNat 8 i, cue := ownMember s, value := b.g } s)) ∧
    ((find? s.coll.lastEncode b.g).getD 0 ≤ c.step.toNat → layerErr y.chart b.layer ≠ .absent → ∃ t, exec (.bounce p c) s = .next t ∧
      t.mem = (addFold i y b (layerErr y.chart b.layer) (decodeContribution c) s).mem ∧
      t.ctx = (addFold i y b (layerErr y.chart b.layer) (decodeContribution c) s).ctx))

/-- Ring mode (R220 to R224): a partial is acknowledged and kept or passed on, a hop is confirmed, cancelled or skipped, what
comes too late is folded, and the last member keeps its result until the owner has it. -/
def Obligations.RingsRun : Prop :=
  (∀ (s : State) (p : PortId) (x : ResultMsg) (sender : BitVec 16) (tag : BitVec 32) (r : Reduction),
    forReduction p x.descId.toNat x.step tag r s → x.g.toNat ∉ r.ringCancelled → x.g.toNat ∉ r.ringTaken →
    find? r.ringWait x.g.toNat = none → x.g.toNat ∉ r.withheld → x.g.toNat ∉ r.ringLate → x.g.toNat ∉ r.sent →
    ∃ t, exec (.ringPartial p x sender tag) s = .next t ∧ redOf t r.descId = some { r with
      ringTaken := r.ringTaken ++ [x.g.toNat], ringHeld := r.ringHeld ++ [(x.g.toNat, x)] } ∧ changesOnly [.coll, .out, .ports] s t) ∧
  (∀ (s : State) (p : PortId) (h : CollHdr) (r : Reduction) (x : RingHop), forReduction p h.descId.toNat h.seq h.chartTag r s →
    hopOf r h.arg.toNat = some x → fromTarget s x h = true →
    (∃ t, exec (.hopAck p h) s = .next t ∧ changesOnly [.coll] s t ∧ redOf t r.descId = some { r with
      ringHops := r.ringHops.filter fun y => !(y.g == x.g) }) ∧
    (x.cancelSent = true → x.msg.g.toNat = x.g → x.position + 1 < groupSizeOf s → ∃ t, exec (.cancelAck p h) s = .next t ∧
      redOf t r.descId = some { r with ringHops := (r.ringHops.filter fun y => !(y.g == x.g)) ++
        [{ g := x.g, position := x.position + 1, cancelSent := false, msg := x.msg }] } ∧ t.mem = s.mem ∧
      t.log = pushRec s.log (recordOf { code := 0x0712, slot := BitVec.ofNat 8 (collSlot s), cue := r.descId, value := ringMember (groupSizeOf s) x.g x.position } s))) ∧
  (∀ (s : State) (p : PortId) (h : CollHdr) (r : Reduction), forReduction p h.descId.toNat h.seq h.chartTag r s →
    (h.arg.toNat ∉ r.ringTaken → find? r.ringWait h.arg.toNat = none → ∃ t, exec (.hopCancel p h) s = .next t ∧
      redOf t r.descId = some { r with ringCancelled := insertNew r.ringCancelled h.arg.toNat, ringWait := dropPair r.ringWait h.arg.toNat } ∧
      changesOnly [.coll, .out, .ports] s t) ∧
    (h.arg.toNat ∈ r.ringTaken → ∃ t, exec (.hopCancel p h) s = .next t ∧ changesOnly [.out, .ports] s t ∧
      ∃ ws : List Codeword, t.out = s.out ++ .plane p (memberEp s h.sender.toNat) (.hopAck (ownHdr s r.descId r.step h.arg.toNat 0 0)) ::
        ws.map (.codeword p))) ∧
  (∀ (s : State) (g : Nat) (r : Reduction) (x : RingHop), (s.coll.reds.find? fun r => r.aborts.isEmpty && (hopOf r g).isSome) = some r →
    redOf s r.descId = some r → hopOf r g = some x → x.cancelSent = false → ∃ t, exec (.hopTimeout g) s = .next t ∧
      redOf t r.descId = some { r with ringHops := r.ringHops.map fun y => if y.g == x.g then { y with cancelSent := true } else y } ∧
      changesOnly [.coll, .out, .ports] s t) ∧
  (∀ (s : State) (g : Nat) (r : Reduction) (x : ResultMsg),
    (s.coll.reds.find? fun r => r.aborts.isEmpty && (find? r.ringHeld g).isSome) = some r → redOf s r.descId = some r →
    find? r.ringHeld g = some x → ringPos (groupSizeOf s) x.g.toNat (ownMember s) + 1 < groupSizeOf s →
    ∃ t, exec (.partialHoldTimeout g) s = .next t ∧ redOf t r.descId = some { r with
      ringHeld := dropPair r.ringHeld g, ringLate := insertNew r.ringLate g,
      ringHops := r.ringHops ++ [{ g := x.g.toNat, position := ringPos (groupSizeOf s) x.g.toNat (ownMember s) + 1, cancelSent := false, msg := x }] } ∧
      changesOnly [.coll, .out, .ports] s t) ∧
  (∀ (s : State) (g : Nat) (r : Reduction) (c : Contribution),
    (s.coll.reds.find? fun r => r.aborts.isEmpty && (find? r.ringWait g).isSome) = some r → redOf s r.descId = some r →
    find? r.ringWait g = some c → ∃ t, exec (.ringContributionTimeout g) s = .next t ∧ redOf t r.descId = some { r with
      ringWait := dropPair r.ringWait g, ringLate := insertNew r.ringLate g }) ∧
  (∀ (s : State) (p : PortId) (b : BlockRef), portTakes s p = true →
    (∀ x, keptOf s b.step b.g.toNat = some x → ∃ t, exec (.resultReq p b) s = .next t ∧ changesOnly [.out, .ports] s t ∧
      ∃ ws : List Codeword, t.out = s.out ++ .plane p (memberEp s x.owner.toNat) (.ringResult x) :: ws.map (.codeword p)) ∧
    (∃ t, exec (.resultAck p b) s = .next t ∧ changesOnly [.coll] s t ∧
      t.coll.kept = s.coll.kept.filter fun k => !(k.1 == b.step.toNat && k.2.1 == b.g.toNat)))

/-! ### Frames -/

/-- Start-up, clocks, supplies, power and cooling: each command answers a next state, and changes no part of the state but those named. -/
def Obligations.StartUpAndSupplyFrames : Prop :=
  (∀ (c : Instr) (s : State),
    (∃ x0, c = .houseRstNAssert x0) ∨ c = .inputPowerLoss →
    ∃ t, exec c s = .next t ∧ changesOnly [.out, .start, .log, .host, .ctx, .sec, .loader, .installed, .tiles,
      .dies, .links, .signals, .defects, .selfTest, .mem, .power, .thermal, .nv, .ports, .fabricGroup, .pattern,
      .field, .coll, .observed, .snapshots, .badShards] s t) ∧
  (∀ (c : Instr) (s : State),
    c = .houseRstNRise →
    ∃ t, exec c s = .next t ∧ changesOnly [.out, .ident, .start, .log, .host, .sec, .dies, .defects, .power,
      .nv, .ports, .fabricGroup] s t) ∧
  (∀ (c : Instr) (s : State),
    c = .keysUp →
    ∃ t, exec c s = .next t ∧ changesOnly [.start, .sec] s t) ∧
  (∀ (c : Instr) (s : State),
    (∃ x0, c = .coolantGateStart x0) →
    ∃ t, exec c s = .next t ∧ changesOnly [.out, .start, .log, .host, .thermal] s t) ∧
  (∀ (c : Instr) (s : State),
    c = .coolantGatePass ∨ c = .credentialWindowExpire →
    ∃ t, exec c s = .next t ∧ changesOnly [.start] s t) ∧
  (∀ (c : Instr) (s : State),
    c = .coolantGateTimeout →
    ∃ t, exec c s = .next t ∧ changesOnly [.out, .start, .log, .host] s t) ∧
  (∀ (c : Instr) (s : State),
    (∃ x0, c = .deckZoneUp x0) →
    ∃ t, exec c s = .next t ∧ changesOnly [.out, .start, .log, .host, .installed, .tiles, .dies, .links,
      .signals, .mem, .power, .ports] s t) ∧
  (∀ (c : Instr) (s : State),
    (∃ x0 x1, c = .deckCheck x0 x1) →
    ∃ t, exec c s = .next t ∧ changesOnly [.out, .start, .log, .host, .ctx, .loader, .installed, .tiles, .dies,
      .links, .signals, .defects, .mem, .thermal, .nv, .coll] s t) ∧
  (∀ (c : Instr) (s : State),
    (∃ x0, c = .stackBringUp x0) →
    ∃ t, exec c s = .next t ∧ changesOnly [.free, .out, .start, .log, .host, .sec, .installed, .tiles, .dies,
      .links, .signals, .mem, .power, .ports] s t) ∧
  (∀ (c : Instr) (s : State),
    c = .stackInitialisationDone →
    ∃ t, exec c s = .next t ∧ changesOnly [.out, .start, .log, .host, .sec] s t) ∧
  (∀ (c : Instr) (s : State),
    c = .pwrGoodLoss →
    ∃ t, exec c s = .next t ∧ changesOnly [.out, .start, .log, .host, .ctx, .loader, .installed, .tiles, .dies,
      .links, .signals, .mem, .power, .coll] s t) ∧
  (∀ (c : Instr) (s : State),
    c = .pwrGoodRestore →
    ∃ t, exec c s = .next t ∧ changesOnly [.out, .start, .log, .host, .loader, .installed, .dies, .power] s t) ∧
  (∀ (c : Instr) (s : State),
    c = .trayRelease →
    ∃ t, exec c s = .next t ∧ changesOnly [.out, .start, .log, .host, .ctx, .loader, .installed, .tiles, .dies,
      .links, .signals, .mem, .power, .ports, .coll] s t) ∧
  (∀ (c : Instr) (s : State),
    c = .trayReleaseWithdrawn →
    ∃ t, exec c s = .next t ∧ changesOnly [.out, .start, .log, .host, .loader, .installed, .dies, .power,
      .ports] s t) ∧
  (∀ (c : Instr) (s : State),
    (∃ x0 x1, c = .alertPinAssert x0 x1) →
    ∃ t, exec c s = .next t ∧ changesOnly [.free, .out, .log, .host, .power] s t) ∧
  (∀ (c : Instr) (s : State),
    c = .oscillatorRetune →
    ∃ t, exec c s = .next t ∧ changesOnly [.free, .out, .log, .host, .selfTest, .power] s t) ∧
  (∀ (c : Instr) (s : State),
    (∃ x0, c = .alertPinClear x0) ∨ (∃ x0, c = .thermalRampCheck x0) ∨ (∃ x0, c = .energyAccumulate x0) →
    ∃ t, exec c s = .next t ∧ changesOnly [.power] s t) ∧
  (∀ (c : Instr) (s : State),
    (∃ x0, c = .clampRelease x0) ∨ c = .leaseExpire →
    ∃ t, exec c s = .next t ∧ changesOnly [.out, .log, .host, .power] s t) ∧
  (∀ (c : Instr) (s : State),
    (∃ x0, c = .deckZoneLoss x0) →
    ∃ t, exec c s = .next t ∧ changesOnly [.out, .start, .log, .host, .ctx, .sec, .loader, .installed, .tiles,
      .mem, .power, .ports, .coll] s t) ∧
  (∀ (c : Instr) (s : State),
    (∃ x0, c = .dieSupplyTrip x0) →
    ∃ t, exec c s = .next t ∧ changesOnly [.out, .log, .host, .dies, .power] s t) ∧
  (∀ (c : Instr) (s : State),
    (∃ x0 x1, c = .marginSample x0 x1) →
    ∃ t, exec c s = .next t ∧ changesOnly [.out, .log, .host, .dies, .selfTest, .power] s t) ∧
  (∀ (c : Instr) (s : State),
    (∃ x0, c = .dieIsolation x0) →
    ∃ t, exec c s = .next t ∧ changesOnly [.out, .log, .host, .installed, .tiles, .dies, .links, .mem] s t) ∧
  (∀ (c : Instr) (s : State),
    (∃ x0, c = .dieRegulatorLatchOff x0) →
    ∃ t, exec c s = .next t ∧ changesOnly [.dies, .mem, .power] s t) ∧
  (∀ (c : Instr) (s : State),
    (∃ x0, c = .dieRailRampStart x0) →
    ∃ t, exec c s = .next t ∧ changesOnly [.dies, .power] s t) ∧
  (∀ (c : Instr) (s : State),
    (∃ x0, c = .dieRailsUp x0) ∨ (∃ x0, c = .thermalModelAdvance x0) →
    ∃ t, exec c s = .next t ∧ changesOnly [.dies] s t) ∧
  (∀ (c : Instr) (s : State),
    (∃ x0 x1, c = .dieClockLockTimeout x0 x1) →
    ∃ t, exec c s = .next t ∧ changesOnly [.out, .log, .host, .installed, .tiles, .dies, .links, .power] s t) ∧
  (∀ (c : Instr) (s : State),
    (∃ x0, c = .powerControlInterval x0) →
    ∃ t, exec c s = .next t ∧ changesOnly [.out, .log, .host, .installed, .power] s t) ∧
  (∀ (c : Instr) (s : State),
    (∃ x0, c = .deferredSleepStop x0) →
    ∃ t, exec c s = .next t ∧ changesOnly [.out, .tiles, .dies, .links, .mem] s t) ∧
  (∀ (c : Instr) (s : State),
    (∃ x0 x1, c = .droopDetect x0 x1) →
    ∃ t, exec c s = .next t ∧ changesOnly [.tiles, .power] s t) ∧
  (∀ (c : Instr) (s : State),
    (∃ x0, c = .droopRecover x0) →
    ∃ t, exec c s = .next t ∧ changesOnly [.tiles] s t) ∧
  (∀ (c : Instr) (s : State),
    (∃ x0, c = .telemetryUpdate x0) →
    ∃ t, exec c s = .next t ∧ changesOnly [.ctx, .selfTest, .thermal] s t) ∧
  (∀ (c : Instr) (s : State),
    (∃ x0, c = .sensorSample x0) →
    ∃ t, exec c s = .next t ∧ changesOnly [.out, .log, .host, .selfTest, .power, .thermal] s t) ∧
  (∀ (c : Instr) (s : State),
    c = .throttleStep ∨ c = .throttleClampTimeout ∨ (∃ x0, c = .trayRead x0) ∨ c = .trayReadingStale ∨ c =
    .flowClampClear →
    ∃ t, exec c s = .next t ∧ changesOnly [.out, .log, .host, .power, .thermal] s t) ∧
  (∀ (c : Instr) (s : State),
    c = .thermalTrip ∨ c = .flowPowerOff →
    ∃ t, exec c s = .next t ∧ changesOnly [.out, .start, .log, .host, .ctx, .sec, .loader, .installed, .tiles,
      .dies, .links, .signals, .mem, .power, .thermal, .ports, .coll] s t) ∧
  (∀ (c : Instr) (s : State),
    (∃ x0 x1, c = .sensorPairRetest x0 x1) →
    ∃ t, exec c s = .next t ∧ changesOnly [.out, .log, .host, .selfTest, .thermal] s t) ∧
  (∀ (c : Instr) (s : State),
    c = .heatForecast →
    ∃ t, exec c s = .next t ∧ changesOnly [.out, .log, .host, .dies, .power, .thermal] s t) ∧
  (∀ (c : Instr) (s : State),
    c = .suddenStopRecover →
    ∃ t, exec c s = .next t ∧ changesOnly [.power, .thermal] s t) ∧
  (∀ (c : Instr) (s : State),
    c = .coolantHalt →
    ∃ t, exec c s = .next t ∧ changesOnly [.out, .log, .host, .ctx, .installed, .tiles, .links, .signals,
      .thermal, .coll] s t) ∧
  (∀ (c : Instr) (s : State),
    c = .halted →
    ∃ t, exec c s = .next t ∧ changesOnly [.out, .log, .host, .loader, .installed, .tiles, .dies, .links,
      .signals, .mem, .thermal] s t) ∧
  (∀ (c : Instr) (s : State),
    c = .haltExit →
    ∃ t, exec c s = .next t ∧ changesOnly [.out, .log, .host, .loader, .installed, .dies, .power, .thermal] s t) ∧
  (∀ (c : Instr) (s : State),
    (∃ x0, c = .heatBalanceCheck x0) →
    ∃ t, exec c s = .next t ∧ changesOnly [.out, .log, .host, .thermal] s t)

/-- The Chart loader, faults and background work, field tests and the registers: each command answers a next state, and changes no part of the state but those named. -/
def Obligations.LoaderAndFaultFrames : Prop :=
  (∀ (c : Instr) (s : State),
    (∃ x0, c = .stage x0) ∨ (∃ x0, c = .unstage x0) →
    ∃ t, exec c s = .next t ∧ changesOnly [.out, .log, .host, .loader, .installed, .tiles, .dies, .links,
      .signals, .mem] s t) ∧
  (∀ (c : Instr) (s : State),
    (∃ x0 x1, c = .loadGoReservedOp x0 x1) ∨ c = .unstageDone ∨ c = .loadStatusRead →
    ∃ t, exec c s = .next t ∧ changesOnly [.loader] s t) ∧
  (∀ (c : Instr) (s : State),
    c = .chartCheckDone →
    ∃ t, exec c s = .next t ∧ changesOnly [.out, .log, .host, .ctx, .loader, .installed, .tiles, .dies, .links,
      .signals, .defects, .mem, .coll] s t) ∧
  (∀ (c : Instr) (s : State),
    c = .chartInstallComplete →
    ∃ t, exec c s = .next t ∧ changesOnly [.out, .loader, .installed, .tiles, .links, .mem] s t) ∧
  (∀ (c : Instr) (s : State),
    c = .regionRestage →
    ∃ t, exec c s = .next t ∧ changesOnly [.out, .log, .host, .ctx, .loader, .installed, .tiles, .dies, .links,
      .signals, .mem, .coll] s t) ∧
  (∀ (c : Instr) (s : State),
    (∃ x0, c = .selfTestStart x0) →
    ∃ t, exec c s = .next t ∧ changesOnly [.out, .log, .host, .selfTest] s t) ∧
  (∀ (c : Instr) (s : State),
    (∃ x0 x1, c = .selfTestResult x0 x1) →
    ∃ t, exec c s = .next t ∧ changesOnly [.out, .log, .host, .ctx, .loader, .installed, .tiles, .dies, .links,
      .signals, .defects, .selfTest, .mem, .thermal, .nv, .coll] s t) ∧
  (∀ (c : Instr) (s : State),
    (∃ x0, c = .backgroundScrub x0) →
    ∃ t, exec c s = .next t ∧ changesOnly [.out, .log, .host, .ctx, .loader, .installed, .tiles, .dies, .links,
      .signals, .selfTest, .mem, .ports, .coll] s t) ∧
  (∀ (c : Instr) (s : State),
    (∃ x0, c = .deckWeightRecheck x0) ∨ (∃ x0 x1, c = .modelStoreRecheck x0 x1) →
    ∃ t, exec c s = .next t ∧ changesOnly [.out, .log, .host, .ctx, .installed, .tiles, .links, .signals,
      .selfTest, .ports] s t) ∧
  (∀ (c : Instr) (s : State),
    (∃ x0, c = .heartbeatSend x0) ∨ (∃ x0 x1, c = .meshCrcError x0 x1) →
    ∃ t, exec c s = .next t ∧ changesOnly [.out, .links] s t) ∧
  (∀ (c : Instr) (s : State),
    (∃ x0 x1, c = .heartbeatReceive x0 x1) →
    ∃ t, exec c s = .next t ∧ changesOnly [.tiles, .links] s t) ∧
  (∀ (c : Instr) (s : State),
    (∃ x0, c = .tileSilent x0) →
    ∃ t, exec c s = .next t ∧ changesOnly [.out, .log, .host, .installed, .tiles, .links, .selfTest] s t) ∧
  (∀ (c : Instr) (s : State),
    (∃ x0 x1, c = .meshReplayReq x0 x1) →
    ∃ t, exec c s = .next t ∧ changesOnly [.out, .log, .host, .ctx, .loader, .installed, .tiles, .dies, .links,
      .signals, .defects, .selfTest, .mem, .coll] s t) ∧
  (∀ (c : Instr) (s : State),
    c = .curtainEnd →
    ∃ t, exec c s = .next t ∧ changesOnly [.free, .out, .ident, .log, .host, .ctx, .sec, .loader, .installed,
      .tiles, .dies, .links, .signals, .mem, .ports, .coll] s t) ∧
  (∀ (c : Instr) (s : State),
    (∃ x0, c = .evIndexWrite x0) →
    ∃ t, exec c s = .next t ∧ changesOnly [.log] s t) ∧
  (∀ (c : Instr) (s : State),
    c = .fieldTileCheck ∨ c = .fieldCellColumnBist ∨ c = .fieldDeckCheck ∨ c = .fieldStackMarch →
    ∃ t, exec c s = .next t ∧ changesOnly [.out, .log, .host, .dies, .field] s t) ∧
  (∀ (c : Instr) (s : State),
    (∃ x0 x1 x2, c = .fieldTestComplete x0 x1 x2) →
    ∃ t, exec c s = .next t ∧ changesOnly [.out, .log, .host, .ctx, .loader, .installed, .tiles, .dies, .links,
      .signals, .defects, .mem, .thermal, .nv, .field, .coll] s t) ∧
  (∀ (c : Instr) (s : State),
    (∃ x0 x1, c = .registerWrite x0 x1) →
    ∃ t, exec c s = .next t ∧ changesOnly [.free, .out, .log, .host, .ctx, .sec, .loader, .installed, .tiles,
      .dies, .links, .signals, .defects, .mem, .power, .thermal, .nv, .ports, .fabricGroup, .pattern, .field,
      .coll] s t)

/-- The Prompter's cues, passes, weights and shards: each command answers a next state, and changes no part of the state but those named. -/
def Obligations.CueAndWeightFrames : Prop :=
  (∀ (c : Instr) (s : State),
    c = .replayOpenLayer →
    ∃ t, exec c s = .next t ∧ changesOnly [.out, .log, .host, .ctx, .installed, .tiles, .links, .signals, .mem,
      .ports] s t) ∧
  (∀ (c : Instr) (s : State),
    (∃ x0 x1 x2, c = .cueIssue x0 x1 x2) →
    ∃ t, exec c s = .next t ∧ changesOnly [.free, .out, .log, .host, .ctx, .loader, .installed, .tiles, .dies,
      .links, .signals, .selfTest, .mem, .thermal, .ports, .coll] s t) ∧
  (∀ (c : Instr) (s : State),
    (∃ x0, c = .deferredEntryComplete x0) →
    ∃ t, exec c s = .next t ∧ changesOnly [.out, .log, .host, .ctx, .installed, .tiles, .links, .signals,
      .selfTest, .mem] s t) ∧
  (∀ (c : Instr) (s : State),
    (∃ x0 x1 x2, c = .cueComplete x0 x1 x2) →
    ∃ t, exec c s = .next t ∧ changesOnly [.out, .log, .host, .ctx, .loader, .installed, .tiles, .dies, .links,
      .signals, .selfTest, .mem, .ports, .coll] s t) ∧
  (∀ (c : Instr) (s : State),
    (∃ x0 x1 x2, c = .routeSignalArrive x0 x1 x2) →
    ∃ t, exec c s = .next t ∧ changesOnly [.tiles, .signals] s t) ∧
  (∀ (c : Instr) (s : State),
    (∃ x0, c = .prompterWaitLong x0) →
    ∃ t, exec c s = .next t ∧ changesOnly [.out, .log, .host, .tiles] s t) ∧
  (∀ (c : Instr) (s : State),
    c = .passComplete →
    ∃ t, exec c s = .next t ∧ changesOnly [.out, .log, .host, .ctx, .installed, .tiles, .signals] s t) ∧
  (∀ (c : Instr) (s : State),
    (∃ x0 x1, c = .runPass x0 x1) →
    ∃ t, exec c s = .next t ∧ changesOnly [.out, .log, .host, .ctx, .installed, .tiles, .signals, .coll] s t) ∧
  (∀ (c : Instr) (s : State),
    (∃ x0 x1, c = .bindManifest x0 x1) ∨ (∃ x0 x1, c = .releaseModel x0 x1) →
    ∃ t, exec c s = .next t ∧ changesOnly [.out, .log, .host, .ctx] s t) ∧
  (∀ (c : Instr) (s : State),
    (∃ x0 x1, c = .loadModel x0 x1) ∨ (∃ x0 x1, c = .swapModel x0 x1) →
    ∃ t, exec c s = .next t ∧ changesOnly [.out, .log, .host, .ctx, .ports] s t) ∧
  (∀ (c : Instr) (s : State),
    c = .swapLayerReplace →
    ∃ t, exec c s = .next t ∧ changesOnly [.out, .log, .host, .ctx, .tiles, .mem, .ports] s t) ∧
  (∀ (c : Instr) (s : State),
    (∃ x0 x1, c = .shardData x0 x1) →
    ∃ t, exec c s = .next t ∧ changesOnly [.out, .log, .host, .ctx, .installed, .tiles, .links, .signals, .mem,
      .ports, .badShards] s t) ∧
  (∀ (c : Instr) (s : State),
    (∃ x0 x1, c = .shardNack x0 x1) →
    ∃ t, exec c s = .next t ∧ changesOnly [.out, .log, .host, .ctx, .installed, .tiles, .links, .signals,
      .ports, .badShards] s t) ∧
  (∀ (c : Instr) (s : State),
    (∃ x0, c = .shardReqTimeout x0) ∨ (∃ x0, c = .shardRetryGap x0) →
    ∃ t, exec c s = .next t ∧ changesOnly [.out, .log, .host, .ctx, .installed, .tiles, .links, .signals,
      .ports] s t) ∧
  (∀ (c : Instr) (s : State),
    (∃ x0 x1, c = .shardAck x0 x1) →
    ∃ t, exec c s = .next t ∧ changesOnly [.out, .log, .host, .ctx, .badShards] s t) ∧
  (∀ (c : Instr) (s : State),
    (∃ x0 x1, c = .patchAckTimeout x0 x1) →
    ∃ t, exec c s = .next t ∧ changesOnly [.out, .log, .host, .ctx, .installed, .tiles, .links, .signals,
      .ports, .coll] s t) ∧
  (∀ (c : Instr) (s : State),
    c = .pilotStreamEnd →
    ∃ t, exec c s = .next t ∧ changesOnly [.out, .ctx, .ports] s t)

/-- Reductions and collectives: each command answers a next state, and changes no part of the state but those named. -/
def Obligations.GroupFrames : Prop :=
  (∀ (c : Instr) (s : State),
    (∃ x0 x1, c = .reduceShards x0 x1) →
    ∃ t, exec c s = .next t ∧ changesOnly [.out, .log, .host, .ctx, .installed, .tiles, .links, .signals, .mem,
      .ports, .coll] s t) ∧
  (∀ (c : Instr) (s : State),
    (∃ x0 x1, c = .counts x0 x1) ∨ (∃ x0 x1, c = .scalarSum x0 x1) ∨ (∃ x0 x1, c = .broadcast x0 x1) ∨ (∃ x0 x1, c
    = .barrier x0 x1) ∨ (∃ x0 x1, c = .hopCancel x0 x1) ∨ (∃ x0 x1 x2, c = .countsVec x0 x1 x2) ∨ (∃ x0 x1 x2, c =
    .scalarVec x0 x1 x2) ∨ (∃ x0 x1 x2, c = .bcastChunk x0 x1 x2) ∨ (∃ x0 x1 x2 x3, c = .bcastEnd x0 x1 x2 x3) ∨
    (∃ x0 x1, c = .bcastDone x0 x1) ∨ (∃ x0 x1, c = .arrive x0 x1) ∨ (∃ x0 x1, c = .bcastReq x0 x1) →
    ∃ t, exec c s = .next t ∧ changesOnly [.out, .log, .host, .ctx, .mem, .ports, .coll] s t) ∧
  (∀ (c : Instr) (s : State),
    (∃ x0 x1, c = .abortSymbol x0 x1) ∨ (∃ x0, c = .openRetry x0) →
    ∃ t, exec c s = .next t ∧ changesOnly [.out, .log, .host, .ports, .coll] s t) ∧
  (∀ (c : Instr) (s : State),
    (∃ x0 x1, c = .openReply x0 x1) ∨ (∃ x0 x1, c = .hopAck x0 x1) ∨ (∃ x0, c = .collectiveTimeout x0) →
    ∃ t, exec c s = .next t ∧ changesOnly [.out, .log, .host, .coll] s t) ∧
  (∀ (c : Instr) (s : State),
    (∃ x0 x1, c = .scaleNotice x0 x1) →
    ∃ t, exec c s = .next t ∧ changesOnly [.mem] s t) ∧
  (∀ (c : Instr) (s : State),
    (∃ x0 x1, c = .bounce x0 x1) ∨ (∃ x0, c = .ringContributionTimeout x0) →
    ∃ t, exec c s = .next t ∧ changesOnly [.out, .log, .host, .ctx, .mem, .coll] s t) ∧
  (∀ (c : Instr) (s : State),
    (∃ x0 x1, c = .result x0 x1) ∨ (∃ x0 x1, c = .noBlock x0 x1) ∨ (∃ x0, c = .resultTimeout x0) ∨ (∃ x0 x1 x2 x3,
    c = .ringPartial x0 x1 x2 x3) ∨ (∃ x0 x1, c = .cancelAck x0 x1) ∨ (∃ x0, c = .hopTimeout x0) ∨ (∃ x0, c =
    .partialHoldTimeout x0) →
    ∃ t, exec c s = .next t ∧ changesOnly [.out, .log, .host, .ctx, .signals, .mem, .ports, .coll] s t) ∧
  (∀ (c : Instr) (s : State),
    c = .reduceShardsComplete ∨ (∃ x0, c = .bcastReqRound x0) →
    ∃ t, exec c s = .next t ∧ changesOnly [.out, .log, .host, .ctx, .ports, .coll] s t) ∧
  (∀ (c : Instr) (s : State),
    (∃ x0 x1, c = .resultReq x0 x1) →
    ∃ t, exec c s = .next t ∧ changesOnly [.out, .ports] s t) ∧
  (∀ (c : Instr) (s : State),
    (∃ x0 x1, c = .resultAck x0 x1) →
    ∃ t, exec c s = .next t ∧ changesOnly [.coll] s t) ∧
  (∀ (c : Instr) (s : State),
    (∃ x0, c = .abortWaitExpire x0) →
    ∃ t, exec c s = .next t ∧ changesOnly [.out, .log, .host, .ctx, .installed, .tiles, .links, .signals, .coll]
      s t)

/-- Plane ports, host attach, queues and LOG_SNAPSHOT: each command answers a next state, and changes no part of the state but those named. -/
def Obligations.PortAndQueueFrames : Prop :=
  (∀ (c : Instr) (s : State),
    (∃ x0 x1, c = .queueEntryWrite x0 x1) →
    ∃ t, exec c s = .next t ∧ changesOnly [.out, .log, .host, .ctx, .mem, .observed] s t) ∧
  (∀ (c : Instr) (s : State),
    (∃ x0 x1, c = .entryRefusal x0 x1) ∨ (∃ x0 x1, c = .nop x0 x1) ∨ (∃ x0 x1, c = .queueCancel x0 x1) ∨ (∃ x0 x1,
    c = .queueCancelComplete x0 x1) ∨ (∃ x0, c = .cqEnable x0) ∨ c = .activeLinkDown ∨ (∃ x0, c = .cxlPortReset
    x0) →
    ∃ t, exec c s = .next t ∧ changesOnly [.out, .log, .host, .ctx] s t) ∧
  (∀ (c : Instr) (s : State),
    (∃ x0 x1, c = .logSnapshot x0 x1) →
    ∃ t, exec c s = .next t ∧ changesOnly [.out, .log, .host, .ctx, .mem, .snapshots] s t) ∧
  (∀ (c : Instr) (s : State),
    (∃ x0, c = .completionRecordWrite x0) →
    ∃ t, exec c s = .next t ∧ changesOnly [.out, .ctx, .mem] s t) ∧
  (∀ (c : Instr) (s : State),
    (∃ x0, c = .completionWriteDone x0) →
    ∃ t, exec c s = .next t ∧ changesOnly [.out, .host, .ctx] s t) ∧
  (∀ (c : Instr) (s : State),
    (∃ x0 x1, c = .cqHeadWrite x0 x1) →
    ∃ t, exec c s = .next t ∧ changesOnly [.ctx] s t) ∧
  (∀ (c : Instr) (s : State),
    (∃ x0, c = .takeOver x0) ∨ c = .failover ∨ c = .autoFailoverTimeout ∨ (∃ x0 x1, c = .standbyLinkUp x0 x1) ∨ c
    = .failoverRecordsWritten ∨ (∃ x0, c = .standbyAccess x0) ∨ (∃ x0 x1, c = .hdmAccessOutside x0 x1) ∨ (∃ x0 x1,
    c = .ideKm x0 x1) ∨ (∃ x0 x1 x2, c = .activeLinkReturn x0 x1 x2) →
    ∃ t, exec c s = .next t ∧ changesOnly [.out, .log, .host] s t) ∧
  (∀ (c : Instr) (s : State),
    (∃ x0 x1, c = .doeDiscovery x0 x1) ∨ (∃ x0, c = .cdatTableAccess x0) ∨ (∃ x0, c = .trainingResend x0) →
    ∃ t, exec c s = .next t ∧ changesOnly [.out] s t) ∧
  (∀ (c : Instr) (s : State),
    c = .patternGo →
    ∃ t, exec c s = .next t ∧ changesOnly [.out, .log, .host, .pattern] s t) ∧
  (∀ (c : Instr) (s : State),
    c = .patternStop →
    ∃ t, exec c s = .next t ∧ changesOnly [.free, .out, .log, .host, .pattern] s t) ∧
  (∀ (c : Instr) (s : State),
    (∃ x0, c = .portTrain x0) ∨ (∃ x0 x1, c = .testReq x0 x1) →
    ∃ t, exec c s = .next t ∧ changesOnly [.ports] s t) ∧
  (∀ (c : Instr) (s : State),
    (∃ x0, c = .portDisable x0) ∨ (∃ x0 x1, c = .pmdTrained x0 x1) ∨ (∃ x0 x1, c = .idBlock x0 x1) ∨ (∃ x0 x1 x2,
    c = .berTestEnd x0 x1 x2) ∨ (∃ x0 x1 x2, c = .testResult x0 x1 x2) ∨ (∃ x0 x1, c = .keyFinish x0 x1) ∨ (∃ x0
    x1 x2 x3 x4, c = .creditInit x0 x1 x2 x3 x4) ∨ (∃ x0, c = .ready x0) ∨ (∃ x0 x1, c = .trainingFlitDiscard x0
    x1) ∨ (∃ x0, c = .codewordLockLoss x0) ∨ (∃ x0, c = .farEndDown x0) ∨ (∃ x0, c = .framingLockLost x0) →
    ∃ t, exec c s = .next t ∧ changesOnly [.out, .log, .host, .ports] s t) ∧
  (∀ (c : Instr) (s : State),
    (∃ x0 x1, c = .preFecMonitor x0 x1) ∨ (∃ x0 x1, c = .hopRekey x0 x1) →
    ∃ t, exec c s = .next t ∧ changesOnly [.free, .out, .log, .host, .ports] s t) ∧
  (∀ (c : Instr) (s : State),
    (∃ x0, c = .framingLock x0) →
    ∃ t, exec c s = .next t ∧ changesOnly [.out, .ports] s t) ∧
  (∀ (c : Instr) (s : State),
    (∃ x0, c = .keyHello x0) ∨ (∃ x0, c = .hopKeyLimit x0) →
    ∃ t, exec c s = .next t ∧ changesOnly [.free, .out, .ports] s t) ∧
  (∀ (c : Instr) (s : State),
    (∃ x0 x1, c = .keyReply x0 x1) →
    ∃ t, exec c s = .next t ∧ changesOnly [.free, .out, .log, .host, .sec, .ports] s t) ∧
  (∀ (c : Instr) (s : State),
    (∃ x0 x1, c = .dataFlitReceive x0 x1) ∨ (∃ x0 x1, c = .nakReceive x0 x1) ∨ (∃ x0, c = .ackTimeout x0) →
    ∃ t, exec c s = .next t ∧ changesOnly [.out, .log, .host, .power, .ports] s t) ∧
  (∀ (c : Instr) (s : State),
    c = .standbyLinkDown →
    ∃ t, exec c s = .next t ∧ changesOnly [.host] s t)

/-- Contexts, the mailbox, management and the NV store: each command answers a next state, and changes no part of the state but those named. -/
def Obligations.ContextFrames : Prop :=
  (∀ (c : Instr) (s : State),
    (∃ x0, c = .nvUpkeep x0) →
    ∃ t, exec c s = .next t ∧ changesOnly [.free, .out, .log, .host, .selfTest, .nv] s t) ∧
  (∀ (c : Instr) (s : State),
    (∃ x0 x1, c = .openContext x0 x1) →
    ∃ t, exec c s = .next t ∧ changesOnly [.free, .out, .log, .host, .ctx, .sec] s t) ∧
  (∀ (c : Instr) (s : State),
    (∃ x0 x1, c = .closeContext x0 x1) ∨ (∃ x0, c = .mgmtCloseContext x0) →
    ∃ t, exec c s = .next t ∧ changesOnly [.free, .out, .log, .host, .ctx, .sec, .loader, .installed, .tiles,
      .links, .signals, .mem, .coll] s t) ∧
  (∀ (c : Instr) (s : State),
    (∃ x0 x1, c = .switchContext x0 x1) ∨ (∃ x0 x1, c = .removeKey x0 x1) ∨ (∃ x0, c = .mgmtSwitchContext x0) →
    ∃ t, exec c s = .next t ∧ changesOnly [.out, .log, .host, .ctx, .sec, .installed, .tiles, .links, .signals,
      .coll] s t) ∧
  (∀ (c : Instr) (s : State),
    c = .graceExpire →
    ∃ t, exec c s = .next t ∧ changesOnly [.out, .log, .host, .ctx, .installed, .tiles, .links, .signals] s t) ∧
  (∀ (c : Instr) (s : State),
    (∃ x0, c = .curtainStart x0) →
    ∃ t, exec c s = .next t ∧ changesOnly [.free, .out, .log, .host, .ctx, .sec, .loader, .installed, .tiles,
      .dies, .links, .signals, .defects, .mem, .power, .ports, .coll] s t) ∧
  (∀ (c : Instr) (s : State),
    (∃ x0, c = .zeroFillDone x0) ∨ (∃ x0 x1, c = .groupEnroll x0 x1) ∨ (∃ x0 x1, c = .getPlaneRecords x0 x1) ∨ (∃
    x0 x1, c = .getCerts x0 x1) ∨ (∃ x0, c = .getTelemetry x0) ∨ (∃ x0, c = .getEvents x0) ∨ (∃ x0, c =
    .startScrub x0) ∨ (∃ x0, c = .setSwitchRoot x0) ∨ (∃ x0, c = .firmwareBegin x0) ∨ (∃ x0, c = .firmwareChunk
    x0) ∨ (∃ x0, c = .enrollCredential x0) ∨ (∃ x0, c = .revokeCredential x0) ∨ (∃ x0, c = .eraseGroupKeys x0) →
    ∃ t, exec c s = .next t ∧ changesOnly [.out, .log, .host, .sec] s t) ∧
  (∀ (c : Instr) (s : State),
    (∃ x0 x1, c = .getReport x0 x1) ∨ (∃ x0 x1, c = .installKey x0 x1) →
    ∃ t, exec c s = .next t ∧ changesOnly [.out, .log, .host, .ctx, .sec] s t) ∧
  (∀ (c : Instr) (s : State),
    (∃ x0, c = .setPowerCap x0) ∨ (∃ x0, c = .setSlew x0) ∨ (∃ x0, c = .setOrphanCap x0) →
    ∃ t, exec c s = .next t ∧ changesOnly [.out, .log, .host, .sec, .power] s t) ∧
  (∀ (c : Instr) (s : State),
    (∃ x0, c = .storeNv x0) ∨ (∃ x0, c = .firmwareCommit x0) →
    ∃ t, exec c s = .next t ∧ changesOnly [.out, .log, .host, .sec, .nv] s t) ∧
  (∀ (c : Instr) (s : State),
    c = .storeRequest →
    ∃ t, exec c s = .next t ∧ changesOnly [.out, .log, .host, .nv] s t) ∧
  (∀ (c : Instr) (s : State),
    (∃ x0, c = .resetEngine x0) →
    ∃ t, exec c s = .next t ∧ changesOnly [.out, .ident, .start, .log, .host, .ctx, .sec, .loader, .installed,
      .tiles, .dies, .links, .signals, .defects, .selfTest, .mem, .power, .thermal, .nv, .ports, .fabricGroup,
      .pattern, .field, .coll, .observed, .snapshots, .badShards] s t) ∧
  (∀ (c : Instr) (s : State),
    (∃ x0, c = .setCabling x0) →
    ∃ t, exec c s = .next t ∧ changesOnly [.out, .log, .host, .sec, .ports, .fabricGroup] s t) ∧
  (∀ (c : Instr) (s : State),
    (∃ x0, c = .debugChallenge x0) →
    ∃ t, exec c s = .next t ∧ changesOnly [.free, .out, .log, .host, .sec] s t) ∧
  (∀ (c : Instr) (s : State),
    (∃ x0, c = .debugUnlock x0) →
    ∃ t, exec c s = .next t ∧ changesOnly [.free, .out, .ident, .log, .host, .ctx, .sec, .loader, .installed,
      .tiles, .links, .signals, .mem, .coll] s t) ∧
  (∀ (c : Instr) (s : State),
    c = .nvWriteStart ∨ c = .wearTokenGain →
    ∃ t, exec c s = .next t ∧ changesOnly [.nv] s t) ∧
  (∀ (c : Instr) (s : State),
    (∃ x0, c = .nvStoreComplete x0) →
    ∃ t, exec c s = .next t ∧ changesOnly [.free, .out, .log, .host, .defects, .nv] s t)

/-! ### The machine as a whole -/

/-- A step with a command at the front of the queue is that command's meaning on the queue's rest. -/
def Obligations.StepRunsFront : Prop :=
  ∀ (c : Instr) (s : State), step { s with pending := c :: s.pending } = exec c s

/-- With no command waiting, a step is one tick of the house clock while the house domain is up, and a mailbox request that a
curtain made wait runs at the first tick that finds the hand-over over, a management request that waited likewise (Table 12-4); else nothing
changes (the model's choice: log entries 7, 20 and 28). A tick counts for the background work, outside curtains and from open house on: a task of Table 15-13 that lives and is
more than 10 % past its period is reported with 0x0C09, once until its next round (R406; how often it is said and the detail it
carries: log entry 103). -/
def Obligations.IdleStepTicks : Prop :=
  (∀ s : State, s.pending = [] → s.start.houseUp = false → step s = .next s) ∧
  (∀ s : State, s.pending = [] → s.start.houseUp = true → s.sec.waiting = none → s.sec.mgmtWaiting = [] →
    step s = .next (workTick { s with ticks := s.ticks + 1 })) ∧
  (∀ (s : State) (op : Nat) (i : Slot) (req : Bytes), s.pending = [] → s.start.houseUp = true → s.sec.waiting = some (op, i, req) →
    (s.sec.handOver ≠ none → step s = .next (workTick { s with ticks := s.ticks + 1 })) ∧
    (s.sec.handOver = none → bar0Up s = true → backgroundOn s = false →
      step s = .next (serveMgmt (serveRequest op (requestOf op) i req
        { s with ticks := s.ticks + 1, sec := { s.sec with waiting := none } })))) ∧
  (∀ (s : State) (r : MgmtReq), ∀ x ∈ mgmtRows r, s.pending = [] → s.start.houseUp = true → s.sec.waiting = none →
    s.sec.handOver = none → backgroundOn s = false → s.sec.mgmtWaiting = [(x.1, r)] →
      step s = exec x.2 { s with ticks := s.ticks + 1, sec := { s.sec with mgmtWaiting := [] } }) ∧
  (∀ s : State, backgroundOn s = false → inCurtain s = false → workTick s = s) ∧
  (∀ s : State, inCurtain s = true → workTick s = pauseTests s) ∧
  (∀ s : State, backgroundOn s = true → (workTick s).selfTest.workTicks = s.selfTest.workTicks + 1 ∧
    ∀ x ∈ (workTick s).selfTest.work, x.1 ∈ liveTasks s) ∧
  (∀ (s : State) (k : BgTask) (since : Nat) (said : Bool), s.selfTest.work.find? (fun x => x.1 == k) = some (k, since, said) →
    (said = false → 11 * periodOf k < 10 * (s.selfTest.workTicks - since) →
      (checkTask s k).log = pushRec s.log (recordOf { code := 0x0C09, cue := (taskDetail k).1, value := (taskDetail k).2 } s)) ∧
    (said = true ∨ 10 * (s.selfTest.workTicks - since) ≤ 11 * periodOf k → checkTask s k = s))

/-- The state after reset meets what every step keeps. -/
def Obligations.ResetIsSound : Prop :=
  Memory.wf State.reset.mem ∧ holdersSound State.reset ∧ canon Tile.reset State.reset.tiles = true ∧
  State.reset.start.phase.toNat ≤ 8 ∧ State.reset.nv.tokens ≤ 6 ∧ State.reset.log.records.length ≤ 4096 ∧
  State.reset.selfTest.running.length ≤ 16 ∧ State.reset.pending = []

/-- Every step keeps the memory's canonical form: addresses rise strictly and no byte listed is the one an unlisted address
reads as. -/
def Obligations.StepKeepsMemoryForm : Prop :=
  ∀ s t : State, Memory.wf s.mem → step s = .next t → Memory.wf t.mem

/-- At most one slot holds the engine (R20), a hand-over's outgoing slot is that holder, and no slot holds it during a curtain
(R296 to R298): every step keeps this. -/
def Obligations.StepKeepsOneHolder : Prop :=
  ∀ s t : State, holdersSound s → step s = .next t → holdersSound t

/-- Bounds that the spec gives the machine and every step keeps: start-up's phases end at 8, the NV store has at most six wear
tokens (R401), the log holds 4,096 records (R403), sixteen self-tests run at once (R380), and the tile list stays canonical. -/
def Obligations.StepKeepsBounds : Prop :=
  ∀ s t : State, step s = .next t →
    (s.start.phase.toNat ≤ 8 → t.start.phase.toNat ≤ 8) ∧ (s.nv.tokens ≤ 6 → t.nv.tokens ≤ 6) ∧
    (s.log.records.length ≤ 4096 → t.log.records.length ≤ 4096) ∧
    (s.selfTest.running.length ≤ 16 → t.selfTest.running.length ≤ 16) ∧
    (canon Tile.reset s.tiles = true → canon Tile.reset t.tiles = true)

/-- No command changes the identity fuses or the waiting commands, and none takes back what has left the engine. -/
def Obligations.CommandsKeepFuses : Prop :=
  ∀ (c : Instr) (s t : State), exec c s = .next t →
    t.ident.serial = s.ident.serial ∧ t.ident.stepLetter = s.ident.stepLetter ∧ t.ident.stepNumber = s.ident.stepNumber ∧
    t.ident.minSvn = s.ident.minSvn ∧ t.ident.uds = s.ident.uds ∧ t.pending = s.pending ∧ s.out <+: t.out

/-- A queue's commands, cancels and completion records leave every other context slot as it was. -/
def Obligations.OtherSlotsKept : Prop :=
  ∀ (c : Instr) (i j : Slot) (q : QId) (s t : State), j ≠ i →
    c = .entryRefusal i q ∨ c = .nop i q ∨ c = .queueCancel i q ∨ c = .queueCancelComplete i q ∨ c = .cqEnable i ∨
      (∃ h, c = .cqHeadWrite i h) ∨ c = .completionRecordWrite i ∨ c = .completionWriteDone i ∨ c = .bindManifest i q ∨
      c = .releaseModel i q ∨ c = .logSnapshot i q →
    exec c s = .next t → t.ctxOf j = s.ctxOf j

/-- R404: the log is read through the registers of Table 15-12. A write to ev_index, by its own row or as a register write,
latches the indexed record; the words read from then on are that record's, whatever events are reported later, and zero where
the index names none. ev_count, dropped, new_event and event_vector read as the table says, and new_event falls when 1 is
written to it. -/
def Obligations.EventReadsAreOneRecord : Prop :=
  (∀ (s : State) (i : BitVec 12), barWritable s = true → ∃ t, exec (.evIndexWrite i) s = .next t ∧
    (∀ w : Word, w.toNat % 4096 = i.toNat → exec (.registerWrite 0x50004 w) s = .next t) ∧ readReg t 0x50004 = i.setWidth 32 ∧
    (∀ r, s.log.records[i.toNat]? = some r →
      readReg t 0x50008 = pack [(0, 8, b2n r.isCount), (8, 8, r.slot.toNat), (16, 16, r.code.toNat)] ∧
      readReg t 0x5000C = r.seq ∧ readReg t 0x50010 = r.tick) ∧
    (s.log.records[i.toNat]? = none → readReg t 0x50008 = 0 ∧ readReg t 0x5000C = 0 ∧ readReg t 0x50010 = 0) ∧
    ∀ (l : List Ev) (a : Nat), a = 0x50008 ∨ a = 0x5000C ∨ a = 0x50010 → readReg (reportAll l t) a = readReg t a) ∧
  (∀ s : State, (s.log.records.length ≤ 4096 → readReg s 0x50000 = BitVec.ofNat 32 s.log.records.length) ∧ readReg s 0x50014 = s.log.dropped ∧
    readReg s 0x50018 = BitVec.ofNat 32 (b2n s.log.newEvent) ∧ readReg s 0x5001C = s.log.vector.setWidth 32) ∧
  (∀ (s : State) (w : Word), barWritable s = true → ∃ t, exec (.registerWrite 0x50018 w) s = .next t ∧
    readReg t 0x50018 = BitVec.ofNat 32 (b2n (s.log.newEvent && !w.getLsbD 0)))

/-- R402: STORE_NV through management and through its register joins one queue: the first request takes a token and waits, a
request while one waits is served with it and takes none. -/
def Obligations.StoreRequestsJoin : Prop :=
  ∀ (s : State), nvBlocked s = false → 0 < s.nv.tokens ∨ s.nv.storeWaiting = true →
    let n := { s.nv with tokens := (if s.nv.storeWaiting then s.nv.tokens else s.nv.tokens - 1), storeWaiting := true }
    exec .storeRequest s = .next { s with nv := { n with storeBit := true } } ∧
    (∀ w : Word, barWritable s = true → w.getLsbD 0 = true →
      exec (.registerWrite 0x60000 w) s = .next { s with nv := { n with storeBit := true } }) ∧
    (∀ r : MgmtReq, accepted 0x0020 .operator r s → noBody (newerApi r) r.body = true → ∃ t, exec (.storeNv r) s = .next t ∧
      t.nv = { n with storeAnswers := s.nv.storeAnswers + 1 } ∧ t.out = s.out)

/-- R340: the cap in force is min(cap term, cooling cap, 23,000 W); the cap term is the orphan cap after HOUSE_RST_N (where the ROM finds a valid bank), then what
SET_POWER_CAP gives, leased or not; a lease that expires leaves min(last leased value, orphan cap) with 0x0A06 until the next
SET_POWER_CAP, which is reported as 0x0A07; the cooling cap is 23,000 W when cooling imposes none. -/
def Obligations.CapInForceFollowsRules : Prop :=
  (∀ s : State, capInForce s = min (min s.power.capTerm s.thermal.coolingCap) 23000) ∧
  (∀ (s : State) (x : TrayRegs), 3 ≤ s.start.phase.toNat → s.start.phase ≠ 7 → ∃ t, exec (.trayRead (some x)) s = .next t ∧
    (flowAtLeast t 95 = true → t.thermal.coolingCap = 23000) ∧ t.power.capTerm = s.power.capTerm) ∧
  (∀ s : State, s.start.resetLow = true → s.start.houseUp = true → ∃ t, exec .houseRstNRise s = .next t ∧
    (t.start.phase ≠ 7 → t.power.capTerm = t.power.orphanW.toNat)) ∧
  (∀ (s : State) (r : MgmtReq), accepted 0x0010 .operator r s → sized (newerApi r) 4 r.body = true →
    clearBits (newerApi r) (byteAt r.body 2) 0xFE = true → clear (newerApi r) r.body 3 1 = true → 6000 ≤ leAt r.body 0 2 → leAt r.body 0 2 ≤ 23000 → ∃ t, exec (.setPowerCap r) s = .next t ∧
      t.power.capTerm = leAt r.body 0 2 ∧ t.power.leaseLive = (byteAt r.body 2).getLsbD 0 ∧ t.power.expired = false ∧
      t.log = if s.power.expired then pushRec s.log (recordOf { code := 0x0A07 } s) else s.log) ∧
  (∀ s : State, s.power.leaseLive = true → ∃ t, exec .leaseExpire s = .next t ∧ t.power.leaseLive = false ∧
    t.power.expired = true ∧ t.power.capTerm = min s.power.capTerm s.power.orphanW.toNat ∧
    t.log = pushRec s.log (recordOf { code := 0x0A06 } s))

/-- Conversions (R57, R60, Table 3-3): every encoding of a format whose value is finite converts back to itself under every
mode, a subnormal too, and both zeros to plus zero; NaN is written in the canonical encoding, whatever the NaN was; an infinity
and a finite value beyond the format's range give what the table says, and only the latter counts as an overflow. -/
def Obligations.ConversionsFollowTable : Prop :=
  (∀ f ∈ [e4m3, e5m2, e2m3, e3m2, e2m1, bf16, fp16, fp32, fp64], ∀ (sat : Bool) (m : Mode) (v : Nat),
    v < 2 ^ (1 + f.expBits + f.frac) → (decodeF f v).finite = true →
    convF f sat m (decodeF f v) = { bits := if (decodeF f v).isZero then 0 else v, overflow := false }) ∧
  (∀ (sat : Bool) (m : Mode), convF fp32 sat m .nan = ⟨0x7FC00000, false⟩ ∧ convF bf16 sat m .nan = ⟨0x7FC0, false⟩ ∧
    convF fp16 sat m .nan = ⟨0x7E00, false⟩ ∧ convF e4m3 sat m .nan = ⟨0x7F, false⟩ ∧ convF e5m2 sat m .nan = ⟨0x7E, false⟩) ∧
  (∀ (sat neg : Bool) (m : Mode), convF e4m3 sat m (.inf neg) = ⟨0x7F, false⟩ ∧
    convF e5m2 sat m (.inf neg) = ⟨0x80 * b2n neg + 0x7C, false⟩ ∧ convF bf16 sat m (.inf neg) = ⟨0x8000 * b2n neg + 0x7F80, false⟩ ∧
    convF fp16 sat m (.inf neg) = ⟨0x8000 * b2n neg + 0x7C00, false⟩ ∧
    convF fp32 sat m (.inf neg) = ⟨0x80000000 * b2n neg + 0x7F800000, false⟩) ∧
  (∀ (sat neg : Bool) (m : Mode) (k : Nat), let x (bound : Nat) : Machine.Num := .fin (if neg then -1 else 1) (bound + 1 + k : Nat)
    convF e4m3 sat m (x 8) = ⟨if sat then 0x80 * b2n neg + 0x7E else 0x7F, true⟩ ∧
    convF e5m2 sat m (x 15) = ⟨0x80 * b2n neg + (if sat then 0x7B else 0x7C), true⟩ ∧
    convF bf16 sat m (x 127) = ⟨0x8000 * b2n neg + (if m = .rtz then 0x7F7F else 0x7F80), true⟩ ∧
    convF fp16 sat m (x 15) = ⟨0x8000 * b2n neg + (if m = .rtz then 0x7BFF else 0x7C00), true⟩ ∧
    convF fp32 sat m (x 127) = ⟨0x80000000 * b2n neg + (if m = .rtz then 0x7F7FFFFF else 0x7F800000), true⟩ ∧
    convF e2m1 sat m (x 2) = ⟨8 * b2n neg + 7, true⟩ ∧ convF e2m3 sat m (x 2) = ⟨32 * b2n neg + 31, true⟩ ∧
    convF e3m2 sat m (x 4) = ⟨32 * b2n neg + 31, true⟩)

/-! ### Completion, row by row -/

/-- Completion, row by row (R210, R226 to R229, R240, R242, R256 to R261, R371 to R374, R376, R430): each of these commands answers a
next state with its own effect in every state that meets its condition. -/
def Obligations.OwnEffectsComplete : Prop :=
  (∀ s : State, s.thermal.flowClamp = true → flowAtLeast s 55 = true → supplyTemp s ≤ 4500 →
    ∃ t, exec .flowClampClear s = .next t ∧ t.thermal.flowClamp = false ∧ t.log = pushRec s.log (recordOf { code := 0x0B03 } s)) ∧
  (∀ s : State, s.thermal.suddenStop = true → s.thermal.halting = false → flowAtLeast s 50 = true →
    ∃ t, exec .suddenStopRecover s = .next t ∧ t.thermal = { s.thermal with suddenStop := false }) ∧
  (∀ s : State, s.thermal.suddenStop = true → s.thermal.halting = false →
    ∃ t, exec .coolantHalt s = .next t ∧ t.thermal = { s.thermal with halting := true } ∧ ∀ p ∈ t.tiles, p.2.halted = true) ∧
  (∀ s : State, s.thermal.halting = true → s.thermal.halted = false → ∃ t, exec .halted s = .next t ∧
    t.thermal.halted = true ∧ t.installed = none ∧ t.log = pushRec s.log (recordOf { code := 0x0B06 } s)) ∧
  (∀ s : State, s.thermal.halted = true → flowAtLeast s 95 = true → ∃ t, exec .haltExit s = .next t ∧
    t.thermal.halted = false ∧ t.thermal.halting = false ∧ t.thermal.suddenStop = false ∧ ∃ r ∈ t.log.records, r.code = 0x0B08) ∧
  (∀ s : State, flowAtLeast s 25 = false → s.thermal.thermTrip = false → ∃ t, exec .flowPowerOff s = .next t ∧
    t.thermal.thermTrip = true ∧ t.start.zonesUp = 0 ∧ t.mem = [] ∧ (∀ d : DieId, (t.dieOf d).rails = .off) ∧
    ∃ r ∈ t.log.records, r.code = 0x0B07 ∧ r.value = 2) ∧
  (∀ s : State, s.thermal.thermTrip = false → ∃ t, exec .thermalTrip s = .next t ∧
    t.thermal.thermTrip = true ∧ t.start.zonesUp = 0 ∧ t.mem = [] ∧ (∀ d : DieId, (t.dieOf d).rails = .off) ∧
    ∃ r ∈ t.log.records, r.code = 0x0B07 ∧ r.value = 1) ∧
  (∀ (s : State) (w : Nat), s.thermal.stale = false → s.thermal.tray.status.getLsbD 0 = true →
    s.thermal.tray.status.getLsbD 1 = true → s.thermal.tray.status.getLsbD 2 = true → heatUnbalanced s w = true →
    ∃ t, exec (.heatBalanceCheck w) s = .next t ∧ t.log = pushRec s.log (recordOf { code := 0x0B10 } s)) ∧
  (∀ (s : State) (p : PortId) (f : Flit) (h : Nat) (k : HopKey) (b : Bytes), (s.portOf p).state = .up →
    flitDecoded f = true → 256 ≤ (flitRaw f).length → (s.portOf p).status ≠ .curtain → h = (flitHead f).toNat →
    bits h 37 35 = 0 → bitOf h 39 = false → rxKey (s.portOf p) (bitOf h 38) = some k →
    Config.gcmOpen k.key (flitNonce k (nearCounter k.counter (bits h 20 0))) (toLe 8 h) (flitBody f) (flitTag f) = some b →
    BitVec.ofNat 12 (bits h 63 52) = (s.portOf p).rxExpect → ∃ t, exec (.dataFlitReceive p f) s = .next t ∧
      (t.portOf p).rxExpect = (s.portOf p).rxExpect + 1 ∧
      (t.portOf p).partial' = (acceptData h (nearCounter k.counter (bits h 20 0)) b (s.portOf p)).partial') ∧
  (∀ (s : State) (p : PortId) (a : BitVec 12), (s.portOf p).state = .up → (s.portOf p).status ≠ .curtain →
    (takeAck (s.portOf p) a).nakActed ≠ some a → fromSeq (takeAck (s.portOf p) a).unacked (a + 1) ≠ [] →
    (∀ f ∈ fromSeq (takeAck (s.portOf p) a).unacked (a + 1), f.resends < 8) →
    ∃ t, exec (.nakReceive p a) s = .next t ∧ (t.portOf p).nakActed = some a ∧
      (t.portOf p).replays = satAdd (s.portOf p).replays (fromSeq (takeAck (s.portOf p) a).unacked (a + 1)).length) ∧
  (∀ (s : State) (p : PortId) (f : TxFlit) (l : List TxFlit), (s.portOf p).state = .up → (s.portOf p).status ≠ .curtain →
    (s.portOf p).unacked = f :: l → (∀ x ∈ f :: l, x.resends < 8) → ∃ t, exec (.ackTimeout p) s = .next t ∧
      (t.portOf p).unacked = (f :: l).map (fun x => { x with resends := x.resends + 1 }) ∧
      (t.portOf p).replays = satAdd (s.portOf p).replays (l.length + 1)) ∧
  (∀ (s : State) (p : PortId) (l : List Nat), (s.portOf p).state = .up → ∃ t, exec (.preFecMonitor p l) s = .next t ∧
    (t.portOf p).degraded = ((List.range 8).map fun k => if 10000 < l.getD k 0 then (s.portOf p).degraded.getD k 0 + 1 else 0)) ∧
  (∀ s : State, bar0Up s = true → activeUp s = true → houseOpen s = true → s.pattern.running = false →
    patternAllowed s s.pattern.target.toNat = true → ∃ t, exec .patternGo s = .next t ∧ t.pattern.running = true) ∧
  (∀ s : State, bar0Up s = true → activeUp s = true → s.pattern.running = true →
    ∃ t, exec .patternStop s = .next t ∧ t.pattern.running = false ∧ t.pattern.held = none) ∧
  (∀ (s : State) (p : PortId) (h : CollHdr) (x : CollInst) (v : List (BitVec 64)), forInstance 2 p h x s → v.length = x.v →
    h.sender.toNat ∉ x.counts.map Prod.fst → (∃ m ∈ x.members, m ∉ (x.counts ++ [(h.sender.toNat, v)]).map Prod.fst) →
    ∃ t, exec (.countsVec p h v) s = .next t ∧
      instOf t x.descId = some { x with counts := x.counts ++ [(h.sender.toNat, v)] }) ∧
  (∀ (s : State) (p : PortId) (h : CollHdr) (x : CollInst) (v : List Word), forInstance 3 p h x s → v.length = x.v →
    h.sender.toNat ∉ x.scalars.map Prod.fst → (∃ m ∈ x.members, m ∉ (x.scalars ++ [(h.sender.toNat, v)]).map Prod.fst) →
    ∃ t, exec (.scalarVec p h v) s = .next t ∧
      instOf t x.descId = some { x with scalars := x.scalars ++ [(h.sender.toNat, v)] }) ∧
  (∀ (s : State) (p : PortId) (h : CollHdr) (x : CollInst) (data : Bytes), forInstance 4 p h x s → x.root ≠ ownMember s →
    h.sender.toNat = x.root → h.arg.toNat < chunkCount x → h.arg.toNat ∉ x.chunks → data.length = chunkSize x h.arg.toNat →
    x.digest = none → ∃ t, exec (.bcastChunk p h data) s = .next t ∧
      instOf t x.descId = some { x with chunks := x.chunks ++ [h.arg.toNat] } ∧
      t.mem = writeBytes s.mem (hdmKey (collSlot s) (x.dst + 65536 * h.arg.toNat)) data) ∧
  (∀ (s : State) (p : PortId) (h : CollHdr) (x : CollInst) (n : Word) (d : Bytes), forInstance 4 p h x s → x.root ≠ ownMember s →
    h.sender.toNat = x.root → n.toNat = x.length → x.digest = none → missingChunks x = [] →
    Config.shake256 (s.hdmBytes (collSlot s) x.dst x.length) 64 = d →
    ∃ t, exec (.bcastEnd p h n d) s = .next t ∧ instOf t x.descId = none) ∧
  (∀ (s : State) (p : PortId) (h : CollHdr) (x : CollInst), forInstance 4 p h x s → x.root = ownMember s → x.root ∈ x.arrived →
    (∃ m ∈ x.members, m ∉ insertNew x.arrived h.sender.toNat) → ∃ t, exec (.bcastDone p h) s = .next t ∧
      instOf t x.descId = some { x with arrived := insertNew x.arrived h.sender.toNat }) ∧
  (∀ (s : State) (p : PortId) (h : CollHdr) (x : CollInst), forInstance 5 p h x s →
    (∃ m ∈ x.members, m ∉ insertNew x.arrived h.sender.toNat) → ∃ t, exec (.arrive p h) s = .next t ∧
      instOf t x.descId = some { x with arrived := insertNew x.arrived h.sender.toNat }) ∧
  (∀ (s : State) (p : PortId) (h : CollHdr) (x : CollInst), forInstance 4 p h x s → x.root = ownMember s →
    h.arg.toNat < chunkCount x → (∃ m ∈ x.members, m ≠ x.root ∧ m ∉ x.arrived) →
    newRequest x h.sender.toNat h.arg.toNat p.val = true → ∃ t, exec (.bcastReq p h) s = .next t ∧
      instOf t x.descId = some { x with reqs := x.reqs ++ [(h.sender.toNat, h.arg.toNat, p.val)] } ∧
      Output.plane (chunkPort s h.arg.toNat) (groupEp s) (.bcastChunk (instHdr s x h.arg.toNat)
        (s.hdmBytes (collSlot s) (x.src + 65536 * h.arg.toNat) (chunkSize x h.arg.toNat))) ∈ t.out) ∧
  (∀ (s : State) (desc : BitVec 16) (x : CollInst), instOf s desc.toNat = some x → x.kind = 4 → x.root ≠ ownMember s → x.aborts = [] →
    x.digest ≠ none → missingChunks x ≠ [] → roundsLeft s x = true → ∃ t, exec (.bcastReqRound desc) s = .next t ∧
      instOf t desc.toNat = some { x with rounds := x.rounds + 1 }) ∧
  (∀ (s : State) (i : Slot) (q : QId) (r : Ready), let u := started i q r s
    let b := parseColl r.entry.body
    portsInService u ≠ [] → (∀ m ∈ s.coll.held, (heldKey m).1 ≠ b.descId) → instOf s b.descId = none →
    (headStarts 0x31 i q s r → collRefused u i 2 b = false → (∃ m ∈ (newInst u i q r 2 b).members, m ≠ ownMember u) →
      ∃ t, exec (.counts i q) s = .next t ∧ instOf t b.descId = some (newInst u i q r 2 b)) ∧
    (headStarts 0x32 i q s r → collRefused u i 3 b = false → (∃ m ∈ (newInst u i q r 3 b).members, m ≠ ownMember u) →
      ∃ t, exec (.scalarSum i q) s = .next t ∧ instOf t b.descId = some (newInst u i q r 3 b)) ∧
    (headStarts 0x33 i q s r → collRefused u i 4 b = false →
      (∃ m ∈ (newInst u i q r 4 b).members, m ≠ ownMember u ∧ m ≠ (newInst u i q r 4 b).root) →
      ∃ t, exec (.broadcast i q) s = .next t ∧ instOf t b.descId = some (newInst u i q r 4 b)) ∧
    (headStarts 0x34 i q s r → collRefused u i 5 b = false → (∃ m ∈ (newInst u i q r 5 b).members, m ≠ ownMember u) →
      ∃ t, exec (.barrier i q) s = .next t ∧ instOf t b.descId = some (newInst u i q r 5 b))) ∧
  (∀ s : State, failoverAllowed s = true → ∃ t, exec (.takeOver (standby s)) s = .next t ∧
    t.host.activePort = otherPort s.host.activePort ∧ t.host.swapPending = true ∧ t.log = s.log ∧ t.ctx = s.ctx) ∧
  (∀ s : State, activeUp s = true → failoverAllowed s = true → ∃ t, exec .failover s = .next t ∧
    t.host.activePort = otherPort s.host.activePort ∧ t.host.swapPending = true ∧ t.log = s.log ∧ t.ctx = s.ctx) ∧
  (∀ s : State, activeUp s = true → ∃ t, exec .activeLinkDown s = .next t ∧ activeUp t = false ∧
    t.log = pushRec s.log (recordOf { code := 0x0313, loc := locPort s.host.activePort } s)) ∧
  (∀ s : State, activeUp s = true → ∃ t, exec (.cxlPortReset s.host.activePort) s = .next t ∧ activeUp t = false ∧
    t.log = pushRec s.log (recordOf { code := 0x0313, loc := locPort s.host.activePort } s)) ∧
  (∀ s : State, exec .standbyLinkDown s = .next (modCxl (standby s) dropLink s)) ∧
  (∀ s : State, barWritable s = true → s.field.running = none → fieldAllowed s = true →
    (∃ t, exec .fieldTileCheck s = .next t ∧ t.field.running = some 1 ∧ t.field.kind = 1) ∧
    (∃ t, exec .fieldCellColumnBist s = .next t ∧ t.field.running = some 2 ∧ t.field.kind = 2) ∧
    (∃ t, exec .fieldDeckCheck s = .next t ∧ t.field.running = some 3 ∧ t.field.kind = 3) ∧
    (∃ t, exec .fieldStackMarch s = .next t ∧ t.field.running = some 4 ∧ t.field.kind = 4))
end

