-- ==== Sys2Proof/Laws/State.lean ====
section
/-! SUPPORT. What each named update of the state leaves as it was, and what it gives: one lemma per field and
update, true by unfolding. -/

namespace Sys2Proof.Machine

set_option linter.all false
set_option Elab.async false

open Sys2Proof

/-! ### modCtx -/

@[simp] theorem modCtx_pending (i : Slot) (f : Ctx → Ctx) (s : State) :
    (modCtx i f s).pending = s.pending := rfl
@[simp] theorem modCtx_free (i : Slot) (f : Ctx → Ctx) (s : State) :
    (modCtx i f s).free = s.free := rfl
@[simp] theorem modCtx_out (i : Slot) (f : Ctx → Ctx) (s : State) :
    (modCtx i f s).out = s.out := rfl
@[simp] theorem modCtx_ticks (i : Slot) (f : Ctx → Ctx) (s : State) :
    (modCtx i f s).ticks = s.ticks := rfl
@[simp] theorem modCtx_ident (i : Slot) (f : Ctx → Ctx) (s : State) :
    (modCtx i f s).ident = s.ident := rfl
@[simp] theorem modCtx_start (i : Slot) (f : Ctx → Ctx) (s : State) :
    (modCtx i f s).start = s.start := rfl
@[simp] theorem modCtx_log (i : Slot) (f : Ctx → Ctx) (s : State) :
    (modCtx i f s).log = s.log := rfl
@[simp] theorem modCtx_host (i : Slot) (f : Ctx → Ctx) (s : State) :
    (modCtx i f s).host = s.host := rfl
@[simp] theorem modCtx_sec (i : Slot) (f : Ctx → Ctx) (s : State) :
    (modCtx i f s).sec = s.sec := rfl
@[simp] theorem modCtx_loader (i : Slot) (f : Ctx → Ctx) (s : State) :
    (modCtx i f s).loader = s.loader := rfl
@[simp] theorem modCtx_installed (i : Slot) (f : Ctx → Ctx) (s : State) :
    (modCtx i f s).installed = s.installed := rfl
@[simp] theorem modCtx_tiles (i : Slot) (f : Ctx → Ctx) (s : State) :
    (modCtx i f s).tiles = s.tiles := rfl
@[simp] theorem modCtx_dies (i : Slot) (f : Ctx → Ctx) (s : State) :
    (modCtx i f s).dies = s.dies := rfl
@[simp] theorem modCtx_links (i : Slot) (f : Ctx → Ctx) (s : State) :
    (modCtx i f s).links = s.links := rfl
@[simp] theorem modCtx_signals (i : Slot) (f : Ctx → Ctx) (s : State) :
    (modCtx i f s).signals = s.signals := rfl
@[simp] theorem modCtx_defects (i : Slot) (f : Ctx → Ctx) (s : State) :
    (modCtx i f s).defects = s.defects := rfl
@[simp] theorem modCtx_selfTest (i : Slot) (f : Ctx → Ctx) (s : State) :
    (modCtx i f s).selfTest = s.selfTest := rfl
@[simp] theorem modCtx_mem (i : Slot) (f : Ctx → Ctx) (s : State) :
    (modCtx i f s).mem = s.mem := rfl
@[simp] theorem modCtx_power (i : Slot) (f : Ctx → Ctx) (s : State) :
    (modCtx i f s).power = s.power := rfl
@[simp] theorem modCtx_thermal (i : Slot) (f : Ctx → Ctx) (s : State) :
    (modCtx i f s).thermal = s.thermal := rfl
@[simp] theorem modCtx_nv (i : Slot) (f : Ctx → Ctx) (s : State) :
    (modCtx i f s).nv = s.nv := rfl
@[simp] theorem modCtx_ports (i : Slot) (f : Ctx → Ctx) (s : State) :
    (modCtx i f s).ports = s.ports := rfl
@[simp] theorem modCtx_fabricGroup (i : Slot) (f : Ctx → Ctx) (s : State) :
    (modCtx i f s).fabricGroup = s.fabricGroup := rfl
@[simp] theorem modCtx_pattern (i : Slot) (f : Ctx → Ctx) (s : State) :
    (modCtx i f s).pattern = s.pattern := rfl
@[simp] theorem modCtx_field (i : Slot) (f : Ctx → Ctx) (s : State) :
    (modCtx i f s).field = s.field := rfl
@[simp] theorem modCtx_coll (i : Slot) (f : Ctx → Ctx) (s : State) :
    (modCtx i f s).coll = s.coll := rfl
@[simp] theorem modCtx_observed (i : Slot) (f : Ctx → Ctx) (s : State) :
    (modCtx i f s).observed = s.observed := rfl
@[simp] theorem modCtx_snapshots (i : Slot) (f : Ctx → Ctx) (s : State) :
    (modCtx i f s).snapshots = s.snapshots := rfl
@[simp] theorem modCtx_badShards (i : Slot) (f : Ctx → Ctx) (s : State) :
    (modCtx i f s).badShards = s.badShards := rfl

/-! ### modQueue -/

@[simp] theorem modQueue_pending (i : Slot) (q : QId) (f : Queue → Queue) (s : State) :
    (modQueue i q f s).pending = s.pending := rfl
@[simp] theorem modQueue_free (i : Slot) (q : QId) (f : Queue → Queue) (s : State) :
    (modQueue i q f s).free = s.free := rfl
@[simp] theorem modQueue_out (i : Slot) (q : QId) (f : Queue → Queue) (s : State) :
    (modQueue i q f s).out = s.out := rfl
@[simp] theorem modQueue_ticks (i : Slot) (q : QId) (f : Queue → Queue) (s : State) :
    (modQueue i q f s).ticks = s.ticks := rfl
@[simp] theorem modQueue_ident (i : Slot) (q : QId) (f : Queue → Queue) (s : State) :
    (modQueue i q f s).ident = s.ident := rfl
@[simp] theorem modQueue_start (i : Slot) (q : QId) (f : Queue → Queue) (s : State) :
    (modQueue i q f s).start = s.start := rfl
@[simp] theorem modQueue_log (i : Slot) (q : QId) (f : Queue → Queue) (s : State) :
    (modQueue i q f s).log = s.log := rfl
@[simp] theorem modQueue_host (i : Slot) (q : QId) (f : Queue → Queue) (s : State) :
    (modQueue i q f s).host = s.host := rfl
@[simp] theorem modQueue_sec (i : Slot) (q : QId) (f : Queue → Queue) (s : State) :
    (modQueue i q f s).sec = s.sec := rfl
@[simp] theorem modQueue_loader (i : Slot) (q : QId) (f : Queue → Queue) (s : State) :
    (modQueue i q f s).loader = s.loader := rfl
@[simp] theorem modQueue_installed (i : Slot) (q : QId) (f : Queue → Queue) (s : State) :
    (modQueue i q f s).installed = s.installed := rfl
@[simp] theorem modQueue_tiles (i : Slot) (q : QId) (f : Queue → Queue) (s : State) :
    (modQueue i q f s).tiles = s.tiles := rfl
@[simp] theorem modQueue_dies (i : Slot) (q : QId) (f : Queue → Queue) (s : State) :
    (modQueue i q f s).dies = s.dies := rfl
@[simp] theorem modQueue_links (i : Slot) (q : QId) (f : Queue → Queue) (s : State) :
    (modQueue i q f s).links = s.links := rfl
@[simp] theorem modQueue_signals (i : Slot) (q : QId) (f : Queue → Queue) (s : State) :
    (modQueue i q f s).signals = s.signals := rfl
@[simp] theorem modQueue_defects (i : Slot) (q : QId) (f : Queue → Queue) (s : State) :
    (modQueue i q f s).defects = s.defects := rfl
@[simp] theorem modQueue_selfTest (i : Slot) (q : QId) (f : Queue → Queue) (s : State) :
    (modQueue i q f s).selfTest = s.selfTest := rfl
@[simp] theorem modQueue_mem (i : Slot) (q : QId) (f : Queue → Queue) (s : State) :
    (modQueue i q f s).mem = s.mem := rfl
@[simp] theorem modQueue_power (i : Slot) (q : QId) (f : Queue → Queue) (s : State) :
    (modQueue i q f s).power = s.power := rfl
@[simp] theorem modQueue_thermal (i : Slot) (q : QId) (f : Queue → Queue) (s : State) :
    (modQueue i q f s).thermal = s.thermal := rfl
@[simp] theorem modQueue_nv (i : Slot) (q : QId) (f : Queue → Queue) (s : State) :
    (modQueue i q f s).nv = s.nv := rfl
@[simp] theorem modQueue_ports (i : Slot) (q : QId) (f : Queue → Queue) (s : State) :
    (modQueue i q f s).ports = s.ports := rfl
@[simp] theorem modQueue_fabricGroup (i : Slot) (q : QId) (f : Queue → Queue) (s : State) :
    (modQueue i q f s).fabricGroup = s.fabricGroup := rfl
@[simp] theorem modQueue_pattern (i : Slot) (q : QId) (f : Queue → Queue) (s : State) :
    (modQueue i q f s).pattern = s.pattern := rfl
@[simp] theorem modQueue_field (i : Slot) (q : QId) (f : Queue → Queue) (s : State) :
    (modQueue i q f s).field = s.field := rfl
@[simp] theorem modQueue_coll (i : Slot) (q : QId) (f : Queue → Queue) (s : State) :
    (modQueue i q f s).coll = s.coll := rfl
@[simp] theorem modQueue_observed (i : Slot) (q : QId) (f : Queue → Queue) (s : State) :
    (modQueue i q f s).observed = s.observed := rfl
@[simp] theorem modQueue_snapshots (i : Slot) (q : QId) (f : Queue → Queue) (s : State) :
    (modQueue i q f s).snapshots = s.snapshots := rfl
@[simp] theorem modQueue_badShards (i : Slot) (q : QId) (f : Queue → Queue) (s : State) :
    (modQueue i q f s).badShards = s.badShards := rfl

/-! ### mapCtx -/

@[simp] theorem mapCtx_pending (f : Slot → Ctx → Ctx) (s : State) :
    (mapCtx f s).pending = s.pending := by simp only [mapCtx]
@[simp] theorem mapCtx_free (f : Slot → Ctx → Ctx) (s : State) :
    (mapCtx f s).free = s.free := by simp only [mapCtx]
@[simp] theorem mapCtx_out (f : Slot → Ctx → Ctx) (s : State) :
    (mapCtx f s).out = s.out := by simp only [mapCtx]
@[simp] theorem mapCtx_ticks (f : Slot → Ctx → Ctx) (s : State) :
    (mapCtx f s).ticks = s.ticks := by simp only [mapCtx]
@[simp] theorem mapCtx_ident (f : Slot → Ctx → Ctx) (s : State) :
    (mapCtx f s).ident = s.ident := by simp only [mapCtx]
@[simp] theorem mapCtx_start (f : Slot → Ctx → Ctx) (s : State) :
    (mapCtx f s).start = s.start := by simp only [mapCtx]
@[simp] theorem mapCtx_log (f : Slot → Ctx → Ctx) (s : State) :
    (mapCtx f s).log = s.log := by simp only [mapCtx]
@[simp] theorem mapCtx_host (f : Slot → Ctx → Ctx) (s : State) :
    (mapCtx f s).host = s.host := by simp only [mapCtx]
@[simp] theorem mapCtx_sec (f : Slot → Ctx → Ctx) (s : State) :
    (mapCtx f s).sec = s.sec := by simp only [mapCtx]
@[simp] theorem mapCtx_loader (f : Slot → Ctx → Ctx) (s : State) :
    (mapCtx f s).loader = s.loader := by simp only [mapCtx]
@[simp] theorem mapCtx_installed (f : Slot → Ctx → Ctx) (s : State) :
    (mapCtx f s).installed = s.installed := by simp only [mapCtx]
@[simp] theorem mapCtx_tiles (f : Slot → Ctx → Ctx) (s : State) :
    (mapCtx f s).tiles = s.tiles := by simp only [mapCtx]
@[simp] theorem mapCtx_dies (f : Slot → Ctx → Ctx) (s : State) :
    (mapCtx f s).dies = s.dies := by simp only [mapCtx]
@[simp] theorem mapCtx_links (f : Slot → Ctx → Ctx) (s : State) :
    (mapCtx f s).links = s.links := by simp only [mapCtx]
@[simp] theorem mapCtx_signals (f : Slot → Ctx → Ctx) (s : State) :
    (mapCtx f s).signals = s.signals := by simp only [mapCtx]
@[simp] theorem mapCtx_defects (f : Slot → Ctx → Ctx) (s : State) :
    (mapCtx f s).defects = s.defects := by simp only [mapCtx]
@[simp] theorem mapCtx_selfTest (f : Slot → Ctx → Ctx) (s : State) :
    (mapCtx f s).selfTest = s.selfTest := by simp only [mapCtx]
@[simp] theorem mapCtx_mem (f : Slot → Ctx → Ctx) (s : State) :
    (mapCtx f s).mem = s.mem := by simp only [mapCtx]
@[simp] theorem mapCtx_power (f : Slot → Ctx → Ctx) (s : State) :
    (mapCtx f s).power = s.power := by simp only [mapCtx]
@[simp] theorem mapCtx_thermal (f : Slot → Ctx → Ctx) (s : State) :
    (mapCtx f s).thermal = s.thermal := by simp only [mapCtx]
@[simp] theorem mapCtx_nv (f : Slot → Ctx → Ctx) (s : State) :
    (mapCtx f s).nv = s.nv := by simp only [mapCtx]
@[simp] theorem mapCtx_ports (f : Slot → Ctx → Ctx) (s : State) :
    (mapCtx f s).ports = s.ports := by simp only [mapCtx]
@[simp] theorem mapCtx_fabricGroup (f : Slot → Ctx → Ctx) (s : State) :
    (mapCtx f s).fabricGroup = s.fabricGroup := by simp only [mapCtx]
@[simp] theorem mapCtx_pattern (f : Slot → Ctx → Ctx) (s : State) :
    (mapCtx f s).pattern = s.pattern := by simp only [mapCtx]
@[simp] theorem mapCtx_field (f : Slot → Ctx → Ctx) (s : State) :
    (mapCtx f s).field = s.field := by simp only [mapCtx]
@[simp] theorem mapCtx_coll (f : Slot → Ctx → Ctx) (s : State) :
    (mapCtx f s).coll = s.coll := by simp only [mapCtx]
@[simp] theorem mapCtx_observed (f : Slot → Ctx → Ctx) (s : State) :
    (mapCtx f s).observed = s.observed := by simp only [mapCtx]
@[simp] theorem mapCtx_snapshots (f : Slot → Ctx → Ctx) (s : State) :
    (mapCtx f s).snapshots = s.snapshots := by simp only [mapCtx]
@[simp] theorem mapCtx_badShards (f : Slot → Ctx → Ctx) (s : State) :
    (mapCtx f s).badShards = s.badShards := by simp only [mapCtx]

/-! ### modPort -/

@[simp] theorem modPort_pending (p : PortId) (f : Port → Port) (s : State) :
    (modPort p f s).pending = s.pending := rfl
@[simp] theorem modPort_free (p : PortId) (f : Port → Port) (s : State) :
    (modPort p f s).free = s.free := rfl
@[simp] theorem modPort_out (p : PortId) (f : Port → Port) (s : State) :
    (modPort p f s).out = s.out := rfl
@[simp] theorem modPort_ticks (p : PortId) (f : Port → Port) (s : State) :
    (modPort p f s).ticks = s.ticks := rfl
@[simp] theorem modPort_ident (p : PortId) (f : Port → Port) (s : State) :
    (modPort p f s).ident = s.ident := rfl
@[simp] theorem modPort_start (p : PortId) (f : Port → Port) (s : State) :
    (modPort p f s).start = s.start := rfl
@[simp] theorem modPort_log (p : PortId) (f : Port → Port) (s : State) :
    (modPort p f s).log = s.log := rfl
@[simp] theorem modPort_host (p : PortId) (f : Port → Port) (s : State) :
    (modPort p f s).host = s.host := rfl
@[simp] theorem modPort_ctx (p : PortId) (f : Port → Port) (s : State) :
    (modPort p f s).ctx = s.ctx := rfl
@[simp] theorem modPort_sec (p : PortId) (f : Port → Port) (s : State) :
    (modPort p f s).sec = s.sec := rfl
@[simp] theorem modPort_loader (p : PortId) (f : Port → Port) (s : State) :
    (modPort p f s).loader = s.loader := rfl
@[simp] theorem modPort_installed (p : PortId) (f : Port → Port) (s : State) :
    (modPort p f s).installed = s.installed := rfl
@[simp] theorem modPort_tiles (p : PortId) (f : Port → Port) (s : State) :
    (modPort p f s).tiles = s.tiles := rfl
@[simp] theorem modPort_dies (p : PortId) (f : Port → Port) (s : State) :
    (modPort p f s).dies = s.dies := rfl
@[simp] theorem modPort_links (p : PortId) (f : Port → Port) (s : State) :
    (modPort p f s).links = s.links := rfl
@[simp] theorem modPort_signals (p : PortId) (f : Port → Port) (s : State) :
    (modPort p f s).signals = s.signals := rfl
@[simp] theorem modPort_defects (p : PortId) (f : Port → Port) (s : State) :
    (modPort p f s).defects = s.defects := rfl
@[simp] theorem modPort_selfTest (p : PortId) (f : Port → Port) (s : State) :
    (modPort p f s).selfTest = s.selfTest := rfl
@[simp] theorem modPort_mem (p : PortId) (f : Port → Port) (s : State) :
    (modPort p f s).mem = s.mem := rfl
@[simp] theorem modPort_power (p : PortId) (f : Port → Port) (s : State) :
    (modPort p f s).power = s.power := rfl
@[simp] theorem modPort_thermal (p : PortId) (f : Port → Port) (s : State) :
    (modPort p f s).thermal = s.thermal := rfl
@[simp] theorem modPort_nv (p : PortId) (f : Port → Port) (s : State) :
    (modPort p f s).nv = s.nv := rfl
@[simp] theorem modPort_fabricGroup (p : PortId) (f : Port → Port) (s : State) :
    (modPort p f s).fabricGroup = s.fabricGroup := rfl
@[simp] theorem modPort_pattern (p : PortId) (f : Port → Port) (s : State) :
    (modPort p f s).pattern = s.pattern := rfl
@[simp] theorem modPort_field (p : PortId) (f : Port → Port) (s : State) :
    (modPort p f s).field = s.field := rfl
@[simp] theorem modPort_coll (p : PortId) (f : Port → Port) (s : State) :
    (modPort p f s).coll = s.coll := rfl
@[simp] theorem modPort_observed (p : PortId) (f : Port → Port) (s : State) :
    (modPort p f s).observed = s.observed := rfl
@[simp] theorem modPort_snapshots (p : PortId) (f : Port → Port) (s : State) :
    (modPort p f s).snapshots = s.snapshots := rfl
@[simp] theorem modPort_badShards (p : PortId) (f : Port → Port) (s : State) :
    (modPort p f s).badShards = s.badShards := rfl

/-! ### mapPorts -/

@[simp] theorem mapPorts_pending (f : PortId → Port → Port) (s : State) :
    (mapPorts f s).pending = s.pending := by simp only [mapPorts]
@[simp] theorem mapPorts_free (f : PortId → Port → Port) (s : State) :
    (mapPorts f s).free = s.free := by simp only [mapPorts]
@[simp] theorem mapPorts_out (f : PortId → Port → Port) (s : State) :
    (mapPorts f s).out = s.out := by simp only [mapPorts]
@[simp] theorem mapPorts_ticks (f : PortId → Port → Port) (s : State) :
    (mapPorts f s).ticks = s.ticks := by simp only [mapPorts]
@[simp] theorem mapPorts_ident (f : PortId → Port → Port) (s : State) :
    (mapPorts f s).ident = s.ident := by simp only [mapPorts]
@[simp] theorem mapPorts_start (f : PortId → Port → Port) (s : State) :
    (mapPorts f s).start = s.start := by simp only [mapPorts]
@[simp] theorem mapPorts_log (f : PortId → Port → Port) (s : State) :
    (mapPorts f s).log = s.log := by simp only [mapPorts]
@[simp] theorem mapPorts_host (f : PortId → Port → Port) (s : State) :
    (mapPorts f s).host = s.host := by simp only [mapPorts]
@[simp] theorem mapPorts_ctx (f : PortId → Port → Port) (s : State) :
    (mapPorts f s).ctx = s.ctx := by simp only [mapPorts]
@[simp] theorem mapPorts_sec (f : PortId → Port → Port) (s : State) :
    (mapPorts f s).sec = s.sec := by simp only [mapPorts]
@[simp] theorem mapPorts_loader (f : PortId → Port → Port) (s : State) :
    (mapPorts f s).loader = s.loader := by simp only [mapPorts]
@[simp] theorem mapPorts_installed (f : PortId → Port → Port) (s : State) :
    (mapPorts f s).installed = s.installed := by simp only [mapPorts]
@[simp] theorem mapPorts_tiles (f : PortId → Port → Port) (s : State) :
    (mapPorts f s).tiles = s.tiles := by simp only [mapPorts]
@[simp] theorem mapPorts_dies (f : PortId → Port → Port) (s : State) :
    (mapPorts f s).dies = s.dies := by simp only [mapPorts]
@[simp] theorem mapPorts_links (f : PortId → Port → Port) (s : State) :
    (mapPorts f s).links = s.links := by simp only [mapPorts]
@[simp] theorem mapPorts_signals (f : PortId → Port → Port) (s : State) :
    (mapPorts f s).signals = s.signals := by simp only [mapPorts]
@[simp] theorem mapPorts_defects (f : PortId → Port → Port) (s : State) :
    (mapPorts f s).defects = s.defects := by simp only [mapPorts]
@[simp] theorem mapPorts_selfTest (f : PortId → Port → Port) (s : State) :
    (mapPorts f s).selfTest = s.selfTest := by simp only [mapPorts]
@[simp] theorem mapPorts_mem (f : PortId → Port → Port) (s : State) :
    (mapPorts f s).mem = s.mem := by simp only [mapPorts]
@[simp] theorem mapPorts_power (f : PortId → Port → Port) (s : State) :
    (mapPorts f s).power = s.power := by simp only [mapPorts]
@[simp] theorem mapPorts_thermal (f : PortId → Port → Port) (s : State) :
    (mapPorts f s).thermal = s.thermal := by simp only [mapPorts]
@[simp] theorem mapPorts_nv (f : PortId → Port → Port) (s : State) :
    (mapPorts f s).nv = s.nv := by simp only [mapPorts]
@[simp] theorem mapPorts_fabricGroup (f : PortId → Port → Port) (s : State) :
    (mapPorts f s).fabricGroup = s.fabricGroup := by simp only [mapPorts]
@[simp] theorem mapPorts_pattern (f : PortId → Port → Port) (s : State) :
    (mapPorts f s).pattern = s.pattern := by simp only [mapPorts]
@[simp] theorem mapPorts_field (f : PortId → Port → Port) (s : State) :
    (mapPorts f s).field = s.field := by simp only [mapPorts]
@[simp] theorem mapPorts_coll (f : PortId → Port → Port) (s : State) :
    (mapPorts f s).coll = s.coll := by simp only [mapPorts]
@[simp] theorem mapPorts_observed (f : PortId → Port → Port) (s : State) :
    (mapPorts f s).observed = s.observed := by simp only [mapPorts]
@[simp] theorem mapPorts_snapshots (f : PortId → Port → Port) (s : State) :
    (mapPorts f s).snapshots = s.snapshots := by simp only [mapPorts]
@[simp] theorem mapPorts_badShards (f : PortId → Port → Port) (s : State) :
    (mapPorts f s).badShards = s.badShards := by simp only [mapPorts]

/-! ### modDie -/

@[simp] theorem modDie_pending (d : DieId) (f : Die → Die) (s : State) :
    (modDie d f s).pending = s.pending := rfl
@[simp] theorem modDie_free (d : DieId) (f : Die → Die) (s : State) :
    (modDie d f s).free = s.free := rfl
@[simp] theorem modDie_out (d : DieId) (f : Die → Die) (s : State) :
    (modDie d f s).out = s.out := rfl
@[simp] theorem modDie_ticks (d : DieId) (f : Die → Die) (s : State) :
    (modDie d f s).ticks = s.ticks := rfl
@[simp] theorem modDie_ident (d : DieId) (f : Die → Die) (s : State) :
    (modDie d f s).ident = s.ident := rfl
@[simp] theorem modDie_start (d : DieId) (f : Die → Die) (s : State) :
    (modDie d f s).start = s.start := rfl
@[simp] theorem modDie_log (d : DieId) (f : Die → Die) (s : State) :
    (modDie d f s).log = s.log := rfl
@[simp] theorem modDie_host (d : DieId) (f : Die → Die) (s : State) :
    (modDie d f s).host = s.host := rfl
@[simp] theorem modDie_ctx (d : DieId) (f : Die → Die) (s : State) :
    (modDie d f s).ctx = s.ctx := rfl
@[simp] theorem modDie_sec (d : DieId) (f : Die → Die) (s : State) :
    (modDie d f s).sec = s.sec := rfl
@[simp] theorem modDie_loader (d : DieId) (f : Die → Die) (s : State) :
    (modDie d f s).loader = s.loader := rfl
@[simp] theorem modDie_installed (d : DieId) (f : Die → Die) (s : State) :
    (modDie d f s).installed = s.installed := rfl
@[simp] theorem modDie_tiles (d : DieId) (f : Die → Die) (s : State) :
    (modDie d f s).tiles = s.tiles := rfl
@[simp] theorem modDie_links (d : DieId) (f : Die → Die) (s : State) :
    (modDie d f s).links = s.links := rfl
@[simp] theorem modDie_signals (d : DieId) (f : Die → Die) (s : State) :
    (modDie d f s).signals = s.signals := rfl
@[simp] theorem modDie_defects (d : DieId) (f : Die → Die) (s : State) :
    (modDie d f s).defects = s.defects := rfl
@[simp] theorem modDie_selfTest (d : DieId) (f : Die → Die) (s : State) :
    (modDie d f s).selfTest = s.selfTest := rfl
@[simp] theorem modDie_mem (d : DieId) (f : Die → Die) (s : State) :
    (modDie d f s).mem = s.mem := rfl
@[simp] theorem modDie_power (d : DieId) (f : Die → Die) (s : State) :
    (modDie d f s).power = s.power := rfl
@[simp] theorem modDie_thermal (d : DieId) (f : Die → Die) (s : State) :
    (modDie d f s).thermal = s.thermal := rfl
@[simp] theorem modDie_nv (d : DieId) (f : Die → Die) (s : State) :
    (modDie d f s).nv = s.nv := rfl
@[simp] theorem modDie_ports (d : DieId) (f : Die → Die) (s : State) :
    (modDie d f s).ports = s.ports := rfl
@[simp] theorem modDie_fabricGroup (d : DieId) (f : Die → Die) (s : State) :
    (modDie d f s).fabricGroup = s.fabricGroup := rfl
@[simp] theorem modDie_pattern (d : DieId) (f : Die → Die) (s : State) :
    (modDie d f s).pattern = s.pattern := rfl
@[simp] theorem modDie_field (d : DieId) (f : Die → Die) (s : State) :
    (modDie d f s).field = s.field := rfl
@[simp] theorem modDie_coll (d : DieId) (f : Die → Die) (s : State) :
    (modDie d f s).coll = s.coll := rfl
@[simp] theorem modDie_observed (d : DieId) (f : Die → Die) (s : State) :
    (modDie d f s).observed = s.observed := rfl
@[simp] theorem modDie_snapshots (d : DieId) (f : Die → Die) (s : State) :
    (modDie d f s).snapshots = s.snapshots := rfl
@[simp] theorem modDie_badShards (d : DieId) (f : Die → Die) (s : State) :
    (modDie d f s).badShards = s.badShards := rfl

/-! ### mapDies -/

@[simp] theorem mapDies_pending (f : DieId → Die → Die) (s : State) :
    (mapDies f s).pending = s.pending := by simp only [mapDies]
@[simp] theorem mapDies_free (f : DieId → Die → Die) (s : State) :
    (mapDies f s).free = s.free := by simp only [mapDies]
@[simp] theorem mapDies_out (f : DieId → Die → Die) (s : State) :
    (mapDies f s).out = s.out := by simp only [mapDies]
@[simp] theorem mapDies_ticks (f : DieId → Die → Die) (s : State) :
    (mapDies f s).ticks = s.ticks := by simp only [mapDies]
@[simp] theorem mapDies_ident (f : DieId → Die → Die) (s : State) :
    (mapDies f s).ident = s.ident := by simp only [mapDies]
@[simp] theorem mapDies_start (f : DieId → Die → Die) (s : State) :
    (mapDies f s).start = s.start := by simp only [mapDies]
@[simp] theorem mapDies_log (f : DieId → Die → Die) (s : State) :
    (mapDies f s).log = s.log := by simp only [mapDies]
@[simp] theorem mapDies_host (f : DieId → Die → Die) (s : State) :
    (mapDies f s).host = s.host := by simp only [mapDies]
@[simp] theorem mapDies_ctx (f : DieId → Die → Die) (s : State) :
    (mapDies f s).ctx = s.ctx := by simp only [mapDies]
@[simp] theorem mapDies_sec (f : DieId → Die → Die) (s : State) :
    (mapDies f s).sec = s.sec := by simp only [mapDies]
@[simp] theorem mapDies_loader (f : DieId → Die → Die) (s : State) :
    (mapDies f s).loader = s.loader := by simp only [mapDies]
@[simp] theorem mapDies_installed (f : DieId → Die → Die) (s : State) :
    (mapDies f s).installed = s.installed := by simp only [mapDies]
@[simp] theorem mapDies_tiles (f : DieId → Die → Die) (s : State) :
    (mapDies f s).tiles = s.tiles := by simp only [mapDies]
@[simp] theorem mapDies_links (f : DieId → Die → Die) (s : State) :
    (mapDies f s).links = s.links := by simp only [mapDies]
@[simp] theorem mapDies_signals (f : DieId → Die → Die) (s : State) :
    (mapDies f s).signals = s.signals := by simp only [mapDies]
@[simp] theorem mapDies_defects (f : DieId → Die → Die) (s : State) :
    (mapDies f s).defects = s.defects := by simp only [mapDies]
@[simp] theorem mapDies_selfTest (f : DieId → Die → Die) (s : State) :
    (mapDies f s).selfTest = s.selfTest := by simp only [mapDies]
@[simp] theorem mapDies_mem (f : DieId → Die → Die) (s : State) :
    (mapDies f s).mem = s.mem := by simp only [mapDies]
@[simp] theorem mapDies_power (f : DieId → Die → Die) (s : State) :
    (mapDies f s).power = s.power := by simp only [mapDies]
@[simp] theorem mapDies_thermal (f : DieId → Die → Die) (s : State) :
    (mapDies f s).thermal = s.thermal := by simp only [mapDies]
@[simp] theorem mapDies_nv (f : DieId → Die → Die) (s : State) :
    (mapDies f s).nv = s.nv := by simp only [mapDies]
@[simp] theorem mapDies_ports (f : DieId → Die → Die) (s : State) :
    (mapDies f s).ports = s.ports := by simp only [mapDies]
@[simp] theorem mapDies_fabricGroup (f : DieId → Die → Die) (s : State) :
    (mapDies f s).fabricGroup = s.fabricGroup := by simp only [mapDies]
@[simp] theorem mapDies_pattern (f : DieId → Die → Die) (s : State) :
    (mapDies f s).pattern = s.pattern := by simp only [mapDies]
@[simp] theorem mapDies_field (f : DieId → Die → Die) (s : State) :
    (mapDies f s).field = s.field := by simp only [mapDies]
@[simp] theorem mapDies_coll (f : DieId → Die → Die) (s : State) :
    (mapDies f s).coll = s.coll := by simp only [mapDies]
@[simp] theorem mapDies_observed (f : DieId → Die → Die) (s : State) :
    (mapDies f s).observed = s.observed := by simp only [mapDies]
@[simp] theorem mapDies_snapshots (f : DieId → Die → Die) (s : State) :
    (mapDies f s).snapshots = s.snapshots := by simp only [mapDies]
@[simp] theorem mapDies_badShards (f : DieId → Die → Die) (s : State) :
    (mapDies f s).badShards = s.badShards := by simp only [mapDies]

/-! ### modTile -/

@[simp] theorem modTile_pending (t : TileId) (f : Tile → Tile) (s : State) :
    (modTile t f s).pending = s.pending := by simp only [modTile]
@[simp] theorem modTile_free (t : TileId) (f : Tile → Tile) (s : State) :
    (modTile t f s).free = s.free := by simp only [modTile]
@[simp] theorem modTile_out (t : TileId) (f : Tile → Tile) (s : State) :
    (modTile t f s).out = s.out := by simp only [modTile]
@[simp] theorem modTile_ticks (t : TileId) (f : Tile → Tile) (s : State) :
    (modTile t f s).ticks = s.ticks := by simp only [modTile]
@[simp] theorem modTile_ident (t : TileId) (f : Tile → Tile) (s : State) :
    (modTile t f s).ident = s.ident := by simp only [modTile]
@[simp] theorem modTile_start (t : TileId) (f : Tile → Tile) (s : State) :
    (modTile t f s).start = s.start := by simp only [modTile]
@[simp] theorem modTile_log (t : TileId) (f : Tile → Tile) (s : State) :
    (modTile t f s).log = s.log := by simp only [modTile]
@[simp] theorem modTile_host (t : TileId) (f : Tile → Tile) (s : State) :
    (modTile t f s).host = s.host := by simp only [modTile]
@[simp] theorem modTile_ctx (t : TileId) (f : Tile → Tile) (s : State) :
    (modTile t f s).ctx = s.ctx := by simp only [modTile]
@[simp] theorem modTile_sec (t : TileId) (f : Tile → Tile) (s : State) :
    (modTile t f s).sec = s.sec := by simp only [modTile]
@[simp] theorem modTile_loader (t : TileId) (f : Tile → Tile) (s : State) :
    (modTile t f s).loader = s.loader := by simp only [modTile]
@[simp] theorem modTile_installed (t : TileId) (f : Tile → Tile) (s : State) :
    (modTile t f s).installed = s.installed := by simp only [modTile]
@[simp] theorem modTile_dies (t : TileId) (f : Tile → Tile) (s : State) :
    (modTile t f s).dies = s.dies := by simp only [modTile]
@[simp] theorem modTile_links (t : TileId) (f : Tile → Tile) (s : State) :
    (modTile t f s).links = s.links := by simp only [modTile]
@[simp] theorem modTile_signals (t : TileId) (f : Tile → Tile) (s : State) :
    (modTile t f s).signals = s.signals := by simp only [modTile]
@[simp] theorem modTile_defects (t : TileId) (f : Tile → Tile) (s : State) :
    (modTile t f s).defects = s.defects := by simp only [modTile]
@[simp] theorem modTile_selfTest (t : TileId) (f : Tile → Tile) (s : State) :
    (modTile t f s).selfTest = s.selfTest := by simp only [modTile]
@[simp] theorem modTile_mem (t : TileId) (f : Tile → Tile) (s : State) :
    (modTile t f s).mem = s.mem := by simp only [modTile]
@[simp] theorem modTile_power (t : TileId) (f : Tile → Tile) (s : State) :
    (modTile t f s).power = s.power := by simp only [modTile]
@[simp] theorem modTile_thermal (t : TileId) (f : Tile → Tile) (s : State) :
    (modTile t f s).thermal = s.thermal := by simp only [modTile]
@[simp] theorem modTile_nv (t : TileId) (f : Tile → Tile) (s : State) :
    (modTile t f s).nv = s.nv := by simp only [modTile]
@[simp] theorem modTile_ports (t : TileId) (f : Tile → Tile) (s : State) :
    (modTile t f s).ports = s.ports := by simp only [modTile]
@[simp] theorem modTile_fabricGroup (t : TileId) (f : Tile → Tile) (s : State) :
    (modTile t f s).fabricGroup = s.fabricGroup := by simp only [modTile]
@[simp] theorem modTile_pattern (t : TileId) (f : Tile → Tile) (s : State) :
    (modTile t f s).pattern = s.pattern := by simp only [modTile]
@[simp] theorem modTile_field (t : TileId) (f : Tile → Tile) (s : State) :
    (modTile t f s).field = s.field := by simp only [modTile]
@[simp] theorem modTile_coll (t : TileId) (f : Tile → Tile) (s : State) :
    (modTile t f s).coll = s.coll := by simp only [modTile]
@[simp] theorem modTile_observed (t : TileId) (f : Tile → Tile) (s : State) :
    (modTile t f s).observed = s.observed := by simp only [modTile]
@[simp] theorem modTile_snapshots (t : TileId) (f : Tile → Tile) (s : State) :
    (modTile t f s).snapshots = s.snapshots := by simp only [modTile]
@[simp] theorem modTile_badShards (t : TileId) (f : Tile → Tile) (s : State) :
    (modTile t f s).badShards = s.badShards := by simp only [modTile]

/-! ### mapTiles -/

@[simp] theorem mapTiles_pending (f : Nat → Tile → Tile) (s : State) :
    (mapTiles f s).pending = s.pending := by simp only [mapTiles]
@[simp] theorem mapTiles_free (f : Nat → Tile → Tile) (s : State) :
    (mapTiles f s).free = s.free := by simp only [mapTiles]
@[simp] theorem mapTiles_out (f : Nat → Tile → Tile) (s : State) :
    (mapTiles f s).out = s.out := by simp only [mapTiles]
@[simp] theorem mapTiles_ticks (f : Nat → Tile → Tile) (s : State) :
    (mapTiles f s).ticks = s.ticks := by simp only [mapTiles]
@[simp] theorem mapTiles_ident (f : Nat → Tile → Tile) (s : State) :
    (mapTiles f s).ident = s.ident := by simp only [mapTiles]
@[simp] theorem mapTiles_start (f : Nat → Tile → Tile) (s : State) :
    (mapTiles f s).start = s.start := by simp only [mapTiles]
@[simp] theorem mapTiles_log (f : Nat → Tile → Tile) (s : State) :
    (mapTiles f s).log = s.log := by simp only [mapTiles]
@[simp] theorem mapTiles_host (f : Nat → Tile → Tile) (s : State) :
    (mapTiles f s).host = s.host := by simp only [mapTiles]
@[simp] theorem mapTiles_ctx (f : Nat → Tile → Tile) (s : State) :
    (mapTiles f s).ctx = s.ctx := by simp only [mapTiles]
@[simp] theorem mapTiles_sec (f : Nat → Tile → Tile) (s : State) :
    (mapTiles f s).sec = s.sec := by simp only [mapTiles]
@[simp] theorem mapTiles_loader (f : Nat → Tile → Tile) (s : State) :
    (mapTiles f s).loader = s.loader := by simp only [mapTiles]
@[simp] theorem mapTiles_installed (f : Nat → Tile → Tile) (s : State) :
    (mapTiles f s).installed = s.installed := by simp only [mapTiles]
@[simp] theorem mapTiles_dies (f : Nat → Tile → Tile) (s : State) :
    (mapTiles f s).dies = s.dies := by simp only [mapTiles]
@[simp] theorem mapTiles_links (f : Nat → Tile → Tile) (s : State) :
    (mapTiles f s).links = s.links := by simp only [mapTiles]
@[simp] theorem mapTiles_signals (f : Nat → Tile → Tile) (s : State) :
    (mapTiles f s).signals = s.signals := by simp only [mapTiles]
@[simp] theorem mapTiles_defects (f : Nat → Tile → Tile) (s : State) :
    (mapTiles f s).defects = s.defects := by simp only [mapTiles]
@[simp] theorem mapTiles_selfTest (f : Nat → Tile → Tile) (s : State) :
    (mapTiles f s).selfTest = s.selfTest := by simp only [mapTiles]
@[simp] theorem mapTiles_mem (f : Nat → Tile → Tile) (s : State) :
    (mapTiles f s).mem = s.mem := by simp only [mapTiles]
@[simp] theorem mapTiles_power (f : Nat → Tile → Tile) (s : State) :
    (mapTiles f s).power = s.power := by simp only [mapTiles]
@[simp] theorem mapTiles_thermal (f : Nat → Tile → Tile) (s : State) :
    (mapTiles f s).thermal = s.thermal := by simp only [mapTiles]
@[simp] theorem mapTiles_nv (f : Nat → Tile → Tile) (s : State) :
    (mapTiles f s).nv = s.nv := by simp only [mapTiles]
@[simp] theorem mapTiles_ports (f : Nat → Tile → Tile) (s : State) :
    (mapTiles f s).ports = s.ports := by simp only [mapTiles]
@[simp] theorem mapTiles_fabricGroup (f : Nat → Tile → Tile) (s : State) :
    (mapTiles f s).fabricGroup = s.fabricGroup := by simp only [mapTiles]
@[simp] theorem mapTiles_pattern (f : Nat → Tile → Tile) (s : State) :
    (mapTiles f s).pattern = s.pattern := by simp only [mapTiles]
@[simp] theorem mapTiles_field (f : Nat → Tile → Tile) (s : State) :
    (mapTiles f s).field = s.field := by simp only [mapTiles]
@[simp] theorem mapTiles_coll (f : Nat → Tile → Tile) (s : State) :
    (mapTiles f s).coll = s.coll := by simp only [mapTiles]
@[simp] theorem mapTiles_observed (f : Nat → Tile → Tile) (s : State) :
    (mapTiles f s).observed = s.observed := by simp only [mapTiles]
@[simp] theorem mapTiles_snapshots (f : Nat → Tile → Tile) (s : State) :
    (mapTiles f s).snapshots = s.snapshots := by simp only [mapTiles]
@[simp] theorem mapTiles_badShards (f : Nat → Tile → Tile) (s : State) :
    (mapTiles f s).badShards = s.badShards := by simp only [mapTiles]

/-! ### drawNext -/

@[simp] theorem drawNext_pending (s : State) :
    (drawNext s).pending = s.pending := rfl
@[simp] theorem drawNext_out (s : State) :
    (drawNext s).out = s.out := rfl
@[simp] theorem drawNext_ticks (s : State) :
    (drawNext s).ticks = s.ticks := rfl
@[simp] theorem drawNext_ident (s : State) :
    (drawNext s).ident = s.ident := rfl
@[simp] theorem drawNext_start (s : State) :
    (drawNext s).start = s.start := rfl
@[simp] theorem drawNext_log (s : State) :
    (drawNext s).log = s.log := rfl
@[simp] theorem drawNext_host (s : State) :
    (drawNext s).host = s.host := rfl
@[simp] theorem drawNext_ctx (s : State) :
    (drawNext s).ctx = s.ctx := rfl
@[simp] theorem drawNext_sec (s : State) :
    (drawNext s).sec = s.sec := rfl
@[simp] theorem drawNext_loader (s : State) :
    (drawNext s).loader = s.loader := rfl
@[simp] theorem drawNext_installed (s : State) :
    (drawNext s).installed = s.installed := rfl
@[simp] theorem drawNext_tiles (s : State) :
    (drawNext s).tiles = s.tiles := rfl
@[simp] theorem drawNext_dies (s : State) :
    (drawNext s).dies = s.dies := rfl
@[simp] theorem drawNext_links (s : State) :
    (drawNext s).links = s.links := rfl
@[simp] theorem drawNext_signals (s : State) :
    (drawNext s).signals = s.signals := rfl
@[simp] theorem drawNext_defects (s : State) :
    (drawNext s).defects = s.defects := rfl
@[simp] theorem drawNext_selfTest (s : State) :
    (drawNext s).selfTest = s.selfTest := rfl
@[simp] theorem drawNext_mem (s : State) :
    (drawNext s).mem = s.mem := rfl
@[simp] theorem drawNext_power (s : State) :
    (drawNext s).power = s.power := rfl
@[simp] theorem drawNext_thermal (s : State) :
    (drawNext s).thermal = s.thermal := rfl
@[simp] theorem drawNext_nv (s : State) :
    (drawNext s).nv = s.nv := rfl
@[simp] theorem drawNext_ports (s : State) :
    (drawNext s).ports = s.ports := rfl
@[simp] theorem drawNext_fabricGroup (s : State) :
    (drawNext s).fabricGroup = s.fabricGroup := rfl
@[simp] theorem drawNext_pattern (s : State) :
    (drawNext s).pattern = s.pattern := rfl
@[simp] theorem drawNext_field (s : State) :
    (drawNext s).field = s.field := rfl
@[simp] theorem drawNext_coll (s : State) :
    (drawNext s).coll = s.coll := rfl
@[simp] theorem drawNext_observed (s : State) :
    (drawNext s).observed = s.observed := rfl
@[simp] theorem drawNext_snapshots (s : State) :
    (drawNext s).snapshots = s.snapshots := rfl
@[simp] theorem drawNext_badShards (s : State) :
    (drawNext s).badShards = s.badShards := rfl

/-! ### emit -/

@[simp] theorem emit_pending (o : Output) (s : State) :
    (emit o s).pending = s.pending := rfl
@[simp] theorem emit_free (o : Output) (s : State) :
    (emit o s).free = s.free := rfl
@[simp] theorem emit_ticks (o : Output) (s : State) :
    (emit o s).ticks = s.ticks := rfl
@[simp] theorem emit_ident (o : Output) (s : State) :
    (emit o s).ident = s.ident := rfl
@[simp] theorem emit_start (o : Output) (s : State) :
    (emit o s).start = s.start := rfl
@[simp] theorem emit_log (o : Output) (s : State) :
    (emit o s).log = s.log := rfl
@[simp] theorem emit_host (o : Output) (s : State) :
    (emit o s).host = s.host := rfl
@[simp] theorem emit_ctx (o : Output) (s : State) :
    (emit o s).ctx = s.ctx := rfl
@[simp] theorem emit_sec (o : Output) (s : State) :
    (emit o s).sec = s.sec := rfl
@[simp] theorem emit_loader (o : Output) (s : State) :
    (emit o s).loader = s.loader := rfl
@[simp] theorem emit_installed (o : Output) (s : State) :
    (emit o s).installed = s.installed := rfl
@[simp] theorem emit_tiles (o : Output) (s : State) :
    (emit o s).tiles = s.tiles := rfl
@[simp] theorem emit_dies (o : Output) (s : State) :
    (emit o s).dies = s.dies := rfl
@[simp] theorem emit_links (o : Output) (s : State) :
    (emit o s).links = s.links := rfl
@[simp] theorem emit_signals (o : Output) (s : State) :
    (emit o s).signals = s.signals := rfl
@[simp] theorem emit_defects (o : Output) (s : State) :
    (emit o s).defects = s.defects := rfl
@[simp] theorem emit_selfTest (o : Output) (s : State) :
    (emit o s).selfTest = s.selfTest := rfl
@[simp] theorem emit_mem (o : Output) (s : State) :
    (emit o s).mem = s.mem := rfl
@[simp] theorem emit_power (o : Output) (s : State) :
    (emit o s).power = s.power := rfl
@[simp] theorem emit_thermal (o : Output) (s : State) :
    (emit o s).thermal = s.thermal := rfl
@[simp] theorem emit_nv (o : Output) (s : State) :
    (emit o s).nv = s.nv := rfl
@[simp] theorem emit_ports (o : Output) (s : State) :
    (emit o s).ports = s.ports := rfl
@[simp] theorem emit_fabricGroup (o : Output) (s : State) :
    (emit o s).fabricGroup = s.fabricGroup := rfl
@[simp] theorem emit_pattern (o : Output) (s : State) :
    (emit o s).pattern = s.pattern := rfl
@[simp] theorem emit_field (o : Output) (s : State) :
    (emit o s).field = s.field := rfl
@[simp] theorem emit_coll (o : Output) (s : State) :
    (emit o s).coll = s.coll := rfl
@[simp] theorem emit_observed (o : Output) (s : State) :
    (emit o s).observed = s.observed := rfl
@[simp] theorem emit_snapshots (o : Output) (s : State) :
    (emit o s).snapshots = s.snapshots := rfl
@[simp] theorem emit_badShards (o : Output) (s : State) :
    (emit o s).badShards = s.badShards := rfl

/-! ### storeBytes -/

@[simp] theorem storeBytes_pending (k : Nat) (b : Bytes) (s : State) :
    (storeBytes k b s).pending = s.pending := rfl
@[simp] theorem storeBytes_free (k : Nat) (b : Bytes) (s : State) :
    (storeBytes k b s).free = s.free := rfl
@[simp] theorem storeBytes_out (k : Nat) (b : Bytes) (s : State) :
    (storeBytes k b s).out = s.out := rfl
@[simp] theorem storeBytes_ticks (k : Nat) (b : Bytes) (s : State) :
    (storeBytes k b s).ticks = s.ticks := rfl
@[simp] theorem storeBytes_ident (k : Nat) (b : Bytes) (s : State) :
    (storeBytes k b s).ident = s.ident := rfl
@[simp] theorem storeBytes_start (k : Nat) (b : Bytes) (s : State) :
    (storeBytes k b s).start = s.start := rfl
@[simp] theorem storeBytes_log (k : Nat) (b : Bytes) (s : State) :
    (storeBytes k b s).log = s.log := rfl
@[simp] theorem storeBytes_host (k : Nat) (b : Bytes) (s : State) :
    (storeBytes k b s).host = s.host := rfl
@[simp] theorem storeBytes_ctx (k : Nat) (b : Bytes) (s : State) :
    (storeBytes k b s).ctx = s.ctx := rfl
@[simp] theorem storeBytes_sec (k : Nat) (b : Bytes) (s : State) :
    (storeBytes k b s).sec = s.sec := rfl
@[simp] theorem storeBytes_loader (k : Nat) (b : Bytes) (s : State) :
    (storeBytes k b s).loader = s.loader := rfl
@[simp] theorem storeBytes_installed (k : Nat) (b : Bytes) (s : State) :
    (storeBytes k b s).installed = s.installed := rfl
@[simp] theorem storeBytes_tiles (k : Nat) (b : Bytes) (s : State) :
    (storeBytes k b s).tiles = s.tiles := rfl
@[simp] theorem storeBytes_dies (k : Nat) (b : Bytes) (s : State) :
    (storeBytes k b s).dies = s.dies := rfl
@[simp] theorem storeBytes_links (k : Nat) (b : Bytes) (s : State) :
    (storeBytes k b s).links = s.links := rfl
@[simp] theorem storeBytes_signals (k : Nat) (b : Bytes) (s : State) :
    (storeBytes k b s).signals = s.signals := rfl
@[simp] theorem storeBytes_defects (k : Nat) (b : Bytes) (s : State) :
    (storeBytes k b s).defects = s.defects := rfl
@[simp] theorem storeBytes_selfTest (k : Nat) (b : Bytes) (s : State) :
    (storeBytes k b s).selfTest = s.selfTest := rfl
@[simp] theorem storeBytes_power (k : Nat) (b : Bytes) (s : State) :
    (storeBytes k b s).power = s.power := rfl
@[simp] theorem storeBytes_thermal (k : Nat) (b : Bytes) (s : State) :
    (storeBytes k b s).thermal = s.thermal := rfl
@[simp] theorem storeBytes_nv (k : Nat) (b : Bytes) (s : State) :
    (storeBytes k b s).nv = s.nv := rfl
@[simp] theorem storeBytes_ports (k : Nat) (b : Bytes) (s : State) :
    (storeBytes k b s).ports = s.ports := rfl
@[simp] theorem storeBytes_fabricGroup (k : Nat) (b : Bytes) (s : State) :
    (storeBytes k b s).fabricGroup = s.fabricGroup := rfl
@[simp] theorem storeBytes_pattern (k : Nat) (b : Bytes) (s : State) :
    (storeBytes k b s).pattern = s.pattern := rfl
@[simp] theorem storeBytes_field (k : Nat) (b : Bytes) (s : State) :
    (storeBytes k b s).field = s.field := rfl
@[simp] theorem storeBytes_coll (k : Nat) (b : Bytes) (s : State) :
    (storeBytes k b s).coll = s.coll := rfl
@[simp] theorem storeBytes_observed (k : Nat) (b : Bytes) (s : State) :
    (storeBytes k b s).observed = s.observed := rfl
@[simp] theorem storeBytes_snapshots (k : Nat) (b : Bytes) (s : State) :
    (storeBytes k b s).snapshots = s.snapshots := rfl
@[simp] theorem storeBytes_badShards (k : Nat) (b : Bytes) (s : State) :
    (storeBytes k b s).badShards = s.badShards := rfl

/-! ### zeroMem -/

@[simp] theorem zeroMem_pending (k n : Nat) (s : State) :
    (zeroMem k n s).pending = s.pending := rfl
@[simp] theorem zeroMem_free (k n : Nat) (s : State) :
    (zeroMem k n s).free = s.free := rfl
@[simp] theorem zeroMem_out (k n : Nat) (s : State) :
    (zeroMem k n s).out = s.out := rfl
@[simp] theorem zeroMem_ticks (k n : Nat) (s : State) :
    (zeroMem k n s).ticks = s.ticks := rfl
@[simp] theorem zeroMem_ident (k n : Nat) (s : State) :
    (zeroMem k n s).ident = s.ident := rfl
@[simp] theorem zeroMem_start (k n : Nat) (s : State) :
    (zeroMem k n s).start = s.start := rfl
@[simp] theorem zeroMem_log (k n : Nat) (s : State) :
    (zeroMem k n s).log = s.log := rfl
@[simp] theorem zeroMem_host (k n : Nat) (s : State) :
    (zeroMem k n s).host = s.host := rfl
@[simp] theorem zeroMem_ctx (k n : Nat) (s : State) :
    (zeroMem k n s).ctx = s.ctx := rfl
@[simp] theorem zeroMem_sec (k n : Nat) (s : State) :
    (zeroMem k n s).sec = s.sec := rfl
@[simp] theorem zeroMem_loader (k n : Nat) (s : State) :
    (zeroMem k n s).loader = s.loader := rfl
@[simp] theorem zeroMem_installed (k n : Nat) (s : State) :
    (zeroMem k n s).installed = s.installed := rfl
@[simp] theorem zeroMem_tiles (k n : Nat) (s : State) :
    (zeroMem k n s).tiles = s.tiles := rfl
@[simp] theorem zeroMem_dies (k n : Nat) (s : State) :
    (zeroMem k n s).dies = s.dies := rfl
@[simp] theorem zeroMem_links (k n : Nat) (s : State) :
    (zeroMem k n s).links = s.links := rfl
@[simp] theorem zeroMem_signals (k n : Nat) (s : State) :
    (zeroMem k n s).signals = s.signals := rfl
@[simp] theorem zeroMem_defects (k n : Nat) (s : State) :
    (zeroMem k n s).defects = s.defects := rfl
@[simp] theorem zeroMem_selfTest (k n : Nat) (s : State) :
    (zeroMem k n s).selfTest = s.selfTest := rfl
@[simp] theorem zeroMem_power (k n : Nat) (s : State) :
    (zeroMem k n s).power = s.power := rfl
@[simp] theorem zeroMem_thermal (k n : Nat) (s : State) :
    (zeroMem k n s).thermal = s.thermal := rfl
@[simp] theorem zeroMem_nv (k n : Nat) (s : State) :
    (zeroMem k n s).nv = s.nv := rfl
@[simp] theorem zeroMem_ports (k n : Nat) (s : State) :
    (zeroMem k n s).ports = s.ports := rfl
@[simp] theorem zeroMem_fabricGroup (k n : Nat) (s : State) :
    (zeroMem k n s).fabricGroup = s.fabricGroup := rfl
@[simp] theorem zeroMem_pattern (k n : Nat) (s : State) :
    (zeroMem k n s).pattern = s.pattern := rfl
@[simp] theorem zeroMem_field (k n : Nat) (s : State) :
    (zeroMem k n s).field = s.field := rfl
@[simp] theorem zeroMem_coll (k n : Nat) (s : State) :
    (zeroMem k n s).coll = s.coll := rfl
@[simp] theorem zeroMem_observed (k n : Nat) (s : State) :
    (zeroMem k n s).observed = s.observed := rfl
@[simp] theorem zeroMem_snapshots (k n : Nat) (s : State) :
    (zeroMem k n s).snapshots = s.snapshots := rfl
@[simp] theorem zeroMem_badShards (k n : Nat) (s : State) :
    (zeroMem k n s).badShards = s.badShards := rfl

/-! ### What the updates give -/

@[simp] theorem modCtx_ctxOf_same (i : Slot) (f : Ctx → Ctx) (s : State) :
    (modCtx i f s).ctxOf i = f (s.ctxOf i) := by simp [modCtx, State.ctxOf]

theorem modCtx_ctxOf_other (i j : Slot) (f : Ctx → Ctx) (s : State) (h : i ≠ j) :
    (modCtx i f s).ctxOf j = s.ctxOf j := by
  have : (i : Nat) ≠ j := fun e => h (Fin.ext e)
  simp [modCtx, State.ctxOf, this]

@[simp] theorem modPort_portOf_same (p : PortId) (f : Port → Port) (s : State) :
    (modPort p f s).portOf p = f (s.portOf p) := by simp [modPort, State.portOf]

theorem modPort_portOf_other (p q : PortId) (f : Port → Port) (s : State) (h : p ≠ q) :
    (modPort p f s).portOf q = s.portOf q := by
  have : (p : Nat) ≠ q := fun e => h (Fin.ext e)
  simp [modPort, State.portOf, this]

@[simp] theorem modDie_dieOf_same (d : DieId) (f : Die → Die) (s : State) :
    (modDie d f s).dieOf d = f (s.dieOf d) := by simp [modDie, State.dieOf]

theorem modDie_dieOf_other (d e : DieId) (f : Die → Die) (s : State) (h : d ≠ e) :
    (modDie d f s).dieOf e = s.dieOf e := by
  have : (d : Nat) ≠ e := fun x => h (Fin.ext x)
  simp [modDie, State.dieOf, this]

@[simp] theorem mapCtx_ctxOf (f : Slot → Ctx → Ctx) (s : State) (i : Slot) :
    (mapCtx f s).ctxOf i = f i (s.ctxOf i) := by simp [mapCtx, State.ctxOf]

@[simp] theorem mapPorts_portOf (f : PortId → Port → Port) (s : State) (p : PortId) :
    (mapPorts f s).portOf p = f p (s.portOf p) := by simp [mapPorts, State.portOf]

@[simp] theorem mapDies_dieOf (f : DieId → Die → Die) (s : State) (d : DieId) :
    (mapDies f s).dieOf d = f d (s.dieOf d) := by simp [mapDies, State.dieOf]

@[simp] theorem drawNext_free (s : State) : (drawNext s).free = s.free + 1 := rfl

@[simp] theorem emit_out (o : Output) (s : State) : (emit o s).out = s.out ++ [o] := rfl

@[simp] theorem storeBytes_mem (k : Nat) (b : Bytes) (s : State) :
    (storeBytes k b s).mem = writeBytes s.mem k b := rfl

@[simp] theorem zeroMem_mem (k n : Nat) (s : State) : (zeroMem k n s).mem = zeroRange s.mem k n := rfl

@[simp] theorem when'_true (f : State → State) (s : State) : when' true f s = f s := rfl

@[simp] theorem when'_false (f : State → State) (s : State) : when' false f s = s := rfl

/-! ### Reads through an update of another part -/

@[simp] theorem modCtx_portOf (i : Slot) (f : Ctx → Ctx) (s : State) (p' : PortId) :
    (modCtx i f s).portOf p' = s.portOf p' := by simp [State.portOf]
@[simp] theorem modCtx_dieOf (i : Slot) (f : Ctx → Ctx) (s : State) (d' : DieId) :
    (modCtx i f s).dieOf d' = s.dieOf d' := by simp [State.dieOf]
@[simp] theorem modCtx_tileOf (i : Slot) (f : Ctx → Ctx) (s : State) (t' : TileId) :
    (modCtx i f s).tileOf t' = s.tileOf t' := by simp [State.tileOf]
@[simp] theorem modQueue_portOf (i : Slot) (q : QId) (f : Queue → Queue) (s : State) (p' : PortId) :
    (modQueue i q f s).portOf p' = s.portOf p' := by simp [State.portOf]
@[simp] theorem modQueue_dieOf (i : Slot) (q : QId) (f : Queue → Queue) (s : State) (d' : DieId) :
    (modQueue i q f s).dieOf d' = s.dieOf d' := by simp [State.dieOf]
@[simp] theorem modQueue_tileOf (i : Slot) (q : QId) (f : Queue → Queue) (s : State) (t' : TileId) :
    (modQueue i q f s).tileOf t' = s.tileOf t' := by simp [State.tileOf]
@[simp] theorem mapCtx_portOf (f : Slot → Ctx → Ctx) (s : State) (p' : PortId) :
    (mapCtx f s).portOf p' = s.portOf p' := by simp [State.portOf]
@[simp] theorem mapCtx_dieOf (f : Slot → Ctx → Ctx) (s : State) (d' : DieId) :
    (mapCtx f s).dieOf d' = s.dieOf d' := by simp [State.dieOf]
@[simp] theorem mapCtx_tileOf (f : Slot → Ctx → Ctx) (s : State) (t' : TileId) :
    (mapCtx f s).tileOf t' = s.tileOf t' := by simp [State.tileOf]
@[simp] theorem modPort_ctxOf (p : PortId) (f : Port → Port) (s : State) (i : Slot) :
    (modPort p f s).ctxOf i = s.ctxOf i := by simp [State.ctxOf]
@[simp] theorem modPort_dieOf (p : PortId) (f : Port → Port) (s : State) (d' : DieId) :
    (modPort p f s).dieOf d' = s.dieOf d' := by simp [State.dieOf]
@[simp] theorem modPort_tileOf (p : PortId) (f : Port → Port) (s : State) (t' : TileId) :
    (modPort p f s).tileOf t' = s.tileOf t' := by simp [State.tileOf]
@[simp] theorem mapPorts_ctxOf (f : PortId → Port → Port) (s : State) (i : Slot) :
    (mapPorts f s).ctxOf i = s.ctxOf i := by simp [State.ctxOf]
@[simp] theorem mapPorts_dieOf (f : PortId → Port → Port) (s : State) (d' : DieId) :
    (mapPorts f s).dieOf d' = s.dieOf d' := by simp [State.dieOf]
@[simp] theorem mapPorts_tileOf (f : PortId → Port → Port) (s : State) (t' : TileId) :
    (mapPorts f s).tileOf t' = s.tileOf t' := by simp [State.tileOf]
@[simp] theorem modDie_ctxOf (d : DieId) (f : Die → Die) (s : State) (i : Slot) :
    (modDie d f s).ctxOf i = s.ctxOf i := by simp [State.ctxOf]
@[simp] theorem modDie_portOf (d : DieId) (f : Die → Die) (s : State) (p' : PortId) :
    (modDie d f s).portOf p' = s.portOf p' := by simp [State.portOf]
@[simp] theorem modDie_tileOf (d : DieId) (f : Die → Die) (s : State) (t' : TileId) :
    (modDie d f s).tileOf t' = s.tileOf t' := by simp [State.tileOf]
@[simp] theorem mapDies_ctxOf (f : DieId → Die → Die) (s : State) (i : Slot) :
    (mapDies f s).ctxOf i = s.ctxOf i := by simp [State.ctxOf]
@[simp] theorem mapDies_portOf (f : DieId → Die → Die) (s : State) (p' : PortId) :
    (mapDies f s).portOf p' = s.portOf p' := by simp [State.portOf]
@[simp] theorem mapDies_tileOf (f : DieId → Die → Die) (s : State) (t' : TileId) :
    (mapDies f s).tileOf t' = s.tileOf t' := by simp [State.tileOf]
@[simp] theorem modTile_ctxOf (t : TileId) (f : Tile → Tile) (s : State) (i : Slot) :
    (modTile t f s).ctxOf i = s.ctxOf i := by simp [State.ctxOf]
@[simp] theorem modTile_portOf (t : TileId) (f : Tile → Tile) (s : State) (p' : PortId) :
    (modTile t f s).portOf p' = s.portOf p' := by simp [State.portOf]
@[simp] theorem modTile_dieOf (t : TileId) (f : Tile → Tile) (s : State) (d' : DieId) :
    (modTile t f s).dieOf d' = s.dieOf d' := by simp [State.dieOf]
@[simp] theorem mapTiles_ctxOf (f : Nat → Tile → Tile) (s : State) (i : Slot) :
    (mapTiles f s).ctxOf i = s.ctxOf i := by simp [State.ctxOf]
@[simp] theorem mapTiles_portOf (f : Nat → Tile → Tile) (s : State) (p' : PortId) :
    (mapTiles f s).portOf p' = s.portOf p' := by simp [State.portOf]
@[simp] theorem mapTiles_dieOf (f : Nat → Tile → Tile) (s : State) (d' : DieId) :
    (mapTiles f s).dieOf d' = s.dieOf d' := by simp [State.dieOf]
@[simp] theorem drawNext_ctxOf (s : State) (i : Slot) :
    (drawNext s).ctxOf i = s.ctxOf i := by simp [State.ctxOf]
@[simp] theorem drawNext_portOf (s : State) (p' : PortId) :
    (drawNext s).portOf p' = s.portOf p' := by simp [State.portOf]
@[simp] theorem drawNext_dieOf (s : State) (d' : DieId) :
    (drawNext s).dieOf d' = s.dieOf d' := by simp [State.dieOf]
@[simp] theorem drawNext_tileOf (s : State) (t' : TileId) :
    (drawNext s).tileOf t' = s.tileOf t' := by simp [State.tileOf]
@[simp] theorem emit_ctxOf (o : Output) (s : State) (i : Slot) :
    (emit o s).ctxOf i = s.ctxOf i := by simp [State.ctxOf]
@[simp] theorem emit_portOf (o : Output) (s : State) (p' : PortId) :
    (emit o s).portOf p' = s.portOf p' := by simp [State.portOf]
@[simp] theorem emit_dieOf (o : Output) (s : State) (d' : DieId) :
    (emit o s).dieOf d' = s.dieOf d' := by simp [State.dieOf]
@[simp] theorem emit_tileOf (o : Output) (s : State) (t' : TileId) :
    (emit o s).tileOf t' = s.tileOf t' := by simp [State.tileOf]
@[simp] theorem storeBytes_ctxOf (k : Nat) (b : Bytes) (s : State) (i : Slot) :
    (storeBytes k b s).ctxOf i = s.ctxOf i := by simp [State.ctxOf]
@[simp] theorem storeBytes_portOf (k : Nat) (b : Bytes) (s : State) (p' : PortId) :
    (storeBytes k b s).portOf p' = s.portOf p' := by simp [State.portOf]
@[simp] theorem storeBytes_dieOf (k : Nat) (b : Bytes) (s : State) (d' : DieId) :
    (storeBytes k b s).dieOf d' = s.dieOf d' := by simp [State.dieOf]
@[simp] theorem storeBytes_tileOf (k : Nat) (b : Bytes) (s : State) (t' : TileId) :
    (storeBytes k b s).tileOf t' = s.tileOf t' := by simp [State.tileOf]
@[simp] theorem zeroMem_ctxOf (k n : Nat) (s : State) (i : Slot) :
    (zeroMem k n s).ctxOf i = s.ctxOf i := by simp [State.ctxOf]
@[simp] theorem zeroMem_portOf (k n : Nat) (s : State) (p' : PortId) :
    (zeroMem k n s).portOf p' = s.portOf p' := by simp [State.portOf]
@[simp] theorem zeroMem_dieOf (k n : Nat) (s : State) (d' : DieId) :
    (zeroMem k n s).dieOf d' = s.dieOf d' := by simp [State.dieOf]
@[simp] theorem zeroMem_tileOf (k n : Nat) (s : State) (t' : TileId) :
    (zeroMem k n s).tileOf t' = s.tileOf t' := by simp [State.tileOf]

end Sys2Proof.Machine
end

