-- ==== Sys2Proof/Laws/Report.lean ====
section
/-! SUPPORT. Everything an MSI-X message and the report of an event can do: the message changes MSIXPBA or leaves the
engine, the report adds one record and may send one message. -/

namespace Sys2Proof.Machine

set_option linter.all false
set_option Elab.async false

open Sys2Proof

@[simp] theorem sendMsix_pending (v : BitVec 6) (s : State) :
    (sendMsix v s).pending = s.pending := by
  unfold sendMsix; split <;> rfl
@[simp] theorem sendMsix_free (v : BitVec 6) (s : State) :
    (sendMsix v s).free = s.free := by
  unfold sendMsix; split <;> rfl
@[simp] theorem sendMsix_ticks (v : BitVec 6) (s : State) :
    (sendMsix v s).ticks = s.ticks := by
  unfold sendMsix; split <;> rfl
@[simp] theorem sendMsix_ident (v : BitVec 6) (s : State) :
    (sendMsix v s).ident = s.ident := by
  unfold sendMsix; split <;> rfl
@[simp] theorem sendMsix_start (v : BitVec 6) (s : State) :
    (sendMsix v s).start = s.start := by
  unfold sendMsix; split <;> rfl
@[simp] theorem sendMsix_log (v : BitVec 6) (s : State) :
    (sendMsix v s).log = s.log := by
  unfold sendMsix; split <;> rfl
@[simp] theorem sendMsix_ctx (v : BitVec 6) (s : State) :
    (sendMsix v s).ctx = s.ctx := by
  unfold sendMsix; split <;> rfl
@[simp] theorem sendMsix_sec (v : BitVec 6) (s : State) :
    (sendMsix v s).sec = s.sec := by
  unfold sendMsix; split <;> rfl
@[simp] theorem sendMsix_loader (v : BitVec 6) (s : State) :
    (sendMsix v s).loader = s.loader := by
  unfold sendMsix; split <;> rfl
@[simp] theorem sendMsix_installed (v : BitVec 6) (s : State) :
    (sendMsix v s).installed = s.installed := by
  unfold sendMsix; split <;> rfl
@[simp] theorem sendMsix_tiles (v : BitVec 6) (s : State) :
    (sendMsix v s).tiles = s.tiles := by
  unfold sendMsix; split <;> rfl
@[simp] theorem sendMsix_dies (v : BitVec 6) (s : State) :
    (sendMsix v s).dies = s.dies := by
  unfold sendMsix; split <;> rfl
@[simp] theorem sendMsix_links (v : BitVec 6) (s : State) :
    (sendMsix v s).links = s.links := by
  unfold sendMsix; split <;> rfl
@[simp] theorem sendMsix_signals (v : BitVec 6) (s : State) :
    (sendMsix v s).signals = s.signals := by
  unfold sendMsix; split <;> rfl
@[simp] theorem sendMsix_defects (v : BitVec 6) (s : State) :
    (sendMsix v s).defects = s.defects := by
  unfold sendMsix; split <;> rfl
@[simp] theorem sendMsix_selfTest (v : BitVec 6) (s : State) :
    (sendMsix v s).selfTest = s.selfTest := by
  unfold sendMsix; split <;> rfl
@[simp] theorem sendMsix_mem (v : BitVec 6) (s : State) :
    (sendMsix v s).mem = s.mem := by
  unfold sendMsix; split <;> rfl
@[simp] theorem sendMsix_power (v : BitVec 6) (s : State) :
    (sendMsix v s).power = s.power := by
  unfold sendMsix; split <;> rfl
@[simp] theorem sendMsix_thermal (v : BitVec 6) (s : State) :
    (sendMsix v s).thermal = s.thermal := by
  unfold sendMsix; split <;> rfl
@[simp] theorem sendMsix_nv (v : BitVec 6) (s : State) :
    (sendMsix v s).nv = s.nv := by
  unfold sendMsix; split <;> rfl
@[simp] theorem sendMsix_ports (v : BitVec 6) (s : State) :
    (sendMsix v s).ports = s.ports := by
  unfold sendMsix; split <;> rfl
@[simp] theorem sendMsix_fabricGroup (v : BitVec 6) (s : State) :
    (sendMsix v s).fabricGroup = s.fabricGroup := by
  unfold sendMsix; split <;> rfl
@[simp] theorem sendMsix_pattern (v : BitVec 6) (s : State) :
    (sendMsix v s).pattern = s.pattern := by
  unfold sendMsix; split <;> rfl
@[simp] theorem sendMsix_field (v : BitVec 6) (s : State) :
    (sendMsix v s).field = s.field := by
  unfold sendMsix; split <;> rfl
@[simp] theorem sendMsix_coll (v : BitVec 6) (s : State) :
    (sendMsix v s).coll = s.coll := by
  unfold sendMsix; split <;> rfl
@[simp] theorem sendMsix_observed (v : BitVec 6) (s : State) :
    (sendMsix v s).observed = s.observed := by
  unfold sendMsix; split <;> rfl
@[simp] theorem sendMsix_snapshots (v : BitVec 6) (s : State) :
    (sendMsix v s).snapshots = s.snapshots := by
  unfold sendMsix; split <;> rfl
@[simp] theorem sendMsix_badShards (v : BitVec 6) (s : State) :
    (sendMsix v s).badShards = s.badShards := by
  unfold sendMsix; split <;> rfl

/-- A message goes out, or its pending bit is set. -/
theorem sendMsix_cases (v : BitVec 6) (s : State) :
    sendMsix v s = emit (.msix v) s ∨
    sendMsix v s = { s with host := { s.host with
      msixPending := s.host.msixPending ||| (1 <<< v.toNat) } } := by
  unfold sendMsix; split
  · exact .inr rfl
  · exact .inl rfl

@[simp] theorem report_pending (e : Ev) (s : State) :
    (report e s).pending = s.pending := by
  unfold report; dsimp only; split <;> simp
@[simp] theorem report_free (e : Ev) (s : State) :
    (report e s).free = s.free := by
  unfold report; dsimp only; split <;> simp
@[simp] theorem report_ticks (e : Ev) (s : State) :
    (report e s).ticks = s.ticks := by
  unfold report; dsimp only; split <;> simp
@[simp] theorem report_ident (e : Ev) (s : State) :
    (report e s).ident = s.ident := by
  unfold report; dsimp only; split <;> simp
@[simp] theorem report_start (e : Ev) (s : State) :
    (report e s).start = s.start := by
  unfold report; dsimp only; split <;> simp
@[simp] theorem report_ctx (e : Ev) (s : State) :
    (report e s).ctx = s.ctx := by
  unfold report; dsimp only; split <;> simp
@[simp] theorem report_sec (e : Ev) (s : State) :
    (report e s).sec = s.sec := by
  unfold report; dsimp only; split <;> simp
@[simp] theorem report_loader (e : Ev) (s : State) :
    (report e s).loader = s.loader := by
  unfold report; dsimp only; split <;> simp
@[simp] theorem report_installed (e : Ev) (s : State) :
    (report e s).installed = s.installed := by
  unfold report; dsimp only; split <;> simp
@[simp] theorem report_tiles (e : Ev) (s : State) :
    (report e s).tiles = s.tiles := by
  unfold report; dsimp only; split <;> simp
@[simp] theorem report_dies (e : Ev) (s : State) :
    (report e s).dies = s.dies := by
  unfold report; dsimp only; split <;> simp
@[simp] theorem report_links (e : Ev) (s : State) :
    (report e s).links = s.links := by
  unfold report; dsimp only; split <;> simp
@[simp] theorem report_signals (e : Ev) (s : State) :
    (report e s).signals = s.signals := by
  unfold report; dsimp only; split <;> simp
@[simp] theorem report_defects (e : Ev) (s : State) :
    (report e s).defects = s.defects := by
  unfold report; dsimp only; split <;> simp
@[simp] theorem report_selfTest (e : Ev) (s : State) :
    (report e s).selfTest = s.selfTest := by
  unfold report; dsimp only; split <;> simp
@[simp] theorem report_mem (e : Ev) (s : State) :
    (report e s).mem = s.mem := by
  unfold report; dsimp only; split <;> simp
@[simp] theorem report_power (e : Ev) (s : State) :
    (report e s).power = s.power := by
  unfold report; dsimp only; split <;> simp
@[simp] theorem report_thermal (e : Ev) (s : State) :
    (report e s).thermal = s.thermal := by
  unfold report; dsimp only; split <;> simp
@[simp] theorem report_nv (e : Ev) (s : State) :
    (report e s).nv = s.nv := by
  unfold report; dsimp only; split <;> simp
@[simp] theorem report_ports (e : Ev) (s : State) :
    (report e s).ports = s.ports := by
  unfold report; dsimp only; split <;> simp
@[simp] theorem report_fabricGroup (e : Ev) (s : State) :
    (report e s).fabricGroup = s.fabricGroup := by
  unfold report; dsimp only; split <;> simp
@[simp] theorem report_pattern (e : Ev) (s : State) :
    (report e s).pattern = s.pattern := by
  unfold report; dsimp only; split <;> simp
@[simp] theorem report_field (e : Ev) (s : State) :
    (report e s).field = s.field := by
  unfold report; dsimp only; split <;> simp
@[simp] theorem report_coll (e : Ev) (s : State) :
    (report e s).coll = s.coll := by
  unfold report; dsimp only; split <;> simp
@[simp] theorem report_observed (e : Ev) (s : State) :
    (report e s).observed = s.observed := by
  unfold report; dsimp only; split <;> simp
@[simp] theorem report_snapshots (e : Ev) (s : State) :
    (report e s).snapshots = s.snapshots := by
  unfold report; dsimp only; split <;> simp
@[simp] theorem report_badShards (e : Ev) (s : State) :
    (report e s).badShards = s.badShards := by
  unfold report; dsimp only; split <;> simp

/-- The log after a report holds one more record (R403). -/
@[simp] theorem report_log (e : Ev) (s : State) : (report e s).log = pushRec s.log (recordOf e s) := by
  unfold report; dsimp only; split <;> simp

@[simp] theorem reportHost_pending (b : Option Nat) (e : Ev) (s : State) :
    (reportHost b e s).pending = s.pending := by
  unfold reportHost; dsimp only; split <;> (try split) <;> simp
@[simp] theorem reportHost_free (b : Option Nat) (e : Ev) (s : State) :
    (reportHost b e s).free = s.free := by
  unfold reportHost; dsimp only; split <;> (try split) <;> simp
@[simp] theorem reportHost_ticks (b : Option Nat) (e : Ev) (s : State) :
    (reportHost b e s).ticks = s.ticks := by
  unfold reportHost; dsimp only; split <;> (try split) <;> simp
@[simp] theorem reportHost_ident (b : Option Nat) (e : Ev) (s : State) :
    (reportHost b e s).ident = s.ident := by
  unfold reportHost; dsimp only; split <;> (try split) <;> simp
@[simp] theorem reportHost_start (b : Option Nat) (e : Ev) (s : State) :
    (reportHost b e s).start = s.start := by
  unfold reportHost; dsimp only; split <;> (try split) <;> simp
@[simp] theorem reportHost_ctx (b : Option Nat) (e : Ev) (s : State) :
    (reportHost b e s).ctx = s.ctx := by
  unfold reportHost; dsimp only; split <;> (try split) <;> simp
@[simp] theorem reportHost_sec (b : Option Nat) (e : Ev) (s : State) :
    (reportHost b e s).sec = s.sec := by
  unfold reportHost; dsimp only; split <;> (try split) <;> simp
@[simp] theorem reportHost_loader (b : Option Nat) (e : Ev) (s : State) :
    (reportHost b e s).loader = s.loader := by
  unfold reportHost; dsimp only; split <;> (try split) <;> simp
@[simp] theorem reportHost_installed (b : Option Nat) (e : Ev) (s : State) :
    (reportHost b e s).installed = s.installed := by
  unfold reportHost; dsimp only; split <;> (try split) <;> simp
@[simp] theorem reportHost_tiles (b : Option Nat) (e : Ev) (s : State) :
    (reportHost b e s).tiles = s.tiles := by
  unfold reportHost; dsimp only; split <;> (try split) <;> simp
@[simp] theorem reportHost_dies (b : Option Nat) (e : Ev) (s : State) :
    (reportHost b e s).dies = s.dies := by
  unfold reportHost; dsimp only; split <;> (try split) <;> simp
@[simp] theorem reportHost_links (b : Option Nat) (e : Ev) (s : State) :
    (reportHost b e s).links = s.links := by
  unfold reportHost; dsimp only; split <;> (try split) <;> simp
@[simp] theorem reportHost_signals (b : Option Nat) (e : Ev) (s : State) :
    (reportHost b e s).signals = s.signals := by
  unfold reportHost; dsimp only; split <;> (try split) <;> simp
@[simp] theorem reportHost_defects (b : Option Nat) (e : Ev) (s : State) :
    (reportHost b e s).defects = s.defects := by
  unfold reportHost; dsimp only; split <;> (try split) <;> simp
@[simp] theorem reportHost_selfTest (b : Option Nat) (e : Ev) (s : State) :
    (reportHost b e s).selfTest = s.selfTest := by
  unfold reportHost; dsimp only; split <;> (try split) <;> simp
@[simp] theorem reportHost_mem (b : Option Nat) (e : Ev) (s : State) :
    (reportHost b e s).mem = s.mem := by
  unfold reportHost; dsimp only; split <;> (try split) <;> simp
@[simp] theorem reportHost_power (b : Option Nat) (e : Ev) (s : State) :
    (reportHost b e s).power = s.power := by
  unfold reportHost; dsimp only; split <;> (try split) <;> simp
@[simp] theorem reportHost_thermal (b : Option Nat) (e : Ev) (s : State) :
    (reportHost b e s).thermal = s.thermal := by
  unfold reportHost; dsimp only; split <;> (try split) <;> simp
@[simp] theorem reportHost_nv (b : Option Nat) (e : Ev) (s : State) :
    (reportHost b e s).nv = s.nv := by
  unfold reportHost; dsimp only; split <;> (try split) <;> simp
@[simp] theorem reportHost_ports (b : Option Nat) (e : Ev) (s : State) :
    (reportHost b e s).ports = s.ports := by
  unfold reportHost; dsimp only; split <;> (try split) <;> simp
@[simp] theorem reportHost_fabricGroup (b : Option Nat) (e : Ev) (s : State) :
    (reportHost b e s).fabricGroup = s.fabricGroup := by
  unfold reportHost; dsimp only; split <;> (try split) <;> simp
@[simp] theorem reportHost_pattern (b : Option Nat) (e : Ev) (s : State) :
    (reportHost b e s).pattern = s.pattern := by
  unfold reportHost; dsimp only; split <;> (try split) <;> simp
@[simp] theorem reportHost_field (b : Option Nat) (e : Ev) (s : State) :
    (reportHost b e s).field = s.field := by
  unfold reportHost; dsimp only; split <;> (try split) <;> simp
@[simp] theorem reportHost_coll (b : Option Nat) (e : Ev) (s : State) :
    (reportHost b e s).coll = s.coll := by
  unfold reportHost; dsimp only; split <;> (try split) <;> simp
@[simp] theorem reportHost_observed (b : Option Nat) (e : Ev) (s : State) :
    (reportHost b e s).observed = s.observed := by
  unfold reportHost; dsimp only; split <;> (try split) <;> simp
@[simp] theorem reportHost_snapshots (b : Option Nat) (e : Ev) (s : State) :
    (reportHost b e s).snapshots = s.snapshots := by
  unfold reportHost; dsimp only; split <;> (try split) <;> simp
@[simp] theorem reportHost_badShards (b : Option Nat) (e : Ev) (s : State) :
    (reportHost b e s).badShards = s.badShards := by
  unfold reportHost; dsimp only; split <;> (try split) <;> simp
@[simp] theorem reportPower_pending (b : Option Nat) (e : Ev) (s : State) :
    (reportPower b e s).pending = s.pending := by
  unfold reportPower; dsimp only; split <;> (try split) <;> simp
@[simp] theorem reportPower_free (b : Option Nat) (e : Ev) (s : State) :
    (reportPower b e s).free = s.free := by
  unfold reportPower; dsimp only; split <;> (try split) <;> simp
@[simp] theorem reportPower_ticks (b : Option Nat) (e : Ev) (s : State) :
    (reportPower b e s).ticks = s.ticks := by
  unfold reportPower; dsimp only; split <;> (try split) <;> simp
@[simp] theorem reportPower_ident (b : Option Nat) (e : Ev) (s : State) :
    (reportPower b e s).ident = s.ident := by
  unfold reportPower; dsimp only; split <;> (try split) <;> simp
@[simp] theorem reportPower_start (b : Option Nat) (e : Ev) (s : State) :
    (reportPower b e s).start = s.start := by
  unfold reportPower; dsimp only; split <;> (try split) <;> simp
@[simp] theorem reportPower_ctx (b : Option Nat) (e : Ev) (s : State) :
    (reportPower b e s).ctx = s.ctx := by
  unfold reportPower; dsimp only; split <;> (try split) <;> simp
@[simp] theorem reportPower_sec (b : Option Nat) (e : Ev) (s : State) :
    (reportPower b e s).sec = s.sec := by
  unfold reportPower; dsimp only; split <;> (try split) <;> simp
@[simp] theorem reportPower_loader (b : Option Nat) (e : Ev) (s : State) :
    (reportPower b e s).loader = s.loader := by
  unfold reportPower; dsimp only; split <;> (try split) <;> simp
@[simp] theorem reportPower_installed (b : Option Nat) (e : Ev) (s : State) :
    (reportPower b e s).installed = s.installed := by
  unfold reportPower; dsimp only; split <;> (try split) <;> simp
@[simp] theorem reportPower_tiles (b : Option Nat) (e : Ev) (s : State) :
    (reportPower b e s).tiles = s.tiles := by
  unfold reportPower; dsimp only; split <;> (try split) <;> simp
@[simp] theorem reportPower_dies (b : Option Nat) (e : Ev) (s : State) :
    (reportPower b e s).dies = s.dies := by
  unfold reportPower; dsimp only; split <;> (try split) <;> simp
@[simp] theorem reportPower_links (b : Option Nat) (e : Ev) (s : State) :
    (reportPower b e s).links = s.links := by
  unfold reportPower; dsimp only; split <;> (try split) <;> simp
@[simp] theorem reportPower_signals (b : Option Nat) (e : Ev) (s : State) :
    (reportPower b e s).signals = s.signals := by
  unfold reportPower; dsimp only; split <;> (try split) <;> simp
@[simp] theorem reportPower_defects (b : Option Nat) (e : Ev) (s : State) :
    (reportPower b e s).defects = s.defects := by
  unfold reportPower; dsimp only; split <;> (try split) <;> simp
@[simp] theorem reportPower_selfTest (b : Option Nat) (e : Ev) (s : State) :
    (reportPower b e s).selfTest = s.selfTest := by
  unfold reportPower; dsimp only; split <;> (try split) <;> simp
@[simp] theorem reportPower_mem (b : Option Nat) (e : Ev) (s : State) :
    (reportPower b e s).mem = s.mem := by
  unfold reportPower; dsimp only; split <;> (try split) <;> simp
@[simp] theorem reportPower_thermal (b : Option Nat) (e : Ev) (s : State) :
    (reportPower b e s).thermal = s.thermal := by
  unfold reportPower; dsimp only; split <;> (try split) <;> simp
@[simp] theorem reportPower_nv (b : Option Nat) (e : Ev) (s : State) :
    (reportPower b e s).nv = s.nv := by
  unfold reportPower; dsimp only; split <;> (try split) <;> simp
@[simp] theorem reportPower_ports (b : Option Nat) (e : Ev) (s : State) :
    (reportPower b e s).ports = s.ports := by
  unfold reportPower; dsimp only; split <;> (try split) <;> simp
@[simp] theorem reportPower_fabricGroup (b : Option Nat) (e : Ev) (s : State) :
    (reportPower b e s).fabricGroup = s.fabricGroup := by
  unfold reportPower; dsimp only; split <;> (try split) <;> simp
@[simp] theorem reportPower_pattern (b : Option Nat) (e : Ev) (s : State) :
    (reportPower b e s).pattern = s.pattern := by
  unfold reportPower; dsimp only; split <;> (try split) <;> simp
@[simp] theorem reportPower_field (b : Option Nat) (e : Ev) (s : State) :
    (reportPower b e s).field = s.field := by
  unfold reportPower; dsimp only; split <;> (try split) <;> simp
@[simp] theorem reportPower_coll (b : Option Nat) (e : Ev) (s : State) :
    (reportPower b e s).coll = s.coll := by
  unfold reportPower; dsimp only; split <;> (try split) <;> simp
@[simp] theorem reportPower_observed (b : Option Nat) (e : Ev) (s : State) :
    (reportPower b e s).observed = s.observed := by
  unfold reportPower; dsimp only; split <;> (try split) <;> simp
@[simp] theorem reportPower_snapshots (b : Option Nat) (e : Ev) (s : State) :
    (reportPower b e s).snapshots = s.snapshots := by
  unfold reportPower; dsimp only; split <;> (try split) <;> simp
@[simp] theorem reportPower_badShards (b : Option Nat) (e : Ev) (s : State) :
    (reportPower b e s).badShards = s.badShards := by
  unfold reportPower; dsimp only; split <;> (try split) <;> simp
@[simp] theorem reportThermal_pending (b : Option Nat) (e : Ev) (s : State) :
    (reportThermal b e s).pending = s.pending := by
  unfold reportThermal; dsimp only; split <;> (try split) <;> simp
@[simp] theorem reportThermal_free (b : Option Nat) (e : Ev) (s : State) :
    (reportThermal b e s).free = s.free := by
  unfold reportThermal; dsimp only; split <;> (try split) <;> simp
@[simp] theorem reportThermal_ticks (b : Option Nat) (e : Ev) (s : State) :
    (reportThermal b e s).ticks = s.ticks := by
  unfold reportThermal; dsimp only; split <;> (try split) <;> simp
@[simp] theorem reportThermal_ident (b : Option Nat) (e : Ev) (s : State) :
    (reportThermal b e s).ident = s.ident := by
  unfold reportThermal; dsimp only; split <;> (try split) <;> simp
@[simp] theorem reportThermal_start (b : Option Nat) (e : Ev) (s : State) :
    (reportThermal b e s).start = s.start := by
  unfold reportThermal; dsimp only; split <;> (try split) <;> simp
@[simp] theorem reportThermal_ctx (b : Option Nat) (e : Ev) (s : State) :
    (reportThermal b e s).ctx = s.ctx := by
  unfold reportThermal; dsimp only; split <;> (try split) <;> simp
@[simp] theorem reportThermal_sec (b : Option Nat) (e : Ev) (s : State) :
    (reportThermal b e s).sec = s.sec := by
  unfold reportThermal; dsimp only; split <;> (try split) <;> simp
@[simp] theorem reportThermal_loader (b : Option Nat) (e : Ev) (s : State) :
    (reportThermal b e s).loader = s.loader := by
  unfold reportThermal; dsimp only; split <;> (try split) <;> simp
@[simp] theorem reportThermal_installed (b : Option Nat) (e : Ev) (s : State) :
    (reportThermal b e s).installed = s.installed := by
  unfold reportThermal; dsimp only; split <;> (try split) <;> simp
@[simp] theorem reportThermal_tiles (b : Option Nat) (e : Ev) (s : State) :
    (reportThermal b e s).tiles = s.tiles := by
  unfold reportThermal; dsimp only; split <;> (try split) <;> simp
@[simp] theorem reportThermal_dies (b : Option Nat) (e : Ev) (s : State) :
    (reportThermal b e s).dies = s.dies := by
  unfold reportThermal; dsimp only; split <;> (try split) <;> simp
@[simp] theorem reportThermal_links (b : Option Nat) (e : Ev) (s : State) :
    (reportThermal b e s).links = s.links := by
  unfold reportThermal; dsimp only; split <;> (try split) <;> simp
@[simp] theorem reportThermal_signals (b : Option Nat) (e : Ev) (s : State) :
    (reportThermal b e s).signals = s.signals := by
  unfold reportThermal; dsimp only; split <;> (try split) <;> simp
@[simp] theorem reportThermal_defects (b : Option Nat) (e : Ev) (s : State) :
    (reportThermal b e s).defects = s.defects := by
  unfold reportThermal; dsimp only; split <;> (try split) <;> simp
@[simp] theorem reportThermal_selfTest (b : Option Nat) (e : Ev) (s : State) :
    (reportThermal b e s).selfTest = s.selfTest := by
  unfold reportThermal; dsimp only; split <;> (try split) <;> simp
@[simp] theorem reportThermal_mem (b : Option Nat) (e : Ev) (s : State) :
    (reportThermal b e s).mem = s.mem := by
  unfold reportThermal; dsimp only; split <;> (try split) <;> simp
@[simp] theorem reportThermal_power (b : Option Nat) (e : Ev) (s : State) :
    (reportThermal b e s).power = s.power := by
  unfold reportThermal; dsimp only; split <;> (try split) <;> simp
@[simp] theorem reportThermal_nv (b : Option Nat) (e : Ev) (s : State) :
    (reportThermal b e s).nv = s.nv := by
  unfold reportThermal; dsimp only; split <;> (try split) <;> simp
@[simp] theorem reportThermal_ports (b : Option Nat) (e : Ev) (s : State) :
    (reportThermal b e s).ports = s.ports := by
  unfold reportThermal; dsimp only; split <;> (try split) <;> simp
@[simp] theorem reportThermal_fabricGroup (b : Option Nat) (e : Ev) (s : State) :
    (reportThermal b e s).fabricGroup = s.fabricGroup := by
  unfold reportThermal; dsimp only; split <;> (try split) <;> simp
@[simp] theorem reportThermal_pattern (b : Option Nat) (e : Ev) (s : State) :
    (reportThermal b e s).pattern = s.pattern := by
  unfold reportThermal; dsimp only; split <;> (try split) <;> simp
@[simp] theorem reportThermal_field (b : Option Nat) (e : Ev) (s : State) :
    (reportThermal b e s).field = s.field := by
  unfold reportThermal; dsimp only; split <;> (try split) <;> simp
@[simp] theorem reportThermal_coll (b : Option Nat) (e : Ev) (s : State) :
    (reportThermal b e s).coll = s.coll := by
  unfold reportThermal; dsimp only; split <;> (try split) <;> simp
@[simp] theorem reportThermal_observed (b : Option Nat) (e : Ev) (s : State) :
    (reportThermal b e s).observed = s.observed := by
  unfold reportThermal; dsimp only; split <;> (try split) <;> simp
@[simp] theorem reportThermal_snapshots (b : Option Nat) (e : Ev) (s : State) :
    (reportThermal b e s).snapshots = s.snapshots := by
  unfold reportThermal; dsimp only; split <;> (try split) <;> simp
@[simp] theorem reportThermal_badShards (b : Option Nat) (e : Ev) (s : State) :
    (reportThermal b e s).badShards = s.badShards := by
  unfold reportThermal; dsimp only; split <;> (try split) <;> simp
@[simp] theorem reportNv_pending (b : Option Nat) (e : Ev) (s : State) :
    (reportNv b e s).pending = s.pending := by
  unfold reportNv; dsimp only; split <;> (try split) <;> simp
@[simp] theorem reportNv_free (b : Option Nat) (e : Ev) (s : State) :
    (reportNv b e s).free = s.free := by
  unfold reportNv; dsimp only; split <;> (try split) <;> simp
@[simp] theorem reportNv_ticks (b : Option Nat) (e : Ev) (s : State) :
    (reportNv b e s).ticks = s.ticks := by
  unfold reportNv; dsimp only; split <;> (try split) <;> simp
@[simp] theorem reportNv_ident (b : Option Nat) (e : Ev) (s : State) :
    (reportNv b e s).ident = s.ident := by
  unfold reportNv; dsimp only; split <;> (try split) <;> simp
@[simp] theorem reportNv_start (b : Option Nat) (e : Ev) (s : State) :
    (reportNv b e s).start = s.start := by
  unfold reportNv; dsimp only; split <;> (try split) <;> simp
@[simp] theorem reportNv_ctx (b : Option Nat) (e : Ev) (s : State) :
    (reportNv b e s).ctx = s.ctx := by
  unfold reportNv; dsimp only; split <;> (try split) <;> simp
@[simp] theorem reportNv_sec (b : Option Nat) (e : Ev) (s : State) :
    (reportNv b e s).sec = s.sec := by
  unfold reportNv; dsimp only; split <;> (try split) <;> simp
@[simp] theorem reportNv_loader (b : Option Nat) (e : Ev) (s : State) :
    (reportNv b e s).loader = s.loader := by
  unfold reportNv; dsimp only; split <;> (try split) <;> simp
@[simp] theorem reportNv_installed (b : Option Nat) (e : Ev) (s : State) :
    (reportNv b e s).installed = s.installed := by
  unfold reportNv; dsimp only; split <;> (try split) <;> simp
@[simp] theorem reportNv_tiles (b : Option Nat) (e : Ev) (s : State) :
    (reportNv b e s).tiles = s.tiles := by
  unfold reportNv; dsimp only; split <;> (try split) <;> simp
@[simp] theorem reportNv_dies (b : Option Nat) (e : Ev) (s : State) :
    (reportNv b e s).dies = s.dies := by
  unfold reportNv; dsimp only; split <;> (try split) <;> simp
@[simp] theorem reportNv_links (b : Option Nat) (e : Ev) (s : State) :
    (reportNv b e s).links = s.links := by
  unfold reportNv; dsimp only; split <;> (try split) <;> simp
@[simp] theorem reportNv_signals (b : Option Nat) (e : Ev) (s : State) :
    (reportNv b e s).signals = s.signals := by
  unfold reportNv; dsimp only; split <;> (try split) <;> simp
@[simp] theorem reportNv_defects (b : Option Nat) (e : Ev) (s : State) :
    (reportNv b e s).defects = s.defects := by
  unfold reportNv; dsimp only; split <;> (try split) <;> simp
@[simp] theorem reportNv_selfTest (b : Option Nat) (e : Ev) (s : State) :
    (reportNv b e s).selfTest = s.selfTest := by
  unfold reportNv; dsimp only; split <;> (try split) <;> simp
@[simp] theorem reportNv_mem (b : Option Nat) (e : Ev) (s : State) :
    (reportNv b e s).mem = s.mem := by
  unfold reportNv; dsimp only; split <;> (try split) <;> simp
@[simp] theorem reportNv_power (b : Option Nat) (e : Ev) (s : State) :
    (reportNv b e s).power = s.power := by
  unfold reportNv; dsimp only; split <;> (try split) <;> simp
@[simp] theorem reportNv_thermal (b : Option Nat) (e : Ev) (s : State) :
    (reportNv b e s).thermal = s.thermal := by
  unfold reportNv; dsimp only; split <;> (try split) <;> simp
@[simp] theorem reportNv_ports (b : Option Nat) (e : Ev) (s : State) :
    (reportNv b e s).ports = s.ports := by
  unfold reportNv; dsimp only; split <;> (try split) <;> simp
@[simp] theorem reportNv_fabricGroup (b : Option Nat) (e : Ev) (s : State) :
    (reportNv b e s).fabricGroup = s.fabricGroup := by
  unfold reportNv; dsimp only; split <;> (try split) <;> simp
@[simp] theorem reportNv_pattern (b : Option Nat) (e : Ev) (s : State) :
    (reportNv b e s).pattern = s.pattern := by
  unfold reportNv; dsimp only; split <;> (try split) <;> simp
@[simp] theorem reportNv_field (b : Option Nat) (e : Ev) (s : State) :
    (reportNv b e s).field = s.field := by
  unfold reportNv; dsimp only; split <;> (try split) <;> simp
@[simp] theorem reportNv_coll (b : Option Nat) (e : Ev) (s : State) :
    (reportNv b e s).coll = s.coll := by
  unfold reportNv; dsimp only; split <;> (try split) <;> simp
@[simp] theorem reportNv_observed (b : Option Nat) (e : Ev) (s : State) :
    (reportNv b e s).observed = s.observed := by
  unfold reportNv; dsimp only; split <;> (try split) <;> simp
@[simp] theorem reportNv_snapshots (b : Option Nat) (e : Ev) (s : State) :
    (reportNv b e s).snapshots = s.snapshots := by
  unfold reportNv; dsimp only; split <;> (try split) <;> simp
@[simp] theorem reportNv_badShards (b : Option Nat) (e : Ev) (s : State) :
    (reportNv b e s).badShards = s.badShards := by
  unfold reportNv; dsimp only; split <;> (try split) <;> simp
@[simp] theorem reportCtx_pending (i : Slot) (b : Option Nat) (e : Ev) (s : State) :
    (reportCtx i b e s).pending = s.pending := by
  simp [reportCtx]
@[simp] theorem reportCtx_free (i : Slot) (b : Option Nat) (e : Ev) (s : State) :
    (reportCtx i b e s).free = s.free := by
  simp [reportCtx]
@[simp] theorem reportCtx_ticks (i : Slot) (b : Option Nat) (e : Ev) (s : State) :
    (reportCtx i b e s).ticks = s.ticks := by
  simp [reportCtx]
@[simp] theorem reportCtx_ident (i : Slot) (b : Option Nat) (e : Ev) (s : State) :
    (reportCtx i b e s).ident = s.ident := by
  simp [reportCtx]
@[simp] theorem reportCtx_start (i : Slot) (b : Option Nat) (e : Ev) (s : State) :
    (reportCtx i b e s).start = s.start := by
  simp [reportCtx]
@[simp] theorem reportCtx_sec (i : Slot) (b : Option Nat) (e : Ev) (s : State) :
    (reportCtx i b e s).sec = s.sec := by
  simp [reportCtx]
@[simp] theorem reportCtx_loader (i : Slot) (b : Option Nat) (e : Ev) (s : State) :
    (reportCtx i b e s).loader = s.loader := by
  simp [reportCtx]
@[simp] theorem reportCtx_installed (i : Slot) (b : Option Nat) (e : Ev) (s : State) :
    (reportCtx i b e s).installed = s.installed := by
  simp [reportCtx]
@[simp] theorem reportCtx_tiles (i : Slot) (b : Option Nat) (e : Ev) (s : State) :
    (reportCtx i b e s).tiles = s.tiles := by
  simp [reportCtx]
@[simp] theorem reportCtx_dies (i : Slot) (b : Option Nat) (e : Ev) (s : State) :
    (reportCtx i b e s).dies = s.dies := by
  simp [reportCtx]
@[simp] theorem reportCtx_links (i : Slot) (b : Option Nat) (e : Ev) (s : State) :
    (reportCtx i b e s).links = s.links := by
  simp [reportCtx]
@[simp] theorem reportCtx_signals (i : Slot) (b : Option Nat) (e : Ev) (s : State) :
    (reportCtx i b e s).signals = s.signals := by
  simp [reportCtx]
@[simp] theorem reportCtx_defects (i : Slot) (b : Option Nat) (e : Ev) (s : State) :
    (reportCtx i b e s).defects = s.defects := by
  simp [reportCtx]
@[simp] theorem reportCtx_selfTest (i : Slot) (b : Option Nat) (e : Ev) (s : State) :
    (reportCtx i b e s).selfTest = s.selfTest := by
  simp [reportCtx]
@[simp] theorem reportCtx_mem (i : Slot) (b : Option Nat) (e : Ev) (s : State) :
    (reportCtx i b e s).mem = s.mem := by
  simp [reportCtx]
@[simp] theorem reportCtx_power (i : Slot) (b : Option Nat) (e : Ev) (s : State) :
    (reportCtx i b e s).power = s.power := by
  simp [reportCtx]
@[simp] theorem reportCtx_thermal (i : Slot) (b : Option Nat) (e : Ev) (s : State) :
    (reportCtx i b e s).thermal = s.thermal := by
  simp [reportCtx]
@[simp] theorem reportCtx_nv (i : Slot) (b : Option Nat) (e : Ev) (s : State) :
    (reportCtx i b e s).nv = s.nv := by
  simp [reportCtx]
@[simp] theorem reportCtx_ports (i : Slot) (b : Option Nat) (e : Ev) (s : State) :
    (reportCtx i b e s).ports = s.ports := by
  simp [reportCtx]
@[simp] theorem reportCtx_fabricGroup (i : Slot) (b : Option Nat) (e : Ev) (s : State) :
    (reportCtx i b e s).fabricGroup = s.fabricGroup := by
  simp [reportCtx]
@[simp] theorem reportCtx_pattern (i : Slot) (b : Option Nat) (e : Ev) (s : State) :
    (reportCtx i b e s).pattern = s.pattern := by
  simp [reportCtx]
@[simp] theorem reportCtx_field (i : Slot) (b : Option Nat) (e : Ev) (s : State) :
    (reportCtx i b e s).field = s.field := by
  simp [reportCtx]
@[simp] theorem reportCtx_coll (i : Slot) (b : Option Nat) (e : Ev) (s : State) :
    (reportCtx i b e s).coll = s.coll := by
  simp [reportCtx]
@[simp] theorem reportCtx_observed (i : Slot) (b : Option Nat) (e : Ev) (s : State) :
    (reportCtx i b e s).observed = s.observed := by
  simp [reportCtx]
@[simp] theorem reportCtx_snapshots (i : Slot) (b : Option Nat) (e : Ev) (s : State) :
    (reportCtx i b e s).snapshots = s.snapshots := by
  simp [reportCtx]
@[simp] theorem reportCtx_badShards (i : Slot) (b : Option Nat) (e : Ev) (s : State) :
    (reportCtx i b e s).badShards = s.badShards := by
  simp [reportCtx]
@[simp] theorem reportPort_pending (p : PortId) (b : Option Nat) (e : Ev) (s : State) :
    (reportPort p b e s).pending = s.pending := by
  simp [reportPort]
@[simp] theorem reportPort_free (p : PortId) (b : Option Nat) (e : Ev) (s : State) :
    (reportPort p b e s).free = s.free := by
  simp [reportPort]
@[simp] theorem reportPort_ticks (p : PortId) (b : Option Nat) (e : Ev) (s : State) :
    (reportPort p b e s).ticks = s.ticks := by
  simp [reportPort]
@[simp] theorem reportPort_ident (p : PortId) (b : Option Nat) (e : Ev) (s : State) :
    (reportPort p b e s).ident = s.ident := by
  simp [reportPort]
@[simp] theorem reportPort_start (p : PortId) (b : Option Nat) (e : Ev) (s : State) :
    (reportPort p b e s).start = s.start := by
  simp [reportPort]
@[simp] theorem reportPort_ctx (p : PortId) (b : Option Nat) (e : Ev) (s : State) :
    (reportPort p b e s).ctx = s.ctx := by
  simp [reportPort]
@[simp] theorem reportPort_sec (p : PortId) (b : Option Nat) (e : Ev) (s : State) :
    (reportPort p b e s).sec = s.sec := by
  simp [reportPort]
@[simp] theorem reportPort_loader (p : PortId) (b : Option Nat) (e : Ev) (s : State) :
    (reportPort p b e s).loader = s.loader := by
  simp [reportPort]
@[simp] theorem reportPort_installed (p : PortId) (b : Option Nat) (e : Ev) (s : State) :
    (reportPort p b e s).installed = s.installed := by
  simp [reportPort]
@[simp] theorem reportPort_tiles (p : PortId) (b : Option Nat) (e : Ev) (s : State) :
    (reportPort p b e s).tiles = s.tiles := by
  simp [reportPort]
@[simp] theorem reportPort_dies (p : PortId) (b : Option Nat) (e : Ev) (s : State) :
    (reportPort p b e s).dies = s.dies := by
  simp [reportPort]
@[simp] theorem reportPort_links (p : PortId) (b : Option Nat) (e : Ev) (s : State) :
    (reportPort p b e s).links = s.links := by
  simp [reportPort]
@[simp] theorem reportPort_signals (p : PortId) (b : Option Nat) (e : Ev) (s : State) :
    (reportPort p b e s).signals = s.signals := by
  simp [reportPort]
@[simp] theorem reportPort_defects (p : PortId) (b : Option Nat) (e : Ev) (s : State) :
    (reportPort p b e s).defects = s.defects := by
  simp [reportPort]
@[simp] theorem reportPort_selfTest (p : PortId) (b : Option Nat) (e : Ev) (s : State) :
    (reportPort p b e s).selfTest = s.selfTest := by
  simp [reportPort]
@[simp] theorem reportPort_mem (p : PortId) (b : Option Nat) (e : Ev) (s : State) :
    (reportPort p b e s).mem = s.mem := by
  simp [reportPort]
@[simp] theorem reportPort_power (p : PortId) (b : Option Nat) (e : Ev) (s : State) :
    (reportPort p b e s).power = s.power := by
  simp [reportPort]
@[simp] theorem reportPort_thermal (p : PortId) (b : Option Nat) (e : Ev) (s : State) :
    (reportPort p b e s).thermal = s.thermal := by
  simp [reportPort]
@[simp] theorem reportPort_nv (p : PortId) (b : Option Nat) (e : Ev) (s : State) :
    (reportPort p b e s).nv = s.nv := by
  simp [reportPort]
@[simp] theorem reportPort_fabricGroup (p : PortId) (b : Option Nat) (e : Ev) (s : State) :
    (reportPort p b e s).fabricGroup = s.fabricGroup := by
  simp [reportPort]
@[simp] theorem reportPort_pattern (p : PortId) (b : Option Nat) (e : Ev) (s : State) :
    (reportPort p b e s).pattern = s.pattern := by
  simp [reportPort]
@[simp] theorem reportPort_field (p : PortId) (b : Option Nat) (e : Ev) (s : State) :
    (reportPort p b e s).field = s.field := by
  simp [reportPort]
@[simp] theorem reportPort_coll (p : PortId) (b : Option Nat) (e : Ev) (s : State) :
    (reportPort p b e s).coll = s.coll := by
  simp [reportPort]
@[simp] theorem reportPort_observed (p : PortId) (b : Option Nat) (e : Ev) (s : State) :
    (reportPort p b e s).observed = s.observed := by
  simp [reportPort]
@[simp] theorem reportPort_snapshots (p : PortId) (b : Option Nat) (e : Ev) (s : State) :
    (reportPort p b e s).snapshots = s.snapshots := by
  simp [reportPort]
@[simp] theorem reportPort_badShards (p : PortId) (b : Option Nat) (e : Ev) (s : State) :
    (reportPort p b e s).badShards = s.badShards := by
  simp [reportPort]

@[simp] theorem reportHost_log (b : Option Nat) (e : Ev) (s : State) :
    (reportHost b e s).log = pushRec s.log (recordOf e s) := by
  unfold reportHost; dsimp only; split <;> (try split) <;> simp [recordOf, tickMs]

@[simp] theorem reportPower_log (b : Option Nat) (e : Ev) (s : State) :
    (reportPower b e s).log = pushRec s.log (recordOf e s) := by
  unfold reportPower; dsimp only; split <;> (try split) <;> simp [recordOf, tickMs]

@[simp] theorem reportThermal_log (b : Option Nat) (e : Ev) (s : State) :
    (reportThermal b e s).log = pushRec s.log (recordOf e s) := by
  unfold reportThermal; dsimp only; split <;> (try split) <;> simp [recordOf, tickMs]

@[simp] theorem reportNv_log (b : Option Nat) (e : Ev) (s : State) :
    (reportNv b e s).log = pushRec s.log (recordOf e s) := by
  unfold reportNv; dsimp only; split <;> (try split) <;> simp [recordOf, tickMs]

@[simp] theorem reportCtx_log (i : Slot) (b : Option Nat) (e : Ev) (s : State) :
    (reportCtx i b e s).log = pushRec s.log (recordOf { e with slot := BitVec.ofNat 8 i } s) := by
  simp [reportCtx]

@[simp] theorem reportPort_log (p : PortId) (b : Option Nat) (e : Ev) (s : State) :
    (reportPort p b e s).log = pushRec s.log (recordOf { e with loc := locPort p } s) := by
  simp [reportPort]
@[simp] theorem report_ctxOf (e : Ev) (s : State) (i : Slot) :
    (report e s).ctxOf i = s.ctxOf i := by
  simp [State.ctxOf]
@[simp] theorem report_portOf (e : Ev) (s : State) (p' : PortId) :
    (report e s).portOf p' = s.portOf p' := by
  simp [State.portOf]
@[simp] theorem report_dieOf (e : Ev) (s : State) (d' : DieId) :
    (report e s).dieOf d' = s.dieOf d' := by
  simp [State.dieOf]
@[simp] theorem report_tileOf (e : Ev) (s : State) (t' : TileId) :
    (report e s).tileOf t' = s.tileOf t' := by
  simp [State.tileOf]
@[simp] theorem reportCtx_portOf (i : Slot) (b : Option Nat) (e : Ev) (s : State) (p' : PortId) :
    (reportCtx i b e s).portOf p' = s.portOf p' := by
  simp [State.portOf]
@[simp] theorem reportCtx_dieOf (i : Slot) (b : Option Nat) (e : Ev) (s : State) (d' : DieId) :
    (reportCtx i b e s).dieOf d' = s.dieOf d' := by
  simp [State.dieOf]
@[simp] theorem reportCtx_tileOf (i : Slot) (b : Option Nat) (e : Ev) (s : State) (t' : TileId) :
    (reportCtx i b e s).tileOf t' = s.tileOf t' := by
  simp [State.tileOf]
@[simp] theorem reportPort_ctxOf (p : PortId) (b : Option Nat) (e : Ev) (s : State) (i : Slot) :
    (reportPort p b e s).ctxOf i = s.ctxOf i := by
  simp [State.ctxOf]
@[simp] theorem reportPort_dieOf (p : PortId) (b : Option Nat) (e : Ev) (s : State) (d' : DieId) :
    (reportPort p b e s).dieOf d' = s.dieOf d' := by
  simp [State.dieOf]
@[simp] theorem reportPort_tileOf (p : PortId) (b : Option Nat) (e : Ev) (s : State) (t' : TileId) :
    (reportPort p b e s).tileOf t' = s.tileOf t' := by
  simp [State.tileOf]
@[simp] theorem reportHost_ctxOf (b : Option Nat) (e : Ev) (s : State) (i : Slot) :
    (reportHost b e s).ctxOf i = s.ctxOf i := by
  simp [State.ctxOf]
@[simp] theorem reportHost_portOf (b : Option Nat) (e : Ev) (s : State) (p' : PortId) :
    (reportHost b e s).portOf p' = s.portOf p' := by
  simp [State.portOf]
@[simp] theorem reportHost_dieOf (b : Option Nat) (e : Ev) (s : State) (d' : DieId) :
    (reportHost b e s).dieOf d' = s.dieOf d' := by
  simp [State.dieOf]
@[simp] theorem reportHost_tileOf (b : Option Nat) (e : Ev) (s : State) (t' : TileId) :
    (reportHost b e s).tileOf t' = s.tileOf t' := by
  simp [State.tileOf]
@[simp] theorem reportPower_ctxOf (b : Option Nat) (e : Ev) (s : State) (i : Slot) :
    (reportPower b e s).ctxOf i = s.ctxOf i := by
  simp [State.ctxOf]
@[simp] theorem reportPower_portOf (b : Option Nat) (e : Ev) (s : State) (p' : PortId) :
    (reportPower b e s).portOf p' = s.portOf p' := by
  simp [State.portOf]
@[simp] theorem reportPower_dieOf (b : Option Nat) (e : Ev) (s : State) (d' : DieId) :
    (reportPower b e s).dieOf d' = s.dieOf d' := by
  simp [State.dieOf]
@[simp] theorem reportPower_tileOf (b : Option Nat) (e : Ev) (s : State) (t' : TileId) :
    (reportPower b e s).tileOf t' = s.tileOf t' := by
  simp [State.tileOf]
@[simp] theorem reportThermal_ctxOf (b : Option Nat) (e : Ev) (s : State) (i : Slot) :
    (reportThermal b e s).ctxOf i = s.ctxOf i := by
  simp [State.ctxOf]
@[simp] theorem reportThermal_portOf (b : Option Nat) (e : Ev) (s : State) (p' : PortId) :
    (reportThermal b e s).portOf p' = s.portOf p' := by
  simp [State.portOf]
@[simp] theorem reportThermal_dieOf (b : Option Nat) (e : Ev) (s : State) (d' : DieId) :
    (reportThermal b e s).dieOf d' = s.dieOf d' := by
  simp [State.dieOf]
@[simp] theorem reportThermal_tileOf (b : Option Nat) (e : Ev) (s : State) (t' : TileId) :
    (reportThermal b e s).tileOf t' = s.tileOf t' := by
  simp [State.tileOf]
@[simp] theorem reportNv_ctxOf (b : Option Nat) (e : Ev) (s : State) (i : Slot) :
    (reportNv b e s).ctxOf i = s.ctxOf i := by
  simp [State.ctxOf]
@[simp] theorem reportNv_portOf (b : Option Nat) (e : Ev) (s : State) (p' : PortId) :
    (reportNv b e s).portOf p' = s.portOf p' := by
  simp [State.portOf]
@[simp] theorem reportNv_dieOf (b : Option Nat) (e : Ev) (s : State) (d' : DieId) :
    (reportNv b e s).dieOf d' = s.dieOf d' := by
  simp [State.dieOf]
@[simp] theorem reportNv_tileOf (b : Option Nat) (e : Ev) (s : State) (t' : TileId) :
    (reportNv b e s).tileOf t' = s.tileOf t' := by
  simp [State.tileOf]

end Sys2Proof.Machine
end

