-- ==== Sys2Proof/Laws/Frame.lean ====
section
/-! SUPPORT. The frame of every shared operation, said once: which parts of the state it can change. The lemmas of the
Frame files compose, so that a command's frame cites one lemma per operation. -/

namespace Sys2Proof.Machine

set_option linter.all false
set_option Elab.async false

open Sys2Proof

variable {L : List Block} {s x y : State}

theorem changesOnly_refl : changesOnly L s s :=
  ⟨rfl, fun b _ => by cases b <;> rfl⟩

theorem unchanged_trans {b : Block} (h : unchanged s x b) (k : unchanged x y b) : unchanged s y b := by
  cases b <;> exact Eq.trans k h

theorem changesOnly_trans (h : changesOnly L s x) (k : changesOnly L x y) : changesOnly L s y :=
  ⟨k.1.trans h.1, fun b hb => unchanged_trans (h.2 b hb) (k.2 b hb)⟩

theorem changesOnly_mono {M : List Block} (h : changesOnly L s x) (hL : L ⊆ M) : changesOnly M s x :=
  ⟨h.1, fun b hb => h.2 b fun hm => hb (hL hm)⟩

/-- A state literal over an earlier state: every part is that state's or is listed. -/
theorem changesOnly_lit
    {free' : Nat} {out' : List Output} {ticks' : Nat} {ident' : Ident} {start' : Startup} {log' : EventLog}
    {host' : HostAttach} {ctx' : Vector Ctx 8} {sec' : Security} {loader' : Loader}
    {installed' : Option Installed} {tiles' : List (Nat × Tile)} {dies' : Vector Die 36}
    {links' : List LinkState} {signals' : List RouteSignal} {defects' : DefectMap} {selfTest' : SelfTest}
    {mem' : List Host.Cell} {power' : Power} {thermal' : Thermal} {nv' : Nv} {ports' : Vector Port 16}
    {fabricGroup' : BitVec 12} {pattern' : Pattern} {field' : Field} {coll' : Collective} {observed' : Nat}
    {snapshots' : Nat} {badShards' : Nat}
    (h : changesOnly L s x)
    (h_free : free' = x.free ∨ Block.free ∈ L) (h_out : out' = x.out ∨ Block.out ∈ L)
    (h_ticks : ticks' = x.ticks ∨ Block.ticks ∈ L) (h_ident : ident' = x.ident ∨ Block.ident ∈ L)
    (h_start : start' = x.start ∨ Block.start ∈ L) (h_log : log' = x.log ∨ Block.log ∈ L)
    (h_host : host' = x.host ∨ Block.host ∈ L) (h_ctx : ctx' = x.ctx ∨ Block.ctx ∈ L)
    (h_sec : sec' = x.sec ∨ Block.sec ∈ L) (h_loader : loader' = x.loader ∨ Block.loader ∈ L)
    (h_installed : installed' = x.installed ∨ Block.installed ∈ L)
    (h_tiles : tiles' = x.tiles ∨ Block.tiles ∈ L) (h_dies : dies' = x.dies ∨ Block.dies ∈ L)
    (h_links : links' = x.links ∨ Block.links ∈ L) (h_signals : signals' = x.signals ∨ Block.signals ∈ L)
    (h_defects : defects' = x.defects ∨ Block.defects ∈ L)
    (h_selfTest : selfTest' = x.selfTest ∨ Block.selfTest ∈ L) (h_mem : mem' = x.mem ∨ Block.mem ∈ L)
    (h_power : power' = x.power ∨ Block.power ∈ L) (h_thermal : thermal' = x.thermal ∨ Block.thermal ∈ L)
    (h_nv : nv' = x.nv ∨ Block.nv ∈ L) (h_ports : ports' = x.ports ∨ Block.ports ∈ L)
    (h_fabricGroup : fabricGroup' = x.fabricGroup ∨ Block.fabricGroup ∈ L)
    (h_pattern : pattern' = x.pattern ∨ Block.pattern ∈ L) (h_field : field' = x.field ∨ Block.field ∈ L)
    (h_coll : coll' = x.coll ∨ Block.coll ∈ L) (h_observed : observed' = x.observed ∨ Block.observed ∈ L)
    (h_snapshots : snapshots' = x.snapshots ∨ Block.snapshots ∈ L)
    (h_badShards : badShards' = x.badShards ∨ Block.badShards ∈ L) :
    changesOnly L s
      ⟨x.pending, free', out', ticks', ident', start', log', host', ctx', sec', loader', installed', tiles',
      dies', links', signals', defects', selfTest', mem', power', thermal', nv', ports', fabricGroup', pattern',
      field', coll', observed', snapshots', badShards'⟩ := by
  refine ⟨h.1, fun b hb => unchanged_trans (h.2 b hb) ?_⟩
  cases b
  · exact h_free.resolve_right hb
  · exact h_out.resolve_right hb
  · exact h_ticks.resolve_right hb
  · exact h_ident.resolve_right hb
  · exact h_start.resolve_right hb
  · exact h_log.resolve_right hb
  · exact h_host.resolve_right hb
  · exact h_ctx.resolve_right hb
  · exact h_sec.resolve_right hb
  · exact h_loader.resolve_right hb
  · exact h_installed.resolve_right hb
  · exact h_tiles.resolve_right hb
  · exact h_dies.resolve_right hb
  · exact h_links.resolve_right hb
  · exact h_signals.resolve_right hb
  · exact h_defects.resolve_right hb
  · exact h_selfTest.resolve_right hb
  · exact h_mem.resolve_right hb
  · exact h_power.resolve_right hb
  · exact h_thermal.resolve_right hb
  · exact h_nv.resolve_right hb
  · exact h_ports.resolve_right hb
  · exact h_fabricGroup.resolve_right hb
  · exact h_pattern.resolve_right hb
  · exact h_field.resolve_right hb
  · exact h_coll.resolve_right hb
  · exact h_observed.resolve_right hb
  · exact h_snapshots.resolve_right hb
  · exact h_badShards.resolve_right hb

theorem changesOnly_ite {a b : State} {c : Prop} [Decidable c] (ha : changesOnly L s a) (hb : changesOnly L s b) :
    changesOnly L s (if c then a else b) := by
  split
  · exact ha
  · exact hb

theorem changesOnly_free {v : Nat} (h : changesOnly L s x) (hL : [.free] ⊆ L) :
    changesOnly L s { x with free := v } :=
  changesOnly_lit h (.inr (hL (.head _))) (.inl rfl) (.inl rfl) (.inl rfl) (.inl rfl) (.inl rfl) (.inl rfl) (.inl rfl)
    (.inl rfl) (.inl rfl) (.inl rfl) (.inl rfl) (.inl rfl) (.inl rfl) (.inl rfl) (.inl rfl) (.inl rfl) (.inl rfl) (.inl rfl)
    (.inl rfl) (.inl rfl) (.inl rfl) (.inl rfl) (.inl rfl) (.inl rfl) (.inl rfl) (.inl rfl) (.inl rfl) (.inl rfl)

theorem changesOnly_out {v : List Output} (h : changesOnly L s x) (hL : [.out] ⊆ L) :
    changesOnly L s { x with out := v } :=
  changesOnly_lit h (.inl rfl) (.inr (hL (.head _))) (.inl rfl) (.inl rfl) (.inl rfl) (.inl rfl) (.inl rfl) (.inl rfl)
    (.inl rfl) (.inl rfl) (.inl rfl) (.inl rfl) (.inl rfl) (.inl rfl) (.inl rfl) (.inl rfl) (.inl rfl) (.inl rfl) (.inl rfl)
    (.inl rfl) (.inl rfl) (.inl rfl) (.inl rfl) (.inl rfl) (.inl rfl) (.inl rfl) (.inl rfl) (.inl rfl) (.inl rfl)

theorem changesOnly_ticks {v : Nat} (h : changesOnly L s x) (hL : [.ticks] ⊆ L) :
    changesOnly L s { x with ticks := v } :=
  changesOnly_lit h (.inl rfl) (.inl rfl) (.inr (hL (.head _))) (.inl rfl) (.inl rfl) (.inl rfl) (.inl rfl) (.inl rfl)
    (.inl rfl) (.inl rfl) (.inl rfl) (.inl rfl) (.inl rfl) (.inl rfl) (.inl rfl) (.inl rfl) (.inl rfl) (.inl rfl) (.inl rfl)
    (.inl rfl) (.inl rfl) (.inl rfl) (.inl rfl) (.inl rfl) (.inl rfl) (.inl rfl) (.inl rfl) (.inl rfl) (.inl rfl)

theorem changesOnly_ident {v : Ident} (h : changesOnly L s x) (hL : [.ident] ⊆ L) :
    changesOnly L s { x with ident := v } :=
  changesOnly_lit h (.inl rfl) (.inl rfl) (.inl rfl) (.inr (hL (.head _))) (.inl rfl) (.inl rfl) (.inl rfl) (.inl rfl)
    (.inl rfl) (.inl rfl) (.inl rfl) (.inl rfl) (.inl rfl) (.inl rfl) (.inl rfl) (.inl rfl) (.inl rfl) (.inl rfl) (.inl rfl)
    (.inl rfl) (.inl rfl) (.inl rfl) (.inl rfl) (.inl rfl) (.inl rfl) (.inl rfl) (.inl rfl) (.inl rfl) (.inl rfl)

theorem changesOnly_start {v : Startup} (h : changesOnly L s x) (hL : [.start] ⊆ L) :
    changesOnly L s { x with start := v } :=
  changesOnly_lit h (.inl rfl) (.inl rfl) (.inl rfl) (.inl rfl) (.inr (hL (.head _))) (.inl rfl) (.inl rfl) (.inl rfl)
    (.inl rfl) (.inl rfl) (.inl rfl) (.inl rfl) (.inl rfl) (.inl rfl) (.inl rfl) (.inl rfl) (.inl rfl) (.inl rfl) (.inl rfl)
    (.inl rfl) (.inl rfl) (.inl rfl) (.inl rfl) (.inl rfl) (.inl rfl) (.inl rfl) (.inl rfl) (.inl rfl) (.inl rfl)

theorem changesOnly_log {v : EventLog} (h : changesOnly L s x) (hL : [.log] ⊆ L) :
    changesOnly L s { x with log := v } :=
  changesOnly_lit h (.inl rfl) (.inl rfl) (.inl rfl) (.inl rfl) (.inl rfl) (.inr (hL (.head _))) (.inl rfl) (.inl rfl)
    (.inl rfl) (.inl rfl) (.inl rfl) (.inl rfl) (.inl rfl) (.inl rfl) (.inl rfl) (.inl rfl) (.inl rfl) (.inl rfl) (.inl rfl)
    (.inl rfl) (.inl rfl) (.inl rfl) (.inl rfl) (.inl rfl) (.inl rfl) (.inl rfl) (.inl rfl) (.inl rfl) (.inl rfl)

theorem changesOnly_host {v : HostAttach} (h : changesOnly L s x) (hL : [.host] ⊆ L) :
    changesOnly L s { x with host := v } :=
  changesOnly_lit h (.inl rfl) (.inl rfl) (.inl rfl) (.inl rfl) (.inl rfl) (.inl rfl) (.inr (hL (.head _))) (.inl rfl)
    (.inl rfl) (.inl rfl) (.inl rfl) (.inl rfl) (.inl rfl) (.inl rfl) (.inl rfl) (.inl rfl) (.inl rfl) (.inl rfl) (.inl rfl)
    (.inl rfl) (.inl rfl) (.inl rfl) (.inl rfl) (.inl rfl) (.inl rfl) (.inl rfl) (.inl rfl) (.inl rfl) (.inl rfl)

theorem changesOnly_ctx {v : Vector Ctx 8} (h : changesOnly L s x) (hL : [.ctx] ⊆ L) :
    changesOnly L s { x with ctx := v } :=
  changesOnly_lit h (.inl rfl) (.inl rfl) (.inl rfl) (.inl rfl) (.inl rfl) (.inl rfl) (.inl rfl) (.inr (hL (.head _)))
    (.inl rfl) (.inl rfl) (.inl rfl) (.inl rfl) (.inl rfl) (.inl rfl) (.inl rfl) (.inl rfl) (.inl rfl) (.inl rfl) (.inl rfl)
    (.inl rfl) (.inl rfl) (.inl rfl) (.inl rfl) (.inl rfl) (.inl rfl) (.inl rfl) (.inl rfl) (.inl rfl) (.inl rfl)

theorem changesOnly_sec {v : Security} (h : changesOnly L s x) (hL : [.sec] ⊆ L) :
    changesOnly L s { x with sec := v } :=
  changesOnly_lit h (.inl rfl) (.inl rfl) (.inl rfl) (.inl rfl) (.inl rfl) (.inl rfl) (.inl rfl) (.inl rfl)
    (.inr (hL (.head _))) (.inl rfl) (.inl rfl) (.inl rfl) (.inl rfl) (.inl rfl) (.inl rfl) (.inl rfl) (.inl rfl) (.inl rfl)
    (.inl rfl) (.inl rfl) (.inl rfl) (.inl rfl) (.inl rfl) (.inl rfl) (.inl rfl) (.inl rfl) (.inl rfl) (.inl rfl) (.inl rfl)

theorem changesOnly_loader {v : Loader} (h : changesOnly L s x) (hL : [.loader] ⊆ L) :
    changesOnly L s { x with loader := v } :=
  changesOnly_lit h (.inl rfl) (.inl rfl) (.inl rfl) (.inl rfl) (.inl rfl) (.inl rfl) (.inl rfl) (.inl rfl) (.inl rfl)
    (.inr (hL (.head _))) (.inl rfl) (.inl rfl) (.inl rfl) (.inl rfl) (.inl rfl) (.inl rfl) (.inl rfl) (.inl rfl) (.inl rfl)
    (.inl rfl) (.inl rfl) (.inl rfl) (.inl rfl) (.inl rfl) (.inl rfl) (.inl rfl) (.inl rfl) (.inl rfl) (.inl rfl)

theorem changesOnly_installed {v : Option Installed} (h : changesOnly L s x) (hL : [.installed] ⊆ L) :
    changesOnly L s { x with installed := v } :=
  changesOnly_lit h (.inl rfl) (.inl rfl) (.inl rfl) (.inl rfl) (.inl rfl) (.inl rfl) (.inl rfl) (.inl rfl) (.inl rfl)
    (.inl rfl) (.inr (hL (.head _))) (.inl rfl) (.inl rfl) (.inl rfl) (.inl rfl) (.inl rfl) (.inl rfl) (.inl rfl) (.inl rfl)
    (.inl rfl) (.inl rfl) (.inl rfl) (.inl rfl) (.inl rfl) (.inl rfl) (.inl rfl) (.inl rfl) (.inl rfl) (.inl rfl)

theorem changesOnly_tiles {v : List (Nat × Tile)} (h : changesOnly L s x) (hL : [.tiles] ⊆ L) :
    changesOnly L s { x with tiles := v } :=
  changesOnly_lit h (.inl rfl) (.inl rfl) (.inl rfl) (.inl rfl) (.inl rfl) (.inl rfl) (.inl rfl) (.inl rfl) (.inl rfl)
    (.inl rfl) (.inl rfl) (.inr (hL (.head _))) (.inl rfl) (.inl rfl) (.inl rfl) (.inl rfl) (.inl rfl) (.inl rfl) (.inl rfl)
    (.inl rfl) (.inl rfl) (.inl rfl) (.inl rfl) (.inl rfl) (.inl rfl) (.inl rfl) (.inl rfl) (.inl rfl) (.inl rfl)

theorem changesOnly_dies {v : Vector Die 36} (h : changesOnly L s x) (hL : [.dies] ⊆ L) :
    changesOnly L s { x with dies := v } :=
  changesOnly_lit h (.inl rfl) (.inl rfl) (.inl rfl) (.inl rfl) (.inl rfl) (.inl rfl) (.inl rfl) (.inl rfl) (.inl rfl)
    (.inl rfl) (.inl rfl) (.inl rfl) (.inr (hL (.head _))) (.inl rfl) (.inl rfl) (.inl rfl) (.inl rfl) (.inl rfl) (.inl rfl)
    (.inl rfl) (.inl rfl) (.inl rfl) (.inl rfl) (.inl rfl) (.inl rfl) (.inl rfl) (.inl rfl) (.inl rfl) (.inl rfl)

theorem changesOnly_links {v : List LinkState} (h : changesOnly L s x) (hL : [.links] ⊆ L) :
    changesOnly L s { x with links := v } :=
  changesOnly_lit h (.inl rfl) (.inl rfl) (.inl rfl) (.inl rfl) (.inl rfl) (.inl rfl) (.inl rfl) (.inl rfl) (.inl rfl)
    (.inl rfl) (.inl rfl) (.inl rfl) (.inl rfl) (.inr (hL (.head _))) (.inl rfl) (.inl rfl) (.inl rfl) (.inl rfl) (.inl rfl)
    (.inl rfl) (.inl rfl) (.inl rfl) (.inl rfl) (.inl rfl) (.inl rfl) (.inl rfl) (.inl rfl) (.inl rfl) (.inl rfl)

theorem changesOnly_signals {v : List RouteSignal} (h : changesOnly L s x) (hL : [.signals] ⊆ L) :
    changesOnly L s { x with signals := v } :=
  changesOnly_lit h (.inl rfl) (.inl rfl) (.inl rfl) (.inl rfl) (.inl rfl) (.inl rfl) (.inl rfl) (.inl rfl) (.inl rfl)
    (.inl rfl) (.inl rfl) (.inl rfl) (.inl rfl) (.inl rfl) (.inr (hL (.head _))) (.inl rfl) (.inl rfl) (.inl rfl) (.inl rfl)
    (.inl rfl) (.inl rfl) (.inl rfl) (.inl rfl) (.inl rfl) (.inl rfl) (.inl rfl) (.inl rfl) (.inl rfl) (.inl rfl)

theorem changesOnly_defects {v : DefectMap} (h : changesOnly L s x) (hL : [.defects] ⊆ L) :
    changesOnly L s { x with defects := v } :=
  changesOnly_lit h (.inl rfl) (.inl rfl) (.inl rfl) (.inl rfl) (.inl rfl) (.inl rfl) (.inl rfl) (.inl rfl) (.inl rfl)
    (.inl rfl) (.inl rfl) (.inl rfl) (.inl rfl) (.inl rfl) (.inl rfl) (.inr (hL (.head _))) (.inl rfl) (.inl rfl) (.inl rfl)
    (.inl rfl) (.inl rfl) (.inl rfl) (.inl rfl) (.inl rfl) (.inl rfl) (.inl rfl) (.inl rfl) (.inl rfl) (.inl rfl)

theorem changesOnly_selfTest {v : SelfTest} (h : changesOnly L s x) (hL : [.selfTest] ⊆ L) :
    changesOnly L s { x with selfTest := v } :=
  changesOnly_lit h (.inl rfl) (.inl rfl) (.inl rfl) (.inl rfl) (.inl rfl) (.inl rfl) (.inl rfl) (.inl rfl) (.inl rfl)
    (.inl rfl) (.inl rfl) (.inl rfl) (.inl rfl) (.inl rfl) (.inl rfl) (.inl rfl) (.inr (hL (.head _))) (.inl rfl) (.inl rfl)
    (.inl rfl) (.inl rfl) (.inl rfl) (.inl rfl) (.inl rfl) (.inl rfl) (.inl rfl) (.inl rfl) (.inl rfl) (.inl rfl)

theorem changesOnly_mem {v : List Host.Cell} (h : changesOnly L s x) (hL : [.mem] ⊆ L) :
    changesOnly L s { x with mem := v } :=
  changesOnly_lit h (.inl rfl) (.inl rfl) (.inl rfl) (.inl rfl) (.inl rfl) (.inl rfl) (.inl rfl) (.inl rfl) (.inl rfl)
    (.inl rfl) (.inl rfl) (.inl rfl) (.inl rfl) (.inl rfl) (.inl rfl) (.inl rfl) (.inl rfl) (.inr (hL (.head _))) (.inl rfl)
    (.inl rfl) (.inl rfl) (.inl rfl) (.inl rfl) (.inl rfl) (.inl rfl) (.inl rfl) (.inl rfl) (.inl rfl) (.inl rfl)

theorem changesOnly_power {v : Power} (h : changesOnly L s x) (hL : [.power] ⊆ L) :
    changesOnly L s { x with power := v } :=
  changesOnly_lit h (.inl rfl) (.inl rfl) (.inl rfl) (.inl rfl) (.inl rfl) (.inl rfl) (.inl rfl) (.inl rfl) (.inl rfl)
    (.inl rfl) (.inl rfl) (.inl rfl) (.inl rfl) (.inl rfl) (.inl rfl) (.inl rfl) (.inl rfl) (.inl rfl) (.inr (hL (.head _)))
    (.inl rfl) (.inl rfl) (.inl rfl) (.inl rfl) (.inl rfl) (.inl rfl) (.inl rfl) (.inl rfl) (.inl rfl) (.inl rfl)

theorem changesOnly_thermal {v : Thermal} (h : changesOnly L s x) (hL : [.thermal] ⊆ L) :
    changesOnly L s { x with thermal := v } :=
  changesOnly_lit h (.inl rfl) (.inl rfl) (.inl rfl) (.inl rfl) (.inl rfl) (.inl rfl) (.inl rfl) (.inl rfl) (.inl rfl)
    (.inl rfl) (.inl rfl) (.inl rfl) (.inl rfl) (.inl rfl) (.inl rfl) (.inl rfl) (.inl rfl) (.inl rfl) (.inl rfl)
    (.inr (hL (.head _))) (.inl rfl) (.inl rfl) (.inl rfl) (.inl rfl) (.inl rfl) (.inl rfl) (.inl rfl) (.inl rfl) (.inl rfl)

theorem changesOnly_nv {v : Nv} (h : changesOnly L s x) (hL : [.nv] ⊆ L) :
    changesOnly L s { x with nv := v } :=
  changesOnly_lit h (.inl rfl) (.inl rfl) (.inl rfl) (.inl rfl) (.inl rfl) (.inl rfl) (.inl rfl) (.inl rfl) (.inl rfl)
    (.inl rfl) (.inl rfl) (.inl rfl) (.inl rfl) (.inl rfl) (.inl rfl) (.inl rfl) (.inl rfl) (.inl rfl) (.inl rfl) (.inl rfl)
    (.inr (hL (.head _))) (.inl rfl) (.inl rfl) (.inl rfl) (.inl rfl) (.inl rfl) (.inl rfl) (.inl rfl) (.inl rfl)

theorem changesOnly_ports {v : Vector Port 16} (h : changesOnly L s x) (hL : [.ports] ⊆ L) :
    changesOnly L s { x with ports := v } :=
  changesOnly_lit h (.inl rfl) (.inl rfl) (.inl rfl) (.inl rfl) (.inl rfl) (.inl rfl) (.inl rfl) (.inl rfl) (.inl rfl)
    (.inl rfl) (.inl rfl) (.inl rfl) (.inl rfl) (.inl rfl) (.inl rfl) (.inl rfl) (.inl rfl) (.inl rfl) (.inl rfl) (.inl rfl)
    (.inl rfl) (.inr (hL (.head _))) (.inl rfl) (.inl rfl) (.inl rfl) (.inl rfl) (.inl rfl) (.inl rfl) (.inl rfl)

theorem changesOnly_fabricGroup {v : BitVec 12} (h : changesOnly L s x) (hL : [.fabricGroup] ⊆ L) :
    changesOnly L s { x with fabricGroup := v } :=
  changesOnly_lit h (.inl rfl) (.inl rfl) (.inl rfl) (.inl rfl) (.inl rfl) (.inl rfl) (.inl rfl) (.inl rfl) (.inl rfl)
    (.inl rfl) (.inl rfl) (.inl rfl) (.inl rfl) (.inl rfl) (.inl rfl) (.inl rfl) (.inl rfl) (.inl rfl) (.inl rfl) (.inl rfl)
    (.inl rfl) (.inl rfl) (.inr (hL (.head _))) (.inl rfl) (.inl rfl) (.inl rfl) (.inl rfl) (.inl rfl) (.inl rfl)

theorem changesOnly_pattern {v : Pattern} (h : changesOnly L s x) (hL : [.pattern] ⊆ L) :
    changesOnly L s { x with pattern := v } :=
  changesOnly_lit h (.inl rfl) (.inl rfl) (.inl rfl) (.inl rfl) (.inl rfl) (.inl rfl) (.inl rfl) (.inl rfl) (.inl rfl)
    (.inl rfl) (.inl rfl) (.inl rfl) (.inl rfl) (.inl rfl) (.inl rfl) (.inl rfl) (.inl rfl) (.inl rfl) (.inl rfl) (.inl rfl)
    (.inl rfl) (.inl rfl) (.inl rfl) (.inr (hL (.head _))) (.inl rfl) (.inl rfl) (.inl rfl) (.inl rfl) (.inl rfl)

theorem changesOnly_field {v : Field} (h : changesOnly L s x) (hL : [.field] ⊆ L) :
    changesOnly L s { x with field := v } :=
  changesOnly_lit h (.inl rfl) (.inl rfl) (.inl rfl) (.inl rfl) (.inl rfl) (.inl rfl) (.inl rfl) (.inl rfl) (.inl rfl)
    (.inl rfl) (.inl rfl) (.inl rfl) (.inl rfl) (.inl rfl) (.inl rfl) (.inl rfl) (.inl rfl) (.inl rfl) (.inl rfl) (.inl rfl)
    (.inl rfl) (.inl rfl) (.inl rfl) (.inl rfl) (.inr (hL (.head _))) (.inl rfl) (.inl rfl) (.inl rfl) (.inl rfl)

theorem changesOnly_coll {v : Collective} (h : changesOnly L s x) (hL : [.coll] ⊆ L) :
    changesOnly L s { x with coll := v } :=
  changesOnly_lit h (.inl rfl) (.inl rfl) (.inl rfl) (.inl rfl) (.inl rfl) (.inl rfl) (.inl rfl) (.inl rfl) (.inl rfl)
    (.inl rfl) (.inl rfl) (.inl rfl) (.inl rfl) (.inl rfl) (.inl rfl) (.inl rfl) (.inl rfl) (.inl rfl) (.inl rfl) (.inl rfl)
    (.inl rfl) (.inl rfl) (.inl rfl) (.inl rfl) (.inl rfl) (.inr (hL (.head _))) (.inl rfl) (.inl rfl) (.inl rfl)

theorem changesOnly_observed {v : Nat} (h : changesOnly L s x) (hL : [.observed] ⊆ L) :
    changesOnly L s { x with observed := v } :=
  changesOnly_lit h (.inl rfl) (.inl rfl) (.inl rfl) (.inl rfl) (.inl rfl) (.inl rfl) (.inl rfl) (.inl rfl) (.inl rfl)
    (.inl rfl) (.inl rfl) (.inl rfl) (.inl rfl) (.inl rfl) (.inl rfl) (.inl rfl) (.inl rfl) (.inl rfl) (.inl rfl) (.inl rfl)
    (.inl rfl) (.inl rfl) (.inl rfl) (.inl rfl) (.inl rfl) (.inl rfl) (.inr (hL (.head _))) (.inl rfl) (.inl rfl)

theorem changesOnly_snapshots {v : Nat} (h : changesOnly L s x) (hL : [.snapshots] ⊆ L) :
    changesOnly L s { x with snapshots := v } :=
  changesOnly_lit h (.inl rfl) (.inl rfl) (.inl rfl) (.inl rfl) (.inl rfl) (.inl rfl) (.inl rfl) (.inl rfl) (.inl rfl)
    (.inl rfl) (.inl rfl) (.inl rfl) (.inl rfl) (.inl rfl) (.inl rfl) (.inl rfl) (.inl rfl) (.inl rfl) (.inl rfl) (.inl rfl)
    (.inl rfl) (.inl rfl) (.inl rfl) (.inl rfl) (.inl rfl) (.inl rfl) (.inl rfl) (.inr (hL (.head _))) (.inl rfl)

theorem changesOnly_badShards {v : Nat} (h : changesOnly L s x) (hL : [.badShards] ⊆ L) :
    changesOnly L s { x with badShards := v } :=
  changesOnly_lit h (.inl rfl) (.inl rfl) (.inl rfl) (.inl rfl) (.inl rfl) (.inl rfl) (.inl rfl) (.inl rfl) (.inl rfl)
    (.inl rfl) (.inl rfl) (.inl rfl) (.inl rfl) (.inl rfl) (.inl rfl) (.inl rfl) (.inl rfl) (.inl rfl) (.inl rfl) (.inl rfl)
    (.inl rfl) (.inl rfl) (.inl rfl) (.inl rfl) (.inl rfl) (.inl rfl) (.inl rfl) (.inl rfl) (.inr (hL (.head _)))

theorem when'_frame (g : Bool) {f : State → State} (h : changesOnly L s x)
    (hf : ∀ y, changesOnly L s y → changesOnly L s (f y)) : changesOnly L s (when' g f x) := by
  cases g
  · exact h
  · exact hf x h

theorem foldl_frame {α : Type} {f : State → α → State} {l : List α} (h : changesOnly L s x)
    (hf : ∀ a y, changesOnly L s y → changesOnly L s (f y a)) : changesOnly L s (l.foldl f x) := by
  induction l generalizing x with
  | nil => exact h
  | cons a r ih => exact ih (hf a x h)

theorem foldl_fst_frame {α β : Type} {f : State × β → α → State × β} {l : List α} {p : State × β}
    (h : changesOnly L s p.1) (hf : ∀ a p, changesOnly L s p.1 → changesOnly L s (f p a).1) :
    changesOnly L s (l.foldl f p).1 := by
  induction l generalizing p with
  | nil => exact h
  | cons a r ih => exact ih (hf a p h)


/-! ### The named updates and the reports -/

theorem modCtx_frame (i : Slot) (f : Ctx → Ctx) (h : changesOnly L s x) (hL : [.ctx] ⊆ L) :
    changesOnly L s (modCtx i f x) := by
  refine changesOnly_trans h ⟨by simp, fun b hb => ?_⟩
  cases b <;> first | exact absurd (hL (by decide)) hb | simp [unchanged]

theorem modQueue_frame (i : Slot) (q : QId) (f : Queue → Queue) (h : changesOnly L s x) (hL : [.ctx] ⊆ L) :
    changesOnly L s (modQueue i q f x) := by
  refine changesOnly_trans h ⟨by simp, fun b hb => ?_⟩
  cases b <;> first | exact absurd (hL (by decide)) hb | simp [unchanged]

theorem mapCtx_frame (f : Slot → Ctx → Ctx) (h : changesOnly L s x) (hL : [.ctx] ⊆ L) :
    changesOnly L s (mapCtx f x) := by
  refine changesOnly_trans h ⟨by simp, fun b hb => ?_⟩
  cases b <;> first | exact absurd (hL (by decide)) hb | simp [unchanged]

theorem modPort_frame (p : PortId) (f : Port → Port) (h : changesOnly L s x) (hL : [.ports] ⊆ L) :
    changesOnly L s (modPort p f x) := by
  refine changesOnly_trans h ⟨by simp, fun b hb => ?_⟩
  cases b <;> first | exact absurd (hL (by decide)) hb | simp [unchanged]

theorem mapPorts_frame (f : PortId → Port → Port) (h : changesOnly L s x) (hL : [.ports] ⊆ L) :
    changesOnly L s (mapPorts f x) := by
  refine changesOnly_trans h ⟨by simp, fun b hb => ?_⟩
  cases b <;> first | exact absurd (hL (by decide)) hb | simp [unchanged]

theorem modDie_frame (d : DieId) (f : Die → Die) (h : changesOnly L s x) (hL : [.dies] ⊆ L) :
    changesOnly L s (modDie d f x) := by
  refine changesOnly_trans h ⟨by simp, fun b hb => ?_⟩
  cases b <;> first | exact absurd (hL (by decide)) hb | simp [unchanged]

theorem mapDies_frame (f : DieId → Die → Die) (h : changesOnly L s x) (hL : [.dies] ⊆ L) :
    changesOnly L s (mapDies f x) := by
  refine changesOnly_trans h ⟨by simp, fun b hb => ?_⟩
  cases b <;> first | exact absurd (hL (by decide)) hb | simp [unchanged]

theorem modTile_frame (t : TileId) (f : Tile → Tile) (h : changesOnly L s x) (hL : [.tiles] ⊆ L) :
    changesOnly L s (modTile t f x) := by
  refine changesOnly_trans h ⟨by simp, fun b hb => ?_⟩
  cases b <;> first | exact absurd (hL (by decide)) hb | simp [unchanged]

theorem mapTiles_frame (f : Nat → Tile → Tile) (h : changesOnly L s x) (hL : [.tiles] ⊆ L) :
    changesOnly L s (mapTiles f x) := by
  refine changesOnly_trans h ⟨by simp, fun b hb => ?_⟩
  cases b <;> first | exact absurd (hL (by decide)) hb | simp [unchanged]

theorem drawNext_frame  (h : changesOnly L s x) (hL : [.free] ⊆ L) :
    changesOnly L s (drawNext x) := by
  refine changesOnly_trans h ⟨by simp, fun b hb => ?_⟩
  cases b <;> first | exact absurd (hL (by decide)) hb | simp [unchanged]

theorem emit_frame (o : Output) (h : changesOnly L s x) (hL : [.out] ⊆ L) :
    changesOnly L s (emit o x) := by
  refine changesOnly_trans h ⟨by simp, fun b hb => ?_⟩
  cases b <;> first | exact absurd (hL (by decide)) hb | simp [unchanged]

theorem storeBytes_frame (k : Nat) (b : Bytes) (h : changesOnly L s x) (hL : [.mem] ⊆ L) :
    changesOnly L s (storeBytes k b x) := by
  refine changesOnly_trans h ⟨by simp, fun b hb => ?_⟩
  cases b <;> first | exact absurd (hL (by decide)) hb | simp [unchanged]

theorem zeroMem_frame (k n : Nat) (h : changesOnly L s x) (hL : [.mem] ⊆ L) :
    changesOnly L s (zeroMem k n x) := by
  refine changesOnly_trans h ⟨by simp, fun b hb => ?_⟩
  cases b <;> first | exact absurd (hL (by decide)) hb | simp [unchanged]

theorem doneWork_frame (k : BgTask) (h : changesOnly L s x) (hL : [.selfTest] ⊆ L) :
    changesOnly L s (doneWork k x) := by
  refine changesOnly_trans h ⟨rfl, fun b hb => ?_⟩
  cases b <;> first | exact absurd (hL (by decide)) hb | rfl

theorem sendMsix_frame (v : BitVec 6) (h : changesOnly L s x) (hL : [.host, .out] ⊆ L) :
    changesOnly L s (sendMsix v x) := by
  refine changesOnly_trans h ⟨by simp, fun b hb => ?_⟩
  cases b <;> first | exact absurd (hL (by decide)) hb | simp [unchanged]

theorem report_frame (e : Ev) (h : changesOnly L s x) (hL : [.host, .out, .log] ⊆ L) :
    changesOnly L s (report e x) := by
  refine changesOnly_trans h ⟨by simp, fun b hb => ?_⟩
  cases b <;> first | exact absurd (hL (by decide)) hb | simp [unchanged]

theorem reportHost_frame (b : Option Nat) (e : Ev) (h : changesOnly L s x) (hL : [.host, .out, .log] ⊆ L) :
    changesOnly L s (reportHost b e x) := by
  refine changesOnly_trans h ⟨by simp, fun b hb => ?_⟩
  cases b <;> first | exact absurd (hL (by decide)) hb | simp [unchanged]

theorem reportPower_frame (b : Option Nat) (e : Ev) (h : changesOnly L s x) (hL : [.host, .out, .log, .power] ⊆ L) :
    changesOnly L s (reportPower b e x) := by
  refine changesOnly_trans h ⟨by simp, fun b hb => ?_⟩
  cases b <;> first | exact absurd (hL (by decide)) hb | simp [unchanged]

theorem reportThermal_frame (b : Option Nat) (e : Ev) (h : changesOnly L s x) (hL : [.host, .out, .log, .thermal] ⊆ L) :
    changesOnly L s (reportThermal b e x) := by
  refine changesOnly_trans h ⟨by simp, fun b hb => ?_⟩
  cases b <;> first | exact absurd (hL (by decide)) hb | simp [unchanged]

theorem reportNv_frame (b : Option Nat) (e : Ev) (h : changesOnly L s x) (hL : [.host, .out, .log, .nv] ⊆ L) :
    changesOnly L s (reportNv b e x) := by
  refine changesOnly_trans h ⟨by simp, fun b hb => ?_⟩
  cases b <;> first | exact absurd (hL (by decide)) hb | simp [unchanged]

theorem reportCtx_frame (i : Slot) (b : Option Nat) (e : Ev) (h : changesOnly L s x) (hL : [.host, .out, .log, .ctx] ⊆ L) :
    changesOnly L s (reportCtx i b e x) := by
  refine changesOnly_trans h ⟨by simp, fun b hb => ?_⟩
  cases b <;> first | exact absurd (hL (by decide)) hb | simp [unchanged]

theorem reportPort_frame (p : PortId) (b : Option Nat) (e : Ev) (h : changesOnly L s x) (hL : [.host, .out, .log, .ports] ⊆ L) :
    changesOnly L s (reportPort p b e x) := by
  refine changesOnly_trans h ⟨by simp, fun b hb => ?_⟩
  cases b <;> first | exact absurd (hL (by decide)) hb | simp [unchanged]

theorem modTiles_frame (l : List TileId) (f : Tile → Tile) (h : changesOnly L s x) (hL : [.tiles] ⊆ L) :
    changesOnly L s (modTiles l f x) :=
  foldl_frame h fun t _ hy => modTile_frame t f hy hL

theorem reportAll_frame (l : List Ev) (h : changesOnly L s x) (hL : [.host, .out, .log] ⊆ L) :
    changesOnly L s (reportAll l x) :=
  foldl_frame h fun e _ hy => report_frame e hy hL

theorem sendPending_frame (h : changesOnly L s x) (hL : [.host, .out] ⊆ L) : changesOnly L s (sendPending x) := by
  unfold sendPending
  refine foldl_frame h fun a y hy => ?_
  dsimp only
  split
  · refine emit_frame _ (changesOnly_trans hy ⟨rfl, fun b hb => ?_⟩) (List.Subset.trans (by decide) hL)
    cases b <;> first | rfl | exact absurd (hL (by decide)) hb
  · exact hy

end Sys2Proof.Machine
end

