-- ==== Sys2Proof/Laws/FrameMesh.lean ====
section
/-! SUPPORT. The frames of the operations and commands of Mesh (Laws/Frame.lean). -/

namespace Sys2Proof.Machine

set_option linter.all false
set_option Elab.async false

open Sys2Proof

theorem modLink_frame {L : List Block} {s₀ s₁ : State} (l : LinkDir) (f : LinkState → LinkState) (hK : changesOnly L s₀ s₁)
    (hL : [.links] ⊆ L) : changesOnly L s₀ (modLink l f s₁) := by
  unfold modLink
  repeat' (first
    | with_reducible exact hK
    | with_reducible assumption
    | with_reducible exact List.Subset.trans (by decide) hL
    | split
    | fail_if_no_progress with_reducible refine changesOnly_lit ?_ ?_ ?_ ?_ ?_ ?_ ?_ ?_ ?_ ?_ ?_ ?_ ?_ ?_ ?_ ?_ ?_ ?_ ?_ ?_ ?_ ?_ ?_ ?_ ?_ ?_ ?_ ?_ ?_ ?_
    | with_reducible exact .inl rfl
    | exact Or.inr (hL (by decide))
    | dsimp only)

theorem sendMesh_frame {L : List Block} {s₀ s₁ : State} (l : LinkDir) (vc : Fin 4) (head tail : Bool) (data : BitVec 512) (hK : changesOnly L s₀ s₁)
    (hL : [.out, .links] ⊆ L) : changesOnly L s₀ (sendMesh l vc head tail data s₁) := by
  unfold sendMesh
  repeat' (first
    | with_reducible exact hK
    | with_reducible assumption
    | with_reducible exact List.Subset.trans (by decide) hL
    | with_reducible apply emit_frame
    | with_reducible apply modLink_frame
    | split
    | fail_if_no_progress with_reducible refine changesOnly_lit ?_ ?_ ?_ ?_ ?_ ?_ ?_ ?_ ?_ ?_ ?_ ?_ ?_ ?_ ?_ ?_ ?_ ?_ ?_ ?_ ?_ ?_ ?_ ?_ ?_ ?_ ?_ ?_ ?_ ?_
    | with_reducible exact .inl rfl
    | exact Or.inr (hL (by decide))
    | dsimp only)

theorem sendBeat_frame {L : List Block} {s₀ s₁ : State} (t : TileId) (st : HbState) (r : Fin 5) (hK : changesOnly L s₀ s₁)
    (hL : [.out, .links] ⊆ L) : changesOnly L s₀ (sendBeat t st s₁ r) := by
  unfold sendBeat
  repeat' (first
    | with_reducible exact hK
    | with_reducible assumption
    | with_reducible exact List.Subset.trans (by decide) hL
    | with_reducible apply emit_frame
    | with_reducible apply sendMesh_frame
    | split
    | fail_if_no_progress with_reducible refine changesOnly_lit ?_ ?_ ?_ ?_ ?_ ?_ ?_ ?_ ?_ ?_ ?_ ?_ ?_ ?_ ?_ ?_ ?_ ?_ ?_ ?_ ?_ ?_ ?_ ?_ ?_ ?_ ?_ ?_ ?_ ?_
    | with_reducible exact .inl rfl
    | exact Or.inr (hL (by decide))
    | dsimp only)

theorem sendHeartbeat_frame {L : List Block} {s₀ s₁ : State} (t : TileId) (st : HbState) (hK : changesOnly L s₀ s₁)
    (hL : [.out, .links] ⊆ L) : changesOnly L s₀ (sendHeartbeat t st s₁) := by
  unfold sendHeartbeat
  repeat' (first
    | with_reducible exact hK
    | with_reducible assumption
    | with_reducible exact List.Subset.trans (by decide) hL
    | with_reducible refine foldl_frame ?_ (fun _ _ _ => ?_)
    | with_reducible refine foldl_fst_frame ?_ (fun _ _ _ => ?_)
    | with_reducible apply sendBeat_frame
    | split
    | fail_if_no_progress with_reducible refine changesOnly_lit ?_ ?_ ?_ ?_ ?_ ?_ ?_ ?_ ?_ ?_ ?_ ?_ ?_ ?_ ?_ ?_ ?_ ?_ ?_ ?_ ?_ ?_ ?_ ?_ ?_ ?_ ?_ ?_ ?_ ?_
    | with_reducible exact .inl rfl
    | exact Or.inr (hL (by decide))
    | dsimp only)

theorem wakeTile_frame {L : List Block} {s₀ s₁ : State} (t : TileId) (f : Tile → Tile) (hK : changesOnly L s₀ s₁)
    (hL : [.out, .tiles, .links] ⊆ L) : changesOnly L s₀ (wakeTile t f s₁) := by
  unfold wakeTile
  repeat' (first
    | with_reducible exact hK
    | with_reducible assumption
    | with_reducible exact List.Subset.trans (by decide) hL
    | with_reducible apply modTile_frame
    | with_reducible apply sendHeartbeat_frame
    | split
    | fail_if_no_progress with_reducible refine changesOnly_lit ?_ ?_ ?_ ?_ ?_ ?_ ?_ ?_ ?_ ?_ ?_ ?_ ?_ ?_ ?_ ?_ ?_ ?_ ?_ ?_ ?_ ?_ ?_ ?_ ?_ ?_ ?_ ?_ ?_ ?_
    | with_reducible exact .inl rfl
    | exact Or.inr (hL (by decide))
    | dsimp only)

end Sys2Proof.Machine
end

