-- ==== Sys2Proof/Laws/FrameCourses.lean ====
section
/-! SUPPORT. The frames of the operations and commands of Courses (Laws/Frame.lean). -/

namespace Sys2Proof.Machine

set_option linter.all false
set_option Elab.async false

open Sys2Proof

theorem assertClamp_frame {L : List Block} {s₀ s₁ : State} (src : BitVec 4) (hK : changesOnly L s₀ s₁)
    (hL : [.out, .log, .host, .power] ⊆ L) : changesOnly L s₀ (assertClamp src s₁) := by
  unfold assertClamp
  repeat' (first
    | with_reducible exact hK
    | with_reducible assumption
    | exact List.Subset.trans (by decide) hL
    | with_reducible apply reportPower_frame
    | with_reducible refine changesOnly_ite ?_ ?_
    | split
    | fail_if_no_progress with_reducible refine changesOnly_out ?_ (List.Subset.trans (by decide) hL)
    | fail_if_no_progress with_reducible refine changesOnly_log ?_ (List.Subset.trans (by decide) hL)
    | fail_if_no_progress with_reducible refine changesOnly_host ?_ (List.Subset.trans (by decide) hL)
    | fail_if_no_progress with_reducible refine changesOnly_power ?_ (List.Subset.trans (by decide) hL)
    | fail_if_no_progress with_reducible refine changesOnly_lit ?_ ?_ ?_ ?_ ?_ ?_ ?_ ?_ ?_ ?_ ?_ ?_ ?_ ?_ ?_ ?_ ?_ ?_ ?_ ?_ ?_ ?_ ?_ ?_ ?_ ?_ ?_ ?_ ?_ ?_
    | exact .inl rfl
    | exact .inr (hL (by decide)))

theorem dropSource_frame {L : List Block} {s₀ s₁ : State} (src : BitVec 4) (hK : changesOnly L s₀ s₁)
    (hL : [.power] ⊆ L) : changesOnly L s₀ (dropSource src s₁) := by
  unfold dropSource
  repeat' (first
    | with_reducible exact hK
    | with_reducible assumption
    | exact List.Subset.trans (by decide) hL
    | with_reducible refine changesOnly_ite ?_ ?_
    | split
    | fail_if_no_progress with_reducible refine changesOnly_power ?_ (List.Subset.trans (by decide) hL)
    | fail_if_no_progress with_reducible refine changesOnly_lit ?_ ?_ ?_ ?_ ?_ ?_ ?_ ?_ ?_ ?_ ?_ ?_ ?_ ?_ ?_ ?_ ?_ ?_ ?_ ?_ ?_ ?_ ?_ ?_ ?_ ?_ ?_ ?_ ?_ ?_
    | exact .inl rfl
    | exact .inr (hL (by decide)))

theorem modInstalled_frame {L : List Block} {s₀ s₁ : State} (f : Installed → Installed) (hK : changesOnly L s₀ s₁)
    (hL : [.installed] ⊆ L) : changesOnly L s₀ (modInstalled f s₁) := by
  unfold modInstalled
  repeat' (first
    | with_reducible exact hK
    | with_reducible assumption
    | exact List.Subset.trans (by decide) hL
    | with_reducible refine changesOnly_ite ?_ ?_
    | split
    | fail_if_no_progress with_reducible refine changesOnly_installed ?_ (List.Subset.trans (by decide) hL)
    | fail_if_no_progress with_reducible refine changesOnly_lit ?_ ?_ ?_ ?_ ?_ ?_ ?_ ?_ ?_ ?_ ?_ ?_ ?_ ?_ ?_ ?_ ?_ ?_ ?_ ?_ ?_ ?_ ?_ ?_ ?_ ?_ ?_ ?_ ?_ ?_
    | exact .inl rfl
    | exact .inr (hL (by decide)))

theorem modSlot_frame {L : List Block} {s₀ s₁ : State} (i : Slot) (f : LoadSlot → LoadSlot) (hK : changesOnly L s₀ s₁)
    (hL : [.loader] ⊆ L) : changesOnly L s₀ (modSlot i f s₁) := by
  unfold modSlot
  repeat' (first
    | with_reducible exact hK
    | with_reducible assumption
    | exact List.Subset.trans (by decide) hL
    | with_reducible refine changesOnly_ite ?_ ?_
    | split
    | fail_if_no_progress with_reducible refine changesOnly_loader ?_ (List.Subset.trans (by decide) hL)
    | fail_if_no_progress with_reducible refine changesOnly_lit ?_ ?_ ?_ ?_ ?_ ?_ ?_ ?_ ?_ ?_ ?_ ?_ ?_ ?_ ?_ ?_ ?_ ?_ ?_ ?_ ?_ ?_ ?_ ?_ ?_ ?_ ?_ ?_ ?_ ?_
    | exact .inl rfl
    | exact .inr (hL (by decide)))

theorem setSlotState_frame {L : List Block} {s₀ s₁ : State} (i : Slot) (x : SlotState) (hK : changesOnly L s₀ s₁)
    (hL : [.loader] ⊆ L) : changesOnly L s₀ (setSlotState i x s₁) := by
  unfold setSlotState
  repeat' (first
    | with_reducible exact hK
    | with_reducible assumption
    | exact List.Subset.trans (by decide) hL
    | with_reducible apply modSlot_frame)

theorem closePacket_frame {L : List Block} {s₀ s₁ : State} (t : TileId) (p : Packet) (hK : changesOnly L s₀ s₁)
    (hL : [.out, .links] ⊆ L) : changesOnly L s₀ (closePacket t s₁ p) := by
  unfold closePacket
  repeat' (first
    | with_reducible exact hK
    | with_reducible assumption
    | with_reducible exact List.Subset.trans (by decide) hL
    | with_reducible refine foldl_frame ?_ (fun _ _ _ => ?_)
    | with_reducible refine foldl_fst_frame ?_ (fun _ _ _ => ?_)
    | with_reducible apply sendMesh_frame
    | split
    | fail_if_no_progress with_reducible refine changesOnly_lit ?_ ?_ ?_ ?_ ?_ ?_ ?_ ?_ ?_ ?_ ?_ ?_ ?_ ?_ ?_ ?_ ?_ ?_ ?_ ?_ ?_ ?_ ?_ ?_ ?_ ?_ ?_ ?_ ?_ ?_
    | with_reducible exact .inl rfl
    | exact Or.inr (hL (by decide))
    | dsimp only)

theorem closePackets_frame {L : List Block} {s₀ s₁ : State} (p : Nat → Bool) (hK : changesOnly L s₀ s₁)
    (hL : [.out, .tiles, .links] ⊆ L) : changesOnly L s₀ (closePackets p s₁) := by
  unfold closePackets
  repeat' (first
    | with_reducible exact hK
    | with_reducible assumption
    | with_reducible exact List.Subset.trans (by decide) hL
    | with_reducible refine foldl_frame ?_ (fun _ _ _ => ?_)
    | with_reducible refine foldl_fst_frame ?_ (fun _ _ _ => ?_)
    | with_reducible apply modTile_frame
    | with_reducible apply closePacket_frame
    | split
    | fail_if_no_progress with_reducible refine changesOnly_lit ?_ ?_ ?_ ?_ ?_ ?_ ?_ ?_ ?_ ?_ ?_ ?_ ?_ ?_ ?_ ?_ ?_ ?_ ?_ ?_ ?_ ?_ ?_ ?_ ?_ ?_ ?_ ?_ ?_ ?_
    | with_reducible exact .inl rfl
    | exact Or.inr (hL (by decide))
    | dsimp only)

theorem completeCmd_frame {L : List Block} {s₀ s₁ : State} (i : Slot) (cmd : Cmd) (code : Code) (initiator detail : Nat) (hK : changesOnly L s₀ s₁)
    (hL : [.out, .log, .host, .ctx] ⊆ L) : changesOnly L s₀ (completeCmd i cmd code initiator detail s₁) := by
  unfold completeCmd
  repeat' (first
    | with_reducible exact hK
    | with_reducible assumption
    | exact List.Subset.trans (by decide) hL
    | with_reducible apply modCtx_frame
    | with_reducible apply reportCtx_frame
    | with_reducible refine changesOnly_ite ?_ ?_
    | split
    | fail_if_no_progress with_reducible refine changesOnly_out ?_ (List.Subset.trans (by decide) hL)
    | fail_if_no_progress with_reducible refine changesOnly_log ?_ (List.Subset.trans (by decide) hL)
    | fail_if_no_progress with_reducible refine changesOnly_host ?_ (List.Subset.trans (by decide) hL)
    | fail_if_no_progress with_reducible refine changesOnly_ctx ?_ (List.Subset.trans (by decide) hL)
    | fail_if_no_progress with_reducible refine changesOnly_lit ?_ ?_ ?_ ?_ ?_ ?_ ?_ ?_ ?_ ?_ ?_ ?_ ?_ ?_ ?_ ?_ ?_ ?_ ?_ ?_ ?_ ?_ ?_ ?_ ?_ ?_ ?_ ?_ ?_ ?_
    | exact .inl rfl)

theorem haltPrompters_frame {L : List Block} {s₀ s₁ : State}  (hK : changesOnly L s₀ s₁)
    (hL : [.out, .tiles, .links, .signals] ⊆ L) : changesOnly L s₀ (haltPrompters s₁) := by
  unfold haltPrompters
  repeat' (first
    | with_reducible exact hK
    | with_reducible assumption
    | with_reducible exact List.Subset.trans (by decide) hL
    | with_reducible apply mapTiles_frame
    | with_reducible apply closePackets_frame
    | split
    | fail_if_no_progress with_reducible refine changesOnly_lit ?_ ?_ ?_ ?_ ?_ ?_ ?_ ?_ ?_ ?_ ?_ ?_ ?_ ?_ ?_ ?_ ?_ ?_ ?_ ?_ ?_ ?_ ?_ ?_ ?_ ?_ ?_ ?_ ?_ ?_
    | with_reducible exact .inl rfl
    | exact Or.inr (hL (by decide))
    | dsimp only)

theorem endPass_frame {L : List Block} {s₀ s₁ : State} (code : Code) (hK : changesOnly L s₀ s₁)
    (hL : [.out, .log, .host, .ctx, .installed, .tiles, .links, .signals] ⊆ L) : changesOnly L s₀ (endPass code s₁) := by
  unfold endPass
  repeat' (first
    | with_reducible exact hK
    | with_reducible assumption
    | with_reducible exact List.Subset.trans (by decide) hL
    | with_reducible apply modCtx_frame
    | with_reducible apply modInstalled_frame
    | with_reducible apply completeCmd_frame
    | with_reducible apply haltPrompters_frame
    | split
    | fail_if_no_progress with_reducible refine changesOnly_lit ?_ ?_ ?_ ?_ ?_ ?_ ?_ ?_ ?_ ?_ ?_ ?_ ?_ ?_ ?_ ?_ ?_ ?_ ?_ ?_ ?_ ?_ ?_ ?_ ?_ ?_ ?_ ?_ ?_ ?_
    | with_reducible exact .inl rfl
    | exact Or.inr (hL (by decide))
    | dsimp only)

theorem countBlock_frame {L : List Block} {s₀ s₁ : State} (code layer : Nat) (hK : changesOnly L s₀ s₁)
    (hL : [.coll] ⊆ L) : changesOnly L s₀ (countBlock code layer s₁) := by
  unfold countBlock
  repeat' (first
    | with_reducible exact hK
    | with_reducible assumption
    | exact List.Subset.trans (by decide) hL
    | with_reducible refine changesOnly_ite ?_ ?_
    | split
    | fail_if_no_progress with_reducible refine changesOnly_coll ?_ (List.Subset.trans (by decide) hL)
    | fail_if_no_progress with_reducible refine changesOnly_lit ?_ ?_ ?_ ?_ ?_ ?_ ?_ ?_ ?_ ?_ ?_ ?_ ?_ ?_ ?_ ?_ ?_ ?_ ?_ ?_ ?_ ?_ ?_ ?_ ?_ ?_ ?_ ?_ ?_ ?_
    | exact .inl rfl
    | exact .inr (hL (by decide)))

theorem flushCounts_frame {L : List Block} {s₀ s₁ : State} (i : Slot) (p : Nat → Bool) (hK : changesOnly L s₀ s₁)
    (hL : [.out, .log, .host, .coll] ⊆ L) : changesOnly L s₀ (flushCounts i p s₁) := by
  unfold flushCounts
  repeat' (first
    | with_reducible exact hK
    | with_reducible assumption
    | with_reducible exact List.Subset.trans (by decide) hL
    | with_reducible refine foldl_frame ?_ (fun _ _ _ => ?_)
    | with_reducible refine foldl_fst_frame ?_ (fun _ _ _ => ?_)
    | with_reducible apply report_frame
    | split
    | fail_if_no_progress with_reducible refine changesOnly_lit ?_ ?_ ?_ ?_ ?_ ?_ ?_ ?_ ?_ ?_ ?_ ?_ ?_ ?_ ?_ ?_ ?_ ?_ ?_ ?_ ?_ ?_ ?_ ?_ ?_ ?_ ?_ ?_ ?_ ?_
    | with_reducible exact .inl rfl
    | exact Or.inr (hL (by decide))
    | dsimp only)

theorem setSeq_frame {L : List Block} {s₀ s₁ : State} (i : Slot) (desc seq : Nat) (hK : changesOnly L s₀ s₁)
    (hL : [.ctx] ⊆ L) : changesOnly L s₀ (setSeq i desc seq s₁) := by
  unfold setSeq
  repeat' (first
    | with_reducible exact hK
    | with_reducible assumption
    | exact List.Subset.trans (by decide) hL
    | with_reducible apply modCtx_frame)

theorem endRed_frame {L : List Block} {s₀ s₁ : State} (i : Slot) (code : Code) (initiator : Nat) (r : Reduction) (hK : changesOnly L s₀ s₁)
    (hL : [.out, .log, .host, .ctx, .coll] ⊆ L) : changesOnly L s₀ (endRed i code initiator s₁ r) := by
  unfold endRed
  repeat' (first
    | with_reducible exact hK
    | with_reducible assumption
    | exact List.Subset.trans (by decide) hL
    | with_reducible apply completeCmd_frame
    | with_reducible apply flushCounts_frame
    | with_reducible apply setSeq_frame
    | with_reducible refine changesOnly_ite ?_ ?_
    | split
    | fail_if_no_progress with_reducible refine changesOnly_out ?_ (List.Subset.trans (by decide) hL)
    | fail_if_no_progress with_reducible refine changesOnly_log ?_ (List.Subset.trans (by decide) hL)
    | fail_if_no_progress with_reducible refine changesOnly_host ?_ (List.Subset.trans (by decide) hL)
    | fail_if_no_progress with_reducible refine changesOnly_ctx ?_ (List.Subset.trans (by decide) hL)
    | fail_if_no_progress with_reducible refine changesOnly_coll ?_ (List.Subset.trans (by decide) hL)
    | fail_if_no_progress with_reducible refine changesOnly_lit ?_ ?_ ?_ ?_ ?_ ?_ ?_ ?_ ?_ ?_ ?_ ?_ ?_ ?_ ?_ ?_ ?_ ?_ ?_ ?_ ?_ ?_ ?_ ?_ ?_ ?_ ?_ ?_ ?_ ?_
    | exact .inl rfl
    | exact .inr (hL (by decide)))

theorem endReduction_frame {L : List Block} {s₀ s₁ : State} (i : Slot) (code : Code) (hK : changesOnly L s₀ s₁)
    (hL : [.out, .log, .host, .ctx, .coll] ⊆ L) : changesOnly L s₀ (endReduction i code s₁) := by
  unfold endReduction
  repeat' (first
    | with_reducible exact hK
    | with_reducible assumption
    | with_reducible exact List.Subset.trans (by decide) hL
    | with_reducible refine foldl_frame ?_ (fun _ _ _ => ?_)
    | with_reducible refine foldl_fst_frame ?_ (fun _ _ _ => ?_)
    | with_reducible apply modCtx_frame
    | with_reducible apply flushCounts_frame
    | with_reducible apply endRed_frame
    | split
    | fail_if_no_progress with_reducible refine changesOnly_lit ?_ ?_ ?_ ?_ ?_ ?_ ?_ ?_ ?_ ?_ ?_ ?_ ?_ ?_ ?_ ?_ ?_ ?_ ?_ ?_ ?_ ?_ ?_ ?_ ?_ ?_ ?_ ?_ ?_ ?_
    | with_reducible exact .inl rfl
    | exact Or.inr (hL (by decide))
    | dsimp only)

theorem endOthers_frame {L : List Block} {s₀ s₁ : State} (i : Slot) (code : Code) (said : Bool) (hK : changesOnly L s₀ s₁)
    (hL : [.out, .log, .host, .ctx, .installed, .tiles, .links, .signals] ⊆ L) : changesOnly L s₀ (endOthers i code said s₁) := by
  unfold endOthers
  repeat' (first
    | with_reducible exact hK
    | with_reducible assumption
    | with_reducible exact List.Subset.trans (by decide) hL
    | with_reducible refine foldl_frame ?_ (fun _ _ _ => ?_)
    | with_reducible refine foldl_fst_frame ?_ (fun _ _ _ => ?_)
    | with_reducible apply report_frame
    | with_reducible apply completeCmd_frame
    | with_reducible apply endPass_frame
    | split
    | fail_if_no_progress with_reducible refine changesOnly_lit ?_ ?_ ?_ ?_ ?_ ?_ ?_ ?_ ?_ ?_ ?_ ?_ ?_ ?_ ?_ ?_ ?_ ?_ ?_ ?_ ?_ ?_ ?_ ?_ ?_ ?_ ?_ ?_ ?_ ?_
    | with_reducible exact .inl rfl
    | exact Or.inr (hL (by decide))
    | dsimp only)

theorem dropLoads_frame {L : List Block} {s₀ s₁ : State} (i : Slot) (hK : changesOnly L s₀ s₁)
    (hL : [.ctx] ⊆ L) : changesOnly L s₀ (dropLoads i s₁) := by
  unfold dropLoads
  repeat' (first
    | with_reducible exact hK
    | with_reducible assumption
    | exact List.Subset.trans (by decide) hL
    | with_reducible apply modCtx_frame)

theorem onPorts_frame {L : List Block} {s₀ s₁ : State} (f : PortId → Output) (hK : changesOnly L s₀ s₁)
    (hL : [.out] ⊆ L) : changesOnly L s₀ (onPorts f s₁) := by
  unfold onPorts
  repeat' (first
    | with_reducible exact hK
    | with_reducible assumption
    | exact List.Subset.trans (by decide) hL
    | with_reducible refine foldl_frame ?_ (fun _ _ _ => ?_)
    | with_reducible refine foldl_fst_frame ?_ (fun _ _ _ => ?_)
    | with_reducible apply emit_frame)

theorem sendSymbol_frame {L : List Block} {s₀ s₁ : State} (a : AbortSym) (hK : changesOnly L s₀ s₁)
    (hL : [.out] ⊆ L) : changesOnly L s₀ (sendSymbol a s₁) := by
  unfold sendSymbol
  repeat' (first
    | with_reducible exact hK
    | with_reducible assumption
    | with_reducible exact List.Subset.trans (by decide) hL
    | with_reducible apply onPorts_frame
    | split
    | fail_if_no_progress with_reducible refine changesOnly_lit ?_ ?_ ?_ ?_ ?_ ?_ ?_ ?_ ?_ ?_ ?_ ?_ ?_ ?_ ?_ ?_ ?_ ?_ ?_ ?_ ?_ ?_ ?_ ?_ ?_ ?_ ?_ ?_ ?_ ?_
    | with_reducible exact .inl rfl
    | exact Or.inr (hL (by decide))
    | dsimp only)

theorem abortEvent_frame {L : List Block} {s₀ s₁ : State} (code : Code) (desc seq : Nat) (hK : changesOnly L s₀ s₁)
    (hL : [.out, .log, .host] ⊆ L) : changesOnly L s₀ (abortEvent code desc seq s₁) := by
  unfold abortEvent
  repeat' (first
    | with_reducible exact hK
    | with_reducible assumption
    | exact List.Subset.trans (by decide) hL
    | with_reducible apply report_frame)

theorem abortInst_frame {L : List Block} {s₀ s₁ : State} (descId : Nat) (code : Code) (hK : changesOnly L s₀ s₁)
    (hL : [.out, .log, .host, .coll] ⊆ L) : changesOnly L s₀ (abortInst descId code s₁) := by
  unfold abortInst
  repeat' (first
    | with_reducible exact hK
    | with_reducible assumption
    | with_reducible exact List.Subset.trans (by decide) hL
    | with_reducible apply sendSymbol_frame
    | with_reducible apply abortEvent_frame
    | split
    | fail_if_no_progress with_reducible refine changesOnly_lit ?_ ?_ ?_ ?_ ?_ ?_ ?_ ?_ ?_ ?_ ?_ ?_ ?_ ?_ ?_ ?_ ?_ ?_ ?_ ?_ ?_ ?_ ?_ ?_ ?_ ?_ ?_ ?_ ?_ ?_
    | with_reducible exact .inl rfl
    | exact Or.inr (hL (by decide))
    | dsimp only)

theorem abortHeld_frame {L : List Block} {s₀ s₁ : State} (code : Code) (k : Nat × Nat × BitVec 32) (hK : changesOnly L s₀ s₁)
    (hL : [.out, .log, .host, .coll] ⊆ L) : changesOnly L s₀ (abortHeld code s₁ k) := by
  unfold abortHeld
  repeat' (first
    | with_reducible exact hK
    | with_reducible assumption
    | with_reducible exact List.Subset.trans (by decide) hL
    | with_reducible apply sendSymbol_frame
    | with_reducible apply abortEvent_frame
    | split
    | fail_if_no_progress with_reducible refine changesOnly_lit ?_ ?_ ?_ ?_ ?_ ?_ ?_ ?_ ?_ ?_ ?_ ?_ ?_ ?_ ?_ ?_ ?_ ?_ ?_ ?_ ?_ ?_ ?_ ?_ ?_ ?_ ?_ ?_ ?_ ?_
    | with_reducible exact .inl rfl
    | exact Or.inr (hL (by decide))
    | dsimp only)

theorem abortColls_frame {L : List Block} {s₀ s₁ : State} (code : Code) (hK : changesOnly L s₀ s₁)
    (hL : [.out, .log, .host, .coll] ⊆ L) : changesOnly L s₀ (abortColls code s₁) := by
  unfold abortColls
  repeat' (first
    | with_reducible exact hK
    | with_reducible assumption
    | with_reducible exact List.Subset.trans (by decide) hL
    | with_reducible refine foldl_frame ?_ (fun _ _ _ => ?_)
    | with_reducible refine foldl_fst_frame ?_ (fun _ _ _ => ?_)
    | with_reducible apply abortInst_frame
    | with_reducible apply abortHeld_frame
    | split
    | fail_if_no_progress with_reducible refine changesOnly_lit ?_ ?_ ?_ ?_ ?_ ?_ ?_ ?_ ?_ ?_ ?_ ?_ ?_ ?_ ?_ ?_ ?_ ?_ ?_ ?_ ?_ ?_ ?_ ?_ ?_ ?_ ?_ ?_ ?_ ?_
    | with_reducible exact .inl rfl
    | exact Or.inr (hL (by decide))
    | dsimp only)

theorem loseTileSram_frame {L : List Block} {s₀ s₁ : State} (p : DieId → Bool) (hK : changesOnly L s₀ s₁)
    (hL : [.mem] ⊆ L) : changesOnly L s₀ (loseTileSram p s₁) := by
  unfold loseTileSram
  repeat' (first
    | with_reducible exact hK
    | with_reducible assumption
    | exact List.Subset.trans (by decide) hL
    | with_reducible refine changesOnly_ite ?_ ?_
    | split
    | fail_if_no_progress with_reducible refine changesOnly_mem ?_ (List.Subset.trans (by decide) hL)
    | fail_if_no_progress with_reducible refine changesOnly_lit ?_ ?_ ?_ ?_ ?_ ?_ ?_ ?_ ?_ ?_ ?_ ?_ ?_ ?_ ?_ ?_ ?_ ?_ ?_ ?_ ?_ ?_ ?_ ?_ ?_ ?_ ?_ ?_ ?_ ?_
    | exact .inl rfl
    | exact .inr (hL (by decide)))

theorem railsDown_frame {L : List Block} {s₀ s₁ : State} (p : DieId → Bool) (hK : changesOnly L s₀ s₁)
    (hL : [.dies, .mem] ⊆ L) : changesOnly L s₀ (railsDown p s₁) := by
  unfold railsDown
  repeat' (first
    | with_reducible exact hK
    | with_reducible assumption
    | exact List.Subset.trans (by decide) hL
    | with_reducible apply mapDies_frame
    | with_reducible apply loseTileSram_frame)

theorem loseDeckSram_frame {L : List Block} {s₀ s₁ : State} (p : ZoneId → Bool) (hK : changesOnly L s₀ s₁)
    (hL : [.mem] ⊆ L) : changesOnly L s₀ (loseDeckSram p s₁) := by
  unfold loseDeckSram
  repeat' (first
    | with_reducible exact hK
    | with_reducible assumption
    | exact List.Subset.trans (by decide) hL
    | with_reducible refine changesOnly_ite ?_ ?_
    | split
    | fail_if_no_progress with_reducible refine changesOnly_mem ?_ (List.Subset.trans (by decide) hL)
    | fail_if_no_progress with_reducible refine changesOnly_lit ?_ ?_ ?_ ?_ ?_ ?_ ?_ ?_ ?_ ?_ ?_ ?_ ?_ ?_ ?_ ?_ ?_ ?_ ?_ ?_ ?_ ?_ ?_ ?_ ?_ ?_ ?_ ?_ ?_ ?_
    | exact .inl rfl
    | exact .inr (hL (by decide)))

theorem stopKeeping_frame {L : List Block} {s₀ s₁ : State} (keep : DieId → Bool) (hK : changesOnly L s₀ s₁)
    (hL : [.out, .installed, .tiles, .dies, .links, .signals, .mem] ⊆ L) : changesOnly L s₀ (stopKeeping keep s₁) := by
  unfold stopKeeping
  repeat' (first
    | with_reducible exact hK
    | with_reducible assumption
    | with_reducible exact List.Subset.trans (by decide) hL
    | with_reducible apply mapTiles_frame
    | with_reducible apply closePackets_frame
    | with_reducible apply railsDown_frame
    | split
    | fail_if_no_progress with_reducible refine changesOnly_lit ?_ ?_ ?_ ?_ ?_ ?_ ?_ ?_ ?_ ?_ ?_ ?_ ?_ ?_ ?_ ?_ ?_ ?_ ?_ ?_ ?_ ?_ ?_ ?_ ?_ ?_ ?_ ?_ ?_ ?_
    | with_reducible exact .inl rfl
    | exact Or.inr (hL (by decide))
    | dsimp only)

theorem stopChart_frame {L : List Block} {s₀ s₁ : State}  (hK : changesOnly L s₀ s₁)
    (hL : [.out, .installed, .tiles, .dies, .links, .signals, .mem] ⊆ L) : changesOnly L s₀ (stopChart s₁) := by
  unfold stopChart
  repeat' (first
    | with_reducible exact hK
    | with_reducible assumption
    | with_reducible exact List.Subset.trans (by decide) hL
    | with_reducible apply stopKeeping_frame
    | split
    | fail_if_no_progress with_reducible refine changesOnly_lit ?_ ?_ ?_ ?_ ?_ ?_ ?_ ?_ ?_ ?_ ?_ ?_ ?_ ?_ ?_ ?_ ?_ ?_ ?_ ?_ ?_ ?_ ?_ ?_ ?_ ?_ ?_ ?_ ?_ ?_
    | with_reducible exact .inl rfl
    | exact Or.inr (hL (by decide))
    | dsimp only)

theorem houseOnly_frame {L : List Block} {s₀ s₁ : State}  (hK : changesOnly L s₀ s₁)
    (hL : [.out, .start, .installed, .tiles, .dies, .links, .signals, .mem, .ports] ⊆ L) : changesOnly L s₀ (houseOnly s₁) := by
  unfold houseOnly
  repeat' (first
    | with_reducible exact hK
    | with_reducible assumption
    | with_reducible exact List.Subset.trans (by decide) hL
    | with_reducible apply mapPorts_frame
    | with_reducible apply mapDies_frame
    | with_reducible apply stopChart_frame
    | split
    | fail_if_no_progress with_reducible refine changesOnly_lit ?_ ?_ ?_ ?_ ?_ ?_ ?_ ?_ ?_ ?_ ?_ ?_ ?_ ?_ ?_ ?_ ?_ ?_ ?_ ?_ ?_ ?_ ?_ ?_ ?_ ?_ ?_ ?_ ?_ ?_
    | with_reducible exact .inl rfl
    | exact Or.inr (hL (by decide))
    | dsimp only)

theorem faultRegions_frame {L : List Block} {s₀ s₁ : State} (ids : List Nat) (code : Code) (die : Option DieId) (hK : changesOnly L s₀ s₁)
    (hL : [.out, .installed, .tiles, .links] ⊆ L) : changesOnly L s₀ (faultRegions ids code die s₁) := by
  unfold faultRegions
  repeat' (first
    | with_reducible exact hK
    | with_reducible assumption
    | with_reducible exact List.Subset.trans (by decide) hL
    | with_reducible apply mapTiles_frame
    | with_reducible apply modInstalled_frame
    | with_reducible apply closePackets_frame
    | split
    | fail_if_no_progress with_reducible refine changesOnly_lit ?_ ?_ ?_ ?_ ?_ ?_ ?_ ?_ ?_ ?_ ?_ ?_ ?_ ?_ ?_ ?_ ?_ ?_ ?_ ?_ ?_ ?_ ?_ ?_ ?_ ?_ ?_ ?_ ?_ ?_
    | with_reducible exact .inl rfl
    | exact Or.inr (hL (by decide))
    | dsimp only)

theorem faultTile_frame {L : List Block} {s₀ s₁ : State} (t : Nat) (code : Code) (hK : changesOnly L s₀ s₁)
    (hL : [.out, .installed, .tiles, .links] ⊆ L) : changesOnly L s₀ (faultTile t code s₁) := by
  unfold faultTile
  repeat' (first
    | with_reducible exact hK
    | with_reducible assumption
    | with_reducible exact List.Subset.trans (by decide) hL
    | with_reducible apply faultRegions_frame
    | split
    | fail_if_no_progress with_reducible refine changesOnly_lit ?_ ?_ ?_ ?_ ?_ ?_ ?_ ?_ ?_ ?_ ?_ ?_ ?_ ?_ ?_ ?_ ?_ ?_ ?_ ?_ ?_ ?_ ?_ ?_ ?_ ?_ ?_ ?_ ?_ ?_
    | with_reducible exact .inl rfl
    | exact Or.inr (hL (by decide))
    | dsimp only)

theorem leaveStep_frame {L : List Block} {s₀ s₁ : State}  (hK : changesOnly L s₀ s₁)
    (hL : [.out, .log, .host, .ctx, .loader, .installed, .tiles, .dies, .links, .signals, .mem, .coll] ⊆ L) : changesOnly L s₀ (leaveStep s₁) := by
  unfold leaveStep
  repeat' (first
    | with_reducible exact hK
    | with_reducible assumption
    | with_reducible exact List.Subset.trans (by decide) hL
    | with_reducible apply report_frame
    | with_reducible apply setSlotState_frame
    | with_reducible apply endPass_frame
    | with_reducible apply endReduction_frame
    | with_reducible apply abortColls_frame
    | with_reducible apply stopChart_frame
    | split
    | fail_if_no_progress with_reducible refine changesOnly_lit ?_ ?_ ?_ ?_ ?_ ?_ ?_ ?_ ?_ ?_ ?_ ?_ ?_ ?_ ?_ ?_ ?_ ?_ ?_ ?_ ?_ ?_ ?_ ?_ ?_ ?_ ?_ ?_ ?_ ?_
    | with_reducible exact .inl rfl
    | exact Or.inr (hL (by decide))
    | dsimp only)

theorem loseRegions_frame {L : List Block} {s₀ s₁ : State} (ids : List Nat) (hK : changesOnly L s₀ s₁)
    (hL : [.out, .log, .host, .ctx, .loader, .installed, .tiles, .dies, .links, .signals, .mem, .coll] ⊆ L) : changesOnly L s₀ (loseRegions ids s₁) := by
  unfold loseRegions
  repeat' (first
    | with_reducible exact hK
    | with_reducible assumption
    | with_reducible exact List.Subset.trans (by decide) hL
    | with_reducible refine foldl_frame ?_ (fun _ _ _ => ?_)
    | with_reducible refine foldl_fst_frame ?_ (fun _ _ _ => ?_)
    | with_reducible apply modInstalled_frame
    | with_reducible apply leaveStep_frame
    | split
    | fail_if_no_progress with_reducible refine changesOnly_lit ?_ ?_ ?_ ?_ ?_ ?_ ?_ ?_ ?_ ?_ ?_ ?_ ?_ ?_ ?_ ?_ ?_ ?_ ?_ ?_ ?_ ?_ ?_ ?_ ?_ ?_ ?_ ?_ ?_ ?_
    | with_reducible exact .inl rfl
    | exact Or.inr (hL (by decide))
    | dsimp only)

theorem addEntry_frame {L : List Block} {s₀ s₁ : State} (kind t detail : Nat) (hK : changesOnly L s₀ s₁)
    (hL : [.out, .log, .host, .ctx, .loader, .installed, .tiles, .dies, .links, .signals, .defects, .mem, .coll] ⊆ L) : changesOnly L s₀ (addEntry kind t detail s₁) := by
  unfold addEntry
  repeat' (first
    | with_reducible exact hK
    | with_reducible assumption
    | with_reducible exact List.Subset.trans (by decide) hL
    | with_reducible apply report_frame
    | with_reducible apply loseRegions_frame
    | split
    | fail_if_no_progress with_reducible refine changesOnly_lit ?_ ?_ ?_ ?_ ?_ ?_ ?_ ?_ ?_ ?_ ?_ ?_ ?_ ?_ ?_ ?_ ?_ ?_ ?_ ?_ ?_ ?_ ?_ ?_ ?_ ?_ ?_ ?_ ?_ ?_
    | with_reducible exact .inl rfl
    | exact Or.inr (hL (by decide))
    | dsimp only)

theorem detect_frame {L : List Block} {s₀ s₁ : State} (p : Part) (code : Code) (hK : changesOnly L s₀ s₁)
    (hL : [.out, .log, .host, .selfTest] ⊆ L) : changesOnly L s₀ (detect p code s₁) := by
  unfold detect
  repeat' (first
    | with_reducible exact hK
    | with_reducible assumption
    | exact List.Subset.trans (by decide) hL
    | with_reducible apply report_frame
    | with_reducible refine changesOnly_ite ?_ ?_
    | split
    | fail_if_no_progress with_reducible refine changesOnly_out ?_ (List.Subset.trans (by decide) hL)
    | fail_if_no_progress with_reducible refine changesOnly_log ?_ (List.Subset.trans (by decide) hL)
    | fail_if_no_progress with_reducible refine changesOnly_host ?_ (List.Subset.trans (by decide) hL)
    | fail_if_no_progress with_reducible refine changesOnly_selfTest ?_ (List.Subset.trans (by decide) hL)
    | fail_if_no_progress with_reducible refine changesOnly_lit ?_ ?_ ?_ ?_ ?_ ?_ ?_ ?_ ?_ ?_ ?_ ?_ ?_ ?_ ?_ ?_ ?_ ?_ ?_ ?_ ?_ ?_ ?_ ?_ ?_ ?_ ?_ ?_ ?_ ?_
    | exact .inl rfl
    | exact .inr (hL (by decide)))

theorem linkDown_frame {L : List Block} {s₀ s₁ : State} (l : LinkDir) (hK : changesOnly L s₀ s₁)
    (hL : [.out, .log, .host, .ctx, .loader, .installed, .tiles, .dies, .links, .signals, .defects, .mem, .coll] ⊆ L) : changesOnly L s₀ (linkDown l s₁) := by
  unfold linkDown
  repeat' (first
    | with_reducible exact hK
    | with_reducible assumption
    | exact List.Subset.trans (by decide) hL
    | with_reducible apply report_frame
    | with_reducible apply modLink_frame
    | with_reducible apply faultRegions_frame
    | with_reducible apply addEntry_frame)

theorem failTrack_frame {L : List Block} {s₀ s₁ : State} (l : LinkDir) (g f : Nat) (hK : changesOnly L s₀ s₁)
    (hL : [.out, .log, .host, .ctx, .loader, .installed, .tiles, .dies, .links, .signals, .defects, .mem, .coll] ⊆ L) : changesOnly L s₀ (failTrack l g f s₁) := by
  unfold failTrack
  repeat' (first
    | with_reducible exact hK
    | with_reducible assumption
    | exact List.Subset.trans (by decide) hL
    | with_reducible apply report_frame
    | with_reducible apply modLink_frame
    | with_reducible apply addEntry_frame
    | with_reducible apply linkDown_frame
    | with_reducible refine changesOnly_ite ?_ ?_
    | split
    | fail_if_no_progress with_reducible refine changesOnly_out ?_ (List.Subset.trans (by decide) hL)
    | fail_if_no_progress with_reducible refine changesOnly_log ?_ (List.Subset.trans (by decide) hL)
    | fail_if_no_progress with_reducible refine changesOnly_host ?_ (List.Subset.trans (by decide) hL)
    | fail_if_no_progress with_reducible refine changesOnly_ctx ?_ (List.Subset.trans (by decide) hL)
    | fail_if_no_progress with_reducible refine changesOnly_loader ?_ (List.Subset.trans (by decide) hL)
    | fail_if_no_progress with_reducible refine changesOnly_installed ?_ (List.Subset.trans (by decide) hL)
    | fail_if_no_progress with_reducible refine changesOnly_tiles ?_ (List.Subset.trans (by decide) hL)
    | fail_if_no_progress with_reducible refine changesOnly_dies ?_ (List.Subset.trans (by decide) hL)
    | fail_if_no_progress with_reducible refine changesOnly_links ?_ (List.Subset.trans (by decide) hL)
    | fail_if_no_progress with_reducible refine changesOnly_signals ?_ (List.Subset.trans (by decide) hL)
    | fail_if_no_progress with_reducible refine changesOnly_defects ?_ (List.Subset.trans (by decide) hL)
    | fail_if_no_progress with_reducible refine changesOnly_mem ?_ (List.Subset.trans (by decide) hL)
    | fail_if_no_progress with_reducible refine changesOnly_coll ?_ (List.Subset.trans (by decide) hL)
    | fail_if_no_progress with_reducible refine changesOnly_lit ?_ ?_ ?_ ?_ ?_ ?_ ?_ ?_ ?_ ?_ ?_ ?_ ?_ ?_ ?_ ?_ ?_ ?_ ?_ ?_ ?_ ?_ ?_ ?_ ?_ ?_ ?_ ?_ ?_ ?_
    | exact .inl rfl)

theorem retireHotSensor_frame {L : List Block} {s₀ s₁ : State} (d : DieId) (k : Nat) (hK : changesOnly L s₀ s₁)
    (hL : [.out, .log, .host, .ctx, .loader, .installed, .tiles, .dies, .links, .signals, .defects, .mem, .thermal, .coll] ⊆ L) : changesOnly L s₀ (retireHotSensor d k s₁) := by
  unfold retireHotSensor
  repeat' (first
    | with_reducible exact hK
    | with_reducible assumption
    | with_reducible exact List.Subset.trans (by decide) hL
    | with_reducible apply reportThermal_frame
    | with_reducible apply addEntry_frame
    | split
    | fail_if_no_progress with_reducible refine changesOnly_lit ?_ ?_ ?_ ?_ ?_ ?_ ?_ ?_ ?_ ?_ ?_ ?_ ?_ ?_ ?_ ?_ ?_ ?_ ?_ ?_ ?_ ?_ ?_ ?_ ?_ ?_ ?_ ?_ ?_ ?_
    | with_reducible exact .inl rfl
    | exact Or.inr (hL (by decide))
    | dsimp only)

theorem retireTileSensor_frame {L : List Block} {s₀ s₁ : State} (t : TileId) (hK : changesOnly L s₀ s₁)
    (hL : [.out, .log, .host, .ctx, .loader, .installed, .tiles, .dies, .links, .signals, .defects, .mem, .thermal, .coll] ⊆ L) : changesOnly L s₀ (retireTileSensor t s₁) := by
  unfold retireTileSensor
  repeat' (first
    | with_reducible exact hK
    | with_reducible assumption
    | with_reducible exact List.Subset.trans (by decide) hL
    | with_reducible apply reportThermal_frame
    | with_reducible apply addEntry_frame
    | split
    | fail_if_no_progress with_reducible refine changesOnly_lit ?_ ?_ ?_ ?_ ?_ ?_ ?_ ?_ ?_ ?_ ?_ ?_ ?_ ?_ ?_ ?_ ?_ ?_ ?_ ?_ ?_ ?_ ?_ ?_ ?_ ?_ ?_ ?_ ?_ ?_
    | with_reducible exact .inl rfl
    | exact Or.inr (hL (by decide))
    | dsimp only)

theorem lastingFault_frame {L : List Block} {s₀ s₁ : State} (p : Part) (code : Code) (hK : changesOnly L s₀ s₁)
    (hL : [.out, .log, .host, .ctx, .loader, .installed, .tiles, .dies, .links, .signals, .defects, .mem, .thermal, .nv, .coll] ⊆ L) : changesOnly L s₀ (lastingFault p code s₁) := by
  unfold lastingFault
  repeat' (first
    | with_reducible exact hK
    | with_reducible assumption
    | with_reducible exact List.Subset.trans (by decide) hL
    | with_reducible apply addEntry_frame
    | with_reducible apply retireHotSensor_frame
    | with_reducible apply retireTileSensor_frame
    | split
    | fail_if_no_progress with_reducible refine changesOnly_lit ?_ ?_ ?_ ?_ ?_ ?_ ?_ ?_ ?_ ?_ ?_ ?_ ?_ ?_ ?_ ?_ ?_ ?_ ?_ ?_ ?_ ?_ ?_ ?_ ?_ ?_ ?_ ?_ ?_ ?_
    | with_reducible exact .inl rfl
    | exact Or.inr (hL (by decide))
    | dsimp only)

theorem loseStack_frame {L : List Block} {s₀ s₁ : State} (i : Slot) (hK : changesOnly L s₀ s₁)
    (hL : [.mem] ⊆ L) : changesOnly L s₀ (loseStack i s₁) := by
  unfold loseStack
  repeat' (first
    | with_reducible exact hK
    | with_reducible assumption
    | exact List.Subset.trans (by decide) hL
    | with_reducible apply zeroMem_frame)

theorem abandonOp_frame {L : List Block} {s₀ s₁ : State} (i : Slot) (hK : changesOnly L s₀ s₁)
    (hL : [.loader] ⊆ L) : changesOnly L s₀ (abandonOp i s₁) := by
  unfold abandonOp
  repeat' (first
    | with_reducible exact hK
    | with_reducible assumption
    | exact List.Subset.trans (by decide) hL
    | with_reducible apply modSlot_frame
    | with_reducible refine changesOnly_ite ?_ ?_
    | split
    | fail_if_no_progress with_reducible refine changesOnly_loader ?_ (List.Subset.trans (by decide) hL)
    | fail_if_no_progress with_reducible refine changesOnly_lit ?_ ?_ ?_ ?_ ?_ ?_ ?_ ?_ ?_ ?_ ?_ ?_ ?_ ?_ ?_ ?_ ?_ ?_ ?_ ?_ ?_ ?_ ?_ ?_ ?_ ?_ ?_ ?_ ?_ ?_
    | exact .inl rfl
    | exact .inr (hL (by decide)))

theorem destroyCtx_frame {L : List Block} {s₀ s₁ : State} (i : Slot) (hK : changesOnly L s₀ s₁)
    (hL : [.out, .log, .host, .ctx, .loader, .mem] ⊆ L) : changesOnly L s₀ (destroyCtx i s₁) := by
  unfold destroyCtx
  repeat' (first
    | with_reducible exact hK
    | with_reducible assumption
    | exact List.Subset.trans (by decide) hL
    | with_reducible apply modCtx_frame
    | with_reducible apply report_frame
    | with_reducible apply modSlot_frame
    | with_reducible apply loseStack_frame
    | with_reducible apply abandonOp_frame)

theorem destroyAll_frame {L : List Block} {s₀ s₁ : State}  (hK : changesOnly L s₀ s₁)
    (hL : [.out, .log, .host, .ctx, .sec, .loader, .installed, .mem, .coll] ⊆ L) : changesOnly L s₀ (destroyAll s₁) := by
  unfold destroyAll
  repeat' (first
    | with_reducible exact hK
    | with_reducible assumption
    | exact List.Subset.trans (by decide) hL
    | with_reducible refine foldl_frame ?_ (fun _ _ _ => ?_)
    | with_reducible refine foldl_fst_frame ?_ (fun _ _ _ => ?_)
    | with_reducible apply destroyCtx_frame
    | with_reducible refine changesOnly_ite ?_ ?_
    | split
    | fail_if_no_progress with_reducible refine changesOnly_out ?_ (List.Subset.trans (by decide) hL)
    | fail_if_no_progress with_reducible refine changesOnly_log ?_ (List.Subset.trans (by decide) hL)
    | fail_if_no_progress with_reducible refine changesOnly_host ?_ (List.Subset.trans (by decide) hL)
    | fail_if_no_progress with_reducible refine changesOnly_ctx ?_ (List.Subset.trans (by decide) hL)
    | fail_if_no_progress with_reducible refine changesOnly_sec ?_ (List.Subset.trans (by decide) hL)
    | fail_if_no_progress with_reducible refine changesOnly_loader ?_ (List.Subset.trans (by decide) hL)
    | fail_if_no_progress with_reducible refine changesOnly_installed ?_ (List.Subset.trans (by decide) hL)
    | fail_if_no_progress with_reducible refine changesOnly_mem ?_ (List.Subset.trans (by decide) hL)
    | fail_if_no_progress with_reducible refine changesOnly_coll ?_ (List.Subset.trans (by decide) hL)
    | fail_if_no_progress with_reducible refine changesOnly_lit ?_ ?_ ?_ ?_ ?_ ?_ ?_ ?_ ?_ ?_ ?_ ?_ ?_ ?_ ?_ ?_ ?_ ?_ ?_ ?_ ?_ ?_ ?_ ?_ ?_ ?_ ?_ ?_ ?_ ?_
    | exact .inl rfl
    | exact .inr (hL (by decide)))

end Sys2Proof.Machine
end

