-- ==== Sys2Proof/Laws/FrameInstall.lean ====
section
/-! SUPPORT. The frames of the operations and commands of Install (Laws/Frame.lean). -/

namespace Sys2Proof.Machine

set_option linter.all false
set_option Elab.async false

open Sys2Proof

theorem coverRows_frame {L : List Block} {s₀ s₁ : State}  (hK : changesOnly L s₀ s₁)
    (hL : [.out, .log, .host, .ctx, .loader, .installed, .tiles, .dies, .links, .signals, .defects, .mem, .coll] ⊆ L) : changesOnly L s₀ (coverRows s₁) := by
  unfold coverRows
  repeat' (first
    | with_reducible exact hK
    | with_reducible assumption
    | with_reducible exact List.Subset.trans (by decide) hL
    | with_reducible refine foldl_frame ?_ (fun _ _ _ => ?_)
    | with_reducible refine foldl_fst_frame ?_ (fun _ _ _ => ?_)
    | with_reducible apply addEntry_frame
    | split
    | fail_if_no_progress with_reducible refine changesOnly_lit ?_ ?_ ?_ ?_ ?_ ?_ ?_ ?_ ?_ ?_ ?_ ?_ ?_ ?_ ?_ ?_ ?_ ?_ ?_ ?_ ?_ ?_ ?_ ?_ ?_ ?_ ?_ ?_ ?_ ?_
    | with_reducible exact .inl rfl
    | exact Or.inr (hL (by decide))
    | dsimp only)

theorem sayFolded_frame {L : List Block} {s₀ s₁ : State} (i : Slot) (l : List TileId) (hK : changesOnly L s₀ s₁)
    (hL : [.out, .log, .host, .loader] ⊆ L) : changesOnly L s₀ (sayFolded i l s₁) := by
  unfold sayFolded
  repeat' (first
    | with_reducible exact hK
    | with_reducible assumption
    | with_reducible exact List.Subset.trans (by decide) hL
    | with_reducible refine foldl_frame ?_ (fun _ _ _ => ?_)
    | with_reducible refine foldl_fst_frame ?_ (fun _ _ _ => ?_)
    | with_reducible apply report_frame
    | with_reducible apply modSlot_frame
    | split
    | fail_if_no_progress with_reducible refine changesOnly_lit ?_ ?_ ?_ ?_ ?_ ?_ ?_ ?_ ?_ ?_ ?_ ?_ ?_ ?_ ?_ ?_ ?_ ?_ ?_ ?_ ?_ ?_ ?_ ?_ ?_ ?_ ?_ ?_ ?_ ?_
    | with_reducible exact .inl rfl
    | exact Or.inr (hL (by decide))
    | dsimp only)

theorem queueDies_frame {L : List Block} {s₀ s₁ : State} (c : Chart) (hK : changesOnly L s₀ s₁)
    (hL : [.dies] ⊆ L) : changesOnly L s₀ (queueDies c s₁) := by
  unfold queueDies
  repeat' (first
    | with_reducible exact hK
    | with_reducible assumption
    | exact List.Subset.trans (by decide) hL
    | with_reducible apply mapDies_frame)

theorem startInstall_frame {L : List Block} {s₀ s₁ : State} (i : Slot) (c : Chart) (vs : List (Nat × Nat)) (hK : changesOnly L s₀ s₁)
    (hL : [.out, .log, .host, .loader, .installed, .dies] ⊆ L) : changesOnly L s₀ (startInstall i c vs s₁) := by
  unfold startInstall
  repeat' (first
    | with_reducible exact hK
    | with_reducible assumption
    | with_reducible exact List.Subset.trans (by decide) hL
    | with_reducible refine foldl_frame ?_ (fun _ _ _ => ?_)
    | with_reducible refine foldl_fst_frame ?_ (fun _ _ _ => ?_)
    | with_reducible apply report_frame
    | with_reducible apply setSlotState_frame
    | with_reducible apply sayFolded_frame
    | with_reducible apply queueDies_frame
    | split
    | fail_if_no_progress with_reducible refine changesOnly_lit ?_ ?_ ?_ ?_ ?_ ?_ ?_ ?_ ?_ ?_ ?_ ?_ ?_ ?_ ?_ ?_ ?_ ?_ ?_ ?_ ?_ ?_ ?_ ?_ ?_ ?_ ?_ ?_ ?_ ?_
    | with_reducible exact .inl rfl
    | exact Or.inr (hL (by decide))
    | dsimp only)

theorem beginInstall_frame {L : List Block} {s₀ s₁ : State} (i : Slot) (hK : changesOnly L s₀ s₁)
    (hL : [.out, .log, .host, .loader, .installed, .dies] ⊆ L) : changesOnly L s₀ (beginInstall i s₁) := by
  unfold beginInstall
  repeat' (first
    | with_reducible exact hK
    | with_reducible assumption
    | with_reducible exact List.Subset.trans (by decide) hL
    | with_reducible apply report_frame
    | with_reducible apply startInstall_frame
    | split
    | fail_if_no_progress with_reducible refine changesOnly_lit ?_ ?_ ?_ ?_ ?_ ?_ ?_ ?_ ?_ ?_ ?_ ?_ ?_ ?_ ?_ ?_ ?_ ?_ ?_ ?_ ?_ ?_ ?_ ?_ ?_ ?_ ?_ ?_ ?_ ?_
    | with_reducible exact .inl rfl
    | exact Or.inr (hL (by decide))
    | dsimp only)

theorem reinstall_frame {L : List Block} {s₀ s₁ : State}  (hK : changesOnly L s₀ s₁)
    (hL : [.out, .log, .host, .loader, .installed, .dies] ⊆ L) : changesOnly L s₀ (reinstall s₁) := by
  unfold reinstall
  repeat' (first
    | with_reducible exact hK
    | with_reducible assumption
    | with_reducible exact List.Subset.trans (by decide) hL
    | with_reducible apply beginInstall_frame
    | split
    | fail_if_no_progress with_reducible refine changesOnly_lit ?_ ?_ ?_ ?_ ?_ ?_ ?_ ?_ ?_ ?_ ?_ ?_ ?_ ?_ ?_ ?_ ?_ ?_ ?_ ?_ ?_ ?_ ?_ ?_ ?_ ?_ ?_ ?_ ?_ ?_
    | with_reducible exact .inl rfl
    | exact Or.inr (hL (by decide))
    | dsimp only)

theorem fillArea_frame {L : List Block} {s₀ s₁ : State} (i : Slot) (c : Chart) (vs : List (Nat × Nat)) (a : Area) (hK : changesOnly L s₀ s₁)
    (hL : [.mem] ⊆ L) : changesOnly L s₀ (fillArea i c vs a s₁) := by
  unfold fillArea
  repeat' (first
    | with_reducible exact hK
    | with_reducible assumption
    | with_reducible exact List.Subset.trans (by decide) hL
    | with_reducible refine foldl_frame ?_ (fun _ _ _ => ?_)
    | with_reducible refine foldl_fst_frame ?_ (fun _ _ _ => ?_)
    | with_reducible apply storeBytes_frame
    | split
    | fail_if_no_progress with_reducible refine changesOnly_lit ?_ ?_ ?_ ?_ ?_ ?_ ?_ ?_ ?_ ?_ ?_ ?_ ?_ ?_ ?_ ?_ ?_ ?_ ?_ ?_ ?_ ?_ ?_ ?_ ?_ ?_ ?_ ?_ ?_ ?_
    | with_reducible exact .inl rfl
    | exact Or.inr (hL (by decide))
    | dsimp only)

theorem startTiles_frame {L : List Block} {s₀ s₁ : State} (c : Chart) (x : Installed) (hK : changesOnly L s₀ s₁)
    (hL : [.out, .tiles, .links] ⊆ L) : changesOnly L s₀ (startTiles c x s₁) := by
  unfold startTiles
  repeat' (first
    | with_reducible exact hK
    | with_reducible assumption
    | with_reducible exact List.Subset.trans (by decide) hL
    | with_reducible refine foldl_frame ?_ (fun _ _ _ => ?_)
    | with_reducible refine foldl_fst_frame ?_ (fun _ _ _ => ?_)
    | with_reducible apply wakeTile_frame
    | split
    | fail_if_no_progress with_reducible refine changesOnly_lit ?_ ?_ ?_ ?_ ?_ ?_ ?_ ?_ ?_ ?_ ?_ ?_ ?_ ?_ ?_ ?_ ?_ ?_ ?_ ?_ ?_ ?_ ?_ ?_ ?_ ?_ ?_ ?_ ?_ ?_
    | with_reducible exact .inl rfl
    | exact Or.inr (hL (by decide))
    | dsimp only)

end Sys2Proof.Machine
end

