-- ==== Sys2Proof/Laws/FramePower.lean ====
section
/-! SUPPORT. The frames of the operations and commands of Power (Laws/Frame.lean). -/

namespace Sys2Proof.Machine

set_option linter.all false
set_option Elab.async false

open Sys2Proof

theorem execAlertPinAssert_frame {s₁ : State} (pin : AlertPin) (widthPs : Nat) :
    ∃ s₂, execAlertPinAssert pin widthPs s₁ = .next s₂ ∧ changesOnly [.free, .out, .log, .host, .power] s₁ s₂ := by
  have hK : changesOnly [.free, .out, .log, .host, .power] s₁ s₁ := changesOnly_refl
  have hL : ([.free, .out, .log, .host, .power] : List Block) ⊆ [.free, .out, .log, .host, .power] := List.Subset.refl _
  refine ⟨_, rfl, ?_⟩
  repeat' (first
    | with_reducible exact hK
    | with_reducible assumption
    | with_reducible exact List.Subset.trans (by decide) hL
    | with_reducible apply drawNext_frame
    | with_reducible apply assertClamp_frame
    | with_reducible refine changesOnly_ite ?_ ?_
    | split
    | fail_if_no_progress with_reducible refine changesOnly_free ?_ (List.Subset.trans (by decide) hL)
    | fail_if_no_progress with_reducible refine changesOnly_out ?_ (List.Subset.trans (by decide) hL)
    | fail_if_no_progress with_reducible refine changesOnly_log ?_ (List.Subset.trans (by decide) hL)
    | fail_if_no_progress with_reducible refine changesOnly_host ?_ (List.Subset.trans (by decide) hL)
    | fail_if_no_progress with_reducible refine changesOnly_power ?_ (List.Subset.trans (by decide) hL)
    | fail_if_no_progress with_reducible refine changesOnly_lit ?_ ?_ ?_ ?_ ?_ ?_ ?_ ?_ ?_ ?_ ?_ ?_ ?_ ?_ ?_ ?_ ?_ ?_ ?_ ?_ ?_ ?_ ?_ ?_ ?_ ?_ ?_ ?_ ?_ ?_
    | with_reducible exact .inl rfl
    | exact .inr (hL (by decide)))

theorem execAlertPinClear_frame {s₁ : State} (pin : AlertPin) :
    ∃ s₂, execAlertPinClear pin s₁ = .next s₂ ∧ changesOnly [.power] s₁ s₂ := by
  have hK : changesOnly [.power] s₁ s₁ := changesOnly_refl
  have hL : ([.power] : List Block) ⊆ [.power] := List.Subset.refl _
  refine ⟨_, rfl, ?_⟩
  repeat' (first
    | with_reducible exact hK
    | with_reducible assumption
    | with_reducible exact List.Subset.trans (by decide) hL
    | with_reducible apply dropSource_frame
    | with_reducible refine changesOnly_ite ?_ ?_
    | split
    | fail_if_no_progress with_reducible refine changesOnly_power ?_ (List.Subset.trans (by decide) hL)
    | fail_if_no_progress with_reducible refine changesOnly_lit ?_ ?_ ?_ ?_ ?_ ?_ ?_ ?_ ?_ ?_ ?_ ?_ ?_ ?_ ?_ ?_ ?_ ?_ ?_ ?_ ?_ ?_ ?_ ?_ ?_ ?_ ?_ ?_ ?_ ?_
    | with_reducible exact .inl rfl
    | exact .inr (hL (by decide)))

theorem releaseClamp_frame {L : List Block} {s₀ s₁ : State} (measuredW : Nat) (hK : changesOnly L s₀ s₁)
    (hL : [.out, .log, .host, .power] ⊆ L) : changesOnly L s₀ (releaseClamp measuredW s₁) := by
  unfold releaseClamp
  repeat' (first
    | with_reducible exact hK
    | with_reducible assumption
    | with_reducible exact List.Subset.trans (by decide) hL
    | with_reducible apply reportPower_frame
    | with_reducible refine changesOnly_ite ?_ ?_
    | split
    | fail_if_no_progress with_reducible refine changesOnly_out ?_ (List.Subset.trans (by decide) hL)
    | fail_if_no_progress with_reducible refine changesOnly_log ?_ (List.Subset.trans (by decide) hL)
    | fail_if_no_progress with_reducible refine changesOnly_host ?_ (List.Subset.trans (by decide) hL)
    | fail_if_no_progress with_reducible refine changesOnly_power ?_ (List.Subset.trans (by decide) hL)
    | fail_if_no_progress with_reducible refine changesOnly_lit ?_ ?_ ?_ ?_ ?_ ?_ ?_ ?_ ?_ ?_ ?_ ?_ ?_ ?_ ?_ ?_ ?_ ?_ ?_ ?_ ?_ ?_ ?_ ?_ ?_ ?_ ?_ ?_ ?_ ?_
    | with_reducible exact .inl rfl
    | exact .inr (hL (by decide)))

theorem execClampRelease_frame {s₁ : State} (measuredW : Nat) :
    ∃ s₂, execClampRelease measuredW s₁ = .next s₂ ∧ changesOnly [.out, .log, .host, .power] s₁ s₂ := by
  have hK : changesOnly [.out, .log, .host, .power] s₁ s₁ := changesOnly_refl
  have hL : ([.out, .log, .host, .power] : List Block) ⊆ [.out, .log, .host, .power] := List.Subset.refl _
  refine ⟨_, rfl, ?_⟩
  repeat' (first
    | with_reducible exact hK
    | with_reducible assumption
    | with_reducible exact List.Subset.trans (by decide) hL
    | with_reducible refine when'_frame _ ?_ (fun _ _ => ?_)
    | with_reducible apply releaseClamp_frame)

theorem loseZone_frame {L : List Block} {s₀ s₁ : State} (z : ZoneId) (hK : changesOnly L s₀ s₁)
    (hL : [.out, .start, .log, .host, .ctx, .sec, .loader, .installed, .tiles, .mem, .power, .ports, .coll] ⊆ L) : changesOnly L s₀ (loseZone z s₁) := by
  unfold loseZone
  repeat' (first
    | with_reducible exact hK
    | with_reducible assumption
    | with_reducible exact List.Subset.trans (by decide) hL
    | with_reducible refine foldl_frame ?_ (fun _ _ _ => ?_)
    | with_reducible refine foldl_fst_frame ?_ (fun _ _ _ => ?_)
    | with_reducible apply mapPorts_frame
    | with_reducible apply mapTiles_frame
    | with_reducible apply report_frame
    | with_reducible apply assertClamp_frame
    | with_reducible apply completeCmd_frame
    | with_reducible apply abortColls_frame
    | with_reducible apply loseTileSram_frame
    | with_reducible apply loseDeckSram_frame
    | with_reducible apply destroyAll_frame
    | with_reducible refine changesOnly_ite ?_ ?_
    | split
    | fail_if_no_progress with_reducible refine changesOnly_out ?_ (List.Subset.trans (by decide) hL)
    | fail_if_no_progress with_reducible refine changesOnly_start ?_ (List.Subset.trans (by decide) hL)
    | fail_if_no_progress with_reducible refine changesOnly_log ?_ (List.Subset.trans (by decide) hL)
    | fail_if_no_progress with_reducible refine changesOnly_host ?_ (List.Subset.trans (by decide) hL)
    | fail_if_no_progress with_reducible refine changesOnly_ctx ?_ (List.Subset.trans (by decide) hL)
    | fail_if_no_progress with_reducible refine changesOnly_sec ?_ (List.Subset.trans (by decide) hL)
    | fail_if_no_progress with_reducible refine changesOnly_loader ?_ (List.Subset.trans (by decide) hL)
    | fail_if_no_progress with_reducible refine changesOnly_installed ?_ (List.Subset.trans (by decide) hL)
    | fail_if_no_progress with_reducible refine changesOnly_tiles ?_ (List.Subset.trans (by decide) hL)
    | fail_if_no_progress with_reducible refine changesOnly_mem ?_ (List.Subset.trans (by decide) hL)
    | fail_if_no_progress with_reducible refine changesOnly_power ?_ (List.Subset.trans (by decide) hL)
    | fail_if_no_progress with_reducible refine changesOnly_ports ?_ (List.Subset.trans (by decide) hL)
    | fail_if_no_progress with_reducible refine changesOnly_coll ?_ (List.Subset.trans (by decide) hL)
    | fail_if_no_progress with_reducible refine changesOnly_lit ?_ ?_ ?_ ?_ ?_ ?_ ?_ ?_ ?_ ?_ ?_ ?_ ?_ ?_ ?_ ?_ ?_ ?_ ?_ ?_ ?_ ?_ ?_ ?_ ?_ ?_ ?_ ?_ ?_ ?_
    | with_reducible exact .inl rfl
    | exact .inr (hL (by decide)))

theorem execDeckZoneLoss_frame {s₁ : State} (z : ZoneId) :
    ∃ s₂, execDeckZoneLoss z s₁ = .next s₂ ∧ changesOnly [.out, .start, .log, .host, .ctx, .sec, .loader, .installed, .tiles, .mem, .power, .ports, .coll] s₁ s₂ := by
  have hK : changesOnly [.out, .start, .log, .host, .ctx, .sec, .loader, .installed, .tiles, .mem, .power, .ports, .coll] s₁ s₁ := changesOnly_refl
  have hL : ([.out, .start, .log, .host, .ctx, .sec, .loader, .installed, .tiles, .mem, .power, .ports, .coll] : List Block) ⊆ [.out, .start, .log, .host, .ctx, .sec, .loader, .installed, .tiles, .mem, .power, .ports, .coll] := List.Subset.refl _
  refine ⟨_, rfl, ?_⟩
  repeat' (first
    | with_reducible exact hK
    | with_reducible assumption
    | with_reducible exact List.Subset.trans (by decide) hL
    | with_reducible refine when'_frame _ ?_ (fun _ _ => ?_)
    | with_reducible apply loseZone_frame)

theorem execDieSupplyTrip_frame {s₁ : State} (d : DieId) :
    ∃ s₂, execDieSupplyTrip d s₁ = .next s₂ ∧ changesOnly [.out, .log, .host, .dies, .power] s₁ s₂ := by
  have hK : changesOnly [.out, .log, .host, .dies, .power] s₁ s₁ := changesOnly_refl
  have hL : ([.out, .log, .host, .dies, .power] : List Block) ⊆ [.out, .log, .host, .dies, .power] := List.Subset.refl _
  refine ⟨_, rfl, ?_⟩
  repeat' (first
    | with_reducible exact hK
    | with_reducible assumption
    | with_reducible exact List.Subset.trans (by decide) hL
    | with_reducible refine when'_frame _ ?_ (fun _ _ => ?_)
    | with_reducible apply modDie_frame
    | with_reducible apply report_frame
    | with_reducible apply assertClamp_frame)

theorem execDieIsolation_frame {s₁ : State} (d : DieId) :
    ∃ s₂, execDieIsolation d s₁ = .next s₂ ∧ changesOnly [.out, .log, .host, .installed, .tiles, .dies, .links, .mem] s₁ s₂ := by
  have hK : changesOnly [.out, .log, .host, .installed, .tiles, .dies, .links, .mem] s₁ s₁ := changesOnly_refl
  have hL : ([.out, .log, .host, .installed, .tiles, .dies, .links, .mem] : List Block) ⊆ [.out, .log, .host, .installed, .tiles, .dies, .links, .mem] := List.Subset.refl _
  refine ⟨_, rfl, ?_⟩
  repeat' (first
    | with_reducible exact hK
    | with_reducible assumption
    | with_reducible exact List.Subset.trans (by decide) hL
    | with_reducible refine when'_frame _ ?_ (fun _ _ => ?_)
    | with_reducible apply modDie_frame
    | with_reducible apply report_frame
    | with_reducible apply closePackets_frame
    | with_reducible apply loseTileSram_frame
    | with_reducible apply faultRegions_frame
    | split
    | fail_if_no_progress with_reducible refine changesOnly_lit ?_ ?_ ?_ ?_ ?_ ?_ ?_ ?_ ?_ ?_ ?_ ?_ ?_ ?_ ?_ ?_ ?_ ?_ ?_ ?_ ?_ ?_ ?_ ?_ ?_ ?_ ?_ ?_ ?_ ?_
    | with_reducible exact .inl rfl
    | exact Or.inr (hL (by decide))
    | dsimp only)

theorem execDieRegulatorLatchOff_frame {s₁ : State} (d : DieId) :
    ∃ s₂, execDieRegulatorLatchOff d s₁ = .next s₂ ∧ changesOnly [.dies, .mem, .power] s₁ s₂ := by
  have hK : changesOnly [.dies, .mem, .power] s₁ s₁ := changesOnly_refl
  have hL : ([.dies, .mem, .power] : List Block) ⊆ [.dies, .mem, .power] := List.Subset.refl _
  refine ⟨_, rfl, ?_⟩
  repeat' (first
    | with_reducible exact hK
    | with_reducible assumption
    | with_reducible exact List.Subset.trans (by decide) hL
    | with_reducible refine when'_frame _ ?_ (fun _ _ => ?_)
    | with_reducible apply modDie_frame
    | with_reducible apply dropSource_frame
    | with_reducible apply railsDown_frame
    | split
    | fail_if_no_progress with_reducible refine changesOnly_lit ?_ ?_ ?_ ?_ ?_ ?_ ?_ ?_ ?_ ?_ ?_ ?_ ?_ ?_ ?_ ?_ ?_ ?_ ?_ ?_ ?_ ?_ ?_ ?_ ?_ ?_ ?_ ?_ ?_ ?_
    | with_reducible exact .inl rfl
    | exact Or.inr (hL (by decide))
    | dsimp only)

theorem execDieRailRampStart_frame {s₁ : State} (d : DieId) :
    ∃ s₂, execDieRailRampStart d s₁ = .next s₂ ∧ changesOnly [.dies, .power] s₁ s₂ := by
  have hK : changesOnly [.dies, .power] s₁ s₁ := changesOnly_refl
  have hL : ([.dies, .power] : List Block) ⊆ [.dies, .power] := List.Subset.refl _
  refine ⟨_, rfl, ?_⟩
  repeat' (first
    | with_reducible exact hK
    | with_reducible assumption
    | with_reducible exact List.Subset.trans (by decide) hL
    | with_reducible refine when'_frame _ ?_ (fun _ _ => ?_)
    | with_reducible apply modDie_frame
    | with_reducible refine changesOnly_ite ?_ ?_
    | split
    | fail_if_no_progress with_reducible refine changesOnly_dies ?_ (List.Subset.trans (by decide) hL)
    | fail_if_no_progress with_reducible refine changesOnly_power ?_ (List.Subset.trans (by decide) hL)
    | fail_if_no_progress with_reducible refine changesOnly_lit ?_ ?_ ?_ ?_ ?_ ?_ ?_ ?_ ?_ ?_ ?_ ?_ ?_ ?_ ?_ ?_ ?_ ?_ ?_ ?_ ?_ ?_ ?_ ?_ ?_ ?_ ?_ ?_ ?_ ?_
    | with_reducible exact .inl rfl
    | exact .inr (hL (by decide)))

theorem execDieRailsUp_frame {s₁ : State} (d : DieId) :
    ∃ s₂, execDieRailsUp d s₁ = .next s₂ ∧ changesOnly [.dies] s₁ s₂ := by
  have hK : changesOnly [.dies] s₁ s₁ := changesOnly_refl
  have hL : ([.dies] : List Block) ⊆ [.dies] := List.Subset.refl _
  refine ⟨_, rfl, ?_⟩
  repeat' (first
    | with_reducible exact hK
    | with_reducible assumption
    | with_reducible exact List.Subset.trans (by decide) hL
    | with_reducible refine when'_frame _ ?_ (fun _ _ => ?_)
    | with_reducible apply modDie_frame)

theorem execDieClockLockTimeout_frame {s₁ : State} (d : DieId) (locked : Bool) :
    ∃ s₂, execDieClockLockTimeout d locked s₁ = .next s₂ ∧ changesOnly [.out, .log, .host, .installed, .tiles, .dies, .links, .power] s₁ s₂ := by
  have hK : changesOnly [.out, .log, .host, .installed, .tiles, .dies, .links, .power] s₁ s₁ := changesOnly_refl
  have hL : ([.out, .log, .host, .installed, .tiles, .dies, .links, .power] : List Block) ⊆ [.out, .log, .host, .installed, .tiles, .dies, .links, .power] := List.Subset.refl _
  refine ⟨_, rfl, ?_⟩
  repeat' (first
    | with_reducible exact hK
    | with_reducible assumption
    | with_reducible exact List.Subset.trans (by decide) hL
    | with_reducible refine when'_frame _ ?_ (fun _ _ => ?_)
    | with_reducible apply modDie_frame
    | with_reducible apply reportPower_frame
    | with_reducible apply faultRegions_frame
    | split
    | fail_if_no_progress with_reducible refine changesOnly_lit ?_ ?_ ?_ ?_ ?_ ?_ ?_ ?_ ?_ ?_ ?_ ?_ ?_ ?_ ?_ ?_ ?_ ?_ ?_ ?_ ?_ ?_ ?_ ?_ ?_ ?_ ?_ ?_ ?_ ?_
    | with_reducible exact .inl rfl
    | exact Or.inr (hL (by decide))
    | dsimp only)

theorem setCapHold_frame {L : List Block} {s₀ s₁ : State} (h : Bool) (hK : changesOnly L s₀ s₁)
    (hL : [.out, .log, .host, .power] ⊆ L) : changesOnly L s₀ (setCapHold h s₁) := by
  unfold setCapHold
  repeat' (first
    | with_reducible exact hK
    | with_reducible assumption
    | with_reducible exact List.Subset.trans (by decide) hL
    | with_reducible apply reportPower_frame
    | with_reducible refine changesOnly_ite ?_ ?_
    | split
    | fail_if_no_progress with_reducible refine changesOnly_out ?_ (List.Subset.trans (by decide) hL)
    | fail_if_no_progress with_reducible refine changesOnly_log ?_ (List.Subset.trans (by decide) hL)
    | fail_if_no_progress with_reducible refine changesOnly_host ?_ (List.Subset.trans (by decide) hL)
    | fail_if_no_progress with_reducible refine changesOnly_power ?_ (List.Subset.trans (by decide) hL)
    | fail_if_no_progress with_reducible refine changesOnly_lit ?_ ?_ ?_ ?_ ?_ ?_ ?_ ?_ ?_ ?_ ?_ ?_ ?_ ?_ ?_ ?_ ?_ ?_ ?_ ?_ ?_ ?_ ?_ ?_ ?_ ?_ ?_ ?_ ?_ ?_
    | with_reducible exact .inl rfl
    | exact .inr (hL (by decide)))

theorem controlInterval_frame {L : List Block} {s₀ s₁ : State} (m : PowerSample) (hK : changesOnly L s₀ s₁)
    (hL : [.out, .log, .host, .installed, .power] ⊆ L) : changesOnly L s₀ (controlInterval m s₁) := by
  unfold controlInterval
  extract_lets plan ph order floor demand planned cPlan g above offset fit s₂ pCap p used target l0 l1 mix short l2
    src s₃ s₄
  have h2 : changesOnly L s₀ s₂ := setCapHold_frame _ hK (List.Subset.trans (by decide) hL)
  have h3 : changesOnly L s₀ s₃ := changesOnly_trans h2 ⟨rfl, fun b hb => by
    cases b <;> first | exact absurd (hL (by decide)) hb | rfl⟩
  have h4 : changesOnly L s₀ s₄ := by
    show changesOnly L s₀ (if short then _ else _)
    clear_value short s₃
    split
    · exact reportPower_frame _ _ h3 (List.Subset.trans (by decide) hL)
    · exact h3
  clear_value ph s₄
  split
  · split
    · exact reportPower_frame _ _ (modInstalled_frame _ h4 (List.Subset.trans (by decide) hL))
        (List.Subset.trans (by decide) hL)
    · exact h4
  · exact h4

theorem execPowerControlInterval_frame {s₁ : State} (m : PowerSample) :
    ∃ s₂, execPowerControlInterval m s₁ = .next s₂ ∧ changesOnly [.out, .log, .host, .installed, .power] s₁ s₂ := by
  have hK : changesOnly [.out, .log, .host, .installed, .power] s₁ s₁ := changesOnly_refl
  have hL : ([.out, .log, .host, .installed, .power] : List Block) ⊆ [.out, .log, .host, .installed, .power] := List.Subset.refl _
  refine ⟨_, rfl, ?_⟩
  repeat' (first
    | with_reducible exact hK
    | with_reducible assumption
    | with_reducible exact List.Subset.trans (by decide) hL
    | with_reducible refine when'_frame _ ?_ (fun _ _ => ?_)
    | with_reducible apply controlInterval_frame)

theorem seedBallast_frame {L : List Block} {s₀ s₁ : State}  (hK : changesOnly L s₀ s₁)
    (hL : [.free, .power] ⊆ L) : changesOnly L s₀ (seedBallast s₁) := by
  unfold seedBallast
  repeat' (first
    | with_reducible exact hK
    | with_reducible assumption
    | with_reducible exact List.Subset.trans (by decide) hL
    | with_reducible apply drawNext_frame
    | split
    | fail_if_no_progress with_reducible refine changesOnly_lit ?_ ?_ ?_ ?_ ?_ ?_ ?_ ?_ ?_ ?_ ?_ ?_ ?_ ?_ ?_ ?_ ?_ ?_ ?_ ?_ ?_ ?_ ?_ ?_ ?_ ?_ ?_ ?_ ?_ ?_
    | with_reducible exact .inl rfl
    | exact Or.inr (hL (by decide))
    | dsimp only)

theorem stopClock_frame {L : List Block} {s₀ s₁ : State} (t : TileId) (hK : changesOnly L s₀ s₁)
    (hL : [.out, .tiles, .dies, .links, .mem] ⊆ L) : changesOnly L s₀ (stopClock t s₁) := by
  unfold stopClock
  repeat' (first
    | with_reducible exact hK
    | with_reducible assumption
    | with_reducible exact List.Subset.trans (by decide) hL
    | with_reducible apply modTile_frame
    | with_reducible apply sendHeartbeat_frame
    | with_reducible apply railsDown_frame
    | split
    | fail_if_no_progress with_reducible refine changesOnly_lit ?_ ?_ ?_ ?_ ?_ ?_ ?_ ?_ ?_ ?_ ?_ ?_ ?_ ?_ ?_ ?_ ?_ ?_ ?_ ?_ ?_ ?_ ?_ ?_ ?_ ?_ ?_ ?_ ?_ ?_
    | with_reducible exact .inl rfl
    | exact Or.inr (hL (by decide))
    | dsimp only)

theorem execDeferredSleepStop_frame {s₁ : State} (t : TileId) :
    ∃ s₂, execDeferredSleepStop t s₁ = .next s₂ ∧ changesOnly [.out, .tiles, .dies, .links, .mem] s₁ s₂ := by
  have hK : changesOnly [.out, .tiles, .dies, .links, .mem] s₁ s₁ := changesOnly_refl
  have hL : ([.out, .tiles, .dies, .links, .mem] : List Block) ⊆ [.out, .tiles, .dies, .links, .mem] := List.Subset.refl _
  refine ⟨_, rfl, ?_⟩
  repeat' (first
    | with_reducible exact hK
    | with_reducible assumption
    | with_reducible exact List.Subset.trans (by decide) hL
    | with_reducible refine when'_frame _ ?_ (fun _ _ => ?_)
    | with_reducible apply stopClock_frame
    | split
    | fail_if_no_progress with_reducible refine changesOnly_lit ?_ ?_ ?_ ?_ ?_ ?_ ?_ ?_ ?_ ?_ ?_ ?_ ?_ ?_ ?_ ?_ ?_ ?_ ?_ ?_ ?_ ?_ ?_ ?_ ?_ ?_ ?_ ?_ ?_ ?_
    | with_reducible exact .inl rfl
    | exact Or.inr (hL (by decide))
    | dsimp only)

theorem execThermalRampCheck_frame {s₁ : State} (meanCenti : Int) :
    ∃ s₂, execThermalRampCheck meanCenti s₁ = .next s₂ ∧ changesOnly [.power] s₁ s₂ := by
  have hK : changesOnly [.power] s₁ s₁ := changesOnly_refl
  have hL : ([.power] : List Block) ⊆ [.power] := List.Subset.refl _
  refine ⟨_, rfl, ?_⟩
  repeat' (first
    | with_reducible exact hK
    | with_reducible assumption
    | with_reducible exact List.Subset.trans (by decide) hL
    | with_reducible refine changesOnly_ite ?_ ?_
    | split
    | fail_if_no_progress with_reducible refine changesOnly_power ?_ (List.Subset.trans (by decide) hL)
    | fail_if_no_progress with_reducible refine changesOnly_lit ?_ ?_ ?_ ?_ ?_ ?_ ?_ ?_ ?_ ?_ ?_ ?_ ?_ ?_ ?_ ?_ ?_ ?_ ?_ ?_ ?_ ?_ ?_ ?_ ?_ ?_ ?_ ?_ ?_ ?_
    | with_reducible exact .inl rfl
    | exact .inr (hL (by decide)))

theorem execOscillatorRetune_frame {s₁ : State}  :
    ∃ s₂, execOscillatorRetune s₁ = .next s₂ ∧ changesOnly [.free, .out, .log, .host, .selfTest, .power] s₁ s₂ := by
  have hK : changesOnly [.free, .out, .log, .host, .selfTest, .power] s₁ s₁ := changesOnly_refl
  have hL : ([.free, .out, .log, .host, .selfTest, .power] : List Block) ⊆ [.free, .out, .log, .host, .selfTest, .power] := List.Subset.refl _
  refine ⟨_, rfl, ?_⟩
  repeat' (first
    | with_reducible exact hK
    | with_reducible assumption
    | with_reducible exact List.Subset.trans (by decide) hL
    | with_reducible apply doneWork_frame
    | with_reducible apply drawNext_frame
    | with_reducible apply reportPower_frame
    | split
    | fail_if_no_progress with_reducible refine changesOnly_lit ?_ ?_ ?_ ?_ ?_ ?_ ?_ ?_ ?_ ?_ ?_ ?_ ?_ ?_ ?_ ?_ ?_ ?_ ?_ ?_ ?_ ?_ ?_ ?_ ?_ ?_ ?_ ?_ ?_ ?_
    | with_reducible exact .inl rfl
    | exact Or.inr (hL (by decide))
    | dsimp only)

theorem execDroopDetect_frame {s₁ : State} (t : TileId) (dropPermille : Nat) :
    ∃ s₂, execDroopDetect t dropPermille s₁ = .next s₂ ∧ changesOnly [.tiles, .power] s₁ s₂ := by
  have hK : changesOnly [.tiles, .power] s₁ s₁ := changesOnly_refl
  have hL : ([.tiles, .power] : List Block) ⊆ [.tiles, .power] := List.Subset.refl _
  refine ⟨_, rfl, ?_⟩
  repeat' (first
    | with_reducible exact hK
    | with_reducible assumption
    | with_reducible exact List.Subset.trans (by decide) hL
    | with_reducible refine when'_frame _ ?_ (fun _ _ => ?_)
    | with_reducible apply modTile_frame
    | with_reducible refine changesOnly_ite ?_ ?_
    | split
    | fail_if_no_progress with_reducible refine changesOnly_tiles ?_ (List.Subset.trans (by decide) hL)
    | fail_if_no_progress with_reducible refine changesOnly_power ?_ (List.Subset.trans (by decide) hL)
    | fail_if_no_progress with_reducible refine changesOnly_lit ?_ ?_ ?_ ?_ ?_ ?_ ?_ ?_ ?_ ?_ ?_ ?_ ?_ ?_ ?_ ?_ ?_ ?_ ?_ ?_ ?_ ?_ ?_ ?_ ?_ ?_ ?_ ?_ ?_ ?_
    | with_reducible exact .inl rfl
    | exact .inr (hL (by decide)))

theorem execDroopRecover_frame {s₁ : State} (t : TileId) :
    ∃ s₂, execDroopRecover t s₁ = .next s₂ ∧ changesOnly [.tiles] s₁ s₂ := by
  have hK : changesOnly [.tiles] s₁ s₁ := changesOnly_refl
  have hL : ([.tiles] : List Block) ⊆ [.tiles] := List.Subset.refl _
  refine ⟨_, rfl, ?_⟩
  repeat' (first
    | with_reducible exact hK
    | with_reducible assumption
    | with_reducible exact List.Subset.trans (by decide) hL
    | with_reducible apply modTile_frame)

theorem execLeaseExpire_frame {s₁ : State}  :
    ∃ s₂, execLeaseExpire s₁ = .next s₂ ∧ changesOnly [.out, .log, .host, .power] s₁ s₂ := by
  have hK : changesOnly [.out, .log, .host, .power] s₁ s₁ := changesOnly_refl
  have hL : ([.out, .log, .host, .power] : List Block) ⊆ [.out, .log, .host, .power] := List.Subset.refl _
  refine ⟨_, rfl, ?_⟩
  repeat' (first
    | with_reducible exact hK
    | with_reducible assumption
    | with_reducible exact List.Subset.trans (by decide) hL
    | with_reducible refine when'_frame _ ?_ (fun _ _ => ?_)
    | with_reducible apply reportPower_frame
    | with_reducible refine changesOnly_ite ?_ ?_
    | split
    | fail_if_no_progress with_reducible refine changesOnly_out ?_ (List.Subset.trans (by decide) hL)
    | fail_if_no_progress with_reducible refine changesOnly_log ?_ (List.Subset.trans (by decide) hL)
    | fail_if_no_progress with_reducible refine changesOnly_host ?_ (List.Subset.trans (by decide) hL)
    | fail_if_no_progress with_reducible refine changesOnly_power ?_ (List.Subset.trans (by decide) hL)
    | fail_if_no_progress with_reducible refine changesOnly_lit ?_ ?_ ?_ ?_ ?_ ?_ ?_ ?_ ?_ ?_ ?_ ?_ ?_ ?_ ?_ ?_ ?_ ?_ ?_ ?_ ?_ ?_ ?_ ?_ ?_ ?_ ?_ ?_ ?_ ?_
    | with_reducible exact .inl rfl
    | exact .inr (hL (by decide)))

theorem execMarginSample_frame {s₁ : State} (d : DieId) (slackPermille : Nat) :
    ∃ s₂, execMarginSample d slackPermille s₁ = .next s₂ ∧ changesOnly [.out, .log, .host, .dies, .selfTest, .power] s₁ s₂ := by
  have hK : changesOnly [.out, .log, .host, .dies, .selfTest, .power] s₁ s₁ := changesOnly_refl
  have hL : ([.out, .log, .host, .dies, .selfTest, .power] : List Block) ⊆ [.out, .log, .host, .dies, .selfTest, .power] := List.Subset.refl _
  refine ⟨_, rfl, ?_⟩
  repeat' (first
    | with_reducible exact hK
    | with_reducible assumption
    | with_reducible exact List.Subset.trans (by decide) hL
    | with_reducible refine when'_frame _ ?_ (fun _ _ => ?_)
    | with_reducible apply doneWork_frame
    | with_reducible apply modDie_frame
    | with_reducible apply reportPower_frame
    | split
    | fail_if_no_progress with_reducible refine changesOnly_lit ?_ ?_ ?_ ?_ ?_ ?_ ?_ ?_ ?_ ?_ ?_ ?_ ?_ ?_ ?_ ?_ ?_ ?_ ?_ ?_ ?_ ?_ ?_ ?_ ?_ ?_ ?_ ?_ ?_ ?_
    | with_reducible exact .inl rfl
    | exact Or.inr (hL (by decide))
    | dsimp only)

theorem execEnergyAccumulate_frame {s₁ : State} (measuredW : Nat) :
    ∃ s₂, execEnergyAccumulate measuredW s₁ = .next s₂ ∧ changesOnly [.power] s₁ s₂ := by
  have hK : changesOnly [.power] s₁ s₁ := changesOnly_refl
  have hL : ([.power] : List Block) ⊆ [.power] := List.Subset.refl _
  refine ⟨_, rfl, ?_⟩
  repeat' (first
    | with_reducible exact hK
    | with_reducible assumption
    | with_reducible exact List.Subset.trans (by decide) hL
    | with_reducible refine changesOnly_ite ?_ ?_
    | split
    | fail_if_no_progress with_reducible refine changesOnly_power ?_ (List.Subset.trans (by decide) hL)
    | fail_if_no_progress with_reducible refine changesOnly_lit ?_ ?_ ?_ ?_ ?_ ?_ ?_ ?_ ?_ ?_ ?_ ?_ ?_ ?_ ?_ ?_ ?_ ?_ ?_ ?_ ?_ ?_ ?_ ?_ ?_ ?_ ?_ ?_ ?_ ?_
    | with_reducible exact .inl rfl
    | exact .inr (hL (by decide)))

theorem coarseThermal_frame {L : List Block} {s₀ s₁ : State}  (hK : changesOnly L s₀ s₁)
    (hL : [.thermal] ⊆ L) : changesOnly L s₀ (coarseThermal s₁) := by
  unfold coarseThermal
  repeat' (first
    | with_reducible exact hK
    | with_reducible assumption
    | with_reducible exact List.Subset.trans (by decide) hL
    | with_reducible refine changesOnly_ite ?_ ?_
    | split
    | fail_if_no_progress with_reducible refine changesOnly_thermal ?_ (List.Subset.trans (by decide) hL)
    | fail_if_no_progress with_reducible refine changesOnly_lit ?_ ?_ ?_ ?_ ?_ ?_ ?_ ?_ ?_ ?_ ?_ ?_ ?_ ?_ ?_ ?_ ?_ ?_ ?_ ?_ ?_ ?_ ?_ ?_ ?_ ?_ ?_ ?_ ?_ ?_
    | with_reducible exact .inl rfl
    | exact .inr (hL (by decide)))

theorem execTelemetryUpdate_frame {s₁ : State} (a : Activity) :
    ∃ s₂, execTelemetryUpdate a s₁ = .next s₂ ∧ changesOnly [.ctx, .selfTest, .thermal] s₁ s₂ := by
  refine ⟨_, rfl, when'_frame _ changesOnly_refl fun y hy => ?_⟩
  have fin : ∀ (k : Nat) (u : State), changesOnly [.ctx, .selfTest, .thermal] s₁ u →
      changesOnly [.ctx, .selfTest, .thermal] s₁ { u with thermal := { u.thermal with teleMs := k } } := fun k u hu =>
    changesOnly_trans hu ⟨rfl, fun b hb => by cases b <;> first | exact absurd (by decide) hb | rfl⟩
  dsimp only
  refine doneWork_frame _ (fin _ _ ?_) (by decide)
  repeat' (first
    | with_reducible exact hy
    | with_reducible refine coarseThermal_frame ?_ (by decide)
    | with_reducible refine modCtx_frame _ _ ?_ (by decide)
    | split)

end Sys2Proof.Machine
end

