-- ==== Sys2Proof/Laws/FrameCooling.lean ====
section
/-! SUPPORT. The frames of the operations and commands of Cooling (Laws/Frame.lean). -/

namespace Sys2Proof.Machine

set_option linter.all false
set_option Elab.async false

open Sys2Proof

theorem dropCooling_frame {L : List Block} {s₀ s₁ : State}  (hK : changesOnly L s₀ s₁)
    (hL : [.power] ⊆ L) : changesOnly L s₀ (dropCooling s₁) := by
  unfold dropCooling
  repeat' (first
    | with_reducible exact hK
    | with_reducible assumption
    | with_reducible exact List.Subset.trans (by decide) hL
    | with_reducible apply dropSource_frame
    | with_reducible refine changesOnly_ite ?_ ?_
    | split)

theorem actDerate_frame {L : List Block} {s₀ s₁ : State}  (hK : changesOnly L s₀ s₁)
    (hL : [.out, .log, .host, .thermal] ⊆ L) : changesOnly L s₀ (actDerate s₁) := by
  unfold actDerate
  repeat' (first
    | with_reducible exact hK
    | with_reducible assumption
    | with_reducible exact List.Subset.trans (by decide) hL
    | with_reducible apply reportThermal_frame
    | with_reducible refine changesOnly_ite ?_ ?_
    | split
    | fail_if_no_progress with_reducible refine changesOnly_out ?_ (List.Subset.trans (by decide) hL)
    | fail_if_no_progress with_reducible refine changesOnly_log ?_ (List.Subset.trans (by decide) hL)
    | fail_if_no_progress with_reducible refine changesOnly_host ?_ (List.Subset.trans (by decide) hL)
    | fail_if_no_progress with_reducible refine changesOnly_thermal ?_ (List.Subset.trans (by decide) hL)
    | fail_if_no_progress with_reducible refine changesOnly_lit ?_ ?_ ?_ ?_ ?_ ?_ ?_ ?_ ?_ ?_ ?_ ?_ ?_ ?_ ?_ ?_ ?_ ?_ ?_ ?_ ?_ ?_ ?_ ?_ ?_ ?_ ?_ ?_ ?_ ?_
    | with_reducible exact .inl rfl
    | exact .inr (hL (by decide)))

theorem actFlowClamp_frame {L : List Block} {s₀ s₁ : State}  (hK : changesOnly L s₀ s₁)
    (hL : [.out, .log, .host, .power, .thermal] ⊆ L) : changesOnly L s₀ (actFlowClamp s₁) := by
  unfold actFlowClamp
  repeat' (first
    | with_reducible exact hK
    | with_reducible assumption
    | with_reducible exact List.Subset.trans (by decide) hL
    | with_reducible apply reportThermal_frame
    | with_reducible apply assertClamp_frame
    | with_reducible refine changesOnly_ite ?_ ?_
    | split
    | fail_if_no_progress with_reducible refine changesOnly_out ?_ (List.Subset.trans (by decide) hL)
    | fail_if_no_progress with_reducible refine changesOnly_log ?_ (List.Subset.trans (by decide) hL)
    | fail_if_no_progress with_reducible refine changesOnly_host ?_ (List.Subset.trans (by decide) hL)
    | fail_if_no_progress with_reducible refine changesOnly_power ?_ (List.Subset.trans (by decide) hL)
    | fail_if_no_progress with_reducible refine changesOnly_thermal ?_ (List.Subset.trans (by decide) hL)
    | fail_if_no_progress with_reducible refine changesOnly_lit ?_ ?_ ?_ ?_ ?_ ?_ ?_ ?_ ?_ ?_ ?_ ?_ ?_ ?_ ?_ ?_ ?_ ?_ ?_ ?_ ?_ ?_ ?_ ?_ ?_ ?_ ?_ ?_ ?_ ?_
    | with_reducible exact .inl rfl
    | exact .inr (hL (by decide)))

theorem actSuddenStop_frame {L : List Block} {s₀ s₁ : State}  (hK : changesOnly L s₀ s₁)
    (hL : [.out, .log, .host, .power, .thermal] ⊆ L) : changesOnly L s₀ (actSuddenStop s₁) := by
  unfold actSuddenStop
  repeat' (first
    | with_reducible exact hK
    | with_reducible assumption
    | with_reducible exact List.Subset.trans (by decide) hL
    | with_reducible apply reportThermal_frame
    | with_reducible apply assertClamp_frame
    | with_reducible refine changesOnly_ite ?_ ?_
    | split
    | fail_if_no_progress with_reducible refine changesOnly_out ?_ (List.Subset.trans (by decide) hL)
    | fail_if_no_progress with_reducible refine changesOnly_log ?_ (List.Subset.trans (by decide) hL)
    | fail_if_no_progress with_reducible refine changesOnly_host ?_ (List.Subset.trans (by decide) hL)
    | fail_if_no_progress with_reducible refine changesOnly_power ?_ (List.Subset.trans (by decide) hL)
    | fail_if_no_progress with_reducible refine changesOnly_thermal ?_ (List.Subset.trans (by decide) hL)
    | fail_if_no_progress with_reducible refine changesOnly_lit ?_ ?_ ?_ ?_ ?_ ?_ ?_ ?_ ?_ ?_ ?_ ?_ ?_ ?_ ?_ ?_ ?_ ?_ ?_ ?_ ?_ ?_ ?_ ?_ ?_ ?_ ?_ ?_ ?_ ?_
    | with_reducible exact .inl rfl
    | exact .inr (hL (by decide)))

theorem flowAct_frame {L : List Block} {s₀ s₁ : State}  (hK : changesOnly L s₀ s₁)
    (hL : [.out, .log, .host, .power, .thermal] ⊆ L) : changesOnly L s₀ (flowAct s₁) := by
  unfold flowAct
  repeat' (first
    | with_reducible exact hK
    | with_reducible assumption
    | with_reducible exact List.Subset.trans (by decide) hL
    | with_reducible apply actDerate_frame
    | with_reducible apply actFlowClamp_frame
    | with_reducible apply actSuddenStop_frame
    | with_reducible refine changesOnly_ite ?_ ?_
    | split)

theorem takeFlow_frame {L : List Block} {s₀ s₁ : State} (f : Nat) (hK : changesOnly L s₀ s₁)
    (hL : [.thermal] ⊆ L) : changesOnly L s₀ (takeFlow f s₁) := by
  unfold takeFlow
  repeat' (first
    | with_reducible exact hK
    | with_reducible assumption
    | with_reducible exact List.Subset.trans (by decide) hL
    | with_reducible refine changesOnly_ite ?_ ?_
    | split
    | fail_if_no_progress with_reducible refine changesOnly_thermal ?_ (List.Subset.trans (by decide) hL)
    | fail_if_no_progress with_reducible refine changesOnly_lit ?_ ?_ ?_ ?_ ?_ ?_ ?_ ?_ ?_ ?_ ?_ ?_ ?_ ?_ ?_ ?_ ?_ ?_ ?_ ?_ ?_ ?_ ?_ ?_ ?_ ?_ ?_ ?_ ?_ ?_
    | with_reducible exact .inl rfl
    | exact .inr (hL (by decide)))

theorem reportCold_frame {L : List Block} {s₀ s₁ : State}  (hK : changesOnly L s₀ s₁)
    (hL : [.out, .log, .host, .thermal] ⊆ L) : changesOnly L s₀ (reportCold s₁) := by
  unfold reportCold
  repeat' (first
    | with_reducible exact hK
    | with_reducible assumption
    | with_reducible exact List.Subset.trans (by decide) hL
    | with_reducible apply reportThermal_frame
    | with_reducible refine changesOnly_ite ?_ ?_
    | split
    | fail_if_no_progress with_reducible refine changesOnly_out ?_ (List.Subset.trans (by decide) hL)
    | fail_if_no_progress with_reducible refine changesOnly_log ?_ (List.Subset.trans (by decide) hL)
    | fail_if_no_progress with_reducible refine changesOnly_host ?_ (List.Subset.trans (by decide) hL)
    | fail_if_no_progress with_reducible refine changesOnly_thermal ?_ (List.Subset.trans (by decide) hL)
    | fail_if_no_progress with_reducible refine changesOnly_lit ?_ ?_ ?_ ?_ ?_ ?_ ?_ ?_ ?_ ?_ ?_ ?_ ?_ ?_ ?_ ?_ ?_ ?_ ?_ ?_ ?_ ?_ ?_ ?_ ?_ ?_ ?_ ?_ ?_ ?_
    | with_reducible exact .inl rfl
    | exact .inr (hL (by decide)))

theorem takeTray_frame {L : List Block} {s₀ s₁ : State} (t : TrayRegs) (hK : changesOnly L s₀ s₁)
    (hL : [.out, .log, .host, .thermal] ⊆ L) : changesOnly L s₀ (takeTray t s₁) := by
  unfold takeTray
  repeat' (first
    | with_reducible exact hK
    | with_reducible assumption
    | with_reducible exact List.Subset.trans (by decide) hL
    | with_reducible apply takeFlow_frame
    | with_reducible apply reportCold_frame
    | with_reducible refine changesOnly_ite ?_ ?_
    | split
    | fail_if_no_progress with_reducible refine changesOnly_out ?_ (List.Subset.trans (by decide) hL)
    | fail_if_no_progress with_reducible refine changesOnly_log ?_ (List.Subset.trans (by decide) hL)
    | fail_if_no_progress with_reducible refine changesOnly_host ?_ (List.Subset.trans (by decide) hL)
    | fail_if_no_progress with_reducible refine changesOnly_thermal ?_ (List.Subset.trans (by decide) hL)
    | fail_if_no_progress with_reducible refine changesOnly_lit ?_ ?_ ?_ ?_ ?_ ?_ ?_ ?_ ?_ ?_ ?_ ?_ ?_ ?_ ?_ ?_ ?_ ?_ ?_ ?_ ?_ ?_ ?_ ?_ ?_ ?_ ?_ ?_ ?_ ?_
    | with_reducible exact .inl rfl
    | exact .inr (hL (by decide)))

theorem execTrayRead_frame {s₁ : State} (tray : Option TrayRegs) :
    ∃ s₂, execTrayRead tray s₁ = .next s₂ ∧ changesOnly [.out, .log, .host, .power, .thermal] s₁ s₂ := by
  have hK : changesOnly [.out, .log, .host, .power, .thermal] s₁ s₁ := changesOnly_refl
  have hL : ([.out, .log, .host, .power, .thermal] : List Block) ⊆ [.out, .log, .host, .power, .thermal] := List.Subset.refl _
  refine ⟨_, rfl, ?_⟩
  repeat' (first
    | with_reducible exact hK
    | with_reducible assumption
    | with_reducible exact List.Subset.trans (by decide) hL
    | with_reducible apply flowAct_frame
    | with_reducible apply takeTray_frame
    | with_reducible refine changesOnly_ite ?_ ?_
    | split)

theorem execTrayReadingStale_frame {s₁ : State}  :
    ∃ s₂, execTrayReadingStale s₁ = .next s₂ ∧ changesOnly [.out, .log, .host, .power, .thermal] s₁ s₂ := by
  have hK : changesOnly [.out, .log, .host, .power, .thermal] s₁ s₁ := changesOnly_refl
  have hL : ([.out, .log, .host, .power, .thermal] : List Block) ⊆ [.out, .log, .host, .power, .thermal] := List.Subset.refl _
  refine ⟨_, rfl, ?_⟩
  repeat' (first
    | with_reducible exact hK
    | with_reducible assumption
    | with_reducible exact List.Subset.trans (by decide) hL
    | with_reducible refine when'_frame _ ?_ (fun _ _ => ?_)
    | with_reducible apply reportThermal_frame
    | with_reducible apply flowAct_frame
    | with_reducible apply takeFlow_frame
    | with_reducible refine changesOnly_ite ?_ ?_
    | split
    | fail_if_no_progress with_reducible refine changesOnly_out ?_ (List.Subset.trans (by decide) hL)
    | fail_if_no_progress with_reducible refine changesOnly_log ?_ (List.Subset.trans (by decide) hL)
    | fail_if_no_progress with_reducible refine changesOnly_host ?_ (List.Subset.trans (by decide) hL)
    | fail_if_no_progress with_reducible refine changesOnly_power ?_ (List.Subset.trans (by decide) hL)
    | fail_if_no_progress with_reducible refine changesOnly_thermal ?_ (List.Subset.trans (by decide) hL)
    | fail_if_no_progress with_reducible refine changesOnly_lit ?_ ?_ ?_ ?_ ?_ ?_ ?_ ?_ ?_ ?_ ?_ ?_ ?_ ?_ ?_ ?_ ?_ ?_ ?_ ?_ ?_ ?_ ?_ ?_ ?_ ?_ ?_ ?_ ?_ ?_
    | with_reducible exact .inl rfl
    | exact .inr (hL (by decide)))

theorem execFlowClampClear_frame {s₁ : State}  :
    ∃ s₂, execFlowClampClear s₁ = .next s₂ ∧ changesOnly [.out, .log, .host, .power, .thermal] s₁ s₂ := by
  have hK : changesOnly [.out, .log, .host, .power, .thermal] s₁ s₁ := changesOnly_refl
  have hL : ([.out, .log, .host, .power, .thermal] : List Block) ⊆ [.out, .log, .host, .power, .thermal] := List.Subset.refl _
  refine ⟨_, rfl, ?_⟩
  repeat' (first
    | with_reducible exact hK
    | with_reducible assumption
    | with_reducible exact List.Subset.trans (by decide) hL
    | with_reducible refine when'_frame _ ?_ (fun _ _ => ?_)
    | with_reducible apply reportThermal_frame
    | with_reducible apply dropCooling_frame
    | with_reducible refine changesOnly_ite ?_ ?_
    | split
    | fail_if_no_progress with_reducible refine changesOnly_out ?_ (List.Subset.trans (by decide) hL)
    | fail_if_no_progress with_reducible refine changesOnly_log ?_ (List.Subset.trans (by decide) hL)
    | fail_if_no_progress with_reducible refine changesOnly_host ?_ (List.Subset.trans (by decide) hL)
    | fail_if_no_progress with_reducible refine changesOnly_power ?_ (List.Subset.trans (by decide) hL)
    | fail_if_no_progress with_reducible refine changesOnly_thermal ?_ (List.Subset.trans (by decide) hL)
    | fail_if_no_progress with_reducible refine changesOnly_lit ?_ ?_ ?_ ?_ ?_ ?_ ?_ ?_ ?_ ?_ ?_ ?_ ?_ ?_ ?_ ?_ ?_ ?_ ?_ ?_ ?_ ?_ ?_ ?_ ?_ ?_ ?_ ?_ ?_ ?_
    | with_reducible exact .inl rfl
    | exact .inr (hL (by decide)))

theorem execSuddenStopRecover_frame {s₁ : State}  :
    ∃ s₂, execSuddenStopRecover s₁ = .next s₂ ∧ changesOnly [.power, .thermal] s₁ s₂ := by
  have hK : changesOnly [.power, .thermal] s₁ s₁ := changesOnly_refl
  have hL : ([.power, .thermal] : List Block) ⊆ [.power, .thermal] := List.Subset.refl _
  refine ⟨_, rfl, ?_⟩
  repeat' (first
    | with_reducible exact hK
    | with_reducible assumption
    | with_reducible exact List.Subset.trans (by decide) hL
    | with_reducible refine when'_frame _ ?_ (fun _ _ => ?_)
    | with_reducible apply dropCooling_frame
    | with_reducible refine changesOnly_ite ?_ ?_
    | split
    | fail_if_no_progress with_reducible refine changesOnly_power ?_ (List.Subset.trans (by decide) hL)
    | fail_if_no_progress with_reducible refine changesOnly_thermal ?_ (List.Subset.trans (by decide) hL)
    | fail_if_no_progress with_reducible refine changesOnly_lit ?_ ?_ ?_ ?_ ?_ ?_ ?_ ?_ ?_ ?_ ?_ ?_ ?_ ?_ ?_ ?_ ?_ ?_ ?_ ?_ ?_ ?_ ?_ ?_ ?_ ?_ ?_ ?_ ?_ ?_
    | with_reducible exact .inl rfl
    | exact .inr (hL (by decide)))

theorem endActive_frame {L : List Block} {s₀ s₁ : State} (code : Code) (said : Bool) (hK : changesOnly L s₀ s₁)
    (hL : [.out, .log, .host, .ctx, .installed, .tiles, .links, .signals, .coll] ⊆ L) : changesOnly L s₀ (endActive code said s₁) := by
  unfold endActive
  repeat' (first
    | with_reducible exact hK
    | with_reducible assumption
    | with_reducible exact List.Subset.trans (by decide) hL
    | with_reducible apply haltPrompters_frame
    | with_reducible apply endReduction_frame
    | with_reducible apply endOthers_frame
    | with_reducible apply dropLoads_frame
    | with_reducible apply abortColls_frame
    | split
    | fail_if_no_progress with_reducible refine changesOnly_lit ?_ ?_ ?_ ?_ ?_ ?_ ?_ ?_ ?_ ?_ ?_ ?_ ?_ ?_ ?_ ?_ ?_ ?_ ?_ ?_ ?_ ?_ ?_ ?_ ?_ ?_ ?_ ?_ ?_ ?_
    | with_reducible exact .inl rfl
    | exact Or.inr (hL (by decide))
    | dsimp only)

theorem execCoolantHalt_frame {s₁ : State}  :
    ∃ s₂, execCoolantHalt s₁ = .next s₂ ∧ changesOnly [.out, .log, .host, .ctx, .installed, .tiles, .links, .signals, .thermal, .coll] s₁ s₂ := by
  have hK : changesOnly [.out, .log, .host, .ctx, .installed, .tiles, .links, .signals, .thermal, .coll] s₁ s₁ := changesOnly_refl
  have hL : ([.out, .log, .host, .ctx, .installed, .tiles, .links, .signals, .thermal, .coll] : List Block) ⊆ [.out, .log, .host, .ctx, .installed, .tiles, .links, .signals, .thermal, .coll] := List.Subset.refl _
  refine ⟨_, rfl, ?_⟩
  repeat' (first
    | with_reducible exact hK
    | with_reducible assumption
    | with_reducible exact List.Subset.trans (by decide) hL
    | with_reducible refine when'_frame _ ?_ (fun _ _ => ?_)
    | with_reducible apply endActive_frame
    | split
    | fail_if_no_progress with_reducible refine changesOnly_lit ?_ ?_ ?_ ?_ ?_ ?_ ?_ ?_ ?_ ?_ ?_ ?_ ?_ ?_ ?_ ?_ ?_ ?_ ?_ ?_ ?_ ?_ ?_ ?_ ?_ ?_ ?_ ?_ ?_ ?_
    | with_reducible exact .inl rfl
    | exact Or.inr (hL (by decide))
    | dsimp only)

theorem parkChart_frame {L : List Block} {s₀ s₁ : State}  (hK : changesOnly L s₀ s₁)
    (hL : [.out, .loader, .installed, .tiles, .dies, .links, .signals, .mem] ⊆ L) : changesOnly L s₀ (parkChart s₁) := by
  unfold parkChart
  repeat' (first
    | with_reducible exact hK
    | with_reducible assumption
    | with_reducible exact List.Subset.trans (by decide) hL
    | with_reducible apply setSlotState_frame
    | with_reducible apply stopChart_frame
    | split
    | fail_if_no_progress with_reducible refine changesOnly_lit ?_ ?_ ?_ ?_ ?_ ?_ ?_ ?_ ?_ ?_ ?_ ?_ ?_ ?_ ?_ ?_ ?_ ?_ ?_ ?_ ?_ ?_ ?_ ?_ ?_ ?_ ?_ ?_ ?_ ?_
    | with_reducible exact .inl rfl
    | exact Or.inr (hL (by decide))
    | dsimp only)

theorem execHalted_frame {s₁ : State}  :
    ∃ s₂, execHalted s₁ = .next s₂ ∧ changesOnly [.out, .log, .host, .loader, .installed, .tiles, .dies, .links, .signals, .mem, .thermal] s₁ s₂ := by
  have hK : changesOnly [.out, .log, .host, .loader, .installed, .tiles, .dies, .links, .signals, .mem, .thermal] s₁ s₁ := changesOnly_refl
  have hL : ([.out, .log, .host, .loader, .installed, .tiles, .dies, .links, .signals, .mem, .thermal] : List Block) ⊆ [.out, .log, .host, .loader, .installed, .tiles, .dies, .links, .signals, .mem, .thermal] := List.Subset.refl _
  refine ⟨_, rfl, ?_⟩
  repeat' (first
    | with_reducible exact hK
    | with_reducible assumption
    | with_reducible exact List.Subset.trans (by decide) hL
    | with_reducible refine when'_frame _ ?_ (fun _ _ => ?_)
    | with_reducible apply reportThermal_frame
    | with_reducible apply parkChart_frame
    | split
    | fail_if_no_progress with_reducible refine changesOnly_lit ?_ ?_ ?_ ?_ ?_ ?_ ?_ ?_ ?_ ?_ ?_ ?_ ?_ ?_ ?_ ?_ ?_ ?_ ?_ ?_ ?_ ?_ ?_ ?_ ?_ ?_ ?_ ?_ ?_ ?_
    | with_reducible exact .inl rfl
    | exact Or.inr (hL (by decide))
    | dsimp only)

theorem powerOff_frame {L : List Block} {s₀ s₁ : State} (cause : Nat) (hK : changesOnly L s₀ s₁)
    (hL : [.out, .start, .log, .host, .ctx, .sec, .loader, .installed, .tiles, .dies, .links, .signals, .mem, .power, .thermal, .ports, .coll] ⊆ L) : changesOnly L s₀ (powerOff cause s₁) := by
  unfold powerOff
  repeat' (first
    | with_reducible exact hK
    | with_reducible assumption
    | with_reducible exact List.Subset.trans (by decide) hL
    | with_reducible apply emit_frame
    | with_reducible apply reportThermal_frame
    | with_reducible apply houseOnly_frame
    | with_reducible apply destroyAll_frame
    | split
    | fail_if_no_progress with_reducible refine changesOnly_lit ?_ ?_ ?_ ?_ ?_ ?_ ?_ ?_ ?_ ?_ ?_ ?_ ?_ ?_ ?_ ?_ ?_ ?_ ?_ ?_ ?_ ?_ ?_ ?_ ?_ ?_ ?_ ?_ ?_ ?_
    | with_reducible exact .inl rfl
    | exact Or.inr (hL (by decide))
    | dsimp only)

theorem execFlowPowerOff_frame {s₁ : State}  :
    ∃ s₂, execFlowPowerOff s₁ = .next s₂ ∧ changesOnly [.out, .start, .log, .host, .ctx, .sec, .loader, .installed, .tiles, .dies, .links, .signals, .mem, .power, .thermal, .ports, .coll] s₁ s₂ := by
  have hK : changesOnly [.out, .start, .log, .host, .ctx, .sec, .loader, .installed, .tiles, .dies, .links, .signals, .mem, .power, .thermal, .ports, .coll] s₁ s₁ := changesOnly_refl
  have hL : ([.out, .start, .log, .host, .ctx, .sec, .loader, .installed, .tiles, .dies, .links, .signals, .mem, .power, .thermal, .ports, .coll] : List Block) ⊆ [.out, .start, .log, .host, .ctx, .sec, .loader, .installed, .tiles, .dies, .links, .signals, .mem, .power, .thermal, .ports, .coll] := List.Subset.refl _
  refine ⟨_, rfl, ?_⟩
  repeat' (first
    | with_reducible exact hK
    | with_reducible assumption
    | with_reducible exact List.Subset.trans (by decide) hL
    | with_reducible refine when'_frame _ ?_ (fun _ _ => ?_)
    | with_reducible apply powerOff_frame
    | split
    | fail_if_no_progress with_reducible refine changesOnly_lit ?_ ?_ ?_ ?_ ?_ ?_ ?_ ?_ ?_ ?_ ?_ ?_ ?_ ?_ ?_ ?_ ?_ ?_ ?_ ?_ ?_ ?_ ?_ ?_ ?_ ?_ ?_ ?_ ?_ ?_
    | with_reducible exact .inl rfl
    | exact Or.inr (hL (by decide))
    | dsimp only)

theorem execThermalTrip_frame {s₁ : State}  :
    ∃ s₂, execThermalTrip s₁ = .next s₂ ∧ changesOnly [.out, .start, .log, .host, .ctx, .sec, .loader, .installed, .tiles, .dies, .links, .signals, .mem, .power, .thermal, .ports, .coll] s₁ s₂ := by
  have hK : changesOnly [.out, .start, .log, .host, .ctx, .sec, .loader, .installed, .tiles, .dies, .links, .signals, .mem, .power, .thermal, .ports, .coll] s₁ s₁ := changesOnly_refl
  have hL : ([.out, .start, .log, .host, .ctx, .sec, .loader, .installed, .tiles, .dies, .links, .signals, .mem, .power, .thermal, .ports, .coll] : List Block) ⊆ [.out, .start, .log, .host, .ctx, .sec, .loader, .installed, .tiles, .dies, .links, .signals, .mem, .power, .thermal, .ports, .coll] := List.Subset.refl _
  refine ⟨_, rfl, ?_⟩
  repeat' (first
    | with_reducible exact hK
    | with_reducible assumption
    | with_reducible exact List.Subset.trans (by decide) hL
    | with_reducible refine when'_frame _ ?_ (fun _ _ => ?_)
    | with_reducible apply powerOff_frame
    | split
    | fail_if_no_progress with_reducible refine changesOnly_lit ?_ ?_ ?_ ?_ ?_ ?_ ?_ ?_ ?_ ?_ ?_ ?_ ?_ ?_ ?_ ?_ ?_ ?_ ?_ ?_ ?_ ?_ ?_ ?_ ?_ ?_ ?_ ?_ ?_ ?_
    | with_reducible exact .inl rfl
    | exact Or.inr (hL (by decide))
    | dsimp only)

theorem execHaltExit_frame {s₁ : State}  :
    ∃ s₂, execHaltExit s₁ = .next s₂ ∧ changesOnly [.out, .log, .host, .loader, .installed, .dies, .power, .thermal] s₁ s₂ := by
  have hK : changesOnly [.out, .log, .host, .loader, .installed, .dies, .power, .thermal] s₁ s₁ := changesOnly_refl
  have hL : ([.out, .log, .host, .loader, .installed, .dies, .power, .thermal] : List Block) ⊆ [.out, .log, .host, .loader, .installed, .dies, .power, .thermal] := List.Subset.refl _
  refine ⟨_, rfl, ?_⟩
  repeat' (first
    | with_reducible exact hK
    | with_reducible assumption
    | with_reducible exact List.Subset.trans (by decide) hL
    | with_reducible refine when'_frame _ ?_ (fun _ _ => ?_)
    | with_reducible apply reportThermal_frame
    | with_reducible apply reinstall_frame
    | with_reducible apply dropCooling_frame
    | split
    | fail_if_no_progress with_reducible refine changesOnly_lit ?_ ?_ ?_ ?_ ?_ ?_ ?_ ?_ ?_ ?_ ?_ ?_ ?_ ?_ ?_ ?_ ?_ ?_ ?_ ?_ ?_ ?_ ?_ ?_ ?_ ?_ ?_ ?_ ?_ ?_
    | with_reducible exact .inl rfl
    | exact Or.inr (hL (by decide))
    | dsimp only)

theorem execHeatBalanceCheck_frame {s₁ : State} (measuredW : Nat) :
    ∃ s₂, execHeatBalanceCheck measuredW s₁ = .next s₂ ∧ changesOnly [.out, .log, .host, .thermal] s₁ s₂ := by
  have hK : changesOnly [.out, .log, .host, .thermal] s₁ s₁ := changesOnly_refl
  have hL : ([.out, .log, .host, .thermal] : List Block) ⊆ [.out, .log, .host, .thermal] := List.Subset.refl _
  refine ⟨_, rfl, ?_⟩
  repeat' (first
    | with_reducible exact hK
    | with_reducible assumption
    | with_reducible exact List.Subset.trans (by decide) hL
    | with_reducible refine when'_frame _ ?_ (fun _ _ => ?_)
    | with_reducible apply reportThermal_frame)

theorem checkPair_frame {L : List Block} {s₀ s₁ : State} (sp : Fin 144) (hK : changesOnly L s₀ s₁)
    (hL : [.out, .log, .host, .selfTest, .thermal] ⊆ L) : changesOnly L s₀ (checkPair sp s₁) := by
  unfold checkPair
  repeat' (first
    | with_reducible exact hK
    | with_reducible assumption
    | with_reducible exact List.Subset.trans (by decide) hL
    | with_reducible apply reportThermal_frame
    | with_reducible apply detect_frame
    | with_reducible refine changesOnly_ite ?_ ?_
    | split
    | fail_if_no_progress with_reducible refine changesOnly_out ?_ (List.Subset.trans (by decide) hL)
    | fail_if_no_progress with_reducible refine changesOnly_log ?_ (List.Subset.trans (by decide) hL)
    | fail_if_no_progress with_reducible refine changesOnly_host ?_ (List.Subset.trans (by decide) hL)
    | fail_if_no_progress with_reducible refine changesOnly_selfTest ?_ (List.Subset.trans (by decide) hL)
    | fail_if_no_progress with_reducible refine changesOnly_thermal ?_ (List.Subset.trans (by decide) hL)
    | fail_if_no_progress with_reducible refine changesOnly_lit ?_ ?_ ?_ ?_ ?_ ?_ ?_ ?_ ?_ ?_ ?_ ?_ ?_ ?_ ?_ ?_ ?_ ?_ ?_ ?_ ?_ ?_ ?_ ?_ ?_ ?_ ?_ ?_ ?_ ?_
    | with_reducible exact .inl rfl
    | exact .inr (hL (by decide)))

theorem takeSpot_frame {L : List Block} {s₀ s₁ : State} (r : Fin 144 × Int × Int) (hK : changesOnly L s₀ s₁)
    (hL : [.thermal] ⊆ L) : changesOnly L s₀ (takeSpot s₁ r) := by
  unfold takeSpot
  repeat' (first
    | with_reducible exact hK
    | with_reducible assumption
    | with_reducible exact List.Subset.trans (by decide) hL
    | with_reducible refine changesOnly_ite ?_ ?_
    | split
    | fail_if_no_progress with_reducible refine changesOnly_thermal ?_ (List.Subset.trans (by decide) hL)
    | fail_if_no_progress with_reducible refine changesOnly_lit ?_ ?_ ?_ ?_ ?_ ?_ ?_ ?_ ?_ ?_ ?_ ?_ ?_ ?_ ?_ ?_ ?_ ?_ ?_ ?_ ?_ ?_ ?_ ?_ ?_ ?_ ?_ ?_ ?_ ?_
    | with_reducible exact .inl rfl
    | exact .inr (hL (by decide)))

theorem takeTile_frame {L : List Block} {s₀ s₁ : State} (r : TileId × Int) (hK : changesOnly L s₀ s₁)
    (hL : [.thermal] ⊆ L) : changesOnly L s₀ (takeTile s₁ r) := by
  unfold takeTile
  repeat' (first
    | with_reducible exact hK
    | with_reducible assumption
    | with_reducible exact List.Subset.trans (by decide) hL
    | with_reducible refine changesOnly_ite ?_ ?_
    | split
    | fail_if_no_progress with_reducible refine changesOnly_thermal ?_ (List.Subset.trans (by decide) hL)
    | fail_if_no_progress with_reducible refine changesOnly_lit ?_ ?_ ?_ ?_ ?_ ?_ ?_ ?_ ?_ ?_ ?_ ?_ ?_ ?_ ?_ ?_ ?_ ?_ ?_ ?_ ?_ ?_ ?_ ?_ ?_ ?_ ?_ ?_ ?_ ?_
    | with_reducible exact .inl rfl
    | exact .inr (hL (by decide)))

theorem checkTile_frame {L : List Block} {s₀ s₁ : State} (p : Nat × TileSensor) (hK : changesOnly L s₀ s₁)
    (hL : [.out, .log, .host, .selfTest, .thermal] ⊆ L) : changesOnly L s₀ (checkTile s₁ p) := by
  unfold checkTile
  extract_lets out n src src' s₂
  have h2 : changesOnly L s₀ s₂ := changesOnly_trans hK ⟨rfl, fun b hb => by
    cases b <;> first | exact absurd (hL (by decide)) hb | rfl⟩
  clear_value s₂
  split
  · exact hK
  · split
    · exact detect_frame _ _ h2 (List.Subset.trans (by decide) hL)
    · exact h2

theorem startThrottle_frame {L : List Block} {s₀ s₁ : State}  (hK : changesOnly L s₀ s₁)
    (hL : [.out, .log, .host, .power, .thermal] ⊆ L) : changesOnly L s₀ (startThrottle s₁) := by
  unfold startThrottle
  repeat' (first
    | with_reducible exact hK
    | with_reducible assumption
    | with_reducible exact List.Subset.trans (by decide) hL
    | with_reducible apply reportThermal_frame
    | with_reducible refine changesOnly_ite ?_ ?_
    | split
    | fail_if_no_progress with_reducible refine changesOnly_out ?_ (List.Subset.trans (by decide) hL)
    | fail_if_no_progress with_reducible refine changesOnly_log ?_ (List.Subset.trans (by decide) hL)
    | fail_if_no_progress with_reducible refine changesOnly_host ?_ (List.Subset.trans (by decide) hL)
    | fail_if_no_progress with_reducible refine changesOnly_power ?_ (List.Subset.trans (by decide) hL)
    | fail_if_no_progress with_reducible refine changesOnly_thermal ?_ (List.Subset.trans (by decide) hL)
    | fail_if_no_progress with_reducible refine changesOnly_lit ?_ ?_ ?_ ?_ ?_ ?_ ?_ ?_ ?_ ?_ ?_ ?_ ?_ ?_ ?_ ?_ ?_ ?_ ?_ ?_ ?_ ?_ ?_ ?_ ?_ ?_ ?_ ?_ ?_ ?_
    | with_reducible exact .inl rfl
    | exact .inr (hL (by decide)))

theorem endThrottleClamp_frame {L : List Block} {s₀ s₁ : State}  (hK : changesOnly L s₀ s₁)
    (hL : [.power, .thermal] ⊆ L) : changesOnly L s₀ (endThrottleClamp s₁) := by
  unfold endThrottleClamp
  repeat' (first
    | with_reducible exact hK
    | with_reducible assumption
    | with_reducible exact List.Subset.trans (by decide) hL
    | with_reducible apply dropCooling_frame
    | with_reducible refine changesOnly_ite ?_ ?_
    | split
    | fail_if_no_progress with_reducible refine changesOnly_power ?_ (List.Subset.trans (by decide) hL)
    | fail_if_no_progress with_reducible refine changesOnly_thermal ?_ (List.Subset.trans (by decide) hL)
    | fail_if_no_progress with_reducible refine changesOnly_lit ?_ ?_ ?_ ?_ ?_ ?_ ?_ ?_ ?_ ?_ ?_ ?_ ?_ ?_ ?_ ?_ ?_ ?_ ?_ ?_ ?_ ?_ ?_ ?_ ?_ ?_ ?_ ?_ ?_ ?_
    | with_reducible exact .inl rfl
    | exact .inr (hL (by decide)))

theorem execSensorSample_frame {s₁ : State} (r : SensorSet) :
    ∃ s₂, execSensorSample r s₁ = .next s₂ ∧ changesOnly [.out, .log, .host, .selfTest, .power, .thermal] s₁ s₂ := by
  have hK : changesOnly [.out, .log, .host, .selfTest, .power, .thermal] s₁ s₁ := changesOnly_refl
  have hL : ([.out, .log, .host, .selfTest, .power, .thermal] : List Block) ⊆ [.out, .log, .host, .selfTest, .power, .thermal] := List.Subset.refl _
  refine ⟨_, rfl, ?_⟩
  repeat' (first
    | with_reducible exact hK
    | with_reducible assumption
    | with_reducible exact List.Subset.trans (by decide) hL
    | with_reducible refine foldl_frame ?_ (fun _ _ _ => ?_)
    | with_reducible refine foldl_fst_frame ?_ (fun _ _ _ => ?_)
    | with_reducible apply checkPair_frame
    | with_reducible apply takeSpot_frame
    | with_reducible apply takeTile_frame
    | with_reducible apply checkTile_frame
    | with_reducible apply startThrottle_frame
    | with_reducible apply endThrottleClamp_frame
    | with_reducible refine changesOnly_ite ?_ ?_
    | split
    | fail_if_no_progress with_reducible refine changesOnly_out ?_ (List.Subset.trans (by decide) hL)
    | fail_if_no_progress with_reducible refine changesOnly_log ?_ (List.Subset.trans (by decide) hL)
    | fail_if_no_progress with_reducible refine changesOnly_host ?_ (List.Subset.trans (by decide) hL)
    | fail_if_no_progress with_reducible refine changesOnly_selfTest ?_ (List.Subset.trans (by decide) hL)
    | fail_if_no_progress with_reducible refine changesOnly_power ?_ (List.Subset.trans (by decide) hL)
    | fail_if_no_progress with_reducible refine changesOnly_thermal ?_ (List.Subset.trans (by decide) hL)
    | fail_if_no_progress with_reducible refine changesOnly_lit ?_ ?_ ?_ ?_ ?_ ?_ ?_ ?_ ?_ ?_ ?_ ?_ ?_ ?_ ?_ ?_ ?_ ?_ ?_ ?_ ?_ ?_ ?_ ?_ ?_ ?_ ?_ ?_ ?_ ?_
    | with_reducible exact .inl rfl
    | exact .inr (hL (by decide)))

theorem execThrottleStep_frame {s₁ : State}  :
    ∃ s₂, execThrottleStep s₁ = .next s₂ ∧ changesOnly [.out, .log, .host, .power, .thermal] s₁ s₂ := by
  have hK : changesOnly [.out, .log, .host, .power, .thermal] s₁ s₁ := changesOnly_refl
  have hL : ([.out, .log, .host, .power, .thermal] : List Block) ⊆ [.out, .log, .host, .power, .thermal] := List.Subset.refl _
  refine ⟨_, rfl, ?_⟩
  repeat' (first
    | with_reducible exact hK
    | with_reducible assumption
    | with_reducible exact List.Subset.trans (by decide) hL
    | with_reducible refine when'_frame _ ?_ (fun _ _ => ?_)
    | with_reducible apply reportThermal_frame
    | with_reducible refine changesOnly_ite ?_ ?_
    | split
    | fail_if_no_progress with_reducible refine changesOnly_out ?_ (List.Subset.trans (by decide) hL)
    | fail_if_no_progress with_reducible refine changesOnly_log ?_ (List.Subset.trans (by decide) hL)
    | fail_if_no_progress with_reducible refine changesOnly_host ?_ (List.Subset.trans (by decide) hL)
    | fail_if_no_progress with_reducible refine changesOnly_power ?_ (List.Subset.trans (by decide) hL)
    | fail_if_no_progress with_reducible refine changesOnly_thermal ?_ (List.Subset.trans (by decide) hL)
    | fail_if_no_progress with_reducible refine changesOnly_lit ?_ ?_ ?_ ?_ ?_ ?_ ?_ ?_ ?_ ?_ ?_ ?_ ?_ ?_ ?_ ?_ ?_ ?_ ?_ ?_ ?_ ?_ ?_ ?_ ?_ ?_ ?_ ?_ ?_ ?_
    | with_reducible exact .inl rfl
    | exact .inr (hL (by decide)))

theorem execThrottleClampTimeout_frame {s₁ : State}  :
    ∃ s₂, execThrottleClampTimeout s₁ = .next s₂ ∧ changesOnly [.out, .log, .host, .power, .thermal] s₁ s₂ := by
  have hK : changesOnly [.out, .log, .host, .power, .thermal] s₁ s₁ := changesOnly_refl
  have hL : ([.out, .log, .host, .power, .thermal] : List Block) ⊆ [.out, .log, .host, .power, .thermal] := List.Subset.refl _
  refine ⟨_, rfl, ?_⟩
  repeat' (first
    | with_reducible exact hK
    | with_reducible assumption
    | with_reducible exact List.Subset.trans (by decide) hL
    | with_reducible refine when'_frame _ ?_ (fun _ _ => ?_)
    | with_reducible apply assertClamp_frame
    | with_reducible refine changesOnly_ite ?_ ?_
    | split
    | fail_if_no_progress with_reducible refine changesOnly_out ?_ (List.Subset.trans (by decide) hL)
    | fail_if_no_progress with_reducible refine changesOnly_log ?_ (List.Subset.trans (by decide) hL)
    | fail_if_no_progress with_reducible refine changesOnly_host ?_ (List.Subset.trans (by decide) hL)
    | fail_if_no_progress with_reducible refine changesOnly_power ?_ (List.Subset.trans (by decide) hL)
    | fail_if_no_progress with_reducible refine changesOnly_thermal ?_ (List.Subset.trans (by decide) hL)
    | fail_if_no_progress with_reducible refine changesOnly_lit ?_ ?_ ?_ ?_ ?_ ?_ ?_ ?_ ?_ ?_ ?_ ?_ ?_ ?_ ?_ ?_ ?_ ?_ ?_ ?_ ?_ ?_ ?_ ?_ ?_ ?_ ?_ ?_ ?_ ?_
    | with_reducible exact .inl rfl
    | exact .inr (hL (by decide)))

theorem execSensorPairRetest_frame {s₁ : State} (d : DieId) (k : Fin 4) :
    ∃ s₂, execSensorPairRetest d k s₁ = .next s₂ ∧ changesOnly [.out, .log, .host, .selfTest, .thermal] s₁ s₂ := by
  have hK : changesOnly [.out, .log, .host, .selfTest, .thermal] s₁ s₁ := changesOnly_refl
  have hL : ([.out, .log, .host, .selfTest, .thermal] : List Block) ⊆ [.out, .log, .host, .selfTest, .thermal] := List.Subset.refl _
  refine ⟨_, rfl, ?_⟩
  repeat' (first
    | with_reducible exact hK
    | with_reducible assumption
    | with_reducible exact List.Subset.trans (by decide) hL
    | with_reducible refine when'_frame _ ?_ (fun _ _ => ?_)
    | with_reducible apply detect_frame
    | with_reducible refine changesOnly_ite ?_ ?_
    | split
    | fail_if_no_progress with_reducible refine changesOnly_out ?_ (List.Subset.trans (by decide) hL)
    | fail_if_no_progress with_reducible refine changesOnly_log ?_ (List.Subset.trans (by decide) hL)
    | fail_if_no_progress with_reducible refine changesOnly_host ?_ (List.Subset.trans (by decide) hL)
    | fail_if_no_progress with_reducible refine changesOnly_selfTest ?_ (List.Subset.trans (by decide) hL)
    | fail_if_no_progress with_reducible refine changesOnly_thermal ?_ (List.Subset.trans (by decide) hL)
    | fail_if_no_progress with_reducible refine changesOnly_lit ?_ ?_ ?_ ?_ ?_ ?_ ?_ ?_ ?_ ?_ ?_ ?_ ?_ ?_ ?_ ?_ ?_ ?_ ?_ ?_ ?_ ?_ ?_ ?_ ?_ ?_ ?_ ?_ ?_ ?_
    | with_reducible exact .inl rfl
    | exact .inr (hL (by decide)))

theorem execThermalModelAdvance_frame {s₁ : State} (dieW : List Nat) :
    ∃ s₂, execThermalModelAdvance dieW s₁ = .next s₂ ∧ changesOnly [.dies] s₁ s₂ := by
  have hK : changesOnly [.dies] s₁ s₁ := changesOnly_refl
  have hL : ([.dies] : List Block) ⊆ [.dies] := List.Subset.refl _
  refine ⟨_, rfl, ?_⟩
  repeat' (first
    | with_reducible exact hK
    | with_reducible assumption
    | with_reducible exact List.Subset.trans (by decide) hL
    | with_reducible apply mapDies_frame)

theorem correctModels_frame {L : List Block} {s₀ s₁ : State}  (hK : changesOnly L s₀ s₁)
    (hL : [.dies] ⊆ L) : changesOnly L s₀ (correctModels s₁) := by
  unfold correctModels
  repeat' (first
    | with_reducible exact hK
    | with_reducible assumption
    | with_reducible exact List.Subset.trans (by decide) hL
    | with_reducible apply mapDies_frame)

theorem writeTray_frame {L : List Block} {s₀ s₁ : State}  (hK : changesOnly L s₀ s₁)
    (hL : [.out, .thermal] ⊆ L) : changesOnly L s₀ (writeTray s₁) := by
  unfold writeTray
  repeat' (first
    | with_reducible exact hK
    | with_reducible assumption
    | with_reducible exact List.Subset.trans (by decide) hL
    | with_reducible refine foldl_frame ?_ (fun _ _ _ => ?_)
    | with_reducible refine foldl_fst_frame ?_ (fun _ _ _ => ?_)
    | with_reducible apply emit_frame
    | with_reducible refine changesOnly_ite ?_ ?_
    | split
    | fail_if_no_progress with_reducible refine changesOnly_out ?_ (List.Subset.trans (by decide) hL)
    | fail_if_no_progress with_reducible refine changesOnly_thermal ?_ (List.Subset.trans (by decide) hL)
    | fail_if_no_progress with_reducible refine changesOnly_lit ?_ ?_ ?_ ?_ ?_ ?_ ?_ ?_ ?_ ?_ ?_ ?_ ?_ ?_ ?_ ?_ ?_ ?_ ?_ ?_ ?_ ?_ ?_ ?_ ?_ ?_ ?_ ?_ ?_ ?_
    | with_reducible exact .inl rfl
    | exact .inr (hL (by decide)))

theorem forecastNow_frame {L : List Block} {s₀ s₁ : State}  (hK : changesOnly L s₀ s₁)
    (hL : [.out, .log, .host, .dies, .power, .thermal] ⊆ L) : changesOnly L s₀ (forecastNow s₁) := by
  unfold forecastNow
  repeat' (first
    | with_reducible exact hK
    | with_reducible assumption
    | with_reducible exact List.Subset.trans (by decide) hL
    | with_reducible apply reportThermal_frame
    | with_reducible apply correctModels_frame
    | split
    | fail_if_no_progress with_reducible refine changesOnly_lit ?_ ?_ ?_ ?_ ?_ ?_ ?_ ?_ ?_ ?_ ?_ ?_ ?_ ?_ ?_ ?_ ?_ ?_ ?_ ?_ ?_ ?_ ?_ ?_ ?_ ?_ ?_ ?_ ?_ ?_
    | with_reducible exact .inl rfl
    | exact Or.inr (hL (by decide))
    | dsimp only)

theorem execHeatForecast_frame {s₁ : State}  :
    ∃ s₂, execHeatForecast s₁ = .next s₂ ∧ changesOnly [.out, .log, .host, .dies, .power, .thermal] s₁ s₂ := by
  have hK : changesOnly [.out, .log, .host, .dies, .power, .thermal] s₁ s₁ := changesOnly_refl
  have hL : ([.out, .log, .host, .dies, .power, .thermal] : List Block) ⊆ [.out, .log, .host, .dies, .power, .thermal] := List.Subset.refl _
  refine ⟨_, rfl, ?_⟩
  repeat' (first
    | with_reducible exact hK
    | with_reducible assumption
    | with_reducible exact List.Subset.trans (by decide) hL
    | with_reducible refine when'_frame _ ?_ (fun _ _ => ?_)
    | with_reducible apply writeTray_frame
    | with_reducible apply forecastNow_frame
    | split
    | fail_if_no_progress with_reducible refine changesOnly_lit ?_ ?_ ?_ ?_ ?_ ?_ ?_ ?_ ?_ ?_ ?_ ?_ ?_ ?_ ?_ ?_ ?_ ?_ ?_ ?_ ?_ ?_ ?_ ?_ ?_ ?_ ?_ ?_ ?_ ?_
    | with_reducible exact .inl rfl
    | exact Or.inr (hL (by decide))
    | dsimp only)

end Sys2Proof.Machine
end

