-- ==== Sys2Proof/Laws/FrameNvStore.lean ====
section
/-! SUPPORT. The frames of the operations and commands of NvStore (Laws/Frame.lean). -/

namespace Sys2Proof.Machine

set_option linter.all false
set_option Elab.async false

open Sys2Proof

theorem modBank_frame {L : List Block} {s₀ s₁ : State} (b : Fin 2) (f : NvBank → NvBank) (hK : changesOnly L s₀ s₁)
    (hL : [.nv] ⊆ L) : changesOnly L s₀ (modBank b f s₁) := by
  unfold modBank
  repeat' (first
    | with_reducible exact hK
    | with_reducible assumption
    | with_reducible exact List.Subset.trans (by decide) hL
    | with_reducible refine changesOnly_ite ?_ ?_
    | split
    | fail_if_no_progress with_reducible refine changesOnly_nv ?_ (List.Subset.trans (by decide) hL)
    | fail_if_no_progress with_reducible refine changesOnly_lit ?_ ?_ ?_ ?_ ?_ ?_ ?_ ?_ ?_ ?_ ?_ ?_ ?_ ?_ ?_ ?_ ?_ ?_ ?_ ?_ ?_ ?_ ?_ ?_ ?_ ?_ ?_ ?_ ?_ ?_
    | with_reducible exact .inl rfl
    | exact .inr (hL (by decide)))

theorem answerStores_frame {L : List Block} {s₀ s₁ : State} (n : Nat) (code : Code) (hK : changesOnly L s₀ s₁)
    (hL : [.out] ⊆ L) : changesOnly L s₀ (answerStores n code s₁) := by
  unfold answerStores
  repeat' (first
    | with_reducible exact hK
    | with_reducible assumption
    | with_reducible exact List.Subset.trans (by decide) hL
    | with_reducible refine foldl_frame ?_ (fun _ _ _ => ?_)
    | with_reducible refine foldl_fst_frame ?_ (fun _ _ _ => ?_)
    | with_reducible apply emit_frame)

theorem requestStore_frame {L : List Block} {s₀ s₁ : State} (mgmt : Bool) (hK : changesOnly L s₀ s₁)
    (hL : [.out, .log, .host, .nv] ⊆ L) : changesOnly L s₀ (requestStore mgmt s₁) := by
  unfold requestStore
  repeat' (first
    | with_reducible exact hK
    | with_reducible assumption
    | with_reducible exact List.Subset.trans (by decide) hL
    | with_reducible apply emit_frame
    | with_reducible apply reportNv_frame
    | with_reducible refine changesOnly_ite ?_ ?_
    | split
    | fail_if_no_progress with_reducible refine changesOnly_out ?_ (List.Subset.trans (by decide) hL)
    | fail_if_no_progress with_reducible refine changesOnly_log ?_ (List.Subset.trans (by decide) hL)
    | fail_if_no_progress with_reducible refine changesOnly_host ?_ (List.Subset.trans (by decide) hL)
    | fail_if_no_progress with_reducible refine changesOnly_nv ?_ (List.Subset.trans (by decide) hL)
    | fail_if_no_progress with_reducible refine changesOnly_lit ?_ ?_ ?_ ?_ ?_ ?_ ?_ ?_ ?_ ?_ ?_ ?_ ?_ ?_ ?_ ?_ ?_ ?_ ?_ ?_ ?_ ?_ ?_ ?_ ?_ ?_ ?_ ?_ ?_ ?_
    | with_reducible exact .inl rfl
    | exact .inr (hL (by decide)))

theorem execStoreRequest_frame {s₁ : State}  :
    ∃ s₂, execStoreRequest s₁ = .next s₂ ∧ changesOnly [.out, .log, .host, .nv] s₁ s₂ := by
  have hK : changesOnly [.out, .log, .host, .nv] s₁ s₁ := changesOnly_refl
  have hL : ([.out, .log, .host, .nv] : List Block) ⊆ [.out, .log, .host, .nv] := List.Subset.refl _
  refine ⟨_, rfl, ?_⟩
  repeat' (first
    | with_reducible exact hK
    | with_reducible assumption
    | with_reducible exact List.Subset.trans (by decide) hL
    | with_reducible apply requestStore_frame)

theorem startWrite_frame {L : List Block} {s₀ s₁ : State}  (hK : changesOnly L s₀ s₁)
    (hL : [.nv] ⊆ L) : changesOnly L s₀ (startWrite s₁) := by
  unfold startWrite
  repeat' (first
    | with_reducible exact hK
    | with_reducible assumption
    | with_reducible exact List.Subset.trans (by decide) hL
    | with_reducible refine changesOnly_ite ?_ ?_
    | split
    | fail_if_no_progress with_reducible refine changesOnly_nv ?_ (List.Subset.trans (by decide) hL)
    | fail_if_no_progress with_reducible refine changesOnly_lit ?_ ?_ ?_ ?_ ?_ ?_ ?_ ?_ ?_ ?_ ?_ ?_ ?_ ?_ ?_ ?_ ?_ ?_ ?_ ?_ ?_ ?_ ?_ ?_ ?_ ?_ ?_ ?_ ?_ ?_
    | with_reducible exact .inl rfl
    | exact .inr (hL (by decide)))

theorem execNvWriteStart_frame {s₁ : State}  :
    ∃ s₂, execNvWriteStart s₁ = .next s₂ ∧ changesOnly [.nv] s₁ s₂ := by
  have hK : changesOnly [.nv] s₁ s₁ := changesOnly_refl
  have hL : ([.nv] : List Block) ⊆ [.nv] := List.Subset.refl _
  refine ⟨_, rfl, ?_⟩
  repeat' (first
    | with_reducible exact hK
    | with_reducible assumption
    | with_reducible exact List.Subset.trans (by decide) hL
    | with_reducible refine when'_frame _ ?_ (fun _ _ => ?_)
    | with_reducible apply startWrite_frame)

theorem wearUp_frame {L : List Block} {s₀ s₁ : State} (b : Fin 2) (writes : Nat) (hK : changesOnly L s₀ s₁)
    (hL : [.free, .nv] ⊆ L) : changesOnly L s₀ (wearUp b writes s₁) := by
  unfold wearUp
  repeat' (first
    | with_reducible exact hK
    | with_reducible assumption
    | with_reducible exact List.Subset.trans (by decide) hL
    | with_reducible apply drawNext_frame
    | with_reducible apply modBank_frame)

theorem endWrite_frame {L : List Block} {s₀ s₁ : State} (j : NvJob) (mismatches : Nat) (hK : changesOnly L s₀ s₁)
    (hL : [.free, .out, .log, .host, .defects, .nv] ⊆ L) : changesOnly L s₀ (endWrite j mismatches s₁) := by
  unfold endWrite
  repeat' (first
    | with_reducible exact hK
    | with_reducible assumption
    | with_reducible exact List.Subset.trans (by decide) hL
    | with_reducible apply drawNext_frame
    | with_reducible apply reportNv_frame
    | with_reducible apply modBank_frame
    | with_reducible apply answerStores_frame
    | with_reducible apply wearUp_frame
    | split
    | fail_if_no_progress with_reducible refine changesOnly_lit ?_ ?_ ?_ ?_ ?_ ?_ ?_ ?_ ?_ ?_ ?_ ?_ ?_ ?_ ?_ ?_ ?_ ?_ ?_ ?_ ?_ ?_ ?_ ?_ ?_ ?_ ?_ ?_ ?_ ?_
    | with_reducible exact .inl rfl
    | exact Or.inr (hL (by decide))
    | dsimp only)

theorem execNvStoreComplete_frame {s₁ : State} (mismatches : Nat) :
    ∃ s₂, execNvStoreComplete mismatches s₁ = .next s₂ ∧ changesOnly [.free, .out, .log, .host, .defects, .nv] s₁ s₂ := by
  have hK : changesOnly [.free, .out, .log, .host, .defects, .nv] s₁ s₁ := changesOnly_refl
  have hL : ([.free, .out, .log, .host, .defects, .nv] : List Block) ⊆ [.free, .out, .log, .host, .defects, .nv] := List.Subset.refl _
  refine ⟨_, rfl, ?_⟩
  repeat' (first
    | with_reducible exact hK
    | with_reducible assumption
    | with_reducible exact List.Subset.trans (by decide) hL
    | with_reducible apply endWrite_frame
    | split
    | fail_if_no_progress with_reducible refine changesOnly_lit ?_ ?_ ?_ ?_ ?_ ?_ ?_ ?_ ?_ ?_ ?_ ?_ ?_ ?_ ?_ ?_ ?_ ?_ ?_ ?_ ?_ ?_ ?_ ?_ ?_ ?_ ?_ ?_ ?_ ?_
    | with_reducible exact .inl rfl
    | exact Or.inr (hL (by decide))
    | dsimp only)

theorem execWearTokenGain_frame {s₁ : State}  :
    ∃ s₂, execWearTokenGain s₁ = .next s₂ ∧ changesOnly [.nv] s₁ s₂ := by
  have hK : changesOnly [.nv] s₁ s₁ := changesOnly_refl
  have hL : ([.nv] : List Block) ⊆ [.nv] := List.Subset.refl _
  refine ⟨_, rfl, ?_⟩
  repeat' (first
    | with_reducible exact hK
    | with_reducible assumption
    | with_reducible exact List.Subset.trans (by decide) hL
    | with_reducible refine changesOnly_ite ?_ ?_
    | split
    | fail_if_no_progress with_reducible refine changesOnly_nv ?_ (List.Subset.trans (by decide) hL)
    | fail_if_no_progress with_reducible refine changesOnly_lit ?_ ?_ ?_ ?_ ?_ ?_ ?_ ?_ ?_ ?_ ?_ ?_ ?_ ?_ ?_ ?_ ?_ ?_ ?_ ?_ ?_ ?_ ?_ ?_ ?_ ?_ ?_ ?_ ?_ ?_
    | with_reducible exact .inl rfl
    | exact .inr (hL (by decide)))

theorem execNvUpkeep_frame {s₁ : State} (good : Bool) :
    ∃ s₂, execNvUpkeep good s₁ = .next s₂ ∧ changesOnly [.free, .out, .log, .host, .selfTest, .nv] s₁ s₂ := by
  have hK : changesOnly [.free, .out, .log, .host, .selfTest, .nv] s₁ s₁ := changesOnly_refl
  have hL : ([.free, .out, .log, .host, .selfTest, .nv] : List Block) ⊆ [.free, .out, .log, .host, .selfTest, .nv] := List.Subset.refl _
  refine ⟨_, rfl, ?_⟩
  repeat' (first
    | with_reducible exact hK
    | with_reducible assumption
    | with_reducible exact List.Subset.trans (by decide) hL
    | with_reducible refine when'_frame _ ?_ (fun _ _ => ?_)
    | with_reducible apply doneWork_frame
    | with_reducible apply reportNv_frame
    | with_reducible apply modBank_frame
    | with_reducible apply wearUp_frame
    | split
    | fail_if_no_progress with_reducible refine changesOnly_lit ?_ ?_ ?_ ?_ ?_ ?_ ?_ ?_ ?_ ?_ ?_ ?_ ?_ ?_ ?_ ?_ ?_ ?_ ?_ ?_ ?_ ?_ ?_ ?_ ?_ ?_ ?_ ?_ ?_ ?_
    | with_reducible exact .inl rfl
    | exact Or.inr (hL (by decide))
    | dsimp only)

theorem loadSettings_frame {L : List Block} {s₀ s₁ : State} (hK : changesOnly L s₀ s₁)
    (hL : [.sec, .dies, .defects, .power, .nv, .ports, .fabricGroup] ⊆ L) : changesOnly L s₀ (loadSettings s₁) := by
  unfold loadSettings
  extract_lets
  exact changesOnly_trans hK ⟨rfl, fun b hb => by
    cases b <;> first | exact absurd (hL (by decide)) hb | rfl⟩

theorem discardBank_frame {L : List Block} {s₀ s₁ : State} (b : Fin 2) (hK : changesOnly L s₀ s₁)
    (hL : [.out, .log, .host, .nv] ⊆ L) : changesOnly L s₀ (discardBank b s₁) := by
  unfold discardBank
  repeat' (first
    | with_reducible exact hK
    | with_reducible assumption
    | with_reducible exact List.Subset.trans (by decide) hL
    | with_reducible apply reportNv_frame
    | with_reducible apply modBank_frame
    | with_reducible refine changesOnly_ite ?_ ?_
    | split)

theorem chooseBank_frame {L : List Block} {s₀ s₁ : State} (hK : changesOnly L s₀ s₁)
    (hL : [.out, .log, .host, .nv] ⊆ L) : changesOnly L s₀ (chooseBank s₁).2 := by
  have h2 : changesOnly L s₀ (discardBank 1 (discardBank 0 s₁)) :=
    discardBank_frame _ (discardBank_frame _ hK (List.Subset.trans (by decide) hL)) (List.Subset.trans (by decide) hL)
  unfold chooseBank
  generalize discardBank 1 (discardBank 0 s₁) = u at h2
  dsimp only
  repeat' (first
    | with_reducible exact h2
    | exact reportNv_frame _ _ h2 (List.Subset.trans (by decide) hL)
    | with_reducible refine changesOnly_ite ?_ ?_
    | split)

end Sys2Proof.Machine
end

