-- ==== Sys2Proof/Laws/FrameStartup.lean ====
section
/-! SUPPORT. The frames of the operations and commands of Startup (Laws/Frame.lean). -/

namespace Sys2Proof.Machine

set_option linter.all false
set_option Elab.async false

open Sys2Proof

theorem resetState_frame {L : List Block} {s₀ s₁ : State} (cause : BitVec 4) (house : Bool) (hK : changesOnly L s₀ s₁)
    (hL : [.out, .start, .log, .host, .ctx, .sec, .loader, .installed, .tiles, .dies, .links, .signals, .defects, .selfTest, .mem, .power, .thermal, .nv, .ports, .fabricGroup, .pattern, .field, .coll, .observed, .snapshots, .badShards] ⊆ L) : changesOnly L s₀ (resetState cause house s₁) := by
  unfold resetState
  repeat' (first
    | with_reducible exact hK
    | with_reducible assumption
    | with_reducible exact List.Subset.trans (by decide) hL
    | with_reducible apply emit_frame
    | with_reducible apply assertClamp_frame
    | with_reducible apply loadSettings_frame
    | with_reducible refine changesOnly_ite ?_ ?_
    | split
    | fail_if_no_progress with_reducible refine changesOnly_out ?_ (List.Subset.trans (by decide) hL)
    | fail_if_no_progress with_reducible refine changesOnly_start ?_ (List.Subset.trans (by decide) hL)
    | fail_if_no_progress with_reducible refine changesOnly_log ?_ (List.Subset.trans (by decide) hL)
    | fail_if_no_progress with_reducible refine changesOnly_host ?_ (List.Subset.trans (by decide) hL)
    | fail_if_no_progress with_reducible refine changesOnly_ctx ?_ (List.Subset.trans (by decide) hL)
    | fail_if_no_progress with_reducible refine changesOnly_sec ?_ (List.Subset.trans (by decide) hL)
    | fail_if_no_progress with_reducible refine changesOnly_loader ?_ (List.Subset.trans (by decide) hL)
    | fail_if_no_progress with_reducible refine changesOnly_installed ?_ (List.Subset.trans (by decide) hL)
    | fail_if_no_progress with_reducible refine changesOnly_tiles ?_ (List.Subset.trans (by decide) hL)
    | fail_if_no_progress with_reducible refine changesOnly_dies ?_ (List.Subset.trans (by decide) hL)
    | fail_if_no_progress with_reducible refine changesOnly_links ?_ (List.Subset.trans (by decide) hL)
    | fail_if_no_progress with_reducible refine changesOnly_signals ?_ (List.Subset.trans (by decide) hL)
    | fail_if_no_progress with_reducible refine changesOnly_defects ?_ (List.Subset.trans (by decide) hL)
    | fail_if_no_progress with_reducible refine changesOnly_selfTest ?_ (List.Subset.trans (by decide) hL)
    | fail_if_no_progress with_reducible refine changesOnly_mem ?_ (List.Subset.trans (by decide) hL)
    | fail_if_no_progress with_reducible refine changesOnly_power ?_ (List.Subset.trans (by decide) hL)
    | fail_if_no_progress with_reducible refine changesOnly_thermal ?_ (List.Subset.trans (by decide) hL)
    | fail_if_no_progress with_reducible refine changesOnly_nv ?_ (List.Subset.trans (by decide) hL)
    | fail_if_no_progress with_reducible refine changesOnly_ports ?_ (List.Subset.trans (by decide) hL)
    | fail_if_no_progress with_reducible refine changesOnly_fabricGroup ?_ (List.Subset.trans (by decide) hL)
    | fail_if_no_progress with_reducible refine changesOnly_pattern ?_ (List.Subset.trans (by decide) hL)
    | fail_if_no_progress with_reducible refine changesOnly_field ?_ (List.Subset.trans (by decide) hL)
    | fail_if_no_progress with_reducible refine changesOnly_coll ?_ (List.Subset.trans (by decide) hL)
    | fail_if_no_progress with_reducible refine changesOnly_observed ?_ (List.Subset.trans (by decide) hL)
    | fail_if_no_progress with_reducible refine changesOnly_snapshots ?_ (List.Subset.trans (by decide) hL)
    | fail_if_no_progress with_reducible refine changesOnly_badShards ?_ (List.Subset.trans (by decide) hL)
    | fail_if_no_progress with_reducible refine changesOnly_lit ?_ ?_ ?_ ?_ ?_ ?_ ?_ ?_ ?_ ?_ ?_ ?_ ?_ ?_ ?_ ?_ ?_ ?_ ?_ ?_ ?_ ?_ ?_ ?_ ?_ ?_ ?_ ?_ ?_ ?_
    | with_reducible exact .inl rfl
    | exact .inr (hL (by decide)))

theorem dropForReset_frame {L : List Block} {s₀ s₁ : State}  (hK : changesOnly L s₀ s₁)
    (hL : [.out, .start, .log, .host, .installed, .tiles, .dies, .links, .signals, .mem, .power, .ports] ⊆ L) : changesOnly L s₀ (dropForReset s₁) := by
  unfold dropForReset
  repeat' (first
    | with_reducible exact hK
    | with_reducible assumption
    | with_reducible exact List.Subset.trans (by decide) hL
    | with_reducible apply assertClamp_frame
    | with_reducible apply houseOnly_frame
    | split
    | fail_if_no_progress with_reducible refine changesOnly_lit ?_ ?_ ?_ ?_ ?_ ?_ ?_ ?_ ?_ ?_ ?_ ?_ ?_ ?_ ?_ ?_ ?_ ?_ ?_ ?_ ?_ ?_ ?_ ?_ ?_ ?_ ?_ ?_ ?_ ?_
    | with_reducible exact .inl rfl
    | exact Or.inr (hL (by decide))
    | dsimp only)

theorem execHouseRstNAssert_frame {s₁ : State} (ticks : Nat) :
    ∃ s₂, execHouseRstNAssert ticks s₁ = .next s₂ ∧ changesOnly [.out, .start, .log, .host, .ctx, .sec, .loader, .installed, .tiles, .dies, .links, .signals, .defects, .selfTest, .mem, .power, .thermal, .nv, .ports, .fabricGroup, .pattern, .field, .coll, .observed, .snapshots, .badShards] s₁ s₂ := by
  have hK : changesOnly [.out, .start, .log, .host, .ctx, .sec, .loader, .installed, .tiles, .dies, .links, .signals, .defects, .selfTest, .mem, .power, .thermal, .nv, .ports, .fabricGroup, .pattern, .field, .coll, .observed, .snapshots, .badShards] s₁ s₁ := changesOnly_refl
  have hL : ([.out, .start, .log, .host, .ctx, .sec, .loader, .installed, .tiles, .dies, .links, .signals, .defects, .selfTest, .mem, .power, .thermal, .nv, .ports, .fabricGroup, .pattern, .field, .coll, .observed, .snapshots, .badShards] : List Block) ⊆ [.out, .start, .log, .host, .ctx, .sec, .loader, .installed, .tiles, .dies, .links, .signals, .defects, .selfTest, .mem, .power, .thermal, .nv, .ports, .fabricGroup, .pattern, .field, .coll, .observed, .snapshots, .badShards] := List.Subset.refl _
  refine ⟨_, rfl, ?_⟩
  repeat' (first
    | with_reducible exact hK
    | with_reducible assumption
    | with_reducible exact List.Subset.trans (by decide) hL
    | with_reducible refine when'_frame _ ?_ (fun _ _ => ?_)
    | with_reducible apply resetState_frame
    | with_reducible apply dropForReset_frame)

theorem stopStart_frame {L : List Block} {s₀ s₁ : State} (code : Code) (hK : changesOnly L s₀ s₁)
    (hL : [.out, .start, .log, .host, .installed, .tiles, .dies, .links, .signals, .mem, .power, .ports] ⊆ L) : changesOnly L s₀ (stopStart code s₁) := by
  unfold stopStart
  repeat' (first
    | with_reducible exact hK
    | with_reducible assumption
    | with_reducible exact List.Subset.trans (by decide) hL
    | with_reducible apply report_frame
    | with_reducible apply assertClamp_frame
    | with_reducible apply houseOnly_frame
    | split
    | fail_if_no_progress with_reducible refine changesOnly_lit ?_ ?_ ?_ ?_ ?_ ?_ ?_ ?_ ?_ ?_ ?_ ?_ ?_ ?_ ?_ ?_ ?_ ?_ ?_ ?_ ?_ ?_ ?_ ?_ ?_ ?_ ?_ ?_ ?_ ?_
    | with_reducible exact .inl rfl
    | exact Or.inr (hL (by decide))
    | dsimp only)

theorem runRom_frame {L : List Block} {s₀ s₁ : State} (hK : changesOnly L s₀ s₁)
    (hL : [.out, .ident, .start, .log, .host, .sec, .dies, .defects, .power, .nv, .ports, .fabricGroup] ⊆ L) : changesOnly L s₀ (runRom s₁) := by
  unfold runRom
  extract_lets src src' s₂
  have h2 : changesOnly L s₀ s₂ := changesOnly_trans hK ⟨rfl, fun b hb => by
    cases b <;> first | exact absurd (hL (by decide)) hb | rfl⟩
  have h3 := chooseBank_frame h2 (List.Subset.trans (by decide) hL)
  clear_value s₂
  generalize chooseBank s₂ = c at h3
  obtain ⟨c1, c2⟩ := c
  cases c1
  · exact changesOnly_trans (reportNv_frame none { code := 0x0D0A } h3 (List.Subset.trans (by decide) hL))
      ⟨rfl, fun b hb => by cases b <;> first | exact absurd (hL (by decide)) hb | rfl⟩
  · rename_i k
    have h4 : changesOnly L s₀ { c2 with nv := { c2.nv with active := k } } := changesOnly_trans h3 ⟨rfl, fun b hb => by
      cases b <;> first | exact absurd (hL (by decide)) hb | rfl⟩
    exact loadSettings_frame h4 (List.Subset.trans (by decide) hL)

theorem execHouseRstNRise_frame {s₁ : State}  :
    ∃ s₂, execHouseRstNRise s₁ = .next s₂ ∧ changesOnly [.out, .ident, .start, .log, .host, .sec, .dies, .defects, .power, .nv, .ports, .fabricGroup] s₁ s₂ := by
  have hK : changesOnly [.out, .ident, .start, .log, .host, .sec, .dies, .defects, .power, .nv, .ports, .fabricGroup] s₁ s₁ := changesOnly_refl
  have hL : ([.out, .ident, .start, .log, .host, .sec, .dies, .defects, .power, .nv, .ports, .fabricGroup] : List Block) ⊆ [.out, .ident, .start, .log, .host, .sec, .dies, .defects, .power, .nv, .ports, .fabricGroup] := List.Subset.refl _
  refine ⟨_, rfl, ?_⟩
  repeat' (first
    | with_reducible exact hK
    | with_reducible assumption
    | with_reducible exact List.Subset.trans (by decide) hL
    | with_reducible refine when'_frame _ ?_ (fun _ _ => ?_)
    | with_reducible apply runRom_frame)

theorem deriveKeys_frame {L : List Block} {s₀ s₁ : State}  (hK : changesOnly L s₀ s₁)
    (hL : [.sec] ⊆ L) : changesOnly L s₀ (deriveKeys s₁) := by
  unfold deriveKeys
  repeat' (first
    | with_reducible exact hK
    | with_reducible assumption
    | with_reducible exact List.Subset.trans (by decide) hL
    | with_reducible refine changesOnly_ite ?_ ?_
    | split
    | fail_if_no_progress with_reducible refine changesOnly_sec ?_ (List.Subset.trans (by decide) hL)
    | fail_if_no_progress with_reducible refine changesOnly_lit ?_ ?_ ?_ ?_ ?_ ?_ ?_ ?_ ?_ ?_ ?_ ?_ ?_ ?_ ?_ ?_ ?_ ?_ ?_ ?_ ?_ ?_ ?_ ?_ ?_ ?_ ?_ ?_ ?_ ?_
    | with_reducible exact .inl rfl
    | exact .inr (hL (by decide)))

theorem execKeysUp_frame {s₁ : State}  :
    ∃ s₂, execKeysUp s₁ = .next s₂ ∧ changesOnly [.start, .sec] s₁ s₂ := by
  have hK : changesOnly [.start, .sec] s₁ s₁ := changesOnly_refl
  have hL : ([.start, .sec] : List Block) ⊆ [.start, .sec] := List.Subset.refl _
  refine ⟨_, rfl, ?_⟩
  repeat' (first
    | with_reducible exact hK
    | with_reducible assumption
    | with_reducible exact List.Subset.trans (by decide) hL
    | with_reducible refine when'_frame _ ?_ (fun _ _ => ?_)
    | with_reducible apply deriveKeys_frame
    | with_reducible refine changesOnly_ite ?_ ?_
    | split
    | fail_if_no_progress with_reducible refine changesOnly_start ?_ (List.Subset.trans (by decide) hL)
    | fail_if_no_progress with_reducible refine changesOnly_sec ?_ (List.Subset.trans (by decide) hL)
    | fail_if_no_progress with_reducible refine changesOnly_lit ?_ ?_ ?_ ?_ ?_ ?_ ?_ ?_ ?_ ?_ ?_ ?_ ?_ ?_ ?_ ?_ ?_ ?_ ?_ ?_ ?_ ?_ ?_ ?_ ?_ ?_ ?_ ?_ ?_ ?_
    | with_reducible exact .inl rfl
    | exact .inr (hL (by decide)))

theorem firstRequest_frame {L : List Block} {s₀ s₁ : State}  (hK : changesOnly L s₀ s₁)
    (hL : [.out, .thermal] ⊆ L) : changesOnly L s₀ (firstRequest s₁) := by
  unfold firstRequest
  repeat' (first
    | with_reducible exact hK
    | with_reducible assumption
    | with_reducible exact List.Subset.trans (by decide) hL
    | with_reducible apply writeTray_frame)

theorem execCoolantGateStart_frame {s₁ : State} (tray : Option TrayRegs) :
    ∃ s₂, execCoolantGateStart tray s₁ = .next s₂ ∧ changesOnly [.out, .start, .log, .host, .thermal] s₁ s₂ := by
  have hK : changesOnly [.out, .start, .log, .host, .thermal] s₁ s₁ := changesOnly_refl
  have hL : ([.out, .start, .log, .host, .thermal] : List Block) ⊆ [.out, .start, .log, .host, .thermal] := List.Subset.refl _
  refine ⟨_, rfl, ?_⟩
  repeat' (first
    | with_reducible exact hK
    | with_reducible assumption
    | with_reducible exact List.Subset.trans (by decide) hL
    | with_reducible refine when'_frame _ ?_ (fun _ _ => ?_)
    | with_reducible apply report_frame
    | with_reducible apply takeTray_frame
    | with_reducible apply firstRequest_frame
    | with_reducible refine changesOnly_ite ?_ ?_
    | split
    | fail_if_no_progress with_reducible refine changesOnly_out ?_ (List.Subset.trans (by decide) hL)
    | fail_if_no_progress with_reducible refine changesOnly_start ?_ (List.Subset.trans (by decide) hL)
    | fail_if_no_progress with_reducible refine changesOnly_log ?_ (List.Subset.trans (by decide) hL)
    | fail_if_no_progress with_reducible refine changesOnly_host ?_ (List.Subset.trans (by decide) hL)
    | fail_if_no_progress with_reducible refine changesOnly_thermal ?_ (List.Subset.trans (by decide) hL)
    | fail_if_no_progress with_reducible refine changesOnly_lit ?_ ?_ ?_ ?_ ?_ ?_ ?_ ?_ ?_ ?_ ?_ ?_ ?_ ?_ ?_ ?_ ?_ ?_ ?_ ?_ ?_ ?_ ?_ ?_ ?_ ?_ ?_ ?_ ?_ ?_
    | with_reducible exact .inl rfl
    | exact .inr (hL (by decide)))

theorem execCoolantGatePass_frame {s₁ : State}  :
    ∃ s₂, execCoolantGatePass s₁ = .next s₂ ∧ changesOnly [.start] s₁ s₂ := by
  have hK : changesOnly [.start] s₁ s₁ := changesOnly_refl
  have hL : ([.start] : List Block) ⊆ [.start] := List.Subset.refl _
  refine ⟨_, rfl, ?_⟩
  repeat' (first
    | with_reducible exact hK
    | with_reducible assumption
    | with_reducible exact List.Subset.trans (by decide) hL
    | with_reducible refine when'_frame _ ?_ (fun _ _ => ?_)
    | with_reducible refine changesOnly_ite ?_ ?_
    | split
    | fail_if_no_progress with_reducible refine changesOnly_start ?_ (List.Subset.trans (by decide) hL)
    | fail_if_no_progress with_reducible refine changesOnly_lit ?_ ?_ ?_ ?_ ?_ ?_ ?_ ?_ ?_ ?_ ?_ ?_ ?_ ?_ ?_ ?_ ?_ ?_ ?_ ?_ ?_ ?_ ?_ ?_ ?_ ?_ ?_ ?_ ?_ ?_
    | with_reducible exact .inl rfl
    | exact .inr (hL (by decide)))

theorem execCoolantGateTimeout_frame {s₁ : State}  :
    ∃ s₂, execCoolantGateTimeout s₁ = .next s₂ ∧ changesOnly [.out, .start, .log, .host] s₁ s₂ := by
  have hK : changesOnly [.out, .start, .log, .host] s₁ s₁ := changesOnly_refl
  have hL : ([.out, .start, .log, .host] : List Block) ⊆ [.out, .start, .log, .host] := List.Subset.refl _
  refine ⟨_, rfl, ?_⟩
  repeat' (first
    | with_reducible exact hK
    | with_reducible assumption
    | with_reducible exact List.Subset.trans (by decide) hL
    | with_reducible refine when'_frame _ ?_ (fun _ _ => ?_)
    | with_reducible apply report_frame
    | with_reducible refine changesOnly_ite ?_ ?_
    | split
    | fail_if_no_progress with_reducible refine changesOnly_out ?_ (List.Subset.trans (by decide) hL)
    | fail_if_no_progress with_reducible refine changesOnly_start ?_ (List.Subset.trans (by decide) hL)
    | fail_if_no_progress with_reducible refine changesOnly_log ?_ (List.Subset.trans (by decide) hL)
    | fail_if_no_progress with_reducible refine changesOnly_host ?_ (List.Subset.trans (by decide) hL)
    | fail_if_no_progress with_reducible refine changesOnly_lit ?_ ?_ ?_ ?_ ?_ ?_ ?_ ?_ ?_ ?_ ?_ ?_ ?_ ?_ ?_ ?_ ?_ ?_ ?_ ?_ ?_ ?_ ?_ ?_ ?_ ?_ ?_ ?_ ?_ ?_
    | with_reducible exact .inl rfl
    | exact .inr (hL (by decide)))

theorem execDeckZoneUp_frame {s₁ : State} (good : Bool) :
    ∃ s₂, execDeckZoneUp good s₁ = .next s₂ ∧ changesOnly [.out, .start, .log, .host, .installed, .tiles, .dies, .links, .signals, .mem, .power, .ports] s₁ s₂ := by
  have hK : changesOnly [.out, .start, .log, .host, .installed, .tiles, .dies, .links, .signals, .mem, .power, .ports] s₁ s₁ := changesOnly_refl
  have hL : ([.out, .start, .log, .host, .installed, .tiles, .dies, .links, .signals, .mem, .power, .ports] : List Block) ⊆ [.out, .start, .log, .host, .installed, .tiles, .dies, .links, .signals, .mem, .power, .ports] := List.Subset.refl _
  refine ⟨_, rfl, ?_⟩
  repeat' (first
    | with_reducible exact hK
    | with_reducible assumption
    | with_reducible exact List.Subset.trans (by decide) hL
    | with_reducible refine when'_frame _ ?_ (fun _ _ => ?_)
    | with_reducible apply stopStart_frame
    | split
    | fail_if_no_progress with_reducible refine changesOnly_lit ?_ ?_ ?_ ?_ ?_ ?_ ?_ ?_ ?_ ?_ ?_ ?_ ?_ ?_ ?_ ?_ ?_ ?_ ?_ ?_ ?_ ?_ ?_ ?_ ?_ ?_ ?_ ?_ ?_ ?_
    | with_reducible exact .inl rfl
    | exact Or.inr (hL (by decide))
    | dsimp only)

theorem recordFaults_frame {L : List Block} {s₀ s₁ : State} (code : Code) (faults : List Part) (tracks : List (LinkDir × Nat × Nat)) (hK : changesOnly L s₀ s₁)
    (hL : [.out, .log, .host, .ctx, .loader, .installed, .tiles, .dies, .links, .signals, .defects, .mem, .thermal, .nv, .coll] ⊆ L) : changesOnly L s₀ (recordFaults code faults tracks s₁) := by
  unfold recordFaults
  repeat' (first
    | with_reducible exact hK
    | with_reducible assumption
    | with_reducible exact List.Subset.trans (by decide) hL
    | with_reducible refine foldl_frame ?_ (fun _ _ _ => ?_)
    | with_reducible refine foldl_fst_frame ?_ (fun _ _ _ => ?_)
    | with_reducible apply failTrack_frame
    | with_reducible apply lastingFault_frame)

theorem execDeckCheck_frame {s₁ : State} (faults : List Part) (tracks : List (LinkDir × Nat × Nat)) :
    ∃ s₂, execDeckCheck faults tracks s₁ = .next s₂ ∧ changesOnly [.out, .start, .log, .host, .ctx, .loader, .installed, .tiles, .dies, .links, .signals, .defects, .mem, .thermal, .nv, .coll] s₁ s₂ := by
  have hK : changesOnly [.out, .start, .log, .host, .ctx, .loader, .installed, .tiles, .dies, .links, .signals, .defects, .mem, .thermal, .nv, .coll] s₁ s₁ := changesOnly_refl
  have hL : ([.out, .start, .log, .host, .ctx, .loader, .installed, .tiles, .dies, .links, .signals, .defects, .mem, .thermal, .nv, .coll] : List Block) ⊆ [.out, .start, .log, .host, .ctx, .loader, .installed, .tiles, .dies, .links, .signals, .defects, .mem, .thermal, .nv, .coll] := List.Subset.refl _
  refine ⟨_, rfl, ?_⟩
  repeat' (first
    | with_reducible exact hK
    | with_reducible assumption
    | with_reducible exact List.Subset.trans (by decide) hL
    | with_reducible refine when'_frame _ ?_ (fun _ _ => ?_)
    | with_reducible apply report_frame
    | with_reducible apply recordFaults_frame
    | with_reducible refine changesOnly_ite ?_ ?_
    | split
    | fail_if_no_progress with_reducible refine changesOnly_out ?_ (List.Subset.trans (by decide) hL)
    | fail_if_no_progress with_reducible refine changesOnly_start ?_ (List.Subset.trans (by decide) hL)
    | fail_if_no_progress with_reducible refine changesOnly_log ?_ (List.Subset.trans (by decide) hL)
    | fail_if_no_progress with_reducible refine changesOnly_host ?_ (List.Subset.trans (by decide) hL)
    | fail_if_no_progress with_reducible refine changesOnly_ctx ?_ (List.Subset.trans (by decide) hL)
    | fail_if_no_progress with_reducible refine changesOnly_loader ?_ (List.Subset.trans (by decide) hL)
    | fail_if_no_progress with_reducible refine changesOnly_installed ?_ (List.Subset.trans (by decide) hL)
    | fail_if_no_progress with_reducible refine changesOnly_tiles ?_ (List.Subset.trans (by decide) hL)
    | fail_if_no_progress with_reducible refine changesOnly_dies ?_ (List.Subset.trans (by decide) hL)
    | fail_if_no_progress with_reducible refine changesOnly_links ?_ (List.Subset.trans (by decide) hL)
    | fail_if_no_progress with_reducible refine changesOnly_signals ?_ (List.Subset.trans (by decide) hL)
    | fail_if_no_progress with_reducible refine changesOnly_defects ?_ (List.Subset.trans (by decide) hL)
    | fail_if_no_progress with_reducible refine changesOnly_mem ?_ (List.Subset.trans (by decide) hL)
    | fail_if_no_progress with_reducible refine changesOnly_thermal ?_ (List.Subset.trans (by decide) hL)
    | fail_if_no_progress with_reducible refine changesOnly_nv ?_ (List.Subset.trans (by decide) hL)
    | fail_if_no_progress with_reducible refine changesOnly_coll ?_ (List.Subset.trans (by decide) hL)
    | fail_if_no_progress with_reducible refine changesOnly_lit ?_ ?_ ?_ ?_ ?_ ?_ ?_ ?_ ?_ ?_ ?_ ?_ ?_ ?_ ?_ ?_ ?_ ?_ ?_ ?_ ?_ ?_ ?_ ?_ ?_ ?_ ?_ ?_ ?_ ?_
    | with_reducible exact .inl rfl
    | exact .inr (hL (by decide)))

theorem bringUpStacks_frame {L : List Block} {s₀ s₁ : State}  (hK : changesOnly L s₀ s₁)
    (hL : [.free, .out, .start, .log, .host, .sec, .ports] ⊆ L) : changesOnly L s₀ (bringUpStacks s₁) := by
  unfold bringUpStacks
  repeat' (first
    | with_reducible exact hK
    | with_reducible assumption
    | with_reducible exact List.Subset.trans (by decide) hL
    | with_reducible refine foldl_frame ?_ (fun _ _ _ => ?_)
    | with_reducible refine foldl_fst_frame ?_ (fun _ _ _ => ?_)
    | with_reducible apply mapPorts_frame
    | with_reducible apply drawNext_frame
    | with_reducible apply report_frame
    | with_reducible refine changesOnly_ite ?_ ?_
    | split
    | fail_if_no_progress with_reducible refine changesOnly_free ?_ (List.Subset.trans (by decide) hL)
    | fail_if_no_progress with_reducible refine changesOnly_out ?_ (List.Subset.trans (by decide) hL)
    | fail_if_no_progress with_reducible refine changesOnly_start ?_ (List.Subset.trans (by decide) hL)
    | fail_if_no_progress with_reducible refine changesOnly_log ?_ (List.Subset.trans (by decide) hL)
    | fail_if_no_progress with_reducible refine changesOnly_host ?_ (List.Subset.trans (by decide) hL)
    | fail_if_no_progress with_reducible refine changesOnly_sec ?_ (List.Subset.trans (by decide) hL)
    | fail_if_no_progress with_reducible refine changesOnly_ports ?_ (List.Subset.trans (by decide) hL)
    | fail_if_no_progress with_reducible refine changesOnly_lit ?_ ?_ ?_ ?_ ?_ ?_ ?_ ?_ ?_ ?_ ?_ ?_ ?_ ?_ ?_ ?_ ?_ ?_ ?_ ?_ ?_ ?_ ?_ ?_ ?_ ?_ ?_ ?_ ?_ ?_
    | with_reducible exact .inl rfl
    | exact .inr (hL (by decide)))

theorem execStackBringUp_frame {s₁ : State} (fail : Bool) :
    ∃ s₂, execStackBringUp fail s₁ = .next s₂ ∧ changesOnly [.free, .out, .start, .log, .host, .sec, .installed, .tiles, .dies, .links, .signals, .mem, .power, .ports] s₁ s₂ := by
  have hK : changesOnly [.free, .out, .start, .log, .host, .sec, .installed, .tiles, .dies, .links, .signals, .mem, .power, .ports] s₁ s₁ := changesOnly_refl
  have hL : ([.free, .out, .start, .log, .host, .sec, .installed, .tiles, .dies, .links, .signals, .mem, .power, .ports] : List Block) ⊆ [.free, .out, .start, .log, .host, .sec, .installed, .tiles, .dies, .links, .signals, .mem, .power, .ports] := List.Subset.refl _
  refine ⟨_, rfl, ?_⟩
  repeat' (first
    | with_reducible exact hK
    | with_reducible assumption
    | with_reducible exact List.Subset.trans (by decide) hL
    | with_reducible refine when'_frame _ ?_ (fun _ _ => ?_)
    | with_reducible apply stopStart_frame
    | with_reducible apply bringUpStacks_frame
    | split
    | fail_if_no_progress with_reducible refine changesOnly_lit ?_ ?_ ?_ ?_ ?_ ?_ ?_ ?_ ?_ ?_ ?_ ?_ ?_ ?_ ?_ ?_ ?_ ?_ ?_ ?_ ?_ ?_ ?_ ?_ ?_ ?_ ?_ ?_ ?_ ?_
    | with_reducible exact .inl rfl
    | exact Or.inr (hL (by decide))
    | dsimp only)

theorem execStackInitialisationDone_frame {s₁ : State}  :
    ∃ s₂, execStackInitialisationDone s₁ = .next s₂ ∧ changesOnly [.out, .start, .log, .host, .sec] s₁ s₂ := by
  have hK : changesOnly [.out, .start, .log, .host, .sec] s₁ s₁ := changesOnly_refl
  have hL : ([.out, .start, .log, .host, .sec] : List Block) ⊆ [.out, .start, .log, .host, .sec] := List.Subset.refl _
  refine ⟨_, rfl, ?_⟩
  repeat' (first
    | with_reducible exact hK
    | with_reducible assumption
    | with_reducible exact List.Subset.trans (by decide) hL
    | with_reducible refine when'_frame _ ?_ (fun _ _ => ?_)
    | with_reducible apply report_frame
    | with_reducible refine changesOnly_ite ?_ ?_
    | split
    | fail_if_no_progress with_reducible refine changesOnly_out ?_ (List.Subset.trans (by decide) hL)
    | fail_if_no_progress with_reducible refine changesOnly_start ?_ (List.Subset.trans (by decide) hL)
    | fail_if_no_progress with_reducible refine changesOnly_log ?_ (List.Subset.trans (by decide) hL)
    | fail_if_no_progress with_reducible refine changesOnly_host ?_ (List.Subset.trans (by decide) hL)
    | fail_if_no_progress with_reducible refine changesOnly_sec ?_ (List.Subset.trans (by decide) hL)
    | fail_if_no_progress with_reducible refine changesOnly_lit ?_ ?_ ?_ ?_ ?_ ?_ ?_ ?_ ?_ ?_ ?_ ?_ ?_ ?_ ?_ ?_ ?_ ?_ ?_ ?_ ?_ ?_ ?_ ?_ ?_ ?_ ?_ ?_ ?_ ?_
    | with_reducible exact .inl rfl
    | exact .inr (hL (by decide)))

theorem execCredentialWindowExpire_frame {s₁ : State}  :
    ∃ s₂, execCredentialWindowExpire s₁ = .next s₂ ∧ changesOnly [.start] s₁ s₂ := by
  have hK : changesOnly [.start] s₁ s₁ := changesOnly_refl
  have hL : ([.start] : List Block) ⊆ [.start] := List.Subset.refl _
  refine ⟨_, rfl, ?_⟩
  repeat' (first
    | with_reducible exact hK
    | with_reducible assumption
    | with_reducible exact List.Subset.trans (by decide) hL
    | with_reducible refine changesOnly_ite ?_ ?_
    | split
    | fail_if_no_progress with_reducible refine changesOnly_start ?_ (List.Subset.trans (by decide) hL)
    | fail_if_no_progress with_reducible refine changesOnly_lit ?_ ?_ ?_ ?_ ?_ ?_ ?_ ?_ ?_ ?_ ?_ ?_ ?_ ?_ ?_ ?_ ?_ ?_ ?_ ?_ ?_ ?_ ?_ ?_ ?_ ?_ ?_ ?_ ?_ ?_
    | with_reducible exact .inl rfl
    | exact .inr (hL (by decide)))

theorem dropBinnacle_frame {L : List Block} {s₀ s₁ : State}  (hK : changesOnly L s₀ s₁)
    (hL : [.power] ⊆ L) : changesOnly L s₀ (dropBinnacle s₁) := by
  unfold dropBinnacle
  repeat' (first
    | with_reducible exact hK
    | with_reducible assumption
    | with_reducible exact List.Subset.trans (by decide) hL
    | with_reducible apply dropSource_frame
    | with_reducible refine changesOnly_ite ?_ ?_
    | split)

theorem execPwrGoodLoss_frame {s₁ : State}  :
    ∃ s₂, execPwrGoodLoss s₁ = .next s₂ ∧ changesOnly [.out, .start, .log, .host, .ctx, .loader, .installed, .tiles, .dies, .links, .signals, .mem, .power, .coll] s₁ s₂ := by
  have hK : changesOnly [.out, .start, .log, .host, .ctx, .loader, .installed, .tiles, .dies, .links, .signals, .mem, .power, .coll] s₁ s₁ := changesOnly_refl
  have hL : ([.out, .start, .log, .host, .ctx, .loader, .installed, .tiles, .dies, .links, .signals, .mem, .power, .coll] : List Block) ⊆ [.out, .start, .log, .host, .ctx, .loader, .installed, .tiles, .dies, .links, .signals, .mem, .power, .coll] := List.Subset.refl _
  refine ⟨_, rfl, ?_⟩
  repeat' (first
    | with_reducible exact hK
    | with_reducible assumption
    | with_reducible exact List.Subset.trans (by decide) hL
    | with_reducible refine when'_frame _ ?_ (fun _ _ => ?_)
    | with_reducible apply report_frame
    | with_reducible apply assertClamp_frame
    | with_reducible apply endActive_frame
    | with_reducible apply parkChart_frame
    | split
    | fail_if_no_progress with_reducible refine changesOnly_lit ?_ ?_ ?_ ?_ ?_ ?_ ?_ ?_ ?_ ?_ ?_ ?_ ?_ ?_ ?_ ?_ ?_ ?_ ?_ ?_ ?_ ?_ ?_ ?_ ?_ ?_ ?_ ?_ ?_ ?_
    | with_reducible exact .inl rfl
    | exact Or.inr (hL (by decide))
    | dsimp only)

theorem execPwrGoodRestore_frame {s₁ : State}  :
    ∃ s₂, execPwrGoodRestore s₁ = .next s₂ ∧ changesOnly [.out, .start, .log, .host, .loader, .installed, .dies, .power] s₁ s₂ := by
  have hK : changesOnly [.out, .start, .log, .host, .loader, .installed, .dies, .power] s₁ s₁ := changesOnly_refl
  have hL : ([.out, .start, .log, .host, .loader, .installed, .dies, .power] : List Block) ⊆ [.out, .start, .log, .host, .loader, .installed, .dies, .power] := List.Subset.refl _
  refine ⟨_, rfl, ?_⟩
  repeat' (first
    | with_reducible exact hK
    | with_reducible assumption
    | with_reducible exact List.Subset.trans (by decide) hL
    | with_reducible refine when'_frame _ ?_ (fun _ _ => ?_)
    | with_reducible apply report_frame
    | with_reducible apply reinstall_frame
    | with_reducible apply dropBinnacle_frame
    | split
    | fail_if_no_progress with_reducible refine changesOnly_lit ?_ ?_ ?_ ?_ ?_ ?_ ?_ ?_ ?_ ?_ ?_ ?_ ?_ ?_ ?_ ?_ ?_ ?_ ?_ ?_ ?_ ?_ ?_ ?_ ?_ ?_ ?_ ?_ ?_ ?_
    | with_reducible exact .inl rfl
    | exact Or.inr (hL (by decide))
    | dsimp only)

theorem execInputPowerLoss_frame {s₁ : State}  :
    ∃ s₂, execInputPowerLoss s₁ = .next s₂ ∧ changesOnly [.out, .start, .log, .host, .ctx, .sec, .loader, .installed, .tiles, .dies, .links, .signals, .defects, .selfTest, .mem, .power, .thermal, .nv, .ports, .fabricGroup, .pattern, .field, .coll, .observed, .snapshots, .badShards] s₁ s₂ := by
  have hK : changesOnly [.out, .start, .log, .host, .ctx, .sec, .loader, .installed, .tiles, .dies, .links, .signals, .defects, .selfTest, .mem, .power, .thermal, .nv, .ports, .fabricGroup, .pattern, .field, .coll, .observed, .snapshots, .badShards] s₁ s₁ := changesOnly_refl
  have hL : ([.out, .start, .log, .host, .ctx, .sec, .loader, .installed, .tiles, .dies, .links, .signals, .defects, .selfTest, .mem, .power, .thermal, .nv, .ports, .fabricGroup, .pattern, .field, .coll, .observed, .snapshots, .badShards] : List Block) ⊆ [.out, .start, .log, .host, .ctx, .sec, .loader, .installed, .tiles, .dies, .links, .signals, .defects, .selfTest, .mem, .power, .thermal, .nv, .ports, .fabricGroup, .pattern, .field, .coll, .observed, .snapshots, .badShards] := List.Subset.refl _
  refine ⟨_, rfl, ?_⟩
  repeat' (first
    | with_reducible exact hK
    | with_reducible assumption
    | with_reducible exact List.Subset.trans (by decide) hL
    | with_reducible refine when'_frame _ ?_ (fun _ _ => ?_)
    | with_reducible apply resetState_frame
    | with_reducible refine changesOnly_ite ?_ ?_
    | split
    | fail_if_no_progress with_reducible refine changesOnly_out ?_ (List.Subset.trans (by decide) hL)
    | fail_if_no_progress with_reducible refine changesOnly_start ?_ (List.Subset.trans (by decide) hL)
    | fail_if_no_progress with_reducible refine changesOnly_log ?_ (List.Subset.trans (by decide) hL)
    | fail_if_no_progress with_reducible refine changesOnly_host ?_ (List.Subset.trans (by decide) hL)
    | fail_if_no_progress with_reducible refine changesOnly_ctx ?_ (List.Subset.trans (by decide) hL)
    | fail_if_no_progress with_reducible refine changesOnly_sec ?_ (List.Subset.trans (by decide) hL)
    | fail_if_no_progress with_reducible refine changesOnly_loader ?_ (List.Subset.trans (by decide) hL)
    | fail_if_no_progress with_reducible refine changesOnly_installed ?_ (List.Subset.trans (by decide) hL)
    | fail_if_no_progress with_reducible refine changesOnly_tiles ?_ (List.Subset.trans (by decide) hL)
    | fail_if_no_progress with_reducible refine changesOnly_dies ?_ (List.Subset.trans (by decide) hL)
    | fail_if_no_progress with_reducible refine changesOnly_links ?_ (List.Subset.trans (by decide) hL)
    | fail_if_no_progress with_reducible refine changesOnly_signals ?_ (List.Subset.trans (by decide) hL)
    | fail_if_no_progress with_reducible refine changesOnly_defects ?_ (List.Subset.trans (by decide) hL)
    | fail_if_no_progress with_reducible refine changesOnly_selfTest ?_ (List.Subset.trans (by decide) hL)
    | fail_if_no_progress with_reducible refine changesOnly_mem ?_ (List.Subset.trans (by decide) hL)
    | fail_if_no_progress with_reducible refine changesOnly_power ?_ (List.Subset.trans (by decide) hL)
    | fail_if_no_progress with_reducible refine changesOnly_thermal ?_ (List.Subset.trans (by decide) hL)
    | fail_if_no_progress with_reducible refine changesOnly_nv ?_ (List.Subset.trans (by decide) hL)
    | fail_if_no_progress with_reducible refine changesOnly_ports ?_ (List.Subset.trans (by decide) hL)
    | fail_if_no_progress with_reducible refine changesOnly_fabricGroup ?_ (List.Subset.trans (by decide) hL)
    | fail_if_no_progress with_reducible refine changesOnly_pattern ?_ (List.Subset.trans (by decide) hL)
    | fail_if_no_progress with_reducible refine changesOnly_field ?_ (List.Subset.trans (by decide) hL)
    | fail_if_no_progress with_reducible refine changesOnly_coll ?_ (List.Subset.trans (by decide) hL)
    | fail_if_no_progress with_reducible refine changesOnly_observed ?_ (List.Subset.trans (by decide) hL)
    | fail_if_no_progress with_reducible refine changesOnly_snapshots ?_ (List.Subset.trans (by decide) hL)
    | fail_if_no_progress with_reducible refine changesOnly_badShards ?_ (List.Subset.trans (by decide) hL)
    | fail_if_no_progress with_reducible refine changesOnly_lit ?_ ?_ ?_ ?_ ?_ ?_ ?_ ?_ ?_ ?_ ?_ ?_ ?_ ?_ ?_ ?_ ?_ ?_ ?_ ?_ ?_ ?_ ?_ ?_ ?_ ?_ ?_ ?_ ?_ ?_
    | with_reducible exact .inl rfl
    | exact .inr (hL (by decide)))

theorem releaseOpen_frame {L : List Block} {s₀ s₁ : State}  (hK : changesOnly L s₀ s₁)
    (hL : [.out, .start, .log, .host, .ctx, .loader, .installed, .tiles, .dies, .links, .signals, .mem, .power, .ports, .coll] ⊆ L) : changesOnly L s₀ (releaseOpen s₁) := by
  unfold releaseOpen
  repeat' (first
    | with_reducible exact hK
    | with_reducible assumption
    | with_reducible exact List.Subset.trans (by decide) hL
    | with_reducible apply mapPorts_frame
    | with_reducible apply report_frame
    | with_reducible apply assertClamp_frame
    | with_reducible apply endActive_frame
    | with_reducible apply parkChart_frame
    | split
    | fail_if_no_progress with_reducible refine changesOnly_lit ?_ ?_ ?_ ?_ ?_ ?_ ?_ ?_ ?_ ?_ ?_ ?_ ?_ ?_ ?_ ?_ ?_ ?_ ?_ ?_ ?_ ?_ ?_ ?_ ?_ ?_ ?_ ?_ ?_ ?_
    | with_reducible exact .inl rfl
    | exact Or.inr (hL (by decide))
    | dsimp only)

theorem releaseEarly_frame {L : List Block} {s₀ s₁ : State}  (hK : changesOnly L s₀ s₁)
    (hL : [.out, .start, .installed, .tiles, .dies, .links, .signals, .mem, .ports] ⊆ L) : changesOnly L s₀ (releaseEarly s₁) := by
  unfold releaseEarly
  repeat' (first
    | with_reducible exact hK
    | with_reducible assumption
    | with_reducible exact List.Subset.trans (by decide) hL
    | with_reducible apply houseOnly_frame
    | split
    | fail_if_no_progress with_reducible refine changesOnly_lit ?_ ?_ ?_ ?_ ?_ ?_ ?_ ?_ ?_ ?_ ?_ ?_ ?_ ?_ ?_ ?_ ?_ ?_ ?_ ?_ ?_ ?_ ?_ ?_ ?_ ?_ ?_ ?_ ?_ ?_
    | with_reducible exact .inl rfl
    | exact Or.inr (hL (by decide))
    | dsimp only)

theorem execTrayRelease_frame {s₁ : State}  :
    ∃ s₂, execTrayRelease s₁ = .next s₂ ∧ changesOnly [.out, .start, .log, .host, .ctx, .loader, .installed, .tiles, .dies, .links, .signals, .mem, .power, .ports, .coll] s₁ s₂ := by
  have hK : changesOnly [.out, .start, .log, .host, .ctx, .loader, .installed, .tiles, .dies, .links, .signals, .mem, .power, .ports, .coll] s₁ s₁ := changesOnly_refl
  have hL : ([.out, .start, .log, .host, .ctx, .loader, .installed, .tiles, .dies, .links, .signals, .mem, .power, .ports, .coll] : List Block) ⊆ [.out, .start, .log, .host, .ctx, .loader, .installed, .tiles, .dies, .links, .signals, .mem, .power, .ports, .coll] := List.Subset.refl _
  refine ⟨_, rfl, ?_⟩
  repeat' (first
    | with_reducible exact hK
    | with_reducible assumption
    | with_reducible exact List.Subset.trans (by decide) hL
    | with_reducible refine when'_frame _ ?_ (fun _ _ => ?_)
    | with_reducible apply releaseOpen_frame
    | with_reducible apply releaseEarly_frame
    | split
    | fail_if_no_progress with_reducible refine changesOnly_lit ?_ ?_ ?_ ?_ ?_ ?_ ?_ ?_ ?_ ?_ ?_ ?_ ?_ ?_ ?_ ?_ ?_ ?_ ?_ ?_ ?_ ?_ ?_ ?_ ?_ ?_ ?_ ?_ ?_ ?_
    | with_reducible exact .inl rfl
    | exact Or.inr (hL (by decide))
    | dsimp only)

theorem execTrayReleaseWithdrawn_frame {s₁ : State}  :
    ∃ s₂, execTrayReleaseWithdrawn s₁ = .next s₂ ∧ changesOnly [.out, .start, .log, .host, .loader, .installed, .dies, .power, .ports] s₁ s₂ := by
  have hK : changesOnly [.out, .start, .log, .host, .loader, .installed, .dies, .power, .ports] s₁ s₁ := changesOnly_refl
  have hL : ([.out, .start, .log, .host, .loader, .installed, .dies, .power, .ports] : List Block) ⊆ [.out, .start, .log, .host, .loader, .installed, .dies, .power, .ports] := List.Subset.refl _
  refine ⟨_, rfl, ?_⟩
  repeat' (first
    | with_reducible exact hK
    | with_reducible assumption
    | with_reducible exact List.Subset.trans (by decide) hL
    | with_reducible refine when'_frame _ ?_ (fun _ _ => ?_)
    | with_reducible apply mapPorts_frame
    | with_reducible apply report_frame
    | with_reducible apply reinstall_frame
    | with_reducible apply dropBinnacle_frame
    | split
    | fail_if_no_progress with_reducible refine changesOnly_lit ?_ ?_ ?_ ?_ ?_ ?_ ?_ ?_ ?_ ?_ ?_ ?_ ?_ ?_ ?_ ?_ ?_ ?_ ?_ ?_ ?_ ?_ ?_ ?_ ?_ ?_ ?_ ?_ ?_ ?_
    | with_reducible exact .inl rfl
    | exact Or.inr (hL (by decide))
    | dsimp only)

end Sys2Proof.Machine
end

