-- ==== Sys2Proof/Laws/FrameQueues.lean ====
section
/-! SUPPORT. The frames of the operations and commands of Queues (Laws/Frame.lean). -/

namespace Sys2Proof.Machine

set_option linter.all false
set_option Elab.async false

open Sys2Proof

theorem latchQueue_frame {L : List Block} {s₀ s₁ : State} (i : Slot) (q : QId) (hK : changesOnly L s₀ s₁)
    (hL : [.out, .log, .host, .ctx] ⊆ L) : changesOnly L s₀ (latchQueue i q s₁) := by
  unfold latchQueue
  repeat' (first
    | with_reducible exact hK
    | with_reducible assumption
    | with_reducible exact List.Subset.trans (by decide) hL
    | with_reducible apply modQueue_frame
    | with_reducible apply reportCtx_frame
    | with_reducible refine changesOnly_ite ?_ ?_
    | split
    | fail_if_no_progress with_reducible refine changesOnly_out ?_ (List.Subset.trans (by decide) hL)
    | fail_if_no_progress with_reducible refine changesOnly_log ?_ (List.Subset.trans (by decide) hL)
    | fail_if_no_progress with_reducible refine changesOnly_host ?_ (List.Subset.trans (by decide) hL)
    | fail_if_no_progress with_reducible refine changesOnly_ctx ?_ (List.Subset.trans (by decide) hL)
    | fail_if_no_progress with_reducible refine changesOnly_lit ?_ ?_ ?_ ?_ ?_ ?_ ?_ ?_ ?_ ?_ ?_ ?_ ?_ ?_ ?_ ?_ ?_ ?_ ?_ ?_ ?_ ?_ ?_ ?_ ?_ ?_ ?_ ?_ ?_ ?_
    | with_reducible exact .inl rfl)

theorem observeLine_frame {L : List Block} {s₀ s₁ : State} (i : Slot) (off : Nat) (e : Entry) (q : QId) (hK : changesOnly L s₀ s₁)
    (hL : [.out, .log, .host, .ctx, .observed] ⊆ L) : changesOnly L s₀ (observeLine i off e s₁ q) := by
  unfold observeLine
  repeat' (first
    | with_reducible exact hK
    | with_reducible assumption
    | with_reducible exact List.Subset.trans (by decide) hL
    | with_reducible apply modQueue_frame
    | with_reducible apply reportCtx_frame
    | with_reducible refine changesOnly_ite ?_ ?_
    | split
    | fail_if_no_progress with_reducible refine changesOnly_out ?_ (List.Subset.trans (by decide) hL)
    | fail_if_no_progress with_reducible refine changesOnly_log ?_ (List.Subset.trans (by decide) hL)
    | fail_if_no_progress with_reducible refine changesOnly_host ?_ (List.Subset.trans (by decide) hL)
    | fail_if_no_progress with_reducible refine changesOnly_ctx ?_ (List.Subset.trans (by decide) hL)
    | fail_if_no_progress with_reducible refine changesOnly_observed ?_ (List.Subset.trans (by decide) hL)
    | fail_if_no_progress with_reducible refine changesOnly_lit ?_ ?_ ?_ ?_ ?_ ?_ ?_ ?_ ?_ ?_ ?_ ?_ ?_ ?_ ?_ ?_ ?_ ?_ ?_ ?_ ?_ ?_ ?_ ?_ ?_ ?_ ?_ ?_ ?_ ?_
    | with_reducible exact .inl rfl
    | exact .inr (hL (by decide)))

theorem countOutside_frame {L : List Block} {s₀ s₁ : State}  (hK : changesOnly L s₀ s₁)
    (hL : [.out, .log, .host] ⊆ L) : changesOnly L s₀ (countOutside s₁) := by
  unfold countOutside
  repeat' (first
    | with_reducible exact hK
    | with_reducible assumption
    | with_reducible exact List.Subset.trans (by decide) hL
    | with_reducible apply reportHost_frame
    | with_reducible refine changesOnly_ite ?_ ?_
    | split
    | fail_if_no_progress with_reducible refine changesOnly_out ?_ (List.Subset.trans (by decide) hL)
    | fail_if_no_progress with_reducible refine changesOnly_log ?_ (List.Subset.trans (by decide) hL)
    | fail_if_no_progress with_reducible refine changesOnly_host ?_ (List.Subset.trans (by decide) hL)
    | fail_if_no_progress with_reducible refine changesOnly_lit ?_ ?_ ?_ ?_ ?_ ?_ ?_ ?_ ?_ ?_ ?_ ?_ ?_ ?_ ?_ ?_ ?_ ?_ ?_ ?_ ?_ ?_ ?_ ?_ ?_ ?_ ?_ ?_ ?_ ?_
    | with_reducible exact .inl rfl
    | exact .inr (hL (by decide)))

theorem hostWrite_frame {L : List Block} {s₀ s₁ : State} (offset : BitVec 41) (line : Bytes) (hK : changesOnly L s₀ s₁)
    (hL : [.out, .log, .host, .ctx, .mem, .observed] ⊆ L) : changesOnly L s₀ (hostWrite offset line s₁) := by
  unfold hostWrite
  repeat' (first
    | with_reducible exact hK
    | with_reducible assumption
    | with_reducible exact List.Subset.trans (by decide) hL
    | with_reducible refine foldl_frame ?_ (fun _ _ _ => ?_)
    | with_reducible refine foldl_fst_frame ?_ (fun _ _ _ => ?_)
    | with_reducible apply emit_frame
    | with_reducible apply storeBytes_frame
    | with_reducible apply observeLine_frame
    | with_reducible apply countOutside_frame
    | with_reducible refine changesOnly_ite ?_ ?_
    | split
    | fail_if_no_progress with_reducible refine changesOnly_out ?_ (List.Subset.trans (by decide) hL)
    | fail_if_no_progress with_reducible refine changesOnly_log ?_ (List.Subset.trans (by decide) hL)
    | fail_if_no_progress with_reducible refine changesOnly_host ?_ (List.Subset.trans (by decide) hL)
    | fail_if_no_progress with_reducible refine changesOnly_ctx ?_ (List.Subset.trans (by decide) hL)
    | fail_if_no_progress with_reducible refine changesOnly_mem ?_ (List.Subset.trans (by decide) hL)
    | fail_if_no_progress with_reducible refine changesOnly_observed ?_ (List.Subset.trans (by decide) hL)
    | fail_if_no_progress with_reducible refine changesOnly_lit ?_ ?_ ?_ ?_ ?_ ?_ ?_ ?_ ?_ ?_ ?_ ?_ ?_ ?_ ?_ ?_ ?_ ?_ ?_ ?_ ?_ ?_ ?_ ?_ ?_ ?_ ?_ ?_ ?_ ?_
    | with_reducible exact .inl rfl)

theorem execQueueEntryWrite_frame {s₁ : State} (offset : BitVec 41) (line : Bytes) :
    ∃ s₂, execQueueEntryWrite offset line s₁ = .next s₂ ∧ changesOnly [.out, .log, .host, .ctx, .mem, .observed] s₁ s₂ := by
  have hK : changesOnly [.out, .log, .host, .ctx, .mem, .observed] s₁ s₁ := changesOnly_refl
  have hL : ([.out, .log, .host, .ctx, .mem, .observed] : List Block) ⊆ [.out, .log, .host, .ctx, .mem, .observed] := List.Subset.refl _
  refine ⟨_, rfl, ?_⟩
  repeat' (first
    | with_reducible exact hK
    | with_reducible assumption
    | with_reducible exact List.Subset.trans (by decide) hL
    | with_reducible refine when'_frame _ ?_ (fun _ _ => ?_)
    | with_reducible apply hostWrite_frame)

theorem dropStale_frame {L : List Block} {s₀ s₁ : State} (i : Slot) (q : QId) (idx : Nat) (hK : changesOnly L s₀ s₁)
    (hL : [.ctx] ⊆ L) : changesOnly L s₀ (dropStale i q idx s₁) := by
  unfold dropStale
  repeat' (first
    | with_reducible exact hK
    | with_reducible assumption
    | with_reducible exact List.Subset.trans (by decide) hL
    | with_reducible apply modQueue_frame
    | with_reducible refine changesOnly_ite ?_ ?_
    | split)

theorem readHead_frame {L : List Block} {s₀ s₁ : State} (i : Slot) (q : QId) (hK : changesOnly L s₀ s₁)
    (hL : [.ctx] ⊆ L) : changesOnly L s₀ (readHead i q s₁) := by
  unfold readHead
  repeat' (first
    | with_reducible exact hK
    | with_reducible assumption
    | with_reducible exact List.Subset.trans (by decide) hL
    | with_reducible apply dropStale_frame
    | with_reducible refine changesOnly_ite ?_ ?_
    | split
    | fail_if_no_progress with_reducible refine changesOnly_ctx ?_ (List.Subset.trans (by decide) hL)
    | fail_if_no_progress with_reducible refine changesOnly_lit ?_ ?_ ?_ ?_ ?_ ?_ ?_ ?_ ?_ ?_ ?_ ?_ ?_ ?_ ?_ ?_ ?_ ?_ ?_ ?_ ?_ ?_ ?_ ?_ ?_ ?_ ?_ ?_ ?_ ?_
    | with_reducible exact .inl rfl)

theorem consume_frame {L : List Block} {s₀ s₁ : State} (i : Slot) (q : QId) (r : Ready) (hK : changesOnly L s₀ s₁)
    (hL : [.ctx] ⊆ L) : changesOnly L s₀ (consume i q r s₁) := by
  unfold consume
  repeat' (first
    | with_reducible exact hK
    | with_reducible assumption
    | with_reducible exact List.Subset.trans (by decide) hL
    | with_reducible apply modQueue_frame)

theorem holdRecord_frame {L : List Block} {s₀ s₁ : State} (i : Slot) (r : CplRecord) (hK : changesOnly L s₀ s₁)
    (hL : [.ctx] ⊆ L) : changesOnly L s₀ (holdRecord i r s₁) := by
  unfold holdRecord
  repeat' (first
    | with_reducible exact hK
    | with_reducible assumption
    | with_reducible exact List.Subset.trans (by decide) hL
    | with_reducible apply modCtx_frame)

theorem refuseCmd_frame {L : List Block} {s₀ s₁ : State} (i : Slot) (q : QId) (idx : Nat) (e : Entry) (code : Code) (detail : Nat) (hK : changesOnly L s₀ s₁)
    (hL : [.out, .log, .host, .ctx] ⊆ L) : changesOnly L s₀ (refuseCmd i q idx e code detail s₁) := by
  unfold refuseCmd
  repeat' (first
    | with_reducible exact hK
    | with_reducible assumption
    | with_reducible exact List.Subset.trans (by decide) hL
    | with_reducible apply modCtx_frame
    | with_reducible apply report_frame
    | with_reducible apply reportCtx_frame
    | with_reducible apply holdRecord_frame
    | with_reducible refine changesOnly_ite ?_ ?_
    | split)

theorem refuseHead_frame {L : List Block} {s₀ s₁ : State} (i : Slot) (q : QId) (hK : changesOnly L s₀ s₁)
    (hL : [.out, .log, .host, .ctx] ⊆ L) : changesOnly L s₀ (refuseHead i q s₁) := by
  unfold refuseHead
  repeat' (first
    | with_reducible exact hK
    | with_reducible assumption
    | with_reducible exact List.Subset.trans (by decide) hL
    | with_reducible apply modQueue_frame
    | with_reducible apply consume_frame
    | with_reducible apply refuseCmd_frame
    | with_reducible refine changesOnly_ite ?_ ?_
    | split
    | fail_if_no_progress with_reducible refine changesOnly_out ?_ (List.Subset.trans (by decide) hL)
    | fail_if_no_progress with_reducible refine changesOnly_log ?_ (List.Subset.trans (by decide) hL)
    | fail_if_no_progress with_reducible refine changesOnly_host ?_ (List.Subset.trans (by decide) hL)
    | fail_if_no_progress with_reducible refine changesOnly_ctx ?_ (List.Subset.trans (by decide) hL)
    | fail_if_no_progress with_reducible refine changesOnly_lit ?_ ?_ ?_ ?_ ?_ ?_ ?_ ?_ ?_ ?_ ?_ ?_ ?_ ?_ ?_ ?_ ?_ ?_ ?_ ?_ ?_ ?_ ?_ ?_ ?_ ?_ ?_ ?_ ?_ ?_
    | with_reducible exact .inl rfl)

theorem execEntryRefusal_frame {s₁ : State} (i : Slot) (q : QId) :
    ∃ s₂, execEntryRefusal i q s₁ = .next s₂ ∧ changesOnly [.out, .log, .host, .ctx] s₁ s₂ := by
  have hK : changesOnly [.out, .log, .host, .ctx] s₁ s₁ := changesOnly_refl
  have hL : ([.out, .log, .host, .ctx] : List Block) ⊆ [.out, .log, .host, .ctx] := List.Subset.refl _
  refine ⟨_, rfl, ?_⟩
  repeat' (first
    | with_reducible exact hK
    | with_reducible assumption
    | with_reducible exact List.Subset.trans (by decide) hL
    | with_reducible refine when'_frame _ ?_ (fun _ _ => ?_)
    | with_reducible apply readHead_frame
    | with_reducible apply refuseHead_frame)

theorem addRunning_frame {L : List Block} {s₀ s₁ : State} (i : Slot) (cmd : Cmd) (hK : changesOnly L s₀ s₁)
    (hL : [.ctx] ⊆ L) : changesOnly L s₀ (addRunning i cmd s₁) := by
  unfold addRunning
  repeat' (first
    | with_reducible exact hK
    | with_reducible assumption
    | with_reducible exact List.Subset.trans (by decide) hL
    | with_reducible apply modCtx_frame)

theorem startRow_frame {L : List Block} {s₀ s₁ : State} (op : Nat) {f : Slot → QId → Ready → State → State} (i : Slot)
    (q : QId) (hK : changesOnly L s₀ s₁) (hf : ∀ r y, changesOnly L s₀ y → changesOnly L s₀ (f i q r y))
    (hL : [.ctx] ⊆ L) : changesOnly L s₀ (startRow op f i q s₁) := by
  unfold startRow
  dsimp only
  have h2 := readHead_frame i q hK (List.Subset.trans (by decide) hL)
  split
  · split
    · exact h2
    · split
      · exact hf _ _ (consume_frame _ _ _ h2 (List.Subset.trans (by decide) hL))
      · exact h2
  · exact hK

theorem refuseStart_frame {L : List Block} {s₀ s₁ : State} (i : Slot) (q : QId) (r : Ready) (code : Code) (detail : Nat) (hK : changesOnly L s₀ s₁)
    (hL : [.out, .log, .host, .ctx] ⊆ L) : changesOnly L s₀ (refuseStart i q r code detail s₁) := by
  unfold refuseStart
  repeat' (first
    | with_reducible exact hK
    | with_reducible assumption
    | with_reducible exact List.Subset.trans (by decide) hL
    | with_reducible apply refuseCmd_frame)

theorem atOnce_frame {L : List Block} {s₀ s₁ : State} (i : Slot) (q : QId) (r : Ready) (detail : Nat) (hK : changesOnly L s₀ s₁)
    (hL : [.out, .log, .host, .ctx] ⊆ L) : changesOnly L s₀ (atOnce i q r detail s₁) := by
  unfold atOnce
  repeat' (first
    | with_reducible exact hK
    | with_reducible assumption
    | with_reducible exact List.Subset.trans (by decide) hL
    | with_reducible apply completeCmd_frame
    | with_reducible apply addRunning_frame)

theorem execNop_frame {s₁ : State} (i : Slot) (q : QId) :
    ∃ s₂, execNop i q s₁ = .next s₂ ∧ changesOnly [.out, .log, .host, .ctx] s₁ s₂ := by
  have hK : changesOnly [.out, .log, .host, .ctx] s₁ s₁ := changesOnly_refl
  have hL : ([.out, .log, .host, .ctx] : List Block) ⊆ [.out, .log, .host, .ctx] := List.Subset.refl _
  refine ⟨_, rfl, ?_⟩
  repeat' (first
    | with_reducible exact hK
    | with_reducible assumption
    | with_reducible exact List.Subset.trans (by decide) hL
    | with_reducible refine startRow_frame _ _ _ ?_ (fun _ _ _ => ?_) ?_
    | with_reducible apply atOnce_frame)

theorem cancelEntries_frame {L : List Block} {s₀ s₁ : State} (i : Slot) (q : QId) (hK : changesOnly L s₀ s₁)
    (hL : [.out, .log, .host, .ctx] ⊆ L) : changesOnly L s₀ (cancelEntries i q s₁) := by
  unfold cancelEntries
  repeat' (first
    | with_reducible exact hK
    | with_reducible assumption
    | with_reducible exact List.Subset.trans (by decide) hL
    | with_reducible refine foldl_frame ?_ (fun _ _ _ => ?_)
    | with_reducible refine foldl_fst_frame ?_ (fun _ _ _ => ?_)
    | with_reducible apply modQueue_frame
    | with_reducible apply reportCtx_frame
    | with_reducible apply holdRecord_frame
    | with_reducible refine changesOnly_ite ?_ ?_
    | split
    | fail_if_no_progress with_reducible refine changesOnly_out ?_ (List.Subset.trans (by decide) hL)
    | fail_if_no_progress with_reducible refine changesOnly_log ?_ (List.Subset.trans (by decide) hL)
    | fail_if_no_progress with_reducible refine changesOnly_host ?_ (List.Subset.trans (by decide) hL)
    | fail_if_no_progress with_reducible refine changesOnly_ctx ?_ (List.Subset.trans (by decide) hL)
    | fail_if_no_progress with_reducible refine changesOnly_lit ?_ ?_ ?_ ?_ ?_ ?_ ?_ ?_ ?_ ?_ ?_ ?_ ?_ ?_ ?_ ?_ ?_ ?_ ?_ ?_ ?_ ?_ ?_ ?_ ?_ ?_ ?_ ?_ ?_ ?_
    | with_reducible exact .inl rfl)

theorem cancelQueue_frame {L : List Block} {s₀ s₁ : State} (i : Slot) (q : QId) (hK : changesOnly L s₀ s₁)
    (hL : [.out, .log, .host, .ctx] ⊆ L) : changesOnly L s₀ (cancelQueue i q s₁) := by
  unfold cancelQueue
  repeat' (first
    | with_reducible exact hK
    | with_reducible assumption
    | with_reducible exact List.Subset.trans (by decide) hL
    | with_reducible apply modQueue_frame
    | with_reducible apply cancelEntries_frame
    | with_reducible refine changesOnly_ite ?_ ?_
    | split)

theorem execQueueCancel_frame {s₁ : State} (i : Slot) (q : QId) :
    ∃ s₂, execQueueCancel i q s₁ = .next s₂ ∧ changesOnly [.out, .log, .host, .ctx] s₁ s₂ := by
  have hK : changesOnly [.out, .log, .host, .ctx] s₁ s₁ := changesOnly_refl
  have hL : ([.out, .log, .host, .ctx] : List Block) ⊆ [.out, .log, .host, .ctx] := List.Subset.refl _
  refine ⟨_, rfl, ?_⟩
  repeat' (first
    | with_reducible exact hK
    | with_reducible assumption
    | with_reducible exact List.Subset.trans (by decide) hL
    | with_reducible refine when'_frame _ ?_ (fun _ _ => ?_)
    | with_reducible apply cancelQueue_frame)

theorem endCancel_frame {L : List Block} {s₀ s₁ : State} (i : Slot) (q : QId) (hK : changesOnly L s₀ s₁)
    (hL : [.out, .log, .host, .ctx] ⊆ L) : changesOnly L s₀ (endCancel i q s₁) := by
  unfold endCancel
  repeat' (first
    | with_reducible exact hK
    | with_reducible assumption
    | with_reducible exact List.Subset.trans (by decide) hL
    | with_reducible apply modQueue_frame
    | with_reducible apply latchQueue_frame)

theorem execQueueCancelComplete_frame {s₁ : State} (i : Slot) (q : QId) :
    ∃ s₂, execQueueCancelComplete i q s₁ = .next s₂ ∧ changesOnly [.out, .log, .host, .ctx] s₁ s₂ := by
  have hK : changesOnly [.out, .log, .host, .ctx] s₁ s₁ := changesOnly_refl
  have hL : ([.out, .log, .host, .ctx] : List Block) ⊆ [.out, .log, .host, .ctx] := List.Subset.refl _
  refine ⟨_, rfl, ?_⟩
  repeat' (first
    | with_reducible exact hK
    | with_reducible assumption
    | with_reducible exact List.Subset.trans (by decide) hL
    | with_reducible refine when'_frame _ ?_ (fun _ _ => ?_)
    | with_reducible apply endCancel_frame)

theorem enableRing_frame {L : List Block} {s₀ s₁ : State} (i : Slot) (hK : changesOnly L s₀ s₁)
    (hL : [.out, .log, .host, .ctx] ⊆ L) : changesOnly L s₀ (enableRing i s₁) := by
  unfold enableRing
  repeat' (first
    | with_reducible exact hK
    | with_reducible assumption
    | with_reducible exact List.Subset.trans (by decide) hL
    | with_reducible apply modCtx_frame
    | with_reducible apply reportCtx_frame
    | with_reducible refine changesOnly_ite ?_ ?_
    | split
    | fail_if_no_progress with_reducible refine changesOnly_out ?_ (List.Subset.trans (by decide) hL)
    | fail_if_no_progress with_reducible refine changesOnly_log ?_ (List.Subset.trans (by decide) hL)
    | fail_if_no_progress with_reducible refine changesOnly_host ?_ (List.Subset.trans (by decide) hL)
    | fail_if_no_progress with_reducible refine changesOnly_ctx ?_ (List.Subset.trans (by decide) hL)
    | fail_if_no_progress with_reducible refine changesOnly_lit ?_ ?_ ?_ ?_ ?_ ?_ ?_ ?_ ?_ ?_ ?_ ?_ ?_ ?_ ?_ ?_ ?_ ?_ ?_ ?_ ?_ ?_ ?_ ?_ ?_ ?_ ?_ ?_ ?_ ?_
    | with_reducible exact .inl rfl)

theorem disableRing_frame {L : List Block} {s₀ s₁ : State} (i : Slot) (hK : changesOnly L s₀ s₁)
    (hL : [.ctx] ⊆ L) : changesOnly L s₀ (disableRing i s₁) := by
  unfold disableRing
  repeat' (first
    | with_reducible exact hK
    | with_reducible assumption
    | with_reducible exact List.Subset.trans (by decide) hL
    | with_reducible apply modCtx_frame)

theorem execCqEnable_frame {s₁ : State} (i : Slot) :
    ∃ s₂, execCqEnable i s₁ = .next s₂ ∧ changesOnly [.out, .log, .host, .ctx] s₁ s₂ := by
  have hK : changesOnly [.out, .log, .host, .ctx] s₁ s₁ := changesOnly_refl
  have hL : ([.out, .log, .host, .ctx] : List Block) ⊆ [.out, .log, .host, .ctx] := List.Subset.refl _
  refine ⟨_, rfl, ?_⟩
  repeat' (first
    | with_reducible exact hK
    | with_reducible assumption
    | with_reducible exact List.Subset.trans (by decide) hL
    | with_reducible refine when'_frame _ ?_ (fun _ _ => ?_)
    | with_reducible apply enableRing_frame)

theorem headWrite_frame {L : List Block} {s₀ s₁ : State} (i : Slot) (h : BitVec 12) (hK : changesOnly L s₀ s₁)
    (hL : [.ctx] ⊆ L) : changesOnly L s₀ (headWrite i h s₁) := by
  unfold headWrite
  repeat' (first
    | with_reducible exact hK
    | with_reducible assumption
    | with_reducible exact List.Subset.trans (by decide) hL
    | with_reducible apply modCtx_frame)

theorem execCqHeadWrite_frame {s₁ : State} (i : Slot) (h : BitVec 12) :
    ∃ s₂, execCqHeadWrite i h s₁ = .next s₂ ∧ changesOnly [.ctx] s₁ s₂ := by
  have hK : changesOnly [.ctx] s₁ s₁ := changesOnly_refl
  have hL : ([.ctx] : List Block) ⊆ [.ctx] := List.Subset.refl _
  refine ⟨_, rfl, ?_⟩
  repeat' (first
    | with_reducible exact hK
    | with_reducible assumption
    | with_reducible exact List.Subset.trans (by decide) hL
    | with_reducible refine when'_frame _ ?_ (fun _ _ => ?_)
    | with_reducible apply headWrite_frame)

theorem writeRecord_frame {L : List Block} {s₀ s₁ : State} (i : Slot) (l : CqLatch) (x : CplRecord) (hK : changesOnly L s₀ s₁)
    (hL : [.out, .ctx, .mem] ⊆ L) : changesOnly L s₀ (writeRecord i l x s₁) := by
  unfold writeRecord
  repeat' (first
    | with_reducible exact hK
    | with_reducible assumption
    | with_reducible exact List.Subset.trans (by decide) hL
    | with_reducible apply modCtx_frame
    | with_reducible apply emit_frame
    | with_reducible apply storeBytes_frame
    | with_reducible refine changesOnly_ite ?_ ?_
    | split)

theorem execCompletionRecordWrite_frame {s₁ : State} (i : Slot) :
    ∃ s₂, execCompletionRecordWrite i s₁ = .next s₂ ∧ changesOnly [.out, .ctx, .mem] s₁ s₂ := by
  have hK : changesOnly [.out, .ctx, .mem] s₁ s₁ := changesOnly_refl
  have hL : ([.out, .ctx, .mem] : List Block) ⊆ [.out, .ctx, .mem] := List.Subset.refl _
  refine ⟨_, rfl, ?_⟩
  repeat' (first
    | with_reducible exact hK
    | with_reducible assumption
    | with_reducible exact List.Subset.trans (by decide) hL
    | with_reducible apply writeRecord_frame
    | with_reducible refine changesOnly_ite ?_ ?_
    | split)

theorem recordWritten_frame {L : List Block} {s₀ s₁ : State} (i : Slot) (hK : changesOnly L s₀ s₁)
    (hL : [.out, .host, .ctx] ⊆ L) : changesOnly L s₀ (recordWritten i s₁) := by
  unfold recordWritten
  repeat' (first
    | with_reducible exact hK
    | with_reducible assumption
    | with_reducible exact List.Subset.trans (by decide) hL
    | with_reducible apply modCtx_frame
    | with_reducible apply sendMsix_frame
    | with_reducible refine changesOnly_ite ?_ ?_
    | split
    | fail_if_no_progress with_reducible refine changesOnly_out ?_ (List.Subset.trans (by decide) hL)
    | fail_if_no_progress with_reducible refine changesOnly_host ?_ (List.Subset.trans (by decide) hL)
    | fail_if_no_progress with_reducible refine changesOnly_ctx ?_ (List.Subset.trans (by decide) hL)
    | fail_if_no_progress with_reducible refine changesOnly_lit ?_ ?_ ?_ ?_ ?_ ?_ ?_ ?_ ?_ ?_ ?_ ?_ ?_ ?_ ?_ ?_ ?_ ?_ ?_ ?_ ?_ ?_ ?_ ?_ ?_ ?_ ?_ ?_ ?_ ?_
    | with_reducible exact .inl rfl)

theorem execCompletionWriteDone_frame {s₁ : State} (i : Slot) :
    ∃ s₂, execCompletionWriteDone i s₁ = .next s₂ ∧ changesOnly [.out, .host, .ctx] s₁ s₂ := by
  have hK : changesOnly [.out, .host, .ctx] s₁ s₁ := changesOnly_refl
  have hL : ([.out, .host, .ctx] : List Block) ⊆ [.out, .host, .ctx] := List.Subset.refl _
  refine ⟨_, rfl, ?_⟩
  repeat' (first
    | with_reducible exact hK
    | with_reducible assumption
    | with_reducible exact List.Subset.trans (by decide) hL
    | with_reducible refine when'_frame _ ?_ (fun _ _ => ?_)
    | with_reducible apply recordWritten_frame)

theorem modCxl_frame {L : List Block} {s₀ s₁ : State} (p : CxlId) (f : CxlPort → CxlPort) (hK : changesOnly L s₀ s₁)
    (hL : [.host] ⊆ L) : changesOnly L s₀ (modCxl p f s₁) := by
  unfold modCxl
  repeat' (first
    | with_reducible exact hK
    | with_reducible assumption
    | with_reducible exact List.Subset.trans (by decide) hL
    | with_reducible refine changesOnly_ite ?_ ?_
    | split
    | fail_if_no_progress with_reducible refine changesOnly_host ?_ (List.Subset.trans (by decide) hL)
    | fail_if_no_progress with_reducible refine changesOnly_lit ?_ ?_ ?_ ?_ ?_ ?_ ?_ ?_ ?_ ?_ ?_ ?_ ?_ ?_ ?_ ?_ ?_ ?_ ?_ ?_ ?_ ?_ ?_ ?_ ?_ ?_ ?_ ?_ ?_ ?_
    | with_reducible exact .inl rfl
    | exact .inr (hL (by decide)))

theorem decideFailover_frame {L : List Block} {s₀ s₁ : State} (auto : Bool) (hK : changesOnly L s₀ s₁)
    (hL : [.out, .log, .host] ⊆ L) : changesOnly L s₀ (decideFailover auto s₁) := by
  unfold decideFailover
  repeat' (first
    | with_reducible exact hK
    | with_reducible assumption
    | with_reducible exact List.Subset.trans (by decide) hL
    | with_reducible apply reportHost_frame
    | with_reducible apply modCxl_frame
    | with_reducible refine changesOnly_ite ?_ ?_
    | split
    | fail_if_no_progress with_reducible refine changesOnly_out ?_ (List.Subset.trans (by decide) hL)
    | fail_if_no_progress with_reducible refine changesOnly_log ?_ (List.Subset.trans (by decide) hL)
    | fail_if_no_progress with_reducible refine changesOnly_host ?_ (List.Subset.trans (by decide) hL)
    | fail_if_no_progress with_reducible refine changesOnly_lit ?_ ?_ ?_ ?_ ?_ ?_ ?_ ?_ ?_ ?_ ?_ ?_ ?_ ?_ ?_ ?_ ?_ ?_ ?_ ?_ ?_ ?_ ?_ ?_ ?_ ?_ ?_ ?_ ?_ ?_
    | with_reducible exact .inl rfl
    | exact .inr (hL (by decide)))

theorem execTakeOver_frame {s₁ : State} (p : CxlId) :
    ∃ s₂, execTakeOver p s₁ = .next s₂ ∧ changesOnly [.out, .log, .host] s₁ s₂ := by
  have hK : changesOnly [.out, .log, .host] s₁ s₁ := changesOnly_refl
  have hL : ([.out, .log, .host] : List Block) ⊆ [.out, .log, .host] := List.Subset.refl _
  refine ⟨_, rfl, ?_⟩
  repeat' (first
    | with_reducible exact hK
    | with_reducible assumption
    | with_reducible exact List.Subset.trans (by decide) hL
    | with_reducible refine when'_frame _ ?_ (fun _ _ => ?_)
    | with_reducible apply decideFailover_frame)

theorem execFailover_frame {s₁ : State}  :
    ∃ s₂, execFailover s₁ = .next s₂ ∧ changesOnly [.out, .log, .host] s₁ s₂ := by
  have hK : changesOnly [.out, .log, .host] s₁ s₁ := changesOnly_refl
  have hL : ([.out, .log, .host] : List Block) ⊆ [.out, .log, .host] := List.Subset.refl _
  refine ⟨_, rfl, ?_⟩
  repeat' (first
    | with_reducible exact hK
    | with_reducible assumption
    | with_reducible exact List.Subset.trans (by decide) hL
    | with_reducible refine when'_frame _ ?_ (fun _ _ => ?_)
    | with_reducible apply decideFailover_frame)

theorem abandonWrites_frame {L : List Block} {s₀ s₁ : State}  (hK : changesOnly L s₀ s₁)
    (hL : [.ctx] ⊆ L) : changesOnly L s₀ (abandonWrites s₁) := by
  unfold abandonWrites
  repeat' (first
    | with_reducible exact hK
    | with_reducible assumption
    | with_reducible exact List.Subset.trans (by decide) hL
    | with_reducible apply mapCtx_frame)

theorem loseActive_frame {L : List Block} {s₀ s₁ : State}  (hK : changesOnly L s₀ s₁)
    (hL : [.out, .log, .host, .ctx] ⊆ L) : changesOnly L s₀ (loseActive s₁) := by
  unfold loseActive
  repeat' (first
    | with_reducible exact hK
    | with_reducible assumption
    | with_reducible exact List.Subset.trans (by decide) hL
    | with_reducible apply reportHost_frame
    | with_reducible apply modCxl_frame
    | with_reducible apply abandonWrites_frame
    | with_reducible refine changesOnly_ite ?_ ?_
    | split
    | fail_if_no_progress with_reducible refine changesOnly_out ?_ (List.Subset.trans (by decide) hL)
    | fail_if_no_progress with_reducible refine changesOnly_log ?_ (List.Subset.trans (by decide) hL)
    | fail_if_no_progress with_reducible refine changesOnly_host ?_ (List.Subset.trans (by decide) hL)
    | fail_if_no_progress with_reducible refine changesOnly_ctx ?_ (List.Subset.trans (by decide) hL)
    | fail_if_no_progress with_reducible refine changesOnly_lit ?_ ?_ ?_ ?_ ?_ ?_ ?_ ?_ ?_ ?_ ?_ ?_ ?_ ?_ ?_ ?_ ?_ ?_ ?_ ?_ ?_ ?_ ?_ ?_ ?_ ?_ ?_ ?_ ?_ ?_
    | with_reducible exact .inl rfl
    | exact .inr (hL (by decide)))

theorem execActiveLinkDown_frame {s₁ : State}  :
    ∃ s₂, execActiveLinkDown s₁ = .next s₂ ∧ changesOnly [.out, .log, .host, .ctx] s₁ s₂ := by
  have hK : changesOnly [.out, .log, .host, .ctx] s₁ s₁ := changesOnly_refl
  have hL : ([.out, .log, .host, .ctx] : List Block) ⊆ [.out, .log, .host, .ctx] := List.Subset.refl _
  refine ⟨_, rfl, ?_⟩
  repeat' (first
    | with_reducible exact hK
    | with_reducible assumption
    | with_reducible exact List.Subset.trans (by decide) hL
    | with_reducible refine when'_frame _ ?_ (fun _ _ => ?_)
    | with_reducible apply loseActive_frame)

theorem execAutoFailoverTimeout_frame {s₁ : State}  :
    ∃ s₂, execAutoFailoverTimeout s₁ = .next s₂ ∧ changesOnly [.out, .log, .host] s₁ s₂ := by
  have hK : changesOnly [.out, .log, .host] s₁ s₁ := changesOnly_refl
  have hL : ([.out, .log, .host] : List Block) ⊆ [.out, .log, .host] := List.Subset.refl _
  refine ⟨_, rfl, ?_⟩
  repeat' (first
    | with_reducible exact hK
    | with_reducible assumption
    | with_reducible exact List.Subset.trans (by decide) hL
    | with_reducible refine when'_frame _ ?_ (fun _ _ => ?_)
    | with_reducible apply decideFailover_frame
    | with_reducible refine changesOnly_ite ?_ ?_
    | split
    | fail_if_no_progress with_reducible refine changesOnly_out ?_ (List.Subset.trans (by decide) hL)
    | fail_if_no_progress with_reducible refine changesOnly_log ?_ (List.Subset.trans (by decide) hL)
    | fail_if_no_progress with_reducible refine changesOnly_host ?_ (List.Subset.trans (by decide) hL)
    | fail_if_no_progress with_reducible refine changesOnly_lit ?_ ?_ ?_ ?_ ?_ ?_ ?_ ?_ ?_ ?_ ?_ ?_ ?_ ?_ ?_ ?_ ?_ ?_ ?_ ?_ ?_ ?_ ?_ ?_ ?_ ?_ ?_ ?_ ?_ ?_
    | with_reducible exact .inl rfl
    | exact .inr (hL (by decide)))

theorem raiseLink_frame {L : List Block} {s₀ s₁ : State} (p : CxlId) (x4 ide : Bool) (hK : changesOnly L s₀ s₁)
    (hL : [.out, .log, .host] ⊆ L) : changesOnly L s₀ (raiseLink p x4 ide s₁) := by
  unfold raiseLink
  repeat' (first
    | with_reducible exact hK
    | with_reducible assumption
    | with_reducible exact List.Subset.trans (by decide) hL
    | with_reducible apply reportHost_frame
    | with_reducible apply modCxl_frame
    | with_reducible refine changesOnly_ite ?_ ?_
    | split
    | fail_if_no_progress with_reducible refine changesOnly_out ?_ (List.Subset.trans (by decide) hL)
    | fail_if_no_progress with_reducible refine changesOnly_log ?_ (List.Subset.trans (by decide) hL)
    | fail_if_no_progress with_reducible refine changesOnly_host ?_ (List.Subset.trans (by decide) hL)
    | fail_if_no_progress with_reducible refine changesOnly_lit ?_ ?_ ?_ ?_ ?_ ?_ ?_ ?_ ?_ ?_ ?_ ?_ ?_ ?_ ?_ ?_ ?_ ?_ ?_ ?_ ?_ ?_ ?_ ?_ ?_ ?_ ?_ ?_ ?_ ?_
    | with_reducible exact .inl rfl)

theorem retryFailover_frame {L : List Block} {s₀ s₁ : State}  (hK : changesOnly L s₀ s₁)
    (hL : [.out, .log, .host] ⊆ L) : changesOnly L s₀ (retryFailover s₁) := by
  unfold retryFailover
  repeat' (first
    | with_reducible exact hK
    | with_reducible assumption
    | with_reducible exact List.Subset.trans (by decide) hL
    | with_reducible apply decideFailover_frame
    | with_reducible refine changesOnly_ite ?_ ?_
    | split)

theorem execStandbyLinkUp_frame {s₁ : State} (x4 ide : Bool) :
    ∃ s₂, execStandbyLinkUp x4 ide s₁ = .next s₂ ∧ changesOnly [.out, .log, .host] s₁ s₂ := by
  have hK : changesOnly [.out, .log, .host] s₁ s₁ := changesOnly_refl
  have hL : ([.out, .log, .host] : List Block) ⊆ [.out, .log, .host] := List.Subset.refl _
  refine ⟨_, rfl, ?_⟩
  repeat' (first
    | with_reducible exact hK
    | with_reducible assumption
    | with_reducible exact List.Subset.trans (by decide) hL
    | with_reducible refine when'_frame _ ?_ (fun _ _ => ?_)
    | with_reducible apply raiseLink_frame
    | with_reducible apply retryFailover_frame)

theorem execStandbyLinkDown_frame {s₁ : State}  :
    ∃ s₂, execStandbyLinkDown s₁ = .next s₂ ∧ changesOnly [.host] s₁ s₂ := by
  have hK : changesOnly [.host] s₁ s₁ := changesOnly_refl
  have hL : ([.host] : List Block) ⊆ [.host] := List.Subset.refl _
  refine ⟨_, rfl, ?_⟩
  repeat' (first
    | with_reducible exact hK
    | with_reducible assumption
    | with_reducible exact List.Subset.trans (by decide) hL
    | with_reducible apply modCxl_frame)

theorem returnLink_frame {L : List Block} {s₀ s₁ : State} (p : CxlId) (x4 ide : Bool) (hK : changesOnly L s₀ s₁)
    (hL : [.out, .log, .host] ⊆ L) : changesOnly L s₀ (returnLink p x4 ide s₁) := by
  unfold returnLink
  repeat' (first
    | with_reducible exact hK
    | with_reducible assumption
    | with_reducible exact List.Subset.trans (by decide) hL
    | with_reducible apply sendPending_frame
    | with_reducible apply raiseLink_frame
    | with_reducible apply retryFailover_frame
    | with_reducible refine changesOnly_ite ?_ ?_
    | split
    | fail_if_no_progress with_reducible refine changesOnly_out ?_ (List.Subset.trans (by decide) hL)
    | fail_if_no_progress with_reducible refine changesOnly_log ?_ (List.Subset.trans (by decide) hL)
    | fail_if_no_progress with_reducible refine changesOnly_host ?_ (List.Subset.trans (by decide) hL)
    | fail_if_no_progress with_reducible refine changesOnly_lit ?_ ?_ ?_ ?_ ?_ ?_ ?_ ?_ ?_ ?_ ?_ ?_ ?_ ?_ ?_ ?_ ?_ ?_ ?_ ?_ ?_ ?_ ?_ ?_ ?_ ?_ ?_ ?_ ?_ ?_
    | with_reducible exact .inl rfl
    | exact .inr (hL (by decide)))

theorem execActiveLinkReturn_frame {s₁ : State} (p : CxlId) (x4 ide : Bool) :
    ∃ s₂, execActiveLinkReturn p x4 ide s₁ = .next s₂ ∧ changesOnly [.out, .log, .host] s₁ s₂ := by
  have hK : changesOnly [.out, .log, .host] s₁ s₁ := changesOnly_refl
  have hL : ([.out, .log, .host] : List Block) ⊆ [.out, .log, .host] := List.Subset.refl _
  refine ⟨_, rfl, ?_⟩
  repeat' (first
    | with_reducible exact hK
    | with_reducible assumption
    | with_reducible exact List.Subset.trans (by decide) hL
    | with_reducible refine when'_frame _ ?_ (fun _ _ => ?_)
    | with_reducible apply returnLink_frame)

theorem execFailoverRecordsWritten_frame {s₁ : State}  :
    ∃ s₂, execFailoverRecordsWritten s₁ = .next s₂ ∧ changesOnly [.out, .log, .host] s₁ s₂ := by
  have hK : changesOnly [.out, .log, .host] s₁ s₁ := changesOnly_refl
  have hL : ([.out, .log, .host] : List Block) ⊆ [.out, .log, .host] := List.Subset.refl _
  refine ⟨_, rfl, ?_⟩
  repeat' (first
    | with_reducible exact hK
    | with_reducible assumption
    | with_reducible exact List.Subset.trans (by decide) hL
    | with_reducible refine when'_frame _ ?_ (fun _ _ => ?_)
    | with_reducible apply sendPending_frame
    | with_reducible apply reportHost_frame
    | with_reducible refine changesOnly_ite ?_ ?_
    | split
    | fail_if_no_progress with_reducible refine changesOnly_out ?_ (List.Subset.trans (by decide) hL)
    | fail_if_no_progress with_reducible refine changesOnly_log ?_ (List.Subset.trans (by decide) hL)
    | fail_if_no_progress with_reducible refine changesOnly_host ?_ (List.Subset.trans (by decide) hL)
    | fail_if_no_progress with_reducible refine changesOnly_lit ?_ ?_ ?_ ?_ ?_ ?_ ?_ ?_ ?_ ?_ ?_ ?_ ?_ ?_ ?_ ?_ ?_ ?_ ?_ ?_ ?_ ?_ ?_ ?_ ?_ ?_ ?_ ?_ ?_ ?_
    | with_reducible exact .inl rfl
    | exact .inr (hL (by decide)))

theorem execCxlPortReset_frame {s₁ : State} (p : CxlId) :
    ∃ s₂, execCxlPortReset p s₁ = .next s₂ ∧ changesOnly [.out, .log, .host, .ctx] s₁ s₂ := by
  have hK : changesOnly [.out, .log, .host, .ctx] s₁ s₁ := changesOnly_refl
  have hL : ([.out, .log, .host, .ctx] : List Block) ⊆ [.out, .log, .host, .ctx] := List.Subset.refl _
  refine ⟨_, rfl, ?_⟩
  repeat' (first
    | with_reducible exact hK
    | with_reducible assumption
    | with_reducible exact List.Subset.trans (by decide) hL
    | with_reducible apply modCxl_frame
    | with_reducible apply loseActive_frame
    | with_reducible refine changesOnly_ite ?_ ?_
    | split)

theorem execStandbyAccess_frame {s₁ : State} (kind : AccessKind) :
    ∃ s₂, execStandbyAccess kind s₁ = .next s₂ ∧ changesOnly [.out, .log, .host] s₁ s₂ := by
  have hK : changesOnly [.out, .log, .host] s₁ s₁ := changesOnly_refl
  have hL : ([.out, .log, .host] : List Block) ⊆ [.out, .log, .host] := List.Subset.refl _
  refine ⟨_, rfl, ?_⟩
  repeat' (first
    | with_reducible exact hK
    | with_reducible assumption
    | with_reducible exact List.Subset.trans (by decide) hL
    | with_reducible refine when'_frame _ ?_ (fun _ _ => ?_)
    | with_reducible apply emit_frame
    | with_reducible apply reportHost_frame
    | with_reducible refine changesOnly_ite ?_ ?_
    | split
    | fail_if_no_progress with_reducible refine changesOnly_out ?_ (List.Subset.trans (by decide) hL)
    | fail_if_no_progress with_reducible refine changesOnly_log ?_ (List.Subset.trans (by decide) hL)
    | fail_if_no_progress with_reducible refine changesOnly_host ?_ (List.Subset.trans (by decide) hL)
    | fail_if_no_progress with_reducible refine changesOnly_lit ?_ ?_ ?_ ?_ ?_ ?_ ?_ ?_ ?_ ?_ ?_ ?_ ?_ ?_ ?_ ?_ ?_ ?_ ?_ ?_ ?_ ?_ ?_ ?_ ?_ ?_ ?_ ?_ ?_ ?_
    | with_reducible exact .inl rfl
    | exact .inr (hL (by decide)))

theorem execHdmAccessOutside_frame {s₁ : State} (offset : BitVec 41) (kind : AccessKind) :
    ∃ s₂, execHdmAccessOutside offset kind s₁ = .next s₂ ∧ changesOnly [.out, .log, .host] s₁ s₂ := by
  have hK : changesOnly [.out, .log, .host] s₁ s₁ := changesOnly_refl
  have hL : ([.out, .log, .host] : List Block) ⊆ [.out, .log, .host] := List.Subset.refl _
  refine ⟨_, rfl, ?_⟩
  repeat' (first
    | with_reducible exact hK
    | with_reducible assumption
    | with_reducible exact List.Subset.trans (by decide) hL
    | with_reducible refine when'_frame _ ?_ (fun _ _ => ?_)
    | with_reducible apply emit_frame
    | with_reducible apply countOutside_frame)

theorem execDoeDiscovery_frame {s₁ : State} (p : CxlId) (index : Byte) :
    ∃ s₂, execDoeDiscovery p index s₁ = .next s₂ ∧ changesOnly [.out] s₁ s₂ := by
  have hK : changesOnly [.out] s₁ s₁ := changesOnly_refl
  have hL : ([.out] : List Block) ⊆ [.out] := List.Subset.refl _
  refine ⟨_, rfl, ?_⟩
  repeat' (first
    | with_reducible exact hK
    | with_reducible assumption
    | with_reducible exact List.Subset.trans (by decide) hL
    | with_reducible refine when'_frame _ ?_ (fun _ _ => ?_)
    | with_reducible apply emit_frame)

theorem execCdatTableAccess_frame {s₁ : State} (p : CxlId) :
    ∃ s₂, execCdatTableAccess p s₁ = .next s₂ ∧ changesOnly [.out] s₁ s₂ := by
  have hK : changesOnly [.out] s₁ s₁ := changesOnly_refl
  have hL : ([.out] : List Block) ⊆ [.out] := List.Subset.refl _
  refine ⟨_, rfl, ?_⟩
  repeat' (first
    | with_reducible exact hK
    | with_reducible assumption
    | with_reducible exact List.Subset.trans (by decide) hL
    | with_reducible refine when'_frame _ ?_ (fun _ _ => ?_)
    | with_reducible apply emit_frame)

theorem execIdeKm_frame {s₁ : State} (p : CxlId) (exchange : Bytes) :
    ∃ s₂, execIdeKm p exchange s₁ = .next s₂ ∧ changesOnly [.out, .log, .host] s₁ s₂ := by
  have hK : changesOnly [.out, .log, .host] s₁ s₁ := changesOnly_refl
  have hL : ([.out, .log, .host] : List Block) ⊆ [.out, .log, .host] := List.Subset.refl _
  refine ⟨_, rfl, ?_⟩
  repeat' (first
    | with_reducible exact hK
    | with_reducible assumption
    | with_reducible exact List.Subset.trans (by decide) hL
    | with_reducible refine when'_frame _ ?_ (fun _ _ => ?_)
    | with_reducible apply modCxl_frame
    | with_reducible apply retryFailover_frame
    | with_reducible refine changesOnly_ite ?_ ?_
    | split
    | fail_if_no_progress with_reducible refine changesOnly_out ?_ (List.Subset.trans (by decide) hL)
    | fail_if_no_progress with_reducible refine changesOnly_log ?_ (List.Subset.trans (by decide) hL)
    | fail_if_no_progress with_reducible refine changesOnly_host ?_ (List.Subset.trans (by decide) hL)
    | fail_if_no_progress with_reducible refine changesOnly_lit ?_ ?_ ?_ ?_ ?_ ?_ ?_ ?_ ?_ ?_ ?_ ?_ ?_ ?_ ?_ ?_ ?_ ?_ ?_ ?_ ?_ ?_ ?_ ?_ ?_ ?_ ?_ ?_ ?_ ?_
    | with_reducible exact .inl rfl)

end Sys2Proof.Machine
end

