-- ==== Sys2Proof/Laws/FrameContexts.lean ====
section
/-! SUPPORT. The frames of the operations and commands of Contexts (Laws/Frame.lean). -/

namespace Sys2Proof.Machine

set_option linter.all false
set_option Elab.async false

open Sys2Proof

theorem takeRequest_frame {L : List Block} {s₀ s₁ : State} (op : Nat) (i : Slot) (req : Bytes) (hK : changesOnly L s₀ s₁)
    (hL : [.sec] ⊆ L) : changesOnly L s₀ (takeRequest op i req s₁) := by
  unfold takeRequest
  repeat' (first
    | with_reducible exact hK
    | with_reducible assumption
    | with_reducible exact List.Subset.trans (by decide) hL
    | with_reducible refine changesOnly_ite ?_ ?_
    | split
    | fail_if_no_progress with_reducible refine changesOnly_sec ?_ (List.Subset.trans (by decide) hL)
    | fail_if_no_progress with_reducible refine changesOnly_lit ?_ ?_ ?_ ?_ ?_ ?_ ?_ ?_ ?_ ?_ ?_ ?_ ?_ ?_ ?_ ?_ ?_ ?_ ?_ ?_ ?_ ?_ ?_ ?_ ?_ ?_ ?_ ?_ ?_ ?_
    | with_reducible exact .inl rfl
    | exact Or.inr (hL (by decide)))

theorem respond_frame {L : List Block} {s₀ s₁ : State} (code : Code) (body : Bytes) (hK : changesOnly L s₀ s₁)
    (hL : [.sec] ⊆ L) : changesOnly L s₀ (respond code body s₁) := by
  unfold respond
  repeat' (first
    | with_reducible exact hK
    | with_reducible assumption
    | with_reducible exact List.Subset.trans (by decide) hL
    | with_reducible refine changesOnly_ite ?_ ?_
    | split
    | fail_if_no_progress with_reducible refine changesOnly_sec ?_ (List.Subset.trans (by decide) hL)
    | fail_if_no_progress with_reducible refine changesOnly_lit ?_ ?_ ?_ ?_ ?_ ?_ ?_ ?_ ?_ ?_ ?_ ?_ ?_ ?_ ?_ ?_ ?_ ?_ ?_ ?_ ?_ ?_ ?_ ?_ ?_ ?_ ?_ ?_ ?_ ?_
    | with_reducible exact .inl rfl
    | exact Or.inr (hL (by decide)))

theorem refuseRequest_frame {L : List Block} {s₀ s₁ : State} (i : Slot) (code : Code) (hK : changesOnly L s₀ s₁)
    (hL : [.out, .log, .host, .sec] ⊆ L) : changesOnly L s₀ (refuseRequest i code s₁) := by
  unfold refuseRequest
  repeat' (first
    | with_reducible exact hK
    | with_reducible assumption
    | with_reducible exact List.Subset.trans (by decide) hL
    | with_reducible apply report_frame
    | with_reducible apply respond_frame)

theorem serveRequest_frame {L : List Block} {s₀ s₁ : State} (op : Nat) {f : Slot → Bytes → State → Answer × State}
    (i : Slot) (req : Bytes) (hK : changesOnly L s₀ s₁) (hf : changesOnly L s₀ (f i req s₁).2)
    (hL : [.out, .log, .host, .sec] ⊆ L) : changesOnly L s₀ (serveRequest op f i req s₁) := by
  unfold serveRequest
  generalize f i req s₁ = r at hf
  obtain ⟨a, t⟩ := r
  split
  · exact refuseRequest_frame _ _ hK (List.Subset.trans (by decide) hL)
  · cases a
    · exact refuseRequest_frame _ _ hf (List.Subset.trans (by decide) hL)
    · exact respond_frame _ _ hf (List.Subset.trans (by decide) hL)
    · exact hf

theorem mailbox_frame {L : List Block} {s₀ s₁ : State} (op : Nat) {f : Slot → Bytes → State → Answer × State} (i : Slot)
    (req : Bytes) (hK : changesOnly L s₀ s₁) (hf : ∀ y, changesOnly L s₀ y → changesOnly L s₀ (f i req y).2)
    (hL : [.out, .log, .host, .sec] ⊆ L) : changesOnly L s₀ (mailbox op f i req s₁) := by
  unfold mailbox
  dsimp only
  split
  · exact hK
  · have h2 := takeRequest_frame op i req hK (List.Subset.trans (by decide) hL)
    generalize takeRequest op i req s₁ = u at h2
    split
    · exact changesOnly_trans h2 ⟨rfl, fun b hb => by
        cases b <;> first | exact absurd (hL (by decide)) hb | rfl⟩
    · exact serveRequest_frame op i req h2 (hf _ h2) (List.Subset.trans (by decide) hL)

theorem openSlot_frame {L : List Block} {s₀ s₁ : State} (i : Slot) (fp : Bytes) (stack hdm : Nat) (hK : changesOnly L s₀ s₁)
    (hL : [.free, .out, .log, .host, .ctx] ⊆ L) : changesOnly L s₀ (openSlot i fp stack hdm s₁) := by
  unfold openSlot
  repeat' (first
    | with_reducible exact hK
    | with_reducible assumption
    | with_reducible exact List.Subset.trans (by decide) hL
    | with_reducible refine foldl_frame ?_ (fun _ _ _ => ?_)
    | with_reducible refine foldl_fst_frame ?_ (fun _ _ _ => ?_)
    | with_reducible apply modCtx_frame
    | with_reducible apply drawNext_frame
    | with_reducible apply latchQueue_frame)

theorem openRequest_frame {L : List Block} {s₀ s₁ : State} (i : Slot) (req : Bytes) (hK : changesOnly L s₀ s₁)
    (hL : [.free, .out, .log, .host, .ctx] ⊆ L) : changesOnly L s₀ (openRequest i req s₁).2 := by
  unfold openRequest
  repeat' (first
    | with_reducible exact hK
    | with_reducible assumption
    | with_reducible exact List.Subset.trans (by decide) hL
    | with_reducible apply openSlot_frame
    | dsimp only
    | with_reducible refine changesOnly_ite ?_ ?_
    | split)

theorem execOpenContext_frame {s₁ : State} (i : Slot) (req : Bytes) :
    ∃ s₂, execOpenContext i req s₁ = .next s₂ ∧ changesOnly [.free, .out, .log, .host, .ctx, .sec] s₁ s₂ := by
  have hK : changesOnly [.free, .out, .log, .host, .ctx, .sec] s₁ s₁ := changesOnly_refl
  have hL : ([.free, .out, .log, .host, .ctx, .sec] : List Block) ⊆ [.free, .out, .log, .host, .ctx, .sec] := List.Subset.refl _
  refine ⟨_, rfl, ?_⟩
  repeat' (first
    | with_reducible exact hK
    | with_reducible assumption
    | with_reducible exact List.Subset.trans (by decide) hL
    | with_reducible refine mailbox_frame _ _ _ ?_ (fun _ _ => ?_) ?_
    | with_reducible apply openRequest_frame)

theorem startFill_frame {L : List Block} {s₀ s₁ : State} (i : Slot) (gib : Nat) (zeroFill fresh : Bool) (hK : changesOnly L s₀ s₁)
    (hL : [.free, .sec] ⊆ L) : changesOnly L s₀ (startFill i gib zeroFill fresh s₁) := by
  unfold startFill
  repeat' (first
    | with_reducible exact hK
    | with_reducible assumption
    | with_reducible exact List.Subset.trans (by decide) hL
    | with_reducible apply drawNext_frame
    | with_reducible refine changesOnly_ite ?_ ?_
    | split
    | fail_if_no_progress with_reducible refine changesOnly_free ?_ (List.Subset.trans (by decide) hL)
    | fail_if_no_progress with_reducible refine changesOnly_sec ?_ (List.Subset.trans (by decide) hL)
    | fail_if_no_progress with_reducible refine changesOnly_lit ?_ ?_ ?_ ?_ ?_ ?_ ?_ ?_ ?_ ?_ ?_ ?_ ?_ ?_ ?_ ?_ ?_ ?_ ?_ ?_ ?_ ?_ ?_ ?_ ?_ ?_ ?_ ?_ ?_ ?_
    | with_reducible exact .inl rfl
    | exact Or.inr (hL (by decide)))

theorem closeNow_frame {L : List Block} {s₀ s₁ : State} (i : Slot) (zeroFill fresh : Bool) (hK : changesOnly L s₀ s₁)
    (hL : [.free, .out, .log, .host, .ctx, .sec, .loader, .mem] ⊆ L) : changesOnly L s₀ (closeNow i zeroFill fresh s₁) := by
  unfold closeNow
  repeat' (first
    | with_reducible exact hK
    | with_reducible assumption
    | with_reducible exact List.Subset.trans (by decide) hL
    | with_reducible apply destroyCtx_frame
    | with_reducible apply startFill_frame)

theorem withdrawColls_frame {L : List Block} {s₀ s₁ : State} (i : Slot) (hK : changesOnly L s₀ s₁)
    (hL : [.out, .log, .host, .ctx, .coll] ⊆ L) : changesOnly L s₀ (withdrawColls i s₁) := by
  unfold withdrawColls
  repeat' (first
    | with_reducible exact hK
    | with_reducible assumption
    | with_reducible exact List.Subset.trans (by decide) hL
    | with_reducible apply endReduction_frame
    | with_reducible apply abortColls_frame)

theorem endGrace_frame {L : List Block} {s₀ s₁ : State} (i : Slot) (hK : changesOnly L s₀ s₁)
    (hL : [.out, .log, .host, .ctx, .installed, .tiles, .links, .signals] ⊆ L) : changesOnly L s₀ (endGrace i s₁) := by
  unfold endGrace
  repeat' (first
    | with_reducible exact hK
    | with_reducible assumption
    | with_reducible exact List.Subset.trans (by decide) hL
    | with_reducible apply endOthers_frame
    | with_reducible apply dropLoads_frame
    | split
    | fail_if_no_progress with_reducible refine changesOnly_lit ?_ ?_ ?_ ?_ ?_ ?_ ?_ ?_ ?_ ?_ ?_ ?_ ?_ ?_ ?_ ?_ ?_ ?_ ?_ ?_ ?_ ?_ ?_ ?_ ?_ ?_ ?_ ?_ ?_ ?_
    | with_reducible exact .inl rfl
    | exact Or.inr (hL (by decide))
    | dsimp only)

theorem beginHandOver_frame {L : List Block} {s₀ s₁ : State} (h : HandOver) (hK : changesOnly L s₀ s₁)
    (hL : [.out, .log, .host, .ctx, .sec, .coll] ⊆ L) : changesOnly L s₀ (beginHandOver h s₁) := by
  unfold beginHandOver
  repeat' (first
    | with_reducible exact hK
    | with_reducible assumption
    | with_reducible exact List.Subset.trans (by decide) hL
    | with_reducible apply withdrawColls_frame
    | with_reducible refine changesOnly_ite ?_ ?_
    | split
    | fail_if_no_progress with_reducible refine changesOnly_out ?_ (List.Subset.trans (by decide) hL)
    | fail_if_no_progress with_reducible refine changesOnly_log ?_ (List.Subset.trans (by decide) hL)
    | fail_if_no_progress with_reducible refine changesOnly_host ?_ (List.Subset.trans (by decide) hL)
    | fail_if_no_progress with_reducible refine changesOnly_ctx ?_ (List.Subset.trans (by decide) hL)
    | fail_if_no_progress with_reducible refine changesOnly_sec ?_ (List.Subset.trans (by decide) hL)
    | fail_if_no_progress with_reducible refine changesOnly_coll ?_ (List.Subset.trans (by decide) hL)
    | fail_if_no_progress with_reducible refine changesOnly_lit ?_ ?_ ?_ ?_ ?_ ?_ ?_ ?_ ?_ ?_ ?_ ?_ ?_ ?_ ?_ ?_ ?_ ?_ ?_ ?_ ?_ ?_ ?_ ?_ ?_ ?_ ?_ ?_ ?_ ?_
    | with_reducible exact .inl rfl
    | exact Or.inr (hL (by decide)))

theorem closeSlot_frame {L : List Block} {s₀ s₁ : State} (asker : Asker) (i : Slot) (zeroFill : Bool) (hK : changesOnly L s₀ s₁)
    (hL : [.free, .out, .log, .host, .ctx, .sec, .loader, .installed, .tiles, .links, .signals, .mem, .coll] ⊆ L) : changesOnly L s₀ (closeSlot asker i zeroFill s₁).2 := by
  unfold closeSlot
  repeat' (first
    | with_reducible exact hK
    | with_reducible assumption
    | with_reducible exact List.Subset.trans (by decide) hL
    | with_reducible apply closeNow_frame
    | with_reducible apply endGrace_frame
    | with_reducible apply beginHandOver_frame
    | dsimp only
    | split
    | fail_if_no_progress with_reducible refine changesOnly_lit ?_ ?_ ?_ ?_ ?_ ?_ ?_ ?_ ?_ ?_ ?_ ?_ ?_ ?_ ?_ ?_ ?_ ?_ ?_ ?_ ?_ ?_ ?_ ?_ ?_ ?_ ?_ ?_ ?_ ?_
    | with_reducible exact .inl rfl
    | exact Or.inr (hL (by decide)))

theorem switchSlot_frame {L : List Block} {s₀ s₁ : State} (asker : Asker) (i : Slot) (grace : Nat) (hK : changesOnly L s₀ s₁)
    (hL : [.out, .log, .host, .ctx, .sec, .installed, .tiles, .links, .signals, .coll] ⊆ L) : changesOnly L s₀ (switchSlot asker i grace s₁).2 := by
  unfold switchSlot
  repeat' (first
    | with_reducible exact hK
    | with_reducible assumption
    | with_reducible exact List.Subset.trans (by decide) hL
    | with_reducible apply endGrace_frame
    | with_reducible apply beginHandOver_frame
    | dsimp only
    | split
    | fail_if_no_progress with_reducible refine changesOnly_lit ?_ ?_ ?_ ?_ ?_ ?_ ?_ ?_ ?_ ?_ ?_ ?_ ?_ ?_ ?_ ?_ ?_ ?_ ?_ ?_ ?_ ?_ ?_ ?_ ?_ ?_ ?_ ?_ ?_ ?_
    | with_reducible exact .inl rfl
    | exact Or.inr (hL (by decide)))

theorem closeRequest_frame {L : List Block} {s₀ s₁ : State} (asker : Asker) (i : Slot) (req : Bytes) (hK : changesOnly L s₀ s₁)
    (hL : [.free, .out, .log, .host, .ctx, .sec, .loader, .installed, .tiles, .links, .signals, .mem, .coll] ⊆ L) : changesOnly L s₀ (closeRequest asker i req s₁).2 := by
  unfold closeRequest
  repeat' (first
    | with_reducible exact hK
    | with_reducible assumption
    | with_reducible exact List.Subset.trans (by decide) hL
    | with_reducible apply closeSlot_frame
    | dsimp only
    | split
    | fail_if_no_progress with_reducible refine changesOnly_lit ?_ ?_ ?_ ?_ ?_ ?_ ?_ ?_ ?_ ?_ ?_ ?_ ?_ ?_ ?_ ?_ ?_ ?_ ?_ ?_ ?_ ?_ ?_ ?_ ?_ ?_ ?_ ?_ ?_ ?_
    | with_reducible exact .inl rfl
    | exact Or.inr (hL (by decide)))

theorem execCloseContext_frame {s₁ : State} (i : Slot) (req : Bytes) :
    ∃ s₂, execCloseContext i req s₁ = .next s₂ ∧ changesOnly [.free, .out, .log, .host, .ctx, .sec, .loader, .installed, .tiles, .links, .signals, .mem, .coll] s₁ s₂ := by
  have hK : changesOnly [.free, .out, .log, .host, .ctx, .sec, .loader, .installed, .tiles, .links, .signals, .mem, .coll] s₁ s₁ := changesOnly_refl
  have hL : ([.free, .out, .log, .host, .ctx, .sec, .loader, .installed, .tiles, .links, .signals, .mem, .coll] : List Block) ⊆ [.free, .out, .log, .host, .ctx, .sec, .loader, .installed, .tiles, .links, .signals, .mem, .coll] := List.Subset.refl _
  refine ⟨_, rfl, ?_⟩
  repeat' (first
    | with_reducible exact hK
    | with_reducible assumption
    | with_reducible exact List.Subset.trans (by decide) hL
    | with_reducible refine mailbox_frame _ _ _ ?_ (fun _ _ => ?_) ?_
    | with_reducible apply closeRequest_frame
    | split
    | fail_if_no_progress with_reducible refine changesOnly_lit ?_ ?_ ?_ ?_ ?_ ?_ ?_ ?_ ?_ ?_ ?_ ?_ ?_ ?_ ?_ ?_ ?_ ?_ ?_ ?_ ?_ ?_ ?_ ?_ ?_ ?_ ?_ ?_ ?_ ?_
    | with_reducible exact .inl rfl
    | exact Or.inr (hL (by decide))
    | dsimp only)

theorem switchRequest_frame {L : List Block} {s₀ s₁ : State} (asker : Asker) (i : Slot) (req : Bytes) (hK : changesOnly L s₀ s₁)
    (hL : [.out, .log, .host, .ctx, .sec, .installed, .tiles, .links, .signals, .coll] ⊆ L) : changesOnly L s₀ (switchRequest asker i req s₁).2 := by
  unfold switchRequest
  repeat' (first
    | with_reducible exact hK
    | with_reducible assumption
    | with_reducible exact List.Subset.trans (by decide) hL
    | with_reducible apply switchSlot_frame
    | dsimp only
    | split
    | fail_if_no_progress with_reducible refine changesOnly_lit ?_ ?_ ?_ ?_ ?_ ?_ ?_ ?_ ?_ ?_ ?_ ?_ ?_ ?_ ?_ ?_ ?_ ?_ ?_ ?_ ?_ ?_ ?_ ?_ ?_ ?_ ?_ ?_ ?_ ?_
    | with_reducible exact .inl rfl
    | exact Or.inr (hL (by decide)))

theorem execSwitchContext_frame {s₁ : State} (i : Slot) (req : Bytes) :
    ∃ s₂, execSwitchContext i req s₁ = .next s₂ ∧ changesOnly [.out, .log, .host, .ctx, .sec, .installed, .tiles, .links, .signals, .coll] s₁ s₂ := by
  have hK : changesOnly [.out, .log, .host, .ctx, .sec, .installed, .tiles, .links, .signals, .coll] s₁ s₁ := changesOnly_refl
  have hL : ([.out, .log, .host, .ctx, .sec, .installed, .tiles, .links, .signals, .coll] : List Block) ⊆ [.out, .log, .host, .ctx, .sec, .installed, .tiles, .links, .signals, .coll] := List.Subset.refl _
  refine ⟨_, rfl, ?_⟩
  repeat' (first
    | with_reducible exact hK
    | with_reducible assumption
    | with_reducible exact List.Subset.trans (by decide) hL
    | with_reducible refine mailbox_frame _ _ _ ?_ (fun _ _ => ?_) ?_
    | with_reducible apply switchRequest_frame
    | split
    | fail_if_no_progress with_reducible refine changesOnly_lit ?_ ?_ ?_ ?_ ?_ ?_ ?_ ?_ ?_ ?_ ?_ ?_ ?_ ?_ ?_ ?_ ?_ ?_ ?_ ?_ ?_ ?_ ?_ ?_ ?_ ?_ ?_ ?_ ?_ ?_
    | with_reducible exact .inl rfl
    | exact Or.inr (hL (by decide))
    | dsimp only)

theorem execGraceExpire_frame {s₁ : State}  :
    ∃ s₂, execGraceExpire s₁ = .next s₂ ∧ changesOnly [.out, .log, .host, .ctx, .installed, .tiles, .links, .signals] s₁ s₂ := by
  have hK : changesOnly [.out, .log, .host, .ctx, .installed, .tiles, .links, .signals] s₁ s₁ := changesOnly_refl
  have hL : ([.out, .log, .host, .ctx, .installed, .tiles, .links, .signals] : List Block) ⊆ [.out, .log, .host, .ctx, .installed, .tiles, .links, .signals] := List.Subset.refl _
  refine ⟨_, rfl, ?_⟩
  repeat' (first
    | with_reducible exact hK
    | with_reducible assumption
    | with_reducible exact List.Subset.trans (by decide) hL
    | with_reducible apply endGrace_frame
    | split
    | fail_if_no_progress with_reducible refine changesOnly_lit ?_ ?_ ?_ ?_ ?_ ?_ ?_ ?_ ?_ ?_ ?_ ?_ ?_ ?_ ?_ ?_ ?_ ?_ ?_ ?_ ?_ ?_ ?_ ?_ ?_ ?_ ?_ ?_ ?_ ?_
    | with_reducible exact .inl rfl
    | exact Or.inr (hL (by decide))
    | dsimp only)

theorem curtainRow_frame {L : List Block} {s₀ s₁ : State} (kind : Nat) (t : TileId) (bank row : Nat) (hK : changesOnly L s₀ s₁)
    (hL : [.out, .log, .host, .ctx, .loader, .installed, .tiles, .dies, .links, .signals, .defects, .mem, .coll] ⊆ L) : changesOnly L s₀ (curtainRow s₁ kind t bank row) := by
  unfold curtainRow
  repeat' (first
    | with_reducible exact hK
    | with_reducible assumption
    | with_reducible exact List.Subset.trans (by decide) hL
    | with_reducible apply report_frame
    | with_reducible apply addEntry_frame
    | split
    | fail_if_no_progress with_reducible refine changesOnly_lit ?_ ?_ ?_ ?_ ?_ ?_ ?_ ?_ ?_ ?_ ?_ ?_ ?_ ?_ ?_ ?_ ?_ ?_ ?_ ?_ ?_ ?_ ?_ ?_ ?_ ?_ ?_ ?_ ?_ ?_
    | with_reducible exact .inl rfl
    | exact Or.inr (hL (by decide))
    | dsimp only)

theorem curtainBad_frame {L : List Block} {s₀ s₁ : State} (x : Part) (hK : changesOnly L s₀ s₁)
    (hL : [.out, .log, .host, .ctx, .loader, .installed, .tiles, .dies, .links, .signals, .defects, .mem, .coll] ⊆ L) : changesOnly L s₀ (curtainBad s₁ x) := by
  cases x <;> unfold curtainBad
  case tileRow =>
    dsimp only
    split
    · exact curtainRow_frame _ _ _ _ hK (List.Subset.trans (by decide) hL)
    · exact hK
  case deckRow => exact curtainRow_frame _ _ _ _ hK (List.Subset.trans (by decide) hL)
  all_goals exact hK

theorem zeroStores_frame {L : List Block} {s₀ s₁ : State}  (hK : changesOnly L s₀ s₁)
    (hL : [.installed, .tiles, .signals, .mem, .ports] ⊆ L) : changesOnly L s₀ (zeroStores s₁) := by
  unfold zeroStores
  repeat' (first
    | with_reducible exact hK
    | with_reducible assumption
    | with_reducible exact List.Subset.trans (by decide) hL
    | with_reducible apply mapPorts_frame
    | with_reducible apply mapTiles_frame
    | with_reducible refine changesOnly_ite ?_ ?_
    | split
    | fail_if_no_progress with_reducible refine changesOnly_installed ?_ (List.Subset.trans (by decide) hL)
    | fail_if_no_progress with_reducible refine changesOnly_tiles ?_ (List.Subset.trans (by decide) hL)
    | fail_if_no_progress with_reducible refine changesOnly_signals ?_ (List.Subset.trans (by decide) hL)
    | fail_if_no_progress with_reducible refine changesOnly_mem ?_ (List.Subset.trans (by decide) hL)
    | fail_if_no_progress with_reducible refine changesOnly_ports ?_ (List.Subset.trans (by decide) hL)
    | fail_if_no_progress with_reducible refine changesOnly_lit ?_ ?_ ?_ ?_ ?_ ?_ ?_ ?_ ?_ ?_ ?_ ?_ ?_ ?_ ?_ ?_ ?_ ?_ ?_ ?_ ?_ ?_ ?_ ?_ ?_ ?_ ?_ ?_ ?_ ?_
    | with_reducible exact .inl rfl
    | exact Or.inr (hL (by decide)))

theorem leaveChart_frame {L : List Block} {s₀ s₁ : State} (i : Slot) (hK : changesOnly L s₀ s₁)
    (hL : [.loader] ⊆ L) : changesOnly L s₀ (leaveChart i s₁) := by
  unfold leaveChart
  repeat' (first
    | with_reducible exact hK
    | with_reducible assumption
    | with_reducible exact List.Subset.trans (by decide) hL
    | with_reducible apply modSlot_frame)

theorem drawCurtain_frame {L : List Block} {s₀ s₁ : State}  (hK : changesOnly L s₀ s₁)
    (hL : [.free, .sec, .power] ⊆ L) : changesOnly L s₀ (drawCurtain s₁) := by
  unfold drawCurtain
  repeat' (first
    | with_reducible exact hK
    | with_reducible assumption
    | with_reducible exact List.Subset.trans (by decide) hL
    | with_reducible apply drawNext_frame
    | with_reducible apply seedBallast_frame
    | split
    | fail_if_no_progress with_reducible refine changesOnly_lit ?_ ?_ ?_ ?_ ?_ ?_ ?_ ?_ ?_ ?_ ?_ ?_ ?_ ?_ ?_ ?_ ?_ ?_ ?_ ?_ ?_ ?_ ?_ ?_ ?_ ?_ ?_ ?_ ?_ ?_
    | with_reducible exact .inl rfl
    | exact Or.inr (hL (by decide))
    | dsimp only)

theorem startCurtain_frame {L : List Block} {s₀ s₁ : State} (h : HandOver) (bad : List Part) (hK : changesOnly L s₀ s₁)
    (hL : [.free, .out, .log, .host, .ctx, .sec, .loader, .installed, .tiles, .dies, .links, .signals, .defects, .mem, .power, .ports, .coll] ⊆ L) : changesOnly L s₀ (startCurtain h bad s₁) := by
  unfold startCurtain
  repeat' (first
    | with_reducible exact hK
    | with_reducible assumption
    | with_reducible exact List.Subset.trans (by decide) hL
    | with_reducible refine foldl_frame ?_ (fun _ _ _ => ?_)
    | with_reducible refine foldl_fst_frame ?_ (fun _ _ _ => ?_)
    | with_reducible apply modCtx_frame
    | with_reducible apply mapPorts_frame
    | with_reducible apply report_frame
    | with_reducible apply curtainBad_frame
    | with_reducible apply zeroStores_frame
    | with_reducible apply leaveChart_frame
    | with_reducible apply drawCurtain_frame
    | split
    | fail_if_no_progress with_reducible refine changesOnly_lit ?_ ?_ ?_ ?_ ?_ ?_ ?_ ?_ ?_ ?_ ?_ ?_ ?_ ?_ ?_ ?_ ?_ ?_ ?_ ?_ ?_ ?_ ?_ ?_ ?_ ?_ ?_ ?_ ?_ ?_
    | with_reducible exact .inl rfl
    | exact Or.inr (hL (by decide))
    | dsimp only)

theorem execCurtainStart_frame {s₁ : State} (bad : List Part) :
    ∃ s₂, execCurtainStart bad s₁ = .next s₂ ∧ changesOnly [.free, .out, .log, .host, .ctx, .sec, .loader, .installed, .tiles, .dies, .links, .signals, .defects, .mem, .power, .ports, .coll] s₁ s₂ := by
  have hK : changesOnly [.free, .out, .log, .host, .ctx, .sec, .loader, .installed, .tiles, .dies, .links, .signals, .defects, .mem, .power, .ports, .coll] s₁ s₁ := changesOnly_refl
  have hL : ([.free, .out, .log, .host, .ctx, .sec, .loader, .installed, .tiles, .dies, .links, .signals, .defects, .mem, .power, .ports, .coll] : List Block) ⊆ [.free, .out, .log, .host, .ctx, .sec, .loader, .installed, .tiles, .dies, .links, .signals, .defects, .mem, .power, .ports, .coll] := List.Subset.refl _
  refine ⟨_, rfl, ?_⟩
  repeat' (first
    | with_reducible exact hK
    | with_reducible assumption
    | with_reducible exact List.Subset.trans (by decide) hL
    | with_reducible apply startCurtain_frame
    | split
    | fail_if_no_progress with_reducible refine changesOnly_lit ?_ ?_ ?_ ?_ ?_ ?_ ?_ ?_ ?_ ?_ ?_ ?_ ?_ ?_ ?_ ?_ ?_ ?_ ?_ ?_ ?_ ?_ ?_ ?_ ?_ ?_ ?_ ?_ ?_ ?_
    | with_reducible exact .inl rfl
    | exact Or.inr (hL (by decide))
    | dsimp only)

theorem finishDebug_frame {L : List Block} {s₀ s₁ : State}  (hK : changesOnly L s₀ s₁)
    (hL : [.out, .ident, .log, .host, .sec] ⊆ L) : changesOnly L s₀ (finishDebug s₁) := by
  unfold finishDebug
  repeat' (first
    | with_reducible exact hK
    | with_reducible assumption
    | with_reducible exact List.Subset.trans (by decide) hL
    | with_reducible apply emit_frame
    | with_reducible apply report_frame
    | with_reducible apply deriveKeys_frame
    | with_reducible refine changesOnly_ite ?_ ?_
    | split
    | fail_if_no_progress with_reducible refine changesOnly_out ?_ (List.Subset.trans (by decide) hL)
    | fail_if_no_progress with_reducible refine changesOnly_ident ?_ (List.Subset.trans (by decide) hL)
    | fail_if_no_progress with_reducible refine changesOnly_log ?_ (List.Subset.trans (by decide) hL)
    | fail_if_no_progress with_reducible refine changesOnly_host ?_ (List.Subset.trans (by decide) hL)
    | fail_if_no_progress with_reducible refine changesOnly_sec ?_ (List.Subset.trans (by decide) hL)
    | fail_if_no_progress with_reducible refine changesOnly_lit ?_ ?_ ?_ ?_ ?_ ?_ ?_ ?_ ?_ ?_ ?_ ?_ ?_ ?_ ?_ ?_ ?_ ?_ ?_ ?_ ?_ ?_ ?_ ?_ ?_ ?_ ?_ ?_ ?_ ?_
    | with_reducible exact .inl rfl
    | exact Or.inr (hL (by decide)))

theorem answerHandOver_frame {L : List Block} {s₀ s₁ : State} (h : HandOver) (hK : changesOnly L s₀ s₁)
    (hL : [.out, .ident, .log, .host, .sec] ⊆ L) : changesOnly L s₀ (answerHandOver h s₁) := by
  unfold answerHandOver
  repeat' (first
    | with_reducible exact hK
    | with_reducible assumption
    | with_reducible exact List.Subset.trans (by decide) hL
    | with_reducible apply emit_frame
    | with_reducible apply respond_frame
    | with_reducible refine mailbox_frame _ _ _ ?_ (fun _ _ => ?_) ?_
    | with_reducible apply finishDebug_frame
    | with_reducible refine changesOnly_ite ?_ ?_
    | split)

theorem settleOutgoing_frame {L : List Block} {s₀ s₁ : State} (h : HandOver) (hK : changesOnly L s₀ s₁)
    (hL : [.free, .out, .log, .host, .ctx, .sec, .loader, .mem] ⊆ L) : changesOnly L s₀ (settleOutgoing h s₁) := by
  unfold settleOutgoing
  repeat' (first
    | with_reducible exact hK
    | with_reducible assumption
    | with_reducible exact List.Subset.trans (by decide) hL
    | with_reducible apply modCtx_frame
    | with_reducible apply closeNow_frame
    | with_reducible refine changesOnly_ite ?_ ?_
    | split)

theorem dropUnused_frame {L : List Block} {s₀ s₁ : State} (h : HandOver) (hK : changesOnly L s₀ s₁)
    (hL : [.dies, .mem] ⊆ L) : changesOnly L s₀ (dropUnused h s₁) := by
  unfold dropUnused
  repeat' (first
    | with_reducible exact hK
    | with_reducible assumption
    | with_reducible exact List.Subset.trans (by decide) hL
    | with_reducible apply railsDown_frame)

theorem settleIncoming_frame {L : List Block} {s₀ s₁ : State} (h : HandOver) (hK : changesOnly L s₀ s₁)
    (hL : [.out, .log, .host, .ctx, .loader, .installed, .dies] ⊆ L) : changesOnly L s₀ (settleIncoming h s₁) := by
  unfold settleIncoming
  repeat' (first
    | with_reducible exact hK
    | with_reducible assumption
    | with_reducible exact List.Subset.trans (by decide) hL
    | with_reducible apply modCtx_frame
    | with_reducible apply beginInstall_frame
    | split
    | fail_if_no_progress with_reducible refine changesOnly_lit ?_ ?_ ?_ ?_ ?_ ?_ ?_ ?_ ?_ ?_ ?_ ?_ ?_ ?_ ?_ ?_ ?_ ?_ ?_ ?_ ?_ ?_ ?_ ?_ ?_ ?_ ?_ ?_ ?_ ?_
    | with_reducible exact .inl rfl
    | exact Or.inr (hL (by decide))
    | dsimp only)

theorem endCurtain_frame {L : List Block} {s₀ s₁ : State} (h : HandOver) (hK : changesOnly L s₀ s₁)
    (hL : [.free, .out, .ident, .log, .host, .ctx, .sec, .loader, .installed, .dies, .mem, .ports] ⊆ L) : changesOnly L s₀ (endCurtain h s₁) := by
  unfold endCurtain
  repeat' (first
    | with_reducible exact hK
    | with_reducible assumption
    | with_reducible exact List.Subset.trans (by decide) hL
    | with_reducible apply mapPorts_frame
    | with_reducible apply sendPending_frame
    | with_reducible apply report_frame
    | with_reducible apply answerHandOver_frame
    | with_reducible apply settleOutgoing_frame
    | with_reducible apply dropUnused_frame
    | with_reducible apply settleIncoming_frame
    | split
    | fail_if_no_progress with_reducible refine changesOnly_lit ?_ ?_ ?_ ?_ ?_ ?_ ?_ ?_ ?_ ?_ ?_ ?_ ?_ ?_ ?_ ?_ ?_ ?_ ?_ ?_ ?_ ?_ ?_ ?_ ?_ ?_ ?_ ?_ ?_ ?_
    | with_reducible exact .inl rfl
    | exact Or.inr (hL (by decide))
    | dsimp only)

theorem execZeroFillDone_frame {s₁ : State} (i : Slot) :
    ∃ s₂, execZeroFillDone i s₁ = .next s₂ ∧ changesOnly [.out, .log, .host, .sec] s₁ s₂ := by
  have hK : changesOnly [.out, .log, .host, .sec] s₁ s₁ := changesOnly_refl
  have hL : ([.out, .log, .host, .sec] : List Block) ⊆ [.out, .log, .host, .sec] := List.Subset.refl _
  refine ⟨_, rfl, ?_⟩
  repeat' (first
    | with_reducible exact hK
    | with_reducible assumption
    | with_reducible exact List.Subset.trans (by decide) hL
    | with_reducible apply report_frame
    | with_reducible refine changesOnly_ite ?_ ?_
    | split
    | fail_if_no_progress with_reducible refine changesOnly_out ?_ (List.Subset.trans (by decide) hL)
    | fail_if_no_progress with_reducible refine changesOnly_log ?_ (List.Subset.trans (by decide) hL)
    | fail_if_no_progress with_reducible refine changesOnly_host ?_ (List.Subset.trans (by decide) hL)
    | fail_if_no_progress with_reducible refine changesOnly_sec ?_ (List.Subset.trans (by decide) hL)
    | fail_if_no_progress with_reducible refine changesOnly_lit ?_ ?_ ?_ ?_ ?_ ?_ ?_ ?_ ?_ ?_ ?_ ?_ ?_ ?_ ?_ ?_ ?_ ?_ ?_ ?_ ?_ ?_ ?_ ?_ ?_ ?_ ?_ ?_ ?_ ?_
    | with_reducible exact .inl rfl
    | exact Or.inr (hL (by decide)))

theorem makeReport_frame {L : List Block} {s₀ s₁ : State} (who : Option Slot) (nonce ek : Bytes) (hK : changesOnly L s₀ s₁)
    (hL : [.sec] ⊆ L) : changesOnly L s₀ (makeReport who nonce ek s₁).2 := by
  unfold makeReport
  repeat' (first
    | with_reducible exact hK
    | with_reducible assumption
    | with_reducible exact List.Subset.trans (by decide) hL
    | dsimp only
    | with_reducible refine changesOnly_ite ?_ ?_
    | split
    | fail_if_no_progress with_reducible refine changesOnly_sec ?_ (List.Subset.trans (by decide) hL)
    | fail_if_no_progress with_reducible refine changesOnly_lit ?_ ?_ ?_ ?_ ?_ ?_ ?_ ?_ ?_ ?_ ?_ ?_ ?_ ?_ ?_ ?_ ?_ ?_ ?_ ?_ ?_ ?_ ?_ ?_ ?_ ?_ ?_ ?_ ?_ ?_
    | with_reducible exact .inl rfl
    | exact Or.inr (hL (by decide)))

theorem reportRequest_frame {L : List Block} {s₀ s₁ : State} (i : Slot) (req : Bytes) (hK : changesOnly L s₀ s₁)
    (hL : [.ctx, .sec] ⊆ L) : changesOnly L s₀ (reportRequest i req s₁).2 := by
  unfold reportRequest
  repeat' (first
    | with_reducible exact hK
    | with_reducible assumption
    | with_reducible exact List.Subset.trans (by decide) hL
    | with_reducible apply modCtx_frame
    | with_reducible apply makeReport_frame
    | dsimp only
    | with_reducible refine changesOnly_ite ?_ ?_
    | split)

theorem execGetReport_frame {s₁ : State} (i : Slot) (req : Bytes) :
    ∃ s₂, execGetReport i req s₁ = .next s₂ ∧ changesOnly [.out, .log, .host, .ctx, .sec] s₁ s₂ := by
  have hK : changesOnly [.out, .log, .host, .ctx, .sec] s₁ s₁ := changesOnly_refl
  have hL : ([.out, .log, .host, .ctx, .sec] : List Block) ⊆ [.out, .log, .host, .ctx, .sec] := List.Subset.refl _
  refine ⟨_, rfl, ?_⟩
  repeat' (first
    | with_reducible exact hK
    | with_reducible assumption
    | with_reducible exact List.Subset.trans (by decide) hL
    | with_reducible refine mailbox_frame _ _ _ ?_ (fun _ _ => ?_) ?_
    | with_reducible apply reportRequest_frame)

theorem certsRequest_frame {L : List Block} {s₀ s₁ : State} (i₀ : Slot) (req : Bytes) (hK : changesOnly L s₀ s₁)
    (hL : [] ⊆ L) : changesOnly L s₀ (certsRequest i₀ req s₁).2 := by
  unfold certsRequest
  repeat' (first
    | with_reducible exact hK
    | with_reducible assumption
    | with_reducible exact List.Subset.trans (by decide) hL
    | dsimp only
    | with_reducible refine changesOnly_ite ?_ ?_
    | split)

theorem execGetCerts_frame {s₁ : State} (i : Slot) (req : Bytes) :
    ∃ s₂, execGetCerts i req s₁ = .next s₂ ∧ changesOnly [.out, .log, .host, .sec] s₁ s₂ := by
  have hK : changesOnly [.out, .log, .host, .sec] s₁ s₁ := changesOnly_refl
  have hL : ([.out, .log, .host, .sec] : List Block) ⊆ [.out, .log, .host, .sec] := List.Subset.refl _
  refine ⟨_, rfl, ?_⟩
  repeat' (first
    | with_reducible exact hK
    | with_reducible assumption
    | with_reducible exact List.Subset.trans (by decide) hL
    | with_reducible refine mailbox_frame _ _ _ ?_ (fun _ _ => ?_) ?_
    | with_reducible apply certsRequest_frame)

theorem planeRequest_frame {L : List Block} {s₀ s₁ : State} (i₀ : Slot) (req : Bytes) (hK : changesOnly L s₀ s₁)
    (hL : [] ⊆ L) : changesOnly L s₀ (planeRequest i₀ req s₁).2 := by
  unfold planeRequest
  repeat' (first
    | with_reducible exact hK
    | with_reducible assumption
    | with_reducible exact List.Subset.trans (by decide) hL
    | dsimp only
    | with_reducible refine changesOnly_ite ?_ ?_
    | split)

theorem execGetPlaneRecords_frame {s₁ : State} (i : Slot) (req : Bytes) :
    ∃ s₂, execGetPlaneRecords i req s₁ = .next s₂ ∧ changesOnly [.out, .log, .host, .sec] s₁ s₂ := by
  have hK : changesOnly [.out, .log, .host, .sec] s₁ s₁ := changesOnly_refl
  have hL : ([.out, .log, .host, .sec] : List Block) ⊆ [.out, .log, .host, .sec] := List.Subset.refl _
  refine ⟨_, rfl, ?_⟩
  repeat' (first
    | with_reducible exact hK
    | with_reducible assumption
    | with_reducible exact List.Subset.trans (by decide) hL
    | with_reducible refine mailbox_frame _ _ _ ?_ (fun _ _ => ?_) ?_
    | with_reducible apply planeRequest_frame)

theorem putKeyAt_frame {L : List Block} {s₀ s₁ : State} (i : Slot) (k : Nat) (w : Option WeightKey) (hK : changesOnly L s₀ s₁)
    (hL : [.ctx] ⊆ L) : changesOnly L s₀ (putKeyAt i k w s₁) := by
  unfold putKeyAt
  repeat' (first
    | with_reducible exact hK
    | with_reducible assumption
    | with_reducible exact List.Subset.trans (by decide) hL
    | with_reducible apply modCtx_frame)

theorem installKem_frame {L : List Block} {s₀ s₁ : State} (i : Slot) (b : Bytes) (hK : changesOnly L s₀ s₁)
    (hL : [.ctx] ⊆ L) : changesOnly L s₀ (installKem i b s₁).2 := by
  unfold installKem
  repeat' (first
    | with_reducible exact hK
    | with_reducible assumption
    | with_reducible exact List.Subset.trans (by decide) hL
    | with_reducible apply putKeyAt_frame
    | dsimp only
    | with_reducible refine changesOnly_ite ?_ ?_
    | split)

theorem installGroup_frame {L : List Block} {s₀ s₁ : State} (i : Slot) (b : Bytes) (hK : changesOnly L s₀ s₁)
    (hL : [.ctx] ⊆ L) : changesOnly L s₀ (installGroup i b s₁).2 := by
  unfold installGroup
  repeat' (first
    | with_reducible exact hK
    | with_reducible assumption
    | with_reducible exact List.Subset.trans (by decide) hL
    | with_reducible apply putKeyAt_frame
    | dsimp only
    | with_reducible refine changesOnly_ite ?_ ?_
    | split)

theorem installRequest_frame {L : List Block} {s₀ s₁ : State} (i : Slot) (b : Bytes) (hK : changesOnly L s₀ s₁)
    (hL : [.ctx] ⊆ L) : changesOnly L s₀ (installRequest i b s₁).2 := by
  unfold installRequest
  repeat' (first
    | with_reducible exact hK
    | with_reducible assumption
    | with_reducible exact List.Subset.trans (by decide) hL
    | with_reducible apply installKem_frame
    | with_reducible apply installGroup_frame
    | dsimp only
    | with_reducible refine changesOnly_ite ?_ ?_
    | split)

theorem execInstallKey_frame {s₁ : State} (i : Slot) (req : Bytes) :
    ∃ s₂, execInstallKey i req s₁ = .next s₂ ∧ changesOnly [.out, .log, .host, .ctx, .sec] s₁ s₂ := by
  have hK : changesOnly [.out, .log, .host, .ctx, .sec] s₁ s₁ := changesOnly_refl
  have hL : ([.out, .log, .host, .ctx, .sec] : List Block) ⊆ [.out, .log, .host, .ctx, .sec] := List.Subset.refl _
  refine ⟨_, rfl, ?_⟩
  repeat' (first
    | with_reducible exact hK
    | with_reducible assumption
    | with_reducible exact List.Subset.trans (by decide) hL
    | with_reducible refine mailbox_frame _ _ _ ?_ (fun _ _ => ?_) ?_
    | with_reducible apply installRequest_frame)

theorem endOne_frame {L : List Block} {s₀ s₁ : State} (i : Slot) (cmd : Cmd) (code : Code) (hK : changesOnly L s₀ s₁)
    (hL : [.out, .log, .host, .ctx, .installed, .tiles, .links, .signals, .coll] ⊆ L) : changesOnly L s₀ (endOne i cmd code s₁) := by
  unfold endOne
  repeat' (first
    | with_reducible exact hK
    | with_reducible assumption
    | with_reducible exact List.Subset.trans (by decide) hL
    | with_reducible apply completeCmd_frame
    | with_reducible apply endPass_frame
    | with_reducible apply endReduction_frame
    | with_reducible apply dropLoads_frame
    | split
    | fail_if_no_progress with_reducible refine changesOnly_lit ?_ ?_ ?_ ?_ ?_ ?_ ?_ ?_ ?_ ?_ ?_ ?_ ?_ ?_ ?_ ?_ ?_ ?_ ?_ ?_ ?_ ?_ ?_ ?_ ?_ ?_ ?_ ?_ ?_ ?_
    | with_reducible exact .inl rfl
    | exact Or.inr (hL (by decide))
    | dsimp only)

theorem removeKeyAt_frame {L : List Block} {s₀ s₁ : State} (i : Slot) (k : Nat) (hK : changesOnly L s₀ s₁)
    (hL : [.out, .log, .host, .ctx, .installed, .tiles, .links, .signals, .coll] ⊆ L) : changesOnly L s₀ (removeKeyAt i k s₁) := by
  unfold removeKeyAt
  repeat' (first
    | with_reducible exact hK
    | with_reducible assumption
    | with_reducible exact List.Subset.trans (by decide) hL
    | with_reducible refine foldl_frame ?_ (fun _ _ _ => ?_)
    | with_reducible refine foldl_fst_frame ?_ (fun _ _ _ => ?_)
    | with_reducible apply modCtx_frame
    | with_reducible apply report_frame
    | with_reducible apply putKeyAt_frame
    | with_reducible apply endOne_frame
    | split
    | fail_if_no_progress with_reducible refine changesOnly_lit ?_ ?_ ?_ ?_ ?_ ?_ ?_ ?_ ?_ ?_ ?_ ?_ ?_ ?_ ?_ ?_ ?_ ?_ ?_ ?_ ?_ ?_ ?_ ?_ ?_ ?_ ?_ ?_ ?_ ?_
    | with_reducible exact .inl rfl
    | exact Or.inr (hL (by decide))
    | dsimp only)

theorem removeRequest_frame {L : List Block} {s₀ s₁ : State} (i : Slot) (req : Bytes) (hK : changesOnly L s₀ s₁)
    (hL : [.out, .log, .host, .ctx, .installed, .tiles, .links, .signals, .coll] ⊆ L) : changesOnly L s₀ (removeRequest i req s₁).2 := by
  unfold removeRequest
  repeat' (first
    | with_reducible exact hK
    | with_reducible assumption
    | with_reducible exact List.Subset.trans (by decide) hL
    | with_reducible apply removeKeyAt_frame
    | dsimp only
    | split
    | fail_if_no_progress with_reducible refine changesOnly_lit ?_ ?_ ?_ ?_ ?_ ?_ ?_ ?_ ?_ ?_ ?_ ?_ ?_ ?_ ?_ ?_ ?_ ?_ ?_ ?_ ?_ ?_ ?_ ?_ ?_ ?_ ?_ ?_ ?_ ?_
    | with_reducible exact .inl rfl
    | exact Or.inr (hL (by decide)))

theorem execRemoveKey_frame {s₁ : State} (i : Slot) (req : Bytes) :
    ∃ s₂, execRemoveKey i req s₁ = .next s₂ ∧ changesOnly [.out, .log, .host, .ctx, .sec, .installed, .tiles, .links, .signals, .coll] s₁ s₂ := by
  have hK : changesOnly [.out, .log, .host, .ctx, .sec, .installed, .tiles, .links, .signals, .coll] s₁ s₁ := changesOnly_refl
  have hL : ([.out, .log, .host, .ctx, .sec, .installed, .tiles, .links, .signals, .coll] : List Block) ⊆ [.out, .log, .host, .ctx, .sec, .installed, .tiles, .links, .signals, .coll] := List.Subset.refl _
  refine ⟨_, rfl, ?_⟩
  repeat' (first
    | with_reducible exact hK
    | with_reducible assumption
    | with_reducible exact List.Subset.trans (by decide) hL
    | with_reducible refine mailbox_frame _ _ _ ?_ (fun _ _ => ?_) ?_
    | with_reducible apply removeRequest_frame
    | split
    | fail_if_no_progress with_reducible refine changesOnly_lit ?_ ?_ ?_ ?_ ?_ ?_ ?_ ?_ ?_ ?_ ?_ ?_ ?_ ?_ ?_ ?_ ?_ ?_ ?_ ?_ ?_ ?_ ?_ ?_ ?_ ?_ ?_ ?_ ?_ ?_
    | with_reducible exact .inl rfl
    | exact Or.inr (hL (by decide))
    | dsimp only)

theorem enrollRequest_frame {L : List Block} {s₀ s₁ : State} (i : Slot) (b : Bytes) (hK : changesOnly L s₀ s₁)
    (hL : [.sec] ⊆ L) : changesOnly L s₀ (enrollRequest i b s₁).2 := by
  unfold enrollRequest
  repeat' (first
    | with_reducible exact hK
    | with_reducible assumption
    | with_reducible exact List.Subset.trans (by decide) hL
    | dsimp only
    | with_reducible refine changesOnly_ite ?_ ?_
    | split
    | fail_if_no_progress with_reducible refine changesOnly_sec ?_ (List.Subset.trans (by decide) hL)
    | fail_if_no_progress with_reducible refine changesOnly_lit ?_ ?_ ?_ ?_ ?_ ?_ ?_ ?_ ?_ ?_ ?_ ?_ ?_ ?_ ?_ ?_ ?_ ?_ ?_ ?_ ?_ ?_ ?_ ?_ ?_ ?_ ?_ ?_ ?_ ?_
    | with_reducible exact .inl rfl
    | exact Or.inr (hL (by decide)))

theorem execGroupEnroll_frame {s₁ : State} (i : Slot) (req : Bytes) :
    ∃ s₂, execGroupEnroll i req s₁ = .next s₂ ∧ changesOnly [.out, .log, .host, .sec] s₁ s₂ := by
  have hK : changesOnly [.out, .log, .host, .sec] s₁ s₁ := changesOnly_refl
  have hL : ([.out, .log, .host, .sec] : List Block) ⊆ [.out, .log, .host, .sec] := List.Subset.refl _
  refine ⟨_, rfl, ?_⟩
  repeat' (first
    | with_reducible exact hK
    | with_reducible assumption
    | with_reducible exact List.Subset.trans (by decide) hL
    | with_reducible refine mailbox_frame _ _ _ ?_ (fun _ _ => ?_) ?_
    | with_reducible apply enrollRequest_frame)

end Sys2Proof.Machine
end

