-- ==== Sys2Proof/Laws/FrameTransport.lean ====
section
/-! SUPPORT. The frames of the operations and commands of Transport (Laws/Frame.lean). -/

namespace Sys2Proof.Machine

set_option linter.all false
set_option Elab.async false

open Sys2Proof

theorem framePort_frame {L : List Block} {s₀ s₁ : State} (p : PortId) (f : Port → Port) (hK : changesOnly L s₀ s₁)
    (hL : [.out, .ports] ⊆ L) : changesOnly L s₀ (framePort p f s₁) := by
  unfold framePort
  repeat' (first
    | with_reducible exact hK
    | with_reducible assumption
    | with_reducible exact List.Subset.trans (by decide) hL
    | with_reducible refine foldl_frame ?_ (fun _ _ _ => ?_)
    | with_reducible refine foldl_fst_frame ?_ (fun _ _ _ => ?_)
    | with_reducible apply modPort_frame
    | with_reducible apply emit_frame
    | split
    | fail_if_no_progress with_reducible refine changesOnly_lit ?_ ?_ ?_ ?_ ?_ ?_ ?_ ?_ ?_ ?_ ?_ ?_ ?_ ?_ ?_ ?_ ?_ ?_ ?_ ?_ ?_ ?_ ?_ ?_ ?_ ?_ ?_ ?_ ?_ ?_
    | with_reducible exact .inl rfl
    | exact Or.inr (hL (by decide))
    | dsimp only)

theorem pumpPorts_frame {L : List Block} {s₀ s₁ : State}  (hK : changesOnly L s₀ s₁)
    (hL : [.out, .ports] ⊆ L) : changesOnly L s₀ (pumpPorts s₁) := by
  unfold pumpPorts
  repeat' (first
    | with_reducible exact hK
    | with_reducible assumption
    | with_reducible exact List.Subset.trans (by decide) hL
    | with_reducible refine foldl_frame ?_ (fun _ _ _ => ?_)
    | with_reducible refine foldl_fst_frame ?_ (fun _ _ _ => ?_)
    | with_reducible apply framePort_frame
    | split
    | fail_if_no_progress with_reducible refine changesOnly_lit ?_ ?_ ?_ ?_ ?_ ?_ ?_ ?_ ?_ ?_ ?_ ?_ ?_ ?_ ?_ ?_ ?_ ?_ ?_ ?_ ?_ ?_ ?_ ?_ ?_ ?_ ?_ ?_ ?_ ?_
    | with_reducible exact .inl rfl
    | exact Or.inr (hL (by decide))
    | dsimp only)

theorem sendMsg_frame {L : List Block} {s₀ s₁ : State} (p : PortId) (dst : BitVec 32) (m : PlaneMsg) (hK : changesOnly L s₀ s₁)
    (hL : [.out, .ports] ⊆ L) : changesOnly L s₀ (sendMsg p dst m s₁) := by
  unfold sendMsg
  repeat' (first
    | with_reducible exact hK
    | with_reducible assumption
    | with_reducible exact List.Subset.trans (by decide) hL
    | with_reducible apply emit_frame
    | with_reducible apply framePort_frame
    | split
    | fail_if_no_progress with_reducible refine changesOnly_lit ?_ ?_ ?_ ?_ ?_ ?_ ?_ ?_ ?_ ?_ ?_ ?_ ?_ ?_ ?_ ?_ ?_ ?_ ?_ ?_ ?_ ?_ ?_ ?_ ?_ ?_ ?_ ?_ ?_ ?_
    | with_reducible exact .inl rfl
    | exact Or.inr (hL (by decide))
    | dsimp only)

theorem sendAll_frame {L : List Block} {s₀ s₁ : State} (dst : BitVec 32) (m : PlaneMsg) (hK : changesOnly L s₀ s₁)
    (hL : [.out, .ports] ⊆ L) : changesOnly L s₀ (sendAll dst m s₁) := by
  unfold sendAll
  repeat' (first
    | with_reducible exact hK
    | with_reducible assumption
    | with_reducible exact List.Subset.trans (by decide) hL
    | with_reducible refine foldl_frame ?_ (fun _ _ _ => ?_)
    | with_reducible refine foldl_fst_frame ?_ (fun _ _ _ => ?_)
    | with_reducible apply sendMsg_frame)

theorem takeStatus_frame {L : List Block} {s₀ s₁ : State} (p : PortId) (v : Option Nat) (hK : changesOnly L s₀ s₁)
    (hL : [.ports] ⊆ L) : changesOnly L s₀ (takeStatus p v s₁) := by
  unfold takeStatus
  repeat' (first
    | with_reducible exact hK
    | with_reducible assumption
    | with_reducible exact List.Subset.trans (by decide) hL
    | with_reducible apply modPort_frame
    | split
    | fail_if_no_progress with_reducible refine changesOnly_lit ?_ ?_ ?_ ?_ ?_ ?_ ?_ ?_ ?_ ?_ ?_ ?_ ?_ ?_ ?_ ?_ ?_ ?_ ?_ ?_ ?_ ?_ ?_ ?_ ?_ ?_ ?_ ?_ ?_ ?_
    | with_reducible exact .inl rfl
    | exact Or.inr (hL (by decide))
    | dsimp only)

theorem portDown_frame {L : List Block} {s₀ s₁ : State} (p : PortId) (hK : changesOnly L s₀ s₁)
    (hL : [.out, .log, .host, .ports] ⊆ L) : changesOnly L s₀ (portDown p s₁) := by
  unfold portDown
  repeat' (first
    | with_reducible exact hK
    | with_reducible assumption
    | with_reducible exact List.Subset.trans (by decide) hL
    | with_reducible apply modPort_frame
    | with_reducible apply reportPort_frame)

theorem resendFrom_frame {L : List Block} {s₀ s₁ : State} (p : PortId) (first : BitVec 12) (hK : changesOnly L s₀ s₁)
    (hL : [.out, .log, .host, .power, .ports] ⊆ L) : changesOnly L s₀ (resendFrom p first s₁) := by
  unfold resendFrom
  repeat' (first
    | with_reducible exact hK
    | with_reducible assumption
    | with_reducible exact List.Subset.trans (by decide) hL
    | with_reducible apply emit_frame
    | with_reducible apply reportPort_frame
    | with_reducible apply framePort_frame
    | with_reducible apply portDown_frame
    | split
    | fail_if_no_progress with_reducible refine changesOnly_lit ?_ ?_ ?_ ?_ ?_ ?_ ?_ ?_ ?_ ?_ ?_ ?_ ?_ ?_ ?_ ?_ ?_ ?_ ?_ ?_ ?_ ?_ ?_ ?_ ?_ ?_ ?_ ?_ ?_ ?_
    | with_reducible exact .inl rfl
    | exact Or.inr (hL (by decide))
    | dsimp only)

end Sys2Proof.Machine
end

