-- ==== Sys2Proof/Laws/FramePorts.lean ====
section
/-! SUPPORT. The frames of the operations and commands of Ports (Laws/Frame.lean). -/

namespace Sys2Proof.Machine

set_option linter.all false
set_option Elab.async false

open Sys2Proof

theorem trainPort_frame {L : List Block} {s₀ s₁ : State} (p : PortId) (hK : changesOnly L s₀ s₁)
    (hL : [.ports] ⊆ L) : changesOnly L s₀ (trainPort p s₁) := by
  unfold trainPort
  repeat' (first
    | with_reducible exact hK
    | with_reducible assumption
    | with_reducible exact List.Subset.trans (by decide) hL
    | with_reducible apply modPort_frame
    | with_reducible refine changesOnly_ite ?_ ?_
    | split
    | fail_if_no_progress with_reducible refine changesOnly_ports ?_ (List.Subset.trans (by decide) hL)
    | fail_if_no_progress with_reducible refine changesOnly_lit ?_ ?_ ?_ ?_ ?_ ?_ ?_ ?_ ?_ ?_ ?_ ?_ ?_ ?_ ?_ ?_ ?_ ?_ ?_ ?_ ?_ ?_ ?_ ?_ ?_ ?_ ?_ ?_ ?_ ?_
    | with_reducible exact .inl rfl)

theorem execPortTrain_frame {s₁ : State} (p : PortId) :
    ∃ s₂, execPortTrain p s₁ = .next s₂ ∧ changesOnly [.ports] s₁ s₂ := by
  have hK : changesOnly [.ports] s₁ s₁ := changesOnly_refl
  have hL : ([.ports] : List Block) ⊆ [.ports] := List.Subset.refl _
  refine ⟨_, rfl, ?_⟩
  repeat' (first
    | with_reducible exact hK
    | with_reducible assumption
    | with_reducible exact List.Subset.trans (by decide) hL
    | with_reducible apply trainPort_frame)

theorem setEnable_frame {L : List Block} {s₀ s₁ : State} (p : PortId) (v : Bool) (hK : changesOnly L s₀ s₁)
    (hL : [.out, .log, .host, .ports] ⊆ L) : changesOnly L s₀ (setEnable p v s₁) := by
  unfold setEnable
  repeat' (first
    | with_reducible exact hK
    | with_reducible assumption
    | with_reducible exact List.Subset.trans (by decide) hL
    | with_reducible apply modPort_frame
    | with_reducible apply portDown_frame
    | with_reducible apply trainPort_frame
    | with_reducible refine changesOnly_ite ?_ ?_
    | split
    | fail_if_no_progress with_reducible refine changesOnly_out ?_ (List.Subset.trans (by decide) hL)
    | fail_if_no_progress with_reducible refine changesOnly_log ?_ (List.Subset.trans (by decide) hL)
    | fail_if_no_progress with_reducible refine changesOnly_host ?_ (List.Subset.trans (by decide) hL)
    | fail_if_no_progress with_reducible refine changesOnly_ports ?_ (List.Subset.trans (by decide) hL)
    | fail_if_no_progress with_reducible refine changesOnly_lit ?_ ?_ ?_ ?_ ?_ ?_ ?_ ?_ ?_ ?_ ?_ ?_ ?_ ?_ ?_ ?_ ?_ ?_ ?_ ?_ ?_ ?_ ?_ ?_ ?_ ?_ ?_ ?_ ?_ ?_
    | with_reducible exact .inl rfl)

theorem execPortDisable_frame {s₁ : State} (p : PortId) :
    ∃ s₂, execPortDisable p s₁ = .next s₂ ∧ changesOnly [.out, .log, .host, .ports] s₁ s₂ := by
  have hK : changesOnly [.out, .log, .host, .ports] s₁ s₁ := changesOnly_refl
  have hL : ([.out, .log, .host, .ports] : List Block) ⊆ [.out, .log, .host, .ports] := List.Subset.refl _
  refine ⟨_, rfl, ?_⟩
  repeat' (first
    | with_reducible exact hK
    | with_reducible assumption
    | with_reducible exact List.Subset.trans (by decide) hL
    | with_reducible apply setEnable_frame)

theorem refusePort_frame {L : List Block} {s₀ s₁ : State} (p : PortId) (code : Code) (bit : Option Nat) (hK : changesOnly L s₀ s₁)
    (hL : [.out, .log, .host, .ports] ⊆ L) : changesOnly L s₀ (refusePort p code bit s₁) := by
  unfold refusePort
  repeat' (first
    | with_reducible exact hK
    | with_reducible assumption
    | with_reducible exact List.Subset.trans (by decide) hL
    | with_reducible apply modPort_frame
    | with_reducible apply reportPort_frame)

theorem execPmdTrained_frame {s₁ : State} (p : PortId) (locked : Bool) :
    ∃ s₂, execPmdTrained p locked s₁ = .next s₂ ∧ changesOnly [.out, .log, .host, .ports] s₁ s₂ := by
  have hK : changesOnly [.out, .log, .host, .ports] s₁ s₁ := changesOnly_refl
  have hL : ([.out, .log, .host, .ports] : List Block) ⊆ [.out, .log, .host, .ports] := List.Subset.refl _
  refine ⟨_, rfl, ?_⟩
  repeat' (first
    | with_reducible exact hK
    | with_reducible assumption
    | with_reducible exact List.Subset.trans (by decide) hL
    | with_reducible refine when'_frame _ ?_ (fun _ _ => ?_)
    | with_reducible apply modPort_frame
    | with_reducible apply refusePort_frame
    | with_reducible refine changesOnly_ite ?_ ?_
    | split)

theorem sayTraining_frame {L : List Block} {s₀ s₁ : State} (p : PortId) (kind : Nat) (b : Bytes) (hK : changesOnly L s₀ s₁)
    (hL : [.out] ⊆ L) : changesOnly L s₀ (sayTraining p kind b s₁) := by
  unfold sayTraining
  repeat' (first
    | with_reducible exact hK
    | with_reducible assumption
    | with_reducible exact List.Subset.trans (by decide) hL
    | with_reducible refine foldl_frame ?_ (fun _ _ _ => ?_)
    | with_reducible refine foldl_fst_frame ?_ (fun _ _ _ => ?_)
    | with_reducible apply emit_frame
    | split
    | fail_if_no_progress with_reducible refine changesOnly_lit ?_ ?_ ?_ ?_ ?_ ?_ ?_ ?_ ?_ ?_ ?_ ?_ ?_ ?_ ?_ ?_ ?_ ?_ ?_ ?_ ?_ ?_ ?_ ?_ ?_ ?_ ?_ ?_ ?_ ?_
    | with_reducible exact .inl rfl
    | exact Or.inr (hL (by decide))
    | dsimp only)

theorem sendTraining_frame {L : List Block} {s₀ s₁ : State} (p : PortId) (kind : Nat) (hK : changesOnly L s₀ s₁)
    (hL : [.out, .ports] ⊆ L) : changesOnly L s₀ (sendTraining p kind s₁) := by
  unfold sendTraining
  repeat' (first
    | with_reducible exact hK
    | with_reducible assumption
    | with_reducible exact List.Subset.trans (by decide) hL
    | with_reducible apply modPort_frame
    | with_reducible apply sayTraining_frame
    | split
    | fail_if_no_progress with_reducible refine changesOnly_lit ?_ ?_ ?_ ?_ ?_ ?_ ?_ ?_ ?_ ?_ ?_ ?_ ?_ ?_ ?_ ?_ ?_ ?_ ?_ ?_ ?_ ?_ ?_ ?_ ?_ ?_ ?_ ?_ ?_ ?_
    | with_reducible exact .inl rfl
    | exact Or.inr (hL (by decide))
    | dsimp only)

theorem farArrived_frame {L : List Block} {s₀ s₁ : State} (p : PortId) (kind : Nat) (hK : changesOnly L s₀ s₁)
    (hL : [.ports] ⊆ L) : changesOnly L s₀ (farArrived p kind s₁) := by
  unfold farArrived
  repeat' (first
    | with_reducible exact hK
    | with_reducible assumption
    | with_reducible exact List.Subset.trans (by decide) hL
    | with_reducible apply modPort_frame)

theorem execFramingLock_frame {s₁ : State} (p : PortId) :
    ∃ s₂, execFramingLock p s₁ = .next s₂ ∧ changesOnly [.out, .ports] s₁ s₂ := by
  have hK : changesOnly [.out, .ports] s₁ s₁ := changesOnly_refl
  have hL : ([.out, .ports] : List Block) ⊆ [.out, .ports] := List.Subset.refl _
  refine ⟨_, rfl, ?_⟩
  repeat' (first
    | with_reducible exact hK
    | with_reducible assumption
    | with_reducible exact List.Subset.trans (by decide) hL
    | with_reducible apply modPort_frame
    | with_reducible apply sendTraining_frame
    | with_reducible refine changesOnly_ite ?_ ?_
    | split)

theorem execFramingLockLost_frame {s₁ : State} (p : PortId) :
    ∃ s₂, execFramingLockLost p s₁ = .next s₂ ∧ changesOnly [.out, .log, .host, .ports] s₁ s₂ := by
  have hK : changesOnly [.out, .log, .host, .ports] s₁ s₁ := changesOnly_refl
  have hL : ([.out, .log, .host, .ports] : List Block) ⊆ [.out, .log, .host, .ports] := List.Subset.refl _
  refine ⟨_, rfl, ?_⟩
  repeat' (first
    | with_reducible exact hK
    | with_reducible assumption
    | with_reducible exact List.Subset.trans (by decide) hL
    | with_reducible refine when'_frame _ ?_ (fun _ _ => ?_)
    | with_reducible apply modPort_frame
    | with_reducible apply reportPort_frame)

theorem execTrainingResend_frame {s₁ : State} (p : PortId) :
    ∃ s₂, execTrainingResend p s₁ = .next s₂ ∧ changesOnly [.out] s₁ s₂ := by
  have hK : changesOnly [.out] s₁ s₁ := changesOnly_refl
  have hL : ([.out] : List Block) ⊆ [.out] := List.Subset.refl _
  refine ⟨_, rfl, ?_⟩
  repeat' (first
    | with_reducible exact hK
    | with_reducible assumption
    | with_reducible exact List.Subset.trans (by decide) hL
    | with_reducible refine foldl_frame ?_ (fun _ _ _ => ?_)
    | with_reducible refine foldl_fst_frame ?_ (fun _ _ _ => ?_)
    | with_reducible apply sayTraining_frame
    | split
    | fail_if_no_progress with_reducible refine changesOnly_lit ?_ ?_ ?_ ?_ ?_ ?_ ?_ ?_ ?_ ?_ ?_ ?_ ?_ ?_ ?_ ?_ ?_ ?_ ?_ ?_ ?_ ?_ ?_ ?_ ?_ ?_ ?_ ?_ ?_ ?_
    | with_reducible exact .inl rfl
    | exact Or.inr (hL (by decide))
    | dsimp only)

theorem afterIdentity_frame {L : List Block} {s₀ s₁ : State} (p : PortId) (hK : changesOnly L s₀ s₁)
    (hL : [.out, .ports] ⊆ L) : changesOnly L s₀ (afterIdentity p s₁) := by
  unfold afterIdentity
  repeat' (first
    | with_reducible exact hK
    | with_reducible assumption
    | with_reducible exact List.Subset.trans (by decide) hL
    | with_reducible apply modPort_frame
    | with_reducible apply sendTraining_frame
    | with_reducible refine changesOnly_ite ?_ ?_
    | split)

theorem compareIdentity_frame {L : List Block} {s₀ s₁ : State} (p : PortId) (hK : changesOnly L s₀ s₁)
    (hL : [.out, .log, .host, .ports] ⊆ L) : changesOnly L s₀ (compareIdentity p s₁) := by
  unfold compareIdentity
  repeat' (first
    | with_reducible exact hK
    | with_reducible assumption
    | with_reducible exact List.Subset.trans (by decide) hL
    | with_reducible apply reportPort_frame
    | with_reducible apply refusePort_frame
    | with_reducible apply afterIdentity_frame
    | with_reducible refine changesOnly_ite ?_ ?_
    | split
    | fail_if_no_progress with_reducible refine changesOnly_out ?_ (List.Subset.trans (by decide) hL)
    | fail_if_no_progress with_reducible refine changesOnly_log ?_ (List.Subset.trans (by decide) hL)
    | fail_if_no_progress with_reducible refine changesOnly_host ?_ (List.Subset.trans (by decide) hL)
    | fail_if_no_progress with_reducible refine changesOnly_ports ?_ (List.Subset.trans (by decide) hL)
    | fail_if_no_progress with_reducible refine changesOnly_lit ?_ ?_ ?_ ?_ ?_ ?_ ?_ ?_ ?_ ?_ ?_ ?_ ?_ ?_ ?_ ?_ ?_ ?_ ?_ ?_ ?_ ?_ ?_ ?_ ?_ ?_ ?_ ?_ ?_ ?_
    | with_reducible exact .inl rfl)

theorem takeId_frame {L : List Block} {s₀ s₁ : State} (p : PortId) (b : Bytes) (hK : changesOnly L s₀ s₁)
    (hL : [.out, .log, .host, .ports] ⊆ L) : changesOnly L s₀ (takeId p b s₁) := by
  unfold takeId
  repeat' (first
    | with_reducible exact hK
    | with_reducible assumption
    | with_reducible exact List.Subset.trans (by decide) hL
    | with_reducible apply modPort_frame
    | with_reducible apply refusePort_frame
    | with_reducible apply farArrived_frame
    | with_reducible apply compareIdentity_frame
    | with_reducible refine changesOnly_ite ?_ ?_
    | split)

theorem execIdBlock_frame {s₁ : State} (p : PortId) (b : Bytes) :
    ∃ s₂, execIdBlock p b s₁ = .next s₂ ∧ changesOnly [.out, .log, .host, .ports] s₁ s₂ := by
  have hK : changesOnly [.out, .log, .host, .ports] s₁ s₁ := changesOnly_refl
  have hL : ([.out, .log, .host, .ports] : List Block) ⊆ [.out, .log, .host, .ports] := List.Subset.refl _
  refine ⟨_, rfl, ?_⟩
  repeat' (first
    | with_reducible exact hK
    | with_reducible assumption
    | with_reducible exact List.Subset.trans (by decide) hL
    | with_reducible refine when'_frame _ ?_ (fun _ _ => ?_)
    | with_reducible apply takeId_frame)

theorem execTestReq_frame {s₁ : State} (p : PortId) (body : Bytes) :
    ∃ s₂, execTestReq p body s₁ = .next s₂ ∧ changesOnly [.ports] s₁ s₂ := by
  have hK : changesOnly [.ports] s₁ s₁ := changesOnly_refl
  have hL : ([.ports] : List Block) ⊆ [.ports] := List.Subset.refl _
  refine ⟨_, rfl, ?_⟩
  repeat' (first
    | with_reducible exact hK
    | with_reducible assumption
    | with_reducible exact List.Subset.trans (by decide) hL
    | with_reducible refine when'_frame _ ?_ (fun _ _ => ?_)
    | with_reducible apply modPort_frame
    | with_reducible apply farArrived_frame)

theorem concludeBer_frame {L : List Block} {s₀ s₁ : State} (p : PortId) (far : Byte) (hK : changesOnly L s₀ s₁)
    (hL : [.out, .log, .host, .ports] ⊆ L) : changesOnly L s₀ (concludeBer p far s₁) := by
  unfold concludeBer
  repeat' (first
    | with_reducible exact hK
    | with_reducible assumption
    | with_reducible exact List.Subset.trans (by decide) hL
    | with_reducible apply modPort_frame
    | with_reducible apply reportPort_frame
    | with_reducible apply refusePort_frame
    | with_reducible refine changesOnly_ite ?_ ?_
    | split
    | fail_if_no_progress with_reducible refine changesOnly_out ?_ (List.Subset.trans (by decide) hL)
    | fail_if_no_progress with_reducible refine changesOnly_log ?_ (List.Subset.trans (by decide) hL)
    | fail_if_no_progress with_reducible refine changesOnly_host ?_ (List.Subset.trans (by decide) hL)
    | fail_if_no_progress with_reducible refine changesOnly_ports ?_ (List.Subset.trans (by decide) hL)
    | fail_if_no_progress with_reducible refine changesOnly_lit ?_ ?_ ?_ ?_ ?_ ?_ ?_ ?_ ?_ ?_ ?_ ?_ ?_ ?_ ?_ ?_ ?_ ?_ ?_ ?_ ?_ ?_ ?_ ?_ ?_ ?_ ?_ ?_ ?_ ?_
    | with_reducible exact .inl rfl)

theorem execBerTestEnd_frame {s₁ : State} (p : PortId) (errors : List Word) (locked : Byte) :
    ∃ s₂, execBerTestEnd p errors locked s₁ = .next s₂ ∧ changesOnly [.out, .log, .host, .ports] s₁ s₂ := by
  have hK : changesOnly [.out, .log, .host, .ports] s₁ s₁ := changesOnly_refl
  have hL : ([.out, .log, .host, .ports] : List Block) ⊆ [.out, .log, .host, .ports] := List.Subset.refl _
  refine ⟨_, rfl, ?_⟩
  repeat' (first
    | with_reducible exact hK
    | with_reducible assumption
    | with_reducible exact List.Subset.trans (by decide) hL
    | with_reducible refine when'_frame _ ?_ (fun _ _ => ?_)
    | with_reducible apply modPort_frame
    | with_reducible apply sendTraining_frame
    | with_reducible apply concludeBer_frame
    | with_reducible refine changesOnly_ite ?_ ?_
    | split
    | fail_if_no_progress with_reducible refine changesOnly_out ?_ (List.Subset.trans (by decide) hL)
    | fail_if_no_progress with_reducible refine changesOnly_log ?_ (List.Subset.trans (by decide) hL)
    | fail_if_no_progress with_reducible refine changesOnly_host ?_ (List.Subset.trans (by decide) hL)
    | fail_if_no_progress with_reducible refine changesOnly_ports ?_ (List.Subset.trans (by decide) hL)
    | fail_if_no_progress with_reducible refine changesOnly_lit ?_ ?_ ?_ ?_ ?_ ?_ ?_ ?_ ?_ ?_ ?_ ?_ ?_ ?_ ?_ ?_ ?_ ?_ ?_ ?_ ?_ ?_ ?_ ?_ ?_ ?_ ?_ ?_ ?_ ?_
    | with_reducible exact .inl rfl)

theorem execTestResult_frame {s₁ : State} (p : PortId) (errors : List Word) (locked : Byte) :
    ∃ s₂, execTestResult p errors locked s₁ = .next s₂ ∧ changesOnly [.out, .log, .host, .ports] s₁ s₂ := by
  have hK : changesOnly [.out, .log, .host, .ports] s₁ s₁ := changesOnly_refl
  have hL : ([.out, .log, .host, .ports] : List Block) ⊆ [.out, .log, .host, .ports] := List.Subset.refl _
  refine ⟨_, rfl, ?_⟩
  repeat' (first
    | with_reducible exact hK
    | with_reducible assumption
    | with_reducible exact List.Subset.trans (by decide) hL
    | with_reducible refine when'_frame _ ?_ (fun _ _ => ?_)
    | with_reducible apply modPort_frame
    | with_reducible apply farArrived_frame
    | with_reducible apply concludeBer_frame
    | with_reducible refine changesOnly_ite ?_ ?_
    | split
    | fail_if_no_progress with_reducible refine changesOnly_out ?_ (List.Subset.trans (by decide) hL)
    | fail_if_no_progress with_reducible refine changesOnly_log ?_ (List.Subset.trans (by decide) hL)
    | fail_if_no_progress with_reducible refine changesOnly_host ?_ (List.Subset.trans (by decide) hL)
    | fail_if_no_progress with_reducible refine changesOnly_ports ?_ (List.Subset.trans (by decide) hL)
    | fail_if_no_progress with_reducible refine changesOnly_lit ?_ ?_ ?_ ?_ ?_ ?_ ?_ ?_ ?_ ?_ ?_ ?_ ?_ ?_ ?_ ?_ ?_ ?_ ?_ ?_ ?_ ?_ ?_ ?_ ?_ ?_ ?_ ?_ ?_ ?_
    | with_reducible exact .inl rfl)

theorem execKeyHello_frame {s₁ : State} (p : PortId) :
    ∃ s₂, execKeyHello p s₁ = .next s₂ ∧ changesOnly [.free, .out, .ports] s₁ s₂ := by
  have hK : changesOnly [.free, .out, .ports] s₁ s₁ := changesOnly_refl
  have hL : ([.free, .out, .ports] : List Block) ⊆ [.free, .out, .ports] := List.Subset.refl _
  refine ⟨_, rfl, ?_⟩
  repeat' (first
    | with_reducible exact hK
    | with_reducible assumption
    | with_reducible exact List.Subset.trans (by decide) hL
    | with_reducible refine when'_frame _ ?_ (fun _ _ => ?_)
    | with_reducible apply modPort_frame
    | with_reducible apply drawNext_frame
    | with_reducible apply sayTraining_frame
    | split
    | fail_if_no_progress with_reducible refine changesOnly_lit ?_ ?_ ?_ ?_ ?_ ?_ ?_ ?_ ?_ ?_ ?_ ?_ ?_ ?_ ?_ ?_ ?_ ?_ ?_ ?_ ?_ ?_ ?_ ?_ ?_ ?_ ?_ ?_ ?_ ?_
    | with_reducible exact .inl rfl
    | exact Or.inr (hL (by decide))
    | dsimp only)

theorem confirmKey_frame {L : List Block} {s₀ s₁ : State} (p : PortId) (k : Keying) (root m : Bytes) (hK : changesOnly L s₀ s₁)
    (hL : [.free, .out, .sec, .ports] ⊆ L) : changesOnly L s₀ (confirmKey p k root m s₁) := by
  unfold confirmKey
  repeat' (first
    | with_reducible exact hK
    | with_reducible assumption
    | with_reducible exact List.Subset.trans (by decide) hL
    | with_reducible apply modPort_frame
    | with_reducible apply drawNext_frame
    | with_reducible apply makeReport_frame
    | with_reducible apply sayTraining_frame
    | split
    | fail_if_no_progress with_reducible refine changesOnly_lit ?_ ?_ ?_ ?_ ?_ ?_ ?_ ?_ ?_ ?_ ?_ ?_ ?_ ?_ ?_ ?_ ?_ ?_ ?_ ?_ ?_ ?_ ?_ ?_ ?_ ?_ ?_ ?_ ?_ ?_
    | with_reducible exact .inl rfl
    | exact Or.inr (hL (by decide))
    | dsimp only)

theorem failExchange_frame {L : List Block} {s₀ s₁ : State} (p : PortId) (hK : changesOnly L s₀ s₁)
    (hL : [.out, .log, .host, .ports] ⊆ L) : changesOnly L s₀ (failExchange p s₁) := by
  unfold failExchange
  repeat' (first
    | with_reducible exact hK
    | with_reducible assumption
    | with_reducible exact List.Subset.trans (by decide) hL
    | with_reducible apply reportPort_frame
    | with_reducible apply portDown_frame)

theorem execKeyReply_frame {s₁ : State} (p : PortId) (m : Bytes) :
    ∃ s₂, execKeyReply p m s₁ = .next s₂ ∧ changesOnly [.free, .out, .log, .host, .sec, .ports] s₁ s₂ := by
  have hK : changesOnly [.free, .out, .log, .host, .sec, .ports] s₁ s₁ := changesOnly_refl
  have hL : ([.free, .out, .log, .host, .sec, .ports] : List Block) ⊆ [.free, .out, .log, .host, .sec, .ports] := List.Subset.refl _
  refine ⟨_, rfl, ?_⟩
  repeat' (first
    | with_reducible exact hK
    | with_reducible assumption
    | with_reducible exact List.Subset.trans (by decide) hL
    | with_reducible apply refusePort_frame
    | with_reducible apply confirmKey_frame
    | with_reducible apply failExchange_frame
    | split
    | fail_if_no_progress with_reducible refine changesOnly_lit ?_ ?_ ?_ ?_ ?_ ?_ ?_ ?_ ?_ ?_ ?_ ?_ ?_ ?_ ?_ ?_ ?_ ?_ ?_ ?_ ?_ ?_ ?_ ?_ ?_ ?_ ?_ ?_ ?_ ?_
    | with_reducible exact .inl rfl
    | exact Or.inr (hL (by decide))
    | dsimp only)

theorem finishKey_frame {L : List Block} {s₀ s₁ : State} (p : PortId) (k : Keying) (m : Bytes) (hK : changesOnly L s₀ s₁)
    (hL : [.out, .log, .host, .ports] ⊆ L) : changesOnly L s₀ (finishKey p k m s₁) := by
  unfold finishKey
  repeat' (first
    | with_reducible exact hK
    | with_reducible assumption
    | with_reducible exact List.Subset.trans (by decide) hL
    | with_reducible apply modPort_frame
    | with_reducible apply sendTraining_frame
    | with_reducible apply failExchange_frame
    | with_reducible refine changesOnly_ite ?_ ?_
    | split
    | fail_if_no_progress with_reducible refine changesOnly_out ?_ (List.Subset.trans (by decide) hL)
    | fail_if_no_progress with_reducible refine changesOnly_log ?_ (List.Subset.trans (by decide) hL)
    | fail_if_no_progress with_reducible refine changesOnly_host ?_ (List.Subset.trans (by decide) hL)
    | fail_if_no_progress with_reducible refine changesOnly_ports ?_ (List.Subset.trans (by decide) hL)
    | fail_if_no_progress with_reducible refine changesOnly_lit ?_ ?_ ?_ ?_ ?_ ?_ ?_ ?_ ?_ ?_ ?_ ?_ ?_ ?_ ?_ ?_ ?_ ?_ ?_ ?_ ?_ ?_ ?_ ?_ ?_ ?_ ?_ ?_ ?_ ?_
    | with_reducible exact .inl rfl)

theorem execKeyFinish_frame {s₁ : State} (p : PortId) (m : Bytes) :
    ∃ s₂, execKeyFinish p m s₁ = .next s₂ ∧ changesOnly [.out, .log, .host, .ports] s₁ s₂ := by
  have hK : changesOnly [.out, .log, .host, .ports] s₁ s₁ := changesOnly_refl
  have hL : ([.out, .log, .host, .ports] : List Block) ⊆ [.out, .log, .host, .ports] := List.Subset.refl _
  refine ⟨_, rfl, ?_⟩
  repeat' (first
    | with_reducible exact hK
    | with_reducible assumption
    | with_reducible exact List.Subset.trans (by decide) hL
    | with_reducible apply finishKey_frame
    | with_reducible refine changesOnly_ite ?_ ?_
    | split)

theorem execCreditInit_frame {s₁ : State} (p : PortId) (v0 v1 v2 v3 : BitVec 16) :
    ∃ s₂, execCreditInit p v0 v1 v2 v3 s₁ = .next s₂ ∧ changesOnly [.out, .log, .host, .ports] s₁ s₂ := by
  have hK : changesOnly [.out, .log, .host, .ports] s₁ s₁ := changesOnly_refl
  have hL : ([.out, .log, .host, .ports] : List Block) ⊆ [.out, .log, .host, .ports] := List.Subset.refl _
  refine ⟨_, rfl, ?_⟩
  repeat' (first
    | with_reducible exact hK
    | with_reducible assumption
    | with_reducible exact List.Subset.trans (by decide) hL
    | with_reducible refine when'_frame _ ?_ (fun _ _ => ?_)
    | with_reducible apply modPort_frame
    | with_reducible apply refusePort_frame
    | with_reducible apply sendTraining_frame
    | with_reducible apply farArrived_frame
    | with_reducible refine changesOnly_ite ?_ ?_
    | split)

theorem execReady_frame {s₁ : State} (p : PortId) :
    ∃ s₂, execReady p s₁ = .next s₂ ∧ changesOnly [.out, .log, .host, .ports] s₁ s₂ := by
  have hK : changesOnly [.out, .log, .host, .ports] s₁ s₁ := changesOnly_refl
  have hL : ([.out, .log, .host, .ports] : List Block) ⊆ [.out, .log, .host, .ports] := List.Subset.refl _
  refine ⟨_, rfl, ?_⟩
  repeat' (first
    | with_reducible exact hK
    | with_reducible assumption
    | with_reducible exact List.Subset.trans (by decide) hL
    | with_reducible refine when'_frame _ ?_ (fun _ _ => ?_)
    | with_reducible apply modPort_frame
    | with_reducible apply reportPort_frame)

theorem execTrainingFlitDiscard_frame {s₁ : State} (p : PortId) (kind : Byte) :
    ∃ s₂, execTrainingFlitDiscard p kind s₁ = .next s₂ ∧ changesOnly [.out, .log, .host, .ports] s₁ s₂ := by
  have hK : changesOnly [.out, .log, .host, .ports] s₁ s₁ := changesOnly_refl
  have hL : ([.out, .log, .host, .ports] : List Block) ⊆ [.out, .log, .host, .ports] := List.Subset.refl _
  refine ⟨_, rfl, ?_⟩
  repeat' (first
    | with_reducible exact hK
    | with_reducible assumption
    | with_reducible exact List.Subset.trans (by decide) hL
    | with_reducible apply reportPort_frame
    | with_reducible refine changesOnly_ite ?_ ?_
    | split)

theorem actNak_frame {L : List Block} {s₀ s₁ : State} (p : PortId) (ack : BitVec 12) (hK : changesOnly L s₀ s₁)
    (hL : [.out, .log, .host, .power, .ports] ⊆ L) : changesOnly L s₀ (actNak p ack s₁) := by
  unfold actNak
  repeat' (first
    | with_reducible exact hK
    | with_reducible assumption
    | with_reducible exact List.Subset.trans (by decide) hL
    | with_reducible apply modPort_frame
    | with_reducible apply resendFrom_frame
    | with_reducible refine changesOnly_ite ?_ ?_
    | split
    | fail_if_no_progress with_reducible refine changesOnly_out ?_ (List.Subset.trans (by decide) hL)
    | fail_if_no_progress with_reducible refine changesOnly_log ?_ (List.Subset.trans (by decide) hL)
    | fail_if_no_progress with_reducible refine changesOnly_host ?_ (List.Subset.trans (by decide) hL)
    | fail_if_no_progress with_reducible refine changesOnly_power ?_ (List.Subset.trans (by decide) hL)
    | fail_if_no_progress with_reducible refine changesOnly_ports ?_ (List.Subset.trans (by decide) hL)
    | fail_if_no_progress with_reducible refine changesOnly_lit ?_ ?_ ?_ ?_ ?_ ?_ ?_ ?_ ?_ ?_ ?_ ?_ ?_ ?_ ?_ ?_ ?_ ?_ ?_ ?_ ?_ ?_ ?_ ?_ ?_ ?_ ?_ ?_ ?_ ?_
    | with_reducible exact .inl rfl)

theorem takeHeader_frame {L : List Block} {s₀ s₁ : State} (p : PortId) (h : Nat) (hK : changesOnly L s₀ s₁)
    (hL : [.out, .log, .host, .power, .ports] ⊆ L) : changesOnly L s₀ (takeHeader p h s₁) := by
  unfold takeHeader
  repeat' (first
    | with_reducible exact hK
    | with_reducible assumption
    | with_reducible exact List.Subset.trans (by decide) hL
    | with_reducible apply modPort_frame
    | with_reducible apply framePort_frame
    | with_reducible apply actNak_frame
    | split
    | fail_if_no_progress with_reducible refine changesOnly_lit ?_ ?_ ?_ ?_ ?_ ?_ ?_ ?_ ?_ ?_ ?_ ?_ ?_ ?_ ?_ ?_ ?_ ?_ ?_ ?_ ?_ ?_ ?_ ?_ ?_ ?_ ?_ ?_ ?_ ?_
    | with_reducible exact .inl rfl
    | exact Or.inr (hL (by decide))
    | dsimp only)

theorem takeFlit_frame {L : List Block} {s₀ s₁ : State} (p : PortId) (f : Flit) (hK : changesOnly L s₀ s₁)
    (hL : [.out, .log, .host, .power, .ports] ⊆ L) : changesOnly L s₀ (takeFlit p f s₁) := by
  unfold takeFlit
  repeat' (first
    | with_reducible exact hK
    | with_reducible assumption
    | with_reducible exact List.Subset.trans (by decide) hL
    | with_reducible apply modPort_frame
    | with_reducible apply reportPort_frame
    | with_reducible apply takeStatus_frame
    | with_reducible apply takeHeader_frame
    | split
    | fail_if_no_progress with_reducible refine changesOnly_lit ?_ ?_ ?_ ?_ ?_ ?_ ?_ ?_ ?_ ?_ ?_ ?_ ?_ ?_ ?_ ?_ ?_ ?_ ?_ ?_ ?_ ?_ ?_ ?_ ?_ ?_ ?_ ?_ ?_ ?_
    | with_reducible exact .inl rfl
    | exact Or.inr (hL (by decide))
    | dsimp only)

theorem execDataFlitReceive_frame {s₁ : State} (p : PortId) (f : Flit) :
    ∃ s₂, execDataFlitReceive p f s₁ = .next s₂ ∧ changesOnly [.out, .log, .host, .power, .ports] s₁ s₂ := by
  have hK : changesOnly [.out, .log, .host, .power, .ports] s₁ s₁ := changesOnly_refl
  have hL : ([.out, .log, .host, .power, .ports] : List Block) ⊆ [.out, .log, .host, .power, .ports] := List.Subset.refl _
  refine ⟨_, rfl, ?_⟩
  repeat' (first
    | with_reducible exact hK
    | with_reducible assumption
    | with_reducible exact List.Subset.trans (by decide) hL
    | with_reducible refine when'_frame _ ?_ (fun _ _ => ?_)
    | with_reducible apply takeFlit_frame)

theorem execNakReceive_frame {s₁ : State} (p : PortId) (ack : BitVec 12) :
    ∃ s₂, execNakReceive p ack s₁ = .next s₂ ∧ changesOnly [.out, .log, .host, .power, .ports] s₁ s₂ := by
  have hK : changesOnly [.out, .log, .host, .power, .ports] s₁ s₁ := changesOnly_refl
  have hL : ([.out, .log, .host, .power, .ports] : List Block) ⊆ [.out, .log, .host, .power, .ports] := List.Subset.refl _
  refine ⟨_, rfl, ?_⟩
  repeat' (first
    | with_reducible exact hK
    | with_reducible assumption
    | with_reducible exact List.Subset.trans (by decide) hL
    | with_reducible refine when'_frame _ ?_ (fun _ _ => ?_)
    | with_reducible apply framePort_frame
    | with_reducible apply actNak_frame
    | split
    | fail_if_no_progress with_reducible refine changesOnly_lit ?_ ?_ ?_ ?_ ?_ ?_ ?_ ?_ ?_ ?_ ?_ ?_ ?_ ?_ ?_ ?_ ?_ ?_ ?_ ?_ ?_ ?_ ?_ ?_ ?_ ?_ ?_ ?_ ?_ ?_
    | with_reducible exact .inl rfl
    | exact Or.inr (hL (by decide))
    | dsimp only)

theorem execAckTimeout_frame {s₁ : State} (p : PortId) :
    ∃ s₂, execAckTimeout p s₁ = .next s₂ ∧ changesOnly [.out, .log, .host, .power, .ports] s₁ s₂ := by
  have hK : changesOnly [.out, .log, .host, .power, .ports] s₁ s₁ := changesOnly_refl
  have hL : ([.out, .log, .host, .power, .ports] : List Block) ⊆ [.out, .log, .host, .power, .ports] := List.Subset.refl _
  refine ⟨_, rfl, ?_⟩
  repeat' (first
    | with_reducible exact hK
    | with_reducible assumption
    | with_reducible exact List.Subset.trans (by decide) hL
    | with_reducible refine when'_frame _ ?_ (fun _ _ => ?_)
    | with_reducible apply modPort_frame
    | with_reducible apply resendFrom_frame
    | with_reducible refine changesOnly_ite ?_ ?_
    | split)

theorem execCodewordLockLoss_frame {s₁ : State} (p : PortId) :
    ∃ s₂, execCodewordLockLoss p s₁ = .next s₂ ∧ changesOnly [.out, .log, .host, .ports] s₁ s₂ := by
  have hK : changesOnly [.out, .log, .host, .ports] s₁ s₁ := changesOnly_refl
  have hL : ([.out, .log, .host, .ports] : List Block) ⊆ [.out, .log, .host, .ports] := List.Subset.refl _
  refine ⟨_, rfl, ?_⟩
  repeat' (first
    | with_reducible exact hK
    | with_reducible assumption
    | with_reducible exact List.Subset.trans (by decide) hL
    | with_reducible refine when'_frame _ ?_ (fun _ _ => ?_)
    | with_reducible apply portDown_frame)

theorem execFarEndDown_frame {s₁ : State} (p : PortId) :
    ∃ s₂, execFarEndDown p s₁ = .next s₂ ∧ changesOnly [.out, .log, .host, .ports] s₁ s₂ := by
  have hK : changesOnly [.out, .log, .host, .ports] s₁ s₁ := changesOnly_refl
  have hL : ([.out, .log, .host, .ports] : List Block) ⊆ [.out, .log, .host, .ports] := List.Subset.refl _
  refine ⟨_, rfl, ?_⟩
  repeat' (first
    | with_reducible exact hK
    | with_reducible assumption
    | with_reducible exact List.Subset.trans (by decide) hL
    | with_reducible refine when'_frame _ ?_ (fun _ _ => ?_)
    | with_reducible apply modPort_frame
    | with_reducible apply portDown_frame)

theorem startRekey_frame {L : List Block} {s₀ s₁ : State} (p : PortId) (hK : changesOnly L s₀ s₁)
    (hL : [.free, .out, .ports] ⊆ L) : changesOnly L s₀ (startRekey p s₁) := by
  unfold startRekey
  repeat' (first
    | with_reducible exact hK
    | with_reducible assumption
    | with_reducible exact List.Subset.trans (by decide) hL
    | with_reducible apply modPort_frame
    | with_reducible apply drawNext_frame
    | with_reducible apply sendMsg_frame
    | with_reducible refine changesOnly_ite ?_ ?_
    | split)

theorem execHopKeyLimit_frame {s₁ : State} (p : PortId) :
    ∃ s₂, execHopKeyLimit p s₁ = .next s₂ ∧ changesOnly [.free, .out, .ports] s₁ s₂ := by
  have hK : changesOnly [.free, .out, .ports] s₁ s₁ := changesOnly_refl
  have hL : ([.free, .out, .ports] : List Block) ⊆ [.free, .out, .ports] := List.Subset.refl _
  refine ⟨_, rfl, ?_⟩
  repeat' (first
    | with_reducible exact hK
    | with_reducible assumption
    | with_reducible exact List.Subset.trans (by decide) hL
    | with_reducible refine when'_frame _ ?_ (fun _ _ => ?_)
    | with_reducible apply startRekey_frame)

theorem finishRekey_frame {L : List Block} {s₀ s₁ : State} (p : PortId) (ct : Bytes) (hK : changesOnly L s₀ s₁)
    (hL : [.out, .log, .host, .ports] ⊆ L) : changesOnly L s₀ (finishRekey p ct s₁) := by
  unfold finishRekey
  repeat' (first
    | with_reducible exact hK
    | with_reducible assumption
    | with_reducible exact List.Subset.trans (by decide) hL
    | with_reducible apply modPort_frame
    | with_reducible apply reportPort_frame
    | with_reducible apply failExchange_frame
    | with_reducible refine changesOnly_ite ?_ ?_
    | split
    | fail_if_no_progress with_reducible refine changesOnly_out ?_ (List.Subset.trans (by decide) hL)
    | fail_if_no_progress with_reducible refine changesOnly_log ?_ (List.Subset.trans (by decide) hL)
    | fail_if_no_progress with_reducible refine changesOnly_host ?_ (List.Subset.trans (by decide) hL)
    | fail_if_no_progress with_reducible refine changesOnly_ports ?_ (List.Subset.trans (by decide) hL)
    | fail_if_no_progress with_reducible refine changesOnly_lit ?_ ?_ ?_ ?_ ?_ ?_ ?_ ?_ ?_ ?_ ?_ ?_ ?_ ?_ ?_ ?_ ?_ ?_ ?_ ?_ ?_ ?_ ?_ ?_ ?_ ?_ ?_ ?_ ?_ ?_
    | with_reducible exact .inl rfl)

theorem execHopRekey_frame {s₁ : State} (p : PortId) (ct : Bytes) :
    ∃ s₂, execHopRekey p ct s₁ = .next s₂ ∧ changesOnly [.free, .out, .log, .host, .ports] s₁ s₂ := by
  have hK : changesOnly [.free, .out, .log, .host, .ports] s₁ s₁ := changesOnly_refl
  have hL : ([.free, .out, .log, .host, .ports] : List Block) ⊆ [.free, .out, .log, .host, .ports] := List.Subset.refl _
  refine ⟨_, rfl, ?_⟩
  repeat' (first
    | with_reducible exact hK
    | with_reducible assumption
    | with_reducible exact List.Subset.trans (by decide) hL
    | with_reducible refine when'_frame _ ?_ (fun _ _ => ?_)
    | with_reducible apply startRekey_frame
    | with_reducible apply finishRekey_frame)

theorem execPreFecMonitor_frame {s₁ : State} (p : PortId) (lanes : List Nat) :
    ∃ s₂, execPreFecMonitor p lanes s₁ = .next s₂ ∧ changesOnly [.free, .out, .log, .host, .ports] s₁ s₂ := by
  have hK : changesOnly [.free, .out, .log, .host, .ports] s₁ s₁ := changesOnly_refl
  have hL : ([.free, .out, .log, .host, .ports] : List Block) ⊆ [.free, .out, .log, .host, .ports] := List.Subset.refl _
  refine ⟨_, rfl, ?_⟩
  repeat' (first
    | with_reducible exact hK
    | with_reducible assumption
    | with_reducible exact List.Subset.trans (by decide) hL
    | with_reducible refine when'_frame _ ?_ (fun _ _ => ?_)
    | with_reducible apply modPort_frame
    | with_reducible apply drawNext_frame
    | with_reducible apply reportPort_frame
    | split
    | fail_if_no_progress with_reducible refine changesOnly_lit ?_ ?_ ?_ ?_ ?_ ?_ ?_ ?_ ?_ ?_ ?_ ?_ ?_ ?_ ?_ ?_ ?_ ?_ ?_ ?_ ?_ ?_ ?_ ?_ ?_ ?_ ?_ ?_ ?_ ?_
    | with_reducible exact .inl rfl
    | exact Or.inr (hL (by decide))
    | dsimp only)

theorem startPattern_frame {L : List Block} {s₀ s₁ : State}  (hK : changesOnly L s₀ s₁)
    (hL : [.out, .log, .host, .pattern] ⊆ L) : changesOnly L s₀ (startPattern s₁) := by
  unfold startPattern
  repeat' (first
    | with_reducible exact hK
    | with_reducible assumption
    | with_reducible exact List.Subset.trans (by decide) hL
    | with_reducible apply report_frame
    | with_reducible refine changesOnly_ite ?_ ?_
    | split
    | fail_if_no_progress with_reducible refine changesOnly_out ?_ (List.Subset.trans (by decide) hL)
    | fail_if_no_progress with_reducible refine changesOnly_log ?_ (List.Subset.trans (by decide) hL)
    | fail_if_no_progress with_reducible refine changesOnly_host ?_ (List.Subset.trans (by decide) hL)
    | fail_if_no_progress with_reducible refine changesOnly_pattern ?_ (List.Subset.trans (by decide) hL)
    | fail_if_no_progress with_reducible refine changesOnly_lit ?_ ?_ ?_ ?_ ?_ ?_ ?_ ?_ ?_ ?_ ?_ ?_ ?_ ?_ ?_ ?_ ?_ ?_ ?_ ?_ ?_ ?_ ?_ ?_ ?_ ?_ ?_ ?_ ?_ ?_
    | with_reducible exact .inl rfl
    | exact Or.inr (hL (by decide)))

theorem execPatternGo_frame {s₁ : State}  :
    ∃ s₂, execPatternGo s₁ = .next s₂ ∧ changesOnly [.out, .log, .host, .pattern] s₁ s₂ := by
  have hK : changesOnly [.out, .log, .host, .pattern] s₁ s₁ := changesOnly_refl
  have hL : ([.out, .log, .host, .pattern] : List Block) ⊆ [.out, .log, .host, .pattern] := List.Subset.refl _
  refine ⟨_, rfl, ?_⟩
  repeat' (first
    | with_reducible exact hK
    | with_reducible assumption
    | with_reducible exact List.Subset.trans (by decide) hL
    | with_reducible refine when'_frame _ ?_ (fun _ _ => ?_)
    | with_reducible apply startPattern_frame)

theorem endPattern_frame {L : List Block} {s₀ s₁ : State}  (hK : changesOnly L s₀ s₁)
    (hL : [.free, .out, .log, .host, .pattern] ⊆ L) : changesOnly L s₀ (endPattern s₁) := by
  unfold endPattern
  repeat' (first
    | with_reducible exact hK
    | with_reducible assumption
    | with_reducible exact List.Subset.trans (by decide) hL
    | with_reducible refine foldl_frame ?_ (fun _ _ _ => ?_)
    | with_reducible refine foldl_fst_frame ?_ (fun _ _ _ => ?_)
    | with_reducible apply drawNext_frame
    | with_reducible apply report_frame
    | with_reducible refine changesOnly_ite ?_ ?_
    | split
    | fail_if_no_progress with_reducible refine changesOnly_free ?_ (List.Subset.trans (by decide) hL)
    | fail_if_no_progress with_reducible refine changesOnly_out ?_ (List.Subset.trans (by decide) hL)
    | fail_if_no_progress with_reducible refine changesOnly_log ?_ (List.Subset.trans (by decide) hL)
    | fail_if_no_progress with_reducible refine changesOnly_host ?_ (List.Subset.trans (by decide) hL)
    | fail_if_no_progress with_reducible refine changesOnly_pattern ?_ (List.Subset.trans (by decide) hL)
    | fail_if_no_progress with_reducible refine changesOnly_lit ?_ ?_ ?_ ?_ ?_ ?_ ?_ ?_ ?_ ?_ ?_ ?_ ?_ ?_ ?_ ?_ ?_ ?_ ?_ ?_ ?_ ?_ ?_ ?_ ?_ ?_ ?_ ?_ ?_ ?_
    | with_reducible exact .inl rfl
    | exact Or.inr (hL (by decide)))

theorem execPatternStop_frame {s₁ : State}  :
    ∃ s₂, execPatternStop s₁ = .next s₂ ∧ changesOnly [.free, .out, .log, .host, .pattern] s₁ s₂ := by
  have hK : changesOnly [.free, .out, .log, .host, .pattern] s₁ s₁ := changesOnly_refl
  have hL : ([.free, .out, .log, .host, .pattern] : List Block) ⊆ [.free, .out, .log, .host, .pattern] := List.Subset.refl _
  refine ⟨_, rfl, ?_⟩
  repeat' (first
    | with_reducible exact hK
    | with_reducible assumption
    | with_reducible exact List.Subset.trans (by decide) hL
    | with_reducible refine when'_frame _ ?_ (fun _ _ => ?_)
    | with_reducible apply endPattern_frame)

end Sys2Proof.Machine
end

