-- ==== Sys2Proof/Laws/FrameMgmt.lean ====
section
/-! SUPPORT. The frames of the operations and commands of Mgmt (Laws/Frame.lean). -/

namespace Sys2Proof.Machine

set_option linter.all false
set_option Elab.async false

open Sys2Proof

theorem acceptCounter_frame {L : List Block} {s₀ s₁ : State} (r : MgmtReq) (hK : changesOnly L s₀ s₁)
    (hL : [.sec] ⊆ L) : changesOnly L s₀ (acceptCounter r s₁) := by
  unfold acceptCounter
  repeat' (first
    | with_reducible exact hK
    | with_reducible assumption
    | with_reducible exact List.Subset.trans (by decide) hL
    | with_reducible refine changesOnly_ite ?_ ?_
    | split
    | fail_if_no_progress with_reducible refine changesOnly_sec ?_ (List.Subset.trans (by decide) hL)
    | fail_if_no_progress with_reducible refine changesOnly_lit ?_ ?_ ?_ ?_ ?_ ?_ ?_ ?_ ?_ ?_ ?_ ?_ ?_ ?_ ?_ ?_ ?_ ?_ ?_ ?_ ?_ ?_ ?_ ?_ ?_ ?_ ?_ ?_ ?_ ?_
    | with_reducible exact .inl rfl
    | exact Or.inr (hL (by decide)))

theorem answer_frame {L : List Block} {s₀ s₁ : State} (op : Nat) (code : Code) (body : Bytes) (hK : changesOnly L s₀ s₁)
    (hL : [.out] ⊆ L) : changesOnly L s₀ (answer op code body s₁) := by
  unfold answer
  repeat' (first
    | with_reducible exact hK
    | with_reducible assumption
    | with_reducible exact List.Subset.trans (by decide) hL
    | with_reducible apply emit_frame)

theorem refuseMgmt_frame {L : List Block} {s₀ s₁ : State} (op : Nat) (code : Code) (hK : changesOnly L s₀ s₁)
    (hL : [.out, .log, .host] ⊆ L) : changesOnly L s₀ (refuseMgmt op code s₁) := by
  unfold refuseMgmt
  repeat' (first
    | with_reducible exact hK
    | with_reducible assumption
    | with_reducible exact List.Subset.trans (by decide) hL
    | with_reducible apply report_frame
    | with_reducible apply answer_frame)

theorem holdMgmt_frame {L : List Block} {s₀ s₁ : State} (op : Nat) (r : MgmtReq) (hK : changesOnly L s₀ s₁)
    (hL : [.sec] ⊆ L) : changesOnly L s₀ (holdMgmt op r s₁) := by
  unfold holdMgmt
  repeat' (first
    | with_reducible exact hK
    | with_reducible assumption
    | with_reducible exact List.Subset.trans (by decide) hL
    | split
    | fail_if_no_progress with_reducible refine changesOnly_lit ?_ ?_ ?_ ?_ ?_ ?_ ?_ ?_ ?_ ?_ ?_ ?_ ?_ ?_ ?_ ?_ ?_ ?_ ?_ ?_ ?_ ?_ ?_ ?_ ?_ ?_ ?_ ?_ ?_ ?_
    | with_reducible exact .inl rfl
    | exact Or.inr (hL (by decide))
    | dsimp only)

theorem mgmt_frame {L : List Block} {s₀ s₁ : State} (op : Nat) (role : Role) (layout : Bool → Bytes → Bool)
    {f : MgmtReq → State → State} (r : MgmtReq) (hK : changesOnly L s₀ s₁)
    (hf : ∀ y, changesOnly L s₀ y → changesOnly L s₀ (f r y)) (hL : [.out, .log, .host, .sec] ⊆ L) :
    changesOnly L s₀ (mgmt op role layout f r s₁) := by
  unfold mgmt
  repeat' (first
    | with_reducible exact hK
    | with_reducible exact List.Subset.trans (by decide) hL
    | with_reducible apply refuseMgmt_frame
    | with_reducible apply holdMgmt_frame
    | with_reducible apply hf
    | with_reducible apply acceptCounter_frame
    | split
    | dsimp only)

theorem execGetTelemetry_frame {s₁ : State} (r : MgmtReq) :
    ∃ s₂, execGetTelemetry r s₁ = .next s₂ ∧ changesOnly [.out, .log, .host, .sec] s₁ s₂ := by
  have hK : changesOnly [.out, .log, .host, .sec] s₁ s₁ := changesOnly_refl
  have hL : ([.out, .log, .host, .sec] : List Block) ⊆ [.out, .log, .host, .sec] := List.Subset.refl _
  refine ⟨_, rfl, ?_⟩
  repeat' (first
    | with_reducible exact hK
    | with_reducible assumption
    | with_reducible exact List.Subset.trans (by decide) hL
    | with_reducible apply answer_frame
    | with_reducible refine mgmt_frame _ _ _ _ ?_ (fun _ _ => ?_) ?_)

theorem execGetEvents_frame {s₁ : State} (r : MgmtReq) :
    ∃ s₂, execGetEvents r s₁ = .next s₂ ∧ changesOnly [.out, .log, .host, .sec] s₁ s₂ := by
  have hK : changesOnly [.out, .log, .host, .sec] s₁ s₁ := changesOnly_refl
  have hL : ([.out, .log, .host, .sec] : List Block) ⊆ [.out, .log, .host, .sec] := List.Subset.refl _
  refine ⟨_, rfl, ?_⟩
  repeat' (first
    | with_reducible exact hK
    | with_reducible assumption
    | with_reducible exact List.Subset.trans (by decide) hL
    | with_reducible apply answer_frame
    | with_reducible refine mgmt_frame _ _ _ _ ?_ (fun _ _ => ?_) ?_)

theorem setCap_frame {L : List Block} {s₀ s₁ : State} (cap : Nat) (lease : Bool) (hK : changesOnly L s₀ s₁)
    (hL : [.out, .log, .host, .power] ⊆ L) : changesOnly L s₀ (setCap cap lease s₁) := by
  unfold setCap
  repeat' (first
    | with_reducible exact hK
    | with_reducible assumption
    | with_reducible exact List.Subset.trans (by decide) hL
    | with_reducible apply reportPower_frame
    | with_reducible refine changesOnly_ite ?_ ?_
    | split
    | fail_if_no_progress with_reducible refine changesOnly_out ?_ (List.Subset.trans (by decide) hL)
    | fail_if_no_progress with_reducible refine changesOnly_log ?_ (List.Subset.trans (by decide) hL)
    | fail_if_no_progress with_reducible refine changesOnly_host ?_ (List.Subset.trans (by decide) hL)
    | fail_if_no_progress with_reducible refine changesOnly_power ?_ (List.Subset.trans (by decide) hL)
    | fail_if_no_progress with_reducible refine changesOnly_lit ?_ ?_ ?_ ?_ ?_ ?_ ?_ ?_ ?_ ?_ ?_ ?_ ?_ ?_ ?_ ?_ ?_ ?_ ?_ ?_ ?_ ?_ ?_ ?_ ?_ ?_ ?_ ?_ ?_ ?_
    | with_reducible exact .inl rfl
    | exact Or.inr (hL (by decide)))

theorem execSetPowerCap_frame {s₁ : State} (r : MgmtReq) :
    ∃ s₂, execSetPowerCap r s₁ = .next s₂ ∧ changesOnly [.out, .log, .host, .sec, .power] s₁ s₂ := by
  have hK : changesOnly [.out, .log, .host, .sec, .power] s₁ s₁ := changesOnly_refl
  have hL : ([.out, .log, .host, .sec, .power] : List Block) ⊆ [.out, .log, .host, .sec, .power] := List.Subset.refl _
  refine ⟨_, rfl, ?_⟩
  repeat' (first
    | with_reducible exact hK
    | with_reducible assumption
    | with_reducible exact List.Subset.trans (by decide) hL
    | with_reducible apply answer_frame
    | with_reducible apply refuseMgmt_frame
    | with_reducible refine mgmt_frame _ _ _ _ ?_ (fun _ _ => ?_) ?_
    | with_reducible apply setCap_frame
    | with_reducible refine changesOnly_ite ?_ ?_
    | split
    | fail_if_no_progress with_reducible refine changesOnly_out ?_ (List.Subset.trans (by decide) hL)
    | fail_if_no_progress with_reducible refine changesOnly_log ?_ (List.Subset.trans (by decide) hL)
    | fail_if_no_progress with_reducible refine changesOnly_host ?_ (List.Subset.trans (by decide) hL)
    | fail_if_no_progress with_reducible refine changesOnly_sec ?_ (List.Subset.trans (by decide) hL)
    | fail_if_no_progress with_reducible refine changesOnly_power ?_ (List.Subset.trans (by decide) hL)
    | fail_if_no_progress with_reducible refine changesOnly_lit ?_ ?_ ?_ ?_ ?_ ?_ ?_ ?_ ?_ ?_ ?_ ?_ ?_ ?_ ?_ ?_ ?_ ?_ ?_ ?_ ?_ ?_ ?_ ?_ ?_ ?_ ?_ ?_ ?_ ?_
    | with_reducible exact .inl rfl)

theorem execSetSlew_frame {s₁ : State} (r : MgmtReq) :
    ∃ s₂, execSetSlew r s₁ = .next s₂ ∧ changesOnly [.out, .log, .host, .sec, .power] s₁ s₂ := by
  have hK : changesOnly [.out, .log, .host, .sec, .power] s₁ s₁ := changesOnly_refl
  have hL : ([.out, .log, .host, .sec, .power] : List Block) ⊆ [.out, .log, .host, .sec, .power] := List.Subset.refl _
  refine ⟨_, rfl, ?_⟩
  repeat' (first
    | with_reducible exact hK
    | with_reducible assumption
    | with_reducible exact List.Subset.trans (by decide) hL
    | with_reducible apply answer_frame
    | with_reducible apply refuseMgmt_frame
    | with_reducible refine mgmt_frame _ _ _ _ ?_ (fun _ _ => ?_) ?_
    | with_reducible refine changesOnly_ite ?_ ?_
    | split
    | fail_if_no_progress with_reducible refine changesOnly_out ?_ (List.Subset.trans (by decide) hL)
    | fail_if_no_progress with_reducible refine changesOnly_log ?_ (List.Subset.trans (by decide) hL)
    | fail_if_no_progress with_reducible refine changesOnly_host ?_ (List.Subset.trans (by decide) hL)
    | fail_if_no_progress with_reducible refine changesOnly_sec ?_ (List.Subset.trans (by decide) hL)
    | fail_if_no_progress with_reducible refine changesOnly_power ?_ (List.Subset.trans (by decide) hL)
    | fail_if_no_progress with_reducible refine changesOnly_lit ?_ ?_ ?_ ?_ ?_ ?_ ?_ ?_ ?_ ?_ ?_ ?_ ?_ ?_ ?_ ?_ ?_ ?_ ?_ ?_ ?_ ?_ ?_ ?_ ?_ ?_ ?_ ?_ ?_ ?_
    | with_reducible exact .inl rfl
    | exact Or.inr (hL (by decide)))

theorem setOrphan_frame {L : List Block} {s₀ s₁ : State} (v : Nat) (hK : changesOnly L s₀ s₁)
    (hL : [.power] ⊆ L) : changesOnly L s₀ (setOrphan v s₁) := by
  unfold setOrphan
  repeat' (first
    | with_reducible exact hK
    | with_reducible assumption
    | with_reducible exact List.Subset.trans (by decide) hL
    | with_reducible refine changesOnly_ite ?_ ?_
    | split
    | fail_if_no_progress with_reducible refine changesOnly_power ?_ (List.Subset.trans (by decide) hL)
    | fail_if_no_progress with_reducible refine changesOnly_lit ?_ ?_ ?_ ?_ ?_ ?_ ?_ ?_ ?_ ?_ ?_ ?_ ?_ ?_ ?_ ?_ ?_ ?_ ?_ ?_ ?_ ?_ ?_ ?_ ?_ ?_ ?_ ?_ ?_ ?_
    | with_reducible exact .inl rfl
    | exact Or.inr (hL (by decide)))

theorem execSetOrphanCap_frame {s₁ : State} (r : MgmtReq) :
    ∃ s₂, execSetOrphanCap r s₁ = .next s₂ ∧ changesOnly [.out, .log, .host, .sec, .power] s₁ s₂ := by
  have hK : changesOnly [.out, .log, .host, .sec, .power] s₁ s₁ := changesOnly_refl
  have hL : ([.out, .log, .host, .sec, .power] : List Block) ⊆ [.out, .log, .host, .sec, .power] := List.Subset.refl _
  refine ⟨_, rfl, ?_⟩
  repeat' (first
    | with_reducible exact hK
    | with_reducible assumption
    | with_reducible exact List.Subset.trans (by decide) hL
    | with_reducible apply answer_frame
    | with_reducible apply refuseMgmt_frame
    | with_reducible refine mgmt_frame _ _ _ _ ?_ (fun _ _ => ?_) ?_
    | with_reducible apply setOrphan_frame
    | with_reducible refine changesOnly_ite ?_ ?_
    | split
    | fail_if_no_progress with_reducible refine changesOnly_out ?_ (List.Subset.trans (by decide) hL)
    | fail_if_no_progress with_reducible refine changesOnly_log ?_ (List.Subset.trans (by decide) hL)
    | fail_if_no_progress with_reducible refine changesOnly_host ?_ (List.Subset.trans (by decide) hL)
    | fail_if_no_progress with_reducible refine changesOnly_sec ?_ (List.Subset.trans (by decide) hL)
    | fail_if_no_progress with_reducible refine changesOnly_power ?_ (List.Subset.trans (by decide) hL)
    | fail_if_no_progress with_reducible refine changesOnly_lit ?_ ?_ ?_ ?_ ?_ ?_ ?_ ?_ ?_ ?_ ?_ ?_ ?_ ?_ ?_ ?_ ?_ ?_ ?_ ?_ ?_ ?_ ?_ ?_ ?_ ?_ ?_ ?_ ?_ ?_
    | with_reducible exact .inl rfl)

theorem execStoreNv_frame {s₁ : State} (r : MgmtReq) :
    ∃ s₂, execStoreNv r s₁ = .next s₂ ∧ changesOnly [.out, .log, .host, .sec, .nv] s₁ s₂ := by
  have hK : changesOnly [.out, .log, .host, .sec, .nv] s₁ s₁ := changesOnly_refl
  have hL : ([.out, .log, .host, .sec, .nv] : List Block) ⊆ [.out, .log, .host, .sec, .nv] := List.Subset.refl _
  refine ⟨_, rfl, ?_⟩
  repeat' (first
    | with_reducible exact hK
    | with_reducible assumption
    | with_reducible exact List.Subset.trans (by decide) hL
    | with_reducible apply requestStore_frame
    | with_reducible refine mgmt_frame _ _ _ _ ?_ (fun _ _ => ?_) ?_)

theorem execStartScrub_frame {s₁ : State} (r : MgmtReq) :
    ∃ s₂, execStartScrub r s₁ = .next s₂ ∧ changesOnly [.out, .log, .host, .sec] s₁ s₂ := by
  have hK : changesOnly [.out, .log, .host, .sec] s₁ s₁ := changesOnly_refl
  have hL : ([.out, .log, .host, .sec] : List Block) ⊆ [.out, .log, .host, .sec] := List.Subset.refl _
  refine ⟨_, rfl, ?_⟩
  repeat' (first
    | with_reducible exact hK
    | with_reducible assumption
    | with_reducible exact List.Subset.trans (by decide) hL
    | with_reducible apply answer_frame
    | with_reducible refine mgmt_frame _ _ _ _ ?_ (fun _ _ => ?_) ?_)

theorem resetByMgmt_frame {L : List Block} {s₀ s₁ : State}  (hK : changesOnly L s₀ s₁)
    (hL : [.out, .ident, .start, .log, .host, .ctx, .sec, .loader, .installed, .tiles, .dies, .links, .signals, .defects, .selfTest, .mem, .power, .thermal, .nv, .ports, .fabricGroup, .pattern, .field, .coll, .observed, .snapshots, .badShards] ⊆ L) : changesOnly L s₀ (resetByMgmt s₁) := by
  unfold resetByMgmt
  repeat' (first
    | with_reducible exact hK
    | with_reducible assumption
    | with_reducible exact List.Subset.trans (by decide) hL
    | with_reducible apply resetState_frame
    | with_reducible apply dropForReset_frame
    | with_reducible apply runRom_frame)

theorem execResetEngine_frame {s₁ : State} (r : MgmtReq) :
    ∃ s₂, execResetEngine r s₁ = .next s₂ ∧ changesOnly [.out, .ident, .start, .log, .host, .ctx, .sec, .loader, .installed, .tiles, .dies, .links, .signals, .defects, .selfTest, .mem, .power, .thermal, .nv, .ports, .fabricGroup, .pattern, .field, .coll, .observed, .snapshots, .badShards] s₁ s₂ := by
  have hK : changesOnly [.out, .ident, .start, .log, .host, .ctx, .sec, .loader, .installed, .tiles, .dies, .links, .signals, .defects, .selfTest, .mem, .power, .thermal, .nv, .ports, .fabricGroup, .pattern, .field, .coll, .observed, .snapshots, .badShards] s₁ s₁ := changesOnly_refl
  have hL : ([.out, .ident, .start, .log, .host, .ctx, .sec, .loader, .installed, .tiles, .dies, .links, .signals, .defects, .selfTest, .mem, .power, .thermal, .nv, .ports, .fabricGroup, .pattern, .field, .coll, .observed, .snapshots, .badShards] : List Block) ⊆ [.out, .ident, .start, .log, .host, .ctx, .sec, .loader, .installed, .tiles, .dies, .links, .signals, .defects, .selfTest, .mem, .power, .thermal, .nv, .ports, .fabricGroup, .pattern, .field, .coll, .observed, .snapshots, .badShards] := List.Subset.refl _
  refine ⟨_, rfl, ?_⟩
  repeat' (first
    | with_reducible exact hK
    | with_reducible assumption
    | with_reducible exact List.Subset.trans (by decide) hL
    | with_reducible apply answer_frame
    | with_reducible refine mgmt_frame _ _ _ _ ?_ (fun _ _ => ?_) ?_
    | with_reducible apply resetByMgmt_frame)

theorem mgmtContext_frame {L : List Block} {s₀ s₁ : State} (op : Nat) {f : Slot → State → Answer × State} (r : MgmtReq)
    (hK : changesOnly L s₀ s₁) (hf : ∀ i, changesOnly L s₀ (f i s₁).2) (hL : [.out, .log, .host] ⊆ L) :
    changesOnly L s₀ (mgmtContext op f r s₁) := by
  unfold mgmtContext
  dsimp only
  have h := hf (Fin.ofNat 8 (byteAt r.body 0).toNat)
  generalize f (Fin.ofNat 8 (byteAt r.body 0).toNat) s₁ = a at h
  obtain ⟨a, t⟩ := a
  cases a
  · exact refuseMgmt_frame _ _ h (List.Subset.trans (by decide) hL)
  · exact answer_frame _ _ _ h (List.Subset.trans (by decide) hL)
  · exact h

theorem whenHandsFree_frame {L : List Block} {s₀ s₁ : State} (op : Nat) {f : MgmtReq → State → State} (r : MgmtReq)
    (hK : changesOnly L s₀ s₁) (hf : changesOnly L s₀ (f r s₁)) (hL : [.sec] ⊆ L) :
    changesOnly L s₀ (whenHandsFree op f r s₁) := by
  unfold whenHandsFree
  split
  · exact hf
  · split
    · exact holdMgmt_frame _ _ hK (List.Subset.trans (by decide) hL)
    · exact hK

theorem execMgmtCloseContext_frame {s₁ : State} (r : MgmtReq) :
    ∃ s₂, execMgmtCloseContext r s₁ = .next s₂ ∧ changesOnly [.free, .out, .log, .host, .ctx, .sec, .loader, .installed, .tiles, .links, .signals, .mem, .coll] s₁ s₂ := by
  have hK : changesOnly [.free, .out, .log, .host, .ctx, .sec, .loader, .installed, .tiles, .links, .signals, .mem, .coll] s₁ s₁ := changesOnly_refl
  have hL : ([.free, .out, .log, .host, .ctx, .sec, .loader, .installed, .tiles, .links, .signals, .mem, .coll] : List Block) ⊆ [.free, .out, .log, .host, .ctx, .sec, .loader, .installed, .tiles, .links, .signals, .mem, .coll] := List.Subset.refl _
  refine ⟨_, rfl, ?_⟩
  repeat' (first
    | with_reducible exact hK
    | with_reducible assumption
    | with_reducible exact List.Subset.trans (by decide) hL
    | with_reducible apply closeRequest_frame
    | with_reducible refine mgmt_frame _ _ _ _ ?_ (fun _ _ => ?_) ?_
    | with_reducible refine mgmtContext_frame _ _ ?_ (fun _ => ?_) ?_
    | with_reducible apply whenHandsFree_frame
    | split
    | fail_if_no_progress with_reducible refine changesOnly_lit ?_ ?_ ?_ ?_ ?_ ?_ ?_ ?_ ?_ ?_ ?_ ?_ ?_ ?_ ?_ ?_ ?_ ?_ ?_ ?_ ?_ ?_ ?_ ?_ ?_ ?_ ?_ ?_ ?_ ?_
    | with_reducible exact .inl rfl
    | exact Or.inr (hL (by decide))
    | dsimp only)

theorem execMgmtSwitchContext_frame {s₁ : State} (r : MgmtReq) :
    ∃ s₂, execMgmtSwitchContext r s₁ = .next s₂ ∧ changesOnly [.out, .log, .host, .ctx, .sec, .installed, .tiles, .links, .signals, .coll] s₁ s₂ := by
  have hK : changesOnly [.out, .log, .host, .ctx, .sec, .installed, .tiles, .links, .signals, .coll] s₁ s₁ := changesOnly_refl
  have hL : ([.out, .log, .host, .ctx, .sec, .installed, .tiles, .links, .signals, .coll] : List Block) ⊆ [.out, .log, .host, .ctx, .sec, .installed, .tiles, .links, .signals, .coll] := List.Subset.refl _
  refine ⟨_, rfl, ?_⟩
  repeat' (first
    | with_reducible exact hK
    | with_reducible assumption
    | with_reducible exact List.Subset.trans (by decide) hL
    | with_reducible apply switchRequest_frame
    | with_reducible refine mgmt_frame _ _ _ _ ?_ (fun _ _ => ?_) ?_
    | with_reducible refine mgmtContext_frame _ _ ?_ (fun _ => ?_) ?_
    | with_reducible apply whenHandsFree_frame
    | split
    | fail_if_no_progress with_reducible refine changesOnly_lit ?_ ?_ ?_ ?_ ?_ ?_ ?_ ?_ ?_ ?_ ?_ ?_ ?_ ?_ ?_ ?_ ?_ ?_ ?_ ?_ ?_ ?_ ?_ ?_ ?_ ?_ ?_ ?_ ?_ ?_
    | with_reducible exact .inl rfl
    | exact Or.inr (hL (by decide))
    | dsimp only)

theorem setPlan_frame {L : List Block} {s₀ s₁ : State} (p : PortId) (b : Bytes) (hK : changesOnly L s₀ s₁)
    (hL : [.out, .log, .host, .ports] ⊆ L) : changesOnly L s₀ (setPlan p b s₁) := by
  unfold setPlan
  repeat' (first
    | with_reducible exact hK
    | with_reducible assumption
    | with_reducible exact List.Subset.trans (by decide) hL
    | with_reducible apply modPort_frame
    | with_reducible apply setEnable_frame)

theorem execSetCabling_frame {s₁ : State} (r : MgmtReq) :
    ∃ s₂, execSetCabling r s₁ = .next s₂ ∧ changesOnly [.out, .log, .host, .sec, .ports, .fabricGroup] s₁ s₂ := by
  have hK : changesOnly [.out, .log, .host, .sec, .ports, .fabricGroup] s₁ s₁ := changesOnly_refl
  have hL : ([.out, .log, .host, .sec, .ports, .fabricGroup] : List Block) ⊆ [.out, .log, .host, .sec, .ports, .fabricGroup] := List.Subset.refl _
  refine ⟨_, rfl, ?_⟩
  repeat' (first
    | with_reducible exact hK
    | with_reducible assumption
    | with_reducible exact List.Subset.trans (by decide) hL
    | with_reducible apply answer_frame
    | with_reducible refine mgmt_frame _ _ _ _ ?_ (fun _ _ => ?_) ?_
    | with_reducible apply setPlan_frame
    | with_reducible refine changesOnly_ite ?_ ?_
    | split
    | fail_if_no_progress with_reducible refine changesOnly_out ?_ (List.Subset.trans (by decide) hL)
    | fail_if_no_progress with_reducible refine changesOnly_log ?_ (List.Subset.trans (by decide) hL)
    | fail_if_no_progress with_reducible refine changesOnly_host ?_ (List.Subset.trans (by decide) hL)
    | fail_if_no_progress with_reducible refine changesOnly_sec ?_ (List.Subset.trans (by decide) hL)
    | fail_if_no_progress with_reducible refine changesOnly_ports ?_ (List.Subset.trans (by decide) hL)
    | fail_if_no_progress with_reducible refine changesOnly_fabricGroup ?_ (List.Subset.trans (by decide) hL)
    | fail_if_no_progress with_reducible refine changesOnly_lit ?_ ?_ ?_ ?_ ?_ ?_ ?_ ?_ ?_ ?_ ?_ ?_ ?_ ?_ ?_ ?_ ?_ ?_ ?_ ?_ ?_ ?_ ?_ ?_ ?_ ?_ ?_ ?_ ?_ ?_
    | with_reducible exact .inl rfl
    | exact Or.inr (hL (by decide)))

theorem execSetSwitchRoot_frame {s₁ : State} (r : MgmtReq) :
    ∃ s₂, execSetSwitchRoot r s₁ = .next s₂ ∧ changesOnly [.out, .log, .host, .sec] s₁ s₂ := by
  have hK : changesOnly [.out, .log, .host, .sec] s₁ s₁ := changesOnly_refl
  have hL : ([.out, .log, .host, .sec] : List Block) ⊆ [.out, .log, .host, .sec] := List.Subset.refl _
  refine ⟨_, rfl, ?_⟩
  repeat' (first
    | with_reducible exact hK
    | with_reducible assumption
    | with_reducible exact List.Subset.trans (by decide) hL
    | with_reducible apply answer_frame
    | with_reducible refine mgmt_frame _ _ _ _ ?_ (fun _ _ => ?_) ?_
    | with_reducible refine changesOnly_ite ?_ ?_
    | split
    | fail_if_no_progress with_reducible refine changesOnly_out ?_ (List.Subset.trans (by decide) hL)
    | fail_if_no_progress with_reducible refine changesOnly_log ?_ (List.Subset.trans (by decide) hL)
    | fail_if_no_progress with_reducible refine changesOnly_host ?_ (List.Subset.trans (by decide) hL)
    | fail_if_no_progress with_reducible refine changesOnly_sec ?_ (List.Subset.trans (by decide) hL)
    | fail_if_no_progress with_reducible refine changesOnly_lit ?_ ?_ ?_ ?_ ?_ ?_ ?_ ?_ ?_ ?_ ?_ ?_ ?_ ?_ ?_ ?_ ?_ ?_ ?_ ?_ ?_ ?_ ?_ ?_ ?_ ?_ ?_ ?_ ?_ ?_
    | with_reducible exact .inl rfl
    | exact Or.inr (hL (by decide)))

theorem execFirmwareBegin_frame {s₁ : State} (r : MgmtReq) :
    ∃ s₂, execFirmwareBegin r s₁ = .next s₂ ∧ changesOnly [.out, .log, .host, .sec] s₁ s₂ := by
  have hK : changesOnly [.out, .log, .host, .sec] s₁ s₁ := changesOnly_refl
  have hL : ([.out, .log, .host, .sec] : List Block) ⊆ [.out, .log, .host, .sec] := List.Subset.refl _
  refine ⟨_, rfl, ?_⟩
  repeat' (first
    | with_reducible exact hK
    | with_reducible assumption
    | with_reducible exact List.Subset.trans (by decide) hL
    | with_reducible apply answer_frame
    | with_reducible refine mgmt_frame _ _ _ _ ?_ (fun _ _ => ?_) ?_
    | with_reducible refine changesOnly_ite ?_ ?_
    | split
    | fail_if_no_progress with_reducible refine changesOnly_out ?_ (List.Subset.trans (by decide) hL)
    | fail_if_no_progress with_reducible refine changesOnly_log ?_ (List.Subset.trans (by decide) hL)
    | fail_if_no_progress with_reducible refine changesOnly_host ?_ (List.Subset.trans (by decide) hL)
    | fail_if_no_progress with_reducible refine changesOnly_sec ?_ (List.Subset.trans (by decide) hL)
    | fail_if_no_progress with_reducible refine changesOnly_lit ?_ ?_ ?_ ?_ ?_ ?_ ?_ ?_ ?_ ?_ ?_ ?_ ?_ ?_ ?_ ?_ ?_ ?_ ?_ ?_ ?_ ?_ ?_ ?_ ?_ ?_ ?_ ?_ ?_ ?_
    | with_reducible exact .inl rfl
    | exact Or.inr (hL (by decide)))

theorem execFirmwareChunk_frame {s₁ : State} (r : MgmtReq) :
    ∃ s₂, execFirmwareChunk r s₁ = .next s₂ ∧ changesOnly [.out, .log, .host, .sec] s₁ s₂ := by
  have hK : changesOnly [.out, .log, .host, .sec] s₁ s₁ := changesOnly_refl
  have hL : ([.out, .log, .host, .sec] : List Block) ⊆ [.out, .log, .host, .sec] := List.Subset.refl _
  refine ⟨_, rfl, ?_⟩
  repeat' (first
    | with_reducible exact hK
    | with_reducible assumption
    | with_reducible exact List.Subset.trans (by decide) hL
    | with_reducible apply answer_frame
    | with_reducible apply refuseMgmt_frame
    | with_reducible refine mgmt_frame _ _ _ _ ?_ (fun _ _ => ?_) ?_
    | with_reducible refine changesOnly_ite ?_ ?_
    | split
    | fail_if_no_progress with_reducible refine changesOnly_out ?_ (List.Subset.trans (by decide) hL)
    | fail_if_no_progress with_reducible refine changesOnly_log ?_ (List.Subset.trans (by decide) hL)
    | fail_if_no_progress with_reducible refine changesOnly_host ?_ (List.Subset.trans (by decide) hL)
    | fail_if_no_progress with_reducible refine changesOnly_sec ?_ (List.Subset.trans (by decide) hL)
    | fail_if_no_progress with_reducible refine changesOnly_lit ?_ ?_ ?_ ?_ ?_ ?_ ?_ ?_ ?_ ?_ ?_ ?_ ?_ ?_ ?_ ?_ ?_ ?_ ?_ ?_ ?_ ?_ ?_ ?_ ?_ ?_ ?_ ?_ ?_ ?_
    | with_reducible exact .inl rfl
    | exact Or.inr (hL (by decide)))

theorem commitImage_frame {L : List Block} {s₀ s₁ : State}  (hK : changesOnly L s₀ s₁)
    (hL : [.out, .log, .host, .sec, .nv] ⊆ L) : changesOnly L s₀ (commitImage s₁) := by
  unfold commitImage
  repeat' (first
    | with_reducible exact hK
    | with_reducible assumption
    | with_reducible exact List.Subset.trans (by decide) hL
    | with_reducible apply reportNv_frame
    | with_reducible apply answer_frame
    | with_reducible apply refuseMgmt_frame
    | with_reducible refine changesOnly_ite ?_ ?_
    | split
    | fail_if_no_progress with_reducible refine changesOnly_out ?_ (List.Subset.trans (by decide) hL)
    | fail_if_no_progress with_reducible refine changesOnly_log ?_ (List.Subset.trans (by decide) hL)
    | fail_if_no_progress with_reducible refine changesOnly_host ?_ (List.Subset.trans (by decide) hL)
    | fail_if_no_progress with_reducible refine changesOnly_sec ?_ (List.Subset.trans (by decide) hL)
    | fail_if_no_progress with_reducible refine changesOnly_nv ?_ (List.Subset.trans (by decide) hL)
    | fail_if_no_progress with_reducible refine changesOnly_lit ?_ ?_ ?_ ?_ ?_ ?_ ?_ ?_ ?_ ?_ ?_ ?_ ?_ ?_ ?_ ?_ ?_ ?_ ?_ ?_ ?_ ?_ ?_ ?_ ?_ ?_ ?_ ?_ ?_ ?_
    | with_reducible exact .inl rfl
    | exact Or.inr (hL (by decide)))

theorem execFirmwareCommit_frame {s₁ : State} (r : MgmtReq) :
    ∃ s₂, execFirmwareCommit r s₁ = .next s₂ ∧ changesOnly [.out, .log, .host, .sec, .nv] s₁ s₂ := by
  have hK : changesOnly [.out, .log, .host, .sec, .nv] s₁ s₁ := changesOnly_refl
  have hL : ([.out, .log, .host, .sec, .nv] : List Block) ⊆ [.out, .log, .host, .sec, .nv] := List.Subset.refl _
  refine ⟨_, rfl, ?_⟩
  repeat' (first
    | with_reducible exact hK
    | with_reducible assumption
    | with_reducible exact List.Subset.trans (by decide) hL
    | with_reducible refine mgmt_frame _ _ _ _ ?_ (fun _ _ => ?_) ?_
    | with_reducible apply commitImage_frame)

theorem setCred_frame {L : List Block} {s₀ s₁ : State} (k : Nat) (c : Option Cred) (hK : changesOnly L s₀ s₁)
    (hL : [.sec] ⊆ L) : changesOnly L s₀ (setCred k c s₁) := by
  unfold setCred
  repeat' (first
    | with_reducible exact hK
    | with_reducible assumption
    | with_reducible exact List.Subset.trans (by decide) hL
    | with_reducible refine changesOnly_ite ?_ ?_
    | split
    | fail_if_no_progress with_reducible refine changesOnly_sec ?_ (List.Subset.trans (by decide) hL)
    | fail_if_no_progress with_reducible refine changesOnly_lit ?_ ?_ ?_ ?_ ?_ ?_ ?_ ?_ ?_ ?_ ?_ ?_ ?_ ?_ ?_ ?_ ?_ ?_ ?_ ?_ ?_ ?_ ?_ ?_ ?_ ?_ ?_ ?_ ?_ ?_
    | with_reducible exact .inl rfl
    | exact Or.inr (hL (by decide)))

theorem execEnrollCredential_frame {s₁ : State} (r : MgmtReq) :
    ∃ s₂, execEnrollCredential r s₁ = .next s₂ ∧ changesOnly [.out, .log, .host, .sec] s₁ s₂ := by
  have hK : changesOnly [.out, .log, .host, .sec] s₁ s₁ := changesOnly_refl
  have hL : ([.out, .log, .host, .sec] : List Block) ⊆ [.out, .log, .host, .sec] := List.Subset.refl _
  refine ⟨_, rfl, ?_⟩
  repeat' (first
    | with_reducible exact hK
    | with_reducible assumption
    | with_reducible exact List.Subset.trans (by decide) hL
    | with_reducible apply answer_frame
    | with_reducible refine mgmt_frame _ _ _ _ ?_ (fun _ _ => ?_) ?_
    | with_reducible apply setCred_frame)

theorem execRevokeCredential_frame {s₁ : State} (r : MgmtReq) :
    ∃ s₂, execRevokeCredential r s₁ = .next s₂ ∧ changesOnly [.out, .log, .host, .sec] s₁ s₂ := by
  have hK : changesOnly [.out, .log, .host, .sec] s₁ s₁ := changesOnly_refl
  have hL : ([.out, .log, .host, .sec] : List Block) ⊆ [.out, .log, .host, .sec] := List.Subset.refl _
  refine ⟨_, rfl, ?_⟩
  repeat' (first
    | with_reducible exact hK
    | with_reducible assumption
    | with_reducible exact List.Subset.trans (by decide) hL
    | with_reducible apply answer_frame
    | with_reducible refine mgmt_frame _ _ _ _ ?_ (fun _ _ => ?_) ?_
    | with_reducible apply setCred_frame)

theorem eraseGroups_frame {L : List Block} {s₀ s₁ : State} (id : Nat) (hK : changesOnly L s₀ s₁)
    (hL : [.sec] ⊆ L) : changesOnly L s₀ (eraseGroups id s₁) := by
  unfold eraseGroups
  repeat' (first
    | with_reducible exact hK
    | with_reducible assumption
    | with_reducible exact List.Subset.trans (by decide) hL
    | with_reducible refine changesOnly_ite ?_ ?_
    | split
    | fail_if_no_progress with_reducible refine changesOnly_sec ?_ (List.Subset.trans (by decide) hL)
    | fail_if_no_progress with_reducible refine changesOnly_lit ?_ ?_ ?_ ?_ ?_ ?_ ?_ ?_ ?_ ?_ ?_ ?_ ?_ ?_ ?_ ?_ ?_ ?_ ?_ ?_ ?_ ?_ ?_ ?_ ?_ ?_ ?_ ?_ ?_ ?_
    | with_reducible exact .inl rfl
    | exact Or.inr (hL (by decide)))

theorem execEraseGroupKeys_frame {s₁ : State} (r : MgmtReq) :
    ∃ s₂, execEraseGroupKeys r s₁ = .next s₂ ∧ changesOnly [.out, .log, .host, .sec] s₁ s₂ := by
  have hK : changesOnly [.out, .log, .host, .sec] s₁ s₁ := changesOnly_refl
  have hL : ([.out, .log, .host, .sec] : List Block) ⊆ [.out, .log, .host, .sec] := List.Subset.refl _
  refine ⟨_, rfl, ?_⟩
  repeat' (first
    | with_reducible exact hK
    | with_reducible assumption
    | with_reducible exact List.Subset.trans (by decide) hL
    | with_reducible apply answer_frame
    | with_reducible refine mgmt_frame _ _ _ _ ?_ (fun _ _ => ?_) ?_
    | with_reducible apply eraseGroups_frame)

theorem execDebugChallenge_frame {s₁ : State} (r : MgmtReq) :
    ∃ s₂, execDebugChallenge r s₁ = .next s₂ ∧ changesOnly [.free, .out, .log, .host, .sec] s₁ s₂ := by
  have hK : changesOnly [.free, .out, .log, .host, .sec] s₁ s₁ := changesOnly_refl
  have hL : ([.free, .out, .log, .host, .sec] : List Block) ⊆ [.free, .out, .log, .host, .sec] := List.Subset.refl _
  refine ⟨_, rfl, ?_⟩
  repeat' (first
    | with_reducible exact hK
    | with_reducible assumption
    | with_reducible exact List.Subset.trans (by decide) hL
    | with_reducible apply drawNext_frame
    | with_reducible apply answer_frame
    | with_reducible refine mgmt_frame _ _ _ _ ?_ (fun _ _ => ?_) ?_
    | with_reducible refine changesOnly_ite ?_ ?_
    | split
    | fail_if_no_progress with_reducible refine changesOnly_free ?_ (List.Subset.trans (by decide) hL)
    | fail_if_no_progress with_reducible refine changesOnly_out ?_ (List.Subset.trans (by decide) hL)
    | fail_if_no_progress with_reducible refine changesOnly_log ?_ (List.Subset.trans (by decide) hL)
    | fail_if_no_progress with_reducible refine changesOnly_host ?_ (List.Subset.trans (by decide) hL)
    | fail_if_no_progress with_reducible refine changesOnly_sec ?_ (List.Subset.trans (by decide) hL)
    | fail_if_no_progress with_reducible refine changesOnly_lit ?_ ?_ ?_ ?_ ?_ ?_ ?_ ?_ ?_ ?_ ?_ ?_ ?_ ?_ ?_ ?_ ?_ ?_ ?_ ?_ ?_ ?_ ?_ ?_ ?_ ?_ ?_ ?_ ?_ ?_
    | with_reducible exact .inl rfl
    | exact Or.inr (hL (by decide)))

theorem unlockDebug_frame {L : List Block} {s₀ s₁ : State} (scope : Nat) (hK : changesOnly L s₀ s₁)
    (hL : [.free, .out, .ident, .log, .host, .ctx, .sec, .loader, .installed, .tiles, .links, .signals, .mem, .coll] ⊆ L) : changesOnly L s₀ (unlockDebug scope s₁) := by
  unfold unlockDebug
  repeat' (first
    | with_reducible exact hK
    | with_reducible assumption
    | with_reducible exact List.Subset.trans (by decide) hL
    | with_reducible refine foldl_frame ?_ (fun _ _ _ => ?_)
    | with_reducible refine foldl_fst_frame ?_ (fun _ _ _ => ?_)
    | with_reducible apply closeNow_frame
    | with_reducible apply closeSlot_frame
    | with_reducible apply finishDebug_frame
    | split
    | fail_if_no_progress with_reducible refine changesOnly_lit ?_ ?_ ?_ ?_ ?_ ?_ ?_ ?_ ?_ ?_ ?_ ?_ ?_ ?_ ?_ ?_ ?_ ?_ ?_ ?_ ?_ ?_ ?_ ?_ ?_ ?_ ?_ ?_ ?_ ?_
    | with_reducible exact .inl rfl
    | exact Or.inr (hL (by decide))
    | dsimp only)

theorem execDebugUnlock_frame {s₁ : State} (r : MgmtReq) :
    ∃ s₂, execDebugUnlock r s₁ = .next s₂ ∧ changesOnly [.free, .out, .ident, .log, .host, .ctx, .sec, .loader, .installed, .tiles, .links, .signals, .mem, .coll] s₁ s₂ := by
  have hK : changesOnly [.free, .out, .ident, .log, .host, .ctx, .sec, .loader, .installed, .tiles, .links, .signals, .mem, .coll] s₁ s₁ := changesOnly_refl
  have hL : ([.free, .out, .ident, .log, .host, .ctx, .sec, .loader, .installed, .tiles, .links, .signals, .mem, .coll] : List Block) ⊆ [.free, .out, .ident, .log, .host, .ctx, .sec, .loader, .installed, .tiles, .links, .signals, .mem, .coll] := List.Subset.refl _
  refine ⟨_, rfl, ?_⟩
  repeat' (first
    | with_reducible exact hK
    | with_reducible assumption
    | with_reducible exact List.Subset.trans (by decide) hL
    | with_reducible apply refuseMgmt_frame
    | with_reducible refine mgmt_frame _ _ _ _ ?_ (fun _ _ => ?_) ?_
    | with_reducible apply whenHandsFree_frame
    | with_reducible apply unlockDebug_frame
    | split
    | fail_if_no_progress with_reducible refine changesOnly_lit ?_ ?_ ?_ ?_ ?_ ?_ ?_ ?_ ?_ ?_ ?_ ?_ ?_ ?_ ?_ ?_ ?_ ?_ ?_ ?_ ?_ ?_ ?_ ?_ ?_ ?_ ?_ ?_ ?_ ?_
    | with_reducible exact .inl rfl
    | exact Or.inr (hL (by decide))
    | dsimp only)

theorem outcome_ite_frame {L : List Block} {s₀ : State} {c : Prop} [Decidable c]
    {a b : Host.Outcome State Fault Refusal}
    (ha : ∃ s₂, a = .next s₂ ∧ changesOnly L s₀ s₂) (hb : ∃ s₂, b = .next s₂ ∧ changesOnly L s₀ s₂) :
    ∃ s₂, (if c then a else b) = .next s₂ ∧ changesOnly L s₀ s₂ := by
  by_cases h : c
  · rwa [if_pos h]
  · rwa [if_neg h]

theorem outcome_widen {L M : List Block} {s₀ s₁ : State} {a : Host.Outcome State Fault Refusal}
    (h : ∃ s₂, a = .next s₂ ∧ changesOnly M s₁ s₂) (hK : changesOnly L s₀ s₁) (hL : M ⊆ L) :
    ∃ s₂, a = .next s₂ ∧ changesOnly L s₀ s₂ :=
  h.imp fun _ h => ⟨h.1, changesOnly_trans hK (changesOnly_mono h.2 hL)⟩

theorem mgmtOutcome_frame {L : List Block} {s₀ s₁ : State} (op : Nat) (r : MgmtReq) (hK : changesOnly L s₀ s₁)
    (hL : [.free, .out, .ident, .start, .log, .host, .ctx, .sec, .loader, .installed, .tiles, .dies, .links, .signals, .defects, .selfTest, .mem, .power, .thermal, .nv, .ports, .fabricGroup, .pattern, .field, .coll, .observed, .snapshots, .badShards] ⊆ L) :
    ∃ s₂, mgmtOutcome op r s₁ = .next s₂ ∧ changesOnly L s₀ s₂ := by
  unfold mgmtOutcome
  refine outcome_ite_frame (outcome_widen (execGetTelemetry_frame r) hK (List.Subset.trans (by decide) hL)) ?_
  refine outcome_ite_frame (outcome_widen (execGetEvents_frame r) hK (List.Subset.trans (by decide) hL)) ?_
  refine outcome_ite_frame (outcome_widen (execSetPowerCap_frame r) hK (List.Subset.trans (by decide) hL)) ?_
  refine outcome_ite_frame (outcome_widen (execSetSlew_frame r) hK (List.Subset.trans (by decide) hL)) ?_
  refine outcome_ite_frame (outcome_widen (execSetOrphanCap_frame r) hK (List.Subset.trans (by decide) hL)) ?_
  refine outcome_ite_frame (outcome_widen (execStoreNv_frame r) hK (List.Subset.trans (by decide) hL)) ?_
  refine outcome_ite_frame (outcome_widen (execStartScrub_frame r) hK (List.Subset.trans (by decide) hL)) ?_
  refine outcome_ite_frame (outcome_widen (execResetEngine_frame r) hK (List.Subset.trans (by decide) hL)) ?_
  refine outcome_ite_frame (outcome_widen (execMgmtCloseContext_frame r) hK (List.Subset.trans (by decide) hL)) ?_
  refine outcome_ite_frame (outcome_widen (execMgmtSwitchContext_frame r) hK (List.Subset.trans (by decide) hL)) ?_
  refine outcome_ite_frame (outcome_widen (execSetCabling_frame r) hK (List.Subset.trans (by decide) hL)) ?_
  refine outcome_ite_frame (outcome_widen (execSetSwitchRoot_frame r) hK (List.Subset.trans (by decide) hL)) ?_
  refine outcome_ite_frame (outcome_widen (execFirmwareBegin_frame r) hK (List.Subset.trans (by decide) hL)) ?_
  refine outcome_ite_frame (outcome_widen (execFirmwareChunk_frame r) hK (List.Subset.trans (by decide) hL)) ?_
  refine outcome_ite_frame (outcome_widen (execFirmwareCommit_frame r) hK (List.Subset.trans (by decide) hL)) ?_
  refine outcome_ite_frame (outcome_widen (execEnrollCredential_frame r) hK (List.Subset.trans (by decide) hL)) ?_
  refine outcome_ite_frame (outcome_widen (execRevokeCredential_frame r) hK (List.Subset.trans (by decide) hL)) ?_
  refine outcome_ite_frame (outcome_widen (execEraseGroupKeys_frame r) hK (List.Subset.trans (by decide) hL)) ?_
  refine outcome_ite_frame (outcome_widen (execDebugChallenge_frame r) hK (List.Subset.trans (by decide) hL)) ?_
  refine outcome_ite_frame (outcome_widen (execDebugUnlock_frame r) hK (List.Subset.trans (by decide) hL)) ?_
  exact ⟨_, rfl, hK⟩

theorem mgmtOf_frame {L : List Block} {s₀ s₁ : State} (x : Nat × MgmtReq) (hK : changesOnly L s₀ s₁)
    (hL : [.free, .out, .ident, .start, .log, .host, .ctx, .sec, .loader, .installed, .tiles, .dies, .links, .signals, .defects, .selfTest, .mem, .power, .thermal, .nv, .ports, .fabricGroup, .pattern, .field, .coll, .observed, .snapshots, .badShards] ⊆ L) : changesOnly L s₀ (mgmtOf s₁ x) := by
  obtain ⟨t, ht, hm⟩ := mgmtOutcome_frame x.1 x.2 hK (List.Subset.trans (by decide) hL)
  simpa only [mgmtOf, ht] using hm

theorem serveMgmt_frame {L : List Block} {s₀ s₁ : State}  (hK : changesOnly L s₀ s₁)
    (hL : [.free, .out, .ident, .start, .log, .host, .ctx, .sec, .loader, .installed, .tiles, .dies, .links, .signals, .defects, .selfTest, .mem, .power, .thermal, .nv, .ports, .fabricGroup, .pattern, .field, .coll, .observed, .snapshots, .badShards] ⊆ L) : changesOnly L s₀ (serveMgmt s₁) := by
  unfold serveMgmt
  repeat' (first
    | with_reducible exact hK
    | with_reducible assumption
    | with_reducible exact List.Subset.trans (by decide) hL
    | with_reducible refine foldl_frame ?_ (fun _ _ _ => ?_)
    | with_reducible refine foldl_fst_frame ?_ (fun _ _ _ => ?_)
    | with_reducible apply mgmtOf_frame
    | split
    | fail_if_no_progress with_reducible refine changesOnly_lit ?_ ?_ ?_ ?_ ?_ ?_ ?_ ?_ ?_ ?_ ?_ ?_ ?_ ?_ ?_ ?_ ?_ ?_ ?_ ?_ ?_ ?_ ?_ ?_ ?_ ?_ ?_ ?_ ?_ ?_
    | with_reducible exact .inl rfl
    | exact Or.inr (hL (by decide))
    | dsimp only)

end Sys2Proof.Machine
end

