-- ==== Sys2Proof/Laws/FrameLoader.lean ====
section
/-! SUPPORT. The frames of the operations and commands of Loader (Laws/Frame.lean). -/

namespace Sys2Proof.Machine

set_option linter.all false
set_option Elab.async false

open Sys2Proof

theorem setLoadStatus_frame {L : List Block} {s₀ s₁ : State} (code : Code) (sect record : Nat) (hK : changesOnly L s₀ s₁)
    (hL : [.loader] ⊆ L) : changesOnly L s₀ (setLoadStatus code sect record s₁) := by
  unfold setLoadStatus
  repeat' (first
    | with_reducible exact hK
    | with_reducible assumption
    | with_reducible exact List.Subset.trans (by decide) hL
    | with_reducible refine changesOnly_ite ?_ ?_
    | split
    | fail_if_no_progress with_reducible refine changesOnly_loader ?_ (List.Subset.trans (by decide) hL)
    | fail_if_no_progress with_reducible refine changesOnly_lit ?_ ?_ ?_ ?_ ?_ ?_ ?_ ?_ ?_ ?_ ?_ ?_ ?_ ?_ ?_ ?_ ?_ ?_ ?_ ?_ ?_ ?_ ?_ ?_ ?_ ?_ ?_ ?_ ?_ ?_
    | with_reducible exact .inl rfl
    | exact Or.inr (hL (by decide)))

theorem refuseOp_frame {L : List Block} {s₀ s₁ : State} (i : Slot) (code : Code) (sect record : Nat) (hK : changesOnly L s₀ s₁)
    (hL : [.out, .log, .host, .loader] ⊆ L) : changesOnly L s₀ (refuseOp i code sect record s₁) := by
  unfold refuseOp
  repeat' (first
    | with_reducible exact hK
    | with_reducible assumption
    | with_reducible exact List.Subset.trans (by decide) hL
    | with_reducible apply report_frame
    | with_reducible apply modSlot_frame
    | with_reducible apply setLoadStatus_frame
    | with_reducible refine changesOnly_ite ?_ ?_
    | split
    | fail_if_no_progress with_reducible refine changesOnly_out ?_ (List.Subset.trans (by decide) hL)
    | fail_if_no_progress with_reducible refine changesOnly_log ?_ (List.Subset.trans (by decide) hL)
    | fail_if_no_progress with_reducible refine changesOnly_host ?_ (List.Subset.trans (by decide) hL)
    | fail_if_no_progress with_reducible refine changesOnly_loader ?_ (List.Subset.trans (by decide) hL)
    | fail_if_no_progress with_reducible refine changesOnly_lit ?_ ?_ ?_ ?_ ?_ ?_ ?_ ?_ ?_ ?_ ?_ ?_ ?_ ?_ ?_ ?_ ?_ ?_ ?_ ?_ ?_ ?_ ?_ ?_ ?_ ?_ ?_ ?_ ?_ ?_
    | with_reducible exact .inl rfl
    | exact Or.inr (hL (by decide)))

theorem setLoadCtrl_frame {L : List Block} {s₀ s₁ : State} (op : BitVec 4) (i : Slot) (hK : changesOnly L s₀ s₁)
    (hL : [.loader] ⊆ L) : changesOnly L s₀ (setLoadCtrl op i s₁) := by
  unfold setLoadCtrl
  repeat' (first
    | with_reducible exact hK
    | with_reducible assumption
    | with_reducible exact List.Subset.trans (by decide) hL
    | with_reducible refine changesOnly_ite ?_ ?_
    | split
    | fail_if_no_progress with_reducible refine changesOnly_loader ?_ (List.Subset.trans (by decide) hL)
    | fail_if_no_progress with_reducible refine changesOnly_lit ?_ ?_ ?_ ?_ ?_ ?_ ?_ ?_ ?_ ?_ ?_ ?_ ?_ ?_ ?_ ?_ ?_ ?_ ?_ ?_ ?_ ?_ ?_ ?_ ?_ ?_ ?_ ?_ ?_ ?_
    | with_reducible exact .inl rfl
    | exact Or.inr (hL (by decide)))

theorem beginOp_frame {L : List Block} {s₀ s₁ : State} (op : LoadOp) (hK : changesOnly L s₀ s₁)
    (hL : [.out, .loader, .installed, .tiles, .dies, .links, .signals, .mem] ⊆ L) : changesOnly L s₀ (beginOp op s₁) := by
  unfold beginOp
  repeat' (first
    | with_reducible exact hK
    | with_reducible assumption
    | with_reducible exact List.Subset.trans (by decide) hL
    | with_reducible apply setSlotState_frame
    | with_reducible apply stopChart_frame
    | split
    | fail_if_no_progress with_reducible refine changesOnly_lit ?_ ?_ ?_ ?_ ?_ ?_ ?_ ?_ ?_ ?_ ?_ ?_ ?_ ?_ ?_ ?_ ?_ ?_ ?_ ?_ ?_ ?_ ?_ ?_ ?_ ?_ ?_ ?_ ?_ ?_
    | with_reducible exact .inl rfl
    | exact Or.inr (hL (by decide))
    | dsimp only)

theorem startOp_frame {L : List Block} {s₀ s₁ : State} (stage : Bool) (i : Slot) (hK : changesOnly L s₀ s₁)
    (hL : [.out, .log, .host, .loader, .installed, .tiles, .dies, .links, .signals, .mem] ⊆ L) : changesOnly L s₀ (startOp stage i s₁) := by
  unfold startOp
  repeat' (first
    | with_reducible exact hK
    | with_reducible assumption
    | with_reducible exact List.Subset.trans (by decide) hL
    | with_reducible apply setLoadStatus_frame
    | with_reducible apply refuseOp_frame
    | with_reducible apply setLoadCtrl_frame
    | with_reducible apply beginOp_frame
    | split
    | fail_if_no_progress with_reducible refine changesOnly_lit ?_ ?_ ?_ ?_ ?_ ?_ ?_ ?_ ?_ ?_ ?_ ?_ ?_ ?_ ?_ ?_ ?_ ?_ ?_ ?_ ?_ ?_ ?_ ?_ ?_ ?_ ?_ ?_ ?_ ?_
    | with_reducible exact .inl rfl
    | exact Or.inr (hL (by decide))
    | dsimp only)

theorem execStage_frame {s₁ : State} (i : Slot) :
    ∃ s₂, execStage i s₁ = .next s₂ ∧ changesOnly [.out, .log, .host, .loader, .installed, .tiles, .dies, .links, .signals, .mem] s₁ s₂ := by
  have hK : changesOnly [.out, .log, .host, .loader, .installed, .tiles, .dies, .links, .signals, .mem] s₁ s₁ := changesOnly_refl
  have hL : ([.out, .log, .host, .loader, .installed, .tiles, .dies, .links, .signals, .mem] : List Block) ⊆ [.out, .log, .host, .loader, .installed, .tiles, .dies, .links, .signals, .mem] := List.Subset.refl _
  refine ⟨_, rfl, ?_⟩
  repeat' (first
    | with_reducible exact hK
    | with_reducible assumption
    | with_reducible exact List.Subset.trans (by decide) hL
    | with_reducible refine when'_frame _ ?_ (fun _ _ => ?_)
    | with_reducible apply startOp_frame
    | split
    | fail_if_no_progress with_reducible refine changesOnly_lit ?_ ?_ ?_ ?_ ?_ ?_ ?_ ?_ ?_ ?_ ?_ ?_ ?_ ?_ ?_ ?_ ?_ ?_ ?_ ?_ ?_ ?_ ?_ ?_ ?_ ?_ ?_ ?_ ?_ ?_
    | with_reducible exact .inl rfl
    | exact Or.inr (hL (by decide))
    | dsimp only)

theorem execUnstage_frame {s₁ : State} (i : Slot) :
    ∃ s₂, execUnstage i s₁ = .next s₂ ∧ changesOnly [.out, .log, .host, .loader, .installed, .tiles, .dies, .links, .signals, .mem] s₁ s₂ := by
  have hK : changesOnly [.out, .log, .host, .loader, .installed, .tiles, .dies, .links, .signals, .mem] s₁ s₁ := changesOnly_refl
  have hL : ([.out, .log, .host, .loader, .installed, .tiles, .dies, .links, .signals, .mem] : List Block) ⊆ [.out, .log, .host, .loader, .installed, .tiles, .dies, .links, .signals, .mem] := List.Subset.refl _
  refine ⟨_, rfl, ?_⟩
  repeat' (first
    | with_reducible exact hK
    | with_reducible assumption
    | with_reducible exact List.Subset.trans (by decide) hL
    | with_reducible refine when'_frame _ ?_ (fun _ _ => ?_)
    | with_reducible apply startOp_frame
    | split
    | fail_if_no_progress with_reducible refine changesOnly_lit ?_ ?_ ?_ ?_ ?_ ?_ ?_ ?_ ?_ ?_ ?_ ?_ ?_ ?_ ?_ ?_ ?_ ?_ ?_ ?_ ?_ ?_ ?_ ?_ ?_ ?_ ?_ ?_ ?_ ?_
    | with_reducible exact .inl rfl
    | exact Or.inr (hL (by decide))
    | dsimp only)

theorem reservedOp_frame {L : List Block} {s₀ s₁ : State} (op : BitVec 4) (i : Slot) (hK : changesOnly L s₀ s₁)
    (hL : [.loader] ⊆ L) : changesOnly L s₀ (reservedOp op i s₁) := by
  unfold reservedOp
  repeat' (first
    | with_reducible exact hK
    | with_reducible assumption
    | with_reducible exact List.Subset.trans (by decide) hL
    | with_reducible apply setLoadStatus_frame
    | with_reducible apply setLoadCtrl_frame
    | with_reducible refine changesOnly_ite ?_ ?_
    | split)

theorem execLoadGoReservedOp_frame {s₁ : State} (op : BitVec 4) (i : Slot) :
    ∃ s₂, execLoadGoReservedOp op i s₁ = .next s₂ ∧ changesOnly [.loader] s₁ s₂ := by
  have hK : changesOnly [.loader] s₁ s₁ := changesOnly_refl
  have hL : ([.loader] : List Block) ⊆ [.loader] := List.Subset.refl _
  refine ⟨_, rfl, ?_⟩
  repeat' (first
    | with_reducible exact hK
    | with_reducible assumption
    | with_reducible exact List.Subset.trans (by decide) hL
    | with_reducible refine when'_frame _ ?_ (fun _ _ => ?_)
    | with_reducible apply reservedOp_frame)

theorem execLoadStatusRead_frame {s₁ : State}  :
    ∃ s₂, execLoadStatusRead s₁ = .next s₂ ∧ changesOnly [.loader] s₁ s₂ := by
  have hK : changesOnly [.loader] s₁ s₁ := changesOnly_refl
  have hL : ([.loader] : List Block) ⊆ [.loader] := List.Subset.refl _
  refine ⟨_, rfl, ?_⟩
  repeat' (first
    | with_reducible exact hK
    | with_reducible assumption
    | with_reducible exact List.Subset.trans (by decide) hL
    | with_reducible refine when'_frame _ ?_ (fun _ _ => ?_)
    | with_reducible refine changesOnly_ite ?_ ?_
    | split
    | fail_if_no_progress with_reducible refine changesOnly_loader ?_ (List.Subset.trans (by decide) hL)
    | fail_if_no_progress with_reducible refine changesOnly_lit ?_ ?_ ?_ ?_ ?_ ?_ ?_ ?_ ?_ ?_ ?_ ?_ ?_ ?_ ?_ ?_ ?_ ?_ ?_ ?_ ?_ ?_ ?_ ?_ ?_ ?_ ?_ ?_ ?_ ?_
    | with_reducible exact .inl rfl
    | exact Or.inr (hL (by decide)))

theorem setShifts_frame {L : List Block} {s₀ s₁ : State}  (hK : changesOnly L s₀ s₁)
    (hL : [.links] ⊆ L) : changesOnly L s₀ (setShifts s₁) := by
  unfold setShifts
  repeat' (first
    | with_reducible exact hK
    | with_reducible assumption
    | with_reducible exact List.Subset.trans (by decide) hL
    | with_reducible refine foldl_frame ?_ (fun _ _ _ => ?_)
    | with_reducible refine foldl_fst_frame ?_ (fun _ _ _ => ?_)
    | with_reducible apply modLink_frame
    | with_reducible refine changesOnly_ite ?_ ?_
    | split
    | fail_if_no_progress with_reducible refine changesOnly_links ?_ (List.Subset.trans (by decide) hL)
    | fail_if_no_progress with_reducible refine changesOnly_lit ?_ ?_ ?_ ?_ ?_ ?_ ?_ ?_ ?_ ?_ ?_ ?_ ?_ ?_ ?_ ?_ ?_ ?_ ?_ ?_ ?_ ?_ ?_ ?_ ?_ ?_ ?_ ?_ ?_ ?_
    | with_reducible exact .inl rfl)

theorem stageRepairs_frame {L : List Block} {s₀ s₁ : State}  (hK : changesOnly L s₀ s₁)
    (hL : [.out, .log, .host, .ctx, .loader, .installed, .tiles, .dies, .links, .signals, .defects, .mem, .coll] ⊆ L) : changesOnly L s₀ (stageRepairs s₁) := by
  unfold stageRepairs
  repeat' (first
    | with_reducible exact hK
    | with_reducible assumption
    | with_reducible exact List.Subset.trans (by decide) hL
    | with_reducible apply coverRows_frame
    | with_reducible apply setShifts_frame
    | split
    | fail_if_no_progress with_reducible refine changesOnly_lit ?_ ?_ ?_ ?_ ?_ ?_ ?_ ?_ ?_ ?_ ?_ ?_ ?_ ?_ ?_ ?_ ?_ ?_ ?_ ?_ ?_ ?_ ?_ ?_ ?_ ?_ ?_ ?_ ?_ ?_
    | with_reducible exact .inl rfl
    | exact Or.inr (hL (by decide))
    | dsimp only)

theorem noteCycle_frame {L : List Block} {s₀ s₁ : State} (op : LoadOp) (r : Refused) (hK : changesOnly L s₀ s₁)
    (hL : [.loader] ⊆ L) : changesOnly L s₀ (noteCycle op r s₁) := by
  unfold noteCycle
  repeat' (first
    | with_reducible exact hK
    | with_reducible assumption
    | with_reducible exact List.Subset.trans (by decide) hL
    | with_reducible refine changesOnly_ite ?_ ?_
    | split
    | fail_if_no_progress with_reducible refine changesOnly_loader ?_ (List.Subset.trans (by decide) hL)
    | fail_if_no_progress with_reducible refine changesOnly_lit ?_ ?_ ?_ ?_ ?_ ?_ ?_ ?_ ?_ ?_ ?_ ?_ ?_ ?_ ?_ ?_ ?_ ?_ ?_ ?_ ?_ ?_ ?_ ?_ ?_ ?_ ?_ ?_ ?_ ?_
    | with_reducible exact .inl rfl
    | exact Or.inr (hL (by decide)))

theorem imageRefused_frame {L : List Block} {s₀ s₁ : State} (op : LoadOp) (r : Refused) (hK : changesOnly L s₀ s₁)
    (hL : [.out, .log, .host, .loader] ⊆ L) : changesOnly L s₀ (imageRefused op r s₁) := by
  unfold imageRefused
  repeat' (first
    | with_reducible exact hK
    | with_reducible assumption
    | with_reducible exact List.Subset.trans (by decide) hL
    | with_reducible apply setSlotState_frame
    | with_reducible apply refuseOp_frame
    | with_reducible apply noteCycle_frame)

theorem imageAccepted_frame {L : List Block} {s₀ s₁ : State} (op : LoadOp) (c : Chart) (vs : List (Nat × Nat)) (hK : changesOnly L s₀ s₁)
    (hL : [.out, .log, .host, .ctx, .loader, .installed, .tiles, .dies, .links, .signals, .mem] ⊆ L) : changesOnly L s₀ (imageAccepted op c vs s₁) := by
  unfold imageAccepted
  repeat' (first
    | with_reducible exact hK
    | with_reducible assumption
    | with_reducible exact List.Subset.trans (by decide) hL
    | with_reducible refine foldl_frame ?_ (fun _ _ _ => ?_)
    | with_reducible refine foldl_fst_frame ?_ (fun _ _ _ => ?_)
    | with_reducible apply modCtx_frame
    | with_reducible apply report_frame
    | with_reducible apply modSlot_frame
    | with_reducible apply setSlotState_frame
    | with_reducible apply stopKeeping_frame
    | with_reducible apply sayFolded_frame
    | with_reducible apply startInstall_frame
    | split
    | fail_if_no_progress with_reducible refine changesOnly_lit ?_ ?_ ?_ ?_ ?_ ?_ ?_ ?_ ?_ ?_ ?_ ?_ ?_ ?_ ?_ ?_ ?_ ?_ ?_ ?_ ?_ ?_ ?_ ?_ ?_ ?_ ?_ ?_ ?_ ?_
    | with_reducible exact .inl rfl
    | exact Or.inr (hL (by decide))
    | dsimp only)

theorem finishCheck_frame {L : List Block} {s₀ s₁ : State} (op : LoadOp) (hK : changesOnly L s₀ s₁)
    (hL : [.out, .log, .host, .ctx, .loader, .installed, .tiles, .dies, .links, .signals, .defects, .mem, .coll] ⊆ L) : changesOnly L s₀ (finishCheck op s₁) := by
  unfold finishCheck
  repeat' (first
    | with_reducible exact hK
    | with_reducible assumption
    | with_reducible exact List.Subset.trans (by decide) hL
    | with_reducible apply stageRepairs_frame
    | with_reducible apply imageRefused_frame
    | with_reducible apply imageAccepted_frame
    | split
    | fail_if_no_progress with_reducible refine changesOnly_lit ?_ ?_ ?_ ?_ ?_ ?_ ?_ ?_ ?_ ?_ ?_ ?_ ?_ ?_ ?_ ?_ ?_ ?_ ?_ ?_ ?_ ?_ ?_ ?_ ?_ ?_ ?_ ?_ ?_ ?_
    | with_reducible exact .inl rfl
    | exact Or.inr (hL (by decide))
    | dsimp only)

theorem execChartCheckDone_frame {s₁ : State}  :
    ∃ s₂, execChartCheckDone s₁ = .next s₂ ∧ changesOnly [.out, .log, .host, .ctx, .loader, .installed, .tiles, .dies, .links, .signals, .defects, .mem, .coll] s₁ s₂ := by
  have hK : changesOnly [.out, .log, .host, .ctx, .loader, .installed, .tiles, .dies, .links, .signals, .defects, .mem, .coll] s₁ s₁ := changesOnly_refl
  have hL : ([.out, .log, .host, .ctx, .loader, .installed, .tiles, .dies, .links, .signals, .defects, .mem, .coll] : List Block) ⊆ [.out, .log, .host, .ctx, .loader, .installed, .tiles, .dies, .links, .signals, .defects, .mem, .coll] := List.Subset.refl _
  refine ⟨_, rfl, ?_⟩
  repeat' (first
    | with_reducible exact hK
    | with_reducible assumption
    | with_reducible exact List.Subset.trans (by decide) hL
    | with_reducible apply finishCheck_frame
    | split
    | fail_if_no_progress with_reducible refine changesOnly_lit ?_ ?_ ?_ ?_ ?_ ?_ ?_ ?_ ?_ ?_ ?_ ?_ ?_ ?_ ?_ ?_ ?_ ?_ ?_ ?_ ?_ ?_ ?_ ?_ ?_ ?_ ?_ ?_ ?_ ?_
    | with_reducible exact .inl rfl
    | exact Or.inr (hL (by decide))
    | dsimp only)

theorem execUnstageDone_frame {s₁ : State}  :
    ∃ s₂, execUnstageDone s₁ = .next s₂ ∧ changesOnly [.loader] s₁ s₂ := by
  have hK : changesOnly [.loader] s₁ s₁ := changesOnly_refl
  have hL : ([.loader] : List Block) ⊆ [.loader] := List.Subset.refl _
  refine ⟨_, rfl, ?_⟩
  repeat' (first
    | with_reducible exact hK
    | with_reducible assumption
    | with_reducible exact List.Subset.trans (by decide) hL
    | with_reducible apply modSlot_frame
    | with_reducible refine changesOnly_ite ?_ ?_
    | split
    | fail_if_no_progress with_reducible refine changesOnly_loader ?_ (List.Subset.trans (by decide) hL)
    | fail_if_no_progress with_reducible refine changesOnly_lit ?_ ?_ ?_ ?_ ?_ ?_ ?_ ?_ ?_ ?_ ?_ ?_ ?_ ?_ ?_ ?_ ?_ ?_ ?_ ?_ ?_ ?_ ?_ ?_ ?_ ?_ ?_ ?_ ?_ ?_
    | with_reducible exact .inl rfl
    | exact Or.inr (hL (by decide)))

theorem fillSummaries_frame {L : List Block} {s₀ s₁ : State} (x : Installed) (c : Chart) (hK : changesOnly L s₀ s₁)
    (hL : [.mem] ⊆ L) : changesOnly L s₀ (fillSummaries x c s₁) := by
  unfold fillSummaries
  repeat' (first
    | with_reducible exact hK
    | with_reducible assumption
    | with_reducible exact List.Subset.trans (by decide) hL
    | with_reducible refine foldl_frame ?_ (fun _ _ _ => ?_)
    | with_reducible refine foldl_fst_frame ?_ (fun _ _ _ => ?_)
    | split
    | fail_if_no_progress with_reducible refine changesOnly_lit ?_ ?_ ?_ ?_ ?_ ?_ ?_ ?_ ?_ ?_ ?_ ?_ ?_ ?_ ?_ ?_ ?_ ?_ ?_ ?_ ?_ ?_ ?_ ?_ ?_ ?_ ?_ ?_ ?_ ?_
    | with_reducible exact .inl rfl
    | exact Or.inr (hL (by decide))
    | dsimp only)

theorem finishInstall_frame {L : List Block} {s₀ s₁ : State} (x : Installed) (c : Chart) (hK : changesOnly L s₀ s₁)
    (hL : [.out, .loader, .installed, .tiles, .links, .mem] ⊆ L) : changesOnly L s₀ (finishInstall x c s₁) := by
  unfold finishInstall
  repeat' (first
    | with_reducible exact hK
    | with_reducible assumption
    | with_reducible exact List.Subset.trans (by decide) hL
    | with_reducible refine foldl_frame ?_ (fun _ _ _ => ?_)
    | with_reducible refine foldl_fst_frame ?_ (fun _ _ _ => ?_)
    | with_reducible apply modInstalled_frame
    | with_reducible apply setSlotState_frame
    | with_reducible apply fillArea_frame
    | with_reducible apply startTiles_frame
    | with_reducible apply fillSummaries_frame
    | split
    | fail_if_no_progress with_reducible refine changesOnly_lit ?_ ?_ ?_ ?_ ?_ ?_ ?_ ?_ ?_ ?_ ?_ ?_ ?_ ?_ ?_ ?_ ?_ ?_ ?_ ?_ ?_ ?_ ?_ ?_ ?_ ?_ ?_ ?_ ?_ ?_
    | with_reducible exact .inl rfl
    | exact Or.inr (hL (by decide))
    | dsimp only)

theorem execChartInstallComplete_frame {s₁ : State}  :
    ∃ s₂, execChartInstallComplete s₁ = .next s₂ ∧ changesOnly [.out, .loader, .installed, .tiles, .links, .mem] s₁ s₂ := by
  have hK : changesOnly [.out, .loader, .installed, .tiles, .links, .mem] s₁ s₁ := changesOnly_refl
  have hL : ([.out, .loader, .installed, .tiles, .links, .mem] : List Block) ⊆ [.out, .loader, .installed, .tiles, .links, .mem] := List.Subset.refl _
  refine ⟨_, rfl, ?_⟩
  repeat' (first
    | with_reducible exact hK
    | with_reducible assumption
    | with_reducible exact List.Subset.trans (by decide) hL
    | with_reducible apply finishInstall_frame
    | split
    | fail_if_no_progress with_reducible refine changesOnly_lit ?_ ?_ ?_ ?_ ?_ ?_ ?_ ?_ ?_ ?_ ?_ ?_ ?_ ?_ ?_ ?_ ?_ ?_ ?_ ?_ ?_ ?_ ?_ ?_ ?_ ?_ ?_ ?_ ?_ ?_
    | with_reducible exact .inl rfl
    | exact Or.inr (hL (by decide))
    | dsimp only)

theorem restageOnto_frame {L : List Block} {s₀ s₁ : State} (c : Chart) (x : Installed) (r : Region) (v : Variant) (hK : changesOnly L s₀ s₁)
    (hL : [.out, .log, .host, .loader, .installed, .tiles, .links] ⊆ L) : changesOnly L s₀ (restageOnto c x r v s₁) := by
  unfold restageOnto
  repeat' (first
    | with_reducible exact hK
    | with_reducible assumption
    | with_reducible exact List.Subset.trans (by decide) hL
    | with_reducible refine foldl_frame ?_ (fun _ _ _ => ?_)
    | with_reducible refine foldl_fst_frame ?_ (fun _ _ _ => ?_)
    | with_reducible apply report_frame
    | with_reducible apply wakeTile_frame
    | with_reducible apply modInstalled_frame
    | with_reducible apply sayFolded_frame
    | split
    | fail_if_no_progress with_reducible refine changesOnly_lit ?_ ?_ ?_ ?_ ?_ ?_ ?_ ?_ ?_ ?_ ?_ ?_ ?_ ?_ ?_ ?_ ?_ ?_ ?_ ?_ ?_ ?_ ?_ ?_ ?_ ?_ ?_ ?_ ?_ ?_
    | with_reducible exact .inl rfl
    | exact Or.inr (hL (by decide))
    | dsimp only)

theorem restage_frame {L : List Block} {s₀ s₁ : State} (x : Installed) (c : Chart) (f : FaultRec) (hK : changesOnly L s₀ s₁)
    (hL : [.out, .log, .host, .ctx, .loader, .installed, .tiles, .dies, .links, .signals, .mem, .coll] ⊆ L) : changesOnly L s₀ (restage x c f s₁) := by
  unfold restage
  repeat' (first
    | with_reducible exact hK
    | with_reducible assumption
    | with_reducible exact List.Subset.trans (by decide) hL
    | with_reducible apply report_frame
    | with_reducible apply modInstalled_frame
    | with_reducible apply loseRegions_frame
    | with_reducible apply restageOnto_frame
    | split
    | fail_if_no_progress with_reducible refine changesOnly_lit ?_ ?_ ?_ ?_ ?_ ?_ ?_ ?_ ?_ ?_ ?_ ?_ ?_ ?_ ?_ ?_ ?_ ?_ ?_ ?_ ?_ ?_ ?_ ?_ ?_ ?_ ?_ ?_ ?_ ?_
    | with_reducible exact .inl rfl
    | exact Or.inr (hL (by decide))
    | dsimp only)

theorem execRegionRestage_frame {s₁ : State}  :
    ∃ s₂, execRegionRestage s₁ = .next s₂ ∧ changesOnly [.out, .log, .host, .ctx, .loader, .installed, .tiles, .dies, .links, .signals, .mem, .coll] s₁ s₂ := by
  have hK : changesOnly [.out, .log, .host, .ctx, .loader, .installed, .tiles, .dies, .links, .signals, .mem, .coll] s₁ s₁ := changesOnly_refl
  have hL : ([.out, .log, .host, .ctx, .loader, .installed, .tiles, .dies, .links, .signals, .mem, .coll] : List Block) ⊆ [.out, .log, .host, .ctx, .loader, .installed, .tiles, .dies, .links, .signals, .mem, .coll] := List.Subset.refl _
  refine ⟨_, rfl, ?_⟩
  repeat' (first
    | with_reducible exact hK
    | with_reducible assumption
    | with_reducible exact List.Subset.trans (by decide) hL
    | with_reducible apply restage_frame
    | split
    | fail_if_no_progress with_reducible refine changesOnly_lit ?_ ?_ ?_ ?_ ?_ ?_ ?_ ?_ ?_ ?_ ?_ ?_ ?_ ?_ ?_ ?_ ?_ ?_ ?_ ?_ ?_ ?_ ?_ ?_ ?_ ?_ ?_ ?_ ?_ ?_
    | with_reducible exact .inl rfl
    | exact Or.inr (hL (by decide))
    | dsimp only)

end Sys2Proof.Machine
end

