-- ==== Sys2Proof/Laws/FrameWeights.lean ====
section
/-! SUPPORT. The frames of the operations and commands of Weights (Laws/Frame.lean). -/

namespace Sys2Proof.Machine

set_option linter.all false
set_option Elab.async false

open Sys2Proof

theorem modModel_frame {L : List Block} {s₀ s₁ : State} (i : Slot) (f : Model → Model) (hK : changesOnly L s₀ s₁)
    (hL : [.ctx] ⊆ L) : changesOnly L s₀ (modModel i f s₁) := by
  unfold modModel
  repeat' (first
    | with_reducible exact hK
    | with_reducible assumption
    | with_reducible exact List.Subset.trans (by decide) hL
    | with_reducible apply modCtx_frame)

theorem modFetch_frame {L : List Block} {s₀ s₁ : State} (i : Slot) (sw : Bool) (f : Fetch → Fetch) (hK : changesOnly L s₀ s₁)
    (hL : [.ctx] ⊆ L) : changesOnly L s₀ (modFetch i sw f s₁) := by
  unfold modFetch
  repeat' (first
    | with_reducible exact hK
    | with_reducible assumption
    | with_reducible exact List.Subset.trans (by decide) hL
    | with_reducible apply modModel_frame)

theorem putHold_frame {L : List Block} {s₀ s₁ : State} (i : Slot) (sw : Bool) (h : ShardHold) (hK : changesOnly L s₀ s₁)
    (hL : [.ctx] ⊆ L) : changesOnly L s₀ (putHold i sw h s₁) := by
  unfold putHold
  repeat' (first
    | with_reducible exact hK
    | with_reducible assumption
    | with_reducible exact List.Subset.trans (by decide) hL
    | with_reducible apply modModel_frame)

theorem dropHold_frame {L : List Block} {s₀ s₁ : State} (i : Slot) (sw : Bool) (sh : Nat) (hK : changesOnly L s₀ s₁)
    (hL : [.ctx] ⊆ L) : changesOnly L s₀ (dropHold i sw sh s₁) := by
  unfold dropHold
  repeat' (first
    | with_reducible exact hK
    | with_reducible assumption
    | with_reducible exact List.Subset.trans (by decide) hL
    | with_reducible apply modFetch_frame
    | split
    | fail_if_no_progress with_reducible refine changesOnly_lit ?_ ?_ ?_ ?_ ?_ ?_ ?_ ?_ ?_ ?_ ?_ ?_ ?_ ?_ ?_ ?_ ?_ ?_ ?_ ?_ ?_ ?_ ?_ ?_ ?_ ?_ ?_ ?_ ?_ ?_
    | with_reducible exact .inl rfl
    | exact Or.inr (hL (by decide))
    | dsimp only)

theorem shardEvent_frame {L : List Block} {s₀ s₁ : State} (i : Slot) (code : Code) (id : BitVec 128) (sh : Nat) (hK : changesOnly L s₀ s₁)
    (hL : [.out, .log, .host] ⊆ L) : changesOnly L s₀ (shardEvent i code id sh s₁) := by
  unfold shardEvent
  repeat' (first
    | with_reducible exact hK
    | with_reducible assumption
    | with_reducible exact List.Subset.trans (by decide) hL
    | with_reducible apply report_frame)

theorem sendOnPlane_frame {L : List Block} {s₀ s₁ : State} (k : Nat) (dst : BitVec 32) (m : PlaneMsg) (hK : changesOnly L s₀ s₁)
    (hL : [.out, .ports] ⊆ L) : changesOnly L s₀ (sendOnPlane k dst m s₁) := by
  unfold sendOnPlane
  repeat' (first
    | with_reducible exact hK
    | with_reducible assumption
    | with_reducible exact List.Subset.trans (by decide) hL
    | with_reducible apply sendMsg_frame
    | with_reducible refine changesOnly_ite ?_ ?_
    | split)

theorem sendReq_frame {L : List Block} {s₀ s₁ : State} (f : Fetch) (sh : Nat) (v : BitVec 32) (hK : changesOnly L s₀ s₁)
    (hL : [.out, .ports] ⊆ L) : changesOnly L s₀ (sendReq f sh v s₁) := by
  unfold sendReq
  repeat' (first
    | with_reducible exact hK
    | with_reducible assumption
    | with_reducible exact List.Subset.trans (by decide) hL
    | with_reducible apply sendOnPlane_frame)

theorem request_frame {L : List Block} {s₀ s₁ : State} (i : Slot) (sw : Bool) (v : BitVec 32) (sh : Nat) (hK : changesOnly L s₀ s₁)
    (hL : [.out, .ctx, .ports] ⊆ L) : changesOnly L s₀ (request i sw v s₁ sh) := by
  unfold request
  repeat' (first
    | with_reducible exact hK
    | with_reducible assumption
    | with_reducible exact List.Subset.trans (by decide) hL
    | with_reducible apply modFetch_frame
    | with_reducible apply sendReq_frame
    | with_reducible refine changesOnly_ite ?_ ?_
    | split)

theorem dropReq_frame {L : List Block} {s₀ s₁ : State} (i : Slot) (sw : Bool) (sh : Nat) (hK : changesOnly L s₀ s₁)
    (hL : [.ctx] ⊆ L) : changesOnly L s₀ (dropReq i sw sh s₁) := by
  unfold dropReq
  repeat' (first
    | with_reducible exact hK
    | with_reducible assumption
    | with_reducible exact List.Subset.trans (by decide) hL
    | with_reducible apply modFetch_frame)

theorem modReq_frame {L : List Block} {s₀ s₁ : State} (i : Slot) (sw : Bool) (sh : Nat) (g : ShardReq → ShardReq) (hK : changesOnly L s₀ s₁)
    (hL : [.ctx] ⊆ L) : changesOnly L s₀ (modReq i sw sh g s₁) := by
  unfold modReq
  repeat' (first
    | with_reducible exact hK
    | with_reducible assumption
    | with_reducible exact List.Subset.trans (by decide) hL
    | with_reducible apply modFetch_frame)

theorem endFetch_frame {L : List Block} {s₀ s₁ : State} (i : Slot) (op : Nat) (code : Code) (hK : changesOnly L s₀ s₁)
    (hL : [.out, .log, .host, .ctx] ⊆ L) : changesOnly L s₀ (endFetch i op code s₁) := by
  unfold endFetch
  repeat' (first
    | with_reducible exact hK
    | with_reducible assumption
    | with_reducible exact List.Subset.trans (by decide) hL
    | with_reducible apply report_frame
    | with_reducible apply completeCmd_frame
    | with_reducible refine changesOnly_ite ?_ ?_
    | split
    | fail_if_no_progress with_reducible refine changesOnly_out ?_ (List.Subset.trans (by decide) hL)
    | fail_if_no_progress with_reducible refine changesOnly_log ?_ (List.Subset.trans (by decide) hL)
    | fail_if_no_progress with_reducible refine changesOnly_host ?_ (List.Subset.trans (by decide) hL)
    | fail_if_no_progress with_reducible refine changesOnly_ctx ?_ (List.Subset.trans (by decide) hL)
    | fail_if_no_progress with_reducible refine changesOnly_lit ?_ ?_ ?_ ?_ ?_ ?_ ?_ ?_ ?_ ?_ ?_ ?_ ?_ ?_ ?_ ?_ ?_ ?_ ?_ ?_ ?_ ?_ ?_ ?_ ?_ ?_ ?_ ?_ ?_ ?_
    | with_reducible exact .inl rfl)

theorem unavailable_frame {L : List Block} {s₀ s₁ : State} (i : Slot) (sw : Bool) (sh : Nat) (hK : changesOnly L s₀ s₁)
    (hL : [.out, .log, .host, .ctx, .installed, .tiles, .links, .signals] ⊆ L) : changesOnly L s₀ (unavailable i sw sh s₁) := by
  unfold unavailable
  repeat' (first
    | with_reducible exact hK
    | with_reducible assumption
    | with_reducible exact List.Subset.trans (by decide) hL
    | with_reducible apply endPass_frame
    | with_reducible apply dropLoads_frame
    | with_reducible apply shardEvent_frame
    | with_reducible apply dropReq_frame
    | with_reducible apply endFetch_frame
    | split
    | fail_if_no_progress with_reducible refine changesOnly_lit ?_ ?_ ?_ ?_ ?_ ?_ ?_ ?_ ?_ ?_ ?_ ?_ ?_ ?_ ?_ ?_ ?_ ?_ ?_ ?_ ?_ ?_ ?_ ?_ ?_ ?_ ?_ ?_ ?_ ?_
    | with_reducible exact .inl rfl
    | exact Or.inr (hL (by decide))
    | dsimp only)

theorem askAgain_frame {L : List Block} {s₀ s₁ : State} (i : Slot) (sw gap : Bool) (sh : Nat) (hK : changesOnly L s₀ s₁)
    (hL : [.out, .log, .host, .ctx, .installed, .tiles, .links, .signals, .ports] ⊆ L) : changesOnly L s₀ (askAgain i sw gap sh s₁) := by
  unfold askAgain
  repeat' (first
    | with_reducible exact hK
    | with_reducible assumption
    | with_reducible exact List.Subset.trans (by decide) hL
    | with_reducible apply sendReq_frame
    | with_reducible apply modReq_frame
    | with_reducible apply unavailable_frame
    | split
    | fail_if_no_progress with_reducible refine changesOnly_lit ?_ ?_ ?_ ?_ ?_ ?_ ?_ ?_ ?_ ?_ ?_ ?_ ?_ ?_ ?_ ?_ ?_ ?_ ?_ ?_ ?_ ?_ ?_ ?_ ?_ ?_ ?_ ?_ ?_ ?_
    | with_reducible exact .inl rfl
    | exact Or.inr (hL (by decide))
    | dsimp only)

theorem execShardReqTimeout_frame {s₁ : State} (sh : Nat) :
    ∃ s₂, execShardReqTimeout sh s₁ = .next s₂ ∧ changesOnly [.out, .log, .host, .ctx, .installed, .tiles, .links, .signals, .ports] s₁ s₂ := by
  have hK : changesOnly [.out, .log, .host, .ctx, .installed, .tiles, .links, .signals, .ports] s₁ s₁ := changesOnly_refl
  have hL : ([.out, .log, .host, .ctx, .installed, .tiles, .links, .signals, .ports] : List Block) ⊆ [.out, .log, .host, .ctx, .installed, .tiles, .links, .signals, .ports] := List.Subset.refl _
  refine ⟨_, rfl, ?_⟩
  repeat' (first
    | with_reducible exact hK
    | with_reducible assumption
    | with_reducible exact List.Subset.trans (by decide) hL
    | with_reducible apply askAgain_frame
    | split
    | fail_if_no_progress with_reducible refine changesOnly_lit ?_ ?_ ?_ ?_ ?_ ?_ ?_ ?_ ?_ ?_ ?_ ?_ ?_ ?_ ?_ ?_ ?_ ?_ ?_ ?_ ?_ ?_ ?_ ?_ ?_ ?_ ?_ ?_ ?_ ?_
    | with_reducible exact .inl rfl
    | exact Or.inr (hL (by decide))
    | dsimp only)

theorem execShardRetryGap_frame {s₁ : State} (sh : Nat) :
    ∃ s₂, execShardRetryGap sh s₁ = .next s₂ ∧ changesOnly [.out, .log, .host, .ctx, .installed, .tiles, .links, .signals, .ports] s₁ s₂ := by
  have hK : changesOnly [.out, .log, .host, .ctx, .installed, .tiles, .links, .signals, .ports] s₁ s₁ := changesOnly_refl
  have hL : ([.out, .log, .host, .ctx, .installed, .tiles, .links, .signals, .ports] : List Block) ⊆ [.out, .log, .host, .ctx, .installed, .tiles, .links, .signals, .ports] := List.Subset.refl _
  refine ⟨_, rfl, ?_⟩
  repeat' (first
    | with_reducible exact hK
    | with_reducible assumption
    | with_reducible exact List.Subset.trans (by decide) hL
    | with_reducible apply askAgain_frame
    | split
    | fail_if_no_progress with_reducible refine changesOnly_lit ?_ ?_ ?_ ?_ ?_ ?_ ?_ ?_ ?_ ?_ ?_ ?_ ?_ ?_ ?_ ?_ ?_ ?_ ?_ ?_ ?_ ?_ ?_ ?_ ?_ ?_ ?_ ?_ ?_ ?_
    | with_reducible exact .inl rfl
    | exact Or.inr (hL (by decide))
    | dsimp only)

theorem discardSvc_frame {L : List Block} {s₀ s₁ : State} (h : SvcHdr) (hK : changesOnly L s₀ s₁)
    (hL : [.out, .log, .host, .badShards] ⊆ L) : changesOnly L s₀ (discardSvc h s₁) := by
  unfold discardSvc
  repeat' (first
    | with_reducible exact hK
    | with_reducible assumption
    | with_reducible exact List.Subset.trans (by decide) hL
    | with_reducible apply report_frame
    | split
    | fail_if_no_progress with_reducible refine changesOnly_lit ?_ ?_ ?_ ?_ ?_ ?_ ?_ ?_ ?_ ?_ ?_ ?_ ?_ ?_ ?_ ?_ ?_ ?_ ?_ ?_ ?_ ?_ ?_ ?_ ?_ ?_ ?_ ?_ ?_ ?_
    | with_reducible exact .inl rfl
    | exact Or.inr (hL (by decide))
    | dsimp only)

theorem execShardNack_frame {s₁ : State} (p : PortId) (msg : ShardMsg) :
    ∃ s₂, execShardNack p msg s₁ = .next s₂ ∧ changesOnly [.out, .log, .host, .ctx, .installed, .tiles, .links, .signals, .ports, .badShards] s₁ s₂ := by
  have hK : changesOnly [.out, .log, .host, .ctx, .installed, .tiles, .links, .signals, .ports, .badShards] s₁ s₁ := changesOnly_refl
  have hL : ([.out, .log, .host, .ctx, .installed, .tiles, .links, .signals, .ports, .badShards] : List Block) ⊆ [.out, .log, .host, .ctx, .installed, .tiles, .links, .signals, .ports, .badShards] := List.Subset.refl _
  refine ⟨_, rfl, ?_⟩
  repeat' (first
    | with_reducible exact hK
    | with_reducible assumption
    | with_reducible exact List.Subset.trans (by decide) hL
    | with_reducible apply askAgain_frame
    | with_reducible apply discardSvc_frame
    | split
    | fail_if_no_progress with_reducible refine changesOnly_lit ?_ ?_ ?_ ?_ ?_ ?_ ?_ ?_ ?_ ?_ ?_ ?_ ?_ ?_ ?_ ?_ ?_ ?_ ?_ ?_ ?_ ?_ ?_ ?_ ?_ ?_ ?_ ?_ ?_ ?_
    | with_reducible exact .inl rfl
    | exact Or.inr (hL (by decide))
    | dsimp only)

theorem writePieces_frame {L : List Block} {s₀ s₁ : State} (i : Slot) (frame : Nat) (l : List (Piece × Bytes)) (hK : changesOnly L s₀ s₁)
    (hL : [.mem] ⊆ L) : changesOnly L s₀ (writePieces i frame l s₁) := by
  unfold writePieces
  repeat' (first
    | with_reducible exact hK
    | with_reducible assumption
    | with_reducible exact List.Subset.trans (by decide) hL
    | with_reducible refine foldl_frame ?_ (fun _ _ _ => ?_)
    | with_reducible refine foldl_fst_frame ?_ (fun _ _ _ => ?_)
    | with_reducible apply storeBytes_frame)

theorem unpackShard_frame {L : List Block} {s₀ s₁ : State} (i : Slot) (m : Manifest) (here : Placement → Bool) (h : ShardHold) (hK : changesOnly L s₀ s₁)
    (hL : [.mem] ⊆ L) : changesOnly L s₀ (unpackShard i m here h s₁) := by
  unfold unpackShard
  repeat' (first
    | with_reducible exact hK
    | with_reducible assumption
    | with_reducible exact List.Subset.trans (by decide) hL
    | with_reducible refine foldl_frame ?_ (fun _ _ _ => ?_)
    | with_reducible refine foldl_fst_frame ?_ (fun _ _ _ => ?_)
    | with_reducible refine changesOnly_ite ?_ ?_
    | split
    | fail_if_no_progress with_reducible refine changesOnly_mem ?_ (List.Subset.trans (by decide) hL)
    | fail_if_no_progress with_reducible refine changesOnly_lit ?_ ?_ ?_ ?_ ?_ ?_ ?_ ?_ ?_ ?_ ?_ ?_ ?_ ?_ ?_ ?_ ?_ ?_ ?_ ?_ ?_ ?_ ?_ ?_ ?_ ?_ ?_ ?_ ?_ ?_
    | with_reducible exact .inl rfl
    | exact Or.inr (hL (by decide)))

theorem finishLoad_frame {L : List Block} {s₀ s₁ : State} (i : Slot) (hK : changesOnly L s₀ s₁)
    (hL : [.out, .log, .host, .ctx] ⊆ L) : changesOnly L s₀ (finishLoad i s₁) := by
  unfold finishLoad
  repeat' (first
    | with_reducible exact hK
    | with_reducible assumption
    | with_reducible exact List.Subset.trans (by decide) hL
    | with_reducible apply modModel_frame
    | with_reducible apply endFetch_frame
    | with_reducible refine changesOnly_ite ?_ ?_
    | split)

theorem markValid_frame {L : List Block} {s₀ s₁ : State} (i : Slot) (sw : Bool) (f : Fetch) (sh : Nat) (v : BitVec 32) (frame : Nat) (l : List (Piece × Bytes)) (hK : changesOnly L s₀ s₁)
    (hL : [.ctx, .mem] ⊆ L) : changesOnly L s₀ (markValid i sw f sh v frame l s₁) := by
  unfold markValid
  repeat' (first
    | with_reducible exact hK
    | with_reducible assumption
    | with_reducible exact List.Subset.trans (by decide) hL
    | with_reducible apply modModel_frame
    | with_reducible apply modFetch_frame
    | with_reducible apply putHold_frame
    | with_reducible apply writePieces_frame
    | with_reducible apply unpackShard_frame
    | split
    | fail_if_no_progress with_reducible refine changesOnly_lit ?_ ?_ ?_ ?_ ?_ ?_ ?_ ?_ ?_ ?_ ?_ ?_ ?_ ?_ ?_ ?_ ?_ ?_ ?_ ?_ ?_ ?_ ?_ ?_ ?_ ?_ ?_ ?_ ?_ ?_
    | with_reducible exact .inl rfl
    | exact Or.inr (hL (by decide))
    | dsimp only)

theorem failShard_frame {L : List Block} {s₀ s₁ : State} (i : Slot) (sw : Bool) (sh : Nat) (code : Code) (hK : changesOnly L s₀ s₁)
    (hL : [.out, .log, .host, .ctx, .installed, .tiles, .links, .signals, .ports] ⊆ L) : changesOnly L s₀ (failShard i sw sh code s₁) := by
  unfold failShard
  repeat' (first
    | with_reducible exact hK
    | with_reducible assumption
    | with_reducible exact List.Subset.trans (by decide) hL
    | with_reducible apply modFetch_frame
    | with_reducible apply dropHold_frame
    | with_reducible apply shardEvent_frame
    | with_reducible apply askAgain_frame
    | split
    | fail_if_no_progress with_reducible refine changesOnly_lit ?_ ?_ ?_ ?_ ?_ ?_ ?_ ?_ ?_ ?_ ?_ ?_ ?_ ?_ ?_ ?_ ?_ ?_ ?_ ?_ ?_ ?_ ?_ ?_ ?_ ?_ ?_ ?_ ?_ ?_
    | with_reducible exact .inl rfl
    | exact Or.inr (hL (by decide))
    | dsimp only)

theorem forwardPilot_frame {L : List Block} {s₀ s₁ : State} (i : Slot) (sw : Bool) (p : PortId) (f : Fetch) (rs : List ShardRecord) (hK : changesOnly L s₀ s₁)
    (hL : [.out, .ports] ⊆ L) : changesOnly L s₀ (forwardPilot i sw p f rs s₁) := by
  unfold forwardPilot
  repeat' (first
    | with_reducible exact hK
    | with_reducible assumption
    | with_reducible exact List.Subset.trans (by decide) hL
    | with_reducible refine foldl_frame ?_ (fun _ _ _ => ?_)
    | with_reducible refine foldl_fst_frame ?_ (fun _ _ _ => ?_)
    | with_reducible apply sendMsg_frame
    | with_reducible refine changesOnly_ite ?_ ?_
    | split)

theorem takeAnswer_frame {L : List Block} {s₀ s₁ : State} (i : Slot) (sw : Bool) (p : PortId) (sh : Nat) (v : BitVec 32) (rs : List ShardRecord) (hK : changesOnly L s₀ s₁)
    (hL : [.out, .log, .host, .ctx, .installed, .tiles, .links, .signals, .mem, .ports] ⊆ L) : changesOnly L s₀ (takeAnswer i sw p sh v rs s₁) := by
  unfold takeAnswer
  repeat' (first
    | with_reducible exact hK
    | with_reducible assumption
    | with_reducible exact List.Subset.trans (by decide) hL
    | with_reducible apply modFetch_frame
    | with_reducible apply dropReq_frame
    | with_reducible apply finishLoad_frame
    | with_reducible apply markValid_frame
    | with_reducible apply failShard_frame
    | with_reducible apply forwardPilot_frame
    | split
    | fail_if_no_progress with_reducible refine changesOnly_lit ?_ ?_ ?_ ?_ ?_ ?_ ?_ ?_ ?_ ?_ ?_ ?_ ?_ ?_ ?_ ?_ ?_ ?_ ?_ ?_ ?_ ?_ ?_ ?_ ?_ ?_ ?_ ?_ ?_ ?_
    | with_reducible exact .inl rfl
    | exact Or.inr (hL (by decide))
    | dsimp only)

theorem takeData_frame {L : List Block} {s₀ s₁ : State} (p : PortId) (h : SvcHdr) (rs : List ShardRecord) (hK : changesOnly L s₀ s₁)
    (hL : [.out, .log, .host, .ctx, .installed, .tiles, .links, .signals, .mem, .ports] ⊆ L) : changesOnly L s₀ (takeData p h rs s₁) := by
  unfold takeData
  repeat' (first
    | with_reducible exact hK
    | with_reducible assumption
    | with_reducible exact List.Subset.trans (by decide) hL
    | with_reducible refine foldl_frame ?_ (fun _ _ _ => ?_)
    | with_reducible refine foldl_fst_frame ?_ (fun _ _ _ => ?_)
    | with_reducible apply report_frame
    | with_reducible apply takeAnswer_frame
    | split
    | fail_if_no_progress with_reducible refine changesOnly_lit ?_ ?_ ?_ ?_ ?_ ?_ ?_ ?_ ?_ ?_ ?_ ?_ ?_ ?_ ?_ ?_ ?_ ?_ ?_ ?_ ?_ ?_ ?_ ?_ ?_ ?_ ?_ ?_ ?_ ?_
    | with_reducible exact .inl rfl
    | exact Or.inr (hL (by decide))
    | dsimp only)

theorem execShardData_frame {s₁ : State} (p : PortId) (msg : ShardMsg) :
    ∃ s₂, execShardData p msg s₁ = .next s₂ ∧ changesOnly [.out, .log, .host, .ctx, .installed, .tiles, .links, .signals, .mem, .ports, .badShards] s₁ s₂ := by
  have hK : changesOnly [.out, .log, .host, .ctx, .installed, .tiles, .links, .signals, .mem, .ports, .badShards] s₁ s₁ := changesOnly_refl
  have hL : ([.out, .log, .host, .ctx, .installed, .tiles, .links, .signals, .mem, .ports, .badShards] : List Block) ⊆ [.out, .log, .host, .ctx, .installed, .tiles, .links, .signals, .mem, .ports, .badShards] := List.Subset.refl _
  refine ⟨_, rfl, ?_⟩
  repeat' (first
    | with_reducible exact hK
    | with_reducible assumption
    | with_reducible exact List.Subset.trans (by decide) hL
    | with_reducible apply discardSvc_frame
    | with_reducible apply takeData_frame
    | split
    | fail_if_no_progress with_reducible refine changesOnly_lit ?_ ?_ ?_ ?_ ?_ ?_ ?_ ?_ ?_ ?_ ?_ ?_ ?_ ?_ ?_ ?_ ?_ ?_ ?_ ?_ ?_ ?_ ?_ ?_ ?_ ?_ ?_ ?_ ?_ ?_
    | with_reducible exact .inl rfl
    | exact Or.inr (hL (by decide))
    | dsimp only)

theorem streamLayer_frame {L : List Block} {s₀ s₁ : State} (i : Slot) (c : Chart) (x : Installed) (l : Nat) (step : BitVec 32) (hK : changesOnly L s₀ s₁)
    (hL : [.out, .ctx, .ports] ⊆ L) : changesOnly L s₀ (streamLayer i c x l step s₁) := by
  unfold streamLayer
  repeat' (first
    | with_reducible exact hK
    | with_reducible assumption
    | with_reducible exact List.Subset.trans (by decide) hL
    | with_reducible refine foldl_frame ?_ (fun _ _ _ => ?_)
    | with_reducible refine foldl_fst_frame ?_ (fun _ _ _ => ?_)
    | with_reducible apply modFetch_frame
    | with_reducible apply request_frame
    | with_reducible refine changesOnly_ite ?_ ?_
    | split)

theorem refetchLayer_frame {L : List Block} {s₀ s₁ : State} (i : Slot) (l : Nat) (step : BitVec 32) (hK : changesOnly L s₀ s₁)
    (hL : [.out, .ctx, .ports] ⊆ L) : changesOnly L s₀ (refetchLayer i l step s₁) := by
  unfold refetchLayer
  repeat' (first
    | with_reducible exact hK
    | with_reducible assumption
    | with_reducible exact List.Subset.trans (by decide) hL
    | with_reducible refine foldl_frame ?_ (fun _ _ _ => ?_)
    | with_reducible refine foldl_fst_frame ?_ (fun _ _ _ => ?_)
    | with_reducible apply request_frame
    | with_reducible refine changesOnly_ite ?_ ?_
    | split)

theorem setModel_frame {L : List Block} {s₀ s₁ : State} (i : Slot) (m : Option Model) (hK : changesOnly L s₀ s₁)
    (hL : [.ctx] ⊆ L) : changesOnly L s₀ (setModel i m s₁) := by
  unfold setModel
  repeat' (first
    | with_reducible exact hK
    | with_reducible assumption
    | with_reducible exact List.Subset.trans (by decide) hL
    | with_reducible apply modCtx_frame)

theorem bindStart_frame {L : List Block} {s₀ s₁ : State} (i : Slot) (q : QId) (r : Ready) (hK : changesOnly L s₀ s₁)
    (hL : [.out, .log, .host, .ctx] ⊆ L) : changesOnly L s₀ (bindStart i q r s₁) := by
  unfold bindStart
  repeat' (first
    | with_reducible exact hK
    | with_reducible assumption
    | with_reducible exact List.Subset.trans (by decide) hL
    | with_reducible apply refuseStart_frame
    | with_reducible apply atOnce_frame
    | with_reducible apply setModel_frame
    | with_reducible refine changesOnly_ite ?_ ?_
    | split)

theorem execBindManifest_frame {s₁ : State} (i : Slot) (q : QId) :
    ∃ s₂, execBindManifest i q s₁ = .next s₂ ∧ changesOnly [.out, .log, .host, .ctx] s₁ s₂ := by
  have hK : changesOnly [.out, .log, .host, .ctx] s₁ s₁ := changesOnly_refl
  have hL : ([.out, .log, .host, .ctx] : List Block) ⊆ [.out, .log, .host, .ctx] := List.Subset.refl _
  refine ⟨_, rfl, ?_⟩
  repeat' (first
    | with_reducible exact hK
    | with_reducible assumption
    | with_reducible exact List.Subset.trans (by decide) hL
    | with_reducible refine startRow_frame _ _ _ ?_ (fun _ _ _ => ?_) ?_
    | with_reducible apply bindStart_frame)

theorem loadStart_frame {L : List Block} {s₀ s₁ : State} (i : Slot) (q : QId) (r : Ready) (hK : changesOnly L s₀ s₁)
    (hL : [.out, .log, .host, .ctx, .ports] ⊆ L) : changesOnly L s₀ (loadStart i q r s₁) := by
  unfold loadStart
  repeat' (first
    | with_reducible exact hK
    | with_reducible assumption
    | with_reducible exact List.Subset.trans (by decide) hL
    | with_reducible refine foldl_frame ?_ (fun _ _ _ => ?_)
    | with_reducible refine foldl_fst_frame ?_ (fun _ _ _ => ?_)
    | with_reducible apply addRunning_frame
    | with_reducible apply refuseStart_frame
    | with_reducible apply request_frame
    | with_reducible apply setModel_frame
    | with_reducible refine changesOnly_ite ?_ ?_
    | split)

theorem execLoadModel_frame {s₁ : State} (i : Slot) (q : QId) :
    ∃ s₂, execLoadModel i q s₁ = .next s₂ ∧ changesOnly [.out, .log, .host, .ctx, .ports] s₁ s₂ := by
  have hK : changesOnly [.out, .log, .host, .ctx, .ports] s₁ s₁ := changesOnly_refl
  have hL : ([.out, .log, .host, .ctx, .ports] : List Block) ⊆ [.out, .log, .host, .ctx, .ports] := List.Subset.refl _
  refine ⟨_, rfl, ?_⟩
  repeat' (first
    | with_reducible exact hK
    | with_reducible assumption
    | with_reducible exact List.Subset.trans (by decide) hL
    | with_reducible refine startRow_frame _ _ _ ?_ (fun _ _ _ => ?_) ?_
    | with_reducible apply loadStart_frame)

theorem paceSwap_frame {L : List Block} {s₀ s₁ : State} (i : Slot) (hK : changesOnly L s₀ s₁)
    (hL : [.out, .ctx, .ports] ⊆ L) : changesOnly L s₀ (paceSwap i s₁) := by
  unfold paceSwap
  repeat' (first
    | with_reducible exact hK
    | with_reducible assumption
    | with_reducible exact List.Subset.trans (by decide) hL
    | with_reducible refine foldl_frame ?_ (fun _ _ _ => ?_)
    | with_reducible refine foldl_fst_frame ?_ (fun _ _ _ => ?_)
    | with_reducible apply request_frame
    | with_reducible refine changesOnly_ite ?_ ?_
    | split)

theorem finishSwap_frame {L : List Block} {s₀ s₁ : State} (i : Slot) (m : Model) (w : Swap) (hK : changesOnly L s₀ s₁)
    (hL : [.out, .log, .host, .ctx] ⊆ L) : changesOnly L s₀ (finishSwap i m w s₁) := by
  unfold finishSwap
  repeat' (first
    | with_reducible exact hK
    | with_reducible assumption
    | with_reducible exact List.Subset.trans (by decide) hL
    | with_reducible apply modCtx_frame
    | with_reducible apply report_frame
    | with_reducible apply endFetch_frame)

theorem swapStart_frame {L : List Block} {s₀ s₁ : State} (i : Slot) (q : QId) (r : Ready) (hK : changesOnly L s₀ s₁)
    (hL : [.out, .log, .host, .ctx, .ports] ⊆ L) : changesOnly L s₀ (swapStart i q r s₁) := by
  unfold swapStart
  repeat' (first
    | with_reducible exact hK
    | with_reducible assumption
    | with_reducible exact List.Subset.trans (by decide) hL
    | with_reducible apply modCtx_frame
    | with_reducible apply addRunning_frame
    | with_reducible apply refuseStart_frame
    | with_reducible apply paceSwap_frame
    | with_reducible apply finishSwap_frame
    | with_reducible refine changesOnly_ite ?_ ?_
    | split
    | fail_if_no_progress with_reducible refine changesOnly_out ?_ (List.Subset.trans (by decide) hL)
    | fail_if_no_progress with_reducible refine changesOnly_log ?_ (List.Subset.trans (by decide) hL)
    | fail_if_no_progress with_reducible refine changesOnly_host ?_ (List.Subset.trans (by decide) hL)
    | fail_if_no_progress with_reducible refine changesOnly_ctx ?_ (List.Subset.trans (by decide) hL)
    | fail_if_no_progress with_reducible refine changesOnly_ports ?_ (List.Subset.trans (by decide) hL)
    | fail_if_no_progress with_reducible refine changesOnly_lit ?_ ?_ ?_ ?_ ?_ ?_ ?_ ?_ ?_ ?_ ?_ ?_ ?_ ?_ ?_ ?_ ?_ ?_ ?_ ?_ ?_ ?_ ?_ ?_ ?_ ?_ ?_ ?_ ?_ ?_
    | with_reducible exact .inl rfl)

theorem execSwapModel_frame {s₁ : State} (i : Slot) (q : QId) :
    ∃ s₂, execSwapModel i q s₁ = .next s₂ ∧ changesOnly [.out, .log, .host, .ctx, .ports] s₁ s₂ := by
  have hK : changesOnly [.out, .log, .host, .ctx, .ports] s₁ s₁ := changesOnly_refl
  have hL : ([.out, .log, .host, .ctx, .ports] : List Block) ⊆ [.out, .log, .host, .ctx, .ports] := List.Subset.refl _
  refine ⟨_, rfl, ?_⟩
  repeat' (first
    | with_reducible exact hK
    | with_reducible assumption
    | with_reducible exact List.Subset.trans (by decide) hL
    | with_reducible refine startRow_frame _ _ _ ?_ (fun _ _ _ => ?_) ?_
    | with_reducible apply swapStart_frame)

theorem releaseStart_frame {L : List Block} {s₀ s₁ : State} (i : Slot) (q : QId) (r : Ready) (hK : changesOnly L s₀ s₁)
    (hL : [.out, .log, .host, .ctx] ⊆ L) : changesOnly L s₀ (releaseStart i q r s₁) := by
  unfold releaseStart
  repeat' (first
    | with_reducible exact hK
    | with_reducible assumption
    | with_reducible exact List.Subset.trans (by decide) hL
    | with_reducible apply refuseStart_frame
    | with_reducible apply atOnce_frame
    | with_reducible apply setModel_frame
    | with_reducible refine changesOnly_ite ?_ ?_
    | split)

theorem execReleaseModel_frame {s₁ : State} (i : Slot) (q : QId) :
    ∃ s₂, execReleaseModel i q s₁ = .next s₂ ∧ changesOnly [.out, .log, .host, .ctx] s₁ s₂ := by
  have hK : changesOnly [.out, .log, .host, .ctx] s₁ s₁ := changesOnly_refl
  have hL : ([.out, .log, .host, .ctx] : List Block) ⊆ [.out, .log, .host, .ctx] := List.Subset.refl _
  refine ⟨_, rfl, ?_⟩
  repeat' (first
    | with_reducible exact hK
    | with_reducible assumption
    | with_reducible exact List.Subset.trans (by decide) hL
    | with_reducible refine startRow_frame _ _ _ ?_ (fun _ _ _ => ?_) ?_
    | with_reducible apply releaseStart_frame)

theorem catchUpLoad_frame {L : List Block} {s₀ s₁ : State} (i : Slot) (f : Fetch) (hK : changesOnly L s₀ s₁)
    (hL : [.out, .ctx, .ports] ⊆ L) : changesOnly L s₀ (catchUpLoad i f s₁) := by
  unfold catchUpLoad
  repeat' (first
    | with_reducible exact hK
    | with_reducible assumption
    | with_reducible exact List.Subset.trans (by decide) hL
    | with_reducible refine foldl_frame ?_ (fun _ _ _ => ?_)
    | with_reducible refine foldl_fst_frame ?_ (fun _ _ _ => ?_)
    | with_reducible apply modFetch_frame
    | with_reducible apply request_frame)

theorem endStream_frame {L : List Block} {s₀ s₁ : State} (i : Slot) (hK : changesOnly L s₀ s₁)
    (hL : [.out, .ctx, .ports] ⊆ L) : changesOnly L s₀ (endStream s₁ i) := by
  unfold endStream
  repeat' (first
    | with_reducible exact hK
    | with_reducible assumption
    | with_reducible exact List.Subset.trans (by decide) hL
    | with_reducible apply modFetch_frame
    | with_reducible apply paceSwap_frame
    | with_reducible apply catchUpLoad_frame
    | with_reducible refine changesOnly_ite ?_ ?_
    | split)

theorem execPilotStreamEnd_frame {s₁ : State}  :
    ∃ s₂, execPilotStreamEnd s₁ = .next s₂ ∧ changesOnly [.out, .ctx, .ports] s₁ s₂ := by
  have hK : changesOnly [.out, .ctx, .ports] s₁ s₁ := changesOnly_refl
  have hL : ([.out, .ctx, .ports] : List Block) ⊆ [.out, .ctx, .ports] := List.Subset.refl _
  refine ⟨_, rfl, ?_⟩
  repeat' (first
    | with_reducible exact hK
    | with_reducible assumption
    | with_reducible exact List.Subset.trans (by decide) hL
    | with_reducible refine foldl_frame ?_ (fun _ _ _ => ?_)
    | with_reducible refine foldl_fst_frame ?_ (fun _ _ _ => ?_)
    | with_reducible apply endStream_frame)

theorem unpinLayer_frame {L : List Block} {s₀ s₁ : State} (l : Nat) (hK : changesOnly L s₀ s₁)
    (hL : [.tiles] ⊆ L) : changesOnly L s₀ (unpinLayer l s₁) := by
  unfold unpinLayer
  repeat' (first
    | with_reducible exact hK
    | with_reducible assumption
    | with_reducible exact List.Subset.trans (by decide) hL
    | with_reducible apply mapTiles_frame
    | split
    | fail_if_no_progress with_reducible refine changesOnly_lit ?_ ?_ ?_ ?_ ?_ ?_ ?_ ?_ ?_ ?_ ?_ ?_ ?_ ?_ ?_ ?_ ?_ ?_ ?_ ?_ ?_ ?_ ?_ ?_ ?_ ?_ ?_ ?_ ?_ ?_
    | with_reducible exact .inl rfl
    | exact Or.inr (hL (by decide))
    | dsimp only)

theorem replaceLayer_frame {L : List Block} {s₀ s₁ : State} (i : Slot) (l : Nat) (m : Model) (w : Swap) (hK : changesOnly L s₀ s₁)
    (hL : [.out, .log, .host, .ctx, .tiles, .mem, .ports] ⊆ L) : changesOnly L s₀ (replaceLayer i l m w s₁) := by
  unfold replaceLayer
  repeat' (first
    | with_reducible exact hK
    | with_reducible assumption
    | with_reducible exact List.Subset.trans (by decide) hL
    | with_reducible refine foldl_frame ?_ (fun _ _ _ => ?_)
    | with_reducible refine foldl_fst_frame ?_ (fun _ _ _ => ?_)
    | with_reducible apply modModel_frame
    | with_reducible apply unpackShard_frame
    | with_reducible apply paceSwap_frame
    | with_reducible apply finishSwap_frame
    | with_reducible apply unpinLayer_frame
    | split
    | fail_if_no_progress with_reducible refine changesOnly_lit ?_ ?_ ?_ ?_ ?_ ?_ ?_ ?_ ?_ ?_ ?_ ?_ ?_ ?_ ?_ ?_ ?_ ?_ ?_ ?_ ?_ ?_ ?_ ?_ ?_ ?_ ?_ ?_ ?_ ?_
    | with_reducible exact .inl rfl
    | exact Or.inr (hL (by decide))
    | dsimp only)

theorem tryReplace_frame {L : List Block} {s₀ s₁ : State} (i : Slot) (hK : changesOnly L s₀ s₁)
    (hL : [.out, .log, .host, .ctx, .tiles, .mem, .ports] ⊆ L) : changesOnly L s₀ (tryReplace s₁ i) := by
  unfold tryReplace
  repeat' (first
    | with_reducible exact hK
    | with_reducible assumption
    | with_reducible exact List.Subset.trans (by decide) hL
    | with_reducible apply replaceLayer_frame
    | split
    | fail_if_no_progress with_reducible refine changesOnly_lit ?_ ?_ ?_ ?_ ?_ ?_ ?_ ?_ ?_ ?_ ?_ ?_ ?_ ?_ ?_ ?_ ?_ ?_ ?_ ?_ ?_ ?_ ?_ ?_ ?_ ?_ ?_ ?_ ?_ ?_
    | with_reducible exact .inl rfl
    | exact Or.inr (hL (by decide))
    | dsimp only)

theorem execSwapLayerReplace_frame {s₁ : State}  :
    ∃ s₂, execSwapLayerReplace s₁ = .next s₂ ∧ changesOnly [.out, .log, .host, .ctx, .tiles, .mem, .ports] s₁ s₂ := by
  have hK : changesOnly [.out, .log, .host, .ctx, .tiles, .mem, .ports] s₁ s₁ := changesOnly_refl
  have hL : ([.out, .log, .host, .ctx, .tiles, .mem, .ports] : List Block) ⊆ [.out, .log, .host, .ctx, .tiles, .mem, .ports] := List.Subset.refl _
  refine ⟨_, rfl, ?_⟩
  repeat' (first
    | with_reducible exact hK
    | with_reducible assumption
    | with_reducible exact List.Subset.trans (by decide) hL
    | with_reducible refine foldl_frame ?_ (fun _ _ _ => ?_)
    | with_reducible refine foldl_fst_frame ?_ (fun _ _ _ => ?_)
    | with_reducible apply tryReplace_frame
    | split
    | fail_if_no_progress with_reducible refine changesOnly_lit ?_ ?_ ?_ ?_ ?_ ?_ ?_ ?_ ?_ ?_ ?_ ?_ ?_ ?_ ?_ ?_ ?_ ?_ ?_ ?_ ?_ ?_ ?_ ?_ ?_ ?_ ?_ ?_ ?_ ?_
    | with_reducible exact .inl rfl
    | exact Or.inr (hL (by decide))
    | dsimp only)

theorem sendPatch_frame {L : List Block} {s₀ s₁ : State} (i : Slot) (sh off : Nat) (v : BitVec 32) (ordinal : Nat) (pt : Bytes) (hK : changesOnly L s₀ s₁)
    (hL : [.out, .ctx, .ports] ⊆ L) : changesOnly L s₀ (sendPatch i sh off v ordinal pt s₁) := by
  unfold sendPatch
  repeat' (first
    | with_reducible exact hK
    | with_reducible assumption
    | with_reducible exact List.Subset.trans (by decide) hL
    | with_reducible apply modModel_frame
    | with_reducible apply sendOnPlane_frame
    | with_reducible refine changesOnly_ite ?_ ?_
    | split)

theorem ackPatch_frame {L : List Block} {s₀ s₁ : State} (h : SvcHdr) (i : Slot) (hK : changesOnly L s₀ s₁)
    (hL : [.ctx] ⊆ L) : changesOnly L s₀ (ackPatch h s₁ i) := by
  unfold ackPatch
  repeat' (first
    | with_reducible exact hK
    | with_reducible assumption
    | with_reducible exact List.Subset.trans (by decide) hL
    | with_reducible apply modModel_frame)

theorem execShardAck_frame {s₁ : State} (p : PortId) (msg : ShardMsg) :
    ∃ s₂, execShardAck p msg s₁ = .next s₂ ∧ changesOnly [.out, .log, .host, .ctx, .badShards] s₁ s₂ := by
  have hK : changesOnly [.out, .log, .host, .ctx, .badShards] s₁ s₁ := changesOnly_refl
  have hL : ([.out, .log, .host, .ctx, .badShards] : List Block) ⊆ [.out, .log, .host, .ctx, .badShards] := List.Subset.refl _
  refine ⟨_, rfl, ?_⟩
  repeat' (first
    | with_reducible exact hK
    | with_reducible assumption
    | with_reducible exact List.Subset.trans (by decide) hL
    | with_reducible refine foldl_frame ?_ (fun _ _ _ => ?_)
    | with_reducible refine foldl_fst_frame ?_ (fun _ _ _ => ?_)
    | with_reducible apply discardSvc_frame
    | with_reducible apply ackPatch_frame
    | with_reducible refine changesOnly_ite ?_ ?_
    | split
    | fail_if_no_progress with_reducible refine changesOnly_out ?_ (List.Subset.trans (by decide) hL)
    | fail_if_no_progress with_reducible refine changesOnly_log ?_ (List.Subset.trans (by decide) hL)
    | fail_if_no_progress with_reducible refine changesOnly_host ?_ (List.Subset.trans (by decide) hL)
    | fail_if_no_progress with_reducible refine changesOnly_ctx ?_ (List.Subset.trans (by decide) hL)
    | fail_if_no_progress with_reducible refine changesOnly_badShards ?_ (List.Subset.trans (by decide) hL)
    | fail_if_no_progress with_reducible refine changesOnly_lit ?_ ?_ ?_ ?_ ?_ ?_ ?_ ?_ ?_ ?_ ?_ ?_ ?_ ?_ ?_ ?_ ?_ ?_ ?_ ?_ ?_ ?_ ?_ ?_ ?_ ?_ ?_ ?_ ?_ ?_
    | with_reducible exact .inl rfl)

theorem endStep_frame {L : List Block} {s₀ s₁ : State} (i : Slot) (code : Code) (hK : changesOnly L s₀ s₁)
    (hL : [.out, .log, .host, .ctx, .installed, .tiles, .links, .signals, .coll] ⊆ L) : changesOnly L s₀ (endStep i code s₁) := by
  unfold endStep
  repeat' (first
    | with_reducible exact hK
    | with_reducible assumption
    | with_reducible exact List.Subset.trans (by decide) hL
    | with_reducible apply endPass_frame
    | with_reducible apply endReduction_frame
    | split
    | fail_if_no_progress with_reducible refine changesOnly_lit ?_ ?_ ?_ ?_ ?_ ?_ ?_ ?_ ?_ ?_ ?_ ?_ ?_ ?_ ?_ ?_ ?_ ?_ ?_ ?_ ?_ ?_ ?_ ?_ ?_ ?_ ?_ ?_ ?_ ?_
    | with_reducible exact .inl rfl
    | exact Or.inr (hL (by decide))
    | dsimp only)

theorem resendPatch_frame {L : List Block} {s₀ s₁ : State} (i : Slot) (m : Model) (p : PatchHold) (hK : changesOnly L s₀ s₁)
    (hL : [.out, .log, .host, .ctx, .installed, .tiles, .links, .signals, .ports, .coll] ⊆ L) : changesOnly L s₀ (resendPatch i m p s₁) := by
  unfold resendPatch
  repeat' (first
    | with_reducible exact hK
    | with_reducible assumption
    | with_reducible exact List.Subset.trans (by decide) hL
    | with_reducible apply modModel_frame
    | with_reducible apply shardEvent_frame
    | with_reducible apply sendOnPlane_frame
    | with_reducible apply endStep_frame
    | split
    | fail_if_no_progress with_reducible refine changesOnly_lit ?_ ?_ ?_ ?_ ?_ ?_ ?_ ?_ ?_ ?_ ?_ ?_ ?_ ?_ ?_ ?_ ?_ ?_ ?_ ?_ ?_ ?_ ?_ ?_ ?_ ?_ ?_ ?_ ?_ ?_
    | with_reducible exact .inl rfl
    | exact Or.inr (hL (by decide))
    | dsimp only)

theorem execPatchAckTimeout_frame {s₁ : State} (sh off : Nat) :
    ∃ s₂, execPatchAckTimeout sh off s₁ = .next s₂ ∧ changesOnly [.out, .log, .host, .ctx, .installed, .tiles, .links, .signals, .ports, .coll] s₁ s₂ := by
  have hK : changesOnly [.out, .log, .host, .ctx, .installed, .tiles, .links, .signals, .ports, .coll] s₁ s₁ := changesOnly_refl
  have hL : ([.out, .log, .host, .ctx, .installed, .tiles, .links, .signals, .ports, .coll] : List Block) ⊆ [.out, .log, .host, .ctx, .installed, .tiles, .links, .signals, .ports, .coll] := List.Subset.refl _
  refine ⟨_, rfl, ?_⟩
  repeat' (first
    | with_reducible exact hK
    | with_reducible assumption
    | with_reducible exact List.Subset.trans (by decide) hL
    | with_reducible apply resendPatch_frame
    | split
    | fail_if_no_progress with_reducible refine changesOnly_lit ?_ ?_ ?_ ?_ ?_ ?_ ?_ ?_ ?_ ?_ ?_ ?_ ?_ ?_ ?_ ?_ ?_ ?_ ?_ ?_ ?_ ?_ ?_ ?_ ?_ ?_ ?_ ?_ ?_ ?_
    | with_reducible exact .inl rfl
    | exact Or.inr (hL (by decide))
    | dsimp only)

end Sys2Proof.Machine
end

