-- ==== Sys2Proof/Laws/FrameFaults.lean ====
section
/-! SUPPORT. The frames of the operations and commands of Faults (Laws/Frame.lean). -/

namespace Sys2Proof.Machine

set_option linter.all false
set_option Elab.async false

open Sys2Proof

theorem startTest_frame {L : List Block} {s₀ s₁ : State} (p : Part) (code : BitVec 16) (since : Nat) (hK : changesOnly L s₀ s₁)
    (hL : [.out, .log, .host, .selfTest] ⊆ L) : changesOnly L s₀ (startTest p code since s₁) := by
  unfold startTest
  repeat' (first
    | with_reducible exact hK
    | with_reducible assumption
    | with_reducible exact List.Subset.trans (by decide) hL
    | with_reducible apply report_frame
    | with_reducible refine changesOnly_ite ?_ ?_
    | split
    | fail_if_no_progress with_reducible refine changesOnly_out ?_ (List.Subset.trans (by decide) hL)
    | fail_if_no_progress with_reducible refine changesOnly_log ?_ (List.Subset.trans (by decide) hL)
    | fail_if_no_progress with_reducible refine changesOnly_host ?_ (List.Subset.trans (by decide) hL)
    | fail_if_no_progress with_reducible refine changesOnly_selfTest ?_ (List.Subset.trans (by decide) hL)
    | fail_if_no_progress with_reducible refine changesOnly_lit ?_ ?_ ?_ ?_ ?_ ?_ ?_ ?_ ?_ ?_ ?_ ?_ ?_ ?_ ?_ ?_ ?_ ?_ ?_ ?_ ?_ ?_ ?_ ?_ ?_ ?_ ?_ ?_ ?_ ?_
    | with_reducible exact .inl rfl
    | exact Or.inr (hL (by decide)))

theorem execSelfTestStart_frame {s₁ : State} (p : Part) :
    ∃ s₂, execSelfTestStart p s₁ = .next s₂ ∧ changesOnly [.out, .log, .host, .selfTest] s₁ s₂ := by
  have hK : changesOnly [.out, .log, .host, .selfTest] s₁ s₁ := changesOnly_refl
  have hL : ([.out, .log, .host, .selfTest] : List Block) ⊆ [.out, .log, .host, .selfTest] := List.Subset.refl _
  refine ⟨_, rfl, ?_⟩
  repeat' (first
    | with_reducible exact hK
    | with_reducible assumption
    | with_reducible exact List.Subset.trans (by decide) hL
    | with_reducible apply startTest_frame
    | with_reducible refine changesOnly_ite ?_ ?_
    | split)

theorem testPassed_frame {L : List Block} {s₀ s₁ : State} (p : Part) (code : BitVec 16) (hK : changesOnly L s₀ s₁)
    (hL : [.out, .log, .host, .ctx, .loader, .installed, .tiles, .dies, .links, .signals, .defects, .selfTest, .mem, .thermal, .nv, .coll] ⊆ L) : changesOnly L s₀ (testPassed p code s₁) := by
  unfold testPassed
  repeat' (first
    | with_reducible exact hK
    | with_reducible assumption
    | with_reducible exact List.Subset.trans (by decide) hL
    | with_reducible apply report_frame
    | with_reducible apply lastingFault_frame
    | split
    | fail_if_no_progress with_reducible refine changesOnly_lit ?_ ?_ ?_ ?_ ?_ ?_ ?_ ?_ ?_ ?_ ?_ ?_ ?_ ?_ ?_ ?_ ?_ ?_ ?_ ?_ ?_ ?_ ?_ ?_ ?_ ?_ ?_ ?_ ?_ ?_
    | with_reducible exact .inl rfl
    | exact Or.inr (hL (by decide))
    | dsimp only)

theorem retireSensor_frame {L : List Block} {s₀ s₁ : State} (p : Part) (k : Nat) (hK : changesOnly L s₀ s₁)
    (hL : [.out, .log, .host, .ctx, .loader, .installed, .tiles, .dies, .links, .signals, .defects, .mem, .thermal, .coll] ⊆ L) : changesOnly L s₀ (retireSensor p s₁ k) := by
  unfold retireSensor
  repeat' (first
    | with_reducible exact hK
    | with_reducible assumption
    | with_reducible exact List.Subset.trans (by decide) hL
    | with_reducible apply retireHotSensor_frame
    | with_reducible apply retireTileSensor_frame
    | split
    | fail_if_no_progress with_reducible refine changesOnly_lit ?_ ?_ ?_ ?_ ?_ ?_ ?_ ?_ ?_ ?_ ?_ ?_ ?_ ?_ ?_ ?_ ?_ ?_ ?_ ?_ ?_ ?_ ?_ ?_ ?_ ?_ ?_ ?_ ?_ ?_
    | with_reducible exact .inl rfl
    | exact Or.inr (hL (by decide))
    | dsimp only)

theorem testEnds_frame {L : List Block} {s₀ s₁ : State} (p : Part) (code : BitVec 16) (x : TestFinding) (hK : changesOnly L s₀ s₁)
    (hL : [.out, .log, .host, .ctx, .loader, .installed, .tiles, .dies, .links, .signals, .defects, .selfTest, .mem, .thermal, .nv, .coll] ⊆ L) : changesOnly L s₀ (testEnds p code x s₁) := by
  unfold testEnds
  repeat' (first
    | with_reducible exact hK
    | with_reducible assumption
    | with_reducible exact List.Subset.trans (by decide) hL
    | with_reducible refine foldl_frame ?_ (fun _ _ _ => ?_)
    | with_reducible refine foldl_fst_frame ?_ (fun _ _ _ => ?_)
    | with_reducible apply report_frame
    | with_reducible apply failTrack_frame
    | with_reducible apply lastingFault_frame
    | with_reducible apply testPassed_frame
    | with_reducible apply retireSensor_frame
    | with_reducible refine changesOnly_ite ?_ ?_
    | split)

theorem execSelfTestResult_frame {s₁ : State} (p : Part) (x : TestFinding) :
    ∃ s₂, execSelfTestResult p x s₁ = .next s₂ ∧ changesOnly [.out, .log, .host, .ctx, .loader, .installed, .tiles, .dies, .links, .signals, .defects, .selfTest, .mem, .thermal, .nv, .coll] s₁ s₂ := by
  have hK : changesOnly [.out, .log, .host, .ctx, .loader, .installed, .tiles, .dies, .links, .signals, .defects, .selfTest, .mem, .thermal, .nv, .coll] s₁ s₁ := changesOnly_refl
  have hL : ([.out, .log, .host, .ctx, .loader, .installed, .tiles, .dies, .links, .signals, .defects, .selfTest, .mem, .thermal, .nv, .coll] : List Block) ⊆ [.out, .log, .host, .ctx, .loader, .installed, .tiles, .dies, .links, .signals, .defects, .selfTest, .mem, .thermal, .nv, .coll] := List.Subset.refl _
  refine ⟨_, rfl, ?_⟩
  repeat' (first
    | with_reducible exact hK
    | with_reducible assumption
    | with_reducible exact List.Subset.trans (by decide) hL
    | with_reducible apply testEnds_frame
    | with_reducible refine changesOnly_ite ?_ ?_
    | split
    | fail_if_no_progress with_reducible refine changesOnly_out ?_ (List.Subset.trans (by decide) hL)
    | fail_if_no_progress with_reducible refine changesOnly_log ?_ (List.Subset.trans (by decide) hL)
    | fail_if_no_progress with_reducible refine changesOnly_host ?_ (List.Subset.trans (by decide) hL)
    | fail_if_no_progress with_reducible refine changesOnly_ctx ?_ (List.Subset.trans (by decide) hL)
    | fail_if_no_progress with_reducible refine changesOnly_loader ?_ (List.Subset.trans (by decide) hL)
    | fail_if_no_progress with_reducible refine changesOnly_installed ?_ (List.Subset.trans (by decide) hL)
    | fail_if_no_progress with_reducible refine changesOnly_tiles ?_ (List.Subset.trans (by decide) hL)
    | fail_if_no_progress with_reducible refine changesOnly_dies ?_ (List.Subset.trans (by decide) hL)
    | fail_if_no_progress with_reducible refine changesOnly_links ?_ (List.Subset.trans (by decide) hL)
    | fail_if_no_progress with_reducible refine changesOnly_signals ?_ (List.Subset.trans (by decide) hL)
    | fail_if_no_progress with_reducible refine changesOnly_defects ?_ (List.Subset.trans (by decide) hL)
    | fail_if_no_progress with_reducible refine changesOnly_selfTest ?_ (List.Subset.trans (by decide) hL)
    | fail_if_no_progress with_reducible refine changesOnly_mem ?_ (List.Subset.trans (by decide) hL)
    | fail_if_no_progress with_reducible refine changesOnly_thermal ?_ (List.Subset.trans (by decide) hL)
    | fail_if_no_progress with_reducible refine changesOnly_nv ?_ (List.Subset.trans (by decide) hL)
    | fail_if_no_progress with_reducible refine changesOnly_coll ?_ (List.Subset.trans (by decide) hL)
    | fail_if_no_progress with_reducible refine changesOnly_lit ?_ ?_ ?_ ?_ ?_ ?_ ?_ ?_ ?_ ?_ ?_ ?_ ?_ ?_ ?_ ?_ ?_ ?_ ?_ ?_ ?_ ?_ ?_ ?_ ?_ ?_ ?_ ?_ ?_ ?_
    | with_reducible exact .inl rfl
    | exact Or.inr (hL (by decide)))

theorem failStored_frame {L : List Block} {s₀ s₁ : State} (i : Slot) (beside : Bool) (sh : Nat) (hK : changesOnly L s₀ s₁)
    (hL : [.out, .log, .host, .ctx, .installed, .tiles, .links, .signals, .ports] ⊆ L) : changesOnly L s₀ (failStored i beside sh s₁) := by
  unfold failStored
  repeat' (first
    | with_reducible exact hK
    | with_reducible assumption
    | with_reducible exact List.Subset.trans (by decide) hL
    | with_reducible apply endPass_frame
    | with_reducible apply modFetch_frame
    | with_reducible apply request_frame
    | split
    | fail_if_no_progress with_reducible refine changesOnly_lit ?_ ?_ ?_ ?_ ?_ ?_ ?_ ?_ ?_ ?_ ?_ ?_ ?_ ?_ ?_ ?_ ?_ ?_ ?_ ?_ ?_ ?_ ?_ ?_ ?_ ?_ ?_ ?_ ?_ ?_
    | with_reducible exact .inl rfl
    | exact Or.inr (hL (by decide))
    | dsimp only)

theorem loseMasters_frame {L : List Block} {s₀ s₁ : State}  (hK : changesOnly L s₀ s₁)
    (hL : [.out, .log, .host, .ctx, .loader, .installed, .tiles, .dies, .links, .signals, .mem, .coll] ⊆ L) : changesOnly L s₀ (loseMasters s₁) := by
  unfold loseMasters
  repeat' (first
    | with_reducible exact hK
    | with_reducible assumption
    | with_reducible exact List.Subset.trans (by decide) hL
    | with_reducible apply endPass_frame
    | with_reducible apply endReduction_frame
    | with_reducible apply leaveStep_frame
    | split
    | fail_if_no_progress with_reducible refine changesOnly_lit ?_ ?_ ?_ ?_ ?_ ?_ ?_ ?_ ?_ ?_ ?_ ?_ ?_ ?_ ?_ ?_ ?_ ?_ ?_ ?_ ?_ ?_ ?_ ?_ ?_ ?_ ?_ ?_ ?_ ?_
    | with_reducible exact .inl rfl
    | exact Or.inr (hL (by decide))
    | dsimp only)

theorem poisonedTensor_frame {L : List Block} {s₀ s₁ : State} (t : Nat) (hK : changesOnly L s₀ s₁)
    (hL : [.out, .log, .host, .ctx, .installed, .tiles, .links, .signals] ⊆ L) : changesOnly L s₀ (poisonedTensor t s₁) := by
  unfold poisonedTensor
  repeat' (first
    | with_reducible exact hK
    | with_reducible assumption
    | with_reducible exact List.Subset.trans (by decide) hL
    | with_reducible apply endPass_frame
    | with_reducible apply faultTile_frame
    | split
    | fail_if_no_progress with_reducible refine changesOnly_lit ?_ ?_ ?_ ?_ ?_ ?_ ?_ ?_ ?_ ?_ ?_ ?_ ?_ ?_ ?_ ?_ ?_ ?_ ?_ ?_ ?_ ?_ ?_ ?_ ?_ ?_ ?_ ?_ ?_ ?_
    | with_reducible exact .inl rfl
    | exact Or.inr (hL (by decide))
    | dsimp only)

theorem poisonedStack_frame {L : List Block} {s₀ s₁ : State} (content : Fin 6) (index : Nat) (reading : Bool) (hK : changesOnly L s₀ s₁)
    (hL : [.out, .log, .host, .ctx, .loader, .installed, .tiles, .dies, .links, .signals, .mem, .ports, .coll] ⊆ L) : changesOnly L s₀ (poisonedStack content index reading s₁) := by
  unfold poisonedStack
  repeat' (first
    | with_reducible exact hK
    | with_reducible assumption
    | with_reducible exact List.Subset.trans (by decide) hL
    | with_reducible apply zeroMem_frame
    | with_reducible apply endPass_frame
    | with_reducible apply failStored_frame
    | with_reducible apply loseMasters_frame
    | with_reducible apply poisonedTensor_frame
    | split
    | fail_if_no_progress with_reducible refine changesOnly_lit ?_ ?_ ?_ ?_ ?_ ?_ ?_ ?_ ?_ ?_ ?_ ?_ ?_ ?_ ?_ ?_ ?_ ?_ ?_ ?_ ?_ ?_ ?_ ?_ ?_ ?_ ?_ ?_ ?_ ?_
    | with_reducible exact .inl rfl
    | exact Or.inr (hL (by decide))
    | dsimp only)

theorem meetError_frame {L : List Block} {s₀ s₁ : State} (x : ScrubFinding) (reading : Bool) (hK : changesOnly L s₀ s₁)
    (hL : [.out, .log, .host, .ctx, .loader, .installed, .tiles, .dies, .links, .signals, .selfTest, .mem, .ports, .coll] ⊆ L) : changesOnly L s₀ (meetError x reading s₁) := by
  unfold meetError
  repeat' (first
    | with_reducible exact hK
    | with_reducible assumption
    | with_reducible exact List.Subset.trans (by decide) hL
    | with_reducible apply report_frame
    | with_reducible apply faultTile_frame
    | with_reducible apply detect_frame
    | with_reducible apply poisonedStack_frame
    | split
    | fail_if_no_progress with_reducible refine changesOnly_lit ?_ ?_ ?_ ?_ ?_ ?_ ?_ ?_ ?_ ?_ ?_ ?_ ?_ ?_ ?_ ?_ ?_ ?_ ?_ ?_ ?_ ?_ ?_ ?_ ?_ ?_ ?_ ?_ ?_ ?_
    | with_reducible exact .inl rfl
    | exact Or.inr (hL (by decide))
    | dsimp only)

theorem scrubRead_frame {L : List Block} {s₀ s₁ : State} (x : ScrubFinding) (hK : changesOnly L s₀ s₁)
    (hL : [.out, .log, .host, .ctx, .loader, .installed, .tiles, .dies, .links, .signals, .selfTest, .mem, .ports, .coll] ⊆ L) : changesOnly L s₀ (scrubRead x s₁) := by
  unfold scrubRead
  repeat' (first
    | with_reducible exact hK
    | with_reducible assumption
    | with_reducible exact List.Subset.trans (by decide) hL
    | with_reducible apply doneWork_frame
    | with_reducible apply meetError_frame
    | split
    | fail_if_no_progress with_reducible refine changesOnly_lit ?_ ?_ ?_ ?_ ?_ ?_ ?_ ?_ ?_ ?_ ?_ ?_ ?_ ?_ ?_ ?_ ?_ ?_ ?_ ?_ ?_ ?_ ?_ ?_ ?_ ?_ ?_ ?_ ?_ ?_
    | with_reducible exact .inl rfl
    | exact Or.inr (hL (by decide))
    | dsimp only)

theorem execBackgroundScrub_frame {s₁ : State} (x : ScrubFinding) :
    ∃ s₂, execBackgroundScrub x s₁ = .next s₂ ∧ changesOnly [.out, .log, .host, .ctx, .loader, .installed, .tiles, .dies, .links, .signals, .selfTest, .mem, .ports, .coll] s₁ s₂ := by
  have hK : changesOnly [.out, .log, .host, .ctx, .loader, .installed, .tiles, .dies, .links, .signals, .selfTest, .mem, .ports, .coll] s₁ s₁ := changesOnly_refl
  have hL : ([.out, .log, .host, .ctx, .loader, .installed, .tiles, .dies, .links, .signals, .selfTest, .mem, .ports, .coll] : List Block) ⊆ [.out, .log, .host, .ctx, .loader, .installed, .tiles, .dies, .links, .signals, .selfTest, .mem, .ports, .coll] := List.Subset.refl _
  refine ⟨_, rfl, ?_⟩
  repeat' (first
    | with_reducible exact hK
    | with_reducible assumption
    | with_reducible exact List.Subset.trans (by decide) hL
    | with_reducible refine when'_frame _ ?_ (fun _ _ => ?_)
    | with_reducible apply scrubRead_frame
    | split
    | fail_if_no_progress with_reducible refine changesOnly_lit ?_ ?_ ?_ ?_ ?_ ?_ ?_ ?_ ?_ ?_ ?_ ?_ ?_ ?_ ?_ ?_ ?_ ?_ ?_ ?_ ?_ ?_ ?_ ?_ ?_ ?_ ?_ ?_ ?_ ?_
    | with_reducible exact .inl rfl
    | exact Or.inr (hL (by decide))
    | dsimp only)

theorem recheckStack_frame {L : List Block} {s₀ s₁ : State} (i : Slot) (m : Model) (l : Nat) (hK : changesOnly L s₀ s₁)
    (hL : [.out, .log, .host, .ctx, .installed, .tiles, .links, .signals, .ports] ⊆ L) : changesOnly L s₀ (recheckStack i m l s₁) := by
  unfold recheckStack
  repeat' (first
    | with_reducible exact hK
    | with_reducible assumption
    | with_reducible exact List.Subset.trans (by decide) hL
    | with_reducible refine foldl_frame ?_ (fun _ _ _ => ?_)
    | with_reducible refine foldl_fst_frame ?_ (fun _ _ _ => ?_)
    | with_reducible apply failStored_frame
    | split
    | fail_if_no_progress with_reducible refine changesOnly_lit ?_ ?_ ?_ ?_ ?_ ?_ ?_ ?_ ?_ ?_ ?_ ?_ ?_ ?_ ?_ ?_ ?_ ?_ ?_ ?_ ?_ ?_ ?_ ?_ ?_ ?_ ?_ ?_ ?_ ?_
    | with_reducible exact .inl rfl
    | exact Or.inr (hL (by decide))
    | dsimp only)

theorem unpinArea_frame {L : List Block} {s₀ s₁ : State} (area : Nat) (hK : changesOnly L s₀ s₁)
    (hL : [.tiles] ⊆ L) : changesOnly L s₀ (unpinArea area s₁) := by
  unfold unpinArea
  repeat' (first
    | with_reducible exact hK
    | with_reducible assumption
    | with_reducible exact List.Subset.trans (by decide) hL
    | with_reducible apply mapTiles_frame
    | split
    | fail_if_no_progress with_reducible refine changesOnly_lit ?_ ?_ ?_ ?_ ?_ ?_ ?_ ?_ ?_ ?_ ?_ ?_ ?_ ?_ ?_ ?_ ?_ ?_ ?_ ?_ ?_ ?_ ?_ ?_ ?_ ?_ ?_ ?_ ?_ ?_
    | with_reducible exact .inl rfl
    | exact Or.inr (hL (by decide))
    | dsimp only)

theorem areaMismatch_frame {L : List Block} {s₀ s₁ : State} (i : Slot) (y : Site) (m : Model) (area sh : Nat) (hK : changesOnly L s₀ s₁)
    (hL : [.out, .log, .host, .ctx, .installed, .tiles, .links, .signals, .selfTest, .ports] ⊆ L) : changesOnly L s₀ (areaMismatch i y m area sh s₁) := by
  unfold areaMismatch
  repeat' (first
    | with_reducible exact hK
    | with_reducible assumption
    | with_reducible exact List.Subset.trans (by decide) hL
    | with_reducible refine foldl_frame ?_ (fun _ _ _ => ?_)
    | with_reducible refine foldl_fst_frame ?_ (fun _ _ _ => ?_)
    | with_reducible apply faultRegions_frame
    | with_reducible apply detect_frame
    | with_reducible apply shardEvent_frame
    | with_reducible apply recheckStack_frame
    | with_reducible apply unpinArea_frame
    | split
    | fail_if_no_progress with_reducible refine changesOnly_lit ?_ ?_ ?_ ?_ ?_ ?_ ?_ ?_ ?_ ?_ ?_ ?_ ?_ ?_ ?_ ?_ ?_ ?_ ?_ ?_ ?_ ?_ ?_ ?_ ?_ ?_ ?_ ?_ ?_ ?_
    | with_reducible exact .inl rfl
    | exact Or.inr (hL (by decide))
    | dsimp only)

theorem recheckArea_frame {L : List Block} {s₀ s₁ : State} (i : Slot) (y : Site) (m : Model) (area : Nat) (hK : changesOnly L s₀ s₁)
    (hL : [.out, .log, .host, .ctx, .installed, .tiles, .links, .signals, .selfTest, .ports] ⊆ L) : changesOnly L s₀ (recheckArea i y m area s₁) := by
  unfold recheckArea
  repeat' (first
    | with_reducible exact hK
    | with_reducible assumption
    | with_reducible exact List.Subset.trans (by decide) hL
    | with_reducible apply areaMismatch_frame
    | split
    | fail_if_no_progress with_reducible refine changesOnly_lit ?_ ?_ ?_ ?_ ?_ ?_ ?_ ?_ ?_ ?_ ?_ ?_ ?_ ?_ ?_ ?_ ?_ ?_ ?_ ?_ ?_ ?_ ?_ ?_ ?_ ?_ ?_ ?_ ?_ ?_
    | with_reducible exact .inl rfl
    | exact Or.inr (hL (by decide))
    | dsimp only)

theorem execDeckWeightRecheck_frame {s₁ : State} (area : BitVec 16) :
    ∃ s₂, execDeckWeightRecheck area s₁ = .next s₂ ∧ changesOnly [.out, .log, .host, .ctx, .installed, .tiles, .links, .signals, .selfTest, .ports] s₁ s₂ := by
  have hK : changesOnly [.out, .log, .host, .ctx, .installed, .tiles, .links, .signals, .selfTest, .ports] s₁ s₁ := changesOnly_refl
  have hL : ([.out, .log, .host, .ctx, .installed, .tiles, .links, .signals, .selfTest, .ports] : List Block) ⊆ [.out, .log, .host, .ctx, .installed, .tiles, .links, .signals, .selfTest, .ports] := List.Subset.refl _
  refine ⟨_, rfl, ?_⟩
  repeat' (first
    | with_reducible exact hK
    | with_reducible assumption
    | with_reducible exact List.Subset.trans (by decide) hL
    | with_reducible apply doneWork_frame
    | with_reducible apply recheckArea_frame
    | split
    | fail_if_no_progress with_reducible refine changesOnly_lit ?_ ?_ ?_ ?_ ?_ ?_ ?_ ?_ ?_ ?_ ?_ ?_ ?_ ?_ ?_ ?_ ?_ ?_ ?_ ?_ ?_ ?_ ?_ ?_ ?_ ?_ ?_ ?_ ?_ ?_
    | with_reducible exact .inl rfl
    | exact Or.inr (hL (by decide))
    | dsimp only)

theorem recheckHold_frame {L : List Block} {s₀ s₁ : State} (i : Slot) (sh : Nat) (beside : Bool) (hK : changesOnly L s₀ s₁)
    (hL : [.out, .log, .host, .ctx, .installed, .tiles, .links, .signals, .ports] ⊆ L) : changesOnly L s₀ (recheckHold i sh s₁ beside) := by
  unfold recheckHold
  repeat' (first
    | with_reducible exact hK
    | with_reducible assumption
    | with_reducible exact List.Subset.trans (by decide) hL
    | with_reducible apply shardEvent_frame
    | with_reducible apply request_frame
    | with_reducible apply failStored_frame
    | split
    | fail_if_no_progress with_reducible refine changesOnly_lit ?_ ?_ ?_ ?_ ?_ ?_ ?_ ?_ ?_ ?_ ?_ ?_ ?_ ?_ ?_ ?_ ?_ ?_ ?_ ?_ ?_ ?_ ?_ ?_ ?_ ?_ ?_ ?_ ?_ ?_
    | with_reducible exact .inl rfl
    | exact Or.inr (hL (by decide))
    | dsimp only)

theorem recheckShard_frame {L : List Block} {s₀ s₁ : State} (i : Slot) (sh : Nat) (hK : changesOnly L s₀ s₁)
    (hL : [.out, .log, .host, .ctx, .installed, .tiles, .links, .signals, .ports] ⊆ L) : changesOnly L s₀ (recheckShard i sh s₁) := by
  unfold recheckShard
  repeat' (first
    | with_reducible exact hK
    | with_reducible assumption
    | with_reducible exact List.Subset.trans (by decide) hL
    | with_reducible refine foldl_frame ?_ (fun _ _ _ => ?_)
    | with_reducible refine foldl_fst_frame ?_ (fun _ _ _ => ?_)
    | with_reducible apply modModel_frame
    | with_reducible apply recheckHold_frame
    | split
    | fail_if_no_progress with_reducible refine changesOnly_lit ?_ ?_ ?_ ?_ ?_ ?_ ?_ ?_ ?_ ?_ ?_ ?_ ?_ ?_ ?_ ?_ ?_ ?_ ?_ ?_ ?_ ?_ ?_ ?_ ?_ ?_ ?_ ?_ ?_ ?_
    | with_reducible exact .inl rfl
    | exact Or.inr (hL (by decide))
    | dsimp only)

theorem execModelStoreRecheck_frame {s₁ : State} (i : Slot) (sh : Nat) :
    ∃ s₂, execModelStoreRecheck i sh s₁ = .next s₂ ∧ changesOnly [.out, .log, .host, .ctx, .installed, .tiles, .links, .signals, .selfTest, .ports] s₁ s₂ := by
  have hK : changesOnly [.out, .log, .host, .ctx, .installed, .tiles, .links, .signals, .selfTest, .ports] s₁ s₁ := changesOnly_refl
  have hL : ([.out, .log, .host, .ctx, .installed, .tiles, .links, .signals, .selfTest, .ports] : List Block) ⊆ [.out, .log, .host, .ctx, .installed, .tiles, .links, .signals, .selfTest, .ports] := List.Subset.refl _
  refine ⟨_, rfl, ?_⟩
  repeat' (first
    | with_reducible exact hK
    | with_reducible assumption
    | with_reducible exact List.Subset.trans (by decide) hL
    | with_reducible refine when'_frame _ ?_ (fun _ _ => ?_)
    | with_reducible apply doneWork_frame
    | with_reducible apply recheckShard_frame
    | split
    | fail_if_no_progress with_reducible refine changesOnly_lit ?_ ?_ ?_ ?_ ?_ ?_ ?_ ?_ ?_ ?_ ?_ ?_ ?_ ?_ ?_ ?_ ?_ ?_ ?_ ?_ ?_ ?_ ?_ ?_ ?_ ?_ ?_ ?_ ?_ ?_
    | with_reducible exact .inl rfl
    | exact Or.inr (hL (by decide))
    | dsimp only)

theorem execHeartbeatSend_frame {s₁ : State} (t : TileId) :
    ∃ s₂, execHeartbeatSend t s₁ = .next s₂ ∧ changesOnly [.out, .links] s₁ s₂ := by
  have hK : changesOnly [.out, .links] s₁ s₁ := changesOnly_refl
  have hL : ([.out, .links] : List Block) ⊆ [.out, .links] := List.Subset.refl _
  refine ⟨_, rfl, ?_⟩
  repeat' (first
    | with_reducible exact hK
    | with_reducible assumption
    | with_reducible exact List.Subset.trans (by decide) hL
    | with_reducible refine when'_frame _ ?_ (fun _ _ => ?_)
    | with_reducible apply sendHeartbeat_frame
    | split
    | fail_if_no_progress with_reducible refine changesOnly_lit ?_ ?_ ?_ ?_ ?_ ?_ ?_ ?_ ?_ ?_ ?_ ?_ ?_ ?_ ?_ ?_ ?_ ?_ ?_ ?_ ?_ ?_ ?_ ?_ ?_ ?_ ?_ ?_ ?_ ?_
    | with_reducible exact .inl rfl
    | exact Or.inr (hL (by decide))
    | dsimp only)

theorem noteBeat_frame {L : List Block} {s₀ s₁ : State} (t : TileId) (r : Fin 5) (st : HbState) (hK : changesOnly L s₀ s₁)
    (hL : [.tiles, .links] ⊆ L) : changesOnly L s₀ (noteBeat t r st s₁) := by
  unfold noteBeat
  repeat' (first
    | with_reducible exact hK
    | with_reducible assumption
    | with_reducible exact List.Subset.trans (by decide) hL
    | with_reducible apply modTile_frame
    | with_reducible apply modLink_frame
    | split
    | fail_if_no_progress with_reducible refine changesOnly_lit ?_ ?_ ?_ ?_ ?_ ?_ ?_ ?_ ?_ ?_ ?_ ?_ ?_ ?_ ?_ ?_ ?_ ?_ ?_ ?_ ?_ ?_ ?_ ?_ ?_ ?_ ?_ ?_ ?_ ?_
    | with_reducible exact .inl rfl
    | exact Or.inr (hL (by decide))
    | dsimp only)

theorem execHeartbeatReceive_frame {s₁ : State} (h : HbPath) (st : HbState) :
    ∃ s₂, execHeartbeatReceive h st s₁ = .next s₂ ∧ changesOnly [.tiles, .links] s₁ s₂ := by
  have hK : changesOnly [.tiles, .links] s₁ s₁ := changesOnly_refl
  have hL : ([.tiles, .links] : List Block) ⊆ [.tiles, .links] := List.Subset.refl _
  refine ⟨_, rfl, ?_⟩
  repeat' (first
    | with_reducible exact hK
    | with_reducible assumption
    | with_reducible exact List.Subset.trans (by decide) hL
    | with_reducible refine when'_frame _ ?_ (fun _ _ => ?_)
    | with_reducible apply noteBeat_frame
    | split
    | fail_if_no_progress with_reducible refine changesOnly_lit ?_ ?_ ?_ ?_ ?_ ?_ ?_ ?_ ?_ ?_ ?_ ?_ ?_ ?_ ?_ ?_ ?_ ?_ ?_ ?_ ?_ ?_ ?_ ?_ ?_ ?_ ?_ ?_ ?_ ?_
    | with_reducible exact .inl rfl
    | exact Or.inr (hL (by decide))
    | dsimp only)

theorem silence_frame {L : List Block} {s₀ s₁ : State} (t : TileId) (r : Fin 5) (hK : changesOnly L s₀ s₁)
    (hL : [.out, .log, .host, .installed, .tiles, .links, .selfTest] ⊆ L) : changesOnly L s₀ (silence t r s₁) := by
  unfold silence
  repeat' (first
    | with_reducible exact hK
    | with_reducible assumption
    | with_reducible exact List.Subset.trans (by decide) hL
    | with_reducible apply modTile_frame
    | with_reducible apply report_frame
    | with_reducible apply faultTile_frame
    | with_reducible apply detect_frame
    | split
    | fail_if_no_progress with_reducible refine changesOnly_lit ?_ ?_ ?_ ?_ ?_ ?_ ?_ ?_ ?_ ?_ ?_ ?_ ?_ ?_ ?_ ?_ ?_ ?_ ?_ ?_ ?_ ?_ ?_ ?_ ?_ ?_ ?_ ?_ ?_ ?_
    | with_reducible exact .inl rfl
    | exact Or.inr (hL (by decide))
    | dsimp only)

theorem execTileSilent_frame {s₁ : State} (h : HbPath) :
    ∃ s₂, execTileSilent h s₁ = .next s₂ ∧ changesOnly [.out, .log, .host, .installed, .tiles, .links, .selfTest] s₁ s₂ := by
  have hK : changesOnly [.out, .log, .host, .installed, .tiles, .links, .selfTest] s₁ s₁ := changesOnly_refl
  have hL : ([.out, .log, .host, .installed, .tiles, .links, .selfTest] : List Block) ⊆ [.out, .log, .host, .installed, .tiles, .links, .selfTest] := List.Subset.refl _
  refine ⟨_, rfl, ?_⟩
  repeat' (first
    | with_reducible exact hK
    | with_reducible assumption
    | with_reducible exact List.Subset.trans (by decide) hL
    | with_reducible refine when'_frame _ ?_ (fun _ _ => ?_)
    | with_reducible apply silence_frame
    | split
    | fail_if_no_progress with_reducible refine changesOnly_lit ?_ ?_ ?_ ?_ ?_ ?_ ?_ ?_ ?_ ?_ ?_ ?_ ?_ ?_ ?_ ?_ ?_ ?_ ?_ ?_ ?_ ?_ ?_ ?_ ?_ ?_ ?_ ?_ ?_ ?_
    | with_reducible exact .inl rfl
    | exact Or.inr (hL (by decide))
    | dsimp only)

theorem crcError_frame {L : List Block} {s₀ s₁ : State} (l : LinkDir) (seq : BitVec 6) (hK : changesOnly L s₀ s₁)
    (hL : [.out, .links] ⊆ L) : changesOnly L s₀ (crcError l seq s₁) := by
  unfold crcError
  repeat' (first
    | with_reducible exact hK
    | with_reducible assumption
    | with_reducible exact List.Subset.trans (by decide) hL
    | with_reducible apply emit_frame
    | with_reducible apply modLink_frame
    | split
    | fail_if_no_progress with_reducible refine changesOnly_lit ?_ ?_ ?_ ?_ ?_ ?_ ?_ ?_ ?_ ?_ ?_ ?_ ?_ ?_ ?_ ?_ ?_ ?_ ?_ ?_ ?_ ?_ ?_ ?_ ?_ ?_ ?_ ?_ ?_ ?_
    | with_reducible exact .inl rfl
    | exact Or.inr (hL (by decide))
    | dsimp only)

theorem execMeshCrcError_frame {s₁ : State} (l : LinkDir) (wires : BitVec 578) :
    ∃ s₂, execMeshCrcError l wires s₁ = .next s₂ ∧ changesOnly [.out, .links] s₁ s₂ := by
  have hK : changesOnly [.out, .links] s₁ s₁ := changesOnly_refl
  have hL : ([.out, .links] : List Block) ⊆ [.out, .links] := List.Subset.refl _
  refine ⟨_, rfl, ?_⟩
  repeat' (first
    | with_reducible exact hK
    | with_reducible assumption
    | with_reducible exact List.Subset.trans (by decide) hL
    | with_reducible refine when'_frame _ ?_ (fun _ _ => ?_)
    | with_reducible apply crcError_frame
    | split
    | fail_if_no_progress with_reducible refine changesOnly_lit ?_ ?_ ?_ ?_ ?_ ?_ ?_ ?_ ?_ ?_ ?_ ?_ ?_ ?_ ?_ ?_ ?_ ?_ ?_ ?_ ?_ ?_ ?_ ?_ ?_ ?_ ?_ ?_ ?_ ?_
    | with_reducible exact .inl rfl
    | exact Or.inr (hL (by decide))
    | dsimp only)

theorem replayFlit_frame {L : List Block} {s₀ s₁ : State} (l : LinkDir) (seq : BitVec 6) (hK : changesOnly L s₀ s₁)
    (hL : [.out, .log, .host, .ctx, .loader, .installed, .tiles, .dies, .links, .signals, .defects, .selfTest, .mem, .coll] ⊆ L) : changesOnly L s₀ (replayFlit l seq s₁) := by
  unfold replayFlit
  repeat' (first
    | with_reducible exact hK
    | with_reducible assumption
    | with_reducible exact List.Subset.trans (by decide) hL
    | with_reducible refine foldl_frame ?_ (fun _ _ _ => ?_)
    | with_reducible refine foldl_fst_frame ?_ (fun _ _ _ => ?_)
    | with_reducible apply emit_frame
    | with_reducible apply report_frame
    | with_reducible apply modLink_frame
    | with_reducible apply detect_frame
    | with_reducible apply linkDown_frame
    | split
    | fail_if_no_progress with_reducible refine changesOnly_lit ?_ ?_ ?_ ?_ ?_ ?_ ?_ ?_ ?_ ?_ ?_ ?_ ?_ ?_ ?_ ?_ ?_ ?_ ?_ ?_ ?_ ?_ ?_ ?_ ?_ ?_ ?_ ?_ ?_ ?_
    | with_reducible exact .inl rfl
    | exact Or.inr (hL (by decide))
    | dsimp only)

theorem execMeshReplayReq_frame {s₁ : State} (l : LinkDir) (seq : BitVec 6) :
    ∃ s₂, execMeshReplayReq l seq s₁ = .next s₂ ∧ changesOnly [.out, .log, .host, .ctx, .loader, .installed, .tiles, .dies, .links, .signals, .defects, .selfTest, .mem, .coll] s₁ s₂ := by
  have hK : changesOnly [.out, .log, .host, .ctx, .loader, .installed, .tiles, .dies, .links, .signals, .defects, .selfTest, .mem, .coll] s₁ s₁ := changesOnly_refl
  have hL : ([.out, .log, .host, .ctx, .loader, .installed, .tiles, .dies, .links, .signals, .defects, .selfTest, .mem, .coll] : List Block) ⊆ [.out, .log, .host, .ctx, .loader, .installed, .tiles, .dies, .links, .signals, .defects, .selfTest, .mem, .coll] := List.Subset.refl _
  refine ⟨_, rfl, ?_⟩
  repeat' (first
    | with_reducible exact hK
    | with_reducible assumption
    | with_reducible exact List.Subset.trans (by decide) hL
    | with_reducible refine when'_frame _ ?_ (fun _ _ => ?_)
    | with_reducible apply replayFlit_frame)

end Sys2Proof.Machine
end

