-- ==== Sys2Proof/Laws/FrameEncode.lean ====
section
/-! SUPPORT. The frames of the operations and commands of Encode (Laws/Frame.lean). -/

namespace Sys2Proof.Machine

set_option linter.all false
set_option Elab.async false

open Sys2Proof

theorem dropBounced_frame {L : List Block} {s₀ s₁ : State} (i : Slot) (g : Nat) (hK : changesOnly L s₀ s₁)
    (hL : [.ctx] ⊆ L) : changesOnly L s₀ (dropBounced i g s₁) := by
  unfold dropBounced
  repeat' (first
    | with_reducible exact hK
    | with_reducible assumption
    | with_reducible exact List.Subset.trans (by decide) hL
    | with_reducible apply modCtx_frame
    | split
    | fail_if_no_progress with_reducible refine changesOnly_lit ?_ ?_ ?_ ?_ ?_ ?_ ?_ ?_ ?_ ?_ ?_ ?_ ?_ ?_ ?_ ?_ ?_ ?_ ?_ ?_ ?_ ?_ ?_ ?_ ?_ ?_ ?_ ?_ ?_ ?_
    | with_reducible exact .inl rfl
    | exact Or.inr (hL (by decide))
    | dsimp only)

theorem errStore_frame {L : List Block} {s₀ s₁ : State} (y : Site) (t : Tensor) (pos : Nat) (xs : List Num) (hK : changesOnly L s₀ s₁)
    (hL : [.mem] ⊆ L) : changesOnly L s₀ (errStore y t pos xs s₁) := by
  unfold errStore
  repeat' (first
    | with_reducible exact hK
    | with_reducible assumption
    | with_reducible exact List.Subset.trans (by decide) hL
    | with_reducible refine changesOnly_ite ?_ ?_
    | split
    | fail_if_no_progress with_reducible refine changesOnly_mem ?_ (List.Subset.trans (by decide) hL)
    | fail_if_no_progress with_reducible refine changesOnly_lit ?_ ?_ ?_ ?_ ?_ ?_ ?_ ?_ ?_ ?_ ?_ ?_ ?_ ?_ ?_ ?_ ?_ ?_ ?_ ?_ ?_ ?_ ?_ ?_ ?_ ?_ ?_ ?_ ?_ ?_
    | with_reducible exact .inl rfl
    | exact Or.inr (hL (by decide)))

theorem freePool_frame {L : List Block} {s₀ s₁ : State} (i : Slot) (t : Tensor) (g : Nat) (hK : changesOnly L s₀ s₁)
    (hL : [.ctx] ⊆ L) : changesOnly L s₀ (freePool i t g s₁) := by
  unfold freePool
  repeat' (first
    | with_reducible exact hK
    | with_reducible assumption
    | with_reducible exact List.Subset.trans (by decide) hL
    | with_reducible apply modCtx_frame)

theorem errClear_frame {L : List Block} {s₀ s₁ : State} (i : Slot) (y : Site) (b : WireBlock) (e : ErrMem) (hK : changesOnly L s₀ s₁)
    (hL : [.ctx, .mem] ⊆ L) : changesOnly L s₀ (errClear i y b e s₁) := by
  unfold errClear
  repeat' (first
    | with_reducible exact hK
    | with_reducible assumption
    | with_reducible exact List.Subset.trans (by decide) hL
    | with_reducible apply dropBounced_frame
    | with_reducible apply errStore_frame
    | with_reducible apply freePool_frame
    | split
    | fail_if_no_progress with_reducible refine changesOnly_lit ?_ ?_ ?_ ?_ ?_ ?_ ?_ ?_ ?_ ?_ ?_ ?_ ?_ ?_ ?_ ?_ ?_ ?_ ?_ ?_ ?_ ?_ ?_ ?_ ?_ ?_ ?_ ?_ ?_ ?_
    | with_reducible exact .inl rfl
    | exact Or.inr (hL (by decide))
    | dsimp only)

theorem dropFold_frame {L : List Block} {s₀ s₁ : State} (quiet : Bool) (i : Slot) (b : WireBlock) (hK : changesOnly L s₀ s₁)
    (hL : [.out, .log, .host] ⊆ L) : changesOnly L s₀ (dropFold quiet i b s₁) := by
  unfold dropFold
  repeat' (first
    | with_reducible exact hK
    | with_reducible assumption
    | with_reducible exact List.Subset.trans (by decide) hL
    | with_reducible apply report_frame
    | split
    | fail_if_no_progress with_reducible refine changesOnly_lit ?_ ?_ ?_ ?_ ?_ ?_ ?_ ?_ ?_ ?_ ?_ ?_ ?_ ?_ ?_ ?_ ?_ ?_ ?_ ?_ ?_ ?_ ?_ ?_ ?_ ?_ ?_ ?_ ?_ ?_
    | with_reducible exact .inl rfl
    | exact Or.inr (hL (by decide))
    | dsimp only)

theorem foldSlot_frame {L : List Block} {s₀ s₁ : State} (quiet : Bool) (i : Slot) (y : Site) (b : WireBlock) (t : Tensor) (xs : List Num) (hK : changesOnly L s₀ s₁)
    (hL : [.out, .log, .host, .ctx, .mem] ⊆ L) : changesOnly L s₀ (foldSlot quiet i y b t xs s₁) := by
  unfold foldSlot
  repeat' (first
    | with_reducible exact hK
    | with_reducible assumption
    | with_reducible exact List.Subset.trans (by decide) hL
    | with_reducible apply modCtx_frame
    | with_reducible apply errStore_frame
    | with_reducible apply dropFold_frame
    | split
    | fail_if_no_progress with_reducible refine changesOnly_lit ?_ ?_ ?_ ?_ ?_ ?_ ?_ ?_ ?_ ?_ ?_ ?_ ?_ ?_ ?_ ?_ ?_ ?_ ?_ ?_ ?_ ?_ ?_ ?_ ?_ ?_ ?_ ?_ ?_ ?_
    | with_reducible exact .inl rfl
    | exact Or.inr (hL (by decide))
    | dsimp only)

theorem foldBlock_frame {L : List Block} {s₀ s₁ : State} (quiet : Bool) (i : Slot) (y : Site) (b : WireBlock) (e : ErrMem) (xs : List Num) (hK : changesOnly L s₀ s₁)
    (hL : [.out, .log, .host, .ctx, .mem] ⊆ L) : changesOnly L s₀ (foldBlock quiet i y b e xs s₁) := by
  unfold foldBlock
  repeat' (first
    | with_reducible exact hK
    | with_reducible assumption
    | with_reducible exact List.Subset.trans (by decide) hL
    | with_reducible apply dropBounced_frame
    | with_reducible apply errStore_frame
    | with_reducible apply dropFold_frame
    | with_reducible apply foldSlot_frame
    | split
    | fail_if_no_progress with_reducible refine changesOnly_lit ?_ ?_ ?_ ?_ ?_ ?_ ?_ ?_ ?_ ?_ ?_ ?_ ?_ ?_ ?_ ?_ ?_ ?_ ?_ ?_ ?_ ?_ ?_ ?_ ?_ ?_ ?_ ?_ ?_ ?_
    | with_reducible exact .inl rfl
    | exact Or.inr (hL (by decide))
    | dsimp only)

theorem addFold_frame {L : List Block} {s₀ s₁ : State} (i : Slot) (y : Site) (b : WireBlock) (e : ErrMem) (xs : List Num) (hK : changesOnly L s₀ s₁)
    (hL : [.out, .log, .host, .ctx, .mem] ⊆ L) : changesOnly L s₀ (addFold i y b e xs s₁) := by
  unfold addFold
  repeat' (first
    | with_reducible exact hK
    | with_reducible assumption
    | with_reducible exact List.Subset.trans (by decide) hL
    | with_reducible apply modCtx_frame
    | with_reducible apply dropFold_frame
    | with_reducible apply foldSlot_frame
    | split
    | fail_if_no_progress with_reducible refine changesOnly_lit ?_ ?_ ?_ ?_ ?_ ?_ ?_ ?_ ?_ ?_ ?_ ?_ ?_ ?_ ?_ ?_ ?_ ?_ ?_ ?_ ?_ ?_ ?_ ?_ ?_ ?_ ?_ ?_ ?_ ?_
    | with_reducible exact .inl rfl
    | exact Or.inr (hL (by decide))
    | dsimp only)

theorem settleErr_frame {L : List Block} {s₀ s₁ : State} (i : Slot) (y : Site) (b : WireBlock) (e : ErrMem) (x : Encoded) (hK : changesOnly L s₀ s₁)
    (hL : [.out, .log, .host, .ctx, .mem] ⊆ L) : changesOnly L s₀ (settleErr i y b e x s₁) := by
  unfold settleErr
  repeat' (first
    | with_reducible exact hK
    | with_reducible assumption
    | with_reducible exact List.Subset.trans (by decide) hL
    | with_reducible apply dropBounced_frame
    | with_reducible apply errStore_frame
    | with_reducible apply freePool_frame
    | with_reducible apply errClear_frame
    | with_reducible apply foldBlock_frame
    | split
    | fail_if_no_progress with_reducible refine changesOnly_lit ?_ ?_ ?_ ?_ ?_ ?_ ?_ ?_ ?_ ?_ ?_ ?_ ?_ ?_ ?_ ?_ ?_ ?_ ?_ ?_ ?_ ?_ ?_ ?_ ?_ ?_ ?_ ?_ ?_ ?_
    | with_reducible exact .inl rfl
    | exact Or.inr (hL (by decide))
    | dsimp only)

end Sys2Proof.Machine
end

