-- ==== Sys2Proof/Laws/FrameReduce.lean ====
section
/-! SUPPORT. The frames of the operations and commands of Reduce (Laws/Frame.lean). -/

namespace Sys2Proof.Machine

set_option linter.all false
set_option Elab.async false

open Sys2Proof

theorem modRed_frame {L : List Block} {s₀ s₁ : State} (desc : Nat) (f : Reduction → Reduction) (hK : changesOnly L s₀ s₁)
    (hL : [.coll] ⊆ L) : changesOnly L s₀ (modRed desc f s₁) := by
  unfold modRed
  repeat' (first
    | with_reducible exact hK
    | with_reducible assumption
    | with_reducible exact List.Subset.trans (by decide) hL
    | with_reducible refine changesOnly_ite ?_ ?_
    | split
    | fail_if_no_progress with_reducible refine changesOnly_coll ?_ (List.Subset.trans (by decide) hL)
    | fail_if_no_progress with_reducible refine changesOnly_lit ?_ ?_ ?_ ?_ ?_ ?_ ?_ ?_ ?_ ?_ ?_ ?_ ?_ ?_ ?_ ?_ ?_ ?_ ?_ ?_ ?_ ?_ ?_ ?_ ?_ ?_ ?_ ?_ ?_ ?_
    | with_reducible exact .inl rfl
    | exact Or.inr (hL (by decide)))

theorem collEvent_frame {L : List Block} {s₀ s₁ : State} (code : Code) (desc seq : Nat) (loc : BitVec 32) (hK : changesOnly L s₀ s₁)
    (hL : [.out, .log, .host] ⊆ L) : changesOnly L s₀ (collEvent code desc seq loc s₁) := by
  unfold collEvent
  repeat' (first
    | with_reducible exact hK
    | with_reducible assumption
    | with_reducible exact List.Subset.trans (by decide) hL
    | with_reducible apply report_frame)

theorem discardColl_frame {L : List Block} {s₀ s₁ : State} (desc : Nat) (hK : changesOnly L s₀ s₁)
    (hL : [.out, .log, .host, .coll] ⊆ L) : changesOnly L s₀ (discardColl desc s₁) := by
  unfold discardColl
  repeat' (first
    | with_reducible exact hK
    | with_reducible assumption
    | with_reducible exact List.Subset.trans (by decide) hL
    | with_reducible apply report_frame
    | with_reducible refine changesOnly_ite ?_ ?_
    | split
    | fail_if_no_progress with_reducible refine changesOnly_out ?_ (List.Subset.trans (by decide) hL)
    | fail_if_no_progress with_reducible refine changesOnly_log ?_ (List.Subset.trans (by decide) hL)
    | fail_if_no_progress with_reducible refine changesOnly_host ?_ (List.Subset.trans (by decide) hL)
    | fail_if_no_progress with_reducible refine changesOnly_coll ?_ (List.Subset.trans (by decide) hL)
    | fail_if_no_progress with_reducible refine changesOnly_lit ?_ ?_ ?_ ?_ ?_ ?_ ?_ ?_ ?_ ?_ ?_ ?_ ?_ ?_ ?_ ?_ ?_ ?_ ?_ ?_ ?_ ?_ ?_ ?_ ?_ ?_ ?_ ?_ ?_ ?_
    | with_reducible exact .inl rfl
    | exact Or.inr (hL (by decide)))

theorem abortRed_frame {L : List Block} {s₀ s₁ : State} (desc : Nat) (code : Code) (hK : changesOnly L s₀ s₁)
    (hL : [.out, .coll] ⊆ L) : changesOnly L s₀ (abortRed desc code s₁) := by
  unfold abortRed
  repeat' (first
    | with_reducible exact hK
    | with_reducible assumption
    | with_reducible exact List.Subset.trans (by decide) hL
    | with_reducible apply sendSymbol_frame
    | with_reducible apply modRed_frame
    | split
    | fail_if_no_progress with_reducible refine changesOnly_lit ?_ ?_ ?_ ?_ ?_ ?_ ?_ ?_ ?_ ?_ ?_ ?_ ?_ ?_ ?_ ?_ ?_ ?_ ?_ ?_ ?_ ?_ ?_ ?_ ?_ ?_ ?_ ?_ ?_ ?_
    | with_reducible exact .inl rfl
    | exact Or.inr (hL (by decide))
    | dsimp only)

theorem setAnswer_frame {L : List Block} {s₀ s₁ : State} (desc p : Nat) (a : PlaneAnswer) (try' : Nat) (hK : changesOnly L s₀ s₁)
    (hL : [.coll] ⊆ L) : changesOnly L s₀ (setAnswer desc p a try' s₁) := by
  unfold setAnswer
  repeat' (first
    | with_reducible exact hK
    | with_reducible assumption
    | with_reducible exact List.Subset.trans (by decide) hL
    | with_reducible apply modRed_frame)

theorem sendOpen_frame {L : List Block} {s₀ s₁ : State} (desc p try' : Nat) (hK : changesOnly L s₀ s₁)
    (hL : [.out, .ports] ⊆ L) : changesOnly L s₀ (sendOpen desc p try' s₁) := by
  unfold sendOpen
  repeat' (first
    | with_reducible exact hK
    | with_reducible assumption
    | with_reducible exact List.Subset.trans (by decide) hL
    | with_reducible apply sendMsg_frame
    | with_reducible refine changesOnly_ite ?_ ?_
    | split)

theorem routeSignal_frame {L : List Block} {s₀ s₁ : State} (route ctr layer : Nat) (hK : changesOnly L s₀ s₁)
    (hL : [.signals] ⊆ L) : changesOnly L s₀ (routeSignal route ctr layer s₁) := by
  unfold routeSignal
  repeat' (first
    | with_reducible exact hK
    | with_reducible assumption
    | with_reducible exact List.Subset.trans (by decide) hL
    | with_reducible refine changesOnly_ite ?_ ?_
    | split
    | fail_if_no_progress with_reducible refine changesOnly_signals ?_ (List.Subset.trans (by decide) hL)
    | fail_if_no_progress with_reducible refine changesOnly_lit ?_ ?_ ?_ ?_ ?_ ?_ ?_ ?_ ?_ ?_ ?_ ?_ ?_ ?_ ?_ ?_ ?_ ?_ ?_ ?_ ?_ ?_ ?_ ?_ ?_ ?_ ?_ ?_ ?_ ?_
    | with_reducible exact .inl rfl
    | exact Or.inr (hL (by decide)))

theorem signalOnce_frame {L : List Block} {s₀ s₁ : State} (desc : Nat) (hK : changesOnly L s₀ s₁)
    (hL : [.signals, .coll] ⊆ L) : changesOnly L s₀ (signalOnce desc s₁) := by
  unfold signalOnce
  repeat' (first
    | with_reducible exact hK
    | with_reducible assumption
    | with_reducible exact List.Subset.trans (by decide) hL
    | with_reducible apply modRed_frame
    | with_reducible apply routeSignal_frame
    | with_reducible refine changesOnly_ite ?_ ?_
    | split
    | fail_if_no_progress with_reducible refine changesOnly_signals ?_ (List.Subset.trans (by decide) hL)
    | fail_if_no_progress with_reducible refine changesOnly_coll ?_ (List.Subset.trans (by decide) hL)
    | fail_if_no_progress with_reducible refine changesOnly_lit ?_ ?_ ?_ ?_ ?_ ?_ ?_ ?_ ?_ ?_ ?_ ?_ ?_ ?_ ?_ ?_ ?_ ?_ ?_ ?_ ?_ ?_ ?_ ?_ ?_ ?_ ?_ ?_ ?_ ?_
    | with_reducible exact .inl rfl)

theorem sendSignals_frame {L : List Block} {s₀ s₁ : State} (desc : Nat) (hK : changesOnly L s₀ s₁)
    (hL : [.signals, .coll] ⊆ L) : changesOnly L s₀ (sendSignals desc s₁) := by
  unfold sendSignals
  repeat' (first
    | with_reducible exact hK
    | with_reducible assumption
    | with_reducible exact List.Subset.trans (by decide) hL
    | with_reducible refine foldl_frame ?_ (fun _ _ _ => ?_)
    | with_reducible refine foldl_fst_frame ?_ (fun _ _ _ => ?_)
    | with_reducible apply signalOnce_frame
    | with_reducible refine changesOnly_ite ?_ ?_
    | split)

theorem flushPatches_frame {L : List Block} {s₀ s₁ : State} (i : Slot) (desc : Nat) (hK : changesOnly L s₀ s₁)
    (hL : [.out, .ctx, .ports, .coll] ⊆ L) : changesOnly L s₀ (flushPatches i desc s₁) := by
  unfold flushPatches
  repeat' (first
    | with_reducible exact hK
    | with_reducible assumption
    | with_reducible exact List.Subset.trans (by decide) hL
    | with_reducible refine foldl_frame ?_ (fun _ _ _ => ?_)
    | with_reducible refine foldl_fst_frame ?_ (fun _ _ _ => ?_)
    | with_reducible apply sendPatch_frame
    | with_reducible apply modRed_frame
    | with_reducible refine changesOnly_ite ?_ ?_
    | split)

theorem noticeRun_frame {L : List Block} {s₀ s₁ : State} (i : Slot) (desc run : Nat) (hK : changesOnly L s₀ s₁)
    (hL : [.out, .ctx, .mem, .ports, .coll] ⊆ L) : changesOnly L s₀ (noticeRun i desc run s₁) := by
  unfold noticeRun
  repeat' (first
    | with_reducible exact hK
    | with_reducible assumption
    | with_reducible exact List.Subset.trans (by decide) hL
    | with_reducible apply sendMsg_frame
    | with_reducible apply modRed_frame
    | with_reducible apply flushPatches_frame
    | with_reducible refine changesOnly_ite ?_ ?_
    | split
    | fail_if_no_progress with_reducible refine changesOnly_out ?_ (List.Subset.trans (by decide) hL)
    | fail_if_no_progress with_reducible refine changesOnly_ctx ?_ (List.Subset.trans (by decide) hL)
    | fail_if_no_progress with_reducible refine changesOnly_mem ?_ (List.Subset.trans (by decide) hL)
    | fail_if_no_progress with_reducible refine changesOnly_ports ?_ (List.Subset.trans (by decide) hL)
    | fail_if_no_progress with_reducible refine changesOnly_coll ?_ (List.Subset.trans (by decide) hL)
    | fail_if_no_progress with_reducible refine changesOnly_lit ?_ ?_ ?_ ?_ ?_ ?_ ?_ ?_ ?_ ?_ ?_ ?_ ?_ ?_ ?_ ?_ ?_ ?_ ?_ ?_ ?_ ?_ ?_ ?_ ?_ ?_ ?_ ?_ ?_ ?_
    | with_reducible exact .inl rfl
    | exact Or.inr (hL (by decide)))

theorem noticeAll_frame {L : List Block} {s₀ s₁ : State} (i : Slot) (desc : Nat) (hK : changesOnly L s₀ s₁)
    (hL : [.out, .ctx, .mem, .ports, .coll] ⊆ L) : changesOnly L s₀ (noticeAll i desc s₁) := by
  unfold noticeAll
  repeat' (first
    | with_reducible exact hK
    | with_reducible assumption
    | with_reducible exact List.Subset.trans (by decide) hL
    | with_reducible refine foldl_frame ?_ (fun _ _ _ => ?_)
    | with_reducible refine foldl_fst_frame ?_ (fun _ _ _ => ?_)
    | with_reducible apply noticeRun_frame
    | split
    | fail_if_no_progress with_reducible refine changesOnly_lit ?_ ?_ ?_ ?_ ?_ ?_ ?_ ?_ ?_ ?_ ?_ ?_ ?_ ?_ ?_ ?_ ?_ ?_ ?_ ?_ ?_ ?_ ?_ ?_ ?_ ?_ ?_ ?_ ?_ ?_
    | with_reducible exact .inl rfl
    | exact Or.inr (hL (by decide))
    | dsimp only)

theorem takeNotice_frame {L : List Block} {s₀ s₁ : State} (n : ScaleNotice) (hK : changesOnly L s₀ s₁)
    (hL : [.mem] ⊆ L) : changesOnly L s₀ (takeNotice n s₁) := by
  unfold takeNotice
  repeat' (first
    | with_reducible exact hK
    | with_reducible assumption
    | with_reducible exact List.Subset.trans (by decide) hL
    | with_reducible refine changesOnly_ite ?_ ?_
    | split
    | fail_if_no_progress with_reducible refine changesOnly_mem ?_ (List.Subset.trans (by decide) hL)
    | fail_if_no_progress with_reducible refine changesOnly_lit ?_ ?_ ?_ ?_ ?_ ?_ ?_ ?_ ?_ ?_ ?_ ?_ ?_ ?_ ?_ ?_ ?_ ?_ ?_ ?_ ?_ ?_ ?_ ?_ ?_ ?_ ?_ ?_ ?_ ?_
    | with_reducible exact .inl rfl
    | exact Or.inr (hL (by decide)))

theorem execScaleNotice_frame {s₁ : State} (p : PortId) (n : ScaleNotice) :
    ∃ s₂, execScaleNotice p n s₁ = .next s₂ ∧ changesOnly [.mem] s₁ s₂ := by
  have hK : changesOnly [.mem] s₁ s₁ := changesOnly_refl
  have hL : ([.mem] : List Block) ⊆ [.mem] := List.Subset.refl _
  refine ⟨_, rfl, ?_⟩
  repeat' (first
    | with_reducible exact hK
    | with_reducible assumption
    | with_reducible exact List.Subset.trans (by decide) hL
    | with_reducible refine when'_frame _ ?_ (fun _ _ => ?_)
    | with_reducible apply takeNotice_frame)

theorem recordMask_frame {L : List Block} {s₀ s₁ : State} (i : Slot) (r : Reduction) (o : OwnedBlock) (mask : BitVec 2048) (hK : changesOnly L s₀ s₁)
    (hL : [.mem, .coll] ⊆ L) : changesOnly L s₀ (recordMask i r o mask s₁) := by
  unfold recordMask
  repeat' (first
    | with_reducible exact hK
    | with_reducible assumption
    | with_reducible exact List.Subset.trans (by decide) hL
    | with_reducible apply storeBytes_frame
    | with_reducible apply modRed_frame
    | with_reducible refine changesOnly_ite ?_ ?_
    | split)

theorem dropKept_frame {L : List Block} {s₀ s₁ : State} (step : BitVec 32) (g : Nat) (hK : changesOnly L s₀ s₁)
    (hL : [.coll] ⊆ L) : changesOnly L s₀ (dropKept step g s₁) := by
  unfold dropKept
  repeat' (first
    | with_reducible exact hK
    | with_reducible assumption
    | with_reducible exact List.Subset.trans (by decide) hL
    | split
    | fail_if_no_progress with_reducible refine changesOnly_lit ?_ ?_ ?_ ?_ ?_ ?_ ?_ ?_ ?_ ?_ ?_ ?_ ?_ ?_ ?_ ?_ ?_ ?_ ?_ ?_ ?_ ?_ ?_ ?_ ?_ ?_ ?_ ?_ ?_ ?_
    | with_reducible exact .inl rfl
    | exact Or.inr (hL (by decide))
    | dsimp only)

theorem modOwned_frame {L : List Block} {s₀ s₁ : State} (desc g : Nat) (f : OwnedBlock → OwnedBlock) (hK : changesOnly L s₀ s₁)
    (hL : [.coll] ⊆ L) : changesOnly L s₀ (modOwned desc g f s₁) := by
  unfold modOwned
  repeat' (first
    | with_reducible exact hK
    | with_reducible assumption
    | with_reducible exact List.Subset.trans (by decide) hL
    | with_reducible apply modRed_frame)

theorem settleBlock_frame {L : List Block} {s₀ s₁ : State} (i : Slot) (desc g : Nat) (x : Option ResultMsg) (hK : changesOnly L s₀ s₁)
    (hL : [.out, .ctx, .signals, .mem, .ports, .coll] ⊆ L) : changesOnly L s₀ (settleBlock i desc g x s₁) := by
  unfold settleBlock
  repeat' (first
    | with_reducible exact hK
    | with_reducible assumption
    | with_reducible exact List.Subset.trans (by decide) hL
    | with_reducible apply sendSignals_frame
    | with_reducible apply noticeRun_frame
    | with_reducible apply recordMask_frame
    | with_reducible apply modOwned_frame
    | with_reducible refine changesOnly_ite ?_ ?_
    | split)

theorem blockEvent_frame {L : List Block} {s₀ s₁ : State} (code : Code) (g member : Nat) (hK : changesOnly L s₀ s₁)
    (hL : [.out, .log, .host] ⊆ L) : changesOnly L s₀ (blockEvent code g member s₁) := by
  unfold blockEvent
  repeat' (first
    | with_reducible exact hK
    | with_reducible assumption
    | with_reducible exact List.Subset.trans (by decide) hL
    | with_reducible apply report_frame)

theorem ackResult_frame {L : List Block} {s₀ s₁ : State} (r : Reduction) (g : Nat) (src : BitVec 32) (hK : changesOnly L s₀ s₁)
    (hL : [.out, .ports, .coll] ⊆ L) : changesOnly L s₀ (ackResult r g src s₁) := by
  unfold ackResult
  repeat' (first
    | with_reducible exact hK
    | with_reducible assumption
    | with_reducible exact List.Subset.trans (by decide) hL
    | with_reducible apply sendMsg_frame
    | with_reducible apply dropKept_frame
    | split
    | fail_if_no_progress with_reducible refine changesOnly_lit ?_ ?_ ?_ ?_ ?_ ?_ ?_ ?_ ?_ ?_ ?_ ?_ ?_ ?_ ?_ ?_ ?_ ?_ ?_ ?_ ?_ ?_ ?_ ?_ ?_ ?_ ?_ ?_ ?_ ?_
    | with_reducible exact .inl rfl
    | exact Or.inr (hL (by decide))
    | dsimp only)

theorem storeResult_frame {L : List Block} {s₀ s₁ : State} (i : Slot) (o : OwnedBlock) (x : ResultMsg)
    (hK : changesOnly L s₀ s₁) (hL : [.mem] ⊆ L) : changesOnly L s₀ (storeResult i o x s₁) := by
  unfold storeResult
  split
  · split
    · exact changesOnly_trans hK ⟨rfl, fun b hb => by cases b <;> first | exact absurd (hL (by decide)) hb | rfl⟩
    · exact hK
  · exact hK

theorem acceptResult_frame {L : List Block} {s₀ s₁ : State} (i : Slot) (r : Reduction) (o : OwnedBlock) (x : ResultMsg) (src : BitVec 32) (hK : changesOnly L s₀ s₁)
    (hL : [.out, .log, .host, .ctx, .signals, .mem, .ports, .coll] ⊆ L) : changesOnly L s₀ (acceptResult i r o x src s₁) := by
  unfold acceptResult
  repeat' (first
    | with_reducible exact hK
    | with_reducible assumption
    | with_reducible exact List.Subset.trans (by decide) hL
    | with_reducible refine foldl_frame ?_ (fun _ _ _ => ?_)
    | with_reducible refine foldl_fst_frame ?_ (fun _ _ _ => ?_)
    | with_reducible apply abortRed_frame
    | with_reducible apply settleBlock_frame
    | with_reducible apply blockEvent_frame
    | with_reducible apply ackResult_frame
    | with_reducible apply storeResult_frame
    | split
    | fail_if_no_progress with_reducible refine changesOnly_lit ?_ ?_ ?_ ?_ ?_ ?_ ?_ ?_ ?_ ?_ ?_ ?_ ?_ ?_ ?_ ?_ ?_ ?_ ?_ ?_ ?_ ?_ ?_ ?_ ?_ ?_ ?_ ?_ ?_ ?_
    | with_reducible exact .inl rfl
    | exact Or.inr (hL (by decide))
    | dsimp only)

theorem askResult_frame {L : List Block} {s₀ s₁ : State} (i : Slot) (r : Reduction) (o : OwnedBlock) (hK : changesOnly L s₀ s₁)
    (hL : [.out, .log, .host, .ctx, .signals, .mem, .ports, .coll] ⊆ L) : changesOnly L s₀ (askResult i r o s₁) := by
  unfold askResult
  repeat' (first
    | with_reducible exact hK
    | with_reducible assumption
    | with_reducible exact List.Subset.trans (by decide) hL
    | with_reducible apply sendMsg_frame
    | with_reducible apply abortRed_frame
    | with_reducible apply modOwned_frame
    | with_reducible apply settleBlock_frame
    | with_reducible apply blockEvent_frame
    | with_reducible refine changesOnly_ite ?_ ?_
    | split)

theorem takeResult_frame {L : List Block} {s₀ s₁ : State} (i : Slot) (r : Reduction) (x : ResultMsg) (src : BitVec 32) (hK : changesOnly L s₀ s₁)
    (hL : [.out, .log, .host, .ctx, .signals, .mem, .ports, .coll] ⊆ L) : changesOnly L s₀ (takeResult i r x src s₁) := by
  unfold takeResult
  repeat' (first
    | with_reducible exact hK
    | with_reducible assumption
    | with_reducible exact List.Subset.trans (by decide) hL
    | with_reducible apply collEvent_frame
    | with_reducible apply abortRed_frame
    | with_reducible apply modOwned_frame
    | with_reducible apply blockEvent_frame
    | with_reducible apply ackResult_frame
    | with_reducible apply acceptResult_frame
    | with_reducible apply askResult_frame
    | split
    | fail_if_no_progress with_reducible refine changesOnly_lit ?_ ?_ ?_ ?_ ?_ ?_ ?_ ?_ ?_ ?_ ?_ ?_ ?_ ?_ ?_ ?_ ?_ ?_ ?_ ?_ ?_ ?_ ?_ ?_ ?_ ?_ ?_ ?_ ?_ ?_
    | with_reducible exact .inl rfl
    | exact Or.inr (hL (by decide))
    | dsimp only)

theorem execResult_frame {s₁ : State} (p : PortId) (x : SentResult) :
    ∃ s₂, execResult p x s₁ = .next s₂ ∧ changesOnly [.out, .log, .host, .ctx, .signals, .mem, .ports, .coll] s₁ s₂ := by
  have hK : changesOnly [.out, .log, .host, .ctx, .signals, .mem, .ports, .coll] s₁ s₁ := changesOnly_refl
  have hL : ([.out, .log, .host, .ctx, .signals, .mem, .ports, .coll] : List Block) ⊆ [.out, .log, .host, .ctx, .signals, .mem, .ports, .coll] := List.Subset.refl _
  refine ⟨_, rfl, ?_⟩
  repeat' (first
    | with_reducible exact hK
    | with_reducible assumption
    | with_reducible exact List.Subset.trans (by decide) hL
    | with_reducible apply takeResult_frame
    | split
    | fail_if_no_progress with_reducible refine changesOnly_lit ?_ ?_ ?_ ?_ ?_ ?_ ?_ ?_ ?_ ?_ ?_ ?_ ?_ ?_ ?_ ?_ ?_ ?_ ?_ ?_ ?_ ?_ ?_ ?_ ?_ ?_ ?_ ?_ ?_ ?_
    | with_reducible exact .inl rfl
    | exact Or.inr (hL (by decide))
    | dsimp only)

theorem execNoBlock_frame {s₁ : State} (p : PortId) (b : BlockRef) :
    ∃ s₂, execNoBlock p b s₁ = .next s₂ ∧ changesOnly [.out, .log, .host, .ctx, .signals, .mem, .ports, .coll] s₁ s₂ := by
  have hK : changesOnly [.out, .log, .host, .ctx, .signals, .mem, .ports, .coll] s₁ s₁ := changesOnly_refl
  have hL : ([.out, .log, .host, .ctx, .signals, .mem, .ports, .coll] : List Block) ⊆ [.out, .log, .host, .ctx, .signals, .mem, .ports, .coll] := List.Subset.refl _
  refine ⟨_, rfl, ?_⟩
  repeat' (first
    | with_reducible exact hK
    | with_reducible assumption
    | with_reducible exact List.Subset.trans (by decide) hL
    | with_reducible apply askResult_frame
    | with_reducible refine changesOnly_ite ?_ ?_
    | split)

theorem execResultTimeout_frame {s₁ : State} (g : Nat) :
    ∃ s₂, execResultTimeout g s₁ = .next s₂ ∧ changesOnly [.out, .log, .host, .ctx, .signals, .mem, .ports, .coll] s₁ s₂ := by
  have hK : changesOnly [.out, .log, .host, .ctx, .signals, .mem, .ports, .coll] s₁ s₁ := changesOnly_refl
  have hL : ([.out, .log, .host, .ctx, .signals, .mem, .ports, .coll] : List Block) ⊆ [.out, .log, .host, .ctx, .signals, .mem, .ports, .coll] := List.Subset.refl _
  refine ⟨_, rfl, ?_⟩
  repeat' (first
    | with_reducible exact hK
    | with_reducible assumption
    | with_reducible exact List.Subset.trans (by decide) hL
    | with_reducible apply askResult_frame
    | with_reducible refine changesOnly_ite ?_ ?_
    | split)

theorem takeKept_frame {L : List Block} {s₀ s₁ : State} (i : Slot) (desc g : Nat) (hK : changesOnly L s₀ s₁)
    (hL : [.out, .log, .host, .ctx, .signals, .mem, .ports, .coll] ⊆ L) : changesOnly L s₀ (takeKept i desc g s₁) := by
  unfold takeKept
  repeat' (first
    | with_reducible exact hK
    | with_reducible assumption
    | with_reducible exact List.Subset.trans (by decide) hL
    | with_reducible apply takeResult_frame
    | split
    | fail_if_no_progress with_reducible refine changesOnly_lit ?_ ?_ ?_ ?_ ?_ ?_ ?_ ?_ ?_ ?_ ?_ ?_ ?_ ?_ ?_ ?_ ?_ ?_ ?_ ?_ ?_ ?_ ?_ ?_ ?_ ?_ ?_ ?_ ?_ ?_
    | with_reducible exact .inl rfl
    | exact Or.inr (hL (by decide))
    | dsimp only)

theorem finishRing_frame {L : List Block} {s₀ s₁ : State} (i : Slot) (desc : Nat) (x : ResultMsg) (hK : changesOnly L s₀ s₁)
    (hL : [.out, .log, .host, .ctx, .signals, .mem, .ports, .coll] ⊆ L) : changesOnly L s₀ (finishRing i desc x s₁) := by
  unfold finishRing
  repeat' (first
    | with_reducible exact hK
    | with_reducible assumption
    | with_reducible exact List.Subset.trans (by decide) hL
    | with_reducible apply sendMsg_frame
    | with_reducible apply dropKept_frame
    | with_reducible apply takeKept_frame
    | split
    | fail_if_no_progress with_reducible refine changesOnly_lit ?_ ?_ ?_ ?_ ?_ ?_ ?_ ?_ ?_ ?_ ?_ ?_ ?_ ?_ ?_ ?_ ?_ ?_ ?_ ?_ ?_ ?_ ?_ ?_ ?_ ?_ ?_ ?_ ?_ ?_
    | with_reducible exact .inl rfl
    | exact Or.inr (hL (by decide))
    | dsimp only)

theorem sendHop_frame {L : List Block} {s₀ s₁ : State} (i : Slot) (desc : Nat) (pos : Nat) (x : ResultMsg) (hK : changesOnly L s₀ s₁)
    (hL : [.out, .log, .host, .ctx, .signals, .mem, .ports, .coll] ⊆ L) : changesOnly L s₀ (sendHop i desc pos x s₁) := by
  unfold sendHop
  repeat' (first
    | with_reducible exact hK
    | with_reducible assumption
    | with_reducible exact List.Subset.trans (by decide) hL
    | with_reducible apply sendMsg_frame
    | with_reducible apply modRed_frame
    | with_reducible apply finishRing_frame
    | with_reducible refine changesOnly_ite ?_ ?_
    | split
    | fail_if_no_progress with_reducible refine changesOnly_out ?_ (List.Subset.trans (by decide) hL)
    | fail_if_no_progress with_reducible refine changesOnly_log ?_ (List.Subset.trans (by decide) hL)
    | fail_if_no_progress with_reducible refine changesOnly_host ?_ (List.Subset.trans (by decide) hL)
    | fail_if_no_progress with_reducible refine changesOnly_ctx ?_ (List.Subset.trans (by decide) hL)
    | fail_if_no_progress with_reducible refine changesOnly_signals ?_ (List.Subset.trans (by decide) hL)
    | fail_if_no_progress with_reducible refine changesOnly_mem ?_ (List.Subset.trans (by decide) hL)
    | fail_if_no_progress with_reducible refine changesOnly_ports ?_ (List.Subset.trans (by decide) hL)
    | fail_if_no_progress with_reducible refine changesOnly_coll ?_ (List.Subset.trans (by decide) hL)
    | fail_if_no_progress with_reducible refine changesOnly_lit ?_ ?_ ?_ ?_ ?_ ?_ ?_ ?_ ?_ ?_ ?_ ?_ ?_ ?_ ?_ ?_ ?_ ?_ ?_ ?_ ?_ ?_ ?_ ?_ ?_ ?_ ?_ ?_ ?_ ?_
    | with_reducible exact .inl rfl)

theorem forwardOn_frame {L : List Block} {s₀ s₁ : State} (i : Slot) (desc : Nat) (x : ResultMsg) (hK : changesOnly L s₀ s₁)
    (hL : [.out, .log, .host, .ctx, .signals, .mem, .ports, .coll] ⊆ L) : changesOnly L s₀ (forwardOn i desc x s₁) := by
  unfold forwardOn
  repeat' (first
    | with_reducible exact hK
    | with_reducible assumption
    | with_reducible exact List.Subset.trans (by decide) hL
    | with_reducible apply sendHop_frame)

theorem countedFold_frame {L : List Block} {s₀ s₁ : State} (code : Nat) (i : Slot) (y : Site) (b : WireBlock) (c : Contribution) (hK : changesOnly L s₀ s₁)
    (hL : [.out, .log, .host, .ctx, .mem, .coll] ⊆ L) : changesOnly L s₀ (countedFold code i y b c s₁) := by
  unfold countedFold
  repeat' (first
    | with_reducible exact hK
    | with_reducible assumption
    | with_reducible exact List.Subset.trans (by decide) hL
    | with_reducible apply countBlock_frame
    | with_reducible apply addFold_frame
    | split
    | fail_if_no_progress with_reducible refine changesOnly_lit ?_ ?_ ?_ ?_ ?_ ?_ ?_ ?_ ?_ ?_ ?_ ?_ ?_ ?_ ?_ ?_ ?_ ?_ ?_ ?_ ?_ ?_ ?_ ?_ ?_ ?_ ?_ ?_ ?_ ?_
    | with_reducible exact .inl rfl
    | exact Or.inr (hL (by decide))
    | dsimp only)

theorem foldRing_frame {L : List Block} {s₀ s₁ : State} (i : Slot) (c : Contribution) (hK : changesOnly L s₀ s₁)
    (hL : [.out, .log, .host, .ctx, .mem, .coll] ⊆ L) : changesOnly L s₀ (foldRing i c s₁) := by
  unfold foldRing
  repeat' (first
    | with_reducible exact hK
    | with_reducible assumption
    | with_reducible exact List.Subset.trans (by decide) hL
    | with_reducible apply countedFold_frame
    | split
    | fail_if_no_progress with_reducible refine changesOnly_lit ?_ ?_ ?_ ?_ ?_ ?_ ?_ ?_ ?_ ?_ ?_ ?_ ?_ ?_ ?_ ?_ ?_ ?_ ?_ ?_ ?_ ?_ ?_ ?_ ?_ ?_ ?_ ?_ ?_ ?_
    | with_reducible exact .inl rfl
    | exact Or.inr (hL (by decide))
    | dsimp only)

theorem ringContribute_frame {L : List Block} {s₀ s₁ : State} (i : Slot) (desc : Nat) (b : WireBlock) (c : Option Contribution) (hK : changesOnly L s₀ s₁)
    (hL : [.out, .log, .host, .ctx, .signals, .mem, .ports, .coll] ⊆ L) : changesOnly L s₀ (ringContribute i desc b c s₁) := by
  unfold ringContribute
  repeat' (first
    | with_reducible exact hK
    | with_reducible assumption
    | with_reducible exact List.Subset.trans (by decide) hL
    | with_reducible apply modRed_frame
    | with_reducible apply forwardOn_frame
    | with_reducible apply foldRing_frame
    | with_reducible refine changesOnly_ite ?_ ?_
    | split)

theorem takePartial_frame {L : List Block} {s₀ s₁ : State} (i : Slot) (p : PortId) (r : Reduction) (x : ResultMsg) (sender : BitVec 16) (hK : changesOnly L s₀ s₁)
    (hL : [.out, .log, .host, .ctx, .signals, .mem, .ports, .coll] ⊆ L) : changesOnly L s₀ (takePartial i p r x sender s₁) := by
  unfold takePartial
  repeat' (first
    | with_reducible exact hK
    | with_reducible assumption
    | with_reducible exact List.Subset.trans (by decide) hL
    | with_reducible apply sendMsg_frame
    | with_reducible apply modRed_frame
    | with_reducible apply forwardOn_frame
    | with_reducible refine changesOnly_ite ?_ ?_
    | split
    | fail_if_no_progress with_reducible refine changesOnly_out ?_ (List.Subset.trans (by decide) hL)
    | fail_if_no_progress with_reducible refine changesOnly_log ?_ (List.Subset.trans (by decide) hL)
    | fail_if_no_progress with_reducible refine changesOnly_host ?_ (List.Subset.trans (by decide) hL)
    | fail_if_no_progress with_reducible refine changesOnly_ctx ?_ (List.Subset.trans (by decide) hL)
    | fail_if_no_progress with_reducible refine changesOnly_signals ?_ (List.Subset.trans (by decide) hL)
    | fail_if_no_progress with_reducible refine changesOnly_mem ?_ (List.Subset.trans (by decide) hL)
    | fail_if_no_progress with_reducible refine changesOnly_ports ?_ (List.Subset.trans (by decide) hL)
    | fail_if_no_progress with_reducible refine changesOnly_coll ?_ (List.Subset.trans (by decide) hL)
    | fail_if_no_progress with_reducible refine changesOnly_lit ?_ ?_ ?_ ?_ ?_ ?_ ?_ ?_ ?_ ?_ ?_ ?_ ?_ ?_ ?_ ?_ ?_ ?_ ?_ ?_ ?_ ?_ ?_ ?_ ?_ ?_ ?_ ?_ ?_ ?_
    | with_reducible exact .inl rfl)

theorem holdMsg_frame {L : List Block} {s₀ s₁ : State} (command : Nat) (m : HeldMsg) (hK : changesOnly L s₀ s₁)
    (hL : [.out, .log, .host, .coll] ⊆ L) : changesOnly L s₀ (holdMsg command m s₁) := by
  unfold holdMsg
  repeat' (first
    | with_reducible exact hK
    | with_reducible assumption
    | with_reducible exact List.Subset.trans (by decide) hL
    | with_reducible refine foldl_frame ?_ (fun _ _ _ => ?_)
    | with_reducible refine foldl_fst_frame ?_ (fun _ _ _ => ?_)
    | with_reducible apply discardColl_frame
    | with_reducible refine changesOnly_ite ?_ ?_
    | split
    | fail_if_no_progress with_reducible refine changesOnly_out ?_ (List.Subset.trans (by decide) hL)
    | fail_if_no_progress with_reducible refine changesOnly_log ?_ (List.Subset.trans (by decide) hL)
    | fail_if_no_progress with_reducible refine changesOnly_host ?_ (List.Subset.trans (by decide) hL)
    | fail_if_no_progress with_reducible refine changesOnly_coll ?_ (List.Subset.trans (by decide) hL)
    | fail_if_no_progress with_reducible refine changesOnly_lit ?_ ?_ ?_ ?_ ?_ ?_ ?_ ?_ ?_ ?_ ?_ ?_ ?_ ?_ ?_ ?_ ?_ ?_ ?_ ?_ ?_ ?_ ?_ ?_ ?_ ?_ ?_ ?_ ?_ ?_
    | with_reducible exact .inl rfl
    | exact Or.inr (hL (by decide)))

theorem execRingPartial_frame {s₁ : State} (p : PortId) (x : ResultMsg) (sender : BitVec 16) (tag : BitVec 32) :
    ∃ s₂, execRingPartial p x sender tag s₁ = .next s₂ ∧ changesOnly [.out, .log, .host, .ctx, .signals, .mem, .ports, .coll] s₁ s₂ := by
  have hK : changesOnly [.out, .log, .host, .ctx, .signals, .mem, .ports, .coll] s₁ s₁ := changesOnly_refl
  have hL : ([.out, .log, .host, .ctx, .signals, .mem, .ports, .coll] : List Block) ⊆ [.out, .log, .host, .ctx, .signals, .mem, .ports, .coll] := List.Subset.refl _
  refine ⟨_, rfl, ?_⟩
  repeat' (first
    | with_reducible exact hK
    | with_reducible assumption
    | with_reducible exact List.Subset.trans (by decide) hL
    | with_reducible apply discardColl_frame
    | with_reducible apply takePartial_frame
    | with_reducible apply holdMsg_frame
    | with_reducible refine changesOnly_ite ?_ ?_
    | split)

theorem ringMsg_frame {L : List Block} {s₀ s₁ : State} (p : PortId) (h : CollHdr) {f : Reduction → State → State}
    (hK : changesOnly L s₀ s₁) (hf : ∀ r y, changesOnly L s₀ y → changesOnly L s₀ (f r y)) (hL : [.out, .log, .host, .coll] ⊆ L) :
    changesOnly L s₀ (ringMsg p h f s₁) := by
  unfold ringMsg
  repeat' (first
    | with_reducible exact hK
    | with_reducible exact List.Subset.trans (by decide) hL
    | with_reducible apply discardColl_frame
    | with_reducible apply hf
    | with_reducible refine changesOnly_ite ?_ ?_
    | split)

theorem dropHop_frame {L : List Block} {s₀ s₁ : State} (desc g : Nat) (hK : changesOnly L s₀ s₁)
    (hL : [.coll] ⊆ L) : changesOnly L s₀ (dropHop desc g s₁) := by
  unfold dropHop
  repeat' (first
    | with_reducible exact hK
    | with_reducible assumption
    | with_reducible exact List.Subset.trans (by decide) hL
    | with_reducible apply modRed_frame)

theorem execHopAck_frame {s₁ : State} (p : PortId) (h : CollHdr) :
    ∃ s₂, execHopAck p h s₁ = .next s₂ ∧ changesOnly [.out, .log, .host, .coll] s₁ s₂ := by
  have hK : changesOnly [.out, .log, .host, .coll] s₁ s₁ := changesOnly_refl
  have hL : ([.out, .log, .host, .coll] : List Block) ⊆ [.out, .log, .host, .coll] := List.Subset.refl _
  refine ⟨_, rfl, ?_⟩
  repeat' (first
    | with_reducible exact hK
    | with_reducible assumption
    | with_reducible exact List.Subset.trans (by decide) hL
    | with_reducible refine ringMsg_frame _ _ ?_ (fun _ _ _ => ?_) ?_
    | with_reducible apply dropHop_frame
    | with_reducible refine changesOnly_ite ?_ ?_
    | split)

theorem skipHop_frame {L : List Block} {s₀ s₁ : State} (i : Slot) (r : Reduction) (x : RingHop) (hK : changesOnly L s₀ s₁)
    (hL : [.out, .log, .host, .ctx, .signals, .mem, .ports, .coll] ⊆ L) : changesOnly L s₀ (skipHop i r x s₁) := by
  unfold skipHop
  repeat' (first
    | with_reducible exact hK
    | with_reducible assumption
    | with_reducible exact List.Subset.trans (by decide) hL
    | with_reducible apply report_frame
    | with_reducible apply sendHop_frame
    | with_reducible apply dropHop_frame)

theorem execCancelAck_frame {s₁ : State} (p : PortId) (h : CollHdr) :
    ∃ s₂, execCancelAck p h s₁ = .next s₂ ∧ changesOnly [.out, .log, .host, .ctx, .signals, .mem, .ports, .coll] s₁ s₂ := by
  have hK : changesOnly [.out, .log, .host, .ctx, .signals, .mem, .ports, .coll] s₁ s₁ := changesOnly_refl
  have hL : ([.out, .log, .host, .ctx, .signals, .mem, .ports, .coll] : List Block) ⊆ [.out, .log, .host, .ctx, .signals, .mem, .ports, .coll] := List.Subset.refl _
  refine ⟨_, rfl, ?_⟩
  repeat' (first
    | with_reducible exact hK
    | with_reducible assumption
    | with_reducible exact List.Subset.trans (by decide) hL
    | with_reducible refine ringMsg_frame _ _ ?_ (fun _ _ _ => ?_) ?_
    | with_reducible apply skipHop_frame
    | with_reducible refine changesOnly_ite ?_ ?_
    | split)

theorem takeCancel_frame {L : List Block} {s₀ s₁ : State} (i : Slot) (p : PortId) (h : CollHdr) (r : Reduction) (hK : changesOnly L s₀ s₁)
    (hL : [.out, .log, .host, .ctx, .mem, .ports, .coll] ⊆ L) : changesOnly L s₀ (takeCancel i p h r s₁) := by
  unfold takeCancel
  repeat' (first
    | with_reducible exact hK
    | with_reducible assumption
    | with_reducible exact List.Subset.trans (by decide) hL
    | with_reducible apply sendMsg_frame
    | with_reducible apply modRed_frame
    | with_reducible apply foldRing_frame
    | with_reducible refine changesOnly_ite ?_ ?_
    | split
    | fail_if_no_progress with_reducible refine changesOnly_out ?_ (List.Subset.trans (by decide) hL)
    | fail_if_no_progress with_reducible refine changesOnly_log ?_ (List.Subset.trans (by decide) hL)
    | fail_if_no_progress with_reducible refine changesOnly_host ?_ (List.Subset.trans (by decide) hL)
    | fail_if_no_progress with_reducible refine changesOnly_ctx ?_ (List.Subset.trans (by decide) hL)
    | fail_if_no_progress with_reducible refine changesOnly_mem ?_ (List.Subset.trans (by decide) hL)
    | fail_if_no_progress with_reducible refine changesOnly_ports ?_ (List.Subset.trans (by decide) hL)
    | fail_if_no_progress with_reducible refine changesOnly_coll ?_ (List.Subset.trans (by decide) hL)
    | fail_if_no_progress with_reducible refine changesOnly_lit ?_ ?_ ?_ ?_ ?_ ?_ ?_ ?_ ?_ ?_ ?_ ?_ ?_ ?_ ?_ ?_ ?_ ?_ ?_ ?_ ?_ ?_ ?_ ?_ ?_ ?_ ?_ ?_ ?_ ?_
    | with_reducible exact .inl rfl)

theorem holdCancel_frame {L : List Block} {s₀ s₁ : State} (p : PortId) (h : CollHdr) (hK : changesOnly L s₀ s₁)
    (hL : [.out, .log, .host, .ports, .coll] ⊆ L) : changesOnly L s₀ (holdCancel p h s₁) := by
  unfold holdCancel
  repeat' (first
    | with_reducible exact hK
    | with_reducible assumption
    | with_reducible exact List.Subset.trans (by decide) hL
    | with_reducible apply sendMsg_frame
    | with_reducible apply discardColl_frame
    | with_reducible apply holdMsg_frame
    | split
    | fail_if_no_progress with_reducible refine changesOnly_lit ?_ ?_ ?_ ?_ ?_ ?_ ?_ ?_ ?_ ?_ ?_ ?_ ?_ ?_ ?_ ?_ ?_ ?_ ?_ ?_ ?_ ?_ ?_ ?_ ?_ ?_ ?_ ?_ ?_ ?_
    | with_reducible exact .inl rfl
    | exact Or.inr (hL (by decide))
    | dsimp only)

theorem execHopCancel_frame {s₁ : State} (p : PortId) (h : CollHdr) :
    ∃ s₂, execHopCancel p h s₁ = .next s₂ ∧ changesOnly [.out, .log, .host, .ctx, .mem, .ports, .coll] s₁ s₂ := by
  have hK : changesOnly [.out, .log, .host, .ctx, .mem, .ports, .coll] s₁ s₁ := changesOnly_refl
  have hL : ([.out, .log, .host, .ctx, .mem, .ports, .coll] : List Block) ⊆ [.out, .log, .host, .ctx, .mem, .ports, .coll] := List.Subset.refl _
  refine ⟨_, rfl, ?_⟩
  repeat' (first
    | with_reducible exact hK
    | with_reducible assumption
    | with_reducible exact List.Subset.trans (by decide) hL
    | with_reducible refine when'_frame _ ?_ (fun _ _ => ?_)
    | with_reducible refine ringMsg_frame _ _ ?_ (fun _ _ _ => ?_) ?_
    | with_reducible apply takeCancel_frame
    | with_reducible apply holdCancel_frame
    | split
    | fail_if_no_progress with_reducible refine changesOnly_lit ?_ ?_ ?_ ?_ ?_ ?_ ?_ ?_ ?_ ?_ ?_ ?_ ?_ ?_ ?_ ?_ ?_ ?_ ?_ ?_ ?_ ?_ ?_ ?_ ?_ ?_ ?_ ?_ ?_ ?_
    | with_reducible exact .inl rfl
    | exact Or.inr (hL (by decide))
    | dsimp only)

theorem hopExpires_frame {L : List Block} {s₀ s₁ : State} (i : Slot) (r : Reduction) (x : RingHop) (hK : changesOnly L s₀ s₁)
    (hL : [.out, .log, .host, .ctx, .signals, .mem, .ports, .coll] ⊆ L) : changesOnly L s₀ (hopExpires i r x s₁) := by
  unfold hopExpires
  repeat' (first
    | with_reducible exact hK
    | with_reducible assumption
    | with_reducible exact List.Subset.trans (by decide) hL
    | with_reducible apply sendMsg_frame
    | with_reducible apply modRed_frame
    | with_reducible apply skipHop_frame
    | with_reducible refine changesOnly_ite ?_ ?_
    | split)

theorem execHopTimeout_frame {s₁ : State} (g : Nat) :
    ∃ s₂, execHopTimeout g s₁ = .next s₂ ∧ changesOnly [.out, .log, .host, .ctx, .signals, .mem, .ports, .coll] s₁ s₂ := by
  have hK : changesOnly [.out, .log, .host, .ctx, .signals, .mem, .ports, .coll] s₁ s₁ := changesOnly_refl
  have hL : ([.out, .log, .host, .ctx, .signals, .mem, .ports, .coll] : List Block) ⊆ [.out, .log, .host, .ctx, .signals, .mem, .ports, .coll] := List.Subset.refl _
  refine ⟨_, rfl, ?_⟩
  repeat' (first
    | with_reducible exact hK
    | with_reducible assumption
    | with_reducible exact List.Subset.trans (by decide) hL
    | with_reducible apply hopExpires_frame
    | with_reducible refine changesOnly_ite ?_ ?_
    | split)

theorem execPartialHoldTimeout_frame {s₁ : State} (g : Nat) :
    ∃ s₂, execPartialHoldTimeout g s₁ = .next s₂ ∧ changesOnly [.out, .log, .host, .ctx, .signals, .mem, .ports, .coll] s₁ s₂ := by
  have hK : changesOnly [.out, .log, .host, .ctx, .signals, .mem, .ports, .coll] s₁ s₁ := changesOnly_refl
  have hL : ([.out, .log, .host, .ctx, .signals, .mem, .ports, .coll] : List Block) ⊆ [.out, .log, .host, .ctx, .signals, .mem, .ports, .coll] := List.Subset.refl _
  refine ⟨_, rfl, ?_⟩
  repeat' (first
    | with_reducible exact hK
    | with_reducible assumption
    | with_reducible exact List.Subset.trans (by decide) hL
    | with_reducible apply modRed_frame
    | with_reducible apply forwardOn_frame
    | with_reducible refine changesOnly_ite ?_ ?_
    | split)

theorem execRingContributionTimeout_frame {s₁ : State} (g : Nat) :
    ∃ s₂, execRingContributionTimeout g s₁ = .next s₂ ∧ changesOnly [.out, .log, .host, .ctx, .mem, .coll] s₁ s₂ := by
  have hK : changesOnly [.out, .log, .host, .ctx, .mem, .coll] s₁ s₁ := changesOnly_refl
  have hL : ([.out, .log, .host, .ctx, .mem, .coll] : List Block) ⊆ [.out, .log, .host, .ctx, .mem, .coll] := List.Subset.refl _
  refine ⟨_, rfl, ?_⟩
  repeat' (first
    | with_reducible exact hK
    | with_reducible assumption
    | with_reducible exact List.Subset.trans (by decide) hL
    | with_reducible apply modRed_frame
    | with_reducible apply foldRing_frame
    | with_reducible refine changesOnly_ite ?_ ?_
    | split)

theorem execResultReq_frame {s₁ : State} (p : PortId) (b : BlockRef) :
    ∃ s₂, execResultReq p b s₁ = .next s₂ ∧ changesOnly [.out, .ports] s₁ s₂ := by
  have hK : changesOnly [.out, .ports] s₁ s₁ := changesOnly_refl
  have hL : ([.out, .ports] : List Block) ⊆ [.out, .ports] := List.Subset.refl _
  refine ⟨_, rfl, ?_⟩
  repeat' (first
    | with_reducible exact hK
    | with_reducible assumption
    | with_reducible exact List.Subset.trans (by decide) hL
    | with_reducible apply sendMsg_frame
    | with_reducible refine changesOnly_ite ?_ ?_
    | split)

theorem execResultAck_frame {s₁ : State} (p : PortId) (b : BlockRef) :
    ∃ s₂, execResultAck p b s₁ = .next s₂ ∧ changesOnly [.coll] s₁ s₂ := by
  have hK : changesOnly [.coll] s₁ s₁ := changesOnly_refl
  have hL : ([.coll] : List Block) ⊆ [.coll] := List.Subset.refl _
  refine ⟨_, rfl, ?_⟩
  repeat' (first
    | with_reducible exact hK
    | with_reducible assumption
    | with_reducible exact List.Subset.trans (by decide) hL
    | with_reducible refine when'_frame _ ?_ (fun _ _ => ?_)
    | with_reducible apply dropKept_frame
    | split
    | fail_if_no_progress with_reducible refine changesOnly_lit ?_ ?_ ?_ ?_ ?_ ?_ ?_ ?_ ?_ ?_ ?_ ?_ ?_ ?_ ?_ ?_ ?_ ?_ ?_ ?_ ?_ ?_ ?_ ?_ ?_ ?_ ?_ ?_ ?_ ?_
    | with_reducible exact .inl rfl
    | exact Or.inr (hL (by decide))
    | dsimp only)

theorem markSent_frame {L : List Block} {s₀ s₁ : State} (desc g : Nat) (gone : Bool) (hK : changesOnly L s₀ s₁)
    (hL : [.coll] ⊆ L) : changesOnly L s₀ (markSent desc g gone s₁) := by
  unfold markSent
  repeat' (first
    | with_reducible exact hK
    | with_reducible assumption
    | with_reducible exact List.Subset.trans (by decide) hL
    | with_reducible apply modRed_frame)

theorem foldWhole_frame {L : List Block} {s₀ s₁ : State} (quiet : Bool) (i : Slot) (y : Site) (b : WireBlock) (e : ErrMem) (xs : List Num) (hK : changesOnly L s₀ s₁)
    (hL : [.out, .log, .host, .ctx, .mem] ⊆ L) : changesOnly L s₀ (foldWhole quiet i y b e xs s₁) := by
  unfold foldWhole
  repeat' (first
    | with_reducible exact hK
    | with_reducible assumption
    | with_reducible exact List.Subset.trans (by decide) hL
    | with_reducible apply errClear_frame
    | with_reducible apply foldBlock_frame
    | split
    | fail_if_no_progress with_reducible refine changesOnly_lit ?_ ?_ ?_ ?_ ?_ ?_ ?_ ?_ ?_ ?_ ?_ ?_ ?_ ?_ ?_ ?_ ?_ ?_ ?_ ?_ ?_ ?_ ?_ ?_ ?_ ?_ ?_ ?_ ?_ ?_
    | with_reducible exact .inl rfl
    | exact Or.inr (hL (by decide))
    | dsimp only)

theorem passRing_frame {L : List Block} {s₀ s₁ : State} (i : Slot) (r : Reduction) (b : WireBlock) (hK : changesOnly L s₀ s₁)
    (hL : [.out, .log, .host, .ctx, .signals, .mem, .ports, .coll] ⊆ L) : changesOnly L s₀ (passRing i r b s₁) := by
  unfold passRing
  repeat' (first
    | with_reducible exact hK
    | with_reducible assumption
    | with_reducible exact List.Subset.trans (by decide) hL
    | with_reducible apply ringContribute_frame
    | with_reducible refine changesOnly_ite ?_ ?_
    | split)

theorem launch_frame {L : List Block} {s₀ s₁ : State} (i : Slot) (r : Reduction) (b : WireBlock) (c : Contribution) (hK : changesOnly L s₀ s₁)
    (hL : [.out, .log, .host, .ctx, .signals, .mem, .ports, .coll] ⊆ L) : changesOnly L s₀ (launch i r b c s₁) := by
  unfold launch
  repeat' (first
    | with_reducible exact hK
    | with_reducible assumption
    | with_reducible exact List.Subset.trans (by decide) hL
    | with_reducible apply sendMsg_frame
    | with_reducible apply ringContribute_frame
    | with_reducible apply markSent_frame
    | with_reducible refine changesOnly_ite ?_ ?_
    | split)

theorem encodeOne_frame {L : List Block} {s₀ s₁ : State} (i : Slot) (y : Site) (m : Manifest) (r : Reduction) (q : Cue) (b : WireBlock) (xs : List Num) (e : ErrMem) (hK : changesOnly L s₀ s₁)
    (hL : [.out, .log, .host, .ctx, .signals, .mem, .ports, .coll] ⊆ L) : changesOnly L s₀ (encodeOne i y m r q b xs e s₁) := by
  unfold encodeOne
  extract_lets table eAg now expected x s
  have h : changesOnly L s₀ s := settleErr_frame _ _ _ _ _ hK (List.Subset.trans (by decide) hL)
  split
  · exact passRing_frame _ _ _ (markSent_frame _ _ _ (blockEvent_frame _ _ _ h (List.Subset.trans (by decide) hL))
      (List.Subset.trans (by decide) hL)) (List.Subset.trans (by decide) hL)
  · exact launch_frame _ _ _ _ (changesOnly_ite (countBlock_frame _ _ h (List.Subset.trans (by decide) hL)) h)
      (List.Subset.trans (by decide) hL)

theorem sayOneBit_frame {L : List Block} {s₀ s₁ : State} (r : Reduction) (g : Nat) (hK : changesOnly L s₀ s₁)
    (hL : [.out, .log, .host, .coll] ⊆ L) : changesOnly L s₀ (sayOneBit r g s₁) := by
  unfold sayOneBit
  repeat' (first
    | with_reducible exact hK
    | with_reducible assumption
    | with_reducible exact List.Subset.trans (by decide) hL
    | with_reducible apply report_frame
    | with_reducible apply modRed_frame
    | split
    | fail_if_no_progress with_reducible refine changesOnly_lit ?_ ?_ ?_ ?_ ?_ ?_ ?_ ?_ ?_ ?_ ?_ ?_ ?_ ?_ ?_ ?_ ?_ ?_ ?_ ?_ ?_ ?_ ?_ ?_ ?_ ?_ ?_ ?_ ?_ ?_
    | with_reducible exact .inl rfl
    | exact Or.inr (hL (by decide))
    | dsimp only)

theorem sendBlock_frame {L : List Block} {s₀ s₁ : State} (i : Slot) (y : Site) (m : Manifest) (q : Cue) (desc : Nat) (g : Nat) (hK : changesOnly L s₀ s₁)
    (hL : [.out, .log, .host, .ctx, .signals, .mem, .ports, .coll] ⊆ L) : changesOnly L s₀ (sendBlock i y m q desc s₁ g) := by
  unfold sendBlock
  repeat' (first
    | with_reducible exact hK
    | with_reducible assumption
    | with_reducible exact List.Subset.trans (by decide) hL
    | with_reducible apply modCtx_frame
    | with_reducible apply modOwned_frame
    | with_reducible apply takeKept_frame
    | with_reducible apply markSent_frame
    | with_reducible apply foldWhole_frame
    | with_reducible apply passRing_frame
    | with_reducible apply encodeOne_frame
    | split
    | fail_if_no_progress with_reducible refine changesOnly_lit ?_ ?_ ?_ ?_ ?_ ?_ ?_ ?_ ?_ ?_ ?_ ?_ ?_ ?_ ?_ ?_ ?_ ?_ ?_ ?_ ?_ ?_ ?_ ?_ ?_ ?_ ?_ ?_ ?_ ?_
    | with_reducible exact .inl rfl
    | exact Or.inr (hL (by decide))
    | dsimp only)

theorem sendWire_frame {L : List Block} {s₀ s₁ : State} (i : Slot) (q : Cue) (hK : changesOnly L s₀ s₁)
    (hL : [.out, .log, .host, .ctx, .signals, .mem, .ports, .coll] ⊆ L) : changesOnly L s₀ (sendWire i q s₁) := by
  unfold sendWire
  repeat' (first
    | with_reducible exact hK
    | with_reducible assumption
    | with_reducible exact List.Subset.trans (by decide) hL
    | with_reducible refine foldl_frame ?_ (fun _ _ _ => ?_)
    | with_reducible refine foldl_fst_frame ?_ (fun _ _ _ => ?_)
    | with_reducible apply sayOneBit_frame
    | with_reducible apply sendBlock_frame
    | split
    | fail_if_no_progress with_reducible refine changesOnly_lit ?_ ?_ ?_ ?_ ?_ ?_ ?_ ?_ ?_ ?_ ?_ ?_ ?_ ?_ ?_ ?_ ?_ ?_ ?_ ?_ ?_ ?_ ?_ ?_ ?_ ?_ ?_ ?_ ?_ ?_
    | with_reducible exact .inl rfl
    | exact Or.inr (hL (by decide))
    | dsimp only)

theorem takeBounce_frame {L : List Block} {s₀ s₁ : State} (i : Slot) (c : Contribution) (hK : changesOnly L s₀ s₁)
    (hL : [.out, .log, .host, .ctx, .mem, .coll] ⊆ L) : changesOnly L s₀ (takeBounce i c s₁) := by
  unfold takeBounce
  repeat' (first
    | with_reducible exact hK
    | with_reducible assumption
    | with_reducible exact List.Subset.trans (by decide) hL
    | with_reducible apply blockEvent_frame
    | with_reducible apply countedFold_frame
    | split
    | fail_if_no_progress with_reducible refine changesOnly_lit ?_ ?_ ?_ ?_ ?_ ?_ ?_ ?_ ?_ ?_ ?_ ?_ ?_ ?_ ?_ ?_ ?_ ?_ ?_ ?_ ?_ ?_ ?_ ?_ ?_ ?_ ?_ ?_ ?_ ?_
    | with_reducible exact .inl rfl
    | exact Or.inr (hL (by decide))
    | dsimp only)

theorem execBounce_frame {s₁ : State} (p : PortId) (c : Contribution) :
    ∃ s₂, execBounce p c s₁ = .next s₂ ∧ changesOnly [.out, .log, .host, .ctx, .mem, .coll] s₁ s₂ := by
  have hK : changesOnly [.out, .log, .host, .ctx, .mem, .coll] s₁ s₁ := changesOnly_refl
  have hL : ([.out, .log, .host, .ctx, .mem, .coll] : List Block) ⊆ [.out, .log, .host, .ctx, .mem, .coll] := List.Subset.refl _
  refine ⟨_, rfl, ?_⟩
  repeat' (first
    | with_reducible exact hK
    | with_reducible assumption
    | with_reducible exact List.Subset.trans (by decide) hL
    | with_reducible refine when'_frame _ ?_ (fun _ _ => ?_)
    | with_reducible apply takeBounce_frame)

theorem loseMsgPlane_frame {L : List Block} {s₀ s₁ : State} (r : Reduction) (p : Nat) (hK : changesOnly L s₀ s₁)
    (hL : [.out, .log, .host, .coll] ⊆ L) : changesOnly L s₀ (loseMsgPlane r p s₁) := by
  unfold loseMsgPlane
  repeat' (first
    | with_reducible exact hK
    | with_reducible assumption
    | with_reducible exact List.Subset.trans (by decide) hL
    | with_reducible apply collEvent_frame
    | with_reducible apply setAnswer_frame)

theorem takeReply_frame {L : List Block} {s₀ s₁ : State} (p : PortId) (h : CollHdr) (try' : Nat) (r : Reduction) (hK : changesOnly L s₀ s₁)
    (hL : [.out, .log, .host, .coll] ⊆ L) : changesOnly L s₀ (takeReply p h try' r s₁) := by
  unfold takeReply
  repeat' (first
    | with_reducible exact hK
    | with_reducible assumption
    | with_reducible exact List.Subset.trans (by decide) hL
    | with_reducible apply report_frame
    | with_reducible apply collEvent_frame
    | with_reducible apply discardColl_frame
    | with_reducible apply abortRed_frame
    | with_reducible apply setAnswer_frame
    | with_reducible refine changesOnly_ite ?_ ?_
    | split)

theorem execOpenReply_frame {s₁ : State} (p : PortId) (h : CollHdr) :
    ∃ s₂, execOpenReply p h s₁ = .next s₂ ∧ changesOnly [.out, .log, .host, .coll] s₁ s₂ := by
  have hK : changesOnly [.out, .log, .host, .coll] s₁ s₁ := changesOnly_refl
  have hL : ([.out, .log, .host, .coll] : List Block) ⊆ [.out, .log, .host, .coll] := List.Subset.refl _
  refine ⟨_, rfl, ?_⟩
  repeat' (first
    | with_reducible exact hK
    | with_reducible assumption
    | with_reducible exact List.Subset.trans (by decide) hL
    | with_reducible refine ringMsg_frame _ _ ?_ (fun _ _ _ => ?_) ?_
    | with_reducible apply takeReply_frame
    | with_reducible refine changesOnly_ite ?_ ?_
    | split)

theorem retryOpen_frame {L : List Block} {s₀ s₁ : State} (p : PortId) (r : Reduction) (hK : changesOnly L s₀ s₁)
    (hL : [.out, .log, .host, .ports, .coll] ⊆ L) : changesOnly L s₀ (retryOpen p r s₁) := by
  unfold retryOpen
  repeat' (first
    | with_reducible exact hK
    | with_reducible assumption
    | with_reducible exact List.Subset.trans (by decide) hL
    | with_reducible apply setAnswer_frame
    | with_reducible apply sendOpen_frame
    | with_reducible apply loseMsgPlane_frame
    | with_reducible refine changesOnly_ite ?_ ?_
    | split)

theorem execOpenRetry_frame {s₁ : State} (p : PortId) :
    ∃ s₂, execOpenRetry p s₁ = .next s₂ ∧ changesOnly [.out, .log, .host, .ports, .coll] s₁ s₂ := by
  have hK : changesOnly [.out, .log, .host, .ports, .coll] s₁ s₁ := changesOnly_refl
  have hL : ([.out, .log, .host, .ports, .coll] : List Block) ⊆ [.out, .log, .host, .ports, .coll] := List.Subset.refl _
  refine ⟨_, rfl, ?_⟩
  repeat' (first
    | with_reducible exact hK
    | with_reducible assumption
    | with_reducible exact List.Subset.trans (by decide) hL
    | with_reducible apply retryOpen_frame
    | with_reducible refine changesOnly_ite ?_ ?_
    | split)

theorem endStepPass_frame {L : List Block} {s₀ s₁ : State} (i : Slot) (step : BitVec 32) (code : Code) (unsent : Bool) (hK : changesOnly L s₀ s₁)
    (hL : [.out, .log, .host, .ctx, .installed, .tiles, .links, .signals, .coll] ⊆ L) : changesOnly L s₀ (endStepPass i step code unsent s₁) := by
  unfold endStepPass
  repeat' (first
    | with_reducible exact hK
    | with_reducible assumption
    | with_reducible exact List.Subset.trans (by decide) hL
    | with_reducible apply endPass_frame
    | split
    | fail_if_no_progress with_reducible refine changesOnly_lit ?_ ?_ ?_ ?_ ?_ ?_ ?_ ?_ ?_ ?_ ?_ ?_ ?_ ?_ ?_ ?_ ?_ ?_ ?_ ?_ ?_ ?_ ?_ ?_ ?_ ?_ ?_ ?_ ?_ ?_
    | with_reducible exact .inl rfl
    | exact Or.inr (hL (by decide))
    | dsimp only)

theorem abortedRed_frame {L : List Block} {s₀ s₁ : State} (i : Slot) (r : Reduction) (a : Nat × Code) (hK : changesOnly L s₀ s₁)
    (hL : [.out, .log, .host, .ctx, .installed, .tiles, .links, .signals, .coll] ⊆ L) : changesOnly L s₀ (abortedRed i r a s₁) := by
  unfold abortedRed
  repeat' (first
    | with_reducible exact hK
    | with_reducible assumption
    | with_reducible exact List.Subset.trans (by decide) hL
    | with_reducible apply endRed_frame
    | with_reducible apply modModel_frame
    | with_reducible apply endStepPass_frame
    | split
    | fail_if_no_progress with_reducible refine changesOnly_lit ?_ ?_ ?_ ?_ ?_ ?_ ?_ ?_ ?_ ?_ ?_ ?_ ?_ ?_ ?_ ?_ ?_ ?_ ?_ ?_ ?_ ?_ ?_ ?_ ?_ ?_ ?_ ?_ ?_ ?_
    | with_reducible exact .inl rfl
    | exact Or.inr (hL (by decide))
    | dsimp only)

theorem discardStale_frame {L : List Block} {s₀ s₁ : State} (desc seq : Nat) (hK : changesOnly L s₀ s₁)
    (hL : [.out, .log, .host, .coll] ⊆ L) : changesOnly L s₀ (discardStale desc seq s₁) := by
  unfold discardStale
  repeat' (first
    | with_reducible exact hK
    | with_reducible assumption
    | with_reducible exact List.Subset.trans (by decide) hL
    | with_reducible refine foldl_frame ?_ (fun _ _ _ => ?_)
    | with_reducible refine foldl_fst_frame ?_ (fun _ _ _ => ?_)
    | with_reducible apply discardColl_frame
    | split
    | fail_if_no_progress with_reducible refine changesOnly_lit ?_ ?_ ?_ ?_ ?_ ?_ ?_ ?_ ?_ ?_ ?_ ?_ ?_ ?_ ?_ ?_ ?_ ?_ ?_ ?_ ?_ ?_ ?_ ?_ ?_ ?_ ?_ ?_ ?_ ?_
    | with_reducible exact .inl rfl
    | exact Or.inr (hL (by decide))
    | dsimp only)

theorem reduceRun_frame {L : List Block} {s₀ s₁ : State} (i : Slot) (q : QId) (r : Ready) (b : CollBody) (w : ReduceBody) (hK : changesOnly L s₀ s₁)
    (hL : [.out, .log, .host, .ctx, .installed, .tiles, .links, .signals, .mem, .ports, .coll] ⊆ L) : changesOnly L s₀ (reduceRun i q r b w s₁) := by
  unfold reduceRun
  repeat' (first
    | with_reducible exact hK
    | with_reducible assumption
    | with_reducible exact List.Subset.trans (by decide) hL
    | with_reducible refine foldl_frame ?_ (fun _ _ _ => ?_)
    | with_reducible refine foldl_fst_frame ?_ (fun _ _ _ => ?_)
    | with_reducible apply flushCounts_frame
    | with_reducible apply addRunning_frame
    | with_reducible apply sendOpen_frame
    | with_reducible apply sendSignals_frame
    | with_reducible apply noticeAll_frame
    | with_reducible apply takePartial_frame
    | with_reducible apply abortedRed_frame
    | with_reducible apply discardStale_frame
    | split
    | fail_if_no_progress with_reducible refine changesOnly_lit ?_ ?_ ?_ ?_ ?_ ?_ ?_ ?_ ?_ ?_ ?_ ?_ ?_ ?_ ?_ ?_ ?_ ?_ ?_ ?_ ?_ ?_ ?_ ?_ ?_ ?_ ?_ ?_ ?_ ?_
    | with_reducible exact .inl rfl
    | exact Or.inr (hL (by decide))
    | dsimp only)

theorem reduceStart_frame {L : List Block} {s₀ s₁ : State} (i : Slot) (q : QId) (r : Ready) (hK : changesOnly L s₀ s₁)
    (hL : [.out, .log, .host, .ctx, .installed, .tiles, .links, .signals, .mem, .ports, .coll] ⊆ L) : changesOnly L s₀ (reduceStart i q r s₁) := by
  unfold reduceStart
  repeat' (first
    | with_reducible exact hK
    | with_reducible assumption
    | with_reducible exact List.Subset.trans (by decide) hL
    | with_reducible apply refuseStart_frame
    | with_reducible apply endStepPass_frame
    | with_reducible apply reduceRun_frame
    | split
    | fail_if_no_progress with_reducible refine changesOnly_lit ?_ ?_ ?_ ?_ ?_ ?_ ?_ ?_ ?_ ?_ ?_ ?_ ?_ ?_ ?_ ?_ ?_ ?_ ?_ ?_ ?_ ?_ ?_ ?_ ?_ ?_ ?_ ?_ ?_ ?_
    | with_reducible exact .inl rfl
    | exact Or.inr (hL (by decide))
    | dsimp only)

theorem execReduceShards_frame {s₁ : State} (i : Slot) (q : QId) :
    ∃ s₂, execReduceShards i q s₁ = .next s₂ ∧ changesOnly [.out, .log, .host, .ctx, .installed, .tiles, .links, .signals, .mem, .ports, .coll] s₁ s₂ := by
  have hK : changesOnly [.out, .log, .host, .ctx, .installed, .tiles, .links, .signals, .mem, .ports, .coll] s₁ s₁ := changesOnly_refl
  have hL : ([.out, .log, .host, .ctx, .installed, .tiles, .links, .signals, .mem, .ports, .coll] : List Block) ⊆ [.out, .log, .host, .ctx, .installed, .tiles, .links, .signals, .mem, .ports, .coll] := List.Subset.refl _
  refine ⟨_, rfl, ?_⟩
  repeat' (first
    | with_reducible exact hK
    | with_reducible assumption
    | with_reducible exact List.Subset.trans (by decide) hL
    | with_reducible refine startRow_frame _ _ _ ?_ (fun _ _ _ => ?_) ?_
    | with_reducible apply reduceStart_frame
    | split
    | fail_if_no_progress with_reducible refine changesOnly_lit ?_ ?_ ?_ ?_ ?_ ?_ ?_ ?_ ?_ ?_ ?_ ?_ ?_ ?_ ?_ ?_ ?_ ?_ ?_ ?_ ?_ ?_ ?_ ?_ ?_ ?_ ?_ ?_ ?_ ?_
    | with_reducible exact .inl rfl
    | exact Or.inr (hL (by decide))
    | dsimp only)

theorem finishReduce_frame {L : List Block} {s₀ s₁ : State} (i : Slot) (r : Reduction) (hK : changesOnly L s₀ s₁)
    (hL : [.out, .log, .host, .ctx, .ports, .coll] ⊆ L) : changesOnly L s₀ (finishReduce i r s₁) := by
  unfold finishReduce
  repeat' (first
    | with_reducible exact hK
    | with_reducible assumption
    | with_reducible exact List.Subset.trans (by decide) hL
    | with_reducible refine foldl_frame ?_ (fun _ _ _ => ?_)
    | with_reducible refine foldl_fst_frame ?_ (fun _ _ _ => ?_)
    | with_reducible apply endRed_frame
    | with_reducible apply sendMsg_frame)

theorem execReduceShardsComplete_frame {s₁ : State}  :
    ∃ s₂, execReduceShardsComplete s₁ = .next s₂ ∧ changesOnly [.out, .log, .host, .ctx, .ports, .coll] s₁ s₂ := by
  have hK : changesOnly [.out, .log, .host, .ctx, .ports, .coll] s₁ s₁ := changesOnly_refl
  have hL : ([.out, .log, .host, .ctx, .ports, .coll] : List Block) ⊆ [.out, .log, .host, .ctx, .ports, .coll] := List.Subset.refl _
  refine ⟨_, rfl, ?_⟩
  repeat' (first
    | with_reducible exact hK
    | with_reducible assumption
    | with_reducible exact List.Subset.trans (by decide) hL
    | with_reducible apply finishReduce_frame
    | with_reducible refine changesOnly_ite ?_ ?_
    | split)

end Sys2Proof.Machine
end

