-- ==== Sys2Proof/Laws/FrameCues.lean ====
section
/-! SUPPORT. The frames of the operations and commands of Cues (Laws/Frame.lean). -/

namespace Sys2Proof.Machine

set_option linter.all false
set_option Elab.async false

open Sys2Proof

theorem cueEvent_frame {L : List Block} {s₀ s₁ : State} (i : Slot) (code : Code) (t : TileId) (idx value : Nat) (hK : changesOnly L s₀ s₁)
    (hL : [.out, .log, .host] ⊆ L) : changesOnly L s₀ (cueEvent i code t idx value s₁) := by
  unfold cueEvent
  repeat' (first
    | with_reducible exact hK
    | with_reducible assumption
    | with_reducible exact List.Subset.trans (by decide) hL
    | with_reducible apply report_frame)

theorem noteArith_frame {L : List Block} {s₀ s₁ : State} (i : Slot) (code : Code) (t : TileId) (idx n first : Nat) (hK : changesOnly L s₀ s₁)
    (hL : [.ctx] ⊆ L) : changesOnly L s₀ (noteArith i code t idx n first s₁) := by
  unfold noteArith
  repeat' (first
    | with_reducible exact hK
    | with_reducible assumption
    | with_reducible exact List.Subset.trans (by decide) hL
    | with_reducible apply modCtx_frame
    | with_reducible refine changesOnly_ite ?_ ?_
    | split)

theorem cueCount_frame {L : List Block} {s₀ s₁ : State} (i : Slot) (code : Code) (t : TileId) (idx n first : Nat) (hK : changesOnly L s₀ s₁)
    (hL : [.out, .log, .host, .ctx] ⊆ L) : changesOnly L s₀ (cueCount i code t idx n first s₁) := by
  unfold cueCount
  repeat' (first
    | with_reducible exact hK
    | with_reducible assumption
    | with_reducible exact List.Subset.trans (by decide) hL
    | with_reducible apply report_frame
    | with_reducible apply noteArith_frame
    | with_reducible refine changesOnly_ite ?_ ?_
    | split)

theorem raiseCtr_frame {L : List Block} {s₀ s₁ : State} (t : TileId) (ctr : Nat) (hK : changesOnly L s₀ s₁)
    (hL : [.tiles] ⊆ L) : changesOnly L s₀ (raiseCtr t ctr s₁) := by
  unfold raiseCtr
  repeat' (first
    | with_reducible exact hK
    | with_reducible assumption
    | with_reducible exact List.Subset.trans (by decide) hL
    | with_reducible apply modTile_frame)

theorem signal_frame {L : List Block} {s₀ s₁ : State} (r : Run) (t : TileId) (q : Cue) (hK : changesOnly L s₀ s₁)
    (hL : [.tiles, .signals] ⊆ L) : changesOnly L s₀ (signal r t q s₁) := by
  unfold signal
  repeat' (first
    | with_reducible exact hK
    | with_reducible assumption
    | with_reducible exact List.Subset.trans (by decide) hL
    | with_reducible apply raiseCtr_frame
    | with_reducible refine changesOnly_ite ?_ ?_
    | split
    | fail_if_no_progress with_reducible refine changesOnly_tiles ?_ (List.Subset.trans (by decide) hL)
    | fail_if_no_progress with_reducible refine changesOnly_signals ?_ (List.Subset.trans (by decide) hL)
    | fail_if_no_progress with_reducible refine changesOnly_lit ?_ ?_ ?_ ?_ ?_ ?_ ?_ ?_ ?_ ?_ ?_ ?_ ?_ ?_ ?_ ?_ ?_ ?_ ?_ ?_ ?_ ?_ ?_ ?_ ?_ ?_ ?_ ?_ ?_ ?_
    | with_reducible exact .inl rfl
    | exact Or.inr (hL (by decide)))

theorem execRouteSignalArrive_frame {s₁ : State} (t : TileId) (ctr : Fin 64) (layer : BitVec 16) :
    ∃ s₂, execRouteSignalArrive t ctr layer s₁ = .next s₂ ∧ changesOnly [.tiles, .signals] s₁ s₂ := by
  have hK : changesOnly [.tiles, .signals] s₁ s₁ := changesOnly_refl
  have hL : ([.tiles, .signals] : List Block) ⊆ [.tiles, .signals] := List.Subset.refl _
  refine ⟨_, rfl, ?_⟩
  repeat' (first
    | with_reducible exact hK
    | with_reducible assumption
    | with_reducible exact List.Subset.trans (by decide) hL
    | with_reducible apply raiseCtr_frame
    | with_reducible refine changesOnly_ite ?_ ?_
    | split
    | fail_if_no_progress with_reducible refine changesOnly_tiles ?_ (List.Subset.trans (by decide) hL)
    | fail_if_no_progress with_reducible refine changesOnly_signals ?_ (List.Subset.trans (by decide) hL)
    | fail_if_no_progress with_reducible refine changesOnly_lit ?_ ?_ ?_ ?_ ?_ ?_ ?_ ?_ ?_ ?_ ?_ ?_ ?_ ?_ ?_ ?_ ?_ ?_ ?_ ?_ ?_ ?_ ?_ ?_ ?_ ?_ ?_ ?_ ?_ ?_
    | with_reducible exact .inl rfl
    | exact Or.inr (hL (by decide)))

theorem modLedger_frame {L : List Block} {s₀ s₁ : State} (i : Slot) (l : Nat) (f : LedgerEntry → LedgerEntry) (hK : changesOnly L s₀ s₁)
    (hL : [.ctx] ⊆ L) : changesOnly L s₀ (modLedger i l f s₁) := by
  unfold modLedger
  repeat' (first
    | with_reducible exact hK
    | with_reducible assumption
    | with_reducible exact List.Subset.trans (by decide) hL
    | with_reducible apply modCtx_frame)

theorem sumLedger_frame {L : List Block} {s₀ s₁ : State} (i : Slot) (l : Nat) (hK : changesOnly L s₀ s₁)
    (hL : [.ctx] ⊆ L) : changesOnly L s₀ (sumLedger i l s₁) := by
  unfold sumLedger
  repeat' (first
    | with_reducible exact hK
    | with_reducible assumption
    | with_reducible exact List.Subset.trans (by decide) hL
    | with_reducible refine foldl_frame ?_ (fun _ _ _ => ?_)
    | with_reducible refine foldl_fst_frame ?_ (fun _ _ _ => ?_)
    | with_reducible apply modLedger_frame
    | split
    | fail_if_no_progress with_reducible refine changesOnly_lit ?_ ?_ ?_ ?_ ?_ ?_ ?_ ?_ ?_ ?_ ?_ ?_ ?_ ?_ ?_ ?_ ?_ ?_ ?_ ?_ ?_ ?_ ?_ ?_ ?_ ?_ ?_ ?_ ?_ ?_
    | with_reducible exact .inl rfl
    | exact Or.inr (hL (by decide))
    | dsimp only)

theorem chooseLevels_frame {L : List Block} {s₀ s₁ : State} (i : Slot) (c : Chart) (hK : changesOnly L s₀ s₁)
    (hL : [.out, .log, .host, .ctx] ⊆ L) : changesOnly L s₀ (chooseLevels i c s₁) := by
  unfold chooseLevels
  repeat' (first
    | with_reducible exact hK
    | with_reducible assumption
    | with_reducible exact List.Subset.trans (by decide) hL
    | with_reducible refine foldl_frame ?_ (fun _ _ _ => ?_)
    | with_reducible refine foldl_fst_frame ?_ (fun _ _ _ => ?_)
    | with_reducible apply report_frame
    | with_reducible apply modLedger_frame
    | with_reducible refine changesOnly_ite ?_ ?_
    | split
    | fail_if_no_progress with_reducible refine changesOnly_out ?_ (List.Subset.trans (by decide) hL)
    | fail_if_no_progress with_reducible refine changesOnly_log ?_ (List.Subset.trans (by decide) hL)
    | fail_if_no_progress with_reducible refine changesOnly_host ?_ (List.Subset.trans (by decide) hL)
    | fail_if_no_progress with_reducible refine changesOnly_ctx ?_ (List.Subset.trans (by decide) hL)
    | fail_if_no_progress with_reducible refine changesOnly_lit ?_ ?_ ?_ ?_ ?_ ?_ ?_ ?_ ?_ ?_ ?_ ?_ ?_ ?_ ?_ ?_ ?_ ?_ ?_ ?_ ?_ ?_ ?_ ?_ ?_ ?_ ?_ ?_ ?_ ?_
    | with_reducible exact .inl rfl)

theorem addLedger_frame {L : List Block} {s₀ s₁ : State} (i : Slot) (t : TileId) (l : Nat) (w : Work) (hK : changesOnly L s₀ s₁)
    (hL : [.ctx, .tiles] ⊆ L) : changesOnly L s₀ (addLedger i t l w s₁) := by
  unfold addLedger
  repeat' (first
    | with_reducible exact hK
    | with_reducible assumption
    | with_reducible exact List.Subset.trans (by decide) hL
    | with_reducible apply modTile_frame
    | with_reducible apply sumLedger_frame
    | split
    | fail_if_no_progress with_reducible refine changesOnly_lit ?_ ?_ ?_ ?_ ?_ ?_ ?_ ?_ ?_ ?_ ?_ ?_ ?_ ?_ ?_ ?_ ?_ ?_ ?_ ?_ ?_ ?_ ?_ ?_ ?_ ?_ ?_ ?_ ?_ ?_
    | with_reducible exact .inl rfl
    | exact Or.inr (hL (by decide))
    | dsimp only)

theorem noteLevels_frame {L : List Block} {s₀ s₁ : State} (i : Slot) (c : Chart) (q : Cue) (hK : changesOnly L s₀ s₁)
    (hL : [.ctx] ⊆ L) : changesOnly L s₀ (noteLevels i c q s₁) := by
  unfold noteLevels
  repeat' (first
    | with_reducible exact hK
    | with_reducible assumption
    | with_reducible exact List.Subset.trans (by decide) hL
    | with_reducible refine foldl_frame ?_ (fun _ _ _ => ?_)
    | with_reducible refine foldl_fst_frame ?_ (fun _ _ _ => ?_)
    | with_reducible apply modCtx_frame)

theorem arithFaults_frame {L : List Block} {s₀ s₁ : State} (i : Slot) (r : Run) (t : TileId) (q : Cue) (idx : Nat) (w : Work) (hK : changesOnly L s₀ s₁)
    (hL : [.out, .log, .host, .ctx, .installed, .tiles, .links, .selfTest] ⊆ L) : changesOnly L s₀ (arithFaults i r t q idx w s₁) := by
  unfold arithFaults
  repeat' (first
    | with_reducible exact hK
    | with_reducible assumption
    | with_reducible exact List.Subset.trans (by decide) hL
    | with_reducible refine foldl_frame ?_ (fun _ _ _ => ?_)
    | with_reducible refine foldl_fst_frame ?_ (fun _ _ _ => ?_)
    | with_reducible apply faultTile_frame
    | with_reducible apply detect_frame
    | with_reducible apply cueEvent_frame
    | with_reducible apply noteArith_frame
    | split
    | fail_if_no_progress with_reducible refine changesOnly_lit ?_ ?_ ?_ ?_ ?_ ?_ ?_ ?_ ?_ ?_ ?_ ?_ ?_ ?_ ?_ ?_ ?_ ?_ ?_ ?_ ?_ ?_ ?_ ?_ ?_ ?_ ?_ ?_ ?_ ?_
    | with_reducible exact .inl rfl
    | exact Or.inr (hL (by decide))
    | dsimp only)

theorem keepAcc_frame {L : List Block} {s₀ s₁ : State} (r : Run) (t : TileId) (w : Work) (hK : changesOnly L s₀ s₁)
    (hL : [.tiles] ⊆ L) : changesOnly L s₀ (keepAcc r t w s₁) := by
  unfold keepAcc
  repeat' (first
    | with_reducible exact hK
    | with_reducible assumption
    | with_reducible exact List.Subset.trans (by decide) hL
    | with_reducible apply modTile_frame
    | split
    | fail_if_no_progress with_reducible refine changesOnly_lit ?_ ?_ ?_ ?_ ?_ ?_ ?_ ?_ ?_ ?_ ?_ ?_ ?_ ?_ ?_ ?_ ?_ ?_ ?_ ?_ ?_ ?_ ?_ ?_ ?_ ?_ ?_ ?_ ?_ ?_
    | with_reducible exact .inl rfl
    | exact Or.inr (hL (by decide))
    | dsimp only)

theorem reportWork_frame {L : List Block} {s₀ s₁ : State} (i : Slot) (r : Run) (t : TileId) (q : Cue) (idx : Nat) (w : Work) (hK : changesOnly L s₀ s₁)
    (hL : [.out, .log, .host, .ctx, .installed, .tiles, .links, .selfTest] ⊆ L) : changesOnly L s₀ (reportWork i r t q idx w s₁) := by
  unfold reportWork
  repeat' (first
    | with_reducible exact hK
    | with_reducible assumption
    | with_reducible exact List.Subset.trans (by decide) hL
    | with_reducible apply cueCount_frame
    | with_reducible apply addLedger_frame
    | with_reducible apply arithFaults_frame
    | with_reducible apply keepAcc_frame
    | split
    | fail_if_no_progress with_reducible refine changesOnly_lit ?_ ?_ ?_ ?_ ?_ ?_ ?_ ?_ ?_ ?_ ?_ ?_ ?_ ?_ ?_ ?_ ?_ ?_ ?_ ?_ ?_ ?_ ?_ ?_ ?_ ?_ ?_ ?_ ?_ ?_
    | with_reducible exact .inl rfl
    | exact Or.inr (hL (by decide))
    | dsimp only)

theorem modFlight_frame {L : List Block} {s₀ s₁ : State} (t : TileId) (idx : Nat) (g : InFlight → InFlight) (hK : changesOnly L s₀ s₁)
    (hL : [.tiles] ⊆ L) : changesOnly L s₀ (modFlight t idx g s₁) := by
  unfold modFlight
  repeat' (first
    | with_reducible exact hK
    | with_reducible assumption
    | with_reducible exact List.Subset.trans (by decide) hL
    | with_reducible apply modTile_frame
    | split
    | fail_if_no_progress with_reducible refine changesOnly_lit ?_ ?_ ?_ ?_ ?_ ?_ ?_ ?_ ?_ ?_ ?_ ?_ ?_ ?_ ?_ ?_ ?_ ?_ ?_ ?_ ?_ ?_ ?_ ?_ ?_ ?_ ?_ ?_ ?_ ?_
    | with_reducible exact .inl rfl
    | exact Or.inr (hL (by decide))
    | dsimp only)

theorem setRan_frame {L : List Block} {s₀ s₁ : State} (t : TileId) (idx : Nat) (hK : changesOnly L s₀ s₁)
    (hL : [.tiles] ⊆ L) : changesOnly L s₀ (setRan t idx s₁) := by
  unfold setRan
  repeat' (first
    | with_reducible exact hK
    | with_reducible assumption
    | with_reducible exact List.Subset.trans (by decide) hL
    | with_reducible apply modFlight_frame
    | split
    | fail_if_no_progress with_reducible refine changesOnly_lit ?_ ?_ ?_ ?_ ?_ ?_ ?_ ?_ ?_ ?_ ?_ ?_ ?_ ?_ ?_ ?_ ?_ ?_ ?_ ?_ ?_ ?_ ?_ ?_ ?_ ?_ ?_ ?_ ?_ ?_
    | with_reducible exact .inl rfl
    | exact Or.inr (hL (by decide))
    | dsimp only)

theorem finishAttn_frame {L : List Block} {s₀ s₁ : State} (i : Slot) (r : Run) (l : List (TileId × InFlight)) (hK : changesOnly L s₀ s₁)
    (hL : [.out, .log, .host, .ctx, .installed, .tiles, .links, .selfTest, .mem] ⊆ L) : changesOnly L s₀ (finishAttn i r l s₁) := by
  unfold finishAttn
  repeat' (first
    | with_reducible exact hK
    | with_reducible assumption
    | with_reducible exact List.Subset.trans (by decide) hL
    | with_reducible refine foldl_frame ?_ (fun _ _ _ => ?_)
    | with_reducible refine foldl_fst_frame ?_ (fun _ _ _ => ?_)
    | with_reducible apply modTile_frame
    | with_reducible apply noteLevels_frame
    | with_reducible apply reportWork_frame
    | with_reducible apply setRan_frame
    | split
    | fail_if_no_progress with_reducible refine changesOnly_lit ?_ ?_ ?_ ?_ ?_ ?_ ?_ ?_ ?_ ?_ ?_ ?_ ?_ ?_ ?_ ?_ ?_ ?_ ?_ ?_ ?_ ?_ ?_ ?_ ?_ ?_ ?_ ?_ ?_ ?_
    | with_reducible exact .inl rfl
    | exact Or.inr (hL (by decide))
    | dsimp only)

theorem runTogether_frame {L : List Block} {s₀ s₁ : State} (i : Slot) (r : Run) (fault : ArithFault) (own : TileId) (l : List (TileId × InFlight)) (hK : changesOnly L s₀ s₁)
    (hL : [.out, .log, .host, .ctx, .installed, .tiles, .links, .selfTest, .mem] ⊆ L) : changesOnly L s₀ (runTogether i r fault own l s₁) := by
  unfold runTogether
  repeat' (first
    | with_reducible exact hK
    | with_reducible assumption
    | with_reducible exact List.Subset.trans (by decide) hL
    | with_reducible refine foldl_frame ?_ (fun _ _ _ => ?_)
    | with_reducible refine foldl_fst_frame ?_ (fun _ _ _ => ?_)
    | with_reducible apply noteLevels_frame
    | with_reducible apply reportWork_frame
    | with_reducible apply setRan_frame
    | with_reducible apply finishAttn_frame
    | split
    | fail_if_no_progress with_reducible refine changesOnly_lit ?_ ?_ ?_ ?_ ?_ ?_ ?_ ?_ ?_ ?_ ?_ ?_ ?_ ?_ ?_ ?_ ?_ ?_ ?_ ?_ ?_ ?_ ?_ ?_ ?_ ?_ ?_ ?_ ?_ ?_
    | with_reducible exact .inl rfl
    | exact Or.inr (hL (by decide))
    | dsimp only)

theorem startEntry_frame {L : List Block} {s₀ s₁ : State} (i : Slot) (r : Run) (t : TileId) (fault : ArithFault) (n : Nat)
    (hK : changesOnly L s₀ s₁) (hL : [.out, .log, .host, .ctx, .installed, .tiles, .links, .signals, .selfTest, .mem] ⊆ L) : changesOnly L s₀ (startEntry i r t fault n s₁) := by
  induction n generalizing s₁ with
  | zero => exact hK
  | succ n ih =>
    unfold startEntry
    dsimp only
    split
    · exact hK
    · split
      · exact hK
      · rename_i idx q rest _
        have h2 : changesOnly L s₀ (modTile t (fun y => { y with deferred := rest, draining := y.draining.map fun k => k - 1 }) s₁) :=
          modTile_frame _ _ hK (List.Subset.trans (by decide) hL)
        generalize modTile t (fun y => { y with deferred := rest, draining := y.draining.map fun k => k - 1 }) s₁ = u at h2
        split
        · exact ih (signal_frame _ _ _ h2 (List.Subset.trans (by decide) hL))
        · refine reportWork_frame _ _ _ _ _ _ (noteLevels_frame _ _ _ (changesOnly_trans
            (modTile_frame t (fun y => { y with entryRun := some (idx, q) }) h2 (List.Subset.trans (by decide) hL))
            ⟨rfl, fun b hb => ?_⟩)
            (List.Subset.trans (by decide) hL)) (List.Subset.trans (by decide) hL)
          cases b <;> first | exact absurd (hL (by decide)) hb | rfl

theorem modPass_frame {L : List Block} {s₀ s₁ : State} (f : Pass → Pass) (hK : changesOnly L s₀ s₁)
    (hL : [.installed] ⊆ L) : changesOnly L s₀ (modPass f s₁) := by
  unfold modPass
  repeat' (first
    | with_reducible exact hK
    | with_reducible assumption
    | with_reducible exact List.Subset.trans (by decide) hL
    | with_reducible apply modInstalled_frame
    | split
    | fail_if_no_progress with_reducible refine changesOnly_lit ?_ ?_ ?_ ?_ ?_ ?_ ?_ ?_ ?_ ?_ ?_ ?_ ?_ ?_ ?_ ?_ ?_ ?_ ?_ ?_ ?_ ?_ ?_ ?_ ?_ ?_ ?_ ?_ ?_ ?_
    | with_reducible exact .inl rfl
    | exact Or.inr (hL (by decide))
    | dsimp only)

theorem noteClosed_frame {L : List Block} {s₀ s₁ : State}  (hK : changesOnly L s₀ s₁)
    (hL : [.installed] ⊆ L) : changesOnly L s₀ (noteClosed s₁) := by
  unfold noteClosed
  repeat' (first
    | with_reducible exact hK
    | with_reducible assumption
    | with_reducible exact List.Subset.trans (by decide) hL
    | with_reducible apply modPass_frame
    | split
    | fail_if_no_progress with_reducible refine changesOnly_lit ?_ ?_ ?_ ?_ ?_ ?_ ?_ ?_ ?_ ?_ ?_ ?_ ?_ ?_ ?_ ?_ ?_ ?_ ?_ ?_ ?_ ?_ ?_ ?_ ?_ ?_ ?_ ?_ ?_ ?_
    | with_reducible exact .inl rfl
    | exact Or.inr (hL (by decide))
    | dsimp only)

theorem entryDone_frame {L : List Block} {s₀ s₁ : State} (r : Run) (t : TileId) (q : Cue) (fault : ArithFault) (hK : changesOnly L s₀ s₁)
    (hL : [.out, .log, .host, .ctx, .installed, .tiles, .links, .signals, .selfTest, .mem] ⊆ L) : changesOnly L s₀ (entryDone r t q fault s₁) := by
  unfold entryDone
  repeat' (first
    | with_reducible exact hK
    | with_reducible assumption
    | with_reducible exact List.Subset.trans (by decide) hL
    | with_reducible apply modTile_frame
    | with_reducible apply signal_frame
    | with_reducible apply startEntry_frame
    | split
    | fail_if_no_progress with_reducible refine changesOnly_lit ?_ ?_ ?_ ?_ ?_ ?_ ?_ ?_ ?_ ?_ ?_ ?_ ?_ ?_ ?_ ?_ ?_ ?_ ?_ ?_ ?_ ?_ ?_ ?_ ?_ ?_ ?_ ?_ ?_ ?_
    | with_reducible exact .inl rfl
    | exact Or.inr (hL (by decide))
    | dsimp only)

theorem execDeferredEntryComplete_frame {s₁ : State} (e : EntryEnd) :
    ∃ s₂, execDeferredEntryComplete e s₁ = .next s₂ ∧ changesOnly [.out, .log, .host, .ctx, .installed, .tiles, .links, .signals, .selfTest, .mem] s₁ s₂ := by
  have hK : changesOnly [.out, .log, .host, .ctx, .installed, .tiles, .links, .signals, .selfTest, .mem] s₁ s₁ := changesOnly_refl
  have hL : ([.out, .log, .host, .ctx, .installed, .tiles, .links, .signals, .selfTest, .mem] : List Block) ⊆ [.out, .log, .host, .ctx, .installed, .tiles, .links, .signals, .selfTest, .mem] := List.Subset.refl _
  refine ⟨_, rfl, ?_⟩
  repeat' (first
    | with_reducible exact hK
    | with_reducible assumption
    | with_reducible exact List.Subset.trans (by decide) hL
    | with_reducible apply noteClosed_frame
    | with_reducible apply entryDone_frame
    | split
    | fail_if_no_progress with_reducible refine changesOnly_lit ?_ ?_ ?_ ?_ ?_ ?_ ?_ ?_ ?_ ?_ ?_ ?_ ?_ ?_ ?_ ?_ ?_ ?_ ?_ ?_ ?_ ?_ ?_ ?_ ?_ ?_ ?_ ?_ ?_ ?_
    | with_reducible exact .inl rfl
    | exact Or.inr (hL (by decide))
    | dsimp only)

theorem recvCopy_frame {L : List Block} {s₀ s₁ : State} (i : Slot) (r : Run) (t : TileId) (q : Cue)
    (hK : changesOnly L s₀ s₁) (hL : [.mem] ⊆ L) : changesOnly L s₀ (recvCopy i r t q s₁) := by
  unfold recvCopy
  dsimp only
  split
  · exact hK
  · exact changesOnly_trans hK ⟨rfl, fun b hb => by cases b <;> first | exact absurd (hL (by decide)) hb | rfl⟩

theorem sendOne_frame {L : List Block} {s₀ s₁ : State} (i : Slot) (q : Cue) (x : Placement × Placement)
    (hK : changesOnly L s₀ s₁) (hL : [.installed, .mem] ⊆ L) : changesOnly L s₀ (sendOne i q x s₁) :=
  iteInduction (fun _ => modPass_frame _ hK (List.Subset.trans (by decide) hL))
    fun _ => modPass_frame _ (changesOnly_trans hK
      ⟨rfl, fun b hb => by cases b <;> first | exact absurd (hL (by decide)) hb | rfl⟩) (List.Subset.trans (by decide) hL)

theorem sendCopy_frame {L : List Block} {s₀ s₁ : State} (i : Slot) (r : Run) (t : TileId) (q : Cue) (hK : changesOnly L s₀ s₁)
    (hL : [.installed, .mem] ⊆ L) : changesOnly L s₀ (sendCopy i r t q s₁) := by
  unfold sendCopy
  repeat' (first
    | with_reducible exact hK
    | with_reducible assumption
    | with_reducible exact List.Subset.trans (by decide) hL
    | with_reducible refine foldl_frame ?_ (fun _ _ _ => ?_)
    | with_reducible refine foldl_fst_frame ?_ (fun _ _ _ => ?_)
    | with_reducible apply sendOne_frame
    | split
    | fail_if_no_progress with_reducible refine changesOnly_lit ?_ ?_ ?_ ?_ ?_ ?_ ?_ ?_ ?_ ?_ ?_ ?_ ?_ ?_ ?_ ?_ ?_ ?_ ?_ ?_ ?_ ?_ ?_ ?_ ?_ ?_ ?_ ?_ ?_ ?_
    | with_reducible exact .inl rfl
    | exact Or.inr (hL (by decide))
    | dsimp only)

theorem laySlice_frame {L : List Block} {s₀ s₁ : State} (i : Slot) (r : Run) (m : Model) (t : TileId) (l : Nat) (ids : List Nat) (table : List (Nat × Nat)) (hK : changesOnly L s₀ s₁)
    (hL : [.tiles, .mem] ⊆ L) : changesOnly L s₀ (laySlice i r m t l ids table s₁) := by
  unfold laySlice
  repeat' (first
    | with_reducible exact hK
    | with_reducible assumption
    | with_reducible exact List.Subset.trans (by decide) hL
    | with_reducible refine foldl_frame ?_ (fun _ _ _ => ?_)
    | with_reducible refine foldl_fst_frame ?_ (fun _ _ _ => ?_)
    | with_reducible apply modTile_frame
    | with_reducible apply unpackShard_frame
    | split
    | fail_if_no_progress with_reducible refine changesOnly_lit ?_ ?_ ?_ ?_ ?_ ?_ ?_ ?_ ?_ ?_ ?_ ?_ ?_ ?_ ?_ ?_ ?_ ?_ ?_ ?_ ?_ ?_ ?_ ?_ ?_ ?_ ?_ ?_ ?_ ?_
    | with_reducible exact .inl rfl
    | exact Or.inr (hL (by decide))
    | dsimp only)

theorem pinCopy_frame {L : List Block} {s₀ s₁ : State} (i : Slot) (r : Run) (m : Model) (t : TileId) (f : InFlight) (hK : changesOnly L s₀ s₁)
    (hL : [.tiles, .mem] ⊆ L) : changesOnly L s₀ (pinCopy i r m t f s₁) := by
  unfold pinCopy
  repeat' (first
    | with_reducible exact hK
    | with_reducible assumption
    | with_reducible exact List.Subset.trans (by decide) hL
    | with_reducible apply laySlice_frame
    | split
    | fail_if_no_progress with_reducible refine changesOnly_lit ?_ ?_ ?_ ?_ ?_ ?_ ?_ ?_ ?_ ?_ ?_ ?_ ?_ ?_ ?_ ?_ ?_ ?_ ?_ ?_ ?_ ?_ ?_ ?_ ?_ ?_ ?_ ?_ ?_ ?_
    | with_reducible exact .inl rfl
    | exact Or.inr (hL (by decide))
    | dsimp only)

theorem openPhaseOf_frame {L : List Block} {s₀ s₁ : State} (q : Cue) (hK : changesOnly L s₀ s₁)
    (hL : [.installed, .thermal] ⊆ L) : changesOnly L s₀ (openPhaseOf q s₁) := by
  unfold openPhaseOf
  repeat' (first
    | with_reducible exact hK
    | with_reducible assumption
    | with_reducible exact List.Subset.trans (by decide) hL
    | with_reducible apply modInstalled_frame
    | with_reducible refine changesOnly_ite ?_ ?_
    | split
    | fail_if_no_progress with_reducible refine changesOnly_installed ?_ (List.Subset.trans (by decide) hL)
    | fail_if_no_progress with_reducible refine changesOnly_thermal ?_ (List.Subset.trans (by decide) hL)
    | fail_if_no_progress with_reducible refine changesOnly_lit ?_ ?_ ?_ ?_ ?_ ?_ ?_ ?_ ?_ ?_ ?_ ?_ ?_ ?_ ?_ ?_ ?_ ?_ ?_ ?_ ?_ ?_ ?_ ?_ ?_ ?_ ?_ ?_ ?_ ?_
    | with_reducible exact .inl rfl
    | exact Or.inr (hL (by decide)))

theorem passGate_frame {L : List Block} {s₀ s₁ : State} (r : Run) (t : TileId) (idx : Nat) (q : Cue) (hK : changesOnly L s₀ s₁)
    (hL : [.installed, .tiles] ⊆ L) : changesOnly L s₀ (passGate r t idx q s₁) := by
  unfold passGate
  repeat' (first
    | with_reducible exact hK
    | with_reducible assumption
    | with_reducible exact List.Subset.trans (by decide) hL
    | with_reducible apply modTile_frame
    | with_reducible apply modPass_frame
    | split
    | fail_if_no_progress with_reducible refine changesOnly_lit ?_ ?_ ?_ ?_ ?_ ?_ ?_ ?_ ?_ ?_ ?_ ?_ ?_ ?_ ?_ ?_ ?_ ?_ ?_ ?_ ?_ ?_ ?_ ?_ ?_ ?_ ?_ ?_ ?_ ?_
    | with_reducible exact .inl rfl
    | exact Or.inr (hL (by decide))
    | dsimp only)

theorem askShards_frame {L : List Block} {s₀ s₁ : State} (i : Slot) (r : Run) (l : Nat) (hK : changesOnly L s₀ s₁)
    (hL : [.out, .ctx, .ports] ⊆ L) : changesOnly L s₀ (askShards i r l s₁) := by
  unfold askShards
  repeat' (first
    | with_reducible exact hK
    | with_reducible assumption
    | with_reducible exact List.Subset.trans (by decide) hL
    | with_reducible apply refetchLayer_frame
    | split
    | fail_if_no_progress with_reducible refine changesOnly_lit ?_ ?_ ?_ ?_ ?_ ?_ ?_ ?_ ?_ ?_ ?_ ?_ ?_ ?_ ?_ ?_ ?_ ?_ ?_ ?_ ?_ ?_ ?_ ?_ ?_ ?_ ?_ ?_ ?_ ?_
    | with_reducible exact .inl rfl
    | exact Or.inr (hL (by decide))
    | dsimp only)

theorem moverEffect_frame {L : List Block} {s₀ s₁ : State} (i : Slot) (r : Run) (t : TileId) (q : Cue) (idx : Nat) (hK : changesOnly L s₀ s₁)
    (hL : [.out, .log, .host, .ctx, .installed, .tiles, .signals, .mem, .ports, .coll] ⊆ L) : changesOnly L s₀ (moverEffect i r t q idx s₁) := by
  unfold moverEffect
  repeat' (first
    | with_reducible exact hK
    | with_reducible assumption
    | with_reducible exact List.Subset.trans (by decide) hL
    | with_reducible apply streamLayer_frame
    | with_reducible apply sendWire_frame
    | with_reducible apply noteLevels_frame
    | with_reducible apply setRan_frame
    | with_reducible apply recvCopy_frame
    | with_reducible apply sendCopy_frame
    | with_reducible apply askShards_frame
    | split
    | fail_if_no_progress with_reducible refine changesOnly_lit ?_ ?_ ?_ ?_ ?_ ?_ ?_ ?_ ?_ ?_ ?_ ?_ ?_ ?_ ?_ ?_ ?_ ?_ ?_ ?_ ?_ ?_ ?_ ?_ ?_ ?_ ?_ ?_ ?_ ?_
    | with_reducible exact .inl rfl
    | exact Or.inr (hL (by decide))
    | dsimp only)

theorem drainIssue_frame {L : List Block} {s₀ s₁ : State} (i : Slot) (r : Run) (t : TileId) (q : Cue) (fault : ArithFault) (hK : changesOnly L s₀ s₁)
    (hL : [.out, .log, .host, .ctx, .installed, .tiles, .links, .signals, .selfTest, .mem] ⊆ L) : changesOnly L s₀ (drainIssue i r t q fault s₁) := by
  unfold drainIssue
  repeat' (first
    | with_reducible exact hK
    | with_reducible assumption
    | with_reducible exact List.Subset.trans (by decide) hL
    | with_reducible apply modTile_frame
    | with_reducible apply startEntry_frame
    | split
    | fail_if_no_progress with_reducible refine changesOnly_lit ?_ ?_ ?_ ?_ ?_ ?_ ?_ ?_ ?_ ?_ ?_ ?_ ?_ ?_ ?_ ?_ ?_ ?_ ?_ ?_ ?_ ?_ ?_ ?_ ?_ ?_ ?_ ?_ ?_ ?_
    | with_reducible exact .inl rfl
    | exact Or.inr (hL (by decide))
    | dsimp only)

theorem wakeIssue_frame {L : List Block} {s₀ s₁ : State} (q : Cue) (hK : changesOnly L s₀ s₁)
    (hL : [.dies] ⊆ L) : changesOnly L s₀ (wakeIssue q s₁) := by
  unfold wakeIssue
  repeat' (first
    | with_reducible exact hK
    | with_reducible assumption
    | with_reducible exact List.Subset.trans (by decide) hL
    | with_reducible apply modDie_frame
    | with_reducible refine changesOnly_ite ?_ ?_
    | split)

theorem attnIssue_frame {L : List Block} {s₀ s₁ : State} (i : Slot) (r : Run) (t : TileId) (q : Cue) (idx : Nat) (fault : ArithFault) (hK : changesOnly L s₀ s₁)
    (hL : [.out, .log, .host, .ctx, .installed, .tiles, .links, .selfTest, .mem] ⊆ L) : changesOnly L s₀ (attnIssue i r t q idx fault s₁) := by
  unfold attnIssue
  repeat' (first
    | with_reducible exact hK
    | with_reducible assumption
    | with_reducible exact List.Subset.trans (by decide) hL
    | with_reducible apply modTile_frame
    | with_reducible apply reportWork_frame
    | with_reducible apply modFlight_frame
    | split
    | fail_if_no_progress with_reducible refine changesOnly_lit ?_ ?_ ?_ ?_ ?_ ?_ ?_ ?_ ?_ ?_ ?_ ?_ ?_ ?_ ?_ ?_ ?_ ?_ ?_ ?_ ?_ ?_ ?_ ?_ ?_ ?_ ?_ ?_ ?_ ?_
    | with_reducible exact .inl rfl
    | exact Or.inr (hL (by decide))
    | dsimp only)

theorem computeIssue_frame {L : List Block} {s₀ s₁ : State} (i : Slot) (r : Run) (t : TileId) (q : Cue) (idx : Nat) (fault : ArithFault) (hK : changesOnly L s₀ s₁)
    (hL : [.out, .log, .host, .ctx, .installed, .tiles, .links, .selfTest, .mem] ⊆ L) : changesOnly L s₀ (computeIssue i r t q idx fault s₁) := by
  unfold computeIssue
  repeat' (first
    | with_reducible exact hK
    | with_reducible assumption
    | with_reducible exact List.Subset.trans (by decide) hL
    | with_reducible apply noteLevels_frame
    | with_reducible apply reportWork_frame
    | with_reducible apply setRan_frame
    | with_reducible apply runTogether_frame
    | with_reducible apply attnIssue_frame
    | split
    | fail_if_no_progress with_reducible refine changesOnly_lit ?_ ?_ ?_ ?_ ?_ ?_ ?_ ?_ ?_ ?_ ?_ ?_ ?_ ?_ ?_ ?_ ?_ ?_ ?_ ?_ ?_ ?_ ?_ ?_ ?_ ?_ ?_ ?_ ?_ ?_
    | with_reducible exact .inl rfl
    | exact Or.inr (hL (by decide))
    | dsimp only)

theorem issueEffect_frame {L : List Block} {s₀ s₁ : State} (i : Slot) (r : Run) (t : TileId) (q : Cue) (idx : Nat) (fault : ArithFault) (hK : changesOnly L s₀ s₁)
    (hL : [.out, .log, .host, .ctx, .installed, .tiles, .dies, .links, .signals, .selfTest, .mem, .ports, .coll] ⊆ L) : changesOnly L s₀ (issueEffect i r t q idx fault s₁) := by
  unfold issueEffect
  repeat' (first
    | with_reducible exact hK
    | with_reducible assumption
    | with_reducible exact List.Subset.trans (by decide) hL
    | with_reducible apply moverEffect_frame
    | with_reducible apply drainIssue_frame
    | with_reducible apply wakeIssue_frame
    | with_reducible apply computeIssue_frame
    | split
    | fail_if_no_progress with_reducible refine changesOnly_lit ?_ ?_ ?_ ?_ ?_ ?_ ?_ ?_ ?_ ?_ ?_ ?_ ?_ ?_ ?_ ?_ ?_ ?_ ?_ ?_ ?_ ?_ ?_ ?_ ?_ ?_ ?_ ?_ ?_ ?_
    | with_reducible exact .inl rfl
    | exact Or.inr (hL (by decide))
    | dsimp only)

theorem useVregs_frame {L : List Block} {s₀ s₁ : State} (t : TileId) (q : Cue) (hK : changesOnly L s₀ s₁)
    (hL : [.free, .tiles] ⊆ L) : changesOnly L s₀ (useVregs t q s₁) := by
  unfold useVregs
  repeat' (first
    | with_reducible exact hK
    | with_reducible assumption
    | with_reducible exact List.Subset.trans (by decide) hL
    | with_reducible apply modTile_frame
    | with_reducible apply drawNext_frame
    | split
    | fail_if_no_progress with_reducible refine changesOnly_lit ?_ ?_ ?_ ?_ ?_ ?_ ?_ ?_ ?_ ?_ ?_ ?_ ?_ ?_ ?_ ?_ ?_ ?_ ?_ ?_ ?_ ?_ ?_ ?_ ?_ ?_ ?_ ?_ ?_ ?_
    | with_reducible exact .inl rfl
    | exact Or.inr (hL (by decide))
    | dsimp only)

theorem issueCue_frame {L : List Block} {s₀ s₁ : State} (r : Run) (t : TileId) (q : Cue) (ecc : EccFinding) (fault : ArithFault) (hK : changesOnly L s₀ s₁)
    (hL : [.free, .out, .log, .host, .ctx, .loader, .installed, .tiles, .dies, .links, .signals, .selfTest, .mem, .thermal, .ports, .coll] ⊆ L) : changesOnly L s₀ (issueCue r t q ecc fault s₁) := by
  unfold issueCue
  repeat' (first
    | with_reducible exact hK
    | with_reducible assumption
    | with_reducible exact List.Subset.trans (by decide) hL
    | with_reducible apply modTile_frame
    | with_reducible apply endPass_frame
    | with_reducible apply meetError_frame
    | with_reducible apply openPhaseOf_frame
    | with_reducible apply passGate_frame
    | with_reducible apply issueEffect_frame
    | with_reducible apply useVregs_frame
    | split
    | fail_if_no_progress with_reducible refine changesOnly_lit ?_ ?_ ?_ ?_ ?_ ?_ ?_ ?_ ?_ ?_ ?_ ?_ ?_ ?_ ?_ ?_ ?_ ?_ ?_ ?_ ?_ ?_ ?_ ?_ ?_ ?_ ?_ ?_ ?_ ?_
    | with_reducible exact .inl rfl
    | exact Or.inr (hL (by decide))
    | dsimp only)

theorem execCueIssue_frame {s₁ : State} (t : TileId) (ecc : EccFinding) (fault : ArithFault) :
    ∃ s₂, execCueIssue t ecc fault s₁ = .next s₂ ∧ changesOnly [.free, .out, .log, .host, .ctx, .loader, .installed, .tiles, .dies, .links, .signals, .selfTest, .mem, .thermal, .ports, .coll] s₁ s₂ := by
  have hK : changesOnly [.free, .out, .log, .host, .ctx, .loader, .installed, .tiles, .dies, .links, .signals, .selfTest, .mem, .thermal, .ports, .coll] s₁ s₁ := changesOnly_refl
  have hL : ([.free, .out, .log, .host, .ctx, .loader, .installed, .tiles, .dies, .links, .signals, .selfTest, .mem, .thermal, .ports, .coll] : List Block) ⊆ [.free, .out, .log, .host, .ctx, .loader, .installed, .tiles, .dies, .links, .signals, .selfTest, .mem, .thermal, .ports, .coll] := List.Subset.refl _
  refine ⟨_, rfl, ?_⟩
  repeat' (first
    | with_reducible exact hK
    | with_reducible assumption
    | with_reducible exact List.Subset.trans (by decide) hL
    | with_reducible apply issueCue_frame
    | split
    | fail_if_no_progress with_reducible refine changesOnly_lit ?_ ?_ ?_ ?_ ?_ ?_ ?_ ?_ ?_ ?_ ?_ ?_ ?_ ?_ ?_ ?_ ?_ ?_ ?_ ?_ ?_ ?_ ?_ ?_ ?_ ?_ ?_ ?_ ?_ ?_
    | with_reducible exact .inl rfl
    | exact Or.inr (hL (by decide))
    | dsimp only)

theorem execPrompterWaitLong_frame {s₁ : State} (t : TileId) :
    ∃ s₂, execPrompterWaitLong t s₁ = .next s₂ ∧ changesOnly [.out, .log, .host, .tiles] s₁ s₂ := by
  have hK : changesOnly [.out, .log, .host, .tiles] s₁ s₁ := changesOnly_refl
  have hL : ([.out, .log, .host, .tiles] : List Block) ⊆ [.out, .log, .host, .tiles] := List.Subset.refl _
  refine ⟨_, rfl, ?_⟩
  repeat' (first
    | with_reducible exact hK
    | with_reducible assumption
    | with_reducible exact List.Subset.trans (by decide) hL
    | with_reducible apply modTile_frame
    | with_reducible apply cueEvent_frame
    | with_reducible refine changesOnly_ite ?_ ?_
    | split)

theorem wakeTiles_frame {L : List Block} {s₀ s₁ : State} (r : Run) (q : Cue) (hK : changesOnly L s₀ s₁)
    (hL : [.out, .tiles, .links] ⊆ L) : changesOnly L s₀ (wakeTiles r q s₁) := by
  unfold wakeTiles
  repeat' (first
    | with_reducible exact hK
    | with_reducible assumption
    | with_reducible exact List.Subset.trans (by decide) hL
    | with_reducible refine foldl_frame ?_ (fun _ _ _ => ?_)
    | with_reducible refine foldl_fst_frame ?_ (fun _ _ _ => ?_)
    | with_reducible apply wakeTile_frame
    | split
    | fail_if_no_progress with_reducible refine changesOnly_lit ?_ ?_ ?_ ?_ ?_ ?_ ?_ ?_ ?_ ?_ ?_ ?_ ?_ ?_ ?_ ?_ ?_ ?_ ?_ ?_ ?_ ?_ ?_ ?_ ?_ ?_ ?_ ?_ ?_ ?_
    | with_reducible exact .inl rfl
    | exact Or.inr (hL (by decide))
    | dsimp only)

theorem sleepTile_frame {L : List Block} {s₀ s₁ : State} (t : TileId) (q : Cue) (hK : changesOnly L s₀ s₁)
    (hL : [.tiles, .dies, .mem] ⊆ L) : changesOnly L s₀ (sleepTile t q s₁) := by
  unfold sleepTile
  repeat' (first
    | with_reducible exact hK
    | with_reducible assumption
    | with_reducible exact List.Subset.trans (by decide) hL
    | with_reducible apply modTile_frame
    | with_reducible apply railsDown_frame
    | with_reducible refine changesOnly_ite ?_ ?_
    | split
    | fail_if_no_progress with_reducible refine changesOnly_tiles ?_ (List.Subset.trans (by decide) hL)
    | fail_if_no_progress with_reducible refine changesOnly_dies ?_ (List.Subset.trans (by decide) hL)
    | fail_if_no_progress with_reducible refine changesOnly_mem ?_ (List.Subset.trans (by decide) hL)
    | fail_if_no_progress with_reducible refine changesOnly_lit ?_ ?_ ?_ ?_ ?_ ?_ ?_ ?_ ?_ ?_ ?_ ?_ ?_ ?_ ?_ ?_ ?_ ?_ ?_ ?_ ?_ ?_ ?_ ?_ ?_ ?_ ?_ ?_ ?_ ?_
    | with_reducible exact .inl rfl)

theorem formPatches_frame {L : List Block} {s₀ s₁ : State} (i : Slot) (r : Run) (q : Cue) (hK : changesOnly L s₀ s₁)
    (hL : [.out, .ctx, .ports, .coll] ⊆ L) : changesOnly L s₀ (formPatches i r q s₁) := by
  unfold formPatches
  repeat' (first
    | with_reducible exact hK
    | with_reducible assumption
    | with_reducible exact List.Subset.trans (by decide) hL
    | with_reducible apply modRed_frame
    | with_reducible apply flushPatches_frame
    | with_reducible refine changesOnly_ite ?_ ?_
    | split
    | fail_if_no_progress with_reducible refine changesOnly_out ?_ (List.Subset.trans (by decide) hL)
    | fail_if_no_progress with_reducible refine changesOnly_ctx ?_ (List.Subset.trans (by decide) hL)
    | fail_if_no_progress with_reducible refine changesOnly_ports ?_ (List.Subset.trans (by decide) hL)
    | fail_if_no_progress with_reducible refine changesOnly_coll ?_ (List.Subset.trans (by decide) hL)
    | fail_if_no_progress with_reducible refine changesOnly_lit ?_ ?_ ?_ ?_ ?_ ?_ ?_ ?_ ?_ ?_ ?_ ?_ ?_ ?_ ?_ ?_ ?_ ?_ ?_ ?_ ?_ ?_ ?_ ?_ ?_ ?_ ?_ ?_ ?_ ?_
    | with_reducible exact .inl rfl)

theorem doneEffect_frame {L : List Block} {s₀ s₁ : State} (i : Slot) (r : Run) (t : TileId) (f : InFlight)
    (hK : changesOnly L s₀ s₁) (hL : [.out, .ctx, .tiles, .dies, .links, .mem, .ports, .coll] ⊆ L) : changesOnly L s₀ (doneEffect i r t f s₁) := by
  unfold doneEffect
  dsimp only
  split
  · split
    · split
      · exact pinCopy_frame _ _ _ _ _ hK (List.Subset.trans (by decide) hL)
      · exact hK
    · exact hK
  split
  · split
    · exact hK
    · exact noteLevels_frame _ _ _ (recvCopy_frame _ _ _ _ hK (List.Subset.trans (by decide) hL))
        (List.Subset.trans (by decide) hL)
  split
  · exact wakeTiles_frame _ _ hK (List.Subset.trans (by decide) hL)
  split
  · exact sleepTile_frame _ _ hK (List.Subset.trans (by decide) hL)
  split
  · exact modTile_frame _ _ hK (List.Subset.trans (by decide) hL)
  split
  · exact formPatches_frame _ _ _ hK (List.Subset.trans (by decide) hL)
  · exact hK

theorem completeCue_frame {L : List Block} {s₀ s₁ : State} (r : Run) (t : TileId) (f : InFlight) (ecc : EccFinding)
    (hK : changesOnly L s₀ s₁) (hL : [.out, .log, .host, .ctx, .loader, .installed, .tiles, .dies, .links, .signals, .selfTest, .mem, .ports, .coll] ⊆ L) : changesOnly L s₀ (completeCue r t f ecc s₁) := by
  have h1 : changesOnly L s₀ (modTile t (freeUnits f.index) s₁) :=
    modTile_frame _ _ hK (List.Subset.trans (by decide) hL)
  exact meetError_frame ecc true (signal_frame r t f.cue (doneEffect_frame r.pass.slot r t f h1
    (List.Subset.trans (by decide) hL)) (List.Subset.trans (by decide) hL)) (List.Subset.trans (by decide) hL)

theorem execCueComplete_frame {s₁ : State} (t : TileId) (index : Nat) (ecc : EccFinding) :
    ∃ s₂, execCueComplete t index ecc s₁ = .next s₂ ∧ changesOnly [.out, .log, .host, .ctx, .loader, .installed, .tiles, .dies, .links, .signals, .selfTest, .mem, .ports, .coll] s₁ s₂ := by
  have hK : changesOnly [.out, .log, .host, .ctx, .loader, .installed, .tiles, .dies, .links, .signals, .selfTest, .mem, .ports, .coll] s₁ s₁ := changesOnly_refl
  have hL : ([.out, .log, .host, .ctx, .loader, .installed, .tiles, .dies, .links, .signals, .selfTest, .mem, .ports, .coll] : List Block) ⊆ [.out, .log, .host, .ctx, .loader, .installed, .tiles, .dies, .links, .signals, .selfTest, .mem, .ports, .coll] := List.Subset.refl _
  refine ⟨_, rfl, ?_⟩
  repeat' (first
    | with_reducible exact hK
    | with_reducible assumption
    | with_reducible exact List.Subset.trans (by decide) hL
    | with_reducible apply sendWire_frame
    | with_reducible apply noteClosed_frame
    | with_reducible apply completeCue_frame
    | split
    | fail_if_no_progress with_reducible refine changesOnly_lit ?_ ?_ ?_ ?_ ?_ ?_ ?_ ?_ ?_ ?_ ?_ ?_ ?_ ?_ ?_ ?_ ?_ ?_ ?_ ?_ ?_ ?_ ?_ ?_ ?_ ?_ ?_ ?_ ?_ ?_
    | with_reducible exact .inl rfl
    | exact Or.inr (hL (by decide))
    | dsimp only)

theorem enterTiles_frame {L : List Block} {s₀ s₁ : State} (c : Chart) (x : Installed) (entry : Nat) (hK : changesOnly L s₀ s₁)
    (hL : [.tiles] ⊆ L) : changesOnly L s₀ (enterTiles c x entry s₁) := by
  unfold enterTiles
  repeat' (first
    | with_reducible exact hK
    | with_reducible assumption
    | with_reducible exact List.Subset.trans (by decide) hL
    | with_reducible refine foldl_frame ?_ (fun _ _ _ => ?_)
    | with_reducible refine foldl_fst_frame ?_ (fun _ _ _ => ?_)
    | with_reducible apply modTile_frame)

theorem beginPass_frame {L : List Block} {s₀ s₁ : State} (i : Slot) (cmd : Cmd) (entry : Nat) (step : BitVec 32) (x : Installed) (c : Chart) (hK : changesOnly L s₀ s₁)
    (hL : [.ctx, .installed, .tiles, .signals, .coll] ⊆ L) : changesOnly L s₀ (beginPass i cmd entry step x c s₁) := by
  unfold beginPass
  repeat' (first
    | with_reducible exact hK
    | with_reducible assumption
    | with_reducible exact List.Subset.trans (by decide) hL
    | with_reducible refine foldl_frame ?_ (fun _ _ _ => ?_)
    | with_reducible refine foldl_fst_frame ?_ (fun _ _ _ => ?_)
    | with_reducible apply modCtx_frame
    | with_reducible apply modInstalled_frame
    | with_reducible apply sendSignals_frame
    | with_reducible apply enterTiles_frame
    | with_reducible refine changesOnly_ite ?_ ?_
    | split
    | fail_if_no_progress with_reducible refine changesOnly_ctx ?_ (List.Subset.trans (by decide) hL)
    | fail_if_no_progress with_reducible refine changesOnly_installed ?_ (List.Subset.trans (by decide) hL)
    | fail_if_no_progress with_reducible refine changesOnly_tiles ?_ (List.Subset.trans (by decide) hL)
    | fail_if_no_progress with_reducible refine changesOnly_signals ?_ (List.Subset.trans (by decide) hL)
    | fail_if_no_progress with_reducible refine changesOnly_coll ?_ (List.Subset.trans (by decide) hL)
    | fail_if_no_progress with_reducible refine changesOnly_lit ?_ ?_ ?_ ?_ ?_ ?_ ?_ ?_ ?_ ?_ ?_ ?_ ?_ ?_ ?_ ?_ ?_ ?_ ?_ ?_ ?_ ?_ ?_ ?_ ?_ ?_ ?_ ?_ ?_ ?_
    | with_reducible exact .inl rfl
    | exact Or.inr (hL (by decide)))

theorem passStart_frame {L : List Block} {s₀ s₁ : State} (i : Slot) (q : QId) (r : Ready) (hK : changesOnly L s₀ s₁)
    (hL : [.out, .log, .host, .ctx, .installed, .tiles, .signals, .coll] ⊆ L) : changesOnly L s₀ (passStart i q r s₁) := by
  unfold passStart
  repeat' (first
    | with_reducible exact hK
    | with_reducible assumption
    | with_reducible exact List.Subset.trans (by decide) hL
    | with_reducible apply refuseStart_frame
    | with_reducible apply beginPass_frame
    | with_reducible refine changesOnly_ite ?_ ?_
    | split
    | fail_if_no_progress with_reducible refine changesOnly_out ?_ (List.Subset.trans (by decide) hL)
    | fail_if_no_progress with_reducible refine changesOnly_log ?_ (List.Subset.trans (by decide) hL)
    | fail_if_no_progress with_reducible refine changesOnly_host ?_ (List.Subset.trans (by decide) hL)
    | fail_if_no_progress with_reducible refine changesOnly_ctx ?_ (List.Subset.trans (by decide) hL)
    | fail_if_no_progress with_reducible refine changesOnly_installed ?_ (List.Subset.trans (by decide) hL)
    | fail_if_no_progress with_reducible refine changesOnly_tiles ?_ (List.Subset.trans (by decide) hL)
    | fail_if_no_progress with_reducible refine changesOnly_signals ?_ (List.Subset.trans (by decide) hL)
    | fail_if_no_progress with_reducible refine changesOnly_coll ?_ (List.Subset.trans (by decide) hL)
    | fail_if_no_progress with_reducible refine changesOnly_lit ?_ ?_ ?_ ?_ ?_ ?_ ?_ ?_ ?_ ?_ ?_ ?_ ?_ ?_ ?_ ?_ ?_ ?_ ?_ ?_ ?_ ?_ ?_ ?_ ?_ ?_ ?_ ?_ ?_ ?_
    | with_reducible exact .inl rfl)

theorem execRunPass_frame {s₁ : State} (i : Slot) (q : QId) :
    ∃ s₂, execRunPass i q s₁ = .next s₂ ∧ changesOnly [.out, .log, .host, .ctx, .installed, .tiles, .signals, .coll] s₁ s₂ := by
  have hK : changesOnly [.out, .log, .host, .ctx, .installed, .tiles, .signals, .coll] s₁ s₁ := changesOnly_refl
  have hL : ([.out, .log, .host, .ctx, .installed, .tiles, .signals, .coll] : List Block) ⊆ [.out, .log, .host, .ctx, .installed, .tiles, .signals, .coll] := List.Subset.refl _
  refine ⟨_, rfl, ?_⟩
  repeat' (first
    | with_reducible exact hK
    | with_reducible assumption
    | with_reducible exact List.Subset.trans (by decide) hL
    | with_reducible refine startRow_frame _ _ _ ?_ (fun _ _ _ => ?_) ?_
    | with_reducible apply passStart_frame)

theorem finishPass_frame {L : List Block} {s₀ s₁ : State} (r : Run) (hK : changesOnly L s₀ s₁)
    (hL : [.out, .log, .host, .ctx, .installed, .tiles, .signals] ⊆ L) : changesOnly L s₀ (finishPass r s₁) := by
  unfold finishPass
  repeat' (first
    | with_reducible exact hK
    | with_reducible assumption
    | with_reducible exact List.Subset.trans (by decide) hL
    | with_reducible apply modCtx_frame
    | with_reducible apply mapTiles_frame
    | with_reducible apply modInstalled_frame
    | with_reducible apply completeCmd_frame
    | with_reducible apply chooseLevels_frame
    | with_reducible refine changesOnly_ite ?_ ?_
    | split
    | fail_if_no_progress with_reducible refine changesOnly_out ?_ (List.Subset.trans (by decide) hL)
    | fail_if_no_progress with_reducible refine changesOnly_log ?_ (List.Subset.trans (by decide) hL)
    | fail_if_no_progress with_reducible refine changesOnly_host ?_ (List.Subset.trans (by decide) hL)
    | fail_if_no_progress with_reducible refine changesOnly_ctx ?_ (List.Subset.trans (by decide) hL)
    | fail_if_no_progress with_reducible refine changesOnly_installed ?_ (List.Subset.trans (by decide) hL)
    | fail_if_no_progress with_reducible refine changesOnly_tiles ?_ (List.Subset.trans (by decide) hL)
    | fail_if_no_progress with_reducible refine changesOnly_signals ?_ (List.Subset.trans (by decide) hL)
    | fail_if_no_progress with_reducible refine changesOnly_lit ?_ ?_ ?_ ?_ ?_ ?_ ?_ ?_ ?_ ?_ ?_ ?_ ?_ ?_ ?_ ?_ ?_ ?_ ?_ ?_ ?_ ?_ ?_ ?_ ?_ ?_ ?_ ?_ ?_ ?_
    | with_reducible exact .inl rfl
    | exact Or.inr (hL (by decide)))

theorem execPassComplete_frame {s₁ : State}  :
    ∃ s₂, execPassComplete s₁ = .next s₂ ∧ changesOnly [.out, .log, .host, .ctx, .installed, .tiles, .signals] s₁ s₂ := by
  have hK : changesOnly [.out, .log, .host, .ctx, .installed, .tiles, .signals] s₁ s₁ := changesOnly_refl
  have hL : ([.out, .log, .host, .ctx, .installed, .tiles, .signals] : List Block) ⊆ [.out, .log, .host, .ctx, .installed, .tiles, .signals] := List.Subset.refl _
  refine ⟨_, rfl, ?_⟩
  repeat' (first
    | with_reducible exact hK
    | with_reducible assumption
    | with_reducible exact List.Subset.trans (by decide) hL
    | with_reducible apply finishPass_frame
    | with_reducible refine changesOnly_ite ?_ ?_
    | split)

theorem failPass_frame {L : List Block} {s₀ s₁ : State} (r : Run) (code : Code) (l : Nat) (hK : changesOnly L s₀ s₁)
    (hL : [.out, .log, .host, .ctx, .installed, .tiles, .links, .signals] ⊆ L) : changesOnly L s₀ (failPass r code l s₁) := by
  unfold failPass
  repeat' (first
    | with_reducible exact hK
    | with_reducible assumption
    | with_reducible exact List.Subset.trans (by decide) hL
    | with_reducible apply endPass_frame
    | with_reducible apply cueEvent_frame
    | split
    | fail_if_no_progress with_reducible refine changesOnly_lit ?_ ?_ ?_ ?_ ?_ ?_ ?_ ?_ ?_ ?_ ?_ ?_ ?_ ?_ ?_ ?_ ?_ ?_ ?_ ?_ ?_ ?_ ?_ ?_ ?_ ?_ ?_ ?_ ?_ ?_
    | with_reducible exact .inl rfl
    | exact Or.inr (hL (by decide))
    | dsimp only)

theorem restoreArea_frame {L : List Block} {s₀ s₁ : State} (i : Slot) (r : Run) (m : Model) (t : TileId) (a : Nat × Nat × List Nat) (hK : changesOnly L s₀ s₁)
    (hL : [.tiles, .mem] ⊆ L) : changesOnly L s₀ (restoreArea i r m t a s₁) := by
  unfold restoreArea
  repeat' (first
    | with_reducible exact hK
    | with_reducible assumption
    | with_reducible exact List.Subset.trans (by decide) hL
    | with_reducible apply laySlice_frame
    | split
    | fail_if_no_progress with_reducible refine changesOnly_lit ?_ ?_ ?_ ?_ ?_ ?_ ?_ ?_ ?_ ?_ ?_ ?_ ?_ ?_ ?_ ?_ ?_ ?_ ?_ ?_ ?_ ?_ ?_ ?_ ?_ ?_ ?_ ?_ ?_ ?_
    | with_reducible exact .inl rfl
    | exact Or.inr (hL (by decide))
    | dsimp only)

theorem restart_frame {L : List Block} {s₀ s₁ : State} (r : Run) (l : Option Nat) (hK : changesOnly L s₀ s₁)
    (hL : [.out, .log, .host, .ctx, .installed, .tiles, .signals] ⊆ L) : changesOnly L s₀ (restart r l s₁) := by
  unfold restart
  repeat' (first
    | with_reducible exact hK
    | with_reducible assumption
    | with_reducible exact List.Subset.trans (by decide) hL
    | with_reducible apply mapTiles_frame
    | with_reducible apply report_frame
    | with_reducible apply sumLedger_frame
    | with_reducible apply modPass_frame
    | split
    | fail_if_no_progress with_reducible refine changesOnly_lit ?_ ?_ ?_ ?_ ?_ ?_ ?_ ?_ ?_ ?_ ?_ ?_ ?_ ?_ ?_ ?_ ?_ ?_ ?_ ?_ ?_ ?_ ?_ ?_ ?_ ?_ ?_ ?_ ?_ ?_
    | with_reducible exact .inl rfl
    | exact Or.inr (hL (by decide))
    | dsimp only)

theorem replayLayer_frame {L : List Block} {s₀ s₁ : State} (r : Run) (l : Nat) (hK : changesOnly L s₀ s₁)
    (hL : [.out, .log, .host, .ctx, .installed, .tiles, .signals, .mem, .ports] ⊆ L) : changesOnly L s₀ (replayLayer r l s₁) := by
  unfold replayLayer
  repeat' (first
    | with_reducible exact hK
    | with_reducible assumption
    | with_reducible exact List.Subset.trans (by decide) hL
    | with_reducible refine foldl_frame ?_ (fun _ _ _ => ?_)
    | with_reducible refine foldl_fst_frame ?_ (fun _ _ _ => ?_)
    | with_reducible apply refetchLayer_frame
    | with_reducible apply restoreArea_frame
    | with_reducible apply restart_frame
    | with_reducible refine changesOnly_ite ?_ ?_
    | split
    | fail_if_no_progress with_reducible refine changesOnly_out ?_ (List.Subset.trans (by decide) hL)
    | fail_if_no_progress with_reducible refine changesOnly_log ?_ (List.Subset.trans (by decide) hL)
    | fail_if_no_progress with_reducible refine changesOnly_host ?_ (List.Subset.trans (by decide) hL)
    | fail_if_no_progress with_reducible refine changesOnly_ctx ?_ (List.Subset.trans (by decide) hL)
    | fail_if_no_progress with_reducible refine changesOnly_installed ?_ (List.Subset.trans (by decide) hL)
    | fail_if_no_progress with_reducible refine changesOnly_tiles ?_ (List.Subset.trans (by decide) hL)
    | fail_if_no_progress with_reducible refine changesOnly_signals ?_ (List.Subset.trans (by decide) hL)
    | fail_if_no_progress with_reducible refine changesOnly_mem ?_ (List.Subset.trans (by decide) hL)
    | fail_if_no_progress with_reducible refine changesOnly_ports ?_ (List.Subset.trans (by decide) hL)
    | fail_if_no_progress with_reducible refine changesOnly_lit ?_ ?_ ?_ ?_ ?_ ?_ ?_ ?_ ?_ ?_ ?_ ?_ ?_ ?_ ?_ ?_ ?_ ?_ ?_ ?_ ?_ ?_ ?_ ?_ ?_ ?_ ?_ ?_ ?_ ?_
    | with_reducible exact .inl rfl)

theorem replay_frame {L : List Block} {s₀ s₁ : State} (r : Run) (hK : changesOnly L s₀ s₁)
    (hL : [.out, .log, .host, .ctx, .installed, .tiles, .links, .signals, .mem, .ports] ⊆ L) : changesOnly L s₀ (replay r s₁) := by
  unfold replay
  repeat' (first
    | with_reducible exact hK
    | with_reducible assumption
    | with_reducible exact List.Subset.trans (by decide) hL
    | with_reducible apply failPass_frame
    | with_reducible apply restart_frame
    | with_reducible apply replayLayer_frame
    | split
    | fail_if_no_progress with_reducible refine changesOnly_lit ?_ ?_ ?_ ?_ ?_ ?_ ?_ ?_ ?_ ?_ ?_ ?_ ?_ ?_ ?_ ?_ ?_ ?_ ?_ ?_ ?_ ?_ ?_ ?_ ?_ ?_ ?_ ?_ ?_ ?_
    | with_reducible exact .inl rfl
    | exact Or.inr (hL (by decide))
    | dsimp only)

theorem execReplayOpenLayer_frame {s₁ : State}  :
    ∃ s₂, execReplayOpenLayer s₁ = .next s₂ ∧ changesOnly [.out, .log, .host, .ctx, .installed, .tiles, .links, .signals, .mem, .ports] s₁ s₂ := by
  have hK : changesOnly [.out, .log, .host, .ctx, .installed, .tiles, .links, .signals, .mem, .ports] s₁ s₁ := changesOnly_refl
  have hL : ([.out, .log, .host, .ctx, .installed, .tiles, .links, .signals, .mem, .ports] : List Block) ⊆ [.out, .log, .host, .ctx, .installed, .tiles, .links, .signals, .mem, .ports] := List.Subset.refl _
  refine ⟨_, rfl, ?_⟩
  repeat' (first
    | with_reducible exact hK
    | with_reducible assumption
    | with_reducible exact List.Subset.trans (by decide) hL
    | with_reducible apply replay_frame
    | split
    | fail_if_no_progress with_reducible refine changesOnly_lit ?_ ?_ ?_ ?_ ?_ ?_ ?_ ?_ ?_ ?_ ?_ ?_ ?_ ?_ ?_ ?_ ?_ ?_ ?_ ?_ ?_ ?_ ?_ ?_ ?_ ?_ ?_ ?_ ?_ ?_
    | with_reducible exact .inl rfl
    | exact Or.inr (hL (by decide))
    | dsimp only)

end Sys2Proof.Machine
end

