-- ==== Sys2Proof/Laws/FrameCollectives.lean ====
section
/-! SUPPORT. The frames of the operations and commands of Collectives (Laws/Frame.lean). -/

namespace Sys2Proof.Machine

set_option linter.all false
set_option Elab.async false

open Sys2Proof

theorem modInst_frame {L : List Block} {s₀ s₁ : State} (desc : Nat) (f : CollInst → CollInst) (hK : changesOnly L s₀ s₁)
    (hL : [.coll] ⊆ L) : changesOnly L s₀ (modInst desc f s₁) := by
  unfold modInst
  repeat' (first
    | with_reducible exact hK
    | with_reducible assumption
    | with_reducible exact List.Subset.trans (by decide) hL
    | with_reducible refine changesOnly_ite ?_ ?_
    | split
    | fail_if_no_progress with_reducible refine changesOnly_coll ?_ (List.Subset.trans (by decide) hL)
    | fail_if_no_progress with_reducible refine changesOnly_lit ?_ ?_ ?_ ?_ ?_ ?_ ?_ ?_ ?_ ?_ ?_ ?_ ?_ ?_ ?_ ?_ ?_ ?_ ?_ ?_ ?_ ?_ ?_ ?_ ?_ ?_ ?_ ?_ ?_ ?_
    | with_reducible exact .inl rfl
    | exact Or.inr (hL (by decide)))

theorem endInst_frame {L : List Block} {s₀ s₁ : State} (x : CollInst) (code : Code) (initiator : Nat) (hK : changesOnly L s₀ s₁)
    (hL : [.out, .log, .host, .ctx, .coll] ⊆ L) : changesOnly L s₀ (endInst x code initiator s₁) := by
  unfold endInst
  repeat' (first
    | with_reducible exact hK
    | with_reducible assumption
    | with_reducible exact List.Subset.trans (by decide) hL
    | with_reducible apply completeCmd_frame
    | with_reducible apply setSeq_frame
    | with_reducible refine changesOnly_ite ?_ ?_
    | split
    | fail_if_no_progress with_reducible refine changesOnly_out ?_ (List.Subset.trans (by decide) hL)
    | fail_if_no_progress with_reducible refine changesOnly_log ?_ (List.Subset.trans (by decide) hL)
    | fail_if_no_progress with_reducible refine changesOnly_host ?_ (List.Subset.trans (by decide) hL)
    | fail_if_no_progress with_reducible refine changesOnly_ctx ?_ (List.Subset.trans (by decide) hL)
    | fail_if_no_progress with_reducible refine changesOnly_coll ?_ (List.Subset.trans (by decide) hL)
    | fail_if_no_progress with_reducible refine changesOnly_lit ?_ ?_ ?_ ?_ ?_ ?_ ?_ ?_ ?_ ?_ ?_ ?_ ?_ ?_ ?_ ?_ ?_ ?_ ?_ ?_ ?_ ?_ ?_ ?_ ?_ ?_ ?_ ?_ ?_ ?_
    | with_reducible exact .inl rfl
    | exact Or.inr (hL (by decide)))

theorem finishCounts_frame {L : List Block} {s₀ s₁ : State} (x : CollInst) (hK : changesOnly L s₀ s₁)
    (hL : [.out, .log, .host, .ctx, .mem, .coll] ⊆ L) : changesOnly L s₀ (finishCounts x s₁) := by
  unfold finishCounts
  repeat' (first
    | with_reducible exact hK
    | with_reducible assumption
    | with_reducible exact List.Subset.trans (by decide) hL
    | with_reducible apply storeBytes_frame
    | with_reducible apply abortInst_frame
    | with_reducible apply endInst_frame
    | with_reducible refine changesOnly_ite ?_ ?_
    | split)

theorem sendChunk_frame {L : List Block} {s₀ s₁ : State} (x : CollInst) (c : Nat) (hK : changesOnly L s₀ s₁)
    (hL : [.out, .ports] ⊆ L) : changesOnly L s₀ (sendChunk x c s₁) := by
  unfold sendChunk
  repeat' (first
    | with_reducible exact hK
    | with_reducible assumption
    | with_reducible exact List.Subset.trans (by decide) hL
    | with_reducible apply sendMsg_frame)

theorem sendPayload_frame {L : List Block} {s₀ s₁ : State} (x : CollInst) (hK : changesOnly L s₀ s₁)
    (hL : [.out, .ports] ⊆ L) : changesOnly L s₀ (sendPayload x s₁) := by
  unfold sendPayload
  repeat' (first
    | with_reducible exact hK
    | with_reducible assumption
    | with_reducible exact List.Subset.trans (by decide) hL
    | with_reducible refine foldl_frame ?_ (fun _ _ _ => ?_)
    | with_reducible refine foldl_fst_frame ?_ (fun _ _ _ => ?_)
    | with_reducible apply sendAll_frame
    | with_reducible apply sendChunk_frame)

theorem requestRound_frame {L : List Block} {s₀ s₁ : State} (x : CollInst) (hK : changesOnly L s₀ s₁)
    (hL : [.out, .ports, .coll] ⊆ L) : changesOnly L s₀ (requestRound x s₁) := by
  unfold requestRound
  repeat' (first
    | with_reducible exact hK
    | with_reducible assumption
    | with_reducible exact List.Subset.trans (by decide) hL
    | with_reducible refine foldl_frame ?_ (fun _ _ _ => ?_)
    | with_reducible refine foldl_fst_frame ?_ (fun _ _ _ => ?_)
    | with_reducible apply sendAll_frame
    | with_reducible apply modInst_frame
    | split
    | fail_if_no_progress with_reducible refine changesOnly_lit ?_ ?_ ?_ ?_ ?_ ?_ ?_ ?_ ?_ ?_ ?_ ?_ ?_ ?_ ?_ ?_ ?_ ?_ ?_ ?_ ?_ ?_ ?_ ?_ ?_ ?_ ?_ ?_ ?_ ?_
    | with_reducible exact .inl rfl
    | exact Or.inr (hL (by decide))
    | dsimp only)

theorem checkDigest_frame {L : List Block} {s₀ s₁ : State} (x : CollInst) (hK : changesOnly L s₀ s₁)
    (hL : [.out, .log, .host, .ctx, .ports, .coll] ⊆ L) : changesOnly L s₀ (checkDigest x s₁) := by
  unfold checkDigest
  repeat' (first
    | with_reducible exact hK
    | with_reducible assumption
    | with_reducible exact List.Subset.trans (by decide) hL
    | with_reducible apply abortInst_frame
    | with_reducible apply sendAll_frame
    | with_reducible apply endInst_frame
    | with_reducible refine changesOnly_ite ?_ ?_
    | split)

theorem advanceInst_frame {L : List Block} {s₀ s₁ : State} (desc : Nat) (hK : changesOnly L s₀ s₁)
    (hL : [.out, .log, .host, .ctx, .mem, .ports, .coll] ⊆ L) : changesOnly L s₀ (advanceInst desc s₁) := by
  unfold advanceInst
  repeat' (first
    | with_reducible exact hK
    | with_reducible assumption
    | with_reducible exact List.Subset.trans (by decide) hL
    | with_reducible apply storeBytes_frame
    | with_reducible apply endInst_frame
    | with_reducible apply finishCounts_frame
    | with_reducible apply checkDigest_frame
    | with_reducible refine changesOnly_ite ?_ ?_
    | split)

theorem applyMsg_frame {L : List Block} {s₀ s₁ : State} (x : CollInst) (m : HeldMsg) (hK : changesOnly L s₀ s₁)
    (hL : [.out, .log, .host, .mem, .ports, .coll] ⊆ L) : changesOnly L s₀ (applyMsg x m s₁) := by
  unfold applyMsg
  repeat' (first
    | with_reducible exact hK
    | with_reducible assumption
    | with_reducible exact List.Subset.trans (by decide) hL
    | with_reducible apply storeBytes_frame
    | with_reducible apply abortInst_frame
    | with_reducible apply discardColl_frame
    | with_reducible apply modInst_frame
    | with_reducible apply sendChunk_frame
    | with_reducible apply requestRound_frame
    | split
    | fail_if_no_progress with_reducible refine changesOnly_lit ?_ ?_ ?_ ?_ ?_ ?_ ?_ ?_ ?_ ?_ ?_ ?_ ?_ ?_ ?_ ?_ ?_ ?_ ?_ ?_ ?_ ?_ ?_ ?_ ?_ ?_ ?_ ?_ ?_ ?_
    | with_reducible exact .inl rfl
    | exact Or.inr (hL (by decide))
    | dsimp only)

theorem takeMsg_frame {L : List Block} {s₀ s₁ : State} (x : CollInst) (h : CollHdr) (m : HeldMsg) (hK : changesOnly L s₀ s₁)
    (hL : [.out, .log, .host, .ctx, .mem, .ports, .coll] ⊆ L) : changesOnly L s₀ (takeMsg x h m s₁) := by
  unfold takeMsg
  repeat' (first
    | with_reducible exact hK
    | with_reducible assumption
    | with_reducible exact List.Subset.trans (by decide) hL
    | with_reducible apply abortInst_frame
    | with_reducible apply discardColl_frame
    | with_reducible apply advanceInst_frame
    | with_reducible apply applyMsg_frame
    | with_reducible refine changesOnly_ite ?_ ?_
    | split)

theorem collMsg_frame {L : List Block} {s₀ s₁ : State} (p : PortId) (h : CollHdr) (m : HeldMsg) (hK : changesOnly L s₀ s₁)
    (hL : [.out, .log, .host, .ctx, .mem, .ports, .coll] ⊆ L) : changesOnly L s₀ (collMsg p h m s₁) := by
  unfold collMsg
  repeat' (first
    | with_reducible exact hK
    | with_reducible assumption
    | with_reducible exact List.Subset.trans (by decide) hL
    | with_reducible apply discardColl_frame
    | with_reducible apply holdMsg_frame
    | with_reducible apply takeMsg_frame
    | with_reducible refine changesOnly_ite ?_ ?_
    | split)

theorem execCountsVec_frame {s₁ : State} (p : PortId) (h : CollHdr) (v : List (BitVec 64)) :
    ∃ s₂, execCountsVec p h v s₁ = .next s₂ ∧ changesOnly [.out, .log, .host, .ctx, .mem, .ports, .coll] s₁ s₂ := by
  have hK : changesOnly [.out, .log, .host, .ctx, .mem, .ports, .coll] s₁ s₁ := changesOnly_refl
  have hL : ([.out, .log, .host, .ctx, .mem, .ports, .coll] : List Block) ⊆ [.out, .log, .host, .ctx, .mem, .ports, .coll] := List.Subset.refl _
  refine ⟨_, rfl, ?_⟩
  repeat' (first
    | with_reducible exact hK
    | with_reducible assumption
    | with_reducible exact List.Subset.trans (by decide) hL
    | with_reducible apply collMsg_frame)

theorem execScalarVec_frame {s₁ : State} (p : PortId) (h : CollHdr) (v : List Word) :
    ∃ s₂, execScalarVec p h v s₁ = .next s₂ ∧ changesOnly [.out, .log, .host, .ctx, .mem, .ports, .coll] s₁ s₂ := by
  have hK : changesOnly [.out, .log, .host, .ctx, .mem, .ports, .coll] s₁ s₁ := changesOnly_refl
  have hL : ([.out, .log, .host, .ctx, .mem, .ports, .coll] : List Block) ⊆ [.out, .log, .host, .ctx, .mem, .ports, .coll] := List.Subset.refl _
  refine ⟨_, rfl, ?_⟩
  repeat' (first
    | with_reducible exact hK
    | with_reducible assumption
    | with_reducible exact List.Subset.trans (by decide) hL
    | with_reducible apply collMsg_frame)

theorem execBcastChunk_frame {s₁ : State} (p : PortId) (h : CollHdr) (data : Bytes) :
    ∃ s₂, execBcastChunk p h data s₁ = .next s₂ ∧ changesOnly [.out, .log, .host, .ctx, .mem, .ports, .coll] s₁ s₂ := by
  have hK : changesOnly [.out, .log, .host, .ctx, .mem, .ports, .coll] s₁ s₁ := changesOnly_refl
  have hL : ([.out, .log, .host, .ctx, .mem, .ports, .coll] : List Block) ⊆ [.out, .log, .host, .ctx, .mem, .ports, .coll] := List.Subset.refl _
  refine ⟨_, rfl, ?_⟩
  repeat' (first
    | with_reducible exact hK
    | with_reducible assumption
    | with_reducible exact List.Subset.trans (by decide) hL
    | with_reducible apply collMsg_frame)

theorem execBcastEnd_frame {s₁ : State} (p : PortId) (h : CollHdr) (length : Word) (digest : Bytes) :
    ∃ s₂, execBcastEnd p h length digest s₁ = .next s₂ ∧ changesOnly [.out, .log, .host, .ctx, .mem, .ports, .coll] s₁ s₂ := by
  have hK : changesOnly [.out, .log, .host, .ctx, .mem, .ports, .coll] s₁ s₁ := changesOnly_refl
  have hL : ([.out, .log, .host, .ctx, .mem, .ports, .coll] : List Block) ⊆ [.out, .log, .host, .ctx, .mem, .ports, .coll] := List.Subset.refl _
  refine ⟨_, rfl, ?_⟩
  repeat' (first
    | with_reducible exact hK
    | with_reducible assumption
    | with_reducible exact List.Subset.trans (by decide) hL
    | with_reducible apply collMsg_frame)

theorem execBcastDone_frame {s₁ : State} (p : PortId) (h : CollHdr) :
    ∃ s₂, execBcastDone p h s₁ = .next s₂ ∧ changesOnly [.out, .log, .host, .ctx, .mem, .ports, .coll] s₁ s₂ := by
  have hK : changesOnly [.out, .log, .host, .ctx, .mem, .ports, .coll] s₁ s₁ := changesOnly_refl
  have hL : ([.out, .log, .host, .ctx, .mem, .ports, .coll] : List Block) ⊆ [.out, .log, .host, .ctx, .mem, .ports, .coll] := List.Subset.refl _
  refine ⟨_, rfl, ?_⟩
  repeat' (first
    | with_reducible exact hK
    | with_reducible assumption
    | with_reducible exact List.Subset.trans (by decide) hL
    | with_reducible apply collMsg_frame)

theorem execArrive_frame {s₁ : State} (p : PortId) (h : CollHdr) :
    ∃ s₂, execArrive p h s₁ = .next s₂ ∧ changesOnly [.out, .log, .host, .ctx, .mem, .ports, .coll] s₁ s₂ := by
  have hK : changesOnly [.out, .log, .host, .ctx, .mem, .ports, .coll] s₁ s₁ := changesOnly_refl
  have hL : ([.out, .log, .host, .ctx, .mem, .ports, .coll] : List Block) ⊆ [.out, .log, .host, .ctx, .mem, .ports, .coll] := List.Subset.refl _
  refine ⟨_, rfl, ?_⟩
  repeat' (first
    | with_reducible exact hK
    | with_reducible assumption
    | with_reducible exact List.Subset.trans (by decide) hL
    | with_reducible apply collMsg_frame)

theorem execBcastReq_frame {s₁ : State} (p : PortId) (h : CollHdr) :
    ∃ s₂, execBcastReq p h s₁ = .next s₂ ∧ changesOnly [.out, .log, .host, .ctx, .mem, .ports, .coll] s₁ s₂ := by
  have hK : changesOnly [.out, .log, .host, .ctx, .mem, .ports, .coll] s₁ s₁ := changesOnly_refl
  have hL : ([.out, .log, .host, .ctx, .mem, .ports, .coll] : List Block) ⊆ [.out, .log, .host, .ctx, .mem, .ports, .coll] := List.Subset.refl _
  refine ⟨_, rfl, ?_⟩
  repeat' (first
    | with_reducible exact hK
    | with_reducible assumption
    | with_reducible exact List.Subset.trans (by decide) hL
    | with_reducible apply collMsg_frame
    | split
    | fail_if_no_progress with_reducible refine changesOnly_lit ?_ ?_ ?_ ?_ ?_ ?_ ?_ ?_ ?_ ?_ ?_ ?_ ?_ ?_ ?_ ?_ ?_ ?_ ?_ ?_ ?_ ?_ ?_ ?_ ?_ ?_ ?_ ?_ ?_ ?_
    | with_reducible exact .inl rfl
    | exact Or.inr (hL (by decide))
    | dsimp only)

theorem execBcastReqRound_frame {s₁ : State} (desc : BitVec 16) :
    ∃ s₂, execBcastReqRound desc s₁ = .next s₂ ∧ changesOnly [.out, .log, .host, .ctx, .ports, .coll] s₁ s₂ := by
  have hK : changesOnly [.out, .log, .host, .ctx, .ports, .coll] s₁ s₁ := changesOnly_refl
  have hL : ([.out, .log, .host, .ctx, .ports, .coll] : List Block) ⊆ [.out, .log, .host, .ctx, .ports, .coll] := List.Subset.refl _
  refine ⟨_, rfl, ?_⟩
  repeat' (first
    | with_reducible exact hK
    | with_reducible assumption
    | with_reducible exact List.Subset.trans (by decide) hL
    | with_reducible apply requestRound_frame
    | with_reducible apply checkDigest_frame
    | with_reducible refine changesOnly_ite ?_ ?_
    | split)

theorem sendFirst_frame {L : List Block} {s₀ s₁ : State} (x : CollInst) (hK : changesOnly L s₀ s₁)
    (hL : [.out, .ports] ⊆ L) : changesOnly L s₀ (sendFirst x s₁) := by
  unfold sendFirst
  repeat' (first
    | with_reducible exact hK
    | with_reducible assumption
    | with_reducible exact List.Subset.trans (by decide) hL
    | with_reducible apply sendAll_frame
    | with_reducible apply sendPayload_frame
    | with_reducible refine changesOnly_ite ?_ ?_
    | split)

theorem replayHeld_frame {L : List Block} {s₀ s₁ : State} (desc : Nat) (l : List HeldMsg) (hK : changesOnly L s₀ s₁)
    (hL : [.out, .log, .host, .ctx, .mem, .ports, .coll] ⊆ L) : changesOnly L s₀ (replayHeld desc l s₁) := by
  unfold replayHeld
  repeat' (first
    | with_reducible exact hK
    | with_reducible assumption
    | with_reducible exact List.Subset.trans (by decide) hL
    | with_reducible refine foldl_frame ?_ (fun _ _ _ => ?_)
    | with_reducible refine foldl_fst_frame ?_ (fun _ _ _ => ?_)
    | with_reducible apply takeMsg_frame
    | with_reducible refine changesOnly_ite ?_ ?_
    | split)

theorem collRun_frame {L : List Block} {s₀ s₁ : State} (i : Slot) (q : QId) (r : Ready) (kind : Nat) (b : CollBody) (hK : changesOnly L s₀ s₁)
    (hL : [.out, .log, .host, .ctx, .mem, .ports, .coll] ⊆ L) : changesOnly L s₀ (collRun i q r kind b s₁) := by
  unfold collRun
  repeat' (first
    | with_reducible exact hK
    | with_reducible assumption
    | with_reducible exact List.Subset.trans (by decide) hL
    | with_reducible apply addRunning_frame
    | with_reducible apply discardStale_frame
    | with_reducible apply endInst_frame
    | with_reducible apply advanceInst_frame
    | with_reducible apply sendFirst_frame
    | with_reducible apply replayHeld_frame
    | split
    | fail_if_no_progress with_reducible refine changesOnly_lit ?_ ?_ ?_ ?_ ?_ ?_ ?_ ?_ ?_ ?_ ?_ ?_ ?_ ?_ ?_ ?_ ?_ ?_ ?_ ?_ ?_ ?_ ?_ ?_ ?_ ?_ ?_ ?_ ?_ ?_
    | with_reducible exact .inl rfl
    | exact Or.inr (hL (by decide))
    | dsimp only)

theorem collStart_frame {L : List Block} {s₀ s₁ : State} (kind : Nat) (i : Slot) (q : QId) (r : Ready) (hK : changesOnly L s₀ s₁)
    (hL : [.out, .log, .host, .ctx, .mem, .ports, .coll] ⊆ L) : changesOnly L s₀ (collStart kind i q r s₁) := by
  unfold collStart
  repeat' (first
    | with_reducible exact hK
    | with_reducible assumption
    | with_reducible exact List.Subset.trans (by decide) hL
    | with_reducible apply refuseStart_frame
    | with_reducible apply collRun_frame
    | with_reducible refine changesOnly_ite ?_ ?_
    | split
    | fail_if_no_progress with_reducible refine changesOnly_out ?_ (List.Subset.trans (by decide) hL)
    | fail_if_no_progress with_reducible refine changesOnly_log ?_ (List.Subset.trans (by decide) hL)
    | fail_if_no_progress with_reducible refine changesOnly_host ?_ (List.Subset.trans (by decide) hL)
    | fail_if_no_progress with_reducible refine changesOnly_ctx ?_ (List.Subset.trans (by decide) hL)
    | fail_if_no_progress with_reducible refine changesOnly_mem ?_ (List.Subset.trans (by decide) hL)
    | fail_if_no_progress with_reducible refine changesOnly_ports ?_ (List.Subset.trans (by decide) hL)
    | fail_if_no_progress with_reducible refine changesOnly_coll ?_ (List.Subset.trans (by decide) hL)
    | fail_if_no_progress with_reducible refine changesOnly_lit ?_ ?_ ?_ ?_ ?_ ?_ ?_ ?_ ?_ ?_ ?_ ?_ ?_ ?_ ?_ ?_ ?_ ?_ ?_ ?_ ?_ ?_ ?_ ?_ ?_ ?_ ?_ ?_ ?_ ?_
    | with_reducible exact .inl rfl)

theorem execCounts_frame {s₁ : State} (i : Slot) (q : QId) :
    ∃ s₂, execCounts i q s₁ = .next s₂ ∧ changesOnly [.out, .log, .host, .ctx, .mem, .ports, .coll] s₁ s₂ := by
  have hK : changesOnly [.out, .log, .host, .ctx, .mem, .ports, .coll] s₁ s₁ := changesOnly_refl
  have hL : ([.out, .log, .host, .ctx, .mem, .ports, .coll] : List Block) ⊆ [.out, .log, .host, .ctx, .mem, .ports, .coll] := List.Subset.refl _
  refine ⟨_, rfl, ?_⟩
  repeat' (first
    | with_reducible exact hK
    | with_reducible assumption
    | with_reducible exact List.Subset.trans (by decide) hL
    | with_reducible refine startRow_frame _ _ _ ?_ (fun _ _ _ => ?_) ?_
    | with_reducible apply collStart_frame)

theorem execScalarSum_frame {s₁ : State} (i : Slot) (q : QId) :
    ∃ s₂, execScalarSum i q s₁ = .next s₂ ∧ changesOnly [.out, .log, .host, .ctx, .mem, .ports, .coll] s₁ s₂ := by
  have hK : changesOnly [.out, .log, .host, .ctx, .mem, .ports, .coll] s₁ s₁ := changesOnly_refl
  have hL : ([.out, .log, .host, .ctx, .mem, .ports, .coll] : List Block) ⊆ [.out, .log, .host, .ctx, .mem, .ports, .coll] := List.Subset.refl _
  refine ⟨_, rfl, ?_⟩
  repeat' (first
    | with_reducible exact hK
    | with_reducible assumption
    | with_reducible exact List.Subset.trans (by decide) hL
    | with_reducible refine startRow_frame _ _ _ ?_ (fun _ _ _ => ?_) ?_
    | with_reducible apply collStart_frame)

theorem execBroadcast_frame {s₁ : State} (i : Slot) (q : QId) :
    ∃ s₂, execBroadcast i q s₁ = .next s₂ ∧ changesOnly [.out, .log, .host, .ctx, .mem, .ports, .coll] s₁ s₂ := by
  have hK : changesOnly [.out, .log, .host, .ctx, .mem, .ports, .coll] s₁ s₁ := changesOnly_refl
  have hL : ([.out, .log, .host, .ctx, .mem, .ports, .coll] : List Block) ⊆ [.out, .log, .host, .ctx, .mem, .ports, .coll] := List.Subset.refl _
  refine ⟨_, rfl, ?_⟩
  repeat' (first
    | with_reducible exact hK
    | with_reducible assumption
    | with_reducible exact List.Subset.trans (by decide) hL
    | with_reducible refine startRow_frame _ _ _ ?_ (fun _ _ _ => ?_) ?_
    | with_reducible apply collStart_frame)

theorem execBarrier_frame {s₁ : State} (i : Slot) (q : QId) :
    ∃ s₂, execBarrier i q s₁ = .next s₂ ∧ changesOnly [.out, .log, .host, .ctx, .mem, .ports, .coll] s₁ s₂ := by
  have hK : changesOnly [.out, .log, .host, .ctx, .mem, .ports, .coll] s₁ s₁ := changesOnly_refl
  have hL : ([.out, .log, .host, .ctx, .mem, .ports, .coll] : List Block) ⊆ [.out, .log, .host, .ctx, .mem, .ports, .coll] := List.Subset.refl _
  refine ⟨_, rfl, ?_⟩
  repeat' (first
    | with_reducible exact hK
    | with_reducible assumption
    | with_reducible exact List.Subset.trans (by decide) hL
    | with_reducible refine startRow_frame _ _ _ ?_ (fun _ _ _ => ?_) ?_
    | with_reducible apply collStart_frame)

theorem execCollectiveTimeout_frame {s₁ : State} (desc : BitVec 16) :
    ∃ s₂, execCollectiveTimeout desc s₁ = .next s₂ ∧ changesOnly [.out, .log, .host, .coll] s₁ s₂ := by
  have hK : changesOnly [.out, .log, .host, .coll] s₁ s₁ := changesOnly_refl
  have hL : ([.out, .log, .host, .coll] : List Block) ⊆ [.out, .log, .host, .coll] := List.Subset.refl _
  refine ⟨_, rfl, ?_⟩
  repeat' (first
    | with_reducible exact hK
    | with_reducible assumption
    | with_reducible exact List.Subset.trans (by decide) hL
    | with_reducible apply abortInst_frame
    | with_reducible refine changesOnly_ite ?_ ?_
    | split)

theorem takeAbort_frame {L : List Block} {s₀ s₁ : State} (a : AbortSym) (hK : changesOnly L s₀ s₁)
    (hL : [.out, .log, .host, .coll] ⊆ L) : changesOnly L s₀ (takeAbort a s₁) := by
  unfold takeAbort
  repeat' (first
    | with_reducible exact hK
    | with_reducible assumption
    | with_reducible exact List.Subset.trans (by decide) hL
    | with_reducible apply modRed_frame
    | with_reducible apply collEvent_frame
    | with_reducible apply discardColl_frame
    | with_reducible apply holdMsg_frame
    | with_reducible apply modInst_frame
    | with_reducible refine changesOnly_ite ?_ ?_
    | split
    | fail_if_no_progress with_reducible refine changesOnly_out ?_ (List.Subset.trans (by decide) hL)
    | fail_if_no_progress with_reducible refine changesOnly_log ?_ (List.Subset.trans (by decide) hL)
    | fail_if_no_progress with_reducible refine changesOnly_host ?_ (List.Subset.trans (by decide) hL)
    | fail_if_no_progress with_reducible refine changesOnly_coll ?_ (List.Subset.trans (by decide) hL)
    | fail_if_no_progress with_reducible refine changesOnly_lit ?_ ?_ ?_ ?_ ?_ ?_ ?_ ?_ ?_ ?_ ?_ ?_ ?_ ?_ ?_ ?_ ?_ ?_ ?_ ?_ ?_ ?_ ?_ ?_ ?_ ?_ ?_ ?_ ?_ ?_
    | with_reducible exact .inl rfl)

theorem execAbortSymbol_frame {s₁ : State} (p : PortId) (w : Codeword) :
    ∃ s₂, execAbortSymbol p w s₁ = .next s₂ ∧ changesOnly [.out, .log, .host, .ports, .coll] s₁ s₂ := by
  have hK : changesOnly [.out, .log, .host, .ports, .coll] s₁ s₁ := changesOnly_refl
  have hL : ([.out, .log, .host, .ports, .coll] : List Block) ⊆ [.out, .log, .host, .ports, .coll] := List.Subset.refl _
  refine ⟨_, rfl, ?_⟩
  repeat' (first
    | with_reducible exact hK
    | with_reducible assumption
    | with_reducible exact List.Subset.trans (by decide) hL
    | with_reducible apply takeStatus_frame
    | with_reducible apply takeAbort_frame
    | split
    | fail_if_no_progress with_reducible refine changesOnly_lit ?_ ?_ ?_ ?_ ?_ ?_ ?_ ?_ ?_ ?_ ?_ ?_ ?_ ?_ ?_ ?_ ?_ ?_ ?_ ?_ ?_ ?_ ?_ ?_ ?_ ?_ ?_ ?_ ?_ ?_
    | with_reducible exact .inl rfl
    | exact Or.inr (hL (by decide))
    | dsimp only)

theorem execAbortWaitExpire_frame {s₁ : State} (desc : BitVec 16) :
    ∃ s₂, execAbortWaitExpire desc s₁ = .next s₂ ∧ changesOnly [.out, .log, .host, .ctx, .installed, .tiles, .links, .signals, .coll] s₁ s₂ := by
  have hK : changesOnly [.out, .log, .host, .ctx, .installed, .tiles, .links, .signals, .coll] s₁ s₁ := changesOnly_refl
  have hL : ([.out, .log, .host, .ctx, .installed, .tiles, .links, .signals, .coll] : List Block) ⊆ [.out, .log, .host, .ctx, .installed, .tiles, .links, .signals, .coll] := List.Subset.refl _
  refine ⟨_, rfl, ?_⟩
  repeat' (first
    | with_reducible exact hK
    | with_reducible assumption
    | with_reducible exact List.Subset.trans (by decide) hL
    | with_reducible apply abortedRed_frame
    | with_reducible apply endInst_frame
    | split
    | fail_if_no_progress with_reducible refine changesOnly_lit ?_ ?_ ?_ ?_ ?_ ?_ ?_ ?_ ?_ ?_ ?_ ?_ ?_ ?_ ?_ ?_ ?_ ?_ ?_ ?_ ?_ ?_ ?_ ?_ ?_ ?_ ?_ ?_ ?_ ?_
    | with_reducible exact .inl rfl
    | exact Or.inr (hL (by decide))
    | dsimp only)

end Sys2Proof.Machine
end

