-- ==== Sys2Proof/Laws/FrameLogSnapshot.lean ====
section
/-! SUPPORT. The frames of the operations and commands of LogSnapshot (Laws/Frame.lean). -/

namespace Sys2Proof.Machine

set_option linter.all false
set_option Elab.async false

open Sys2Proof

theorem snapshotStart_frame {L : List Block} {s₀ s₁ : State} (i : Slot) (q : QId) (r : Ready) (hK : changesOnly L s₀ s₁)
    (hL : [.out, .log, .host, .ctx, .mem, .snapshots] ⊆ L) : changesOnly L s₀ (snapshotStart i q r s₁) := by
  unfold snapshotStart
  repeat' (first
    | with_reducible exact hK
    | with_reducible assumption
    | with_reducible exact List.Subset.trans (by decide) hL
    | with_reducible apply storeBytes_frame
    | with_reducible apply refuseStart_frame
    | with_reducible apply atOnce_frame
    | with_reducible refine changesOnly_ite ?_ ?_
    | split
    | fail_if_no_progress with_reducible refine changesOnly_out ?_ (List.Subset.trans (by decide) hL)
    | fail_if_no_progress with_reducible refine changesOnly_log ?_ (List.Subset.trans (by decide) hL)
    | fail_if_no_progress with_reducible refine changesOnly_host ?_ (List.Subset.trans (by decide) hL)
    | fail_if_no_progress with_reducible refine changesOnly_ctx ?_ (List.Subset.trans (by decide) hL)
    | fail_if_no_progress with_reducible refine changesOnly_mem ?_ (List.Subset.trans (by decide) hL)
    | fail_if_no_progress with_reducible refine changesOnly_snapshots ?_ (List.Subset.trans (by decide) hL)
    | fail_if_no_progress with_reducible refine changesOnly_lit ?_ ?_ ?_ ?_ ?_ ?_ ?_ ?_ ?_ ?_ ?_ ?_ ?_ ?_ ?_ ?_ ?_ ?_ ?_ ?_ ?_ ?_ ?_ ?_ ?_ ?_ ?_ ?_ ?_ ?_
    | with_reducible exact .inl rfl
    | exact Or.inr (hL (by decide)))

theorem execLogSnapshot_frame {s₁ : State} (i : Slot) (q : QId) :
    ∃ s₂, execLogSnapshot i q s₁ = .next s₂ ∧ changesOnly [.out, .log, .host, .ctx, .mem, .snapshots] s₁ s₂ := by
  have hK : changesOnly [.out, .log, .host, .ctx, .mem, .snapshots] s₁ s₁ := changesOnly_refl
  have hL : ([.out, .log, .host, .ctx, .mem, .snapshots] : List Block) ⊆ [.out, .log, .host, .ctx, .mem, .snapshots] := List.Subset.refl _
  refine ⟨_, rfl, ?_⟩
  repeat' (first
    | with_reducible exact hK
    | with_reducible assumption
    | with_reducible exact List.Subset.trans (by decide) hL
    | with_reducible refine startRow_frame _ _ _ ?_ (fun _ _ _ => ?_) ?_
    | with_reducible apply snapshotStart_frame)

end Sys2Proof.Machine
end

