-- ==== Sys2Proof/Laws/FrameRegs.lean ====
section
/-! SUPPORT. The frames of the operations and commands of Regs (Laws/Frame.lean). -/

namespace Sys2Proof.Machine

set_option linter.all false
set_option Elab.async false

open Sys2Proof

theorem requestOf_frame {L : List Block} {s₀ s₁ : State} (op : Nat) (i : Slot) (req : Bytes)
    (hK : changesOnly L s₀ s₁) (hL : [.free, .out, .log, .host, .ctx, .sec, .loader, .installed, .tiles, .links, .signals, .mem, .coll] ⊆ L) : changesOnly L s₀ (requestOf op i req s₁).2 := by
  unfold requestOf
  split
  · exact openRequest_frame _ _ hK (List.Subset.trans (by decide) hL)
  split
  · exact closeRequest_frame _ _ _ hK (List.Subset.trans (by decide) hL)
  split
  · exact switchRequest_frame _ _ _ hK (List.Subset.trans (by decide) hL)
  split
  · exact reportRequest_frame _ _ hK (List.Subset.trans (by decide) hL)
  split
  · exact installRequest_frame _ _ hK (List.Subset.trans (by decide) hL)
  split
  · exact removeRequest_frame _ _ hK (List.Subset.trans (by decide) hL)
  split
  · exact enrollRequest_frame _ _ hK (List.Subset.trans (by decide) hL)
  split
  · exact planeRequest_frame _ _ hK (List.Subset.trans (by decide) hL)
  split
  · exact certsRequest_frame _ _ hK (List.Subset.trans (by decide) hL)
  · exact hK

theorem goMailbox_frame {L : List Block} {s₀ s₁ : State} (hK : changesOnly L s₀ s₁) (hL : [.free, .out, .log, .host, .ctx, .sec, .loader, .installed, .tiles, .links, .signals, .mem, .ports, .coll] ⊆ L) :
    changesOnly L s₀ (goMailbox s₁) := by
  unfold goMailbox
  dsimp only
  have h := mailbox_frame s₁.sec.opcode.toNat s₁.sec.slot.toFin (requestBytes s₁) (f := requestOf s₁.sec.opcode.toNat) hK
    (fun y hy => requestOf_frame _ _ _ hy (List.Subset.trans (by decide) hL)) (List.Subset.trans (by decide) hL)
  generalize mailbox s₁.sec.opcode.toNat (requestOf s₁.sec.opcode.toNat) s₁.sec.slot.toFin (requestBytes s₁) s₁ = t at h
  refine changesOnly_trans h ⟨rfl, fun b hb => ?_⟩
  cases b <;> first | exact absurd (hL (by decide)) hb | rfl

theorem serveWaiting_frame {L : List Block} {s₀ s₁ : State} (hK : changesOnly L s₀ s₁) (hL : [.free, .out, .log, .host, .ctx, .sec, .loader, .installed, .tiles, .links, .signals, .mem, .coll] ⊆ L) :
    changesOnly L s₀ (serveWaiting s₁) := by
  unfold serveWaiting
  split
  · exact hK
  · rename_i op i req _
    split
    · have h2 : changesOnly L s₀ { s₁ with sec := { s₁.sec with waiting := none } } :=
        changesOnly_trans hK ⟨rfl, fun b hb => by cases b <;> first | exact absurd (hL (by decide)) hb | rfl⟩
      generalize { s₁ with sec := { s₁.sec with waiting := none } } = u at h2
      exact serveRequest_frame op i req h2 (requestOf_frame _ _ _ h2 (List.Subset.trans (by decide) hL))
        (List.Subset.trans (by decide) hL)
    · exact hK

theorem execCurtainEnd_frame {s₁ : State}  :
    ∃ s₂, execCurtainEnd s₁ = .next s₂ ∧ changesOnly [.free, .out, .ident, .log, .host, .ctx, .sec, .loader, .installed, .tiles, .dies, .links, .signals, .mem, .ports, .coll] s₁ s₂ := by
  have hK : changesOnly [.free, .out, .ident, .log, .host, .ctx, .sec, .loader, .installed, .tiles, .dies, .links, .signals, .mem, .ports, .coll] s₁ s₁ := changesOnly_refl
  have hL : ([.free, .out, .ident, .log, .host, .ctx, .sec, .loader, .installed, .tiles, .dies, .links, .signals, .mem, .ports, .coll] : List Block) ⊆ [.free, .out, .ident, .log, .host, .ctx, .sec, .loader, .installed, .tiles, .dies, .links, .signals, .mem, .ports, .coll] := List.Subset.refl _
  refine ⟨_, rfl, ?_⟩
  repeat' (first
    | with_reducible exact hK
    | with_reducible assumption
    | with_reducible exact List.Subset.trans (by decide) hL
    | with_reducible apply endCurtain_frame
    | with_reducible apply pumpPorts_frame
    | with_reducible apply serveWaiting_frame
    | split
    | fail_if_no_progress with_reducible refine changesOnly_lit ?_ ?_ ?_ ?_ ?_ ?_ ?_ ?_ ?_ ?_ ?_ ?_ ?_ ?_ ?_ ?_ ?_ ?_ ?_ ?_ ?_ ?_ ?_ ?_ ?_ ?_ ?_ ?_ ?_ ?_
    | with_reducible exact .inl rfl
    | exact Or.inr (hL (by decide))
    | dsimp only)

theorem startField_frame {L : List Block} {s₀ s₁ : State} (kind : BitVec 4) (hK : changesOnly L s₀ s₁)
    (hL : [.out, .log, .host, .dies, .field] ⊆ L) : changesOnly L s₀ (startField kind s₁) := by
  unfold startField
  repeat' (first
    | with_reducible exact hK
    | with_reducible assumption
    | with_reducible exact List.Subset.trans (by decide) hL
    | with_reducible apply mapDies_frame
    | with_reducible apply report_frame
    | with_reducible refine changesOnly_ite ?_ ?_
    | split
    | fail_if_no_progress with_reducible refine changesOnly_out ?_ (List.Subset.trans (by decide) hL)
    | fail_if_no_progress with_reducible refine changesOnly_log ?_ (List.Subset.trans (by decide) hL)
    | fail_if_no_progress with_reducible refine changesOnly_host ?_ (List.Subset.trans (by decide) hL)
    | fail_if_no_progress with_reducible refine changesOnly_dies ?_ (List.Subset.trans (by decide) hL)
    | fail_if_no_progress with_reducible refine changesOnly_field ?_ (List.Subset.trans (by decide) hL)
    | fail_if_no_progress with_reducible refine changesOnly_lit ?_ ?_ ?_ ?_ ?_ ?_ ?_ ?_ ?_ ?_ ?_ ?_ ?_ ?_ ?_ ?_ ?_ ?_ ?_ ?_ ?_ ?_ ?_ ?_ ?_ ?_ ?_ ?_ ?_ ?_
    | with_reducible exact .inl rfl
    | exact Or.inr (hL (by decide)))

theorem execFieldTileCheck_frame {s₁ : State}  :
    ∃ s₂, execFieldTileCheck s₁ = .next s₂ ∧ changesOnly [.out, .log, .host, .dies, .field] s₁ s₂ := by
  have hK : changesOnly [.out, .log, .host, .dies, .field] s₁ s₁ := changesOnly_refl
  have hL : ([.out, .log, .host, .dies, .field] : List Block) ⊆ [.out, .log, .host, .dies, .field] := List.Subset.refl _
  refine ⟨_, rfl, ?_⟩
  repeat' (first
    | with_reducible exact hK
    | with_reducible assumption
    | with_reducible exact List.Subset.trans (by decide) hL
    | with_reducible refine when'_frame _ ?_ (fun _ _ => ?_)
    | with_reducible apply startField_frame)

theorem execFieldCellColumnBist_frame {s₁ : State}  :
    ∃ s₂, execFieldCellColumnBist s₁ = .next s₂ ∧ changesOnly [.out, .log, .host, .dies, .field] s₁ s₂ := by
  have hK : changesOnly [.out, .log, .host, .dies, .field] s₁ s₁ := changesOnly_refl
  have hL : ([.out, .log, .host, .dies, .field] : List Block) ⊆ [.out, .log, .host, .dies, .field] := List.Subset.refl _
  refine ⟨_, rfl, ?_⟩
  repeat' (first
    | with_reducible exact hK
    | with_reducible assumption
    | with_reducible exact List.Subset.trans (by decide) hL
    | with_reducible refine when'_frame _ ?_ (fun _ _ => ?_)
    | with_reducible apply startField_frame)

theorem execFieldDeckCheck_frame {s₁ : State}  :
    ∃ s₂, execFieldDeckCheck s₁ = .next s₂ ∧ changesOnly [.out, .log, .host, .dies, .field] s₁ s₂ := by
  have hK : changesOnly [.out, .log, .host, .dies, .field] s₁ s₁ := changesOnly_refl
  have hL : ([.out, .log, .host, .dies, .field] : List Block) ⊆ [.out, .log, .host, .dies, .field] := List.Subset.refl _
  refine ⟨_, rfl, ?_⟩
  repeat' (first
    | with_reducible exact hK
    | with_reducible assumption
    | with_reducible exact List.Subset.trans (by decide) hL
    | with_reducible refine when'_frame _ ?_ (fun _ _ => ?_)
    | with_reducible apply startField_frame)

theorem execFieldStackMarch_frame {s₁ : State}  :
    ∃ s₂, execFieldStackMarch s₁ = .next s₂ ∧ changesOnly [.out, .log, .host, .dies, .field] s₁ s₂ := by
  have hK : changesOnly [.out, .log, .host, .dies, .field] s₁ s₁ := changesOnly_refl
  have hL : ([.out, .log, .host, .dies, .field] : List Block) ⊆ [.out, .log, .host, .dies, .field] := List.Subset.refl _
  refine ⟨_, rfl, ?_⟩
  repeat' (first
    | with_reducible exact hK
    | with_reducible assumption
    | with_reducible exact List.Subset.trans (by decide) hL
    | with_reducible refine when'_frame _ ?_ (fun _ _ => ?_)
    | with_reducible apply startField_frame)

theorem afterField_frame {L : List Block} {s₀ s₁ : State} (kind : BitVec 4) (hK : changesOnly L s₀ s₁)
    (hL : [.dies, .mem] ⊆ L) : changesOnly L s₀ (afterField kind s₁) := by
  unfold afterField
  repeat' (first
    | with_reducible exact hK
    | with_reducible assumption
    | with_reducible exact List.Subset.trans (by decide) hL
    | with_reducible apply railsDown_frame
    | with_reducible apply loseDeckSram_frame
    | with_reducible refine changesOnly_ite ?_ ?_
    | split
    | fail_if_no_progress with_reducible refine changesOnly_dies ?_ (List.Subset.trans (by decide) hL)
    | fail_if_no_progress with_reducible refine changesOnly_mem ?_ (List.Subset.trans (by decide) hL)
    | fail_if_no_progress with_reducible refine changesOnly_lit ?_ ?_ ?_ ?_ ?_ ?_ ?_ ?_ ?_ ?_ ?_ ?_ ?_ ?_ ?_ ?_ ?_ ?_ ?_ ?_ ?_ ?_ ?_ ?_ ?_ ?_ ?_ ?_ ?_ ?_
    | with_reducible exact .inl rfl
    | exact Or.inr (hL (by decide)))

theorem endField_frame {L : List Block} {s₀ s₁ : State} (kind : BitVec 4) (faults : List Part) (tracks : List (LinkDir × Nat × Nat)) (elapsedMs : Word) (hK : changesOnly L s₀ s₁)
    (hL : [.out, .log, .host, .ctx, .loader, .installed, .tiles, .dies, .links, .signals, .defects, .mem, .thermal, .nv, .field, .coll] ⊆ L) : changesOnly L s₀ (endField kind faults tracks elapsedMs s₁) := by
  unfold endField
  repeat' (first
    | with_reducible exact hK
    | with_reducible assumption
    | with_reducible exact List.Subset.trans (by decide) hL
    | with_reducible apply report_frame
    | with_reducible apply recordFaults_frame
    | with_reducible apply afterField_frame
    | with_reducible refine changesOnly_ite ?_ ?_
    | split
    | fail_if_no_progress with_reducible refine changesOnly_out ?_ (List.Subset.trans (by decide) hL)
    | fail_if_no_progress with_reducible refine changesOnly_log ?_ (List.Subset.trans (by decide) hL)
    | fail_if_no_progress with_reducible refine changesOnly_host ?_ (List.Subset.trans (by decide) hL)
    | fail_if_no_progress with_reducible refine changesOnly_ctx ?_ (List.Subset.trans (by decide) hL)
    | fail_if_no_progress with_reducible refine changesOnly_loader ?_ (List.Subset.trans (by decide) hL)
    | fail_if_no_progress with_reducible refine changesOnly_installed ?_ (List.Subset.trans (by decide) hL)
    | fail_if_no_progress with_reducible refine changesOnly_tiles ?_ (List.Subset.trans (by decide) hL)
    | fail_if_no_progress with_reducible refine changesOnly_dies ?_ (List.Subset.trans (by decide) hL)
    | fail_if_no_progress with_reducible refine changesOnly_links ?_ (List.Subset.trans (by decide) hL)
    | fail_if_no_progress with_reducible refine changesOnly_signals ?_ (List.Subset.trans (by decide) hL)
    | fail_if_no_progress with_reducible refine changesOnly_defects ?_ (List.Subset.trans (by decide) hL)
    | fail_if_no_progress with_reducible refine changesOnly_mem ?_ (List.Subset.trans (by decide) hL)
    | fail_if_no_progress with_reducible refine changesOnly_thermal ?_ (List.Subset.trans (by decide) hL)
    | fail_if_no_progress with_reducible refine changesOnly_nv ?_ (List.Subset.trans (by decide) hL)
    | fail_if_no_progress with_reducible refine changesOnly_field ?_ (List.Subset.trans (by decide) hL)
    | fail_if_no_progress with_reducible refine changesOnly_coll ?_ (List.Subset.trans (by decide) hL)
    | fail_if_no_progress with_reducible refine changesOnly_lit ?_ ?_ ?_ ?_ ?_ ?_ ?_ ?_ ?_ ?_ ?_ ?_ ?_ ?_ ?_ ?_ ?_ ?_ ?_ ?_ ?_ ?_ ?_ ?_ ?_ ?_ ?_ ?_ ?_ ?_
    | with_reducible exact .inl rfl
    | exact Or.inr (hL (by decide)))

theorem execFieldTestComplete_frame {s₁ : State} (faults : List Part) (tracks : List (LinkDir × Nat × Nat)) (elapsedMs : Word) :
    ∃ s₂, execFieldTestComplete faults tracks elapsedMs s₁ = .next s₂ ∧ changesOnly [.out, .log, .host, .ctx, .loader, .installed, .tiles, .dies, .links, .signals, .defects, .mem, .thermal, .nv, .field, .coll] s₁ s₂ := by
  have hK : changesOnly [.out, .log, .host, .ctx, .loader, .installed, .tiles, .dies, .links, .signals, .defects, .mem, .thermal, .nv, .field, .coll] s₁ s₁ := changesOnly_refl
  have hL : ([.out, .log, .host, .ctx, .loader, .installed, .tiles, .dies, .links, .signals, .defects, .mem, .thermal, .nv, .field, .coll] : List Block) ⊆ [.out, .log, .host, .ctx, .loader, .installed, .tiles, .dies, .links, .signals, .defects, .mem, .thermal, .nv, .field, .coll] := List.Subset.refl _
  refine ⟨_, rfl, ?_⟩
  repeat' (first
    | with_reducible exact hK
    | with_reducible assumption
    | with_reducible exact List.Subset.trans (by decide) hL
    | with_reducible apply endField_frame
    | with_reducible refine changesOnly_ite ?_ ?_
    | split)

theorem latchEvent_frame {L : List Block} {s₀ s₁ : State} (i : BitVec 12) (hK : changesOnly L s₀ s₁)
    (hL : [.log] ⊆ L) : changesOnly L s₀ (latchEvent i s₁) := by
  unfold latchEvent
  repeat' (first
    | with_reducible exact hK
    | with_reducible assumption
    | with_reducible exact List.Subset.trans (by decide) hL
    | with_reducible refine changesOnly_ite ?_ ?_
    | split
    | fail_if_no_progress with_reducible refine changesOnly_log ?_ (List.Subset.trans (by decide) hL)
    | fail_if_no_progress with_reducible refine changesOnly_lit ?_ ?_ ?_ ?_ ?_ ?_ ?_ ?_ ?_ ?_ ?_ ?_ ?_ ?_ ?_ ?_ ?_ ?_ ?_ ?_ ?_ ?_ ?_ ?_ ?_ ?_ ?_ ?_ ?_ ?_
    | with_reducible exact .inl rfl
    | exact Or.inr (hL (by decide)))

theorem execEvIndexWrite_frame {s₁ : State} (i : BitVec 12) :
    ∃ s₂, execEvIndexWrite i s₁ = .next s₂ ∧ changesOnly [.log] s₁ s₂ := by
  have hK : changesOnly [.log] s₁ s₁ := changesOnly_refl
  have hL : ([.log] : List Block) ⊆ [.log] := List.Subset.refl _
  refine ⟨_, rfl, ?_⟩
  repeat' (first
    | with_reducible exact hK
    | with_reducible assumption
    | with_reducible exact List.Subset.trans (by decide) hL
    | with_reducible refine when'_frame _ ?_ (fun _ _ => ?_)
    | with_reducible apply latchEvent_frame)

theorem writeEngine_frame {L : List Block} {s₀ s₁ : State} (o : Nat) (w : Word) (hK : changesOnly L s₀ s₁)
    (hL : [.out, .log, .host] ⊆ L) : changesOnly L s₀ (writeEngine o w s₁) := by
  unfold writeEngine
  repeat' (first
    | with_reducible exact hK
    | with_reducible assumption
    | with_reducible exact List.Subset.trans (by decide) hL
    | with_reducible apply sendPending_frame
    | with_reducible apply decideFailover_frame
    | with_reducible refine changesOnly_ite ?_ ?_
    | split
    | fail_if_no_progress with_reducible refine changesOnly_out ?_ (List.Subset.trans (by decide) hL)
    | fail_if_no_progress with_reducible refine changesOnly_log ?_ (List.Subset.trans (by decide) hL)
    | fail_if_no_progress with_reducible refine changesOnly_host ?_ (List.Subset.trans (by decide) hL)
    | fail_if_no_progress with_reducible refine changesOnly_lit ?_ ?_ ?_ ?_ ?_ ?_ ?_ ?_ ?_ ?_ ?_ ?_ ?_ ?_ ?_ ?_ ?_ ?_ ?_ ?_ ?_ ?_ ?_ ?_ ?_ ?_ ?_ ?_ ?_ ?_
    | with_reducible exact .inl rfl
    | exact Or.inr (hL (by decide)))

theorem writeQueue_frame {L : List Block} {s₀ s₁ : State} (i : Slot) (q : QId) (o : Nat) (w : Word) (hK : changesOnly L s₀ s₁)
    (hL : [.out, .log, .host, .ctx] ⊆ L) : changesOnly L s₀ (writeQueue i q o w s₁) := by
  unfold writeQueue
  repeat' (first
    | with_reducible exact hK
    | with_reducible assumption
    | with_reducible exact List.Subset.trans (by decide) hL
    | with_reducible apply modQueue_frame
    | with_reducible apply cancelQueue_frame
    | with_reducible refine changesOnly_ite ?_ ?_
    | split)

theorem writeRing_frame {L : List Block} {s₀ s₁ : State} (i : Slot) (w : Word) (hK : changesOnly L s₀ s₁)
    (hL : [.out, .log, .host, .ctx] ⊆ L) : changesOnly L s₀ (writeRing i w s₁) := by
  unfold writeRing
  repeat' (first
    | with_reducible exact hK
    | with_reducible assumption
    | with_reducible exact List.Subset.trans (by decide) hL
    | with_reducible apply modCtx_frame
    | with_reducible apply enableRing_frame
    | with_reducible apply disableRing_frame
    | with_reducible refine changesOnly_ite ?_ ?_
    | split
    | fail_if_no_progress with_reducible refine changesOnly_out ?_ (List.Subset.trans (by decide) hL)
    | fail_if_no_progress with_reducible refine changesOnly_log ?_ (List.Subset.trans (by decide) hL)
    | fail_if_no_progress with_reducible refine changesOnly_host ?_ (List.Subset.trans (by decide) hL)
    | fail_if_no_progress with_reducible refine changesOnly_ctx ?_ (List.Subset.trans (by decide) hL)
    | fail_if_no_progress with_reducible refine changesOnly_lit ?_ ?_ ?_ ?_ ?_ ?_ ?_ ?_ ?_ ?_ ?_ ?_ ?_ ?_ ?_ ?_ ?_ ?_ ?_ ?_ ?_ ?_ ?_ ?_ ?_ ?_ ?_ ?_ ?_ ?_
    | with_reducible exact .inl rfl)

theorem writeCtx_frame {L : List Block} {s₀ s₁ : State} (i : Slot) (o : Nat) (w : Word) (hK : changesOnly L s₀ s₁)
    (hL : [.out, .log, .host, .ctx] ⊆ L) : changesOnly L s₀ (writeCtx i o w s₁) := by
  unfold writeCtx
  repeat' (first
    | with_reducible exact hK
    | with_reducible assumption
    | with_reducible exact List.Subset.trans (by decide) hL
    | with_reducible apply modCtx_frame
    | with_reducible apply headWrite_frame
    | with_reducible apply writeQueue_frame
    | with_reducible apply writeRing_frame
    | with_reducible refine changesOnly_ite ?_ ?_
    | split)

theorem writeLoader_frame {L : List Block} {s₀ s₁ : State} (o : Nat) (w : Word) (hK : changesOnly L s₀ s₁)
    (hL : [.out, .log, .host, .loader, .installed, .tiles, .dies, .links, .signals, .mem] ⊆ L) : changesOnly L s₀ (writeLoader o w s₁) := by
  unfold writeLoader
  repeat' (first
    | with_reducible exact hK
    | with_reducible assumption
    | with_reducible exact List.Subset.trans (by decide) hL
    | with_reducible apply setLoadCtrl_frame
    | with_reducible apply startOp_frame
    | with_reducible apply reservedOp_frame
    | split
    | fail_if_no_progress with_reducible refine changesOnly_lit ?_ ?_ ?_ ?_ ?_ ?_ ?_ ?_ ?_ ?_ ?_ ?_ ?_ ?_ ?_ ?_ ?_ ?_ ?_ ?_ ?_ ?_ ?_ ?_ ?_ ?_ ?_ ?_ ?_ ?_
    | with_reducible exact .inl rfl
    | exact Or.inr (hL (by decide))
    | dsimp only)

theorem writePower_frame {L : List Block} {s₀ s₁ : State} (o : Nat) (w : Word) (hK : changesOnly L s₀ s₁)
    (hL : [.power, .thermal] ⊆ L) : changesOnly L s₀ (writePower o w s₁) := by
  unfold writePower
  repeat' (first
    | with_reducible exact hK
    | with_reducible assumption
    | with_reducible exact List.Subset.trans (by decide) hL
    | with_reducible refine changesOnly_ite ?_ ?_
    | split
    | fail_if_no_progress with_reducible refine changesOnly_power ?_ (List.Subset.trans (by decide) hL)
    | fail_if_no_progress with_reducible refine changesOnly_thermal ?_ (List.Subset.trans (by decide) hL)
    | fail_if_no_progress with_reducible refine changesOnly_lit ?_ ?_ ?_ ?_ ?_ ?_ ?_ ?_ ?_ ?_ ?_ ?_ ?_ ?_ ?_ ?_ ?_ ?_ ?_ ?_ ?_ ?_ ?_ ?_ ?_ ?_ ?_ ?_ ?_ ?_
    | with_reducible exact .inl rfl
    | exact Or.inr (hL (by decide)))

theorem writePortCtrl_frame {L : List Block} {s₀ s₁ : State} (p : PortId) (w : Word) (hK : changesOnly L s₀ s₁)
    (hL : [.out, .log, .host, .ports] ⊆ L) : changesOnly L s₀ (writePortCtrl p w s₁) := by
  unfold writePortCtrl
  repeat' (first
    | with_reducible exact hK
    | with_reducible assumption
    | with_reducible exact List.Subset.trans (by decide) hL
    | with_reducible apply modPort_frame
    | with_reducible apply trainPort_frame
    | with_reducible apply setEnable_frame
    | with_reducible refine changesOnly_ite ?_ ?_
    | split)

theorem writePort_frame {L : List Block} {s₀ s₁ : State} (p : PortId) (o : Nat) (w : Word) (hK : changesOnly L s₀ s₁)
    (hL : [.out, .log, .host, .ports] ⊆ L) : changesOnly L s₀ (writePort p o w s₁) := by
  unfold writePort
  repeat' (first
    | with_reducible exact hK
    | with_reducible assumption
    | with_reducible exact List.Subset.trans (by decide) hL
    | with_reducible apply modPort_frame
    | with_reducible apply writePortCtrl_frame
    | with_reducible refine changesOnly_ite ?_ ?_
    | split)

theorem writeLog_frame {L : List Block} {s₀ s₁ : State} (o : Nat) (w : Word) (hK : changesOnly L s₀ s₁)
    (hL : [.log, .defects] ⊆ L) : changesOnly L s₀ (writeLog o w s₁) := by
  unfold writeLog
  repeat' (first
    | with_reducible exact hK
    | with_reducible assumption
    | with_reducible exact List.Subset.trans (by decide) hL
    | with_reducible apply latchEvent_frame
    | with_reducible refine changesOnly_ite ?_ ?_
    | split
    | fail_if_no_progress with_reducible refine changesOnly_log ?_ (List.Subset.trans (by decide) hL)
    | fail_if_no_progress with_reducible refine changesOnly_defects ?_ (List.Subset.trans (by decide) hL)
    | fail_if_no_progress with_reducible refine changesOnly_lit ?_ ?_ ?_ ?_ ?_ ?_ ?_ ?_ ?_ ?_ ?_ ?_ ?_ ?_ ?_ ?_ ?_ ?_ ?_ ?_ ?_ ?_ ?_ ?_ ?_ ?_ ?_ ?_ ?_ ?_
    | with_reducible exact .inl rfl
    | exact Or.inr (hL (by decide)))

theorem writeNv_frame {L : List Block} {s₀ s₁ : State} (o : Nat) (w : Word) (hK : changesOnly L s₀ s₁)
    (hL : [.out, .log, .host, .nv] ⊆ L) : changesOnly L s₀ (writeNv o w s₁) := by
  unfold writeNv
  repeat' (first
    | with_reducible exact hK
    | with_reducible assumption
    | with_reducible exact List.Subset.trans (by decide) hL
    | with_reducible apply requestStore_frame
    | with_reducible refine changesOnly_ite ?_ ?_
    | split
    | fail_if_no_progress with_reducible refine changesOnly_out ?_ (List.Subset.trans (by decide) hL)
    | fail_if_no_progress with_reducible refine changesOnly_log ?_ (List.Subset.trans (by decide) hL)
    | fail_if_no_progress with_reducible refine changesOnly_host ?_ (List.Subset.trans (by decide) hL)
    | fail_if_no_progress with_reducible refine changesOnly_nv ?_ (List.Subset.trans (by decide) hL)
    | fail_if_no_progress with_reducible refine changesOnly_lit ?_ ?_ ?_ ?_ ?_ ?_ ?_ ?_ ?_ ?_ ?_ ?_ ?_ ?_ ?_ ?_ ?_ ?_ ?_ ?_ ?_ ?_ ?_ ?_ ?_ ?_ ?_ ?_ ?_ ?_
    | with_reducible exact .inl rfl
    | exact Or.inr (hL (by decide)))

theorem ite_frame {L : List Block} {s x y : State} {c : Prop} [Decidable c] (h : changesOnly L s x)
    (k : changesOnly L s y) : changesOnly L s (if c then x else y) := by
  split <;> assumption

theorem writeSec_frame {L : List Block} {s₀ s₁ : State} (o : Nat) (w : Word) (hK : changesOnly L s₀ s₁)
    (hL : [.free, .out, .log, .host, .ctx, .sec, .loader, .installed, .tiles, .links, .signals, .mem, .ports, .coll] ⊆ L) : changesOnly L s₀ (writeSec o w s₁) := by
  unfold writeSec
  dsimp only
  have h (x : Security) : changesOnly L s₀ { s₁ with sec := x } :=
    changesOnly_trans hK ⟨rfl, fun b hb => by cases b <;> first | exact absurd (hL (by decide)) hb | rfl⟩
  exact ite_frame (ite_frame (goMailbox_frame (h _) (List.Subset.trans (by decide) hL)) (h _))
    (ite_frame (h _) (ite_frame (h _) hK))

theorem writeTest_frame {L : List Block} {s₀ s₁ : State} (o : Nat) (w : Word) (hK : changesOnly L s₀ s₁)
    (hL : [.free, .out, .log, .host, .dies, .pattern, .field] ⊆ L) : changesOnly L s₀ (writeTest o w s₁) := by
  unfold writeTest
  repeat' (first
    | with_reducible exact hK
    | with_reducible assumption
    | with_reducible exact List.Subset.trans (by decide) hL
    | with_reducible apply startPattern_frame
    | with_reducible apply endPattern_frame
    | with_reducible apply startField_frame
    | with_reducible refine changesOnly_ite ?_ ?_
    | split
    | fail_if_no_progress with_reducible refine changesOnly_free ?_ (List.Subset.trans (by decide) hL)
    | fail_if_no_progress with_reducible refine changesOnly_out ?_ (List.Subset.trans (by decide) hL)
    | fail_if_no_progress with_reducible refine changesOnly_log ?_ (List.Subset.trans (by decide) hL)
    | fail_if_no_progress with_reducible refine changesOnly_host ?_ (List.Subset.trans (by decide) hL)
    | fail_if_no_progress with_reducible refine changesOnly_dies ?_ (List.Subset.trans (by decide) hL)
    | fail_if_no_progress with_reducible refine changesOnly_pattern ?_ (List.Subset.trans (by decide) hL)
    | fail_if_no_progress with_reducible refine changesOnly_field ?_ (List.Subset.trans (by decide) hL)
    | fail_if_no_progress with_reducible refine changesOnly_lit ?_ ?_ ?_ ?_ ?_ ?_ ?_ ?_ ?_ ?_ ?_ ?_ ?_ ?_ ?_ ?_ ?_ ?_ ?_ ?_ ?_ ?_ ?_ ?_ ?_ ?_ ?_ ?_ ?_ ?_
    | with_reducible exact .inl rfl
    | exact Or.inr (hL (by decide)))

theorem writeReg_frame {L : List Block} {s₀ s₁ : State} (a : Nat) (w : Word) (hK : changesOnly L s₀ s₁)
    (hL : [.free, .out, .log, .host, .ctx, .sec, .loader, .installed, .tiles, .dies, .links, .signals, .defects, .mem, .power, .thermal, .nv, .ports, .fabricGroup, .pattern, .field, .coll] ⊆ L) : changesOnly L s₀ (writeReg a w s₁) := by
  unfold writeReg
  have h (x : BitVec 12) : changesOnly L s₀ { s₁ with fabricGroup := x } :=
    changesOnly_trans hK ⟨rfl, fun b hb => by cases b <;> first | exact absurd (hL (by decide)) hb | rfl⟩
  exact ite_frame hK <| ite_frame (writeEngine_frame _ _ hK (List.Subset.trans (by decide) hL)) <|
    ite_frame (writeCtx_frame _ _ _ hK (List.Subset.trans (by decide) hL)) <| ite_frame hK <|
    ite_frame (writeLoader_frame _ _ hK (List.Subset.trans (by decide) hL)) <|
    ite_frame (writePower_frame _ _ hK (List.Subset.trans (by decide) hL)) <|
    ite_frame (writePort_frame _ _ _ hK (List.Subset.trans (by decide) hL)) <|
    ite_frame (ite_frame (h _) hK) <|
    ite_frame (writeLog_frame _ _ hK (List.Subset.trans (by decide) hL)) <|
    ite_frame (writeNv_frame _ _ hK (List.Subset.trans (by decide) hL)) <|
    ite_frame (writeSec_frame _ _ hK (List.Subset.trans (by decide) hL)) <|
    ite_frame (writeTest_frame _ _ hK (List.Subset.trans (by decide) hL)) hK

theorem execRegisterWrite_frame {s₁ : State} (addr : BitVec 24) (value : Word) :
    ∃ s₂, execRegisterWrite addr value s₁ = .next s₂ ∧ changesOnly [.free, .out, .log, .host, .ctx, .sec, .loader, .installed, .tiles, .dies, .links, .signals, .defects, .mem, .power, .thermal, .nv, .ports, .fabricGroup, .pattern, .field, .coll] s₁ s₂ := by
  have hK : changesOnly [.free, .out, .log, .host, .ctx, .sec, .loader, .installed, .tiles, .dies, .links, .signals, .defects, .mem, .power, .thermal, .nv, .ports, .fabricGroup, .pattern, .field, .coll] s₁ s₁ := changesOnly_refl
  have hL : ([.free, .out, .log, .host, .ctx, .sec, .loader, .installed, .tiles, .dies, .links, .signals, .defects, .mem, .power, .thermal, .nv, .ports, .fabricGroup, .pattern, .field, .coll] : List Block) ⊆ [.free, .out, .log, .host, .ctx, .sec, .loader, .installed, .tiles, .dies, .links, .signals, .defects, .mem, .power, .thermal, .nv, .ports, .fabricGroup, .pattern, .field, .coll] := List.Subset.refl _
  refine ⟨_, rfl, ?_⟩
  repeat' (first
    | with_reducible exact hK
    | with_reducible assumption
    | with_reducible exact List.Subset.trans (by decide) hL
    | with_reducible refine when'_frame _ ?_ (fun _ _ => ?_)
    | with_reducible apply writeReg_frame
    | split
    | fail_if_no_progress with_reducible refine changesOnly_lit ?_ ?_ ?_ ?_ ?_ ?_ ?_ ?_ ?_ ?_ ?_ ?_ ?_ ?_ ?_ ?_ ?_ ?_ ?_ ?_ ?_ ?_ ?_ ?_ ?_ ?_ ?_ ?_ ?_ ?_
    | with_reducible exact .inl rfl
    | exact Or.inr (hL (by decide))
    | dsimp only)

end Sys2Proof.Machine
end

