-- ==== Sys2Proof/Laws/Memory.lean ====
section
/-! SUPPORT. The laws of the sparse lists and of the engine's memory: every operation keeps the canonical form, a read
after a write gives the value written, and a write leaves every other address alone. -/

namespace Sys2Proof.Machine

set_option linter.all false
set_option Elab.async false

open Sys2Proof

variable {α : Type}

/-- The canonical form, said of the whole list. -/
theorem canon_iff [DecidableEq α] (d : α) (l : List (Nat × α)) :
    canon d l = true ↔ l.Pairwise (fun x y => x.1 < y.1) ∧ ∀ p ∈ l, p.2 ≠ d := by
  induction l with
  | nil => simp [canon]
  | cons x r ih =>
    obtain ⟨k, v⟩ := x
    cases r with
    | nil => simp [canon]
    | cons y r' =>
      obtain ⟨k', v'⟩ := y
      simp only [canon, Bool.and_eq_true, decide_eq_true_eq, ih]
      simp only [List.pairwise_cons, List.mem_cons, forall_eq_or_imp]
      constructor
      · rintro ⟨⟨h1, h2⟩, ⟨⟨h3, h4⟩, h5, h6⟩⟩
        exact ⟨⟨⟨h2, fun p hp => lt_trans h2 (h3 p hp)⟩, h3, h4⟩, h1, h5, h6⟩
      · rintro ⟨⟨⟨h2, -⟩, h3, h4⟩, h1, h5, h6⟩
        exact ⟨⟨h1, h2⟩, ⟨h3, h4⟩, h5, h6⟩

/-- Leaving entries out keeps the canonical form. -/
theorem canon_filter [DecidableEq α] (d : α) (p : Nat × α → Bool) (l : List (Nat × α)) (h : canon d l = true) :
    canon d (l.filter p) = true := by
  rw [canon_iff] at *
  exact ⟨h.1.filter p, fun x hx => h.2 x (List.mem_filter.1 hx).1⟩

/-- Keys of the list after a key is put in come from the list or are that key. -/
theorem mem_putKey (drop : Bool) (v : α) (l : List (Nat × α)) (i : Nat) (x : Nat × α)
    (hx : x ∈ putKey drop v l i) : x ∈ l ∨ (drop = false ∧ x = (i, v)) := by
  induction l with
  | nil => cases drop <;> simp_all [putKey]
  | cons y r ih =>
    obtain ⟨k, w⟩ := y
    simp only [putKey] at hx
    split at hx
    · cases drop <;> simp_all
      tauto
    · split at hx
      · cases drop <;> simp_all
        tauto
      · simp only [List.mem_cons] at hx ⊢
        rcases hx with h | h
        · exact .inl (.inl h)
        · rcases ih h with h | h
          · exact .inl (.inr h)
          · exact .inr h

theorem pairwise_putKey (drop : Bool) (v : α) (l : List (Nat × α)) (i : Nat)
    (h : l.Pairwise fun x y => x.1 < y.1) : (putKey drop v l i).Pairwise fun x y => x.1 < y.1 := by
  induction l with
  | nil => cases drop <;> simp [putKey]
  | cons y r ih =>
    obtain ⟨k, w⟩ := y
    rw [List.pairwise_cons] at h
    simp only [putKey]
    split
    · rename_i hk
      cases drop
      · simp only [Bool.false_eq_true, if_false, List.pairwise_cons, List.mem_cons]
        refine ⟨?_, h.1, h.2⟩
        rintro a (rfl | ha)
        · exact hk
        · exact lt_trans hk (h.1 a ha)
      · simpa using h
    · split
      · rename_i hk
        subst hk
        cases drop
        · simpa using h
        · simpa using h.2
      · rename_i h1 h2
        rw [List.pairwise_cons]
        refine ⟨fun a ha => ?_, ih h.2⟩
        rcases mem_putKey drop v r i a ha with hm | ⟨-, rfl⟩
        · exact h.1 a hm
        · exact lt_of_le_of_ne (Nat.le_of_not_lt h1) h2

/-- Storing a value keeps the canonical form. -/
theorem canon_store [DecidableEq α] (d : α) (l : List (Nat × α)) (i : Nat) (v : α) (h : canon d l = true) :
    canon d (store d l i v) = true := by
  rw [canon_iff] at *
  refine ⟨pairwise_putKey _ v l i h.1, fun x hx => ?_⟩
  rcases mem_putKey _ v l i x hx with hm | ⟨hd, rfl⟩
  · exact h.2 x hm
  · simpa using hd

theorem look_of_lt (d : α) (l : List (Nat × α)) (i : Nat) (h : ∀ p ∈ l, i < p.1) : look d l i = d := by
  cases l with
  | nil => rfl
  | cons y r =>
    obtain ⟨k, w⟩ := y
    have := h (k, w) (by simp)
    simp only [look]
    rw [if_neg (by simp at this; omega), if_pos (by simpa using this)]

/-- A read after a store at the same key gives the value stored. -/
theorem look_store_same [DecidableEq α] (d : α) (l : List (Nat × α)) (i : Nat) (v : α) (h : canon d l = true) :
    look d (store d l i v) i = v := by
  rw [canon_iff] at h
  unfold store
  have hp := h.1
  clear h
  induction l with
  | nil => by_cases hv : v = d <;> simp [putKey, look, hv]
  | cons y r ih =>
    obtain ⟨k, w⟩ := y
    rw [List.pairwise_cons] at hp
    simp only [putKey]
    by_cases h1 : i < k
    · by_cases hv : v = d
      · simp [h1, hv, look, Nat.ne_of_gt h1]
      · simp [h1, hv, look]
    · by_cases h2 : k = i
      · subst h2
        by_cases hv : v = d
        · subst hv
          simpa using look_of_lt v r k fun p hp' => hp.1 p hp'
        · simp [hv, look]
      · simp only [h1, h2, if_false, look]
        exact ih hp.2

/-- A store leaves what every other key reads as. -/
theorem look_store_other [DecidableEq α] (d : α) (l : List (Nat × α)) (i j : Nat) (v : α) (h : canon d l = true) (hij : j ≠ i) :
    look d (store d l i v) j = look d l j := by
  rw [canon_iff] at h
  unfold store
  have hp := h.1
  clear h
  induction l with
  | nil =>
    by_cases hv : v = d
    · simp [putKey, look, hv]
    · simp [putKey, look, hv, Ne.symm hij]
  | cons y r ih =>
    obtain ⟨k, w⟩ := y
    rw [List.pairwise_cons] at hp
    simp only [putKey]
    by_cases h1 : i < k
    · by_cases hv : v = d
      · simp [h1, hv]
      · simp only [h1, hv, decide_false, if_true, Bool.false_eq_true, if_false]
        simp only [look, Ne.symm hij, if_false]
        split
        · rw [if_neg (by omega), if_pos (by omega)]
        · rfl
    · by_cases h2 : k = i
      · subst h2
        by_cases hv : v = d
        · simp only [hv, lt_irrefl, if_false, decide_true, if_true]
          simp only [look, Ne.symm hij, if_false]
          split
          · rename_i hj
            exact look_of_lt d r j fun p hp' => lt_trans hj (hp.1 p hp')
          · rfl
        · simp only [lt_irrefl, if_false, hv, decide_false, if_true, Bool.false_eq_true]
          simp only [look, Ne.symm hij, if_false]
      · simp only [h1, h2, if_false, look]
        rw [ih hp.2]

/-! ### The engine's memory -/

theorem writeByte_wf (m : List Host.Cell) (k : Nat) (b : Byte) (h : Memory.wf m) : Memory.wf (writeByte m k b) :=
  canon_store _ m k b h

theorem writeBytes_wf (m : List Host.Cell) (k : Nat) (b : Bytes) (h : Memory.wf m) :
    Memory.wf (writeBytes m k b) := by
  induction b generalizing m k with
  | nil => exact h
  | cons x r ih => exact ih _ _ (writeByte_wf m k x h)

theorem zeroRange_wf (m : List Host.Cell) (k n : Nat) (h : Memory.wf m) : Memory.wf (zeroRange m k n) :=
  canon_filter _ _ m h

theorem filter_wf (m : List Host.Cell) (p : Host.Cell → Bool) (h : Memory.wf m) : Memory.wf (m.filter p) :=
  canon_filter _ p m h

theorem readByte_writeByte_same (m : List Host.Cell) (k : Nat) (b : Byte) (h : Memory.wf m) :
    readByte (writeByte m k b) k = b :=
  look_store_same _ m k b h

theorem readByte_writeByte_other (m : List Host.Cell) (k j : Nat) (b : Byte) (h : Memory.wf m) (hj : j ≠ k) :
    readByte (writeByte m k b) j = readByte m j :=
  look_store_other _ m k j b h hj

/-- A byte string written leaves every byte outside it as it was. -/
theorem readByte_writeBytes_other (m : List Host.Cell) (k j : Nat) (b : Bytes) (h : Memory.wf m)
    (hj : j < k ∨ k + b.length ≤ j) : readByte (writeBytes m k b) j = readByte m j := by
  induction b generalizing m k with
  | nil => rfl
  | cons x r ih =>
    simp only [List.length_cons] at hj
    rw [writeBytes, ih _ _ (writeByte_wf m k x h) (by omega), readByte_writeByte_other m k j x h (by omega)]

/-- A byte string written reads back. -/
theorem readByte_writeBytes_same (m : List Host.Cell) (k j : Nat) (b : Bytes) (h : Memory.wf m) (hj : j < b.length) :
    readByte (writeBytes m k b) (k + j) = b[j] := by
  induction b generalizing m k j with
  | nil => simp at hj
  | cons x r ih =>
    rw [writeBytes]
    cases j with
    | zero =>
      rw [readByte_writeBytes_other _ _ _ _ (writeByte_wf m k x h) (by omega), Nat.add_zero,
        readByte_writeByte_same m k x h]
      rfl
    | succ j =>
      have := ih (writeByte m k x) (k + 1) j (writeByte_wf m k x h) (by simpa using hj)
      rw [show k + (j + 1) = k + 1 + j by omega, this]
      rfl

/-- A fold of writes keeps the canonical form. -/
theorem foldl_wf {β : Type} {f : List Host.Cell → β → List Host.Cell} {l : List β} {m : List Host.Cell}
    (h : Memory.wf m) (hf : ∀ b m, Memory.wf m → Memory.wf (f m b)) : Memory.wf (l.foldl f m) := by
  induction l generalizing m with
  | nil => exact h
  | cons a r ih => exact ih (hf a m h)

theorem foldl_fst_wf {β γ : Type} {f : List Host.Cell × γ → β → List Host.Cell × γ} {l : List β}
    {p : List Host.Cell × γ} (h : Memory.wf p.1) (hf : ∀ b p, Memory.wf p.1 → Memory.wf (f p b).1) :
    Memory.wf (l.foldl f p).1 := by
  induction l generalizing p with
  | nil => exact h
  | cons a r ih => exact ih (hf a p h)

theorem look_filter [DecidableEq α] (d : α) (l : List (Nat × α)) (p : Nat → Bool) (j : Nat) (h : canon d l = true) :
    look d (l.filter fun c => p c.1) j = if p j then look d l j else d := by
  rw [canon_iff] at h
  have hp := h.1
  clear h
  induction l with
  | nil => simp [look]
  | cons y r ih =>
    obtain ⟨k, w⟩ := y
    rw [List.pairwise_cons] at hp
    specialize ih hp.2
    by_cases hk : p k = true
    · simp only [List.filter_cons, hk, if_true, look]
      by_cases h1 : k = j
      · subst h1; simp [hk]
      · simp only [h1, if_false]
        by_cases h2 : j < k
        · simp [h2]
        · simp [h2, ih]
    · simp only [List.filter_cons, hk, Bool.false_eq_true, if_false, look]
      rw [ih]
      by_cases h1 : k = j
      · subst h1; simp [hk]
      · simp only [h1, if_false]
        by_cases h2 : j < k
        · simp only [h2, if_true]
          rw [look_of_lt d r j fun q hq => lt_trans h2 (hp.1 q hq)]
        · simp [h2]

/-- After a range is zeroed its bytes read 0 and every other byte is as it was. -/
theorem readByte_zeroRange (m : List Host.Cell) (k n j : Nat) (h : Memory.wf m) :
    readByte (zeroRange m k n) j = if k ≤ j ∧ j < k + n then unwritten else readByte m j := by
  unfold readByte zeroRange
  rw [look_filter unwritten m (fun a => !(decide (k ≤ a) && decide (a < k + n))) j h]
  by_cases h1 : k ≤ j <;> by_cases h2 : j < k + n <;> simp [h1, h2]

end Sys2Proof.Machine
end

