-- ==== Sys2Proof/Laws/Keeps.lean ====
section
/-! SUPPORT. What every operation of the engine keeps, said once as a relation between the state before and after: the
lemmas beside this file prove it of each shared operation, so that an invariant's proof cites one lemma per command and
unfolds none. -/

namespace Sys2Proof.Machine

set_option linter.all false
set_option Elab.async false

open Sys2Proof

/-- The fuses that no command changes (Table 1-1). -/
def Ident.fuses (x : Ident) : BitVec 64 × BitVec 4 × BitVec 4 × Nat × Bytes :=
  (x.serial, x.stepLetter, x.stepNumber, x.minSvn, x.uds)

/-- What every command keeps: the queue, the memory's canonical form, the fuses, a start phase of Table 16-3, the
token, log and self-test bounds, and what has already left. -/
structure Stays (s t : State) : Prop where
  pending : t.pending = s.pending
  mem : Memory.wf s.mem → Memory.wf t.mem
  fuses : t.ident.fuses = s.ident.fuses
  phase : s.start.phase.toNat ≤ 8 → t.start.phase.toNat ≤ 8
  tokens : s.nv.tokens ≤ 6 → t.nv.tokens ≤ 6
  log : s.log.records.length ≤ 4096 → t.log.records.length ≤ 4096
  tests : s.selfTest.running.length ≤ 16 → t.selfTest.running.length ≤ 16
  out : s.out <+: t.out
  tiles : canon Tile.reset s.tiles = true → canon Tile.reset t.tiles = true

/-- No slot gains the engine, and no hand-over begins or goes on to its curtain. -/
structure Cedes (s t : State) : Prop where
  holding : ∀ i, (t.ctxOf i).state = .holding → (s.ctxOf i).state = .holding
  hand : t.sec.handOver = s.sec.handOver ∨ t.sec.handOver = none

/-- Both. -/
structure Keeps (s t : State) : Prop where
  stays : Stays s t
  cedes : Cedes s t

/-- What every command keeps, and the soundness of the holders (Safety.lean). -/
structure Moves (s t : State) : Prop where
  stays : Stays s t
  sound : holdersSound s → holdersSound t

theorem Stays.refl (s : State) : Stays s s :=
  ⟨rfl, id, rfl, id, id, id, id, List.prefix_refl _, id⟩

theorem Stays.trans {s t u : State} (a : Stays s t) (b : Stays t u) : Stays s u :=
  ⟨b.pending.trans a.pending, fun h => b.mem (a.mem h), b.fuses.trans a.fuses, fun h => b.phase (a.phase h),
   fun h => b.tokens (a.tokens h), fun h => b.log (a.log h), fun h => b.tests (a.tests h), a.out.trans b.out,
   fun h => b.tiles (a.tiles h)⟩

theorem Cedes.refl (s : State) : Cedes s s := ⟨fun _ h => h, .inl rfl⟩

theorem Cedes.trans {s t u : State} (a : Cedes s t) (b : Cedes t u) : Cedes s u :=
  ⟨fun i h => a.holding i (b.holding i h), by
    rcases b.hand with h | h
    · rw [h]; exact a.hand
    · exact .inr h⟩

theorem Keeps.refl (s : State) : Keeps s s := ⟨.refl s, .refl s⟩

theorem Keeps.trans {s t u : State} (a : Keeps s t) (b : Keeps t u) : Keeps s u :=
  ⟨a.stays.trans b.stays, a.cedes.trans b.cedes⟩

theorem Cedes.sound {s t : State} (a : Cedes s t) (h : holdersSound s) : holdersSound t := by
  refine ⟨fun i j hi hj => h.one i j (a.holding i hi) (a.holding j hj), fun x hx i hi => ?_, fun x hx hs i hi => ?_⟩
  · rcases a.hand with e | e
    · exact h.outgoing x (e ▸ hx) i (a.holding i hi)
    · exact nomatch e.symm.trans hx
  · rcases a.hand with e | e
    · exact h.curtain x (e ▸ hx) hs i (a.holding i hi)
    · exact nomatch e.symm.trans hx

theorem Keeps.moves {s t : State} (a : Keeps s t) : Moves s t := ⟨a.stays, a.cedes.sound⟩

theorem Moves.refl (s : State) : Moves s s := (Keeps.refl s).moves

theorem Moves.trans {s t u : State} (a : Moves s t) (b : Moves t u) : Moves s u :=
  ⟨a.stays.trans b.stays, fun h => b.sound (a.sound h)⟩

/-- A state that differs only in parts the relation does not speak of. -/
theorem Stays.same {s x y : State} (h : Stays s x) (h1 : y.pending = x.pending) (h2 : y.mem = x.mem)
    (h3 : y.ident = x.ident) (h4 : y.start.phase = x.start.phase) (h5 : y.nv.tokens = x.nv.tokens)
    (h6 : y.log.records = x.log.records) (h7 : y.selfTest.running = x.selfTest.running) (h8 : y.out = x.out) (hT : y.tiles = x.tiles) :
    Stays s y :=
  h.trans ⟨h1, by rw [h2]; exact id, by rw [h3], by rw [h4]; exact id, by rw [h5]; exact id, by rw [h6]; exact id,
    by rw [h7]; exact id, by rw [h8], by rw [hT]; exact id⟩

theorem Keeps.same {s x y : State} (h : Keeps s x) (h1 : y.pending = x.pending) (h2 : y.mem = x.mem)
    (h3 : y.ident = x.ident) (h4 : y.start.phase = x.start.phase) (h5 : y.nv.tokens = x.nv.tokens)
    (h6 : y.log.records = x.log.records) (h7 : y.selfTest.running = x.selfTest.running) (h8 : y.out = x.out) (hT : y.tiles = x.tiles)
    (h9 : y.ctx = x.ctx) (h10 : y.sec.handOver = x.sec.handOver) : Keeps s y :=
  ⟨h.stays.same h1 h2 h3 h4 h5 h6 h7 h8 hT,
   h.cedes.trans ⟨fun i hi => by simpa only [State.ctxOf, h9] using hi, .inl h10⟩⟩

/-- A state that differs in the parts the relation does not speak of and in memory, which keeps its form. -/
theorem Keeps.remem {s x y : State} (h : Keeps s x) (h2 : Memory.wf x.mem → Memory.wf y.mem)
    (h1 : y.pending = x.pending)
    (h3 : y.ident = x.ident) (h4 : y.start.phase = x.start.phase) (h5 : y.nv.tokens = x.nv.tokens)
    (h6 : y.log.records = x.log.records) (h7 : y.selfTest.running = x.selfTest.running) (h8 : y.out = x.out) (hT : y.tiles = x.tiles)
    (h9 : y.ctx = x.ctx) (h10 : y.sec.handOver = x.sec.handOver) : Keeps s y :=
  h.trans ⟨⟨h1, h2, by rw [h3], by rw [h4]; exact id, by rw [h5]; exact id, by rw [h6]; exact id,
    by rw [h7]; exact id, by rw [h8], by rw [hT]; exact id⟩, ⟨fun i hi => by simpa only [State.ctxOf, h9] using hi, .inl h10⟩⟩

/-- A state that differs in the parts the relation does not speak of and in the start phase, which stays a legal one. -/
theorem Keeps.rephase {s x y : State} (h : Keeps s x) (h4 : x.start.phase.toNat ≤ 8 → y.start.phase.toNat ≤ 8)
    (h1 : y.pending = x.pending) (h2 : y.mem = x.mem)
    (h3 : y.ident = x.ident) (h5 : y.nv.tokens = x.nv.tokens)
    (h6 : y.log.records = x.log.records) (h7 : y.selfTest.running = x.selfTest.running) (h8 : y.out = x.out) (hT : y.tiles = x.tiles)
    (h9 : y.ctx = x.ctx) (h10 : y.sec.handOver = x.sec.handOver) : Keeps s y :=
  h.trans ⟨⟨h1, by rw [h2]; exact id, by rw [h3], h4, by rw [h5]; exact id, by rw [h6]; exact id,
    by rw [h7]; exact id, by rw [h8], by rw [hT]; exact id⟩, ⟨fun i hi => by simpa only [State.ctxOf, h9] using hi, .inl h10⟩⟩

/-- The same with a smaller count of wear tokens. -/
theorem Keeps.retoken {s x y : State} (h : Keeps s x) (h5 : x.nv.tokens ≤ 6 → y.nv.tokens ≤ 6)
    (h1 : y.pending = x.pending) (h2 : y.mem = x.mem)
    (h3 : y.ident = x.ident) (h4 : y.start.phase = x.start.phase)
    (h6 : y.log.records = x.log.records) (h7 : y.selfTest.running = x.selfTest.running) (h8 : y.out = x.out) (hT : y.tiles = x.tiles)
    (h9 : y.ctx = x.ctx) (h10 : y.sec.handOver = x.sec.handOver) : Keeps s y :=
  h.trans ⟨⟨h1, by rw [h2]; exact id, by rw [h3], by rw [h4]; exact id, h5, by rw [h6]; exact id,
    by rw [h7]; exact id, by rw [h8], by rw [hT]; exact id⟩, ⟨fun i hi => by simpa only [State.ctxOf, h9] using hi, .inl h10⟩⟩

/-- The same with another list of running self-tests. -/
theorem Keeps.retest {s x y : State} (h : Keeps s x)
    (h7 : x.selfTest.running.length ≤ 16 → y.selfTest.running.length ≤ 16)
    (h1 : y.pending = x.pending) (h2 : y.mem = x.mem)
    (h3 : y.ident = x.ident) (h4 : y.start.phase = x.start.phase) (h5 : y.nv.tokens = x.nv.tokens)
    (h6 : y.log.records = x.log.records) (h8 : y.out = x.out) (hT : y.tiles = x.tiles)
    (h9 : y.ctx = x.ctx) (h10 : y.sec.handOver = x.sec.handOver) : Keeps s y :=
  h.trans ⟨⟨h1, by rw [h2]; exact id, by rw [h3], by rw [h4]; exact id, by rw [h5]; exact id, by rw [h6]; exact id,
    h7, by rw [h8], by rw [hT]; exact id⟩, ⟨fun i hi => by simpa only [State.ctxOf, h9] using hi, .inl h10⟩⟩

/-- A state literal that takes the parts the relation speaks of from an earlier state. -/
theorem Keeps.lit {s x : State} {free' : Nat} {ticks' : Nat} {start' : Startup} {host' : HostAttach} {sec' :
    Security} {loader' : Loader} {installed' : Option Installed} {dies' : Vector
    Die 36} {links' : List LinkState} {signals' : List RouteSignal} {defects' : DefectMap} {selfTest' :
    SelfTest} {power' : Power} {thermal' : Thermal} {nv' : Nv} {ports' : Vector Port 16} {fabricGroup' :
    BitVec 12} {pattern' : Pattern} {field' : Field} {coll' : Collective} {observed' : Nat} {snapshots' : Nat}
    {badShards' : Nat}
        (h : Keeps s x) (h0 : start'.phase = x.start.phase) (h1 : sec'.handOver = x.sec.handOver) (h2 :
      nv'.tokens = x.nv.tokens) (h3 : selfTest'.running = x.selfTest.running) :
        Keeps s ⟨x.pending, free', x.out, ticks', x.ident, start', x.log, host', x.ctx, sec', loader', installed',
      x.tiles, dies', links', signals', defects', selfTest', x.mem, power', thermal', nv', ports', fabricGroup',
      pattern', field', coll', observed', snapshots', badShards'⟩ :=
  h.same rfl rfl rfl h0 h2 rfl h3 rfl rfl rfl h1

/-- The same with a memory of its own that keeps the canonical form. -/
theorem Keeps.litMem {s x : State} {free' : Nat} {ticks' : Nat} {start' : Startup} {host' : HostAttach} {sec' :
    Security} {loader' : Loader} {installed' : Option Installed} {dies' : Vector
    Die 36} {links' : List LinkState} {signals' : List RouteSignal} {defects' : DefectMap} {selfTest' :
    SelfTest} {power' : Power} {thermal' : Thermal} {nv' : Nv} {ports' : Vector Port 16} {fabricGroup' :
    BitVec 12} {pattern' : Pattern} {field' : Field} {coll' : Collective} {observed' : Nat} {snapshots' : Nat}
    {badShards' : Nat} {mem' : List Host.Cell}
    (h : Keeps s x) (hm : Memory.wf x.mem → Memory.wf mem') (h0 : start'.phase = x.start.phase)
    (h1 : sec'.handOver = x.sec.handOver) (h2 : nv'.tokens = x.nv.tokens)
    (h3 : selfTest'.running = x.selfTest.running) :
    Keeps s ⟨x.pending, free', x.out, ticks', x.ident, start', x.log, host', x.ctx, sec', loader', installed',
      x.tiles, dies', links', signals', defects', selfTest', mem', power', thermal', nv', ports', fabricGroup',
      pattern', field', coll', observed', snapshots', badShards'⟩ :=
  h.remem hm rfl rfl h0 h2 rfl h3 rfl rfl rfl h1

/-- The same with a memory, start phase, token count and running self-tests that keep what the relation says
of them. -/
theorem Keeps.litAny {s x : State} {free' : Nat} {ticks' : Nat} {start' : Startup} {host' : HostAttach} {sec' :
    Security} {loader' : Loader} {installed' : Option Installed} {dies' : Vector
    Die 36} {links' : List LinkState} {signals' : List RouteSignal} {defects' : DefectMap} {selfTest' :
    SelfTest} {power' : Power} {thermal' : Thermal} {nv' : Nv} {ports' : Vector Port 16} {fabricGroup' :
    BitVec 12} {pattern' : Pattern} {field' : Field} {coll' : Collective} {observed' : Nat} {snapshots' : Nat}
    {badShards' : Nat} {mem' : List Host.Cell}
    (h : Keeps s x) (hm : Memory.wf x.mem → Memory.wf mem')
    (h0 : x.start.phase.toNat ≤ 8 → start'.phase.toNat ≤ 8)
    (h1 : sec'.handOver = x.sec.handOver) (h2 : x.nv.tokens ≤ 6 → nv'.tokens ≤ 6)
    (h3 : x.selfTest.running.length ≤ 16 → selfTest'.running.length ≤ 16) :
    Keeps s ⟨x.pending, free', x.out, ticks', x.ident, start', x.log, host', x.ctx, sec', loader', installed',
      x.tiles, dies', links', signals', defects', selfTest', mem', power', thermal', nv', ports', fabricGroup',
      pattern', field', coll', observed', snapshots', badShards'⟩ :=
  h.trans ⟨⟨rfl, hm, rfl, h0, h2, id, h3, List.prefix_refl _, id⟩, ⟨fun _ hi => hi, .inl h1⟩⟩

/-- The start block is replaced by one with a legal phase. -/
theorem Keeps.setStart {s x : State} (b : Startup) (h : Keeps s x) (hb : x.start.phase.toNat ≤ 8 → b.phase.toNat ≤ 8) :
    Keeps s { x with start := b } :=
  h.rephase hb rfl rfl rfl rfl rfl rfl rfl rfl rfl rfl

/-! ### Control -/

theorem when'_keeps {s x : State} (g : Bool) {f : State → State} (h : Keeps s x)
    (hf : ∀ y, Keeps s y → Keeps s (f y)) : Keeps s (when' g f x) := by
  cases g
  · exact h
  · exact hf x h

theorem foldl_keeps {α : Type} {s x : State} {f : State → α → State} {l : List α} (h : Keeps s x)
    (hf : ∀ a y, Keeps s y → Keeps s (f y a)) : Keeps s (l.foldl f x) := by
  induction l generalizing x with
  | nil => exact h
  | cons a r ih => exact ih (hf a x h)

theorem foldl_fst_keeps {α β : Type} {s : State} {f : State × β → α → State × β} {l : List α} {p : State × β}
    (h : Keeps s p.1) (hf : ∀ a p, Keeps s p.1 → Keeps s (f p a).1) : Keeps s (l.foldl f p).1 := by
  induction l generalizing p with
  | nil => exact h
  | cons a r ih => exact ih (hf a p h)

theorem ite_moves {s a b : State} {c : Prop} [Decidable c] (ha : Moves s a) (hb : Moves s b) :
    Moves s (if c then a else b) := by
  split
  · exact ha
  · exact hb

theorem when'_moves {s : State} (g : Bool) {f : State → State} (hf : Moves s (f s)) : Moves s (when' g f s) := by
  cases g
  · exact .refl s
  · exact hf

/-! ### The named updates -/

theorem modCtx_keeps {s x : State} (i : Slot) {f : Ctx → Ctx} (h : Keeps s x)
    (hf : ∀ c, (f c).state = .holding → c.state = .holding) : Keeps s (modCtx i f x) := by
  refine h.trans ⟨⟨rfl, id, rfl, id, id, id, id, List.prefix_refl _, id⟩, ⟨fun j hj => ?_, .inl rfl⟩⟩
  by_cases e : i = j
  · subst e
    rw [modCtx_ctxOf_same] at hj
    exact hf _ hj
  · rwa [modCtx_ctxOf_other _ _ _ _ e] at hj

theorem modQueue_keeps {s x : State} (i : Slot) (q : QId) {f : Queue → Queue} (h : Keeps s x) :
    Keeps s (modQueue i q f x) :=
  modCtx_keeps i h fun _ hc => hc

theorem mapCtx_keeps {s x : State} {f : Slot → Ctx → Ctx} (h : Keeps s x)
    (hf : ∀ i c, (f i c).state = .holding → c.state = .holding) : Keeps s (mapCtx f x) :=
  h.trans ⟨⟨by simp, by simp, by simp, by simp, by simp, by simp, by simp, by simp, by simp⟩,
    ⟨fun i hi => by rw [mapCtx_ctxOf] at hi; exact hf _ _ hi, .inl (by simp)⟩⟩

theorem modPort_keeps {s x : State} (p : PortId) {f : Port → Port} (h : Keeps s x) : Keeps s (modPort p f x) :=
  h.same rfl rfl rfl rfl rfl rfl rfl rfl rfl rfl rfl

theorem mapPorts_keeps {s x : State} {f : PortId → Port → Port} (h : Keeps s x) : Keeps s (mapPorts f x) :=
  h.same (by simp) (by simp) (by simp) (by simp) (by simp) (by simp) (by simp) (by simp) (by simp) (by simp) (by simp)

theorem modDie_keeps {s x : State} (d : DieId) {f : Die → Die} (h : Keeps s x) : Keeps s (modDie d f x) :=
  h.same rfl rfl rfl rfl rfl rfl rfl rfl rfl rfl rfl

theorem mapDies_keeps {s x : State} {f : DieId → Die → Die} (h : Keeps s x) : Keeps s (mapDies f x) :=
  h.same (by simp) (by simp) (by simp) (by simp) (by simp) (by simp) (by simp) (by simp) (by simp) (by simp) (by simp)

theorem modTile_keeps {s x : State} (t : TileId) {f : Tile → Tile} (h : Keeps s x) : Keeps s (modTile t f x) :=
  h.trans ⟨⟨by simp, by simp, by simp, by simp, by simp, by simp, by simp, by simp,
    fun hc => canon_store _ _ _ _ hc⟩, ⟨fun _ hi => hi, .inl rfl⟩⟩

theorem modTiles_keeps {s x : State} (l : List TileId) {f : Tile → Tile} (h : Keeps s x) :
    Keeps s (modTiles l f x) :=
  foldl_keeps h fun t _ hy => modTile_keeps t hy

theorem mapTiles_canon (f : Nat → Tile → Tile) (l : List (Nat × Tile)) (h : canon Tile.reset l = true) :
    canon Tile.reset ((l.map fun p => (p.1, f p.1 p.2)).filter fun p => !(decide (p.2 = Tile.reset))) = true := by
  rw [canon_iff] at *
  refine ⟨?_, fun p hp => ?_⟩
  · exact List.Pairwise.filter _ (List.pairwise_map.2 h.1)
  · simpa using (List.mem_filter.1 hp).2

theorem mapTiles_keeps {s x : State} {f : Nat → Tile → Tile} (h : Keeps s x) : Keeps s (mapTiles f x) :=
  h.trans ⟨⟨by simp, by simp, by simp, by simp, by simp, by simp, by simp, by simp,
    fun hc => mapTiles_canon _ _ hc⟩, ⟨fun _ hi => hi, .inl rfl⟩⟩

theorem drawNext_keeps {s x : State} (h : Keeps s x) : Keeps s (drawNext x) :=
  h.same rfl rfl rfl rfl rfl rfl rfl rfl rfl rfl rfl

theorem emit_keeps {s x : State} (o : Output) (h : Keeps s x) : Keeps s (emit o x) :=
  h.trans ⟨⟨rfl, id, rfl, id, id, id, id, List.prefix_append _ _, id⟩, ⟨fun _ hi => hi, .inl rfl⟩⟩

theorem storeBytes_keeps {s x : State} (k : Nat) (b : Bytes) (h : Keeps s x) : Keeps s (storeBytes k b x) :=
  h.remem (writeBytes_wf _ k b) rfl rfl rfl rfl rfl rfl rfl rfl rfl rfl

theorem zeroMem_keeps {s x : State} (k n : Nat) (h : Keeps s x) : Keeps s (zeroMem k n x) :=
  h.remem (zeroRange_wf _ k n) rfl rfl rfl rfl rfl rfl rfl rfl rfl rfl

theorem doneWork_keeps {s x : State} (k : BgTask) (h : Keeps s x) : Keeps s (doneWork k x) :=
  h.same rfl rfl rfl rfl rfl rfl rfl rfl rfl rfl rfl

/-! ### Messages and events -/

theorem sendMsix_keeps {s x : State} (v : BitVec 6) (h : Keeps s x) : Keeps s (sendMsix v x) := by
  unfold sendMsix
  split
  · exact h.same rfl rfl rfl rfl rfl rfl rfl rfl rfl rfl rfl
  · exact emit_keeps _ h

theorem sendPending_keeps {s x : State} (h : Keeps s x) : Keeps s (sendPending x) := by
  unfold sendPending
  refine foldl_keeps h fun a y hy => ?_
  dsimp only
  split
  · exact emit_keeps _ (hy.same rfl rfl rfl rfl rfl rfl rfl rfl rfl rfl rfl)
  · exact hy

theorem pushRec_length (l : EventLog) (r : EventRec) (h : l.records.length ≤ 4096) :
    (pushRec l r).records.length ≤ 4096 := by
  unfold pushRec
  dsimp only
  split <;> simp <;> omega

theorem report_keeps {s x : State} (e : Ev) (h : Keeps s x) : Keeps s (report e x) := by
  have h1 : Keeps s { x with log := pushRec x.log (recordOf e x) } :=
    h.trans ⟨⟨rfl, id, rfl, id, id, pushRec_length _ _, id, List.prefix_refl _, id⟩, ⟨fun _ hi => hi, .inl rfl⟩⟩
  unfold report
  dsimp only
  split
  · exact h1
  · exact sendMsix_keeps _ h1

theorem reportAll_keeps {s x : State} (l : List Ev) (h : Keeps s x) : Keeps s (reportAll l x) :=
  foldl_keeps h fun e _ hy => report_keeps e hy

theorem reportHost_keeps {s x : State} (b : Option Nat) (e : Ev) (h : Keeps s x) : Keeps s (reportHost b e x) := by
  have h1 := report_keeps e
    (h.same (y := { x with host := { x.host with lastCode := e.code } }) rfl rfl rfl rfl rfl rfl rfl rfl rfl rfl rfl)
  unfold reportHost
  dsimp only
  split
  · exact h1
  · split
    · exact sendMsix_keeps _ (h1.same rfl rfl rfl rfl rfl rfl rfl rfl rfl rfl rfl)
    · exact h1.same rfl rfl rfl rfl rfl rfl rfl rfl rfl rfl rfl

theorem reportPower_keeps {s x : State} (b : Option Nat) (e : Ev) (h : Keeps s x) : Keeps s (reportPower b e x) := by
  have h1 := report_keeps e h
  unfold reportPower
  dsimp only
  split
  · exact h1
  · split
    · exact sendMsix_keeps _ (h1.same rfl rfl rfl rfl rfl rfl rfl rfl rfl rfl rfl)
    · exact h1.same rfl rfl rfl rfl rfl rfl rfl rfl rfl rfl rfl

theorem reportThermal_keeps {s x : State} (b : Option Nat) (e : Ev) (h : Keeps s x) :
    Keeps s (reportThermal b e x) := by
  have h1 := report_keeps e h
  unfold reportThermal
  dsimp only
  split
  · exact h1
  · split
    · exact sendMsix_keeps _ (h1.same rfl rfl rfl rfl rfl rfl rfl rfl rfl rfl rfl)
    · exact h1.same rfl rfl rfl rfl rfl rfl rfl rfl rfl rfl rfl

theorem reportNv_keeps {s x : State} (b : Option Nat) (e : Ev) (h : Keeps s x) : Keeps s (reportNv b e x) := by
  have h1 := report_keeps e
    (h.same (y := { x with nv := { x.nv with lastCode := e.code } }) rfl rfl rfl rfl rfl rfl rfl rfl rfl rfl rfl)
  unfold reportNv
  dsimp only
  split
  · exact h1
  · split
    · exact sendMsix_keeps _ (h1.same rfl rfl rfl rfl rfl rfl rfl rfl rfl rfl rfl)
    · exact h1.same rfl rfl rfl rfl rfl rfl rfl rfl rfl rfl rfl

theorem reportCtx_keeps {s x : State} (i : Slot) (b : Option Nat) (e : Ev) (h : Keeps s x) :
    Keeps s (reportCtx i b e x) := by
  unfold reportCtx
  exact modCtx_keeps i (report_keeps _ h) fun _ hc => hc

theorem reportPort_keeps {s x : State} (p : PortId) (b : Option Nat) (e : Ev) (h : Keeps s x) :
    Keeps s (reportPort p b e x) := by
  unfold reportPort
  exact modPort_keeps p (report_keeps _ h)

end Sys2Proof.Machine
end

