-- ==== Sys2Proof/Laws/KeepsMesh.lean ====
section
/-! SUPPORT. What the operations and commands of Mesh keep (Laws/Keeps.lean). -/

namespace Sys2Proof.Machine

set_option linter.all false
set_option Elab.async false

open Sys2Proof

theorem modLink_keeps {s₀ s₁ : State} (l : LinkDir) (f : LinkState → LinkState) (hK : Keeps s₀ s₁) :
    Keeps s₀ (modLink l f s₁) := by
  unfold modLink
  repeat' (first
    | with_reducible exact hK
    | with_reducible assumption
    | fail_if_no_progress with_reducible refine Keeps.lit ?_ rfl rfl rfl rfl
    | split
    | dsimp only)

theorem sendMesh_keeps {s₀ s₁ : State} (l : LinkDir) (vc : Fin 4) (head tail : Bool) (data : BitVec 512) (hK : Keeps s₀ s₁) :
    Keeps s₀ (sendMesh l vc head tail data s₁) := by
  unfold sendMesh
  repeat' (first
    | with_reducible exact hK
    | with_reducible assumption
    | with_reducible apply emit_keeps
    | with_reducible apply modLink_keeps
    | fail_if_no_progress with_reducible refine Keeps.lit ?_ rfl rfl rfl rfl
    | split
    | dsimp only)

theorem sendBeat_keeps {s₀ s₁ : State} (t : TileId) (st : HbState) (r : Fin 5) (hK : Keeps s₀ s₁) :
    Keeps s₀ (sendBeat t st s₁ r) := by
  unfold sendBeat
  repeat' (first
    | with_reducible exact hK
    | with_reducible assumption
    | with_reducible apply emit_keeps
    | with_reducible apply sendMesh_keeps
    | fail_if_no_progress with_reducible refine Keeps.lit ?_ rfl rfl rfl rfl
    | split
    | dsimp only)

theorem sendHeartbeat_keeps {s₀ s₁ : State} (t : TileId) (st : HbState) (hK : Keeps s₀ s₁) :
    Keeps s₀ (sendHeartbeat t st s₁) := by
  unfold sendHeartbeat
  repeat' (first
    | with_reducible exact hK
    | with_reducible assumption
    | with_reducible refine foldl_keeps ?_ (fun _ _ _ => ?_)
    | with_reducible refine foldl_fst_keeps ?_ (fun _ _ _ => ?_)
    | with_reducible apply sendBeat_keeps
    | fail_if_no_progress with_reducible refine Keeps.lit ?_ rfl rfl rfl rfl
    | split
    | dsimp only)

theorem wakeTile_keeps {s₀ s₁ : State} (t : TileId) (f : Tile → Tile) (hK : Keeps s₀ s₁) :
    Keeps s₀ (wakeTile t f s₁) := by
  unfold wakeTile
  repeat' (first
    | with_reducible exact hK
    | with_reducible assumption
    | with_reducible apply modTile_keeps
    | with_reducible apply sendHeartbeat_keeps
    | fail_if_no_progress with_reducible refine Keeps.lit ?_ rfl rfl rfl rfl
    | split
    | dsimp only)

end Sys2Proof.Machine
end

