-- ==== Sys2Proof/Laws/KeepsCourses.lean ====
section
/-! SUPPORT. What the operations and commands of Courses keep (Laws/Keeps.lean). -/

namespace Sys2Proof.Machine

set_option linter.all false
set_option Elab.async false

open Sys2Proof

theorem assertClamp_keeps {s₀ s₁ : State} (src : BitVec 4) (hK : Keeps s₀ s₁) :
    Keeps s₀ (assertClamp src s₁) := by
  unfold assertClamp
  repeat' (first
    | with_reducible exact hK
    | with_reducible assumption
    | with_reducible apply reportPower_keeps
    | fail_if_no_progress with_reducible refine Keeps.lit ?_ rfl rfl rfl rfl
    | split)

theorem dropSource_keeps {s₀ s₁ : State} (src : BitVec 4) (hK : Keeps s₀ s₁) :
    Keeps s₀ (dropSource src s₁) := by
  unfold dropSource
  repeat' (first
    | with_reducible exact hK
    | with_reducible assumption
    | fail_if_no_progress with_reducible refine Keeps.lit ?_ rfl rfl rfl rfl)

theorem modInstalled_keeps {s₀ s₁ : State} (f : Installed → Installed) (hK : Keeps s₀ s₁) :
    Keeps s₀ (modInstalled f s₁) := by
  unfold modInstalled
  repeat' (first
    | with_reducible exact hK
    | with_reducible assumption
    | fail_if_no_progress with_reducible refine Keeps.lit ?_ rfl rfl rfl rfl)

theorem modSlot_keeps {s₀ s₁ : State} (i : Slot) (f : LoadSlot → LoadSlot) (hK : Keeps s₀ s₁) :
    Keeps s₀ (modSlot i f s₁) := by
  unfold modSlot
  repeat' (first
    | with_reducible exact hK
    | with_reducible assumption
    | fail_if_no_progress with_reducible refine Keeps.lit ?_ rfl rfl rfl rfl)

theorem setSlotState_keeps {s₀ s₁ : State} (i : Slot) (x : SlotState) (hK : Keeps s₀ s₁) :
    Keeps s₀ (setSlotState i x s₁) := by
  unfold setSlotState
  repeat' (first
    | with_reducible exact hK
    | with_reducible assumption
    | with_reducible apply modSlot_keeps)

theorem closePacket_keeps {s₀ s₁ : State} (t : TileId) (p : Packet) (hK : Keeps s₀ s₁) :
    Keeps s₀ (closePacket t s₁ p) := by
  unfold closePacket
  repeat' (first
    | with_reducible exact hK
    | with_reducible assumption
    | with_reducible refine foldl_keeps ?_ (fun _ _ _ => ?_)
    | with_reducible refine foldl_fst_keeps ?_ (fun _ _ _ => ?_)
    | with_reducible apply sendMesh_keeps
    | fail_if_no_progress with_reducible refine Keeps.lit ?_ rfl rfl rfl rfl
    | split
    | dsimp only)

theorem closePackets_keeps {s₀ s₁ : State} (p : Nat → Bool) (hK : Keeps s₀ s₁) :
    Keeps s₀ (closePackets p s₁) := by
  unfold closePackets
  repeat' (first
    | with_reducible exact hK
    | with_reducible assumption
    | with_reducible refine foldl_keeps ?_ (fun _ _ _ => ?_)
    | with_reducible refine foldl_fst_keeps ?_ (fun _ _ _ => ?_)
    | with_reducible apply modTile_keeps
    | with_reducible apply closePacket_keeps
    | fail_if_no_progress with_reducible refine Keeps.lit ?_ rfl rfl rfl rfl
    | split
    | dsimp only)

theorem completeCmd_keeps {s₀ s₁ : State} (i : Slot) (cmd : Cmd) (code : Code) (initiator detail : Nat) (hK : Keeps s₀ s₁) :
    Keeps s₀ (completeCmd i cmd code initiator detail s₁) := by
  unfold completeCmd
  repeat' (first
    | with_reducible exact hK
    | with_reducible assumption
    | with_reducible refine modCtx_keeps _ ?_ (fun _ hc => hc)
    | with_reducible apply reportCtx_keeps
    | fail_if_no_progress with_reducible refine Keeps.lit ?_ rfl rfl rfl rfl
    | split
    | dsimp only)

theorem haltPrompters_keeps {s₀ s₁ : State}  (hK : Keeps s₀ s₁) :
    Keeps s₀ (haltPrompters s₁) := by
  unfold haltPrompters
  repeat' (first
    | with_reducible exact hK
    | with_reducible assumption
    | with_reducible apply mapTiles_keeps
    | with_reducible apply closePackets_keeps
    | fail_if_no_progress with_reducible refine Keeps.lit ?_ rfl rfl rfl rfl
    | split
    | dsimp only)

theorem endPass_keeps {s₀ s₁ : State} (code : Code) (hK : Keeps s₀ s₁) :
    Keeps s₀ (endPass code s₁) := by
  unfold endPass
  repeat' (first
    | with_reducible exact hK
    | with_reducible assumption
    | with_reducible refine modCtx_keeps _ ?_ (fun _ hc => hc)
    | with_reducible apply modInstalled_keeps
    | with_reducible apply completeCmd_keeps
    | with_reducible apply haltPrompters_keeps
    | fail_if_no_progress with_reducible refine Keeps.lit ?_ rfl rfl rfl rfl
    | split)

theorem countBlock_keeps {s₀ s₁ : State} (code layer : Nat) (hK : Keeps s₀ s₁) :
    Keeps s₀ (countBlock code layer s₁) := by
  unfold countBlock
  repeat' (first
    | with_reducible exact hK
    | with_reducible assumption
    | fail_if_no_progress with_reducible refine Keeps.lit ?_ rfl rfl rfl rfl)

theorem flushCounts_keeps {s₀ s₁ : State} (i : Slot) (p : Nat → Bool) (hK : Keeps s₀ s₁) :
    Keeps s₀ (flushCounts i p s₁) := by
  unfold flushCounts
  repeat' (first
    | with_reducible exact hK
    | with_reducible assumption
    | with_reducible refine foldl_keeps ?_ (fun _ _ _ => ?_)
    | with_reducible refine foldl_fst_keeps ?_ (fun _ _ _ => ?_)
    | with_reducible apply report_keeps
    | fail_if_no_progress with_reducible refine Keeps.lit ?_ rfl rfl rfl rfl
    | split
    | dsimp only)

theorem setSeq_keeps {s₀ s₁ : State} (i : Slot) (desc seq : Nat) (hK : Keeps s₀ s₁) :
    Keeps s₀ (setSeq i desc seq s₁) := by
  unfold setSeq
  repeat' (first
    | with_reducible exact hK
    | with_reducible assumption
    | with_reducible refine modCtx_keeps _ ?_ (fun _ hc => hc))

theorem endRed_keeps {s₀ s₁ : State} (i : Slot) (code : Code) (initiator : Nat) (r : Reduction) (hK : Keeps s₀ s₁) :
    Keeps s₀ (endRed i code initiator s₁ r) := by
  unfold endRed
  repeat' (first
    | with_reducible exact hK
    | with_reducible assumption
    | with_reducible apply completeCmd_keeps
    | with_reducible apply flushCounts_keeps
    | with_reducible apply setSeq_keeps
    | fail_if_no_progress with_reducible refine Keeps.lit ?_ rfl rfl rfl rfl)

theorem endReduction_keeps {s₀ s₁ : State} (i : Slot) (code : Code) (hK : Keeps s₀ s₁) :
    Keeps s₀ (endReduction i code s₁) := by
  unfold endReduction
  repeat' (first
    | with_reducible exact hK
    | with_reducible assumption
    | with_reducible refine foldl_keeps ?_ (fun _ _ _ => ?_)
    | with_reducible refine foldl_fst_keeps ?_ (fun _ _ _ => ?_)
    | with_reducible refine modCtx_keeps _ ?_ (fun _ hc => hc)
    | with_reducible refine modCtx_keeps _ ?_ (fun _ hc => (by revert hc; dsimp only; (repeat' split) <;> first | exact id | exact fun hc => nomatch hc))
    | with_reducible apply flushCounts_keeps
    | with_reducible apply endRed_keeps
    | fail_if_no_progress with_reducible refine Keeps.lit ?_ rfl rfl rfl rfl
    | split
    | dsimp only)

theorem endOthers_keeps {s₀ s₁ : State} (i : Slot) (code : Code) (said : Bool) (hK : Keeps s₀ s₁) :
    Keeps s₀ (endOthers i code said s₁) := by
  unfold endOthers
  repeat' (first
    | with_reducible exact hK
    | with_reducible assumption
    | with_reducible refine foldl_keeps ?_ (fun _ _ _ => ?_)
    | with_reducible refine foldl_fst_keeps ?_ (fun _ _ _ => ?_)
    | with_reducible apply report_keeps
    | with_reducible apply completeCmd_keeps
    | with_reducible apply endPass_keeps
    | fail_if_no_progress with_reducible refine Keeps.lit ?_ rfl rfl rfl rfl
    | split)

theorem dropLoads_keeps {s₀ s₁ : State} (i : Slot) (hK : Keeps s₀ s₁) :
    Keeps s₀ (dropLoads i s₁) := by
  unfold dropLoads
  repeat' (first
    | with_reducible exact hK
    | with_reducible assumption
    | with_reducible refine modCtx_keeps _ ?_ (fun _ hc => hc))

theorem onPorts_keeps {s₀ s₁ : State} (f : PortId → Output) (hK : Keeps s₀ s₁) :
    Keeps s₀ (onPorts f s₁) := by
  unfold onPorts
  repeat' (first
    | with_reducible exact hK
    | with_reducible assumption
    | with_reducible refine foldl_keeps ?_ (fun _ _ _ => ?_)
    | with_reducible refine foldl_fst_keeps ?_ (fun _ _ _ => ?_)
    | with_reducible apply emit_keeps)

theorem sendSymbol_keeps {s₀ s₁ : State} (a : AbortSym) (hK : Keeps s₀ s₁) :
    Keeps s₀ (sendSymbol a s₁) := by
  unfold sendSymbol
  repeat' (first
    | with_reducible exact hK
    | with_reducible assumption
    | with_reducible apply onPorts_keeps
    | fail_if_no_progress with_reducible refine Keeps.lit ?_ rfl rfl rfl rfl
    | split
    | dsimp only)

theorem abortEvent_keeps {s₀ s₁ : State} (code : Code) (desc seq : Nat) (hK : Keeps s₀ s₁) :
    Keeps s₀ (abortEvent code desc seq s₁) := by
  unfold abortEvent
  repeat' (first
    | with_reducible exact hK
    | with_reducible assumption
    | with_reducible apply report_keeps)

theorem abortInst_keeps {s₀ s₁ : State} (descId : Nat) (code : Code) (hK : Keeps s₀ s₁) :
    Keeps s₀ (abortInst descId code s₁) := by
  unfold abortInst
  repeat' (first
    | with_reducible exact hK
    | with_reducible assumption
    | with_reducible apply sendSymbol_keeps
    | with_reducible apply abortEvent_keeps
    | fail_if_no_progress with_reducible refine Keeps.lit ?_ rfl rfl rfl rfl
    | split
    | dsimp only)

theorem abortHeld_keeps {s₀ s₁ : State} (code : Code) (k : Nat × Nat × BitVec 32) (hK : Keeps s₀ s₁) :
    Keeps s₀ (abortHeld code s₁ k) := by
  unfold abortHeld
  repeat' (first
    | with_reducible exact hK
    | with_reducible assumption
    | with_reducible apply sendSymbol_keeps
    | with_reducible apply abortEvent_keeps
    | fail_if_no_progress with_reducible refine Keeps.lit ?_ rfl rfl rfl rfl
    | split
    | dsimp only)

theorem abortColls_keeps {s₀ s₁ : State} (code : Code) (hK : Keeps s₀ s₁) :
    Keeps s₀ (abortColls code s₁) := by
  unfold abortColls
  repeat' (first
    | with_reducible exact hK
    | with_reducible assumption
    | with_reducible refine foldl_keeps ?_ (fun _ _ _ => ?_)
    | with_reducible refine foldl_fst_keeps ?_ (fun _ _ _ => ?_)
    | with_reducible apply abortInst_keeps
    | with_reducible apply abortHeld_keeps
    | fail_if_no_progress with_reducible refine Keeps.lit ?_ rfl rfl rfl rfl
    | split
    | dsimp only)

theorem loseTileSram_keeps {s₀ s₁ : State} (p : DieId → Bool) (hK : Keeps s₀ s₁) :
    Keeps s₀ (loseTileSram p s₁) := by
  unfold loseTileSram
  repeat' (first
    | with_reducible exact hK
    | with_reducible assumption
    | fail_if_no_progress with_reducible refine Keeps.lit ?_ rfl rfl rfl rfl
    | with_reducible refine Keeps.litMem ?_ (filter_wf _ _) rfl rfl rfl rfl)

theorem railsDown_keeps {s₀ s₁ : State} (p : DieId → Bool) (hK : Keeps s₀ s₁) :
    Keeps s₀ (railsDown p s₁) := by
  unfold railsDown
  repeat' (first
    | with_reducible exact hK
    | with_reducible assumption
    | with_reducible apply mapDies_keeps
    | with_reducible apply loseTileSram_keeps)

theorem loseDeckSram_keeps {s₀ s₁ : State} (p : ZoneId → Bool) (hK : Keeps s₀ s₁) :
    Keeps s₀ (loseDeckSram p s₁) := by
  unfold loseDeckSram
  repeat' (first
    | with_reducible exact hK
    | with_reducible assumption
    | fail_if_no_progress with_reducible refine Keeps.lit ?_ rfl rfl rfl rfl
    | with_reducible refine Keeps.litMem ?_ (filter_wf _ _) rfl rfl rfl rfl)

theorem stopKeeping_keeps {s₀ s₁ : State} (keep : DieId → Bool) (hK : Keeps s₀ s₁) :
    Keeps s₀ (stopKeeping keep s₁) := by
  unfold stopKeeping
  repeat' (first
    | with_reducible exact hK
    | with_reducible assumption
    | with_reducible apply mapTiles_keeps
    | with_reducible apply closePackets_keeps
    | with_reducible apply railsDown_keeps
    | fail_if_no_progress with_reducible refine Keeps.lit ?_ rfl rfl rfl rfl
    | split
    | dsimp only)

theorem stopChart_keeps {s₀ s₁ : State}  (hK : Keeps s₀ s₁) :
    Keeps s₀ (stopChart s₁) := by
  unfold stopChart
  repeat' (first
    | with_reducible exact hK
    | with_reducible assumption
    | with_reducible apply stopKeeping_keeps)

theorem houseOnly_keeps {s₀ s₁ : State} (hK : Keeps s₀ s₁) : Keeps s₀ (houseOnly s₁) := by
  unfold houseOnly
  dsimp only
  have h := mapDies_keeps (f := fun _ x => { x with rails := .off, locked := false })
    (mapPorts_keeps (f := fun _ p => downPort p) (stopChart_keeps hK))
  generalize mapDies _ _ = u at h
  exact Keeps.trans h
    ⟨⟨rfl, fun _ => rfl, rfl, id, id, id, id, List.prefix_refl _, fun _ => rfl⟩, ⟨fun _ hi => hi, .inl rfl⟩⟩

theorem faultRegions_keeps {s₀ s₁ : State} (ids : List Nat) (code : Code) (die : Option DieId) (hK : Keeps s₀ s₁) :
    Keeps s₀ (faultRegions ids code die s₁) := by
  unfold faultRegions
  repeat' (first
    | with_reducible exact hK
    | with_reducible assumption
    | with_reducible apply mapTiles_keeps
    | with_reducible apply modInstalled_keeps
    | with_reducible apply closePackets_keeps
    | fail_if_no_progress with_reducible refine Keeps.lit ?_ rfl rfl rfl rfl
    | split
    | dsimp only)

theorem faultTile_keeps {s₀ s₁ : State} (t : Nat) (code : Code) (hK : Keeps s₀ s₁) :
    Keeps s₀ (faultTile t code s₁) := by
  unfold faultTile
  repeat' (first
    | with_reducible exact hK
    | with_reducible assumption
    | with_reducible apply faultRegions_keeps)

theorem leaveStep_keeps {s₀ s₁ : State}  (hK : Keeps s₀ s₁) :
    Keeps s₀ (leaveStep s₁) := by
  unfold leaveStep
  repeat' (first
    | with_reducible exact hK
    | with_reducible assumption
    | with_reducible apply report_keeps
    | with_reducible apply setSlotState_keeps
    | with_reducible apply endPass_keeps
    | with_reducible apply endReduction_keeps
    | with_reducible apply abortColls_keeps
    | with_reducible apply stopChart_keeps
    | fail_if_no_progress with_reducible refine Keeps.lit ?_ rfl rfl rfl rfl
    | split)

theorem loseRegions_keeps {s₀ s₁ : State} (ids : List Nat) (hK : Keeps s₀ s₁) :
    Keeps s₀ (loseRegions ids s₁) := by
  unfold loseRegions
  repeat' (first
    | with_reducible exact hK
    | with_reducible assumption
    | with_reducible refine foldl_keeps ?_ (fun _ _ _ => ?_)
    | with_reducible refine foldl_fst_keeps ?_ (fun _ _ _ => ?_)
    | with_reducible apply modInstalled_keeps
    | with_reducible apply leaveStep_keeps
    | fail_if_no_progress with_reducible refine Keeps.lit ?_ rfl rfl rfl rfl
    | split)

theorem addEntry_keeps {s₀ s₁ : State} (kind t detail : Nat) (hK : Keeps s₀ s₁) :
    Keeps s₀ (addEntry kind t detail s₁) := by
  unfold addEntry
  repeat' (first
    | with_reducible exact hK
    | with_reducible assumption
    | with_reducible apply report_keeps
    | with_reducible apply loseRegions_keeps
    | fail_if_no_progress with_reducible refine Keeps.lit ?_ rfl rfl rfl rfl
    | split)

theorem detect_keeps {s₀ s₁ : State} (p : Part) (code : Code) (hK : Keeps s₀ s₁) :
    Keeps s₀ (detect p code s₁) := by
  unfold detect
  repeat' (first
    | with_reducible exact hK
    | with_reducible assumption
    | with_reducible apply report_keeps
    | fail_if_no_progress with_reducible refine Keeps.lit ?_ rfl rfl rfl rfl
    | split)

theorem linkDown_keeps {s₀ s₁ : State} (l : LinkDir) (hK : Keeps s₀ s₁) :
    Keeps s₀ (linkDown l s₁) := by
  unfold linkDown
  repeat' (first
    | with_reducible exact hK
    | with_reducible assumption
    | with_reducible apply report_keeps
    | with_reducible apply modLink_keeps
    | with_reducible apply faultRegions_keeps
    | with_reducible apply addEntry_keeps)

theorem failTrack_keeps {s₀ s₁ : State} (l : LinkDir) (g f : Nat) (hK : Keeps s₀ s₁) :
    Keeps s₀ (failTrack l g f s₁) := by
  unfold failTrack
  repeat' (first
    | with_reducible exact hK
    | with_reducible assumption
    | with_reducible apply report_keeps
    | with_reducible apply modLink_keeps
    | with_reducible apply addEntry_keeps
    | with_reducible apply linkDown_keeps
    | fail_if_no_progress with_reducible refine Keeps.lit ?_ rfl rfl rfl rfl
    | split
    | dsimp only)

theorem retireHotSensor_keeps {s₀ s₁ : State} (d : DieId) (k : Nat) (hK : Keeps s₀ s₁) :
    Keeps s₀ (retireHotSensor d k s₁) := by
  unfold retireHotSensor
  repeat' (first
    | with_reducible exact hK
    | with_reducible assumption
    | with_reducible apply reportThermal_keeps
    | with_reducible apply addEntry_keeps
    | fail_if_no_progress with_reducible refine Keeps.lit ?_ rfl rfl rfl rfl)

theorem retireTileSensor_keeps {s₀ s₁ : State} (t : TileId) (hK : Keeps s₀ s₁) :
    Keeps s₀ (retireTileSensor t s₁) := by
  unfold retireTileSensor
  repeat' (first
    | with_reducible exact hK
    | with_reducible assumption
    | with_reducible apply reportThermal_keeps
    | with_reducible apply addEntry_keeps
    | fail_if_no_progress with_reducible refine Keeps.lit ?_ rfl rfl rfl rfl)

theorem lastingFault_keeps {s₀ s₁ : State} (p : Part) (code : Code) (hK : Keeps s₀ s₁) :
    Keeps s₀ (lastingFault p code s₁) := by
  unfold lastingFault
  repeat' (first
    | with_reducible exact hK
    | with_reducible assumption
    | with_reducible apply addEntry_keeps
    | with_reducible apply retireHotSensor_keeps
    | with_reducible apply retireTileSensor_keeps
    | fail_if_no_progress with_reducible refine Keeps.lit ?_ rfl rfl rfl rfl
    | split
    | dsimp only)

theorem loseStack_keeps {s₀ s₁ : State} (i : Slot) (hK : Keeps s₀ s₁) :
    Keeps s₀ (loseStack i s₁) := by
  unfold loseStack
  repeat' (first
    | with_reducible exact hK
    | with_reducible assumption
    | with_reducible apply zeroMem_keeps)

theorem abandonOp_keeps {s₀ s₁ : State} (i : Slot) (hK : Keeps s₀ s₁) :
    Keeps s₀ (abandonOp i s₁) := by
  unfold abandonOp
  repeat' (first
    | with_reducible exact hK
    | with_reducible assumption
    | with_reducible apply modSlot_keeps
    | fail_if_no_progress with_reducible refine Keeps.lit ?_ rfl rfl rfl rfl
    | split)

theorem destroyCtx_keeps {s₀ s₁ : State} (i : Slot) (hK : Keeps s₀ s₁) : Keeps s₀ (destroyCtx i s₁) := by
  unfold destroyCtx
  exact report_keeps _ (modCtx_keeps _ (loseStack_keeps _ (modSlot_keeps _ _ (abandonOp_keeps _ hK)))
    fun _ hc => nomatch hc)

theorem cutHandOver_handOver (x : Security) : (cutHandOver x).handOver = none := by
  unfold cutHandOver
  split
  · assumption
  · split <;> rfl

theorem destroyAll_keeps {s₀ s₁ : State} (hK : Keeps s₀ s₁) : Keeps s₀ (destroyAll s₁) := by
  unfold destroyAll
  dsimp only
  refine Keeps.trans (foldl_keeps (Keeps.trans hK (Keeps.lit (.refl _) rfl rfl rfl rfl)) fun i y hy =>
    destroyCtx_keeps i hy) ⟨⟨rfl, id, rfl, id, id, id, id, List.prefix_refl _, id⟩, ⟨fun _ hi => hi, .inr ?_⟩⟩
  exact cutHandOver_handOver _

end Sys2Proof.Machine
end

