-- ==== Sys2Proof/Laws/KeepsInstall.lean ====
section
/-! SUPPORT. What the operations and commands of Install keep (Laws/Keeps.lean). -/

namespace Sys2Proof.Machine

set_option linter.all false
set_option Elab.async false

open Sys2Proof

theorem coverRows_keeps {s₀ s₁ : State}  (hK : Keeps s₀ s₁) :
    Keeps s₀ (coverRows s₁) := by
  unfold coverRows
  repeat' (first
    | with_reducible exact hK
    | with_reducible assumption
    | with_reducible refine foldl_keeps ?_ (fun _ _ _ => ?_)
    | with_reducible refine foldl_fst_keeps ?_ (fun _ _ _ => ?_)
    | with_reducible apply addEntry_keeps
    | fail_if_no_progress with_reducible refine Keeps.lit ?_ rfl rfl rfl rfl
    | split
    | dsimp only)

theorem sayFolded_keeps {s₀ s₁ : State} (i : Slot) (l : List TileId) (hK : Keeps s₀ s₁) :
    Keeps s₀ (sayFolded i l s₁) := by
  unfold sayFolded
  repeat' (first
    | with_reducible exact hK
    | with_reducible assumption
    | with_reducible refine foldl_keeps ?_ (fun _ _ _ => ?_)
    | with_reducible refine foldl_fst_keeps ?_ (fun _ _ _ => ?_)
    | with_reducible apply report_keeps
    | with_reducible apply modSlot_keeps
    | fail_if_no_progress with_reducible refine Keeps.lit ?_ rfl rfl rfl rfl
    | split
    | dsimp only)

theorem queueDies_keeps {s₀ s₁ : State} (c : Chart) (hK : Keeps s₀ s₁) :
    Keeps s₀ (queueDies c s₁) := by
  unfold queueDies
  repeat' (first
    | with_reducible exact hK
    | with_reducible assumption
    | with_reducible apply mapDies_keeps)

theorem startInstall_keeps {s₀ s₁ : State} (i : Slot) (c : Chart) (vs : List (Nat × Nat)) (hK : Keeps s₀ s₁) :
    Keeps s₀ (startInstall i c vs s₁) := by
  unfold startInstall
  repeat' (first
    | with_reducible exact hK
    | with_reducible assumption
    | with_reducible refine foldl_keeps ?_ (fun _ _ _ => ?_)
    | with_reducible refine foldl_fst_keeps ?_ (fun _ _ _ => ?_)
    | with_reducible apply report_keeps
    | with_reducible apply setSlotState_keeps
    | with_reducible apply sayFolded_keeps
    | with_reducible apply queueDies_keeps
    | fail_if_no_progress with_reducible refine Keeps.lit ?_ rfl rfl rfl rfl
    | split
    | dsimp only)

theorem beginInstall_keeps {s₀ s₁ : State} (i : Slot) (hK : Keeps s₀ s₁) :
    Keeps s₀ (beginInstall i s₁) := by
  unfold beginInstall
  repeat' (first
    | with_reducible exact hK
    | with_reducible assumption
    | with_reducible apply report_keeps
    | with_reducible apply setSlotState_keeps
    | with_reducible apply coverRows_keeps
    | with_reducible apply startInstall_keeps
    | fail_if_no_progress with_reducible refine Keeps.lit ?_ rfl rfl rfl rfl
    | split
    | dsimp only)

theorem reinstall_keeps {s₀ s₁ : State}  (hK : Keeps s₀ s₁) :
    Keeps s₀ (reinstall s₁) := by
  unfold reinstall
  repeat' (first
    | with_reducible exact hK
    | with_reducible assumption
    | with_reducible apply beginInstall_keeps
    | fail_if_no_progress with_reducible refine Keeps.lit ?_ rfl rfl rfl rfl
    | split)

theorem fillArea_keeps {s₀ s₁ : State} (i : Slot) (c : Chart) (vs : List (Nat × Nat)) (a : Area) (hK : Keeps s₀ s₁) :
    Keeps s₀ (fillArea i c vs a s₁) := by
  unfold fillArea
  repeat' (first
    | with_reducible exact hK
    | with_reducible assumption
    | with_reducible refine foldl_keeps ?_ (fun _ _ _ => ?_)
    | with_reducible refine foldl_fst_keeps ?_ (fun _ _ _ => ?_)
    | with_reducible apply storeBytes_keeps
    | fail_if_no_progress with_reducible refine Keeps.lit ?_ rfl rfl rfl rfl
    | split
    | dsimp only)

theorem startTiles_keeps {s₀ s₁ : State} (c : Chart) (x : Installed) (hK : Keeps s₀ s₁) :
    Keeps s₀ (startTiles c x s₁) := by
  unfold startTiles
  repeat' (first
    | with_reducible exact hK
    | with_reducible assumption
    | with_reducible refine foldl_keeps ?_ (fun _ _ _ => ?_)
    | with_reducible refine foldl_fst_keeps ?_ (fun _ _ _ => ?_)
    | with_reducible apply wakeTile_keeps
    | fail_if_no_progress with_reducible refine Keeps.lit ?_ rfl rfl rfl rfl
    | split
    | dsimp only)

end Sys2Proof.Machine
end

