-- ==== Sys2Proof/Laws/KeepsPower.lean ====
section
/-! SUPPORT. What the operations and commands of Power keep (Laws/Keeps.lean). -/

namespace Sys2Proof.Machine

set_option linter.all false
set_option Elab.async false

open Sys2Proof

theorem execAlertPinAssert_keeps {s₀ s₁ : State} (pin : AlertPin) (widthPs : Nat) (hK : Keeps s₀ s₁) :
    ∃ s₂, execAlertPinAssert pin widthPs s₁ = .next s₂ ∧ Keeps s₀ s₂ := by
  refine ⟨_, rfl, ?_⟩
  repeat' (first
    | with_reducible exact hK
    | with_reducible assumption
    | with_reducible apply drawNext_keeps
    | with_reducible apply assertClamp_keeps
    | fail_if_no_progress with_reducible refine Keeps.lit ?_ rfl rfl rfl rfl
    | split)

theorem execAlertPinClear_keeps {s₀ s₁ : State} (pin : AlertPin) (hK : Keeps s₀ s₁) :
    ∃ s₂, execAlertPinClear pin s₁ = .next s₂ ∧ Keeps s₀ s₂ := by
  refine ⟨_, rfl, ?_⟩
  repeat' (first
    | with_reducible exact hK
    | with_reducible assumption
    | with_reducible apply dropSource_keeps
    | fail_if_no_progress with_reducible refine Keeps.lit ?_ rfl rfl rfl rfl
    | split)

theorem releaseClamp_keeps {s₀ s₁ : State} (measuredW : Nat) (hK : Keeps s₀ s₁) :
    Keeps s₀ (releaseClamp measuredW s₁) := by
  unfold releaseClamp
  repeat' (first
    | with_reducible exact hK
    | with_reducible assumption
    | with_reducible apply reportPower_keeps
    | fail_if_no_progress with_reducible refine Keeps.lit ?_ rfl rfl rfl rfl)

theorem execClampRelease_keeps {s₀ s₁ : State} (measuredW : Nat) (hK : Keeps s₀ s₁) :
    ∃ s₂, execClampRelease measuredW s₁ = .next s₂ ∧ Keeps s₀ s₂ := by
  refine ⟨_, rfl, ?_⟩
  repeat' (first
    | with_reducible exact hK
    | with_reducible assumption
    | with_reducible refine when'_keeps _ ?_ (fun _ _ => ?_)
    | with_reducible apply releaseClamp_keeps)

theorem loseZone_keeps {s₀ s₁ : State} (z : ZoneId) (hK : Keeps s₀ s₁) :
    Keeps s₀ (loseZone z s₁) := by
  unfold loseZone
  repeat' (first
    | with_reducible exact hK
    | with_reducible assumption
    | with_reducible refine foldl_keeps ?_ (fun _ _ _ => ?_)
    | with_reducible refine foldl_fst_keeps ?_ (fun _ _ _ => ?_)
    | with_reducible apply mapPorts_keeps
    | with_reducible apply mapTiles_keeps
    | with_reducible apply report_keeps
    | with_reducible apply assertClamp_keeps
    | with_reducible apply completeCmd_keeps
    | with_reducible apply abortColls_keeps
    | with_reducible apply loseTileSram_keeps
    | with_reducible apply loseDeckSram_keeps
    | with_reducible apply destroyAll_keeps
    | fail_if_no_progress with_reducible refine Keeps.lit ?_ rfl rfl rfl rfl)

theorem execDeckZoneLoss_keeps {s₀ s₁ : State} (z : ZoneId) (hK : Keeps s₀ s₁) :
    ∃ s₂, execDeckZoneLoss z s₁ = .next s₂ ∧ Keeps s₀ s₂ := by
  refine ⟨_, rfl, ?_⟩
  repeat' (first
    | with_reducible exact hK
    | with_reducible assumption
    | with_reducible refine when'_keeps _ ?_ (fun _ _ => ?_)
    | with_reducible apply loseZone_keeps)

theorem execDieSupplyTrip_keeps {s₀ s₁ : State} (d : DieId) (hK : Keeps s₀ s₁) :
    ∃ s₂, execDieSupplyTrip d s₁ = .next s₂ ∧ Keeps s₀ s₂ := by
  refine ⟨_, rfl, ?_⟩
  repeat' (first
    | with_reducible exact hK
    | with_reducible assumption
    | with_reducible refine when'_keeps _ ?_ (fun _ _ => ?_)
    | with_reducible apply modDie_keeps
    | with_reducible apply report_keeps
    | with_reducible apply assertClamp_keeps)

theorem execDieIsolation_keeps {s₀ s₁ : State} (d : DieId) (hK : Keeps s₀ s₁) :
    ∃ s₂, execDieIsolation d s₁ = .next s₂ ∧ Keeps s₀ s₂ := by
  refine ⟨_, rfl, ?_⟩
  repeat' (first
    | with_reducible exact hK
    | with_reducible assumption
    | with_reducible refine when'_keeps _ ?_ (fun _ _ => ?_)
    | with_reducible apply modDie_keeps
    | with_reducible apply report_keeps
    | with_reducible apply closePackets_keeps
    | with_reducible apply loseTileSram_keeps
    | with_reducible apply faultRegions_keeps
    | fail_if_no_progress with_reducible refine Keeps.lit ?_ rfl rfl rfl rfl
    | split
    | dsimp only)

theorem execDieRegulatorLatchOff_keeps {s₀ s₁ : State} (d : DieId) (hK : Keeps s₀ s₁) :
    ∃ s₂, execDieRegulatorLatchOff d s₁ = .next s₂ ∧ Keeps s₀ s₂ := by
  refine ⟨_, rfl, ?_⟩
  repeat' (first
    | with_reducible exact hK
    | with_reducible assumption
    | with_reducible refine when'_keeps _ ?_ (fun _ _ => ?_)
    | with_reducible apply modDie_keeps
    | with_reducible apply dropSource_keeps
    | with_reducible apply railsDown_keeps
    | fail_if_no_progress with_reducible refine Keeps.lit ?_ rfl rfl rfl rfl
    | split
    | dsimp only)

theorem execDieRailRampStart_keeps {s₀ s₁ : State} (d : DieId) (hK : Keeps s₀ s₁) :
    ∃ s₂, execDieRailRampStart d s₁ = .next s₂ ∧ Keeps s₀ s₂ := by
  refine ⟨_, rfl, ?_⟩
  repeat' (first
    | with_reducible exact hK
    | with_reducible assumption
    | with_reducible refine when'_keeps _ ?_ (fun _ _ => ?_)
    | with_reducible apply modDie_keeps
    | fail_if_no_progress with_reducible refine Keeps.lit ?_ rfl rfl rfl rfl)

theorem execDieRailsUp_keeps {s₀ s₁ : State} (d : DieId) (hK : Keeps s₀ s₁) :
    ∃ s₂, execDieRailsUp d s₁ = .next s₂ ∧ Keeps s₀ s₂ := by
  refine ⟨_, rfl, ?_⟩
  repeat' (first
    | with_reducible exact hK
    | with_reducible assumption
    | with_reducible refine when'_keeps _ ?_ (fun _ _ => ?_)
    | with_reducible apply modDie_keeps)

theorem execDieClockLockTimeout_keeps {s₀ s₁ : State} (d : DieId) (locked : Bool) (hK : Keeps s₀ s₁) :
    ∃ s₂, execDieClockLockTimeout d locked s₁ = .next s₂ ∧ Keeps s₀ s₂ := by
  refine ⟨_, rfl, ?_⟩
  repeat' (first
    | with_reducible exact hK
    | with_reducible assumption
    | with_reducible refine when'_keeps _ ?_ (fun _ _ => ?_)
    | with_reducible apply modDie_keeps
    | with_reducible apply reportPower_keeps
    | with_reducible apply faultRegions_keeps
    | fail_if_no_progress with_reducible refine Keeps.lit ?_ rfl rfl rfl rfl
    | split)

theorem setCapHold_keeps {s₀ s₁ : State} (h : Bool) (hK : Keeps s₀ s₁) :
    Keeps s₀ (setCapHold h s₁) := by
  unfold setCapHold
  repeat' (first
    | with_reducible exact hK
    | with_reducible assumption
    | with_reducible apply reportPower_keeps
    | fail_if_no_progress with_reducible refine Keeps.lit ?_ rfl rfl rfl rfl
    | split)

theorem controlInterval_keeps {s₀ s₁ : State} (m : PowerSample) (hK : Keeps s₀ s₁) :
    Keeps s₀ (controlInterval m s₁) := by
  unfold controlInterval
  extract_lets plan ph order floor demand planned cPlan g above offset fit s₂ pCap p used target l0 l1 mix short l2
    src s₃ s₄
  have h2 : Keeps s₀ s₂ := setCapHold_keeps _ hK
  have h3 : Keeps s₀ s₃ := Keeps.lit h2 rfl rfl rfl rfl
  have h4 : Keeps s₀ s₄ := by
    show Keeps s₀ (if short then _ else _)
    clear_value short s₃
    split
    · exact reportPower_keeps _ _ h3
    · exact h3
  clear_value ph s₄
  split
  · split
    · exact reportPower_keeps _ _ (modInstalled_keeps _ h4)
    · exact h4
  · exact h4

theorem execPowerControlInterval_keeps {s₀ s₁ : State} (m : PowerSample) (hK : Keeps s₀ s₁) :
    ∃ s₂, execPowerControlInterval m s₁ = .next s₂ ∧ Keeps s₀ s₂ := by
  refine ⟨_, rfl, ?_⟩
  repeat' (first
    | with_reducible exact hK
    | with_reducible assumption
    | with_reducible refine when'_keeps _ ?_ (fun _ _ => ?_)
    | with_reducible apply controlInterval_keeps)

theorem seedBallast_keeps {s₀ s₁ : State}  (hK : Keeps s₀ s₁) :
    Keeps s₀ (seedBallast s₁) := by
  unfold seedBallast
  repeat' (first
    | with_reducible exact hK
    | with_reducible assumption
    | with_reducible apply drawNext_keeps
    | fail_if_no_progress with_reducible refine Keeps.lit ?_ rfl rfl rfl rfl
    | split
    | dsimp only)

theorem stopClock_keeps {s₀ s₁ : State} (t : TileId) (hK : Keeps s₀ s₁) :
    Keeps s₀ (stopClock t s₁) := by
  unfold stopClock
  repeat' (first
    | with_reducible exact hK
    | with_reducible assumption
    | with_reducible apply modTile_keeps
    | with_reducible apply sendHeartbeat_keeps
    | with_reducible apply railsDown_keeps
    | fail_if_no_progress with_reducible refine Keeps.lit ?_ rfl rfl rfl rfl
    | split
    | dsimp only)

theorem execDeferredSleepStop_keeps {s₀ s₁ : State} (t : TileId) (hK : Keeps s₀ s₁) :
    ∃ s₂, execDeferredSleepStop t s₁ = .next s₂ ∧ Keeps s₀ s₂ := by
  refine ⟨_, rfl, ?_⟩
  repeat' (first
    | with_reducible exact hK
    | with_reducible assumption
    | with_reducible refine when'_keeps _ ?_ (fun _ _ => ?_)
    | with_reducible apply stopClock_keeps)

theorem execThermalRampCheck_keeps {s₀ s₁ : State} (meanCenti : Int) (hK : Keeps s₀ s₁) :
    ∃ s₂, execThermalRampCheck meanCenti s₁ = .next s₂ ∧ Keeps s₀ s₂ := by
  refine ⟨_, rfl, ?_⟩
  repeat' (first
    | with_reducible exact hK
    | with_reducible assumption
    | fail_if_no_progress with_reducible refine Keeps.lit ?_ rfl rfl rfl rfl)

theorem execOscillatorRetune_keeps {s₀ s₁ : State}  (hK : Keeps s₀ s₁) :
    ∃ s₂, execOscillatorRetune s₁ = .next s₂ ∧ Keeps s₀ s₂ := by
  refine ⟨_, rfl, ?_⟩
  repeat' (first
    | with_reducible exact hK
    | with_reducible assumption
    | with_reducible apply drawNext_keeps
    | with_reducible apply reportPower_keeps
    | with_reducible apply doneWork_keeps
    | fail_if_no_progress with_reducible refine Keeps.lit ?_ rfl rfl rfl rfl
    | split
    | dsimp only)

theorem execDroopDetect_keeps {s₀ s₁ : State} (t : TileId) (dropPermille : Nat) (hK : Keeps s₀ s₁) :
    ∃ s₂, execDroopDetect t dropPermille s₁ = .next s₂ ∧ Keeps s₀ s₂ := by
  refine ⟨_, rfl, ?_⟩
  repeat' (first
    | with_reducible exact hK
    | with_reducible assumption
    | with_reducible refine when'_keeps _ ?_ (fun _ _ => ?_)
    | with_reducible apply modTile_keeps
    | fail_if_no_progress with_reducible refine Keeps.lit ?_ rfl rfl rfl rfl)

theorem execDroopRecover_keeps {s₀ s₁ : State} (t : TileId) (hK : Keeps s₀ s₁) :
    ∃ s₂, execDroopRecover t s₁ = .next s₂ ∧ Keeps s₀ s₂ := by
  refine ⟨_, rfl, ?_⟩
  repeat' (first
    | with_reducible exact hK
    | with_reducible assumption
    | with_reducible apply modTile_keeps)

theorem execLeaseExpire_keeps {s₀ s₁ : State}  (hK : Keeps s₀ s₁) :
    ∃ s₂, execLeaseExpire s₁ = .next s₂ ∧ Keeps s₀ s₂ := by
  refine ⟨_, rfl, ?_⟩
  repeat' (first
    | with_reducible exact hK
    | with_reducible assumption
    | with_reducible refine when'_keeps _ ?_ (fun _ _ => ?_)
    | with_reducible apply reportPower_keeps
    | fail_if_no_progress with_reducible refine Keeps.lit ?_ rfl rfl rfl rfl)

theorem execMarginSample_keeps {s₀ s₁ : State} (d : DieId) (slackPermille : Nat) (hK : Keeps s₀ s₁) :
    ∃ s₂, execMarginSample d slackPermille s₁ = .next s₂ ∧ Keeps s₀ s₂ := by
  refine ⟨_, rfl, ?_⟩
  repeat' (first
    | with_reducible exact hK
    | with_reducible assumption
    | with_reducible refine when'_keeps _ ?_ (fun _ _ => ?_)
    | with_reducible apply modDie_keeps
    | with_reducible apply reportPower_keeps
    | with_reducible apply doneWork_keeps
    | fail_if_no_progress with_reducible refine Keeps.lit ?_ rfl rfl rfl rfl
    | split
    | dsimp only)

theorem execEnergyAccumulate_keeps {s₀ s₁ : State} (measuredW : Nat) (hK : Keeps s₀ s₁) :
    ∃ s₂, execEnergyAccumulate measuredW s₁ = .next s₂ ∧ Keeps s₀ s₂ := by
  refine ⟨_, rfl, ?_⟩
  repeat' (first
    | with_reducible exact hK
    | with_reducible assumption
    | fail_if_no_progress with_reducible refine Keeps.lit ?_ rfl rfl rfl rfl)

theorem coarseThermal_keeps {s₀ s₁ : State}  (hK : Keeps s₀ s₁) :
    Keeps s₀ (coarseThermal s₁) := by
  unfold coarseThermal
  repeat' (first
    | with_reducible exact hK
    | with_reducible assumption
    | fail_if_no_progress with_reducible refine Keeps.lit ?_ rfl rfl rfl rfl)

theorem execTelemetryUpdate_keeps {s₀ s₁ : State} (a : Activity) (hK : Keeps s₀ s₁) :
    ∃ s₂, execTelemetryUpdate a s₁ = .next s₂ ∧ Keeps s₀ s₂ := by
  refine ⟨_, rfl, ?_⟩
  repeat' (first
    | with_reducible exact hK
    | with_reducible assumption
    | with_reducible refine when'_keeps _ ?_ (fun _ _ => ?_)
    | with_reducible refine modCtx_keeps _ ?_ (fun _ hc => hc)
    | with_reducible refine modCtx_keeps _ ?_ (fun _ hc => (by revert hc; dsimp only; (repeat' split) <;> first | exact id | exact fun hc => nomatch hc))
    | with_reducible apply doneWork_keeps
    | with_reducible apply coarseThermal_keeps
    | fail_if_no_progress with_reducible refine Keeps.lit ?_ rfl rfl rfl rfl
    | split
    | dsimp only)

end Sys2Proof.Machine
end

