-- ==== Sys2Proof/Laws/KeepsCooling.lean ====
section
/-! SUPPORT. What the operations and commands of Cooling keep (Laws/Keeps.lean). -/

namespace Sys2Proof.Machine

set_option linter.all false
set_option Elab.async false

open Sys2Proof

theorem dropCooling_keeps {s₀ s₁ : State}  (hK : Keeps s₀ s₁) :
    Keeps s₀ (dropCooling s₁) := by
  unfold dropCooling
  repeat' (first
    | with_reducible exact hK
    | with_reducible assumption
    | with_reducible apply dropSource_keeps
    | fail_if_no_progress with_reducible refine Keeps.lit ?_ rfl rfl rfl rfl
    | split)

theorem actDerate_keeps {s₀ s₁ : State}  (hK : Keeps s₀ s₁) :
    Keeps s₀ (actDerate s₁) := by
  unfold actDerate
  repeat' (first
    | with_reducible exact hK
    | with_reducible assumption
    | with_reducible apply reportThermal_keeps
    | fail_if_no_progress with_reducible refine Keeps.lit ?_ rfl rfl rfl rfl
    | split
    | dsimp only)

theorem actFlowClamp_keeps {s₀ s₁ : State}  (hK : Keeps s₀ s₁) :
    Keeps s₀ (actFlowClamp s₁) := by
  unfold actFlowClamp
  repeat' (first
    | with_reducible exact hK
    | with_reducible assumption
    | with_reducible apply reportThermal_keeps
    | with_reducible apply assertClamp_keeps
    | fail_if_no_progress with_reducible refine Keeps.lit ?_ rfl rfl rfl rfl
    | split)

theorem actSuddenStop_keeps {s₀ s₁ : State}  (hK : Keeps s₀ s₁) :
    Keeps s₀ (actSuddenStop s₁) := by
  unfold actSuddenStop
  repeat' (first
    | with_reducible exact hK
    | with_reducible assumption
    | with_reducible apply reportThermal_keeps
    | with_reducible apply assertClamp_keeps
    | fail_if_no_progress with_reducible refine Keeps.lit ?_ rfl rfl rfl rfl
    | split)

theorem flowAct_keeps {s₀ s₁ : State}  (hK : Keeps s₀ s₁) :
    Keeps s₀ (flowAct s₁) := by
  unfold flowAct
  repeat' (first
    | with_reducible exact hK
    | with_reducible assumption
    | with_reducible apply actDerate_keeps
    | with_reducible apply actFlowClamp_keeps
    | with_reducible apply actSuddenStop_keeps
    | fail_if_no_progress with_reducible refine Keeps.lit ?_ rfl rfl rfl rfl
    | split)

theorem takeFlow_keeps {s₀ s₁ : State} (f : Nat) (hK : Keeps s₀ s₁) :
    Keeps s₀ (takeFlow f s₁) := by
  unfold takeFlow
  repeat' (first
    | with_reducible exact hK
    | with_reducible assumption
    | fail_if_no_progress with_reducible refine Keeps.lit ?_ rfl rfl rfl rfl)

theorem reportCold_keeps {s₀ s₁ : State}  (hK : Keeps s₀ s₁) :
    Keeps s₀ (reportCold s₁) := by
  unfold reportCold
  repeat' (first
    | with_reducible exact hK
    | with_reducible assumption
    | with_reducible apply reportThermal_keeps
    | fail_if_no_progress with_reducible refine Keeps.lit ?_ rfl rfl rfl rfl
    | split)

theorem takeTray_keeps {s₀ s₁ : State} (t : TrayRegs) (hK : Keeps s₀ s₁) :
    Keeps s₀ (takeTray t s₁) := by
  unfold takeTray
  repeat' (first
    | with_reducible exact hK
    | with_reducible assumption
    | with_reducible apply takeFlow_keeps
    | with_reducible apply reportCold_keeps
    | fail_if_no_progress with_reducible refine Keeps.lit ?_ rfl rfl rfl rfl
    | split
    | dsimp only)

theorem execTrayRead_keeps {s₀ s₁ : State} (tray : Option TrayRegs) (hK : Keeps s₀ s₁) :
    ∃ s₂, execTrayRead tray s₁ = .next s₂ ∧ Keeps s₀ s₂ := by
  refine ⟨_, rfl, ?_⟩
  repeat' (first
    | with_reducible exact hK
    | with_reducible assumption
    | with_reducible apply flowAct_keeps
    | with_reducible apply takeTray_keeps
    | fail_if_no_progress with_reducible refine Keeps.lit ?_ rfl rfl rfl rfl
    | split)

theorem execTrayReadingStale_keeps {s₀ s₁ : State}  (hK : Keeps s₀ s₁) :
    ∃ s₂, execTrayReadingStale s₁ = .next s₂ ∧ Keeps s₀ s₂ := by
  refine ⟨_, rfl, ?_⟩
  repeat' (first
    | with_reducible exact hK
    | with_reducible assumption
    | with_reducible refine when'_keeps _ ?_ (fun _ _ => ?_)
    | with_reducible apply reportThermal_keeps
    | with_reducible apply flowAct_keeps
    | with_reducible apply takeFlow_keeps
    | fail_if_no_progress with_reducible refine Keeps.lit ?_ rfl rfl rfl rfl)

theorem execFlowClampClear_keeps {s₀ s₁ : State}  (hK : Keeps s₀ s₁) :
    ∃ s₂, execFlowClampClear s₁ = .next s₂ ∧ Keeps s₀ s₂ := by
  refine ⟨_, rfl, ?_⟩
  repeat' (first
    | with_reducible exact hK
    | with_reducible assumption
    | with_reducible refine when'_keeps _ ?_ (fun _ _ => ?_)
    | with_reducible apply reportThermal_keeps
    | with_reducible apply dropCooling_keeps
    | fail_if_no_progress with_reducible refine Keeps.lit ?_ rfl rfl rfl rfl)

theorem execSuddenStopRecover_keeps {s₀ s₁ : State}  (hK : Keeps s₀ s₁) :
    ∃ s₂, execSuddenStopRecover s₁ = .next s₂ ∧ Keeps s₀ s₂ := by
  refine ⟨_, rfl, ?_⟩
  repeat' (first
    | with_reducible exact hK
    | with_reducible assumption
    | with_reducible refine when'_keeps _ ?_ (fun _ _ => ?_)
    | with_reducible apply dropCooling_keeps
    | fail_if_no_progress with_reducible refine Keeps.lit ?_ rfl rfl rfl rfl)

theorem endActive_keeps {s₀ s₁ : State} (code : Code) (said : Bool) (hK : Keeps s₀ s₁) :
    Keeps s₀ (endActive code said s₁) := by
  unfold endActive
  repeat' (first
    | with_reducible exact hK
    | with_reducible assumption
    | with_reducible apply haltPrompters_keeps
    | with_reducible apply endReduction_keeps
    | with_reducible apply endOthers_keeps
    | with_reducible apply dropLoads_keeps
    | with_reducible apply abortColls_keeps
    | fail_if_no_progress with_reducible refine Keeps.lit ?_ rfl rfl rfl rfl
    | split)

theorem execCoolantHalt_keeps {s₀ s₁ : State}  (hK : Keeps s₀ s₁) :
    ∃ s₂, execCoolantHalt s₁ = .next s₂ ∧ Keeps s₀ s₂ := by
  refine ⟨_, rfl, ?_⟩
  repeat' (first
    | with_reducible exact hK
    | with_reducible assumption
    | with_reducible refine when'_keeps _ ?_ (fun _ _ => ?_)
    | with_reducible apply endActive_keeps
    | fail_if_no_progress with_reducible refine Keeps.lit ?_ rfl rfl rfl rfl)

theorem parkChart_keeps {s₀ s₁ : State}  (hK : Keeps s₀ s₁) :
    Keeps s₀ (parkChart s₁) := by
  unfold parkChart
  repeat' (first
    | with_reducible exact hK
    | with_reducible assumption
    | with_reducible apply setSlotState_keeps
    | with_reducible apply stopChart_keeps
    | fail_if_no_progress with_reducible refine Keeps.lit ?_ rfl rfl rfl rfl
    | split)

theorem execHalted_keeps {s₀ s₁ : State}  (hK : Keeps s₀ s₁) :
    ∃ s₂, execHalted s₁ = .next s₂ ∧ Keeps s₀ s₂ := by
  refine ⟨_, rfl, ?_⟩
  repeat' (first
    | with_reducible exact hK
    | with_reducible assumption
    | with_reducible refine when'_keeps _ ?_ (fun _ _ => ?_)
    | with_reducible apply reportThermal_keeps
    | with_reducible apply parkChart_keeps
    | fail_if_no_progress with_reducible refine Keeps.lit ?_ rfl rfl rfl rfl)

theorem powerOff_keeps {s₀ s₁ : State} (cause : Nat) (hK : Keeps s₀ s₁) :
    Keeps s₀ (powerOff cause s₁) := by
  unfold powerOff
  repeat' (first
    | with_reducible exact hK
    | with_reducible assumption
    | with_reducible apply emit_keeps
    | with_reducible apply reportThermal_keeps
    | with_reducible apply houseOnly_keeps
    | with_reducible apply destroyAll_keeps
    | fail_if_no_progress with_reducible refine Keeps.lit ?_ rfl rfl rfl rfl)

theorem execFlowPowerOff_keeps {s₀ s₁ : State}  (hK : Keeps s₀ s₁) :
    ∃ s₂, execFlowPowerOff s₁ = .next s₂ ∧ Keeps s₀ s₂ := by
  refine ⟨_, rfl, ?_⟩
  repeat' (first
    | with_reducible exact hK
    | with_reducible assumption
    | with_reducible refine when'_keeps _ ?_ (fun _ _ => ?_)
    | with_reducible apply powerOff_keeps)

theorem execThermalTrip_keeps {s₀ s₁ : State}  (hK : Keeps s₀ s₁) :
    ∃ s₂, execThermalTrip s₁ = .next s₂ ∧ Keeps s₀ s₂ := by
  refine ⟨_, rfl, ?_⟩
  repeat' (first
    | with_reducible exact hK
    | with_reducible assumption
    | with_reducible refine when'_keeps _ ?_ (fun _ _ => ?_)
    | with_reducible apply powerOff_keeps)

theorem execHaltExit_keeps {s₀ s₁ : State}  (hK : Keeps s₀ s₁) :
    ∃ s₂, execHaltExit s₁ = .next s₂ ∧ Keeps s₀ s₂ := by
  refine ⟨_, rfl, ?_⟩
  repeat' (first
    | with_reducible exact hK
    | with_reducible assumption
    | with_reducible refine when'_keeps _ ?_ (fun _ _ => ?_)
    | with_reducible apply reportThermal_keeps
    | with_reducible apply reinstall_keeps
    | with_reducible apply dropCooling_keeps
    | fail_if_no_progress with_reducible refine Keeps.lit ?_ rfl rfl rfl rfl)

theorem execHeatBalanceCheck_keeps {s₀ s₁ : State} (measuredW : Nat) (hK : Keeps s₀ s₁) :
    ∃ s₂, execHeatBalanceCheck measuredW s₁ = .next s₂ ∧ Keeps s₀ s₂ := by
  refine ⟨_, rfl, ?_⟩
  repeat' (first
    | with_reducible exact hK
    | with_reducible assumption
    | with_reducible refine when'_keeps _ ?_ (fun _ _ => ?_)
    | with_reducible apply reportThermal_keeps)

theorem checkPair_keeps {s₀ s₁ : State} (sp : Fin 144) (hK : Keeps s₀ s₁) :
    Keeps s₀ (checkPair sp s₁) := by
  unfold checkPair
  repeat' (first
    | with_reducible exact hK
    | with_reducible assumption
    | with_reducible apply reportThermal_keeps
    | with_reducible apply detect_keeps
    | fail_if_no_progress with_reducible refine Keeps.lit ?_ rfl rfl rfl rfl
    | split
    | dsimp only)

theorem takeSpot_keeps {s₀ s₁ : State} (r : Fin 144 × Int × Int) (hK : Keeps s₀ s₁) :
    Keeps s₀ (takeSpot s₁ r) := by
  unfold takeSpot
  repeat' (first
    | with_reducible exact hK
    | with_reducible assumption
    | fail_if_no_progress with_reducible refine Keeps.lit ?_ rfl rfl rfl rfl)

theorem takeTile_keeps {s₀ s₁ : State} (r : TileId × Int) (hK : Keeps s₀ s₁) :
    Keeps s₀ (takeTile s₁ r) := by
  unfold takeTile
  repeat' (first
    | with_reducible exact hK
    | with_reducible assumption
    | fail_if_no_progress with_reducible refine Keeps.lit ?_ rfl rfl rfl rfl)

theorem checkTile_keeps {s₀ s₁ : State} (p : Nat × TileSensor) (hK : Keeps s₀ s₁) :
    Keeps s₀ (checkTile s₁ p) := by
  unfold checkTile
  extract_lets out n src src' s₂
  have h2 : Keeps s₀ s₂ := Keeps.lit hK rfl rfl rfl rfl
  clear_value s₂
  split
  · exact hK
  · split
    · exact detect_keeps _ _ h2
    · exact h2

theorem startThrottle_keeps {s₀ s₁ : State}  (hK : Keeps s₀ s₁) :
    Keeps s₀ (startThrottle s₁) := by
  unfold startThrottle
  repeat' (first
    | with_reducible exact hK
    | with_reducible assumption
    | with_reducible apply reportThermal_keeps
    | fail_if_no_progress with_reducible refine Keeps.lit ?_ rfl rfl rfl rfl
    | split)

theorem endThrottleClamp_keeps {s₀ s₁ : State}  (hK : Keeps s₀ s₁) :
    Keeps s₀ (endThrottleClamp s₁) := by
  unfold endThrottleClamp
  repeat' (first
    | with_reducible exact hK
    | with_reducible assumption
    | with_reducible apply dropCooling_keeps
    | fail_if_no_progress with_reducible refine Keeps.lit ?_ rfl rfl rfl rfl
    | split)

theorem execSensorSample_keeps {s₀ s₁ : State} (r : SensorSet) (hK : Keeps s₀ s₁) :
    ∃ s₂, execSensorSample r s₁ = .next s₂ ∧ Keeps s₀ s₂ := by
  refine ⟨_, rfl, ?_⟩
  repeat' (first
    | with_reducible exact hK
    | with_reducible assumption
    | with_reducible refine foldl_keeps ?_ (fun _ _ _ => ?_)
    | with_reducible refine foldl_fst_keeps ?_ (fun _ _ _ => ?_)
    | with_reducible apply checkPair_keeps
    | with_reducible apply takeSpot_keeps
    | with_reducible apply takeTile_keeps
    | with_reducible apply checkTile_keeps
    | with_reducible apply startThrottle_keeps
    | with_reducible apply endThrottleClamp_keeps
    | fail_if_no_progress with_reducible refine Keeps.lit ?_ rfl rfl rfl rfl
    | split)

theorem execThrottleStep_keeps {s₀ s₁ : State}  (hK : Keeps s₀ s₁) :
    ∃ s₂, execThrottleStep s₁ = .next s₂ ∧ Keeps s₀ s₂ := by
  refine ⟨_, rfl, ?_⟩
  repeat' (first
    | with_reducible exact hK
    | with_reducible assumption
    | with_reducible refine when'_keeps _ ?_ (fun _ _ => ?_)
    | with_reducible apply reportThermal_keeps
    | fail_if_no_progress with_reducible refine Keeps.lit ?_ rfl rfl rfl rfl
    | split
    | dsimp only)

theorem execThrottleClampTimeout_keeps {s₀ s₁ : State}  (hK : Keeps s₀ s₁) :
    ∃ s₂, execThrottleClampTimeout s₁ = .next s₂ ∧ Keeps s₀ s₂ := by
  refine ⟨_, rfl, ?_⟩
  repeat' (first
    | with_reducible exact hK
    | with_reducible assumption
    | with_reducible refine when'_keeps _ ?_ (fun _ _ => ?_)
    | with_reducible apply assertClamp_keeps
    | fail_if_no_progress with_reducible refine Keeps.lit ?_ rfl rfl rfl rfl)

theorem execSensorPairRetest_keeps {s₀ s₁ : State} (d : DieId) (k : Fin 4) (hK : Keeps s₀ s₁) :
    ∃ s₂, execSensorPairRetest d k s₁ = .next s₂ ∧ Keeps s₀ s₂ := by
  refine ⟨_, rfl, ?_⟩
  repeat' (first
    | with_reducible exact hK
    | with_reducible assumption
    | with_reducible refine when'_keeps _ ?_ (fun _ _ => ?_)
    | with_reducible apply detect_keeps
    | fail_if_no_progress with_reducible refine Keeps.lit ?_ rfl rfl rfl rfl
    | split)

theorem execThermalModelAdvance_keeps {s₀ s₁ : State} (dieW : List Nat) (hK : Keeps s₀ s₁) :
    ∃ s₂, execThermalModelAdvance dieW s₁ = .next s₂ ∧ Keeps s₀ s₂ := by
  refine ⟨_, rfl, ?_⟩
  repeat' (first
    | with_reducible exact hK
    | with_reducible assumption
    | with_reducible apply mapDies_keeps)

theorem correctModels_keeps {s₀ s₁ : State}  (hK : Keeps s₀ s₁) :
    Keeps s₀ (correctModels s₁) := by
  unfold correctModels
  repeat' (first
    | with_reducible exact hK
    | with_reducible assumption
    | with_reducible apply mapDies_keeps)

theorem writeTray_keeps {s₀ s₁ : State}  (hK : Keeps s₀ s₁) :
    Keeps s₀ (writeTray s₁) := by
  unfold writeTray
  repeat' (first
    | with_reducible exact hK
    | with_reducible assumption
    | with_reducible refine foldl_keeps ?_ (fun _ _ _ => ?_)
    | with_reducible refine foldl_fst_keeps ?_ (fun _ _ _ => ?_)
    | with_reducible apply emit_keeps
    | fail_if_no_progress with_reducible refine Keeps.lit ?_ rfl rfl rfl rfl)

theorem forecastNow_keeps {s₀ s₁ : State}  (hK : Keeps s₀ s₁) :
    Keeps s₀ (forecastNow s₁) := by
  unfold forecastNow
  repeat' (first
    | with_reducible exact hK
    | with_reducible assumption
    | with_reducible apply reportThermal_keeps
    | with_reducible apply correctModels_keeps
    | fail_if_no_progress with_reducible refine Keeps.lit ?_ rfl rfl rfl rfl
    | split
    | dsimp only)

theorem execHeatForecast_keeps {s₀ s₁ : State}  (hK : Keeps s₀ s₁) :
    ∃ s₂, execHeatForecast s₁ = .next s₂ ∧ Keeps s₀ s₂ := by
  refine ⟨_, rfl, ?_⟩
  repeat' (first
    | with_reducible exact hK
    | with_reducible assumption
    | with_reducible refine when'_keeps _ ?_ (fun _ _ => ?_)
    | with_reducible apply writeTray_keeps
    | with_reducible apply forecastNow_keeps
    | fail_if_no_progress with_reducible refine Keeps.lit ?_ rfl rfl rfl rfl
    | split
    | dsimp only)

end Sys2Proof.Machine
end

