-- ==== Sys2Proof/Laws/KeepsNvStore.lean ====
section
/-! SUPPORT. What the operations and commands of NvStore keep (Laws/Keeps.lean). -/

namespace Sys2Proof.Machine

set_option linter.all false
set_option Elab.async false

open Sys2Proof

theorem modBank_keeps {s₀ s₁ : State} (b : Fin 2) (f : NvBank → NvBank) (hK : Keeps s₀ s₁) :
    Keeps s₀ (modBank b f s₁) := by
  unfold modBank
  repeat' (first
    | with_reducible exact hK
    | with_reducible assumption
    | fail_if_no_progress with_reducible refine Keeps.lit ?_ rfl rfl rfl rfl)

theorem answerStores_keeps {s₀ s₁ : State} (n : Nat) (code : Code) (hK : Keeps s₀ s₁) :
    Keeps s₀ (answerStores n code s₁) := by
  unfold answerStores
  repeat' (first
    | with_reducible exact hK
    | with_reducible assumption
    | with_reducible refine foldl_keeps ?_ (fun _ _ _ => ?_)
    | with_reducible refine foldl_fst_keeps ?_ (fun _ _ _ => ?_)
    | with_reducible apply emit_keeps)

theorem requestStore_keeps {s₀ s₁ : State} (mgmt : Bool) (hK : Keeps s₀ s₁) :
    Keeps s₀ (requestStore mgmt s₁) := by
  unfold requestStore
  extract_lets answer src
  have ha : ∀ c y, Keeps s₀ y → Keeps s₀ (answer c y) := by
    intro c y hy
    simp only [answer]
    split
    · exact emit_keeps _ hy
    · exact hy
  clear_value answer
  split
  · exact ha _ _ (reportNv_keeps _ _ hK)
  · split
    · exact ha _ _ (reportNv_keeps _ _ hK)
    · refine Keeps.litAny hK id id rfl ?_ id
      intro hp
      show (if s₁.nv.storeWaiting then s₁.nv.tokens else s₁.nv.tokens - 1) ≤ 6
      split
      · exact hp
      · exact Nat.le_trans (Nat.sub_le _ _) hp

theorem execStoreRequest_keeps {s₀ s₁ : State}  (hK : Keeps s₀ s₁) :
    ∃ s₂, execStoreRequest s₁ = .next s₂ ∧ Keeps s₀ s₂ := by
  refine ⟨_, rfl, ?_⟩
  repeat' (first
    | with_reducible exact hK
    | with_reducible assumption
    | with_reducible apply requestStore_keeps)

theorem startWrite_keeps {s₀ s₁ : State} (hK : Keeps s₀ s₁) : Keeps s₀ (startWrite s₁) := by
  unfold startWrite
  dsimp only
  split
  · exact Keeps.lit hK rfl rfl rfl rfl
  · split
    · split
      · exact Keeps.litAny hK id id rfl (fun hp => Nat.le_trans (Nat.sub_le _ _) hp) id
      · exact hK
    · exact hK

theorem execNvWriteStart_keeps {s₀ s₁ : State}  (hK : Keeps s₀ s₁) :
    ∃ s₂, execNvWriteStart s₁ = .next s₂ ∧ Keeps s₀ s₂ := by
  refine ⟨_, rfl, ?_⟩
  repeat' (first
    | with_reducible exact hK
    | with_reducible assumption
    | with_reducible refine when'_keeps _ ?_ (fun _ _ => ?_)
    | with_reducible apply startWrite_keeps)

theorem wearUp_keeps {s₀ s₁ : State} (b : Fin 2) (writes : Nat) (hK : Keeps s₀ s₁) :
    Keeps s₀ (wearUp b writes s₁) := by
  unfold wearUp
  repeat' (first
    | with_reducible exact hK
    | with_reducible assumption
    | with_reducible apply drawNext_keeps
    | with_reducible apply modBank_keeps)

theorem endWrite_keeps {s₀ s₁ : State} (j : NvJob) (mismatches : Nat) (hK : Keeps s₀ s₁) :
    Keeps s₀ (endWrite j mismatches s₁) := by
  unfold endWrite
  repeat' (first
    | with_reducible exact hK
    | with_reducible assumption
    | with_reducible apply drawNext_keeps
    | with_reducible apply reportNv_keeps
    | with_reducible apply modBank_keeps
    | with_reducible apply answerStores_keeps
    | with_reducible apply wearUp_keeps
    | fail_if_no_progress with_reducible refine Keeps.lit ?_ rfl rfl rfl rfl
    | split
    | dsimp only)

theorem execNvStoreComplete_keeps {s₀ s₁ : State} (mismatches : Nat) (hK : Keeps s₀ s₁) :
    ∃ s₂, execNvStoreComplete mismatches s₁ = .next s₂ ∧ Keeps s₀ s₂ := by
  refine ⟨_, rfl, ?_⟩
  repeat' (first
    | with_reducible exact hK
    | with_reducible assumption
    | with_reducible apply endWrite_keeps
    | fail_if_no_progress with_reducible refine Keeps.lit ?_ rfl rfl rfl rfl
    | split)

theorem execWearTokenGain_keeps {s₀ s₁ : State}  (hK : Keeps s₀ s₁) :
    ∃ s₂, execWearTokenGain s₁ = .next s₂ ∧ Keeps s₀ s₂ := by
  refine ⟨_, rfl, ?_⟩
  repeat' (first
    | with_reducible exact hK
    | with_reducible assumption
    | fail_if_no_progress with_reducible refine Keeps.lit ?_ rfl rfl rfl rfl
    | with_reducible refine Keeps.litAny ?_ (fun hm => hm) ?_ rfl ?_ (fun hp => hp)
    | with_reducible exact fun hp => hp
    | (intro hp; dsimp only; omega))

theorem execNvUpkeep_keeps {s₀ s₁ : State} (good : Bool) (hK : Keeps s₀ s₁) :
    ∃ s₂, execNvUpkeep good s₁ = .next s₂ ∧ Keeps s₀ s₂ := by
  refine ⟨_, rfl, ?_⟩
  repeat' (first
    | with_reducible exact hK
    | with_reducible assumption
    | with_reducible refine when'_keeps _ ?_ (fun _ _ => ?_)
    | with_reducible apply reportNv_keeps
    | with_reducible apply doneWork_keeps
    | with_reducible apply modBank_keeps
    | with_reducible apply wearUp_keeps
    | fail_if_no_progress with_reducible refine Keeps.lit ?_ rfl rfl rfl rfl
    | with_reducible refine Keeps.litAny ?_ (fun hm => hm) ?_ rfl ?_ (fun hp => hp)
    | with_reducible exact fun hp => hp
    | (intro hp; dsimp only; omega)
    | (intro hp; dsimp only; split <;> omega)
    | (intro hp; with_reducible decide)
    | (intro hp; simp)
    | split
    | dsimp only)

theorem loadSettings_keeps {s₀ s₁ : State} (hK : Keeps s₀ s₁) : Keeps s₀ (loadSettings s₁) := by
  unfold loadSettings
  extract_lets
  exact Keeps.lit hK rfl rfl rfl rfl

theorem discardBank_keeps {s₀ s₁ : State} (b : Fin 2) (hK : Keeps s₀ s₁) :
    Keeps s₀ (discardBank b s₁) := by
  unfold discardBank
  repeat' (first
    | with_reducible exact hK
    | with_reducible assumption
    | with_reducible apply reportNv_keeps
    | with_reducible apply modBank_keeps
    | fail_if_no_progress with_reducible refine Keeps.lit ?_ rfl rfl rfl rfl
    | split)

theorem chooseBank_keeps {s₀ s₁ : State}  (hK : Keeps s₀ s₁) :
    Keeps s₀ (chooseBank s₁).2 := by
  unfold chooseBank
  repeat' (first
    | with_reducible exact hK
    | with_reducible assumption
    | with_reducible apply reportNv_keeps
    | with_reducible apply discardBank_keeps
    | fail_if_no_progress with_reducible refine Keeps.lit ?_ rfl rfl rfl rfl
    | split
    | dsimp only)

end Sys2Proof.Machine
end

