-- ==== Sys2Proof/Laws/KeepsStartup.lean ====
section
/-! SUPPORT. What the operations and commands of Startup keep (Laws/Keeps.lean). -/

namespace Sys2Proof.Machine

set_option linter.all false
set_option Elab.async false

open Sys2Proof

theorem resetState_keeps {s₀ s₁ : State} (cause : BitVec 4) (house : Bool) (hK : Keeps s₀ s₁) :
    Keeps s₀ (resetState cause house s₁) := by
  unfold resetState
  extract_lets pins src src' r srcp r' r''
  have h1 : Keeps s₀ r := by
    refine loadSettings_keeps (Keeps.trans hK
      ⟨⟨rfl, fun _ => rfl, rfl, fun _ => (by decide : (0 : BitVec 4).toNat ≤ 8), fun _ => Nat.le_refl 6, fun _ => Nat.zero_le _,
        fun _ => Nat.zero_le _,
        List.prefix_refl _, fun _ => rfl⟩, ⟨fun i hi => ?_, .inr rfl⟩⟩)
    have hr : (State.reset.ctxOf i).state = .closed := by
      simp [State.reset, State.ctxOf, Ctx.reset]
    exact nomatch hr.symm.trans hi
  have h2 : Keeps s₀ r' := Keeps.lit h1 rfl rfl rfl rfl
  have h3 : Keeps s₀ r'' := by
    clear_value r'
    simp only [r'']
    split
    · exact emit_keeps _ h2
    · exact h2
  clear_value r''
  split
  · exact h3
  · exact assertClamp_keeps _ h3

theorem dropForReset_keeps {s₀ s₁ : State}  (hK : Keeps s₀ s₁) :
    Keeps s₀ (dropForReset s₁) := by
  unfold dropForReset
  repeat' (first
    | with_reducible exact hK
    | with_reducible assumption
    | with_reducible apply assertClamp_keeps
    | with_reducible apply houseOnly_keeps
    | fail_if_no_progress with_reducible refine Keeps.lit ?_ rfl rfl rfl rfl
    | split)

theorem execHouseRstNAssert_keeps {s₀ s₁ : State} (ticks : Nat) (hK : Keeps s₀ s₁) :
    ∃ s₂, execHouseRstNAssert ticks s₁ = .next s₂ ∧ Keeps s₀ s₂ := by
  refine ⟨_, rfl, ?_⟩
  repeat' (first
    | with_reducible exact hK
    | with_reducible assumption
    | with_reducible refine when'_keeps _ ?_ (fun _ _ => ?_)
    | with_reducible apply resetState_keeps
    | with_reducible apply dropForReset_keeps)

theorem stopStart_keeps {s₀ s₁ : State} (code : Code) (hK : Keeps s₀ s₁) : Keeps s₀ (stopStart code s₁) := by
  unfold stopStart
  exact Keeps.setStart _ (houseOnly_keeps (assertClamp_keeps _ (report_keeps _ hK))) fun _ => by simp

theorem runRom_keeps {s₀ s₁ : State} (hK : Keeps s₀ s₁) : Keeps s₀ (runRom s₁) := by
  unfold runRom
  extract_lets src src' s₂
  have h2 : Keeps s₀ s₂ := hK.trans
    ⟨⟨rfl, id, rfl, fun _ => (by decide : (0 : BitVec 4).toNat ≤ 8), id, id, id, List.prefix_refl _, id⟩, ⟨fun _ hi => hi, .inl rfl⟩⟩
  have h3 := chooseBank_keeps h2
  clear_value s₂
  generalize chooseBank s₂ = c at h3
  obtain ⟨c1, c2⟩ := c
  cases c1
  · exact Keeps.setStart _ (reportNv_keeps _ _ h3) fun _ => by simp
  · exact loadSettings_keeps (Keeps.lit h3 rfl rfl rfl rfl)

theorem execHouseRstNRise_keeps {s₀ s₁ : State}  (hK : Keeps s₀ s₁) :
    ∃ s₂, execHouseRstNRise s₁ = .next s₂ ∧ Keeps s₀ s₂ := by
  refine ⟨_, rfl, ?_⟩
  repeat' (first
    | with_reducible exact hK
    | with_reducible assumption
    | with_reducible refine when'_keeps _ ?_ (fun _ _ => ?_)
    | with_reducible apply runRom_keeps)

theorem deriveKeys_keeps {s₀ s₁ : State}  (hK : Keeps s₀ s₁) :
    Keeps s₀ (deriveKeys s₁) := by
  unfold deriveKeys
  repeat' (first
    | with_reducible exact hK
    | with_reducible assumption
    | fail_if_no_progress with_reducible refine Keeps.lit ?_ rfl rfl rfl rfl)

theorem execKeysUp_keeps {s₀ s₁ : State}  (hK : Keeps s₀ s₁) :
    ∃ s₂, execKeysUp s₁ = .next s₂ ∧ Keeps s₀ s₂ := by
  refine ⟨_, rfl, ?_⟩
  repeat' (first
    | with_reducible exact hK
    | with_reducible assumption
    | with_reducible refine when'_keeps _ ?_ (fun _ _ => ?_)
    | with_reducible apply deriveKeys_keeps
    | fail_if_no_progress with_reducible refine Keeps.lit ?_ rfl rfl rfl rfl
    | with_reducible refine Keeps.litAny ?_ (fun hm => hm) ?_ rfl ?_ (fun hp => hp)
    | with_reducible exact fun hp => hp
    | (intro hp; dsimp only; omega)
    | (intro hp; simp))

theorem firstRequest_keeps {s₀ s₁ : State}  (hK : Keeps s₀ s₁) :
    Keeps s₀ (firstRequest s₁) := by
  unfold firstRequest
  repeat' (first
    | with_reducible exact hK
    | with_reducible assumption
    | with_reducible apply writeTray_keeps)

theorem execCoolantGateStart_keeps {s₀ s₁ : State} (tray : Option TrayRegs) (hK : Keeps s₀ s₁) :
    ∃ s₂, execCoolantGateStart tray s₁ = .next s₂ ∧ Keeps s₀ s₂ := by
  refine ⟨_, rfl, when'_keeps _ hK fun y hy => ?_⟩
  have h2 : Keeps s₀ { y with start := { y.start with phase := 2 } } := Keeps.setStart _ hy fun _ => by simp
  cases tray with
  | none => exact firstRequest_keeps h2
  | some t =>
    dsimp only
    split
    · exact firstRequest_keeps (takeTray_keeps _ h2)
    · exact firstRequest_keeps (report_keeps _ (Keeps.setStart _ hy fun _ => by simp))

theorem execCoolantGatePass_keeps {s₀ s₁ : State}  (hK : Keeps s₀ s₁) :
    ∃ s₂, execCoolantGatePass s₁ = .next s₂ ∧ Keeps s₀ s₂ := by
  refine ⟨_, rfl, ?_⟩
  repeat' (first
    | with_reducible exact hK
    | with_reducible assumption
    | with_reducible refine when'_keeps _ ?_ (fun _ _ => ?_)
    | fail_if_no_progress with_reducible refine Keeps.lit ?_ rfl rfl rfl rfl
    | with_reducible refine Keeps.litAny ?_ (fun hm => hm) ?_ rfl ?_ (fun hp => hp)
    | with_reducible exact fun hp => hp
    | (intro hp; dsimp only; omega)
    | (intro hp; simp))

theorem execCoolantGateTimeout_keeps {s₀ s₁ : State}  (hK : Keeps s₀ s₁) :
    ∃ s₂, execCoolantGateTimeout s₁ = .next s₂ ∧ Keeps s₀ s₂ := by
  refine ⟨_, rfl, ?_⟩
  repeat' (first
    | with_reducible exact hK
    | with_reducible assumption
    | with_reducible refine when'_keeps _ ?_ (fun _ _ => ?_)
    | with_reducible apply report_keeps
    | fail_if_no_progress with_reducible refine Keeps.lit ?_ rfl rfl rfl rfl)

theorem execDeckZoneUp_keeps {s₀ s₁ : State} (good : Bool) (hK : Keeps s₀ s₁) :
    ∃ s₂, execDeckZoneUp good s₁ = .next s₂ ∧ Keeps s₀ s₂ := by
  refine ⟨_, rfl, ?_⟩
  repeat' (first
    | with_reducible exact hK
    | with_reducible assumption
    | with_reducible refine when'_keeps _ ?_ (fun _ _ => ?_)
    | with_reducible apply stopStart_keeps
    | fail_if_no_progress with_reducible refine Keeps.lit ?_ rfl rfl rfl rfl
    | split)

theorem recordFaults_keeps {s₀ s₁ : State} (code : Code) (faults : List Part) (tracks : List (LinkDir × Nat × Nat)) (hK : Keeps s₀ s₁) :
    Keeps s₀ (recordFaults code faults tracks s₁) := by
  unfold recordFaults
  repeat' (first
    | with_reducible exact hK
    | with_reducible assumption
    | with_reducible refine foldl_keeps ?_ (fun _ _ _ => ?_)
    | with_reducible refine foldl_fst_keeps ?_ (fun _ _ _ => ?_)
    | with_reducible apply failTrack_keeps
    | with_reducible apply lastingFault_keeps)

theorem execDeckCheck_keeps {s₀ s₁ : State} (faults : List Part) (tracks : List (LinkDir × Nat × Nat)) (hK : Keeps s₀ s₁) :
    ∃ s₂, execDeckCheck faults tracks s₁ = .next s₂ ∧ Keeps s₀ s₂ := by
  refine ⟨_, rfl, ?_⟩
  repeat' (first
    | with_reducible exact hK
    | with_reducible assumption
    | with_reducible refine when'_keeps _ ?_ (fun _ _ => ?_)
    | with_reducible apply report_keeps
    | with_reducible apply recordFaults_keeps
    | fail_if_no_progress with_reducible refine Keeps.lit ?_ rfl rfl rfl rfl
    | split
    | dsimp only)

theorem bringUpStacks_keeps {s₀ s₁ : State} (hK : Keeps s₀ s₁) : Keeps s₀ (bringUpStacks s₁) := by
  unfold bringUpStacks
  extract_lets s₂ s₃
  have h2 : Keeps s₀ s₂ := foldl_keeps hK fun _ _ hy => report_keeps _ hy
  have h3 : Keeps s₀ s₃ := mapPorts_keeps h2
  clear_value s₃
  have h4 : Keeps s₀ { s₃ with sec := { s₃.sec with scrubKey := s₃.random 64 } } := Keeps.lit h3 rfl rfl rfl rfl
  exact drawNext_keeps (Keeps.setStart _ h4 fun _ => by simp)

theorem execStackBringUp_keeps {s₀ s₁ : State} (fail : Bool) (hK : Keeps s₀ s₁) :
    ∃ s₂, execStackBringUp fail s₁ = .next s₂ ∧ Keeps s₀ s₂ := by
  refine ⟨_, rfl, when'_keeps _ hK fun y hy => ?_⟩
  have h2 : Keeps s₀ { y with start := { y.start with phase := 4 } } := Keeps.setStart _ hy fun _ => by simp
  dsimp only
  split
  · exact stopStart_keeps _ h2
  · exact bringUpStacks_keeps h2

theorem execStackInitialisationDone_keeps {s₀ s₁ : State}  (hK : Keeps s₀ s₁) :
    ∃ s₂, execStackInitialisationDone s₁ = .next s₂ ∧ Keeps s₀ s₂ := by
  refine ⟨_, rfl, ?_⟩
  repeat' (first
    | with_reducible exact hK
    | with_reducible assumption
    | with_reducible refine when'_keeps _ ?_ (fun _ _ => ?_)
    | with_reducible apply report_keeps
    | fail_if_no_progress with_reducible refine Keeps.lit ?_ rfl rfl rfl rfl
    | with_reducible refine Keeps.litAny ?_ (fun hm => hm) ?_ rfl ?_ (fun hp => hp)
    | with_reducible exact fun hp => hp
    | (intro hp; dsimp only; omega)
    | (intro hp; simp))

theorem execCredentialWindowExpire_keeps {s₀ s₁ : State}  (hK : Keeps s₀ s₁) :
    ∃ s₂, execCredentialWindowExpire s₁ = .next s₂ ∧ Keeps s₀ s₂ := by
  refine ⟨_, rfl, ?_⟩
  repeat' (first
    | with_reducible exact hK
    | with_reducible assumption
    | fail_if_no_progress with_reducible refine Keeps.lit ?_ rfl rfl rfl rfl)

theorem dropBinnacle_keeps {s₀ s₁ : State}  (hK : Keeps s₀ s₁) :
    Keeps s₀ (dropBinnacle s₁) := by
  unfold dropBinnacle
  repeat' (first
    | with_reducible exact hK
    | with_reducible assumption
    | with_reducible apply dropSource_keeps
    | fail_if_no_progress with_reducible refine Keeps.lit ?_ rfl rfl rfl rfl
    | split)

theorem execPwrGoodLoss_keeps {s₀ s₁ : State}  (hK : Keeps s₀ s₁) :
    ∃ s₂, execPwrGoodLoss s₁ = .next s₂ ∧ Keeps s₀ s₂ := by
  refine ⟨_, rfl, ?_⟩
  repeat' (first
    | with_reducible exact hK
    | with_reducible assumption
    | with_reducible refine when'_keeps _ ?_ (fun _ _ => ?_)
    | with_reducible apply report_keeps
    | with_reducible apply assertClamp_keeps
    | with_reducible apply endActive_keeps
    | with_reducible apply parkChart_keeps
    | fail_if_no_progress with_reducible refine Keeps.lit ?_ rfl rfl rfl rfl
    | with_reducible refine Keeps.litAny ?_ (fun hm => hm) ?_ rfl ?_ (fun hp => hp)
    | with_reducible exact fun hp => hp
    | (intro hp; dsimp only; omega)
    | (intro hp; simp))

theorem execPwrGoodRestore_keeps {s₀ s₁ : State}  (hK : Keeps s₀ s₁) :
    ∃ s₂, execPwrGoodRestore s₁ = .next s₂ ∧ Keeps s₀ s₂ := by
  refine ⟨_, rfl, ?_⟩
  repeat' (first
    | with_reducible exact hK
    | with_reducible assumption
    | with_reducible refine when'_keeps _ ?_ (fun _ _ => ?_)
    | with_reducible apply report_keeps
    | with_reducible apply reinstall_keeps
    | with_reducible apply dropBinnacle_keeps
    | fail_if_no_progress with_reducible refine Keeps.lit ?_ rfl rfl rfl rfl
    | with_reducible refine Keeps.litAny ?_ (fun hm => hm) ?_ rfl ?_ (fun hp => hp)
    | with_reducible exact fun hp => hp
    | (intro hp; dsimp only; omega)
    | (intro hp; simp))

theorem execInputPowerLoss_keeps {s₀ s₁ : State}  (hK : Keeps s₀ s₁) :
    ∃ s₂, execInputPowerLoss s₁ = .next s₂ ∧ Keeps s₀ s₂ := by
  refine ⟨_, rfl, ?_⟩
  repeat' (first
    | with_reducible exact hK
    | with_reducible assumption
    | with_reducible refine when'_keeps _ ?_ (fun _ _ => ?_)
    | with_reducible apply resetState_keeps
    | fail_if_no_progress with_reducible refine Keeps.lit ?_ rfl rfl rfl rfl)

theorem releaseOpen_keeps {s₀ s₁ : State}  (hK : Keeps s₀ s₁) :
    Keeps s₀ (releaseOpen s₁) := by
  unfold releaseOpen
  repeat' (first
    | with_reducible exact hK
    | with_reducible assumption
    | with_reducible apply mapPorts_keeps
    | with_reducible apply report_keeps
    | with_reducible apply assertClamp_keeps
    | with_reducible apply endActive_keeps
    | with_reducible apply parkChart_keeps
    | fail_if_no_progress with_reducible refine Keeps.lit ?_ rfl rfl rfl rfl
    | split)

theorem releaseEarly_keeps {s₀ s₁ : State} (hK : Keeps s₀ s₁) : Keeps s₀ (releaseEarly s₁) := by
  unfold releaseEarly
  refine Keeps.setStart _ (houseOnly_keeps hK) fun _ => ?_
  show BitVec.toNat (if (houseOnly s₁).start.phase.toNat < 3 then (houseOnly s₁).start.phase else 3) ≤ 8
  split
  · omega
  · decide

theorem execTrayRelease_keeps {s₀ s₁ : State}  (hK : Keeps s₀ s₁) :
    ∃ s₂, execTrayRelease s₁ = .next s₂ ∧ Keeps s₀ s₂ := by
  refine ⟨_, rfl, ?_⟩
  repeat' (first
    | with_reducible exact hK
    | with_reducible assumption
    | with_reducible refine when'_keeps _ ?_ (fun _ _ => ?_)
    | with_reducible apply releaseOpen_keeps
    | with_reducible apply releaseEarly_keeps
    | fail_if_no_progress with_reducible refine Keeps.lit ?_ rfl rfl rfl rfl
    | split)

theorem execTrayReleaseWithdrawn_keeps {s₀ s₁ : State}  (hK : Keeps s₀ s₁) :
    ∃ s₂, execTrayReleaseWithdrawn s₁ = .next s₂ ∧ Keeps s₀ s₂ := by
  refine ⟨_, rfl, ?_⟩
  repeat' (first
    | with_reducible exact hK
    | with_reducible assumption
    | with_reducible refine when'_keeps _ ?_ (fun _ _ => ?_)
    | with_reducible apply mapPorts_keeps
    | with_reducible apply report_keeps
    | with_reducible apply reinstall_keeps
    | with_reducible apply dropBinnacle_keeps
    | fail_if_no_progress with_reducible refine Keeps.lit ?_ rfl rfl rfl rfl
    | split)

end Sys2Proof.Machine
end

