-- ==== Sys2Proof/Laws/KeepsQueues.lean ====
section
/-! SUPPORT. What the operations and commands of Queues keep (Laws/Keeps.lean). -/

namespace Sys2Proof.Machine

set_option linter.all false
set_option Elab.async false

open Sys2Proof

theorem latchQueue_keeps {s₀ s₁ : State} (i : Slot) (q : QId) (hK : Keeps s₀ s₁) :
    Keeps s₀ (latchQueue i q s₁) := by
  unfold latchQueue
  repeat' (first
    | with_reducible exact hK
    | with_reducible assumption
    | with_reducible apply modQueue_keeps
    | with_reducible apply reportCtx_keeps
    | fail_if_no_progress with_reducible refine Keeps.lit ?_ rfl rfl rfl rfl
    | split
    | dsimp only)

theorem observeLine_keeps {s₀ s₁ : State} (i : Slot) (off : Nat) (e : Entry) (q : QId) (hK : Keeps s₀ s₁) :
    Keeps s₀ (observeLine i off e s₁ q) := by
  unfold observeLine
  repeat' (first
    | with_reducible exact hK
    | with_reducible assumption
    | with_reducible apply modQueue_keeps
    | with_reducible apply reportCtx_keeps
    | fail_if_no_progress with_reducible refine Keeps.lit ?_ rfl rfl rfl rfl
    | split
    | dsimp only)

theorem countOutside_keeps {s₀ s₁ : State}  (hK : Keeps s₀ s₁) :
    Keeps s₀ (countOutside s₁) := by
  unfold countOutside
  repeat' (first
    | with_reducible exact hK
    | with_reducible assumption
    | with_reducible apply reportHost_keeps
    | fail_if_no_progress with_reducible refine Keeps.lit ?_ rfl rfl rfl rfl
    | split
    | dsimp only)

theorem hostWrite_keeps {s₀ s₁ : State} (offset : BitVec 41) (line : Bytes) (hK : Keeps s₀ s₁) :
    Keeps s₀ (hostWrite offset line s₁) := by
  unfold hostWrite
  repeat' (first
    | with_reducible exact hK
    | with_reducible assumption
    | with_reducible refine foldl_keeps ?_ (fun _ _ _ => ?_)
    | with_reducible refine foldl_fst_keeps ?_ (fun _ _ _ => ?_)
    | with_reducible apply emit_keeps
    | with_reducible apply storeBytes_keeps
    | with_reducible apply observeLine_keeps
    | with_reducible apply countOutside_keeps
    | fail_if_no_progress with_reducible refine Keeps.lit ?_ rfl rfl rfl rfl
    | split
    | dsimp only)

theorem execQueueEntryWrite_keeps {s₀ s₁ : State} (offset : BitVec 41) (line : Bytes) (hK : Keeps s₀ s₁) :
    ∃ s₂, execQueueEntryWrite offset line s₁ = .next s₂ ∧ Keeps s₀ s₂ := by
  refine ⟨_, rfl, ?_⟩
  repeat' (first
    | with_reducible exact hK
    | with_reducible assumption
    | with_reducible refine when'_keeps _ ?_ (fun _ _ => ?_)
    | with_reducible apply hostWrite_keeps
    | fail_if_no_progress with_reducible refine Keeps.lit ?_ rfl rfl rfl rfl
    | split
    | dsimp only)

theorem dropStale_keeps {s₀ s₁ : State} (i : Slot) (q : QId) (idx : Nat) (hK : Keeps s₀ s₁) :
    Keeps s₀ (dropStale i q idx s₁) := by
  unfold dropStale
  repeat' (first
    | with_reducible exact hK
    | with_reducible assumption
    | with_reducible apply modQueue_keeps
    | fail_if_no_progress with_reducible refine Keeps.lit ?_ rfl rfl rfl rfl
    | split
    | dsimp only)

theorem readHead_keeps {s₀ s₁ : State} (i : Slot) (q : QId) (hK : Keeps s₀ s₁) :
    Keeps s₀ (readHead i q s₁) := by
  unfold readHead
  repeat' (first
    | with_reducible exact hK
    | with_reducible assumption
    | with_reducible apply dropStale_keeps
    | fail_if_no_progress with_reducible refine Keeps.lit ?_ rfl rfl rfl rfl
    | split
    | dsimp only)

theorem consume_keeps {s₀ s₁ : State} (i : Slot) (q : QId) (r : Ready) (hK : Keeps s₀ s₁) :
    Keeps s₀ (consume i q r s₁) := by
  unfold consume
  repeat' (first
    | with_reducible exact hK
    | with_reducible assumption
    | with_reducible apply modQueue_keeps
    | fail_if_no_progress with_reducible refine Keeps.lit ?_ rfl rfl rfl rfl
    | split
    | dsimp only)

theorem holdRecord_keeps {s₀ s₁ : State} (i : Slot) (r : CplRecord) (hK : Keeps s₀ s₁) :
    Keeps s₀ (holdRecord i r s₁) := by
  unfold holdRecord
  repeat' (first
    | with_reducible exact hK
    | with_reducible assumption
    | with_reducible refine modCtx_keeps _ ?_ (fun _ hc => hc)
    | with_reducible refine modCtx_keeps _ ?_ (fun _ hc => (by revert hc; dsimp only; (repeat' split) <;> first | exact id | exact fun hc => nomatch hc))
    | fail_if_no_progress with_reducible refine Keeps.lit ?_ rfl rfl rfl rfl
    | split
    | dsimp only)

theorem refuseCmd_keeps {s₀ s₁ : State} (i : Slot) (q : QId) (idx : Nat) (e : Entry) (code : Code) (detail : Nat) (hK : Keeps s₀ s₁) :
    Keeps s₀ (refuseCmd i q idx e code detail s₁) := by
  unfold refuseCmd
  repeat' (first
    | with_reducible exact hK
    | with_reducible assumption
    | with_reducible refine modCtx_keeps _ ?_ (fun _ hc => hc)
    | with_reducible refine modCtx_keeps _ ?_ (fun _ hc => (by revert hc; dsimp only; (repeat' split) <;> first | exact id | exact fun hc => nomatch hc))
    | with_reducible apply report_keeps
    | with_reducible apply reportCtx_keeps
    | with_reducible apply holdRecord_keeps
    | fail_if_no_progress with_reducible refine Keeps.lit ?_ rfl rfl rfl rfl
    | split
    | dsimp only)

theorem refuseHead_keeps {s₀ s₁ : State} (i : Slot) (q : QId) (hK : Keeps s₀ s₁) :
    Keeps s₀ (refuseHead i q s₁) := by
  unfold refuseHead
  repeat' (first
    | with_reducible exact hK
    | with_reducible assumption
    | with_reducible apply modQueue_keeps
    | with_reducible apply consume_keeps
    | with_reducible apply refuseCmd_keeps
    | fail_if_no_progress with_reducible refine Keeps.lit ?_ rfl rfl rfl rfl
    | split
    | dsimp only)

theorem execEntryRefusal_keeps {s₀ s₁ : State} (i : Slot) (q : QId) (hK : Keeps s₀ s₁) :
    ∃ s₂, execEntryRefusal i q s₁ = .next s₂ ∧ Keeps s₀ s₂ := by
  refine ⟨_, rfl, ?_⟩
  repeat' (first
    | with_reducible exact hK
    | with_reducible assumption
    | with_reducible refine when'_keeps _ ?_ (fun _ _ => ?_)
    | with_reducible apply readHead_keeps
    | with_reducible apply refuseHead_keeps
    | fail_if_no_progress with_reducible refine Keeps.lit ?_ rfl rfl rfl rfl
    | split
    | dsimp only)

theorem addRunning_keeps {s₀ s₁ : State} (i : Slot) (cmd : Cmd) (hK : Keeps s₀ s₁) :
    Keeps s₀ (addRunning i cmd s₁) := by
  unfold addRunning
  repeat' (first
    | with_reducible exact hK
    | with_reducible assumption
    | with_reducible refine modCtx_keeps _ ?_ (fun _ hc => hc)
    | with_reducible refine modCtx_keeps _ ?_ (fun _ hc => (by revert hc; dsimp only; (repeat' split) <;> first | exact id | exact fun hc => nomatch hc))
    | fail_if_no_progress with_reducible refine Keeps.lit ?_ rfl rfl rfl rfl
    | split
    | dsimp only)

theorem startRow_keeps {s₀ s₁ : State} (op : Nat) {f : Slot → QId → Ready → State → State} (i : Slot) (q : QId)
    (hK : Keeps s₀ s₁) (hf : ∀ r y, Keeps s₀ y → Keeps s₀ (f i q r y)) : Keeps s₀ (startRow op f i q s₁) := by
  unfold startRow
  dsimp only
  have h2 := readHead_keeps i q hK
  split
  · split
    · exact h2
    · split
      · exact hf _ _ (consume_keeps _ _ _ h2)
      · exact h2
  · exact hK

theorem refuseStart_keeps {s₀ s₁ : State} (i : Slot) (q : QId) (r : Ready) (code : Code) (detail : Nat) (hK : Keeps s₀ s₁) :
    Keeps s₀ (refuseStart i q r code detail s₁) := by
  unfold refuseStart
  repeat' (first
    | with_reducible exact hK
    | with_reducible assumption
    | with_reducible apply refuseCmd_keeps
    | fail_if_no_progress with_reducible refine Keeps.lit ?_ rfl rfl rfl rfl
    | split
    | dsimp only)

theorem atOnce_keeps {s₀ s₁ : State} (i : Slot) (q : QId) (r : Ready) (detail : Nat) (hK : Keeps s₀ s₁) :
    Keeps s₀ (atOnce i q r detail s₁) := by
  unfold atOnce
  repeat' (first
    | with_reducible exact hK
    | with_reducible assumption
    | with_reducible apply completeCmd_keeps
    | with_reducible apply addRunning_keeps
    | fail_if_no_progress with_reducible refine Keeps.lit ?_ rfl rfl rfl rfl
    | split
    | dsimp only)

theorem execNop_keeps {s₀ s₁ : State} (i : Slot) (q : QId) (hK : Keeps s₀ s₁) :
    ∃ s₂, execNop i q s₁ = .next s₂ ∧ Keeps s₀ s₂ := by
  refine ⟨_, rfl, ?_⟩
  repeat' (first
    | with_reducible exact hK
    | with_reducible assumption
    | with_reducible refine startRow_keeps _ _ _ ?_ (fun _ _ _ => ?_)
    | with_reducible apply atOnce_keeps
    | fail_if_no_progress with_reducible refine Keeps.lit ?_ rfl rfl rfl rfl
    | split
    | dsimp only)

theorem cancelEntries_keeps {s₀ s₁ : State} (i : Slot) (q : QId) (hK : Keeps s₀ s₁) :
    Keeps s₀ (cancelEntries i q s₁) := by
  unfold cancelEntries
  repeat' (first
    | with_reducible exact hK
    | with_reducible assumption
    | with_reducible refine foldl_keeps ?_ (fun _ _ _ => ?_)
    | with_reducible refine foldl_fst_keeps ?_ (fun _ _ _ => ?_)
    | with_reducible apply modQueue_keeps
    | with_reducible apply reportCtx_keeps
    | with_reducible apply holdRecord_keeps
    | fail_if_no_progress with_reducible refine Keeps.lit ?_ rfl rfl rfl rfl
    | split
    | dsimp only)

theorem cancelQueue_keeps {s₀ s₁ : State} (i : Slot) (q : QId) (hK : Keeps s₀ s₁) :
    Keeps s₀ (cancelQueue i q s₁) := by
  unfold cancelQueue
  repeat' (first
    | with_reducible exact hK
    | with_reducible assumption
    | with_reducible apply modQueue_keeps
    | with_reducible apply cancelEntries_keeps
    | fail_if_no_progress with_reducible refine Keeps.lit ?_ rfl rfl rfl rfl
    | split
    | dsimp only)

theorem execQueueCancel_keeps {s₀ s₁ : State} (i : Slot) (q : QId) (hK : Keeps s₀ s₁) :
    ∃ s₂, execQueueCancel i q s₁ = .next s₂ ∧ Keeps s₀ s₂ := by
  refine ⟨_, rfl, ?_⟩
  repeat' (first
    | with_reducible exact hK
    | with_reducible assumption
    | with_reducible refine when'_keeps _ ?_ (fun _ _ => ?_)
    | with_reducible apply cancelQueue_keeps
    | fail_if_no_progress with_reducible refine Keeps.lit ?_ rfl rfl rfl rfl
    | split
    | dsimp only)

theorem endCancel_keeps {s₀ s₁ : State} (i : Slot) (q : QId) (hK : Keeps s₀ s₁) :
    Keeps s₀ (endCancel i q s₁) := by
  unfold endCancel
  repeat' (first
    | with_reducible exact hK
    | with_reducible assumption
    | with_reducible apply modQueue_keeps
    | with_reducible apply latchQueue_keeps
    | fail_if_no_progress with_reducible refine Keeps.lit ?_ rfl rfl rfl rfl
    | split
    | dsimp only)

theorem execQueueCancelComplete_keeps {s₀ s₁ : State} (i : Slot) (q : QId) (hK : Keeps s₀ s₁) :
    ∃ s₂, execQueueCancelComplete i q s₁ = .next s₂ ∧ Keeps s₀ s₂ := by
  refine ⟨_, rfl, ?_⟩
  repeat' (first
    | with_reducible exact hK
    | with_reducible assumption
    | with_reducible refine when'_keeps _ ?_ (fun _ _ => ?_)
    | with_reducible apply endCancel_keeps
    | fail_if_no_progress with_reducible refine Keeps.lit ?_ rfl rfl rfl rfl
    | split
    | dsimp only)

theorem enableRing_keeps {s₀ s₁ : State} (i : Slot) (hK : Keeps s₀ s₁) :
    Keeps s₀ (enableRing i s₁) := by
  unfold enableRing
  repeat' (first
    | with_reducible exact hK
    | with_reducible assumption
    | with_reducible refine modCtx_keeps _ ?_ (fun _ hc => hc)
    | with_reducible refine modCtx_keeps _ ?_ (fun _ hc => (by revert hc; dsimp only; (repeat' split) <;> first | exact id | exact fun hc => nomatch hc))
    | with_reducible apply reportCtx_keeps
    | fail_if_no_progress with_reducible refine Keeps.lit ?_ rfl rfl rfl rfl
    | split
    | dsimp only)

theorem disableRing_keeps {s₀ s₁ : State} (i : Slot) (hK : Keeps s₀ s₁) :
    Keeps s₀ (disableRing i s₁) := by
  unfold disableRing
  repeat' (first
    | with_reducible exact hK
    | with_reducible assumption
    | with_reducible refine modCtx_keeps _ ?_ (fun _ hc => hc)
    | with_reducible refine modCtx_keeps _ ?_ (fun _ hc => (by revert hc; dsimp only; (repeat' split) <;> first | exact id | exact fun hc => nomatch hc))
    | fail_if_no_progress with_reducible refine Keeps.lit ?_ rfl rfl rfl rfl
    | split
    | dsimp only)

theorem execCqEnable_keeps {s₀ s₁ : State} (i : Slot) (hK : Keeps s₀ s₁) :
    ∃ s₂, execCqEnable i s₁ = .next s₂ ∧ Keeps s₀ s₂ := by
  refine ⟨_, rfl, ?_⟩
  repeat' (first
    | with_reducible exact hK
    | with_reducible assumption
    | with_reducible refine when'_keeps _ ?_ (fun _ _ => ?_)
    | with_reducible apply enableRing_keeps
    | fail_if_no_progress with_reducible refine Keeps.lit ?_ rfl rfl rfl rfl
    | split
    | dsimp only)

theorem headWrite_keeps {s₀ s₁ : State} (i : Slot) (h : BitVec 12) (hK : Keeps s₀ s₁) :
    Keeps s₀ (headWrite i h s₁) := by
  unfold headWrite
  repeat' (first
    | with_reducible exact hK
    | with_reducible assumption
    | with_reducible refine modCtx_keeps _ ?_ (fun _ hc => hc)
    | with_reducible refine modCtx_keeps _ ?_ (fun _ hc => (by revert hc; dsimp only; (repeat' split) <;> first | exact id | exact fun hc => nomatch hc))
    | fail_if_no_progress with_reducible refine Keeps.lit ?_ rfl rfl rfl rfl
    | split
    | dsimp only)

theorem execCqHeadWrite_keeps {s₀ s₁ : State} (i : Slot) (h : BitVec 12) (hK : Keeps s₀ s₁) :
    ∃ s₂, execCqHeadWrite i h s₁ = .next s₂ ∧ Keeps s₀ s₂ := by
  refine ⟨_, rfl, ?_⟩
  repeat' (first
    | with_reducible exact hK
    | with_reducible assumption
    | with_reducible refine when'_keeps _ ?_ (fun _ _ => ?_)
    | with_reducible apply headWrite_keeps
    | fail_if_no_progress with_reducible refine Keeps.lit ?_ rfl rfl rfl rfl
    | split
    | dsimp only)

theorem writeRecord_keeps {s₀ s₁ : State} (i : Slot) (l : CqLatch) (x : CplRecord) (hK : Keeps s₀ s₁) :
    Keeps s₀ (writeRecord i l x s₁) := by
  unfold writeRecord
  repeat' (first
    | with_reducible exact hK
    | with_reducible assumption
    | with_reducible refine modCtx_keeps _ ?_ (fun _ hc => hc)
    | with_reducible refine modCtx_keeps _ ?_ (fun _ hc => (by revert hc; dsimp only; (repeat' split) <;> first | exact id | exact fun hc => nomatch hc))
    | with_reducible apply emit_keeps
    | with_reducible apply storeBytes_keeps
    | fail_if_no_progress with_reducible refine Keeps.lit ?_ rfl rfl rfl rfl
    | split
    | dsimp only)

theorem execCompletionRecordWrite_keeps {s₀ s₁ : State} (i : Slot) (hK : Keeps s₀ s₁) :
    ∃ s₂, execCompletionRecordWrite i s₁ = .next s₂ ∧ Keeps s₀ s₂ := by
  refine ⟨_, rfl, ?_⟩
  repeat' (first
    | with_reducible exact hK
    | with_reducible assumption
    | with_reducible apply writeRecord_keeps
    | fail_if_no_progress with_reducible refine Keeps.lit ?_ rfl rfl rfl rfl
    | split
    | dsimp only)

theorem recordWritten_keeps {s₀ s₁ : State} (i : Slot) (hK : Keeps s₀ s₁) :
    Keeps s₀ (recordWritten i s₁) := by
  unfold recordWritten
  repeat' (first
    | with_reducible exact hK
    | with_reducible assumption
    | with_reducible refine modCtx_keeps _ ?_ (fun _ hc => hc)
    | with_reducible refine modCtx_keeps _ ?_ (fun _ hc => (by revert hc; dsimp only; (repeat' split) <;> first | exact id | exact fun hc => nomatch hc))
    | with_reducible apply sendMsix_keeps
    | fail_if_no_progress with_reducible refine Keeps.lit ?_ rfl rfl rfl rfl
    | split
    | dsimp only)

theorem execCompletionWriteDone_keeps {s₀ s₁ : State} (i : Slot) (hK : Keeps s₀ s₁) :
    ∃ s₂, execCompletionWriteDone i s₁ = .next s₂ ∧ Keeps s₀ s₂ := by
  refine ⟨_, rfl, ?_⟩
  repeat' (first
    | with_reducible exact hK
    | with_reducible assumption
    | with_reducible refine when'_keeps _ ?_ (fun _ _ => ?_)
    | with_reducible apply recordWritten_keeps
    | fail_if_no_progress with_reducible refine Keeps.lit ?_ rfl rfl rfl rfl
    | split
    | dsimp only)

theorem modCxl_keeps {s₀ s₁ : State} (p : CxlId) (f : CxlPort → CxlPort) (hK : Keeps s₀ s₁) :
    Keeps s₀ (modCxl p f s₁) := by
  unfold modCxl
  repeat' (first
    | with_reducible exact hK
    | with_reducible assumption
    | fail_if_no_progress with_reducible refine Keeps.lit ?_ rfl rfl rfl rfl
    | split
    | dsimp only)

theorem decideFailover_keeps {s₀ s₁ : State} (auto : Bool) (hK : Keeps s₀ s₁) :
    Keeps s₀ (decideFailover auto s₁) := by
  unfold decideFailover
  repeat' (first
    | with_reducible exact hK
    | with_reducible assumption
    | with_reducible apply reportHost_keeps
    | with_reducible apply modCxl_keeps
    | fail_if_no_progress with_reducible refine Keeps.lit ?_ rfl rfl rfl rfl
    | split
    | dsimp only)

theorem execTakeOver_keeps {s₀ s₁ : State} (p : CxlId) (hK : Keeps s₀ s₁) :
    ∃ s₂, execTakeOver p s₁ = .next s₂ ∧ Keeps s₀ s₂ := by
  refine ⟨_, rfl, ?_⟩
  repeat' (first
    | with_reducible exact hK
    | with_reducible assumption
    | with_reducible refine when'_keeps _ ?_ (fun _ _ => ?_)
    | with_reducible apply decideFailover_keeps
    | fail_if_no_progress with_reducible refine Keeps.lit ?_ rfl rfl rfl rfl
    | split
    | dsimp only)

theorem execFailover_keeps {s₀ s₁ : State}  (hK : Keeps s₀ s₁) :
    ∃ s₂, execFailover s₁ = .next s₂ ∧ Keeps s₀ s₂ := by
  refine ⟨_, rfl, ?_⟩
  repeat' (first
    | with_reducible exact hK
    | with_reducible assumption
    | with_reducible refine when'_keeps _ ?_ (fun _ _ => ?_)
    | with_reducible apply decideFailover_keeps
    | fail_if_no_progress with_reducible refine Keeps.lit ?_ rfl rfl rfl rfl
    | split
    | dsimp only)

theorem abandonWrites_keeps {s₀ s₁ : State}  (hK : Keeps s₀ s₁) :
    Keeps s₀ (abandonWrites s₁) := by
  unfold abandonWrites
  repeat' (first
    | with_reducible exact hK
    | with_reducible assumption
    | with_reducible refine mapCtx_keeps ?_ (fun _ _ hc => hc)
    | fail_if_no_progress with_reducible refine Keeps.lit ?_ rfl rfl rfl rfl
    | split
    | dsimp only)

theorem loseActive_keeps {s₀ s₁ : State}  (hK : Keeps s₀ s₁) :
    Keeps s₀ (loseActive s₁) := by
  unfold loseActive
  repeat' (first
    | with_reducible exact hK
    | with_reducible assumption
    | with_reducible apply reportHost_keeps
    | with_reducible apply modCxl_keeps
    | with_reducible apply abandonWrites_keeps
    | fail_if_no_progress with_reducible refine Keeps.lit ?_ rfl rfl rfl rfl
    | split
    | dsimp only)

theorem execActiveLinkDown_keeps {s₀ s₁ : State}  (hK : Keeps s₀ s₁) :
    ∃ s₂, execActiveLinkDown s₁ = .next s₂ ∧ Keeps s₀ s₂ := by
  refine ⟨_, rfl, ?_⟩
  repeat' (first
    | with_reducible exact hK
    | with_reducible assumption
    | with_reducible refine when'_keeps _ ?_ (fun _ _ => ?_)
    | with_reducible apply loseActive_keeps
    | fail_if_no_progress with_reducible refine Keeps.lit ?_ rfl rfl rfl rfl
    | split
    | dsimp only)

theorem execAutoFailoverTimeout_keeps {s₀ s₁ : State}  (hK : Keeps s₀ s₁) :
    ∃ s₂, execAutoFailoverTimeout s₁ = .next s₂ ∧ Keeps s₀ s₂ := by
  refine ⟨_, rfl, ?_⟩
  repeat' (first
    | with_reducible exact hK
    | with_reducible assumption
    | with_reducible refine when'_keeps _ ?_ (fun _ _ => ?_)
    | with_reducible apply decideFailover_keeps
    | fail_if_no_progress with_reducible refine Keeps.lit ?_ rfl rfl rfl rfl
    | split
    | dsimp only)

theorem raiseLink_keeps {s₀ s₁ : State} (p : CxlId) (x4 ide : Bool) (hK : Keeps s₀ s₁) :
    Keeps s₀ (raiseLink p x4 ide s₁) := by
  unfold raiseLink
  repeat' (first
    | with_reducible exact hK
    | with_reducible assumption
    | with_reducible apply reportHost_keeps
    | with_reducible apply modCxl_keeps
    | fail_if_no_progress with_reducible refine Keeps.lit ?_ rfl rfl rfl rfl
    | split
    | dsimp only)

theorem retryFailover_keeps {s₀ s₁ : State}  (hK : Keeps s₀ s₁) :
    Keeps s₀ (retryFailover s₁) := by
  unfold retryFailover
  repeat' (first
    | with_reducible exact hK
    | with_reducible assumption
    | with_reducible apply decideFailover_keeps
    | fail_if_no_progress with_reducible refine Keeps.lit ?_ rfl rfl rfl rfl
    | split
    | dsimp only)

theorem execStandbyLinkUp_keeps {s₀ s₁ : State} (x4 ide : Bool) (hK : Keeps s₀ s₁) :
    ∃ s₂, execStandbyLinkUp x4 ide s₁ = .next s₂ ∧ Keeps s₀ s₂ := by
  refine ⟨_, rfl, ?_⟩
  repeat' (first
    | with_reducible exact hK
    | with_reducible assumption
    | with_reducible refine when'_keeps _ ?_ (fun _ _ => ?_)
    | with_reducible apply raiseLink_keeps
    | with_reducible apply retryFailover_keeps
    | fail_if_no_progress with_reducible refine Keeps.lit ?_ rfl rfl rfl rfl
    | split
    | dsimp only)

theorem execStandbyLinkDown_keeps {s₀ s₁ : State}  (hK : Keeps s₀ s₁) :
    ∃ s₂, execStandbyLinkDown s₁ = .next s₂ ∧ Keeps s₀ s₂ := by
  refine ⟨_, rfl, ?_⟩
  repeat' (first
    | with_reducible exact hK
    | with_reducible assumption
    | with_reducible apply modCxl_keeps
    | fail_if_no_progress with_reducible refine Keeps.lit ?_ rfl rfl rfl rfl
    | split
    | dsimp only)

theorem returnLink_keeps {s₀ s₁ : State} (p : CxlId) (x4 ide : Bool) (hK : Keeps s₀ s₁) :
    Keeps s₀ (returnLink p x4 ide s₁) := by
  unfold returnLink
  repeat' (first
    | with_reducible exact hK
    | with_reducible assumption
    | with_reducible apply sendPending_keeps
    | with_reducible apply raiseLink_keeps
    | with_reducible apply retryFailover_keeps
    | fail_if_no_progress with_reducible refine Keeps.lit ?_ rfl rfl rfl rfl
    | split
    | dsimp only)

theorem execActiveLinkReturn_keeps {s₀ s₁ : State} (p : CxlId) (x4 ide : Bool) (hK : Keeps s₀ s₁) :
    ∃ s₂, execActiveLinkReturn p x4 ide s₁ = .next s₂ ∧ Keeps s₀ s₂ := by
  refine ⟨_, rfl, ?_⟩
  repeat' (first
    | with_reducible exact hK
    | with_reducible assumption
    | with_reducible refine when'_keeps _ ?_ (fun _ _ => ?_)
    | with_reducible apply returnLink_keeps
    | fail_if_no_progress with_reducible refine Keeps.lit ?_ rfl rfl rfl rfl
    | split
    | dsimp only)

theorem execFailoverRecordsWritten_keeps {s₀ s₁ : State}  (hK : Keeps s₀ s₁) :
    ∃ s₂, execFailoverRecordsWritten s₁ = .next s₂ ∧ Keeps s₀ s₂ := by
  refine ⟨_, rfl, ?_⟩
  repeat' (first
    | with_reducible exact hK
    | with_reducible assumption
    | with_reducible refine when'_keeps _ ?_ (fun _ _ => ?_)
    | with_reducible apply sendPending_keeps
    | with_reducible apply reportHost_keeps
    | fail_if_no_progress with_reducible refine Keeps.lit ?_ rfl rfl rfl rfl
    | split
    | dsimp only)

theorem execCxlPortReset_keeps {s₀ s₁ : State} (p : CxlId) (hK : Keeps s₀ s₁) :
    ∃ s₂, execCxlPortReset p s₁ = .next s₂ ∧ Keeps s₀ s₂ := by
  refine ⟨_, rfl, ?_⟩
  repeat' (first
    | with_reducible exact hK
    | with_reducible assumption
    | with_reducible apply modCxl_keeps
    | with_reducible apply loseActive_keeps
    | fail_if_no_progress with_reducible refine Keeps.lit ?_ rfl rfl rfl rfl
    | split
    | dsimp only)

theorem execStandbyAccess_keeps {s₀ s₁ : State} (kind : AccessKind) (hK : Keeps s₀ s₁) :
    ∃ s₂, execStandbyAccess kind s₁ = .next s₂ ∧ Keeps s₀ s₂ := by
  refine ⟨_, rfl, ?_⟩
  repeat' (first
    | with_reducible exact hK
    | with_reducible assumption
    | with_reducible refine when'_keeps _ ?_ (fun _ _ => ?_)
    | with_reducible apply emit_keeps
    | with_reducible apply reportHost_keeps
    | fail_if_no_progress with_reducible refine Keeps.lit ?_ rfl rfl rfl rfl
    | split
    | dsimp only)

theorem execHdmAccessOutside_keeps {s₀ s₁ : State} (offset : BitVec 41) (kind : AccessKind) (hK : Keeps s₀ s₁) :
    ∃ s₂, execHdmAccessOutside offset kind s₁ = .next s₂ ∧ Keeps s₀ s₂ := by
  refine ⟨_, rfl, ?_⟩
  repeat' (first
    | with_reducible exact hK
    | with_reducible assumption
    | with_reducible refine when'_keeps _ ?_ (fun _ _ => ?_)
    | with_reducible apply emit_keeps
    | with_reducible apply countOutside_keeps
    | fail_if_no_progress with_reducible refine Keeps.lit ?_ rfl rfl rfl rfl
    | split
    | dsimp only)

theorem execDoeDiscovery_keeps {s₀ s₁ : State} (p : CxlId) (index : Byte) (hK : Keeps s₀ s₁) :
    ∃ s₂, execDoeDiscovery p index s₁ = .next s₂ ∧ Keeps s₀ s₂ := by
  refine ⟨_, rfl, ?_⟩
  repeat' (first
    | with_reducible exact hK
    | with_reducible assumption
    | with_reducible refine when'_keeps _ ?_ (fun _ _ => ?_)
    | with_reducible apply emit_keeps
    | fail_if_no_progress with_reducible refine Keeps.lit ?_ rfl rfl rfl rfl
    | split
    | dsimp only)

theorem execCdatTableAccess_keeps {s₀ s₁ : State} (p : CxlId) (hK : Keeps s₀ s₁) :
    ∃ s₂, execCdatTableAccess p s₁ = .next s₂ ∧ Keeps s₀ s₂ := by
  refine ⟨_, rfl, ?_⟩
  repeat' (first
    | with_reducible exact hK
    | with_reducible assumption
    | with_reducible refine when'_keeps _ ?_ (fun _ _ => ?_)
    | with_reducible apply emit_keeps
    | fail_if_no_progress with_reducible refine Keeps.lit ?_ rfl rfl rfl rfl
    | split
    | dsimp only)

theorem execIdeKm_keeps {s₀ s₁ : State} (p : CxlId) (exchange : Bytes) (hK : Keeps s₀ s₁) :
    ∃ s₂, execIdeKm p exchange s₁ = .next s₂ ∧ Keeps s₀ s₂ := by
  refine ⟨_, rfl, ?_⟩
  repeat' (first
    | with_reducible exact hK
    | with_reducible assumption
    | with_reducible refine when'_keeps _ ?_ (fun _ _ => ?_)
    | with_reducible apply modCxl_keeps
    | with_reducible apply retryFailover_keeps
    | fail_if_no_progress with_reducible refine Keeps.lit ?_ rfl rfl rfl rfl
    | split
    | dsimp only)

end Sys2Proof.Machine
end

