-- ==== Sys2Proof/Laws/KeepsContexts.lean ====
section
/-! SUPPORT. What the operations and commands of Contexts keep (Laws/Keeps.lean). -/

namespace Sys2Proof.Machine

set_option linter.all false
set_option Elab.async false

open Sys2Proof

theorem takeRequest_keeps {s₀ s₁ : State} (op : Nat) (i : Slot) (req : Bytes) (hK : Keeps s₀ s₁) :
    Keeps s₀ (takeRequest op i req s₁) := by
  unfold takeRequest
  repeat' (first
    | with_reducible exact hK
    | with_reducible assumption
    | fail_if_no_progress with_reducible refine Keeps.lit ?_ rfl rfl rfl rfl
    | split
    | dsimp only)

theorem respond_keeps {s₀ s₁ : State} (code : Code) (body : Bytes) (hK : Keeps s₀ s₁) :
    Keeps s₀ (respond code body s₁) := by
  unfold respond
  repeat' (first
    | with_reducible exact hK
    | with_reducible assumption
    | fail_if_no_progress with_reducible refine Keeps.lit ?_ rfl rfl rfl rfl
    | split
    | dsimp only)

theorem refuseRequest_keeps {s₀ s₁ : State} (i : Slot) (code : Code) (hK : Keeps s₀ s₁) :
    Keeps s₀ (refuseRequest i code s₁) := by
  unfold refuseRequest
  repeat' (first
    | with_reducible exact hK
    | with_reducible assumption
    | with_reducible apply report_keeps
    | with_reducible apply respond_keeps
    | fail_if_no_progress with_reducible refine Keeps.lit ?_ rfl rfl rfl rfl
    | split
    | dsimp only)

theorem serveRequest_moves {s₁ : State} (op : Nat) {f : Slot → Bytes → State → Answer × State} (i : Slot) (req : Bytes)
    (hf : Moves s₁ (f i req s₁).2) : Moves s₁ (serveRequest op f i req s₁) := by
  unfold serveRequest
  generalize f i req s₁ = r at hf
  obtain ⟨a, t⟩ := r
  split
  · exact (refuseRequest_keeps _ _ (.refl _)).moves
  · cases a
    · exact hf.trans (refuseRequest_keeps _ _ (.refl _)).moves
    · exact hf.trans (respond_keeps _ _ (.refl _)).moves
    · exact hf

theorem mailbox_moves {s₁ : State} (op : Nat) {f : Slot → Bytes → State → Answer × State} (i : Slot) (req : Bytes)
    (hf : ∀ s, Moves s (f i req s).2) : Moves s₁ (mailbox op f i req s₁) := by
  unfold mailbox
  dsimp only
  split
  · exact .refl _
  · have h2 := (takeRequest_keeps op i req (.refl s₁)).moves
    split
    · exact h2.trans (Keeps.moves (by exact Keeps.lit (.refl _) rfl rfl rfl rfl))
    · exact h2.trans (serveRequest_moves op i req (hf _))

theorem openSlot_keeps {s₀ s₁ : State} (i : Slot) (fp : Bytes) (stack hdm : Nat) (hK : Keeps s₀ s₁) :
    Keeps s₀ (openSlot i fp stack hdm s₁) := by
  unfold openSlot
  repeat' (first
    | with_reducible exact hK
    | with_reducible assumption
    | with_reducible refine foldl_keeps ?_ (fun _ _ _ => ?_)
    | with_reducible refine foldl_fst_keeps ?_ (fun _ _ _ => ?_)
    | with_reducible refine modCtx_keeps _ ?_ (fun _ hc => hc)
    | with_reducible refine modCtx_keeps _ ?_ (fun _ hc => (by revert hc; dsimp only; (repeat' split) <;> first | exact id | exact fun hc => nomatch hc))
    | with_reducible apply drawNext_keeps
    | with_reducible apply latchQueue_keeps
    | fail_if_no_progress with_reducible refine Keeps.lit ?_ rfl rfl rfl rfl
    | split
    | dsimp only)

theorem openRequest_keeps {s₀ s₁ : State} (i : Slot) (req : Bytes) (hK : Keeps s₀ s₁) :
    Keeps s₀ (openRequest i req s₁).2 := by
  unfold openRequest
  repeat' (first
    | with_reducible exact hK
    | with_reducible assumption
    | with_reducible apply openSlot_keeps
    | fail_if_no_progress with_reducible refine Keeps.lit ?_ rfl rfl rfl rfl
    | split
    | dsimp only)

theorem execOpenContext_moves (i : Slot) (req : Bytes) (s₁ : State) :
    ∃ s₂, execOpenContext i req s₁ = .next s₂ ∧ Moves s₁ s₂ :=
  ⟨_, rfl, mailbox_moves _ _ _ fun _ => (openRequest_keeps _ _ (.refl _)).moves⟩

theorem startFill_keeps {s₀ s₁ : State} (i : Slot) (gib : Nat) (zeroFill fresh : Bool) (hK : Keeps s₀ s₁) :
    Keeps s₀ (startFill i gib zeroFill fresh s₁) := by
  unfold startFill
  repeat' (first
    | with_reducible exact hK
    | with_reducible assumption
    | with_reducible apply drawNext_keeps
    | fail_if_no_progress with_reducible refine Keeps.lit ?_ rfl rfl rfl rfl
    | split
    | dsimp only)

theorem closeNow_keeps {s₀ s₁ : State} (i : Slot) (zeroFill fresh : Bool) (hK : Keeps s₀ s₁) :
    Keeps s₀ (closeNow i zeroFill fresh s₁) := by
  unfold closeNow
  repeat' (first
    | with_reducible exact hK
    | with_reducible assumption
    | with_reducible apply destroyCtx_keeps
    | with_reducible apply startFill_keeps
    | fail_if_no_progress with_reducible refine Keeps.lit ?_ rfl rfl rfl rfl
    | split
    | dsimp only)

theorem withdrawColls_keeps {s₀ s₁ : State} (i : Slot) (hK : Keeps s₀ s₁) :
    Keeps s₀ (withdrawColls i s₁) := by
  unfold withdrawColls
  repeat' (first
    | with_reducible exact hK
    | with_reducible assumption
    | with_reducible apply endReduction_keeps
    | with_reducible apply abortColls_keeps
    | fail_if_no_progress with_reducible refine Keeps.lit ?_ rfl rfl rfl rfl
    | split
    | dsimp only)

theorem endGrace_keeps {s₀ s₁ : State} (i : Slot) (hK : Keeps s₀ s₁) :
    Keeps s₀ (endGrace i s₁) := by
  unfold endGrace
  repeat' (first
    | with_reducible exact hK
    | with_reducible assumption
    | with_reducible apply endOthers_keeps
    | with_reducible apply dropLoads_keeps
    | fail_if_no_progress with_reducible refine Keeps.lit ?_ rfl rfl rfl rfl
    | split
    | dsimp only)

theorem beginHandOver_moves {s₁ : State} (x : HandOver) (hs : x.started = false)
    (ho : ∀ i, (s₁.ctxOf i).state = .holding → x.outgoing = some i) : Moves s₁ (beginHandOver x s₁) := by
  have h2 : Moves s₁ { s₁ with sec := { s₁.sec with handOver := some x } } :=
    ⟨⟨rfl, id, rfl, id, id, id, id, List.prefix_refl _, id⟩, fun h => ⟨h.one,
      fun y hy => by rw [← Option.some.inj hy]; exact ho,
      fun y hy hy' => by rw [← Option.some.inj hy, hs] at hy'; exact nomatch hy'⟩⟩
  unfold beginHandOver
  dsimp only
  split
  · exact h2
  · exact h2.trans (withdrawColls_keeps _ (.refl _)).moves

theorem isHolding_iff (s : State) (i : Slot) : isHolding s i = true ↔ (s.ctxOf i).state = .holding := by
  simp [isHolding]

theorem holder_none {s : State} (h : holder s = none) (i : Slot) : (s.ctxOf i).state ≠ .holding := by
  intro hi
  have := (List.find?_eq_none.1 h) i (List.mem_finRange i)
  simp [hi] at this

theorem holder_some {s : State} {i : Slot} (h : holder s = some i) : (s.ctxOf i).state = .holding := by
  have := List.find?_some h
  simpa using this

theorem handOver_moves {s₁ : State} (x : HandOver) (i : Slot) (hs : x.started = false) (hx : x.outgoing = some i)
    (hi : (s₁.ctxOf i).state = .holding) : Moves s₁ (beginHandOver x s₁) := by
  have hst : Stays s₁ (beginHandOver x s₁) := by
    have h2 : Stays s₁ { s₁ with sec := { s₁.sec with handOver := some x } } :=
      ⟨rfl, id, rfl, id, id, id, id, List.prefix_refl _, id⟩
    unfold beginHandOver
    dsimp only
    split
    · exact h2
    · exact h2.trans (withdrawColls_keeps _ (.refl _)).stays
  exact ⟨hst, fun h => (beginHandOver_moves x hs fun j hj => hx.trans (by rw [h.one i j hi hj])).sound h⟩

theorem closeSlot_moves {s₁ : State} (asker : Asker) (i : Slot) (z : Bool) :
    Moves s₁ (closeSlot asker i z s₁).2 := by
  unfold closeSlot
  split
  · rename_i hi
    exact (handOver_moves _ i rfl rfl ((isHolding_iff _ _).1 hi)).trans (endGrace_keeps _ (.refl _)).moves
  · exact (closeNow_keeps _ _ _ (.refl _)).moves

theorem switchSlot_moves {s₁ : State} (asker : Asker) (i : Slot) (grace : Nat) :
    Moves s₁ (switchSlot asker i grace s₁).2 := by
  unfold switchSlot
  dsimp only
  split
  · exact .refl _
  · split
    · exact .refl _
    · cases ho : holder s₁ with
      | none =>
        exact beginHandOver_moves ⟨none, some i, false, false, false, asker⟩ rfl fun j hj => absurd hj (holder_none ho j)
      | some o =>
        have h2 := handOver_moves ⟨some o, some i, false, false, false, asker⟩ o rfl rfl (holder_some ho)
        dsimp only
        split
        · exact h2.trans (endGrace_keeps _ (.refl _)).moves
        · exact h2

theorem closeRequest_moves {s₁ : State} (asker : Asker) (i : Slot) (req : Bytes) :
    Moves s₁ (closeRequest asker i req s₁).2 := by
  unfold closeRequest
  split
  · exact .refl _
  · split
    · exact .refl _
    · exact closeSlot_moves _ _ _

theorem execCloseContext_moves (i : Slot) (req : Bytes) (s₁ : State) :
    ∃ s₂, execCloseContext i req s₁ = .next s₂ ∧ Moves s₁ s₂ :=
  ⟨_, rfl, mailbox_moves _ _ _ fun _ => closeRequest_moves _ _ _⟩

theorem switchRequest_moves {s₁ : State} (asker : Asker) (i : Slot) (req : Bytes) :
    Moves s₁ (switchRequest asker i req s₁).2 := by
  unfold switchRequest
  split
  · exact .refl _
  · exact switchSlot_moves _ _ _

theorem execSwitchContext_moves (i : Slot) (req : Bytes) (s₁ : State) :
    ∃ s₂, execSwitchContext i req s₁ = .next s₂ ∧ Moves s₁ s₂ :=
  ⟨_, rfl, mailbox_moves _ _ _ fun _ => switchRequest_moves _ _ _⟩

theorem execGraceExpire_keeps {s₀ s₁ : State}  (hK : Keeps s₀ s₁) :
    ∃ s₂, execGraceExpire s₁ = .next s₂ ∧ Keeps s₀ s₂ := by
  refine ⟨_, rfl, ?_⟩
  repeat' (first
    | with_reducible exact hK
    | with_reducible assumption
    | with_reducible apply endGrace_keeps
    | fail_if_no_progress with_reducible refine Keeps.lit ?_ rfl rfl rfl rfl
    | split
    | dsimp only)

theorem curtainRow_keeps {s₀ s₁ : State} (kind : Nat) (t : TileId) (bank row : Nat) (hK : Keeps s₀ s₁) :
    Keeps s₀ (curtainRow s₁ kind t bank row) := by
  unfold curtainRow
  repeat' (first
    | with_reducible exact hK
    | with_reducible assumption
    | with_reducible apply report_keeps
    | with_reducible apply addEntry_keeps
    | fail_if_no_progress with_reducible refine Keeps.lit ?_ rfl rfl rfl rfl
    | split
    | dsimp only)

theorem curtainBad_keeps {s₀ s₁ : State} (x : Part) (hK : Keeps s₀ s₁) : Keeps s₀ (curtainBad s₁ x) := by
  cases x <;> unfold curtainBad
  case tileRow =>
    dsimp only
    split
    · exact curtainRow_keeps _ _ _ _ hK
    · exact hK
  case deckRow => exact curtainRow_keeps _ _ _ _ hK
  all_goals exact hK

theorem zeroStores_keeps {s₀ s₁ : State}  (hK : Keeps s₀ s₁) :
    Keeps s₀ (zeroStores s₁) := by
  unfold zeroStores
  repeat' (first
    | with_reducible exact hK
    | with_reducible assumption
    | with_reducible apply mapPorts_keeps
    | with_reducible apply mapTiles_keeps
    | fail_if_no_progress with_reducible refine Keeps.lit ?_ rfl rfl rfl rfl
    | with_reducible refine Keeps.litMem ?_ (filter_wf _ _) rfl rfl rfl rfl
    | split
    | dsimp only)

theorem leaveChart_keeps {s₀ s₁ : State} (i : Slot) (hK : Keeps s₀ s₁) :
    Keeps s₀ (leaveChart i s₁) := by
  unfold leaveChart
  repeat' (first
    | with_reducible exact hK
    | with_reducible assumption
    | with_reducible apply modSlot_keeps
    | fail_if_no_progress with_reducible refine Keeps.lit ?_ rfl rfl rfl rfl
    | split
    | dsimp only)

theorem drawCurtain_keeps {s₀ s₁ : State}  (hK : Keeps s₀ s₁) :
    Keeps s₀ (drawCurtain s₁) := by
  unfold drawCurtain
  repeat' (first
    | with_reducible exact hK
    | with_reducible assumption
    | with_reducible apply drawNext_keeps
    | with_reducible apply seedBallast_keeps
    | fail_if_no_progress with_reducible refine Keeps.lit ?_ rfl rfl rfl rfl
    | split
    | dsimp only)

theorem startCurtain_moves {s₁ : State} (x : HandOver) (bad : List Part) (hx : s₁.sec.handOver = some x) :
    Moves s₁ (startCurtain x bad s₁) := by
  unfold startCurtain
  extract_lets src s₂ s₃ s₄ s₅
  have h2 : Stays s₁ s₂ := ⟨rfl, id, rfl, id, id, id, id, List.prefix_refl _, id⟩
  have h3 : Stays s₁ s₃ ∧ (s₃.sec.handOver = s₂.sec.handOver ∨ s₃.sec.handOver = none) ∧
      ∀ j, (s₃.ctxOf j).state = .holding → (s₁.ctxOf j).state = .holding ∧ x.outgoing ≠ some j := by
    have e2 : ∀ j, s₂.ctxOf j = s₁.ctxOf j := fun _ => rfl
    clear_value s₂
    simp only [s₃]
    split
    · rename_i i hi
      have hk := leaveChart_keeps i (.refl s₂)
      refine ⟨h2.trans (modCtx_keeps i hk fun _ hc => by simp at hc).stays,
        (modCtx_keeps i hk fun _ hc => by simp at hc).cedes.hand, fun j hj => ?_⟩
      by_cases e : i = j
      · subst e
        rw [modCtx_ctxOf_same] at hj
        exact nomatch hj
      · rw [modCtx_ctxOf_other _ _ _ _ e] at hj
        exact ⟨e2 j ▸ hk.cedes.holding j hj, fun h => e (Option.some.inj (hi.symm.trans h))⟩
    · rename_i hi
      exact ⟨h2, .inl rfl, fun j hj => ⟨e2 j ▸ hj, by simp [hi]⟩⟩
  have h4 : Keeps s₃ s₄ := drawCurtain_keeps (.refl _)
  have h5 : Keeps s₃ s₅ := report_keeps _ (mapPorts_keeps h4)
  have h6 : Keeps s₃ (bad.foldl curtainBad (zeroStores s₅)) :=
    foldl_keeps (zeroStores_keeps h5) fun _ _ hy => curtainBad_keeps _ hy
  refine ⟨h3.1.trans h6.stays, fun h => ?_⟩
  have hn : ∀ j, (s₃.ctxOf j).state ≠ .holding := fun j hj =>
    (h3.2.2 j hj).2 (h.outgoing x hx j (h3.2.2 j hj).1)
  have hn' : ∀ j, ((bad.foldl curtainBad (zeroStores s₅)).ctxOf j).state ≠ .holding :=
    fun j hj => hn j (h6.cedes.holding j hj)
  exact ⟨fun i j hi => absurd hi (hn' i), fun _ _ i hi => absurd hi (hn' i), fun _ _ _ i hi => hn' i hi⟩

theorem execCurtainStart_moves (bad : List Part) (s₁ : State) :
    ∃ s₂, execCurtainStart bad s₁ = .next s₂ ∧ Moves s₁ s₂ := by
  refine ⟨_, rfl, ?_⟩
  split
  · exact .refl _
  · rename_i hx
    split
    · exact startCurtain_moves _ bad hx
    · exact .refl _

theorem finishDebug_keeps {s₀ s₁ : State} (hK : Keeps s₀ s₁) : Keeps s₀ (finishDebug s₁) := by
  unfold finishDebug
  refine emit_keeps _ (report_keeps _ (deriveKeys_keeps (hK.trans
    ⟨⟨rfl, id, rfl, id, id, id, id, List.prefix_refl _, id⟩, ⟨fun _ hi => hi, .inl rfl⟩⟩)))

theorem answerHandOver_keeps {s₀ s₁ : State} (h : HandOver) (hK : Keeps s₀ s₁) :
    Keeps s₀ (answerHandOver h s₁) := by
  unfold answerHandOver
  repeat' (first
    | with_reducible exact hK
    | with_reducible assumption
    | with_reducible apply emit_keeps
    | with_reducible apply respond_keeps
    | with_reducible apply mailbox_keeps
    | with_reducible apply finishDebug_keeps
    | fail_if_no_progress with_reducible refine Keeps.lit ?_ rfl rfl rfl rfl
    | split
    | dsimp only)

theorem settleOutgoing_keeps {s₀ s₁ : State} (x : HandOver) (hK : Keeps s₀ s₁) : Keeps s₀ (settleOutgoing x s₁) := by
  unfold settleOutgoing
  split
  · exact hK
  · split
    · exact closeNow_keeps _ _ _ hK
    · exact modCtx_keeps _ hK fun _ hc => nomatch hc

theorem dropUnused_keeps {s₀ s₁ : State} (h : HandOver) (hK : Keeps s₀ s₁) :
    Keeps s₀ (dropUnused h s₁) := by
  unfold dropUnused
  repeat' (first
    | with_reducible exact hK
    | with_reducible assumption
    | with_reducible apply railsDown_keeps
    | fail_if_no_progress with_reducible refine Keeps.lit ?_ rfl rfl rfl rfl
    | split
    | dsimp only)

theorem settleIncoming_moves {s₁ : State} (x : HandOver) (hn : ∀ j, (s₁.ctxOf j).state ≠ .holding)
    (hx : s₁.sec.handOver = none) : Moves s₁ (settleIncoming x s₁) := by
  unfold settleIncoming
  split
  · exact .refl _
  · rename_i i _
    split
    · have h2 : Moves s₁ (modCtx i (fun c => { c with state := .holding }) s₁) := by
        refine ⟨⟨rfl, id, rfl, id, id, id, id, List.prefix_refl _, id⟩, fun _ => ⟨fun a b ha hb => ?_, fun y hy => ?_,
          fun y hy => ?_⟩⟩
        · have key : ∀ a, ((modCtx i (fun c => { c with state := .holding }) s₁).ctxOf a).state = .holding → i = a := by
            intro a ha
            by_contra e
            rw [modCtx_ctxOf_other _ _ _ _ e] at ha
            exact hn a ha
          exact (key a ha).symm.trans (key b hb)
        · exact nomatch hx.symm.trans hy
        · exact nomatch hx.symm.trans hy
      exact h2.trans (beginInstall_keeps _ (.refl _)).moves
    · exact .refl _

theorem endCurtain_moves {s₁ : State} (x : HandOver) (hx : s₁.sec.handOver = some x) (hs : x.started = true) :
    Moves s₁ (endCurtain x s₁) := by
  have tail : ∀ t, Keeps s₁ t → t.sec.handOver = none →
      Moves s₁ (answerHandOver x (settleIncoming x t)) := by
    intro t k e
    refine ⟨k.stays.trans ?_, fun h => ?_⟩
    · have hst : Stays t (settleIncoming x t) := by
        unfold settleIncoming
        split
        · exact .refl _
        · split
          · rename_i i _ _
            have h2 : Stays t (modCtx i (fun c => { c with state := .holding }) t) :=
              ⟨rfl, id, rfl, id, id, id, id, List.prefix_refl _, id⟩
            exact h2.trans (beginInstall_keeps _ (.refl _)).stays
          · exact .refl _
      exact hst.trans (answerHandOver_keeps x (.refl _)).stays
    · have hn : ∀ j, (t.ctxOf j).state ≠ .holding := fun j hj => h.curtain x hx hs j (k.cedes.holding j hj)
      exact (answerHandOver_keeps x (.refl _)).moves.sound ((settleIncoming_moves x hn e).sound (k.moves.sound h))
  have mid : ∀ t, Keeps s₁ t → t.sec.handOver = none →
      Moves s₁ (answerHandOver x (settleIncoming x (dropUnused x (report { code := 0x090D, slot := slotByte x.outgoing }
        (sendPending (settleOutgoing x (mapPorts (fun _ p => uncurtainPort p) t))))))) := by
    intro t k e
    have k5 := dropUnused_keeps x (report_keeps { code := 0x090D, slot := slotByte x.outgoing }
      (sendPending_keeps (settleOutgoing_keeps x (mapPorts_keeps (f := fun _ p => uncurtainPort p) (.refl t)))))
    refine tail _ (k.trans k5) ?_
    rcases k5.cedes.hand with h | h
    · exact h.trans e
    · exact h
  exact mid _ ⟨⟨rfl, id, rfl, id, id, id, id, List.prefix_refl _, id⟩, ⟨fun _ hi => hi, .inr rfl⟩⟩ rfl

theorem execZeroFillDone_keeps {s₀ s₁ : State} (i : Slot) (hK : Keeps s₀ s₁) :
    ∃ s₂, execZeroFillDone i s₁ = .next s₂ ∧ Keeps s₀ s₂ := by
  refine ⟨_, rfl, ?_⟩
  repeat' (first
    | with_reducible exact hK
    | with_reducible assumption
    | with_reducible apply report_keeps
    | fail_if_no_progress with_reducible refine Keeps.lit ?_ rfl rfl rfl rfl
    | split
    | dsimp only)

theorem makeReport_keeps {s₀ s₁ : State} (who : Option Slot) (nonce ek : Bytes) (hK : Keeps s₀ s₁) :
    Keeps s₀ (makeReport who nonce ek s₁).2 := by
  unfold makeReport
  repeat' (first
    | with_reducible exact hK
    | with_reducible assumption
    | fail_if_no_progress with_reducible refine Keeps.lit ?_ rfl rfl rfl rfl
    | split
    | dsimp only)

theorem reportRequest_keeps {s₀ s₁ : State} (i : Slot) (req : Bytes) (hK : Keeps s₀ s₁) :
    Keeps s₀ (reportRequest i req s₁).2 := by
  unfold reportRequest
  repeat' (first
    | with_reducible exact hK
    | with_reducible assumption
    | with_reducible refine modCtx_keeps _ ?_ (fun _ hc => hc)
    | with_reducible refine modCtx_keeps _ ?_ (fun _ hc => (by revert hc; dsimp only; (repeat' split) <;> first | exact id | exact fun hc => nomatch hc))
    | with_reducible apply makeReport_keeps
    | fail_if_no_progress with_reducible refine Keeps.lit ?_ rfl rfl rfl rfl
    | split
    | dsimp only)

theorem execGetReport_moves (i : Slot) (req : Bytes) (s₁ : State) :
    ∃ s₂, execGetReport i req s₁ = .next s₂ ∧ Moves s₁ s₂ :=
  ⟨_, rfl, mailbox_moves _ _ _ fun _ => (reportRequest_keeps _ _ (.refl _)).moves⟩

theorem certsRequest_keeps {s₀ s₁ : State} (i₀ : Slot) (req : Bytes) (hK : Keeps s₀ s₁) :
    Keeps s₀ (certsRequest i₀ req s₁).2 := by
  unfold certsRequest
  repeat' (first
    | with_reducible exact hK
    | with_reducible assumption
    | fail_if_no_progress with_reducible refine Keeps.lit ?_ rfl rfl rfl rfl
    | split
    | dsimp only)

theorem execGetCerts_moves (i : Slot) (req : Bytes) (s₁ : State) :
    ∃ s₂, execGetCerts i req s₁ = .next s₂ ∧ Moves s₁ s₂ :=
  ⟨_, rfl, mailbox_moves _ _ _ fun _ => (certsRequest_keeps _ _ (.refl _)).moves⟩

theorem planeRequest_keeps {s₀ s₁ : State} (i₀ : Slot) (req : Bytes) (hK : Keeps s₀ s₁) :
    Keeps s₀ (planeRequest i₀ req s₁).2 := by
  unfold planeRequest
  repeat' (first
    | with_reducible exact hK
    | with_reducible assumption
    | fail_if_no_progress with_reducible refine Keeps.lit ?_ rfl rfl rfl rfl
    | split
    | dsimp only)

theorem execGetPlaneRecords_moves (i : Slot) (req : Bytes) (s₁ : State) :
    ∃ s₂, execGetPlaneRecords i req s₁ = .next s₂ ∧ Moves s₁ s₂ :=
  ⟨_, rfl, mailbox_moves _ _ _ fun _ => (planeRequest_keeps _ _ (.refl _)).moves⟩

theorem putKeyAt_keeps {s₀ s₁ : State} (i : Slot) (k : Nat) (w : Option WeightKey) (hK : Keeps s₀ s₁) :
    Keeps s₀ (putKeyAt i k w s₁) := by
  unfold putKeyAt
  repeat' (first
    | with_reducible exact hK
    | with_reducible assumption
    | with_reducible refine modCtx_keeps _ ?_ (fun _ hc => hc)
    | with_reducible refine modCtx_keeps _ ?_ (fun _ hc => (by revert hc; dsimp only; (repeat' split) <;> first | exact id | exact fun hc => nomatch hc))
    | fail_if_no_progress with_reducible refine Keeps.lit ?_ rfl rfl rfl rfl
    | split
    | dsimp only)

theorem installKem_keeps {s₀ s₁ : State} (i : Slot) (b : Bytes) (hK : Keeps s₀ s₁) :
    Keeps s₀ (installKem i b s₁).2 := by
  unfold installKem
  repeat' (first
    | with_reducible exact hK
    | with_reducible assumption
    | with_reducible apply putKeyAt_keeps
    | fail_if_no_progress with_reducible refine Keeps.lit ?_ rfl rfl rfl rfl
    | split
    | dsimp only)

theorem installGroup_keeps {s₀ s₁ : State} (i : Slot) (b : Bytes) (hK : Keeps s₀ s₁) :
    Keeps s₀ (installGroup i b s₁).2 := by
  unfold installGroup
  repeat' (first
    | with_reducible exact hK
    | with_reducible assumption
    | with_reducible apply putKeyAt_keeps
    | fail_if_no_progress with_reducible refine Keeps.lit ?_ rfl rfl rfl rfl
    | split
    | dsimp only)

theorem installRequest_keeps {s₀ s₁ : State} (i : Slot) (b : Bytes) (hK : Keeps s₀ s₁) :
    Keeps s₀ (installRequest i b s₁).2 := by
  unfold installRequest
  repeat' (first
    | with_reducible exact hK
    | with_reducible assumption
    | with_reducible apply installKem_keeps
    | with_reducible apply installGroup_keeps
    | fail_if_no_progress with_reducible refine Keeps.lit ?_ rfl rfl rfl rfl
    | split
    | dsimp only)

theorem execInstallKey_moves (i : Slot) (req : Bytes) (s₁ : State) :
    ∃ s₂, execInstallKey i req s₁ = .next s₂ ∧ Moves s₁ s₂ :=
  ⟨_, rfl, mailbox_moves _ _ _ fun _ => (installRequest_keeps _ _ (.refl _)).moves⟩

theorem endOne_keeps {s₀ s₁ : State} (i : Slot) (cmd : Cmd) (code : Code) (hK : Keeps s₀ s₁) :
    Keeps s₀ (endOne i cmd code s₁) := by
  unfold endOne
  repeat' (first
    | with_reducible exact hK
    | with_reducible assumption
    | with_reducible apply completeCmd_keeps
    | with_reducible apply endPass_keeps
    | with_reducible apply endReduction_keeps
    | with_reducible apply dropLoads_keeps
    | fail_if_no_progress with_reducible refine Keeps.lit ?_ rfl rfl rfl rfl
    | split
    | dsimp only)

theorem removeKeyAt_keeps {s₀ s₁ : State} (i : Slot) (k : Nat) (hK : Keeps s₀ s₁) :
    Keeps s₀ (removeKeyAt i k s₁) := by
  unfold removeKeyAt
  repeat' (first
    | with_reducible exact hK
    | with_reducible assumption
    | with_reducible refine foldl_keeps ?_ (fun _ _ _ => ?_)
    | with_reducible refine foldl_fst_keeps ?_ (fun _ _ _ => ?_)
    | with_reducible refine modCtx_keeps _ ?_ (fun _ hc => hc)
    | with_reducible refine modCtx_keeps _ ?_ (fun _ hc => (by revert hc; dsimp only; (repeat' split) <;> first | exact id | exact fun hc => nomatch hc))
    | with_reducible apply report_keeps
    | with_reducible apply putKeyAt_keeps
    | with_reducible apply endOne_keeps
    | fail_if_no_progress with_reducible refine Keeps.lit ?_ rfl rfl rfl rfl
    | split
    | dsimp only)

theorem removeRequest_keeps {s₀ s₁ : State} (i : Slot) (req : Bytes) (hK : Keeps s₀ s₁) :
    Keeps s₀ (removeRequest i req s₁).2 := by
  unfold removeRequest
  repeat' (first
    | with_reducible exact hK
    | with_reducible assumption
    | with_reducible apply removeKeyAt_keeps
    | fail_if_no_progress with_reducible refine Keeps.lit ?_ rfl rfl rfl rfl
    | split
    | dsimp only)

theorem execRemoveKey_moves (i : Slot) (req : Bytes) (s₁ : State) :
    ∃ s₂, execRemoveKey i req s₁ = .next s₂ ∧ Moves s₁ s₂ :=
  ⟨_, rfl, mailbox_moves _ _ _ fun _ => (removeRequest_keeps _ _ (.refl _)).moves⟩

theorem enrollRequest_keeps {s₀ s₁ : State} (i : Slot) (b : Bytes) (hK : Keeps s₀ s₁) :
    Keeps s₀ (enrollRequest i b s₁).2 := by
  unfold enrollRequest
  repeat' (first
    | with_reducible exact hK
    | with_reducible assumption
    | fail_if_no_progress with_reducible refine Keeps.lit ?_ rfl rfl rfl rfl
    | split
    | dsimp only)

theorem execGroupEnroll_moves (i : Slot) (req : Bytes) (s₁ : State) :
    ∃ s₂, execGroupEnroll i req s₁ = .next s₂ ∧ Moves s₁ s₂ :=
  ⟨_, rfl, mailbox_moves _ _ _ fun _ => (enrollRequest_keeps _ _ (.refl _)).moves⟩

end Sys2Proof.Machine
end

