-- ==== Sys2Proof/Laws/KeepsTransport.lean ====
section
/-! SUPPORT. What the operations and commands of Transport keep (Laws/Keeps.lean). -/

namespace Sys2Proof.Machine

set_option linter.all false
set_option Elab.async false

open Sys2Proof

theorem framePort_keeps {s₀ s₁ : State} (p : PortId) (f : Port → Port) (hK : Keeps s₀ s₁) :
    Keeps s₀ (framePort p f s₁) := by
  unfold framePort
  repeat' (first
    | with_reducible exact hK
    | with_reducible assumption
    | with_reducible refine foldl_keeps ?_ (fun _ _ _ => ?_)
    | with_reducible refine foldl_fst_keeps ?_ (fun _ _ _ => ?_)
    | with_reducible apply modPort_keeps
    | with_reducible apply emit_keeps
    | fail_if_no_progress with_reducible refine Keeps.lit ?_ rfl rfl rfl rfl
    | split
    | dsimp only)

theorem pumpPorts_keeps {s₀ s₁ : State}  (hK : Keeps s₀ s₁) :
    Keeps s₀ (pumpPorts s₁) := by
  unfold pumpPorts
  repeat' (first
    | with_reducible exact hK
    | with_reducible assumption
    | with_reducible refine foldl_keeps ?_ (fun _ _ _ => ?_)
    | with_reducible refine foldl_fst_keeps ?_ (fun _ _ _ => ?_)
    | with_reducible apply framePort_keeps
    | fail_if_no_progress with_reducible refine Keeps.lit ?_ rfl rfl rfl rfl
    | split
    | dsimp only)

theorem sendMsg_keeps {s₀ s₁ : State} (p : PortId) (dst : BitVec 32) (m : PlaneMsg) (hK : Keeps s₀ s₁) :
    Keeps s₀ (sendMsg p dst m s₁) := by
  unfold sendMsg
  repeat' (first
    | with_reducible exact hK
    | with_reducible assumption
    | with_reducible apply emit_keeps
    | with_reducible apply framePort_keeps
    | fail_if_no_progress with_reducible refine Keeps.lit ?_ rfl rfl rfl rfl
    | split
    | dsimp only)

theorem sendAll_keeps {s₀ s₁ : State} (dst : BitVec 32) (m : PlaneMsg) (hK : Keeps s₀ s₁) :
    Keeps s₀ (sendAll dst m s₁) := by
  unfold sendAll
  repeat' (first
    | with_reducible exact hK
    | with_reducible assumption
    | with_reducible refine foldl_keeps ?_ (fun _ _ _ => ?_)
    | with_reducible refine foldl_fst_keeps ?_ (fun _ _ _ => ?_)
    | with_reducible apply sendMsg_keeps)

theorem takeStatus_keeps {s₀ s₁ : State} (p : PortId) (v : Option Nat) (hK : Keeps s₀ s₁) :
    Keeps s₀ (takeStatus p v s₁) := by
  unfold takeStatus
  repeat' (first
    | with_reducible exact hK
    | with_reducible assumption
    | with_reducible apply modPort_keeps
    | fail_if_no_progress with_reducible refine Keeps.lit ?_ rfl rfl rfl rfl
    | split
    | dsimp only)

theorem portDown_keeps {s₀ s₁ : State} (p : PortId) (hK : Keeps s₀ s₁) :
    Keeps s₀ (portDown p s₁) := by
  unfold portDown
  repeat' (first
    | with_reducible exact hK
    | with_reducible assumption
    | with_reducible apply modPort_keeps
    | with_reducible apply reportPort_keeps)

theorem resendFrom_keeps {s₀ s₁ : State} (p : PortId) (first : BitVec 12) (hK : Keeps s₀ s₁) :
    Keeps s₀ (resendFrom p first s₁) := by
  unfold resendFrom
  repeat' (first
    | with_reducible exact hK
    | with_reducible assumption
    | with_reducible apply emit_keeps
    | with_reducible apply reportPort_keeps
    | with_reducible apply framePort_keeps
    | with_reducible apply portDown_keeps
    | fail_if_no_progress with_reducible refine Keeps.lit ?_ rfl rfl rfl rfl
    | split
    | dsimp only)

end Sys2Proof.Machine
end

