-- ==== Sys2Proof/Laws/KeepsPorts.lean ====
section
/-! SUPPORT. What the operations and commands of Ports keep (Laws/Keeps.lean). -/

namespace Sys2Proof.Machine

set_option linter.all false
set_option Elab.async false

open Sys2Proof

theorem trainPort_keeps {s₀ s₁ : State} (p : PortId) (hK : Keeps s₀ s₁) :
    Keeps s₀ (trainPort p s₁) := by
  unfold trainPort
  repeat' (first
    | with_reducible exact hK
    | with_reducible assumption
    | with_reducible apply modPort_keeps
    | fail_if_no_progress with_reducible refine Keeps.lit ?_ rfl rfl rfl rfl
    | split
    | dsimp only)

theorem execPortTrain_keeps {s₀ s₁ : State} (p : PortId) (hK : Keeps s₀ s₁) :
    ∃ s₂, execPortTrain p s₁ = .next s₂ ∧ Keeps s₀ s₂ := by
  refine ⟨_, rfl, ?_⟩
  repeat' (first
    | with_reducible exact hK
    | with_reducible assumption
    | with_reducible apply trainPort_keeps)

theorem setEnable_keeps {s₀ s₁ : State} (p : PortId) (v : Bool) (hK : Keeps s₀ s₁) :
    Keeps s₀ (setEnable p v s₁) := by
  unfold setEnable
  repeat' (first
    | with_reducible exact hK
    | with_reducible assumption
    | with_reducible apply modPort_keeps
    | with_reducible apply portDown_keeps
    | with_reducible apply trainPort_keeps
    | fail_if_no_progress with_reducible refine Keeps.lit ?_ rfl rfl rfl rfl
    | split
    | dsimp only)

theorem execPortDisable_keeps {s₀ s₁ : State} (p : PortId) (hK : Keeps s₀ s₁) :
    ∃ s₂, execPortDisable p s₁ = .next s₂ ∧ Keeps s₀ s₂ := by
  refine ⟨_, rfl, ?_⟩
  repeat' (first
    | with_reducible exact hK
    | with_reducible assumption
    | with_reducible apply setEnable_keeps)

theorem refusePort_keeps {s₀ s₁ : State} (p : PortId) (code : Code) (bit : Option Nat) (hK : Keeps s₀ s₁) :
    Keeps s₀ (refusePort p code bit s₁) := by
  unfold refusePort
  repeat' (first
    | with_reducible exact hK
    | with_reducible assumption
    | with_reducible apply modPort_keeps
    | with_reducible apply reportPort_keeps)

theorem execPmdTrained_keeps {s₀ s₁ : State} (p : PortId) (locked : Bool) (hK : Keeps s₀ s₁) :
    ∃ s₂, execPmdTrained p locked s₁ = .next s₂ ∧ Keeps s₀ s₂ := by
  refine ⟨_, rfl, ?_⟩
  repeat' (first
    | with_reducible exact hK
    | with_reducible assumption
    | with_reducible refine when'_keeps _ ?_ (fun _ _ => ?_)
    | with_reducible apply modPort_keeps
    | with_reducible apply refusePort_keeps
    | fail_if_no_progress with_reducible refine Keeps.lit ?_ rfl rfl rfl rfl
    | split)

theorem sayTraining_keeps {s₀ s₁ : State} (p : PortId) (kind : Nat) (b : Bytes) (hK : Keeps s₀ s₁) :
    Keeps s₀ (sayTraining p kind b s₁) := by
  unfold sayTraining
  repeat' (first
    | with_reducible exact hK
    | with_reducible assumption
    | with_reducible refine foldl_keeps ?_ (fun _ _ _ => ?_)
    | with_reducible refine foldl_fst_keeps ?_ (fun _ _ _ => ?_)
    | with_reducible apply emit_keeps
    | fail_if_no_progress with_reducible refine Keeps.lit ?_ rfl rfl rfl rfl
    | split
    | dsimp only)

theorem sendTraining_keeps {s₀ s₁ : State} (p : PortId) (kind : Nat) (hK : Keeps s₀ s₁) :
    Keeps s₀ (sendTraining p kind s₁) := by
  unfold sendTraining
  repeat' (first
    | with_reducible exact hK
    | with_reducible assumption
    | with_reducible apply modPort_keeps
    | with_reducible apply sayTraining_keeps
    | fail_if_no_progress with_reducible refine Keeps.lit ?_ rfl rfl rfl rfl
    | split
    | dsimp only)

theorem farArrived_keeps {s₀ s₁ : State} (p : PortId) (kind : Nat) (hK : Keeps s₀ s₁) :
    Keeps s₀ (farArrived p kind s₁) := by
  unfold farArrived
  repeat' (first
    | with_reducible exact hK
    | with_reducible assumption
    | with_reducible apply modPort_keeps)

theorem execFramingLock_keeps {s₀ s₁ : State} (p : PortId) (hK : Keeps s₀ s₁) :
    ∃ s₂, execFramingLock p s₁ = .next s₂ ∧ Keeps s₀ s₂ := by
  refine ⟨_, rfl, ?_⟩
  repeat' (first
    | with_reducible exact hK
    | with_reducible assumption
    | with_reducible apply modPort_keeps
    | with_reducible apply sendTraining_keeps
    | fail_if_no_progress with_reducible refine Keeps.lit ?_ rfl rfl rfl rfl
    | split)

theorem execFramingLockLost_keeps {s₀ s₁ : State} (p : PortId) (hK : Keeps s₀ s₁) :
    ∃ s₂, execFramingLockLost p s₁ = .next s₂ ∧ Keeps s₀ s₂ := by
  refine ⟨_, rfl, ?_⟩
  repeat' (first
    | with_reducible exact hK
    | with_reducible assumption
    | with_reducible refine when'_keeps _ ?_ (fun _ _ => ?_)
    | with_reducible apply modPort_keeps
    | with_reducible apply reportPort_keeps)

theorem execTrainingResend_keeps {s₀ s₁ : State} (p : PortId) (hK : Keeps s₀ s₁) :
    ∃ s₂, execTrainingResend p s₁ = .next s₂ ∧ Keeps s₀ s₂ := by
  refine ⟨_, rfl, ?_⟩
  repeat' (first
    | with_reducible exact hK
    | with_reducible assumption
    | with_reducible refine foldl_keeps ?_ (fun _ _ _ => ?_)
    | with_reducible refine foldl_fst_keeps ?_ (fun _ _ _ => ?_)
    | with_reducible apply sayTraining_keeps
    | fail_if_no_progress with_reducible refine Keeps.lit ?_ rfl rfl rfl rfl
    | split
    | dsimp only)

theorem afterIdentity_keeps {s₀ s₁ : State} (p : PortId) (hK : Keeps s₀ s₁) :
    Keeps s₀ (afterIdentity p s₁) := by
  unfold afterIdentity
  repeat' (first
    | with_reducible exact hK
    | with_reducible assumption
    | with_reducible apply modPort_keeps
    | with_reducible apply sendTraining_keeps
    | fail_if_no_progress with_reducible refine Keeps.lit ?_ rfl rfl rfl rfl
    | split)

theorem compareIdentity_keeps {s₀ s₁ : State} (p : PortId) (hK : Keeps s₀ s₁) :
    Keeps s₀ (compareIdentity p s₁) := by
  unfold compareIdentity
  repeat' (first
    | with_reducible exact hK
    | with_reducible assumption
    | with_reducible apply reportPort_keeps
    | with_reducible apply refusePort_keeps
    | with_reducible apply afterIdentity_keeps
    | fail_if_no_progress with_reducible refine Keeps.lit ?_ rfl rfl rfl rfl
    | split
    | dsimp only)

theorem takeId_keeps {s₀ s₁ : State} (p : PortId) (b : Bytes) (hK : Keeps s₀ s₁) :
    Keeps s₀ (takeId p b s₁) := by
  unfold takeId
  repeat' (first
    | with_reducible exact hK
    | with_reducible assumption
    | with_reducible apply modPort_keeps
    | with_reducible apply refusePort_keeps
    | with_reducible apply farArrived_keeps
    | with_reducible apply compareIdentity_keeps
    | fail_if_no_progress with_reducible refine Keeps.lit ?_ rfl rfl rfl rfl
    | split)

theorem execIdBlock_keeps {s₀ s₁ : State} (p : PortId) (b : Bytes) (hK : Keeps s₀ s₁) :
    ∃ s₂, execIdBlock p b s₁ = .next s₂ ∧ Keeps s₀ s₂ := by
  refine ⟨_, rfl, ?_⟩
  repeat' (first
    | with_reducible exact hK
    | with_reducible assumption
    | with_reducible refine when'_keeps _ ?_ (fun _ _ => ?_)
    | with_reducible apply takeId_keeps)

theorem execTestReq_keeps {s₀ s₁ : State} (p : PortId) (body : Bytes) (hK : Keeps s₀ s₁) :
    ∃ s₂, execTestReq p body s₁ = .next s₂ ∧ Keeps s₀ s₂ := by
  refine ⟨_, rfl, ?_⟩
  repeat' (first
    | with_reducible exact hK
    | with_reducible assumption
    | with_reducible refine when'_keeps _ ?_ (fun _ _ => ?_)
    | with_reducible apply modPort_keeps
    | with_reducible apply farArrived_keeps)

theorem concludeBer_keeps {s₀ s₁ : State} (p : PortId) (far : Byte) (hK : Keeps s₀ s₁) :
    Keeps s₀ (concludeBer p far s₁) := by
  unfold concludeBer
  repeat' (first
    | with_reducible exact hK
    | with_reducible assumption
    | with_reducible apply modPort_keeps
    | with_reducible apply reportPort_keeps
    | with_reducible apply refusePort_keeps
    | fail_if_no_progress with_reducible refine Keeps.lit ?_ rfl rfl rfl rfl
    | split
    | dsimp only)

theorem execBerTestEnd_keeps {s₀ s₁ : State} (p : PortId) (errors : List Word) (locked : Byte) (hK : Keeps s₀ s₁) :
    ∃ s₂, execBerTestEnd p errors locked s₁ = .next s₂ ∧ Keeps s₀ s₂ := by
  refine ⟨_, rfl, ?_⟩
  repeat' (first
    | with_reducible exact hK
    | with_reducible assumption
    | with_reducible refine when'_keeps _ ?_ (fun _ _ => ?_)
    | with_reducible apply modPort_keeps
    | with_reducible apply sendTraining_keeps
    | with_reducible apply concludeBer_keeps
    | fail_if_no_progress with_reducible refine Keeps.lit ?_ rfl rfl rfl rfl
    | split
    | dsimp only)

theorem execTestResult_keeps {s₀ s₁ : State} (p : PortId) (errors : List Word) (locked : Byte) (hK : Keeps s₀ s₁) :
    ∃ s₂, execTestResult p errors locked s₁ = .next s₂ ∧ Keeps s₀ s₂ := by
  refine ⟨_, rfl, ?_⟩
  repeat' (first
    | with_reducible exact hK
    | with_reducible assumption
    | with_reducible refine when'_keeps _ ?_ (fun _ _ => ?_)
    | with_reducible apply modPort_keeps
    | with_reducible apply farArrived_keeps
    | with_reducible apply concludeBer_keeps
    | fail_if_no_progress with_reducible refine Keeps.lit ?_ rfl rfl rfl rfl
    | split
    | dsimp only)

theorem execKeyHello_keeps {s₀ s₁ : State} (p : PortId) (hK : Keeps s₀ s₁) :
    ∃ s₂, execKeyHello p s₁ = .next s₂ ∧ Keeps s₀ s₂ := by
  refine ⟨_, rfl, ?_⟩
  repeat' (first
    | with_reducible exact hK
    | with_reducible assumption
    | with_reducible refine when'_keeps _ ?_ (fun _ _ => ?_)
    | with_reducible apply modPort_keeps
    | with_reducible apply drawNext_keeps
    | with_reducible apply sayTraining_keeps
    | fail_if_no_progress with_reducible refine Keeps.lit ?_ rfl rfl rfl rfl
    | split
    | dsimp only)

theorem confirmKey_keeps {s₀ s₁ : State} (p : PortId) (k : Keying) (root m : Bytes) (hK : Keeps s₀ s₁) :
    Keeps s₀ (confirmKey p k root m s₁) := by
  unfold confirmKey
  repeat' (first
    | with_reducible exact hK
    | with_reducible assumption
    | with_reducible apply modPort_keeps
    | with_reducible apply drawNext_keeps
    | with_reducible apply makeReport_keeps
    | with_reducible apply sayTraining_keeps
    | fail_if_no_progress with_reducible refine Keeps.lit ?_ rfl rfl rfl rfl
    | split
    | dsimp only)

theorem failExchange_keeps {s₀ s₁ : State} (p : PortId) (hK : Keeps s₀ s₁) :
    Keeps s₀ (failExchange p s₁) := by
  unfold failExchange
  repeat' (first
    | with_reducible exact hK
    | with_reducible assumption
    | with_reducible apply reportPort_keeps
    | with_reducible apply portDown_keeps)

theorem execKeyReply_keeps {s₀ s₁ : State} (p : PortId) (m : Bytes) (hK : Keeps s₀ s₁) :
    ∃ s₂, execKeyReply p m s₁ = .next s₂ ∧ Keeps s₀ s₂ := by
  refine ⟨_, rfl, ?_⟩
  repeat' (first
    | with_reducible exact hK
    | with_reducible assumption
    | with_reducible apply refusePort_keeps
    | with_reducible apply confirmKey_keeps
    | with_reducible apply failExchange_keeps
    | fail_if_no_progress with_reducible refine Keeps.lit ?_ rfl rfl rfl rfl
    | split
    | dsimp only)

theorem finishKey_keeps {s₀ s₁ : State} (p : PortId) (k : Keying) (m : Bytes) (hK : Keeps s₀ s₁) :
    Keeps s₀ (finishKey p k m s₁) := by
  unfold finishKey
  repeat' (first
    | with_reducible exact hK
    | with_reducible assumption
    | with_reducible apply modPort_keeps
    | with_reducible apply sendTraining_keeps
    | with_reducible apply failExchange_keeps
    | fail_if_no_progress with_reducible refine Keeps.lit ?_ rfl rfl rfl rfl
    | split
    | dsimp only)

theorem execKeyFinish_keeps {s₀ s₁ : State} (p : PortId) (m : Bytes) (hK : Keeps s₀ s₁) :
    ∃ s₂, execKeyFinish p m s₁ = .next s₂ ∧ Keeps s₀ s₂ := by
  refine ⟨_, rfl, ?_⟩
  repeat' (first
    | with_reducible exact hK
    | with_reducible assumption
    | with_reducible apply finishKey_keeps
    | fail_if_no_progress with_reducible refine Keeps.lit ?_ rfl rfl rfl rfl
    | split)

theorem execCreditInit_keeps {s₀ s₁ : State} (p : PortId) (v0 v1 v2 v3 : BitVec 16) (hK : Keeps s₀ s₁) :
    ∃ s₂, execCreditInit p v0 v1 v2 v3 s₁ = .next s₂ ∧ Keeps s₀ s₂ := by
  refine ⟨_, rfl, ?_⟩
  repeat' (first
    | with_reducible exact hK
    | with_reducible assumption
    | with_reducible refine when'_keeps _ ?_ (fun _ _ => ?_)
    | with_reducible apply modPort_keeps
    | with_reducible apply refusePort_keeps
    | with_reducible apply sendTraining_keeps
    | with_reducible apply farArrived_keeps
    | fail_if_no_progress with_reducible refine Keeps.lit ?_ rfl rfl rfl rfl
    | split)

theorem execReady_keeps {s₀ s₁ : State} (p : PortId) (hK : Keeps s₀ s₁) :
    ∃ s₂, execReady p s₁ = .next s₂ ∧ Keeps s₀ s₂ := by
  refine ⟨_, rfl, ?_⟩
  repeat' (first
    | with_reducible exact hK
    | with_reducible assumption
    | with_reducible refine when'_keeps _ ?_ (fun _ _ => ?_)
    | with_reducible apply modPort_keeps
    | with_reducible apply reportPort_keeps)

theorem execTrainingFlitDiscard_keeps {s₀ s₁ : State} (p : PortId) (kind : Byte) (hK : Keeps s₀ s₁) :
    ∃ s₂, execTrainingFlitDiscard p kind s₁ = .next s₂ ∧ Keeps s₀ s₂ := by
  refine ⟨_, rfl, ?_⟩
  repeat' (first
    | with_reducible exact hK
    | with_reducible assumption
    | with_reducible apply reportPort_keeps
    | fail_if_no_progress with_reducible refine Keeps.lit ?_ rfl rfl rfl rfl
    | split)

theorem actNak_keeps {s₀ s₁ : State} (p : PortId) (ack : BitVec 12) (hK : Keeps s₀ s₁) :
    Keeps s₀ (actNak p ack s₁) := by
  unfold actNak
  repeat' (first
    | with_reducible exact hK
    | with_reducible assumption
    | with_reducible apply modPort_keeps
    | with_reducible apply resendFrom_keeps
    | fail_if_no_progress with_reducible refine Keeps.lit ?_ rfl rfl rfl rfl
    | split
    | dsimp only)

theorem takeHeader_keeps {s₀ s₁ : State} (p : PortId) (h : Nat) (hK : Keeps s₀ s₁) :
    Keeps s₀ (takeHeader p h s₁) := by
  unfold takeHeader
  repeat' (first
    | with_reducible exact hK
    | with_reducible assumption
    | with_reducible apply modPort_keeps
    | with_reducible apply framePort_keeps
    | with_reducible apply actNak_keeps
    | fail_if_no_progress with_reducible refine Keeps.lit ?_ rfl rfl rfl rfl
    | split
    | dsimp only)

theorem takeFlit_keeps {s₀ s₁ : State} (p : PortId) (f : Flit) (hK : Keeps s₀ s₁) :
    Keeps s₀ (takeFlit p f s₁) := by
  unfold takeFlit
  repeat' (first
    | with_reducible exact hK
    | with_reducible assumption
    | with_reducible apply modPort_keeps
    | with_reducible apply reportPort_keeps
    | with_reducible apply takeStatus_keeps
    | with_reducible apply takeHeader_keeps
    | fail_if_no_progress with_reducible refine Keeps.lit ?_ rfl rfl rfl rfl
    | split
    | dsimp only)

theorem execDataFlitReceive_keeps {s₀ s₁ : State} (p : PortId) (f : Flit) (hK : Keeps s₀ s₁) :
    ∃ s₂, execDataFlitReceive p f s₁ = .next s₂ ∧ Keeps s₀ s₂ := by
  refine ⟨_, rfl, ?_⟩
  repeat' (first
    | with_reducible exact hK
    | with_reducible assumption
    | with_reducible refine when'_keeps _ ?_ (fun _ _ => ?_)
    | with_reducible apply takeFlit_keeps)

theorem execNakReceive_keeps {s₀ s₁ : State} (p : PortId) (ack : BitVec 12) (hK : Keeps s₀ s₁) :
    ∃ s₂, execNakReceive p ack s₁ = .next s₂ ∧ Keeps s₀ s₂ := by
  refine ⟨_, rfl, ?_⟩
  repeat' (first
    | with_reducible exact hK
    | with_reducible assumption
    | with_reducible refine when'_keeps _ ?_ (fun _ _ => ?_)
    | with_reducible apply framePort_keeps
    | with_reducible apply actNak_keeps
    | fail_if_no_progress with_reducible refine Keeps.lit ?_ rfl rfl rfl rfl
    | split
    | dsimp only)

theorem execAckTimeout_keeps {s₀ s₁ : State} (p : PortId) (hK : Keeps s₀ s₁) :
    ∃ s₂, execAckTimeout p s₁ = .next s₂ ∧ Keeps s₀ s₂ := by
  refine ⟨_, rfl, ?_⟩
  repeat' (first
    | with_reducible exact hK
    | with_reducible assumption
    | with_reducible refine when'_keeps _ ?_ (fun _ _ => ?_)
    | with_reducible apply modPort_keeps
    | with_reducible apply resendFrom_keeps
    | fail_if_no_progress with_reducible refine Keeps.lit ?_ rfl rfl rfl rfl
    | split)

theorem execCodewordLockLoss_keeps {s₀ s₁ : State} (p : PortId) (hK : Keeps s₀ s₁) :
    ∃ s₂, execCodewordLockLoss p s₁ = .next s₂ ∧ Keeps s₀ s₂ := by
  refine ⟨_, rfl, ?_⟩
  repeat' (first
    | with_reducible exact hK
    | with_reducible assumption
    | with_reducible refine when'_keeps _ ?_ (fun _ _ => ?_)
    | with_reducible apply portDown_keeps)

theorem execFarEndDown_keeps {s₀ s₁ : State} (p : PortId) (hK : Keeps s₀ s₁) :
    ∃ s₂, execFarEndDown p s₁ = .next s₂ ∧ Keeps s₀ s₂ := by
  refine ⟨_, rfl, ?_⟩
  repeat' (first
    | with_reducible exact hK
    | with_reducible assumption
    | with_reducible refine when'_keeps _ ?_ (fun _ _ => ?_)
    | with_reducible apply modPort_keeps
    | with_reducible apply portDown_keeps)

theorem startRekey_keeps {s₀ s₁ : State} (p : PortId) (hK : Keeps s₀ s₁) :
    Keeps s₀ (startRekey p s₁) := by
  unfold startRekey
  repeat' (first
    | with_reducible exact hK
    | with_reducible assumption
    | with_reducible apply modPort_keeps
    | with_reducible apply drawNext_keeps
    | with_reducible apply sendMsg_keeps
    | fail_if_no_progress with_reducible refine Keeps.lit ?_ rfl rfl rfl rfl
    | split)

theorem execHopKeyLimit_keeps {s₀ s₁ : State} (p : PortId) (hK : Keeps s₀ s₁) :
    ∃ s₂, execHopKeyLimit p s₁ = .next s₂ ∧ Keeps s₀ s₂ := by
  refine ⟨_, rfl, ?_⟩
  repeat' (first
    | with_reducible exact hK
    | with_reducible assumption
    | with_reducible refine when'_keeps _ ?_ (fun _ _ => ?_)
    | with_reducible apply startRekey_keeps)

theorem finishRekey_keeps {s₀ s₁ : State} (p : PortId) (ct : Bytes) (hK : Keeps s₀ s₁) :
    Keeps s₀ (finishRekey p ct s₁) := by
  unfold finishRekey
  repeat' (first
    | with_reducible exact hK
    | with_reducible assumption
    | with_reducible apply modPort_keeps
    | with_reducible apply reportPort_keeps
    | with_reducible apply failExchange_keeps
    | fail_if_no_progress with_reducible refine Keeps.lit ?_ rfl rfl rfl rfl
    | split
    | dsimp only)

theorem execHopRekey_keeps {s₀ s₁ : State} (p : PortId) (ct : Bytes) (hK : Keeps s₀ s₁) :
    ∃ s₂, execHopRekey p ct s₁ = .next s₂ ∧ Keeps s₀ s₂ := by
  refine ⟨_, rfl, ?_⟩
  repeat' (first
    | with_reducible exact hK
    | with_reducible assumption
    | with_reducible refine when'_keeps _ ?_ (fun _ _ => ?_)
    | with_reducible apply startRekey_keeps
    | with_reducible apply finishRekey_keeps)

theorem execPreFecMonitor_keeps {s₀ s₁ : State} (p : PortId) (lanes : List Nat) (hK : Keeps s₀ s₁) :
    ∃ s₂, execPreFecMonitor p lanes s₁ = .next s₂ ∧ Keeps s₀ s₂ := by
  refine ⟨_, rfl, ?_⟩
  repeat' (first
    | with_reducible exact hK
    | with_reducible assumption
    | with_reducible refine when'_keeps _ ?_ (fun _ _ => ?_)
    | with_reducible apply modPort_keeps
    | with_reducible apply drawNext_keeps
    | with_reducible apply reportPort_keeps
    | fail_if_no_progress with_reducible refine Keeps.lit ?_ rfl rfl rfl rfl
    | split
    | dsimp only)

theorem startPattern_keeps {s₀ s₁ : State}  (hK : Keeps s₀ s₁) :
    Keeps s₀ (startPattern s₁) := by
  unfold startPattern
  repeat' (first
    | with_reducible exact hK
    | with_reducible assumption
    | with_reducible apply report_keeps
    | fail_if_no_progress with_reducible refine Keeps.lit ?_ rfl rfl rfl rfl
    | split
    | dsimp only)

theorem execPatternGo_keeps {s₀ s₁ : State}  (hK : Keeps s₀ s₁) :
    ∃ s₂, execPatternGo s₁ = .next s₂ ∧ Keeps s₀ s₂ := by
  refine ⟨_, rfl, ?_⟩
  repeat' (first
    | with_reducible exact hK
    | with_reducible assumption
    | with_reducible refine when'_keeps _ ?_ (fun _ _ => ?_)
    | with_reducible apply startPattern_keeps)

theorem endPattern_keeps {s₀ s₁ : State}  (hK : Keeps s₀ s₁) :
    Keeps s₀ (endPattern s₁) := by
  unfold endPattern
  repeat' (first
    | with_reducible exact hK
    | with_reducible assumption
    | with_reducible refine foldl_keeps ?_ (fun _ _ _ => ?_)
    | with_reducible refine foldl_fst_keeps ?_ (fun _ _ _ => ?_)
    | with_reducible apply drawNext_keeps
    | with_reducible apply report_keeps
    | fail_if_no_progress with_reducible refine Keeps.lit ?_ rfl rfl rfl rfl
    | split)

theorem execPatternStop_keeps {s₀ s₁ : State}  (hK : Keeps s₀ s₁) :
    ∃ s₂, execPatternStop s₁ = .next s₂ ∧ Keeps s₀ s₂ := by
  refine ⟨_, rfl, ?_⟩
  repeat' (first
    | with_reducible exact hK
    | with_reducible assumption
    | with_reducible refine when'_keeps _ ?_ (fun _ _ => ?_)
    | with_reducible apply endPattern_keeps)

end Sys2Proof.Machine
end

