-- ==== Sys2Proof/Laws/KeepsMgmt.lean ====
section
/-! SUPPORT. What the operations and commands of Mgmt keep (Laws/Keeps.lean). -/

namespace Sys2Proof.Machine

set_option linter.all false
set_option Elab.async false

open Sys2Proof

theorem acceptCounter_keeps {s₀ s₁ : State} (r : MgmtReq) (hK : Keeps s₀ s₁) :
    Keeps s₀ (acceptCounter r s₁) := by
  unfold acceptCounter
  repeat' (first
    | with_reducible exact hK
    | with_reducible assumption
    | fail_if_no_progress with_reducible refine Keeps.lit ?_ rfl rfl rfl rfl)

theorem answer_keeps {s₀ s₁ : State} (op : Nat) (code : Code) (body : Bytes) (hK : Keeps s₀ s₁) :
    Keeps s₀ (answer op code body s₁) := by
  unfold answer
  repeat' (first
    | with_reducible exact hK
    | with_reducible assumption
    | with_reducible apply emit_keeps)

theorem refuseMgmt_keeps {s₀ s₁ : State} (op : Nat) (code : Code) (hK : Keeps s₀ s₁) :
    Keeps s₀ (refuseMgmt op code s₁) := by
  unfold refuseMgmt
  repeat' (first
    | with_reducible exact hK
    | with_reducible assumption
    | with_reducible apply report_keeps
    | with_reducible apply answer_keeps)

theorem holdMgmt_keeps {s₀ s₁ : State} (op : Nat) (r : MgmtReq) (hK : Keeps s₀ s₁) :
    Keeps s₀ (holdMgmt op r s₁) := by
  unfold holdMgmt
  repeat' (first
    | with_reducible exact hK
    | with_reducible assumption
    | fail_if_no_progress with_reducible refine Keeps.lit ?_ rfl rfl rfl rfl
    | split
    | dsimp only)

theorem mgmt_keeps {s₀ s₁ : State} (op : Nat) (role : Role) (layout : Bool → Bytes → Bool)
    {f : MgmtReq → State → State} (r : MgmtReq) (hK : Keeps s₀ s₁)
    (hf : ∀ y, Keeps s₀ y → Keeps s₀ (f r y)) : Keeps s₀ (mgmt op role layout f r s₁) := by
  unfold mgmt
  repeat' (first
    | with_reducible exact hK
    | with_reducible apply refuseMgmt_keeps
    | with_reducible exact holdMgmt_keeps _ _ hK
    | with_reducible apply hf
    | with_reducible apply acceptCounter_keeps
    | split
    | dsimp only)

theorem mgmt_moves {s₁ : State} (op : Nat) (role : Role) (layout : Bool → Bytes → Bool)
    {f : MgmtReq → State → State} (r : MgmtReq)
    (hf : ∀ y, Moves y (f r y)) : Moves s₁ (mgmt op role layout f r s₁) := by
  unfold mgmt
  repeat' (first
    | with_reducible exact Moves.refl _
    | with_reducible exact (refuseMgmt_keeps _ _ (.refl _)).moves
    | with_reducible exact (holdMgmt_keeps _ _ (.refl _)).moves
    | with_reducible exact (acceptCounter_keeps _ (.refl _)).moves.trans (hf _)
    | with_reducible exact ((acceptCounter_keeps _ (.refl _)).trans (refuseMgmt_keeps _ _ (.refl _))).moves
    | exact (refuseMgmt_keeps _ _ (acceptCounter_keeps _ (.refl _))).moves
    | split
    | dsimp only)

theorem execGetTelemetry_keeps {s₀ s₁ : State} (r : MgmtReq) (hK : Keeps s₀ s₁) :
    ∃ s₂, execGetTelemetry r s₁ = .next s₂ ∧ Keeps s₀ s₂ := by
  refine ⟨_, rfl, ?_⟩
  repeat' (first
    | with_reducible exact hK
    | with_reducible assumption
    | with_reducible apply answer_keeps
    | with_reducible refine mgmt_keeps _ _ _ _ ?_ (fun _ _ => ?_))

theorem execGetEvents_keeps {s₀ s₁ : State} (r : MgmtReq) (hK : Keeps s₀ s₁) :
    ∃ s₂, execGetEvents r s₁ = .next s₂ ∧ Keeps s₀ s₂ := by
  refine ⟨_, rfl, ?_⟩
  repeat' (first
    | with_reducible exact hK
    | with_reducible assumption
    | with_reducible apply answer_keeps
    | with_reducible refine mgmt_keeps _ _ _ _ ?_ (fun _ _ => ?_))

theorem setCap_keeps {s₀ s₁ : State} (cap : Nat) (lease : Bool) (hK : Keeps s₀ s₁) :
    Keeps s₀ (setCap cap lease s₁) := by
  unfold setCap
  repeat' (first
    | with_reducible exact hK
    | with_reducible assumption
    | with_reducible apply reportPower_keeps
    | fail_if_no_progress with_reducible refine Keeps.lit ?_ rfl rfl rfl rfl
    | split
    | dsimp only)

theorem execSetPowerCap_keeps {s₀ s₁ : State} (r : MgmtReq) (hK : Keeps s₀ s₁) :
    ∃ s₂, execSetPowerCap r s₁ = .next s₂ ∧ Keeps s₀ s₂ := by
  refine ⟨_, rfl, ?_⟩
  repeat' (first
    | with_reducible exact hK
    | with_reducible assumption
    | with_reducible apply answer_keeps
    | with_reducible apply refuseMgmt_keeps
    | with_reducible refine mgmt_keeps _ _ _ _ ?_ (fun _ _ => ?_)
    | with_reducible apply setCap_keeps
    | fail_if_no_progress with_reducible refine Keeps.lit ?_ rfl rfl rfl rfl
    | split
    | dsimp only)

theorem execSetSlew_keeps {s₀ s₁ : State} (r : MgmtReq) (hK : Keeps s₀ s₁) :
    ∃ s₂, execSetSlew r s₁ = .next s₂ ∧ Keeps s₀ s₂ := by
  refine ⟨_, rfl, ?_⟩
  repeat' (first
    | with_reducible exact hK
    | with_reducible assumption
    | with_reducible apply answer_keeps
    | with_reducible apply refuseMgmt_keeps
    | with_reducible refine mgmt_keeps _ _ _ _ ?_ (fun _ _ => ?_)
    | fail_if_no_progress with_reducible refine Keeps.lit ?_ rfl rfl rfl rfl
    | split
    | dsimp only)

theorem setOrphan_keeps {s₀ s₁ : State} (v : Nat) (hK : Keeps s₀ s₁) :
    Keeps s₀ (setOrphan v s₁) := by
  unfold setOrphan
  repeat' (first
    | with_reducible exact hK
    | with_reducible assumption
    | fail_if_no_progress with_reducible refine Keeps.lit ?_ rfl rfl rfl rfl)

theorem execSetOrphanCap_keeps {s₀ s₁ : State} (r : MgmtReq) (hK : Keeps s₀ s₁) :
    ∃ s₂, execSetOrphanCap r s₁ = .next s₂ ∧ Keeps s₀ s₂ := by
  refine ⟨_, rfl, ?_⟩
  repeat' (first
    | with_reducible exact hK
    | with_reducible assumption
    | with_reducible apply answer_keeps
    | with_reducible apply refuseMgmt_keeps
    | with_reducible refine mgmt_keeps _ _ _ _ ?_ (fun _ _ => ?_)
    | with_reducible apply setOrphan_keeps
    | fail_if_no_progress with_reducible refine Keeps.lit ?_ rfl rfl rfl rfl
    | split
    | dsimp only)

theorem execStoreNv_keeps {s₀ s₁ : State} (r : MgmtReq) (hK : Keeps s₀ s₁) :
    ∃ s₂, execStoreNv r s₁ = .next s₂ ∧ Keeps s₀ s₂ := by
  refine ⟨_, rfl, ?_⟩
  repeat' (first
    | with_reducible exact hK
    | with_reducible assumption
    | with_reducible apply requestStore_keeps
    | with_reducible refine mgmt_keeps _ _ _ _ ?_ (fun _ _ => ?_))

theorem execStartScrub_keeps {s₀ s₁ : State} (r : MgmtReq) (hK : Keeps s₀ s₁) :
    ∃ s₂, execStartScrub r s₁ = .next s₂ ∧ Keeps s₀ s₂ := by
  refine ⟨_, rfl, ?_⟩
  repeat' (first
    | with_reducible exact hK
    | with_reducible assumption
    | with_reducible apply answer_keeps
    | with_reducible refine mgmt_keeps _ _ _ _ ?_ (fun _ _ => ?_))

theorem resetByMgmt_keeps {s₀ s₁ : State}  (hK : Keeps s₀ s₁) :
    Keeps s₀ (resetByMgmt s₁) := by
  unfold resetByMgmt
  repeat' (first
    | with_reducible exact hK
    | with_reducible assumption
    | with_reducible apply resetState_keeps
    | with_reducible apply dropForReset_keeps
    | with_reducible apply runRom_keeps)

theorem execResetEngine_keeps {s₀ s₁ : State} (r : MgmtReq) (hK : Keeps s₀ s₁) :
    ∃ s₂, execResetEngine r s₁ = .next s₂ ∧ Keeps s₀ s₂ := by
  refine ⟨_, rfl, ?_⟩
  repeat' (first
    | with_reducible exact hK
    | with_reducible assumption
    | with_reducible apply answer_keeps
    | with_reducible refine mgmt_keeps _ _ _ _ ?_ (fun _ _ => ?_)
    | with_reducible apply resetByMgmt_keeps)

theorem mgmtContext_moves {s₁ : State} (op : Nat) {f : Slot → State → Answer × State} (r : MgmtReq)
    (hf : ∀ i, Moves s₁ (f i s₁).2) : Moves s₁ (mgmtContext op f r s₁) := by
  unfold mgmtContext
  dsimp only
  have h := hf (Fin.ofNat 8 (byteAt r.body 0).toNat)
  generalize f (Fin.ofNat 8 (byteAt r.body 0).toNat) s₁ = a at h
  obtain ⟨a, t⟩ := a
  cases a
  · exact h.trans (refuseMgmt_keeps _ _ (.refl _)).moves
  · exact h.trans (answer_keeps _ _ _ (.refl _)).moves
  · exact h

theorem whenHandsFree_moves {s₁ : State} (op : Nat) {f : MgmtReq → State → State} (r : MgmtReq)
    (hf : Moves s₁ (f r s₁)) : Moves s₁ (whenHandsFree op f r s₁) := by
  unfold whenHandsFree
  split
  · exact hf
  · split
    · exact (holdMgmt_keeps _ _ (.refl _)).moves
    · exact .refl _

theorem execMgmtCloseContext_moves (r : MgmtReq) (s₁ : State) :
    ∃ s₂, execMgmtCloseContext r s₁ = .next s₂ ∧ Moves s₁ s₂ :=
  ⟨_, rfl, whenHandsFree_moves _ _ (mgmt_moves _ _ _ r fun _ => mgmtContext_moves _ _ fun _ => closeRequest_moves _ _ _)⟩

theorem execMgmtSwitchContext_moves (r : MgmtReq) (s₁ : State) :
    ∃ s₂, execMgmtSwitchContext r s₁ = .next s₂ ∧ Moves s₁ s₂ :=
  ⟨_, rfl, whenHandsFree_moves _ _ (mgmt_moves _ _ _ r fun _ => mgmtContext_moves _ _ fun _ => switchRequest_moves _ _ _)⟩

theorem setPlan_keeps {s₀ s₁ : State} (p : PortId) (b : Bytes) (hK : Keeps s₀ s₁) :
    Keeps s₀ (setPlan p b s₁) := by
  unfold setPlan
  repeat' (first
    | with_reducible exact hK
    | with_reducible assumption
    | with_reducible apply modPort_keeps
    | with_reducible apply setEnable_keeps)

theorem execSetCabling_keeps {s₀ s₁ : State} (r : MgmtReq) (hK : Keeps s₀ s₁) :
    ∃ s₂, execSetCabling r s₁ = .next s₂ ∧ Keeps s₀ s₂ := by
  refine ⟨_, rfl, ?_⟩
  repeat' (first
    | with_reducible exact hK
    | with_reducible assumption
    | with_reducible apply answer_keeps
    | with_reducible refine mgmt_keeps _ _ _ _ ?_ (fun _ _ => ?_)
    | with_reducible apply setPlan_keeps
    | fail_if_no_progress with_reducible refine Keeps.lit ?_ rfl rfl rfl rfl
    | split)

theorem execSetSwitchRoot_keeps {s₀ s₁ : State} (r : MgmtReq) (hK : Keeps s₀ s₁) :
    ∃ s₂, execSetSwitchRoot r s₁ = .next s₂ ∧ Keeps s₀ s₂ := by
  refine ⟨_, rfl, ?_⟩
  repeat' (first
    | with_reducible exact hK
    | with_reducible assumption
    | with_reducible apply answer_keeps
    | with_reducible refine mgmt_keeps _ _ _ _ ?_ (fun _ _ => ?_)
    | fail_if_no_progress with_reducible refine Keeps.lit ?_ rfl rfl rfl rfl)

theorem execFirmwareBegin_keeps {s₀ s₁ : State} (r : MgmtReq) (hK : Keeps s₀ s₁) :
    ∃ s₂, execFirmwareBegin r s₁ = .next s₂ ∧ Keeps s₀ s₂ := by
  refine ⟨_, rfl, ?_⟩
  repeat' (first
    | with_reducible exact hK
    | with_reducible assumption
    | with_reducible apply answer_keeps
    | with_reducible refine mgmt_keeps _ _ _ _ ?_ (fun _ _ => ?_)
    | fail_if_no_progress with_reducible refine Keeps.lit ?_ rfl rfl rfl rfl)

theorem execFirmwareChunk_keeps {s₀ s₁ : State} (r : MgmtReq) (hK : Keeps s₀ s₁) :
    ∃ s₂, execFirmwareChunk r s₁ = .next s₂ ∧ Keeps s₀ s₂ := by
  refine ⟨_, rfl, ?_⟩
  repeat' (first
    | with_reducible exact hK
    | with_reducible assumption
    | with_reducible apply answer_keeps
    | with_reducible apply refuseMgmt_keeps
    | with_reducible refine mgmt_keeps _ _ _ _ ?_ (fun _ _ => ?_)
    | fail_if_no_progress with_reducible refine Keeps.lit ?_ rfl rfl rfl rfl
    | split)

theorem commitImage_keeps {s₀ s₁ : State}  (hK : Keeps s₀ s₁) :
    Keeps s₀ (commitImage s₁) := by
  unfold commitImage
  repeat' (first
    | with_reducible exact hK
    | with_reducible assumption
    | with_reducible apply reportNv_keeps
    | with_reducible apply answer_keeps
    | with_reducible apply refuseMgmt_keeps
    | fail_if_no_progress with_reducible refine Keeps.lit ?_ rfl rfl rfl rfl
    | split
    | dsimp only)

theorem execFirmwareCommit_keeps {s₀ s₁ : State} (r : MgmtReq) (hK : Keeps s₀ s₁) :
    ∃ s₂, execFirmwareCommit r s₁ = .next s₂ ∧ Keeps s₀ s₂ := by
  refine ⟨_, rfl, ?_⟩
  repeat' (first
    | with_reducible exact hK
    | with_reducible assumption
    | with_reducible refine mgmt_keeps _ _ _ _ ?_ (fun _ _ => ?_)
    | with_reducible apply commitImage_keeps)

theorem setCred_keeps {s₀ s₁ : State} (k : Nat) (c : Option Cred) (hK : Keeps s₀ s₁) :
    Keeps s₀ (setCred k c s₁) := by
  unfold setCred
  repeat' (first
    | with_reducible exact hK
    | with_reducible assumption
    | fail_if_no_progress with_reducible refine Keeps.lit ?_ rfl rfl rfl rfl)

theorem execEnrollCredential_keeps {s₀ s₁ : State} (r : MgmtReq) (hK : Keeps s₀ s₁) :
    ∃ s₂, execEnrollCredential r s₁ = .next s₂ ∧ Keeps s₀ s₂ := by
  refine ⟨_, rfl, ?_⟩
  repeat' (first
    | with_reducible exact hK
    | with_reducible assumption
    | with_reducible apply answer_keeps
    | with_reducible refine mgmt_keeps _ _ _ _ ?_ (fun _ _ => ?_)
    | with_reducible apply setCred_keeps)

theorem execRevokeCredential_keeps {s₀ s₁ : State} (r : MgmtReq) (hK : Keeps s₀ s₁) :
    ∃ s₂, execRevokeCredential r s₁ = .next s₂ ∧ Keeps s₀ s₂ := by
  refine ⟨_, rfl, ?_⟩
  repeat' (first
    | with_reducible exact hK
    | with_reducible assumption
    | with_reducible apply answer_keeps
    | with_reducible refine mgmt_keeps _ _ _ _ ?_ (fun _ _ => ?_)
    | with_reducible apply setCred_keeps)

theorem eraseGroups_keeps {s₀ s₁ : State} (id : Nat) (hK : Keeps s₀ s₁) :
    Keeps s₀ (eraseGroups id s₁) := by
  unfold eraseGroups
  repeat' (first
    | with_reducible exact hK
    | with_reducible assumption
    | fail_if_no_progress with_reducible refine Keeps.lit ?_ rfl rfl rfl rfl)

theorem execEraseGroupKeys_keeps {s₀ s₁ : State} (r : MgmtReq) (hK : Keeps s₀ s₁) :
    ∃ s₂, execEraseGroupKeys r s₁ = .next s₂ ∧ Keeps s₀ s₂ := by
  refine ⟨_, rfl, ?_⟩
  repeat' (first
    | with_reducible exact hK
    | with_reducible assumption
    | with_reducible apply answer_keeps
    | with_reducible refine mgmt_keeps _ _ _ _ ?_ (fun _ _ => ?_)
    | with_reducible apply eraseGroups_keeps)

theorem execDebugChallenge_keeps {s₀ s₁ : State} (r : MgmtReq) (hK : Keeps s₀ s₁) :
    ∃ s₂, execDebugChallenge r s₁ = .next s₂ ∧ Keeps s₀ s₂ := by
  refine ⟨_, rfl, ?_⟩
  repeat' (first
    | with_reducible exact hK
    | with_reducible assumption
    | with_reducible apply drawNext_keeps
    | with_reducible apply answer_keeps
    | with_reducible refine mgmt_keeps _ _ _ _ ?_ (fun _ _ => ?_)
    | fail_if_no_progress with_reducible refine Keeps.lit ?_ rfl rfl rfl rfl)

theorem unlockDebug_moves {s₁ : State} (scope : Nat) : Moves s₁ (unlockDebug scope s₁) := by
  unfold unlockDebug
  extract_lets src s₂ s₃
  have h2 : Keeps s₁ s₂ := Keeps.lit (.refl _) rfl rfl rfl rfl
  have h3 : Keeps s₁ s₃ := foldl_keeps h2 fun _ _ hy => closeNow_keeps _ _ _ hy
  clear_value s₃
  split
  · exact (finishDebug_keeps h3).moves
  · exact h3.moves.trans (closeSlot_moves _ _ _)

theorem execDebugUnlock_moves (r : MgmtReq) (s₁ : State) :
    ∃ s₂, execDebugUnlock r s₁ = .next s₂ ∧ Moves s₁ s₂ := by
  refine ⟨_, rfl, whenHandsFree_moves _ _ (mgmt_moves _ _ _ r fun y => ?_)⟩
  split
  · exact unlockDebug_moves _
  · exact (refuseMgmt_keeps _ _ (.refl _)).moves

theorem outcome_ite_moves {s₁ : State} {c : Prop} [Decidable c] {a b : Host.Outcome State Fault Refusal}
    (ha : ∃ s₂, a = .next s₂ ∧ Moves s₁ s₂) (hb : ∃ s₂, b = .next s₂ ∧ Moves s₁ s₂) :
    ∃ s₂, (if c then a else b) = .next s₂ ∧ Moves s₁ s₂ := by
  by_cases h : c
  · rwa [if_pos h]
  · rwa [if_neg h]

theorem outcome_moves {s₁ : State} {a : Host.Outcome State Fault Refusal}
    (h : ∃ s₂, a = .next s₂ ∧ Keeps s₁ s₂) : ∃ s₂, a = .next s₂ ∧ Moves s₁ s₂ :=
  h.imp fun _ h => ⟨h.1, h.2.moves⟩

theorem mgmtOutcome_moves (op : Nat) (r : MgmtReq) (s₁ : State) :
    ∃ s₂, mgmtOutcome op r s₁ = .next s₂ ∧ Moves s₁ s₂ := by
  unfold mgmtOutcome
  refine outcome_ite_moves (outcome_moves (execGetTelemetry_keeps r (.refl s₁))) ?_
  refine outcome_ite_moves (outcome_moves (execGetEvents_keeps r (.refl s₁))) ?_
  refine outcome_ite_moves (outcome_moves (execSetPowerCap_keeps r (.refl s₁))) ?_
  refine outcome_ite_moves (outcome_moves (execSetSlew_keeps r (.refl s₁))) ?_
  refine outcome_ite_moves (outcome_moves (execSetOrphanCap_keeps r (.refl s₁))) ?_
  refine outcome_ite_moves (outcome_moves (execStoreNv_keeps r (.refl s₁))) ?_
  refine outcome_ite_moves (outcome_moves (execStartScrub_keeps r (.refl s₁))) ?_
  refine outcome_ite_moves (outcome_moves (execResetEngine_keeps r (.refl s₁))) ?_
  refine outcome_ite_moves (execMgmtCloseContext_moves r s₁) ?_
  refine outcome_ite_moves (execMgmtSwitchContext_moves r s₁) ?_
  refine outcome_ite_moves (outcome_moves (execSetCabling_keeps r (.refl s₁))) ?_
  refine outcome_ite_moves (outcome_moves (execSetSwitchRoot_keeps r (.refl s₁))) ?_
  refine outcome_ite_moves (outcome_moves (execFirmwareBegin_keeps r (.refl s₁))) ?_
  refine outcome_ite_moves (outcome_moves (execFirmwareChunk_keeps r (.refl s₁))) ?_
  refine outcome_ite_moves (outcome_moves (execFirmwareCommit_keeps r (.refl s₁))) ?_
  refine outcome_ite_moves (outcome_moves (execEnrollCredential_keeps r (.refl s₁))) ?_
  refine outcome_ite_moves (outcome_moves (execRevokeCredential_keeps r (.refl s₁))) ?_
  refine outcome_ite_moves (outcome_moves (execEraseGroupKeys_keeps r (.refl s₁))) ?_
  refine outcome_ite_moves (outcome_moves (execDebugChallenge_keeps r (.refl s₁))) ?_
  refine outcome_ite_moves (execDebugUnlock_moves r s₁) ?_
  exact ⟨_, rfl, .refl _⟩

theorem mgmtOf_moves (x : Nat × MgmtReq) (s₁ : State) : Moves s₁ (mgmtOf s₁ x) := by
  obtain ⟨t, ht, hm⟩ := mgmtOutcome_moves x.1 x.2 s₁
  simpa only [mgmtOf, ht] using hm

theorem mgmtFold_moves (l : List (Nat × MgmtReq)) (s₁ : State) : Moves s₁ (l.foldl mgmtOf s₁) := by
  induction l generalizing s₁ with
  | nil => exact .refl _
  | cons x l ih => exact (mgmtOf_moves x s₁).trans (ih _)

theorem serveMgmt_moves (s₁ : State) : Moves s₁ (serveMgmt s₁) := by
  unfold serveMgmt
  split
  · exact .refl _
  · have h : Keeps s₁ { s₁ with sec := { s₁.sec with mgmtWaiting := [] } } := Keeps.lit (.refl s₁) rfl rfl rfl rfl
    exact h.moves.trans (mgmtFold_moves _ _)

end Sys2Proof.Machine
end

