-- ==== Sys2Proof/Laws/KeepsTensors.lean ====
section
/-! SUPPORT. What the operations and commands of Tensors keep (Laws/Keeps.lean). -/

namespace Sys2Proof.Machine

set_option linter.all false
set_option Elab.async false

open Sys2Proof

theorem writeBits_wf (m : List Host.Cell) (key b n v : Nat) (hM : Memory.wf m) :
    Memory.wf (writeBits m key b n v) := by
  unfold writeBits
  repeat' (first
    | with_reducible exact hM
    | with_reducible assumption
    | with_reducible apply writeBytes_wf)

theorem writeElem_wf (y : Site) (here : Placement → Bool) (t : Tensor) (e v : Nat) (m : List Host.Cell) (hM : Memory.wf m) :
    Memory.wf (writeElem y here t e v m) := by
  unfold writeElem
  repeat' (first
    | with_reducible exact hM
    | with_reducible assumption
    | with_reducible apply writeBytes_wf
    | with_reducible apply writeByte_wf
    | with_reducible apply writeBits_wf
    | with_reducible refine foldl_wf ?_ (fun _ _ _ => ?_)
    | with_reducible refine foldl_fst_wf ?_ (fun _ _ _ => ?_)
    | split
    | dsimp only)

theorem writeSide_wf (y : Site) (id u v : Nat) (m : List Host.Cell) (hM : Memory.wf m) :
    Memory.wf (writeSide y id u v m) := by
  unfold writeSide
  repeat' (first
    | with_reducible exact hM
    | with_reducible assumption
    | with_reducible apply writeBytes_wf
    | with_reducible apply writeByte_wf
    | with_reducible apply writeElem_wf
    | with_reducible refine foldl_wf ?_ (fun _ _ _ => ?_)
    | with_reducible refine foldl_fst_wf ?_ (fun _ _ _ => ?_)
    | split)

theorem refreshSummary_wf (y : Site) (t : Tensor) (u : Nat) (m : List Host.Cell) (hM : Memory.wf m) :
    Memory.wf (refreshSummary y t u m) := by
  unfold refreshSummary
  repeat' (first
    | with_reducible exact hM
    | with_reducible assumption
    | with_reducible apply writeBytes_wf
    | with_reducible apply writeByte_wf
    | with_reducible apply writeSide_wf
    | with_reducible refine foldl_wf ?_ (fun _ _ _ => ?_)
    | with_reducible refine foldl_fst_wf ?_ (fun _ _ _ => ?_)
    | split)

theorem writeNums_wf (y : Site) (here : Placement → Bool) (r : Rounding) (t : Tensor) (l : List (Nat × Num)) (m : List Host.Cell) (hM : Memory.wf m) :
    Memory.wf (writeNums y here r t l m).1 := by
  unfold writeNums
  repeat' (first
    | with_reducible exact hM
    | with_reducible assumption
    | with_reducible apply writeBytes_wf
    | with_reducible apply writeByte_wf
    | with_reducible apply writeElem_wf
    | with_reducible apply writeSide_wf
    | with_reducible apply refreshSummary_wf
    | with_reducible refine foldl_wf ?_ (fun _ _ _ => ?_)
    | with_reducible refine foldl_fst_wf ?_ (fun _ _ _ => ?_)
    | split
    | dsimp only)

theorem writeState_wf (y : Site) (t : Tensor) (l : List (Nat × Num)) (m : List Host.Cell) (hM : Memory.wf m) :
    Memory.wf (writeState y t l m) := by
  unfold writeState
  repeat' (first
    | with_reducible exact hM
    | with_reducible assumption
    | with_reducible apply writeBytes_wf
    | with_reducible apply writeByte_wf
    | with_reducible apply writeNums_wf)

theorem refreshBlocks_wf (y : Site) (t : Tensor) (here : Placement → Bool) (m : List Host.Cell) (hM : Memory.wf m) :
    Memory.wf (refreshBlocks y t here m) := by
  unfold refreshBlocks
  repeat' (first
    | with_reducible exact hM
    | with_reducible assumption
    | with_reducible apply writeBytes_wf
    | with_reducible apply writeByte_wf
    | with_reducible apply refreshSummary_wf
    | with_reducible refine foldl_wf ?_ (fun _ _ _ => ?_)
    | with_reducible refine foldl_fst_wf ?_ (fun _ _ _ => ?_)
    | split
    | dsimp only)

theorem copyPlace_wf (i : Slot) (src dst : Placement) (m : List Host.Cell) (hM : Memory.wf m) :
    Memory.wf (copyPlace i src dst m) := by
  unfold copyPlace
  repeat' (first
    | with_reducible exact hM
    | with_reducible assumption
    | with_reducible apply writeBytes_wf)

end Sys2Proof.Machine
end

