-- ==== Sys2Proof/Laws/KeepsLoader.lean ====
section
/-! SUPPORT. What the operations and commands of Loader keep (Laws/Keeps.lean). -/

namespace Sys2Proof.Machine

set_option linter.all false
set_option Elab.async false

open Sys2Proof

theorem setLoadStatus_keeps {s₀ s₁ : State} (code : Code) (sect record : Nat) (hK : Keeps s₀ s₁) :
    Keeps s₀ (setLoadStatus code sect record s₁) := by
  unfold setLoadStatus
  repeat' (first
    | with_reducible exact hK
    | with_reducible assumption
    | fail_if_no_progress with_reducible refine Keeps.lit ?_ rfl rfl rfl rfl)

theorem refuseOp_keeps {s₀ s₁ : State} (i : Slot) (code : Code) (sect record : Nat) (hK : Keeps s₀ s₁) :
    Keeps s₀ (refuseOp i code sect record s₁) := by
  unfold refuseOp
  repeat' (first
    | with_reducible exact hK
    | with_reducible assumption
    | with_reducible apply report_keeps
    | with_reducible apply modSlot_keeps
    | with_reducible apply setLoadStatus_keeps
    | fail_if_no_progress with_reducible refine Keeps.lit ?_ rfl rfl rfl rfl)

theorem setLoadCtrl_keeps {s₀ s₁ : State} (op : BitVec 4) (i : Slot) (hK : Keeps s₀ s₁) :
    Keeps s₀ (setLoadCtrl op i s₁) := by
  unfold setLoadCtrl
  repeat' (first
    | with_reducible exact hK
    | with_reducible assumption
    | fail_if_no_progress with_reducible refine Keeps.lit ?_ rfl rfl rfl rfl)

theorem beginOp_keeps {s₀ s₁ : State} (op : LoadOp) (hK : Keeps s₀ s₁) :
    Keeps s₀ (beginOp op s₁) := by
  unfold beginOp
  repeat' (first
    | with_reducible exact hK
    | with_reducible assumption
    | with_reducible apply setSlotState_keeps
    | with_reducible apply stopChart_keeps
    | fail_if_no_progress with_reducible refine Keeps.lit ?_ rfl rfl rfl rfl
    | split)

theorem startOp_keeps {s₀ s₁ : State} (stage : Bool) (i : Slot) (hK : Keeps s₀ s₁) :
    Keeps s₀ (startOp stage i s₁) := by
  unfold startOp
  repeat' (first
    | with_reducible exact hK
    | with_reducible assumption
    | with_reducible apply setLoadStatus_keeps
    | with_reducible apply refuseOp_keeps
    | with_reducible apply setLoadCtrl_keeps
    | with_reducible apply beginOp_keeps
    | fail_if_no_progress with_reducible refine Keeps.lit ?_ rfl rfl rfl rfl
    | split
    | dsimp only)

theorem execStage_keeps {s₀ s₁ : State} (i : Slot) (hK : Keeps s₀ s₁) :
    ∃ s₂, execStage i s₁ = .next s₂ ∧ Keeps s₀ s₂ := by
  refine ⟨_, rfl, ?_⟩
  repeat' (first
    | with_reducible exact hK
    | with_reducible assumption
    | with_reducible refine when'_keeps _ ?_ (fun _ _ => ?_)
    | with_reducible apply startOp_keeps)

theorem execUnstage_keeps {s₀ s₁ : State} (i : Slot) (hK : Keeps s₀ s₁) :
    ∃ s₂, execUnstage i s₁ = .next s₂ ∧ Keeps s₀ s₂ := by
  refine ⟨_, rfl, ?_⟩
  repeat' (first
    | with_reducible exact hK
    | with_reducible assumption
    | with_reducible refine when'_keeps _ ?_ (fun _ _ => ?_)
    | with_reducible apply startOp_keeps)

theorem reservedOp_keeps {s₀ s₁ : State} (op : BitVec 4) (i : Slot) (hK : Keeps s₀ s₁) :
    Keeps s₀ (reservedOp op i s₁) := by
  unfold reservedOp
  repeat' (first
    | with_reducible exact hK
    | with_reducible assumption
    | with_reducible apply setLoadStatus_keeps
    | with_reducible apply setLoadCtrl_keeps
    | fail_if_no_progress with_reducible refine Keeps.lit ?_ rfl rfl rfl rfl
    | split)

theorem execLoadGoReservedOp_keeps {s₀ s₁ : State} (op : BitVec 4) (i : Slot) (hK : Keeps s₀ s₁) :
    ∃ s₂, execLoadGoReservedOp op i s₁ = .next s₂ ∧ Keeps s₀ s₂ := by
  refine ⟨_, rfl, ?_⟩
  repeat' (first
    | with_reducible exact hK
    | with_reducible assumption
    | with_reducible refine when'_keeps _ ?_ (fun _ _ => ?_)
    | with_reducible apply reservedOp_keeps)

theorem execLoadStatusRead_keeps {s₀ s₁ : State}  (hK : Keeps s₀ s₁) :
    ∃ s₂, execLoadStatusRead s₁ = .next s₂ ∧ Keeps s₀ s₂ := by
  refine ⟨_, rfl, ?_⟩
  repeat' (first
    | with_reducible exact hK
    | with_reducible assumption
    | with_reducible refine when'_keeps _ ?_ (fun _ _ => ?_)
    | fail_if_no_progress with_reducible refine Keeps.lit ?_ rfl rfl rfl rfl)

theorem setShifts_keeps {s₀ s₁ : State}  (hK : Keeps s₀ s₁) :
    Keeps s₀ (setShifts s₁) := by
  unfold setShifts
  repeat' (first
    | with_reducible exact hK
    | with_reducible assumption
    | with_reducible refine foldl_keeps ?_ (fun _ _ _ => ?_)
    | with_reducible refine foldl_fst_keeps ?_ (fun _ _ _ => ?_)
    | with_reducible apply modLink_keeps
    | fail_if_no_progress with_reducible refine Keeps.lit ?_ rfl rfl rfl rfl
    | split
    | dsimp only)

theorem stageRepairs_keeps {s₀ s₁ : State}  (hK : Keeps s₀ s₁) :
    Keeps s₀ (stageRepairs s₁) := by
  unfold stageRepairs
  repeat' (first
    | with_reducible exact hK
    | with_reducible assumption
    | with_reducible apply coverRows_keeps
    | with_reducible apply setShifts_keeps
    | fail_if_no_progress with_reducible refine Keeps.lit ?_ rfl rfl rfl rfl
    | split
    | dsimp only)

theorem noteCycle_keeps {s₀ s₁ : State} (op : LoadOp) (r : Refused) (hK : Keeps s₀ s₁) :
    Keeps s₀ (noteCycle op r s₁) := by
  unfold noteCycle
  repeat' (first
    | with_reducible exact hK
    | with_reducible assumption
    | fail_if_no_progress with_reducible refine Keeps.lit ?_ rfl rfl rfl rfl
    | split)

theorem imageRefused_keeps {s₀ s₁ : State} (op : LoadOp) (r : Refused) (hK : Keeps s₀ s₁) :
    Keeps s₀ (imageRefused op r s₁) := by
  unfold imageRefused
  repeat' (first
    | with_reducible exact hK
    | with_reducible assumption
    | with_reducible apply setSlotState_keeps
    | with_reducible apply refuseOp_keeps
    | with_reducible apply noteCycle_keeps)

theorem imageAccepted_keeps {s₀ s₁ : State} (op : LoadOp) (c : Chart) (vs : List (Nat × Nat)) (hK : Keeps s₀ s₁) :
    Keeps s₀ (imageAccepted op c vs s₁) := by
  unfold imageAccepted
  repeat' (first
    | with_reducible exact hK
    | with_reducible assumption
    | with_reducible refine foldl_keeps ?_ (fun _ _ _ => ?_)
    | with_reducible refine foldl_fst_keeps ?_ (fun _ _ _ => ?_)
    | with_reducible refine modCtx_keeps _ ?_ (fun _ hc => hc)
    | with_reducible refine modCtx_keeps _ ?_ (fun _ hc => (by revert hc; dsimp only; (repeat' split) <;> first | exact id | exact fun hc => nomatch hc))
    | with_reducible apply report_keeps
    | with_reducible apply modSlot_keeps
    | with_reducible apply setSlotState_keeps
    | with_reducible apply stopKeeping_keeps
    | with_reducible apply sayFolded_keeps
    | with_reducible apply startInstall_keeps
    | fail_if_no_progress with_reducible refine Keeps.lit ?_ rfl rfl rfl rfl
    | split
    | dsimp only)

theorem finishCheck_keeps {s₀ s₁ : State} (op : LoadOp) (hK : Keeps s₀ s₁) :
    Keeps s₀ (finishCheck op s₁) := by
  unfold finishCheck
  repeat' (first
    | with_reducible exact hK
    | with_reducible assumption
    | with_reducible apply stageRepairs_keeps
    | with_reducible apply imageRefused_keeps
    | with_reducible apply imageAccepted_keeps
    | fail_if_no_progress with_reducible refine Keeps.lit ?_ rfl rfl rfl rfl
    | split
    | dsimp only)

theorem execChartCheckDone_keeps {s₀ s₁ : State}  (hK : Keeps s₀ s₁) :
    ∃ s₂, execChartCheckDone s₁ = .next s₂ ∧ Keeps s₀ s₂ := by
  refine ⟨_, rfl, ?_⟩
  repeat' (first
    | with_reducible exact hK
    | with_reducible assumption
    | with_reducible apply finishCheck_keeps
    | fail_if_no_progress with_reducible refine Keeps.lit ?_ rfl rfl rfl rfl
    | split)

theorem execUnstageDone_keeps {s₀ s₁ : State}  (hK : Keeps s₀ s₁) :
    ∃ s₂, execUnstageDone s₁ = .next s₂ ∧ Keeps s₀ s₂ := by
  refine ⟨_, rfl, ?_⟩
  repeat' (first
    | with_reducible exact hK
    | with_reducible assumption
    | with_reducible apply modSlot_keeps
    | fail_if_no_progress with_reducible refine Keeps.lit ?_ rfl rfl rfl rfl
    | split)

theorem fillSummaries_keeps {s₀ s₁ : State} (x : Installed) (c : Chart) (hK : Keeps s₀ s₁) :
    Keeps s₀ (fillSummaries x c s₁) := by
  unfold fillSummaries
  exact Keeps.litMem hK (fun hm => foldl_wf hm fun _ _ h => refreshBlocks_wf _ _ _ _ h) rfl rfl rfl rfl

theorem finishInstall_keeps {s₀ s₁ : State} (x : Installed) (c : Chart) (hK : Keeps s₀ s₁) :
    Keeps s₀ (finishInstall x c s₁) := by
  unfold finishInstall
  repeat' (first
    | with_reducible exact hK
    | with_reducible assumption
    | with_reducible refine foldl_keeps ?_ (fun _ _ _ => ?_)
    | with_reducible refine foldl_fst_keeps ?_ (fun _ _ _ => ?_)
    | with_reducible apply modInstalled_keeps
    | with_reducible apply setSlotState_keeps
    | with_reducible apply fillArea_keeps
    | with_reducible apply startTiles_keeps
    | with_reducible apply fillSummaries_keeps
    | fail_if_no_progress with_reducible refine Keeps.lit ?_ rfl rfl rfl rfl
    | split
    | dsimp only)

theorem execChartInstallComplete_keeps {s₀ s₁ : State}  (hK : Keeps s₀ s₁) :
    ∃ s₂, execChartInstallComplete s₁ = .next s₂ ∧ Keeps s₀ s₂ := by
  refine ⟨_, rfl, ?_⟩
  repeat' (first
    | with_reducible exact hK
    | with_reducible assumption
    | with_reducible apply finishInstall_keeps
    | fail_if_no_progress with_reducible refine Keeps.lit ?_ rfl rfl rfl rfl
    | split)

theorem restageOnto_keeps {s₀ s₁ : State} (c : Chart) (x : Installed) (r : Region) (v : Variant) (hK : Keeps s₀ s₁) :
    Keeps s₀ (restageOnto c x r v s₁) := by
  unfold restageOnto
  repeat' (first
    | with_reducible exact hK
    | with_reducible assumption
    | with_reducible refine foldl_keeps ?_ (fun _ _ _ => ?_)
    | with_reducible refine foldl_fst_keeps ?_ (fun _ _ _ => ?_)
    | with_reducible apply report_keeps
    | with_reducible apply wakeTile_keeps
    | with_reducible apply modInstalled_keeps
    | with_reducible apply sayFolded_keeps
    | fail_if_no_progress with_reducible refine Keeps.lit ?_ rfl rfl rfl rfl
    | split
    | dsimp only)

theorem restage_keeps {s₀ s₁ : State} (x : Installed) (c : Chart) (f : FaultRec) (hK : Keeps s₀ s₁) :
    Keeps s₀ (restage x c f s₁) := by
  unfold restage
  repeat' (first
    | with_reducible exact hK
    | with_reducible assumption
    | with_reducible apply report_keeps
    | with_reducible apply modInstalled_keeps
    | with_reducible apply loseRegions_keeps
    | with_reducible apply restageOnto_keeps
    | fail_if_no_progress with_reducible refine Keeps.lit ?_ rfl rfl rfl rfl
    | split)

theorem execRegionRestage_keeps {s₀ s₁ : State}  (hK : Keeps s₀ s₁) :
    ∃ s₂, execRegionRestage s₁ = .next s₂ ∧ Keeps s₀ s₂ := by
  refine ⟨_, rfl, ?_⟩
  repeat' (first
    | with_reducible exact hK
    | with_reducible assumption
    | with_reducible apply restage_keeps
    | fail_if_no_progress with_reducible refine Keeps.lit ?_ rfl rfl rfl rfl
    | split)

end Sys2Proof.Machine
end

