-- ==== Sys2Proof/Laws/KeepsWeights.lean ====
section
/-! SUPPORT. What the operations and commands of Weights keep (Laws/Keeps.lean). -/

namespace Sys2Proof.Machine

set_option linter.all false
set_option Elab.async false

open Sys2Proof

theorem modModel_keeps {s₀ s₁ : State} (i : Slot) (f : Model → Model) (hK : Keeps s₀ s₁) :
    Keeps s₀ (modModel i f s₁) := by
  unfold modModel
  repeat' (first
    | with_reducible exact hK
    | with_reducible assumption
    | with_reducible refine modCtx_keeps _ ?_ (fun _ hc => hc))

theorem modFetch_keeps {s₀ s₁ : State} (i : Slot) (sw : Bool) (f : Fetch → Fetch) (hK : Keeps s₀ s₁) :
    Keeps s₀ (modFetch i sw f s₁) := by
  unfold modFetch
  repeat' (first
    | with_reducible exact hK
    | with_reducible assumption
    | with_reducible apply modModel_keeps)

theorem putHold_keeps {s₀ s₁ : State} (i : Slot) (sw : Bool) (h : ShardHold) (hK : Keeps s₀ s₁) :
    Keeps s₀ (putHold i sw h s₁) := by
  unfold putHold
  repeat' (first
    | with_reducible exact hK
    | with_reducible assumption
    | with_reducible apply modModel_keeps)

theorem dropHold_keeps {s₀ s₁ : State} (i : Slot) (sw : Bool) (sh : Nat) (hK : Keeps s₀ s₁) :
    Keeps s₀ (dropHold i sw sh s₁) := by
  unfold dropHold
  repeat' (first
    | with_reducible exact hK
    | with_reducible assumption
    | with_reducible apply modFetch_keeps
    | fail_if_no_progress with_reducible refine Keeps.lit ?_ rfl rfl rfl rfl
    | split
    | dsimp only)

theorem shardEvent_keeps {s₀ s₁ : State} (i : Slot) (code : Code) (id : BitVec 128) (sh : Nat) (hK : Keeps s₀ s₁) :
    Keeps s₀ (shardEvent i code id sh s₁) := by
  unfold shardEvent
  repeat' (first
    | with_reducible exact hK
    | with_reducible assumption
    | with_reducible apply report_keeps)

theorem sendOnPlane_keeps {s₀ s₁ : State} (k : Nat) (dst : BitVec 32) (m : PlaneMsg) (hK : Keeps s₀ s₁) :
    Keeps s₀ (sendOnPlane k dst m s₁) := by
  unfold sendOnPlane
  repeat' (first
    | with_reducible exact hK
    | with_reducible assumption
    | with_reducible apply sendMsg_keeps
    | fail_if_no_progress with_reducible refine Keeps.lit ?_ rfl rfl rfl rfl
    | split)

theorem sendReq_keeps {s₀ s₁ : State} (f : Fetch) (sh : Nat) (v : BitVec 32) (hK : Keeps s₀ s₁) :
    Keeps s₀ (sendReq f sh v s₁) := by
  unfold sendReq
  repeat' (first
    | with_reducible exact hK
    | with_reducible assumption
    | with_reducible apply sendOnPlane_keeps)

theorem request_keeps {s₀ s₁ : State} (i : Slot) (sw : Bool) (v : BitVec 32) (sh : Nat) (hK : Keeps s₀ s₁) :
    Keeps s₀ (request i sw v s₁ sh) := by
  unfold request
  repeat' (first
    | with_reducible exact hK
    | with_reducible assumption
    | with_reducible apply modFetch_keeps
    | with_reducible apply sendReq_keeps
    | fail_if_no_progress with_reducible refine Keeps.lit ?_ rfl rfl rfl rfl
    | split)

theorem dropReq_keeps {s₀ s₁ : State} (i : Slot) (sw : Bool) (sh : Nat) (hK : Keeps s₀ s₁) :
    Keeps s₀ (dropReq i sw sh s₁) := by
  unfold dropReq
  repeat' (first
    | with_reducible exact hK
    | with_reducible assumption
    | with_reducible apply modFetch_keeps)

theorem modReq_keeps {s₀ s₁ : State} (i : Slot) (sw : Bool) (sh : Nat) (g : ShardReq → ShardReq) (hK : Keeps s₀ s₁) :
    Keeps s₀ (modReq i sw sh g s₁) := by
  unfold modReq
  repeat' (first
    | with_reducible exact hK
    | with_reducible assumption
    | with_reducible apply modFetch_keeps)

theorem endFetch_keeps {s₀ s₁ : State} (i : Slot) (op : Nat) (code : Code) (hK : Keeps s₀ s₁) :
    Keeps s₀ (endFetch i op code s₁) := by
  unfold endFetch
  repeat' (first
    | with_reducible exact hK
    | with_reducible assumption
    | with_reducible apply report_keeps
    | with_reducible apply completeCmd_keeps
    | fail_if_no_progress with_reducible refine Keeps.lit ?_ rfl rfl rfl rfl
    | split
    | dsimp only)

theorem unavailable_keeps {s₀ s₁ : State} (i : Slot) (sw : Bool) (sh : Nat) (hK : Keeps s₀ s₁) :
    Keeps s₀ (unavailable i sw sh s₁) := by
  unfold unavailable
  repeat' (first
    | with_reducible exact hK
    | with_reducible assumption
    | with_reducible apply endPass_keeps
    | with_reducible apply dropLoads_keeps
    | with_reducible apply shardEvent_keeps
    | with_reducible apply dropReq_keeps
    | with_reducible apply endFetch_keeps
    | fail_if_no_progress with_reducible refine Keeps.lit ?_ rfl rfl rfl rfl
    | split
    | dsimp only)

theorem askAgain_keeps {s₀ s₁ : State} (i : Slot) (sw gap : Bool) (sh : Nat) (hK : Keeps s₀ s₁) :
    Keeps s₀ (askAgain i sw gap sh s₁) := by
  unfold askAgain
  repeat' (first
    | with_reducible exact hK
    | with_reducible assumption
    | with_reducible apply sendReq_keeps
    | with_reducible apply modReq_keeps
    | with_reducible apply unavailable_keeps
    | fail_if_no_progress with_reducible refine Keeps.lit ?_ rfl rfl rfl rfl
    | split)

theorem execShardReqTimeout_keeps {s₀ s₁ : State} (sh : Nat) (hK : Keeps s₀ s₁) :
    ∃ s₂, execShardReqTimeout sh s₁ = .next s₂ ∧ Keeps s₀ s₂ := by
  refine ⟨_, rfl, ?_⟩
  repeat' (first
    | with_reducible exact hK
    | with_reducible assumption
    | with_reducible apply askAgain_keeps
    | fail_if_no_progress with_reducible refine Keeps.lit ?_ rfl rfl rfl rfl
    | split)

theorem execShardRetryGap_keeps {s₀ s₁ : State} (sh : Nat) (hK : Keeps s₀ s₁) :
    ∃ s₂, execShardRetryGap sh s₁ = .next s₂ ∧ Keeps s₀ s₂ := by
  refine ⟨_, rfl, ?_⟩
  repeat' (first
    | with_reducible exact hK
    | with_reducible assumption
    | with_reducible apply askAgain_keeps
    | fail_if_no_progress with_reducible refine Keeps.lit ?_ rfl rfl rfl rfl
    | split)

theorem discardSvc_keeps {s₀ s₁ : State} (h : SvcHdr) (hK : Keeps s₀ s₁) :
    Keeps s₀ (discardSvc h s₁) := by
  unfold discardSvc
  repeat' (first
    | with_reducible exact hK
    | with_reducible assumption
    | with_reducible apply report_keeps
    | fail_if_no_progress with_reducible refine Keeps.lit ?_ rfl rfl rfl rfl
    | split
    | dsimp only)

theorem execShardNack_keeps {s₀ s₁ : State} (p : PortId) (msg : ShardMsg) (hK : Keeps s₀ s₁) :
    ∃ s₂, execShardNack p msg s₁ = .next s₂ ∧ Keeps s₀ s₂ := by
  refine ⟨_, rfl, ?_⟩
  repeat' (first
    | with_reducible exact hK
    | with_reducible assumption
    | with_reducible apply askAgain_keeps
    | with_reducible apply discardSvc_keeps
    | fail_if_no_progress with_reducible refine Keeps.lit ?_ rfl rfl rfl rfl
    | split
    | dsimp only)

theorem writePieces_keeps {s₀ s₁ : State} (i : Slot) (frame : Nat) (l : List (Piece × Bytes)) (hK : Keeps s₀ s₁) :
    Keeps s₀ (writePieces i frame l s₁) := by
  unfold writePieces
  repeat' (first
    | with_reducible exact hK
    | with_reducible assumption
    | with_reducible refine foldl_keeps ?_ (fun _ _ _ => ?_)
    | with_reducible refine foldl_fst_keeps ?_ (fun _ _ _ => ?_)
    | with_reducible apply storeBytes_keeps)

theorem putUnit_wf (y : Site) (here : Placement → Bool) (t : Tensor) (u : Nat) (b : Bytes) (m : List Host.Cell) (hM : Memory.wf m) :
    Memory.wf (putUnit y here t u b m) := by
  unfold putUnit
  repeat' (first
    | with_reducible exact hM
    | with_reducible assumption
    | with_reducible apply writeBytes_wf
    | with_reducible apply writeByte_wf
    | with_reducible apply writeElem_wf
    | with_reducible apply writeSide_wf
    | with_reducible apply refreshSummary_wf
    | with_reducible refine foldl_wf ?_ (fun _ _ _ => ?_)
    | with_reducible refine foldl_fst_wf ?_ (fun _ _ _ => ?_)
    | split
    | dsimp only)

theorem unpackShard_keeps {s₀ s₁ : State} (i : Slot) (m : Manifest) (here : Placement → Bool) (h : ShardHold)
    (hK : Keeps s₀ s₁) : Keeps s₀ (unpackShard i m here h s₁) := by
  unfold unpackShard
  split
  · exact hK
  · exact Keeps.litMem hK (fun hm => foldl_wf hm fun _ _ hm => putUnit_wf _ _ _ _ _ _ hm) rfl rfl rfl rfl

theorem finishLoad_keeps {s₀ s₁ : State} (i : Slot) (hK : Keeps s₀ s₁) :
    Keeps s₀ (finishLoad i s₁) := by
  unfold finishLoad
  repeat' (first
    | with_reducible exact hK
    | with_reducible assumption
    | with_reducible apply modModel_keeps
    | with_reducible apply endFetch_keeps
    | fail_if_no_progress with_reducible refine Keeps.lit ?_ rfl rfl rfl rfl
    | split)

theorem markValid_keeps {s₀ s₁ : State} (i : Slot) (sw : Bool) (f : Fetch) (sh : Nat) (v : BitVec 32) (frame : Nat) (l : List (Piece × Bytes)) (hK : Keeps s₀ s₁) :
    Keeps s₀ (markValid i sw f sh v frame l s₁) := by
  unfold markValid
  repeat' (first
    | with_reducible exact hK
    | with_reducible assumption
    | with_reducible apply modModel_keeps
    | with_reducible apply modFetch_keeps
    | with_reducible apply putHold_keeps
    | with_reducible apply writePieces_keeps
    | with_reducible apply unpackShard_keeps
    | fail_if_no_progress with_reducible refine Keeps.lit ?_ rfl rfl rfl rfl
    | split
    | dsimp only)

theorem failShard_keeps {s₀ s₁ : State} (i : Slot) (sw : Bool) (sh : Nat) (code : Code) (hK : Keeps s₀ s₁) :
    Keeps s₀ (failShard i sw sh code s₁) := by
  unfold failShard
  repeat' (first
    | with_reducible exact hK
    | with_reducible assumption
    | with_reducible apply modFetch_keeps
    | with_reducible apply dropHold_keeps
    | with_reducible apply shardEvent_keeps
    | with_reducible apply askAgain_keeps
    | fail_if_no_progress with_reducible refine Keeps.lit ?_ rfl rfl rfl rfl
    | split)

theorem forwardPilot_keeps {s₀ s₁ : State} (i : Slot) (sw : Bool) (p : PortId) (f : Fetch) (rs : List ShardRecord) (hK : Keeps s₀ s₁) :
    Keeps s₀ (forwardPilot i sw p f rs s₁) := by
  unfold forwardPilot
  repeat' (first
    | with_reducible exact hK
    | with_reducible assumption
    | with_reducible refine foldl_keeps ?_ (fun _ _ _ => ?_)
    | with_reducible refine foldl_fst_keeps ?_ (fun _ _ _ => ?_)
    | with_reducible apply sendMsg_keeps
    | fail_if_no_progress with_reducible refine Keeps.lit ?_ rfl rfl rfl rfl
    | split)

theorem takeAnswer_keeps {s₀ s₁ : State} (i : Slot) (sw : Bool) (p : PortId) (sh : Nat) (v : BitVec 32) (rs : List ShardRecord) (hK : Keeps s₀ s₁) :
    Keeps s₀ (takeAnswer i sw p sh v rs s₁) := by
  unfold takeAnswer
  repeat' (first
    | with_reducible exact hK
    | with_reducible assumption
    | with_reducible apply modFetch_keeps
    | with_reducible apply dropReq_keeps
    | with_reducible apply finishLoad_keeps
    | with_reducible apply markValid_keeps
    | with_reducible apply failShard_keeps
    | with_reducible apply forwardPilot_keeps
    | fail_if_no_progress with_reducible refine Keeps.lit ?_ rfl rfl rfl rfl
    | split)

theorem takeData_keeps {s₀ s₁ : State} (p : PortId) (h : SvcHdr) (rs : List ShardRecord) (hK : Keeps s₀ s₁) :
    Keeps s₀ (takeData p h rs s₁) := by
  unfold takeData
  repeat' (first
    | with_reducible exact hK
    | with_reducible assumption
    | with_reducible refine foldl_keeps ?_ (fun _ _ _ => ?_)
    | with_reducible refine foldl_fst_keeps ?_ (fun _ _ _ => ?_)
    | with_reducible apply report_keeps
    | with_reducible apply takeAnswer_keeps
    | fail_if_no_progress with_reducible refine Keeps.lit ?_ rfl rfl rfl rfl
    | split
    | dsimp only)

theorem execShardData_keeps {s₀ s₁ : State} (p : PortId) (msg : ShardMsg) (hK : Keeps s₀ s₁) :
    ∃ s₂, execShardData p msg s₁ = .next s₂ ∧ Keeps s₀ s₂ := by
  refine ⟨_, rfl, ?_⟩
  repeat' (first
    | with_reducible exact hK
    | with_reducible assumption
    | with_reducible apply discardSvc_keeps
    | with_reducible apply takeData_keeps
    | fail_if_no_progress with_reducible refine Keeps.lit ?_ rfl rfl rfl rfl
    | split
    | dsimp only)

theorem streamLayer_keeps {s₀ s₁ : State} (i : Slot) (c : Chart) (x : Installed) (l : Nat) (step : BitVec 32) (hK : Keeps s₀ s₁) :
    Keeps s₀ (streamLayer i c x l step s₁) := by
  unfold streamLayer
  repeat' (first
    | with_reducible exact hK
    | with_reducible assumption
    | with_reducible refine foldl_keeps ?_ (fun _ _ _ => ?_)
    | with_reducible refine foldl_fst_keeps ?_ (fun _ _ _ => ?_)
    | with_reducible apply modFetch_keeps
    | with_reducible apply request_keeps
    | fail_if_no_progress with_reducible refine Keeps.lit ?_ rfl rfl rfl rfl
    | split)

theorem refetchLayer_keeps {s₀ s₁ : State} (i : Slot) (l : Nat) (step : BitVec 32) (hK : Keeps s₀ s₁) :
    Keeps s₀ (refetchLayer i l step s₁) := by
  unfold refetchLayer
  repeat' (first
    | with_reducible exact hK
    | with_reducible assumption
    | with_reducible refine foldl_keeps ?_ (fun _ _ _ => ?_)
    | with_reducible refine foldl_fst_keeps ?_ (fun _ _ _ => ?_)
    | with_reducible apply request_keeps
    | fail_if_no_progress with_reducible refine Keeps.lit ?_ rfl rfl rfl rfl
    | split)

theorem setModel_keeps {s₀ s₁ : State} (i : Slot) (m : Option Model) (hK : Keeps s₀ s₁) :
    Keeps s₀ (setModel i m s₁) := by
  unfold setModel
  repeat' (first
    | with_reducible exact hK
    | with_reducible assumption
    | with_reducible refine modCtx_keeps _ ?_ (fun _ hc => hc))

theorem bindStart_keeps {s₀ s₁ : State} (i : Slot) (q : QId) (r : Ready) (hK : Keeps s₀ s₁) :
    Keeps s₀ (bindStart i q r s₁) := by
  unfold bindStart
  repeat' (first
    | with_reducible exact hK
    | with_reducible assumption
    | with_reducible apply refuseStart_keeps
    | with_reducible apply atOnce_keeps
    | with_reducible apply setModel_keeps
    | fail_if_no_progress with_reducible refine Keeps.lit ?_ rfl rfl rfl rfl
    | split)

theorem execBindManifest_keeps {s₀ s₁ : State} (i : Slot) (q : QId) (hK : Keeps s₀ s₁) :
    ∃ s₂, execBindManifest i q s₁ = .next s₂ ∧ Keeps s₀ s₂ := by
  refine ⟨_, rfl, ?_⟩
  repeat' (first
    | with_reducible exact hK
    | with_reducible assumption
    | with_reducible refine startRow_keeps _ _ _ ?_ (fun _ _ _ => ?_)
    | with_reducible apply bindStart_keeps)

theorem loadStart_keeps {s₀ s₁ : State} (i : Slot) (q : QId) (r : Ready) (hK : Keeps s₀ s₁) :
    Keeps s₀ (loadStart i q r s₁) := by
  unfold loadStart
  repeat' (first
    | with_reducible exact hK
    | with_reducible assumption
    | with_reducible refine foldl_keeps ?_ (fun _ _ _ => ?_)
    | with_reducible refine foldl_fst_keeps ?_ (fun _ _ _ => ?_)
    | with_reducible apply addRunning_keeps
    | with_reducible apply refuseStart_keeps
    | with_reducible apply request_keeps
    | with_reducible apply setModel_keeps
    | fail_if_no_progress with_reducible refine Keeps.lit ?_ rfl rfl rfl rfl
    | split)

theorem execLoadModel_keeps {s₀ s₁ : State} (i : Slot) (q : QId) (hK : Keeps s₀ s₁) :
    ∃ s₂, execLoadModel i q s₁ = .next s₂ ∧ Keeps s₀ s₂ := by
  refine ⟨_, rfl, ?_⟩
  repeat' (first
    | with_reducible exact hK
    | with_reducible assumption
    | with_reducible refine startRow_keeps _ _ _ ?_ (fun _ _ _ => ?_)
    | with_reducible apply loadStart_keeps)

theorem paceSwap_keeps {s₀ s₁ : State} (i : Slot) (hK : Keeps s₀ s₁) :
    Keeps s₀ (paceSwap i s₁) := by
  unfold paceSwap
  repeat' (first
    | with_reducible exact hK
    | with_reducible assumption
    | with_reducible refine foldl_keeps ?_ (fun _ _ _ => ?_)
    | with_reducible refine foldl_fst_keeps ?_ (fun _ _ _ => ?_)
    | with_reducible apply request_keeps
    | fail_if_no_progress with_reducible refine Keeps.lit ?_ rfl rfl rfl rfl
    | split)

theorem finishSwap_keeps {s₀ s₁ : State} (i : Slot) (m : Model) (w : Swap) (hK : Keeps s₀ s₁) :
    Keeps s₀ (finishSwap i m w s₁) := by
  unfold finishSwap
  repeat' (first
    | with_reducible exact hK
    | with_reducible assumption
    | with_reducible refine modCtx_keeps _ ?_ (fun _ hc => hc)
    | with_reducible apply report_keeps
    | with_reducible apply endFetch_keeps)

theorem swapStart_keeps {s₀ s₁ : State} (i : Slot) (q : QId) (r : Ready) (hK : Keeps s₀ s₁) :
    Keeps s₀ (swapStart i q r s₁) := by
  unfold swapStart
  repeat' (first
    | with_reducible exact hK
    | with_reducible assumption
    | with_reducible refine modCtx_keeps _ ?_ (fun _ hc => hc)
    | with_reducible apply addRunning_keeps
    | with_reducible apply refuseStart_keeps
    | with_reducible apply paceSwap_keeps
    | with_reducible apply finishSwap_keeps
    | fail_if_no_progress with_reducible refine Keeps.lit ?_ rfl rfl rfl rfl
    | split
    | dsimp only)

theorem execSwapModel_keeps {s₀ s₁ : State} (i : Slot) (q : QId) (hK : Keeps s₀ s₁) :
    ∃ s₂, execSwapModel i q s₁ = .next s₂ ∧ Keeps s₀ s₂ := by
  refine ⟨_, rfl, ?_⟩
  repeat' (first
    | with_reducible exact hK
    | with_reducible assumption
    | with_reducible refine startRow_keeps _ _ _ ?_ (fun _ _ _ => ?_)
    | with_reducible apply swapStart_keeps)

theorem releaseStart_keeps {s₀ s₁ : State} (i : Slot) (q : QId) (r : Ready) (hK : Keeps s₀ s₁) :
    Keeps s₀ (releaseStart i q r s₁) := by
  unfold releaseStart
  repeat' (first
    | with_reducible exact hK
    | with_reducible assumption
    | with_reducible apply refuseStart_keeps
    | with_reducible apply atOnce_keeps
    | with_reducible apply setModel_keeps
    | fail_if_no_progress with_reducible refine Keeps.lit ?_ rfl rfl rfl rfl
    | split)

theorem execReleaseModel_keeps {s₀ s₁ : State} (i : Slot) (q : QId) (hK : Keeps s₀ s₁) :
    ∃ s₂, execReleaseModel i q s₁ = .next s₂ ∧ Keeps s₀ s₂ := by
  refine ⟨_, rfl, ?_⟩
  repeat' (first
    | with_reducible exact hK
    | with_reducible assumption
    | with_reducible refine startRow_keeps _ _ _ ?_ (fun _ _ _ => ?_)
    | with_reducible apply releaseStart_keeps)

theorem catchUpLoad_keeps {s₀ s₁ : State} (i : Slot) (f : Fetch) (hK : Keeps s₀ s₁) :
    Keeps s₀ (catchUpLoad i f s₁) := by
  unfold catchUpLoad
  repeat' (first
    | with_reducible exact hK
    | with_reducible assumption
    | with_reducible refine foldl_keeps ?_ (fun _ _ _ => ?_)
    | with_reducible refine foldl_fst_keeps ?_ (fun _ _ _ => ?_)
    | with_reducible apply modFetch_keeps
    | with_reducible apply request_keeps)

theorem endStream_keeps {s₀ s₁ : State} (i : Slot) (hK : Keeps s₀ s₁) :
    Keeps s₀ (endStream s₁ i) := by
  unfold endStream
  repeat' (first
    | with_reducible exact hK
    | with_reducible assumption
    | with_reducible apply modFetch_keeps
    | with_reducible apply paceSwap_keeps
    | with_reducible apply catchUpLoad_keeps
    | fail_if_no_progress with_reducible refine Keeps.lit ?_ rfl rfl rfl rfl
    | split)

theorem execPilotStreamEnd_keeps {s₀ s₁ : State}  (hK : Keeps s₀ s₁) :
    ∃ s₂, execPilotStreamEnd s₁ = .next s₂ ∧ Keeps s₀ s₂ := by
  refine ⟨_, rfl, ?_⟩
  repeat' (first
    | with_reducible exact hK
    | with_reducible assumption
    | with_reducible refine foldl_keeps ?_ (fun _ _ _ => ?_)
    | with_reducible refine foldl_fst_keeps ?_ (fun _ _ _ => ?_)
    | with_reducible apply endStream_keeps)

theorem unpinLayer_keeps {s₀ s₁ : State} (l : Nat) (hK : Keeps s₀ s₁) :
    Keeps s₀ (unpinLayer l s₁) := by
  unfold unpinLayer
  repeat' (first
    | with_reducible exact hK
    | with_reducible assumption
    | with_reducible apply mapTiles_keeps
    | fail_if_no_progress with_reducible refine Keeps.lit ?_ rfl rfl rfl rfl
    | split
    | dsimp only)

theorem replaceLayer_keeps {s₀ s₁ : State} (i : Slot) (l : Nat) (m : Model) (w : Swap) (hK : Keeps s₀ s₁) :
    Keeps s₀ (replaceLayer i l m w s₁) := by
  unfold replaceLayer
  repeat' (first
    | with_reducible exact hK
    | with_reducible assumption
    | with_reducible refine foldl_keeps ?_ (fun _ _ _ => ?_)
    | with_reducible refine foldl_fst_keeps ?_ (fun _ _ _ => ?_)
    | with_reducible apply modModel_keeps
    | with_reducible apply unpackShard_keeps
    | with_reducible apply paceSwap_keeps
    | with_reducible apply finishSwap_keeps
    | with_reducible apply unpinLayer_keeps
    | fail_if_no_progress with_reducible refine Keeps.lit ?_ rfl rfl rfl rfl
    | split
    | dsimp only)

theorem tryReplace_keeps {s₀ s₁ : State} (i : Slot) (hK : Keeps s₀ s₁) :
    Keeps s₀ (tryReplace s₁ i) := by
  unfold tryReplace
  repeat' (first
    | with_reducible exact hK
    | with_reducible assumption
    | with_reducible apply replaceLayer_keeps
    | fail_if_no_progress with_reducible refine Keeps.lit ?_ rfl rfl rfl rfl
    | split)

theorem execSwapLayerReplace_keeps {s₀ s₁ : State}  (hK : Keeps s₀ s₁) :
    ∃ s₂, execSwapLayerReplace s₁ = .next s₂ ∧ Keeps s₀ s₂ := by
  refine ⟨_, rfl, ?_⟩
  repeat' (first
    | with_reducible exact hK
    | with_reducible assumption
    | with_reducible refine foldl_keeps ?_ (fun _ _ _ => ?_)
    | with_reducible refine foldl_fst_keeps ?_ (fun _ _ _ => ?_)
    | with_reducible apply tryReplace_keeps)

theorem sendPatch_keeps {s₀ s₁ : State} (i : Slot) (sh off : Nat) (v : BitVec 32) (ordinal : Nat) (pt : Bytes) (hK : Keeps s₀ s₁) :
    Keeps s₀ (sendPatch i sh off v ordinal pt s₁) := by
  unfold sendPatch
  repeat' (first
    | with_reducible exact hK
    | with_reducible assumption
    | with_reducible apply modModel_keeps
    | with_reducible apply sendOnPlane_keeps
    | fail_if_no_progress with_reducible refine Keeps.lit ?_ rfl rfl rfl rfl
    | split)

theorem ackPatch_keeps {s₀ s₁ : State} (h : SvcHdr) (i : Slot) (hK : Keeps s₀ s₁) :
    Keeps s₀ (ackPatch h s₁ i) := by
  unfold ackPatch
  repeat' (first
    | with_reducible exact hK
    | with_reducible assumption
    | with_reducible apply modModel_keeps)

theorem execShardAck_keeps {s₀ s₁ : State} (p : PortId) (msg : ShardMsg) (hK : Keeps s₀ s₁) :
    ∃ s₂, execShardAck p msg s₁ = .next s₂ ∧ Keeps s₀ s₂ := by
  refine ⟨_, rfl, ?_⟩
  repeat' (first
    | with_reducible exact hK
    | with_reducible assumption
    | with_reducible refine foldl_keeps ?_ (fun _ _ _ => ?_)
    | with_reducible refine foldl_fst_keeps ?_ (fun _ _ _ => ?_)
    | with_reducible apply discardSvc_keeps
    | with_reducible apply ackPatch_keeps
    | fail_if_no_progress with_reducible refine Keeps.lit ?_ rfl rfl rfl rfl
    | split
    | dsimp only)

theorem endStep_keeps {s₀ s₁ : State} (i : Slot) (code : Code) (hK : Keeps s₀ s₁) :
    Keeps s₀ (endStep i code s₁) := by
  unfold endStep
  repeat' (first
    | with_reducible exact hK
    | with_reducible assumption
    | with_reducible apply endPass_keeps
    | with_reducible apply endReduction_keeps
    | with_reducible apply modModel_keeps)

theorem resendPatch_keeps {s₀ s₁ : State} (i : Slot) (m : Model) (p : PatchHold) (hK : Keeps s₀ s₁) :
    Keeps s₀ (resendPatch i m p s₁) := by
  unfold resendPatch
  repeat' (first
    | with_reducible exact hK
    | with_reducible assumption
    | with_reducible apply modModel_keeps
    | with_reducible apply shardEvent_keeps
    | with_reducible apply sendOnPlane_keeps
    | with_reducible apply endStep_keeps
    | fail_if_no_progress with_reducible refine Keeps.lit ?_ rfl rfl rfl rfl
    | split)

theorem execPatchAckTimeout_keeps {s₀ s₁ : State} (sh off : Nat) (hK : Keeps s₀ s₁) :
    ∃ s₂, execPatchAckTimeout sh off s₁ = .next s₂ ∧ Keeps s₀ s₂ := by
  refine ⟨_, rfl, ?_⟩
  repeat' (first
    | with_reducible exact hK
    | with_reducible assumption
    | with_reducible apply resendPatch_keeps
    | fail_if_no_progress with_reducible refine Keeps.lit ?_ rfl rfl rfl rfl
    | split)

end Sys2Proof.Machine
end

