-- ==== Sys2Proof/Laws/KeepsFaults.lean ====
section
/-! SUPPORT. What the operations and commands of Faults keep (Laws/Keeps.lean). -/

namespace Sys2Proof.Machine

set_option linter.all false
set_option Elab.async false

open Sys2Proof

theorem startTest_keeps {s₀ s₁ : State} (p : Part) (code : Code) (since : Nat) (hK : Keeps s₀ s₁)
    (hr : s₁.selfTest.running.length < 16) : Keeps s₀ (startTest p code since s₁) := by
  unfold startTest
  extract_lets src s₂
  have h2 : Keeps s₀ s₂ := by
    refine Keeps.litAny hK id id rfl id fun _ => ?_
    show (s₁.selfTest.running ++ [(p, code)]).length ≤ 16
    simp only [List.length_append, List.length_cons, List.length_nil]
    omega
  clear_value s₂
  split
  · exact report_keeps _ h2
  · exact h2

theorem execSelfTestStart_keeps {s₀ s₁ : State} (p : Part) (hK : Keeps s₀ s₁) :
    ∃ s₂, execSelfTestStart p s₁ = .next s₂ ∧ Keeps s₀ s₂ := by
  refine ⟨_, rfl, ?_⟩
  split
  · split
    · rename_i hg
      simp only [Bool.and_eq_true, decide_eq_true_eq] at hg
      exact startTest_keeps _ _ _ hK hg.1.2
    · exact hK
  · exact hK

theorem testPassed_keeps {s₀ s₁ : State} (p : Part) (code : BitVec 16) (hK : Keeps s₀ s₁) :
    Keeps s₀ (testPassed p code s₁) := by
  unfold testPassed
  repeat' (first
    | with_reducible exact hK
    | with_reducible assumption
    | with_reducible apply report_keeps
    | with_reducible apply lastingFault_keeps
    | fail_if_no_progress with_reducible refine Keeps.lit ?_ rfl rfl rfl rfl
    | split
    | dsimp only)

theorem retireSensor_keeps {s₀ s₁ : State} (p : Part) (k : Nat) (hK : Keeps s₀ s₁) :
    Keeps s₀ (retireSensor p s₁ k) := by
  unfold retireSensor
  repeat' (first
    | with_reducible exact hK
    | with_reducible assumption
    | with_reducible apply retireHotSensor_keeps
    | with_reducible apply retireTileSensor_keeps
    | fail_if_no_progress with_reducible refine Keeps.lit ?_ rfl rfl rfl rfl
    | split)

theorem testEnds_keeps {s₀ s₁ : State} (p : Part) (code : BitVec 16) (x : TestFinding) (hK : Keeps s₀ s₁) :
    Keeps s₀ (testEnds p code x s₁) := by
  unfold testEnds
  repeat' (first
    | with_reducible exact hK
    | with_reducible assumption
    | with_reducible refine foldl_keeps ?_ (fun _ _ _ => ?_)
    | with_reducible refine foldl_fst_keeps ?_ (fun _ _ _ => ?_)
    | with_reducible apply report_keeps
    | with_reducible apply failTrack_keeps
    | with_reducible apply lastingFault_keeps
    | with_reducible apply testPassed_keeps
    | with_reducible apply retireSensor_keeps
    | fail_if_no_progress with_reducible refine Keeps.lit ?_ rfl rfl rfl rfl
    | split)

theorem execSelfTestResult_keeps {s₀ s₁ : State} (p : Part) (x : TestFinding) (hK : Keeps s₀ s₁) :
    ∃ s₂, execSelfTestResult p x s₁ = .next s₂ ∧ Keeps s₀ s₂ := by
  refine ⟨_, rfl, ?_⟩
  split
  · split
    · exact hK
    · exact testEnds_keeps _ _ _ (Keeps.litAny hK id id rfl id fun hr =>
        Nat.le_trans (List.length_filter_le _ _) hr)
  · exact hK

theorem failStored_keeps {s₀ s₁ : State} (i : Slot) (beside : Bool) (sh : Nat) (hK : Keeps s₀ s₁) :
    Keeps s₀ (failStored i beside sh s₁) := by
  unfold failStored
  repeat' (first
    | with_reducible exact hK
    | with_reducible assumption
    | with_reducible apply endPass_keeps
    | with_reducible apply modFetch_keeps
    | with_reducible apply request_keeps
    | fail_if_no_progress with_reducible refine Keeps.lit ?_ rfl rfl rfl rfl
    | split
    | dsimp only)

theorem loseMasters_keeps {s₀ s₁ : State}  (hK : Keeps s₀ s₁) :
    Keeps s₀ (loseMasters s₁) := by
  unfold loseMasters
  repeat' (first
    | with_reducible exact hK
    | with_reducible assumption
    | with_reducible apply endPass_keeps
    | with_reducible apply endReduction_keeps
    | with_reducible apply leaveStep_keeps
    | fail_if_no_progress with_reducible refine Keeps.lit ?_ rfl rfl rfl rfl
    | split)

theorem poisonedTensor_keeps {s₀ s₁ : State} (t : Nat) (hK : Keeps s₀ s₁) :
    Keeps s₀ (poisonedTensor t s₁) := by
  unfold poisonedTensor
  repeat' (first
    | with_reducible exact hK
    | with_reducible assumption
    | with_reducible apply endPass_keeps
    | with_reducible apply faultTile_keeps
    | fail_if_no_progress with_reducible refine Keeps.lit ?_ rfl rfl rfl rfl
    | split)

theorem poisonedStack_keeps {s₀ s₁ : State} (content : Fin 6) (index : Nat) (reading : Bool) (hK : Keeps s₀ s₁) :
    Keeps s₀ (poisonedStack content index reading s₁) := by
  unfold poisonedStack
  repeat' (first
    | with_reducible exact hK
    | with_reducible assumption
    | with_reducible apply zeroMem_keeps
    | with_reducible apply endPass_keeps
    | with_reducible apply failStored_keeps
    | with_reducible apply loseMasters_keeps
    | with_reducible apply poisonedTensor_keeps
    | fail_if_no_progress with_reducible refine Keeps.lit ?_ rfl rfl rfl rfl
    | split)

theorem meetError_keeps {s₀ s₁ : State} (x : ScrubFinding) (reading : Bool) (hK : Keeps s₀ s₁) :
    Keeps s₀ (meetError x reading s₁) := by
  unfold meetError
  repeat' (first
    | with_reducible exact hK
    | with_reducible assumption
    | with_reducible apply report_keeps
    | with_reducible apply faultTile_keeps
    | with_reducible apply detect_keeps
    | with_reducible apply poisonedStack_keeps
    | fail_if_no_progress with_reducible refine Keeps.lit ?_ rfl rfl rfl rfl
    | split)

theorem scrubRead_keeps {s₀ s₁ : State} (x : ScrubFinding) (hK : Keeps s₀ s₁) :
    Keeps s₀ (scrubRead x s₁) := by
  unfold scrubRead
  repeat' (first
    | with_reducible exact hK
    | with_reducible assumption
    | with_reducible apply doneWork_keeps
    | with_reducible apply meetError_keeps
    | fail_if_no_progress with_reducible refine Keeps.lit ?_ rfl rfl rfl rfl
    | split
    | dsimp only)

theorem execBackgroundScrub_keeps {s₀ s₁ : State} (x : ScrubFinding) (hK : Keeps s₀ s₁) :
    ∃ s₂, execBackgroundScrub x s₁ = .next s₂ ∧ Keeps s₀ s₂ := by
  refine ⟨_, rfl, ?_⟩
  repeat' (first
    | with_reducible exact hK
    | with_reducible assumption
    | with_reducible refine when'_keeps _ ?_ (fun _ _ => ?_)
    | with_reducible apply scrubRead_keeps
    | fail_if_no_progress with_reducible refine Keeps.lit ?_ rfl rfl rfl rfl
    | split
    | dsimp only)

theorem recheckStack_keeps {s₀ s₁ : State} (i : Slot) (m : Model) (l : Nat) (hK : Keeps s₀ s₁) :
    Keeps s₀ (recheckStack i m l s₁) := by
  unfold recheckStack
  repeat' (first
    | with_reducible exact hK
    | with_reducible assumption
    | with_reducible refine foldl_keeps ?_ (fun _ _ _ => ?_)
    | with_reducible refine foldl_fst_keeps ?_ (fun _ _ _ => ?_)
    | with_reducible apply failStored_keeps
    | fail_if_no_progress with_reducible refine Keeps.lit ?_ rfl rfl rfl rfl
    | split)

theorem unpinArea_keeps {s₀ s₁ : State} (area : Nat) (hK : Keeps s₀ s₁) :
    Keeps s₀ (unpinArea area s₁) := by
  unfold unpinArea
  repeat' (first
    | with_reducible exact hK
    | with_reducible assumption
    | with_reducible apply mapTiles_keeps
    | fail_if_no_progress with_reducible refine Keeps.lit ?_ rfl rfl rfl rfl
    | split
    | dsimp only)

theorem areaMismatch_keeps {s₀ s₁ : State} (i : Slot) (y : Site) (m : Model) (area sh : Nat) (hK : Keeps s₀ s₁) :
    Keeps s₀ (areaMismatch i y m area sh s₁) := by
  unfold areaMismatch
  repeat' (first
    | with_reducible exact hK
    | with_reducible assumption
    | with_reducible refine foldl_keeps ?_ (fun _ _ _ => ?_)
    | with_reducible refine foldl_fst_keeps ?_ (fun _ _ _ => ?_)
    | with_reducible apply faultRegions_keeps
    | with_reducible apply detect_keeps
    | with_reducible apply shardEvent_keeps
    | with_reducible apply recheckStack_keeps
    | with_reducible apply unpinArea_keeps
    | fail_if_no_progress with_reducible refine Keeps.lit ?_ rfl rfl rfl rfl
    | split
    | dsimp only)

theorem recheckArea_keeps {s₀ s₁ : State} (i : Slot) (y : Site) (m : Model) (area : Nat) (hK : Keeps s₀ s₁) :
    Keeps s₀ (recheckArea i y m area s₁) := by
  unfold recheckArea
  repeat' (first
    | with_reducible exact hK
    | with_reducible assumption
    | with_reducible apply areaMismatch_keeps
    | fail_if_no_progress with_reducible refine Keeps.lit ?_ rfl rfl rfl rfl
    | split
    | dsimp only)

theorem execDeckWeightRecheck_keeps {s₀ s₁ : State} (area : BitVec 16) (hK : Keeps s₀ s₁) :
    ∃ s₂, execDeckWeightRecheck area s₁ = .next s₂ ∧ Keeps s₀ s₂ := by
  refine ⟨_, rfl, ?_⟩
  repeat' (first
    | with_reducible exact hK
    | with_reducible assumption
    | with_reducible apply doneWork_keeps
    | with_reducible apply recheckArea_keeps
    | fail_if_no_progress with_reducible refine Keeps.lit ?_ rfl rfl rfl rfl
    | split
    | dsimp only)

theorem recheckHold_keeps {s₀ s₁ : State} (i : Slot) (sh : Nat) (beside : Bool) (hK : Keeps s₀ s₁) :
    Keeps s₀ (recheckHold i sh s₁ beside) := by
  unfold recheckHold
  repeat' (first
    | with_reducible exact hK
    | with_reducible assumption
    | with_reducible apply shardEvent_keeps
    | with_reducible apply request_keeps
    | with_reducible apply failStored_keeps
    | fail_if_no_progress with_reducible refine Keeps.lit ?_ rfl rfl rfl rfl
    | split
    | dsimp only)

theorem recheckShard_keeps {s₀ s₁ : State} (i : Slot) (sh : Nat) (hK : Keeps s₀ s₁) :
    Keeps s₀ (recheckShard i sh s₁) := by
  unfold recheckShard
  repeat' (first
    | with_reducible exact hK
    | with_reducible assumption
    | with_reducible refine foldl_keeps ?_ (fun _ _ _ => ?_)
    | with_reducible refine foldl_fst_keeps ?_ (fun _ _ _ => ?_)
    | with_reducible apply modModel_keeps
    | with_reducible apply recheckHold_keeps
    | fail_if_no_progress with_reducible refine Keeps.lit ?_ rfl rfl rfl rfl
    | split
    | dsimp only)

theorem execModelStoreRecheck_keeps {s₀ s₁ : State} (i : Slot) (sh : Nat) (hK : Keeps s₀ s₁) :
    ∃ s₂, execModelStoreRecheck i sh s₁ = .next s₂ ∧ Keeps s₀ s₂ := by
  refine ⟨_, rfl, ?_⟩
  repeat' (first
    | with_reducible exact hK
    | with_reducible assumption
    | with_reducible refine when'_keeps _ ?_ (fun _ _ => ?_)
    | with_reducible apply doneWork_keeps
    | with_reducible apply recheckShard_keeps
    | fail_if_no_progress with_reducible refine Keeps.lit ?_ rfl rfl rfl rfl
    | split
    | dsimp only)

theorem execHeartbeatSend_keeps {s₀ s₁ : State} (t : TileId) (hK : Keeps s₀ s₁) :
    ∃ s₂, execHeartbeatSend t s₁ = .next s₂ ∧ Keeps s₀ s₂ := by
  refine ⟨_, rfl, ?_⟩
  repeat' (first
    | with_reducible exact hK
    | with_reducible assumption
    | with_reducible refine when'_keeps _ ?_ (fun _ _ => ?_)
    | with_reducible apply sendHeartbeat_keeps
    | fail_if_no_progress with_reducible refine Keeps.lit ?_ rfl rfl rfl rfl
    | split
    | dsimp only)

theorem noteBeat_keeps {s₀ s₁ : State} (t : TileId) (r : Fin 5) (st : HbState) (hK : Keeps s₀ s₁) :
    Keeps s₀ (noteBeat t r st s₁) := by
  unfold noteBeat
  repeat' (first
    | with_reducible exact hK
    | with_reducible assumption
    | with_reducible apply modTile_keeps
    | with_reducible apply modLink_keeps
    | fail_if_no_progress with_reducible refine Keeps.lit ?_ rfl rfl rfl rfl
    | split
    | dsimp only)

theorem execHeartbeatReceive_keeps {s₀ s₁ : State} (h : HbPath) (st : HbState) (hK : Keeps s₀ s₁) :
    ∃ s₂, execHeartbeatReceive h st s₁ = .next s₂ ∧ Keeps s₀ s₂ := by
  refine ⟨_, rfl, ?_⟩
  repeat' (first
    | with_reducible exact hK
    | with_reducible assumption
    | with_reducible refine when'_keeps _ ?_ (fun _ _ => ?_)
    | with_reducible apply noteBeat_keeps
    | fail_if_no_progress with_reducible refine Keeps.lit ?_ rfl rfl rfl rfl
    | split
    | dsimp only)

theorem silence_keeps {s₀ s₁ : State} (t : TileId) (r : Fin 5) (hK : Keeps s₀ s₁) :
    Keeps s₀ (silence t r s₁) := by
  unfold silence
  repeat' (first
    | with_reducible exact hK
    | with_reducible assumption
    | with_reducible apply modTile_keeps
    | with_reducible apply report_keeps
    | with_reducible apply faultTile_keeps
    | with_reducible apply detect_keeps
    | fail_if_no_progress with_reducible refine Keeps.lit ?_ rfl rfl rfl rfl
    | split
    | dsimp only)

theorem execTileSilent_keeps {s₀ s₁ : State} (h : HbPath) (hK : Keeps s₀ s₁) :
    ∃ s₂, execTileSilent h s₁ = .next s₂ ∧ Keeps s₀ s₂ := by
  refine ⟨_, rfl, ?_⟩
  repeat' (first
    | with_reducible exact hK
    | with_reducible assumption
    | with_reducible refine when'_keeps _ ?_ (fun _ _ => ?_)
    | with_reducible apply silence_keeps
    | fail_if_no_progress with_reducible refine Keeps.lit ?_ rfl rfl rfl rfl
    | split
    | dsimp only)

theorem crcError_keeps {s₀ s₁ : State} (l : LinkDir) (seq : BitVec 6) (hK : Keeps s₀ s₁) :
    Keeps s₀ (crcError l seq s₁) := by
  unfold crcError
  repeat' (first
    | with_reducible exact hK
    | with_reducible assumption
    | with_reducible apply emit_keeps
    | with_reducible apply modLink_keeps
    | fail_if_no_progress with_reducible refine Keeps.lit ?_ rfl rfl rfl rfl
    | split
    | dsimp only)

theorem execMeshCrcError_keeps {s₀ s₁ : State} (l : LinkDir) (wires : BitVec 578) (hK : Keeps s₀ s₁) :
    ∃ s₂, execMeshCrcError l wires s₁ = .next s₂ ∧ Keeps s₀ s₂ := by
  refine ⟨_, rfl, ?_⟩
  repeat' (first
    | with_reducible exact hK
    | with_reducible assumption
    | with_reducible refine when'_keeps _ ?_ (fun _ _ => ?_)
    | with_reducible apply crcError_keeps
    | fail_if_no_progress with_reducible refine Keeps.lit ?_ rfl rfl rfl rfl
    | split
    | dsimp only)

theorem replayFlit_keeps {s₀ s₁ : State} (l : LinkDir) (seq : BitVec 6) (hK : Keeps s₀ s₁) :
    Keeps s₀ (replayFlit l seq s₁) := by
  unfold replayFlit
  repeat' (first
    | with_reducible exact hK
    | with_reducible assumption
    | with_reducible refine foldl_keeps ?_ (fun _ _ _ => ?_)
    | with_reducible refine foldl_fst_keeps ?_ (fun _ _ _ => ?_)
    | with_reducible apply emit_keeps
    | with_reducible apply report_keeps
    | with_reducible apply modLink_keeps
    | with_reducible apply detect_keeps
    | with_reducible apply linkDown_keeps
    | fail_if_no_progress with_reducible refine Keeps.lit ?_ rfl rfl rfl rfl
    | split
    | dsimp only)

theorem execMeshReplayReq_keeps {s₀ s₁ : State} (l : LinkDir) (seq : BitVec 6) (hK : Keeps s₀ s₁) :
    ∃ s₂, execMeshReplayReq l seq s₁ = .next s₂ ∧ Keeps s₀ s₂ := by
  refine ⟨_, rfl, ?_⟩
  repeat' (first
    | with_reducible exact hK
    | with_reducible assumption
    | with_reducible refine when'_keeps _ ?_ (fun _ _ => ?_)
    | with_reducible apply replayFlit_keeps)

end Sys2Proof.Machine
end

