-- ==== Sys2Proof/Laws/KeepsKernels.lean ====
section
/-! SUPPORT. What the operations and commands of Kernels keep (Laws/Keeps.lean). -/

namespace Sys2Proof.Machine

set_option linter.all false
set_option Elab.async false

open Sys2Proof

theorem foldl_mem_wf {β : Type} {f : Work → β → Work} {l : List β} {p : Work} (h : Memory.wf p.mem)
    (hf : ∀ b p, Memory.wf p.mem → Memory.wf (f p b).mem) : Memory.wf (l.foldl f p).mem := by
  induction l generalizing p with
  | nil => exact h
  | cons a r ih => exact ih (hf a p h)

theorem Work.write_wf (y : Site) (here : Placement → Bool) (r : Rounding) (t : Tensor) (l : List (Nat × Num)) (w : Work) (hM : Memory.wf w.mem) :
    Memory.wf (Work.write y here r t l w).mem := by
  unfold Work.write
  repeat' (first
    | with_reducible exact hM
    | with_reducible assumption
    | with_reducible apply writeBytes_wf
    | with_reducible apply writeByte_wf
    | with_reducible apply writeNums_wf)

theorem Work.note_wf (xs : List Elem) (n : Nat) (w : Work) (hM : Memory.wf w.mem) :
    Memory.wf (Work.note xs n w).mem := by
  unfold Work.note
  repeat' (first
    | with_reducible exact hM)

theorem drainOut_wf (v : Env) (out : Tensor) (n : Nat) (xs : List Elem) (w : Work) (hM : Memory.wf w.mem) :
    Memory.wf (drainOut v out n xs w).mem := by
  unfold drainOut
  repeat' (first
    | with_reducible exact hM
    | with_reducible assumption
    | with_reducible apply writeBytes_wf
    | with_reducible apply writeByte_wf
    | with_reducible apply writeElem_wf
    | with_reducible apply writeNums_wf
    | with_reducible apply Work.write_wf
    | with_reducible refine foldl_wf ?_ (fun _ _ _ => ?_)
    | with_reducible refine foldl_fst_wf ?_ (fun _ _ _ => ?_)
    | with_reducible refine foldl_mem_wf ?_ (fun _ _ _ => ?_)
    | split
    | dsimp only)

theorem productWork_wf (v : Env) (m : List Host.Cell) (hM : Memory.wf m) :
    Memory.wf (productWork v m).mem := by
  unfold productWork
  repeat' (first
    | with_reducible exact hM
    | with_reducible assumption
    | with_reducible apply writeBytes_wf
    | with_reducible apply writeByte_wf
    | with_reducible apply Work.note_wf
    | with_reducible apply drainOut_wf
    | with_reducible refine foldl_wf ?_ (fun _ _ _ => ?_)
    | with_reducible refine foldl_fst_wf ?_ (fun _ _ _ => ?_)
    | with_reducible refine foldl_mem_wf ?_ (fun _ _ _ => ?_)
    | split)

theorem Work.noteDrains_wf (xs : List Elem) (n : Nat) (w : Work) (hM : Memory.wf w.mem) :
    Memory.wf (Work.noteDrains xs n w).mem := by
  unfold Work.noteDrains
  repeat' (first
    | with_reducible exact hM
    | with_reducible assumption
    | with_reducible apply writeBytes_wf
    | with_reducible apply writeByte_wf
    | with_reducible apply Work.note_wf
    | with_reducible refine foldl_wf ?_ (fun _ _ _ => ?_)
    | with_reducible refine foldl_fst_wf ?_ (fun _ _ _ => ?_)
    | with_reducible refine foldl_mem_wf ?_ (fun _ _ _ => ?_)
    | split
    | dsimp only)

theorem Work.writeTo_wf (y : Site) (here : Placement → Bool) (r : Rounding) (t : Option Tensor) (l : List (Nat × Num)) (w : Work) (hM : Memory.wf w.mem) :
    Memory.wf (Work.writeTo y here r t l w).mem := by
  unfold Work.writeTo
  repeat' (first
    | with_reducible exact hM
    | with_reducible assumption
    | with_reducible apply writeBytes_wf
    | with_reducible apply writeByte_wf
    | with_reducible apply Work.write_wf
    | with_reducible refine foldl_wf ?_ (fun _ _ _ => ?_)
    | with_reducible refine foldl_fst_wf ?_ (fun _ _ _ => ?_)
    | with_reducible refine foldl_mem_wf ?_ (fun _ _ _ => ?_)
    | split)

theorem normWork_wf (v : Env) (rms : Bool) (m : List Host.Cell) (hM : Memory.wf m) :
    Memory.wf (normWork v rms m).mem := by
  unfold normWork
  repeat' (first
    | with_reducible exact hM
    | with_reducible assumption
    | with_reducible apply writeBytes_wf
    | with_reducible apply writeByte_wf
    | with_reducible apply Work.write_wf
    | with_reducible apply Work.writeTo_wf
    | with_reducible refine foldl_wf ?_ (fun _ _ _ => ?_)
    | with_reducible refine foldl_fst_wf ?_ (fun _ _ _ => ?_)
    | with_reducible refine foldl_mem_wf ?_ (fun _ _ _ => ?_)
    | split)

theorem softmaxWork_wf (v : Env) (m : List Host.Cell) (hM : Memory.wf m) :
    Memory.wf (softmaxWork v m).mem := by
  unfold softmaxWork
  repeat' (first
    | with_reducible exact hM
    | with_reducible assumption
    | with_reducible apply writeBytes_wf
    | with_reducible apply writeByte_wf
    | with_reducible apply Work.write_wf
    | with_reducible apply Work.writeTo_wf
    | with_reducible refine foldl_wf ?_ (fun _ _ _ => ?_)
    | with_reducible refine foldl_fst_wf ?_ (fun _ _ _ => ?_)
    | with_reducible refine foldl_mem_wf ?_ (fun _ _ _ => ?_)
    | split)

theorem mapWork_wf (v : Env) (m : List Host.Cell) (hM : Memory.wf m) :
    Memory.wf (mapWork v m).mem := by
  unfold mapWork
  repeat' (first
    | with_reducible exact hM
    | with_reducible assumption
    | with_reducible apply writeBytes_wf
    | with_reducible apply writeByte_wf
    | with_reducible apply Work.write_wf
    | with_reducible refine foldl_wf ?_ (fun _ _ _ => ?_)
    | with_reducible refine foldl_fst_wf ?_ (fun _ _ _ => ?_)
    | with_reducible refine foldl_mem_wf ?_ (fun _ _ _ => ?_)
    | split)

theorem reduceWork_wf (v : Env) (m : List Host.Cell) (hM : Memory.wf m) :
    Memory.wf (reduceWork v m).mem := by
  unfold reduceWork
  repeat' (first
    | with_reducible exact hM
    | with_reducible assumption
    | with_reducible apply writeBytes_wf
    | with_reducible apply writeByte_wf
    | with_reducible apply Work.write_wf
    | with_reducible refine foldl_wf ?_ (fun _ _ _ => ?_)
    | with_reducible refine foldl_fst_wf ?_ (fun _ _ _ => ?_)
    | with_reducible refine foldl_mem_wf ?_ (fun _ _ _ => ?_)
    | split)

theorem vectorWork_wf (v : Env) (m : List Host.Cell) (hM : Memory.wf m) :
    Memory.wf (vectorWork v m).mem := by
  unfold vectorWork
  repeat' (first
    | with_reducible exact hM
    | with_reducible assumption
    | with_reducible apply writeBytes_wf
    | with_reducible apply writeByte_wf
    | with_reducible apply normWork_wf
    | with_reducible apply softmaxWork_wf
    | with_reducible apply mapWork_wf
    | with_reducible apply reduceWork_wf
    | with_reducible refine foldl_wf ?_ (fun _ _ _ => ?_)
    | with_reducible refine foldl_fst_wf ?_ (fun _ _ _ => ?_)
    | with_reducible refine foldl_mem_wf ?_ (fun _ _ _ => ?_)
    | split)

theorem fusedWork_wf (v : Env) (m : List Host.Cell) (hM : Memory.wf m) :
    Memory.wf (fusedWork v m).mem := by
  unfold fusedWork
  repeat' (first
    | with_reducible exact hM
    | with_reducible assumption
    | with_reducible apply writeBytes_wf
    | with_reducible apply writeByte_wf
    | with_reducible apply Work.noteDrains_wf
    | with_reducible apply Work.writeTo_wf
    | with_reducible refine foldl_wf ?_ (fun _ _ _ => ?_)
    | with_reducible refine foldl_fst_wf ?_ (fun _ _ _ => ?_)
    | with_reducible refine foldl_mem_wf ?_ (fun _ _ _ => ?_)
    | split
    | dsimp only)

theorem attnBlock_wf (v : Env) (rows : List Word) (mem : List Host.Cell) (hM : Memory.wf mem) :
    Memory.wf (attnBlock v rows mem).1.mem := by
  unfold attnBlock
  repeat' (first
    | with_reducible exact hM
    | with_reducible assumption
    | with_reducible apply writeBytes_wf
    | with_reducible apply writeByte_wf
    | with_reducible apply Work.noteDrains_wf
    | with_reducible apply Work.writeTo_wf
    | with_reducible refine foldl_wf ?_ (fun _ _ _ => ?_)
    | with_reducible refine foldl_fst_wf ?_ (fun _ _ _ => ?_)
    | with_reducible refine foldl_mem_wf ?_ (fun _ _ _ => ?_)
    | split
    | dsimp only)

theorem attnFinish_wf (v : Env) (rows : List AttnRow) (w : Work) (hM : Memory.wf w.mem) :
    Memory.wf (attnFinish v rows w).mem := by
  unfold attnFinish
  repeat' (first
    | with_reducible exact hM
    | with_reducible assumption
    | with_reducible apply writeBytes_wf
    | with_reducible apply writeByte_wf
    | with_reducible apply Work.write_wf
    | with_reducible apply Work.writeTo_wf
    | with_reducible refine foldl_wf ?_ (fun _ _ _ => ?_)
    | with_reducible refine foldl_fst_wf ?_ (fun _ _ _ => ?_)
    | with_reducible refine foldl_mem_wf ?_ (fun _ _ _ => ?_)
    | split)

end Sys2Proof.Machine
end

