-- ==== Sys2Proof/Laws/KeepsEncode.lean ====
section
/-! SUPPORT. What the operations and commands of Encode keep (Laws/Keeps.lean). -/

namespace Sys2Proof.Machine

set_option linter.all false
set_option Elab.async false

open Sys2Proof

theorem putScale_wf (y : Site) (t : Tensor) (step : BitVec 32) (g : Nat) (e : Int) (m : List Host.Cell) (hM : Memory.wf m) :
    Memory.wf (putScale y t step g e m) := by
  unfold putScale
  repeat' (first
    | with_reducible exact hM
    | with_reducible assumption
    | with_reducible apply writeBytes_wf
    | with_reducible apply writeByte_wf
    | with_reducible apply writeElem_wf)

theorem dropBounced_keeps {s₀ s₁ : State} (i : Slot) (g : Nat) (hK : Keeps s₀ s₁) :
    Keeps s₀ (dropBounced i g s₁) := by
  unfold dropBounced
  repeat' (first
    | with_reducible exact hK
    | with_reducible assumption
    | with_reducible refine modCtx_keeps _ ?_ (fun _ hc => hc)
    | with_reducible refine modCtx_keeps _ ?_ (fun _ hc => (by revert hc; dsimp only; (repeat' split) <;> first | exact id | exact fun hc => nomatch hc))
    | fail_if_no_progress with_reducible refine Keeps.lit ?_ rfl rfl rfl rfl
    | split
    | dsimp only)

theorem errStore_keeps {s₀ s₁ : State} (y : Site) (t : Tensor) (pos : Nat) (xs : List Num) (hK : Keeps s₀ s₁) :
    Keeps s₀ (errStore y t pos xs s₁) := by
  unfold errStore
  exact Keeps.litMem hK (fun hm => writeState_wf _ _ _ _ hm) rfl rfl rfl rfl

theorem freePool_keeps {s₀ s₁ : State} (i : Slot) (t : Tensor) (g : Nat) (hK : Keeps s₀ s₁) :
    Keeps s₀ (freePool i t g s₁) := by
  unfold freePool
  repeat' (first
    | with_reducible exact hK
    | with_reducible assumption
    | with_reducible refine modCtx_keeps _ ?_ (fun _ hc => hc))

theorem errClear_keeps {s₀ s₁ : State} (i : Slot) (y : Site) (b : WireBlock) (e : ErrMem) (hK : Keeps s₀ s₁) :
    Keeps s₀ (errClear i y b e s₁) := by
  unfold errClear
  repeat' (first
    | with_reducible exact hK
    | with_reducible assumption
    | with_reducible apply dropBounced_keeps
    | with_reducible apply errStore_keeps
    | with_reducible apply freePool_keeps
    | fail_if_no_progress with_reducible refine Keeps.lit ?_ rfl rfl rfl rfl
    | split
    | dsimp only)

theorem dropFold_keeps {s₀ s₁ : State} (quiet : Bool) (i : Slot) (b : WireBlock) (hK : Keeps s₀ s₁) :
    Keeps s₀ (dropFold quiet i b s₁) := by
  unfold dropFold
  repeat' (first
    | with_reducible exact hK
    | with_reducible assumption
    | with_reducible apply report_keeps
    | fail_if_no_progress with_reducible refine Keeps.lit ?_ rfl rfl rfl rfl
    | split
    | dsimp only)

theorem foldSlot_keeps {s₀ s₁ : State} (quiet : Bool) (i : Slot) (y : Site) (b : WireBlock) (t : Tensor) (xs : List Num) (hK : Keeps s₀ s₁) :
    Keeps s₀ (foldSlot quiet i y b t xs s₁) := by
  unfold foldSlot
  repeat' (first
    | with_reducible exact hK
    | with_reducible assumption
    | with_reducible refine modCtx_keeps _ ?_ (fun _ hc => hc)
    | with_reducible refine modCtx_keeps _ ?_ (fun _ hc => (by revert hc; dsimp only; (repeat' split) <;> first | exact id | exact fun hc => nomatch hc))
    | with_reducible apply errStore_keeps
    | with_reducible apply dropFold_keeps
    | fail_if_no_progress with_reducible refine Keeps.lit ?_ rfl rfl rfl rfl
    | split
    | dsimp only)

theorem foldBlock_keeps {s₀ s₁ : State} (quiet : Bool) (i : Slot) (y : Site) (b : WireBlock) (e : ErrMem) (xs : List Num) (hK : Keeps s₀ s₁) :
    Keeps s₀ (foldBlock quiet i y b e xs s₁) := by
  unfold foldBlock
  repeat' (first
    | with_reducible exact hK
    | with_reducible assumption
    | with_reducible apply dropBounced_keeps
    | with_reducible apply errStore_keeps
    | with_reducible apply dropFold_keeps
    | with_reducible apply foldSlot_keeps
    | fail_if_no_progress with_reducible refine Keeps.lit ?_ rfl rfl rfl rfl
    | split
    | dsimp only)

theorem addFold_keeps {s₀ s₁ : State} (i : Slot) (y : Site) (b : WireBlock) (e : ErrMem) (xs : List Num) (hK : Keeps s₀ s₁) :
    Keeps s₀ (addFold i y b e xs s₁) := by
  unfold addFold
  repeat' (first
    | with_reducible exact hK
    | with_reducible assumption
    | with_reducible refine modCtx_keeps _ ?_ (fun _ hc => hc)
    | with_reducible refine modCtx_keeps _ ?_ (fun _ hc => (by revert hc; dsimp only; (repeat' split) <;> first | exact id | exact fun hc => nomatch hc))
    | with_reducible apply dropFold_keeps
    | with_reducible apply foldSlot_keeps
    | fail_if_no_progress with_reducible refine Keeps.lit ?_ rfl rfl rfl rfl
    | split
    | dsimp only)

theorem settleErr_keeps {s₀ s₁ : State} (i : Slot) (y : Site) (b : WireBlock) (e : ErrMem) (x : Encoded) (hK : Keeps s₀ s₁) :
    Keeps s₀ (settleErr i y b e x s₁) := by
  unfold settleErr
  repeat' (first
    | with_reducible exact hK
    | with_reducible assumption
    | with_reducible apply dropBounced_keeps
    | with_reducible apply errStore_keeps
    | with_reducible apply freePool_keeps
    | with_reducible apply errClear_keeps
    | with_reducible apply foldBlock_keeps
    | fail_if_no_progress with_reducible refine Keeps.lit ?_ rfl rfl rfl rfl
    | split
    | dsimp only)

theorem stageBytes_wf (y : Site) (here : Placement → Bool) (out : Tensor) (pos : Nat) (b : Bytes) (n : Nat) (m : List Host.Cell) (hM : Memory.wf m) :
    Memory.wf (stageBytes y here out pos b n m) := by
  unfold stageBytes
  repeat' (first
    | with_reducible exact hM
    | with_reducible assumption
    | with_reducible apply writeBytes_wf
    | with_reducible apply writeByte_wf
    | with_reducible apply writeElem_wf
    | with_reducible apply writeSide_wf
    | with_reducible refine foldl_wf ?_ (fun _ _ _ => ?_)
    | with_reducible refine foldl_fst_wf ?_ (fun _ _ _ => ?_)
    | with_reducible refine foldl_mem_wf ?_ (fun _ _ _ => ?_)
    | split
    | dsimp only)

theorem optBlock_wf (s : State) (i : Slot) (v : Env) (md : Model) (red : Reduction) (o : OwnedBlock) (b : WireBlock) (pos : Nat) (w : Work) (hM : Memory.wf w.mem) :
    Memory.wf (optBlock s i v md red o b pos w).mem := by
  unfold optBlock
  repeat' (first
    | with_reducible exact hM
    | with_reducible assumption
    | with_reducible apply writeBytes_wf
    | with_reducible apply writeByte_wf
    | with_reducible apply Work.writeTo_wf
    | with_reducible apply stageBytes_wf
    | with_reducible refine foldl_wf ?_ (fun _ _ _ => ?_)
    | with_reducible refine foldl_fst_wf ?_ (fun _ _ _ => ?_)
    | with_reducible refine foldl_mem_wf ?_ (fun _ _ _ => ?_)
    | split
    | dsimp only)

theorem optimizerWork_wf (s : State) (i : Slot) (v : Env) (hM : Memory.wf s.mem) :
    Memory.wf (optimizerWork s i v).mem := by
  unfold optimizerWork
  repeat' (first
    | with_reducible exact hM
    | with_reducible assumption
    | with_reducible apply writeBytes_wf
    | with_reducible apply writeByte_wf
    | with_reducible apply optBlock_wf
    | with_reducible refine foldl_wf ?_ (fun _ _ _ => ?_)
    | with_reducible refine foldl_fst_wf ?_ (fun _ _ _ => ?_)
    | with_reducible refine foldl_mem_wf ?_ (fun _ _ _ => ?_)
    | split)

end Sys2Proof.Machine
end

