-- ==== Sys2Proof/Laws/KeepsReduce.lean ====
section
/-! SUPPORT. What the operations and commands of Reduce keep (Laws/Keeps.lean). -/

namespace Sys2Proof.Machine

set_option linter.all false
set_option Elab.async false

open Sys2Proof

theorem modRed_keeps {s₀ s₁ : State} (desc : Nat) (f : Reduction → Reduction) (hK : Keeps s₀ s₁) :
    Keeps s₀ (modRed desc f s₁) := by
  unfold modRed
  repeat' (first
    | with_reducible exact hK
    | with_reducible assumption
    | fail_if_no_progress with_reducible refine Keeps.lit ?_ rfl rfl rfl rfl)

theorem collEvent_keeps {s₀ s₁ : State} (code : Code) (desc seq : Nat) (loc : BitVec 32) (hK : Keeps s₀ s₁) :
    Keeps s₀ (collEvent code desc seq loc s₁) := by
  unfold collEvent
  repeat' (first
    | with_reducible exact hK
    | with_reducible assumption
    | with_reducible apply report_keeps)

theorem discardColl_keeps {s₀ s₁ : State} (desc : Nat) (hK : Keeps s₀ s₁) :
    Keeps s₀ (discardColl desc s₁) := by
  unfold discardColl
  repeat' (first
    | with_reducible exact hK
    | with_reducible assumption
    | with_reducible apply report_keeps
    | fail_if_no_progress with_reducible refine Keeps.lit ?_ rfl rfl rfl rfl)

theorem abortRed_keeps {s₀ s₁ : State} (desc : Nat) (code : Code) (hK : Keeps s₀ s₁) :
    Keeps s₀ (abortRed desc code s₁) := by
  unfold abortRed
  repeat' (first
    | with_reducible exact hK
    | with_reducible assumption
    | with_reducible apply sendSymbol_keeps
    | with_reducible apply modRed_keeps
    | fail_if_no_progress with_reducible refine Keeps.lit ?_ rfl rfl rfl rfl
    | split
    | dsimp only)

theorem setAnswer_keeps {s₀ s₁ : State} (desc p : Nat) (a : PlaneAnswer) (try' : Nat) (hK : Keeps s₀ s₁) :
    Keeps s₀ (setAnswer desc p a try' s₁) := by
  unfold setAnswer
  repeat' (first
    | with_reducible exact hK
    | with_reducible assumption
    | with_reducible apply modRed_keeps)

theorem sendOpen_keeps {s₀ s₁ : State} (desc p try' : Nat) (hK : Keeps s₀ s₁) :
    Keeps s₀ (sendOpen desc p try' s₁) := by
  unfold sendOpen
  repeat' (first
    | with_reducible exact hK
    | with_reducible assumption
    | with_reducible apply sendMsg_keeps
    | fail_if_no_progress with_reducible refine Keeps.lit ?_ rfl rfl rfl rfl
    | split)

theorem routeSignal_keeps {s₀ s₁ : State} (route ctr layer : Nat) (hK : Keeps s₀ s₁) :
    Keeps s₀ (routeSignal route ctr layer s₁) := by
  unfold routeSignal
  repeat' (first
    | with_reducible exact hK
    | with_reducible assumption
    | fail_if_no_progress with_reducible refine Keeps.lit ?_ rfl rfl rfl rfl
    | split)

theorem signalOnce_keeps {s₀ s₁ : State} (desc : Nat) (hK : Keeps s₀ s₁) :
    Keeps s₀ (signalOnce desc s₁) := by
  unfold signalOnce
  repeat' (first
    | with_reducible exact hK
    | with_reducible assumption
    | with_reducible apply modRed_keeps
    | with_reducible apply routeSignal_keeps
    | fail_if_no_progress with_reducible refine Keeps.lit ?_ rfl rfl rfl rfl
    | split
    | dsimp only)

theorem sendSignals_keeps {s₀ s₁ : State} (desc : Nat) (hK : Keeps s₀ s₁) :
    Keeps s₀ (sendSignals desc s₁) := by
  unfold sendSignals
  repeat' (first
    | with_reducible exact hK
    | with_reducible assumption
    | with_reducible refine foldl_keeps ?_ (fun _ _ _ => ?_)
    | with_reducible refine foldl_fst_keeps ?_ (fun _ _ _ => ?_)
    | with_reducible apply signalOnce_keeps
    | fail_if_no_progress with_reducible refine Keeps.lit ?_ rfl rfl rfl rfl
    | split)

theorem flushPatches_keeps {s₀ s₁ : State} (i : Slot) (desc : Nat) (hK : Keeps s₀ s₁) :
    Keeps s₀ (flushPatches i desc s₁) := by
  unfold flushPatches
  repeat' (first
    | with_reducible exact hK
    | with_reducible assumption
    | with_reducible refine foldl_keeps ?_ (fun _ _ _ => ?_)
    | with_reducible refine foldl_fst_keeps ?_ (fun _ _ _ => ?_)
    | with_reducible apply sendPatch_keeps
    | with_reducible apply modRed_keeps
    | fail_if_no_progress with_reducible refine Keeps.lit ?_ rfl rfl rfl rfl
    | split)

theorem putNotice_wf (y : Site) (m : Manifest) (n : ScaleNotice) (mem : List Host.Cell) (hM : Memory.wf mem) :
    Memory.wf (putNotice y m n mem) := by
  unfold putNotice
  repeat' (first
    | with_reducible exact hM
    | with_reducible assumption
    | with_reducible apply writeBytes_wf
    | with_reducible apply writeByte_wf
    | with_reducible apply putScale_wf
    | with_reducible refine foldl_wf ?_ (fun _ _ _ => ?_)
    | with_reducible refine foldl_fst_wf ?_ (fun _ _ _ => ?_)
    | split
    | dsimp only)

theorem noticeRun_keeps {s₀ s₁ : State} (i : Slot) (desc run : Nat) (hK : Keeps s₀ s₁) :
    Keeps s₀ (noticeRun i desc run s₁) := by
  unfold noticeRun
  repeat' (first
    | with_reducible exact hK
    | with_reducible assumption
    | with_reducible apply sendMsg_keeps
    | with_reducible apply modRed_keeps
    | with_reducible apply flushPatches_keeps
    | fail_if_no_progress with_reducible refine Keeps.lit ?_ rfl rfl rfl rfl
    | with_reducible refine Keeps.litMem ?_ (filter_wf _ _) rfl rfl rfl rfl
    | with_reducible refine Keeps.litMem ?_ (putNotice_wf _ _ _ _) rfl rfl rfl rfl
    | split)

theorem noticeAll_keeps {s₀ s₁ : State} (i : Slot) (desc : Nat) (hK : Keeps s₀ s₁) :
    Keeps s₀ (noticeAll i desc s₁) := by
  unfold noticeAll
  repeat' (first
    | with_reducible exact hK
    | with_reducible assumption
    | with_reducible refine foldl_keeps ?_ (fun _ _ _ => ?_)
    | with_reducible refine foldl_fst_keeps ?_ (fun _ _ _ => ?_)
    | with_reducible apply noticeRun_keeps
    | fail_if_no_progress with_reducible refine Keeps.lit ?_ rfl rfl rfl rfl
    | split
    | dsimp only)

theorem takeNotice_keeps {s₀ s₁ : State} (n : ScaleNotice) (hK : Keeps s₀ s₁) :
    Keeps s₀ (takeNotice n s₁) := by
  unfold takeNotice
  repeat' (first
    | with_reducible exact hK
    | with_reducible assumption
    | fail_if_no_progress with_reducible refine Keeps.lit ?_ rfl rfl rfl rfl
    | with_reducible refine Keeps.litMem ?_ (filter_wf _ _) rfl rfl rfl rfl
    | with_reducible refine Keeps.litMem ?_ (putNotice_wf _ _ _ _) rfl rfl rfl rfl
    | split)

theorem execScaleNotice_keeps {s₀ s₁ : State} (p : PortId) (n : ScaleNotice) (hK : Keeps s₀ s₁) :
    ∃ s₂, execScaleNotice p n s₁ = .next s₂ ∧ Keeps s₀ s₂ := by
  refine ⟨_, rfl, ?_⟩
  repeat' (first
    | with_reducible exact hK
    | with_reducible assumption
    | with_reducible refine when'_keeps _ ?_ (fun _ _ => ?_)
    | with_reducible apply takeNotice_keeps)

theorem recordMask_keeps {s₀ s₁ : State} (i : Slot) (r : Reduction) (o : OwnedBlock) (mask : BitVec 2048) (hK : Keeps s₀ s₁) :
    Keeps s₀ (recordMask i r o mask s₁) := by
  unfold recordMask
  repeat' (first
    | with_reducible exact hK
    | with_reducible assumption
    | with_reducible apply storeBytes_keeps
    | with_reducible apply modRed_keeps
    | fail_if_no_progress with_reducible refine Keeps.lit ?_ rfl rfl rfl rfl
    | split)

theorem dropKept_keeps {s₀ s₁ : State} (step : BitVec 32) (g : Nat) (hK : Keeps s₀ s₁) :
    Keeps s₀ (dropKept step g s₁) := by
  unfold dropKept
  repeat' (first
    | with_reducible exact hK
    | with_reducible assumption
    | fail_if_no_progress with_reducible refine Keeps.lit ?_ rfl rfl rfl rfl
    | split
    | dsimp only)

theorem modOwned_keeps {s₀ s₁ : State} (desc g : Nat) (f : OwnedBlock → OwnedBlock) (hK : Keeps s₀ s₁) :
    Keeps s₀ (modOwned desc g f s₁) := by
  unfold modOwned
  repeat' (first
    | with_reducible exact hK
    | with_reducible assumption
    | with_reducible apply modRed_keeps)

theorem settleBlock_keeps {s₀ s₁ : State} (i : Slot) (desc g : Nat) (x : Option ResultMsg) (hK : Keeps s₀ s₁) :
    Keeps s₀ (settleBlock i desc g x s₁) := by
  unfold settleBlock
  repeat' (first
    | with_reducible exact hK
    | with_reducible assumption
    | with_reducible apply sendSignals_keeps
    | with_reducible apply noticeRun_keeps
    | with_reducible apply recordMask_keeps
    | with_reducible apply modOwned_keeps
    | fail_if_no_progress with_reducible refine Keeps.lit ?_ rfl rfl rfl rfl
    | split)

theorem blockEvent_keeps {s₀ s₁ : State} (code : Code) (g member : Nat) (hK : Keeps s₀ s₁) :
    Keeps s₀ (blockEvent code g member s₁) := by
  unfold blockEvent
  repeat' (first
    | with_reducible exact hK
    | with_reducible assumption
    | with_reducible apply report_keeps)

theorem ackResult_keeps {s₀ s₁ : State} (r : Reduction) (g : Nat) (src : BitVec 32) (hK : Keeps s₀ s₁) :
    Keeps s₀ (ackResult r g src s₁) := by
  unfold ackResult
  repeat' (first
    | with_reducible exact hK
    | with_reducible assumption
    | with_reducible apply sendMsg_keeps
    | with_reducible apply dropKept_keeps
    | fail_if_no_progress with_reducible refine Keeps.lit ?_ rfl rfl rfl rfl
    | split
    | dsimp only)

theorem storeResult_keeps {s₀ s₁ : State} (i : Slot) (o : OwnedBlock) (x : ResultMsg) (hK : Keeps s₀ s₁) :
    Keeps s₀ (storeResult i o x s₁) := by
  unfold storeResult
  split
  · split
    · exact Keeps.litMem hK (fun hm => writeBytes_wf _ _ _ hm) rfl rfl rfl rfl
    · exact hK
  · exact hK

theorem acceptResult_keeps {s₀ s₁ : State} (i : Slot) (r : Reduction) (o : OwnedBlock) (x : ResultMsg) (src : BitVec 32) (hK : Keeps s₀ s₁) :
    Keeps s₀ (acceptResult i r o x src s₁) := by
  unfold acceptResult
  repeat' (first
    | with_reducible exact hK
    | with_reducible assumption
    | with_reducible refine foldl_keeps ?_ (fun _ _ _ => ?_)
    | with_reducible refine foldl_fst_keeps ?_ (fun _ _ _ => ?_)
    | with_reducible apply abortRed_keeps
    | with_reducible apply settleBlock_keeps
    | with_reducible apply blockEvent_keeps
    | with_reducible apply ackResult_keeps
    | with_reducible apply storeResult_keeps
    | fail_if_no_progress with_reducible refine Keeps.lit ?_ rfl rfl rfl rfl
    | split
    | dsimp only)

theorem askResult_keeps {s₀ s₁ : State} (i : Slot) (r : Reduction) (o : OwnedBlock) (hK : Keeps s₀ s₁) :
    Keeps s₀ (askResult i r o s₁) := by
  unfold askResult
  repeat' (first
    | with_reducible exact hK
    | with_reducible assumption
    | with_reducible apply sendMsg_keeps
    | with_reducible apply abortRed_keeps
    | with_reducible apply modOwned_keeps
    | with_reducible apply settleBlock_keeps
    | with_reducible apply blockEvent_keeps
    | fail_if_no_progress with_reducible refine Keeps.lit ?_ rfl rfl rfl rfl
    | split)

theorem takeResult_keeps {s₀ s₁ : State} (i : Slot) (r : Reduction) (x : ResultMsg) (src : BitVec 32) (hK : Keeps s₀ s₁) :
    Keeps s₀ (takeResult i r x src s₁) := by
  unfold takeResult
  repeat' (first
    | with_reducible exact hK
    | with_reducible assumption
    | with_reducible apply collEvent_keeps
    | with_reducible apply abortRed_keeps
    | with_reducible apply modOwned_keeps
    | with_reducible apply blockEvent_keeps
    | with_reducible apply ackResult_keeps
    | with_reducible apply acceptResult_keeps
    | with_reducible apply askResult_keeps
    | fail_if_no_progress with_reducible refine Keeps.lit ?_ rfl rfl rfl rfl
    | split
    | dsimp only)

theorem execResult_keeps {s₀ s₁ : State} (p : PortId) (x : SentResult) (hK : Keeps s₀ s₁) :
    ∃ s₂, execResult p x s₁ = .next s₂ ∧ Keeps s₀ s₂ := by
  refine ⟨_, rfl, ?_⟩
  repeat' (first
    | with_reducible exact hK
    | with_reducible assumption
    | with_reducible apply takeResult_keeps
    | fail_if_no_progress with_reducible refine Keeps.lit ?_ rfl rfl rfl rfl
    | split
    | dsimp only)

theorem execNoBlock_keeps {s₀ s₁ : State} (p : PortId) (b : BlockRef) (hK : Keeps s₀ s₁) :
    ∃ s₂, execNoBlock p b s₁ = .next s₂ ∧ Keeps s₀ s₂ := by
  refine ⟨_, rfl, ?_⟩
  repeat' (first
    | with_reducible exact hK
    | with_reducible assumption
    | with_reducible apply askResult_keeps
    | fail_if_no_progress with_reducible refine Keeps.lit ?_ rfl rfl rfl rfl
    | split)

theorem execResultTimeout_keeps {s₀ s₁ : State} (g : Nat) (hK : Keeps s₀ s₁) :
    ∃ s₂, execResultTimeout g s₁ = .next s₂ ∧ Keeps s₀ s₂ := by
  refine ⟨_, rfl, ?_⟩
  repeat' (first
    | with_reducible exact hK
    | with_reducible assumption
    | with_reducible apply askResult_keeps
    | fail_if_no_progress with_reducible refine Keeps.lit ?_ rfl rfl rfl rfl
    | split)

theorem takeKept_keeps {s₀ s₁ : State} (i : Slot) (desc g : Nat) (hK : Keeps s₀ s₁) :
    Keeps s₀ (takeKept i desc g s₁) := by
  unfold takeKept
  repeat' (first
    | with_reducible exact hK
    | with_reducible assumption
    | with_reducible apply takeResult_keeps
    | fail_if_no_progress with_reducible refine Keeps.lit ?_ rfl rfl rfl rfl
    | split
    | dsimp only)

theorem finishRing_keeps {s₀ s₁ : State} (i : Slot) (desc : Nat) (x : ResultMsg) (hK : Keeps s₀ s₁) :
    Keeps s₀ (finishRing i desc x s₁) := by
  unfold finishRing
  repeat' (first
    | with_reducible exact hK
    | with_reducible assumption
    | with_reducible apply sendMsg_keeps
    | with_reducible apply dropKept_keeps
    | with_reducible apply takeKept_keeps
    | fail_if_no_progress with_reducible refine Keeps.lit ?_ rfl rfl rfl rfl
    | split
    | dsimp only)

theorem sendHop_keeps {s₀ s₁ : State} (i : Slot) (desc : Nat) (pos : Nat) (x : ResultMsg) (hK : Keeps s₀ s₁) :
    Keeps s₀ (sendHop i desc pos x s₁) := by
  unfold sendHop
  repeat' (first
    | with_reducible exact hK
    | with_reducible assumption
    | with_reducible apply sendMsg_keeps
    | with_reducible apply modRed_keeps
    | with_reducible apply finishRing_keeps
    | fail_if_no_progress with_reducible refine Keeps.lit ?_ rfl rfl rfl rfl
    | split
    | dsimp only)

theorem forwardOn_keeps {s₀ s₁ : State} (i : Slot) (desc : Nat) (x : ResultMsg) (hK : Keeps s₀ s₁) :
    Keeps s₀ (forwardOn i desc x s₁) := by
  unfold forwardOn
  repeat' (first
    | with_reducible exact hK
    | with_reducible assumption
    | with_reducible apply sendHop_keeps)

theorem countedFold_keeps {s₀ s₁ : State} (code : Nat) (i : Slot) (y : Site) (b : WireBlock) (c : Contribution) (hK : Keeps s₀ s₁) :
    Keeps s₀ (countedFold code i y b c s₁) := by
  unfold countedFold
  repeat' (first
    | with_reducible exact hK
    | with_reducible assumption
    | with_reducible apply countBlock_keeps
    | with_reducible apply addFold_keeps
    | fail_if_no_progress with_reducible refine Keeps.lit ?_ rfl rfl rfl rfl
    | split
    | dsimp only)

theorem foldRing_keeps {s₀ s₁ : State} (i : Slot) (c : Contribution) (hK : Keeps s₀ s₁) :
    Keeps s₀ (foldRing i c s₁) := by
  unfold foldRing
  repeat' (first
    | with_reducible exact hK
    | with_reducible assumption
    | with_reducible apply countedFold_keeps
    | fail_if_no_progress with_reducible refine Keeps.lit ?_ rfl rfl rfl rfl
    | split
    | dsimp only)

theorem ringContribute_keeps {s₀ s₁ : State} (i : Slot) (desc : Nat) (b : WireBlock) (c : Option Contribution) (hK : Keeps s₀ s₁) :
    Keeps s₀ (ringContribute i desc b c s₁) := by
  unfold ringContribute
  repeat' (first
    | with_reducible exact hK
    | with_reducible assumption
    | with_reducible apply modRed_keeps
    | with_reducible apply forwardOn_keeps
    | with_reducible apply foldRing_keeps
    | fail_if_no_progress with_reducible refine Keeps.lit ?_ rfl rfl rfl rfl
    | split)

theorem takePartial_keeps {s₀ s₁ : State} (i : Slot) (p : PortId) (r : Reduction) (x : ResultMsg) (sender : BitVec 16) (hK : Keeps s₀ s₁) :
    Keeps s₀ (takePartial i p r x sender s₁) := by
  unfold takePartial
  repeat' (first
    | with_reducible exact hK
    | with_reducible assumption
    | with_reducible apply sendMsg_keeps
    | with_reducible apply modRed_keeps
    | with_reducible apply forwardOn_keeps
    | fail_if_no_progress with_reducible refine Keeps.lit ?_ rfl rfl rfl rfl
    | split
    | dsimp only)

theorem holdMsg_keeps {s₀ s₁ : State} (command : Nat) (m : HeldMsg) (hK : Keeps s₀ s₁) :
    Keeps s₀ (holdMsg command m s₁) := by
  unfold holdMsg
  repeat' (first
    | with_reducible exact hK
    | with_reducible assumption
    | with_reducible refine foldl_keeps ?_ (fun _ _ _ => ?_)
    | with_reducible refine foldl_fst_keeps ?_ (fun _ _ _ => ?_)
    | with_reducible apply discardColl_keeps
    | fail_if_no_progress with_reducible refine Keeps.lit ?_ rfl rfl rfl rfl
    | split
    | dsimp only)

theorem execRingPartial_keeps {s₀ s₁ : State} (p : PortId) (x : ResultMsg) (sender : BitVec 16) (tag : BitVec 32) (hK : Keeps s₀ s₁) :
    ∃ s₂, execRingPartial p x sender tag s₁ = .next s₂ ∧ Keeps s₀ s₂ := by
  refine ⟨_, rfl, ?_⟩
  repeat' (first
    | with_reducible exact hK
    | with_reducible assumption
    | with_reducible apply discardColl_keeps
    | with_reducible apply takePartial_keeps
    | with_reducible apply holdMsg_keeps
    | fail_if_no_progress with_reducible refine Keeps.lit ?_ rfl rfl rfl rfl
    | split)

theorem ringMsg_keeps {s₀ s₁ : State} (p : PortId) (h : CollHdr) {f : Reduction → State → State} (hK : Keeps s₀ s₁)
    (hf : ∀ r y, Keeps s₀ y → Keeps s₀ (f r y)) : Keeps s₀ (ringMsg p h f s₁) := by
  unfold ringMsg
  repeat' (first
    | with_reducible exact hK
    | with_reducible apply discardColl_keeps
    | with_reducible apply hf
    | split)

theorem dropHop_keeps {s₀ s₁ : State} (desc g : Nat) (hK : Keeps s₀ s₁) :
    Keeps s₀ (dropHop desc g s₁) := by
  unfold dropHop
  repeat' (first
    | with_reducible exact hK
    | with_reducible assumption
    | with_reducible apply modRed_keeps)

theorem execHopAck_keeps {s₀ s₁ : State} (p : PortId) (h : CollHdr) (hK : Keeps s₀ s₁) :
    ∃ s₂, execHopAck p h s₁ = .next s₂ ∧ Keeps s₀ s₂ := by
  refine ⟨_, rfl, ?_⟩
  repeat' (first
    | with_reducible exact hK
    | with_reducible assumption
    | with_reducible refine ringMsg_keeps _ _ ?_ (fun _ _ _ => ?_)
    | with_reducible apply dropHop_keeps
    | fail_if_no_progress with_reducible refine Keeps.lit ?_ rfl rfl rfl rfl
    | split)

theorem skipHop_keeps {s₀ s₁ : State} (i : Slot) (r : Reduction) (x : RingHop) (hK : Keeps s₀ s₁) :
    Keeps s₀ (skipHop i r x s₁) := by
  unfold skipHop
  repeat' (first
    | with_reducible exact hK
    | with_reducible assumption
    | with_reducible apply report_keeps
    | with_reducible apply sendHop_keeps
    | with_reducible apply dropHop_keeps)

theorem execCancelAck_keeps {s₀ s₁ : State} (p : PortId) (h : CollHdr) (hK : Keeps s₀ s₁) :
    ∃ s₂, execCancelAck p h s₁ = .next s₂ ∧ Keeps s₀ s₂ := by
  refine ⟨_, rfl, ?_⟩
  repeat' (first
    | with_reducible exact hK
    | with_reducible assumption
    | with_reducible refine ringMsg_keeps _ _ ?_ (fun _ _ _ => ?_)
    | with_reducible apply skipHop_keeps
    | fail_if_no_progress with_reducible refine Keeps.lit ?_ rfl rfl rfl rfl
    | split)

theorem takeCancel_keeps {s₀ s₁ : State} (i : Slot) (p : PortId) (h : CollHdr) (r : Reduction) (hK : Keeps s₀ s₁) :
    Keeps s₀ (takeCancel i p h r s₁) := by
  unfold takeCancel
  repeat' (first
    | with_reducible exact hK
    | with_reducible assumption
    | with_reducible apply sendMsg_keeps
    | with_reducible apply modRed_keeps
    | with_reducible apply foldRing_keeps
    | fail_if_no_progress with_reducible refine Keeps.lit ?_ rfl rfl rfl rfl
    | split
    | dsimp only)

theorem holdCancel_keeps {s₀ s₁ : State} (p : PortId) (h : CollHdr) (hK : Keeps s₀ s₁) :
    Keeps s₀ (holdCancel p h s₁) := by
  unfold holdCancel
  repeat' (first
    | with_reducible exact hK
    | with_reducible assumption
    | with_reducible apply sendMsg_keeps
    | with_reducible apply discardColl_keeps
    | with_reducible apply holdMsg_keeps
    | fail_if_no_progress with_reducible refine Keeps.lit ?_ rfl rfl rfl rfl
    | split
    | dsimp only)

theorem execHopCancel_keeps {s₀ s₁ : State} (p : PortId) (h : CollHdr) (hK : Keeps s₀ s₁) :
    ∃ s₂, execHopCancel p h s₁ = .next s₂ ∧ Keeps s₀ s₂ := by
  refine ⟨_, rfl, ?_⟩
  repeat' (first
    | with_reducible exact hK
    | with_reducible assumption
    | with_reducible refine when'_keeps _ ?_ (fun _ _ => ?_)
    | with_reducible refine ringMsg_keeps _ _ ?_ (fun _ _ _ => ?_)
    | with_reducible apply takeCancel_keeps
    | with_reducible apply holdCancel_keeps
    | fail_if_no_progress with_reducible refine Keeps.lit ?_ rfl rfl rfl rfl
    | split
    | dsimp only)

theorem hopExpires_keeps {s₀ s₁ : State} (i : Slot) (r : Reduction) (x : RingHop) (hK : Keeps s₀ s₁) :
    Keeps s₀ (hopExpires i r x s₁) := by
  unfold hopExpires
  repeat' (first
    | with_reducible exact hK
    | with_reducible assumption
    | with_reducible apply sendMsg_keeps
    | with_reducible apply modRed_keeps
    | with_reducible apply skipHop_keeps
    | fail_if_no_progress with_reducible refine Keeps.lit ?_ rfl rfl rfl rfl
    | split)

theorem execHopTimeout_keeps {s₀ s₁ : State} (g : Nat) (hK : Keeps s₀ s₁) :
    ∃ s₂, execHopTimeout g s₁ = .next s₂ ∧ Keeps s₀ s₂ := by
  refine ⟨_, rfl, ?_⟩
  repeat' (first
    | with_reducible exact hK
    | with_reducible assumption
    | with_reducible apply hopExpires_keeps
    | fail_if_no_progress with_reducible refine Keeps.lit ?_ rfl rfl rfl rfl
    | split)

theorem execPartialHoldTimeout_keeps {s₀ s₁ : State} (g : Nat) (hK : Keeps s₀ s₁) :
    ∃ s₂, execPartialHoldTimeout g s₁ = .next s₂ ∧ Keeps s₀ s₂ := by
  refine ⟨_, rfl, ?_⟩
  repeat' (first
    | with_reducible exact hK
    | with_reducible assumption
    | with_reducible apply modRed_keeps
    | with_reducible apply forwardOn_keeps
    | fail_if_no_progress with_reducible refine Keeps.lit ?_ rfl rfl rfl rfl
    | split)

theorem execRingContributionTimeout_keeps {s₀ s₁ : State} (g : Nat) (hK : Keeps s₀ s₁) :
    ∃ s₂, execRingContributionTimeout g s₁ = .next s₂ ∧ Keeps s₀ s₂ := by
  refine ⟨_, rfl, ?_⟩
  repeat' (first
    | with_reducible exact hK
    | with_reducible assumption
    | with_reducible apply modRed_keeps
    | with_reducible apply foldRing_keeps
    | fail_if_no_progress with_reducible refine Keeps.lit ?_ rfl rfl rfl rfl
    | split)

theorem execResultReq_keeps {s₀ s₁ : State} (p : PortId) (b : BlockRef) (hK : Keeps s₀ s₁) :
    ∃ s₂, execResultReq p b s₁ = .next s₂ ∧ Keeps s₀ s₂ := by
  refine ⟨_, rfl, ?_⟩
  repeat' (first
    | with_reducible exact hK
    | with_reducible assumption
    | with_reducible apply sendMsg_keeps
    | fail_if_no_progress with_reducible refine Keeps.lit ?_ rfl rfl rfl rfl
    | split)

theorem execResultAck_keeps {s₀ s₁ : State} (p : PortId) (b : BlockRef) (hK : Keeps s₀ s₁) :
    ∃ s₂, execResultAck p b s₁ = .next s₂ ∧ Keeps s₀ s₂ := by
  refine ⟨_, rfl, ?_⟩
  repeat' (first
    | with_reducible exact hK
    | with_reducible assumption
    | with_reducible refine when'_keeps _ ?_ (fun _ _ => ?_)
    | with_reducible apply dropKept_keeps
    | fail_if_no_progress with_reducible refine Keeps.lit ?_ rfl rfl rfl rfl
    | split
    | dsimp only)

theorem markSent_keeps {s₀ s₁ : State} (desc g : Nat) (gone : Bool) (hK : Keeps s₀ s₁) :
    Keeps s₀ (markSent desc g gone s₁) := by
  unfold markSent
  repeat' (first
    | with_reducible exact hK
    | with_reducible assumption
    | with_reducible apply modRed_keeps)

theorem foldWhole_keeps {s₀ s₁ : State} (quiet : Bool) (i : Slot) (y : Site) (b : WireBlock) (e : ErrMem) (xs : List Num) (hK : Keeps s₀ s₁) :
    Keeps s₀ (foldWhole quiet i y b e xs s₁) := by
  unfold foldWhole
  repeat' (first
    | with_reducible exact hK
    | with_reducible assumption
    | with_reducible apply errClear_keeps
    | with_reducible apply foldBlock_keeps
    | fail_if_no_progress with_reducible refine Keeps.lit ?_ rfl rfl rfl rfl
    | split
    | dsimp only)

theorem passRing_keeps {s₀ s₁ : State} (i : Slot) (r : Reduction) (b : WireBlock) (hK : Keeps s₀ s₁) :
    Keeps s₀ (passRing i r b s₁) := by
  unfold passRing
  repeat' (first
    | with_reducible exact hK
    | with_reducible assumption
    | with_reducible apply ringContribute_keeps
    | fail_if_no_progress with_reducible refine Keeps.lit ?_ rfl rfl rfl rfl
    | split)

theorem launch_keeps {s₀ s₁ : State} (i : Slot) (r : Reduction) (b : WireBlock) (c : Contribution) (hK : Keeps s₀ s₁) :
    Keeps s₀ (launch i r b c s₁) := by
  unfold launch
  repeat' (first
    | with_reducible exact hK
    | with_reducible assumption
    | with_reducible apply sendMsg_keeps
    | with_reducible apply ringContribute_keeps
    | with_reducible apply markSent_keeps
    | fail_if_no_progress with_reducible refine Keeps.lit ?_ rfl rfl rfl rfl
    | split)

theorem encodeOne_keeps {s₀ s₁ : State} (i : Slot) (y : Site) (m : Manifest) (r : Reduction) (q : Cue) (b : WireBlock) (xs : List Num) (e : ErrMem) (hK : Keeps s₀ s₁) :
    Keeps s₀ (encodeOne i y m r q b xs e s₁) := by
  unfold encodeOne
  repeat' (first
    | with_reducible exact hK
    | with_reducible assumption
    | with_reducible apply countBlock_keeps
    | with_reducible apply settleErr_keeps
    | with_reducible apply blockEvent_keeps
    | with_reducible apply markSent_keeps
    | with_reducible apply passRing_keeps
    | with_reducible apply launch_keeps
    | fail_if_no_progress with_reducible refine Keeps.lit ?_ rfl rfl rfl rfl
    | split
    | dsimp only)

theorem sayOneBit_keeps {s₀ s₁ : State} (r : Reduction) (g : Nat) (hK : Keeps s₀ s₁) :
    Keeps s₀ (sayOneBit r g s₁) := by
  unfold sayOneBit
  repeat' (first
    | with_reducible exact hK
    | with_reducible assumption
    | with_reducible apply report_keeps
    | with_reducible apply modRed_keeps
    | fail_if_no_progress with_reducible refine Keeps.lit ?_ rfl rfl rfl rfl
    | split
    | dsimp only)

theorem sendBlock_keeps {s₀ s₁ : State} (i : Slot) (y : Site) (m : Manifest) (q : Cue) (desc : Nat) (g : Nat) (hK : Keeps s₀ s₁) :
    Keeps s₀ (sendBlock i y m q desc s₁ g) := by
  unfold sendBlock
  repeat' (first
    | with_reducible exact hK
    | with_reducible assumption
    | with_reducible refine modCtx_keeps _ ?_ (fun _ hc => hc)
    | with_reducible refine modCtx_keeps _ ?_ (fun _ hc => (by revert hc; dsimp only; (repeat' split) <;> first | exact id | exact fun hc => nomatch hc))
    | with_reducible apply modOwned_keeps
    | with_reducible apply takeKept_keeps
    | with_reducible apply markSent_keeps
    | with_reducible apply foldWhole_keeps
    | with_reducible apply passRing_keeps
    | with_reducible apply encodeOne_keeps
    | fail_if_no_progress with_reducible refine Keeps.lit ?_ rfl rfl rfl rfl
    | split
    | dsimp only)

theorem sendWire_keeps {s₀ s₁ : State} (i : Slot) (q : Cue) (hK : Keeps s₀ s₁) :
    Keeps s₀ (sendWire i q s₁) := by
  unfold sendWire
  repeat' (first
    | with_reducible exact hK
    | with_reducible assumption
    | with_reducible refine foldl_keeps ?_ (fun _ _ _ => ?_)
    | with_reducible refine foldl_fst_keeps ?_ (fun _ _ _ => ?_)
    | with_reducible apply sayOneBit_keeps
    | with_reducible apply sendBlock_keeps
    | fail_if_no_progress with_reducible refine Keeps.lit ?_ rfl rfl rfl rfl
    | split)

theorem takeBounce_keeps {s₀ s₁ : State} (i : Slot) (c : Contribution) (hK : Keeps s₀ s₁) :
    Keeps s₀ (takeBounce i c s₁) := by
  unfold takeBounce
  repeat' (first
    | with_reducible exact hK
    | with_reducible assumption
    | with_reducible apply blockEvent_keeps
    | with_reducible apply countedFold_keeps
    | fail_if_no_progress with_reducible refine Keeps.lit ?_ rfl rfl rfl rfl
    | split
    | dsimp only)

theorem execBounce_keeps {s₀ s₁ : State} (p : PortId) (c : Contribution) (hK : Keeps s₀ s₁) :
    ∃ s₂, execBounce p c s₁ = .next s₂ ∧ Keeps s₀ s₂ := by
  refine ⟨_, rfl, ?_⟩
  repeat' (first
    | with_reducible exact hK
    | with_reducible assumption
    | with_reducible refine when'_keeps _ ?_ (fun _ _ => ?_)
    | with_reducible apply takeBounce_keeps)

theorem loseMsgPlane_keeps {s₀ s₁ : State} (r : Reduction) (p : Nat) (hK : Keeps s₀ s₁) :
    Keeps s₀ (loseMsgPlane r p s₁) := by
  unfold loseMsgPlane
  repeat' (first
    | with_reducible exact hK
    | with_reducible assumption
    | with_reducible apply collEvent_keeps
    | with_reducible apply setAnswer_keeps)

theorem takeReply_keeps {s₀ s₁ : State} (p : PortId) (h : CollHdr) (try' : Nat) (r : Reduction) (hK : Keeps s₀ s₁) :
    Keeps s₀ (takeReply p h try' r s₁) := by
  unfold takeReply
  repeat' (first
    | with_reducible exact hK
    | with_reducible assumption
    | with_reducible apply report_keeps
    | with_reducible apply collEvent_keeps
    | with_reducible apply discardColl_keeps
    | with_reducible apply abortRed_keeps
    | with_reducible apply setAnswer_keeps
    | fail_if_no_progress with_reducible refine Keeps.lit ?_ rfl rfl rfl rfl
    | split)

theorem execOpenReply_keeps {s₀ s₁ : State} (p : PortId) (h : CollHdr) (hK : Keeps s₀ s₁) :
    ∃ s₂, execOpenReply p h s₁ = .next s₂ ∧ Keeps s₀ s₂ := by
  refine ⟨_, rfl, ?_⟩
  repeat' (first
    | with_reducible exact hK
    | with_reducible assumption
    | with_reducible refine ringMsg_keeps _ _ ?_ (fun _ _ _ => ?_)
    | with_reducible apply takeReply_keeps
    | fail_if_no_progress with_reducible refine Keeps.lit ?_ rfl rfl rfl rfl
    | split)

theorem retryOpen_keeps {s₀ s₁ : State} (p : PortId) (r : Reduction) (hK : Keeps s₀ s₁) :
    Keeps s₀ (retryOpen p r s₁) := by
  unfold retryOpen
  repeat' (first
    | with_reducible exact hK
    | with_reducible assumption
    | with_reducible apply setAnswer_keeps
    | with_reducible apply sendOpen_keeps
    | with_reducible apply loseMsgPlane_keeps
    | fail_if_no_progress with_reducible refine Keeps.lit ?_ rfl rfl rfl rfl
    | split)

theorem execOpenRetry_keeps {s₀ s₁ : State} (p : PortId) (hK : Keeps s₀ s₁) :
    ∃ s₂, execOpenRetry p s₁ = .next s₂ ∧ Keeps s₀ s₂ := by
  refine ⟨_, rfl, ?_⟩
  repeat' (first
    | with_reducible exact hK
    | with_reducible assumption
    | with_reducible apply retryOpen_keeps
    | fail_if_no_progress with_reducible refine Keeps.lit ?_ rfl rfl rfl rfl
    | split)

theorem endStepPass_keeps {s₀ s₁ : State} (i : Slot) (step : BitVec 32) (code : Code) (unsent : Bool) (hK : Keeps s₀ s₁) :
    Keeps s₀ (endStepPass i step code unsent s₁) := by
  unfold endStepPass
  repeat' (first
    | with_reducible exact hK
    | with_reducible assumption
    | with_reducible apply endPass_keeps
    | fail_if_no_progress with_reducible refine Keeps.lit ?_ rfl rfl rfl rfl
    | split
    | dsimp only)

theorem abortedRed_keeps {s₀ s₁ : State} (i : Slot) (r : Reduction) (a : Nat × Code) (hK : Keeps s₀ s₁) :
    Keeps s₀ (abortedRed i r a s₁) := by
  unfold abortedRed
  repeat' (first
    | with_reducible exact hK
    | with_reducible assumption
    | with_reducible apply endRed_keeps
    | with_reducible apply modModel_keeps
    | with_reducible apply endStepPass_keeps
    | fail_if_no_progress with_reducible refine Keeps.lit ?_ rfl rfl rfl rfl
    | split
    | dsimp only)

theorem discardStale_keeps {s₀ s₁ : State} (desc seq : Nat) (hK : Keeps s₀ s₁) :
    Keeps s₀ (discardStale desc seq s₁) := by
  unfold discardStale
  repeat' (first
    | with_reducible exact hK
    | with_reducible assumption
    | with_reducible refine foldl_keeps ?_ (fun _ _ _ => ?_)
    | with_reducible refine foldl_fst_keeps ?_ (fun _ _ _ => ?_)
    | with_reducible apply discardColl_keeps
    | fail_if_no_progress with_reducible refine Keeps.lit ?_ rfl rfl rfl rfl
    | split
    | dsimp only)

theorem reduceRun_keeps {s₀ s₁ : State} (i : Slot) (q : QId) (r : Ready) (b : CollBody) (w : ReduceBody) (hK : Keeps s₀ s₁) :
    Keeps s₀ (reduceRun i q r b w s₁) := by
  unfold reduceRun
  repeat' (first
    | with_reducible exact hK
    | with_reducible assumption
    | with_reducible refine foldl_keeps ?_ (fun _ _ _ => ?_)
    | with_reducible refine foldl_fst_keeps ?_ (fun _ _ _ => ?_)
    | with_reducible apply flushCounts_keeps
    | with_reducible apply addRunning_keeps
    | with_reducible apply sendOpen_keeps
    | with_reducible apply sendSignals_keeps
    | with_reducible apply noticeAll_keeps
    | with_reducible apply takePartial_keeps
    | with_reducible apply abortedRed_keeps
    | with_reducible apply discardStale_keeps
    | fail_if_no_progress with_reducible refine Keeps.lit ?_ rfl rfl rfl rfl
    | split
    | dsimp only)

theorem reduceStart_keeps {s₀ s₁ : State} (i : Slot) (q : QId) (r : Ready) (hK : Keeps s₀ s₁) :
    Keeps s₀ (reduceStart i q r s₁) := by
  unfold reduceStart
  repeat' (first
    | with_reducible exact hK
    | with_reducible assumption
    | with_reducible apply refuseStart_keeps
    | with_reducible apply endStepPass_keeps
    | with_reducible apply reduceRun_keeps
    | fail_if_no_progress with_reducible refine Keeps.lit ?_ rfl rfl rfl rfl
    | split
    | dsimp only)

theorem execReduceShards_keeps {s₀ s₁ : State} (i : Slot) (q : QId) (hK : Keeps s₀ s₁) :
    ∃ s₂, execReduceShards i q s₁ = .next s₂ ∧ Keeps s₀ s₂ := by
  refine ⟨_, rfl, ?_⟩
  repeat' (first
    | with_reducible exact hK
    | with_reducible assumption
    | with_reducible refine startRow_keeps _ _ _ ?_ (fun _ _ _ => ?_)
    | with_reducible apply reduceStart_keeps)

theorem finishReduce_keeps {s₀ s₁ : State} (i : Slot) (r : Reduction) (hK : Keeps s₀ s₁) :
    Keeps s₀ (finishReduce i r s₁) := by
  unfold finishReduce
  repeat' (first
    | with_reducible exact hK
    | with_reducible assumption
    | with_reducible refine foldl_keeps ?_ (fun _ _ _ => ?_)
    | with_reducible refine foldl_fst_keeps ?_ (fun _ _ _ => ?_)
    | with_reducible apply endRed_keeps
    | with_reducible apply sendMsg_keeps)

theorem execReduceShardsComplete_keeps {s₀ s₁ : State}  (hK : Keeps s₀ s₁) :
    ∃ s₂, execReduceShardsComplete s₁ = .next s₂ ∧ Keeps s₀ s₂ := by
  refine ⟨_, rfl, ?_⟩
  repeat' (first
    | with_reducible exact hK
    | with_reducible assumption
    | with_reducible apply finishReduce_keeps
    | fail_if_no_progress with_reducible refine Keeps.lit ?_ rfl rfl rfl rfl
    | split)

end Sys2Proof.Machine
end

