-- ==== Sys2Proof/Laws/KeepsCues.lean ====
section
/-! SUPPORT. What the operations and commands of Cues keep (Laws/Keeps.lean). -/

namespace Sys2Proof.Machine

set_option linter.all false
set_option Elab.async false

open Sys2Proof

theorem cueEvent_keeps {s₀ s₁ : State} (i : Slot) (code : Code) (t : TileId) (idx value : Nat) (hK : Keeps s₀ s₁) :
    Keeps s₀ (cueEvent i code t idx value s₁) := by
  unfold cueEvent
  repeat' (first
    | with_reducible exact hK
    | with_reducible assumption
    | with_reducible apply report_keeps)

theorem noteArith_keeps {s₀ s₁ : State} (i : Slot) (code : Code) (t : TileId) (idx n first : Nat) (hK : Keeps s₀ s₁) :
    Keeps s₀ (noteArith i code t idx n first s₁) := by
  unfold noteArith
  repeat' (first
    | with_reducible exact hK
    | with_reducible assumption
    | with_reducible refine modCtx_keeps _ ?_ (fun _ hc => hc)
    | fail_if_no_progress with_reducible refine Keeps.lit ?_ rfl rfl rfl rfl
    | split)

theorem cueCount_keeps {s₀ s₁ : State} (i : Slot) (code : Code) (t : TileId) (idx n first : Nat) (hK : Keeps s₀ s₁) :
    Keeps s₀ (cueCount i code t idx n first s₁) := by
  unfold cueCount
  repeat' (first
    | with_reducible exact hK
    | with_reducible assumption
    | with_reducible apply report_keeps
    | with_reducible apply noteArith_keeps
    | fail_if_no_progress with_reducible refine Keeps.lit ?_ rfl rfl rfl rfl
    | split)

theorem raiseCtr_keeps {s₀ s₁ : State} (t : TileId) (ctr : Nat) (hK : Keeps s₀ s₁) :
    Keeps s₀ (raiseCtr t ctr s₁) := by
  unfold raiseCtr
  repeat' (first
    | with_reducible exact hK
    | with_reducible assumption
    | with_reducible apply modTile_keeps)

theorem signal_keeps {s₀ s₁ : State} (r : Run) (t : TileId) (q : Cue) (hK : Keeps s₀ s₁) :
    Keeps s₀ (signal r t q s₁) := by
  unfold signal
  repeat' (first
    | with_reducible exact hK
    | with_reducible assumption
    | with_reducible apply raiseCtr_keeps
    | fail_if_no_progress with_reducible refine Keeps.lit ?_ rfl rfl rfl rfl
    | split)

theorem execRouteSignalArrive_keeps {s₀ s₁ : State} (t : TileId) (ctr : Fin 64) (layer : BitVec 16) (hK : Keeps s₀ s₁) :
    ∃ s₂, execRouteSignalArrive t ctr layer s₁ = .next s₂ ∧ Keeps s₀ s₂ := by
  refine ⟨_, rfl, ?_⟩
  repeat' (first
    | with_reducible exact hK
    | with_reducible assumption
    | with_reducible apply raiseCtr_keeps
    | fail_if_no_progress with_reducible refine Keeps.lit ?_ rfl rfl rfl rfl
    | split)

theorem modLedger_keeps {s₀ s₁ : State} (i : Slot) (l : Nat) (f : LedgerEntry → LedgerEntry) (hK : Keeps s₀ s₁) :
    Keeps s₀ (modLedger i l f s₁) := by
  unfold modLedger
  repeat' (first
    | with_reducible exact hK
    | with_reducible assumption
    | with_reducible refine modCtx_keeps _ ?_ (fun _ hc => hc))

theorem sumLedger_keeps {s₀ s₁ : State} (i : Slot) (l : Nat) (hK : Keeps s₀ s₁) :
    Keeps s₀ (sumLedger i l s₁) := by
  unfold sumLedger
  repeat' (first
    | with_reducible exact hK
    | with_reducible assumption
    | with_reducible refine foldl_keeps ?_ (fun _ _ _ => ?_)
    | with_reducible refine foldl_fst_keeps ?_ (fun _ _ _ => ?_)
    | with_reducible apply modLedger_keeps
    | fail_if_no_progress with_reducible refine Keeps.lit ?_ rfl rfl rfl rfl
    | split
    | dsimp only)

theorem chooseLevels_keeps {s₀ s₁ : State} (i : Slot) (c : Chart) (hK : Keeps s₀ s₁) :
    Keeps s₀ (chooseLevels i c s₁) := by
  unfold chooseLevels
  repeat' (first
    | with_reducible exact hK
    | with_reducible assumption
    | with_reducible refine foldl_keeps ?_ (fun _ _ _ => ?_)
    | with_reducible refine foldl_fst_keeps ?_ (fun _ _ _ => ?_)
    | with_reducible apply report_keeps
    | with_reducible apply modLedger_keeps
    | fail_if_no_progress with_reducible refine Keeps.lit ?_ rfl rfl rfl rfl
    | split
    | dsimp only)

theorem addLedger_keeps {s₀ s₁ : State} (i : Slot) (t : TileId) (l : Nat) (w : Work) (hK : Keeps s₀ s₁) :
    Keeps s₀ (addLedger i t l w s₁) := by
  unfold addLedger
  repeat' (first
    | with_reducible exact hK
    | with_reducible assumption
    | with_reducible apply modTile_keeps
    | with_reducible apply sumLedger_keeps
    | fail_if_no_progress with_reducible refine Keeps.lit ?_ rfl rfl rfl rfl
    | split
    | dsimp only)

theorem noteLevels_keeps {s₀ s₁ : State} (i : Slot) (c : Chart) (q : Cue) (hK : Keeps s₀ s₁) :
    Keeps s₀ (noteLevels i c q s₁) := by
  unfold noteLevels
  repeat' (first
    | with_reducible exact hK
    | with_reducible assumption
    | with_reducible refine foldl_keeps ?_ (fun _ _ _ => ?_)
    | with_reducible refine foldl_fst_keeps ?_ (fun _ _ _ => ?_)
    | with_reducible refine modCtx_keeps _ ?_ (fun _ hc => hc))

theorem workOf_wf (s : State) (i : Slot) (v : Env) (hM : Memory.wf s.mem) :
    Memory.wf (workOf s i v).mem := by
  unfold workOf
  repeat' (first
    | with_reducible exact hM
    | with_reducible assumption
    | with_reducible apply writeBytes_wf
    | with_reducible apply writeByte_wf
    | with_reducible apply productWork_wf
    | with_reducible apply vectorWork_wf
    | with_reducible apply fusedWork_wf
    | with_reducible apply optimizerWork_wf
    | with_reducible refine foldl_wf ?_ (fun _ _ _ => ?_)
    | with_reducible refine foldl_fst_wf ?_ (fun _ _ _ => ?_)
    | split)

theorem arithFaults_keeps {s₀ s₁ : State} (i : Slot) (r : Run) (t : TileId) (q : Cue) (idx : Nat) (w : Work) (hK : Keeps s₀ s₁) :
    Keeps s₀ (arithFaults i r t q idx w s₁) := by
  unfold arithFaults
  repeat' (first
    | with_reducible exact hK
    | with_reducible assumption
    | with_reducible refine foldl_keeps ?_ (fun _ _ _ => ?_)
    | with_reducible refine foldl_fst_keeps ?_ (fun _ _ _ => ?_)
    | with_reducible apply faultTile_keeps
    | with_reducible apply detect_keeps
    | with_reducible apply cueEvent_keeps
    | with_reducible apply noteArith_keeps
    | fail_if_no_progress with_reducible refine Keeps.lit ?_ rfl rfl rfl rfl
    | split)

theorem keepAcc_keeps {s₀ s₁ : State} (r : Run) (t : TileId) (w : Work) (hK : Keeps s₀ s₁) :
    Keeps s₀ (keepAcc r t w s₁) := by
  unfold keepAcc
  repeat' (first
    | with_reducible exact hK
    | with_reducible assumption
    | with_reducible apply modTile_keeps
    | fail_if_no_progress with_reducible refine Keeps.lit ?_ rfl rfl rfl rfl
    | split
    | dsimp only)

theorem reportWork_keeps {s₀ s₁ : State} (i : Slot) (r : Run) (t : TileId) (q : Cue) (idx : Nat) (w : Work) (hK : Keeps s₀ s₁) :
    Keeps s₀ (reportWork i r t q idx w s₁) := by
  unfold reportWork
  repeat' (first
    | with_reducible exact hK
    | with_reducible assumption
    | with_reducible apply cueCount_keeps
    | with_reducible apply addLedger_keeps
    | with_reducible apply arithFaults_keeps
    | with_reducible apply keepAcc_keeps
    | fail_if_no_progress with_reducible refine Keeps.lit ?_ rfl rfl rfl rfl
    | split
    | dsimp only)

theorem modFlight_keeps {s₀ s₁ : State} (t : TileId) (idx : Nat) (g : InFlight → InFlight) (hK : Keeps s₀ s₁) :
    Keeps s₀ (modFlight t idx g s₁) := by
  unfold modFlight
  repeat' (first
    | with_reducible exact hK
    | with_reducible assumption
    | with_reducible apply modTile_keeps
    | fail_if_no_progress with_reducible refine Keeps.lit ?_ rfl rfl rfl rfl
    | split
    | dsimp only)

theorem setRan_keeps {s₀ s₁ : State} (t : TileId) (idx : Nat) (hK : Keeps s₀ s₁) :
    Keeps s₀ (setRan t idx s₁) := by
  unfold setRan
  repeat' (first
    | with_reducible exact hK
    | with_reducible assumption
    | with_reducible apply modFlight_keeps
    | fail_if_no_progress with_reducible refine Keeps.lit ?_ rfl rfl rfl rfl
    | split
    | dsimp only)

theorem finishAttn_keeps {s₀ s₁ : State} (i : Slot) (r : Run) (l : List (TileId × InFlight)) (hK : Keeps s₀ s₁) :
    Keeps s₀ (finishAttn i r l s₁) := by
  unfold finishAttn
  repeat' (first
    | with_reducible exact hK
    | with_reducible assumption
    | with_reducible refine foldl_keeps ?_ (fun _ _ _ => ?_)
    | with_reducible refine foldl_fst_keeps ?_ (fun _ _ _ => ?_)
    | with_reducible apply modTile_keeps
    | with_reducible apply noteLevels_keeps
    | with_reducible apply reportWork_keeps
    | with_reducible apply setRan_keeps
    | fail_if_no_progress with_reducible refine Keeps.lit ?_ rfl rfl rfl rfl
    | with_reducible refine Keeps.litMem ?_ (filter_wf _ _) rfl rfl rfl rfl
    | with_reducible refine Keeps.litMem ?_ (fun hm => attnFinish_wf _ _ _ hm) rfl rfl rfl rfl
    | split
    | dsimp only)

theorem runTogether_keeps {s₀ s₁ : State} (i : Slot) (r : Run) (fault : ArithFault) (own : TileId) (l : List (TileId × InFlight)) (hK : Keeps s₀ s₁) :
    Keeps s₀ (runTogether i r fault own l s₁) := by
  unfold runTogether
  repeat' (first
    | with_reducible exact hK
    | with_reducible assumption
    | with_reducible refine foldl_keeps ?_ (fun _ _ _ => ?_)
    | with_reducible refine foldl_fst_keeps ?_ (fun _ _ _ => ?_)
    | with_reducible apply noteLevels_keeps
    | with_reducible apply reportWork_keeps
    | with_reducible apply setRan_keeps
    | with_reducible apply finishAttn_keeps
    | fail_if_no_progress with_reducible refine Keeps.lit ?_ rfl rfl rfl rfl
    | with_reducible refine Keeps.litMem ?_ (filter_wf _ _) rfl rfl rfl rfl
    | with_reducible refine Keeps.litMem ?_ (fun hm => workOf_wf _ _ _ hm) rfl rfl rfl rfl
    | split)

theorem startEntry_keeps {s₀ s₁ : State} (i : Slot) (r : Run) (t : TileId) (fault : ArithFault) (n : Nat)
    (hK : Keeps s₀ s₁) : Keeps s₀ (startEntry i r t fault n s₁) := by
  induction n generalizing s₁ with
  | zero => exact hK
  | succ n ih =>
    unfold startEntry
    dsimp only
    split
    · exact hK
    · split
      · exact hK
      · rename_i idx q rest _
        have h2 : Keeps s₀ (modTile t (fun y => { y with deferred := rest, draining := y.draining.map fun k => k - 1 }) s₁) :=
          modTile_keeps t hK
        generalize modTile t (fun y => { y with deferred := rest, draining := y.draining.map fun k => k - 1 }) s₁ = u at h2
        split
        · exact ih (signal_keeps _ _ _ h2)
        · refine reportWork_keeps _ _ _ _ _ _ (noteLevels_keeps _ _ _ (Keeps.litMem (modTile_keeps t h2) (fun hm => ?_)
            rfl rfl rfl rfl))
          rw [modTile_mem] at hm
          exact workOf_wf _ _ _ hm

theorem modPass_keeps {s₀ s₁ : State} (f : Pass → Pass) (hK : Keeps s₀ s₁) :
    Keeps s₀ (modPass f s₁) := by
  unfold modPass
  repeat' (first
    | with_reducible exact hK
    | with_reducible assumption
    | with_reducible apply modInstalled_keeps
    | fail_if_no_progress with_reducible refine Keeps.lit ?_ rfl rfl rfl rfl
    | split
    | dsimp only)

theorem noteClosed_keeps {s₀ s₁ : State}  (hK : Keeps s₀ s₁) :
    Keeps s₀ (noteClosed s₁) := by
  unfold noteClosed
  repeat' (first
    | with_reducible exact hK
    | with_reducible assumption
    | with_reducible apply modPass_keeps
    | fail_if_no_progress with_reducible refine Keeps.lit ?_ rfl rfl rfl rfl
    | split
    | dsimp only)

theorem entryDone_keeps {s₀ s₁ : State} (r : Run) (t : TileId) (q : Cue) (fault : ArithFault) (hK : Keeps s₀ s₁) :
    Keeps s₀ (entryDone r t q fault s₁) := by
  unfold entryDone
  repeat' (first
    | with_reducible exact hK
    | with_reducible assumption
    | with_reducible apply modTile_keeps
    | with_reducible apply signal_keeps
    | with_reducible apply startEntry_keeps
    | fail_if_no_progress with_reducible refine Keeps.lit ?_ rfl rfl rfl rfl
    | split
    | dsimp only)

theorem execDeferredEntryComplete_keeps {s₀ s₁ : State} (e : EntryEnd) (hK : Keeps s₀ s₁) :
    ∃ s₂, execDeferredEntryComplete e s₁ = .next s₂ ∧ Keeps s₀ s₂ := by
  refine ⟨_, rfl, ?_⟩
  repeat' (first
    | with_reducible exact hK
    | with_reducible assumption
    | with_reducible apply noteClosed_keeps
    | with_reducible apply entryDone_keeps
    | fail_if_no_progress with_reducible refine Keeps.lit ?_ rfl rfl rfl rfl
    | split
    | dsimp only)

theorem recvCopy_keeps {s₀ s₁ : State} (i : Slot) (r : Run) (t : TileId) (q : Cue) (hK : Keeps s₀ s₁) :
    Keeps s₀ (recvCopy i r t q s₁) := by
  unfold recvCopy
  dsimp only
  split
  · exact hK
  · refine Keeps.litMem hK (fun hm => ?_) rfl rfl rfl rfl
    have h := foldl_wf (f := fun m (x : Placement × Placement) => copyPlace i x.1 x.2 m)
      (l := (copyPairs r q.aTensor q.outTensor).filter fun x => atTile t x.2 && !(pinnedOver s₁ r x.2))
      hm fun b m h => copyPlace_wf i b.1 b.2 m h
    split
    · exact refreshBlocks_wf _ _ _ _ h
    · exact h

theorem sendOne_keeps {s₀ s₁ : State} (i : Slot) (q : Cue) (x : Placement × Placement) (hK : Keeps s₀ s₁) :
    Keeps s₀ (sendOne i q x s₁) :=
  iteInduction (fun _ => modPass_keeps _ hK)
    fun _ => modPass_keeps _ (Keeps.litMem hK (fun hm => copyPlace_wf _ _ _ _ hm) rfl rfl rfl rfl)

theorem sendCopy_keeps {s₀ s₁ : State} (i : Slot) (r : Run) (t : TileId) (q : Cue) (hK : Keeps s₀ s₁) :
    Keeps s₀ (sendCopy i r t q s₁) := by
  unfold sendCopy
  repeat' (first
    | with_reducible exact hK
    | with_reducible assumption
    | with_reducible refine foldl_keeps ?_ (fun _ _ _ => ?_)
    | with_reducible refine foldl_fst_keeps ?_ (fun _ _ _ => ?_)
    | with_reducible apply sendOne_keeps
    | fail_if_no_progress with_reducible refine Keeps.lit ?_ rfl rfl rfl rfl
    | split
    | dsimp only)

theorem laySlice_keeps {s₀ s₁ : State} (i : Slot) (r : Run) (m : Model) (t : TileId) (l : Nat) (ids : List Nat) (table : List (Nat × Nat)) (hK : Keeps s₀ s₁) :
    Keeps s₀ (laySlice i r m t l ids table s₁) := by
  unfold laySlice
  repeat' (first
    | with_reducible exact hK
    | with_reducible assumption
    | with_reducible refine foldl_keeps ?_ (fun _ _ _ => ?_)
    | with_reducible refine foldl_fst_keeps ?_ (fun _ _ _ => ?_)
    | with_reducible apply modTile_keeps
    | with_reducible apply unpackShard_keeps
    | fail_if_no_progress with_reducible refine Keeps.lit ?_ rfl rfl rfl rfl
    | split
    | dsimp only)

theorem pinCopy_keeps {s₀ s₁ : State} (i : Slot) (r : Run) (m : Model) (t : TileId) (f : InFlight) (hK : Keeps s₀ s₁) :
    Keeps s₀ (pinCopy i r m t f s₁) := by
  unfold pinCopy
  repeat' (first
    | with_reducible exact hK
    | with_reducible assumption
    | with_reducible apply laySlice_keeps
    | fail_if_no_progress with_reducible refine Keeps.lit ?_ rfl rfl rfl rfl
    | split
    | dsimp only)

theorem openPhaseOf_keeps {s₀ s₁ : State} (q : Cue) (hK : Keeps s₀ s₁) :
    Keeps s₀ (openPhaseOf q s₁) := by
  unfold openPhaseOf
  repeat' (first
    | with_reducible exact hK
    | with_reducible assumption
    | with_reducible apply modInstalled_keeps
    | fail_if_no_progress with_reducible refine Keeps.lit ?_ rfl rfl rfl rfl
    | split)

theorem passGate_keeps {s₀ s₁ : State} (r : Run) (t : TileId) (idx : Nat) (q : Cue) (hK : Keeps s₀ s₁) :
    Keeps s₀ (passGate r t idx q s₁) := by
  unfold passGate
  repeat' (first
    | with_reducible exact hK
    | with_reducible assumption
    | with_reducible apply modTile_keeps
    | with_reducible apply modPass_keeps
    | fail_if_no_progress with_reducible refine Keeps.lit ?_ rfl rfl rfl rfl
    | split
    | dsimp only)

theorem askShards_keeps {s₀ s₁ : State} (i : Slot) (r : Run) (l : Nat) (hK : Keeps s₀ s₁) :
    Keeps s₀ (askShards i r l s₁) := by
  unfold askShards
  repeat' (first
    | with_reducible exact hK
    | with_reducible assumption
    | with_reducible apply refetchLayer_keeps
    | fail_if_no_progress with_reducible refine Keeps.lit ?_ rfl rfl rfl rfl
    | split
    | dsimp only)

theorem moverEffect_keeps {s₀ s₁ : State} (i : Slot) (r : Run) (t : TileId) (q : Cue) (idx : Nat) (hK : Keeps s₀ s₁) :
    Keeps s₀ (moverEffect i r t q idx s₁) := by
  unfold moverEffect
  repeat' (first
    | with_reducible exact hK
    | with_reducible assumption
    | with_reducible apply streamLayer_keeps
    | with_reducible apply sendWire_keeps
    | with_reducible apply noteLevels_keeps
    | with_reducible apply setRan_keeps
    | with_reducible apply recvCopy_keeps
    | with_reducible apply sendCopy_keeps
    | with_reducible apply askShards_keeps
    | fail_if_no_progress with_reducible refine Keeps.lit ?_ rfl rfl rfl rfl
    | split
    | dsimp only)

theorem drainIssue_keeps {s₀ s₁ : State} (i : Slot) (r : Run) (t : TileId) (q : Cue) (fault : ArithFault) (hK : Keeps s₀ s₁) :
    Keeps s₀ (drainIssue i r t q fault s₁) := by
  unfold drainIssue
  repeat' (first
    | with_reducible exact hK
    | with_reducible assumption
    | with_reducible apply modTile_keeps
    | with_reducible apply startEntry_keeps
    | fail_if_no_progress with_reducible refine Keeps.lit ?_ rfl rfl rfl rfl
    | split
    | dsimp only)

theorem wakeIssue_keeps {s₀ s₁ : State} (q : Cue) (hK : Keeps s₀ s₁) :
    Keeps s₀ (wakeIssue q s₁) := by
  unfold wakeIssue
  repeat' (first
    | with_reducible exact hK
    | with_reducible assumption
    | with_reducible apply modDie_keeps
    | fail_if_no_progress with_reducible refine Keeps.lit ?_ rfl rfl rfl rfl
    | split)

theorem attnIssue_keeps {s₀ s₁ : State} (i : Slot) (r : Run) (t : TileId) (q : Cue) (idx : Nat) (fault : ArithFault) (hK : Keeps s₀ s₁) :
    Keeps s₀ (attnIssue i r t q idx fault s₁) := by
  unfold attnIssue
  repeat' (first
    | with_reducible exact hK
    | with_reducible assumption
    | with_reducible apply modTile_keeps
    | with_reducible apply reportWork_keeps
    | with_reducible apply modFlight_keeps
    | fail_if_no_progress with_reducible refine Keeps.lit ?_ rfl rfl rfl rfl
    | with_reducible refine Keeps.litMem ?_ (filter_wf _ _) rfl rfl rfl rfl
    | with_reducible refine Keeps.litMem ?_ (fun hm => attnBlock_wf _ _ _ hm) rfl rfl rfl rfl
    | split
    | dsimp only)

theorem computeIssue_keeps {s₀ s₁ : State} (i : Slot) (r : Run) (t : TileId) (q : Cue) (idx : Nat) (fault : ArithFault) (hK : Keeps s₀ s₁) :
    Keeps s₀ (computeIssue i r t q idx fault s₁) := by
  unfold computeIssue
  repeat' (first
    | with_reducible exact hK
    | with_reducible assumption
    | with_reducible apply noteLevels_keeps
    | with_reducible apply reportWork_keeps
    | with_reducible apply setRan_keeps
    | with_reducible apply runTogether_keeps
    | with_reducible apply attnIssue_keeps
    | fail_if_no_progress with_reducible refine Keeps.lit ?_ rfl rfl rfl rfl
    | with_reducible refine Keeps.litMem ?_ (filter_wf _ _) rfl rfl rfl rfl
    | with_reducible refine Keeps.litMem ?_ (fun hm => workOf_wf _ _ _ hm) rfl rfl rfl rfl
    | split
    | dsimp only)

theorem issueEffect_keeps {s₀ s₁ : State} (i : Slot) (r : Run) (t : TileId) (q : Cue) (idx : Nat) (fault : ArithFault) (hK : Keeps s₀ s₁) :
    Keeps s₀ (issueEffect i r t q idx fault s₁) := by
  unfold issueEffect
  repeat' (first
    | with_reducible exact hK
    | with_reducible assumption
    | with_reducible apply moverEffect_keeps
    | with_reducible apply drainIssue_keeps
    | with_reducible apply wakeIssue_keeps
    | with_reducible apply computeIssue_keeps
    | fail_if_no_progress with_reducible refine Keeps.lit ?_ rfl rfl rfl rfl
    | split)

theorem useVregs_keeps {s₀ s₁ : State} (t : TileId) (q : Cue) (hK : Keeps s₀ s₁) :
    Keeps s₀ (useVregs t q s₁) := by
  unfold useVregs
  repeat' (first
    | with_reducible exact hK
    | with_reducible assumption
    | with_reducible apply modTile_keeps
    | with_reducible apply drawNext_keeps
    | fail_if_no_progress with_reducible refine Keeps.lit ?_ rfl rfl rfl rfl
    | split
    | dsimp only)

theorem issueCue_keeps {s₀ s₁ : State} (r : Run) (t : TileId) (q : Cue) (ecc : EccFinding) (fault : ArithFault) (hK : Keeps s₀ s₁) :
    Keeps s₀ (issueCue r t q ecc fault s₁) := by
  unfold issueCue
  repeat' (first
    | with_reducible exact hK
    | with_reducible assumption
    | with_reducible apply modTile_keeps
    | with_reducible apply endPass_keeps
    | with_reducible apply meetError_keeps
    | with_reducible apply openPhaseOf_keeps
    | with_reducible apply passGate_keeps
    | with_reducible apply issueEffect_keeps
    | with_reducible apply useVregs_keeps
    | fail_if_no_progress with_reducible refine Keeps.lit ?_ rfl rfl rfl rfl
    | split
    | dsimp only)

theorem execCueIssue_keeps {s₀ s₁ : State} (t : TileId) (ecc : EccFinding) (fault : ArithFault) (hK : Keeps s₀ s₁) :
    ∃ s₂, execCueIssue t ecc fault s₁ = .next s₂ ∧ Keeps s₀ s₂ := by
  refine ⟨_, rfl, ?_⟩
  repeat' (first
    | with_reducible exact hK
    | with_reducible assumption
    | with_reducible apply issueCue_keeps
    | fail_if_no_progress with_reducible refine Keeps.lit ?_ rfl rfl rfl rfl
    | split)

theorem execPrompterWaitLong_keeps {s₀ s₁ : State} (t : TileId) (hK : Keeps s₀ s₁) :
    ∃ s₂, execPrompterWaitLong t s₁ = .next s₂ ∧ Keeps s₀ s₂ := by
  refine ⟨_, rfl, ?_⟩
  repeat' (first
    | with_reducible exact hK
    | with_reducible assumption
    | with_reducible apply modTile_keeps
    | with_reducible apply cueEvent_keeps
    | fail_if_no_progress with_reducible refine Keeps.lit ?_ rfl rfl rfl rfl
    | split)

theorem wakeTiles_keeps {s₀ s₁ : State} (r : Run) (q : Cue) (hK : Keeps s₀ s₁) :
    Keeps s₀ (wakeTiles r q s₁) := by
  unfold wakeTiles
  repeat' (first
    | with_reducible exact hK
    | with_reducible assumption
    | with_reducible refine foldl_keeps ?_ (fun _ _ _ => ?_)
    | with_reducible refine foldl_fst_keeps ?_ (fun _ _ _ => ?_)
    | with_reducible apply wakeTile_keeps
    | fail_if_no_progress with_reducible refine Keeps.lit ?_ rfl rfl rfl rfl
    | split
    | dsimp only)

theorem sleepTile_keeps {s₀ s₁ : State} (t : TileId) (q : Cue) (hK : Keeps s₀ s₁) :
    Keeps s₀ (sleepTile t q s₁) := by
  unfold sleepTile
  repeat' (first
    | with_reducible exact hK
    | with_reducible assumption
    | with_reducible apply modTile_keeps
    | with_reducible apply railsDown_keeps
    | fail_if_no_progress with_reducible refine Keeps.lit ?_ rfl rfl rfl rfl
    | split
    | dsimp only)

theorem formPatches_keeps {s₀ s₁ : State} (i : Slot) (r : Run) (q : Cue) (hK : Keeps s₀ s₁) :
    Keeps s₀ (formPatches i r q s₁) := by
  unfold formPatches
  repeat' (first
    | with_reducible exact hK
    | with_reducible assumption
    | with_reducible apply modRed_keeps
    | with_reducible apply flushPatches_keeps
    | fail_if_no_progress with_reducible refine Keeps.lit ?_ rfl rfl rfl rfl
    | split
    | dsimp only)

theorem doneEffect_keeps {s₀ s₁ : State} (i : Slot) (r : Run) (t : TileId) (f : InFlight) (hK : Keeps s₀ s₁) :
    Keeps s₀ (doneEffect i r t f s₁) := by
  unfold doneEffect
  repeat' (first
    | with_reducible exact hK
    | with_reducible assumption
    | with_reducible apply modTile_keeps
    | with_reducible apply noteLevels_keeps
    | with_reducible apply recvCopy_keeps
    | with_reducible apply pinCopy_keeps
    | with_reducible apply wakeTiles_keeps
    | with_reducible apply sleepTile_keeps
    | with_reducible apply formPatches_keeps
    | fail_if_no_progress with_reducible refine Keeps.lit ?_ rfl rfl rfl rfl
    | split
    | dsimp only)

theorem completeCue_keeps {s₀ s₁ : State} (r : Run) (t : TileId) (f : InFlight) (ecc : EccFinding) (hK : Keeps s₀ s₁) :
    Keeps s₀ (completeCue r t f ecc s₁) := by
  unfold completeCue
  repeat' (first
    | with_reducible exact hK
    | with_reducible assumption
    | with_reducible apply modTile_keeps
    | with_reducible apply meetError_keeps
    | with_reducible apply signal_keeps
    | with_reducible apply doneEffect_keeps)

theorem execCueComplete_keeps {s₀ s₁ : State} (t : TileId) (index : Nat) (ecc : EccFinding) (hK : Keeps s₀ s₁) :
    ∃ s₂, execCueComplete t index ecc s₁ = .next s₂ ∧ Keeps s₀ s₂ := by
  refine ⟨_, rfl, ?_⟩
  repeat' (first
    | with_reducible exact hK
    | with_reducible assumption
    | with_reducible apply sendWire_keeps
    | with_reducible apply noteClosed_keeps
    | with_reducible apply completeCue_keeps
    | fail_if_no_progress with_reducible refine Keeps.lit ?_ rfl rfl rfl rfl
    | split
    | dsimp only)

theorem enterTiles_keeps {s₀ s₁ : State} (c : Chart) (x : Installed) (entry : Nat) (hK : Keeps s₀ s₁) :
    Keeps s₀ (enterTiles c x entry s₁) := by
  unfold enterTiles
  repeat' (first
    | with_reducible exact hK
    | with_reducible assumption
    | with_reducible refine foldl_keeps ?_ (fun _ _ _ => ?_)
    | with_reducible refine foldl_fst_keeps ?_ (fun _ _ _ => ?_)
    | with_reducible apply modTile_keeps)

theorem beginPass_keeps {s₀ s₁ : State} (i : Slot) (cmd : Cmd) (entry : Nat) (step : BitVec 32) (x : Installed) (c : Chart) (hK : Keeps s₀ s₁) :
    Keeps s₀ (beginPass i cmd entry step x c s₁) := by
  unfold beginPass
  repeat' (first
    | with_reducible exact hK
    | with_reducible assumption
    | with_reducible refine foldl_keeps ?_ (fun _ _ _ => ?_)
    | with_reducible refine foldl_fst_keeps ?_ (fun _ _ _ => ?_)
    | with_reducible refine modCtx_keeps _ ?_ (fun _ hc => hc)
    | with_reducible apply modInstalled_keeps
    | with_reducible apply sendSignals_keeps
    | with_reducible apply enterTiles_keeps
    | fail_if_no_progress with_reducible refine Keeps.lit ?_ rfl rfl rfl rfl
    | split)

theorem passStart_keeps {s₀ s₁ : State} (i : Slot) (q : QId) (r : Ready) (hK : Keeps s₀ s₁) :
    Keeps s₀ (passStart i q r s₁) := by
  unfold passStart
  repeat' (first
    | with_reducible exact hK
    | with_reducible assumption
    | with_reducible apply refuseStart_keeps
    | with_reducible apply beginPass_keeps
    | fail_if_no_progress with_reducible refine Keeps.lit ?_ rfl rfl rfl rfl
    | split
    | dsimp only)

theorem execRunPass_keeps {s₀ s₁ : State} (i : Slot) (q : QId) (hK : Keeps s₀ s₁) :
    ∃ s₂, execRunPass i q s₁ = .next s₂ ∧ Keeps s₀ s₂ := by
  refine ⟨_, rfl, ?_⟩
  repeat' (first
    | with_reducible exact hK
    | with_reducible assumption
    | with_reducible refine startRow_keeps _ _ _ ?_ (fun _ _ _ => ?_)
    | with_reducible apply passStart_keeps)

theorem finishPass_keeps {s₀ s₁ : State} (r : Run) (hK : Keeps s₀ s₁) :
    Keeps s₀ (finishPass r s₁) := by
  unfold finishPass
  repeat' (first
    | with_reducible exact hK
    | with_reducible assumption
    | with_reducible refine modCtx_keeps _ ?_ (fun _ hc => hc)
    | with_reducible apply mapTiles_keeps
    | with_reducible apply modInstalled_keeps
    | with_reducible apply completeCmd_keeps
    | with_reducible apply chooseLevels_keeps
    | fail_if_no_progress with_reducible refine Keeps.lit ?_ rfl rfl rfl rfl
    | split)

theorem execPassComplete_keeps {s₀ s₁ : State}  (hK : Keeps s₀ s₁) :
    ∃ s₂, execPassComplete s₁ = .next s₂ ∧ Keeps s₀ s₂ := by
  refine ⟨_, rfl, ?_⟩
  repeat' (first
    | with_reducible exact hK
    | with_reducible assumption
    | with_reducible apply finishPass_keeps
    | fail_if_no_progress with_reducible refine Keeps.lit ?_ rfl rfl rfl rfl
    | split)

theorem failPass_keeps {s₀ s₁ : State} (r : Run) (code : Code) (l : Nat) (hK : Keeps s₀ s₁) :
    Keeps s₀ (failPass r code l s₁) := by
  unfold failPass
  repeat' (first
    | with_reducible exact hK
    | with_reducible assumption
    | with_reducible apply endPass_keeps
    | with_reducible apply cueEvent_keeps
    | fail_if_no_progress with_reducible refine Keeps.lit ?_ rfl rfl rfl rfl
    | split
    | dsimp only)

theorem restoreArea_keeps {s₀ s₁ : State} (i : Slot) (r : Run) (m : Model) (t : TileId) (a : Nat × Nat × List Nat) (hK : Keeps s₀ s₁) :
    Keeps s₀ (restoreArea i r m t a s₁) := by
  unfold restoreArea
  repeat' (first
    | with_reducible exact hK
    | with_reducible assumption
    | with_reducible apply laySlice_keeps
    | fail_if_no_progress with_reducible refine Keeps.lit ?_ rfl rfl rfl rfl
    | split
    | dsimp only)

theorem restart_keeps {s₀ s₁ : State} (r : Run) (l : Option Nat) (hK : Keeps s₀ s₁) :
    Keeps s₀ (restart r l s₁) := by
  unfold restart
  repeat' (first
    | with_reducible exact hK
    | with_reducible assumption
    | with_reducible apply mapTiles_keeps
    | with_reducible apply report_keeps
    | with_reducible apply sumLedger_keeps
    | with_reducible apply modPass_keeps
    | fail_if_no_progress with_reducible refine Keeps.lit ?_ rfl rfl rfl rfl
    | split
    | dsimp only)

theorem replayLayer_keeps {s₀ s₁ : State} (r : Run) (l : Nat) (hK : Keeps s₀ s₁) :
    Keeps s₀ (replayLayer r l s₁) := by
  unfold replayLayer
  repeat' (first
    | with_reducible exact hK
    | with_reducible assumption
    | with_reducible refine foldl_keeps ?_ (fun _ _ _ => ?_)
    | with_reducible refine foldl_fst_keeps ?_ (fun _ _ _ => ?_)
    | with_reducible apply refetchLayer_keeps
    | with_reducible apply restoreArea_keeps
    | with_reducible apply restart_keeps
    | fail_if_no_progress with_reducible refine Keeps.lit ?_ rfl rfl rfl rfl
    | split
    | dsimp only)

theorem replay_keeps {s₀ s₁ : State} (r : Run) (hK : Keeps s₀ s₁) :
    Keeps s₀ (replay r s₁) := by
  unfold replay
  repeat' (first
    | with_reducible exact hK
    | with_reducible assumption
    | with_reducible apply failPass_keeps
    | with_reducible apply restart_keeps
    | with_reducible apply replayLayer_keeps
    | fail_if_no_progress with_reducible refine Keeps.lit ?_ rfl rfl rfl rfl
    | split)

theorem execReplayOpenLayer_keeps {s₀ s₁ : State}  (hK : Keeps s₀ s₁) :
    ∃ s₂, execReplayOpenLayer s₁ = .next s₂ ∧ Keeps s₀ s₂ := by
  refine ⟨_, rfl, ?_⟩
  repeat' (first
    | with_reducible exact hK
    | with_reducible assumption
    | with_reducible apply replay_keeps
    | fail_if_no_progress with_reducible refine Keeps.lit ?_ rfl rfl rfl rfl
    | split)

end Sys2Proof.Machine
end

