-- ==== Sys2Proof/Laws/KeepsCollectives.lean ====
section
/-! SUPPORT. What the operations and commands of Collectives keep (Laws/Keeps.lean). -/

namespace Sys2Proof.Machine

set_option linter.all false
set_option Elab.async false

open Sys2Proof

theorem modInst_keeps {s₀ s₁ : State} (desc : Nat) (f : CollInst → CollInst) (hK : Keeps s₀ s₁) :
    Keeps s₀ (modInst desc f s₁) := by
  unfold modInst
  repeat' (first
    | with_reducible exact hK
    | with_reducible assumption
    | fail_if_no_progress with_reducible refine Keeps.lit ?_ rfl rfl rfl rfl)

theorem endInst_keeps {s₀ s₁ : State} (x : CollInst) (code : Code) (initiator : Nat) (hK : Keeps s₀ s₁) :
    Keeps s₀ (endInst x code initiator s₁) := by
  unfold endInst
  repeat' (first
    | with_reducible exact hK
    | with_reducible assumption
    | with_reducible apply completeCmd_keeps
    | with_reducible apply setSeq_keeps
    | fail_if_no_progress with_reducible refine Keeps.lit ?_ rfl rfl rfl rfl)

theorem finishCounts_keeps {s₀ s₁ : State} (x : CollInst) (hK : Keeps s₀ s₁) :
    Keeps s₀ (finishCounts x s₁) := by
  unfold finishCounts
  repeat' (first
    | with_reducible exact hK
    | with_reducible assumption
    | with_reducible apply storeBytes_keeps
    | with_reducible apply abortInst_keeps
    | with_reducible apply endInst_keeps
    | fail_if_no_progress with_reducible refine Keeps.lit ?_ rfl rfl rfl rfl
    | split)

theorem sendChunk_keeps {s₀ s₁ : State} (x : CollInst) (c : Nat) (hK : Keeps s₀ s₁) :
    Keeps s₀ (sendChunk x c s₁) := by
  unfold sendChunk
  repeat' (first
    | with_reducible exact hK
    | with_reducible assumption
    | with_reducible apply sendMsg_keeps)

theorem sendPayload_keeps {s₀ s₁ : State} (x : CollInst) (hK : Keeps s₀ s₁) :
    Keeps s₀ (sendPayload x s₁) := by
  unfold sendPayload
  repeat' (first
    | with_reducible exact hK
    | with_reducible assumption
    | with_reducible refine foldl_keeps ?_ (fun _ _ _ => ?_)
    | with_reducible refine foldl_fst_keeps ?_ (fun _ _ _ => ?_)
    | with_reducible apply sendAll_keeps
    | with_reducible apply sendChunk_keeps)

theorem requestRound_keeps {s₀ s₁ : State} (x : CollInst) (hK : Keeps s₀ s₁) :
    Keeps s₀ (requestRound x s₁) := by
  unfold requestRound
  repeat' (first
    | with_reducible exact hK
    | with_reducible assumption
    | with_reducible refine foldl_keeps ?_ (fun _ _ _ => ?_)
    | with_reducible refine foldl_fst_keeps ?_ (fun _ _ _ => ?_)
    | with_reducible apply sendAll_keeps
    | with_reducible apply modInst_keeps
    | fail_if_no_progress with_reducible refine Keeps.lit ?_ rfl rfl rfl rfl
    | split
    | dsimp only)

theorem checkDigest_keeps {s₀ s₁ : State} (x : CollInst) (hK : Keeps s₀ s₁) :
    Keeps s₀ (checkDigest x s₁) := by
  unfold checkDigest
  repeat' (first
    | with_reducible exact hK
    | with_reducible assumption
    | with_reducible apply abortInst_keeps
    | with_reducible apply sendAll_keeps
    | with_reducible apply endInst_keeps
    | fail_if_no_progress with_reducible refine Keeps.lit ?_ rfl rfl rfl rfl
    | split)

theorem advanceInst_keeps {s₀ s₁ : State} (desc : Nat) (hK : Keeps s₀ s₁) :
    Keeps s₀ (advanceInst desc s₁) := by
  unfold advanceInst
  repeat' (first
    | with_reducible exact hK
    | with_reducible assumption
    | with_reducible apply storeBytes_keeps
    | with_reducible apply endInst_keeps
    | with_reducible apply finishCounts_keeps
    | with_reducible apply checkDigest_keeps
    | fail_if_no_progress with_reducible refine Keeps.lit ?_ rfl rfl rfl rfl
    | split)

theorem applyMsg_keeps {s₀ s₁ : State} (x : CollInst) (m : HeldMsg) (hK : Keeps s₀ s₁) :
    Keeps s₀ (applyMsg x m s₁) := by
  unfold applyMsg
  repeat' (first
    | with_reducible exact hK
    | with_reducible assumption
    | with_reducible apply storeBytes_keeps
    | with_reducible apply abortInst_keeps
    | with_reducible apply discardColl_keeps
    | with_reducible apply modInst_keeps
    | with_reducible apply sendChunk_keeps
    | with_reducible apply requestRound_keeps
    | fail_if_no_progress with_reducible refine Keeps.lit ?_ rfl rfl rfl rfl
    | split
    | dsimp only)

theorem takeMsg_keeps {s₀ s₁ : State} (x : CollInst) (h : CollHdr) (m : HeldMsg) (hK : Keeps s₀ s₁) :
    Keeps s₀ (takeMsg x h m s₁) := by
  unfold takeMsg
  repeat' (first
    | with_reducible exact hK
    | with_reducible assumption
    | with_reducible apply abortInst_keeps
    | with_reducible apply discardColl_keeps
    | with_reducible apply advanceInst_keeps
    | with_reducible apply applyMsg_keeps
    | fail_if_no_progress with_reducible refine Keeps.lit ?_ rfl rfl rfl rfl
    | split)

theorem collMsg_keeps {s₀ s₁ : State} (p : PortId) (h : CollHdr) (m : HeldMsg) (hK : Keeps s₀ s₁) :
    Keeps s₀ (collMsg p h m s₁) := by
  unfold collMsg
  repeat' (first
    | with_reducible exact hK
    | with_reducible assumption
    | with_reducible apply discardColl_keeps
    | with_reducible apply holdMsg_keeps
    | with_reducible apply takeMsg_keeps
    | fail_if_no_progress with_reducible refine Keeps.lit ?_ rfl rfl rfl rfl
    | split)

theorem execCountsVec_keeps {s₀ s₁ : State} (p : PortId) (h : CollHdr) (v : List (BitVec 64)) (hK : Keeps s₀ s₁) :
    ∃ s₂, execCountsVec p h v s₁ = .next s₂ ∧ Keeps s₀ s₂ := by
  refine ⟨_, rfl, ?_⟩
  repeat' (first
    | with_reducible exact hK
    | with_reducible assumption
    | with_reducible apply collMsg_keeps)

theorem execScalarVec_keeps {s₀ s₁ : State} (p : PortId) (h : CollHdr) (v : List Word) (hK : Keeps s₀ s₁) :
    ∃ s₂, execScalarVec p h v s₁ = .next s₂ ∧ Keeps s₀ s₂ := by
  refine ⟨_, rfl, ?_⟩
  repeat' (first
    | with_reducible exact hK
    | with_reducible assumption
    | with_reducible apply collMsg_keeps)

theorem execBcastChunk_keeps {s₀ s₁ : State} (p : PortId) (h : CollHdr) (data : Bytes) (hK : Keeps s₀ s₁) :
    ∃ s₂, execBcastChunk p h data s₁ = .next s₂ ∧ Keeps s₀ s₂ := by
  refine ⟨_, rfl, ?_⟩
  repeat' (first
    | with_reducible exact hK
    | with_reducible assumption
    | with_reducible apply collMsg_keeps)

theorem execBcastEnd_keeps {s₀ s₁ : State} (p : PortId) (h : CollHdr) (length : Word) (digest : Bytes) (hK : Keeps s₀ s₁) :
    ∃ s₂, execBcastEnd p h length digest s₁ = .next s₂ ∧ Keeps s₀ s₂ := by
  refine ⟨_, rfl, ?_⟩
  repeat' (first
    | with_reducible exact hK
    | with_reducible assumption
    | with_reducible apply collMsg_keeps)

theorem execBcastDone_keeps {s₀ s₁ : State} (p : PortId) (h : CollHdr) (hK : Keeps s₀ s₁) :
    ∃ s₂, execBcastDone p h s₁ = .next s₂ ∧ Keeps s₀ s₂ := by
  refine ⟨_, rfl, ?_⟩
  repeat' (first
    | with_reducible exact hK
    | with_reducible assumption
    | with_reducible apply collMsg_keeps)

theorem execArrive_keeps {s₀ s₁ : State} (p : PortId) (h : CollHdr) (hK : Keeps s₀ s₁) :
    ∃ s₂, execArrive p h s₁ = .next s₂ ∧ Keeps s₀ s₂ := by
  refine ⟨_, rfl, ?_⟩
  repeat' (first
    | with_reducible exact hK
    | with_reducible assumption
    | with_reducible apply collMsg_keeps)

theorem execBcastReq_keeps {s₀ s₁ : State} (p : PortId) (h : CollHdr) (hK : Keeps s₀ s₁) :
    ∃ s₂, execBcastReq p h s₁ = .next s₂ ∧ Keeps s₀ s₂ := by
  refine ⟨_, rfl, ?_⟩
  repeat' (first
    | with_reducible exact hK
    | with_reducible assumption
    | with_reducible apply collMsg_keeps
    | fail_if_no_progress with_reducible refine Keeps.lit ?_ rfl rfl rfl rfl
    | split
    | dsimp only)

theorem execBcastReqRound_keeps {s₀ s₁ : State} (desc : BitVec 16) (hK : Keeps s₀ s₁) :
    ∃ s₂, execBcastReqRound desc s₁ = .next s₂ ∧ Keeps s₀ s₂ := by
  refine ⟨_, rfl, ?_⟩
  repeat' (first
    | with_reducible exact hK
    | with_reducible assumption
    | with_reducible apply requestRound_keeps
    | with_reducible apply checkDigest_keeps
    | fail_if_no_progress with_reducible refine Keeps.lit ?_ rfl rfl rfl rfl
    | split)

theorem sendFirst_keeps {s₀ s₁ : State} (x : CollInst) (hK : Keeps s₀ s₁) :
    Keeps s₀ (sendFirst x s₁) := by
  unfold sendFirst
  repeat' (first
    | with_reducible exact hK
    | with_reducible assumption
    | with_reducible apply sendAll_keeps
    | with_reducible apply sendPayload_keeps
    | fail_if_no_progress with_reducible refine Keeps.lit ?_ rfl rfl rfl rfl
    | split)

theorem replayHeld_keeps {s₀ s₁ : State} (desc : Nat) (l : List HeldMsg) (hK : Keeps s₀ s₁) :
    Keeps s₀ (replayHeld desc l s₁) := by
  unfold replayHeld
  repeat' (first
    | with_reducible exact hK
    | with_reducible assumption
    | with_reducible refine foldl_keeps ?_ (fun _ _ _ => ?_)
    | with_reducible refine foldl_fst_keeps ?_ (fun _ _ _ => ?_)
    | with_reducible apply takeMsg_keeps
    | fail_if_no_progress with_reducible refine Keeps.lit ?_ rfl rfl rfl rfl
    | split)

theorem collRun_keeps {s₀ s₁ : State} (i : Slot) (q : QId) (r : Ready) (kind : Nat) (b : CollBody) (hK : Keeps s₀ s₁) :
    Keeps s₀ (collRun i q r kind b s₁) := by
  unfold collRun
  repeat' (first
    | with_reducible exact hK
    | with_reducible assumption
    | with_reducible apply addRunning_keeps
    | with_reducible apply discardStale_keeps
    | with_reducible apply endInst_keeps
    | with_reducible apply advanceInst_keeps
    | with_reducible apply sendFirst_keeps
    | with_reducible apply replayHeld_keeps
    | fail_if_no_progress with_reducible refine Keeps.lit ?_ rfl rfl rfl rfl
    | split
    | dsimp only)

theorem collStart_keeps {s₀ s₁ : State} (kind : Nat) (i : Slot) (q : QId) (r : Ready) (hK : Keeps s₀ s₁) :
    Keeps s₀ (collStart kind i q r s₁) := by
  unfold collStart
  repeat' (first
    | with_reducible exact hK
    | with_reducible assumption
    | with_reducible apply refuseStart_keeps
    | with_reducible apply collRun_keeps
    | fail_if_no_progress with_reducible refine Keeps.lit ?_ rfl rfl rfl rfl
    | split
    | dsimp only)

theorem execCounts_keeps {s₀ s₁ : State} (i : Slot) (q : QId) (hK : Keeps s₀ s₁) :
    ∃ s₂, execCounts i q s₁ = .next s₂ ∧ Keeps s₀ s₂ := by
  refine ⟨_, rfl, ?_⟩
  repeat' (first
    | with_reducible exact hK
    | with_reducible assumption
    | with_reducible refine startRow_keeps _ _ _ ?_ (fun _ _ _ => ?_)
    | with_reducible apply collStart_keeps)

theorem execScalarSum_keeps {s₀ s₁ : State} (i : Slot) (q : QId) (hK : Keeps s₀ s₁) :
    ∃ s₂, execScalarSum i q s₁ = .next s₂ ∧ Keeps s₀ s₂ := by
  refine ⟨_, rfl, ?_⟩
  repeat' (first
    | with_reducible exact hK
    | with_reducible assumption
    | with_reducible refine startRow_keeps _ _ _ ?_ (fun _ _ _ => ?_)
    | with_reducible apply collStart_keeps)

theorem execBroadcast_keeps {s₀ s₁ : State} (i : Slot) (q : QId) (hK : Keeps s₀ s₁) :
    ∃ s₂, execBroadcast i q s₁ = .next s₂ ∧ Keeps s₀ s₂ := by
  refine ⟨_, rfl, ?_⟩
  repeat' (first
    | with_reducible exact hK
    | with_reducible assumption
    | with_reducible refine startRow_keeps _ _ _ ?_ (fun _ _ _ => ?_)
    | with_reducible apply collStart_keeps)

theorem execBarrier_keeps {s₀ s₁ : State} (i : Slot) (q : QId) (hK : Keeps s₀ s₁) :
    ∃ s₂, execBarrier i q s₁ = .next s₂ ∧ Keeps s₀ s₂ := by
  refine ⟨_, rfl, ?_⟩
  repeat' (first
    | with_reducible exact hK
    | with_reducible assumption
    | with_reducible refine startRow_keeps _ _ _ ?_ (fun _ _ _ => ?_)
    | with_reducible apply collStart_keeps)

theorem execCollectiveTimeout_keeps {s₀ s₁ : State} (desc : BitVec 16) (hK : Keeps s₀ s₁) :
    ∃ s₂, execCollectiveTimeout desc s₁ = .next s₂ ∧ Keeps s₀ s₂ := by
  refine ⟨_, rfl, ?_⟩
  repeat' (first
    | with_reducible exact hK
    | with_reducible assumption
    | with_reducible apply abortInst_keeps
    | fail_if_no_progress with_reducible refine Keeps.lit ?_ rfl rfl rfl rfl
    | split)

theorem takeAbort_keeps {s₀ s₁ : State} (a : AbortSym) (hK : Keeps s₀ s₁) :
    Keeps s₀ (takeAbort a s₁) := by
  unfold takeAbort
  repeat' (first
    | with_reducible exact hK
    | with_reducible assumption
    | with_reducible apply modRed_keeps
    | with_reducible apply collEvent_keeps
    | with_reducible apply discardColl_keeps
    | with_reducible apply holdMsg_keeps
    | with_reducible apply modInst_keeps
    | fail_if_no_progress with_reducible refine Keeps.lit ?_ rfl rfl rfl rfl
    | split
    | dsimp only)

theorem execAbortSymbol_keeps {s₀ s₁ : State} (p : PortId) (w : Codeword) (hK : Keeps s₀ s₁) :
    ∃ s₂, execAbortSymbol p w s₁ = .next s₂ ∧ Keeps s₀ s₂ := by
  refine ⟨_, rfl, ?_⟩
  repeat' (first
    | with_reducible exact hK
    | with_reducible assumption
    | with_reducible apply takeStatus_keeps
    | with_reducible apply takeAbort_keeps
    | fail_if_no_progress with_reducible refine Keeps.lit ?_ rfl rfl rfl rfl
    | split
    | dsimp only)

theorem execAbortWaitExpire_keeps {s₀ s₁ : State} (desc : BitVec 16) (hK : Keeps s₀ s₁) :
    ∃ s₂, execAbortWaitExpire desc s₁ = .next s₂ ∧ Keeps s₀ s₂ := by
  refine ⟨_, rfl, ?_⟩
  repeat' (first
    | with_reducible exact hK
    | with_reducible assumption
    | with_reducible apply abortedRed_keeps
    | with_reducible apply endInst_keeps
    | fail_if_no_progress with_reducible refine Keeps.lit ?_ rfl rfl rfl rfl
    | split)

end Sys2Proof.Machine
end

