-- ==== Sys2Proof/Laws/KeepsLogSnapshot.lean ====
section
/-! SUPPORT. What the operations and commands of LogSnapshot keep (Laws/Keeps.lean). -/

namespace Sys2Proof.Machine

set_option linter.all false
set_option Elab.async false

open Sys2Proof

theorem snapshotStart_keeps {s₀ s₁ : State} (i : Slot) (q : QId) (r : Ready) (hK : Keeps s₀ s₁) :
    Keeps s₀ (snapshotStart i q r s₁) := by
  unfold snapshotStart
  repeat' (first
    | with_reducible exact hK
    | with_reducible assumption
    | with_reducible apply storeBytes_keeps
    | with_reducible apply refuseStart_keeps
    | with_reducible apply atOnce_keeps
    | fail_if_no_progress with_reducible refine Keeps.lit ?_ rfl rfl rfl rfl
    | split
    | dsimp only)

theorem execLogSnapshot_keeps {s₀ s₁ : State} (i : Slot) (q : QId) (hK : Keeps s₀ s₁) :
    ∃ s₂, execLogSnapshot i q s₁ = .next s₂ ∧ Keeps s₀ s₂ := by
  refine ⟨_, rfl, ?_⟩
  repeat' (first
    | with_reducible exact hK
    | with_reducible assumption
    | with_reducible refine startRow_keeps _ _ _ ?_ (fun _ _ _ => ?_)
    | with_reducible apply snapshotStart_keeps)

end Sys2Proof.Machine
end

