-- ==== Sys2Proof/Laws/KeepsRegs.lean ====
section
/-! SUPPORT. What the operations and commands of Regs keep (Laws/Keeps.lean). -/

namespace Sys2Proof.Machine

set_option linter.all false
set_option Elab.async false

open Sys2Proof

theorem requestOf_moves (op : Nat) (i : Slot) (req : Bytes) (s : State) : Moves s (requestOf op i req s).2 := by
  unfold requestOf
  split
  · exact (openRequest_keeps _ _ (.refl _)).moves
  split
  · exact closeRequest_moves _ _ _
  split
  · exact switchRequest_moves _ _ _
  split
  · exact (reportRequest_keeps _ _ (.refl _)).moves
  split
  · exact (installRequest_keeps _ _ (.refl _)).moves
  split
  · exact (removeRequest_keeps _ _ (.refl _)).moves
  split
  · exact (enrollRequest_keeps _ _ (.refl _)).moves
  split
  · exact (planeRequest_keeps _ _ (.refl _)).moves
  split
  · exact (certsRequest_keeps _ _ (.refl _)).moves
  · exact .refl _

theorem goMailbox_moves (s : State) : Moves s (goMailbox s) := by
  unfold goMailbox
  dsimp only
  have h := mailbox_moves (s₁ := s) s.sec.opcode.toNat s.sec.slot.toFin (requestBytes s)
    (f := requestOf s.sec.opcode.toNat) fun s' => requestOf_moves _ _ _ s'
  generalize mailbox s.sec.opcode.toNat (requestOf s.sec.opcode.toNat) s.sec.slot.toFin (requestBytes s) s = t at h
  exact h.trans (Keeps.moves (by exact Keeps.lit (.refl _) rfl rfl rfl rfl))

theorem serveWaiting_moves (s : State) : Moves s (serveWaiting s) := by
  unfold serveWaiting
  split
  · exact .refl _
  · rename_i op i req _
    split
    · have h2 : Moves s { s with sec := { s.sec with waiting := none } } :=
        Keeps.moves (by exact Keeps.lit (.refl _) rfl rfl rfl rfl)
      exact h2.trans (serveRequest_moves op i req (requestOf_moves _ _ _ _))
    · exact .refl _

theorem execCurtainEnd_moves (s₁ : State) : ∃ s₂, execCurtainEnd s₁ = .next s₂ ∧ Moves s₁ s₂ := by
  refine ⟨_, rfl, ?_⟩
  split
  · exact .refl _
  · rename_i hx
    split
    · rename_i hs
      exact ((endCurtain_moves _ hx hs).trans (pumpPorts_keeps (.refl _)).moves).trans (serveWaiting_moves _)
    · exact .refl _

theorem startField_keeps {s₀ s₁ : State} (kind : BitVec 4) (hK : Keeps s₀ s₁) :
    Keeps s₀ (startField kind s₁) := by
  unfold startField
  repeat' (first
    | with_reducible exact hK
    | with_reducible assumption
    | with_reducible apply mapDies_keeps
    | with_reducible apply report_keeps
    | fail_if_no_progress with_reducible refine Keeps.lit ?_ rfl rfl rfl rfl
    | split
    | dsimp only)

theorem execFieldTileCheck_keeps {s₀ s₁ : State}  (hK : Keeps s₀ s₁) :
    ∃ s₂, execFieldTileCheck s₁ = .next s₂ ∧ Keeps s₀ s₂ := by
  refine ⟨_, rfl, ?_⟩
  repeat' (first
    | with_reducible exact hK
    | with_reducible assumption
    | with_reducible refine when'_keeps _ ?_ (fun _ _ => ?_)
    | with_reducible apply startField_keeps)

theorem execFieldCellColumnBist_keeps {s₀ s₁ : State}  (hK : Keeps s₀ s₁) :
    ∃ s₂, execFieldCellColumnBist s₁ = .next s₂ ∧ Keeps s₀ s₂ := by
  refine ⟨_, rfl, ?_⟩
  repeat' (first
    | with_reducible exact hK
    | with_reducible assumption
    | with_reducible refine when'_keeps _ ?_ (fun _ _ => ?_)
    | with_reducible apply startField_keeps)

theorem execFieldDeckCheck_keeps {s₀ s₁ : State}  (hK : Keeps s₀ s₁) :
    ∃ s₂, execFieldDeckCheck s₁ = .next s₂ ∧ Keeps s₀ s₂ := by
  refine ⟨_, rfl, ?_⟩
  repeat' (first
    | with_reducible exact hK
    | with_reducible assumption
    | with_reducible refine when'_keeps _ ?_ (fun _ _ => ?_)
    | with_reducible apply startField_keeps)

theorem execFieldStackMarch_keeps {s₀ s₁ : State}  (hK : Keeps s₀ s₁) :
    ∃ s₂, execFieldStackMarch s₁ = .next s₂ ∧ Keeps s₀ s₂ := by
  refine ⟨_, rfl, ?_⟩
  repeat' (first
    | with_reducible exact hK
    | with_reducible assumption
    | with_reducible refine when'_keeps _ ?_ (fun _ _ => ?_)
    | with_reducible apply startField_keeps)

theorem afterField_keeps {s₀ s₁ : State} (kind : BitVec 4) (hK : Keeps s₀ s₁) :
    Keeps s₀ (afterField kind s₁) := by
  unfold afterField
  repeat' (first
    | with_reducible exact hK
    | with_reducible assumption
    | with_reducible apply railsDown_keeps
    | with_reducible apply loseDeckSram_keeps
    | fail_if_no_progress with_reducible refine Keeps.lit ?_ rfl rfl rfl rfl
    | with_reducible refine Keeps.litMem ?_ (filter_wf _ _) rfl rfl rfl rfl
    | split)

theorem endField_keeps {s₀ s₁ : State} (kind : BitVec 4) (faults : List Part) (tracks : List (LinkDir × Nat × Nat)) (elapsedMs : Word) (hK : Keeps s₀ s₁) :
    Keeps s₀ (endField kind faults tracks elapsedMs s₁) := by
  unfold endField
  repeat' (first
    | with_reducible exact hK
    | with_reducible assumption
    | with_reducible apply report_keeps
    | with_reducible apply recordFaults_keeps
    | with_reducible apply afterField_keeps
    | fail_if_no_progress with_reducible refine Keeps.lit ?_ rfl rfl rfl rfl
    | split)

theorem execFieldTestComplete_keeps {s₀ s₁ : State} (faults : List Part) (tracks : List (LinkDir × Nat × Nat)) (elapsedMs : Word) (hK : Keeps s₀ s₁) :
    ∃ s₂, execFieldTestComplete faults tracks elapsedMs s₁ = .next s₂ ∧ Keeps s₀ s₂ := by
  refine ⟨_, rfl, ?_⟩
  repeat' (first
    | with_reducible exact hK
    | with_reducible assumption
    | with_reducible apply endField_keeps
    | fail_if_no_progress with_reducible refine Keeps.lit ?_ rfl rfl rfl rfl
    | split)

theorem setLog_keeps {s₀ s₁ : State} (l : EventLog) (hK : Keeps s₀ s₁) (hl : l.records = s₁.log.records) :
    Keeps s₀ { s₁ with log := l } :=
  hK.same rfl rfl rfl rfl rfl hl rfl rfl rfl rfl rfl

theorem latchEvent_keeps {s₀ s₁ : State} (i : BitVec 12) (hK : Keeps s₀ s₁) : Keeps s₀ (latchEvent i s₁) := by
  unfold latchEvent
  exact setLog_keeps _ hK rfl

theorem execEvIndexWrite_keeps {s₀ s₁ : State} (i : BitVec 12) (hK : Keeps s₀ s₁) :
    ∃ s₂, execEvIndexWrite i s₁ = .next s₂ ∧ Keeps s₀ s₂ := by
  refine ⟨_, rfl, ?_⟩
  repeat' (first
    | with_reducible exact hK
    | with_reducible assumption
    | with_reducible refine when'_keeps _ ?_ (fun _ _ => ?_)
    | with_reducible apply latchEvent_keeps)

theorem writeEngine_keeps {s₀ s₁ : State} (o : Nat) (w : Word) (hK : Keeps s₀ s₁) :
    Keeps s₀ (writeEngine o w s₁) := by
  unfold writeEngine
  repeat' (first
    | with_reducible exact hK
    | with_reducible assumption
    | with_reducible apply sendPending_keeps
    | with_reducible apply decideFailover_keeps
    | fail_if_no_progress with_reducible refine Keeps.lit ?_ rfl rfl rfl rfl
    | split)

theorem writeQueue_keeps {s₀ s₁ : State} (i : Slot) (q : QId) (o : Nat) (w : Word) (hK : Keeps s₀ s₁) :
    Keeps s₀ (writeQueue i q o w s₁) := by
  unfold writeQueue
  repeat' (first
    | with_reducible exact hK
    | with_reducible assumption
    | with_reducible apply modQueue_keeps
    | with_reducible apply cancelQueue_keeps
    | fail_if_no_progress with_reducible refine Keeps.lit ?_ rfl rfl rfl rfl
    | split)

theorem writeRing_keeps {s₀ s₁ : State} (i : Slot) (w : Word) (hK : Keeps s₀ s₁) :
    Keeps s₀ (writeRing i w s₁) := by
  unfold writeRing
  repeat' (first
    | with_reducible exact hK
    | with_reducible assumption
    | with_reducible refine modCtx_keeps _ ?_ (fun _ hc => hc)
    | with_reducible apply enableRing_keeps
    | with_reducible apply disableRing_keeps
    | fail_if_no_progress with_reducible refine Keeps.lit ?_ rfl rfl rfl rfl
    | split
    | dsimp only)

theorem writeCtx_keeps {s₀ s₁ : State} (i : Slot) (o : Nat) (w : Word) (hK : Keeps s₀ s₁) :
    Keeps s₀ (writeCtx i o w s₁) := by
  unfold writeCtx
  repeat' (first
    | with_reducible exact hK
    | with_reducible assumption
    | with_reducible refine modCtx_keeps _ ?_ (fun _ hc => hc)
    | with_reducible apply headWrite_keeps
    | with_reducible apply writeQueue_keeps
    | with_reducible apply writeRing_keeps
    | fail_if_no_progress with_reducible refine Keeps.lit ?_ rfl rfl rfl rfl
    | split)

theorem writeLoader_keeps {s₀ s₁ : State} (o : Nat) (w : Word) (hK : Keeps s₀ s₁) :
    Keeps s₀ (writeLoader o w s₁) := by
  unfold writeLoader
  repeat' (first
    | with_reducible exact hK
    | with_reducible assumption
    | with_reducible apply setLoadCtrl_keeps
    | with_reducible apply startOp_keeps
    | with_reducible apply reservedOp_keeps
    | fail_if_no_progress with_reducible refine Keeps.lit ?_ rfl rfl rfl rfl
    | split
    | dsimp only)

theorem writePower_keeps {s₀ s₁ : State} (o : Nat) (w : Word) (hK : Keeps s₀ s₁) :
    Keeps s₀ (writePower o w s₁) := by
  unfold writePower
  repeat' (first
    | with_reducible exact hK
    | with_reducible assumption
    | fail_if_no_progress with_reducible refine Keeps.lit ?_ rfl rfl rfl rfl
    | split)

theorem writePortCtrl_keeps {s₀ s₁ : State} (p : PortId) (w : Word) (hK : Keeps s₀ s₁) :
    Keeps s₀ (writePortCtrl p w s₁) := by
  unfold writePortCtrl
  repeat' (first
    | with_reducible exact hK
    | with_reducible assumption
    | with_reducible apply modPort_keeps
    | with_reducible apply trainPort_keeps
    | with_reducible apply setEnable_keeps
    | fail_if_no_progress with_reducible refine Keeps.lit ?_ rfl rfl rfl rfl
    | split)

theorem writePort_keeps {s₀ s₁ : State} (p : PortId) (o : Nat) (w : Word) (hK : Keeps s₀ s₁) :
    Keeps s₀ (writePort p o w s₁) := by
  unfold writePort
  repeat' (first
    | with_reducible exact hK
    | with_reducible assumption
    | with_reducible apply modPort_keeps
    | with_reducible apply writePortCtrl_keeps
    | fail_if_no_progress with_reducible refine Keeps.lit ?_ rfl rfl rfl rfl
    | split)

theorem writeLog_keeps {s₀ s₁ : State} (o : Nat) (w : Word) (hK : Keeps s₀ s₁) : Keeps s₀ (writeLog o w s₁) := by
  unfold writeLog
  repeat' (first
    | with_reducible exact hK
    | with_reducible apply latchEvent_keeps
    | exact setLog_keeps _ hK rfl
    | with_reducible refine Keeps.lit hK rfl rfl rfl rfl
    | split)

theorem writeNv_keeps {s₀ s₁ : State} (o : Nat) (w : Word) (hK : Keeps s₀ s₁) :
    Keeps s₀ (writeNv o w s₁) := by
  unfold writeNv
  repeat' (first
    | with_reducible exact hK
    | with_reducible assumption
    | with_reducible apply requestStore_keeps
    | fail_if_no_progress with_reducible refine Keeps.lit ?_ rfl rfl rfl rfl
    | split)

theorem writeSec_moves (o : Nat) (w : Word) (s : State) : Moves s (writeSec o w s) := by
  unfold writeSec
  dsimp only
  refine ite_moves (ite_moves (Moves.trans ?_ (goMailbox_moves _)) ?_) (ite_moves ?_ (ite_moves ?_ (.refl _))) <;>
    exact Keeps.moves (by exact Keeps.lit (.refl _) rfl rfl rfl rfl)

theorem writeTest_keeps {s₀ s₁ : State} (o : Nat) (w : Word) (hK : Keeps s₀ s₁) :
    Keeps s₀ (writeTest o w s₁) := by
  unfold writeTest
  repeat' (first
    | with_reducible exact hK
    | with_reducible assumption
    | with_reducible apply startPattern_keeps
    | with_reducible apply endPattern_keeps
    | with_reducible apply startField_keeps
    | fail_if_no_progress with_reducible refine Keeps.lit ?_ rfl rfl rfl rfl
    | split
    | dsimp only)

theorem writeReg_moves (a : Nat) (w : Word) (s : State) : Moves s (writeReg a w s) := by
  unfold writeReg
  exact ite_moves (.refl _) <| ite_moves (writeEngine_keeps _ _ (.refl _)).moves <|
    ite_moves (writeCtx_keeps _ _ _ (.refl _)).moves <| ite_moves (.refl _) <|
    ite_moves (writeLoader_keeps _ _ (.refl _)).moves <| ite_moves (writePower_keeps _ _ (.refl _)).moves <|
    ite_moves (writePort_keeps _ _ _ (.refl _)).moves <|
    ite_moves (ite_moves (Keeps.moves (by exact Keeps.lit (.refl _) rfl rfl rfl rfl)) (.refl _)) <|
    ite_moves (writeLog_keeps _ _ (.refl _)).moves <| ite_moves (writeNv_keeps _ _ (.refl _)).moves <|
    ite_moves (writeSec_moves _ _ _) <| ite_moves (writeTest_keeps _ _ (.refl _)).moves (.refl _)

theorem execRegisterWrite_moves (addr : BitVec 24) (value : Word) (s₁ : State) :
    ∃ s₂, execRegisterWrite addr value s₁ = .next s₂ ∧ Moves s₁ s₂ :=
  ⟨_, rfl, when'_moves _ (writeReg_moves _ _ _)⟩

end Sys2Proof.Machine
end

