-- ==== Sys2Proof/Laws/KeepsTick.lean ====
section
/-! SUPPORT. What the operations and commands of Tick keep (Laws/Keeps.lean). -/

namespace Sys2Proof.Machine

set_option linter.all false
set_option Elab.async false

open Sys2Proof

theorem checkTask_keeps {s₀ s₁ : State} (k : BgTask) (hK : Keeps s₀ s₁) :
    Keeps s₀ (checkTask s₁ k) := by
  unfold checkTask
  repeat' (first
    | with_reducible exact hK
    | with_reducible assumption
    | with_reducible apply report_keeps
    | fail_if_no_progress with_reducible refine Keeps.lit ?_ rfl rfl rfl rfl
    | split
    | dsimp only)

theorem pauseTests_keeps {s₀ s₁ : State}  (hK : Keeps s₀ s₁) :
    Keeps s₀ (pauseTests s₁) := by
  unfold pauseTests
  repeat' (first
    | with_reducible exact hK
    | with_reducible assumption
    | fail_if_no_progress with_reducible refine Keeps.lit ?_ rfl rfl rfl rfl
    | split
    | dsimp only)

theorem workTick_keeps {s₀ s₁ : State}  (hK : Keeps s₀ s₁) :
    Keeps s₀ (workTick s₁) := by
  unfold workTick
  repeat' (first
    | with_reducible exact hK
    | with_reducible assumption
    | with_reducible refine foldl_keeps ?_ (fun _ _ _ => ?_)
    | with_reducible refine foldl_fst_keeps ?_ (fun _ _ _ => ?_)
    | with_reducible apply checkTask_keeps
    | with_reducible apply pauseTests_keeps
    | fail_if_no_progress with_reducible refine Keeps.lit ?_ rfl rfl rfl rfl
    | split
    | dsimp only)

theorem houseTick_moves (s : State) : Moves s (houseTick s) := by
  unfold houseTick
  split
  · have h2 : Moves s (workTick { s with ticks := s.ticks + 1 }) :=
      Keeps.moves (workTick_keeps (by exact Keeps.lit (.refl _) rfl rfl rfl rfl))
    exact (h2.trans (serveWaiting_moves _)).trans (serveMgmt_moves _)
  · exact .refl _

end Sys2Proof.Machine
end

