-- ==== Sys2Proof/Laws/Runs.lean ====
section
/-! SUPPORT. How a command that has an enabling condition answers: with its effect where the condition holds, with the
state as it was where it does not (log entry 1). -/

namespace Sys2Proof.Machine

set_option linter.all false
set_option Elab.async false

open Sys2Proof

/-- A command whose condition holds answers its effect. -/
theorem exec_when {c : Instr} {s : State} {g : Bool} {f : State → State} {P : State → Prop}
    (h : exec c s = .next (when' g f s)) (hg : g = true) (hP : P (f s)) : ∃ t, exec c s = .next t ∧ P t :=
  ⟨f s, by rw [h, hg, when'_true], hP⟩

/-- A command whose condition does not hold changes nothing. -/
theorem exec_when_not {c : Instr} {s : State} {g : Bool} {f : State → State}
    (h : exec c s = .next (when' g f s)) (hg : g = false) : exec c s = .next s := by
  rw [h, hg, when'_false]

/-- Emitting outputs one by one appends them. -/
theorem foldl_emit (l : List Output) (s : State) : l.foldl (fun s o => emit o s) s = { s with out := s.out ++ l } := by
  induction l generalizing s with
  | nil => simp
  | cons o l ih =>
    rw [List.foldl_cons, ih]
    show ({ s with out := (s.out ++ [o]) ++ l } : State) = _
    rw [List.append_assoc]
    rfl

/-- Sending a training message appends what `trainOut` gives and changes nothing else. -/
theorem sayTraining_eq (p : PortId) (kind : Nat) (b : Bytes) (s : State) :
    sayTraining p kind b s = { s with out := s.out ++ trainOut p kind b } :=
  foldl_emit _ s

/-- Paying owed credits changes nothing of a port but what it owes. -/
theorem payCredits_eq (p : Port) : ∃ o, payCredits p = { p with owed := o } := by
  unfold payCredits
  split
  · exact ⟨_, rfl⟩
  · exact ⟨p.owed, rfl⟩

/-- A part outside a frame's list is as it was. -/
theorem changesOnly_same {L : List Block} {s t : State} (h : changesOnly L s t) (b : Block) (hb : b ∉ L) :
    unchanged s t b :=
  h.2 b hb

/-- A command at the head of a queue that may start runs its course after its entries are consumed. -/
theorem startRow_headStarts {op : Nat} {f : Slot → QId → Ready → State → State} {i : Slot} {q : QId} {s : State} {r : Ready}
    (h : headStarts op i q s r) : startRow op f i q s = f i q r (started i q r s) := by
  obtain ⟨h1, h2, h3⟩ := h
  unfold startRow
  rw [if_pos h1]
  dsimp only
  rw [h2]
  dsimp only
  rw [if_pos h3]
  rfl

/-! ### One tile of the list -/

theorem modTile_tileOf_same {s : State} (t : TileId) (f : Tile → Tile) (h : canon Tile.reset s.tiles = true) :
    (modTile t f s).tileOf t = f (s.tileOf t) :=
  look_store_same _ _ _ _ h

/-- An update of one tile keeps the tile list in its canonical form. -/
theorem modTile_canon {s : State} (t : TileId) (f : Tile → Tile) (h : canon Tile.reset s.tiles = true) :
    canon Tile.reset (modTile t f s).tiles = true :=
  canon_store _ _ _ _ h

theorem modTile_tileOf_other {s : State} (t u : TileId) (f : Tile → Tile) (h : canon Tile.reset s.tiles = true)
    (hu : u ≠ t) : (modTile t f s).tileOf u = s.tileOf u :=
  look_store_other _ _ _ _ _ h fun e => hu (Fin.ext e)

/-! ### The host attach under a report: its ports, roles and counts stay -/

@[simp] theorem sendMsix_host_activePort (v : BitVec 6) (s : State) : (sendMsix v s).host.activePort = s.host.activePort := by
  unfold sendMsix; split <;> rfl

@[simp] theorem sendMsix_host_ports (v : BitVec 6) (s : State) : (sendMsix v s).host.ports = s.host.ports := by
  unfold sendMsix; split <;> rfl

@[simp] theorem sendMsix_host_autoFailover (v : BitVec 6) (s : State) : (sendMsix v s).host.autoFailover = s.host.autoFailover := by
  unfold sendMsix; split <;> rfl

@[simp] theorem sendMsix_host_failover (v : BitVec 6) (s : State) : (sendMsix v s).host.failover = s.host.failover := by
  unfold sendMsix; split <;> rfl

@[simp] theorem sendMsix_host_autoArmed (v : BitVec 6) (s : State) : (sendMsix v s).host.autoArmed = s.host.autoArmed := by
  unfold sendMsix; split <;> rfl

@[simp] theorem sendMsix_host_autoRetry (v : BitVec 6) (s : State) : (sendMsix v s).host.autoRetry = s.host.autoRetry := by
  unfold sendMsix; split <;> rfl

@[simp] theorem sendMsix_host_swapPending (v : BitVec 6) (s : State) : (sendMsix v s).host.swapPending = s.host.swapPending := by
  unfold sendMsix; split <;> rfl

@[simp] theorem sendMsix_host_standbyCount (v : BitVec 6) (s : State) : (sendMsix v s).host.standbyCount = s.host.standbyCount := by
  unfold sendMsix; split <;> rfl

@[simp] theorem sendMsix_host_outsideCount (v : BitVec 6) (s : State) : (sendMsix v s).host.outsideCount = s.host.outsideCount := by
  unfold sendMsix; split <;> rfl

@[simp] theorem sendMsix_host_msix (v : BitVec 6) (s : State) : (sendMsix v s).host.msix = s.host.msix := by
  unfold sendMsix; split <;> rfl

@[simp] theorem sendMsix_host_vector (v : BitVec 6) (s : State) : (sendMsix v s).host.vector = s.host.vector := by
  unfold sendMsix; split <;> rfl

@[simp] theorem sendMsix_activeUp (v : BitVec 6) (s : State) : activeUp (sendMsix v s) = activeUp s := by
  unfold activeUp; simp

@[simp] theorem report_host_activePort (e : Ev) (s : State) : (report e s).host.activePort = s.host.activePort := by
  unfold report; dsimp only; split
  · rfl
  · rw [sendMsix_host_activePort]

@[simp] theorem report_host_ports (e : Ev) (s : State) : (report e s).host.ports = s.host.ports := by
  unfold report; dsimp only; split
  · rfl
  · rw [sendMsix_host_ports]

@[simp] theorem report_host_autoFailover (e : Ev) (s : State) : (report e s).host.autoFailover = s.host.autoFailover := by
  unfold report; dsimp only; split
  · rfl
  · rw [sendMsix_host_autoFailover]

@[simp] theorem report_host_failover (e : Ev) (s : State) : (report e s).host.failover = s.host.failover := by
  unfold report; dsimp only; split
  · rfl
  · rw [sendMsix_host_failover]

@[simp] theorem report_host_autoArmed (e : Ev) (s : State) : (report e s).host.autoArmed = s.host.autoArmed := by
  unfold report; dsimp only; split
  · rfl
  · rw [sendMsix_host_autoArmed]

@[simp] theorem report_host_autoRetry (e : Ev) (s : State) : (report e s).host.autoRetry = s.host.autoRetry := by
  unfold report; dsimp only; split
  · rfl
  · rw [sendMsix_host_autoRetry]

@[simp] theorem report_host_swapPending (e : Ev) (s : State) : (report e s).host.swapPending = s.host.swapPending := by
  unfold report; dsimp only; split
  · rfl
  · rw [sendMsix_host_swapPending]

@[simp] theorem report_host_standbyCount (e : Ev) (s : State) : (report e s).host.standbyCount = s.host.standbyCount := by
  unfold report; dsimp only; split
  · rfl
  · rw [sendMsix_host_standbyCount]

@[simp] theorem report_host_outsideCount (e : Ev) (s : State) : (report e s).host.outsideCount = s.host.outsideCount := by
  unfold report; dsimp only; split
  · rfl
  · rw [sendMsix_host_outsideCount]

@[simp] theorem report_host_msix (e : Ev) (s : State) : (report e s).host.msix = s.host.msix := by
  unfold report; dsimp only; split
  · rfl
  · rw [sendMsix_host_msix]

@[simp] theorem report_host_vector (e : Ev) (s : State) : (report e s).host.vector = s.host.vector := by
  unfold report; dsimp only; split
  · rfl
  · rw [sendMsix_host_vector]

@[simp] theorem report_activeUp (e : Ev) (s : State) : activeUp (report e s) = activeUp s := by
  unfold activeUp; simp

@[simp] theorem reportHost_host_activePort (b : Option Nat) (e : Ev) (s : State) : (reportHost b e s).host.activePort = s.host.activePort := by
  unfold reportHost; dsimp only; split <;> (try split) <;> simp

@[simp] theorem reportHost_host_ports (b : Option Nat) (e : Ev) (s : State) : (reportHost b e s).host.ports = s.host.ports := by
  unfold reportHost; dsimp only; split <;> (try split) <;> simp

@[simp] theorem reportHost_host_autoFailover (b : Option Nat) (e : Ev) (s : State) : (reportHost b e s).host.autoFailover = s.host.autoFailover := by
  unfold reportHost; dsimp only; split <;> (try split) <;> simp

@[simp] theorem reportHost_host_failover (b : Option Nat) (e : Ev) (s : State) : (reportHost b e s).host.failover = s.host.failover := by
  unfold reportHost; dsimp only; split <;> (try split) <;> simp

@[simp] theorem reportHost_host_autoArmed (b : Option Nat) (e : Ev) (s : State) : (reportHost b e s).host.autoArmed = s.host.autoArmed := by
  unfold reportHost; dsimp only; split <;> (try split) <;> simp

@[simp] theorem reportHost_host_autoRetry (b : Option Nat) (e : Ev) (s : State) : (reportHost b e s).host.autoRetry = s.host.autoRetry := by
  unfold reportHost; dsimp only; split <;> (try split) <;> simp

@[simp] theorem reportHost_host_swapPending (b : Option Nat) (e : Ev) (s : State) : (reportHost b e s).host.swapPending = s.host.swapPending := by
  unfold reportHost; dsimp only; split <;> (try split) <;> simp

@[simp] theorem reportHost_host_standbyCount (b : Option Nat) (e : Ev) (s : State) : (reportHost b e s).host.standbyCount = s.host.standbyCount := by
  unfold reportHost; dsimp only; split <;> (try split) <;> simp

@[simp] theorem reportHost_host_outsideCount (b : Option Nat) (e : Ev) (s : State) : (reportHost b e s).host.outsideCount = s.host.outsideCount := by
  unfold reportHost; dsimp only; split <;> (try split) <;> simp

@[simp] theorem reportHost_host_msix (b : Option Nat) (e : Ev) (s : State) : (reportHost b e s).host.msix = s.host.msix := by
  unfold reportHost; dsimp only; split <;> (try split) <;> simp

@[simp] theorem reportHost_host_vector (b : Option Nat) (e : Ev) (s : State) : (reportHost b e s).host.vector = s.host.vector := by
  unfold reportHost; dsimp only; split <;> (try split) <;> simp

@[simp] theorem reportHost_activeUp (b : Option Nat) (e : Ev) (s : State) : activeUp (reportHost b e s) = activeUp s := by
  unfold activeUp; simp

@[simp] theorem reportCtx_host_activePort (i : Slot) (b : Option Nat) (e : Ev) (s : State) : (reportCtx i b e s).host.activePort = s.host.activePort := by
  simp [reportCtx]

@[simp] theorem reportCtx_host_ports (i : Slot) (b : Option Nat) (e : Ev) (s : State) : (reportCtx i b e s).host.ports = s.host.ports := by
  simp [reportCtx]

@[simp] theorem reportCtx_host_autoFailover (i : Slot) (b : Option Nat) (e : Ev) (s : State) : (reportCtx i b e s).host.autoFailover = s.host.autoFailover := by
  simp [reportCtx]

@[simp] theorem reportCtx_host_failover (i : Slot) (b : Option Nat) (e : Ev) (s : State) : (reportCtx i b e s).host.failover = s.host.failover := by
  simp [reportCtx]

@[simp] theorem reportCtx_host_autoArmed (i : Slot) (b : Option Nat) (e : Ev) (s : State) : (reportCtx i b e s).host.autoArmed = s.host.autoArmed := by
  simp [reportCtx]

@[simp] theorem reportCtx_host_autoRetry (i : Slot) (b : Option Nat) (e : Ev) (s : State) : (reportCtx i b e s).host.autoRetry = s.host.autoRetry := by
  simp [reportCtx]

@[simp] theorem reportCtx_host_swapPending (i : Slot) (b : Option Nat) (e : Ev) (s : State) : (reportCtx i b e s).host.swapPending = s.host.swapPending := by
  simp [reportCtx]

@[simp] theorem reportCtx_host_standbyCount (i : Slot) (b : Option Nat) (e : Ev) (s : State) : (reportCtx i b e s).host.standbyCount = s.host.standbyCount := by
  simp [reportCtx]

@[simp] theorem reportCtx_host_outsideCount (i : Slot) (b : Option Nat) (e : Ev) (s : State) : (reportCtx i b e s).host.outsideCount = s.host.outsideCount := by
  simp [reportCtx]

@[simp] theorem reportCtx_host_msix (i : Slot) (b : Option Nat) (e : Ev) (s : State) : (reportCtx i b e s).host.msix = s.host.msix := by
  simp [reportCtx]

@[simp] theorem reportCtx_host_vector (i : Slot) (b : Option Nat) (e : Ev) (s : State) : (reportCtx i b e s).host.vector = s.host.vector := by
  simp [reportCtx]

@[simp] theorem reportCtx_activeUp (i : Slot) (b : Option Nat) (e : Ev) (s : State) : activeUp (reportCtx i b e s) = activeUp s := by
  unfold activeUp; simp

@[simp] theorem reportPort_host_activePort (p : PortId) (b : Option Nat) (e : Ev) (s : State) : (reportPort p b e s).host.activePort = s.host.activePort := by
  simp [reportPort]

@[simp] theorem reportPort_host_ports (p : PortId) (b : Option Nat) (e : Ev) (s : State) : (reportPort p b e s).host.ports = s.host.ports := by
  simp [reportPort]

@[simp] theorem reportPort_host_autoFailover (p : PortId) (b : Option Nat) (e : Ev) (s : State) : (reportPort p b e s).host.autoFailover = s.host.autoFailover := by
  simp [reportPort]

@[simp] theorem reportPort_host_failover (p : PortId) (b : Option Nat) (e : Ev) (s : State) : (reportPort p b e s).host.failover = s.host.failover := by
  simp [reportPort]

@[simp] theorem reportPort_host_autoArmed (p : PortId) (b : Option Nat) (e : Ev) (s : State) : (reportPort p b e s).host.autoArmed = s.host.autoArmed := by
  simp [reportPort]

@[simp] theorem reportPort_host_autoRetry (p : PortId) (b : Option Nat) (e : Ev) (s : State) : (reportPort p b e s).host.autoRetry = s.host.autoRetry := by
  simp [reportPort]

@[simp] theorem reportPort_host_swapPending (p : PortId) (b : Option Nat) (e : Ev) (s : State) : (reportPort p b e s).host.swapPending = s.host.swapPending := by
  simp [reportPort]

@[simp] theorem reportPort_host_standbyCount (p : PortId) (b : Option Nat) (e : Ev) (s : State) : (reportPort p b e s).host.standbyCount = s.host.standbyCount := by
  simp [reportPort]

@[simp] theorem reportPort_host_outsideCount (p : PortId) (b : Option Nat) (e : Ev) (s : State) : (reportPort p b e s).host.outsideCount = s.host.outsideCount := by
  simp [reportPort]

@[simp] theorem reportPort_host_msix (p : PortId) (b : Option Nat) (e : Ev) (s : State) : (reportPort p b e s).host.msix = s.host.msix := by
  simp [reportPort]

@[simp] theorem reportPort_host_vector (p : PortId) (b : Option Nat) (e : Ev) (s : State) : (reportPort p b e s).host.vector = s.host.vector := by
  simp [reportPort]

@[simp] theorem reportPort_activeUp (p : PortId) (b : Option Nat) (e : Ev) (s : State) : activeUp (reportPort p b e s) = activeUp s := by
  unfold activeUp; simp

/-! ### One context, one port and one queue under a report -/

@[simp] theorem reportCtx_ctxOf_same (i : Slot) (b : Option Nat) (e : Ev) (s : State) :
    (reportCtx i b e s).ctxOf i = { s.ctxOf i with
      lastCode := e.code,
      events := match b with
        | none => (s.ctxOf i).events
        | some k => (s.ctxOf i).events ||| (1 <<< k) } := by
  cases b <;> simp [reportCtx]

theorem reportCtx_ctxOf_other (i j : Slot) (b : Option Nat) (e : Ev) (s : State) (h : i ≠ j) :
    (reportCtx i b e s).ctxOf j = s.ctxOf j := by
  simp [reportCtx, modCtx_ctxOf_other _ _ _ _ h]

@[simp] theorem reportPort_portOf_same (p : PortId) (b : Option Nat) (e : Ev) (s : State) :
    (reportPort p b e s).portOf p = { s.portOf p with
      lastCode := e.code,
      events := match b with
        | none => (s.portOf p).events
        | some k => (s.portOf p).events ||| (1 <<< k) } := by
  cases b <;> simp [reportPort]

theorem reportPort_portOf_other (p q : PortId) (b : Option Nat) (e : Ev) (s : State) (h : p ≠ q) :
    (reportPort p b e s).portOf q = s.portOf q := by
  simp [reportPort, modPort_portOf_other _ _ _ _ h]

theorem queueOf_ctxOf (s : State) (i : Slot) (q : QId) : s.queueOf i q = (s.ctxOf i).queues[q] := rfl

@[simp] theorem modQueue_queueOf_same (i : Slot) (q : QId) (f : Queue → Queue) (s : State) :
    (modQueue i q f s).queueOf i q = f (s.queueOf i q) := by
  simp [modQueue, queueOf_ctxOf]

theorem modQueue_ctxOf_other (i j : Slot) (q : QId) (f : Queue → Queue) (s : State) (h : i ≠ j) :
    (modQueue i q f s).ctxOf j = s.ctxOf j :=
  modCtx_ctxOf_other _ _ _ _ h

/-- An event's record depends on the log and the clock alone. -/
theorem recordOf_congr {s t : State} (e : Ev) (h1 : t.log = s.log) (h2 : t.ticks = s.ticks) (h3 : t.start = s.start) :
    recordOf e t = recordOf e s := by
  unfold recordOf tickMs
  rw [h1, h2, h3]

/-- What an update of a link's record leaves as it was. -/
theorem modLink_out (l : LinkDir) (f : LinkState → LinkState) (s : State) : (modLink l f s).out = s.out := by
  unfold modLink
  split <;> rfl

/-- A flit sent on a mesh link is one output of that link, or none where the link is down. -/
theorem sendMesh_out (l : LinkDir) (vc : Fin 4) (h t : Bool) (d : BitVec 512) (s : State) :
    ∃ new, (sendMesh l vc h t d s).out = s.out ++ new ∧ ∀ o ∈ new, ∃ w, o = .meshFlit l w := by
  unfold sendMesh
  dsimp only
  split
  · exact ⟨[], by simp, by simp⟩
  · have e : ∀ (o : Output) (x : State), (emit o x).out = x.out ++ [o] := fun _ _ => rfl
    rw [e, modLink_out]
    exact ⟨_, rfl, fun o ho => ⟨_, List.mem_singleton.1 ho⟩⟩

/-- A beat to one receiver is its heartbeat output, and a flit where the receiver is another router. -/
theorem sendBeat_out (t : TileId) (st : HbState) (s : State) (r : Fin 5) :
    ∃ new, (sendBeat t st s r).out = s.out ++ .heartbeat t r st :: new ∧ ∀ o ∈ new, ∃ l w, o = .meshFlit l w := by
  unfold sendBeat
  dsimp only
  split
  · exact ⟨[], rfl, by simp⟩
  · obtain ⟨n, e, h⟩ := sendMesh_out { router := t, dir := Fin.ofNat 6 r.val } 3 true true (Config.heartbeatData t st) (emit (.heartbeat t r st) s)
    exact ⟨n, by rw [e]; simp [emit], fun o ho => ⟨_, h o ho⟩⟩

/-- A heartbeat of a tile is one output for each of its receivers, and flits on the links to its neighbours. -/
theorem sendHeartbeat_out (t : TileId) (st : HbState) (s : State) :
    ∃ new, (sendHeartbeat t st s).out = s.out ++ new ∧
      ∀ r h, Output.heartbeat t r h ∈ new ↔ r ∈ hbReceivers t ∧ h = st := by
  unfold sendHeartbeat
  generalize hbReceivers t = l
  induction l generalizing s with
  | nil => exact ⟨[], by simp, by simp⟩
  | cons a k ih =>
    obtain ⟨n1, e1, h1⟩ := sendBeat_out t st s a
    obtain ⟨n2, e2, h2⟩ := ih (sendBeat t st s a)
    refine ⟨.heartbeat t a st :: n1 ++ n2, by rw [List.foldl_cons, e2, e1]; simp, fun r h => ?_⟩
    have hn : Output.heartbeat t r h ∉ n1 := fun hm => by obtain ⟨_, _, e⟩ := h1 _ hm; cases e
    simp only [List.cons_append, List.mem_cons, List.mem_append, hn, h2, Output.heartbeat.injEq, true_and, false_or]
    constructor
    · rintro (⟨rfl, rfl⟩ | ⟨h3, rfl⟩)
      · exact ⟨.inl rfl, rfl⟩
      · exact ⟨.inr h3, rfl⟩
    · rintro ⟨rfl | h3, rfl⟩
      · exact .inl ⟨rfl, rfl⟩
      · exact .inr ⟨h3, rfl⟩

/-- What a port frames leaves it as codewords of that port. -/
theorem framePort_out (p : PortId) (f : Port → Port) (s : State) :
    ∃ ws : List Codeword, (framePort p f s).out = s.out ++ ws.map (.codeword p) := by
  have hl : ∀ (l : List Codeword) (t : State), (l.foldl (fun s w => emit (.codeword p w) s) t).out =
      t.out ++ l.map (.codeword p) := by
    intro l
    induction l with
    | nil => intro t; simp
    | cons a r ih => intro t; rw [List.foldl_cons, ih]; simp [emit]
  unfold framePort
  exact ⟨_, hl _ _⟩

end Sys2Proof.Machine
end

