-- ==== Sys2Proof/WellFormed.lean ====
section
/-! DEFINITION. What a command's operands must satisfy to be something the boundary of Table 1-6 can carry:
lengths and ranges that the operand types do not already fix. -/

namespace Sys2Proof

/-- A mailbox request fits the request buffer (Table 12-1). -/
def mailboxFits (req : Bytes) : Bool :=
  decide (req.length ≤ 16384)

/-- A CXL.mem write is at most one line, does not cross a line and lies in the 2 TiB window (R267, R270). -/
def lineFits (offset : BitVec 41) (line : Bytes) : Bool :=
  decide (1 ≤ line.length) && decide (offset.toNat % 64 + line.length ≤ 64)

/-- Eight lane counters (Table 10-10). -/
def eightLanes (l : List Word) : Bool :=
  decide (l.length = 8)

/-- The read-back of a store names 0, 1 or 2 mismatches (R398). -/
def mismatchRange (n : Nat) : Bool :=
  decide (n ≤ 2)

/-- A register address is that of a word of BAR0 (R10, R266). -/
def wordAddr (a : BitVec 24) : Bool :=
  decide (a.toNat % 4 = 0)

/-- A flit lies in one or two codewords and starts in the first (R238). -/
def flitFits (f : Flit) : Bool :=
  decide (1 ≤ f.words.length) && decide (f.words.length ≤ 2) && decide (f.offset < 640)

/-- A contribution's payload is what a block of at most 4,096 elements needs (Table 8-2). -/
def contributionFits (c : Contribution) : Bool :=
  decide (c.payload.length ≤ 16384)

/-- The operands of a command are well formed. -/
def Instr.wellFormed : Instr → Bool
  | .openContext _ r | .closeContext _ r | .switchContext _ r | .getReport _ r | .installKey _ r
  | .removeKey _ r | .groupEnroll _ r | .getPlaneRecords _ r | .getCerts _ r => mailboxFits r
  | .queueEntryWrite o l => lineFits o l
  | .berTestEnd _ e _ => eightLanes e
  | .testResult _ e _ => eightLanes e
  | .nvStoreComplete n => mismatchRange n
  | .registerWrite a _ => wordAddr a
  | .dataFlitReceive _ f => flitFits f
  | .bounce _ c => contributionFits c
  | _ => true

end Sys2Proof
end

