-- ==== Sys2Proof/Tests/Slice0.lean ====
section
/-! SUPPORT. Tests: ill-formed operands that WellFormed refuses, and for every statement of Certificates/Slice0 that has
hypotheses a state and operands that meet them, clause by clause (names ending in _has_cases). A clause that rests on a check of an
opaque cryptographic function (log entry 2) is met by every state in which that function answers as the clause asks. -/

namespace Sys2Proof.Tests

open Sys2Proof Sys2Proof.Machine

set_option linter.all false
set_option Elab.async false

/-! ### Operands that are refused -/

/-- A request that does not fit the buffer of Table 12-1. -/
theorem test_wf_mailbox : (Instr.getCerts 0 (List.replicate 16385 0)).wellFormed = false := by decide +kernel
/-- A write that crosses a line (R270). -/
theorem test_wf_line : (Instr.queueEntryWrite 60 (List.replicate 8 0)).wellFormed = false := by decide
/-- Seven lane counters of eight (Table 10-10), on this side and from the far side. -/
theorem test_wf_near_lanes : (Instr.berTestEnd 0 (List.replicate 7 0) 0xFF).wellFormed = false := by decide
theorem test_wf_far_lanes : (Instr.testResult 0 (List.replicate 9 0) 0xFF).wellFormed = false := by decide
/-- Three mismatches of a read-back (R398). -/
theorem test_wf_mismatches : (Instr.nvStoreComplete 3).wellFormed = false := by decide
/-- A register write whose address is not that of a word. -/
theorem test_wf_register_write : (Instr.registerWrite 2 0).wellFormed = false := by decide
/-- A flit in no codeword (R238). -/
theorem test_wf_flit : (Instr.dataFlitReceive 0 ⟨[], 0⟩).wellFormed = false := by decide

/-- A contribution longer than a block of 4,096 elements needs (Table 8-2). -/
theorem test_wf_contribution :
    (Instr.bounce 0 ⟨1, 0, 0, 0, 0, 0, 1, 0, 0, 0, 2, 1, 0, 0, 0, 0, 0, List.replicate 16385 0⟩).wellFormed = false := by
  decide +kernel

/-! ### Small states -/

/-- The start at a phase, HOUSE_RST_N risen. -/
def booting (p : BitVec 4) : State :=
  { State.reset with start := { Startup.reset with phase := p, resetLow := false } }

/-- A port that is up and keyed, one in each state. -/
def portIn (st : PortState) (status : LinkStatus) : Port :=
  { Port.reset { PortNv.reset with enable := true } with state := st, status := status }

/-- House open: every supply and every port up, both CXL ports linked. -/
def live : State :=
  { State.reset with
    start := { Startup.reset with
      phase := 6, resetLow := false, zonesUp := 0x1FF, meshLocked := true, deckChecked := true, stacksUp := true },
    host := { HostAttach.reset with ports := Vector.replicate 2 { CxlPort.reset with linkUp := true } },
    dies := Vector.replicate 36 { Die.reset with rails := .up, locked := true },
    ports := Vector.replicate 16 { portIn .up .up with keyed := true } }

/-- `live` with slot 0 open with 1 GiB of HDM and 4 GiB of stack. -/
def opened : State := modCtx 0 (fun c => { c with state := .open', hdmGib := 1, stackGib := 4 }) live

/-- `live` with slot 0 holding the engine. -/
def holding : State := modCtx 0 (fun c => { c with state := .holding, hdmGib := 1, stackGib := 4 }) live

/-- A hand-over from slot 0 to slot 1, begun or in its curtain. -/
def handing (started : Bool) : HandOver := ⟨some 0, some 1, false, false, started, .mailbox⟩

/-- `live` during the curtain of a hand-over. -/
def curtained : State := { live with sec := { live.sec with handOver := some (handing true) } }

/-- An op of the loader in progress. -/
def staging (op : LoadOp) : State := { live with loader := { Loader.reset with running := some op } }

/-- Port 0 replaced. -/
def withPort (p : Port) : State := modPort 0 (fun _ => p) live

/-! A Chart, a pass, a queue entry. -/

/-- A cue that waits for nothing, signals nothing and opens no phase. -/
def cueOf (kind : Nat) : Cue :=
  { kind := kind, site := 0, mode := 0, sat := false, layerStart := false, layer := 0, phaseId := 0xFFFF, aTensor := 0, bTensor := 0,
    outTensor := 0, auxTensor := 0, descId := 0, imm := 0, wait0Ctr := 0, wait0Target := 0, wait1Ctr := 0, wait1Target := 0,
    sigCtr := 0, sigMode := 0, sigRoute := 0, outRoute := 0, outRemote := false, bDeck := false, loadWindow := false,
    drainWindow := false }

/-- A Chart of two members with no content. -/
def blank : Chart :=
  { dir := [], protectAll := false, isTraining := false, dieMask := 0, seed := 0, groupSize := 2, digest := [], regions := [],
    widthMap := [], routes := [], tables := [], tensors := [], reductions := [], areas := [], placements := [], variants := [],
    cues := [], power := { order := [.ports, .memory, .compute], trimMode := 1, floorPorts := 0, floorMemory := 0, floorCompute := 0, phases := [] },
    collectives := [], layers := [], rules := [], claims := [], ownerFp := [], signers := [], ownerSigned := false, ownerSig := [],
    data := [], imageBytes := 0 }

def cmd (op : Nat) : Cmd := ⟨0, 0, op, false, false, 0, 0, 0, 0⟩
def pass : Pass := ⟨0, cmd 0x10, 0, 1, none, 0, false, false, 0, false, [], []⟩
def inst (p : Option Pass) : Installed := ⟨0, true, [], [], [], [], none, false, p⟩

/-- Slot 0 holding with a Chart installed. -/
def installed (c : Chart) (x : Installed) : State :=
  { modSlot 0 (fun l => { l with state := .running, chart := some c }) holding with installed := some x }

/-- A tile whose prompter runs. -/
def awake : Tile := { Tile.reset with sleep := .awake, inPass := true }
def withCue (q : Cue) : Chart := { blank with cues := [(0, [q])] }
/-- Tile 0 in a pass with one cue. -/
def prompting (q : Cue) : State := { installed (withCue q) (inst (some pass)) with tiles := [(0, awake)] }
def runWith (q : Cue) : Run := ⟨withCue q, inst (some pass), pass⟩

/-- A cue that waits for a counter that is 0. -/
def late : Cue := { cueOf 1 with wait0Target := 1 }

/-- An entry of the first phase (Table 11-8). -/
def line (op : Byte) (body : Bytes) : Bytes := [op, 1] ++ List.replicate 14 0 ++ body ++ List.replicate (48 - body.length) 0
/-- Queue 0 of slot 0 with one entry observed. -/
def queued (op : Byte) (body : Bytes) (s : State) : State :=
  modQueue 0 0 (fun x => { x with enable := true, latched := true, valid := [(0, 1)] })
    { s with mem := writeBytes s.mem (hdmKey 0 0) (line op body) }
def ready (op : Byte) (body : Bytes) : Ready := ⟨none, parseEntry (line op body), 0, 1⟩

/-! An operator's console. -/

/-- `live` with one credential of an administrator. -/
def console : State := { live with sec := { live.sec with creds := live.sec.creds.set 0 (some ⟨[1], .admin⟩) } }
def req (body : Bytes) : MgmtReq := ⟨0x544D474D, 0x00010000, 0, 1, 1, 0, body, []⟩
def asked (body sig : Bytes) : MgmtReq := { req body with sig := sig }
theorem asked_body (body sig : Bytes) : (asked body sig).body = body := rfl
theorem asked_newer (body sig : Bytes) : newerApi (asked body sig) = false :=
  (by decide : (!((0x00010000 : BitVec 32).toNat % 65536 == 0)) = false)
/-- A signature that verifies makes a request of the administrator accepted. -/
theorem accepted_of {op : Nat} {role : Role} {body sig : Bytes} {s : State} (h1 : mgmtUp s = true) (h2 : inCurtain s = false)
    (h3 : s.sec.creds = console.sec.creds) (h4 : s.sec.mgmtCounter = console.sec.mgmtCounter) (h5 : s.ident = console.ident)
    (h : Config.mldsaVerify [1] (signedBytes op (req body)) sig = true) : accepted op role (asked body sig) s := by
  refine ⟨h1, h2, rfl, (by decide : (0x00010000 : BitVec 32).toNat / 65536 = 1), ⟨[1], .admin⟩, ?_, h, ?_, by cases role <;> decide⟩
  · have hn : noCreds s = false := by unfold noCreds; rw [h3]; decide
    unfold actsAs selfEnrol; rw [hn]; simp only [Bool.and_false, Bool.false_and]
    unfold credOf; rw [h3]; rfl
  · unfold requestFresh counterFresh; rw [h5, h4]; rfl

/-! Models and groups. -/

def manifest (layers : Nat) (shards : List ShardEntry) (tensors : List (Nat × Nat)) : Manifest :=
  ⟨7, 0, layers, tensors, [], shards, 0⟩
def fetch (m : Manifest) (holds : List ShardHold) (reqs : List ShardReq) : Fetch :=
  ⟨m, 0, [], 0, 0, false, 100, 3, holds, reqs, [], false, 0⟩
def model (f : Fetch) : Model := ⟨true, f, false, none, [], [], []⟩
def withModel (m : Model) : State := modCtx 0 (fun c => { c with model := some m }) opened
/-- One shard of layer 0 with no bytes. -/
def shard0 : ShardEntry := ⟨0, 0, 0, []⟩

/-- A header of a group message of the running Chart from member 1. -/
def hdr (sub : Byte) (arg : BitVec 64) : CollHdr := ⟨sub, 0, 1, arg, 1, 2, 0, 0⟩
/-- A running instance of two members. -/
def running0 (kind : Nat) : CollInst :=
  { descId := 0, seq := 1, kind := kind, cmd := cmd 0x31, mask := 3, maskTag := 0, v := 1, mean := false, dst := 0, src := 0, root := 1,
    length := 1, counts := [(0, [0])], scalars := [(0, [0])], arrived := [0], chunks := [], digest := none, rounds := 0, reqs := [], aborts := [] }
def desc (command : Nat) : CollDesc := { noDesc 0 with command := command, retryLimit := 3 }
def group (command : Nat) : Chart := { blank with collectives := [desc command] }
def grouped (x : CollInst) : State := { installed (group x.kind) (inst none) with coll := { live.coll with insts := [x] } }

/-- A reduction of descriptor 0 at step 1. -/
def red : Reduction :=
  { cmd := cmd 0x30, descId := 0, step := 1, planeMask := 1, force := false, f := 0, bc1 := 0, bc2 := 0, logAddr := 0, logLen := 0,
    logUsed := 0, answers := [(0, .waiting, 0)], sent := [], withheld := [],
    owned := [⟨0, 0, true, 0, false, false, none, none⟩], noticed := [], patchDue := [], patched := [], signalled := 0, ringHops := [],
    ringWait := [], ringHeld := [], ringTaken := [], ringLate := [], ringCancelled := [], oneBitSaid := false,
    aborts := [] }
def reducing (r : Reduction) : State := { installed (group 1) (inst none) with coll := { live.coll with reds := [r] } }
def result (kind : Byte) (checksum : BitVec 32) : ResultMsg :=
  ⟨kind, 0, 0, 1, 2, 0, 0, 2, 1, 0, 0, 0, checksum, 3, 0, 0, [1]⟩
def contribution : Contribution := ⟨1, 0x80, 0, 0, 0, 0, 1, 0, 0, 0, 2, 1, 0, 0, 0, 0, 0, [1]⟩

/-- A flit that one codeword of zeros carries. -/
def zeroFlit : Flit := ⟨[some 0], 0⟩
/-- A codeword with the ABORT symbol of descriptor 0, sequence number 1. -/
def abortWord : Codeword := codeword 2 1 1 0 (symbolBytes ⟨0x0701, 1, 0, 1, 0⟩ ++ List.replicate 624 0)

/-- A region with a die-loss understudy and a recorded fault of its die. -/
def understudy : Variant := ⟨1, 0, true, 0, 0, 0, 0, 0, [], [], [], none⟩
def chart1 : Chart := { blank with regions := [⟨0, 0, 0, 0, 0, false, 0, 0, 0⟩], variants := [understudy] }
def restaged : Installed := { inst none with faults := [⟨0, 0x0405, some 0⟩] }
def restaging : State := installed chart1 restaged
def bare : Model := model (fetch (manifest 0 [] []) [] [])
/-- A model of one shard without bytes, held and recorded. -/
def checked : Model :=
  { model (fetch (manifest 1 [shard0] []) [⟨0, 0, 0, [], true, Config.shake256 [] 64⟩] []) with digests := [(0, Config.shake256 [] 64)] }
/-- Slot 0 holding with a running Chart and a resident model. -/
def withModelOf (c : Chart) (m : Model) : State := modCtx 0 (fun x => { x with model := some m }) (installed c (inst none))
/-- A completion ring with one record to write. -/
def ringing : State := modCtx 0 (fun c => { c with cq := { c.cq with
  enable := true, latch := some ⟨0, 6, false⟩, held := [cplRecord (cmd 2) 0 0xFFFF 0 0] } }) opened
/-- A context with one report given, and a sealed blob that names it. -/
def reported : State := modCtx 0 (fun c => { c with reports := [List.replicate 64 0] }) opened
def blob (kind : Byte) : Bytes := kind :: List.replicate 1295 0
def uploaded : State := { console with sec := { console.sec with upload := some ⟨0, [], []⟩ } }
def challenged : State := { console with sec := { console.sec with challenge := some (List.replicate 32 0) } }
def token : Bytes := List.replicate 3361 0
def nvJob : NvJob := ⟨false, NvSettings.reset, Firmware.reset, [], 0, 0, false⟩
def key0 : Keying := ⟨[], [], [], [], [], [], false⟩
def keyingPort (confirmed : Bool) : Port := { portIn .keying .training with keying := some { key0 with confirmed := confirmed } }

/-- A tensor of one block whose stream one shard carries. -/
def tensor0 : Tensor := ⟨0, 0x10, [32, 1, 1, 1], 0, [0, 1, 2, 3], false, 0, 0, 5⟩
def streamed : Manifest := manifest 1 [⟨0, 0, 64, []⟩] [(0, 0)]
def weightChart : Chart := { group 1 with tensors := [tensor0] }
/-- The same with the tensor in tile 0's deck. -/
def deckChart : Chart := { weightChart with placements := [⟨0, 0, 2, 0, 0, 0, 0, 1⟩] }
/-- A model whose shard is pinned, with a digest that cannot match. -/
def spoiled : Model :=
  { model (fetch streamed [] []) with digests := [(0, Config.shake256 (rebuiltShard ⟨0, deckChart, inst none, fun _ => 0⟩ [] streamed 0) 64 ++ [0])] }
def pinning : State := { withModelOf deckChart spoiled with tiles := [(0, { Tile.reset with deckHolds := [(5, 0, [0])] })] }

/-- The bytes of a manifest of one shard of 33 bytes, its signer's fingerprint and its signature zero (Tables 7-1 and 7-2). -/
def manifestBytes : Bytes :=
  toLe 4 0x54464E4D ++ toLe 16 7 ++ toLe 4 0 ++ toLe 4 1 ++ toLe 2 1 ++ toLe 2 1 ++ List.replicate 64 0 ++ toLe 8 33 ++
  List.replicate 24 0 ++ List.replicate 32 0 ++
  (toLe 4 0 ++ toLe 2 0 ++ toLe 2 0 ++ toLe 8 0 ++ toLe 4 33 ++ List.replicate 12 0 ++ List.replicate 64 0) ++
  List.replicate 3309 0
/-- The Chart that names the signer and the tensor of that manifest. -/
def signedChart : Chart := { weightChart with signers := [[1]] }
/-- The weight command over the manifest, in state the key and the Chart it asks for, with a model resident or none. -/
def weightBody : Bytes := toLe 8 0x1000 ++ toLe 4 3565
def weighted (op : Byte) (m : Option Model) : State :=
  let s := queued op weightBody (installed signedChart (inst none))
  modCtx 0 (fun c => { c with keys := c.keys.set 0 (some ⟨[], 7, []⟩), model := m })
    { s with mem := writeBytes s.mem (hdmKey 0 0x1000) (manifestBytes.take 180) }
def accepted0 : Fetch := fetch (parseManifest manifestBytes) [] []
/-- A manifest in memory whose signature verifies is accepted. -/
theorem manifest_taken {s : State} (w : WeightBody) {i : Slot} (k : (if w.keyIndex < 16 then (s.ctxOf i).keys[Fin.ofNat 16 w.keyIndex] else none) = some ⟨[], 7, []⟩)
    (b : s.hdmBytes i w.addr w.len = manifestBytes) (c : runningChart s i = some signedChart)
    (f : Config.shake256 [1] 64 = List.replicate 64 0)
    (v : Config.mldsaVerify [1] (manifestBytes.take (manifestBytes.length - 3309)) (manifestBytes.drop (manifestBytes.length - 3309)) = true) :
    acceptManifest s i w = .ok ⟨parseManifest manifestBytes, w.keyIndex, [], w.endpoint, w.group, w.pilot, w.holdMs, w.retries, [], [],
      [], false, 0⟩ := by
  have h1 : manifestSound manifestBytes = true := by decide +kernel
  have h2 : manifestFits signedChart (parseManifest manifestBytes) = true := by decide +kernel
  have h3 : ((7 : BitVec 128) == (parseManifestHdr manifestBytes).modelId) = true := by decide +kernel
  have h5 : (parseManifestHdr manifestBytes).signerFp = List.replicate 64 0 := by decide +kernel
  have h4 : manifestSigned signedChart manifestBytes = true := by
    unfold manifestSigned; rw [show signedChart.signers = [[1]] from rfl, List.any_cons, v, f, h5]; rfl
  unfold acceptManifest
  simp only [k, b, c, h1, h2, h3, h4, policyMet, List.all_nil, Bool.true_or, Bool.not_true, Bool.false_or, Bool.false_eq_true, if_false]
def asking : ShardReq := ⟨0, 0, 2, false⟩
def requesting (gap : Bool) : State := withModel (model (fetch (manifest 1 [shard0] []) [] [{ asking with gap := gap }]))
def svc (kind reason : Byte) (count : Nat) : ShardMsg :=
  ⟨[kind, reason, 0, 0] ++ toLe 16 7 ++ toLe 4 0 ++ toLe 4 0 ++ List.replicate 12 0 ++ toLe 2 count ++ List.replicate 22 0,
    List.replicate count ⟨[], [], []⟩⟩
def swap0 : Swap := ⟨fetch (manifest 2 [shard0, { shard0 with layer := 1 }] []) [⟨0, 0, 0, [], true, []⟩] [], [0, 1], false⟩

/-- A group command at the head of queue 0, with or without a plane in service. -/
def commanding (op : Byte) (command : Nat) (body : Bytes) (ports : Bool) : State :=
  let s := queued op body (installed (group command) (inst none))
  if ports then s else mapPorts (fun _ _ => portIn .down .down) s
def startOf (s : State) (op : Byte) (body : Bytes) : State := started 0 0 (ready op body) s
/-- Descriptor 0, sequence number 1, two values, source 0 and destination 64. -/
def collBody : Bytes := [0, 0, 0, 0, 1, 0, 0, 0] ++ List.replicate 8 0 ++ [1, 0, 0, 0, 0, 0, 0, 0] ++ toLe 8 0 ++ toLe 8 64
/-- The same as a BROADCAST of one byte from member 0. -/
def castBody : Bytes := [0, 0, 0, 0, 1, 0, 0, 0] ++ List.replicate 8 0 ++ [0, 0, 0, 0, 1, 0, 0, 0] ++ toLe 8 0 ++ toLe 8 64
def barrierBody : Bytes := [0, 0, 0, 0, 1, 0, 0, 0]
def reduceBody (planes : Byte) : Bytes := [0, 0, 0, 0, 1, 0, 0, 0] ++ List.replicate 8 0 ++ [planes, 0]
def hop0 : RingHop := ⟨0, 0, true, result 0x40 0⟩

/-- The same instances with a third member. -/
def wide (kind : Nat) : CollInst := { running0 kind with mask := 7 }
/-- A Chart whose layer 0 has error memory and a SEND_BLOCKS of it. -/
def errChart : Chart := { weightChart with cues := [(0, [cueOf 7])] }
theorem spoiled_found : (((pinnedLayers pinning 5).flatMap (layerShards spoiled.fetch.manifest)).filter
    (shardInArea pinning deckChart (inst none) spoiled.fetch.manifest 5)).find? (fun k => !(Config.shake256 (rebuiltShard
      ⟨0, deckChart, inst none, fun _ => 0⟩ pinning.mem spoiled.fetch.manifest k) 64 == recordedDigest spoiled k)) = some 0 := by
  have h : ((pinnedLayers pinning 5).flatMap (layerShards spoiled.fetch.manifest)).filter
    (shardInArea pinning deckChart (inst none) spoiled.fetch.manifest 5) = [0] := by decide +kernel
  rw [h]
  have e (x : Bytes) : (x == x ++ [0]) = false := by
    rw [beq_eq_false_iff_ne]; intro hx; have := congrArg List.length hx; simp at this
  have r : recordedDigest spoiled 0 = Config.shake256 (rebuiltShard ⟨0, deckChart, inst none, fun _ => 0⟩ pinning.mem
    spoiled.fetch.manifest 0) 64 ++ [0] := rfl
  rw [List.find?_cons_of_pos]; rw [r, e]; rfl
theorem holding_sound : holdersSound holding := by
  refine ⟨?_, fun _ hh => (nomatch hh), fun _ hh => (nomatch hh)⟩
  have k : ∀ i : Slot, (holding.ctxOf i).state = .holding → i = 0 := by decide +kernel
  exact fun i j hi hj => (k i hi).trans (k j hj).symm
theorem slice_front (a b : Bytes) {n : Nat} (h : a.length = n) : slice (a ++ b) 0 n = a := by
  subst h; simp [slice]
theorem slice_back (a b : Bytes) (n k : Nat) (h : a.length = n) (hb : b.length = k) : slice (a ++ b) n k = b := by
  subst h; subst hb; simp [slice]
theorem err_memory : layerErr errChart ((wireBlock errChart streamed 0).get (by decide +kernel)).layer ≠ .absent := by
  intro h
  have e : (match layerErr errChart ((wireBlock errChart streamed 0).get (by decide +kernel)).layer with
    | .absent => false | _ => true) = true := by decide +kernel
  rw [h] at e; cases e

set_option maxRecDepth 20000 in
theorem crc_bad : crcGood (logicalOf (linkState live ⟨0, 1⟩).shift 0) = false := by decide +kernel
set_option maxRecDepth 20000 in
theorem crc_good : crcGood (logicalOf (linkState live ⟨0, 1⟩).shift (replayCycle live ⟨0, 1⟩ 63)) = true := by decide +kernel

theorem checked_holds : ∀ beside f h, fetchOf ((withModel checked).ctxOf 0) beside = some f → holdOf f.holds 0 = some h →
    h.valid = true ∧ storedDigest (withModel checked) 0 checked f h = h.digest := by
  intro beside f h hf hh
  cases beside
  · obtain rfl : checked.fetch = f := Option.some.inj hf
    obtain rfl : (⟨0, 0, 0, [], true, Config.shake256 [] 64⟩ : ShardHold) = h := Option.some.inj hh
    exact ⟨rfl, rfl⟩
  · cases hf

theorem test_resetRuns_has_cases :
(∃ (s : State) (n : Nat), 2500 ≤ n) ∧
(∃ (s : State) (n : Nat), n < 2500) ∧
(∃ s : State, s.start.resetLow = true ∧ s.start.houseUp = true) ∧
(∃ s : State, s.start.houseUp = true) := by
  refine ⟨?_, ?_, ?_, ?_⟩
  · refine ⟨live, 2500, ?_⟩; repeat' apply And.intro
    all_goals first | decide +kernel | assumption | (unfold headStarts; decide +kernel) | (unfold servedNow; decide +kernel) | rfl
  · refine ⟨live, 2499, ?_⟩; repeat' apply And.intro
    all_goals first | decide +kernel | assumption | (unfold headStarts; decide +kernel) | (unfold servedNow; decide +kernel) | rfl
  · refine ⟨State.reset, ?_⟩; repeat' apply And.intro
    all_goals first | decide +kernel | assumption | (unfold headStarts; decide +kernel) | (unfold servedNow; decide +kernel) | rfl
  · refine ⟨live, ?_⟩; repeat' apply And.intro
    all_goals first | decide +kernel | assumption | (unfold headStarts; decide +kernel) | (unfold servedNow; decide +kernel) | rfl

theorem test_startUpRuns_has_cases :
(∃ s : State, inPhase s 0 = true) ∧
(∃ (s : State) (r : Option TrayRegs), inPhase s 1 = true ∧ (∀ x, r = some x → trayKnown x = true)) ∧
(∃ (s : State) (x : TrayRegs), inPhase s 1 = true ∧ trayKnown x = false) ∧
(∃ s : State, inPhase s 2 = true ∧ s.start.trayBad = false ∧ s.thermal.stale = false ∧ flowAtLeast s 55 = true ∧ mayRaise s =
    true) ∧
(∃ s : State, inPhase s 2 = true ∧ s.start.gateReported = false) ∧
(∃ s : State, inPhase s 3 = true ∧ allZones s = false ∧ mayRaise s = true) ∧
(∃ (s : State) (parts : List Part) (tracks : List (LinkDir × Nat × Nat)), inPhase s 3 = true ∧ s.start.meshLocked = true ∧
    s.start.deckChecked = false) ∧
(∃ s : State, inPhase s 3 = true ∧ s.start.deckChecked = true ∧ mayRaise s = true) ∧
(∃ s : State, inPhase s 5 = true) := by
  refine ⟨?_, ?_, ?_, ?_, ?_, ?_, ?_, ?_, ?_⟩
  · refine ⟨booting 0, ?_⟩; repeat' apply And.intro
    all_goals first | decide +kernel | assumption | (unfold headStarts; decide +kernel) | (unfold servedNow; decide +kernel) | rfl
  · refine ⟨booting 1, none, ?_⟩; repeat' apply And.intro
    all_goals first | decide +kernel | assumption | (unfold headStarts; decide +kernel) | (unfold servedNow; decide +kernel) | rfl
  · refine ⟨booting 1, Thermal.reset.tray, ?_⟩; repeat' apply And.intro
    all_goals first | decide +kernel | assumption | (unfold headStarts; decide +kernel) | (unfold servedNow; decide +kernel) | rfl
  · refine ⟨{ booting 2 with thermal := { Thermal.reset with flow := 4180 } }, ?_⟩; repeat' apply And.intro
    all_goals first | decide +kernel | assumption | (unfold headStarts; decide +kernel) | (unfold servedNow; decide +kernel) | rfl
  · refine ⟨booting 2, ?_⟩; repeat' apply And.intro
    all_goals first | decide +kernel | assumption | (unfold headStarts; decide +kernel) | (unfold servedNow; decide +kernel) | rfl
  · refine ⟨booting 3, ?_⟩; repeat' apply And.intro
    all_goals first | decide +kernel | assumption | (unfold headStarts; decide +kernel) | (unfold servedNow; decide +kernel) | rfl
  · refine ⟨{ booting 3 with start := { (booting 3).start with meshLocked := true } }, [], [], ?_⟩; repeat' apply And.intro
    all_goals first | decide +kernel | assumption | (unfold headStarts; decide +kernel) | (unfold servedNow; decide +kernel) | rfl
  · refine ⟨{ booting 3 with start := { (booting 3).start with deckChecked := true } }, ?_⟩; repeat' apply And.intro
    all_goals first | decide +kernel | assumption | (unfold headStarts; decide +kernel) | (unfold servedNow; decide +kernel) | rfl
  · refine ⟨booting 5, ?_⟩; repeat' apply And.intro
    all_goals first | decide +kernel | assumption | (unfold headStarts; decide +kernel) | (unfold servedNow; decide +kernel) | rfl

theorem test_startUpStops_has_cases :
(∃ s : State, inPhase s 3 = true ∧ allZones s = false ∧ mayRaise s = true) ∧
(∃ s : State, inPhase s 3 = true ∧ s.start.deckChecked = true ∧ mayRaise s = true) := by
  refine ⟨?_, ?_⟩
  · refine ⟨booting 3, ?_⟩; repeat' apply And.intro
    all_goals first | decide +kernel | assumption | (unfold headStarts; decide +kernel) | (unfold servedNow; decide +kernel) | rfl
  · refine ⟨{ booting 3 with start := { (booting 3).start with deckChecked := true } }, ?_⟩; repeat' apply And.intro
    all_goals first | decide +kernel | assumption | (unfold headStarts; decide +kernel) | (unfold servedNow; decide +kernel) | rfl

theorem test_openHouseEventsRun_has_cases :
(∃ s : State, afterOpen s = true ∧ s.start.pwrGoodLow = false) ∧
(∃ s : State, s.start.pwrGoodLow = true) ∧
(∃ s : State, s.start.releaseLow = false ∧ s.start.resetLow = false ∧ s.start.houseUp = true ∧ afterOpen s = true) ∧
(∃ s : State, s.start.releaseLow = true ∧ s.start.paused = false ∧ afterOpen s = true) := by
  refine ⟨?_, ?_, ?_, ?_⟩
  · refine ⟨live, ?_⟩; repeat' apply And.intro
    all_goals first | decide +kernel | assumption | (unfold headStarts; decide +kernel) | (unfold servedNow; decide +kernel) | rfl
  · refine ⟨{ live with start := { live.start with pwrGoodLow := true } }, ?_⟩; repeat' apply And.intro
    all_goals first | decide +kernel | assumption | (unfold headStarts; decide +kernel) | (unfold servedNow; decide +kernel) | rfl
  · refine ⟨live, ?_⟩; repeat' apply And.intro
    all_goals first | decide +kernel | assumption | (unfold headStarts; decide +kernel) | (unfold servedNow; decide +kernel) | rfl
  · refine ⟨{ live with start := { live.start with releaseLow := true } }, ?_⟩; repeat' apply And.intro
    all_goals first | decide +kernel | assumption | (unfold headStarts; decide +kernel) | (unfold servedNow; decide +kernel) | rfl

theorem test_clampRuns_has_cases :
(∃ (s : State) (pin : AlertPin) (w : Nat), w < 2000) ∧
(∃ (s : State) (pin : AlertPin) (w : Nat), 5000 ≤ w) ∧
(∃ (s : State) (pin : AlertPin) (w : Nat), 2000 ≤ w ∧ w < 5000) ∧
(∃ (s : State) (m : Nat), s.power.clamped = true ∧ s.power.src = 0) := by
  refine ⟨?_, ?_, ?_, ?_⟩
  · refine ⟨live, .vr, 1999, ?_⟩; repeat' apply And.intro
    all_goals first | decide +kernel | assumption | (unfold headStarts; decide +kernel) | (unfold servedNow; decide +kernel) | rfl
  · refine ⟨live, .psu, 5000, ?_⟩; repeat' apply And.intro
    all_goals first | decide +kernel | assumption | (unfold headStarts; decide +kernel) | (unfold servedNow; decide +kernel) | rfl
  · refine ⟨live, .vr, 2000, ?_⟩; repeat' apply And.intro
    all_goals first | decide +kernel | assumption | (unfold headStarts; decide +kernel) | (unfold servedNow; decide +kernel) | rfl
  · refine ⟨{ live with power := { live.power with clamped := true } }, 900, ?_⟩; repeat' apply And.intro
    all_goals first | decide +kernel | assumption | (unfold headStarts; decide +kernel) | (unfold servedNow; decide +kernel) | rfl

theorem test_supplyRuns_has_cases :
(∃ (s : State) (z : ZoneId), s.start.zonesUp.getLsbD z.val = true) ∧
(∃ (s : State) (d : DieId), (s.dieOf d).alerting = false ∧ (s.dieOf d).latchedOff = false ∧ (s.dieOf d).rails ≠ .off) ∧
(∃ (s : State) (d : DieId), (s.dieOf d).isolated = false) ∧
(∃ (s : State) (d : DieId), (s.dieOf d).alerting = true) ∧
(∃ (s : State) (d : DieId), (s.dieOf d).rails = .queued ∧ s.power.clamped = false ∧ roomFor s (idleW d) = true) ∧
(∃ (s : State) (d : DieId), (s.dieOf d).rails = .ramping) ∧
(∃ (s : State) (d : DieId), (s.dieOf d).rails = .up ∧ (s.dieOf d).locked = false) ∧
(∃ (s : State) (d : DieId), (s.dieOf d).rails = .up ∧ (s.dieOf d).locked = false) := by
  refine ⟨?_, ?_, ?_, ?_, ?_, ?_, ?_, ?_⟩
  · refine ⟨live, 8, ?_⟩; repeat' apply And.intro
    all_goals first | decide +kernel | assumption | (unfold headStarts; decide +kernel) | (unfold servedNow; decide +kernel) | rfl
  · refine ⟨live, 35, ?_⟩; repeat' apply And.intro
    all_goals first | decide +kernel | assumption | (unfold headStarts; decide +kernel) | (unfold servedNow; decide +kernel) | rfl
  · refine ⟨live, 0, ?_⟩; repeat' apply And.intro
    all_goals first | decide +kernel | assumption | (unfold headStarts; decide +kernel) | (unfold servedNow; decide +kernel) | rfl
  · refine ⟨modDie 0 (fun d => { d with alerting := true }) live, 0, ?_⟩; repeat' apply And.intro
    all_goals first | decide +kernel | assumption | (unfold headStarts; decide +kernel) | (unfold servedNow; decide +kernel) | rfl
  · refine ⟨modDie 0 (fun d => { d with rails := .queued }) { live with power := { live.power with level := 350000 } }, 0, ?_⟩; refine ⟨by decide +kernel, by decide +kernel, ?_⟩; exact decide_eq_true (show (0 + min (Config.dieIdleW 0) 35) * 10000 ≤ 350000 by omega)
  · refine ⟨modDie 0 (fun d => { d with rails := .ramping }) live, 0, ?_⟩; repeat' apply And.intro
    all_goals first | decide +kernel | assumption | (unfold headStarts; decide +kernel) | (unfold servedNow; decide +kernel) | rfl
  · refine ⟨modDie 0 (fun d => { d with locked := false }) live, 0, ?_⟩; repeat' apply And.intro
    all_goals first | decide +kernel | assumption | (unfold headStarts; decide +kernel) | (unfold servedNow; decide +kernel) | rfl
  · refine ⟨modDie 0 (fun d => { d with locked := false }) live, 0, ?_⟩; repeat' apply And.intro
    all_goals first | decide +kernel | assumption | (unfold headStarts; decide +kernel) | (unfold servedNow; decide +kernel) | rfl

theorem test_clocksRun_has_cases :
(∃ (s : State) (i : TileId), canon Tile.reset s.tiles = true ∧ (s.tileOf i).sleep = .deferredClocks) ∧
(∃ (s : State) (i : TileId), canon Tile.reset s.tiles = true ∧ (s.tileOf i).sleep = .deferredRails) ∧
(∃ (s : State) (i : TileId) (n : Nat), canon Tile.reset s.tiles = true ∧ 40 < n) ∧
(∃ (s : State) (i : TileId) (n : Nat), n ≤ 40) ∧
(∃ (s : State) (i : TileId), canon Tile.reset s.tiles = true) := by
  refine ⟨?_, ?_, ?_, ?_, ?_⟩
  · refine ⟨{ live with tiles := [(0, { Tile.reset with sleep := .deferredClocks })] }, 0, ?_⟩; repeat' apply And.intro
    all_goals first | decide +kernel | assumption | (unfold headStarts; decide +kernel) | (unfold servedNow; decide +kernel) | rfl
  · refine ⟨{ live with tiles := [(5183, { Tile.reset with sleep := .deferredRails })] }, 5183, ?_⟩; repeat' apply And.intro
    all_goals first | decide +kernel | assumption | (unfold headStarts; decide +kernel) | (unfold servedNow; decide +kernel) | rfl
  · refine ⟨live, 0, 41, ?_⟩; repeat' apply And.intro
    all_goals first | decide +kernel | assumption | (unfold headStarts; decide +kernel) | (unfold servedNow; decide +kernel) | rfl
  · refine ⟨live, 0, 40, ?_⟩; repeat' apply And.intro
    all_goals first | decide +kernel | assumption | (unfold headStarts; decide +kernel) | (unfold servedNow; decide +kernel) | rfl
  · refine ⟨live, 0, ?_⟩; repeat' apply And.intro
    all_goals first | decide +kernel | assumption | (unfold headStarts; decide +kernel) | (unfold servedNow; decide +kernel) | rfl

theorem test_metersRun_has_cases :
(∃ s : State, s.power.leaseLive = true) ∧
(∃ (s : State) (d : DieId) (n : Nat) (p : PowerPlan), planNow s = some p ∧ p.trimMode = 1 ∧ (s.dieOf d).trimTick = 0 ∧ n < 50
    ∧ (s.dieOf d).trimMv + 5 = 25) ∧
(∃ (s : State) (d : DieId) (n : Nat) (p : PowerPlan), planNow s = some p ∧ p.trimMode = 1 ∧ (s.dieOf d).trimTick + hourTicks ≤
    s.ticks ∧ 80 < n ∧ (s.dieOf d).trimMv + -5 < -25) ∧
(∃ (s : State) (w : Nat), inCurtain s = false) ∧
(∃ (s : State) (w : Nat), inCurtain s = true) ∧
(∃ (s : State) (a : Activity) (i : Slot), inCurtain s = false ∧ holder s = some i) ∧
(∃ (s : State) (a : Activity), inCurtain s = true) := by
  refine ⟨?_, ?_, ?_, ?_, ?_, ?_, ?_⟩
  · refine ⟨{ live with power := { live.power with leaseLive := true } }, ?_⟩; repeat' apply And.intro
    all_goals first | decide +kernel | assumption | (unfold headStarts; decide +kernel) | (unfold servedNow; decide +kernel) | rfl
  · refine ⟨modDie 35 (fun d => { d with trimMv := 20 }) (installed blank (inst none)), 35, 49, blank.power, ?_⟩; repeat' apply And.intro
    all_goals first | decide +kernel | assumption | (unfold headStarts; decide +kernel) | (unfold forInstance; decide +kernel) | (unfold forReduction; decide +kernel) | rfl
  · refine ⟨modDie 0 (fun d => { d with trimMv := -25 }) { installed blank (inst none) with ticks := hourTicks }, 0, 81, blank.power, ?_⟩; repeat' apply And.intro
    all_goals first | decide +kernel | assumption | (unfold headStarts; decide +kernel) | (unfold forInstance; decide +kernel) | (unfold forReduction; decide +kernel) | rfl
  · refine ⟨live, 49, ?_⟩; repeat' apply And.intro
    all_goals first | decide +kernel | assumption | (unfold headStarts; decide +kernel) | (unfold servedNow; decide +kernel) | rfl
  · refine ⟨curtained, 49, ?_⟩; repeat' apply And.intro
    all_goals first | decide +kernel | assumption | (unfold headStarts; decide +kernel) | (unfold servedNow; decide +kernel) | rfl
  · refine ⟨holding, ⟨0, 0, 0, 0⟩, 0, ?_⟩; repeat' apply And.intro
    all_goals first | decide +kernel | assumption | (unfold headStarts; decide +kernel) | (unfold servedNow; decide +kernel) | rfl
  · refine ⟨curtained, ⟨0, 0, 0, 0⟩, ?_⟩; repeat' apply And.intro
    all_goals first | decide +kernel | assumption | (unfold headStarts; decide +kernel) | (unfold servedNow; decide +kernel) | rfl

theorem test_controlIntervalRuns_has_cases :
∃ (s : State) (m : PowerSample), s.power.clamped = false := by
  refine ⟨live, ⟨0, 0, 0, 0, 0⟩, ?_⟩; repeat' apply And.intro
  all_goals first | decide +kernel | assumption | (unfold headStarts; decide +kernel) | (unfold servedNow; decide +kernel) | rfl

theorem test_trayReadsAct_has_cases :
(∃ (s : State) (x : TrayRegs), x.status.getLsbD 0 = true ∧ s.thermal.lastSeq ≠ some x.seq ∧ trayKnown x = true) ∧
(∃ (s : State) (x : TrayRegs), 3 ≤ s.start.phase.toNat ∧ s.start.phase ≠ 7) ∧
(∃ s : State, s.thermal.stale = false) := by
  refine ⟨?_, ?_, ?_⟩
  · refine ⟨live, ⟨0x100, 0, 7, 0, 0, 0, 0⟩, ?_⟩; repeat' apply And.intro
    all_goals first | decide +kernel | assumption | (unfold headStarts; decide +kernel) | (unfold servedNow; decide +kernel) | rfl
  · refine ⟨booting 3, ⟨0x100, 0, 7, 0, 0, 0, 0⟩, ?_⟩; repeat' apply And.intro
    all_goals first | decide +kernel | assumption | (unfold headStarts; decide +kernel) | (unfold servedNow; decide +kernel) | rfl
  · refine ⟨live, ?_⟩; repeat' apply And.intro
    all_goals first | decide +kernel | assumption | (unfold headStarts; decide +kernel) | (unfold servedNow; decide +kernel) | rfl

theorem test_coolingStatesRun_has_cases :
(∃ s : State, s.thermal.flowClamp = true ∧ flowAtLeast s 55 = true ∧ supplyTemp s ≤ 4500) ∧
(∃ s : State, s.thermal.suddenStop = true ∧ s.thermal.halting = false ∧ flowAtLeast s 50 = true) ∧
(∃ s : State, s.thermal.suddenStop = true ∧ s.thermal.halting = false) ∧
(∃ (s : State) (i : Slot) (c : Cmd), s.thermal.suddenStop = true ∧ s.thermal.halting = false ∧ holder s = some i ∧ s.coll =
    Collective.reset ∧ (s.ctxOf i).running = [c] ∧ isGroupOp c.opcode = false ∧ c.opcode ≠ 0x30 ∧ c.opcode ≠ 0x10) ∧
(∃ s : State, s.thermal.halting = true ∧ s.thermal.halted = false ∧ s.installed = none) ∧
(∃ (s : State) (x : Installed) (c : Chart), s.thermal.halting = true ∧ s.thermal.halted = false ∧ s.installed = some x ∧
    chartOf s x.slot = some c ∧ c.dieMask.getLsbD 35 = true) ∧
(∃ s : State, s.thermal.halted = true ∧ flowAtLeast s 95 = true ∧ holder s = none) ∧
(∃ (s : State) (i : Slot), s.thermal.halted = true ∧ flowAtLeast s 95 = true ∧ holder s = some i) ∧
(∃ s : State, flowAtLeast s 25 = false ∧ s.thermal.thermTrip = false) ∧
(∃ s : State, s.thermal.thermTrip = false) ∧
(∃ (s : State) (w : Nat), s.thermal.stale = false ∧ s.thermal.tray.status.getLsbD 0 = true ∧ s.thermal.tray.status.getLsbD 1 =
    true ∧ s.thermal.tray.status.getLsbD 2 = true ∧ heatUnbalanced s w = true) := by
  refine ⟨?_, ?_, ?_, ?_, ?_, ?_, ?_, ?_, ?_, ?_, ?_⟩
  · refine ⟨{ live with thermal := { live.thermal with flowClamp := true, flow := 4180 } }, ?_⟩; repeat' apply And.intro
    all_goals first | decide +kernel | assumption | (unfold headStarts; decide +kernel) | (unfold servedNow; decide +kernel) | rfl
  · refine ⟨{ live with thermal := { live.thermal with suddenStop := true, flow := 4180 } }, ?_⟩; repeat' apply And.intro
    all_goals first | decide +kernel | assumption | (unfold headStarts; decide +kernel) | (unfold servedNow; decide +kernel) | rfl
  · refine ⟨{ live with thermal := { live.thermal with suddenStop := true } }, ?_⟩; repeat' apply And.intro
    all_goals first | decide +kernel | assumption | (unfold headStarts; decide +kernel) | (unfold forInstance; decide +kernel) | (unfold forReduction; decide +kernel) | rfl
  · refine ⟨{ modCtx 0 (fun c => { c with running := [cmd 0x40] }) holding with thermal := { live.thermal with suddenStop := true } }, 0, cmd 0x40, ?_⟩; repeat' apply And.intro
    all_goals first | decide +kernel | assumption | (unfold headStarts; decide +kernel) | (unfold forInstance; decide +kernel) | (unfold forReduction; decide +kernel) | rfl
  · refine ⟨{ live with thermal := { live.thermal with halting := true } }, ?_⟩; repeat' apply And.intro
    all_goals first | decide +kernel | assumption | (unfold headStarts; decide +kernel) | (unfold forInstance; decide +kernel) | (unfold forReduction; decide +kernel) | rfl
  · refine ⟨{ installed { blank with dieMask := 2 ^ 36 - 1 } (inst none) with thermal := { live.thermal with halting := true } }, inst none, { blank with dieMask := 2 ^ 36 - 1 }, ?_⟩; repeat' apply And.intro
    all_goals first | decide +kernel | assumption | (unfold headStarts; decide +kernel) | (unfold forInstance; decide +kernel) | (unfold forReduction; decide +kernel) | rfl
  · refine ⟨{ live with thermal := { live.thermal with halted := true, flow := 4180 } }, ?_⟩; repeat' apply And.intro
    all_goals first | decide +kernel | assumption | (unfold headStarts; decide +kernel) | (unfold forInstance; decide +kernel) | (unfold forReduction; decide +kernel) | rfl
  · refine ⟨{ holding with thermal := { live.thermal with halted := true, flow := 4180 } }, 0, ?_⟩; repeat' apply And.intro
    all_goals first | decide +kernel | assumption | (unfold headStarts; decide +kernel) | (unfold forInstance; decide +kernel) | (unfold forReduction; decide +kernel) | rfl
  · refine ⟨live, ?_⟩; repeat' apply And.intro
    all_goals first | decide +kernel | assumption | (unfold headStarts; decide +kernel) | (unfold servedNow; decide +kernel) | rfl
  · refine ⟨live, ?_⟩; repeat' apply And.intro
    all_goals first | decide +kernel | assumption | (unfold headStarts; decide +kernel) | (unfold servedNow; decide +kernel) | rfl
  · refine ⟨{ live with thermal := { live.thermal with tray := { live.thermal.tray with status := 7 }, flow := 1 } }, 1000, ?_⟩; repeat' apply And.intro
    all_goals first | decide +kernel | assumption | (unfold headStarts; decide +kernel) | (unfold servedNow; decide +kernel) | rfl

theorem test_thermalLoopsRun_has_cases :
(∃ s : State, s.thermal.throttle = true ∧ 10000 ≤ s.thermal.tj) ∧
(∃ s : State, s.thermal.throttle = true ∧ s.thermal.tj ≤ 9700) ∧
(∃ s : State, 9700 < s.thermal.tj ∧ s.thermal.tj < 10000) ∧
(∃ s : State, 10000 ≤ s.thermal.tj ∧ s.power.point = 18 ∧ s.thermal.throttleClamp = false) ∧
(∃ (s : State) (d : DieId) (k : Fin 4), let h := s.thermal.spots[Fin.ofNat 144 (4 * d.val + k.val)]; h.flagged = true ∧
    (h.diode - h.ring).natAbs ≤ 300) ∧
(∃ (s : State) (d : DieId) (k : Fin 4), let h := s.thermal.spots[Fin.ofNat 144 (4 * d.val + k.val)]; h.flagged = true ∧ 300 <
    (h.diode - h.ring).natAbs ∧ s.selfTest.waiting = [] ∧ s.selfTest.running = []) ∧
(∃ s : State, inCurtain s = false) ∧
(∃ s : State, inCurtain s = true) := by
  refine ⟨?_, ?_, ?_, ?_, ?_, ?_, ?_, ?_⟩
  · refine ⟨{ live with thermal := { live.thermal with throttle := true, tj := 10000 } }, ?_⟩; repeat' apply And.intro
    all_goals first | decide +kernel | assumption | (unfold headStarts; decide +kernel) | (unfold servedNow; decide +kernel) | rfl
  · refine ⟨{ live with thermal := { live.thermal with throttle := true, tj := 9700 } }, ?_⟩; repeat' apply And.intro
    all_goals first | decide +kernel | assumption | (unfold headStarts; decide +kernel) | (unfold servedNow; decide +kernel) | rfl
  · refine ⟨{ live with thermal := { live.thermal with tj := 9701 } }, ?_⟩; repeat' apply And.intro
    all_goals first | decide +kernel | assumption | (unfold headStarts; decide +kernel) | (unfold servedNow; decide +kernel) | rfl
  · refine ⟨{ live with thermal := { live.thermal with tj := 10000 } }, ?_⟩; repeat' apply And.intro
    all_goals first | decide +kernel | assumption | (unfold headStarts; decide +kernel) | (unfold servedNow; decide +kernel) | rfl
  · refine ⟨{ live with thermal := { live.thermal with spots := live.thermal.spots.set 143 ⟨300, 0, true, false, false⟩ } }, 35, 3, ?_⟩; repeat' apply And.intro
    all_goals first | decide +kernel | assumption | (unfold headStarts; decide +kernel) | (unfold forInstance; decide +kernel) | (unfold forReduction; decide +kernel) | rfl
  · refine ⟨{ live with thermal := { live.thermal with spots := live.thermal.spots.set 143 ⟨301, 0, true, false, false⟩ } }, 35, 3, ?_⟩; repeat' apply And.intro
    all_goals first | decide +kernel | assumption | (unfold headStarts; decide +kernel) | (unfold forInstance; decide +kernel) | (unfold forReduction; decide +kernel) | rfl
  · refine ⟨live, ?_⟩; repeat' apply And.intro
    all_goals first | decide +kernel | assumption | (unfold headStarts; decide +kernel) | (unfold servedNow; decide +kernel) | rfl
  · refine ⟨curtained, ?_⟩; repeat' apply And.intro
    all_goals first | decide +kernel | assumption | (unfold headStarts; decide +kernel) | (unfold servedNow; decide +kernel) | rfl

theorem test_loaderOpsStart_has_cases :
(∃ (s : State) (i : Slot), barWritable s = true ∧ s.loader.running = none ∧ isOpen s i = true ∧ holder s ≠ some i ∧
    imageMapped s (latchOp true i s) = true) ∧
(∃ (s : State) (i : Slot), barWritable s = true ∧ s.loader.running = none ∧ isOpen s i = false) ∧
(∃ (s : State) (i : Slot), barWritable s = true ∧ s.loader.running.isSome = true) ∧
(∃ (s : State) (i : Slot), barWritable s = true ∧ s.loader.running = none ∧ isOpen s i = true ∧ holder s ≠ some i ∧
    (s.loader.slots[i]).state ≠ .empty) ∧
(∃ (s : State) (op : BitVec 4) (i : Slot), barWritable s = true ∧ op ≠ 1 ∧ op ≠ 2 ∧ s.loader.running = none) ∧
(∃ s : State, barWritable s = true) := by
  refine ⟨?_, ?_, ?_, ?_, ?_, ?_⟩
  · refine ⟨{ opened with loader := { Loader.reset with length := 64 } }, 0, ?_⟩; repeat' apply And.intro
    all_goals first | decide +kernel | assumption | (unfold headStarts; decide +kernel) | (unfold servedNow; decide +kernel) | rfl
  · refine ⟨live, 7, ?_⟩; repeat' apply And.intro
    all_goals first | decide +kernel | assumption | (unfold headStarts; decide +kernel) | (unfold servedNow; decide +kernel) | rfl
  · refine ⟨{ opened with loader := { Loader.reset with running := some (latchOp true 0 opened) } }, 0, ?_⟩; repeat' apply And.intro
    all_goals first | decide +kernel | assumption | (unfold headStarts; decide +kernel) | (unfold servedNow; decide +kernel) | rfl
  · refine ⟨modSlot 0 (fun l => { l with state := .staged }) opened, 0, ?_⟩; repeat' apply And.intro
    all_goals first | decide +kernel | assumption | (unfold headStarts; decide +kernel) | (unfold servedNow; decide +kernel) | rfl
  · refine ⟨live, 3, 0, ?_⟩; repeat' apply And.intro
    all_goals first | decide +kernel | assumption | (unfold headStarts; decide +kernel) | (unfold servedNow; decide +kernel) | rfl
  · refine ⟨live, ?_⟩; repeat' apply And.intro
    all_goals first | decide +kernel | assumption | (unfold headStarts; decide +kernel) | (unfold servedNow; decide +kernel) | rfl

theorem test_loaderOpsEnd_has_cases :
(∃ (s : State) (op : LoadOp) (r : Refused), s.loader.running = some op ∧ op.isStage = true ∧ inCurtain s = false ∧ checkImage
    s op = .error r) ∧
(∀ (c : Chart) (op : LoadOp) (r : Refused), op.slot = 0 → op.isStage = true → checkImage (staging op) op = .ok c → checkHere
    (stageRepairs (staging op)) op c = .error r → ∃ (s : State) (op : LoadOp) (c : Chart) (r : Refused), s.loader.running =
    some op ∧ op.isStage = true ∧ inCurtain s = false ∧ checkImage s op = .ok c ∧ checkHere (stageRepairs s) op c = .error r) ∧
(∀ (op : LoadOp) (c : Chart) (vs : List (Nat × Nat)), op.slot = 0 → op.isStage = true → checkImage (staging op) op = .ok c →
    checkHere (stageRepairs (staging op)) op c = .ok vs → holder (stageRepairs (staging op)) ≠ some 0 → ∃ (s : State) (op :
    LoadOp) (c : Chart) (vs : List (Nat × Nat)), s.loader.running = some op ∧ op.isStage = true ∧ inCurtain s = false ∧
    checkImage s op = .ok c ∧ checkHere (stageRepairs s) op c = .ok vs ∧ holder (stageRepairs s) ≠ some op.slot) ∧
(∃ (s : State) (op : LoadOp), s.loader.running = some op ∧ op.isStage = false) ∧
(∃ (s : State) (x : Installed) (c : Chart), s.installed = some x ∧ installedChart s = some c ∧ x.running = false ∧ diesReady s
    c = true ∧ inCurtain s = false) ∧
(∃ (s : State) (x : Installed) (c : Chart) (f : FaultRec) (l : List FaultRec) (r : Region) (v : Variant), s.installed = some x
    ∧ installedChart s = some c ∧ x.running = true ∧ x.faults = f :: l ∧ (c.regions.find? fun r => r.id == f.region) = some r
    ∧ restageChoice s c x r f = some v) := by
  refine ⟨?_, ?_, ?_, ?_, ?_, ?_⟩
  · refine ⟨{ live with loader := { Loader.reset with running := some (latchOp true 0 live) } }, latchOp true 0 live, ⟨0x0201, noSect, noRecord⟩, ?_⟩; repeat' apply And.intro
    all_goals first | decide +kernel | assumption | (unfold headStarts; decide +kernel) | (unfold servedNow; decide +kernel) | rfl
  · intro c op r h0 h1 h2 h3; refine ⟨(staging op), op, c, r, ?_⟩; exact ⟨rfl, h1, rfl, h2, h3⟩
  · intro op c vs h0 h1 h2 h3 h4; refine ⟨(staging op), op, c, vs, ?_⟩; exact ⟨rfl, h1, rfl, h2, h3, by rw [h0]; exact h4⟩
  · refine ⟨{ live with loader := { Loader.reset with running := some (latchOp false 0 live) } }, latchOp false 0 live, ?_⟩; repeat' apply And.intro
    all_goals first | decide +kernel | assumption | (unfold headStarts; decide +kernel) | (unfold servedNow; decide +kernel) | rfl
  · refine ⟨installed blank { inst none with running := false }, { inst none with running := false }, blank, ?_⟩; repeat' apply And.intro
    all_goals first | decide +kernel | assumption | (unfold headStarts; decide +kernel) | (unfold servedNow; decide +kernel) | rfl
  · refine ⟨restaging, restaged, chart1, ⟨0, 0x0405, some 0⟩, [], ⟨0, 0, 0, 0, 0, false, 0, 0, 0⟩, understudy, ?_⟩; repeat' apply And.intro
    all_goals first | decide +kernel | assumption | (unfold headStarts; decide +kernel) | (unfold servedNow; decide +kernel) | rfl

theorem test_selfTestsRun_has_cases :
(∃ (s : State) (p : Part) (code : BitVec 16) (since : Nat) (l : List (Part × BitVec 16 × Nat)), s.selfTest.waiting = (p, code,
    since) :: l ∧ s.selfTest.running.length < 16 ∧ inCurtain s = false) ∧
(∃ (s : State) (p : Part), (∀ x ∈ s.selfTest.waiting.head?, x.1 ≠ p)) ∧
(∃ (s : State) (p : Part) (y : Part × BitVec 16), (s.selfTest.running.find? fun x => decide (x.1 = p)) = some y ∧ inCurtain s
    = false ∧ isSensor p = true) ∧
(∃ (s : State) (p : Part) (y : Part × BitVec 16), (s.selfTest.running.find? fun x => decide (x.1 = p)) = some y ∧ inCurtain s
    = false ∧ isSensor p = false ∧ (∀ x ∈ s.selfTest.transients, x.1 ≠ p)) := by
  refine ⟨?_, ?_, ?_, ?_⟩
  · refine ⟨{ live with selfTest := { live.selfTest with waiting := [(.tile 0, 0x0405, 0)] } }, .tile 0, 0x0405, 0, [], ?_⟩; repeat' apply And.intro
    all_goals first | decide +kernel | assumption | (unfold headStarts; decide +kernel) | (unfold servedNow; decide +kernel) | rfl
  · refine ⟨live, .tile 0, ?_⟩; repeat' apply And.intro
    all_goals first | decide +kernel | assumption | (unfold headStarts; decide +kernel) | (unfold servedNow; decide +kernel) | rfl
  · refine ⟨{ live with selfTest := { live.selfTest with running := [(.tileSensor 0, 0x0B0D)] } }, .tileSensor 0, (.tileSensor 0, 0x0B0D), ?_⟩; repeat' apply And.intro
    all_goals first | decide +kernel | assumption | (unfold headStarts; decide +kernel) | (unfold servedNow; decide +kernel) | rfl
  · refine ⟨{ live with selfTest := { live.selfTest with running := [(.tile 0, 0x0405)] } }, .tile 0, (.tile 0, 0x0405), ?_⟩; repeat' apply And.intro
    all_goals first | decide +kernel | assumption | (unfold headStarts; decide +kernel) | (unfold servedNow; decide +kernel) | rfl

theorem test_scrubsRun_has_cases :
(∃ s : State, backgroundOn s = true) ∧
(∃ (s : State) (i : TileId) (b : Fin 32) (r : Fin 768), backgroundOn s = true ∧ tileRowRead s i b r = true ∧
    s.selfTest.waiting = [] ∧ s.selfTest.running = []) ∧
(∃ (s : State) (i : TileId) (b : Fin 32) (r : Fin 2048), backgroundOn s = true ∧ deckRowRead s i b r = true ∧
    s.selfTest.waiting = [] ∧ s.selfTest.running = []) ∧
(∃ (s : State) (k : StackId) (n : Nat), backgroundOn s = true ∧ s.selfTest.waiting = [] ∧ s.selfTest.running = []) ∧
(∃ (s : State) (i : Slot) (y : Site) (m : Model) (a : BitVec 16), holder s = some i ∧ siteOf s i = some y ∧ (s.ctxOf i).model
    = some m ∧ backgroundOn s = true ∧ (∀ k ∈ ((pinnedLayers s a.toNat).flatMap (layerShards m.fetch.manifest)).filter
    (shardInArea s y.chart y.inst m.fetch.manifest a.toNat), Config.shake256 (rebuiltShard y s.mem m.fetch.manifest k) 64 =
    recordedDigest m k)) ∧
(∃ (s : State) (i : Slot) (y : Site) (m : Model) (a : BitVec 16) (k : Nat), holder s = some i ∧ siteOf s i = some y ∧ (s.ctxOf
    i).model = some m ∧ backgroundOn s = true ∧ (((pinnedLayers s a.toNat).flatMap (layerShards m.fetch.manifest)).filter
    (shardInArea s y.chart y.inst m.fetch.manifest a.toNat)).find? (fun k => !(Config.shake256 (rebuiltShard y s.mem
    m.fetch.manifest k) 64 == recordedDigest m k)) = some k) ∧
(∃ (s : State) (i : Slot) (m : Model) (k : Nat), backgroundOn s = true ∧ (s.ctxOf i).model = some m ∧ (∀ beside f h, fetchOf
    (s.ctxOf i) beside = some f → holdOf f.holds k = some h → h.valid = true ∧ storedDigest s i m f h = h.digest)) := by
  refine ⟨?_, ?_, ?_, ?_, ?_, ?_, ?_⟩
  · refine ⟨live, ?_⟩; repeat' apply And.intro
    all_goals first | decide +kernel | assumption | (unfold headStarts; decide +kernel) | (unfold servedNow; decide +kernel) | rfl
  · refine ⟨live, 0, 31, 767, ?_⟩; repeat' apply And.intro
    all_goals first | decide +kernel | assumption | (unfold headStarts; decide +kernel) | (unfold servedNow; decide +kernel) | rfl
  · refine ⟨live, 0, 31, 2047, ?_⟩; repeat' apply And.intro
    all_goals first | decide +kernel | assumption | (unfold headStarts; decide +kernel) | (unfold servedNow; decide +kernel) | rfl
  · refine ⟨live, 15, 0, ?_⟩; repeat' apply And.intro
    all_goals first | decide +kernel | assumption | (unfold headStarts; decide +kernel) | (unfold servedNow; decide +kernel) | rfl
  · refine ⟨withModelOf blank bare, 0, ⟨0, blank, inst none, fun _ => 0⟩, bare, 0, ?_⟩; repeat' apply And.intro
    all_goals first | decide +kernel | assumption | (unfold headStarts; decide +kernel) | (unfold servedNow; decide +kernel) | rfl
  · refine ⟨pinning, 0, ⟨0, deckChart, inst none, fun _ => 0⟩, spoiled, 5, 0, ?_⟩; exact ⟨by decide +kernel, rfl, rfl, by decide +kernel, spoiled_found⟩
  · refine ⟨withModel checked, 0, checked, 0, ?_⟩; exact ⟨by decide +kernel, rfl, checked_holds⟩

theorem test_meshWatchRuns_has_cases :
(∃ (s : State) (i : TileId), tilePowered s i = true) ∧
(∃ (s : State) (i : TileId) (r : Fin 5) (h : HbState), canon Tile.reset s.tiles = true ∧ hearing s i r = true) ∧
(∃ (s : State) (i : TileId) (r : Fin 5), listening s i r = true ∧ (s.tileOf i).hbSeen[r] = .awake ∧ (s.tileOf i).silent =
    Vector.replicate 5 false ∧ s.selfTest.waiting = [] ∧ s.selfTest.running = []) ∧
(∃ (s : State) (i : TileId) (r k : Fin 5), listening s i r = true ∧ (s.tileOf i).hbSeen[r] = .awake ∧ (s.tileOf i).silent[r] =
    false ∧ (s.tileOf i).silent[k] = true) ∧
(∃ (s : State) (l : LinkDir) (w : BitVec 578), crcGood (logicalOf (linkState s l).shift w) = false ∧ linkIsDown s l = false ∧
    (linkState s l).waiting = false ∧ deckPowered s l.router = true) ∧
(∃ (s : State) (l : LinkDir) (w : BitVec 578), crcGood (logicalOf (linkState s l).shift w) = true) ∧
(∃ (s : State) (l : LinkDir) (q : BitVec 6), linkIsDown s l = false ∧ (linkState s l).waiting = true ∧ (linkState s l).flit =
    q ∧ (linkState s l).fails < 5 ∧ s.selfTest.waiting = [] ∧ s.selfTest.running = []) ∧
(∃ (s : State) (l : LinkDir) (q : BitVec 6), linkIsDown s l = false ∧ (linkState s l).waiting = true ∧ (linkState s l).flit =
    q ∧ 5 ≤ (linkState s l).fails) := by
  refine ⟨?_, ?_, ?_, ?_, ?_, ?_, ?_, ?_⟩
  · refine ⟨live, 0, ?_⟩; repeat' apply And.intro
    all_goals first | decide +kernel | assumption | (unfold headStarts; decide +kernel) | (unfold servedNow; decide +kernel) | rfl
  · refine ⟨{ live with tiles := [(0, awake), (72, awake), (144, awake)] }, 72, 0, .asleep, ?_⟩; repeat' apply And.intro
    all_goals first | decide +kernel | assumption | (unfold headStarts; decide +kernel) | (unfold servedNow; decide +kernel) | rfl
  · refine ⟨{ live with tiles := [(0, { awake with hbSeen := Vector.replicate 5 .awake })] }, 0, 4, ?_⟩; repeat' apply And.intro
    all_goals first | decide +kernel | assumption | (unfold headStarts; decide +kernel) | (unfold servedNow; decide +kernel) | rfl
  · refine ⟨{ live with tiles := [(0, { awake with hbSeen := Vector.replicate 5 .awake, silent := #v[true, false, false, false, false] })] }, 0, 4, 0, ?_⟩; repeat' apply And.intro
    all_goals first | decide +kernel | assumption | (unfold headStarts; decide +kernel) | (unfold servedNow; decide +kernel) | rfl
  · exact ⟨live, ⟨0, 1⟩, 0, crc_bad, by decide +kernel, by decide +kernel, by decide +kernel⟩
  · refine ⟨live, ⟨0, 1⟩, replayCycle live ⟨0, 1⟩ 63, ?_⟩; exact crc_good
  · refine ⟨{ live with links := [⟨⟨0, 1⟩, false, 63, 4, true, [], 0, []⟩] }, ⟨0, 1⟩, 63, ?_⟩; repeat' apply And.intro
    all_goals first | decide +kernel | assumption | (unfold headStarts; decide +kernel) | (unfold servedNow; decide +kernel) | rfl
  · refine ⟨{ live with links := [⟨⟨0, 1⟩, false, 63, 5, true, [], 0, []⟩] }, ⟨0, 1⟩, 63, ?_⟩; repeat' apply And.intro
    all_goals first | decide +kernel | assumption | (unfold headStarts; decide +kernel) | (unfold servedNow; decide +kernel) | rfl

theorem test_cuesRun_has_cases :
(∃ (s : State) (i : TileId) (r : Run) (q : Cue) (f : ArithFault), runOf s = some r ∧ nextCue r i (s.tileOf i) = some q ∧
    issues s r (s.tileOf i) q = true ∧ q.layerStart = false ∧ q.phaseId = 0xFFFF ∧ (q.kind = 1 ∨ q.kind = 2 ∨ q.kind = 3)) ∧
(∃ (s : State) (i : TileId) (r : Run) (q : Cue) (f : ArithFault), canon Tile.reset s.tiles = true ∧ runOf s = some r ∧ nextCue
    r i (s.tileOf i) = some q ∧ issues s r (s.tileOf i) q = true ∧ q.layerStart = false ∧ q.phaseId = 0xFFFF ∧ q.kind = 9) ∧
(∃ (s : State) (i : TileId) (r : Run) (q : Cue) (f : ArithFault), canon Tile.reset s.tiles = true ∧ runOf s = some r ∧ nextCue
    r i (s.tileOf i) = some q ∧ issues s r (s.tileOf i) q = true ∧ q.layerStart = false ∧ q.phaseId = 0xFFFF ∧ (q.kind = 12 ∨
    q.kind = 13)) ∧
(∃ (s : State) (i : TileId) (r : Run) (q : Cue), runOf s = some r ∧ nextCue r i (s.tileOf i) = some q ∧ issues s r (s.tileOf
    i) q = false) ∧
(∃ (s : State) (i : TileId) (r : Run) (q : Cue), canon Tile.reset s.tiles = true ∧ runOf s = some r ∧ nextCue r i (s.tileOf i)
    = some q ∧ issues s r (s.tileOf i) q = false ∧ (s.tileOf i).waitSaid = false) ∧
(∃ (s : State) (i : TileId) (r : Run) (f : InFlight), runOf s = some r ∧ ((allInFlight (s.tileOf i)).find? fun x => x.index ==
    f.index) = some f ∧ isMatmul f.cue.kind = true ∧ f.ran = true) ∧
(∃ (s : State) (i : TileId) (r : Run) (k : Nat) (q : Cue) (f : ArithFault), runOf s = some r ∧ (s.tileOf i).entryRun = some
    (k, q) ∧ canon Tile.reset s.tiles = true ∧ (s.tileOf i).deferred = [] ∧ q.sigMode = 0) := by
  refine ⟨?_, ?_, ?_, ?_, ?_, ?_, ?_⟩
  · refine ⟨prompting (cueOf 1), 0, runWith (cueOf 1), cueOf 1, .none, ?_⟩; repeat' apply And.intro
    all_goals first | decide +kernel | assumption | (unfold headStarts; decide +kernel) | (unfold servedNow; decide +kernel) | rfl
  · refine ⟨prompting (cueOf 9), 0, runWith (cueOf 9), cueOf 9, .none, ?_⟩; repeat' apply And.intro
    all_goals first | decide +kernel | assumption | (unfold headStarts; decide +kernel) | (unfold servedNow; decide +kernel) | rfl
  · refine ⟨prompting (cueOf 13), 0, runWith (cueOf 13), cueOf 13, .none, ?_⟩; repeat' apply And.intro
    all_goals first | decide +kernel | assumption | (unfold headStarts; decide +kernel) | (unfold servedNow; decide +kernel) | rfl
  · refine ⟨prompting late, 0, runWith late, late, ?_⟩; repeat' apply And.intro
    all_goals first | decide +kernel | assumption | (unfold headStarts; decide +kernel) | (unfold servedNow; decide +kernel) | rfl
  · refine ⟨prompting late, 0, runWith late, late, ?_⟩; repeat' apply And.intro
    all_goals first | decide +kernel | assumption | (unfold headStarts; decide +kernel) | (unfold servedNow; decide +kernel) | rfl
  · refine ⟨{ prompting (cueOf 1) with tiles := [(0, { awake with array := some { index := 0, cue := cueOf 1, ran := true } })] }, 0, runWith (cueOf 1), { index := 0, cue := cueOf 1, ran := true }, ?_⟩; repeat' apply And.intro
    all_goals first | decide +kernel | assumption | (unfold headStarts; decide +kernel) | (unfold servedNow; decide +kernel) | rfl
  · refine ⟨{ prompting (cueOf 9) with tiles := [(0, { awake with entryRun := some (3, cueOf 9) })] }, 0, runWith (cueOf 9), 3, cueOf 9, .none, ?_⟩; repeat' apply And.intro
    all_goals first | decide +kernel | assumption | (unfold headStarts; decide +kernel) | (unfold servedNow; decide +kernel) | rfl

theorem test_passesRun_has_cases :
(∃ (s : State) (i : TileId) (k : Fin 64) (l : BitVec 16) (m : List RouteSignal), canon Tile.reset s.tiles = true ∧ takeSignal
    i k l.toNat s.signals = some m) ∧
(∃ (s : State) (i : TileId) (k : Fin 64) (l : BitVec 16), takeSignal i k l.toNat s.signals = none) ∧
(∃ (s : State) (i : Slot) (q : QId) (r : Ready) (x : Installed) (c : Chart), headStarts 0x10 i q s r ∧ s.installed = some x ∧
    runningChart s i = some c ∧ leAt r.entry.body 0 1 < entriesOf c ∧ leAt r.entry.body 0 1 < 16) ∧
(∃ (s : State) (r : Run), runOf s = some r ∧ passOver s r = true) ∧
(∃ (s : State) (r : Run), runOf s = some r ∧ r.pass.replayDue = true ∧ r.inst.faults = [] ∧ r.pass.openLayer = none) := by
  refine ⟨?_, ?_, ?_, ?_, ?_⟩
  · refine ⟨{ live with signals := [⟨0, 63, 0⟩] }, 0, 63, 0, [], ?_⟩; repeat' apply And.intro
    all_goals first | decide +kernel | assumption | (unfold headStarts; decide +kernel) | (unfold servedNow; decide +kernel) | rfl
  · refine ⟨live, 0, 63, 0, ?_⟩; repeat' apply And.intro
    all_goals first | decide +kernel | assumption | (unfold headStarts; decide +kernel) | (unfold servedNow; decide +kernel) | rfl
  · refine ⟨queued 0x10 [0] (installed (withCue { cueOf 13 with imm := 0x400000000 }) (inst none)), 0, 0, ready 0x10 [0], inst none, withCue { cueOf 13 with imm := 0x400000000 }, ?_⟩; repeat' apply And.intro
    all_goals first | decide +kernel | assumption | (unfold headStarts; decide +kernel) | (unfold servedNow; decide +kernel) | rfl
  · refine ⟨installed blank (inst (some pass)), ⟨blank, inst (some pass), pass⟩, ?_⟩; repeat' apply And.intro
    all_goals first | decide +kernel | assumption | (unfold headStarts; decide +kernel) | (unfold servedNow; decide +kernel) | rfl
  · refine ⟨installed blank (inst (some { pass with replayDue := true })), ⟨blank, inst (some { pass with replayDue := true }), { pass with replayDue := true }⟩, ?_⟩; repeat' apply And.intro
    all_goals first | decide +kernel | assumption | (unfold headStarts; decide +kernel) | (unfold servedNow; decide +kernel) | rfl

theorem test_queueCommandsRun_has_cases :
(∃ (s : State) (o : BitVec 41) (b : Bytes), Memory.wf s.mem ∧ activeUp s = true ∧ hdmMapped s o b.length = true ∧ (spanOf o).2
    + b.length ≤ 2 ^ 38) ∧
(∃ (s : State) (o : BitVec 41) (b : Bytes), activeUp s = true ∧ hdmMapped s o b.length = false) ∧
(∃ (s : State) (i : Slot) (q : QId) (r : Ready) (code : Code) (u : State), queueOn s i q = true ∧ u = readHead i q s ∧
    slotFree (u.ctxOf i) = true ∧ (u.ctxOf i).fmtMajor = queueMajor ∧ headOf u i q = some r ∧ refusalOf u i r = some code) ∧
(∃ (s : State) (i : Slot) (q : QId) (r : Ready), headStarts 0x02 i q s r) ∧
(∃ (s : State) (i : Slot) (q : QId), activeUp s = true ∧ (s.queueOf i q).cancel = false) ∧
(∃ (s : State) (i : Slot) (q : QId), (s.queueOf i q).cancel = true ∧ (∀ c ∈ (s.ctxOf i).running, c.q ≠ q)) ∧
(∃ (s : State) (i : Slot), activeUp s = true ∧ (s.ctxOf i).cq.enable = false) ∧
(∃ (s : State) (i : Slot) (h : BitVec 12), activeUp s = true) ∧
(∃ (s : State) (i : Slot) (l : CqLatch) (x : CplRecord), nextWrite s i = some (l, x)) ∧
(∃ (s : State) (i : Slot), (s.ctxOf i).cq.writing = true) := by
  refine ⟨?_, ?_, ?_, ?_, ?_, ?_, ?_, ?_, ?_, ?_⟩
  · refine ⟨opened, 0, [1], ?_⟩; repeat' apply And.intro
    all_goals first | decide +kernel | assumption | (unfold headStarts; decide +kernel) | (unfold servedNow; decide +kernel) | rfl
  · refine ⟨live, 0, [1], ?_⟩; repeat' apply And.intro
    all_goals first | decide +kernel | assumption | (unfold headStarts; decide +kernel) | (unfold servedNow; decide +kernel) | rfl
  · refine ⟨queued 0x02 [1] holding, 0, 0, ready 0x02 [1], 0x0301, readHead 0 0 (queued 0x02 [1] holding), ?_⟩; repeat' apply And.intro
    all_goals first | decide +kernel | assumption | (unfold headStarts; decide +kernel) | (unfold servedNow; decide +kernel) | rfl
  · refine ⟨queued 0x02 [] holding, 0, 0, ready 0x02 [], ?_⟩; repeat' apply And.intro
    all_goals first | decide +kernel | assumption | (unfold headStarts; decide +kernel) | (unfold servedNow; decide +kernel) | rfl
  · refine ⟨opened, 0, 15, ?_⟩; repeat' apply And.intro
    all_goals first | decide +kernel | assumption | (unfold headStarts; decide +kernel) | (unfold servedNow; decide +kernel) | rfl
  · refine ⟨modQueue 0 0 (fun x => { x with cancel := true }) opened, 0, 0, ?_⟩; repeat' apply And.intro
    all_goals first | decide +kernel | assumption | (unfold headStarts; decide +kernel) | (unfold servedNow; decide +kernel) | rfl
  · refine ⟨opened, 0, ?_⟩; repeat' apply And.intro
    all_goals first | decide +kernel | assumption | (unfold headStarts; decide +kernel) | (unfold servedNow; decide +kernel) | rfl
  · refine ⟨opened, 0, 4095, ?_⟩; repeat' apply And.intro
    all_goals first | decide +kernel | assumption | (unfold headStarts; decide +kernel) | (unfold servedNow; decide +kernel) | rfl
  · refine ⟨ringing, 0, ⟨0, 6, false⟩, cplRecord (cmd 2) 0 0xFFFF 0 0, ?_⟩; repeat' apply And.intro
    all_goals first | decide +kernel | assumption | (unfold headStarts; decide +kernel) | (unfold servedNow; decide +kernel) | rfl
  · refine ⟨modCtx 0 (fun c => { c with cq := { c.cq with writing := true } }) opened, 0, ?_⟩; repeat' apply And.intro
    all_goals first | decide +kernel | assumption | (unfold headStarts; decide +kernel) | (unfold servedNow; decide +kernel) | rfl

theorem test_hostPortsRun_has_cases :
(∃ (s : State) (c : Instr), (c = .takeOver (standby s) ∨ (c = .failover ∧ activeUp s = true)) ∧ failoverAllowed s = true) ∧
(∃ (s : State) (c : Instr), (c = .takeOver (standby s) ∨ (c = .failover ∧ activeUp s = true)) ∧ failoverAllowed s = false) ∧
(∃ (s : State) (c : Instr), (c = .activeLinkDown ∨ c = .cxlPortReset s.host.activePort) ∧ activeUp s = true) ∧
(∃ (s : State), s.host.autoArmed = true ∧ activeUp s = false ∧ s.host.autoFailover = true ∧ failoverAllowed s = true) ∧
(∃ (s : State), s.host.autoArmed = true ∧ activeUp s = false ∧ s.host.autoFailover = false) ∧
(∃ (s : State) (ide : Bool), s.start.houseUp = true ∧ s.host.autoRetry = false) ∧
(∃ (s : State) (ide : Bool), s.start.houseUp = true ∧ s.host.autoRetry = false ∧ (s.host.ports[standby s]).linkUp = false) ∧
(∃ (s : State) (c : Instr), (c = .standbyLinkDown ∨ c = .cxlPortReset (standby s))) ∧
(∃ (s : State) (ide : Bool), s.start.houseUp = true) ∧
(∃ (s : State), s.host.swapPending = true ∧ (∀ i : Slot, nextWrite s i = none ∧ (s.ctxOf i).cq.writing = false)) := by
  refine ⟨?_, ?_, ?_, ?_, ?_, ?_, ?_, ?_, ?_, ?_⟩
  · refine ⟨live, .takeOver 1, ?_⟩; repeat' apply And.intro
    all_goals first | decide +kernel | assumption | (unfold headStarts; decide +kernel) | (unfold servedNow; decide +kernel) | rfl
  · refine ⟨{ live with host := { live.host with ports := live.host.ports.set 1 CxlPort.reset } }, .failover, ?_⟩; repeat' apply And.intro
    all_goals first | decide +kernel | assumption | (unfold headStarts; decide +kernel) | (unfold servedNow; decide +kernel) | rfl
  · refine ⟨live, .activeLinkDown, ?_⟩; repeat' apply And.intro
    all_goals first | decide +kernel | assumption | (unfold headStarts; decide +kernel) | (unfold servedNow; decide +kernel) | rfl
  · refine ⟨{ live with host := { live.host with autoArmed := true, ports := live.host.ports.set 0 CxlPort.reset } }, ?_⟩; repeat' apply And.intro
    all_goals first | decide +kernel | assumption | (unfold headStarts; decide +kernel) | (unfold servedNow; decide +kernel) | rfl
  · refine ⟨{ live with host := { live.host with autoArmed := true, autoFailover := false, ports := live.host.ports.set 0 CxlPort.reset } }, ?_⟩; repeat' apply And.intro
    all_goals first | decide +kernel | assumption | (unfold headStarts; decide +kernel) | (unfold servedNow; decide +kernel) | rfl
  · refine ⟨live, true, ?_⟩; repeat' apply And.intro
    all_goals first | decide +kernel | assumption | (unfold headStarts; decide +kernel) | (unfold servedNow; decide +kernel) | rfl
  · refine ⟨{ live with host := { live.host with ports := live.host.ports.set 1 CxlPort.reset } }, false, ?_⟩; repeat' apply And.intro
    all_goals first | decide +kernel | assumption | (unfold headStarts; decide +kernel) | (unfold servedNow; decide +kernel) | rfl
  · refine ⟨live, .standbyLinkDown, ?_⟩; repeat' apply And.intro
    all_goals first | decide +kernel | assumption | (unfold headStarts; decide +kernel) | (unfold servedNow; decide +kernel) | rfl
  · refine ⟨live, true, ?_⟩; repeat' apply And.intro
    all_goals first | decide +kernel | assumption | (unfold headStarts; decide +kernel) | (unfold servedNow; decide +kernel) | rfl
  · refine ⟨{ live with host := { live.host with swapPending := true } }, ?_⟩; repeat' apply And.intro
    all_goals first | decide +kernel | assumption | (unfold headStarts; decide +kernel) | (unfold servedNow; decide +kernel) | rfl

theorem test_hostAccessesRun_has_cases :
(∃ (s : State) (k : AccessKind), (s.host.ports[standby s]).linkUp = true) ∧
(∃ (s : State) (o : BitVec 41) (k : AccessKind), activeUp s = true ∧ hdmMapped s o 1 = false ∧ k ≠ .ioRequest) ∧
(∃ (s : State) (p : CxlId) (n : Byte), configUp s p = true) ∧
(∃ (s : State) (p : CxlId), configUp s p = true) ∧
(∀ (k : Bytes), Config.ideKm [] = some k → ∃ (s : State) (x k : Bytes), configUp s s.host.activePort = true ∧ Config.ideKm x =
    some k) := by
  refine ⟨?_, ?_, ?_, ?_, ?_⟩
  · refine ⟨live, .memRead, ?_⟩; repeat' apply And.intro
    all_goals first | decide +kernel | assumption | (unfold headStarts; decide +kernel) | (unfold servedNow; decide +kernel) | rfl
  · refine ⟨live, 0, .memWrite, ?_⟩; repeat' apply And.intro
    all_goals first | decide +kernel | assumption | (unfold headStarts; decide +kernel) | (unfold servedNow; decide +kernel) | rfl
  · refine ⟨live, 1, 0, ?_⟩; repeat' apply And.intro
    all_goals first | decide +kernel | assumption | (unfold headStarts; decide +kernel) | (unfold servedNow; decide +kernel) | rfl
  · refine ⟨live, 0, ?_⟩; repeat' apply And.intro
    all_goals first | decide +kernel | assumption | (unfold headStarts; decide +kernel) | (unfold servedNow; decide +kernel) | rfl
  · intro k h; refine ⟨live, [], k, ?_⟩; repeat' apply And.intro
    all_goals first | decide +kernel | assumption | (unfold headStarts; decide +kernel) | (unfold servedNow; decide +kernel) | rfl

theorem test_mailboxRuns_has_cases :
(∃ (s : State) (i : Slot) (r : Bytes), servedNow 0x01 r s ∧ r.length = 128 ∧ zeros r 68 60 = true ∧ 1 ≤ leAt r 66 2 ∧ leAt r
    66 2 ≤ 256 ∧ isOpen s i = false ∧ s.sec.debugUnlocked = false ∧ usedGib s + leAt r 64 2 + leAt r 66 2 ≤ 1536) ∧
(∃ (s : State) (i : Slot) (r : Bytes), servedNow 0x02 r s ∧ r.length = 8 ∧ byteAt r 0 &&& 0xFE = 0 ∧ zeros r 1 7 = true ∧
    (s.ctxOf i).state = .open') ∧
(∃ (s : State) (i : Slot) (r : Bytes), servedNow 0x03 r s ∧ r.length = 8 ∧ zeros r 4 4 = true ∧ leAt r 0 4 ≤ 10000 ∧ (s.ctxOf
    i).state = .open' ∧ holder s = none) ∧
(∃ (s : State) (i : Slot) (r : Bytes), servedNow 0x04 r s ∧ r.length = 64 ∧ zeros r 33 31 = true ∧ byteAt r 32 = 0xFF) ∧
(∃ (s : State) (i : Slot) (r : Bytes), servedNow 0x04 r s ∧ r.length = 64 ∧ zeros r 33 31 = true ∧ byteAt r 32 = 0 ∧
    openOrHolding s i = true) ∧
(∃ (s : State) (i : Slot), servedNow 0x09 [] s) ∧
(∃ (s : State) (i : Slot), servedNow 0x08 [] s) ∧
(∀ (k : Bytes), openBlob reported 0 (blob 1) = some k → ∃ (s : State) (i : Slot) (b k : Bytes), servedNow 0x05 b s ∧ b.length
    = 1296 ∧ byteAt b 0 = 1 ∧ zeros b 2 2 = true ∧ openOrHolding s i = true ∧ (byteAt b 1).toNat < 16 ∧ openBlob s i b = some
    k ∧ policyMet s i (slice b 84 64) = true) ∧
(∀ (k : Bytes), Config.gcmOpen [] (List.replicate 12 0) (2 :: List.replicate 35 0) (List.replicate 32 0) (List.replicate 16 0)
    = some k → ∃ (s : State) (i : Slot) (b k : Bytes) (g : GroupKey), servedNow 0x05 b s ∧ b.length = 96 ∧ byteAt b 0 = 2 ∧
    zeros b 2 2 = true ∧ openOrHolding s i = true ∧ (byteAt b 1).toNat < 16 ∧ (s.sec.groups.find? fun g => g.groupId ==
    BitVec.ofNat 128 (leAt b 20 16) && g.ownerFp == (s.ctxOf i).ownerFp) = some g ∧ Config.gcmOpen g.key (slice b 36 12)
    (slice b 0 36) (slice b 48 32) (slice b 80 16) = some k) ∧
(∃ (s : State) (i : Slot) (r : Bytes), servedNow 0x06 r s ∧ r.length = 8 ∧ zeros r 1 7 = true ∧ openOrHolding s i = true ∧
    (byteAt r 0).toNat < 16 ∧ (∀ c ∈ (s.ctxOf i).running, usesKey (s.ctxOf i) (byteAt r 0).toNat c = false)) ∧
(∀ (k : Bytes), openBlob reported 0 (blob 3) = some k → ∃ (s : State) (i : Slot) (b k : Bytes), servedNow 0x07 b s ∧ b.length
    = 1296 ∧ byteAt b 0 = 3 ∧ zeros b 1 3 = true ∧ openOrHolding s i = true ∧ openBlob s i b = some k ∧ policyMet s i (slice b
    84 64) = true ∧ groupIndex s.sec.groups (blobModel b) = none ∧ s.sec.groups.length < 16) := by
  refine ⟨?_, ?_, ?_, ?_, ?_, ?_, ?_, ?_, ?_, ?_, ?_⟩
  · refine ⟨live, 7, List.replicate 66 0 ++ [1] ++ List.replicate 61 0, ?_⟩; repeat' apply And.intro
    all_goals first | decide +kernel | assumption | (unfold headStarts; decide +kernel) | (unfold servedNow; decide +kernel) | rfl
  · refine ⟨opened, 0, List.replicate 8 0, ?_⟩; repeat' apply And.intro
    all_goals first | decide +kernel | assumption | (unfold headStarts; decide +kernel) | (unfold servedNow; decide +kernel) | rfl
  · refine ⟨opened, 0, List.replicate 8 0, ?_⟩; repeat' apply And.intro
    all_goals first | decide +kernel | assumption | (unfold headStarts; decide +kernel) | (unfold servedNow; decide +kernel) | rfl
  · refine ⟨live, 0, List.replicate 32 0 ++ [0xFF] ++ List.replicate 31 0, ?_⟩; repeat' apply And.intro
    all_goals first | decide +kernel | assumption | (unfold headStarts; decide +kernel) | (unfold servedNow; decide +kernel) | rfl
  · refine ⟨opened, 0, List.replicate 64 0, ?_⟩; repeat' apply And.intro
    all_goals first | decide +kernel | assumption | (unfold headStarts; decide +kernel) | (unfold servedNow; decide +kernel) | rfl
  · refine ⟨live, 0, ?_⟩; repeat' apply And.intro
    all_goals first | decide +kernel | assumption | (unfold headStarts; decide +kernel) | (unfold servedNow; decide +kernel) | rfl
  · refine ⟨live, 0, ?_⟩; repeat' apply And.intro
    all_goals first | decide +kernel | assumption | (unfold headStarts; decide +kernel) | (unfold servedNow; decide +kernel) | rfl
  · intro k h; refine ⟨reported, 0, blob 1, k, ?_⟩; repeat' apply And.intro
    all_goals first | decide +kernel | assumption | (unfold headStarts; decide +kernel) | (unfold servedNow; decide +kernel) | rfl
  · intro k h; refine ⟨{ opened with sec := { opened.sec with groups := [⟨0, [], []⟩] } }, 0, 2 :: List.replicate 95 0, k, ⟨0, [], []⟩, ?_⟩; repeat' apply And.intro
    all_goals first | decide +kernel | assumption | (unfold headStarts; decide +kernel) | (unfold servedNow; decide +kernel) | rfl
  · refine ⟨opened, 0, List.replicate 8 0, ?_⟩; repeat' apply And.intro
    all_goals first | decide +kernel | assumption | (unfold headStarts; decide +kernel) | (unfold servedNow; decide +kernel) | rfl
  · intro k h; refine ⟨reported, 0, blob 3, k, ?_⟩; repeat' apply And.intro
    all_goals first | decide +kernel | assumption | (unfold headStarts; decide +kernel) | (unfold servedNow; decide +kernel) | rfl

theorem test_handOversRun_has_cases :
(∃ (s : State) (i : Slot), leaving s = some i ∧ (∀ c ∈ (s.ctxOf i).running, c.opcode ≠ 0x10)) ∧
(∃ (s : State) (h : HandOver) (bad : List Part), s.sec.handOver = some h ∧ handOverReady s h = true) ∧
(∃ (s : State) (h : HandOver), s.sec.handOver = some h ∧ handOverReady s h = true ∧ Memory.wf s.mem) ∧
(∃ (s : State) (o j : Slot) (z : Bool), s.sec.handOver = some ⟨some o, some j, false, z, true, .mailbox⟩ ∧ s.sec.waiting =
    none ∧ o ≠ j ∧ (s.ctxOf j).state = .open' ∧ chartOf s j = none) ∧
(∃ (s : State) (i : Slot) (n : Nat), (s.sec.filling.find? fun p => p.1 == i) = some (i, n) ∧ inCurtain s = false) := by
  refine ⟨?_, ?_, ?_, ?_, ?_⟩
  · refine ⟨{ holding with sec := { live.sec with handOver := some (handing false) } }, 0, ?_⟩; repeat' apply And.intro
    all_goals first | decide +kernel | assumption | (unfold headStarts; decide +kernel) | (unfold servedNow; decide +kernel) | rfl
  · refine ⟨{ holding with sec := { live.sec with handOver := some (handing false) } }, handing false, [], ?_⟩; repeat' apply And.intro
    all_goals first | decide +kernel | assumption | (unfold headStarts; decide +kernel) | (unfold servedNow; decide +kernel) | rfl
  · refine ⟨{ holding with sec := { live.sec with handOver := some (handing false) } }, handing false, ?_⟩; repeat' apply And.intro
    all_goals first | decide +kernel | assumption | (unfold headStarts; decide +kernel) | (unfold servedNow; decide +kernel) | rfl
  · refine ⟨modCtx 1 (fun c => { c with state := .open' }) curtained, 0, 1, false, ?_⟩; repeat' apply And.intro
    all_goals first | decide +kernel | assumption | (unfold headStarts; decide +kernel) | (unfold servedNow; decide +kernel) | rfl
  · refine ⟨{ live with sec := { live.sec with filling := [(0, 5)] } }, 0, 5, ?_⟩; repeat' apply And.intro
    all_goals first | decide +kernel | assumption | (unfold headStarts; decide +kernel) | (unfold servedNow; decide +kernel) | rfl

theorem test_operatorRequestsRun_has_cases :
(∃ (s : State) (r : MgmtReq), ∃ x ∈ mgmtRows r, x.1 = 0x0001 ∧ mgmtUp s = true ∧ inCurtain s = true) ∧
(∀ (sig : Bytes), Config.mldsaVerify [1] (signedBytes 0x0001 (req ([]))) sig = true → ∃ (s : State) (r : MgmtReq), accepted
    0x0001 .observer r s ∧ noBody (newerApi r) r.body = true) ∧
(∀ (sig : Bytes), Config.mldsaVerify [1] (signedBytes 0x0002 (req ([0, 0, 0, 0, 1, 0]))) sig = true → ∃ (s : State) (r :
    MgmtReq), accepted 0x0002 .observer r s ∧ eventsLayout (newerApi r) r.body = true) ∧
(∀ (sig : Bytes), Config.mldsaVerify [1] (signedBytes 0x0010 (req ([0x70, 0x17, 1, 0]))) sig = true → ∃ (s : State) (r :
    MgmtReq), accepted 0x0010 .operator r s ∧ sized (newerApi r) 4 r.body = true ∧ clearBits (newerApi r) (byteAt r.body 2)
    0xFE = true ∧ clear (newerApi r) r.body 3 1 = true ∧ 6000 ≤ leAt r.body 0 2 ∧ leAt r.body 0 2 ≤ 23000 ∧ s.power.expired =
    false) ∧
(∀ (sig : Bytes), Config.mldsaVerify [1] (signedBytes 0x0011 (req ([0x50, 0xC3, 0, 0]))) sig = true → ∃ (s : State) (r :
    MgmtReq), accepted 0x0011 .operator r s ∧ sized (newerApi r) 4 r.body = true ∧ 1000 ≤ leAt r.body 0 4 ∧ leAt r.body 0 4 ≤
    50000) ∧
(∀ (sig : Bytes), Config.mldsaVerify [1] (signedBytes 0x0012 (req ([0xD8, 0x59, 0, 0]))) sig = true → ∃ (s : State) (r :
    MgmtReq), accepted 0x0012 .operator r s ∧ sized (newerApi r) 4 r.body = true ∧ clear (newerApi r) r.body 2 2 = true ∧ 6000
    ≤ leAt r.body 0 2 ∧ leAt r.body 0 2 ≤ 23000 ∧ s.power.expired = false ∧ s.power.orphan = false) ∧
(∀ (sig : Bytes), Config.mldsaVerify [1] (signedBytes 0x0020 (req ([]))) sig = true → ∃ (s : State) (r : MgmtReq), accepted
    0x0020 .operator r s ∧ noBody (newerApi r) r.body = true ∧ nvBlocked s = false ∧ 0 < s.nv.tokens ∧ s.nv.storeWaiting =
    false) ∧
(∀ (sig : Bytes), Config.mldsaVerify [1] (signedBytes 0x0021 (req ([1, 0, 0, 0]))) sig = true → ∃ (s : State) (r : MgmtReq),
    accepted 0x0021 .operator r s ∧ sized (newerApi r) 4 r.body = true ∧ (byteAt r.body 0).toNat ≤ 1 ∧ clear (newerApi r)
    r.body 1 3 = true) ∧
(∀ (sig : Bytes), Config.mldsaVerify [1] (signedBytes 0x0022 (req ([]))) sig = true → ∃ (s : State) (r : MgmtReq), accepted
    0x0022 .operator r s ∧ noBody (newerApi r) r.body = true) ∧
(∀ (sig : Bytes), Config.mldsaVerify [1] (signedBytes 0x0030 (req ([7, 1, 0, 0]))) sig = true → ∃ (s : State) (r : MgmtReq) (i
    : Slot), handsFree s = true ∧ accepted 0x0030 .operator r s ∧ sized (newerApi r) 4 r.body = true ∧ (byteAt r.body 0).toNat
    = i ∧ clearBits (newerApi r) (byteAt r.body 1) 0xFE = true ∧ clear (newerApi r) r.body 2 2 = true ∧ (s.ctxOf i).state =
    .open') ∧
(∀ (sig : Bytes), Config.mldsaVerify [1] (signedBytes 0x0031 (req ([7, 0, 0, 0, 0x10, 0x27, 0, 0]))) sig = true → ∃ (s :
    State) (r : MgmtReq) (i : Slot), handsFree s = true ∧ accepted 0x0031 .operator r s ∧ sized (newerApi r) 8 r.body = true ∧
    (byteAt r.body 0).toNat = i ∧ clear (newerApi r) r.body 1 3 = true ∧ leAt (slice r.body 4 4) 0 4 ≤ 10000 ∧ (s.ctxOf
    i).state = .open' ∧ holder s = none) := by
  refine ⟨?_, ?_, ?_, ?_, ?_, ?_, ?_, ?_, ?_, ?_, ?_⟩
  · exact ⟨curtained, req [], (0x0001, .getTelemetry (req [])), List.mem_cons_self .., rfl, by decide +kernel, by decide +kernel⟩
  · intro sig h; refine ⟨console, asked ([]) sig, ?_⟩; refine ⟨accepted_of (by decide +kernel) (by decide +kernel) rfl rfl rfl h, ?_⟩; (repeat' apply And.intro); all_goals first | decide +kernel | (rw [asked_body]; decide +kernel) | (rw [asked_newer, asked_body]; decide +kernel) | assumption | (simp only [asked_body, List.length_cons, List.length_replicate]; done) | (simp only [asked_body]; decide +kernel) | rfl
  · intro sig h; refine ⟨console, asked ([0, 0, 0, 0, 1, 0]) sig, ?_⟩; refine ⟨accepted_of (by decide +kernel) (by decide +kernel) rfl rfl rfl h, ?_⟩; (repeat' apply And.intro); all_goals first | decide +kernel | (rw [asked_body]; decide +kernel) | (rw [asked_newer, asked_body]; decide +kernel) | assumption | (simp only [asked_body, List.length_cons, List.length_replicate]; done) | (simp only [asked_body]; decide +kernel) | rfl
  · intro sig h; refine ⟨console, asked ([0x70, 0x17, 1, 0]) sig, ?_⟩; refine ⟨accepted_of (by decide +kernel) (by decide +kernel) rfl rfl rfl h, ?_⟩; (repeat' apply And.intro); all_goals first | decide +kernel | (rw [asked_body]; decide +kernel) | (rw [asked_newer, asked_body]; decide +kernel) | assumption | (simp only [asked_body, List.length_cons, List.length_replicate]; done) | (simp only [asked_body]; decide +kernel) | rfl
  · intro sig h; refine ⟨console, asked ([0x50, 0xC3, 0, 0]) sig, ?_⟩; refine ⟨accepted_of (by decide +kernel) (by decide +kernel) rfl rfl rfl h, ?_⟩; (repeat' apply And.intro); all_goals first | decide +kernel | (rw [asked_body]; decide +kernel) | (rw [asked_newer, asked_body]; decide +kernel) | assumption | (simp only [asked_body, List.length_cons, List.length_replicate]; done) | (simp only [asked_body]; decide +kernel) | rfl
  · intro sig h; refine ⟨{ console with power := { console.power with orphan := false } }, asked ([0xD8, 0x59, 0, 0]) sig, ?_⟩; refine ⟨accepted_of (by decide +kernel) (by decide +kernel) rfl rfl rfl h, ?_⟩; (repeat' apply And.intro); all_goals first | decide +kernel | (rw [asked_body]; decide +kernel) | (rw [asked_newer, asked_body]; decide +kernel) | assumption | (simp only [asked_body, List.length_cons, List.length_replicate]; done) | (simp only [asked_body]; decide +kernel) | rfl
  · intro sig h; refine ⟨console, asked ([]) sig, ?_⟩; refine ⟨accepted_of (by decide +kernel) (by decide +kernel) rfl rfl rfl h, ?_⟩; (repeat' apply And.intro); all_goals first | decide +kernel | (rw [asked_body]; decide +kernel) | (rw [asked_newer, asked_body]; decide +kernel) | assumption | (simp only [asked_body, List.length_cons, List.length_replicate]; done) | (simp only [asked_body]; decide +kernel) | rfl
  · intro sig h; refine ⟨console, asked ([1, 0, 0, 0]) sig, ?_⟩; refine ⟨accepted_of (by decide +kernel) (by decide +kernel) rfl rfl rfl h, ?_⟩; (repeat' apply And.intro); all_goals first | decide +kernel | (rw [asked_body]; decide +kernel) | (rw [asked_newer, asked_body]; decide +kernel) | assumption | (simp only [asked_body, List.length_cons, List.length_replicate]; done) | (simp only [asked_body]; decide +kernel) | rfl
  · intro sig h; refine ⟨console, asked ([]) sig, ?_⟩; refine ⟨accepted_of (by decide +kernel) (by decide +kernel) rfl rfl rfl h, ?_⟩; (repeat' apply And.intro); all_goals first | decide +kernel | (rw [asked_body]; decide +kernel) | (rw [asked_newer, asked_body]; decide +kernel) | assumption | (simp only [asked_body, List.length_cons, List.length_replicate]; done) | (simp only [asked_body]; decide +kernel) | rfl
  · intro sig h; refine ⟨modCtx 7 (fun c => { c with state := .open' }) console, asked ([7, 1, 0, 0]) sig, 7, ?_⟩; refine ⟨by decide +kernel, accepted_of (by decide +kernel) (by decide +kernel) rfl rfl rfl h, ?_⟩; (repeat' apply And.intro); all_goals first | decide +kernel | (rw [asked_body]; decide +kernel) | (rw [asked_newer, asked_body]; decide +kernel) | assumption | (simp only [asked_body, List.length_cons, List.length_replicate]; done) | (simp only [asked_body]; decide +kernel) | rfl
  · intro sig h; refine ⟨modCtx 7 (fun c => { c with state := .open' }) console, asked ([7, 0, 0, 0, 0x10, 0x27, 0, 0]) sig, 7, ?_⟩; refine ⟨by decide +kernel, accepted_of (by decide +kernel) (by decide +kernel) rfl rfl rfl h, ?_⟩; (repeat' apply And.intro); all_goals first | decide +kernel | (rw [asked_body]; decide +kernel) | (rw [asked_newer, asked_body]; decide +kernel) | assumption | (simp only [asked_body, List.length_cons, List.length_replicate]; done) | (simp only [asked_body]; decide +kernel) | rfl

theorem test_adminRequestsRun_has_cases :
(∀ (sig : Bytes), Config.mldsaVerify [1] (signedBytes 0x0040 (req (0xFF :: List.replicate 19 0))) sig = true → ∃ (s : State)
    (r : MgmtReq), accepted 0x0040 .admin r s ∧ cablingLayout (newerApi r) r.body = true ∧ byteAt r.body 0 = 0xFF) ∧
(∀ (sig : Bytes), Config.mldsaVerify [1] (signedBytes 0x0040 (req (15 :: List.replicate 13 0 ++ [0x10] ++ List.replicate 5
    0))) sig = true → ∃ (s : State) (r : MgmtReq) (p : PortId), accepted 0x0040 .admin r s ∧ cablingLayout (newerApi r) r.body
    = true ∧ (byteAt r.body 0).toNat = p ∧ (byteAt r.body 14).getLsbD 4 = (s.portOf p).nv.enable) ∧
(∀ (sig : Bytes), Config.mldsaVerify [1] (signedBytes 0x0041 (req (3 :: List.replicate 1955 0))) sig = true → ∃ (s : State) (r
    : MgmtReq) (k : Fin 4), accepted 0x0041 .admin r s ∧ sized (newerApi r) 1956 r.body = true ∧ (byteAt r.body 0).toNat = k ∧
    clear (newerApi r) r.body 1 3 = true) ∧
(∀ (sig : Bytes), Config.mldsaVerify [1] (signedBytes 0x0050 (req (List.replicate 68 0))) sig = true → ∃ (s : State) (r :
    MgmtReq), accepted 0x0050 .admin r s ∧ sized (newerApi r) 68 r.body = true ∧ leAt r.body 0 4 ≤ 2621440) ∧
(∀ (sig : Bytes), Config.mldsaVerify [1] (signedBytes 0x0051 (req (List.replicate 5 0))) sig = true → ∃ (s : State) (r :
    MgmtReq) (u : FwUpload), accepted 0x0051 .admin r s ∧ 4 ≤ r.body.length ∧ r.body.length ≤ 65540 ∧ s.sec.upload = some u ∧
    leAt r.body 0 4 + (r.body.length - 4) ≤ u.length) ∧
(∀ (sig : Bytes) (f : Firmware), acceptImage uploaded ⟨0, [], []⟩ = some f → Config.mldsaVerify [1] (signedBytes 0x0052 (req
    ([]))) sig = true → ∃ (s : State) (r : MgmtReq) (u : FwUpload) (f : Firmware), accepted 0x0052 .admin r s ∧ noBody
    (newerApi r) r.body = true ∧ s.sec.upload = some u ∧ acceptImage s u = some f ∧ nvBlocked s = false) ∧
(∀ (sig : Bytes), Config.mldsaVerify [1] (signedBytes 0x0060 (req (7 :: 2 :: List.replicate 1954 0))) sig = true → ∃ (s :
    State) (r : MgmtReq) (k : Fin 8), accepted 0x0060 .admin r s ∧ sized (newerApi r) 1956 r.body = true ∧ (byteAt r.body
    0).toNat = k ∧ (byteAt r.body 1).toNat < 3 ∧ clear (newerApi r) r.body 2 2 = true) ∧
(∀ (sig : Bytes), Config.mldsaVerify [1] (signedBytes 0x0061 (req ([7, 0, 0, 0]))) sig = true → ∃ (s : State) (r : MgmtReq) (k
    : Fin 8), accepted 0x0061 .admin r s ∧ sized (newerApi r) 4 r.body = true ∧ (byteAt r.body 0).toNat = k ∧ clear (newerApi
    r) r.body 1 3 = true) ∧
(∀ (sig : Bytes), Config.mldsaVerify [1] (signedBytes 0x0070 (req (List.replicate 16 0))) sig = true → ∃ (s : State) (r :
    MgmtReq), accepted 0x0070 .admin r s ∧ sized (newerApi r) 16 r.body = true) ∧
(∀ (sig : Bytes), Config.mldsaVerify [1] (signedBytes 0x0080 (req ([]))) sig = true → ∃ (s : State) (r : MgmtReq), accepted
    0x0080 .admin r s ∧ noBody (newerApi r) r.body = true) ∧
(∀ (sig : Bytes), tokenGood challenged token = true → Config.mldsaVerify [1] (signedBytes 0x0081 (req (token))) sig = true → ∃
    (s : State) (r : MgmtReq), handsFree s = true ∧ accepted 0x0081 .admin r s ∧ sized (newerApi r) 3361 r.body = true ∧ clear
    (newerApi r) r.body 48 4 = true ∧ tokenGood s r.body = true ∧ (∀ i : Slot, isOpen s i = false)) := by
  refine ⟨?_, ?_, ?_, ?_, ?_, ?_, ?_, ?_, ?_, ?_, ?_⟩
  · intro sig h; refine ⟨console, asked (0xFF :: List.replicate 19 0) sig, ?_⟩; refine ⟨accepted_of (by decide +kernel) (by decide +kernel) rfl rfl rfl h, ?_⟩; (repeat' apply And.intro); all_goals first | decide +kernel | (rw [asked_body]; decide +kernel) | (rw [asked_newer, asked_body]; decide +kernel) | assumption | (simp only [asked_body, List.length_cons, List.length_replicate]; done) | (simp only [asked_body]; decide +kernel) | rfl
  · intro sig h; refine ⟨console, asked (15 :: List.replicate 13 0 ++ [0x10] ++ List.replicate 5 0) sig, 15, ?_⟩; refine ⟨accepted_of (by decide +kernel) (by decide +kernel) rfl rfl rfl h, ?_⟩; (repeat' apply And.intro); all_goals first | decide +kernel | (rw [asked_body]; decide +kernel) | (rw [asked_newer, asked_body]; decide +kernel) | assumption | (simp only [asked_body, List.length_cons, List.length_replicate]; done) | (simp only [asked_body]; decide +kernel) | rfl
  · intro sig h; refine ⟨console, asked (3 :: List.replicate 1955 0) sig, 3, ?_⟩; refine ⟨accepted_of (by decide +kernel) (by decide +kernel) rfl rfl rfl h, ?_⟩; (repeat' apply And.intro); all_goals first | decide +kernel | (rw [asked_body]; decide +kernel) | (rw [asked_newer, asked_body]; decide +kernel) | assumption | (simp only [asked_body, List.length_cons, List.length_replicate]; done) | (simp only [asked_body]; decide +kernel) | rfl
  · intro sig h; refine ⟨console, asked (List.replicate 68 0) sig, ?_⟩; refine ⟨accepted_of (by decide +kernel) (by decide +kernel) rfl rfl rfl h, ?_⟩; (repeat' apply And.intro); all_goals first | decide +kernel | (rw [asked_body]; decide +kernel) | (rw [asked_newer, asked_body]; decide +kernel) | assumption | (simp only [asked_body, List.length_cons, List.length_replicate]; done) | (simp only [asked_body]; decide +kernel) | rfl
  · intro sig h; refine ⟨{ console with sec := { console.sec with upload := some ⟨1, [], []⟩ } }, asked (List.replicate 5 0) sig, ⟨1, [], []⟩, ?_⟩; refine ⟨accepted_of (by decide +kernel) (by decide +kernel) rfl rfl rfl h, ?_⟩; (repeat' apply And.intro); all_goals first | decide +kernel | (rw [asked_body]; decide +kernel) | (rw [asked_newer, asked_body]; decide +kernel) | assumption | (simp only [asked_body, List.length_cons, List.length_replicate]; done) | (simp only [asked_body]; decide +kernel) | rfl
  · intro sig f h0 h; refine ⟨uploaded, asked ([]) sig, ⟨0, [], []⟩, f, ?_⟩; refine ⟨accepted_of (by decide +kernel) (by decide +kernel) rfl rfl rfl h, ?_⟩; (repeat' apply And.intro); all_goals first | decide +kernel | (rw [asked_body]; decide +kernel) | (rw [asked_newer, asked_body]; decide +kernel) | assumption | (simp only [asked_body, List.length_cons, List.length_replicate]; done) | (simp only [asked_body]; decide +kernel) | rfl
  · intro sig h; refine ⟨console, asked (7 :: 2 :: List.replicate 1954 0) sig, 7, ?_⟩; refine ⟨accepted_of (by decide +kernel) (by decide +kernel) rfl rfl rfl h, ?_⟩; (repeat' apply And.intro); all_goals first | decide +kernel | (rw [asked_body]; decide +kernel) | (rw [asked_newer, asked_body]; decide +kernel) | assumption | (simp only [asked_body, List.length_cons, List.length_replicate]; done) | (simp only [asked_body]; decide +kernel) | rfl
  · intro sig h; refine ⟨console, asked ([7, 0, 0, 0]) sig, 7, ?_⟩; refine ⟨accepted_of (by decide +kernel) (by decide +kernel) rfl rfl rfl h, ?_⟩; (repeat' apply And.intro); all_goals first | decide +kernel | (rw [asked_body]; decide +kernel) | (rw [asked_newer, asked_body]; decide +kernel) | assumption | (simp only [asked_body, List.length_cons, List.length_replicate]; done) | (simp only [asked_body]; decide +kernel) | rfl
  · intro sig h; refine ⟨console, asked (List.replicate 16 0) sig, ?_⟩; refine ⟨accepted_of (by decide +kernel) (by decide +kernel) rfl rfl rfl h, ?_⟩; (repeat' apply And.intro); all_goals first | decide +kernel | (rw [asked_body]; decide +kernel) | (rw [asked_newer, asked_body]; decide +kernel) | assumption | (simp only [asked_body, List.length_cons, List.length_replicate]; done) | (simp only [asked_body]; decide +kernel) | rfl
  · intro sig h; refine ⟨console, asked ([]) sig, ?_⟩; refine ⟨accepted_of (by decide +kernel) (by decide +kernel) rfl rfl rfl h, ?_⟩; (repeat' apply And.intro); all_goals first | decide +kernel | (rw [asked_body]; decide +kernel) | (rw [asked_newer, asked_body]; decide +kernel) | assumption | (simp only [asked_body, List.length_cons, List.length_replicate]; done) | (simp only [asked_body]; decide +kernel) | rfl
  · intro sig h0 h; refine ⟨challenged, asked (token) sig, ?_⟩; refine ⟨by decide +kernel, accepted_of (by decide +kernel) (by decide +kernel) rfl rfl rfl h, ?_⟩; (repeat' apply And.intro); all_goals first | decide +kernel | (rw [asked_body]; decide +kernel) | (rw [asked_newer, asked_body]; decide +kernel) | assumption | (simp only [asked_body, List.length_cons, List.length_replicate]; done) | (simp only [asked_body]; decide +kernel) | rfl

theorem test_nvStoreRuns_has_cases :
(∃ s : State, nvBlocked s = false ∧ s.nv.storeWaiting = false ∧ 0 < s.nv.tokens) ∧
(∃ s : State, nvBlocked s = false ∧ s.nv.storeWaiting = false ∧ s.nv.tokens = 0) ∧
(∃ s : State, s.nv.job = none ∧ nvBlocked s = false ∧ s.nv.storeWaiting = true) ∧
(∃ (s : State) (f : Firmware), s.nv.job = none ∧ nvBlocked s = false ∧ s.nv.storeWaiting = false ∧ s.nv.update = some f ∧ 0 <
    s.nv.tokens) ∧
(∃ (s : State) (j : NvJob) (m : Nat), s.nv.job = some j ∧ m < 2) ∧
(∃ (s : State) (j : NvJob) (m : Nat), s.nv.job = some j ∧ 2 ≤ m) ∧
(∃ s : State, (s.nv.banks[otherBank s.nv.active]).committed = true ∧ 0 < s.nv.tokens ∧ s.nv.job = none ∧ nvBlocked s = false) := by
  refine ⟨?_, ?_, ?_, ?_, ?_, ?_, ?_⟩
  · refine ⟨live, ?_⟩; repeat' apply And.intro
    all_goals first | decide +kernel | assumption | (unfold headStarts; decide +kernel) | (unfold servedNow; decide +kernel) | rfl
  · refine ⟨{ live with nv := { live.nv with tokens := 0 } }, ?_⟩; repeat' apply And.intro
    all_goals first | decide +kernel | assumption | (unfold headStarts; decide +kernel) | (unfold servedNow; decide +kernel) | rfl
  · refine ⟨{ live with nv := { live.nv with storeWaiting := true } }, ?_⟩; repeat' apply And.intro
    all_goals first | decide +kernel | assumption | (unfold headStarts; decide +kernel) | (unfold servedNow; decide +kernel) | rfl
  · refine ⟨{ live with nv := { live.nv with update := some Firmware.reset } }, Firmware.reset, ?_⟩; repeat' apply And.intro
    all_goals first | decide +kernel | assumption | (unfold headStarts; decide +kernel) | (unfold servedNow; decide +kernel) | rfl
  · refine ⟨{ live with nv := { live.nv with job := some nvJob } }, nvJob, 1, ?_⟩; repeat' apply And.intro
    all_goals first | decide +kernel | assumption | (unfold headStarts; decide +kernel) | (unfold servedNow; decide +kernel) | rfl
  · refine ⟨{ live with nv := { live.nv with job := some nvJob } }, nvJob, 2, ?_⟩; repeat' apply And.intro
    all_goals first | decide +kernel | assumption | (unfold headStarts; decide +kernel) | (unfold servedNow; decide +kernel) | rfl
  · refine ⟨live, ?_⟩; repeat' apply And.intro
    all_goals first | decide +kernel | assumption | (unfold headStarts; decide +kernel) | (unfold servedNow; decide +kernel) | rfl

theorem test_portTrainingRuns_has_cases :
(∃ (s : State) (p : PortId), (s.portOf p).nv.enable = true ∧ s.start.stacksUp = true ∧ (s.portOf p).train = false) ∧
(∃ (s : State) (p : PortId), (s.portOf p).nv.enable = true ∧ (s.portOf p).state ≠ .down) ∧
(∃ (s : State) (p : PortId), (s.portOf p).state = .pmd) ∧
(∃ (s : State) (p : PortId), (s.portOf p).state = .pmd) ∧
(∃ (s : State) (p : PortId), (s.portOf p).state = .lock) ∧
(∃ (s : State) (p : PortId), (s.portOf p).framed = true) ∧
(∃ (p : PortId) (k : Nat) (b : Bytes), ∃ o ∈ trainOut p k b, o = .training p k b) ∧
(∃ (p : PortId) (k : Nat) (b : Bytes), ∃ o ∈ trainOut p k b, ∃ f, o = .trainingFlit p f) ∧
(∃ (s : State) (p : PortId) (b : Bytes), (s.portOf p).state = .negotiate ∧ leAt b 0 4 = 0x49585952 ∧ b.length = 64 ∧ farMinor
    b = none) ∧
(∃ (s : State) (p : PortId) (b : Bytes) (m : Nat), (s.portOf p).state = .negotiate ∧ leAt b 0 4 = 0x49585952 ∧ b.length = 64 ∧
    farMinor b = some m ∧ byteAt b 4 = 2 ∧ (byteAt b 5).toNat = p ∧ (s.portOf p).nv.planValid = true ∧ BitVec.ofNat 64 (leAt b
    8 8) = (s.portOf p).nv.planSerial ∧ BitVec.ofNat 16 (leAt b 6 2) = (s.portOf p).nv.planPort ∧ (s.portOf p).nv.verifyMode =
    0) ∧
(∃ (s : State) (p : PortId) (b : Bytes), (s.portOf p).state = .test ∧ (s.portOf p).status = .training ∧ leAt b 0 8 = 5 + 0xFF
    * 256 + 1000 * 2 ^ 32) ∧
(∃ (s : State) (p : PortId) (e : List Word) (l : Byte), (s.portOf p).state = .test ∧ (s.portOf p).status = .test ∧ (s.portOf
    p).berFarSeen = false) ∧
(∃ (s : State) (p : PortId) (e n : List Word) (l k : Byte), (s.portOf p).state = .test ∧ (s.portOf p).berNear = some (n, k) ∧
    berPass n e k l = true) ∧
(∃ (s : State) (p : PortId) (k : Byte), (s.portOf p).state = .up) ∧
(∃ (s : State) (p : PortId), (s.portOf p).state ≠ .down ∧ (s.portOf p).state ≠ .pmd ∧ (s.portOf p).autoRetrain = false) ∧
(∃ (s : State) (p : PortId), (s.portOf p).state = .up ∧ (s.portOf p).autoRetrain = true ∧ (s.portOf p).retrains.toNat < 3 ∧
    (s.portOf p).nv.enable = true ∧ s.start.stacksUp = true) := by
  refine ⟨?_, ?_, ?_, ?_, ?_, ?_, ?_, ?_, ?_, ?_, ?_, ?_, ?_, ?_, ?_, ?_⟩
  · refine ⟨withPort (portIn .down .down), 0, ?_⟩; repeat' apply And.intro
    all_goals first | decide +kernel | assumption | (unfold headStarts; decide +kernel) | (unfold servedNow; decide +kernel) | rfl
  · refine ⟨withPort (portIn .pmd .training), 0, ?_⟩; repeat' apply And.intro
    all_goals first | decide +kernel | assumption | (unfold headStarts; decide +kernel) | (unfold servedNow; decide +kernel) | rfl
  · refine ⟨withPort (portIn .pmd .training), 0, ?_⟩; repeat' apply And.intro
    all_goals first | decide +kernel | assumption | (unfold headStarts; decide +kernel) | (unfold servedNow; decide +kernel) | rfl
  · refine ⟨withPort (portIn .pmd .training), 0, ?_⟩; repeat' apply And.intro
    all_goals first | decide +kernel | assumption | (unfold headStarts; decide +kernel) | (unfold servedNow; decide +kernel) | rfl
  · refine ⟨withPort (portIn .lock .training), 0, ?_⟩; repeat' apply And.intro
    all_goals first | decide +kernel | assumption | (unfold headStarts; decide +kernel) | (unfold servedNow; decide +kernel) | rfl
  · refine ⟨withPort { portIn .up .up with framed := true }, 0, ?_⟩; repeat' apply And.intro
    all_goals first | decide +kernel | assumption | (unfold headStarts; decide +kernel) | (unfold servedNow; decide +kernel) | rfl
  · exact ⟨0, 5, [], .training 0 5 [], List.mem_cons_self .., rfl⟩
  · exact ⟨0, 5, [], .trainingFlit 0 (trainFlit (toLe 8 5 ++ [])), List.mem_cons_of_mem _ (List.mem_cons_self ..), _, rfl⟩
  · refine ⟨withPort (portIn .negotiate .training), 0, toLe 4 0x49585952 ++ List.replicate 60 0, ?_⟩; repeat' apply And.intro
    all_goals first | decide +kernel | assumption | (unfold headStarts; decide +kernel) | (unfold servedNow; decide +kernel) | rfl
  · refine ⟨withPort { portIn .negotiate .training with nv := { PortNv.reset with planValid := true } }, 0, toLe 4 0x49585952 ++ [2] ++ List.replicate 27 0 ++ toLe 4 0x00010000 ++ List.replicate 28 0, 0, ?_⟩; repeat' apply And.intro
    all_goals first | decide +kernel | assumption | (unfold headStarts; decide +kernel) | (unfold servedNow; decide +kernel) | rfl
  · refine ⟨withPort (portIn .test .training), 0, toLe 8 (5 + 0xFF * 256 + 1000 * 2 ^ 32), ?_⟩; repeat' apply And.intro
    all_goals first | decide +kernel | assumption | (unfold headStarts; decide +kernel) | (unfold servedNow; decide +kernel) | rfl
  · refine ⟨withPort (portIn .test .test), 0, List.replicate 8 0, 0xFF, ?_⟩; repeat' apply And.intro
    all_goals first | decide +kernel | assumption | (unfold headStarts; decide +kernel) | (unfold servedNow; decide +kernel) | rfl
  · refine ⟨withPort { portIn .test .test with berNear := some (List.replicate 8 0, 0xFF) }, 0, List.replicate 8 212500, List.replicate 8 0, 0xFF, 0xFF, ?_⟩; repeat' apply And.intro
    all_goals first | decide +kernel | assumption | (unfold headStarts; decide +kernel) | (unfold servedNow; decide +kernel) | rfl
  · refine ⟨live, 15, 1, ?_⟩; repeat' apply And.intro
    all_goals first | decide +kernel | assumption | (unfold headStarts; decide +kernel) | (unfold servedNow; decide +kernel) | rfl
  · refine ⟨withPort { portIn .lock .training with autoRetrain := false }, 0, ?_⟩; repeat' apply And.intro
    all_goals first | decide +kernel | assumption | (unfold headStarts; decide +kernel) | (unfold servedNow; decide +kernel) | rfl
  · refine ⟨live, 15, ?_⟩; repeat' apply And.intro
    all_goals first | decide +kernel | assumption | (unfold headStarts; decide +kernel) | (unfold servedNow; decide +kernel) | rfl

theorem test_portKeyingRuns_has_cases :
(∃ (s : State) (p : PortId), (s.portOf p).state = .keying ∧ (s.portOf p).keying = none ∧ (s.portOf p).keyed = false) ∧
(∀ (m root : Bytes), m.length = replyBytes → replyValid (keyingPort false) key0 m = true → rootOf (withPort (keyingPort
    false)) (replyCert m) = some root → ∃ (s : State) (p : PortId) (k : Keying) (m root : Bytes), (s.portOf p).keying = some k
    ∧ k.confirmed = false ∧ (s.portOf p).state = .keying ∧ m.length = replyBytes ∧ replyValid (s.portOf p) k m = true ∧ rootOf
    s (replyCert m) = some root) ∧
(∃ (s : State) (p : PortId) (k : Keying) (m : Bytes), (s.portOf p).keying = some k ∧ k.confirmed = false ∧ (s.portOf p).state
    = .keying ∧ m.length = replyBytes ∧ replyValid (s.portOf p) k m = false) ∧
(∃ (s : State) (p : PortId) (k : Keying) (m : Bytes), (s.portOf p).keying = some k ∧ k.confirmed = false ∧ (s.portOf p).state
    = .keying ∧ m.length ≠ replyBytes ∧ (s.portOf p).autoRetrain = false) ∧
(∀ (ss x : Bytes), Config.kemDecaps [] (List.replicate 1088 0) = some ss → Config.shake256 (labelFin ++ Config.shake256
    (labelHop ++ [] ++ ss ++ Config.shake256 [] 64) 72 ++ Config.shake256 [] 64) 32 = x → x.length = 32 → ∃ (s : State) (p :
    PortId) (k : Keying) (m ss t₀ b : Bytes), (s.portOf p).keying = some k ∧ k.confirmed = true ∧ (s.portOf p).state = .keying
    ∧ Config.kemDecaps k.ephDk (slice m 0 1088) = some ss ∧ t₀ = Config.shake256 (k.hello ++ k.reply ++ k.confirm) 64 ∧ b =
    Config.shake256 (labelHop ++ k.ssE ++ ss ++ t₀) 72 ∧ m.length = 1120 ∧ slice m 1088 32 = Config.shake256 (labelFin ++ b ++
    t₀) 32) ∧
(∃ (s : State) (p : PortId) (a b c d : BitVec 16), (s.portOf p).state = .keying ∧ (s.portOf p).keyed = true ∧ (s.portOf
    p).credInit = false ∧ 64 ≤ a.toNat ∧ 64 ≤ b.toNat ∧ 64 ≤ c.toNat ∧ 8 ≤ d.toNat) ∧
(∃ (s : State) (p : PortId) (a b c d : BitVec 16), (s.portOf p).state = .keying ∧ (s.portOf p).keyed = true ∧ (s.portOf
    p).credInit = false ∧ (a.toNat < 64 ∨ b.toNat < 64 ∨ c.toNat < 64 ∨ d.toNat < 8)) ∧
(∃ (s : State) (p : PortId), (s.portOf p).state = .keying ∧ (s.portOf p).credInit = true) ∧
(∃ (s : State) (p : PortId), rekeyable s p = true ∧ 2 ^ 40 ≤ (s.portOf p).tx.counter ∧ (s.portOf p).rekey = none) ∧
(∀ (ss : Bytes), Config.kemDecaps [] [] = some ss → ∃ (s : State) (p : PortId) (ct own ss b : Bytes), rekeyable s p = true ∧
    (s.portOf p).rekey = some own ∧ Config.kemDecaps (s.portOf p).ephDk ct = some ss ∧ b = Config.shake256 (labelHop ++ own ++
    ss ++ (s.portOf p).transcript) 72) := by
  refine ⟨?_, ?_, ?_, ?_, ?_, ?_, ?_, ?_, ?_, ?_⟩
  · refine ⟨withPort (portIn .keying .training), 0, ?_⟩; repeat' apply And.intro
    all_goals first | decide +kernel | assumption | (unfold headStarts; decide +kernel) | (unfold servedNow; decide +kernel) | rfl
  · intro m root h0 h1 h2; refine ⟨withPort (keyingPort false), 0, key0, m, root, ?_⟩; repeat' apply And.intro
    all_goals first | decide +kernel | assumption | (unfold headStarts; decide +kernel) | (unfold servedNow; decide +kernel) | rfl
  · refine ⟨withPort (keyingPort false), 0, key0, List.replicate 10634 0, ?_⟩; repeat' apply And.intro
    all_goals first | decide +kernel | assumption | (unfold headStarts; decide +kernel) | (unfold servedNow; decide +kernel) | rfl
  · refine ⟨withPort { keyingPort false with autoRetrain := false }, 0, key0, [], ?_⟩; repeat' apply And.intro
    all_goals first | decide +kernel | assumption | (unfold headStarts; decide +kernel) | (unfold servedNow; decide +kernel) | rfl
  · intro ss x h h1 h2; refine ⟨withPort (keyingPort true), 0, { key0 with confirmed := true }, List.replicate 1088 0 ++ x, ss, Config.shake256 [] 64, Config.shake256 (labelHop ++ [] ++ ss ++ Config.shake256 [] 64) 72, ?_⟩; refine ⟨by decide +kernel, rfl, by decide +kernel, ?_, rfl, rfl, by simp only [List.length_append, List.length_replicate, h2], ?_⟩; · rw [slice_front _ _ List.length_replicate]; exact h
    · rw [h1, slice_back _ _ _ _ List.length_replicate h2]
  · refine ⟨withPort { portIn .keying .training with keyed := true }, 0, 64, 64, 64, 8, ?_⟩; repeat' apply And.intro
    all_goals first | decide +kernel | assumption | (unfold headStarts; decide +kernel) | (unfold servedNow; decide +kernel) | rfl
  · refine ⟨withPort { portIn .keying .training with keyed := true }, 0, 64, 64, 64, 7, ?_⟩; repeat' apply And.intro
    all_goals first | decide +kernel | assumption | (unfold headStarts; decide +kernel) | (unfold servedNow; decide +kernel) | rfl
  · refine ⟨withPort { portIn .keying .training with credInit := true }, 0, ?_⟩; repeat' apply And.intro
    all_goals first | decide +kernel | assumption | (unfold headStarts; decide +kernel) | (unfold servedNow; decide +kernel) | rfl
  · refine ⟨withPort { portIn .up .up with keyed := true, tx := { HopKey.reset with counter := 2 ^ 40 } }, 0, ?_⟩; repeat' apply And.intro
    all_goals first | decide +kernel | assumption | (unfold headStarts; decide +kernel) | (unfold servedNow; decide +kernel) | rfl
  · intro ss h; refine ⟨withPort { portIn .up .up with keyed := true, rekey := some [] }, 0, [], [], ss, Config.shake256 (labelHop ++ [] ++ ss ++ []) 72, ?_⟩; repeat' apply And.intro
    all_goals first | decide +kernel | assumption | (unfold headStarts; decide +kernel) | (unfold servedNow; decide +kernel) | rfl

theorem test_portDataRuns_has_cases :
(∃ (s : State) (p : PortId) (f : Flit), (s.portOf p).state = .up ∧ flitDecoded f = false) ∧
(∃ (s : State) (p : PortId) (f : Flit), (s.portOf p).state = .up ∧ flitDecoded f = true ∧ 256 ≤ (flitRaw f).length ∧ (s.portOf
    p).status = .curtain ∧ bits (flitHead f).toNat 37 35 = 0) ∧
(∀ (_ : Unit), Config.gcmOpen [] (flitNonce HopKey.reset (nearCounter 0 (bits 0 20 0))) (toLe 8 0) (flitBody zeroFlit)
    (flitTag zeroFlit) = none → ∃ (s : State) (p : PortId) (f : Flit) (h : Nat) (k : HopKey), (s.portOf p).state = .up ∧
    flitDecoded f = true ∧ 256 ≤ (flitRaw f).length ∧ (s.portOf p).status ≠ .curtain ∧ h = (flitHead f).toNat ∧ bits h 37 35 <
    2 ∧ rxKey (s.portOf p) (bitOf h 38) = some k ∧ Config.gcmOpen k.key (flitNonce k (nearCounter k.counter (bits h 20 0)))
    (toLe 8 h) (flitBody f) (flitTag f) = none) ∧
(∀ (b : Bytes), Config.gcmOpen [] (flitNonce HopKey.reset (nearCounter 0 (bits 0 20 0))) (toLe 8 0) (flitBody zeroFlit)
    (flitTag zeroFlit) = some b → ∃ (s : State) (p : PortId) (f : Flit) (h : Nat) (k : HopKey) (b : Bytes), (s.portOf p).state
    = .up ∧ flitDecoded f = true ∧ 256 ≤ (flitRaw f).length ∧ (s.portOf p).status ≠ .curtain ∧ h = (flitHead f).toNat ∧ bits h
    37 35 = 0 ∧ rxKey (s.portOf p) (bitOf h 38) = some k ∧ Config.gcmOpen k.key (flitNonce k (nearCounter k.counter (bits h 20
    0))) (toLe 8 h) (flitBody f) (flitTag f) = some b ∧ BitVec.ofNat 12 (bits h 63 52) ≠ (s.portOf p).rxExpect) ∧
(∀ (b : Bytes), Config.gcmOpen [] (flitNonce HopKey.reset (nearCounter 0 (bits 0 20 0))) (toLe 8 0) (flitBody zeroFlit)
    (flitTag zeroFlit) = some b → ∃ (s : State) (p : PortId) (f : Flit) (h : Nat) (k : HopKey) (b : Bytes), (s.portOf p).state
    = .up ∧ flitDecoded f = true ∧ 256 ≤ (flitRaw f).length ∧ (s.portOf p).status ≠ .curtain ∧ h = (flitHead f).toNat ∧ bits h
    37 35 = 0 ∧ bitOf h 39 = false ∧ rxKey (s.portOf p) (bitOf h 38) = some k ∧ Config.gcmOpen k.key (flitNonce k (nearCounter
    k.counter (bits h 20 0))) (toLe 8 h) (flitBody f) (flitTag f) = some b ∧ BitVec.ofNat 12 (bits h 63 52) = (s.portOf
    p).rxExpect) ∧
(∃ (s : State) (p : PortId) (a : BitVec 12), (s.portOf p).state = .up ∧ (s.portOf p).status ≠ .curtain ∧ (takeAck (s.portOf p)
    a).nakActed ≠ some a ∧ fromSeq (takeAck (s.portOf p) a).unacked (a + 1) ≠ [] ∧ (∀ f ∈ fromSeq (takeAck (s.portOf p)
    a).unacked (a + 1), f.resends < 8)) ∧
(∃ (s : State) (p : PortId) (a : BitVec 12), (s.portOf p).state = .up ∧ (s.portOf p).status ≠ .curtain ∧ (takeAck (s.portOf p)
    a).nakActed = some a) ∧
(∃ (s : State) (p : PortId) (f : TxFlit) (l : List TxFlit), (s.portOf p).state = .up ∧ (s.portOf p).status ≠ .curtain ∧
    (s.portOf p).unacked = f :: l ∧ (∀ x ∈ f :: l, x.resends < 8)) ∧
(∃ (s : State) (p : PortId) (f : TxFlit) (l : List TxFlit), (s.portOf p).state = .up ∧ (s.portOf p).status ≠ .curtain ∧
    (s.portOf p).unacked = f :: l ∧ (∃ x ∈ f :: l, 8 ≤ x.resends) ∧ (s.portOf p).autoRetrain = false) ∧
(∃ (s : State) (p : PortId) (l : List Nat), (s.portOf p).state = .up ∧ ∀ k < 8, l.getD k 0 ≤ 10000) ∧
(∃ (s : State) (p : PortId) (l : List Nat), (s.portOf p).state = .up ∧ (s.portOf p).degraded.getD 7 0 = 9 ∧ 10000 < l.getD 7
    0) ∧
(∃ s : State, bar0Up s = true ∧ activeUp s = true ∧ houseOpen s = true ∧ s.pattern.running = false ∧ patternAllowed s
    s.pattern.target.toNat = true) ∧
(∃ s : State, bar0Up s = true ∧ activeUp s = true ∧ houseOpen s = true ∧ s.pattern.running = false ∧ patternAllowed s
    s.pattern.target.toNat = false) ∧
(∃ s : State, bar0Up s = true ∧ activeUp s = true ∧ s.pattern.running = true) ∧
(∃ s : State, bar0Up s = true ∧ activeUp s = true ∧ houseOpen s = false) ∧
(∃ s : State, bar0Up s = true ∧ activeUp s = true ∧ s.pattern.running = true ∧ s.pattern.held = none) ∧
(∃ s : State, bar0Up s = true ∧ activeUp s = true ∧ s.pattern.running = true ∧ s.pattern.held.isSome = true ∧
    s.pattern.heldMode ≠ 1) := by
  refine ⟨?_, ?_, ?_, ?_, ?_, ?_, ?_, ?_, ?_, ?_, ?_, ?_, ?_, ?_, ?_, ?_, ?_⟩
  · refine ⟨live, 0, ⟨[none], 0⟩, ?_⟩; repeat' apply And.intro
    all_goals first | decide +kernel | assumption | (unfold headStarts; decide +kernel) | (unfold servedNow; decide +kernel) | rfl
  · refine ⟨withPort (portIn .up .curtain), 0, zeroFlit, ?_⟩; repeat' apply And.intro
    all_goals first | decide +kernel | assumption | (unfold headStarts; decide +kernel) | (unfold servedNow; decide +kernel) | rfl
  · intro u h; refine ⟨live, 0, zeroFlit, 0, HopKey.reset, ?_⟩; exact ⟨by decide +kernel, by decide +kernel, by decide +kernel, by decide +kernel, by decide +kernel, by decide +kernel, by decide +kernel, h⟩
  · intro b h; refine ⟨withPort { portIn .up .up with rxExpect := 1 }, 0, zeroFlit, 0, HopKey.reset, b, ?_⟩; exact ⟨by decide +kernel, by decide +kernel, by decide +kernel, by decide +kernel, by decide +kernel, by decide +kernel, by decide +kernel, h, by decide +kernel⟩
  · intro b h; refine ⟨live, 0, zeroFlit, 0, HopKey.reset, b, ?_⟩; exact ⟨by decide +kernel, by decide +kernel, by decide +kernel, by decide +kernel, by decide +kernel, by decide +kernel, by decide +kernel, by decide +kernel, h, by decide +kernel⟩
  · refine ⟨withPort { portIn .up .up with unacked := [⟨1, 0, 0, [], 7⟩] }, 0, 0, ?_⟩; repeat' apply And.intro
    all_goals first | decide +kernel | assumption | (unfold headStarts; decide +kernel) | (unfold servedNow; decide +kernel) | rfl
  · refine ⟨withPort { portIn .up .up with nakActed := some 7 }, 0, 7, ?_⟩; repeat' apply And.intro
    all_goals first | decide +kernel | assumption | (unfold headStarts; decide +kernel) | (unfold servedNow; decide +kernel) | rfl
  · refine ⟨withPort { portIn .up .up with unacked := [⟨1, 0, 0, [], 7⟩] }, 0, ⟨1, 0, 0, [], 7⟩, [], ?_⟩; repeat' apply And.intro
    all_goals first | decide +kernel | assumption | (unfold headStarts; decide +kernel) | (unfold servedNow; decide +kernel) | rfl
  · refine ⟨withPort { portIn .up .up with unacked := [⟨1, 0, 0, [], 8⟩], autoRetrain := false }, 0, ⟨1, 0, 0, [], 8⟩, [], ?_⟩; repeat' apply And.intro
    all_goals first | decide +kernel | assumption | (unfold headStarts; decide +kernel) | (unfold servedNow; decide +kernel) | rfl
  · refine ⟨live, 15, [10000], ?_⟩; repeat' apply And.intro
    all_goals first | decide +kernel | assumption | (unfold headStarts; decide +kernel) | (unfold forInstance; decide +kernel) | (unfold forReduction; decide +kernel) | rfl
  · refine ⟨withPort { portIn .up .up with degraded := [0, 0, 0, 0, 0, 0, 0, 9] }, 0, [0, 0, 0, 0, 0, 0, 0, 10001], ?_⟩; repeat' apply And.intro
    all_goals first | decide +kernel | assumption | (unfold headStarts; decide +kernel) | (unfold forInstance; decide +kernel) | (unfold forReduction; decide +kernel) | rfl
  · refine ⟨{ live with pattern := { Pattern.reset with target := 0x20 } }, ?_⟩; repeat' apply And.intro
    all_goals first | decide +kernel | assumption | (unfold headStarts; decide +kernel) | (unfold servedNow; decide +kernel) | rfl
  · refine ⟨live, ?_⟩; repeat' apply And.intro
    all_goals first | decide +kernel | assumption | (unfold headStarts; decide +kernel) | (unfold servedNow; decide +kernel) | rfl
  · refine ⟨{ live with pattern := { Pattern.reset with running := true } }, ?_⟩; repeat' apply And.intro
    all_goals first | decide +kernel | assumption | (unfold headStarts; decide +kernel) | (unfold forInstance; decide +kernel) | (unfold forReduction; decide +kernel) | rfl
  · refine ⟨{ booting 5 with host := live.host }, ?_⟩; repeat' apply And.intro
    all_goals first | decide +kernel | assumption | (unfold headStarts; decide +kernel) | (unfold forInstance; decide +kernel) | (unfold forReduction; decide +kernel) | rfl
  · refine ⟨{ live with pattern := { Pattern.reset with running := true } }, ?_⟩; repeat' apply And.intro
    all_goals first | decide +kernel | assumption | (unfold headStarts; decide +kernel) | (unfold forInstance; decide +kernel) | (unfold forReduction; decide +kernel) | rfl
  · refine ⟨{ live with pattern := { Pattern.reset with running := true, held := some (0x20, 0xFF, 0, 0, 0), heldMode := 2 } }, ?_⟩; repeat' apply And.intro
    all_goals first | decide +kernel | assumption | (unfold headStarts; decide +kernel) | (unfold forInstance; decide +kernel) | (unfold forReduction; decide +kernel) | rfl

theorem test_weightCommandsRun_has_cases :
(Config.shake256 [1] 64 = List.replicate 64 0 → Config.mldsaVerify [1] (manifestBytes.take (manifestBytes.length - 3309))
    (manifestBytes.drop (manifestBytes.length - 3309)) = true → ∃ (s : State) (i : Slot) (q : QId) (r : Ready) (f : Fetch),
    headStarts 0x20 i q s r ∧ acceptManifest (started i q r s) i (parseWeight r.entry.body) = .ok f ∧ modelBusy (started i q r
    s) i = false) ∧
(∃ (s : State) (i : Slot) (q : QId) (r : Ready) (code : Code), headStarts 0x20 i q s r ∧ acceptManifest (started i q r s) i
    (parseWeight r.entry.body) = .error code) ∧
(Config.shake256 [1] 64 = List.replicate 64 0 → Config.mldsaVerify [1] (manifestBytes.take (manifestBytes.length - 3309))
    (manifestBytes.drop (manifestBytes.length - 3309)) = true → ∃ (s : State) (i : Slot) (q : QId) (r : Ready) (f : Fetch),
    headStarts 0x21 i q s r ∧ acceptManifest (started i q r s) i (parseWeight r.entry.body) = .ok f ∧ modelBusy (started i q r
    s) i = false ∧ modelFits (started i q r s) i f.manifest = true ∧ f.pilot = false) ∧
(Config.shake256 [1] 64 = List.replicate 64 0 → Config.mldsaVerify [1] (manifestBytes.take (manifestBytes.length - 3309))
    (manifestBytes.drop (manifestBytes.length - 3309)) = true → ∃ (s : State) (i : Slot) (q : QId) (r : Ready) (f : Fetch) (m
    : Model), headStarts 0x22 i q s r ∧ acceptManifest (started i q r s) i (parseWeight r.entry.body) = .ok f ∧ (s.ctxOf
    i).model = some m ∧ (∀ c ∈ (s.ctxOf i).running, c.opcode ≠ 0x21 ∧ c.opcode ≠ 0x22) ∧ m.resident = true ∧ sameShape
    m.fetch.manifest f.manifest = true ∧ (swapOf m f).2.todo ≠ [] ∧ (swapOf m f).2.fetch.pilot = false ∧ (swapOf m
    f).2.fetch.streamEnded = false) ∧
(∃ (s : State) (i : Slot) (q : QId) (r : Ready), headStarts 0x23 i q s r ∧ modelBusy (started i q r s) i = false) := by
  refine ⟨?_, ?_, ?_, ?_, ?_⟩
  · intro f v; exact ⟨weighted 0x20 none, 0, 0, ready 0x20 weightBody, _, (by unfold headStarts; decide +kernel), manifest_taken _ (by decide +kernel) (by decide +kernel) (by decide +kernel) f v, by decide +kernel⟩
  · refine ⟨queued 0x20 [] holding, 0, 0, ready 0x20 [], 0x050C, ?_⟩; repeat' apply And.intro
    all_goals first | decide +kernel | assumption | (unfold headStarts; decide +kernel) | (unfold servedNow; decide +kernel) | rfl
  · intro f v; exact ⟨weighted 0x21 none, 0, 0, ready 0x21 weightBody, _, (by unfold headStarts; decide +kernel), manifest_taken _ (by decide +kernel) (by decide +kernel) (by decide +kernel) f v, by decide +kernel, by decide +kernel, by decide +kernel⟩
  · intro f v; exact ⟨weighted 0x22 (some (model accepted0)), 0, 0, ready 0x22 weightBody, _, model accepted0, (by unfold headStarts; decide +kernel), manifest_taken _ (by decide +kernel) (by decide +kernel) (by decide +kernel) f v, by decide +kernel, by decide +kernel, rfl, by decide +kernel, by decide +kernel, by decide +kernel, by decide +kernel⟩
  · refine ⟨queued 0x23 [] holding, 0, 0, ready 0x23 [], ?_⟩; repeat' apply And.intro
    all_goals first | decide +kernel | assumption | (unfold headStarts; decide +kernel) | (unfold servedNow; decide +kernel) | rfl

theorem test_shardsRun_has_cases :
(∃ (s : State) (i : Slot) (sw : Bool) (k : Nat) (l : List (Slot × Bool)) (f : Fetch) (r : ShardReq), reqSites s (fun _ r =>
    !r.gap) k = (i, sw) :: l ∧ fetchOf (s.ctxOf i) sw = some f ∧ (f.reqs.find? fun r => r.shard == k) = some r ∧ r.tries <
    f.retries) ∧
(∃ (s : State) (i : Slot) (sw : Bool) (k : Nat) (l : List (Slot × Bool)) (f : Fetch) (r : ShardReq), reqSites s (fun _ r =>
    r.gap) k = (i, sw) :: l ∧ fetchOf (s.ctxOf i) sw = some f ∧ (f.reqs.find? fun r => r.shard == k) = some r ∧ r.tries <
    f.retries) ∧
(∃ (s : State) (p : PortId) (g : ShardMsg) (h : SvcHdr) (i : Slot) (sw : Bool) (l : List (Slot × Bool)) (f : Fetch) (r :
    ShardReq), portTakes s p = true ∧ h = parseSvc g.header ∧ h.kind = 0x62 ∧ svcValid h g.records.length = true ∧ reqSites s
    (fun f r => !r.gap && f.manifest.modelId == h.modelId && r.version == h.version) h.shard = (i, sw) :: l ∧ fetchOf (s.ctxOf
    i) sw = some f ∧ (f.reqs.find? fun r => r.shard == h.shard) = some r ∧ r.tries < f.retries) ∧
(∃ (s : State) (p : PortId) (g : ShardMsg), portTakes s p = true ∧ svcValid (parseSvc g.header) g.records.length = false) ∧
(∀ (x : List (Piece × Bytes)), checkRecords (fetch (manifest 1 [shard0] []) [] [asking]) 0 0 [] (svc 0x61 0 1).records = .ok x
    → wholeShard (fetch (manifest 1 [shard0] []) [] [asking]) 0 0 (x.map Prod.fst) = true → ∃ (s : State) (p : PortId) (g :
    ShardMsg) (h : SvcHdr) (i : Slot) (l : List (Slot × Bool)) (m : Model) (x : List (Piece × Bytes)) (k : Nat), portTakes s p
    = true ∧ h = parseSvc g.header ∧ h.kind = 0x61 ∧ svcValid h g.records.length = true ∧ reqSites s (fun f r =>
    f.manifest.modelId == h.modelId && r.version == h.version) h.shard = (i, false) :: l ∧ (s.ctxOf i).model = some m ∧ m.swap
    = none ∧ m.loading = false ∧ m.fetch.pilot = false ∧ checkRecords m.fetch h.shard h.version [] g.records = .ok x ∧
    wholeShard m.fetch h.shard h.version (x.map Prod.fst) = true ∧ holdOf m.fetch.holds h.shard = none ∧ frameFor m m.fetch
    false h.shard = some k ∧ siteOf s i = none) ∧
(∃ (s : State) (p : PortId) (g : ShardMsg) (h : SvcHdr) (i : Slot) (m : Model), portTakes s p = true ∧ h = parseSvc g.header ∧
    h.kind = 0x64 ∧ svcValid h g.records.length = true ∧ (∀ j, j ≠ i → (s.ctxOf j).model = none) ∧ (s.ctxOf i).model = some m
    ∧ m.fetch.manifest.modelId = h.modelId ∧ h.writer = ownMember s) ∧
(∃ (s : State) (i : Slot) (m : Model) (sh off : Nat) (y : PatchHold), (∀ j, j ≠ i → (s.ctxOf j).model = none) ∧ (s.ctxOf
    i).model = some m ∧ (m.patches.find? fun p => p.shard == sh && p.streamOffset == off) = some y ∧ y.tries < m.fetch.retries
    ∧ patchStopped s y = false) ∧
(∃ (s : State) (i : Slot) (m : Model), (∀ j, j ≠ i → (s.ctxOf j).model = none) ∧ (s.ctxOf i).model = some m ∧ m.loading = true
    ∧ m.fetch.streamEnded = false ∧ allValid m.fetch = true) ∧
(∃ (s : State) (i : Slot) (m : Model) (w : Swap) (k : Nat) (r : List Nat) (ofK : ShardHold → Bool), (∀ j, j ≠ i → (s.ctxOf
    j).model = none) ∧ (s.ctxOf i).model = some m ∧ m.swap = some w ∧ w.todo = k :: r ∧ r ≠ [] ∧ w.failed = false ∧
    w.fetch.pilot = false ∧ w.fetch.streamEnded = false ∧ layerValid w.fetch w.fetch.manifest.baseStep k = true ∧
    admittedWaits s i = false ∧ closedLayer s k = true ∧ ofK = (fun h => (entryOf w.fetch.manifest h.shard).layer == k)) := by
  refine ⟨?_, ?_, ?_, ?_, ?_, ?_, ?_, ?_, ?_⟩
  · refine ⟨requesting false, 0, false, 0, [], fetch (manifest 1 [shard0] []) [] [asking], asking, ?_⟩; repeat' apply And.intro
    all_goals first | decide +kernel | assumption | (unfold headStarts; decide +kernel) | (unfold servedNow; decide +kernel) | rfl
  · refine ⟨requesting true, 0, false, 0, [], fetch (manifest 1 [shard0] []) [] [{ asking with gap := true }], { asking with gap := true }, ?_⟩; repeat' apply And.intro
    all_goals first | decide +kernel | assumption | (unfold headStarts; decide +kernel) | (unfold servedNow; decide +kernel) | rfl
  · refine ⟨requesting false, 0, svc 0x62 3 0, parseSvc (svc 0x62 3 0).header, 0, false, [], fetch (manifest 1 [shard0] []) [] [asking], asking, ?_⟩; repeat' apply And.intro
    all_goals first | decide +kernel | assumption | (unfold headStarts; decide +kernel) | (unfold servedNow; decide +kernel) | rfl
  · refine ⟨live, 15, ⟨[], []⟩, ?_⟩; repeat' apply And.intro
    all_goals first | decide +kernel | assumption | (unfold headStarts; decide +kernel) | (unfold servedNow; decide +kernel) | rfl
  · intro x h h1; refine ⟨requesting false, 0, svc 0x61 0 1, parseSvc (svc 0x61 0 1).header, 0, [], model (fetch (manifest 1 [shard0] []) [] [asking]), x, 0, ?_⟩; repeat' apply And.intro
    all_goals first | decide +kernel | assumption | (unfold headStarts; decide +kernel) | (unfold servedNow; decide +kernel) | rfl
  · refine ⟨withModel bare, 0, svc 0x64 0 0, parseSvc (svc 0x64 0 0).header, 0, bare, ?_⟩; repeat' apply And.intro
    all_goals first | decide +kernel | assumption | (unfold headStarts; decide +kernel) | (unfold servedNow; decide +kernel) | rfl
  · refine ⟨withModel { bare with patches := [⟨0, 0, 1, ⟨[], [], []⟩, 2⟩] }, 0, { bare with patches := [⟨0, 0, 1, ⟨[], [], []⟩, 2⟩] }, 0, 0, ⟨0, 0, 1, ⟨[], [], []⟩, 2⟩, ?_⟩; repeat' apply And.intro
    all_goals first | decide +kernel | assumption | (unfold headStarts; decide +kernel) | (unfold servedNow; decide +kernel) | rfl
  · refine ⟨withModel { bare with loading := true }, 0, { bare with loading := true }, ?_⟩; repeat' apply And.intro
    all_goals first | decide +kernel | assumption | (unfold headStarts; decide +kernel) | (unfold servedNow; decide +kernel) | rfl
  · refine ⟨withModel { bare with swap := some swap0 }, 0, { bare with swap := some swap0 }, swap0, 0, [1], fun h => (entryOf swap0.fetch.manifest h.shard).layer == 0, ?_⟩; repeat' apply And.intro
    all_goals first | decide +kernel | assumption | (unfold headStarts; decide +kernel) | (unfold servedNow; decide +kernel) | rfl

theorem test_fieldTestsRun_has_cases :
(∃ s : State, barWritable s = true ∧ s.field.running = none ∧ fieldAllowed s = true) ∧
(∃ s : State, barWritable s = true ∧ s.field.running = none ∧ fieldAllowed s = false) ∧
(∃ (s : State) (k : BitVec 4), s.field.running = some k ∧ fieldDiesReady s k = true) ∧
(∃ (s : State) (k : BitVec 4) (ms : Word), s.field.running = some k ∧ (k = 3 ∨ k = 4)) := by
  refine ⟨?_, ?_, ?_, ?_⟩
  · refine ⟨live, ?_⟩; repeat' apply And.intro
    all_goals first | decide +kernel | assumption | (unfold headStarts; decide +kernel) | (unfold forInstance; decide +kernel) | (unfold forReduction; decide +kernel) | rfl
  · refine ⟨opened, ?_⟩; repeat' apply And.intro
    all_goals first | decide +kernel | assumption | (unfold headStarts; decide +kernel) | (unfold forInstance; decide +kernel) | (unfold forReduction; decide +kernel) | rfl
  · refine ⟨{ live with field := { Field.reset with running := some 1, testLo := 1 } }, 1, ?_⟩; repeat' apply And.intro
    all_goals first | decide +kernel | assumption | (unfold headStarts; decide +kernel) | (unfold forInstance; decide +kernel) | (unfold forReduction; decide +kernel) | rfl
  · refine ⟨{ live with field := { Field.reset with running := some 4 } }, 4, 0, ?_⟩; repeat' apply And.intro
    all_goals first | decide +kernel | assumption | (unfold headStarts; decide +kernel) | (unfold servedNow; decide +kernel) | rfl

theorem test_registersRun_has_cases :
(∃ (s : State) (i : BitVec 12), barWritable s = true) ∧
(∃ (s : State) (a : BitVec 24) (w : Word), barWritable s = true ∧ (a.toNat % 4 ≠ 0 ∨ a.toNat < 0x1000 ∨ 0x18000 ≤ a.toNat ∧
    a.toNat < 0x20000 ∨ 0x90000 ≤ a.toNat)) ∧
(∃ (s : State) (w : Word), barWritable s = true) ∧
(∃ (s : State) (i : Slot) (w : Word), barWritable s = true) ∧
(∃ (s : State) (a : BitVec 24) (w : Word), barWritable s = false) := by
  refine ⟨?_, ?_, ?_, ?_, ?_⟩
  · refine ⟨live, 4095, ?_⟩; repeat' apply And.intro
    all_goals first | decide +kernel | assumption | (unfold headStarts; decide +kernel) | (unfold servedNow; decide +kernel) | rfl
  · refine ⟨live, 0xFFFFFC, 1, ?_⟩; repeat' apply And.intro
    all_goals first | decide +kernel | assumption | (unfold headStarts; decide +kernel) | (unfold servedNow; decide +kernel) | rfl
  · refine ⟨live, 1, ?_⟩; repeat' apply And.intro
    all_goals first | decide +kernel | assumption | (unfold headStarts; decide +kernel) | (unfold servedNow; decide +kernel) | rfl
  · refine ⟨live, 7, 1, ?_⟩; repeat' apply And.intro
    all_goals first | decide +kernel | assumption | (unfold headStarts; decide +kernel) | (unfold servedNow; decide +kernel) | rfl
  · refine ⟨State.reset, 0, 1, ?_⟩; repeat' apply And.intro
    all_goals first | decide +kernel | assumption | (unfold headStarts; decide +kernel) | (unfold servedNow; decide +kernel) | rfl

theorem test_snapshotRuns_has_cases :
∃ (s : State) (i : Slot) (q : QId) (r : Ready), headStarts 0x40 i q s r ∧ leAt r.entry.body 8 4 < (logImage (started i q r s)
    i).length := by
  refine ⟨queued 0x40 [] holding, 0, 0, ready 0x40 [], ?_⟩; repeat' apply And.intro
  all_goals first | decide +kernel | assumption | (unfold headStarts; decide +kernel) | (unfold forInstance; decide +kernel) | (unfold forReduction; decide +kernel) | rfl

theorem test_collectivesStart_has_cases :
(headStarts 0x31 0 0 (commanding 0x31 9 collBody true) (ready 0x31 collBody) ∧ collRefused (startOf (commanding 0x31 9
    collBody true) 0x31 collBody) 0 2 (parseColl (ready 0x31 collBody).entry.body) = true) ∧
(headStarts 0x31 0 0 (commanding 0x31 2 collBody false) (ready 0x31 collBody) ∧ collRefused (startOf (commanding 0x31 2
    collBody false) 0x31 collBody) 0 2 (parseColl (ready 0x31 collBody).entry.body) = false ∧ portsInService (startOf
    (commanding 0x31 2 collBody false) 0x31 collBody) = []) ∧
(headStarts 0x31 0 0 (commanding 0x31 2 collBody true) (ready 0x31 collBody) ∧ collRefused (startOf (commanding 0x31 2
    collBody true) 0x31 collBody) 0 2 (parseColl (ready 0x31 collBody).entry.body) = false ∧ portsInService (startOf
    (commanding 0x31 2 collBody true) 0x31 collBody) ≠ [] ∧ instOf (commanding 0x31 2 collBody true) 0 = none ∧ (∃ m ∈
    (newInst (startOf (commanding 0x31 2 collBody true) 0x31 collBody) 0 0 (ready 0x31 collBody) 2 (parseColl (ready 0x31
    collBody).entry.body)).members, m ≠ ownMember (startOf (commanding 0x31 2 collBody true) 0x31 collBody) ∧ m ≠ (newInst
    (startOf (commanding 0x31 2 collBody true) 0x31 collBody) 0 0 (ready 0x31 collBody) 2 (parseColl (ready 0x31
    collBody).entry.body)).root ∨ 2 ≠ 4 ∧ m ≠ 0)) ∧
(headStarts 0x32 0 0 (commanding 0x32 9 collBody true) (ready 0x32 collBody) ∧ collRefused (startOf (commanding 0x32 9
    collBody true) 0x32 collBody) 0 3 (parseColl (ready 0x32 collBody).entry.body) = true) ∧
(headStarts 0x32 0 0 (commanding 0x32 3 collBody false) (ready 0x32 collBody) ∧ collRefused (startOf (commanding 0x32 3
    collBody false) 0x32 collBody) 0 3 (parseColl (ready 0x32 collBody).entry.body) = false ∧ portsInService (startOf
    (commanding 0x32 3 collBody false) 0x32 collBody) = []) ∧
(headStarts 0x32 0 0 (commanding 0x32 3 collBody true) (ready 0x32 collBody) ∧ collRefused (startOf (commanding 0x32 3
    collBody true) 0x32 collBody) 0 3 (parseColl (ready 0x32 collBody).entry.body) = false ∧ portsInService (startOf
    (commanding 0x32 3 collBody true) 0x32 collBody) ≠ [] ∧ instOf (commanding 0x32 3 collBody true) 0 = none ∧ (∃ m ∈
    (newInst (startOf (commanding 0x32 3 collBody true) 0x32 collBody) 0 0 (ready 0x32 collBody) 3 (parseColl (ready 0x32
    collBody).entry.body)).members, m ≠ ownMember (startOf (commanding 0x32 3 collBody true) 0x32 collBody) ∧ m ≠ (newInst
    (startOf (commanding 0x32 3 collBody true) 0x32 collBody) 0 0 (ready 0x32 collBody) 3 (parseColl (ready 0x32
    collBody).entry.body)).root ∨ 3 ≠ 4 ∧ m ≠ 0)) ∧
(headStarts 0x33 0 0 (commanding 0x33 9 castBody true) (ready 0x33 castBody) ∧ collRefused (startOf (commanding 0x33 9
    castBody true) 0x33 castBody) 0 4 (parseColl (ready 0x33 castBody).entry.body) = true) ∧
(headStarts 0x33 0 0 (commanding 0x33 4 castBody false) (ready 0x33 castBody) ∧ collRefused (startOf (commanding 0x33 4
    castBody false) 0x33 castBody) 0 4 (parseColl (ready 0x33 castBody).entry.body) = false ∧ portsInService (startOf
    (commanding 0x33 4 castBody false) 0x33 castBody) = []) ∧
(headStarts 0x33 0 0 (commanding 0x33 4 castBody true) (ready 0x33 castBody) ∧ collRefused (startOf (commanding 0x33 4
    castBody true) 0x33 castBody) 0 4 (parseColl (ready 0x33 castBody).entry.body) = false ∧ portsInService (startOf
    (commanding 0x33 4 castBody true) 0x33 castBody) ≠ [] ∧ instOf (commanding 0x33 4 castBody true) 0 = none ∧ (∃ m ∈
    (newInst (startOf (commanding 0x33 4 castBody true) 0x33 castBody) 0 0 (ready 0x33 castBody) 4 (parseColl (ready 0x33
    castBody).entry.body)).members, m ≠ ownMember (startOf (commanding 0x33 4 castBody true) 0x33 castBody) ∧ m ≠ (newInst
    (startOf (commanding 0x33 4 castBody true) 0x33 castBody) 0 0 (ready 0x33 castBody) 4 (parseColl (ready 0x33
    castBody).entry.body)).root ∨ 4 ≠ 4 ∧ m ≠ 0)) ∧
(headStarts 0x34 0 0 (commanding 0x34 9 barrierBody true) (ready 0x34 barrierBody) ∧ collRefused (startOf (commanding 0x34 9
    barrierBody true) 0x34 barrierBody) 0 5 (parseColl (ready 0x34 barrierBody).entry.body) = true) ∧
(headStarts 0x34 0 0 (commanding 0x34 5 barrierBody false) (ready 0x34 barrierBody) ∧ collRefused (startOf (commanding 0x34 5
    barrierBody false) 0x34 barrierBody) 0 5 (parseColl (ready 0x34 barrierBody).entry.body) = false ∧ portsInService (startOf
    (commanding 0x34 5 barrierBody false) 0x34 barrierBody) = []) ∧
(headStarts 0x34 0 0 (commanding 0x34 5 barrierBody true) (ready 0x34 barrierBody) ∧ collRefused (startOf (commanding 0x34 5
    barrierBody true) 0x34 barrierBody) 0 5 (parseColl (ready 0x34 barrierBody).entry.body) = false ∧ portsInService (startOf
    (commanding 0x34 5 barrierBody true) 0x34 barrierBody) ≠ [] ∧ instOf (commanding 0x34 5 barrierBody true) 0 = none ∧ (∃ m
    ∈ (newInst (startOf (commanding 0x34 5 barrierBody true) 0x34 barrierBody) 0 0 (ready 0x34 barrierBody) 5 (parseColl
    (ready 0x34 barrierBody).entry.body)).members, m ≠ ownMember (startOf (commanding 0x34 5 barrierBody true) 0x34
    barrierBody) ∧ m ≠ (newInst (startOf (commanding 0x34 5 barrierBody true) 0x34 barrierBody) 0 0 (ready 0x34 barrierBody) 5
    (parseColl (ready 0x34 barrierBody).entry.body)).root ∨ 5 ≠ 4 ∧ m ≠ 0)) := by
  refine ⟨?_, ?_, ?_, ?_, ?_, ?_, ?_, ?_, ?_, ?_, ?_, ?_⟩
  · repeat' apply And.intro
    all_goals first | decide +kernel | assumption | (unfold headStarts; decide +kernel) | (unfold forInstance; decide +kernel) | (unfold forReduction; decide +kernel) | rfl
  · repeat' apply And.intro
    all_goals first | decide +kernel | assumption | (unfold headStarts; decide +kernel) | (unfold forInstance; decide +kernel) | (unfold forReduction; decide +kernel) | rfl
  · repeat' apply And.intro
    all_goals first | decide +kernel | assumption | (unfold headStarts; decide +kernel) | (unfold forInstance; decide +kernel) | (unfold forReduction; decide +kernel) | rfl
  · repeat' apply And.intro
    all_goals first | decide +kernel | assumption | (unfold headStarts; decide +kernel) | (unfold forInstance; decide +kernel) | (unfold forReduction; decide +kernel) | rfl
  · repeat' apply And.intro
    all_goals first | decide +kernel | assumption | (unfold headStarts; decide +kernel) | (unfold forInstance; decide +kernel) | (unfold forReduction; decide +kernel) | rfl
  · repeat' apply And.intro
    all_goals first | decide +kernel | assumption | (unfold headStarts; decide +kernel) | (unfold forInstance; decide +kernel) | (unfold forReduction; decide +kernel) | rfl
  · repeat' apply And.intro
    all_goals first | decide +kernel | assumption | (unfold headStarts; decide +kernel) | (unfold forInstance; decide +kernel) | (unfold forReduction; decide +kernel) | rfl
  · repeat' apply And.intro
    all_goals first | decide +kernel | assumption | (unfold headStarts; decide +kernel) | (unfold forInstance; decide +kernel) | (unfold forReduction; decide +kernel) | rfl
  · repeat' apply And.intro
    all_goals first | decide +kernel | assumption | (unfold headStarts; decide +kernel) | (unfold forInstance; decide +kernel) | (unfold forReduction; decide +kernel) | rfl
  · repeat' apply And.intro
    all_goals first | decide +kernel | assumption | (unfold headStarts; decide +kernel) | (unfold forInstance; decide +kernel) | (unfold forReduction; decide +kernel) | rfl
  · repeat' apply And.intro
    all_goals first | decide +kernel | assumption | (unfold headStarts; decide +kernel) | (unfold forInstance; decide +kernel) | (unfold forReduction; decide +kernel) | rfl
  · repeat' apply And.intro
    all_goals first | decide +kernel | assumption | (unfold headStarts; decide +kernel) | (unfold forInstance; decide +kernel) | (unfold forReduction; decide +kernel) | rfl

theorem test_collectiveMessagesRun_has_cases :
(forInstance 2 0 (hdr 0 0) (wide 2) (grouped (wide 2)) ∧ [(5 : BitVec 64)].length = (wide 2).v ∧ 1 ∉ (wide 2).counts.map
    Prod.fst ∧ 2 ∈ (wide 2).members) ∧
(forInstance 2 0 (hdr 0 0) (running0 2) (grouped (running0 2)) ∧ 1 ∉ (running0 2).counts.map Prod.fst ∧ (∀ m ∈ (running0
    2).members, m ∈ ((running0 2).counts ++ [(1, [5])]).map Prod.fst) ∧ (∀ k < 1, countSum { running0 2 with counts :=
    (running0 2).counts ++ [(1, [5])] } k (fun _ => true) < 2 ^ 64)) ∧
(forInstance 3 0 (hdr 0 0) (wide 3) (grouped (wide 3)) ∧ [(5 : Word)].length = (wide 3).v ∧ 1 ∉ (wide 3).scalars.map Prod.fst
    ∧ 2 ∈ (wide 3).members) ∧
(forInstance 3 0 (hdr 0 0) (running0 3) (grouped (running0 3)) ∧ 1 ∉ (running0 3).scalars.map Prod.fst ∧ (∀ m ∈ (running0
    3).members, m ∈ ((running0 3).scalars ++ [(1, [(5 : Word)])]).map Prod.fst)) ∧
(∃ (s : State) (p : PortId) (h : CollHdr) (x : CollInst) (data : Bytes), forInstance 4 p h x s ∧ x.root ≠ ownMember s ∧
    h.sender.toNat = x.root ∧ h.arg.toNat < chunkCount x ∧ h.arg.toNat ∉ x.chunks ∧ data.length = chunkSize x h.arg.toNat ∧
    x.digest = none) ∧
(∃ (s : State) (p : PortId) (h : CollHdr) (x : CollInst) (n : Word), forInstance 4 p h x s ∧ x.root ≠ ownMember s ∧
    h.sender.toNat = x.root ∧ n.toNat = x.length ∧ x.digest = none ∧ missingChunks x ≠ [] ∧ roundsLeft s x = true) ∧
(∃ (s : State) (p : PortId) (h : CollHdr) (x : CollInst) (n : Word) (d : Bytes), forInstance 4 p h x s ∧ x.root ≠ ownMember s
    ∧ h.sender.toNat = x.root ∧ n.toNat = x.length ∧ x.digest = none ∧ missingChunks x = [] ∧ Config.shake256 (s.hdmBytes
    (collSlot s) x.dst x.length) 64 = d) ∧
(∃ (s : State) (p : PortId) (h : CollHdr) (x : CollInst), forInstance 4 p h x s ∧ x.root = ownMember s ∧ x.root ∈ x.arrived ∧
    2 ∈ x.members ∧ 2 ∉ insertNew x.arrived h.sender.toNat) ∧
(∃ (s : State) (p : PortId) (h : CollHdr) (x : CollInst), forInstance 5 p h x s ∧ 2 ∈ x.members ∧ 2 ∉ insertNew x.arrived
    h.sender.toNat) ∧
(∃ (s : State) (p : PortId) (h : CollHdr) (x : CollInst), forInstance 4 p h x s ∧ x.root = ownMember s ∧ x.root ∈ x.arrived ∧
    ∀ m ∈ x.members, m ∈ insertNew x.arrived h.sender.toNat) ∧
(∃ (s : State) (p : PortId) (h : CollHdr) (x : CollInst), forInstance 5 p h x s ∧ ∀ m ∈ x.members, m ∈ insertNew x.arrived
    h.sender.toNat) ∧
(∃ (s : State) (p : PortId) (h : CollHdr) (x : CollInst), forInstance 4 p h x s ∧ x.root = ownMember s ∧ h.arg.toNat <
    chunkCount x ∧ (∃ m ∈ x.members, m ≠ x.root ∧ m ∉ x.arrived) ∧ newRequest x h.sender.toNat h.arg.toNat p.val = true) ∧
(∃ (s : State) (p : PortId) (h : CollHdr) (x : CollInst), forInstance 4 p h x s ∧ x.root = ownMember s ∧ h.arg.toNat <
    chunkCount x ∧ (∃ m ∈ x.members, m ≠ x.root ∧ m ∉ x.arrived) ∧ newRequest x h.sender.toNat h.arg.toNat p.val = false) ∧
(∃ (s : State) (desc : BitVec 16) (x : CollInst), instOf s desc.toNat = some x ∧ x.kind = 4 ∧ x.root ≠ ownMember s ∧ x.aborts
    = [] ∧ x.digest ≠ none ∧ missingChunks x ≠ [] ∧ roundsLeft s x = true) ∧
(∃ (s : State) (p : PortId) (h : CollHdr) (x : CollInst) (v : List (BitVec 64)), portTakes s p = true ∧ h.chartTag = tagNow s
    ∧ instOf s h.descId.toNat = some x ∧ x.seq = h.seq.toNat ∧ x.aborts = [] ∧ x.kind ≠ 2) := by
  refine ⟨?_, ?_, ?_, ?_, ?_, ?_, ?_, ?_, ?_, ?_, ?_, ?_, ?_, ?_, ?_⟩
  · repeat' apply And.intro
    all_goals first | decide +kernel | assumption | (unfold headStarts; decide +kernel) | (unfold forInstance; decide +kernel) | (unfold forReduction; decide +kernel) | rfl
  · repeat' apply And.intro
    all_goals first | decide +kernel | assumption | (unfold headStarts; decide +kernel) | (unfold forInstance; decide +kernel) | (unfold forReduction; decide +kernel) | rfl
  · repeat' apply And.intro
    all_goals first | decide +kernel | assumption | (unfold headStarts; decide +kernel) | (unfold forInstance; decide +kernel) | (unfold forReduction; decide +kernel) | rfl
  · repeat' apply And.intro
    all_goals first | decide +kernel | assumption | (unfold headStarts; decide +kernel) | (unfold forInstance; decide +kernel) | (unfold forReduction; decide +kernel) | rfl
  · refine ⟨grouped (running0 4), 0, hdr 0 0, running0 4, [7], ?_⟩; repeat' apply And.intro
    all_goals first | decide +kernel | assumption | (unfold headStarts; decide +kernel) | (unfold servedNow; decide +kernel) | rfl
  · refine ⟨grouped (running0 4), 0, hdr 0 0, running0 4, 1, ?_⟩; repeat' apply And.intro
    all_goals first | decide +kernel | assumption | (unfold headStarts; decide +kernel) | (unfold forInstance; decide +kernel) | (unfold forReduction; decide +kernel) | rfl
  · refine ⟨grouped { running0 4 with chunks := [0] }, 0, hdr 0 0, { running0 4 with chunks := [0] }, 1, Config.shake256 [0] 64, ?_⟩; repeat' apply And.intro
    all_goals first | decide +kernel | assumption | (unfold headStarts; decide +kernel) | (unfold forInstance; decide +kernel) | (unfold forReduction; decide +kernel) | rfl
  · refine ⟨grouped { wide 4 with root := 0 }, 0, hdr 0 0, { wide 4 with root := 0 }, ?_⟩; repeat' apply And.intro
    all_goals first | decide +kernel | assumption | (unfold headStarts; decide +kernel) | (unfold forInstance; decide +kernel) | (unfold forReduction; decide +kernel) | rfl
  · refine ⟨grouped (wide 5), 0, hdr 0 0, wide 5, ?_⟩; repeat' apply And.intro
    all_goals first | decide +kernel | assumption | (unfold headStarts; decide +kernel) | (unfold forInstance; decide +kernel) | (unfold forReduction; decide +kernel) | rfl
  · refine ⟨grouped { running0 4 with root := 0 }, 0, hdr 0 0, { running0 4 with root := 0 }, ?_⟩; repeat' apply And.intro
    all_goals first | decide +kernel | assumption | (unfold headStarts; decide +kernel) | (unfold forInstance; decide +kernel) | (unfold forReduction; decide +kernel) | rfl
  · refine ⟨grouped (running0 5), 0, hdr 0 0, running0 5, ?_⟩; repeat' apply And.intro
    all_goals first | decide +kernel | assumption | (unfold headStarts; decide +kernel) | (unfold forInstance; decide +kernel) | (unfold forReduction; decide +kernel) | rfl
  · refine ⟨grouped { running0 4 with root := 0, arrived := [0], reqs := [] }, 0, hdr 0 0, { running0 4 with root := 0, arrived := [0], reqs := [] }, ?_, ?_, ?_, ⟨1, ?_, ?_, ?_⟩, ?_⟩
    all_goals first | decide +kernel | assumption | (unfold headStarts; decide +kernel) | (unfold forInstance; decide +kernel) | (unfold forReduction; decide +kernel) | rfl
  · refine ⟨grouped { running0 4 with root := 0, arrived := [0], reqs := [(1, 0, 1)] }, 0, hdr 0 0, { running0 4 with root := 0, arrived := [0], reqs := [(1, 0, 1)] }, ?_, ?_, ?_, ⟨1, ?_, ?_, ?_⟩, ?_⟩
    all_goals first | decide +kernel | assumption | (unfold headStarts; decide +kernel) | (unfold forInstance; decide +kernel) | (unfold forReduction; decide +kernel) | rfl
  · refine ⟨grouped { running0 4 with digest := some [] }, 0, { running0 4 with digest := some [] }, ?_⟩; repeat' apply And.intro
    all_goals first | decide +kernel | assumption | (unfold headStarts; decide +kernel) | (unfold servedNow; decide +kernel) | rfl
  · refine ⟨grouped (running0 3), 0, hdr 0 0, running0 3, [1], ?_⟩; repeat' apply And.intro
    all_goals first | decide +kernel | assumption | (unfold headStarts; decide +kernel) | (unfold servedNow; decide +kernel) | rfl

theorem test_collectiveAbortsRun_has_cases :
(∃ (s : State) (desc : BitVec 16) (x : CollInst), instOf s desc.toNat = some x ∧ x.aborts = []) ∧
(∃ (s : State) (p : PortId) (w : Codeword) (a : AbortSym) (x : CollInst), portTakes s p = true ∧ holder s ≠ none ∧ abortOf w =
    some a ∧ a.chartTag = tagNow s ∧ instOf s a.descId.toNat = some x ∧ x.seq = a.seq.toNat) ∧
(∃ (s : State) (p : PortId) (w : Codeword), portTakes s p = true ∧ abortOf w = none) ∧
(∃ (s : State) (desc : BitVec 16) (x : CollInst), instOf s desc.toNat = some x ∧ x.aborts ≠ []) := by
  refine ⟨?_, ?_, ?_, ?_⟩
  · refine ⟨grouped (running0 5), 0, running0 5, ?_⟩; repeat' apply And.intro
    all_goals first | decide +kernel | assumption | (unfold headStarts; decide +kernel) | (unfold servedNow; decide +kernel) | rfl
  · refine ⟨grouped (running0 5), 0, abortWord, ⟨0x0701, 1, 0, 1, 0⟩, running0 5, ?_⟩; repeat' apply And.intro
    all_goals first | decide +kernel | assumption | (unfold headStarts; decide +kernel) | (unfold servedNow; decide +kernel) | rfl
  · refine ⟨live, 15, 0, ?_⟩; repeat' apply And.intro
    all_goals first | decide +kernel | assumption | (unfold headStarts; decide +kernel) | (unfold servedNow; decide +kernel) | rfl
  · refine ⟨grouped { running0 5 with aborts := [(1, 0x0702)] }, 0, { running0 5 with aborts := [(1, 0x0702)] }, ?_⟩; repeat' apply And.intro
    all_goals first | decide +kernel | assumption | (unfold headStarts; decide +kernel) | (unfold servedNow; decide +kernel) | rfl

theorem test_reductionsStart_has_cases :
(headStarts 0x30 0 0 (commanding 0x30 9 (reduceBody 1) true) (ready 0x30 (reduceBody 1)) ∧ reduceBad (startOf (commanding 0x30
    9 (reduceBody 1) true) 0x30 (reduceBody 1)) 0 (parseColl (ready 0x30 (reduceBody 1)).entry.body) (parseReduce (ready 0x30
    (reduceBody 1)).entry.body) = true) ∧
(headStarts 0x30 0 0 (commanding 0x30 1 (reduceBody 0) true) (ready 0x30 (reduceBody 0)) ∧ reduceBad (startOf (commanding 0x30
    1 (reduceBody 0) true) 0x30 (reduceBody 0)) 0 (parseColl (ready 0x30 (reduceBody 0)).entry.body) (parseReduce (ready 0x30
    (reduceBody 0)).entry.body) = false ∧ (parseReduce (ready 0x30 (reduceBody 0)).entry.body).planeMask = 0 ∧ passIs
    (commanding 0x30 1 (reduceBody 0) true) 1 = false) ∧
(headStarts 0x30 0 0 (commanding 0x30 1 (reduceBody 1) true) (ready 0x30 (reduceBody 1)) ∧ reduceBad (startOf (commanding 0x30
    1 (reduceBody 1) true) 0x30 (reduceBody 1)) 0 (parseColl (ready 0x30 (reduceBody 1)).entry.body) (parseReduce (ready 0x30
    (reduceBody 1)).entry.body) = false ∧ (parseReduce (ready 0x30 (reduceBody 1)).entry.body).planeMask ≠ 0 ∧ ((commanding
    0x30 1 (reduceBody 1) true)).coll.held = [] ∧ redOf (commanding 0x30 1 (reduceBody 1) true) 0 = none) ∧
(∃ (s : State) (p : PortId) (h : CollHdr) (r : Reduction) (a : Nat × PlaneAnswer × Nat), forReduction p h.descId.toNat h.seq
    h.chartTag r s ∧ (r.answers.find? fun a => a.1 == p.val && decide (a.2.1 = .waiting)) = some a ∧ h.sub = 1) ∧
(∃ (s : State) (p : PortId) (h : CollHdr) (r : Reduction) (a : Nat × PlaneAnswer × Nat), forReduction p h.descId.toNat h.seq
    h.chartTag r s ∧ (r.answers.find? fun a => a.1 == p.val && decide (a.2.1 = .waiting)) = some a ∧ h.sub = 3) ∧
(∃ (s : State) (p : PortId) (r : Reduction) (a : Nat × PlaneAnswer × Nat), (s.coll.reds.find? fun r => r.aborts.isEmpty &&
    r.answers.any fun a => a.1 == p.val && decide (a.2.1 = .waiting)) = some r ∧ redOf s r.descId = some r ∧ (r.answers.find?
    fun a => a.1 == p.val && decide (a.2.1 = .waiting)) = some a ∧ a.2.2 < (descOf s r.descId).retryLimit) ∧
(∃ (s : State) (p : PortId) (r : Reduction) (a : Nat × PlaneAnswer × Nat), (s.coll.reds.find? fun r => r.aborts.isEmpty &&
    r.answers.any fun a => a.1 == p.val && decide (a.2.1 = .waiting)) = some r ∧ redOf s r.descId = some r ∧ (r.answers.find?
    fun a => a.1 == p.val && decide (a.2.1 = .waiting)) = some a ∧ (descOf s r.descId).retryLimit ≤ a.2.2) ∧
(∃ (s : State) (r : Reduction), s.coll.reds.find? (reduceDone s (collSlot s)) = some r) := by
  refine ⟨?_, ?_, ?_, ?_, ?_, ?_, ?_, ?_⟩
  · repeat' apply And.intro
    all_goals first | decide +kernel | assumption | (unfold headStarts; decide +kernel) | (unfold forInstance; decide +kernel) | (unfold forReduction; decide +kernel) | rfl
  · repeat' apply And.intro
    all_goals first | decide +kernel | assumption | (unfold headStarts; decide +kernel) | (unfold forInstance; decide +kernel) | (unfold forReduction; decide +kernel) | rfl
  · repeat' apply And.intro
    all_goals first | decide +kernel | assumption | (unfold headStarts; decide +kernel) | (unfold forInstance; decide +kernel) | (unfold forReduction; decide +kernel) | rfl
  · refine ⟨reducing red, 0, hdr 1 0, red, (0, .waiting, 0), ?_⟩; repeat' apply And.intro
    all_goals first | decide +kernel | assumption | (unfold headStarts; decide +kernel) | (unfold forInstance; decide +kernel) | (unfold forReduction; decide +kernel) | rfl
  · refine ⟨reducing red, 0, hdr 3 0, red, (0, .waiting, 0), ?_⟩; repeat' apply And.intro
    all_goals first | decide +kernel | assumption | (unfold headStarts; decide +kernel) | (unfold forInstance; decide +kernel) | (unfold forReduction; decide +kernel) | rfl
  · refine ⟨reducing { red with answers := [(0, .waiting, 2)] }, 0, { red with answers := [(0, .waiting, 2)] }, (0, .waiting, 2), ?_⟩; repeat' apply And.intro
    all_goals first | decide +kernel | assumption | (unfold headStarts; decide +kernel) | (unfold forInstance; decide +kernel) | (unfold forReduction; decide +kernel) | rfl
  · refine ⟨reducing { red with answers := [(0, .waiting, 3)] }, 0, { red with answers := [(0, .waiting, 3)] }, (0, .waiting, 3), ?_⟩; repeat' apply And.intro
    all_goals first | decide +kernel | assumption | (unfold headStarts; decide +kernel) | (unfold forInstance; decide +kernel) | (unfold forReduction; decide +kernel) | rfl
  · refine ⟨reducing { red with owned := [] }, { red with owned := [] }, ?_⟩; repeat' apply And.intro
    all_goals first | decide +kernel | assumption | (unfold headStarts; decide +kernel) | (unfold servedNow; decide +kernel) | rfl

theorem test_reductionResultsRun_has_cases :
(∃ (s : State) (p : PortId) (x : ResultMsg) (r : Reduction) (o : OwnedBlock), portTakes s p = true ∧ liveRed s x.descId.toNat
    x.step = some r ∧ redOf s r.descId = some r ∧ ownedOf r x.g.toNat = some o ∧ o.reserved = true ∧ o.settled = false ∧
    x.kind = 0x11) ∧
(∃ (s : State) (p : PortId) (x : ResultMsg) (r : Reduction) (o : OwnedBlock), portTakes s p = true ∧ liveRed s x.descId.toNat
    x.step = some r ∧ redOf s r.descId = some r ∧ ownedOf r x.g.toNat = some o ∧ o.reserved = true ∧ o.settled = false ∧
    x.kind = 0x10 ∧ checksum (x.sums.map fun w => w.toInt) ≠ x.checksum.toNat ∧ o.tries < (descOf s r.descId).retryLimit) ∧
(∃ (s : State) (p : PortId) (x : ResultMsg) (r : Reduction) (o : OwnedBlock), portTakes s p = true ∧ liveRed s x.descId.toNat
    x.step = some r ∧ redOf s r.descId = some r ∧ ownedOf r x.g.toNat = some o ∧ o.reserved = true ∧ o.settled = false ∧
    x.kind = 0x10 ∧ checksum (x.sums.map fun w => w.toInt) = x.checksum.toNat ∧ masksOn s r = false) ∧
(∃ (s : State) (p : PortId) (b : BlockRef) (r : Reduction) (o : OwnedBlock), portTakes s p = true ∧ liveStep s b.step = some r
    ∧ redOf s r.descId = some r ∧ ownedOf r b.g.toNat = some o ∧ o.reserved = true ∧ o.settled = false ∧ o.tries < (descOf s
    r.descId).retryLimit) ∧
(∃ (s : State) (g : Nat) (r : Reduction) (o : OwnedBlock), (s.coll.reds.find? fun r => r.aborts.isEmpty && r.owned.any fun o
    => o.g == g && o.reserved && !o.settled) = some r ∧ redOf s r.descId = some r ∧ ownedOf r g = some o ∧ o.tries < (descOf s
    r.descId).retryLimit) ∧
(∃ (s : State) (g : Nat) (r : Reduction) (o : OwnedBlock), (s.coll.reds.find? fun r => r.aborts.isEmpty && r.owned.any fun o
    => o.g == g && o.reserved && !o.settled) = some r ∧ redOf s r.descId = some r ∧ ownedOf r g = some o ∧ (descOf s
    r.descId).retryLimit ≤ o.tries ∧ o.badSum = true) ∧
(∃ (s : State) (p : PortId) (n : ScaleNotice) (i : Slot) (y : Site) (m : Manifest), portTakes s p = true ∧ n.count.toNat ≤ 16
    ∧ holder s = some i ∧ gradSite s i = some (y, m)) ∧
(∃ (s : State) (p : PortId) (c : Contribution) (i : Slot) (y : Site) (m : Manifest) (b : WireBlock), portTakes s p = true ∧
    c.flags.getLsbD 7 = true ∧ c.member.toNat = ownMember s ∧ holder s = some i ∧ gradSite s i = some (y, m) ∧ wireBlock
    y.chart m c.g.toNat = some b ∧ c.kind.toNat < 4 ∧ c.step.toNat < (find? s.coll.lastEncode b.g).getD 0) ∧
(∃ (s : State) (p : PortId) (c : Contribution) (i : Slot) (y : Site) (m : Manifest) (b : WireBlock), portTakes s p = true ∧
    c.flags.getLsbD 7 = true ∧ c.member.toNat = ownMember s ∧ holder s = some i ∧ gradSite s i = some (y, m) ∧ wireBlock
    y.chart m c.g.toNat = some b ∧ c.kind.toNat < 4 ∧ (find? s.coll.lastEncode b.g).getD 0 ≤ c.step.toNat ∧ layerErr y.chart
    b.layer ≠ .absent) := by
  refine ⟨?_, ?_, ?_, ?_, ?_, ?_, ?_, ?_, ?_⟩
  · refine ⟨reducing red, 0, result 0x11 0, red, ⟨0, 0, true, 0, false, false, none, none⟩, ?_⟩; repeat' apply And.intro
    all_goals first | decide +kernel | assumption | (unfold headStarts; decide +kernel) | (unfold forInstance; decide +kernel) | (unfold forReduction; decide +kernel) | rfl
  · refine ⟨reducing red, 0, result 0x10 0, red, ⟨0, 0, true, 0, false, false, none, none⟩, ?_⟩; repeat' apply And.intro
    all_goals first | decide +kernel | assumption | (unfold headStarts; decide +kernel) | (unfold forInstance; decide +kernel) | (unfold forReduction; decide +kernel) | rfl
  · refine ⟨reducing red, 0, result 0x10 1, red, ⟨0, 0, true, 0, false, false, none, none⟩, ?_⟩; repeat' apply And.intro
    all_goals first | decide +kernel | assumption | (unfold headStarts; decide +kernel) | (unfold forInstance; decide +kernel) | (unfold forReduction; decide +kernel) | rfl
  · refine ⟨reducing red, 0, ⟨1, 0, 1⟩, red, ⟨0, 0, true, 0, false, false, none, none⟩, ?_⟩; repeat' apply And.intro
    all_goals first | decide +kernel | assumption | (unfold headStarts; decide +kernel) | (unfold servedNow; decide +kernel) | rfl
  · refine ⟨reducing red, 0, red, ⟨0, 0, true, 0, false, false, none, none⟩, ?_⟩; repeat' apply And.intro
    all_goals first | decide +kernel | assumption | (unfold headStarts; decide +kernel) | (unfold forInstance; decide +kernel) | (unfold forReduction; decide +kernel) | rfl
  · refine ⟨reducing { red with owned := [⟨0, 0, true, 3, true, false, none, none⟩] }, 0, { red with owned := [⟨0, 0, true, 3, true, false, none, none⟩] }, ⟨0, 0, true, 3, true, false, none, none⟩, ?_⟩; repeat' apply And.intro
    all_goals first | decide +kernel | assumption | (unfold headStarts; decide +kernel) | (unfold forInstance; decide +kernel) | (unfold forReduction; decide +kernel) | rfl
  · refine ⟨withModelOf weightChart (model (fetch streamed [] [])), 0, ⟨1, 0, 16, []⟩, 0, ⟨0, weightChart, inst none, fun _ => 0⟩, streamed, ?_⟩; repeat' apply And.intro
    all_goals first | decide +kernel | assumption | (unfold headStarts; decide +kernel) | (unfold servedNow; decide +kernel) | rfl
  · refine ⟨{ withModelOf weightChart (model (fetch streamed [] [])) with coll := { live.coll with lastEncode := [(0, 2)] } }, 0, contribution, 0, ⟨0, weightChart, inst none, fun _ => 0⟩, streamed, (wireBlock weightChart streamed 0).get (by decide +kernel), ?_⟩; repeat' apply And.intro
    all_goals first | decide +kernel | exact (Option.some_get _).symm | exact err_memory | rfl
  · refine ⟨withModelOf errChart (model (fetch streamed [] [])), 0, contribution, 0, ⟨0, errChart, inst none, fun _ => 0⟩, streamed, (wireBlock errChart streamed 0).get (by decide +kernel), ?_⟩; repeat' apply And.intro
    all_goals first | decide +kernel | exact (Option.some_get _).symm | exact err_memory | rfl

theorem test_ringsRun_has_cases :
(∃ (s : State) (p : PortId) (x : ResultMsg) (sender : BitVec 16) (tag : BitVec 32) (r : Reduction), forReduction p
    x.descId.toNat x.step tag r s ∧ x.g.toNat ∉ r.ringCancelled ∧ x.g.toNat ∉ r.ringTaken ∧ find? r.ringWait x.g.toNat = none
    ∧ x.g.toNat ∉ r.withheld ∧ x.g.toNat ∉ r.ringLate ∧ x.g.toNat ∉ r.sent) ∧
(∃ (s : State) (p : PortId) (h : CollHdr) (r : Reduction) (x : RingHop), forReduction p h.descId.toNat h.seq h.chartTag r s ∧
    hopOf r h.arg.toNat = some x ∧ fromTarget s x h = true) ∧
(∃ (s : State) (p : PortId) (h : CollHdr) (r : Reduction) (x : RingHop), forReduction p h.descId.toNat h.seq h.chartTag r s ∧
    hopOf r h.arg.toNat = some x ∧ fromTarget s x h = true ∧ x.cancelSent = true ∧ x.msg.g.toNat = x.g ∧ x.position + 1 <
    groupSizeOf s) ∧
(∃ (s : State) (p : PortId) (h : CollHdr) (r : Reduction), forReduction p h.descId.toNat h.seq h.chartTag r s ∧ h.arg.toNat ∉
    r.ringTaken ∧ find? r.ringWait h.arg.toNat = none) ∧
(∃ (s : State) (p : PortId) (h : CollHdr) (r : Reduction), forReduction p h.descId.toNat h.seq h.chartTag r s ∧ h.arg.toNat ∈
    r.ringTaken) ∧
(∃ (s : State) (g : Nat) (r : Reduction) (x : RingHop), (s.coll.reds.find? fun r => r.aborts.isEmpty && (hopOf r g).isSome) =
    some r ∧ redOf s r.descId = some r ∧ hopOf r g = some x ∧ x.cancelSent = false) ∧
(∃ (s : State) (g : Nat) (r : Reduction) (x : ResultMsg), (s.coll.reds.find? fun r => r.aborts.isEmpty && (find? r.ringHeld
    g).isSome) = some r ∧ redOf s r.descId = some r ∧ find? r.ringHeld g = some x ∧ ringPos (groupSizeOf s) x.g.toNat
    (ownMember s) + 1 < groupSizeOf s) ∧
(∃ (s : State) (g : Nat) (r : Reduction) (c : Contribution), (s.coll.reds.find? fun r => r.aborts.isEmpty && (find? r.ringWait
    g).isSome) = some r ∧ redOf s r.descId = some r ∧ find? r.ringWait g = some c) ∧
(∃ (s : State) (p : PortId) (b : BlockRef) (x : ResultMsg), portTakes s p = true ∧ keptOf s b.step b.g.toNat = some x) := by
  refine ⟨?_, ?_, ?_, ?_, ?_, ?_, ?_, ?_, ?_⟩
  · refine ⟨reducing red, 0, result 0x40 0, 1, 0, red, ?_⟩; repeat' apply And.intro
    all_goals first | decide +kernel | assumption | (unfold headStarts; decide +kernel) | (unfold servedNow; decide +kernel) | rfl
  · refine ⟨reducing { red with ringHops := [⟨0, 1, false, result 0x40 0⟩] }, 0, hdr 0 0, { red with ringHops := [⟨0, 1, false, result 0x40 0⟩] }, ⟨0, 1, false, result 0x40 0⟩, ?_⟩; repeat' apply And.intro
    all_goals first | decide +kernel | assumption | (unfold headStarts; decide +kernel) | (unfold forInstance; decide +kernel) | (unfold forReduction; decide +kernel) | rfl
  · refine ⟨reducing { red with ringHops := [⟨0, 0, true, result 0x40 0⟩] }, 0, { hdr 0 0 with sender := 0 }, { red with ringHops := [⟨0, 0, true, result 0x40 0⟩] }, ⟨0, 0, true, result 0x40 0⟩, ?_⟩; repeat' apply And.intro
    all_goals first | decide +kernel | assumption | (unfold headStarts; decide +kernel) | (unfold forInstance; decide +kernel) | (unfold forReduction; decide +kernel) | rfl
  · refine ⟨reducing red, 0, hdr 0 0, red, ?_⟩; repeat' apply And.intro
    all_goals first | decide +kernel | assumption | (unfold headStarts; decide +kernel) | (unfold forInstance; decide +kernel) | (unfold forReduction; decide +kernel) | rfl
  · refine ⟨reducing { red with ringTaken := [0] }, 0, hdr 0 0, { red with ringTaken := [0] }, ?_⟩; repeat' apply And.intro
    all_goals first | decide +kernel | assumption | (unfold headStarts; decide +kernel) | (unfold forInstance; decide +kernel) | (unfold forReduction; decide +kernel) | rfl
  · refine ⟨reducing { red with ringHops := [⟨0, 1, false, result 0x40 0⟩] }, 0, { red with ringHops := [⟨0, 1, false, result 0x40 0⟩] }, ⟨0, 1, false, result 0x40 0⟩, ?_⟩; repeat' apply And.intro
    all_goals first | decide +kernel | assumption | (unfold headStarts; decide +kernel) | (unfold servedNow; decide +kernel) | rfl
  · refine ⟨reducing { red with ringHeld := [(0, result 0x40 0)] }, 0, { red with ringHeld := [(0, result 0x40 0)] }, result 0x40 0, ?_⟩; repeat' apply And.intro
    all_goals first | decide +kernel | assumption | (unfold headStarts; decide +kernel) | (unfold servedNow; decide +kernel) | rfl
  · refine ⟨reducing { red with ringWait := [(0, contribution)] }, 0, { red with ringWait := [(0, contribution)] }, contribution, ?_⟩; repeat' apply And.intro
    all_goals first | decide +kernel | assumption | (unfold headStarts; decide +kernel) | (unfold servedNow; decide +kernel) | rfl
  · refine ⟨{ reducing red with coll := { (reducing red).coll with kept := [(1, 0, result 0x40 0)] } }, 0, ⟨1, 0, 0⟩, result 0x40 0, ?_⟩; repeat' apply And.intro
    all_goals first | decide +kernel | assumption | (unfold headStarts; decide +kernel) | (unfold forInstance; decide +kernel) | (unfold forReduction; decide +kernel) | rfl

theorem test_idleStepTicks_has_cases :
(∃ s : State, s.pending = [] ∧ s.start.houseUp = false) ∧
(∃ s : State, s.pending = [] ∧ s.start.houseUp = true ∧ s.sec.waiting = none ∧ s.sec.mgmtWaiting = []) ∧
(∃ (s : State) (op : Nat) (i : Slot) (req : Bytes), s.pending = [] ∧ s.start.houseUp = true ∧ s.sec.waiting = some (op, i,
    req) ∧ s.sec.handOver ≠ none) ∧
(∃ (s : State) (op : Nat) (i : Slot) (req : Bytes), s.pending = [] ∧ s.start.houseUp = true ∧ s.sec.waiting = some (op, i,
    req) ∧ s.sec.handOver = none ∧ bar0Up s = true ∧ backgroundOn s = false) ∧
(∃ (s : State) (r : MgmtReq), ∃ x ∈ mgmtRows r, s.pending = [] ∧ s.start.houseUp = true ∧ s.sec.waiting = none ∧
    s.sec.handOver = none ∧ backgroundOn s = false ∧ s.sec.mgmtWaiting = [(x.1, r)]) ∧
(∃ s : State, backgroundOn s = false ∧ inCurtain s = false) ∧
(∃ s : State, inCurtain s = true) ∧
(∃ s : State, backgroundOn s = true) ∧
(∃ (s : State) (k : BgTask) (since : Nat) (said : Bool), s.selfTest.work.find? (fun x => x.1 == k) = some (k, since, said) ∧
    said = false ∧ 11 * periodOf k < 10 * (s.selfTest.workTicks - since)) ∧
(∃ (s : State) (k : BgTask) (since : Nat) (said : Bool), s.selfTest.work.find? (fun x => x.1 == k) = some (k, since, said) ∧
    said = false ∧ 10 * (s.selfTest.workTicks - since) ≤ 11 * periodOf k) ∧
(∃ (s : State) (k : BgTask) (since : Nat) (said : Bool), s.selfTest.work.find? (fun x => x.1 == k) = some (k, since, said) ∧
    said = true) := by
  refine ⟨?_, ?_, ?_, ?_, ?_, ?_, ?_, ?_, ?_, ?_, ?_⟩
  · refine ⟨{ State.reset with start := { Startup.reset with houseUp := false } }, ?_⟩; repeat' apply And.intro
    all_goals first | decide +kernel | assumption | (unfold headStarts; decide +kernel) | (unfold forInstance; decide +kernel) | (unfold forReduction; decide +kernel) | rfl
  · refine ⟨State.reset, ?_⟩; repeat' apply And.intro
    all_goals first | decide +kernel | assumption | (unfold headStarts; decide +kernel) | (unfold forInstance; decide +kernel) | (unfold forReduction; decide +kernel) | rfl
  · refine ⟨{ live with sec := { curtained.sec with waiting := some (1, 7, []) } }, 1, 7, [], ?_⟩; repeat' apply And.intro
    all_goals first | decide +kernel | assumption | (unfold headStarts; decide +kernel) | (unfold forInstance; decide +kernel) | (unfold forReduction; decide +kernel) | rfl
  · refine ⟨{ booting 5 with sec := { live.sec with waiting := some (1, 7, []) } }, 1, 7, [], ?_⟩; repeat' apply And.intro
    all_goals first | decide +kernel | assumption | (unfold headStarts; decide +kernel) | (unfold forInstance; decide +kernel) | (unfold forReduction; decide +kernel) | rfl
  · exact ⟨{ booting 5 with sec := { live.sec with mgmtWaiting := [(0x0001, req [])] } }, req [], (0x0001, .getTelemetry (req [])), List.mem_cons_self .., by decide +kernel, by decide +kernel, by decide +kernel, by decide +kernel, by decide +kernel, rfl⟩
  · refine ⟨State.reset, ?_⟩; repeat' apply And.intro
    all_goals first | decide +kernel | assumption | (unfold headStarts; decide +kernel) | (unfold forInstance; decide +kernel) | (unfold forReduction; decide +kernel) | rfl
  · refine ⟨curtained, ?_⟩; repeat' apply And.intro
    all_goals first | decide +kernel | assumption | (unfold headStarts; decide +kernel) | (unfold forInstance; decide +kernel) | (unfold forReduction; decide +kernel) | rfl
  · refine ⟨live, ?_⟩; repeat' apply And.intro
    all_goals first | decide +kernel | assumption | (unfold headStarts; decide +kernel) | (unfold forInstance; decide +kernel) | (unfold forReduction; decide +kernel) | rfl
  · refine ⟨{ live with selfTest := { live.selfTest with work := [(.sramScrub, 0, false)], workTicks := 2 * periodOf .sramScrub } }, .sramScrub, 0, false, ?_⟩; repeat' apply And.intro
    all_goals first | decide +kernel | assumption | (unfold headStarts; decide +kernel) | (unfold forInstance; decide +kernel) | (unfold forReduction; decide +kernel) | rfl
  · refine ⟨{ live with selfTest := { live.selfTest with work := [(.sramScrub, 0, false)], workTicks := periodOf .sramScrub } }, .sramScrub, 0, false, ?_⟩; repeat' apply And.intro
    all_goals first | decide +kernel | assumption | (unfold headStarts; decide +kernel) | (unfold forInstance; decide +kernel) | (unfold forReduction; decide +kernel) | rfl
  · refine ⟨{ live with selfTest := { live.selfTest with work := [(.sramScrub, 0, true)], workTicks := 0 } }, .sramScrub, 0, true, ?_⟩; repeat' apply And.intro
    all_goals first | decide +kernel | assumption | (unfold headStarts; decide +kernel) | (unfold forInstance; decide +kernel) | (unfold forReduction; decide +kernel) | rfl

theorem test_stepKeepsMemoryForm_has_cases :
∃ s t : State, Memory.wf s.mem ∧ step s = .next t := by
  refine ⟨opened, houseTick opened, ?_⟩; repeat' apply And.intro
  all_goals first | decide +kernel | assumption | (unfold headStarts; decide +kernel) | (unfold forInstance; decide +kernel) | (unfold forReduction; decide +kernel) | rfl

theorem test_stepKeepsOneHolder_has_cases :
∃ s t : State, holdersSound s ∧ step s = .next t := ⟨holding, houseTick holding, holding_sound, rfl⟩

theorem test_stepKeepsBounds_has_cases :
∃ s t : State, step s = .next t ∧ s.start.phase.toNat ≤ 8 ∧ s.nv.tokens ≤ 6 ∧ s.log.records.length ≤ 4096 ∧
    s.selfTest.running.length ≤ 16 ∧ canon Tile.reset s.tiles = true := by
  refine ⟨live, houseTick live, ?_⟩; repeat' apply And.intro
  all_goals first | decide +kernel | assumption | (unfold headStarts; decide +kernel) | (unfold forInstance; decide +kernel) | (unfold forReduction; decide +kernel) | rfl

theorem test_otherSlotsKept_has_cases :
∃ (i j : Slot) (s t : State), j ≠ i ∧ exec (.cqEnable i) s = .next t := ⟨0, 7, opened, _, by decide, rfl⟩

theorem test_eventReadsAreOneRecord_has_cases :
(∃ (s : State) (i : BitVec 12), barWritable s = true) ∧
(∃ (s : State) (w : Word), barWritable s = true) := by
  refine ⟨?_, ?_⟩
  · refine ⟨live, 4095, ?_⟩; repeat' apply And.intro
    all_goals first | decide +kernel | assumption | (unfold headStarts; decide +kernel) | (unfold servedNow; decide +kernel) | rfl
  · refine ⟨live, 1, ?_⟩; repeat' apply And.intro
    all_goals first | decide +kernel | assumption | (unfold headStarts; decide +kernel) | (unfold servedNow; decide +kernel) | rfl

theorem test_storeRequestsJoin_has_cases :
∃ (s : State), nvBlocked s = false ∧ (0 < s.nv.tokens ∨ s.nv.storeWaiting = true) := by
  refine ⟨live, ?_⟩; repeat' apply And.intro
  all_goals first | decide +kernel | assumption | (unfold headStarts; decide +kernel) | (unfold servedNow; decide +kernel) | rfl

theorem test_capInForceFollowsRules_has_cases :
(∃ (s : State) (x : TrayRegs), 3 ≤ s.start.phase.toNat ∧ s.start.phase ≠ 7) ∧
(∃ s : State, s.start.resetLow = true ∧ s.start.houseUp = true) ∧
(∀ (sig : Bytes), Config.mldsaVerify [1] (signedBytes 0x0010 (req ([0x70, 0x17, 1, 0]))) sig = true → ∃ (s : State) (r :
    MgmtReq), accepted 0x0010 .operator r s ∧ sized (newerApi r) 4 r.body = true ∧ clearBits (newerApi r) (byteAt r.body 2)
    0xFE = true ∧ clear (newerApi r) r.body 3 1 = true ∧ 6000 ≤ leAt r.body 0 2 ∧ leAt r.body 0 2 ≤ 23000) ∧
(∃ s : State, s.power.leaseLive = true) := by
  refine ⟨?_, ?_, ?_, ?_⟩
  · refine ⟨booting 3, ⟨0x100, 0, 7, 0, 0, 0, 0⟩, ?_⟩; repeat' apply And.intro
    all_goals first | decide +kernel | assumption | (unfold headStarts; decide +kernel) | (unfold servedNow; decide +kernel) | rfl
  · refine ⟨State.reset, ?_⟩; repeat' apply And.intro
    all_goals first | decide +kernel | assumption | (unfold headStarts; decide +kernel) | (unfold servedNow; decide +kernel) | rfl
  · intro sig h; refine ⟨console, asked ([0x70, 0x17, 1, 0]) sig, ?_⟩; refine ⟨accepted_of (by decide +kernel) (by decide +kernel) rfl rfl rfl h, ?_⟩; (repeat' apply And.intro); all_goals first | decide +kernel | (rw [asked_body]; decide +kernel) | (rw [asked_newer, asked_body]; decide +kernel) | assumption | (simp only [asked_body, List.length_cons, List.length_replicate]; done) | (simp only [asked_body]; decide +kernel) | rfl
  · refine ⟨{ live with power := { live.power with leaseLive := true } }, ?_⟩; repeat' apply And.intro
    all_goals first | decide +kernel | assumption | (unfold headStarts; decide +kernel) | (unfold servedNow; decide +kernel) | rfl

theorem test_conversionsFollowTable_has_cases :
∃ (f : FFmt) (v : Nat), f ∈ [e4m3, e5m2, e2m3, e3m2, e2m1, bf16, fp16, fp32, fp64] ∧ v < 2 ^ (1 + f.expBits + f.frac) ∧
    (decodeF f v).finite = true := ⟨e2m1, 15, by simp, by decide +kernel, by decide +kernel⟩

theorem test_ownEffectsComplete_has_cases :
(∃ s : State, s.thermal.flowClamp = true ∧ flowAtLeast s 55 = true ∧ supplyTemp s ≤ 4500) ∧
(∃ s : State, s.thermal.suddenStop = true ∧ s.thermal.halting = false ∧ flowAtLeast s 50 = true) ∧
(∃ s : State, s.thermal.suddenStop = true ∧ s.thermal.halting = false) ∧
(∃ s : State, s.thermal.halting = true ∧ s.thermal.halted = false) ∧
(∃ s : State, s.thermal.halted = true ∧ flowAtLeast s 95 = true) ∧
(∃ s : State, flowAtLeast s 25 = false ∧ s.thermal.thermTrip = false) ∧
(∃ s : State, s.thermal.thermTrip = false) ∧
(∃ (s : State) (w : Nat), s.thermal.stale = false ∧ s.thermal.tray.status.getLsbD 0 = true ∧ s.thermal.tray.status.getLsbD 1 =
    true ∧ s.thermal.tray.status.getLsbD 2 = true ∧ heatUnbalanced s w = true) ∧
(∀ (b : Bytes), Config.gcmOpen [] (flitNonce HopKey.reset (nearCounter 0 (bits 0 20 0))) (toLe 8 0) (flitBody zeroFlit)
    (flitTag zeroFlit) = some b → ∃ (s : State) (p : PortId) (f : Flit) (h : Nat) (k : HopKey) (b : Bytes), (s.portOf p).state
    = .up ∧ flitDecoded f = true ∧ 256 ≤ (flitRaw f).length ∧ (s.portOf p).status ≠ .curtain ∧ h = (flitHead f).toNat ∧ bits h
    37 35 = 0 ∧ bitOf h 39 = false ∧ rxKey (s.portOf p) (bitOf h 38) = some k ∧ Config.gcmOpen k.key (flitNonce k (nearCounter
    k.counter (bits h 20 0))) (toLe 8 h) (flitBody f) (flitTag f) = some b ∧ BitVec.ofNat 12 (bits h 63 52) = (s.portOf
    p).rxExpect) ∧
(∃ (s : State) (p : PortId) (a : BitVec 12), (s.portOf p).state = .up ∧ (s.portOf p).status ≠ .curtain ∧ (takeAck (s.portOf p)
    a).nakActed ≠ some a ∧ fromSeq (takeAck (s.portOf p) a).unacked (a + 1) ≠ [] ∧ (∀ f ∈ fromSeq (takeAck (s.portOf p)
    a).unacked (a + 1), f.resends < 8)) ∧
(∃ (s : State) (p : PortId) (f : TxFlit) (l : List TxFlit), (s.portOf p).state = .up ∧ (s.portOf p).status ≠ .curtain ∧
    (s.portOf p).unacked = f :: l ∧ (∀ x ∈ f :: l, x.resends < 8)) ∧
(∃ (s : State) (p : PortId) (l : List Nat), (s.portOf p).state = .up) ∧
(∃ s : State, bar0Up s = true ∧ activeUp s = true ∧ houseOpen s = true ∧ s.pattern.running = false ∧ patternAllowed s
    s.pattern.target.toNat = true) ∧
(∃ s : State, bar0Up s = true ∧ activeUp s = true ∧ s.pattern.running = true) ∧
(∃ (s : State) (p : PortId) (h : CollHdr) (x : CollInst) (v : List (BitVec 64)), forInstance 2 p h x s ∧ v.length = x.v ∧
    h.sender.toNat ∉ x.counts.map Prod.fst ∧ (∃ m ∈ x.members, m ∉ (x.counts ++ [(h.sender.toNat, v)]).map Prod.fst)) ∧
(∃ (s : State) (p : PortId) (h : CollHdr) (x : CollInst) (v : List Word), forInstance 3 p h x s ∧ v.length = x.v ∧
    h.sender.toNat ∉ x.scalars.map Prod.fst ∧ (∃ m ∈ x.members, m ∉ (x.scalars ++ [(h.sender.toNat, v)]).map Prod.fst)) ∧
(∃ (s : State) (p : PortId) (h : CollHdr) (x : CollInst) (data : Bytes), forInstance 4 p h x s ∧ x.root ≠ ownMember s ∧
    h.sender.toNat = x.root ∧ h.arg.toNat < chunkCount x ∧ h.arg.toNat ∉ x.chunks ∧ data.length = chunkSize x h.arg.toNat ∧
    x.digest = none) ∧
(∃ (s : State) (p : PortId) (h : CollHdr) (x : CollInst) (n : Word) (d : Bytes), forInstance 4 p h x s ∧ x.root ≠ ownMember s
    ∧ h.sender.toNat = x.root ∧ n.toNat = x.length ∧ x.digest = none ∧ missingChunks x = [] ∧ Config.shake256 (s.hdmBytes
    (collSlot s) x.dst x.length) 64 = d) ∧
(∃ (s : State) (p : PortId) (h : CollHdr) (x : CollInst), forInstance 4 p h x s ∧ x.root = ownMember s ∧ x.root ∈ x.arrived ∧
    (∃ m ∈ x.members, m ∉ insertNew x.arrived h.sender.toNat)) ∧
(∃ (s : State) (p : PortId) (h : CollHdr) (x : CollInst), forInstance 5 p h x s ∧ (∃ m ∈ x.members, m ∉ insertNew x.arrived
    h.sender.toNat)) ∧
(∃ (s : State) (p : PortId) (h : CollHdr) (x : CollInst), forInstance 4 p h x s ∧ x.root = ownMember s ∧ h.arg.toNat <
    chunkCount x ∧ (∃ m ∈ x.members, m ≠ x.root ∧ m ∉ x.arrived) ∧ newRequest x h.sender.toNat h.arg.toNat p.val = true) ∧
(∃ (s : State) (desc : BitVec 16) (x : CollInst), instOf s desc.toNat = some x ∧ x.kind = 4 ∧ x.root ≠ ownMember s ∧ x.aborts
    = [] ∧ x.digest ≠ none ∧ missingChunks x ≠ [] ∧ roundsLeft s x = true) ∧
(portsInService (startOf (commanding 0x31 2 collBody true) 0x31 collBody) ≠ [] ∧ (∀ m ∈ (commanding 0x31 2 collBody
    true).coll.held, (heldKey m).1 ≠ (parseColl (ready 0x31 collBody).entry.body).descId) ∧ instOf (commanding 0x31 2 collBody
    true) (parseColl (ready 0x31 collBody).entry.body).descId = none ∧ headStarts 0x31 0 0 (commanding 0x31 2 collBody true)
    (ready 0x31 collBody) ∧ collRefused (startOf (commanding 0x31 2 collBody true) 0x31 collBody) 0 2 (parseColl (ready 0x31
    collBody).entry.body) = false ∧ 1 ∈ (newInst (startOf (commanding 0x31 2 collBody true) 0x31 collBody) 0 0 (ready 0x31
    collBody) 2 (parseColl (ready 0x31 collBody).entry.body)).members ∧ 1 ≠ ownMember (startOf (commanding 0x31 2 collBody
    true) 0x31 collBody)) ∧
(portsInService (startOf (commanding 0x32 3 collBody true) 0x32 collBody) ≠ [] ∧ (∀ m ∈ (commanding 0x32 3 collBody
    true).coll.held, (heldKey m).1 ≠ (parseColl (ready 0x32 collBody).entry.body).descId) ∧ instOf (commanding 0x32 3 collBody
    true) (parseColl (ready 0x32 collBody).entry.body).descId = none ∧ headStarts 0x32 0 0 (commanding 0x32 3 collBody true)
    (ready 0x32 collBody) ∧ collRefused (startOf (commanding 0x32 3 collBody true) 0x32 collBody) 0 3 (parseColl (ready 0x32
    collBody).entry.body) = false ∧ 1 ∈ (newInst (startOf (commanding 0x32 3 collBody true) 0x32 collBody) 0 0 (ready 0x32
    collBody) 3 (parseColl (ready 0x32 collBody).entry.body)).members ∧ 1 ≠ ownMember (startOf (commanding 0x32 3 collBody
    true) 0x32 collBody)) ∧
(portsInService (startOf (commanding 0x33 4 castBody true) 0x33 castBody) ≠ [] ∧ (∀ m ∈ (commanding 0x33 4 castBody
    true).coll.held, (heldKey m).1 ≠ (parseColl (ready 0x33 castBody).entry.body).descId) ∧ instOf (commanding 0x33 4 castBody
    true) (parseColl (ready 0x33 castBody).entry.body).descId = none ∧ headStarts 0x33 0 0 (commanding 0x33 4 castBody true)
    (ready 0x33 castBody) ∧ collRefused (startOf (commanding 0x33 4 castBody true) 0x33 castBody) 0 4 (parseColl (ready 0x33
    castBody).entry.body) = false ∧ 1 ∈ (newInst (startOf (commanding 0x33 4 castBody true) 0x33 castBody) 0 0 (ready 0x33
    castBody) 4 (parseColl (ready 0x33 castBody).entry.body)).members ∧ 1 ≠ ownMember (startOf (commanding 0x33 4 castBody
    true) 0x33 castBody) ∧ 1 ≠ (newInst (startOf (commanding 0x33 4 castBody true) 0x33 castBody) 0 0 (ready 0x33 castBody) 4
    (parseColl (ready 0x33 castBody).entry.body)).root) ∧
(portsInService (startOf (commanding 0x34 5 barrierBody true) 0x34 barrierBody) ≠ [] ∧ (∀ m ∈ (commanding 0x34 5 barrierBody
    true).coll.held, (heldKey m).1 ≠ (parseColl (ready 0x34 barrierBody).entry.body).descId) ∧ instOf (commanding 0x34 5
    barrierBody true) (parseColl (ready 0x34 barrierBody).entry.body).descId = none ∧ headStarts 0x34 0 0 (commanding 0x34 5
    barrierBody true) (ready 0x34 barrierBody) ∧ collRefused (startOf (commanding 0x34 5 barrierBody true) 0x34 barrierBody) 0
    5 (parseColl (ready 0x34 barrierBody).entry.body) = false ∧ 1 ∈ (newInst (startOf (commanding 0x34 5 barrierBody true)
    0x34 barrierBody) 0 0 (ready 0x34 barrierBody) 5 (parseColl (ready 0x34 barrierBody).entry.body)).members ∧ 1 ≠ ownMember
    (startOf (commanding 0x34 5 barrierBody true) 0x34 barrierBody)) ∧
(∃ s : State, failoverAllowed s = true) ∧
(∃ s : State, activeUp s = true ∧ failoverAllowed s = true) ∧
(∃ s : State, activeUp s = true) ∧
(∃ s : State, activeUp s = true) ∧
(∃ s : State, barWritable s = true ∧ s.field.running = none ∧ fieldAllowed s = true) := by
  refine ⟨?_, ?_, ?_, ?_, ?_, ?_, ?_, ?_, ?_, ?_, ?_, ?_, ?_, ?_, ?_, ?_, ?_, ?_, ?_, ?_, ?_, ?_, ?_, ?_, ?_, ?_, ?_, ?_, ?_, ?_, ?_⟩
  · refine ⟨{ live with thermal := { live.thermal with flowClamp := true, flow := 4180 } }, ?_⟩; repeat' apply And.intro
    all_goals first | decide +kernel | assumption | (unfold headStarts; decide +kernel) | (unfold servedNow; decide +kernel) | rfl
  · refine ⟨{ live with thermal := { live.thermal with suddenStop := true, flow := 4180 } }, ?_⟩; repeat' apply And.intro
    all_goals first | decide +kernel | assumption | (unfold headStarts; decide +kernel) | (unfold servedNow; decide +kernel) | rfl
  · refine ⟨{ live with thermal := { live.thermal with suddenStop := true } }, ?_⟩; repeat' apply And.intro
    all_goals first | decide +kernel | assumption | (unfold headStarts; decide +kernel) | (unfold servedNow; decide +kernel) | rfl
  · refine ⟨{ live with thermal := { live.thermal with halting := true } }, ?_⟩; repeat' apply And.intro
    all_goals first | decide +kernel | assumption | (unfold headStarts; decide +kernel) | (unfold servedNow; decide +kernel) | rfl
  · refine ⟨{ live with thermal := { live.thermal with halted := true, flow := 4180 } }, ?_⟩; repeat' apply And.intro
    all_goals first | decide +kernel | assumption | (unfold headStarts; decide +kernel) | (unfold servedNow; decide +kernel) | rfl
  · refine ⟨live, ?_⟩; repeat' apply And.intro
    all_goals first | decide +kernel | assumption | (unfold headStarts; decide +kernel) | (unfold servedNow; decide +kernel) | rfl
  · refine ⟨live, ?_⟩; repeat' apply And.intro
    all_goals first | decide +kernel | assumption | (unfold headStarts; decide +kernel) | (unfold servedNow; decide +kernel) | rfl
  · refine ⟨{ live with thermal := { live.thermal with tray := { live.thermal.tray with status := 7 }, flow := 1 } }, 1000, ?_⟩; repeat' apply And.intro
    all_goals first | decide +kernel | assumption | (unfold headStarts; decide +kernel) | (unfold servedNow; decide +kernel) | rfl
  · intro b h; refine ⟨live, 0, zeroFlit, 0, HopKey.reset, b, ?_⟩; exact ⟨by decide +kernel, by decide +kernel, by decide +kernel, by decide +kernel, by decide +kernel, by decide +kernel, by decide +kernel, by decide +kernel, h, by decide +kernel⟩
  · refine ⟨withPort { portIn .up .up with unacked := [⟨1, 0, 0, [], 7⟩] }, 0, 0, ?_⟩; repeat' apply And.intro
    all_goals first | decide +kernel | assumption | (unfold headStarts; decide +kernel) | (unfold servedNow; decide +kernel) | rfl
  · refine ⟨withPort { portIn .up .up with unacked := [⟨1, 0, 0, [], 7⟩] }, 0, ⟨1, 0, 0, [], 7⟩, [], ?_⟩; repeat' apply And.intro
    all_goals first | decide +kernel | assumption | (unfold headStarts; decide +kernel) | (unfold servedNow; decide +kernel) | rfl
  · refine ⟨live, 0, [10001], ?_⟩; repeat' apply And.intro
    all_goals first | decide +kernel | assumption | (unfold headStarts; decide +kernel) | (unfold servedNow; decide +kernel) | rfl
  · refine ⟨{ live with pattern := { Pattern.reset with target := 0x20 } }, ?_⟩; repeat' apply And.intro
    all_goals first | decide +kernel | assumption | (unfold headStarts; decide +kernel) | (unfold servedNow; decide +kernel) | rfl
  · refine ⟨{ live with pattern := { Pattern.reset with running := true } }, ?_⟩; repeat' apply And.intro
    all_goals first | decide +kernel | assumption | (unfold headStarts; decide +kernel) | (unfold servedNow; decide +kernel) | rfl
  · refine ⟨grouped (wide 2), 0, hdr 0 0, wide 2, [5], ?_⟩; repeat' apply And.intro
    all_goals first | decide +kernel | assumption | (unfold headStarts; decide +kernel) | (unfold servedNow; decide +kernel) | rfl
  · refine ⟨grouped (wide 3), 0, hdr 0 0, wide 3, [5], ?_⟩; repeat' apply And.intro
    all_goals first | decide +kernel | assumption | (unfold headStarts; decide +kernel) | (unfold servedNow; decide +kernel) | rfl
  · refine ⟨grouped (running0 4), 0, hdr 0 0, running0 4, [7], ?_⟩; repeat' apply And.intro
    all_goals first | decide +kernel | assumption | (unfold headStarts; decide +kernel) | (unfold servedNow; decide +kernel) | rfl
  · refine ⟨grouped { running0 4 with chunks := [0] }, 0, hdr 0 0, { running0 4 with chunks := [0] }, 1, Config.shake256 [0] 64, ?_⟩; repeat' apply And.intro
    all_goals first | decide +kernel | assumption | (unfold headStarts; decide +kernel) | (unfold forInstance; decide +kernel) | (unfold forReduction; decide +kernel) | rfl
  · refine ⟨grouped { wide 4 with root := 0 }, 0, hdr 0 0, { wide 4 with root := 0 }, ?_⟩; repeat' apply And.intro
    all_goals first | decide +kernel | assumption | (unfold headStarts; decide +kernel) | (unfold servedNow; decide +kernel) | rfl
  · refine ⟨grouped (wide 5), 0, hdr 0 0, wide 5, ?_⟩; repeat' apply And.intro
    all_goals first | decide +kernel | assumption | (unfold headStarts; decide +kernel) | (unfold servedNow; decide +kernel) | rfl
  · refine ⟨grouped { running0 4 with root := 0, arrived := [0], reqs := [] }, 0, hdr 0 0, { running0 4 with root := 0, arrived := [0], reqs := [] }, ?_, ?_, ?_, ⟨1, ?_, ?_, ?_⟩, ?_⟩
    all_goals first | decide +kernel | assumption | (unfold headStarts; decide +kernel) | (unfold forInstance; decide +kernel) | (unfold forReduction; decide +kernel) | rfl
  · refine ⟨grouped { running0 4 with digest := some [] }, 0, { running0 4 with digest := some [] }, ?_⟩; repeat' apply And.intro
    all_goals first | decide +kernel | assumption | (unfold headStarts; decide +kernel) | (unfold servedNow; decide +kernel) | rfl
  · repeat' apply And.intro
    all_goals first | decide +kernel | assumption | (unfold headStarts; decide +kernel) | (unfold forInstance; decide +kernel) | (unfold forReduction; decide +kernel) | rfl
  · repeat' apply And.intro
    all_goals first | decide +kernel | assumption | (unfold headStarts; decide +kernel) | (unfold forInstance; decide +kernel) | (unfold forReduction; decide +kernel) | rfl
  · repeat' apply And.intro
    all_goals first | decide +kernel | assumption | (unfold headStarts; decide +kernel) | (unfold forInstance; decide +kernel) | (unfold forReduction; decide +kernel) | rfl
  · repeat' apply And.intro
    all_goals first | decide +kernel | assumption | (unfold headStarts; decide +kernel) | (unfold forInstance; decide +kernel) | (unfold forReduction; decide +kernel) | rfl
  · refine ⟨live, ?_⟩; repeat' apply And.intro
    all_goals first | decide +kernel | assumption | (unfold headStarts; decide +kernel) | (unfold servedNow; decide +kernel) | rfl
  · refine ⟨live, ?_⟩; repeat' apply And.intro
    all_goals first | decide +kernel | assumption | (unfold headStarts; decide +kernel) | (unfold servedNow; decide +kernel) | rfl
  · refine ⟨live, ?_⟩; repeat' apply And.intro
    all_goals first | decide +kernel | assumption | (unfold headStarts; decide +kernel) | (unfold servedNow; decide +kernel) | rfl
  · refine ⟨live, ?_⟩; repeat' apply And.intro
    all_goals first | decide +kernel | assumption | (unfold headStarts; decide +kernel) | (unfold servedNow; decide +kernel) | rfl
  · refine ⟨live, ?_⟩; repeat' apply And.intro
    all_goals first | decide +kernel | assumption | (unfold headStarts; decide +kernel) | (unfold servedNow; decide +kernel) | rfl

end Sys2Proof.Tests
end

/-! SUPPORT. The event log's registers (R404, Table 15-12), management requests that are accepted and requests of a store
(R400 to R402); with them the statements of the family on faults and background work. -/

namespace Sys2Proof.Machine

open Sys2Proof

/-! ### Words of one field -/

theorem b2n_lt (b : Bool) : b2n b < 2 := by cases b <;> decide

/-- A field at bit 0 reads as its value where the value fits its width. -/
theorem pack_low_field {width v : Nat} (h : v < 2 ^ width) : pack [(0, width, v)] = BitVec.ofNat 32 v := by
  simp [pack, Nat.mod_eq_of_lt h]

theorem pack_flag_zero (b : Bool) : pack [flag 0 b] = BitVec.ofNat 32 (b2n b) :=
  pack_low_field (b2n_lt b)

/-! ### Reads of the event log -/

theorem readReg_evCount (s : State) : readReg s 0x50000 = pack [(0, 13, s.log.records.length)] := rfl

theorem readReg_evIndex (s : State) : readReg s 0x50004 = s.log.evIndex.setWidth 32 := rfl

theorem readReg_evHead (s : State) : readReg s 0x50008 =
    pack [(0, 8, b2n (latchedRec s).isCount), (8, 8, (latchedRec s).slot.toNat), (16, 16, (latchedRec s).code.toNat)] := rfl

theorem readReg_evSeq (s : State) : readReg s 0x5000C = (latchedRec s).seq := rfl

theorem readReg_evTick (s : State) : readReg s 0x50010 = (latchedRec s).tick := rfl

theorem readReg_dropped (s : State) : readReg s 0x50014 = s.log.dropped := rfl

theorem readReg_newEvent (s : State) : readReg s 0x50018 = pack [flag 0 s.log.newEvent] := rfl

theorem readReg_eventVector (s : State) : readReg s 0x5001C = s.log.vector.setWidth 32 := rfl

/-- The words of a record depend on the state through the latched record only. -/
theorem readReg_event_congr {s t : State} (h : t.log.latched = s.log.latched) {a : Nat}
    (ha : a = 0x50008 ∨ a = 0x5000C ∨ a = 0x50010) : readReg t a = readReg s a := by
  have hr : latchedRec t = latchedRec s := by rw [latchedRec, latchedRec, h]
  obtain rfl | rfl | rfl := ha
  · rw [readReg_evHead, readReg_evHead, hr]
  · rw [readReg_evSeq, readReg_evSeq, hr]
  · rw [readReg_evTick, readReg_evTick, hr]

/-! ### The latched record -/

@[simp] theorem latchEvent_evIndex (i : BitVec 12) (s : State) : (latchEvent i s).log.evIndex = i := rfl

@[simp] theorem latchEvent_latched (i : BitVec 12) (s : State) :
    (latchEvent i s).log.latched = s.log.records[i.toNat]? := rfl

/-- A write of ev_index at a record of the log latches it. -/
theorem latchedRec_latchEvent_some {i : BitVec 12} {s : State} {r : EventRec} (h : s.log.records[i.toNat]? = some r) :
    latchedRec (latchEvent i s) = r := by
  rw [latchedRec, latchEvent_latched, h, Option.getD_some]

/-- A write of ev_index at no record of the log latches the record of zeros. -/
theorem latchedRec_latchEvent_none {i : BitVec 12} {s : State} (h : s.log.records[i.toNat]? = none) :
    latchedRec (latchEvent i s) = ⟨0, 0, false, 0, 0, 0, 0, 0⟩ := by
  rw [latchedRec, latchEvent_latched, h, Option.getD_none]

@[simp] theorem pushRec_latched (l : EventLog) (r : EventRec) : (pushRec l r).latched = l.latched := rfl

/-- Events reported after the write of ev_index leave the latched record as it was. -/
theorem reportAll_latched (l : List Ev) (s : State) : (reportAll l s).log.latched = s.log.latched := by
  unfold reportAll
  induction l generalizing s with
  | nil => rfl
  | cons e l ih => rw [List.foldl_cons, ih, report_log, pushRec_latched]

/-! ### Writes of the event log's and the NV store's registers -/

/-- A write of a word of BAR0 through the active port. -/
theorem exec_registerWrite {s : State} (h : barWritable s = true) (a : BitVec 24) (w : Word) :
    exec (.registerWrite a w) s = .next (writeReg a.toNat w s) := by
  show Host.Outcome.next (when' (barWritable s) (writeReg a.toNat w) s) = _
  rw [h, when'_true]

theorem exec_evIndexWrite {s : State} (h : barWritable s = true) (i : BitVec 12) :
    exec (.evIndexWrite i) s = .next (latchEvent i s) := by
  show Host.Outcome.next (when' (barWritable s) (latchEvent i) s) = _
  rw [h, when'_true]

theorem writeReg_evIndex (w : Word) (s : State) : writeReg 0x50004 w s = latchEvent (fieldBv 12 w 0) s := rfl

theorem writeReg_newEvent (w : Word) (s : State) :
    writeReg 0x50018 w s = { s with log := { s.log with newEvent := s.log.newEvent && !w.getLsbD 0 } } := rfl

theorem writeReg_store {w : Word} (h : w.getLsbD 0 = true) (s : State) : writeReg 0x60000 w s = requestStore false s :=
  if_pos h

/-- A field from bit 0 of a written word holds the word's low bits. -/
theorem fieldBv_low {n : Nat} {w : Word} {v : BitVec n} (h : w.toNat % 2 ^ n = v.toNat) : fieldBv n w 0 = v :=
  BitVec.eq_of_toNat_eq (by rw [fieldBv, BitVec.toNat_ofNat, pow_zero, Nat.div_one, h])

/-! ### Requests of a store -/

/-- A management request that is accepted and keeps its layout has its own effect, after its counter is taken (R321 to R324). -/
theorem mgmt_accepted {op : Nat} {role : Role} {layout : Bool → Bytes → Bool} {r : MgmtReq} {s : State}
    (h : accepted op role r s) (hl : layout (newerApi r) r.body = true) (f : MgmtReq → State → State) :
    mgmt op role layout f r s = f r (acceptCounter r s) := by
  obtain ⟨hup, hcurtain, hmagic, hversion, c, hc, hsig, hfresh, hrank⟩ := h
  unfold mgmt
  simp [hup, hcurtain, hmagic, hversion, hc, hsig, hfresh, hl, Nat.not_lt.2 hrank]

/-- The NV store once a request waits: the first one takes a token, a later one joins it (R400, R401). -/
def storeJoined (n : Nv) : Nv :=
  { n with tokens := (if n.storeWaiting then n.tokens else n.tokens - 1), storeWaiting := true }

/-- A request of a store that nothing refuses joins the queue; beside that it leaves what its path waits for, an answer or the
register's bit (R402). -/
theorem requestStore_joins {s : State} (hb : nvBlocked s = false) (ht : 0 < s.nv.tokens ∨ s.nv.storeWaiting = true)
    (mgmt : Bool) :
    requestStore mgmt s = { s with nv := { storeJoined s.nv with
      storeAnswers := s.nv.storeAnswers + b2n mgmt, storeBit := s.nv.storeBit || !mgmt } } := by
  have hgrant : (!s.nv.storeWaiting && s.nv.tokens == 0) = false := by
    obtain h | h := ht
    · simp [Nat.pos_iff_ne_zero.1 h]
    · simp [h]
  unfold requestStore
  simp only [hb, hgrant, Bool.false_eq_true, if_false]
  rfl

/-- Through the register: the store bit stands until the store is done. -/
theorem requestStore_register {s : State} (hb : nvBlocked s = false) (ht : 0 < s.nv.tokens ∨ s.nv.storeWaiting = true) :
    requestStore false s = { s with nv := { storeJoined s.nv with storeBit := true } } := by
  rw [requestStore_joins hb ht, Bool.not_false, Bool.or_true]
  rfl

/-- Through management: one more answer is due when the store is done. -/
theorem requestStore_management {s : State} (hb : nvBlocked s = false)
    (ht : 0 < s.nv.tokens ∨ s.nv.storeWaiting = true) :
    requestStore true s = { s with nv := { storeJoined s.nv with storeAnswers := s.nv.storeAnswers + 1 } } := by
  rw [requestStore_joins hb ht, Bool.not_true, Bool.or_false]
  rfl

/-! ### The statements -/

/-- Settles O56: the write of ev_index copies the record beside the log, and a report changes the log only. -/
theorem eventReadsAreOneRecord : Obligations.EventReadsAreOneRecord := by
  unfold Obligations.EventReadsAreOneRecord
  refine ⟨fun s i hw => ⟨latchEvent i s, exec_evIndexWrite hw i, fun w h => ?register, ?index, fun r hr => ?record,
    fun hn => ?noRecord, fun l a ha => ?later⟩, fun s => ⟨fun hlen => ?count, ?dropped, ?new, ?vector⟩,
    fun s w hw => ⟨_, exec_registerWrite hw _ w, ?fall⟩⟩
  case register =>
    rw [exec_registerWrite hw]
    exact congrArg _ ((writeReg_evIndex w s).trans (by rw [fieldBv_low h]))
  case index => rw [readReg_evIndex, latchEvent_evIndex]
  case record =>
    have e := latchedRec_latchEvent_some hr
    rw [readReg_evHead, readReg_evSeq, readReg_evTick, e]
    exact ⟨rfl, rfl, rfl⟩
  case noRecord =>
    have e := latchedRec_latchEvent_none hn
    rw [readReg_evHead, readReg_evSeq, readReg_evTick, e]
    exact ⟨rfl, rfl, rfl⟩
  case later => exact readReg_event_congr (reportAll_latched l _) ha
  case count => exact (readReg_evCount s).trans (pack_low_field (by omega))
  case dropped => exact readReg_dropped s
  case new => rw [readReg_newEvent, pack_flag_zero]
  case vector => exact readReg_eventVector s
  case fall => exact (congrArg (readReg · 0x50018) (writeReg_newEvent w s)).trans (by rw [readReg_newEvent, pack_flag_zero])

/-- Settles O57: both paths are one request of a store, which joins one queue. -/
theorem storeRequestsJoin : Obligations.StoreRequestsJoin := by
  unfold Obligations.StoreRequestsJoin
  intro s hb ht
  refine ⟨congrArg _ (requestStore_register hb ht), fun w hw h0 => ?register, fun r ha hl => ?management⟩
  case register =>
    rw [exec_registerWrite hw]
    exact congrArg _ ((writeReg_store h0 s).trans (requestStore_register hb ht))
  case management =>
    have hexec : exec (.storeNv r) s = .next (requestStore true (acceptCounter r s)) :=
      congrArg _ (mgmt_accepted ha hl _)
    have hjoin := requestStore_management (s := acceptCounter r s) hb ht
    exact ⟨_, hexec, by rw [hjoin]; rfl, by rw [hjoin]; rfl⟩

end Sys2Proof.Machine

/-! SUPPORT. Every command and every step over the Keeps files: the invariants of the step, the fuses, the idle step, and what the
queue commands leave of the other slots. -/

namespace Sys2Proof.Machine

open Sys2Proof

/-- An answer that keeps everything also moves soundly. -/
theorem answers_moves {o : Host.Outcome State Fault Refusal} {s : State} (h : ∃ t, o = .next t ∧ Keeps s t) :
    ∃ t, o = .next t ∧ Moves s t :=
  h.imp fun _ h => ⟨h.1, h.2.moves⟩

/-- Every command answers a next state, and moves soundly to it: the Keeps files gathered over the dispatch. -/
theorem exec_moves (c : Instr) (s : State) : ∃ t, exec c s = .next t ∧ Moves s t := by
  cases c with
  | houseRstNAssert x => exact answers_moves (execHouseRstNAssert_keeps x (.refl s))
  | houseRstNRise => exact answers_moves (execHouseRstNRise_keeps (.refl s))
  | keysUp => exact answers_moves (execKeysUp_keeps (.refl s))
  | coolantGateStart x => exact answers_moves (execCoolantGateStart_keeps x (.refl s))
  | coolantGatePass => exact answers_moves (execCoolantGatePass_keeps (.refl s))
  | coolantGateTimeout => exact answers_moves (execCoolantGateTimeout_keeps (.refl s))
  | deckZoneUp x => exact answers_moves (execDeckZoneUp_keeps x (.refl s))
  | deckCheck x0 x1 => exact answers_moves (execDeckCheck_keeps x0 x1 (.refl s))
  | stackBringUp x => exact answers_moves (execStackBringUp_keeps x (.refl s))
  | stackInitialisationDone => exact answers_moves (execStackInitialisationDone_keeps (.refl s))
  | credentialWindowExpire => exact answers_moves (execCredentialWindowExpire_keeps (.refl s))
  | pwrGoodLoss => exact answers_moves (execPwrGoodLoss_keeps (.refl s))
  | pwrGoodRestore => exact answers_moves (execPwrGoodRestore_keeps (.refl s))
  | inputPowerLoss => exact answers_moves (execInputPowerLoss_keeps (.refl s))
  | trayRelease => exact answers_moves (execTrayRelease_keeps (.refl s))
  | trayReleaseWithdrawn => exact answers_moves (execTrayReleaseWithdrawn_keeps (.refl s))
  | alertPinAssert x0 x1 => exact answers_moves (execAlertPinAssert_keeps x0 x1 (.refl s))
  | alertPinClear x => exact answers_moves (execAlertPinClear_keeps x (.refl s))
  | clampRelease x => exact answers_moves (execClampRelease_keeps x (.refl s))
  | deckZoneLoss x => exact answers_moves (execDeckZoneLoss_keeps x (.refl s))
  | dieSupplyTrip x => exact answers_moves (execDieSupplyTrip_keeps x (.refl s))
  | dieIsolation x => exact answers_moves (execDieIsolation_keeps x (.refl s))
  | dieRegulatorLatchOff x => exact answers_moves (execDieRegulatorLatchOff_keeps x (.refl s))
  | dieRailRampStart x => exact answers_moves (execDieRailRampStart_keeps x (.refl s))
  | dieRailsUp x => exact answers_moves (execDieRailsUp_keeps x (.refl s))
  | dieClockLockTimeout x0 x1 => exact answers_moves (execDieClockLockTimeout_keeps x0 x1 (.refl s))
  | powerControlInterval x => exact answers_moves (execPowerControlInterval_keeps x (.refl s))
  | deferredSleepStop x => exact answers_moves (execDeferredSleepStop_keeps x (.refl s))
  | thermalRampCheck x => exact answers_moves (execThermalRampCheck_keeps x (.refl s))
  | oscillatorRetune => exact answers_moves (execOscillatorRetune_keeps (.refl s))
  | droopDetect x0 x1 => exact answers_moves (execDroopDetect_keeps x0 x1 (.refl s))
  | droopRecover x => exact answers_moves (execDroopRecover_keeps x (.refl s))
  | leaseExpire => exact answers_moves (execLeaseExpire_keeps (.refl s))
  | marginSample x0 x1 => exact answers_moves (execMarginSample_keeps x0 x1 (.refl s))
  | energyAccumulate x => exact answers_moves (execEnergyAccumulate_keeps x (.refl s))
  | telemetryUpdate x => exact answers_moves (execTelemetryUpdate_keeps x (.refl s))
  | sensorSample x => exact answers_moves (execSensorSample_keeps x (.refl s))
  | throttleStep => exact answers_moves (execThrottleStep_keeps (.refl s))
  | throttleClampTimeout => exact answers_moves (execThrottleClampTimeout_keeps (.refl s))
  | thermalTrip => exact answers_moves (execThermalTrip_keeps (.refl s))
  | sensorPairRetest x0 x1 => exact answers_moves (execSensorPairRetest_keeps x0 x1 (.refl s))
  | thermalModelAdvance x => exact answers_moves (execThermalModelAdvance_keeps x (.refl s))
  | heatForecast => exact answers_moves (execHeatForecast_keeps (.refl s))
  | trayRead x => exact answers_moves (execTrayRead_keeps x (.refl s))
  | trayReadingStale => exact answers_moves (execTrayReadingStale_keeps (.refl s))
  | flowClampClear => exact answers_moves (execFlowClampClear_keeps (.refl s))
  | suddenStopRecover => exact answers_moves (execSuddenStopRecover_keeps (.refl s))
  | coolantHalt => exact answers_moves (execCoolantHalt_keeps (.refl s))
  | halted => exact answers_moves (execHalted_keeps (.refl s))
  | flowPowerOff => exact answers_moves (execFlowPowerOff_keeps (.refl s))
  | haltExit => exact answers_moves (execHaltExit_keeps (.refl s))
  | heatBalanceCheck x => exact answers_moves (execHeatBalanceCheck_keeps x (.refl s))
  | stage x => exact answers_moves (execStage_keeps x (.refl s))
  | unstage x => exact answers_moves (execUnstage_keeps x (.refl s))
  | loadGoReservedOp x0 x1 => exact answers_moves (execLoadGoReservedOp_keeps x0 x1 (.refl s))
  | chartCheckDone => exact answers_moves (execChartCheckDone_keeps (.refl s))
  | unstageDone => exact answers_moves (execUnstageDone_keeps (.refl s))
  | loadStatusRead => exact answers_moves (execLoadStatusRead_keeps (.refl s))
  | chartInstallComplete => exact answers_moves (execChartInstallComplete_keeps (.refl s))
  | regionRestage => exact answers_moves (execRegionRestage_keeps (.refl s))
  | replayOpenLayer => exact answers_moves (execReplayOpenLayer_keeps (.refl s))
  | selfTestStart x => exact answers_moves (execSelfTestStart_keeps x (.refl s))
  | selfTestResult x0 x1 => exact answers_moves (execSelfTestResult_keeps x0 x1 (.refl s))
  | backgroundScrub x => exact answers_moves (execBackgroundScrub_keeps x (.refl s))
  | deckWeightRecheck x => exact answers_moves (execDeckWeightRecheck_keeps x (.refl s))
  | modelStoreRecheck x0 x1 => exact answers_moves (execModelStoreRecheck_keeps x0 x1 (.refl s))
  | nvUpkeep x => exact answers_moves (execNvUpkeep_keeps x (.refl s))
  | heartbeatSend x => exact answers_moves (execHeartbeatSend_keeps x (.refl s))
  | heartbeatReceive x0 x1 => exact answers_moves (execHeartbeatReceive_keeps x0 x1 (.refl s))
  | tileSilent x => exact answers_moves (execTileSilent_keeps x (.refl s))
  | meshCrcError x0 x1 => exact answers_moves (execMeshCrcError_keeps x0 x1 (.refl s))
  | meshReplayReq x0 x1 => exact answers_moves (execMeshReplayReq_keeps x0 x1 (.refl s))
  | cueIssue x0 x1 x2 => exact answers_moves (execCueIssue_keeps x0 x1 x2 (.refl s))
  | deferredEntryComplete x => exact answers_moves (execDeferredEntryComplete_keeps x (.refl s))
  | cueComplete x0 x1 x2 => exact answers_moves (execCueComplete_keeps x0 x1 x2 (.refl s))
  | routeSignalArrive x0 x1 x2 => exact answers_moves (execRouteSignalArrive_keeps x0 x1 x2 (.refl s))
  | prompterWaitLong x => exact answers_moves (execPrompterWaitLong_keeps x (.refl s))
  | passComplete => exact answers_moves (execPassComplete_keeps (.refl s))
  | queueEntryWrite x0 x1 => exact answers_moves (execQueueEntryWrite_keeps x0 x1 (.refl s))
  | entryRefusal x0 x1 => exact answers_moves (execEntryRefusal_keeps x0 x1 (.refl s))
  | nop x0 x1 => exact answers_moves (execNop_keeps x0 x1 (.refl s))
  | runPass x0 x1 => exact answers_moves (execRunPass_keeps x0 x1 (.refl s))
  | bindManifest x0 x1 => exact answers_moves (execBindManifest_keeps x0 x1 (.refl s))
  | loadModel x0 x1 => exact answers_moves (execLoadModel_keeps x0 x1 (.refl s))
  | swapModel x0 x1 => exact answers_moves (execSwapModel_keeps x0 x1 (.refl s))
  | releaseModel x0 x1 => exact answers_moves (execReleaseModel_keeps x0 x1 (.refl s))
  | reduceShards x0 x1 => exact answers_moves (execReduceShards_keeps x0 x1 (.refl s))
  | counts x0 x1 => exact answers_moves (execCounts_keeps x0 x1 (.refl s))
  | scalarSum x0 x1 => exact answers_moves (execScalarSum_keeps x0 x1 (.refl s))
  | broadcast x0 x1 => exact answers_moves (execBroadcast_keeps x0 x1 (.refl s))
  | barrier x0 x1 => exact answers_moves (execBarrier_keeps x0 x1 (.refl s))
  | logSnapshot x0 x1 => exact answers_moves (execLogSnapshot_keeps x0 x1 (.refl s))
  | completionRecordWrite x => exact answers_moves (execCompletionRecordWrite_keeps x (.refl s))
  | completionWriteDone x => exact answers_moves (execCompletionWriteDone_keeps x (.refl s))
  | queueCancel x0 x1 => exact answers_moves (execQueueCancel_keeps x0 x1 (.refl s))
  | queueCancelComplete x0 x1 => exact answers_moves (execQueueCancelComplete_keeps x0 x1 (.refl s))
  | cqEnable x => exact answers_moves (execCqEnable_keeps x (.refl s))
  | cqHeadWrite x0 x1 => exact answers_moves (execCqHeadWrite_keeps x0 x1 (.refl s))
  | takeOver x => exact answers_moves (execTakeOver_keeps x (.refl s))
  | failover => exact answers_moves (execFailover_keeps (.refl s))
  | activeLinkDown => exact answers_moves (execActiveLinkDown_keeps (.refl s))
  | autoFailoverTimeout => exact answers_moves (execAutoFailoverTimeout_keeps (.refl s))
  | standbyLinkUp x0 x1 => exact answers_moves (execStandbyLinkUp_keeps x0 x1 (.refl s))
  | failoverRecordsWritten => exact answers_moves (execFailoverRecordsWritten_keeps (.refl s))
  | cxlPortReset x => exact answers_moves (execCxlPortReset_keeps x (.refl s))
  | standbyAccess x => exact answers_moves (execStandbyAccess_keeps x (.refl s))
  | hdmAccessOutside x0 x1 => exact answers_moves (execHdmAccessOutside_keeps x0 x1 (.refl s))
  | doeDiscovery x0 x1 => exact answers_moves (execDoeDiscovery_keeps x0 x1 (.refl s))
  | cdatTableAccess x => exact answers_moves (execCdatTableAccess_keeps x (.refl s))
  | ideKm x0 x1 => exact answers_moves (execIdeKm_keeps x0 x1 (.refl s))
  | openContext x0 x1 => exact execOpenContext_moves x0 x1 s
  | closeContext x0 x1 => exact execCloseContext_moves x0 x1 s
  | switchContext x0 x1 => exact execSwitchContext_moves x0 x1 s
  | graceExpire => exact answers_moves (execGraceExpire_keeps (.refl s))
  | curtainStart x => exact execCurtainStart_moves x s
  | curtainEnd => exact execCurtainEnd_moves s
  | zeroFillDone x => exact answers_moves (execZeroFillDone_keeps x (.refl s))
  | getReport x0 x1 => exact execGetReport_moves x0 x1 s
  | installKey x0 x1 => exact execInstallKey_moves x0 x1 s
  | removeKey x0 x1 => exact execRemoveKey_moves x0 x1 s
  | groupEnroll x0 x1 => exact execGroupEnroll_moves x0 x1 s
  | getPlaneRecords x0 x1 => exact execGetPlaneRecords_moves x0 x1 s
  | getCerts x0 x1 => exact execGetCerts_moves x0 x1 s
  | getTelemetry x => exact answers_moves (execGetTelemetry_keeps x (.refl s))
  | getEvents x => exact answers_moves (execGetEvents_keeps x (.refl s))
  | setPowerCap x => exact answers_moves (execSetPowerCap_keeps x (.refl s))
  | setSlew x => exact answers_moves (execSetSlew_keeps x (.refl s))
  | setOrphanCap x => exact answers_moves (execSetOrphanCap_keeps x (.refl s))
  | storeNv x => exact answers_moves (execStoreNv_keeps x (.refl s))
  | storeRequest => exact answers_moves (execStoreRequest_keeps (.refl s))
  | startScrub x => exact answers_moves (execStartScrub_keeps x (.refl s))
  | resetEngine x => exact answers_moves (execResetEngine_keeps x (.refl s))
  | mgmtCloseContext x => exact execMgmtCloseContext_moves x s
  | mgmtSwitchContext x => exact execMgmtSwitchContext_moves x s
  | setCabling x => exact answers_moves (execSetCabling_keeps x (.refl s))
  | setSwitchRoot x => exact answers_moves (execSetSwitchRoot_keeps x (.refl s))
  | firmwareBegin x => exact answers_moves (execFirmwareBegin_keeps x (.refl s))
  | firmwareChunk x => exact answers_moves (execFirmwareChunk_keeps x (.refl s))
  | firmwareCommit x => exact answers_moves (execFirmwareCommit_keeps x (.refl s))
  | enrollCredential x => exact answers_moves (execEnrollCredential_keeps x (.refl s))
  | revokeCredential x => exact answers_moves (execRevokeCredential_keeps x (.refl s))
  | eraseGroupKeys x => exact answers_moves (execEraseGroupKeys_keeps x (.refl s))
  | debugChallenge x => exact answers_moves (execDebugChallenge_keeps x (.refl s))
  | debugUnlock x => exact execDebugUnlock_moves x s
  | nvWriteStart => exact answers_moves (execNvWriteStart_keeps (.refl s))
  | nvStoreComplete x => exact answers_moves (execNvStoreComplete_keeps x (.refl s))
  | wearTokenGain => exact answers_moves (execWearTokenGain_keeps (.refl s))
  | evIndexWrite x => exact answers_moves (execEvIndexWrite_keeps x (.refl s))
  | patternGo => exact answers_moves (execPatternGo_keeps (.refl s))
  | patternStop => exact answers_moves (execPatternStop_keeps (.refl s))
  | fieldTileCheck => exact answers_moves (execFieldTileCheck_keeps (.refl s))
  | fieldCellColumnBist => exact answers_moves (execFieldCellColumnBist_keeps (.refl s))
  | fieldDeckCheck => exact answers_moves (execFieldDeckCheck_keeps (.refl s))
  | fieldStackMarch => exact answers_moves (execFieldStackMarch_keeps (.refl s))
  | fieldTestComplete x0 x1 x2 => exact answers_moves (execFieldTestComplete_keeps x0 x1 x2 (.refl s))
  | registerWrite x0 x1 => exact execRegisterWrite_moves x0 x1 s
  | portTrain x => exact answers_moves (execPortTrain_keeps x (.refl s))
  | portDisable x => exact answers_moves (execPortDisable_keeps x (.refl s))
  | pmdTrained x0 x1 => exact answers_moves (execPmdTrained_keeps x0 x1 (.refl s))
  | framingLock x => exact answers_moves (execFramingLock_keeps x (.refl s))
  | trainingResend x => exact answers_moves (execTrainingResend_keeps x (.refl s))
  | idBlock x0 x1 => exact answers_moves (execIdBlock_keeps x0 x1 (.refl s))
  | testReq x0 x1 => exact answers_moves (execTestReq_keeps x0 x1 (.refl s))
  | berTestEnd x0 x1 x2 => exact answers_moves (execBerTestEnd_keeps x0 x1 x2 (.refl s))
  | testResult x0 x1 x2 => exact answers_moves (execTestResult_keeps x0 x1 x2 (.refl s))
  | keyHello x => exact answers_moves (execKeyHello_keeps x (.refl s))
  | keyReply x0 x1 => exact answers_moves (execKeyReply_keeps x0 x1 (.refl s))
  | keyFinish x0 x1 => exact answers_moves (execKeyFinish_keeps x0 x1 (.refl s))
  | creditInit x0 x1 x2 x3 x4 => exact answers_moves (execCreditInit_keeps x0 x1 x2 x3 x4 (.refl s))
  | ready x => exact answers_moves (execReady_keeps x (.refl s))
  | trainingFlitDiscard x0 x1 => exact answers_moves (execTrainingFlitDiscard_keeps x0 x1 (.refl s))
  | dataFlitReceive x0 x1 => exact answers_moves (execDataFlitReceive_keeps x0 x1 (.refl s))
  | nakReceive x0 x1 => exact answers_moves (execNakReceive_keeps x0 x1 (.refl s))
  | ackTimeout x => exact answers_moves (execAckTimeout_keeps x (.refl s))
  | codewordLockLoss x => exact answers_moves (execCodewordLockLoss_keeps x (.refl s))
  | farEndDown x => exact answers_moves (execFarEndDown_keeps x (.refl s))
  | abortSymbol x0 x1 => exact answers_moves (execAbortSymbol_keeps x0 x1 (.refl s))
  | hopKeyLimit x => exact answers_moves (execHopKeyLimit_keeps x (.refl s))
  | hopRekey x0 x1 => exact answers_moves (execHopRekey_keeps x0 x1 (.refl s))
  | preFecMonitor x0 x1 => exact answers_moves (execPreFecMonitor_keeps x0 x1 (.refl s))
  | shardData x0 x1 => exact answers_moves (execShardData_keeps x0 x1 (.refl s))
  | shardNack x0 x1 => exact answers_moves (execShardNack_keeps x0 x1 (.refl s))
  | shardReqTimeout x => exact answers_moves (execShardReqTimeout_keeps x (.refl s))
  | shardAck x0 x1 => exact answers_moves (execShardAck_keeps x0 x1 (.refl s))
  | patchAckTimeout x0 x1 => exact answers_moves (execPatchAckTimeout_keeps x0 x1 (.refl s))
  | pilotStreamEnd => exact answers_moves (execPilotStreamEnd_keeps (.refl s))
  | swapLayerReplace => exact answers_moves (execSwapLayerReplace_keeps (.refl s))
  | scaleNotice x0 x1 => exact answers_moves (execScaleNotice_keeps x0 x1 (.refl s))
  | bounce x0 x1 => exact answers_moves (execBounce_keeps x0 x1 (.refl s))
  | result x0 x1 => exact answers_moves (execResult_keeps x0 x1 (.refl s))
  | noBlock x0 x1 => exact answers_moves (execNoBlock_keeps x0 x1 (.refl s))
  | resultTimeout x => exact answers_moves (execResultTimeout_keeps x (.refl s))
  | openReply x0 x1 => exact answers_moves (execOpenReply_keeps x0 x1 (.refl s))
  | openRetry x => exact answers_moves (execOpenRetry_keeps x (.refl s))
  | reduceShardsComplete => exact answers_moves (execReduceShardsComplete_keeps (.refl s))
  | ringPartial x0 x1 x2 x3 => exact answers_moves (execRingPartial_keeps x0 x1 x2 x3 (.refl s))
  | hopAck x0 x1 => exact answers_moves (execHopAck_keeps x0 x1 (.refl s))
  | hopCancel x0 x1 => exact answers_moves (execHopCancel_keeps x0 x1 (.refl s))
  | cancelAck x0 x1 => exact answers_moves (execCancelAck_keeps x0 x1 (.refl s))
  | hopTimeout x => exact answers_moves (execHopTimeout_keeps x (.refl s))
  | partialHoldTimeout x => exact answers_moves (execPartialHoldTimeout_keeps x (.refl s))
  | ringContributionTimeout x => exact answers_moves (execRingContributionTimeout_keeps x (.refl s))
  | resultReq x0 x1 => exact answers_moves (execResultReq_keeps x0 x1 (.refl s))
  | resultAck x0 x1 => exact answers_moves (execResultAck_keeps x0 x1 (.refl s))
  | countsVec x0 x1 x2 => exact answers_moves (execCountsVec_keeps x0 x1 x2 (.refl s))
  | scalarVec x0 x1 x2 => exact answers_moves (execScalarVec_keeps x0 x1 x2 (.refl s))
  | bcastChunk x0 x1 x2 => exact answers_moves (execBcastChunk_keeps x0 x1 x2 (.refl s))
  | bcastEnd x0 x1 x2 x3 => exact answers_moves (execBcastEnd_keeps x0 x1 x2 x3 (.refl s))
  | bcastReqRound x => exact answers_moves (execBcastReqRound_keeps x (.refl s))
  | bcastReq x0 x1 => exact answers_moves (execBcastReq_keeps x0 x1 (.refl s))
  | bcastDone x0 x1 => exact answers_moves (execBcastDone_keeps x0 x1 (.refl s))
  | arrive x0 x1 => exact answers_moves (execArrive_keeps x0 x1 (.refl s))
  | collectiveTimeout x => exact answers_moves (execCollectiveTimeout_keeps x (.refl s))
  | abortWaitExpire x => exact answers_moves (execAbortWaitExpire_keeps x (.refl s))
  | activeLinkReturn x0 x1 x2 => exact answers_moves (execActiveLinkReturn_keeps x0 x1 x2 (.refl s))
  | standbyLinkDown => exact answers_moves (execStandbyLinkDown_keeps (.refl s))
  | framingLockLost x => exact answers_moves (execFramingLockLost_keeps x (.refl s))
  | shardRetryGap x => exact answers_moves (execShardRetryGap_keeps x (.refl s))
/-- What a command answers, it has moved to soundly. -/
theorem Moves.of_exec {c : Instr} {s t : State} (h : exec c s = .next t) : Moves s t := by
  obtain ⟨u, hu, hm⟩ := exec_moves c s
  cases hu.symm.trans h
  exact hm

/-- Putting another list of commands in the queue leaves what every step keeps as it was. -/
theorem holdersSound_pending {s : State} {l : List Instr} (h : holdersSound s) :
    holdersSound { s with pending := l } :=
  ⟨h.one, h.outgoing, h.curtain⟩

/-- A step is a tick of the house clock or the command at the front, run on the queue's rest: it moves soundly from the state with
some rest of the queue. -/
theorem Moves.of_step {s t : State} (h : step s = .next t) : ∃ l, Moves { s with pending := l } t := by
  unfold step at h
  split at h
  next _ =>
    cases h
    exact ⟨s.pending, houseTick_moves s⟩
  next c r _ => exact ⟨r, .of_exec h⟩

/-- Settles O51: every command and every tick keeps the form, by the Keeps files. -/
theorem stepKeepsMemoryForm : Obligations.StepKeepsMemoryForm := by
  unfold Obligations.StepKeepsMemoryForm
  intro s t hs h
  obtain ⟨l, hm⟩ := Moves.of_step h
  exact hm.stays.mem hs

/-- Settles O52: every command and every tick keeps the soundness of the holders, by the Keeps files. -/
theorem stepKeepsOneHolder : Obligations.StepKeepsOneHolder := by
  unfold Obligations.StepKeepsOneHolder
  intro s t hs h
  obtain ⟨l, hm⟩ := Moves.of_step h
  exact hm.sound (holdersSound_pending hs)

/-- Settles O53: the bounds are parts of what every command and every tick keeps. -/
theorem stepKeepsBounds : Obligations.StepKeepsBounds := by
  unfold Obligations.StepKeepsBounds
  intro s t h
  obtain ⟨l, hm⟩ := Moves.of_step h
  exact ⟨hm.stays.phase, hm.stays.tokens, hm.stays.log, hm.stays.tests, hm.stays.tiles⟩

/-- Settles O54: fuses, queue and outputs are parts of what every command keeps. -/
theorem commandsKeepFuses : Obligations.CommandsKeepFuses := by
  unfold Obligations.CommandsKeepFuses
  intro c s t h
  have hm := (Moves.of_exec h).stays
  have hf := hm.fuses
  simp only [Ident.fuses, Prod.mk.injEq] at hf
  obtain ⟨hserial, hletter, hnumber, hsvn, huds⟩ := hf
  exact ⟨hserial, hletter, hnumber, hsvn, huds, hm.pending, hm.out⟩

/-- Settles O48: `step` takes the front of the queue by its definition. -/
theorem stepRunsFront : Obligations.StepRunsFront := by
  unfold Obligations.StepRunsFront
  intro c s
  rfl

/-- Settles O50: memory, tiles, log, queue and self-tests are empty at reset, every slot is closed, no hand-over runs. -/
theorem resetIsSound : Obligations.ResetIsSound := by
  unfold Obligations.ResetIsSound
  have hclosed : ∀ i : Slot, (State.reset.ctxOf i).state ≠ .holding := by decide
  refine ⟨rfl, ⟨fun i _ hi => absurd hi (hclosed i), fun _ _ i hi => absurd hi (hclosed i), fun _ _ _ i => hclosed i⟩, rfl, ?_⟩
  decide

/-! ### The contexts of other slots -/

/-- Every slot but one has the context it had. -/
def othersKept (i : Slot) (s t : State) : Prop := ∀ j, j ≠ i → t.ctxOf j = s.ctxOf j

section
variable {i : Slot} {s t u : State}

theorem othersKept_refl (i : Slot) (s : State) : othersKept i s s := fun _ _ => rfl

theorem othersKept_trans (h : othersKept i s t) (k : othersKept i t u) : othersKept i s u :=
  fun j hj => (k j hj).trans (h j hj)

theorem othersKept_of_ctx (h : t.ctx = s.ctx) : othersKept i s t := fun j _ => by simp only [State.ctxOf, h]

theorem othersKept_ite {c : Prop} [Decidable c] (ht : othersKept i s t) (hu : othersKept i s u) :
    othersKept i s (if c then t else u) := by
  split
  · exact ht
  · exact hu

theorem when'_others (g : Bool) {f : State → State} (h : othersKept i s (f s)) : othersKept i s (when' g f s) :=
  othersKept_ite h (othersKept_refl i s)

theorem foldl_others {α : Type} {f : State → α → State} (hf : ∀ s a, othersKept i s (f s a)) (l : List α) (s : State) :
    othersKept i s (l.foldl f s) := by
  induction l generalizing s with
  | nil => exact othersKept_refl i s
  | cons a l ih => exact othersKept_trans (hf s a) (ih _)

theorem modCtx_others (i : Slot) (f : Ctx → Ctx) (s : State) : othersKept i s (modCtx i f s) :=
  fun j hj => modCtx_ctxOf_other i j f s hj.symm

theorem modQueue_others (i : Slot) (q : QId) (f : Queue → Queue) (s : State) : othersKept i s (modQueue i q f s) :=
  modCtx_others i _ s

theorem reportCtx_others (i : Slot) (b : Option Nat) (e : Ev) (s : State) : othersKept i s (reportCtx i b e s) :=
  fun j hj => reportCtx_ctxOf_other i j b e s hj.symm

/-- An update of the slot's context after what keeps the others keeps them. -/
theorem othersKept_modCtx {f : Ctx → Ctx} (h : othersKept i s t) : othersKept i s (modCtx i f t) :=
  othersKept_trans h (modCtx_others i f t)

end

/-! ### Queue commands and the other slots -/

theorem refuseCmd_others {i : Slot} {q : QId} {idx : Nat} {e : Entry} {code : Code} {detail : Nat} {s : State} :
    othersKept i s (refuseCmd i q idx e code detail s) := by
  unfold refuseCmd holdRecord
  exact othersKept_modCtx <| othersKept_ite (reportCtx_others i _ _ s) <|
    othersKept_modCtx <| othersKept_of_ctx (report_ctx _ s)

theorem dropStale_others (i : Slot) (q : QId) (idx : Nat) (s : State) : othersKept i s (dropStale i q idx s) := by
  unfold dropStale
  exact othersKept_ite (othersKept_refl i s) (modQueue_others i q _ s)

theorem readHead_others (i : Slot) (q : QId) (s : State) : othersKept i s (readHead i q s) := by
  unfold readHead
  exact othersKept_ite (othersKept_trans (dropStale_others i q _ s) (dropStale_others i q _ _)) (dropStale_others i q _ s)

theorem consume_others (i : Slot) (q : QId) (r : Ready) (s : State) : othersKept i s (consume i q r s) :=
  modQueue_others i q _ s

theorem refuseHead_others (i : Slot) (q : QId) (s : State) : othersKept i s (refuseHead i q s) := by
  unfold refuseHead
  refine othersKept_ite (othersKept_refl i s) (othersKept_ite ?_ ?_)
  · exact othersKept_trans (modQueue_others i q _ s) refuseCmd_others
  · split
    · exact othersKept_refl i s
    · split
      · exact othersKept_refl i s
      · exact othersKept_trans (consume_others i q _ s) refuseCmd_others

/-- A command that starts keeps the other slots if its course does. -/
theorem startRow_others (op : Nat) {f : Slot → QId → Ready → State → State} (i : Slot) (q : QId) (s : State)
    (hf : ∀ r s, othersKept i s (f i q r s)) : othersKept i s (startRow op f i q s) := by
  unfold startRow
  refine othersKept_ite ?_ (othersKept_refl i s)
  have hread := readHead_others i q s
  dsimp only
  split
  · exact hread
  · exact othersKept_ite (othersKept_trans hread (othersKept_trans (consume_others i q _ _) (hf _ _))) hread

theorem completeCmd_others {i : Slot} {cmd : Cmd} {code : Code} {initiator detail : Nat} {s : State} :
    othersKept i s (completeCmd i cmd code initiator detail s) := by
  unfold completeCmd
  exact othersKept_ite (othersKept_trans (modCtx_others i _ s) (reportCtx_others i _ _ _)) (modCtx_others i _ s)

theorem atOnce_others {i : Slot} {q : QId} {r : Ready} {detail : Nat} {s : State} :
    othersKept i s (atOnce i q r detail s) :=
  othersKept_trans (modCtx_others i _ s) completeCmd_others

theorem cancelEntries_others (i : Slot) (q : QId) (s : State) : othersKept i s (cancelEntries i q s) := by
  unfold cancelEntries modQueue holdRecord
  refine othersKept_modCtx (foldl_others (fun s j => ?_) _ s)
  exact othersKept_ite (othersKept_refl i s) (othersKept_modCtx (reportCtx_others i _ _ s))

theorem cancelQueue_others (i : Slot) (q : QId) (s : State) : othersKept i s (cancelQueue i q s) := by
  unfold cancelQueue
  exact othersKept_ite (othersKept_refl i s) (othersKept_modCtx (cancelEntries_others i q s))

theorem latchQueue_others (i : Slot) (q : QId) (s : State) : othersKept i s (latchQueue i q s) := by
  unfold latchQueue
  exact othersKept_ite (modQueue_others i q _ s) (othersKept_trans (modQueue_others i q _ s) (reportCtx_others i _ _ _))

theorem endCancel_others (i : Slot) (q : QId) (s : State) : othersKept i s (endCancel i q s) :=
  othersKept_trans (modQueue_others i q _ s) (latchQueue_others i q _)

theorem enableRing_others (i : Slot) (s : State) : othersKept i s (enableRing i s) := by
  unfold enableRing
  exact othersKept_ite (modCtx_others i _ s) (othersKept_trans (modCtx_others i _ s) (reportCtx_others i _ _ _))

theorem headWrite_others (i : Slot) (h : BitVec 12) (s : State) : othersKept i s (headWrite i h s) :=
  modCtx_others i _ s

theorem writeRecord_others {i : Slot} {l : CqLatch} {x : CplRecord} {s : State} :
    othersKept i s (writeRecord i l x s) := by
  unfold writeRecord
  refine othersKept_trans ?_ (othersKept_of_ctx (emit_ctx _ _))
  exact othersKept_ite (othersKept_trans (modCtx_others i _ s) (othersKept_of_ctx (storeBytes_ctx _ _ _))) (modCtx_others i _ s)

theorem recordWritten_others (i : Slot) (s : State) : othersKept i s (recordWritten i s) := by
  unfold recordWritten
  exact othersKept_ite (othersKept_trans (modCtx_others i _ s) (othersKept_of_ctx (sendMsix_ctx _ _))) (modCtx_others i _ s)

theorem bindStart_others (i : Slot) (q : QId) (r : Ready) (s : State) : othersKept i s (bindStart i q r s) := by
  unfold bindStart refuseStart setModel
  split
  · exact refuseCmd_others
  · exact othersKept_ite refuseCmd_others (othersKept_trans (modCtx_others i _ s) atOnce_others)

theorem releaseStart_others (i : Slot) (q : QId) (r : Ready) (s : State) : othersKept i s (releaseStart i q r s) := by
  unfold releaseStart refuseStart setModel
  exact othersKept_ite refuseCmd_others (othersKept_trans (modCtx_others i _ s) atOnce_others)

theorem snapshotStart_others (i : Slot) (q : QId) (r : Ready) (s : State) : othersKept i s (snapshotStart i q r s) := by
  unfold snapshotStart refuseStart
  generalize logImage s i = log
  exact othersKept_ite refuseCmd_others fun j hj => (atOnce_others j hj).trans rfl

/-- Settles O55: each of these commands is built of updates of its own slot. -/
theorem otherSlotsKept : Obligations.OtherSlotsKept := by
  unfold Obligations.OtherSlotsKept
  intro c i j q s t hj hc h
  suffices hk : ∃ u, exec c s = .next u ∧ othersKept i s u by
    obtain ⟨u, hu, hk⟩ := hk
    cases hu.symm.trans h
    exact hk j hj
  obtain rfl | rfl | rfl | rfl | rfl | ⟨k, rfl⟩ | rfl | rfl | rfl | rfl | rfl := hc
  · exact ⟨_, rfl, when'_others _ (othersKept_trans (readHead_others i q s) (refuseHead_others i q _))⟩
  · exact ⟨_, rfl, startRow_others _ i q s fun _ _ => atOnce_others⟩
  · exact ⟨_, rfl, when'_others _ (cancelQueue_others i q s)⟩
  · exact ⟨_, rfl, when'_others _ (endCancel_others i q s)⟩
  · exact ⟨_, rfl, when'_others _ (enableRing_others i s)⟩
  · exact ⟨_, rfl, when'_others _ (headWrite_others i k s)⟩
  · refine ⟨_, rfl, ?_⟩
    split
    · exact othersKept_refl i s
    · exact writeRecord_others
  · exact ⟨_, rfl, when'_others _ (recordWritten_others i s)⟩
  · exact ⟨_, rfl, startRow_others _ i q s fun r s => bindStart_others i q r s⟩
  · exact ⟨_, rfl, startRow_others _ i q s fun r s => releaseStart_others i q r s⟩
  · exact ⟨_, rfl, startRow_others _ i q s fun r s => snapshotStart_others i q r s⟩

/-! ### The idle step -/

theorem step_idle {s : State} (h : s.pending = []) : step s = .next (houseTick s) := by
  unfold step
  rw [h]

theorem houseTick_up {s : State} (h : s.start.houseUp = true) :
    houseTick s = serveMgmt (serveWaiting (workTick { s with ticks := s.ticks + 1 })) := if_pos h

theorem serveWaiting_none {s : State} (h : s.sec.waiting = none) : serveWaiting s = s := by
  unfold serveWaiting
  rw [h]

/-- Behind a hand-over a waiting mailbox request goes on waiting. -/
theorem serveWaiting_handOver {s : State} (h : s.sec.handOver ≠ none) : serveWaiting s = s := by
  unfold serveWaiting
  split
  · rfl
  · rw [Option.isNone_eq_false_iff.2 (Option.isSome_iff_ne_none.2 h)]
    rfl

/-- With no hand-over the waiting mailbox request is served. -/
theorem serveWaiting_some {s : State} {op : Nat} {i : Slot} {req : Bytes} (h : s.sec.waiting = some (op, i, req))
    (hh : s.sec.handOver = none) (hb : bar0Up s = true) :
    serveWaiting s = serveRequest op (requestOf op) i req { s with sec := { s.sec with waiting := none } } := by
  unfold serveWaiting
  rw [h]
  dsimp only
  rw [hh, hb]
  rfl

theorem serveMgmt_nil {s : State} (h : s.sec.mgmtWaiting = []) : serveMgmt s = s := by
  unfold serveMgmt
  rw [h]
  rfl

/-- Behind a hand-over management requests go on waiting. -/
theorem serveMgmt_handOver {s : State} (h : s.sec.handOver ≠ none) : serveMgmt s = s := by
  unfold serveMgmt handsFree
  rw [Option.isNone_eq_false_iff.2 (Option.isSome_iff_ne_none.2 h), Bool.not_false, Bool.or_true]
  rfl

/-- With no hand-over one waiting management request runs. -/
theorem serveMgmt_one {s : State} {x : Nat × MgmtReq} (h : s.sec.mgmtWaiting = [x]) (hh : s.sec.handOver = none) :
    serveMgmt s = mgmtOf { s with sec := { s.sec with mgmtWaiting := [] } } x := by
  unfold serveMgmt handsFree
  rw [h, hh]
  rfl

/-- A waiting request of Table 12-13 runs as the row that carries it. -/
theorem next_mgmtOf {r : MgmtReq} {x : Nat × Instr} (hx : x ∈ mgmtRows r) (s : State) :
    .next (mgmtOf s (x.1, r)) = exec x.2 s := by
  have hrow : mgmtOutcome x.1 r s = exec x.2 s := by
    simp only [mgmtRows, List.mem_cons, List.not_mem_nil, or_false] at hx
    obtain rfl | rfl | rfl | rfl | rfl | rfl | rfl | rfl | rfl | rfl | rfl | rfl | rfl | rfl | rfl | rfl | rfl | rfl | rfl |
      rfl := hx <;> rfl
  obtain ⟨t, ht, -⟩ := exec_moves x.2 s
  unfold mgmtOf
  rw [hrow, ht]

/-! ### Background work of a tick (R405 to R407) -/

theorem workTick_off {s : State} (hb : backgroundOn s = false) (hc : inCurtain s = false) : workTick s = s := by
  unfold workTick
  simp [hb, hc]

theorem backgroundOn_curtain {s : State} (hc : inCurtain s = true) : backgroundOn s = false := by
  unfold backgroundOn
  simp [hc]

theorem inCurtain_none {s : State} (h : s.sec.handOver = none) : inCurtain s = false := by
  unfold inCurtain
  rw [h]

theorem workTick_sec (s : State) : (workTick s).sec = s.sec :=
  (workTick_frame changesOnly_refl (List.Subset.refl _)).2 .sec (by decide)

/-- A task that is late and has not been reported is reported. -/
theorem checkTask_late {s : State} {k : BgTask} {since : Nat}
    (h : (s.selfTest.work.find? fun x => x.1 == k) = some (k, since, false))
    (hl : 11 * periodOf k < 10 * (s.selfTest.workTicks - since)) :
    checkTask s k = report { code := 0x0C09, cue := (taskDetail k).1, value := (taskDetail k).2 }
      { s with selfTest := { s.selfTest with work := s.selfTest.work.map fun y => if y.1 = k then (k, y.2.1, true) else y } } := by
  unfold checkTask
  simp [h, hl]

/-- A task that is in time, or that has been reported, is left alone. -/
theorem checkTask_quiet {s : State} {k : BgTask} {since : Nat} {said : Bool}
    (h : (s.selfTest.work.find? fun x => x.1 == k) = some (k, since, said))
    (hq : said = true ∨ 10 * (s.selfTest.workTicks - since) ≤ 11 * periodOf k) : checkTask s k = s := by
  unfold checkTask
  simp only [h]
  rw [if_neg]
  simp only [Bool.and_eq_true, Bool.not_eq_true', decide_eq_true_eq]
  rintro ⟨hs, hl⟩
  obtain h | h := hq
  · simp [h] at hs
  · omega

theorem checkTask_workTicks (s : State) (k : BgTask) : (checkTask s k).selfTest.workTicks = s.selfTest.workTicks := by
  unfold checkTask
  dsimp only
  split
  · rfl
  · split
    · rw [report_selfTest]
    · rfl

/-- A check of a task adds no other task. -/
theorem checkTask_tasks {s : State} {k : BgTask} {x : BgTask × Nat × Bool} (hx : x ∈ (checkTask s k).selfTest.work) :
    x.1 = k ∨ ∃ y ∈ s.selfTest.work, x.1 = y.1 := by
  unfold checkTask at hx
  dsimp only at hx
  split at hx
  · obtain hx | hx := List.mem_append.1 hx
    · exact .inr ⟨x, hx, rfl⟩
    · rw [List.mem_singleton.1 hx]
      exact .inl rfl
  · split at hx
    · rw [report_selfTest] at hx
      obtain ⟨y, hy, rfl⟩ := List.mem_map.1 hx
      split
      · exact .inl rfl
      · exact .inr ⟨y, hy, rfl⟩
    · exact .inr ⟨x, hx, rfl⟩

/-- Checks of live tasks keep the count of ticks and list live tasks only. -/
theorem foldl_checkTask {live : List BgTask} (l : List BgTask) (hl : ∀ k ∈ l, k ∈ live) (s : State)
    (hs : ∀ x ∈ s.selfTest.work, x.1 ∈ live) :
    (l.foldl checkTask s).selfTest.workTicks = s.selfTest.workTicks ∧ ∀ x ∈ (l.foldl checkTask s).selfTest.work, x.1 ∈ live := by
  induction l generalizing s with
  | nil => exact ⟨rfl, hs⟩
  | cons k l ih =>
    have hstep : ∀ x ∈ (checkTask s k).selfTest.work, x.1 ∈ live := fun x hx => by
      obtain h | ⟨y, hy, h⟩ := checkTask_tasks hx
      · exact h ▸ hl k (.head _)
      · exact h ▸ hs y hy
    obtain ⟨ht, hw⟩ := ih (fun k hk => hl k (.tail _ hk)) _ hstep
    exact ⟨ht.trans (checkTask_workTicks s k), hw⟩

/-- Settles O49: the tick by its parts, background work, a mailbox request that waited, management requests that waited. -/
theorem idleStepTicks : Obligations.IdleStepTicks := by
  unfold Obligations.IdleStepTicks
  refine ⟨fun s hp hh => ?down, fun s hp hh hw hm => ?up, fun s op i req hp hh hw => ⟨fun ho => ?behind, fun ho hb hbg => ?served⟩,
    fun s r x hx hp hh hw ho hbg hm => ?mgmt, fun s hb hc => workTick_off hb hc, fun s hc => ?curtain, fun s hb => ?counts,
    fun s k since said hf => ⟨fun hs hl => ?late, fun hq => checkTask_quiet hf hq⟩⟩
  case down =>
    rw [step_idle hp, houseTick, hh]
    rfl
  case up =>
    rw [step_idle hp, houseTick_up hh, serveWaiting_none (by rw [workTick_sec]; exact hw),
      serveMgmt_nil (by rw [workTick_sec]; exact hm)]
  case behind =>
    have hk : (workTick { s with ticks := s.ticks + 1 }).sec.handOver ≠ none := by rw [workTick_sec]; exact ho
    rw [step_idle hp, houseTick_up hh, serveWaiting_handOver hk, serveMgmt_handOver hk]
  case served =>
    rw [step_idle hp, houseTick_up hh, workTick_off (s := { s with ticks := s.ticks + 1 }) hbg (inCurtain_none ho),
      serveWaiting_some (s := { s with ticks := s.ticks + 1 }) hw ho hb]
  case mgmt =>
    rw [step_idle hp, houseTick_up hh, workTick_off (s := { s with ticks := s.ticks + 1 }) hbg (inCurtain_none ho),
      serveWaiting_none (s := { s with ticks := s.ticks + 1 }) hw, serveMgmt_one (s := { s with ticks := s.ticks + 1 }) hm ho,
      next_mgmtOf hx]
  case curtain =>
    unfold workTick
    simp [backgroundOn_curtain hc, hc]
  case counts =>
    unfold workTick
    rw [if_pos hb]
    refine foldl_checkTask (live := liveTasks s) _ (fun _ hk => hk) _ fun x hx => ?_
    exact List.contains_iff_mem.1 (List.mem_filter.1 hx).2
  case late =>
    subst hs
    rw [checkTask_late hf hl, report_log]
    rfl

end Sys2Proof.Machine

/-! SUPPORT. The frames of the commands, chapter by chapter, over the Frame files. -/

namespace Sys2Proof.Machine

open Sys2Proof

/-- Settles O42: each row of start-up, supplies, clocks, power and cooling has its frame lemma, and the parts named there are among those of its clause. -/
theorem startUpAndSupplyFrames : Obligations.StartUpAndSupplyFrames := by
  unfold Obligations.StartUpAndSupplyFrames
  refine ⟨?_, ?_, ?_, ?_, ?_, ?_, ?_, ?_, ?_, ?_, ?_, ?_, ?_, ?_, ?_, ?_, ?_, ?_, ?_, ?_, ?_, ?_, ?_, ?_, ?_, ?_, ?_, ?_, ?_, ?_, ?_, ?_, ?_, ?_, ?_, ?_, ?_, ?_, ?_, ?_, ?_⟩
  · rintro _ s (⟨x, rfl⟩ | rfl)
    · exact execHouseRstNAssert_frame x
    · exact execInputPowerLoss_frame
  · rintro _ s rfl
    exact execHouseRstNRise_frame
  · rintro _ s rfl
    exact execKeysUp_frame
  · rintro _ s ⟨x, rfl⟩
    exact execCoolantGateStart_frame x
  · rintro _ s (rfl | rfl)
    · exact execCoolantGatePass_frame
    · exact execCredentialWindowExpire_frame
  · rintro _ s rfl
    exact execCoolantGateTimeout_frame
  · rintro _ s ⟨x, rfl⟩
    exact execDeckZoneUp_frame x
  · rintro _ s ⟨x0, x1, rfl⟩
    exact execDeckCheck_frame x0 x1
  · rintro _ s ⟨x, rfl⟩
    exact execStackBringUp_frame x
  · rintro _ s rfl
    exact execStackInitialisationDone_frame
  · rintro _ s rfl
    exact execPwrGoodLoss_frame
  · rintro _ s rfl
    exact execPwrGoodRestore_frame
  · rintro _ s rfl
    exact execTrayRelease_frame
  · rintro _ s rfl
    exact execTrayReleaseWithdrawn_frame
  · rintro _ s ⟨x0, x1, rfl⟩
    exact execAlertPinAssert_frame x0 x1
  · rintro _ s rfl
    exact execOscillatorRetune_frame
  · rintro _ s (⟨x, rfl⟩ | ⟨x, rfl⟩ | ⟨x, rfl⟩)
    · exact execAlertPinClear_frame x
    · exact execThermalRampCheck_frame x
    · exact execEnergyAccumulate_frame x
  · rintro _ s (⟨x, rfl⟩ | rfl)
    · exact execClampRelease_frame x
    · exact execLeaseExpire_frame
  · rintro _ s ⟨x, rfl⟩
    exact execDeckZoneLoss_frame x
  · rintro _ s ⟨x, rfl⟩
    exact execDieSupplyTrip_frame x
  · rintro _ s ⟨x0, x1, rfl⟩
    exact execMarginSample_frame x0 x1
  · rintro _ s ⟨x, rfl⟩
    exact execDieIsolation_frame x
  · rintro _ s ⟨x, rfl⟩
    exact execDieRegulatorLatchOff_frame x
  · rintro _ s ⟨x, rfl⟩
    exact execDieRailRampStart_frame x
  · rintro _ s (⟨x, rfl⟩ | ⟨x, rfl⟩)
    · exact execDieRailsUp_frame x
    · exact execThermalModelAdvance_frame x
  · rintro _ s ⟨x0, x1, rfl⟩
    exact execDieClockLockTimeout_frame x0 x1
  · rintro _ s ⟨x, rfl⟩
    exact execPowerControlInterval_frame x
  · rintro _ s ⟨x, rfl⟩
    exact execDeferredSleepStop_frame x
  · rintro _ s ⟨x0, x1, rfl⟩
    exact execDroopDetect_frame x0 x1
  · rintro _ s ⟨x, rfl⟩
    exact execDroopRecover_frame x
  · rintro _ s ⟨x, rfl⟩
    exact execTelemetryUpdate_frame x
  · rintro _ s ⟨x, rfl⟩
    exact execSensorSample_frame x
  · rintro _ s (rfl | rfl | ⟨x, rfl⟩ | rfl | rfl)
    · exact execThrottleStep_frame
    · exact execThrottleClampTimeout_frame
    · exact execTrayRead_frame x
    · exact execTrayReadingStale_frame
    · exact execFlowClampClear_frame
  · rintro _ s (rfl | rfl)
    · exact execThermalTrip_frame
    · exact execFlowPowerOff_frame
  · rintro _ s ⟨x0, x1, rfl⟩
    exact execSensorPairRetest_frame x0 x1
  · rintro _ s rfl
    exact execHeatForecast_frame
  · rintro _ s rfl
    exact execSuddenStopRecover_frame
  · rintro _ s rfl
    exact execCoolantHalt_frame
  · rintro _ s rfl
    exact execHalted_frame
  · rintro _ s rfl
    exact execHaltExit_frame
  · rintro _ s ⟨x, rfl⟩
    exact execHeatBalanceCheck_frame x

/-- Settles O43: each row of the loader, faults, field tests and the registers has its frame lemma, and the parts named there are among those of its clause. -/
theorem loaderAndFaultFrames : Obligations.LoaderAndFaultFrames := by
  unfold Obligations.LoaderAndFaultFrames
  refine ⟨?_, ?_, ?_, ?_, ?_, ?_, ?_, ?_, ?_, ?_, ?_, ?_, ?_, ?_, ?_, ?_, ?_, ?_⟩
  · rintro _ s (⟨x, rfl⟩ | ⟨x, rfl⟩)
    · exact execStage_frame x
    · exact execUnstage_frame x
  · rintro _ s (⟨x0, x1, rfl⟩ | rfl | rfl)
    · exact execLoadGoReservedOp_frame x0 x1
    · exact execUnstageDone_frame
    · exact execLoadStatusRead_frame
  · rintro _ s rfl
    exact execChartCheckDone_frame
  · rintro _ s rfl
    exact execChartInstallComplete_frame
  · rintro _ s rfl
    exact execRegionRestage_frame
  · rintro _ s ⟨x, rfl⟩
    exact execSelfTestStart_frame x
  · rintro _ s ⟨x0, x1, rfl⟩
    exact execSelfTestResult_frame x0 x1
  · rintro _ s ⟨x, rfl⟩
    exact execBackgroundScrub_frame x
  · rintro _ s (⟨x, rfl⟩ | ⟨x0, x1, rfl⟩)
    · exact execDeckWeightRecheck_frame x
    · exact execModelStoreRecheck_frame x0 x1
  · rintro _ s (⟨x, rfl⟩ | ⟨x0, x1, rfl⟩)
    · exact execHeartbeatSend_frame x
    · exact execMeshCrcError_frame x0 x1
  · rintro _ s ⟨x0, x1, rfl⟩
    exact execHeartbeatReceive_frame x0 x1
  · rintro _ s ⟨x, rfl⟩
    exact execTileSilent_frame x
  · rintro _ s ⟨x0, x1, rfl⟩
    exact execMeshReplayReq_frame x0 x1
  · rintro _ s rfl
    exact execCurtainEnd_frame
  · rintro _ s ⟨x, rfl⟩
    exact execEvIndexWrite_frame x
  · rintro _ s (rfl | rfl | rfl | rfl)
    · exact execFieldTileCheck_frame
    · exact execFieldCellColumnBist_frame
    · exact execFieldDeckCheck_frame
    · exact execFieldStackMarch_frame
  · rintro _ s ⟨x0, x1, x2, rfl⟩
    exact execFieldTestComplete_frame x0 x1 x2
  · rintro _ s ⟨x0, x1, rfl⟩
    exact execRegisterWrite_frame x0 x1

/-- Settles O44: each row of cues, passes, weights and shards has its frame lemma, and the parts named there are among those of its clause. -/
theorem cueAndWeightFrames : Obligations.CueAndWeightFrames := by
  unfold Obligations.CueAndWeightFrames
  refine ⟨?_, ?_, ?_, ?_, ?_, ?_, ?_, ?_, ?_, ?_, ?_, ?_, ?_, ?_, ?_, ?_, ?_⟩
  · rintro _ s rfl
    exact execReplayOpenLayer_frame
  · rintro _ s ⟨x0, x1, x2, rfl⟩
    exact execCueIssue_frame x0 x1 x2
  · rintro _ s ⟨x, rfl⟩
    exact execDeferredEntryComplete_frame x
  · rintro _ s ⟨x0, x1, x2, rfl⟩
    exact execCueComplete_frame x0 x1 x2
  · rintro _ s ⟨x0, x1, x2, rfl⟩
    exact execRouteSignalArrive_frame x0 x1 x2
  · rintro _ s ⟨x, rfl⟩
    exact execPrompterWaitLong_frame x
  · rintro _ s rfl
    exact execPassComplete_frame
  · rintro _ s ⟨x0, x1, rfl⟩
    exact execRunPass_frame x0 x1
  · rintro _ s (⟨x0, x1, rfl⟩ | ⟨x0, x1, rfl⟩)
    · exact execBindManifest_frame x0 x1
    · exact execReleaseModel_frame x0 x1
  · rintro _ s (⟨x0, x1, rfl⟩ | ⟨x0, x1, rfl⟩)
    · exact execLoadModel_frame x0 x1
    · exact execSwapModel_frame x0 x1
  · rintro _ s rfl
    exact execSwapLayerReplace_frame
  · rintro _ s ⟨x0, x1, rfl⟩
    exact execShardData_frame x0 x1
  · rintro _ s ⟨x0, x1, rfl⟩
    exact execShardNack_frame x0 x1
  · rintro _ s (⟨x, rfl⟩ | ⟨x, rfl⟩)
    · exact execShardReqTimeout_frame x
    · exact execShardRetryGap_frame x
  · rintro _ s ⟨x0, x1, rfl⟩
    exact execShardAck_frame x0 x1
  · rintro _ s ⟨x0, x1, rfl⟩
    exact execPatchAckTimeout_frame x0 x1
  · rintro _ s rfl
    exact execPilotStreamEnd_frame

/-- Settles O45: each row of reductions and collectives has its frame lemma, and the parts named there are among those of its clause. -/
theorem groupFrames : Obligations.GroupFrames := by
  unfold Obligations.GroupFrames
  refine ⟨?_, ?_, ?_, ?_, ?_, ?_, ?_, ?_, ?_, ?_, ?_⟩
  · rintro _ s ⟨x0, x1, rfl⟩
    exact execReduceShards_frame x0 x1
  · rintro _ s (⟨x0, x1, rfl⟩ | ⟨x0, x1, rfl⟩ | ⟨x0, x1, rfl⟩ | ⟨x0, x1, rfl⟩ | ⟨x0, x1, rfl⟩ | ⟨x0, x1, x2, rfl⟩ | ⟨x0, x1, x2, rfl⟩ | ⟨x0, x1, x2, rfl⟩ | ⟨x0, x1, x2, x3, rfl⟩ | ⟨x0, x1, rfl⟩ | ⟨x0, x1, rfl⟩ | ⟨x0, x1, rfl⟩)
    · exact execCounts_frame x0 x1
    · exact execScalarSum_frame x0 x1
    · exact execBroadcast_frame x0 x1
    · exact execBarrier_frame x0 x1
    · exact execHopCancel_frame x0 x1
    · exact execCountsVec_frame x0 x1 x2
    · exact execScalarVec_frame x0 x1 x2
    · exact execBcastChunk_frame x0 x1 x2
    · exact execBcastEnd_frame x0 x1 x2 x3
    · exact execBcastDone_frame x0 x1
    · exact execArrive_frame x0 x1
    · exact execBcastReq_frame x0 x1
  · rintro _ s (⟨x0, x1, rfl⟩ | ⟨x, rfl⟩)
    · exact execAbortSymbol_frame x0 x1
    · exact execOpenRetry_frame x
  · rintro _ s (⟨x0, x1, rfl⟩ | ⟨x0, x1, rfl⟩ | ⟨x, rfl⟩)
    · exact execOpenReply_frame x0 x1
    · exact execHopAck_frame x0 x1
    · exact execCollectiveTimeout_frame x
  · rintro _ s ⟨x0, x1, rfl⟩
    exact execScaleNotice_frame x0 x1
  · rintro _ s (⟨x0, x1, rfl⟩ | ⟨x, rfl⟩)
    · exact execBounce_frame x0 x1
    · exact execRingContributionTimeout_frame x
  · rintro _ s (⟨x0, x1, rfl⟩ | ⟨x0, x1, rfl⟩ | ⟨x, rfl⟩ | ⟨x0, x1, x2, x3, rfl⟩ | ⟨x0, x1, rfl⟩ | ⟨x, rfl⟩ | ⟨x, rfl⟩)
    · exact execResult_frame x0 x1
    · exact execNoBlock_frame x0 x1
    · exact execResultTimeout_frame x
    · exact execRingPartial_frame x0 x1 x2 x3
    · exact execCancelAck_frame x0 x1
    · exact execHopTimeout_frame x
    · exact execPartialHoldTimeout_frame x
  · rintro _ s (rfl | ⟨x, rfl⟩)
    · exact execReduceShardsComplete_frame
    · exact execBcastReqRound_frame x
  · rintro _ s ⟨x0, x1, rfl⟩
    exact execResultReq_frame x0 x1
  · rintro _ s ⟨x0, x1, rfl⟩
    exact execResultAck_frame x0 x1
  · rintro _ s ⟨x, rfl⟩
    exact execAbortWaitExpire_frame x

/-- Settles O46: each row of ports, host attach, queues and LOG_SNAPSHOT has its frame lemma, and the parts named there are among those of its clause. -/
theorem portAndQueueFrames : Obligations.PortAndQueueFrames := by
  unfold Obligations.PortAndQueueFrames
  refine ⟨?_, ?_, ?_, ?_, ?_, ?_, ?_, ?_, ?_, ?_, ?_, ?_, ?_, ?_, ?_, ?_, ?_, ?_⟩
  · rintro _ s ⟨x0, x1, rfl⟩
    exact execQueueEntryWrite_frame x0 x1
  · rintro _ s (⟨x0, x1, rfl⟩ | ⟨x0, x1, rfl⟩ | ⟨x0, x1, rfl⟩ | ⟨x0, x1, rfl⟩ | ⟨x, rfl⟩ | rfl | ⟨x, rfl⟩)
    · exact execEntryRefusal_frame x0 x1
    · exact execNop_frame x0 x1
    · exact execQueueCancel_frame x0 x1
    · exact execQueueCancelComplete_frame x0 x1
    · exact execCqEnable_frame x
    · exact execActiveLinkDown_frame
    · exact execCxlPortReset_frame x
  · rintro _ s ⟨x0, x1, rfl⟩
    exact execLogSnapshot_frame x0 x1
  · rintro _ s ⟨x, rfl⟩
    exact execCompletionRecordWrite_frame x
  · rintro _ s ⟨x, rfl⟩
    exact execCompletionWriteDone_frame x
  · rintro _ s ⟨x0, x1, rfl⟩
    exact execCqHeadWrite_frame x0 x1
  · rintro _ s (⟨x, rfl⟩ | rfl | rfl | ⟨x0, x1, rfl⟩ | rfl | ⟨x, rfl⟩ | ⟨x0, x1, rfl⟩ | ⟨x0, x1, rfl⟩ | ⟨x0, x1, x2, rfl⟩)
    · exact execTakeOver_frame x
    · exact execFailover_frame
    · exact execAutoFailoverTimeout_frame
    · exact execStandbyLinkUp_frame x0 x1
    · exact execFailoverRecordsWritten_frame
    · exact execStandbyAccess_frame x
    · exact execHdmAccessOutside_frame x0 x1
    · exact execIdeKm_frame x0 x1
    · exact execActiveLinkReturn_frame x0 x1 x2
  · rintro _ s (⟨x0, x1, rfl⟩ | ⟨x, rfl⟩ | ⟨x, rfl⟩)
    · exact execDoeDiscovery_frame x0 x1
    · exact execCdatTableAccess_frame x
    · exact execTrainingResend_frame x
  · rintro _ s rfl
    exact execPatternGo_frame
  · rintro _ s rfl
    exact execPatternStop_frame
  · rintro _ s (⟨x, rfl⟩ | ⟨x0, x1, rfl⟩)
    · exact execPortTrain_frame x
    · exact execTestReq_frame x0 x1
  · rintro _ s (⟨x, rfl⟩ | ⟨x0, x1, rfl⟩ | ⟨x0, x1, rfl⟩ | ⟨x0, x1, x2, rfl⟩ | ⟨x0, x1, x2, rfl⟩ | ⟨x0, x1, rfl⟩ | ⟨x0, x1, x2, x3, x4, rfl⟩ | ⟨x, rfl⟩ | ⟨x0, x1, rfl⟩ | ⟨x, rfl⟩ | ⟨x, rfl⟩ | ⟨x, rfl⟩)
    · exact execPortDisable_frame x
    · exact execPmdTrained_frame x0 x1
    · exact execIdBlock_frame x0 x1
    · exact execBerTestEnd_frame x0 x1 x2
    · exact execTestResult_frame x0 x1 x2
    · exact execKeyFinish_frame x0 x1
    · exact execCreditInit_frame x0 x1 x2 x3 x4
    · exact execReady_frame x
    · exact execTrainingFlitDiscard_frame x0 x1
    · exact execCodewordLockLoss_frame x
    · exact execFarEndDown_frame x
    · exact execFramingLockLost_frame x
  · rintro _ s (⟨x0, x1, rfl⟩ | ⟨x0, x1, rfl⟩)
    · exact execPreFecMonitor_frame x0 x1
    · exact execHopRekey_frame x0 x1
  · rintro _ s ⟨x, rfl⟩
    exact execFramingLock_frame x
  · rintro _ s (⟨x, rfl⟩ | ⟨x, rfl⟩)
    · exact execKeyHello_frame x
    · exact execHopKeyLimit_frame x
  · rintro _ s ⟨x0, x1, rfl⟩
    exact execKeyReply_frame x0 x1
  · rintro _ s (⟨x0, x1, rfl⟩ | ⟨x0, x1, rfl⟩ | ⟨x, rfl⟩)
    · exact execDataFlitReceive_frame x0 x1
    · exact execNakReceive_frame x0 x1
    · exact execAckTimeout_frame x
  · rintro _ s rfl
    exact execStandbyLinkDown_frame

/-- Settles O47: each row of contexts, the mailbox, management and the NV store has its frame lemma, and the parts named there are among those of its clause. -/
theorem contextFrames : Obligations.ContextFrames := by
  unfold Obligations.ContextFrames
  refine ⟨?_, ?_, ?_, ?_, ?_, ?_, ?_, ?_, ?_, ?_, ?_, ?_, ?_, ?_, ?_, ?_, ?_⟩
  · rintro _ s ⟨x, rfl⟩
    exact execNvUpkeep_frame x
  · rintro _ s ⟨x0, x1, rfl⟩
    exact execOpenContext_frame x0 x1
  · rintro _ s (⟨x0, x1, rfl⟩ | ⟨x, rfl⟩)
    · exact execCloseContext_frame x0 x1
    · exact execMgmtCloseContext_frame x
  · rintro _ s (⟨x0, x1, rfl⟩ | ⟨x0, x1, rfl⟩ | ⟨x, rfl⟩)
    · exact execSwitchContext_frame x0 x1
    · exact execRemoveKey_frame x0 x1
    · exact execMgmtSwitchContext_frame x
  · rintro _ s rfl
    exact execGraceExpire_frame
  · rintro _ s ⟨x, rfl⟩
    exact execCurtainStart_frame x
  · rintro _ s (⟨x, rfl⟩ | ⟨x0, x1, rfl⟩ | ⟨x0, x1, rfl⟩ | ⟨x0, x1, rfl⟩ | ⟨x, rfl⟩ | ⟨x, rfl⟩ | ⟨x, rfl⟩ | ⟨x, rfl⟩ | ⟨x, rfl⟩ | ⟨x, rfl⟩ | ⟨x, rfl⟩ | ⟨x, rfl⟩ | ⟨x, rfl⟩)
    · exact execZeroFillDone_frame x
    · exact execGroupEnroll_frame x0 x1
    · exact execGetPlaneRecords_frame x0 x1
    · exact execGetCerts_frame x0 x1
    · exact execGetTelemetry_frame x
    · exact execGetEvents_frame x
    · exact execStartScrub_frame x
    · exact execSetSwitchRoot_frame x
    · exact execFirmwareBegin_frame x
    · exact execFirmwareChunk_frame x
    · exact execEnrollCredential_frame x
    · exact execRevokeCredential_frame x
    · exact execEraseGroupKeys_frame x
  · rintro _ s (⟨x0, x1, rfl⟩ | ⟨x0, x1, rfl⟩)
    · exact execGetReport_frame x0 x1
    · exact execInstallKey_frame x0 x1
  · rintro _ s (⟨x, rfl⟩ | ⟨x, rfl⟩ | ⟨x, rfl⟩)
    · exact execSetPowerCap_frame x
    · exact execSetSlew_frame x
    · exact execSetOrphanCap_frame x
  · rintro _ s (⟨x, rfl⟩ | ⟨x, rfl⟩)
    · exact execStoreNv_frame x
    · exact execFirmwareCommit_frame x
  · rintro _ s rfl
    exact execStoreRequest_frame
  · rintro _ s ⟨x, rfl⟩
    exact execResetEngine_frame x
  · rintro _ s ⟨x, rfl⟩
    exact execSetCabling_frame x
  · rintro _ s ⟨x, rfl⟩
    exact execDebugChallenge_frame x
  · rintro _ s ⟨x, rfl⟩
    exact execDebugUnlock_frame x
  · rintro _ s (rfl | rfl)
    · exact execNvWriteStart_frame
    · exact execWearTokenGain_frame
  · rintro _ s ⟨x, rfl⟩
    exact execNvStoreComplete_frame x

end Sys2Proof.Machine

/-! SUPPORT. What a frame gives, part by part, and what a report gives beside the log: the rules that the statements below cite. -/

namespace Sys2Proof.Machine

open Sys2Proof

/-! ### The parts outside a frame's list -/

theorem not_mem_of_contains {L : List Block} {b : Block} (h : L.contains b = false) : b ∉ L := fun hb =>
  Bool.false_ne_true (h.symm.trans (List.contains_iff_mem.2 hb))

section
variable {L : List Block} {s t : State}

theorem changesOnly.free (h : changesOnly L s t) (hb : L.contains Block.free = false) : t.free = s.free := h.2 .free (not_mem_of_contains hb)
theorem changesOnly.out (h : changesOnly L s t) (hb : L.contains Block.out = false) : t.out = s.out := h.2 .out (not_mem_of_contains hb)
theorem changesOnly.ticks (h : changesOnly L s t) (hb : L.contains Block.ticks = false) : t.ticks = s.ticks := h.2 .ticks (not_mem_of_contains hb)
theorem changesOnly.ident (h : changesOnly L s t) (hb : L.contains Block.ident = false) : t.ident = s.ident := h.2 .ident (not_mem_of_contains hb)
theorem changesOnly.start (h : changesOnly L s t) (hb : L.contains Block.start = false) : t.start = s.start := h.2 .start (not_mem_of_contains hb)
theorem changesOnly.log (h : changesOnly L s t) (hb : L.contains Block.log = false) : t.log = s.log := h.2 .log (not_mem_of_contains hb)
theorem changesOnly.host (h : changesOnly L s t) (hb : L.contains Block.host = false) : t.host = s.host := h.2 .host (not_mem_of_contains hb)
theorem changesOnly.ctx (h : changesOnly L s t) (hb : L.contains Block.ctx = false) : t.ctx = s.ctx := h.2 .ctx (not_mem_of_contains hb)
theorem changesOnly.sec (h : changesOnly L s t) (hb : L.contains Block.sec = false) : t.sec = s.sec := h.2 .sec (not_mem_of_contains hb)
theorem changesOnly.loader (h : changesOnly L s t) (hb : L.contains Block.loader = false) : t.loader = s.loader := h.2 .loader (not_mem_of_contains hb)
theorem changesOnly.installed (h : changesOnly L s t) (hb : L.contains Block.installed = false) : t.installed = s.installed := h.2 .installed (not_mem_of_contains hb)
theorem changesOnly.tiles (h : changesOnly L s t) (hb : L.contains Block.tiles = false) : t.tiles = s.tiles := h.2 .tiles (not_mem_of_contains hb)
theorem changesOnly.dies (h : changesOnly L s t) (hb : L.contains Block.dies = false) : t.dies = s.dies := h.2 .dies (not_mem_of_contains hb)
theorem changesOnly.links (h : changesOnly L s t) (hb : L.contains Block.links = false) : t.links = s.links := h.2 .links (not_mem_of_contains hb)
theorem changesOnly.signals (h : changesOnly L s t) (hb : L.contains Block.signals = false) : t.signals = s.signals := h.2 .signals (not_mem_of_contains hb)
theorem changesOnly.defects (h : changesOnly L s t) (hb : L.contains Block.defects = false) : t.defects = s.defects := h.2 .defects (not_mem_of_contains hb)
theorem changesOnly.selfTest (h : changesOnly L s t) (hb : L.contains Block.selfTest = false) : t.selfTest = s.selfTest := h.2 .selfTest (not_mem_of_contains hb)
theorem changesOnly.mem (h : changesOnly L s t) (hb : L.contains Block.mem = false) : t.mem = s.mem := h.2 .mem (not_mem_of_contains hb)
theorem changesOnly.power (h : changesOnly L s t) (hb : L.contains Block.power = false) : t.power = s.power := h.2 .power (not_mem_of_contains hb)
theorem changesOnly.thermal (h : changesOnly L s t) (hb : L.contains Block.thermal = false) : t.thermal = s.thermal := h.2 .thermal (not_mem_of_contains hb)
theorem changesOnly.nv (h : changesOnly L s t) (hb : L.contains Block.nv = false) : t.nv = s.nv := h.2 .nv (not_mem_of_contains hb)
theorem changesOnly.ports (h : changesOnly L s t) (hb : L.contains Block.ports = false) : t.ports = s.ports := h.2 .ports (not_mem_of_contains hb)
theorem changesOnly.fabricGroup (h : changesOnly L s t) (hb : L.contains Block.fabricGroup = false) : t.fabricGroup = s.fabricGroup := h.2 .fabricGroup (not_mem_of_contains hb)
theorem changesOnly.pattern (h : changesOnly L s t) (hb : L.contains Block.pattern = false) : t.pattern = s.pattern := h.2 .pattern (not_mem_of_contains hb)
theorem changesOnly.field (h : changesOnly L s t) (hb : L.contains Block.field = false) : t.field = s.field := h.2 .field (not_mem_of_contains hb)
theorem changesOnly.coll (h : changesOnly L s t) (hb : L.contains Block.coll = false) : t.coll = s.coll := h.2 .coll (not_mem_of_contains hb)
theorem changesOnly.observed (h : changesOnly L s t) (hb : L.contains Block.observed = false) : t.observed = s.observed := h.2 .observed (not_mem_of_contains hb)
theorem changesOnly.snapshots (h : changesOnly L s t) (hb : L.contains Block.snapshots = false) : t.snapshots = s.snapshots := h.2 .snapshots (not_mem_of_contains hb)
theorem changesOnly.badShards (h : changesOnly L s t) (hb : L.contains Block.badShards = false) : t.badShards = s.badShards := h.2 .badShards (not_mem_of_contains hb)

theorem changesOnly.ctxOf (h : changesOnly L s t) (hb : L.contains Block.ctx = false) (i : Slot) : t.ctxOf i = s.ctxOf i := by
  simp only [State.ctxOf, h.ctx hb]

theorem changesOnly.portOf (h : changesOnly L s t) (hb : L.contains Block.ports = false) (p : PortId) :
    t.portOf p = s.portOf p := by
  simp only [State.portOf, h.ports hb]

theorem changesOnly.dieOf (h : changesOnly L s t) (hb : L.contains Block.dies = false) (d : DieId) : t.dieOf d = s.dieOf d := by
  simp only [State.dieOf, h.dies hb]

theorem changesOnly.tileOf (h : changesOnly L s t) (hb : L.contains Block.tiles = false) (i : TileId) :
    t.tileOf i = s.tileOf i := by
  simp only [State.tileOf, h.tiles hb]

end

/-! ### Records of the log -/

theorem mem_pushRec (l : EventLog) (r : EventRec) : r ∈ (pushRec l r).records := by
  unfold pushRec
  simp

/-- An event's record is that of an earlier state where log, clock and start block are. -/
theorem changesOnly.recordOf {L : List Block} {s t : State} (h : changesOnly L s t)
    (hb : (L.contains Block.log || L.contains Block.ticks || L.contains Block.start) = false) (e : Ev) :
    recordOf e t = Machine.recordOf e s := by
  simp only [Bool.or_eq_false_iff] at hb
  obtain ⟨⟨hl, ht⟩, hs⟩ := hb
  exact recordOf_congr e (h.log hl) (h.ticks ht) (h.start hs)

/-- What a report adds to the log is among its records. -/
theorem report_recorded (e : Ev) (s : State) : ∃ r ∈ (report e s).log.records, r.code = e.code ∧ r.value = BitVec.ofNat 64 e.value :=
  ⟨recordOf e s, by rw [report_log]; exact mem_pushRec _ _, rfl, rfl⟩

theorem report_changes (e : Ev) (s : State) : changesOnly [.host, .out, .log] s (report e s) :=
  report_frame e changesOnly_refl (List.Subset.refl _)

/-! ### The units' own registers under their reports -/

/-- A status field after bit `b`, if an event has one, has risen. -/
def withBit {w : Nat} (f : BitVec w) : Option Nat → BitVec w
  | none => f
  | some i => f ||| (1 <<< i)

@[simp] theorem reportPower_power (b : Option Nat) (e : Ev) (s : State) :
    (reportPower b e s).power = { s.power with events := withBit s.power.events b } := by
  unfold reportPower
  cases b with
  | none => simp [withBit]
  | some i => dsimp only; split <;> simp [withBit]

@[simp] theorem reportThermal_thermal (b : Option Nat) (e : Ev) (s : State) :
    (reportThermal b e s).thermal = { s.thermal with events := withBit s.thermal.events b } := by
  unfold reportThermal
  cases b with
  | none => simp [withBit]
  | some i => dsimp only; split <;> simp [withBit]

@[simp] theorem reportNv_nv (b : Option Nat) (e : Ev) (s : State) :
    (reportNv b e s).nv = { s.nv with lastCode := e.code, events := withBit s.nv.events b } := by
  unfold reportNv
  cases b with
  | none => simp [withBit]
  | some i => dsimp only; split <;> simp [withBit]

/-! ### The clamp (R336 to R339) -/

theorem assertClamp_changes (src : BitVec 4) (s : State) : changesOnly [.out, .log, .host, .power] s (assertClamp src s) :=
  assertClamp_frame src changesOnly_refl (List.Subset.refl _)

/-- The power block under a clamp: the source joins, the point is the slowest, ballast is off, and an entry is counted. -/
@[simp] theorem assertClamp_power (src : BitVec 4) (s : State) : (assertClamp src s).power = { s.power with
    src := s.power.src ||| src, seen := s.power.seen ||| src, clamped := true, point := 18, dither := 0, ballast := 0,
    clampCount := if s.power.clamped then s.power.clampCount else satInc s.power.clampCount,
    lifeClamps := if s.power.clamped then s.power.lifeClamps else satInc s.power.lifeClamps,
    events := if s.power.clamped then s.power.events else s.power.events ||| 1 } := by
  unfold assertClamp
  cases s.power.clamped <;> simp [withBit]

/-- The entry into a clamp is reported with the mask of its sources, and later sources are not (R339). -/
theorem assertClamp_log (src : BitVec 4) (s : State) : (assertClamp src s).log =
    if s.power.clamped then s.log
    else pushRec s.log (recordOf { code := 0x0A01, value := (s.power.src ||| src).toNat } s) := by
  unfold assertClamp
  cases s.power.clamped <;> simp
  rfl

/-! ### Folds and completions -/

/-- What every step of a fold leaves alone, the fold leaves alone. -/
theorem foldl_same {α β : Type} {g : State → β} {f : State → α → State} (hf : ∀ s a, g (f s a) = g s) (l : List α) (s : State) :
    g (l.foldl f s) = g s := by
  induction l generalizing s with
  | nil => rfl
  | cons a l ih => exact (ih _).trans (hf s a)

/-- A completion takes the command off the running ones and holds its record for the ring (R281, R284). -/
theorem completeCmd_acts (i : Slot) (cmd : Cmd) (code : Code) (initiator detail : Nat) (s : State) :
    ((completeCmd i cmd code initiator detail s).ctxOf i).running = (s.ctxOf i).running.erase cmd ∧
    ∃ fv, ((completeCmd i cmd code initiator detail s).ctxOf i).cq.held =
      (s.ctxOf i).cq.held ++ [cplRecord cmd code initiator detail fv] := by
  unfold completeCmd
  dsimp only
  split
  · rw [reportCtx_ctxOf_same, modCtx_ctxOf_same]
    exact ⟨rfl, _, rfl⟩
  · rw [modCtx_ctxOf_same]
    exact ⟨rfl, _, rfl⟩

/-- A command that fails raises no fence and reports nothing by its completion. -/
theorem completeCmd_failed (i : Slot) (cmd : Cmd) {code : Code} (initiator detail : Nat) (s : State) (h : (code == 0) = false) :
    completeCmd i cmd code initiator detail s = modCtx i (fun c => { c with
      running := c.running.erase cmd,
      cq := { c.cq with held := c.cq.held ++
        [cplRecord cmd code initiator detail (raiseFence (look 0 (s.ctxOf i).fences cmd.signalFence) cmd.signalValue)] } }) s := by
  unfold completeCmd
  rw [h]
  rfl

end Sys2Proof.Machine

/-! SUPPORT. Reset, the ROM, the steps of start-up and what ends them (chapter 16 and R393, R394). -/

namespace Sys2Proof.Machine

open Sys2Proof

/-! ### Reset (R413, R414) -/

/-- What survives a reset, with every register at its Reset value: `resetState` before the NV settings are loaded and the
pins act. -/
def resetCore (cause : BitVec 4) (house : Bool) (s : State) : State :=
  { State.reset with
    pending := s.pending, free := s.free, out := s.out, ticks := s.ticks, ident := s.ident,
    nv := resetNv s.nv,
    start := { Startup.reset with
      resetCause := cause, tripAtReset := s.thermal.thermTrip, houseUp := house, resetLow := true } }

/-- After the settings are loaded only the pins act: power, and what its reports change. -/
theorem resetState_changes (cause : BitVec 4) (house : Bool) (s : State) :
    changesOnly [.out, .log, .host, .power] (loadSettings (resetCore cause house s)) (resetState cause house s) := by
  have hpins : changesOnly [.out, .log, .host, .power] (loadSettings (resetCore cause house s))
      { loadSettings (resetCore cause house s) with power := { (loadSettings (resetCore cause house s)).power with pins := s.power.pins } } :=
    changesOnly_power changesOnly_refl (by decide)
  have htrip := changesOnly_ite (c := s.thermal.thermTrip = true) (emit_frame (.thermTrip false) hpins (by decide)) hpins
  exact changesOnly_ite htrip (assertClamp_frame _ htrip (by decide))

theorem dropForReset_changes (s : State) :
    changesOnly [.out, .start, .log, .host, .installed, .tiles, .dies, .links, .signals, .mem, .power, .ports] s (dropForReset s) :=
  dropForReset_frame changesOnly_refl (by decide)

/-- A store that does not write leaves its banks to a reset as they are (R414). -/
theorem resetNv_banks {n : Nv} (h : n.job = none) : (resetNv n).banks = n.banks := by
  unfold resetNv stopWrite
  rw [h]

/-! ### The ROM (R306, R399) -/

/-- The state as the ROM begins: a new boot epoch, and the reset has risen. -/
def romEntry (s : State) : State :=
  { s with
    ident := { s.ident with bootEpoch := s.ident.bootEpoch + 1 },
    start := { s.start with resetLow := false, phase := 0, credWindow := true, riseTick := s.ticks } }

/-- The ROM loads the settings of the bank it chose, or stops the start where it finds none. -/
theorem runRom_cases (s : State) : ∃ u, changesOnly [.out, .log, .host, .nv] (romEntry s) u ∧
    ((∃ b, runRom s = loadSettings { u with nv := { u.nv with active := b } }) ∨
      runRom s = { u with start := { u.start with phase := 7, stopCode := 0x0D0A } }) := by
  have hc : changesOnly [.out, .log, .host, .nv] (romEntry s) (chooseBank (romEntry s)).2 :=
    chooseBank_frame changesOnly_refl (by decide)
  have hrun : runRom s = match chooseBank (romEntry s) with
      | (some b, u) => loadSettings { u with nv := { u.nv with active := b } }
      | (none, u) => { reportNv none { code := 0x0D0A } u with
          start := { (reportNv none { code := 0x0D0A } u).start with phase := 7, stopCode := 0x0D0A } } := rfl
  rw [hrun]
  generalize chooseBank (romEntry s) = x at hc ⊢
  obtain ⟨b, u⟩ := x
  cases b with
  | some b => exact ⟨u, hc, .inl ⟨b, rfl⟩⟩
  | none => exact ⟨reportNv none { code := 0x0D0A } u, reportNv_frame _ _ hc (by decide), .inr rfl⟩

/-- Settles O1: a reset answers the state of `resetCore` with the settings loaded, whatever rails it had to drop before. -/
theorem resetRuns : Obligations.ResetRuns := by
  unfold Obligations.ResetRuns
  refine ⟨fun s n hn => ?assert, fun s n hn => ?short, fun s hlow hup => ?rise, fun s hup => ?loss⟩
  case assert =>
    refine exec_when rfl (decide_eq_true hn) ?_
    have hr := resetState_changes (if s.start.houseUp then 1 else 0) true (dropForReset s)
    have hd := dropForReset_changes s
    rw [hr.start rfl, hr.ctx rfl, hr.installed rfl, hr.mem rfl, hr.ident rfl, hr.nv rfl]
    refine ⟨rfl, rfl, rfl, rfl, (hd.thermal rfl) ▸ rfl, rfl, rfl, rfl, hd.ident rfl, fun hj => ?_⟩
    exact (resetNv_banks (n := (dropForReset s).nv) (by rw [hd.nv rfl]; exact hj)).trans (by rw [hd.nv rfl])
  case short => exact exec_when_not rfl (decide_eq_false (Nat.not_le.2 hn))
  case rise =>
    refine exec_when rfl (by rw [hlow, hup]; rfl) ?_
    obtain ⟨u, hu, ⟨b, h⟩ | h⟩ := runRom_cases s
    all_goals
      rw [h]
      exact ⟨congrArg Startup.resetLow (hu.start rfl), congrArg Startup.credWindow (hu.start rfl), congrArg Startup.riseTick (hu.start rfl), hu.ident rfl⟩
  case loss =>
    refine exec_when rfl hup ?_
    have hr := resetState_changes 0 false { s with power := { s.power with pins := 0 } }
    rw [hr.start rfl, hr.ctx rfl, hr.installed rfl, hr.mem rfl, hr.ident rfl]
    exact ⟨rfl, rfl, rfl, rfl, rfl⟩

/-! ### Start-up step by step (Table 16-1) -/

theorem writeTray_changes (s : State) : changesOnly [.out, .thermal] s (writeTray s) :=
  writeTray_frame changesOnly_refl (by decide)

/-- Settles O2: each row under its condition, the parts it leaves alone by the frames of what it calls. -/
theorem startUpRuns : Obligations.StartUpRuns := by
  unfold Obligations.StartUpRuns
  refine ⟨fun s h => ?keys, fun s r h hr => ?gate, fun s x h hx => ?badTray, fun s h hbad hst hflow hmay => ?pass,
    fun s h hrep => ?timeout, fun s h hz hmay => ?zone, fun s parts tracks h hl hd => ?deck, fun s h hd hmay => ?stackUp,
    fun s h => ?initialised, fun s => ⟨_, rfl, rfl⟩⟩
  case keys => exact exec_when rfl h ⟨rfl, rfl, rfl⟩
  case gate =>
    refine exec_when rfl h ?_
    dsimp only [firstRequest]
    rw [(writeTray_changes _).start rfl]
    cases r with
    | none => rfl
    | some x =>
      dsimp only
      rw [if_pos (hr x rfl), (takeTray_frame x changesOnly_refl (List.Subset.refl _)).start rfl]
  case badTray =>
    refine exec_when rfl h ?_
    dsimp only [firstRequest]
    rw [(writeTray_changes _).start rfl, (writeTray_changes _).log rfl, hx, if_neg Bool.false_ne_true, report_start, report_log]
    exact ⟨rfl, rfl⟩
  case pass => exact exec_when rfl (by rw [h, hbad, hst, hflow, hmay]; rfl) rfl
  case timeout =>
    refine exec_when rfl (by rw [h, hrep]; rfl) ?_
    rw [report_start, report_log]
    exact ⟨rfl, rfl⟩
  case zone =>
    refine exec_when rfl (by rw [h, hz, hmay]; rfl) ?_
    exact ⟨rfl, beq_iff_eq⟩
  case deck =>
    refine exec_when rfl (by rw [h, hl, hd]; rfl) ?_
    have hf := recordFaults_frame (s₁ := { s with start := { s.start with deckChecked := true } }) 0x0E06 parts tracks
      changesOnly_refl (List.Subset.refl _)
    dsimp only
    split
    · exact hf.start rfl
    · rw [report_start]
      exact hf.start rfl
  case stackUp => exact exec_when rfl (by rw [h, hd, hmay]; rfl) ⟨rfl, rfl⟩
  case initialised =>
    refine exec_when rfl h ?_
    rw [report_start, report_sec, report_log]
    exact ⟨rfl, rfl, rfl⟩

/-- A start that stops is in phase 7 with its code kept, its zones dark and the clamp in force (R418). -/
theorem stopStart_stops (code : Code) (s : State) : (stopStart code s).start.phase = 7 ∧ (stopStart code s).start.stopCode = code ∧
    (stopStart code s).start.zonesUp = 0 ∧ (stopStart code s).power.clamped = true := by
  refine ⟨rfl, rfl, rfl, ?_⟩
  have hf : changesOnly [.out, .start, .installed, .tiles, .dies, .links, .signals, .mem, .ports] _
      (houseOnly (assertClamp srcBinnacle (report { code := code } s))) := houseOnly_frame changesOnly_refl (List.Subset.refl _)
  exact (congrArg Power.clamped (hf.power rfl)).trans (by rw [assertClamp_power])

/-- Settles O3: both rows stop the start by `stopStart`. -/
theorem startUpStops : Obligations.StartUpStops := by
  unfold Obligations.StartUpStops
  exact ⟨fun s h hz hmay => exec_when rfl (by rw [h, hz, hmay]; rfl) (stopStart_stops 0x0E02 s),
    fun s h hd hmay => exec_when rfl (by rw [h, hd, hmay]; rfl) (stopStart_stops 0x0E07 _)⟩

/-! ### After open house (R420, R393, R394) -/

theorem endActive_changes (code : Code) (said : Bool) (s : State) :
    changesOnly [.out, .log, .host, .ctx, .installed, .tiles, .links, .signals, .coll] s (endActive code said s) :=
  endActive_frame code said changesOnly_refl (List.Subset.refl _)

theorem parkChart_changes (s : State) :
    changesOnly [.out, .loader, .installed, .tiles, .dies, .links, .signals, .mem] s (parkChart s) :=
  parkChart_frame changesOnly_refl (List.Subset.refl _)

theorem reinstall_changes (s : State) : changesOnly [.out, .log, .host, .loader, .installed, .dies] s (reinstall s) :=
  reinstall_frame changesOnly_refl (List.Subset.refl _)

theorem dropBinnacle_changes (s : State) : changesOnly [.power] s (dropBinnacle s) :=
  dropBinnacle_frame changesOnly_refl (List.Subset.refl _)

/-- A port in service outside a curtain shows WITHDRAWN (R240). -/
theorem withdrawPort_status {p : Port} (hup : p.state = .up) (hs : p.status ≠ .curtain) : (withdrawPort p).status = .withdrawn := by
  unfold withdrawPort
  rw [if_pos hup, if_neg hs]

/-- A release after open house acts on the start block and on the ports beside what ends the active context (R393). -/
theorem releaseOpen_acts (s : State) : (releaseOpen s).start = { s.start with releaseLow := true } ∧
    ∀ p, (releaseOpen s).portOf p = withdrawPort (s.portOf p) := by
  have he := endActive_changes 0x0103 false (report { code := 0x0103 } { s with start := { s.start with releaseLow := true } })
  have hc : ∀ x : State, changesOnly [.out, .log, .host, .power] x (if canSlewDown x then x else assertClamp srcBinnacle x) :=
    fun x => changesOnly_ite changesOnly_refl (assertClamp_changes _ x)
  unfold releaseOpen
  constructor
  · rw [(parkChart_changes _).start rfl, (hc _).start rfl, mapPorts_start, he.start rfl, report_start]
  · intro p
    rw [(parkChart_changes _).portOf rfl, (hc _).portOf rfl, mapPorts_portOf, he.portOf rfl, (report_changes _ _).portOf rfl]
    rfl

/-- Settles O4. -/
theorem openHouseEventsRun : Obligations.OpenHouseEventsRun := by
  unfold Obligations.OpenHouseEventsRun
  refine ⟨fun s ha hl => ?loss, fun s hl => ?restore, fun s hr hlow hup ha => ?release, fun s hr hp ha => ?withdrawn⟩
  case loss =>
    refine exec_when rfl (by rw [ha, hl]; rfl) ?_
    dsimp only
    rw [(parkChart_changes _).start rfl, (endActive_changes ..).start rfl, (assertClamp_changes _ _).start rfl, report_start,
      (parkChart_changes _).power rfl, (endActive_changes ..).power rfl, assertClamp_power]
    exact ⟨rfl, rfl⟩
  case restore =>
    refine exec_when rfl hl ?_
    dsimp only
    refine ⟨?_, (report_recorded _ _).imp fun r hr => ⟨hr.1, hr.2.1⟩⟩
    rw [report_start, (reinstall_changes _).start rfl, (dropBinnacle_changes _).start rfl]
  case release =>
    refine exec_when rfl (by rw [hr, hlow, hup]; rfl) ?_
    rw [if_pos ha]
    exact ⟨(releaseOpen_acts s).1, fun p hup hs => by rw [(releaseOpen_acts s).2, withdrawPort_status hup hs]⟩
  case withdrawn =>
    refine exec_when rfl hr ?_
    dsimp only
    rw [hp, ha]
    refine ⟨?_, (report_recorded _ _).imp fun r hr => ⟨hr.1, hr.2.1⟩, fun p hs => ?_⟩
    · exact (report_start _ _).trans (((reinstall_changes _).start rfl).trans (((dropBinnacle_changes _).start rfl).trans (by rw [← hp]; rfl)))
    · exact (congrArg Port.status (((report_changes _ _).portOf rfl) p)).trans
        ((congrArg Port.status ((((reinstall_changes _).portOf rfl) p).trans (((dropBinnacle_changes _).portOf rfl) p))).trans (by
          rw [mapPorts_portOf]
          exact if_pos hs))

end Sys2Proof.Machine

/-! SUPPORT. Clamp, supplies, rails, clocks and meters (chapter 13, R53, R390 and R392). -/

namespace Sys2Proof.Machine

open Sys2Proof

/-! ### Contexts that close -/

theorem destroyCtx_ctxOf_same (i : Slot) (s : State) : ((destroyCtx i s).ctxOf i).state = .closed := by
  unfold destroyCtx
  dsimp only
  rw [(report_changes _ _).ctxOf rfl, modCtx_ctxOf_same]
  rfl

theorem destroyCtx_ctxOf_other {i j : Slot} (h : i ≠ j) (s : State) : (destroyCtx i s).ctxOf j = s.ctxOf j := by
  unfold destroyCtx
  dsimp only
  have ha : changesOnly [.loader, .mem] s (loseStack i (modSlot i (fun l => { l with state := .empty, chart := none }) (abandonOp i s))) :=
    loseStack_frame i (modSlot_frame i _ (abandonOp_frame i changesOnly_refl (by decide)) (by decide)) (by decide)
  rw [(report_changes _ _).ctxOf rfl, modCtx_ctxOf_other _ _ _ _ h, ha.ctxOf rfl]

theorem foldl_destroyCtx_closed {j : Slot} (l : List Slot) (s : State) (h : j ∈ l ∨ (s.ctxOf j).state = .closed) :
    ((l.foldl (fun s i => destroyCtx i s) s).ctxOf j).state = .closed := by
  induction l generalizing s with
  | nil => exact h.resolve_left (List.not_mem_nil)
  | cons i l ih =>
    refine ih _ ?_
    by_cases hij : i = j
    · exact .inr (hij ▸ destroyCtx_ctxOf_same i s)
    · rw [destroyCtx_ctxOf_other hij]
      exact h.imp_left fun hj => (List.mem_cons.1 hj).resolve_left fun e => hij e.symm

/-- Where every context is destroyed, every slot is closed. -/
theorem destroyAll_closed (s : State) (j : Slot) : ((destroyAll s).ctxOf j).state = .closed := by
  refine foldl_destroyCtx_closed (j := j) (allSlots.filter fun i => isOpen s i) { s with installed := none } ?_
  by_cases hj : (s.ctxOf j).state = .closed
  · exact .inr hj
  · exact .inl (List.mem_filter.2 ⟨List.mem_finRange j, by simp [isOpen, hj]⟩)

/-! ### The clamp -/

/-- A low level that counts (R336): the pin is low and its source clamps. -/
def pinLow (pin : AlertPin) (s : State) : State :=
  assertClamp (pinBit pin) { s with power := { s.power with pins := s.power.pins ||| pinMask pin } }

theorem exec_alertPinAssert (pin : AlertPin) (w : Nat) (s : State) : exec (.alertPinAssert pin w) s =
    .next (if w < 2000 then s else if 5000 ≤ w then pinLow pin s
      else if Config.shortPulse s.free then pinLow pin (drawNext s) else drawNext s) := rfl

theorem exec_alertPinClear_vr (s : State) : exec (.alertPinClear .vr) s =
    .next (if anyAlerting s then { s with power := { s.power with pins := s.power.pins &&& ~~~(pinMask .vr) } }
      else dropSource srcVr { s with power := { s.power with pins := s.power.pins &&& ~~~(pinMask .vr) } }) := rfl

/-- Settles O5. -/
theorem clampRuns : Obligations.ClampRuns := by
  unfold Obligations.ClampRuns
  refine ⟨fun s pin w hw => ?short, fun s pin w hw => ?long, fun s pin w hlo hhi => ?between, fun s => ⟨_, rfl, rfl, rfl⟩,
    fun s => ⟨_, exec_alertPinClear_vr s, ?_⟩, fun s m hc hs => ?release⟩
  case short => rw [exec_alertPinAssert, if_pos hw]
  case long =>
    refine ⟨pinLow pin s, by rw [exec_alertPinAssert, if_neg (by omega), if_pos hw], ?_⟩
    unfold pinLow
    rw [assertClamp_power, assertClamp_log]
    refine ⟨rfl, rfl, rfl, rfl, rfl, fun hc => ⟨if_neg (by simp [hc]), ?_⟩⟩
    exact if_neg (by simp [hc])
  case between =>
    refine ⟨_, by rw [exec_alertPinAssert, if_neg (by omega), if_neg (by omega)], ?_⟩
    cases Config.shortPulse s.free with
    | true =>
      rw [if_pos rfl, pinLow, (assertClamp_changes _ _).free rfl, assertClamp_power]
      exact ⟨rfl, rfl⟩
    | false => exact ⟨rfl, rfl⟩
  · split
    · exact ⟨rfl, rfl⟩
    · exact ⟨rfl, rfl⟩
  case release =>
    refine exec_when rfl (by rw [hc, hs]; rfl) ?_
    unfold releaseClamp
    rw [reportPower_power, reportPower_log]
    exact ⟨rfl, rfl, rfl, rfl, rfl⟩

/-! ### Zones and dies -/

/-- Rails that go down are those of the dies named. -/
theorem railsDown_dieOf (p : DieId → Bool) (s : State) (d : DieId) : (railsDown p s).dieOf d =
    if p d then { s.dieOf d with rails := .off, locked := false } else s.dieOf d := by
  unfold railsDown
  rw [(loseTileSram_frame p changesOnly_refl (List.Subset.refl _)).dieOf rfl, mapDies_dieOf]

/-- An update of one die that is followed by what leaves the dies alone: that die has it, the others are as they were. -/
theorem changesOnly.of_modDie {L : List Block} {s t : State} {d : DieId} {f : Die → Die} (h : changesOnly L (modDie d f s) t)
    (hb : L.contains Block.dies = false) : t.dieOf d = f (s.dieOf d) ∧ ∀ e, e ≠ d → t.dieOf e = s.dieOf e :=
  ⟨by rw [h.dieOf hb, modDie_dieOf_same], fun e he => by rw [h.dieOf hb, modDie_dieOf_other _ _ _ _ he.symm]⟩

theorem faultRegions_changes (ids : List Nat) (code : Code) (die : Option DieId) (s : State) :
    changesOnly [.out, .installed, .tiles, .links] s (faultRegions ids code die s) :=
  faultRegions_frame ids code die changesOnly_refl (List.Subset.refl _)

/-- The loss of a zone turns its bit off, clamps, and closes every context (R392). -/
theorem loseZone_acts (z : ZoneId) (s : State) :
    (loseZone z s).start = { s.start with zonesUp := s.start.zonesUp &&& ~~~((1 : BitVec 9) <<< z.val) } ∧
      (loseZone z s).power.clamped = true ∧ ∀ i, ((loseZone z s).ctxOf i).state = .closed := by
  unfold loseZone
  have hcoll : ∀ x, changesOnly [.out, .log, .host, .coll] x (abortColls 0x0702 x) :=
    fun x => abortColls_frame _ changesOnly_refl (List.Subset.refl _)
  have hend : ∀ x, changesOnly [.out, .log, .host, .ctx] x (allSlots.foldl (fun s i =>
      (s.ctxOf i).running.foldl (fun s c => completeCmd i c 0x0101 0xFFFF 0 s) s) x) := fun x =>
    foldl_frame changesOnly_refl fun i _ hy => foldl_frame hy fun c _ hz => completeCmd_frame i c _ _ _ hz (List.Subset.refl _)
  have hmem : ∀ x, changesOnly [.mem] x (loseDeckSram (fun _ => true) (loseTileSram (fun _ => true) x)) := fun x =>
    loseDeckSram_frame _ (loseTileSram_frame _ changesOnly_refl (List.Subset.refl _)) (List.Subset.refl _)
  have hall : ∀ x, changesOnly [.out, .log, .host, .ctx, .sec, .loader, .installed, .mem, .coll] x (destroyAll x) :=
    fun x => destroyAll_frame changesOnly_refl (List.Subset.refl _)
  dsimp only
  refine ⟨?_, ?_, fun i => ?_⟩
  · rw [mapPorts_start, mapTiles_start, (hall _).start rfl, (hmem _).start rfl, (hend _).start rfl, (hcoll _).start rfl,
      (assertClamp_changes _ _).start rfl, report_start]
  · rw [mapPorts_power, mapTiles_power, (hall _).power rfl, (hmem _).power rfl, (hend _).power rfl, (hcoll _).power rfl, assertClamp_power]
  · rw [mapPorts_ctxOf, mapTiles_ctxOf]
    exact destroyAll_closed _ i

/-- An isolated die loses its rails, is reported, and its regions fault (R53). -/
theorem exec_dieIsolation {d : DieId} {s : State} (h : (s.dieOf d).isolated = false) : exec (.dieIsolation d) s =
    .next (faultRegions (regionsOfDie s d) 0x0408 (some d) (report { code := 0x0408, loc := locDie d }
      (loseTileSram (fun x => x == d) (modDie d (fun x => { x with isolated := true, rails := .off, locked := false })
        (closePackets (fun t => dieOfTile t == d) s))))) := by
  show Host.Outcome.next (when' (!(s.dieOf d).isolated) _ s) = _
  rw [h]
  rfl

/-- Settles O6: each row's own update of its die, and the frames of what follows it. -/
theorem supplyRuns : Obligations.SupplyRuns := by
  unfold Obligations.SupplyRuns
  refine ⟨fun s z h => exec_when rfl h (loseZone_acts z s), fun s d ha hl hr => ?trip, fun s d h => ?isolation, fun s d h => ?latchOff,
    fun s d hr hc hroom => ?ramp, fun s d hr => ?up, fun s d hr hl => ?lock, fun s d hr hl => ?lockLost⟩
  case trip =>
    refine exec_when rfl (by simp [ha, hl, hr]) ?_
    have hc := changesOnly_trans (report_frame { code := 0x0C0B, loc := locDie d } changesOnly_refl (by decide))
      (assertClamp_changes srcVr (report { code := 0x0C0B, loc := locDie d } (modDie d (fun x => { x with alerting := true }) s)))
    obtain ⟨hd, ho⟩ := hc.of_modDie rfl
    refine ⟨hd, ho, ?_⟩
    rw [assertClamp_power, report_power]
    exact ⟨rfl, rfl⟩
  case isolation =>
    refine ⟨_, exec_dieIsolation h, ?_⟩
    have hclose : changesOnly [.out, .tiles, .links] s (closePackets (fun t => dieOfTile t == d) s) :=
      closePackets_frame _ changesOnly_refl (List.Subset.refl _)
    have hlose : ∀ x, changesOnly [.mem] x (loseTileSram (fun x => x == d) x) :=
      fun x => loseTileSram_frame _ changesOnly_refl (List.Subset.refl _)
    have hc : ∀ x, changesOnly [.mem, .host, .out, .log, .installed, .tiles, .links] x (faultRegions (regionsOfDie s d) 0x0408 (some d)
        (report { code := 0x0408, loc := locDie d } (loseTileSram (fun x => x == d) x))) := fun x =>
      faultRegions_frame _ _ _ (report_frame _ (loseTileSram_frame _ changesOnly_refl (by decide)) (by decide)) (by decide)
    obtain ⟨hd, ho⟩ := (hc _).of_modDie rfl
    refine ⟨by rw [hd, hclose.dieOf rfl], fun e he => by rw [ho e he, hclose.dieOf rfl], ?_⟩
    rw [(faultRegions_changes ..).log rfl, report_log, (hlose _).log rfl, (hlose _).recordOf rfl]
    exact congrArg₂ pushRec (hclose.log rfl) ((hclose.recordOf rfl) _)
  case latchOff =>
    refine exec_when rfl h ?_
    have hc : ∀ (x : State) (b : Bool), changesOnly [.power] x (if b then x else dropSource srcVr x) := fun x b =>
      changesOnly_ite changesOnly_refl (dropSource_frame _ changesOnly_refl (List.Subset.refl _))
    dsimp only
    refine ⟨?_, fun e he => ?_⟩
    · rw [(hc _ _).dieOf rfl, railsDown_dieOf, modDie_dieOf_same]
      simp
    · rw [(hc _ _).dieOf rfl, railsDown_dieOf, modDie_dieOf_other _ _ _ _ he.symm]
      simp [he]
  case ramp =>
    refine exec_when rfl (by simp [hr, hc, hroom]) ?_
    obtain ⟨hd, ho⟩ := (changesOnly_power (v := { s.power with drawn := s.power.drawn + idleW d }) changesOnly_refl
      (by decide)).of_modDie rfl (L := [.power]) (f := fun x => { x with rails := .ramping })
    exact ⟨hd, ho, rfl⟩
  case up =>
    refine exec_when rfl (by simp [hr]) ?_
    exact ⟨modDie_dieOf_same .., fun e he => modDie_dieOf_other _ _ _ _ he.symm⟩
  case lock =>
    refine exec_when rfl (by simp [hr, hl]) ?_
    rw [if_pos rfl]
    exact ⟨modDie_dieOf_same .., fun e he => modDie_dieOf_other _ _ _ _ he.symm, rfl⟩
  case lockLost =>
    refine exec_when rfl (by simp [hr, hl]) ?_
    dsimp only
    rw [if_neg Bool.false_ne_true]
    have hc : ∀ x, changesOnly [.host, .out, .log, .power, .installed, .tiles, .links] x
        (faultRegions (regionsOfDie s d) 0x0A0A none (reportPower none { code := 0x0A0A, loc := locDie d } x)) := fun x =>
      faultRegions_frame _ _ _ (reportPower_frame _ _ changesOnly_refl (by decide)) (by decide)
    obtain ⟨hd, ho⟩ := (hc _).of_modDie rfl
    refine ⟨by rw [hd]; exact hl, ho, ?_⟩
    rw [(faultRegions_changes ..).log rfl, reportPower_log]
    rfl

end Sys2Proof.Machine

/-! SUPPORT. Sleep, droop, the thermal bound, the oscillators and the meters (R319, R331, R334, R340, R346 to R351). -/

namespace Sys2Proof.Machine

open Sys2Proof

/-! ### Clocks that stop -/

/-- A deferred SLEEP that takes effect: the tile is asleep, says so to its receivers, and every other tile is as it was (R346). -/
theorem stopClock_acts {s : State} (i : TileId) (h : canon Tile.reset s.tiles = true) :
    ((stopClock i s).tileOf i).sleep = .asleep ∧
      (∃ new, (stopClock i s).out = s.out ++ new ∧ ∀ r h, Output.heartbeat i r h ∈ new ↔ r ∈ hbReceivers i ∧ h = .asleep) ∧
      ∀ j, j ≠ i → (stopClock i s).tileOf j = s.tileOf j := by
  have hbeat : ∀ x, changesOnly [.out, .links] x (sendHeartbeat i .asleep x) :=
    fun x => sendHeartbeat_frame i .asleep changesOnly_refl (List.Subset.refl _)
  have hrails : ∀ (c : Bool) (p : DieId → Bool) (x : State), changesOnly [.dies, .mem] x (if c then railsDown p x else x) :=
    fun c p x => changesOnly_ite (railsDown_frame p changesOnly_refl (List.Subset.refl _)) changesOnly_refl
  obtain ⟨new, hout, hnew⟩ := sendHeartbeat_out i .asleep (modTile i (fun x => { x with sleep := .asleep }) s)
  unfold stopClock
  dsimp only
  refine ⟨?_, ⟨new, ?_, hnew⟩, fun j hj => ?_⟩
  · rw [(hrails _ _ _).tileOf rfl, (hbeat _).tileOf rfl, modTile_tileOf_same _ _ h]
  · rw [(hrails _ _ _).out rfl, hout, modTile_out]
  · rw [(hrails _ _ _).tileOf rfl, (hbeat _).tileOf rfl, modTile_tileOf_other _ _ _ h hj]

theorem exec_oscillatorRetune (s : State) : exec .oscillatorRetune s =
    .next (if s.power.droops = 0 then
        doneWork .retune (drawNext { s with power := { s.power with oscTrim := s.free, droops := 0 } })
      else reportPower none { code := 0x0A09, isCount := true, value := s.power.droops }
        (doneWork .retune (drawNext { s with power := { s.power with oscTrim := s.free, droops := 0 } }))) := rfl

/-- Settles O7. -/
theorem clocksRun : Obligations.ClocksRun := by
  unfold Obligations.ClocksRun
  refine ⟨fun s i hc hs => ?clocks, fun s i hc hs => ?rails, fun s i n hc hn => ?droop, fun s i n hn => ?small,
    fun s i hc => ?recover, fun s m => ?thermal, fun s => ?retune⟩
  case clocks => exact exec_when rfl (by simp [hs]) (stopClock_acts i hc)
  case rails =>
    refine exec_when rfl (by simp [hs]) ?_
    obtain ⟨hsleep, hout, -⟩ := stopClock_acts i hc
    exact ⟨hsleep, hout⟩
  case droop =>
    refine exec_when rfl (decide_eq_true hn) ?_
    exact ⟨modTile_tileOf_same i (fun x => { x with stretch := if 80 < n then 2 else 1 }) hc, rfl,
      fun j hj => modTile_tileOf_other i j (fun x => { x with stretch := if 80 < n then 2 else 1 }) hc hj⟩
  case small => exact exec_when_not rfl (decide_eq_false (Nat.not_lt.2 hn))
  case recover =>
    exact ⟨_, rfl, modTile_tileOf_same i _ hc, fun j hj => modTile_tileOf_other i j _ hc hj⟩
  case thermal => exact ⟨_, rfl, rfl, decide_eq_true_iff, decide_eq_true_iff⟩
  case retune =>
    refine ⟨_, exec_oscillatorRetune s, ?_⟩
    split
    · exact ⟨rfl, rfl, rfl, rfl⟩
    · rw [reportPower_power, reportPower_free, reportPower_log]
      exact ⟨rfl, rfl, rfl, rfl⟩

/-! ### Meters -/

/-- A margin sample's trim goes to `v`, or is refused beyond 25 mV (R351). -/
def trimTo (d : DieId) (v : Int) (s : State) : State :=
  if v < -25 ∨ 25 < v then reportPower none { code := 0x0A0C, loc := locDie d } s
  else reportPower none { code := 0x0A0B, loc := locDie d } (modDie d (fun y => { y with trimMv := v, trimTick := s.ticks }) s)

/-- A sample outside the margin's window trims by 5 mV, where the plan trims and the hour has passed. -/
theorem exec_marginSample {s : State} {d : DieId} {n : Nat} {p : PowerPlan} (hp : planNow s = some p) (hm : p.trimMode = 1)
    (ht : (s.dieOf d).trimTick = 0 ∨ (s.dieOf d).trimTick + hourTicks ≤ s.ticks) (hn : n < 50 ∨ 80 < n) :
    exec (.marginSample d n) s =
      .next (doneWork (.ageing d) (trimTo d ((s.dieOf d).trimMv + (if n < 50 then 5 else -5)) s)) := by
  have hstep : (if n < 50 then (5 : Int) else if 80 < n then -5 else 0) = if n < 50 then 5 else -5 := by
    split
    · rfl
    · exact if_pos (hn.resolve_left ‹_›)
  have hne : ¬ (if n < 50 then (5 : Int) else -5) = 0 := by split <;> decide
  have hg : ((match planNow s with
      | some p => p.trimMode == 1
      | none => false) && (decide ((s.dieOf d).trimTick = 0) || decide ((s.dieOf d).trimTick + hourTicks ≤ s.ticks)) &&
      !(decide ((if n < 50 then (5 : Int) else if 80 < n then -5 else 0) = 0))) = true := by
    rw [hp, hstep]
    simpa [hm, hne] using ht
  refine Eq.trans (congrArg (fun g => Host.Outcome.next (doneWork (.ageing d) (when' g
    (fun s => trimTo d ((s.dieOf d).trimMv + (if n < 50 then (5 : Int) else if 80 < n then -5 else 0)) s) s))) hg) ?_
  rw [hstep]
  rfl

/-- Energy rises by the coarse figure, 50 W being 5 J in 100 ms (R349). -/
theorem exec_energyAccumulate {s : State} {w coarse : Nat} (h : (if inCurtain s then s.power.powerW.toNat else w / 50 * 50) = coarse) :
    exec (.energyAccumulate w) s = .next { s with power := { s.power with
      powerW := BitVec.ofNat 16 coarse, energy := s.power.energy + BitVec.ofNat 64 (coarse / 50),
      lifeEnergy := s.power.lifeEnergy + BitVec.ofNat 64 (coarse / 50) } } := by
  subst h
  rfl

/-- Settles O8. -/
theorem metersRun : Obligations.MetersRun := by
  unfold Obligations.MetersRun
  refine ⟨fun s h => ?lease, fun s d n p hp hm ht hn => ?margin, fun s w hc => ?energy, fun s w hc => ?held,
    fun s a i hc hh => ?telemetry, fun s a hc => exec_when_not rfl (by rw [hc]; rfl)⟩
  case lease =>
    refine exec_when rfl h ?_
    rw [reportPower_power, reportPower_log]
    exact ⟨rfl, rfl, rfl, rfl⟩
  case margin =>
    refine ⟨_, exec_marginSample hp hm ht hn, ?_⟩
    dsimp only
    generalize (s.dieOf d).trimMv + (if n < 50 then (5 : Int) else -5) = v
    unfold trimTo
    split
    · exact ⟨reportPower_dies .., reportPower_log ..⟩
    · have hend : ∀ x, changesOnly [.host, .out, .log, .power, .selfTest] x
          (doneWork (.ageing d) (reportPower none { code := 0x0A0B, loc := locDie d } x)) := fun x =>
        doneWork_frame _ (reportPower_frame _ _ changesOnly_refl (by decide)) (by decide)
      obtain ⟨hd, ho⟩ := (hend _).of_modDie rfl
      exact ⟨hd, ho, reportPower_log ..⟩
  case energy =>
    refine ⟨_, exec_energyAccumulate (if_neg (by simp [hc])), rfl, ?_⟩
    rw [Nat.mul_div_cancel _ (by decide)]
  case held => exact ⟨_, exec_energyAccumulate (if_pos hc), BitVec.ofNat_toNat .., rfl⟩
  case telemetry =>
    refine exec_when rfl (by rw [hc]; rfl) ?_
    have hframe : ∀ x : State, changesOnly [.thermal, .selfTest] x (doneWork .telemetry
        { (if x.thermal.teleMs = 0 then coarseThermal x else x) with
          thermal := { (if x.thermal.teleMs = 0 then coarseThermal x else x).thermal with teleMs := (x.thermal.teleMs + 1) % 1000 } }) :=
      fun x => doneWork_frame _ (changesOnly_thermal (changesOnly_ite (changesOnly_thermal changesOnly_refl (by decide))
        changesOnly_refl) (by decide)) (by decide)
    dsimp only
    rw [hh]
    refine ⟨?_, ?_, ?_, fun j hj => ?_⟩
    · exact (congrArg Ctx.arrayPct (((hframe _).ctxOf rfl) i)).trans (by rw [modCtx_ctxOf_same])
    · exact (congrArg Ctx.portPct (((hframe _).ctxOf rfl) i)).trans (by rw [modCtx_ctxOf_same])
    · exact (congrArg Ctx.heldMs (((hframe _).ctxOf rfl) i)).trans (by rw [modCtx_ctxOf_same])
    · exact (((hframe _).ctxOf rfl) j).trans (modCtx_ctxOf_other _ _ _ _ hj.symm)

end Sys2Proof.Machine

/-! SUPPORT. The power controller: what sharing the cap grants, and how far L moves (R342, R344, R347, R348). -/

namespace Sys2Proof.Machine

open Sys2Proof

/-! ### Sharing the cap (R342) -/

/-- The three figures together. -/
def Shares.total (x : Shares) : Nat := x.ports + x.memory + x.compute

theorem Shares.get_put_other (x : Shares) {c d : PClass} (v : Nat) (h : d ≠ c) : (x.put c v).get d = x.get d := by
  cases c <;> cases d <;> simp [Shares.get, Shares.put] at h ⊢

/-- Replacing one figure moves the total by the difference. -/
theorem Shares.total_put (x : Shares) (c : PClass) (v : Nat) : (x.put c v).total + x.get c = x.total + v := by
  cases c <;> simp only [Shares.total, Shares.get, Shares.put] <;> omega

/-- Filling demands grants no more than what was left. -/
theorem total_fillDemands (demand : Shares) (l : List PClass) (g : Shares) (left : Nat) :
    (fillDemands demand l g left).total ≤ g.total + left := by
  induction l generalizing g left with
  | nil => exact Nat.le_add_right ..
  | cons c cs ih =>
    have hput := g.total_put c (g.get c + min (demand.get c - g.get c) left)
    have hih := ih (g.put c (g.get c + min (demand.get c - g.get c) left)) (left - min (demand.get c - g.get c) left)
    have hmin : min (demand.get c - g.get c) left ≤ left := Nat.min_le_right ..
    show (fillDemands demand cs _ _).total ≤ _
    omega

/-- Cutting the floors of distinct classes takes the excess off, as far as they hold it. -/
theorem total_cutFloors (l : List PClass) (f : Shares) (excess : Nat) (h : l.Nodup) :
    (cutFloors l f excess).total + min excess (l.map f.get).sum ≤ f.total := by
  induction l generalizing f excess with
  | nil => simp [cutFloors]
  | cons c cs ih =>
    obtain ⟨hc, hcs⟩ := List.nodup_cons.1 h
    have hput := f.total_put c (f.get c - min (f.get c) excess)
    have hrest : (cs.map (f.put c (f.get c - min (f.get c) excess)).get) = cs.map f.get :=
      List.map_congr_left fun d hd => f.get_put_other _ fun e => hc (e ▸ hd)
    have hih := ih (f.put c (f.get c - min (f.get c) excess)) (excess - min (f.get c) excess) hcs
    rw [hrest] at hih
    rw [List.map_cons, List.sum_cons]
    show (cutFloors cs _ _).total + _ ≤ _
    omega

/-- What `shareCap` grants fits the cap, where the order names each class once (R342). -/
theorem total_shareCap (cap : Nat) {order : List PClass} (floor demand : Shares) (h : order.Perm [.ports, .memory, .compute]) :
    (shareCap cap order floor demand).total ≤ cap := by
  have hnodup : order.reverse.Nodup := List.nodup_reverse.2 (h.nodup_iff.2 (by decide))
  have hsum : (order.reverse.map floor.get).sum = floor.total := by
    rw [((List.reverse_perm order).trans h |>.map floor.get).sum_eq]
    simp [Shares.get, Shares.total, Nat.add_assoc]
  have hcut := total_cutFloors order.reverse floor (floor.total - cap) hnodup
  rw [hsum] at hcut
  have hfill := total_fillDemands demand order (cutFloors order.reverse floor (floor.total - cap))
    (cap - (cutFloors order.reverse floor (floor.total - cap)).total)
  have hle : (cutFloors order.reverse floor (floor.total - cap)).total ≤ cap := by omega
  show (fillDemands demand order _ (cap - (cutFloors order.reverse floor (floor.total - cap)).total)).total ≤ cap
  exact hfill.trans (by omega)

/-! ### Moving L (R344, R347) -/

theorem moveLevel_le (level target step : Nat) (up down : Bool) : moveLevel level target step up down ≤ level + step := by
  unfold moveLevel
  split_ifs <;> omega

theorem moveLevel_held (level target step : Nat) (down : Bool) : moveLevel level target step true down ≤ level := by
  unfold moveLevel
  rw [if_pos rfl]
  split_ifs <;> omega

/-- The hold acts on its flag and the event bits alone (R343). -/
theorem setCapHold_power (h : Bool) (s : State) : ∃ b e, (setCapHold h s).power = { s.power with capHold := b, events := e } := by
  unfold setCapHold
  split
  · exact ⟨_, _, rfl⟩
  · dsimp only
    split
    · exact ⟨_, _, reportPower_power ..⟩
    · exact ⟨_, _, reportPower_power ..⟩

theorem setCapHold_inCurtain (h : Bool) (s : State) : inCurtain (setCapHold h s) = inCurtain s := by
  have hc : changesOnly [.out, .log, .host, .power] s (setCapHold h s) := setCapHold_frame h changesOnly_refl (List.Subset.refl _)
  simp only [inCurtain, hc.sec rfl]

/-- Settles O9: each part of the interval by its own rule, the reports at its end changing the event bits alone. -/
theorem controlIntervalRuns : Obligations.ControlIntervalRuns := by
  unfold Obligations.ControlIntervalRuns
  intro s m hclamp
  refine exec_when rfl (by rw [hclamp]; rfl) ?_
  unfold controlInterval
  extract_lets plan ph order floor demand planned cPlan g above offset fit u pCap p used target l0 l1 mix short l2 pw v w
  obtain ⟨b, e, hu⟩ := setCapHold_power fit.isNone s
  have hgrant : (∀ p, planNow s = some p → p.order.Perm [.ports, .memory, .compute]) → g.total ≤ capInForce s := by
    refine fun h => total_shareCap _ _ _ ?_
    show (match plan with | some p => p.order | none => [.ports, .memory, .compute]).Perm _
    cases hplan : plan with
    | none => exact List.Perm.refl _
    | some p => exact h p hplan
  have hcurtain : inCurtain u = inCurtain s := setCapHold_inCurtain ..
  have hl0 : l0 ≤ s.power.level := by
    show (if u.power.throttleRose then min u.power.level target else u.power.level) ≤ _
    rw [show u.power = _ from hu]
    dsimp only
    split
    · exact Nat.min_le_left ..
    · exact Nat.le_refl _
  have hl1 : l1 ≤ s.power.level + s.power.slewWs.toNat := by
    show (if inCurtain u then l0 else moveLevel l0 target u.power.slewWs.toNat u.power.holdUp u.power.holdDown) ≤ _
    rw [show u.power = _ from hu]
    split
    · exact Nat.le_add_right_of_le hl0
    · exact (moveLevel_le ..).trans (Nat.add_le_add_right hl0 _)
  have hheld : s.power.holdUp = true ∨ inCurtain s = true → l1 ≤ s.power.level := by
    show _ → (if inCurtain u then l0 else moveLevel l0 target u.power.slewWs.toNat u.power.holdUp u.power.holdDown) ≤ _
    rw [show u.power = _ from hu, hcurtain]
    intro h
    split
    · exact hl0
    · next hc =>
      rw [show s.power.holdUp = true from h.resolve_right hc]
      exact (moveLevel_held ..).trans hl0
  have hl2 : l2 ≤ l1 := by
    show (if short then (m.total + m.ballastMax) * 10000 else l1) ≤ _
    split
    · next hs =>
      have hs : m.total + m.ballastMax + 300 < l1 / 10000 := of_decide_eq_true hs
      omega
    · exact Nat.le_refl _
  have hw : ∃ e, w.power = { v.power with events := e } := by
    show ∃ e, (if short then reportPower (some 4) { code := 0x0A08 } v else v).power = _
    split
    · exact ⟨_, reportPower_power ..⟩
    · exact ⟨_, rfl⟩
  obtain ⟨e', hw⟩ := hw
  have hv : v.power = { u.power with
      level := l2, point := mix.1, dither := mix.2, drawn := m.total, ballast := min (l2 / 10000 - m.total) m.ballastMax,
      capOffset := offset, grant := (g.ports, g.memory, g.compute), throttleRose := false,
      interval := (u.power.interval + 1) % 10 } := rfl
  rw [hu] at hv
  have hend : ∀ t : State, (∃ e, t.power = { w.power with events := e }) → t.power.drawn = m.total ∧
      t.power.interval = (s.power.interval + 1) % 10 ∧ t.power.clamped = false ∧
      t.power.level ≤ s.power.level + s.power.slewWs.toNat ∧
      (s.power.holdUp = true ∨ inCurtain s = true → t.power.level ≤ s.power.level) ∧
      ((∀ p, planNow s = some p → p.order.Perm [.ports, .memory, .compute]) →
        t.power.grant.1 + t.power.grant.2.1 + t.power.grant.2.2 ≤ capInForce s) := by
    rintro t ⟨e, ht⟩
    rw [ht, hw, hv]
    exact ⟨rfl, rfl, hclamp, hl2.trans hl1, fun h => hl2.trans (hheld h), hgrant⟩
  refine hend _ ?_
  clear_value ph
  cases ph with
  | none => exact ⟨_, rfl⟩
  | some q =>
    dsimp only
    split
    · exact ⟨_, reportPower_power ..⟩
    · exact ⟨_, rfl⟩

end Sys2Proof.Machine

/-! SUPPORT. The tray, the flow states, the coolant halt, the sensors and the forecast (chapter 14). -/

namespace Sys2Proof.Machine

open Sys2Proof

/-! ### The flow states (R371 to R373) -/

theorem reportThermal_changes (b : Option Nat) (e : Ev) (s : State) :
    changesOnly [.host, .out, .log, .thermal] s (reportThermal b e s) :=
  reportThermal_frame b e changesOnly_refl (List.Subset.refl _)

/-- The derate follows the flow, and so does the cooling cap (R371). -/
theorem actDerate_thermal (s : State) : ∃ e, (actDerate s).thermal = { s.thermal with
    derate := !(flowAtLeast s 95), events := e,
    coolingCap := if flowAtLeast s 95 then 23000 else coolingCapOf (fFullNow s) s.thermal.flow } := by
  unfold actDerate
  dsimp only
  split
  · exact ⟨_, by rw [reportThermal_thermal]; cases flowAtLeast s 95 <;> rfl⟩
  · split
    · exact ⟨_, by rw [reportThermal_thermal]; cases flowAtLeast s 95 <;> rfl⟩
    · exact ⟨s.thermal.events, by cases flowAtLeast s 95 <;> rfl⟩

/-- A flow state that asks for the cooling clamp keeps its flag, or raises it with the clamp. -/
theorem actFlowClamp_thermal (s : State) : ∃ b e, (actFlowClamp s).thermal = { s.thermal with flowClamp := b, events := e } ∧
    (flowAtLeast s 50 = false → b = true) := by
  unfold actFlowClamp
  split
  · exact ⟨true, _, by rw [(assertClamp_changes _ _).thermal rfl, reportThermal_thermal], fun _ => rfl⟩
  · next h => exact ⟨s.thermal.flowClamp, s.thermal.events, rfl, fun hf => by simpa [hf] using h⟩

theorem actSuddenStop_thermal (s : State) : ∃ b e, (actSuddenStop s).thermal = { s.thermal with suddenStop := b, events := e } ∧
    (flowAtLeast s 25 = false → b = true) ∧ (s.thermal.suddenStop = false → b = true → (actSuddenStop s).power.clamped = true) := by
  unfold actSuddenStop
  split
  · exact ⟨true, _, by rw [(assertClamp_changes _ _).thermal rfl, reportThermal_thermal], fun _ => rfl, fun _ _ => by rw [assertClamp_power]⟩
  · next h =>
    exact ⟨s.thermal.suddenStop, s.thermal.events, rfl, fun hf => by simpa [hf] using h,
      fun hs hb => absurd (hs.symm.trans hb) Bool.false_ne_true⟩

/-- What the flow states change of the thermal block, from the gate on. -/
theorem flowAct_thermal (s : State) : ∃ dr cap fc ss e, (flowAct s).thermal = { s.thermal with
    derate := dr, coolingCap := cap, flowClamp := fc, suddenStop := ss, events := e } ∧
    (3 ≤ s.start.phase.toNat → s.start.phase ≠ 7 → dr = !(flowAtLeast s 95) ∧
      cap = (if flowAtLeast s 95 then 23000 else coolingCapOf (fFullNow s) s.thermal.flow) ∧
      (flowAtLeast s 50 = false → fc = true) ∧ (flowAtLeast s 25 = false → ss = true) ∧
      (s.thermal.suddenStop = false → ss = true → (flowAct s).power.clamped = true)) := by
  unfold flowAct
  split
  · next h =>
    refine ⟨_, _, _, _, _, rfl, fun h3 h7 => ?_⟩
    simp only [Bool.or_eq_true, decide_eq_true_eq, beq_iff_eq] at h
    exact absurd (h.resolve_right h7) (by omega)
  · obtain ⟨e₁, h₁⟩ := actDerate_thermal s
    obtain ⟨fc, e₂, h₂, hfc⟩ := actFlowClamp_thermal (actDerate s)
    obtain ⟨ss, e₃, h₃, hss, hcl⟩ := actSuddenStop_thermal (actFlowClamp (actDerate s))
    have hflow : ∀ n, flowAtLeast (actDerate s) n = flowAtLeast s n := fun n => by
      unfold flowAtLeast fFullNow supplyTemp
      rw [h₁]
    have hflow' : ∀ n, flowAtLeast (actFlowClamp (actDerate s)) n = flowAtLeast s n := fun n => by
      unfold flowAtLeast fFullNow supplyTemp
      rw [h₂, h₁]
    rw [hflow] at hfc
    rw [hflow'] at hss
    rw [h₂, h₁] at hcl
    exact ⟨_, _, _, _, _, by rw [h₃, h₂, h₁], fun _ _ => ⟨rfl, rfl, hfc, hss, hcl⟩⟩

theorem reportCold_thermal (s : State) : ∃ b e, (reportCold s).thermal = { s.thermal with below20 := b, events := e } := by
  unfold reportCold
  split
  · exact ⟨_, _, reportThermal_thermal ..⟩
  · exact ⟨_, _, rfl⟩

/-- A reading is new (R358). -/
def freshReading (x : TrayRegs) (s : State) : Bool := x.status.getLsbD 0 && !(s.thermal.lastSeq == some x.seq) && trayKnown x

/-- A reading is kept in any case; one that is new is the engine's flow (R358). -/
theorem takeTray_thermal (x : TrayRegs) (s : State) : ∃ b e, (takeTray x s).thermal = { s.thermal with
    tray := x, inletStale := !(x.status.getLsbD 1) || !(trayKnown x), lastSeq := some x.seq, below20 := b, events := e,
    flow := if freshReading x s then x.flow.toNat else s.thermal.flow,
    flows := if freshReading x s then (x.flow.toNat :: s.thermal.flows).take 500 else s.thermal.flows,
    stale := if freshReading x s then false else s.thermal.stale } := by
  obtain ⟨b, e, h⟩ := reportCold_thermal { s with thermal := { s.thermal with
    tray := x, inletStale := !(x.status.getLsbD 1) || !(trayKnown x), lastSeq := some x.seq } }
  refine ⟨b, e, ?_⟩
  show (if freshReading x s then takeFlow x.flow.toNat _ else _ : State).thermal = _
  cases freshReading x s
  · exact h
  · simp only [takeFlow, h, if_true]

theorem takeTray_changes (x : TrayRegs) (s : State) : changesOnly [.out, .log, .host, .thermal] s (takeTray x s) :=
  takeTray_frame x changesOnly_refl (List.Subset.refl _)

/-- Settles O10. -/
theorem trayReadsAct : Obligations.TrayReadsAct := by
  unfold Obligations.TrayReadsAct
  refine ⟨fun s => rfl, fun s x h0 hseq hk => ⟨_, rfl, ?fresh⟩, fun s x h3 h7 => ⟨_, rfl, ?act⟩, fun s hs => ?noReading⟩
  case fresh =>
    obtain ⟨b, e, ht⟩ := takeTray_thermal x s
    obtain ⟨dr, cap, fc, ss, e', hf, -⟩ := flowAct_thermal (takeTray x s)
    have hfresh : freshReading x s = true := by simp [freshReading, h0, hseq, hk]
    rw [hfresh] at ht
    show (flowAct (takeTray x s)).thermal.tray = x ∧ (flowAct (takeTray x s)).thermal.lastSeq = _ ∧
      (flowAct (takeTray x s)).thermal.flow = _ ∧ (flowAct (takeTray x s)).thermal.stale = false
    rw [hf, ht]
    exact ⟨rfl, rfl, rfl, rfl⟩
  case act =>
    obtain ⟨b, e, ht⟩ := takeTray_thermal x s
    obtain ⟨dr, cap, fc, ss, e', hf, hact⟩ := flowAct_thermal (takeTray x s)
    rw [(takeTray_changes x s).start rfl] at hact
    obtain ⟨hdr, hcap, hfc, hss, hcl⟩ := hact h3 h7
    have hflow : ∀ n, flowAtLeast (flowAct (takeTray x s)) n = flowAtLeast (takeTray x s) n := fun n => by
      unfold flowAtLeast fFullNow supplyTemp
      rw [hf]
    have hfull : fFullNow (flowAct (takeTray x s)) = fFullNow (takeTray x s) := by
      unfold fFullNow supplyTemp
      rw [hf]
    have hss' : (takeTray x s).thermal.suddenStop = s.thermal.suddenStop := by rw [ht]
    rw [hss'] at hcl
    dsimp only
    simp only [hflow, hfull]
    rw [hf]
    exact ⟨hdr, hcap, hfc, hss, hcl⟩
  case noReading =>
    refine exec_when rfl (by rw [hs]; rfl) ?_
    obtain ⟨dr, cap, fc, ss, e', hf, -⟩ := flowAct_thermal (takeFlow 0 (reportThermal (some 6) { code := 0x0B0E }
      { s with thermal := { s.thermal with stale := true, inletStale := true } }))
    unfold supplyTemp
    rw [hf]
    simp [takeFlow]

/-! ### The halt (R373, R374) -/

/-- What holds of the default and of every value listed holds of every value read. -/
theorem look_of_forall {α : Type} {P : α → Prop} {d : α} (l : List (Nat × α)) (i : Nat) (hd : P d) (h : ∀ p ∈ l, P p.2) :
    P (look d l i) := by
  induction l with
  | nil => exact hd
  | cons p l ih =>
    unfold look
    split
    · exact h p List.mem_cons_self
    · split
      · exact hd
      · exact ih fun q hq => h q (List.mem_cons_of_mem p hq)

/-- Where every tile is replaced, each tile listed is a replaced one. -/
theorem mem_mapTiles {f : Nat → Tile → Tile} {s : State} {p : Nat × Tile} (h : p ∈ (mapTiles f s).tiles) :
    ∃ q ∈ s.tiles, (q.1, f q.1 q.2) = p :=
  List.mem_map.1 (List.mem_filter.1 h).1

/-- Halting the prompters stops every tile and every signal. -/
theorem haltPrompters_stops (s : State) : (haltPrompters s).signals = [] ∧ (∀ p ∈ (haltPrompters s).tiles, p.2.halted = true) ∧
    ∀ u : TileId, ((haltPrompters s).tileOf u).inPass = false ∧ ((haltPrompters s).tileOf u).array = none ∧
      ((haltPrompters s).tileOf u).vector = none ∧ ((haltPrompters s).tileOf u).movers = [] := by
  have hall : ∀ p ∈ (haltPrompters s).tiles, p.2.halted = true ∧ p.2.inPass = false ∧ p.2.array = none ∧ p.2.vector = none ∧
      p.2.movers = [] := fun p hp => by
    obtain ⟨q, -, rfl⟩ := mem_mapTiles hp
    exact ⟨rfl, rfl, rfl, rfl, rfl⟩
  refine ⟨mapTiles_signals .., fun p hp => (hall p hp).1, fun u => ?_⟩
  exact look_of_forall (P := fun x : Tile => x.inPass = false ∧ x.array = none ∧ x.vector = none ∧ x.movers = []) (d := Tile.reset)
    (haltPrompters s).tiles u.val ⟨rfl, rfl, rfl, rfl⟩ fun p hp => (hall p hp).2

/-- With no collective, ending a slot's reductions takes its patches alone. -/
theorem endReduction_reset (i : Slot) (code : Code) {s : State} (h : s.coll = Collective.reset) :
    endReduction i code s = modCtx i (fun c => { c with model := c.model.map fun m => { m with patches := [] } }) s := by
  obtain ⟨⟩ := s
  subst h
  rfl

theorem abortColls_reset (code : Code) {s : State} (h : s.coll = Collective.reset) : abortColls code s = s := by
  obtain ⟨⟩ := s
  subst h
  rfl

/-- The active context's one plain command ends with the code, which is reported (R373). -/
theorem endActive_ends {s : State} {i : Slot} {c : Cmd} (code : Code) (hcode : (code == 0) = false) (hh : holder s = some i)
    (hcoll : s.coll = Collective.reset) (hrun : (s.ctxOf i).running = [c]) (hg : isGroupOp c.opcode = false)
    (h30 : c.opcode ≠ 0x30) (h10 : c.opcode ≠ 0x10) :
    ((endActive code true s).ctxOf i).running = [] ∧ ((endActive code true s).ctxOf i).fences = (s.ctxOf i).fences ∧
      ∃ r ∈ (endActive code true s).log.records, r.code = code := by
  have hhalt : ∀ x, changesOnly [.out, .tiles, .links, .signals] x (haltPrompters x) :=
    fun x => haltPrompters_frame changesOnly_refl (List.Subset.refl _)
  have hr : ((modCtx i (fun c => { c with model := c.model.map fun m => { m with patches := [] } }) s).ctxOf i).running = [c] := by
    rw [modCtx_ctxOf_same]
    exact hrun
  have hend : endActive code true s = haltPrompters (dropLoads i (endOthers i code true
      (modCtx i (fun c => { c with model := c.model.map fun m => { m with patches := [] } }) s))) := by
    unfold endActive
    rw [hh]
    dsimp only
    rw [abortColls_reset _ hcoll, endReduction_reset _ _ hcoll]
  have hothers : ∀ x : State, (x.ctxOf i).running = [c] → endOthers i code true x =
      completeCmd i c code 0xFFFF (cmdDetail (x.ctxOf i) c.opcode)
        (report { code := code, slot := BitVec.ofNat 8 i, value := queueValue c.q c.entry } x) := fun x hx => by
    unfold endOthers
    rw [hx]
    simp [hg, h30, h10]
  rw [hend, (hhalt _).ctxOf rfl, (hhalt _).log rfl, hothers _ hr, completeCmd_failed _ _ _ _ _ hcode]
  unfold dropLoads
  rw [modCtx_log, modCtx_log, modCtx_ctxOf_same, modCtx_ctxOf_same, (report_changes _ _).ctxOf rfl, modCtx_ctxOf_same]
  refine ⟨?_, rfl, (report_recorded _ _).imp fun r h => ⟨h.1, h.2.1⟩⟩
  show (s.ctxOf i).running.erase c = []
  rw [hrun, List.erase_cons_head]

theorem setSlotState_state (i : Slot) (x : SlotState) (s : State) : (setSlotState i x s).loader.slots[i].state = x := by
  simp [setSlotState, modSlot]

/-- Whatever the context ran, its end leaves the prompters halted. -/
theorem endActive_halts (code : Code) (said : Bool) (s : State) : ∃ u, endActive code said s = haltPrompters u := by
  unfold endActive
  split
  · exact ⟨_, rfl⟩
  · exact ⟨_, rfl⟩

/-- The cooling source goes where nothing holds it. -/
theorem dropCooling_power (s : State) : (dropCooling s).power =
    { s.power with src := if coolingHeld s then s.power.src else s.power.src &&& ~~~srcCooling } := by
  unfold dropCooling
  cases coolingHeld s
  · rfl
  · rfl

theorem dropCooling_eq (s : State) : dropCooling s = { s with power := (dropCooling s).power } := by
  unfold dropCooling
  split
  · rfl
  · rfl

/-- Parking the installed Chart takes its dies and their tile SRAM down and leaves the slot's checked copy STAGED. -/
theorem parkChart_acts {s : State} {x : Installed} {c : Chart} (hx : s.installed = some x) (hc : chartOf s x.slot = some c) :
    (parkChart s).loader.slots[x.slot].state = .staged ∧
      (∀ d : DieId, c.dieMask.getLsbD d = true → ((parkChart s).dieOf d).rails = .off) ∧
      ∀ y ∈ (parkChart s).mem, y.1 < 2 ^ 34 → c.dieMask.getLsbD (dieOfTile (y.1 / 2 ^ 21)) = false := by
  have hi : installedChart s = some c := by
    unfold installedChart
    rw [hx]
    exact hc
  have hp : parkChart s = setSlotState x.slot .staged (mapTiles (fun _ t => offTile t)
      (railsDown (fun d => c.dieMask.getLsbD d && !false) { closePackets (fun _ => true) s with installed := none, signals := [] })) := by
    unfold parkChart stopChart stopKeeping
    rw [hx, hi]
  rw [hp]
  refine ⟨setSlotState_state .., fun d hd => ?_, fun y hy hlt => ?_⟩
  · rw [(setSlotState_frame x.slot .staged changesOnly_refl (List.Subset.refl _)).dieOf rfl, mapTiles_dieOf, railsDown_dieOf, if_pos (by rw [hd]; rfl)]
  · have hy : y ∈ (railsDown (fun d => c.dieMask.getLsbD d && !false)
        { closePackets (fun _ => true) s with installed := none, signals := [] }).mem := hy
    have hk := (List.mem_filter.1 hy).2
    rw [decide_eq_true hlt] at hk
    simpa using hk

theorem stopChart_installed (s : State) : (stopChart s).installed = none := by
  show (stopKeeping (fun _ => false) s).installed = none
  unfold stopKeeping
  split
  · rfl
  · rfl

theorem parkChart_installed (s : State) : (parkChart s).installed = none := by
  unfold parkChart
  cases hx : s.installed with
  | none => exact hx
  | some x => exact stopChart_installed s

/-- Only the house domain is left on: no die, no port, no zone, no memory. -/
theorem houseOnly_acts (s : State) : (houseOnly s).mem = [] ∧ (houseOnly s).installed = none ∧ (houseOnly s).start.zonesUp = 0 ∧
    (∀ d : DieId, ((houseOnly s).dieOf d).rails = .off) ∧ ∀ p : PortId, ((houseOnly s).portOf p).state = .down := by
  unfold houseOnly
  dsimp only
  generalize stopChart s = u
  exact ⟨rfl, rfl, rfl, fun d => by simp [State.dieOf, mapDies], fun p => by simp [State.portOf, mapPorts, mapDies, downPort]⟩

/-- The power-off (R366): nothing beyond the house domain is on, every context is closed. -/
theorem powerOff_acts (cause : Nat) (s : State) : (powerOff cause s).thermal.thermTrip = true ∧ (powerOff cause s).start.zonesUp = 0 ∧
    (powerOff cause s).mem = [] ∧ (powerOff cause s).power.level = 0 ∧ (powerOff cause s).installed = none ∧
    (∀ d : DieId, ((powerOff cause s).dieOf d).rails = .off) ∧ (∀ p : PortId, ((powerOff cause s).portOf p).state = .down) ∧
    (∀ i : Slot, ((powerOff cause s).ctxOf i).state = .closed) ∧
    ∃ r ∈ (powerOff cause s).log.records, r.code = 0x0B07 ∧ r.value = BitVec.ofNat 64 cause := by
  have hr := reportThermal_changes none { code := 0x0B07, value := cause }
  have hh : ∀ x, changesOnly [.out, .start, .installed, .tiles, .dies, .links, .signals, .mem, .ports] x (houseOnly x) :=
    fun x => houseOnly_frame changesOnly_refl (List.Subset.refl _)
  have hd : ∀ x, changesOnly [.out, .log, .host, .ctx, .sec, .loader, .installed, .mem, .coll] x (destroyAll x) :=
    fun x => destroyAll_frame changesOnly_refl (List.Subset.refl _)
  unfold powerOff
  dsimp only
  generalize hu : emit (.thermTrip true) { s with thermal := { s.thermal with thermTrip := true } } = u
  have hut : u.thermal.thermTrip = true := by rw [← hu, emit_thermal]
  obtain ⟨hmem, hinst, hzones, hdies, hports⟩ := houseOnly_acts (destroyAll u)
  have hclosed : ∀ i, ((houseOnly (destroyAll u)).ctxOf i).state = .closed := fun i => by rw [(hh _).ctxOf rfl, destroyAll_closed]
  have htrip : (houseOnly (destroyAll u)).thermal.thermTrip = true := by rw [(hh _).thermal rfl, (hd _).thermal rfl, hut]
  generalize houseOnly (destroyAll u) = w at *
  refine ⟨?_, ?_, ?_, ?_, ?_, fun d => ?_, fun p => ?_, fun i => ?_, ?_⟩
  · rw [reportThermal_thermal]
    exact htrip
  · rw [(hr _).start rfl]
    exact hzones
  · rw [(hr _).mem rfl]
    exact hmem
  · rw [(hr _).power rfl]
  · rw [(hr _).installed rfl]
    exact hinst
  · rw [(hr _).dieOf rfl]
    exact hdies d
  · rw [(hr _).portOf rfl]
    exact hports p
  · rw [(hr _).ctxOf rfl]
    exact hclosed i
  · rw [reportThermal_log]
    exact ⟨_, mem_pushRec _ _, rfl, rfl⟩

/-- Settles O11. -/
theorem coolingStatesRun : Obligations.CoolingStatesRun := by
  unfold Obligations.CoolingStatesRun
  refine ⟨fun s hf hflow ht => ?clear, fun s hs hh hflow => ?recover, fun s hs hh => ?halt, fun s hh hd => ?halted, fun s hh hflow => ?exit,
    fun s hflow ht => exec_when rfl (by rw [hflow, ht]; rfl) (powerOff_acts 2 s),
    fun s ht => exec_when rfl (by rw [ht]; rfl) (powerOff_acts 1 s), fun s w hs h0 h1 h2 hu => ?balance⟩
  case clear =>
    refine exec_when rfl (by rw [hf, hflow, decide_eq_true ht]; rfl) ?_
    dsimp only
    have hc : ∀ x, changesOnly [.power] x (dropCooling x) := fun x => dropCooling_frame changesOnly_refl (List.Subset.refl _)
    rw [(hc _).thermal rfl, (hc _).log rfl, dropCooling_power, reportThermal_thermal, reportThermal_log, (reportThermal_changes ..).power rfl]
    exact ⟨rfl, rfl, by simp [coolingHeld]⟩
  case recover =>
    refine exec_when rfl (by rw [hs, hh, hflow]; rfl) ?_
    rw [dropCooling_power, (dropCooling_frame changesOnly_refl (List.Subset.refl _)).thermal rfl]
    refine ⟨rfl, ?_⟩
    simp [coolingHeld, hh]
  case halt =>
    refine exec_when rfl (by rw [hs, hh]; rfl) ?_
    obtain ⟨u, hu⟩ := endActive_halts 0x0B05 true { s with thermal := { s.thermal with halting := true } }
    obtain ⟨hsig, htiles, hunits⟩ := haltPrompters_stops u
    rw [← hu] at hsig htiles hunits
    exact ⟨(endActive_changes ..).thermal rfl, hsig, htiles, hunits, fun i c hi hcoll hrun hg h30 h10 =>
      endActive_ends (s := { s with thermal := { s.thermal with halting := true } }) 0x0B05 rfl hi hcoll hrun hg h30 h10⟩
  case halted =>
    refine exec_when rfl (by rw [hh, hd]; rfl) ?_
    have hr := reportThermal_changes (some 3) { code := 0x0B06 }
    dsimp only
    rw [reportThermal_thermal, reportThermal_log, (parkChart_changes _).thermal rfl, (parkChart_changes _).log rfl, (hr _).installed rfl,
      (hr _).loader rfl, (hr _).mem rfl, (parkChart_changes _).recordOf rfl]
    refine ⟨rfl, parkChart_installed _, rfl, fun x c hx hc => ?_⟩
    obtain ⟨hslot, hdies, hmem⟩ := parkChart_acts (s := { s with thermal := { s.thermal with halted := true } }) hx hc
    exact ⟨hslot, fun d hd => by rw [(hr _).dieOf rfl, hdies d hd], hmem⟩
  case exit =>
    refine exec_when rfl (by rw [hh, hflow]; rfl) ?_
    have hr := reportThermal_changes none { code := 0x0B08 }
    extract_lets th d
    have hd : d = { s with
        power := d.power,
        thermal := { s.thermal with halted := false, halting := false, suddenStop := false, flowClamp := false } } := dropCooling_eq _
    have hsrc : d.power.src = if s.thermal.throttleClamp then s.power.src else s.power.src &&& ~~~srcCooling :=
      congrArg Power.src (dropCooling_power _)
    have hholder : holder d = holder s := by rw [hd]; rfl
    rw [reportThermal_thermal, (hr _).power rfl, (hr _).installed rfl, reportThermal_log, (reinstall_changes _).thermal rfl,
      (reinstall_changes _).power rfl]
    refine ⟨by rw [hd], by rw [hd], by rw [hd], hsrc, ⟨_, mem_pushRec _ _, rfl⟩, fun h => ?_, fun i h => ?_⟩
    · unfold reinstall
      rw [hholder, h]
      show d.installed = _
      rw [hd]
    · unfold reinstall
      rw [hholder, h, ← hd]
  case balance =>
    refine exec_when rfl (by rw [hs, h0, h1, h2, hu]; rfl) ?_
    exact ⟨reportThermal_log .., (reportThermal_changes ..).power rfl, (reportThermal_changes ..).ctx rfl, (reportThermal_changes ..).installed rfl⟩

/-! ### Sensors, throttle and forecast -/

/-- The readings of a sample are taken and checked (R359 to R363). -/
def readings (r : SensorSet) (s : State) : State :=
  let s := r.tiles.foldl takeTile (r.spots.foldl takeSpot s)
  let s := if r.others.isEmpty then s else { s with thermal := { s.thermal with others := r.others } }
  let s := (r.spots.map fun x => x.1).foldl (fun s sp => checkPair sp s) s
  s.thermal.tiles.foldl checkTile s

/-- The readings and the T_j they give (R360); the throttle has not acted yet. -/
def readSensors (r : SensorSet) (s : State) : State :=
  { readings r s with thermal := { (readings r s).thermal with tj := junction (readings r s) } }

theorem exec_sensorSample (r : SensorSet) (s : State) :
    exec (.sensorSample r) s = .next (endThrottleClamp (startThrottle (readSensors r s))) := rfl

/-- A state's power block and its throttle are those of another: what reading the sensors keeps. -/
def SameThrottle (s t : State) : Prop := t.power = s.power ∧ t.thermal.throttle = s.thermal.throttle

theorem SameThrottle.foldl {α : Type} {f : State → α → State} (hf : ∀ s a, SameThrottle s (f s a)) (l : List α) {s t : State}
    (h : SameThrottle s t) : SameThrottle s (l.foldl f t) := by
  induction l generalizing t with
  | nil => exact h
  | cons a l ih => exact ih ⟨(hf t a).1.trans h.1, (hf t a).2.trans h.2⟩

theorem detect_changes (p : Part) (code : Code) (s : State) : changesOnly [.out, .log, .host, .selfTest] s (detect p code s) :=
  detect_frame p code changesOnly_refl (List.Subset.refl _)

theorem checkPair_sameThrottle (s : State) (sp : Fin 144) : SameThrottle s (checkPair sp s) := by
  unfold checkPair
  dsimp only
  split
  · refine ⟨?_, ?_⟩
    · rw [(detect_changes ..).power rfl, (reportThermal_changes ..).power rfl]
    · rw [(detect_changes ..).thermal rfl, reportThermal_thermal]
  · exact ⟨rfl, rfl⟩

theorem checkTile_sameThrottle (s : State) (p : Nat × TileSensor) : SameThrottle s (checkTile s p) := by
  unfold checkTile
  extract_lets out n th ts u
  have hu : SameThrottle s u := ⟨rfl, rfl⟩
  split
  · exact ⟨rfl, rfl⟩
  · split
    · exact ⟨(((detect_changes ..).power rfl)).trans hu.1, (congrArg Thermal.throttle ((detect_changes ..).thermal rfl)).trans hu.2⟩
    · exact hu

theorem readings_sameThrottle (r : SensorSet) (s : State) : SameThrottle s (readings r s) := by
  have hspots : SameThrottle s (r.spots.foldl takeSpot s) := .foldl (f := takeSpot) (fun _ _ => ⟨rfl, rfl⟩) _ ⟨rfl, rfl⟩
  have htiles : SameThrottle s (r.tiles.foldl takeTile (r.spots.foldl takeSpot s)) :=
    .foldl (f := takeTile) (fun _ _ => ⟨rfl, rfl⟩) _ hspots
  unfold readings
  extract_lets u th v w
  have hv : SameThrottle s v := by
    show SameThrottle s (if r.others.isEmpty then u else { u with thermal := { u.thermal with others := r.others } })
    split
    · exact htiles
    · exact htiles
  exact SameThrottle.foldl checkTile_sameThrottle _ (SameThrottle.foldl checkPair_sameThrottle _ hv)

theorem readSensors_sameThrottle (r : SensorSet) (s : State) : SameThrottle s (readSensors r s) := readings_sameThrottle r s

/-- T_j depends on the readings and on the dies' power alone. -/
theorem junction_congr {s t : State} (hs : t.thermal.spots = s.thermal.spots) (ht : t.thermal.tiles = s.thermal.tiles)
    (ho : t.thermal.others = s.thermal.others) (hd : t.dies = s.dies) : junction t = junction s := by
  have hhealthy : healthyTile t = healthyTile s := funext fun n => by simp only [healthyTile, ht]
  have hspot : spotReading t = spotReading s := funext fun n => by
    simp only [spotReading, estimateOf, State.dieOf, hs, hd, hhealthy]
  have htile : tileReading t = tileReading s := funext fun n => funext fun x => by
    simp only [tileReading, neighbourMean, hhealthy]
  simp only [junction, hspot, htile, ht, ho]

theorem junction_tj (s : State) : junction { s with thermal := { s.thermal with tj := junction s } } = junction s :=
  junction_congr rfl rfl rfl rfl

theorem readSensors_tj (r : SensorSet) (s : State) : (readSensors r s).thermal.tj = junction (readSensors r s) := by
  unfold readSensors
  generalize readings r s = u
  rw [junction_tj]

theorem startThrottle_thermal (s : State) : ∃ b e, (startThrottle s).thermal = { s.thermal with throttle := b, events := e } ∧
    (10000 ≤ s.thermal.tj → b = true ∧
      (s.thermal.throttle = false → (startThrottle s).power.pThrottle = min 18 (s.power.point + 2))) := by
  unfold startThrottle
  split
  · exact ⟨true, _, reportThermal_thermal .., fun _ => ⟨rfl, fun _ => by rw [(reportThermal_changes ..).power rfl]⟩⟩
  · next h =>
    refine ⟨s.thermal.throttle, s.thermal.events, rfl, fun ht => ?_⟩
    rw [decide_eq_true ht] at h
    have h : s.thermal.throttle = true := by simpa using h
    exact ⟨h, fun hf => absurd (hf.symm.trans h) Bool.false_ne_true⟩

theorem endThrottleClamp_acts (s : State) : ∃ b, (endThrottleClamp s).thermal = { s.thermal with throttleClamp := b } ∧
    (endThrottleClamp s).power.pThrottle = s.power.pThrottle ∧ (s.thermal.tj ≤ 9500 → b = false) := by
  unfold endThrottleClamp
  split
  · refine ⟨false, ?_, ?_, fun _ => rfl⟩
    · exact (dropCooling_frame changesOnly_refl (List.Subset.refl _)).thermal rfl
    · rw [dropCooling_power]
  · next h => exact ⟨s.thermal.throttleClamp, rfl, rfl, fun ht => by simpa [ht] using h⟩

/-- A detection with nothing before it waits first (R384). -/
theorem detect_first {p : Part} {code : Code} {s : State} (hw : s.selfTest.waiting = []) (hr : s.selfTest.running = []) :
    (detect p code s).selfTest.waiting = [(p, code, s.ticks)] := by
  unfold detect
  rw [hw, hr]
  rfl

theorem forecastNow_acts (s : State) : (forecastNow s).dies = (correctModels s).dies ∧
    (forecastNow s).power.pForecast = nextForecast (correctModels s) ∧ (forecastNow s).thermal.fcSeq = s.thermal.fcSeq := by
  unfold forecastNow
  dsimp only
  split
  · rw [(reportThermal_changes ..).dies rfl, (reportThermal_changes ..).power rfl, reportThermal_thermal]
    exact ⟨rfl, rfl, rfl⟩
  · exact ⟨rfl, rfl, rfl⟩

theorem when'_same {g : Bool} {f : State → State} {s : State} (h : f s = s) : when' g f s = s := by
  unfold when'
  rw [h, ite_self]

/-- Settles O12. -/
theorem thermalLoopsRun : Obligations.ThermalLoopsRun := by
  unfold Obligations.ThermalLoopsRun
  refine ⟨fun s r => ⟨_, exec_sensorSample r s, ?sample⟩, fun s h ht => ?slower, fun s h ht => ?faster, fun s hlo hhi => ?between,
    fun s ht hp hc => ?clamp, fun s d k => ?near, fun s d k => ?far, fun s w => ⟨_, rfl, fun d => ?model⟩,
    fun s hc => ⟨_, rfl, ?forecast⟩, fun s hc => ⟨_, rfl, ?quiet⟩⟩
  case sample =>
    obtain ⟨b, e, hb, hhot⟩ := startThrottle_thermal (readSensors r s)
    obtain ⟨c, hc, hpoint, hcool⟩ := endThrottleClamp_acts (startThrottle (readSensors r s))
    obtain ⟨hpower, hthrottle⟩ := readSensors_sameThrottle r s
    have hstart : changesOnly [.out, .log, .host, .power, .thermal] (readSensors r s) (startThrottle (readSensors r s)) :=
      startThrottle_frame changesOnly_refl (List.Subset.refl _)
    have hdies := (endThrottleClamp_frame hstart (by decide)).dies rfl
    have hj : junction (endThrottleClamp (startThrottle (readSensors r s))) = junction (readSensors r s) :=
      junction_congr (by rw [hc, hb]) (by rw [hc, hb]) (by rw [hc, hb]) hdies
    have htj := readSensors_tj r s
    rw [hpower, hthrottle] at hhot
    rw [hb] at hcool
    rw [hj, hpoint, hc, hb]
    generalize readSensors r s = u at *
    exact ⟨htj, hhot, hcool⟩
  case slower =>
    refine exec_when rfl h ?_
    rw [if_pos ht]
    exact ⟨rfl, rfl⟩
  case faster =>
    refine exec_when rfl h ?_
    dsimp only
    rw [if_neg (by omega), if_pos ht]
    split
    · next hp =>
      rw [(reportThermal_changes ..).power rfl, reportThermal_thermal]
      exact ⟨rfl, (decide_eq_false (by omega)).symm⟩
    · next hp => exact ⟨rfl, h.trans (decide_eq_true (by omega)).symm⟩
  case between =>
    show Host.Outcome.next (when' s.thermal.throttle _ s) = _
    rw [when'_same]
    rw [if_neg (by omega), if_neg (by omega)]
  case clamp =>
    refine exec_when rfl (by rw [decide_eq_true ht, hp, hc]; rfl) ?_
    rw [(assertClamp_changes ..).thermal rfl, assertClamp_power]
    exact ⟨rfl, rfl, rfl⟩
  case near =>
    intro i h hf hd
    refine exec_when rfl hf ?_
    dsimp only
    rw [if_pos hd]
    exact ⟨rfl, rfl⟩
  case far =>
    intro h hf hd hw hr
    refine exec_when rfl hf ?_
    dsimp only
    rw [if_neg (Nat.not_le.2 hd), detect_first hw hr]
  case model =>
    dsimp only
    rw [mapDies_dieOf]
    exact ⟨rfl, rfl, rfl, rfl⟩
  case forecast =>
    obtain ⟨hdies, hp, hseq⟩ := forecastNow_acts s
    rw [hc]
    show (writeTray _).dies = _ ∧ (writeTray _).power.pForecast = _ ∧ (writeTray _).thermal.fcSeq = _
    rw [(writeTray_changes _).dies rfl, (writeTray_changes _).power rfl, hdies, hp, ← hseq]
    exact ⟨rfl, rfl, rfl⟩
  case quiet =>
    rw [hc]
    exact forecastNow_acts s

end Sys2Proof.Machine

/-! SUPPORT. The Chart loader: how its ops start, are refused and end (chapter 5, Tables 5-10 to 5-14). -/

namespace Sys2Proof.Machine

open Sys2Proof

/-! ### Starting an op (R119, R120, R126) -/

/-- The loader as the write of go leaves it where no op runs: the op and slot written, the status clear, the member latched. -/
def opened (stage : Bool) (i : Slot) (s : State) : State :=
  { s with loader := { s.loader with
      op := if stage then 1 else 2, slot := BitVec.ofNat 3 i, lastMember := s.loader.member.toNat,
      error := 0, sect := BitVec.ofNat 16 noSect, record := BitVec.ofNat 32 noRecord } }

theorem startOp_free {stage : Bool} {i : Slot} {s : State} (h : s.loader.running = none)
    (he : stage = true ∨ (s.loader.slots[i]).state ≠ .empty) : startOp stage i s =
      match opRefusal s (latchOp stage i s) with
      | some code => refuseOp i code noSect noRecord (opened stage i s)
      | none => beginOp (latchOp stage i s) (opened stage i s) := by
  have hskip : (!stage && decide ((s.loader.slots[i]).state = .empty)) = false := by
    cases he with
    | inl h => rw [h]; rfl
    | inr h => rw [decide_eq_false h, Bool.and_false]
  unfold startOp
  rw [h]
  show (if (!stage && decide ((s.loader.slots[i]).state = .empty)) = true then opened stage i s else _) = _
  rw [hskip]
  rfl

theorem startOp_busy {stage : Bool} {i : Slot} {s : State} (h : s.loader.running.isSome = true) :
    startOp stage i s = setLoadCtrl (if stage then 1 else 2) i s := by
  unfold startOp
  rw [h]
  rfl

/-- An op on an open slot that does not hold the engine is not refused, where a staged image lies in the slot's range. -/
theorem opRefusal_none {stage : Bool} {i : Slot} {s : State} (ho : isOpen s i = true) (hh : holder s ≠ some i)
    (hm : stage = true → imageMapped s (latchOp stage i s) = true) : opRefusal s (latchOp stage i s) = none := by
  have hactive : (latchOp stage i s).onActive = false := beq_eq_false_iff_ne.2 hh
  have hmapped : ((latchOp stage i s).isStage && !(imageMapped s (latchOp stage i s))) = false := by
    cases stage with
    | true => rw [hm rfl]; rfl
    | false => rfl
  unfold opRefusal
  rw [hactive, hmapped]
  show (if (!isOpen s i) = true then _ else _) = _
  rw [ho]
  rfl

theorem opRefusal_closed {stage : Bool} {i : Slot} {s : State} (ho : isOpen s i = false) :
    opRefusal s (latchOp stage i s) = some 0x0234 := by
  unfold opRefusal
  show (if (!isOpen s i) = true then _ else _) = _
  rw [ho]
  rfl

/-- A refused op runs no more, shows its code and where it stands, and leaves the slot its Chart and state (R120). -/
theorem refuseOp_acts (i : Slot) (code : Code) (sect record : Nat) (s : State) :
    (refuseOp i code sect record s).loader = { s.loader with
      running := none, error := code, sect := BitVec.ofNat 16 sect, record := BitVec.ofNat 32 record,
      slots := s.loader.slots.set i { s.loader.slots[i] with refused := true } } ∧
    (refuseOp i code sect record s).log = pushRec s.log (recordOf { code := code, slot := BitVec.ofNat 8 i } s) := by
  unfold refuseOp
  dsimp only
  exact ⟨(report_changes ..).loader rfl, report_log ..⟩

/-- The installed Chart stops where it is the slot's. -/
def stopOwn (i : Slot) (s : State) : State :=
  match s.installed with
  | some x => if x.slot = i then stopChart s else s
  | none => s

/-- Settles O13: the rows that start an op by `startOp_free`, the refused ones by `refuseOp_acts`. -/
theorem loaderOpsStart : Obligations.LoaderOpsStart := by
  unfold Obligations.LoaderOpsStart
  refine ⟨fun s i hb hr ho hh hm => exec_when rfl hb ?stage, fun s i hb hr ho => exec_when rfl hb ?closed,
    fun s i hb hr => exec_when rfl hb ?busy, fun s i hb hr ho hh hs => exec_when rfl hb ?unstage,
    fun s op i hb h1 h2 hr => exec_when rfl (by rw [hb, beq_eq_false_iff_ne.2 h1, beq_eq_false_iff_ne.2 h2]; rfl) ?reserved, fun s hb => exec_when rfl hb ?read⟩
  case stage =>
    rw [startOp_free hr (.inl rfl), opRefusal_none ho hh fun _ => hm]
    refine ⟨rfl, ?_, rfl, rfl, rfl⟩
    show (if (s.loader.slots[i]).refused then 6 else if (some (true && (i == i))) = some true then 1 else _) = _
    rw [beq_self_eq_true]
    rfl
  case closed =>
    rw [startOp_free hr (.inl rfl), opRefusal_closed ho]
    dsimp only
    obtain ⟨hl, hlog⟩ := refuseOp_acts i 0x0234 noSect noRecord (opened true i s)
    rw [hl, hlog]
    refine ⟨rfl, rfl, ?_, ?_, rfl⟩
    · simp
    · simp [opened]
  case busy =>
    rw [startOp_busy hr]
    rfl
  case unstage =>
    rw [startOp_free hr (.inr hs), opRefusal_none ho hh fun h => absurd h Bool.false_ne_true]
    refine ⟨rfl, setSlotState_state .., fun x hx => ?_⟩
    have hx : (stopOwn i (opened false i s)).installed = some x := hx
    unfold stopOwn at hx
    revert hx
    rw [show (opened false i s).installed = s.installed from rfl]
    split
    · next y hy =>
      split
      · exact fun hx => absurd ((stopChart_installed _).symm.trans hx) (by simp)
      · next hne =>
        intro hx
        obtain rfl : y = x := Option.some.inj (hy.symm.trans hx)
        exact ⟨hx, hne⟩
    · next hn => exact fun hx => absurd (hn.symm.trans hx) (by simp)
  case reserved =>
    unfold reservedOp
    rw [hr]
    exact ⟨hr, rfl, rfl⟩
  case read => exact ⟨rfl, fun i => Vector.getElem_map ..⟩

/-! ### Ending an op (R120, R121, R125 to R127) -/

theorem exec_chartCheckDone {s : State} {op : LoadOp} (hr : s.loader.running = some op) (ho : op.isStage = true)
    (hc : inCurtain s = false) : exec .chartCheckDone s = .next (finishCheck op s) := by
  show Host.Outcome.next (match s.loader.running with | some op => _ | none => s) = _
  rw [hr]
  dsimp only
  rw [ho, hc]
  rfl

/-- A refused image ends the op with its code and place; the slot keeps its Chart and state (R120). -/
theorem imageRefused_acts (op : LoadOp) (r : Refused) (s : State) : (imageRefused op r s).loader.running = none ∧
    (imageRefused op r s).loader.error = r.code ∧ (imageRefused op r s).loader.sect = BitVec.ofNat 16 r.sect ∧
    (imageRefused op r s).loader.record = BitVec.ofNat 32 r.record ∧
    ((imageRefused op r s).loader.slots[op.slot]).refused = true ∧
    ((imageRefused op r s).loader.slots[op.slot]).state = (s.loader.slots[op.slot]).state ∧
    ((imageRefused op r s).loader.slots[op.slot]).chart = (s.loader.slots[op.slot]).chart := by
  have hslots : (noteCycle op r s).loader.slots = s.loader.slots := by
    unfold noteCycle
    split
    · rfl
    · rfl
  unfold imageRefused
  rw [(refuseOp_acts ..).1, hslots]
  simp

/-- A slot of the loader after what changes other parts of the loader or of the state. -/
theorem sayFolded_slot (i : Slot) (l : List TileId) (s : State) : (sayFolded i l s).loader.running = s.loader.running ∧
    ((sayFolded i l s).loader.slots[i]).chart = (s.loader.slots[i]).chart ∧
    ((sayFolded i l s).loader.slots[i]).state = (s.loader.slots[i]).state := by
  have hreport : ∀ (l : List TileId) (x : State), changesOnly [.host, .out, .log] x
      (l.foldl (fun s t => report { code := 0x0406, slot := BitVec.ofNat 8 i, loc := locTile t } s) x) := fun l x =>
    foldl_frame changesOnly_refl fun t _ hy => report_frame _ hy (List.Subset.refl _)
  unfold sayFolded
  dsimp only
  rw [(hreport _ _).loader rfl]
  simp [modSlot]

/-- An image that passes on a slot that does not hold the engine is STAGED there (R121). -/
theorem imageAccepted_staged {op : LoadOp} {c : Chart} {vs : List (Nat × Nat)} {s : State} (hh : holder s ≠ some op.slot) :
    (imageAccepted op c vs s).loader.running = none ∧ ((imageAccepted op c vs s).loader.slots[op.slot]).chart = some c ∧
      ((imageAccepted op c vs s).loader.slots[op.slot]).state = .staged := by
  have hreport : ∀ x : State, changesOnly [.host, .out, .log] x
      (vs.foldl (fun s p => report { code := 0x0240, slot := BitVec.ofNat 8 op.slot, value := p.1 } s) x) := fun x =>
    foldl_frame changesOnly_refl fun p _ hy => report_frame _ hy (List.Subset.refl _)
  unfold imageAccepted
  extract_lets ld u put
  rw [if_neg (show ¬ holder u = some op.slot from hh)]
  obtain ⟨hrun, hchart, hstate⟩ := sayFolded_slot op.slot (foldedTiles (vs.foldl (fun s p =>
    report { code := 0x0240, slot := BitVec.ofNat 8 op.slot, value := p.1 } s) (setSlotState op.slot .staged (put u))) c vs)
    (vs.foldl (fun s p => report { code := 0x0240, slot := BitVec.ofNat 8 op.slot, value := p.1 } s) (setSlotState op.slot .staged (put u)))
  rw [hrun, hchart, hstate, (hreport _).loader rfl, setSlotState_state]
  exact ⟨rfl, by simp [setSlotState, modSlot, put, modCtx], rfl⟩

theorem modInstalled_installed (f : Installed → Installed) (s : State) : (modInstalled f s).installed = s.installed.map f := rfl

/-- An installation that ends leaves the Chart running (R125). -/
theorem finishInstall_installed {x : Installed} {c : Chart} {s : State} (hx : s.installed = some x) :
    (finishInstall x c s).installed = some { x with running := true } := by
  have hfill : ∀ l : List Area, changesOnly [.mem] s (l.foldl (fun s a => fillArea x.slot c x.variants a s) s) := fun l =>
    foldl_frame changesOnly_refl fun a _ hy => fillArea_frame _ _ _ _ hy (List.Subset.refl _)
  have hsum : ∀ y, changesOnly [.mem] y (fillSummaries x c y) := fun y => fillSummaries_frame x c changesOnly_refl (List.Subset.refl _)
  have htiles : ∀ y, changesOnly [.out, .tiles, .links] y (startTiles c x y) :=
    fun y => startTiles_frame c x changesOnly_refl (List.Subset.refl _)
  unfold finishInstall
  rw [(setSlotState_frame x.slot .running changesOnly_refl (List.Subset.refl _)).installed rfl, modInstalled_installed, (htiles _).installed rfl, (hsum _).installed rfl, (hfill _).installed rfl, hx]
  rfl

/-- The tiles to fold depend on the defect map alone. -/
theorem foldedTiles_congr {s t : State} (h : t.defects = s.defects) (c : Chart) (vs : List (Nat × Nat)) :
    foldedTiles t c vs = foldedTiles s c vs := by
  have hn : isNarrow t = isNarrow s := funext fun n => by
    unfold isNarrow badColumns
    rw [h]
  have hr : isRetired t = isRetired s := funext fun n => by simp only [isRetired, h]
  simp only [foldedTiles, hn, hr]

/-- A region restaged onto a variant: the first fault is done, the variant and the folded tiles are noted (R127). -/
theorem restageOnto_installed {c : Chart} {x : Installed} {r : Region} {v : Variant} {s : State} {f : FaultRec} {l : List FaultRec}
    (hx : s.installed = some x) (hf : x.faults = f :: l) : (restageOnto c x r v s).installed = some { x with
      faults := l, variants := setPair x.variants r.id v.id, folded := foldedTiles s c (setPair x.variants r.id v.id) } := by
  unfold restageOnto
  extract_lets old new inPass u vs w
  have hu : changesOnly [.out, .tiles, .links] s u := foldl_frame changesOnly_refl fun k y hy => wakeTile_frame _ _ hy (List.Subset.refl _)
  have hw : changesOnly [.out, .log, .host, .loader] u w := sayFolded_frame _ _ changesOnly_refl (List.Subset.refl _)
  have hd : w.defects = s.defects := (hw.defects rfl).trans (hu.defects rfl)
  rw [report_installed, modInstalled_installed, hw.installed rfl, hu.installed rfl, hx, foldedTiles_congr hd]
  dsimp only [Option.map_some]
  rw [hf]
  rfl

/-- Settles O14. -/
theorem loaderOpsEnd : Obligations.LoaderOpsEnd := by
  unfold Obligations.LoaderOpsEnd
  refine ⟨fun s op r hr ho hc he => ⟨_, exec_chartCheckDone hr ho hc, ?image⟩,
    fun s op c r hr ho hc he hh => ⟨_, exec_chartCheckDone hr ho hc, ?here⟩,
    fun s op c vs hr ho hc he hh hn => ⟨_, exec_chartCheckDone hr ho hc, ?pass⟩, fun s op hr ho => ?unstaged,
    fun s x c hx hi hr hd hc => ?installed, fun s x c f l r v hx hi hr hf hg hv => ?restage⟩
  case image =>
    unfold finishCheck
    rw [he]
    exact imageRefused_acts op r s
  case here =>
    unfold finishCheck
    rw [he]
    dsimp only
    rw [hh]
    exact imageRefused_acts op r _
  case pass =>
    unfold finishCheck
    rw [he]
    dsimp only
    rw [hh]
    exact imageAccepted_staged hn
  case unstaged =>
    refine ⟨modSlot op.slot (fun l => { l with state := .empty, chart := none })
      { s with loader := { s.loader with running := none } }, ?_, rfl, ?_⟩
    · show Host.Outcome.next (match s.loader.running with | some op => _ | none => s) = _
      rw [hr]
      dsimp only
      rw [ho]
      rfl
    · simp [modSlot]
  case installed =>
    refine ⟨finishInstall x c s, ?_, finishInstall_installed hx, setSlotState_state ..⟩
    show Host.Outcome.next (match s.installed, installedChart s with
      | some x, some c => if !x.running && diesReady s c && !(inCurtain s) then finishInstall x c s else s
      | _, _ => s) = _
    rw [hx, hi]
    dsimp only
    rw [hr, hd, hc]
    rfl
  case restage =>
    refine ⟨restageOnto c x r v s, ?_, restageOnto_installed hx hf, ?_⟩
    · show Host.Outcome.next (match s.installed, installedChart s with
        | some x, some c => (match x.faults with
          | f :: _ => if x.running then restage x c f s else s
          | [] => s)
        | _, _ => s) = _
      rw [hx, hi]
      dsimp only
      rw [hf]
      dsimp only
      rw [hr]
      show Host.Outcome.next (restage x c f s) = _
      unfold restage
      rw [hg]
      dsimp only
      rw [hv]
    · unfold restageOnto
      dsimp only
      rw [report_log]
      exact ⟨_, mem_pushRec _ _, rfl, rfl, rfl⟩

end Sys2Proof.Machine

/-! SUPPORT. Self-tests, scrubs, re-checks, heartbeats and the mesh links (chapter 15, R38, R40, R43, R167 to R169). -/

namespace Sys2Proof.Machine

open Sys2Proof

/-! ### Self-tests (R380 to R384) -/

theorem exec_selfTestResult {p : Part} {y : Part × BitVec 16} {s : State} (x : TestFinding)
    (hy : (s.selfTest.running.find? fun x => decide (x.1 = p)) = some y) (hc : inCurtain s = false) :
    exec (.selfTestResult p x) s = .next (testEnds p y.2 x { s with selfTest := { s.selfTest with
      running := s.selfTest.running.filter fun z => !(decide (z.1 = p)) } }) := by
  show Host.Outcome.next (match s.selfTest.running.find? fun y => decide (y.1 = p) with | some y => _ | none => s) = _
  rw [hy]
  dsimp only
  rw [hc]
  rfl

/-- The first transient of a part is one of it (R382). -/
theorem transientsOf_first {p : Part} {s : State} (h : ∀ x ∈ s.selfTest.transients, x.1 ≠ p) :
    transientsOf p { s with selfTest := { s.selfTest with transients := countTransient p s.ticks s.selfTest.transients } } = 1 := by
  have hnone : ∀ l : List (Part × List Nat), (∀ x ∈ l, x.1 ≠ p) → (l.find? fun x => decide (x.1 = p)) = none := fun l hl =>
    List.find?_eq_none.2 fun x hx => by simp [hl x hx]
  have hrest : ∀ x ∈ (if 1024 ≤ (s.selfTest.transients.filter fun x => !(decide (x.1 = p))).length
      then (s.selfTest.transients.filter fun x => !(decide (x.1 = p))).drop 1
      else s.selfTest.transients.filter fun x => !(decide (x.1 = p))), x.1 ≠ p := fun x hx => by
    have hx : x ∈ s.selfTest.transients.filter fun x => !(decide (x.1 = p)) := by
      split at hx
      · exact List.mem_of_mem_drop hx
      · exact hx
    exact h x (List.mem_filter.1 hx).1
  unfold transientsOf countTransient
  dsimp only
  rw [hnone _ h, List.find?_append, hnone _ hrest]
  simp

theorem startTest_selfTest (p : Part) (code : BitVec 16) (since : Nat) (s : State) : (startTest p code since s).selfTest =
    { s.selfTest with waiting := s.selfTest.waiting.drop 1, running := s.selfTest.running ++ [(p, code)] } := by
  rw [startTest]
  split
  · rw [report_selfTest]
  · rfl

theorem startTest_log (p : Part) (code : BitVec 16) (since : Nat) (s : State) : (startTest p code since s).log =
    if since + lateTicks < s.ticks then pushRec s.log (recordOf { code := 0x0C06, loc := partLoc p } s) else s.log := by
  rw [startTest]
  split
  · rw [report_log]
    rfl
  · rfl

/-- Settles O15. -/
theorem selfTestsRun : Obligations.SelfTestsRun := by
  unfold Obligations.SelfTestsRun
  refine ⟨fun s p code since l hw hr hc => ?start, fun s p hp => ?other, fun s p y hy hc hp => ⟨_, exec_selfTestResult .pass hy hc, ?sensor⟩,
    fun s p y hy hc hp ht => ⟨_, exec_selfTestResult .pass hy hc, ?part⟩⟩
  case start =>
    refine ⟨startTest p code since s, ?_, ?_⟩
    · show Host.Outcome.next (match s.selfTest.waiting with | (q, code, since) :: _ => _ | [] => s) = _
      rw [hw]
      simp [hr, hc]
    · rw [startTest_selfTest, startTest_log, hw]
      exact ⟨rfl, rfl⟩
  case other =>
    show Host.Outcome.next (match s.selfTest.waiting with | (q, code, since) :: _ => _ | [] => s) = _
    cases hw : s.selfTest.waiting with
    | nil => rfl
    | cons x l =>
      have hx : x.1 ≠ p := hp x (by rw [hw]; rfl)
      simp [hx]
  case sensor =>
    unfold testEnds testPassed
    dsimp only
    rw [hp, if_pos rfl, report_selfTest, report_log]
    exact ⟨rfl, rfl⟩
  case part =>
    unfold testEnds testPassed
    dsimp only
    have hs := report_selfTest { code := 0x0C03, loc := partLoc p } { s with selfTest := { s.selfTest with
      running := s.selfTest.running.filter fun z => !(decide (z.1 = p)) } }
    have hone := transientsOf_first (p := p) (s := report { code := 0x0C03, loc := partLoc p } { s with selfTest := { s.selfTest with
      running := s.selfTest.running.filter fun z => !(decide (z.1 = p)) } }) (by rw [hs]; exact ht)
    rw [hp, if_neg Bool.false_ne_true, hone, if_pos (by decide), report_log, hs, report_ticks]
    exact ⟨rfl, rfl, rfl⟩

/-! ### Scrubs and re-checks (R32, R167 to R169, R385) -/

/-- A corrected error is reported, and with nothing before it its part is tested (R32, R385). -/
theorem detect_report {p : Part} {code : Code} {e : Ev} {s : State} (hw : s.selfTest.waiting = []) (hr : s.selfTest.running = []) :
    (detect p code (report e s)).log = pushRec s.log (recordOf e s) ∧
      (detect p code (report e s)).selfTest.waiting = [(p, code, s.ticks)] ∧
      (detect p code (report e s)).mem = s.mem ∧ (detect p code (report e s)).tiles = s.tiles := by
  have hlog : (detect p code (report e s)).log = (report e s).log := by
    unfold detect
    rw [report_selfTest, hw, hr]
    rfl
  have hwait := detect_first (p := p) (code := code) (s := report e s) (by rw [report_selfTest, hw]) (by rw [report_selfTest, hr])
  rw [report_ticks] at hwait
  refine ⟨by rw [hlog, report_log], hwait, ?_, ?_⟩
  · rw [(detect_changes ..).mem rfl, report_mem]
  · rw [(detect_changes ..).tiles rfl, report_tiles]

theorem exec_deckWeightRecheck {s : State} {i : Slot} {y : Site} {m : Model} (a : BitVec 16) (hh : holder s = some i)
    (hy : siteOf s i = some y) (hm : (s.ctxOf i).model = some m) (hb : backgroundOn s = true) :
    exec (.deckWeightRecheck a) s = .next (doneWork (.deckArea a.toNat) (recheckArea i y m a.toNat s)) := by
  show Host.Outcome.next (match holder s with
    | none => s
    | some i => match siteOf s i, (s.ctxOf i).model with
      | some y, some m => if backgroundOn s then doneWork (.deckArea a.toNat) (recheckArea i y m a.toNat s) else s
      | _, _ => s) = _
  rw [hh]
  dsimp only
  rw [hy, hm]
  dsimp only
  rw [if_pos hb]

/-- A slot's model as a re-check of shard `k` notes its time. -/
def noteCheck (i : Slot) (k : Nat) (s : State) : State :=
  modModel i (fun m => { m with checked := setPair m.checked k s.ticks }) s

theorem noteCheck_model {i : Slot} {k : Nat} {s : State} {m : Model} (hm : (s.ctxOf i).model = some m) :
    ((noteCheck i k s).ctxOf i).model = some { m with checked := setPair m.checked k s.ticks } := by
  unfold noteCheck modModel
  rw [modCtx_ctxOf_same]
  show (s.ctxOf i).model.map _ = _
  rw [hm]
  rfl

theorem noteCheck_ctxOf (i : Slot) (k : Nat) (s : State) : (noteCheck i k s).ctxOf i =
    { s.ctxOf i with model := (s.ctxOf i).model.map fun m => { m with checked := setPair m.checked k s.ticks } } :=
  modCtx_ctxOf_same ..

theorem noteCheck_ctxOf_other {i j : Slot} (k : Nat) (s : State) (h : j ≠ i) : (noteCheck i k s).ctxOf j = s.ctxOf j :=
  modCtx_ctxOf_other _ _ _ _ h.symm

/-- The time of a check is no part of what the model fetches, nor of what the stacks hold of it. -/
theorem noteCheck_fetchOf (i : Slot) (k : Nat) (s : State) (beside : Bool) :
    fetchOf ((noteCheck i k s).ctxOf i) beside = fetchOf (s.ctxOf i) beside := by
  rw [noteCheck_ctxOf]
  unfold fetchOf
  cases (s.ctxOf i).model with
  | none => rfl
  | some m => rfl

theorem noteCheck_storedDigest (i : Slot) (k : Nat) (s : State) (m : Model) (f : Fetch) (h : ShardHold) :
    storedDigest (noteCheck i k s) i { m with checked := setPair m.checked k s.ticks } f h = storedDigest s i m f h := by
  have hgrad : ((noteCheck i k s).ctxOf i).gradAt = (s.ctxOf i).gradAt := by rw [noteCheck_ctxOf]
  have hsite : siteOf (noteCheck i k s) i = siteOf s i := by
    show (match s.installed, runningChart s i with
      | some x, some c => some { slot := i, chart := c, inst := x, level := fun t => (find? ((noteCheck i k s).ctxOf i).gradAt t).getD 0 }
      | _, _ => none) = siteOf s i
    rw [hgrad]
    rfl
  unfold storedDigest
  rw [hsite]
  rfl

/-- A shard that is valid, or is not held at all, and whose digest matches stays as it is (R168). -/
theorem recheckHold_same {i : Slot} {k : Nat} {s : State} {m : Model} (hm : (s.ctxOf i).model = some m) (beside : Bool)
    (h : ∀ f h, fetchOf (s.ctxOf i) beside = some f → holdOf f.holds k = some h → h.valid = true ∧ storedDigest s i m f h = h.digest) :
    recheckHold i k s beside = s := by
  unfold recheckHold
  rw [hm]
  cases hf : fetchOf (s.ctxOf i) beside with
  | none => rfl
  | some f =>
    dsimp only
    cases hh : holdOf f.holds k with
    | none => rfl
    | some x =>
      obtain ⟨hv, hd⟩ := h f x hf hh
      simp [hv, hd]

/-- Settles O16. -/
theorem scrubsRun : Obligations.ScrubsRun := by
  unfold Obligations.ScrubsRun
  refine ⟨fun s hb => by rw [show exec (.backgroundScrub .clean) s = .next (when' (backgroundOn s) (fun s => s) s) from rfl, hb, when'_true],
    fun s i b r hb ht hw hr => exec_when rfl hb ?tile,
    fun s i b r hb ht hw hr => exec_when rfl hb ?deck, fun s k n hb hw hr => exec_when rfl hb ?stackLine,
    fun s i y m a hh hy hm hb hall => ?good, fun s i y m a k hh hy hm hb hk => ?bad, fun s i m k hb hm hall => exec_when rfl hb ?store⟩
  case tile =>
    dsimp only [scrubRead, meetError]
    rw [if_pos ht]
    exact detect_report hw hr
  case deck =>
    dsimp only [scrubRead, meetError]
    rw [if_pos ht]
    obtain ⟨hlog, hwait, hmem, -⟩ := detect_report (p := .deckRow i b r) (code := 0x0403)
      (e := { code := 0x0403, loc := locTile i, value := rowDetail b r }) hw hr
    exact ⟨hlog, hwait, hmem⟩
  case stackLine =>
    dsimp only [scrubRead, meetError]
    obtain ⟨hlog, hwait, hmem, -⟩ := detect_report (p := .stackLine k n) (code := 0x0C01)
      (e := { code := 0x0C01, loc := locPort k, value := n }) hw hr
    exact ⟨hlog, hwait, hmem⟩
  case good =>
    rw [exec_deckWeightRecheck a hh hy hm hb]
    have hnone : recheckArea i y m a.toNat s = s := by
      unfold recheckArea
      dsimp only
      rw [List.find?_eq_none.2 fun k hk => by simp [hall k hk]]
    rw [hnone]
  case bad =>
    rw [exec_deckWeightRecheck a hh hy hm hb]
    unfold recheckArea
    dsimp only
    rw [hk]
  case store =>
    have hsame : ∀ beside, recheckHold i k (noteCheck i k s) beside = noteCheck i k s := fun beside =>
      recheckHold_same (noteCheck_model hm) beside fun f h hf hk => by
        rw [noteCheck_fetchOf] at hf
        rw [noteCheck_storedDigest]
        exact hall beside f h hf hk
    have hrun : recheckShard i k s = noteCheck i k s := by
      show [false, true].foldl (recheckHold i k) (noteCheck i k s) = _
      simp only [List.foldl_cons, List.foldl_nil, hsame]
    rw [hrun]
    exact ⟨noteCheck_model hm, fun j hj => noteCheck_ctxOf_other k s hj, rfl⟩

/-! ### One link direction of the mesh -/

/-- The first state listed of a direction, after an update of that direction. -/
theorem find?_map_link (l : LinkDir) (f : LinkState → LinkState) (hf : ∀ k, (f k).link = k.link) (ks : List LinkState) :
    ((ks.map fun k => if k.link = l then f k else k).find? fun k => decide (k.link = l)) =
      (ks.find? fun k => decide (k.link = l)).map f := by
  induction ks with
  | nil => rfl
  | cons k ks ih =>
    by_cases h : k.link = l
    · simp [h, hf]
    · simp [h, ih]

theorem linkState_modLink (l : LinkDir) (f : LinkState → LinkState) (s : State) (hf : ∀ k, (f k).link = k.link) :
    linkState (modLink l f s) l = f (linkState s l) := by
  unfold linkState modLink
  split
  · next h =>
    dsimp only
    rw [find?_map_link l f hf]
    obtain ⟨k, hk, hl⟩ := List.any_eq_true.1 h
    cases hfind : s.links.find? fun k => decide (k.link = l) with
    | none => exact absurd hl (by simpa using List.find?_eq_none.1 hfind k hk)
    | some x => rfl
  · next h =>
    have hnone : (s.links.find? fun k => decide (k.link = l)) = none := List.find?_eq_none.2 fun k hk => by
      simpa using fun e => h (List.any_eq_true.2 ⟨k, hk, by simpa using e⟩)
    dsimp only
    rw [List.find?_append, hnone]
    simp [hf, LinkState.rest]

theorem modLink_changes (l : LinkDir) (f : LinkState → LinkState) (s : State) : changesOnly [.links] s (modLink l f s) :=
  modLink_frame l f changesOnly_refl (List.Subset.refl _)

theorem linkState_congr {s t : State} (h : t.links = s.links) (l : LinkDir) : linkState t l = linkState s l := by
  unfold linkState
  rw [h]

/-- A direction of a link has been declared down in service. -/
def DeclaredDown (l : LinkDir) (s : State) : Prop := ∃ k ∈ s.links, k.link = l ∧ k.down = true

theorem DeclaredDown.of_links {l : LinkDir} {s t : State} (h : DeclaredDown l s) (e : t.links = s.links) : DeclaredDown l t := by
  unfold DeclaredDown
  rw [e]
  exact h

theorem DeclaredDown.linkIsDown {l : LinkDir} {s : State} (h : DeclaredDown l s) : linkIsDown s l = true := by
  obtain ⟨k, hk, hl, hd⟩ := h
  have hany : s.links.any (fun k => decide (k.link = l) && k.down) = true := List.any_eq_true.2 ⟨k, hk, by simp [hl, hd]⟩
  unfold Machine.linkIsDown directionLost
  rw [hany]
  simp

/-- An update of a direction that does not raise it leaves down what is down. -/
theorem DeclaredDown.modLink {l : LinkDir} {s : State} (h : DeclaredDown l s) (x : LinkDir) (f : LinkState → LinkState)
    (hf : ∀ k, (f k).link = k.link ∧ (k.down = true → (f k).down = true)) : DeclaredDown l (modLink x f s) := by
  obtain ⟨k, hk, hl, hd⟩ := h
  unfold Machine.modLink
  split
  · refine ⟨if k.link = x then f k else k, List.mem_map.2 ⟨k, hk, rfl⟩, ?_⟩
    split
    · exact ⟨(hf k).1.trans hl, (hf k).2 hd⟩
    · exact ⟨hl, hd⟩
  · exact ⟨k, List.mem_append_left _ hk, hl, hd⟩

theorem DeclaredDown.foldl {α : Type} {l : LinkDir} {f : State → α → State} (hf : ∀ s a, DeclaredDown l s → DeclaredDown l (f s a))
    (as : List α) {s : State} (h : DeclaredDown l s) : DeclaredDown l (as.foldl f s) := by
  induction as generalizing s with
  | nil => exact h
  | cons a as ih => exact ih (hf s a h)

theorem DeclaredDown.sendMesh {l : LinkDir} {s : State} (h : DeclaredDown l s) (x : LinkDir) (vc : Fin 4) (head tail : Bool)
    (data : BitVec 512) : DeclaredDown l (sendMesh x vc head tail data s) := by
  unfold Machine.sendMesh
  split
  · exact h
  · exact h.modLink x _ fun k => ⟨rfl, id⟩

theorem DeclaredDown.closePackets {l : LinkDir} {s : State} (h : DeclaredDown l s) (p : Nat → Bool) :
    DeclaredDown l (closePackets p s) := by
  have hclose : ∀ (t : TileId) (s : State) (q : Packet), DeclaredDown l s → DeclaredDown l (closePacket t s q) := fun t s q h => by
    unfold closePacket
    split
    · exact DeclaredDown.foldl (fun s x h => h.sendMesh x _ _ _ _) _ h
    · exact h
  unfold Machine.closePackets
  refine DeclaredDown.foldl (fun s y h => ?_) _ h
  dsimp only
  split
  · exact DeclaredDown.foldl (hclose _) _ h
  · exact h

theorem DeclaredDown.haltPrompters {l : LinkDir} {s : State} (h : DeclaredDown l s) : DeclaredDown l (haltPrompters s) :=
  (h.closePackets fun _ => true).of_links (mapTiles_links ..)

theorem DeclaredDown.stopChart {l : LinkDir} {s : State} (h : DeclaredDown l s) : DeclaredDown l (stopChart s) := by
  have hrails : ∀ p x, changesOnly [.dies, .mem] x (railsDown p x) := fun p x => railsDown_frame p changesOnly_refl (List.Subset.refl _)
  show DeclaredDown l (stopKeeping (fun _ => false) s)
  unfold stopKeeping
  split
  · exact h
  · exact (h.closePackets fun _ => true).of_links ((mapTiles_links ..).trans ((hrails _ _).links rfl))

theorem DeclaredDown.endPass {l : LinkDir} {s : State} (h : DeclaredDown l s) (code : Code) : DeclaredDown l (endPass code s) := by
  have hcmd : ∀ i c x, changesOnly [.out, .log, .host, .ctx] x (completeCmd i c code 0xFFFF 0 x) :=
    fun i c x => completeCmd_frame _ _ _ _ _ changesOnly_refl (List.Subset.refl _)
  unfold Machine.endPass
  split
  · exact h
  · next p _ => exact (h.of_links (t := modInstalled _ (modCtx p.slot _ (completeCmd p.slot p.cmd code 0xFFFF 0 s))) ((hcmd _ _ _).links rfl)).haltPrompters

theorem DeclaredDown.leaveStep {l : LinkDir} {s : State} (h : DeclaredDown l s) : DeclaredDown l (leaveStep s) := by
  have habort : ∀ x, changesOnly [.out, .log, .host, .coll] x (abortColls 0x0702 x) :=
    fun x => abortColls_frame _ changesOnly_refl (List.Subset.refl _)
  have hred : ∀ i x, changesOnly [.out, .log, .host, .ctx, .coll] x (endReduction i 0x0102 x) :=
    fun i x => endReduction_frame _ _ changesOnly_refl (List.Subset.refl _)
  unfold Machine.leaveStep
  split
  · exact h
  · dsimp only
    exact ((((h.of_links (report_links ..)).endPass 0x0102).of_links ((hred _ _).links rfl)).of_links ((habort _).links rfl)).stopChart.of_links
      ((setSlotState_frame _ _ changesOnly_refl (List.Subset.refl _)).links rfl)

theorem DeclaredDown.loseRegions {l : LinkDir} {s : State} (h : DeclaredDown l s) (ids : List Nat) :
    DeclaredDown l (loseRegions ids s) := by
  unfold Machine.loseRegions
  split
  · exact h
  · exact DeclaredDown.leaveStep (s := modInstalled _ s) h

theorem DeclaredDown.addEntry {l : LinkDir} {s : State} (h : DeclaredDown l s) (kind t detail : Nat) :
    DeclaredDown l (addEntry kind t detail s) := by
  unfold Machine.addEntry
  split
  · exact h
  · exact (h.of_links (report_links ..)).loseRegions _

theorem DeclaredDown.faultRegions {l : LinkDir} {s : State} (h : DeclaredDown l s) (ids : List Nat) (code : Code) (die : Option DieId) :
    DeclaredDown l (faultRegions ids code die s) := by
  unfold Machine.faultRegions
  split
  · dsimp only
    split
    · exact h
    · exact (h.closePackets _).of_links rfl
  · exact h

/-- A link that goes down is declared down (R43). -/
theorem linkDown_declared (l : LinkDir) (s : State) : DeclaredDown l (linkDown l s) := by
  have hdown : DeclaredDown l (modLink l (fun k => { k with down := true, waiting := false, fails := 0 }) s) := by
    unfold modLink
    split
    · next h =>
      obtain ⟨k, hk, hl⟩ := List.any_eq_true.1 h
      exact ⟨_, List.mem_map.2 ⟨k, hk, if_pos (of_decide_eq_true hl)⟩, of_decide_eq_true hl, rfl⟩
    · exact ⟨_, List.mem_append_right _ (List.mem_singleton.2 rfl), rfl, rfl⟩
  unfold linkDown
  exact ((hdown.of_links (report_links ..)).addEntry _ _ _).faultRegions _ _ _

/-! ### Heartbeats and replay (R38, R40) -/

/-- A CRC error notes the flit, waits for its replay and asks for it on the direction that drives the other way (R38). -/
theorem crcError_acts (l : LinkDir) (q : BitVec 6) (s : State) :
    (crcError l q s).out = s.out ++ .replayReq l q ::
      ((reverseDir l).map fun y => Output.meshFlit y (replayCycle (crcError l q s) y q)).toList ∧
    linkState (crcError l q s) l = { linkState s l with
      flit := q, waiting := true,
      fails := if (linkState s l).flit == q && decide (0 < (linkState s l).fails) then (linkState s l).fails + 1 else 1 } := by
  have hlink := linkState_modLink l (fun k => { k with
    flit := q, waiting := true,
    fails := if (linkState s l).flit == q && decide (0 < (linkState s l).fails) then k.fails + 1 else 1 }) s fun _ => rfl
  have hout := (modLink_changes l (fun k => { k with
    flit := q, waiting := true,
    fails := if (linkState s l).flit == q && decide (0 < (linkState s l).fails) then k.fails + 1 else 1 }) s).out rfl
  unfold crcError
  dsimp only
  split
  · next x hx =>
    rw [hx, emit_out, emit_out, hout]
    exact ⟨by rw [List.append_assoc]; rfl, hlink⟩
  · next hx =>
    rw [hx, emit_out, hout]
    exact ⟨rfl, hlink⟩

theorem foldl_emit_out {α : Type} (f : α → Output) (as : List α) (s : State) :
    (as.foldl (fun s a => emit (f a) s) s).out = s.out ++ as.map f := by
  induction as generalizing s with
  | nil => simp
  | cons a as ih => rw [List.foldl_cons, ih, emit_out, List.append_assoc]; rfl

theorem faultTile_changes (t : Nat) (code : Code) (s : State) : changesOnly [.out, .installed, .tiles, .links] s (faultTile t code s) :=
  faultTile_frame t code changesOnly_refl (List.Subset.refl _)

/-- Settles O17. -/
theorem meshWatchRuns : Obligations.MeshWatchRuns := by
  unfold Obligations.MeshWatchRuns
  refine ⟨fun s i h => exec_when rfl h ?send, fun s i r h hc hh => exec_when rfl hh ?hear, fun s i r hl ha hs hw hr => ?first,
    fun s i r k hl ha hs hk => ?again, fun s l w => ?crc, fun s l w hg => ?good, fun s l q hd hw hq hf hw' hr => ?resend,
    fun s l q hd hw hq hf => ?down⟩
  case send => exact ⟨sendHeartbeat_frame i _ changesOnly_refl (by decide), sendHeartbeat_out ..⟩
  case hear =>
    have hbeat : (noteBeat i r h s).tiles = (modTile i (fun y => { y with hbSeen := y.hbSeen.set r h, silent := y.silent.set r false }) s).tiles := by
      unfold noteBeat
      dsimp only
      split
      · exact (modLink_changes ..).tiles rfl
      · rfl
    refine ⟨?_, fun j hj => ?_⟩
    · show look Tile.reset (noteBeat i r h s).tiles i = _
      rw [hbeat]
      exact modTile_tileOf_same i _ hc
    · show look Tile.reset (noteBeat i r h s).tiles j = _
      rw [hbeat]
      exact modTile_tileOf_other i j _ hc hj
  case first =>
    refine exec_when rfl (by simp [hl, ha, hs]) ?_
    have hall : (s.tileOf i).silent.toList.all (fun x => !x) = true := by rw [hs]; rfl
    unfold silence
    dsimp only
    rw [if_pos hall]
    obtain ⟨hlog, hwait, -⟩ := detect_report (p := .tile i) (code := 0x0405) (e := { code := 0x0405, loc := locTile i })
      (s := modTile i (fun y => { y with silent := y.silent.set r true }) s) hw hr
    rw [(faultTile_changes ..).log rfl, (faultTile_changes ..).selfTest rfl, hlog, hwait]
    exact ⟨rfl, rfl⟩
  case again =>
    refine exec_when rfl (by simp [hl, ha, hs]) ?_
    have hall : (s.tileOf i).silent.toList.all (fun x => !x) = false := List.all_eq_false.2
      ⟨true, Vector.mem_toList_iff.2 (hk ▸ Vector.getElem_mem k.isLt), by decide⟩
    unfold silence
    dsimp only
    rw [hall, if_neg Bool.false_ne_true, report_log, report_selfTest, report_installed]
    exact ⟨rfl, rfl, rfl⟩
  case crc =>
    intro x q hcrc hdown hwait hpow
    refine exec_when rfl (by rw [hcrc, hdown, hwait, hpow]; rfl) ?_
    obtain ⟨hout, hlink⟩ := crcError_acts l q s
    rw [hlink]
    refine ⟨hout, rfl, rfl, ?_⟩
    dsimp only
    split
    · next h => exact .inr ⟨by simpa using (Bool.and_eq_true_iff.1 h).1, rfl⟩
    · exact .inl rfl
  case good => exact exec_when_not rfl (by rw [hg]; rfl)
  case resend =>
    refine exec_when rfl (by simp [hd, hw, hq]) ?_
    unfold replayFlit
    rw [if_neg (Nat.not_le.2 hf)]
    extract_lets u v k
    have hu : linkState u l = { linkState s l with waiting := false } := linkState_modLink _ _ _ fun _ => rfl
    have hmod : changesOnly [.links] s u := modLink_changes ..
    obtain ⟨hlog, -⟩ := detect_report (p := .link l) (code := 0x0840) (e := { code := 0x0840, loc := locTile l.router, value := q.toNat })
      (s := u) (by rw [hmod.selfTest rfl, hw']) (by rw [hmod.selfTest rfl, hr])
    have hlinks : v.links = u.links := ((emit_links ..).trans ((detect_changes ..).links rfl)).trans (report_links ..)
    have hk : k = { linkState s l with waiting := false } := (linkState_congr hlinks l).trans hu
    have hend := foldl_emit_out (fun x : MeshFlit => Output.meshFlit l (wiresOf k.shift x.tracks)) (keptFrom q k) v
    have hsend : changesOnly [.out] v ((keptFrom q k).foldl (fun s x => emit (.meshFlit l (wiresOf k.shift x.tracks)) s) v) :=
      foldl_frame changesOnly_refl fun x _ hy => emit_frame _ hy (List.Subset.refl _)
    rw [linkState_congr (hsend.links rfl), linkState_congr hlinks, hu, hend, hsend.log rfl]
    refine ⟨rfl, rfl, fun x hx => List.mem_append_right _ (List.mem_map.2 ⟨x, ?_, ?_⟩), ?_⟩
    · rw [hk]
      exact hx
    · rw [hk]
    · show (emit _ _).log = _
      rw [emit_log, hlog, hmod.recordOf rfl, hmod.log rfl]
  case down =>
    refine exec_when rfl (by simp [hd, hw, hq]) ?_
    unfold replayFlit
    rw [if_pos hf]
    exact ((linkDown_declared l s).of_links ((detect_changes ..).links rfl)).linkIsDown

end Sys2Proof.Machine

/-! SUPPORT. Cues from issue to completion, passes and the replay of the open layer (chapter 6). -/

namespace Sys2Proof.Machine

open Sys2Proof

/-! ### Issue (R133) -/

theorem exec_cueIssue {s : State} {i : TileId} {r : Run} {q : Cue} (e : EccFinding) (f : ArithFault) (hr : runOf s = some r)
    (hq : nextCue r i (s.tileOf i) = some q) :
    exec (.cueIssue i e f) s = .next (if issues s r (s.tileOf i) q then issueCue r i q e f s else s) := by
  show Host.Outcome.next (match runOf s with
    | some r => (match nextCue r i (s.tileOf i) with
      | some q => if issues s r (s.tileOf i) q then issueCue r i q e f s else s
      | none => s)
    | none => s) = _
  rw [hr]
  dsimp only
  rw [hq]

theorem isWire_false {q : Cue} (h : q.kind ≠ 7) : isWire q = false := by
  unfold isWire
  rw [beq_eq_false_iff_ne.2 h]
  rfl

/-- The state in which a cue that opens no layer and no phase has taken its units and opened its packet. -/
def inFlight (r : Run) (i : TileId) (q : Cue) (s : State) : State :=
  modTile i (openPacket r (s.tileOf i).pc q) (modTile i (takeUnits (flightOf s r.pass.slot (s.tileOf i).pc q)) s)

/-- A cue that opens no layer and no phase and meets no error issues by its units and its own effect. -/
theorem issueCue_clean {s : State} {r : Run} {i : TileId} {q : Cue} (f : ArithFault) (hr : runOf s = some r) (hl : q.layerStart = false)
    (hp : q.phaseId = 0xFFFF) (h7 : q.kind ≠ 7) (h9 : q.kind ≠ 9) (hv : onVector q.kind = false) :
    issueCue r i q .clean f s = issueEffect r.pass.slot r i q (s.tileOf i).pc f (inFlight r i q s) := by
  have hgate : ∀ n, passGate r i n q s = s := fun n => by unfold passGate; rw [hl]; rfl
  have hphase : openPhaseOf q s = s := if_pos hp
  unfold issueCue
  dsimp only
  rw [isWire_false h7, Bool.false_and, if_neg Bool.false_ne_true]
  dsimp only
  rw [hgate, hphase, hr, if_neg h9]
  unfold useVregs
  rw [hv]
  rfl

/-- A DEFER_DW joins its tile's queue (R139). -/
theorem issueCue_defer {s : State} {r : Run} {i : TileId} {q : Cue} (f : ArithFault) (hr : runOf s = some r) (hl : q.layerStart = false)
    (hp : q.phaseId = 0xFFFF) (h9 : q.kind = 9) : issueCue r i q .clean f s = modTile i (fun y => { y with
      pc := (s.tileOf i).pc + 1, waitSaid := false, deferred := y.deferred ++ [((s.tileOf i).pc, q)] }) s := by
  have hgate : ∀ n, passGate r i n q s = s := fun n => by unfold passGate; rw [hl]; rfl
  have hphase : openPhaseOf q s = s := if_pos hp
  unfold issueCue
  dsimp only
  rw [isWire_false (by omega), Bool.false_and, if_neg Bool.false_ne_true]
  dsimp only
  rw [hgate, hphase, hr, if_pos h9]
  rfl

/-- A product is made at its issue: the memory is that of its work (R133). -/
theorem issueEffect_product {r : Run} {i : TileId} {q : Cue} (n : Nat) (f : ArithFault) (s : State)
    (hk : q.kind = 1 ∨ q.kind = 2 ∨ q.kind = 3) : (issueEffect r.pass.slot r i q n f s).mem =
      (workOf s r.pass.slot (cueEnv s r.pass.slot r [i.val] q f)).mem := by
  have hmat : (isMatmul q.kind && !(q.kind == 9) || q.kind == 4 || q.kind == 5 || q.kind == 6) = true := by
    obtain h | h | h := hk <;> rw [h] <;> rfl
  have h6 : q.kind ≠ 6 := by omega
  have hjoin : isJoined q = false := by
    unfold isJoined
    obtain h | h | h := hk <;> rw [h] <;> rfl
  unfold issueEffect computeIssue
  rw [if_pos hmat, if_neg h6, hjoin]
  dsimp only
  rw [if_neg Bool.false_ne_true, if_neg h6, (reportWork_frame _ _ _ _ _ _ changesOnly_refl (List.Subset.refl _)).mem rfl,
    ((setRan_frame _ _ changesOnly_refl (List.Subset.refl _)).mem rfl), (noteLevels_frame _ _ _ changesOnly_refl (List.Subset.refl _)).mem rfl]

theorem issueEffect_none {r : Run} {i : TileId} {q : Cue} (n : Nat) (f : ArithFault) (s : State) (hk : q.kind = 12 ∨ q.kind = 13) :
    issueEffect r.pass.slot r i q n f s = s := by
  have hmat : (isMatmul q.kind && !(q.kind == 9) || q.kind == 4 || q.kind == 5 || q.kind == 6) = false := by
    obtain h | h := hk <;> rw [h] <;> rfl
  unfold issueEffect
  rw [hmat, if_neg Bool.false_ne_true, if_neg (by omega), if_neg (by omega), if_neg (by omega)]

/-! ### Completion (R133 to R135) -/

theorem exec_cueComplete {s : State} {i : TileId} {r : Run} {f : InFlight} (n : Nat) (e : EccFinding) (hr : runOf s = some r)
    (hf : ((allInFlight (s.tileOf i)).find? fun x => x.index == n) = some f) (hw : f.cue.kind ≠ 7) :
    exec (.cueComplete i n e) s = .next (if cueDone s r i f then noteClosed (completeCue r i f e s) else s) := by
  show Host.Outcome.next (match runOf s with
    | some r => (match (allInFlight (s.tileOf i)).find? fun (f : InFlight) => f.index == n with
      | some f =>
        let s := if isWire f.cue then sendWire r.pass.slot f.cue s else s
        if cueDone s r i f then noteClosed (completeCue r i f e s) else s
      | none => s)
    | none => s) = _
  rw [hr]
  dsimp only
  rw [hf]
  dsimp only
  rw [isWire_false hw]
  rfl

theorem isMatmul_kinds {k : Nat} (h : isMatmul k = true) : k = 1 ∨ k = 2 ∨ k = 3 ∨ k = 9 := by
  unfold isMatmul at h
  simpa [or_assoc] using h

/-- A product has no effect at its completion but its signals. -/
theorem completeCue_product {r : Run} {i : TileId} {f : InFlight} (s : State) (hm : isMatmul f.cue.kind = true) :
    completeCue r i f .clean s = signal r i f.cue (modTile i (freeUnits f.index) s) := by
  have hk := isMatmul_kinds hm
  have hb : barrierType f.cue ≠ 2 := by
    unfold barrierType
    rw [beq_eq_false_iff_ne.2 (by omega : f.cue.kind ≠ 13), if_neg Bool.false_ne_true]
    decide
  have heffect : ∀ x, doneEffect r.pass.slot r i f x = x := fun x => by
    unfold doneEffect
    dsimp only
    rw [if_neg (by omega), if_neg (by omega), if_neg (by omega), if_neg (by omega), if_neg hb, if_neg (by omega)]
  unfold completeCue
  dsimp only
  rw [heffect]
  rfl

/-- Without a queued entry a drain starts none. -/
theorem startEntry_empty {i : Slot} {r : Run} {t : TileId} (f : ArithFault) (n : Nat) {s : State} (h : (s.tileOf t).deferred = []) :
    startEntry i r t f n s = s := by
  have hgo : drainGoes r t (s.tileOf t) = false := by
    unfold drainGoes
    rw [h]
    simp
  cases n with
  | zero => rfl
  | succ n =>
    unfold startEntry
    dsimp only
    rw [hgo]
    rfl

theorem noteClosed_changes (s : State) : changesOnly [.installed] s (noteClosed s) :=
  noteClosed_frame changesOnly_refl (List.Subset.refl _)

theorem signal_none {r : Run} {t : TileId} {q : Cue} (s : State) (h : q.sigMode = 0) : signal r t q s = s := by
  unfold signal
  rw [h]
  rfl

/-- Settles O18. -/
theorem cuesRun : Obligations.CuesRun := by
  unfold Obligations.CuesRun
  refine ⟨fun s i r q f hr hq hi hl hp hk => ⟨_, exec_cueIssue _ f hr hq, ?product⟩,
    fun s i r q f hc hr hq hi hl hp hk => ⟨_, exec_cueIssue _ f hr hq, ?defer⟩,
    fun s i r q f hc hr hq hi hl hp hk => ⟨_, exec_cueIssue _ f hr hq, ?plain⟩,
    fun s i r q hr hq hi e f => by rw [exec_cueIssue e f hr hq, hi]; rfl,
    fun s i r q hc hr hq hi hw => ?wait, fun s i r f hr hf hm hran => ?complete, fun s i r k q f hr hrun hc hd hs => ?entry⟩
  case product =>
    rw [if_pos hi, issueCue_clean f hr hl hp (by omega) (by omega) (by obtain h | h | h := hk <;> rw [h] <;> rfl)]
    exact issueEffect_product _ f _ hk
  case defer =>
    rw [if_pos hi, issueCue_defer f hr hl hp hk]
    exact ⟨rfl, modTile_tileOf_same i _ hc⟩
  case plain =>
    rw [if_pos hi, issueCue_clean f hr hl hp (by omega) (by omega) (by obtain h | h := hk <;> rw [h] <;> rfl), issueEffect_none _ f _ hk]
    unfold inFlight
    refine ⟨rfl, ?_, fun j hj => ?_⟩
    · rw [modTile_tileOf_same i _ (modTile_canon i _ hc), modTile_tileOf_same i _ hc]
    · rw [modTile_tileOf_other i j _ (modTile_canon i _ hc) hj, modTile_tileOf_other i j _ hc hj]
  case wait =>
    refine ⟨cueEvent r.pass.slot 0x0412 i (s.tileOf i).pc 0 (modTile i (fun y => { y with waitSaid := true }) s), ?_, ?_, ?_⟩
    · show Host.Outcome.next (match runOf s with
        | some r => (match nextCue r i (s.tileOf i) with
          | some q =>
            if issues s r (s.tileOf i) q || (s.tileOf i).waitSaid then s
            else cueEvent r.pass.slot 0x0412 i (s.tileOf i).pc 0 (modTile i (fun y => { y with waitSaid := true }) s)
          | none => s)
        | none => s) = _
      rw [hr]
      dsimp only
      rw [hq]
      dsimp only
      rw [hi, hw]
      rfl
    · unfold cueEvent
      rw [(report_changes ..).tileOf rfl]
      exact modTile_tileOf_same i _ hc
    · exact report_log ..
  case complete =>
    have hk := isMatmul_kinds hm
    have hdone : cueDone s r i f = true := by
      unfold cueDone
      dsimp only
      rw [if_neg (by omega), if_neg (by omega), if_neg (by omega), if_neg (by omega), if_neg (by omega), if_neg (by omega), hran]
    refine ⟨_, exec_cueComplete _ _ hr hf (by omega), ?_⟩
    rw [if_pos hdone, completeCue_product s hm]
  case entry =>
    refine ⟨noteClosed (entryDone r i q f s), ?_, ?_⟩
    · show Host.Outcome.next (match runOf s, (s.tileOf i).entryRun with
        | some r, some q => noteClosed (entryDone r i q.2 f s)
        | _, _ => s) = _
      rw [hr, hrun]
    · have hdone : entryDone r i q f s = modTile i (fun y => { y with entryRun := none }) s := by
        unfold entryDone
        rw [signal_none _ hs, startEntry_empty _ _ (by rw [modTile_tileOf_same i _ hc]; exact hd)]
      rw [hdone, (noteClosed_changes _).tileOf rfl]
      exact ⟨modTile_tileOf_same i _ hc, fun j hj => by rw [(noteClosed_changes _).tileOf rfl, modTile_tileOf_other i j _ hc hj]⟩

/-! ### Passes (R136, R386 to R388) -/

/-- The run of a state is its installed Chart's, with the pass in progress. -/
theorem runOf_installed {s : State} {r : Run} (h : runOf s = some r) : s.installed = some r.inst ∧ r.inst.pass = some r.pass := by
  unfold runOf at h
  cases hx : s.installed with
  | none => rw [hx] at h; exact absurd h (by simp)
  | some x =>
    rw [hx] at h
    cases hc : installedChart s with
    | none => rw [hc] at h; exact absurd h (by simp)
    | some c =>
      rw [hc] at h
      obtain ⟨p, hp, rfl⟩ := Option.map_eq_some_iff.1 h
      exact ⟨rfl, hp⟩

/-- A pass that starts is the installed Chart's (R136). -/
theorem beginPass_installed {i : Slot} {cmd : Cmd} {entry : Nat} {step : BitVec 32} {x : Installed} {c : Chart} {s : State}
    (hx : s.installed = some x) : (beginPass i cmd entry step x c s).installed = some { x with
      phase := none, slowSaid := false,
      pass := some { slot := i, cmd := cmd, entry := entry, step := step, openLayer := none, replays := 0, replayDue := !(x.faults.isEmpty),
                     hasGrad := false, run := 0, closed := false, sent := [], skip := [] } } := by
  have hsig : ∀ (l : List Reduction) (y : State), changesOnly [.signals, .coll] y
      (l.foldl (fun s r => if r.step = step then sendSignals r.descId s else s) y) := fun l y =>
    foldl_frame changesOnly_refl fun r _ hz => changesOnly_ite (sendSignals_frame _ hz (List.Subset.refl _)) hz
  have henter : ∀ y, changesOnly [.tiles] y (enterTiles c x entry y) := fun y => enterTiles_frame _ _ _ changesOnly_refl (List.Subset.refl _)
  unfold beginPass
  dsimp only
  rw [(hsig _ _).installed rfl, modInstalled_installed, modCtx_installed, (henter _).installed rfl, hx]
  rfl

/-- Levels are chosen in the ledger; the completion ring stays. -/
theorem chooseLevels_cq (i : Slot) (c : Chart) (s : State) : ((chooseLevels i c s).ctxOf i).cq = (s.ctxOf i).cq := by
  refine foldl_same (g := fun s => (s.ctxOf i).cq) (fun s e => ?_) _ s
  have hm : ∀ f, ((modLedger i e.layer f s).ctxOf i).cq = (s.ctxOf i).cq := fun f => by
    unfold modLedger
    rw [modCtx_ctxOf_same]
  dsimp only
  split
  · rw [(report_changes ..).ctxOf rfl, hm]
  · split
    · rw [(report_changes ..).ctxOf rfl, hm]
    · rw [hm]

/-- Settles O19. -/
theorem passesRun : Obligations.PassesRun := by
  unfold Obligations.PassesRun
  refine ⟨fun s i k l m hc hm => ?arrive, fun s i k l hm => ?nothing, fun s i q r x c hh hx hc he h16 => ?start, fun s r hr ho => ?finish,
    fun s r hr hd hf ho => ?replay⟩
  case arrive =>
    refine ⟨raiseCtr i k { s with signals := m }, ?_, rfl, modTile_tileOf_same i _ hc, fun j hj => modTile_tileOf_other i j _ hc hj⟩
    show Host.Outcome.next (match takeSignal i k l.toNat s.signals with
      | some l => raiseCtr i k { s with signals := l }
      | none => s) = _
    rw [hm]
  case nothing =>
    show Host.Outcome.next (match takeSignal i k l.toNat s.signals with
      | some l => raiseCtr i k { s with signals := l }
      | none => s) = _
    rw [hm]
  case start =>
    refine ⟨startRow 0x10 passStart i q s, rfl, ?_⟩
    have hstart : changesOnly [.ctx] s (started i q r s) := by
      have hread : changesOnly [.ctx] s (readHead i q s) := readHead_frame i q changesOnly_refl (List.Subset.refl _)
      exact consume_frame i q r hread (List.Subset.refl _)
    have hrun : runningChart (started i q r s) i = some c := by
      unfold runningChart chartOf at hc ⊢
      rw [hstart.installed rfl, hstart.loader rfl]
      exact hc
    rw [startRow_headStarts hh]
    unfold passStart
    dsimp only
    rw [hrun, hstart.installed rfl, hx]
    dsimp only
    rw [if_pos ⟨he, h16⟩, beginPass_installed ((hstart.installed rfl).trans hx)]
    exact ⟨_, _, rfl, rfl, rfl, rfl, rfl, rfl, rfl, rfl⟩
  case finish =>
    obtain ⟨hx, hp⟩ := runOf_installed hr
    refine ⟨finishPass r s, ?_, ?_⟩
    · show Host.Outcome.next (match runOf s with
        | some r => if passOver s r then finishPass r s else s
        | none => s) = _
      rw [hr]
      dsimp only
      rw [if_pos ho]
    · have hch : ∀ x, changesOnly [.out, .log, .host, .ctx] x (chooseLevels r.pass.slot r.chart x) := fun x =>
        chooseLevels_frame _ _ changesOnly_refl (List.Subset.refl _)
      have hcmd : ∀ x, changesOnly [.out, .log, .host, .ctx] x (completeCmd r.pass.slot r.pass.cmd 0 0xFFFF 0 x) := fun x =>
        completeCmd_frame _ _ _ _ _ changesOnly_refl (List.Subset.refl _)
      unfold finishPass
      extract_lets i u v
      have hu : changesOnly [.out, .log, .host, .ctx] s u := changesOnly_ite (hch s) changesOnly_refl
      have hcq : (u.ctxOf i).cq = (s.ctxOf i).cq := by
        show ((if isStep r.chart r.pass.entry then chooseLevels r.pass.slot r.chart s else s).ctxOf i).cq = _
        split
        · exact chooseLevels_cq ..
        · rfl
      obtain ⟨-, fv, hheld⟩ := completeCmd_acts i r.pass.cmd 0 0xFFFF 0 (modCtx i (fun c => { c with model := c.model.map dropStream }) v)
      refine ⟨?_, ?_, fv, ?_⟩
      · rw [(hcmd _).installed rfl]
        show u.installed.map _ = _
        rw [hu.installed rfl, hx]
        rfl
      · rw [(hcmd _).signals rfl]
        rfl
      · rw [hheld, modCtx_ctxOf_same, ← hcq]
        rfl
  case replay =>
    obtain ⟨hx, hp⟩ := runOf_installed hr
    refine ⟨restart r none s, ?_, ?_⟩
    · show Host.Outcome.next (match runOf s with
        | some r => if r.pass.replayDue && r.inst.faults.isEmpty then replay r s else s
        | none => s) = _
      rw [hr]
      dsimp only
      rw [hd, hf]
      unfold replay
      rw [ho]
      rfl
    · unfold restart
      dsimp only
      rw [report_installed, report_signals, report_log]
      refine ⟨⟨_, congrArg (Option.map _) hx, congrArg (Option.map _) hp⟩, ?_, rfl⟩
      exact List.filter_eq_self.2 fun x _ => rfl

end Sys2Proof.Machine

/-! SUPPORT. Queues and completion rings (R268, R270 to R285). -/

namespace Sys2Proof.Machine

open Sys2Proof

/-! ### Reading and consuming entries (R275, R279, R280) -/

/-- Only queues of one slot differ: what reading and consuming entries changes. -/
structure OnlyQueues (i : Slot) (s t : State) : Prop where
  changes : changesOnly [.ctx] s t
  others : ∀ j, j ≠ i → t.ctxOf j = s.ctxOf j
  own : ∃ qs, t.ctxOf i = { s.ctxOf i with queues := qs }

theorem OnlyQueues.refl (i : Slot) (s : State) : OnlyQueues i s s := ⟨changesOnly_refl, fun _ _ => rfl, _, rfl⟩

theorem OnlyQueues.modQueue {i : Slot} {s t : State} (h : OnlyQueues i s t) (q : QId) (f : Queue → Queue) :
    OnlyQueues i s (modQueue i q f t) := by
  obtain ⟨hc, ho, qs, hq⟩ := h
  refine ⟨modQueue_frame i q f hc (List.Subset.refl _), fun j hj => ?_, (t.ctxOf i).queues.set q (f (t.ctxOf i).queues[q]), ?_⟩
  · rw [modQueue_ctxOf_other _ _ _ _ _ hj.symm, ho j hj]
  · unfold Machine.modQueue
    rw [modCtx_ctxOf_same, hq]

theorem OnlyQueues.dropStale {i : Slot} {s t : State} (h : OnlyQueues i s t) (q : QId) (n : Nat) : OnlyQueues i s (dropStale i q n t) := by
  unfold Machine.dropStale
  split
  · exact h
  · exact h.modQueue q _

theorem readHead_onlyQueues (i : Slot) (q : QId) (s : State) : OnlyQueues i s (readHead i q s) := by
  unfold readHead
  dsimp only
  split
  · exact ((OnlyQueues.refl i s).dropStale q _).dropStale q _
  · exact (OnlyQueues.refl i s).dropStale q _

theorem started_onlyQueues (i : Slot) (q : QId) (r : Ready) (s : State) : OnlyQueues i s (started i q r s) := by
  unfold started consume
  exact (readHead_onlyQueues i q s).modQueue q _

section
variable {i : Slot} {s t : State}

theorem OnlyQueues.running (h : OnlyQueues i s t) : (t.ctxOf i).running = (s.ctxOf i).running := by
  obtain ⟨-, -, qs, hq⟩ := h
  rw [hq]

theorem OnlyQueues.cq (h : OnlyQueues i s t) : (t.ctxOf i).cq = (s.ctxOf i).cq := by
  obtain ⟨-, -, qs, hq⟩ := h
  rw [hq]

theorem OnlyQueues.model (h : OnlyQueues i s t) : (t.ctxOf i).model = (s.ctxOf i).model := by
  obtain ⟨-, -, qs, hq⟩ := h
  rw [hq]

end

/-- A command that completes at once is no longer running; its record waits for the ring (R280, R281). -/
theorem atOnce_acts (i : Slot) (q : QId) (r : Ready) (detail : Nat) (s : State) :
    ((atOnce i q r detail s).ctxOf i).running.Perm (s.ctxOf i).running ∧
    ∃ fv, ((atOnce i q r detail s).ctxOf i).cq.held =
      (s.ctxOf i).cq.held ++ [cplRecord (cmdOf q r.idx r.entry) 0 0xFFFF detail fv] := by
  obtain ⟨hrun, fv, hheld⟩ := completeCmd_acts i (cmdOf q r.idx r.entry) 0 0xFFFF detail (addRunning i (cmdOf q r.idx r.entry) s)
  have hadd : (addRunning i (cmdOf q r.idx r.entry) s).ctxOf i =
      { s.ctxOf i with running := (s.ctxOf i).running ++ [cmdOf q r.idx r.entry] } := modCtx_ctxOf_same ..
  rw [hadd] at hrun hheld
  refine ⟨?_, fv, hheld⟩
  have hperm := (List.perm_append_comm (l₁ := (s.ctxOf i).running) (l₂ := [cmdOf q r.idx r.entry])).erase (cmdOf q r.idx r.entry)
  rw [show (atOnce i q r detail s).ctxOf i = _ from rfl]
  exact (List.Perm.of_eq hrun).trans (hperm.trans (List.Perm.of_eq (List.erase_cons_head ..)))

/-- A command of chapter 11 that is refused is reported with its queue and entry, and its record waits for the ring (R278). -/
theorem refuseCmd_acts {i : Slot} {q : QId} {n : Nat} {e : Entry} {code : Code} (detail : Nat) (s : State) (h : code.toNat / 256 = 3) :
    ((refuseCmd i q n e code detail s).ctxOf i).cq.held = (s.ctxOf i).cq.held ++ [cplRecord (cmdOf q n e) code 0xFFFF detail 0] ∧
    ((refuseCmd i q n e code detail s).ctxOf i).running = (s.ctxOf i).running ∧
    (refuseCmd i q n e code detail s).log =
      pushRec s.log (recordOf { code := code, slot := BitVec.ofNat 8 i, value := queueValue q n } s) := by
  have hev : refusalEvent s i q n e code = { code := code, value := queueValue q n } := by
    unfold refusalEvent
    rw [h]
    rfl
  unfold refuseCmd holdRecord
  rw [hev]
  dsimp only
  rw [if_pos h, modCtx_ctxOf_same, modCtx_log, reportCtx_ctxOf_same, reportCtx_log]
  exact ⟨rfl, rfl, rfl⟩

/-- The refusals of an entry are codes of chapter 11. -/
theorem refusalOf_chapter {s : State} {i : Slot} {r : Ready} {code : Code} (h : refusalOf s i r = some code) : code.toNat / 256 = 3 := by
  have hcode : ∀ b c d : Bool, (if b then some 0x0301 else if c then some 0x0302 else if d then some 0x0304 else none) = some code →
      code.toNat / 256 = 3 := fun b c d h => by
    cases b <;> cases c <;> cases d <;> simp at h <;> subst h <;> rfl
  exact hcode _ _ _ h

/-- A head that is whole and breaks a rule of R278 or R279 is refused. -/
theorem refuseHead_of {i : Slot} {q : QId} {s : State} {r : Ready} {code : Code} (hfree : slotFree (s.ctxOf i) = true)
    (hmajor : (s.ctxOf i).fmtMajor = queueMajor) (hr : headOf s i q = some r) (hc : refusalOf s i r = some code) :
    refuseHead i q s = refuseCmd i q r.idx r.entry code 0 (consume i q r s) := by
  unfold refuseHead
  dsimp only
  rw [hfree, hmajor]
  simp [hr, hc]

/-! ### Cancels and rings (R271, R276, R283 to R285) -/

theorem cancelEntries_changes (i : Slot) (q : QId) (s : State) : changesOnly [.out, .log, .host, .ctx] s (cancelEntries i q s) :=
  cancelEntries_frame i q changesOnly_refl (List.Subset.refl _)

theorem cancelEntries_other {i j : Slot} (q : QId) (s : State) (h : j ≠ i) : (cancelEntries i q s).ctxOf j = s.ctxOf j := by
  unfold cancelEntries
  rw [modQueue_ctxOf_other _ _ _ _ _ h.symm]
  refine foldl_same (g := fun s => s.ctxOf j) (fun s n => ?_) _ s
  dsimp only
  split
  · rfl
  · unfold holdRecord
    rw [modCtx_ctxOf_other _ _ _ _ h.symm, reportCtx_ctxOf_other _ _ _ _ _ h.symm]

/-- A queue is latched with what its registers say, whether or not its range is good (R271). -/
theorem latchQueue_queueOf (i : Slot) (q : QId) (s : State) : ∃ ok, (latchQueue i q s).queueOf i q = { s.queueOf i q with
    latched := ok, lBase := (s.queueOf i q).base, lSize := 2 ^ (s.queueOf i q).sizeLog2.toNat, phase := true, head := 0, valid := [] } := by
  unfold latchQueue
  extract_lets x lg ok u
  refine ⟨ok, ?_⟩
  split
  · exact modQueue_queueOf_same ..
  · show ((reportCtx i _ _ u).ctxOf i).queues[q] = _
    rw [reportCtx_ctxOf_same]
    exact modQueue_queueOf_same i q _ s

/-- Settles O20. -/
theorem queueCommandsRun : Obligations.QueueCommandsRun := by
  unfold Obligations.QueueCommandsRun
  refine ⟨fun s o b hwf ha hm hlen => exec_when rfl ha ?mapped, fun s o b ha hm => exec_when rfl ha ?unmapped,
    fun s i q r code u hon hu hfree hmajor hr hc => exec_when rfl hon ?refused,
    fun s i q r hh => ⟨startRow 0x02 (fun i q r s => atOnce i q r 0 s) i q s, rfl, ?nop⟩,
    fun s i q ha hc => exec_when rfl ha ?cancel, fun s i q hc hr => exec_when rfl ?cancelDue ?cancelDone,
    fun s i ha hc => exec_when rfl (by rw [ha, hc]; rfl) ?enable, fun s i h ha => exec_when rfl ha ?head,
    fun s i l x hn => ?write, fun s i hw => exec_when rfl hw ?written⟩
  case mapped =>
    have hmem : (hostWrite o b s).mem = writeBytes s.mem (hdmKey (spanOf o).1 (spanOf o).2) b := by
      have hline : ∀ (l : List QId) (x : State), changesOnly [.out, .log, .host, .ctx, .observed] x
          (l.foldl (observeLine (spanOf o).1 (spanOf o).2 (parseEntry b)) x) := fun l x =>
        foldl_frame changesOnly_refl fun q _ hy => observeLine_frame _ _ _ q hy (List.Subset.refl _)
      unfold hostWrite
      dsimp only
      rw [hm, if_pos rfl]
      split
      · exact (hline _ _).mem rfl
      · rfl
    rw [hmem]
    exact ⟨fun k h => readByte_writeBytes_same _ _ _ _ hwf h, fun a h => readByte_writeBytes_other _ _ _ _ hwf h⟩
  case unmapped =>
    unfold hostWrite
    dsimp only
    rw [hm, if_neg Bool.false_ne_true]
    unfold countOutside
    rw [emit_mem, emit_host, reportHost_mem, reportHost_host_outsideCount]
    exact ⟨rfl, rfl⟩
  case refused =>
    subst hu
    rw [refuseHead_of hfree hmajor hr hc]
    have hs := started_onlyQueues i q r s
    obtain ⟨hheld, hrun, hlog⟩ := refuseCmd_acts (i := i) (q := q) (n := r.idx) (e := r.entry) 0 (started i q r s) (refusalOf_chapter hc)
    rw [hs.cq] at hheld
    rw [hs.running] at hrun
    rw [hs.changes.log rfl, hs.changes.recordOf rfl] at hlog
    exact ⟨hheld, hrun, hlog⟩
  case nop =>
    rw [startRow_headStarts hh]
    have hs := started_onlyQueues i q r s
    obtain ⟨hrun, fv, hheld⟩ := atOnce_acts i q r 0 (started i q r s)
    rw [hs.running] at hrun
    rw [hs.cq] at hheld
    exact ⟨hrun, fv, hheld⟩
  case cancel =>
    unfold cancelQueue
    rw [hc, if_neg Bool.false_ne_true, modQueue_queueOf_same, modQueue_mem, (cancelEntries_changes ..).mem rfl]
    refine ⟨rfl, ?_, rfl, fun j hj => ?_⟩
    · show ((cancelEntries i q s).queueOf i q).valid = []
      unfold cancelEntries
      dsimp only
      rw [modQueue_queueOf_same]
    · rw [modQueue_ctxOf_other _ _ _ _ _ hj.symm, cancelEntries_other _ _ hj]
  case cancelDue =>
    rw [hc, List.any_eq_false.2 fun c h => by simpa using hr c h]
    rfl
  case cancelDone =>
    unfold endCancel
    obtain ⟨ok, hq⟩ := latchQueue_queueOf i q (modQueue i q (fun x => { x with cancel := false }) s)
    rw [hq, modQueue_queueOf_same]
    exact ⟨rfl, rfl, rfl, rfl, rfl, rfl⟩
  case enable =>
    unfold enableRing
    dsimp only
    split
    · rw [modCtx_ctxOf_same]
      exact ⟨rfl, rfl, rfl, rfl⟩
    · rw [reportCtx_ctxOf_same, modCtx_ctxOf_same]
      exact ⟨rfl, rfl, rfl, rfl⟩
  case head =>
    refine ⟨?_, fun l hl heq hlt => ?_, fun j hj => modCtx_ctxOf_other _ _ _ _ hj.symm⟩
    · unfold headWrite
      rw [modCtx_ctxOf_same]
      dsimp only
      split
      · rfl
      · rfl
    · unfold headWrite
      rw [modCtx_ctxOf_same]
      dsimp only
      rw [hl]
      dsimp only
      rw [heq, Nat.add_sub_cancel_left, Nat.mod_self, Nat.zero_min, List.drop_zero]
  case write =>
    refine ⟨writeRecord i l x s, ?_, ?_⟩
    · show Host.Outcome.next (match nextWrite s i with
        | none => s
        | some p => writeRecord i p.1 p.2 s) = _
      rw [hn]
    · unfold writeRecord
      dsimp only
      generalize recordBytes x (s.ctxOf i).cq.phase = b
      cases l.inHdm with
      | true =>
        rw [if_pos rfl, if_pos rfl]
        refine ⟨?_, rfl, rfl⟩
        rw [emit_ctxOf, storeBytes_ctxOf, modCtx_ctxOf_same]
      | false =>
        rw [if_neg Bool.false_ne_true, if_neg Bool.false_ne_true]
        refine ⟨?_, rfl, rfl⟩
        rw [emit_ctxOf, modCtx_ctxOf_same]
  case written =>
    have hmsix : ∀ (b : Bool) (v : BitVec 6) (x : State), changesOnly [.host, .out] x (if b then sendMsix v x else x) := fun b v x =>
      changesOnly_ite (sendMsix_frame v changesOnly_refl (List.Subset.refl _)) changesOnly_refl
    unfold recordWritten
    dsimp only
    rw [(hmsix _ _ _).ctxOf rfl, modCtx_ctxOf_same]
    refine ⟨rfl, rfl, fun l hl => ?_⟩
    simp [hl]

end Sys2Proof.Machine

/-! SUPPORT. The two CXL ports and the accesses from the hosts (R260 to R268, R421). -/

namespace Sys2Proof.Machine

open Sys2Proof

/-- A command whose condition holds answers exactly its effect. -/
theorem exec_runs {c : Instr} {s : State} {g : Bool} {f : State → State} (h : exec c s = .next (when' g f s)) (hg : g = true) :
    exec c s = .next (f s) := by
  rw [h, hg, when'_true]

/-! ### One port's entry -/

theorem otherPort_ne (p : CxlId) : otherPort p ≠ p := by
  revert p
  decide

theorem modCxl_ports_same (p : CxlId) (f : CxlPort → CxlPort) (s : State) :
    (modCxl p f s).host.ports[p] = f s.host.ports[p] := by
  simp [modCxl]

/-- Sending the held interrupts changes only the pending bits of the host block. -/
theorem sendPending_host (s : State) : ∃ v, (sendPending s).host = { s.host with msixPending := v } := by
  have hrest : { (sendPending s).host with msixPending := 0 } = { s.host with msixPending := 0 } := by
    unfold sendPending
    refine foldl_same (g := fun s => { s.host with msixPending := 0 }) (fun x i => ?_) _ s
    dsimp only
    split <;> rfl
  exact ⟨(sendPending s).host.msixPending, congrArg (fun h => { h with msixPending := (sendPending s).host.msixPending }) hrest⟩

theorem sendPending_changes (s : State) : changesOnly [.host, .out] s (sendPending s) :=
  sendPending_frame changesOnly_refl (List.Subset.refl _)

/-! ### Failovers (R264) -/

/-- A failover that is allowed swaps the roles, says so later with 0x0310, and clears the start bits. -/
theorem decideFailover_allowed (auto : Bool) {s : State} (h : failoverAllowed s = true) :
    (decideFailover auto s).host.activePort = standby s ∧ (decideFailover auto s).host.swapPending = true ∧
    (decideFailover auto s).host.autoArmed = false ∧ (decideFailover auto s).log = s.log ∧
    (decideFailover auto s).ctx = s.ctx ∧ ((decideFailover auto s).host.ports[standby s]).takeOver = false := by
  unfold decideFailover
  dsimp only
  rw [h, if_pos rfl]
  refine ⟨rfl, rfl, rfl, rfl, rfl, ?_⟩
  exact congrArg CxlPort.takeOver (modCxl_ports_same (standby s) (fun p => { p with takeOver := false })
    { s with host := { s.host with failover := false } })

/-- A failover that is not allowed leaves the roles and is reported with 0x0315. -/
theorem decideFailover_refused (auto : Bool) {s : State} (h : failoverAllowed s = false) :
    (decideFailover auto s).host.activePort = s.host.activePort ∧
    (decideFailover auto s).log = pushRec s.log (recordOf { code := 0x0315, loc := locPort (standby s) } s) := by
  unfold decideFailover
  dsimp only
  rw [h, if_neg Bool.false_ne_true, reportHost_host_activePort, reportHost_log]
  exact ⟨rfl, rfl⟩

/-- What starts a failover by hand: take_over on the standby port, or the active host's failover bit. -/
theorem exec_failover {s : State} {c : Instr} (h : c = .takeOver (standby s) ∨ (c = .failover ∧ activeUp s = true)) :
    exec c s = .next (decideFailover false s) := by
  obtain rfl | ⟨rfl, hup⟩ := h
  · exact exec_runs rfl (decide_eq_true rfl)
  · exact exec_runs rfl hup

/-! ### Links (R264, R265, R421) -/

theorem loseActive_acts (s : State) : activeUp (loseActive s) = false ∧ (loseActive s).host.autoArmed = true ∧
    (loseActive s).log = pushRec s.log (recordOf { code := 0x0313, loc := locPort s.host.activePort } s) := by
  unfold loseActive
  dsimp only
  rw [reportHost_activeUp, reportHost_host_autoArmed, reportHost_log]
  refine ⟨?_, rfl, rfl⟩
  exact congrArg CxlPort.linkUp (modCxl_ports_same s.host.activePort dropLink s)

/-- What takes the active port's link: its loss, or a reset of the port. -/
theorem exec_loseActive {s : State} {c : Instr} (h : c = .activeLinkDown ∨ c = .cxlPortReset s.host.activePort)
    (hup : activeUp s = true) : exec c s = .next (loseActive s) := by
  obtain rfl | rfl := h
  · exact exec_runs rfl hup
  · show Host.Outcome.next (if s.host.activePort = s.host.activePort ∧ activeUp s then _ else _) = _
    rw [if_pos ⟨rfl, hup⟩]

/-- A link that comes up changes only its port's entry, and is reported where it is new and trained at x4. -/
theorem raiseLink_acts (p : CxlId) (x4 ide : Bool) (s : State) :
    (raiseLink p x4 ide s).host.ports[p] = { s.host.ports[p] with linkUp := true, linkX4 := x4, ideUp := ide } ∧
    (raiseLink p x4 ide s).host.activePort = s.host.activePort ∧ (raiseLink p x4 ide s).host.autoRetry = s.host.autoRetry ∧
    (raiseLink p x4 ide s).ctx = s.ctx ∧
    (raiseLink p x4 ide s).log = if x4 && !(s.host.ports[p]).linkUp then
      pushRec s.log (recordOf { code := 0x0314, loc := locPort p } s) else s.log := by
  have hp := modCxl_ports_same p (fun c => { c with linkUp := true, linkX4 := x4, ideUp := ide }) s
  unfold raiseLink
  dsimp only
  split
  · simp only [reportHost_host_ports, reportHost_host_activePort, reportHost_host_autoRetry, reportHost_ctx, reportHost_log]
    exact ⟨hp, rfl, rfl, rfl, rfl⟩
  · exact ⟨hp, rfl, rfl, rfl, rfl⟩

/-- Without a refused automatic failover there is nothing to try again. -/
theorem retryFailover_idle {s : State} (h : s.host.autoRetry = false) : retryFailover s = s := by
  unfold retryFailover
  rw [h]
  rfl

/-- The standby link comes up where no refused failover waits for it. -/
theorem exec_standbyLinkUp {s : State} (x4 ide : Bool) (hup : s.start.houseUp = true) (hr : s.host.autoRetry = false) :
    exec (.standbyLinkUp x4 ide) s = .next (raiseLink (standby s) x4 ide s) := by
  obtain ⟨-, -, hretry, -⟩ := raiseLink_acts (standby s) x4 ide s
  rw [exec_runs (c := .standbyLinkUp x4 ide) (s := s) rfl hup, retryFailover_idle (hretry.trans hr)]

/-- The active port's link returns: its failover is no longer armed or tried again. -/
theorem returnLink_active (x4 ide : Bool) (s : State) : activeUp (returnLink s.host.activePort x4 ide s) = true ∧
    (returnLink s.host.activePort x4 ide s).host.autoArmed = false ∧
    (returnLink s.host.activePort x4 ide s).host.autoRetry = false ∧
    (returnLink s.host.activePort x4 ide s).log = (raiseLink s.host.activePort x4 ide s).log ∧
    (returnLink s.host.activePort x4 ide s).ctx = (raiseLink s.host.activePort x4 ide s).ctx := by
  obtain ⟨hport, hact, -⟩ := raiseLink_acts s.host.activePort x4 ide s
  unfold returnLink
  dsimp only
  rw [if_pos hact.symm, (sendPending_changes _).log rfl, (sendPending_changes _).ctx rfl]
  generalize raiseLink s.host.activePort x4 ide s = r at hport hact ⊢
  obtain ⟨v, hv⟩ := sendPending_host { r with host := { r.host with autoArmed := false, autoRetry := false } }
  refine ⟨(congrArg (fun h : HostAttach => (h.ports[h.activePort]).linkUp) hv).trans ?_,
    congrArg HostAttach.autoArmed hv, congrArg HostAttach.autoRetry hv, rfl, rfl⟩
  simp only [hact, hport]

/-- Settles O21. -/
theorem hostPortsRun : Obligations.HostPortsRun := by
  unfold Obligations.HostPortsRun
  refine ⟨fun s c hc ha => ⟨_, exec_failover hc, decideFailover_allowed false ha⟩,
    fun s c hc ha => ⟨_, exec_failover hc, decideFailover_refused false ha⟩,
    fun s c hc hup => ⟨_, exec_loseActive hc hup, loseActive_acts s⟩,
    fun s harm hup hauto ha => exec_when rfl (by rw [harm, hup]; rfl) ?auto,
    fun s harm hup hauto => (exec_runs rfl (by rw [harm, hup]; rfl)).trans (congrArg _ ?disarm),
    fun s ide hup hr => ⟨_, exec_standbyLinkUp false ide hup hr, ?x8⟩,
    fun s ide hup hr hdown => ⟨_, exec_standbyLinkUp true ide hup hr, ?x4⟩,
    fun s c hc => ?dropped, fun s ide hup => exec_when rfl hup ?returned, fun s hw hdone => exec_when rfl ?due ?written⟩
  case auto =>
    dsimp only
    rw [if_pos hauto]
    obtain ⟨hact, hswap, -, hlog, -⟩ := decideFailover_allowed true (s := { s with host := { s.host with autoArmed := false } }) ha
    exact ⟨hact, hswap, hlog⟩
  case disarm =>
    dsimp only
    rw [hauto, if_neg Bool.false_ne_true]
  case x8 =>
    obtain ⟨hport, hact, -, -, hlog⟩ := raiseLink_acts (standby s) false ide s
    rw [hport, hact, hlog]
    exact ⟨rfl, rfl, rfl, rfl⟩
  case x4 =>
    obtain ⟨hport, -, -, -, hlog⟩ := raiseLink_acts (standby s) true ide s
    rw [hport, hlog, hdown]
    exact ⟨rfl, rfl, rfl⟩
  case dropped =>
    refine ⟨_, ?_, rfl⟩
    obtain rfl | rfl := hc
    · rfl
    · show Host.Outcome.next (if standby s = s.host.activePort ∧ activeUp s then _ else _) = _
      rw [if_neg fun h => otherPort_ne _ h.1]
  case returned =>
    obtain ⟨hup, harm, hretry, hlog, hctx⟩ := returnLink_active false ide s
    obtain ⟨-, -, -, hctx', hlog'⟩ := raiseLink_acts s.host.activePort false ide s
    exact ⟨hup, harm, hretry, hlog.trans hlog', hctx.trans hctx'⟩
  case due =>
    rw [hw, Bool.true_and, List.all_eq_true]
    intro i _
    obtain ⟨hnone, hidle⟩ := hdone i
    simp [hnone, hidle]
  case written =>
    obtain ⟨v, hv⟩ := sendPending_host { s with host := { s.host with swapPending := false } }
    rw [reportHost_host_swapPending, reportHost_log, hv, (sendPending_changes _).log rfl, (sendPending_changes _).recordOf rfl]
    exact ⟨rfl, rfl⟩

/-- Settles O22. -/
theorem hostAccessesRun : Obligations.HostAccessesRun := by
  unfold Obligations.HostAccessesRun
  refine ⟨fun s k hup => exec_when rfl hup ?standby, fun s o k hup hm hk => exec_when rfl ?due ?outside,
    fun s p n hup => exec_runs (f := emit (.doe p (Config.doeObject n.toNat))) rfl hup, fun s p hup => exec_runs (f := emit (.doe p Config.cdat)) rfl hup,
    fun s x k hup hx => (exec_runs rfl hup).trans (congrArg _ ?ide)⟩
  case standby =>
    rw [reportHost_host_standbyCount, reportHost_mem, reportHost_ctx, reportHost_log]
    exact ⟨rfl, rfl, rfl, rfl⟩
  case due =>
    rw [hup, hm, decide_eq_false hk]
    rfl
  case outside =>
    unfold countOutside
    rw [emit_host, emit_mem, emit_ctx, emit_log, reportHost_host_outsideCount, reportHost_mem, reportHost_ctx, reportHost_log]
    exact ⟨rfl, rfl, rfl, List.mem_append_right _ (List.mem_singleton_self _), rfl⟩
  case ide =>
    rw [hx]
    exact if_pos rfl

end Sys2Proof.Machine

/-! SUPPORT. The mailbox (R291 to R295, R305 to R312). -/

namespace Sys2Proof.Machine

open Sys2Proof

/-! ### A request that is served at once (R294) -/

/-- A request that is served and has an answer leaves it in the mailbox. -/
theorem mailbox_replies {op : Nat} {f : Slot → Bytes → State → Answer × State} {i : Slot} {r b : Bytes} {s u : State}
    (h : servedNow op r s) (hf : f i r (takeRequest op i r s) = (.reply b, u)) : mailbox op f i r s = respond 0 b u := by
  obtain ⟨hfree, hwait, hclosed⟩ := h
  have hwait' : mailboxWaits op (takeRequest op i r s) = false := hwait
  have hclosed' : mailboxClosed op r (takeRequest op i r s) = false := hclosed
  unfold mailbox serveRequest
  rw [hfree]
  dsimp only
  rw [hwait', hclosed', hf]
  rfl

/-- A request that is served and asks for a hand-over is answered when that ends. -/
theorem mailbox_later {op : Nat} {f : Slot → Bytes → State → Answer × State} {i : Slot} {r : Bytes} {s u : State}
    (h : servedNow op r s) (hf : f i r (takeRequest op i r s) = (.later, u)) : mailbox op f i r s = u := by
  obtain ⟨hfree, hwait, hclosed⟩ := h
  have hwait' : mailboxWaits op (takeRequest op i r s) = false := hwait
  have hclosed' : mailboxClosed op r (takeRequest op i r s) = false := hclosed
  unfold mailbox serveRequest
  rw [hfree]
  dsimp only
  rw [hwait', hclosed', hf]
  rfl

theorem answered_respond (code : Code) (b : Bytes) (u : State) : answered code b (respond code b u) := ⟨rfl, rfl, rfl, rfl⟩

theorem respond_ctxOf (code : Code) (b : Bytes) (s : State) (i : Slot) : (respond code b s).ctxOf i = s.ctxOf i := rfl

/-! ### Opening and closing (R271, R291, R297) -/

/-- Latching a slot's queues changes only their own registers and the slot's status. -/
theorem latchQueue_ctx (i : Slot) (q : QId) (s : State) : (∀ j, j ≠ i → (latchQueue i q s).ctxOf j = s.ctxOf j) ∧
    ∃ qs code ev, (latchQueue i q s).ctxOf i = { s.ctxOf i with queues := qs, lastCode := code, events := ev } := by
  unfold latchQueue
  extract_lets x lg ok u
  obtain ⟨qs, hu⟩ : ∃ qs, u.ctxOf i = { s.ctxOf i with queues := qs } := ⟨_, modCtx_ctxOf_same ..⟩
  have hother : ∀ j, j ≠ i → u.ctxOf j = s.ctxOf j := fun j hj => modQueue_ctxOf_other _ _ _ _ _ hj.symm
  clear_value u
  split
  · exact ⟨hother, _, _, _, hu⟩
  · exact ⟨fun j hj => (reportCtx_ctxOf_other _ _ _ _ _ hj.symm).trans (hother j hj), qs, _, _,
      (reportCtx_ctxOf_same i (some 3) _ u).trans (by rw [hu])⟩

/-- The slot's context after its queues are latched, in turn. -/
theorem foldl_latchQueue_ctx (i : Slot) (l : List QId) (s : State) :
    (∀ j, j ≠ i → (l.foldl (fun s q => latchQueue i q s) s).ctxOf j = s.ctxOf j) ∧
    ∃ qs code ev, (l.foldl (fun s q => latchQueue i q s) s).ctxOf i = { s.ctxOf i with queues := qs, lastCode := code, events := ev } := by
  induction l generalizing s with
  | nil => exact ⟨fun _ _ => rfl, _, _, _, rfl⟩
  | cons q l ih =>
    obtain ⟨hother, qs, code, ev, hown⟩ := latchQueue_ctx i q s
    obtain ⟨hother', qs', code', ev', hown'⟩ := ih (latchQueue i q s)
    refine ⟨fun j hj => (hother' j hj).trans (hother j hj), qs', code', ev', ?_⟩
    rw [hown] at hown'
    exact hown'

theorem openSlot_changes (i : Slot) (fp : Bytes) (stack hdm : Nat) (s : State) :
    changesOnly [.free, .out, .log, .host, .ctx] s (openSlot i fp stack hdm s) :=
  openSlot_frame i fp stack hdm changesOnly_refl (List.Subset.refl _)

/-- A slot that is opened belongs to the asker, with its space reserved and nothing of an earlier owner; the others stay. -/
theorem openSlot_opens (i : Slot) (fp : Bytes) (stack hdm : Nat) (s : State) :
    ((openSlot i fp stack hdm s).ctxOf i).state = .open' ∧ ((openSlot i fp stack hdm s).ctxOf i).ownerFp = fp ∧
    ((openSlot i fp stack hdm s).ctxOf i).stackGib = stack ∧ ((openSlot i fp stack hdm s).ctxOf i).hdmGib = hdm ∧
    ((openSlot i fp stack hdm s).ctxOf i).fences = [] ∧ ((openSlot i fp stack hdm s).ctxOf i).running = [] ∧
    ((openSlot i fp stack hdm s).ctxOf i).cq.held = [] ∧
    ((openSlot i fp stack hdm s).ctxOf i).keys = Vector.replicate 16 none ∧
    ((openSlot i fp stack hdm s).ctxOf i).model = none ∧
    ∀ j, j ≠ i → (openSlot i fp stack hdm s).ctxOf j = s.ctxOf j := by
  unfold openSlot
  extract_lets memKey u kem v w
  obtain ⟨hother, qs, code, ev, hown⟩ := foldl_latchQueue_ctx i allQueues w
  have hw : ∀ j, j ≠ i → w.ctxOf j = s.ctxOf j := fun j hj => modCtx_ctxOf_other _ _ _ _ hj.symm
  rw [hown]
  dsimp only
  have hi : w.ctxOf i = _ := modCtx_ctxOf_same ..
  rw [hi]
  exact ⟨rfl, rfl, rfl, rfl, rfl, rfl, rfl, rfl, rfl, fun j hj => (hother j hj).trans (hw j hj)⟩

/-- A slot that is closed at once: its context is destroyed, and its space is freed or zero-filled first (R297, R301). -/
theorem closeNow_acts (i : Slot) (zeroFill : Bool) (s : State) :
    ((closeNow i zeroFill true s).ctxOf i).state = .closed ∧
    (closeNow i zeroFill true s).sec.filling =
      s.sec.filling ++ if zeroFill then [(i, (s.ctxOf i).stackGib + (s.ctxOf i).hdmGib)] else [] := by
  have hfill : ∀ (n : Nat) (x : State), changesOnly [.free, .sec] x (startFill i n zeroFill true x) := fun n x =>
    startFill_frame i n zeroFill true changesOnly_refl (List.Subset.refl _)
  have hd : changesOnly [.out, .log, .host, .ctx, .loader, .mem] s (destroyCtx i s) :=
    destroyCtx_frame i changesOnly_refl (List.Subset.refl _)
  unfold closeNow
  dsimp only
  refine ⟨?_, ?_⟩
  · rw [(hfill _ _).ctxOf rfl]
    unfold destroyCtx
    dsimp only
    rw [report_ctxOf, modCtx_ctxOf_same]
    rfl
  · unfold startFill
    cases zeroFill with
    | false => simp [hd.sec rfl]
    | true => simp [hd.sec rfl]

/-! ### Keys (R308, R309, R312) -/

/-- A weight key that is put at an index is read there. -/
theorem putKeyAt_key (i : Slot) {k : Nat} (w : Option WeightKey) (s : State) (h : k < 16) :
    ((putKeyAt i k w s).ctxOf i).keys[k]? = some w := by
  unfold putKeyAt
  rw [modCtx_ctxOf_same]
  simp [Nat.mod_eq_of_lt h, h]

/-- Where no running command uses the key, its removal clears the index and ends nothing (R308). -/
theorem removeKeyAt_unused (i : Slot) {k : Nat} (s : State) (hk : k < 16)
    (h : ∀ c ∈ (s.ctxOf i).running, usesKey (s.ctxOf i) k c = false) :
    ((removeKeyAt i k s).ctxOf i).keys[k]? = some none ∧ ((removeKeyAt i k s).ctxOf i).running = (s.ctxOf i).running := by
  have hnone : (s.ctxOf i).running.filter (fun c => usesKey (s.ctxOf i) k c) = [] :=
    List.filter_eq_nil_iff.2 fun c hc => by simp [h c hc]
  unfold removeKeyAt
  dsimp only
  rw [hnone, List.foldl_nil, modCtx_ctxOf_same]
  refine ⟨putKeyAt_key i none s hk, ?_⟩
  unfold putKeyAt
  dsimp only
  rw [modCtx_ctxOf_same]

/-- Settles O23. -/
theorem mailboxRuns : Obligations.MailboxRuns := by
  unfold Obligations.MailboxRuns
  refine ⟨fun s i r hs hlen hz hlo hhi hc hd hfit => ?open', fun s i r hs hlen hb hz ho => ?close,
    fun s i r hs hlen hz hg ho hn => ?switch, fun s i r hs hlen hz hsel => ?engineReport,
    fun s i r hs hlen hz hsel ho => ?slotReport, fun s i hs => ?certs, fun s i hs => ?planes,
    fun s i b k hs hlen hkind hz ho hidx hblob hpol => ?kemKey,
    fun s i b k g hs hlen hkind hz ho hidx hgroup hblob => ?groupKey,
    fun s i r hs hlen hz ho hidx hu => ?remove, fun s i b k hs hlen hkind hz ho hblob hpol hnew hroom => ?enroll⟩
  case open' =>
    generalize hu : takeRequest 0x01 i r s = u
    have hreq : openRequest i r u = (.reply ((openSlot i (slice r 0 64) (leAt r 64 2) (leAt r 66 2) u).ctxOf i).ek,
        openSlot i (slice r 0 64) (leAt r 64 2) (leAt r 66 2) u) := by
      subst hu
      unfold openRequest
      dsimp only
      rw [if_neg (by simp [hlen, hz]; omega), if_neg (by rw [show isOpen (takeRequest 1 i r s) i = isOpen s i from rfl, hc]; simp),
        if_neg (by rw [show (takeRequest 1 i r s).sec.debugUnlocked = s.sec.debugUnlocked from rfl, hd]; simp),
        if_neg (by rw [show usedGib (takeRequest 1 i r s) = usedGib s from rfl]; omega)]
    obtain ⟨hstate, hown, hstack, hhdm, hfences, hrun, hheld, hkeys, hmodel, hother⟩ :=
      openSlot_opens i (slice r 0 64) (leAt r 64 2) (leAt r 66 2) u
    have hmem := (openSlot_changes i (slice r 0 64) (leAt r 64 2) (leAt r 66 2) u).mem rfl
    subst hu
    generalize openSlot i (slice r 0 64) (leAt r 64 2) (leAt r 66 2) (takeRequest 0x01 i r s) = v at *
    refine ⟨_, congrArg Host.Outcome.next (mailbox_replies hs hreq), hstate, hown, hstack, hhdm, hfences, hrun, hheld, fun k => ?_, hmodel,
      answered_respond _ _ _, hother, hmem⟩
    exact (congrArg (fun x : Vector (Option WeightKey) 16 => x[k]) hkeys).trans (by simp)
  case close =>
    have hreq : closeRequest .mailbox i r (takeRequest 0x02 i r s) =
        (.reply [], closeNow i ((byteAt r 0).getLsbD 0) true (takeRequest 0x02 i r s)) := by
      unfold closeRequest closeSlot openOrHolding isHolding
      rw [show (takeRequest 2 i r s).ctxOf i = s.ctxOf i from rfl]
      simp [hlen, hz, ho]
      exact hb
    obtain ⟨hstate, hfill⟩ := closeNow_acts i ((byteAt r 0).getLsbD 0) (takeRequest 0x02 i r s)
    exact ⟨_, congrArg Host.Outcome.next (mailbox_replies hs hreq), hstate, answered_respond _ _ _, hfill⟩
  case switch =>
    have hreq : switchRequest .mailbox i r (takeRequest 0x03 i r s) =
        (.later, beginHandOver ⟨none, some i, false, false, false, .mailbox⟩ (takeRequest 0x03 i r s)) := by
      unfold switchRequest switchSlot isHolding
      rw [show (takeRequest 3 i r s).ctxOf i = s.ctxOf i from rfl, show holder (takeRequest 3 i r s) = none from hn]
      simp [hlen, hz, ho]
      omega
    exact ⟨_, congrArg Host.Outcome.next (mailbox_later hs hreq), rfl, rfl, rfl⟩
  case engineReport =>
    have hreq : reportRequest i r (takeRequest 0x04 i r s) = (.reply (makeReport none (slice r 0 32) [] s).1,
        (makeReport none (slice r 0 32) [] (takeRequest 0x04 i r s)).2) := by
      unfold reportRequest
      simp [hlen, hz, hsel]
      rfl
    exact ⟨_, congrArg Host.Outcome.next (mailbox_replies hs hreq), answered_respond _ _ _, rfl, rfl⟩
  case slotReport =>
    have hreq : reportRequest i r (takeRequest 0x04 i r s) = (.reply (makeReport (some i) (slice r 0 32) (s.ctxOf i).ek s).1,
        modCtx i (fun c => { c with reports := (c.reports ++
            [Config.shake256 (makeReport (some i) (slice r 0 32) (s.ctxOf i).ek s).1 64]).drop (c.reports.length - 7) })
          (makeReport (some i) (slice r 0 32) (s.ctxOf i).ek (takeRequest 0x04 i r s)).2) := by
      have ho' : openOrHolding (takeRequest 0x04 i r s) i = true := ho
      unfold reportRequest
      simp [hlen, hz, hsel, ho']
      exact ⟨rfl, rfl⟩
    refine ⟨_, congrArg Host.Outcome.next (mailbox_replies hs hreq), answered_respond _ _ _, rfl, ?_⟩
    generalize (makeReport (some i) (slice r 0 32) (s.ctxOf i).ek s).1 = b
    rw [respond_ctxOf, modCtx_ctxOf_same]
    rfl
  case certs => exact ⟨_, congrArg Host.Outcome.next (mailbox_replies hs rfl), answered_respond _ _ _, rfl⟩
  case planes => exact ⟨_, congrArg Host.Outcome.next (mailbox_replies hs rfl), answered_respond _ _ _, rfl⟩
  case kemKey =>
    have hreq : installRequest i b (takeRequest 0x05 i b s) = (.reply [], putKeyAt i (byteAt b 1).toNat (some
        ⟨k, blobModel b, if (slice b 84 64).all (· == 0) then [] else slice b 84 64⟩) (takeRequest 0x05 i b s)) := by
      have ho' : openOrHolding (takeRequest 0x05 i b s) i = true := ho
      have hblob' : openBlob (takeRequest 0x05 i b s) i b = some k := hblob
      have hpol' : policyMet (takeRequest 0x05 i b s) i (slice b 84 64) = true := hpol
      unfold installRequest installKem
      simp [hlen, hkind, hz, ho', hblob', hpol', Nat.not_lt.2 (Nat.le_of_lt_succ hidx)]
    exact ⟨_, congrArg Host.Outcome.next (mailbox_replies hs hreq), answered_respond _ _ _, putKeyAt_key i _ _ hidx⟩
  case groupKey =>
    have hreq : installRequest i b (takeRequest 0x05 i b s) =
        (.reply [], putKeyAt i (byteAt b 1).toNat (some ⟨k, blobModel b, []⟩) (takeRequest 0x05 i b s)) := by
      have ho' : openOrHolding (takeRequest 0x05 i b s) i = true := ho
      have hgroup' : ((takeRequest 0x05 i b s).sec.groups.find? fun g => g.groupId == BitVec.ofNat 128 (leAt b 20 16) &&
        g.ownerFp == ((takeRequest 0x05 i b s).ctxOf i).ownerFp) = some g := hgroup
      unfold installRequest installGroup
      rw [hgroup']
      simp [hlen, hkind, hz, ho', hblob, Nat.not_lt.2 (Nat.le_of_lt_succ hidx)]
    exact ⟨_, congrArg Host.Outcome.next (mailbox_replies hs hreq), answered_respond _ _ _, putKeyAt_key i _ _ hidx⟩
  case remove =>
    have hreq : removeRequest i r (takeRequest 0x06 i r s) = (.reply [], removeKeyAt i (byteAt r 0).toNat (takeRequest 0x06 i r s)) := by
      have ho' : openOrHolding (takeRequest 0x06 i r s) i = true := ho
      unfold removeRequest
      simp [hlen, hz, ho', Nat.not_lt.2 (Nat.le_of_lt_succ hidx)]
    obtain ⟨hkey, hrun⟩ := removeKeyAt_unused i (takeRequest 0x06 i r s) hidx hu
    exact ⟨_, congrArg Host.Outcome.next (mailbox_replies hs hreq), answered_respond _ _ _, hkey, hrun⟩
  case enroll =>
    have hreq : enrollRequest i b (takeRequest 0x07 i b s) = (.reply [BitVec.ofNat 8 s.sec.groups.length],
        { takeRequest 0x07 i b s with sec := { (takeRequest 0x07 i b s).sec with
          groups := s.sec.groups ++ [{ groupId := blobModel b, ownerFp := (s.ctxOf i).ownerFp, key := k }] } }) := by
      have ho' : openOrHolding (takeRequest 0x07 i b s) i = true := ho
      have hblob' : openBlob (takeRequest 0x07 i b s) i b = some k := hblob
      have hpol' : policyMet (takeRequest 0x07 i b s) i (slice b 84 64) = true := hpol
      have hgroups : (takeRequest 0x07 i b s).sec.groups = s.sec.groups := rfl
      unfold enrollRequest
      dsimp only
      rw [hblob', hgroups, hnew]
      simp [hlen, hkind, hz, ho', hpol', Nat.not_le.2 hroom]
      rfl
    exact ⟨_, congrArg Host.Outcome.next (mailbox_replies hs hreq), answered_respond _ _ _, rfl⟩

end Sys2Proof.Machine

/-! SUPPORT. Hand-overs and the curtain (R296 to R301). -/

namespace Sys2Proof.Machine

open Sys2Proof

/-! ### The end of the grace (R296) -/

/-- Completing commands in turn takes each off the running ones. -/
theorem foldl_completeCmd_running (i : Slot) (code : Code) (said : Bool) (l : List Cmd) (s : State)
    (h : ∀ c ∈ l, c.opcode ≠ 0x10) :
    ((l.foldl (fun s c =>
      let e : Ev := { code := code, slot := BitVec.ofNat 8 i, value := queueValue c.q c.entry }
      let s := if said then report e s else s
      if c.opcode == 0x10 then endPass code s else completeCmd i c code 0xFFFF (cmdDetail (s.ctxOf i) c.opcode) s) s).ctxOf i).running =
      (s.ctxOf i).running.diff l := by
  induction l generalizing s with
  | nil => rw [List.diff_nil]; rfl
  | cons c l ih =>
    have hc : (c.opcode == 0x10) = false := beq_eq_false_iff_ne.2 (h c (List.mem_cons_self ..))
    have hsaid : ∀ (b : Bool) (e : Ev), (if b then report e s else s).ctxOf i = s.ctxOf i := fun b e => by
      cases b
      · rfl
      · exact (report_changes e s).ctxOf rfl i
    rw [List.foldl_cons, ih _ fun d hd => h d (List.mem_cons_of_mem _ hd), List.diff_cons]
    dsimp only
    rw [hc, if_neg Bool.false_ne_true]
    obtain ⟨hrun, -⟩ := completeCmd_acts i c code 0xFFFF (cmdDetail ((if said then report
      { code := code, slot := BitVec.ofNat 8 i, value := queueValue c.q c.entry } s else s).ctxOf i) c.opcode) (if said then report
      { code := code, slot := BitVec.ofNat 8 i, value := queueValue c.q c.entry } s else s)
    rw [hrun, hsaid]

/-- What is left of a list without those that pass a test fails it. -/
theorem not_of_mem_diff_filter {α : Type} [DecidableEq α] {p : α → Bool} {l : List α} {a : α} (h : a ∈ l.diff (l.filter p)) :
    p a = false := by
  by_contra hp
  have hp : p a = true := by simpa using hp
  have hcount := List.count_pos_iff.2 h
  rw [List.count_diff, List.count_filter hp, Nat.sub_self] at hcount
  exact Nat.lt_irrefl 0 hcount

/-- At the end of the grace only group commands and REDUCE_SHARDS still run, where no pass does. -/
theorem endGrace_running {i : Slot} {s : State} (h : ∀ c ∈ (s.ctxOf i).running, c.opcode ≠ 0x10) :
    ∀ c ∈ ((endGrace i s).ctxOf i).running, isGroupOp c.opcode = true ∨ c.opcode = 0x30 := by
  intro c hc
  unfold endGrace dropLoads at hc
  rw [modCtx_ctxOf_same] at hc
  dsimp only at hc
  unfold endOthers at hc
  rw [foldl_completeCmd_running i _ true _ s fun d hd => h d (List.mem_filter.1 hd).1] at hc
  have hp := not_of_mem_diff_filter hc
  cases hg : isGroupOp c.opcode with
  | true => exact .inl rfl
  | false =>
    rw [hg] at hp
    exact .inr (by simpa using hp)

/-! ### The curtain starts (R298 to R300) -/

theorem exec_curtainStart {s : State} {h : HandOver} (bad : List Part) (hh : s.sec.handOver = some h) (hr : handOverReady s h = true) :
    exec (.curtainStart bad) s = .next (startCurtain h bad s) := by
  show Host.Outcome.next (match s.sec.handOver with | none => s | some h => if handOverReady s h then startCurtain h bad s else s) = _
  rw [hh]
  dsimp only
  rw [hr, if_pos rfl]

/-- The outgoing slot and its Chart enter the curtain. -/
def shutOut (h : HandOver) (s : State) : State :=
  match h.outgoing with
  | some i => modCtx i (fun c => { c with state := .curtain }) (leaveChart i s)
  | none => s

theorem startCurtain_eq (h : HandOver) (bad : List Part) (s : State) : startCurtain h bad s =
    bad.foldl curtainBad (zeroStores (report { code := 0x090C, slot := slotByte h.outgoing } (mapPorts (fun _ p => curtainPort p)
      (drawCurtain (shutOut h { s with sec := { s.sec with handOver := some { h with started := true } } }))))) := rfl

theorem shutOut_changes (h : HandOver) (s : State) : changesOnly [.ctx, .loader] s (shutOut h s) := by
  unfold shutOut
  split
  · exact modCtx_frame _ _ (leaveChart_frame _ changesOnly_refl (by decide)) (by decide)
  · exact changesOnly_refl

theorem curtainBad_changes (s : State) (x : Part) : changesOnly
    [.out, .log, .host, .ctx, .loader, .installed, .tiles, .dies, .links, .signals, .defects, .mem, .coll] s (curtainBad s x) := by
  unfold curtainBad
  split
  · exact changesOnly_ite (curtainRow_frame _ _ _ _ changesOnly_refl (List.Subset.refl _)) changesOnly_refl
  · exact curtainRow_frame _ _ _ _ changesOnly_refl (List.Subset.refl _)
  · exact changesOnly_refl

theorem drawCurtain_handOver (s : State) : (drawCurtain s).sec.handOver = s.sec.handOver := rfl

/-- Whatever rows cannot be zeroed, a curtain that starts is in progress. -/
theorem startCurtain_handOver (h : HandOver) (bad : List Part) (s : State) :
    (startCurtain h bad s).sec.handOver = some { h with started := true } := by
  have hbad : ∀ x : State, (bad.foldl curtainBad x).sec = x.sec := fun x =>
    foldl_same (g := State.sec) (fun s p => (curtainBad_changes s p).sec rfl) bad x
  have hzero : ∀ x : State, changesOnly [.installed, .tiles, .signals, .mem, .ports] x (zeroStores x) := fun x =>
    zeroStores_frame changesOnly_refl (List.Subset.refl _)
  rw [startCurtain_eq, hbad, (hzero _).sec rfl, report_sec, mapPorts_sec, drawCurtain_handOver, (shutOut_changes _ _).sec rfl]

/-- Below the HDM ranges the zeroed stores read 0, above them every byte is as it was. -/
theorem readByte_zeroStores {s : State} (a : Nat) (h : Memory.wf s.mem) :
    readByte (zeroStores s).mem a = if a < 2 ^ 40 then 0 else readByte s.mem a := by
  have hf := look_filter unwritten s.mem (fun a => !(decide (a < 2 ^ 40))) a h
  refine hf.trans ?_
  by_cases ha : a < 2 ^ 40
  · rw [if_pos ha, decide_eq_true ha]
    rfl
  · rw [if_neg ha, decide_eq_false ha]
    rfl

theorem startCurtain_acts {h : HandOver} {s : State} (hwf : Memory.wf s.mem) :
    (startCurtain h [] s).installed = none ∧ (startCurtain h [] s).signals = [] ∧
    (∀ i, h.outgoing = some i → ((startCurtain h [] s).ctxOf i).state = .curtain) ∧
    (∀ a, a < 2 ^ 40 → readByte (startCurtain h [] s).mem a = 0) ∧
    (∀ a, 2 ^ 40 ≤ a → readByte (startCurtain h [] s).mem a = readByte s.mem a) ∧
    (startCurtain h [] s).log = pushRec s.log (recordOf { code := 0x090C, slot := slotByte h.outgoing } s) := by
  have hzero : ∀ x : State, changesOnly [.installed, .tiles, .signals, .mem, .ports] x (zeroStores x) := fun x =>
    zeroStores_frame changesOnly_refl (List.Subset.refl _)
  have hdraw : ∀ x : State, changesOnly [.free, .sec, .power] x (drawCurtain x) := fun x =>
    drawCurtain_frame changesOnly_refl (List.Subset.refl _)
  have hports : ∀ (x : State), changesOnly [.ports] x (mapPorts (fun _ p => curtainPort p) x) := fun x =>
    mapPorts_frame _ changesOnly_refl (List.Subset.refl _)
  rw [startCurtain_eq, List.foldl_nil]
  generalize hu : ({ s with sec := { s.sec with handOver := some { h with started := true } } } : State) = u
  have hmem : u.mem = s.mem := by rw [← hu]
  have hrec : ∀ e, recordOf e u = recordOf e s := fun e => by rw [← hu]; rfl
  have hlog : u.log = s.log := by rw [← hu]
  have hstore : (report { code := 0x090C, slot := slotByte h.outgoing } (mapPorts (fun _ p => curtainPort p)
      (drawCurtain (shutOut h u)))).mem = s.mem := by
    rw [report_mem, (hports _).mem rfl, (hdraw _).mem rfl, (shutOut_changes _ _).mem rfl, hmem]
  refine ⟨rfl, rfl, fun i hi => ?_, fun a ha => ?_, fun a ha => ?_, ?_⟩
  · rw [(hzero _).ctxOf rfl, report_ctxOf, (hports _).ctxOf rfl, (hdraw _).ctxOf rfl]
    unfold shutOut
    rw [hi]
    dsimp only
    rw [modCtx_ctxOf_same]
  · rw [readByte_zeroStores a (by rw [hstore]; exact hwf), if_pos ha]
  · rw [readByte_zeroStores a (by rw [hstore]; exact hwf), if_neg (Nat.not_lt.2 ha), hstore]
  · rw [(hzero _).log rfl, report_log, (hports _).log rfl, (hdraw _).log rfl, (shutOut_changes _ _).log rfl,
      (hports _).recordOf rfl, (hdraw _).recordOf rfl, (shutOut_changes _ _).recordOf rfl, hlog, hrec]

/-! ### The curtain ends (R293, R298) -/

/-- At the end of a curtain between two slots, none with a Chart for the engine, the outgoing slot is open and the other holds it. -/
theorem endCurtain_switch {s : State} {o j : Slot} {z : Bool} (hoj : o ≠ j) (hopen : (s.ctxOf j).state = .open') (hc : chartOf s j = none) :
    endCurtain ⟨some o, some j, false, z, true, .mailbox⟩ s = respond 0 [] (modCtx j (fun c => { c with state := .holding })
      (dropUnused ⟨some o, some j, false, z, true, .mailbox⟩ (report { code := 0x090D, slot := BitVec.ofNat 8 o } (sendPending
        (modCtx o (fun c => { c with state := .open' }) (mapPorts (fun _ p => uncurtainPort p)
          { s with sec := { s.sec with handOver := none, scrubKey := [] } })))))) := by
  have hdrop : ∀ (h : HandOver) (x : State), changesOnly [.dies, .mem] x (dropUnused h x) := fun h x =>
    dropUnused_frame h changesOnly_refl (List.Subset.refl _)
  unfold endCurtain
  dsimp only [Bool.false_and]
  generalize hu : dropUnused ⟨some o, some j, false, z, true, .mailbox⟩ (report { code := 0x090D, slot := BitVec.ofNat 8 o } (sendPending
        (modCtx o (fun c => { c with state := .open' }) (mapPorts (fun _ p => uncurtainPort p)
          { s with sec := { s.sec with handOver := none, scrubKey := [] } })))) = u
  have hstate : (u.ctxOf j).state = .open' := by
    rw [← hu, (hdrop _ _).ctxOf rfl, report_ctxOf, (sendPending_changes _).ctxOf rfl, modCtx_ctxOf_other _ _ _ _ hoj]
    exact hopen
  have hchart : chartOf u j = none := by
    unfold chartOf at hc ⊢
    rw [← hu, (hdrop _ _).loader rfl, report_loader, (sendPending_changes _).loader rfl]
    exact hc
  have hin : settleIncoming ⟨some o, some j, false, z, true, .mailbox⟩ u = modCtx j (fun c => { c with state := .holding }) u := by
    unfold settleIncoming
    dsimp only
    rw [if_pos hstate]
    unfold beginInstall
    rw [show chartOf (modCtx j (fun c => { c with state := .holding }) u) j = none from hchart]
  exact congrArg (respond 0 []) ((congrArg (settleIncoming _) hu).trans hin)

theorem pumpPorts_changes (s : State) : changesOnly [.out, .ports] s (pumpPorts s) :=
  pumpPorts_frame changesOnly_refl (List.Subset.refl _)

/-- Settles O24. -/
theorem handOversRun : Obligations.HandOversRun := by
  unfold Obligations.HandOversRun
  refine ⟨fun s i hi hp => ⟨endGrace i s, ?graceRow, ?grace⟩,
    fun s h bad hh hr => ⟨_, exec_curtainStart bad hh hr, startCurtain_handOver h bad s⟩,
    fun s h hh hr hwf => ⟨_, exec_curtainStart [] hh hr, ?shut, startCurtain_acts hwf⟩,
    fun s o j z hh hw hoj hopen hc => ?ended, fun s i n hf hc => ?filled⟩
  case graceRow =>
    show Host.Outcome.next (match leaving s with | some i => endGrace i s | none => s) = _
    rw [hi]
  case grace =>
    have hg : changesOnly [.out, .log, .host, .ctx, .installed, .tiles, .links, .signals] s (endGrace i s) :=
      endGrace_frame i changesOnly_refl (List.Subset.refl _)
    exact ⟨by rw [hg.sec rfl], endGrace_running hp⟩
  case shut =>
    unfold inCurtain
    rw [startCurtain_handOver]
  case ended =>
    have hdrop : ∀ (h : HandOver) (x : State), changesOnly [.dies, .mem] x (dropUnused h x) := fun h x =>
      dropUnused_frame h changesOnly_refl (List.Subset.refl _)
    generalize hu : dropUnused ⟨some o, some j, false, z, true, .mailbox⟩ (report { code := 0x090D, slot := BitVec.ofNat 8 o }
      (sendPending (modCtx o (fun c => { c with state := .open' }) (mapPorts (fun _ p => uncurtainPort p)
        { s with sec := { s.sec with handOver := none, scrubKey := [] } })))) = u
    have hend := endCurtain_switch (z := z) hoj hopen hc
    rw [hu] at hend
    have hsec : u.sec = { s.sec with handOver := none, scrubKey := [] } := by
      rw [← hu, (hdrop _ _).sec rfl, report_sec, (sendPending_changes _).sec rfl]
      rfl
    have hctx : ∀ k, u.ctxOf k = (modCtx o (fun c => { c with state := .open' }) s).ctxOf k := fun k => by
      rw [← hu, (hdrop _ _).ctxOf rfl, report_ctxOf, (sendPending_changes _).ctxOf rfl]
      rfl
    have hlog : u.log = pushRec s.log (recordOf { code := 0x090D, slot := BitVec.ofNat 8 o } s) := by
      rw [← hu, (hdrop _ _).log rfl, report_log, (sendPending_changes _).log rfl, (sendPending_changes _).recordOf rfl]
      rfl
    have hpump := pumpPorts_changes (respond 0 [] (modCtx j (fun c => { c with state := .holding }) u))
    have hwait : (pumpPorts (respond 0 [] (modCtx j (fun c => { c with state := .holding }) u))).sec.waiting = none := by
      rw [hpump.sec rfl]
      exact (congrArg Security.waiting hsec).trans hw
    have hserve : ∀ x : State, x.sec.waiting = none → serveWaiting x = x := fun x hx => by
      unfold serveWaiting
      rw [hx]
    refine ⟨pumpPorts (respond 0 [] (modCtx j (fun c => { c with state := .holding }) u)), ?_, ?_⟩
    · show Host.Outcome.next (match s.sec.handOver with
        | none => s
        | some h => if h.started then serveWaiting (pumpPorts (endCurtain h s)) else s) = _
      rw [hh]
      dsimp only
      rw [if_pos rfl, hend, hserve _ hwait]
    · simp only [hpump.sec rfl, hpump.ctxOf rfl, hpump.log rfl, respond_ctxOf]
      refine ⟨congrArg Security.handOver hsec, rfl, rfl, ?_, ?_, fun k ho hj => ?_, hlog⟩
      · rw [modCtx_ctxOf_other _ _ _ _ hoj.symm, hctx, modCtx_ctxOf_same]
      · rw [modCtx_ctxOf_same]
      · rw [modCtx_ctxOf_other _ _ _ _ hj.symm, hctx, modCtx_ctxOf_other _ _ _ _ ho.symm]
  case filled =>
    refine ⟨report { code := 0x0911, slot := BitVec.ofNat 8 i } { s with sec := { s.sec with
      filling := s.sec.filling.erase (i, n), scrubKey := if (s.sec.filling.erase (i, n)).isEmpty then [] else s.sec.scrubKey } }, ?_, ?_⟩
    · show Host.Outcome.next (match s.sec.filling.find? fun p => p.1 == i with | none => s | some p => _) = _
      rw [hf]
      dsimp only
      rw [hc, if_neg Bool.false_ne_true]
    · rw [report_sec, report_log]
      exact ⟨rfl, rfl⟩

end Sys2Proof.Machine

/-! SUPPORT. Management requests (R255, R313, R321 to R328). -/

namespace Sys2Proof.Machine

open Sys2Proof

/-! ### Accepted, answered and held (R321 to R324, Table 12-4) -/

/-- A management request waits while a curtain runs. -/
theorem mgmt_held {s : State} (hup : mgmtUp s = true) (hc : inCurtain s = true) (op : Nat) (role : Role)
    (layout : Bool → Bytes → Bool) (f : MgmtReq → State → State) (r : MgmtReq) :
    mgmt op role layout f r s = holdMgmt op r s := by
  unfold mgmt
  rw [hup, hc]
  rfl

/-- A request that may start a hand-over waits behind the one of the curtain. -/
theorem whenHandsFree_held {s : State} (hup : mgmtUp s = true) (hc : inCurtain s = true) (op : Nat)
    (f : MgmtReq → State → State) (r : MgmtReq) : whenHandsFree op f r s = holdMgmt op r s := by
  have hh : handsFree s = false := by
    unfold inCurtain at hc
    unfold handsFree
    split at hc
    · rename_i h hs
      rw [hs]
      rfl
    · exact absurd hc Bool.false_ne_true
  unfold whenHandsFree
  rw [hh, hup]
  rfl

theorem answer_portOf (op : Nat) (code : Code) (b : Bytes) (s : State) (p : PortId) : (answer op code b s).portOf p = s.portOf p := rfl

theorem whenHandsFree_free {s : State} (h : handsFree s = true) (op : Nat) (f : MgmtReq → State → State) (r : MgmtReq) :
    whenHandsFree op f r s = f r s := by
  unfold whenHandsFree
  rw [h]
  rfl

/-- The index that a byte gives for one of `n` entries. -/
theorem ofNat_index {n : Nat} [NeZero n] {i : Fin n} {b : Byte} (h : b.toNat = i) : Fin.ofNat n b.toNat = i := by
  rw [h]
  exact Fin.ofNat_val_eq_self i

/-- One entry of a table of `n` is set, the others stay. -/
theorem set_index {α : Type} {n : Nat} [NeZero n] (v : Vector α n) (x : α) {k : Fin n} {b : Byte} (h : b.toNat = k) :
    (v.set (Fin.ofNat n b.toNat) x)[k] = x ∧ ∀ j : Fin n, j ≠ k → (v.set (Fin.ofNat n b.toNat) x)[j] = v[j] := by
  have hk := ofNat_index h
  subst hk
  exact ⟨Vector.getElem_set_self _, fun j hj => Vector.getElem_set_ne _ _ fun hkj => hj (Fin.ext hkj.symm)⟩

/-! ### A reset by management (R421) -/

theorem resetByMgmt_acts (s : State) : (resetByMgmt s).start.resetCause = 2 ∧ (resetByMgmt s).ctx = State.reset.ctx ∧
    (resetByMgmt s).installed = none ∧ (resetByMgmt s).mem = [] ∧
    (resetByMgmt s).ident = { s.ident with bootEpoch := s.ident.bootEpoch + 1 } := by
  have hr := resetState_changes 2 true (dropForReset s)
  have hident : (resetState 2 true (dropForReset s)).ident = s.ident := (hr.ident rfl).trans ((dropForReset_changes s).ident rfl)
  have hstart := hr.start rfl
  have hctx := hr.ctx rfl
  have hinst := hr.installed rfl
  have hmem := hr.mem rfl
  unfold resetByMgmt
  generalize resetState 2 true (dropForReset s) = x at *
  obtain ⟨u, hu, hrun⟩ := runRom_cases x
  have hx : u.ident = { s.ident with bootEpoch := s.ident.bootEpoch + 1 } := (hu.ident rfl).trans (by rw [← hident]; rfl)
  have hcause : u.start.resetCause = 2 := (congrArg Startup.resetCause (hu.start rfl)).trans (congrArg Startup.resetCause hstart)
  obtain ⟨b, h⟩ | h := hrun
  all_goals
    rw [h]
    exact ⟨hcause, (hu.ctx rfl).trans hctx, (hu.installed rfl).trans hinst, (hu.mem rfl).trans hmem, hx⟩

/-! ### Contexts by management (R294, R297, R298) -/

/-- A management request closes an open slot at once. -/
theorem mgmtContext_close {s : State} {i : Slot} (b : Byte) (r : MgmtReq) (hi : (byteAt r.body 0).toNat = i)
    (ho : (s.ctxOf i).state = .open') :
    mgmtContext 0x0030 (fun i s => closeRequest .management i ((b &&& 1) :: List.replicate 7 0) s) r s =
      answer 0x0030 0 [] (closeNow i (((b &&& 1) : Byte).getLsbD 0) true s) := by
  have hbit : (b &&& 1) &&& 0xFE = 0 := by
    rw [BitVec.and_assoc]
    exact BitVec.and_zero
  have hreq : closeRequest .management i ((b &&& 1) :: List.replicate 7 0) s =
      (.reply [], closeNow i (((b &&& 1) : Byte).getLsbD 0) true s) := by
    unfold closeRequest closeSlot openOrHolding isHolding
    rw [show byteAt ((b &&& 1) :: List.replicate 7 0) 0 = b &&& 1 from rfl, hbit,
      show zeros ((b &&& 1) :: List.replicate 7 0) 1 7 = true from rfl, ho]
    rfl
  unfold mgmtContext
  dsimp only
  rw [ofNat_index hi, hreq]

/-- A management request begins the hand-over of a free engine to an open slot. -/
theorem mgmtContext_switch {s : State} {i : Slot} (r : MgmtReq) (hi : (byteAt r.body 0).toNat = i)
    (hg : leAt (slice r.body 4 4) 0 4 ≤ 10000) (ho : (s.ctxOf i).state = .open') (hn : holder s = none) :
    mgmtContext 0x0031 (fun i s => switchRequest .management i (slice r.body 4 4 ++ List.replicate 4 0) s) r s =
      beginHandOver ⟨none, some i, false, false, false, .management⟩ s := by
  have hlen : (slice r.body 4 4).length = 4 := by
    unfold slice
    rw [List.length_append, List.length_replicate]
    exact Nat.add_sub_cancel' (List.length_take_le 4 _)
  have hle : leAt (slice r.body 4 4 ++ List.replicate 4 0) 0 4 = leAt (slice r.body 4 4) 0 4 := by
    unfold leAt
    rw [List.drop_zero, List.drop_zero, List.take_left' hlen, List.take_of_length_le (Nat.le_of_eq hlen)]
  have hzero : zeros (slice r.body 4 4 ++ List.replicate 4 0) 4 4 = true := by
    unfold zeros
    rw [List.drop_left' hlen]
    rfl
  have hreq : switchRequest .management i (slice r.body 4 4 ++ List.replicate 4 0) s =
      (.later, beginHandOver ⟨none, some i, false, false, false, .management⟩ s) := by
    unfold switchRequest switchSlot isHolding
    rw [hle, hzero, List.length_append, hlen, List.length_replicate, ho, hn, decide_eq_false (Nat.not_lt.2 hg)]
    rfl
  unfold mgmtContext
  dsimp only
  rw [ofNat_index hi, hreq]

/-- Settles O25. -/
theorem operatorRequestsRun : Obligations.OperatorRequestsRun := by
  unfold Obligations.OperatorRequestsRun
  refine ⟨fun s r => ?held, fun s r ha hl => ⟨_, congrArg Host.Outcome.next (mgmt_accepted ha hl _), rfl⟩,
    fun s r ha hl => ⟨_, congrArg Host.Outcome.next (mgmt_accepted ha hl _), rfl, rfl, rfl⟩,
    fun s r ha hsize hbits hclear hlo hhi he => ⟨_, congrArg Host.Outcome.next (mgmt_accepted ha (by rw [hsize, hbits, hclear]; rfl) _), ?cap⟩,
    fun s r ha hsize hlo hhi => ⟨_, congrArg Host.Outcome.next (mgmt_accepted ha hsize _), ?slew⟩,
    fun s r ha hsize hclear hlo hhi he hor => ⟨_, congrArg Host.Outcome.next (mgmt_accepted ha (by rw [hsize, hclear]; rfl) _), ?orphan⟩,
    fun s r ha hl hb ht hw => ⟨_, congrArg Host.Outcome.next (mgmt_accepted ha hl _), ?store⟩,
    fun s r ha hsize hkind hclear =>
      ⟨_, congrArg Host.Outcome.next (mgmt_accepted ha (by rw [hsize, hclear, decide_eq_true hkind]; rfl) _), rfl, rfl, rfl⟩,
    fun s r ha hl => ⟨_, congrArg Host.Outcome.next (mgmt_accepted ha hl _), resetByMgmt_acts _⟩,
    fun s r i hh ha hsize hi hbits hclear ho => ?close, fun s r i hh ha hsize hi hclear hg ho hn => ?switch⟩
  case held =>
    have held : ∀ x ∈ mgmtRows r, mgmtUp s = true → inCurtain s = true → exec x.2 s = .next (holdMgmt x.1 r s) := by
      simp only [mgmtRows, List.forall_mem_cons]
      refine ⟨?_, ?_, ?_, ?_, ?_, ?_, ?_, ?_, fun hup hc => congrArg Host.Outcome.next (whenHandsFree_held hup hc _ _ r),
        fun hup hc => congrArg Host.Outcome.next (whenHandsFree_held hup hc _ _ r), ?_, ?_, ?_, ?_, ?_, ?_, ?_, ?_, ?_,
        fun hup hc => congrArg Host.Outcome.next (whenHandsFree_held hup hc _ _ r), fun _ hx => absurd hx List.not_mem_nil⟩
      all_goals exact fun hup hc => congrArg Host.Outcome.next (mgmt_held hup hc _ _ _ _ r)
    exact held
  case cap =>
    dsimp only
    rw [if_neg (by simp; omega)]
    unfold setCap
    rw [show (acceptCounter r s).power = s.power from rfl, he]
    exact ⟨rfl, rfl⟩
  case slew =>
    dsimp only
    rw [if_neg (by simp; omega)]
    exact ⟨rfl, rfl⟩
  case orphan =>
    dsimp only
    rw [if_neg (by simp; omega)]
    have hterm : (if s.power.expired then min s.power.capSet.toNat (leAt r.body 0 2)
        else if s.power.orphan then leAt r.body 0 2 else s.power.capTerm) = s.power.capTerm := by
      rw [he, hor]
      rfl
    exact ⟨rfl, congrArg (fun n => ({ s.power with orphanW := BitVec.ofNat 16 (leAt r.body 0 2), capTerm := n } : Power)) hterm⟩
  case store =>
    have hjoin := requestStore_management (s := acceptCounter r s) hb (.inl ht)
    rw [hjoin]
    refine ⟨?_, rfl⟩
    unfold storeJoined
    rw [show (acceptCounter r s).nv.storeWaiting = false from hw]
    rfl
  case close =>
    have hlt : (byteAt r.body 0).toNat < 8 := hi ▸ i.isLt
    refine ⟨_, congrArg Host.Outcome.next ((whenHandsFree_free hh _ _ _).trans (mgmt_accepted ha
      (by rw [hsize, hbits, hclear, decide_eq_true hlt]; rfl) _)), ?_⟩
    rw [mgmtContext_close (s := acceptCounter r s) (byteAt r.body 1) r hi ho]
    obtain ⟨hstate, -⟩ := closeNow_acts i ((byteAt r.body 1 &&& 1).getLsbD 0) (acceptCounter r s)
    exact hstate
  case switch =>
    have hlt : (byteAt r.body 0).toNat < 8 := hi ▸ i.isLt
    refine ⟨_, congrArg Host.Outcome.next ((whenHandsFree_free hh _ _ _).trans (mgmt_accepted ha
      (by rw [hsize, hclear, decide_eq_true hlt]; rfl) _)), ?_⟩
    rw [mgmtContext_switch (s := acceptCounter r s) r hi hg ho hn]
    rfl

/-! ### Administrators' requests -/

/-- SET_CABLING leaves a port's enable as it is where its bit says so, and gives it its plan (R255). -/
theorem setPlan_plan {p : PortId} {b : Bytes} {s : State} (h : (byteAt b 14).getLsbD 4 = (s.portOf p).nv.enable) :
    setPlan p b s = modPort p (fun x => { x with nv := { x.nv with
      planSerial := BitVec.ofNat 64 (leAt b 4 8), planPort := BitVec.ofNat 16 (leAt b 12 2),
      planValid := (byteAt b 14).getLsbD 0, strict := (byteAt b 14).getLsbD 1,
      verifyMode := BitVec.ofNat 2 (bits (byteAt b 14).toNat 3 2),
      berInterval := BitVec.ofNat 16 (leAt b 16 2), berPassed := false } }) s := by
  have henable : ∀ u : State, setEnable p (u.portOf p).nv.enable u = u := fun u => by
    unfold setEnable
    have hsame : modPort p (fun x => { x with nv := { x.nv with enable := (u.portOf p).nv.enable } }) u = u := by
      unfold modPort
      rw [show (fun x : Port => { x with nv := { x.nv with enable := (u.portOf p).nv.enable } }) u.ports[p] = u.ports[p] from rfl]
      rw [show u.ports.set p u.ports[p] = u.ports from Vector.set_getElem_self _]
    dsimp only
    rw [hsame]
    cases (u.portOf p).nv.enable <;> rfl
  unfold setPlan
  dsimp only
  rw [h]
  have hport : (s.portOf p).nv.enable = ((modPort p (fun x => { x with nv := { x.nv with
      planSerial := BitVec.ofNat 64 (leAt b 4 8), planPort := BitVec.ofNat 16 (leAt b 12 2),
      planValid := (byteAt b 14).getLsbD 0, strict := (byteAt b 14).getLsbD 1,
      verifyMode := BitVec.ofNat 2 (bits (byteAt b 14).toNat 3 2),
      berInterval := BitVec.ofNat 16 (leAt b 16 2), berPassed := false } }) s).portOf p).nv.enable := by
    rw [modPort_portOf_same]
  rw [hport, henable]

/-- Where no context is open, an accepted token unlocks debug at once (R328). -/
theorem unlockDebug_free {s : State} (scope : Nat) (h : ∀ i : Slot, isOpen s i = false) :
    unlockDebug scope s = finishDebug { s with sec := { s.sec with debugScope := BitVec.ofNat 3 scope } } := by
  have hclosed : ∀ i : Slot, (s.ctxOf i).state = .closed := fun i => by
    have hi := h i
    unfold isOpen at hi
    simpa using hi
  have hnone : (allSlots.filter fun i => isOpen { s with sec := { s.sec with debugScope := BitVec.ofNat 3 scope } } i &&
      !(isHolding { s with sec := { s.sec with debugScope := BitVec.ofNat 3 scope } } i)) = [] :=
    List.filter_eq_nil_iff.2 fun i _ => by
      rw [show isOpen { s with sec := { s.sec with debugScope := BitVec.ofNat 3 scope } } i = isOpen s i from rfl, h i]
      simp
  have hholder : holder { s with sec := { s.sec with debugScope := BitVec.ofNat 3 scope } } = none :=
    List.find?_eq_none.2 fun i _ => by
      rw [show ({ s with sec := { s.sec with debugScope := BitVec.ofNat 3 scope } } : State).ctxOf i = s.ctxOf i from rfl, hclosed i]
      simp
  unfold unlockDebug
  dsimp only
  rw [hnone, List.foldl_nil, hholder]

theorem finishDebug_acts (s : State) : (finishDebug s).sec.debugUnlocked = true ∧ (finishDebug s).sec.debugScope = s.sec.debugScope ∧
    (finishDebug s).ident = { s.ident with debugCount := s.ident.debugCount + 1 } ∧
    (finishDebug s).log = pushRec s.log (recordOf { code := 0x0917 } s) := by
  unfold finishDebug
  dsimp only
  rw [emit_sec, emit_ident, emit_log, report_sec, report_ident, report_log]
  exact ⟨rfl, rfl, rfl, rfl⟩

/-- Settles O26. -/
theorem adminRequestsRun : Obligations.AdminRequestsRun := by
  unfold Obligations.AdminRequestsRun
  refine ⟨fun s r ha hl hall => ⟨_, congrArg Host.Outcome.next (mgmt_accepted ha hl _), ?group⟩,
    fun s r p ha hl hp he => ⟨_, congrArg Host.Outcome.next (mgmt_accepted ha hl _), ?plan⟩,
    fun s r k ha hsize hk hclear => ?root, fun s r ha hsize hlen => ?fwBegin, fun s r u ha hlo hhi hu hfit => ?chunk,
    fun s r u f ha hl hu hf hb => ⟨_, congrArg Host.Outcome.next (mgmt_accepted ha hl _), ?commit⟩,
    fun s r k ha hsize hk hrole hclear => ?enrol, fun s r k ha hsize hk hclear => ?revoke,
    fun s r ha hsize => ⟨_, congrArg Host.Outcome.next (mgmt_accepted ha hsize _), rfl⟩,
    fun s r ha hl => ⟨_, congrArg Host.Outcome.next (mgmt_accepted ha hl _), rfl, rfl⟩,
    fun s r hh ha hsize hclear htoken hclosed => ?debug⟩
  case group =>
    dsimp only
    rw [hall]
    exact ⟨rfl, rfl⟩
  case plan =>
    have hne : (byteAt r.body 0 == 0xFF) = false := beq_eq_false_iff_ne.2 fun h => by
      rw [h] at hp
      exact absurd (hp ▸ p.isLt) (by decide)
    dsimp only
    rw [hne, if_neg Bool.false_ne_true, ofNat_index hp, setPlan_plan (s := acceptCounter r s) he]
    refine ⟨rfl, fun q hq => ?_, ?_⟩
    · rw [answer_portOf, modPort_portOf_other _ _ _ _ hq.symm]
      rfl
    · rw [answer_portOf, modPort_portOf_same]
      rfl
  case root =>
    have hlt : (byteAt r.body 0).toNat < 4 := hk ▸ k.isLt
    refine ⟨_, congrArg Host.Outcome.next (mgmt_accepted ha (by rw [hsize, hclear, decide_eq_true hlt]; rfl) _), ?_⟩
    exact set_index (acceptCounter r s).sec.roots _ hk
  case fwBegin => exact ⟨_, congrArg Host.Outcome.next (mgmt_accepted ha (by rw [hsize, decide_eq_true hlen]; rfl) _), rfl⟩
  case chunk =>
    refine ⟨_, congrArg Host.Outcome.next (mgmt_accepted ha (by rw [decide_eq_true hlo, decide_eq_true hhi]; rfl) _), ?_⟩
    rw [show (acceptCounter r s).sec.upload = some u from hu]
    dsimp only
    rw [if_neg (Nat.not_lt.2 hfit)]
    rfl
  case commit =>
    unfold commitImage
    rw [show ((acceptCounter r s).sec.upload.bind fun u => acceptImage (acceptCounter r s) u) = some f from
      (congrArg (Option.bind · fun u => acceptImage s u) hu).trans hf]
    dsimp only
    split
    · rename_i h
      exact absurd (hb.symm.trans h) Bool.false_ne_true
    · exact ⟨rfl, rfl⟩
  case enrol =>
    have hlt : (byteAt r.body 0).toNat < 8 := hk ▸ k.isLt
    refine ⟨_, congrArg Host.Outcome.next (mgmt_accepted ha
      (by rw [hsize, hclear, decide_eq_true hlt, decide_eq_true hrole]; rfl) _), ?_⟩
    exact set_index (acceptCounter r s).sec.creds _ hk
  case revoke =>
    have hlt : (byteAt r.body 0).toNat < 8 := hk ▸ k.isLt
    refine ⟨_, congrArg Host.Outcome.next (mgmt_accepted ha (by rw [hsize, hclear, decide_eq_true hlt]; rfl) _), ?_⟩
    exact set_index (acceptCounter r s).sec.creds _ hk
  case debug =>
    refine ⟨_, congrArg Host.Outcome.next ((whenHandsFree_free hh _ _ _).trans (mgmt_accepted ha (by rw [hsize, hclear]; rfl) _)), ?_⟩
    dsimp only
    rw [show tokenGood (acceptCounter r s) r.body = true from htoken, if_pos rfl,
      unlockDebug_free (s := acceptCounter r s) _ hclosed]
    obtain ⟨hun, hscope, hident, hlog⟩ := finishDebug_acts { acceptCounter r s with
      sec := { (acceptCounter r s).sec with debugScope := BitVec.ofNat 3 (leAt r.body 44 4) } }
    exact ⟨hun, hscope, hident, hlog⟩

end Sys2Proof.Machine

/-! SUPPORT. The NV store (R397 to R402). -/

namespace Sys2Proof.Machine

open Sys2Proof

/-! ### Banks (R398) -/

theorem otherBank_ne (b : Fin 2) : otherBank b ≠ b := by
  revert b
  decide

theorem modBank_same (b : Fin 2) (f : NvBank → NvBank) (s : State) : (modBank b f s).nv.banks[b] = f s.nv.banks[b] :=
  Vector.getElem_set_self _

theorem modBank_other {b c : Fin 2} (f : NvBank → NvBank) (s : State) (h : b ≠ c) : (modBank b f s).nv.banks[c] = s.nv.banks[c] :=
  Vector.getElem_set_ne b.isLt c.isLt fun hbc => h (Fin.ext hbc)

/-- Wear changes nothing of a bank but its count. -/
theorem wearUp_banks (b : Fin 2) (n : Nat) (s : State) : (∃ w, (wearUp b n s).nv.banks[b] = { s.nv.banks[b] with wear := w }) ∧
    (∀ c, b ≠ c → (wearUp b n s).nv.banks[c] = s.nv.banks[c]) ∧
    ∃ v, (wearUp b n s).nv = { s.nv with banks := v } := by
  unfold wearUp
  rw [drawNext_nv]
  exact ⟨⟨_, modBank_same b _ s⟩, fun _ h => modBank_other _ s h, _, rfl⟩

theorem answerStores_changes (n : Nat) (code : Code) (s : State) : changesOnly [.out] s (answerStores n code s) :=
  answerStores_frame n code changesOnly_refl (List.Subset.refl _)

/-! ### A write ends (R398) -/

/-- What the end of a write finds after the wear of its bank: the job is over, and the banks are as they were but for it. -/
structure Worn (b : Fin 2) (s u : State) : Prop where
  job : u.nv.job = none
  active : u.nv.active = s.nv.active
  stores : u.nv.stores = s.nv.stores
  bank : ∃ w, u.nv.banks[b] = { s.nv.banks[b] with wear := w }
  others : ∀ c, b ≠ c → u.nv.banks[c] = s.nv.banks[c]
  defects : u.defects = s.defects

theorem wearUp_worn {b : Fin 2} {n : Nat} {s u : State} (hjob : u.nv.job = none) (hactive : u.nv.active = s.nv.active)
    (hstores : u.nv.stores = s.nv.stores) (hbanks : u.nv.banks = s.nv.banks) (hdefects : u.defects = s.defects) :
    Worn b s (wearUp b n u) := by
  obtain ⟨⟨w, hb⟩, hother, v, hnv⟩ := wearUp_banks b n u
  refine ⟨by rw [hnv]; exact hjob, by rw [hnv]; exact hactive, by rw [hnv]; exact hstores, ⟨w, ?_⟩, fun c hc => ?_, hdefects⟩
  · rw [hb, hbanks]
  · rw [hother c hc, hbanks]

/-- A committed write makes its bank the active one, with what the job took. -/
theorem endWrite_commits {j : NvJob} {m : Nat} {s t : State} (hm : m < 2) (ht : endWrite j m s = t) :
    t.nv.job = none ∧ t.nv.active = otherBank s.nv.active ∧ t.nv.stores = s.nv.stores + 1 ∧
    (∃ w dg, t.nv.banks[otherBank s.nv.active] = { s.nv.banks[otherBank s.nv.active] with
      wear := w, committed := true, recordGood := true, seq := (activeBank s).seq + 1, firmware := j.firmware, fwGood := true,
      settings := j.settings, place := (s.nv.banks[otherBank s.nv.active]).place + 1,
      record := commitRecord ((activeBank s).seq + 1) (s.nv.stores.toNat + 1) (otherBank s.nv.active) dg }) ∧
    t.nv.banks[s.nv.active] = s.nv.banks[s.nv.active] ∧ t.defects.entries = markStored j.takes s.defects.entries := by
  subst ht
  unfold endWrite
  dsimp only
  rw [if_pos hm]
  have hworn : Worn (otherBank s.nv.active) s (wearUp (otherBank s.nv.active) (1 + m)
      (if m = 1 then reportNv none { code := 0x0D03, isCount := true, value := 1 } { s with nv := { s.nv with job := none } }
        else { s with nv := { s.nv with job := none } })) := by
    split
    · exact wearUp_worn (by rw [reportNv_nv]) (by rw [reportNv_nv]) (by rw [reportNv_nv]) (by rw [reportNv_nv]) (by rw [reportNv_defects])
    · exact wearUp_worn rfl rfl rfl rfl rfl
  generalize wearUp (otherBank s.nv.active) (1 + m) _ = u at hworn ⊢
  obtain ⟨hjob, hactive, hstores, ⟨w, hbank⟩, hothers, hdefects⟩ := hworn
  have hseq : activeBank u = activeBank s := by
    unfold activeBank
    simp only [hactive]
    exact hothers _ (otherBank_ne _)
  simp only [(answerStores_changes _ _ _).nv rfl, (answerStores_changes _ _ _).defects rfl, reportNv_nv, reportNv_defects, drawNext_nv]
  refine ⟨hjob, trivial, congrArg (· + 1) hstores, ⟨w, areaDigest u, ?_⟩, ?_, congrArg (fun d => markStored j.takes d.entries) hdefects⟩
  · refine (modBank_same (otherBank s.nv.active) _ u).trans ?_
    rw [hbank, hseq, hstores]
  · exact (modBank_other _ u (otherBank_ne _)).trans (hothers _ (otherBank_ne _))

/-- A write that fails a second time leaves its bank without a good record and the other one active. -/
theorem endWrite_fails {j : NvJob} {m : Nat} {s t : State} (hm : 2 ≤ m) (ht : endWrite j m s = t) :
    t.nv.job = none ∧ t.nv.active = s.nv.active ∧ t.nv.stores = s.nv.stores ∧
    (t.nv.banks[otherBank s.nv.active]).recordGood = false ∧ t.nv.banks[s.nv.active] = s.nv.banks[s.nv.active] ∧
    t.defects = s.defects := by
  subst ht
  unfold endWrite
  dsimp only
  rw [if_neg (Nat.not_lt.2 hm)]
  have hworn : Worn (otherBank s.nv.active) s (wearUp (otherBank s.nv.active) 2 { s with nv := { s.nv with job := none } }) :=
    wearUp_worn rfl rfl rfl rfl rfl
  generalize wearUp (otherBank s.nv.active) 2 _ = u at hworn ⊢
  obtain ⟨hjob, hactive, hstores, -, hothers, hdefects⟩ := hworn
  have hnv := reportNv_nv none { code := 0x0D03, isCount := true, value := 1 } u
  have hd := reportNv_defects none { code := 0x0D03, isCount := true, value := 1 } u
  generalize reportNv none { code := 0x0D03, isCount := true, value := 1 } u = v at hnv hd ⊢
  simp only [(answerStores_changes _ _ _).nv rfl, (answerStores_changes _ _ _).defects rfl, reportNv_nv, reportNv_defects]
  refine ⟨(congrArg Nv.job hnv).trans hjob, (congrArg Nv.active hnv).trans hactive, (congrArg Nv.stores hnv).trans hstores, ?_, ?_,
    hd.trans hdefects⟩
  · exact congrArg NvBank.recordGood (modBank_same (otherBank s.nv.active) (fun x => { x with recordGood := false }) v)
  · refine (modBank_other (fun x => { x with recordGood := false }) v (otherBank_ne s.nv.active)).trans ?_
    exact (congrArg (fun n : Nv => n.banks[s.nv.active]) hnv).trans (hothers _ (otherBank_ne _))

theorem exec_nvStoreComplete {s : State} {j : NvJob} (m : Nat) (h : s.nv.job = some j) :
    exec (.nvStoreComplete m) s = .next (endWrite j m s) := by
  show Host.Outcome.next (match s.nv.job with | none => s | some j => endWrite j m s) = _
  rw [h]

theorem doneWork_changes (k : BgTask) (s : State) : changesOnly [.selfTest] s (doneWork k s) :=
  doneWork_frame k changesOnly_refl (List.Subset.refl _)

/-- Settles O27. -/
theorem nvStoreRuns : Obligations.NvStoreRuns := by
  unfold Obligations.NvStoreRuns
  refine ⟨fun s hb hw ht => congrArg Host.Outcome.next ?store, fun s hb hw ht => ⟨requestStore false s, rfl, ?refused⟩,
    fun s hj hb hw => exec_when rfl (by rw [hj, hb]; rfl) ?startStore,
    fun s f hj hb hw hu ht => exec_when rfl (by rw [hj, hb]; rfl) ?startUpdate,
    fun s j m hj hm => ⟨_, exec_nvStoreComplete m hj, ?commits⟩,
    fun s j m hj hm => ⟨_, exec_nvStoreComplete m hj, endWrite_fails hm rfl⟩, fun s => rfl,
    fun s hc ht hj hb => ?upkeep, fun s => rfl⟩
  case store =>
    rw [requestStore_register hb (.inl ht)]
    unfold storeJoined
    rw [hw]
    rfl
  case refused =>
    unfold requestStore
    dsimp only
    rw [if_neg (by rw [hb]; exact Bool.false_ne_true), if_pos (by rw [hw, ht]; rfl), if_neg Bool.false_ne_true, reportNv_nv, reportNv_log]
    exact ⟨hw, ht, rfl⟩
  case startStore =>
    unfold startWrite
    dsimp only
    rw [if_pos hw]
    exact ⟨rfl, rfl, _, rfl, rfl, rfl, rfl⟩
  case startUpdate =>
    unfold startWrite
    dsimp only
    rw [if_neg (by rw [hw]; exact Bool.false_ne_true), hu]
    dsimp only
    rw [if_pos ht]
    exact ⟨rfl, rfl, _, rfl, rfl, rfl⟩
  case commits =>
    obtain ⟨hjob, hactive, hstores, ⟨w, dg, hbank⟩, hkept, hentries⟩ := endWrite_commits (j := j) (s := s) hm rfl
    rw [hbank]
    exact ⟨hjob, hactive, hstores, rfl, rfl, rfl, rfl, ⟨dg, rfl⟩, rfl, hkept, hentries⟩
  case upkeep =>
    obtain ⟨⟨w, hbank⟩, hother, v, hnv⟩ := wearUp_banks (otherBank s.nv.active) 1 (modBank (otherBank s.nv.active)
      (fun x => { x with recordGood := true }) { s with nv := { s.nv with tokens := s.nv.tokens - 1 } })
    have hrec : changesOnly [.free, .nv] s (wearUp (otherBank s.nv.active) 1 (modBank (otherBank s.nv.active)
        (fun x => { x with recordGood := true }) { s with nv := { s.nv with tokens := s.nv.tokens - 1 } })) :=
      wearUp_frame _ _ (modBank_frame _ _ (changesOnly_nv changesOnly_refl (by decide)) (by decide)) (by decide)
    refine ⟨_, congrArg (fun x => Host.Outcome.next (doneWork .nvUpkeep x)) (?_ : when' _ _ s = reportNv none { code := 0x0D09 }
      (wearUp (otherBank s.nv.active) 1 (modBank (otherBank s.nv.active) (fun x => { x with recordGood := true })
        { s with nv := { s.nv with tokens := s.nv.tokens - 1 } }))), ?_⟩
    · rw [hc, decide_eq_true ht, hj, hb]
      rfl
    · generalize wearUp (otherBank s.nv.active) 1 _ = u at hbank hother hnv hrec ⊢
      simp only [(doneWork_changes _ _).nv rfl, (doneWork_changes _ _).log rfl, reportNv_nv, reportNv_log, hrec.log rfl, hrec.recordOf rfl]
      refine ⟨(congrArg Nv.tokens hnv).trans rfl, (congrArg Nv.active hnv).trans rfl, ?_, ?_, trivial⟩
      · rw [hbank]
        exact congrArg NvBank.recordGood (modBank_same (otherBank s.nv.active) (fun x => { x with recordGood := true }) _)
      · refine (hother _ (otherBank_ne _)).trans ?_
        exact modBank_other (fun x => { x with recordGood := true }) _ (otherBank_ne s.nv.active)

end Sys2Proof.Machine

/-! SUPPORT. The training of the plane ports (R244, R248 to R255, R259). -/

namespace Sys2Proof.Machine

open Sys2Proof

/-! ### Reports, refusals and DOWN (R244) -/

/-- Two changes of a port are one. -/
theorem modPort_modPort (p : PortId) (f g : Port → Port) (s : State) : modPort p g (modPort p f s) = modPort p (fun x => g (f x)) s := by
  unfold modPort
  dsimp only
  rw [Vector.set_set]
  simp

/-- A port of the state after a change of it and a report. -/
theorem reportPort_modPort (p : PortId) (b : Option Nat) (e : Ev) (f : Port → Port) (s : State) :
    (∃ v, (reportPort p b e (modPort p f s)).portOf p = { f (s.portOf p) with lastCode := e.code, events := v }) ∧
    (∀ q, q ≠ p → (reportPort p b e (modPort p f s)).portOf q = s.portOf q) ∧
    (reportPort p b e (modPort p f s)).log = pushRec s.log (recordOf { e with loc := locPort p } s) := by
  refine ⟨⟨_, (reportPort_portOf_same p b e _).trans (by rw [modPort_portOf_same])⟩, fun q hq => ?_, ?_⟩
  · rw [reportPort_portOf_other _ _ _ _ _ hq.symm, modPort_portOf_other _ _ _ _ hq.symm]
  · rw [reportPort_log]
    rfl

/-- A training that is refused takes the port DOWN with its code. -/
theorem refusePort_acts (p : PortId) (code : Code) (bit : Option Nat) (s : State) :
    ((refusePort p code bit s).portOf p).state = .down ∧ (∀ q, q ≠ p → (refusePort p code bit s).portOf q = s.portOf q) ∧
    (refusePort p code bit s).log = pushRec s.log (recordOf { code := code, loc := locPort p } s) := by
  obtain ⟨⟨v, hport⟩, hother, hlog⟩ := reportPort_modPort p bit { code := code } downPort s
  exact ⟨congrArg Port.state hport, hother, hlog⟩

/-- A port may train again at once after it goes DOWN. -/
def retrains (p : PortId) (s : State) : Bool :=
  (s.portOf p).autoRetrain && decide ((s.portOf p).retrains.toNat < 3) && (s.portOf p).nv.enable && s.start.stacksUp

/-- A port goes DOWN with 0x080A and stays there, or begins its training again. -/
theorem portDown_acts (p : PortId) (s : State) :
    (∃ v, (portDown p s).portOf p = { (if retrains p s then { beginTrain (s.portOf p) with retrains := (s.portOf p).retrains + 1 }
      else downPort (s.portOf p)) with lastCode := 0x080A, events := v }) ∧
    (∀ q, q ≠ p → (portDown p s).portOf q = s.portOf q) ∧
    (portDown p s).log = pushRec s.log (recordOf { code := 0x080A, loc := locPort p } s) :=
  reportPort_modPort p (some 2) { code := 0x080A } _ s

/-- A port without auto_retrain stays DOWN. -/
theorem portDown_stays {p : PortId} {s : State} (h : (s.portOf p).autoRetrain = false) : ((portDown p s).portOf p).state = .down := by
  obtain ⟨⟨v, hport⟩, -⟩ := portDown_acts p s
  rw [hport]
  unfold retrains
  rw [h]
  rfl

/-! ### Training messages (R248, R251) -/

theorem sayTraining_changes (p : PortId) (kind : Nat) (b : Bytes) (s : State) : changesOnly [.out] s (sayTraining p kind b s) :=
  sayTraining_frame p kind b changesOnly_refl (List.Subset.refl _)

theorem sayTraining_out (p : PortId) (kind : Nat) (b : Bytes) (s : State) :
    (sayTraining p kind b s).out = s.out ++ trainOut p kind b := by
  rw [sayTraining_eq]

/-- A training message that is sent is awaited again until the far end's arrives. -/
theorem sendTraining_acts (p : PortId) (kind : Nat) (s : State) :
    (sendTraining p kind s).portOf p = { s.portOf p with awaiting := (s.portOf p).awaiting ++ [kind] } ∧
    (∀ q, q ≠ p → (sendTraining p kind s).portOf q = s.portOf q) ∧ (sendTraining p kind s).log = s.log ∧
    (sendTraining p kind s).out = s.out ++ trainOut p kind (trainContent s p kind) := by
  unfold sendTraining
  refine ⟨?_, fun q hq => ?_, ?_, sayTraining_out ..⟩
  · rw [(sayTraining_changes ..).portOf rfl, modPort_portOf_same]
  · rw [(sayTraining_changes ..).portOf rfl, modPort_portOf_other _ _ _ _ hq.symm]
  · rw [(sayTraining_changes ..).log rfl]
    rfl

/-- Sending the awaited messages again appends them in their order and changes nothing else. -/
theorem foldl_sayTraining (p : PortId) (l : List Nat) (s : State) :
    l.foldl (fun s k => sayTraining p k (trainContent s p k) s) s =
      { s with out := s.out ++ l.flatMap fun k => trainOut p k (trainContent s p k) } := by
  induction l generalizing s with
  | nil => simp
  | cons k l ih =>
    rw [List.foldl_cons, ih, sayTraining_eq, List.flatMap_cons]
    have hcontent : ∀ j, trainContent { s with out := s.out ++ trainOut p k (trainContent s p k) } p j = trainContent s p j := fun _ => rfl
    simp only [hcontent, List.append_assoc]

/-! ### Training flits (R241, R251) -/

theorem length_toLe (n v : Nat) : (toLe n v).length = n := by
  induction n generalizing v with
  | zero => rfl
  | succ n ih => exact congrArg (· + 1) (ih _)

theorem length_slice (b : Bytes) (off len : Nat) : (slice b off len).length = len := by
  unfold slice
  rw [List.length_append, List.length_replicate]
  exact Nat.add_sub_cancel' (List.length_take_le len _)

/-- The bytes of the second part of a string. -/
theorem slice_append_right {a b : Bytes} {n k : Nat} (ha : a.length = n) (hb : b.length = k) : slice (a ++ b) n k = b := by
  unfold slice
  rw [List.drop_left' ha, List.take_of_length_le (Nat.le_of_eq hb)]
  dsimp only
  rw [hb, Nat.sub_self, List.replicate_zero, List.append_nil]

/-- A training flit has 256 bytes, a header that says its type alone, and a tag of zero. -/
theorem trainFlit_form (b : Bytes) : (trainFlit b).length = 256 ∧ leAt (trainFlit b) 0 8 = 2 ^ 36 ∧
    slice (trainFlit b) 240 16 = List.replicate 16 0 := by
  have hhead : (toLe 8 (2 ^ 36)).length = 8 := length_toLe _ _
  have hbody : (toLe 8 (2 ^ 36) ++ slice b 0 232).length = 240 := by rw [List.length_append, hhead, length_slice]
  refine ⟨?_, ?_, slice_append_right hbody List.length_replicate⟩
  · unfold trainFlit
    rw [List.length_append, hbody, List.length_replicate]
  · unfold trainFlit leAt
    rw [List.append_assoc, List.drop_zero, List.take_left' hhead]
    rfl

/-! ### Identity (R249, R250, R252) -/

/-- The port once an ID_BLOCK has given the far identity. -/
def identified (b : Bytes) (x : Port) : Port :=
  { x with farKind := byteAt b 4, farPlane := byteAt b 5, farPort := BitVec.ofNat 16 (leAt b 6 2),
           farSerial := BitVec.ofNat 64 (leAt b 8 8), awaiting := x.awaiting.filter fun k => !(k == 1) }

theorem takeId_eq (p : PortId) (b : Bytes) (s : State) : takeId p b s = match farMinor b with
    | none => refusePort p 0x0803 (some 1) (modPort p (identified b) s)
    | some _ => compareIdentity p (modPort p (fun x => { identified b x with version := 0x00010000 }) s) := by
  unfold takeId farArrived
  dsimp only
  rw [modPort_modPort, modPort_modPort]
  rfl

/-- The far identity is the plan's, and no bit-error test is due. -/
theorem compareIdentity_plan {p : PortId} {s : State} (hkind : (s.portOf p).farKind = 2) (hplane : (s.portOf p).farPlane.toNat = p)
    (hvalid : (s.portOf p).nv.planValid = true) (hserial : (s.portOf p).farSerial = (s.portOf p).nv.planSerial)
    (hport : (s.portOf p).farPort = (s.portOf p).nv.planPort) (hmode : (s.portOf p).nv.verifyMode = 0) :
    compareIdentity p s = modPort p (fun x => { x with state := .keying }) s := by
  have hwanted : berWanted s (s.portOf p) = false := by
    unfold berWanted testsBer
    rw [hmode]
    rfl
  have hcompares : comparesIdentity (s.portOf p) = true := by
    unfold comparesIdentity
    rw [hmode]
    rfl
  unfold compareIdentity afterIdentity
  simp [hkind, hplane, hcompares, hvalid, hserial, hport, hwanted]

/-- Both sides' counts pass: keying follows, and the pass is kept and reported (R255). -/
theorem concludeBer_pass {p : PortId} {s : State} {n : List Word × Byte} {l : Byte} (hn : (s.portOf p).berNear = some n)
    (hpass : berPass n.1 (s.portOf p).berFar n.2 l = true) :
    (concludeBer p l s).portOf p = { s.portOf p with
      berDue := false, nv := { (s.portOf p).nv with berPassed := true }, lastBer := some s.ticks, state := .keying, lastCode := 0x0807 } ∧
    (concludeBer p l s).log = pushRec s.log (recordOf { code := 0x0807, loc := locPort p } s) := by
  have heq : concludeBer p l s = modPort p (fun x => { x with state := .keying }) (reportPort p none { code := 0x0807 }
      (modPort p (fun x => { x with nv := { x.nv with berPassed := true }, lastBer := some s.ticks })
        (modPort p (fun x => { x with berDue := false }) s))) := by
    unfold concludeBer
    dsimp only
    rw [hn]
    dsimp only
    rw [hpass]
    rfl
  rw [heq, modPort_portOf_same, reportPort_portOf_same, modPort_portOf_same, modPort_portOf_same, modPort_log, reportPort_log]
  exact ⟨rfl, rfl⟩

/-- Settles O28. -/
theorem portTrainingRuns : Obligations.PortTrainingRuns := by
  unfold Obligations.PortTrainingRuns
  refine ⟨fun s p he hup ht => congrArg Host.Outcome.next ?train, fun s p he hd => ⟨setEnable p false s, rfl, ?disable⟩,
    fun s p hs => exec_when rfl (decide_eq_true hs) ?pmdLocked, fun s p hs => exec_when rfl (decide_eq_true hs) ?pmdFailed,
    fun s p hs => ⟨sendTraining p 1 (modPort p (fun x => { x with state := .negotiate, framed := true, framingLoss := false }) s), ?lockRow, ?lock⟩,
    fun s p hf => exec_when rfl hf ?lost, fun p k b o ho => ?flits,
    fun s p => ⟨_, congrArg Host.Outcome.next (foldl_sayTraining p _ s), rfl, rfl⟩,
    fun s p b hs hmagic hlen hm => exec_when rfl (by rw [decide_eq_true hs, decide_eq_true hmagic, decide_eq_true hlen]; rfl) ?badMinor,
    fun s p b m hs hmagic hlen hm hkind hplane hvalid hserial hport hmode =>
      exec_when rfl (by rw [decide_eq_true hs, decide_eq_true hmagic, decide_eq_true hlen]; rfl) ?identity,
    fun s p b hs hst hb => exec_when rfl (by rw [decide_eq_true hs, decide_eq_true hst, decide_eq_true hb]; rfl) ?testReq,
    fun s p e l hs hst hfar => exec_when rfl (by rw [decide_eq_true hs, decide_eq_true hst]; rfl) ?testEnd,
    fun s p e n l k hs hn hpass => exec_when rfl (decide_eq_true hs) ?result,
    fun s p k hs => ⟨reportPort p none { code := 0x080E, value := k.toNat } s, ?discardRow, ?discard⟩,
    fun s p hd hp ha => exec_when rfl (by rw [decide_eq_false hd, decide_eq_false hp]; rfl) ⟨portDown_stays ha, ?lockLoss⟩,
    fun s p hs ha hr he hup => exec_when rfl (decide_eq_true hs) ?farDown⟩
  case train =>
    unfold trainPort
    dsimp only
    rw [he, hup, ht]
    rfl
  case disable =>
    have hport := modPort_portOf_same p (fun x => { x with nv := { x.nv with enable := false } }) s
    have heq : setEnable p false s = portDown p (modPort p (fun x => { x with nv := { x.nv with enable := false } }) s) := by
      unfold setEnable
      dsimp only
      rw [he, hport, decide_eq_false hd]
      rfl
    obtain ⟨⟨v, hown⟩, hother, hlog⟩ := portDown_acts p (modPort p (fun x => { x with nv := { x.nv with enable := false } }) s)
    have hstays : retrains p (modPort p (fun x => { x with nv := { x.nv with enable := false } }) s) = false := by
      unfold retrains
      rw [hport]
      simp
    rw [hstays, if_neg Bool.false_ne_true, hport] at hown
    rw [heq, hown]
    exact ⟨rfl, rfl, fun q hq => (hother q hq).trans (modPort_portOf_other _ _ _ _ hq.symm), hlog⟩
  case pmdLocked =>
    rw [if_pos rfl]
    exact ⟨modPort_portOf_same .., fun q hq => modPort_portOf_other _ _ _ _ hq.symm⟩
  case pmdFailed =>
    obtain ⟨hdown, -, hlog⟩ := refusePort_acts p 0x0801 none s
    exact ⟨hdown, hlog⟩
  case lockRow =>
    show Host.Outcome.next (if (s.portOf p).state = .lock then _ else _) = _
    rw [if_pos hs]
  case lock =>
    obtain ⟨hport, hother, -, hout⟩ := sendTraining_acts p 1 (modPort p (fun x => { x with
      state := .negotiate, framed := true, framingLoss := false }) s)
    rw [hport, modPort_portOf_same]
    exact ⟨rfl, hout, fun q hq => (hother q hq).trans (modPort_portOf_other _ _ _ _ hq.symm)⟩
  case lost =>
    obtain ⟨⟨v, hport⟩, -, hlog⟩ := reportPort_modPort p none { code := 0x0802, isCount := true, value := 1 }
      (fun x => { x with framed := false, framingLoss := true }) s
    rw [hport]
    exact ⟨rfl, rfl, rfl, hlog⟩
  case flits =>
    unfold trainOut at ho
    obtain rfl | ho := List.mem_cons.1 ho
    · exact .inl rfl
    · obtain ⟨x, -, rfl⟩ := List.mem_map.1 ho
      exact .inr ⟨_, rfl, trainFlit_form x⟩
  case badMinor =>
    rw [takeId_eq, hm]
    obtain ⟨hdown, -, hlog⟩ := refusePort_acts p 0x0803 (some 1) (modPort p (identified b) s)
    exact ⟨hdown, hlog⟩
  case identity =>
    have hid := modPort_portOf_same p (fun x => { identified b x with version := 0x00010000 }) s
    rw [takeId_eq, hm]
    dsimp only
    rw [compareIdentity_plan (by rw [hid]; exact hkind) (by rw [hid]; exact hplane) (by rw [hid]; exact hvalid)
      (by rw [hid]; exact hserial) (by rw [hid]; exact hport) (by rw [hid]; exact hmode), modPort_portOf_same, hid]
    exact ⟨rfl, rfl, rfl, rfl⟩
  case testReq =>
    unfold farArrived
    refine ⟨?_, fun q hq => ?_⟩
    · rw [modPort_portOf_same, modPort_portOf_same]
    · rw [modPort_portOf_other _ _ _ _ hq.symm, modPort_portOf_other _ _ _ _ hq.symm]
  case testEnd =>
    obtain ⟨hport, -, -, hout⟩ := sendTraining_acts p 3 (modPort p (fun x => { x with
      berErrors := e, berNear := some (e, l), status := .training, resume := .training }) s)
    rw [modPort_portOf_same] at hport
    dsimp only
    rw [if_neg (by rw [hport]; simp [hfar]), hport]
    refine ⟨rfl, rfl, rfl, hout.trans ?_⟩
    unfold trainContent
    rw [modPort_portOf_same]
    rfl
  case result =>
    dsimp only
    rw [if_pos (by rw [modPort_portOf_same]; simp [hn])]
    unfold farArrived
    rw [modPort_modPort]
    have hport := modPort_portOf_same p (fun x => { x with
      berFar := e, berFarSeen := true, berFarLocked := l, awaiting := x.awaiting.filter fun k => !(k == 3) }) s
    obtain ⟨hown, hlog⟩ := concludeBer_pass (p := p) (l := l) (n := (n, k)) (s := modPort p (fun x => { x with
      berFar := e, berFarSeen := true, berFarLocked := l, awaiting := x.awaiting.filter fun k => !(k == 3) }) s)
      (by rw [hport]; exact hn) (by rw [hport]; exact hpass)
    rw [hown]
    exact ⟨rfl, rfl, rfl, hlog⟩
  case discardRow =>
    show Host.Outcome.next (if (s.portOf p).state = .up then _ else _) = _
    rw [if_pos hs]
  case discard =>
    rw [reportPort_portOf_same, reportPort_log]
    exact ⟨hs, rfl⟩
  case lockLoss =>
    obtain ⟨-, hother, hlog⟩ := portDown_acts p s
    exact ⟨hother, hlog⟩
  case farDown =>
    obtain ⟨⟨v, hown⟩, -, hlog⟩ := portDown_acts p (modPort p (fun x => { x with farStatus := 5 }) s)
    have hagain : retrains p (modPort p (fun x => { x with farStatus := 5 }) s) = true := by
      unfold retrains
      rw [modPort_portOf_same]
      simp [ha, hr, he, hup]
    rw [hagain, if_pos rfl, modPort_portOf_same] at hown
    rw [hown]
    exact ⟨rfl, rfl, rfl, hlog⟩

end Sys2Proof.Machine

/-! SUPPORT. The send side of a port, and the keys of a hop (R242, R245, R314 to R317). -/

namespace Sys2Proof.Machine

open Sys2Proof

/-! ### What sending changes of a port (R242, R243, R245) -/

/-- Only the send side differs: queues, credits, the replay store, the send key's counter and what waits for the line. -/
def SendOnly (x y : Port) : Prop :=
  ∃ tq cr ns n un st rr ow, y = { x with
    txQueue := tq, credits := cr, nextSeq := ns, tx := { x.tx with counter := n }, unacked := un, stream := st, rr := rr, owed := ow }

theorem SendOnly.refl (x : Port) : SendOnly x x := ⟨_, _, _, _, _, _, _, _, rfl⟩

theorem SendOnly.trans {x y z : Port} (h : SendOnly x y) (h' : SendOnly y z) : SendOnly x z := by
  obtain ⟨tq, cr, ns, n, un, st, rr, ow, rfl⟩ := h
  obtain ⟨tq', cr', ns', n', un', st', rr', ow', rfl⟩ := h'
  exact ⟨_, _, _, _, _, _, _, _, rfl⟩

/-- Null flits leave the replay store as it is. -/
def NullOnly (x y : Port) : Prop :=
  ∃ n st ow, y = { x with tx := { x.tx with counter := n }, stream := st, owed := ow }

theorem NullOnly.refl (x : Port) : NullOnly x x := ⟨_, _, _, rfl⟩

theorem NullOnly.trans {x y z : Port} (h : NullOnly x y) (h' : NullOnly y z) : NullOnly x z := by
  obtain ⟨n, st, ow, rfl⟩ := h
  obtain ⟨n', st', ow', rfl⟩ := h'
  exact ⟨_, _, _, rfl⟩

theorem NullOnly.sendOnly {x y : Port} (h : NullOnly x y) : SendOnly x y := by
  obtain ⟨n, st, ow, rfl⟩ := h
  exact ⟨_, _, _, _, _, _, _, _, rfl⟩

theorem sendNull_nullOnly (x : Port) : NullOnly x (sendNull x) := by
  obtain ⟨o, h⟩ := payCredits_eq x
  unfold sendNull
  rw [h]
  exact ⟨_, _, _, rfl⟩

theorem fillWord_nullOnly (n : Nat) (x : Port) : NullOnly x (fillWord n x) := by
  induction n generalizing x with
  | zero => exact .refl x
  | succ n ih =>
    unfold fillWord
    split
    · exact .refl x
    · split
      · exact sendNull_nullOnly x
      · exact (sendNull_nullOnly x).trans (ih _)

theorem sendFlit_sendOnly (x : Port) (vc : Fin 4) (b : TxBody) (rest : List TxBody) : SendOnly x (sendFlit x vc b rest) := by
  obtain ⟨o, h⟩ := payCredits_eq x
  unfold sendFlit
  dsimp only
  rw [h]
  exact ⟨_, _, _, _, _, _, _, _, rfl⟩

theorem pumpPort_sendOnly (n : Nat) (x : Port) : SendOnly x (pumpPort n x) := by
  induction n generalizing x with
  | zero => exact .refl x
  | succ n ih =>
    unfold pumpPort
    split
    · split
      · exact .refl x
      · exact (sendFlit_sendOnly x _ _ _).trans (ih _)
    · exact .refl x

theorem pump_sendOnly (x : Port) : SendOnly x (pump x) := pumpPort_sendOnly _ x

/-- A framed port is what its change gave but for null flits and the codewords that went out; other ports stay. -/
theorem framePort_port (p : PortId) (f : Port → Port) (s : State) :
    NullOnly (f (s.portOf p)) ((framePort p f s).portOf p) ∧ ∀ q, q ≠ p → (framePort p f s).portOf q = s.portOf q := by
  unfold framePort
  extract_lets n x y c t
  have hemit : ∀ (l : List Codeword) (u : State) (q : PortId),
      (l.foldl (fun s w => emit (.codeword p w) s) u).portOf q = u.portOf q := fun l u q =>
    foldl_same (g := fun s => s.portOf q) (f := fun s w => emit (.codeword p w) s) (fun _ _ => rfl) l u
  have hy : NullOnly x y := by
    show NullOnly x (if _ then x else fillWord 3 x)
    split
    · exact .refl x
    · exact fillWord_nullOnly 3 x
  have ht : t.portOf p = { y with stream := c.2 } := modPort_portOf_same ..
  refine ⟨?_, fun q hq => ?_⟩
  · rw [hemit, ht]
    exact hy.trans ⟨_, _, _, rfl⟩
  · rw [hemit]
    exact modPort_portOf_other _ _ _ _ hq.symm

theorem framePort_changes (p : PortId) (f : Port → Port) (s : State) : changesOnly [.out, .ports] s (framePort p f s) :=
  framePort_frame p f changesOnly_refl (List.Subset.refl _)

/-- Sending what may go changes only the send side. -/
theorem framePort_pump (p : PortId) (s : State) : SendOnly (s.portOf p) ((framePort p pump s).portOf p) :=
  (pump_sendOnly _).trans (framePort_port p pump s).1.sendOnly

/-- A message that is sent changes only the send side of its port. -/
theorem sendMsg_port (p : PortId) (dst : BitVec 32) (m : PlaneMsg) (s : State) :
    SendOnly (s.portOf p) ((sendMsg p dst m s).portOf p) := by
  unfold sendMsg
  split
  · have hqueue : ∀ (x : Port) (q : Vector (List TxBody) 4), SendOnly x (pump { x with txQueue := q }) := fun x q =>
      SendOnly.trans (y := { x with txQueue := q }) ⟨_, _, _, _, _, _, _, _, rfl⟩ (pump_sendOnly _)
    dsimp only
    refine SendOnly.trans ?_ (NullOnly.sendOnly (framePort_port p _ (emit (.plane p dst m) s)).1)
    rw [emit_portOf]
    exact hqueue _ _
  · exact .refl _

theorem SendOnly.rekey {x y : Port} (h : SendOnly x y) : y.rekey = x.rekey := by
  obtain ⟨_, _, _, _, _, _, _, _, rfl⟩ := h
  rfl

/-! ### The handshake (R314 to R316) -/

/-- An exchange that fails is reported with 0x090A, and the port goes DOWN. -/
theorem failExchange_acts {p : PortId} {s : State} (ha : (s.portOf p).autoRetrain = false) :
    ((failExchange p s).portOf p).state = .down ∧
    (failExchange p s).log = pushRec (pushRec s.log (recordOf { code := 0x090A, loc := locPort p } s))
      (recordOf { code := 0x080A, loc := locPort p }
        { s with log := pushRec s.log (recordOf { code := 0x090A, loc := locPort p } s) }) := by
  have hlog := reportPort_log p none { code := 0x090A } s
  have hrec : ∀ e, recordOf e (reportPort p none { code := 0x090A } s) =
      recordOf e { s with log := pushRec s.log (recordOf { code := 0x090A, loc := locPort p } s) } := fun e =>
    recordOf_congr e hlog (reportPort_ticks ..) (reportPort_start ..)
  unfold failExchange
  obtain ⟨-, -, hdown⟩ := portDown_acts p (reportPort p none { code := 0x090A } s)
  refine ⟨portDown_stays (by rw [reportPort_portOf_same]; exact ha), ?_⟩
  rw [hdown, hlog, hrec]

theorem exec_keyReply {p : PortId} {m : Bytes} {s : State} {k : Keying} (hk : (s.portOf p).keying = some k) (hc : k.confirmed = false)
    (hs : (s.portOf p).state = .keying) : exec (.keyReply p m) s = .next (
      if !(m.length == replyBytes) then failExchange p s
      else if !(replyValid (s.portOf p) k m) then refusePort p 0x0909 none s
      else match rootOf s (replyCert m) with
        | none => refusePort p 0x0909 none s
        | some root => confirmKey p k root m s) := by
  show Host.Outcome.next (match (s.portOf p).keying with | none => s | some k => _) = _
  rw [hk]
  dsimp only
  rw [hc, hs]
  rfl

/-- An accepted KEY_REPLY is answered with KEY_CONFIRM, and the switch it came from is known. -/
theorem confirmKey_acts (p : PortId) (k : Keying) (root m : Bytes) (s : State) :
    (confirmKey p k root m s).sec.reportCount = s.sec.reportCount + 1 ∧
    ((confirmKey p k root m s).portOf p).rootFp = Config.shake256 root 64 ∧
    ((confirmKey p k root m s).portOf p).switchSerial = (s.portOf p).farSerial ∧
    ∃ k', ((confirmKey p k root m s).portOf p).keying = some k' ∧ k'.confirmed = true ∧ k'.reply = m ∧
      (confirmKey p k root m s).out = s.out ++ trainOut p 0x13 k'.confirm := by
  unfold confirmKey
  extract_lets eph u far enc v r msg
  rw [(sayTraining_changes ..).sec rfl, (sayTraining_changes ..).portOf rfl, modPort_portOf_same, sayTraining_out]
  exact ⟨rfl, rfl, rfl, _, rfl, rfl, rfl, rfl⟩

/-- A KEY_FINISH with the right value gives the hop its keys. -/
theorem finishKey_keys {p : PortId} {k : Keying} {m ss t₀ b : Bytes} {s : State} (hss : Config.kemDecaps k.ephDk (slice m 0 1088) = some ss)
    (ht : t₀ = Config.shake256 (k.hello ++ k.reply ++ k.confirm) 64) (hb : b = Config.shake256 (labelHop ++ k.ssE ++ ss ++ t₀) 72)
    (hlen : m.length = 1120) (hfin : slice m 1088 32 = Config.shake256 (labelFin ++ b ++ t₀) 32) :
    finishKey p k m s = sendTraining p 4 (modPort p (fun x => { x with
        keyed := true, transcript := t₀, tx := (hopKeys b false).1, rx := (hopKeys b false).2, rxOld := none, rxNew := 0,
        lastKeyed := s.ticks, ephDk := k.ephDk, keying := none }) s) := by
  subst ht hb
  unfold finishKey
  rw [hss]
  dsimp only
  rw [hlen, hfin, if_pos (by simp)]

/-- Settles O29. -/
theorem portKeyingRuns : Obligations.PortKeyingRuns := by
  unfold Obligations.PortKeyingRuns
  refine ⟨fun s p hs hk hn => exec_when rfl (by rw [decide_eq_true hs, hk, hn]; rfl) ?hello,
    fun s p k m root hk hc hs hlen hv hr => ⟨confirmKey p k root m s, (exec_keyReply hk hc hs).trans ?confirmRow, confirmKey_acts p k root m s⟩,
    fun s p k m hk hc hs hlen hv => ⟨refusePort p 0x0909 none s, (exec_keyReply hk hc hs).trans ?badRow, ?bad⟩,
    fun s p k m hk hc hs hlen ha => ⟨failExchange p s, pushRec s.log (recordOf { code := 0x090A, loc := locPort p } s), (exec_keyReply hk hc hs).trans ?shortRow, ?short⟩,
    fun s p k m ss t₀ b hk hc hs hss ht hb hlen hfin => ⟨finishKey p k m s, ?finishRow, ?finish⟩,
    fun s p a b c d hs hk hn ha hb hc hd => exec_when rfl (by rw [decide_eq_true hs, hk, hn]; rfl) ?credits,
    fun s p a b c d hs hk hn hbad => exec_when rfl (by rw [decide_eq_true hs, hk, hn]; rfl) ?noCredits,
    fun s p hs hc => exec_when rfl (by rw [decide_eq_true hs, hc]; rfl) ?ready,
    fun s p hr hlim hn => exec_when rfl (by rw [hr, decide_eq_true hlim]; rfl) ?limit,
    fun s p ct own ss b hr hown hss hb => exec_when rfl hr ?rekeyed⟩
  case hello =>
    dsimp only
    rw [sayTraining_out, (sayTraining_changes ..).portOf rfl, drawNext_portOf, modPort_portOf_same]
    exact ⟨rfl, _, rfl, rfl, rfl⟩
  case confirmRow =>
    rw [hlen, hv, hr]
    rfl
  case badRow =>
    rw [hlen, hv]
    rfl
  case bad =>
    obtain ⟨hdown, -, hlog⟩ := refusePort_acts p 0x0909 none s
    exact ⟨hdown, hlog⟩
  case shortRow => rw [if_pos (by simpa using hlen)]
  case short =>
    obtain ⟨hdown, hlog⟩ := failExchange_acts ha
    exact ⟨hdown, rfl, hlog⟩
  case finishRow =>
    show Host.Outcome.next (match (s.portOf p).keying with
      | none => s
      | some k => if k.confirmed && decide ((s.portOf p).state = PortState.keying) then finishKey p k m s else s) = _
    rw [hk]
    dsimp only
    rw [hc, decide_eq_true hs]
    rfl
  case finish =>
    rw [finishKey_keys hss ht hb hlen hfin]
    obtain ⟨hport, -⟩ := sendTraining_acts p 4 (modPort p (fun x => { x with
        keyed := true, transcript := t₀, tx := (hopKeys b false).1, rx := (hopKeys b false).2, rxOld := none, rxNew := 0,
        lastKeyed := s.ticks, ephDk := k.ephDk, keying := none }) s)
    rw [hport, modPort_portOf_same]
    exact ⟨rfl, rfl, rfl, rfl, rfl⟩
  case credits =>
    unfold farArrived
    rw [if_neg (by omega), modPort_modPort]
    obtain ⟨hport, -, -, hout⟩ := sendTraining_acts p 5 (modPort p (fun x => { x with
      credInit := true, credits := #v[a.toNat, b.toNat, c.toNat, d.toNat], awaiting := x.awaiting.filter fun k => !(k == 4) }) s)
    rw [hport, modPort_portOf_same, hout]
    exact ⟨rfl, rfl, rfl⟩
  case noCredits =>
    rw [if_pos hbad]
    obtain ⟨hdown, -, hlog⟩ := refusePort_acts p 0x080B (some 5) s
    exact ⟨hdown, hlog⟩
  case ready =>
    dsimp only
    rw [reportPort_portOf_same, modPort_portOf_same, reportPort_log]
    exact ⟨rfl, rfl, rfl, rfl⟩
  case limit =>
    unfold startRekey
    rw [hn]
    refine (sendMsg_port ..).rekey.trans ?_
    rw [drawNext_portOf, modPort_portOf_same]
  case rekeyed =>
    subst hb
    have hstart : startRekey p s = s := by
      unfold startRekey
      rw [hown]
      rfl
    have hfinish : finishRekey p ct s = reportPort p none { code := 0x090B } (modPort p (fun x => { x with
        tx := (hopKeys (Config.shake256 (labelHop ++ own ++ ss ++ (s.portOf p).transcript) 72) (!(s.portOf p).tx.phase)).1,
        rxOld := some x.rx,
        rx := (hopKeys (Config.shake256 (labelHop ++ own ++ ss ++ (s.portOf p).transcript) 72) (!(s.portOf p).tx.phase)).2,
        rxNew := 0, rekey := none, lastKeyed := s.ticks }) s) := by
      unfold finishRekey
      dsimp only
      rw [hown, hss]
    rw [hstart, hfinish, reportPort_portOf_same, modPort_portOf_same, reportPort_log]
    exact ⟨rfl, rfl, rfl, rfl, rfl⟩

end Sys2Proof.Machine

/-! SUPPORT. The data path of a port, the pre-FEC monitor and the pattern tests (R240 to R243, R253 to R258). -/

namespace Sys2Proof.Machine

open Sys2Proof

/-! ### A flit that arrives (R240, R242, R243) -/

/-- The last link status received is all that a flit's codeword changes. -/
theorem takeStatus_port (p : PortId) (v : Option Nat) (s : State) : ∃ w, (takeStatus p v s).portOf p = { s.portOf p with farStatus := w } := by
  cases v with
  | none => exact ⟨_, rfl⟩
  | some v => exact ⟨_, modPort_portOf_same ..⟩

theorem takeStatus_changes (p : PortId) (v : Option Nat) (s : State) : changesOnly [.ports] s (takeStatus p v s) :=
  takeStatus_frame p v changesOnly_refl (List.Subset.refl _)

theorem takeFlit_undecoded {p : PortId} {f : Flit} {s : State} (h : flitDecoded f = false) :
    takeFlit p f s = modPort p (fun x => { discardFlit x with fecUncorrected := satInc x.fecUncorrected }) (takeStatus p (flitStatus f) s) := by
  unfold takeFlit
  dsimp only
  rw [h]
  rfl

theorem takeFlit_curtain {p : PortId} {f : Flit} {s : State} (hdec : flitDecoded f = true) (hlen : 256 ≤ (flitRaw f).length)
    (hst : (s.portOf p).status = .curtain) (hdata : bits (flitHead f).toNat 37 35 = 0) :
    takeFlit p f s = takeStatus p (flitStatus f) s := by
  obtain ⟨w, hw⟩ := takeStatus_port p (flitStatus f) s
  have hx : ((takeStatus p (flitStatus f) s).portOf p).status = .curtain := by rw [hw]; exact hst
  unfold takeFlit
  dsimp only
  rw [hdec, if_neg (by simp), if_neg (by rw [hdata, decide_eq_false (Nat.not_lt.2 hlen)]; simp), if_pos ⟨hx, hdata⟩]

/-- A data or null flit whose key is known, outside a curtain: what its opening decides. -/
theorem takeFlit_opened {p : PortId} {f : Flit} {s : State} {h : Nat} {k : HopKey} (hdec : flitDecoded f = true)
    (hlen : 256 ≤ (flitRaw f).length) (hst : (s.portOf p).status ≠ .curtain) (hh : h = (flitHead f).toNat) (ht : bits h 37 35 < 2)
    (hk : rxKey (s.portOf p) (bitOf h 38) = some k) : takeFlit p f s =
      match Config.gcmOpen k.key (flitNonce k (nearCounter k.counter (bits h 20 0))) (toLe 8 h) (flitBody f) (flitTag f) with
      | none => reportPort p none { code := 0x0809, isCount := true, value := 1 } (modPort p discardFlit (takeStatus p (flitStatus f) s))
      | some b =>
        if bits h 37 35 = 1 then takeHeader p h (takeStatus p (flitStatus f) s)
        else if BitVec.ofNat 12 (bits h 63 52) = (s.portOf p).rxExpect then
          takeHeader p h (modPort p (acceptData h (nearCounter k.counter (bits h 20 0)) b) (takeStatus p (flitStatus f) s))
        else modPort p discardFlit (takeStatus p (flitStatus f) s) := by
  subst hh
  obtain ⟨w, hw⟩ := takeStatus_port p (flitStatus f) s
  unfold takeFlit
  generalize takeStatus p (flitStatus f) s = u at hw ⊢
  have hx : (u.portOf p).status ≠ .curtain := by rw [hw]; exact hst
  have hkey : rxKey (u.portOf p) (bitOf (flitHead f).toNat 38) = some k := by rw [hw]; exact hk
  have hexp : (u.portOf p).rxExpect = (s.portOf p).rxExpect := by rw [hw]
  dsimp only
  rw [hdec, if_neg (by simp), if_neg (by rw [decide_eq_false (Nat.not_lt.2 hlen)]; simp; omega), if_neg fun hc => hx hc.1, hkey, hexp] <;> rfl

/-- An acknowledgement changes only the replay store and the nak last acted on. -/
theorem takeAck_store (x : Port) (a : BitVec 12) : ∃ un na, takeAck x a = { x with unacked := un, nakActed := na } := by
  unfold takeAck
  split
  · exact ⟨_, _, rfl⟩
  · exact ⟨x.unacked, x.nakActed, rfl⟩

/-- The header of an accepted flit without a nak: credits and an acknowledgement, and what may go goes. -/
theorem takeHeader_kept {p : PortId} {h : Nat} (s : State) (hn : bitOf h 39 = false) :
    ((takeHeader p h s).portOf p).rxExpect = (s.portOf p).rxExpect ∧ ((takeHeader p h s).portOf p).naking = (s.portOf p).naking ∧
    ((takeHeader p h s).portOf p).partial' = (s.portOf p).partial' ∧ (takeHeader p h s).log = s.log := by
  unfold takeHeader
  dsimp only
  rw [hn, Bool.false_and, if_neg Bool.false_ne_true, (framePort_changes ..).log rfl, modPort_modPort]
  generalize hg : (fun x : Port => takeAck _ _) = g
  have hport : ∃ cr un na, ((modPort p g s).portOf p) = { s.portOf p with credits := cr, unacked := un, nakActed := na } := by
    rw [modPort_portOf_same, ← hg]
    dsimp only
    obtain ⟨un, na, ha⟩ := takeAck_store { s.portOf p with
      credits := (s.portOf p).credits.set (Fin.ofNat 4 (bits h 30 29)) ((s.portOf p).credits[Fin.ofNat 4 (bits h 30 29)] + bits h 28 21) }
      (BitVec.ofNat 12 (bits h 51 40))
    exact ⟨_, un, na, ha⟩
  obtain ⟨cr, un, na, hport⟩ := hport
  obtain ⟨_, _, _, _, _, _, _, _, hpump⟩ := framePort_pump p (modPort p g s)
  rw [hpump, hport]
  exact ⟨rfl, rfl, rfl, rfl⟩

/-! ### Resends (R243) -/

/-- A resend counts the flits it sends again, each one resend older, under 0x0808. -/
theorem resendFrom_resends {p : PortId} {first : BitVec 12} {s : State} (hne : fromSeq (s.portOf p).unacked first ≠ [])
    (hlt : ∀ f ∈ fromSeq (s.portOf p).unacked first, f.resends < 8) :
    ((resendFrom p first s).portOf p).unacked = (s.portOf p).unacked.take ((s.portOf p).unacked.length - (fromSeq (s.portOf p).unacked first).length) ++
      (fromSeq (s.portOf p).unacked first).map (fun f => { f with resends := f.resends + 1 }) ∧
    ((resendFrom p first s).portOf p).replays = satAdd (s.portOf p).replays (fromSeq (s.portOf p).unacked first).length ∧
    ((resendFrom p first s).portOf p).nakActed = (s.portOf p).nakActed ∧
    (resendFrom p first s).log = pushRec s.log (recordOf
      { code := 0x0808, isCount := true, loc := locPort p, value := ((resendFrom p first s).portOf p).replays.toNat } s) := by
  unfold resendFrom
  dsimp only
  rw [if_neg (by simpa using hne), if_neg (by simpa using hlt)]
  generalize hg : (fun x : Port => ({ x with unacked := _, replays := _, stream := _ } : Port)) = g
  obtain ⟨hnull, -⟩ := framePort_port p g s
  have hc := framePort_changes p g s
  generalize framePort p g s = u at hnull hc ⊢
  obtain ⟨n, st, ow, hu⟩ := hnull
  rw [emit_portOf, reportPort_portOf_same, emit_log, reportPort_log]
  rw [show ∀ w, ({ u with power := w } : State).portOf p = u.portOf p from fun _ => rfl, hu, ← hg]
  refine ⟨rfl, rfl, rfl, ?_⟩
  exact congrArg₂ pushRec (hc.log rfl) (hc.recordOf rfl _)

/-- A flit resent eight times already takes the port DOWN. -/
theorem resendFrom_down {p : PortId} {first : BitVec 12} {s : State} (h : ∃ f ∈ fromSeq (s.portOf p).unacked first, 8 ≤ f.resends) :
    resendFrom p first s = portDown p s := by
  obtain ⟨f, hf, hr⟩ := h
  unfold resendFrom
  dsimp only
  rw [if_neg (by simpa using List.ne_nil_of_mem hf), if_pos (List.any_eq_true.2 ⟨f, hf, decide_eq_true hr⟩)]

/-- The flits from the first one on are all of them. -/
theorem fromSeq_head (f : TxFlit) (l : List TxFlit) : fromSeq (f :: l) f.seq = f :: l := by
  unfold fromSeq
  rw [List.dropWhile_cons_of_neg (by simp)]

/-- What a nak acts on: the flits after the one it acknowledges. -/
theorem actNak_port (p : PortId) (a : BitVec 12) (s : State) : (modPort p (fun x => takeAck x a) s).portOf p = takeAck (s.portOf p) a :=
  modPort_portOf_same ..

/-! ### Pattern tests (R253, R254, R258) -/

/-- A pattern test that ends is reported for the target it ran on; its counts are free values (R258). -/
theorem endPattern_ends (s : State) : (endPattern s).pattern.running = false ∧ (endPattern s).pattern.held = none ∧
    (endPattern s).log = pushRec s.log (recordOf { code := 0x0822, loc := locPort (match s.pattern.held with
      | some x => x.1.toNat
      | none => s.pattern.target.toNat) } s) ∧
    (s.pattern.held.isSome = true → s.pattern.heldMode ≠ 1 → (endPattern s).pattern.bits = Config.freeWord s.free) := by
  unfold endPattern
  dsimp only
  cases hheld : s.pattern.held with
  | none =>
    dsimp only
    rw [report_pattern, report_log]
    exact ⟨rfl, rfl, rfl, fun h => absurd h Bool.false_ne_true⟩
  | some x =>
    obtain ⟨target, mask, rest⟩ := x
    dsimp only
    rw [report_pattern, report_log]
    cases hmode : s.pattern.heldMode == 1 with
    | true => exact ⟨rfl, rfl, rfl, fun _ h => absurd (beq_iff_eq.1 hmode) h⟩
    | false => exact ⟨rfl, rfl, rfl, fun _ _ => rfl⟩

/-- Settles O30. -/
theorem portDataRuns : Obligations.PortDataRuns := by
  unfold Obligations.PortDataRuns
  refine ⟨fun s p f hs hd => exec_when rfl (decide_eq_true hs) ?undecoded,
    fun s p f hs hd hlen hst hdata => (exec_runs rfl (decide_eq_true hs)).trans (congrArg _ (takeFlit_curtain hd hlen hst hdata)),
    fun s p f h k hs hd hlen hst hh ht hk hopen => exec_when rfl (decide_eq_true hs) ?badTag,
    fun s p f h k b hs hd hlen hst hh ht hk hopen hseq => exec_when rfl (decide_eq_true hs) ?outOfOrder,
    fun s p f h k b hs hd hlen hst hh ht hn hk hopen hseq => exec_when rfl (decide_eq_true hs) ?inOrder,
    fun s p a hs hst ha hne hlt => exec_when rfl (by rw [decide_eq_true hs, decide_eq_false hst]; rfl) ?nak,
    fun s p a hs hst ha => exec_when rfl (by rw [decide_eq_true hs, decide_eq_false hst]; rfl) ?nakAgain,
    fun s p f l hs hst hun hlt => exec_when rfl (by rw [decide_eq_true hs, decide_eq_false hst]; rfl) ?timeout,
    fun s p f l hs hst hun hmax ha => exec_when rfl (by rw [decide_eq_true hs, decide_eq_false hst]; rfl) ?timeoutDown,
    fun s p l hs => exec_when rfl (decide_eq_true hs) ?monitor,
    fun s hb hup ho hr ha => exec_when rfl (by rw [hb, hup]; rfl) ?go,
    fun s hb hup ho hr ha => exec_when rfl (by rw [hb, hup]; rfl) ?refused,
    fun s hb hup hbusy => exec_when rfl (by rw [hb, hup]; rfl) ?busy,
    fun s hb hup hr => exec_when rfl (by rw [hr, hb, hup]; rfl) ?stop⟩
  case undecoded =>
    obtain ⟨w, hw⟩ := takeStatus_port p (flitStatus f) s
    rw [takeFlit_undecoded hd, modPort_portOf_same, hw]
    exact ⟨rfl, rfl, rfl⟩
  case badTag =>
    obtain ⟨w, hw⟩ := takeStatus_port p (flitStatus f) s
    have hc := takeStatus_changes p (flitStatus f) s
    rw [takeFlit_opened hd hlen hst hh ht hk, hopen]
    dsimp only
    rw [reportPort_portOf_same, modPort_portOf_same, reportPort_log, hw]
    exact ⟨rfl, rfl, rfl, congrArg₂ pushRec (hc.log rfl) (hc.recordOf rfl _)⟩
  case outOfOrder =>
    obtain ⟨w, hw⟩ := takeStatus_port p (flitStatus f) s
    have hc := takeStatus_changes p (flitStatus f) s
    rw [takeFlit_opened hd hlen hst hh (by omega) hk, hopen]
    dsimp only
    rw [if_neg (by omega), if_neg hseq, modPort_portOf_same, hw]
    exact ⟨rfl, rfl, rfl, hc.log rfl⟩
  case inOrder =>
    obtain ⟨w, hw⟩ := takeStatus_port p (flitStatus f) s
    have hc := takeStatus_changes p (flitStatus f) s
    rw [takeFlit_opened hd hlen hst hh (by omega) hk, hopen]
    dsimp only
    rw [if_neg (by omega), if_pos hseq]
    obtain ⟨hexp, hnak, hpart, hlog⟩ := takeHeader_kept (p := p) (modPort p (acceptData h (nearCounter k.counter (bits h 20 0)) b)
      (takeStatus p (flitStatus f) s)) hn
    rw [modPort_portOf_same, hw] at hexp hnak hpart
    exact ⟨hexp, hnak, hpart, hlog.trans (hc.log rfl)⟩
  case nak =>
    have hport := actNak_port p a s
    obtain ⟨un, na, hack⟩ := takeAck_store (s.portOf p) a
    unfold actNak
    dsimp only
    rw [hport, if_neg ha, modPort_modPort]
    have hown := modPort_portOf_same p (fun x => ({ takeAck x a with nakActed := some a } : Port)) s
    obtain ⟨-, hrep, hacted, -⟩ := resendFrom_resends (p := p) (first := a + 1)
      (s := modPort p (fun x => ({ takeAck x a with nakActed := some a } : Port)) s) (by rw [hown]; exact hne) (by rw [hown]; exact hlt)
    obtain ⟨_, _, _, _, _, _, _, _, hpump⟩ := framePort_pump p (resendFrom p (a + 1) (modPort p (fun x => ({ takeAck x a with nakActed := some a } : Port)) s))
    rw [hpump]
    dsimp only
    rw [hacted, hrep, hown]
    refine ⟨rfl, ?_⟩
    dsimp only
    rw [hack]
  case nakAgain =>
    have hport := actNak_port p a s
    obtain ⟨un, na, hack⟩ := takeAck_store (s.portOf p) a
    unfold actNak
    dsimp only
    rw [hport, if_pos ha, (framePort_changes ..).log rfl]
    obtain ⟨_, _, _, _, _, _, _, _, hpump⟩ := framePort_pump p (modPort p (fun x => takeAck x a) s)
    rw [hpump, hport, hack]
    exact ⟨rfl, rfl⟩
  case timeout =>
    have hown := modPort_portOf_same p (fun x => ({ x with nakActed := none } : Port)) s
    have hfrom : fromSeq ((modPort p (fun x => ({ x with nakActed := none } : Port)) s).portOf p).unacked f.seq = f :: l := by
      rw [hown, hun, fromSeq_head]
    obtain ⟨hstore, hrep, -, hlog⟩ := resendFrom_resends (p := p) (first := f.seq) (s := modPort p (fun x => ({ x with nakActed := none } : Port)) s)
      (by rw [hfrom]; exact List.cons_ne_nil _ _) (by rw [hfrom]; exact hlt)
    rw [hun]
    dsimp only
    refine ⟨?_, ?_, hlog⟩
    · rw [hstore, hfrom, hown, hun, Nat.sub_self]
      rfl
    · rw [hrep, hfrom, hown]
      rfl
  case timeoutDown =>
    have hown := modPort_portOf_same p (fun x => ({ x with nakActed := none } : Port)) s
    have hdown := resendFrom_down (p := p) (first := f.seq) (s := modPort p (fun x => ({ x with nakActed := none } : Port)) s)
      (by rw [hown, hun, fromSeq_head]; exact hmax)
    rw [hun]
    dsimp only
    rw [hdown]
    obtain ⟨-, -, hlog⟩ := portDown_acts p (modPort p (fun x => ({ x with nakActed := none } : Port)) s)
    exact ⟨portDown_stays (by rw [hown]; exact ha), hlog⟩
  case monitor =>
    dsimp only
    unfold degradedStep fecLater
    generalize (List.range 8).map (fun k => if 10000 < l.getD k 0 then (s.portOf p).degraded.getD k 0 + 1 else 0) = d
    generalize satAdd (s.portOf p).fecCorrected (Config.freeWord s.free).toNat = n
    cases hten : d.contains 10 with
    | true =>
      rw [if_pos rfl, reportPort_portOf_same, drawNext_portOf, modPort_portOf_same, reportPort_log]
      exact ⟨rfl, rfl, fun _ => rfl, fun h => absurd (List.contains_iff_mem.1 hten) h⟩
    | false =>
      rw [if_neg Bool.false_ne_true, drawNext_portOf, modPort_portOf_same]
      exact ⟨rfl, rfl, fun h => absurd (List.contains_iff_mem.2 h) (by rw [hten]; exact Bool.false_ne_true), fun _ => rfl⟩
  case go =>
    unfold startPattern
    dsimp only
    rw [ho, hr, ha]
    exact ⟨rfl, rfl, rfl, rfl, rfl, rfl⟩
  case refused =>
    unfold startPattern
    dsimp only
    rw [if_neg (by rw [ho, hr]; simp), if_pos (by rw [ha]; rfl), report_pattern, report_log]
    exact ⟨hr, rfl, rfl⟩
  case busy =>
    unfold startPattern
    dsimp only
    rw [if_pos (by obtain h | h := hbusy <;> simp [h]), report_pattern, report_log]
    exact ⟨rfl, rfl⟩
  case stop => exact endPattern_ends s

end Sys2Proof.Machine

/-! SUPPORT. Weight commands (R150, R157, R158, R170 to R174). -/

namespace Sys2Proof.Machine

open Sys2Proof

/-! ### What an answer at the start leaves of the slot (R278, R281, R284) -/

/-- A completion changes only the slot's running commands, fences, ring and status. -/
theorem completeCmd_own (i : Slot) (cmd : Cmd) (code : Code) (initiator detail : Nat) (s : State) :
    ∃ r fs q lc ev, (completeCmd i cmd code initiator detail s).ctxOf i =
      { s.ctxOf i with running := r, fences := fs, cq := q, lastCode := lc, events := ev } := by
  unfold completeCmd
  dsimp only
  split
  · rw [reportCtx_ctxOf_same, modCtx_ctxOf_same]
    exact ⟨_, _, _, _, _, rfl⟩
  · rw [modCtx_ctxOf_same]
    exact ⟨_, _, _, _, _, rfl⟩

/-- A command that completes at once leaves the slot's model and barrier. -/
theorem atOnce_model (i : Slot) (q : QId) (r : Ready) (detail : Nat) (s : State) :
    ((atOnce i q r detail s).ctxOf i).model = (s.ctxOf i).model ∧ ((atOnce i q r detail s).ctxOf i).barrier = (s.ctxOf i).barrier := by
  obtain ⟨_, _, _, _, _, h⟩ := completeCmd_own i (cmdOf q r.idx r.entry) 0 0xFFFF detail (addRunning i (cmdOf q r.idx r.entry) s)
  have hadd : (addRunning i (cmdOf q r.idx r.entry) s).ctxOf i =
      { s.ctxOf i with running := (s.ctxOf i).running ++ [cmdOf q r.idx r.entry] } := modCtx_ctxOf_same ..
  rw [hadd] at h
  exact ⟨(congrArg Ctx.model h).trans rfl, (congrArg Ctx.barrier h).trans rfl⟩

/-- A refusal's record waits for the ring; of the slot it changes nothing else but its status. -/
theorem refuseStart_own (i : Slot) (q : QId) (r : Ready) (code : Code) (detail : Nat) (s : State) :
    ∃ lc ev, (refuseStart i q r code detail s).ctxOf i = { s.ctxOf i with
      cq := { (s.ctxOf i).cq with held := (s.ctxOf i).cq.held ++ [cplRecord (cmdOf q r.idx r.entry) code 0xFFFF detail 0] },
      lastCode := lc, events := ev } := by
  unfold refuseStart refuseCmd holdRecord
  dsimp only
  split
  · rw [modCtx_ctxOf_same, reportCtx_ctxOf_same]
    exact ⟨_, _, rfl⟩
  · rw [modCtx_ctxOf_same, modCtx_ctxOf_same, report_ctxOf]
    exact ⟨_, _, rfl⟩

theorem OnlyQueues.barrier {i : Slot} {s t : State} (h : OnlyQueues i s t) : (t.ctxOf i).barrier = (s.ctxOf i).barrier := by
  obtain ⟨-, -, qs, hq⟩ := h
  rw [hq]

theorem setModel_ctxOf (i : Slot) (m : Option Model) (s : State) :
    (setModel i m s).ctxOf i = { s.ctxOf i with model := m, barrier := false } := modCtx_ctxOf_same ..

/-- A command that sets the slot's model and completes at once. -/
theorem atOnce_setModel {i : Slot} {q : QId} {r : Ready} {s t : State} (hs : OnlyQueues i s t) (m : Option Model) :
    ((atOnce i q r 0 (setModel i m t)).ctxOf i).model = m ∧ ((atOnce i q r 0 (setModel i m t)).ctxOf i).barrier = false ∧
    ∃ fv, ((atOnce i q r 0 (setModel i m t)).ctxOf i).cq.held =
      (s.ctxOf i).cq.held ++ [cplRecord (cmdOf q r.idx r.entry) 0 0xFFFF 0 fv] := by
  obtain ⟨hmodel, hbarrier⟩ := atOnce_model i q r 0 (setModel i m t)
  obtain ⟨-, fv, hheld⟩ := atOnce_acts i q r 0 (setModel i m t)
  rw [setModel_ctxOf] at hmodel hbarrier hheld
  rw [hmodel, hbarrier, hheld, hs.cq]
  exact ⟨rfl, rfl, fv, rfl⟩

/-- Without a pilot, and before the pilot's stream has ended, a swap waits for what comes (R173). -/
theorem paceSwap_waits {i : Slot} {s : State} {m : Model} {w : Swap} (hm : (s.ctxOf i).model = some m) (hw : m.swap = some w)
    (hp : w.fetch.pilot = false) (he : w.fetch.streamEnded = false) : paceSwap i s = s := by
  unfold paceSwap
  rw [hm]
  dsimp only
  rw [hw]
  dsimp only
  split
  · rfl
  · rw [if_pos (by rw [hp, he]; simp)]

/-- Settles O31. -/
theorem weightCommandsRun : Obligations.WeightCommandsRun := by
  unfold Obligations.WeightCommandsRun
  refine ⟨fun s i q r f hh ha hb => ⟨startRow 0x20 bindStart i q s, rfl, ?bound⟩,
    fun s i q r code hh ha => ⟨startRow 0x20 bindStart i q s, rfl, ?refused⟩,
    fun s i q r f hh ha hb hfit hp => ⟨startRow 0x21 loadStart i q s, rfl, ?loaded⟩,
    fun s i q r f m hh ha hm hbusy hres hshape htodo hp he => ⟨startRow 0x22 swapStart i q s, rfl, ?swapped⟩,
    fun s i q r hh hb => ⟨startRow 0x23 releaseStart i q s, rfl, ?released⟩⟩
  case bound =>
    rw [startRow_headStarts hh]
    unfold bindStart
    rw [ha]
    dsimp only
    rw [hb, if_neg Bool.false_ne_true]
    exact atOnce_setModel (started_onlyQueues i q r s) _
  case refused =>
    have hs := started_onlyQueues i q r s
    rw [startRow_headStarts hh]
    unfold bindStart
    rw [ha]
    dsimp only
    obtain ⟨lc, ev, hown⟩ := refuseStart_own i q r code 0 (started i q r s)
    rw [hown]
    dsimp only
    rw [hs.model, hs.cq]
    exact ⟨rfl, rfl⟩
  case loaded =>
    have hs := started_onlyQueues i q r s
    rw [startRow_headStarts hh]
    unfold loadStart
    rw [ha]
    dsimp only
    rw [hb, hfit, hp, if_neg Bool.false_ne_true, if_neg (by simp), if_neg Bool.false_ne_true, setModel_ctxOf]
    unfold addRunning
    rw [modCtx_ctxOf_same]
    dsimp only
    rw [hs.running]
    exact ⟨rfl, rfl⟩
  case swapped =>
    have hs := started_onlyQueues i q r s
    have hidle : ((started i q r s).ctxOf i).running.any (fun c => c.opcode == 0x21 || c.opcode == 0x22) = false := by
      rw [hs.running]
      exact List.any_eq_false.2 fun c hc => by simpa using hbusy c hc
    rw [startRow_headStarts hh]
    unfold swapStart
    rw [ha, hs.model, hm]
    dsimp only
    rw [hidle, if_neg Bool.false_ne_true, if_neg (by simp [hres, hshape]), if_neg (by simpa using htodo)]
    rw [paceSwap_waits (m := { m with fetch := (swapOf m f).1, swap := some (swapOf m f).2 }) (by rw [modCtx_ctxOf_same]) rfl hp he,
      modCtx_ctxOf_same]
    unfold addRunning
    rw [modCtx_ctxOf_same]
    dsimp only
    rw [hs.running]
    exact ⟨rfl, rfl, rfl⟩
  case released =>
    rw [startRow_headStarts hh]
    unfold releaseStart
    rw [hb, if_neg Bool.false_ne_true]
    exact atOnce_setModel (started_onlyQueues i q r s) none

end Sys2Proof.Machine

/-! SUPPORT. Shards: requests, arrival, write-back, the pilot's stream and the layers of a swap (R160 to R166, R171, R175). -/

namespace Sys2Proof.Machine

open Sys2Proof

/-! ### One context's fetch -/

theorem modModel_ctxOf (i : Slot) (g : Model → Model) (s : State) :
    (modModel i g s).ctxOf i = { s.ctxOf i with model := (s.ctxOf i).model.map g } := modCtx_ctxOf_same ..

/-- A context without a model has none to change. -/
theorem modModel_none {i : Slot} {s : State} (g : Model → Model) (h : (s.ctxOf i).model = none) : modModel i g s = s := by
  have hsame : ({ s.ctxOf i with model := (s.ctxOf i).model.map g } : Ctx) = s.ctxOf i := by
    rw [h, Option.map_none, ← h]
  unfold modModel modCtx
  rw [show (fun c : Ctx => { c with model := c.model.map g }) s.ctx[i] = s.ctx[i] from hsame,
    show s.ctx.set i s.ctx[i] = s.ctx from Vector.set_getElem_self _]

/-- A change of one fetch is read there. -/
theorem modFetch_fetchOf (i : Slot) (sw : Bool) (g : Fetch → Fetch) (s : State) :
    fetchOf ((modFetch i sw g s).ctxOf i) sw = (fetchOf (s.ctxOf i) sw).map g := by
  unfold modFetch fetchOf
  rw [modModel_ctxOf]
  dsimp only
  cases (s.ctxOf i).model with
  | none => rfl
  | some m =>
    cases sw with
    | false => rfl
    | true =>
      dsimp only [Option.map_some]
      rw [if_pos rfl, if_pos rfl, if_pos rfl]
      cases m.swap with
      | none => rfl
      | some w => rfl

theorem modFetch_changes (i : Slot) (sw : Bool) (g : Fetch → Fetch) (s : State) : changesOnly [.ctx] s (modFetch i sw g s) :=
  modFetch_frame i sw g changesOnly_refl (List.Subset.refl _)

theorem sendReq_changes (f : Fetch) (k : Nat) (v : BitVec 32) (s : State) : changesOnly [.out, .ports] s (sendReq f k v s) :=
  sendReq_frame f k v changesOnly_refl (List.Subset.refl _)

/-- While tries are left a shard is asked for again, at once or after the gap (R162). -/
theorem askAgain_left {i : Slot} {sw gap : Bool} {k : Nat} {s : State} {f : Fetch} {r : ShardReq} (hf : fetchOf (s.ctxOf i) sw = some f)
    (hr : (f.reqs.find? fun r => r.shard == k) = some r) (ht : r.tries < f.retries) : askAgain i sw gap k s =
      if gap then modReq i sw k (fun r => { r with gap := true }) s
      else sendReq f k r.version (modReq i sw k (fun r => { r with gap := false, tries := r.tries + 1 }) s) := by
  unfold askAgain
  rw [hf]
  dsimp only
  rw [hr]
  dsimp only
  rw [if_neg (Nat.not_le.2 ht)]

/-- A request that goes again counts one more try and changes nothing else. -/
theorem askAgain_now {i : Slot} {sw : Bool} {k : Nat} {s : State} {f : Fetch} {r : ShardReq} (hf : fetchOf (s.ctxOf i) sw = some f)
    (hr : (f.reqs.find? fun r => r.shard == k) = some r) (ht : r.tries < f.retries) :
    fetchOf ((askAgain i sw false k s).ctxOf i) sw = some { f with
      reqs := f.reqs.map fun r => if r.shard == k then { r with gap := false, tries := r.tries + 1 } else r } ∧
    (askAgain i sw false k s).log = s.log ∧ (askAgain i sw false k s).mem = s.mem := by
  rw [askAgain_left hf hr ht, if_neg Bool.false_ne_true]
  unfold modReq
  rw [(sendReq_changes ..).ctxOf rfl, (sendReq_changes ..).log rfl, (sendReq_changes ..).mem rfl, modFetch_fetchOf, hf]
  exact ⟨rfl, (modFetch_changes ..).log rfl, (modFetch_changes ..).mem rfl⟩

/-! ### A walk over the slots of which one acts -/

/-- A walk that acts on one slot alone is that slot's step. -/
theorem foldl_one_slot {f : State → Slot → State} {i : Slot} {s : State} (hbefore : ∀ j, j ≠ i → f s j = s)
    (hafter : ∀ j, j ≠ i → f (f s i) j = f s i) : allSlots.foldl f s = f s i := by
  have hrest : ∀ (l : List Slot), i ∉ l → l.foldl f (f s i) = f s i := fun l => by
    induction l with
    | nil => exact fun _ => rfl
    | cons j l ih =>
      intro hl
      rw [List.foldl_cons, hafter j fun h => hl (h ▸ List.mem_cons_self ..), ih fun h => hl (List.mem_cons_of_mem _ h)]
  have hwalk : ∀ (l : List Slot), l.Nodup → i ∈ l → l.foldl f s = f s i := fun l => by
    induction l with
    | nil => exact fun _ h => absurd h List.not_mem_nil
    | cons j l ih =>
      intro hnd hi
      obtain ⟨hj, hnd⟩ := List.nodup_cons.1 hnd
      rw [List.foldl_cons]
      by_cases hji : j = i
      · subst hji
        exact hrest l hj
      · rw [hbefore j hji]
        exact ih hnd ((List.mem_cons.1 hi).resolve_left fun h => hji h.symm)
  exact hwalk allSlots (by decide) (List.mem_finRange i)

/-- A search over the slots of which one answers. -/
theorem findSome_one_slot {α : Type} {f : Slot → Option α} {i : Slot} {a : α} (hi : f i = some a) (ho : ∀ j, j ≠ i → f j = none) :
    allSlots.findSome? f = some a := by
  cases h : allSlots.findSome? f with
  | none => exact absurd (List.findSome?_eq_none_iff.1 h i (List.mem_finRange i)) (by rw [hi]; simp)
  | some b =>
    obtain ⟨j, -, hj⟩ := List.exists_of_findSome?_eq_some h
    by_cases hji : j = i
    · subst hji
      exact hj.symm.trans hi
    · rw [ho j hji] at hj
      exact absurd hj (by simp)

/-! ### Arrival (R163) -/

theorem writePieces_changes (i : Slot) (k : Nat) (l : List (Piece × Bytes)) (s : State) : changesOnly [.mem] s (writePieces i k l s) :=
  writePieces_frame i k l changesOnly_refl (List.Subset.refl _)

/-- Where no Chart runs for a slot none does while the installation and the loader stay. -/
theorem siteOf_none_of {s t : State} {i : Slot} (hi : t.installed = s.installed) (hl : t.loader = s.loader) (h : siteOf s i = none) :
    siteOf t i = none := by
  have hchart : runningChart t i = runningChart s i := by
    unfold runningChart chartOf
    rw [hi, hl]
  unfold siteOf at h ⊢
  rw [hi, hchart]
  revert h
  cases s.installed with
  | none => exact fun _ => rfl
  | some x =>
    cases runningChart s i with
    | none => exact fun _ => rfl
    | some c => exact fun h => absurd h (Option.some_ne_none _)

theorem unpackShard_none {i : Slot} {s : State} (m : Manifest) (here : Placement → Bool) (h : ShardHold) (hs : siteOf s i = none) :
    unpackShard i m here h s = s := by
  unfold unpackShard
  rw [hs]

/-- A shard that comes to a model without a swap, where no Chart runs: its pieces lie in its frame, its hold is valid, and it is asked
for no more. -/
theorem markValid_table {i : Slot} {k sh : Nat} {v : BitVec 32} {l : List (Piece × Bytes)} {s : State} {m : Model}
    (hm : (s.ctxOf i).model = some m) (hw : m.swap = none) (hsite : siteOf s i = none) :
    (markValid i false m.fetch sh v k l s).mem = (writePieces i k l s).mem ∧ (markValid i false m.fetch sh v k l s).log = s.log ∧
    ∃ m', ((markValid i false m.fetch sh v k l s).ctxOf i).model = some m' ∧ m'.loading = m.loading ∧
      m'.fetch.holds = (m.fetch.holds.filter fun y => !(y.shard == sh)) ++
        [{ shard := sh, version := v, frame := k, pieces := l.map Prod.fst, valid := true,
           digest := piecesDigest i m.fetch.manifest sh k (writePieces i k l s) }] ∧
      m'.fetch.reqs = m.fetch.reqs.filter fun r => !(r.shard == sh) := by
  have hc := writePieces_changes i k l s
  have hm' : ((writePieces i k l s).ctxOf i).model = some m := by rw [hc.ctxOf rfl]; exact hm
  have hsite' := siteOf_none_of (hc.installed rfl) (hc.loader rfl) hsite
  have hlog := hc.log rfl
  unfold markValid
  dsimp only
  generalize writePieces i k l s = u at *
  rw [hm']
  dsimp only
  simp only [show holdsSwap m m.fetch false sh = false from rfl, Bool.false_eq_true, if_false]
  generalize hh : ShardHold.mk sh v k (l.map Prod.fst) true (piecesDigest i m.fetch.manifest sh k u) = h
  have hput : ((putHold i false h u).ctxOf i).model =
      some { m with fetch := { m.fetch with holds := (m.fetch.holds.filter fun x => !(x.shard == h.shard)) ++ [h] } } := by
    unfold putHold
    rw [modModel_ctxOf, hm']
    dsimp only [Option.map_some]
    rw [hw]
  generalize hg : (fun m : Model => ({ m with digests := setPair m.digests sh _, checked := _ } : Model)) = g
  have hc' : changesOnly [.ctx] u (modFetch i false (fun f => { f with
        missing := f.missing.erase sh, reqs := f.reqs.filter (fun r => !(r.shard == sh)),
        caughtUp := f.caughtUp + b2n (f.streamEnded && f.reqs.any fun r => r.shard == sh) }) (modModel i g (putHold i false h u))) :=
    modFetch_frame _ _ _ (modModel_frame _ _ (putHold_frame _ _ _ changesOnly_refl (List.Subset.refl _)) (List.Subset.refl _)) (List.Subset.refl _)
  rw [unpackShard_none _ _ _ (siteOf_none_of (hc'.installed rfl) (hc'.loader rfl) hsite')]
  refine ⟨hc'.mem rfl, (hc'.log rfl).trans hlog, ?_⟩
  unfold modFetch
  rw [modModel_ctxOf, modModel_ctxOf, hput, ← hg, ← hh]
  exact ⟨_, rfl, rfl, rfl, rfl⟩

/-- An answer with every record of a shard that the model's table waits for (R163, R165). -/
theorem takeAnswer_table {i : Slot} {p : PortId} {k sh : Nat} {v : BitVec 32} {rs : List ShardRecord} {x : List (Piece × Bytes)} {s : State}
    {m : Model} (hm : (s.ctxOf i).model = some m) (hp : m.fetch.pilot = false) (hx : checkRecords m.fetch sh v [] rs = .ok x)
    (hwhole : wholeShard m.fetch sh v (x.map Prod.fst) = true) (hhold : holdOf m.fetch.holds sh = none)
    (hframe : frameFor m m.fetch false sh = some k) :
    takeAnswer i false p sh v rs s = finishLoad i (markValid i false m.fetch sh v k x s) := by
  have hf : fetchOf (s.ctxOf i) false = some m.fetch := by
    unfold fetchOf
    rw [hm]
    rfl
  have hfwd : forwardPilot i false p m.fetch rs s = s := by
    unfold forwardPilot
    rw [hm]
    dsimp only
    rw [hp]
    rfl
  unfold takeAnswer
  rw [hm, hf]
  dsimp only
  rw [hx]
  dsimp only
  rw [hwhole, if_neg (by simp), hfwd, show holdsSwap m m.fetch false sh = false from rfl, if_neg Bool.false_ne_true, hhold]
  dsimp only
  rw [hframe]

/-- A load whose shards have all come only leaves the pilot's stream at its end (R171). -/
theorem endStream_loaded {s : State} {i : Slot} {m : Model} (hm : (s.ctxOf i).model = some m) (hload : m.loading = true)
    (hend : m.fetch.streamEnded = false) (hall : allValid m.fetch = true) :
    endStream s i = modFetch i false (fun f => { f with streamEnded := true, missing := [] }) s := by
  have hnone : ((List.range m.fetch.manifest.shards.length).filter fun k => !(validAt m.fetch.holds m.fetch.manifest.baseStep k)) = [] :=
    List.filter_eq_nil_iff.2 fun k hk => by
      have hv := List.all_eq_true.1 hall k hk
      simp [hv]
  unfold endStream
  rw [hm]
  dsimp only
  rw [hload, hend, if_pos rfl, if_neg Bool.false_ne_true]
  unfold catchUpLoad
  rw [hnone, List.foldl_nil]

/-! ### The layers of a swap (R175) -/

/-- The next layer of a swap is replaced, and the swap waits for what comes. -/
theorem tryReplace_acts {s : State} {i : Slot} {m : Model} {w : Swap} {k : Nat} {r : List Nat} {ofK : ShardHold → Bool}
    (hm : (s.ctxOf i).model = some m) (hw : m.swap = some w) (htodo : w.todo = k :: r) (hr : r ≠ []) (hfail : w.failed = false)
    (hpilot : w.fetch.pilot = false) (hend : w.fetch.streamEnded = false) (hlayer : layerValid w.fetch w.fetch.manifest.baseStep k = true)
    (hadm : admittedWaits s i = false) (hclosed : closedLayer s k = true) (hofK : ofK = (fun h => (entryOf w.fetch.manifest h.shard).layer == k)) :
    ((tryReplace s i).ctxOf i).model = some { m with
      fetch := { m.fetch with holds := (m.fetch.holds.filter fun h => !(ofK h)) ++ w.fetch.holds.filter ofK },
      digests := (w.fetch.holds.filter ofK).foldl (fun d h => setPair d h.shard h.digest) m.digests,
      swap := some { w with todo := r, fetch := { w.fetch with holds := w.fetch.holds.filter fun h => !(ofK h) } } } ∧
    ∀ j, j ≠ i → (tryReplace s i).ctxOf j = s.ctxOf j := by
  have hunpack : ∀ (l : List ShardHold) (x : State),
      changesOnly [.mem] x (l.foldl (fun s h => unpackShard i w.fetch.manifest inStack h s) x) := fun l x =>
    foldl_frame changesOnly_refl fun h y hy => unpackShard_frame _ _ _ h hy (List.Subset.refl _)
  have hunpin : ∀ x : State, changesOnly [.tiles] x (unpinLayer k x) := fun x => unpinLayer_frame k changesOnly_refl (List.Subset.refl _)
  subst hofK
  unfold tryReplace
  rw [hm]
  dsimp only
  rw [hw]
  dsimp only
  rw [htodo]
  dsimp only
  rw [if_pos (by simp [hfail, hlayer, hadm, hclosed])]
  unfold replaceLayer
  dsimp only
  rw [htodo, List.drop_one, List.tail_cons, if_neg (by simpa using hr)]
  generalize hn : ({ m with fetch := _, digests := _, swap := _ } : Model) = n
  have hown : ∀ j, (((w.fetch.holds.filter fun h => (entryOf w.fetch.manifest h.shard).layer == k).foldl
      (fun s h => unpackShard i w.fetch.manifest inStack h s) (unpinLayer k (modModel i (fun _ => n) s))).ctxOf j) =
      (modModel i (fun _ => n) s).ctxOf j := fun j => by
    rw [(hunpack _ _).ctxOf rfl, (hunpin _).ctxOf rfl]
  have hmodel := hown i
  rw [modModel_ctxOf, hm] at hmodel
  rw [paceSwap_waits (i := i) (m := n) (by rw [hmodel]; rfl) (congrArg Model.swap hn.symm) hpilot hend]
  refine ⟨by rw [hmodel, ← hn]; rfl, fun j hj => ?_⟩
  rw [hown]
  exact modCtx_ctxOf_other _ _ _ _ hj.symm

/-- Settles O32. -/
theorem shardsRun : Obligations.ShardsRun := by
  unfold Obligations.ShardsRun
  refine ⟨fun s i sw k l f r hsites hf hr ht => ⟨_, ?timeoutRow, askAgain_now hf hr ht⟩,
    fun s i sw k l f r hsites hf hr ht => ⟨_, ?gapRow, askAgain_now hf hr ht⟩,
    fun s p g h i sw l f r hp hh hkind hv hsites hf hr ht => ⟨modReq i sw h.shard (fun r => { r with gap := true }) s, ?nackRow, ?nack⟩,
    fun s p g hp hv => ⟨discardSvc (parseSvc g.header) s, ?badRow, ?bad⟩,
    fun s p g h i l m x k hp hh hkind hv hsites hm hw hload hpilot hx hwhole hhold hframe hsite => ?data,
    fun s p g h i m hp hh hkind hv hother hm hid hwriter => ⟨ackPatch h s i, ?ackRow, ?ack⟩,
    fun s i m sh off y hother hm hy ht hstop => ⟨resendPatch i m y s, ?patchRow, ?patch⟩,
    fun s i m hother hm hload hend hall => ⟨endStream s i, ?streamRow, ?stream⟩,
    fun s i m w k r ofK hother hm hw htodo hr hfail hpilot hend hlayer hadm hclosed hofK => ⟨tryReplace s i, ?replaceRow, ?replace⟩⟩
  case timeoutRow =>
    show Host.Outcome.next (match reqSites s (fun _ r => !r.gap) k with | x :: _ => askAgain x.1 x.2 false k s | [] => s) = _
    rw [hsites]
  case gapRow =>
    show Host.Outcome.next (match reqSites s (fun _ r => r.gap) k with | x :: _ => askAgain x.1 x.2 false k s | [] => s) = _
    rw [hsites]
  case nackRow =>
    subst hh
    show Host.Outcome.next (if !(portTakes s p) then s
      else if !((parseSvc g.header).kind == 0x62) || !(svcValid (parseSvc g.header) g.records.length) then discardSvc (parseSvc g.header) s
      else match reqSites s (fun f r => !r.gap && f.manifest.modelId == (parseSvc g.header).modelId &&
          r.version == (parseSvc g.header).version) (parseSvc g.header).shard with
        | x :: _ => askAgain x.1 x.2 true (parseSvc g.header).shard s
        | [] => s) = _
    rw [hp, hkind, hv, hsites]
    exact congrArg Host.Outcome.next (askAgain_left hf hr ht)
  case nack =>
    unfold modReq
    rw [modFetch_fetchOf, hf]
    exact ⟨rfl, (modFetch_changes ..).log rfl, (modFetch_changes ..).out rfl⟩
  case badRow =>
    show Host.Outcome.next (if !(portTakes s p) then s
      else if !((parseSvc g.header).kind == 0x61) || !(svcValid (parseSvc g.header) g.records.length) then discardSvc (parseSvc g.header) s
      else takeData p (parseSvc g.header) g.records s) = _
    rw [hp, hv, if_neg (by simp), if_pos (by simp)]
  case bad =>
    unfold discardSvc
    rw [report_badShards, report_ctx, report_mem, report_log]
    exact ⟨rfl, rfl, rfl, rfl⟩
  case data =>
    obtain ⟨hmem, hlog, m', hm', hload', hholds, hreqs⟩ := markValid_table (k := k) (sh := h.shard) (v := h.version) (l := x) hm hw hsite
    have hdone : finishLoad i (markValid i false m.fetch h.shard h.version k x s) = markValid i false m.fetch h.shard h.version k x s := by
      unfold finishLoad
      rw [hm']
      dsimp only
      rw [hload', hload]
      rfl
    refine ⟨markValid i false m.fetch h.shard h.version k x s, ?_, hmem, hlog, m', hm', hholds, hreqs⟩
    rw [← hdone, ← takeAnswer_table hm hpilot hx hwhole hhold hframe (p := p)]
    subst hh
    show Host.Outcome.next (if !(portTakes s p) then s
      else if !((parseSvc g.header).kind == 0x61) || !(svcValid (parseSvc g.header) g.records.length) then discardSvc (parseSvc g.header) s
      else takeData p (parseSvc g.header) g.records s) = _
    rw [hp, hkind, hv, if_neg (by simp), if_neg (by simp)]
    unfold takeData
    rw [hsites]
  case ackRow =>
    subst hh
    show Host.Outcome.next (if !(portTakes s p) then s
      else if !((parseSvc g.header).kind == 0x64) || !(svcValid (parseSvc g.header) g.records.length) then discardSvc (parseSvc g.header) s
      else allSlots.foldl (ackPatch (parseSvc g.header)) s) = _
    have hkeep : ∀ j, j ≠ i → (ackPatch (parseSvc g.header) s i).ctxOf j = s.ctxOf j := fun j hj => modCtx_ctxOf_other _ _ _ _ hj.symm
    rw [hp, hkind, hv, foldl_one_slot (i := i) (fun j hj => modModel_none _ (hother j hj))
      fun j hj => modModel_none _ ((congrArg Ctx.model (hkeep j hj)).trans (hother j hj))]
    rfl
  case ack =>
    unfold ackPatch
    rw [modModel_ctxOf, hm]
    dsimp only [Option.map_some]
    rw [if_pos (by rw [hid, hwriter]; simp)]
  case patchRow =>
    have hfound := findSome_one_slot (f := fun i => match (s.ctxOf i).model with
      | some m => (m.patches.find? fun p => p.shard == sh && p.streamOffset == off).map fun p => (i, m, p)
      | none => none) (i := i) (a := (i, m, y)) (by rw [hm]; dsimp only; rw [hy]; rfl) (fun j hj => by rw [hother j hj])
    show Host.Outcome.next (match allSlots.findSome? (fun i => match (s.ctxOf i).model with
        | some m => (m.patches.find? fun p => p.shard == sh && p.streamOffset == off).map fun p => (i, m, p)
        | none => none) with
      | some x => if patchStopped s x.2.2 then s else resendPatch x.1 x.2.1 x.2.2 s
      | none => s) = _
    rw [hfound]
    dsimp only
    rw [hstop, if_neg Bool.false_ne_true]
  case patch =>
    have hc : ∀ (k : Nat) (d : BitVec 32) (g : PlaneMsg) (x : State), changesOnly [.out, .ports] x (sendOnPlane k d g x) := fun k d g x =>
      sendOnPlane_frame k d g changesOnly_refl (List.Subset.refl _)
    unfold resendPatch
    rw [if_neg (Nat.not_le.2 ht), (hc ..).log rfl, (hc ..).ctxOf rfl, modModel_ctxOf, hm]
    exact ⟨rfl, rfl⟩
  case streamRow =>
    have hnone : ∀ (x : State) j, (x.ctxOf j).model = none → endStream x j = x := fun x j hj => by
      unfold endStream
      rw [hj]
    have hkeep : ∀ j, j ≠ i → (endStream s i).ctxOf j = s.ctxOf j := fun j hj => by
      rw [endStream_loaded hm hload hend hall]
      exact modCtx_ctxOf_other _ _ _ _ hj.symm
    exact congrArg Host.Outcome.next (foldl_one_slot (fun j hj => hnone s j (hother j hj))
      fun j hj => hnone _ j ((congrArg Ctx.model (hkeep j hj)).trans (hother j hj)))
  case stream =>
    rw [endStream_loaded hm hload hend hall]
    unfold modFetch
    rw [modModel_ctxOf, hm]
    rfl
  case replaceRow =>
    have hnone : ∀ (x : State) j, (x.ctxOf j).model = none → tryReplace x j = x := fun x j hj => by
      unfold tryReplace
      rw [hj]
    obtain ⟨-, hkeep⟩ := tryReplace_acts hm hw htodo hr hfail hpilot hend hlayer hadm hclosed hofK
    exact congrArg Host.Outcome.next (foldl_one_slot (fun j hj => hnone s j (hother j hj))
      fun j hj => hnone _ j ((congrArg Ctx.model (hkeep j hj)).trans (hother j hj)))
  case replace =>
    obtain ⟨hmodel, -⟩ := tryReplace_acts hm hw htodo hr hfail hpilot hend hlayer hadm hclosed hofK
    exact hmodel

end Sys2Proof.Machine

/-! SUPPORT. Field tests, the registers of BAR0 and LOG_SNAPSHOT (R11, R266, R286 to R288, R404, R430). -/

namespace Sys2Proof.Machine

open Sys2Proof

/-! ### Field tests (R430) -/

/-- A field test that may not start is refused with 0x0E0B. -/
theorem startField_refused {s : State} (k : BitVec 4) (hrun : s.field.running = none) (ha : fieldAllowed s = false) :
    startField k s = report { code := 0x0E0B } { s with field := { s.field with kind := k, result := 0x0E0B } } := by
  unfold startField
  extract_lets f u
  have hidle : ¬u.field.running.isSome = true := by simp [u, f, hrun]
  have hallowed : fieldAllowed u = false := ha
  rw [if_neg hidle, hallowed]
  rfl

/-- A field test that may start runs with the dies that the mask names, and powers those that are off. -/
theorem startField_starts {s : State} (k : BitVec 4) (hrun : s.field.running = none) (ha : fieldAllowed s = true)
    (hlo : 1 ≤ k.toNat) (hhi : k.toNat ≤ 4) : (startField k s).field = { s.field with
      kind := k, running := some k, testLo := s.field.dieMaskLo, testHi := s.field.dieMaskHi } ∧
    (∀ d, (startField k s).dieOf d =
      if powersDies k = true ∧ inFieldMask s d = true ∧ (s.dieOf d).rails = .off ∧ (s.dieOf d).latchedOff = false then
        { s.dieOf d with rails := .queued } else s.dieOf d) ∧ changesOnly [.field, .dies] s (startField k s) := by
  unfold startField
  extract_lets f u g v
  have hidle : ¬u.field.running.isSome = true := by simp [u, f, hrun]
  have hallowed : fieldAllowed u = true := ha
  have hset : changesOnly [.field, .dies] s v := changesOnly_field (changesOnly_field changesOnly_refl (by decide)) (by decide)
  rw [if_neg hidle, hallowed, if_pos (by simp [hlo, hhi])]
  cases powersDies k with
  | true =>
    refine ⟨rfl, fun d => ?_, mapDies_frame _ hset (by decide)⟩
    rw [if_pos rfl, mapDies_dieOf]
    show (if inFieldMask s d && decide ((s.dieOf d).rails = .off) && !(s.dieOf d).latchedOff then _ else _) = _
    simp [and_assoc]
    rfl
  | false => exact ⟨rfl, fun d => (if_neg (by simp)).symm, hset⟩

theorem afterField_field (k : BitVec 4) (s : State) : (afterField k s).field = s.field :=
  (afterField_frame k changesOnly_refl (List.Subset.refl _)).field rfl

/-- What the test finds leaves the test's own registers. -/
theorem recordFaults_field (code : Code) (faults : List Part) (tracks : List (LinkDir × Nat × Nat)) (s : State) :
    (recordFaults code faults tracks s).field = s.field :=
  (recordFaults_frame code faults tracks changesOnly_refl (List.Subset.refl _)).field rfl

/-- The test's end gives its result, and the dies under test are off (R430). -/
theorem endField_field (k : BitVec 4) (faults : List Part) (tracks : List (LinkDir × Nat × Nat)) (ms : Word) (s : State) :
    (endField k faults tracks ms s).field = { s.field with
      running := none, result := 0x0E0A, lasting := BitVec.ofNat 16 (min (faults.length + tracks.length) 65535), elapsedMs := ms } ∧
    (powersDies k = true → ∀ d, underTest s d = true → ((endField k faults tracks ms s).dieOf d).rails = .off ∧
      ((endField k faults tracks ms s).dieOf d).locked = false) := by
  unfold endField
  extract_lets n u v w
  have hv : v.field = s.field :=
    (changesOnly_ite (report_changes _ _) changesOnly_refl).field rfl
      |>.trans (recordFaults_field ..)
  have hw : w.field = s.field := (afterField_field k v).trans hv
  refine ⟨?_, fun hk d hd => ?_⟩
  · rw [report_field]
    exact congrArg (fun f : Field => { f with
      running := none, result := 0x0E0A, lasting := BitVec.ofNat 16 (min n 65535), elapsedMs := ms }) hw
  · have hdie : w.dieOf d = { v.dieOf d with rails := .off, locked := false } := by
      show (afterField k v).dieOf d = _
      unfold afterField
      have hsame : underTest v d = underTest s d := by unfold underTest; rw [hv]
      rw [if_pos hk, railsDown_dieOf, hsame, if_pos hd]
    rw [report_dieOf]
    exact ⟨congrArg Die.rails hdie, congrArg Die.locked hdie⟩

/-- A test that finds nothing reports its end with a count of none. -/
theorem endField_clean (k : BitVec 4) (ms : Word) (s : State) : endField k [] [] ms s =
    report { code := 0x0E0A, isCount := true } { afterField k s with field := { (afterField k s).field with
      running := none, result := 0x0E0A, lasting := 0, elapsedMs := ms } } := by
  unfold endField
  exact (congrArg (fun x => report { code := 0x0E0A, isCount := true } { afterField k x with field := { (afterField k x).field with
      running := none, result := 0x0E0A, lasting := 0, elapsedMs := ms } }) (if_neg (by simp)))

/-- Settles O33. -/
theorem fieldTestsRun : Obligations.FieldTestsRun := by
  unfold Obligations.FieldTestsRun
  refine ⟨fun s c k hc hw hrun => ?start, fun s k faults tracks ms hk hr => ?ends, fun s k ms hk h34 => ?clean⟩
  case start =>
    have hstart : exec c s = .next (when' (barWritable s) (startField k) s) ∧ 1 ≤ k.toNat ∧ k.toNat ≤ 4 ∧
        (powersDies k = true ↔ k.toNat ≤ 2) := by
      obtain ⟨rfl, rfl⟩ | ⟨rfl, rfl⟩ | ⟨rfl, rfl⟩ | ⟨rfl, rfl⟩ := hc <;> exact ⟨rfl, by decide, by decide, by decide⟩
    obtain ⟨hexec, hlo, hhi, hpow⟩ := hstart
    refine ⟨fun ha => exec_when hexec hw ?_, fun ha => exec_when hexec hw ?_⟩
    · obtain ⟨hfield, hdies, hch⟩ := startField_starts k hrun ha hlo hhi
      simp only [hpow] at hdies
      exact ⟨hfield, hdies, hch⟩
    · rw [startField_refused k hrun ha, report_log, report_field, report_dies, report_mem]
      exact ⟨rfl, rfl, rfl, rfl⟩
  case ends =>
    refine ⟨endField k faults tracks ms s, ?_, ?_⟩
    · show Host.Outcome.next (match s.field.running with | none => s | some kind => _) = _
      rw [hk]
      dsimp only
      rw [hr, if_pos rfl]
    · obtain ⟨hfield, hdies⟩ := endField_field k faults tracks ms s
      rw [hfield]
      refine ⟨rfl, rfl, rfl, rfl, fun d h12 hd => hdies ?_ d hd⟩
      obtain rfl | rfl := h12 <;> rfl
  case clean =>
    have hpow : powersDies k = false := by obtain rfl | rfl := h34 <;> rfl
    refine ⟨endField k [] [] ms s, ?_, ?_⟩
    · show Host.Outcome.next (match s.field.running with | none => s | some kind => _) = _
      rw [hk]
      dsimp only
      rw [if_pos (by unfold fieldDiesReady; rw [hpow]; rfl)]
    · have hafter : afterField k s = { s with mem := (afterField k s).mem } := by
        unfold afterField
        rw [hpow, if_neg Bool.false_ne_true]
        split <;> rfl
      rw [endField_clean, report_defects, report_log, report_mem, hafter]
      refine ⟨rfl, rfl, fun a b => ?_⟩
      obtain rfl | rfl := h34
      · show (a, b) ∈ s.mem.filter (fun c => !(decide (2 ^ 34 ≤ c.1) && decide (c.1 < 2 ^ 40) && true)) ↔ _
        rw [List.mem_filter, if_pos rfl]
        simp
      · show (a, b) ∈ s.mem.filter (fun c => decide (c.1 < 2 ^ 40)) ↔ _
        rw [List.mem_filter, if_neg (by decide), decide_eq_true_iff]

/-! ### Writes of registers (R11, R266, R404) -/

/-- A field from bit 0 is the word's low bits. -/
theorem fieldBv_zero (n : Nat) (w : Word) : fieldBv n w 0 = BitVec.ofNat n w.toNat := by
  unfold fieldBv
  rw [pow_zero, Nat.div_one]

/-- Words outside the blocks, and offsets that are no multiple of four, are in no register. -/
theorem writeReg_unmapped {a : Nat} (w : Word) (s : State)
    (h : a % 4 ≠ 0 ∨ a < 0x1000 ∨ 0x18000 ≤ a ∧ a < 0x20000 ∨ 0x90000 ≤ a) : writeReg a w s = s := by
  unfold writeReg
  by_cases hlow : ¬a % 4 = 0 ∨ a < 0x1000
  · rw [if_pos hlow]
  · rw [if_neg hlow, if_neg (by omega), if_neg (by omega)]
    by_cases hgap : a < 0x20000
    · rw [if_pos hgap]
    · rw [if_neg hgap, if_neg (by omega), if_neg (by omega), if_neg (by omega), if_neg (by omega), if_neg (by omega),
        if_neg (by omega), if_neg (by omega), if_neg (by omega)]

/-- The base of a context's ring is in the context's own block. -/
theorem writeReg_ringBase (i : Slot) (w : Word) (s : State) : writeReg (BitVec.ofNat 24 (0x10010 + 0x1000 * i.val)).toNat w s =
    modCtx i (fun c => { c with cq := { c.cq with baseLo := w &&& ~~~0x1F } }) s := by
  fin_cases i <;> rfl

/-- Settles O34. -/
theorem registersRun : Obligations.RegistersRun := by
  unfold Obligations.RegistersRun
  refine ⟨fun s i hw => exec_evIndexWrite hw i, fun s a w hw ha => ?unmapped, fun s w hw => ?words, fun s i w hw => ?base,
    fun s a w hw => exec_when_not rfl hw⟩
  case unmapped => rw [exec_registerWrite hw, writeReg_unmapped w s ha]
  case words =>
    simp only [exec_registerWrite hw, BitVec.reduceToNat, ← fieldBv_zero]
    exact ⟨rfl, rfl, rfl, rfl, rfl, rfl, rfl, rfl, rfl, rfl, rfl, rfl, rfl⟩
  case base =>
    refine ⟨_, (exec_registerWrite hw _ w).trans (congrArg Host.Outcome.next (writeReg_ringBase i w s)), ?_, fun j hj => ?_⟩
    · rw [modCtx_ctxOf_same]
    · rw [modCtx_ctxOf_other _ _ _ _ hj.symm]

/-! ### LOG_SNAPSHOT (R286 to R288) -/

/-- Settles O35. -/
theorem snapshotRuns : Obligations.SnapshotRuns := by
  unfold Obligations.SnapshotRuns
  intro s i q r hh
  have hs : OnlyQueues i s (started i q r s) := started_onlyQueues i q r s
  have hstart := startRow_headStarts (f := snapshotStart) hh
  conv_rhs at hstart => unfold snapshotStart
  dsimp only at hstart ⊢
  generalize logImage (started i q r s) i = log at hstart ⊢
  generalize started i q r s = u at hs hstart
  generalize leAt r.entry.body 0 8 = a at hstart ⊢
  generalize leAt r.entry.body 8 4 = n at hstart ⊢
  refine ⟨fun hlen => ⟨startRow 0x40 snapshotStart i q s, rfl, ?written⟩, fun hlen => ⟨startRow 0x40 snapshotStart i q s, rfl, ?refused⟩⟩
  case written =>
    rw [if_neg (Nat.not_lt.2 hlen)] at hstart
    rw [hstart]
    have hch := atOnce_frame i q r log.length (changesOnly_refl (s := { storeBytes (hdmKey i a) log u with snapshots := u.snapshots + 1 }))
      (List.Subset.refl _)
    obtain ⟨-, fv, hheld⟩ := atOnce_acts i q r log.length { storeBytes (hdmKey i a) log u with snapshots := u.snapshots + 1 }
    refine ⟨(hch.snapshots rfl).trans ?_, (hch.mem rfl).trans ?_, fv, hheld.trans ?_⟩
    · exact congrArg (· + 1) (hs.changes.snapshots rfl)
    · exact congrArg (writeBytes · _ _) (hs.changes.mem rfl)
    · exact congrArg (fun c : CplRing => c.held ++ _) hs.cq
  case refused =>
    rw [if_pos hlen] at hstart
    rw [hstart]
    have hch := refuseStart_frame i q r 0x030A log.length (changesOnly_refl (s := u)) (List.Subset.refl _)
    obtain ⟨lc, ev, hown⟩ := refuseStart_own i q r 0x030A log.length u
    refine ⟨(hch.snapshots rfl).trans (hs.changes.snapshots rfl), (hch.mem rfl).trans (hs.changes.mem rfl), ?_⟩
    rw [hown]
    exact congrArg (fun c : CplRing => c.held ++ _) hs.cq

end Sys2Proof.Machine

/-! SUPPORT. COUNTS, SCALAR_SUM, BROADCAST and BARRIER: start, messages, aborts (R210, R225 to R232). -/

namespace Sys2Proof.Machine

open Sys2Proof

/-! ### Running commands of a group -/

/-- The running command found for a descriptor is that descriptor's. -/
theorem instOf_descId {s : State} {d : Nat} {x : CollInst} (h : instOf s d = some x) : x.descId = d := by
  unfold instOf at h
  simpa using List.find?_some h

/-- A change of what runs for a descriptor is read there. -/
theorem modInst_instOf (d : Nat) {f : CollInst → CollInst} (hf : ∀ x, (f x).descId = x.descId) (s : State) :
    instOf (modInst d f s) d = (instOf s d).map f := by
  have hpred : (fun x : CollInst => x.descId == d) ∘ (fun x => if x.descId == d then f x else x) = fun x => x.descId == d := by
    funext x
    dsimp only [Function.comp]
    split
    · rw [hf x]
    · rfl
  unfold modInst instOf
  dsimp only
  rw [List.find?_map, hpred]
  cases hx : s.coll.insts.find? (fun x => x.descId == d) with
  | none => rfl
  | some x => exact congrArg some (if_pos (List.find?_some hx))

theorem modInst_changes (d : Nat) (f : CollInst → CollInst) (s : State) : changesOnly [.coll] s (modInst d f s) :=
  modInst_frame d f changesOnly_refl (List.Subset.refl _)

/-- What is set at an index is found there. -/
theorem find?_setPair_same {α : Type} (l : List (Nat × α)) (i : Nat) (v : α) : find? (setPair l i v) i = some v := by
  unfold setPair find?
  split
  case isTrue h =>
    induction l with
    | nil => simp at h
    | cons a l ih =>
      rw [List.map_cons, List.find?_cons]
      by_cases ha : a.1 == i
      · simp [ha]
      · rw [List.any_cons, Bool.not_eq_true] at *
        rw [ha, Bool.false_or] at h
        simp only [ha, Bool.false_eq_true, if_false]
        exact ih h
  case isFalse h =>
    rw [List.find?_append, List.find?_eq_none.2 fun a ha => ?_]
    · simp
    · exact fun hi => h (List.any_eq_true.2 ⟨a, ha, hi⟩)

/-- A command that ends is gone, it has its record and its sequence number is kept (R210). -/
theorem endInst_acts (x : CollInst) (code : Code) (initiator : Nat) (s : State) :
    instOf (endInst x code initiator s) x.descId = none ∧ (endInst x code initiator s).mem = s.mem ∧
    find? ((endInst x code initiator s).ctxOf (collSlot s)).lastSeq x.descId = some x.seq ∧
    ∃ fv, ((endInst x code initiator s).ctxOf (collSlot s)).cq.held =
      (s.ctxOf (collSlot s)).cq.held ++ [cplRecord x.cmd code initiator 0 fv] := by
  let u : State := { s with coll := { s.coll with insts := s.coll.insts.filter fun y => !(y.descId == x.descId) } }
  have hend : endInst x code initiator s = setSeq (collSlot s) x.descId x.seq (completeCmd (collSlot s) x.cmd code initiator 0 u) := rfl
  have hch : changesOnly [.out, .log, .host, .ctx] u (endInst x code initiator s) := by
    rw [hend]
    exact setSeq_frame _ _ _ (completeCmd_frame _ _ _ _ _ changesOnly_refl (List.Subset.refl _)) (by decide)
  obtain ⟨-, fv, hheld⟩ := completeCmd_acts (collSlot s) x.cmd code initiator 0 u
  have hown : (endInst x code initiator s).ctxOf (collSlot s) = { (completeCmd (collSlot s) x.cmd code initiator 0 u).ctxOf (collSlot s) with
      lastSeq := setPair ((completeCmd (collSlot s) x.cmd code initiator 0 u).ctxOf (collSlot s)).lastSeq x.descId x.seq } := by
    rw [hend]
    exact modCtx_ctxOf_same ..
  refine ⟨?_, hch.mem rfl, ?_, fv, ?_⟩
  · unfold instOf
    rw [hch.coll rfl]
    refine List.find?_eq_none.2 fun y hy => ?_
    have hy' := (List.mem_filter.1 hy).2
    simpa using hy'
  · rw [hown]
    exact find?_setPair_same ..
  · rw [hown]
    exact hheld

section
variable {L : List Block} {s t : State}

theorem changesOnly.holder (h : changesOnly L s t) (hb : L.contains Block.ctx = false) : holder t = holder s := by
  unfold Machine.holder
  rw [funext (h.ctxOf hb)]

theorem changesOnly.collSlot (h : changesOnly L s t) (hb : L.contains Block.ctx = false) : collSlot t = collSlot s := by
  unfold Machine.collSlot
  rw [h.holder hb]

theorem changesOnly.ownMember (h : changesOnly L s t) (hb : L.contains Block.loader = false) : ownMember t = ownMember s := by
  unfold Machine.ownMember
  rw [h.loader hb]

theorem changesOnly.instOf (h : changesOnly L s t) (hb : L.contains Block.coll = false) (d : Nat) : instOf t d = instOf s d := by
  unfold Machine.instOf
  rw [h.coll hb]

end

/-! ### Progress -/

theorem allIn_iff (x : CollInst) (l : List Nat) : allIn x l = true ↔ ∀ m ∈ x.members, m ∈ l := by
  unfold allIn
  simp

theorem allIn_false {x : CollInst} {l : List Nat} (h : ∃ m ∈ x.members, m ∉ l) : allIn x l = false := by
  obtain ⟨m, hm, hl⟩ := h
  exact Bool.eq_false_iff.2 fun ha => hl ((allIn_iff x l).1 ha m hm)

section
variable {s : State} {d : Nat} {x : CollInst}

theorem advanceInst_counts (hx : instOf s d = some x) (ha : x.aborts = []) (hk : x.kind = 2) :
    advanceInst d s = if allIn x (x.counts.map Prod.fst) then finishCounts x s else s := by
  unfold advanceInst
  rw [hx]
  simp [ha, hk]

theorem advanceInst_scalars (hx : instOf s d = some x) (ha : x.aborts = []) (hk : x.kind = 3) :
    advanceInst d s = if allIn x (x.scalars.map Prod.fst) then
      endInst x 0 0xFFFF (storeBytes (hdmKey (collSlot s) x.dst) (scalarBytes x) s) else s := by
  unfold advanceInst
  rw [hx]
  simp [ha, hk]

theorem advanceInst_root (hx : instOf s d = some x) (ha : x.aborts = []) (hk : x.kind = 4) (hr : x.root = ownMember s) :
    advanceInst d s = if allIn x (x.root :: x.arrived) then endInst x 0 0xFFFF s else s := by
  unfold advanceInst
  rw [hx]
  simp [ha, hk, hr]

theorem advanceInst_receiver (hx : instOf s d = some x) (ha : x.aborts = []) (hk : x.kind = 4) (hr : x.root ≠ ownMember s) :
    advanceInst d s = checkDigest x s := by
  unfold advanceInst
  rw [hx]
  simp [ha, hk, hr]

theorem advanceInst_barrier (hx : instOf s d = some x) (ha : x.aborts = []) (hk : x.kind = 5) :
    advanceInst d s = if allIn x x.arrived then endInst x 0 0xFFFF s else s := by
  unfold advanceInst
  rw [hx]
  simp [ha, hk]

theorem checkDigest_unseen (h : x.digest = none) (s : State) : checkDigest x s = s := by
  unfold checkDigest
  rw [h]

theorem checkDigest_missing (h : missingChunks x ≠ []) (s : State) : checkDigest x s = s := by
  unfold checkDigest
  split
  · rfl
  · rw [if_pos (by simpa using h)]

theorem checkDigest_whole {g : Bytes} (hd : x.digest = some g) (hm : missingChunks x = [])
    (hg : Config.shake256 (s.hdmBytes (collSlot s) x.dst x.length) 64 = g) :
    checkDigest x s = endInst x 0 0xFFFF (sendAll (groupEp s) (.bcastDone (instHdr s x 0)) s) := by
  unfold checkDigest
  rw [hd]
  dsimp only
  rw [hm, if_neg (by simp), hg, if_pos (beq_self_eq_true g)]

end

/-- A message of a running command is applied, and the command goes on (R211). -/
theorem collMsg_takes {k : Nat} {p : PortId} {h : CollHdr} {x : CollInst} {s : State} (hx : forInstance k p h x s) {m : HeldMsg}
    (hm : commandOf m = k) : collMsg p h m s = advanceInst x.descId (applyMsg x m s) := by
  obtain ⟨hport, htag, hinst, hseq, habort, hkind, hmask, hsize, hsender⟩ := hx
  unfold collMsg takeMsg
  rw [hinst]
  simp [hport, htag, hseq, habort, hkind, hm, hmask, hsize, hsender]

/-! ### The commands (R210, R213, R225 to R229) -/

section
variable {s : State} {d : Nat}

/-- No message of a descriptor is held: none is there for its next start, and none is stale. -/
theorem heldFor_none {n : Nat} (h : ∀ m ∈ s.coll.held, (heldKey m).1 ≠ d) : heldFor s d n = [] :=
  List.filter_eq_nil_iff.2 fun m hm => by
    have hd := h m hm
    rw [beq_iff_eq]
    exact fun he => hd (by rw [he])

theorem discardStale_none {n : Nat} (h : ∀ m ∈ s.coll.held, (heldKey m).1 ≠ d) : discardStale d n s = s := by
  unfold discardStale
  rw [List.filter_eq_nil_iff.2 fun m hm => by simp [h m hm]]
  rfl

end

/-- A command that has exchanged nothing waits for another member. -/
theorem advanceInst_new {u t : State} {i : Slot} {q : QId} {r : Ready} {k : Nat} {b : CollBody}
    (hx : instOf t b.descId = some (newInst u i q r k b)) (hk : k = 2 ∨ k = 3 ∨ k = 4 ∨ k = 5)
    (hm : ∃ m ∈ (newInst u i q r k b).members, m ≠ ownMember u ∧ (k = 4 → m ≠ (newInst u i q r k b).root)) :
    advanceInst b.descId t = t := by
  obtain ⟨m, hm, hne, hroot⟩ := hm
  obtain rfl | rfl | rfl | rfl := hk
  · rw [advanceInst_counts hx rfl rfl, allIn_false ⟨m, hm, by simpa [newInst] using hne⟩, if_neg Bool.false_ne_true]
  · rw [advanceInst_scalars hx rfl rfl, allIn_false ⟨m, hm, by simpa [newInst] using hne⟩, if_neg Bool.false_ne_true]
  · by_cases hr : (newInst u i q r 4 b).root = ownMember t
    · rw [advanceInst_root hx rfl rfl hr, allIn_false ⟨m, hm, by simpa [newInst] using hroot rfl⟩, if_neg Bool.false_ne_true]
    · rw [advanceInst_receiver hx rfl rfl hr, checkDigest_unseen rfl]
  · rw [advanceInst_barrier hx rfl rfl, allIn_false ⟨m, hm, by simpa [newInst] using hne⟩, if_neg Bool.false_ne_true]

/-- With no message held for its descriptor, a command joins those that run and sends its first messages. -/
theorem collRun_starts {u : State} {i : Slot} {q : QId} {r : Ready} {k : Nat} {b : CollBody} (hk : k = 2 ∨ k = 3 ∨ k = 4 ∨ k = 5)
    (hheld : ∀ m ∈ u.coll.held, (heldKey m).1 ≠ b.descId) (hnone : instOf u b.descId = none)
    (hm : ∃ m ∈ (newInst u i q r k b).members, m ≠ ownMember u ∧ (k = 4 → m ≠ (newInst u i q r k b).root)) :
    instOf (collRun i q r k b u) b.descId = some (newInst u i q r k b) ∧
    ((collRun i q r k b u).ctxOf i).running = (u.ctxOf i).running ++ [(newInst u i q r k b).cmd] ∧
    changesOnly [.out, .ports, .ctx, .coll] u (collRun i q r k b u) := by
  unfold collRun
  dsimp only
  rw [heldFor_none hheld, discardStale_none hheld]
  generalize hx : newInst u i q r k b = x at hm ⊢
  generalize hv : addRunning i x.cmd { u with coll := { u.coll with
    insts := u.coll.insts ++ [x], held := heldLater b.descId b.seq u.coll.held } } = v
  have hsend := sendFirst_frame x (changesOnly_refl (s := v)) (List.Subset.refl _)
  have hstart : changesOnly [.out, .ports, .ctx, .coll] u v := by
    rw [← hv]
    exact addRunning_frame i x.cmd (changesOnly_coll changesOnly_refl (by decide)) (by decide)
  have hinst : instOf (sendFirst x v) b.descId = some x := by
    rw [hsend.instOf rfl, ← hv]
    unfold instOf at hnone ⊢
    show (u.coll.insts ++ [x]).find? (fun y => y.descId == b.descId) = some x
    rw [List.find?_append, hnone, ← hx]
    simp [newInst]
  have hadv : advanceInst b.descId (sendFirst x v) = sendFirst x v :=
    advanceInst_new (by rw [hinst, hx]) hk (by rw [hx]; exact hm)
  show instOf (advanceInst b.descId (sendFirst x v)) b.descId = _ ∧ ((advanceInst b.descId (sendFirst x v)).ctxOf i).running = _ ∧
    changesOnly _ u (advanceInst b.descId (sendFirst x v))
  rw [hadv]
  refine ⟨hinst, ?_, changesOnly_trans hstart (changesOnly_mono hsend (by decide))⟩
  rw [hsend.ctxOf rfl, ← hv]
  exact congrArg Ctx.running (modCtx_ctxOf_same ..)

/-- Settles O36. -/
theorem collectivesStart : Obligations.CollectivesStart := by
  unfold Obligations.CollectivesStart
  intro c op k hc s i q r hh
  dsimp only
  have hrow : exec (c i q) s = .next (startRow op (collStart k) i q s) ∧ (k = 2 ∨ k = 3 ∨ k = 4 ∨ k = 5) := by
    obtain ⟨rfl, rfl, rfl⟩ | ⟨rfl, rfl, rfl⟩ | ⟨rfl, rfl, rfl⟩ | ⟨rfl, rfl, rfl⟩ := hc <;> exact ⟨rfl, by decide⟩
  obtain ⟨hexec, hk⟩ := hrow
  have hs := started_onlyQueues i q r s
  rw [startRow_headStarts hh] at hexec
  generalize started i q r s = u at hexec hs ⊢
  have hrefuse : ∀ code, (refuseStart i q r code 0 u).coll = s.coll ∧ ((refuseStart i q r code 0 u).ctxOf i).cq.held =
      (s.ctxOf i).cq.held ++ [cplRecord (cmdOf q r.idx r.entry) code 0xFFFF 0 0] := fun code => by
    obtain ⟨lc, ev, hown⟩ := refuseStart_own i q r code 0 u
    refine ⟨((refuseStart_frame i q r code 0 (changesOnly_refl (s := u)) (List.Subset.refl _)).coll rfl).trans (hs.changes.coll rfl), ?_⟩
    rw [hown]
    exact congrArg (fun c : CplRing => c.held ++ _) hs.cq
  refine ⟨fun hr => ⟨_, hexec, ?_⟩, fun hr hp => ⟨_, hexec, ?_⟩, fun hr hp hheld hnone hm => ⟨_, hexec, ?_⟩⟩
  · unfold collStart
    dsimp only
    rw [hr, if_pos rfl]
    exact hrefuse _
  · unfold collStart
    dsimp only
    rw [hr, if_neg Bool.false_ne_true, if_pos (by simp [hp])]
    exact hrefuse _
  · have hcoll : u.coll = s.coll := hs.changes.coll rfl
    obtain ⟨hinst, hrun, hch⟩ := collRun_starts (u := u) hk (by rw [hcoll]; exact hheld)
      (by unfold instOf at hnone ⊢; rw [hcoll]; exact hnone) hm
    unfold collStart
    dsimp only
    rw [hr, if_neg Bool.false_ne_true, if_neg (by simpa using hp)]
    exact ⟨hinst, hrun.trans (by rw [hs.running]), (hch.mem rfl).trans (hs.changes.mem rfl), (hch.log rfl).trans (hs.changes.log rfl)⟩

/-! ### What a message does to its command (R226 to R229) -/

/-- The port that a chunk goes out on is in service. -/
theorem chunkPort_up {s : State} (h : portsInService s ≠ []) (c : Nat) : (s.portOf (chunkPort s c)).state = .up := by
  have hlen : c % (portsInService s).length < (portsInService s).length := Nat.mod_lt _ (List.length_pos_iff.2 h)
  have hmem : chunkPort s c ∈ portsInService s := by
    unfold chunkPort
    dsimp only
    rw [List.getD_eq_getElem _ _ hlen]
    exact List.getElem_mem hlen
  unfold portsInService at hmem
  have hup := (List.mem_filter.1 hmem).2
  simp only [Bool.and_eq_true, decide_eq_true_eq] at hup
  exact hup.1

/-- A message on a port that is UP leaves, and the codewords that go with it follow. -/
theorem sendMsg_out {p : PortId} {s : State} (h : (s.portOf p).state = .up) (dst : BitVec 32) (m : PlaneMsg) :
    ∃ ws : List Codeword, (sendMsg p dst m s).out = s.out ++ .plane p dst m :: ws.map (.codeword p) := by
  unfold sendMsg
  rw [if_pos h]
  obtain ⟨ws, hws⟩ := framePort_out p (fun x => pump { x with
    txQueue := x.txQueue.set (vcOf m) (x.txQueue[vcOf m] ++ messageFlits dst (memberEp s (ownMember s)) (msgBytes m)) }) (emit (.plane p dst m) s)
  refine ⟨ws, hws.trans ?_⟩
  unfold emit
  simp

/-- A round of requests counts as one; the rest that it changes is what leaves through the ports. -/
theorem requestRound_instOf (x : CollInst) (s : State) :
    instOf (requestRound x s) x.descId = (instOf s x.descId).map (fun y => { y with rounds := y.rounds + 1 }) := by
  have hsend : ∀ (l : List Nat) (u : State), changesOnly [.out, .ports] u
      (l.foldl (fun s c => sendAll (groupEp s) (.bcastReq (instHdr s x c)) s) u) := fun l u =>
    foldl_frame changesOnly_refl fun c _ hy => sendAll_frame _ _ hy (List.Subset.refl _)
  rw [← modInst_instOf x.descId (f := fun y => { y with rounds := y.rounds + 1 }) (fun _ => rfl) s]
  exact (hsend _ _).instOf rfl _

section
variable {p : PortId} {h : CollHdr} {x : CollInst} {s : State}

theorem applyMsg_counts {v : List (BitVec 64)} (hv : v.length = x.v) (hnew : h.sender.toNat ∉ x.counts.map Prod.fst) :
    applyMsg x (.counts h v) s = modInst x.descId (fun x => { x with counts := x.counts ++ [(h.sender.toNat, v)] }) s := by
  show (if v.length ≠ x.v then _ else _) = _
  rw [if_neg (by simp [hv]), if_neg (by simpa using hnew)]

theorem applyMsg_scalars {v : List Word} (hv : v.length = x.v) (hnew : h.sender.toNat ∉ x.scalars.map Prod.fst) :
    applyMsg x (.scalars h v) s = modInst x.descId (fun x => { x with scalars := x.scalars ++ [(h.sender.toNat, v)] }) s := by
  show (if v.length ≠ x.v then _ else _) = _
  rw [if_neg (by simp [hv]), if_neg (by simpa using hnew)]

theorem applyMsg_chunk {data : Bytes} (hroot : x.root ≠ ownMember s) (hs : h.sender.toNat = x.root)
    (hc : h.arg.toNat < chunkCount x) (hnew : h.arg.toNat ∉ x.chunks) (hlen : data.length = chunkSize x h.arg.toNat) :
    applyMsg x (.chunk h data) s = modInst x.descId (fun x => { x with chunks := x.chunks ++ [h.arg.toNat] })
      (storeBytes (hdmKey (collSlot s) (x.dst + 65536 * h.arg.toNat)) data s) := by
  show (if x.root = ownMember s ∨ x.chunks.contains h.arg.toNat then _ else _) = _
  rw [if_neg (by simp [hroot, hnew]), if_neg (by simp [hs, hc, hlen])]

theorem applyMsg_bcastEnd {n : Word} {d : Bytes} (hroot : x.root ≠ ownMember s) (hs : h.sender.toNat = x.root)
    (hn : n.toNat = x.length) (hd : x.digest = none) : applyMsg x (.bcastEnd h n d) s =
      let t := modInst x.descId (fun x => { x with digest := some d }) s
      if (missingChunks x).isEmpty || !(roundsLeft t x) then t else requestRound x t := by
  show (if x.root = ownMember s ∨ x.digest.isSome then _ else _) = _
  rw [if_neg (by simp [hroot, hd]), if_neg (by simp [hs]), if_neg (by simp [hn])]

theorem applyMsg_req (hroot : x.root = ownMember s) (hc : h.arg.toNat < chunkCount x) : applyMsg x (.req p h) s =
    let t := modInst x.descId (fun x => { x with reqs := x.reqs ++ [(h.sender.toNat, h.arg.toNat, p.val)] }) s
    if newRequest x h.sender.toNat h.arg.toNat p.val then sendChunk x h.arg.toNat t else t := by
  show (if x.root ≠ ownMember s then _ else _) = _
  rw [if_neg (by simp [hroot]), if_neg (by omega)]

end

theorem finishCounts_fits {x : CollInst} {s : State} (h : ∀ k < x.v, countSum x k (fun _ => true) < 2 ^ 64) :
    finishCounts x s = endInst x 0 0xFFFF (storeBytes (hdmKey (collSlot s) x.dst) (countBytes (ownMember s) x) s) := by
  unfold finishCounts
  rw [if_neg]
  simpa using h

/-- What a message that was waited for leaves: the command ends with its results stored. -/
theorem endInst_stores {s t : State} {x y : CollInst} (hd : y.descId = x.descId) (hc : y.cmd = x.cmd) (ht : changesOnly [.coll] s t)
    (k : Nat) (b : Bytes) : instOf (endInst y 0 0xFFFF (storeBytes k b t)) x.descId = none ∧
    (endInst y 0 0xFFFF (storeBytes k b t)).mem = writeBytes s.mem k b ∧ ∃ fv, ((endInst y 0 0xFFFF (storeBytes k b t)).ctxOf
      (collSlot s)).cq.held = (s.ctxOf (collSlot s)).cq.held ++ [cplRecord x.cmd 0 0xFFFF 0 fv] := by
  have hslot : collSlot (storeBytes k b t) = collSlot s := ht.collSlot rfl
  obtain ⟨hinst, hmem, -, fv, hheld⟩ := endInst_acts y 0 0xFFFF (storeBytes k b t)
  rw [hslot, hc, show (storeBytes k b t).ctxOf (collSlot s) = s.ctxOf (collSlot s) from ht.ctxOf rfl _] at hheld
  rw [hd] at hinst
  exact ⟨hinst, hmem.trans (congrArg (writeBytes · k b) (ht.mem rfl)), fv, hheld⟩

/-- A command whose last message came over what leaves memory and contexts ends with its record. -/
theorem endInst_ends {s t : State} {x y : CollInst} (hd : y.descId = x.descId) (hc : y.cmd = x.cmd)
    (ht : changesOnly [.coll, .out, .ports] s t) : instOf (endInst y 0 0xFFFF t) x.descId = none ∧ (endInst y 0 0xFFFF t).mem = s.mem ∧
    ∃ fv, ((endInst y 0 0xFFFF t).ctxOf (collSlot s)).cq.held =
      (s.ctxOf (collSlot s)).cq.held ++ [cplRecord x.cmd 0 0xFFFF 0 fv] := by
  have hslot : collSlot t = collSlot s := ht.collSlot rfl
  obtain ⟨hinst, hmem, -, fv, hheld⟩ := endInst_acts y 0 0xFFFF t
  rw [hslot, hc, ht.ctxOf rfl] at hheld
  rw [hd] at hinst
  exact ⟨hinst, hmem.trans (ht.mem rfl), fv, hheld⟩

/-! ### Messages of a running command, one by one -/

theorem forInstance_instOf {k : Nat} {p : PortId} {h : CollHdr} {x : CollInst} {s : State} (hx : forInstance k p h x s) :
    instOf s x.descId = some x := by
  obtain ⟨-, -, hinst, -⟩ := hx
  rw [instOf_descId hinst]
  exact hinst

/-- A change of the running command found for its own descriptor is read there. -/
theorem modInst_instOf_some {s : State} {x : CollInst} {f : CollInst → CollInst} (hf : ∀ x, (f x).descId = x.descId)
    (hx : instOf s x.descId = some x) : instOf (modInst x.descId f s) x.descId = some (f x) := by
  rw [modInst_instOf _ hf, hx, Option.map_some]

theorem countsVec_runs (s : State) (p : PortId) (h : CollHdr) (x : CollInst) (v : List (BitVec 64)) (hx : forInstance 2 p h x s)
    (hv : v.length = x.v) (hnew : h.sender.toNat ∉ x.counts.map Prod.fst) :
    let y := { x with counts := x.counts ++ [(h.sender.toNat, v)] }
    ((∃ m ∈ x.members, m ∉ y.counts.map Prod.fst) → ∃ t, exec (.countsVec p h v) s = .next t ∧ instOf t x.descId = some y ∧
      changesOnly [.coll] s t) ∧
    ((∀ m ∈ x.members, m ∈ y.counts.map Prod.fst) → (∀ k < x.v, countSum y k (fun _ => true) < 2 ^ 64) →
      ∃ t, exec (.countsVec p h v) s = .next t ∧ instOf t x.descId = none ∧
        t.mem = writeBytes s.mem (hdmKey (collSlot s) x.dst) (countBytes (ownMember s) y) ∧ ∃ fv, (t.ctxOf (collSlot s)).cq.held =
          (s.ctxOf (collSlot s)).cq.held ++ [cplRecord x.cmd 0 0xFFFF 0 fv]) := by
  intro y
  have hrun : exec (.countsVec p h v) s = .next (advanceInst x.descId (modInst x.descId
      (fun x => { x with counts := x.counts ++ [(h.sender.toNat, v)] }) s)) :=
    congrArg Host.Outcome.next ((collMsg_takes hx rfl).trans (by rw [applyMsg_counts hv hnew]))
  have hinst := modInst_instOf_some (f := fun x => { x with counts := x.counts ++ [(h.sender.toNat, v)] }) (fun _ => rfl)
    (forInstance_instOf hx)
  have hch := modInst_changes x.descId (fun x => { x with counts := x.counts ++ [(h.sender.toNat, v)] }) s
  obtain ⟨-, -, -, -, habort, hkind, -⟩ := hx
  rw [advanceInst_counts hinst habort hkind] at hrun
  generalize modInst x.descId _ s = t at hrun hinst hch
  refine ⟨fun hm => ?_, fun hm hsum => ?_⟩
  · rw [allIn_false (x := y) hm, if_neg Bool.false_ne_true] at hrun
    exact ⟨t, hrun, hinst, hch⟩
  · rw [(allIn_iff y _).2 hm, if_pos rfl, finishCounts_fits (x := y) hsum] at hrun
    obtain ⟨hnone, hmem, hheld⟩ := endInst_stores (y := y) (x := x) rfl rfl hch (hdmKey (collSlot t) x.dst) (countBytes (ownMember t) y)
    rw [hch.collSlot rfl, hch.ownMember rfl] at hmem hrun hnone hheld
    exact ⟨_, hrun, hnone, hmem, hheld⟩

theorem scalarVec_runs (s : State) (p : PortId) (h : CollHdr) (x : CollInst) (v : List Word) (hx : forInstance 3 p h x s)
    (hv : v.length = x.v) (hnew : h.sender.toNat ∉ x.scalars.map Prod.fst) :
    let y := { x with scalars := x.scalars ++ [(h.sender.toNat, v)] }
    ((∃ m ∈ x.members, m ∉ y.scalars.map Prod.fst) → ∃ t, exec (.scalarVec p h v) s = .next t ∧ instOf t x.descId = some y ∧
      changesOnly [.coll] s t) ∧
    ((∀ m ∈ x.members, m ∈ y.scalars.map Prod.fst) → ∃ t, exec (.scalarVec p h v) s = .next t ∧ instOf t x.descId = none ∧
      t.mem = writeBytes s.mem (hdmKey (collSlot s) x.dst) (scalarBytes y) ∧ ∃ fv, (t.ctxOf (collSlot s)).cq.held =
        (s.ctxOf (collSlot s)).cq.held ++ [cplRecord x.cmd 0 0xFFFF 0 fv]) := by
  intro y
  have hrun : exec (.scalarVec p h v) s = .next (advanceInst x.descId (modInst x.descId
      (fun x => { x with scalars := x.scalars ++ [(h.sender.toNat, v)] }) s)) :=
    congrArg Host.Outcome.next ((collMsg_takes hx rfl).trans (by rw [applyMsg_scalars hv hnew]))
  have hinst := modInst_instOf_some (f := fun x => { x with scalars := x.scalars ++ [(h.sender.toNat, v)] }) (fun _ => rfl)
    (forInstance_instOf hx)
  have hch := modInst_changes x.descId (fun x => { x with scalars := x.scalars ++ [(h.sender.toNat, v)] }) s
  obtain ⟨-, -, -, -, habort, hkind, -⟩ := hx
  rw [advanceInst_scalars hinst habort hkind] at hrun
  generalize modInst x.descId _ s = t at hrun hinst hch
  refine ⟨fun hm => ?_, fun hm => ?_⟩
  · rw [allIn_false (x := y) hm, if_neg Bool.false_ne_true] at hrun
    exact ⟨t, hrun, hinst, hch⟩
  · rw [(allIn_iff y _).2 hm, if_pos rfl, hch.collSlot rfl] at hrun
    obtain ⟨hnone, hmem, hheld⟩ := endInst_stores (y := y) (x := x) rfl rfl hch (hdmKey (collSlot s) x.dst) (scalarBytes y)
    exact ⟨_, hrun, hnone, hmem, hheld⟩

theorem bcastChunk_runs (s : State) (p : PortId) (h : CollHdr) (x : CollInst) (data : Bytes) (hx : forInstance 4 p h x s)
    (hroot : x.root ≠ ownMember s) (hs : h.sender.toNat = x.root) (hc : h.arg.toNat < chunkCount x) (hnew : h.arg.toNat ∉ x.chunks)
    (hlen : data.length = chunkSize x h.arg.toNat) (hd : x.digest = none) : ∃ t, exec (.bcastChunk p h data) s = .next t ∧
      instOf t x.descId = some { x with chunks := x.chunks ++ [h.arg.toNat] } ∧
      t.mem = writeBytes s.mem (hdmKey (collSlot s) (x.dst + 65536 * h.arg.toNat)) data ∧ changesOnly [.coll, .mem] s t := by
  have hrun : exec (.bcastChunk p h data) s = .next (advanceInst x.descId (modInst x.descId
      (fun x => { x with chunks := x.chunks ++ [h.arg.toNat] }) (storeBytes (hdmKey (collSlot s) (x.dst + 65536 * h.arg.toNat)) data s))) :=
    congrArg Host.Outcome.next ((collMsg_takes hx rfl).trans (by rw [applyMsg_chunk hroot hs hc hnew hlen]))
  have hstore : changesOnly [.mem] s (storeBytes (hdmKey (collSlot s) (x.dst + 65536 * h.arg.toNat)) data s) :=
    storeBytes_frame _ _ changesOnly_refl (List.Subset.refl _)
  have hinst := modInst_instOf_some (s := storeBytes (hdmKey (collSlot s) (x.dst + 65536 * h.arg.toNat)) data s)
    (f := fun x => { x with chunks := x.chunks ++ [h.arg.toNat] }) (fun _ => rfl) (forInstance_instOf hx)
  have hmod := modInst_changes x.descId (fun x => { x with chunks := x.chunks ++ [h.arg.toNat] })
    (storeBytes (hdmKey (collSlot s) (x.dst + 65536 * h.arg.toNat)) data s)
  have hmem : (modInst x.descId (fun x => { x with chunks := x.chunks ++ [h.arg.toNat] })
      (storeBytes (hdmKey (collSlot s) (x.dst + 65536 * h.arg.toNat)) data s)).mem =
      writeBytes s.mem (hdmKey (collSlot s) (x.dst + 65536 * h.arg.toNat)) data := hmod.mem rfl
  have hch := changesOnly_trans (changesOnly_mono hstore (M := [.coll, .mem]) (by decide)) (changesOnly_mono hmod (by decide))
  obtain ⟨-, -, -, -, habort, hkind, -⟩ := hx
  generalize modInst x.descId _ _ = t at hrun hinst hch hmem
  rw [advanceInst_receiver hinst habort hkind (by rw [hch.ownMember rfl]; exact hroot),
    checkDigest_unseen (x := { x with chunks := x.chunks ++ [h.arg.toNat] }) hd] at hrun
  exact ⟨t, hrun, hinst, hmem, hch⟩

theorem bcastEnd_runs (s : State) (p : PortId) (h : CollHdr) (x : CollInst) (n : Word) (d : Bytes) (hx : forInstance 4 p h x s)
    (hroot : x.root ≠ ownMember s) (hs : h.sender.toNat = x.root) (hn : n.toNat = x.length) (hd : x.digest = none) :
    (missingChunks x ≠ [] → roundsLeft s x = true → ∃ t, exec (.bcastEnd p h n d) s = .next t ∧
      instOf t x.descId = some { x with digest := some d, rounds := x.rounds + 1 } ∧ changesOnly [.coll, .out, .ports] s t) ∧
    (missingChunks x = [] → Config.shake256 (s.hdmBytes (collSlot s) x.dst x.length) 64 = d →
      ∃ t, exec (.bcastEnd p h n d) s = .next t ∧ instOf t x.descId = none ∧ t.mem = s.mem ∧ ∃ fv,
        (t.ctxOf (collSlot s)).cq.held = (s.ctxOf (collSlot s)).cq.held ++ [cplRecord x.cmd 0 0xFFFF 0 fv]) := by
  have hrun : exec (.bcastEnd p h n d) s = .next (advanceInst x.descId
      (let t := modInst x.descId (fun x => { x with digest := some d }) s
      if (missingChunks x).isEmpty || !(roundsLeft t x) then t else requestRound x t)) :=
    congrArg Host.Outcome.next ((collMsg_takes hx rfl).trans (by rw [applyMsg_bcastEnd hroot hs hn hd]))
  have hleft : roundsLeft (modInst x.descId (fun x => { x with digest := some d }) s) x = roundsLeft s x := rfl
  have hinst := modInst_instOf_some (f := fun x => { x with digest := some d }) (fun _ => rfl) (forInstance_instOf hx)
  have hch := modInst_changes x.descId (fun x => { x with digest := some d }) s
  obtain ⟨-, -, -, -, habort, hkind, -⟩ := hx
  dsimp only at hrun
  rw [hleft] at hrun
  generalize modInst x.descId _ s = u at hrun hinst hch
  refine ⟨fun hmiss hrounds => ?_, fun hmiss hdig => ?_⟩
  · rw [if_neg (by simp [hmiss, hrounds])] at hrun
    have hreq : instOf (requestRound x u) x.descId = some { x with digest := some d, rounds := x.rounds + 1 } := by
      rw [requestRound_instOf, hinst]
      rfl
    have hch' : changesOnly [.coll, .out, .ports] s (requestRound x u) :=
      changesOnly_trans (changesOnly_mono hch (by decide)) (requestRound_frame x changesOnly_refl (by decide))
    rw [advanceInst_receiver hreq habort hkind (by rw [hch'.ownMember rfl]; exact hroot),
      checkDigest_missing (x := { x with digest := some d, rounds := x.rounds + 1 }) hmiss] at hrun
    exact ⟨_, hrun, hreq, hch'⟩
  · have hbytes : u.hdmBytes (collSlot u) x.dst x.length = s.hdmBytes (collSlot s) x.dst x.length := by
      unfold State.hdmBytes
      rw [hch.mem rfl, hch.collSlot rfl]
    rw [if_pos (by simp [hmiss]), advanceInst_receiver hinst habort hkind (by rw [hch.ownMember rfl]; exact hroot),
      checkDigest_whole (x := { x with digest := some d }) (g := d) rfl hmiss ((congrArg (Config.shake256 · 64) hbytes).trans hdig)] at hrun
    refine ⟨_, hrun, endInst_ends (y := { x with digest := some d }) (x := x) rfl rfl ?_⟩
    exact changesOnly_trans (changesOnly_mono hch (by decide)) (sendAll_frame _ _ changesOnly_refl (by decide))

/-- An arrival is noted; the last one that the command waits for completes it. -/
theorem arrived_runs {s : State} {x : CollInst} {m : Nat} {c : Instr} (hinst : instOf s x.descId = some x) (habort : x.aborts = [])
    (hc : exec c s = .next (advanceInst x.descId (modInst x.descId (fun x => { x with arrived := insertNew x.arrived m }) s)))
    (hkind : x.kind = 4 ∧ x.root = ownMember s ∧ x.root ∈ x.arrived ∨ x.kind = 5) :
    let y := { x with arrived := insertNew x.arrived m }
    ((∃ m ∈ x.members, m ∉ y.arrived) → ∃ t, exec c s = .next t ∧ instOf t x.descId = some y ∧ changesOnly [.coll] s t) ∧
    ((∀ m ∈ x.members, m ∈ y.arrived) → ∃ t, exec c s = .next t ∧ instOf t x.descId = none ∧ t.mem = s.mem ∧ ∃ fv,
      (t.ctxOf (collSlot s)).cq.held = (s.ctxOf (collSlot s)).cq.held ++ [cplRecord x.cmd 0 0xFFFF 0 fv]) := by
  intro y
  have hy := modInst_instOf_some (f := fun x => { x with arrived := insertNew x.arrived m }) (fun _ => rfl) hinst
  have hch := modInst_changes x.descId (fun x => { x with arrived := insertNew x.arrived m }) s
  generalize modInst x.descId _ s = t at hc hy hch
  have hadv : advanceInst x.descId t = if allIn y y.arrived then endInst y 0 0xFFFF t else t := by
    obtain ⟨hk, hroot, hin⟩ | hk := hkind
    · have hin' : x.root ∈ y.arrived := by
        show x.root ∈ insertNew x.arrived m
        unfold insertNew
        split
        · exact hin
        · exact List.mem_append_left _ hin
      have hsame : allIn y (x.root :: y.arrived) = allIn y y.arrived := by
        rw [Bool.eq_iff_iff, allIn_iff, allIn_iff]
        refine forall₂_congr fun m _ => ?_
        rw [List.mem_cons]
        exact or_iff_right_of_imp fun he => by rw [he]; exact hin'
      rw [advanceInst_root hy habort hk (by rw [hch.ownMember rfl]; exact hroot)]
      exact if_congr (by rw [← hsame]) rfl rfl
    · exact advanceInst_barrier hy habort hk
  rw [hadv] at hc
  refine ⟨fun hm => ?_, fun hm => ?_⟩
  · rw [allIn_false (x := y) hm, if_neg Bool.false_ne_true] at hc
    exact ⟨t, hc, hy, hch⟩
  · rw [(allIn_iff y _).2 hm, if_pos rfl] at hc
    exact ⟨_, hc, endInst_ends (y := y) (x := x) rfl rfl (changesOnly_mono hch (by decide))⟩

theorem bcastReq_runs (s : State) (p : PortId) (h : CollHdr) (x : CollInst) (hx : forInstance 4 p h x s) (hroot : x.root = ownMember s)
    (hc : h.arg.toNat < chunkCount x) (hm : ∃ m ∈ x.members, m ≠ x.root ∧ m ∉ x.arrived) :
    let y := { x with reqs := x.reqs ++ [(h.sender.toNat, h.arg.toNat, p.val)] }
    (newRequest x h.sender.toNat h.arg.toNat p.val = true → ∃ t, exec (.bcastReq p h) s = .next t ∧
      instOf t x.descId = some y ∧ changesOnly [.coll, .out, .ports] s t ∧
      (∃ ws : List Codeword, t.out = s.out ++ .plane (chunkPort s h.arg.toNat) (groupEp s) (.bcastChunk (instHdr s x h.arg.toNat)
        (s.hdmBytes (collSlot s) (x.src + 65536 * h.arg.toNat) (chunkSize x h.arg.toNat))) ::
          ws.map (.codeword (chunkPort s h.arg.toNat)))) ∧
    (newRequest x h.sender.toNat h.arg.toNat p.val = false → ∃ t, exec (.bcastReq p h) s = .next t ∧
      instOf t x.descId = some y ∧ changesOnly [.coll] s t) := by
  intro y
  have hrun : exec (.bcastReq p h) s = .next (advanceInst x.descId
      (let t := modInst x.descId (fun x => { x with reqs := x.reqs ++ [(h.sender.toNat, h.arg.toNat, p.val)] }) s
      if newRequest x h.sender.toNat h.arg.toNat p.val then sendChunk x h.arg.toNat t else t)) :=
    congrArg Host.Outcome.next ((collMsg_takes hx rfl).trans (by rw [applyMsg_req hroot hc]))
  have hinst := modInst_instOf_some (f := fun x => { x with reqs := x.reqs ++ [(h.sender.toNat, h.arg.toNat, p.val)] }) (fun _ => rfl)
    (forInstance_instOf hx)
  have hch := modInst_changes x.descId (fun x => { x with reqs := x.reqs ++ [(h.sender.toNat, h.arg.toNat, p.val)] }) s
  obtain ⟨hport, -, -, -, habort, hkind, -⟩ := hx
  have hup : portsInService s ≠ [] := fun hnil => by unfold portTakes at hport; rw [hnil] at hport; cases hport
  have hwait : ∀ t, instOf t x.descId = some y → ownMember t = ownMember s → advanceInst x.descId t = t := fun t ht ho => by
    obtain ⟨m, hm, hne, hna⟩ := hm
    rw [advanceInst_root ht habort hkind (hroot.trans ho.symm), allIn_false (x := y) ⟨m, hm, by
      rw [List.mem_cons, not_or]; exact ⟨hne, hna⟩⟩, if_neg Bool.false_ne_true]
  dsimp only at hrun
  refine ⟨fun hnew => ?_, fun hnew => ?_⟩
  · have hout := sendMsg_out (s := modInst x.descId (fun x => { x with reqs := x.reqs ++ [(h.sender.toNat, h.arg.toNat, p.val)] }) s)
      (chunkPort_up hup h.arg.toNat) (groupEp s) (.bcastChunk (instHdr s x h.arg.toNat)
        (s.hdmBytes (collSlot s) (x.src + 65536 * h.arg.toNat) (chunkSize x h.arg.toNat)))
    rw [hnew, if_pos rfl] at hrun
    obtain ⟨ws, hws⟩ := hout
    have hws' : (sendChunk x h.arg.toNat (modInst x.descId (fun x => { x with
      reqs := x.reqs ++ [(h.sender.toNat, h.arg.toNat, p.val)] }) s)).out = s.out ++ _ := hws
    generalize modInst x.descId _ s = u at hrun hinst hch hws'
    have hsend : changesOnly [.out, .ports] u (sendChunk x h.arg.toNat u) := sendChunk_frame x _ changesOnly_refl (List.Subset.refl _)
    have hall : changesOnly [.coll, .out, .ports] s (sendChunk x h.arg.toNat u) :=
      changesOnly_trans (changesOnly_mono hch (by decide)) (changesOnly_mono hsend (by decide))
    have hy : instOf (sendChunk x h.arg.toNat u) x.descId = some y := (hsend.instOf rfl _).trans hinst
    rw [hwait _ hy (hall.ownMember rfl)] at hrun
    exact ⟨_, hrun, hy, hall, ws, hws'⟩
  · rw [hnew, if_neg Bool.false_ne_true, hwait _ hinst (hch.ownMember rfl)] at hrun
    exact ⟨_, hrun, hinst, hch⟩

/-- Settles O37. -/
theorem collectiveMessagesRun : Obligations.CollectiveMessagesRun := by
  unfold Obligations.CollectiveMessagesRun
  refine ⟨countsVec_runs, scalarVec_runs, bcastChunk_runs, bcastEnd_runs, fun s p h x c hc => ?arrivals, bcastReq_runs,
    fun s desc x hx hk hroot ha hd hmiss hleft => ?round, fun s p h x v hport htag hx hseq ha hk => ?other⟩
  case arrivals =>
    obtain ⟨rfl, hx, hroot, hin⟩ | ⟨rfl, hx⟩ := hc
    · have hinst := forInstance_instOf hx
      have hrun := collMsg_takes hx (m := .done h) rfl
      obtain ⟨-, -, -, -, habort, hkind, -⟩ := hx
      exact arrived_runs (m := h.sender.toNat) hinst habort (congrArg Host.Outcome.next hrun) (.inl ⟨hkind, hroot, hin⟩)
    · have hinst := forInstance_instOf hx
      have hrun := collMsg_takes hx (m := .arrive h) rfl
      obtain ⟨-, -, -, -, habort, hkind, -⟩ := hx
      exact arrived_runs (m := h.sender.toNat) hinst habort (congrArg Host.Outcome.next hrun) (.inr hkind)
  case round =>
    refine ⟨requestRound x s, ?_, ?_, requestRound_frame x changesOnly_refl (by decide)⟩
    · show Host.Outcome.next (match instOf s desc.toNat with | some x => _ | none => s) = _
      rw [hx]
      dsimp only
      rw [if_neg (by simp [hk, hroot, ha, Option.isNone_iff_eq_none, hd]), if_neg (by simpa using hmiss), if_pos hleft]
    · have hreq := requestRound_instOf x s
      rw [instOf_descId hx, hx] at hreq
      exact hreq
  case other =>
    have hrun : exec (.countsVec p h v) s = .next (discardColl x.descId s) := by
      show Host.Outcome.next (collMsg p h (.counts h v) s) = _
      unfold collMsg takeMsg
      rw [hx]
      have hk' : x.kind ≠ commandOf (.counts h v) := hk
      simp [hport, htag, hseq, ha, hk']
    refine ⟨_, hrun, ?_⟩
    unfold discardColl
    have hch := report_changes { code := 0x0714, slot := BitVec.ofNat 8 (collSlot s), isCount := true,
                                 cue := x.descId, value := s.coll.discards + 1 } { s with coll := { s.coll with discards := s.coll.discards + 1 } }
    exact ⟨hch.coll rfl, hch.mem rfl, hch.ctx rfl⟩

/-! ### Aborts and timeouts (R230 to R232) -/

theorem noteAbort_descId (initiator : Nat) (code : Code) (x : CollInst) : (noteAbort initiator code x).descId = x.descId := rfl

/-- This member aborts a running command with its event, and its own abort is noted (R231). -/
theorem abortInst_acts {s : State} {d : Nat} {x : CollInst} (hx : instOf s d = some x) (code : Code) :
    instOf (abortInst d code s) d = some (noteAbort (ownMember s) code x) ∧
    (abortInst d code s).log = pushRec s.log (recordOf
      { code := code, slot := BitVec.ofNat 8 (((holder s).map fun i => i.val).getD 255), cue := x.descId, value := x.seq } s) ∧
    changesOnly [.out, .log, .host, .coll] s (abortInst d code s) := by
  have hsym := sendSymbol_frame (ownAbort s x.descId x.seq (tagNow s) code) (changesOnly_refl (s := s)) (List.Subset.refl _)
  have hev := abortEvent_frame code x.descId x.seq (changesOnly_refl (s := sendSymbol (ownAbort s x.descId x.seq (tagNow s) code) s))
    (List.Subset.refl _)
  have hlog : (abortEvent code x.descId x.seq (sendSymbol (ownAbort s x.descId x.seq (tagNow s) code) s)).log = pushRec s.log (recordOf
      { code := code, slot := BitVec.ofNat 8 (((holder s).map fun i => i.val).getD 255), cue := x.descId, value := x.seq } s) := by
    unfold abortEvent
    rw [report_log, hsym.recordOf rfl, hsym.log rfl, hsym.holder rfl]
  have habort : abortInst d code s = modInst d (noteAbort (ownMember (abortEvent code x.descId x.seq (sendSymbol
      (ownAbort s x.descId x.seq (tagNow s) code) s))) code)
      (abortEvent code x.descId x.seq (sendSymbol (ownAbort s x.descId x.seq (tagNow s) code) s)) := by
    have hx' := hx
    unfold instOf at hx'
    unfold abortInst
    rw [hx']
    rfl
  have hchanges := changesOnly_trans (changesOnly_mono hsym (M := [.out, .log, .host]) (by decide)) hev
  refine ⟨?_, ?_, abortInst_frame d code changesOnly_refl (List.Subset.refl _)⟩
  · rw [habort, modInst_instOf _ (noteAbort_descId _ _), hchanges.instOf rfl, hx, hchanges.ownMember rfl]
    rfl
  · rw [habort, (modInst_changes ..).log rfl, hlog]

/-- Settles O38. -/
theorem collectiveAbortsRun : Obligations.CollectiveAbortsRun := by
  unfold Obligations.CollectiveAbortsRun
  refine ⟨fun s desc x hx ha => ?timeout, fun s p w a x hport hhold hw htag hx hseq => ?symbol, fun s p w hport hw => ?status,
    fun s desc x hx ha => ?expire⟩
  case timeout =>
    obtain ⟨hinst, hlog, hch⟩ := abortInst_acts (code := 0x0701) hx
    have hid := instOf_descId hx
    refine ⟨abortInst desc.toNat 0x0701 s, ?_, ?_, ?_, hch.mem rfl, hlog⟩
    · show Host.Outcome.next (match instOf s desc.toNat with | some x => _ | none => s) = _
      rw [hx]
      dsimp only
      rw [if_pos (by simp [ha]), hid]
    · rw [hinst]
      unfold noteAbort
      rw [ha]
      rfl
    · exact hch.ctx rfl
  case symbol =>
    have hst := takeStatus_frame p (some (cwStatus w)) (changesOnly_refl (s := s)) (List.Subset.refl _)
    refine ⟨modInst a.descId.toNat (noteAbort a.initiator.toNat a.error) (takeStatus p (some (cwStatus w)) s), ?_, ?_, ?_, ?_⟩
    · show Host.Outcome.next (if !(portTakes s p) then s else _) = _
      rw [hport, if_neg (by decide)]
      dsimp only
      rw [hw]
      dsimp only
      rw [hst.holder rfl, if_pos (Option.isSome_iff_ne_none.2 hhold)]
      unfold takeAbort
      dsimp only
      have htag' : tagNow (takeStatus p (some (cwStatus w)) s) = tagNow s := rfl
      have hruns : (takeStatus p (some (cwStatus w)) s).coll.insts.any
          (fun x => x.descId == a.descId.toNat && x.seq == a.seq.toNat) = true := by
        rw [hst.coll rfl]
        exact List.any_eq_true.2 ⟨x, List.mem_of_find?_eq_some hx, by simp [instOf_descId hx, hseq]⟩
      rw [if_neg (by simp [htag, htag']), if_pos hruns]
    · rw [modInst_instOf _ (noteAbort_descId _ _), hst.instOf rfl, hx]
      rfl
    · rw [(modInst_changes ..).portOf rfl]
      exact congrArg Port.farStatus (modPort_portOf_same ..)
    · exact modInst_frame _ _ (changesOnly_mono hst (by decide)) (by decide)
  case status =>
    refine ⟨takeStatus p (some (cwStatus w)) s, ?_, takeStatus_frame p _ changesOnly_refl (List.Subset.refl _), modPort_portOf_same ..⟩
    show Host.Outcome.next (if !(portTakes s p) then s else _) = _
    rw [hport, if_neg (by decide)]
    dsimp only
    rw [hw]
  case expire =>
    obtain ⟨hnone, hmem, hseq, fv, hheld⟩ := endInst_acts x (lowestAbort x.aborts).2 (lowestAbort x.aborts).1 s
    refine ⟨_, ?_, ?_, hmem, hseq, fv, hheld⟩
    · show Host.Outcome.next (match instOf s desc.toNat with | some x => _ | none => _) = _
      rw [hx]
      dsimp only
      rw [if_neg (by simpa using ha)]
    · rw [instOf_descId hx] at hnone
      exact hnone

end Sys2Proof.Machine

/-! SUPPORT. Reductions: opening, results, bounces and notices (R183, R197 to R199, R210 to R218). -/

namespace Sys2Proof.Machine

open Sys2Proof

/-! ### Running reductions -/

theorem redOf_descId {s : State} {d : Nat} {r : Reduction} (h : redOf s d = some r) : r.descId = d := by
  unfold redOf at h
  simpa using List.find?_some h

theorem changesOnly.redOf {L : List Block} {s t : State} (h : changesOnly L s t) (hb : L.contains Block.coll = false) (d : Nat) :
    redOf t d = redOf s d := by
  unfold Machine.redOf
  rw [h.coll hb]

/-- A change of a descriptor's reduction is read there. -/
theorem modRed_redOf (d : Nat) {f : Reduction → Reduction} (hf : ∀ r, (f r).descId = r.descId) (s : State) :
    redOf (modRed d f s) d = (redOf s d).map f := by
  have hpred : (fun r : Reduction => r.descId == d) ∘ (fun r => if r.descId == d then f r else r) = fun r => r.descId == d := by
    funext r
    dsimp only [Function.comp]
    split
    · rw [hf r]
    · rfl
  unfold modRed redOf
  dsimp only
  rw [List.find?_map, hpred]
  cases hr : s.coll.reds.find? (fun r => r.descId == d) with
  | none => rfl
  | some r => exact congrArg some (if_pos (List.find?_some hr))

theorem modRed_redOf_some {s : State} {r : Reduction} {f : Reduction → Reduction} (hf : ∀ r, (f r).descId = r.descId)
    (hr : redOf s r.descId = some r) : redOf (modRed r.descId f s) r.descId = some (f r) := by
  rw [modRed_redOf _ hf, hr, Option.map_some]

theorem modRed_changes (d : Nat) (f : Reduction → Reduction) (s : State) : changesOnly [.coll] s (modRed d f s) :=
  modRed_frame d f changesOnly_refl (List.Subset.refl _)

/-- A change of one owned block is read there. -/
theorem ownedOf_map (r : Reduction) (g : Nat) {f : OwnedBlock → OwnedBlock} (hf : ∀ o, (f o).g = o.g) :
    ownedOf { r with owned := r.owned.map fun o => if o.g == g then f o else o } g = (ownedOf r g).map f := by
  have hpred : (fun o : OwnedBlock => o.g == g) ∘ (fun o => if o.g == g then f o else o) = fun o => o.g == g := by
    funext o
    dsimp only [Function.comp]
    split
    · rw [hf o]
    · rfl
  unfold ownedOf
  dsimp only
  rw [List.find?_map, hpred]
  cases ho : r.owned.find? (fun o => o.g == g) with
  | none => rfl
  | some o => exact congrArg some (if_pos (List.find?_some ho))

theorem ownedOf_g {r : Reduction} {g : Nat} {o : OwnedBlock} (h : ownedOf r g = some o) : o.g = g := by
  unfold ownedOf at h
  simpa using List.find?_some h

/-! ### What notices and signals leave of a reduction (R183, R217) -/

/-- Only the notices sent, the patches due and the signals sent differ. -/
def NoticeOnly (r r' : Reduction) : Prop :=
  ∃ n p k, p ⊆ r.patchDue ∧ r' = { r with noticed := n, patchDue := p, signalled := k }

theorem NoticeOnly.refl (r : Reduction) : NoticeOnly r r := ⟨_, _, _, List.Subset.refl _, rfl⟩

theorem NoticeOnly.trans {a b c : Reduction} (h : NoticeOnly a b) (k : NoticeOnly b c) : NoticeOnly a c := by
  obtain ⟨_, _, _, hp, rfl⟩ := h
  obtain ⟨n, p, k, hq, rfl⟩ := k
  exact ⟨n, p, k, List.Subset.trans hq hp, rfl⟩

/-- The reduction of a descriptor stays but for its notices, patches due and signals. -/
def KeptRed (d : Nat) (s t : State) : Prop := ∀ r, redOf s d = some r → ∃ r', redOf t d = some r' ∧ NoticeOnly r r'

theorem KeptRed.refl (d : Nat) (s : State) : KeptRed d s s := fun r h => ⟨r, h, .refl r⟩

theorem KeptRed.trans {d : Nat} {s t u : State} (h : KeptRed d s t) (k : KeptRed d t u) : KeptRed d s u := fun r hr => by
  obtain ⟨r', hr', ha⟩ := h r hr
  obtain ⟨r'', hr'', hb⟩ := k r' hr'
  exact ⟨r'', hr'', ha.trans hb⟩

theorem KeptRed.of_changes {L : List Block} {d : Nat} {s t : State} (h : changesOnly L s t) (hb : L.contains Block.coll = false) :
    KeptRed d s t := fun r hr => ⟨r, (h.redOf hb d).trans hr, .refl r⟩

theorem KeptRed.foldl {α : Type} {d : Nat} {f : State → α → State} (h : ∀ s a, KeptRed d s (f s a)) (l : List α) (s : State) :
    KeptRed d s (l.foldl f s) := by
  induction l generalizing s with
  | nil => exact .refl d s
  | cons a l ih => exact (h s a).trans (ih _)

theorem modRed_kept {d : Nat} {f : Reduction → Reduction} (hf : ∀ r, NoticeOnly r (f r)) (s : State) : KeptRed d s (modRed d f s) :=
  fun r hr => ⟨f r, by
    rw [modRed_redOf d (fun r => by obtain ⟨_, _, _, _, h⟩ := hf r; rw [h]), hr, Option.map_some], hf r⟩

theorem flushPatches_kept (i : Slot) (d : Nat) (s : State) : KeptRed d s (flushPatches i d s) := by
  unfold flushPatches
  cases redOf s d with
  | none => exact .refl d s
  | some r =>
    dsimp only
    split
    · exact .refl d s
    · refine (modRed_kept (fun r => ⟨_, _, _, List.filter_sublist.subset, rfl⟩) s).trans (.foldl (fun s p => ?_) _ _)
      exact .of_changes (sendPatch_frame _ _ _ _ _ _ changesOnly_refl (List.Subset.refl _)) rfl

/-- A run that is done, with every block settled, has its notice sent, and then its patches go; any other changes nothing (R183). -/
theorem noticeRun_cases (i : Slot) (d run : Nat) (s : State) : noticeRun i d run s = s ∨
    ∃ u, noticeRun i d run s = flushPatches i d u ∧ KeptRed d s u ∧ changesOnly [.coll, .mem, .out, .ports] s u ∧
      ∃ r, redOf s d = some r ∧ ∀ o ∈ r.owned, o.g / 16 = run → o.settled = true := by
  unfold noticeRun
  cases hr : redOf s d with
  | none => exact .inl rfl
  | some r => cases gradSite s i with
    | none => exact .inl rfl
    | some x =>
      dsimp only
      split
      · exact .inl rfl
      next hdone =>
        have hmem : changesOnly [.mem] s { s with mem := putNotice x.1 x.2 (noticeOf x.1 s.mem r run) s.mem } :=
          changesOnly_mem changesOnly_refl (List.Subset.refl _)
        have hsend := fun (dst : BitVec 32) (m : PlaneMsg) (u : State) =>
          sendMsg_frame (portOfPlane (planeOf r.planeMask run)) dst m (changesOnly_refl (s := u)) (List.Subset.refl _)
        simp only [Bool.or_eq_true, Bool.not_eq_true', not_or, Bool.not_eq_true, Bool.not_eq_false, List.all_filter, List.all_eq_true,
          Bool.or_eq_true] at hdone
        refine .inr ⟨_, rfl, ?_, ?_, r, rfl, by simpa [imp_iff_not_or] using hdone.2⟩
        · exact (KeptRed.of_changes hmem rfl).trans ((modRed_kept (fun r => ⟨_, r.patchDue, _, List.Subset.refl _, rfl⟩) _).trans
            (.of_changes (hsend _ _ _) rfl))
        · exact changesOnly_trans (changesOnly_mono hmem (by decide))
            (changesOnly_trans (changesOnly_mono (modRed_changes d _ _) (by decide)) (changesOnly_mono (hsend _ _ _) (by decide)))

theorem noticeRun_kept (i : Slot) (d run : Nat) (s : State) : KeptRed d s (noticeRun i d run s) := by
  obtain h | ⟨u, h, hk, -⟩ := noticeRun_cases i d run s
  · rw [h]
    exact .refl d s
  · rw [h]
    exact hk.trans (flushPatches_kept i d u)

theorem noticeAll_kept (i : Slot) (d : Nat) (s : State) : KeptRed d s (noticeAll i d s) := by
  unfold noticeAll
  split
  · exact .foldl (fun s run => noticeRun_kept i d run s) _ s
  · exact .refl d s

theorem signalOnce_kept (d : Nat) (s : State) : KeptRed d s (signalOnce d s) := by
  unfold signalOnce
  split
  · dsimp only
    split
    · exact .refl d s
    · split
      · refine (modRed_kept (f := fun r => { r with signalled := r.signalled + 1 })
          (fun r => ⟨_, r.patchDue, _, List.Subset.refl _, rfl⟩) s).trans ?_
        split
        · exact .of_changes (routeSignal_frame _ _ _ changesOnly_refl (List.Subset.refl _)) rfl
        · exact .refl d _
      · exact .refl d s
  · exact .refl d s

theorem sendSignals_kept (d : Nat) (s : State) : KeptRed d s (sendSignals d s) := by
  unfold sendSignals
  split
  · exact .foldl (fun s _ => signalOnce_kept d s) _ s
  · exact .refl d s

/-! ### REDUCE_SHARDS starts (R210, R213 to R218) -/

/-- Without patches due, notices change neither contexts nor the log. -/
theorem flushPatches_quiet {i : Slot} {d : Nat} {s : State} (h : ∀ r, redOf s d = some r → r.patchDue = []) :
    changesOnly [.coll] s (flushPatches i d s) := by
  unfold flushPatches
  cases hr : redOf s d with
  | none => exact changesOnly_refl
  | some r =>
    dsimp only
    split
    · exact changesOnly_refl
    · rw [h r hr]
      exact modRed_changes ..

theorem noticeRun_quiet {i : Slot} {d : Nat} (run : Nat) {s : State} (h : ∀ r, redOf s d = some r → r.patchDue = []) :
    changesOnly [.coll, .mem, .out, .ports] s (noticeRun i d run s) := by
  obtain hsame | ⟨u, hu, hk, hch, r, hr, -⟩ := noticeRun_cases i d run s
  · rw [hsame]
    exact changesOnly_refl
  · rw [hu]
    refine changesOnly_trans hch (changesOnly_mono (flushPatches_quiet fun r' hr' => ?_) (by decide))
    obtain ⟨r'', hr'', _, _, _, hp, rfl⟩ := hk r hr
    rw [hr''] at hr'
    cases hr'
    exact List.subset_nil.1 (h r hr ▸ hp)

theorem mem_foldl_insertNew {α : Type} [DecidableEq α] {x : α} {l a : List α} (h : x ∈ l.foldl insertNew a) : x ∈ a ∨ x ∈ l := by
  induction l generalizing a with
  | nil => exact .inl h
  | cons y l ih =>
    obtain hy | hl := ih h
    · unfold insertNew at hy
      split at hy
      · exact .inl hy
      · obtain ha | hy := List.mem_append.1 hy
        · exact .inl ha
        · exact .inr (List.mem_cons.2 (.inl (List.mem_singleton.1 hy)))
    · exact .inr (List.mem_cons_of_mem y hl)

/-- The notices of a start: nothing leaves the contexts or the log, and memory changes only where a block is settled. -/
theorem noticeAll_quiet {i : Slot} {d : Nat} {s : State} {r : Reduction} (hr : redOf s d = some r) (hp : r.patchDue = []) :
    changesOnly [.coll, .mem, .out, .ports] s (noticeAll i d s) ∧
    ((∀ o ∈ r.owned, o.settled = false) → (noticeAll i d s).mem = s.mem) := by
  unfold noticeAll
  rw [hr]
  dsimp only
  have hruns : ∀ run ∈ (r.owned.map fun o => o.g / 16).foldl insertNew [], ∃ o ∈ r.owned, o.g / 16 = run := fun run hrun =>
    List.mem_map.1 ((mem_foldl_insertNew hrun).resolve_left (List.not_mem_nil))
  generalize (r.owned.map fun o => o.g / 16).foldl insertNew [] = l at hruns
  induction l generalizing s r with
  | nil => exact ⟨changesOnly_refl, fun _ => rfl⟩
  | cons run l ih =>
    obtain ⟨r', hr', n, p, k, hsub, rfl⟩ := noticeRun_kept i d run s r hr
    obtain ⟨hch, hmem⟩ := ih hr' (List.subset_nil.1 (hp ▸ hsub)) fun x hx => hruns x (List.mem_cons_of_mem _ hx)
    have hquiet := noticeRun_quiet (i := i) run fun r' h' => by
      rw [hr] at h'
      cases h'
      exact hp
    refine ⟨changesOnly_trans hquiet hch, fun hall => (hmem hall).trans ?_⟩
    obtain hsame | ⟨u, -, -, -, r', hr', hset⟩ := noticeRun_cases i d run s
    · rw [hsame]
    · rw [hr] at hr'
      cases hr'
      obtain ⟨o, ho, hg⟩ := hruns run List.mem_cons_self
      exact absurd (hset o ho hg) (Bool.eq_false_iff.1 (hall o ho))

/-- The counts that are reported are gone; the rest of the collectives stays. -/
theorem flushCounts_coll (i : Slot) (p : Nat → Bool) (s : State) :
    (flushCounts i p s).coll = { s.coll with counts := s.coll.counts.filter fun x => !(p x.1) } := by
  unfold flushCounts
  exact (foldl_frame (L := [.host, .out, .log]) changesOnly_refl fun x y hy => report_frame _ hy (List.Subset.refl _)).coll rfl

theorem flushCounts_log {i : Slot} {p : Nat → Bool} {s : State} (h : s.coll.counts = []) : (flushCounts i p s).log = s.log := by
  unfold flushCounts
  rw [h]
  rfl

/-- With no message held for its descriptor, a reduction opens every plane of its mask (R214). -/
theorem reduceRun_starts {u : State} {i : Slot} {q : QId} {r : Ready} {b : CollBody} {w : ReduceBody}
    (hheld : ∀ m ∈ u.coll.held, (heldKey m).1 ≠ b.descId) (hnone : redOf u b.descId = none) :
    ∃ x, redOf (reduceRun i q r b w u) b.descId = some x ∧ x.step = BitVec.ofNat 32 b.seq ∧
      x.planeMask = w.planeMask ∧ x.answers = (planesOf w.planeMask).map (fun p => (p, .waiting, 0)) ∧ x.owned = ownedBlocks u i ∧
      x.sent = [] ∧ x.aborts = [] ∧ ((reduceRun i q r b w u).ctxOf i).running = (u.ctxOf i).running ++ [x.cmd] ∧
      ((∀ o ∈ ownedBlocks u i, o.settled = false) → (reduceRun i q r b w u).mem = u.mem) ∧
      (u.coll.counts = [] → (reduceRun i q r b w u).log = u.log) := by
  unfold reduceRun
  rw [heldFor_none hheld, discardStale_none hheld]
  extract_lets src cmd held mine red v c y z n
  rw [if_neg (show ¬(!red.aborts.isEmpty) = true from Bool.false_ne_true), show n = z from rfl]
  have hv : changesOnly [.out, .log, .host, .coll] u v := flushCounts_frame i _ changesOnly_refl (List.Subset.refl _)
  have hy : changesOnly [.out, .log, .host, .ctx, .coll] u y :=
    addRunning_frame i cmd (changesOnly_coll (changesOnly_mono hv (by decide)) (by decide)) (by decide)
  have hz : changesOnly [.out, .ports] y z := foldl_frame changesOnly_refl fun p _ h => sendOpen_frame _ _ _ h (List.Subset.refl _)
  have hred : redOf z b.descId = some red := by
    rw [hz.redOf rfl]
    unfold redOf at hnone ⊢
    show (v.coll.reds ++ [red]).find? (fun r => r.descId == b.descId) = some red
    rw [show v.coll.reds = u.coll.reds from (congrArg Collective.reds (flushCounts_coll i _ u)).trans rfl, List.find?_append, hnone]
    simp [red]
  obtain ⟨hnotice, hmem⟩ := noticeAll_quiet (i := i) hred rfl
  have hsignal := sendSignals_frame b.descId (changesOnly_refl (s := noticeAll i b.descId z)) (List.Subset.refl _)
  obtain ⟨x, hx, nn, pp, kk, -, hsame⟩ := ((noticeAll_kept i b.descId z).trans (sendSignals_kept b.descId _)) red hred
  refine ⟨x, hx, ?_⟩
  rw [hsame]
  refine ⟨rfl, rfl, rfl, rfl, rfl, rfl, ?_, fun hall => ?_, fun hc => ?_⟩
  · rw [hsignal.ctxOf rfl, hnotice.ctxOf rfl, hz.ctxOf rfl]
    show ((modCtx i _ _).ctxOf i).running = _
    rw [modCtx_ctxOf_same]
    exact congrArg (fun c : Ctx => c.running ++ [cmd]) (hv.ctxOf rfl i)
  · rw [hsignal.mem rfl, hmem hall, hz.mem rfl]
    exact hv.mem rfl
  · rw [hsignal.log rfl, hnotice.log rfl, hz.log rfl]
    exact flushCounts_log hc

/-! ### Answers of the planes and the end (R214 to R216, R218) -/

theorem setAnswer_redOf {s : State} {r : Reduction} (hr : redOf s r.descId = some r) (p : Nat) (a : PlaneAnswer) (n : Nat) :
    redOf (setAnswer r.descId p a n s) r.descId =
      some { r with answers := r.answers.map fun x => if x.1 == p then (p, a, n) else x } := by
  unfold setAnswer
  exact modRed_redOf_some (fun _ => rfl) hr

/-- A plane's answer changes its reduction only; what is reported with it goes to the log (R215, R216). -/
theorem collEvent_acts (code : Code) (desc seq : Nat) (loc : BitVec 32) (s : State) :
    changesOnly [.out, .log, .host] s (collEvent code desc seq loc s) ∧ (collEvent code desc seq loc s).log = pushRec s.log (recordOf
      { code := code, slot := BitVec.ofNat 8 (collSlot s), loc := loc, cue := desc, value := seq } s) :=
  ⟨collEvent_frame code desc seq loc changesOnly_refl (List.Subset.refl _), report_log _ _⟩

/-- A message of a reduction that runs is taken by it (R211). -/
theorem ringMsg_takes {p : PortId} {h : CollHdr} {r : Reduction} {s : State} (hr : forReduction p h.descId.toNat h.seq h.chartTag r s)
    (f : Reduction → State → State) : ringMsg p h f s = f r s ∧ redOf s r.descId = some r := by
  obtain ⟨hport, htag, habort, hfind, hred⟩ := hr
  refine ⟨?_, by rw [redOf_descId hred]; exact hred⟩
  unfold ringMsg
  rw [hfind]
  simp [hport, htag, habort]

/-- A reduction that completes is gone with its record, its sequence number is kept (R210, R218). -/
theorem endRed_acts (i : Slot) (code : Code) (initiator : Nat) (s : State) (r : Reduction) :
    redOf (endRed i code initiator s r) r.descId = none ∧ (endRed i code initiator s r).mem = s.mem ∧
    find? ((endRed i code initiator s r).ctxOf i).lastSeq r.descId = some r.step.toNat ∧
    ∃ fv, ((endRed i code initiator s r).ctxOf i).cq.held =
      (s.ctxOf i).cq.held ++ [cplRecord r.cmd code initiator (settledCount r) fv] := by
  let u : State := { s with coll := { s.coll with reds := s.coll.reds.filter fun x => !(x.descId == r.descId) } }
  let v : State := flushCounts i (fun c => !(c == 0x0604)) u
  let w : State := completeCmd i r.cmd code initiator (settledCount r) v
  have hend : endRed i code initiator s r = setSeq i r.descId r.step.toNat w := rfl
  have hv : changesOnly [.out, .log, .host, .coll] u v := flushCounts_frame i _ changesOnly_refl (List.Subset.refl _)
  have hw : changesOnly [.out, .log, .host, .ctx] v w := completeCmd_frame i _ _ _ _ changesOnly_refl (List.Subset.refl _)
  have hseq : changesOnly [.ctx] w (setSeq i r.descId r.step.toNat w) := setSeq_frame i _ _ changesOnly_refl (List.Subset.refl _)
  obtain ⟨-, fv, hheld⟩ := completeCmd_acts i r.cmd code initiator (settledCount r) v
  have hown : (setSeq i r.descId r.step.toNat w).ctxOf i =
      { w.ctxOf i with lastSeq := setPair (w.ctxOf i).lastSeq r.descId r.step.toNat } := modCtx_ctxOf_same ..
  rw [hend]
  refine ⟨?_, ?_, ?_, fv, ?_⟩
  · rw [hseq.redOf rfl, hw.redOf rfl]
    unfold redOf
    rw [show v.coll.reds = u.coll.reds from (congrArg Collective.reds (flushCounts_coll i _ u)).trans rfl]
    refine List.find?_eq_none.2 fun y hy => ?_
    have hy' := (List.mem_filter.1 hy).2
    simpa using hy'
  · rw [hseq.mem rfl, hw.mem rfl, hv.mem rfl]
  · rw [hown]
    exact find?_setPair_same ..
  · rw [hown]
    refine hheld.trans ?_
    rw [hv.ctxOf rfl]
    rfl

theorem setAnswer_changes (d p : Nat) (a : PlaneAnswer) (n : Nat) (s : State) : changesOnly [.coll] s (setAnswer d p a n s) :=
  setAnswer_frame d p a n changesOnly_refl (List.Subset.refl _)

/-- A plane of which every OPEN went unanswered, or that asks for ring mode, is reported with its new answer (R215, R216). -/
theorem answered_acts {s : State} {r : Reduction} (hr : redOf s r.descId = some r) (code : Code) (p : PortId) (a : PlaneAnswer) (n : Nat) :
    let t := collEvent code r.descId r.step.toNat (locPort p) (setAnswer r.descId p a n s)
    redOf t r.descId = some { r with answers := r.answers.map fun x => if x.1 == p.val then (p.val, a, n) else x } ∧
    t.log = pushRec s.log (recordOf { code := code, slot := BitVec.ofNat 8 (collSlot s), loc := locPort p, cue := r.descId,
                                      value := r.step.toNat } s) ∧ t.mem = s.mem ∧ t.ctx = s.ctx := by
  intro t
  have hset := setAnswer_changes r.descId p a n s
  obtain ⟨hch, hlog⟩ := collEvent_acts code r.descId r.step.toNat (locPort p) (setAnswer r.descId p a n s)
  refine ⟨(hch.redOf rfl _).trans (setAnswer_redOf hr p a n), ?_, (hch.mem rfl).trans (hset.mem rfl), (hch.ctx rfl).trans (hset.ctx rfl)⟩
  rw [hlog, hset.log rfl, hset.recordOf rfl, hset.collSlot rfl]

/-- Settles O39. -/
theorem reductionsStart : Obligations.ReductionsStart := by
  unfold Obligations.ReductionsStart
  refine ⟨fun s i q r hh => ?starts, fun s p h r a hr ha => ?replies, fun s p r a hfind hr ha => ?retries, fun s r hfind => ?completes⟩
  case starts =>
    dsimp only
    have hexec : exec (.reduceShards i q) s = .next (startRow 0x30 reduceStart i q s) := rfl
    have hs := started_onlyQueues i q r s
    rw [startRow_headStarts hh] at hexec
    generalize started i q r s = u at hexec hs ⊢
    have hrefuse : ∀ code, changesOnly [.out, .log, .host, .ctx] u (refuseStart i q r code 0 u) ∧
        ((refuseStart i q r code 0 u).ctxOf i).cq.held = (s.ctxOf i).cq.held ++ [cplRecord (cmdOf q r.idx r.entry) code 0xFFFF 0 0] :=
      fun code => by
        obtain ⟨lc, ev, hown⟩ := refuseStart_own i q r code 0 u
        refine ⟨refuseStart_frame i q r code 0 changesOnly_refl (List.Subset.refl _), ?_⟩
        rw [hown]
        exact congrArg (fun c : CplRing => c.held ++ _) hs.cq
    have hcoll : u.coll = s.coll := hs.changes.coll rfl
    refine ⟨fun hb => ⟨_, hexec, ?_⟩, fun hb hp hpass => ⟨_, hexec, ?_⟩, fun hb hp hheld hnone => ?_⟩
    · unfold reduceStart
      dsimp only
      rw [hb, if_pos rfl]
      obtain ⟨hch, hheld⟩ := hrefuse 0x0709
      exact ⟨(hch.coll rfl).trans hcoll, hheld⟩
    · obtain ⟨hch, hheld⟩ := hrefuse 0x0708
      unfold reduceStart
      dsimp only
      rw [hb, if_neg Bool.false_ne_true, if_pos hp]
      unfold endStepPass
      have hpass' : passIs (refuseStart i q r 0x0708 0 u) (BitVec.ofNat 32 (parseColl r.entry.body).seq) = false := by
        unfold passIs passOf at hpass ⊢
        rw [hch.installed rfl, hs.changes.installed rfl]
        exact hpass
      rw [hpass', if_neg Bool.false_ne_true, if_pos rfl]
      refine ⟨?_, hheld⟩
      show (refuseStart i q r 0x0708 0 u).coll.reds = _
      rw [hch.coll rfl, hcoll]
    · obtain ⟨x, hx, hstep, hmask, hans, howned, hsent, habort, hrun, hmem, hlog⟩ := reduceRun_starts (i := i) (q := q) (r := r)
        (w := parseReduce r.entry.body) (by rw [hcoll]; exact hheld) (by unfold redOf at hnone ⊢; rw [hcoll]; exact hnone)
      have hstart : reduceStart i q r u = reduceRun i q r (parseColl r.entry.body) (parseReduce r.entry.body) u := by
        unfold reduceStart
        dsimp only
        rw [hb, if_neg Bool.false_ne_true, if_neg hp]
      rw [hstart] at hexec
      exact ⟨_, x, hexec, hx, hstep, hmask, hans, howned, hsent, habort, hrun.trans (by rw [hs.running]),
        fun hall => (hmem hall).trans (hs.changes.mem rfl), fun hc => (hlog (by rw [hcoll]; exact hc)).trans (hs.changes.log rfl)⟩
  case replies =>
    obtain ⟨htake, hred⟩ := ringMsg_takes hr (fun r s => match r.answers.find? fun a => a.1 == p.val && decide (a.2.1 = .waiting) with
      | some a => takeReply p h a.2.2 r s
      | none => s)
    have hrun : exec (.openReply p h) s = .next (takeReply p h a.2.2 r s) := by
      refine congrArg Host.Outcome.next (htake.trans ?_)
      rw [ha]
    refine ⟨fun hsub => ⟨_, hrun, ?_⟩, fun hsub => ⟨_, hrun, ?_⟩⟩
    · unfold takeReply
      rw [if_pos hsub]
      exact ⟨setAnswer_changes .., setAnswer_redOf hred ..⟩
    · unfold takeReply
      rw [if_neg (by rw [hsub]; decide), if_neg (by rw [hsub]; decide), if_pos hsub]
      exact answered_acts hred ..
  case retries =>
    have hrun : exec (.openRetry p) s = .next (retryOpen p r s) := by
      show Host.Outcome.next (match s.coll.reds.find? _ with | some r => retryOpen p r s | none => s) = _
      rw [hfind]
    unfold retryOpen at hrun
    rw [ha] at hrun
    refine ⟨fun hlt => ⟨_, hrun, ?_⟩, fun hge => ⟨_, hrun, ?_⟩⟩
    · dsimp only
      rw [if_pos hlt]
      have hch := sendOpen_frame r.descId p (a.2.2 + 1) (changesOnly_refl (s := setAnswer r.descId p .waiting (a.2.2 + 1) s))
        (List.Subset.refl _)
      exact ⟨(hch.log rfl).trans ((setAnswer_changes ..).log rfl), (hch.redOf rfl _).trans (setAnswer_redOf hr ..)⟩
    · dsimp only
      rw [if_neg (Nat.not_lt.2 hge)]
      obtain ⟨hred, hlog, -⟩ := answered_acts hr 0x0717 p .unreachable 0
      exact ⟨hred, hlog⟩
  case completes =>
    have hsend : changesOnly [.out, .ports] s ((planesOf r.planeMask).foldl
        (fun s p => sendMsg (portOfPlane p) reducerEp (.close (ownHdr s r.descId r.step 0 0 0)) s) s) :=
      foldl_frame changesOnly_refl fun p _ h => sendMsg_frame _ _ _ h (List.Subset.refl _)
    refine ⟨finishReduce (collSlot s) r s, ?_, ?_⟩
    · show Host.Outcome.next (match s.coll.reds.find? _ with | some r => finishReduce (collSlot s) r s | none => s) = _
      rw [hfind]
    · unfold finishReduce
      dsimp only
      generalize (planesOf r.planeMask).foldl _ s = u at hsend
      obtain ⟨hnone, hmem, hseq, fv, hheld⟩ := endRed_acts (collSlot s) 0 0xFFFF u r
      rw [hsend.ctxOf rfl] at hheld
      exact ⟨hnone, hmem.trans (hsend.mem rfl), hseq, fv, hheld⟩

end Sys2Proof.Machine

/-! SUPPORT. What comes back to the members of a reduction (R183, R197 to R199). -/

namespace Sys2Proof.Machine

open Sys2Proof

/-! ### Owned blocks (R198, R199) -/

theorem changesOnly.descOf {L : List Block} {s t : State} (h : changesOnly L s t)
    (hb : (L.contains Block.loader || L.contains Block.installed) = false) (d : Nat) : descOf t d = descOf s d := by
  rw [Bool.or_eq_false_iff] at hb
  obtain ⟨hl, hi⟩ := hb
  unfold Machine.descOf installedChart chartOf
  rw [h.installed hi, h.loader hl]

/-- A change of one owned block of a reduction is read there. -/
theorem modOwned_ownedOf {s : State} {d g : Nat} {r : Reduction} {f : OwnedBlock → OwnedBlock} (hf : ∀ o, (f o).g = o.g)
    (hr : redOf s d = some r) : ∃ r', redOf (modOwned d g f s) d = some r' ∧ ownedOf r' g = (ownedOf r g).map f := by
  obtain rfl := redOf_descId hr
  refine ⟨{ r with owned := r.owned.map fun o => if o.g == g then f o else o }, ?_, ownedOf_map r g hf⟩
  unfold modOwned
  exact modRed_redOf_some (fun _ => rfl) hr

theorem modOwned_changes (d g : Nat) (f : OwnedBlock → OwnedBlock) (s : State) : changesOnly [.coll] s (modOwned d g f s) :=
  modOwned_frame d g f changesOnly_refl (List.Subset.refl _)

/-- This member aborts a reduction that no one aborted (R231, R232). -/
theorem abortRed_acts {s : State} {r : Reduction} (hr : redOf s r.descId = some r) (ha : r.aborts = []) (code : Code) :
    redOf (abortRed r.descId code s) r.descId = some { r with aborts := [(ownMember s, code)] } ∧
    changesOnly [.out, .coll] s (abortRed r.descId code s) := by
  refine ⟨?_, abortRed_frame r.descId code changesOnly_refl (List.Subset.refl _)⟩
  have hsym := sendSymbol_frame (ownAbort s r.descId r.step.toNat (tagNow s) code) (changesOnly_refl (s := s)) (List.Subset.refl _)
  have habort : abortRed r.descId code s = modRed r.descId (fun x => { x with aborts := [(ownMember s, code)] })
      (sendSymbol (ownAbort s r.descId r.step.toNat (tagNow s) code) s) := by
    unfold abortRed
    rw [hr]
    dsimp only
    rw [if_neg (by simp [ha])]
  rw [habort]
  exact modRed_redOf_some (fun _ => rfl) ((hsym.redOf rfl _).trans hr)

/-- An event about a block goes to the log (R207). -/
theorem blockEvent_acts (code : Code) (g member : Nat) (s : State) : changesOnly [.out, .log, .host] s (blockEvent code g member s) ∧
    (blockEvent code g member s).log = pushRec s.log (recordOf
      { code := code, slot := BitVec.ofNat 8 (collSlot s), cue := member, value := g } s) :=
  ⟨blockEvent_frame code g member changesOnly_refl (List.Subset.refl _), report_log _ _⟩

/-- A reported abort of a reduction: its event, and its own abort noted. -/
theorem abortReported_acts {s : State} {r : Reduction} (hr : redOf s r.descId = some r) (ha : r.aborts = []) (code : Code) (g : Nat) :
    let t := abortRed r.descId code (blockEvent code g (ownMember s) s)
    redOf t r.descId = some { r with aborts := [(ownMember s, code)] } ∧
    t.log = pushRec s.log (recordOf { code := code, slot := BitVec.ofNat 8 (collSlot s), cue := ownMember s, value := g } s) ∧
    t.mem = s.mem ∧ t.ctx = s.ctx := by
  intro t
  obtain ⟨hev, hlog⟩ := blockEvent_acts code g (ownMember s) s
  obtain ⟨hred, hch⟩ := abortRed_acts ((hev.redOf rfl _).trans hr) ha code
  rw [hev.ownMember rfl] at hred
  exact ⟨hred, (hch.log rfl).trans hlog, (hch.mem rfl).trans (hev.mem rfl), (hch.ctx rfl).trans (hev.ctx rfl)⟩

/-- A result that is asked for again counts one more try of its block (R199). -/
theorem askResult_again {i : Slot} {r : Reduction} {o : OwnedBlock} {s : State} (h : o.tries < (descOf s r.descId).retryLimit) :
    askResult i r o s = modOwned r.descId o.g (fun o => { o with tries := o.tries + 1 })
      (sendMsg (portOfPlane (redPlane r o.g)) (resultDst s r o.g) (.resultReq (blockRef s r o.g)) s) := by
  unfold askResult
  rw [if_pos h]

theorem askResult_acts {i : Slot} {r r' : Reduction} {o o' : OwnedBlock} {g : Nat} {s : State} (hr : redOf s r.descId = some r')
    (ho : ownedOf r' g = some o) (hg : o'.g = g) (h : o'.tries < (descOf s r.descId).retryLimit) :
    ∃ r'', redOf (askResult i r o' s) r.descId = some r'' ∧ ownedOf r'' g = some { o with tries := o.tries + 1 } ∧
      (askResult i r o' s).log = s.log ∧ (askResult i r o' s).mem = s.mem := by
  have hsend := sendMsg_frame (portOfPlane (redPlane r o'.g)) (resultDst s r o'.g) (.resultReq (blockRef s r o'.g))
    (changesOnly_refl (s := s)) (List.Subset.refl _)
  rw [askResult_again h]
  obtain ⟨r'', hr'', ho''⟩ := modOwned_ownedOf (g := o'.g) (f := fun o => { o with tries := o.tries + 1 }) (fun _ => rfl)
    ((hsend.redOf rfl _).trans hr)
  rw [hg, ho, Option.map_some] at ho''
  exact ⟨r'', hr'', ho'', ((modOwned_changes ..).log rfl).trans (hsend.log rfl), ((modOwned_changes ..).mem rfl).trans (hsend.mem rfl)⟩

/-! ### A sound result (R199) -/

theorem ackResult_redOf (r : Reduction) (g : Nat) (src : BitVec 32) (s : State) (d : Nat) : redOf (ackResult r g src s) d = redOf s d := by
  unfold ackResult
  split
  · rfl
  · exact (sendMsg_frame _ _ _ changesOnly_refl (List.Subset.refl _)).redOf rfl d

theorem NoticeOnly.ownedOf {r r' : Reduction} (h : NoticeOnly r r') (g : Nat) : ownedOf r' g = ownedOf r g := by
  obtain ⟨_, _, _, -, rfl⟩ := h
  rfl

/-- Without replay masks, a block is settled with what came for it (R198). -/
theorem settleBlock_settles {i : Slot} {d g : Nat} {s : State} {r : Reduction} {o : OwnedBlock} (x : Option ResultMsg)
    (hr : redOf s d = some r) (ho : ownedOf r g = some o) (hm : masksOn s r = false) :
    ∃ r', redOf (settleBlock i d g x s) d = some r' ∧ ownedOf r' g = some { o with settled := true, result := x } := by
  unfold settleBlock
  rw [hr]
  dsimp only
  rw [ho]
  dsimp only
  obtain ⟨r', hr', ho'⟩ := modOwned_ownedOf (g := g) (f := fun o => { o with settled := true, result := x }) (fun _ => rfl) hr
  have hch := modOwned_changes d g (fun o => { o with settled := true, result := x }) s
  generalize modOwned d g _ s = u at hr' hch
  have hmask : masksOn u r = false := by
    unfold masksOn at hm ⊢
    rw [hch.descOf rfl]
    exact hm
  have hrec : ∀ m, recordMask i r o m u = u := fun m => by
    unfold recordMask
    rw [hmask, Bool.false_and, Bool.false_and, if_neg Bool.false_ne_true]
  rw [hrec]
  obtain ⟨r'', hr'', hkept⟩ := ((noticeRun_kept i d (g / 16) u).trans (sendSignals_kept d _)) r' hr'
  exact ⟨r'', hr'', by rw [hkept.ownedOf, ho', ho, Option.map_some]⟩

/-- An accepted result settles its block where no replay masks are on. -/
theorem acceptResult_settles {i : Slot} {r : Reduction} {o : OwnedBlock} {x : ResultMsg} (src : BitVec 32) {s : State}
    (hr : redOf s r.descId = some r) (ho : ownedOf r x.g.toNat = some o) (hm : masksOn s r = false) :
    ∃ r', redOf (acceptResult i r o x src s) r.descId = some r' ∧
      ownedOf r' x.g.toNat = some { o with settled := true, result := some { x with sums := [] } } := by
  have hack := ackResult_frame r x.g.toNat src (changesOnly_refl (s := s)) (List.Subset.refl _)
  have hred := ackResult_redOf r x.g.toNat src s r.descId
  have hev : ∀ (code : Code) (l : List Nat) (u : State), changesOnly [.out, .log, .host] u
      (l.foldl (fun s m => blockEvent code x.g.toNat m s) u) := fun code l u =>
    foldl_frame changesOnly_refl fun m _ h => blockEvent_frame _ _ _ h (List.Subset.refl _)
  unfold acceptResult
  extract_lets g a b c
  have hc : changesOnly [.out, .log, .host] a c := changesOnly_trans (hev _ _ _) (hev _ _ _)
  have hmask : masksOn c r = false := by
    unfold masksOn at hm ⊢
    rw [hc.descOf rfl, hack.descOf rfl]
    exact hm
  have hstore := storeResult_frame i o x (changesOnly_refl (s := c)) (List.Subset.refl _)
  rw [hmask, Bool.false_and, Bool.false_and, if_neg Bool.false_ne_true]
  refine settleBlock_settles _ ?_ ho ?_
  · rw [hstore.redOf rfl, hc.redOf rfl]
    exact hred.trans hr
  · unfold masksOn at hmask ⊢
    rw [hstore.descOf rfl]
    exact hmask

/-- A reduction that lives has no abort. -/
theorem liveRed_aborts {s : State} {d : Nat} {step : BitVec 32} {r : Reduction} (h : liveRed s d step = some r) : r.aborts = [] := by
  unfold liveRed at h
  have := List.find?_some h
  simp only [Bool.and_eq_true, List.isEmpty_iff] at this
  exact this.2

/-- A result for a block that waits for it is taken by what it is: an abort, one to ask for again, or a sound one (R199). -/
theorem result_runs (s : State) (p : PortId) (x : ResultMsg) (src : BitVec 32) (r : Reduction) (o : OwnedBlock) (hport : portTakes s p = true)
    (hlive : liveRed s x.descId.toNat x.step = some r) (hr : redOf s r.descId = some r) (ho : ownedOf r x.g.toNat = some o)
    (hres : o.reserved = true) (hset : o.settled = false) :
    (x.kind = 0x11 → ∃ t, exec (.result p ⟨x, src⟩) s = .next t ∧ redOf t r.descId = some { r with aborts := [(ownMember s, 0x0606)] } ∧
      t.log = pushRec s.log (recordOf { code := 0x0606, slot := BitVec.ofNat 8 (collSlot s), cue := ownMember s, value := x.g.toNat } s) ∧
      t.mem = s.mem ∧ t.ctx = s.ctx) ∧
    (x.kind = 0x10 → checksum (x.sums.map fun w => w.toInt) ≠ x.checksum.toNat → o.tries < (descOf s r.descId).retryLimit →
      ∃ t r', exec (.result p ⟨x, src⟩) s = .next t ∧ redOf t r.descId = some r' ∧
        ownedOf r' x.g.toNat = some { o with badSum := true, tries := o.tries + 1 } ∧ t.mem = s.mem ∧
        t.log = pushRec s.log (recordOf { code := 0x060B, slot := BitVec.ofNat 8 (collSlot s), cue := ownMember s, value := x.g.toNat } s)) ∧
    (x.kind = 0x10 → checksum (x.sums.map fun w => w.toInt) = x.checksum.toNat → masksOn s r = false →
      ∃ t r', exec (.result p ⟨x, src⟩) s = .next t ∧ redOf t r.descId = some r' ∧
        ownedOf r' x.g.toNat = some { o with settled := true, result := some { x with sums := [] } }) := by
  have hrun : exec (.result p ⟨x, src⟩) s = .next (takeResult (collSlot s) r x src s) := by
    show Host.Outcome.next (match liveRed s x.descId.toNat x.step with
      | some r => if portTakes s p then takeResult (collSlot s) r x src s else s
      | none => s) = _
    rw [hlive]
    dsimp only
    rw [hport, if_pos rfl]
  unfold takeResult at hrun
  dsimp only at hrun
  rw [ho] at hrun
  dsimp only at hrun
  rw [hres, if_neg (by simp), hset, if_neg Bool.false_ne_true] at hrun
  refine ⟨fun hk => ?_, fun hk hsum htry => ?_, fun hk hsum hm => ?_⟩
  · rw [if_pos hk] at hrun
    exact ⟨_, hrun, abortReported_acts hr (liveRed_aborts hlive) 0x0606 x.g.toNat⟩
  · rw [if_neg (by rw [hk]; decide), if_neg (by rw [hk]; decide), if_pos hsum] at hrun
    obtain ⟨hev, hlog⟩ := blockEvent_acts 0x060B x.g.toNat (ownMember s) s
    obtain ⟨r', hr', ho'⟩ := modOwned_ownedOf (g := x.g.toNat) (f := fun o => { o with badSum := true }) (fun _ => rfl)
      ((hev.redOf rfl _).trans hr)
    have hmod := modOwned_changes r.descId x.g.toNat (fun o => { o with badSum := true }) (blockEvent 0x060B x.g.toNat (ownMember s) s)
    rw [ho, Option.map_some] at ho'
    generalize modOwned r.descId x.g.toNat _ _ = u at hrun hr' hmod
    obtain ⟨r'', hr'', ho'', hl, hmem⟩ := askResult_acts (i := collSlot s) (o' := { o with badSum := true }) hr' ho' (ownedOf_g ho')
      (by rw [hmod.descOf rfl, hev.descOf rfl]; exact htry)
    exact ⟨_, r'', hrun, hr'', ho'', hmem.trans ((hmod.mem rfl).trans (hev.mem rfl)), hl.trans ((hmod.log rfl).trans hlog)⟩
  · rw [if_neg (by rw [hk]; decide), if_neg (by rw [hk]; decide), if_neg (not_not.2 hsum)] at hrun
    obtain ⟨r', hr', ho'⟩ := acceptResult_settles (i := collSlot s) src hr ho hm
    exact ⟨_, r', hrun, hr', ho'⟩

/-- Settles O40. -/
theorem reductionResultsRun : Obligations.ReductionResultsRun := by
  unfold Obligations.ReductionResultsRun
  refine ⟨result_runs, fun s p b r o hport hlive hr ho hres hset htry => ?noBlock, fun s g r o hfind hr ho => ?timeouts,
    fun s p n i y m hport hn hi hy => ?notices, fun s p c i y m b hport hb hown hi hy hw hk => ?bounces⟩
  case noBlock =>
    obtain ⟨r', hr', ho', hlog, hmem⟩ := askResult_acts (i := collSlot s) (o' := o) hr ho (ownedOf_g ho) htry
    refine ⟨_, r', ?_, hr', ho', hlog, hmem⟩
    show Host.Outcome.next (match liveStep s b.step with | some r => _ | none => s) = _
    rw [hlive]
    dsimp only
    rw [ho]
    dsimp only
    rw [hport, hres, hset, if_pos (by decide)]
  case timeouts =>
    have hrun : exec (.resultTimeout g) s = .next (askResult (collSlot s) r o s) := by
      show Host.Outcome.next (match s.coll.reds.find? _ with | some r => _ | none => s) = _
      rw [hfind]
      dsimp only
      rw [ho]
    refine ⟨fun htry => ?_, fun htry hbad => ?_⟩
    · obtain ⟨r', hr', ho', hlog, hmem⟩ := askResult_acts (i := collSlot s) (o' := o) hr ho (ownedOf_g ho) htry
      exact ⟨_, r', hrun, hr', ho', hlog, hmem⟩
    · have habort : r.aborts = [] := by
        have hlive := List.find?_some hfind
        simp only [Bool.and_eq_true, List.isEmpty_iff] at hlive
        exact hlive.1
      unfold askResult at hrun
      rw [if_neg (Nat.not_lt.2 htry), if_pos hbad] at hrun
      obtain ⟨hred, -, hmem, -⟩ := abortReported_acts hr habort 0x0605 o.g
      exact ⟨_, hrun, hred, hmem⟩
  case notices =>
    have htake : takeNotice n s = { s with mem := putNotice y m n s.mem } := by
      unfold takeNotice
      rw [hi]
      dsimp only
      rw [hy]
    refine exec_when (f := takeNotice n) rfl (by rw [hport, Bool.true_and, decide_eq_true hn]) ?_
    rw [htake]
    exact ⟨rfl, changesOnly_mem changesOnly_refl (List.Subset.refl _)⟩
  case bounces =>
    have hslot : collSlot s = i := by
      unfold collSlot
      rw [hi]
      rfl
    have hrun : exec (.bounce p c) s = .next (takeBounce i c s) := by
      rw [← hslot]
      exact exec_runs rfl (by rw [hport, hb, hi, decide_eq_true hown]; rfl)
    unfold takeBounce at hrun
    rw [hy] at hrun
    dsimp only at hrun
    rw [hw] at hrun
    dsimp only at hrun
    rw [if_neg (Nat.not_le.2 hk)] at hrun
    refine ⟨fun hstale => ⟨_, hrun, ?_⟩, fun hnow herr => ⟨_, hrun, ?_⟩⟩
    · rw [if_pos (decide_eq_true hstale)]
      obtain ⟨hev, hlog⟩ := blockEvent_acts 0x0609 b.g (ownMember s) s
      rw [hslot] at hlog
      exact ⟨hev.mem rfl, hev.ctx rfl, hlog⟩
    · rw [if_neg (by simpa using hnow)]
      have hcount := changesOnly_ite (c := foldPlaced s i b (layerErr y.chart b.layer) = true)
        (countBlock_frame 0x0604 b.layer (changesOnly_refl (s := addFold i y b (layerErr y.chart b.layer) (decodeContribution c) s))
          (List.Subset.refl _)) changesOnly_refl
      exact ⟨hcount.mem rfl, hcount.ctx rfl⟩

end Sys2Proof.Machine

/-! SUPPORT. Ring mode (R220 to R224). -/

namespace Sys2Proof.Machine

open Sys2Proof

/-- A message on a port in service leaves, and the codewords that go with it follow. -/
theorem sendMsg_out_taken {p : PortId} {s : State} (h : portTakes s p = true) (dst : BitVec 32) (m : PlaneMsg) :
    ∃ ws : List Codeword, (sendMsg p dst m s).out = s.out ++ .plane p dst m :: ws.map (.codeword p) := by
  refine sendMsg_out ?_ dst m
  unfold portTakes portsInService at h
  simp only [List.contains_eq_mem, List.mem_filter, Bool.and_eq_true, decide_eq_true_eq] at h
  exact h.2.1

theorem changesOnly.groupSizeOf {L : List Block} {s t : State} (h : changesOnly L s t)
    (hb : (L.contains Block.loader || L.contains Block.installed) = false) : groupSizeOf t = groupSizeOf s := by
  rw [Bool.or_eq_false_iff] at hb
  obtain ⟨hl, hi⟩ := hb
  unfold Machine.groupSizeOf installedChart chartOf
  rw [h.installed hi, h.loader hl]

/-- A partial goes to the next position, and its hop is noted (R222). -/
theorem sendHop_next {i : Slot} {r : Reduction} {pos : Nat} {x : ResultMsg} {s : State} (hr : redOf s r.descId = some r)
    (hpos : pos < groupSizeOf s) : redOf (sendHop i r.descId pos x s) r.descId = some { r with
      ringHops := r.ringHops ++ [{ g := x.g.toNat, position := pos, cancelSent := false, msg := x }] } ∧
    changesOnly [.coll, .out, .ports] s (sendHop i r.descId pos x s) := by
  unfold sendHop
  rw [hr]
  dsimp only
  rw [if_neg (Nat.not_le.2 hpos)]
  have hmod := modRed_changes r.descId (fun r => { r with
    ringHops := r.ringHops ++ [{ g := x.g.toNat, position := pos, cancelSent := false, msg := x }] }) s
  refine ⟨?_, sendMsg_frame _ _ _ (changesOnly_mono hmod (by decide)) (by decide)⟩
  rw [(sendMsg_frame _ _ _ changesOnly_refl (List.Subset.refl _)).redOf rfl]
  exact modRed_redOf_some (fun _ => rfl) hr

/-- A partial that a member may take is acknowledged and, without the member's own part, held (R220 to R222). -/
theorem ringPartial_runs (s : State) (p : PortId) (x : ResultMsg) (sender : BitVec 16) (tag : BitVec 32) (r : Reduction)
    (hr : forReduction p x.descId.toNat x.step tag r s) (hcancel : x.g.toNat ∉ r.ringCancelled) (htaken : x.g.toNat ∉ r.ringTaken)
    (hwait : find? r.ringWait x.g.toNat = none) (hheld : x.g.toNat ∉ r.withheld) (hlate : x.g.toNat ∉ r.ringLate)
    (hsent : x.g.toNat ∉ r.sent) : ∃ t, exec (.ringPartial p x sender tag) s = .next t ∧ redOf t r.descId = some { r with
      ringTaken := r.ringTaken ++ [x.g.toNat], ringHeld := r.ringHeld ++ [(x.g.toNat, x)] } ∧ changesOnly [.coll, .out, .ports] s t := by
  obtain ⟨hport, htag, habort, hfind, hred⟩ := hr
  have hred' : redOf s r.descId = some r := by rw [redOf_descId hred]; exact hred
  have hrun : exec (.ringPartial p x sender tag) s = .next (takePartial (collSlot s) p r x sender s) := by
    show Host.Outcome.next (if !(portTakes s p) then s else _) = _
    rw [hport, if_neg (by decide), hfind]
    simp [htag, habort]
  unfold takePartial at hrun
  dsimp only at hrun
  rw [if_neg (by simpa using hcancel), if_neg (by simpa using htaken), hwait] at hrun
  dsimp only at hrun
  rw [if_neg (by simp [hheld, hlate, hsent])] at hrun
  have hack := modRed_redOf_some (f := fun r => { r with ringTaken := r.ringTaken ++ [x.g.toNat] }) (fun _ => rfl) hred'
  have hch := modRed_changes r.descId (fun r => { r with ringTaken := r.ringTaken ++ [x.g.toNat] }) s
  generalize modRed r.descId (fun r => { r with ringTaken := r.ringTaken ++ [x.g.toNat] }) s = u at hrun hack hch
  have hsend := fun dst m => sendMsg_frame p dst m (changesOnly_refl (s := u)) (List.Subset.refl _)
  refine ⟨_, hrun, ?_, ?_⟩
  · exact modRed_redOf_some (r := { r with ringTaken := r.ringTaken ++ [x.g.toNat] }) (fun _ => rfl) (((hsend _ _).redOf rfl _).trans hack)
  · exact changesOnly_trans (changesOnly_mono hch (by decide)) (changesOnly_trans (changesOnly_mono (hsend _ _) (by decide))
      (changesOnly_mono (modRed_changes ..) (by decide)))

/-- A hop is confirmed, or its target is skipped for the next position (R222). -/
theorem hopAnswers_run (s : State) (p : PortId) (h : CollHdr) (r : Reduction) (x : RingHop)
    (hr : forReduction p h.descId.toNat h.seq h.chartTag r s) (hx : hopOf r h.arg.toNat = some x) (hfrom : fromTarget s x h = true) :
    (∃ t, exec (.hopAck p h) s = .next t ∧ changesOnly [.coll] s t ∧ redOf t r.descId = some { r with
      ringHops := r.ringHops.filter fun y => !(y.g == x.g) }) ∧
    (x.cancelSent = true → x.msg.g.toNat = x.g → x.position + 1 < groupSizeOf s → ∃ t, exec (.cancelAck p h) s = .next t ∧
      redOf t r.descId = some { r with ringHops := (r.ringHops.filter fun y => !(y.g == x.g)) ++
        [{ g := x.g, position := x.position + 1, cancelSent := false, msg := x.msg }] } ∧ t.mem = s.mem ∧
      t.log = pushRec s.log (recordOf { code := 0x0712, slot := BitVec.ofNat 8 (collSlot s), cue := r.descId, value := ringMember (groupSizeOf s) x.g x.position } s)) := by
  have hdrop : changesOnly [.coll] s (dropHop r.descId x.g s) := dropHop_frame _ _ changesOnly_refl (List.Subset.refl _)
  have hred : redOf s r.descId = some r := (ringMsg_takes hr fun _ s => s).2
  have hdropped : redOf (dropHop r.descId x.g s) r.descId = some { r with ringHops := r.ringHops.filter fun y => !(y.g == x.g) } :=
    modRed_redOf_some (fun _ => rfl) hred
  refine ⟨⟨dropHop r.descId x.g s, ?_, hdrop, hdropped⟩, fun hc hg hpos => ⟨skipHop (collSlot s) r x s, ?_, ?_⟩⟩
  · refine congrArg Host.Outcome.next ((ringMsg_takes hr _).1.trans ?_)
    rw [hx]
    dsimp only
    rw [hfrom, if_pos rfl]
  · refine congrArg Host.Outcome.next ((ringMsg_takes hr _).1.trans ?_)
    rw [hx]
    dsimp only
    rw [hfrom, hc, if_pos (by decide)]
  · unfold skipHop
    dsimp only
    generalize dropHop r.descId x.g s = u at hdrop hdropped
    have hev := report_changes { code := 0x0712, slot := BitVec.ofNat 8 (collSlot s), cue := r.descId,
                                 value := ringMember (groupSizeOf s) x.g x.position } u
    have hlog := report_log { code := 0x0712, slot := BitVec.ofNat 8 (collSlot s), cue := r.descId,
                              value := ringMember (groupSizeOf s) x.g x.position } u
    generalize report _ u = v at hev hlog
    obtain ⟨hnext, hch⟩ := sendHop_next (i := collSlot s) (pos := x.position + 1) (x := x.msg)
      (r := { r with ringHops := r.ringHops.filter fun y => !(y.g == x.g) }) ((hev.redOf rfl _).trans hdropped)
      (by rw [hev.groupSizeOf rfl, hdrop.groupSizeOf rfl]; exact hpos)
    rw [hg] at hnext
    refine ⟨hnext, (hch.mem rfl).trans ((hev.mem rfl).trans (hdrop.mem rfl)), ?_⟩
    rw [hdrop.log rfl, hdrop.recordOf rfl] at hlog
    exact (hch.log rfl).trans hlog

/-- HOP_CANCEL is answered: the block is given up where nothing of it was taken, else its HOP_ACK is sent again (R222). -/
theorem hopCancel_runs (s : State) (p : PortId) (h : CollHdr) (r : Reduction) (hr : forReduction p h.descId.toNat h.seq h.chartTag r s) :
    (h.arg.toNat ∉ r.ringTaken → find? r.ringWait h.arg.toNat = none → ∃ t, exec (.hopCancel p h) s = .next t ∧
      redOf t r.descId = some { r with ringCancelled := insertNew r.ringCancelled h.arg.toNat, ringWait := dropPair r.ringWait h.arg.toNat } ∧
      changesOnly [.coll, .out, .ports] s t) ∧
    (h.arg.toNat ∈ r.ringTaken → ∃ t, exec (.hopCancel p h) s = .next t ∧ changesOnly [.out, .ports] s t ∧
      ∃ ws : List Codeword, t.out = s.out ++ .plane p (memberEp s h.sender.toNat) (.hopAck (ownHdr s r.descId r.step h.arg.toNat 0 0)) ::
        ws.map (.codeword p)) := by
  obtain ⟨htake, hred⟩ := ringMsg_takes hr fun r s => takeCancel (collSlot s) p h r s
  obtain ⟨hport, -, -, hfind, -⟩ := hr
  have hrun : exec (.hopCancel p h) s = .next (takeCancel (collSlot s) p h r s) := by
    show Host.Outcome.next (match s.coll.reds.find? _ with | some _ => ringMsg p h _ s | none => _) = _
    rw [hfind]
    exact congrArg Host.Outcome.next htake
  unfold takeCancel at hrun
  dsimp only at hrun
  refine ⟨fun htaken hwait => ?_, fun htaken => ?_⟩
  · rw [if_neg (by simpa using htaken), hwait] at hrun
    dsimp only at hrun
    have hmod := modRed_changes r.descId (fun r => { r with
      ringCancelled := insertNew r.ringCancelled h.arg.toNat, ringWait := dropPair r.ringWait h.arg.toNat }) s
    refine ⟨_, hrun, ?_, sendMsg_frame _ _ _ (changesOnly_mono hmod (by decide)) (by decide)⟩
    rw [(sendMsg_frame _ _ _ changesOnly_refl (List.Subset.refl _)).redOf rfl]
    exact modRed_redOf_some (fun _ => rfl) hred
  · rw [if_pos (by simpa using htaken)] at hrun
    exact ⟨_, hrun, sendMsg_frame _ _ _ changesOnly_refl (List.Subset.refl _), sendMsg_out_taken hport _ _⟩

/-- The first H without a HOP_ACK cancels the hop (R222). -/
theorem hopTimeout_runs (s : State) (g : Nat) (r : Reduction) (x : RingHop)
    (hfind : (s.coll.reds.find? fun r => r.aborts.isEmpty && (hopOf r g).isSome) = some r) (hr : redOf s r.descId = some r)
    (hx : hopOf r g = some x) (hc : x.cancelSent = false) : ∃ t, exec (.hopTimeout g) s = .next t ∧
      redOf t r.descId = some { r with ringHops := r.ringHops.map fun y => if y.g == x.g then { y with cancelSent := true } else y } ∧
      changesOnly [.coll, .out, .ports] s t := by
  have hrun : exec (.hopTimeout g) s = .next (hopExpires (collSlot s) r x s) := by
    show Host.Outcome.next (match s.coll.reds.find? _ with | some r => _ | none => s) = _
    rw [hfind]
    dsimp only
    rw [hx]
  unfold hopExpires at hrun
  rw [if_neg (by simp [hc])] at hrun
  have hmod := modRed_changes r.descId (fun r => { r with
    ringHops := r.ringHops.map fun y => if y.g == x.g then { y with cancelSent := true } else y }) s
  refine ⟨_, hrun, ?_, sendMsg_frame _ _ _ (changesOnly_mono hmod (by decide)) (by decide)⟩
  rw [(sendMsg_frame _ _ _ changesOnly_refl (List.Subset.refl _)).redOf rfl]
  exact modRed_redOf_some (fun _ => rfl) hr

/-- A partial held too long goes on without this member's part (R223). -/
theorem partialHoldTimeout_runs (s : State) (g : Nat) (r : Reduction) (x : ResultMsg)
    (hfind : (s.coll.reds.find? fun r => r.aborts.isEmpty && (find? r.ringHeld g).isSome) = some r) (hr : redOf s r.descId = some r)
    (hx : find? r.ringHeld g = some x) (hpos : ringPos (groupSizeOf s) x.g.toNat (ownMember s) + 1 < groupSizeOf s) :
    ∃ t, exec (.partialHoldTimeout g) s = .next t ∧ redOf t r.descId = some { r with
      ringHeld := dropPair r.ringHeld g, ringLate := insertNew r.ringLate g,
      ringHops := r.ringHops ++ [{ g := x.g.toNat, position := ringPos (groupSizeOf s) x.g.toNat (ownMember s) + 1, cancelSent := false, msg := x }] } ∧
      changesOnly [.coll, .out, .ports] s t := by
  have hmod := modRed_changes r.descId (fun r => { r with ringHeld := dropPair r.ringHeld g, ringLate := insertNew r.ringLate g }) s
  have hred := modRed_redOf_some (f := fun r => { r with ringHeld := dropPair r.ringHeld g, ringLate := insertNew r.ringLate g })
    (fun _ => rfl) hr
  have hrun : exec (.partialHoldTimeout g) s = .next (forwardOn (collSlot s) r.descId x
      (modRed r.descId (fun r => { r with ringHeld := dropPair r.ringHeld g, ringLate := insertNew r.ringLate g }) s)) := by
    show Host.Outcome.next (match s.coll.reds.find? _ with | some r => _ | none => s) = _
    rw [hfind]
    dsimp only
    rw [hx]
  generalize modRed r.descId _ s = u at hmod hred hrun
  unfold forwardOn at hrun
  rw [hmod.groupSizeOf rfl, hmod.ownMember rfl] at hrun
  obtain ⟨hnext, hch⟩ := sendHop_next (i := collSlot s) (x := x)
    (r := { r with ringHeld := dropPair r.ringHeld g, ringLate := insertNew r.ringLate g }) hred
    (by rw [hmod.groupSizeOf rfl]; exact hpos)
  exact ⟨_, hrun, hnext, changesOnly_trans (changesOnly_mono hmod (by decide)) hch⟩

/-- Folding a contribution leaves the reductions. -/
theorem foldRing_redOf (i : Slot) (c : Contribution) (s : State) (d : Nat) : redOf (foldRing i c s) d = redOf s d := by
  unfold foldRing
  split
  · rfl
  next y m hy => split
                 · rfl
                 next b hb =>
                   split
                   · rfl
                   · unfold countedFold
                     have hfold := addFold_frame i y b (layerErr y.chart b.layer) (decodeContribution c) (changesOnly_refl (s := s))
                       (List.Subset.refl _)
                     dsimp only
                     split
                     · exact hfold.redOf rfl d
                     · exact hfold.redOf rfl d

/-- Settles O41. -/
theorem ringsRun : Obligations.RingsRun := by
  unfold Obligations.RingsRun
  refine ⟨ringPartial_runs, hopAnswers_run, hopCancel_runs, hopTimeout_runs, partialHoldTimeout_runs,
    fun s g r c hfind hr hc => ?waits, fun s p b hport => ⟨fun x hx => ?request, ?ack⟩⟩
  case waits =>
    refine ⟨_, ?_, (foldRing_redOf (collSlot s) c _ _).trans (modRed_redOf_some
      (f := fun r => { r with ringWait := dropPair r.ringWait g, ringLate := insertNew r.ringLate g }) (fun _ => rfl) hr)⟩
    show Host.Outcome.next (match s.coll.reds.find? _ with | some r => _ | none => s) = _
    rw [hfind]
    dsimp only
    rw [hc]
  case request =>
    refine ⟨sendMsg p (memberEp s x.owner.toNat) (.ringResult x) s, ?_, sendMsg_frame _ _ _ changesOnly_refl (List.Subset.refl _),
      sendMsg_out_taken hport _ _⟩
    show Host.Outcome.next (match keptOf s b.step b.g.toNat with | some x => _ | none => s) = _
    rw [hx]
    dsimp only
    rw [hport, if_pos rfl]
  case ack => exact exec_when rfl hport ⟨dropKept_frame _ _ changesOnly_refl (List.Subset.refl _), rfl⟩

end Sys2Proof.Machine

/-! SUPPORT. The cap in force (R340). -/

namespace Sys2Proof.Machine

open Sys2Proof

/-- The flow states leave the cap term. -/
theorem flowAct_capTerm (s : State) : (flowAct s).power.capTerm = s.power.capTerm := by
  have hderate : (actDerate s).power = s.power := (actDerate_frame changesOnly_refl (List.Subset.refl _)).power rfl
  have hclamp : ∀ u, (actFlowClamp u).power.capTerm = u.power.capTerm := fun u => by
    unfold actFlowClamp
    split
    · rw [assertClamp_power, (reportThermal_changes ..).power rfl]
    · rfl
  have hstop : ∀ u, (actSuddenStop u).power.capTerm = u.power.capTerm := fun u => by
    unfold actSuddenStop
    split
    · rw [assertClamp_power, (reportThermal_changes ..).power rfl]
    · rfl
  unfold flowAct
  split
  · rfl
  · rw [hstop, hclamp, hderate]

/-- Where the ROM finds a bank, its orphan cap is the cap term; without one the start stops (R340, R399). -/
theorem runRom_capTerm (s : State) (h : (runRom s).start.phase ≠ 7) : (runRom s).power.capTerm = (runRom s).power.orphanW.toNat := by
  unfold runRom at h ⊢
  dsimp only at h ⊢
  generalize chooseBank _ = x at h ⊢
  match x with
  | (bank, v) =>
    cases bank with
    | some b => rfl
    | none => exact absurd rfl h

/-- SET_POWER_CAP gives the cap term and reports the end of an expired lease. -/
theorem setCap_acts (cap : Nat) (lease : Bool) (s : State) : (setCap cap lease s).power = { s.power with
      capTerm := cap, capSet := BitVec.ofNat 16 cap, setValid := true, leased := lease, leaseLive := lease, orphan := false, expired := false } ∧
    (setCap cap lease s).log = if s.power.expired then pushRec s.log (recordOf { code := 0x0A07 } s) else s.log := by
  unfold setCap
  cases s.power.expired with
  | true =>
    dsimp only
    rw [if_pos rfl, if_pos rfl, reportPower_power, reportPower_log]
    exact ⟨rfl, rfl⟩
  | false => exact ⟨rfl, rfl⟩

/-- Settles O58. -/
theorem capInForceFollowsRules : Obligations.CapInForceFollowsRules := by
  unfold Obligations.CapInForceFollowsRules
  refine ⟨fun s => rfl, fun s x h3 h7 => ⟨flowAct (takeTray x s), rfl, ?tray⟩, fun s hl hu => ?reset,
    fun s r ha hsize hbits hclear hlo hhi =>
      ⟨_, congrArg Host.Outcome.next (mgmt_accepted ha (by rw [hsize, hbits, hclear]; rfl) _), ?set⟩, fun s hl => ?expire⟩
  case tray =>
    obtain ⟨dr, cap, fc, ss, e, hf, hact⟩ := flowAct_thermal (takeTray x s)
    rw [(takeTray_changes x s).start rfl] at hact
    obtain ⟨-, hcap, -⟩ := hact h3 h7
    refine ⟨fun hflow => ?_, (flowAct_capTerm _).trans (congrArg Power.capTerm ((takeTray_changes x s).power rfl))⟩
    have hsame : flowAtLeast (flowAct (takeTray x s)) 95 = flowAtLeast (takeTray x s) 95 := by
      unfold flowAtLeast fFullNow supplyTemp
      rw [hf]
    rw [hf]
    exact hcap.trans (if_pos (hsame.symm.trans hflow))
  case reset => exact exec_when rfl (by rw [hl, hu]; rfl) (runRom_capTerm s)
  case set =>
    dsimp only
    rw [if_neg (by simp; omega)]
    obtain ⟨hpower, hlog⟩ := setCap_acts (leAt r.body 0 2) ((byteAt r.body 2).getLsbD 0) (acceptCounter r s)
    have hans := fun u => answer_frame 0x0010 0 [] (changesOnly_refl (s := u)) (List.Subset.refl _)
    rw [(hans _).power rfl, (hans _).log rfl, hpower, hlog]
    exact ⟨rfl, rfl, rfl, rfl⟩
  case expire =>
    refine exec_when rfl hl ?_
    rw [reportPower_power, reportPower_log]
    exact ⟨rfl, rfl, rfl, rfl⟩

end Sys2Proof.Machine

/-! SUPPORT. Rows that complete with their own effect, read off the chapters' statements. -/

namespace Sys2Proof.Machine

open Sys2Proof

/-- A collective of one of the four commands runs, from what the statement of its start says. -/
theorem collective_starts {c : Slot → QId → Instr} {op k : Nat} (hc : (c = .counts ∧ op = 0x31 ∧ k = 2) ∨
      (c = .scalarSum ∧ op = 0x32 ∧ k = 3) ∨ (c = .broadcast ∧ op = 0x33 ∧ k = 4) ∨ (c = .barrier ∧ op = 0x34 ∧ k = 5))
    {s : State} {i : Slot} {q : QId} {r : Ready} (hports : portsInService (started i q r s) ≠ [])
    (hheld : ∀ m ∈ s.coll.held, (heldKey m).1 ≠ (parseColl r.entry.body).descId) (hnone : instOf s (parseColl r.entry.body).descId = none)
    (hh : headStarts op i q s r) (hr : collRefused (started i q r s) i k (parseColl r.entry.body) = false)
    (hm : ∃ m ∈ (newInst (started i q r s) i q r k (parseColl r.entry.body)).members, m ≠ ownMember (started i q r s) ∧
      (k = 4 → m ≠ (newInst (started i q r s) i q r k (parseColl r.entry.body)).root)) :
    ∃ t, exec (c i q) s = .next t ∧ instOf t (parseColl r.entry.body).descId =
      some (newInst (started i q r s) i q r k (parseColl r.entry.body)) := by
  obtain ⟨-, -, hstart⟩ := collectivesStart c op k hc s i q r hh
  obtain ⟨t, hexec, hinst, -⟩ := hstart hr hports hheld hnone hm
  exact ⟨t, hexec, hinst⟩

/-- A field test that is allowed runs with its kind. -/
theorem fieldTest_starts {s : State} {c : Instr} {k : BitVec 4} (hc : (c = .fieldTileCheck ∧ k = 1) ∨
      (c = .fieldCellColumnBist ∧ k = 2) ∨ (c = .fieldDeckCheck ∧ k = 3) ∨ (c = .fieldStackMarch ∧ k = 4))
    (hw : barWritable s = true) (hrun : s.field.running = none) (ha : fieldAllowed s = true) :
    ∃ t, exec c s = .next t ∧ t.field.running = some k ∧ t.field.kind = k := by
  obtain ⟨hstart, -⟩ := fieldTestsRun.1 s c k hc hw hrun
  obtain ⟨t, hexec, hfield, -⟩ := hstart ha
  exact ⟨t, hexec, by rw [hfield], by rw [hfield]⟩

/-- Settles O60. -/
theorem ownEffectsComplete : Obligations.OwnEffectsComplete := by
  obtain ⟨hclear, hrecover, hhalt, hhalted, hexit, hoff, htrip, hheat⟩ := coolingStatesRun
  obtain ⟨-, -, -, -, hflit, hnak, -, htimeout, -, hfec, hgo, -, -, hstop⟩ := portDataRuns
  obtain ⟨hcounts, hscalars, hchunk, hend, hacks, hreq, hround, -⟩ := collectiveMessagesRun
  obtain ⟨hfail, -, hlose, -, -, -, -, hstandby, -⟩ := hostPortsRun
  unfold Obligations.OwnEffectsComplete
  refine ⟨fun s hc hf ht => (hclear s hc hf ht).imp fun _ ⟨he, hcl, hl, _⟩ => ⟨he, hcl, hl⟩,
    fun s hs hh hf => (hrecover s hs hh hf).imp fun _ ⟨he, ht, _⟩ => ⟨he, ht⟩,
    fun s hs hh => (hhalt s hs hh).imp fun _ ⟨he, ht, _, htiles, _⟩ => ⟨he, ht, htiles⟩,
    fun s hs hh => (hhalted s hs hh).imp fun _ ⟨he, ht, hi, hl, _⟩ => ⟨he, ht, hi, hl⟩,
    fun s hs hf => (hexit s hs hf).imp fun _ ⟨he, h1, h2, h3, _, hl, _⟩ => ⟨he, h1, h2, h3, hl⟩,
    fun s hf ht => (hoff s hf ht).imp fun _ ⟨he, h1, hz, hm, _, _, hd, _, _, hl⟩ => ⟨he, h1, hz, hm, hd, hl⟩,
    fun s ht => (htrip s ht).imp fun _ ⟨he, h1, hz, hm, _, _, hd, _, _, hl⟩ => ⟨he, h1, hz, hm, hd, hl⟩,
    fun s w h0 h1 h2 h3 hu => (hheat s w h0 h1 h2 h3 hu).imp fun _ ⟨he, hl, _⟩ => ⟨he, hl⟩,
    fun s p f h k b h1 h2 h3 h4 h5 h6 h7 h8 h9 h10 =>
      (hflit s p f h k b h1 h2 h3 h4 h5 h6 h7 h8 h9 h10).imp fun _ ⟨he, hx, _, hp, _⟩ => ⟨he, hx, hp⟩,
    hnak, fun s p f l h1 h2 h3 h4 => (htimeout s p f l h1 h2 h3 h4).imp fun _ ⟨he, hu, hr, _⟩ => ⟨he, hu, hr⟩,
    fun s p l h1 => (hfec s p l h1).imp fun _ ⟨he, hd, _⟩ => ⟨he, hd⟩,
    fun s h1 h2 h3 h4 h5 => (hgo s h1 h2 h3 h4 h5).imp fun _ ⟨he, hr, _⟩ => ⟨he, hr⟩,
    fun s h1 h2 h3 => (hstop s h1 h2 h3).imp fun _ ⟨he, hr, hh, _⟩ => ⟨he, hr, hh⟩,
    fun s p h x v hx hv hn hm => ((hcounts s p h x v hx hv hn).1 hm).imp fun _ ⟨he, hi, _⟩ => ⟨he, hi⟩,
    fun s p h x v hx hv hn hm => ((hscalars s p h x v hx hv hn).1 hm).imp fun _ ⟨he, hi, _⟩ => ⟨he, hi⟩,
    fun s p h x d hx hr hs hc hn hl hd => (hchunk s p h x d hx hr hs hc hn hl hd).imp fun _ ⟨he, hi, hm, _⟩ => ⟨he, hi, hm⟩,
    fun s p h x n d hx hr hs hn hd hm hg => ((hend s p h x n d hx hr hs hn hd).2 hm hg).imp fun _ ⟨he, hi, _⟩ => ⟨he, hi⟩,
    fun s p h x hx hr ha hm => ((hacks s p h x _ (.inl ⟨rfl, hx, hr, ha⟩)).1 hm).imp fun _ ⟨he, hi, _⟩ => ⟨he, hi⟩,
    fun s p h x hx hm => ((hacks s p h x _ (.inr ⟨rfl, hx⟩)).1 hm).imp fun _ ⟨he, hi, _⟩ => ⟨he, hi⟩,
    fun s p h x hx hr hc hm hn => ((hreq s p h x hx hr hc hm).1 hn).imp fun _ ⟨he, hi, _, ws, hout⟩ =>
      ⟨he, hi, by rw [hout]; exact List.mem_append_right _ List.mem_cons_self⟩,
    fun s d x hx hk hr ha hd hm hl => (hround s d x hx hk hr ha hd hm hl).imp fun _ ⟨he, hi, _⟩ => ⟨he, hi⟩,
    fun s i q r => ?starts, fun s ha => (hfail s _ (.inl rfl) ha).imp fun _ ⟨he, hp, hs, _, hl, hc, _⟩ => ⟨he, hp, hs, hl, hc⟩,
    fun s hup ha => (hfail s _ (.inr ⟨rfl, hup⟩) ha).imp fun _ ⟨he, hp, hs, _, hl, hc, _⟩ => ⟨he, hp, hs, hl, hc⟩,
    fun s hup => (hlose s _ (.inl rfl) hup).imp fun _ ⟨he, hd, _, hl⟩ => ⟨he, hd, hl⟩,
    fun s hup => (hlose s _ (.inr rfl) hup).imp fun _ ⟨he, hd, _, hl⟩ => ⟨he, hd, hl⟩, fun s => ?standby,
    fun s hw hrun ha => ⟨fieldTest_starts (.inl ⟨rfl, rfl⟩) hw hrun ha, fieldTest_starts (.inr (.inl ⟨rfl, rfl⟩)) hw hrun ha,
      fieldTest_starts (.inr (.inr (.inl ⟨rfl, rfl⟩))) hw hrun ha, fieldTest_starts (.inr (.inr (.inr ⟨rfl, rfl⟩))) hw hrun ha⟩⟩
  case starts =>
    intro u b hports hheld hnone
    refine ⟨fun hh hr hm => collective_starts (.inl ⟨rfl, rfl, rfl⟩) hports hheld hnone hh hr ?_,
      fun hh hr hm => collective_starts (.inr (.inl ⟨rfl, rfl, rfl⟩)) hports hheld hnone hh hr ?_,
      fun hh hr hm => collective_starts (.inr (.inr (.inl ⟨rfl, rfl, rfl⟩))) hports hheld hnone hh hr ?_,
      fun hh hr hm => collective_starts (.inr (.inr (.inr ⟨rfl, rfl, rfl⟩))) hports hheld hnone hh hr ?_⟩
    · exact hm.imp fun m ⟨hin, hne⟩ => ⟨hin, hne, fun h => absurd h (by decide)⟩
    · exact hm.imp fun m ⟨hin, hne⟩ => ⟨hin, hne, fun h => absurd h (by decide)⟩
    · exact hm.imp fun m ⟨hin, hne, hroot⟩ => ⟨hin, hne, fun _ => hroot⟩
    · exact hm.imp fun m ⟨hin, hne⟩ => ⟨hin, hne, fun h => absurd h (by decide)⟩
  case standby =>
    obtain ⟨t, hexec, ht⟩ := hstandby s _ (.inl rfl)
    rw [hexec, ht]

end Sys2Proof.Machine

/-! SUPPORT. Conversions between formats (R57, R60, Table 3-3). -/

namespace Sys2Proof.Machine

open Sys2Proof

/-- A value that is an integer times a power of two on the grid needs no rounding. -/
theorem roundInt_exact (mode : Mode) (n j : Nat) : roundInt mode n 1 j = n * 2 ^ j := by
  unfold roundInt
  cases mode <;> simp [Nat.mod_one, Nat.mod_lt]

/-- The logarithm of a whole number. -/
theorem floorLog2_one {n : Nat} (h : n ≠ 0) : floorLog2 n 1 = Nat.log2 n := by
  have hle : 2 ^ Nat.log2 n ≤ n := Nat.log2_self_le h
  have hone : Nat.log2 1 = 0 := by decide
  unfold floorLog2
  rw [hone, if_pos (by simpa using hle)]
  exact Int.sub_zero _

/-- What a format must be for its finite encodings to lie within its range: those that are neither infinite nor NaN have an
exponent of at most the largest, and there a significand of at most the largest. -/
structure FFmt.Ranged (f : FFmt) : Prop where
  wide : 1 < f.emax + f.bias
  top : ∀ ex fr : Nat, ex < 2 ^ f.expBits → fr < 2 ^ f.frac → ¬(ex = 2 ^ f.expBits - 1 ∧ f.hasInf = true) →
    ¬(f.isE4m3 = true ∧ ex = 15 ∧ fr = 7) → (ex : Int) ≤ f.emax + f.bias ∧ ((ex : Int) = f.emax + f.bias → fr + 2 ^ f.frac ≤ f.top)

/-- A normal significand stays on the grid at its exponent. -/
theorem toGrid_normal (f : FFmt) (mode : Mode) {n : Nat} {e : Int} (hlo : 2 ^ f.frac ≤ n) (hhi : n < 2 ^ (f.frac + 1))
    (he : 1 - f.bias - f.frac ≤ e) : toGrid f mode n 1 e = (n, e) := by
  have hn : n ≠ 0 := by have := Nat.two_pow_pos f.frac; omega
  have hlog : Nat.log2 n = f.frac := (Nat.log2_eq_iff hn).2 ⟨hlo, hhi⟩
  have hq : max (floorLog2 n 1 + e - f.frac) (1 - f.bias - f.frac) = e := by
    rw [floorLog2_one hn, hlog]
    omega
  unfold toGrid
  rw [if_neg hn]
  dsimp only
  rw [hq, Int.sub_self, show (0 : Int) = ((0 : Nat) : Int) from rfl, roundInt_exact, if_neg (by omega)]
  simp

/-- A subnormal significand stays on the grid at the lowest exponent. -/
theorem toGrid_subnormal (f : FFmt) (mode : Mode) {n : Nat} (hn : n ≠ 0) (hhi : n < 2 ^ f.frac) :
    toGrid f mode n 1 (1 - f.bias - f.frac) = (n, 1 - f.bias - f.frac) := by
  have hlog : Nat.log2 n < f.frac := (Nat.log2_lt hn).2 hhi
  have hq : max (floorLog2 n 1 + (1 - f.bias - f.frac) - f.frac) (1 - f.bias - f.frac) = 1 - f.bias - f.frac := by
    rw [floorLog2_one hn]
    omega
  have hpow : 2 ^ f.frac ≤ 2 ^ (f.frac + 1) := Nat.pow_le_pow_right (by decide) (Nat.le_succ _)
  unfold toGrid
  rw [if_neg hn]
  dsimp only
  rw [hq, Int.sub_self, show (0 : Int) = ((0 : Nat) : Int) from rfl, roundInt_exact, if_neg (by omega)]
  simp

/-- An encoding is its sign, its exponent and its fraction. -/
theorem encoding_parts {e m v : Nat} (h : v < 2 ^ (1 + e + m)) :
    b2n (v.testBit (m + e)) * 2 ^ (m + e) + v / 2 ^ m % 2 ^ e * 2 ^ m + v % 2 ^ m = v := by
  have hsign : v / 2 ^ (m + e) < 2 := Nat.div_lt_of_lt_mul (by rwa [← pow_succ, show m + e + 1 = 1 + e + m by omega])
  have hbit : b2n (v.testBit (m + e)) = v / 2 ^ m / 2 ^ e := by
    rw [Nat.div_div_eq_div_mul, ← pow_add, Nat.testBit_eq_decide_div_mod_eq, Nat.mod_eq_of_lt hsign]
    generalize v / 2 ^ (m + e) = c at hsign
    obtain rfl | rfl : c = 0 ∨ c = 1 := by omega
    · rfl
    · rfl
  rw [hbit]
  calc v / 2 ^ m / 2 ^ e * 2 ^ (m + e) + v / 2 ^ m % 2 ^ e * 2 ^ m + v % 2 ^ m
      = (2 ^ e * (v / 2 ^ m / 2 ^ e) + v / 2 ^ m % 2 ^ e) * 2 ^ m + v % 2 ^ m := by ring
    _ = v := by rw [Nat.div_add_mod, Nat.div_add_mod']

section
variable {f : FFmt} {v : Nat}

/-- A signed significand of a decoded value: its sign is read back from it, and its size is the significand. -/
theorem signed_parts (neg : Bool) {m : Nat} (h : m ≠ 0) :
    decide ((if neg then -(m : Int) else m) < 0) = neg ∧ (if neg then -(m : Int) else (m : Int)).natAbs = m := by
  cases neg
  · exact ⟨decide_eq_false (by simp), by simp⟩
  · exact ⟨decide_eq_true (by simp; omega), by simp⟩

/-- A value on the grid and within the range is its own conversion. -/
theorem convF_grid {sat : Bool} {mode : Mode} {neg : Bool} {n : Nat} {e : Int} (hn : n ≠ 0) (hg : toGrid f mode n 1 e = (n, e))
    (hb : beyond f n e = false) :
    convF f sat mode (.fin (if neg then -(n : Int) else n) e) = { bits := gridBits f neg n e, overflow := false } := by
  obtain ⟨hneg, habs⟩ := signed_parts neg hn
  show convRat f sat mode _ _ 1 e = _
  unfold convRat
  dsimp only
  rw [hneg, habs, hg, hb, if_neg Bool.false_ne_true]

theorem signed_isZero (neg : Bool) {n : Nat} (hn : n ≠ 0) (e : Int) : (Num.fin (if neg then -(n : Int) else n) e).isZero = false := by
  cases neg <;> simp [Num.isZero, hn]

/-- A finite encoding of a format converts back to itself, and a zero to +0 (R57). -/
theorem convF_decodeF (hf : f.Ranged) (hv : v < 2 ^ (1 + f.expBits + f.frac)) (hfin : (decodeF f v).finite = true)
    (sat : Bool) (mode : Mode) :
    convF f sat mode (decodeF f v) = { bits := if (decodeF f v).isZero then 0 else v, overflow := false } := by
  have hparts := encoding_parts hv
  have hwide := hf.wide
  have hfr : v % 2 ^ f.frac < 2 ^ f.frac := Nat.mod_lt _ (Nat.two_pow_pos _)
  have hex : v / 2 ^ f.frac % 2 ^ f.expBits < 2 ^ f.expBits := Nat.mod_lt _ (Nat.two_pow_pos _)
  have htop := hf.top _ _ hex hfr
  unfold decodeF at hfin ⊢
  dsimp only at hfin ⊢
  generalize v % 2 ^ f.frac = fr at *
  generalize v / 2 ^ f.frac % 2 ^ f.expBits = ex at *
  generalize v.testBit (f.frac + f.expBits) = neg at *
  by_cases hinf : ex = 2 ^ f.expBits - 1 ∧ f.hasInf = true
  · rw [if_pos hinf] at hfin
    split at hfin <;> cases hfin
  rw [if_neg hinf] at hfin ⊢
  by_cases hnan : f.isE4m3 = true ∧ ex = 15 ∧ fr = 7
  · rw [if_pos hnan] at hfin
    cases hfin
  rw [if_neg hnan]
  obtain ⟨hle, hsig⟩ := htop hinf hnan
  by_cases hsub : ex = 0
  · rw [if_pos hsub]
    by_cases hzero : fr = 0
    · have hz : (if neg then -((fr : Nat) : Int) else fr) = 0 := by rw [hzero]; cases neg <;> rfl
      rw [hz]
      show convRat f sat mode false 0 1 _ = _
      have hb : beyond f 0 (1 - f.bias - f.frac) = false := by unfold beyond; simp; omega
      unfold convRat toGrid
      dsimp only
      rw [if_pos rfl, hb, if_neg Bool.false_ne_true]
      rfl
    · have hb : beyond f fr (1 - f.bias - f.frac) = false := by unfold beyond; simp; omega
      rw [convF_grid hzero (toGrid_subnormal f mode hzero hfr) hb, signed_isZero neg hzero, if_neg Bool.false_ne_true]
      unfold gridBits
      rw [if_neg hzero, if_pos hfr, ← hparts, hsub, Nat.zero_mul, Nat.add_zero]
  · rw [if_neg hsub]
    have hn : fr + 2 ^ f.frac ≠ 0 := by have := Nat.two_pow_pos f.frac; omega
    have hb : beyond f (fr + 2 ^ f.frac) (ex - f.bias - f.frac) = false := by
      unfold beyond
      simp
      omega
    rw [convF_grid hn (toGrid_normal f mode (by omega) (by rw [pow_succ]; omega) (by omega)) hb, signed_isZero neg hn,
      if_neg Bool.false_ne_true]
    unfold gridBits
    have hexp : ((ex : Int) - f.bias - f.frac + f.frac + f.bias).toNat = ex := by omega
    rw [if_neg hn, if_neg (by omega), ← hparts, Nat.add_sub_cancel, hexp]

end

/-! ### Values beyond a format's range (R60) -/

/-- A power of two beyond the largest exponent gives what the format has for an overflow. -/
theorem convF_beyond {f : FFmt} (hwide : 0 ≤ f.emax + f.bias) (sat neg : Bool) (mode : Mode) {e : Int} (he : f.emax < e) :
    convF f sat mode (.fin (if neg then -1 else 1) e) = ⟨overflowBits f sat mode neg, true⟩ := by
  have hg : toGrid f mode 1 1 e = (2 ^ f.frac, e - f.frac) := by
    have hq : max (floorLog2 1 1 + e - f.frac) (1 - f.bias - f.frac) = e - f.frac := by
      rw [floorLog2_one one_ne_zero, show Nat.log2 1 = 0 by decide]
      omega
    have hpow : 2 ^ f.frac ≠ 2 ^ (f.frac + 1) := fun h => absurd (Nat.pow_right_injective (le_refl 2) h) (by omega)
    unfold toGrid
    rw [if_neg one_ne_zero]
    dsimp only
    rw [hq, Int.sub_sub_self, roundInt_exact, Nat.one_mul, if_neg hpow]
  have hb : beyond f (2 ^ f.frac) (e - f.frac) = true := by
    unfold beyond
    rw [decide_eq_true (show f.emax - f.frac < e - f.frac by omega)]
    rfl
  have hparts := signed_parts neg one_ne_zero
  show convRat f sat mode _ _ 1 e = _
  unfold convRat
  dsimp only
  rw [show (if neg then (-1 : Int) else 1) = if neg then -((1 : Nat) : Int) else (1 : Nat) from rfl, hparts.1, hparts.2, hg, hb, if_pos rfl]

/-! ### The formats of Table 3-1 -/

/-- A format whose top exponent holds infinity and NaN. -/
theorem ranged_of_inf {f : FFmt} (hinf : f.hasInf = true) (hbig : 3 < 2 ^ f.expBits)
    (hexp : f.emax + f.bias = ((2 ^ f.expBits - 2 : Nat) : Int)) (htop : f.top = 2 ^ (f.frac + 1) - 1) : f.Ranged := by
  refine ⟨by omega, fun ex fr hex hfr hspecial _ => ⟨?_, fun _ => ?_⟩⟩
  · have hne : ex ≠ 2 ^ f.expBits - 1 := fun h => hspecial ⟨h, hinf⟩
    omega
  · rw [htop, pow_succ]
    omega

/-- A format all of whose encodings are finite. -/
theorem ranged_of_finite {f : FFmt} (hbig : 2 < 2 ^ f.expBits) (hexp : f.emax + f.bias = ((2 ^ f.expBits - 1 : Nat) : Int))
    (htop : f.top = 2 ^ (f.frac + 1) - 1) : f.Ranged := by
  refine ⟨by omega, fun ex fr hex hfr _ _ => ⟨by omega, fun _ => ?_⟩⟩
  rw [htop, pow_succ]
  omega

/-- E4M3 holds a NaN in the last encoding of its top exponent only. -/
theorem ranged_e4m3 : e4m3.Ranged := by
  refine ⟨by decide, fun ex fr hex hfr _ hnan => ?_⟩
  have hlast : ¬(ex = 15 ∧ fr = 7) := fun h => hnan ⟨rfl, h⟩
  have hex' : ex < 16 := hex
  have hfr' : fr < 8 := hfr
  show (ex : Int) ≤ 15 ∧ ((ex : Int) = 15 → fr + 8 ≤ 14)
  omega

theorem ranged_of_table {f : FFmt} (h : f ∈ [e4m3, e5m2, e2m3, e3m2, e2m1, bf16, fp16, fp32, fp64]) : f.Ranged := by
  simp only [List.mem_cons, List.not_mem_nil, or_false] at h
  obtain rfl | rfl | rfl | rfl | rfl | rfl | rfl | rfl | rfl := h
  · exact ranged_e4m3
  · exact ranged_of_inf rfl (by decide) rfl rfl
  · exact ranged_of_finite (by decide) rfl rfl
  · exact ranged_of_finite (by decide) rfl rfl
  · exact ranged_of_finite (by decide) rfl rfl
  · exact ranged_of_inf rfl (by decide) rfl rfl
  · exact ranged_of_inf rfl (by decide) rfl rfl
  · exact ranged_of_inf rfl (by decide) rfl rfl
  · exact ranged_of_inf rfl (by decide) rfl rfl

/-- What each format has for an overflow (Table 3-3). -/
theorem overflowBits_of_table (sat neg : Bool) (m : Mode) :
    overflowBits e4m3 sat m neg = (if sat then 0x80 * b2n neg + 0x7E else 0x7F) ∧
    overflowBits e5m2 sat m neg = 0x80 * b2n neg + (if sat then 0x7B else 0x7C) ∧
    overflowBits bf16 sat m neg = 0x8000 * b2n neg + (if m = .rtz then 0x7F7F else 0x7F80) ∧
    overflowBits fp16 sat m neg = 0x8000 * b2n neg + (if m = .rtz then 0x7BFF else 0x7C00) ∧
    overflowBits fp32 sat m neg = 0x80000000 * b2n neg + (if m = .rtz then 0x7F7FFFFF else 0x7F800000) ∧
    overflowBits e2m1 sat m neg = 8 * b2n neg + 7 ∧ overflowBits e2m3 sat m neg = 32 * b2n neg + 31 ∧
    overflowBits e3m2 sat m neg = 32 * b2n neg + 31 := by
  refine ⟨?_, ?_, ?_, ?_, ?_, ?_, ?_, ?_⟩
  · cases sat <;> cases neg <;> rfl
  · cases sat <;> cases neg <;> rfl
  · cases neg <;> cases m <;> rfl
  · cases neg <;> cases m <;> rfl
  · cases neg <;> cases m <;> simp [overflowBits, topBits, gridBits, infBits, fp32, b2n, Mode.isRtz]
  · cases neg <;> rfl
  · cases neg <;> rfl
  · cases neg <;> rfl

/-- Settles O59. -/
theorem conversionsFollowTable : Obligations.ConversionsFollowTable := by
  unfold Obligations.ConversionsFollowTable
  refine ⟨fun f hf sat m v hv hfin => convF_decodeF (ranged_of_table hf) hv hfin sat m, fun sat m => ⟨rfl, rfl, rfl, rfl, rfl⟩,
    fun sat neg m => ?infinities, fun sat neg m k => ?beyond⟩
  case infinities => cases neg <;> exact ⟨rfl, rfl, rfl, rfl, rfl⟩
  case beyond =>
    have hover : ∀ (f : FFmt) (b : Nat), 0 ≤ f.emax + f.bias → f.emax = b → ∀ v, overflowBits f sat m neg = v →
        convF f sat m (.fin (if neg then -1 else 1) (b + 1 + k : Nat)) = ⟨v, true⟩ := fun f b hw hb v hv =>
      hv ▸ convF_beyond hw sat neg m (by rw [hb]; omega)
    obtain ⟨h4, h5, hb, h16, h32, h21, h23, h32'⟩ := overflowBits_of_table sat neg m
    exact ⟨hover e4m3 8 (by decide) rfl _ h4, hover e5m2 15 (by decide) rfl _ h5, hover bf16 127 (by decide) rfl _ hb,
      hover fp16 15 (by decide) rfl _ h16, hover fp32 127 (by decide) rfl _ h32, hover e2m1 2 (by decide) rfl _ h21,
      hover e2m3 2 (by decide) rfl _ h23, hover e3m2 4 (by decide) rfl _ h32'⟩

end Sys2Proof.Machine
